-- ==== Sys2Proof/Word.lean ====
section
/-! DEFINITION. The machine word, the byte and the sparse map the state's tables are held in. -/

namespace Sys2Proof

/-- A register word (00 R9). -/
abbrev Word := BitVec 32

/-- A byte of the buffer. -/
abbrev Byte := BitVec 8

/-- A sparse table: key and value pairs, keys strictly rising, no entry equal to the table's default value. -/
abbrev SMap (α : Type) := List (Nat × α)

end Sys2Proof
end

