-- ==== Sys2Proof/Syntax.lean ====
section
/-! DEFINITION. The commands the block takes: one constructor of Instr per row of spec/opcode_table.json,
in the table's order, and the plain data their operands are made of. -/

namespace Sys2Proof

/-- The straps of 01 Table MOD-7, as the pins stand at a rising edge of SYS_POR_N. -/
structure Straps where
  mgrSel : Bool
  act : Nat
  bootRcv : Bool
  smbAddr : Nat
  srisA : Bool
  srisB : Bool
  deriving DecidableEq, Repr

/-- A member track of a layout row (03 R90 to R93): its surface, number, CELLS, U and its defective sectors. -/
structure RowTrack where
  surface : Nat
  track : Nat
  cells : Nat
  u : Nat
  bad : List Nat
  deriving DecidableEq, Repr

/-- What a sync or resync search finds at a start position (05 R136, R138): its offset from the prediction, the
Hamming distance with erased cells counted, and the erased cells. -/
structure SyncPos where
  ofs : Int
  dist : Nat
  erased : Nat
  deriving DecidableEq, Repr

/-- A bus access: its address, and its width in bytes (00 R9). -/
structure BusAccess where
  addr : Nat
  size : Nat
  deriving DecidableEq, Repr

/-- The class of a buffer request (12 Table BUF-2): in HOST the port it comes from. -/
inductive BufClass where
  | media
  | ring
  | chord
  | host (port : Fin 2)
  | other
  deriving DecidableEq, Repr

/-- What a sector's capture brings of one element (04 R119, R121): its 7-bit samples, and how many conversions were clipped. -/
structure ElemCapture where
  samples : List Nat
  clips : Nat
  deriving DecidableEq, Repr

/-- Samples after stage 8 that an update at read cell `cell` works on: by element, from 4 cells before its interval to 29
cells after it. -/
structure SampleRun where
  cell : Nat
  streams : List (List Int)
  deriving DecidableEq, Repr

/-- What a pass of the formatter's sweep has read (07 R202): the CRC over the ROM, and by match register the bits inverted. -/
structure SweepRead where
  romCrc : Nat
  matchFlips : List Nat
  deriving DecidableEq, Repr

/-- How a save area reads behind its header against what was written (11 R298): bytes of chunks that are inverted, by
chunk, byte offset (the chunk's CRC from 262,144 on) and inverted bits, and the inverted bits of the commit record's SEQ,
chunk count, CRC, duration and VSTORE. -/
structure SaveRead where
  chunks : List (Nat × Nat × Nat)
  seq : Nat
  count : Nat
  crc : Nat
  ms : Nat
  vstore : Nat
  deriving DecidableEq, Repr

/-- A predicted servo field as the demodulator takes it (08 R206, R207, R215): the E1 samples, one for each cell, the first of
them at cell `first` from the predicted start of the field; and the pulses with their interpolated peaks, in 1/64 cell from
that start, and amplitudes. -/
structure ServoField where
  first : Int
  x : List Int
  pulses : List (Int × Nat)
  deriving DecidableEq, Repr

/-- A single upset in the main copy of a lane (09 R225, R226): bits inverted in the output message of the job that runs, in its
learner write-back, in a stored filter state (16 × head + 2 × biquad + 0 or 1 for a micro state, 192 + 2 × biquad + 0 or 1 for
a VCM state, 216 for the integrator), or in a stored coefficient word at its offset in the lane. -/
inductive LaneUpset where
  | message (mask : Nat)
  | writeBack (mask : Nat)
  | state (key mask : Nat)
  | coef (offset mask : Nat)
  deriving DecidableEq, Repr

/-- The configuration-space bits that a host's configuration write sets (14 Table HST-2): the D-state, Bus Master
Enable (clearing it is BUS_MASTER_DISABLE), Memory Space Enable, ATS Enable, PME_En, MSI-X Enable and Function Mask,
Hardware Autonomous Speed and Width Disable. -/
structure PortCfg where
  d3hot : Bool
  bme : Bool
  mse : Bool
  atsEn : Bool
  pmeEn : Bool
  msixEn : Bool
  msixMask : Bool
  speedDis : Bool
  widthDis : Bool
  deriving DecidableEq, Repr

/-- What the media, the decoders and the ring yield for a block that a command reads there (15 R390): its 4,112 bytes,
or the status it fails with. -/
inductive MediaRes where
  | good (block : Nat)
  | bad (status : Nat)
  deriving DecidableEq, Repr

/-- What verifying a package finds (17 R427, R428): the key conditions of step 2, the two signatures of every source, and
the digests of the images. -/
structure PkgCheck where
  key : Bool
  ecdsa : Bool
  mldsa : Bool
  digests : Bool
  deriving DecidableEq, Repr

/-- An alignment map as it stands in the PEG image (03 R85): its 16-byte header and its 128-byte points. -/
structure AlignData where
  header : Nat
  points : List Nat
  deriving DecidableEq, Repr

/-- What opening an envelope finds (17 R434): whether the tag verifies, and the plaintext's credential, new credential
and nonce. -/
structure EnvRes where
  tagOk : Bool
  cred : Nat
  newCred : Nat
  nonce : Nat
  deriving DecidableEq, Repr

/-- What checking a debug token finds (17 R444): the key conditions, and the two signatures. -/
structure TokCheck where
  key : Bool
  ecdsa : Bool
  mldsa : Bool
  deriving DecidableEq, Repr

/-- What a HEARTBEAT carries (18 Table RING-3): EPOCH, role, candidacy, mute request, the ring-level range, and of the
device state whether the member is in RECOVERY or debug-open and whether it is an IXR-2208. -/
structure Heartbeat where
  epoch : Nat
  role : Nat
  candidate : Bool
  mute : Bool
  lo : Nat
  hi : Nat
  barred : Bool
  is2208 : Bool
  deriving DecidableEq, Repr

/-- The part of a frame that one flit carries (18 Table RING-2): FOFS, LEN and the payload. -/
structure RingPart where
  ofs : Nat
  len : Nat
  data : Nat
  deriving DecidableEq, Repr

/-- The commands (spec/opcode_table.json). -/
inductive Instr where
  /-- REGISTER_WRITE (R8): A write to a register field with no row of its own takes effect as its access code and range checks give. -/
  | registerWrite (req : Fin 5) (addr size : Nat) (value : Word)
  /-- COUNTER_READ (R8): A read of an RC register returns its value and then clears it. -/
  | counterRead (acc : BusAccess)
  /-- LOW_HALF_READ (R10): A read of the lower register of a 64-bit pair latches the upper half into a shadow. -/
  | lowHalfRead (acc : BusAccess)
  /-- HIGH_HALF_WRITE (R10): A write to the upper register of a pair checks the held lower half with it, and both take effect together or neither does. -/
  | highHalfWrite (acc : BusAccess) (value : Word)
  /-- SYS_POR_N_LOW (R62): SYS_POR_N falls: device reset, bridge switches to bypass, and the device goes Off. -/
  | sysPorNLow
  /-- SYS_POR_N_RISE (R65): SYS_POR_N rises and the start-up sequence begins, with VSTORE charging started. -/
  | sysPorNRise (straps : Straps)
  /-- PLL_LOCK (R65): PLL0 to PLL2 lock and the core and Soundpost domains leave reset. -/
  | pllLock
  /-- FUSE_MAP_LOAD (R67): The fuse map is loaded and checked, and start-up stops when it fails. -/
  | fuseMapLoad (good : Bool) (repaired : Nat)
  /-- NUT_START (R65): The Nut starts on the real-time pair. -/
  | nutStart
  /-- SLOT_CHOICE (R419): The Nut chooses, installs or restores the firmware slot to boot and verifies its package. -/
  | slotChoice (puf : Bool) (recovery active fallback staging : PkgCheck) (entropy : Bool)
  /-- HBM_TRAINING_DONE (R304): HBM training and zero initialisation end, setting TRAINED or TRAIN_ERR. -/
  | hbmTrainingDone (good : Bool)
  /-- L2_INVALIDATION_DONE (R335): The L2 finishes invalidating its 8,192 sets and releases the application pairs from reset. -/
  | l2InvalidationDone
  /-- MAIN_RELEASE (R327): Application pair 0 is released into MAIN, whose loader checks RT, CAPO and PEG. -/
  | mainRelease (peg : List (Nat × Nat)) (maps : List AlignData)
  /-- RESTORE_SAVE (R299): At step 9 the newest verified save area is restored, merged when needed, and copied into the HBM restore region. -/
  | restoreSave (headerA headerB : Nat) (a b : SaveRead)
  /-- READY (R65): The device reaches Ready, and IQI shows ready. -/
  | ready
  /-- CLOCK_MONITOR_WINDOW (R43): A 1 µs monitoring window ends and each live island clock is judged against its range. -/
  | clockMonitorWindow (measured : List (Nat × Nat))
  /-- VMON_FAULT (R62): VCORE, VSRAM, VIO or VKS stays outside ±5 % for 2 µs and resets the device. -/
  | vmonFault
  /-- WATCHDOG_EXPIRY (R62): The watchdog count expires and resets the device with cause WDOG. -/
  | watchdogExpiry (ms : Nat)
  /-- WATCHDOG_KICK (R69): A write of SYS_WDOG_KICK restarts the watchdog count. -/
  | watchdogKick (value : Word)
  /-- SOFT_RESET (R62): SYS_RST_CTL.SOFT written with the key causes a device reset. -/
  | softReset (value : Word)
  /-- DEBUG_RESET (R62): A reset command on the unlocked debug port causes a device reset. -/
  | debugReset
  /-- DEFERRED_RESET (R63): A reset held during a save takes effect when the save ends and sets SAVE_DEFER. -/
  | deferredReset
  /-- PD_REQ_WRITE (R52): A write to SYS_PD_REQn is checked in full and either sets a new domain target or is rejected. -/
  | pdReqWrite (n : Fin 3) (value : Word)
  /-- DOMAIN_RAMP_START (R53): A pending domain starts its ramp once its requirement allows and fewer than 8 domains ramp. -/
  | domainRampStart
  /-- DOMAIN_RAMP_DONE (R53): A domain ramp completes and the domain is settled on with reset contents. -/
  | domainRampDone (d : Fin 96)
  /-- DOMAIN_POWER_DOWN_DONE (R53): A domain finishes powering down after its dependants are off. -/
  | domainPowerDownDone (d : Fin 96)
  /-- PWR_STATE_WRITE (R57): Firmware declares the device power state in SYS_PWR_STATE, arming the wake logic for Sleep. -/
  | pwrStateWrite (value : Word)
  /-- AFE_FIT_WRITE (R70): Firmware declares connected reader inputs in SYS_AFE_FIT0 or SYS_AFE_FIT1, optionally locking them. -/
  | afeFitWrite (n : Fin 2) (value : Word)
  /-- IDLE_ENTRY (R59): No media work for the idle time moves the device to Idle and unloads the heads. -/
  | idleEntry
  /-- IDLE_EXIT (R59): Media work in Idle moves the device to Active and loads the heads. -/
  | idleExit
  /-- DOZE_ENTRY (R59): Standby time or a standby command moves Idle towards Doze once the write cache is empty. -/
  | dozeEntry
  /-- SPIN_DOWN_START (R61): After the write cache is emptied the spin-down begins, the ring mutes and host links retrain. -/
  | spinDownStart
  /-- DOZE_EXIT (R59): Media work in Doze spins up the spindle and returns ring and links to full rate. -/
  | dozeExit
  /-- SLEEP_ENTRY (R59): Every used port in D3hot with no ring work moves Doze to Sleep. -/
  | sleepEntry
  /-- SLEEP_EXIT (R59): A port back in D0 or a ring frame needing the member moves Sleep to Doze. -/
  | sleepExit
  /-- VIO_LOSS (R32): Loss of VIO returns the bridge switches to bypass within 1 µs. -/
  | vioLoss
  /-- PERST_ASSERT (R39): A port's PERST_N asserts and resets only that host port. -/
  | perstAssert (p : Fin 2)
  /-- PERST_DEASSERT (R68): A port's PERST_N rises and its link training starts. -/
  | perstDeassert (p : Fin 2)
  /-- VIN_WARN (R286): VIN falls below 11.0 V and the SPT_WARN source rises. -/
  | vinWarn (vin : Nat)
  /-- VIN_WARN_RELEASE (R286): VIN stays above 11.4 V for 1 ms and the warn releases. -/
  | vinWarnRelease (vin : Nat)
  /-- VIN_FAIL (R287): VIN falls below 10.4 V and the power-fail sequence starts. -/
  | vinFail (vin : Nat)
  /-- SAVE_BEGIN (R287): The save begins writing the header and parts of its save area. -/
  | saveBegin
  /-- SAVE_COMMIT (R298): The save writes its commit record. -/
  | saveCommit (ms vstore : Nat)
  /-- VHOLD_RESTORE (R292): VHOLD follows VIN again after the off interval once VIN has stayed above 11.4 V for 20 ms. -/
  | vholdRestore
  /-- SAVE_INCOMPLETE (R293): VSTORE reaches 11 V before the commit record, VHOLD collapses and the area stays incomplete. -/
  | saveIncomplete (chunks : Nat)
  /-- VSTORE_ARMED (R294): VSTORE reaches 29.7 V with a passed self-test and the capacitor becomes armed. -/
  | vstoreArmed (vstore : Nat)
  /-- SELF_TEST_START (R295): A capacitor self-test starts at first full charge or after PERIOD_H hours. -/
  | selfTestStart
  /-- SELF_TEST_DONE (R296): The self-test times the fall to 31.0 V, computes C and sets WIN_SIZE or TEST_FAIL. -/
  | selfTestDone (ticks : Nat)
  /-- SELF_TEST_DRAW_TIMEOUT (R295): VSTORE has not fallen to 31.0 V after 200 ms and C is recorded as 10.0 mF. -/
  | selfTestDrawTimeout
  /-- SELF_TEST_RETRY (R295): A self-test abandoned by a warn is retried 60 s after the warn releases. -/
  | selfTestRetry
  /-- CHARGE_TIMEOUT (R296): VSTORE has not reached 33 V within 3 s of charging and the test fails. -/
  | chargeTimeout
  /-- SPT_TEST (R295): A write of SPT_CTL.TEST starts a self-test or is refused. -/
  | sptTest
  /-- SPT_RELEASE (R300): A write of SPT_CTL.RELEASE erases the restored save areas. -/
  | sptRelease
  /-- RETRY_HELD (R285): A write of SPT_CTL.RETRY_HELD writes every held window entry again. -/
  | retryHeld
  /-- RELOCATION (R94): A grown defect or overfull LBA is relocated to a spare once no command covers it. -/
  | relocation (nsid lba member : Nat) (row spareRows : List RowTrack)
  /-- MEMBER_START (R98): A slot begins a course member, applies its peg entry and sends the preamp frames. -/
  | memberStart (slot : Fin 16)
  /-- LOOP_UPDATE (R106): An adaptive loop reaches its update interval and steps when the accumulated error exceeds the dead band. -/
  | loopUpdate (slot : Fin 16) (loop : Fin 5) (elem : Fin 3) (cell : Nat) (lead streams : List (List Int))
  /-- DEFECT_DECLARE (R112): A thermal asperity or drop-out is declared and a defect window opens. -/
  | defectDeclare (slot : Fin 16) (cell : Nat) (streams : List (List Int))
  /-- DEFECT_WINDOW_CLOSE (R113): A defect window closes 32 read cells after its last defective cell. -/
  | defectWindowClose (slot : Fin 16)
  /-- CAPTURE_DONE (R121): A sector's capture into its sample-buffer entry completes. -/
  | captureDone (slot : Fin 16) (e0 e1 e2 : ElemCapture)
  /-- SB_HOLD_WRITE (R123): A write of CHN_FE_SB_CTL.HOLD holds or releases the sample buffer for firmware reads. -/
  | sbHoldWrite (slot : Fin 16) (value : Word)
  /-- SB_DATA_READ (R123): A read of CHN_FE_SB_DATA returns 4 cells and advances the cell address. -/
  | sbDataRead (slot : Fin 16)
  /-- EQ_TAP_ADAPT (R128): Every 256 read cells the equaliser taps adapt by sign-sign LMS. -/
  | eqTapAdapt (slot : Fin 16) (run : SampleRun)
  /-- SYNC_SEARCH_END (R137): The sync search ends at cell P + 80 and the candidate list is fixed. -/
  | syncSearchEnd (slot : Fin 16) (streams : List (List Int))
  /-- RESYNC_SEARCH_END (R138): The resync search of a later fragment ends and its position is chosen. -/
  | resyncSearchEnd (slot : Fin 16) (frag : Nat) (streams : List (List Int))
  /-- FAST_PATH_DONE (R142): The fast-path decoder finishes attempt 0 of a sector. -/
  | fastPathDone (slot : Fin 16) (entry : Fin 2) (upset : Bool)
  /-- DEEP_ATTEMPT_START (R144): A free deep engine takes the lowest unstarted attempt of the oldest queued sector. -/
  | deepAttemptStart (engine : Fin 8)
  /-- DEEP_ATTEMPT_DONE (R143): A deep-decoder attempt ends in success or failure. -/
  | deepAttemptDone (engine : Fin 8) (upset : Bool)
  /-- SECT_LO_READ (R151): A read of CHN_DET_SECT_LO returns the head record's lower half and latches its upper half. -/
  | sectLoRead (slot : Fin 16)
  /-- SECT_HI_READ (R151): A read of CHN_DET_SECT_HI returns the latched half and removes the record. -/
  | sectHiRead (slot : Fin 16)
  /-- PREAMP_FRAME_DONE (R171): A frame on the preamp control link completes. -/
  | preampFrameDone (act : Fin 4) (data : Nat)
  /-- PA_CMD_WRITE (R171): A write of CHN_PA_CMD queues one firmware preamp frame. -/
  | paCmdWrite (slot : Fin 16) (value : Word)
  /-- CLOCK_FIELD (R155): A clock-field phase error reaches the slot and corrects its phase and trim. -/
  | clockField (slot : Fin 16) (measured : Int) (samples : List Int)
  /-- MEDIA_CLOCK_LOCK (R156): Four consecutive valid fields within LOCK_TOL lock the slot. -/
  | mediaClockLock (slot : Fin 16)
  /-- LOSS_OF_LOCK (R158): A locked slot loses lock and its write gate drops with cause UNLOCK. -/
  | lossOfLock (slot : Fin 16)
  /-- CODEWORD_ENCODE_DONE (R160): The slot finishes assembling and encoding a sector's codeword. -/
  | codewordEncodeDone (slot : Fin 16) (info parity : Nat)
  /-- CODEWORD_UNDERRUN (R162): A codeword not released 128 cells before its sector causes an underrun. -/
  | codewordUnderrun (slot : Fin 16)
  /-- SENSOR_SAMPLE (R168): A sensor sample is converted and compared with its threshold. -/
  | sensorSample (input : Fin 5) (code : Nat)
  /-- SHOCK_CLEAR (R165): 64 consecutive samples within threshold clear the SHOCK source. -/
  | shockClear
  /-- PREAMP_FAULT (R173): Three low SDIO samples declare a preamp fault and raise PREAMP. -/
  | preampFault (act : Fin 4)
  /-- NOP (R186): A tab word with OP NOP starts its beat with no counter change. -/
  | nop (act thread : Fin 4)
  /-- LDCMP (R186): A tab word loads CMP with an immediate media time. -/
  | ldcmp (act thread : Fin 4)
  /-- ADDCMP (R186): A tab word adds a signed cell count to CMP. -/
  | addcmp (act thread : Fin 4)
  /-- LDLC (R186): A tab word loads LC0 or LC1. -/
  | ldlc (act thread : Fin 4)
  /-- DECLC (R186): A tab word decrements LC0 or LC1, stopping at 0. -/
  | declc (act thread : Fin 4)
  /-- TAKERUN (R191): The oldest queued run becomes current and CMP is set to its first sector. -/
  | takerun (act thread : Fin 4) (w c : Nat)
  /-- NEXTSEC (R191): The next sector of the run becomes current, requesting its block for a write. -/
  | nextsec (act thread : Fin 4) (w c : Nat)
  /-- NEXTFRAG (R186): CMP is set to the first preamble cell of the sector's next fragment. -/
  | nextfrag (act thread : Fin 4)
  /-- SKIP (R192): The current sector is missed and enters the revisit set. -/
  | skip (act thread : Fin 4)
  /-- ENDMEMBER (R195): The slot's member ends and the thread waits at the course barrier. -/
  | endmember (act thread : Fin 4)
  /-- ENDFRAG (R186): CMP is set to the first cell after the current fragment's pad. -/
  | endfrag (act thread : Fin 4)
  /-- TAB_BEAT_END (R186): A tab word's beat ends, its condition is evaluated and the thread branches. -/
  | tabBeatEnd (act thread : Fin 4) (w c : Nat)
  /-- EDGE_QUEUE_PUSH (R186): A tab word pushes an edge-queue entry once the queue has room. -/
  | edgeQueuePush (act thread : Fin 4) (w c : Nat)
  /-- EDGE_ENTRY_APPLY (R180): The slot reaches an entry's media time and applies its four gate levels. -/
  | edgeEntryApply (slot : Fin 16)
  /-- RUN_PUSH (R189): A write of FMT_RUN_D2 checks and pushes a run onto the slot's run queue. -/
  | runPush (act : Fin 4) (value : Word)
  /-- RUN_DONE (R193): Every sector of a run is final and an entry is appended to FMT_DONE. -/
  | runDone (act loc : Fin 4)
  /-- FMT_DONE_READ (R193): A read of FMT_DONE returns and removes the oldest entry. -/
  | fmtDoneRead (act : Fin 4)
  /-- REVISIT_EXHAUSTED (R192): A sector uses up its revisits and takes STATUS 0x3. -/
  | revisitExhausted (act loc : Fin 4)
  /-- COURSE_COMMIT (R194): A write of FMT_COURSE_CTL.COMMIT checks the staged course and sets PENDING. -/
  | courseCommit (act : Fin 4) (value : Word)
  /-- COURSE_BARRIER (R195): All four threads reach ENDMEMBER, runs end and the new members start. -/
  | courseBarrier (act : Fin 4)
  /-- CAPO_DATA_WRITE (R197): A write of FMT_CAPO_DATA stores a patch-word part and advances the address. -/
  | capoDataWrite (act : Fin 4) (value : Word)
  /-- CAPO_VERIFY (R198): A write of FMT_CAPO_VERIFY starts verification of the patch set. -/
  | capoVerify (act : Fin 4) (value : Word)
  /-- CAPO_VERIFY_DONE (R198): The Capo verification ends, setting OK or FAIL and WHERE. -/
  | capoVerifyDone (act : Fin 4)
  /-- FMT_RUN_WRITE (R199): A write of FMT_CTL.RUN starts or halts the threads, refused without a verified patch set. -/
  | fmtRunWrite (act : Fin 4) (value : Word)
  /-- FORMATTER_RESET (R203): A keyed FMT_CTL.RESET write resets the formatter and ends FMT_PARITY. -/
  | formatterReset (act : Fin 4) (value : Word)
  /-- TAB_MACHINE_CHECK (R201): A parity error or illegal word halts the formatter, drops its gates and ends its runs. -/
  | tabMachineCheck (act thread : Fin 4) (flips : Nat)
  /-- SWEEP_STEP (R202): Every 256 formatter cycles the background sweep reads and checks one word. -/
  | sweepStep (act : Fin 4) (flips : Nat)
  /-- SWEEP_PASS_END (R202): A sweep pass ends and its ROM and patch CRCs are compared. -/
  | sweepPassEnd (act : Fin 4) (pass : SweepRead)
  /-- SERVO_FIELD (R212): A predicted servo field of a source is demodulated: SAM, wedge, track ID and state update. -/
  | servoField (slot : Fin 16) (field : ServoField)
  /-- SERVO_TRACK_ENTRY (R212): A second matching SAM in VERIFY moves the source to TRACK. -/
  | servoTrackEntry (slot : Fin 16)
  /-- SERVO_LOST (R212): LOST_CNT missed SAMs or two bad wedge numbers drop a source to SEARCH. -/
  | servoLost (slot : Fin 16)
  /-- WEDGE_TICK (R221): A SAM of the reference head is time-stamped and sent to the motor-control island. -/
  | wedgeTick (stamp : Nat)
  /-- REV_TICKS_AGED (R222): REV_TICKS reaches 16 revolutions old and REV_OK clears. -/
  | revTicksAged
  /-- SERVO_SOURCE_ENABLE (R224): A write enabling SRV_SRC_j is checked and makes the slot a servo-only source. -/
  | servoSourceEnable (act loc : Fin 4) (value : Word)
  /-- MICRO_JOB (R232): The lane runs a head's micro job on an arrived sample. -/
  | microJob (act : Fin 4)
  /-- HEAD_HELD (R233): INV_MAX consecutive invalid samples hold a head's command and drop it from mixing. -/
  | headHeld (act : Fin 4) (head : Fin 12)
  /-- LANE_LOST (R246): INV_MAX consecutive empty groups put the lane in LOST and request a retract. -/
  | laneLost (act : Fin 4)
  /-- SETTLE_DONE (R246): SETTLE.CNT groups within the settle window move the lane to TRACK. -/
  | settleDone (act : Fin 4)
  /-- FOLLOWING_ERROR (R248): The following-error count reaches CTL_FE_TIMER and FE sets. -/
  | followingError (act : Fin 4)
  /-- PES_CLEAR (R249): CTL_WU.CLR clean groups clear the PES source. -/
  | pesClear (act : Fin 4)
  /-- LANE_ON (R246): A write of ON = 1 starts the lane in SETTLE. -/
  | laneOn (act : Fin 4) (value : Word)
  /-- LANE_OFF (R246): A write of ON = 0 turns the lane OFF with commands and states 0. -/
  | laneOff (act : Fin 4) (value : Word)
  /-- SEEK_GO (R247): A write of CTL_SEEK_GO starts or retargets a seek at the next boundary. -/
  | seekGo (act : Fin 4) (value : Word)
  /-- LANE_COMPARE_FAULT (R251): A lane copy mismatch sends STOP, raises CTL_COMPARE and enters FAULT. -/
  | laneCompareFault (act : Fin 4) (upset : LaneUpset)
  /-- IDLE_COMPARE_PASS (R226): The idle lane completes a compare pass of states and coefficient stores. -/
  | idleComparePass (act : Fin 4) (upset : Option LaneUpset)
  /-- LANE_RESET (R252): A keyed CTL_LANE_CTL.RESET write resets the lane to OFF. -/
  | laneReset (act : Fin 4) (value : Word)
  /-- BANK_SEL_WRITE (R241): A write of CTL_BANK_SEL requests a bank switch for the next boundary. -/
  | bankSelWrite (act : Fin 4) (value : Word)
  /-- COEFFICIENT_WRITE (R240): A coefficient write lands and takes effect at the next boundary if the bank is active. -/
  | coefficientWrite (act : Fin 4) (offset : Nat) (value : Word)
  /-- LEARNER_DATA_ACCESS (R245): A firmware access to CTL_LRN_DATA reads or writes a learner word and advances the address. -/
  | learnerDataAccess (act : Fin 4) (write : Option Word)
  /-- SPINDLE_START (R263): A START command enters SENSE with all spindle switches off. -/
  | spindleStart (value : Word)
  /-- SPINDLE_STOP (R270): A STOP command brakes the spindle in BRAKE_MODE. -/
  | spindleStop (value : Word)
  /-- SENSE_END (R264): The 4 ms sense window ends and the start decision is made. -/
  | senseEnd (lowAmplitude dir : Bool) (speed : Nat) (step : Fin 6)
  /-- PRE_BRAKE_SAMPLE (R264): Every 1 ms in PRE_BRAKE the speed is measured and the brake may end. -/
  | preBrakeSample (speed : Nat)
  /-- ALIGN_END (R265): ALIGN_MS elapses and the spindle enters RAMP. -/
  | alignEnd
  /-- RAMP_LIMIT (R265): 240 rpm is reached without handover, re-entering SENSE or FAULT. -/
  | rampLimit
  /-- ZERO_CROSSING (R261): A back-EMF zero crossing is found and timed. -/
  | zeroCrossing (times : List Nat) (values : List Int)
  /-- HANDOVER (R265): Six agreeing zero crossings complete the handover to ACCEL. -/
  | handover
  /-- COMMUTATION (R261): The next commutation step falls due. -/
  | commutation (step : Fin 6)
  /-- ZC_MISS (R261): A step without zero crossing is commutated at twice the mean. -/
  | zcMiss
  /-- ZC_LOST (R261): Three consecutive missed steps put the spindle in FAULT. -/
  | zcLost
  /-- AT_SPEED (R268): 16 revolutions within ±0.05 % set AT_SPEED. -/
  | atSpeed
  /-- AT_SPEED_LOST (R268): 4 revolutions outside ±0.2 % clear AT_SPEED. -/
  | atSpeedLost
  /-- SPINUP_TIMEOUT (R269): A spin-up exceeds TIMEOUT_S and the spindle enters FAULT. -/
  | spinupTimeout
  /-- BRAKE_STOP (R270): The speed falls below 10 rpm, the switches turn off and the spindle is STOPPED. -/
  | brakeStop (speed : Nat)
  /-- WEDGE_TICK_TIMEOUT (R267): No wedge tick for two wedge intervals returns speed to zero crossings. -/
  | wedgeTickTimeout
  /-- CHOPPER_ON (R271): VMOT crosses 13.2 V and the chopper turns on. -/
  | chopperOn (vmot : Nat)
  /-- CHOPPER_OFF (R271): VMOT falls below 12.8 V and the chopper turns off. -/
  | chopperOff (vmot : Nat)
  /-- LADDER_SHORT_BRAKE (R271): VMOT reaches 13.8 V, a chopper fault is declared and the spindle short-brakes. -/
  | ladderShortBrake (vmot : Nat)
  /-- OVP (R271): VMOT reaches 14.4 V: switches off, OVP latched, spindle FAULT and retracts. -/
  | ovp (vmot : Nat)
  /-- CHOPPER_FAULT (R272): The chopper current or VMOT check after chopper-on fails and the chopper stays off. -/
  | chopperFault (late : Bool) (measured : Nat)
  /-- VMOT_SWITCH_OPEN (R256): VMOT exceeds VIN or VIN fails and the input switch opens. -/
  | vmotSwitchOpen (vin vmot : Nat)
  /-- VMOT_SWITCH_CLOSE (R256): VIN exceeds VMOT by 0.1 V and the input switch closes. -/
  | vmotSwitchClose (vin vmot : Nat)
  /-- VIN_HIGH (R257): VIN above 13.2 V holds the chopper off and sets VIN_HIGH. -/
  | vinHigh (vin : Nat)
  /-- DRIVER_COMMAND (R276): A lane command message arrives and loads its driver register. -/
  | driverCommand
  /-- STOP_MESSAGE (R277): A lane STOP message makes the power die retract that actuator. -/
  | stopMessage
  /-- RETRACT_CMD (R277): A write of MTR_RET_CMD retracts the named actuators. -/
  | retractCmd (value : Word)
  /-- RETRACT_DONE (R277): RET_TIME ends, the bridge turns off and the actuator is PARKED. -/
  | retractDone (act : Fin 4)
  /-- PARKED_CLEAR (R279): A write clearing PARKED bits is judged bit by bit. -/
  | parkedClear (value : Word)
  /-- ARBITRATION_ROUND (R307): A 2 µs round starts and each class receives its credit. -/
  | arbitrationRound
  /-- HBM_READ (R312): A burst is read and decoded, corrected and written back or found uncorrectable. -/
  | hbmRead (cls : BufClass) (burst : Nat)
  /-- HBM_PARTIAL_WRITE (R313): A partial-burst write reads, merges and rewrites the burst. -/
  | hbmPartialWrite (cls : BufClass) (addr len data : Nat)
  /-- HBM_REFRESH (R305): The controller issues a per-bank refresh at its interval. -/
  | hbmRefresh
  /-- PPR_REQUEST (R316): A keyed BUF_PPR_CTL.GO write requests a post-package repair. -/
  | pprRequest (value : Word)
  /-- PPR_DONE (R317): A repair completes, the row is zeroed and DONE sets with RESULT. -/
  | pprDone (failed : Bool)
  /-- RAW_READ (R320): BUF_RAW_CTL.READ starts a raw read of one burst. -/
  | rawRead
  /-- RAW_WRITE (R320): BUF_RAW_CTL.WRITE starts a raw write of one burst. -/
  | rawWrite
  /-- RAW_OP_DONE (R320): A raw window operation completes. -/
  | rawOpDone
  /-- SCRUB_START (R322): GO with TARGET 0 starts an HBM scrub of the range. -/
  | scrubStart
  /-- SRAM_SWEEP_START (R323): GO with TARGET 1 starts a sweep of the SECDED SRAM instances. -/
  | sramSweepStart
  /-- SCRUB_STOP (R324): A write of STOP ends a scrub at a boundary. -/
  | scrubStop (reached : Nat)
  /-- SCRUB_DONE (R324): A scrub ends normally and sets DONE. -/
  | scrubDone
  /-- FLIP_ARM (R321): A write of SYS_FLIP_SEL.ARM arms or rejects an SRAM error injection. -/
  | flipArm (value : Word)
  /-- FLIP_APPLY (R321): The first write to the armed instance inverts the masked bits and sets DONE. -/
  | flipApply (word : Nat)
  /-- CORE_RELEASE (R327): A write of CCH_CORE_CTL.RUN releases or holds application cores. -/
  | coreRelease (value : Word)
  /-- L1_INVALIDATE (R332): A write of DINV or IINV starts a whole-L1 invalidation. -/
  | l1Invalidate (core : Fin 4) (value : Word)
  /-- L1_INVALIDATE_DONE (R332): A whole-L1 invalidation ends and pending enables take effect. -/
  | l1InvalidateDone (core : Fin 4)
  /-- L2_FILL (R337): An L2 line fill completes or meets an uncorrectable burst. -/
  | l2Fill (core : Fin 4) (addr : Nat) (fetch : Bool) (way : Fin 16) (store : Option (Nat × Nat))
  /-- L2_EVICTION_WRITEBACK (R338): The buffer manager accepts an evicted line and it leaves the eviction buffer. -/
  | l2EvictionWriteback
  /-- CACHE_CLEAN (R341): Maintenance OP 1 cleans the selected L2 lines. -/
  | cacheClean (req : Fin 5) (target : Fin 4) (byWay : Bool)
  /-- CACHE_INVALIDATE (R341): Maintenance OP 2 invalidates the selected L2 or L1-I lines. -/
  | cacheInvalidate (req : Fin 5) (target : Fin 4) (byWay : Bool)
  /-- CACHE_CLEAN_INVALIDATE (R341): Maintenance OP 3 cleans and invalidates the selected L2 lines. -/
  | cacheCleanInvalidate (req : Fin 5) (target : Fin 4) (byWay : Bool)
  /-- MAINTENANCE_DONE (R341): A maintenance operation finishes with its write-backs accepted and DONE sets. -/
  | maintenanceDone (req : Fin 5)
  /-- L2_SWEEP (R339): A write of CCH_SWEEP.GO starts a parity sweep of the L2. -/
  | l2Sweep
  /-- L2_SWEEP_DONE (R339): The L2 sweep completes. -/
  | l2SweepDone
  /-- DMA_START (R346): A write of DMA_CH_CTL.EN = 1 starts a descriptor chain. -/
  | dmaStart (ch : Fin 32)
  /-- DMA_DESCRIPTOR_DONE (R347): A descriptor's last byte is accepted and STATUS, TAG and IRQ are written. -/
  | dmaDescriptorDone (ch : Fin 32)
  /-- DMA_TRANSFER_ERROR (R349): A transfer meets an uncorrectable burst or SRAM error and the channel enters ERROR. -/
  | dmaTransferError (ch : Fin 32)
  /-- DMA_DROP (R350): A write of EN = 0 drops the channel into DRAIN. -/
  | dmaDrop (ch : Fin 32)
  /-- DMA_DRAIN_DONE (R350): No access of a dropped channel remains and it reads IDLE. -/
  | dmaDrainDone (ch : Fin 32)
  /-- LOCKSTEP_MISMATCH (R326): A lockstep pair's copies disagree. -/
  | lockstepMismatch (pair : Fin 5)
  /-- BAR0_REQUEST (R355): A host memory request to BAR0 is served or aborted. -/
  | bar0Request (port : Fin 2) (write : Bool) (off len data : Nat)
  /-- BAR2_REQUEST (R357): A host BAR2 request is matched against the live window table and steered into the buffer. -/
  | bar2Request (port : Fin 2) (write : Bool) (addr len data : Nat)
  /-- HWIN_COMMIT (R360): A write of HWIN_COMMIT checks a staged window entry and makes it live. -/
  | hwinCommit (source : Fin 3) (entry : Fin 64)
  /-- WINDOW_DRAIN_DONE (R360): No request uses an earlier entry version and DRAINING clears. -/
  | windowDrainDone (entry : Fin 64)
  /-- ATS_TRANSLATION_COMPLETION (R363): A Translation Completion arrives and is cached or discarded. -/
  | atsTranslationCompletion (port : Fin 2) (addr len xlat : Nat) (rd wr : Bool)
  /-- ATS_INVALIDATE (R364): An Invalidate Request stops use of the matching translation entries. -/
  | atsInvalidate (port : Fin 2) (addr len tag : Nat)
  /-- ATS_INVALIDATE_COMPLETE (R364): The matching requests end and the Invalidate Completion is sent. -/
  | atsInvalidateComplete (port : Fin 2)
  /-- DSTATE_WRITE (R365): The host sets a port to D3hot or D0. -/
  | dstateWrite (port : Fin 2) (cfg : PortCfg)
  /-- WAKE_EVENT (R366): A wake event sends PM_PME or asserts WAKE_N. -/
  | wakeEvent (port : Fin 2)
  /-- BUS_MASTER_DISABLE (R368): The host clears Bus Master Enable, freezing the port's queues. -/
  | busMasterDisable (port : Fin 2) (reads : Bool)
  /-- BME_READS_DRAINED (R368): Reads issued before the BME clear end and RESUME_WAIT clears. -/
  | bmeReadsDrained (port : Fin 2)
  /-- HCTL_RESUME (R369): A write of HCTL.RESUME completes interrupted commands and resumes fetching. -/
  | hctlResume (port : Fin 2)
  /-- FUNCTION_LEVEL_RESET (R370): A function-level reset discards the port's commands and queues. -/
  | functionLevelReset (port : Fin 2)
  /-- FLR_DONE (R370): The 10 ms of a port reset ends and configuration requests are answered again. -/
  | flrDone (port : Fin 2)
  /-- LINK_DOWN (R370): A hot reset or link-down treats the port's commands as an FLR does. -/
  | linkDown (port : Fin 2)
  /-- ADMIN_SETUP_WRITE (R373): A write of an admin setup word while EN is 0 is stored or dropped. -/
  | adminSetupWrite (port : Fin 2) (off len data : Nat)
  /-- CONTROLLER_ENABLE (R374): A write of HCTL.EN = 1 creates the admin pair and sets RDY at Ready. -/
  | controllerEnable (port : Fin 2)
  /-- CONTROLLER_DISABLE (R375): A write of HCTL.EN = 0 deletes every queue pair of the port. -/
  | controllerDisable (port : Fin 2)
  /-- DOORBELL_WRITE (R378): A doorbell write updates a tail or head, or is invalid and raises INVALID_DOORBELL. -/
  | doorbellWrite (port : Fin 2) (off len data : Nat)
  /-- COMMAND_FETCH (R379): The engine fetches one submission entry and gives it a sequence number. -/
  | commandFetch (port : Fin 2) (entry : Nat) (list : Option (List (Nat × Nat)))
  /-- COMPLETION_POST (R381): A completion entry is written once the queue has room, followed by its MSI-X message. -/
  | completionPost (seq : Nat)
  /-- READ (R391): A READ returns blocks to the host in sequence order. -/
  | read (seq : Nat) (media : List MediaRes)
  /-- WRITE (R393): A WRITE moves blocks from the host into the buffer under its acknowledgement mode. -/
  | write (seq : Nat) (blocks : List (Nat × Nat)) (hostErr : Option Nat)
  /-- WRITE_ACK (R393): A WRITE meets its acknowledgement condition and becomes completion-committed. -/
  | writeAck (seq : Nat)
  /-- VERIFY (R391): A VERIFY reads and decides every block without transfer. -/
  | verify (seq : Nat) (media : List MediaRes)
  /-- FLUSH (R394): A FLUSH starts waiting for earlier committed cache-mode blocks to reach media. -/
  | flush (seq : Nat)
  /-- FLUSH_COMPLETE (R394): Every covered cache-mode block is on media and the FLUSH completes. -/
  | flushComplete (seq : Nat)
  /-- ZONE_RESET (R402): ZONE_RESET empties the zones and sets their blocks to never written. -/
  | zoneReset (seq : Nat)
  /-- ZONE_FINISH (R402): ZONE_FINISH sets the zones FULL. -/
  | zoneFinish (seq : Nat)
  /-- ZONE_REPORT (R403): ZONE_REPORT returns zone descriptors. -/
  | zoneReport (seq : Nat)
  /-- CREATE_QP (R398): CREATE_QP creates an I/O queue pair. -/
  | createQp (seq : Nat)
  /-- DELETE_QP (R376): DELETE_QP deletes an I/O pair and discards its commands. -/
  | deleteQp (seq : Nat)
  /-- ABORT (R397): ABORT is decided atomically against the named command. -/
  | abort (seq : Nat)
  /-- EVENT_WAIT (R400): EVENT_WAIT waits for the next event of the port. -/
  | eventWait (seq : Nat)
  /-- IDENTIFY_CONTROLLER (R407): IDENTIFY with CNS 0 returns the controller structure. -/
  | identifyController (seq : Nat)
  /-- IDENTIFY_NAMESPACE (R407): IDENTIFY with CNS 1 returns the namespace structure. -/
  | identifyNamespace (seq : Nat)
  /-- GET_LOG_HEALTH (R408): GET_LOG returns the health page. -/
  | getLogHealth (seq : Nat)
  /-- GET_LOG_FW_SLOTS (R408): GET_LOG returns the firmware-slot page. -/
  | getLogFwSlots (seq : Nat)
  /-- GET_LOG_DEFERRED_ERRORS (R409): GET_LOG returns the Deferred Error Log, optionally clearing it. -/
  | getLogDeferredErrors (seq : Nat)
  /-- GET_LOG_EVENT_RECORDS (R518): GET_LOG returns event records, optionally moving the read start. -/
  | getLogEventRecords (seq : Nat)
  /-- SET_FEATURE (R410): SET_FEATURE sets a feature's current and optionally saved value. -/
  | setFeature (seq : Nat)
  /-- GET_FEATURE (R410): GET_FEATURE returns a feature's current or saved value. -/
  | getFeature (seq : Nat)
  /-- FW_DOWNLOAD (R416): FW_DOWNLOAD writes package data into the staging slot. -/
  | fwDownload (seq : Nat) (units : Option (List Nat))
  /-- FW_COMMIT_CANCEL (R417): FW_COMMIT ACTION 0 clears a pending commit. -/
  | fwCommitCancel (seq : Nat)
  /-- FW_COMMIT_PENDING (R417): FW_COMMIT ACTION 1 checks the staged package and sets PENDING. -/
  | fwCommitPending (seq : Nat) (sigs : PkgCheck)
  /-- FW_COMMIT_RESET (R418): FW_COMMIT ACTION 2 sets PENDING, completes and stops fetching. -/
  | fwCommitReset (seq : Nat) (sigs : PkgCheck)
  /-- FW_RESET_DRAIN_DONE (R418): No command is outstanding and the cache is on media, so the device resets. -/
  | fwResetDrainDone
  /-- TRIAL_TIMEOUT (R420): 600 s pass without confirmation and HEALTH code 4 is raised. -/
  | trialTimeout
  /-- BOOT_CONFIRM (R454): A keyed SEC_BOOT.CONFIRM write confirms a trial image. -/
  | bootConfirm (value : Word)
  /-- TEMP_WARN (R410): Tj reaches TEMP_WARN and HEALTH code 2 is raised. -/
  | tempWarn (tj : Nat)
  /-- SMBUS_STATUS_READ (R421): SMBus code 0x00 returns the 8-byte status block. -/
  | smbusStatusRead
  /-- SMBUS_ADDRESS_WRITE (R421): SMBus code 0x10 sets the register address for code 0x11. -/
  | smbusAddressWrite (addr : Word) (pecOk : Bool)
  /-- SMBUS_REGISTER_READ (R421): SMBus code 0x11 reads a register and advances the address. -/
  | smbusRegisterRead
  /-- SEC_INFO_DEVICE_NONCE (R433): SEC_INFO item 0 returns the device nonce. -/
  | secInfoDeviceNonce (seq : Nat)
  /-- SEC_INFO_ENVELOPE_KEYS (R451): SEC_INFO item 1 returns the envelope public keys. -/
  | secInfoEnvelopeKeys (seq : Nat)
  /-- SEC_INFO_CERT_CHAINS (R431): SEC_INFO item 2 returns the certificate chains. -/
  | secInfoCertChains (seq : Nat)
  /-- SEC_INFO_RANGE_TABLE (R451): SEC_INFO item 3 returns the range table. -/
  | secInfoRangeTable (seq : Nat)
  /-- SEC_INFO_DEBUG_NONCE (R444): SEC_INFO item 4 returns the debug nonce. -/
  | secInfoDebugNonce (seq : Nat)
  /-- ATTEST (R432): ATTEST returns the signed attestation report. -/
  | attest (seq : Nat)
  /-- SEC_OWNER_TAKE (R436): SEC_OWNER TAKE makes an unowned device owned. -/
  | secOwnerTake (seq : Nat) (env : Option EnvRes)
  /-- SEC_OWNER_CHANGE (R436): SEC_OWNER CHANGE replaces the owner credential. -/
  | secOwnerChange (seq : Nat) (env : Option EnvRes)
  /-- SEC_OWNER_SET_LOCK (R436): SEC_OWNER SET_LOCK sets the owner lock. -/
  | secOwnerSetLock (seq : Nat) (env : Option EnvRes)
  /-- SEC_OWNER_CLEAR_LOCK (R436): SEC_OWNER CLEAR_LOCK clears the owner lock. -/
  | secOwnerClearLock (seq : Nat) (env : Option EnvRes)
  /-- SEC_OWNER_REVERT (R436): SEC_OWNER REVERT erases all ranges and returns the device to unowned. -/
  | secOwnerRevert (seq : Nat) (env : Option EnvRes)
  /-- SEC_OWNER_RAISE_SVN (R430): SEC_OWNER RAISE_SVN raises SVN_FUSE. -/
  | secOwnerRaiseSvn (seq : Nat) (env : Option EnvRes)
  /-- SEC_OWNER_SET_ROSTER (R448): SEC_OWNER SET_ROSTER replaces the ring roster. -/
  | secOwnerSetRoster (seq : Nat) (env : Option EnvRes) (roster : List Nat)
  /-- SEC_RANGE_DEFINE (R438): SEC_RANGE DEFINE defines a key range. -/
  | secRangeDefine (seq : Nat) (env : Option EnvRes)
  /-- SEC_RANGE_DELETE (R438): SEC_RANGE DELETE deletes a key range. -/
  | secRangeDelete (seq : Nat) (env : Option EnvRes)
  /-- SEC_RANGE_LOCK (R439): SEC_RANGE LOCK sets a range's read or write locks. -/
  | secRangeLock (seq : Nat) (env : Option EnvRes)
  /-- SEC_RANGE_UNLOCK (R439): SEC_RANGE UNLOCK unwraps MK and clears a range's locks. -/
  | secRangeUnlock (seq : Nat) (env : Option EnvRes)
  /-- SEC_RANGE_ERASE (R442): SEC_RANGE ERASE replaces a range's key and discards its data. -/
  | secRangeErase (seq : Nat) (env : Option EnvRes)
  /-- MK_DISCARD (R439): A fully locked range's MK is discarded once earlier writes reach media. -/
  | mkDiscard (range : Fin 64)
  /-- SEC_DEBUG (R444): SEC_DEBUG delivers a debug unlock token. -/
  | secDebug (seq : Nat) (token : Option Nat) (sigs : TokCheck)
  /-- GET_RANDOM (R451): GET_RANDOM returns DRBG output. -/
  | getRandom (seq : Nat)
  /-- SEC_REQUEST (R453): A write of SEC_REQ_CTL.GO hands a security request to the key block. -/
  | secRequest
  /-- SEC_REQUEST_DONE (R453): The key block ends a request and sets SEC_REQ_RESULT. -/
  | secRequestDone
  /-- DBG_TOKEN_DATA_WRITE (R455): A write of DBG_TOKEN_DATA stores a token word and advances WORD. -/
  | dbgTokenDataWrite (value : Word)
  /-- DBG_TOKEN_GO (R455): A write of DBG_TOKEN_CTL.GO checks the held token. -/
  | dbgTokenGo (sigs : TokCheck)
  /-- DEBUG_PORT_OPEN (R445): After the keys are discarded and the window empties, the debug port opens. -/
  | debugPortOpen
  /-- RNG_TEST_FAIL (R446): An entropy health test fails and the DRBG enters its error state. -/
  | rngTestFail
  /-- DRBG_RESEED (R446): The DRBG reseeds after 2^20 generate requests. -/
  | drbgReseed
  /-- SESSION_REKEY (R449): A session key reaches 2^31 flits or 23 hours and a new agreement starts. -/
  | sessionRekey (peer : Fin 32) (hours : Nat)
  /-- OLD_KEY_EXPIRY (R449): 10 ms after the new key's first flit the old key is no longer accepted. -/
  | oldKeyExpiry (peer : Fin 32)
  /-- KEY_LIMIT_STOP (R449): A key reaches 2^32 flits or 24 hours and the sender stops sending to the peer. -/
  | keyLimitStop (peer : Fin 32) (hours : Nat)
  /-- FLIT_RECEIVE (R462): A flit is received and taken, removed or forwarded. -/
  | flitReceive (east : Bool) (fec tag : Fin 3) (flit : Nat)
  /-- LINK_FLIT (R464): A LINK flit returns credits and names the neighbour. -/
  | linkFlit (east : Bool) (credits : Nat) (member : Fin 32) (is2208 : Bool)
  /-- CREDIT_RETURN (R464): 16 freed slots or 1 µs trigger a credit return. -/
  | creditReturn (east : Bool)
  /-- HEARTBEAT_SEND (R469): Every 1 ms a through member broadcasts HEARTBEAT. -/
  | heartbeatSend
  /-- HEARTBEAT_RECEIVE (R469): A HEARTBEAT is received and updates liveness and quorum. -/
  | heartbeatReceive (src : Fin 32) (hb : Heartbeat)
  /-- MEMBER_FAIL_TIMEOUT (R469): No heartbeat of a member for 20 ms declares it failed. -/
  | memberFailTimeout (member : Fin 32)
  /-- SELF_FENCE (R465): A member without its own heartbeat for 10 ms returns to bypass. -/
  | selfFence
  /-- SEGMENT_SIGNAL_LOSS (R466): A segment loses signal and retrains at the ring rate. -/
  | segmentSignalLoss (east : Bool)
  /-- SEGMENT_RETRAIN_TIMEOUT (R466): A segment not retrained within 1.0 ms stays open. -/
  | segmentRetrainTimeout (east : Bool)
  /-- SPLICE_TIMEOUT (R467): A segment not up within 5 ms of a splice returns the member to bypass. -/
  | spliceTimeout
  /-- SPLICE_RETRY (R467): 1 s after a failed splice the member splices again. -/
  | spliceRetry
  /-- RING_JOIN (R471): A JOIN frame reaches the manager, which admits joins in order. -/
  | ringJoin (member : Fin 32) (leave : Bool)
  /-- RING_LEAVE (R469): A write of RING_CTL.EN = 0 sends JOIN with OP leave. -/
  | ringLeave
  /-- LEAVE_TIMEOUT (R469): 10 ms after a leave without a map the member takes bypass. -/
  | leaveTimeout
  /-- MAP_COMMIT (R471): The manager commits a new member map and sends it to the members. -/
  | mapCommit (order : List Nat)
  /-- MAP_ACCEPT (R471): A member accepts a CONTROL MAP frame and the map takes effect. -/
  | mapAccept (src : Fin 32) (map : Nat)
  /-- RING_FENCE (R465): A CONTROL FENCE frame returns the member to bypass. -/
  | ringFence (src : Fin 32)
  /-- RING_RATE (R477): A CONTROL RATE frame changes the ring rate, muting or restoring it. -/
  | ringRate (src : Fin 32) (code : Fin 4)
  /-- CLAIM_SEND (R472): A candidate without manager heartbeats broadcasts CLAIM every 1 ms. -/
  | claimSend
  /-- CLAIM_RECEIVE (R472): A candidate receiving a higher-ranked claim stops claiming. -/
  | claimReceive (member : Fin 32) (epoch : Nat)
  /-- CLAIM_WIN (R472): After 20 ms of claiming with quorum the candidate becomes manager. -/
  | claimWin
  /-- QUORUM_LOSS (R474): Quorum lost for 20 ms drops the manager's role. -/
  | quorumLoss
  /-- RING_SESSION (R447): A SESSION frame carries key-agreement shares and forms a session. -/
  | ringSession (peer : Fin 32) (chainsOk : Bool) (idk : Nat)
  /-- RING_WRITE (R478): A WRITE frame is checked, looked up in the window table and written. -/
  | ringWrite (east : Bool) (src : Fin 32) (number waddr flen : Nat) (parts : List RingPart)
  /-- RING_READ_REQ (R478): A READ_REQ frame is looked up and answered by READ_RESP. -/
  | ringReadReq (east : Bool) (src : Fin 32) (number waddr flen : Nat)
  /-- RING_READ_RESP (R478): A READ_RESP frame delivers the requested data. -/
  | ringReadResp (src : Fin 32) (number data : Nat)
  /-- RING_ACK (R478): An ACK frame acknowledges a frame. -/
  | ringAck (src : Fin 32) (number : Nat)
  /-- RING_NACK (R479): A NACK frame makes the sender retry or fail the frame. -/
  | ringNack (src : Fin 32) (number code : Nat)
  /-- FRAME_TIMEOUT (R479): TMO passes with neither ACK nor response. -/
  | frameTimeout (number : Nat)
  /-- FRAME_RETRY (R479): The backoff elapses and the frame is sent again. -/
  | frameRetry (number : Nat)
  /-- LAYOUT_COMMIT (R509): A write of CHD_CTL.COMMIT checks and commits the staged layout. -/
  | layoutCommit (value : Word)
  /-- CHORD_WRITE (R490): A write to a chorded volume opens a journal record and begins the chord write sequence. -/
  | chordWrite (addrs : List Nat)
  /-- CHORD_READ (R500): A host read of a volume block reads or reconstructs it. -/
  | chordRead (nsid lba : Nat) (strips : List MediaRes)
  /-- STRIP_DATA_WRITE (R488): A DATA_WRITE request writes blocks into a strip. -/
  | stripDataWrite (src : Fin 32) (cell : Fin 64) (fail : Nat)
  /-- STRIP_PARITY_DELTA (R494): A PARITY_DELTA request applies a delta to parity and stamps it. -/
  | stripParityDelta (src : Fin 32) (cell : Fin 64) (fail : Nat)
  /-- STRIP_READ (R488): A READ request returns a strip's blocks. -/
  | stripRead (src : Fin 32) (cell : Fin 64) (fail : Nat)
  /-- STRIP_PARITY_WRITE (R494): A PARITY_WRITE request writes whole parity blocks and stamps them. -/
  | stripParityWrite (src : Fin 32) (cell : Fin 64) (fail : Nat)
  /-- STRIP_DONE (R488): A DONE answer completes a strip request and advances its sequence. -/
  | stripDone (member : Fin 32) (cell fail : Nat)
  /-- STRIP_LOST (R503): A LOST request makes the owner enter lost offsets. -/
  | stripLost (src : Fin 32) (cell : Fin 64)
  /-- STRIP_JOURNAL (R492): A JOURNAL request stores a mirrored record at the partner. -/
  | stripJournal (src : Fin 32) (cell : Fin 64)
  /-- STRIP_RETIRE (R490): A RETIRE request frees a mirrored record. -/
  | stripRetire (src : Fin 32) (cell : Fin 64)
  /-- LOCKED_RETRY (R488): A write that met LOCKED is repeated every 1 s. -/
  | lockedRetry
  /-- JOURNAL_RECOVER (R495): A write of CHD_CTL.RECOVER recovers open journal records. -/
  | journalRecover (reads : List (List (List MediaRes)))
  /-- STAMP_RECOVERY (R496): Without either journal copy, parity stamps select the chords to check. -/
  | stampRecovery (cands : List (Nat × List (List MediaRes)))
  /-- REBUILD_SCAN (R498): A scan of owned chords rebuilds strips whose holder changed. -/
  | rebuildScan (strips : List (List MediaRes))
  /-- RESHAPE_START (R505): A write of CHD_CTL.RESHAPE starts or resumes a reshape. -/
  | reshapeStart
  /-- RESHAPE_CHORD_COPY (R506): One target chord is filled and the boundary advances. -/
  | reshapeChordCopy (data : List MediaRes)
  /-- RESHAPE_SWITCH (R508): A write of CHD_CTL.SWITCH makes the target layout active. -/
  | reshapeSwitch
  /-- EVENT_RAISE (R510): A block raises an event, which is recorded with a SEQ. -/
  | eventRaise (code severity unit : Nat)
  /-- EVR_RAISE_WRITE (R520): A write of EVR_RAISE raises a firmware event. -/
  | evrRaiseWrite (req : Fin 5) (value : Word)
  /-- BUCKET_REFILL (R513): A code's bucket gains a token after REFILL seconds. -/
  | bucketRefill (code : Nat)
  /-- EVENT_ARCHIVE (R515): 4,096 unarchived records are written to the keep-store archive. -/
  | eventArchive
  /-- EVR_ENABLE (R515): A write of EVR_CTL.EN starts or stops the HBM ring. -/
  | evrEnable (value : Word)
  /-- RATE_LIMIT_WRITE (R513): A write changing a code's BURST or REFILL acts on its bucket at once. -/
  | rateLimitWrite (offset : Nat) (value : Word)
  /-- LINK_TRAINING_DONE (R353): A host port's link finishes training and settles in L0 at its rate and width. -/
  | linkTrainingDone (port : Fin 2) (rate width : Nat) (flit : Bool)
  /-- ASPM_LINK_STATE_CHANGE (R367): A host link enters or leaves L0s, L1 or an L1 substate under ASPM. -/
  | aspmLinkStateChange (port : Fin 2) (lstate : Nat)
  /-- SEGMENT_TRAINED (R467): A ring segment finishes training at the ring rate and closes. -/
  | segmentTrained (east : Bool) (bypassed : Nat)
  /-- HBM_HOT (R305): The HBM stack temperature crosses 85 °C, doubling or restoring the refresh rate and setting or clearing BUF_STATUS.HOT. -/
  | hbmHot (temp : Nat)
  /-- TEMP_WARN_REARM (R410): Tj falls 5 °C below TEMP_WARN and the warning re-arms. -/
  | tempWarnRearm (tj : Nat)
  /-- VIN_HIGH_RELEASE (R257): VIN falls to 13.2 V or below, VIN_HIGH clears and the chopper may be commanded again. -/
  | vinHighRelease (vin : Nat)
  /-- SMBUS_BUS_TIMEOUT (R543): SMB_CLK has been held low by another master for 25 to 35 ms and the device releases the bus. -/
  | smbusBusTimeout
  deriving DecidableEq, Repr

end Sys2Proof
end

