-- ==== Sys2Proof/Decode.lean ====
section
/-! DEFINITION. The commands that words spell. The spec's table gives no command a word of bits: every row's operands come
from outside (a bus access, a frame, a measurement), so no word spells a command. -/

namespace Sys2Proof

/-- The command that a word spells by the bits of spec/opcode_table.json: none, because no row of the table gives bits. -/
def decodeTableWord (_nbits _w : Nat) : Option Instr := none

end Sys2Proof
end

