-- ==== Sys2Proof/Machine/Bits.lean ====
section
/-! DEFINITION. Bit fields, sign extension, byte order and the arithmetic helpers the rules use. -/

namespace Sys2Proof.Machine

/-- Bits [hi:lo] of `n` (00 R5). -/
def bits (n hi lo : Nat) : Nat := n / 2 ^ lo % 2 ^ (hi + 1 - lo)

/-- Bit `i` of `n`, as 0 or 1. -/
def bit (n i : Nat) : Nat := n / 2 ^ i % 2

/-- Bit `i` of `n` set. -/
def hasBit (n i : Nat) : Bool := bit n i == 1

/-- `n` with bit `i` set. -/
def setBit (n i : Nat) : Nat := if hasBit n i then n else n + 2 ^ i

/-- `n` with bit `i` clear. -/
def clrBit (n i : Nat) : Nat := if hasBit n i then n - 2 ^ i else n

/-- `n` with bit `i` at `b`. -/
def putBit (n i : Nat) (b : Bool) : Nat := if b then setBit n i else clrBit n i

/-- 1 for true. -/
def b2n (b : Bool) : Nat := if b then 1 else 0

/-- The bits of a mask of `w` bits, as a list of positions. -/
def maskBits (w n : Nat) : List Nat := (List.range w).filter (fun i => hasBit n i)

/-- The number of set bits below `w`. -/
def popCount (w n : Nat) : Nat := (maskBits w n).length

/-- A field of `w` bits read as two's complement. -/
def toSigned (w n : Nat) : Int := if n % 2 ^ w < 2 ^ (w - 1) then (n % 2 ^ w : Nat) else (n % 2 ^ w : Nat) - (2 ^ w : Nat)

/-- An integer as `w` bits of two's complement. -/
def ofSigned (w : Nat) (v : Int) : Nat := (v % (2 ^ w : Nat)).toNat

/-- Clamp into a closed range. -/
def clampInt (lo hi v : Int) : Int := if v < lo then lo else if hi < v then hi else v

/-- Clamp to a signed field of `w` bits. -/
def satSigned (w : Nat) (v : Int) : Int := clampInt (-(2 ^ (w - 1) : Nat)) ((2 ^ (w - 1) : Nat) - 1) v

/-- Saturating add for counters that stop at `top`. -/
def satAdd (top a b : Nat) : Nat := if top < a + b then top else a + b

/-- The bytes of `n`, least significant first (00 R6). -/
def leBytes (n : Nat) : Nat → List Nat
  | 0 => []
  | k + 1 => n % 256 :: leBytes (n / 256) k

/-- The value of little-endian bytes (00 R6). -/
def leValue : List Nat → Nat
  | [] => 0
  | b :: bs => b % 256 + 256 * leValue bs

/-- Bytes `off` to `off + len - 1` of a little-endian structure held as a number. -/
def bytesAt (n off len : Nat) : Nat := n / 256 ^ off % 256 ^ len

/-- A structure of fields: offset, size and value of each; all other bytes 0. -/
def layout (fs : List (Nat × Nat × Nat)) : Nat := fs.foldl (fun v f => v + f.2.2 % 256 ^ f.2.1 * 256 ^ f.1) 0

/-- Ceiling division. -/
def ceilDiv (a b : Nat) : Nat := (a + b - 1) / b

/-- Replace element `i` of a list. -/
def setAt {α : Type} : List α → Nat → α → List α
  | [], _, _ => []
  | _ :: xs, 0, v => v :: xs
  | x :: xs, i + 1, v => x :: setAt xs i v

/-- Change element `i` of a list. -/
def modAt {α : Type} : List α → Nat → (α → α) → List α
  | [], _, _ => []
  | x :: xs, 0, g => g x :: xs
  | x :: xs, i + 1, g => x :: modAt xs i g

/-- The floor of the square root (09 R247, 10 R265), for roots below 2^40. -/
def isqrt (n : Nat) : Nat :=
  (List.range 40).foldr (fun b r => if (r + 2 ^ b) * (r + 2 ^ b) ≤ n then r + 2 ^ b else r) 0

end Sys2Proof.Machine
end

