-- ==== Sys2Proof/Machine/Crc.lean ====
section
/-! DEFINITION. The cyclic redundancy checks the spec names: CRC-32 of IEEE 802.3 (03 R96) and CRC-64 with the
ECMA-182 polynomial (03 R80). -/

namespace Sys2Proof.Machine

/-- `n` steps of the reflected CRC-32 register. -/
def crc32Bits (c : Nat) : Nat → Nat
  | 0 => c
  | n + 1 => crc32Bits (if c % 2 = 1 then c / 2 ^^^ 0xEDB88320 else c / 2) n

/-- CRC-32 of IEEE 802.3: reflected, initial value and final XOR 0xFFFFFFFF (03 Table MED-7 CHECK). -/
def crc32 (bytes : List Nat) : Nat :=
  bytes.foldl (fun c b => crc32Bits (c ^^^ b % 256) 8) 0xFFFFFFFF ^^^ 0xFFFFFFFF

/-- `n` steps of the CRC-64 register, most significant bit first. -/
def crc64Bits (c : Nat) : Nat → Nat
  | 0 => c
  | n + 1 => crc64Bits (if 2 ^ 63 ≤ c then (2 * c) % 2 ^ 64 ^^^ 0x42F0E1EBA9EA3693 else 2 * c) n

/-- CRC-64 of R80 continued over more bytes: initial value 0, not reflected, no final XOR. -/
def crc64From (c : Nat) (bytes : List Nat) : Nat :=
  bytes.foldl (fun c b => crc64Bits (c ^^^ (b % 256 * 2 ^ 56)) 8) c

/-- CRC-64 of R80. -/
def crc64 (bytes : List Nat) : Nat := crc64From 0 bytes

end Sys2Proof.Machine
end

