-- ==== Sys2Proof/Config.lean ====
section
/-! DEFINITION. What an implementation or a single device fixes, and the free values: constants without a
body, so that nothing can be proved of the value they stand for. -/

namespace Sys2Proof.Config

/-- The steppings that SYS_ID names (02 Table PWR-9). -/
inductive Step where
  | a0
  | b0
  | b1
  deriving DecidableEq, Repr, Inhabited

/-- The stepping in the fuse map [log 3]. -/
opaque step : Step

/-- Its code in SYS_ID.STEP (02 Table PWR-9). -/
def stepping : Nat :=
  match step with
  | .a0 => 0x00
  | .b0 => 0x10
  | .b1 => 0x11
/-- The security version in the fuses at manufacture (17 R430) [log 3]. -/
opaque svnFuse : Nat
/-- The range of a SerDes quad's clock in Hz at a link rate code (02 Table PWR-1 "Set by link rate") [log 78]. -/
opaque serdesRange : Nat → Nat × Nat
/-- Free value: power-on seconds and ticks of the n-th time stamp taken (20 R510, R511) [log 7]. -/
opaque freeTime : Nat → Nat
/-- Free value: the 32-byte payload of the n-th event (20 R519: published in another file) [log 8]. -/
opaque freePayload : Nat → Nat
/-- The payload of the n-th event, of a code whose rule says what the event names: the values named (20 R519) [log 8]. -/
opaque namedPayload : Nat → List Nat → Nat → Nat
/-- Free value: what the n-th undefined or unstated value holds [log 0 and those it names]. -/
opaque freeValue : Nat → Nat
/-- Repair resources the HBM stack holds for a bank, soft (false) or hard (true) (12 R316: the stack reports them) [log 3]. -/
opaque pprResources : Bool → Nat → Nat

/-- Free value: whether the SMBus alert status, which the spec does not define, is raised at the n-th look (01 Table MOD-8;
log entry 94). -/
opaque freeAlert : Nat → Bool
/-- The severity below FATAL that the hardware gives an event code (20 Table EVR-1; published in another file) [log 8]. -/
opaque freeSeverity : Nat → Nat
/-- Free value: whether the n-th gate drop falls in or after the pad (06 R166) [log 29]. -/
opaque freeInPad : Nat → Bool
/-- Free value: the brake current to which mode 0 is reduced from a bound while VMOT is above 12.9 V (10 Table SPN-4: the amount is not
stated) [log 103]. -/
opaque brakeReduced : Nat → Nat → Nat
/-- Free value: whether SDIO is still held low at the n-th look (06 R173) [log 22]. -/
opaque freeSdioLow : Nat → Bool
/-- Free value: whether the n-th quotient of unstated rounding is rounded up [log 10]. -/
opaque freeUp : Nat → Bool
/-- How the detector's metric difference between a 1 and a 0 scales to an LLR, before the clamp to 6 bits, and how an LLR
scales to an a priori metric (05 R130: not stated) [log 96]. -/
opaque llrOf : Int → Int
opaque priorMetric : Int → Int
/-- Free values of the decoder: whether 0.75 of a magnitude rounds up, and the hard decision of a sum of 0 (05 R132, R133:
not stated) [log 97]. -/
opaque scaleUp : Nat → Bool
opaque hardZero : Bool
/-- The exponent of the circulant at a row and column of the LDPC base matrix, none where the block is zero (05 R131:
published in another file) [log 97]. -/
opaque ldpcExp : Nat → Nat → Option Nat
/-- The parity bits that the LDPC encoder adds to the information bits (05 R131, 06 R160) [log 97]. -/
opaque ldpcParity : Nat → Nat
/-- Free value: a sample-buffer byte of the g-th power-up that no capture has written (02 R54) [log 12]. -/
opaque freeSample : Nat → Nat → Nat
/-- The content of the formatter's tablature ROM, by address (07: published in another file) [log 11]. -/
opaque rom : Nat → Nat
/-- The reference CRC-32 of the ROM, from the fuses (07 Table TAB-19) [log 11]. -/
opaque romCrc : Nat
/-- Free value: a patch word of the g-th power-up that nothing has written (07 R200) [log 12]. -/
opaque freePatch : Nat → Nat → Nat
/-- What the crypto engine makes of a block for the media (17 R438): the media keys by range, header word, block [log 13]. -/
opaque encipher : List (Nat × Nat) → Nat → Nat → Nat
/-- What the crypto engine makes of a block read from the media: the media keys by range, header word, ciphertext [log 13]. -/
opaque decipher : List (Nat × Nat) → Nat → Nat → Nat
/-- SHA-384 of `len` bytes held as a little-endian number (17 Table SEC-1): a 48-byte value [log 13]. -/
opaque sha384 : Nat → Nat → Nat
/-- The digest of the Nut ROM and the fuse configuration, as M0 takes them (17 R429) [log 13]. -/
opaque nutDigest : Nat
opaque fuseConfig : Nat
/-- Code of an M3 record by the n-th change (17 R429: the codes are not given) [log 58]. -/
opaque m3Code : Nat → Nat
/-- The envelope public keys of SEC_INFO item 1, 1,665 bytes (17 Table SEC-2, R451) [log 13]. -/
opaque envelopeKeys : Nat
/-- The certificate chains of SEC_INFO item 2, by M1: length and bytes (17 R431) [log 13]. -/
opaque certChains : Nat → Nat × Nat
/-- The attestation public keys, ECDSA and ML-DSA, by M1 (17 Table SEC-2) [log 13]. -/
opaque akKeys : Nat → Nat × Nat

/-- The 256 KiB chunk of the metadata region in which firmware's layout places a zone's write pointer and an LBA's failed
mark (11 Table SPT-1: laid out by firmware) [log 84]. -/
opaque zoneChunk : Nat → Nat
opaque failChunk : Nat → Nat
/-- The serial number in the fuse map: 16 bytes of ASCII (16 Table ADM-3) [log 3]. -/
opaque serial : Nat
/-- The IDK hash of this device (17 R448) [log 3]. -/
opaque idkHash : Nat
/-- The package in the recovery slot at manufacture (16 R416): its 1,024-byte header, its signature block, and its images
by TYPE [log 51]. -/
opaque factoryHeader : Nat
opaque factorySig : Nat
opaque factoryImage : Nat → Nat
/-- The window address at which every member opens its chord area (19: not given) [log 68]. -/
opaque chordBase : Nat

end Sys2Proof.Config
end

