-- ==== Sys2Proof/Machine/Map.lean ====
section
/-! DEFINITION. The operations of the sparse tables (SMap): look up, write, erase, and the canonical form. -/

namespace Sys2Proof.Machine

/-- The value listed for key `k`, if any. -/
def SMap.look {α : Type} : SMap α → Nat → Option α
  | [], _ => none
  | p :: m, k => if p.1 = k then some p.2 else SMap.look m k

/-- The value at key `k`, `d` where nothing is listed. -/
def SMap.get {α : Type} (m : SMap α) (d : α) (k : Nat) : α := (SMap.look m k).getD d

/-- The table without key `k`. -/
def SMap.del {α : Type} : SMap α → Nat → SMap α
  | [], _ => []
  | p :: m, k => if p.1 = k then SMap.del m k else p :: SMap.del m k

/-- `k` listed with `v` before the first larger key. -/
def SMap.ins {α : Type} : SMap α → Nat → α → SMap α
  | [], k, v => [(k, v)]
  | p :: m, k, v => if k < p.1 then (k, v) :: p :: m else p :: SMap.ins m k v

/-- The table with `k` listed at `v` (a table without a default value). -/
def SMap.set {α : Type} (m : SMap α) (k : Nat) (v : α) : SMap α := SMap.ins (SMap.del m k) k v

/-- The table with `v` at `k`; writing the default `d` removes the entry. -/
def SMap.put {α : Type} [DecidableEq α] (m : SMap α) (d : α) (k : Nat) (v : α) : SMap α :=
  if v = d then SMap.del m k else SMap.set m k v

/-- Keys strictly rising. -/
def SMap.rising {α : Type} : SMap α → Bool
  | [] => true
  | [_] => true
  | p :: q :: m => decide (p.1 < q.1) && SMap.rising (q :: m)

/-- The canonical form: keys strictly rising and no entry equal to the default. -/
def SMap.wf {α : Type} [DecidableEq α] (m : SMap α) (d : α) : Bool :=
  SMap.rising m && m.all (fun p => decide (p.2 ≠ d))

/-- The entry at `k` changed by `g` (default `d` where nothing is listed). -/
def SMap.upd {α : Type} [DecidableEq α] (m : SMap α) (d : α) (k : Nat) (g : α → α) : SMap α :=
  SMap.put m d k (g (SMap.get m d k))

/-- The keys of a table. -/
def SMap.keys {α : Type} (m : SMap α) : List Nat := m.map Prod.fst

/-- The table of the entries whose key satisfies `p`. -/
def SMap.keep {α : Type} (m : SMap α) (p : Nat → Bool) : SMap α := m.filter (fun e => p e.1)

/-- Write a run of values at consecutive keys. -/
def SMap.putList {α : Type} [DecidableEq α] (m : SMap α) (d : α) (k : Nat) : List α → SMap α
  | [] => m
  | v :: vs => SMap.putList (SMap.put m d k v) d (k + 1) vs

/-- Read a run of values at consecutive keys. -/
def SMap.getList {α : Type} (m : SMap α) (d : α) (k : Nat) : Nat → List α
  | 0 => []
  | n + 1 => SMap.get m d k :: SMap.getList m d (k + 1) n

end Sys2Proof.Machine
end

