-- ==== Sys2Proof/Machine/Regs.lean ====
section
/-! DEFINITION. The register fields of the spec's register tables, one home each (Field), and the
table of every register: address, instances, fields with access code, reset and stated range (00 R5 to R17). -/

namespace Sys2Proof.Machine

/-- A register field: its register's address, its lowest bit, its width and its reset value. -/
structure Field where
  addr : Nat
  lo : Nat
  width : Nat
  rst : Nat
  deriving DecidableEq, Repr

/-- The access codes of 00 Table SCP-3 (R8). -/
inductive Acc where
  | rw | ro | wo | w1c | w1s | rc | rwc | rwl
  deriving DecidableEq, Repr

/-- The stated range of a field: any value; a count from `lo` to `hi` (00 R12, R13: zero is code 0x01,
beyond the range code 0x02); a plain range with the block's code; a signed range (code 0x02). -/
inductive Range where
  | any
  | count (lo hi : Nat)
  | rng (lo hi code : Nat)
  | signed (lo hi : Int)
  deriving DecidableEq, Repr

/-- One field of a register of the table. -/
structure FieldDef where
  lo : Nat
  width : Nat
  acc : Acc
  rst : Nat
  range : Range
  deriving DecidableEq, Repr

/-- One register of the table: the address of its first instance, the strides and counts of its instances
(largest stride first) and its fields from bit 0 up; bits of no field are reserved (00 R7). -/
structure RegDef where
  base : Nat
  dims : List (Nat × Nat)
  fields : List FieldDef
  deriving DecidableEq, Repr

/-- The key of a field in the field store: its register's address and its lowest bit. -/
def Field.key (f : Field) : Nat := f.addr * 32 + f.lo

namespace Reg

/-- R69 PWR-9, RO: Part number -/
def SYS_ID_PART : Field := ⟨0x40000000, 16, 16, 18454⟩
/-- R69 PWR-9, RO: 0x00 A0, 0x10 B0, 0x11 B1 -/
def SYS_ID_STEP : Field := ⟨0x40000000, 8, 8, 0⟩
/-- R69 PWR-10, RO: STRAP_SRIS_B -/
def SYS_STRAP_SRIS_B : Field := ⟨0x40000004, 9, 1, 0⟩
/-- R69 PWR-10, RO: STRAP_SRIS_A -/
def SYS_STRAP_SRIS_A : Field := ⟨0x40000004, 8, 1, 0⟩
/-- R69 PWR-10, RO: STRAP_SMB_ADDR[1:0] -/
def SYS_STRAP_SMB_ADDR : Field := ⟨0x40000004, 6, 2, 0⟩
/-- R69 PWR-10, RO: STRAP_BOOT_RCV -/
def SYS_STRAP_BOOT_RCV : Field := ⟨0x40000004, 5, 1, 0⟩
/-- R69 PWR-10, RO: STRAP_MGR_SEL -/
def SYS_STRAP_MGR_SEL : Field := ⟨0x40000004, 4, 1, 0⟩
/-- R69 PWR-10, RO: STRAP_ACT[3:0] -/
def SYS_STRAP_ACT : Field := ⟨0x40000004, 0, 4, 0⟩
/-- R69 PWR-11, W1C: A reset was held until a save ended (R63) -/
def SYS_RST_CAUSE_SAVE_DEFER : Field := ⟨0x40000010, 7, 1, 0⟩
/-- R69 PWR-11, W1C: Debug-port reset -/
def SYS_RST_CAUSE_DBG : Field := ⟨0x40000010, 6, 1, 0⟩
/-- R69 PWR-11, W1C: Software reset -/
def SYS_RST_CAUSE_SOFT : Field := ⟨0x40000010, 5, 1, 0⟩
/-- R69 PWR-11, W1C: Watchdog expiry -/
def SYS_RST_CAUSE_WDOG : Field := ⟨0x40000010, 4, 1, 0⟩
/-- R69 PWR-11, W1C: Fatal machine check -/
def SYS_RST_CAUSE_LOCKSTEP : Field := ⟨0x40000010, 3, 1, 0⟩
/-- R69 PWR-11, W1C: Voltage monitor -/
def SYS_RST_CAUSE_VMON : Field := ⟨0x40000010, 2, 1, 0⟩
/-- R69 PWR-11, W1C: Clock monitor -/
def SYS_RST_CAUSE_CMON : Field := ⟨0x40000010, 1, 1, 0⟩
/-- R69 PWR-11, W1C: SYS_POR_N -/
def SYS_RST_CAUSE_POR : Field := ⟨0x40000010, 0, 1, 1⟩
/-- R69 PWR-12, WO: Must be 0x5A5A in the same write as SOFT; any other value makes the write ignored -/
def SYS_RST_CTL_KEY : Field := ⟨0x40000014, 16, 16, 0⟩
/-- R69 PWR-12, WO: 1: device reset -/
def SYS_RST_CTL_SOFT : Field := ⟨0x40000014, 0, 1, 0⟩
/-- R69 PWR-13, RW: 1: the watchdog runs; the count restarts when EN goes from 0 to 1 -/
def SYS_WDOG_CTL_EN : Field := ⟨0x40000018, 31, 1, 0⟩
/-- R69 PWR-13, RW: Expiry time, 1 to 1,048,575 ms. A write of 0 is ignored and records code 0x07. -/
def SYS_WDOG_CTL_TIMEOUT_MS : Field := ⟨0x40000018, 0, 20, 1000⟩
/-- R69 PWR-14, WO: Any write restarts the watchdog count -/
def SYS_WDOG_KICK_KICK : Field := ⟨0x4000001c, 0, 32, 0⟩
/-- R69 PWR-15, RW: Bit i: domain 32n + i requested on; checked as R52 gives -/
def SYS_PD_REQ_ON (n : Nat) : Field := ⟨0x40000100 + 0x4 * n, 0, 32, 0⟩
/-- R69 PWR-16, RO: Bit i: domain 32n + i settled on, with isolation released -/
def SYS_PD_STAT_ON (n : Nat) : Field := ⟨0x40000110 + 0x4 * n, 0, 32, 0⟩
/-- R69 PWR-17, RO: 1: a domain is ramping -/
def SYS_CFG_STATUS_BUSY : Field := ⟨0x40000120, 31, 1, 0⟩
/-- R69 PWR-17, W1C: 1: a write was rejected; clearing ERR also clears CODE and DOMAIN -/
def SYS_CFG_STATUS_ERR : Field := ⟨0x40000120, 30, 1, 0⟩
/-- R69 PWR-17, RO. -/
def SYS_CFG_STATUS_CODE : Field := ⟨0x40000120, 8, 8, 0⟩
/-- R69 PWR-17, RO: Domain number for codes 0x01 to 0x05; otherwise 0 -/
def SYS_CFG_STATUS_DOMAIN : Field := ⟨0x40000120, 0, 7, 0⟩
/-- R69 PWR-18, W1C: Bit i: clock fault on island i -/
def SYS_CLK_FAULT0_FAULT : Field := ⟨0x40000200, 0, 32, 0⟩
/-- R69 PWR-19, W1C: Bit i: clock fault on island 32 + i; bit 4 (island 36) always reads 0 -/
def SYS_CLK_FAULT1_FAULT : Field := ⟨0x40000204, 0, 12, 0⟩
/-- R69 PWR-20, RO: Port B: 0b00 D0, 0b11 D3hot -/
def SYS_PWR_STATE_DSTATE_B : Field := ⟨0x40000300, 16, 2, 0⟩
/-- R69 PWR-20, RO: Port A: 0b00 D0, 0b11 D3hot -/
def SYS_PWR_STATE_DSTATE_A : Field := ⟨0x40000300, 8, 2, 0⟩
/-- R69 PWR-20, RW. -/
def SYS_PWR_STATE_STATE : Field := ⟨0x40000300, 0, 3, 0⟩
/-- R69 PWR-21, RO: 1: fuse map loaded and checked -/
def SYS_FUSE_STAT_LOADED : Field := ⟨0x40000400, 31, 1, 0⟩
/-- R69 PWR-21, RO: 1: fuse map failed its check (R67) -/
def SYS_FUSE_STAT_ERR : Field := ⟨0x40000400, 30, 1, 0⟩
/-- R69 PWR-21, RO: Number of SRAM instances using spare rows -/
def SYS_FUSE_STAT_REPAIRED : Field := ⟨0x40000400, 8, 8, 0⟩
/-- R70 PWR-23, RWL: Bit i: reader input i = 3·s + e connected, i = 0 to 31 -/
def SYS_AFE_FIT0_FIT : Field := ⟨0x40000510, 0, 32, 0⟩
/-- R70 PWR-24, W1S: 1: SYS_AFE_FIT0 and SYS_AFE_FIT1 frozen until device reset -/
def SYS_AFE_FIT1_LOCK : Field := ⟨0x40000514, 31, 1, 0⟩
/-- R70 PWR-24, RWL: Bit i: reader input 32 + i connected -/
def SYS_AFE_FIT1_FIT : Field := ⟨0x40000514, 0, 16, 0⟩
/-- R125 AFE-6, RW: 1: all loops hold (R110) -/
def CHN_FE_CTL_HOLD_ALL (s : Nat) : Field := ⟨0x40a00000 + 0x10000 * s, 8, 1, 0⟩
/-- R125 AFE-6, RW: 1: combination weights adapt (R119) -/
def CHN_FE_CTL_W_ADAPT (s : Nat) : Field := ⟨0x40a00000 + 0x10000 * s, 4, 1, 0⟩
/-- R125 AFE-6, RW: 1: thermal-asperity detection on -/
def CHN_FE_CTL_TA_EN (s : Nat) : Field := ⟨0x40a00000 + 0x10000 * s, 1, 1, 1⟩
/-- R125 AFE-6, RW: 1: drop-out detection on -/
def CHN_FE_CTL_DO_EN (s : Nat) : Field := ⟨0x40a00000 + 0x10000 * s, 0, 1, 1⟩
/-- R125 AFE-7, RO: 1: a course member is assigned to the slot -/
def CHN_FE_STATUS_ACTIVE (s : Nat) : Field := ⟨0x40a00004 + 0x10000 * s, 31, 1, 0⟩
/-- R125 AFE-7, RO: 1: a defect window is open -/
def CHN_FE_STATUS_WINDOW (s : Nat) : Field := ⟨0x40a00004 + 0x10000 * s, 30, 1, 0⟩
/-- R125 AFE-7, RO: Head of the current member, 0 to 11 -/
def CHN_FE_STATUS_HEAD (s : Nat) : Field := ⟨0x40a00004 + 0x10000 * s, 16, 4, 0⟩
/-- R125 AFE-7, RO: ELEM_MASK of the current member -/
def CHN_FE_STATUS_ELEM (s : Nat) : Field := ⟨0x40a00004 + 0x10000 * s, 8, 3, 0⟩
/-- R125 AFE-7, RO: Rate band of the current member -/
def CHN_FE_STATUS_BAND (s : Nat) : Field := ⟨0x40a00004 + 0x10000 * s, 0, 6, 0⟩
/-- R125 AFE-8, RW: Thermal-asperity level, 8 to 63 LSB -/
def CHN_FE_DEFECT_TA_LEVEL (s : Nat) : Field := ⟨0x40a00008 + 0x10000 * s, 16, 8, 24⟩
/-- R125 AFE-8, RW: Drop-out level, 10 to 60 % of TARGET -/
def CHN_FE_DEFECT_DO_PCT (s : Nat) : Field := ⟨0x40a00008 + 0x10000 * s, 8, 7, 30⟩
/-- R125 AFE-8, RW: Drop-out length, 8 to 64 read cells; a count (R12) -/
def CHN_FE_DEFECT_DO_LEN (s : Nat) : Field := ⟨0x40a00008 + 0x10000 * s, 0, 7, 16⟩
/-- R125 AFE-9, RW: Boost, 0 to 15 dB -/
def CHN_FE_CTF_BOOST (s : Nat) : Field := ⟨0x40a0000c + 0x10000 * s, 8, 4, 6⟩
/-- R125 AFE-9, RW: Cutoff, channel rate × CUTOFF / 64; 16 to 40 -/
def CHN_FE_CTF_CUTOFF (s : Nat) : Field := ⟨0x40a0000c + 0x10000 * s, 0, 6, 29⟩
/-- R125 AFE-10, RW: Regulated amplitude, 24 to 56 LSB -/
def CHN_FE_GAIN_TARGET_TARGET (s : Nat) : Field := ⟨0x40a00010 + 0x10000 * s, 0, 6, 40⟩
/-- R125 AFE-11, RO: Gain code -/
def CHN_FE_STATE_GAIN (s : Nat) (e : Nat) : Field := ⟨0x40a00020 + 0x10000 * s + 0x4 * e, 24, 8, 0⟩
/-- R125 AFE-11, RO: Offset code, signed -/
def CHN_FE_STATE_OFFSET (s : Nat) (e : Nat) : Field := ⟨0x40a00020 + 0x10000 * s + 0x4 * e, 16, 8, 0⟩
/-- R125 AFE-11, RO: ASYM, signed, −32 to 31 -/
def CHN_FE_STATE_ASYM (s : Nat) (e : Nat) : Field := ⟨0x40a00020 + 0x10000 * s + 0x4 * e, 8, 8, 0⟩
/-- R125 AFE-11, RO: Fine phase, signed, −32 to +32, in 1/64 cell, excluding skew -/
def CHN_FE_STATE_PHASE (s : Nat) (e : Nat) : Field := ⟨0x40a00020 + 0x10000 * s + 0x4 * e, 0, 8, 0⟩
/-- R125 AFE-12, RO: Current combination weight, signed Q1.14 -/
def CHN_FE_WEIGHT_WEIGHT (s : Nat) (e : Nat) : Field := ⟨0x40a00030 + 0x10000 * s + 0x4 * e, 0, 16, 0⟩
/-- R125 AFE-13, RW: Skew of E2 on head h, signed, −512 to +512 in 1/64 cell -/
def CHN_FE_SKEW_SKEW_E2 (s : Nat) (h : Nat) : Field := ⟨0x40a00040 + 0x10000 * s + 0x4 * h, 16, 11, 0⟩
/-- R125 AFE-13, RW: Skew of E0 on head h, signed, −512 to +512 in 1/64 cell -/
def CHN_FE_SKEW_SKEW_E0 (s : Nat) (h : Nat) : Field := ⟨0x40a00040 + 0x10000 * s + 0x4 * h, 0, 11, 0⟩
/-- R125 AFE-14, RW: 1: buffer held for firmware reads (R123); a set while ACTIVE is 1 is rejected with code 0x05 -/
def CHN_FE_SB_CTL_HOLD (s : Nat) : Field := ⟨0x40a00080 + 0x10000 * s, 31, 1, 0⟩
/-- R125 AFE-14, RO: Entry holding the most recently started sector -/
def CHN_FE_SB_CTL_NEWEST (s : Nat) : Field := ⟨0x40a00080 + 0x10000 * s, 0, 1, 0⟩
/-- R125 AFE-15, RO: 1: the entry holds a completed capture -/
def CHN_FE_SB_PSI_VALID (s : Nat) (n : Nat) : Field := ⟨0x40a00084 + 0x10000 * s + 0x8 * n, 31, 1, 0⟩
/-- R125 AFE-15, RO: Physical sector index of the captured sector -/
def CHN_FE_SB_PSI_PSI (s : Nat) (n : Nat) : Field := ⟨0x40a00084 + 0x10000 * s + 0x8 * n, 0, 16, 0⟩
/-- R125 AFE-16, RO: Erased read cells of the captured sector -/
def CHN_FE_SB_CNT_ERASED (s : Nat) (n : Nat) : Field := ⟨0x40a00088 + 0x10000 * s + 0x8 * n, 16, 16, 0⟩
/-- R125 AFE-16, RO: Captured cells, up to 37,376 -/
def CHN_FE_SB_CNT_CELLS (s : Nat) (n : Nat) : Field := ⟨0x40a00088 + 0x10000 * s + 0x8 * n, 0, 16, 0⟩
/-- R125 AFE-17, RW: Entry 0 or 1 -/
def CHN_FE_SB_ADDR_ENTRY (s : Nat) : Field := ⟨0x40a00098 + 0x10000 * s, 19, 1, 0⟩
/-- R125 AFE-17, RW: Element 0 to 2 -/
def CHN_FE_SB_ADDR_ELEM (s : Nat) : Field := ⟨0x40a00098 + 0x10000 * s, 17, 2, 0⟩
/-- R125 AFE-17, RW: First cell of the next read -/
def CHN_FE_SB_ADDR_CELL (s : Nat) : Field := ⟨0x40a00098 + 0x10000 * s, 0, 16, 0⟩
/-- R125 AFE-18, RO: Cell CELL + 3: bit 7 erasure, bits [6:0] sample -/
def CHN_FE_SB_DATA_CELL3 (s : Nat) : Field := ⟨0x40a0009c + 0x10000 * s, 24, 8, 0⟩
/-- R125 AFE-18, RO: Cell CELL + 2 -/
def CHN_FE_SB_DATA_CELL2 (s : Nat) : Field := ⟨0x40a0009c + 0x10000 * s, 16, 8, 0⟩
/-- R125 AFE-18, RO: Cell CELL + 1 -/
def CHN_FE_SB_DATA_CELL1 (s : Nat) : Field := ⟨0x40a0009c + 0x10000 * s, 8, 8, 0⟩
/-- R125 AFE-18, RO: Cell CELL -/
def CHN_FE_SB_DATA_CELL0 (s : Nat) : Field := ⟨0x40a0009c + 0x10000 * s, 0, 8, 0⟩
/-- R126 AFE-19, RC: Sectors whose capture completed -/
def CHN_FE_SECTORS_COUNT (s : Nat) : Field := ⟨0x40a000a0 + 0x10000 * s, 0, 32, 0⟩
/-- R126 AFE-20, RC: Defect windows containing thermal-asperity cells -/
def CHN_FE_TA_CNT_COUNT (s : Nat) : Field := ⟨0x40a000a4 + 0x10000 * s, 0, 32, 0⟩
/-- R126 AFE-21, RC: Defect windows containing drop-out cells -/
def CHN_FE_DO_CNT_COUNT (s : Nat) : Field := ⟨0x40a000a8 + 0x10000 * s, 0, 32, 0⟩
/-- R126 AFE-22, RC: Erased read cells -/
def CHN_FE_ERASED_COUNT (s : Nat) : Field := ⟨0x40a000ac + 0x10000 * s, 0, 32, 0⟩
/-- R126 AFE-23, RC: Read cells in which the ADC output of Ee was −64 or +63 -/
def CHN_FE_CLIP_COUNT (s : Nat) (e : Nat) : Field := ⟨0x40a000b0 + 0x10000 * s + 0x4 * e, 0, 32, 0⟩
/-- R126 AFE-24, RC: Loop updates stopped at the end of a range (R107) -/
def CHN_FE_RAIL_COUNT (s : Nat) : Field := ⟨0x40a000bc + 0x10000 * s, 0, 32, 0⟩
/-- R126 AFE-25, W1C: 1: a write or access was rejected; clearing ERR also clears CODE -/
def CHN_FE_CFG_STATUS_ERR (s : Nat) : Field := ⟨0x40a000c0 + 0x10000 * s, 31, 1, 0⟩
/-- R126 AFE-25, RO. -/
def CHN_FE_CFG_STATUS_CODE (s : Nat) : Field := ⟨0x40a000c0 + 0x10000 * s, 0, 8, 0⟩
/-- R150 DET-5, RW: Copied into each sector record -/
def CHN_DET_CTL_RETRY_TAG (s : Nat) : Field := ⟨0x40a00100 + 0x10000 * s, 24, 3, 0⟩
/-- R150 DET-5, RW: 1: a fast-path failure enters the pool (R142) -/
def CHN_DET_CTL_SECOND_LOOK (s : Nat) : Field := ⟨0x40a00100 + 0x10000 * s, 20, 1, 1⟩
/-- R150 DET-5, RW: 1: timed attempts follow the candidates (R140) -/
def CHN_DET_CTL_TIMED_ALL (s : Nat) : Field := ⟨0x40a00100 + 0x10000 * s, 16, 1, 0⟩
/-- R150 DET-5, RW: Candidates kept, 1 to 3; a count (R12) -/
def CHN_DET_CTL_MAX_CAND (s : Nat) : Field := ⟨0x40a00100 + 0x10000 * s, 12, 2, 3⟩
/-- R150 DET-5, RW: Resync distance limit, 0 to 4 -/
def CHN_DET_CTL_RESYNC_THR (s : Nat) : Field := ⟨0x40a00100 + 0x10000 * s, 8, 3, 2⟩
/-- R150 DET-5, RW: Sync distance limit, 0 to 8 -/
def CHN_DET_CTL_SYNC_THR (s : Nat) : Field := ⟨0x40a00100 + 0x10000 * s, 0, 4, 4⟩
/-- R150 DET-6, RW: Target coefficient of D², signed, −64 to 63, in 1/16 -/
def CHN_DET_TARGET_T2 (s : Nat) : Field := ⟨0x40a00104 + 0x10000 * s, 16, 8, 12⟩
/-- R150 DET-6, RW: Target coefficient of D, signed, −64 to 63, in 1/16 -/
def CHN_DET_TARGET_T1 (s : Nat) : Field := ⟨0x40a00104 + 0x10000 * s, 8, 8, 28⟩
/-- R150 DET-6, RW: Main coefficient, 1 to 63, in 1/16 -/
def CHN_DET_TARGET_T0 (s : Nat) : Field := ⟨0x40a00104 + 0x10000 * s, 0, 8, 16⟩
/-- R150 DET-7, RW: Tap step, 1 to 8 units of Q1.14; a count (R12) -/
def CHN_DET_EQ_CTL_STEP (s : Nat) : Field := ⟨0x40a00108 + 0x10000 * s, 8, 4, 4⟩
/-- R150 DET-7, RW: 1: taps adapt (R128) -/
def CHN_DET_EQ_CTL_ADAPT (s : Nat) : Field := ⟨0x40a00108 + 0x10000 * s, 0, 1, 1⟩
/-- R151 DET-8, RO: Erased read cells of the sector (R114) -/
def CHN_DET_SECT_LO_ERASED (s : Nat) : Field := ⟨0x40a00110 + 0x10000 * s, 16, 16, 0⟩
/-- R151 DET-8, RO: Physical sector index -/
def CHN_DET_SECT_LO_PSI (s : Nat) : Field := ⟨0x40a00110 + 0x10000 * s, 0, 16, 0⟩
/-- R151 DET-9, RO: Table DET-2 -/
def CHN_DET_SECT_HI_OUTCOME (s : Nat) : Field := ⟨0x40a00114 + 0x10000 * s, 28, 4, 15⟩
/-- R151 DET-9, RO: 1: decided in the second look -/
def CHN_DET_SECT_HI_DEEP (s : Nat) : Field := ⟨0x40a00114 + 0x10000 * s, 27, 1, 0⟩
/-- R151 DET-9, RO: Index of the deciding attempt, or of the lowest-indexed counted attempt that reached the reported failure (R147) -/
def CHN_DET_SECT_HI_ATTEMPT (s : Nat) : Field := ⟨0x40a00114 + 0x10000 * s, 24, 3, 0⟩
/-- R151 DET-9, RO: H(q) of that attempt, 0 to 32; 0x3F for a timed attempt -/
def CHN_DET_SECT_HI_HDIST (s : Nat) : Field := ⟨0x40a00114 + 0x10000 * s, 18, 6, 0⟩
/-- R151 DET-9, RO: q − P, signed, −48 to +48 -/
def CHN_DET_SECT_HI_SYNC_OFS (s : Nat) : Field := ⟨0x40a00114 + 0x10000 * s, 11, 7, 0⟩
/-- R151 DET-9, RO: RETRY_TAG at capture -/
def CHN_DET_SECT_HI_RETRY (s : Nat) : Field := ⟨0x40a00114 + 0x10000 * s, 8, 3, 0⟩
/-- R151 DET-9, RO: Iterations of that attempt, 0 to 80 -/
def CHN_DET_SECT_HI_ITER (s : Nat) : Field := ⟨0x40a00114 + 0x10000 * s, 0, 8, 0⟩
/-- R151 DET-10, W1C: 1: a record was dropped -/
def CHN_DET_FIFO_STAT_OVF (s : Nat) : Field := ⟨0x40a00118 + 0x10000 * s, 31, 1, 0⟩
/-- R151 DET-10, RO: Records held, 0 to 32 -/
def CHN_DET_FIFO_STAT_COUNT (s : Nat) : Field := ⟨0x40a00118 + 0x10000 * s, 0, 6, 0⟩
/-- R152 DET-11, RC: Sectors recovered by the fast path -/
def CHN_DET_FAST_OK_COUNT (s : Nat) : Field := ⟨0x40a00120 + 0x10000 * s, 0, 32, 0⟩
/-- R152 DET-12, RC: Sectors recovered in the second look -/
def CHN_DET_DEEP_OK_COUNT (s : Nat) : Field := ⟨0x40a00124 + 0x10000 * s, 0, 32, 0⟩
/-- R152 DET-13, RC: Sectors recovered at an attempt index above 0, or at a timed attempt -/
def CHN_DET_SYNC_RECOV_COUNT (s : Nat) : Field := ⟨0x40a00128 + 0x10000 * s, 0, 32, 0⟩
/-- R152 DET-14, RC: Sectors decided with outcomes 0x1 to 0x4 -/
def CHN_DET_FAILED_COUNT (s : Nat) : Field := ⟨0x40a0012c + 0x10000 * s, 0, 32, 0⟩
/-- R152 DET-15, RC: Sectors with outcome 0x5 -/
def CHN_DET_MISSED_COUNT (s : Nat) : Field := ⟨0x40a00130 + 0x10000 * s, 0, 32, 0⟩
/-- R152 DET-16, W1C: 1: a write was rejected; clearing ERR also clears CODE -/
def CHN_DET_CFG_STATUS_ERR (s : Nat) : Field := ⟨0x40a00140 + 0x10000 * s, 31, 1, 0⟩
/-- R152 DET-16, RO: 0x00 none; 0x01 zero count; 0x02 value outside its range -/
def CHN_DET_CFG_STATUS_CODE (s : Nat) : Field := ⟨0x40a00140 + 0x10000 * s, 0, 8, 0⟩
/-- R153 DET-17, RW: Engines in use, 1 to 8; a count (R12) -/
def CHN_DP_CTL_ENGINES : Field := ⟨0x40a00200, 0, 4, 8⟩
/-- R153 DET-18, RO: Sectors queued or in progress, 0 to 32 -/
def CHN_DP_STATUS_QUEUE : Field := ⟨0x40a00204, 16, 6, 0⟩
/-- R153 DET-18, RO: Bit i: engine i is running an attempt -/
def CHN_DP_STATUS_BUSY : Field := ⟨0x40a00204, 0, 8, 0⟩
/-- R153 DET-19, RC: Attempts run to their end by the pool -/
def CHN_DP_ATTEMPTS_COUNT : Field := ⟨0x40a00208, 0, 32, 0⟩
/-- R175 WRP-4, RW: 1: the slot's write gate is held low -/
def CHN_WR_CTL_INHIBIT (s : Nat) : Field := ⟨0x40a00300 + 0x10000 * s, 8, 1, 0⟩
/-- R175 WRP-4, RW: 1: precompensation applied (R163) -/
def CHN_WR_CTL_PRECOMP_EN (s : Nat) : Field := ⟨0x40a00300 + 0x10000 * s, 0, 1, 1⟩
/-- R175 WRP-5, RO: 1: write gate open -/
def CHN_WR_STATUS_GATE (s : Nat) : Field := ⟨0x40a00304 + 0x10000 * s, 31, 1, 0⟩
/-- R175 WRP-5, RO: Bit i: source i of Table WRP-1 currently holds the gate low -/
def CHN_WR_STATUS_ACTIVE (s : Nat) : Field := ⟨0x40a00304 + 0x10000 * s, 0, 12, 0⟩
/-- R175 WRP-6, W1C: Bit i: source i has forced the gate low since it was last cleared -/
def CHN_WR_CAUSE_CAUSE (s : Nat) : Field := ⟨0x40a00308 + 0x10000 * s, 0, 12, 0⟩
/-- R175 WRP-7, RW: Trim gain during acquisition, 0 to 15 -/
def CHN_MC_CTL_KI_ACQ (s : Nat) : Field := ⟨0x40a00310 + 0x10000 * s, 28, 4, 8⟩
/-- R175 WRP-7, RW: Trim gain, 0 to 15 -/
def CHN_MC_CTL_KI (s : Nat) : Field := ⟨0x40a00310 + 0x10000 * s, 24, 4, 2⟩
/-- R175 WRP-7, RW: Phase gain during acquisition, 0 to 8 -/
def CHN_MC_CTL_KP_ACQ (s : Nat) : Field := ⟨0x40a00310 + 0x10000 * s, 20, 4, 8⟩
/-- R175 WRP-7, RW: Phase gain, 0 to 8 -/
def CHN_MC_CTL_KP (s : Nat) : Field := ⟨0x40a00310 + 0x10000 * s, 16, 4, 4⟩
/-- R175 WRP-7, RW: Loss-of-lock limit, 4 to 63, in 1/64 cell -/
def CHN_MC_CTL_UNLOCK_TOL (s : Nat) : Field := ⟨0x40a00310 + 0x10000 * s, 8, 6, 16⟩
/-- R175 WRP-7, RW: Lock limit, 1 to 32, in 1/64 cell -/
def CHN_MC_CTL_LOCK_TOL (s : Nat) : Field := ⟨0x40a00310 + 0x10000 * s, 0, 6, 4⟩
/-- R175 WRP-8, RO: 1: locked (R156) -/
def CHN_MC_STATUS_LOCKED (s : Nat) : Field := ⟨0x40a00314 + 0x10000 * s, 31, 1, 0⟩
/-- R175 WRP-8, RO: 1: acquisition gains in use -/
def CHN_MC_STATUS_ACQ (s : Nat) : Field := ⟨0x40a00314 + 0x10000 * s, 30, 1, 0⟩
/-- R175 WRP-8, RO: Last valid e, signed, in 1/64 cell, saturated to −128 to 127 -/
def CHN_MC_STATUS_ERR (s : Nat) : Field := ⟨0x40a00314 + 0x10000 * s, 8, 8, 0⟩
/-- R175 WRP-9, RO: Integer part of N0 × (1 + T / 2^24) -/
def CHN_MC_RATIO_INT (s : Nat) : Field := ⟨0x40a00318 + 0x10000 * s, 23, 9, 0⟩
/-- R175 WRP-9, RO: Fractional part, in 2^−23 -/
def CHN_MC_RATIO_FRAC (s : Nat) : Field := ⟨0x40a00318 + 0x10000 * s, 0, 23, 0⟩
/-- R175 WRP-10, RO: T, signed, −335,544 to 335,544 -/
def CHN_MC_TRIM_TRIM (s : Nat) : Field := ⟨0x40a0031c + 0x10000 * s, 0, 32, 0⟩
/-- R175 WRP-11, RW: Write-clock shift for head h, signed, −32 to 31, in 1/64 cell -/
def CHN_WR_PHASE_SHIFT (s : Nat) (h : Nat) : Field := ⟨0x40a00340 + 0x10000 * s + 0x4 * h, 0, 6, 0⟩
/-- R175 WRP-12, W1C: 1: a write was rejected; clearing ERR also clears CODE -/
def CHN_WR_CFG_STATUS_ERR (s : Nat) : Field := ⟨0x40a0033c + 0x10000 * s, 31, 1, 0⟩
/-- R175 WRP-12, RO: 0x00 none; 0x01 zero count; 0x02 value outside its range; 0x03 LOCK_TOL not below UNLOCK_TOL; 0x04 CHN_PA_CMD written while BUSY -/
def CHN_WR_CFG_STATUS_CODE (s : Nat) : Field := ⟨0x40a0033c + 0x10000 * s, 0, 8, 0⟩
/-- R175 WRP-13, RC: Sectors written (R166) -/
def CHN_WR_SECTORS_COUNT (s : Nat) : Field := ⟨0x40a00320 + 0x10000 * s, 0, 32, 0⟩
/-- R175 WRP-14, RC: Sectors aborted by a drop -/
def CHN_WR_ABORTED_COUNT (s : Nat) : Field := ⟨0x40a00324 + 0x10000 * s, 0, 32, 0⟩
/-- R175 WRP-15, RC: Sectors not written for a late codeword -/
def CHN_WR_UNDERRUN_COUNT (s : Nat) : Field := ⟨0x40a00328 + 0x10000 * s, 0, 32, 0⟩
/-- R175 WRP-16, RC: Losses of lock -/
def CHN_MC_UNLOCKS_COUNT (s : Nat) : Field := ⟨0x40a0032c + 0x10000 * s, 0, 32, 0⟩
/-- R175 WRP-17, RC: Invalid clock fields -/
def CHN_MC_COAST_COUNT (s : Nat) : Field := ⟨0x40a00330 + 0x10000 * s, 0, 32, 0⟩
/-- R175 WRP-18, RW: SCLK: 0 12.5 MHz, 1 25 MHz, 2 50 MHz; 3 is rejected -/
def CHN_PA_CTL_RATE (a : Nat) : Field := ⟨0x40a00400 + 0x40000 * a, 0, 2, 1⟩
/-- R175 WRP-19, WO: 1: read frame -/
def CHN_PA_CMD_READ (a : Nat) : Field := ⟨0x40a00404 + 0x40000 * a, 23, 1, 0⟩
/-- R175 WRP-19, WO: Preamp register address -/
def CHN_PA_CMD_ADDR (a : Nat) : Field := ⟨0x40a00404 + 0x40000 * a, 16, 7, 0⟩
/-- R175 WRP-19, WO: Data of a write frame -/
def CHN_PA_CMD_DATA (a : Nat) : Field := ⟨0x40a00404 + 0x40000 * a, 0, 16, 0⟩
/-- R175 WRP-20, RO: Data of the last firmware read frame -/
def CHN_PA_RDATA_DATA (a : Nat) : Field := ⟨0x40a00408 + 0x40000 * a, 0, 16, 0⟩
/-- R175 WRP-21, RO: 1: a firmware frame is queued or in progress -/
def CHN_PA_STATUS_BUSY (a : Nat) : Field := ⟨0x40a0040c + 0x40000 * a, 31, 1, 0⟩
/-- R175 WRP-21, W1C: 1: a member-start read-back differed (R172) -/
def CHN_PA_STATUS_VERIFY_ERR (a : Nat) : Field := ⟨0x40a0040c + 0x40000 * a, 1, 1, 0⟩
/-- R175 WRP-21, W1C: 1: preamp fault declared (R173); a clear while SDIO is still low is ignored -/
def CHN_PA_STATUS_FAULT (a : Nat) : Field := ⟨0x40a0040c + 0x40000 * a, 0, 1, 0⟩
/-- R175 WRP-22, RW: Bits 0 to 4: SNS_SHKX, SNS_SHKY, SNS_SHKZ, SNS_RV0, SNS_RV1 used for SHOCK -/
def CHN_SHK_CTL_EN : Field := ⟨0x40a00500, 24, 5, 0⟩
/-- R175 WRP-22, RW: Threshold for SNS_RV0 and SNS_RV1, 1 to 2,047 codes -/
def CHN_SHK_CTL_RV_THR : Field := ⟨0x40a00500, 12, 12, 1024⟩
/-- R175 WRP-22, RW: Threshold for the shock axes, 1 to 2,047 codes -/
def CHN_SHK_CTL_SHK_THR : Field := ⟨0x40a00500, 0, 12, 512⟩
/-- R175 WRP-23, W1C: Bit i: input i of EN has exceeded its threshold -/
def CHN_SHK_STATUS_TRIP : Field := ⟨0x40a00504, 0, 5, 0⟩
/-- R205 TAB-8, WO: 0x5A5A in the same write as RESET -/
def FMT_CTL_KEY (a : Nat) : Field := ⟨0x40c00000 + 0x40000 * a, 16, 16, 0⟩
/-- R205 TAB-8, WO: 1: formatter reset (R203) -/
def FMT_CTL_RESET (a : Nat) : Field := ⟨0x40c00000 + 0x40000 * a, 15, 1, 0⟩
/-- R205 TAB-8, RW: 1: threads step (R199) -/
def FMT_CTL_RUN (a : Nat) : Field := ⟨0x40c00000 + 0x40000 * a, 14, 1, 0⟩
/-- R205 TAB-8, RW: Revolutions allowed for limited revisits, 1 to 15; a count -/
def FMT_CTL_REVISIT (a : Nat) : Field := ⟨0x40c00000 + 0x40000 * a, 8, 4, 3⟩
/-- R205 TAB-8, RW: Lead in units of 128 cells, 2 to 128; a count -/
def FMT_CTL_LEAD (a : Nat) : Field := ⟨0x40c00000 + 0x40000 * a, 0, 8, 32⟩
/-- R205 TAB-9, RO: 1: no thread is stepping -/
def FMT_STATUS_HALTED (a : Nat) : Field := ⟨0x40c00004 + 0x40000 * a, 31, 1, 1⟩
/-- R205 TAB-9, RO: 1: FMT_MCHK holds a machine check -/
def FMT_STATUS_MCHK (a : Nat) : Field := ⟨0x40c00004 + 0x40000 * a, 30, 1, 0⟩
/-- R205 TAB-9, RO: Bit j: slot j has a started member -/
def FMT_STATUS_MEMBER (a : Nat) : Field := ⟨0x40c00004 + 0x40000 * a, 20, 4, 0⟩
/-- R205 TAB-9, RO: Bit j: slot j has a run in progress -/
def FMT_STATUS_BUSY (a : Nat) : Field := ⟨0x40c00004 + 0x40000 * a, 16, 4, 0⟩
/-- R205 TAB-10, RO: 1: latched; cleared only by formatter reset -/
def FMT_MCHK_VALID (a : Nat) : Field := ⟨0x40c00008 + 0x40000 * a, 31, 1, 0⟩
/-- R205 TAB-10, RO: Table TAB-12 -/
def FMT_MCHK_CAUSE (a : Nat) : Field := ⟨0x40c00008 + 0x40000 * a, 28, 3, 0⟩
/-- R205 TAB-10, RO: Thread that fetched the word; 0 for sweep causes -/
def FMT_MCHK_THREAD (a : Nat) : Field := ⟨0x40c00008 + 0x40000 * a, 26, 2, 0⟩
/-- R205 TAB-10, RO: 0: ROM; 1: patch RAM -/
def FMT_MCHK_SPACE (a : Nat) : Field := ⟨0x40c00008 + 0x40000 * a, 25, 1, 0⟩
/-- R205 TAB-10, RO: Word address; 0 for a sweep CRC mismatch -/
def FMT_MCHK_ADDR (a : Nat) : Field := ⟨0x40c00008 + 0x40000 * a, 0, 13, 0⟩
/-- R205 TAB-11, W1C: 1: a write was rejected; clearing ERR also clears CODE -/
def FMT_CFG_STATUS_ERR (a : Nat) : Field := ⟨0x40c0000c + 0x40000 * a, 31, 1, 0⟩
/-- R205 TAB-11, RO. -/
def FMT_CFG_STATUS_CODE (a : Nat) : Field := ⟨0x40c0000c + 0x40000 * a, 0, 8, 0⟩
/-- R205 TAB-13, RO: 1: the commit waits at the barrier (R195) -/
def FMT_COURSE_CTL_PENDING (a : Nat) : Field := ⟨0x40c00010 + 0x40000 * a, 31, 1, 0⟩
/-- R205 TAB-13, WO: 1: check and commit the staged course -/
def FMT_COURSE_CTL_COMMIT (a : Nat) : Field := ⟨0x40c00010 + 0x40000 * a, 0, 1, 0⟩
/-- R205 TAB-14, RWC: 1: slot j has a member in the course -/
def FMT_MEMBER_VALID (a : Nat) (j : Nat) : Field := ⟨0x40c00020 + 0x40000 * a + 0x4 * j, 31, 1, 0⟩
/-- R205 TAB-14, RWC: Initial FW level and preamp mode at member start -/
def FMT_MEMBER_WRITE (a : Nat) (j : Nat) : Field := ⟨0x40c00020 + 0x40000 * a + 0x4 * j, 30, 1, 0⟩
/-- R205 TAB-14, RWC: Head 0 to 11 -/
def FMT_MEMBER_HEAD (a : Nat) (j : Nat) : Field := ⟨0x40c00020 + 0x40000 * a + 0x4 * j, 24, 4, 0⟩
/-- R205 TAB-14, RWC: Member track -/
def FMT_MEMBER_TRACK (a : Nat) (j : Nat) : Field := ⟨0x40c00020 + 0x40000 * a + 0x4 * j, 0, 24, 0⟩
/-- R205 TAB-23, RWC: Bits [31:0] of the course's actuator position X, in position units of 1/4,096 track (R84) -/
def FMT_COURSE_X_LO_X (a : Nat) : Field := ⟨0x40c00014 + 0x40000 * a, 0, 32, 0⟩
/-- R205 TAB-23, RWC: Bits [35:32] of X -/
def FMT_COURSE_X_HI_X (a : Nat) : Field := ⟨0x40c00018 + 0x40000 * a, 0, 4, 0⟩
/-- R205 TAB-15, RW: 0: read; 1: write -/
def FMT_RUN_D0_DIR (a : Nat) : Field := ⟨0x40c00040 + 0x40000 * a, 31, 1, 0⟩
/-- R205 TAB-15, RW: Local slot index j -/
def FMT_RUN_D0_SLOT (a : Nat) : Field := ⟨0x40c00040 + 0x40000 * a, 28, 2, 0⟩
/-- R205 TAB-15, RW: Sectors, 1 to 2,048; a count -/
def FMT_RUN_D0_COUNT (a : Nat) : Field := ⟨0x40c00040 + 0x40000 * a, 16, 12, 0⟩
/-- R205 TAB-15, RW: First physical sector index -/
def FMT_RUN_D0_FIRST_PSI (a : Nat) : Field := ⟨0x40c00040 + 0x40000 * a, 0, 16, 0⟩
/-- R205 TAB-16, RW: Bits [33:3] of the list address -/
def FMT_RUN_D1_LIST (a : Nat) : Field := ⟨0x40c00044 + 0x40000 * a, 0, 31, 0⟩
/-- R205 TAB-17, WO: Run tag; the write pushes the run (R189) -/
def FMT_RUN_D2_TAG (a : Nat) : Field := ⟨0x40c00048 + 0x40000 * a, 0, 16, 0⟩
/-- R205 TAB-18, RC: 1: an entry is returned; the read removes it -/
def FMT_DONE_VALID (a : Nat) : Field := ⟨0x40c00050 + 0x40000 * a, 31, 1, 0⟩
/-- R205 TAB-18, RC: 0: all sectors STATUS 0x1; 1: otherwise -/
def FMT_DONE_RESULT (a : Nat) : Field := ⟨0x40c00050 + 0x40000 * a, 24, 1, 0⟩
/-- R205 TAB-18, RC: Local slot index -/
def FMT_DONE_SLOT (a : Nat) : Field := ⟨0x40c00050 + 0x40000 * a, 16, 2, 0⟩
/-- R205 TAB-18, RC: Run tag -/
def FMT_DONE_TAG (a : Nat) : Field := ⟨0x40c00050 + 0x40000 * a, 0, 16, 0⟩
/-- R205 TAB-19, RO: Reference CRC-32 of the ROM for this stepping -/
def FMT_ROM_CRC_CRC (a : Nat) : Field := ⟨0x40c00060 + 0x40000 * a, 0, 32, 0⟩
/-- R205 TAB-19, RC: Sweep passes completed -/
def FMT_SWEEP_PASSES_COUNT (a : Nat) : Field := ⟨0x40c00064 + 0x40000 * a, 0, 32, 0⟩
/-- R205 TAB-19, RC: Revisits of all causes (R192) -/
def FMT_MISSED_COUNT (a : Nat) : Field := ⟨0x40c00068 + 0x40000 * a, 0, 32, 0⟩
/-- R205 TAB-20, RO: Next 32-bit part of the word, 0 to 3; a write of WORD sets it to 0 -/
def FMT_CAPO_ADDR_PART (a : Nat) : Field := ⟨0x40c00080 + 0x40000 * a, 8, 2, 0⟩
/-- R205 TAB-20, RW: Patch word addressed -/
def FMT_CAPO_ADDR_WORD (a : Nat) : Field := ⟨0x40c00080 + 0x40000 * a, 0, 8, 0⟩
/-- R205 TAB-20, RW: Part PART of word WORD. After part 3, WORD advances by 1, wrapping from 255 to 0. -/
def FMT_CAPO_DATA_DATA (a : Nat) : Field := ⟨0x40c00084 + 0x40000 * a, 0, 32, 0⟩
/-- R205 TAB-20, WO: Expected CRC; the write starts verification (R198) -/
def FMT_CAPO_VERIFY_EXPECT (a : Nat) : Field := ⟨0x40c00088 + 0x40000 * a, 0, 32, 0⟩
/-- R205 TAB-21, RO: 1: the patch set is verified -/
def FMT_CAPO_STATUS_OK (a : Nat) : Field := ⟨0x40c0008c + 0x40000 * a, 31, 1, 0⟩
/-- R205 TAB-21, RO: 1: verification running -/
def FMT_CAPO_STATUS_BUSY (a : Nat) : Field := ⟨0x40c0008c + 0x40000 * a, 30, 1, 0⟩
/-- R205 TAB-21, RO: 0 none; 1 to 4 as listed above -/
def FMT_CAPO_STATUS_FAIL (a : Nat) : Field := ⟨0x40c0008c + 0x40000 * a, 24, 3, 0⟩
/-- R205 TAB-21, RO: Word 0 to 255, or 256 + n for match register n; 0 for a CRC mismatch -/
def FMT_CAPO_STATUS_WHERE (a : Nat) : Field := ⟨0x40c0008c + 0x40000 * a, 0, 9, 0⟩
/-- R205 TAB-22, RW: 1: redirection active -/
def FMT_CAPO_MATCH_EN (a : Nat) (n : Nat) : Field := ⟨0x40c00100 + 0x40000 * a + 0x4 * n, 31, 1, 0⟩
/-- R205 TAB-22, RW: ROM address redirected -/
def FMT_CAPO_MATCH_ROM_ADDR (a : Nat) (n : Nat) : Field := ⟨0x40c00100 + 0x40000 * a + 0x4 * n, 8, 13, 0⟩
/-- R205 TAB-22, RW: Patch word fetched instead -/
def FMT_CAPO_MATCH_PATCH_ADDR (a : Nat) (n : Nat) : Field := ⟨0x40c00100 + 0x40000 * a + 0x4 * n, 0, 8, 0⟩
/-- R224 SRV-6, RW: Prediction tolerance, 1 to 4,095 tracks; a count -/
def SRV_CTL_TID_TOL (a : Nat) : Field := ⟨0x40d00000 + 0x10000 * a, 20, 12, 64⟩
/-- R224 SRV-6, RW: Missed SAMs that end TRACK, 1 to 15; a count -/
def SRV_CTL_LOST_CNT (a : Nat) : Field := ⟨0x40d00000 + 0x10000 * a, 16, 4, 4⟩
/-- R224 SRV-6, RW: VERIFY window, ±8 to ±128 SC -/
def SRV_CTL_SAM_WIN_ACQ (a : Nat) : Field := ⟨0x40d00000 + 0x10000 * a, 8, 8, 64⟩
/-- R224 SRV-6, RW: TRACK window, ±2 to ±64 SC -/
def SRV_CTL_SAM_WIN (a : Nat) : Field := ⟨0x40d00000 + 0x10000 * a, 0, 8, 8⟩
/-- R224 SRV-7, RO: 1: TRACK sources of both surface parities -/
def SRV_STATUS_STAGGER (a : Nat) : Field := ⟨0x40d00004 + 0x10000 * a, 16, 1, 0⟩
/-- R224 SRV-7, W1C: Bit j: source j fell from TRACK to SEARCH -/
def SRV_STATUS_LOST (a : Nat) : Field := ⟨0x40d00004 + 0x10000 * a, 8, 4, 0⟩
/-- R224 SRV-7, RO: Bits [2j+1:2j], for source j: 0 OFF, 1 SEARCH, 2 VERIFY, 3 TRACK -/
def SRV_STATUS_STATE (a : Nat) : Field := ⟨0x40d00004 + 0x10000 * a, 0, 8, 0⟩
/-- R224 SRV-8, W1C: 1: a write was rejected; clearing ERR also clears CODE -/
def SRV_CFG_STATUS_ERR (a : Nat) : Field := ⟨0x40d00008 + 0x10000 * a, 31, 1, 0⟩
/-- R224 SRV-8, RO: 0x00 none; 0x01 zero count; 0x02 value outside its range; 0x04 head named twice; 0x05 E1 domain off -/
def SRV_CFG_STATUS_CODE (a : Nat) : Field := ⟨0x40d00008 + 0x10000 * a, 0, 8, 0⟩
/-- R224 SRV-9, RW: Servo amplitude target, 24 to 56 LSB -/
def SRV_SCTL_S_TARGET (a : Nat) : Field := ⟨0x40d0000c + 0x10000 * a, 8, 6, 40⟩
/-- R224 SRV-9, RW: SAM distance limit, 0 to 3 -/
def SRV_SCTL_SAM_THR (a : Nat) : Field := ⟨0x40d0000c + 0x10000 * a, 0, 2, 1⟩
/-- R224 SRV-10, RW: 1: servo-only source when slot j has no started member (R210) -/
def SRV_SRC_EN (a : Nat) (j : Nat) : Field := ⟨0x40d00010 + 0x10000 * a + 0x4 * j, 31, 1, 0⟩
/-- R224 SRV-10, RW: Head 0 to 11 -/
def SRV_SRC_HEAD (a : Nat) (j : Nat) : Field := ⟨0x40d00010 + 0x10000 * a + 0x4 * j, 16, 4, 0⟩
/-- R224 SRV-10, RW: Preamp heater code for the servo-only member -/
def SRV_SRC_HEATER (a : Nat) (j : Nat) : Field := ⟨0x40d00010 + 0x10000 * a + 0x4 * j, 0, 8, 0⟩
/-- R224 SRV-11, RW: Servo gain code of head h (R213) -/
def SRV_SGAIN_GAIN (a : Nat) (h : Nat) : Field := ⟨0x40d00040 + 0x10000 * a + 0x4 * h, 0, 8, 128⟩
/-- R224 SRV-12, RO: Bit 26 + i: flag i of Table SRV-3 -/
def SRV_POS_LO_FLAGS (a : Nat) (j : Nat) : Field := ⟨0x40d00080 + 0x10000 * a + 0x8 * j, 26, 6, 0⟩
/-- R224 SRV-12, RO: Track of the sample (R216) -/
def SRV_POS_LO_TRACK (a : Nat) (j : Nat) : Field := ⟨0x40d00080 + 0x10000 * a + 0x8 * j, 0, 24, 0⟩
/-- R224 SRV-13, RO: 1: no flag set -/
def SRV_POS_HI_VALID (a : Nat) (j : Nat) : Field := ⟨0x40d00084 + 0x10000 * a + 0x8 * j, 31, 1, 0⟩
/-- R224 SRV-13, RO: 0: AB used; 1: CD used -/
def SRV_POS_HI_PAIR (a : Nat) (j : Nat) : Field := ⟨0x40d00084 + 0x10000 * a + 0x8 * j, 30, 1, 0⟩
/-- R224 SRV-13, RO: Wedge number -/
def SRV_POS_HI_WEDGE (a : Nat) (j : Nat) : Field := ⟨0x40d00084 + 0x10000 * a + 0x8 * j, 21, 9, 0⟩
/-- R224 SRV-13, RO: Head -/
def SRV_POS_HI_HEAD (a : Nat) (j : Nat) : Field := ⟨0x40d00084 + 0x10000 * a + 0x8 * j, 17, 4, 0⟩
/-- R224 SRV-13, RO: Offset from TRACK, signed, −2,048 to 2,047, in 1/4,096 track -/
def SRV_POS_HI_OFFSET (a : Nat) (j : Nat) : Field := ⟨0x40d00084 + 0x10000 * a + 0x8 * j, 0, 12, 0⟩
/-- R224 SRV-14, RC: Valid samples -/
def SRV_VALID_COUNT (a : Nat) : Field := ⟨0x40d000c0 + 0x10000 * a, 0, 32, 0⟩
/-- R224 SRV-14, RC: Samples with flag SAM -/
def SRV_SAM_MISS_COUNT (a : Nat) : Field := ⟨0x40d000c4 + 0x10000 * a, 0, 32, 0⟩
/-- R224 SRV-14, RC: Samples with flag TID -/
def SRV_TID_ERR_COUNT (a : Nat) : Field := ⟨0x40d000c8 + 0x10000 * a, 0, 32, 0⟩
/-- R224 SRV-14, RC: Samples with flag CHEV -/
def SRV_CHEV_ERR_COUNT (a : Nat) : Field := ⟨0x40d000cc + 0x10000 * a, 0, 32, 0⟩
/-- R224 SRV-14, RC: Clock fields flagged invalid (R220) -/
def SRV_CLK_ERR_COUNT (a : Nat) : Field := ⟨0x40d000d0 + 0x10000 * a, 0, 32, 0⟩
/-- R224 SRV-15, RW: Bit i: wedge 32n + i of head h is marked bad -/
def SRV_BADW_BAD (a : Nat) (h : Nat) (n : Nat) : Field := ⟨0x40d01000 + 0x10000 * a + 0x40 * h + 0x4 * n, 0, 32, 0⟩
/-- R224 SRV-16, RO: 1: a reference head exists (R221) -/
def SRV_REF_STATUS_VALID : Field := ⟨0x40d40000, 31, 1, 0⟩
/-- R224 SRV-16, RO: 1: REV_TICKS is less than 16 revolutions old -/
def SRV_REF_STATUS_REV_OK : Field := ⟨0x40d40000, 30, 1, 0⟩
/-- R224 SRV-16, RO: Reference head of A0 -/
def SRV_REF_STATUS_HEAD : Field := ⟨0x40d40000, 16, 4, 0⟩
/-- R224 SRV-16, RO: Revolutions since REV_TICKS was last updated; stops at 0xFFFF -/
def SRV_REF_STATUS_REV_AGE : Field := ⟨0x40d40000, 0, 16, 0⟩
/-- R224 SRV-17, RO: Latest wedge interval in 25 MHz ticks, unsigned Q24.8; 104,167 at 7,200 rpm -/
def SRV_WEDGE_TICKS_TICKS : Field := ⟨0x40d40004, 0, 32, 0⟩
/-- R224 SRV-18, RO: Revolution period in 25 MHz ticks, unsigned Q24.8; 53,333,333 at 7,200 rpm -/
def SRV_REV_TICKS_TICKS : Field := ⟨0x40d40008, 0, 32, 0⟩
/-- R254 CTL-7, WO: 0x5A5A in the same write as RESET -/
def CTL_LANE_CTL_KEY (a : Nat) : Field := ⟨0x40d80000 + 0x10000 * a, 16, 16, 0⟩
/-- R254 CTL-7, WO: 1: lane reset (R252) -/
def CTL_LANE_CTL_RESET (a : Nat) : Field := ⟨0x40d80000 + 0x10000 * a, 15, 1, 0⟩
/-- R254 CTL-7, RW. -/
def CTL_LANE_CTL_ON (a : Nat) : Field := ⟨0x40d80000 + 0x10000 * a, 0, 1, 0⟩
/-- R254 CTL-8, RO: 1: compare fault; cleared by lane reset -/
def CTL_LANE_STATUS_CMP (a : Nat) : Field := ⟨0x40d80004 + 0x10000 * a, 31, 1, 0⟩
/-- R254 CTL-8, RO: 0 output message; 1 filter state or learner write-back; 2 coefficient store; 3 reserved -/
def CTL_LANE_STATUS_CMP_SRC (a : Nat) : Field := ⟨0x40d80004 + 0x10000 * a, 29, 2, 0⟩
/-- R254 CTL-8, W1C: 1: a group ran at a rate other than the active bank's STAGGERED declares -/
def CTL_LANE_STATUS_RATE_ERR (a : Nat) : Field := ⟨0x40d80004 + 0x10000 * a, 27, 1, 0⟩
/-- R254 CTL-8, W1C: 1: following-error fault (R248) -/
def CTL_LANE_STATUS_FE (a : Nat) : Field := ⟨0x40d80004 + 0x10000 * a, 26, 1, 0⟩
/-- R254 CTL-8, RO: 1: the PES source is raised (R249) -/
def CTL_LANE_STATUS_WU (a : Nat) : Field := ⟨0x40d80004 + 0x10000 * a, 25, 1, 0⟩
/-- R254 CTL-8, RO: Active bank: 0 A, 1 B -/
def CTL_LANE_STATUS_BANK (a : Nat) : Field := ⟨0x40d80004 + 0x10000 * a, 24, 1, 0⟩
/-- R254 CTL-8, RO: Bit j: source j belongs to the expected set of its parity -/
def CTL_LANE_STATUS_ACTIVE (a : Nat) : Field := ⟨0x40d80004 + 0x10000 * a, 16, 4, 0⟩
/-- R254 CTL-8, RO: 0 OFF; 1 SEEK; 2 SETTLE; 3 TRACK; 4 LOST; 5 FAULT -/
def CTL_LANE_STATUS_PHASE (a : Nat) : Field := ⟨0x40d80004 + 0x10000 * a, 0, 3, 0⟩
/-- R254 CTL-9, W1C: 1: a write was rejected; clearing ERR also clears CODE -/
def CTL_CFG_STATUS_ERR (a : Nat) : Field := ⟨0x40d80008 + 0x10000 * a, 31, 1, 0⟩
/-- R254 CTL-9, RO. -/
def CTL_CFG_STATUS_CODE (a : Nat) : Field := ⟨0x40d80008 + 0x10000 * a, 0, 8, 0⟩
/-- R254 CTL-10, RO: 1: a switch waits for the next boundary -/
def CTL_BANK_SEL_PENDING (a : Nat) : Field := ⟨0x40d8000c + 0x10000 * a, 31, 1, 0⟩
/-- R254 CTL-10, WO: 1: zero states at the switch (R241) -/
def CTL_BANK_SEL_STATE_CLR (a : Nat) : Field := ⟨0x40d8000c + 0x10000 * a, 1, 1, 0⟩
/-- R254 CTL-10, RW: Bank to make active; a write requests the switch -/
def CTL_BANK_SEL_BANK (a : Nat) : Field := ⟨0x40d8000c + 0x10000 * a, 0, 1, 0⟩
/-- R254 CTL-11, RW: Following-error limit, 1 to 1,048,575 units -/
def CTL_FE_LIMIT_LIMIT (a : Nat) : Field := ⟨0x40d80010 + 0x10000 * a, 0, 20, 2048⟩
/-- R254 CTL-11, RW: Groups, 1 to 65,535; a count -/
def CTL_FE_TIMER_TIMER (a : Nat) : Field := ⟨0x40d80014 + 0x10000 * a, 0, 16, 8⟩
/-- R254 CTL-11, RW: Invalid samples or empty groups, 1 to 15; a count -/
def CTL_WU_INV_MAX (a : Nat) : Field := ⟨0x40d80018 + 0x10000 * a, 24, 4, 4⟩
/-- R254 CTL-11, RW: Clean groups that clear PES, 1 to 15; a count -/
def CTL_WU_CLR (a : Nat) : Field := ⟨0x40d80018 + 0x10000 * a, 16, 4, 3⟩
/-- R254 CTL-11, RW: Write-unsafe threshold, 1 to 4,095 units -/
def CTL_WU_THR (a : Nat) : Field := ⟨0x40d80018 + 0x10000 * a, 0, 12, 410⟩
/-- R254 CTL-11, RW: VCM command limit, 1 to 32,767 codes -/
def CTL_LIMITS_VCM_LIM (a : Nat) : Field := ⟨0x40d8001c + 0x10000 * a, 16, 16, 32767⟩
/-- R254 CTL-11, RW: Micro command limit, 1 to 32,767 codes -/
def CTL_LIMITS_MA_LIM (a : Nat) : Field := ⟨0x40d8001c + 0x10000 * a, 0, 16, 32767⟩
/-- R254 CTL-12, RW: Bits [31:0] of X_target, in units -/
def CTL_SEEK_TGT_LO_X_LO (a : Nat) : Field := ⟨0x40d80020 + 0x10000 * a, 0, 32, 0⟩
/-- R254 CTL-12, RW: Bits [35:32] of X_target -/
def CTL_SEEK_TGT_HI_X_HI (a : Nat) : Field := ⟨0x40d80024 + 0x10000 * a, 0, 4, 0⟩
/-- R254 CTL-12, RW: Units per group, 1 to 16,777,215 -/
def CTL_SEEK_VMAX_VMAX (a : Nat) : Field := ⟨0x40d80028 + 0x10000 * a, 0, 24, 409600⟩
/-- R254 CTL-12, RW: Units per group², 1 to 65,535 -/
def CTL_SEEK_ACC_DMAX (a : Nat) : Field := ⟨0x40d8002c + 0x10000 * a, 16, 16, 4096⟩
/-- R254 CTL-12, RW: Units per group², 1 to 65,535 -/
def CTL_SEEK_ACC_AMAX (a : Nat) : Field := ⟨0x40d8002c + 0x10000 * a, 0, 16, 4096⟩
/-- R254 CTL-12, WO: 1: seek to the target (Table CTL-3) -/
def CTL_SEEK_GO_GO (a : Nat) : Field := ⟨0x40d80030 + 0x10000 * a, 0, 1, 0⟩
/-- R254 CTL-12, RW: Settle window, 1 to 4,095 units -/
def CTL_SETTLE_WIN (a : Nat) : Field := ⟨0x40d80034 + 0x10000 * a, 16, 12, 205⟩
/-- R254 CTL-12, RW: Groups, 1 to 255; a count -/
def CTL_SETTLE_CNT (a : Nat) : Field := ⟨0x40d80034 + 0x10000 * a, 0, 8, 8⟩
/-- R254 CTL-13, RW: Reference track of a servo-only source -/
def CTL_SREF_TRACK (a : Nat) (j : Nat) : Field := ⟨0x40d80040 + 0x10000 * a + 0x4 * j, 0, 24, 0⟩
/-- R254 CTL-13, RW: off_h of a servo-only source, signed, in units -/
def CTL_SOFF_OFF (a : Nat) (j : Nat) : Field := ⟨0x40d80050 + 0x10000 * a + 0x4 * j, 0, 32, 0⟩
/-- R254 CTL-13, RW: Read or write offset of head h, signed, in units -/
def CTL_HOFS_HOFS (a : Nat) (h : Nat) : Field := ⟨0x40d80060 + 0x10000 * a + 0x4 * h, 0, 16, 0⟩
/-- R254 CTL-13, RW: Update gain, 0 to 65,535, in 2^−16 -/
def CTL_LRN_CTL_GAIN (a : Nat) : Field := ⟨0x40d800a0 + 0x10000 * a, 16, 16, 0⟩
/-- R254 CTL-13, RW: Leakage shift, 0 (none) to 15 -/
def CTL_LRN_CTL_LEAK (a : Nat) : Field := ⟨0x40d800a0 + 0x10000 * a, 12, 4, 0⟩
/-- R254 CTL-13, RW: Phase lead, 0 to 31 wedges -/
def CTL_LRN_CTL_LEAD_W (a : Nat) : Field := ⟨0x40d800a0 + 0x10000 * a, 4, 5, 4⟩
/-- R254 CTL-13, RW: 1: L1 subtracted from e_h -/
def CTL_LRN_CTL_APPLY1 (a : Nat) : Field := ⟨0x40d800a0 + 0x10000 * a, 3, 1, 0⟩
/-- R254 CTL-13, RW: 1: L0 added to the micro command -/
def CTL_LRN_CTL_APPLY0 (a : Nat) : Field := ⟨0x40d800a0 + 0x10000 * a, 2, 1, 0⟩
/-- R254 CTL-13, RW: 0 none; 1 L0 learns; 2 L1 learns; 3 rejected -/
def CTL_LRN_CTL_LEARN (a : Nat) : Field := ⟨0x40d800a0 + 0x10000 * a, 0, 2, 0⟩
/-- R254 CTL-13, RW: Bit h: head h learns -/
def CTL_LRN_HEADS_MASK (a : Nat) : Field := ⟨0x40d800a4 + 0x10000 * a, 0, 12, 0⟩
/-- R254 CTL-13, RW: Head 0 to 11; 12 to 15 rejected with code 0x03 -/
def CTL_LRN_ADDR_HEAD (a : Nat) : Field := ⟨0x40d800a8 + 0x10000 * a, 9, 4, 0⟩
/-- R254 CTL-13, RW: Wedge; advances by 1 after each CTL_LRN_DATA access, carrying into HEAD and wrapping from head 11, wedge 511, to 0 -/
def CTL_LRN_ADDR_WEDGE (a : Nat) : Field := ⟨0x40d800a8 + 0x10000 * a, 0, 9, 0⟩
/-- R254 CTL-13, RW: Signed, in units -/
def CTL_LRN_DATA_L1 (a : Nat) : Field := ⟨0x40d800ac + 0x10000 * a, 16, 16, 0⟩
/-- R254 CTL-13, RW: Signed, in units -/
def CTL_LRN_DATA_L0 (a : Nat) : Field := ⟨0x40d800ac + 0x10000 * a, 0, 16, 0⟩
/-- R254 CTL-13, W1C: 1: an uncorrectable word was read (R243) -/
def CTL_LRN_ERR_UE (a : Nat) : Field := ⟨0x40d800b0 + 0x10000 * a, 31, 1, 0⟩
/-- R254 CTL-13, W1C: 1: a corrected error occurred -/
def CTL_LRN_ERR_CE (a : Nat) : Field := ⟨0x40d800b0 + 0x10000 * a, 30, 1, 0⟩
/-- R254 CTL-13, RO: HEAD and WEDGE of the first uncorrectable word -/
def CTL_LRN_ERR_ADDR (a : Nat) : Field := ⟨0x40d800b0 + 0x10000 * a, 0, 13, 0⟩
/-- R254 CTL-13, RO: Last e_v, signed, saturated to 32 bits -/
def CTL_EV_EV (a : Nat) : Field := ⟨0x40d800c0 + 0x10000 * a, 0, 32, 0⟩
/-- R254 CTL-13, RO: 1: the last sample of source j was valid -/
def CTL_EH_VALID (a : Nat) (j : Nat) : Field := ⟨0x40d800d0 + 0x10000 * a + 0x4 * j, 31, 1, 0⟩
/-- R254 CTL-13, RO: Last e_h of source j, signed, saturated to 24 bits -/
def CTL_EH_EH (a : Nat) (j : Nat) : Field := ⟨0x40d800d0 + 0x10000 * a + 0x4 * j, 0, 24, 0⟩
/-- R254 CTL-14, RC: Groups closed -/
def CTL_GROUPS_COUNT (a : Nat) : Field := ⟨0x40d80100 + 0x10000 * a, 0, 32, 0⟩
/-- R254 CTL-14, RC: Invalid samples received -/
def CTL_INVALID_COUNT (a : Nat) : Field := ⟨0x40d80104 + 0x10000 * a, 0, 32, 0⟩
/-- R254 CTL-14, RC: State saturations (R238) and limiter hits -/
def CTL_SAT_COUNT (a : Nat) : Field := ⟨0x40d80108 + 0x10000 * a, 0, 32, 0⟩
/-- R254 CTL-14, RC: Rises of the PES source -/
def CTL_WU_CNT_COUNT (a : Nat) : Field := ⟨0x40d8010c + 0x10000 * a, 0, 32, 0⟩
/-- R254 CTL-14, RC: Following-error faults -/
def CTL_FE_CNT_COUNT (a : Nat) : Field := ⟨0x40d80110 + 0x10000 * a, 0, 32, 0⟩
/-- R280 SPN-8, RW: 0: steps 1 to 6; 1: steps 6 to 1. Change refused above 60 rpm (R266). -/
def MTR_SPN_CTL_DIR : Field := ⟨0x40e00000, 8, 1, 0⟩
/-- R280 SPN-8, RW: Table SPN-4 -/
def MTR_SPN_CTL_BRAKE_MODE : Field := ⟨0x40e00000, 4, 2, 1⟩
/-- R280 SPN-8, WO: 1 START, accepted in STOPPED or FAULT, otherwise code 0x03; 2 STOP; 0 none; 3 rejected with code 0x02 -/
def MTR_SPN_CTL_CMD : Field := ⟨0x40e00000, 0, 2, 0⟩
/-- R280 SPN-9, RO: Table SPN-2 -/
def MTR_SPN_STATUS_STATE : Field := ⟨0x40e00004, 28, 4, 0⟩
/-- R280 SPN-9, RO: R268 -/
def MTR_SPN_STATUS_AT_SPEED : Field := ⟨0x40e00004, 27, 1, 0⟩
/-- R280 SPN-9, RO: 0 zero crossings; 1 wedges -/
def MTR_SPN_STATUS_SRC : Field := ⟨0x40e00004, 26, 1, 0⟩
/-- R280 SPN-9, RO: FAULT cause: 0 none; 1 ZC_LOST; 2 TIMEOUT; 3 OVP; 4 HANDOVER -/
def MTR_SPN_STATUS_CAUSE : Field := ⟨0x40e00004, 20, 3, 0⟩
/-- R280 SPN-10, W1C: 1: a write was rejected; clearing ERR also clears CODE -/
def MTR_CFG_STATUS_ERR : Field := ⟨0x40e00008, 31, 1, 0⟩
/-- R280 SPN-10, RO. -/
def MTR_CFG_STATUS_CODE : Field := ⟨0x40e00008, 0, 8, 0⟩
/-- R280 SPN-11, RW: Target slew, 1 to 2,000 rpm/s; a count -/
def MTR_SPN_SET_SLEW : Field := ⟨0x40e0000c, 16, 16, 200⟩
/-- R280 SPN-11, RW: Set-point, 3,600 to 7,200 rpm -/
def MTR_SPN_SET_RPM : Field := ⟨0x40e0000c, 0, 13, 7200⟩
/-- R280 SPN-11, RO: 1: a measurement exists -/
def MTR_SPN_SPEED_VALID : Field := ⟨0x40e00010, 31, 1, 0⟩
/-- R280 SPN-11, RO: Measured direction, coded as DIR -/
def MTR_SPN_SPEED_DIR : Field := ⟨0x40e00010, 30, 1, 0⟩
/-- R280 SPN-11, RO: Speed, in 1/256 rpm -/
def MTR_SPN_SPEED_SPEED : Field := ⟨0x40e00010, 0, 21, 0⟩
/-- R280 SPN-12, RW: Align time, 10 to 255 ms; a count -/
def MTR_SPN_START_ALIGN_MS : Field := ⟨0x40e00014, 24, 8, 200⟩
/-- R280 SPN-12, RW: Align and ramp current, 1 to 255, in 31.25 mA -/
def MTR_SPN_START_ALIGN_I : Field := ⟨0x40e00014, 16, 8, 96⟩
/-- R280 SPN-12, RW: Ramp acceleration, 1 to 255, in 10 rpm/s -/
def MTR_SPN_START_RAMP_RATE : Field := ⟨0x40e00014, 8, 8, 60⟩
/-- R280 SPN-12, RW: Spin-up limit, 1 to 255 s; a count -/
def MTR_SPN_START_TIMEOUT_S : Field := ⟨0x40e00014, 0, 8, 30⟩
/-- R280 SPN-12, RW: Depth per rpm of error, in 2^−16 -/
def MTR_SPN_REG_KP : Field := ⟨0x40e00018, 16, 16, 2048⟩
/-- R280 SPN-12, RW: Depth per rpm of error per update, in 2^−24 -/
def MTR_SPN_REG_KI : Field := ⟨0x40e00018, 0, 16, 64⟩
/-- R280 SPN-12, RW: Depth cap, 10 to 94 % -/
def MTR_SPN_LIMIT_DEPTH_MAX : Field := ⟨0x40e0001c, 16, 7, 94⟩
/-- R280 SPN-12, RW: Phase current limit, 1 to 255, in 31.25 mA -/
def MTR_SPN_LIMIT_ILIM : Field := ⟨0x40e0001c, 8, 8, 160⟩
/-- R280 SPN-12, RW: Brake current, 1 to 255, in 31.25 mA -/
def MTR_SPN_LIMIT_BRK_I : Field := ⟨0x40e0001c, 0, 8, 96⟩
/-- R280 SPN-13, RO: 1: a start decision has been made since reset -/
def MTR_SENSE_DONE : Field := ⟨0x40e00020, 31, 1, 0⟩
/-- R280 SPN-13, RO: Sensed direction, coded as DIR -/
def MTR_SENSE_DIR : Field := ⟨0x40e00020, 30, 1, 0⟩
/-- R280 SPN-13, RO: R264: 0 at rest; 1 catch; 2 forward brake; 3 backward brake; 4 backward start -/
def MTR_SENSE_DECISION : Field := ⟨0x40e00020, 24, 3, 0⟩
/-- R280 SPN-13, RO: Sensed speed, in 1/256 rpm; 0 at rest -/
def MTR_SENSE_SPEED : Field := ⟨0x40e00020, 0, 21, 0⟩
/-- R280 SPN-14, RO: VIN, in mV -/
def MTR_VMOT_VIN : Field := ⟨0x40e00040, 16, 16, 0⟩
/-- R280 SPN-14, RO: VMOT, in mV -/
def MTR_VMOT_VMOT : Field := ⟨0x40e00040, 0, 16, 0⟩
/-- R280 SPN-14, W1C: Latched at 14.4 V; a clear with VMOT at or above 12.8 V is refused with code 0x05 -/
def MTR_LADDER_OVP : Field := ⟨0x40e00044, 31, 1, 0⟩
/-- R280 SPN-14, W1C: R272; a clear outside STOPPED is refused with code 0x05 -/
def MTR_LADDER_CHOP_FAULT : Field := ⟨0x40e00044, 30, 1, 0⟩
/-- R280 SPN-14, RO: 1 no current; 2 still rising; 3 reached 13.8 V; cleared with CHOP_FAULT -/
def MTR_LADDER_CF_CAUSE : Field := ⟨0x40e00044, 28, 2, 0⟩
/-- R280 SPN-14, RO: R257 -/
def MTR_LADDER_VIN_HIGH : Field := ⟨0x40e00044, 27, 1, 0⟩
/-- R280 SPN-14, RO: 1: short brake applied by the ladder -/
def MTR_LADDER_SHORT : Field := ⟨0x40e00044, 1, 1, 0⟩
/-- R280 SPN-14, RO: 1: chopper on -/
def MTR_LADDER_CHOP : Field := ⟨0x40e00044, 0, 1, 0⟩
/-- R280 SPN-15, RW: Bit a: VCM bridge of Aa on -/
def MTR_DRV_CTL_VCM_EN : Field := ⟨0x40e00060, 24, 4, 0⟩
/-- R280 SPN-15, RW: Bits [2a+1:2a]: FS_a, 0 for 0.5 A, 1 for 1.0 A, 2 for 2.0 A, 3 for 2.5 A -/
def MTR_DRV_CTL_FS : Field := ⟨0x40e00060, 0, 8, 0⟩
/-- R280 SPN-15, RW: Bit h: output Aa_MAhh follows commands -/
def MTR_MA_EN_EN (a : Nat) : Field := ⟨0x40e00070 + 0x4 * a, 0, 12, 0⟩
/-- R280 SPN-16, RW: Retract drive time, 20 to 120 ms; a count -/
def MTR_RET_CTL_RET_TIME : Field := ⟨0x40e00080, 24, 8, 100⟩
/-- R280 SPN-16, RW: Coil voltage, 1 to 200, in 50 mV -/
def MTR_RET_CTL_RET_V : Field := ⟨0x40e00080, 16, 8, 40⟩
/-- R280 SPN-16, RW: 1: ramp at the outer diameter; 0: inner -/
def MTR_RET_CTL_DIR_OD : Field := ⟨0x40e00080, 0, 1, 1⟩
/-- R280 SPN-16, WO: Bit a: retract Aa -/
def MTR_RET_CMD_RET : Field := ⟨0x40e00084, 0, 4, 0⟩
/-- R280 SPN-16, RO. -/
def MTR_RET_STATUS_CAUSE : Field := ⟨0x40e00088, 16, 16, 0⟩
/-- R280 SPN-16, W1C: Bit a: Aa parked (R279) -/
def MTR_RET_STATUS_PARKED : Field := ⟨0x40e00088, 8, 4, 0⟩
/-- R280 SPN-16, RO: Bits [2a+1:2a]: 0 under command; 1 RETRACTING; 2 PARKED -/
def MTR_RET_STATUS_STATE : Field := ⟨0x40e00088, 0, 8, 0⟩
/-- R280 SPN-17, RC: Steps commutated without a zero crossing -/
def MTR_ZC_MISS_COUNT : Field := ⟨0x40e000c0, 0, 32, 0⟩
/-- R280 SPN-17, RC: Chopper-on events -/
def MTR_CHOP_CNT_COUNT : Field := ⟨0x40e000c4, 0, 32, 0⟩
/-- R280 SPN-17, RC: 14.4 V trips -/
def MTR_OVP_CNT_COUNT : Field := ⟨0x40e000c8, 0, 32, 0⟩
/-- R280 SPN-17, RC: Retracts started -/
def MTR_RET_CNT_COUNT : Field := ⟨0x40e000cc, 0, 32, 0⟩
/-- R301 SPT-10, RW: Window limit, 1 to 16 MiB -/
def SPT_CTL_WIN_LIMIT : Field := ⟨0x40f00000, 16, 5, 16⟩
/-- R301 SPT-10, RW: Self-test period, 1 to 24 h; a count -/
def SPT_CTL_PERIOD_H : Field := ⟨0x40f00000, 8, 5, 24⟩
/-- R301 SPT-10, WO: 1: write every held window entry again (R285) -/
def SPT_CTL_RETRY_HELD : Field := ⟨0x40f00000, 3, 1, 0⟩
/-- R301 SPT-10, RW: 0: WIN_SIZE is 0 -/
def SPT_CTL_WIN_EN : Field := ⟨0x40f00000, 2, 1, 1⟩
/-- R301 SPT-10, WO: 1: erase the restored areas (R300); without PENDING_REL, code 0x04 -/
def SPT_CTL_RELEASE : Field := ⟨0x40f00000, 1, 1, 0⟩
/-- R301 SPT-10, WO: 1: self-test now; refused with code 0x03 while testing, in warn or below 33 V -/
def SPT_CTL_TEST : Field := ⟨0x40f00000, 0, 1, 0⟩
/-- R301 SPT-11, RO: R294 -/
def SPT_STATUS_ARMED : Field := ⟨0x40f00004, 31, 1, 0⟩
/-- R301 SPT-11, RO: Warn in effect -/
def SPT_STATUS_WARN : Field := ⟨0x40f00004, 30, 1, 0⟩
/-- R301 SPT-11, RO: Fail in effect; seen by the real-time core during a save -/
def SPT_STATUS_FAIL : Field := ⟨0x40f00004, 29, 1, 0⟩
/-- R301 SPT-11, RO: Self-test or its recharge running -/
def SPT_STATUS_TESTING : Field := ⟨0x40f00004, 28, 1, 0⟩
/-- R301 SPT-11, RO: Last self-test failed (R296) -/
def SPT_STATUS_TEST_FAIL : Field := ⟨0x40f00004, 27, 1, 0⟩
/-- R301 SPT-11, RO: A restored area awaits RELEASE -/
def SPT_STATUS_PENDING_REL : Field := ⟨0x40f00004, 26, 1, 0⟩
/-- R301 SPT-11, RO: Window size, 0 to 16 MiB -/
def SPT_STATUS_WIN_SIZE : Field := ⟨0x40f00004, 16, 5, 0⟩
/-- R301 SPT-11, RO: Held window entries (R285), 0 to 4,064 -/
def SPT_STATUS_HELD_CNT : Field := ⟨0x40f00004, 4, 12, 0⟩
/-- R301 SPT-11, RO: Area of the next save: 0 A, 1 B -/
def SPT_STATUS_AREA : Field := ⟨0x40f00004, 0, 1, 0⟩
/-- R301 SPT-12, W1C: 1: a write was rejected; clearing ERR also clears CODE -/
def SPT_CFG_STATUS_ERR : Field := ⟨0x40f00008, 31, 1, 0⟩
/-- R301 SPT-12, RO: 0x00 none; 0x01 zero count; 0x02 value outside its range; 0x03 TEST refused; 0x04 RELEASE without a restored area -/
def SPT_CFG_STATUS_CODE : Field := ⟨0x40f00008, 0, 8, 0⟩
/-- R301 SPT-13, RO: VHOLD as measured at the VHOLD ball, in mV; while VIN is good this is VIN less the load-dependent drop of the ideal-diode path (R25) -/
def SPT_VSTORE_VHOLD : Field := ⟨0x40f0000c, 16, 16, 0⟩
/-- R301 SPT-13, RO: VSTORE, in mV -/
def SPT_VSTORE_VSTORE : Field := ⟨0x40f0000c, 0, 16, 0⟩
/-- R301 SPT-13, RO: 1: a self-test has completed since SYS_POR_N last rose (R294) -/
def SPT_CAP_VALID : Field := ⟨0x40f00010, 31, 1, 0⟩
/-- R301 SPT-13, RO: Hours since that test; stops at 255 -/
def SPT_CAP_AGE_H : Field := ⟨0x40f00010, 16, 8, 0⟩
/-- R301 SPT-13, RO: Measured C, in µF -/
def SPT_CAP_CAP : Field := ⟨0x40f00010, 0, 16, 0⟩
/-- R301 SPT-13, RO: Entry limit (R283) -/
def SPT_WIN_LIMIT : Field := ⟨0x40f00014, 16, 16, 0⟩
/-- R301 SPT-13, RO: Valid entries -/
def SPT_WIN_USED : Field := ⟨0x40f00014, 0, 16, 0⟩
/-- R301 SPT-14, RO: 1: a save was restored at this start -/
def SPT_LAST_FOUND : Field := ⟨0x40f00020, 31, 1, 0⟩
/-- R301 SPT-14, RO: 1: its commit record verified -/
def SPT_LAST_COMPLETE : Field := ⟨0x40f00020, 30, 1, 0⟩
/-- R301 SPT-14, RO: 1: the older area was merged (R299) -/
def SPT_LAST_MERGED : Field := ⟨0x40f00020, 29, 1, 0⟩
/-- R301 SPT-14, RO: Chunk positions restored from neither area (R299); stops at 255 -/
def SPT_LAST_BAD_CHUNKS : Field := ⟨0x40f00020, 16, 8, 0⟩
/-- R301 SPT-14, RO: Save duration from fail detection to commit, in ms; 0 when incomplete -/
def SPT_LAST_TIME_MS : Field := ⟨0x40f00020, 0, 16, 0⟩
/-- R301 SPT-14, RO: SEQ bits [31:0] of the restored save; a read latches the upper half (R10) -/
def SPT_LAST_SEQ_LO_SEQ_LO : Field := ⟨0x40f00024, 0, 32, 0⟩
/-- R301 SPT-14, RO: SEQ bits [63:32] -/
def SPT_LAST_SEQ_HI_SEQ_HI : Field := ⟨0x40f00028, 0, 32, 0⟩
/-- R301 SPT-14, RC: Self-tests completed -/
def SPT_TESTS_COUNT : Field := ⟨0x40f00030, 0, 32, 0⟩
/-- R301 SPT-14, RC: Self-tests failed -/
def SPT_TEST_FAILS_COUNT : Field := ⟨0x40f00034, 0, 32, 0⟩
/-- R325 BUF-6, RO: R304 -/
def BUF_STATUS_TRAINED : Field := ⟨0x40400000, 31, 1, 0⟩
/-- R325 BUF-6, RO: R304 -/
def BUF_STATUS_TRAIN_ERR : Field := ⟨0x40400000, 30, 1, 0⟩
/-- R325 BUF-6, RO: Refresh doubled (R305) -/
def BUF_STATUS_HOT : Field := ⟨0x40400000, 29, 1, 0⟩
/-- R325 BUF-6, RO: Stack temperature, °C -/
def BUF_STATUS_TEMP : Field := ⟨0x40400000, 0, 8, 0⟩
/-- R325 BUF-6, W1C: 1: a write was rejected; clearing ERR also clears CODE -/
def BUF_CFG_STATUS_ERR : Field := ⟨0x40400008, 31, 1, 0⟩
/-- R325 BUF-6, RO. -/
def BUF_CFG_STATUS_CODE : Field := ⟨0x40400008, 0, 8, 0⟩
/-- 12 Table BUF-2: the reset reservation of class c, in GB/s. -/
def bufResReset (c : Nat) : Nat :=
  match c with | 0 => 32 | 1 => 96 | 2 => 64 | 3 => 160 | 4 => 16 | _ => 0
/-- R325 BUF-6, RW: Reservation, 1 to 368 GB/s (R310) -/
def BUF_RES_GBPS (c : Nat) : Field := ⟨0x40400010 + 0x4 * c, 0, 9, bufResReset c⟩
/-- R325 BUF-7, RC: HBM bursts corrected by functional reads -/
def BUF_CE_CNT_COUNT : Field := ⟨0x40400040, 0, 32, 0⟩
/-- R325 BUF-7, RC: HBM bursts found uncorrectable by functional reads -/
def BUF_UE_CNT_COUNT : Field := ⟨0x40400044, 0, 32, 0⟩
/-- R325 BUF-7, W1C: 1: BURST latched; clearing VALID re-arms the latch -/
def BUF_UE_FIRST_VALID : Field := ⟨0x40400048, 31, 1, 0⟩
/-- R325 BUF-7, RO: Address bits [33:5] of the first uncorrectable burst -/
def BUF_UE_FIRST_BURST : Field := ⟨0x40400048, 0, 29, 0⟩
/-- R325 BUF-7, RC: SRAM words corrected -/
def BUF_SRAM_CE_COUNT : Field := ⟨0x4040004c, 0, 32, 0⟩
/-- R325 BUF-7, RC: SRAM words uncorrectable -/
def BUF_SRAM_UE_COUNT : Field := ⟨0x40400050, 0, 32, 0⟩
/-- R325 BUF-8, RW: Address bits [33:5] of any burst in the row; column bits ignored -/
def BUF_PPR_ROW_BURST : Field := ⟨0x40400060, 0, 29, 0⟩
/-- R325 BUF-8, WO: 0x5A5A in the same write as GO; any other value makes the write ignored -/
def BUF_PPR_CTL_KEY : Field := ⟨0x40400064, 16, 16, 0⟩
/-- R325 BUF-8, WO: 1: hard repair -/
def BUF_PPR_CTL_HARD : Field := ⟨0x40400064, 1, 1, 0⟩
/-- R325 BUF-8, WO: 1: start the repair (R316) -/
def BUF_PPR_CTL_GO : Field := ⟨0x40400064, 0, 1, 0⟩
/-- R325 BUF-8, RO: 1: repair running -/
def BUF_PPR_STATUS_BUSY : Field := ⟨0x40400068, 31, 1, 0⟩
/-- R325 BUF-8, W1C: 1: a repair has ended -/
def BUF_PPR_STATUS_DONE : Field := ⟨0x40400068, 30, 1, 0⟩
/-- R325 BUF-8, RO: 0 success; 1 stack reported failure -/
def BUF_PPR_STATUS_RESULT : Field := ⟨0x40400068, 28, 2, 0⟩
/-- R325 BUF-8, RO: 1: a hard resource is left for the bank of BUF_PPR_ROW -/
def BUF_PPR_STATUS_HARD_AVAIL : Field := ⟨0x40400068, 1, 1, 0⟩
/-- R325 BUF-8, RO: 1: a soft resource is left for that bank -/
def BUF_PPR_STATUS_SOFT_AVAIL : Field := ⟨0x40400068, 0, 1, 0⟩
/-- R325 BUF-9, RW: Address bits [33:5] of the burst -/
def BUF_RAW_ADDR_BURST : Field := ⟨0x40400080, 0, 29, 0⟩
/-- R325 BUF-9, RO: 1: operation running; a write of READ or WRITE is rejected with code 0x04 -/
def BUF_RAW_CTL_BUSY : Field := ⟨0x40400084, 31, 1, 0⟩
/-- R325 BUF-9, WO: 1: raw write (R320) -/
def BUF_RAW_CTL_WRITE : Field := ⟨0x40400084, 1, 1, 0⟩
/-- R325 BUF-9, WO: 1: raw read; a write with READ and WRITE both 1 is rejected with code 0x02 -/
def BUF_RAW_CTL_READ : Field := ⟨0x40400084, 0, 1, 0⟩
/-- R325 BUF-9, RW: Bits [8j+7:8j]: check byte P_j -/
def BUF_RAW_CHECK_CHECK : Field := ⟨0x40400088, 0, 32, 0⟩
/-- R325 BUF-9, RW: Bytes 4i to 4i + 3 of the burst, little-endian -/
def BUF_RAW_DATA_DATA (i : Nat) : Field := ⟨0x40400090 + 0x4 * i, 0, 32, 0⟩
/-- R325 BUF-10, RO: 1: scrub running -/
def BUF_SCRUB_CTL_BUSY : Field := ⟨0x404000c0, 31, 1, 0⟩
/-- R325 BUF-10, RO: 1: the last scrub ended (R324) -/
def BUF_SCRUB_CTL_DONE : Field := ⟨0x404000c0, 30, 1, 0⟩
/-- R325 BUF-10, RO: 1: it ended by STOP -/
def BUF_SCRUB_CTL_STOPPED : Field := ⟨0x404000c0, 29, 1, 0⟩
/-- R325 BUF-10, RW: 0: HBM range (R322); 1: SRAM sweep (R323) -/
def BUF_SCRUB_CTL_TARGET : Field := ⟨0x404000c0, 2, 1, 0⟩
/-- R325 BUF-10, WO: 1: end the scrub -/
def BUF_SCRUB_CTL_STOP : Field := ⟨0x404000c0, 1, 1, 0⟩
/-- R325 BUF-10, WO: 1: start -/
def BUF_SCRUB_CTL_GO : Field := ⟨0x404000c0, 0, 1, 0⟩
/-- R325 BUF-10, RW: Address bits [33:5] of the first burst -/
def BUF_SCRUB_START_BURST : Field := ⟨0x404000c4, 0, 29, 0⟩
/-- R325 BUF-10, RW: Bursts, 1 to 536,870,912; a count -/
def BUF_SCRUB_LEN_COUNT : Field := ⟨0x404000c8, 0, 30, 0⟩
/-- R325 BUF-10, RO: Bursts or words corrected in this scrub -/
def BUF_SCRUB_CE_COUNT : Field := ⟨0x404000cc, 0, 32, 0⟩
/-- R325 BUF-10, RO: Bursts or words uncorrectable in this scrub -/
def BUF_SCRUB_UE_COUNT : Field := ⟨0x404000d0, 0, 32, 0⟩
/-- R325 BUF-10, RO: 1: an uncorrectable location was found -/
def BUF_SCRUB_FIRST_VALID : Field := ⟨0x404000d4, 31, 1, 0⟩
/-- R325 BUF-10, RO: TARGET 0: bits [28:0] hold address bits [33:5]. TARGET 1: bits [29:22] hold the instance and bits [21:0] the word. -/
def BUF_SCRUB_FIRST_WHERE : Field := ⟨0x404000d4, 0, 30, 0⟩
/-- R325 BUF-11, RW: Write 1 to arm (R321); clears itself when the flip is applied; write 0 to disarm -/
def SYS_FLIP_SEL_ARM : Field := ⟨0x40000500, 31, 1, 0⟩
/-- R325 BUF-11, W1C: 1: a flip was applied -/
def SYS_FLIP_SEL_DONE : Field := ⟨0x40000500, 30, 1, 0⟩
/-- R325 BUF-11, W1C: 1: the last arm was rejected -/
def SYS_FLIP_SEL_REJ : Field := ⟨0x40000500, 29, 1, 0⟩
/-- R325 BUF-11, RW: Instance of Table BUF-4 -/
def SYS_FLIP_SEL_INSTANCE : Field := ⟨0x40000500, 0, 8, 0⟩
/-- R325 BUF-12, RW: 1: invert bit POS1 -/
def SYS_FLIP_MASK_EN1 : Field := ⟨0x40000504, 31, 1, 0⟩
/-- R325 BUF-12, RW: Stored-word bit position, 0 to width − 1 -/
def SYS_FLIP_MASK_POS1 : Field := ⟨0x40000504, 16, 7, 0⟩
/-- R325 BUF-12, RW: 1: invert bit POS0 -/
def SYS_FLIP_MASK_EN0 : Field := ⟨0x40000504, 15, 1, 0⟩
/-- R325 BUF-12, RW: Stored-word bit position, 0 to width − 1 -/
def SYS_FLIP_MASK_POS0 : Field := ⟨0x40000504, 0, 7, 0⟩
/-- R351 CPU-5, RO: 1: L2 invalidation running (R335) -/
def CCH_STATUS_INIT_BUSY : Field := ⟨0x40500000, 31, 1, 0⟩
/-- R351 CPU-5, RO: Bit n: application core n out of reset -/
def CCH_STATUS_RUNNING : Field := ⟨0x40500000, 0, 4, 0⟩
/-- R351 CPU-5, W1C: 1: a write was rejected; clearing ERR also clears CODE -/
def CCH_CFG_STATUS_ERR : Field := ⟨0x40500004, 31, 1, 0⟩
/-- R351 CPU-5, RO: 0x00 none; 0x01 zero count; 0x02 value outside its range; 0x03 beyond range or cache; 0x04 busy; 0x05 domain off or invalidation running -/
def CCH_CFG_STATUS_CODE : Field := ⟨0x40500004, 0, 8, 0⟩
/-- R351 CPU-5, RW: Bit n: core n released (R327) -/
def CCH_CORE_CTL_RUN : Field := ⟨0x40500008, 0, 4, 1⟩
/-- R351 CPU-5, RO: 1: whole-L1 invalidation running -/
def CCH_L1_CTL_INV_BUSY (n : Nat) : Field := ⟨0x40500010 + 0x4 * n, 16, 1, 0⟩
/-- R351 CPU-5, WO: 1: invalidate the whole L1-D -/
def CCH_L1_CTL_DINV (n : Nat) : Field := ⟨0x40500010 + 0x4 * n, 9, 1, 0⟩
/-- R351 CPU-5, WO: 1: invalidate the whole L1-I -/
def CCH_L1_CTL_IINV (n : Nat) : Field := ⟨0x40500010 + 0x4 * n, 8, 1, 0⟩
/-- R351 CPU-5, RW: 1: L1-D enabled (R332) -/
def CCH_L1_CTL_DEN (n : Nat) : Field := ⟨0x40500010 + 0x4 * n, 1, 1, 0⟩
/-- R351 CPU-5, RW: 1: L1-I enabled -/
def CCH_L1_CTL_IEN (n : Nat) : Field := ⟨0x40500010 + 0x4 * n, 0, 1, 0⟩
/-- R351 CPU-5, RW: Start address bits [31:2] -/
def CCH_BOOT_LO_ADDR (n : Nat) : Field := ⟨0x40500020 + 0x8 * n, 2, 30, 0⟩
/-- R351 CPU-5, RW: Start address bits [35:32]; the address must lie in a buffer range, otherwise code 0x03 -/
def CCH_BOOT_HI_ADDR (n : Nat) : Field := ⟨0x40500024 + 0x8 * n, 0, 4, 4⟩
/-- R351 CPU-5, RO: 1: sweep running (R339) -/
def CCH_SWEEP_BUSY : Field := ⟨0x40500040, 31, 1, 0⟩
/-- R351 CPU-5, W1C: 1: a sweep has ended -/
def CCH_SWEEP_DONE : Field := ⟨0x40500040, 30, 1, 0⟩
/-- R351 CPU-5, WO: 1: start; code 0x04 while BUSY -/
def CCH_SWEEP_GO : Field := ⟨0x40500040, 0, 1, 0⟩
/-- R351 CPU-5, RC: Clean lines refetched (R336); stops at 0xFFFF_FFFF -/
def CCH_L2_REFETCH_COUNT : Field := ⟨0x40500044, 0, 32, 0⟩
/-- R351 CPU-5, W1C: 1: LINE latched; clearing re-arms the latch -/
def CCH_L2_ERR_VALID : Field := ⟨0x40500048, 31, 1, 0⟩
/-- R351 CPU-5, RO: Address bits [35:6] of the first refetched line -/
def CCH_L2_ERR_LINE : Field := ⟨0x40500048, 0, 30, 0⟩
/-- R351 CPU-6, RW: Line address bits [31:6] -/
def CCH_MNT_ADDR_LO_ADDR (r : Nat) : Field := ⟨0x40500100 + 0x20 * r, 6, 26, 0⟩
/-- R351 CPU-6, RW: Line address bits [35:32] -/
def CCH_MNT_ADDR_HI_ADDR (r : Nat) : Field := ⟨0x40500104 + 0x20 * r, 0, 4, 0⟩
/-- R351 CPU-6, RW: Lines or positions; a count (R343) -/
def CCH_MNT_LEN_COUNT (r : Nat) : Field := ⟨0x40500108 + 0x20 * r, 0, 29, 0⟩
/-- R351 CPU-6, RW: First set, 0 to 8,191 -/
def CCH_MNT_SETWAY_SET (r : Nat) : Field := ⟨0x4050010c + 0x20 * r, 4, 13, 0⟩
/-- R351 CPU-6, RW: First way, 0 to 15 -/
def CCH_MNT_SETWAY_WAY (r : Nat) : Field := ⟨0x4050010c + 0x20 * r, 0, 4, 0⟩
/-- R351 CPU-6, RO: 1: operation running -/
def CCH_MNT_CTL_BUSY (r : Nat) : Field := ⟨0x40500110 + 0x20 * r, 31, 1, 0⟩
/-- R351 CPU-6, W1C: 1: the last operation completed (R341) -/
def CCH_MNT_CTL_DONE (r : Nat) : Field := ⟨0x40500110 + 0x20 * r, 30, 1, 0⟩
/-- R351 CPU-6, RW: 0 L2; 1 L1-I -/
def CCH_MNT_CTL_TARGET (r : Nat) : Field := ⟨0x40500110 + 0x20 * r, 4, 2, 0⟩
/-- R351 CPU-6, RW: 0 by address; 1 by set and way -/
def CCH_MNT_CTL_BY (r : Nat) : Field := ⟨0x40500110 + 0x20 * r, 3, 1, 0⟩
/-- R351 CPU-6, RW: Table CPU-2 -/
def CCH_MNT_CTL_OP (r : Nat) : Field := ⟨0x40500110 + 0x20 * r, 1, 2, 0⟩
/-- R351 CPU-6, WO: 1: start (R343) -/
def CCH_MNT_CTL_GO (r : Nat) : Field := ⟨0x40500110 + 0x20 * r, 0, 1, 0⟩
/-- R352 CPU-8, RO: Bit c: channel c in RUN or DRAIN -/
def DMA_STATUS_ACTIVE : Field := ⟨0x40600000, 0, 32, 0⟩
/-- R352 CPU-8, W1C: Bit c: a descriptor with IRQ completed (R347) -/
def DMA_IRQ_IRQ : Field := ⟨0x40600004, 0, 32, 0⟩
/-- R352 CPU-8, RW: Bit c: DMA_IRQ bit c interrupts the real-time core -/
def DMA_IRQ_EN_EN : Field := ⟨0x40600008, 0, 32, 0⟩
/-- R352 CPU-8, W1C: 1: a write was rejected; clearing ERR also clears CODE -/
def DMA_CFG_STATUS_ERR : Field := ⟨0x4060000c, 31, 1, 0⟩
/-- R352 CPU-8, RO: 0x00 none; 0x02 value outside its range; 0x04 EN written 1 during DRAIN; 0x05 domain 91 off -/
def DMA_CFG_STATUS_CODE : Field := ⟨0x4060000c, 0, 8, 0⟩
/-- R352 CPU-8, RW: Write 1: start the chain at DMA_CH_DESC; no effect in RUN. Write 0: drop (R350). The engine clears EN on entering DONE or ERROR. -/
def DMA_CH_CTL_EN (c : Nat) : Field := ⟨0x40601000 + 0x20 * c, 0, 1, 0⟩
/-- R352 CPU-8, RW: First descriptor, address bits [31:6] -/
def DMA_CH_DESC_LO_ADDR (c : Nat) : Field := ⟨0x40601004 + 0x20 * c, 6, 26, 0⟩
/-- R352 CPU-8, RW: Address bits [35:32] -/
def DMA_CH_DESC_HI_ADDR (c : Nat) : Field := ⟨0x40601008 + 0x20 * c, 0, 4, 0⟩
/-- R352 CPU-8, RO: 0 IDLE; 1 RUN; 2 DRAIN; 3 DONE; 4 ERROR -/
def DMA_CH_STATUS_STATE (c : Nat) : Field := ⟨0x4060100c + 0x20 * c, 29, 3, 0⟩
/-- R352 CPU-8, RO: Descriptors completed since the last start; stops at 0xFFFF -/
def DMA_CH_STATUS_DESCS (c : Nat) : Field := ⟨0x4060100c + 0x20 * c, 8, 16, 0⟩
/-- R352 CPU-8, RO: Code of the descriptor error (R346, R349) -/
def DMA_CH_STATUS_CODE (c : Nat) : Field := ⟨0x4060100c + 0x20 * c, 0, 8, 0⟩
/-- R352 CPU-8, RO: Descriptor in progress, address bits [31:6]; undefined after a drop -/
def DMA_CH_CUR_LO_ADDR (c : Nat) : Field := ⟨0x40601010 + 0x20 * c, 6, 26, 0⟩
/-- R352 CPU-8, RO: Address bits [35:32] -/
def DMA_CH_CUR_HI_ADDR (c : Nat) : Field := ⟨0x40601014 + 0x20 * c, 0, 4, 0⟩
/-- R352 CPU-8, RO: Lines of the current descriptor not yet started; undefined after a drop -/
def DMA_CH_REMAIN_LINES (c : Nat) : Field := ⟨0x40601018 + 0x20 * c, 0, 16, 0⟩
/-- R352 CPU-8, RO: TAG of the last completed descriptor -/
def DMA_CH_TAG_TAG (c : Nat) : Field := ⟨0x4060101c + 0x20 * c, 0, 32, 0⟩
/-- R355 HST-4, WO: 1: resume after Bus Master Enable loss (R369) -/
def HCTL_RESUME (p : Nat) : Field := ⟨0x40200100 + 0x40000 * p, 1, 1, 0⟩
/-- R355 HST-4, RW: Controller enable; its queue effects are given in "IQI: Queues, Commands and Ordering" -/
def HCTL_EN (p : Nat) : Field := ⟨0x40200100 + 0x40000 * p, 0, 1, 0⟩
/-- R355 HST-4, RO: 1: Ready (Table PWR-7) and EN is 1 -/
def HSTS_RDY (p : Nat) : Field := ⟨0x40200104 + 0x40000 * p, 31, 1, 0⟩
/-- R355 HST-4, RO: BUS_MASTER_LOST: queues of this port frozen (R368) -/
def HSTS_BML (p : Nat) : Field := ⟨0x40200104 + 0x40000 * p, 30, 1, 0⟩
/-- R355 HST-4, RO: 1: BML set and reads issued before the loss still outstanding -/
def HSTS_RESUME_WAIT (p : Nat) : Field := ⟨0x40200104 + 0x40000 * p, 29, 1, 0⟩
/-- R355 HST-4, RO: 1: the device has stopped; cause in the event log -/
def HSTS_FATAL (p : Nat) : Field := ⟨0x40200104 + 0x40000 * p, 28, 1, 0⟩
/-- R355 HST-4, WO: Commits the staged entry ENTRY (R360) -/
def HWIN_COMMIT_ENTRY : Field := ⟨0x40200120, 0, 6, 0⟩
/-- R355 HST-4, W1C: 1: a commit was refused; clearing ERR also clears CODE and ENTRY -/
def HWIN_STATUS_ERR : Field := ⟨0x40200124, 31, 1, 0⟩
/-- R355 HST-4, RO: Entry of the refused commit -/
def HWIN_STATUS_ENTRY : Field := ⟨0x40200124, 8, 6, 0⟩
/-- R355 HST-4, RO: 0x00 none; 0x02 SIZE code not listed; 0x03 beyond BAR2 or buffer; 0x06 misaligned; 0x07 commit not permitted from this source -/
def HWIN_STATUS_CODE : Field := ⟨0x40200124, 0, 8, 0⟩
/-- R371 HST-8, W1S: 1: signal a wake event (R366); clears when signalled -/
def HST_CTL_WAKE (p : Nat) : Field := ⟨0x40200000 + 0x40000 * p, 24, 1, 0⟩
/-- R371 HST-8, RW: 1: host window writes accepted from this port (R356) -/
def HST_CTL_WIN_HOST_WR (p : Nat) : Field := ⟨0x40200000 + 0x40000 * p, 23, 1, 0⟩
/-- R371 HST-8, RW: 0 2.5; 1 5.0; 2 8.0; 3 16.0; 4 32.0; 5 64.0; 6 128.0 GT/s -/
def HST_CTL_MAX_RATE (p : Nat) : Field := ⟨0x40200000 + 0x40000 * p, 16, 4, 6⟩
/-- R371 HST-8, RW: 0 x1; 1 x2; 2 x4 -/
def HST_CTL_MAX_WIDTH (p : Nat) : Field := ⟨0x40200000 + 0x40000 * p, 12, 2, 2⟩
/-- R371 HST-8, RW: 1: flit mode offered at 32.0 GT/s and below -/
def HST_CTL_FLIT_EN (p : Nat) : Field := ⟨0x40200000 + 0x40000 * p, 8, 1, 1⟩
/-- R371 HST-8, RW: 1: the link may train -/
def HST_CTL_LINK_EN (p : Nat) : Field := ⟨0x40200000 + 0x40000 * p, 0, 1, 1⟩
/-- R371 HST-8, RO: Coded as MAX_RATE -/
def HST_LINK_RATE (p : Nat) : Field := ⟨0x40200004 + 0x40000 * p, 28, 4, 0⟩
/-- R371 HST-8, RO: Coded as MAX_WIDTH -/
def HST_LINK_WIDTH (p : Nat) : Field := ⟨0x40200004 + 0x40000 * p, 26, 2, 0⟩
/-- R371 HST-8, RO: 1: flit mode -/
def HST_LINK_FLIT (p : Nat) : Field := ⟨0x40200004 + 0x40000 * p, 25, 1, 0⟩
/-- R371 HST-8, RO: 1: data link up -/
def HST_LINK_UP (p : Nat) : Field := ⟨0x40200004 + 0x40000 * p, 24, 1, 0⟩
/-- R371 HST-8, RO: 0 L0; 1 L0s; 2 L1; 3 L1.1; 4 L1.2; 5 L2/L3 Ready; 6 down -/
def HST_LINK_LSTATE (p : Nat) : Field := ⟨0x40200004 + 0x40000 * p, 21, 3, 6⟩
/-- R371 HST-8, RO: 0b00 D0; 0b11 D3hot -/
def HST_LINK_DSTATE (p : Nat) : Field := ⟨0x40200004 + 0x40000 * p, 19, 2, 0⟩
/-- R371 HST-8, RO: Bus Master Enable -/
def HST_LINK_BME (p : Nat) : Field := ⟨0x40200004 + 0x40000 * p, 18, 1, 0⟩
/-- R371 HST-8, RO: Memory Space Enable -/
def HST_LINK_MSE (p : Nat) : Field := ⟨0x40200004 + 0x40000 * p, 17, 1, 0⟩
/-- R371 HST-8, RO: ATS Enable -/
def HST_LINK_ATS_EN (p : Nat) : Field := ⟨0x40200004 + 0x40000 * p, 16, 1, 0⟩
/-- R371 HST-8, W1C: 1: a write was rejected; clearing ERR also clears CODE -/
def HST_CFG_STATUS_ERR (p : Nat) : Field := ⟨0x40200008 + 0x40000 * p, 31, 1, 0⟩
/-- R371 HST-8, RO: 0x00 none; 0x02 value outside its range -/
def HST_CFG_STATUS_CODE (p : Nat) : Field := ⟨0x40200008 + 0x40000 * p, 0, 8, 0⟩
/-- R371 HST-8, W1C: An Invalidate Request arrived -/
def HST_EVT_ATS_INV (p : Nat) : Field := ⟨0x4020000c + 0x40000 * p, 5, 1, 0⟩
/-- R371 HST-8, W1C: The D-state changed -/
def HST_EVT_DSTATE (p : Nat) : Field := ⟨0x4020000c + 0x40000 * p, 4, 1, 0⟩
/-- R371 HST-8, W1C: The data link went down -/
def HST_EVT_LINK_DOWN (p : Nat) : Field := ⟨0x4020000c + 0x40000 * p, 3, 1, 0⟩
/-- R371 HST-8, W1C: PERST_N asserted -/
def HST_EVT_PERST (p : Nat) : Field := ⟨0x4020000c + 0x40000 * p, 2, 1, 0⟩
/-- R371 HST-8, W1C: Bus Master Enable was cleared -/
def HST_EVT_BML (p : Nat) : Field := ⟨0x4020000c + 0x40000 * p, 1, 1, 0⟩
/-- R371 HST-8, W1C: A function-level reset ran -/
def HST_EVT_FLR (p : Nat) : Field := ⟨0x4020000c + 0x40000 * p, 0, 1, 0⟩
/-- R371 HST-8, RO: Cache entries held by this port, 0 to 1,024 -/
def HST_ATS_USED (p : Nat) : Field := ⟨0x40200010 + 0x40000 * p, 0, 11, 0⟩
/-- R371 HST-8, RC: TLPs or flits received with a CRC error -/
def HST_RX_ERR_COUNT (p : Nat) : Field := ⟨0x40200020 + 0x40000 * p, 0, 32, 0⟩
/-- R371 HST-8, RC: Flits corrected by FEC -/
def HST_FEC_CORR_COUNT (p : Nat) : Field := ⟨0x40200024 + 0x40000 * p, 0, 32, 0⟩
/-- R371 HST-8, RC: Replays sent -/
def HST_REPLAY_COUNT (p : Nat) : Field := ⟨0x40200028 + 0x40000 * p, 0, 32, 0⟩
/-- R371 HST-8, RC: Requests answered or reported as Unsupported Request -/
def HST_UR_COUNT (p : Nat) : Field := ⟨0x4020002c + 0x40000 * p, 0, 32, 0⟩
/-- R371 HST-8, RC: Invalidate Completions sent -/
def HST_ATS_INV_COUNT (p : Nat) : Field := ⟨0x40200030 + 0x40000 * p, 0, 32, 0⟩
/-- R371 HST-8, RC: BAR2 writes dropped for an uncorrectable burst (R358) -/
def HST_BAR2_ERR_COUNT (p : Nat) : Field := ⟨0x40200034 + 0x40000 * p, 0, 32, 0⟩
/-- R404 IQI-13, RW: 1: media commands complete with MEDIA_LOCKED; set by firmware as "Administration and Firmware Life Cycle" gives -/
def IQI_CTL_MEDIA_LOCK : Field := ⟨0x40300000, 0, 1, 1⟩
/-- R404 IQI-13, RO: Outstanding commands, 0 to 8,192 -/
def IQI_STATUS_OUTSTANDING : Field := ⟨0x40300004, 0, 14, 0⟩
/-- R404 IQI-13, W1C: 1: a write was rejected; clearing ERR also clears CODE -/
def IQI_CFG_STATUS_ERR : Field := ⟨0x40300008, 31, 1, 0⟩
/-- R404 IQI-13, RO: 0x00 none; 0x01 zero count; 0x02 value outside its range; 0x03 namespace enabled; 0x04 namespace geometry invalid -/
def IQI_CFG_STATUS_CODE : Field := ⟨0x40300008, 0, 8, 0⟩
/-- R404 IQI-13, RO: Bit n: namespace n has a deferred error not yet carried by a completion -/
def IQI_DEF_PEND_NS : Field := ⟨0x4030000c, 1, 16, 0⟩
/-- R404 IQI-13, RC: Commands fetched -/
def IQI_FETCHED_COUNT : Field := ⟨0x40300040, 0, 32, 0⟩
/-- R404 IQI-13, RC: Completion entries written -/
def IQI_POSTED_COUNT : Field := ⟨0x40300044, 0, 32, 0⟩
/-- R404 IQI-13, RC: Commands completed with ABORTED -/
def IQI_ABORT_CAUGHT_COUNT : Field := ⟨0x40300048, 0, 32, 0⟩
/-- R404 IQI-13, RC: Deferred errors recorded -/
def IQI_DEF_ERR_COUNT : Field := ⟨0x4030004c, 0, 32, 0⟩
/-- R404 IQI-13, RC: Invalid doorbell writes (R378) -/
def IQI_BAD_DB_COUNT : Field := ⟨0x40300050, 0, 32, 0⟩
/-- R404 IQI-13, RW: Capacity bits [31:0], in blocks; held until the upper half is written (R10) -/
def IQI_NS_CAP_LO_CAP (n : Nat) : Field := ⟨0x403000f0 + 0x10 * n, 0, 32, 0⟩
/-- R404 IQI-13, RW: Capacity bits [47:32]; at most 2^48 − 65,536 blocks -/
def IQI_NS_CAP_HI_CAP (n : Nat) : Field := ⟨0x403000f4 + 0x10 * n, 0, 16, 0⟩
/-- R404 IQI-13, RW: 1: namespace n enabled -/
def IQI_NS_CTL_EN (n : Nat) : Field := ⟨0x403000f8 + 0x10 * n, 31, 1, 0⟩
/-- R404 IQI-13, RW: Default mode: 1 cache; 2 safe; 3 media; 0 rejected with code 0x02 -/
def IQI_NS_CTL_DEF_ACK (n : Nat) : Field := ⟨0x403000f8 + 0x10 * n, 0, 2, 1⟩
/-- R404 IQI-13, RW: Conventional zones at the start of the namespace, 0 to the zone count -/
def IQI_NS_CONV_CONV (n : Nat) : Field := ⟨0x403000fc + 0x10 * n, 0, 32, 0⟩
/-- R454 SEC-11, RO: 1: owned (R436) -/
def SEC_STATUS_OWNED : Field := ⟨0x40100000, 31, 1, 0⟩
/-- R454 SEC-11, RO: 1: owner lock set -/
def SEC_STATUS_OWNER_LOCK : Field := ⟨0x40100000, 30, 1, 0⟩
/-- R454 SEC-11, RO: 1: debug port open (R445) -/
def SEC_STATUS_DEBUG_OPEN : Field := ⟨0x40100000, 29, 1, 0⟩
/-- R454 SEC-11, RO: R446 -/
def SEC_STATUS_RNG_FAIL : Field := ⟨0x40100000, 28, 1, 0⟩
/-- R454 SEC-11, RO: R435 limit reached -/
def SEC_STATUS_TRY_LOCK : Field := ⟨0x40100000, 27, 1, 0⟩
/-- R454 SEC-11, RO: 0 to 63 -/
def SEC_STATUS_SVN_FUSE : Field := ⟨0x40100000, 8, 6, 0⟩
/-- R454 SEC-11, RO: Consecutive refusals, 0 to 8 -/
def SEC_STATUS_TRIES : Field := ⟨0x40100000, 0, 4, 0⟩
/-- R454 SEC-11, W1C: 1: a write was rejected; clearing ERR also clears CODE -/
def SEC_CFG_STATUS_ERR : Field := ⟨0x40100004, 31, 1, 0⟩
/-- R454 SEC-11, RO: As R453 -/
def SEC_CFG_STATUS_CODE : Field := ⟨0x40100004, 0, 8, 0⟩
/-- R454 SEC-11, WO: 0x5A5A with CONFIRM -/
def SEC_BOOT_KEY : Field := ⟨0x40100008, 16, 16, 0⟩
/-- R454 SEC-11, WO: 1: confirm (R454) -/
def SEC_BOOT_CONFIRM : Field := ⟨0x40100008, 15, 1, 0⟩
/-- R454 SEC-11, RO: 1: boot-record STATE is TRIAL -/
def SEC_BOOT_TRIAL : Field := ⟨0x40100008, 11, 1, 0⟩
/-- R454 SEC-11, RO: Boot-record FALLBACK_USED -/
def SEC_BOOT_FALLBACK_USED : Field := ⟨0x40100008, 10, 1, 0⟩
/-- R454 SEC-11, RO: Power-on seconds left for confirmation; 0 outside TRIAL -/
def SEC_BOOT_REMAIN : Field := ⟨0x40100008, 0, 10, 600⟩
/-- R454 SEC-11, RW: Request address bits [31:6], core address (Table CPU-1) -/
def SEC_REQ_LO_ADDR : Field := ⟨0x40100010, 6, 26, 0⟩
/-- R454 SEC-11, RW: Address bits [35:32]; held as R10 gives -/
def SEC_REQ_HI_ADDR : Field := ⟨0x40100014, 0, 4, 0⟩
/-- R454 SEC-11, RO: 1: request running -/
def SEC_REQ_CTL_BUSY : Field := ⟨0x40100018, 31, 1, 0⟩
/-- R454 SEC-11, W1C: 1: a request ended -/
def SEC_REQ_CTL_DONE : Field := ⟨0x40100018, 30, 1, 0⟩
/-- R454 SEC-11, WO: 1: start the request -/
def SEC_REQ_CTL_GO : Field := ⟨0x40100018, 0, 1, 0⟩
/-- R454 SEC-11, RO: Completion status, Table IQI-5 or Table ADM-2 -/
def SEC_REQ_RESULT_SC : Field := ⟨0x4010001c, 8, 8, 0⟩
/-- R454 SEC-11, RO: Table SEC-9; 0 when accepted -/
def SEC_REQ_RESULT_REASON : Field := ⟨0x4010001c, 0, 8, 0⟩
/-- R454 SEC-11, RO: Bit r, or r − 32: range r read-locked -/
def SEC_RLOCK_LO_LOCK : Field := ⟨0x40100020, 0, 32, 0⟩
/-- R454 SEC-11, RO: Bit r, or r − 32: range r read-locked -/
def SEC_RLOCK_HI_LOCK : Field := ⟨0x40100024, 0, 32, 0⟩
/-- R454 SEC-11, RO: Bit r, or r − 32: range r write-locked -/
def SEC_WLOCK_LO_LOCK : Field := ⟨0x40100028, 0, 32, 0⟩
/-- R454 SEC-11, RO: Bit r, or r − 32: range r write-locked -/
def SEC_WLOCK_HI_LOCK : Field := ⟨0x4010002c, 0, 32, 0⟩
/-- R454 SEC-11, RC: Envelopes refused -/
def SEC_AUTH_FAIL_COUNT : Field := ⟨0x40100030, 0, 32, 0⟩
/-- R454 SEC-11, RC: DRBG reseeds -/
def SEC_RESEEDS_COUNT : Field := ⟨0x40100034, 0, 32, 0⟩
/-- R455 SEC-12, RO: 1: debug port open -/
def DBG_STATUS_OPEN : Field := ⟨0x41000000, 31, 1, 0⟩
/-- R455 SEC-12, RO: 1: a token is being checked or R445 is waiting -/
def DBG_STATUS_BUSY : Field := ⟨0x41000000, 30, 1, 0⟩
/-- R455 SEC-12, RO: SCOPE bits [2:0] of the accepted token -/
def DBG_STATUS_SCOPE : Field := ⟨0x41000000, 27, 3, 0⟩
/-- R455 SEC-12, RO: Reason of the last refused token, Table SEC-9 or 0x0B for owner lock -/
def DBG_STATUS_REASON : Field := ⟨0x41000000, 0, 8, 0⟩
/-- R455 SEC-12, RC: Tokens refused -/
def DBG_TOKEN_FAILS_COUNT : Field := ⟨0x41000004, 0, 32, 0⟩
/-- R455 SEC-12, RO: Bytes 4i to 4i + 3 of the debug nonce -/
def DBG_NONCE_NONCE (i : Nat) : Field := ⟨0x41000010 + 0x4 * i, 0, 32, 0⟩
/-- R455 SEC-12, RW: Next token word, 0 to 2,047 -/
def DBG_TOKEN_ADDR_WORD : Field := ⟨0x41000030, 0, 11, 0⟩
/-- R455 SEC-12, WO: Token bytes 4·WORD to 4·WORD + 3; WORD then advances by 1, stopping at 2,047 -/
def DBG_TOKEN_DATA_DATA : Field := ⟨0x41000034, 0, 32, 0⟩
/-- R455 SEC-12, WO: 1: check the token held (R444, R455) -/
def DBG_TOKEN_CTL_GO : Field := ⟨0x41000038, 0, 1, 0⟩
/-- R481 RING-8, RW: 1: splice and join (R467); 0: leave (R469) -/
def RING_CTL_EN : Field := ⟨0x40800000, 31, 1, 1⟩
/-- R481 RING-8, RW: 1: mute requested (R477) -/
def RING_CTL_MUTE_REQ : Field := ⟨0x40800000, 30, 1, 0⟩
/-- R481 RING-8, RW: Highest rate code, Table RING-1 -/
def RING_CTL_MAX_RATE : Field := ⟨0x40800000, 28, 2, 3⟩
/-- R481 RING-8, RW: Attempts, 1 to 15; a count -/
def RING_CTL_RETRY_MAX : Field := ⟨0x40800000, 24, 4, 8⟩
/-- R481 RING-8, RW: Frame timeout, 1 to 255, in 100 µs; a count -/
def RING_CTL_TMO : Field := ⟨0x40800000, 16, 8, 10⟩
/-- R481 RING-8, RW: Background share, 1 to 15 of 16 local slots; a count -/
def RING_CTL_BG_SHARE : Field := ⟨0x40800000, 12, 4, 2⟩
/-- R481 RING-8, RO: 1: listed in the current map -/
def RING_STATUS_JOINED : Field := ⟨0x40800004, 31, 1, 0⟩
/-- R481 RING-8, RO: 1: through; 0: bypass -/
def RING_STATUS_SWITCH : Field := ⟨0x40800004, 30, 1, 0⟩
/-- R481 RING-8, RO: 0 none; 1 worker; 2 deputy; 3 manager -/
def RING_STATUS_ROLE : Field := ⟨0x40800004, 28, 2, 0⟩
/-- R481 RING-8, RO: 1: transit-only (R475) -/
def RING_STATUS_TRANSIT : Field := ⟨0x40800004, 27, 1, 0⟩
/-- R481 RING-8, RO: 1: ring at the muted rate -/
def RING_STATUS_MUTED : Field := ⟨0x40800004, 26, 1, 0⟩
/-- R481 RING-8, RO: Ring rate code -/
def RING_STATUS_RATE : Field := ⟨0x40800004, 24, 2, 0⟩
/-- R481 RING-8, RO: 1: the East segment is open -/
def RING_STATUS_OPEN_E : Field := ⟨0x40800004, 23, 1, 0⟩
/-- R481 RING-8, RO: 1: the West segment is open -/
def RING_STATUS_OPEN_W : Field := ⟨0x40800004, 22, 1, 0⟩
/-- R481 RING-8, RO: 1: quorum held (R474) -/
def RING_STATUS_QUORUM : Field := ⟨0x40800004, 21, 1, 0⟩
/-- R481 RING-8, RO: Own member number; 0 while JOINED is 0 -/
def RING_STATUS_MEMBER : Field := ⟨0x40800004, 16, 5, 0⟩
/-- R481 RING-8, RO: Manager's number, or 0xFF -/
def RING_STATUS_MANAGER : Field := ⟨0x40800004, 8, 8, 255⟩
/-- R481 RING-8, RO: Deputy's number, or 0xFF -/
def RING_STATUS_DEPUTY : Field := ⟨0x40800004, 0, 8, 255⟩
/-- R481 RING-8, W1C: 1: a write was rejected; clearing ERR also clears CODE -/
def RING_CFG_STATUS_ERR : Field := ⟨0x40800008, 31, 1, 0⟩
/-- R481 RING-8, RO: 0x00 none; 0x01 zero count; 0x02 value outside its range -/
def RING_CFG_STATUS_CODE : Field := ⟨0x40800008, 0, 8, 0⟩
/-- R481 RING-8, RO: Ring-protocol level; 0 while JOINED is 0 -/
def RING_LEVEL_LEVEL : Field := ⟨0x4080000c, 16, 16, 0⟩
/-- R481 RING-8, RO: Map EPOCH bits [31:0] -/
def RING_EPOCH_LO_EPOCH : Field := ⟨0x40800010, 0, 32, 0⟩
/-- R481 RING-8, RO: Map EPOCH bits [63:32] -/
def RING_EPOCH_HI_EPOCH : Field := ⟨0x40800014, 0, 32, 0⟩
/-- R481 RING-8, RO: Bit m: Mm ACTIVE in the current map -/
def RING_ACTIVE_MASK : Field := ⟨0x40800018, 0, 32, 0⟩
/-- R481 RING-8, RO: Bit m: Mm TRANSIT -/
def RING_TRANSIT_MASK : Field := ⟨0x4080001c, 0, 32, 0⟩
/-- R481 RING-8, RO: Bit m: Mm FAILED -/
def RING_FAILED_MASK : Field := ⟨0x40800020, 0, 32, 0⟩
/-- R481 RING-8, RO: 1: East neighbour known -/
def RING_NEIGH_E_VALID : Field := ⟨0x40800024, 31, 1, 0⟩
/-- R481 RING-8, RO: 1: East neighbour is an IXR-2208 -/
def RING_NEIGH_E_2208 : Field := ⟨0x40800024, 30, 1, 0⟩
/-- R481 RING-8, RO: East neighbour's number -/
def RING_NEIGH_EAST : Field := ⟨0x40800024, 24, 5, 0⟩
/-- R481 RING-8, RO: 1: West neighbour known -/
def RING_NEIGH_W_VALID : Field := ⟨0x40800024, 15, 1, 0⟩
/-- R481 RING-8, RO: 1: West neighbour is an IXR-2208 -/
def RING_NEIGH_W_2208 : Field := ⟨0x40800024, 14, 1, 0⟩
/-- R481 RING-8, RO: West neighbour's number -/
def RING_NEIGH_WEST : Field := ⟨0x40800024, 8, 5, 0⟩
/-- R481 RING-8, W1C: Quorum lost for 20 ms -/
def RING_EVT_QUORUM_LOST : Field := ⟨0x40800028, 5, 1, 0⟩
/-- R481 RING-8, W1C: Ring rate changed -/
def RING_EVT_RATE : Field := ⟨0x40800028, 4, 1, 0⟩
/-- R481 RING-8, W1C: An own segment opened or closed -/
def RING_EVT_SEGMENT : Field := ⟨0x40800028, 3, 1, 0⟩
/-- R481 RING-8, W1C: Own role changed -/
def RING_EVT_ROLE : Field := ⟨0x40800028, 2, 1, 0⟩
/-- R481 RING-8, W1C: A map marked a member FAILED -/
def RING_EVT_MEMBER_FAILED : Field := ⟨0x40800028, 1, 1, 0⟩
/-- R481 RING-8, W1C: A new map took effect -/
def RING_EVT_MAP : Field := ⟨0x40800028, 0, 1, 0⟩
/-- R481 RING-8, RC: Local flits sent -/
def RING_TX_FLITS_COUNT : Field := ⟨0x40800040, 0, 32, 0⟩
/-- R481 RING-8, RC: Flits taken for this member -/
def RING_RX_FLITS_COUNT : Field := ⟨0x40800044, 0, 32, 0⟩
/-- R481 RING-8, RC: Codewords corrected -/
def RING_FEC_CORR_COUNT : Field := ⟨0x40800048, 0, 32, 0⟩
/-- R481 RING-8, RC: Codewords discarded (R458) -/
def RING_FEC_UNCORR_COUNT : Field := ⟨0x4080004c, 0, 32, 0⟩
/-- R481 RING-8, RC: Flits dropped (R460, R461) -/
def RING_AUTH_ERR_COUNT : Field := ⟨0x40800050, 0, 32, 0⟩
/-- R481 RING-8, RC: Frame attempts after the first -/
def RING_RETRIES_COUNT : Field := ⟨0x40800054, 0, 32, 0⟩
/-- R481 RING-8, RC: Frames failed by timeout -/
def RING_TIMEOUTS_COUNT : Field := ⟨0x40800058, 0, 32, 0⟩
/-- R481 RING-8, RC: Unicast flits removed at their source (R462) -/
def RING_ORPHAN_COUNT : Field := ⟨0x4080005c, 0, 32, 0⟩
/-- R509 CHD-6, RW: 1: the engine serves requests and volumes -/
def CHD_CTL_EN : Field := ⟨0x40900000, 31, 1, 0⟩
/-- R509 CHD-6, WO: 1: make the target slot active (R508); code 0x07 without RESHAPE_DONE -/
def CHD_CTL_SWITCH : Field := ⟨0x40900000, 4, 1, 0⟩
/-- R509 CHD-6, WO: 1: start or resume a reshape (R505) -/
def CHD_CTL_RESHAPE : Field := ⟨0x40900000, 3, 1, 0⟩
/-- R509 CHD-6, WO: 1: recover the restored journal (R495); code 0x08 without JNL_RESTORED -/
def CHD_CTL_RECOVER : Field := ⟨0x40900000, 2, 1, 0⟩
/-- R509 CHD-6, WO: 1: check and commit the staged layout of SLOT -/
def CHD_CTL_COMMIT : Field := ⟨0x40900000, 1, 1, 0⟩
/-- R509 CHD-6, RW: Layout slot reached by the CHD_L registers -/
def CHD_CTL_SLOT : Field := ⟨0x40900000, 0, 1, 0⟩
/-- R509 CHD-6, RO: 1: a layout is active -/
def CHD_STATUS_READY : Field := ⟨0x40900004, 31, 1, 0⟩
/-- R509 CHD-6, RO: Active slot -/
def CHD_STATUS_ACTIVE : Field := ⟨0x40900004, 30, 1, 0⟩
/-- R509 CHD-6, RO: 1: a scan (R498) or a recovery runs -/
def CHD_STATUS_REBUILD : Field := ⟨0x40900004, 29, 1, 0⟩
/-- R509 CHD-6, RO: 1: a reshape runs or is suspended -/
def CHD_STATUS_RESHAPE : Field := ⟨0x40900004, 28, 1, 0⟩
/-- R509 CHD-6, RO: R508 -/
def CHD_STATUS_RESHAPE_DONE : Field := ⟨0x40900004, 27, 1, 0⟩
/-- R509 CHD-6, RO: 1: a restored journal awaits RECOVER -/
def CHD_STATUS_JNL_RESTORED : Field := ⟨0x40900004, 26, 1, 0⟩
/-- R509 CHD-6, RO: R502 -/
def CHD_STATUS_LOST_FULL : Field := ⟨0x40900004, 25, 1, 0⟩
/-- R509 CHD-6, RO: 1: an owned chord has an unspared strip -/
def CHD_STATUS_DEGRADED : Field := ⟨0x40900004, 24, 1, 0⟩
/-- R509 CHD-6, RO: Partner member, or 0xFF -/
def CHD_STATUS_PARTNER : Field := ⟨0x40900004, 16, 8, 255⟩
/-- R509 CHD-6, RO: Member whose volume is adopted, or 0xFF -/
def CHD_STATUS_ADOPTED : Field := ⟨0x40900004, 8, 8, 255⟩
/-- R509 CHD-6, RO: Failure-list length of the active layout -/
def CHD_STATUS_FAILS : Field := ⟨0x40900004, 0, 8, 0⟩
/-- R509 CHD-6, W1C: 1: a write was rejected; clearing ERR also clears CODE -/
def CHD_CFG_STATUS_ERR : Field := ⟨0x40900008, 31, 1, 0⟩
/-- R509 CHD-6, RO. -/
def CHD_CFG_STATUS_CODE : Field := ⟨0x40900008, 0, 8, 0⟩
/-- R509 CHD-6, RW: Strip namespace, 1 to 16 -/
def CHD_STRIP_NSID : Field := ⟨0x40900010, 24, 5, 0⟩
/-- R509 CHD-6, RW: Strip positions, 1 to 16,777,215; a count; code 0x04 while READY -/
def CHD_STRIP_P : Field := ⟨0x40900010, 0, 24, 0⟩
/-- R509 CHD-6, RW: 1: the adopted volume is served; cleared by firmware to end the adoption -/
def CHD_VOL_ADOPT_EN : Field := ⟨0x40900014, 31, 1, 0⟩
/-- R509 CHD-6, RW: Namespace of the adopted volume, 1 to 16 -/
def CHD_VOL_ADOPT_NS : Field := ⟨0x40900014, 8, 5, 0⟩
/-- R509 CHD-6, RW: Namespace of the own volume, 1 to 16 -/
def CHD_VOL_VOL_NS : Field := ⟨0x40900014, 0, 5, 0⟩
/-- R509 CHD-6, RW: Chord-area buffer address bits [31:12] -/
def CHD_STAGE_LO_ADDR : Field := ⟨0x40900018, 12, 20, 0⟩
/-- R509 CHD-6, RW: Address bits [33:32] -/
def CHD_STAGE_HI_ADDR : Field := ⟨0x4090001c, 0, 2, 0⟩
/-- R509 CHD-6, RW: Staging slots per source, 1 to 64; a count -/
def CHD_STAGE_SLOTS_SLOTS : Field := ⟨0x40900020, 0, 7, 16⟩
/-- R509 CHD-7, RWC: SEED bits [31:0] -/
def CHD_L_SEED_LO_SEED : Field := ⟨0x40900040, 0, 32, 0⟩
/-- R509 CHD-7, RWC: SEED bits [63:32] -/
def CHD_L_SEED_HI_SEED : Field := ⟨0x40900044, 0, 32, 0⟩
/-- R509 CHD-7, RWC: Bit m: Mm in the roster; 2 to 32 bits set -/
def CHD_L_ROSTER_MASK : Field := ⟨0x40900048, 0, 32, 0⟩
/-- R509 CHD-7, RWC: k, 2 to 24 -/
def CHD_L_GEOM_K : Field := ⟨0x4090004c, 24, 5, 0⟩
/-- R509 CHD-7, RWC: m, 1 to 4 -/
def CHD_L_GEOM_M : Field := ⟨0x4090004c, 16, 3, 0⟩
/-- R509 CHD-7, RWC: 0 to 4 -/
def CHD_L_GEOM_SPARE : Field := ⟨0x4090004c, 8, 3, 0⟩
/-- R509 CHD-7, RWC: 0 to P − 1 -/
def CHD_L_BASE_BASE : Field := ⟨0x40900050, 0, 24, 0⟩
/-- R509 CHD-7, RWC: Multiple of n, 1 to P; a count -/
def CHD_L_ROWS_ROWS : Field := ⟨0x40900054, 0, 24, 0⟩
/-- R509 CHD-7, RO: R489 of the committed layout -/
def CHD_L_LCHK_LO_LCHK : Field := ⟨0x40900058, 0, 32, 0⟩
/-- R509 CHD-7, RO: R489 of the committed layout -/
def CHD_L_LCHK_HI_LCHK : Field := ⟨0x4090005c, 0, 32, 0⟩
/-- R509 CHD-7, RO: Byte j: failure-list entry 4i + j, or 0xFF -/
def CHD_L_FAIL_FAIL (i : Nat) : Field := ⟨0x40900060 + 0x4 * i, 0, 32, 4294967295⟩
/-- R509 CHD-8, RO: Owned chord the scan has reached, bits [31:0] and [63:32] -/
def CHD_SCAN_LO_U : Field := ⟨0x40900080, 0, 32, 0⟩
/-- R509 CHD-8, RO: Owned chord the scan has reached, bits [31:0] and [63:32] -/
def CHD_SCAN_HI_U : Field := ⟨0x40900084, 0, 32, 0⟩
/-- R509 CHD-8, RO: Reshape boundary (R506) -/
def CHD_B_LO_B : Field := ⟨0x40900088, 0, 32, 0⟩
/-- R509 CHD-8, RO: Reshape boundary (R506) -/
def CHD_B_HI_B : Field := ⟨0x4090008c, 0, 32, 0⟩
/-- R509 CHD-8, RO: Reshape checkpoint -/
def CHD_K_LO_K : Field := ⟨0x40900090, 0, 32, 0⟩
/-- R509 CHD-8, RO: Reshape checkpoint -/
def CHD_K_HI_K : Field := ⟨0x40900094, 0, 32, 0⟩
/-- R509 CHD-8, RO: Open own records, 0 to 65,536 -/
def CHD_JNL_OWN_OPEN : Field := ⟨0x409000a0, 0, 17, 0⟩
/-- R509 CHD-8, RO: Open mirrored records, 0 to 65,536 -/
def CHD_JNL_MIR_OPEN : Field := ⟨0x409000a4, 0, 17, 0⟩
/-- R509 CHD-8, RW: Entry read by the next four registers -/
def CHD_LOST_IDX_IDX : Field := ⟨0x409000b0, 0, 16, 0⟩
/-- R509 CHD-8, RO: Entries held, 0 to 65,536 -/
def CHD_LOST_COUNT_COUNT : Field := ⟨0x409000b4, 0, 17, 0⟩
/-- R509 CHD-8, RO: First 8 bytes of entry IDX (R502); 0 beyond COUNT -/
def CHD_LOST_CHORD_LO_ENTRY : Field := ⟨0x409000b8, 0, 32, 0⟩
/-- R509 CHD-8, RO: First 8 bytes of entry IDX (R502); 0 beyond COUNT -/
def CHD_LOST_CHORD_HI_ENTRY : Field := ⟨0x409000bc, 0, 32, 0⟩
/-- R509 CHD-8, RO: Offset mask of entry IDX -/
def CHD_LOST_MASK_LO_MASK : Field := ⟨0x409000c0, 0, 32, 0⟩
/-- R509 CHD-8, RO: Offset mask of entry IDX -/
def CHD_LOST_MASK_HI_MASK : Field := ⟨0x409000c4, 0, 32, 0⟩
/-- R509 CHD-8, RC: Records closed -/
def CHD_WRITES_COUNT : Field := ⟨0x409000e0, 0, 32, 0⟩
/-- R509 CHD-8, RC: Host blocks read by reconstruction -/
def CHD_DEGRADED_COUNT : Field := ⟨0x409000e4, 0, 32, 0⟩
/-- R509 CHD-8, RC: Blocks reconstructed for any purpose -/
def CHD_RECON_COUNT : Field := ⟨0x409000e8, 0, 32, 0⟩
/-- R509 CHD-8, RC: Strips rebuilt onto spares -/
def CHD_REBUILT_COUNT : Field := ⟨0x409000ec, 0, 32, 0⟩
/-- R509 CHD-8, RC: Offsets entered in the lost-chord map -/
def CHD_LOST_NEW_COUNT : Field := ⟨0x409000f0, 0, 32, 0⟩
/-- R520 EVR-3, RW: 1: records also go to the HBM ring -/
def EVR_CTL_EN : Field := ⟨0x40700000, 31, 1, 0⟩
/-- R520 EVR-3, RW: Default burst, 1 to 255; a count -/
def EVR_CTL_DEF_BURST : Field := ⟨0x40700000, 16, 8, 8⟩
/-- R520 EVR-3, RW: Default refill, 1 to 65,535 s; a count -/
def EVR_CTL_DEF_REFILL : Field := ⟨0x40700000, 0, 16, 60⟩
/-- R520 EVR-3, RO: 1: R512 complete -/
def EVR_STATUS_SEQ_VALID : Field := ⟨0x40700004, 31, 1, 0⟩
/-- R520 EVR-3, RO: FIFO records, 0 to 32 -/
def EVR_STATUS_PENDING : Field := ⟨0x40700004, 8, 8, 0⟩
/-- R520 EVR-3, RO: Codes holding bucket state, 0 to 128 -/
def EVR_STATUS_RL_USED : Field := ⟨0x40700004, 0, 8, 0⟩
/-- R520 EVR-3, W1C: 1: a write was rejected; clearing ERR also clears CODE -/
def EVR_CFG_STATUS_ERR : Field := ⟨0x40700008, 31, 1, 0⟩
/-- R520 EVR-3, RO: 0x00 none; 0x01 zero count; 0x02 value outside its range; 0x03 ring base written while EN is 1 -/
def EVR_CFG_STATUS_CODE : Field := ⟨0x40700008, 0, 8, 0⟩
/-- R520 EVR-3, RW: Buffer address bits [33:22] -/
def EVR_RING_BASE_ADDR : Field := ⟨0x4070000c, 0, 12, 0⟩
/-- R520 EVR-3, RO: SEQ of the next record to enter the HBM ring (R515), bits [31:0] and [63:32]; unchanged while EN is 0 -/
def EVR_HEAD_LO_SEQ : Field := ⟨0x40700010, 0, 32, 0⟩
/-- R520 EVR-3, RO: SEQ of the next record to enter the HBM ring (R515), bits [31:0] and [63:32]; unchanged while EN is 0 -/
def EVR_HEAD_HI_SEQ : Field := ⟨0x40700014, 0, 32, 0⟩
/-- R520 EVR-3, RO: SEQ below which the ring is complete -/
def EVR_DONE_LO_SEQ : Field := ⟨0x40700018, 0, 32, 0⟩
/-- R520 EVR-3, RO: SEQ below which the ring is complete -/
def EVR_DONE_HI_SEQ : Field := ⟨0x4070001c, 0, 32, 0⟩
/-- R520 EVR-3, RO: Oldest archived SEQ -/
def EVR_ARCH_LO_SEQ : Field := ⟨0x40700020, 0, 32, 0⟩
/-- R520 EVR-3, RO: Oldest archived SEQ -/
def EVR_ARCH_HI_SEQ : Field := ⟨0x40700024, 0, 32, 0⟩
/-- R520 EVR-3, WO: 0 to 4 -/
def EVR_RAISE_SEVERITY : Field := ⟨0x40700030, 24, 3, 0⟩
/-- R520 EVR-3, WO: 0x8000 to 0xFFFF -/
def EVR_RAISE_CODE : Field := ⟨0x40700030, 0, 16, 0⟩
/-- R520 EVR-3, RW: Payload bytes 4i to 4i + 3 -/
def EVR_RAISE_P_DATA (i : Nat) : Field := ⟨0x40700040 + 0x4 * i, 0, 32, 0⟩
/-- R520 EVR-3, RW: Override entry, 0 to 63 -/
def EVR_RL_SEL_ENTRY : Field := ⟨0x40700080, 0, 6, 0⟩
/-- R520 EVR-3, RW: 1: entry in use -/
def EVR_RL_CODE_EN : Field := ⟨0x40700084, 31, 1, 0⟩
/-- R520 EVR-3, RW: 1: the code is never limited -/
def EVR_RL_CODE_UNLIMITED : Field := ⟨0x40700084, 30, 1, 0⟩
/-- R520 EVR-3, RW: Code of the entry -/
def EVR_RL_CODE_CODE : Field := ⟨0x40700084, 0, 16, 0⟩
/-- R520 EVR-3, RW: 1 to 255; a count -/
def EVR_RL_RATE_BURST : Field := ⟨0x40700088, 24, 8, 8⟩
/-- R520 EVR-3, RW: 1 to 65,535 s; a count -/
def EVR_RL_RATE_REFILL : Field := ⟨0x40700088, 0, 16, 60⟩
/-- R520 EVR-3, RC: Records written -/
def EVR_RECORDED_COUNT : Field := ⟨0x407000c0, 0, 32, 0⟩
/-- R520 EVR-3, RC: Events dropped by the rate limit -/
def EVR_SUPPRESSED_COUNT : Field := ⟨0x407000c4, 0, 32, 0⟩
/-- R520 EVR-3, RC: Events dropped before step 9 (R512) -/
def EVR_FIFO_DROP_COUNT : Field := ⟨0x407000c8, 0, 32, 0⟩
/-- R520 EVR-3, RC: Events recorded without limiting (R514) -/
def EVR_RL_OVF_COUNT : Field := ⟨0x407000cc, 0, 32, 0⟩

end Reg

/-- The registers of block SYS. -/
def regsSYS : List RegDef := [
  ⟨0x40000000, [], [⟨8, 8, .ro, 0, .any⟩, ⟨16, 16, .ro, 18454, .any⟩]⟩ /- SYS_ID -/,
  ⟨0x40000004, [], [⟨0, 4, .ro, 0, .any⟩, ⟨4, 1, .ro, 0, .any⟩, ⟨5, 1, .ro, 0, .any⟩, ⟨6, 2, .ro, 0, .any⟩, ⟨8, 1, .ro, 0, .any⟩, ⟨9, 1, .ro, 0, .any⟩]⟩ /- SYS_STRAP -/,
  ⟨0x40000010, [], [⟨0, 1, .w1c, 1, .any⟩, ⟨1, 1, .w1c, 0, .any⟩, ⟨2, 1, .w1c, 0, .any⟩, ⟨3, 1, .w1c, 0, .any⟩, ⟨4, 1, .w1c, 0, .any⟩, ⟨5, 1, .w1c, 0, .any⟩, ⟨6, 1, .w1c, 0, .any⟩, ⟨7, 1, .w1c, 0, .any⟩]⟩ /- SYS_RST_CAUSE -/,
  ⟨0x40000014, [], [⟨0, 1, .wo, 0, .any⟩, ⟨16, 16, .wo, 0, .any⟩]⟩ /- SYS_RST_CTL -/,
  ⟨0x40000018, [], [⟨0, 20, .rw, 1000, .rng 1 1048575 7⟩, ⟨31, 1, .rw, 0, .any⟩]⟩ /- SYS_WDOG_CTL -/,
  ⟨0x4000001c, [], [⟨0, 32, .wo, 0, .any⟩]⟩ /- SYS_WDOG_KICK -/,
  ⟨0x40000100, [(0x4, 3)], [⟨0, 32, .rw, 0, .any⟩]⟩ /- SYS_PD_REQ -/,
  ⟨0x40000110, [(0x4, 3)], [⟨0, 32, .ro, 0, .any⟩]⟩ /- SYS_PD_STAT -/,
  ⟨0x40000120, [], [⟨0, 7, .ro, 0, .any⟩, ⟨8, 8, .ro, 0, .any⟩, ⟨30, 1, .w1c, 0, .any⟩, ⟨31, 1, .ro, 0, .any⟩]⟩ /- SYS_CFG_STATUS -/,
  ⟨0x40000200, [], [⟨0, 32, .w1c, 0, .any⟩]⟩ /- SYS_CLK_FAULT0 -/,
  ⟨0x40000204, [], [⟨0, 12, .w1c, 0, .any⟩]⟩ /- SYS_CLK_FAULT1 -/,
  ⟨0x40000300, [], [⟨0, 3, .rw, 0, .rng 0 3 6⟩, ⟨8, 2, .ro, 0, .any⟩, ⟨16, 2, .ro, 0, .any⟩]⟩ /- SYS_PWR_STATE -/,
  ⟨0x40000400, [], [⟨8, 8, .ro, 0, .any⟩, ⟨30, 1, .ro, 0, .any⟩, ⟨31, 1, .ro, 0, .any⟩]⟩ /- SYS_FUSE_STAT -/,
  ⟨0x40000510, [], [⟨0, 32, .rwl, 0, .any⟩]⟩ /- SYS_AFE_FIT0 -/,
  ⟨0x40000514, [], [⟨0, 16, .rwl, 0, .any⟩, ⟨31, 1, .w1s, 0, .any⟩]⟩ /- SYS_AFE_FIT1 -/,
  ⟨0x40000500, [], [⟨0, 8, .rw, 0, .any⟩, ⟨29, 1, .w1c, 0, .any⟩, ⟨30, 1, .w1c, 0, .any⟩, ⟨31, 1, .rw, 0, .any⟩]⟩ /- SYS_FLIP_SEL -/,
  ⟨0x40000504, [], [⟨0, 7, .rw, 0, .any⟩, ⟨15, 1, .rw, 0, .any⟩, ⟨16, 7, .rw, 0, .any⟩, ⟨31, 1, .rw, 0, .any⟩]⟩ /- SYS_FLIP_MASK -/]
/-- The registers of block CHN (1). -/
def regsCHN0 : List RegDef := [
  ⟨0x40a00000, [(0x10000, 16)], [⟨0, 1, .rw, 1, .any⟩, ⟨1, 1, .rw, 1, .any⟩, ⟨4, 1, .rw, 0, .any⟩, ⟨8, 1, .rw, 0, .any⟩]⟩ /- CHN_FE_CTL -/,
  ⟨0x40a00004, [(0x10000, 16)], [⟨0, 6, .ro, 0, .any⟩, ⟨8, 3, .ro, 0, .any⟩, ⟨16, 4, .ro, 0, .any⟩, ⟨30, 1, .ro, 0, .any⟩, ⟨31, 1, .ro, 0, .any⟩]⟩ /- CHN_FE_STATUS -/,
  ⟨0x40a00008, [(0x10000, 16)], [⟨0, 7, .rw, 16, .count 8 64⟩, ⟨8, 7, .rw, 30, .rng 10 60 2⟩, ⟨16, 8, .rw, 24, .rng 8 63 2⟩]⟩ /- CHN_FE_DEFECT -/,
  ⟨0x40a0000c, [(0x10000, 16)], [⟨0, 6, .rw, 29, .rng 16 40 2⟩, ⟨8, 4, .rw, 6, .any⟩]⟩ /- CHN_FE_CTF -/,
  ⟨0x40a00010, [(0x10000, 16)], [⟨0, 6, .rw, 40, .rng 24 56 2⟩]⟩ /- CHN_FE_GAIN_TARGET -/,
  ⟨0x40a00020, [(0x10000, 16), (0x4, 3)], [⟨0, 8, .ro, 0, .any⟩, ⟨8, 8, .ro, 0, .any⟩, ⟨16, 8, .ro, 0, .any⟩, ⟨24, 8, .ro, 0, .any⟩]⟩ /- CHN_FE_STATE -/,
  ⟨0x40a00030, [(0x10000, 16), (0x4, 3)], [⟨0, 16, .ro, 0, .any⟩]⟩ /- CHN_FE_WEIGHT -/,
  ⟨0x40a00040, [(0x10000, 16), (0x4, 12)], [⟨0, 11, .rw, 0, .signed (-512) 512⟩, ⟨16, 11, .rw, 0, .signed (-512) 512⟩]⟩ /- CHN_FE_SKEW -/,
  ⟨0x40a00080, [(0x10000, 16)], [⟨0, 1, .ro, 0, .any⟩, ⟨31, 1, .rw, 0, .any⟩]⟩ /- CHN_FE_SB_CTL -/,
  ⟨0x40a00084, [(0x10000, 16), (0x8, 2)], [⟨0, 16, .ro, 0, .any⟩, ⟨31, 1, .ro, 0, .any⟩]⟩ /- CHN_FE_SB_PSI -/,
  ⟨0x40a00088, [(0x10000, 16), (0x8, 2)], [⟨0, 16, .ro, 0, .any⟩, ⟨16, 16, .ro, 0, .any⟩]⟩ /- CHN_FE_SB_CNT -/,
  ⟨0x40a00098, [(0x10000, 16)], [⟨0, 16, .rw, 0, .any⟩, ⟨17, 2, .rw, 0, .rng 0 2 2⟩, ⟨19, 1, .rw, 0, .any⟩]⟩ /- CHN_FE_SB_ADDR -/,
  ⟨0x40a0009c, [(0x10000, 16)], [⟨0, 8, .ro, 0, .any⟩, ⟨8, 8, .ro, 0, .any⟩, ⟨16, 8, .ro, 0, .any⟩, ⟨24, 8, .ro, 0, .any⟩]⟩ /- CHN_FE_SB_DATA -/,
  ⟨0x40a000a0, [(0x10000, 16)], [⟨0, 32, .rc, 0, .any⟩]⟩ /- CHN_FE_SECTORS -/,
  ⟨0x40a000a4, [(0x10000, 16)], [⟨0, 32, .rc, 0, .any⟩]⟩ /- CHN_FE_TA_CNT -/,
  ⟨0x40a000a8, [(0x10000, 16)], [⟨0, 32, .rc, 0, .any⟩]⟩ /- CHN_FE_DO_CNT -/,
  ⟨0x40a000ac, [(0x10000, 16)], [⟨0, 32, .rc, 0, .any⟩]⟩ /- CHN_FE_ERASED -/,
  ⟨0x40a000b0, [(0x10000, 16), (0x4, 3)], [⟨0, 32, .rc, 0, .any⟩]⟩ /- CHN_FE_CLIP -/,
  ⟨0x40a000bc, [(0x10000, 16)], [⟨0, 32, .rc, 0, .any⟩]⟩ /- CHN_FE_RAIL -/,
  ⟨0x40a000c0, [(0x10000, 16)], [⟨0, 8, .ro, 0, .any⟩, ⟨31, 1, .w1c, 0, .any⟩]⟩ /- CHN_FE_CFG_STATUS -/]
/-- The registers of block CHN (2). -/
def regsCHN1 : List RegDef := [
  ⟨0x40a00100, [(0x10000, 16)], [⟨0, 4, .rw, 4, .rng 0 8 2⟩, ⟨8, 3, .rw, 2, .rng 0 4 2⟩, ⟨12, 2, .rw, 3, .count 1 3⟩, ⟨16, 1, .rw, 0, .any⟩, ⟨20, 1, .rw, 1, .any⟩, ⟨24, 3, .rw, 0, .any⟩]⟩ /- CHN_DET_CTL -/,
  ⟨0x40a00104, [(0x10000, 16)], [⟨0, 8, .rw, 16, .rng 1 63 2⟩, ⟨8, 8, .rw, 28, .signed (-64) 63⟩, ⟨16, 8, .rw, 12, .signed (-64) 63⟩]⟩ /- CHN_DET_TARGET -/,
  ⟨0x40a00108, [(0x10000, 16)], [⟨0, 1, .rw, 1, .any⟩, ⟨8, 4, .rw, 4, .count 1 8⟩]⟩ /- CHN_DET_EQ_CTL -/,
  ⟨0x40a00110, [(0x10000, 16)], [⟨0, 16, .ro, 0, .any⟩, ⟨16, 16, .ro, 0, .any⟩]⟩ /- CHN_DET_SECT_LO -/,
  ⟨0x40a00114, [(0x10000, 16)], [⟨0, 8, .ro, 0, .any⟩, ⟨8, 3, .ro, 0, .any⟩, ⟨11, 7, .ro, 0, .any⟩, ⟨18, 6, .ro, 0, .any⟩, ⟨24, 3, .ro, 0, .any⟩, ⟨27, 1, .ro, 0, .any⟩, ⟨28, 4, .ro, 15, .any⟩]⟩ /- CHN_DET_SECT_HI -/,
  ⟨0x40a00118, [(0x10000, 16)], [⟨0, 6, .ro, 0, .any⟩, ⟨31, 1, .w1c, 0, .any⟩]⟩ /- CHN_DET_FIFO_STAT -/,
  ⟨0x40a00120, [(0x10000, 16)], [⟨0, 32, .rc, 0, .any⟩]⟩ /- CHN_DET_FAST_OK -/,
  ⟨0x40a00124, [(0x10000, 16)], [⟨0, 32, .rc, 0, .any⟩]⟩ /- CHN_DET_DEEP_OK -/,
  ⟨0x40a00128, [(0x10000, 16)], [⟨0, 32, .rc, 0, .any⟩]⟩ /- CHN_DET_SYNC_RECOV -/,
  ⟨0x40a0012c, [(0x10000, 16)], [⟨0, 32, .rc, 0, .any⟩]⟩ /- CHN_DET_FAILED -/,
  ⟨0x40a00130, [(0x10000, 16)], [⟨0, 32, .rc, 0, .any⟩]⟩ /- CHN_DET_MISSED -/,
  ⟨0x40a00140, [(0x10000, 16)], [⟨0, 8, .ro, 0, .any⟩, ⟨31, 1, .w1c, 0, .any⟩]⟩ /- CHN_DET_CFG_STATUS -/,
  ⟨0x40a00200, [], [⟨0, 4, .rw, 8, .count 1 8⟩]⟩ /- CHN_DP_CTL -/,
  ⟨0x40a00204, [], [⟨0, 8, .ro, 0, .any⟩, ⟨16, 6, .ro, 0, .any⟩]⟩ /- CHN_DP_STATUS -/,
  ⟨0x40a00208, [], [⟨0, 32, .rc, 0, .any⟩]⟩ /- CHN_DP_ATTEMPTS -/,
  ⟨0x40a00300, [(0x10000, 16)], [⟨0, 1, .rw, 1, .any⟩, ⟨8, 1, .rw, 0, .any⟩]⟩ /- CHN_WR_CTL -/,
  ⟨0x40a00304, [(0x10000, 16)], [⟨0, 12, .ro, 0, .any⟩, ⟨31, 1, .ro, 0, .any⟩]⟩ /- CHN_WR_STATUS -/,
  ⟨0x40a00308, [(0x10000, 16)], [⟨0, 12, .w1c, 0, .any⟩]⟩ /- CHN_WR_CAUSE -/,
  ⟨0x40a00310, [(0x10000, 16)], [⟨0, 6, .rw, 4, .rng 1 32 2⟩, ⟨8, 6, .rw, 16, .rng 4 63 2⟩, ⟨16, 4, .rw, 4, .rng 0 8 2⟩, ⟨20, 4, .rw, 8, .rng 0 8 2⟩, ⟨24, 4, .rw, 2, .any⟩, ⟨28, 4, .rw, 8, .any⟩]⟩ /- CHN_MC_CTL -/,
  ⟨0x40a00314, [(0x10000, 16)], [⟨8, 8, .ro, 0, .any⟩, ⟨30, 1, .ro, 0, .any⟩, ⟨31, 1, .ro, 0, .any⟩]⟩ /- CHN_MC_STATUS -/]
/-- The registers of block CHN (3). -/
def regsCHN2 : List RegDef := [
  ⟨0x40a00318, [(0x10000, 16)], [⟨0, 23, .ro, 0, .any⟩, ⟨23, 9, .ro, 0, .any⟩]⟩ /- CHN_MC_RATIO -/,
  ⟨0x40a0031c, [(0x10000, 16)], [⟨0, 32, .ro, 0, .any⟩]⟩ /- CHN_MC_TRIM -/,
  ⟨0x40a00340, [(0x10000, 16), (0x4, 12)], [⟨0, 6, .rw, 0, .signed (-32) 31⟩]⟩ /- CHN_WR_PHASE -/,
  ⟨0x40a0033c, [(0x10000, 16)], [⟨0, 8, .ro, 0, .any⟩, ⟨31, 1, .w1c, 0, .any⟩]⟩ /- CHN_WR_CFG_STATUS -/,
  ⟨0x40a00320, [(0x10000, 16)], [⟨0, 32, .rc, 0, .any⟩]⟩ /- CHN_WR_SECTORS -/,
  ⟨0x40a00324, [(0x10000, 16)], [⟨0, 32, .rc, 0, .any⟩]⟩ /- CHN_WR_ABORTED -/,
  ⟨0x40a00328, [(0x10000, 16)], [⟨0, 32, .rc, 0, .any⟩]⟩ /- CHN_WR_UNDERRUN -/,
  ⟨0x40a0032c, [(0x10000, 16)], [⟨0, 32, .rc, 0, .any⟩]⟩ /- CHN_MC_UNLOCKS -/,
  ⟨0x40a00330, [(0x10000, 16)], [⟨0, 32, .rc, 0, .any⟩]⟩ /- CHN_MC_COAST -/,
  ⟨0x40a00400, [(0x40000, 4)], [⟨0, 2, .rw, 1, .rng 0 2 2⟩]⟩ /- CHN_PA_CTL -/,
  ⟨0x40a00404, [(0x40000, 4)], [⟨0, 16, .wo, 0, .any⟩, ⟨16, 7, .wo, 0, .any⟩, ⟨23, 1, .wo, 0, .any⟩]⟩ /- CHN_PA_CMD -/,
  ⟨0x40a00408, [(0x40000, 4)], [⟨0, 16, .ro, 0, .any⟩]⟩ /- CHN_PA_RDATA -/,
  ⟨0x40a0040c, [(0x40000, 4)], [⟨0, 1, .w1c, 0, .any⟩, ⟨1, 1, .w1c, 0, .any⟩, ⟨31, 1, .ro, 0, .any⟩]⟩ /- CHN_PA_STATUS -/,
  ⟨0x40a00500, [], [⟨0, 12, .rw, 512, .rng 1 2047 2⟩, ⟨12, 12, .rw, 1024, .rng 1 2047 2⟩, ⟨24, 5, .rw, 0, .any⟩]⟩ /- CHN_SHK_CTL -/,
  ⟨0x40a00504, [], [⟨0, 5, .w1c, 0, .any⟩]⟩ /- CHN_SHK_STATUS -/]
/-- The registers of block CHN. -/
def regsCHN : List RegDef := regsCHN0 ++ regsCHN1 ++ regsCHN2
/-- The registers of block FMT. -/
def regsFMT : List RegDef := [
  ⟨0x40c00000, [(0x40000, 4)], [⟨0, 8, .rw, 32, .count 2 128⟩, ⟨8, 4, .rw, 3, .count 1 15⟩, ⟨14, 1, .rw, 0, .any⟩, ⟨15, 1, .wo, 0, .any⟩, ⟨16, 16, .wo, 0, .any⟩]⟩ /- FMT_CTL -/,
  ⟨0x40c00004, [(0x40000, 4)], [⟨16, 4, .ro, 0, .any⟩, ⟨20, 4, .ro, 0, .any⟩, ⟨30, 1, .ro, 0, .any⟩, ⟨31, 1, .ro, 1, .any⟩]⟩ /- FMT_STATUS -/,
  ⟨0x40c00008, [(0x40000, 4)], [⟨0, 13, .ro, 0, .any⟩, ⟨25, 1, .ro, 0, .any⟩, ⟨26, 2, .ro, 0, .any⟩, ⟨28, 3, .ro, 0, .any⟩, ⟨31, 1, .ro, 0, .any⟩]⟩ /- FMT_MCHK -/,
  ⟨0x40c0000c, [(0x40000, 4)], [⟨0, 8, .ro, 0, .any⟩, ⟨31, 1, .w1c, 0, .any⟩]⟩ /- FMT_CFG_STATUS -/,
  ⟨0x40c00010, [(0x40000, 4)], [⟨0, 1, .wo, 0, .any⟩, ⟨31, 1, .ro, 0, .any⟩]⟩ /- FMT_COURSE_CTL -/,
  ⟨0x40c00020, [(0x40000, 4), (0x4, 4)], [⟨0, 24, .rwc, 0, .any⟩, ⟨24, 4, .rwc, 0, .rng 0 11 2⟩, ⟨30, 1, .rwc, 0, .any⟩, ⟨31, 1, .rwc, 0, .any⟩]⟩ /- FMT_MEMBER -/,
  ⟨0x40c00014, [(0x40000, 4)], [⟨0, 32, .rwc, 0, .any⟩]⟩ /- FMT_COURSE_X_LO -/,
  ⟨0x40c00018, [(0x40000, 4)], [⟨0, 4, .rwc, 0, .any⟩]⟩ /- FMT_COURSE_X_HI -/,
  ⟨0x40c00040, [(0x40000, 4)], [⟨0, 16, .rw, 0, .any⟩, ⟨16, 12, .rw, 0, .count 1 2048⟩, ⟨28, 2, .rw, 0, .any⟩, ⟨31, 1, .rw, 0, .any⟩]⟩ /- FMT_RUN_D0 -/,
  ⟨0x40c00044, [(0x40000, 4)], [⟨0, 31, .rw, 0, .any⟩]⟩ /- FMT_RUN_D1 -/,
  ⟨0x40c00048, [(0x40000, 4)], [⟨0, 16, .wo, 0, .any⟩]⟩ /- FMT_RUN_D2 -/,
  ⟨0x40c00050, [(0x40000, 4)], [⟨0, 16, .rc, 0, .any⟩, ⟨16, 2, .rc, 0, .any⟩, ⟨24, 1, .rc, 0, .any⟩, ⟨31, 1, .rc, 0, .any⟩]⟩ /- FMT_DONE -/,
  ⟨0x40c00060, [(0x40000, 4)], [⟨0, 32, .ro, 0, .any⟩]⟩ /- FMT_ROM_CRC -/,
  ⟨0x40c00064, [(0x40000, 4)], [⟨0, 32, .rc, 0, .any⟩]⟩ /- FMT_SWEEP_PASSES -/,
  ⟨0x40c00068, [(0x40000, 4)], [⟨0, 32, .rc, 0, .any⟩]⟩ /- FMT_MISSED -/,
  ⟨0x40c00080, [(0x40000, 4)], [⟨0, 8, .rw, 0, .any⟩, ⟨8, 2, .ro, 0, .any⟩]⟩ /- FMT_CAPO_ADDR -/,
  ⟨0x40c00084, [(0x40000, 4)], [⟨0, 32, .rw, 0, .any⟩]⟩ /- FMT_CAPO_DATA -/,
  ⟨0x40c00088, [(0x40000, 4)], [⟨0, 32, .wo, 0, .any⟩]⟩ /- FMT_CAPO_VERIFY -/,
  ⟨0x40c0008c, [(0x40000, 4)], [⟨0, 9, .ro, 0, .any⟩, ⟨24, 3, .ro, 0, .any⟩, ⟨30, 1, .ro, 0, .any⟩, ⟨31, 1, .ro, 0, .any⟩]⟩ /- FMT_CAPO_STATUS -/,
  ⟨0x40c00100, [(0x40000, 4), (0x4, 32)], [⟨0, 8, .rw, 0, .any⟩, ⟨8, 13, .rw, 0, .any⟩, ⟨31, 1, .rw, 0, .any⟩]⟩ /- FMT_CAPO_MATCH -/]
/-- The registers of block SRV. -/
def regsSRV : List RegDef := [
  ⟨0x40d00000, [(0x10000, 4)], [⟨0, 8, .rw, 8, .rng 2 64 2⟩, ⟨8, 8, .rw, 64, .rng 8 128 2⟩, ⟨16, 4, .rw, 4, .count 1 15⟩, ⟨20, 12, .rw, 64, .count 1 4095⟩]⟩ /- SRV_CTL -/,
  ⟨0x40d00004, [(0x10000, 4)], [⟨0, 8, .ro, 0, .any⟩, ⟨8, 4, .w1c, 0, .any⟩, ⟨16, 1, .ro, 0, .any⟩]⟩ /- SRV_STATUS -/,
  ⟨0x40d00008, [(0x10000, 4)], [⟨0, 8, .ro, 0, .any⟩, ⟨31, 1, .w1c, 0, .any⟩]⟩ /- SRV_CFG_STATUS -/,
  ⟨0x40d0000c, [(0x10000, 4)], [⟨0, 2, .rw, 1, .any⟩, ⟨8, 6, .rw, 40, .rng 24 56 2⟩]⟩ /- SRV_SCTL -/,
  ⟨0x40d00010, [(0x10000, 4), (0x4, 4)], [⟨0, 8, .rw, 0, .any⟩, ⟨16, 4, .rw, 0, .rng 0 11 2⟩, ⟨31, 1, .rw, 0, .any⟩]⟩ /- SRV_SRC -/,
  ⟨0x40d00040, [(0x10000, 4), (0x4, 12)], [⟨0, 8, .rw, 128, .any⟩]⟩ /- SRV_SGAIN -/,
  ⟨0x40d00080, [(0x10000, 4), (0x8, 4)], [⟨0, 24, .ro, 0, .any⟩, ⟨26, 6, .ro, 0, .any⟩]⟩ /- SRV_POS_LO -/,
  ⟨0x40d00084, [(0x10000, 4), (0x8, 4)], [⟨0, 12, .ro, 0, .any⟩, ⟨17, 4, .ro, 0, .any⟩, ⟨21, 9, .ro, 0, .any⟩, ⟨30, 1, .ro, 0, .any⟩, ⟨31, 1, .ro, 0, .any⟩]⟩ /- SRV_POS_HI -/,
  ⟨0x40d000c0, [(0x10000, 4)], [⟨0, 32, .rc, 0, .any⟩]⟩ /- SRV_VALID -/,
  ⟨0x40d000c4, [(0x10000, 4)], [⟨0, 32, .rc, 0, .any⟩]⟩ /- SRV_SAM_MISS -/,
  ⟨0x40d000c8, [(0x10000, 4)], [⟨0, 32, .rc, 0, .any⟩]⟩ /- SRV_TID_ERR -/,
  ⟨0x40d000cc, [(0x10000, 4)], [⟨0, 32, .rc, 0, .any⟩]⟩ /- SRV_CHEV_ERR -/,
  ⟨0x40d000d0, [(0x10000, 4)], [⟨0, 32, .rc, 0, .any⟩]⟩ /- SRV_CLK_ERR -/,
  ⟨0x40d01000, [(0x10000, 4), (0x40, 12), (0x4, 16)], [⟨0, 32, .rw, 0, .any⟩]⟩ /- SRV_BADW -/,
  ⟨0x40d40000, [], [⟨0, 16, .ro, 0, .any⟩, ⟨16, 4, .ro, 0, .any⟩, ⟨30, 1, .ro, 0, .any⟩, ⟨31, 1, .ro, 0, .any⟩]⟩ /- SRV_REF_STATUS -/,
  ⟨0x40d40004, [], [⟨0, 32, .ro, 0, .any⟩]⟩ /- SRV_WEDGE_TICKS -/,
  ⟨0x40d40008, [], [⟨0, 32, .ro, 0, .any⟩]⟩ /- SRV_REV_TICKS -/]
/-- The registers of block CTL (1). -/
def regsCTL0 : List RegDef := [
  ⟨0x40d80000, [(0x10000, 4)], [⟨0, 1, .rw, 0, .any⟩, ⟨15, 1, .wo, 0, .any⟩, ⟨16, 16, .wo, 0, .any⟩]⟩ /- CTL_LANE_CTL -/,
  ⟨0x40d80004, [(0x10000, 4)], [⟨0, 3, .ro, 0, .any⟩, ⟨16, 4, .ro, 0, .any⟩, ⟨24, 1, .ro, 0, .any⟩, ⟨25, 1, .ro, 0, .any⟩, ⟨26, 1, .w1c, 0, .any⟩, ⟨27, 1, .w1c, 0, .any⟩, ⟨29, 2, .ro, 0, .any⟩, ⟨31, 1, .ro, 0, .any⟩]⟩ /- CTL_LANE_STATUS -/,
  ⟨0x40d80008, [(0x10000, 4)], [⟨0, 8, .ro, 0, .any⟩, ⟨31, 1, .w1c, 0, .any⟩]⟩ /- CTL_CFG_STATUS -/,
  ⟨0x40d8000c, [(0x10000, 4)], [⟨0, 1, .rw, 0, .any⟩, ⟨1, 1, .wo, 0, .any⟩, ⟨31, 1, .ro, 0, .any⟩]⟩ /- CTL_BANK_SEL -/,
  ⟨0x40d80010, [(0x10000, 4)], [⟨0, 20, .rw, 2048, .rng 1 1048575 2⟩]⟩ /- CTL_FE_LIMIT -/,
  ⟨0x40d80014, [(0x10000, 4)], [⟨0, 16, .rw, 8, .count 1 65535⟩]⟩ /- CTL_FE_TIMER -/,
  ⟨0x40d80018, [(0x10000, 4)], [⟨0, 12, .rw, 410, .rng 1 4095 2⟩, ⟨16, 4, .rw, 3, .count 1 15⟩, ⟨24, 4, .rw, 4, .count 1 15⟩]⟩ /- CTL_WU -/,
  ⟨0x40d8001c, [(0x10000, 4)], [⟨0, 16, .rw, 32767, .rng 1 32767 2⟩, ⟨16, 16, .rw, 32767, .rng 1 32767 2⟩]⟩ /- CTL_LIMITS -/,
  ⟨0x40d80020, [(0x10000, 4)], [⟨0, 32, .rw, 0, .any⟩]⟩ /- CTL_SEEK_TGT_LO -/,
  ⟨0x40d80024, [(0x10000, 4)], [⟨0, 4, .rw, 0, .any⟩]⟩ /- CTL_SEEK_TGT_HI -/,
  ⟨0x40d80028, [(0x10000, 4)], [⟨0, 24, .rw, 409600, .rng 1 16777215 2⟩]⟩ /- CTL_SEEK_VMAX -/,
  ⟨0x40d8002c, [(0x10000, 4)], [⟨0, 16, .rw, 4096, .rng 1 65535 2⟩, ⟨16, 16, .rw, 4096, .rng 1 65535 2⟩]⟩ /- CTL_SEEK_ACC -/,
  ⟨0x40d80030, [(0x10000, 4)], [⟨0, 1, .wo, 0, .any⟩]⟩ /- CTL_SEEK_GO -/,
  ⟨0x40d80034, [(0x10000, 4)], [⟨0, 8, .rw, 8, .count 1 255⟩, ⟨16, 12, .rw, 205, .rng 1 4095 2⟩]⟩ /- CTL_SETTLE -/,
  ⟨0x40d80040, [(0x10000, 4), (0x4, 4)], [⟨0, 24, .rw, 0, .any⟩]⟩ /- CTL_SREF -/,
  ⟨0x40d80050, [(0x10000, 4), (0x4, 4)], [⟨0, 32, .rw, 0, .any⟩]⟩ /- CTL_SOFF -/,
  ⟨0x40d80060, [(0x10000, 4), (0x4, 12)], [⟨0, 16, .rw, 0, .any⟩]⟩ /- CTL_HOFS -/,
  ⟨0x40d800a0, [(0x10000, 4)], [⟨0, 2, .rw, 0, .rng 0 2 4⟩, ⟨2, 1, .rw, 0, .any⟩, ⟨3, 1, .rw, 0, .any⟩, ⟨4, 5, .rw, 4, .any⟩, ⟨12, 4, .rw, 0, .any⟩, ⟨16, 16, .rw, 0, .any⟩]⟩ /- CTL_LRN_CTL -/,
  ⟨0x40d800a4, [(0x10000, 4)], [⟨0, 12, .rw, 0, .any⟩]⟩ /- CTL_LRN_HEADS -/,
  ⟨0x40d800a8, [(0x10000, 4)], [⟨0, 9, .rw, 0, .any⟩, ⟨9, 4, .rw, 0, .any⟩]⟩ /- CTL_LRN_ADDR -/]
/-- The registers of block CTL (2). -/
def regsCTL1 : List RegDef := [
  ⟨0x40d800ac, [(0x10000, 4)], [⟨0, 16, .rw, 0, .any⟩, ⟨16, 16, .rw, 0, .any⟩]⟩ /- CTL_LRN_DATA -/,
  ⟨0x40d800b0, [(0x10000, 4)], [⟨0, 13, .ro, 0, .any⟩, ⟨30, 1, .w1c, 0, .any⟩, ⟨31, 1, .w1c, 0, .any⟩]⟩ /- CTL_LRN_ERR -/,
  ⟨0x40d800c0, [(0x10000, 4)], [⟨0, 32, .ro, 0, .any⟩]⟩ /- CTL_EV -/,
  ⟨0x40d800d0, [(0x10000, 4), (0x4, 4)], [⟨0, 24, .ro, 0, .any⟩, ⟨31, 1, .ro, 0, .any⟩]⟩ /- CTL_EH -/,
  ⟨0x40d80100, [(0x10000, 4)], [⟨0, 32, .rc, 0, .any⟩]⟩ /- CTL_GROUPS -/,
  ⟨0x40d80104, [(0x10000, 4)], [⟨0, 32, .rc, 0, .any⟩]⟩ /- CTL_INVALID -/,
  ⟨0x40d80108, [(0x10000, 4)], [⟨0, 32, .rc, 0, .any⟩]⟩ /- CTL_SAT -/,
  ⟨0x40d8010c, [(0x10000, 4)], [⟨0, 32, .rc, 0, .any⟩]⟩ /- CTL_WU_CNT -/,
  ⟨0x40d80110, [(0x10000, 4)], [⟨0, 32, .rc, 0, .any⟩]⟩ /- CTL_FE_CNT -/]
/-- The registers of block CTL. -/
def regsCTL : List RegDef := regsCTL0 ++ regsCTL1
/-- The registers of block MTR. -/
def regsMTR : List RegDef := [
  ⟨0x40e00000, [], [⟨0, 2, .wo, 0, .any⟩, ⟨4, 2, .rw, 1, .any⟩, ⟨8, 1, .rw, 0, .any⟩]⟩ /- MTR_SPN_CTL -/,
  ⟨0x40e00004, [], [⟨20, 3, .ro, 0, .any⟩, ⟨26, 1, .ro, 0, .any⟩, ⟨27, 1, .ro, 0, .any⟩, ⟨28, 4, .ro, 0, .any⟩]⟩ /- MTR_SPN_STATUS -/,
  ⟨0x40e00008, [], [⟨0, 8, .ro, 0, .any⟩, ⟨31, 1, .w1c, 0, .any⟩]⟩ /- MTR_CFG_STATUS -/,
  ⟨0x40e0000c, [], [⟨0, 13, .rw, 7200, .rng 3600 7200 2⟩, ⟨16, 16, .rw, 200, .count 1 2000⟩]⟩ /- MTR_SPN_SET -/,
  ⟨0x40e00010, [], [⟨0, 21, .ro, 0, .any⟩, ⟨30, 1, .ro, 0, .any⟩, ⟨31, 1, .ro, 0, .any⟩]⟩ /- MTR_SPN_SPEED -/,
  ⟨0x40e00014, [], [⟨0, 8, .rw, 30, .count 1 255⟩, ⟨8, 8, .rw, 60, .rng 1 255 2⟩, ⟨16, 8, .rw, 96, .rng 1 255 2⟩, ⟨24, 8, .rw, 200, .count 10 255⟩]⟩ /- MTR_SPN_START -/,
  ⟨0x40e00018, [], [⟨0, 16, .rw, 64, .any⟩, ⟨16, 16, .rw, 2048, .any⟩]⟩ /- MTR_SPN_REG -/,
  ⟨0x40e0001c, [], [⟨0, 8, .rw, 96, .rng 1 255 2⟩, ⟨8, 8, .rw, 160, .rng 1 255 2⟩, ⟨16, 7, .rw, 94, .rng 10 94 2⟩]⟩ /- MTR_SPN_LIMIT -/,
  ⟨0x40e00020, [], [⟨0, 21, .ro, 0, .any⟩, ⟨24, 3, .ro, 0, .any⟩, ⟨30, 1, .ro, 0, .any⟩, ⟨31, 1, .ro, 0, .any⟩]⟩ /- MTR_SENSE -/,
  ⟨0x40e00040, [], [⟨0, 16, .ro, 0, .any⟩, ⟨16, 16, .ro, 0, .any⟩]⟩ /- MTR_VMOT -/,
  ⟨0x40e00044, [], [⟨0, 1, .ro, 0, .any⟩, ⟨1, 1, .ro, 0, .any⟩, ⟨27, 1, .ro, 0, .any⟩, ⟨28, 2, .ro, 0, .any⟩, ⟨30, 1, .w1c, 0, .any⟩, ⟨31, 1, .w1c, 0, .any⟩]⟩ /- MTR_LADDER -/,
  ⟨0x40e00060, [], [⟨0, 8, .rw, 0, .any⟩, ⟨24, 4, .rw, 0, .any⟩]⟩ /- MTR_DRV_CTL -/,
  ⟨0x40e00070, [(0x4, 4)], [⟨0, 12, .rw, 0, .any⟩]⟩ /- MTR_MA_EN -/,
  ⟨0x40e00080, [], [⟨0, 1, .rw, 1, .any⟩, ⟨16, 8, .rw, 40, .rng 1 200 2⟩, ⟨24, 8, .rw, 100, .count 20 120⟩]⟩ /- MTR_RET_CTL -/,
  ⟨0x40e00084, [], [⟨0, 4, .wo, 0, .any⟩]⟩ /- MTR_RET_CMD -/,
  ⟨0x40e00088, [], [⟨0, 8, .ro, 0, .any⟩, ⟨8, 4, .w1c, 0, .any⟩, ⟨16, 16, .ro, 0, .any⟩]⟩ /- MTR_RET_STATUS -/,
  ⟨0x40e000c0, [], [⟨0, 32, .rc, 0, .any⟩]⟩ /- MTR_ZC_MISS -/,
  ⟨0x40e000c4, [], [⟨0, 32, .rc, 0, .any⟩]⟩ /- MTR_CHOP_CNT -/,
  ⟨0x40e000c8, [], [⟨0, 32, .rc, 0, .any⟩]⟩ /- MTR_OVP_CNT -/,
  ⟨0x40e000cc, [], [⟨0, 32, .rc, 0, .any⟩]⟩ /- MTR_RET_CNT -/]
/-- The registers of block SPT. -/
def regsSPT : List RegDef := [
  ⟨0x40f00000, [], [⟨0, 1, .wo, 0, .any⟩, ⟨1, 1, .wo, 0, .any⟩, ⟨2, 1, .rw, 1, .any⟩, ⟨3, 1, .wo, 0, .any⟩, ⟨8, 5, .rw, 24, .count 1 24⟩, ⟨16, 5, .rw, 16, .rng 1 16 2⟩]⟩ /- SPT_CTL -/,
  ⟨0x40f00004, [], [⟨0, 1, .ro, 0, .any⟩, ⟨4, 12, .ro, 0, .any⟩, ⟨16, 5, .ro, 0, .any⟩, ⟨26, 1, .ro, 0, .any⟩, ⟨27, 1, .ro, 0, .any⟩, ⟨28, 1, .ro, 0, .any⟩, ⟨29, 1, .ro, 0, .any⟩, ⟨30, 1, .ro, 0, .any⟩, ⟨31, 1, .ro, 0, .any⟩]⟩ /- SPT_STATUS -/,
  ⟨0x40f00008, [], [⟨0, 8, .ro, 0, .any⟩, ⟨31, 1, .w1c, 0, .any⟩]⟩ /- SPT_CFG_STATUS -/,
  ⟨0x40f0000c, [], [⟨0, 16, .ro, 0, .any⟩, ⟨16, 16, .ro, 0, .any⟩]⟩ /- SPT_VSTORE -/,
  ⟨0x40f00010, [], [⟨0, 16, .ro, 0, .any⟩, ⟨16, 8, .ro, 0, .any⟩, ⟨31, 1, .ro, 0, .any⟩]⟩ /- SPT_CAP -/,
  ⟨0x40f00014, [], [⟨0, 16, .ro, 0, .any⟩, ⟨16, 16, .ro, 0, .any⟩]⟩ /- SPT_WIN -/,
  ⟨0x40f00020, [], [⟨0, 16, .ro, 0, .any⟩, ⟨16, 8, .ro, 0, .any⟩, ⟨29, 1, .ro, 0, .any⟩, ⟨30, 1, .ro, 0, .any⟩, ⟨31, 1, .ro, 0, .any⟩]⟩ /- SPT_LAST -/,
  ⟨0x40f00024, [], [⟨0, 32, .ro, 0, .any⟩]⟩ /- SPT_LAST_SEQ_LO -/,
  ⟨0x40f00028, [], [⟨0, 32, .ro, 0, .any⟩]⟩ /- SPT_LAST_SEQ_HI -/,
  ⟨0x40f00030, [], [⟨0, 32, .rc, 0, .any⟩]⟩ /- SPT_TESTS -/,
  ⟨0x40f00034, [], [⟨0, 32, .rc, 0, .any⟩]⟩ /- SPT_TEST_FAILS -/]
/-- The registers of block BUF (1). -/
def regsBUF0 : List RegDef := [
  ⟨0x40400000, [], [⟨0, 8, .ro, 0, .any⟩, ⟨29, 1, .ro, 0, .any⟩, ⟨30, 1, .ro, 0, .any⟩, ⟨31, 1, .ro, 0, .any⟩]⟩ /- BUF_STATUS -/,
  ⟨0x40400008, [], [⟨0, 8, .ro, 0, .any⟩, ⟨31, 1, .w1c, 0, .any⟩]⟩ /- BUF_CFG_STATUS -/,
  ⟨0x40400010, [], [⟨0, 9, .rw, 32, .rng 1 368 2⟩]⟩ /- BUF_RES 0 -/,
  ⟨0x40400014, [], [⟨0, 9, .rw, 96, .rng 1 368 2⟩]⟩ /- BUF_RES 1 -/,
  ⟨0x40400018, [], [⟨0, 9, .rw, 64, .rng 1 368 2⟩]⟩ /- BUF_RES 2 -/,
  ⟨0x4040001c, [], [⟨0, 9, .rw, 160, .rng 1 368 2⟩]⟩ /- BUF_RES 3 -/,
  ⟨0x40400020, [], [⟨0, 9, .rw, 16, .rng 1 368 2⟩]⟩ /- BUF_RES 4 -/,
  ⟨0x40400040, [], [⟨0, 32, .rc, 0, .any⟩]⟩ /- BUF_CE_CNT -/,
  ⟨0x40400044, [], [⟨0, 32, .rc, 0, .any⟩]⟩ /- BUF_UE_CNT -/,
  ⟨0x40400048, [], [⟨0, 29, .ro, 0, .any⟩, ⟨31, 1, .w1c, 0, .any⟩]⟩ /- BUF_UE_FIRST -/,
  ⟨0x4040004c, [], [⟨0, 32, .rc, 0, .any⟩]⟩ /- BUF_SRAM_CE -/,
  ⟨0x40400050, [], [⟨0, 32, .rc, 0, .any⟩]⟩ /- BUF_SRAM_UE -/,
  ⟨0x40400060, [], [⟨0, 29, .rw, 0, .any⟩]⟩ /- BUF_PPR_ROW -/,
  ⟨0x40400064, [], [⟨0, 1, .wo, 0, .any⟩, ⟨1, 1, .wo, 0, .any⟩, ⟨16, 16, .wo, 0, .any⟩]⟩ /- BUF_PPR_CTL -/,
  ⟨0x40400068, [], [⟨0, 1, .ro, 0, .any⟩, ⟨1, 1, .ro, 0, .any⟩, ⟨28, 2, .ro, 0, .any⟩, ⟨30, 1, .w1c, 0, .any⟩, ⟨31, 1, .ro, 0, .any⟩]⟩ /- BUF_PPR_STATUS -/,
  ⟨0x40400080, [], [⟨0, 29, .rw, 0, .any⟩]⟩ /- BUF_RAW_ADDR -/,
  ⟨0x40400084, [], [⟨0, 1, .wo, 0, .any⟩, ⟨1, 1, .wo, 0, .any⟩, ⟨31, 1, .ro, 0, .any⟩]⟩ /- BUF_RAW_CTL -/,
  ⟨0x40400088, [], [⟨0, 32, .rw, 0, .any⟩]⟩ /- BUF_RAW_CHECK -/,
  ⟨0x40400090, [(0x4, 8)], [⟨0, 32, .rw, 0, .any⟩]⟩ /- BUF_RAW_DATA -/,
  ⟨0x404000c0, [], [⟨0, 1, .wo, 0, .any⟩, ⟨1, 1, .wo, 0, .any⟩, ⟨2, 1, .rw, 0, .any⟩, ⟨29, 1, .ro, 0, .any⟩, ⟨30, 1, .ro, 0, .any⟩, ⟨31, 1, .ro, 0, .any⟩]⟩ /- BUF_SCRUB_CTL -/,
  ⟨0x404000c4, [], [⟨0, 29, .rw, 0, .any⟩]⟩ /- BUF_SCRUB_START -/,
  ⟨0x404000c8, [], [⟨0, 30, .rw, 0, .count 1 536870912⟩]⟩ /- BUF_SCRUB_LEN -/,
  ⟨0x404000cc, [], [⟨0, 32, .ro, 0, .any⟩]⟩ /- BUF_SCRUB_CE -/,
  ⟨0x404000d0, [], [⟨0, 32, .ro, 0, .any⟩]⟩ /- BUF_SCRUB_UE -/]
/-- The registers of block BUF (2). -/
def regsBUF1 : List RegDef := [
  ⟨0x404000d4, [], [⟨0, 30, .ro, 0, .any⟩, ⟨31, 1, .ro, 0, .any⟩]⟩ /- BUF_SCRUB_FIRST -/]
/-- The registers of block BUF. -/
def regsBUF : List RegDef := regsBUF0 ++ regsBUF1
/-- The registers of block CCH. -/
def regsCCH : List RegDef := [
  ⟨0x40500000, [], [⟨0, 4, .ro, 0, .any⟩, ⟨31, 1, .ro, 0, .any⟩]⟩ /- CCH_STATUS -/,
  ⟨0x40500004, [], [⟨0, 8, .ro, 0, .any⟩, ⟨31, 1, .w1c, 0, .any⟩]⟩ /- CCH_CFG_STATUS -/,
  ⟨0x40500008, [], [⟨0, 4, .rw, 1, .any⟩]⟩ /- CCH_CORE_CTL -/,
  ⟨0x40500010, [(0x4, 4)], [⟨0, 1, .rw, 0, .any⟩, ⟨1, 1, .rw, 0, .any⟩, ⟨8, 1, .wo, 0, .any⟩, ⟨9, 1, .wo, 0, .any⟩, ⟨16, 1, .ro, 0, .any⟩]⟩ /- CCH_L1_CTL -/,
  ⟨0x40500020, [(0x8, 4)], [⟨2, 30, .rw, 0, .any⟩]⟩ /- CCH_BOOT_LO -/,
  ⟨0x40500024, [(0x8, 4)], [⟨0, 4, .rw, 4, .any⟩]⟩ /- CCH_BOOT_HI -/,
  ⟨0x40500040, [], [⟨0, 1, .wo, 0, .any⟩, ⟨30, 1, .w1c, 0, .any⟩, ⟨31, 1, .ro, 0, .any⟩]⟩ /- CCH_SWEEP -/,
  ⟨0x40500044, [], [⟨0, 32, .rc, 0, .any⟩]⟩ /- CCH_L2_REFETCH -/,
  ⟨0x40500048, [], [⟨0, 30, .ro, 0, .any⟩, ⟨31, 1, .w1c, 0, .any⟩]⟩ /- CCH_L2_ERR -/,
  ⟨0x40500100, [(0x20, 5)], [⟨6, 26, .rw, 0, .any⟩]⟩ /- CCH_MNT_ADDR_LO -/,
  ⟨0x40500104, [(0x20, 5)], [⟨0, 4, .rw, 0, .any⟩]⟩ /- CCH_MNT_ADDR_HI -/,
  ⟨0x40500108, [(0x20, 5)], [⟨0, 29, .rw, 0, .any⟩]⟩ /- CCH_MNT_LEN -/,
  ⟨0x4050010c, [(0x20, 5)], [⟨0, 4, .rw, 0, .any⟩, ⟨4, 13, .rw, 0, .any⟩]⟩ /- CCH_MNT_SETWAY -/,
  ⟨0x40500110, [(0x20, 5)], [⟨0, 1, .wo, 0, .any⟩, ⟨1, 2, .rw, 0, .any⟩, ⟨3, 1, .rw, 0, .any⟩, ⟨4, 2, .rw, 0, .any⟩, ⟨30, 1, .w1c, 0, .any⟩, ⟨31, 1, .ro, 0, .any⟩]⟩ /- CCH_MNT_CTL -/]
/-- The registers of block DMA. -/
def regsDMA : List RegDef := [
  ⟨0x40600000, [], [⟨0, 32, .ro, 0, .any⟩]⟩ /- DMA_STATUS -/,
  ⟨0x40600004, [], [⟨0, 32, .w1c, 0, .any⟩]⟩ /- DMA_IRQ -/,
  ⟨0x40600008, [], [⟨0, 32, .rw, 0, .any⟩]⟩ /- DMA_IRQ_EN -/,
  ⟨0x4060000c, [], [⟨0, 8, .ro, 0, .any⟩, ⟨31, 1, .w1c, 0, .any⟩]⟩ /- DMA_CFG_STATUS -/,
  ⟨0x40601000, [(0x20, 32)], [⟨0, 1, .rw, 0, .any⟩]⟩ /- DMA_CH_CTL -/,
  ⟨0x40601004, [(0x20, 32)], [⟨6, 26, .rw, 0, .any⟩]⟩ /- DMA_CH_DESC_LO -/,
  ⟨0x40601008, [(0x20, 32)], [⟨0, 4, .rw, 0, .any⟩]⟩ /- DMA_CH_DESC_HI -/,
  ⟨0x4060100c, [(0x20, 32)], [⟨0, 8, .ro, 0, .any⟩, ⟨8, 16, .ro, 0, .any⟩, ⟨29, 3, .ro, 0, .any⟩]⟩ /- DMA_CH_STATUS -/,
  ⟨0x40601010, [(0x20, 32)], [⟨6, 26, .ro, 0, .any⟩]⟩ /- DMA_CH_CUR_LO -/,
  ⟨0x40601014, [(0x20, 32)], [⟨0, 4, .ro, 0, .any⟩]⟩ /- DMA_CH_CUR_HI -/,
  ⟨0x40601018, [(0x20, 32)], [⟨0, 16, .ro, 0, .any⟩]⟩ /- DMA_CH_REMAIN -/,
  ⟨0x4060101c, [(0x20, 32)], [⟨0, 32, .ro, 0, .any⟩]⟩ /- DMA_CH_TAG -/]
/-- The registers of block HST. -/
def regsHST : List RegDef := [
  ⟨0x40200100, [(0x40000, 2)], [⟨0, 1, .rw, 0, .any⟩, ⟨1, 1, .wo, 0, .any⟩]⟩ /- HCTL -/,
  ⟨0x40200104, [(0x40000, 2)], [⟨28, 1, .ro, 0, .any⟩, ⟨29, 1, .ro, 0, .any⟩, ⟨30, 1, .ro, 0, .any⟩, ⟨31, 1, .ro, 0, .any⟩]⟩ /- HSTS -/,
  ⟨0x40200120, [], [⟨0, 6, .wo, 0, .any⟩]⟩ /- HWIN_COMMIT -/,
  ⟨0x40200124, [], [⟨0, 8, .ro, 0, .any⟩, ⟨8, 6, .ro, 0, .any⟩, ⟨31, 1, .w1c, 0, .any⟩]⟩ /- HWIN_STATUS -/,
  ⟨0x40200000, [(0x40000, 2)], [⟨0, 1, .rw, 1, .any⟩, ⟨8, 1, .rw, 1, .any⟩, ⟨12, 2, .rw, 2, .rng 0 2 2⟩, ⟨16, 4, .rw, 6, .rng 0 6 2⟩, ⟨23, 1, .rw, 0, .any⟩, ⟨24, 1, .w1s, 0, .any⟩]⟩ /- HST_CTL -/,
  ⟨0x40200004, [(0x40000, 2)], [⟨16, 1, .ro, 0, .any⟩, ⟨17, 1, .ro, 0, .any⟩, ⟨18, 1, .ro, 0, .any⟩, ⟨19, 2, .ro, 0, .any⟩, ⟨21, 3, .ro, 6, .any⟩, ⟨24, 1, .ro, 0, .any⟩, ⟨25, 1, .ro, 0, .any⟩, ⟨26, 2, .ro, 0, .any⟩, ⟨28, 4, .ro, 0, .any⟩]⟩ /- HST_LINK -/,
  ⟨0x40200008, [(0x40000, 2)], [⟨0, 8, .ro, 0, .any⟩, ⟨31, 1, .w1c, 0, .any⟩]⟩ /- HST_CFG_STATUS -/,
  ⟨0x4020000c, [(0x40000, 2)], [⟨0, 1, .w1c, 0, .any⟩, ⟨1, 1, .w1c, 0, .any⟩, ⟨2, 1, .w1c, 0, .any⟩, ⟨3, 1, .w1c, 0, .any⟩, ⟨4, 1, .w1c, 0, .any⟩, ⟨5, 1, .w1c, 0, .any⟩]⟩ /- HST_EVT -/,
  ⟨0x40200010, [(0x40000, 2)], [⟨0, 11, .ro, 0, .any⟩]⟩ /- HST_ATS -/,
  ⟨0x40200020, [(0x40000, 2)], [⟨0, 32, .rc, 0, .any⟩]⟩ /- HST_RX_ERR -/,
  ⟨0x40200024, [(0x40000, 2)], [⟨0, 32, .rc, 0, .any⟩]⟩ /- HST_FEC_CORR -/,
  ⟨0x40200028, [(0x40000, 2)], [⟨0, 32, .rc, 0, .any⟩]⟩ /- HST_REPLAY -/,
  ⟨0x4020002c, [(0x40000, 2)], [⟨0, 32, .rc, 0, .any⟩]⟩ /- HST_UR -/,
  ⟨0x40200030, [(0x40000, 2)], [⟨0, 32, .rc, 0, .any⟩]⟩ /- HST_ATS_INV -/,
  ⟨0x40200034, [(0x40000, 2)], [⟨0, 32, .rc, 0, .any⟩]⟩ /- HST_BAR2_ERR -/]
/-- The registers of block IQI. -/
def regsIQI : List RegDef := [
  ⟨0x40300000, [], [⟨0, 1, .rw, 1, .any⟩]⟩ /- IQI_CTL -/,
  ⟨0x40300004, [], [⟨0, 14, .ro, 0, .any⟩]⟩ /- IQI_STATUS -/,
  ⟨0x40300008, [], [⟨0, 8, .ro, 0, .any⟩, ⟨31, 1, .w1c, 0, .any⟩]⟩ /- IQI_CFG_STATUS -/,
  ⟨0x4030000c, [], [⟨1, 16, .ro, 0, .any⟩]⟩ /- IQI_DEF_PEND -/,
  ⟨0x40300040, [], [⟨0, 32, .rc, 0, .any⟩]⟩ /- IQI_FETCHED -/,
  ⟨0x40300044, [], [⟨0, 32, .rc, 0, .any⟩]⟩ /- IQI_POSTED -/,
  ⟨0x40300048, [], [⟨0, 32, .rc, 0, .any⟩]⟩ /- IQI_ABORT_CAUGHT -/,
  ⟨0x4030004c, [], [⟨0, 32, .rc, 0, .any⟩]⟩ /- IQI_DEF_ERR -/,
  ⟨0x40300050, [], [⟨0, 32, .rc, 0, .any⟩]⟩ /- IQI_BAD_DB -/,
  ⟨0x40300100, [(0x10, 16)], [⟨0, 32, .rw, 0, .any⟩]⟩ /- IQI_NS_CAP_LO -/,
  ⟨0x40300104, [(0x10, 16)], [⟨0, 16, .rw, 0, .any⟩]⟩ /- IQI_NS_CAP_HI -/,
  ⟨0x40300108, [(0x10, 16)], [⟨0, 2, .rw, 1, .rng 1 3 2⟩, ⟨31, 1, .rw, 0, .any⟩]⟩ /- IQI_NS_CTL -/,
  ⟨0x4030010c, [(0x10, 16)], [⟨0, 32, .rw, 0, .any⟩]⟩ /- IQI_NS_CONV -/]
/-- The registers of block SEC. -/
def regsSEC : List RegDef := [
  ⟨0x40100000, [], [⟨0, 4, .ro, 0, .any⟩, ⟨8, 6, .ro, 0, .any⟩, ⟨27, 1, .ro, 0, .any⟩, ⟨28, 1, .ro, 0, .any⟩, ⟨29, 1, .ro, 0, .any⟩, ⟨30, 1, .ro, 0, .any⟩, ⟨31, 1, .ro, 0, .any⟩]⟩ /- SEC_STATUS -/,
  ⟨0x40100004, [], [⟨0, 8, .ro, 0, .any⟩, ⟨31, 1, .w1c, 0, .any⟩]⟩ /- SEC_CFG_STATUS -/,
  ⟨0x40100008, [], [⟨0, 10, .ro, 600, .any⟩, ⟨10, 1, .ro, 0, .any⟩, ⟨11, 1, .ro, 0, .any⟩, ⟨15, 1, .wo, 0, .any⟩, ⟨16, 16, .wo, 0, .any⟩]⟩ /- SEC_BOOT -/,
  ⟨0x40100010, [], [⟨6, 26, .rw, 0, .any⟩]⟩ /- SEC_REQ_LO -/,
  ⟨0x40100014, [], [⟨0, 4, .rw, 0, .any⟩]⟩ /- SEC_REQ_HI -/,
  ⟨0x40100018, [], [⟨0, 1, .wo, 0, .any⟩, ⟨30, 1, .w1c, 0, .any⟩, ⟨31, 1, .ro, 0, .any⟩]⟩ /- SEC_REQ_CTL -/,
  ⟨0x4010001c, [], [⟨0, 8, .ro, 0, .any⟩, ⟨8, 8, .ro, 0, .any⟩]⟩ /- SEC_REQ_RESULT -/,
  ⟨0x40100020, [], [⟨0, 32, .ro, 0, .any⟩]⟩ /- SEC_RLOCK_LO -/,
  ⟨0x40100024, [], [⟨0, 32, .ro, 0, .any⟩]⟩ /- SEC_RLOCK_HI -/,
  ⟨0x40100028, [], [⟨0, 32, .ro, 0, .any⟩]⟩ /- SEC_WLOCK_LO -/,
  ⟨0x4010002c, [], [⟨0, 32, .ro, 0, .any⟩]⟩ /- SEC_WLOCK_HI -/,
  ⟨0x40100030, [], [⟨0, 32, .rc, 0, .any⟩]⟩ /- SEC_AUTH_FAIL -/,
  ⟨0x40100034, [], [⟨0, 32, .rc, 0, .any⟩]⟩ /- SEC_RESEEDS -/]
/-- The registers of block DBG. -/
def regsDBG : List RegDef := [
  ⟨0x41000000, [], [⟨0, 8, .ro, 0, .any⟩, ⟨27, 3, .ro, 0, .any⟩, ⟨30, 1, .ro, 0, .any⟩, ⟨31, 1, .ro, 0, .any⟩]⟩ /- DBG_STATUS -/,
  ⟨0x41000004, [], [⟨0, 32, .rc, 0, .any⟩]⟩ /- DBG_TOKEN_FAILS -/,
  ⟨0x41000010, [(0x4, 8)], [⟨0, 32, .ro, 0, .any⟩]⟩ /- DBG_NONCE -/,
  ⟨0x41000030, [], [⟨0, 11, .rw, 0, .any⟩]⟩ /- DBG_TOKEN_ADDR -/,
  ⟨0x41000034, [], [⟨0, 32, .wo, 0, .any⟩]⟩ /- DBG_TOKEN_DATA -/,
  ⟨0x41000038, [], [⟨0, 1, .wo, 0, .any⟩]⟩ /- DBG_TOKEN_CTL -/]
/-- The registers of block RING. -/
def regsRING : List RegDef := [
  ⟨0x40800000, [], [⟨12, 4, .rw, 2, .count 1 15⟩, ⟨16, 8, .rw, 10, .count 1 255⟩, ⟨24, 4, .rw, 8, .count 1 15⟩, ⟨28, 2, .rw, 3, .any⟩, ⟨30, 1, .rw, 0, .any⟩, ⟨31, 1, .rw, 1, .any⟩]⟩ /- RING_CTL -/,
  ⟨0x40800004, [], [⟨0, 8, .ro, 255, .any⟩, ⟨8, 8, .ro, 255, .any⟩, ⟨16, 5, .ro, 0, .any⟩, ⟨21, 1, .ro, 0, .any⟩, ⟨22, 1, .ro, 0, .any⟩, ⟨23, 1, .ro, 0, .any⟩, ⟨24, 2, .ro, 0, .any⟩, ⟨26, 1, .ro, 0, .any⟩, ⟨27, 1, .ro, 0, .any⟩, ⟨28, 2, .ro, 0, .any⟩, ⟨30, 1, .ro, 0, .any⟩, ⟨31, 1, .ro, 0, .any⟩]⟩ /- RING_STATUS -/,
  ⟨0x40800008, [], [⟨0, 8, .ro, 0, .any⟩, ⟨31, 1, .w1c, 0, .any⟩]⟩ /- RING_CFG_STATUS -/,
  ⟨0x4080000c, [], [⟨16, 16, .ro, 0, .any⟩]⟩ /- RING_LEVEL -/,
  ⟨0x40800010, [], [⟨0, 32, .ro, 0, .any⟩]⟩ /- RING_EPOCH_LO -/,
  ⟨0x40800014, [], [⟨0, 32, .ro, 0, .any⟩]⟩ /- RING_EPOCH_HI -/,
  ⟨0x40800018, [], [⟨0, 32, .ro, 0, .any⟩]⟩ /- RING_ACTIVE -/,
  ⟨0x4080001c, [], [⟨0, 32, .ro, 0, .any⟩]⟩ /- RING_TRANSIT -/,
  ⟨0x40800020, [], [⟨0, 32, .ro, 0, .any⟩]⟩ /- RING_FAILED -/,
  ⟨0x40800024, [], [⟨8, 5, .ro, 0, .any⟩, ⟨14, 1, .ro, 0, .any⟩, ⟨15, 1, .ro, 0, .any⟩, ⟨24, 5, .ro, 0, .any⟩, ⟨30, 1, .ro, 0, .any⟩, ⟨31, 1, .ro, 0, .any⟩]⟩ /- RING_NEIGH -/,
  ⟨0x40800028, [], [⟨0, 1, .w1c, 0, .any⟩, ⟨1, 1, .w1c, 0, .any⟩, ⟨2, 1, .w1c, 0, .any⟩, ⟨3, 1, .w1c, 0, .any⟩, ⟨4, 1, .w1c, 0, .any⟩, ⟨5, 1, .w1c, 0, .any⟩]⟩ /- RING_EVT -/,
  ⟨0x40800040, [], [⟨0, 32, .rc, 0, .any⟩]⟩ /- RING_TX_FLITS -/,
  ⟨0x40800044, [], [⟨0, 32, .rc, 0, .any⟩]⟩ /- RING_RX_FLITS -/,
  ⟨0x40800048, [], [⟨0, 32, .rc, 0, .any⟩]⟩ /- RING_FEC_CORR -/,
  ⟨0x4080004c, [], [⟨0, 32, .rc, 0, .any⟩]⟩ /- RING_FEC_UNCORR -/,
  ⟨0x40800050, [], [⟨0, 32, .rc, 0, .any⟩]⟩ /- RING_AUTH_ERR -/,
  ⟨0x40800054, [], [⟨0, 32, .rc, 0, .any⟩]⟩ /- RING_RETRIES -/,
  ⟨0x40800058, [], [⟨0, 32, .rc, 0, .any⟩]⟩ /- RING_TIMEOUTS -/,
  ⟨0x4080005c, [], [⟨0, 32, .rc, 0, .any⟩]⟩ /- RING_ORPHAN -/]
/-- The registers of block CHD (1). -/
def regsCHD0 : List RegDef := [
  ⟨0x40900000, [], [⟨0, 1, .rw, 0, .any⟩, ⟨1, 1, .wo, 0, .any⟩, ⟨2, 1, .wo, 0, .any⟩, ⟨3, 1, .wo, 0, .any⟩, ⟨4, 1, .wo, 0, .any⟩, ⟨31, 1, .rw, 0, .any⟩]⟩ /- CHD_CTL -/,
  ⟨0x40900004, [], [⟨0, 8, .ro, 0, .any⟩, ⟨8, 8, .ro, 255, .any⟩, ⟨16, 8, .ro, 255, .any⟩, ⟨24, 1, .ro, 0, .any⟩, ⟨25, 1, .ro, 0, .any⟩, ⟨26, 1, .ro, 0, .any⟩, ⟨27, 1, .ro, 0, .any⟩, ⟨28, 1, .ro, 0, .any⟩, ⟨29, 1, .ro, 0, .any⟩, ⟨30, 1, .ro, 0, .any⟩, ⟨31, 1, .ro, 0, .any⟩]⟩ /- CHD_STATUS -/,
  ⟨0x40900008, [], [⟨0, 8, .ro, 0, .any⟩, ⟨31, 1, .w1c, 0, .any⟩]⟩ /- CHD_CFG_STATUS -/,
  ⟨0x40900010, [], [⟨0, 24, .rw, 0, .count 1 16777215⟩, ⟨24, 5, .rw, 0, .rng 1 16 2⟩]⟩ /- CHD_STRIP -/,
  ⟨0x40900014, [], [⟨0, 5, .rw, 0, .rng 1 16 2⟩, ⟨8, 5, .rw, 0, .rng 1 16 2⟩, ⟨31, 1, .rw, 0, .any⟩]⟩ /- CHD_VOL -/,
  ⟨0x40900018, [], [⟨12, 20, .rw, 0, .any⟩]⟩ /- CHD_STAGE_LO -/,
  ⟨0x4090001c, [], [⟨0, 2, .rw, 0, .any⟩]⟩ /- CHD_STAGE_HI -/,
  ⟨0x40900020, [], [⟨0, 7, .rw, 16, .count 1 64⟩]⟩ /- CHD_STAGE_SLOTS -/,
  ⟨0x40900040, [], [⟨0, 32, .rwc, 0, .any⟩]⟩ /- CHD_L_SEED_LO -/,
  ⟨0x40900044, [], [⟨0, 32, .rwc, 0, .any⟩]⟩ /- CHD_L_SEED_HI -/,
  ⟨0x40900048, [], [⟨0, 32, .rwc, 0, .any⟩]⟩ /- CHD_L_ROSTER -/,
  ⟨0x4090004c, [], [⟨8, 3, .rwc, 0, .any⟩, ⟨16, 3, .rwc, 0, .any⟩, ⟨24, 5, .rwc, 0, .any⟩]⟩ /- CHD_L_GEOM -/,
  ⟨0x40900050, [], [⟨0, 24, .rwc, 0, .any⟩]⟩ /- CHD_L_BASE -/,
  ⟨0x40900054, [], [⟨0, 24, .rwc, 0, .any⟩]⟩ /- CHD_L_ROWS -/,
  ⟨0x40900058, [], [⟨0, 32, .ro, 0, .any⟩]⟩ /- CHD_L_LCHK_LO -/,
  ⟨0x4090005c, [], [⟨0, 32, .ro, 0, .any⟩]⟩ /- CHD_L_LCHK_HI -/,
  ⟨0x40900060, [(0x4, 8)], [⟨0, 32, .ro, 4294967295, .any⟩]⟩ /- CHD_L_FAIL -/,
  ⟨0x40900080, [], [⟨0, 32, .ro, 0, .any⟩]⟩ /- CHD_SCAN_LO -/,
  ⟨0x40900084, [], [⟨0, 32, .ro, 0, .any⟩]⟩ /- CHD_SCAN_HI -/,
  ⟨0x40900088, [], [⟨0, 32, .ro, 0, .any⟩]⟩ /- CHD_B_LO -/]
/-- The registers of block CHD (2). -/
def regsCHD1 : List RegDef := [
  ⟨0x4090008c, [], [⟨0, 32, .ro, 0, .any⟩]⟩ /- CHD_B_HI -/,
  ⟨0x40900090, [], [⟨0, 32, .ro, 0, .any⟩]⟩ /- CHD_K_LO -/,
  ⟨0x40900094, [], [⟨0, 32, .ro, 0, .any⟩]⟩ /- CHD_K_HI -/,
  ⟨0x409000a0, [], [⟨0, 17, .ro, 0, .any⟩]⟩ /- CHD_JNL_OWN -/,
  ⟨0x409000a4, [], [⟨0, 17, .ro, 0, .any⟩]⟩ /- CHD_JNL_MIR -/,
  ⟨0x409000b0, [], [⟨0, 16, .rw, 0, .any⟩]⟩ /- CHD_LOST_IDX -/,
  ⟨0x409000b4, [], [⟨0, 17, .ro, 0, .any⟩]⟩ /- CHD_LOST_COUNT -/,
  ⟨0x409000b8, [], [⟨0, 32, .ro, 0, .any⟩]⟩ /- CHD_LOST_CHORD_LO -/,
  ⟨0x409000bc, [], [⟨0, 32, .ro, 0, .any⟩]⟩ /- CHD_LOST_CHORD_HI -/,
  ⟨0x409000c0, [], [⟨0, 32, .ro, 0, .any⟩]⟩ /- CHD_LOST_MASK_LO -/,
  ⟨0x409000c4, [], [⟨0, 32, .ro, 0, .any⟩]⟩ /- CHD_LOST_MASK_HI -/,
  ⟨0x409000e0, [], [⟨0, 32, .rc, 0, .any⟩]⟩ /- CHD_WRITES -/,
  ⟨0x409000e4, [], [⟨0, 32, .rc, 0, .any⟩]⟩ /- CHD_DEGRADED -/,
  ⟨0x409000e8, [], [⟨0, 32, .rc, 0, .any⟩]⟩ /- CHD_RECON -/,
  ⟨0x409000ec, [], [⟨0, 32, .rc, 0, .any⟩]⟩ /- CHD_REBUILT -/,
  ⟨0x409000f0, [], [⟨0, 32, .rc, 0, .any⟩]⟩ /- CHD_LOST_NEW -/]
/-- The registers of block CHD. -/
def regsCHD : List RegDef := regsCHD0 ++ regsCHD1
/-- The registers of block EVR. -/
def regsEVR : List RegDef := [
  ⟨0x40700000, [], [⟨0, 16, .rw, 60, .count 1 65535⟩, ⟨16, 8, .rw, 8, .count 1 255⟩, ⟨31, 1, .rw, 0, .any⟩]⟩ /- EVR_CTL -/,
  ⟨0x40700004, [], [⟨0, 8, .ro, 0, .any⟩, ⟨8, 8, .ro, 0, .any⟩, ⟨31, 1, .ro, 0, .any⟩]⟩ /- EVR_STATUS -/,
  ⟨0x40700008, [], [⟨0, 8, .ro, 0, .any⟩, ⟨31, 1, .w1c, 0, .any⟩]⟩ /- EVR_CFG_STATUS -/,
  ⟨0x4070000c, [], [⟨0, 12, .rw, 0, .any⟩]⟩ /- EVR_RING_BASE -/,
  ⟨0x40700010, [], [⟨0, 32, .ro, 0, .any⟩]⟩ /- EVR_HEAD_LO -/,
  ⟨0x40700014, [], [⟨0, 32, .ro, 0, .any⟩]⟩ /- EVR_HEAD_HI -/,
  ⟨0x40700018, [], [⟨0, 32, .ro, 0, .any⟩]⟩ /- EVR_DONE_LO -/,
  ⟨0x4070001c, [], [⟨0, 32, .ro, 0, .any⟩]⟩ /- EVR_DONE_HI -/,
  ⟨0x40700020, [], [⟨0, 32, .ro, 0, .any⟩]⟩ /- EVR_ARCH_LO -/,
  ⟨0x40700024, [], [⟨0, 32, .ro, 0, .any⟩]⟩ /- EVR_ARCH_HI -/,
  ⟨0x40700030, [], [⟨0, 16, .wo, 0, .rng 32768 65535 2⟩, ⟨24, 3, .wo, 0, .rng 0 4 2⟩]⟩ /- EVR_RAISE -/,
  ⟨0x40700040, [(0x4, 8)], [⟨0, 32, .rw, 0, .any⟩]⟩ /- EVR_RAISE_P -/,
  ⟨0x40700080, [], [⟨0, 6, .rw, 0, .any⟩]⟩ /- EVR_RL_SEL -/,
  ⟨0x40700084, [], [⟨0, 16, .rw, 0, .any⟩, ⟨30, 1, .rw, 0, .any⟩, ⟨31, 1, .rw, 0, .any⟩]⟩ /- EVR_RL_CODE -/,
  ⟨0x40700088, [], [⟨0, 16, .rw, 60, .count 1 65535⟩, ⟨24, 8, .rw, 8, .count 1 255⟩]⟩ /- EVR_RL_RATE -/,
  ⟨0x407000c0, [], [⟨0, 32, .rc, 0, .any⟩]⟩ /- EVR_RECORDED -/,
  ⟨0x407000c4, [], [⟨0, 32, .rc, 0, .any⟩]⟩ /- EVR_SUPPRESSED -/,
  ⟨0x407000c8, [], [⟨0, 32, .rc, 0, .any⟩]⟩ /- EVR_FIFO_DROP -/,
  ⟨0x407000cc, [], [⟨0, 32, .rc, 0, .any⟩]⟩ /- EVR_RL_OVF -/]
/-- The lower registers of the two-register values (00 R10), the upper register lying 4 bytes above. -/
def pairLows : List (Nat × List (Nat × Nat)) := [
  (0x40c00014, [(0x40000, 4)]) /- FMT_COURSE_X -/,
  (0x40d80020, [(0x10000, 4)]) /- CTL_SEEK_TGT -/,
  (0x40f00024, []) /- SPT_LAST_SEQ -/,
  (0x40500020, [(0x8, 4)]) /- CCH_BOOT -/,
  (0x40500100, [(0x20, 5)]) /- CCH_MNT_ADDR -/,
  (0x40601004, [(0x20, 32)]) /- DMA_CH_DESC -/,
  (0x40601010, [(0x20, 32)]) /- DMA_CH_CUR -/,
  (0x40300100, [(0x10, 16)]) /- IQI_NS_CAP -/,
  (0x40100010, []) /- SEC_REQ -/,
  (0x40100020, []) /- SEC_RLOCK -/,
  (0x40100028, []) /- SEC_WLOCK -/,
  (0x40800010, []) /- RING_EPOCH -/,
  (0x40900018, []) /- CHD_STAGE -/,
  (0x40900040, []) /- CHD_L_SEED -/,
  (0x40900058, []) /- CHD_L_LCHK -/,
  (0x40900080, []) /- CHD_SCAN -/,
  (0x40900088, []) /- CHD_B -/,
  (0x40900090, []) /- CHD_K -/,
  (0x409000b8, []) /- CHD_LOST_CHORD -/,
  (0x409000c0, []) /- CHD_LOST_MASK -/,
  (0x40700010, []) /- EVR_HEAD -/,
  (0x40700018, []) /- EVR_DONE -/,
  (0x40700020, []) /- EVR_ARCH -/,
  (0x40d00080, [(0x10000, 4), (0x8, 4)]) /- SRV_POS -/]

end Sys2Proof.Machine
end

