-- ==== Sys2Proof/Machine/State.lean ====
section
/-! DEFINITION. The state of the block as plain data: every register field, FIFO, buffer, counter, mode and pin
the spec gives it, the queue of waiting commands, and the state after reset. -/

namespace Sys2Proof.Machine

/-- What the last access answered. -/
inductive Resp where
  | none
  /-- The data of a register or memory read. -/
  | data (v : Nat)
  /-- A longer answer, little-endian bytes held as a number, with its length. -/
  | block (len v : Nat)
  /-- A bus error to the issuing master (00 R9, R17). -/
  | busError
  /-- Unsupported Request or Completer Abort on PCI Express (14 R355, R357). -/
  | unsupported
  | completerAbort
  /-- A completion with the poisoned bit set (14 R358). -/
  | poisoned (v : Nat)
  /-- An SMBus NACK (16 R421). -/
  | nack
  deriving DecidableEq, Repr

/-- What the block has sent to the outside, oldest first. -/
inductive Out where
  /-- A completion entry written to host memory: port, host address, the 16 bytes (15 Table IQI-3). -/
  | completion (port addr entry : Nat)
  /-- An MSI-X message: port, address, data. -/
  | msix (port addr data : Nat)
  /-- Data written to host memory: port, host address, length, bytes. -/
  | hostWrite (port addr len data : Nat)
  /-- A port accesses a page of host memory with ATS enabled, at its Translated address or (none) the Untranslated one (14 R362). -/
  | hostPage (port page : Nat) (write : Bool) (target : Option Nat)
  /-- A Translation Request or Invalidate Completion (14 R362, R364): port, address. -/
  | atsRequest (port addr : Nat)
  | atsInvalidateDone (port tag : Nat)
  /-- PM_PME of a port, or WAKE_N asserted (14 R366). -/
  | pme (port : Nat)
  | wakePin (port : Nat)
  /-- A frame on the preamp link of actuator a: write or read, address, data (06 R170). -/
  | preamp (act : Nat) (read : Bool) (addr data : Nat)
  /-- A driver command or STOP message of a lane to the power die (09 R250, R251). -/
  | driver (lane target : Nat) (code : Int)
  | laneStop (lane : Nat)
  /-- The cells a slot writes over a fragment, from the media position of its first one, and their transitions in 1/64 cell
  from it, with precompensation and the write-clock shift (06 R159, R163): slot, wedge, cell, cells, transitions. -/
  | writeFrag (slot wedge cell : Nat) (cells : List Bool) (edges : List Int)
  /-- A ring frame sent: type, destination, number, window address, length, payload. -/
  | ringFrame (type dst number waddr len payload : Nat)
  /-- A transit flit forwarded by the East (true) or West port, and credits returned there (18 R462, R464). -/
  | ringForward (east : Bool) (flit : Nat)
  | ringCredit (east : Bool) (credits : Nat)
  /-- An interrupt to the real-time core from a source of 20 Table EVR-2, or 0x100 + a DMA channel (13 Table CPU-8). -/
  | rtInterrupt (source : Nat)
  /-- An interrupt to application core 0: the block and the bit or channel that raised it. -/
  | appInterrupt (block source : Nat)
  deriving DecidableEq, Repr

/-- The state of a switched power domain (02 R51 to R55). -/
inductive DomSt where
  | off | ramping | on | poweringDown
  deriving DecidableEq, Repr

/-- The device power state (02 R57). -/
inductive DevSt where
  | active | idle | doze | sleep | off
  deriving DecidableEq, Repr

/-- Supplies, start-up, domains, clock monitors and reset (01, 02). -/
structure Power where
  /-- SYS_POR_N is high. -/
  por : Bool
  /-- VIO is present. -/
  vio : Bool
  /-- The last step of 02 Table PWR-7 completed. -/
  step : Nat
  /-- Start-up stopped by a failed fuse map (02 R67). -/
  stopped : Bool
  dev : DevSt
  /-- The wake logic armed by SYS_PWR_STATE.STATE = 3. -/
  wakeArmed : Bool
  /-- Domains not off, by number. -/
  dom : SMap DomSt
  /-- Consecutive out-of-range windows of a live island (02 R43). -/
  oor : SMap Nat
  /-- Islands whose clock the Soundpost has stopped (02 Table PWR-22), as a mask. -/
  clkStopped : Nat
  /-- Milliseconds that the watchdog has counted. -/
  wdogMs : Nat
  /-- Device resets held during a save, as SYS_RST_CAUSE bits (02 R63). -/
  heldRst : Nat
  /-- Idle is moving towards Doze: the write cache is being emptied (02 R61). -/
  dozing : Bool
  /-- The spindle is being spun down for Doze. -/
  spinDown : Bool
  /-- A media command arrived during the spin-down (02 R61). -/
  spinCmd : Bool
  /-- Heads are loaded (02 Table PWR-4). -/
  headsLoaded : Bool
  /-- The requests of SYS_PD_REQ before Sleep, by domain (02 Table PWR-5). -/
  sleepReq : Nat
  /-- The requests of SYS_PD_REQ withdrawn on the way to Idle and Doze, by domain (02 Table PWR-4). -/
  idleReq : Nat
  /-- The islands that were live when the clock monitor's window started, as a mask (02 R44). -/
  liveIsl : Nat
  deriving DecidableEq, Repr

/-- An event record (20 Table EVR-1). -/
structure EvRec where
  seq : Nat
  pos : Nat
  poc : Nat
  code : Nat
  severity : Nat
  suppressed : Nat
  unit : Nat
  ticks : Nat
  payload : Nat
  deriving DecidableEq, Repr

/-- The bucket state of a code (20 R513). -/
structure Bucket where
  tokens : Nat
  suppressed : Nat
  deriving DecidableEq, Repr

/-- One entry of the override table (20 R513). -/
structure RlEntry where
  en : Bool
  unlimited : Bool
  code : Nat
  burst : Nat
  refill : Nat
  deriving DecidableEq, Repr

/-- The event recorder beside its registers (20). -/
structure Evr where
  /-- The next SEQ (R512). -/
  nextSeq : Nat
  /-- The power-cycle count (Table EVR-1 POC). -/
  poc : Nat
  /-- Records waiting without SEQ, oldest first. -/
  fifo : List EvRec
  buckets : SMap Bucket
  overrides : SMap RlEntry
  /-- The saved tail, by SEQ mod 16,384. -/
  tail : SMap EvRec
  /-- The keep-store archive, by SEQ. -/
  archive : SMap EvRec
  /-- The first SEQ not archived yet. -/
  archNext : Nat
  /-- The read start of each port (20 R518). -/
  readStart : SMap Nat
  deriving DecidableEq, Repr

/-- The alignment map of an actuator (03 R85): its 16-byte header and its 128-byte points as numbers. -/
structure AlignMap where
  header : Nat
  points : List Nat
  deriving DecidableEq, Repr

/-- The media tables (03). -/
structure Media where
  /-- Peg entries of the image, 128 bytes each as a number, by 64 × surface + band; an unlisted band is absent. -/
  peg : SMap Nat
  /-- Surfaces made unusable, with their lowest invalid band (R549). -/
  pegBad : SMap Nat
  /-- Valid alignment maps, by actuator. -/
  maps : SMap AlignMap
  /-- Relocated LBAs (namespace × 2^64 + LBA) and their spare sectors. -/
  reloc : SMap Nat
  /-- Spare sectors in use. -/
  usedSpares : List Nat
  /-- LBAs whose sector is pending (R95). -/
  pendingLbas : List Nat
  /-- LBAs that were to be relocated when no spare was left (R93). -/
  noSpare : List Nat
  /-- Buffer addresses of blocks of pending LBAs that are written and await the verifying read (R95). -/
  unverified : List Nat
  /-- LBAs that have been written to media since they were never written (15 R392), with the sequence number of the
  first such write. -/
  written : SMap Nat
  /-- The sequence number of the newest write of each LBA that is on media (11 R285). -/
  newest : SMap Nat
  deriving DecidableEq, Repr

/-- A zone (15 R401): WP as blocks above the zone start; 0 EMPTY, 1 OPEN, 2 FULL. -/
structure Zone where
  wp : Nat
  st : Nat
  deriving DecidableEq, Repr

/-- The settings a slot reads at a member start (04 R125, 05 R150, 06 R174). -/
structure Latched where
  wAdapt : Bool
  taEn : Bool
  doEn : Bool
  taLevel : Nat
  doPct : Nat
  doLen : Nat
  boost : Nat
  cutoff : Nat
  target : Nat
  skew0 : Nat
  skew2 : Nat
  t0 : Nat
  t1 : Nat
  t2 : Nat
  eqStep : Nat
  eqAdapt : Bool
  kiAcq : Nat
  ki : Nat
  kpAcq : Nat
  kp : Nat
  unlockTol : Nat
  lockTol : Nat
  shift : Nat
  deriving DecidableEq, Repr

/-- The member a slot runs: a course member or a servo-only member (04 R102, 08 R210). -/
structure Member where
  head : Nat
  track : Nat
  surface : Nat
  band : Nat
  /-- The peg entry applied; 0 for a servo-only member. -/
  peg : Nat
  cells : Nat
  write : Bool
  servoOnly : Bool
  /-- The read-back of ROUTE_j matched (06 R172). -/
  ready : Bool
  /-- off_h fixed by the commit (07 R194). -/
  offH : Int
  set : Latched
  deriving DecidableEq, Repr

/-- The state of one decoding attempt (05 R143). -/
inductive AttState where
  | waiting
  | running
  | cancelled
  /-- Ended with an outcome of Table DET-2 after `iter` iterations. -/
  | ended (outcome iter : Nat)
  deriving DecidableEq, Repr

/-- One attempt of a sector's list (05 R140): q − P and H(q), 0x3F for a timed attempt. -/
structure Attempt where
  ofs : Int
  hdist : Nat
  st : AttState
  deriving DecidableEq, Repr

/-- A sector read that holds a sample-buffer entry until it is decided (04 R122, 05). -/
structure Sect where
  psi : Nat
  /-- The run it belongs to, its index in it, and its list entry with that entry's address. -/
  rid : Nat
  idx : Nat
  listAddr : Nat
  req : Nat
  /-- BAND of the member's track. -/
  band : Nat
  /-- The thread's sector number, CELLS and ELEM_MASK of the member, and its detector target T0 to T2 (05 R150). -/
  sec : Nat
  cells : Nat
  mask : Nat
  t0 : Nat
  t1 : Nat
  t2 : Nat
  /-- CHN_DET_CTL at capture start. -/
  retryTag : Nat
  secondLook : Bool
  timedAll : Bool
  maxCand : Nat
  syncThr : Nat
  resyncThr : Nat
  /-- LDPC_SCHED of the member and the taps at the first read cell. -/
  sched : Nat
  taps : SMap Nat
  /-- The taps that adaptation has set since, each with the first read cell it applies to, latest first. -/
  tapLog : List (Nat × SMap Nat)
  /-- Cells captured over the stretches of RG that have ended, and where in the revolution the running one began (07 R182). -/
  got : Nat
  since : Option Nat
  /-- First read cell and their number (04 R112). -/
  rc0 : Nat
  rcN : Nat
  captured : Bool
  erased : Nat
  /-- The attempt list, once the search has ended. -/
  attempts : Option (List Attempt)
  /-- Chosen resync positions of the later fragments, relative to the prediction. -/
  resync : List Int
  /-- The fast path's result: outcome and iterations. -/
  fast : Option (Nat × Nat)
  /-- The sector entered the second look. -/
  deep : Bool
  deriving DecidableEq, Repr

/-- An edge-queue entry (07 R180) with the sector it was pushed for. -/
structure Edge where
  w : Nat
  c : Nat
  rg : Bool
  wg : Bool
  sg : Bool
  fw : Bool
  sec : Nat
  deriving DecidableEq, Repr

/-- A sector of a write run from its request to its end (06 R160 to R166). -/
structure WrSect where
  /-- The thread's sector number, the run and the index. -/
  sec : Nat
  rid : Nat
  idx : Nat
  psi : Nat
  /-- Header word and block as encrypted. -/
  header : Nat
  block : Nat
  addr : Nat
  /-- The read of the block from the buffer met an uncorrectable burst. -/
  bad : Bool
  /-- The codeword passed its checks and is released (R161). -/
  released : Bool
  /-- Fragments still to be opened. -/
  fragsLeft : Nat
  /-- The sector has been cut, not released, or not opened. -/
  lost : Bool
  /-- The staging buffer that holds the codeword, 0 or 1 (06 R160, 12 Table BUF-4). -/
  staging : Nat
  deriving DecidableEq, Repr

/-- A sector of a read run from its request to its capture. -/
structure RdSect where
  sec : Nat
  rid : Nat
  idx : Nat
  psi : Nat
  listAddr : Nat
  req : Nat
  frags : Nat
  deriving DecidableEq, Repr

/-- A head slot beside its registers (04 to 07). -/
structure Slot where
  mem : Option Member
  /-- Loop history: read cell, field key and the value before that cell's update (04 R108). -/
  hist : List (Nat × Nat × Nat)
  /-- The next read-cell number (04 R112). -/
  rc : Nat
  /-- The open defect window: first and last defective read cell. -/
  window : Option (Nat × Nat)
  winTa : Bool
  winDo : Bool
  /-- Erased ranges of closed windows. -/
  windows : List (Nat × Nat)
  /-- Equaliser taps, by 10 × element + tap, signed Q1.14 as 16 bits. -/
  taps : SMap Nat
  /-- Sample-buffer bytes, by (3 × entry + element) × 65,536 + cell; one that no capture has written since power-up `gen` is
  undefined (02 R54). -/
  samp : SMap Nat
  gen : Nat
  /-- The sectors that hold entries 0 and 1. -/
  sects : SMap Sect
  /-- Detection records: lower and upper half, oldest first (05 R151). -/
  fifo : List (Nat × Nat)
  /-- The record whose lower half was read. -/
  fifoLatched : Bool
  /-- Media clock: N0 as a fraction, phase moved in 1/64 cell, and the runs of fields (06 R154 to R158). -/
  n0num : Nat
  n0den : Nat
  phase : Int
  validCnt : Nat
  okRun : Nat
  badRun : Nat
  invRun : Nat
  /-- Lock was lost and not regained. -/
  unlocked : Bool
  /-- Gate levels from the edge queue, and the write gate itself (07 R182). -/
  rg : Bool
  wg : Bool
  sg : Bool
  fw : Bool
  gate : Bool
  /-- The wedge counter WC, running from the first valid wedge address of the member on, and the cell counter CC as it last
  stood (07 R179). -/
  wc : Option Nat
  cc : Nat
  /-- The wedges that the slot has entered since WC last followed an address or a missed field (07 R179). -/
  ahead : Nat
  eq : List Edge
  /-- The sector whose further entries are discarded as late. -/
  discard : Option Nat
  /-- The sector whose first entry was applied last. -/
  started : Option Nat
  /-- The write sectors in staging, oldest first. -/
  wr : List WrSect
  /-- The read sectors requested and not captured yet. -/
  rd : List RdSect
  /-- The data gain code of E1 while its servo gain applies (04 R111). -/
  dataGain : Option Nat
  /-- The DATAPATH and UNDERRUN sources until the next sector (06 Table WRP-1). -/
  dpSrc : Bool
  urSrc : Bool
  deriving DecidableEq, Repr

/-- A frame of the preamp control link and what its completion means (06 R171, R172; 07 R184). -/
structure PaFrame where
  read : Bool
  addr : Nat
  data : Nat
  /-- 0 member start, 1 read-back of a member start, 2 fast-write change, 3 firmware, 4 a frame in progress whose member has
  ended. -/
  kind : Nat
  /-- Local slot index. -/
  slot : Nat
  deriving DecidableEq, Repr

/-- The preamp link of an actuator. -/
structure PaLink where
  prog : Option PaFrame
  member : List PaFrame
  fast : List PaFrame
  fw : List PaFrame
  deriving DecidableEq, Repr

/-- The deep-decoder pool (05 R144): queued sectors as slot × 2 + entry, those that wait for a place, and the
engines with their sector and attempt. -/
structure Pool where
  queue : List Nat
  waiting : List Nat
  engines : SMap (Nat × Nat)
  /-- Blocks of successful attempts of undecided sectors, by 8 × sector + attempt. -/
  blocks : SMap Nat
  deriving DecidableEq, Repr

/-- The shock island (06 R165, R168): consecutive samples within threshold by input, and the source. -/
structure Shock where
  okRun : SMap Nat
  active : Bool
  deriving DecidableEq, Repr

/-- The sector a thread works on (07 R191). -/
structure Cur where
  /-- A number of its own, rising per sector taken. -/
  sec : Nat
  rid : Nat
  idx : Nat
  psi : Nat
  /-- The fragment CMP was last set to. -/
  frag : Nat
  deriving DecidableEq, Repr

/-- A formatter thread (07 R176). -/
structure Thread where
  pc : Nat
  patch : Bool
  cmpW : Nat
  cmpC : Nat
  lc0 : Nat
  lc1 : Nat
  /-- The word in its beat, and whether its edge-queue push is still due. -/
  word : Option Nat
  pushDue : Bool
  /-- At the course barrier. -/
  barrier : Bool
  cur : Option Cur
  deriving DecidableEq, Repr

/-- A run (07 R189 to R193). -/
structure Run where
  rid : Nat
  tag : Nat
  list : Nat
  first : Nat
  count : Nat
  write : Bool
  /-- STATUS by index; an unlisted sector is not final. -/
  stat : SMap Nat
  /-- Limited revisits used, by index. -/
  used : SMap Nat
  /-- The index it began at, and how many first passes were taken. -/
  start : Nat
  taken : Nat
  /-- The revisit set, and sectors whose revisits are used up. -/
  revisit : List Nat
  exhausted : List Nat
  /-- Indices that failed a data-path check last (21 R530). -/
  dataPath : List Nat
  deriving DecidableEq, Repr

/-- A member as a commit fixes it (07 R194). -/
structure CMember where
  head : Nat
  track : Nat
  write : Bool
  offH : Int
  deriving DecidableEq, Repr

/-- A formatter beside its registers (07). -/
structure Fmt where
  threads : SMap Thread
  queues : SMap (List Run)
  cur : SMap Run
  /-- Runs ended by a barrier or machine check that are not in FMT_DONE yet: local slot and run. -/
  ended : List (Nat × Run)
  course : SMap CMember
  pend : Option (SMap CMember)
  /-- Local slots whose committed member has not begun yet (07 R195). -/
  due : List Nat
  nextRid : Nat
  nextSec : Nat
  /-- Entries of FMT_DONE, oldest first. -/
  done : List Nat
  /-- Patch words by number; an unlisted one is undefined, drawn by the generation (07 R200). -/
  patch : SMap Nat
  gen : Nat
  /-- The expected CRC of a running verification, and the CRC of the last successful one. -/
  expect : Nat
  lastCrc : Nat
  sweep : Nat
  deriving DecidableEq, Repr

/-- A servo source beside SRV_STATUS (08 R212 to R217). -/
structure Src where
  head : Option Nat
  /-- SAMs matched in VERIFY; missed SAMs and wrong wedge numbers in a row. -/
  okRun : Nat
  missRun : Nat
  wrongRun : Nat
  /-- The wedge number predicted for the next field. -/
  wedge : Nat
  /-- Positions of the last two wedge intervals where valid, later first. -/
  y1 : Option Int
  y2 : Option Int
  /-- The flags of the last servo field (R217); SAM before the first one. -/
  flags : Nat
  deriving DecidableEq, Repr

/-- The reference head (08 R221): its head, the last SAM stamp (1/256 tick) with its wedge, and the last W0 stamp. -/
structure RefHead where
  head : Option Nat
  lastSam : Option (Nat × Nat)
  lastW0 : Option Nat
  deriving DecidableEq, Repr

/-- A position sample on its way to a lane (08 R218, 09 R228): the slot, head, wedge, flags, pair used (1: CD) and position;
track × 4,096 and off_h of the course member that delivered it (none for a servo-only source); r_h and off_h as they stood
when its source ended, if it has; whether it belongs to its group and closes it. -/
structure Sample where
  slot : Nat
  head : Nat
  wedge : Nat
  flags : Nat
  pair : Nat
  y : Int
  ref : Option (Int × Int)
  ended : Option (Int × Int)
  inGroup : Bool
  closes : Bool
  deriving DecidableEq, Repr

/-- What a micro job leaves for its group's VCM job (09 R235): head, validity, e_h, y_h, u_h and off_h. -/
structure JobRec where
  head : Nat
  valid : Bool
  e : Int
  y : Int
  u : Int
  off : Int
  deriving DecidableEq, Repr

/-- An open sample group (09 R228): its wedge number, and its expected set and the samples that have come, as masks of local
slots. -/
structure Grp where
  wedge : Nat
  exp : Nat
  got : Nat
  deriving DecidableEq, Repr

/-- The groups of an actuator of one parity: the expected set of the last one that began, and the open ones. -/
structure Grps where
  last : Nat
  opened : List Grp
  deriving DecidableEq, Repr

/-- What each copy of a lane holds for itself (09 R225): coefficient banks, coefficients in use, filter states, integrator. -/
structure LaneCopy where
  coef : SMap Nat
  live : SMap Nat
  micro : SMap Int
  vcm : SMap Int
  integ : Int
  deriving DecidableEq, Repr

/-- A control-engine lane beside its registers (09); filter values have 16 fractional bits. `coef`, `live`, `micro`, `vcm`
and `integ` are the main copy's; `chk` is the checker copy. -/
structure Lane where
  /-- Coefficient words of both banks by offset in the lane, as they have landed. -/
  coef : SMap Nat
  /-- The coefficients in use, by offset in the bank (R240, R241). -/
  live : SMap Nat
  /-- The pending bank switch: bank and STATE_CLR. -/
  sw : Option (Nat × Bool)
  /-- Values still in use of register fields written since the last boundary, by Field.key (R253). -/
  old : SMap Nat
  /-- A seek command that waits for the boundary, with its target. -/
  go : Option Nat
  /-- Micro filter states, by 16 × head + 2 × biquad + (0 s1, 1 s2). -/
  micro : SMap Int
  /-- VCM filter states, by 2 × biquad + (0 s1, 1 s2). -/
  vcm : SMap Int
  integ : Int
  /-- Last command, last valid e_h and run of invalid samples of each head; heads whose command is held. -/
  u : SMap Int
  eLast : SMap Int
  inv : SMap Nat
  heldHeads : Nat
  /-- The jobs of the open groups, by 512 × parity + wedge. -/
  recs : SMap (List JobRec)
  xref : Int
  xtarget : Int
  v : Int
  aref : Int
  /-- No group has closed since ON: X_ref is still to be set (Table CTL-3). -/
  fresh : Bool
  ev : Int
  /-- Groups in a row: settled, over the following-error limit, empty, clean. -/
  settle : Nat
  fe : Nat
  empty : Nat
  clean : Nat
  /-- The following-error count has just reached CTL_FE_TIMER (R248). -/
  feDue : Bool
  /-- Learner words by 512 × head + wedge (R243). -/
  learner : SMap Nat
  /-- No job has run since the last group boundary, and a bad sample has come in the open group (R249). -/
  bound : Bool
  dirty : Bool
  /-- The checker copy (R225). -/
  chk : LaneCopy
  deriving DecidableEq, Repr

/-- The power die beside its registers (10). Times are in 5/96 ns: 5 ns is 96 of them, 1/256 tick of 25 MHz is 3. -/
structure Spn where
  /-- The direction that DIR named at the last START (R266). -/
  dir : Bool
  /-- A spin-up runs: START has been given and AT_SPEED has not set since (R269). -/
  spinUp : Bool
  /-- Failed handovers since the last START (R265). -/
  fails : Nat
  /-- The commutation step driven, 1 to 6; 0 with every switch off (Table SPN-1). -/
  step : Nat
  /-- The last step intervals, latest first, at most 24. -/
  steps : List Nat
  /-- When this step's zero crossing came, from the step's begin. -/
  zcAt : Option Nat
  /-- Consecutive zero crossings that agree with the open-loop prediction (R265). -/
  zcOk : Nat
  /-- Consecutive steps without a zero crossing (R261). -/
  missRun : Nat
  /-- Time since the target was last moved, up to the begin of this step. -/
  since : Nat
  /-- The last qualifying wedge intervals in 1/256 tick, latest first, at most 32 (R267). -/
  wedges : List Nat
  /-- The target speed in rpm / 19,200,000,000, so that SLEW moves it by SLEW in each 5/96 ns (R268). -/
  target : Nat
  /-- The PI loop's integrator and the modulation depth d, in 2^-32 (R268). -/
  integ : Int
  depth : Nat
  /-- Steps, 24 in a revolution, that the speed has stayed within 0.05 % and outside 0.2 % of the set-point (R268). -/
  inRun : Nat
  outRun : Nat
  /-- The brake mode applied (Table SPN-4); 3 (coast) while no brake runs. -/
  brake : Nat
  /-- VMOT in mV at the last chopper-on (R272). -/
  vmotOn : Nat
  /-- The input switch is open (R256), and has opened at the fail threshold, so that it stays open until a device reset. -/
  switchOpen : Bool
  vinFailed : Bool
  /-- Steps of RAMP that have ended (R265). -/
  rampN : Nat
  /-- The speed last measured by any means, in 1/256 rpm (R263, R264, R267). -/
  measured : Nat
  /-- Driver registers, by 16 × actuator + output: 0 to 11 micro outputs, 12 the VCM bridge (R274, R275). -/
  drv : SMap Int
  /-- Messages of the lanes on the die-to-die lane, oldest first: lane, output (13: STOP), code. -/
  d2d : List (Nat × Nat × Int)
  deriving DecidableEq, Repr

/-- A valid window entry (11 Table SPT-2); an index without one is free. -/
structure WinEntry where
  lba : Nat
  nsid : Nat
  seq : Nat
  /-- The 4,112 bytes of the block. -/
  block : Nat
  /-- The block could not be written (11 R285). -/
  held : Bool
  deriving DecidableEq, Repr

/-- An entry of the Deferred Error Log (16 R409). -/
structure DefErr where
  nsid : Nat
  lba : Nat
  status : Nat
  /-- Sequence number of the write. -/
  seq : Nat
  deriving DecidableEq, Repr

/-- A save area as it stands in the keep-store (11 R298). -/
structure SaveArea where
  seq : Nat
  poc : Nat
  pos : Nat
  winBytes : Nat
  /-- The commit record was written. -/
  complete : Bool
  ms : Nat
  vstore : Nat
  /-- Chunks written. -/
  chunks : Nat
  /-- Chunk positions written with an inverted CRC (21 R532). -/
  bad : List Nat
  journal : SMap Nat
  window : SMap WinEntry
  metaBytes : SMap Nat
  tail : SMap EvRec
  del : List DefErr
  delLost : Nat
  failed : SMap Nat
  zones : SMap Zone
  deriving DecidableEq, Repr

/-- What VHOLD does (11 R287, R292, R293). -/
inductive VHold where
  | follows | held | off | collapsed
  deriving DecidableEq, Repr

/-- The capacitor self-test (11 R295). -/
inductive SelfTest where
  | idle | drawing | recharging
  deriving DecidableEq, Repr

/-- The Soundpost beside its registers (11). -/
structure Spt where
  /-- The next window SEQ. -/
  winNext : Nat
  /-- New window entries and journal records are taken (11 Table SPT-4 step 2). -/
  taking : Bool
  /-- The journal and window regions are frozen, and the metadata region (11 R288). -/
  frozenJW : Bool
  frozenMeta : Bool
  window : SMap WinEntry
  /-- Journal records by index, 64 bytes each as a number. -/
  journal : SMap Nat
  /-- Firmware's bytes of the metadata region. -/
  metaBytes : SMap Nat
  /-- The Deferred Error Log, oldest first. -/
  del : List DefErr
  /-- Records not stored for want of room. -/
  delLost : Nat
  /-- Failed LBAs (namespace × 2^64 + LBA) with their status (15 R551). -/
  failed : SMap Nat
  /-- Zones by namespace × 2^32 + zone number (15 R402). -/
  zones : SMap Zone
  /-- SPT_FAIL of Table WRP-1: a VIN fail or a fault save (06 R165, 21 R531). -/
  failSrc : Bool
  saving : Bool
  /-- The area the running save writes into. -/
  into : Nat
  /-- The running save is a fault save (21 R531). -/
  faultSave : Bool
  /-- The save areas: 0 A, 1 B. -/
  areas : SMap SaveArea
  /-- The restored areas that await RELEASE, newest first. -/
  restored : List Nat
  vhold : VHold
  /-- VSTORE has reached 33 V since it last fell. -/
  full : Bool
  test : SelfTest
  /-- An abandoned test waits for its retry. -/
  retry : Bool
  /-- The last self-test passed. -/
  passed : Bool
  /-- Held or restored entries that are to be written again (11 R285, R300). -/
  rewrite : List Nat
  /-- The measured C as a time, in 25 MHz ticks (C = 0.1 A × t / 2 V). -/
  capTicks : Nat
  deriving DecidableEq, Repr

/-- The raw-window operation in progress (12 R320). -/
inductive RawOp where
  | idle | reading | writing
  deriving DecidableEq, Repr

/-- A request of a class for the stack that waits (12 R308, R317): HBM_READ or HBM_PARTIAL_WRITE, of port `port` where the
class is HOST. -/
structure HbmReq where
  cls : Nat
  port : Nat
  write : Bool
  addr : Nat
  len : Nat
  data : Nat
  deriving DecidableEq, Repr

/-- The buffer manager beside its registers (12). -/
structure Buf where
  /-- HBM training runs (12 R304). -/
  training : Bool
  /-- The stack is in self-refresh (02 R54). -/
  selfRef : Bool
  /-- Bursts of credit left in this round, by class (12 R307). -/
  credit : SMap Nat
  /-- The class that received the last excess burst (12 R308). -/
  lastExcess : Nat
  /-- The port of HOST served last, and the requests that wait, in order of arrival (R308). -/
  lastHost : Nat
  waiting : List HbmReq
  /-- Refreshes issued. -/
  refreshes : Nat
  /-- The running repair: kind (hard) and its burst. -/
  ppr : Option (Bool × Nat)
  /-- Repairs used: soft and hard, by bank. -/
  pprSoft : SMap Nat
  pprHard : SMap Nat
  raw : RawOp
  /-- Data and check bytes that the running raw read has taken (R315, R320). -/
  rawGot : Nat × Nat
  /-- The burst the running scrub has reached. -/
  scrubPos : Nat
  /-- The running scrub is an SRAM sweep, and its number of bursts. -/
  scrubSram : Bool
  scrubLen : Nat
  /-- Inverted bits of stored SRAM words, as a mask, by instance × 2^22 + word (12 R318, R321). -/
  flips : SMap Nat
  deriving DecidableEq, Repr

/-- A host port beside its registers (14). -/
structure Port where
  /-- PERST_N is low, and WAKE_N asserted (R366). -/
  perst : Bool
  wakeN : Bool
  /-- Configuration bits the host writes: PME_En, MSI-X enable and function mask, the two autonomous-change disables. -/
  pmeEn : Bool
  msixEn : Bool
  msixMask : Bool
  speedDis : Bool
  widthDis : Bool
  /-- Reads issued before Bus Master Enable was cleared are outstanding (R368). -/
  reads : Bool
  /-- Within the 10 ms of a port reset (R370). -/
  flr : Bool
  /-- Rate and width held before Doze (R367). -/
  linkSaved : Option (Nat × Nat)
  /-- Admin setup words ASQ, ACQ, ADEPTH (15 R373). -/
  asq : Nat
  acq : Nat
  adepth : Nat
  /-- MSI-X table words by number, and the pending bits. -/
  msix : SMap Nat
  pba : Nat
  /-- The I/O pair fetched from last (15 R379). -/
  rr : Nat
  deriving DecidableEq, Repr

/-- The live copy of a window entry (14 R356): its bytes, VERSION and DRAINING. -/
structure WinLive where
  raw : Nat
  version : Nat
  draining : Bool
  deriving DecidableEq, Repr

/-- An entry of the translation cache (14 R363). -/
structure AtsEntry where
  port : Nat
  base : Nat
  len : Nat
  xlat : Nat
  rd : Bool
  wr : Bool
  deriving DecidableEq, Repr

/-- A Translation Request outstanding: port, page, and whether an Invalidate Request has covered it (14 R364). -/
structure AtsReq where
  port : Nat
  page : Nat
  spoiled : Bool
  deriving DecidableEq, Repr

/-- A queue pair (15 R372). -/
structure Pair where
  sqBase : Nat
  cqBase : Nat
  sqDepth : Nat
  cqDepth : Nat
  vector : Nat
  ien : Bool
  sqHead : Nat
  sqTail : Nat
  cqHead : Nat
  cqTail : Nat
  /-- The P bit the next completion carries. -/
  phase : Bool
  deriving DecidableEq, Repr

/-- A completion fixed for a command (15 Table IQI-3). -/
structure Cpl where
  sc : Nat
  info : Nat
  result : Nat
  deriving DecidableEq, Repr

/-- An outstanding command, by its sequence number (15 R379, R380). -/
structure Cmd where
  port : Nat
  qid : Nat
  cid : Nat
  /-- The 64 bytes of its submission entry. -/
  sqe : Nat
  /-- Its completion, once completion-committed (15 R396). -/
  commit : Option Cpl
  /-- Its segments: host address and length (15 R383). -/
  segs : List (Nat × Nat)
  /-- The submission-queue head after its fetch. -/
  sqhd : Nat
  /-- It waits at step 7 or 8 of the fetch checks (17 R441). -/
  waiting : Bool
  /-- Its own step has begun: a WRITE's data are in the buffer, a wait is running. -/
  begun : Bool
  /-- The cache-mode blocks a FLUSH covers, by buffer address (15 R394). -/
  flushSet : List Nat
  /-- The log page snapshot of a GET_LOG (16 R408): size and bytes. -/
  snap : Nat × Nat
  /-- Interrupted by a Bus Master Enable loss (15 R369). -/
  interrupted : Bool
  deriving DecidableEq, Repr

/-- A block of a WRITE in the buffer that is not on media, by its buffer address. -/
structure CacheBlk where
  nsid : Nat
  lba : Nat
  /-- Sequence number of its WRITE. -/
  seq : Nat
  /-- 1 cache, 2 safe, 3 media (15 Table IQI-7). -/
  mode : Nat
  win : Option Nat
  /-- Its WRITE has reached completion-committed. -/
  committed : Bool
  /-- Its media write ended without success, with this status. -/
  err : Option Nat
  deriving DecidableEq, Repr

/-- A firmware package (16 R412, 17 R426, R428): FORMAT, TOTAL_BYTES, its 128-byte descriptors, the images' bytes in the
same order, and the 1,024-byte header with the 8,192-byte signature block of each source. -/
structure FwPkg where
  format : Nat
  total : Nat
  descs : List Nat
  images : List Nat
  sources : List (Nat × Nat)
  deriving DecidableEq, Repr

/-- The boot record (16 R419). -/
structure BootRec where
  trial : Bool
  pending : Bool
  phase : Nat
  fails : Nat
  readySeen : Bool
  fallbackUsed : Bool
  deriving DecidableEq, Repr

/-- Administration and the firmware life cycle (16). -/
structure Admin where
  /-- The device mode (Table ADM-12). -/
  mode : Nat
  /-- The slot booted: 0 recovery, 1 active. -/
  booted : Option Nat
  /-- No slot starts (R415). -/
  noSlot : Bool
  /-- STRAP_ERR of IDENTIFY (01 R36). -/
  strapErr : Bool
  boot : BootRec
  recovery : Option FwPkg
  active : Option FwPkg
  fallback : Option FwPkg
  /-- The staging slot: 4 KiB units by number, and the units received since the last download at OFFSET 0; none after a
  download that failed. -/
  staging : SMap Nat
  received : Option Nat
  /-- LEVEL and VERSION of the images that run, by TYPE. -/
  run : SMap (Nat × Nat)
  /-- This start fell back (HEALTH code 3). -/
  fellBack : Bool
  /-- 600 s have passed since Ready without confirmation (R420). -/
  trialOver : Bool
  /-- TEMP_WARN has been raised and has not re-armed. -/
  hot : Bool
  /-- Counts since manufacture (Table ADM-6). -/
  fallbacks : Nat
  mediaErrs : Nat
  deferred : Nat
  /-- The register address of SMBus code 0x11. -/
  smbAddr : Nat
  deriving DecidableEq, Repr

/-- What a security command ends with: status, reason, and its output data by length and bytes (17 R452, R453). -/
structure SecResult where
  sc : Nat
  reason : Nat
  len : Nat
  data : Nat
  deriving DecidableEq, Repr

/-- A key range (17 R438, R451). -/
structure KRange where
  nsid : Nat
  first : Nat
  zones : Nat
  rlock : Bool
  wlock : Bool
  auto : Bool
  loaded : Bool
  gen : Nat
  /-- The media key. -/
  key : Nat
  /-- Both locks are set: the MK goes once every write of lower sequence number is on media (R439). -/
  discard : Option Nat
  deriving DecidableEq, Repr

/-- A debug token accepted, whose R445 wait runs: SCOPE, and the SEC_DEBUG that delivered it. -/
structure DbgWait where
  scope : Nat
  seq : Option Nat
  deriving DecidableEq, Repr

/-- The security block beside its registers (17). -/
structure Sec where
  owned : Bool
  ownerLock : Bool
  /-- The owner credential behind VER; 0 while unowned. -/
  cred : Nat
  /-- Device nonce and debug nonce; none before the first start has drawn them. -/
  nonce : Option Nat
  dbgNonce : Option Nat
  /-- SVN_FUSE where RAISE_SVN has raised it (R430). -/
  svn : Option Nat
  /-- IDK hashes of the roster (R448). -/
  roster : List Nat
  /-- Ranges by number; range 0 is always there. -/
  ranges : SMap KRange
  /-- The debug port: opened since reset, and the wait of R445. -/
  dbgOpened : Bool
  dbgWait : Option DbgWait
  /-- M0 to M3, 48 bytes each (R429). -/
  m : SMap Nat
  /-- Token words by number (R455). -/
  token : SMap Nat
  /-- A request of SEC_REQ_CTL runs. -/
  req : Bool
  /-- DRBG generate requests since the last seed. -/
  drbg : Nat
  /-- Save-key records: save SEQ and the keys by range (R443). -/
  saveKeys : SMap (SMap Nat)
  /-- The keys of the restored save, for writing its window entries to media only (R443). -/
  restKeys : SMap Nat
  /-- What the last security command ended with, for SEC_REQ_RESULT (R453). -/
  result : Option SecResult
  deriving DecidableEq, Repr

/-- A session (18 R447, R449, R461): the flit counter of this direction's key, one above the last counter accepted under
the other's, the same for the old key while it is still accepted, whether a flit under the new key has come, and whether
sending has stopped at the key's limit. -/
structure RSession where
  tx : Nat
  rx : Nat
  oldRx : Option Nat
  newSeen : Bool
  stopped : Bool
  deriving DecidableEq, Repr

/-- What a frame of this member belongs to: nothing, a committed map, or a strip request of the chord engine. -/
inductive RReq where
  | none
  | map
  | strip (id : Nat)
  deriving DecidableEq, Repr

/-- A frame sent and not answered (18 R479). -/
structure RFrame where
  type : Nat
  dst : Nat
  cls : Nat
  waddr : Nat
  flen : Nat
  payload : Nat
  attempts : Nat
  /-- 0 sent; 1 in its backoff; 2 waiting for a session. -/
  st : Nat
  req : RReq
  deriving DecidableEq, Repr

/-- A local frame that waits for slots on a port: its class, the flits left, and the message it is. -/
structure TxItem where
  cls : Nat
  left : Nat
  msg : Out
  deriving DecidableEq, Repr

/-- A ring port: 0 East, 1 West (18 R463, R464, R466). -/
structure RPort where
  up : Bool
  retraining : Bool
  credits : Nat
  /-- Receive slots freed since credits were last returned. -/
  freed : Nat
  /-- Transit flits that leave by this port, oldest first; they hold slots of the other port's receive buffer. -/
  fwd : List Nat
  loc : List TxItem
  /-- Local slots of the running sixteen, and those that background had. -/
  slot : Nat
  bg : Nat
  deriving DecidableEq, Repr

/-- The ring engine beside its registers (18). -/
structure Ring where
  /-- The newest map accepted, 136 bytes (R470). -/
  map : Option Nat
  /-- The roster hash differs from the map's (R468). -/
  rosterBad : Bool
  /-- As manager: members that wait for admission, have left, and have been declared failed. -/
  joins : List Nat
  leaves : List Nat
  failed : List Nat
  /-- The last heartbeat of each member heard within 20 ms. -/
  alive : SMap Heartbeat
  sessions : SMap RSession
  /-- Peers with whom an agreement runs. -/
  agreeing : List Nat
  frames : SMap RFrame
  nextFrame : Nat
  ports : SMap RPort
  splicing : Bool
  /-- The splice timed out and waits for its retry. -/
  spliceWait : Bool
  /-- Both segments are up and JOIN has not been sent. -/
  wantJoin : Bool
  leaving : Bool
  claiming : Bool
  /-- Strip requests whose frame failed. -/
  lostReqs : List Nat
  deriving DecidableEq, Repr

/-- A committed layout with its failure list (19 R483, R487). -/
structure Layout where
  seed : Nat
  roster : Nat
  k : Nat
  m : Nat
  spare : Nat
  base : Nat
  rows : Nat
  fails : List Nat
  deriving DecidableEq, Repr

/-- What asked for a strip request: a chord write, or a row that waits for nothing. -/
inductive StripFor where
  | write (jid : Nat)
  | none
  deriving DecidableEq, Repr

/-- A strip request or answer of this member (19 Table CHD-1) with the blocks it carries. -/
structure StripReq where
  target : Nat
  op : Nat
  slot : Nat
  chord : Nat
  strip : Nat
  first : Nat
  count : Nat
  jid : Nat
  coef : Nat
  mask : Nat
  recd : Nat
  blocks : List Nat
  /-- REQ_ID and STATUS as the cell carries them. -/
  tag : Nat
  status : Nat
  /-- The first staging slot, where it is given (an answer). -/
  fixed : Option Nat
  /-- The cell and first slot it holds at its target once its blocks have been sent, and whether its cell has been. -/
  place : Option (Nat × Nat)
  sent : Bool
  /-- It met LOCKED and waits for its retry (R488). -/
  locked : Bool
  /-- Ring class: 1 foreground, 2 background. -/
  cls : Nat
  purpose : StripFor
  deriving DecidableEq, Repr

/-- A chord write on its way through the sequence of 19 R490. -/
structure ChordOp where
  slot : Nat
  owner : Nat
  chord : Nat
  strip : Nat
  first : Nat
  /-- The new blocks, and the buffer addresses they come from. -/
  blocks : List Nat
  addrs : List Nat
  /-- 1 journal, 2 old blocks, 3 other strips, 4 parity, 5 data, 6 parity of offsets that were lost. -/
  phase : Nat
  /-- Blocks read, by 64 × strip + offset. -/
  got : SMap Nat
  /-- Requests not answered yet. -/
  await : List Nat
  /-- DONE of the record (Table CHD-4). -/
  done : Nat
  deriving DecidableEq, Repr

/-- A scan of owned chords (19 R498, R499): the volume's owner, the chord reached, the layout slot and list it uses, and
the point and list of a scan it replaced. -/
structure Scan where
  owner : Nat
  slot : Nat
  u : Nat
  list : List Nat
  prev : Option (Nat × List Nat)
  deriving DecidableEq, Repr

/-- The chord engine beside its registers (19). -/
structure Chd where
  layouts : SMap Layout
  /-- Staged layout registers of the slot that CHD_CTL.SLOT does not name, by Field.key. -/
  other : SMap Nat
  /-- The JID the next record takes. -/
  jid : Nat
  ops : SMap ChordOp
  reqs : SMap StripReq
  nextReq : Nat
  /-- Requests handed over by the ring engine: 64 × source + cell. -/
  inbox : List Nat
  /-- The strip namespace's blocks by strip-namespace LBA. -/
  strips : SMap Nat
  /-- The lost-chord map: masks by the first 8 bytes of the entry (R502). -/
  lost : SMap Nat
  /-- The failure lists at the last completed scan, by volume owner. -/
  scanned : SMap (List Nat)
  scans : List Scan
  /-- The layout slot a reshape fills, and whether a failure suspends it. -/
  target : Option Nat
  suspended : Bool
  /-- Failed members whose volume waits for adoption. -/
  adoptNext : List Nat
  /-- A write of RECOVER has been accepted. -/
  recovering : Bool
  deriving DecidableEq, Repr

/-- An L2 line (13 R334): its line number (address bits [35:6]), dirty, and its 64 bytes. -/
structure L2Line where
  line : Nat
  dirty : Bool
  data : Nat
  deriving DecidableEq, Repr

/-- A maintenance operation that runs (13 R341): OP, TARGET, by set and way, the first line or position, how many, and
how many of them it has processed. -/
structure MntOp where
  op : Nat
  target : Nat
  byWay : Bool
  first : Nat
  len : Nat
  done : Nat
  deriving DecidableEq, Repr

/-- A line of an L1 (13 R331): its 64 bytes, and where they lie in the cache's SRAM, from 0 to 1,023. -/
structure L1Line where
  data : Nat
  pos : Nat
  deriving DecidableEq, Repr

/-- Cores, caches, DMA and the real-time core's memory (13). -/
structure Cores where
  /-- Valid L2 lines by 16 × set + way. -/
  l2 : SMap L2Line
  /-- The eviction buffer, oldest first: line number and 64 bytes (R338). -/
  evict : List (Nat × Nat)
  /-- L1 lines by 2^30 × (2 × core + 0 data, 1 instruction) + line number (R331). -/
  l1 : SMap L1Line
  /-- L1s whose contents are undefined since their domain came up, by the same bits (02 R54, R332). -/
  l1Junk : Nat
  /-- L1s that are enabled, and whole invalidations that run, as masks by 2 × core + (0 data, 1 instruction) (R332). -/
  l1On : Nat
  l1Inv : Nat
  /-- Running maintenance operations by requester. -/
  mnt : SMap MntOp
  /-- DMA channels that run: the address of the descriptor in progress and its 64 bytes as fetched (R344, R347). -/
  dma : SMap (Nat × Nat)
  /-- The real-time TCM, 1 MiB, byte by byte (R328); an unlisted byte reads 0. -/
  tcm : List Host.Cell
  /-- The real-time pair is held (21 R531). -/
  rtHeld : Bool
  deriving DecidableEq, Repr

/-- The state of the block. -/
structure State where
  /-- The commands that wait, first in, first out. -/
  pending : List Instr
  /-- Every register field not at its reset value, by Field.key (a reset value is not listed). -/
  f : SMap Nat
  /-- Held lower halves of two-register writes, by address of the lower register (00 R10). -/
  held : SMap Nat
  /-- Latched upper halves, by address of the lower register (00 R10). -/
  shadow : SMap Nat
  /-- What the last access answered. -/
  resp : Resp
  /-- Messages the block has sent, oldest first. -/
  out : List Out
  /-- The model's own counter that free values are drawn with (DESIGN CHOICE 0). -/
  free : Nat
  /-- The HBM buffer, byte by byte, by buffer address (12 R303); an unlisted byte reads 0. -/
  mem : List Host.Cell
  /-- The stored check bytes of a burst XOR the check bytes RS(36,32) computes of its data; an unlisted burst holds valid check bytes. -/
  chk : SMap Nat
  /-- Supplies, start-up, domains, resets. -/
  pwr : Power
  /-- The event recorder. -/
  evr : Evr
  /-- The buffer manager. -/
  buf : Buf
  /-- The Soundpost: save store, save areas, hold-up supply. -/
  spt : Spt
  /-- Peg tables, alignment maps, relocations. -/
  media : Media
  /-- Head slots by number 0 to 15; an unlisted slot is Slot.init (Ops). -/
  slots : SMap Slot
  /-- Preamp links by actuator. -/
  pas : SMap PaLink
  /-- The deep-decoder pool. -/
  pool : Pool
  /-- The shock island. -/
  shock : Shock
  /-- Formatters by actuator; an unlisted one is Fmt.init (Ops). -/
  fmts : SMap Fmt
  /-- Servo sources by slot number. -/
  srcs : SMap Src
  /-- The reference head. -/
  refHead : RefHead
  /-- Outstanding commands by sequence number. -/
  cmds : SMap Cmd
  /-- Blocks of WRITEs in the buffer that are not on media. -/
  cache : SMap CacheBlk
  /-- Pending IQI events of each port: type and information, oldest first. -/
  iqiEv : SMap (List (Nat × Nat))
  /-- Namespaces whose next completion carries DEFERRED (15 R399). -/
  deferNs : List Nat
  /-- Current values of features, by FID (16 Table ADM-9); an unlisted feature has its default. -/
  feat : SMap Nat
  /-- Saved values of features. -/
  featSaved : SMap Nat
  /-- The PES source of Table WRP-1, a bit for each actuator. -/
  pesSrc : Nat
  /-- The CTL_COMPARE source of Table WRP-1, a bit for each actuator. -/
  cmpSrc : Nat
  /-- Samples delivered to each lane and not taken by a job yet, oldest first. -/
  laneIn : SMap (List Sample)
  /-- The power die: spindle, drivers, retract. -/
  spn : Spn
  /-- Sample groups by 2 × actuator + parity. -/
  grps : SMap Grps
  /-- Control-engine lanes by actuator; an unlisted one is laneInit (Slots). -/
  lanes : SMap Lane
  /-- The host ports by number; an unlisted one is portInit (Ports). -/
  ports : SMap Port
  /-- Staged window entries, 32 bytes each as a number (14 R356). -/
  winStaged : SMap Nat
  /-- Live window entries that have been committed. -/
  winLive : SMap WinLive
  /-- The translation cache, most recently used first. -/
  ats : List AtsEntry
  /-- Translation Requests outstanding. -/
  atsReq : List AtsReq
  /-- Invalidate Requests not completed: port and tag, oldest first. -/
  atsInv : List (Nat × Nat)
  /-- Queue pairs by 65,536 × port + number. -/
  pairs : SMap Pair
  /-- The sequence number of the next fetch (15 R379). -/
  nextSeq : Nat
  /-- The port fetched from last. -/
  lastPort : Nat
  /-- Both ports have stopped fetching for a firmware reset (16 R418). -/
  fetchStop : Bool
  /-- Administration and firmware life cycle. -/
  adm : Admin
  /-- Security. -/
  sec : Sec
  /-- The ring engine. -/
  ring : Ring
  /-- The chord engine. -/
  chd : Chd
  /-- Cores, caches, DMA and the real-time core's memory. -/
  core : Cores
  deriving DecidableEq, Repr

/-- The block never stops with a fault: every error the spec describes is an effect on the state. -/
inductive Fault where
  /-- Raised by no command; it stands so that the type is closed and inhabited (safe: nothing can reach it). -/
  | none
  deriving DecidableEq, Repr

/-- Why a command has no meaning in the model. -/
inductive Refusal where
  /-- Raised only by an arm of exec whose command has no meaning yet (safe: the run stops). -/
  | notModelled (mnemonic : String)
  deriving DecidableEq, Repr

/-- What a command answers. -/
abbrev Res := Host.Outcome State Fault Refusal

/-- The block right after reset: SYS_POR_N has been applied (low), every register field at its reset value, supplies
present, nothing listed in any table, the queue empty. -/
def State.reset : State where
  pending := []
  f := []
  held := []
  shadow := []
  resp := .none
  out := []
  free := 0
  mem := []
  chk := []
  pwr := ⟨false, true, 0, false, .off, false, [], [], 0, 0, 0, false, false, false, false, 0, 0, 0⟩
  evr := ⟨0, 0, [], [], [], [], [], 0, []⟩
  buf := ⟨false, false, [], 4, 1, [], 0, none, [], [], .idle, (0, 0), 0, false, 0, []⟩
  spt := ⟨0, true, false, false, [], [], [], [], 0, [], [], false, false, 0, false, [], [], .off, false, .idle, false, false, [], 0⟩
  media := ⟨[], [], [], [], [], [], [], [], [], []⟩
  slots := []
  pas := []
  pool := ⟨[], [], [], []⟩
  shock := ⟨[], false⟩
  fmts := []
  srcs := []
  refHead := ⟨none, none, none⟩
  cmds := []
  cache := []
  iqiEv := []
  deferNs := []
  feat := []
  featSaved := []
  pesSrc := 0
  cmpSrc := 0
  laneIn := []
  spn := ⟨false, false, 0, 0, [], none, 0, 0, 0, [], 0, 0, 0, 0, 0, 3, 0, false, false, 0, 0, [], []⟩
  grps := []
  lanes := []
  ports := []
  winStaged := []
  winLive := []
  ats := []
  atsReq := []
  atsInv := []
  pairs := []
  nextSeq := 1
  lastPort := 1
  fetchStop := false
  adm := ⟨3, none, false, false, ⟨false, false, 0, 0, false, false⟩, none, none, none, [], none, [], false, false, false, 0, 0, 0, 0⟩
  sec := ⟨false, false, 0, none, none, none, [], [], false, none, [], [], false, 0, [], [], none⟩
  ring := ⟨none, false, [], [], [], [], [], [], [], 0, [], false, false, false, false, false, []⟩
  chd := ⟨[], [], 1, [], [], 0, [], [], [], [], [], none, false, [], false⟩
  core := ⟨[], [], [], 255, 0, 0, [], [], [], false⟩

end Sys2Proof.Machine
end

