-- ==== Sys2Proof/Machine/Ops.lean ====
section
/-! DEFINITION. The named operations over registers, memory, messages and free values that every meaning uses. -/

namespace Sys2Proof.Machine

/-- The value a register field holds. -/
def State.get (s : State) (F : Field) : Nat := SMap.get s.f F.rst F.key

/-- A field as a flag. -/
def State.flag (s : State) (F : Field) : Bool := s.get F != 0

/-- A field of two's complement. -/
def State.sget (s : State) (F : Field) : Int := toSigned F.width (s.get F)

/-- A field written; bits above its width are dropped. -/
def State.put (s : State) (F : Field) (v : Nat) : State :=
  { s with f := SMap.put s.f F.rst F.key (v % 2 ^ F.width) }

/-- A one-bit field written. -/
def State.putB (s : State) (F : Field) (b : Bool) : State := s.put F (b2n b)

/-- A field back at its reset value. -/
def State.clear (s : State) (F : Field) : State := s.put F F.rst

/-- A counter incremented by `n`; every counter stops at its top (00 Table SCP-3 RC; e.g. 20 R520). -/
def State.incBy (s : State) (F : Field) (n : Nat) : State := s.put F (satAdd (2 ^ F.width - 1) (s.get F) n)

/-- A counter incremented. -/
def State.inc (s : State) (F : Field) : State := s.incBy F 1

/-- Bit `i` of a mask field set. -/
def State.setBitOf (s : State) (F : Field) (i : Nat) : State := s.put F (setBit (s.get F) i)

/-- Bit `i` of a mask field cleared. -/
def State.clrBitOf (s : State) (F : Field) (i : Nat) : State := s.put F (clrBit (s.get F) i)

/-- The fields of a block's configuration status: a rejected write sets ERR and, only while ERR is 0, CODE
(00 R15; "While ERR is 1, later rejections leave CODE unchanged"). -/
def State.reject (s : State) (err code : Field) (c : Nat) : State :=
  if s.flag err then s else (s.put err 1).put code c

/-- A 64-bit value in two registers. -/
def State.get64 (s : State) (lo hi : Field) : Nat := s.get lo + 2 ^ 32 * s.get hi

/-- A 64-bit value written to two registers. -/
def State.put64 (s : State) (lo hi : Field) (v : Nat) : State := (s.put lo (v % 2 ^ 32)).put hi (v / 2 ^ 32)

/-- Do `g` where `b` holds. -/
def State.when (s : State) (b : Bool) (g : State → State) : State := if b then g s else s

/-- Do `g` for each element of a list, in order. -/
def State.each {α : Type} (s : State) (xs : List α) (g : State → α → State) : State := xs.foldl g s

/-- A message to the outside. -/
def State.emit (s : State) (o : Out) : State := { s with out := s.out ++ [o] }

/-- The answer of an access. -/
def State.answer (s : State) (r : Resp) : State := { s with resp := r }

/-- The model's counter of free values advanced by `n`. -/
def State.draw (s : State) (n : Nat) : State := { s with free := s.free + n }

/-- A byte of the buffer; an unlisted byte reads 0 (12 R304: every burst is initialised to zero data). -/
def State.byte (s : State) (a : Nat) : Byte := SMap.get s.mem 0 a

/-- A byte of the buffer written. -/
def State.setByte (s : State) (a : Nat) (b : Byte) : State := { s with mem := SMap.put s.mem 0 a b }

/-- `n` bytes of the buffer from `a`, as a little-endian number (00 R6). -/
def State.loadMem (s : State) (a n : Nat) : Nat :=
  match n with
  | 0 => 0
  | n + 1 => (s.byte a).toNat + 256 * s.loadMem (a + 1) n

/-- `n` bytes of a little-endian number written to the buffer from `a`. -/
def Mem.store (m : List Host.Cell) (a v : Nat) : Nat → List Host.Cell
  | 0 => m
  | n + 1 => Mem.store (SMap.put m 0 a (BitVec.ofNat 8 v)) (a + 1) (v / 256) n

/-- `n` bytes of a little-endian number written to the buffer from `a`. -/
def State.storeMem (s : State) (a v n : Nat) : State := { s with mem := Mem.store s.mem a v n }

/-! One field of the state replaced. -/

def State.setF (s : State) (x : SMap Nat) : State := { s with f := x }
def State.setHeld (s : State) (x : SMap Nat) : State := { s with held := x }
def State.setShadow (s : State) (x : SMap Nat) : State := { s with shadow := x }
def State.setMem (s : State) (x : List Host.Cell) : State := { s with mem := x }
def State.setChk (s : State) (x : SMap Nat) : State := { s with chk := x }
def State.setPwr (s : State) (x : Power) : State := { s with pwr := x }
def State.setEvr (s : State) (x : Evr) : State := { s with evr := x }
def State.setBuf (s : State) (x : Buf) : State := { s with buf := x }
def State.setSpt (s : State) (x : Spt) : State := { s with spt := x }
def State.setMedia (s : State) (x : Media) : State := { s with media := x }
def State.setPool (s : State) (x : Pool) : State := { s with pool := x }
def State.setShock (s : State) (x : Shock) : State := { s with shock := x }
def State.setRefHead (s : State) (x : RefHead) : State := { s with refHead := x }
def State.setCmds (s : State) (x : SMap Cmd) : State := { s with cmds := x }
def State.setCache (s : State) (x : SMap CacheBlk) : State := { s with cache := x }
def State.setIqiEv (s : State) (x : SMap (List (Nat × Nat))) : State := { s with iqiEv := x }
def State.setDeferNs (s : State) (x : List Nat) : State := { s with deferNs := x }
def State.setFeat (s : State) (x : SMap Nat) : State := { s with feat := x }
def State.setFeatSaved (s : State) (x : SMap Nat) : State := { s with featSaved := x }
def State.setPesSrc (s : State) (x : Nat) : State := { s with pesSrc := x }
def State.setCmpSrc (s : State) (x : Nat) : State := { s with cmpSrc := x }
def State.setLaneIn (s : State) (x : SMap (List Sample)) : State := { s with laneIn := x }
def State.setGrps (s : State) (x : SMap Grps) : State := { s with grps := x }
def State.setPorts (s : State) (x : SMap Port) : State := { s with ports := x }
def State.setWinStaged (s : State) (x : SMap Nat) : State := { s with winStaged := x }
def State.setWinLive (s : State) (x : SMap WinLive) : State := { s with winLive := x }
def State.setAts (s : State) (x : List AtsEntry) : State := { s with ats := x }
def State.setAtsReq (s : State) (x : List AtsReq) : State := { s with atsReq := x }
def State.setAtsInv (s : State) (x : List (Nat × Nat)) : State := { s with atsInv := x }
def State.setPairs (s : State) (x : SMap Pair) : State := { s with pairs := x }
def State.setNextSeq (s : State) (x : Nat) : State := { s with nextSeq := x }
def State.setLastPort (s : State) (x : Nat) : State := { s with lastPort := x }
def State.setFetchStop (s : State) (x : Bool) : State := { s with fetchStop := x }
def State.setAdm (s : State) (x : Admin) : State := { s with adm := x }
def State.setSec (s : State) (x : Sec) : State := { s with sec := x }
def State.setChd (s : State) (x : Chd) : State := { s with chd := x }

/-- The power die changed. -/
def State.modSpn (s : State) (g : Spn → Spn) : State := { s with spn := g s.spn }

/-- The state of a switched domain. -/
def State.domSt (s : State) (d : Nat) : DomSt := SMap.get s.pwr.dom .off d

/-- A switched domain is on. -/
def State.domOn (s : State) (d : Nat) : Bool := s.domSt d == .on

/-- The islands whose bit of SYS_CLK_FAULTn is 1, as a mask (02 Tables PWR-18, PWR-19). -/
def State.clkFaults (s : State) : Nat := s.get Reg.SYS_CLK_FAULT0_FAULT + 2 ^ 32 * s.get Reg.SYS_CLK_FAULT1_FAULT

/-- The clock of an island runs: no clock fault has stopped its block, and the Soundpost has not stopped the clock (02 R43,
Table PWR-22; 21 Table FLT-3: the block stops until its bit of SYS_CLK_FAULTn is cleared). -/
def State.clkOk (s : State) (i : Nat) : Bool := !hasBit s.clkFaults i && !hasBit s.pwr.clkStopped i

/-- The device power state. -/
def State.dev (s : State) : DevSt := s.pwr.dev

end Sys2Proof.Machine
end

