-- ==== Sys2Proof/Machine/Format.lean ====
section
/-! DEFINITION. The media format (03): sector placement, peg entries and their validation, alignment maps,
the stroke bound, and the order in which spares are taken. -/

open Sys2Proof

namespace Sys2Proof.Machine

/-! ## Sector placement (03 R76, R77, R82) -/

/-- V = ⌈CELLS / 16⌉: the cells of the servo field (03 Table MED-1). -/
def vCells (cells : Nat) : Nat := ceilDiv cells 16

/-- The length of a data area: D = CELLS − V − 384. -/
def dCells (cells : Nat) : Nat := cells - vCells cells - 384

/-- Codeword bits in a full later fragment. -/
def midBits (cells : Nat) : Nat := (dCells cells - 64) / 32 * 32

/-- One fragment of a sector: its wedge, its first cell in the data area, and its codeword bits. -/
structure Frag where
  wedge : Nat
  pos : Nat
  bitsN : Nat
  deriving DecidableEq, Repr

/-- The later fragments of a split sector: `remain` bits from wedge `w` on. -/
def laterFrags (mid w remain : Nat) : Nat → List Frag
  | 0 => []
  | 1 => [⟨w, 0, remain⟩]
  | n + 1 => ⟨w, 0, mid⟩ :: laterFrags mid (w + 1) (remain - mid) n

/-- The placement procedure of R82 from wedge `w`, cell `pos`; the fuel counts its iterations. -/
def placeFrom (cells w pos : Nat) : Nat → List (List Frag)
  | 0 => []
  | fuel + 1 =>
    if 512 ≤ w then []
    else
      let room := dCells cells - pos
      if 36976 ≤ room then [⟨w, pos, 36864⟩] :: placeFrom cells w (pos + 36976) fuel
      else
        let first := (room - 112) / 32 * 32
        if first < 1024 then placeFrom cells (w + 1) 0 fuel
        else
          let remain := 36864 - first
          let later := ceilDiv remain (midBits cells)
          if 511 < w + later then []
          else
            let last := remain - (later - 1) * midBits cells
            (⟨w, pos, first⟩ :: laterFrags (midBits cells) (w + 1) remain later) ::
              placeFrom cells (w + later) (48 + last + 16) fuel

/-- The sectors of a track whose band has CELLS `cells`, in placement order (R82). -/
def placement (cells : Nat) : List (List Frag) := placeFrom cells 0 0 2560

/-- The physical sector count S of a track. -/
def sectorCount (cells : Nat) : Nat := (placement cells).length

/-- The fragments of physical sector `i`. -/
def sectorFrags (cells i : Nat) : List Frag := ((placement cells)[i]?).getD []

/-- The cell of a fragment's first preamble cell within the revolution, counted from cell 0 of W0. -/
def Frag.cell (f : Frag) (cells : Nat) : Nat := f.wedge * cells + vCells cells + 128 + f.pos

/-- The cells a fragment takes: preamble and mark (96 first, 48 later), codeword bits and pad. -/
def Frag.len (f : Frag) (isFirst : Bool) : Nat := (if isFirst then 96 else 48) + f.bitsN + 16

/-! ## Peg entries (03 R96, R97); an entry is its 128 bytes, little-endian -/

/-- A field of a peg entry. -/
def pegAt (e off len : Nat) : Nat := bytesAt e off len

/-- A signed byte of a peg entry. -/
def pegSByte (e off : Nat) : Int := toSigned 8 (pegAt e off 1)

def pegFormat (e : Nat) : Nat := pegAt e 2 1
def pegMask (e : Nat) : Nat := pegAt e 3 1
def pegFirst (e : Nat) : Nat := pegAt e 4 4
def pegCells (e : Nat) : Nat := bits (pegAt e 8 4) 23 0
def pegSched (e : Nat) : Nat := pegAt e 0x0C 1
def pegSpareQ (e : Nat) : Nat := pegAt e 0x0D 1
def pegWeight (e el : Nat) : Nat := pegAt e (0x10 + 2 * el) 2
def pegGain (e el : Nat) : Nat := pegAt e (0x18 + el) 1
def pegOffset (e el : Nat) : Nat := pegAt e (0x1C + el) 1
def pegTap (e el t : Nat) : Nat := pegAt e (0x20 + 20 * el + 2 * t) 2
def pegPrecomp (e i : Nat) : Nat := pegAt e (0x5C + i) 1
def pegWriteCurrent (e : Nat) : Nat := pegAt e 0x60 1
def pegOvershoot (e : Nat) : Nat := pegAt e 0x61 1
def pegHeaterRead (e : Nat) : Nat := pegAt e 0x62 1
def pegHeaterWrite (e : Nat) : Nat := pegAt e 0x63 1

/-- CHECK: CRC-32 over bytes 0x00 to 0x7B. -/
def pegCheckOk (e : Nat) : Bool := pegAt e 0x7C 4 == crc32 (leBytes e 124)

/-- A present entry's stated ranges and reserved bits, other than the ordering rules (04 R104 for the weights). -/
def pegFieldsOk (e : Nat) : Bool :=
  decide (bit (pegMask e) 1 = 1) && decide (pegMask e < 8) && decide (pegFirst e < 2 ^ 24) &&
  decide (pegAt e 0x0B 1 = 0) && decide (16277 ≤ pegCells e) && decide (pegCells e ≤ 104166) &&
  decide (pegSched e ≤ 7) && decide (pegSpareQ e ≤ 63) && decide (pegAt e 0x0E 2 = 0) &&
  decide (pegAt e 0x16 2 = 0) && decide (pegAt e 0x1B 1 = 0) && decide (pegAt e 0x1F 1 = 0) &&
  decide (pegAt e 0x64 24 = 0) && decide (pegWeight e 1 ≠ 0) &&
  (List.range 3).all (fun el => hasBit (pegMask e) el || decide (pegWeight e el = 0)) &&
  (List.range 4).all (fun i => decide (-32 ≤ pegSByte e (0x5C + i)) && decide (pegSByte e (0x5C + i) ≤ 32))

/-- An entry of surface `f`, band `b` taken by itself. -/
def pegEntryOk (e f b : Nat) : Bool :=
  pegCheckOk e && decide (pegAt e 0 1 = f) && decide (pegAt e 1 1 = b) &&
    (pegFormat e == 0 || (pegFormat e == 1 && pegFieldsOk e))

/-- The CHECK bytes put behind 124 bytes. -/
def pegSeal (e : Nat) : Nat := e % 256 ^ 124 + 256 ^ 124 * crc32 (leBytes e 124)

/-- An absent band's entry with a valid CHECK, all other bytes 0. -/
def pegAbsent (f b : Nat) : Nat := pegSeal (f + 256 * b)

/-- The lowest invalid band of a surface: entries (by band; `none`: an absent one) checked in ascending order with
the ordering rules of R97 (`prev`: the FIRST_TRACK of the band below, where it is present). -/
def pegScan (f : Nat) (entries : Nat → Option Nat) (b : Nat) (prev : Option Nat) (below : Bool) : Nat → Option Nat
  | 0 => none
  | n + 1 =>
    match entries b with
    | none => pegScan f entries (b + 1) none false n
    | some e =>
      if ¬ pegEntryOk e f b then some b
      else if pegFormat e = 0 then pegScan f entries (b + 1) none false n
      else
        let ok := below && (match prev with
          | none => decide (pegFirst e = 0)
          | some p => decide (p < pegFirst e))
        if ok then pegScan f entries (b + 1) (some (pegFirst e)) true n else some b

/-- The lowest invalid band of surface `f` in an image, if any (R97, R549). -/
def pegBadBand (image : SMap Nat) (f : Nat) : Option Nat :=
  pegScan f (fun b => SMap.look image (64 * f + b)) 0 none true 64

/-- The band of a track on a surface: the highest present band whose FIRST_TRACK is at or below it (R74). -/
def bandOf (image : SMap Nat) (f track : Nat) : Option Nat :=
  ((List.range 64).filter (fun b => match SMap.look image (64 * f + b) with
    | some e => decide (pegFormat e = 1) && decide (pegFirst e ≤ track)
    | none => false)).getLast?

/-! ## Alignment maps (03 R84 to R87, R549) -/

/-- A field of an alignment point. -/
def apAnchor (p : Nat) : Nat := bytesAt p 0 4
def apOffset (p h : Nat) : Int := toSigned 32 (bytesAt p (0x08 + 8 * h) 4)
def apRro (p h : Nat) : Nat := bytesAt p (0x0C + 8 * h) 2
def apFlags (p h : Nat) : Nat := bytesAt p (0x0E + 8 * h) 2

/-- Anchor tracks rise strictly. -/
def anchorsRise : List Nat → Bool
  | [] => true
  | [_] => true
  | p :: q :: ps => decide (apAnchor p < apAnchor q) && anchorsRise (q :: ps)

/-- An alignment map serves actuator `a` (R549). Its reserved bytes are those of Table MED-5 and of the header; the upper byte
of FLAGS_h holds reserved bits of a field and is not checked as a reserved byte (DESIGN CHOICE, log entry 99). -/
def alignOk (m : AlignMap) (a : Nat) : Bool :=
  let n := bytesAt m.header 0 2
  decide (2 ≤ n) && decide (n ≤ 1024) && decide (m.points.length = n) && decide (bytesAt m.header 2 1 = a) &&
    decide (bytesAt m.header 3 13 = 0) && anchorsRise m.points &&
    m.points.all (fun p => decide (bytesAt p 4 4 = 0) && decide (bytesAt p 0x68 24 = 0))

/-- A head is fitted: bit 0 of its FLAGS in every point (R84). -/
def alignFitted (m : AlignMap) (h : Nat) : Bool := m.points.all (fun p => hasBit (apFlags p h) 0)

/-- The anchor head: the lowest-numbered fitted head (R84). -/
def anchorHead (m : AlignMap) : Option Nat := (List.range 12).find? (alignFitted m)

/-- The pair of adjacent points around X, in position units (R86); at X exactly on an interior anchor track, where two pairs
apply and their runouts can differ, the lower pair is taken (DESIGN CHOICE, log entry 99). -/
def alignPair (x : Nat) : List Nat → Option (Nat × Nat)
  | [] => none
  | [_] => none
  | p :: q :: ps =>
    if apAnchor p * 4096 ≤ x ∧ x ≤ apAnchor q * 4096 then some (p, q) else alignPair x (q :: ps)

/-- The natural position and the runout allowance of head `h` at X (R86); the anchor head's natural position is X itself
(R84). -/
def alignAt (m : AlignMap) (x h : Nat) : Option (Int × Nat) :=
  (alignPair x m.points).map (fun pq =>
    let ai := apAnchor pq.1 * 4096
    let aj := apAnchor pq.2 * 4096
    let d := (apOffset pq.2 h - apOffset pq.1 h) * ((x : Int) - ai)
    let off := if anchorHead m = some h then 0 else apOffset pq.1 h + Int.fdiv d ((aj : Int) - ai)
    ((x : Int) + off, max (apRro pq.1 h) (apRro pq.2 h)))

/-- The nearest track of a natural position (R86). -/
def nearestTrack (p : Int) : Int := Int.fdiv (p + 2048) 4096

/-- The stroke bound of R87: |t − p| + r at most 22 tracks; p in 1/4,096 track, r in 1/256 track. -/
def strokeOk (m : AlignMap) (x h t : Nat) : Bool :=
  match alignAt m x h with
  | some (p, r) => decide (((t : Int) * 4096 - p).natAbs + 16 * r ≤ 22 * 4096)
  | none => false

/-- The alignment map of an actuator, where it is valid. -/
def State.alignMap (s : State) (a : Nat) : Option AlignMap := SMap.look s.media.maps a

/-- A surface's peg entries are usable: no invalid band and at least band 0 present (R97). -/
def State.surfaceUsable (s : State) (f : Nat) : Bool :=
  (SMap.look s.media.pegBad f).isNone &&
    (match SMap.look s.media.peg (64 * f) with | some e => decide (pegFormat e = 1) | none => false)

/-- The peg entry that applies to a track of a surface. -/
def State.pegFor (s : State) (f track : Nat) : Option Nat :=
  (bandOf s.media.peg f track).bind (fun b => SMap.look s.media.peg (64 * f + b))

/-! ## Layout extents (03 R89 to R92) -/

/-- A layout extent (Table MED-6). -/
structure Extent where
  firstLba : Nat
  rows : Nat
  anchor0 : Nat
  step : Int
  nsid : Nat
  act : Nat
  width : Nat
  zoned : Bool
  heads : List Nat
  u : Nat
  deriving DecidableEq, Repr

/-- An extent from its 32 bytes. -/
def extentOf (x : Nat) : Extent :=
  ⟨bytesAt x 0 8, bytesAt x 8 4, bytesAt x 0x0C 4, toSigned 32 (bytesAt x 0x10 4), bytesAt x 0x14 1, bytesAt x 0x15 1,
    bytesAt x 0x16 1, hasBit (bytesAt x 0x17 1) 0, (List.range 4).map (fun i => bytesAt x (0x18 + i) 1), bytesAt x 0x1C 2⟩

/-- The values that an extent may hold (Table MED-6). -/
def Extent.ok (x : Extent) : Bool :=
  decide (1 ≤ x.rows) && decide (x.step ≠ 0) && decide (1 ≤ x.nsid) && decide (x.nsid ≤ 16) && decide (x.act < 4) &&
    decide (1 ≤ x.width) && decide (x.width ≤ 4) && x.u % 16 == 0 && decide (0 < x.u) &&
    (List.range 4).all (fun i => if i < x.width then decide (x.heads.getD i 0xFF < 12) else x.heads.getD i 0 == 0xFF)

/-- The actuator position X of row `j` (R89). -/
def Extent.rowX (x : Extent) (j : Nat) : Int := ((x.anchor0 : Int) + j * x.step) * 4096

/-- Where an LBA of the extent lies: its row, its member and the logical sector index on that member's track (R91). -/
def Extent.place (x : Extent) (lba : Nat) : Nat × Nat × Nat :=
  let n := lba - x.firstLba
  let c := x.width * x.u
  let j := if x.zoned then n / 65536 * ceilDiv 65536 c + n % 65536 / c else n / c
  let o := if x.zoned then n % 65536 % c else n % c
  (j, o / 16 % x.width, o / 16 / x.width * 16 + o % 16)

/-- The physical sector of a logical index on a track: primary defects are slipped (R92); none where the track is overfull
at that index. -/
def homeSector (t: RowTrack) (l : Nat) : Option Nat :=
  if l < t.u then ((List.range (sectorCount t.cells)).filter (fun i => !t.bad.contains i))[l]? else none

/-- The U of a row's track leaves its spares: at most S − Q (R90). -/
def rowFits (t : RowTrack) (peg : Nat) : Bool := decide (t.u + pegSpareQ peg ≤ sectorCount t.cells)

/-! ## Spare sectors (03 R92, R93) -/

/-- The key of a physical sector: surface, track, physical sector index. -/
def sectorKey (surface track phys : Nat) : Nat := (surface * 2 ^ 24 + track) * 2 ^ 12 + phys

/-- The spare sectors of a track in ascending physical order: its good sectors above logical index U − 1. -/
def trackSpares (t : RowTrack) : List Nat :=
  (((List.range (sectorCount t.cells)).filter (fun i => !t.bad.contains i)).drop t.u).map
    (sectorKey t.surface t.track)

/-- The order in which spares are tried for a block of member `m` of a row (R93). -/
def spareOrder (m : Nat) (row spareRows : List RowTrack) : List Nat :=
  ((row[m]?).map trackSpares).getD [] ++
    ((row.zipIdx.filter (fun e => e.2 != m)).flatMap (fun e => trackSpares e.1)) ++
    spareRows.flatMap (fun t => trackSpares ⟨t.surface, t.track, t.cells, 0, t.bad⟩)

end Sys2Proof.Machine
end

