-- ==== Sys2Proof/Machine/Signal.lean ====
section
/-! DEFINITION. The signal chain of a slot as arithmetic: the combined stream and the equaliser (04 R117, 05 R127, R129),
the soft detector (05 R130), the LDPC code and its decoder (05 R131 to R134), the cells an attempt reads (05 R139), the
errors of the adaptive loops (04 Table AFE-3, 05 R128), and the codeword and cells of a written sector (03 R77, R78, R80,
06 R160 to R163). -/

namespace Sys2Proof.Machine

/-- A quotient rounded to the nearest integer, ties away from zero. -/
def roundTiesAway (n : Int) (d : Nat) : Int := if 0 ≤ n then (2 * n + d) / (2 * d) else -((2 * -n + d) / (2 * d))

/-- One value of the combined stream: weights and samples of the used elements, weights in Q1.14 (04 R117). -/
def combined (weights samples : List Int) : Int :=
  clampInt (-64) 63 (roundTiesAway ((weights.zipWith (· * ·) samples).foldl (· + ·) 0) 16384)

/-- A read cell of the combined stream in a search window (04 R117, 05 R136): its value, from −64 to +63, and whether it
is erased. -/
structure MarkCell where
  c : Int
  erased : Bool
  deriving DecidableEq, Repr

/-- What an LDPC attempt ends with (05 R133, R141): a zero syndrome after `iter` iterations or not, and the decoded
header, block and internal CRC. -/
structure DecRes where
  zero : Bool
  iter : Nat
  header : Nat
  block : Nat
  crc : Nat
  deriving DecidableEq, Repr

/-! ## The equaliser (05 R127, R129) -/

/-- A sample with its erasure flag. -/
structure Samp where
  x : Int
  erased : Bool
  deriving DecidableEq, Repr

/-- A byte of the sample buffer (04 R120): bit 7 the erasure flag, bits [6:0] the sample. -/
def sampOf (b : Nat) : Samp := ⟨toSigned 7 b, hasBit b 7⟩

/-- A sample as the equaliser takes it: an erased one is 0 (R129). -/
def Samp.value (p : Samp) : Int := if p.erased then 0 else p.x

/-- Sample `k` of a stream; outside it there is none, which counts as 0 without a flag. -/
def sampAt (xs : List Samp) (k : Int) : Samp := if k < 0 then ⟨0, false⟩ else xs.getD k.toNat ⟨0, false⟩

/-- The sum of R127 over a window: by element the samples x(k − 4) to x(k + 5), and the taps in Q1.14. -/
def equalise (taps : SMap Nat) (window : List (List Int)) : Int :=
  clampInt (-128) 127 (roundTiesAway ((List.range 3).foldl (fun n e => (List.range 10).foldl (fun n t =>
    n + toSigned 16 (SMap.get taps 0 (10 * e + t)) * ((window.getD e []).getD t 0)) n) 0) 16384)

/-- The window of cell `k` in the element streams. -/
def windowAt (streams : List (List Samp)) (k : Nat) : List (List Int) :=
  streams.map (fun xs => (List.range 10).map (fun t => (sampAt xs ((k : Int) + t - 4)).value))

/-- A cell of the equaliser's output: y(k), erased where a used element's sample is (R129). -/
structure EqCell where
  y : Int
  erased : Bool
  deriving DecidableEq, Repr

/-- The equaliser over the element streams of a stretch of `n` cells, with the taps in force at each cell. -/
def equaliserOut (taps : Nat → SMap Nat) (streams : List (List Samp)) (n : Nat) : List EqCell :=
  (List.range n).map (fun k =>
    ⟨equalise (taps k) (windowAt streams k), streams.any (fun xs => (sampAt xs k).erased)⟩)

/-! ## The soft detector (05 R130) -/

/-- The target T0 + T1·D + T2·D², in 1/16 LSB. -/
structure Target where
  t0 : Int
  t1 : Int
  t2 : Int
  deriving DecidableEq, Repr

/-- A bit as the level it is written at. -/
def level (b : Bool) : Int := if b then 1 else -1

/-- The target's response to a bit and the two before it, in 1/16 LSB. -/
def Target.response (t : Target) (a a1 a2 : Bool) : Int := t.t0 * level a + t.t1 * level a1 + t.t2 * level a2

/-- A cell as the detector takes it: the equaliser's output and the a priori metric of a 1. -/
structure DetCell where
  y : Int
  erased : Bool
  la : Int
  deriving DecidableEq, Repr

/-- The two newest bits of one of the 4 states. -/
def stateBits (st : Nat) : Bool × Bool := (hasBit st 0, hasBit st 1)

/-- The branch metric from state `st` with bit `a`: the squared distance from the target's response and the a priori
metric, and 0 for an erased cell (R130). -/
def branch (t : Target) (c : DetCell) (st : Nat) (a : Bool) : Int :=
  if c.erased then 0
  else
    let d := 16 * c.y - t.response a (stateBits st).1 (stateBits st).2
    (if a then c.la else 0) - d * d

/-- The state after bit `a`. -/
def nextState (st : Nat) (a : Bool) : Nat := b2n a + 2 * (st % 2)

/-- The largest of a list of metrics. -/
def maxOf : List Int → Int
  | [] => 0
  | [x] => x
  | x :: xs => max x (maxOf xs)

/-- The branches: state and bit. -/
def branches : List (Nat × Bool) := (List.range 4).flatMap (fun st => [(st, false), (st, true)])

/-- The forward metrics after a cell. -/
def forward (t : Target) (al : List Int) (c : DetCell) : List Int :=
  (List.range 4).map (fun st => maxOf ((branches.filter (fun b => nextState b.1 b.2 == st)).map (fun b =>
    al.getD b.1 0 + branch t c b.1 b.2)))

/-- The backward metrics before a cell. -/
def backward (t : Target) (c : DetCell) (be : List Int) : List Int :=
  (List.range 4).map (fun st => maxOf ([false, true].map (fun a => branch t c st a + be.getD (nextState st a) 0)))

/-- The backward metrics before each cell of a list and after its last; all states are alike at its end (log entry 96). -/
def backwards (t : Target) : List DetCell → List (List Int)
  | [] => [[0, 0, 0, 0]]
  | c :: cs =>
    let r := backwards t cs
    backward t c (r.headD []) :: r

/-- The metric difference between a 1 and a 0 at a cell (max-log-MAP), the a priori metric taken out. -/
def bitMetric (t : Target) (al be : List Int) (c : DetCell) : Int :=
  let best := fun a => maxOf ((List.range 4).map (fun st => al.getD st 0 + branch t c st a + be.getD (nextState st a) 0))
  best true - best false - c.la

/-- The LLRs of a stretch from the forward metrics before its first cell: 6 bits, from −31 to +31, and 0 for an erased cell
(R130); how a metric difference scales to an LLR is not stated [log 96]. -/
def llrsFrom (t : Target) : List Int → List DetCell → List Int
  | _, [] => []
  | al, c :: cs =>
    let be := (backwards t cs).headD []
    (if c.erased then 0 else clampInt (-31) 31 (Config.llrOf (bitMetric t al be c))) :: llrsFrom t (forward t al c) cs

/-- The soft detector over a stretch of cells (R130). -/
def softDetect (t : Target) (cs : List DetCell) : List Int := llrsFrom t [0, 0, 0, 0] cs

/-- The tentative decision of a cell: the detector's decision from the cells up to 24 after it, its fixed delay (R130). -/
def tentative (t : Target) (ys : List EqCell) (k : Nat) : Bool :=
  decide (0 ≤ (softDetect t ((ys.take (k + 25)).map (fun c => ⟨c.y, c.erased, 0⟩))).getD k 0)

/-! ## The LDPC code (05 R131) -/

/-- Codeword bits, information bits, base rows and base columns. -/
def codeBits : Nat := 36864
def infoBits : Nat := 32992
def baseRows : Nat := 121
def baseCols : Nat := 1152

/-- The codeword bits of parity check `k` of base row `r`: one in each 32 × 32 circulant of the row, shifted by its
exponent. -/
def checkBits (r k : Nat) : List Nat :=
  (List.range baseCols).filterMap (fun c => (Config.ldpcExp r c).map (fun e => 32 * c + (k + e) % 32))

/-- What R131 says of the base matrix: the weights of its columns and rows. -/
def codeShape : Bool :=
  let col := fun c => ((List.range baseRows).filter (fun r => (Config.ldpcExp r c).isSome)).length
  let row := fun r => ((List.range baseCols).filter (fun c => (Config.ldpcExp r c).isSome)).length
  (List.range 1031).all (fun c => col c == 4) && col 1031 == 3 &&
    (List.range 120).all (fun k => (List.range baseRows).all (fun r =>
      (Config.ldpcExp r (1032 + k)).isSome == (r == k || r == k + 1))) &&
    (List.range baseRows).all (fun r => decide (35 ≤ row r) && decide (row r ≤ 37))

/-- Every check of a word is even: its syndrome is zero (R133). -/
def syndromeZero (w : Nat → Bool) : Bool :=
  (List.range baseRows).all (fun r => (List.range 32).all (fun k =>
    ((checkBits r k).filter w).length % 2 == 0))

/-! ## The decoder (05 R132 to R134) -/

/-- What a check-to-variable message goes through: normalised by 0.75, or offset by 1 (Table DET-1). -/
inductive CheckRule where
  | scale
  | offset
  deriving DecidableEq, Repr

/-- A magnitude after the schedule's scaling or offset, in 6 bits; how 0.75 rounds is not stated [log 97]. -/
def CheckRule.apply (u : CheckRule) (m : Nat) : Nat :=
  match u with
  | .scale => min 31 (3 * m / 4 + (if 3 * m % 4 = 0 then 0 else b2n (Config.scaleUp m)))
  | .offset => min 31 (m - 1)

/-- The state of a decoder: the channel LLRs, the variable sums, and the check messages by check and variable. -/
structure Decoder where
  chan : Nat → Int
  sum : Nat → Int
  msg : Nat → Nat → Int

/-- A decoder that starts from channel LLRs. -/
def Decoder.start (ch : Nat → Int) : Decoder := ⟨ch, ch, fun _ _ => 0⟩

/-- What a variable tells a check: its 9-bit sum without that check's message. -/
def Decoder.toCheck (d : Decoder) (ck v : Nat) : Int := satSigned 9 (d.sum v - d.msg ck v)

/-- The message of a check to a variable: the product of the other variables' signs, and the least of their magnitudes after
the schedule's rule (min-sum). -/
def Decoder.reply (d : Decoder) (u : CheckRule) (ck : Nat) (vs : List Nat) (v : Nat) : Int :=
  let others := (vs.filter (fun x => x != v)).map (d.toCheck ck)
  let neg := (others.filter (fun x => decide (x < 0))).length % 2 == 1
  let mag := others.foldl (fun m x => min m x.natAbs) 256
  if neg then -(u.apply mag : Int) else u.apply mag

/-- One check of a layer: every message of it is replaced, and the sums take the new ones. -/
def Decoder.check (u : CheckRule) (d : Decoder) (ck : Nat) (vs : List Nat) : Decoder :=
  { d with
    sum := fun v => if vs.contains v then satSigned 9 (d.toCheck ck v + d.reply u ck vs v) else d.sum v
    msg := fun c v => if c = ck ∧ vs.contains v then d.reply u ck vs v else d.msg c v }

/-- One layer: the 32 checks of a base row, which share no variable. -/
def Decoder.layer (u : CheckRule) (d : Decoder) (r : Nat) : Decoder :=
  (List.range 32).foldl (fun d k => d.check u (32 * r + k) (checkBits r k)) d

/-- One iteration: layers 0 to 120 in ascending order. -/
def Decoder.iteration (u : CheckRule) (d : Decoder) : Decoder := (List.range baseRows).foldl (Decoder.layer u) d

/-- The hard decision of a codeword bit; that of a sum of 0 is not stated [log 97]. -/
def Decoder.hard (d : Decoder) (v : Nat) : Bool := if d.sum v = 0 then Config.hardZero else decide (0 < d.sum v)

/-- The syndrome of the hard decisions is zero. -/
def Decoder.done (d : Decoder) : Bool := syndromeZero d.hard

/-- Up to `fuel` more iterations, stopping at the first zero syndrome (R133): whether it came, the iterations run, and the
decoder. -/
def Decoder.iterate (u : CheckRule) : Decoder → Nat → Nat → Bool × Nat × Decoder
  | d, n, 0 => (false, n, d)
  | d, n, fuel + 1 =>
    let d := d.iteration u
    if d.done then (true, n + 1, d) else Decoder.iterate u d (n + 1) fuel

/-- A decode of at most `maxIter` iterations; the syndrome is evaluated before the first as well (R133). -/
def Decoder.run (u : CheckRule) (maxIter : Nat) (d : Decoder) : Bool × Nat × Decoder :=
  if d.done then (true, 0, d) else d.iterate u 0 maxIter

/-- What the decoder has learnt of a bit beside the detector's LLR: its extrinsic LLR (R134). -/
def Decoder.extrinsic (d : Decoder) (v : Nat) : Int := d.sum v - d.chan v

/-- The turns of the deep schedule (R134): a detector pass with the extrinsic LLRs as a priori input, then up to 20
iterations with scaling 0.75; the messages carry over. -/
def Decoder.turns (detect : (Nat → Int) → (Nat → Int)) : Decoder → Nat → Nat → Bool × Nat × Decoder
  | d, n, 0 => (false, n, d)
  | d, n, fuel + 1 =>
    let ch := detect d.extrinsic
    let d : Decoder := { d with chan := ch, sum := fun v => satSigned 9 (ch v + d.extrinsic v) }
    let r := d.iterate .scale n 20
    if r.1 then r else Decoder.turns detect r.2.2 r.2.1 fuel

/-- The deep schedule: 4 turns from a first detector pass without a priori input (R133, R134). -/
def Decoder.deep (detect : (Nat → Int) → (Nat → Int)) : Bool × Nat × Decoder :=
  let d := Decoder.start (detect (fun _ => 0))
  if d.done then (true, 0, d) else Decoder.turns detect d 0 4

/-- The check update of a fast-path schedule (Table DET-1). -/
def schedRule (sched : Nat) : CheckRule := if sched < 4 then .scale else .offset

/-- The maximum iterations of a fast-path schedule (Table DET-1). -/
def schedMax (sched : Nat) : Nat := 4 + 2 * (sched % 4)

/-! ## The cells an attempt reads (04 R121, 05 R139) -/

/-- The captured stretches of an entry, one for each fragment: its first entry cell, its length, where its codeword bits
start in it at a position offset of 0, its first codeword bit and their number. The first one begins 64 cells ahead of
its fragment, and the last one runs on for 48 cells (04 R121). -/
structure CapStretch where
  start : Nat
  len : Nat
  bits0 : Nat
  bit : Nat
  bitsN : Nat
  deriving DecidableEq, Repr

/-- The stretches of fragments from entry cell `at_` and codeword bit `b` on. -/
def stretchesFrom (isFirst : Bool) (at_ b : Nat) : List Frag → List CapStretch
  | [] => []
  | f :: fs =>
    let n := (if isFirst then 64 else 0) + f.len isFirst + (if fs.isEmpty then 48 else 0)
    ⟨at_, n, if isFirst then 160 else 48, b, f.bitsN⟩ :: stretchesFrom false (at_ + n) (b + f.bitsN) fs

/-- The stretches of a sector's entry. -/
def stretches (fs : List Frag) : List CapStretch := stretchesFrom true 0 0 fs

/-- The cells that the capture of a sector takes (04 R121). -/
def captureCells (fs : List Frag) : Nat := (stretches fs).foldl (fun n p => n + p.len) 0

/-- The position offsets of an attempt by stretch: that of the attempt in the first one, the chosen resync positions in the
others (R138, R139). -/
def stretchOfs (ofs : Int) (resync : List Int) (k : Nat) : Int := if k = 0 then ofs else resync.getD (k - 1) 0

/-- The cell of codeword bit `v` in its stretch: its stretch's index and the cell's place in it; none where the cell lies
outside the captured cells of the fragment (R139). -/
def bitCell (fs : List Frag) (ofs : Int) (resync : List Int) (v : Nat) : Option (Nat × Nat) :=
  match (stretches fs).zipIdx.find? (fun p => decide (p.1.bit ≤ v) && decide (v < p.1.bit + p.1.bitsN)) with
  | some (p, k) =>
    let c := (p.bits0 : Int) + stretchOfs ofs resync k + (v - p.bit : Nat)
    if 0 ≤ c ∧ c < p.len then some (k, c.toNat) else none
  | none => none

/-- The codeword bit that cell `c` of stretch `k` carries, if any. -/
def cellBit (fs : List Frag) (ofs : Int) (resync : List Int) (k c : Nat) : Option Nat :=
  match (stretches fs)[k]? with
  | some p =>
    let b := (c : Int) - p.bits0 - stretchOfs ofs resync k
    if 0 ≤ b ∧ b < p.bitsN then some (p.bit + b.toNat) else none
  | none => none

/-- A detector pass for an attempt over the equalised stretches, with the decoder's extrinsic LLRs as a priori input: the
LLR of each codeword bit, 0 for one whose cell was not captured (R130, R134, R139). -/
def detectPass (t : Target) (fs : List Frag) (ofs : Int) (resync : List Int) (ys : List (List EqCell))
    (ext : Nat → Int) : Nat → Int :=
  let out := ys.zipIdx.map (fun p => softDetect t (p.1.zipIdx.map (fun c =>
    ⟨c.1.y, c.1.erased, match cellBit fs ofs resync p.2 c.2 with | some v => Config.priorMetric (ext v) | none => 0⟩)))
  fun v => match bitCell fs ofs resync v with
    | some (k, c) => (out.getD k []).getD c 0
    | none => 0

/-- The number that `n` bits spell, bit 0 first (03 R78). -/
def bitsValue (w : Nat → Bool) (lo : Nat) : Nat → Nat
  | 0 => 0
  | n + 1 => b2n (w lo) + 2 * bitsValue w (lo + 1) n

/-- What an attempt ends with: the header, block and internal CRC that the hard decisions spell (03 Table MED-3). -/
def decoded (r : Bool × Nat × Decoder) : DecRes :=
  ⟨r.1, r.2.1, bitsValue r.2.2.hard 0 32, bitsValue r.2.2.hard 32 32896, bitsValue r.2.2.hard 32928 64⟩

/-! ## The errors of the adaptive loops (04 Table AFE-3, 05 R128); `xs` are samples of consecutive read cells -/

/-- The gain error: TARGET − |x| on the cells where |x| is above half of it. -/
def gainError (target : Nat) (xs : List Int) : Int :=
  (xs.filter (fun x => decide (target < 2 * x.natAbs))).foldl (fun n x => n + ((target : Int) - x.natAbs)) 0

/-- The offset error, signed so that a positive one is reduced by a step upward: −Σ x. -/
def offsetError (xs : List Int) : Int := -(xs.foldl (· + ·) 0)

/-- The asymmetry error: positive peaks minus magnitudes of negative peaks; a peak is a local extreme [log 98]. -/
def asymError : List Int → Int
  | a :: b :: c :: xs =>
    (if (0 < b ∧ a ≤ b ∧ c < b) ∨ (b < 0 ∧ b ≤ a ∧ b < c) then b else 0) + asymError (b :: c :: xs)
  | _ => 0

/-- The sum of the signs of the Mueller and Müller timing error x(k)·a(k−1) − x(k−1)·a(k) [log 98]. -/
def phaseError : List (Int × Bool) → Int
  | p :: q :: xs => (q.1 * level p.2 - p.1 * level q.2).sign + phaseError (q :: xs)
  | _ => 0

/-- The target's response to the decisions at cell `k`, in 1/16 LSB. -/
def responseAt (t : Target) (a : Nat → Bool) (k : Nat) : Int := t.response (a k) (a (k - 1)) (a (k - 2))

/-- The sign products of a tap or weight over `n` cells from cell `k`: the error's sign by that of the sample. -/
def signProduct (err x : Nat → Int) (k : Nat) : Nat → Int
  | 0 => 0
  | n + 1 => (err k).sign * (x k).sign + signProduct err x (k + 1) n

/-! ## A written sector (03 R77, R78, R80, 06 R160 to R163) -/

/-- The information part of a codeword: header, block, and the internal CRC over both (03 Table MED-3, R80). -/
def infoPart (header block : Nat) : Nat :=
  header % 2 ^ 32 + 2 ^ 32 * (block % 256 ^ 4112) +
    2 ^ 32928 * crc64 (leBytes header 4 ++ leBytes block 4112)

/-- A codeword: its information part and the 3,872 parity bits of the encoder (R160, 05 R131) [log 97]. -/
def codeword (header block : Nat) : Nat :=
  infoPart header block + 2 ^ infoBits * (Config.ldpcParity (infoPart header block) % 2 ^ 3872)

/-- The two checks of R161 on a codeword held with the bits `flips` inverted: the syndrome, which of a codeword is zero and
so is that of the inverted bits, and the CRC over the information bits as encoded. -/
def codewordOk (header block flips : Nat) : Bool :=
  let w := infoPart header block ^^^ flips % 2 ^ infoBits
  syndromeZero (hasBit flips) &&
    crc64 (leBytes (w % 2 ^ 32) 4 ++ leBytes (w / 2 ^ 32 % 256 ^ 4112) 4112) == w / 2 ^ 32928

/-- The bits of a number from the highest of `n` down. -/
def bitsDown (v : Nat) : Nat → List Bool
  | 0 => []
  | n + 1 => hasBit v n :: bitsDown v n

/-- `n` codeword bits from bit `lo`, in recorded order. -/
def bitsUp (v lo n : Nat) : List Bool := (List.range n).map (fun k => hasBit v (lo + k))

/-- The preamble pattern 0b0011 repeated (03 Table MED-2). -/
def preamble (n : Nat) : List Bool := (List.range n).map (fun k => decide (2 ≤ k % 4))

/-- The cells of a fragment: preamble, sync or resync mark, codeword bits from bit `b` on, pad (03 Table MED-2, R82). -/
def fragCells (cw : Nat) (isFirst : Bool) (b n : Nat) : List Bool :=
  (if isFirst then preamble 64 ++ bitsDown 0x1ED45F71 32 else preamble 32 ++ bitsDown 0xB38E 16) ++ bitsUp cw b n ++
    List.replicate 16 false

/-- The transitions of a fragment in 1/64 cell from its first cell (06 R163): each is shifted by the precompensation of the
run before it (`shift r`, r at most 4), and not closer than 16/64 to the one before. `run` is the length of the run so
far, `cell` the next cell's number, `last` the transition before. -/
def transitions (shift : Nat → Int) : Bool → Nat → Nat → Option Int → List Bool → List Int
  | _, _, _, _, [] => []
  | v, run, cell, last, b :: bs =>
    if b = v then transitions shift v (run + 1) (cell + 1) last bs
    else
      let p := (64 * cell : Nat) + shift (min 4 run)
      let p := match last with | some q => max p (q + 16) | none => p
      p :: transitions shift b 1 (cell + 1) (some p) bs

/-- The transitions of a fragment whose cells follow an erased or closed stretch at level 0: the first one counts as
following a run of 4; `by_` shifts every one (06 R159). -/
def writeEdges (precomp : Nat → Int) (on : Bool) (by_ : Int) (cells : List Bool) : List Int :=
  (transitions (fun r => if on then precomp r else 0) false 4 0 none cells).map (· + by_)

end Sys2Proof.Machine
end

