-- ==== Sys2Proof/Machine/Power.lean ====
section
/-! DEFINITION. The switched domains as every block sees them (02 R49 to R55, R57): what requires what, requests, settled
states, the power-downs that may start, and the domains that a device power state keeps. -/

namespace Sys2Proof.Machine

def State.modPwr (s : State) (g : Power → Power) : State := { s with pwr := g s.pwr }

/-- An actuator is fitted: its bit of STRAP_ACT is 1 (01 R37). -/
def State.fitted (s : State) (a : Nat) : Bool := hasBit (s.get Reg.SYS_STRAP_ACT) a

/-- The domain that a domain requires (Table PWR-3). -/
def domRequires (d : Nat) : Option Nat :=
  if d < 48 then some (80 + d / 12)
  else if d < 64 then some (80 + (d - 48) / 4)
  else if 84 ≤ d ∧ d < 88 then some 93
  else if (88 ≤ d ∧ d < 92) ∨ d = 93 then some 92
  else if d = 94 then some 64
  else if d = 95 then some 68
  else none

/-- The domains that require a domain. -/
def domDependants (d : Nat) : List Nat := (List.range 96).filter (fun x => domRequires x == some d)

/-- A domain is requested on (R49). -/
def State.domWanted (s : State) (d : Nat) : Bool := hasBit (s.get (Reg.SYS_PD_REQ_ON (d / 32))) (d % 32)

/-- A domain's state written; SYS_PD_STAT shows the settled ones (R55). -/
def State.putDom (s : State) (d : Nat) (x : DomSt) : State :=
  let s := s.modPwr (fun p => { p with dom := SMap.put p.dom .off d x })
  let F := Reg.SYS_PD_STAT_ON (d / 32)
  s.put F (putBit (s.get F) (d % 32) (x == .on))

/-- Every power-down that may start does (R53). -/
def State.settleDoms (s : State) : State :=
  s.each (List.range 96) (fun s d =>
    if s.domOn d && !s.domWanted d && (domDependants d).all (fun x => s.domSt x == .off) then s.putDom d .poweringDown else s)

/-- The words of SYS_PD_REQ as one number by domain. -/
def State.reqWords (s : State) : Nat :=
  s.get (Reg.SYS_PD_REQ_ON 0) + 2 ^ 32 * s.get (Reg.SYS_PD_REQ_ON 1) + 2 ^ 64 * s.get (Reg.SYS_PD_REQ_ON 2)

/-- All three words written. -/
def State.putReqWords (s : State) (w : Nat) : State :=
  ((s.put (Reg.SYS_PD_REQ_ON 0) w).put (Reg.SYS_PD_REQ_ON 1) (w / 2 ^ 32)).put (Reg.SYS_PD_REQ_ON 2) (w / 2 ^ 64)

/-- A lane of the host ports is in use: the link is up and the lane is one of its width. -/
def State.hostLane (s : State) (p n : Nat) : Bool :=
  s.flag (Reg.HST_LINK_UP p) && decide (n < 2 ^ s.get (Reg.HST_LINK_WIDTH p))

/-- The lane domains that the host links use. -/
def State.usedLanes (s : State) : List Nat :=
  [0, 1].flatMap (fun p => ((List.range 4).filter (s.hostLane p)).map (64 + 4 * p + ·))

/-- The requests that a device power state does not keep are withdrawn; they are held for the exit to Active (Table PWR-4)
[log 86]. -/
def State.withdraw (s : State) (keep : Nat → Bool) : State :=
  let w := s.reqWords
  let k := ((List.range 96).filter (fun d => hasBit w d && keep d)).foldl setBit 0
  ((s.modPwr (fun p => { p with idleReq := p.idleReq ||| (w - k) })).putReqWords k).settleDoms

/-- The withdrawn requests are made again. -/
def State.restoreReqs (s : State) : State :=
  (s.putReqWords (s.reqWords ||| s.pwr.idleReq)).modPwr (fun p => { p with idleReq := 0 })

/-- The domains of Doze (Table PWR-4). -/
def State.dozeKeeps (s : State) (d : Nat) : Bool :=
  s.usedLanes.contains d || d == 72 || d == 76 || d == 84 || decide (88 ≤ d)

end Sys2Proof.Machine
end

