-- ==== Sys2Proof/Machine/Buffer.lean ====
section
/-! DEFINITION. The HBM buffer (12): symbol ECC RS(36,32), reads and writes of the buffer with their error
outcomes, arbitration credit, repair, raw window, scrubber and the SRAM flip mask. -/

namespace Sys2Proof.Machine

/-! ## RS(36,32) over GF(2^8) (12 R311) -/

/-- Multiplication by α in GF(2^8) with x^8 + x^4 + x^3 + x^2 + 1. -/
def gfDouble (a : Nat) : Nat := if a < 128 then 2 * a else (2 * a) % 256 ^^^ 0x1D

/-- Multiplication in GF(2^8), over `n` bits of the second factor. -/
def gfMulAux (a b : Nat) : Nat → Nat
  | 0 => 0
  | n + 1 => (if b % 2 = 1 then a else 0) ^^^ gfMulAux (gfDouble a) (b / 2) n

/-- Multiplication in GF(2^8). -/
def gfMul (a b : Nat) : Nat := gfMulAux (a % 256) b 8

/-- α to the power `n`. -/
def gfPow : Nat → Nat
  | 0 => 1
  | n + 1 => gfDouble (gfPow n)

/-- One step of the division by g(x) = (x+1)(x+α)(x+α^2)(x+α^3) = x^4 + 15x^3 + 54x^2 + 120x + 64, on the
remainder P_0·x^3 + P_1·x^2 + P_2·x + P_3. -/
def rsStep (p : Nat × Nat × Nat × Nat) (d : Nat) : Nat × Nat × Nat × Nat :=
  let fb := d ^^^ p.1
  (p.2.1 ^^^ gfMul 15 fb, p.2.2.1 ^^^ gfMul 54 fb, p.2.2.2 ^^^ gfMul 120 fb, gfMul 64 fb)

/-- The four check bytes P_0 to P_3 of 32 data bytes. -/
def rsCheck (d : List Nat) : Nat × Nat × Nat × Nat := d.foldl rsStep (0, 0, 0, 0)

/-- The check bytes as BUF_RAW_CHECK lays them out: P_j in bits [8j+7:8j]. -/
def rsCheckWord (d : List Nat) : Nat :=
  let p := rsCheck d
  p.1 + 2 ^ 8 * p.2.1 + 2 ^ 16 * p.2.2.1 + 2 ^ 24 * p.2.2.2

/-- What decoding a burst finds (12 R312). -/
inductive RsOut where
  | clean
  /-- One symbol in error: the power of x it lies at, and the value to add. -/
  | single (pos val : Nat)
  | bad
  deriving DecidableEq, Repr

/-- The syndrome at α^j of a burst whose stored check bytes differ from valid ones by the word `e`. -/
def rsSyndrome (e j : Nat) : Nat :=
  gfMul (bits e 7 0) (gfPow (3 * j)) ^^^ gfMul (bits e 15 8) (gfPow (2 * j)) ^^^
    gfMul (bits e 23 16) (gfPow j) ^^^ bits e 31 24

/-- Decode a burst: a single error at coefficient x^p with value v has syndromes v·α^(jp). -/
def rsDecode (e : Nat) : RsOut :=
  let s0 := rsSyndrome e 0; let s1 := rsSyndrome e 1; let s2 := rsSyndrome e 2; let s3 := rsSyndrome e 3
  if s0 = 0 ∧ s1 = 0 ∧ s2 = 0 ∧ s3 = 0 then .clean
  else match (List.range 36).find? (fun p =>
      decide (s0 ≠ 0) && decide (gfMul s0 (gfPow p) = s1) && decide (gfMul s1 (gfPow p) = s2) &&
      decide (gfMul s2 (gfPow p) = s3)) with
    | some p => .single p s0
    | none => .bad

/-! ## Reads and writes of the buffer -/

/-- The HBM answers accesses: trained, domain 92 on, the stack not in self-refresh (12 R304, R320). -/
def State.hbmUp (s : State) : Bool := s.flag Reg.BUF_STATUS_TRAINED && s.domOn 92 && !s.buf.selfRef

/-- The bursts of a class are charged `n` (12 R307); those beyond its credit are excess (R308). -/
def State.charge (s : State) (cls n : Nat) : State :=
  let c := SMap.get s.buf.credit 0 cls
  (s.setBuf { s.buf with
      credit := SMap.put s.buf.credit 0 cls (c - n)
      lastExcess := if c < n then cls else s.buf.lastExcess })

/-- How far the stored check bytes of a burst lie from valid ones. -/
def State.burstErr (s : State) (b : Nat) : Nat := SMap.get s.chk 0 b

/-- The corrected burst written back: byte 35 − p of the data, or a check byte. -/
def State.fixBurst (s : State) (b p v : Nat) : State :=
  let s := s.setChk (SMap.put s.chk 0 b 0)
  if p < 4 then s
  else s.setByte (32 * b + (35 - p)) (BitVec.ofNat 8 ((s.byte (32 * b + (35 - p))).toNat ^^^ v))

/-- A functional read of burst `b`: correct and write back, or find it uncorrectable (12 R312). The Bool says
that the data are good. -/
def State.readBurst (s : State) (b : Nat) : Bool × State :=
  match rsDecode (s.burstErr b) with
  | .clean => (true, s)
  | .single p v => (true, (s.fixBurst b p v).inc Reg.BUF_CE_CNT_COUNT)
  | .bad =>
    let s := s.inc Reg.BUF_UE_CNT_COUNT
    (false, if s.flag Reg.BUF_UE_FIRST_VALID then s
      else (s.put Reg.BUF_UE_FIRST_VALID 1).put Reg.BUF_UE_FIRST_BURST b)

/-- The bursts that `n` bytes from `a` touch. -/
def burstsOf (a n : Nat) : List Nat :=
  if n = 0 then [] else (List.range ((a + n - 1) / 32 - a / 32 + 1)).map (fun i => a / 32 + i)

/-- Read a list of bursts in order; good when every one is. -/
def State.readBursts (s : State) : List Nat → Bool × State
  | [] => (true, s)
  | b :: bs =>
    let r := s.readBurst b
    let q := State.readBursts r.2 bs
    (r.1 && q.1, q.2)

/-- A read of `n` bytes from `a` by a class: the bytes, or none where a burst is uncorrectable (12 R312, R314)
or the HBM is not there. -/
def State.bufRead (s : State) (cls a n : Nat) : Option Nat × State :=
  if s.hbmUp then
    let bs := burstsOf a n
    let r := (s.charge cls bs.length).readBursts bs
    (if r.1 then some (r.2.loadMem a n) else none, r.2)
  else (none, s)

/-- One burst's part of a write: a whole burst always replaces it; a part merges into the corrected burst and
fails where it is uncorrectable (12 R313). `lo` and `hi` are byte addresses within the burst, `hi` excluded;
`v` holds the bytes from `lo`. -/
def State.writeBurst (s : State) (b lo hi v : Nat) : Bool × State :=
  if lo = 32 * b ∧ hi = 32 * b + 32 then
    (true, (s.setChk (SMap.put s.chk 0 b 0)).storeMem lo v 32)
  else
    let r := s.readBurst b
    if r.1 then (true, { r.2 with chk := SMap.put r.2.chk 0 b 0 }.storeMem lo v (hi - lo)) else r

/-- Write a list of bursts' parts in order. -/
def State.writeBursts (s : State) (a n v : Nat) : List Nat → Bool × State
  | [] => (true, s)
  | b :: bs =>
    let lo := max a (32 * b)
    let hi := min (a + n) (32 * b + 32)
    let r := s.writeBurst b lo hi (v / 256 ^ (lo - a))
    let q := State.writeBursts r.2 a n v bs
    (r.1 && q.1, q.2)

/-- The charge of a write: one for each whole burst, two for a part (12 R307). -/
def writeCharge (a n : Nat) : Nat :=
  (burstsOf a n).foldl (fun c b => c + if a ≤ 32 * b ∧ 32 * b + 32 ≤ a + n then 1 else 2) 0

/-- A write of `n` bytes at `a` by a class; false where it ended with an error to the requester. -/
def State.bufWrite (s : State) (cls a v n : Nat) : Bool × State :=
  if s.hbmUp then (s.charge cls (writeCharge a n)).writeBursts a n v (burstsOf a n)
  else (false, s)

/-- `n` bytes at `a` set to zero in whole bursts. -/
def State.zeroBursts (s : State) (bs : List Nat) : State :=
  s.each bs (fun s b => (s.setChk (SMap.put s.chk 0 b 0)).storeMem (32 * b) 0 32)

/-! ## The arbiter (12 R307, R308, R317) -/

/-- The pseudo-channel of a burst (12 Table BUF-1). -/
def pcOf (burst : Nat) : Nat := bits (32 * burst) 11 8

/-- A request is served: a read answers its bytes, either an error where a burst is uncorrectable (R312 to R314). -/
def State.serveReq (s : State) (q : HbmReq) : State :=
  let s := s.when (q.cls = 3) (fun s => s.setBuf { s.buf with lastHost := q.port })
  if q.write then
    let r := s.bufWrite q.cls q.addr q.data q.len
    if r.1 then r.2.answer .none else r.2.answer .busError
  else
    let r := s.bufRead q.cls q.addr q.len
    match r.1 with
    | some v => r.2.answer (.block q.len v)
    | none => r.2.answer .busError

/-- A request must wait: the pseudo-channel of one of its bursts is under repair (R317), or the stack's clock is stopped
(02 R43, R48). -/
def State.reqHeld (s : State) (q : HbmReq) : Bool :=
  !s.clkOk 25 || match s.buf.ppr with
  | some (_, b) => (burstsOf q.addr q.len).any (fun x => pcOf x == pcOf b)
  | none => false

/-- The class served next among those with a waiting request: one that holds credit, in the fixed order, and else the
excess turn, from the class after the one that had the last (R308). -/
def Buf.nextClass (b : Buf) (waits : Nat → Bool) : Option Nat :=
  match (List.range 5).find? (fun c => waits c && SMap.get b.credit 0 c != 0) with
  | some c => some c
  | none => ((List.range 5).map (fun i => (b.lastExcess + 1 + i) % 5)).find? waits

/-- The request served next: the oldest of its class, in HOST that of the port not served last where it has one. -/
def Buf.nextReq (b : Buf) : Option HbmReq :=
  match b.nextClass (fun c => b.waiting.any (fun q => q.cls == c)) with
  | some c =>
    let l := b.waiting.filter (fun q => q.cls == c)
    match l.find? (fun q => c == 3 && q.port != b.lastHost) with
    | some q => some q
    | none => l.head?
  | none => none

/-- Up to `n` waiting requests served one after another. -/
def State.serve (s : State) : Nat → State
  | 0 => s
  | n + 1 =>
    match s.buf.nextReq with
    | some q => State.serve ((s.setBuf { s.buf with waiting := s.buf.waiting.erase q }).serveReq q) n
    | none => s

/-- The requests that waited for the stack's clock are served, once nothing else holds them (02 R48). -/
def State.serveHeld (s : State) : State :=
  s.when (s.clkOk 25 && s.buf.ppr.isNone) (fun s => s.serve s.buf.waiting.length)

/-- A request reaches the arbiter: served at once, unless its pseudo-channel accepts no access (R317). -/
def State.request (s : State) (q : HbmReq) : State :=
  if s.reqHeld q then s.setBuf { s.buf with waiting := s.buf.waiting ++ [q] } else s.serveReq q

/-- The number of a class (12 Table BUF-2). -/
def classNum : BufClass → Nat
  | .media => 0
  | .ring => 1
  | .chord => 2
  | .host _ => 3
  | .other => 4

/-- The port of a HOST request. -/
def classPort : BufClass → Nat
  | .host port => port.val
  | _ => 0

/-- HBM_READ (12 R312, R314): a read of one burst by a class. -/
def execHbmRead (cls : BufClass) (burst : Nat) (s : State) : Res :=
  .next (s.request ⟨classNum cls, classPort cls, false, 32 * burst, 32, 0⟩)

/-- HBM_PARTIAL_WRITE (12 R313). -/
def execHbmPartialWrite (cls : BufClass) (addr len data : Nat) (s : State) : Res :=
  .next (s.request ⟨classNum cls, classPort cls, true, addr, len, data⟩)

/-- ARBITRATION_ROUND (12 R307): class c receives floor(BUF_RES_c × 62.5) bursts; credit left is lost. -/
def execArbitrationRound (s : State) : Res :=
  .next (s.setBuf { s.buf with
    credit := (List.range 5).foldl (fun m c => SMap.put m 0 c (s.get (Reg.BUF_RES_GBPS c) * 125 / 2)) [] })

/-- HBM_REFRESH (12 R305): no effect on the contents. -/
def execHbmRefresh (s : State) : Res :=
  .next (s.when s.hbmUp (fun s => (s.setBuf { s.buf with refreshes := s.buf.refreshes + 1 })))

/-- HBM_HOT (12 R305): the stack temperature is read; above 85 °C the refresh rate is doubled. -/
def execHbmHot (temp : Nat) (s : State) : Res :=
  .next ((s.put Reg.BUF_STATUS_TEMP (min temp 255)).putB Reg.BUF_STATUS_HOT (decide (85 < temp)))

/-! ## Post-package repair (12 R316, R317) -/

/-- The bank of a burst: pseudo-channel, stack ID, bank group and bank (12 Table BUF-1). -/
def bankOf (burst : Nat) : Nat := bits (32 * burst) 11 8 + 16 * bits (32 * burst) 18 14

/-- Resources of a kind left for the bank of a burst. -/
def State.pprLeft (s : State) (hard : Bool) (burst : Nat) : Nat :=
  Config.pprResources hard (bankOf burst) -
    SMap.get (if hard then s.buf.pprHard else s.buf.pprSoft) 0 (bankOf burst)

/-- The bursts of the HBM row of a burst: four 256-byte pieces 4 KiB apart (12 R303). -/
def rowBursts (burst : Nat) : List Nat :=
  let a := 32 * burst
  let base := a - bits a 13 12 * 4096 - bits a 7 0
  (List.range 4).flatMap (fun c => (List.range 8).map (fun k => (base + 4096 * c) / 32 + k))

/-- PPR_REQUEST (12 R316): a write of BUF_PPR_CTL. Without the key it is ignored. From here to PPR_DONE no access reaches the
row, so its zeros (R317) are written at once [log 88]. -/
def execPprRequest (value : Word) (s : State) : Res :=
  let v := value.toNat
  let hard := hasBit v 1
  let rej := s.reject Reg.BUF_CFG_STATUS_ERR Reg.BUF_CFG_STATUS_CODE
  let st := s.get Reg.SYS_PWR_STATE_STATE
  let burst := s.get Reg.BUF_PPR_ROW_BURST
  .next (
    if bits v 31 16 ≠ 0x5A5A ∨ ¬ hasBit v 0 then s
    else if ¬ (st = 1 ∨ st = 2) then rej 6
    else if s.pprLeft hard burst = 0 then rej 7
    else if s.flag Reg.BUF_PPR_STATUS_BUSY then rej 4
    else ((s.put Reg.BUF_PPR_STATUS_BUSY 1).setBuf { s.buf with ppr := some (hard, burst) }).zeroBursts (rowBursts burst))

/-- PPR_DONE (12 R317): the repaired row holds zeros with valid check bytes, DONE sets with RESULT, and the requests that
waited for the pseudo-channel are served. -/
def execPprDone (failed : Bool) (s : State) : Res :=
  .next (match s.buf.ppr with
    | none => s
    | some (hard, burst) =>
      let k := bankOf burst
      let b := if hard then { s.buf with ppr := none, pprHard := SMap.upd s.buf.pprHard 0 k (· + 1) }
        else { s.buf with ppr := none, pprSoft := SMap.upd s.buf.pprSoft 0 k (· + 1) }
      let s := (((s.setBuf (if failed then { s.buf with ppr := none } else b)).put Reg.BUF_PPR_STATUS_BUSY 0).put
        Reg.BUF_PPR_STATUS_DONE 1).put Reg.BUF_PPR_STATUS_RESULT (b2n failed)
      s.serve s.buf.waiting.length)

/-! ## The raw window (12 R320) -/

/-- The 32 data bytes of a burst. -/
def State.burstBytes (s : State) (b : Nat) : List Nat := (List.range 32).map (fun i => (s.byte (32 * b + i)).toNat)

/-- The 32 bytes of BUF_RAW_DATA_0 to BUF_RAW_DATA_7. -/
def State.rawData (s : State) : Nat :=
  (List.range 8).foldl (fun v i => v + s.get (Reg.BUF_RAW_DATA_DATA i) * 2 ^ (32 * i)) 0

/-- A burst and its check bytes stored as the raw registers hold them, none computed (12 R320). -/
def State.rawStore (s : State) (b : Nat) : State :=
  let s := s.storeMem (32 * b) s.rawData 32
  s.setChk (SMap.put s.chk 0 b (rsCheckWord (s.burstBytes b) ^^^ s.get Reg.BUF_RAW_CHECK_CHECK))

/-- A write of BUF_RAW_CTL that starts operation `op`. It holds its burst from here to its end, so that no other access
comes between (R315): a write has its effect here, and a read takes its data here, in class OTHER (R306). -/
def State.rawStart (s : State) (op : RawOp) : State :=
  let rej := s.reject Reg.BUF_CFG_STATUS_ERR Reg.BUF_CFG_STATUS_CODE
  let b := s.get Reg.BUF_RAW_ADDR_BURST
  if s.flag Reg.BUF_RAW_CTL_BUSY then rej 4
  else if ¬ s.hbmUp then rej 8
  else
    let s := (s.put Reg.BUF_RAW_CTL_BUSY 1).charge 4 1
    match op with
    | .writing => (s.setBuf { s.buf with raw := op }).rawStore b
    | _ => s.setBuf { s.buf with raw := op, rawGot := (s.loadMem (32 * b) 32, rsCheckWord (s.burstBytes b) ^^^ s.burstErr b) }

/-- RAW_READ (12 R320). -/
def execRawRead (s : State) : Res := .next (s.rawStart .reading)

/-- RAW_WRITE (12 R320). -/
def execRawWrite (s : State) : Res := .next (s.rawStart .writing)

/-- RAW_OP_DONE (12 R320): the operation ends; a read's bytes stand in the registers as they were stored. -/
def execRawOpDone (s : State) : Res :=
  .next (match s.buf.raw with
    | .idle => s
    | .reading =>
      let g := s.buf.rawGot
      let s := s.setBuf { s.buf with raw := .idle }
      let s := s.each (List.range 8) (fun s i => s.put (Reg.BUF_RAW_DATA_DATA i) (g.1 / 2 ^ (32 * i)))
      (s.put Reg.BUF_RAW_CHECK_CHECK g.2).put Reg.BUF_RAW_CTL_BUSY 0
    | .writing => (s.setBuf { s.buf with raw := .idle }).put Reg.BUF_RAW_CTL_BUSY 0)

/-! ## The scrubber (12 R322 to R324) -/

/-- An accepted GO: DONE, STOPPED and the summary cleared, BUSY set. -/
def State.scrubGo (s : State) (target pos : Nat) : State :=
  let s := (s.put Reg.BUF_SCRUB_CTL_TARGET target).put Reg.BUF_SCRUB_CTL_BUSY 1
  let s := (s.put Reg.BUF_SCRUB_CTL_DONE 0).put Reg.BUF_SCRUB_CTL_STOPPED 0
  let s := (s.put Reg.BUF_SCRUB_CE_COUNT 0).put Reg.BUF_SCRUB_UE_COUNT 0
  let s := (s.put Reg.BUF_SCRUB_FIRST_VALID 0).put Reg.BUF_SCRUB_FIRST_WHERE 0
  s.setBuf { s.buf with scrubPos := pos, scrubSram := target == 1, scrubLen := s.get Reg.BUF_SCRUB_LEN_COUNT }

/-- SCRUB_START (12 R322): GO with TARGET 0, checked in the order of 00 R14. -/
def execScrubStart (s : State) : Res :=
  let rej := s.reject Reg.BUF_CFG_STATUS_ERR Reg.BUF_CFG_STATUS_CODE
  let n := s.get Reg.BUF_SCRUB_LEN_COUNT
  let a := s.get Reg.BUF_SCRUB_START_BURST
  .next (
    if n = 0 then rej 1
    else if 536870912 < n then rej 2
    else if 536870912 < a + n then rej 3
    else if s.flag Reg.BUF_SCRUB_CTL_BUSY then rej 4
    else if ¬ s.hbmUp then rej 8
    else s.scrubGo 0 a)

/-- SRAM_SWEEP_START (12 R323): GO with TARGET 1; START and LEN are ignored. -/
def execSramSweepStart (s : State) : Res :=
  .next (
    if s.flag Reg.BUF_SCRUB_CTL_BUSY then s.reject Reg.BUF_CFG_STATUS_ERR Reg.BUF_CFG_STATUS_CODE 4
    else s.scrubGo 1 0)

/-- The first uncorrectable place found is latched. -/
def State.scrubFirst (s : State) (w : Nat) : State :=
  if s.flag Reg.BUF_SCRUB_FIRST_VALID then s
  else (s.put Reg.BUF_SCRUB_FIRST_VALID 1).put Reg.BUF_SCRUB_FIRST_WHERE w

/-- One burst scrubbed: corrected and written back, or counted as uncorrectable (12 R322). -/
def State.scrubBurst (s : State) (b : Nat) : State :=
  match rsDecode (s.burstErr b) with
  | .clean => s
  | .single p v => (s.fixBurst b p v).inc Reg.BUF_SCRUB_CE_COUNT
  | .bad => (s.inc Reg.BUF_SCRUB_UE_COUNT).scrubFirst b

/-- The bursts from `a` up to `e` (excluded) scrubbed in ascending order, in class OTHER (R306); a burst with valid check
bytes changes nothing, so only the listed ones are visited. -/
def State.scrubRange (s : State) (a e : Nat) : State :=
  (s.charge 4 (e - a)).each ((SMap.keys s.chk).filter (fun b => decide (a ≤ b) && decide (b < e))) State.scrubBurst

/-- The protection of an SRAM instance (12 Table BUF-4). -/
inductive Prot where
  | secded | parity
  deriving DecidableEq, Repr

/-- An SRAM instance of 12 Table BUF-4: its protection, stored word width, and the switched domain it lies in
(none: a domain that is never switched). -/
def sramInstance (i : Nat) : Option (Prot × Nat × Option Nat) :=
  if i < 16 then some (.secded, 72, some (48 + i))
  else if i < 20 then some (.secded, 39, none)
  else if i < 24 then some (.parity, 128, some (80 + (i - 20)))
  else if i = 24 then some (.secded, 72, none)
  else if i = 25 then some (.parity, 65, some 93)
  else if i = 26 then some (.parity, 33, some 93)
  else if i < 35 then some (.secded, 72, some (84 + (i - 27) / 2))
  else if i < 40 then some (.secded, 72, none)
  else if i = 40 then some (.secded, 72, some 90)
  else if i = 41 then some (.secded, 72, some 91)
  else if i < 58 then some (.secded, 72, some (48 + (i - 42)))
  else if i < 74 then some (.secded, 72, some (48 + (i - 58)))
  else if i < 82 then some (.secded, 72, none)
  else none

/-- The domain of an SRAM instance is on. -/
def State.sramOn (s : State) (i : Nat) : Bool :=
  match sramInstance i with
  | some (_, _, some d) => s.domOn d
  | some (_, _, none) => true
  | none => false

/-- The key of a stored SRAM word. -/
def sramKey (inst word : Nat) : Nat := inst * 2 ^ 22 + word

/-- The number of inverted bits of a stored SRAM word. -/
def State.sramFlips (s : State) (inst word : Nat) : Nat := popCount 128 (SMap.get s.buf.flips 0 (sramKey inst word))

/-- A stored SRAM word rewritten. -/
def State.sramRewrite (s : State) (inst word : Nat) : State :=
  s.setBuf { s.buf with flips := SMap.put s.buf.flips 0 (sramKey inst word) 0 }

/-- A functional access of a SECDED word: one bit is corrected and written back, two are uncorrectable
(12 R318). The Bool says that the word is good. -/
def State.sramRead (s : State) (inst word : Nat) : Bool × State :=
  match s.sramFlips inst word with
  | 0 => (true, s)
  | 1 => (true, (s.sramRewrite inst word).inc Reg.BUF_SRAM_CE_COUNT)
  | _ => (false, s.inc Reg.BUF_SRAM_UE_COUNT)

/-- The words of an instance with an inverted bit that satisfy `p`. -/
def State.flippedWords (s : State) (inst : Nat) (p : Nat → Bool) : List Nat :=
  (SMap.keys s.buf.flips).filterMap (fun k =>
    if k / 2 ^ 22 = inst ∧ p (k % 2 ^ 22) then some (k % 2 ^ 22) else none)

/-- Functional accesses of words of an instance: whether every one is good. -/
def State.sramReadAll (s : State) (inst : Nat) : List Nat → Bool × State
  | [] => (true, s)
  | w :: ws =>
    let r := s.sramRead inst w
    let q := State.sramReadAll r.2 inst ws
    (r.1 && q.1, q.2)

/-- New contents are written to the words of an instance that satisfy `p`. -/
def State.sramWritten (s : State) (inst : Nat) (p : Nat → Bool) : State :=
  s.setBuf { s.buf with flips := SMap.keep s.buf.flips (fun k => !(k / 2 ^ 22 == inst && p (k % 2 ^ 22))) }

/-- A use of a whole working memory that is written anew each time: whether its words were good (21 R529). -/
def State.sramUse (s : State) (inst : Nat) (p : Nat → Bool) : Bool × State :=
  let r := s.sramReadAll inst (s.flippedWords inst p)
  (r.1, r.2.sramWritten inst p)

/-- One stored SRAM word swept (12 R323). -/
def State.sweepWord (s : State) (k : Nat) : State :=
  let i := k / 2 ^ 22
  match sramInstance i with
  | some (.secded, _, _) =>
    if s.sramOn i then
      (if s.sramFlips i (k % 2 ^ 22) = 1 then (s.sramRewrite i (k % 2 ^ 22)).inc Reg.BUF_SCRUB_CE_COUNT
        else (s.inc Reg.BUF_SCRUB_UE_COUNT).scrubFirst k)
    else s
  | _ => s

/-- The part of a scrub or sweep up to `reached` bursts, or words keyed below `reached`. -/
def State.scrubTo (s : State) (reached : Nat) : State :=
  if !s.buf.scrubSram then s.scrubRange s.buf.scrubPos (s.buf.scrubPos + reached)
  else s.each ((SMap.keys s.buf.flips).filter (fun k => decide (k < reached))) State.sweepWord

/-- SCRUB_STOP (12 R324): a write of STOP after `reached` bursts, or words keyed below `reached`. -/
def execScrubStop (reached : Nat) (s : State) : Res :=
  .next (if s.flag Reg.BUF_SCRUB_CTL_BUSY then
      (((s.scrubTo (if s.buf.scrubSram then reached else min reached s.buf.scrubLen)).put Reg.BUF_SCRUB_CTL_BUSY 0).put
        Reg.BUF_SCRUB_CTL_DONE 1).put Reg.BUF_SCRUB_CTL_STOPPED 1
    else s)

/-- SCRUB_DONE (12 R324): the scrub ends normally. -/
def execScrubDone (s : State) : Res :=
  .next (if s.flag Reg.BUF_SCRUB_CTL_BUSY then
      (((s.scrubTo (if s.buf.scrubSram then 82 * 2 ^ 22 else s.buf.scrubLen)).put
        Reg.BUF_SCRUB_CTL_BUSY 0).put Reg.BUF_SCRUB_CTL_DONE 1).put Reg.BUF_SCRUB_CTL_STOPPED 0
    else s)

/-! ## The SRAM flip mask (12 R321) -/

/-- The arm is refused (12 R321). -/
def State.flipRefused (s : State) (inst : Nat) : Bool :=
  match sramInstance inst with
  | none => true
  | some (_, w, _) =>
    let e0 := s.flag Reg.SYS_FLIP_MASK_EN0
    let e1 := s.flag Reg.SYS_FLIP_MASK_EN1
    let p0 := s.get Reg.SYS_FLIP_MASK_POS0
    let p1 := s.get Reg.SYS_FLIP_MASK_POS1
    !s.sramOn inst || (!e0 && !e1) || (e0 && decide (w ≤ p0)) || (e1 && decide (w ≤ p1)) ||
      (e0 && e1 && decide (p0 = p1))

/-- FLIP_ARM (12 R321): a write of SYS_FLIP_SEL. -/
def execFlipArm (value : Word) (s : State) : Res :=
  let v := value.toNat
  let s := (s.when (hasBit v 30) (·.put Reg.SYS_FLIP_SEL_DONE 0)).when (hasBit v 29) (·.put Reg.SYS_FLIP_SEL_REJ 0)
  .next (
    if hasBit v 31 then
      (if s.flipRefused (bits v 7 0) then s.put Reg.SYS_FLIP_SEL_REJ 1
       else (s.put Reg.SYS_FLIP_SEL_INSTANCE (bits v 7 0)).put Reg.SYS_FLIP_SEL_ARM 1)
    else (s.put Reg.SYS_FLIP_SEL_INSTANCE (bits v 7 0)).put Reg.SYS_FLIP_SEL_ARM 0)

/-- FLIP_APPLY (12 R321): the first write accepted by the armed instance lands in stored word `word`. -/
def execFlipApply (word : Nat) (s : State) : Res :=
  let m := s.get Reg.SYS_FLIP_MASK_EN0 * 2 ^ s.get Reg.SYS_FLIP_MASK_POS0
  let m' := s.get Reg.SYS_FLIP_MASK_EN1 * 2 ^ s.get Reg.SYS_FLIP_MASK_POS1
  let k := sramKey (s.get Reg.SYS_FLIP_SEL_INSTANCE) word
  .next (if s.flag Reg.SYS_FLIP_SEL_ARM then
      (((s.setBuf { s.buf with flips := SMap.put s.buf.flips 0 k (m ^^^ m') })).put
        Reg.SYS_FLIP_SEL_ARM 0).put Reg.SYS_FLIP_SEL_DONE 1
    else s)

end Sys2Proof.Machine
end

