-- ==== Sys2Proof/Machine/Recorder.lean ====
section
/-! DEFINITION. The event recorder (20): raising an event, rate limiting, sequence numbers, the three places a
record is kept, and the recorder's register writes. -/

namespace Sys2Proof.Machine

/-- The enabled override entry that applies to a code: the lowest-numbered one (20 R513). -/
def State.override (s : State) (code : Nat) : Option RlEntry :=
  (s.evr.overrides.find? (fun e => e.2.en && e.2.code == code)).map Prod.snd

/-- The burst that applies to a code. -/
def State.burst (s : State) (code : Nat) : Nat :=
  match s.override code with
  | some e => e.burst
  | none => s.get Reg.EVR_CTL_DEF_BURST

/-- The code is never limited. -/
def State.unlimited (s : State) (code severity : Nat) : Bool :=
  severity == 4 || (match s.override code with | some e => e.unlimited | none => false)

/-- Bucket states replaced. -/
def State.putBuckets (s : State) (b : SMap Bucket) : State := { s with evr := { s.evr with buckets := b } }

/-- A code's bucket state written; a full bucket without suppressed events holds no state (20 R514). -/
def State.putBucket (s : State) (code : Nat) (b : Bucket) : State :=
  s.putBuckets (if s.burst code ≤ b.tokens ∧ b.suppressed = 0 then SMap.del s.evr.buckets code
    else SMap.set s.evr.buckets code b)

/-- The rate limit's decision on an event: recorded with this suppressed count, or dropped (20 R513, R514). -/
def State.rateLimit (s : State) (code severity : Nat) : Option Nat × State :=
  match SMap.look s.evr.buckets code with
  | some b =>
    if s.unlimited code severity then (some b.suppressed, s.putBucket code ⟨b.tokens, 0⟩)
    else if b.tokens = 0 then
      (none, (s.putBucket code ⟨0, satAdd 0xFFFF b.suppressed 1⟩).inc Reg.EVR_SUPPRESSED_COUNT)
    else (some b.suppressed, s.putBucket code ⟨b.tokens - 1, 0⟩)
  | none =>
    if s.unlimited code severity then (some 0, s)
    else if 128 ≤ s.evr.buckets.length then (some 0, s.inc Reg.EVR_RL_OVF_COUNT)
    else (some 0, s.putBucket code ⟨s.burst code - 1, 0⟩)

/-- The record's 64 bytes as Table EVR-1 lays them out (20 R510). -/
def EvRec.encode (r : EvRec) : Nat :=
  r.seq % 2 ^ 64 + 2 ^ 64 * (r.pos % 2 ^ 32) + 2 ^ 96 * (r.poc % 2 ^ 32) + 2 ^ 128 * (r.code % 2 ^ 16) +
    2 ^ 144 * (r.code / 256 % 256) + 2 ^ 152 * (r.severity % 256) + 2 ^ 160 * (r.suppressed % 2 ^ 16) +
    2 ^ 176 * (r.unit % 2 ^ 16) + 2 ^ 192 * (r.ticks % 2 ^ 32) + 2 ^ 256 * (r.payload % 2 ^ 256)

/-- The HBM ring's part of a record (20 R515). -/
def State.ringRecord (s : State) (r : EvRec) : State :=
  if s.flag Reg.EVR_CTL_EN then
    let s := s.put64 Reg.EVR_HEAD_LO_SEQ Reg.EVR_HEAD_HI_SEQ (r.seq + 1)
    let w := s.bufWrite 4 (s.get Reg.EVR_RING_BASE_ADDR * 2 ^ 22 + r.seq % 65536 * 64) r.encode 64
    if w.1 && w.2.get64 Reg.EVR_DONE_LO_SEQ Reg.EVR_DONE_HI_SEQ == r.seq then
      w.2.put64 Reg.EVR_DONE_LO_SEQ Reg.EVR_DONE_HI_SEQ (r.seq + 1)
    else w.2
  else s

/-- A record takes the next SEQ and enters the tail and the ring (20 R511, R515). -/
def State.place (s : State) (r : EvRec) : State :=
  let q := s.evr.nextSeq
  let s := s.setEvr { s.evr with nextSeq := q + 1, tail := SMap.set s.evr.tail (q % 16384) { r with seq := q } }
  (s.ringRecord { r with seq := q }).inc Reg.EVR_RECORDED_COUNT

/-- A record enters the FIFO of 32, or is dropped (20 R512). -/
def State.wait (s : State) (r : EvRec) : State :=
  if s.evr.fifo.length < 32 then s.setEvr { s.evr with fifo := s.evr.fifo ++ [r] }
  else s.inc Reg.EVR_FIFO_DROP_COUNT

/-- An event is raised (20 R510 to R515); payload and severity are free where the spec leaves them to another file. -/
def State.raiseWith (s : State) (code : Nat) (severity : Option Nat) (unit : Nat) (payload : Option Nat) : State :=
  let l := s.rateLimit code (severity.getD 0)
  match l.1 with
  | none => l.2
  | some k =>
    let n := l.2.free
    let r : EvRec := ⟨0, Config.freeTime n % 2 ^ 32, l.2.evr.poc, code % 2 ^ 16,
      severity.getD (Config.freeSeverity code % 4), k, unit % 2 ^ 16,
      Config.freeTime (n + 1) % 25000000, payload.getD (Config.freePayload n)⟩
    let s := l.2.draw 2
    if s.flag Reg.EVR_STATUS_SEQ_VALID && !s.spt.frozenMeta && s.clkOk 37 then s.place r else s.wait r

/-- The records that waited for the recorder's clock enter the tail (02 R48; 20 R512). -/
def State.placeHeld (s : State) : State :=
  s.when (s.flag Reg.EVR_STATUS_SEQ_VALID && !s.spt.frozenMeta && s.clkOk 37) (fun s =>
    (s.setEvr { s.evr with fifo := [] }).each s.evr.fifo State.place)

/-- An event of the hardware, below FATAL. -/
def State.raise (s : State) (code unit : Nat) : State := s.raiseWith code none unit none

/-- An event whose rule says what it names: its payload is laid out elsewhere (20 R519) and depends on the names. -/
def State.raiseNamed (s : State) (code unit : Nat) (names : List Nat) : State :=
  s.raiseWith code none unit (some (Config.namedPayload code names s.free))

/-- EVENT_RAISE (20 R510): a block raises an event. -/
def execEventRaise (code severity unit : Nat) (s : State) : Res := .next (s.raiseWith code (some (severity % 5)) unit none)

/-- EVR_RAISE_WRITE (20 R520). -/
def execEvrRaiseWrite (req : Fin 5) (value : Word) (s : State) : Res :=
  let v := value.toNat
  let code := bits v 15 0
  let sev := bits v 26 24
  let payload := (List.range 8).foldl (fun p i => p + s.get (Reg.EVR_RAISE_P_DATA i) * 2 ^ (32 * i)) 0
  .next (
    if code < 0x8000 ∨ 4 < sev then s.reject Reg.EVR_CFG_STATUS_ERR Reg.EVR_CFG_STATUS_CODE 2
    else s.raiseWith code (some sev) (256 * req.val) (some payload))

/-- BUCKET_REFILL (20 R513): a code's bucket below BURST gains a token. -/
def execBucketRefill (code : Nat) (s : State) : Res :=
  .next (match SMap.look s.evr.buckets code with
    | some b => if b.tokens < s.burst code then s.putBucket code ⟨b.tokens + 1, b.suppressed⟩ else s
    | none => s)

/-- EVENT_ARCHIVE (20 R515): once 4,096 records are not archived they move from the tail to the archive; a full
archive first loses its oldest 65,536 records. -/
def execEventArchive (s : State) : Res :=
  let a := s.evr.archNext
  let oldest := s.get64 Reg.EVR_ARCH_LO_SEQ Reg.EVR_ARCH_HI_SEQ
  .next (
    if a + 4096 ≤ s.evr.nextSeq then
      let beyond := decide (26214400 < a + 4096 - oldest)
      let s := s.when beyond (fun s =>
        (s.setEvr { s.evr with archive := SMap.keep s.evr.archive (fun q => decide (oldest + 65536 ≤ q)) }).put64
          Reg.EVR_ARCH_LO_SEQ Reg.EVR_ARCH_HI_SEQ (oldest + 65536))
      let recs := (s.evr.tail.map Prod.snd).filter (fun r => decide (a ≤ r.seq) && decide (r.seq < a + 4096))
      let arch := recs.foldl (fun m r => SMap.set m r.seq r) s.evr.archive
      s.setEvr { s.evr with archive := arch, archNext := a + 4096 }
    else s)

/-- Every bucket adjusted to the burst that now applies (20 R513): `old` gives the burst before the write. -/
def State.rebucket (s : State) (old : Nat → Nat) : State :=
  s.each s.evr.buckets (fun s e =>
    s.putBucket e.1 (if old e.1 ≤ e.2.tokens then ⟨s.burst e.1, e.2.suppressed⟩
      else ⟨min e.2.tokens (s.burst e.1), e.2.suppressed⟩))

/-- A write of EVR_CTL (20 R513, R515, Table EVR-3). -/
def State.evrCtl (s : State) (v : Nat) : State :=
  let rej := s.reject Reg.EVR_CFG_STATUS_ERR Reg.EVR_CFG_STATUS_CODE
  if bits v 23 16 = 0 ∨ bits v 15 0 = 0 then rej 1
  else
    let t := (s.put Reg.EVR_CTL_DEF_BURST (bits v 23 16)).put Reg.EVR_CTL_DEF_REFILL (bits v 15 0)
    let t := t.when (hasBit v 31 && !s.flag Reg.EVR_CTL_EN) (fun t =>
      (t.put64 Reg.EVR_HEAD_LO_SEQ Reg.EVR_HEAD_HI_SEQ s.evr.nextSeq).put64
        Reg.EVR_DONE_LO_SEQ Reg.EVR_DONE_HI_SEQ s.evr.nextSeq)
    (t.put Reg.EVR_CTL_EN (bit v 31)).rebucket s.burst

/-- EVR_ENABLE (20 R515): a write of EVR_CTL. -/
def execEvrEnable (value : Word) (s : State) : Res := .next (s.evrCtl value.toNat)

/-- The override entry EVR_RL_SEL names. -/
def State.rlEntry (s : State) : RlEntry :=
  SMap.get s.evr.overrides ⟨false, false, 0, 8, 60⟩ (s.get Reg.EVR_RL_SEL_ENTRY)

/-- The selected override entry written. -/
def State.putRl (s : State) (e : RlEntry) : State :=
  (s.setEvr { s.evr with overrides := SMap.put s.evr.overrides ⟨false, false, 0, 8, 60⟩ (s.get Reg.EVR_RL_SEL_ENTRY) e }).rebucket
    s.burst

/-- RATE_LIMIT_WRITE (20 R513): a write of EVR_CTL, EVR_RL_CODE or EVR_RL_RATE by its offset. -/
def execRateLimitWrite (offset : Nat) (value : Word) (s : State) : Res :=
  let v := value.toNat
  let e := s.rlEntry
  .next (
    if offset = 0x0000 then s.evrCtl v
    else if offset = 0x0084 then s.putRl { e with en := hasBit v 31, unlimited := hasBit v 30, code := bits v 15 0 }
    else if offset = 0x0088 then
      if bits v 31 24 = 0 ∨ bits v 15 0 = 0 then s.reject Reg.EVR_CFG_STATUS_ERR Reg.EVR_CFG_STATUS_CODE 1
      else s.putRl { e with burst := bits v 31 24, refill := bits v 15 0 }
    else s)

end Sys2Proof.Machine
end

