-- ==== Sys2Proof/Machine/Cache.lean ====
section
/-! DEFINITION. What becomes of a buffered block when its media write ends: window entries, held entries, deferred
errors, failed LBAs, and the events queued to the host ports (11 R282 to R285, 15 R399, R400, R551, 16 R409). -/

namespace Sys2Proof.Machine

/-! ## Wake events (14 R366) -/

/-- A port nothing has happened to: PERST_N is low. -/
def portInit : Port :=
  { perst := true, wakeN := false, pmeEn := false, msixEn := false, msixMask := false, speedDis := false,
    widthDis := false, reads := false, flr := false, linkSaved := none, asq := 0, acq := 0, adepth := 0, msix := [],
    pba := 0, rr := 0 }
def State.port (s : State) (p : Nat) : Port := SMap.get s.ports portInit p
def State.modPort (s : State) (p : Nat) (g : Port → Port) : State :=
  s.setPorts (SMap.upd s.ports portInit p g)

/-- A wake event of a port: PM_PME in D3hot with PME_En, WAKE_N while its PERST_N is low and SYS_POR_N is high; none
in Off. -/
def State.wake (s : State) (p : Nat) : State :=
  if s.dev = .off then s
  else if (s.port p).perst && s.pwr.por then
    if (s.port p).wakeN then s else (s.modPort p (fun x => { x with wakeN := true })).emit (.wakePin p)
  else if s.get (Reg.HST_LINK_DSTATE p) = 3 && (s.port p).pmeEn then s.emit (.pme p)
  else s

/-! ## The link in Doze (14 R367) -/

/-- The Doze change of a port's link in L0 (R367): 2.5 GT/s x1, as the two disables permit; the rate and width before
are held for the exit. -/
def State.linkNarrow (s : State) (p : Nat) : State :=
  let x := s.port p
  if s.flag (Reg.HST_LINK_UP p) && s.get (Reg.HST_LINK_LSTATE p) == 0 && x.linkSaved.isNone then
    let r := s.get (Reg.HST_LINK_RATE p)
    let w := s.get (Reg.HST_LINK_WIDTH p)
    let s := s.modPort p (fun x => { x with linkSaved := some (r, w) })
    (s.put (Reg.HST_LINK_RATE p) (if x.speedDis then r else 0)).put (Reg.HST_LINK_WIDTH p) (if x.widthDis then w else 0)
  else s

/-- The link returns to the rate and width it held before Doze (R367), once it is in L0. -/
def State.linkWiden (s : State) (p : Nat) : State :=
  match (s.port p).linkSaved with
  | some (r, w) =>
    let s := s.modPort p (fun x => { x with linkSaved := none })
    if s.flag (Reg.HST_LINK_UP p) then (s.put (Reg.HST_LINK_RATE p) r).put (Reg.HST_LINK_WIDTH p) w else s
  | none => s

/-! ## IQI events (15 R400) -/

/-- The opcode of a submission entry. -/
def sqeOpc (e : Nat) : Nat := bytesAt e 0 1

/-- A command's completion is fixed. -/
def State.commit (s : State) (seq : Nat) (c : Cpl) : State :=
  match SMap.look s.cmds seq with
  | some k => s.setCmds (SMap.set s.cmds seq { k with commit := some c })
  | none => s

/-- The oldest EVENT_WAIT of a port that still waits. -/
def State.waitOf (s : State) (port : Nat) : Option Nat :=
  (s.cmds.find? (fun e => e.2.port == port && e.2.qid == 0 && sqeOpc e.2.sqe == 4 && e.2.begun && e.2.commit.isNone)).map Prod.fst

/-- RESULT of a completed EVENT_WAIT. -/
def evResult (e : Nat × Nat) : Nat := e.1 % 256 + 256 * (e.2 % 2 ^ 24)

/-- A port's pending events replaced. -/
def State.putEv (s : State) (port : Nat) (l : List (Nat × Nat)) : State :=
  s.setIqiEv (SMap.put s.iqiEv [] port l)

/-- The pending events of a port. -/
def State.evOf (s : State) (port : Nat) : List (Nat × Nat) := SMap.get s.iqiEv [] port

/-- The oldest pending event completes the oldest EVENT_WAIT, where both exist. -/
def State.reportEvent (s : State) (port : Nat) : State :=
  match s.waitOf port, s.evOf port with
  | some k, e :: es => (s.putEv port es).commit k ⟨0, 0xFFFFFFFF, evResult e⟩
  | _, _ => s

/-- Type 4 of Table IQI-10: EVENT_OVERFLOW. -/
def evOverflow : Nat := 0x04

/-- An event queued to one port: merged, queued, or counted in EVENT_OVERFLOW in the sixteenth place. -/
def State.queueEvent (s : State) (port ty info : Nat) : State :=
  let l := s.evOf port
  let s :=
    if l.contains (ty, info) then s
    else State.wake (if (l.filter (fun e => e.1 != evOverflow)).length < 15 then s.putEv port (l ++ [(ty, info)])
    else if l.any (fun e => e.1 == evOverflow) then
      s.putEv port (l.map (fun e => if e.1 = evOverflow then (e.1, satAdd 0xFFFFFF e.2 1) else e))
    else s.putEv port (l ++ [(evOverflow, 1)])) port
  s.reportEvent port

/-- An event queued to every port whose HCTL.EN is 1. -/
def State.queueEventAll (s : State) (ty info : Nat) : State :=
  s.each [0, 1] (fun s p => s.when (s.flag (Reg.HCTL_EN p)) (·.queueEvent p ty info))

/-- HEALTH code `c` (16 Table ADM-14), where HEALTH_MASK enables it. -/
def State.health (s : State) (c : Nat) : State :=
  s.when (hasBit (SMap.get s.feat 0x1FE 5) c) (·.queueEventAll 0x03 c)

/-- A zone's blocks (15 "Zones"). -/
def zoneBlocks : Nat := 65536

/-! ## Key ranges (17 R438) -/

/-- The blocks that a range has in common with `n` blocks from `lba` of a namespace. -/
def KRange.common (r : KRange) (nsid lba n : Nat) : Nat :=
  if r.nsid = nsid then min (lba + n) (r.first + r.zones * zoneBlocks) - max lba r.first else 0

/-- The ranges that hold any of `n` blocks from `lba`: range 0 where the others leave some. -/
def State.rangesOf (s : State) (nsid lba n : Nat) : List Nat :=
  let rs := s.sec.ranges.filter (fun e => e.1 != 0 && e.2.common nsid lba n != 0)
  (if rs.foldl (fun c e => c + e.2.common nsid lba n) 0 < n then [0] else []) ++ rs.map Prod.fst

/-- The range of one block. -/
def State.rangeOf (s : State) (nsid lba : Nat) : Nat := (s.rangesOf nsid lba 1).headD 0

/-- A range at the start of an unowned device. -/
def rangeInit : KRange := ⟨0, 0, 0, false, false, false, false, 0, 0, none⟩
def State.range (s : State) (r : Nat) : KRange := SMap.get s.sec.ranges rangeInit r
def State.putRange (s : State) (r : Nat) (x : KRange) : State :=
  s.setSec { s.sec with ranges := SMap.put s.sec.ranges rangeInit r x }

/-- The media keys by range, as the crypto engine holds them (17 R438). -/
def State.mediaKeys (s : State) : List (Nat × Nat) := s.sec.ranges.map (fun e => (e.1, e.2.key))

/-- The restore region of the buffer (11 R300). -/
def restoreBase : Nat := 0x3FE000000

/-- The keys a block from buffer address `a` is written to media with: for a restored window entry, the keys of the
save-key records where one holds its range's (17 R443). -/
def State.keysFor (s : State) (a : Nat) : List (Nat × Nat) :=
  if restoreBase ≤ a ∧ a < restoreBase + 0x2000000 then
    s.mediaKeys.map (fun e => (e.1, (SMap.look s.sec.restKeys e.1).getD e.2))
  else s.mediaKeys

/-! ## Window entries (11 R282 to R285) -/

/-- Serial-number order of window SEQ values: `a` is newer than `b` (R282). -/
def seqNewer (a b : Nat) : Bool :=
  let d := (a + 2 ^ 32 - b % 2 ^ 32) % 2 ^ 32
  decide (0 < d) && decide (d < 2 ^ 31)

/-- The window replaced, where it is not frozen (R288). -/
def State.putWindow (s : State) (w : SMap WinEntry) : State :=
  if s.spt.frozenJW then s else s.setSpt { s.spt with window := w }

/-- A window entry freed. -/
def State.freeWin (s : State) (i : Nat) : State :=
  let s := s.putWindow (SMap.del s.spt.window i)
  s.setSpt { s.spt with rewrite := s.spt.rewrite.filter (· != i) }

/-- Held entries (SPT_STATUS.HELD_CNT). -/
def State.heldCount (s : State) : Nat := (s.spt.window.filter (fun e => e.2.held)).length

/-- Window entry `i` is freed and its block, if it is in the buffer, discarded. -/
def State.dropWin (s : State) (i : Nat) : State :=
  (s.freeWin i).setCache (s.cache.filter (fun e => e.2.win != some i))

/-- The key of an LBA. -/
def lbaKey (nsid lba : Nat) : Nat := nsid * 2 ^ 64 + lba % 2 ^ 64

/-- The number of the write that filled window entry `i`; 0 for one restored (R300). -/
def State.winWrite (s : State) (i : Nat) : Nat :=
  ((s.cache.find? (fun e => e.2.win == some i)).map (fun e => e.2.seq)).getD 0

/-- A later write of its LBA has taken the place of window entry `i`: it has a valid entry of its own, or is on media
(R285). -/
def State.superseded (s : State) (i : Nat) (e : WinEntry) : Bool :=
  s.spt.window.any (fun x => x.2.nsid == e.nsid && x.2.lba == e.lba && seqNewer x.2.seq e.seq) ||
    (match SMap.look s.media.newest (lbaKey e.nsid e.lba) with
      | some q => decide (s.winWrite i < q)
      | none => false)

/-- Entry `i` becomes held, unless a later write has taken its place: it is then freed. HEALTH code 8 when the count
rises from 0 (R285). -/
def State.holdWin (s : State) (i : Nat) : State :=
  match SMap.look s.spt.window i with
  | some e =>
    if s.superseded i e then s.dropWin i
    else
      let z := s.heldCount == 0
      let s := s.setSpt { s.spt with rewrite := s.spt.rewrite.filter (· != i) }
      (s.putWindow (SMap.set s.spt.window i { e with held := true })).when z (·.health 8)
  | none => s

/-- The held entries of an LBA that `older` picks are freed: a later block of the LBA is on media or has a window entry
of its own (R285). -/
def State.freeHeld (s : State) (nsid lba : Nat) (older : Nat → WinEntry → Bool) : State :=
  s.each ((s.spt.window.filter (fun e => e.2.held && e.2.nsid == nsid && e.2.lba == lba && older e.1 e.2)).map Prod.fst)
    State.dropWin

/-! ## The end of a block's media write -/

/-- A write to the metadata region of the save store: ignored once that region is frozen (R288). -/
def State.putMeta (s : State) (g : Spt → Spt) : State := if s.spt.frozenMeta then s else s.setSpt (g s.spt)

/-- A failed mark removed (15 R551). -/
def State.unfail (s : State) (nsid lba : Nat) : State :=
  s.putMeta (fun p => { p with failed := SMap.del p.failed (lbaKey nsid lba) })

/-- An LBA marked failed with a status (15 R401, R551). -/
def State.markFailed (s : State) (nsid lba sc : Nat) : State :=
  s.putMeta (fun p => { p with failed := SMap.set p.failed (lbaKey nsid lba) sc })

/-- The block at a buffer address is on media: its entry in the window is freed, held entries of the LBA that it
supersedes are freed, and a failed mark ends (11 R282, R285; 15 R551). -/
def State.blockDone (s : State) (addr : Nat) : State :=
  match SMap.look s.cache addr with
  | none => s
  | some b =>
    let k := lbaKey b.nsid b.lba
    let first := match SMap.look s.media.written k with | some q => min q b.seq | none => b.seq
    let last := match SMap.look s.media.newest k with | some q => max q b.seq | none => b.seq
    let s := (s.setCache (SMap.del s.cache addr)).setMedia { s.media with
      pendingLbas := s.media.pendingLbas.filter (· != k)
      unverified := s.media.unverified.filter (· != addr)
      written := SMap.set s.media.written k first
      newest := SMap.set s.media.newest k last }
    match b.win with
    | some i =>
      let older := match SMap.look s.spt.window i with
        | some e => fun (_ : Nat) (x : WinEntry) => seqNewer e.seq x.seq
        | none => fun (j : Nat) (_ : WinEntry) => decide (s.winWrite j < b.seq)
      ((s.freeWin i).freeHeld b.nsid b.lba older).unfail b.nsid b.lba
    | none => (s.freeHeld b.nsid b.lba (fun j _ => decide (s.winWrite j < b.seq))).unfail b.nsid b.lba

/-- The sector of the block at a buffer address is written. The write of a pending LBA is not complete before its sector has
been verified by a read (03 R95). -/
def State.blockWritten (s : State) (addr : Nat) : State :=
  match SMap.look s.cache addr with
  | none => s
  | some b =>
    if s.media.pendingLbas.contains (lbaKey b.nsid b.lba) then
      s.setMedia { s.media with unverified := s.media.unverified.filter (· != addr) ++ [addr] }
    else s.blockDone addr

/-- A sector whose header carries LBA_LO `lo` has been read back: the block of its LBA that awaits this is on media (03 R95;
DEDUCED, log entry 108). -/
def State.readBack (s : State) (lo : Nat) : State :=
  s.each (s.media.unverified.filter (fun a => match SMap.look s.cache a with
    | some b => b.lba % 2 ^ 24 == lo % 2 ^ 24 && s.media.pendingLbas.contains (lbaKey b.nsid b.lba)
    | none => false)) State.blockDone

/-- A deferred error: logged, marked, its block discarded, and reported (15 R399, R551; 16 R409). -/
def State.deferError (s : State) (addr : Nat) (b : CacheBlk) (sc : Nat) : State :=
  let full := decide (1024 ≤ s.spt.del.length)
  let s := (((s.setCache (SMap.del s.cache addr)).setAdm { s.adm with deferred := s.adm.deferred + 1 }).setDeferNs (if s.deferNs.contains b.nsid then s.deferNs else s.deferNs ++ [b.nsid])).putMeta (fun p =>
    { p with
      del := if full then p.del else p.del ++ [(⟨b.nsid, b.lba, sc, b.seq⟩ : DefErr)]
      delLost := if full then satAdd 0xFFFFFFFF p.delLost 1 else p.delLost
      failed := SMap.set p.failed (lbaKey b.nsid b.lba) sc })
  ((s.inc Reg.IQI_DEF_ERR_COUNT).raise 0x0B02 b.nsid).queueEventAll 0x01 b.nsid

/-- A media-mode block of a command that an earlier failure of it has ended (15 R385): it is discarded, and in a
sequential-write zone it reads with the status (15 R401). -/
def State.lostBlock (s : State) (addr : Nat) (b : CacheBlk) (sc : Nat) : State :=
  let seqZone := decide (s.get (Reg.IQI_NS_CONV_CONV b.nsid) ≤ b.lba / 65536)
  (s.setCache (SMap.del s.cache addr)).when seqZone (·.markFailed b.nsid b.lba sc)

/-- The media write of the block at a buffer address ended without its sector written, with status `sc`. -/
def State.blockFailed (s : State) (addr sc : Nat) : State :=
  match SMap.look s.cache addr with
  | none => s
  | some b =>
    match b.win with
    | some i => s.holdWin i
    | none =>
      if b.mode = 1 ∧ b.committed then s.deferError addr b sc
      else if b.committed then s.lostBlock addr b sc
      else s.setCache (SMap.set s.cache addr { b with err := some sc })

end Sys2Proof.Machine
end

