-- ==== Sys2Proof/Machine/Slots.lean ====
section
/-! DEFINITION. The shared operations of slots, preamp links, runs and write-unsafe sources (04 to 08): accessors,
member starts and refusals, the preamp link's queue, sector bookkeeping of runs, and gate drops. -/

namespace Sys2Proof.Machine

/-! ## Accessors -/

/-- A slot nothing has happened to. -/
def slotInit : Slot :=
  { mem := none, hist := [], rc := 0, window := none, winTa := false, winDo := false, windows := [], taps := [],
    samp := [], gen := 0, sects := [], fifo := [], fifoLatched := false, n0num := 0, n0den := 1, phase := 0, validCnt := 0,
    okRun := 0, badRun := 0, invRun := 0, unlocked := false, rg := false, wg := false, sg := false, fw := false,
    gate := false, wc := none, cc := 0, ahead := 0, eq := [], discard := none, started := none, wr := [], rd := [], dataGain := none,
    dpSrc := false, urSrc := false }

def State.slot (s : State) (i : Nat) : Slot := SMap.get s.slots slotInit i
def State.putSlot (s : State) (i : Nat) (x : Slot) : State := { s with slots := SMap.put s.slots slotInit i x }
def State.modSlot (s : State) (i : Nat) (g : Slot → Slot) : State := s.putSlot i (g (s.slot i))

/-- A thread after a formatter reset (07 R178). -/
def threadInit : Thread :=
  { pc := 0, patch := false, cmpW := 0, cmpC := 0, lc0 := 0, lc1 := 0, word := none, pushDue := false,
    barrier := false, cur := none }

/-- A formatter nothing has happened to. -/
def fmtInit : Fmt :=
  { threads := [], queues := [], cur := [], ended := [], course := [], pend := none, due := [], nextRid := 0, nextSec := 0,
    done := [], patch := [], gen := 0, expect := 0, lastCrc := 0, sweep := 0 }

def State.fmt (s : State) (a : Nat) : Fmt := SMap.get s.fmts fmtInit a
def State.putFmt (s : State) (a : Nat) (x : Fmt) : State := { s with fmts := SMap.put s.fmts fmtInit a x }
def State.modFmt (s : State) (a : Nat) (g : Fmt → Fmt) : State := s.putFmt a (g (s.fmt a))
def State.thread (s : State) (a j : Nat) : Thread := SMap.get (s.fmt a).threads threadInit j
def State.putThread (s : State) (a j : Nat) (t : Thread) : State :=
  s.modFmt a (fun m => { m with threads := SMap.put m.threads threadInit j t })

/-- A preamp link with nothing queued. -/
def paInit : PaLink := ⟨none, [], [], []⟩
def State.pa (s : State) (a : Nat) : PaLink := SMap.get s.pas paInit a
def State.putPa (s : State) (a : Nat) (x : PaLink) : State := { s with pas := SMap.put s.pas paInit a x }

/-- A lane nothing has happened to. -/
def laneInit : Lane :=
  { coef := [], live := [], sw := none, old := [], go := none, micro := [], vcm := [], integ := 0, u := [], eLast := [],
    inv := [], heldHeads := 0, recs := [], xref := 0, xtarget := 0, v := 0, aref := 0, fresh := false, ev := 0,
    settle := 0, fe := 0, empty := 0, clean := 0, feDue := false, learner := [], bound := false, dirty := false,
    chk := ⟨[], [], [], [], 0⟩ }
def State.lane (s : State) (a : Nat) : Lane := SMap.get s.lanes laneInit a
def State.putLane (s : State) (a : Nat) (x : Lane) : State := { s with lanes := SMap.put s.lanes laneInit a x }
def State.modLane (s : State) (a : Nat) (g : Lane → Lane) : State := s.putLane a (g (s.lane a))

/-- A servo source in OFF. -/
def srcInit : Src := ⟨none, 0, 0, 0, 0, none, none, 1⟩
def State.src (s : State) (i : Nat) : Src := SMap.get s.srcs srcInit i
def State.putSrc (s : State) (i : Nat) (x : Src) : State := { s with srcs := SMap.put s.srcs srcInit i x }

/-- The actuator and the local index of a slot. -/
def actOf (i : Nat) : Nat := i / 4
def locOf (i : Nat) : Nat := i % 4

/-- The slots of an actuator. -/
def slotsOf (a : Nat) : List Nat := [4 * a, 4 * a + 1, 4 * a + 2, 4 * a + 3]

/-- The state of a servo source: 0 OFF, 1 SEARCH, 2 VERIFY, 3 TRACK (08 Table SRV-7). -/
def State.srcState (s : State) (i : Nat) : Nat := s.get (Reg.SRV_STATUS_STATE (actOf i)) / 4 ^ locOf i % 4

/-- That state changed. -/
def State.setSrcState (s : State) (i v : Nat) : State :=
  let F := Reg.SRV_STATUS_STATE (actOf i)
  s.put F (s.get F + (v % 4) * 4 ^ locOf i - s.srcState i * 4 ^ locOf i)

/-- The slot's media clock is locked (06 R156). -/
def State.locked (s : State) (i : Nat) : Bool := s.flag (Reg.CHN_MC_STATUS_LOCKED i) && s.clkOk i

/-- A reader input is declared connected (02 R70): bit 3·slot + element of SYS_AFE_FIT0 and SYS_AFE_FIT1. -/
def State.connected (s : State) (i e : Nat) : Bool :=
  hasBit (s.get Reg.SYS_AFE_FIT0_FIT + 2 ^ 32 * s.get Reg.SYS_AFE_FIT1_FIT) (3 * i + e)

/-! ## The preamp control link (06 R170 to R172, 07 R184) -/

/-- The link takes its next frame: member-start frames, then fast-write frames, then firmware's. -/
def State.paNext (s : State) (a : Nat) : State :=
  let p := s.pa a
  match p.prog with
  | some _ => s
  | none =>
    match p.member, p.fast, p.fw with
    | f :: fs, _, _ => (s.putPa a { p with prog := some f, member := fs }).emit (.preamp a f.read f.addr f.data)
    | [], f :: fs, _ => (s.putPa a { p with prog := some f, fast := fs }).emit (.preamp a f.read f.addr f.data)
    | [], [], f :: fs => (s.putPa a { p with prog := some f, fw := fs }).emit (.preamp a f.read f.addr f.data)
    | [], [], [] => s

/-- Member-start frames queued. -/
def State.paMember (s : State) (a : Nat) (fs : List PaFrame) : State :=
  (s.putPa a { s.pa a with member := (s.pa a).member ++ fs }).paNext a

/-- Fast-write frames queued. -/
def State.paFast (s : State) (a : Nat) (fs : List PaFrame) : State :=
  (s.putPa a { s.pa a with fast := (s.pa a).fast ++ fs }).paNext a

/-- The content of ROUTE_j (06 Table WRP-2). -/
def routeWord (head : Nat) (write : Bool) (mask : Nat) : Nat := head * 16 + b2n write * 8 + mask % 8

/-- The frames of a slot whose member has ended leave the link; one in progress completes without effect. -/
def State.paDrop (s : State) (a j : Nat) : State :=
  let p := s.pa a
  let stale := fun (f : PaFrame) => f.slot == j && decide (f.kind ≤ 2)
  s.putPa a { p with prog := p.prog.map (fun f => if stale f then { f with kind := 4 } else f)
                     member := p.member.filter (fun f => !stale f), fast := p.fast.filter (fun f => !stale f) }

/-- A fast-write frame of a slot waits or is in progress. -/
def State.fastBusy (s : State) (a j : Nat) : Bool :=
  let p := s.pa a
  p.fast.any (fun f => f.slot == j) || (match p.prog with | some f => f.kind == 2 && f.slot == j | none => false)

/-! ## Samples on their way to a lane (08 R216 to R218, 09 R228) -/

/-- The value of a register field that a job sees: a write since the last boundary is not in use yet (09 R231, R253). -/
def State.eff (s : State) (a : Nat) (F : Field) : Nat := (SMap.look (s.lane a).old F.key).getD (s.get F)

/-- The reference r_h and natural offset off_h of a sample (09 Table CTL-2): as they stood when its source ended, or as they
stand (R228). -/
def State.sampleRef (s : State) (a : Nat) (m : Sample) : Int × Int :=
  let hofs := toSigned 16 (s.eff a (Reg.CTL_HOFS_HOFS a m.head))
  match m.ended, m.ref with
  | some r, _ => r
  | none, some (t, off) => (t + hofs, off)
  | none, none => ((s.eff a (Reg.CTL_SREF_TRACK a (locOf m.slot)) : Int) * 4096 + hofs,
      toSigned 32 (s.eff a (Reg.CTL_SOFF_OFF a (locOf m.slot))))

/-- The sources of an actuator in TRACK whose heads have parity `p`, as a mask of local slots. -/
def State.trackMask (s : State) (a p : Nat) : Nat :=
  (slotsOf a).foldl (fun m k => m + b2n (s.srcState k == 3 &&
    (match (s.src k).head with | some x => x % 2 == p | none => false)) * 2 ^ locOf k) 0

/-- No group has begun. -/
def grpsInit : Grps := ⟨0, []⟩
def State.groups (s : State) (a p : Nat) : Grps := SMap.get s.grps grpsInit (2 * a + p)

/-- A sample of slot `j` for wedge `w` enters its group: the group it fixes the expected set of, or the open one that has none
of its samples yet; the groups, the group with the sample in it, and whether it belongs to it (09 R228). -/
def Grps.take (g : Grps) (track j w : Nat) : Grps × Grp × Bool :=
  let rest := g.opened.filter (fun x => x.wedge != w)
  let x := match g.opened.find? (fun x => x.wedge == w && !hasBit x.got j) with
    | some x => x
    | none => ⟨w, track, 0⟩
  let inG := hasBit x.exp j
  let x := if inG then { x with got := setBit x.got j } else x
  (⟨if x.got = 0 ∨ (g.opened.all (fun y => y.wedge != w)) then x.exp else g.last,
    if x.got = x.exp then rest else rest ++ [x]⟩, x, inG)

/-- A sample reaches its lane: the first of a group fixes the expected set, the last one closes the group. -/
def State.arrive (s : State) (i h wedge flags pair : Nat) (y : Int) : State :=
  let a := actOf i; let j := locOf i; let p := h % 2
  let r := (s.groups a p).take (s.trackMask a p) j wedge
  let ref := match (s.slot i).mem with
    | some m => if m.servoOnly then none else some ((m.track : Int) * 4096, m.offH)
    | none => none
  let s := s.setGrps (SMap.put s.grps grpsInit (2 * a + p) r.1)
  let s := s.setLaneIn (SMap.upd s.laneIn [] a (· ++
    [(⟨i, h, wedge, flags, pair, y, ref, none, r.2.2, r.2.2 && r.2.1.got == r.2.1.exp⟩ : Sample)]))
  s.put (Reg.CTL_LANE_STATUS_ACTIVE a) (r.1.last ||| (s.groups a (1 - p)).last)

/-- A sample is stored in SRV_POS, counted, and delivered to the lane (08 R216 to R218); the position fields of an
invalid one are free values. -/
def State.deliverSample (s : State) (i h wedge flags : Nat) (pos : Option (Nat × Int)) : State :=
  let a := actOf i; let j := locOf i
  let valid := decide (flags = 0)
  let y : Int := match pos with | some p => p.2 | none => 0
  let y := if valid then y else toSigned 36 (Config.freeValue s.free)
  let par := if valid then (match pos with | some p => p.1 | none => 0) else Config.freeValue (s.free + 1) % 2
  let track := Int.fdiv (y + 2048) 4096
  let s := if valid then s else s.draw 2
  let s := (s.put (Reg.SRV_POS_LO_FLAGS a j) flags).put (Reg.SRV_POS_LO_TRACK a j) (ofSigned 24 track)
  let s := ((s.putB (Reg.SRV_POS_HI_VALID a j) valid).put (Reg.SRV_POS_HI_PAIR a j) par).put (Reg.SRV_POS_HI_WEDGE a j) wedge
  let s := (s.put (Reg.SRV_POS_HI_HEAD a j) h).put (Reg.SRV_POS_HI_OFFSET a j) (ofSigned 12 (y - track * 4096))
  let s := s.when valid (·.inc (Reg.SRV_VALID_COUNT a))
  let s := s.when (hasBit flags 0) (·.inc (Reg.SRV_SAM_MISS_COUNT a))
  let s := s.when (hasBit flags 3) (·.inc (Reg.SRV_TID_ERR_COUNT a))
  let s := s.when (hasBit flags 4) (·.inc (Reg.SRV_CHEV_ERR_COUNT a))
  let x := s.src i
  let s := s.putSrc i { x with y2 := x.y1, y1 := if valid then some y else none }
  s.arrive i h wedge flags par y

/-- A source in TRACK that an open group still expects delivers an invalid sample with flag SAM before it changes state
(09 R228). -/
def State.lastSample (s : State) (i : Nat) : State :=
  match (s.src i).head with
  | some h =>
    if s.srcState i = 3 then
      s.each ((s.groups (actOf i) (h % 2)).opened.filter (fun g => hasBit g.exp (locOf i) && !hasBit g.got (locOf i)))
        (fun s g => s.deliverSample i h g.wedge 1 none)
    else s
  | none => s

/-- The samples of a source that ends keep the r_h and off_h that stand then (09 R228). -/
def State.fixRefs (s : State) (i : Nat) : State :=
  s.setLaneIn (SMap.upd s.laneIn [] (actOf i) (·.map (fun m =>
    if m.slot = i ∧ m.ended.isNone then { m with ended := some (s.sampleRef (actOf i) m) } else m)))

/-! ## Runs: STATUS, misses and revisits (07 R190 to R193) -/

/-- A run of an actuator changed, wherever it stands. -/
def State.modRun (s : State) (a rid : Nat) (g : Run → Run) : State :=
  s.modFmt a (fun m => { m with
    cur := m.cur.map (fun e => if e.2.rid = rid then (e.1, g e.2) else e)
    ended := m.ended.map (fun e => if e.2.rid = rid then (e.1, g e.2) else e) })

/-- The list entry's STATUS written; where the entry is uncorrectable the write fails (12 Table BUF-3). -/
def State.writeStatus (s : State) (addr st : Nat) : State :=
  let r := s.bufRead 0 addr 8
  match r.1 with
  | some v => (r.2.bufWrite 0 addr (v % 2 ^ 60 + 2 ^ 60 * st) 8).2
  | none => r.2

/-- A sector's outcome is final. -/
def State.finalStatus (s : State) (a rid idx st : Nat) : State :=
  let m := s.fmt a
  match (m.cur.map Prod.snd ++ m.ended.map Prod.snd).find? (fun r => r.rid == rid) with
  | some r =>
    if SMap.get r.stat 0 idx = 0 then
      (s.modRun a rid (fun r => { r with stat := SMap.put r.stat 0 idx st })).writeStatus (r.list + 8 * idx) st
    else s
  | none => s

/-- A sector enters the revisit set, counted where the cause is limited; one whose revisits are used up waits for
REVISIT_EXHAUSTED (07 R192). -/
def State.missSector (s : State) (a rid idx : Nat) (limited : Bool) : State :=
  let m := s.fmt a
  match (m.cur.map Prod.snd).find? (fun r => r.rid == rid) with
  | some r =>
    if limited && decide (s.get (Reg.FMT_CTL_REVISIT a) ≤ SMap.get r.used 0 idx) then
      s.modRun a rid (fun r => { r with exhausted := r.exhausted ++ [idx] })
    else
      (s.modRun a rid (fun r => { r with revisit := r.revisit ++ [idx]
                                         used := (if limited then SMap.upd r.used 0 idx (· + 1) else r.used) })).inc (Reg.FMT_MISSED_COUNT a)
  | none => s

/-! ## Write-unsafe sources and gate drops (06 R165 to R169) -/

/-- The sources of Table WRP-1 that hold a slot's gate low (CHN_WR_STATUS.ACTIVE). -/
def State.unsafeMask (s : State) (i : Nat) : Nat :=
  let a := actOf i
  b2n (hasBit s.pesSrc a || s.get (Reg.CTL_LANE_STATUS_PHASE a) != 3) + 2 * b2n s.shock.active +
    4 * b2n (s.flag (Reg.CHN_PA_STATUS_FAULT a) || s.flag (Reg.CHN_PA_STATUS_VERIFY_ERR a)) +
    8 * b2n (s.flag Reg.SPT_STATUS_WARN) + 16 * b2n s.spt.failSrc + 32 * b2n (s.slot i).unlocked +
    64 * b2n (s.get Reg.SYS_CLK_FAULT0_FAULT % 2 ^ 21 != 0) + 128 * b2n (s.flag (Reg.FMT_MCHK_VALID a)) +
    256 * b2n (hasBit s.cmpSrc a) + 512 * b2n (s.flag (Reg.CHN_WR_CTL_INHIBIT i)) +
    1024 * b2n (s.slot i).dpSrc + 2048 * b2n (s.slot i).urSrc

/-- A write sector of a slot changed. -/
def Slot.modWr (x : Slot) (sec : Nat) (g : WrSect → WrSect) : Slot :=
  { x with wr := x.wr.map (fun w => if w.sec = sec then g w else w) }

/-- A write sector leaves the slot. -/
def Slot.delWr (x : Slot) (sec : Nat) : Slot := { x with wr := x.wr.filter (fun w => w.sec != sec) }

/-- Every fragment was written: the sector is on media (06 R166, 11 R282). -/
def State.sectorWritten (s : State) (i : Nat) (w : WrSect) : State :=
  let s := (s.modSlot i (·.delWr w.sec)).inc (Reg.CHN_WR_SECTORS_COUNT i)
  (s.finalStatus (actOf i) w.rid w.idx 1).blockWritten w.addr

/-- The gate of a slot closes. -/
def State.closeGate (s : State) (i : Nat) : State :=
  (s.modSlot i (fun x => { x with gate := false })).put (Reg.CHN_WR_STATUS_GATE i) 0

/-- A fragment of the sector ends written: after the last one the sector is written. -/
def State.fragDone (s : State) (i : Nat) (w : WrSect) : State :=
  if w.fragsLeft ≤ 1 then s.sectorWritten i w
  else s.modSlot i (·.modWr w.sec (fun w => { w with fragsLeft := w.fragsLeft - 1 }))

/-- A sector is aborted by a drop: counted, and revisited under the limit, or final with 0x3 on SPT_FAIL
(06 R166, 07 R192). -/
def State.abortSector (s : State) (i : Nat) (w : WrSect) : State :=
  let s := (s.modSlot i (·.delWr w.sec)).inc (Reg.CHN_WR_ABORTED_COUNT i)
  if s.spt.failSrc then s.finalStatus (actOf i) w.rid w.idx 3 else s.missSector (actOf i) w.rid w.idx true

/-- A drop of an open gate: in or after the pad the fragment stays written, in any earlier cell the sector is
aborted (06 R166). Which of the two is a free value. -/
def State.dropGate (s : State) (i : Nat) : State :=
  if (s.slot i).gate then
    let pad := Config.freeInPad s.free
    let s := (s.draw 1).closeGate i
    match (s.slot i).wr.find? (fun w => some w.sec == (s.slot i).started) with
    | some w => if pad then s.fragDone i w else s.abortSector i w
    | none => s
  else s

/-- Source `b` of Table WRP-1 rises on the slots of its scope: its cause bit sets and open gates drop; VIN warn lets
an open fragment write to its end (06 R165, R166, R169). -/
def State.riseSource (s : State) (b : Nat) (scope : List Nat) : State :=
  s.each scope (fun s i =>
    let s := s.setBitOf (Reg.CHN_WR_CAUSE_CAUSE i) b
    if b = 3 then s else s.dropGate i)

/-- All sixteen slots. -/
def allSlots : List Nat := List.range 16

/-! ## The gates of a slot (07 R182, 08 R211) -/

/-- The CELLS of the member of a thread's slot, 0 without one. -/
def State.cellsOf (s : State) (i : Nat) : Nat :=
  match (s.slot i).mem with
  | some m => m.cells
  | none => 0

/-- The slot position as a cell of the revolution: CC, in the wedge that WC gives and as many wedges on as the slot has entered
since WC last changed; before the counters run it is 0 (R179; DESIGN CHOICE, log entry 101). -/
def State.position (s : State) (i : Nat) : Nat :=
  match (s.slot i).wc with
  | some w => (w + (s.slot i).ahead) % 512 * s.cellsOf i + (s.slot i).cc
  | none => 0

/-- RG falls or rises at cell `pos` of the revolution: the stretch of captured cells ends or begins (R182). -/
def Slot.gateRead (x : Slot) (on : Bool) (pos rev : Nat) : Slot :=
  { x with sects := x.sects.map (fun e => (e.1, if e.2.captured then e.2 else match e.2.since with
      | some p => if on then e.2 else { e.2 with got := e.2.got + (pos + rev - p) % rev, since := none }
      | none => if on then { e.2 with since := some pos } else e.2)) }

/-- The fragment of a write sector that is next to be written: its number and itself. -/
def WrSect.frag (w : WrSect) (cells : Nat) : Nat × Frag :=
  let fs := sectorFrags cells w.psi
  let k := fs.length - w.fragsLeft
  (k, fs.getD k ⟨0, 0, 0⟩)

/-- Cell `p` of the revolution lies at `q` or less than half a revolution after it. -/
def atOrAfter (rev p q : Nat) : Bool := decide (2 * ((p + rev - q % rev) % rev) < rev)

/-- WG falls at cell `pos` with the gate open: in or after the pad the fragment is written; earlier, its last codeword cell has
not passed and the sector is aborted (06 R166; DEDUCED, log entry 112). -/
def State.shutGate (s : State) (i : Nat) (cur : Option Nat) (pos : Nat) : State :=
  let t := s.closeGate i
  match (t.slot i).wr.find? (fun w => some w.sec == cur), (t.slot i).mem with
  | some w, some m =>
    let f := w.frag m.cells
    if atOrAfter (512 * m.cells) pos (f.2.cell m.cells + f.2.len (f.1 == 0) - 16) then t.fragDone i w else t.abortSector i w
  | _, _ => t

/-- SG changes: E1 takes the servo gain of its head, or its data gain again (04 R111). -/
def State.servoGate (s : State) (i : Nat) (on : Bool) : State :=
  let F := Reg.CHN_FE_STATE_GAIN i 1
  match on, (s.slot i).dataGain, (s.slot i).mem with
  | true, none, some m =>
    (s.modSlot i (fun x => { x with dataGain := some (s.get F) })).put F (s.get (Reg.SRV_SGAIN_GAIN (actOf i) m.head))
  | false, some g, _ => (s.put F g).modSlot i (fun x => { x with dataGain := none })
  | _, _, _ => s

/-- A source enters SEARCH: SG is held at 1, RG and WG at 0, whatever the edge queue holds (08 R211). -/
def State.searchOn (s : State) (i : Nat) : State :=
  let x := s.slot i
  let s := s.servoGate i true
  let s := s.when x.rg (·.modSlot i (·.gateRead false (s.position i) (512 * s.cellsOf i)))
  if x.gate then s.shutGate i x.started (s.position i) else s

/-- A source leaves SEARCH: SG and RG take the edge queue's levels again; a write gate opens only at a fragment's start. -/
def State.searchOff (s : State) (i : Nat) : State :=
  let x := s.slot i
  let s := s.when (!x.sg) (·.servoGate i false)
  s.when x.rg (·.modSlot i (·.gateRead true (s.position i) (512 * s.cellsOf i)))

/-! ## Servo sources (08 R210, R212, R221) -/

/-- The index of the least element. -/
def argMin : List (Nat × Nat) → Option (Nat × Nat)
  | [] => none
  | p :: ps =>
    match argMin ps with
    | some q => if p.2 ≤ q.2 then some p else some q
    | none => some p

/-- The reference head and its slot: the lowest-numbered head of A0 whose source is in TRACK (R221). -/
def State.reference (s : State) : Option (Nat × Nat) :=
  argMin ((slotsOf 0).filterMap (fun i => match (s.src i).head with
    | some h => if s.srcState i = 3 then some (i, h) else none
    | none => none))

/-- Where the reference head has changed, no interval spans the change: the time stamps and the wedge intervals start anew, and
the speed comes from zero crossings until they do (R222, 10 R267). -/
def State.refChanged (s : State) (old : Option (Nat × Nat)) : State :=
  if s.reference.map Prod.snd = old.map Prod.snd then s
  else ((s.setRefHead ⟨s.reference.map Prod.snd, none, none⟩).modSpn (fun x => { x with wedges := [] })).put
    Reg.MTR_SPN_STATUS_SRC 0

/-- A source changes its state (08 Table SRV-2): one that leaves TRACK delivers the samples it owes first, and the gates follow
SEARCH. -/
def State.srcTo (s : State) (i : Nat) (x : Src) (v : Nat) : State :=
  let old := s.reference
  let was := s.srcState i
  let s := ((s.lastSample i).putSrc i x).setSrcState i v
  let s := if v = 1 then s.searchOn i else if was = 1 then s.searchOff i else s
  s.refChanged old

/-- Another source of the actuator is in TRACK. -/
def State.otherTrack (s : State) (i : Nat) : Option Nat :=
  (slotsOf (actOf i)).find? (fun k => k != i && s.srcState k == 3)

/-- The wedge number that a source of head `h` expects next, taken from another source: shifted by half a wedge interval when
the surface parity differs (Table SRV-2; the later half, log entry 102). -/
def shiftWedge (h from_ wedge : Nat) : Nat := if from_ % 2 = 1 ∧ h % 2 = 0 then (wedge + 1) % 512 else wedge

/-- The slot becomes a source for head `h`: unchanged for the same head; VERIFY for a head change while another
source tracks, with the prediction taken from it; otherwise SEARCH (08 Table SRV-2). -/
def State.startSrc (s : State) (i h : Nat) : State :=
  let x := s.src i
  if x.head = some h ∧ s.srcState i ≠ 0 then (if s.srcState i = 1 then s.searchOn i else s)
  else
    let y : Src := { srcInit with head := some h }
    match x.head.isSome && x.head != some h, s.otherTrack i with
    | true, some k => (s.fixRefs i).srcTo i { y with wedge := shiftWedge h ((s.src k).head.getD h) (s.src k).wedge } 2
    | _, _ => (s.fixRefs i).srcTo i y 1

/-- The source ends: OFF (08 Table SRV-2). -/
def State.endSrc (s : State) (i : Nat) : State :=
  if s.srcState i = 0 then s
  else (((s.lastSample i).fixRefs i).srcTo i { srcInit with head := (s.src i).head } 0)

/-! ## Member starts (03 R98, 04 R102, R103, R115, R125, 06 R154, R172, 07 R550) -/

/-- The settings read at a member start. -/
def State.latch (s : State) (i h : Nat) : Latched :=
  { wAdapt := s.flag (Reg.CHN_FE_CTL_W_ADAPT i), taEn := s.flag (Reg.CHN_FE_CTL_TA_EN i),
    doEn := s.flag (Reg.CHN_FE_CTL_DO_EN i), taLevel := s.get (Reg.CHN_FE_DEFECT_TA_LEVEL i),
    doPct := s.get (Reg.CHN_FE_DEFECT_DO_PCT i), doLen := s.get (Reg.CHN_FE_DEFECT_DO_LEN i),
    boost := s.get (Reg.CHN_FE_CTF_BOOST i), cutoff := s.get (Reg.CHN_FE_CTF_CUTOFF i),
    target := s.get (Reg.CHN_FE_GAIN_TARGET_TARGET i), skew0 := s.get (Reg.CHN_FE_SKEW_SKEW_E0 i h),
    skew2 := s.get (Reg.CHN_FE_SKEW_SKEW_E2 i h), t0 := s.get (Reg.CHN_DET_TARGET_T0 i),
    t1 := s.get (Reg.CHN_DET_TARGET_T1 i), t2 := s.get (Reg.CHN_DET_TARGET_T2 i),
    eqStep := s.get (Reg.CHN_DET_EQ_CTL_STEP i), eqAdapt := s.flag (Reg.CHN_DET_EQ_CTL_ADAPT i),
    kiAcq := s.get (Reg.CHN_MC_CTL_KI_ACQ i), ki := s.get (Reg.CHN_MC_CTL_KI i),
    kpAcq := s.get (Reg.CHN_MC_CTL_KP_ACQ i), kp := s.get (Reg.CHN_MC_CTL_KP i),
    unlockTol := s.get (Reg.CHN_MC_CTL_UNLOCK_TOL i), lockTol := s.get (Reg.CHN_MC_CTL_LOCK_TOL i),
    shift := s.get (Reg.CHN_WR_PHASE_SHIFT i h) }

/-- N0 as a fraction: CELLS × 512 / REV_TICKS, from the measured revolution or from the spindle speed (06 R154). -/
def State.baseRatio (s : State) (cells : Nat) : Nat × Nat :=
  if s.flag Reg.SRV_REF_STATUS_REV_OK then (cells * 512 * 256, s.get Reg.SRV_REV_TICKS_TICKS)
  else (cells * 512 * s.get Reg.MTR_SPN_SPEED_SPEED, 1500000000 * 256)

/-- The media clock of a slot starts anew: N0, trim 0, not locked, acquisition gains. A loss of lock stays until lock is
regained (06 Table WRP-1). -/
def State.startClock (s : State) (i cells : Nat) : State :=
  let n := s.baseRatio cells
  let s := s.modSlot i (fun x => { x with n0num := n.1, n0den := n.2, phase := 0, validCnt := 0, okRun := 0,
                                          badRun := 0, invRun := 0 })
  ((s.put (Reg.CHN_MC_TRIM_TRIM i) 0).put (Reg.CHN_MC_STATUS_LOCKED i) 0).put (Reg.CHN_MC_STATUS_ACQ i) 1

/-- The elements of a mask. -/
def elems (mask : Nat) : List Nat := (List.range 3).filter (fun e => hasBit mask e)

/-- The front ends load the seeds of 04 Table AFE-2; the equaliser its taps (05 R127). -/
def State.loadSeeds (s : State) (i peg : Nat) : State :=
  let mask := pegMask peg
  let s := s.each (List.range 3) (fun s e =>
    if hasBit mask e then
      ((((s.put (Reg.CHN_FE_STATE_GAIN i e) (pegGain peg e)).put (Reg.CHN_FE_STATE_OFFSET i e) (pegOffset peg e)).put
        (Reg.CHN_FE_STATE_ASYM i e) 0).put (Reg.CHN_FE_STATE_PHASE i e) 0).put (Reg.CHN_FE_WEIGHT_WEIGHT i e)
          (pegWeight peg e)
    else s.put (Reg.CHN_FE_WEIGHT_WEIGHT i e) 0)
  let taps := (elems mask).foldl (fun m e => (List.range 10).foldl (fun m t =>
    SMap.put m 0 (10 * e + t) (pegTap peg e t)) m) []
  s.modSlot i (fun x => { x with taps := taps })

/-- An open window is closed and its hang-over discarded (04 R115); loop history and read cells start anew. -/
def State.closeWindow (s : State) (i : Nat) : State :=
  (s.modSlot i (fun x => { x with window := none, winTa := false, winDo := false, windows := [], hist := [], rc := 0 })).put
    (Reg.CHN_FE_STATUS_WINDOW i) 0

/-- A servo-only member starts on a slot (08 R210). -/
def State.startServoOnly (s : State) (i : Nat) : State :=
  let a := actOf i; let j := locOf i
  let h := s.get (Reg.SRV_SRC_HEAD a j)
  let m : Member := { head := h, track := 0, surface := 12 * a + h, band := 0, peg := 0, cells := 16384,
                      write := false, servoOnly := true, ready := true, offH := 0, set := s.latch i h }
  let s := (s.closeWindow i).modSlot i (fun x => { x with mem := some m, rg := false, wg := false, sg := false, fw := false
                                                          wc := none, cc := 0, ahead := 0, dataGain := none })
  let s := s.startClock i 16384
  let s := s.paMember a [⟨false, 0x01 + j, routeWord h false 2, 0, j⟩,
                         ⟨false, 0x0C + j, s.get (Reg.SRV_SRC_HEATER a j), 0, j⟩]
  s.startSrc i h

/-- A head is a started course member on some slot of its actuator. -/
def State.headStarted (s : State) (a h : Nat) : Bool :=
  (slotsOf a).any (fun k => match (s.slot k).mem with | some m => !m.servoOnly && m.head == h | none => false)

/-- An enabled servo-only source takes a slot without a started member, unless its head is a started member of another slot
(08 R210); it waits until the spindle speed is valid (06 R154). -/
def State.resumeSrc (s : State) (i : Nat) : State :=
  let a := actOf i; let j := locOf i
  match (s.slot i).mem with
  | some _ => s
  | none =>
    if s.flag (Reg.SRV_SRC_EN a j) && !s.headStarted a (s.get (Reg.SRV_SRC_HEAD a j)) && s.flag Reg.MTR_SPN_SPEED_VALID
    then s.startServoOnly i
    else s.endSrc i

/-- The member of a slot goes, and with it all that is its own; the source ends (07 Table TAB-2 ENDMEMBER, 08 Table SRV-2). -/
def State.dropMember (s : State) (i : Nat) : State :=
  let a := actOf i; let j := locOf i
  let s := (s.servoGate i false).endSrc i
  let s := s.modSlot i (fun x =>
    { x with mem := none, rg := false, wg := false, sg := false, eq := [], gate := false, dataGain := none,
             discard := none, started := none, wr := [], rd := [], dpSrc := false, urSrc := false, wc := none, cc := 0, ahead := 0 })
  let s := ((s.put (Reg.CHN_FE_STATUS_ACTIVE i) 0).put (Reg.CHN_WR_STATUS_GATE i) 0).paDrop a j
  s.clrBitOf (Reg.FMT_STATUS_MEMBER a) j

/-- A slot's next member is committed: due to start, or pending behind the barrier that its thread has reached. -/
def State.hasSuccessor (s : State) (a j : Nat) : Bool :=
  (s.fmt a).due.contains j ||
    (match (s.fmt a).pend with | some cs => cs.any (fun c => c.1 == j) && (s.thread a j).barrier | none => false)

/-- Servo-only sources resume on the slots of an actuator that have no member and no successor (08 R210). -/
def State.resumeAll (s : State) (a : Nat) : State :=
  s.each ((slotsOf a).filter (fun k => !s.hasSuccessor a (locOf k))) State.resumeSrc

/-- The slot's member ends; servo-only sources resume where no successor follows (08 R210). -/
def State.endMember (s : State) (i : Nat) : State := (s.dropMember i).resumeAll (actOf i)

/-- A member is refused: FMT_CFG_STATUS records 0x05 and the slot is without a member (07 R550). -/
def State.refuseMember (s : State) (i : Nat) : State :=
  (s.reject (Reg.FMT_CFG_STATUS_ERR (actOf i)) (Reg.FMT_CFG_STATUS_CODE (actOf i)) 5).endMember i

/-- The other slots' servo-only sources of a head that becomes a started member are suspended (08 R210). -/
def State.suspendOthers (s : State) (i h : Nat) : State :=
  s.each ((slotsOf (actOf i)).filter (fun k => k != i)) (fun s k =>
    match (s.slot k).mem with
    | some m => if m.servoOnly ∧ m.head = h then (s.endSrc k).modSlot k (fun x => { x with mem := none, wc := none, cc := 0, ahead := 0 }) else s
    | none => s)

/-- A member starts on a slot, or is refused by R102 (an input whose FIT bit is 0 counts as open, 02 R70), R123 or R154. -/
def State.startMember (s : State) (i : Nat) (cm : CMember) : State :=
  let a := actOf i; let j := locOf i
  let f := 12 * a + cm.head
  let band := (bandOf s.media.peg f cm.track).getD 0
  let peg := (s.pegFor f cm.track).getD 0
  let mask := pegMask peg
  if (elems mask).any (fun e => !s.domOn (3 * i + e) || !s.connected i e) || s.flag (Reg.CHN_FE_SB_CTL_HOLD i) ||
      !s.flag Reg.MTR_SPN_SPEED_VALID then s.refuseMember i
  else
    let m : Member := { head := cm.head, track := cm.track, surface := f, band := band, peg := peg,
                        cells := pegCells peg, write := cm.write, servoOnly := false, ready := false,
                        offH := cm.offH, set := s.latch i cm.head }
    let s := (s.closeWindow i).suspendOthers i cm.head
    let s := s.modSlot i (fun x => { x with mem := some m, rg := false, wg := false, sg := false, fw := cm.write,
                                            eq := [], discard := none, started := none, wr := [], rd := [], wc := none,
                                            cc := 0, ahead := 0, dataGain := none })
    let s := (s.loadSeeds i peg).startClock i (pegCells peg)
    let s := (((s.put (Reg.CHN_FE_STATUS_ACTIVE i) 1).put (Reg.CHN_FE_STATUS_HEAD i) cm.head).put
      (Reg.CHN_FE_STATUS_ELEM i) mask).put (Reg.CHN_FE_STATUS_BAND i) band
    let s := s.setBitOf (Reg.FMT_STATUS_MEMBER a) j
    let r := routeWord cm.head cm.write mask
    let s := s.paMember a [⟨false, 0x01 + j, r, 0, j⟩,
      ⟨false, 0x08 + j, pegOvershoot peg * 256 + pegWriteCurrent peg, 0, j⟩,
      ⟨false, 0x0C + j, if cm.write then pegHeaterWrite peg else pegHeaterRead peg, 0, j⟩,
      ⟨true, 0x01 + j, r, 1, j⟩]
    s.startSrc i cm.head

/-- A loop's hold conditions of 04 Table AFE-4 other than the end of its range; SG is 1 in SEARCH (08 R211). -/
def State.loopsHeld (s : State) (i : Nat) : Bool :=
  (s.slot i).window.isSome || (s.slot i).gate || s.flag (Reg.CHN_FE_CTL_HOLD_ALL i) || (s.slot i).sg || s.srcState i == 1

end Sys2Proof.Machine
end

