-- ==== Sys2Proof/Machine/Channel.lean ====
section
/-! DEFINITION. The reader front end (04): member starts, adaptive loops, defect windows and the sample buffer. -/

namespace Sys2Proof.Machine

/-- MEMBER_START (03 R98, 04 R103, 07 R550): a slot begins the member its actuator's committed course gives it. -/
def execMemberStart (slot : Fin 16) (s : State) : Res :=
  let a := actOf slot.val; let j := locOf slot.val
  .next (if (s.fmt a).due.contains j then
      let s' := s.modFmt a (fun m => { m with due := m.due.filter (fun k => k != j) })
      match SMap.look (s.fmt a).course j with
      | some cm => s'.startMember slot.val cm
      | none => s'
    else s)

/-! ## Reader combination (04 R117) -/

/-- The combined stream's value for the elements' samples under the slot's present weights (an unused element's weight is
0, R103). -/
def State.combinedAt (s : State) (i : Nat) (samples : List Int) : Int :=
  combined ((List.range 3).map (fun e => s.sget (Reg.CHN_FE_WEIGHT_WEIGHT i e))) samples

/-! ## Erased read cells (04 R113, R114) -/

/-- A read cell lies in a defect window or its hang-over. -/
def Slot.isErased (x : Slot) (rc : Nat) : Bool :=
  (x.windows ++ (match x.window with | some w => [(w.1, w.2 + 32)] | none => [])).any (fun w =>
    decide (w.1 ≤ rc) && decide (rc ≤ w.2))

/-- Erased read cells among `n` from `rc` on: those in closed windows and in the open one. -/
def Slot.erasedIn (x : Slot) (rc n : Nat) : Nat :=
  let ws := x.windows ++ (match x.window with | some w => [(w.1, w.2 + 32)] | none => [])
  ws.foldl (fun k w => k + (min (w.2 + 1) (rc + n) - max w.1 rc)) 0

/-- A cell of a fragment is a preamble cell: read cell `o` of the fragments; none beyond them. -/
def readKind (isFirst : Bool) (o : Nat) : List Frag → Option Bool
  | [] => none
  | f :: fs =>
    let n := f.len isFirst - 16
    if o < n then some (decide (o < if isFirst then 64 else 32)) else readKind false (o - n) fs

/-- The detector target that a member reads at its start, in 1/16 LSB (05 R130, R150). -/
def targetOf (t0 t1 t2 : Nat) : Target := ⟨toSigned 8 t0, toSigned 8 t1, toSigned 8 t2⟩
def Member.target (m : Member) : Target := targetOf m.set.t0 m.set.t1 m.set.t2

/-! ## Adaptive loops (04 R106 to R110) -/

/-- The dead band of a loop (04 Table AFE-3): gain, offset, asymmetry, phase, weights. -/
def deadBand (loop : Nat) (acq : Bool) : Nat :=
  match loop with
  | 0 => if acq then 4 else 64
  | 1 => if acq then 2 else 64
  | 2 => if acq then 4 else 64
  | 3 => if acq then 0 else 4
  | _ => 32

/-- The field, the signed width (0: unsigned), the range and the step of a loop. -/
def loopField (i loop e : Nat) : Field × Nat × Int × Int × Int :=
  match loop with
  | 0 => (Reg.CHN_FE_STATE_GAIN i e, 0, 0, 255, 1)
  | 1 => (Reg.CHN_FE_STATE_OFFSET i e, 8, -128, 127, 1)
  | 2 => (Reg.CHN_FE_STATE_ASYM i e, 8, -32, 31, 1)
  | 3 => (Reg.CHN_FE_STATE_PHASE i e, 8, -32, 32, 1)
  | _ => (Reg.CHN_FE_WEIGHT_WEIGHT i e, 16, -32768, 32767, 16)

/-- A loop moves by one step in the direction of `err` (positive: upward); a step beyond the range stops at its end and counts
in CHN_FE_RAIL (R106, R107). -/
def State.moveLoop (s : State) (i loop e : Nat) (err : Int) : State :=
  let d := loopField i loop e
  let old := s.get d.1
  let v : Int := if d.2.1 = 0 then old else toSigned d.2.1 old
  let w := if 0 < err then v + d.2.2.2.2 else v - d.2.2.2.2
  let c := clampInt d.2.2.1 d.2.2.2.1 w
  (s.put d.1 (ofSigned d.1.width c)).when (decide (c ≠ w)) (·.inc (Reg.CHN_FE_RAIL_COUNT i))

/-- One update of one loop (R106): a step when the error exceeds the dead band; the value before it is kept (R108). -/
def State.stepLoop (s : State) (i loop e : Nat) (acq : Bool) (cell : Nat) (err : Int) : State :=
  if err.natAbs ≤ deadBand loop acq then s
  else
    let F := (loopField i loop e).1
    (s.moveLoop i loop e err).modSlot i (fun x =>
      { x with hist := (cell, F.key, s.get F) :: x.hist.filter (fun h => decide (cell < h.1 + 64)) })

/-- The interval of a loop in read cells (04 Table AFE-3). -/
def loopInterval (loop : Nat) (acq : Bool) : Nat :=
  match loop with
  | 0 => if acq then 4 else 64
  | 1 => if acq then 4 else 256
  | 2 => if acq then 16 else 1024
  | 3 => if acq then 2 else 32
  | _ => 512

/-! ## The streams of a command: by element the samples after stage 8 of consecutive cells. Those of an update begin 4 cells
before its interval and end 29 cells after it, so that the equaliser's window and the detector's delay are covered. -/

/-- The samples of the used elements with their erasure flags; the first of them is read cell `rc`. -/
def State.sampleStreams (s : State) (i mask rc : Nat) (streams : List (List Int)) : List (List Samp) :=
  (List.range 3).map (fun e => if hasBit mask e then
    (streams.getD e []).zipIdx.map (fun x => ⟨x.1, (s.slot i).isErased (rc + x.2)⟩) else [])

/-- The tentative decisions of the streams' cells (05 R130). -/
def State.decisions (s : State) (i : Nat) (m : Member) (rc : Nat) (streams : List (List Int)) : Nat → Bool :=
  let xs := s.sampleStreams i (pegMask m.peg) rc streams
  let ys := equaliserOut (fun _ => (s.slot i).taps) xs ((streams.map List.length).foldl max 0)
  tentative m.target ys

/-- The accumulated error of a loop over the interval that ends at read cell `cell`, signed so that a positive one is
reduced by a step upward (04 Table AFE-3). In acquisition a cell's decision is its sample's sign; in tracking it is the
detector's tentative decision (R106) [log 98]. -/
def State.loopError (s : State) (i : Nat) (m : Member) (loop e : Nat) (acq : Bool) (cell : Nat) (streams : List (List Int)) :
    Int :=
  let n := loopInterval loop acq
  let x := streams.getD e []
  let rc := cell - (n + 3)
  let a : Nat → Bool := if acq then fun k => decide (0 ≤ x.getD k 0) else s.decisions i m rc streams
  match loop with
  | 0 => gainError m.set.target ((x.drop 4).take n)
  | 1 => offsetError ((x.drop 4).take n)
  | 2 => asymError ((x.drop 3).take (n + 2))
  | 3 => phaseError (((List.range (n + 1)).map (fun k => (x.getD (3 + k) 0, a (3 + k)))))
  | _ => signProduct (fun k => responseAt m.target a k - 16 * s.combinedAt i (streams.map (fun y => y.getD k 0)))
      (fun k => x.getD k 0) 4 n

/-- What an update of read cell `cell` is for the sector that passes (R106, R109): none outside its read cells, acquisition
in a preamble, tracking elsewhere. -/
def State.readPhase (s : State) (i cell : Nat) : Option Bool :=
  if (s.slot i).rg && s.srcState i != 1 then
    ((s.slot i).sects.find? (fun q => !q.2.captured && decide (q.2.rc0 ≤ cell) && decide (cell < q.2.rc0 + q.2.rcN))).bind
      (fun q => readKind true (cell - q.2.rc0) (sectorFrags q.2.cells q.2.psi))
  else none

/-- By element the samples of `lead` and, after them, those of `streams`. -/
def joinStreams (lead streams : List (List Int)) : List (List Int) :=
  (List.range 3).map (fun e => lead.getD e [] ++ streams.getD e [])

/-- LOOP_UPDATE (R99, R106 to R109, R119): an update of a loop at read cell `cell`, from the samples of its interval and of the
4 cells before it, `lead`; the weights step together. A cell of no sector that is being captured updates nothing: pads, gaps and servo fields hold the
loops, and without lock no sector is captured. -/
def execLoopUpdate (slot : Fin 16) (loop : Fin 5) (elem : Fin 3) (cell : Nat) (lead streams : List (List Int))
    (s : State) : Res :=
  let i := slot.val
  let streams := joinStreams lead streams
  .next (match (s.slot i).mem, s.readPhase i cell with
    | some m, some acq =>
      if m.servoOnly || s.loopsHeld i then s
      else if loop.val = 4 then
        if m.set.wAdapt && !acq then
          s.each ((elems (pegMask m.peg)).map (fun e => (e, s.loopError i m 4 e acq cell streams))) (fun s x =>
            s.stepLoop i 4 x.1 acq cell x.2)
        else s
      else if hasBit (pegMask m.peg) elem.val then
        s.stepLoop i loop.val elem.val acq cell (s.loopError i m loop.val elem.val acq cell streams)
      else s
    | _, _ => s)

/-- The stretches of a captured entry (R121): 64 cells, then each fragment's read cells and its pad, then 48 cells; a
stretch is its read cells or not, and its length. -/
def captureParts (fs : List Frag) : List (Bool × Nat) :=
  (false, 64) :: (fs.zipIdx.flatMap (fun f => [(true, f.1.len (f.2 == 0) - 16), (false, 16)])) ++ [(false, 48)]

/-! ## Defect windows (04 R112 to R116, R108) -/

/-- Every loop returns to the value it held before read cell `first`: the history is undone from its newest entry. -/
def State.restoreLoops (s : State) (i first : Nat) : State :=
  (s.each ((s.slot i).hist.filter (fun h => decide (first ≤ h.1))) (fun s h =>
    (s.setF (SMap.put s.f 0 h.2.1 h.2.2)))).modSlot i (fun x =>
      { x with hist := x.hist.filter (fun h => decide (h.1 < first)) })

/-- The condition of a thermal asperity at the newest of an element's samples (R112): the magnitude of the mean of the
last 8 is at least TA_LEVEL. -/
def thermalAt (level : Nat) (xs : List Int) : Bool :=
  decide (8 ≤ xs.length) && decide (8 * level ≤ ((xs.take 8).foldl (· + ·) 0).natAbs)

/-- The condition of a drop-out at the newest of an element's samples (R112): the largest magnitude of the last 4 stays
below the level for DO_LEN read cells. -/
def dropOutAt (level len : Nat) (xs : List Int) : Bool :=
  decide (0 < len) && decide (len + 3 ≤ xs.length) && (xs.take (len + 3)).all (fun x => decide (x.natAbs < level))

/-- The first cell of a window that starts at `first` once it has taken in the closed windows whose hang-over reaches it, and
the closed windows that are left; `ws` are the closed windows, latest first. -/
def mergeBack : List (Nat × Nat) → Nat → Nat × List (Nat × Nat)
  | [], first => (first, [])
  | w :: ws, first => if first ≤ w.2 then mergeBack ws (min w.1 first) else (first, (w :: ws).reverse)

/-- The read-cell numbers of an entry's cells, from read cell `rc` on; pads and the cells outside fragments have none. -/
def entryReads : List (Bool × Nat) → Nat → List (Option Nat)
  | [], _ => []
  | (rd, n) :: ps, rc =>
    (List.range n).map (fun k => if rd then some (rc + k) else none) ++ entryReads ps (if rd then rc + n else rc)

/-- The erasure flag set in the stored samples of the read cells from `first` to `last` of a captured entry (R114). -/
def Slot.reflag (x : Slot) (e : Nat) (q : Sect) (first last : Nat) : SMap Nat :=
  (entryReads (captureParts (sectorFrags q.cells q.psi)) q.rc0).zipIdx.foldl (fun m c =>
    match c.1 with
    | some rc =>
      if first ≤ rc ∧ rc ≤ last then
        (elems q.mask).foldl (fun m el =>
          let k := (3 * e + el) * 65536 + c.2
          match SMap.look m k with | some b => SMap.set m k (b % 128 + 128) | none => m) m
      else m
    | none => m) x.samp

/-- A sector whose capture has completed and that a window now covers: its samples take the flag, and its erased read cells
are counted anew (R114). -/
def State.reflagSect (s : State) (i e first last : Nat) : State :=
  match SMap.look (s.slot i).sects e with
  | some q =>
    let n := (s.slot i).erasedIn q.rc0 q.rcN
    if q.captured && decide (q.erased < n) then
      let s := (s.modSlot i (fun x => { x with samp := x.reflag e q first last
                                               sects := SMap.set x.sects e { q with erased := n } }))
      (s.put (Reg.CHN_FE_SB_CNT_ERASED i e) (min n 65535)).incBy (Reg.CHN_FE_ERASED_COUNT i) (n - q.erased)
    else s
  | none => s

/-- A defect window over read cells `first` to `last` opens, or the one that is open is extended, or the closed ones whose
hang-over reaches `first` are taken in (R113). The loops return to the values before the window's first cell, also where it
moves back (R108; DEDUCED, log entry 93). Samples captured already take the flag (R114). -/
def State.defectWindow (s : State) (i first last : Nat) : State :=
  let x := s.slot i
  let w := match x.window with | some w => (min w.1 first, max w.2 last) | none => (first, last)
  let b := mergeBack x.windows.reverse w.1
  let last := match x.window, x.windows.getLast? with
    | none, some c => if w.1 ≤ c.2 then max (c.2 - 32) w.2 else w.2
    | _, _ => w.2
  let opens := x.window.isNone && b.2.length == x.windows.length
  let s := (s.restoreLoops i b.1).put (Reg.CHN_FE_STATUS_WINDOW i) 1
  let s := s.modSlot i (fun x => { x with window := some (b.1, last), windows := b.2, winTa := x.winTa && !opens
                                          winDo := x.winDo && !opens })
  s.each [0, 1] (fun s e => s.reflagSect i e b.1 (last + 32))

/-- A window that contains cells of a kind counts once for it (R113). -/
def State.countDefect (s : State) (i : Nat) (thermal dropOut : Bool) : State :=
  let x := s.slot i
  let s := s.when (thermal && !x.winTa) (·.inc (Reg.CHN_FE_TA_CNT_COUNT i))
  let s := s.when (dropOut && !x.winDo) (·.inc (Reg.CHN_FE_DO_CNT_COUNT i))
  s.modSlot i (fun x => { x with winTa := x.winTa || thermal, winDo := x.winDo || dropOut })

/-- DEFECT_DECLARE (R99, R112, R113, R116): the detector has evaluated read cell `cell` of a sector that is being captured; `streams` gives, by element, the last
samples up to it, the newest first. The defective cells are the 8 of the mean and the DO_LEN of the drop-out. -/
def execDefectDeclare (slot : Fin 16) (cell : Nat) (streams : List (List Int)) (s : State) : Res :=
  let i := slot.val
  .next (match (s.slot i).mem with
    | some m =>
      let els := elems (pegMask m.peg)
      let ta := m.set.taEn && els.any (fun e => thermalAt m.set.taLevel (streams.getD e []))
      let dr := m.set.doEn && els.any (fun e =>
        dropOutAt (m.set.target * m.set.doPct / 100) m.set.doLen (streams.getD e []))
      if m.servoOnly || (s.readPhase i cell).isNone || (!ta && !dr) then s
      else
        let first := min (if ta then cell - 7 else cell) (if dr then cell + 1 - m.set.doLen else cell)
        (s.defectWindow i first cell).countDefect i ta dr
    | none => s)

/-- DEFECT_WINDOW_CLOSE (R113): 32 read cells after the last defective cell. -/
def execDefectWindowClose (slot : Fin 16) (s : State) : Res :=
  let i := slot.val
  .next (match (s.slot i).window with
    | some w => (s.modSlot i (fun x => { x with window := none,
                                                windows := x.windows ++ [(w.1, w.2 + 32)] })).put
        (Reg.CHN_FE_STATUS_WINDOW i) 0
    | none => s)

/-! ## The sample buffer (04 R120 to R123) -/

/-- The entry that holds the most recently started sector. -/
def State.newest (s : State) (i : Nat) : Nat := s.get (Reg.CHN_FE_SB_CTL_NEWEST i)

/-- A sample-buffer entry is free for the next sector (R122). -/
def State.sbFree (s : State) (i : Nat) : Bool := (SMap.look (s.slot i).sects (1 - s.newest i)).isNone

/-- A sector's record changed. -/
def State.modSect (s : State) (i e : Nat) (g : Sect → Sect) : State :=
  match SMap.look (s.slot i).sects e with
  | some q => s.modSlot i (fun x => { x with sects := SMap.set x.sects e (g q) })
  | none => s

/-- A run of values listed at consecutive keys. -/
def setRun (m : SMap Nat) (k : Nat) : List Nat → SMap Nat
  | [] => m
  | v :: vs => setRun (SMap.set m k v) (k + 1) vs

/-- The captured bytes of one element stored. -/
def storeSamples (m : SMap Nat) (e el : Nat) (bytes : List Nat) : SMap Nat :=
  setRun m ((3 * e + el) * 65536) (bytes.map (· % 256))

/-- The entry of the sector that is being captured: where two are, the one that started first. -/
def State.capturing (s : State) (i : Nat) : Option Nat :=
  [1 - s.newest i, s.newest i].find? (fun e =>
    match SMap.look (s.slot i).sects e with | some q => !q.captured | none => false)

/-- The cells captured of a sector (R121, 07 R182): those over which RG was 1; while RG is still 1 the capture has run to its
end. -/
def Sect.cellsOf (q : Sect) : Nat :=
  let n := captureCells (sectorFrags q.cells q.psi)
  if q.since.isSome then n else min n q.got

/-- Captured samples with the erasure flag as bit 7 (R114, R120): only read cells carry it (R116). `rc` is the number of
the next read cell. -/
def flagSamples (erased : Nat → Bool) : List (Bool × Nat) → Nat → List Nat → List Nat
  | _, _, [] => []
  | [], rc, b :: bs => b % 128 :: flagSamples erased [] rc bs
  | (rd, n) :: ps, rc, b :: bs =>
    (b % 128 + 128 * b2n (rd && erased rc)) ::
      flagSamples erased (if n ≤ 1 then ps else (rd, n - 1) :: ps) (rc + b2n rd) bs

/-- The word of the sample buffer's SRAM that holds a cell (R120): eight cells a word. -/
def sampWord (e el c : Nat) : Nat := ((3 * e + el) * 37376 + c) / 8

/-- CAPTURE_DONE (R121, R114, R119): the capture of the oldest sector that is not captured yet completes, with what it brings of
each element; the 7-bit samples are stored with their erasure flags. -/
def execCaptureDone (slot : Fin 16) (e0 e1 e2 : ElemCapture) (s : State) : Res :=
  let i := slot.val
  let of := fun (el : Nat) => if el = 0 then e0 else if el = 1 then e1 else e2
  .next (match s.capturing i with
    | some e =>
      match SMap.look (s.slot i).sects e with
      | some q =>
        let y := s.slot i
        let n := y.erasedIn q.rc0 q.rcN
        let parts := captureParts (sectorFrags q.cells q.psi)
        let s := s.modSect i e (fun q => { q with captured := true, erased := n })
        let s := s.modSlot i (fun x => { x with
          samp := (elems q.mask).foldl (fun mm el =>
            storeSamples mm e el (flagSamples y.isErased parts q.rc0 ((of el).samples.take q.cellsOf))) x.samp })
        let s := s.sramWritten i (fun w => (elems q.mask).any (fun el => decide (sampWord e el 0 ≤ w) &&
          decide (w < sampWord e el (q.cellsOf + 7))))
        let s := s.each (elems q.mask) (fun s el => s.incBy (Reg.CHN_FE_CLIP_COUNT i el) (of el).clips)
        let s := ((s.put (Reg.CHN_FE_SB_PSI_VALID i e) 1).put (Reg.CHN_FE_SB_PSI_PSI i e) q.psi).put
          (Reg.CHN_FE_SB_CNT_ERASED i e) (min n 65535)
        ((s.put (Reg.CHN_FE_SB_CNT_CELLS i e) q.cellsOf).inc (Reg.CHN_FE_SECTORS_COUNT i)).incBy
          (Reg.CHN_FE_ERASED_COUNT i) n
      | none => s
    | none => s)

/-- SB_HOLD_WRITE (R123): a write of CHN_FE_SB_CTL. -/
def execSbHoldWrite (slot : Fin 16) (value : Word) (s : State) : Res :=
  let i := slot.val
  .next (if hasBit value.toNat 31 && s.flag (Reg.CHN_FE_STATUS_ACTIVE i) then
      s.reject (Reg.CHN_FE_CFG_STATUS_ERR i) (Reg.CHN_FE_CFG_STATUS_CODE i) 5
    else s.put (Reg.CHN_FE_SB_CTL_HOLD i) (bit value.toNat 31))

/-- A byte of the sample buffer; one that no capture has written since power-up is free (02 R54). -/
def Slot.sampByte (x : Slot) (e el c : Nat) : Nat :=
  let k := (3 * e + el) * 65536 + c
  (SMap.look x.samp k).getD (Config.freeSample x.gen k % 256)

/-- One captured cell of an entry; cells at or beyond CHN_FE_SB_CNTn.CELLS read 0. -/
def State.sbCell (s : State) (i e el c : Nat) : Nat :=
  if s.get (Reg.CHN_FE_SB_CNT_CELLS i e) ≤ c then 0 else (s.slot i).sampByte e el c

/-- SB_DATA_READ (R123, Table AFE-18): four cells, and CELL advances. -/
def execSbDataRead (slot : Fin 16) (s : State) : Res :=
  let i := slot.val
  let rej := s.reject (Reg.CHN_FE_CFG_STATUS_ERR i) (Reg.CHN_FE_CFG_STATUS_CODE i)
  let c := s.get (Reg.CHN_FE_SB_ADDR_CELL i)
  let e := s.get (Reg.CHN_FE_SB_ADDR_ENTRY i)
  let el := s.get (Reg.CHN_FE_SB_ADDR_ELEM i)
  .next (
    if ¬ s.flag (Reg.CHN_FE_SB_CTL_HOLD i) then (rej 4).answer (.data 0)
    else if 37372 < c then (rej 3).answer (.data 0)
    else
      let v := s.sbCell i e el c + 2 ^ 8 * s.sbCell i e el (c + 1) + 2 ^ 16 * s.sbCell i e el (c + 2) +
        2 ^ 24 * s.sbCell i e el (c + 3)
      let r := s.sramRead i (sampWord e el c)
      let v := if r.1 then v else Config.freeValue r.2.free % 2 ^ 32
      ((if r.1 then r.2 else r.2.draw 1).put (Reg.CHN_FE_SB_ADDR_CELL i) (c + 4)).answer (.data v))

end Sys2Proof.Machine
end

