-- ==== Sys2Proof/Machine/Detect.lean ====
section
/-! DEFINITION. Detection, sync recovery and decoding (05): equaliser taps, the attempt list, the fast path, the
deep-decoder pool, the decision of a sector and its record. -/

namespace Sys2Proof.Machine

/-- The accumulated sign products of the taps over the 256 read cells that end at `cell`, by 10 × element + tap: the sign of
the target's response to the tentative decisions minus y(k), by that of the sample the tap weighs (R128). -/
def State.tapSigns (s : State) (i : Nat) (m : Member) (cell : Nat) (streams : List (List Int)) : List Int :=
  let xs := s.sampleStreams i (pegMask m.peg) (cell - 259) streams
  let ys := equaliserOut (fun _ => (s.slot i).taps) xs ((streams.map List.length).foldl max 0)
  let err := fun k => responseAt m.target (tentative m.target ys) k - 16 * (ys.getD k ⟨0, false⟩).y
  (List.range 30).map (fun k => signProduct err (fun c => (sampAt (xs.getD (k / 10) []) ((c : Int) + (k % 10 : Nat) - 4)).value)
    4 256)

/-- EQ_TAP_ADAPT (05 R128): in tracking each tap moves by STEP units in the direction of its accumulated sign product over the
256 read cells that end at the run's cell; the centre tap of E1 never adapts. -/
def execEqTapAdapt (slot : Fin 16) (run : SampleRun) (s : State) : Res :=
  let i := slot.val
  .next (match (s.slot i).mem with
    | some m =>
      if m.servoOnly || !m.set.eqAdapt || s.loopsHeld i || s.readPhase i run.cell != some false then s
      else
        let signs := s.tapSigns i m run.cell run.streams
        let taps := (elems (pegMask m.peg)).foldl (fun tp e => (List.range 10).foldl (fun tp t =>
          let k := 10 * e + t
          if k = 14 then tp
          else SMap.put tp 0 k (ofSigned 16 (satSigned 16
            (toSigned 16 (SMap.get tp 0 k) + (signs.getD k 0).sign * m.set.eqStep)))) tp) (s.slot i).taps
        s.modSlot i (fun x => { x with
          taps := taps
          sects := x.sects.map (fun q => (q.1, if q.2.captured then q.2
            else { q.2 with tapLog := (run.cell + 1, taps) :: q.2.tapLog })) })
    | none => s)

/-! ## The attempt list (05 R136 to R140) -/

/-- The rank order of R137: distance, then nearness to the prediction, then the earlier position. -/
def syncBefore (p q : SyncPos) : Bool :=
  decide (p.dist < q.dist) || (p.dist == q.dist && (decide (p.ofs.natAbs < q.ofs.natAbs) ||
    (p.ofs.natAbs == q.ofs.natAbs && decide (p.ofs < q.ofs))))

/-- Insertion into a list in rank order. -/
def syncInsert (p : SyncPos) : List SyncPos → List SyncPos
  | [] => [p]
  | q :: qs => if syncBefore p q then p :: q :: qs else q :: syncInsert p qs

/-- Positions in rank order. -/
def syncSort (l : List SyncPos) : List SyncPos := l.foldr syncInsert []

/-- The kept candidates (R136, R137). -/
def candidates (thr maxCand : Nat) (found : List SyncPos) : List SyncPos :=
  (syncSort (found.filter (fun p => decide (-48 ≤ p.ofs) && decide (p.ofs ≤ 48) && decide (p.dist ≤ thr) &&
    decide (p.erased ≤ 8)))).take maxCand

/-- The attempt list of a sector (R140). -/
def attemptList (cands : List SyncPos) (timedAll : Bool) : List Attempt :=
  let l := cands.map (fun p => (⟨p.ofs, p.dist, .waiting⟩ : Attempt))
  if cands.isEmpty || timedAll then
    l ++ (([0, -1, 1, -2, 2] : List Int).filter (fun d => !cands.any (fun p => p.ofs == d))).map
      (fun d => ⟨d, 0x3F, .waiting⟩)
  else l

/-- The distance of a mark of `n` bits, its highest bit first, from the cells at a start position, and the erased cells
among them: a cell reads as 1 where its value is not negative, and an erased cell counts as a difference (R136). -/
def markDist (mark n : Nat) (cells : List MarkCell) : Nat × Nat :=
  (List.range n).foldl (fun d k =>
    let x := cells.getD k ⟨0, true⟩
    (d.1 + b2n (x.erased || (decide (0 ≤ x.c) != hasBit mark (n - 1 - k))), d.2 + b2n x.erased)) (0, 0)

/-- Every start position of a search window that begins `lo` cells from the prediction. -/
def markSearch (mark n : Nat) (lo : Int) (cells : List MarkCell) : List SyncPos :=
  (List.range (cells.length + 1 - n)).map (fun k =>
    let d := markDist mark n (cells.drop k)
    ⟨lo + k, d.1, d.2⟩)

/-- The sync search (R136): the positions from P − 48 to P + 48 of the cells from P − 48 on. -/
def syncSearch (cells : List MarkCell) : List SyncPos := markSearch 0x1ED45F71 32 (-48) cells

/-- The resync search (R138): the positions within 8 cells of the prediction, of the cells from 8 before it on. -/
def resyncSearch (cells : List MarkCell) : List SyncPos := markSearch 0xB38E 16 (-8) cells

/-- Read cells of the combined stream from read cell `rc` on: the samples of the elements combined under the slot's
weights, erased where a defect window covers the cell (04 R117). -/
def State.markCells (s : State) (i rc : Nat) (streams : List (List Int)) : List MarkCell :=
  (List.range ((streams.map List.length).foldl max 0)).map (fun k =>
    ⟨s.combinedAt i (streams.map (fun x => x.getD k 0)), (s.slot i).isErased (rc + k)⟩)

/-- SYNC_SEARCH_END (R136, R137): the newest entry's sector gets its attempt list, once; `streams` are the samples of the
elements after stage 8 from P − 48 to P + 79. P is read cell 64 of the sector. -/
def execSyncSearchEnd (slot : Fin 16) (streams : List (List Int)) (s : State) : Res :=
  .next (s.modSect slot.val (s.newest slot.val) (fun q =>
    match q.attempts with
    | some _ => q
    | none => { q with attempts := some (attemptList (candidates q.syncThr q.maxCand
        (syncSearch (s.markCells slot.val (q.rc0 + 16) streams))) q.timedAll) }))

/-- The first read cell of fragment `k` of a sector, from its first one. -/
def fragReadCell (fs : List Frag) (k : Nat) : Nat :=
  ((fs.take k).zipIdx).foldl (fun n f => n + (f.1.len (f.2 == 0) - 16)) 0

/-- The chosen position of a resync search (R138): the lowest distance at or below the threshold, nearer and then earlier
among equals, and the prediction where none qualifies. -/
def resyncChoice (thr : Nat) (found : List SyncPos) : Int :=
  ((syncSort (found.filter (fun p => decide (-8 ≤ p.ofs) && decide (p.ofs ≤ 8) && decide (p.dist ≤ thr)))).map
    SyncPos.ofs).headD 0

/-- RESYNC_SEARCH_END (R138): the position of later fragment `frag` is chosen, once; `streams` are the samples of the
elements from 8 cells before the predicted mark, which is at cell 32 of the fragment, to 23 after its first. -/
def execResyncSearchEnd (slot : Fin 16) (frag : Nat) (streams : List (List Int)) (s : State) : Res :=
  .next (s.modSect slot.val (s.newest slot.val) (fun q =>
    if q.resync.length + 1 = frag then
      let rc := q.rc0 + fragReadCell (sectorFrags q.cells q.psi) frag + 24
      { q with resync := q.resync ++ [resyncChoice q.resyncThr (resyncSearch (s.markCells slot.val rc streams))] }
    else q))

/-! ## Attempts (05 R139, R142, R146): what one ends with is a function of the entry's samples, the taps, the attempt's
position, the chosen resync positions and the settings of the sector. -/

/-- A sample of an entry as the decoder takes it: a cell of an uncorrectable word of the sample buffer is erased (21 R529). -/
def State.entrySample (s : State) (i e el c : Nat) : Samp :=
  let p := sampOf ((s.slot i).sampByte e el c)
  { p with erased := p.erased || decide (1 < s.sramFlips i (sampWord e el c)) }

/-- The element streams of a captured stretch. -/
def State.stretchSamples (s : State) (i e : Nat) (q : Sect) (p : CapStretch) : List (List Samp) :=
  (List.range 3).map (fun el => if hasBit q.mask el then
    (List.range p.len).map (fun c => s.entrySample i e el (p.start + c)) else [])

/-- The taps in force at an entry cell while the sector passed: those of its first read cell, until adaptation set others. -/
def Sect.tapsAt (q : Sect) (c : Nat) : SMap Nat :=
  let rc := ((entryReads (captureParts (sectorFrags q.cells q.psi)) q.rc0).getD c none).getD q.rc0
  match q.tapLog.find? (fun t => decide (t.1 ≤ rc)) with
  | some t => t.2
  | none => q.taps

/-- The equalised stretches of an entry under given taps. -/
def State.equalised (s : State) (i e : Nat) (q : Sect) (taps : Nat → SMap Nat) : List (List EqCell) :=
  (stretches (sectorFrags q.cells q.psi)).map (fun p =>
    equaliserOut (fun c => taps (p.start + c)) (s.stretchSamples i e q p) p.len)

/-- A detector pass of an attempt at position offset `ofs` over an entry. -/
def State.detect (s : State) (i e : Nat) (q : Sect) (taps : Nat → SMap Nat) (ofs : Int) : (Nat → Int) → (Nat → Int) :=
  detectPass (targetOf q.t0 q.t1 q.t2) (sectorFrags q.cells q.psi) ofs q.resync (s.equalised i e q taps)

/-- The position offset of attempt `k`. -/
def Sect.ofsOf (q : Sect) (k : Nat) : Int := ((q.attempts.getD [])[k]?.map Attempt.ofs).getD 0

/-- What the fast path ends attempt 0 with: the taps as the sector passed, the member's schedule (R142). -/
def State.fastResult (s : State) (i e : Nat) (q : Sect) : DecRes :=
  decoded ((Decoder.start (s.detect i e q q.tapsAt (q.ofsOf 0) (fun _ => 0))).run (schedRule q.sched)
    (schedMax q.sched))

/-- What attempt `k` of a second look ends with: the taps of the sector's first read cell, the deep schedule (R142). -/
def State.deepResult (s : State) (i e k : Nat) (q : Sect) : DecRes :=
  decoded (Decoder.deep (s.detect i e q (fun _ => q.taps) (q.ofsOf k)))

/-! ## Outcomes and records (05 R141, R147, R151) -/

/-- What an attempt reads is read from the SRAMs: the words of the entry, and the memory of the decoder instance, which the
attempt writes anew; `upset` is an uncorrectable word that the attempt has met there itself. Whether that memory was good
(21 R529). -/
def State.attemptReads (s : State) (i e inst : Nat) (q : Sect) (upset : Bool) : Bool × State :=
  let r := s.sramReadAll i (s.flippedWords i (fun w => (elems q.mask).any (fun el => decide (sampWord e el 0 ≤ w) &&
    decide (w < sampWord e el (q.cellsOf + 7)))))
  let u := r.2.sramUse inst (fun _ => true)
  (u.1 && !upset, u.2.when upset (·.inc Reg.BUF_SRAM_UE_COUNT))

/-- The header a sector's request names (03 Table MED-4, 07 Table TAB-4). -/
def wantHeader (req band : Nat) : Nat := bits req 59 58 * 2 ^ 30 + band % 64 * 2 ^ 24 + bits req 57 34

/-- The outcome of an attempt of at most `maxIter` iterations and its ITER (R141, Table DET-2). -/
def attemptOutcome (want maxIter : Nat) (r : DecRes) : Nat × Nat :=
  if !r.zero || decide (maxIter < r.iter) then (1, maxIter)
  else if crc64 (leBytes r.header 4 ++ leBytes r.block 4112) ≠ r.crc then (2, r.iter)
  else if r.header = want then (0, r.iter)
  else if r.header / 2 ^ 30 = 3 then (4, r.iter)
  else (3, r.iter)

/-- A record appended to the slot's FIFO of 32, or dropped with OVF (R151). -/
def State.appendRecord (s : State) (i lo hi : Nat) : State :=
  if (s.slot i).fifo.length < 32 then s.modSlot i (fun x => { x with fifo := x.fifo ++ [(lo, hi)] })
  else s.put (Reg.CHN_DET_FIFO_STAT_OVF i) 1

/-- The halves of a sector record (05 Tables DET-8, DET-9). -/
def recordLo (erased psi : Nat) : Nat := psi % 65536 + 65536 * (min erased 65535)
def recordHi (outcome : Nat) (deep : Bool) (att hdist : Nat) (ofs : Int) (retry iter : Nat) : Nat :=
  outcome * 2 ^ 28 + b2n deep * 2 ^ 27 + att % 8 * 2 ^ 24 + hdist % 64 * 2 ^ 18 + ofSigned 7 ofs * 2 ^ 11 +
    retry % 8 * 2 ^ 8 + iter % 256

/-- A sector not captured for want of an entry: record with OUTCOME 0x5 (04 R122). -/
def State.missedRecord (s : State) (i psi : Nat) : State :=
  (s.appendRecord i (recordLo 0 psi) (recordHi 5 false 0 0 0 (s.get (Reg.CHN_DET_CTL_RETRY_TAG i)) 0)).inc
    (Reg.CHN_DET_MISSED_COUNT i)

/-- The pool forgets a decided sector: its place is freed, its running attempts are discarded, and the sector that
waits longest enters the queue (R143 to R145). -/
def State.poolDrop (s : State) (ref : Nat) : State :=
  let p := s.pool
  let q := p.queue.filter (fun r => r != ref)
  let w := p.waiting.filter (fun r => r != ref)
  let en := p.engines.map (fun e => if e.2.1 = ref then (e.1, (32, e.2.2)) else e)
  let bl := SMap.keep p.blocks (fun k => decide (k / 8 ≠ ref))
  match w with
  | r :: rs => if q.length < 32 then (s.setPool ⟨q ++ [r], rs, en, bl⟩) else s.setPool ⟨q, w, en, bl⟩
  | [] => s.setPool ⟨q, [], en, bl⟩

/-- A sector is decided by attempt `k`: counted, recorded, reported, its data delivered, its entry released. -/
def State.decideSector (s : State) (i e : Nat) (q : Sect) (outcome k iter : Nat) (deep : Bool) (block : Nat) : State :=
  let att := ((q.attempts.getD [])[k]?).getD ⟨0, 0x3F, .waiting⟩
  let s := (s.modSlot i (fun x => { x with sects := SMap.del x.sects e })).poolDrop (2 * i + e)
  let s := s.appendRecord i (recordLo q.erased q.psi) (recordHi outcome deep k att.hdist att.ofs q.retryTag iter)
  if outcome = 0 then
    let s := s.inc (if deep then Reg.CHN_DET_DEEP_OK_COUNT i else Reg.CHN_DET_FAST_OK_COUNT i)
    let s := s.when (decide (0 < k) || att.hdist == 0x3F) (·.inc (Reg.CHN_DET_SYNC_RECOV_COUNT i))
    let s := (s.bufWrite 0 (q.req % 2 ^ 34) (Config.decipher s.mediaKeys (wantHeader q.req q.band) block % 256 ^ 4112) 4112).2
    (s.finalStatus (actOf i) q.rid q.idx 1).readBack (wantHeader q.req q.band)
  else (s.inc (Reg.CHN_DET_FAILED_COUNT i)).finalStatus (actOf i) q.rid q.idx 2

/-- FAST_PATH_DONE (R142): attempt 0 ends, `upset` where its decoder's memory had an uncorrectable word; a failure enters the second look or decides the sector. An uncorrectable word in
the decoder's memory ends it as failed (21 R529), after a free number of iterations. -/
def execFastPathDone (slot : Fin 16) (entry : Fin 2) (upset : Bool) (s : State) : Res :=
  let i := slot.val; let e := entry.val
  .next (match SMap.look (s.slot i).sects e with
    | some q =>
      if !q.captured || q.attempts.isNone || q.fast.isSome then s
      else
        let res := s.fastResult i e q
        let m := s.attemptReads i e (58 + i) q upset
        let s := m.2.draw (b2n (!m.1))
        let o := if m.1 then attemptOutcome (wantHeader q.req q.band) (schedMax q.sched) res
          else (1, Config.freeValue m.2.free % (schedMax q.sched + 1))
        if o.1 = 0 then s.decideSector i e q 0 0 o.2 false res.block
        else if q.secondLook then
          let full := decide (32 ≤ s.pool.queue.length)
          let s := s.modSect i e (fun q => { q with fast := some o, deep := true })
          if full then s.setPool { s.pool with waiting := s.pool.waiting ++ [2 * i + e] }
          else s.setPool { s.pool with queue := s.pool.queue ++ [2 * i + e] }
        else s.decideSector i e q o.1 0 o.2 false 0
    | none => s)

/-! ## The second look (05 R142 to R144) -/

/-- The attempts of a pool reference. -/
def State.attemptsOf (s : State) (ref : Nat) : List Attempt :=
  match SMap.look (s.slot (ref / 2)).sects (ref % 2) with
  | some q => q.attempts.getD []
  | none => []

/-- The lowest-indexed unstarted attempt of the oldest queued sector that still has one (R144). -/
def State.nextAttempt (s : State) : List Nat → Option (Nat × Nat)
  | [] => none
  | r :: rs =>
    match (s.attemptsOf r).findIdx? (fun a => a.st == .waiting) with
    | some k => some (r, k)
    | none => State.nextAttempt s rs

/-- An attempt's state changed. -/
def State.setAttempt (s : State) (ref k : Nat) (st : AttState) : State :=
  s.modSect (ref / 2) (ref % 2) (fun q =>
    { q with attempts := q.attempts.map (fun l => modAt l k (fun a => { a with st := st })) })

/-- DEEP_ATTEMPT_START (R144): a free engine in use takes the next attempt. -/
def execDeepAttemptStart (engine : Fin 8) (s : State) : Res :=
  .next (if decide (engine.val < s.get Reg.CHN_DP_CTL_ENGINES) && (SMap.look s.pool.engines engine.val).isNone then
      match s.nextAttempt s.pool.queue with
      | some rk =>
        (s.setAttempt rk.1 rk.2 .running).setPool { s.pool with engines := SMap.set s.pool.engines engine.val rk }
      | none => s
    else s)

/-- The attempt that decides a second look as recovered: it succeeded and every attempt below it has failed. -/
def decidedBy : List Attempt → Nat → Option (Nat × Nat)
  | [], _ => none
  | a :: as, k =>
    match a.st with
    | .ended 0 iter => some (k, iter)
    | .ended _ _ => decidedBy as (k + 1)
    | _ => none

/-- Every attempt has ended. -/
def allEnded (l : List Attempt) : Bool := l.all (fun a => match a.st with | .ended _ _ => true | _ => false)

/-- The highest-ranked failure and the lowest attempt that reached it: BLANK, HEADER_MISMATCH, CRC_FAIL,
UNRECOVERED (R147), whose codes fall in that order. -/
def worstOf : List Attempt → Nat → Nat × Nat × Nat → Nat × Nat × Nat
  | [], _, b => b
  | a :: as, k, b =>
    match a.st with
    | .ended o it => worstOf as (k + 1) (if b.1 < o then (o, k, it) else b)
    | _ => worstOf as (k + 1) b

/-- DEEP_ATTEMPT_DONE (R143, R147): an engine's attempt ends, `upset` where its decoder's memory had an uncorrectable word (21
R529); the lowest-indexed success decides. -/
def execDeepAttemptDone (engine : Fin 8) (upset : Bool) (s : State) : Res :=
  .next (match SMap.look s.pool.engines engine.val with
    | none => s
    | some rk =>
      let s := (s.setPool { s.pool with engines := SMap.del s.pool.engines engine.val }).inc
        Reg.CHN_DP_ATTEMPTS_COUNT
      let i := rk.1 / 2; let e := rk.1 % 2
      match SMap.look (s.slot i).sects e with
      | none => s
      | some q =>
        let res := s.deepResult i e rk.2 q
        let m := s.attemptReads i e (74 + engine.val) q upset
        let s := m.2.draw (b2n (!m.1))
        let o := if m.1 then attemptOutcome (wantHeader q.req q.band) 80 res else (1, Config.freeValue m.2.free % 81)
        let s := s.setAttempt rk.1 rk.2 (.ended o.1 o.2)
        let s := s.when (o.1 == 0) (fun s => (s.setPool { s.pool with
          blocks := SMap.set s.pool.blocks (8 * rk.1 + rk.2) res.block }))
        let l := s.attemptsOf rk.1
        match decidedBy l 0 with
        | some ki => s.decideSector i e q 0 ki.1 ki.2 true (SMap.get s.pool.blocks 0 (8 * rk.1 + ki.1))
        | none =>
          if allEnded l then
            let w := worstOf l 0 (0, 0, 0)
            s.decideSector i e q w.1 w.2.1 w.2.2 true 0
          else s)

/-! ## The record FIFO (05 R151) -/

/-- SECT_LO_READ: the oldest record's lower half; its upper half is latched. -/
def execSectLoRead (slot : Fin 16) (s : State) : Res :=
  let i := slot.val
  let k := (Reg.CHN_DET_SECT_LO_PSI i).addr
  .next (match (s.slot i).fifo with
    | r :: _ => ((s.setShadow (SMap.set s.shadow k r.2)).modSlot i (fun x => { x with fifoLatched := true })).answer
        (.data r.1)
    | [] => ((s.setShadow (SMap.set s.shadow k 0xF0000000)).modSlot i
        (fun x => { x with fifoLatched := false })).answer (.data 0))

/-- SECT_HI_READ: the latched half, once, and the record leaves the FIFO. Without a latched half the oldest record's upper half
reads and nothing is removed, and OUTCOME 0xF where there is none (DEDUCED, log entry 100). -/
def execSectHiRead (slot : Fin 16) (s : State) : Res :=
  let i := slot.val
  let k := (Reg.CHN_DET_SECT_LO_PSI i).addr
  .next (match SMap.look s.shadow k with
    | some v =>
      let s := s.setShadow (SMap.del s.shadow k)
      (if (s.slot i).fifoLatched then
        s.modSlot i (fun x => { x with fifo := x.fifo.tail, fifoLatched := false })
      else s).answer (.data v)
    | none => s.answer (.data (((s.slot i).fifo.head?.map Prod.snd).getD 0xF0000000)))

end Sys2Proof.Machine
end

