-- ==== Sys2Proof/Machine/WritePath.lean ====
section
/-! DEFINITION. The write path and the media clock (06): the preamp link, the media-clock loop, codewords, shock. -/

namespace Sys2Proof.Machine

/-! ## The preamp link -/

/-- PREAMP_FRAME_DONE (R171, R172, R550): the frame in progress completes; a read-back releases the member or ends it. -/
def execPreampFrameDone (act : Fin 4) (data : Nat) (s : State) : Res :=
  let a := act.val
  .next (match (s.pa a).prog with
    | none => s
    | some f =>
      let s := s.putPa a { s.pa a with prog := none }
      let i := 4 * a + f.slot
      let s :=
        if f.kind = 1 then
          match (s.slot i).mem with
          | some m =>
            if m.servoOnly || m.ready then s
            else if data % 65536 = f.data then s.modSlot i (fun x => { x with mem := some { m with ready := true } })
            else ((s.put (Reg.CHN_PA_STATUS_VERIFY_ERR a) 1).riseSource 2 (slotsOf a)).refuseMember i
          | none => s
        else if f.kind = 3 then
          let s := s.when f.read (·.put (Reg.CHN_PA_RDATA_DATA a) data)
          s.when (s.pa a).fw.isEmpty (·.put (Reg.CHN_PA_STATUS_BUSY a) 0)
        else s
      s.paNext a)

/-- PA_CMD_WRITE (R171, Table WRP-19): one firmware frame is queued; while BUSY the write is refused. -/
def execPaCmdWrite (slot : Fin 16) (value : Word) (s : State) : Res :=
  let i := slot.val; let a := actOf i; let v := value.toNat
  .next (if s.flag (Reg.CHN_PA_STATUS_BUSY a) then
      s.reject (Reg.CHN_WR_CFG_STATUS_ERR i) (Reg.CHN_WR_CFG_STATUS_CODE i) 4
    else
      let s := s.put (Reg.CHN_PA_STATUS_BUSY a) 1
      (s.putPa a { s.pa a with fw := (s.pa a).fw ++ [⟨hasBit v 23, bits v 22 16, bits v 15 0, 3, locOf i⟩] }).paNext a)

/-- PREAMP_FAULT (R173): three low SDIO samples while no frame is in progress. -/
def execPreampFault (act : Fin 4) (s : State) : Res :=
  .next (match (s.pa act.val).prog with
    | some _ => s
    | none => (s.put (Reg.CHN_PA_STATUS_FAULT act.val) 1).riseSource 2 (slotsOf act.val))

/-! ## The media-clock loop (R155 to R158) -/

/-- Rounding of p / q to the nearest integer, ties away from zero; q positive. -/
def rdiv (p q : Int) : Int := if 0 ≤ p then (2 * p + q) / (2 * q) else -((2 * (-p) + q) / (2 * q))

/-- The phase error of a clock field measured at `tm` (08 R219): tm − te reduced modulo 256κ = CELLS / 64. -/
def clockError (cells : Nat) (tm : Int) : Int :=
  let d := tm - rdiv (64 * 570 * cells) 16384
  d - rdiv ((128 * d + cells) / (2 * cells) * cells) 64

/-- The cell in which half-SC `n` of a servo field lies, from the field's start (08 R206). -/
def scCell (cells : Nat) (n : Int) : Int := Int.fdiv (n * cells) 32768

/-- The mean magnitude over the clock field, SC 568 to 951, is below half of S_TARGET (08 R220); cells without a sample count
as 0. -/
def State.clockWeak (s : State) (i : Nat) (m : Member) (samples : List Int) : Bool :=
  let n := (scCell m.cells 1904 - scCell m.cells 1136).toNat
  decide (2 * (samples.take n).foldl (fun k x => k + x.natAbs) 0 < s.get (Reg.SRV_SCTL_S_TARGET (actOf i)) * n)

/-- The field is flagged invalid (08 R220): the source searches, its wedge has SAM, WEDGE, AMP or BADW set, or the field is
weak. -/
def State.clockInvalid (s : State) (i : Nat) (m : Member) (samples : List Int) : Bool :=
  let fl := (s.src i).flags
  s.srcState i == 1 || s.clockWeak i m samples || hasBit fl 0 || hasBit fl 1 || hasBit fl 2 || hasBit fl 5

/-- A valid field with error `e` reaches the slot (R155, R156). -/
def State.clockValid (s : State) (i : Nat) (m : Member) (e : Int) : State :=
  let x := s.slot i
  let acq := decide (x.validCnt < 8)
  let kp := if acq then m.set.kpAcq else m.set.kp
  let ki := if acq then m.set.kiAcq else m.set.ki
  let t := clampInt (-335544) 335544 (s.sget (Reg.CHN_MC_TRIM_TRIM i) - ki * e)
  let s := s.putSlot i { x with
    phase := x.phase - rdiv (kp * e) 8
    validCnt := x.validCnt + 1
    okRun := if e.natAbs ≤ m.set.lockTol then x.okRun + 1 else 0
    badRun := if m.set.unlockTol < e.natAbs then x.badRun + 1 else 0
    invRun := 0 }
  ((s.put (Reg.CHN_MC_TRIM_TRIM i) (ofSigned 32 t)).put (Reg.CHN_MC_STATUS_ERR i) (ofSigned 8 (satSigned 8 e))).putB
    (Reg.CHN_MC_STATUS_ACQ i) (decide (x.validCnt + 1 < 8))

/-- CLOCK_FIELD (R155, R157; 08 R212, R219, R220): the position found by correlation and the E1 samples of a clock field; a
source in TRACK feeds the loop; a flagged field coasts. -/
def execClockField (slot : Fin 16) (measured : Int) (samples : List Int) (s : State) : Res :=
  let i := slot.val
  .next (match (s.slot i).mem with
    | none => s
    | some m =>
      if s.srcState i = 0 then s
      else if s.clockInvalid i m samples then
        let s := (s.inc (Reg.SRV_CLK_ERR_COUNT (actOf i))).inc (Reg.CHN_MC_COAST_COUNT i)
        s.modSlot i (fun x => { x with okRun := 0, invRun := x.invRun + 1 })
      else if s.srcState i = 3 then s.clockValid i m (clockError m.cells measured)
      else s)

/-- MEDIA_CLOCK_LOCK (R156): four consecutive valid fields within LOCK_TOL. -/
def execMediaClockLock (slot : Fin 16) (s : State) : Res :=
  let i := slot.val
  .next (if (s.slot i).mem.isSome && !s.locked i && decide (4 ≤ (s.slot i).okRun) then
      (s.put (Reg.CHN_MC_STATUS_LOCKED i) 1).modSlot i (fun x => { x with unlocked := false, badRun := 0 })
    else s)

/-- Lock is lost by R158. -/
def State.mustUnlock (s : State) (i : Nat) : Bool :=
  let x := s.slot i
  decide (2 ≤ x.badRun) || decide (3 ≤ x.invRun) || (s.sget (Reg.CHN_MC_TRIM_TRIM i)).natAbs == 335544

/-- LOSS_OF_LOCK (R158): the write gate drops with cause UNLOCK and the slot reacquires from its N0 and T. -/
def execLossOfLock (slot : Fin 16) (s : State) : Res :=
  let i := slot.val
  .next (if s.locked i && s.mustUnlock i then
      let s := (s.put (Reg.CHN_MC_STATUS_LOCKED i) 0).inc (Reg.CHN_MC_UNLOCKS_COUNT i)
      let s := s.modSlot i (fun x => { x with unlocked := true, validCnt := 0, okRun := 0 })
      (s.put (Reg.CHN_MC_STATUS_ACQ i) 1).riseSource 5 [i]
    else s)

/-! ## Codewords (R160 to R162, 21 R527, R530) -/

/-- The oldest codeword not released yet. -/
def Slot.unreleased (x : Slot) : Option WrSect := x.wr.find? (fun w => !w.released)

/-- A staging buffer is free: a codeword is held in one of the slot's two from its encoding until its sector ends (R160). -/
def Slot.stagingFree (x : Slot) : Bool := decide ((x.wr.filter (fun w => w.released)).length < 2)

/-- The staging buffer that the next codeword takes (R160). -/
def Slot.nextStaging (x : Slot) : Nat := b2n (x.wr.any (fun w => w.released && w.staging == 0))

/-- CODEWORD_ENCODE_DONE (R160, R161): the oldest codeword is encoded, once a staging buffer is free, and read back with bits
of its 32,992 information bits and of its parity inverted; the checks pass and it is released, or the sector is not written, with cause DATAPATH, and is revisited
under the limit (21 R530); so is one whose staging buffer has an uncorrectable word (21 R529). -/
def execCodewordEncodeDone (slot : Fin 16) (info parity : Nat) (s : State) : Res :=
  let i := slot.val
  .next (match (s.slot i).unreleased with
    | none => s
    | some w =>
      if !(s.slot i).stagingFree then s
      else
      let b := (s.slot i).nextStaging
      let m := s.sramUse (42 + i) (fun k => k / 576 == b)
      let s := m.2
      if codewordOk w.header w.block (info % 2 ^ 32992 + 2 ^ 32992 * parity) && !w.bad && m.1 then
        s.modSlot i (·.modWr w.sec (fun w => { w with released := true, staging := b }))
      else
        let s := (s.modSlot i (fun x => { x.delWr w.sec with dpSrc := true })).setBitOf (Reg.CHN_WR_CAUSE_CAUSE i) 10
        let s := s.inc (Reg.CHN_WR_ABORTED_COUNT i)
        let s := s.modRun (actOf i) w.rid (fun r => { r with dataPath := r.dataPath ++ [w.idx] })
        s.missSector (actOf i) w.rid w.idx true)

/-- CODEWORD_UNDERRUN (R162): the sector is not written and enters the revisit set without limit. -/
def execCodewordUnderrun (slot : Fin 16) (s : State) : Res :=
  let i := slot.val
  .next (match (s.slot i).unreleased with
    | none => s
    | some w =>
      let s := (s.modSlot i (fun x => { x.delWr w.sec with urSrc := true })).setBitOf (Reg.CHN_WR_CAUSE_CAUSE i) 11
      (s.inc (Reg.CHN_WR_UNDERRUN_COUNT i)).missSector (actOf i) w.rid w.idx false)

/-! ## Shock (R168, R165) -/

/-- SENSOR_SAMPLE (R168): a sample of an enabled input compared with its threshold around mid-scale 2,048. -/
def execSensorSample (input : Fin 5) (code : Nat) (s : State) : Res :=
  let k := input.val
  let thr := if k < 3 then s.get Reg.CHN_SHK_CTL_SHK_THR else s.get Reg.CHN_SHK_CTL_RV_THR
  .next (if s.clkOk 41 ∧ hasBit (s.get Reg.CHN_SHK_CTL_EN) k then
      if thr < ((code : Int) - 2048).natAbs then
        let was := s.shock.active
        let s := (s.setShock ⟨SMap.put s.shock.okRun 0 k 0, true⟩).setBitOf Reg.CHN_SHK_STATUS_TRIP k
        if was then s else s.riseSource 1 allSlots
      else s.setShock { s.shock with okRun := SMap.upd s.shock.okRun 0 k (satAdd 64 · 1) }
    else s)

/-- SHOCK_CLEAR (R165): 64 consecutive samples of every enabled input within threshold. -/
def execShockClear (s : State) : Res :=
  .next (if s.shock.active && (maskBits 5 (s.get Reg.CHN_SHK_CTL_EN)).all (fun k =>
      decide (64 ≤ SMap.get s.shock.okRun 0 k)) then s.setShock { s.shock with active := false }
    else s)

end Sys2Proof.Machine
end

