-- ==== Sys2Proof/Machine/Formatter.lean ====
section
/-! DEFINITION. The formatter and its tablature (07): fetch, the counter operations, the edge queue, runs, courses,
Capo, machine checks and the background sweep. -/

namespace Sys2Proof.Machine

/-- A request into the formatter's switched domain 80 + a is answered with an error while it is off (02 R47). -/
def State.fmtIso (s : State) (a : Nat) (g : State → State) : State :=
  if s.domOn (80 + a) then g s else s.answer .busError

/-- A rejection of the formatter (Table TAB-11). -/
def State.fmtReject (s : State) (a c : Nat) : State :=
  s.reject (Reg.FMT_CFG_STATUS_ERR a) (Reg.FMT_CFG_STATUS_CODE a) c

/-! ## Tab words (R185 to R188) -/

/-- The stored patch word, with the inverted bits of its SRAM instance 20 + a; an undefined one is free (R200). -/
def State.patchWord (s : State) (a k : Nat) : Nat :=
  ((SMap.look (s.fmt a).patch k).getD (Config.freePatch (s.fmt a).gen k % 2 ^ 128)) ^^^
    SMap.get s.buf.flips 0 (sramKey (20 + a) k)

/-- The first enabled match register that names a ROM address (R196). -/
def State.capoMatch (s : State) (a addr : Nat) : Option Nat :=
  ((List.range 32).find? (fun n => s.flag (Reg.FMT_CAPO_MATCH_EN a n) &&
    s.get (Reg.FMT_CAPO_MATCH_ROM_ADDR a n) == addr)).map (fun n => s.get (Reg.FMT_CAPO_MATCH_PATCH_ADDR a n))

/-- What a thread fetches: patch RAM or ROM, the address, the word (R187, R196). -/
def State.fetchTab (s : State) (a : Nat) (t : Thread) : Bool × Nat × Nat :=
  if t.patch then (true, t.pc, s.patchWord a t.pc)
  else match s.capoMatch a t.pc with
    | some k => (true, k, s.patchWord a k)
    | none => (false, t.pc, Config.rom t.pc % 2 ^ 128)

/-- An odd number of ones in `w` bits. -/
def oddParity (w n : Nat) : Bool := popCount w n % 2 == 1

def tabOp (w : Nat) : Nat := bits w 67 64
def tabImm (w : Nat) : Nat := bits w 93 68
def tabCond (w : Nat) : Nat := bits w 33 28
def tabGq (w : Nat) : Bool := hasBit w 43

/-- A word is illegal before it executes (R188). -/
def tabIllegal (w : Nat) : Bool :=
  bits w 126 94 != 0 || bits w 62 53 != 0 || decide (12 < tabOp w) || decide (0x11 < tabCond w) ||
    (!tabGq w && bits w 42 39 != 0) || (hasBit w 27 && bits w 26 22 != 0) || (hasBit w 13 && bits w 12 8 != 0)

/-- The machine-check cause of a fetched word, if any (Table TAB-12). -/
def tabFault (w : Nat) : Option Nat :=
  if oddParity 64 (w % 2 ^ 64) then some 1
  else if oddParity 64 (w / 2 ^ 64) then some 2
  else if tabIllegal w then some 3
  else none

/-! ## FMT_DONE (R193) -/

/-- Every sector of a run is final. -/
def Run.allFinal (r : Run) : Bool := r.stat.length == r.count

/-- The FMT_DONE entry of a run (Table TAB-18). -/
def Run.entry (r : Run) (j : Nat) : Nat :=
  2 ^ 31 + b2n (!r.stat.all (fun e => e.2 == 1)) * 2 ^ 24 + j % 4 * 2 ^ 16 + r.tag % 65536

/-- Ended runs that are final enter FMT_DONE while it has room. -/
def State.drainEnded (s : State) (a : Nat) : State :=
  s.each (s.fmt a).ended (fun s e =>
    if e.2.allFinal && decide ((s.fmt a).done.length < 16) then
      s.modFmt a (fun m => { m with done := m.done ++ [e.2.entry e.1]
                                    ended := m.ended.filter (fun x => x.2.rid != e.2.rid) })
    else s)

/-- Every sector of a run that `keep` does not spare and that is not final takes STATUS `st`. -/
def State.closeRun (s : State) (a : Nat) (r : Run) (st : Nat) (keep : Nat → Bool) : State :=
  s.each ((List.range r.count).filter (fun k => SMap.get r.stat 0 k == 0 && !keep k))
    (fun s k => s.finalStatus a r.rid k st)

/-- Every run in progress or queued is ended and leaves its slot (R195, R201). -/
def State.endRuns (s : State) (a : Nat) : State :=
  s.modFmt a (fun m => { m with
    ended := m.ended ++ m.cur ++ m.queues.flatMap (fun q => q.2.map (fun r => (q.1, r)))
    cur := []
    queues := [] })

/-! ## Machine check (R201) -/

/-- The undecided sectors of a slot are discarded, second looks included. -/
def State.discardSects (s : State) (i : Nat) : State :=
  (s.each (s.slot i).sects (fun s e => s.poolDrop (2 * i + e.1))).modSlot i (fun x => { x with sects := [] })

/-- Edge queues emptied, RG and WG closed, unfinished sectors gone. -/
def State.stopSlot (s : State) (i : Nat) : State :=
  (s.discardSects i).modSlot i (fun x => { x with eq := [], rg := false, wg := false, wr := [], rd := [], discard := none })

/-- All runs of an actuator end with STATUS 0x5 for every non-final sector and enter FMT_DONE. -/
def State.failRuns (s : State) (a : Nat) : State :=
  let s := s.endRuns a
  let s := s.each (s.fmt a).ended (fun s e => s.closeRun a e.2 5 (fun _ => false))
  s.drainEnded a

/-- The event of a word with EVT set (R187). -/
def State.tabEvent (s : State) (a j w : Nat) : State :=
  s.when (hasBit w 44) (·.raise (0x1100 + bits w 52 45) (a + 256 * j))

/-- A thread ends its current beat before it halts (R201): a word whose push is due makes it and raises its event; the pushed
entry goes with the emptied edge queue. -/
def State.endBeat (s : State) (a j : Nat) : State :=
  match (s.thread a j).word with
  | some w => s.when (s.thread a j).pushDue (·.tabEvent a j w)
  | none => s

/-- A formatter machine check (R201). -/
def State.fmtMachineCheck (s : State) (a cause thread : Nat) (space : Bool) (addr : Nat) : State :=
  if s.flag (Reg.FMT_MCHK_VALID a) then s
  else
    let s := s.riseSource 7 (slotsOf a)
    let s := s.each [0, 1, 2, 3] (fun s j => s.endBeat a j)
    let s := (s.each (slotsOf a) State.stopSlot).failRuns a
    let s := s.each [0, 1, 2, 3] (fun s j => s.putThread a j { s.thread a j with word := none, pushDue := false, cur := none })
    let s := (((((s.put (Reg.FMT_MCHK_VALID a) 1).put (Reg.FMT_MCHK_CAUSE a) cause).put (Reg.FMT_MCHK_THREAD a) thread).putB
      (Reg.FMT_MCHK_SPACE a) space).put (Reg.FMT_MCHK_ADDR a) addr).put (Reg.FMT_STATUS_MCHK a) 1
    ((s.put (Reg.FMT_STATUS_HALTED a) 1).emit (.rtInterrupt 1)).raise 0x0101 a

/-! ## Executing a word (R186) -/

/-- The threads step: RUN is 1 and no machine check has halted them (R178, R201). -/
def State.stepping (s : State) (a : Nat) : Bool :=
  s.domOn (80 + a) && s.clkOk (16 + a) && s.flag (Reg.FMT_CTL_RUN a) && !s.flag (Reg.FMT_MCHK_VALID a)

/-- The thread can fetch: it steps, and is neither in a beat nor at the barrier. -/
def State.canFetch (s : State) (a j : Nat) : Bool :=
  s.stepping a && (s.thread a j).word.isNone && !(s.thread a j).barrier

/-- The slot stands at cell `c` of a wedge interval, `w` wedges on from the one that WC gives (R179). -/
def State.atCell (s : State) (i w c : Nat) : State := s.modSlot i (fun x => { x with cc := c, ahead := w })

/-- The first thread cycle of a word whose OP is one of `ops`: the operation, then its push where GQ is 1 (a step of
its own), then its event; a failing word is a machine check and does not execute. -/
def State.runOp (s : State) (a j : Nat) (ops : List Nat) (g : State → Nat → State) : State :=
  if s.canFetch a j then
    let f := s.fetchTab a (s.thread a j)
    match tabFault f.2.2 with
    | some c => s.fmtMachineCheck a c j f.1 f.2.1
    | none =>
      if ops.contains (tabOp f.2.2) then
        let s := g s f.2.2
        if s.flag (Reg.FMT_MCHK_VALID a) then s
        else
          let s := s.putThread a j { s.thread a j with word := some f.2.2, pushDue := tabGq f.2.2 }
          if tabGq f.2.2 then s else s.tabEvent a j f.2.2
      else s
  else s

/-- CMP of a thread set to a cell of the revolution. -/
def State.setCmp (s : State) (a j cells cell : Nat) : State :=
  s.putThread a j { s.thread a j with cmpW := cell / cells % 512, cmpC := cell % cells }

/-- CMP takes a value the spec does not state: free. -/
def State.freeCmp (s : State) (a j : Nat) : State :=
  (s.putThread a j { s.thread a j with cmpW := Config.freeValue s.free % 512
                                       cmpC := Config.freeValue (s.free + 1) % 131072 }).draw 2

/-- NOP (R186). -/
def execNop (act thread : Fin 4) (s : State) : Res := .next (s.runOp act.val thread.val [0] (fun s _ => s))

/-- LDCMP: CMP := (IMM[25:17], IMM[16:0]); a cell at or above CELLS is illegal when it executes (R188). -/
def execLdcmp (act thread : Fin 4) (s : State) : Res :=
  let a := act.val; let j := thread.val
  .next (s.runOp a j [1] (fun s w =>
    let cells := s.cellsOf (4 * a + j)
    let f := s.fetchTab a (s.thread a j)
    if decide (0 < cells) && decide (cells ≤ tabImm w % 2 ^ 17) then s.fmtMachineCheck a 3 j f.1 f.2.1
    else s.putThread a j { s.thread a j with cmpW := tabImm w / 2 ^ 17, cmpC := tabImm w % 2 ^ 17 }))

/-- ADDCMP: a signed cell count, carrying through wedge intervals and the revolution. -/
def execAddcmp (act thread : Fin 4) (s : State) : Res :=
  let a := act.val; let j := thread.val
  .next (s.runOp a j [2] (fun s w =>
    let cells := s.cellsOf (4 * a + j)
    let t := s.thread a j
    if cells = 0 then s.freeCmp a j
    else s.setCmp a j cells (((t.cmpW * cells + t.cmpC : Nat) + toSigned 18 (tabImm w)) % ((512 * cells : Nat) : Int)).toNat))

/-- LDLC: LC0 or LC1 := IMM[15:0]. -/
def execLdlc (act thread : Fin 4) (s : State) : Res :=
  let a := act.val; let j := thread.val
  .next (s.runOp a j [3, 4] (fun s w =>
    let t := s.thread a j
    s.putThread a j (if tabOp w = 3 then { t with lc0 := tabImm w % 65536 } else { t with lc1 := tabImm w % 65536 })))

/-- DECLC: LC0 or LC1 decremented, stopping at 0. -/
def execDeclc (act thread : Fin 4) (s : State) : Res :=
  let a := act.val; let j := thread.val
  .next (s.runOp a j [5, 6] (fun s w =>
    let t := s.thread a j
    s.putThread a j (if tabOp w = 5 then { t with lc0 := t.lc0 - 1 } else { t with lc1 := t.lc1 - 1 })))

/-! ## Choosing sectors (R191) -/

/-- The lead in cells. -/
def State.lead (s : State) (a : Nat) : Nat := s.get (Reg.FMT_CTL_LEAD a) * 128

/-- Cells from a slot position to a sector's first preamble cell, counted from LEAD × 128 cells ahead. -/
def arrival (cells lead pos cell : Nat) : Nat := (cell + 2 * (512 * cells) - pos - lead % (512 * cells)) % (512 * cells)

/-- First preamble cells of the sectors of a track. -/
def firstCells (cells : Nat) : List Nat :=
  (placement cells).map (fun fs => match fs with | f :: _ => f.cell cells | [] => 0)

/-- Among indices of a run, the one that arrives first at a position. -/
def firstToArrive (cells lead pos first : Nat) (idxs : List Nat) : Option Nat :=
  let fc := firstCells cells
  (argMin (idxs.map (fun k => (k, arrival cells lead pos (fc.getD (first + k) 0))))).map Prod.fst

/-- The header of a written sector: as its list entry asks; that of a relocated block has TYPE 0b01 and the block's own LBA_LO
(03 R94). -/
def State.writeHeader (s : State) (req band : Nat) : Nat :=
  match SMap.look s.cache (req % 2 ^ 34) with
  | some b =>
    if (SMap.look s.media.reloc (lbaKey b.nsid b.lba)).isSome then 2 ^ 30 + band % 64 * 2 ^ 24 + b.lba % 2 ^ 24
    else wantHeader req band
  | none => wantHeader req band

/-- A sector becomes the thread's current one: CMP to its first preamble cell; a write requests its block for encoding
(R160), a read its capture. An unreadable list entry makes it final with STATUS 0x3 (12 Table BUF-3). A header TYPE of 0b11, which the
device never writes (03 R79), is written where firmware's list entry asks for it (DESIGN CHOICE, log entry 99). -/
def State.takeSector (s : State) (a j : Nat) (m : Member) (r : Run) (k : Nat) : State :=
  let i := 4 * a + j
  let sec := (s.fmt a).nextSec + 1
  let psi := r.first + k
  let fs := sectorFrags m.cells psi
  let s := s.modFmt a (fun x => { x with nextSec := sec })
  let s := s.modSlot i (fun x => { x with dpSrc := false, urSrc := false })
  let s := s.putThread a j { s.thread a j with cur := some ⟨sec, r.rid, k, psi, 0⟩ }
  let s := s.setCmp a j m.cells ((fs.headD ⟨0, 0, 0⟩).cell m.cells)
  let la := r.list + 8 * k
  let e := s.bufRead 0 la 8
  match e.1 with
  | none => e.2.finalStatus a r.rid k 3
  | some req =>
    let s := e.2
    if r.write then
      let d := s.bufRead 0 (req % 2 ^ 34) 4112
      let h := s.writeHeader req m.band
      let w : WrSect := ⟨sec, r.rid, k, psi, h, Config.encipher (s.keysFor (req % 2 ^ 34)) h (d.1.getD 0) % 256 ^ 4112, req % 2 ^ 34, d.1.isNone,
        false, fs.length, false, 0⟩
      d.2.modSlot i (fun x => { x with wr := x.wr ++ [w] })
    else s.modSlot i (fun x => { x with rd := x.rd ++ [⟨sec, r.rid, k, psi, la, req, fs.length⟩] })

/-- TAKERUN (R191): the oldest queued run becomes current, unless one is current or FMT_DONE is full (R193); the slot stands
at cell `c`, `w` wedges on from WC. Without a run to take nothing but the word's push and event happens (DESIGN CHOICE, log entry 101). -/
def execTakerun (act thread : Fin 4) (w c : Nat) (s : State) : Res :=
  let a := act.val; let j := thread.val
  .next ((s.atCell (4 * a + j) w c).runOp a j [7] (fun s _ =>
    match SMap.look (s.fmt a).cur j, SMap.get (s.fmt a).queues [] j, (s.slot (4 * a + j)).mem with
    | none, r :: rs, some m =>
      if 16 ≤ (s.fmt a).done.length then s
      else
        let k := (firstToArrive m.cells (s.lead a) (s.position (4 * a + j)) r.first (List.range r.count)).getD 0
        let r := { r with start := k, taken := 1 }
        (s.modFmt a (fun x => { x with cur := SMap.set x.cur j r, queues := SMap.put x.queues [] j rs })).takeSector a j m r k
    | _, _, _ => s))

/-- NEXTSEC (R191): ascending from the start with a wrap, then the revisit set in order of arrival; the slot stands at cell
`c`, `w` wedges on from WC. With no sector left nothing but the word's push and event happens (DESIGN CHOICE, log entry 101). -/
def execNextsec (act thread : Fin 4) (w c : Nat) (s : State) : Res :=
  let a := act.val; let j := thread.val
  .next ((s.atCell (4 * a + j) w c).runOp a j [8] (fun s _ =>
    match SMap.look (s.fmt a).cur j, (s.slot (4 * a + j)).mem with
    | some r, some m =>
      if r.taken < r.count then
        let k := (r.start + r.taken) % r.count
        (s.modRun a r.rid (fun r => { r with taken := r.taken + 1 })).takeSector a j m r k
      else
        match firstToArrive m.cells (s.lead a) (s.position (4 * a + j)) r.first r.revisit with
        | some k => (s.modRun a r.rid (fun r => { r with revisit := r.revisit.erase k })).takeSector a j m r k
        | none => s
    | _, _ => s))

/-- NEXTFRAG: CMP to the first preamble cell of the next fragment; without one CMP is free. -/
def execNextfrag (act thread : Fin 4) (s : State) : Res :=
  let a := act.val; let j := thread.val
  .next (s.runOp a j [9] (fun s _ =>
    match (s.thread a j).cur, (s.slot (4 * a + j)).mem with
    | some q, some m =>
      match (sectorFrags m.cells q.psi)[q.frag + 1]? with
      | some f => (s.putThread a j { s.thread a j with cur := some { q with frag := q.frag + 1 } }).setCmp a j m.cells
          (f.cell m.cells)
      | none => s.freeCmp a j
    | _, _ => s.freeCmp a j))

/-- ENDFRAG: CMP to the first cell after the pad of the current fragment; without one CMP is free. -/
def execEndfrag (act thread : Fin 4) (s : State) : Res :=
  let a := act.val; let j := thread.val
  .next (s.runOp a j [12] (fun s _ =>
    match (s.thread a j).cur, (s.slot (4 * a + j)).mem with
    | some q, some m =>
      match (sectorFrags m.cells q.psi)[q.frag]? with
      | some f => s.setCmp a j m.cells (f.cell m.cells + f.len (q.frag == 0))
      | none => s.freeCmp a j
    | _, _ => s.freeCmp a j))

/-- SKIP (R192, 04 R122): the current sector is missed. The cause is read from the slot as SKIP executes: without a free
sample-buffer entry it is that, with a MISSED record and no limit; else, while the slot is unlocked, it is that, under the
limit; a skip for any other cause has no limit (DESIGN CHOICE, log entry 101). -/
def execSkip (act thread : Fin 4) (s : State) : Res :=
  let a := act.val; let j := thread.val; let i := 4 * a + j
  .next (s.runOp a j [10] (fun s _ =>
    match (s.thread a j).cur, SMap.look (s.fmt a).cur j with
    | some q, some r =>
      let noBuf := !r.write && !s.sbFree i
      let s := s.when noBuf (·.missedRecord i q.psi)
      let s := s.modSlot i (fun x => { x.delWr q.sec with rd := x.rd.filter (fun d => d.sec != q.sec) })
      (s.putThread a j { s.thread a j with cur := none }).missSector a q.rid q.idx (!noBuf && !s.locked i)
    | _, _ => s))

/-- The sector that the slot has started and not finished (R195): one whose first entry has been applied, with entries still
to come, its gate open, or its capture or writing not ended. -/
def Slot.unfinished (x : Slot) : Option Nat :=
  match x.started with
  | some n =>
    if x.gate || x.eq.any (fun e => e.sec == n) || x.wr.any (fun w => w.sec == n) ||
        x.sects.any (fun q => !q.2.captured && q.2.sec == n) then some n else none
  | none => none

/-- ENDMEMBER (R195, 03 R88): entries of a sector that has not started are discarded, and the thread waits. The member ends at
once, or, where a started sector has not ended, once it has: a course change splits no sector. -/
def execEndmember (act thread : Fin 4) (s : State) : Res :=
  let a := act.val; let j := thread.val
  .next (s.runOp a j [11] (fun s _ =>
    let s := s.putThread a j { s.thread a j with barrier := true, cur := none }
    match (s.slot (4 * a + j)).unfinished with
    | none => s.endMember (4 * a + j)
    | some n => s.modSlot (4 * a + j) (fun x => { x with
        eq := x.eq.filter (fun e => e.sec == n), wr := x.wr.filter (fun w => w.sec == n), rd := x.rd.filter (fun d => d.sec == n) })))

/-! ## Conditions and branches (R186, Table TAB-3) -/

/-- The value of a condition for a thread whose slot is at cell `pos` of the revolution. -/
def State.condition (s : State) (a j pos : Nat) : Nat → Bool
  | 0x01 => decide (((s.thread a j).cmpW * s.cellsOf (4 * a + j) + (s.thread a j).cmpC + 512 * s.cellsOf (4 * a + j) - pos) %
      (512 * s.cellsOf (4 * a + j)) ≤ s.lead a)
  | 0x02 => decide (2 * ((pos + 512 * s.cellsOf (4 * a + j) -
      ((s.thread a j).cmpW * s.cellsOf (4 * a + j) + (s.thread a j).cmpC)) % (512 * s.cellsOf (4 * a + j))) <
      512 * s.cellsOf (4 * a + j))
  | 0x03 => (s.thread a j).lc0 == 0
  | 0x04 => (s.thread a j).lc1 == 0
  | 0x05 => (s.slot (4 * a + j)).eq.length == 8
  | 0x06 => (s.slot (4 * a + j)).eq.isEmpty
  | 0x07 => !(SMap.get (s.fmt a).queues [] j).isEmpty
  | 0x08 => match SMap.look (s.fmt a).cur j with
    | some r => decide (r.count ≤ r.taken) && r.revisit.isEmpty
    | none => true
  | 0x09 => match SMap.look (s.fmt a).cur j with | some r => r.write | none => false
  | 0x0A => match (s.thread a j).cur, (s.slot (4 * a + j)).mem with
    | some q, some m => decide (q.frag + 1 < (sectorFrags m.cells q.psi).length)
    | _, _ => false
  | 0x0B => s.sbFree (4 * a + j)
  | 0x0C => match (s.thread a j).cur with
    | some q => (s.slot (4 * a + j)).wr.any (fun w => w.sec == q.sec && w.released)
    | none => false
  | 0x0D => s.locked (4 * a + j)
  | 0x0E => s.unsafeMask (4 * a + j) != 0
  | 0x0F => !s.fastBusy a j
  | 0x10 => (s.fmt a).pend.isSome
  | 0x11 => hasBit (s.get (Reg.FMT_STATUS_MEMBER a)) j
  | _ => false

/-- TAB_BEAT_END (R178, R186, R187): the condition XOR NEG chooses ALT or NEXT; the slot stands at cell `c`, `w`
wedges on from WC. -/
def execTabBeatEnd (act thread : Fin 4) (w c : Nat) (s : State) : Res :=
  let a := act.val; let j := thread.val
  let s := s.atCell (4 * a + j) w c
  let t := s.thread a j
  .next (match t.word with
    | some x =>
      if t.pushDue || !s.stepping a then s
      else if (s.condition a j (s.position (4 * a + j)) (tabCond x)) != hasBit x 34 then
        s.putThread a j { t with word := none, patch := hasBit x 27, pc := bits x 26 14 }
      else s.putThread a j { t with word := none, patch := hasBit x 13, pc := bits x 12 0 }
    | none => s)

/-! ## The edge queue (R180 to R184) -/

/-- An entry is late when it reaches the slot at cell `pos` (R181). -/
def State.entryLate (s : State) (a j pos : Nat) (e : Edge) : Bool :=
  let i := 4 * a + j
  let cells := s.cellsOf i
  let rev := 512 * cells
  let d := (e.w * cells + e.c + rev - pos) % rev
  let last := (s.slot i).eq.getLast?
  let wg := match last with | some l => l.wg | none => (s.slot i).wg
  decide (d < 16) ||
    (match last with | some l => decide (d ≤ (l.w * cells + l.c + rev - pos) % rev) | none => false) ||
    (e.rg && e.wg) || (e.wg && !wg && (!(s.slot i).fw || s.fastBusy a j))

/-- A read entry that raises RG for a sector that would find no sample-buffer entry (04 R122). -/
def State.noBuffer (s : State) (i : Nat) (e : Edge) : Bool :=
  e.rg && (s.slot i).rd.any (fun d => d.sec == e.sec) && !s.sbFree i

/-- An open gate closes ahead of the last codeword cell of the fragment it is over: that sector is aborted, unless it is
`but`, whose outcome the caller gives (06 R166). -/
def State.cutGate (s : State) (i : Nat) (but : Option Nat) : State :=
  if (s.slot i).gate then
    let s := s.closeGate i
    match (s.slot i).wr.find? (fun w => some w.sec == (s.slot i).started) with
    | some w => if some w.sec = but then s else s.abortSector i w
    | none => s
  else s

/-- The sector of a late entry is missed: its further entries are discarded, WG closes (R181). -/
def State.lateSector (s : State) (a j : Nat) (e : Edge) (noBuf : Bool) : State :=
  let i := 4 * a + j
  let s := s.modSlot i (fun x => { x with discard := some e.sec, wg := false })
  let s := s.cutGate i (some e.sec)
  match (s.slot i).wr.find? (fun w => w.sec == e.sec), (s.slot i).rd.find? (fun d => d.sec == e.sec) with
  | some w, _ => (s.modSlot i (·.delWr w.sec)).missSector a w.rid w.idx false
  | none, some d =>
    let s := s.when noBuf (·.missedRecord i d.psi)
    (s.modSlot i (fun x => { x with rd := x.rd.filter (fun q => q.sec != d.sec) })).missSector a d.rid d.idx false
  | none, none =>
    match (s.slot i).sects.find? (fun q => !q.2.captured && q.2.sec == e.sec) with
    | some q => (s.modSlot i (fun x => { x with sects := SMap.del x.sects q.1 })).missSector a q.2.rid q.2.idx false
    | none => s

/-- EDGE_QUEUE_PUSH (R178, R180, R181, R186): the entry of the thread's word, once the queue has room; the slot stands at
cell `c`, `w` wedges on from WC. -/
def execEdgeQueuePush (act thread : Fin 4) (w c : Nat) (s : State) : Res :=
  let a := act.val; let j := thread.val; let i := 4 * a + j
  let s := s.atCell i w c
  let t := s.thread a j
  .next (match t.word with
    | some x =>
      if !t.pushDue || !s.stepping a || decide (8 ≤ (s.slot i).eq.length) then s
      else
        let e : Edge := ⟨t.cmpW, t.cmpC, hasBit x 39, hasBit x 40, hasBit x 41, hasBit x 42,
          match t.cur with | some q => q.sec | none => 0⟩
        let pos := s.position i
        let s := s.putThread a j { t with pushDue := false }
        let s :=
          if (s.slot i).discard == some e.sec && e.sec != 0 then s
          else if s.noBuffer i e then s.lateSector a j e true
          else if s.entryLate a j pos e then s.lateSector a j e false
          else s.modSlot i (fun x => { x with eq := x.eq ++ [e] })
        s.tabEvent a j x
    | none => s)

/-- RG is 1 for a sector that is not captured yet, from cell `pos` of the revolution: the capture starts into the entry that
does not hold the newest sector, with CHN_DET_CTL as it stands (04 R121, 05 R150). Without lock or read-back the sector is
skipped (06 R158), and one that finds no entry free is not captured (04 R122). -/
def State.captureStart (s : State) (i : Nat) (d : RdSect) (m : Member) (pos : Nat) : State :=
  let a := actOf i
  let s := s.modSlot i (fun x => { x with rd := x.rd.filter (fun q => q.sec != d.sec) })
  if !s.locked i || !m.ready || s.srcState i = 1 then s.missSector a d.rid d.idx true
  else if !s.sbFree i then (s.missedRecord i d.psi).missSector a d.rid d.idx false
  else
    let e := 1 - s.newest i
    let n := 36960 + 48 * (d.frags - 1)
    let q : Sect :=
    { psi := d.psi, rid := d.rid, idx := d.idx, listAddr := d.listAddr, req := d.req, band := m.band, sec := d.sec,
      cells := m.cells, mask := pegMask m.peg, t0 := m.set.t0, t1 := m.set.t1, t2 := m.set.t2,
      retryTag := s.get (Reg.CHN_DET_CTL_RETRY_TAG i), secondLook := s.flag (Reg.CHN_DET_CTL_SECOND_LOOK i),
      timedAll := s.flag (Reg.CHN_DET_CTL_TIMED_ALL i), maxCand := s.get (Reg.CHN_DET_CTL_MAX_CAND i),
      syncThr := s.get (Reg.CHN_DET_CTL_SYNC_THR i), resyncThr := s.get (Reg.CHN_DET_CTL_RESYNC_THR i),
      sched := pegSched m.peg, taps := (s.slot i).taps, tapLog := [], got := 0, since := some pos, rc0 := (s.slot i).rc,
      rcN := n, captured := false, erased := 0, attempts := none, resync := [], fast := none, deep := false }
    let s := s.modSlot i (fun x => { x with sects := SMap.set x.sects e q, rc := x.rc + n })
    (s.put (Reg.CHN_FE_SB_CTL_NEWEST i) e).put (Reg.CHN_FE_SB_PSI_VALID i e) 0

/-- What the slot writes over a fragment (06 R159, R163): its cells, and their transitions. -/
def State.fragOut (s : State) (i : Nat) (m : Member) (w : WrSect) : Out :=
  let f := w.frag m.cells
  let fs := sectorFrags m.cells w.psi
  let cells := fragCells (codeword w.header w.block) (f.1 == 0) ((fs.take f.1).foldl (fun n x => n + x.bitsN) 0) f.2.bitsN
  .writeFrag i f.2.wedge (f.2.cell m.cells - f.2.wedge * m.cells) cells
    (writeEdges (fun r => pegSByte m.peg (0x5B + r)) (s.flag (Reg.CHN_WR_CTL_PRECOMP_EN i)) (toSigned 6 m.set.shift) cells)

/-- WG rises at cell `pos`: the gate opens at the first preamble cell of the next fragment when no source of the slot's scope
holds it low, the codeword is released, and that cell has not passed; otherwise the sector is held back, aborted, or missed
(06 R166, R167, R169). A first fragment that a source keeps from opening has no gate drop and is not counted as aborted; the
sector is revisited under the limit (DESIGN CHOICE, log entry 29). -/
def State.openGate (s : State) (i sec pos : Nat) : State :=
  let a := actOf i
  let x := s.slot i
  match x.wr.find? (fun w => w.sec == sec), x.mem with
  | some w, some m =>
    let u := s.unsafeMask i % 1024
    let f := w.frag m.cells
    let miss := fun (limited : Bool) => (s.modSlot i (·.delWr sec)).missSector a w.rid w.idx limited
    if u = 8 then miss false
    else if u ≠ 0 then
      (if f.1 ≠ 0 then s.abortSector i w
       else if s.spt.failSrc then (s.modSlot i (·.delWr sec)).finalStatus a w.rid w.idx 3
       else miss true)
    else if !s.locked i || !m.ready || s.srcState i = 1 then miss true
    else if !atOrAfter (512 * m.cells) (f.2.cell m.cells) pos then (if f.1 ≠ 0 then s.abortSector i w else miss true)
    else if w.released then
      ((s.modSlot i (fun x => { x with gate := true })).put (Reg.CHN_WR_STATUS_GATE i) 1).emit (s.fragOut i m w)
    else s
  | _, _ => s

/-- FW changes: the frames of R184. -/
def State.fastWrite (s : State) (i : Nat) (on : Bool) : State :=
  let a := actOf i; let j := locOf i
  match (s.slot i).mem with
  | some m => s.paFast a [⟨false, 0x01 + j, routeWord m.head on (pegMask m.peg), 2, j⟩,
      ⟨false, 0x0C + j, if on then pegHeaterWrite m.peg else pegHeaterRead m.peg, 2, j⟩]
  | none => s

/-- EDGE_ENTRY_APPLY (R180, R182): the slot reaches the oldest entry's media time. -/
def execEdgeEntryApply (slot : Fin 16) (s : State) : Res :=
  let i := slot.val
  .next (match (s.slot i).eq with
    | [] => s
    | e :: es =>
      let x := s.slot i
      let rev := 512 * s.cellsOf i
      let pos := e.w * s.cellsOf i + e.c
      let s := s.modSlot i (fun x => { x with eq := es, rg := e.rg, wg := e.wg, sg := e.sg, fw := e.fw, cc := e.c
                                              ahead := match x.wc with | some w => (e.w + 512 - w) % 512 | none => 0
                                              started := if e.sec = 0 then x.started else some e.sec })
      let search := s.srcState i == 1
      let s := s.when (e.rg != x.rg && !search) (·.modSlot i (·.gateRead e.rg pos rev))
      let s := if e.rg then
          match x.rd.find? (fun d => d.sec == e.sec), x.mem with
          | some d, some m => s.captureStart i d m pos
          | _, _ => s
        else s
      let s := s.when (e.sg != x.sg && !search) (·.servoGate i e.sg)
      let s := s.when (e.fw != x.fw) (·.fastWrite i e.fw)
      if e.wg && !x.wg then s.openGate i e.sec pos
      else if !e.wg && x.gate then s.shutGate i x.started pos
      else s)

/-! ## Runs (R189, R193, R192) -/

/-- RUN_PUSH (R189): a write of FMT_RUN_D2 checks the staged run in order and pushes it. -/
def execRunPush (act : Fin 4) (value : Word) (s : State) : Res :=
  let a := act.val
  .next (s.fmtIso a (fun s =>
    let n := s.get (Reg.FMT_RUN_D0_COUNT a)
    let j := s.get (Reg.FMT_RUN_D0_SLOT a)
    let first := s.get (Reg.FMT_RUN_D0_FIRST_PSI a)
    let list := s.get (Reg.FMT_RUN_D1_LIST a) * 8
    if n = 0 then s.fmtReject a 1
    else if 2048 < n then s.fmtReject a 2
    else if 2 ^ 34 < list + 8 * n then s.fmtReject a 3
    else
      match hasBit (s.get (Reg.FMT_STATUS_MEMBER a)) j, (s.slot (4 * a + j)).mem with
      | true, some m =>
        if sectorCount m.cells < first + n then s.fmtReject a 3
        else if 4 ≤ (SMap.get (s.fmt a).queues [] j).length then s.fmtReject a 4
        else
          let rid := (s.fmt a).nextRid + 1
          let r : Run :=
          { rid := rid, tag := value.toNat % 65536, list := list, first := first, count := n,
            write := s.flag (Reg.FMT_RUN_D0_DIR a), stat := [], used := [], start := 0, taken := 0, revisit := [],
            exhausted := [], dataPath := [] }
          s.modFmt a (fun x => { x with nextRid := rid, queues := SMap.upd x.queues [] j (· ++ [r]) })
      | _, _ => s.fmtReject a 5))

/-- RUN_DONE (R193): the slot's current run, or else an ended one, is final and enters FMT_DONE. -/
def execRunDone (act loc : Fin 4) (s : State) : Res :=
  let a := act.val; let j := loc.val
  .next (if 16 ≤ (s.fmt a).done.length then s
    else match SMap.look (s.fmt a).cur j with
      | some r =>
        if r.allFinal then s.modFmt a (fun x => { x with cur := SMap.del x.cur j, done := x.done ++ [r.entry j] })
        else s.drainEnded a
      | none => s.drainEnded a)

/-- FMT_DONE_READ (R193): the oldest entry is returned and removed; 0 when there is none. -/
def execFmtDoneRead (act : Fin 4) (s : State) : Res :=
  let a := act.val
  .next (s.fmtIso a (fun s =>
    match (s.fmt a).done with
    | d :: ds => (s.modFmt a (fun x => { x with done := ds })).answer (.data d)
    | [] => s.answer (.data 0)))

/-- REVISIT_EXHAUSTED (R192; 21 R530; 15 R399): a sector whose revisits are used up takes STATUS 0x3, and the block of
a write is not on media. -/
def execRevisitExhausted (act loc : Fin 4) (s : State) : Res :=
  let a := act.val; let j := loc.val
  .next (match SMap.look (s.fmt a).cur j with
    | some r =>
      match r.exhausted with
      | k :: ks =>
        let s := (s.modRun a r.rid (fun r => { r with exhausted := ks })).finalStatus a r.rid k 3
        if r.write then
          let e := s.bufRead 0 (r.list + 8 * k) 8
          e.2.blockFailed (e.1.getD 0 % 2 ^ 34) (if r.dataPath.contains k then 0x16 else 0x14)
        else s
      | [] => s
    | none => s)

/-! ## Courses (R194, R195; 03 R83) -/

/-- The staged members: local slot and member with its off_h at X. -/
def State.stagedCourse (s : State) (a : Nat) : List (Nat × CMember) :=
  let x := s.get (Reg.FMT_COURSE_X_LO_X a) + 2 ^ 32 * s.get (Reg.FMT_COURSE_X_HI_X a)
  ((List.range 4).filter (fun j => s.flag (Reg.FMT_MEMBER_VALID a j))).map (fun j =>
    let h := s.get (Reg.FMT_MEMBER_HEAD a j)
    let off := match s.alignMap a with
      | some m => (match alignAt m x h with | some p => p.1 - x | none => 0)
      | none => 0
    (j, ⟨h, s.get (Reg.FMT_MEMBER_TRACK a j), s.flag (Reg.FMT_MEMBER_WRITE a j), off⟩))

/-- No head stands twice. -/
def headsDistinct : List (Nat × CMember) → Bool
  | [] => true
  | c :: cs => !cs.any (fun d => d.2.head == c.2.head) && headsDistinct cs

/-- A member is valid at X (R83). -/
def State.memberOk (s : State) (a x : Nat) (m : AlignMap) (c : Nat × CMember) : Bool :=
  let f := 12 * a + c.2.head
  decide (c.2.head < 12) && alignFitted m c.2.head && s.surfaceUsable f &&
    (match s.pegFor f c.2.track with
      | some p => (elems (pegMask p)).all (fun e => s.connected (4 * a + c.1) e)
      | none => false) && strokeOk m x c.2.head c.2.track

/-- A course is valid (R83); the empty course always is. -/
def State.courseOk (s : State) (a : Nat) (cs : List (Nat × CMember)) : Bool :=
  let x := s.get (Reg.FMT_COURSE_X_LO_X a) + 2 ^ 32 * s.get (Reg.FMT_COURSE_X_HI_X a)
  cs.isEmpty || (hasBit (s.get Reg.SYS_STRAP_ACT) a && headsDistinct cs &&
    (match s.alignMap a with
      | some m => (alignPair x m.points).isSome && cs.all (s.memberOk a x m)
      | none => false))

/-- COURSE_COMMIT (R194): a write of FMT_COURSE_CTL.COMMIT. On an actuator that is not fitted it is a configuration error (01
R37); its domain is off, so that the access ends with a bus error too (02 R47). -/
def execCourseCommit (act : Fin 4) (value : Word) (s : State) : Res :=
  let a := act.val
  .next (if !s.fitted a then (s.when (hasBit value.toNat 0) (·.fmtReject a 5)).answer .busError else s.fmtIso a (fun s =>
    if hasBit value.toNat 0 then
      let cs := s.stagedCourse a
      if s.courseOk a cs then
        (s.modFmt a (fun x => { x with pend := some cs })).put (Reg.FMT_COURSE_CTL_PENDING a) 1
      else s.fmtReject a 5
    else s))

/-- A sector of a run waits for its second look, queued or running (R195). -/
def State.undecided (s : State) (a rid k : Nat) : Bool :=
  (slotsOf a).any (fun i => (s.slot i).sects.any (fun q => q.2.rid == rid && q.2.idx == k && q.2.deep))

/-- COURSE_BARRIER (R195, 03 R88): all four threads wait and every sector that a slot has started has ended; the members end,
runs end, PENDING clears, the new members are due to start. -/
def execCourseBarrier (act : Fin 4) (s : State) : Res :=
  let a := act.val
  .next (match (s.fmt a).pend with
    | some cs =>
      if (List.range 4).all (fun j => (s.thread a j).barrier && (s.slot (4 * a + j)).unfinished.isNone) then
        let s := s.each ((slotsOf a).filter (fun i => hasBit (s.get (Reg.FMT_STATUS_MEMBER a)) (locOf i))) State.dropMember
        let s := s.endRuns a
        let s := s.each (s.fmt a).ended (fun s e => s.closeRun a e.2 4 (s.undecided a e.2.rid))
        let s := s.drainEnded a
        let s := s.modFmt a (fun x => { x with course := cs, pend := none, due := cs.map Prod.fst })
        let s := s.put (Reg.FMT_COURSE_CTL_PENDING a) 0
        let s := s.each [0, 1, 2, 3] (fun s j => s.putThread a j { s.thread a j with barrier := false })
        s.resumeAll a
      else s
    | none => s)

/-! ## Capo (R196 to R200) -/

/-- A Capo write is allowed: RUN is 0 and HALTED is 1 (R197). -/
def State.capoOpen (s : State) (a : Nat) : Bool := !s.flag (Reg.FMT_CTL_RUN a) && s.flag (Reg.FMT_STATUS_HALTED a)

/-- CAPO_DATA_WRITE (R197, Table TAB-20). -/
def execCapoDataWrite (act : Fin 4) (value : Word) (s : State) : Res :=
  let a := act.val
  .next (s.fmtIso a (fun s =>
    if ¬ s.capoOpen a then s.fmtReject a 6
    else
      let k := s.get (Reg.FMT_CAPO_ADDR_WORD a)
      let p := s.get (Reg.FMT_CAPO_ADDR_PART a)
      let old := s.patchWord a k
      let w := old - bits old (32 * p + 31) (32 * p) * 2 ^ (32 * p) + value.toNat * 2 ^ (32 * p)
      let s := s.modFmt a (fun x => { x with patch := SMap.set x.patch k w })
      let s := s.setBuf { s.buf with flips := SMap.put s.buf.flips 0 (sramKey (20 + a) k) 0 }
      let s := s.put (Reg.FMT_CAPO_STATUS_OK a) 0
      if p = 3 then (s.put (Reg.FMT_CAPO_ADDR_PART a) 0).put (Reg.FMT_CAPO_ADDR_WORD a) ((k + 1) % 256)
      else s.put (Reg.FMT_CAPO_ADDR_PART a) (p + 1)))

/-- CAPO_VERIFY (R198): the expected CRC starts a verification. -/
def execCapoVerify (act : Fin 4) (value : Word) (s : State) : Res :=
  let a := act.val
  .next (s.fmtIso a (fun s =>
    (s.modFmt a (fun x => { x with expect := value.toNat })).put (Reg.FMT_CAPO_STATUS_BUSY a) 1))

/-- A match register as its 32-bit word (Table TAB-22). -/
def State.matchWord (s : State) (a n : Nat) : Nat :=
  s.get (Reg.FMT_CAPO_MATCH_EN a n) * 2 ^ 31 + s.get (Reg.FMT_CAPO_MATCH_ROM_ADDR a n) * 2 ^ 8 +
    s.get (Reg.FMT_CAPO_MATCH_PATCH_ADDR a n)

/-- CRC-32 over the patch words and the match registers, the latter read with bits inverted (R198, R202). -/
def State.patchCrcRead (s : State) (a : Nat) (matchFlips : List Nat) : Nat :=
  crc32 ((List.range 256).flatMap (fun k => leBytes (s.patchWord a k) 16) ++
    (List.range 32).flatMap (fun n => leBytes (s.matchWord a n ^^^ matchFlips.getD n 0) 4))

/-- CRC-32 over the patch words and the match registers (R198). -/
def State.patchCrc (s : State) (a : Nat) : Nat := s.patchCrcRead a []

/-- The lowest enabled match register whose ROM address a higher enabled one also names (R198). -/
def State.dupMatch (s : State) (a : Nat) : Option Nat :=
  (List.range 32).find? (fun n => s.flag (Reg.FMT_CAPO_MATCH_EN a n) && (List.range 32).any (fun k =>
    decide (n < k) && s.flag (Reg.FMT_CAPO_MATCH_EN a k) &&
      s.get (Reg.FMT_CAPO_MATCH_ROM_ADDR a k) == s.get (Reg.FMT_CAPO_MATCH_ROM_ADDR a n)))

/-- The first failing check of a verification: FAIL and WHERE; none when every check passes (R198). -/
def State.capoCheck (s : State) (a : Nat) : Option (Nat × Nat) :=
  let odd := fun k => oddParity 64 (s.patchWord a k % 2 ^ 64) || oddParity 64 (s.patchWord a k / 2 ^ 64)
  match (List.range 256).find? odd with
  | some k => some (1, k)
  | none =>
    match (List.range 256).find? (fun k => tabIllegal (s.patchWord a k)) with
    | some k => some (2, k)
    | none =>
      match s.dupMatch a with
      | some n => some (3, 256 + n)
      | none => if s.patchCrc a = (s.fmt a).expect then none else some (4, 0)

/-- CAPO_VERIFY_DONE (R198). -/
def execCapoVerifyDone (act : Fin 4) (s : State) : Res :=
  let a := act.val
  .next (if s.flag (Reg.FMT_CAPO_STATUS_BUSY a) then
      let s := s.put (Reg.FMT_CAPO_STATUS_BUSY a) 0
      match s.capoCheck a with
      | some fw => ((s.put (Reg.FMT_CAPO_STATUS_OK a) 0).put (Reg.FMT_CAPO_STATUS_FAIL a) fw.1).put
          (Reg.FMT_CAPO_STATUS_WHERE a) fw.2
      | none =>
        let s := s.modFmt a (fun x => { x with lastCrc := x.expect })
        ((s.put (Reg.FMT_CAPO_STATUS_OK a) 1).put (Reg.FMT_CAPO_STATUS_FAIL a) 0).put (Reg.FMT_CAPO_STATUS_WHERE a) 0
    else s)

/-! ## RUN and reset (R199, R203) -/

/-- The formatter reset (R203). -/
def State.fmtReset (s : State) (a : Nat) : State :=
  let s := (s.each (slotsOf a) State.stopSlot).failRuns a
  let s := s.each (slotsOf a) State.closeGate
  let s := s.modFmt a (fun x => { x with threads := [] })
  let s := ((((s.put (Reg.FMT_MCHK_VALID a) 0).put (Reg.FMT_MCHK_CAUSE a) 0).put (Reg.FMT_MCHK_THREAD a) 0).put
    (Reg.FMT_MCHK_SPACE a) 0).put (Reg.FMT_MCHK_ADDR a) 0
  (((s.put (Reg.FMT_STATUS_MCHK a) 0).put (Reg.FMT_CAPO_STATUS_OK a) 0).put (Reg.FMT_CTL_RUN a) 0).put
    (Reg.FMT_STATUS_HALTED a) 1

/-- A write of FMT_CTL (R199, R203, Table TAB-8). -/
def State.fmtCtl (s : State) (a v : Nat) : State :=
  if hasBit v 15 then (if bits v 31 16 = 0x5A5A then s.fmtReset a else s)
  else
    let rv := bits v 11 8; let ld := bits v 7 0
    if rv = 0 ∨ ld = 0 then s.fmtReject a 1
    else if ld = 1 ∨ 128 < ld then s.fmtReject a 2
    else if hasBit v 14 && !s.flag (Reg.FMT_CAPO_STATUS_OK a) &&
        (List.range 32).any (fun n => s.flag (Reg.FMT_CAPO_MATCH_EN a n)) then s.fmtReject a 7
    else
      let s := ((s.put (Reg.FMT_CTL_REVISIT a) rv).put (Reg.FMT_CTL_LEAD a) ld).put (Reg.FMT_CTL_RUN a) (bit v 14)
      s.putB (Reg.FMT_STATUS_HALTED a) (!hasBit v 14 || s.flag (Reg.FMT_MCHK_VALID a))

/-- FMT_RUN_WRITE (R199). -/
def execFmtRunWrite (act : Fin 4) (value : Word) (s : State) : Res :=
  .next (s.fmtIso act.val (·.fmtCtl act.val value.toNat))

/-- FORMATTER_RESET (R203). -/
def execFormatterReset (act : Fin 4) (value : Word) (s : State) : Res :=
  .next (s.fmtIso act.val (·.fmtCtl act.val value.toNat))

/-! ## Machine checks and the sweep (R201, R202) -/

/-- TAB_MACHINE_CHECK (R201): the word a thread fetches, read with the bits `flips` inverted, fails. -/
def execTabMachineCheck (act thread : Fin 4) (flips : Nat) (s : State) : Res :=
  let a := act.val; let j := thread.val
  .next (if s.canFetch a j then
      let f := s.fetchTab a (s.thread a j)
      match tabFault (f.2.2 ^^^ flips) with
      | some c => s.fmtMachineCheck a c j f.1 f.2.1
      | none => s
    else s)

/-- SWEEP_STEP (R202): the sweep reads one word, with the bits `flips` inverted. -/
def execSweepStep (act : Fin 4) (flips : Nat) (s : State) : Res :=
  let a := act.val
  let k := (s.fmt a).sweep
  let odd := fun (n : Nat) => oddParity 64 (n % 2 ^ 64) || oddParity 64 (n / 2 ^ 64)
  .next (if !s.domOn (80 + a) || decide (8448 ≤ k) then s
    else
      let s := s.modFmt a (fun x => { x with sweep := k + 1 })
      if k < 8192 then (if odd flips then s.fmtMachineCheck a 4 0 false k else s)
      else if s.flag (Reg.FMT_CAPO_STATUS_OK a) && odd (s.patchWord a (k - 8192) ^^^ flips) then
        s.fmtMachineCheck a 5 0 true (k - 8192)
      else s)

/-- SWEEP_PASS_END (R202): the pass ends and its CRCs are compared; `pass` holds the ROM's and the bits inverted in the match
registers as it read them, whose parity is checked as that of the patch words is. The address that a match register's parity
error gives in FMT_MCHK is not stated: free (log entry 8). -/
def execSweepPassEnd (act : Fin 4) (pass : SweepRead) (s : State) : Res :=
  let a := act.val
  .next (if s.domOn (80 + a) && decide (8448 ≤ (s.fmt a).sweep) then
      let s := (s.modFmt a (fun x => { x with sweep := 0 })).inc (Reg.FMT_SWEEP_PASSES_COUNT a)
      if pass.romCrc ≠ Config.romCrc % 2 ^ 32 then s.fmtMachineCheck a 4 0 false 0
      else if s.flag (Reg.FMT_CAPO_STATUS_OK a) && pass.matchFlips.any (fun n => oddParity 32 n) then
        (s.fmtMachineCheck a 5 0 true (Config.freeValue s.free % 8192)).draw 1
      else if s.flag (Reg.FMT_CAPO_STATUS_OK a) && s.patchCrcRead a pass.matchFlips != (s.fmt a).lastCrc then
        s.fmtMachineCheck a 5 0 true 0
      else s
    else s)

end Sys2Proof.Machine
end

