-- ==== Sys2Proof/Machine/Servo.lean ====
section
/-! DEFINITION. Servo sensing (08): servo fields, source states, chevron positions, sample checks, the reference head. -/

namespace Sys2Proof.Machine

/-! ## The samples of a field (R206, R207) -/

/-- The sample at a cell of the field, where there is one. -/
def fieldAt (f : ServoField) (c : Int) : Option Int := if c < f.first then none else f.x[(c - f.first).toNat]?

/-- The samples from half-SC `p` to before half-SC `q` of a field that starts `d` SC from its predicted start; a cell without a
sample counts as 0. -/
def fieldOver (f : ServoField) (cells : Nat) (d : Int) (p q : Nat) : List Int :=
  let lo := scCell cells (p + 2 * d)
  (List.range (scCell cells (q + 2 * d) - lo).toNat).map (fun k => (fieldAt f (lo + k)).getD 0)

/-- The SAM, bit 15 first (Table SRV-1). -/
def samWord : Nat := 0x0F3C

/-- The distance of the SAM at `d` SC from its predicted position: SC are sliced at their centres and read 1 where the sample
is at least 0 (R207); none where a sample is missing. -/
def fieldSamDist (f : ServoField) (cells : Nat) (d : Int) : Nat → Option Nat
  | 0 => some 0
  | n + 1 =>
    match fieldSamDist f cells d n, fieldAt f (scCell cells (2 * (128 + d + n) + 1)) with
    | some k, some x => some (k + b2n (decide (0 ≤ x) != hasBit samWord (15 - n)))
    | _, _ => none

/-- The SAM at every SC position from `lo` on. -/
def fieldSamsFrom (f : ServoField) (cells : Nat) (lo : Int) (n : Nat) : List SyncPos :=
  (List.range n).filterMap (fun k => (fieldSamDist f cells (lo + k) 16).map (fun x => ⟨lo + k, x, 0⟩))

/-- The SAM positions of a search: within ±`win` SC, or at every SC position of the samples. -/
def fieldSams (f : ServoField) (cells : Nat) : Option Nat → List SyncPos
  | some w => fieldSamsFrom f cells (-(w : Int)) (2 * w + 1)
  | none => fieldSamsFrom f cells (Int.fdiv (f.first * 16384) cells - 128) (f.x.length * 16384 / cells + 2)

/-- The `n` data bits from SC `sc` on, 4 SC each, the highest first: a bit is 1 where the sum over its middle 2 SC is negative
(R207). -/
def slicedBits (f : ServoField) (cells : Nat) (d : Int) (sc : Nat) : Nat → Nat
  | 0 => 0
  | n + 1 => 2 * slicedBits f cells d sc n +
      b2n (decide ((fieldOver f cells d (2 * (sc + 4 * n) + 2) (2 * (sc + 4 * n) + 6)).foldl (· + ·) 0 < 0))

/-- The stamps of the pulses above half of S_TARGET in the window from SC `lo` to SC `hi` (R215). -/
def fieldStamps (f : ServoField) (cells target : Nat) (d : Int) (lo hi : Nat) : List Int :=
  (f.pulses.filter (fun p => decide (target < 2 * p.2) && decide ((lo + d) * cells ≤ 256 * p.1) &&
    decide (256 * p.1 < (hi + 1 + d) * cells))).map Prod.fst

/-! ## Address mark, numbers and chevrons (R214 to R216) -/

/-- The Gray code decoded (R214): tid = g XOR (g >> 1) XOR … XOR (g >> 23). -/
def grayDecode (g : Nat) : Nat := (List.range 24).foldl (fun t i => t ^^^ (g % 2 ^ 24 / 2 ^ i)) 0

/-- The SAM found within a window of ±`win` SC, 0 for any position (R214). -/
def findSam (thr : Nat) (win : Option Nat) (sams : List SyncPos) : Option SyncPos :=
  (syncSort (sams.filter (fun p => decide (p.dist ≤ thr) &&
    (match win with | some w => decide (p.ofs.natAbs ≤ w) | none => true)))).head?

/-- The wedge number of the 10 bits, where its parity is even (R214, Table SRV-1). -/
def wedgeNumber (b : Nat) : Option Nat := if oddParity 10 (b % 1024) then none else some (b % 1024 / 2)

/-- The gaps of four stamps. -/
def gaps : List Int → List Int
  | x :: y :: r => (y - x) :: gaps (y :: r)
  | _ => []

/-- Element-wise differences. -/
def diffs (p q : List Int) : List Int := (p.zip q).map (fun e => e.2 - e.1)

/-- The sum of a list. -/
def sumInt (l : List Int) : Int := l.foldl (· + ·) 0

/-- A pair of groups is usable (R215); κ = CELLS / 16,384, stamps in 1/64 cell. -/
def pairUsable (cells : Nat) (p q : List Int) : Bool :=
  p.length == 4 && q.length == 4 &&
    (gaps p ++ gaps q).all (fun g => decide (672 * (cells : Int) ≤ g * 16384) && decide (g * 16384 ≤ 864 * cells)) &&
    (diffs p q).all (fun x => (diffs p q).all (fun y => decide ((x - y).natAbs * 16384 ≤ 64 * cells)))

/-- φ of a pair in 1/4,096 track, as R216 computes it. -/
def pairPhi (p q : List Int) : Int :=
  16384 - rdiv (4608 * sumInt (diffs p q))
    ((p.getD 3 0 - p.getD 0 0) + (q.getD 3 0 - q.getD 0 0))

/-- The position of R216: the pair used (1: CD) and y in 1/4,096 track; none where CHEV is flagged. -/
def chevron (cells tid : Nat) (a b c d : List Int) : Option (Nat × Int) :=
  let place := fun (phi : Int) (par : Nat) =>
    let t : Int := if tid % 2 = par then tid else if 0 ≤ phi then tid - 1 else tid + 1
    some (par, t * 4096 + phi)
  if pairUsable cells a b && decide ((pairPhi a b).natAbs ≤ 2048) then place (pairPhi a b) 0
  else if pairUsable cells c d && decide ((pairPhi c d).natAbs ≤ 2048) then place (pairPhi c d) 1
  else none

/-- What is read of a field: how many SC from its prediction its SAM was found, the wedge number where its parity is even, the
sum of the magnitudes over SC 96 to 127 with the number of cells there, and the position. -/
structure FieldRead where
  sam : Option Int
  num : Option Nat
  mag : Nat
  cellsN : Nat
  pos : Option (Nat × Int)
  deriving DecidableEq, Repr

/-- A field read: everything is placed from the SAM found, or from the prediction where it is missed (log entry 102). -/
def readField (f : ServoField) (cells thr target : Nat) (win : Option Nat) : FieldRead :=
  let sam : Option Int := (findSam thr win (fieldSams f cells win)).map SyncPos.ofs
  let d : Int := sam.getD 0
  let amp : List Int := fieldOver f cells d 192 256
  let st := fieldStamps f cells target d
  { sam := sam, num := wedgeNumber (slicedBits f cells d 144 10), mag := amp.foldl (fun k x => k + x.natAbs) 0, cellsN := amp.length
    pos := chevron cells (grayDecode (slicedBits f cells d 184 24)) (st 294 351) (st 356 415) (st 430 487) (st 492 551) }

/-- A wedge of a head is marked bad (Table SRV-15). -/
def State.badWedge (s : State) (a h w : Nat) : Bool := hasBit (s.get (Reg.SRV_BADW_BAD a h (w / 32))) (w % 32)

/-- The flags of a sample (R217, Table SRV-3). -/
def State.sampleFlags (s : State) (a h : Nat) (x : Src) (r : FieldRead) : Nat :=
  let t := s.get (Reg.SRV_SCTL_S_TARGET a)
  let tid := match r.pos, x.y1, x.y2 with
    | some p, some y1, some y2 => decide (s.get (Reg.SRV_CTL_TID_TOL a) * 4096 < (p.2 - (2 * y1 - y2)).natAbs)
    | _, _, _ => false
  b2n r.sam.isNone + 2 * b2n (r.sam.isSome && r.num != some x.wedge) +
    4 * b2n (decide (2 * r.mag < t * r.cellsN) || decide (3 * t * r.cellsN < 2 * r.mag)) + 8 * b2n tid +
    16 * b2n r.pos.isNone + 32 * b2n (s.badWedge a h x.wedge)

/-! ## The servo preamble (R213) -/

/-- A list in pieces of `n`. -/
def chunksOf (n : Nat) : List Int → Nat → List (List Int)
  | _, 0 => []
  | [], _ => []
  | xs, k + 1 => xs.take n :: chunksOf n (xs.drop n) k

/-- The gain loop over the preamble: 16 intervals of 8 SC against S_TARGET, with a dead band of 8 LSB and a step of 1 code. -/
def State.servoGain (s : State) (i : Nat) (m : Member) (f : ServoField) : State :=
  s.each (List.range 16) (fun s n =>
    let e := gainError (s.get (Reg.SRV_SCTL_S_TARGET (actOf i))) (fieldOver f m.cells 0 (16 * n) (16 * n + 16))
    if e.natAbs ≤ 8 then s else s.moveLoop i 0 1 e)

/-- A servo-only member acquires offset and fine phase over the preamble (R213, 04 Table AFE-3). -/
def State.servoAcquire (s : State) (i : Nat) (m : Member) (f : ServoField) : State :=
  let xs := fieldOver f m.cells 0 0 256
  let move := fun (s : State) (loop : Nat) (e : Int) => if e.natAbs ≤ deadBand loop true then s else s.moveLoop i loop 1 e
  let s := s.each (chunksOf 4 xs 32) (fun s c => move s 1 (offsetError c))
  s.each (List.range 64) (fun s k =>
    move s 3 (phaseError (((xs.drop (2 * k - 1)).take (if k = 0 then 2 else 3)).map (fun x => (x, decide (0 ≤ x))))))

/-- SG is 1 for a field of the slot: by the edge queue for a course member, by the wedge timer for a servo-only one, and held in
SEARCH (R211). -/
def State.servoSamples (s : State) (i : Nat) (m : Member) : Bool := m.servoOnly || (s.slot i).sg || s.srcState i == 1

/-- The start of a field: E1 loads the servo gain of the head and runs its gain loop over the preamble (R213). -/
def State.servoStart (s : State) (i : Nat) (m : Member) (f : ServoField) : State :=
  let s := (s.servoGate i true).put (Reg.CHN_FE_STATE_GAIN i 1) (s.get (Reg.SRV_SGAIN_GAIN (actOf i) m.head))
  let s := s.servoGain i m f
  if m.servoOnly then s.servoAcquire i m f else s

/-- The end of a field: the wedge timer drops SG again, outside SEARCH (R211). -/
def State.servoEnd (s : State) (i : Nat) (m : Member) : State :=
  if m.servoOnly && s.srcState i != 1 then s.servoGate i false else s

/-! ## Source states (R211, R212) -/

/-- The window of a source's SAM (R212): everywhere in SEARCH. -/
def State.samWindow (s : State) (i : Nat) : Option Nat :=
  if s.srcState i = 2 then some (s.get (Reg.SRV_CTL_SAM_WIN_ACQ (actOf i)))
  else if s.srcState i = 3 then some (s.get (Reg.SRV_CTL_SAM_WIN (actOf i))) else none

/-- The wedge counter after a field in TRACK: it starts at the first valid wedge number, takes the number of each SAM found,
and advances at a missed one (R212, 07 R179). -/
def nextWc (wc : Option Nat) (r : FieldRead) : Option Nat :=
  match wc, r.sam, r.num with
  | none, some _, n => n
  | none, none, _ => none
  | some _, some _, some n => some n
  | some k, _, _ => some ((k + 1) % 512)

/-- A field of a source in TRACK: its counts, the wedge counter at the sample point, SC 552, and its sample (R212, R216 to
R218); a valid one keeps the adapted servo gain (R213). The wedge number predicted counts on by itself (log entry 102). -/
def State.trackField (s : State) (i h : Nat) (m : Member) (r : FieldRead) : State :=
  let a := actOf i
  let x := s.src i
  let fl := s.sampleFlags a h x r
  let wrong := r.sam.isSome && r.num != some x.wedge
  let s := s.modSlot i (fun y => { y with wc := nextWc y.wc r, cc := (scCell m.cells 1104).toNat, ahead := 0 })
  let s := s.putSrc i { x with missRun := if r.sam.isSome then 0 else x.missRun + 1
                               wrongRun := if wrong then x.wrongRun + 1 else 0
                               wedge := (x.wedge + 1) % 512, flags := fl }
  let s := s.deliverSample i h x.wedge fl r.pos
  if fl = 0 && (s.slot i).dataGain.isSome then s.put (Reg.SRV_SGAIN_GAIN a h) (s.get (Reg.CHN_FE_STATE_GAIN i 1)) else s

/-- What a field does to its source, by the source's state (Table SRV-2). -/
def State.fieldRead (s : State) (i h : Nat) (m : Member) (r : FieldRead) : State :=
  let x := s.src i
  match s.srcState i with
  | 1 =>
    match r.sam, r.num with
    | some _, some w => s.srcTo i { srcInit with head := some h, wedge := (w + 1) % 512 } 2
    | _, _ => s
  | 2 =>
    let x := { x with wedge := (x.wedge + 1) % 512, flags := s.sampleFlags (actOf i) h x r }
    if r.sam.isSome && r.num == some (s.src i).wedge then s.putSrc i { x with okRun := x.okRun + 1 }
    else s.srcTo i { x with okRun := 0 } 1
  | 3 => s.trackField i h m r
  | _ => s

/-- SERVO_FIELD (R206 to R217): a predicted servo field of a source is demodulated; while SG is 0 there are no samples of it
(07 R182). -/
def execServoField (slot : Fin 16) (field : ServoField) (s : State) : Res :=
  let i := slot.val
  .next (match (s.slot i).mem, (s.src i).head with
    | some m, some h =>
      if s.srcState i = 0 ∨ !s.clkOk (16 + actOf i) then s
      else
        let rd := fun (f : ServoField) => readField f m.cells (s.get (Reg.SRV_SCTL_SAM_THR (actOf i)))
          (s.get (Reg.SRV_SCTL_S_TARGET (actOf i))) (s.samWindow i)
        if s.servoSamples i m then ((s.servoStart i m field).fieldRead i h m (rd field)).servoEnd i m
        else s.fieldRead i h m (rd ⟨0, [], []⟩)
    | _, _ => s)

/-- SERVO_TRACK_ENTRY (R212): the second SAM in a row with the predicted wedge number. -/
def execServoTrackEntry (slot : Fin 16) (s : State) : Res :=
  let i := slot.val
  .next (if s.srcState i = 2 ∧ 2 ≤ (s.src i).okRun then
      s.srcTo i { s.src i with missRun := 0, wrongRun := 0, y1 := none, y2 := none } 3
    else s)

/-- SERVO_LOST (R212): LOST_CNT missed SAMs or two wrong wedge numbers in a row. -/
def execServoLost (slot : Fin 16) (s : State) : Res :=
  let i := slot.val; let a := actOf i
  .next (if s.srcState i = 3 ∧ (s.get (Reg.SRV_CTL_LOST_CNT a) ≤ (s.src i).missRun ∨ 2 ≤ (s.src i).wrongRun) then
      ((s.srcTo i { s.src i with okRun := 0 } 1).setBitOf (Reg.SRV_STATUS_LOST a) (locOf i)).raise 0x0301 i
    else s)

/-! ## The reference head (R221, R222) -/

/-- A SAM of the reference head stamped at `stamp` (1/256 tick): WEDGE_TICKS between SAMs of consecutive wedges; at W0 REV_TICKS,
where the last W0 SAM of the same head is one revolution back; a revolution that ends without that counts in REV_AGE. -/
def State.refTick (s : State) (stamp : Nat) : State :=
  match s.reference with
  | none => s
  | some (i, h) =>
    let wedge := ((s.src i).wedge + 511) % 512
    let r := s.refHead
    let s := match r.lastSam with
      | some (t, k) => s.when (wedge == (k + 1) % 512) (·.put Reg.SRV_WEDGE_TICKS_TICKS (stamp - t))
      | none => s
    let missed := match r.lastSam with
      | some (_, k) => decide (wedge < k) && wedge != 0
      | none => false
    let s := match wedge, r.lastW0 with
      | 0, some t => ((s.put Reg.SRV_REV_TICKS_TICKS (stamp - t)).put Reg.SRV_REF_STATUS_REV_AGE 0).put
          Reg.SRV_REF_STATUS_REV_OK 1
      | 0, none => s.inc Reg.SRV_REF_STATUS_REV_AGE
      | _, _ => s.when missed (·.inc Reg.SRV_REF_STATUS_REV_AGE)
    s.setRefHead ⟨some h, some (stamp, wedge), if wedge = 0 then some stamp else if missed then none else r.lastW0⟩

/-- REV_TICKS_AGED (R222): the held value is 16 revolutions old. -/
def execRevTicksAged (s : State) : Res :=
  .next ((s.put Reg.SRV_REF_STATUS_REV_OK 0).put Reg.SRV_REF_STATUS_REV_AGE
    (max 16 (s.get Reg.SRV_REF_STATUS_REV_AGE)))

/-- A write of SRV_SRC_j (R210, R224): checked, stored, and the slot's servo-only source follows it. -/
def State.srvSrc (s : State) (a j v : Nat) : State :=
  let rej := s.reject (Reg.SRV_CFG_STATUS_ERR a) (Reg.SRV_CFG_STATUS_CODE a)
  let h := bits v 19 16
  let i := 4 * a + j
  if 11 < h then rej 2
  else if hasBit v 31 && (List.range 4).any (fun k => k != j && s.flag (Reg.SRV_SRC_EN a k) &&
      s.get (Reg.SRV_SRC_HEAD a k) == h) then rej 4
  else if hasBit v 31 && !s.domOn (3 * i + 1) then rej 5
  else
    let s := ((s.put (Reg.SRV_SRC_EN a j) (bit v 31)).put (Reg.SRV_SRC_HEAD a j) h).put (Reg.SRV_SRC_HEATER a j) (bits v 7 0)
    match (s.slot i).mem with
    | some m =>
      if m.servoOnly && !(hasBit v 31 && m.head == h) then (s.dropMember i).resumeSrc i else s
    | none => s.resumeSrc i

/-- SERVO_SOURCE_ENABLE (R224, R210). -/
def execServoSourceEnable (act loc : Fin 4) (value : Word) (s : State) : Res :=
  .next (s.srvSrc act.val loc.val value.toNat)

end Sys2Proof.Machine
end

