-- ==== Sys2Proof/Machine/Spindle.lean ====
section
/-! DEFINITION. The power die (10): retract and drivers, spindle states, commutation and speed, braking and the VMOT
ladder, and the writes of its registers. -/

namespace Sys2Proof.Machine

/-- A rejection of the power die (Table SPN-10). -/
def State.mtrReject (s : State) (c : Nat) : State := s.reject Reg.MTR_CFG_STATUS_ERR Reg.MTR_CFG_STATUS_CODE c

/-- The spindle state (Table SPN-2). -/
def State.spin (s : State) : Nat := s.get Reg.MTR_SPN_STATUS_STATE

/-- The spindle is accelerating or braking (R262). -/
def State.spinBusy (s : State) : Bool := s.spin != 0 && s.spin != 5

/-! ## Retract (R277 to R279) -/

/-- The retract state of an actuator: 0 under command, 1 RETRACTING, 2 PARKED. -/
def State.retState (s : State) (a : Nat) : Nat := s.get Reg.MTR_RET_STATUS_STATE / 4 ^ a % 4

/-- That state changed. -/
def State.setRet (s : State) (a v : Nat) : State :=
  s.put Reg.MTR_RET_STATUS_STATE (s.get Reg.MTR_RET_STATUS_STATE + (v % 4) * 4 ^ a - s.retState a * 4 ^ a)

/-- A trigger of the retract of an actuator: cause bits accumulate; a retract that runs, or has parked the actuator,
is not restarted (R277, R279). -/
def State.retract (s : State) (a cause : Nat) : State :=
  if s.fitted a then
    let s := s.setBitOf Reg.MTR_RET_STATUS_CAUSE (4 * a + cause)
    if s.retState a = 0 then
      (((s.setRet a 1).inc Reg.MTR_RET_CNT_COUNT)).modSpn (fun p =>
        { p with drv := SMap.keep p.drv (fun k => !(decide (16 * a ≤ k) && decide (k < 16 * a + 12))) })
    else s
  else s

/-- A trigger for every actuator: all heads go to the ramp. -/
def State.retractAll (s : State) (cause : Nat) : State :=
  (s.each [0, 1, 2, 3] (fun s a => s.retract a cause)).modPwr (fun p => { p with headsLoaded := false })

/-- A trigger for every actuator that is not parked. -/
def State.retractUnparked (s : State) (cause : Nat) : State :=
  (s.each [0, 1, 2, 3] (fun s a => if s.retState a = 2 then s else s.retract a cause)).modPwr
    (fun p => { p with headsLoaded := false })

/-- RETRACT_CMD (R277): a write of MTR_RET_CMD. -/
def State.retCmd (s : State) (v : Nat) : State := s.each (maskBits 4 v) (fun s a => s.retract a 3)

def execRetractCmd (value : Word) (s : State) : Res := .next (s.retCmd value.toNat)

/-- RETRACT_DONE (R277): RET_TIME has passed; the bridge turns off and the actuator is PARKED. -/
def execRetractDone (act : Fin 4) (s : State) : Res :=
  .next (if s.retState act.val = 1 then (s.setRet act.val 2).setBitOf Reg.MTR_RET_STATUS_PARKED act.val else s)

/-- A write of MTR_RET_STATUS: each PARKED bit is judged on its own (R279). -/
def State.parkedClear (s : State) (v : Nat) : State :=
  s.each (maskBits 4 (bits v 11 8)) (fun s a =>
    if s.retState a = 1 || s.flag Reg.SPT_STATUS_FAIL then s.mtrReject 6
    else if s.retState a = 2 then
      ((s.setRet a 0).clrBitOf Reg.MTR_RET_STATUS_PARKED a).put Reg.MTR_RET_STATUS_CAUSE
        (s.get Reg.MTR_RET_STATUS_CAUSE - s.get Reg.MTR_RET_STATUS_CAUSE / 16 ^ a % 16 * 16 ^ a)
    else s)

/-- PARKED_CLEAR (R279). -/
def execParkedClear (value : Word) (s : State) : Res := .next (s.parkedClear value.toNat)

/-! ## Drivers (R274 to R276) -/

/-- A message of a lane enters the die-to-die lane. -/
def State.d2dSend (s : State) (lane output : Nat) (code : Int) : State :=
  s.modSpn (fun p => { p with d2d := p.d2d ++ [(lane, output, code)] })

/-- The messages that the power die takes, while its clock runs (02 R43). -/
def State.d2dRun (s : State) : List (Nat × Nat × Int) := if s.clkOk 32 then s.spn.d2d else []

/-- DRIVER_COMMAND (R274 to R276): the oldest message, a command, loads its driver register. -/
def execDriverCommand (s : State) : Res :=
  .next (match s.d2dRun with
    | (a, o, c) :: r =>
      if o = 13 then s
      else
        let s := s.modSpn (fun p => { p with d2d := r })
        if !s.fitted a || s.retState a != 0 || (o == 12 && !hasBit (s.get Reg.MTR_DRV_CTL_VCM_EN) a) then s
        else s.modSpn (fun p => { p with drv := SMap.put p.drv 0 (16 * a + o) c })
    | [] => s)

/-- STOP_MESSAGE (R251, R277): the oldest message, a STOP, retracts its actuator. -/
def execStopMessage (s : State) : Res :=
  .next (match s.d2dRun with
    | (a, o, _) :: r => if o = 13 then (s.modSpn (fun p => { p with d2d := r })).retract a 1 else s
    | [] => s)

/-- What a VCM bridge does (R274, R277): off; a coil current in mA / 32,768, from VCMa_P to VCMa_N where positive; or, while
the actuator retracts, a voltage across the coil in units of 50 mV towards the ramp at the outer or inner diameter. -/
inductive Coil where
  | off
  | current (c : Int)
  | volts (v : Nat) (outer : Bool)
  deriving DecidableEq, Repr

/-- FS_a in mA (Table SPN-15). -/
def fullScale (v a : Nat) : Int :=
  match v / 4 ^ a % 4 with
  | 0 => 500
  | 1 => 1000
  | 2 => 2000
  | _ => 2500

/-- The VCM bridge of an actuator; the drivers of one that is not fitted are off (01 R37). -/
def State.coil (s : State) (a : Nat) : Coil :=
  if !s.fitted a || s.retState a == 2 then .off
  else if s.retState a = 1 then .volts (s.get Reg.MTR_RET_CTL_RET_V) (s.flag Reg.MTR_RET_CTL_DIR_OD)
  else if hasBit (s.get Reg.MTR_DRV_CTL_VCM_EN) a then
    .current (SMap.get s.spn.drv 0 (16 * a + 12) * fullScale (s.get Reg.MTR_DRV_CTL_FS) a)
  else .off

/-- The code a micro output follows; 0 is Aa_MACOM (R275). -/
def State.microOut (s : State) (a h : Nat) : Int :=
  if s.fitted a && hasBit (s.get (Reg.MTR_MA_EN_EN a)) h && s.retState a == 0 then SMap.get s.spn.drv 0 (16 * a + h) else 0

/-- The voltage of Aa_MAhh in mV / 32,768 (R275): 12.0 V and 12.0 V × code / 32,768; none where the outputs of an actuator that
is not fitted are off (01 R37). Aa_MACOM is at 12.0 V. -/
def State.microVolts (s : State) (a h : Nat) : Option Int :=
  if s.fitted a then some (12000 * 32768 + 12000 * s.microOut a h) else none

/-! ## Speed (R267 to R269) -/

/-- A quotient whose rounding the spec does not state: rounded up or down by a free value. -/
def State.roundFree (s : State) (a b : Nat) : Nat := a / b + b2n (a % b != 0 && Config.freeUp s.free)

/-- Depth as DEPTH_MAX gives it, in 2^-32. -/
def State.depthMax (s : State) : Int := ((s.get Reg.MTR_SPN_LIMIT_DEPTH_MAX * 2 ^ 32 / 100 : Nat) : Int)

/-- The target moves towards SET.RPM at SLEW over `dt` (R268). -/
def State.slew (s : State) (dt : Nat) : State :=
  let rpm := s.get Reg.MTR_SPN_SET_RPM * 19200000000
  let d := s.get Reg.MTR_SPN_SET_SLEW * dt
  s.modSpn (fun q => { q with target := if q.target < rpm then min rpm (q.target + d) else max rpm (q.target - d) })

/-- The PI loop (R268): d follows the error between the target and the speed; the integrator stops in the direction that would
carry d beyond its limits. -/
def State.piLoop (s : State) : State :=
  let err : Int := (s.spn.target * 256 / 19200000000 : Nat) - (s.get Reg.MTR_SPN_SPEED_SPEED : Int)
  let p := (s.get Reg.MTR_SPN_REG_KP : Int) * err * 256
  let i := s.spn.integ + (s.get Reg.MTR_SPN_REG_KI : Int) * err
  let i := if (0 < err ∧ s.depthMax < p + i) ∨ (err < 0 ∧ p + i < 0) then s.spn.integ else i
  s.modSpn (fun q => { q with integ := i, depth := (clampInt 0 s.depthMax (p + i)).toNat })

/-- |speed − SET.RPM| ≤ n / 10,000 of SET.RPM. -/
def State.withinBand (s : State) (n : Nat) : Bool :=
  let set := s.get Reg.MTR_SPN_SET_RPM * 256
  decide (((s.get Reg.MTR_SPN_SPEED_SPEED : Int) - set).natAbs * 10000 ≤ n * set)

/-- A speed update (R267, R268): the register, the bands of AT_SPEED, and the loop in ACCEL and RUN. The first measurement lets
the servo-only sources that wait for it start (06 R154, 08 R210). -/
def State.speedUpdate (s : State) (num den : Nat) : State :=
  let v := min (s.roundFree num den) 0x1FFFFF
  let was := s.flag Reg.MTR_SPN_SPEED_VALID
  let s := ((s.draw 1).put Reg.MTR_SPN_SPEED_SPEED v).put Reg.MTR_SPN_SPEED_VALID 1
  let s := s.putB Reg.MTR_SPN_SPEED_DIR s.spn.dir
  let s := s.modSpn (fun p => { p with inRun := if s.withinBand 5 then p.inRun else 0
                                       outRun := if s.withinBand 20 then 0 else p.outRun, measured := v })
  let s := if s.spin = 4 ∨ s.spin = 5 then s.piLoop else s
  if was then s else s.each [0, 1, 2, 3] State.resumeAll

/-- The sum of a list. -/
def sumNat (l : List Nat) : Nat := l.foldl (· + ·) 0

/-- Speed from the last 24 step intervals, where there are 24 and wedges are not the source. -/
def State.zcSpeed (s : State) : State :=
  if s.spn.steps.length < 24 || s.flag Reg.MTR_SPN_STATUS_SRC || sumNat s.spn.steps == 0 then s
  else s.speedUpdate (60 * 19200000000 * 256) (sumNat s.spn.steps)

/-- Half the mean of the last six step intervals (R261). -/
def State.halfMean (s : State) : Nat := sumNat (s.spn.steps.take 6) / 12

/-- A measured speed that no loop follows: SENSE, PRE_BRAKE and the end of a brake. MTR_SPN_SPEED follows it once R267 has
given it a measurement. -/
def State.noteSpeed (s : State) (v : Nat) : State :=
  let s := s.modSpn (fun p => { p with measured := v })
  if s.flag Reg.MTR_SPN_SPEED_VALID then s.put Reg.MTR_SPN_SPEED_SPEED (min v 0x1FFFFF) else s

/-- The wedge ticks' part of speed (R267): `old` is the reference head's record before the tick. -/
def State.wedgeSpeed (s : State) (old : RefHead) : State :=
  match old.lastSam, s.refHead.lastSam with
  | some (t0, k0), some (t1, k1) =>
    if k1 = (k0 + 1) % 512 then
      let s := s.modSpn (fun p => { p with wedges := ((t1 - t0) :: p.wedges).take 32 })
      if s.spn.wedges.length = 32 ∧ 0 < sumNat s.spn.wedges then
        (s.put Reg.MTR_SPN_STATUS_SRC 1).speedUpdate (60 * 25000000 * 32 * 256 * 256) (512 * sumNat s.spn.wedges)
      else s
    else s
  | _, _ => s

/-- WEDGE_TICK (08 R221, R267): a SAM of the reference head, stamped in 1/256 tick. -/
def execWedgeTick (stamp : Nat) (s : State) : Res :=
  .next (match s.reference with
    | none => s
    | some _ => (s.refTick stamp).wedgeSpeed s.refHead)

/-- WEDGE_TICK_TIMEOUT (R267): no wedge tick for two wedge intervals; the next zero crossing gives the speed. -/
def execWedgeTickTimeout (s : State) : Res :=
  .next ((s.modSpn (fun p => { p with wedges := [] })).put Reg.MTR_SPN_STATUS_SRC 0)

/-! ## States (R262 to R266, R269, R270) -/

/-- A spindle state is entered. -/
def State.enterSpin (s : State) (v : Nat) : State := s.put Reg.MTR_SPN_STATUS_STATE v

/-- Every spindle switch off. -/
def State.switchesOff (s : State) : State :=
  s.modSpn (fun p => { p with step := 0, steps := [], zcAt := none, zcOk := 0, missRun := 0, since := 0, depth := 0,
                              inRun := 0, outRun := 0, brake := 3 })

/-- FAULT is entered with a cause: switches off, and every actuator not parked retracts (R277). -/
def State.spinFault (s : State) (cause event : Nat) : State :=
  let s := ((s.switchesOff.enterSpin 7).put Reg.MTR_SPN_STATUS_CAUSE cause).modSpn (fun p => { p with spinUp := false })
  ((s.put Reg.MTR_LADDER_SHORT 0).raise event cause).retractUnparked 3

/-- BRAKE is entered in a mode of Table SPN-4; a short brake of the ladder stays (Table SPN-5). -/
def State.brakeIn (s : State) (mode : Nat) : State :=
  (s.switchesOff.enterSpin 6).modSpn (fun p =>
    { p with spinUp := false, brake := if s.flag Reg.MTR_LADDER_SHORT then 2 else mode })

/-- SENSE is entered (R263). -/
def State.sense (s : State) : State := s.switchesOff.enterSpin 1

/-- START accepted: a new spin-up (R262, R263, R269). -/
def State.spinStart (s : State) : State :=
  ((s.sense.put Reg.MTR_SPN_STATUS_CAUSE 0).put Reg.MTR_LADDER_SHORT 0).modSpn (fun p =>
    { p with spinUp := true, fails := 0, dir := s.flag Reg.MTR_SPN_CTL_DIR })

/-- A write of MTR_SPN_CTL (Table SPN-8, R266, R280). -/
def State.spnCtl (s : State) (v : Nat) : State :=
  let cmd := bits v 1 0
  if cmd = 3 then s.mtrReject 2
  else if cmd = 1 ∧ (s.flag Reg.SPT_STATUS_FAIL ∨ (s.spin ≠ 0 ∧ s.spin ≠ 7)) then s.mtrReject 3
  else if bit v 8 ≠ s.get Reg.MTR_SPN_CTL_DIR ∧ 60 * 256 < s.spn.measured then s.mtrReject 4
  else
    let s := (s.put Reg.MTR_SPN_CTL_DIR (bit v 8)).put Reg.MTR_SPN_CTL_BRAKE_MODE (bits v 5 4)
    if cmd = 1 then s.spinStart
    else if cmd = 2 then s.brakeIn (if s.flag Reg.SPT_STATUS_FAIL then 0 else bits v 5 4)
    else s

/-- SPINDLE_START (R262, R263): a write of MTR_SPN_CTL with CMD 1. -/
def execSpindleStart (value : Word) (s : State) : Res := .next (s.spnCtl value.toNat)

/-- SPINDLE_STOP (R270): a write of MTR_SPN_CTL with CMD 2. -/
def execSpindleStop (value : Word) (s : State) : Res := .next (s.spnCtl value.toNat)

/-- ALIGN is entered: step 1 is driven (R265). -/
def State.align (s : State) : State :=
  (s.enterSpin 2).modSpn (fun p => { p with step := 1, brake := 3, steps := [], zcAt := none, zcOk := 0 })

/-- ACCEL is entered at a handover or a catch: the target is SET.RPM at once (R268). -/
def State.accel (s : State) : State :=
  (s.enterSpin 4).modSpn (fun p => { p with target := s.get Reg.MTR_SPN_SET_RPM * 19200000000, missRun := 0 })

/-- The start decision (R264) for a sensed speed in 1/256 rpm. -/
def startDecision (rest forward : Bool) (speed : Nat) : Nat :=
  if rest then 0 else if forward then (if 180 * 256 ≤ speed then 1 else 2) else if 60 * 256 < speed then 3 else 4

/-- SENSE_END (R263, R264): the back-EMF's amplitude, direction, speed and the step of its angle. -/
def execSenseEnd (lowAmplitude dir : Bool) (speed : Nat) (step : Fin 6) (s : State) : Res :=
  .next (if s.spin = 1 then
      let rest := lowAmplitude || decide (speed < 10 * 256)
      let d := startDecision rest (dir == s.spn.dir) speed
      let v := if rest then 0 else min speed 0x1FFFFF
      let s := (((s.put Reg.MTR_SENSE_DONE 1).putB Reg.MTR_SENSE_DIR dir).put Reg.MTR_SENSE_DECISION d).put
        Reg.MTR_SENSE_SPEED v
      let s := s.noteSpeed v
      if d = 1 then
        let t := 60 * 19200000000 * 256 / (24 * speed)
        s.accel.modSpn (fun p => { p with step := step.val + 1, steps := [t, t, t, t, t, t] })
      else if d = 2 ∨ d = 3 then (s.enterSpin 8).modSpn (fun p => { p with brake := 2 })
      else s.align
    else s)

/-- PRE_BRAKE_SAMPLE (R264): the speed measured each millisecond. -/
def execPreBrakeSample (speed : Nat) (s : State) : Res :=
  .next (if s.spin = 8 then
      let s := s.noteSpeed speed
      if (s.get Reg.MTR_SENSE_DECISION = 2 ∧ speed < 10 * 256) ∨
          (s.get Reg.MTR_SENSE_DECISION = 3 ∧ speed ≤ 60 * 256) then s.align else s
    else s)

/-- ALIGN_END (R265): RAMP starts from a step rate of 0. -/
def execAlignEnd (s : State) : Res :=
  .next (if s.spin = 2 then (s.enterSpin 3).modSpn (fun p => { p with rampN := 0, zcOk := 0, zcAt := none }) else s)

/-- When open-loop step `n` of RAMP begins, from its start (R265): at 10 × RAMP_RATE rpm/s, 24 steps a revolution, n steps have
passed after √(n / (2 × RAMP_RATE)) s; taken to the 5/96 ns below (log entry 33). -/
def State.rampTime (s : State) (n : Nat) : Nat :=
  isqrt (n * 19200000000 ^ 2 / (2 * s.get Reg.MTR_SPN_START_RAMP_RATE))

/-- The open-loop interval of the step that RAMP drives. -/
def State.rampStep (s : State) : Nat := s.rampTime (s.spn.rampN + 1) - s.rampTime s.spn.rampN

/-- RAMP has reached `rpm` by time `t` from its start. -/
def State.rampReached (s : State) (rpm t : Nat) : Bool :=
  decide (rpm * 19200000000 ≤ 10 * s.get Reg.MTR_SPN_START_RAMP_RATE * t)

/-- RAMP_LIMIT (R265): 240 rpm, reached within the step that is driven, without a handover; the second failure after one START
is a FAULT. -/
def execRampLimit (s : State) : Res :=
  .next (if s.spin = 3 ∧ s.rampReached 240 (s.rampTime (s.spn.rampN + 1)) then
      let s := s.modSpn (fun p => { p with fails := p.fails + 1 })
      if 2 ≤ s.spn.fails then s.spinFault 4 0x0503 else s.sense
    else s)

/-- HANDOVER (R265): six zero crossings in a row agree. -/
def execHandover (s : State) : Res := .next (if s.spin = 3 ∧ 6 ≤ s.spn.zcOk then s.accel else s)

/-- The expected zero crossing of a step rises (Table SPN-1; inverted with DIR = 1). -/
def risingEdge (dir : Bool) (step : Nat) : Bool := (step % 2 == 0) != dir

/-- The floating window is long enough for the comparator: two off intervals of a 96 kHz period, at least 1.2 µs (R260). -/
def floatWindowOk (depth : Nat) : Bool := decide (576 * 2 ^ 32 ≤ (2 ^ 32 - depth) * 10000)

/-- The first decision whose sign follows the expected edge, of those at or after `from_`, and its time interpolated linearly
between it and the decision before it, in the units of the decisions (R260, R261). A decision of 0 lies on the edge itself; where
the one before it has its sign already, the crossing is at the decision (log entry 33). -/
def crossingAt (rising : Bool) (from_ : Nat) : Option (Nat × Int) → List (Nat × Int) → Option Nat
  | _, [] => none
  | prev, (t, v) :: ds =>
    if from_ ≤ t ∧ (if rising then 0 ≤ v else v ≤ 0) then
      match prev with
      | some (t0, v0) =>
        if (if rising then v0 < 0 else 0 < v0) then some (t0 + (t - t0) * v0.natAbs / (v0.natAbs + v.natAbs)) else some t
      | none => some t
    else crossingAt rising from_ (some (t, v)) ds

/-- The step interval that is expected: the open-loop one in RAMP, and the mean of the last six after it. -/
def State.stepMean (s : State) : Nat := if s.spin = 3 then s.rampStep else 2 * s.halfMean

/-- ZERO_CROSSING (R260, R261, R265, R267): the comparator's decisions of this step so far, oldest first: the `times` at which its
periods end, from the step's begin, in 5 ns, and the `values` they have integrated. Those in the first 20 % of the step are ignored. In RAMP, from 180
rpm upward, the crossing is checked against the open-loop prediction, the middle of the step (log entry 33). -/
def execZeroCrossing (times : List Nat) (values : List Int) (s : State) : Res :=
  .next (if s.clkOk 32 ∧ (s.spin = 3 ∨ s.spin = 4 ∨ s.spin = 5) ∧ s.spn.zcAt = none ∧ floatWindowOk s.spn.depth then
      match crossingAt (risingEdge s.spn.dir s.spn.step) (ceilDiv s.stepMean 480) none (times.zip values) with
      | some time =>
        let t := 96 * time
        let checks := s.spin == 3 && s.rampReached 180 (s.rampTime s.spn.rampN)
        let agrees := decide ((2 * (t : Int) - s.rampStep).natAbs * 4 ≤ s.rampStep)
        let s := s.slew (s.spn.since + t)
        let s := s.modSpn (fun p =>
          { p with zcAt := some t, missRun := 0, zcOk := if checks then (if agrees then p.zcOk + 1 else 0) else p.zcOk })
        s.zcSpeed
      | none => s
    else s)

/-- The step that follows step `k` of Table SPN-1. -/
def stepAfter (dir : Bool) (k : Nat) : Nat := if dir then (if k ≤ 1 then 6 else k - 1) else k % 6 + 1

/-- A step ends after `t`: the next one of Table SPN-1 is driven. -/
def State.nextStep (s : State) (t : Nat) : State :=
  s.modSpn (fun p => { p with
    step := stepAfter p.dir p.step
    steps := (t :: p.steps).take 24
    since := match p.zcAt with | some z => t - z | none => p.since + t
    zcAt := none
    inRun := if s.withinBand 5 && s.flag Reg.MTR_SPN_SPEED_VALID then p.inRun + 1 else 0
    outRun := if s.withinBand 20 then 0 else p.outRun + 1 })

/-- COMMUTATION (R258, R261, R265) to the step that the direction gives next, numbered from 0: after a zero crossing by half the
mean of six intervals; in RAMP open-loop, as the step rate rises. There is no commutation to another step. -/
def execCommutation (step : Fin 6) (s : State) : Res :=
  .next (if !s.clkOk 32 || step.val + 1 != stepAfter s.spn.dir s.spn.step then s
    else if s.spin = 3 then (s.nextStep s.rampStep).modSpn (fun p => { p with rampN := p.rampN + 1 })
    else if s.spin = 4 ∨ s.spin = 5 then
      match s.spn.zcAt with
      | some z => s.nextStep (z + s.halfMean)
      | none => s
    else s)

/-- ZC_MISS (R261): a step without a zero crossing is commutated at twice the mean. -/
def execZcMiss (s : State) : Res :=
  .next (if (s.spin = 4 ∨ s.spin = 5) ∧ s.spn.zcAt = none then
      ((s.nextStep (4 * s.halfMean)).modSpn (fun p => { p with missRun := p.missRun + 1 })).inc Reg.MTR_ZC_MISS_COUNT
    else s)

/-- ZC_LOST (R261): three such steps in a row. -/
def execZcLost (s : State) : Res :=
  .next (if (s.spin = 4 ∨ s.spin = 5) ∧ 3 ≤ s.spn.missRun then s.spinFault 1 0x0503 else s)

/-- AT_SPEED (R268, R269): 16 revolutions within ±0.05 %. In Active the heads are then loaded (02 Table PWR-4, R65) [log 86]. -/
def execAtSpeed (s : State) : Res :=
  .next (if (s.spin = 4 ∨ s.spin = 5) ∧ 384 ≤ s.spn.inRun then
      (((s.put Reg.MTR_SPN_STATUS_AT_SPEED 1).enterSpin 5).modSpn (fun p => { p with spinUp := false })).modPwr
        (fun p => { p with headsLoaded := p.headsLoaded || p.dev == .active })
    else s)

/-- AT_SPEED_LOST (R268): 4 revolutions outside ±0.2 %; a spindle in RUN returns to ACCEL. -/
def execAtSpeedLost (s : State) : Res :=
  .next (if s.spin = 4 ∨ s.spin = 5 then
      if 96 ≤ s.spn.outRun then (s.put Reg.MTR_SPN_STATUS_AT_SPEED 0).enterSpin 4 else s
    else s.put Reg.MTR_SPN_STATUS_AT_SPEED 0)

/-- SPINUP_TIMEOUT (R269): TIMEOUT_S has passed since START without AT_SPEED. -/
def execSpinupTimeout (s : State) : Res := .next (if s.spn.spinUp then s.spinFault 2 0x0503 else s)

/-- A write of MTR_SPN_SET (Table SPN-11, R268): RUN with the set-point outside the AT_SPEED band becomes ACCEL. -/
def State.spnSet (s : State) (v : Nat) : State :=
  let rpm := bits v 12 0
  let slew := bits v 31 16
  if slew = 0 then s.mtrReject 1
  else if 2000 < slew ∨ rpm < 3600 ∨ 7200 < rpm then s.mtrReject 2
  else
    let s := s.when (rpm != s.get Reg.MTR_SPN_SET_RPM) (·.modSpn (fun p => { p with inRun := 0, outRun := 0 }))
    let s := (s.put Reg.MTR_SPN_SET_SLEW slew).put Reg.MTR_SPN_SET_RPM rpm
    if s.spin = 5 ∧ !s.withinBand 5 then (s.enterSpin 4).modSpn (fun p => { p with inRun := 0 }) else s

/-- d never exceeds DEPTH_MAX (R259). -/
def State.clampDepth (s : State) : State := s.modSpn (fun p => { p with depth := min p.depth s.depthMax.toNat })

/-! ## What the half-bridges do (R258, R259, R265, R270) -/

/-- A half-bridge: off, its high side chopped with the modulation depth, its low side on, or its low side on with the current
limited to a bound by turning it off for the rest of a 96 kHz period. -/
inductive Leg where
  | off
  | chopped
  | low
  | lowLimited
  /-- Rectifying synchronously into VMOT. -/
  | rectify
  deriving DecidableEq, Repr

/-- The high-side, low-side and floating phase of a commutation step (Table SPN-1): U 0, V 1, W 2. -/
def stepPhases : Nat → Nat × Nat × Nat
  | 1 => (0, 1, 2)
  | 2 => (0, 2, 1)
  | 3 => (1, 2, 0)
  | 4 => (1, 0, 2)
  | 5 => (2, 0, 1)
  | _ => (2, 1, 0)

/-- What the half-bridge of a phase does: the step driven, or the brake mode applied (Table SPN-4). -/
def State.leg (s : State) (phase : Nat) : Leg :=
  if s.spn.step ≠ 0 then
    let p := stepPhases s.spn.step
    if phase = p.1 then .chopped else if phase = p.2.1 then .low else .off
  else match s.spn.brake with
    | 0 | 1 => .rectify
    | 2 => .lowLimited
    | _ => .off

/-- The bound on the phase current in µA: ILIM cycle by cycle (R259), ALIGN_I in ALIGN and RAMP (R265), and BRK_I in a brake
(Table SPN-4), in mode 0 reduced above 12.9 V by an amount the spec does not give (log entry 103). -/
def State.phaseLimit (s : State) : Nat :=
  if s.spin = 2 ∨ s.spin = 3 then s.get Reg.MTR_SPN_START_ALIGN_I * 31250
  else if s.spn.step ≠ 0 then s.get Reg.MTR_SPN_LIMIT_ILIM * 31250
  else
    let b := s.get Reg.MTR_SPN_LIMIT_BRK_I * 31250
    if s.spn.brake = 0 ∧ 12900 < s.get Reg.MTR_VMOT_VMOT then min b (Config.brakeReduced b (s.get Reg.MTR_VMOT_VMOT)) else b

/-- The high side conducts at a place of the centre-aligned PWM period, given in 2^-32 of it, unless the current limit has been
reached in this period; the low sides carry the current while it is off (R259). -/
def State.highSideOn (s : State) (place : Nat) (limited : Bool) : Bool :=
  s.spn.step != 0 && !limited && decide ((2 * (place : Int) - 2 ^ 32).natAbs < s.spn.depth)

/-- Doze ends in Active (02 Table PWR-5): spin-up, the ring's mute request withdrawn, the host links widened, the domain requests
restored; the heads load once the spindle is at speed. -/
def State.fromDoze (s : State) : State :=
  let s := (s.when (s.spin == 0 && !s.flag Reg.SPT_STATUS_FAIL) State.spinStart).put Reg.RING_CTL_MUTE_REQ 0
  let s := ((s.linkWiden 0).linkWiden 1).restoreReqs
  s.setPwr { s.pwr with dev := .active, headsLoaded := s.flag Reg.MTR_SPN_STATUS_AT_SPEED }

/-- The spindle has stopped during the way to Doze: Doze, or Active where a media command arrived (02 R61). -/
def State.spunDown (s : State) : State :=
  if s.pwr.spinDown then
    let t := (s.setPwr { s.pwr with spinDown := false, spinCmd := false, dozing := false, dev := .doze }).withdraw s.dozeKeeps
    if s.pwr.spinCmd then t.fromDoze else t
  else s

/-- BRAKE_STOP (R270): the speed, in 1/256 rpm, is below 10 rpm. -/
def execBrakeStop (speed : Nat) (s : State) : Res :=
  .next (if s.spin = 6 ∧ speed < 10 * 256 then
      ((((s.switchesOff.enterSpin 0).put Reg.MTR_LADDER_SHORT 0).put Reg.MTR_SPN_STATUS_AT_SPEED 0).noteSpeed speed).spunDown
    else s)

/-! ## The motor bus and its ladder (R256, R257, R271 to R273); voltages in mV -/

/-- VMOT measured. -/
def State.vmot (s : State) (v : Nat) : State := s.put Reg.MTR_VMOT_VMOT (min v 0xFFFF)

/-- VIN measured. -/
def State.vin (s : State) (v : Nat) : State := s.put Reg.MTR_VMOT_VIN (min v 0xFFFF)

/-- CHOPPER_ON (R271, R273): VMOT at or above 13.2 V. -/
def execChopperOn (vmot : Nat) (s : State) : Res :=
  let s := s.vmot vmot
  .next (if 13200 ≤ vmot && !s.flag Reg.MTR_LADDER_CHOP && !s.flag Reg.MTR_LADDER_CHOP_FAULT &&
      !s.flag Reg.MTR_LADDER_VIN_HIGH then
      ((s.put Reg.MTR_LADDER_CHOP 1).inc Reg.MTR_CHOP_CNT_COUNT).modSpn (fun p => { p with vmotOn := vmot })
    else s)

/-- CHOPPER_OFF (R271): VMOT below 12.8 V. -/
def execChopperOff (vmot : Nat) (s : State) : Res :=
  let s := s.vmot vmot
  .next (if vmot < 12800 then s.put Reg.MTR_LADDER_CHOP 0 else s)

/-- A chopper fault is declared unless one is latched (R272). -/
def State.chopFault (s : State) (cause : Nat) : State :=
  if s.flag Reg.MTR_LADDER_CHOP_FAULT then s
  else (((s.put Reg.MTR_LADDER_CHOP_FAULT 1).put Reg.MTR_LADDER_CF_CAUSE cause).put Reg.MTR_LADDER_CHOP 0).raise 0x0501 cause

/-- CHOPPER_FAULT (R272): the chopper current in mA 2 µs after chopper-on, or VMOT in mV 50 µs after it (`late`). -/
def execChopperFault (late : Bool) (measured : Nat) (s : State) : Res :=
  .next (if s.flag Reg.MTR_LADDER_CHOP then
      if late then (if s.spn.vmotOn < measured then (s.vmot measured).chopFault 2 else s.vmot measured)
      else if measured < 1000 then s.chopFault 1 else s
    else s)

/-- LADDER_SHORT_BRAKE (R271, R272): VMOT at or above 13.8 V. -/
def execLadderShortBrake (vmot : Nat) (s : State) : Res :=
  let s := s.vmot vmot
  .next (if 13800 ≤ vmot then
      let s := s.chopFault 3
      if s.spin = 0 ∨ s.spin = 7 then s else (s.put Reg.MTR_LADDER_SHORT 1).brakeIn 2
    else s)

/-- OVP (R271, R277): VMOT reaches 14.4 V, also while OVP is still latched. -/
def execOvp (vmot : Nat) (s : State) : Res :=
  let s := s.vmot vmot
  .next (if 14400 ≤ vmot then
      (((s.put Reg.MTR_LADDER_OVP 1).put Reg.MTR_LADDER_CHOP 0).inc Reg.MTR_OVP_CNT_COUNT).spinFault 3 0x0502
    else s)

/-- A write of MTR_LADDER (Table SPN-14, R272). -/
def State.ladderWrite (s : State) (v : Nat) : State :=
  if (hasBit v 31 && s.flag Reg.MTR_LADDER_OVP && decide (12800 ≤ s.get Reg.MTR_VMOT_VMOT)) ||
      (hasBit v 30 && s.flag Reg.MTR_LADDER_CHOP_FAULT && s.spin != 0) then s.mtrReject 5
  else
    let s := s.when (hasBit v 31) (·.put Reg.MTR_LADDER_OVP 0)
    s.when (hasBit v 30) (fun s => (s.put Reg.MTR_LADDER_CHOP_FAULT 0).put Reg.MTR_LADDER_CF_CAUSE 0)

/-- VMOT_SWITCH_OPEN (R256). -/
def execVmotSwitchOpen (vin vmot : Nat) (s : State) : Res :=
  .next (((s.vin vin).vmot vmot).modSpn (fun p =>
    { p with switchOpen := p.switchOpen || decide (vin + 200 < vmot) || decide (vin ≤ 10400)
             vinFailed := p.vinFailed || decide (vin ≤ 10400) }))

/-- VMOT_SWITCH_CLOSE (R256): VIN exceeds VMOT by 0.1 V; not between a VIN fail and the next device reset. -/
def execVmotSwitchClose (vin vmot : Nat) (s : State) : Res :=
  .next (((s.vin vin).vmot vmot).modSpn (fun p =>
    { p with switchOpen := p.switchOpen && (p.vinFailed || decide (vin ≤ vmot + 100)) }))

/-- VIN_HIGH (R257): VIN above 13.2 V holds the chopper off. -/
def execVinHigh (vin : Nat) (s : State) : Res :=
  let s := s.vin vin
  .next (if 13200 < vin then (s.put Reg.MTR_LADDER_VIN_HIGH 1).put Reg.MTR_LADDER_CHOP 0 else s)

/-- VIN_HIGH_RELEASE (R257): VIN is not above 13.2 V any more. -/
def execVinHighRelease (vin : Nat) (s : State) : Res :=
  let s := s.vin vin
  .next (if vin ≤ 13200 then s.put Reg.MTR_LADDER_VIN_HIGH 0 else s)

end Sys2Proof.Machine
end

