-- ==== Sys2Proof/Machine/Control.lean ====
section
/-! DEFINITION. The control engine (09): micro and VCM jobs, coefficients and banks, the harmonic learner, phases and
seeks, following error, the PES source, compare faults, and the writes of its registers. -/

namespace Sys2Proof.Machine

/-- A rejection of a lane (Table CTL-9). -/
def State.ctlReject (s : State) (a c : Nat) : State :=
  s.reject (Reg.CTL_CFG_STATUS_ERR a) (Reg.CTL_CFG_STATUS_CODE a) c

/-- PHASE of a lane (Table CTL-8): 0 OFF, 1 SEEK, 2 SETTLE, 3 TRACK, 4 LOST, 5 FAULT. -/
def State.phase (s : State) (a : Nat) : Nat := s.get (Reg.CTL_LANE_STATUS_PHASE a)

/-- SEEK, SETTLE or TRACK. -/
def State.laneRuns (s : State) (a : Nat) : Bool := s.clkOk 20 && (s.phase a == 1 || s.phase a == 2 || s.phase a == 3)

/-- A field that acts at the next boundary is about to be written: its value stays in use until then; while PHASE is
OFF the write acts at once. -/
def State.holdOld (s : State) (a : Nat) (F : Field) : State :=
  if s.phase a = 0 then s
  else s.modLane a (fun l => if (SMap.look l.old F.key).isSome then l else { l with old := SMap.set l.old F.key (s.get F) })

/-! ## The PES source (R249) -/

/-- The PES source of an actuator is raised. -/
def State.pesUp (s : State) (a : Nat) : Bool := hasBit s.pesSrc a || s.phase a != 3

/-- The PES source rises. -/
def State.pesRaise (s : State) (a : Nat) : State :=
  let up := s.pesUp a
  let s := s.setPesSrc (setBit s.pesSrc a)
  if up then s else (s.inc (Reg.CTL_WU_CNT_COUNT a)).riseSource 0 (slotsOf a)

/-! ## The two copies of a lane (R225, R226) -/

/-- The main copy. -/
def Lane.main (l : Lane) : LaneCopy := ⟨l.coef, l.live, l.micro, l.vcm, l.integ⟩

/-- The lane with another main copy. -/
def Lane.withMain (l : Lane) (c : LaneCopy) : Lane :=
  { l with coef := c.coef, live := c.live, micro := c.micro, vcm := c.vcm, integ := c.integ }

/-- The lane as the checker copy runs it. -/
def Lane.checker (l : Lane) : Lane := l.withMain l.chk

/-- Both copies changed in the same way: every register write and every sample reaches both. -/
def Lane.both (l : Lane) (g : LaneCopy → LaneCopy) : Lane := { l.withMain (g l.main) with chk := g l.chk }

/-- The filter states of the copies agree. -/
def Lane.statesAgree (l : Lane) : Bool := l.micro == l.chk.micro && l.vcm == l.chk.vcm && l.integ == l.chk.integ

/-- The coefficient stores of the copies agree. -/
def Lane.coefsAgree (l : Lane) : Bool := l.coef == l.chk.coef && l.live == l.chk.live

/-- Bits of a signed value inverted. -/
def flipSigned (w : Nat) (v : Int) (mask : Nat) : Int := toSigned w (ofSigned w v ^^^ mask % 2 ^ w)

/-- An upset in what the main copy stores. -/
def Lane.upset (l : Lane) : LaneUpset → Lane
  | .state k m =>
    if k < 192 then { l with micro := SMap.put l.micro 0 k (flipSigned 48 (SMap.get l.micro 0 k) m) }
    else if k < 216 then { l with vcm := SMap.put l.vcm 0 (k - 192) (flipSigned 48 (SMap.get l.vcm 0 (k - 192)) m) }
    else { l with integ := flipSigned 48 l.integ m }
  | .coef o m => { l with coef := SMap.put l.coef 0 o (SMap.get l.coef 0 o ^^^ m % 2 ^ 32) }
  | .message _ | .writeBack _ => l

/-- The bits of the main copy's output message, and of its learner write-back, that an upset inverts. -/
def messageFlip : Option LaneUpset → Nat
  | some (.message m) => m % 2 ^ 16
  | _ => 0
def writeBackFlip : Option LaneUpset → Nat
  | some (.writeBack m) => m % 2 ^ 32
  | _ => 0

/-- A phase is entered: any but TRACK raises the PES source; SETTLE starts the micro loops from zero (R234). -/
def State.enterPhase (s : State) (a v : Nat) : State :=
  let s := if v = 3 then s else s.pesRaise a
  let s := s.put (Reg.CTL_LANE_STATUS_PHASE a) v
  if v = 2 then s.modLane a (fun l => { l.both (fun c => { c with micro := [] }) with settle := 0 }) else s

/-! ## Fixed point (R238, R239) -/

/-- A coefficient in use, signed Q3.28. -/
def Lane.c (l : Lane) (ofs : Nat) : Int := toSigned 32 (SMap.get l.live 0 ofs)

/-- A state update: rounded to 16 fractional bits and saturated to 48 bits; the flag counts a saturation. -/
def fixed (v : Int) : Int × Nat :=
  let r := rdiv v (2 ^ 28)
  (satSigned 48 r, b2n (satSigned 48 r != r))

/-- One biquad in transposed direct form II: output, s1, s2, saturations (R238). -/
def biquad (b0 b1 b2 a1 a2 s1 s2 x : Int) : Int × Int × Int × Nat :=
  let y := fixed (b0 * x + s1 * 2 ^ 28)
  let t1 := fixed (b1 * x - a1 * y.1 + s2 * 2 ^ 28)
  let t2 := fixed (b2 * x - a2 * y.1)
  (y.1, t1.1, t2.1, y.2 + t1.2 + t2.2)

/-- A chain of `n` biquads with coefficients from offset `base` and states from key `k`: output, states,
saturations (R230). -/
def chain (l : Lane) (base k : Nat) (st : SMap Int) (x : Int) : Nat → Int × SMap Int × Nat
  | 0 => (x, st, 0)
  | n + 1 =>
    let r := chain l base k st x n
    let o := base + 0x20 * n
    let b := biquad (l.c o) (l.c (o + 4)) (l.c (o + 8)) (l.c (o + 12)) (l.c (o + 16))
      (SMap.get r.2.1 0 (k + 2 * n)) (SMap.get r.2.1 0 (k + 2 * n + 1)) r.1
    (b.1, SMap.put (SMap.put r.2.1 0 (k + 2 * n) b.2.1) 0 (k + 2 * n + 1) b.2.2.1, r.2.2 + b.2.2.2)

/-! ## Banks and the boundary (R231, R239 to R241) -/

/-- The words of a bank, by offset in it. -/
def LaneCopy.bank (l : LaneCopy) (b : Nat) : SMap Nat :=
  (l.coef.filter (fun e => e.1 / 0x1000 == 2 + b)).map (fun e => (e.1 % 0x1000, e.2))

/-- Everything pending takes effect: coefficients, a bank switch, registers, a seek (R231). -/
def State.boundary (s : State) (a : Nat) : State :=
  let l := s.lane a
  let s := match l.sw with
    | some (b, clr) =>
      ((s.put (Reg.CTL_LANE_STATUS_BANK a) b).put (Reg.CTL_BANK_SEL_PENDING a) 0).modLane a (fun l =>
        if clr then { l.both (fun c => { c with micro := [], vcm := [], integ := 0 }) with sw := none }
        else { l with sw := none })
    | none => s
  let s := s.modLane a (fun l =>
    { l.both (fun c => { c with live := c.bank (s.get (Reg.CTL_LANE_STATUS_BANK a)) }) with old := [], go := none, bound := true })
  match l.go with
  | some x => if s.laneRuns a then (s.modLane a (fun l => { l with xtarget := x })).enterPhase a 1 else s
  | none => s

/-- While PHASE is OFF a change takes effect as soon as it lands (R231). -/
def State.landed (s : State) (a : Nat) : State := if s.phase a = 0 then s.boundary a else s

/-- A write of CTL_BANK_SEL (R241). -/
def State.bankSel (s : State) (a v : Nat) : State :=
  (((s.put (Reg.CTL_BANK_SEL_BANK a) (bit v 0)).put (Reg.CTL_BANK_SEL_PENDING a) 1).modLane a (fun l =>
    { l with sw := some (bit v 0, hasBit v 1) })).landed a

/-- BANK_SEL_WRITE (R241). -/
def execBankSelWrite (act : Fin 4) (value : Word) (s : State) : Res := .next (s.bankSel act.val value.toNat)

/-- The defined bits of a coefficient word by its offset in the bank (Table CTL-15). -/
def coefMask (o : Nat) : Nat :=
  if o % 4 ≠ 0 then 0
  else if o < 0xD80 then (if o % 0x20 < 0x14 then 0xFFFFFFFF else 0)
  else if o < 0xD90 then 0xFFFFFFFF
  else if o = 0xD90 then 0xFFFF
  else if o = 0xD94 then 1
  else if (0xE00 ≤ o ∧ o < 0xE30) ∨ (0xE40 ≤ o ∧ o < 0xE70) then 0xFFFFFFFF
  else 0

/-- A write of a coefficient word at its offset in the lane (R239, R240, R255). -/
def State.coefWrite (s : State) (a o v : Nat) : State :=
  if o < 0x2000 ∨ 0x4000 ≤ o then s
  else if o % 0x1000 = 0xD88 ∧ 2 ^ 28 < v then s.ctlReject a 2
  else (s.modLane a (·.both (fun c => { c with coef := SMap.put c.coef 0 o (v &&& coefMask (o % 0x1000)) }))).landed a

/-- COEFFICIENT_WRITE (R240). -/
def execCoefficientWrite (act : Fin 4) (offset : Nat) (value : Word) (s : State) : Res :=
  .next (s.coefWrite act.val offset value.toNat)

/-! ## The harmonic learner (R243 to R245) -/

/-- A learner word as a job reads it: an uncorrectable one reads 0 (R243). -/
def State.learnerRead (s : State) (a k : Nat) : Nat × State :=
  let w := SMap.get (s.lane a).learner 0 k
  match s.sramFlips (16 + a) k with
  | 0 => (w, s)
  | 1 => (w, (s.sramRead (16 + a) k).2.put (Reg.CTL_LRN_ERR_CE a) 1)
  | _ =>
    let s := (s.sramRead (16 + a) k).2
    let s := if s.flag (Reg.CTL_LRN_ERR_UE a) then s
      else (s.put (Reg.CTL_LRN_ERR_UE a) 1).put (Reg.CTL_LRN_ERR_ADDR a) k
    (0, s.raise 0x0405 a)

/-- A learner word written; that clears its error. -/
def State.learnerWrite (s : State) (a k v : Nat) : State :=
  (s.sramRewrite (16 + a) k).modLane a (fun l => { l with learner := SMap.put l.learner 0 k v })

/-- The learner's write-back (R244): sample at wedge `k`, e after subtraction of L1. The comparator checks it first (R226): where
`flip` inverts bits of the main copy's, nothing is written. -/
def State.learn (s : State) (a h k : Nat) (e : Int) (flip : Nat) : State :=
  let j := (k + 512 - s.eff a (Reg.CTL_LRN_CTL_LEAD_W a)) % 512
  let one := s.eff a (Reg.CTL_LRN_CTL_LEARN a) == 1
  let r := s.learnerRead a (512 * h + j)
  let old := if one then toSigned 16 (bits r.1 15 0) else toSigned 16 (bits r.1 31 16)
  let delta := rdiv (s.eff a (Reg.CTL_LRN_CTL_GAIN a) * e) 65536
  let leak := s.eff a (Reg.CTL_LRN_CTL_LEAK a)
  let delta := if 0 < leak then delta - Int.fdiv old (2 ^ leak) else delta
  let new := ofSigned 16 (satSigned 16 (old + delta))
  if flip ≠ 0 then r.2
  else r.2.learnerWrite a (512 * h + j) (if one then bits r.1 31 16 * 65536 + new else new * 65536 + bits r.1 15 0)

/-- A firmware access of CTL_LRN_DATA; an uncorrectable word reads a free value (R245). -/
def State.learnerData (s : State) (a : Nat) (w : Option Nat) : State :=
  let k := 512 * s.get (Reg.CTL_LRN_ADDR_HEAD a) + s.get (Reg.CTL_LRN_ADDR_WEDGE a)
  let s := match w with
    | some v => s.learnerWrite a k v
    | none =>
      if 1 < s.sramFlips (16 + a) k then
        ((s.learnerRead a k).2.answer (.data (Config.freeValue s.free % 2 ^ 32))).draw 1
      else (s.learnerRead a k).2.answer (.data (s.learnerRead a k).1)
  let n := (k + 1) % 6144
  (s.put (Reg.CTL_LRN_ADDR_HEAD a) (n / 512)).put (Reg.CTL_LRN_ADDR_WEDGE a) (n % 512)

/-- LEARNER_DATA_ACCESS (R245): a write of the given word, or a read. -/
def execLearnerDataAccess (act : Fin 4) (write : Option Word) (s : State) : Res :=
  .next (s.learnerData act.val (write.map BitVec.toNat))

/-! ## The micro job (R232 to R234) -/

/-- A mismatch of the lane's copies (R251). -/
def State.compareFault (s : State) (a src : Nat) : State :=
  let s := ((s.put (Reg.CTL_LANE_STATUS_CMP a) 1).put (Reg.CTL_LANE_STATUS_CMP_SRC a) src).enterPhase a 5
  let s := s.setCmpSrc (setBit s.cmpSrc a)
  ((((s.d2dSend a 13 0).emit (.laneStop a)).riseSource 8 (slotsOf a)).emit (.rtInterrupt 4)).raise 0x0404 a

/-- The filter part of a micro job in one copy: command before the limiter, states, saturations. The input is a filter signal of
48 bits (R238). -/
def microFilter (l : Lane) (h : Nat) (e l0 : Int) : Int × SMap Int × Nat :=
  let r := chain l (0x100 * h) (16 * h) l.micro (satSigned 48 (e * 65536)) 8
  (rdiv (l.c (0xE00 + 4 * h) * (r.1 + l0 * 65536)) (2 ^ 44), r.2.1, r.2.2)

/-- What one copy makes of a micro job: the command before and after the limiter, its states, saturations. In SEEK the command
and the states are 0 (R234); a held head's chain runs on, and its command stays (R233). -/
def microCopy (l : Lane) (seek : Bool) (h : Nat) (e l0 lim : Int) : Int × Int × SMap Int × Nat :=
  if seek then (0, 0, l.micro.filter (fun p => p.1 / 16 != h), 0)
  else
    let f := microFilter l h e l0
    let v := if hasBit l.heldHeads h then SMap.get l.u 0 h else f.1
    (v, clampInt (-lim) lim v, f.2.1, f.2.2)

/-- The micro job of a sample in SEEK, SETTLE or TRACK, with an upset in the main copy where there is one: the write-back, the
message and the states of both copies are compared, and the message is released where all agree (R226, R229). -/
def State.microJob (s : State) (a : Nat) (m : Sample) (up : Option LaneUpset) : State :=
  let h := m.head; let j := locOf m.slot; let ph := s.phase a
  let valid := decide (m.flags = 0)
  let ref := s.sampleRef a m
  let r := s.learnerRead a (512 * h + m.wedge % 512)
  let s := r.2
  let applies := ph != 1
  let l0 : Int := if applies && s.eff a (Reg.CTL_LRN_CTL_APPLY0 a) == 1 then toSigned 16 (bits r.1 15 0) else 0
  let l1 : Int := if applies && s.eff a (Reg.CTL_LRN_CTL_APPLY1 a) == 1 then toSigned 16 (bits r.1 31 16) else 0
  let e := if valid then ref.1 - m.y - l1 else SMap.get (s.lane a).eLast 0 h
  let s := s.modLane a (fun l =>
    if valid then { l with eLast := SMap.put l.eLast 0 h e, inv := SMap.put l.inv 0 h 0, heldHeads := clrBit l.heldHeads h }
    else { l with inv := SMap.upd l.inv 0 h (· + 1) })
  let s := (s.putB (Reg.CTL_EH_VALID a j) valid).put (Reg.CTL_EH_EH a j) (ofSigned 24 (satSigned 24 e))
  let learns := s.eff a (Reg.CTL_LRN_CTL_LEARN a)
  let learnt := ph == 3 && valid && hasBit (s.get (Reg.CTL_LRN_HEADS_MASK a)) h && (learns == 1 || learns == 2)
  let s := if learnt then s.learn a h m.wedge e (writeBackFlip up) else s
  let bad := !valid || decide (s.eff a (Reg.CTL_WU_THR a) < e.natAbs)
  let s := if bad then (s.pesRaise a).modLane a (fun l => { l with clean := 0, dirty := true }) else s
  let lim : Int := s.eff a (Reg.CTL_LIMITS_MA_LIM a)
  let f := microCopy (s.lane a) (ph == 1) h e l0 lim
  let g := microCopy (s.lane a).checker (ph == 1) h e l0 lim
  let sent := flipSigned 16 f.2.1 (messageFlip up)
  let s := s.incBy (Reg.CTL_SAT_COUNT a) (f.2.2.2 + b2n (f.2.1 != f.1))
  let s := s.modLane a (fun l =>
    { l with micro := f.2.2.1, chk := { l.chk with micro := g.2.2.1 }, u := SMap.put l.u 0 h f.2.1, bound := false
             recs := (if m.inGroup then SMap.upd l.recs [] (512 * (h % 2) + m.wedge % 512)
               (· ++ [⟨h, valid && !hasBit l.heldHeads h, e, m.y, f.2.1, ref.2⟩]) else l.recs) })
  if learnt && writeBackFlip up != 0 then s.compareFault a 1
  else if sent ≠ g.2.1 then s.compareFault a 0
  else if !(s.lane a).statesAgree then s.compareFault a 1
  else s.d2dSend a h f.2.1

/-! ## The VCM job (R235, R236, R247, R248) -/

/-- The reference generator's next x_ref, v, a_ref, and whether the target is reached (R247). -/
def seekStep (xref xtarget v dmax amax vmax : Int) : Int × Int × Int × Bool :=
  let r := xtarget - xref
  let dir : Int := if 0 ≤ r then 1 else -1
  let s := v * dir
  let s := if s < 0 then min (s + dmax) 0
    else max (min (min (s + amax) vmax) (isqrt (2 * dmax * r.natAbs).toNat : Int)) (s - dmax)
  if 0 ≤ s ∧ (r.natAbs : Int) ≤ s then (xtarget, 0, -v, true) else (xref + s * dir, s * dir, s * dir - v, false)

/-- The mean of X_h over the valid heads of a group (R235). -/
def groupMean (l : Lane) (rs : List JobRec) : Option Int :=
  let vs := rs.filter (·.valid)
  if vs.isEmpty then none
  else some (rdiv (sumInt (vs.map (fun r => (r.y - r.off) * 2 ^ 28 - l.c (0xE40 + 4 * r.head) * r.u)))
    ((vs.length : Int) * 2 ^ 28))

/-- The counts of a closed group (R246, R248, R249). -/
def State.groupCounts (s : State) (a : Nat) (ph : Nat) (rs : List JobRec) (ev : Int) : State :=
  let win := s.eff a (Reg.CTL_SETTLE_WIN a)
  let thr := s.eff a (Reg.CTL_WU_THR a)
  let beyond := decide (s.eff a (Reg.CTL_FE_LIMIT_LIMIT a) < ev.natAbs)
  let settled := decide (ev.natAbs ≤ win) && rs.all (fun r => !r.valid || decide (r.e.natAbs ≤ win))
  let clean := !(s.lane a).dirty && rs.all (fun r => r.valid && decide (r.e.natAbs ≤ thr))
  s.modLane a (fun l => { l with
    settle := if ph = 2 ∧ settled then l.settle + 1 else 0
    fe := if beyond then l.fe + 1 else 0
    feDue := l.feDue || (beyond && l.fe + 1 == s.eff a (Reg.CTL_FE_TIMER_TIMER a))
    empty := if rs.any (·.valid) then 0 else l.empty + 1
    clean := if clean then l.clean + 1 else 0, dirty := false })

/-- TRACK sources of both parities (SRV_STATUS.STAGGER, 08 R218). -/
def State.stagger (s : State) (a : Nat) : Bool :=
  let par := fun p => (slotsOf a).any (fun k => s.srcState k == 3 &&
    (match (s.src k).head with | some h => h % 2 == p | none => false))
  par 0 && par 1

/-- What one copy makes of a VCM job: X_ref, X_target and the reference's v, a_ref and whether the target is reached; e_v; the
VCM states; the command before and after the limiter; the integrator; saturations. -/
structure VcmOut where
  xref : Int
  xtarget : Int
  v : Int
  aref : Int
  reached : Bool
  ev : Int
  vcm : SMap Int
  u : Int
  us : Int
  integ : Int
  sats : Nat
  fresh : Bool

/-- A VCM job in one copy (R235, R236, R247). -/
def State.vcmCopy (s : State) (a : Nat) (l : Lane) (rs : List JobRec) : VcmOut :=
  let mean := groupMean l rs
  let x0 := match l.fresh, mean with | true, some m => (m, m, false) | b, _ => (l.xref, l.xtarget, b)
  let g := if s.phase a = 1 then seekStep x0.1 x0.2.1 l.v (s.get (Reg.CTL_SEEK_ACC_DMAX a)) (s.get (Reg.CTL_SEEK_ACC_AMAX a))
      (s.get (Reg.CTL_SEEK_VMAX_VMAX a)) else (x0.1, l.v, 0, false)
  let ev := match mean with | some m => g.1 - m | none => l.ev
  let c := chain l 0xC00 0 l.vcm (satSigned 48 (ev * 65536)) 12
  let bias := toSigned 16 (SMap.get l.live 0 0xD90)
  let u := rdiv (l.c 0xD80 * c.1 + l.integ * 2 ^ 28 + l.c 0xD8C * g.2.2.1 * 65536 + bias * 2 ^ 44) (2 ^ 44)
  let lim : Int := s.eff a (Reg.CTL_LIMITS_VCM_LIM a)
  let us := clampInt (-lim) lim u
  { xref := g.1, xtarget := x0.2.1, v := g.2.1, aref := g.2.2.1, reached := g.2.2.2, ev := ev, vcm := c.2.1, u := u, us := us
    integ := satSigned 48 (rdiv (l.integ * 2 ^ 28 + l.c 0xD84 * c.1 + l.c 0xD88 * ((us - u) * 65536)) (2 ^ 28))
    sats := c.2.2, fresh := x0.2.2 }

/-- The VCM job of a closed group, its limiter stage with the comparison of the copies, and the group boundary. -/
def State.vcmJob (s : State) (a key : Nat) : State :=
  let ph := s.phase a
  let rs := SMap.get (s.lane a).recs [] key
  let o := s.vcmCopy a (s.lane a) rs
  let c := s.vcmCopy a (s.lane a).checker rs
  let s := s.modLane a (fun l => { l with
    xref := o.xref, xtarget := o.xtarget, v := o.v, aref := o.aref, fresh := o.fresh, ev := o.ev, vcm := o.vcm, integ := o.integ
    chk := { l.chk with vcm := c.vcm, integ := c.integ }, recs := SMap.put l.recs [] key [] })
  let s := (s.put (Reg.CTL_EV_EV a) (ofSigned 32 (satSigned 32 o.ev))).incBy (Reg.CTL_SAT_COUNT a) (o.sats + b2n (o.us != o.u))
  if o.us ≠ c.us then s.compareFault a 0
  else if !(s.lane a).statesAgree then s.compareFault a 1
  else
    let s := if hasBit (SMap.get (s.lane a).live 0 0xD94) 0 == s.stagger a then s else s.put (Reg.CTL_LANE_STATUS_RATE_ERR a) 1
    let s := if o.reached then s.enterPhase a 2 else s
    ((s.groupCounts a ph rs o.ev).d2dSend a 12 o.us).boundary a

/-- The lane takes its oldest sample; the sample that closes a group is followed by the group's VCM job (R228 to R236). -/
def State.laneJob (s : State) (a : Nat) (up : Option LaneUpset) : State :=
  match SMap.get s.laneIn [] a with
  | m :: r =>
    let s := s.setLaneIn (SMap.put s.laneIn [] a r)
    let s := if m.flags = 0 then s else s.inc (Reg.CTL_INVALID_COUNT a)
    let s := if s.laneRuns a then s.microJob a m up else s
    if m.closes then
      let s := s.inc (Reg.CTL_GROUPS_COUNT a)
      if s.laneRuns a then s.vcmJob a (512 * (m.head % 2) + m.wedge % 512) else s
    else s
  | [] => s

/-- MICRO_JOB (R228 to R236); none while the control engine's clock is stopped (02 R43). -/
def execMicroJob (act : Fin 4) (s : State) : Res := .next (s.when (s.clkOk 20) (·.laneJob act.val none))

/-! ## Phases (R233, R246 to R249) -/

/-- HEAD_HELD (R233): INV_MAX invalid samples in a row hold the head's command; an event names it. -/
def execHeadHeld (act : Fin 4) (head : Fin 12) (s : State) : Res :=
  let a := act.val; let h := head.val
  .next (if s.laneRuns a ∧ s.eff a (Reg.CTL_WU_INV_MAX a) ≤ SMap.get (s.lane a).inv 0 h ∧ !hasBit (s.lane a).heldHeads h then
      (s.modLane a (fun l => { l with heldHeads := setBit l.heldHeads h })).raiseWith 0x0401 none a (some h)
    else s)

/-- Commands of 0 for every head whose command is not. -/
def State.zeroMicro (s : State) (a : Nat) : State :=
  let s := s.each ((s.lane a).u.map Prod.fst) (fun s h => s.d2dSend a h 0)
  s.modLane a (fun l => { l with u := [] })

/-- LANE_LOST (R246, 10 R277): INV_MAX groups in a row without a valid head. -/
def execLaneLost (act : Fin 4) (s : State) : Res :=
  let a := act.val
  .next (if s.laneRuns a ∧ s.eff a (Reg.CTL_WU_INV_MAX a) ≤ (s.lane a).empty then
      let s := (s.enterPhase a 4).zeroMicro a
      let s := s.d2dSend a 12 (toSigned 16 (SMap.get (s.lane a).live 0 0xD90))
      (s.raise 0x0402 a).retract a 2
    else s)

/-- SETTLE_DONE (R246): SETTLE.CNT settled groups in a row. -/
def execSettleDone (act : Fin 4) (s : State) : Res :=
  let a := act.val
  .next (if s.phase a = 2 ∧ s.eff a (Reg.CTL_SETTLE_CNT a) ≤ (s.lane a).settle then s.enterPhase a 3 else s)

/-- FOLLOWING_ERROR (R248): the count has reached CTL_FE_TIMER; a seek ends where it stands. -/
def execFollowingError (act : Fin 4) (s : State) : Res :=
  let a := act.val
  .next (if s.laneRuns a ∧ (s.lane a).feDue then
      let s := (s.pesRaise a).modLane a (fun l => { l with feDue := false })
      let s := (s.put (Reg.CTL_LANE_STATUS_FE a) 1).inc (Reg.CTL_FE_CNT_COUNT a)
      let s := (s.emit (.rtInterrupt 4)).raise 0x0403 a
      if s.phase a = 1 then (s.modLane a (fun l => { l with xtarget := l.xref })).enterPhase a 2 else s
    else s)

/-- PES_CLEAR (R249): at a group boundary in TRACK without FE, after CLR clean groups. -/
def execPesClear (act : Fin 4) (s : State) : Res :=
  let a := act.val
  .next (if s.phase a = 3 ∧ (s.lane a).bound ∧ !s.flag (Reg.CTL_LANE_STATUS_FE a) ∧
      s.eff a (Reg.CTL_WU_CLR a) ≤ (s.lane a).clean then
      s.setPesSrc (clrBit s.pesSrc a)
    else s)

/-- The lane goes OFF: states 0, and commands 0 where ON is written 0 and no mismatch holds messages back; what is pending takes
effect (Table CTL-3, R231, R251). -/
def State.laneOff (s : State) (a : Nat) (commands : Bool) : State :=
  let s := if commands && s.phase a != 5 then (s.zeroMicro a).d2dSend a 12 0 else s.modLane a (fun l => { l with u := [] })
  let s := (s.enterPhase a 0).put (Reg.CTL_LANE_CTL_ON a) 0
  (s.modLane a (fun l => { l.both (fun c => { c with micro := [], vcm := [], integ := 0 }) with go := none, recs := [] })).boundary a

/-- A write of CTL_LANE_CTL (Table CTL-3, Table CTL-7, R252). -/
def State.laneCtl (s : State) (a v : Nat) : State :=
  if hasBit v 15 then
    if bits v 31 16 = 0x5A5A then
      let s := s.laneOff a false
      (s.put (Reg.CTL_LANE_STATUS_CMP a) 0).setCmpSrc (clrBit s.cmpSrc a)
    else s
  else if hasBit v 0 then
    if s.phase a = 4 ∨ s.phase a = 5 ∨ !(slotsOf a).any (fun k => s.srcState k == 3) then s.ctlReject a 5
    else
      let s := s.put (Reg.CTL_LANE_CTL_ON a) 1
      if s.phase a = 0 then
        (s.enterPhase a 2).modLane a (fun l => { l.both (fun c => { c with vcm := [], integ := 0 }) with
          v := 0, aref := 0, fresh := true, fe := 0, feDue := false, empty := 0, clean := 0
          inv := [], heldHeads := 0, recs := [], dirty := false })
      else s
  else if s.phase a = 0 then s.put (Reg.CTL_LANE_CTL_ON a) 0
  else s.laneOff a true

/-- LANE_ON (R246): a write of CTL_LANE_CTL. -/
def execLaneOn (act : Fin 4) (value : Word) (s : State) : Res := .next (s.laneCtl act.val value.toNat)

/-- LANE_OFF (R246): a write of CTL_LANE_CTL. -/
def execLaneOff (act : Fin 4) (value : Word) (s : State) : Res := .next (s.laneCtl act.val value.toNat)

/-- LANE_RESET (R252): a write of CTL_LANE_CTL. -/
def execLaneReset (act : Fin 4) (value : Word) (s : State) : Res := .next (s.laneCtl act.val value.toNat)

/-- A write of CTL_SEEK_GO (R247, Table CTL-12). -/
def State.seekGo (s : State) (a v : Nat) : State :=
  if hasBit v 0 then
    if s.laneRuns a then
      s.modLane a (fun l => { l with go := some (s.get (Reg.CTL_SEEK_TGT_LO_X_LO a) + 2 ^ 32 * s.get (Reg.CTL_SEEK_TGT_HI_X_HI a)) })
    else s.ctlReject a 5
  else s

/-- SEEK_GO (R247). -/
def execSeekGo (act : Fin 4) (value : Word) (s : State) : Res := .next (s.seekGo act.val value.toNat)

/-- A write of CTL_LANE_STATUS: clearing FE restarts the count (R248). -/
def State.laneStatusWrite (s : State) (a v : Nat) : State :=
  let s := s.when (hasBit v 27) (·.put (Reg.CTL_LANE_STATUS_RATE_ERR a) 0)
  s.when (hasBit v 26) (fun s =>
    (s.put (Reg.CTL_LANE_STATUS_FE a) 0).modLane a (fun l => { l with fe := 0, feDue := false }))

/-- LANE_COMPARE_FAULT (R226, R251): the job of the lane's oldest sample runs with an upset in the main copy; the comparator
finds the copies apart where it shows in the write-back, the message or the states. -/
def execLaneCompareFault (act : Fin 4) (upset : LaneUpset) (s : State) : Res :=
  let a := act.val
  .next (if s.laneRuns a then (s.modLane a (·.upset upset)).laneJob a (some upset) else s)

/-- IDLE_COMPARE_PASS (R226, R251): a pass over the states and coefficient stores of both copies, after an upset in the main
copy where there was one. -/
def execIdleComparePass (act : Fin 4) (upset : Option LaneUpset) (s : State) : Res :=
  let a := act.val
  let s := match upset with | some u => s.modLane a (·.upset u) | none => s
  .next (if s.phase a = 5 then s
    else if !(s.lane a).statesAgree then s.compareFault a 1
    else if !(s.lane a).coefsAgree then s.compareFault a 2
    else s)

end Sys2Proof.Machine
end

