-- ==== Sys2Proof/Machine/Soundpost.lean ====
section
/-! DEFINITION. The Soundpost (11): the window of the save store, the self-test of C_HOLD, warn, saves and their areas,
what a restore finds, and the write of SPT_CTL. -/

namespace Sys2Proof.Machine

def State.modSpt (s : State) (g : Spt → Spt) : State := { s with spt := g s.spt }

/-- A rejection of the Soundpost (Table SPT-12). -/
def State.sptReject (s : State) (c : Nat) : State := s.reject Reg.SPT_CFG_STATUS_ERR Reg.SPT_CFG_STATUS_CODE c

/-! ## Capacitor, WIN_SIZE and the window (R282 to R284, R294, R296) -/

/-- The capacitor is armed (R294). -/
def State.armed (s : State) : Bool := s.spt.passed && decide (29700 ≤ s.get Reg.SPT_VSTORE_VSTORE)

/-- The largest whole number of MiB, at most 16, that a capacitor measured at `ticks` can save (R296):
1.5 × (0.1 J + 3 W × (16 MiB + W) / 125 MB/s) ≤ 0.765 × ½ × C × 968 V², with C = ticks / (5 × 10^8) F. -/
def capWindow (ticks : Nat) : Nat :=
  ((List.range 17).filter (fun w =>
    decide (150 * (100000000 + 24 * (16777216 + 1048576 * w)) ≤ 74052 * ticks))).foldl max 0

/-- WIN_SIZE (R294, R296, Table SPT-10). -/
def State.winSize (s : State) : Nat :=
  if s.spt.passed && s.flag Reg.SPT_CTL_WIN_EN then min (s.get Reg.SPT_CTL_WIN_LIMIT) (capWindow s.spt.capTicks) else 0

/-- The entry limit (R283). -/
def State.winLimit (s : State) : Nat := s.winSize * 1048576 / 4128

/-- HEALTH code 1 where the change from `old` made the capacitor not armed or WIN_SIZE fall (16 Table ADM-14). -/
def State.sptFell (s old : State) : State :=
  if (old.armed && !s.armed) || decide (s.winSize < old.winSize) then s.health 1 else s

/-- The window takes a new entry (R282 to R284, R287, R288). -/
def State.winOpen (s : State) : Bool :=
  s.spt.taking && !s.spt.frozenJW && s.spt.window.all (fun e => decide (e.1 < s.winLimit) &&
    decide ((s.spt.winNext + 2 ^ 32 - e.2.seq) % 2 ^ 32 < 2 ^ 30))

/-- The lowest free entry below the limit. -/
def State.winFree (s : State) : Option Nat :=
  (List.range (s.spt.window.length + 1)).find? (fun i => decide (i < s.winLimit) && (SMap.look s.spt.window i).isNone)

/-- A safe-mode block takes a window entry, where it can (R282, R283). -/
def State.takeWin (s : State) (nsid lba block : Nat) : Option Nat × State :=
  match s.winOpen, s.winFree with
  | true, some i =>
    let e : WinEntry := ⟨lba, nsid, s.spt.winNext, block, false⟩
    (some i, s.modSpt (fun p => { p with window := SMap.set p.window i e, winNext := (p.winNext + 1) % 2 ^ 32 }))
  | _, _ => (none, s)

/-! ## Warn (R286, R295) -/

/-- A warn takes effect: SPT_WARN rises, the real-time core is interrupted, a test in its draw is abandoned. -/
def State.warn (s : State) : State :=
  if s.flag Reg.SPT_STATUS_WARN then s
  else
    let s := (((s.put Reg.SPT_STATUS_WARN 1).riseSource 3 allSlots).emit (.rtInterrupt 6)).raise 0x0601 0
    if s.spt.test = .drawing then
      let v := 31000 + Config.freeValue s.free % 2001
      (((s.draw 1).put Reg.SPT_VSTORE_VSTORE v).modSpt (fun p => { p with test := .recharging, retry := true })).sptFell s
    else s

/-- VIN_WARN (R286): VIN in mV. -/
def execVinWarn (vin : Nat) (s : State) : Res :=
  let s := s.vin vin
  .next (if vin < 11000 then s.warn else s)

/-- VIN_WARN_RELEASE (R286): a fail keeps its warn. -/
def execVinWarnRelease (vin : Nat) (s : State) : Res :=
  let s := s.vin vin
  .next (if 11400 < vin ∧ !s.flag Reg.SPT_STATUS_FAIL then s.put Reg.SPT_STATUS_WARN 0 else s)

/-! ## The self-test (R294 to R296) -/

/-- A self-test begins to draw, where it may run. -/
def State.testStart (s : State) : State :=
  if s.flag Reg.SPT_STATUS_WARN || s.flag Reg.SPT_STATUS_FAIL || s.spt.test != .idle ||
      decide (s.get Reg.SPT_VSTORE_VSTORE < 33000) then s
  else (s.put Reg.SPT_STATUS_TESTING 1).modSpt (fun p => { p with test := .drawing, retry := false })

/-- VSTORE_ARMED (R294, R295): the charger has brought VSTORE to `vstore` mV, at least 29.7 V; at 33 V a test's
recharge ends. -/
def execVstoreArmed (vstore : Nat) (s : State) : Res :=
  .next (if 29700 ≤ vstore then
      let s := s.put Reg.SPT_VSTORE_VSTORE (min vstore 0xFFFF)
      if 33000 ≤ vstore then
        let s := s.modSpt (fun p => { p with full := true })
        if s.spt.test = .recharging then (s.put Reg.SPT_STATUS_TESTING 0).modSpt (fun p => { p with test := .idle }) else s
      else s
    else s)

/-- SELF_TEST_START (R295): VSTORE first reaches 33 V, or, once it has, PERIOD_H hours have passed: the test then runs
where VSTORE stands at 33 V. -/
def execSelfTestStart (s : State) : Res :=
  .next ((s.when (!s.spt.full) (fun s => (s.put Reg.SPT_VSTORE_VSTORE 33000).modSpt (fun p => { p with full := true }))).testStart)

/-- The result of a test that measured `ticks` (R295, R296). -/
def State.testResult (s : State) (ticks : Nat) : State :=
  let ok := decide (1 ≤ capWindow ticks)
  let t := ((s.put Reg.SPT_CAP_VALID 1).put Reg.SPT_CAP_CAP (min (s.roundFree ticks 500) 0xFFFF)).draw 1
  let t := (t.inc Reg.SPT_TESTS_COUNT).putB Reg.SPT_STATUS_TEST_FAIL (!ok)
  let t := (t.put Reg.SPT_VSTORE_VSTORE 31000).modSpt (fun p =>
    { p with passed := ok, capTicks := ticks, test := .recharging })
  let t := if ok then t else (t.inc Reg.SPT_TEST_FAILS_COUNT).raise 0x0602 0
  t.sptFell s

/-- SELF_TEST_DONE (R295, R296): VSTORE has fallen to 31.0 V after `ticks`, within 200 ms. -/
def execSelfTestDone (ticks : Nat) (s : State) : Res :=
  .next (if s.spt.test = .drawing ∧ ticks ≤ 5000000 then s.testResult ticks else s)

/-- SELF_TEST_DRAW_TIMEOUT (R295): 200 ms of draw; C is recorded as 10.0 mF. VSTORE is then above 31.0 V. -/
def execSelfTestDrawTimeout (s : State) : Res :=
  .next (if s.spt.test = .drawing then
      ((s.testResult 5000000).put Reg.SPT_VSTORE_VSTORE (31000 + Config.freeValue s.free % 2001)).draw 1
    else s)

/-- SELF_TEST_RETRY (R295): 60 s after the warn's release. -/
def execSelfTestRetry (s : State) : Res := .next (if s.spt.retry then s.testStart else s)

/-- CHARGE_TIMEOUT (R296): VSTORE has not reached 33 V within 3 s; the test fails. -/
def execChargeTimeout (s : State) : Res :=
  .next (if s.spt.full then s
    else ((((s.modSpt (fun p => { p with passed := false })).put Reg.SPT_STATUS_TEST_FAIL 1).inc
      Reg.SPT_TEST_FAILS_COUNT).raise 0x0602 0).sptFell s)

/-! ## SPT_CTL (Table SPT-10) -/

/-- The restored areas are erased (R300), and their save-key records (17 R443). -/
def State.release (s : State) : State :=
  let gone := s.spt.restored.filterMap (fun k => (SMap.look s.spt.areas k).map SaveArea.seq)
  let s := s.setSec { s.sec with saveKeys := SMap.keep s.sec.saveKeys (fun q => !gone.contains q), restKeys := [] }
  (s.modSpt (fun p => { p with areas := SMap.keep p.areas (fun k => !p.restored.contains k), restored := [] })).put
    Reg.SPT_STATUS_PENDING_REL 0

/-- Window entries in ascending SEQ (R282). -/
def winOrder (w : SMap WinEntry) : List Nat :=
  (w.foldl (fun (l : List (Nat × WinEntry)) e =>
    l.filter (fun x => !seqNewer x.2.seq e.2.seq) ++ [e] ++ l.filter (fun x => seqNewer x.2.seq e.2.seq)) []).map Prod.fst

/-- Every held entry is to be written again, after the entries that already wait for it (R285). -/
def State.retryHeld (s : State) : State :=
  let held := s.spt.window.filter (fun e => e.2.held && !s.spt.rewrite.contains e.1)
  s.modSpt (fun p => { p with rewrite := p.rewrite ++ winOrder held })

/-- A write of SPT_CTL. -/
def State.sptCtl (s : State) (v : Nat) : State :=
  if bits v 12 8 = 0 then s.sptReject 1
  else if bits v 20 16 = 0 ∨ 16 < bits v 20 16 ∨ 24 < bits v 12 8 then s.sptReject 2
  else if hasBit v 0 && (s.flag Reg.SPT_STATUS_TESTING || s.flag Reg.SPT_STATUS_WARN ||
      decide (s.get Reg.SPT_VSTORE_VSTORE < 33000)) then s.sptReject 3
  else if hasBit v 1 && !s.flag Reg.SPT_STATUS_PENDING_REL then s.sptReject 4
  else
    let t := ((s.put Reg.SPT_CTL_WIN_LIMIT (bits v 20 16)).put Reg.SPT_CTL_PERIOD_H (bits v 12 8)).put
      Reg.SPT_CTL_WIN_EN (bit v 2)
    let t := t.sptFell s
    let t := t.when (hasBit v 0) State.testStart
    let t := t.when (hasBit v 1) State.release
    t.when (hasBit v 3) State.retryHeld

/-- SPT_CTL as it stands, with one command bit. -/
def State.sptCtlWith (s : State) (b : Nat) : Nat :=
  s.get Reg.SPT_CTL_WIN_LIMIT * 2 ^ 16 + s.get Reg.SPT_CTL_PERIOD_H * 2 ^ 8 + s.get Reg.SPT_CTL_WIN_EN * 4 + b

/-- SPT_TEST (R295): a write of SPT_CTL.TEST. -/
def execSptTest (s : State) : Res := .next (s.sptCtl (s.sptCtlWith 1))

/-- SPT_RELEASE (R300): a write of SPT_CTL.RELEASE. -/
def execSptRelease (s : State) : Res := .next (s.sptCtl (s.sptCtlWith 2))

/-- RETRY_HELD (R285): a write of SPT_CTL.RETRY_HELD. -/
def execRetryHeld (s : State) : Res := .next (s.sptCtl (s.sptCtlWith 8))

/-! ## Saves (R287, R288, R292, R293, R298; 21 R531, R532) -/

/-- The area a save writes into (R298). -/
def State.saveArea (s : State) : Nat :=
  match s.spt.restored with
  | k :: _ => 1 - k
  | [] =>
    match SMap.look s.spt.areas 0, SMap.look s.spt.areas 1 with
    | some a, some b => if a.seq ≤ b.seq then 0 else 1
    | some _, none => 1
    | none, _ => 0

/-- Window chunks of a save. -/
def winChunks (winBytes : Nat) : Nat := ceilDiv winBytes 262144

/-- The chunk of a save that a save-store word of instance 24 belongs to, where the save holds it. -/
def chunkOfWord (winBytes k : Nat) : Option Nat :=
  let b := 8 * k
  if b < 0x800000 then some (b / 262144)
  else if b < 0x1800000 then
    if (b - 0x800000) < winBytes then some (32 + (b - 0x800000) / 262144) else none
  else some (32 + winChunks winBytes + (b - 0x1800000) / 262144)

/-- Chunks with an uncorrectable save-store word: they are written with an inverted CRC (21 R532). -/
def State.badChunks (s : State) (winBytes : Nat) : List Nat :=
  ((SMap.keys s.buf.flips).filter (fun k => k / 2 ^ 22 == 24 && decide (1 < s.sramFlips 24 (k % 2 ^ 22)))).filterMap
    (fun k => chunkOfWord winBytes (k % 2 ^ 22))

/-- The header of a new save (Table SPT-8): one above the newest SEQ in either area, a free one where both are empty. -/
def State.saveHeader (s : State) : SaveArea :=
  let top := s.spt.areas.foldl (fun m e => max m (e.2.seq + 1)) 0
  { seq := if top = 0 then Config.freeValue s.free % 2 ^ 64 else top % 2 ^ 64
    poc := s.evr.poc, pos := Config.freeTime s.free % 2 ^ 32
    winBytes := 4128 * s.spt.window.foldl (fun m e => max m (e.1 + 1)) 0
    complete := false, ms := 0, vstore := 0, chunks := 0, bad := []
    journal := s.spt.journal, window := s.spt.window, metaBytes := [], tail := [], del := [], delLost := 0, failed := [], zones := [] }

/-- The metadata part begins: the region freezes and its content is fixed (R288). -/
def State.saveMeta (s : State) : State :=
  let k := s.spt.into
  match SMap.look s.spt.areas k with
  | some a =>
    let a := { a with metaBytes := s.spt.metaBytes, tail := s.evr.tail, del := s.spt.del, delLost := s.spt.delLost
                      failed := s.spt.failed, zones := s.spt.zones
                      bad := s.badChunks a.winBytes }
    s.modSpt (fun p => { p with frozenMeta := true, areas := SMap.set p.areas k a })
  | none => s

/-- The save-key record: the media key of each range with a valid window entry (17 R443). -/
def State.saveKeyRecord (s : State) (seq : Nat) : State :=
  let rs := s.spt.window.map (fun e => s.rangeOf e.2.nsid e.2.lba)
  let keys := rs.foldl (fun m r => SMap.set m r (s.range r).key) []
  s.setSec { s.sec with saveKeys := SMap.set s.sec.saveKeys seq keys }

/-- SAVE_BEGIN (R287, R288): the save begins its header, and once more its metadata part; the save-key record comes
before the window part (17 R443). -/
def execSaveBegin (s : State) : Res :=
  .next (if s.spt.saving then
      if s.spt.frozenJW then (if s.spt.frozenMeta then s else s.saveMeta)
      else let a := SMap.set s.spt.areas s.saveArea s.saveHeader
        ((s.modSpt (fun p => { p with frozenJW := true, into := s.saveArea, areas := a })).saveKeyRecord s.saveHeader.seq).draw 1
    else s)

/-- The save ends. -/
def State.saveEnd (s : State) : State := s.modSpt (fun p => { p with saving := false, faultSave := false })

/-- SAVE_COMMIT (R292, R298): the commit record is written, with the duration in ms and VSTORE in mV; after a VIN fail
VHOLD then turns off, also where no save ran (R68). -/
def execSaveCommit (ms vstore : Nat) (s : State) : Res :=
  .next (
    let s := if s.spt.saving && s.spt.frozenJW then
        let s := if s.spt.frozenMeta then s else s.saveMeta
        let k := s.spt.into
        let s := s.modSpt (fun p => { p with areas := (match SMap.look p.areas k with
          | some a => SMap.set p.areas k { a with complete := true, ms := ms, vstore := vstore
                                                  chunks := 64 + winChunks a.winBytes }
          | none => p.areas) })
        s.saveEnd
      else s
    if s.flag Reg.SPT_STATUS_FAIL && !s.spt.saving then s.modSpt (fun p => { p with vhold := .off }) else s)

/-- SAVE_INCOMPLETE (R293): VSTORE reaches 11 V after `chunks` chunks; VHOLD collapses. -/
def execSaveIncomplete (chunks : Nat) (s : State) : Res :=
  .next (if s.spt.saving then
      let k := s.spt.into
      let s := s.modSpt (fun p => { p with
        areas := (match p.frozenJW, SMap.look p.areas k with
          | true, some a => SMap.set p.areas k { a with chunks := min chunks (64 + winChunks a.winBytes) }
          | _, _ => p.areas)
        vhold := .collapsed })
      (s.put Reg.SPT_VSTORE_VSTORE 11000).saveEnd
    else s)

/-- VHOLD_RESTORE (R292): after the off interval, with VIN above 11.4 V for 20 ms, VHOLD follows VIN again; the
power-fail sequence has ended. -/
def execVholdRestore (s : State) : Res :=
  .next (if s.spt.vhold = .off ∨ s.spt.vhold = .collapsed then
      ((s.modSpt (fun p => { p with vhold := .follows })).put Reg.SPT_STATUS_FAIL 0).put Reg.SPT_STATUS_WARN 0
    else s)

/-! ## What a restore finds (R299) -/

/-- The 64 bytes of the header without CHECK (Table SPT-8). -/
def SaveArea.headerFields (a : SaveArea) : List (Nat × Nat × Nat) :=
  [(0x00, 8, a.seq), (0x08, 4, a.poc), (0x0C, 4, a.pos), (0x10, 4, a.winBytes), (0x14, 4, 8388608), (0x18, 4, 8388608)]

/-- The header as it is written (Table SPT-8): CHECK is the CRC-64 of bytes 0x00 to 0x37. -/
def SaveArea.header (a : SaveArea) : Nat :=
  let h := layout a.headerFields
  h + crc64 (leBytes h 56) * 256 ^ 56

/-- The header, read with the bits `flips` inverted, verifies (R298, R299). -/
def SaveArea.headerOk (a : SaveArea) (flips : Nat) : Bool :=
  let h := a.header ^^^ flips
  crc64 (leBytes h 56) == bytesAt h 56 8

/-- What the flipped bytes of chunk `k` add to its CRC-64 and to the CRC that follows it (R298): by the linearity of the
code the chunk's CRC verifies as it would have without them where this is 0 [log 104]. -/
def readResidue (r : SaveRead) (k : Nat) : Nat :=
  r.chunks.foldl (fun c x => if x.1 ≠ k then c
    else if x.2.1 < 262144 then c ^^^ crc64Bits (x.2.2 % 256 * 2 ^ 56) (8 * (262144 - x.2.1))
    else c ^^^ (x.2.2 % 256 * 256 ^ ((x.2.1 - 262144) % 8))) 0

/-- What the flipped bytes make of the CRC that follows chunk `k`. -/
def readCrcFlip (r : SaveRead) (k : Nat) : Nat :=
  r.chunks.foldl (fun c x => if x.1 = k ∧ 262144 ≤ x.2.1 then c ^^^ (x.2.2 % 256 * 256 ^ ((x.2.1 - 262144) % 8)) else c) 0

/-- The commit record as it is read verifies (R298): it was written, its SEQ and chunk count are the save's, and its
CRC-64 is that of the chunk CRCs. -/
def SaveArea.commitOk (a : SaveArea) (r : SaveRead) : Bool :=
  a.complete && r.seq == 0 && r.count == 0 &&
    crc64 ((List.range a.chunks).flatMap (fun k => leBytes (readCrcFlip r k) 8)) == r.crc % 2 ^ 64

/-- A chunk of an area verifies: it was written, and its CRC, inverted where a save-store word was uncorrectable (21
R532), is that of its bytes as they are read. -/
def SaveArea.ok (a : SaveArea) (r : SaveRead) (k : Nat) : Bool :=
  decide (k < a.chunks) && (readResidue r k == if a.bad.contains k then 2 ^ 64 - 1 else 0)

/-- A window entry is present: every chunk it spans verifies. -/
def SaveArea.entryOk (a : SaveArea) (found : SaveRead) (i : Nat) : Bool :=
  a.ok found (32 + 4128 * i / 262144) && a.ok found (32 + (4128 * i + 4127) / 262144)

/-- Chunk number of metadata chunk `m`. -/
def SaveArea.metaChunk (a : SaveArea) (m : Nat) : Nat := 32 + winChunks a.winBytes + m

/-- The window entries of an area that are present. -/
def SaveArea.entries (a : SaveArea) (found : SaveRead) : SMap WinEntry :=
  a.window.filter (fun e => a.entryOk found e.1)

/-- Window entries merged: at each index the newer SEQ survives. -/
def mergeWindow (old new : SMap WinEntry) : SMap WinEntry :=
  new.foldl (fun m e => match SMap.look m e.1 with
    | some o => if seqNewer o.seq e.2.seq then m else SMap.set m e.1 e.2
    | none => SMap.set m e.1 e.2) old

/-- The older area's chunk at the place of chunk `k` of the newer one. -/
def olderPlace (new old : SaveArea) (k : Nat) : Option Nat :=
  if k < 32 then some k
  else if k < 32 + winChunks new.winBytes then (if k - 32 < winChunks old.winBytes then some k else none)
  else some (k - winChunks new.winBytes + winChunks old.winBytes)

/-- The chunk positions of the newest save that come from neither area (R299). -/
def badCount (new : SaveArea) (fn : SaveRead) (old : Option (SaveArea × SaveRead)) : Nat :=
  ((List.range (64 + winChunks new.winBytes)).filter (fun k => !new.ok fn k &&
    (match old with
      | some (o, fo) => (match olderPlace new o k with | some j => !o.ok fo j | none => true)
      | none => true))).length

/-- An area's part of a region that lies in chunks, keyed by chunk number, taken where the chunk verifies. -/
def pickChunks {α : Type} (m : SMap α) (ok : Nat → Bool) (chunk : Nat → Nat) : SMap α :=
  m.filter (fun e => ok (chunk e.1))

/-- A region restored chunk by chunk (R299): a chunk comes from the newer area where it verifies there, otherwise from
the older one, and a chunk that verifies in neither leaves what the save store holds. -/
def overChunks {α : Type} (now new old : SMap α) (okNew okOld : Nat → Bool) (chunk : Nat → Nat) : SMap α :=
  let kept := now.filter (fun e => !okNew (chunk e.1) && !okOld (chunk e.1))
  let m := (old.filter (fun e => !okNew (chunk e.1) && okOld (chunk e.1))).foldl (fun m e => SMap.set m e.1 e.2) kept
  (pickChunks new okNew chunk).foldl (fun m e => SMap.set m e.1 e.2) m

end Sys2Proof.Machine
end

