-- ==== Sys2Proof/Machine/ChordMap.lean ====
section
/-! DEFINITION. The chord map and code (19 R483 to R487, R489): permutations, rows, owned chords, holders after failures,
parity over GF(2^8), reconstruction, and the lost-chord map. -/

namespace Sys2Proof.Machine

/-- The member number: the index of the own IDK hash in the roster (18 R468). -/
def State.own (s : State) : Option Nat := s.sec.roster.findIdx? (fun h => h == Config.idkHash % 256 ^ 48)
def State.ownNo (s : State) : Nat := s.own.getD 0

def State.modChd (s : State) (g : Chd → Chd) : State := { s with chd := g s.chd }

/-! ## The map (R485 to R487) -/

/-- splitmix: the new state and one output, modulo 2^64. -/
def splitmix (state : Nat) : Nat × Nat :=
  let st := (state + 0x9E3779B97F4A7C15) % 2 ^ 64
  let z := (st ^^^ st / 2 ^ 30) * 0xBF58476D1CE4E5B9 % 2 ^ 64
  let z := (z ^^^ z / 2 ^ 27) * 0x94D049BB133111EB % 2 ^ 64
  (st, z ^^^ z / 2 ^ 31)

/-- Two elements of a list change places. -/
def swapAt (l : List Nat) (i j : Nat) : List Nat := setAt (setAt l i (l.getD j 0)) j (l.getD i 0)

/-- The loop of perm: i from its argument down to 1. -/
def permLoop (state : Nat) (p : List Nat) : Nat → List Nat
  | 0 => p
  | i + 1 =>
    let r := splitmix state
    permLoop r.1 (swapAt p (i + 1) (r.2 % (i + 2))) i

/-- Permutation of roster indices for period g. -/
def permOf (seed g n : Nat) : List Nat :=
  permLoop ((seed ^^^ g * 0xD1B54A32D192ED03 % 2 ^ 64) % 2 ^ 64) (List.range n) (n - 1)

/-- Roster members in ascending number, their count, the width and the chords of a row. -/
def Layout.members (l : Layout) : List Nat := maskBits 32 l.roster
def Layout.n (l : Layout) : Nat := l.members.length
def Layout.w (l : Layout) : Nat := l.k + l.m
def Layout.c (l : Layout) : Nat := (l.n - l.spare) / l.w

/-- Member at each entry of row t. -/
def Layout.row (l : Layout) (t : Nat) : List Nat :=
  let p := permOf l.seed (t / l.n) l.n
  (List.range l.n).map (fun e => l.members.getD (p.getD ((e + t % l.n) % l.n) 0) 0)

/-- The first spare entry of a row that is not used and whose member has not failed. -/
def spareFor (row : List Nat) (failed used : List Nat) (from' n : Nat) : Option Nat :=
  ((List.range n).drop from').find? (fun e => !used.contains e && !failed.contains (row.getD e 0xFF))

/-- One failure at the entries of a row: who occupies each, 0xFF absent, and the spares used. -/
def failEntry (row : List Nat) (cw n f : Nat) (upto : List Nat) : Nat → List Nat → List Nat → List Nat × List Nat
  | 0, occ, used => (occ, used)
  | i + 1, occ, used =>
    let e := cw - (i + 1)
    if occ.getD e 0xFF = f then
      match spareFor row upto used cw n with
      | some x => failEntry row cw n f upto i (setAt occ e (row.getD x 0xFF)) (used ++ [x])
      | none => failEntry row cw n f upto i (setAt occ e 0xFF) used
    else failEntry row cw n f upto i occ used

/-- The holders of the chord strips of a row after a failure list; 0xFF where a strip is unspared. -/
def Layout.holders (l : Layout) (fails : List Nat) (t : Nat) : List Nat :=
  let row := l.row t
  let cw := l.c * l.w
  ((List.range fails.length).foldl (fun (a : List Nat × List Nat) i =>
    failEntry row cw l.n (fails.getD i 0xFF) (fails.take (i + 1)) cw a.1 a.2) (row.take cw, [])).1

/-- The holder of strip s of a chord; 0xFF where there is none. -/
def Layout.holder (l : Layout) (fails : List Nat) (chord s : Nat) : Nat :=
  (l.holders fails (chord / l.c)).getD (chord % l.c * l.w + s) 0xFF

/-- The strip position of a chord. -/
def Layout.position (l : Layout) (p chord : Nat) : Nat := (l.base + chord / l.c) % p

/-- The owned chords of a member in period g, ascending. -/
def Layout.ownedIn (l : Layout) (x g : Nat) : List Nat :=
  (List.range l.n).flatMap (fun r =>
    let t := g * l.n + r
    let row := l.row t
    ((List.range l.c).filter (fun j => row.getD (j * l.w) 0xFF == x)).map (fun j => t * l.c + j))

/-- The u-th owned chord of a member (R486). -/
def Layout.owned (l : Layout) (x u : Nat) : Nat := (l.ownedIn x (u / l.c)).getD (u % l.c) 0

/-- The owner of a chord, the member of its strip d_0 (R485), and the chord's index among the owner's chords (R486). -/
def Layout.ownerOf (l : Layout) (chord : Nat) : Nat := (l.row (chord / l.c)).getD (chord % l.c * l.w) 0xFF
def Layout.ownedIndex (l : Layout) (chord : Nat) : Nat :=
  let g := chord / l.c / l.n
  g * l.c + (l.ownedIn (l.ownerOf chord) g).idxOf chord

/-- Owned chords of a member, and the volume's capacity in blocks. -/
def Layout.ownedCount (l : Layout) : Nat := l.rows / l.n * l.c
def Layout.capacity (l : Layout) : Nat := l.ownedCount * l.k * 64

/-- Where a volume block lies (R486): its owned chord's index, its data strip and its offset. -/
def Layout.place (l : Layout) (lba : Nat) : Nat × Nat × Nat := (lba / 64 / l.k, lba / 64 % l.k, lba % 64)

/-- The layout check (R489). -/
def Layout.check (l : Layout) (p : Nat) : Nat :=
  crc64 (leBytes l.seed 8 ++ leBytes l.roster 4 ++ [l.k, l.m, l.spare, 0] ++ leBytes l.base 4 ++ leBytes l.rows 4 ++ leBytes p 4)

/-! ## The code (R484) -/

/-- The inverse in GF(2^8). -/
def gfInv (a : Nat) : Nat := ((List.range 256).find? (fun x => gfMul a x == 1)).getD 0

/-- c(i, j). -/
def coef (m i j : Nat) : Nat := if m = 1 then 1 else gfInv ((0x80 + i) ^^^ j)

/-- The bytes under parity: 4,096 data bytes and the 8-byte host tag. -/
def coded : Nat := 4104

/-- A block's coded bytes times a coefficient. -/
def blkScale (c b : Nat) : Nat := leValue ((leBytes b coded).map (gfMul c))

/-- Parity block i of the data blocks. -/
def parityOf (m i : Nat) (ds : List Nat) : Nat :=
  ((List.range ds.length).zip ds).foldl (fun v x => v ^^^ blkScale (coef m i x.1) x.2) 0

/-- A row of the linear system: coefficients of the unknown blocks, and its right side. -/
abbrev GfRow := List Nat × Nat

def GfRow.scale (c : Nat) (r : GfRow) : GfRow := (r.1.map (gfMul c), blkScale c r.2)
def GfRow.add (a b : GfRow) : GfRow := ((a.1.zip b.1).map (fun x => x.1 ^^^ x.2), a.2 ^^^ b.2)

/-- Column `i` is cleared from every row but row `i`. -/
def gaussCol (rows : List GfRow) (i : Nat) : List GfRow :=
  let p := (rows.getD i ([], 0)).scale (gfInv ((rows.getD i ([], 0)).1.getD i 0))
  ((List.range rows.length).zip rows).map (fun x => if x.1 = i then p else x.2.add (p.scale (x.2.1.getD i 0)))

/-- The unknown blocks of a system whose minors are not zero. -/
def gaussSolve (rows : List GfRow) : List Nat := ((List.range rows.length).foldl gaussCol rows).map Prod.snd

/-- The k data blocks of an offset from k available strips, `got` by strip index; none where fewer are available. -/
def decodeData (k m : Nat) (got : SMap Nat) : Option (List Nat) :=
  let miss := (List.range k).filter (fun j => (SMap.look got j).isNone)
  let par := ((List.range m).filter (fun i => (SMap.look got (k + i)).isSome)).take miss.length
  if par.length < miss.length then none
  else
    let rows : List GfRow := par.map (fun i =>
      (miss.map (fun j => coef m i j),
       (List.range k).foldl (fun v j => match SMap.look got j with
         | some d => v ^^^ blkScale (coef m i j) d
         | none => v) ((SMap.get got 0 (k + i)) % 256 ^ coded)))
    let x := gaussSolve rows
    some ((List.range k).map (fun j => match SMap.look got j with
      | some d => d % 256 ^ coded
      | none => x.getD (miss.idxOf j) 0))

/-- A data block with its guard recomputed (15 R385). -/
def withGuard (d : Nat) : Nat := d % 256 ^ coded + crc64 (leBytes d coded) * 256 ^ coded

/-- A parity block with its stamp (R494). -/
def withStamp (d jid : Nat) : Nat := d % 256 ^ coded + jid % 2 ^ 64 * 256 ^ coded

/-- The stamp of a parity block. -/
def stampOf (b : Nat) : Nat := bytesAt b coded 8

/-! ## The engine's volumes and the lost-chord map (R502) -/

/-- Strip positions P. -/
def State.positions (s : State) : Nat := s.get Reg.CHD_STRIP_P

/-- The active slot, and its layout where one is active. -/
def State.activeSlot (s : State) : Nat := s.get Reg.CHD_STATUS_ACTIVE
def State.chordLayout (s : State) (slot : Nat) : Option Layout := SMap.look s.chd.layouts slot
def State.activeLayout (s : State) : Option Layout :=
  if s.flag Reg.CHD_STATUS_READY then s.chordLayout s.activeSlot else none

/-- The key of a volume's scan in a layout slot. -/
def scanKey (owner slot : Nat) : Nat := 2 * owner + slot

/-- The failure list that the strips of a scan's owned chord `u` are compared against (R498, R499). -/
def State.scanBase (s : State) (x : Scan) (u : Nat) : List Nat :=
  let last := SMap.get s.chd.scanned [] (scanKey x.owner x.slot)
  match x.prev with
  | some (v, l) => if u < v then l else last
  | none => last

/-- Strip t of a chord lies at its holder: a scan that has still to reach the chord has not moved it (R498, R499). -/
def State.stripThere (s : State) (l : Layout) (slot chord t : Nat) : Bool :=
  match s.chd.scans.find? (fun x => x.owner == l.ownerOf chord && x.slot == slot) with
  | some x => decide (l.ownedIndex chord < x.u) ||
      l.holder l.fails chord t == l.holder (s.scanBase x (l.ownedIndex chord)) chord t
  | none => true

/-- SHA-384 of the roster (18 R468). -/
def State.rosterHash (s : State) : Nat :=
  Config.sha384 (48 * s.sec.roster.length) (leValue (s.sec.roster.flatMap (fun h => leBytes h 48))) % 256 ^ 48

/-- The roster has changed, or a map has taken effect: a member whose roster differs from the map's is transit-only (18 R468). -/
def State.rosterCheck (s : State) : State :=
  { s with ring := { s.ring with rosterBad := match s.ring.map with
      | some r => bytesAt r 8 48 != s.rosterHash
      | none => false } }

/-- The owner whose volume a namespace is. -/
def State.volumeOf (s : State) (nsid : Nat) : Option Nat :=
  if !s.flag Reg.CHD_CTL_EN || nsid == 0 then none
  else if nsid = s.get Reg.CHD_VOL_VOL_NS then s.own
  else if nsid = s.get Reg.CHD_VOL_ADOPT_NS ∧ s.flag Reg.CHD_VOL_ADOPT_EN ∧ s.get Reg.CHD_STATUS_ADOPTED ≠ 0xFF then
    some (s.get Reg.CHD_STATUS_ADOPTED)
  else none

/-- The boundary and the checkpoint of a reshape (R506). -/
def State.reshapeB (s : State) : Nat := s.get64 Reg.CHD_B_LO_B Reg.CHD_B_HI_B
def State.reshapeK (s : State) : Nat := s.get64 Reg.CHD_K_LO_K Reg.CHD_K_HI_K

/-- The layout slot that reads of a volume block use (R507). -/
def State.readSlot (s : State) (lba : Nat) : Nat :=
  match s.chd.target with
  | some t => match s.chordLayout t with
    | some l => if (l.place lba).1 < s.reshapeB then t else s.activeSlot
    | none => s.activeSlot
  | none => s.activeSlot

/-- The first 8 bytes of a lost-map entry. -/
def lostKey (slot chord strip : Nat) : Nat := chord % 2 ^ 56 + strip % 32 * 2 ^ 56 + slot % 2 * 2 ^ 63

/-- The volume block lies at a lost offset (R502). -/
def State.lostAt (s : State) (nsid lba : Nat) : Bool :=
  match s.volumeOf nsid, s.activeLayout with
  | some o, some _ =>
    let slot := s.readSlot lba
    match s.chordLayout slot with
    | some l =>
      let p := l.place lba
      hasBit (SMap.get s.chd.lost 0 (lostKey slot (l.owned o p.1) p.2.1)) p.2.2
    | none => false
  | _, _ => false

end Sys2Proof.Machine
end

