-- ==== Sys2Proof/Machine/Ports.lean ====
section
/-! DEFINITION. The host ports (14): their events, link, the window table with BAR2, the translation cache, MSI-X and
transfers to host memory. -/

namespace Sys2Proof.Machine

/-- An HST_EVT bit sets; each that does interrupts application core 0 (Table HST-8). -/
def State.hstEvt (s : State) (p : Nat) (F : Field) : State :=
  if s.flag F then s else (s.put F 1).emit (.appInterrupt 0x0A (32 * p + F.lo))

/-! ## The link (R353, R367) -/

/-- The rate and width that HST_CTL permits (R353), on lanes whose domains are on (02 Table PWR-2). -/
def State.linkOk (s : State) (p rate width : Nat) (flit : Bool) : Bool :=
  s.flag (Reg.HST_CTL_LINK_EN p) && decide (rate ≤ s.get (Reg.HST_CTL_MAX_RATE p)) &&
    decide (width ≤ s.get (Reg.HST_CTL_MAX_WIDTH p)) && decide (rate ≤ 6) && decide (width ≤ 2) &&
    (if 5 ≤ rate then flit else !flit || s.flag (Reg.HST_CTL_FLIT_EN p)) &&
    (decide (rate ≤ 4) || s.flag (Reg.HST_CTL_FLIT_EN p)) && !(s.port p).perst && s.domOn (94 + p) &&
    (List.range (2 ^ width)).all (fun n => s.domOn (64 + 4 * p + n))

/-- LINK_TRAINING_DONE (R353): the link settles in L0 at a rate and width that the registers permit. -/
def execLinkTrainingDone (port : Fin 2) (rate width : Nat) (flit : Bool) (s : State) : Res :=
  let p := port.val
  .next (if s.linkOk p rate width flit then
      ((((s.put (Reg.HST_LINK_RATE p) rate).put (Reg.HST_LINK_WIDTH p) width).putB (Reg.HST_LINK_FLIT p) flit).put
        (Reg.HST_LINK_UP p) 1).put (Reg.HST_LINK_LSTATE p) 0
    else s)

/-- ASPM_LINK_STATE_CHANGE (R353, R367): the link enters or leaves L0s, L1 or a substate. L0s is not used in flit mode;
a link in L1 that returns to L0 in Doze then makes its change. -/
def execAspmLinkStateChange (port : Fin 2) (lstate : Nat) (s : State) : Res :=
  let p := port.val
  .next (if s.flag (Reg.HST_LINK_UP p) ∧ lstate ≤ 4 ∧ ¬ (lstate = 1 ∧ s.flag (Reg.HST_LINK_FLIT p)) then
      let s := s.put (Reg.HST_LINK_LSTATE p) lstate
      if s.dev = .doze then s.linkNarrow p else s
    else s)

/-! ## Power management (R365, R366) -/

/-- WAKE_EVENT (R366): a wake event of a port. -/
def execWakeEvent (port : Fin 2) (s : State) : Res := .next (s.wake port.val)

/-! ## The window table (R356 to R361) -/

/-- An entry at reset: SIZE 12, all else 0 (Table HST-5). -/
def winReset : Nat := 12 * 2 ^ 32
/-- The bits of an entry that are not reserved. -/
def winMask : Nat :=
  (2 ^ 32 - 1) + 0xFF * 2 ^ 32 + 7 * 2 ^ 40 + 7 * 2 ^ 48 + (2 ^ 34 - 1) * 2 ^ 64 + (2 ^ 32 - 1) * 2 ^ 128

def winBase (r : Nat) : Nat := bytesAt r 0 4
def winSizeCode (r : Nat) : Nat := bytesAt r 4 1
def winPerm (r : Nat) : Nat := bytesAt r 5 1
def winSrc (r : Nat) : Nat := bytesAt r 6 2
def winTarget (r : Nat) : Nat := bytesAt r 8 8
def winMembers (r : Nat) : Nat := bytesAt r 16 4

/-- The staged copy of an entry. -/
def State.staged (s : State) (i : Nat) : Nat := SMap.get s.winStaged winReset i

/-- `len` bytes of a number replaced from byte `off`. -/
def putBytes (n off len v : Nat) : Nat :=
  n % 256 ^ off + v % 256 ^ len * 256 ^ off + n / 256 ^ (off + len) * 256 ^ (off + len)

/-- A write to the staged copy of entry `i`; reserved bits stay 0 (00 R7). -/
def State.stageWrite (s : State) (i off len v : Nat) : State :=
  s.setWinStaged (SMap.put s.winStaged winReset i (putBytes (s.staged i) off len v &&& winMask))

/-- The STATE word of an entry: it reports the live copy. -/
def State.winState (s : State) (i : Nat) : Nat :=
  match SMap.look s.winLive i with
  | some l => b2n l.draining * 2 ^ 31 + bit (winPerm l.raw) 2 * 2 ^ 30 + l.version % 65536
  | none => 0

/-- The 32 bytes of an entry as they read. -/
def State.winRead (s : State) (i : Nat) : Nat := s.staged i + s.winState i * 2 ^ 160

/-- A refused commit (R356, Table HST-4). -/
def State.winRefuse (s : State) (i c : Nat) : State :=
  if s.flag Reg.HWIN_STATUS_ERR then s
  else ((s.put Reg.HWIN_STATUS_ERR 1).put Reg.HWIN_STATUS_ENTRY i).put Reg.HWIN_STATUS_CODE c

/-- The code that refuses a commit of the staged bytes `r` (R360). -/
def winCheck (r : Nat) : Option Nat :=
  let z := winSizeCode r
  let valid := hasBit (winPerm r) 2
  if z < 12 ∨ 32 < z then some 2
  else if valid && (decide (2 ^ 32 < winBase r + 2 ^ z) || decide (2 ^ 34 < winTarget r + 2 ^ z)) then some 3
  else if valid && (winBase r % 2 ^ z != 0 || winTarget r % 4096 != 0) then some 6
  else none

/-- A write of HWIN_COMMIT: source 0 or 1 a port's BAR0, 2 firmware (R356, R360). -/
def State.winCommit (s : State) (source i : Nat) : State :=
  if source < 2 && !s.flag (Reg.HST_CTL_WIN_HOST_WR source) then s.winRefuse i 7
  else match winCheck (s.staged i) with
    | some c => s.winRefuse i c
    | none =>
      let v := match SMap.look s.winLive i with | some l => l.version | none => 0
      s.setWinLive (SMap.set s.winLive i ⟨s.staged i, (v + 1) % 65536, true⟩)

/-- HWIN_COMMIT (R360). -/
def execHwinCommit (source : Fin 3) (entry : Fin 64) (s : State) : Res := .next (s.winCommit source.val entry.val)

/-- WINDOW_DRAIN_DONE (R359, R360): no request uses an earlier version of the entry. -/
def execWindowDrainDone (entry : Fin 64) (s : State) : Res :=
  .next (match SMap.look s.winLive entry.val with
    | some l => s.setWinLive (SMap.set s.winLive entry.val { l with draining := false })
    | none => s)

/-- The live entry that serves a request of `n` bytes at window address `a` (R357): source 0 port A, 1 port B, 2 the
ring from member `m`. -/
def State.winMatch (s : State) (src m a n : Nat) : Option Nat :=
  (s.winLive.find? (fun e =>
    let r := e.2.raw
    hasBit (winPerm r) 2 && hasBit (winSrc r) src && (src != 2 || hasBit (winMembers r) m) &&
      decide (winBase r ≤ a) && decide (a + n ≤ winBase r + 2 ^ winSizeCode r) &&
      decide (a < winBase r + 2 ^ winSizeCode r))).map (fun e => e.2.raw)

/-- Where byte `a` of a request goes, if an entry with the permission serves it. -/
def State.winTo (s : State) (src m a n : Nat) (write : Bool) : Option Nat :=
  match s.winMatch src m a n with
  | some r => if hasBit (winPerm r) (b2n write) then some (winTarget r + (a - winBase r)) else none
  | none => none

/-- A request answered or reported as Unsupported Request. -/
def State.unsupportedReq (s : State) (p : Nat) : State := (s.inc (Reg.HST_UR_COUNT p)).answer .unsupported

/-- The port answers memory requests: Memory Space Enable is 1 and it is in D0 (R365). -/
def State.portMem (s : State) (p : Nat) : Bool :=
  s.flag (Reg.HST_LINK_MSE p) && s.get (Reg.HST_LINK_DSTATE p) == 0

/-- BAR2_REQUEST (R357, R358). -/
def execBar2Request (port : Fin 2) (write : Bool) (addr len data : Nat) (s : State) : Res :=
  let p := port.val
  .next (if !s.portMem p then s.unsupportedReq p
    else match s.winTo p 0 addr len write with
      | none => s.unsupportedReq p
      | some a =>
        if write then
          let r := s.bufWrite 3 a data len
          (if r.1 then r.2 else r.2.inc (Reg.HST_BAR2_ERR_COUNT p)).answer .none
        else
          let r := s.bufRead 3 a len
          match r.1 with
          | some v => r.2.answer (.data v)
          | none => (r.2.answer (.poisoned (Config.freeValue r.2.free))).draw 1)

/-! ## Address translation (R362 to R364) -/

/-- Entries held by a port. -/
def State.atsUsed (s : State) (p : Nat) : Nat := (s.ats.filter (fun e => e.port == p)).length

/-- The cache replaced; HST_ATS.USED follows. -/
def State.putAts (s : State) (l : List AtsEntry) : State :=
  let s := s.setAts l
  (s.put (Reg.HST_ATS_USED 0) (s.atsUsed 0)).put (Reg.HST_ATS_USED 1) (s.atsUsed 1)

/-- An entry covers the page. -/
def AtsEntry.covers (e : AtsEntry) (p page : Nat) : Bool :=
  e.port == p && decide (e.base ≤ page) && decide (page < e.base + e.len)

/-- The Translated address of a page, where the entry grants the access (R363). -/
def AtsEntry.target (e : AtsEntry) (page : Nat) (write : Bool) : Option Nat :=
  if (if write then e.wr else e.rd) then some (e.xlat + (page - e.base)) else none

/-- A 4 KiB page is accessed (R362, R363): its entry becomes the most recently used one and gives the Translated address, where it
grants the access; without an entry a Translation Request is sent and the access goes to the Untranslated address. -/
def State.atsPage (s : State) (p page : Nat) (write : Bool) : State :=
  match s.ats.find? (fun e => e.covers p page) with
  | some e => (s.setAts (e :: s.ats.filter (· != e))).emit (.hostPage p page write (e.target page write))
  | none =>
    (if s.atsReq.any (fun r => r.port == p && r.page == page) then s
    else (s.setAtsReq (s.atsReq ++ [(⟨p, page, false⟩ : AtsReq)])).emit (.atsRequest p page)).emit
      (.hostPage p page write none)

/-- The pages of `n` bytes at host address `a` are accessed, with ATS enabled (R362). -/
def State.atsTouch (s : State) (p a n : Nat) (write : Bool) : State :=
  if s.flag (Reg.HST_LINK_ATS_EN p) && n != 0 then
    s.each (List.range ((a + n - 1) / 4096 - a / 4096 + 1)) (fun s i => s.atsPage p ((a / 4096 + i) * 4096) write)
  else s

/-- ATS_TRANSLATION_COMPLETION (R363, R364): cached where it grants an access and its size is 4 KiB to 1 GiB; discarded
and requested again where an Invalidate Request covered it. -/
def execAtsTranslationCompletion (port : Fin 2) (addr len xlat : Nat) (rd wr : Bool) (s : State) : Res :=
  let p := port.val
  .next (match s.atsReq.find? (fun r => r.port == p && decide (addr ≤ r.page) && decide (r.page < addr + len)) with
    | none => s
    | some r =>
      let s := s.setAtsReq (s.atsReq.filter (· != r))
      if r.spoiled then (s.setAtsReq (s.atsReq ++ [(⟨p, r.page, false⟩ : AtsReq)])).emit (.atsRequest p r.page)
      else if (rd || wr) && s.flag (Reg.HST_LINK_ATS_EN p) && decide (4096 ≤ len) && decide (len ≤ 2 ^ 30) then
        s.putAts (((⟨p, addr, len, xlat, rd, wr⟩ : AtsEntry) :: s.ats).take 1024)
      else s)

/-- Two ranges overlap. -/
def rangesMeet (a n b m : Nat) : Bool := decide (a < b + m) && decide (b < a + n)

/-- ATS_INVALIDATE (R364): matching entries are used no more, and requests in flight that it covers are spoiled. -/
def execAtsInvalidate (port : Fin 2) (addr len tag : Nat) (s : State) : Res :=
  let p := port.val
  let s := s.putAts (s.ats.filter (fun (e : AtsEntry) => !(e.port == p && rangesMeet e.base e.len addr len)))
  .next (((s.setAtsReq (s.atsReq.map (fun (r : AtsReq) =>
        if r.port == p && rangesMeet r.page 4096 addr len then { r with spoiled := true } else r))).setAtsInv (s.atsInv ++ [(p, tag)])).hstEvt p (Reg.HST_EVT_ATS_INV p))

/-- ATS_INVALIDATE_COMPLETE (R364): the requests that used the entries have ended. -/
def execAtsInvalidateComplete (port : Fin 2) (s : State) : Res :=
  let p := port.val
  .next (match s.atsInv.find? (fun x => x.1 == p) with
    | some x => ((s.setAtsInv (s.atsInv.erase x)).emit (.atsInvalidateDone p x.2)).inc (Reg.HST_ATS_INV_COUNT p)
    | none => s)

/-- Every entry of a port is invalidated: ATS Enable is cleared, or the port is reset. -/
def State.atsDrop (s : State) (p : Nat) : State :=
  (s.putAts (s.ats.filter (fun e => e.port != p))).setAtsReq (s.atsReq.filter (fun r => r.port != p))

/-! ## MSI-X and transfers -/

/-- Word `k` of the MSI-X table; a vector is masked at reset. -/
def State.msixWord (s : State) (p k : Nat) : Nat := SMap.get (s.port p).msix (if k % 4 = 3 then 1 else 0) k

/-- The message of a vector may be sent: the function and the vector permit it, and the port is not frozen (R368, R369). -/
def State.msixReady (s : State) (p v : Nat) : Bool :=
  let x := s.port p
  x.msixEn && !x.msixMask && !hasBit (s.msixWord p (4 * v + 3)) 0 && s.flag (Reg.HST_LINK_BME p) &&
    !s.flag (Reg.HSTS_BML p) && s.get (Reg.HST_LINK_DSTATE p) == 0

/-- Vector `v` is raised: its message is sent, or its pending bit sets while it is masked. -/
def State.msix (s : State) (p v : Nat) : State :=
  if !(s.port p).msixEn then s
  else if s.msixReady p v then
    s.emit (.msix p (s.msixWord p (4 * v) + 2 ^ 32 * s.msixWord p (4 * v + 1)) (s.msixWord p (4 * v + 2)))
  else s.modPort p (fun x => { x with pba := setBit x.pba v })

/-- Pending vectors that are no longer masked are sent. -/
def State.msixDrain (s : State) (p : Nat) : State :=
  s.each ((maskBits 256 (s.port p).pba).filter (s.msixReady p)) (fun s v =>
    (s.modPort p (fun x => { x with pba := clrBit x.pba v })).msix p v)

/-- A word of the MSI-X table written. -/
def State.msixWrite (s : State) (p k v : Nat) : State :=
  (s.modPort p (fun x => { x with msix := SMap.put x.msix (if k % 4 = 3 then 1 else 0) k (v % 2 ^ 32) })).msixDrain p

/-- The pieces of host memory, address and length, that bytes `off` to `off + n - 1` of a command's data occupy (15
R383). -/
def segPieces : List (Nat × Nat) → Nat → Nat → List (Nat × Nat)
  | [], _, _ => []
  | (a, l) :: r, off, n =>
    if n = 0 then []
    else if l ≤ off then segPieces r (off - l) n
    else (a + off, min (l - off) n) :: segPieces r 0 (n - min (l - off) n)

/-- Data written to pieces of host memory. -/
def State.hostPieces (s : State) (p data : Nat) : List (Nat × Nat) → State
  | [] => s
  | (a, l) :: r => State.hostPieces ((s.atsTouch p a l true).emit (.hostWrite p a l (data % 256 ^ l))) p (data / 256 ^ l) r

/-- `n` bytes of a command's data, from byte `off` of its buffer, written to host memory. -/
def State.hostWrite (s : State) (p : Nat) (segs : List (Nat × Nat)) (off n data : Nat) : State :=
  s.hostPieces p data (segPieces segs off n)

/-- `n` bytes of a command's data read from host memory. -/
def State.hostRead (s : State) (p : Nat) (segs : List (Nat × Nat)) (off n : Nat) : State :=
  s.each (segPieces segs off n) (fun s x => s.atsTouch p x.1 x.2 false)

end Sys2Proof.Machine
end

