-- ==== Sys2Proof/Machine/Package.lean ====
section
/-! DEFINITION. Firmware packages (16 R412, R413; 17 R426, R428): headers, descriptors, combinations, the package that
the staging slot holds, and the composite package of an install. -/

namespace Sys2Proof.Machine

/-! ## Image descriptors (Table ADM-11) -/

def imgType (d : Nat) : Nat := bytesAt d 0 1
def imgFlags (d : Nat) : Nat := bytesAt d 1 1
def imgLevel (d : Nat) : Nat := bytesAt d 2 2
def imgSteps (d : Nat) : Nat := bytesAt d 4 1
def imgOffset (d : Nat) : Nat := bytesAt d 8 4
def imgSize (d : Nat) : Nat := bytesAt d 12 4
/-- Accepted levels of TYPE t: minimum and maximum. -/
def imgRange (d t : Nat) : Nat × Nat :=
  let r := bytesAt d (0x10 + 4 * (t - 1)) 4
  (r % 65536, r / 65536)
def imgRing (d : Nat) : Nat × Nat := (bytesAt d 0x20 2, bytesAt d 0x22 2)
def imgVersion (d : Nat) : Nat := bytesAt d 0x24 4

/-! ## Headers (Table ADM-10, R412) -/

def hdrFormat (h : Nat) : Nat := bytesAt h 4 2
def hdrCount (h : Nat) : Nat := bytesAt h 6 2
def hdrTotal (h : Nat) : Nat := bytesAt h 8 4
/-- The descriptors of a header. -/
def hdrDescs (h : Nat) : List Nat := (List.range (hdrCount h)).map (fun i => bytesAt h (0x10 + 128 * i) 128)

/-- 64 MiB: a slot. -/
def slotBytes : Nat := 67108864
/-- The signature block (17 R426). -/
def sigBytes : Nat := 8192

/-- No TYPE appears twice. -/
def typesDistinct : List Nat → Bool
  | [] => true
  | d :: ds => ds.all (fun e => imgType e != imgType d) && typesDistinct ds

/-- The images do not overlap. -/
def imagesApart : List Nat → Bool
  | [] => true
  | d :: ds => ds.all (fun e => !rangesMeet (imgOffset d) (imgSize d) (imgOffset e) (imgSize e)) && imagesApart ds

/-- A descriptor as Table ADM-11 lays it out. -/
def descOk (total d : Nat) : Bool :=
  decide (1 ≤ imgType d) && decide (imgType d ≤ 4) && decide (1 ≤ imgLevel d) && imgOffset d % 4096 == 0 &&
    decide (1 ≤ imgSize d) && decide (imgOffset d + imgSize d ≤ total) && imgRange d (imgType d) == (0, 0)

/-- The header verifies, with one of the formats allowed (R412). -/
def hdrOk (h format : Nat) : Bool :=
  bytesAt h 0 4 == 0x49585058 && hdrFormat h == format && decide (1 ≤ hdrCount h) && decide (hdrCount h ≤ 4) &&
    hdrTotal h % 4096 == 0 && decide (hdrTotal h ≤ slotBytes - sigBytes) &&
    bytesAt h (0x10 + 128 * hdrCount h) (1008 - 128 * hdrCount h) == 0 &&
    (hdrDescs h).all (descOk (hdrTotal h)) && typesDistinct (hdrDescs h) && imagesApart (hdrDescs h)

/-! ## Packages -/

/-- The image of a TYPE in a package: its descriptor and its bytes. -/
def FwPkg.image (p : FwPkg) (t : Nat) : Option (Nat × Nat) := (p.descs.zip p.images).find? (fun x => imgType x.1 == t)

/-- The descriptor of a TYPE. -/
def FwPkg.desc (p : FwPkg) (t : Nat) : Option Nat := p.descs.find? (fun d => imgType d == t)

/-- KEY_ID and SVN of a signature block (17 Table SEC-3). -/
def sigKeyId (g : Nat) : Nat := bytesAt g 6 1
def sigSvn (g : Nat) : Nat := bytesAt g 8 4

/-- The package's SVN: the lowest of its sources (17 R428). -/
def FwPkg.svn (p : FwPkg) : Nat :=
  match p.sources with
  | [] => 0
  | x :: xs => xs.foldl (fun m y => min m (sigSvn y.2)) (sigSvn x.2)

/-- The signed message of a source: the header and the first 0xAA0 bytes of the signature block (17 R426). -/
def signedMessage (x : Nat × Nat) : Nat := x.1 % 256 ^ 1024 + x.2 % 256 ^ 0xAA0 * 256 ^ 1024

/-- The source that supplies MAIN: the first source whose header holds a MAIN equal to the package's. -/
def FwPkg.mainSource (p : FwPkg) : Option (Nat × Nat) :=
  p.sources.find? (fun x => (hdrDescs x.1).any (fun d => imgType d == 1 && some d == p.desc 1))

/-- The bit of STEPS for a stepping: A0, B0, B1 (R413; 02 Table PWR-9); no bit for any other code. -/
def stepBit (step : Nat) : Nat :=
  if step % 256 = 0 then 0 else if step % 256 = 0x10 then 1 else if step % 256 = 0x11 then 2 else 8

/-- Bytes `off` to `off + n - 1` of the staging slot. -/
def State.stagedBytes (s : State) (off n : Nat) : Nat :=
  bytesAt ((List.range ((off + n) / 4096 + 1 - off / 4096)).foldl
    (fun v i => v + SMap.get s.adm.staging 0 (off / 4096 + i) * 256 ^ (4096 * i)) 0) (off % 4096) n

/-- The staged header. -/
def State.stagedHeader (s : State) : Nat := s.stagedBytes 0 1024

/-- The staged package is complete: its header verifies with FORMAT 1, and TOTAL_BYTES plus the signature block were
received (Table ADM-13 check 5; 17 R428). -/
def State.stagedComplete (s : State) : Bool :=
  hdrOk s.stagedHeader 1 &&
    (match s.adm.received with | some n => decide (hdrTotal s.stagedHeader + sigBytes ≤ n * 4096) | none => false)

/-- The staged package. -/
def State.stagedPkg (s : State) : Option FwPkg :=
  let h := s.stagedHeader
  if s.stagedComplete then
    some { format := 1, total := hdrTotal h, descs := hdrDescs h
           images := (hdrDescs h).map (fun d => s.stagedBytes (imgOffset d) (imgSize d))
           sources := [(h, s.stagedBytes (hdrTotal h) sigBytes)] }
  else none

/-- The package in the recovery slot at manufacture; no command writes that slot (R416). -/
def factoryRecovery : FwPkg :=
  { format := 1, total := hdrTotal Config.factoryHeader, descs := hdrDescs Config.factoryHeader
    images := (hdrDescs Config.factoryHeader).map (fun d => Config.factoryImage (imgType d))
    sources := [(Config.factoryHeader, Config.factorySig)] }

/-- The recovery slot. -/
def State.recoverySlot (s : State) : FwPkg := s.adm.recovery.getD factoryRecovery

/-- A package's header verifies (R412); of a composite, each source's does, and each descriptor equals the one of its TYPE
in a source (17 R428). -/
def FwPkg.headerOk (p : FwPkg) : Bool :=
  if p.format = 1 then
    (match p.sources with | [x] => hdrOk x.1 1 && p.descs == hdrDescs x.1 | _ => false)
  else
    decide (1 ≤ p.sources.length) && decide (p.sources.length ≤ 2) && p.sources.all (fun x => hdrOk x.1 1) &&
      decide (1 ≤ p.descs.length) && typesDistinct p.descs &&
      p.descs.all (fun d => p.sources.any (fun x => (hdrDescs x.1).contains d))

/-- The security version condition holds for every source (17 R427 step 3). -/
def FwPkg.svnOk (p : FwPkg) (fuse : Nat) : Bool := p.sources.all (fun x => decide (fuse ≤ sigSvn x.2))

/-- A package verifies, with what its checks found (17 R427, R428). -/
def FwPkg.verifies (p : FwPkg) (fuse : Nat) (c : PkgCheck) : Bool :=
  p.headerOk && c.key && p.svnOk fuse && c.ecdsa && c.mldsa && c.digests

/-! ## Combinations (R413) -/

/-- LEVEL of Y lies within RANGE_Y of X. -/
def levelIn (x y : Nat) : Bool :=
  let r := imgRange x (imgType y)
  decide (r.1 ≤ imgLevel y) && decide (imgLevel y ≤ r.2)

/-- Two images accept each other. -/
def pairOk (x y : Nat) : Bool := levelIn x y && levelIn y x

/-- The stepping is set in STEPS. -/
def stepOk (step d : Nat) : Bool := hasBit (imgSteps d) (stepBit step)

/-- A combination is compatible. -/
def compatible (step : Nat) (ds : List Nat) : Bool :=
  ds.all (stepOk step) && ds.all (fun x => ds.all (fun y => imgType x == imgType y || pairOk x y))

/-- MAIN of a combination supports the stepping. -/
def mainSupports (step : Nat) (ds : List Nat) : Bool :=
  match ds.find? (fun d => imgType d == 1) with
  | some d => stepOk step d
  | none => false

/-- The merged combination: each image from the staging package where it holds the TYPE, otherwise from the other
package (R417). -/
def mergedDescs (new : FwPkg) (old : Option FwPkg) : List Nat :=
  new.descs ++ (match old with
    | some o => o.descs.filter (fun d => (new.desc (imgType d)).isNone)
    | none => [])

/-- The composite package of an install (17 R428): descriptors and images from their sources, the staging source first;
a second source only where it supplies an image. -/
def composite (new : FwPkg) (old : Option FwPkg) : FwPkg :=
  let keep : List (Nat × Nat) := match old with
    | some o => (o.descs.zip o.images).filter (fun x => (new.desc (imgType x.1)).isNone)
    | none => []
  let descs := new.descs ++ keep.map Prod.fst
  { format := 2
    total := 4096 + descs.foldl (fun n d => n + ceilDiv (imgSize d) 4096 * 4096) 0
    descs := descs, images := new.images ++ keep.map Prod.snd
    sources := new.sources ++ (match old with
      | some o => (o.sources.filter (fun x => (hdrDescs x.1).any (fun d => keep.any (fun k => k.1 == d)))).take 1
      | none => []) }

/-- The composite fits one slot: its images and its source block (17 R428). -/
def FwPkg.fits (p : FwPkg) : Bool := decide (p.total + 9216 * p.sources.length ≤ slotBytes)

end Sys2Proof.Machine
end

