-- ==== Sys2Proof/Machine/Namespaces.lean ====
section
/-! DEFINITION. Namespaces, zones and key ranges as the fetch checks of 15 Table IQI-4 use them (steps 6 to 8), and the
waits at step 7 (17 R441). -/

namespace Sys2Proof.Machine

/-! ## Submission entries (15 Table IQI-2) -/

def sqeFlags (e : Nat) : Nat := bytesAt e 1 1
def sqeCid (e : Nat) : Nat := bytesAt e 2 2
def sqeNsid (e : Nat) : Nat := bytesAt e 4 4
def sqeLen (e : Nat) : Nat := bytesAt e 8 4
def sqeSlba (e : Nat) : Nat := bytesAt e 0x10 8
def sqeDptr (e : Nat) : Nat := bytesAt e 0x18 8
def sqeSegs (e : Nat) : Nat := bytesAt e 0x20 2
/-- `n` bytes of the entry from `off`. -/
def sqeAt (e off n : Nat) : Nat := bytesAt e off n

/-! ## Namespaces (R404) -/

def State.nsOn (s : State) (n : Nat) : Bool := decide (1 ≤ n) && decide (n ≤ 16) && s.flag (Reg.IQI_NS_CTL_EN n)
def State.nsCap (s : State) (n : Nat) : Nat := s.get64 (Reg.IQI_NS_CAP_LO_CAP n) (Reg.IQI_NS_CAP_HI_CAP n)
def State.nsConv (s : State) (n : Nat) : Nat := s.get (Reg.IQI_NS_CONV_CONV n)

/-- The LBA lies in a sequential-write zone. -/
def State.isSeq (s : State) (n lba : Nat) : Bool := decide (s.nsConv n ≤ lba / zoneBlocks)

def zoneKey (n z : Nat) : Nat := n * 2 ^ 32 + z
def State.zone (s : State) (n z : Nat) : Zone := SMap.get s.spt.zones ⟨0, 0⟩ (zoneKey n z)
def State.putZone (s : State) (n z : Nat) (x : Zone) : State :=
  s.putMeta (fun p => { p with zones := SMap.put p.zones ⟨0, 0⟩ (zoneKey n z) x })

/-- The write pointer of a zone as an LBA. -/
def State.wp (s : State) (n z : Nat) : Nat := z * zoneBlocks + (s.zone n z).wp

/-! ## What a command covers (15 R395) -/

/-- The blocks of an I/O command, and whether it modifies them. -/
structure Span where
  nsid : Nat
  lba : Nat
  n : Nat
  mods : Bool
  deriving DecidableEq, Repr

/-- The span of a submission entry. -/
def sqeSpan (e : Nat) : Option Span :=
  let o := sqeOpc e
  if o = 0x10 ∨ o = 0x12 then some ⟨sqeNsid e, sqeSlba e, sqeLen e, false⟩
  else if o = 0x11 then some ⟨sqeNsid e, sqeSlba e, sqeLen e, true⟩
  else if o = 0x20 ∨ o = 0x21 then some ⟨sqeNsid e, sqeSlba e, sqeLen e * zoneBlocks, true⟩
  else none

/-- Two spans overlap. -/
def Span.meets (a b : Span) : Bool := a.nsid == b.nsid && rangesMeet a.lba a.n b.lba b.n && (a.mods || b.mods)

/-- Two spans touch a zone in common. -/
def Span.zoneMeets (a b : Span) : Bool :=
  a.nsid == b.nsid && decide (a.lba / zoneBlocks * zoneBlocks < b.lba + b.n) &&
    decide (b.lba / zoneBlocks * zoneBlocks < a.lba + a.n)

/-- The command is completion-committed or has ended. -/
def Cmd.open (k : Cmd) : Bool := k.commit.isNone

/-- An I/O command (not the admin pair). -/
def Cmd.io (k : Cmd) : Bool := k.qid != 0

/-- The span of an outstanding command. -/
def Cmd.span (k : Cmd) : Option Span := if k.io then sqeSpan k.sqe else none

/-- A pending SEC_RANGE command touches a span (17 R441). -/
def State.secTouches (s : State) (k : Cmd) (x : Span) : Bool :=
  let r := sqeAt k.sqe 0x29 1
  !k.io && sqeOpc k.sqe == 0x83 && k.open &&
    (r == 0xFF || (s.rangesOf x.nsid x.lba x.n).contains r ||
      (sqeAt k.sqe 0x28 1 == 1 && sqeNsid k.sqe == x.nsid &&
        rangesMeet (sqeSlba k.sqe) (sqeLen k.sqe * zoneBlocks) x.lba x.n))

/-- The command `seq` waits at step 7: a lower-numbered SEC_RANGE command names a range it touches (17 R441), or, for a
WRITE, a lower-numbered zone command or waiting WRITE of one of its zones is not decided (R395, R401). -/
def State.mustWait (s : State) (seq e : Nat) : Bool :=
  match sqeSpan e with
  | none => false
  | some x => s.cmds.any (fun c => decide (c.1 < seq) && c.2.open &&
      (s.secTouches c.2 x || (sqeOpc e == 0x11 && (match c.2.span with
        | some y => (sqeOpc c.2.sqe == 0x20 || sqeOpc c.2.sqe == 0x21 || (sqeOpc c.2.sqe == 0x11 && c.2.waiting)) &&
            y.zoneMeets x
        | none => false))))

/-! ## Steps 7 and 8 (15 Table IQI-4) -/

/-- Step 7: MEDIA_LOCKED, KEY_RANGE_LOCKED (17 R440). -/
def State.step7 (s : State) (e : Nat) : Nat :=
  if s.flag Reg.IQI_CTL_MEDIA_LOCK then 0x17
  else match sqeSpan e with
    | some x =>
      if (s.rangesOf x.nsid x.lba x.n).any (fun r => if x.mods then (s.range r).wlock else (s.range r).rlock) then 0x18 else 0
    | none => 0

/-- The first sequential-write zone that a range reaches (R401). -/
def State.firstSeqZone (s : State) (nsid lba n : Nat) : Option Nat :=
  let c := s.nsConv nsid
  if c ≤ lba / zoneBlocks then some (lba / zoneBlocks)
  else if c * zoneBlocks < lba + n then some c
  else none

/-- Step 8 for a WRITE: the zone rules, and the advance of WP (R401). -/
def State.step8 (s : State) (nsid lba n : Nat) : Nat × State :=
  match s.firstSeqZone nsid lba n with
  | none => (0, s)
  | some z =>
    if (s.zone nsid z).st = 2 then (0x0B, s)
    else if max lba (z * zoneBlocks) ≠ s.wp nsid z then (0x0A, s)
    else if (z + 1) * zoneBlocks < lba + n then (0x09, s)
    else
      let w := lba + n - z * zoneBlocks
      (0, s.putZone nsid z ⟨w, if w = zoneBlocks then 2 else 1⟩)

/-- Steps 7 and 8 of a command. -/
def State.admitCmd (s : State) (e : Nat) : Nat × State :=
  let c := s.step7 e
  if c ≠ 0 then (c, s)
  else if sqeOpc e = 0x11 then s.step8 (sqeNsid e) (sqeSlba e) (sqeLen e)
  else (0, s)

/-! ## The end of a command -/

/-- A command's completion is fixed, unless it was fixed before (R396). -/
def State.complete (s : State) (seq sc info result : Nat) : State :=
  match SMap.look s.cmds seq with
  | some k => if k.open then s.commit seq ⟨sc, info, result⟩ else s
  | none => s

/-- INFO when no block failed. -/
def noInfo : Nat := 0xFFFFFFFF

/-- One waiting command looks again at steps 7 and 8. -/
def State.recheck (s : State) (seq : Nat) : State :=
  match SMap.look s.cmds seq with
  | some k =>
    if k.waiting && k.open && !s.mustWait seq k.sqe then
      let s := s.setCmds (SMap.set s.cmds seq { k with waiting := false })
      let r := s.admitCmd k.sqe
      if r.1 = 0 then r.2 else r.2.complete seq r.1 noInfo 0
    else s
  | none => s

/-- Waiting commands look again, in the order of their sequence numbers. -/
def State.settle (s : State) : State := s.each (SMap.keys s.cmds) State.recheck

end Sys2Proof.Machine
end

