-- ==== Sys2Proof/Machine/Queues.lean ====
section
/-! DEFINITION. Queue pairs, setup words, doorbells, the controller's enable, the freezing of a port and its resets
(14 R365 to R370, 15 R372 to R378), and BAR0 (14 R355). -/

namespace Sys2Proof.Machine

/-! ## Queue pairs -/

def pairKey (p q : Nat) : Nat := 65536 * p + q
def State.pair (s : State) (p q : Nat) : Option Pair := SMap.look s.pairs (pairKey p q)
def State.putPair (s : State) (p q : Nat) (x : Pair) : State := { s with pairs := SMap.set s.pairs (pairKey p q) x }

/-- A new pair: heads and tails at 0, the first pass with P = 1 (R374, R386). -/
def newPair (sqBase cqBase sqDepth cqDepth vector : Nat) (ien : Bool) : Pair :=
  { sqBase := sqBase, cqBase := cqBase, sqDepth := sqDepth, cqDepth := cqDepth, vector := vector, ien := ien
    sqHead := 0, sqTail := 0, cqHead := 0, cqTail := 0, phase := true }

/-- The device has reached Ready (02 Table PWR-7). -/
def State.ready (s : State) : Bool := decide (11 ≤ s.pwr.step)

/-- HSTS.RDY (R374): Ready, EN is 1 and the admin pair exists. -/
def State.rdy (s : State) (p : Nat) : Bool :=
  s.ready && s.flag (Reg.HCTL_EN p) && (s.pair p 0).isSome

/-! ## Discarded commands (14 R370; 15 R375, R376, R397) -/

/-- The blocks of a WRITE that is not completion-committed leave the buffer; its LBAs hold the old content, but for
blocks already on media. -/
def State.dropBlocks (s : State) (seq : Nat) : State :=
  let s := s.each (s.cache.filter (fun e => e.2.seq == seq && !e.2.committed)) (fun s e =>
    match e.2.win with
    | some i => s.freeWin i
    | none => s)
  s.setCache (s.cache.filter (fun e => !(e.2.seq == seq && !e.2.committed)))

/-- Commands are discarded: no completion is posted for any of them. -/
def State.discard (s : State) (which : Cmd → Bool) : State :=
  let gone := s.cmds.filter (fun e => which e.2)
  let s := s.each (gone.filter (fun e => e.2.open)) (fun s e => s.dropBlocks e.1)
  (s.setCmds (s.cmds.filter (fun e => !which e.2))).settle

/-- The queue pairs of a port that satisfy `which` are deleted with their commands. -/
def State.deletePairs (s : State) (p : Nat) (which : Nat → Bool) : State :=
  let s := s.discard (fun c => c.port == p && which c.qid)
  s.setPairs (s.pairs.filter (fun e => !(e.1 / 65536 == p && which (e.1 % 65536))))

/-! ## Reset of a port (R370) -/

/-- The port's commands are discarded, its queues deleted, its BAR0 registers, configuration bits and translation-cache
entries reset. -/
def State.portReset (s : State) (p : Nat) : State :=
  let s := (s.deletePairs p (fun _ => true)).atsDrop p
  let s := ((s.put (Reg.HCTL_EN p) 0).put (Reg.HSTS_BML p) 0).put (Reg.HSTS_RESUME_WAIT p) 0
  let s := (((s.put (Reg.HST_LINK_BME p) 0).put (Reg.HST_LINK_MSE p) 0).put (Reg.HST_LINK_ATS_EN p) 0).put
    (Reg.HST_LINK_DSTATE p) 0
  s.modPort p (fun x => { x with
    pmeEn := false, msixEn := false, msixMask := false, speedDis := false, widthDis := false, reads := false
    asq := 0, acq := 0, adepth := 0, msix := [], pba := 0, rr := 0 })

/-- FUNCTION_LEVEL_RESET (R370). -/
def execFunctionLevelReset (port : Fin 2) (s : State) : Res :=
  let p := port.val
  .next ((((s.portReset p).modPort p (fun x => { x with flr := true })).raise 0x0A02 p).hstEvt p (Reg.HST_EVT_FLR p))

/-- FLR_DONE (R370): configuration requests are answered again. -/
def execFlrDone (port : Fin 2) (s : State) : Res := .next (s.modPort port.val (fun x => { x with flr := false }))

/-- The data link of a port goes down. -/
def State.linkDown (s : State) (p : Nat) : State :=
  let s := s.when (s.flag (Reg.HST_LINK_UP p)) (·.hstEvt p (Reg.HST_EVT_LINK_DOWN p))
  let s := ((s.put (Reg.HST_LINK_UP p) 0).put (Reg.HST_LINK_LSTATE p) 6).put (Reg.HST_LINK_RATE p) 0
  ((s.put (Reg.HST_LINK_WIDTH p) 0).put (Reg.HST_LINK_FLIT p) 0).modPort p (fun x => { x with linkSaved := none })

/-- LINK_DOWN (R370): a hot reset or link-down. -/
def execLinkDown (port : Fin 2) (s : State) : Res := .next ((s.linkDown port.val).portReset port.val)

/-- PERST_ASSERT (01 R39, 14 R370): the port is held in reset; nothing else is. While the pin is high impedance or SYS_POR_N is
low it is ignored (01 Table MOD-8): only its level is there when SYS_POR_N rises. -/
def execPerstAssert (p : Fin 2) (s : State) : Res :=
  .next (if s.pwr.vio && s.pwr.por then
      (((s.linkDown p.val).portReset p.val).modPort p.val (fun x => { x with perst := true })).hstEvt p.val
        (Reg.HST_EVT_PERST p.val)
    else s.modPort p.val (fun x => { x with perst := true }))

/-- PERST_DEASSERT (01 R39, 14 R366): the port leaves reset and its WAKE_N is released. -/
def execPerstDeassert (p : Fin 2) (s : State) : Res :=
  .next (s.modPort p.val (fun x => { x with perst := false, wakeN := false }))

/-! ## Bus Master Enable (R368, R369) -/

/-- The opcodes that move data through DPTR (15 Table IQI-6, 16 Table ADM-1, 17 Table SEC-8). -/
def movesData (qid opc : Nat) : Bool :=
  if qid = 0 then [0x06, 0x08, 0x0C, 0x80, 0x81, 0x82, 0x83, 0x84, 0x85].contains opc
  else [0x10, 0x11, 0x22].contains opc

/-- The command's host-memory transfer is unfinished. -/
def Cmd.transferring (k : Cmd) : Bool := movesData k.qid (sqeOpc k.sqe) && k.open && !k.begun

/-- BUS_MASTER_DISABLE (R368); `reads` says that reads issued before it are outstanding. -/
def execBusMasterDisable (port : Fin 2) (reads : Bool) (s : State) : Res :=
  let p := port.val
  .next (if s.flag (Reg.HST_LINK_BME p) then
      let s := ((s.put (Reg.HST_LINK_BME p) 0).put (Reg.HSTS_BML p) 1).putB (Reg.HSTS_RESUME_WAIT p) reads
      let s := ((s.modPort p (fun x => { x with reads := reads })).setCmds (s.cmds.map (fun (e : Nat × Cmd) =>
          (e.1, if e.2.port == p && e.2.transferring then { e.2 with interrupted := true } else e.2))))
      (s.raise 0x0A01 p).hstEvt p (Reg.HST_EVT_BML p)
    else s)

/-- BME_READS_DRAINED (R368): those reads have completed or timed out. -/
def execBmeReadsDrained (port : Fin 2) (s : State) : Res :=
  .next ((s.modPort port.val (fun x => { x with reads := false })).put (Reg.HSTS_RESUME_WAIT port.val) 0)

/-- A write of HCTL.RESUME (R369). -/
def State.resume (s : State) (p : Nat) : State :=
  if s.flag (Reg.HST_LINK_BME p) && s.flag (Reg.HSTS_BML p) && !s.flag (Reg.HSTS_RESUME_WAIT p) then
    let s := s.put (Reg.HSTS_BML p) 0
    let s := s.each (s.cmds.filter (fun e => e.2.port == p && e.2.interrupted)) (fun s e => s.complete e.1 0x11 noInfo 0)
    s.settle.msixDrain p
  else s

/-- HCTL_RESUME (R369). -/
def execHctlResume (port : Fin 2) (s : State) : Res := .next (s.resume port.val)

/-- The port moves data to and from host memory and posts now (R365, R368; 11 Table SPT-4 step 2; 21 R531); not while the
clock of its SerDes quad or of the queue engine is stopped (02 R43). -/
def State.portRuns (s : State) (p : Nat) : Bool :=
  s.clkOk (21 + p) && s.clkOk 43 && s.flag (Reg.HST_LINK_BME p) && !s.flag (Reg.HSTS_BML p) && s.get (Reg.HST_LINK_DSTATE p) == 0

/-- The port's configuration space answers: from step 3 of Table PWR-7 on (02 R65, R68), while its PERST_N is high
and no function-level reset runs (R370). -/
def State.cfgAnswers (s : State) (p : Nat) : Bool := decide (3 ≤ s.pwr.step) && !(s.port p).perst && !(s.port p).flr

/-- The port's configuration bits written, its D-state among them (R365). -/
def State.cfgWrite (s : State) (p : Nat) (cfg : PortCfg) : State :=
  let d := if cfg.d3hot then 3 else 0
  let s := s.when (s.get (Reg.HST_LINK_DSTATE p) != d) (·.hstEvt p (Reg.HST_EVT_DSTATE p))
  let s := (s.put (Reg.HST_LINK_DSTATE p) d).when cfg.bme (·.put (Reg.HST_LINK_BME p) 1)
  let s := (s.putB (Reg.HST_LINK_MSE p) cfg.mse).when (s.flag (Reg.HST_LINK_ATS_EN p) && !cfg.atsEn) (·.atsDrop p)
  let s := (s.putB (Reg.HST_LINK_ATS_EN p) cfg.atsEn).modPort p (fun x => { x with
    pmeEn := cfg.pmeEn, msixEn := cfg.msixEn, msixMask := cfg.msixMask, speedDis := cfg.speedDis, widthDis := cfg.widthDis })
  s.msixDrain p

/-- DSTATE_WRITE (R365): the host writes the port's configuration bits, its D-state among them. -/
def execDstateWrite (port : Fin 2) (cfg : PortCfg) (s : State) : Res :=
  .next (if s.cfgAnswers port.val then s.cfgWrite port.val cfg else s)

/-! ## Setup words and the controller's enable (R373 to R375) -/

/-- ADEPTH with its reserved bits 0 (00 R7). -/
def adepthOf (v : Nat) : Nat := bits v 16 0 + bits v 48 32 * 2 ^ 32

/-- A write of a setup word; a value that fails its rule is dropped. -/
def State.setupWrite (s : State) (p off len v : Nat) : State :=
  if s.flag (Reg.HCTL_EN p) ∨ len ≠ 8 then s
  else if off = 0x1000 ∧ v % 4096 = 0 then s.modPort p (fun x => { x with asq := v % 2 ^ 64 })
  else if off = 0x1008 ∧ v % 4096 = 0 then s.modPort p (fun x => { x with acq := v % 2 ^ 64 })
  else if off = 0x1010 ∧ 2 ≤ bits v 16 0 ∧ bits v 16 0 ≤ 4096 ∧ 2 ≤ bits v 48 32 ∧ bits v 48 32 ≤ 4096 then
    s.modPort p (fun x => { x with adepth := adepthOf v })
  else s

/-- ADMIN_SETUP_WRITE (R373). -/
def execAdminSetupWrite (port : Fin 2) (off len data : Nat) (s : State) : Res := .next (s.setupWrite port.val off len data)

/-- HCTL.EN becomes 1 (R374). -/
def State.enable (s : State) (p : Nat) : State :=
  if s.flag (Reg.HCTL_EN p) then s
  else
    let x := s.port p
    let s := s.put (Reg.HCTL_EN p) 1
    let d := bits x.adepth 16 0
    let c := bits x.adepth 48 32
    if d = 0 ∨ c = 0 then s else s.putPair p 0 (newPair x.asq x.acq d c 0 true)

/-- CONTROLLER_ENABLE (R374). -/
def execControllerEnable (port : Fin 2) (s : State) : Res := .next (s.enable port.val)

/-- HCTL.EN becomes 0 (R375). -/
def State.disable (s : State) (p : Nat) : State :=
  if s.flag (Reg.HCTL_EN p) then
    ((s.deletePairs p (fun _ => true)).put (Reg.HCTL_EN p) 0).modPort p (fun x =>
      { x with asq := 0, acq := 0, adepth := 0, rr := 0 })
  else s

/-- CONTROLLER_DISABLE (R375). -/
def execControllerDisable (port : Fin 2) (s : State) : Res := .next (s.disable port.val)

/-- A write of HCTL. -/
def State.hctl (s : State) (p v : Nat) : State :=
  let s := if hasBit v 0 then s.enable p else s.disable p
  s.when (hasBit v 1) (·.resume p)

/-! ## Doorbells (R377, R378) -/

/-- An invalid doorbell write: its event names the pair. -/
def State.badDoorbell (s : State) (p q : Nat) : State :=
  let s := (s.inc Reg.IQI_BAD_DB_COUNT).raiseNamed 0x0B01 p [p, q]
  s.when (s.flag (Reg.HCTL_EN p)) (·.queueEvent p 0x02 q)

/-- A doorbell word written: the submission tail, or the completion head. -/
def State.doorbell (s : State) (p q : Nat) (head : Bool) (v : Nat) : State :=
  match s.pair p q with
  | none => s.badDoorbell p q
  | some x =>
    if head then
      if x.cqDepth ≤ v ∨ (x.cqTail + x.cqDepth - x.cqHead) % x.cqDepth < (v + x.cqDepth - x.cqHead) % x.cqDepth then
        s.badDoorbell p q
      else s.putPair p q { x with cqHead := v }
    else if x.sqDepth ≤ v then s.badDoorbell p q
    else s.putPair p q { x with sqTail := v }

/-- A write of the doorbells of a pair: one word, or both with the submission tail first (R377). -/
def State.doorbells (s : State) (p off len v : Nat) : State :=
  let q := (off - 0x1000) / 8
  if len = 8 then (s.doorbell p q false (bits v 15 0)).doorbell p q true (bits v 47 32)
  else s.doorbell p q (decide (off % 8 = 4)) (bits v 15 0)

/-! ## BAR0 (14 R355, Tables HST-3 and HST-4) -/

/-- HSTS as it reads. -/
def State.hsts (s : State) (p : Nat) : Nat :=
  b2n (s.rdy p) * 2 ^ 31 + s.get (Reg.HSTS_BML p) * 2 ^ 30 + s.get (Reg.HSTS_RESUME_WAIT p) * 2 ^ 29 +
    s.get (Reg.HSTS_FATAL p) * 2 ^ 28

/-- A 32-bit word of BAR0 below the window table and above it. -/
def State.bar0Word (s : State) (p off : Nat) : Nat :=
  if off = 0 then 0x4816 * 2 ^ 16 + Config.stepping % 256 * 2 ^ 8 + p
  else if off = 0x0008 then 65536
  else if off = 0x000C then 8192 * 2 ^ 16 + 8 * 2 ^ 9 + 256
  else if off = 0x0100 then s.get (Reg.HCTL_EN p)
  else if off = 0x0104 then s.hsts p
  else if off = 0x0124 then
    s.get Reg.HWIN_STATUS_ERR * 2 ^ 31 + s.get Reg.HWIN_STATUS_ENTRY * 2 ^ 8 + s.get Reg.HWIN_STATUS_CODE
  else if 0x1000 ≤ off ∧ off < 0x1018 ∧ !s.flag (Reg.HCTL_EN p) then
    let x := s.port p
    bytesAt (if off < 0x1008 then x.asq else if off < 0x1010 then x.acq else x.adepth) (off % 8) 4
  else if 0x2000 ≤ off ∧ off < 0x2800 then bytesAt (s.winRead ((off - 0x2000) / 32)) (off % 32) 4
  else if 0x4000 ≤ off ∧ off < 0x5000 then s.msixWord p ((off - 0x4000) / 4)
  else if 0x5000 ≤ off ∧ off < 0x5020 then bytesAt (s.port p).pba (off - 0x5000) 4
  else 0

/-- The request is one that BAR0 accepts (R355). -/
def bar0Accepts (off len : Nat) : Bool :=
  ((len == 4 || len == 8) && off % len == 0 && decide (off + len ≤ 0x10000)) ||
    (decide (0x2000 ≤ off) && decide (off < 0x2800) && decide (1 ≤ len) && decide (off % 32 + len ≤ 32))

/-- A read of BAR0. -/
def State.bar0Read (s : State) (p off len : Nat) : Nat :=
  if 0x2000 ≤ off ∧ off < 0x2800 then bytesAt (s.winRead ((off - 0x2000) / 32)) (off % 32) len
  else s.bar0Word p off + (if len = 8 then 2 ^ 32 * s.bar0Word p (off + 4) else 0)

/-- A 32-bit word of BAR0 written, doorbells, setup words and window table apart. -/
def State.bar0WriteWord (s : State) (p off v : Nat) : State :=
  if off = 0x0100 then s.hctl p v
  else if off = 0x0120 then s.winCommit p (bits v 5 0)
  else if off = 0x0124 then
    s.when (hasBit v 31) (fun s => ((s.put Reg.HWIN_STATUS_ERR 0).put Reg.HWIN_STATUS_CODE 0).put Reg.HWIN_STATUS_ENTRY 0)
  else if 0x4000 ≤ off ∧ off < 0x5000 then s.msixWrite p ((off - 0x4000) / 4) v
  else s

/-- A write of BAR0. -/
def State.bar0Write (s : State) (p off len v : Nat) : State :=
  if 0x1000 ≤ off ∧ off < 0x1018 ∧ !s.flag (Reg.HCTL_EN p) then s.setupWrite p off len v
  else if 0x1000 ≤ off ∧ off < 0x1800 then s.doorbells p off len v
  else if 0x2000 ≤ off ∧ off < 0x2800 then
    s.when (s.flag (Reg.HST_CTL_WIN_HOST_WR p)) (·.stageWrite ((off - 0x2000) / 32) (off % 32) len v)
  else
    let s := s.bar0WriteWord p off (v % 2 ^ 32)
    s.when (len = 8) (·.bar0WriteWord p (off + 4) (v / 2 ^ 32))

/-- DOORBELL_WRITE (R377, R378): a write of a doorbell that BAR0 accepts [log 105]; while EN is 0 the lowest ones are the setup
words (R373). -/
def execDoorbellWrite (port : Fin 2) (off len data : Nat) (s : State) : Res :=
  .next (if bar0Accepts off len ∧ 0x1000 ≤ off ∧ off < 0x1800 then s.bar0Write port.val off len data else s)

/-- BAR0_REQUEST (R355). -/
def execBar0Request (port : Fin 2) (write : Bool) (off len data : Nat) (s : State) : Res :=
  let p := port.val
  .next (if !s.portMem p then s.unsupportedReq p
    else if !bar0Accepts off len then s.answer .completerAbort
    else if write then (s.bar0Write p off len (data % 256 ^ len)).answer .none
    else s.answer (.data (s.bar0Read p off len)))

end Sys2Proof.Machine
end

