-- ==== Sys2Proof/Machine/Pages.lean ====
section
/-! DEFINITION. What IDENTIFY and GET_LOG return (16 R407 to R409, 20 R518). -/

namespace Sys2Proof.Machine

/-- LEVEL and VERSION of the image of a TYPE that runs; 0 where none does. -/
def State.running (s : State) (t : Nat) : Nat × Nat := SMap.get s.adm.run (0, 0) t

/-- The ring member number, 0xFF when not joined. -/
def State.memberByte (s : State) : Nat := if s.flag Reg.RING_STATUS_JOINED then s.get Reg.RING_STATUS_MEMBER else 0xFF

/-- FLAGS of the controller structure (Table ADM-3). -/
def State.identifyFlags (s : State) : Nat :=
  b2n (s.adm.mode == 1) + 2 * s.get Reg.IQI_CTL_MEDIA_LOCK + 4 * b2n s.adm.strapErr + 8 * b2n s.adm.boot.trial +
    16 * b2n s.adm.fellBack + 32 * b2n s.armed

/-- The controller structure (Table ADM-3). -/
def State.controller (s : State) (port : Nat) : Nat :=
  layout ([(0x000, 2, 0x4816), (0x002, 1, Config.stepping), (0x003, 1, port), (0x004, 16, Config.serial),
    (0x014, 1, s.adm.mode), (0x015, 1, s.identifyFlags), (0x016, 1, s.get Reg.SYS_STRAP_ACT),
    (0x018, 8, (SMap.keys s.media.pegBad).foldl setBit 0), (0x038, 2, 256), (0x03A, 2, 8192), (0x03C, 1, 16),
    (0x03D, 1, s.winSize), (0x03E, 1, s.memberByte), (0x040, 4, 1048576)] ++
    (List.range 4).map (fun t => (0x020 + 2 * t, 2, (s.running (t + 1)).1)) ++
    (List.range 4).map (fun t => (0x028 + 4 * t, 4, (s.running (t + 1)).2)))

/-- The namespace structure (Table ADM-4). -/
def State.namespaceStruct (s : State) (n : Nat) : Nat :=
  layout [(0x000, 8, s.nsCap n), (0x008, 4, s.nsCap n / zoneBlocks), (0x00C, 4, s.nsConv n), (0x010, 4, zoneBlocks),
    (0x014, 1, s.get (Reg.IQI_NS_CTL_DEF_ACK n)), (0x015, 1, s.get (Reg.IQI_NS_CTL_EN n))]

/-- The health page (Table ADM-6); POS is a free time and TJ a free temperature. -/
def State.healthPage (s : State) : Nat :=
  layout [(0x00, 4, Config.freeTime s.free), (0x04, 4, s.evr.poc), (0x08, 1, Config.freeValue s.free),
    (0x09, 1, s.get Reg.BUF_STATUS_TEMP),
    (0x0A, 2, if s.flag Reg.SPT_CAP_VALID then s.get Reg.SPT_CAP_CAP else 0), (0x0C, 4, s.adm.fallbacks),
    (0x10, 8, s.adm.mediaErrs), (0x18, 8, s.adm.deferred), (0x20, 4, s.heldCount)]

/-- One entry of the firmware-slot page: the images of a package whose header verifies. -/
def slotEntry (descs : Option (List Nat)) : Nat :=
  match descs with
  | none => 0
  | some ds =>
    layout ([(0, 1, 1), (1, 1, ds.foldl (fun m d => setBit m (imgType d - 1)) 0)] ++
      ds.map (fun d => (8 + 2 * (imgType d - 1), 2, imgLevel d)) ++
      ds.map (fun d => (16 + 4 * (imgType d - 1), 4, imgVersion d)))

/-- The firmware-slot page: recovery, active, fallback, staging. -/
def State.slotPage (s : State) : Nat :=
  layout [(0, 64, slotEntry (some s.recoverySlot.descs)), (64, 64, slotEntry (s.adm.active.map FwPkg.descs)),
    (128, 64, slotEntry (s.adm.fallback.map FwPkg.descs)),
    (192, 64, slotEntry (if hdrOk s.stagedHeader 1 then some (hdrDescs s.stagedHeader) else none))]

/-- A record of the Deferred Error Log (Table ADM-7). -/
def DefErr.encode (r : DefErr) : Nat := layout [(0, 4, r.nsid), (4, 1, r.status), (8, 8, r.lba), (16, 8, r.seq)]

/-- The Deferred Error Log as a page. -/
def State.delPage (s : State) : Nat :=
  layout ([(0, 4, s.spt.del.length), (4, 4, s.spt.delLost)] ++
    ((List.range s.spt.del.length).zip s.spt.del).map (fun x => (16 + 32 * x.1, 32, x.2.encode)))

/-- OLDEST of the event page of a port (20 R518). -/
def State.evOldest (s : State) (port : Nat) : Nat :=
  max (s.get64 Reg.EVR_ARCH_LO_SEQ Reg.EVR_ARCH_HI_SEQ) (SMap.get s.evr.readStart 0 port)

/-- The record of a sequence number, from the archive or the tail. -/
def State.evRecord (s : State) (q : Nat) : Nat :=
  match SMap.look s.evr.archive q with
  | some r => r.encode
  | none =>
    match SMap.look s.evr.tail (q % 16384) with
    | some r => if r.seq = q then r.encode else 0
    | none => 0

/-- The event page of a port. -/
def State.eventPage (s : State) (port : Nat) : Nat :=
  let o := s.evOldest port
  layout ([(0, 8, o), (8, 8, s.evr.nextSeq)] ++
    (List.range (s.evr.nextSeq - o)).map (fun i => (64 + 64 * i, 64, s.evRecord (o + i))))

/-- A log page of a port: its size and its bytes; none for a LID that Table ADM-5 does not list. -/
def State.logPage (s : State) (port lid : Nat) : Option (Nat × Nat) :=
  if lid = 0x02 then some (64, s.healthPage)
  else if lid = 0x03 then some (256, s.slotPage)
  else if lid = 0x0C then some (16 + 32 * s.spt.del.length, s.delPage)
  else if lid = 0x0E then some (64 + 64 * (s.evr.nextSeq - s.evOldest port), s.eventPage port)
  else none

end Sys2Proof.Machine
end

