-- ==== Sys2Proof/Machine/Iqi.lean ====
section
/-! DEFINITION. The queue engine (15): fetching with the checks of Table IQI-4, posting completions, the I/O commands,
and the queue and event commands. -/

namespace Sys2Proof.Machine

/-! ## Fetch checks, steps 1 to 6 (R387, R388) -/

def ioOps : List Nat := [0x10, 0x11, 0x12, 0x18, 0x20, 0x21, 0x22]
def adminOps : List Nat := [0x01, 0x02, 0x03, 0x04, 0x06, 0x08, 0x09, 0x0A, 0x0C, 0x0D, 0x80, 0x81, 0x82, 0x83, 0x84, 0x85]
/-- The commands of the admin queue in RECOVERY (16 R414). -/
def recoveryOps : List Nat := [0x06, 0x08, 0x0C, 0x0D]

/-- Step 1: the opcode is defined for the queue. -/
def State.opcodeOk (s : State) (q opc : Nat) : Bool :=
  if q = 0 then (if s.adm.mode = 3 then recoveryOps else adminOps).contains opc else ioOps.contains opc

/-- The bytes of an entry given by offset and size, all bits set. -/
def fieldBits (fs : List (Nat × Nat)) : Nat := fs.foldl (fun m f => m ||| (256 ^ f.2 - 1) * 256 ^ f.1) 0

/-- Fields a command may set beside OPC, FLAGS and CID (Tables IQI-2, IQI-6, IQI-8, ADM-1, SEC-8). -/
def usedFields (q e : Nat) : List (Nat × Nat) :=
  let opc := sqeOpc e
  let dptr : List (Nat × Nat) := [(0x18, 8), (0x20, 2)]
  if q ≠ 0 then
    if opc = 0x18 then [(4, 4)]
    else [(4, 4), (8, 4), (0x10, 8)] ++ (if opc = 0x10 ∨ opc = 0x11 ∨ opc = 0x22 then dptr else [])
  else if opc = 0x01 then [(8, 4), (0x28, 24)]
  else if opc = 0x02 then [(8, 2)]
  else if opc = 0x03 then [(8, 4)]
  else if opc = 0x06 then (if sqeAt e 0x28 1 = 1 then [(4, 4)] else []) ++ dptr ++ [(0x28, 1)]
  else if opc = 0x08 then [(8, 4)] ++ dptr ++ [(0x28, 1), (0x30, 8)]
  else if opc = 0x09 then [(0x28, 1), (0x2C, 4)]
  else if opc = 0x0A then [(0x28, 1)]
  else if opc = 0x0C then [(8, 4)] ++ dptr ++ [(0x28, 4)]
  else if opc = 0x0D then [(0x28, 1)]
  else if opc = 0x80 then [(8, 4)] ++ dptr ++ [(0x28, 1)]
  else if opc = 0x81 then dptr ++ [(0x28, 24)]
  else if opc = 0x82 then dptr ++ [(0x28, 1)] ++ (if sqeAt e 0x28 1 = 6 then [(0x2C, 4)] else [])
  else if opc = 0x83 then
    dptr ++ [(0x28, 2)] ++ (if sqeAt e 0x28 1 = 1 then [(4, 4), (8, 4), (0x10, 8)] else [])
  else if opc = 0x84 then dptr
  else if opc = 0x85 then [(8, 4)] ++ dptr
  else []

/-- Single bits a command may set: those of FLAGS, IEN, CLEAR, SAVE, SAVED and the range FLAGS. -/
def usedBits (q e : Nat) : Nat :=
  let opc := sqeOpc e
  if q ≠ 0 then (if opc = 0x10 then 4 * 256 else if opc = 0x11 then 7 * 256 else 0)
  else if opc = 0x01 then 256 ^ 0x0C
  else if opc = 0x08 ∨ opc = 0x09 ∨ opc = 0x0A then 256 ^ 0x29
  else if opc = 0x83 then 7 * 256 ^ 0x2A
  else 0

/-- The codes of an entry are listed. -/
def codesOk (q e : Nat) : Bool :=
  let opc := sqeOpc e
  let c := sqeAt e 0x28 1
  if q ≠ 0 then true
  else if opc = 0x06 then decide (c ≤ 1)
  else if opc = 0x0D then decide (c ≤ 2)
  else if opc = 0x80 then decide (c ≤ 4)
  else if opc = 0x82 then decide (1 ≤ c) && decide (c ≤ 7)
  else if opc = 0x83 then
    decide (1 ≤ c) && decide (c ≤ 5) && (decide (sqeAt e 0x29 1 ≤ 63) || (c == 5 && sqeAt e 0x29 1 == 0xFF))
  else true

/-- Step 3: reserved bits are 0 and codes are listed. -/
def fieldsOk (q e : Nat) : Bool :=
  let m := fieldBits ([(0, 1), (2, 2)] ++ usedFields q e) ||| usedBits q e
  (e % 2 ^ 512 &&& m) == e % 2 ^ 512 && codesOk q e

/-- Step 4: NSID. -/
def State.nsidOk (s : State) (q e : Nat) : Bool :=
  let n := sqeNsid e
  if q ≠ 0 then s.nsOn n
  else if sqeOpc e = 0x06 ∧ sqeAt e 0x28 1 = 1 then decide (1 ≤ n) && decide (n ≤ 16)
  else if sqeOpc e = 0x83 ∧ sqeAt e 0x28 1 = 1 then s.nsOn n
  else true

/-- The limit of LENGTH where a command uses it as a count. -/
def lenLimit (q e : Nat) : Option Nat :=
  let opc := sqeOpc e
  if q ≠ 0 then
    if opc = 0x10 ∨ opc = 0x11 ∨ opc = 0x12 then some 1048576
    else if opc = 0x20 ∨ opc = 0x21 ∨ opc = 0x22 then some 65536
    else none
  else if opc = 0x08 then some 1048576
  else if opc = 0x0C then some 4096
  else if opc = 0x80 then some 65536
  else if opc = 0x83 ∧ sqeAt e 0x28 1 = 1 then some 0xFFFFFFFF
  else if opc = 0x85 then some 4096
  else none

/-- The bytes of host memory a command needs (R384, Tables IQI-6, ADM-1, SEC-8). -/
def bytesNeeded (q e : Nat) : Nat :=
  let opc := sqeOpc e
  let n := sqeLen e
  if q ≠ 0 then (if opc = 0x22 then 32 * n else 4112 * n)
  else if opc = 0x06 then 4096
  else if opc = 0x0C then 4096 * n
  else if opc = 0x81 ∨ opc = 0x84 then 8192
  else if opc = 0x82 then (if sqeAt e 0x28 1 = 7 then 1824 + 52 else 1824)
  else if opc = 0x83 then 1824
  else n

/-- Step 5a: a count of zero. -/
def zeroCount (q e : Nat) : Bool :=
  ((lenLimit q e).isSome && sqeLen e == 0) || (movesData q (sqeOpc e) && sqeSegs e == 0) ||
    (q == 0 && sqeOpc e == 0x01 && (sqeAt e 0x38 4 == 0 || sqeAt e 0x3C 4 == 0))

/-- Step 5b: a value above its limit. -/
def State.overLimit (s : State) (q e : Nat) : Bool :=
  (match lenLimit q e with | some m => decide (m < sqeLen e) | none => false) ||
    (q != 0 && (lenLimit q e).isSome && decide (s.nsCap (sqeNsid e) ≤ sqeSlba e)) ||
    (movesData q (sqeOpc e) && decide (4096 < sqeSegs e)) ||
    (q == 0 && sqeOpc e == 0x01 && (decide (65536 < sqeAt e 0x38 4) || decide (65536 < sqeAt e 0x3C 4)))

/-- Step 5c: the segments of the command, or the status it ends with; `list` is what the host memory answered for the
segment list (none: an error). -/
def segCheck (q e : Nat) (list : Option (List (Nat × Nat))) : Nat × List (Nat × Nat) :=
  if !movesData q (sqeOpc e) then (0, [])
  else if q = 0 ∧ sqeOpc e = 0x0C ∧ 16384 < sqeAt e 0x28 4 + sqeLen e then (0x07, [])
  else if sqeSegs e = 1 then (0, [(sqeDptr e, bytesNeeded q e)])
  else match list with
    | none => (0x12, [])
    | some l =>
      if l.any (fun x => x.2 == 0) then (0x05, [])
      else if l.foldl (fun n x => n + x.2) 0 < bytesNeeded q e then (0x07, [])
      else (0, l)

/-- Step 6, and before it the zone rules that need no write pointer: SLBA on a zone boundary (R391), no conventional
zone (R402). -/
def State.step6 (s : State) (q e : Nat) : Nat :=
  if q = 0 then 0
  else
    let opc := sqeOpc e
    let zoneCmd := opc == 0x20 || opc == 0x21
    if (zoneCmd || opc == 0x22) && sqeSlba e % zoneBlocks != 0 then 0x02
    else if zoneCmd && !s.isSeq (sqeNsid e) (sqeSlba e) then 0x02
    else match sqeSpan e with
      | some x => if s.nsCap x.nsid < x.lba + x.n then 0x08 else 0
      | none => 0

/-- Steps 1 to 6 of Table IQI-4: only the first failure is reported. -/
def State.fetchCheck (s : State) (p q e : Nat) (list : Option (List (Nat × Nat))) : Nat × List (Nat × Nat) :=
  if !s.opcodeOk q (sqeOpc e) then (0x01, [])
  else if s.cmds.any (fun c => c.2.port == p && c.2.qid == q && c.2.cid == sqeCid e) then (0x03, [])
  else if !fieldsOk q e then (0x02, [])
  else if !s.nsidOk q e then (0x04, [])
  else if zeroCount q e then (0x05, [])
  else if s.overLimit q e then (0x06, [])
  else
    let g := segCheck q e list
    if g.1 ≠ 0 then g
    else (s.step6 q e, g.2)

/-! ## Fetching (R379, R380) -/

/-- The submission queue holds an entry. -/
def Pair.hasEntry (x : Pair) : Bool := x.sqHead != x.sqTail

/-- The submission queue fetched from next: the admin queue where it holds an entry, else the I/O queues in round-robin
order of ascending number. -/
def State.nextQueue (s : State) (p : Nat) : Option Nat :=
  let qs := (s.pairs.filter (fun e => e.1 / 65536 == p && e.2.hasEntry)).map (fun e => e.1 % 65536)
  if qs.contains 0 then some 0
  else match qs.find? (fun q => decide ((s.port p).rr < q)) with
    | some q => some q
    | none => qs.head?

/-- The port can fetch now. -/
def State.fetchReady (s : State) (p : Nat) : Bool :=
  s.rdy p && s.portRuns p && !s.fetchStop && decide (s.cmds.length < 8192) && (s.nextQueue p).isSome

/-- A command enters the table of outstanding ones. -/
def State.putCmd (s : State) (seq : Nat) (k : Cmd) : State := { s with cmds := SMap.set s.cmds seq k }

/-- The blocks that a FLUSH fetched now covers (R394). -/
def State.flushable (s : State) (n : Nat) : List Nat :=
  (s.cache.filter (fun e => e.2.nsid == n && e.2.mode == 1 && e.2.committed)).map Prod.fst

/-- An entry fetched as command `seq` of queue `q`: checked, and held where it must wait. -/
def State.take (s : State) (seq p q sqhd e : Nat) (list : Option (List (Nat × Nat))) : State :=
  let c := s.fetchCheck p q e list
  let page := if q = 0 ∧ sqeOpc e = 0x08 then (s.logPage p (sqeAt e 0x28 1)).getD (0, 0) else (0, 0)
  let k : Cmd := { port := p, qid := q, cid := sqeCid e, sqe := e, commit := none, segs := c.2, sqhd := sqhd
                   waiting := false, begun := false
                   flushSet := if q ≠ 0 ∧ sqeOpc e = 0x18 then s.flushable (sqeNsid e) else []
                   snap := page, interrupted := false }
  let s := s.when (q = 0 ∧ sqeOpc e = 0x08) (·.draw 1)
  if c.1 ≠ 0 then s.putCmd seq { k with commit := some ⟨c.1, noInfo, 0⟩ }
  else if q = 0 ∧ sqeOpc e = 0x08 ∧ !(sqeAt e 0x28 1 == 0x02 || sqeAt e 0x28 1 == 0x03 || sqeAt e 0x28 1 == 0x0C ||
      sqeAt e 0x28 1 == 0x0E) then s.putCmd seq { k with commit := some ⟨0x48, noInfo, 0⟩ }
  else if q ≠ 0 ∧ s.mustWait seq e then s.putCmd seq { k with waiting := true }
  else if q = 0 then s.putCmd seq k
  else
    let r := s.admitCmd e
    r.2.putCmd seq { k with commit := if r.1 = 0 then none else some ⟨r.1, noInfo, 0⟩ }

/-- COMMAND_FETCH (R379): the engine of a port fetches the entry that is next; the two ports alternate. -/
def execCommandFetch (port : Fin 2) (entry : Nat) (list : Option (List (Nat × Nat))) (s : State) : Res :=
  let p := port.val
  .next (if s.fetchReady p && (s.lastPort != p || !s.fetchReady (1 - p)) then
      match s.nextQueue p with
      | none => s
      | some q =>
        match s.pair p q with
        | none => s
        | some x =>
          let h := (x.sqHead + 1) % x.sqDepth
          let seq := s.nextSeq
          let s := ((s.putPair p q { x with sqHead := h }).setNextSeq (seq + 1)).setLastPort p
          let s := s.when (q != 0) (·.modPort p (fun y => { y with rr := q }))
          ((s.inc Reg.IQI_FETCHED_COUNT).hostRead p [(x.sqBase + 64 * x.sqHead, 64)] 0 64).take seq p q h (entry % 2 ^ 512) list
    else s)

/-! ## Posting (R381, R386, R399) -/

/-- The completion queue has room. -/
def Pair.room (x : Pair) : Bool := (x.cqTail + 1) % x.cqDepth != x.cqHead

/-- The 16 bytes of a completion entry (Table IQI-3). -/
def cplEntry (k : Cmd) (c : Cpl) (deferred phase : Bool) : Nat :=
  layout [(0, 4, c.result), (4, 2, k.sqhd), (6, 2, k.qid), (8, 2, k.cid),
    (10, 2, c.sc * 256 + b2n deferred * 2 + b2n phase), (12, 4, c.info)]

/-- The completion of `k` carries DEFERRED: the first of its namespace in an I/O queue after a record. -/
def State.carries (s : State) (k : Cmd) : Bool := k.io && s.deferNs.contains (sqeNsid k.sqe)

/-- An ABORT that caught its target is posted after the target (R397). -/
def State.abortWaits (s : State) (seq : Nat) (k : Cmd) : Bool :=
  !k.io && sqeOpc k.sqe == 0x03 && s.cmds.any (fun e => decide (e.1 < seq) && e.2.port == k.port &&
    e.2.qid == sqeAt k.sqe 8 2 && e.2.cid == sqeAt k.sqe 0x0A 2 && e.2.commit == some ⟨0x10, noInfo, 0⟩)

/-- COMPLETION_POST (R381): a fixed completion is written once its queue has room, and its vector follows. After that of
a FW_COMMIT with reset both ports stop fetching (16 R418). -/
def execCompletionPost (seq : Nat) (s : State) : Res :=
  .next (match SMap.look s.cmds seq with
    | none => s
    | some k =>
      match k.commit, s.pair k.port k.qid with
      | some c, some x =>
        if x.room && s.portRuns k.port && !s.spt.failSrc && !s.abortWaits seq k then
          let d := s.carries k
          let s := s.atsTouch k.port (x.cqBase + 16 * x.cqTail) 16 true
          let s := s.emit (.completion k.port (x.cqBase + 16 * x.cqTail) (cplEntry k c d x.phase))
          let t := (x.cqTail + 1) % x.cqDepth
          let s := s.putPair k.port k.qid { x with cqTail := t, phase := if t = 0 then !x.phase else x.phase }
          let s := ((((s.setCmds (SMap.del s.cmds seq)).setDeferNs (if d then s.deferNs.filter (· != sqeNsid k.sqe) else s.deferNs)).setFetchStop (s.fetchStop ||
              (k.qid == 0 && sqeOpc k.sqe == 0x0D && sqeAt k.sqe 0x28 1 == 2 && c.sc == 0))).setAdm (if c.sc = 0x14 then { s.adm with mediaErrs := s.adm.mediaErrs + 1 } else s.adm))
          (s.inc Reg.IQI_POSTED_COUNT).when x.ien (·.msix k.port x.vector)
        else s
      | _, _ => s)

/-! ## Running a command -/

/-- The command `seq`, if it is a command of opcode `opc` in an I/O or the admin queue that is to run now: not decided,
not waiting, not interrupted, and able to move its data. -/
def State.runnable (s : State) (seq opc : Nat) (io : Bool) : Option Cmd :=
  match SMap.look s.cmds seq with
  | some k =>
    if s.clkOk 43 && sqeOpc k.sqe == opc && k.io == io && k.open && !k.waiting && !k.interrupted &&
        (!movesData k.qid opc || s.portRuns k.port) then some k else none
  | none => none

/-- A lower-numbered command that satisfies `which` overlaps the span (R395). -/
def State.behind (s : State) (seq : Nat) (x : Span) (which : Cmd → Bool) : Bool :=
  s.cmds.any (fun c => decide (c.1 < seq) && c.2.open && which c.2 &&
    (match c.2.span with | some y => y.meets x | none => false))

/-- A command of lower number whose effect on the blocks is not there yet: a WRITE whose data are not in the buffer, or
a zone command. -/
def Cmd.unplaced (k : Cmd) : Bool := !(sqeOpc k.sqe == 0x11 && k.begun)

/-- The extended block of zeros (R392). -/
def zeroBlock : Nat := 0

/-- The buffered copy of an LBA that a command of number `seq` sees: that of the highest lower number, the newest window
entry among equals (R395; 11 R282). -/
def State.buffered (s : State) (seq nsid lba : Nat) : Option Nat :=
  let cs := s.cache.filter (fun e => e.2.nsid == nsid && e.2.lba == lba && decide (e.2.seq < seq) && e.2.err.isNone)
  let winSeq := fun (b : CacheBlk) => match b.win with
    | some i => (match SMap.look s.spt.window i with | some w => w.seq | none => 0)
    | none => 0
  (cs.foldl (fun (m : Option (Nat × CacheBlk)) e => match m with
    | none => some e
    | some o => if o.2.seq < e.2.seq ∨ (o.2.seq = e.2.seq ∧ seqNewer (winSeq e.2) (winSeq o.2)) then some e else some o)
    none).map Prod.fst

/-- The block has never been written, as a command of number `seq` sees it, or lies at or above WP (R392). -/
def State.neverWritten (s : State) (seq nsid lba : Nat) : Bool :=
  (s.isSeq nsid lba && decide (s.wp nsid (lba / zoneBlocks) ≤ lba)) ||
    (match SMap.look s.media.written (lbaKey nsid lba) with
      | some q => decide (seq < q)
      | none => true)

/-- A sector that stays unreadable after the retry ladder becomes pending (03 R95). -/
def State.markPending (s : State) (nsid lba : Nat) : State :=
  let k := lbaKey nsid lba
  if s.media.pendingLbas.contains k then s
  else s.setMedia { s.media with pendingLbas := s.media.pendingLbas ++ [k] }

/-- What a READ or VERIFY of number `seq` gets for one block: its bytes, or the status it fails with; a block at a lost
offset of a chord fails (19 R502). -/
def State.readBlock (s : State) (seq nsid lba : Nat) (m : MediaRes) : MediaRes × State :=
  let m := if s.lostAt nsid lba then .bad 0x15 else m
  match s.buffered seq nsid lba with
  | some a =>
    let r := s.bufRead 3 a 4112
    ((match r.1 with | some v => .good v | none => .bad 0x16), r.2)
  | none =>
    match SMap.look s.spt.failed (lbaKey nsid lba) with
    | some c => (.bad c, s)
    | none => if s.neverWritten seq nsid lba then (.good zeroBlock, s) else (m, s.when (m == .bad 0x14) (·.markPending nsid lba))

/-- The guard of a block holds (R385). -/
def guardOk (block : Nat) : Bool := crc64 (leBytes block 4104) == bytesAt block 4104 8

/-- GUARD of an entry. -/
def sqeGuard (e : Nat) : Bool := hasBit (sqeFlags e) 2

/-- The blocks of a READ (or a VERIFY, which sends nothing) in order: sent to the host until the first one fails, with
that block's index and status. -/
def State.readBlocks (s : State) (seq : Nat) (k : Cmd) (send : Bool) : Nat → List MediaRes → Option (Nat × Nat) × State
  | _, [] => (none, s)
  | i, m :: ms =>
    let r := s.readBlock seq (sqeNsid k.sqe) (sqeSlba k.sqe + i) m
    match r.1 with
    | .bad c => (some (c, i), r.2)
    | .good b =>
      if send && sqeGuard k.sqe && !guardOk b then (some (0x13, i), r.2)
      else (r.2.when send (·.hostWrite k.port k.segs (4112 * i) 4112 b)).readBlocks seq k send (i + 1) ms

/-- A READ or VERIFY of number `seq` must read the block from the media. -/
def State.needsMedia (s : State) (seq nsid lba : Nat) : Bool :=
  (s.buffered seq nsid lba).isNone && (SMap.look s.spt.failed (lbaKey nsid lba)).isNone && !s.neverWritten seq nsid lba

/-- A READ or VERIFY decides its blocks and is completion-committed (R390, R395, Table IQI-11). One that needs the media waits
until the heads are loaded (02 R65). -/
def State.readCmd (s : State) (seq : Nat) (k : Cmd) (send : Bool) (media : List MediaRes) : State :=
  match sqeSpan k.sqe with
  | none => s
  | some x =>
    if media.length ≠ x.n ∨ s.behind seq { x with mods := true } (fun c => Cmd.unplaced c && (match c.span with
        | some y => y.mods | none => false)) ∨
        (!s.pwr.headsLoaded ∧ (List.range x.n).any (fun i => s.needsMedia seq x.nsid (x.lba + i))) then s
    else
      let r := s.readBlocks seq k send 0 media
      match r.1 with
      | some (c, i) => r.2.complete seq c i 0
      | none => r.2.complete seq 0 noInfo 0

/-- READ (R391, R395); `media` is what each block yields where it is read from the media. -/
def execRead (seq : Nat) (media : List MediaRes) (s : State) : Res :=
  .next (match s.runnable seq 0x10 true with
    | some k => s.readCmd seq k true media
    | none => s)

/-- VERIFY (R391): every block is read and decided without transfer. -/
def execVerify (seq : Nat) (media : List MediaRes) (s : State) : Res :=
  .next (match s.runnable seq 0x12 true with
    | some k => s.readCmd seq k false media
    | none => s)

/-! ## WRITE (R385, R393) -/

/-- The acknowledgement mode of a WRITE. -/
def State.ackMode (s : State) (e : Nat) : Nat :=
  let a := bits (sqeFlags e) 1 0
  if a = 0 then s.get (Reg.IQI_NS_CTL_DEF_ACK (sqeNsid e)) else a

/-- The buffer addresses of a WRITE's blocks: within the buffer, apart from one another and from every block there. -/
def State.placesOk (s : State) : List Nat → Bool
  | [] => true
  | a :: as =>
    decide (a + 4112 ≤ 2 ^ 34) && as.all (fun b => !rangesMeet a 4112 b 4112) &&
      s.cache.all (fun e => !rangesMeet a 4112 e.1 4112) && s.placesOk as

/-- One block of a WRITE placed in the buffer; a safe-mode block takes a window entry, and without one completes as a
media-mode block does (11 R282, R283). -/
def State.placeBlock (s : State) (seq nsid lba mode addr block : Nat) : State :=
  if mode = 2 then
    let r := s.takeWin nsid lba block
    let s := r.2.when r.1.isSome (·.freeHeld nsid lba (fun j _ => r.1 != some j))
    s.setCache (SMap.set s.cache addr ⟨nsid, lba, seq, if r.1.isSome then 2 else 3, r.1, false, none⟩)
  else s.setCache (SMap.set s.cache addr ⟨nsid, lba, seq, mode, none, false, none⟩)

/-- No sector is left for the block: it is not relocated, and its write completes with a media error (03 R93). -/
def State.unwritable (s : State) (nsid lba : Nat) : Bool := s.media.noSpare.contains (lbaKey nsid lba)

/-- The blocks of a WRITE in order, until one fails: a host-memory error, its guard, or the buffer. -/
def State.writeBlocks (s : State) (seq : Nat) (k : Cmd) (hostErr : Option Nat) : Nat → List (Nat × Nat) →
    Option (Nat × Nat) × State
  | i, [] => (if hostErr = some i then some (0x12, i) else none, s)
  | i, x :: xs =>
    if hostErr = some i then (some (0x12, i), s)
    else
      let s := s.hostRead k.port k.segs (4112 * i) 4112
      if s.unwritable (sqeNsid k.sqe) (sqeSlba k.sqe + i) then (some (0x14, i), s)
      else if sqeGuard k.sqe && !guardOk x.2 then (some (0x13, i), s)
      else
        let w := s.bufWrite 3 x.1 x.2 4112
        if w.1 then
          (w.2.placeBlock seq (sqeNsid k.sqe) (sqeSlba k.sqe + i) (w.2.ackMode k.sqe) x.1 (x.2 % 256 ^ 4112)).writeBlocks
            seq k hostErr (i + 1) xs
        else (some (0x16, i), w.2)

/-- The blocks of a WRITE belong to a command that is completion-committed. -/
def State.commitBlocks (s : State) (seq : Nat) : State :=
  s.setCache (s.cache.map (fun (e : Nat × CacheBlk) => (e.1, if e.2.seq = seq then { e.2 with committed := true } else e.2)))

/-- A block of an accepted write to a sequential-write zone that failed reads with its status (R401). -/
def State.zoneFail (s : State) (nsid lba c : Nat) : State :=
  if s.isSeq nsid lba then
    s.markFailed nsid lba c
  else s

/-- WRITE (R393): its blocks move into the buffer; the first failing one ends the command, with the blocks before it in
effect. -/
def execWrite (seq : Nat) (blocks : List (Nat × Nat)) (hostErr : Option Nat) (s : State) : Res :=
  .next (match s.runnable seq 0x11 true with
    | none => s
    | some k =>
      let n := match hostErr with | some i => min i (sqeLen k.sqe) | none => sqeLen k.sqe
      if k.begun ∨ blocks.length ≠ n ∨ !s.placesOk (blocks.map Prod.fst) then s
      else
        let r := s.writeBlocks seq k hostErr 0 blocks
        match r.1 with
        | some (c, i) => (((r.2.zoneFail (sqeNsid k.sqe) (sqeSlba k.sqe + i) c).commitBlocks seq).complete seq c i 0).settle
        | none => { r.2 with cmds := SMap.set r.2.cmds seq { k with begun := true } })

/-- The first failing block of a WRITE, in block order. -/
def firstErr (bs : List (Nat × CacheBlk)) : Option (Nat × Nat) :=
  bs.foldl (fun (m : Option (Nat × Nat)) e => match e.2.err, m with
    | some c, none => some (e.2.lba, c)
    | some c, some (l, c') => if e.2.lba < l then some (e.2.lba, c) else some (l, c')
    | none, m => m) none

/-- A block whose media write has not been decided stands in the way of a media-mode completion. -/
def CacheBlk.awaits (b : CacheBlk) : Bool := b.mode == 3 && b.err.isNone

/-- WRITE_ACK (R393, Table IQI-7): the condition of the acknowledgement mode is met, or the media write of a block has
failed. -/
def execWriteAck (seq : Nat) (s : State) : Res :=
  .next (match s.runnable seq 0x11 true with
    | none => s
    | some k =>
      let bs := s.cache.filter (fun e => e.2.seq == seq)
      if !k.begun || bs.any (fun e => e.2.awaits) then s
      else
        let n := sqeNsid k.sqe
        let s := s.each (bs.filter (fun e => e.2.err.isSome)) (fun s e =>
          (s.setCache (SMap.del s.cache e.1)).zoneFail n e.2.lba (e.2.err.getD 0))
        let s := s.commitBlocks seq
        (match firstErr bs with
        | some (lba, c) => s.complete seq c (lba - sqeSlba k.sqe) 0
        | none => s.complete seq 0 noInfo 0).settle)

/-! ## FLUSH and the zone commands (R394, R402, R403) -/

/-- FLUSH (R394): it waits for the blocks it covered when it was fetched. -/
def execFlush (seq : Nat) (s : State) : Res :=
  .next (match s.runnable seq 0x18 true with
    | some k => s.putCmd seq { k with begun := true }
    | none => s)

/-- FLUSH_COMPLETE (R394): each of them is on media, or its failure is a deferred error. -/
def execFlushComplete (seq : Nat) (s : State) : Res :=
  .next (match s.runnable seq 0x18 true with
    | some k =>
      if k.begun && k.flushSet.all (fun a => match SMap.look s.cache a with
          | some b => decide (seq ≤ b.seq)
          | none => true) then s.complete seq 0 noInfo 0
      else s
    | none => s)

/-- The zones of a zone command. -/
def sqeZones (e : Nat) : List Nat := (List.range (sqeLen e)).map (fun i => sqeSlba e / zoneBlocks + i)

/-- The LBA lies in a range of a namespace. -/
def inSpan (x : Span) (nsid lba : Nat) : Bool := nsid == x.nsid && decide (x.lba ≤ lba) && decide (lba < x.lba + x.n)

/-- A key of an LBA table lies in the range. -/
def keyInSpan (x : Span) (k : Nat) : Bool := inSpan x (k / 2 ^ 64) (k % 2 ^ 64)

/-- Every LBA of a range becomes never written: its blocks in the buffer, its window entries and its failed marks go
(R402, R551; 11 R285). -/
def State.unwrite (s : State) (seq : Nat) (x : Span) : State :=
  let s := s.each (s.cache.filter (fun e => decide (e.2.seq < seq) && inSpan x e.2.nsid e.2.lba)) (fun s e =>
    match e.2.win with
    | some i => (s.freeWin i).setCache (SMap.del s.cache e.1)
    | none => (s.setCache (SMap.del s.cache e.1)))
  let s := s.each ((s.spt.window.filter (fun e => e.2.held && inSpan x e.2.nsid e.2.lba)).map Prod.fst) State.dropWin
  (s.putMeta (fun p => { p with failed := SMap.keep p.failed (fun k => !keyInSpan x k) })).setMedia { s.media with
    written := SMap.keep s.media.written (fun k => !keyInSpan x k)
    newest := SMap.keep s.media.newest (fun k => !keyInSpan x k) }

/-- A zone command runs once every overlapping command of lower number is decided (R395). -/
def State.zoneReady (s : State) (seq : Nat) (x : Span) : Bool := !s.behind seq x (fun _ => true)

/-- ZONE_RESET (R402); held blocks are then written again (11 R285). -/
def execZoneReset (seq : Nat) (s : State) : Res :=
  .next (match s.runnable seq 0x20 true with
    | none => s
    | some k =>
      match sqeSpan k.sqe with
      | none => s
      | some x =>
        if s.zoneReady seq x then
          let s := s.each (sqeZones k.sqe) (fun s z => s.putZone x.nsid z ⟨0, 0⟩)
          ((s.unwrite seq x).retryHeld.complete seq 0 noInfo 0).settle
        else s)

/-- ZONE_FINISH (R402): FULL, with WP where it is. -/
def execZoneFinish (seq : Nat) (s : State) : Res :=
  .next (match s.runnable seq 0x21 true with
    | none => s
    | some k =>
      match sqeSpan k.sqe with
      | none => s
      | some x =>
        if s.zoneReady seq x then
          ((s.each (sqeZones k.sqe) (fun s z => s.putZone x.nsid z { s.zone x.nsid z with st := 2 })).complete
            seq 0 noInfo 0).settle
        else s)

/-- A zone descriptor (R403). -/
def State.zoneDesc (s : State) (n z : Nat) : Nat :=
  if s.nsConv n ≤ z then layout [(0, 8, z * zoneBlocks), (8, 8, s.wp n z), (16, 1, 1), (17, 1, (s.zone n z).st)]
  else layout [(0, 8, z * zoneBlocks), (8, 8, 2 ^ 64 - 1), (16, 1, 0), (17, 1, 0xFF)]

/-- ZONE_REPORT (R403). -/
def execZoneReport (seq : Nat) (s : State) : Res :=
  .next (match s.runnable seq 0x22 true with
    | none => s
    | some k =>
      let n := sqeNsid k.sqe
      let z := sqeSlba k.sqe / zoneBlocks
      let left := s.nsCap n / zoneBlocks - z
      let m := min (sqeLen k.sqe) left
      let data := layout ((List.range m).map (fun i => (32 * i, 32, s.zoneDesc n (z + i))))
      (s.hostWrite k.port k.segs 0 (32 * m) data).complete seq 0 noInfo left)

/-! ## Queue and event commands (R396 to R398, R400) -/

/-- CREATE_QP (R398). -/
def execCreateQp (seq : Nat) (s : State) : Res :=
  .next (match s.runnable seq 0x01 false with
    | none => s
    | some k =>
      let e := k.sqe
      let q := sqeAt e 8 2
      let v := sqeAt e 0x0A 2
      let sb := sqeAt e 0x28 8
      let cb := sqeAt e 0x30 8
      let sd := sqeAt e 0x38 4
      let cd := sqeAt e 0x3C 4
      if q = 0 ∨ 255 < q ∨ 255 < v ∨ sd = 1 ∨ cd = 1 ∨ sb % 4096 ≠ 0 ∨ cb % 4096 ≠ 0 then s.complete seq 0x02 noInfo 0
      else if (s.pair k.port q).isSome then s.complete seq 0x20 noInfo 0
      else (s.putPair k.port q (newPair sb cb sd cd v (hasBit (sqeAt e 0x0C 1) 0))).complete seq 0 noInfo 0)

/-- DELETE_QP (R376, R398). -/
def execDeleteQp (seq : Nat) (s : State) : Res :=
  .next (match s.runnable seq 0x02 false with
    | none => s
    | some k =>
      let q := sqeAt k.sqe 8 2
      if q = 0 then s.complete seq 0x02 noInfo 0
      else if (s.pair k.port q).isNone then s.complete seq 0x21 noInfo 0
      else (s.deletePairs k.port (· == q)).complete seq 0 noInfo 0)

/-- ABORT (R397): decided against the state of the target. -/
def execAbort (seq : Nat) (s : State) : Res :=
  .next (match s.runnable seq 0x03 false with
    | none => s
    | some k =>
      let q := sqeAt k.sqe 8 2
      let cid := sqeAt k.sqe 0x0A 2
      if q = 0 ∨ (s.pair k.port q).isNone then s.complete seq 0x02 noInfo 0
      else match s.cmds.find? (fun c => c.2.port == k.port && c.2.qid == q && c.2.cid == cid) with
        | none => s.complete seq 0 noInfo 2
        | some c =>
          if c.2.open then
            ((((s.dropBlocks c.1).complete c.1 0x10 noInfo 0).inc Reg.IQI_ABORT_CAUGHT_COUNT).complete seq 0 noInfo 0).settle
          else s.complete seq 0 noInfo 1)

/-- EVENT_WAITs of a port that were accepted and are outstanding (R380, R398). -/
def State.waits (s : State) (p : Nat) : Nat :=
  (s.cmds.filter (fun e => e.2.port == p && e.2.qid == 0 && sqeOpc e.2.sqe == 0x04 && e.2.begun)).length

/-- EVENT_WAIT (R398, R400): it waits for the next event; a ninth is refused. -/
def execEventWait (seq : Nat) (s : State) : Res :=
  .next (match s.runnable seq 0x04 false with
    | none => s
    | some k =>
      if k.begun then s
      else if 8 ≤ s.waits k.port then s.complete seq 0x06 noInfo 0
      else (s.putCmd seq { k with begun := true }).reportEvent k.port)

end Sys2Proof.Machine
end

