-- ==== Sys2Proof/Machine/Admin.lean ====
section
/-! DEFINITION. Administration (16): IDENTIFY, log pages, features, firmware download and commit, the confirmation of a
trial image, temperature warnings and SMBus. -/

namespace Sys2Proof.Machine

/-! ## IDENTIFY (R407) -/

/-- A command that returns `n` bytes of `data` to the host and succeeds. -/
def State.reply (s : State) (seq : Nat) (k : Cmd) (n data : Nat) : State :=
  (s.hostWrite k.port k.segs 0 n (data % 256 ^ n)).complete seq 0 noInfo 0

/-- IDENTIFY_CONTROLLER (R407): CNS 0. -/
def execIdentifyController (seq : Nat) (s : State) : Res :=
  .next (match s.runnable seq 0x06 false with
    | some k => if sqeAt k.sqe 0x28 1 = 0 then s.reply seq k 4096 (s.controller k.port) else s
    | none => s)

/-- IDENTIFY_NAMESPACE (R407): CNS 1. -/
def execIdentifyNamespace (seq : Nat) (s : State) : Res :=
  .next (match s.runnable seq 0x06 false with
    | some k => if sqeAt k.sqe 0x28 1 = 1 then s.reply seq k 4096 (s.namespaceStruct (sqeNsid k.sqe)) else s
    | none => s)

/-! ## GET_LOG (R408, R409, 20 R518) -/

/-- LENGTH, OFFSET and CLEAR of a GET_LOG. -/
def logLen (e : Nat) : Nat := sqeLen e
def logOffset (e : Nat) : Nat := sqeAt e 0x30 8
def logClear (e : Nat) : Bool := hasBit (sqeAt e 0x29 1) 0

/-- The status that refuses a GET_LOG, given its page's size (none: LID not listed). -/
def logCheck (e : Nat) (size : Option Nat) : Nat :=
  match size with
  | none => 0x48
  | some n => if logLen e % 4 ≠ 0 ∨ logOffset e % 4 ≠ 0 ∨ n ≤ logOffset e then 0x02 else 0

/-- A GET_LOG of page `lid` returns its snapshot from OFFSET on, and then `clear` runs where CLEAR is 1. -/
def State.getLog (s : State) (seq lid : Nat) (clear : State → Cmd → State) : State :=
  match s.runnable seq 0x08 false with
  | some k =>
    if sqeAt k.sqe 0x28 1 ≠ lid then s
    else
      let c := logCheck k.sqe (if lid = 0x02 ∨ lid = 0x03 ∨ lid = 0x0C ∨ lid = 0x0E then some k.snap.1 else none)
      if c ≠ 0 then s.complete seq c noInfo 0
      else
        let data := bytesAt (k.snap.2 % 256 ^ k.snap.1) (logOffset k.sqe) (logLen k.sqe)
        let s := s.hostWrite k.port k.segs 0 (logLen k.sqe) data
        (s.when (logClear k.sqe) (fun s => clear s k)).complete seq 0 noInfo 0
  | none => s

/-- The records of `size` bytes, from byte `base` of the page on, that the bytes returned hold whole: their indices. -/
def wholeRecords (e base size count : Nat) : List Nat :=
  (List.range count).filter (fun i => decide (logOffset e ≤ base + size * i) &&
    decide (base + size * (i + 1) ≤ logOffset e + logLen e))

/-- GET_LOG_HEALTH (R408). -/
def execGetLogHealth (seq : Nat) (s : State) : Res := .next (s.getLog seq 0x02 (fun s _ => s))

/-- GET_LOG_FW_SLOTS (R408). -/
def execGetLogFwSlots (seq : Nat) (s : State) : Res := .next (s.getLog seq 0x03 (fun s _ => s))

/-- CLEAR of the Deferred Error Log: the records returned go and LOST becomes 0. -/
def State.clearDel (s : State) (k : Cmd) : State :=
  let gone := (wholeRecords k.sqe 16 32 ((k.snap.1 - 16) / 32)).map (fun i => bytesAt k.snap.2 (16 + 32 * i) 32)
  s.putMeta (fun p => { p with del := p.del.filter (fun r => !gone.contains r.encode), delLost := 0 })

/-- GET_LOG_DEFERRED_ERRORS (R409). -/
def execGetLogDeferredErrors (seq : Nat) (s : State) : Res := .next (s.getLog seq 0x0C State.clearDel)

/-- CLEAR of the event page: the port's read start moves one above the last SEQ returned. -/
def State.clearEvents (s : State) (k : Cmd) : State :=
  match (wholeRecords k.sqe 64 64 ((k.snap.1 - 64) / 64)).getLast? with
  | some i => s.setEvr { s.evr with readStart := SMap.put s.evr.readStart 0 k.port (bytesAt k.snap.2 0 8 + i + 1) }
  | none => s

/-- GET_LOG_EVENT_RECORDS (20 R518). -/
def execGetLogEventRecords (seq : Nat) (s : State) : Res := .next (s.getLog seq 0x0E State.clearEvents)

/-! ## Features (R410) -/

/-- The default of a feature; none for a FID that Table ADM-9 does not list. -/
def featDefault (fid : Nat) : Option Nat :=
  if fid = 1 then some (2 ^ 31 + 50)
  else if fid = 2 then some 1800
  else if fid = 3 then some 7200
  else if fid = 4 then some 95
  else if fid = 5 then some 0x1FE
  else none

/-- A VALUE is in range and its reserved bits are 0. -/
def featOk (fid v : Nat) : Bool :=
  if fid = 1 then bits v 30 24 == 0 && decide (1 ≤ bits v 23 0) && decide (bits v 23 0 ≤ 36000)
  else if fid = 2 then bits v 30 24 == 0 && decide (1 ≤ bits v 23 0) && decide (bits v 23 0 ≤ 86400)
  else if fid = 3 then decide (3600 ≤ v) && decide (v ≤ 7200)
  else if fid = 4 then decide (60 ≤ v) && decide (v ≤ 105)
  else if fid = 5 then (v &&& 0x1FE) == v
  else false

/-- The current value of a feature. -/
def State.feature (s : State) (fid : Nat) : Nat := (SMap.look s.feat fid).getD ((featDefault fid).getD 0)
/-- The saved value of a feature. -/
def State.savedFeature (s : State) (fid : Nat) : Nat := (SMap.look s.featSaved fid).getD ((featDefault fid).getD 0)

/-- SET_FEATURE (R410). -/
def execSetFeature (seq : Nat) (s : State) : Res :=
  .next (match s.runnable seq 0x09 false with
    | none => s
    | some k =>
      let fid := sqeAt k.sqe 0x28 1
      let v := sqeAt k.sqe 0x2C 4
      if !featOk fid v then s.complete seq 0x49 noInfo 0
      else
        let s := s.setFeat (SMap.set s.feat fid v)
        let s := if hasBit (sqeAt k.sqe 0x29 1) 0 then (s.setFeatSaved (SMap.set s.featSaved fid v)) else s
        s.complete seq 0 noInfo 0)

/-- GET_FEATURE (R410). -/
def execGetFeature (seq : Nat) (s : State) : Res :=
  .next (match s.runnable seq 0x0A false with
    | none => s
    | some k =>
      let fid := sqeAt k.sqe 0x28 1
      if (featDefault fid).isNone then s.complete seq 0x49 noInfo 0
      else s.complete seq 0 noInfo (if hasBit (sqeAt k.sqe 0x29 1) 0 then s.savedFeature fid else s.feature fid))

/-! ## Download and commit (R416 to R418) -/

def State.modAdm (s : State) (g : Admin → Admin) : State := { s with adm := g s.adm }
def State.modBoot (s : State) (g : BootRec → BootRec) : State := s.modAdm (fun a => { a with boot := g a.boot })

/-- FW_DOWNLOAD (R416): `units` are the 4 KiB units that the host gave (none: a host-memory error). -/
def execFwDownload (seq : Nat) (units : Option (List Nat)) (s : State) : Res :=
  .next (match s.runnable seq 0x0C false with
    | none => s
    | some k =>
      let o := sqeAt k.sqe 0x28 4
      let n := sqeLen k.sqe
      if o ≠ 0 ∧ s.adm.received ≠ some o then s.complete seq 0x47 noInfo 0
      else
        let s := if o = 0 then (s.modAdm (fun a => { a with staging := [], received := some 0 })).modBoot (fun b =>
            { b with pending := false }) else s
        let s := s.hostRead k.port k.segs 0 (4096 * n)
        match units with
        | some us =>
          if us.length = n then
            (s.modAdm (fun a => { a with staging := SMap.putList a.staging 0 o (us.map (· % 256 ^ 4096)), received := some (o + n) })).complete
              seq 0 noInfo 0
          else s
        | none => (s.modAdm (fun a => { a with received := none })).complete seq 0x12 noInfo 0)

/-- Checks 1 to 4 of Table ADM-13: 0 when none refuses. -/
def State.commitGuard (s : State) : Nat :=
  let st := s.get Reg.MTR_SPN_STATUS_STATE
  if s.sec.ownerLock then 0x40
  else if !s.armed then 0x41
  else if s.flag Reg.CHD_STATUS_REBUILD || s.flag Reg.CHD_STATUS_RESHAPE then 0x42
  else if (1 ≤ st ∧ st ≤ 4) ∨ (6 ≤ st ∧ st ≤ 8) then 0x43
  else 0

/-- Checks 1 to 7 of Table ADM-13 for actions 1 and 2. -/
def State.commitCheck (s : State) (sigs : PkgCheck) : Nat :=
  let c := s.commitGuard
  if c ≠ 0 then c
  else match s.stagedPkg with
    | none => 0x44
    | some p =>
      if !sigs.ecdsa || !sigs.mldsa then 0x45
      else if !compatible Config.stepping (mergedDescs p s.adm.active) || !(composite p s.adm.active).fits then 0x46
      else 0

/-- A FW_COMMIT of action `a`: it sets PENDING where no check refuses it. -/
def State.fwCommit (s : State) (seq a : Nat) (sigs : PkgCheck) : State :=
  match s.runnable seq 0x0D false with
  | some k =>
    if sqeAt k.sqe 0x28 1 ≠ a then s
    else
      let c := s.commitCheck sigs
      (s.when (c = 0) (·.modBoot (fun b => { b with pending := true }))).complete seq c noInfo 0
  | none => s

/-- FW_COMMIT_CANCEL (R417): ACTION 0 clears a pending commit. -/
def execFwCommitCancel (seq : Nat) (s : State) : Res :=
  .next (match s.runnable seq 0x0D false with
    | some k =>
      if sqeAt k.sqe 0x28 1 ≠ 0 then s
      else
        let c := s.commitGuard
        (s.when (c = 0) (·.modBoot (fun b => { b with pending := false }))).complete seq c noInfo 0
    | none => s)

/-- FW_COMMIT_PENDING (R417): ACTION 1. -/
def execFwCommitPending (seq : Nat) (sigs : PkgCheck) (s : State) : Res := .next (s.fwCommit seq 1 sigs)

/-- FW_COMMIT_RESET (R418): ACTION 2; fetching stops once its completion is posted. -/
def execFwCommitReset (seq : Nat) (sigs : PkgCheck) (s : State) : Res := .next (s.fwCommit seq 2 sigs)

/-! ## Trial images (R420, 17 R454) -/

/-- TRIAL_TIMEOUT (R420): 600 s since Ready without confirmation. -/
def execTrialTimeout (s : State) : Res :=
  .next (if s.adm.boot.trial && s.ready && !s.adm.trialOver then
      (s.modAdm (fun a => { a with trialOver := true })).health 4
    else s)

/-- A write of SEC_BOOT (17 R454). -/
def State.secBoot (s : State) (v : Nat) : State :=
  if bits v 31 16 = 0x5A5A ∧ hasBit v 15 then
    if !s.adm.boot.trial || s.adm.trialOver then s.reject Reg.SEC_CFG_STATUS_ERR Reg.SEC_CFG_STATUS_CODE 3
    else s.modBoot (fun b => { b with trial := false, fallbackUsed := false })
  else s

/-- BOOT_CONFIRM (17 R454): a write of SEC_BOOT. -/
def execBootConfirm (value : Word) (s : State) : Res := .next (s.secBoot value.toNat)

/-! ## Temperature and SMBus (R410, R421) -/

/-- TEMP_WARN (R410): Tj reaches the threshold. -/
def execTempWarn (tj : Nat) (s : State) : Res :=
  .next (if s.feature 4 ≤ tj ∧ !s.adm.hot then (s.modAdm (fun a => { a with hot := true })).health 2 else s)

/-- TEMP_WARN_REARM (R410): Tj has fallen 5 °C below it. -/
def execTempWarnRearm (tj : Nat) (s : State) : Res :=
  .next (if tj + 5 ≤ s.feature 4 then s.modAdm (fun a => { a with hot := false }) else s)

/-- MODE over SMBus: 0xFF when no slot started or the fuse map failed. -/
def State.smbMode (s : State) : Nat := if s.adm.noSlot || s.pwr.stopped then 0xFF else s.adm.mode

/-- The device answers on SMBus: its pins are powered, SYS_POR_N is high (01 Table MOD-8), and the management clock runs
(02 R43). -/
def State.smbLive (s : State) : Bool := s.pwr.vio && s.pwr.por && s.clkOk 38

/-- SMBUS_STATUS_READ (R421): code 0x00; Tj is a free temperature. -/
def execSmbusStatusRead (s : State) : Res :=
  let flags := b2n s.ready + 2 * b2n s.armed + 4 * s.get (Reg.HSTS_FATAL 0) + 8 * s.get Reg.SPT_STATUS_WARN
  .next (if s.smbLive then
      (s.answer (.block 8 (layout [(0, 2, 0x4816), (2, 1, Config.stepping), (3, 1, s.smbMode), (4, 1, flags),
        (5, 1, Config.freeValue s.free), (6, 1, s.get Reg.BUF_STATUS_TEMP)]))).draw 1
    else s.answer .nack)

/-- SMBUS_ADDRESS_WRITE (R421): code 0x10; a transaction whose PEC fails is ignored. -/
def execSmbusAddressWrite (addr : Word) (pecOk : Bool) (s : State) : Res :=
  .next (if !s.smbLive then s.answer .nack
    else if pecOk then s.modAdm (fun a => { a with smbAddr := addr.toNat }) else s)

/-- SMBUS_BUS_TIMEOUT (22 R543): the device releases the bus; what a transaction had answered is gone. -/
def execSmbusBusTimeout (s : State) : Res := .next (s.answer .nack)

end Sys2Proof.Machine
end

