-- ==== Sys2Proof/Machine/Security.lean ====
section
/-! DEFINITION. Security (17): random numbers, measurements, SEC_INFO, the attestation report, envelopes and the owner,
key ranges, debug tokens and the request registers. -/

namespace Sys2Proof.Machine

def State.modSec (s : State) (g : Sec → Sec) : State := { s with sec := g s.sec }

/-! ## Random numbers (R446) -/

/-- `n` bytes from the DRBG: a free value. -/
def State.random (s : State) (n : Nat) : Nat := Config.freeValue s.free % 256 ^ n

/-- A generate request has been made. -/
def State.generated (s : State) : State := (s.draw 1).modSec (fun x => { x with drbg := x.drbg + 1 })

/-- RNG_TEST_FAIL (R446): the DRBG enters its error state. -/
def execRngTestFail (s : State) : Res := .next ((s.put Reg.SEC_STATUS_RNG_FAIL 1).raise 0x0D01 0)

/-- DRBG_RESEED (R446): after 2^20 generate requests. -/
def execDrbgReseed (s : State) : Res :=
  .next (if 1048576 ≤ s.sec.drbg && !s.flag Reg.SEC_STATUS_RNG_FAIL then
      (s.modSec (fun x => { x with drbg := 0 })).inc Reg.SEC_RESEEDS_COUNT
    else s)

/-! ## Measurements (R429) -/

/-- M_i := SHA-384(M_i ‖ v), with `len` bytes of v. -/
def State.extend (s : State) (i len v : Nat) : State :=
  let h := Config.sha384 (48 + len) (SMap.get s.sec.m 0 i % 256 ^ 48 + v % 256 ^ len * 256 ^ 48) % 256 ^ 48
  s.modSec (fun x => { x with m := SMap.put x.m 0 i h })

/-- M3 takes a record of a change: its code, and the power-on seconds. -/
def State.extendM3 (s : State) : State :=
  (s.extend 3 8 (Config.m3Code s.free % 2 ^ 16 + 2 ^ 32 * (Config.freeTime s.free % 2 ^ 32))).draw 1

/-! ## The end of a security command (R452, R453) -/

/-- The command completes, and SEC_REQ_RESULT will take its outcome. -/
def State.secEnd (s : State) (seq sc reason len data : Nat) : State :=
  ((s.modSec (fun x => { x with result := some ⟨sc, reason, len, data⟩ })).complete seq sc noInfo reason).settle

/-- A refusal with a reason of Table SEC-9; 0x100 and above stand for a status without a reason. -/
def State.secRefuse (s : State) (seq r : Nat) : State :=
  if 0x100 ≤ r then s.secEnd seq (r - 0x100) 0 0 0
  else s.secEnd seq (if r = 7 then 0x16 else 0x02) r 0 0

/-- `n` bytes to the host, and success. -/
def State.secReply (s : State) (seq : Nat) (k : Cmd) (n data : Nat) : State :=
  (s.hostWrite k.port k.segs 0 n (data % 256 ^ n)).secEnd seq 0 0 n (data % 256 ^ n)

/-! ## SEC_INFO (R431, R433, R444, R451) -/

/-- SEC_INFO of item `i`: LENGTH bytes, those beyond the item 0. -/
def State.secInfo (s : State) (seq i size data : Nat) : State :=
  match s.runnable seq 0x80 false with
  | some k =>
    if sqeAt k.sqe 0x28 1 ≠ i then s
    else if sqeLen k.sqe % 4 ≠ 0 then s.secRefuse seq 0x102
    else s.secReply seq k (sqeLen k.sqe) (data % 256 ^ size)
  | none => s

/-- SEC_INFO_DEVICE_NONCE (R433). -/
def execSecInfoDeviceNonce (seq : Nat) (s : State) : Res := .next (s.secInfo seq 0 32 (s.sec.nonce.getD 0))

/-- SEC_INFO_ENVELOPE_KEYS (R451). -/
def execSecInfoEnvelopeKeys (seq : Nat) (s : State) : Res := .next (s.secInfo seq 1 1665 Config.envelopeKeys)

/-- SEC_INFO_CERT_CHAINS (R431): the chains follow M1. -/
def execSecInfoCertChains (seq : Nat) (s : State) : Res :=
  let c := Config.certChains (SMap.get s.sec.m 0 1)
  .next (s.secInfo seq 2 c.1 c.2)

/-- FLAGS of a range-table entry. -/
def KRange.flags (x : KRange) (r : Nat) : Nat :=
  b2n (r == 0 || x.zones != 0) + 2 * b2n x.rlock + 4 * b2n x.wlock + 8 * b2n x.auto + 16 * b2n x.loaded

/-- The range table (R451). -/
def State.rangeTable (s : State) : Nat :=
  layout ((List.range 64).map (fun r =>
    let x := s.range r
    (32 * r, 32, layout [(0, 8, x.first), (8, 4, x.zones), (12, 1, x.nsid), (13, 1, x.flags r), (14, 2, x.gen)])))

/-- SEC_INFO_RANGE_TABLE (R451). -/
def execSecInfoRangeTable (seq : Nat) (s : State) : Res := .next (s.secInfo seq 3 2048 s.rangeTable)

/-- SEC_INFO_DEBUG_NONCE (R444). -/
def execSecInfoDebugNonce (seq : Nat) (s : State) : Res := .next (s.secInfo seq 4 32 (s.sec.dbgNonce.getD 0))

/-! ## The report (R432) -/

/-- SVN_FUSE (R430). -/
def State.svnFuse (s : State) : Nat := s.sec.svn.getD (Config.svnFuse % 64)

/-- The package that runs. -/
def State.bootedPkg (s : State) : Option FwPkg :=
  match s.adm.booted with
  | some 0 => some s.recoverySlot
  | some _ => s.adm.active
  | none => none

/-- KEY_ID of the booted package (R428). -/
def State.bootKeyId (s : State) : Nat :=
  match s.bootedPkg.bind FwPkg.mainSource with
  | some x => sigKeyId x.2
  | none => 0

/-- The attestation report (Table SEC-4); the signatures are hedged: free values. -/
def State.report (s : State) (nonce : Nat) : Nat :=
  let m := fun i => SMap.get s.sec.m 0 i
  let ak := Config.akKeys (m 1)
  layout [(0x000, 4, 0x49584152), (0x004, 2, 1), (0x006, 1, s.adm.mode),
    (0x007, 1, b2n s.sec.dbgOpened + 2 * b2n s.sec.owned + 4 * b2n s.sec.ownerLock + 8 * b2n s.adm.boot.trial),
    (0x008, 4, s.evr.poc), (0x00C, 4, Config.freeTime s.free), (0x010, 24, nonce), (0x028, 1, s.svnFuse),
    (0x029, 1, s.bootKeyId), (0x030, 48, m 0), (0x060, 48, m 1), (0x090, 48, m 2), (0x0C0, 48, m 3),
    (0x0F0, 97, ak.1), (0x160, 2592, ak.2), (0xB80, 96, s.random 96), (0xBE0, 4627, Config.freeValue (s.free + 1))]

/-- ATTEST (R432); the signatures need random numbers (R446). -/
def execAttest (seq : Nat) (s : State) : Res :=
  .next (match s.runnable seq 0x81 false with
    | some k =>
      if s.flag Reg.SEC_STATUS_RNG_FAIL then s.secRefuse seq 7
      else s.generated.generated.secReply seq k 8192 (s.report (sqeAt k.sqe 0x28 24))
    | none => s)

/-- GET_RANDOM (R446, R451). -/
def execGetRandom (seq : Nat) (s : State) : Res :=
  .next (match s.runnable seq 0x85 false with
    | some k =>
      if s.flag Reg.SEC_STATUS_RNG_FAIL then s.secRefuse seq 7
      else s.generated.secReply seq k (sqeLen k.sqe) (s.random (sqeLen k.sqe))
    | none => s)

/-! ## Envelopes (R433 to R435) -/

/-- A token has been accepted or the port opened since reset: no envelope is accepted (R445). -/
def State.dbgShut (s : State) : Bool := s.sec.dbgOpened || s.sec.dbgWait.isSome

/-- Why an envelope is refused; 0 where it is accepted. -/
def State.envReason (s : State) (e : EnvRes) : Nat :=
  if s.flag Reg.SEC_STATUS_RNG_FAIL then 7
  else if s.dbgShut then 9
  else if s.flag Reg.SEC_STATUS_TRY_LOCK then 4
  else if !e.tagOk then 1
  else if s.sec.nonce ≠ some e.nonce then 2
  else if e.cred ≠ s.sec.cred then 3
  else 0

/-- The refusals are counted (R435, Table SEC-11). -/
def State.envCount (s : State) (c : Nat) : State :=
  let s := s.when (decide (c ≠ 0) && c != 7) (·.inc Reg.SEC_AUTH_FAIL_COUNT)
  if c = 0 then s.put Reg.SEC_STATUS_TRIES 0
  else if c = 1 ∨ c = 3 then
    let n := min 8 (s.get Reg.SEC_STATUS_TRIES + 1)
    (s.put Reg.SEC_STATUS_TRIES n).when (n = 8) (·.put Reg.SEC_STATUS_TRY_LOCK 1)
  else s

/-- The device nonce is replaced (R433), where the DRBG works. -/
def State.newNonce (s : State) : State :=
  if s.flag Reg.SEC_STATUS_RNG_FAIL then s
  else
    let v := s.random 32
    s.generated.modSec (fun x => { x with nonce := some v })

/-- A command with an envelope: opcode `opc`, code `op`; `act` answers a reason and the state once the owner's authority
is given. -/
def State.withEnvelope (s : State) (seq opc op : Nat) (env : Option EnvRes) (ready : State → Cmd → Bool)
    (act : State → Cmd → EnvRes → Nat × State) : State :=
  match s.runnable seq opc false with
  | none => s
  | some k =>
    if sqeAt k.sqe 0x28 1 ≠ op ∨ !ready s k then s
    else
      let s := s.hostRead k.port k.segs 0 (bytesNeeded k.qid k.sqe)
      match env with
      | none => s.newNonce.secRefuse seq 0x112
      | some e =>
        let c := s.envReason e
        let s := (s.envCount c).newNonce
        if c ≠ 0 then s.secRefuse seq c
        else
          let r := act s k e
          if r.1 ≠ 0 then s.secRefuse seq r.1 else r.2.secEnd seq 0 0 0 0

/-! ## Crypto erase (R442) -/

/-- The blocks that satisfy `p` leave the buffer and the window without a deferred error, their failed marks end, and
sequential-write zones are reset. -/
def State.eraseData (s : State) (p : Nat → Nat → Bool) : State :=
  let s := s.each ((s.spt.window.filter (fun e => p e.2.nsid e.2.lba)).map Prod.fst) State.dropWin
  let keep := fun (k : Nat) => !(p (k / 2 ^ 64) (k % 2 ^ 64) && s.isSeq (k / 2 ^ 64) (k % 2 ^ 64))
  let s := (s.setCache (s.cache.filter (fun e => !p e.2.nsid e.2.lba))).setMedia { s.media with
    written := SMap.keep s.media.written keep
    newest := SMap.keep s.media.newest (fun k => !p (k / 2 ^ 64) (k % 2 ^ 64)) }
  s.putMeta (fun x => { x with
      failed := SMap.keep x.failed (fun k => !p (k / 2 ^ 64) (k % 2 ^ 64))
      zones := SMap.keep x.zones (fun k => !p (k / 2 ^ 32) (k % 2 ^ 32 * zoneBlocks)) })

/-- A range takes a new key from the DRBG. -/
def State.rekey (s : State) (r : Nat) : State :=
  let v := s.random 64
  s.generated.putRange r { s.range r with key := v, gen := ((s.range r).gen + 1) % 65536 }

/-- The ranges that exist. -/
def State.definedRanges (s : State) : List Nat :=
  0 :: (s.sec.ranges.filter (fun e => e.1 != 0 && e.2.zones != 0)).map Prod.fst

/-- ERASE of every range. -/
def State.eraseAll (s : State) : State := (s.each s.definedRanges State.rekey).eraseData (fun _ _ => true)

/-- No undecided I/O command of lower number touches blocks that `hits` says (R441). -/
def State.quiet (s : State) (seq : Nat) (hits : Span → Bool) : Bool :=
  !s.cmds.any (fun c => decide (c.1 < seq) && c.2.open && (match c.2.span with | some x => hits x | none => false))

/-! ## The owner (R436, R437, R430) -/

/-- SEC_OWNER of OP `op`. -/
def State.owner (s : State) (seq op : Nat) (env : Option EnvRes) (act : State → Cmd → EnvRes → Nat × State) : State :=
  s.withEnvelope seq 0x82 op env (fun s _ => op != 5 || s.quiet seq (fun _ => true)) act

/-- An operation accepted only while the device is owned. -/
def whenOwned (g : State → Cmd → EnvRes → Nat × State) (s : State) (k : Cmd) (e : EnvRes) : Nat × State :=
  if s.sec.owned then g s k e else (5, s)

/-- The new credential replaces the old one; every KEK and VER is rewrapped. -/
def State.setCred (s : State) (c : Nat) : State :=
  s.modSec (fun x => { x with owned := true, cred := c % 256 ^ 48 })

/-- SEC_OWNER_TAKE (R436). -/
def execSecOwnerTake (seq : Nat) (env : Option EnvRes) (s : State) : Res :=
  .next (s.owner seq 1 env (fun s _ e => if s.sec.owned then (5, s) else (0, (s.setCred e.newCred).extendM3)))

/-- SEC_OWNER_CHANGE (R436). -/
def execSecOwnerChange (seq : Nat) (env : Option EnvRes) (s : State) : Res :=
  .next (s.owner seq 2 env (whenOwned (fun s _ e => (0, s.setCred e.newCred))))

/-- The owner lock changes. -/
def State.putLock (s : State) (b : Bool) : State :=
  if s.sec.ownerLock = b then s else (s.modSec (fun x => { x with ownerLock := b })).extendM3

/-- SEC_OWNER_SET_LOCK (R436). -/
def execSecOwnerSetLock (seq : Nat) (env : Option EnvRes) (s : State) : Res :=
  .next (s.owner seq 3 env (whenOwned (fun s _ _ => (0, s.putLock true))))

/-- SEC_OWNER_CLEAR_LOCK (R436). -/
def execSecOwnerClearLock (seq : Nat) (env : Option EnvRes) (s : State) : Res :=
  .next (s.owner seq 4 env (whenOwned (fun s _ _ => (0, s.putLock false))))

/-- The unowned state: only range 0, open, its key loaded (R436, R439). -/
def State.disown (s : State) : State :=
  let x := s.range 0
  s.modSec (fun y => { y with
    owned := false, ownerLock := false, cred := 0, roster := []
    ranges := SMap.put [] rangeInit 0 { rangeInit with loaded := true, gen := x.gen, key := x.key } })

/-- SEC_OWNER_REVERT (R436). -/
def execSecOwnerRevert (seq : Nat) (env : Option EnvRes) (s : State) : Res :=
  .next (s.owner seq 5 env (whenOwned (fun s _ _ => (0, (s.eraseAll.putLock false).disown.extendM3.rosterCheck))))

/-- A bootable slot would be left below security version `v` (R430). -/
def State.svnTooHigh (s : State) (v : Nat) : Bool :=
  [some s.recoverySlot, s.adm.active, s.adm.fallback].any (fun p => match p with
    | some q => decide (q.svn < v)
    | none => false)

/-- SEC_OWNER_RAISE_SVN (R430, R436). -/
def execSecOwnerRaiseSvn (seq : Nat) (env : Option EnvRes) (s : State) : Res :=
  .next (s.owner seq 6 env (whenOwned (fun s k _ =>
    let v := sqeAt k.sqe 0x2C 4
    if 63 < v ∨ v < s.svnFuse ∨ s.svnTooHigh v then (0x0A, s)
    else if v = s.svnFuse then (0, s)
    else (0, (s.modSec (fun x => { x with svn := some v })).extendM3))))

/-- SEC_OWNER_SET_ROSTER (R436, R448); a COUNT outside 1 to 32 is refused as 15 R388 gives for counts, and a host buffer
that holds less than the roster as too small. -/
def execSecOwnerSetRoster (seq : Nat) (env : Option EnvRes) (roster : List Nat) (s : State) : Res :=
  .next (s.owner seq 7 env (whenOwned (fun s k _ =>
    if roster.length = 0 then (0x105, s)
    else if 32 < roster.length then (0x106, s)
    else if sqeSegs k.sqe ≠ 1 ∧ k.segs.foldl (fun n x => n + x.2) 0 < 1828 + 48 * roster.length then (0x107, s)
    else (0, (s.modSec (fun x => { x with roster := roster.map (· % 256 ^ 48) })).rosterCheck))))

/-! ## Key ranges (R438 to R442) -/

/-- RANGE, the range FLAGS, and the zones a DEFINE names. -/
def rngNo (e : Nat) : Nat := sqeAt e 0x29 1
def rngFlag (e i : Nat) : Bool := hasBit (sqeAt e 0x2A 1) i

/-- SEC_RANGE of OP `op`; `hits` says which blocks it moves or erases. -/
def State.rangeCmd (s : State) (seq op : Nat) (env : Option EnvRes) (hits : State → Nat → Span → Bool)
    (act : State → Nat → Nat × State) : State :=
  s.withEnvelope seq 0x83 op env (fun s k => s.quiet seq (hits s k.sqe))
    (whenOwned (fun s k _ => act s k.sqe))

/-- The blocks a DEFINE moves. -/
def defineHits (e : Nat) (x : Span) : Bool :=
  x.nsid == sqeNsid e && rangesMeet x.lba x.n (sqeSlba e) (sqeLen e * zoneBlocks)

/-- The blocks that lie in the range named. -/
def State.rangeHits (s : State) (e : Nat) (x : Span) : Bool :=
  rngNo e == 0xFF || (s.rangesOf x.nsid x.lba x.n).contains (rngNo e)

/-- A DEFINE that R438 refuses with reason 6. -/
def State.defineBad (s : State) (e : Nat) : Bool :=
  sqeSlba e % zoneBlocks != 0 || decide (s.nsCap (sqeNsid e) < sqeSlba e + sqeLen e * zoneBlocks) ||
    s.sec.ranges.any (fun r => r.1 != 0 && r.2.common (sqeNsid e) (sqeSlba e) (sqeLen e * zoneBlocks) != 0)

/-- SEC_RANGE_DEFINE (R438, R442): the LBAs it moves are erased. -/
def execSecRangeDefine (seq : Nat) (env : Option EnvRes) (s : State) : Res :=
  .next (s.rangeCmd seq 1 env (fun _ e => defineHits e) (fun s e =>
    let r := rngNo e
    if r = 0 ∨ (s.range r).zones ≠ 0 then (5, s)
    else if s.defineBad e then (6, s)
    else
      let s := s.eraseData (fun n l => n == sqeNsid e && decide (sqeSlba e ≤ l) && decide (l < sqeSlba e + sqeLen e * zoneBlocks))
      let s := s.rekey r
      (0, s.putRange r { s.range r with
        nsid := sqeNsid e, first := sqeSlba e, zones := sqeLen e, rlock := false, wlock := false
        auto := rngFlag e 2, loaded := true, discard := none })))

/-- SEC_RANGE_DELETE (R438, R442): its LBAs, erased, belong to range 0 again. -/
def execSecRangeDelete (seq : Nat) (env : Option EnvRes) (s : State) : Res :=
  .next (s.rangeCmd seq 2 env State.rangeHits (fun s e =>
    let r := rngNo e
    if r = 0 ∨ (s.range r).zones = 0 then (5, s)
    else
      let s := s.eraseData (fun n l => s.rangeOf n l == r)
      let g := ((s.range r).gen + 1) % 65536
      (0, s.putRange r { rangeInit with gen := g })))

/-- The range exists. -/
def State.rangeExists (s : State) (r : Nat) : Bool := r == 0 || (s.range r).zones != 0

/-- SEC_RANGE_LOCK (R439): with both locks set, the MK goes once every write of lower number is on media. -/
def execSecRangeLock (seq : Nat) (env : Option EnvRes) (s : State) : Res :=
  .next (s.rangeCmd seq 3 env (fun _ _ _ => false) (fun s e =>
    let r := rngNo e
    if !s.rangeExists r then (5, s)
    else
      let x := s.range r
      let rl := x.rlock || rngFlag e 0
      let wl := x.wlock || rngFlag e 1
      (0, s.putRange r { x with rlock := rl, wlock := wl
                                discard := if rl && wl && x.loaded && x.discard.isNone then some seq else x.discard })))

/-- SEC_RANGE_UNLOCK (R439). -/
def execSecRangeUnlock (seq : Nat) (env : Option EnvRes) (s : State) : Res :=
  .next (s.rangeCmd seq 4 env (fun _ _ _ => false) (fun s e =>
    let r := rngNo e
    if !s.rangeExists r then (5, s)
    else
      let x := s.range r
      let rl := x.rlock && !rngFlag e 0
      let wl := x.wlock && !rngFlag e 1
      (0, if rl && wl then s
        else s.putRange r { x with rlock := rl, wlock := wl, loaded := true, discard := none })))

/-- SEC_RANGE_ERASE (R442). -/
def execSecRangeErase (seq : Nat) (env : Option EnvRes) (s : State) : Res :=
  .next (s.rangeCmd seq 5 env State.rangeHits (fun s e =>
    let r := rngNo e
    if r = 0xFF then (0, s.eraseAll)
    else if !s.rangeExists r then (5, s)
    else (0, (s.rekey r).eraseData (fun n l => s.rangeOf n l == r))))

/-- Every write of range `r` of a lower number than `q` is on media. -/
def State.writesDone (s : State) (r q : Nat) : Bool :=
  s.cache.all (fun e => decide (q ≤ e.2.seq) || s.rangeOf e.2.nsid e.2.lba != r) &&
    !s.cmds.any (fun c => decide (c.1 < q) && c.2.open && (match c.2.span with
      | some x => x.mods && (s.rangesOf x.nsid x.lba x.n).contains r
      | none => false))

/-- MK_DISCARD (R439). -/
def execMkDiscard (range : Fin 64) (s : State) : Res :=
  let x := s.range range.val
  .next (match x.discard with
    | some q => if s.writesDone range.val q then s.putRange range.val { x with loaded := false, discard := none } else s
    | none => s)

/-! ## Debug tokens (R444, R445, R455) -/

/-- Why a token is refused: 7, 0x0B for the owner lock, or 8; 0 where it is accepted. -/
def State.tokReason (s : State) (t : Nat) (g : TokCheck) : Nat :=
  if s.flag Reg.SEC_STATUS_RNG_FAIL then 7
  else if s.sec.ownerLock then 0x0B
  else if bytesAt t 0 4 = 0x49584454 ∧ bytesAt t 4 2 = 1 ∧ bytesAt t 8 16 = Config.serial % 256 ^ 16 ∧
      s.sec.dbgNonce = some (bytesAt t 0x18 32) ∧ g.key ∧ g.ecdsa ∧ g.mldsa then 0
  else 8

/-- The debug nonce is replaced, where the DRBG works. -/
def State.newDbgNonce (s : State) : State :=
  if s.flag Reg.SEC_STATUS_RNG_FAIL then s
  else
    let v := s.random 32
    s.generated.modSec (fun x => { x with dbgNonce := some v })

/-- Every range is locked as LOCK does. -/
def State.lockAll (s : State) : State :=
  s.each (List.range 64) (fun s r =>
    let x := s.range r
    s.putRange r { x with rlock := true, wlock := true, discard := if x.loaded then some s.nextSeq else none })

/-- A token attempt: refused, or accepted with the wait of R445. -/
def State.token (s : State) (t : Nat) (g : TokCheck) (seq : Option Nat) : Nat × State :=
  let c := s.tokReason t g
  let s := s.newDbgNonce
  if c = 0 then
    (0, (s.lockAll.modSec (fun x => { x with dbgWait := some ⟨bytesAt t 7 1 % 8, seq⟩ })).put Reg.DBG_STATUS_BUSY 1)
  else (c, (s.inc Reg.DBG_TOKEN_FAILS_COUNT).put Reg.DBG_STATUS_REASON c)

/-- SEC_DEBUG (R437, R444, R452): `token` is what the host's memory gives (none: a host-memory error). -/
def execSecDebug (seq : Nat) (token : Option Nat) (sigs : TokCheck) (s : State) : Res :=
  .next (match s.runnable seq 0x84 false with
    | none => s
    | some k =>
      if s.flag Reg.DBG_STATUS_BUSY then s
      else
        let s := s.hostRead k.port k.segs 0 8192
        match token with
        | none => s.secRefuse seq 0x112
        | some t =>
          let r := s.token (t % 256 ^ 8192) sigs (some seq)
          if r.1 = 0 then r.2 else if r.1 = 0x0B then r.2.secEnd seq 0x40 0 0 0 else r.2.secRefuse seq r.1)

/-- DBG_TOKEN_DATA_WRITE (R455). -/
def execDbgTokenDataWrite (value : Word) (s : State) : Res :=
  let w := s.get Reg.DBG_TOKEN_ADDR_WORD
  .next ((s.modSec (fun x => { x with token := SMap.put x.token 0 w value.toNat })).put Reg.DBG_TOKEN_ADDR_WORD
    (min 2047 (w + 1)))

/-- The token held. -/
def State.heldToken (s : State) : Nat := s.sec.token.foldl (fun v e => v + e.2 * 2 ^ (32 * e.1)) 0

/-- DBG_TOKEN_GO (R455): the token held is checked, and its buffer cleared. -/
def execDbgTokenGo (sigs : TokCheck) (s : State) : Res :=
  .next (if s.flag Reg.DBG_STATUS_BUSY then s
    else ((s.modSec (fun x => { x with token := [] })).token s.heldToken sigs none).2)

/-! ## The request registers (R453) -/

/-- SEC_REQUEST (R453): a write of SEC_REQ_CTL.GO. -/
def execSecRequest (s : State) : Res :=
  .next (if s.flag Reg.SEC_REQ_CTL_BUSY then s.reject Reg.SEC_CFG_STATUS_ERR Reg.SEC_CFG_STATUS_CODE 4
    else (s.put Reg.SEC_REQ_CTL_BUSY 1).modSec (fun x => { x with result := none }))

end Sys2Proof.Machine
end

