-- ==== Sys2Proof/Machine/Ring.lean ====
section
/-! DEFINITION. The ring engine (18): ports, credits and flits, sending frames, sessions, data frames, segments, splices
and the bridge switch. -/

namespace Sys2Proof.Machine

def State.modRing (s : State) (g : Ring → Ring) : State := { s with ring := g s.ring }

/-! ## This member and the map (R468, R470) -/

/-! Fields of the 136-byte member map (Table RING-4). -/
def mapEpoch (r : Nat) : Nat := bytesAt r 0 8
def mapHash (r : Nat) : Nat := bytesAt r 8 48
def mapLevel (r : Nat) : Nat := bytesAt r 0x38 2
def mapManager (r : Nat) : Nat := bytesAt r 0x3A 1
def mapDeputy (r : Nat) : Nat := bytesAt r 0x3B 1
def mapRate (r : Nat) : Nat := bytesAt r 0x3C 1
def mapCount (r : Nat) : Nat := bytesAt r 0x3D 1
/-- Positions, eastward from the manager: member and state. -/
def mapPos (r : Nat) : List (Nat × Nat) :=
  (List.range (mapCount r)).map (fun p => (bytesAt r (0x40 + 2 * p) 1, bytesAt r (0x41 + 2 * p) 1))
/-- CHECK holds. -/
def mapOk (r : Nat) : Bool := crc64 (leBytes r 128) == bytesAt r 0x80 8 && decide (1 ≤ mapCount r) && decide (mapCount r ≤ 32)

/-- The state of a member in a map: 0 ACTIVE, 1 TRANSIT, 2 FAILED, 3 LEFT; none where it is not listed. -/
def mapState (r m : Nat) : Option Nat := ((mapPos r).find? (fun p => p.1 == m)).map Prod.snd
/-- The members in one of the states of a map. -/
def mapIn (r : Nat) (st : Nat → Bool) : List Nat := ((mapPos r).filter (fun p => st p.2)).map Prod.fst
/-- Members as a mask. -/
def maskOf (ms : List Nat) : Nat := ms.foldl setBit 0

def State.mapRaw (s : State) : Nat := s.ring.map.getD 0
/-- The member is ACTIVE in the current map. -/
def State.isActive (s : State) (m : Nat) : Bool := s.ring.map.isSome && mapState s.mapRaw m == some 0
/-- Through members, eastward: ACTIVE and TRANSIT. -/
def State.throughMembers (s : State) : List Nat := mapIn s.mapRaw (fun x => decide (x ≤ 1))

/-- The member is in through state. -/
def State.through (s : State) : Bool := s.flag Reg.RING_STATUS_SWITCH

/-- The member is in RECOVERY or debug-open (R475). -/
def State.barred (s : State) : Bool := s.adm.mode == 3 || s.sec.dbgOpened

/-- The member is transit-only (R468, R475). -/
def State.transitOnly (s : State) : Bool := s.barred || s.ring.rosterBad || s.flag Reg.RING_STATUS_TRANSIT

/-- Quorum (R474). -/
def State.quorum (s : State) : Bool :=
  let heard := fun (m : Nat) => m == s.ownNo || (SMap.look s.ring.alive m).isSome
  match s.ring.map with
  | some r =>
    let a := mapIn r (· == 0)
    let h := (a.filter heard).length
    decide (a.length < 2 * h) || (2 * h == a.length && (match a.foldl (fun (m : Option Nat) x => some (min x (m.getD x))) none with
      | some l => heard l
      | none => false))
  | none => decide (s.sec.roster.length < 2 * ((List.range s.sec.roster.length).filter heard).length)

/-- A bit of RING_EVT sets; each that does interrupts application core 0 (R481). -/
def State.ringEvt (s : State) (F : Field) : State :=
  if s.flag F then s else (s.put F 1).emit (.appInterrupt 0x0E F.lo)

/-- The own role changes (RING_STATUS.ROLE). -/
def State.putRole (s : State) (r : Nat) : State :=
  if s.get Reg.RING_STATUS_ROLE = r then s
  else ((s.put Reg.RING_STATUS_ROLE r).ringEvt Reg.RING_EVT_ROLE).raise 0x0E02 s.ownNo

/-! ## Ports: credits and the sending order (R463, R464) -/

def rportInit : RPort := ⟨false, false, 0, 0, [], [], 0, 0⟩
def State.rport (s : State) (p : Nat) : RPort := SMap.get s.ring.ports rportInit p
def State.modRport (s : State) (p : Nat) (g : RPort → RPort) : State :=
  s.modRing (fun x => { x with ports := SMap.upd x.ports rportInit p g })

/-- The class that has the next local slot: control, foreground, background, with background's share of every sixteen. -/
def RPort.pick (x : RPort) (share : Nat) : Option Nat :=
  let waits := fun (c : Nat) => x.loc.any (fun i => i.cls == c)
  let others := waits 0 || waits 1
  if waits 2 && (!others || decide (16 - x.slot ≤ share - x.bg)) then some 2
  else if waits 0 then some 0
  else if waits 1 then some 1
  else none

/-- The first waiting frame of a class sends a flit: the list after it, and the message where it was the last flit. -/
def sendOne (c : Nat) : List TxItem → List TxItem × Option Out
  | [] => ([], none)
  | i :: is =>
    if i.cls = c then (if i.left ≤ 1 then (is, some i.msg) else ({ i with left := i.left - 1 } :: is, none))
    else
      let r := sendOne c is
      (i :: r.1, r.2)

/-- A port passes flits: the member is in through state, and the clocks of the port's quad and of the ring protocol run (02
R43). -/
def State.ringRuns (s : State) (p : Nat) : Bool := s.through && s.clkOk (23 + p) && s.clkOk 42

/-- A port sends while it holds credits: transit flits first, then local ones; `n` bounds the flits. -/
def State.pump (s : State) (p : Nat) : Nat → State
  | 0 => s
  | n + 1 =>
    let x := s.rport p
    if !x.up || x.credits == 0 || !s.ringRuns p then s
    else match x.fwd with
      | f :: r =>
        let s := s.modRport p (fun x => { x with fwd := r, credits := x.credits - 1 })
        let s := s.modRport (1 - p) (fun y => { y with freed := y.freed + 1 })
        (s.emit (.ringForward (p == 0) f)).pump p n
      | [] =>
        match x.pick (s.get Reg.RING_CTL_BG_SHARE) with
        | none => s
        | some c =>
          let r := sendOne c x.loc
          let bg := x.bg + b2n (c == 2)
          let s := s.modRport p (fun x => { x with
            loc := r.1, credits := x.credits - 1
            slot := if x.slot = 15 then 0 else x.slot + 1, bg := if x.slot = 15 then 0 else bg })
          let s := s.inc Reg.RING_TX_FLITS_COUNT
          (match r.2 with
          | some o => s.emit o
          | none => s).pump p n

/-- A port sends what its credits allow. -/
def State.drain (s : State) (p : Nat) : State := s.pump p (s.rport p).credits

/-- Segments eastward from member `i` to `j` among the through members. -/
def State.eastSteps (s : State) (i j : Nat) : Option (Nat × Nat) :=
  let t := s.throughMembers
  match t.findIdx? (· == i), t.findIdx? (· == j) with
  | some a, some b => some ((b + t.length - a) % t.length, t.length)
  | _, _ => none

/-- The port a unicast frame leaves by: fewer segments, ties East, never across an open own segment (R463). -/
def State.portTo (s : State) (dst : Nat) : Nat :=
  let east := match s.eastSteps s.ownNo dst with
    | some (e, n) => decide (2 * e ≤ n)
    | none => true
  if east then (if s.flag Reg.RING_STATUS_OPEN_E then 1 else 0)
  else if s.flag Reg.RING_STATUS_OPEN_W then 0 else 1

/-- The flits of a frame of `n` bytes (R459). -/
def flitsOf (n : Nat) : Nat := max 1 (ceilDiv n 208)

/-- A frame queued on a port. -/
def State.queueOn (s : State) (p cls flits : Nat) (o : Out) : State :=
  (s.modRport p (fun x => { x with loc := x.loc ++ [(⟨cls, flits, o⟩ : TxItem)] })).drain p

/-- A unicast frame queued to its destination. -/
def State.tell (s : State) (type dst cls number waddr len payload : Nat) : State :=
  if s.through then s.queueOn (s.portTo dst) cls (flitsOf len) (.ringFrame type dst number waddr len payload) else s

/-- A broadcast: East around a closed ring, both ways around an open one (R463). -/
def State.tellAll (s : State) (type len payload : Nat) : State :=
  if !s.through then s
  else
    let o : Out := .ringFrame type 0xFF 0 0 len payload
    let s := s.queueOn 0 0 1 o
    s.when (s.flag Reg.RING_STATUS_OPEN_E || s.flag Reg.RING_STATUS_OPEN_W) (·.queueOn 1 0 1 o)

/-! ## Sending frames that are answered (R463, R479) -/

/-- A session that can send: its key has not reached 2^32 flits or 24 hours (R449). -/
def State.canSend (s : State) (dst : Nat) : Bool :=
  match SMap.look s.ring.sessions dst with
  | some x => !x.stopped && decide (x.tx < 2 ^ 32)
  | none => false

/-- The frame ends without success. -/
def State.frameFail (s : State) (number : Nat) (r : RReq) : State :=
  s.modRing (fun x => { x with
    frames := SMap.del x.frames number
    lostReqs := match r with | .strip i => x.lostReqs ++ [i] | _ => x.lostReqs })

/-- A new agreement with a peer: the lower-numbered member initiates (R447). -/
def State.agree (s : State) (peer : Nat) : State :=
  if s.ring.agreeing.contains peer then s
  else
    let s := s.modRing (fun x => { x with agreeing := x.agreeing ++ [peer] })
    s.when (decide (s.ownNo < peer)) (·.tell 0x05 peer 0 0 0 0 0)

/-- The flits of a frame count under the session key. -/
def State.useKey (s : State) (dst n : Nat) : State :=
  match SMap.look s.ring.sessions dst with
  | some x => s.modRing (fun y => { y with sessions := SMap.set y.sessions dst { x with tx := x.tx + n } })
  | none => s

/-- The frame goes out, or waits for a session. -/
def State.frameOut (s : State) (number : Nat) (f : RFrame) : State :=
  if s.canSend f.dst then
    ((s.modRing (fun x => { x with frames := SMap.set x.frames number { f with st := 0 } })).useKey f.dst (flitsOf f.flen)).tell
      f.type f.dst f.cls number f.waddr f.flen f.payload
  else
    let s := s.modRing (fun x => { x with frames := SMap.set x.frames number { f with st := 2 } })
    s.when (SMap.look s.ring.sessions f.dst).isNone (·.agree f.dst)

/-- WRITE, READ_REQ and READ_RESP frames go to ACTIVE members only. -/
def needsActive (type : Nat) : Bool := type == 0x10 || type == 0x11 || type == 0x12

/-- A frame is sent for the first time. -/
def State.ringSend (s : State) (type dst cls waddr flen payload : Nat) (req : RReq) : State :=
  let n := s.ring.nextFrame
  let s := s.modRing (fun x => { x with nextFrame := (n + 1) % 2 ^ 32 })
  if needsActive type && !s.isActive dst then s.frameFail n req
  else s.frameOut n ⟨type, dst, cls, waddr, flen, payload, 1, 0, req⟩

/-- An answer without one of its own: ACK, NACK, READ_RESP. -/
def State.reply1 (s : State) (type dst number waddr len payload : Nat) : State :=
  (s.useKey dst (flitsOf len)).tell type dst 0 number waddr len payload

/-! ## The bridge switch (R465) -/

/-- The member takes bypass: no flit passes its engine, its segments end, it drops any role. -/
def State.ringBypass (s : State) : State :=
  let s := (s.put Reg.RING_STATUS_SWITCH 0).putRole 0
  let s := ((s.put Reg.RING_STATUS_OPEN_E 0).put Reg.RING_STATUS_OPEN_W 0).put Reg.RING_STATUS_MUTED 0
  s.modRing (fun x => { x with
    ports := [], alive := [], joins := [], leaves := [], failed := [], splicing := false, spliceWait := false
    wantJoin := false, leaving := false, claiming := false })

/-- A splice begins (R467): through, and both segments train. -/
def State.splice (s : State) : State :=
  if s.flag Reg.RING_CTL_EN && s.ready && s.own.isSome && !s.through then
    (s.put Reg.RING_STATUS_SWITCH 1).modRing (fun x => { x with
      splicing := true, spliceWait := false, leaving := false
      ports := SMap.putList [] rportInit 0 [{ rportInit with retraining := true }, { rportInit with retraining := true }] })
  else s

/-- A write of RING_CTL (R469, R481, Table RING-8). -/
def State.ringCtl (s : State) (v : Nat) : State :=
  if bits v 27 24 = 0 ∨ bits v 23 16 = 0 ∨ bits v 15 12 = 0 then
    s.reject Reg.RING_CFG_STATUS_ERR Reg.RING_CFG_STATUS_CODE 1
  else
    let was := s.flag Reg.RING_CTL_EN
    let s := (((s.put Reg.RING_CTL_EN (bit v 31)).put Reg.RING_CTL_MUTE_REQ (bit v 30)).put Reg.RING_CTL_MAX_RATE
      (bits v 29 28)).put Reg.RING_CTL_RETRY_MAX (bits v 27 24)
    let s := (s.put Reg.RING_CTL_TMO (bits v 23 16)).put Reg.RING_CTL_BG_SHARE (bits v 15 12)
    if was && !hasBit v 31 then
      let s := s.when s.through (fun s => s.modRing (fun x => { x with leaving := true }))
      s.when (s.get Reg.RING_STATUS_MANAGER != 0xFF && s.own != some (s.get Reg.RING_STATUS_MANAGER))
        (·.tell 0x04 (s.get Reg.RING_STATUS_MANAGER) 0 0 0 1 2)
    else if !was && hasBit v 31 then s.splice
    else s

/-- RING_CTL as it stands. -/
def State.ringCtlWord (s : State) : Nat :=
  s.get Reg.RING_CTL_EN * 2 ^ 31 + s.get Reg.RING_CTL_MUTE_REQ * 2 ^ 30 + s.get Reg.RING_CTL_MAX_RATE * 2 ^ 28 +
    s.get Reg.RING_CTL_RETRY_MAX * 2 ^ 24 + s.get Reg.RING_CTL_TMO * 2 ^ 16 + s.get Reg.RING_CTL_BG_SHARE * 2 ^ 12

/-- RING_LEAVE (R469): a write of EN 0. -/
def execRingLeave (s : State) : Res := .next (s.ringCtl (clrBit s.ringCtlWord 31))

/-- LEAVE_TIMEOUT (R469): 10 ms after its leave without a map the member takes bypass. -/
def execLeaveTimeout (s : State) : Res := .next (if s.ring.leaving then s.ringBypass else s)

/-- SELF_FENCE (R465). -/
def execSelfFence (s : State) : Res := .next (if s.through then s.ringBypass else s)

/-- RING_FENCE (R465): CONTROL FENCE of the manager. -/
def execRingFence (src : Fin 32) (s : State) : Res :=
  .next (if s.through && s.get Reg.RING_STATUS_MANAGER == src.val && (SMap.look s.ring.sessions src.val).isSome then
      s.ringBypass
    else s)

/-! ## Segments (R466, R467) -/

/-- OPEN_E or OPEN_W. -/
def openOf (p : Nat) : Field := if p = 0 then Reg.RING_STATUS_OPEN_E else Reg.RING_STATUS_OPEN_W

/-- SEGMENT_SIGNAL_LOSS (R466): the segment is open and retrains; flits in flight on it are lost, and local frames that
wait there take the other direction. -/
def execSegmentSignalLoss (east : Bool) (s : State) : Res :=
  let p := if east then 0 else 1
  let x := s.rport p
  .next (if s.through && x.up then
      let s := s.modRport p (fun y => { y with up := false, retraining := true, credits := 0, fwd := [], loc := [] })
      let s := s.modRport (1 - p) (fun y => { y with freed := y.freed + x.fwd.length, loc := y.loc ++ x.loc })
      ((s.put (openOf p) 1).ringEvt Reg.RING_EVT_SEGMENT).drain (1 - p)
    else s)

/-- SEGMENT_RETRAIN_TIMEOUT (R466): it stays open. -/
def execSegmentRetrainTimeout (east : Bool) (s : State) : Res :=
  .next (if s.ring.splicing then s
    else s.modRport (if east then 0 else 1) (fun y => { y with retraining := false }))

/-- Bypassed members that a segment may span at a rate (Table RING-1). -/
def spanLimit (rate : Nat) : Nat := if rate = 3 then 2 else if rate = 2 then 3 else 4

/-- The manager heard in heartbeats. -/
def State.heardManager (s : State) : Option Nat := (s.ring.alive.find? (fun e => e.2.role == 3)).map Prod.fst

/-- JOIN to the manager it hears (R467). -/
def State.sendJoin (s : State) : State :=
  match s.ring.wantJoin, s.heardManager with
  | true, some m => (s.modRing (fun x => { x with wantJoin := false })).tell 0x04 m 0 0 0 1 1
  | _, _ => s

/-- The lanes that a segment trains on are powered: lane 0 alone at the muted rate (R466; 02 Table PWR-2). -/
def State.segLanes (s : State) (p : Nat) : Bool :=
  (List.range (if s.flag Reg.RING_STATUS_MUTED then 1 else 4)).all (fun n => s.domOn (72 + 4 * p + n))

/-- SEGMENT_TRAINED (R466, R467): the segment closes, unless it spans more bypassed members than the rate allows. -/
def execSegmentTrained (east : Bool) (bypassed : Nat) (s : State) : Res :=
  let p := if east then 0 else 1
  .next (if s.through && s.segLanes p && !(s.rport p).up && decide (bypassed ≤ spanLimit (s.get Reg.RING_STATUS_RATE)) then
      let s := s.modRport p (fun y => { y with up := true, retraining := false, credits := 64 })
      let s := (s.put (openOf p) 0).ringEvt Reg.RING_EVT_SEGMENT
      if s.ring.splicing && (s.rport 0).up && (s.rport 1).up then
        (s.modRing (fun x => { x with splicing := false, wantJoin := true })).sendJoin
      else s
    else s)

/-- SPLICE_TIMEOUT (R467): a segment is not up after 5 ms. -/
def execSpliceTimeout (s : State) : Res :=
  .next (if s.ring.splicing then s.ringBypass.modRing (fun x => { x with spliceWait := true }) else s)

/-- SPLICE_RETRY (R467): 1 s later. -/
def execSpliceRetry (s : State) : Res := .next (if s.ring.spliceWait then s.splice else s)

/-! ## Flits (R458 to R462, R464) -/

def flType (f : Nat) : Nat := bytesAt f 0 1
def flFlags (f : Nat) : Nat := bytesAt f 1 1
def flDst (f : Nat) : Nat := bytesAt f 2 1
def flSrc (f : Nat) : Nat := bytesAt f 3 1
def flCtr (f : Nat) : Nat := bytesAt f 0x10 8
def flEnc (f : Nat) : Bool := hasBit (flFlags f) 2

/-- The types of Table RING-3 that are not encrypted, and those that are. -/
def plainTypes : List Nat := [0x00, 0x01, 0x02, 0x03, 0x04, 0x05]
def encTypes : List Nat := [0x08, 0x10, 0x11, 0x12, 0x13]

/-- TYPE, reserved bits and ENC are as Table RING-3 requires: of the NACKs NO_SESSION alone is not encrypted; its code is the first
payload byte (DESIGN CHOICE, log entry 111). -/
def flitForm (f : Nat) : Bool :=
  bits (flFlags f) 7 5 == 0 && bytesAt f 0x0A 2 == 0 &&
    (if flEnc f then encTypes.contains (flType f) || flType f == 0x14
     else plainTypes.contains (flType f) || (flType f == 0x14 && bytesAt f 0x20 1 == 4))

/-- CRC-32 of a flit that is not encrypted. -/
def flitCrc (f : Nat) : Bool := crc32 (leBytes f 0xF0) == bytesAt f 0xF0 4

/-- The flit is accepted under the current key (`tag` 1) or the old one (2): the session after it. -/
def RSession.accept (x : RSession) (tag ctr : Nat) : Option RSession :=
  if tag = 1 ∧ x.rx ≤ ctr then some { x with rx := ctr + 1, newSeen := true }
  else match tag, x.oldRx with
    | 2, some o => if o ≤ ctr then some { x with oldRx := some (ctr + 1) } else none
    | _, _ => none

/-- A flit for this member: accepted, or dropped and counted (R460, R461). -/
def State.takeFlit (s : State) (tag f : Nat) : State :=
  let drop := s.inc Reg.RING_AUTH_ERR_COUNT
  if !flitForm f then drop
  else if !flEnc f then (if flitCrc f then s.inc Reg.RING_RX_FLITS_COUNT else drop)
  else match SMap.look s.ring.sessions (flSrc f) with
    | none => drop
    | some x => match x.accept tag (flCtr f) with
      | some y => (s.modRing (fun z => { z with sessions := SMap.set z.sessions (flSrc f) y })).inc Reg.RING_RX_FLITS_COUNT
      | none => drop

/-- Its slot of the receive buffer is free. -/
def State.freeSlot (s : State) (p : Nat) : State := s.modRport p (fun x => { x with freed := x.freed + 1 })

/-- The flit leaves by the other port, once it holds a credit; where that segment is open the ring ends and the flit is gone
(DEDUCED, log entry 65). -/
def State.forward (s : State) (p f : Nat) : State :=
  if (s.rport (1 - p)).up then (s.modRport (1 - p) (fun x => { x with fwd := x.fwd ++ [f] })).drain (1 - p)
  else s.freeSlot p

/-- FLIT_RECEIVE (R458, R460 to R462): a flit arrives at the East or West port; `fec` 1 where a codeword was corrected, 2
where one was discarded; `tag` tells under which key its tag verifies (0 none, 1 current, 2 old). -/
def execFlitReceive (east : Bool) (fec tag : Fin 3) (flit : Nat) (s : State) : Res :=
  let p := if east then 0 else 1
  let f := flit % 256 ^ 256
  .next (if !s.ringRuns p || !(s.rport p).up then s
    else if fec.val = 2 then s.inc Reg.RING_FEC_UNCORR_COUNT
    else
      let s := s.when (fec.val = 1) (·.inc Reg.RING_FEC_CORR_COUNT)
      if flType f ≤ 1 then
        (if flitForm f && flitCrc f then s else s.inc Reg.RING_AUTH_ERR_COUNT).freeSlot p
      else if s.own = some (flDst f) then (s.takeFlit tag.val f).freeSlot p
      else if s.own = some (flSrc f) then
        (s.when (flDst f != 0xFF) (·.inc Reg.RING_ORPHAN_COUNT)).freeSlot p
      else if flDst f = 0xFF then (s.takeFlit tag.val f).forward p f
      else s.forward p f)

/-- LINK_FLIT (R464): credits returned, and the neighbour named. -/
def execLinkFlit (east : Bool) (credits : Nat) (member : Fin 32) (is2208 : Bool) (s : State) : Res :=
  let p := if east then 0 else 1
  .next (if !s.ringRuns p || !(s.rport p).up then s
    else
      let s := s.modRport p (fun x => { x with credits := min 64 (x.credits + credits) })
      let s := if east then ((s.put Reg.RING_NEIGH_E_VALID 1).putB Reg.RING_NEIGH_E_2208 is2208).put Reg.RING_NEIGH_EAST member.val
        else ((s.put Reg.RING_NEIGH_W_VALID 1).putB Reg.RING_NEIGH_W_2208 is2208).put Reg.RING_NEIGH_WEST member.val
      s.drain p)

/-- CREDIT_RETURN (R464): after 16 freed slots or 1 µs. -/
def execCreditReturn (east : Bool) (s : State) : Res :=
  let p := if east then 0 else 1
  let n := (s.rport p).freed
  .next (if s.ringRuns p && (s.rport p).up && n != 0 then (s.modRport p (fun x => { x with freed := 0 })).emit (.ringCredit east n)
    else s)

/-! ## Sessions (R447 to R449) -/

/-- RING_SESSION (R447, R448): a peer's share arrives; `chainsOk` where its signatures and chains verify. The
responder answers with its own share. -/
def execRingSession (peer : Fin 32) (chainsOk : Bool) (idk : Nat) (s : State) : Res :=
  let p := peer.val
  .next (if s.through && chainsOk && s.sec.roster.contains idk && s.sec.roster[p]? == some idk && !s.sec.dbgOpened &&
        s.own.isSome && s.own != some p && !s.flag Reg.SEC_STATUS_RNG_FAIL then
      let s := s.when (decide (p < s.ownNo)) (·.tell 0x05 p 0 0 0 0 0)
      let old := (SMap.look s.ring.sessions p).map RSession.rx
      let s := s.generated.modRing (fun x => { x with
        agreeing := x.agreeing.filter (· != p), sessions := SMap.set x.sessions p ⟨0, 0, old, false, false⟩ })
      s.each (s.ring.frames.filter (fun e => e.2.dst == p && e.2.st == 2)) (fun s e => s.frameOut e.1 e.2)
    else s)

/-- SESSION_REKEY (R449): the key has protected 2^31 flits in a direction, or 23 hours have passed. -/
def execSessionRekey (peer : Fin 32) (hours : Nat) (s : State) : Res :=
  .next (match SMap.look s.ring.sessions peer.val with
    | some x => if 2 ^ 31 ≤ x.tx ∨ 2 ^ 31 ≤ x.rx ∨ 23 ≤ hours then s.agree peer.val else s
    | none => s)

/-- OLD_KEY_EXPIRY (R449): 10 ms after the first flit under the new key. -/
def execOldKeyExpiry (peer : Fin 32) (s : State) : Res :=
  .next (match SMap.look s.ring.sessions peer.val with
    | some x =>
      if x.newSeen then s.modRing (fun y => { y with sessions := SMap.set y.sessions peer.val { x with oldRx := none } }) else s
    | none => s)

/-- KEY_LIMIT_STOP (R449): the key has reached 2^32 flits or 24 hours. -/
def execKeyLimitStop (peer : Fin 32) (hours : Nat) (s : State) : Res :=
  .next (match SMap.look s.ring.sessions peer.val with
    | some x =>
      if 2 ^ 32 ≤ x.tx ∨ 24 ≤ hours then
        s.modRing (fun y => { y with sessions := SMap.set y.sessions peer.val { x with stopped := true } })
      else s
    | none => s)

/-- DEBUG_PORT_OPEN (17 R445): every key is discarded and the window is empty. -/
def execDebugPortOpen (s : State) : Res :=
  .next (match s.sec.dbgWait with
    | none => s
    | some w =>
      if s.sec.ranges.any (fun e => e.2.loaded) || !s.spt.window.isEmpty then s
      else
        let s := (s.modSec (fun x => { x with dbgOpened := true, dbgWait := none })).extendM3
        let s := s.modRing (fun x => { x with sessions := [], agreeing := [] })
        let s := s.when (decide (2 ≤ s.get Reg.RING_STATUS_ROLE)) (·.putRole 1)
        let s := s.when (s.flag Reg.RING_STATUS_JOINED) (·.put Reg.RING_STATUS_TRANSIT 1)
        let s := (((s.put Reg.SEC_STATUS_DEBUG_OPEN 1).put Reg.DBG_STATUS_OPEN 1).put Reg.DBG_STATUS_BUSY 0).put
          Reg.DBG_STATUS_SCOPE w.scope
        match w.seq with
        | some q => s.secEnd q 0 0 0 0
        | none => s)

/-! ## Data frames (R478 to R480) -/

/-- A write in ascending bursts that ends at the first uncorrectable one (Table RING-5 DATA_ERROR). -/
def State.writeUntil (s : State) (a n v : Nat) : List Nat → Bool × State
  | [] => (true, s)
  | b :: bs =>
    let lo := max a (32 * b)
    let w := s.writeBurst b lo (min (a + n) (32 * b + 32)) (v / 256 ^ (lo - a))
    if w.1 then w.2.writeUntil a n v bs else w

/-- A write of the ring to the buffer. -/
def State.ringWrite (s : State) (a n v : Nat) : Bool × State :=
  if n = 0 then (true, s)
  else if s.hbmUp then (s.charge 1 (writeCharge a n)).writeUntil a n v (burstsOf a n)
  else (false, s)

/-- The parts of a frame written at buffer address `a`. -/
def State.writeParts (s : State) (a : Nat) : List RingPart → Bool × State
  | [] => (true, s)
  | x :: xs =>
    let w := s.ringWrite (a + x.ofs) x.len x.data
    if w.1 then w.2.writeParts a xs else w

/-- The buffer address of the chord area (19 R488), and its request partitions. -/
def State.stageAt (s : State) : Nat := s.get Reg.CHD_STAGE_LO_ADDR * 4096 + s.get Reg.CHD_STAGE_HI_ADDR * 2 ^ 32
def stageArea (slots : Nat) : Nat := 32 * 8192 + 32 * slots * 4112

/-- An access of chord work: it meets the chord area. -/
def State.chordAccess (s : State) (a n : Nat) : Bool :=
  rangesMeet a n s.stageAt (stageArea (s.get Reg.CHD_STAGE_SLOTS_SLOTS))

/-- The receive buffer of a port is over 75 % full. -/
def State.rxFull (s : State) (p : Nat) : Bool := decide (48 < (s.rport (1 - p)).fwd.length)

/-- The NACK code that a request frame meets before it moves data; 0 for none (R474, R475, R478, Table RING-5). -/
def State.frameCheck (s : State) (p src waddr flen : Nat) (spanBad write : Bool) : Nat :=
  if (SMap.look s.ring.sessions src).isNone then 4
  else if s.transitOnly then 5
  else if flen = 0 ∨ 4112 < flen ∨ spanBad then 6
  else if s.rxFull p then 2
  else match s.winTo 2 src waddr flen write with
    | none => 1
    | some a => if s.chordAccess a flen && !s.quorum then 2 else 0

/-- A NACK. -/
def State.nack (s : State) (dst number code : Nat) : State := s.reply1 0x14 dst number 0 1 code

/-- A whole request written to a cell of the chord area is handed to the chord engine (19 R488). -/
def State.handRequest (s : State) (a n : Nat) : State :=
  let o := a - s.stageAt
  if s.stageAt ≤ a ∧ o < 32 * 8192 ∧ o % 128 = 0 ∧ n = 128 ∧ s.flag Reg.CHD_CTL_EN then
    s.setChd { s.chd with inbox := s.chd.inbox ++ [o / 128] }
  else s

/-- RING_WRITE (R478 to R480): a WRITE frame by its flits. -/
def execRingWrite (east : Bool) (src : Fin 32) (number waddr flen : Nat) (parts : List RingPart) (s : State) : Res :=
  let p := if east then 0 else 1
  .next (if !s.ringRuns p then s
    else
      let c := s.frameCheck p src.val waddr flen (parts.any (fun x => decide (flen < x.ofs + x.len))) true
      if c ≠ 0 then s.nack src.val number c
      else match s.winTo 2 src.val waddr flen true with
        | none => s.nack src.val number 1
        | some a =>
          let w := s.writeParts a parts
          if w.1 then (w.2.reply1 0x13 src.val number 0 0 0).handRequest a flen else w.2.nack src.val number 3)

/-- RING_READ_REQ (R478). -/
def execRingReadReq (east : Bool) (src : Fin 32) (number waddr flen : Nat) (s : State) : Res :=
  let p := if east then 0 else 1
  .next (if !s.ringRuns p then s
    else
      let c := s.frameCheck p src.val waddr flen false false
      if c ≠ 0 then s.nack src.val number c
      else match s.winTo 2 src.val waddr flen false with
        | none => s.nack src.val number 1
        | some a =>
          let r := s.bufRead 1 a flen
          match r.1 with
          | some v => if r.2.isActive src.val then r.2.reply1 0x12 src.val number waddr flen v else r.2
          | none => r.2.nack src.val number 3)

/-- The frame of this number, where it went to `src` and waits for an answer. -/
def State.frameOf (s : State) (src number : Nat) : Option RFrame :=
  match SMap.look s.ring.frames number with
  | some f => if f.dst = src ∧ f.st = 0 then some f else none
  | none => none

/-- RING_READ_RESP (R478): the data of a READ_REQ. -/
def execRingReadResp (src : Fin 32) (number data : Nat) (s : State) : Res :=
  .next (match s.frameOf src.val number with
    | some f =>
      if f.type = 0x11 then
        (s.modRing (fun x => { x with frames := SMap.del x.frames number })).answer (.block f.flen (data % 256 ^ f.flen))
      else s
    | none => s)

/-- An attempt ended: another follows after its backoff, or the frame fails. -/
def State.retryOrFail (s : State) (number : Nat) (f : RFrame) (timeout : Bool) : State :=
  if s.get Reg.RING_CTL_RETRY_MAX ≤ f.attempts ∧ f.req ≠ .map then
    (s.when timeout (·.inc Reg.RING_TIMEOUTS_COUNT)).frameFail number f.req
  else s.modRing (fun x => { x with frames := SMap.set x.frames number { f with st := 1 } })

end Sys2Proof.Machine
end

