-- ==== Sys2Proof/Machine/Pins.lean ====
section
/-! DEFINITION. What the pins show (01 R32, R34, R38, R40, Tables MOD-4, MOD-8): the bridge switches and the sideband
outputs, computed from the state. -/

namespace Sys2Proof.Machine

/-- What an output or open-drain pin does. -/
inductive Drive where
  | highZ
  | low
  | high
  /-- Driven as its protocol asks: the SMBus pins answering, DBG_TDO while unlocked, UART_TX running. -/
  | live
  deriving DecidableEq, Repr

/-- The pins are powered: VIO is present (01 R38). -/
def State.powered (s : State) : Bool := s.pwr.vio

/-- The bridge switches of all eight lanes are in through state (Table MOD-4). -/
def State.bridgeThrough (s : State) : Bool := s.powered && s.pwr.por && s.through

/-- HA_CLKREQ_N or HB_CLKREQ_N (Table MOD-8): driven low, but released in an L1 substate while the port runs (DEDUCED, log
entry 94). -/
def State.clkreqN (s : State) (p : Nat) : Drive :=
  if !s.powered then .highZ
  else if !s.pwr.por || (s.port p).perst then .low
  else if s.get (Reg.HST_LINK_LSTATE p) = 3 ∨ s.get (Reg.HST_LINK_LSTATE p) = 4 then .highZ
  else .low

/-- HA_WAKE_N or HB_WAKE_N: asserted on a wake event while the port's PERST_N is low (Table MOD-8, 14 R366). -/
def State.wakeN (s : State) (p : Nat) : Drive :=
  if s.powered && s.pwr.por && (s.port p).perst && (s.port p).wakeN then .low else .highZ

/-- SMB_CLK and SMB_DAT: the device responds while it is powered and SYS_POR_N is high. -/
def State.smbPins (s : State) : Drive := if s.powered && s.pwr.por then .live else .highZ

/-- SMB_ALERT_N reflects the alert status, which the spec does not define: free (DESIGN CHOICE, log entry 94). -/
def State.smbAlertN (s : State) : Drive :=
  if s.powered && s.pwr.por then (if Config.freeAlert s.free then .low else .highZ) else .highZ

/-- DBG_TDO is driven only while the debug port is unlocked (Table MOD-8, 17 R444). -/
def State.dbgTdo (s : State) : Drive := if s.powered && s.pwr.por && s.sec.dbgOpened then .live else .highZ

/-- UART_TX is active while SYS_POR_N is high. -/
def State.uartTx (s : State) : Drive := if s.powered && s.pwr.por then .live else .highZ

/-- The 7-bit SMBus address that the straps give (Table MOD-7). -/
def State.smbAddress (s : State) : Nat := 0x68 + s.get Reg.SYS_STRAP_SMB_ADDR

/-- The code of a sensor input at a voltage in units of 1/2,560 mV (01 R31): 0.390625 mV to a code, 0.9 V at 2,048, and
saturated at both ends. The conversion's rounding within a code is not stated; it is taken downward (DESIGN CHOICE, log
entry 95). -/
def sensorCode (v : Int) : Nat := (clampInt 0 4095 (2048 + Int.fdiv (v - 2304000) 1000)).toNat

/-- The common mode of AaSs_WD_P and AaSs_WD_N in mV: write gate open or closed (06 R164). -/
def State.wdCommonMode (s : State) (i : Nat) : Nat := if (s.slot i).gate then 900 else 300

/-- How AaSs_WD_P lies to AaSs_WD_N while a cell is written: above for a cell of value 1, below for one of value 0; equal while
the gate is closed (06 R164). -/
def State.wdPolarity (s : State) (i : Nat) (cell : Bool) : Ordering :=
  if (s.slot i).gate then (if cell then .gt else .lt) else .eq

end Sys2Proof.Machine
end

