-- ==== Sys2Proof/Machine/Chords.lean ====
section
/-! DEFINITION. The chord engine (19): strip requests and answers, the journal, the sequence of a chord write, and the
operations at a target. -/

namespace Sys2Proof.Machine

/-! ## Partner and journal (R490, R492, R493) -/

/-- The next ACTIVE member eastward of `m` in a map. -/
def nextActive (r m : Nat) : Option Nat :=
  let p := mapPos r
  match p.findIdx? (fun x => x.1 == m) with
  | some i => (((p.drop (i + 1)) ++ p.take i).find? (fun x => x.2 == 0 && x.1 != m)).map Prod.fst
  | none => none

/-- The partner of this member. -/
def State.partner (s : State) : Option Nat := match s.ring.map with | some r => nextActive r s.ownNo | none => none

/-- A journal record (Table CHD-4). -/
def jnlRecord (jid st owner strip slot first count chord done epoch lchk : Nat) : Nat :=
  let r := layout [(0, 8, jid), (8, 1, st), (9, 1, owner), (0x0A, 1, strip), (0x0B, 1, slot), (0x0C, 2, first),
    (0x0E, 2, count), (0x10, 8, chord), (0x18, 2, done), (0x20, 8, epoch), (0x28, 8, lchk)]
  r + crc64 (leBytes r 0x38) * 256 ^ 0x38

def jnlJid (r : Nat) : Nat := bytesAt r 0 8
def jnlOpen (r : Nat) : Bool := bytesAt r 8 1 == 1
def jnlOwner (r : Nat) : Nat := bytesAt r 9 1
def jnlStrip (r : Nat) : Nat := bytesAt r 0x0A 1
def jnlSlot (r : Nat) : Nat := bytesAt r 0x0B 1 % 2
def jnlFirst (r : Nat) : Nat := bytesAt r 0x0C 2
def jnlCount (r : Nat) : Nat := bytesAt r 0x0E 2
def jnlChord (r : Nat) : Nat := bytesAt r 0x10 8

/-- A journal cell written; during a save the region is frozen (11 R288). -/
def State.putJnl (s : State) (i v : Nat) : State :=
  if s.spt.frozenJW then s else s.modSpt (fun p => { p with journal := SMap.set p.journal i (v % 256 ^ 64) })

/-- Cell of an own record, and of a mirrored one. -/
def ownCell (jid : Nat) : Nat := jid % 65536
def mirrorCell (jid : Nat) : Nat := 65536 + jid % 65536

/-- Open records of the own half (false) or the mirror half. -/
def State.openRecords (s : State) (mirror : Bool) : List (Nat × Nat) :=
  s.spt.journal.filter (fun e => decide (65536 ≤ e.1) == mirror && jnlOpen e.2)

/-- A record is closed. -/
def closed (r : Nat) : Nat :=
  let v := putBytes (r % 256 ^ 0x38) 8 1 0
  v + crc64 (leBytes v 0x38) * 256 ^ 0x38

/-! ## Strip requests (R488) -/

/-- Bits `first` to `first + count - 1`. -/
def offMask (first count : Nat) : Nat := (2 ^ count - 1) * 2 ^ first

/-- The layout check of a slot. -/
def State.lchk (s : State) (slot : Nat) : Nat :=
  match s.chordLayout slot with | some l => l.check s.positions | none => 0

/-- The 128 bytes of a cell. -/
def State.cellBytes (s : State) (r : StripReq) (at' : Nat) : Nat :=
  layout [(0, 1, r.op), (1, 1, r.slot), (2, 1, r.strip), (3, 1, r.status), (4, 2, r.first), (6, 2, r.count), (8, 8, r.chord),
    (0x10, 8, r.jid), (0x18, 2, at'), (0x1A, 1, r.coef), (0x1C, 4, r.tag), (0x20, 8, r.mask), (0x28, 8, s.lchk r.slot),
    (0x40, 64, r.recd)]

/-- Staging slots for each source. -/
def State.stageSlots (s : State) : Nat := s.get Reg.CHD_STAGE_SLOTS_SLOTS

/-- The offset in a chord area of a cell of a source, and of a staging slot of a source. -/
def cellOff (m c : Nat) : Nat := m * 8192 + c * 128
def State.slotOff (s : State) (m i : Nat) : Nat := 32 * 8192 + (m * s.stageSlots + i) * 4112

/-- The window address of an offset in another member's chord area. -/
def chordAddr (o : Nat) : Nat := (Config.chordBase + o) % 2 ^ 32

/-- A cell of the own partition at a target is in use. -/
def State.cellUsed (s : State) (t c : Nat) : Bool :=
  s.chd.reqs.any (fun e => e.2.target == t && (match e.2.place with | some p => p.1 == c | none => false))

/-- Slots `i` to `i + n - 1` at a target are free. -/
def State.slotsFree (s : State) (t i n : Nat) : Bool :=
  s.chd.reqs.all (fun e => e.2.target != t || (match e.2.place, e.2.fixed with
    | some p, none => !rangesMeet i n p.2 e.2.blocks.length && !rangesMeet i n p.2 (if e.2.op = 3 then e.2.count else 0)
    | _, _ => true))

/-- A free cell, and the slots a request needs. -/
def State.findPlace (s : State) (r : StripReq) : Option (Nat × Nat) :=
  let n := if r.op = 3 then r.count else r.blocks.length
  match (List.range 64).find? (fun c => !s.cellUsed r.target c) with
  | none => none
  | some c =>
    match r.fixed with
    | some i => some (c, i)
    | none => ((List.range (s.stageSlots + 1 - n)).find? (fun i => s.slotsFree r.target i n)).map (fun i => (c, i))

def State.putReq (s : State) (id : Nat) (r : StripReq) : State := s.modChd (fun x => { x with reqs := SMap.set x.reqs id r })

/-- The cell of a request whose blocks have been acknowledged is written. -/
def State.sendCell (s : State) (id : Nat) (r : StripReq) (p : Nat × Nat) : State :=
  (s.putReq id { r with sent := true }).ringSend 0x10 r.target r.cls (chordAddr (cellOff s.ownNo p.1)) 128
    (s.cellBytes r p.2) (.strip id)

/-- A request starts: a local one waits for its own answer; another takes a place and sends its blocks, or its cell
where it has none. -/
def State.startReq (s : State) (id : Nat) (r : StripReq) : State :=
  if r.target = s.ownNo then s.putReq id { r with place := some (64, 0), sent := true }
  else match s.findPlace r with
    | none => s
    | some p =>
      let r := { r with place := some p }
      let s := s.putReq id r
      if r.blocks.isEmpty then s.sendCell id r p
      else s.each ((List.range r.blocks.length).zip r.blocks) (fun s x =>
        s.ringSend 0x10 r.target r.cls (chordAddr (s.slotOff s.ownNo (p.2 + x.1))) 4112 (x.2 % 256 ^ 4112) (.strip id))

/-- Requests without a place try again, oldest first. -/
def State.startWaiting (s : State) : State :=
  s.each (s.chd.reqs.filter (fun e => e.2.place.isNone && !e.2.locked)) (fun s e => s.startReq e.1 e.2)

/-- A new request: its number, and the state with it. -/
def State.newReq (s : State) (r : StripReq) : Nat × State :=
  let id := s.chd.nextReq
  let r := if r.op = 5 then r else { r with tag := id % 2 ^ 32 }
  (id, ((s.modChd (fun x => { x with nextReq := id + 1 })).putReq id r).startReq id r)

/-- A plain request. -/
def mkReq (target op slot chord strip first count jid : Nat) (blocks : List Nat) (cls : Nat) (purpose : StripFor) : StripReq :=
  { target := target, op := op, slot := slot, chord := chord, strip := strip, first := first, count := count, jid := jid
    coef := 0, mask := 0, recd := 0, blocks := blocks, tag := 0, status := 0, fixed := none, place := none, sent := false
    locked := false, cls := cls, purpose := purpose }

/-- The runs of `n` blocks from `first` in pieces of at most `k`. -/
def pieces (first n k : Nat) : Nat → List (Nat × Nat)
  | 0 => []
  | fuel + 1 =>
    if n = 0 then [] else (first, min n (max k 1)) :: pieces (first + min n (max k 1)) (n - min n (max k 1)) k fuel

/-- Requests for a run of offsets, in pieces that the staging slots hold: their numbers. -/
def State.reqRun (s : State) (r : StripReq) : List Nat × State :=
  (pieces r.first r.count s.stageSlots 64).foldl (fun (a : List Nat × State) x =>
    let q := a.2.newReq { r with first := x.1, count := x.2, blocks := (r.blocks.drop (x.1 - r.first)).take x.2 }
    (a.1 ++ [q.1], q.2)) ([], s)

/-! ## The lost-chord map (R502, R503) -/

/-- Offset `b` of a data strip is entered as lost. -/
def State.enterLost (s : State) (slot chord b strip : Nat) : State :=
  let k := lostKey slot chord strip
  let m := SMap.get s.chd.lost 0 k
  if hasBit m b then s
  else if m = 0 ∧ 65536 ≤ s.chd.lost.length then s.put Reg.CHD_STATUS_LOST_FULL 1
  else ((s.modChd (fun x => { x with lost := SMap.put x.lost 0 k (setBit m b) })).inc Reg.CHD_LOST_NEW_COUNT).raise 0x0F01 chord

/-- The bit of a lost block is cleared (R504). -/
def State.clearLost (s : State) (slot chord b strip : Nat) : State :=
  let k := lostKey slot chord strip
  s.modChd (fun x => { x with lost := SMap.put x.lost 0 k (clrBit (SMap.get x.lost 0 k) b) })

/-- A data strip of the chord is lost at the offset. -/
def State.anyLost (s : State) (l : Layout) (slot chord b : Nat) : Bool :=
  (List.range l.k).any (fun j => hasBit (SMap.get s.chd.lost 0 (lostKey slot chord j)) b)

/-! ## The sequence of a chord write (R490, R491, R503, R504) -/

def State.putOp (s : State) (jid : Nat) (o : ChordOp) : State := s.modChd (fun x => { x with ops := SMap.set x.ops jid o })

/-- The blocks of an offset that have been read, by strip. -/
def ChordOp.at (o : ChordOp) (w b : Nat) : SMap Nat :=
  ((List.range w).filterMap (fun t => (SMap.look o.got (64 * t + b)).map (fun v => (t, v))))

/-- The old coded bytes of the written strip at an offset: read, or reconstructed from k other strips. -/
def ChordOp.old (o : ChordOp) (l : Layout) (b : Nat) : Option Nat :=
  match SMap.look o.got (64 * o.strip + b) with
  | some v => some (v % 256 ^ coded)
  | none => (decodeData l.k l.m (o.at l.w b)).map (fun ds => ds.getD o.strip 0)

/-- The offsets of a write. -/
def ChordOp.offsets (o : ChordOp) : List Nat := (List.range o.blocks.length).map (o.first + ·)

/-- The new block at an offset. -/
def ChordOp.new (o : ChordOp) (b : Nat) : Nat := o.blocks.getD (b - o.first) 0

/-- The record of a write as it stands. -/
def State.opRecord (s : State) (jid st : Nat) (o : ChordOp) : Nat :=
  jnlRecord jid st s.ownNo o.strip o.slot o.first o.blocks.length o.chord o.done
    (if s.ring.map.isSome then mapEpoch s.mapRaw else 0) (s.lchk o.slot)

/-- Requests of a phase join the operation. -/
def State.await (s : State) (jid : Nat) (ids : List Nat) : State :=
  match SMap.look s.chd.ops jid with
  | some o => s.putOp jid { o with await := o.await ++ ids }
  | none => s

/-- A request of a phase for the whole run. -/
def State.askRun (s : State) (jid : Nat) (o : ChordOp) (holder op strip coef' : Nat) (blocks : List Nat) : State :=
  let r := s.reqRun { mkReq holder op o.slot o.chord strip o.first o.blocks.length jid blocks 1 (.write jid) with coef := coef' }
  r.2.await jid r.1

/-- The holder of a strip of an operation's chord. -/
def ChordOp.holder (o : ChordOp) (l : Layout) (t : Nat) : Nat := l.holder l.fails o.chord t

/-- Step 4: the parity deltas; offsets without k strips are lost, and their delta is zero. -/
def State.sendDeltas (s : State) (jid : Nat) (o : ChordOp) (l : Layout) : State :=
  let olds := o.offsets.map (fun b => (b, o.old l b))
  let s := s.incBy Reg.CHD_RECON_COUNT (olds.filter (fun x =>
    x.2.isSome && (SMap.look o.got (64 * o.strip + x.1)).isNone)).length
  let s := s.each (olds.filter (fun x => x.2.isNone)) (fun s x =>
    s.each ((List.range l.k).filter (fun j => (SMap.look o.got (64 * j + x.1)).isNone)) (fun s j =>
      s.enterLost o.slot o.chord x.1 j))
  let deltas := olds.map (fun x => match x.2 with
    | some v => v ^^^ (o.new x.1 % 256 ^ coded)
    | none => 0)
  s.each ((List.range l.m).filter (fun i => o.holder l (l.k + i) != 0xFF)) (fun s i =>
    s.askRun jid o (o.holder l (l.k + i)) 2 (l.k + i) (coef l.m i o.strip) deltas)

/-- Step 6: blocks that were lost are not lost any more; where no data strip is left lost at an offset, its parity is
recomputed (R504). -/
def State.mendParity (s : State) (jid : Nat) (o : ChordOp) (l : Layout) : State :=
  s.each (o.offsets.filter (fun b => hasBit (SMap.get s.chd.lost 0 (lostKey o.slot o.chord o.strip)) b)) (fun s b =>
    let s := s.clearLost o.slot o.chord b o.strip
    let ds := (List.range l.k).map (fun j => if j = o.strip then some (o.new b) else SMap.look o.got (64 * j + b))
    if s.anyLost l o.slot o.chord b || ds.any Option.isNone then s
    else s.each ((List.range l.m).filter (fun i => o.holder l (l.k + i) != 0xFF)) (fun s i =>
      let p := withStamp (parityOf l.m i (ds.map (·.getD 0))) jid
      let r := s.newReq (mkReq (o.holder l (l.k + i)) 4 o.slot o.chord (l.k + i) b 1 jid [p] 1 (.write jid))
      r.2.await jid [r.1]))

/-- The record is closed and its mirror retired; the blocks are on media once no other record writes them (R490, R507). -/
def State.closeOp (s : State) (jid : Nat) (o : ChordOp) : State :=
  let s := (s.putJnl (ownCell jid) (s.opRecord jid 0 o)).modChd (fun x => { x with ops := SMap.del x.ops jid })
  let s := match s.partner with
    | some p => (s.newReq (mkReq p 8 o.slot o.chord o.strip o.first o.blocks.length jid [] 1 .none)).2
    | none => s
  let s := s.inc Reg.CHD_WRITES_COUNT
  if s.chd.ops.any (fun e => e.2.addrs == o.addrs) then s else s.each o.addrs State.blockWritten

/-- A phase begins (R490): 1 the partner's copy of the record, 2 the old blocks from their holder, 3 the other strips where those are
not to be had or where the lost block's offset gets new parity (R504), 4 the deltas, 5 the data, 6 the parity of blocks that were
lost; then the record is closed. -/
def State.chordPhase (s : State) (jid : Nat) (o : ChordOp) (l : Layout) (p : Nat) : State :=
  let s := s.putOp jid { o with phase := p }
  let o := { o with phase := p }
  if p = 1 then
    match s.partner with
    | some m =>
      let r := s.newReq { mkReq m 7 o.slot o.chord o.strip o.first o.blocks.length jid [] 1 (.write jid) with recd := s.opRecord jid 1 o }
      r.2.await jid [r.1]
    | none => s
  else if p = 2 then
    if o.holder l o.strip = 0xFF ∨ !s.stripThere l o.slot o.chord o.strip then s
    else s.askRun jid o (o.holder l o.strip) 3 o.strip 0 []
  else if p = 3 then
    if o.offsets.all (fun b => (SMap.look o.got (64 * o.strip + b)).isSome &&
        !hasBit (SMap.get s.chd.lost 0 (lostKey o.slot o.chord o.strip)) b) then s
    else s.each ((List.range l.w).filter (fun t => t != o.strip && o.holder l t != 0xFF && s.stripThere l o.slot o.chord t)) (fun s t =>
      s.askRun jid o (o.holder l t) 3 t 0 [])
  else if p = 4 then s.sendDeltas jid o l
  else if p = 5 then
    if o.holder l o.strip = 0xFF then s else s.askRun jid o (o.holder l o.strip) 1 o.strip 0 o.blocks
  else if p = 6 then s.mendParity jid o l
  else s.closeOp jid o

/-- An operation whose requests are all answered goes on, phase by phase. -/
def State.runChord (s : State) (jid : Nat) : Nat → State
  | 0 => s
  | n + 1 =>
    match SMap.look s.chd.ops jid with
    | none => s
    | some o =>
      if !o.await.isEmpty then s
      else match s.chordLayout o.slot with
        | some l => (s.chordPhase jid o l (o.phase + 1)).runChord jid n
        | none => s

/-- An answer reaches an operation: blocks read are kept, and DONE bits set. -/
def ChordOp.answer (o : ChordOp) (l : Layout) (id : Nat) (r : StripReq) (status mask : Nat) (blocks : List Nat) : ChordOp :=
  let got := if r.op = 3 ∧ (status = 0 ∨ status = 1) then
      ((List.range r.count).zip blocks).foldl (fun m x =>
        if hasBit mask (r.first + x.1) then m else SMap.set m (64 * r.strip + r.first + x.1) x.2) o.got
    else o.got
  let done := if r.op = 1 then setBit o.done 0 else if r.op = 2 then setBit o.done (1 + (r.strip - l.k)) else o.done
  { o with got := got, done := done, await := o.await.filter (· != id) }

/-- A request is answered: it and its place are free again; a write that met LOCKED is kept for its retry. -/
def State.stripAnswer (s : State) (id : Nat) (r : StripReq) (status mask : Nat) (blocks : List Nat) : State :=
  if status = 2 ∧ (r.op = 1 ∨ r.op = 2 ∨ r.op = 4) then
    (s.putReq id { r with locked := true, place := none, sent := false }).startWaiting
  else
    let s := s.modChd (fun x => { x with reqs := SMap.del x.reqs id })
    let s := match r.purpose with
      | .none => s
      | .write jid =>
        match SMap.look s.chd.ops jid with
        | some o =>
          match s.chordLayout o.slot with
          | some l =>
            let o := o.answer l id r status mask blocks
            let s := (s.putOp jid o).putJnl (ownCell jid) (s.opRecord jid 1 o)
            s.runChord jid 8
          | none => s
        | none => s
    s.startWaiting

/-- Requests whose frames failed: their strips are unavailable at every offset asked for. -/
def State.stripFail (s : State) (id : Nat) : State :=
  match SMap.look s.chd.reqs id with
  | none => s
  | some r =>
    let s := s.modRing (fun x => { x with frames := x.frames.filter (fun e => e.2.req != .strip id) })
    s.stripAnswer id r 1 (offMask r.first r.count) []

/-- The requests whose frames have failed are answered; a request that follows one may fail in its turn. -/
def State.settleLoop (s : State) : Nat → State
  | 0 => s
  | n + 1 =>
    if s.ring.lostReqs.isEmpty then s
    else ((s.modRing (fun x => { x with lostReqs := [] })).each s.ring.lostReqs State.stripFail).settleLoop n

/-- The failed requests are settled. -/
def State.settleStrips (s : State) : State := s.settleLoop 256

/-! ## Answers to frames (18 R478, R479) -/

/-- The frames of a request have all been acknowledged: its cell follows, or, for an answer, it has ended. -/
def State.framesDone (s : State) (id : Nat) : State :=
  if s.ring.frames.any (fun e => e.2.req == .strip id) then s
  else match SMap.look s.chd.reqs id with
    | some r =>
      match r.sent, r.place with
      | false, some p => s.sendCell id r p
      | true, _ => if r.op = 5 then (s.modChd (fun x => { x with reqs := SMap.del x.reqs id })).startWaiting else s
      | _, _ => s
    | none => s

/-- RING_ACK (18 R478). -/
def execRingAck (src : Fin 32) (number : Nat) (s : State) : Res :=
  .next (match s.frameOf src.val number with
    | some f =>
      if f.type = 0x11 then s
      else
        let s := s.modRing (fun x => { x with frames := SMap.del x.frames number })
        match f.req with
        | .strip id => (s.framesDone id).settleStrips
        | _ => s
    | none => s)

/-- RING_NACK (18 R479, Table RING-5). -/
def execRingNack (src : Fin 32) (number code : Nat) (s : State) : Res :=
  .next ((match s.frameOf src.val number with
    | none => s
    | some f =>
      if code = 1 ∨ code = 2 then s.retryOrFail number f false
      else if code = 4 then
        ((s.modRing (fun x => { x with sessions := SMap.del x.sessions src.val })).agree src.val).retryOrFail number f false
      else s.frameFail number f.req).settleStrips)

/-- FRAME_TIMEOUT (18 R479): TMO has passed with neither ACK nor response. -/
def execFrameTimeout (number : Nat) (s : State) : Res :=
  .next ((match SMap.look s.ring.frames number with
    | some f => if f.st = 0 then s.retryOrFail number f true else s
    | none => s).settleStrips)

/-- FRAME_RETRY (18 R479): the backoff has elapsed; a frame to a member that is no longer ACTIVE fails (18 R463). -/
def execFrameRetry (number : Nat) (s : State) : Res :=
  .next ((match SMap.look s.ring.frames number with
    | some f =>
      if f.st ≠ 1 then s
      else if needsActive f.type && !s.isActive f.dst then s.frameFail number f.req
      else (s.inc Reg.RING_RETRIES_COUNT).frameOut number { f with attempts := f.attempts + 1 }
    | none => s).settleStrips)

/-! ## CHORD_WRITE (R490, R507) -/

/-- The layout slots a write to volume block `lba` goes to: none while it must wait (R507). -/
def State.writeSlots (s : State) (lba : Nat) : List Nat :=
  match s.chd.target with
  | none => [s.activeSlot]
  | some t => match s.chordLayout t with
    | none => [s.activeSlot]
    | some l =>
      let u := (l.place lba).1
      if u = s.reshapeB ∧ u < l.ownedCount then []
      else if s.reshapeK ≤ u ∧ u < s.reshapeB then [s.activeSlot, t]
      else [s.readSlot lba]

/-- A record is open on the chord, or its rebuild is at it. -/
def State.chordBusy (s : State) (slot chord : Nat) : Bool :=
  s.chd.ops.any (fun e => e.2.slot == slot && e.2.chord == chord) ||
    (s.openRecords false).any (fun e => jnlSlot e.2 == slot && jnlChord e.2 == chord)

/-- The cache blocks at buffer addresses, where each holds the next LBA of one namespace. -/
def State.runOf (s : State) : List Nat → Option (Nat × Nat × List Nat)
  | [] => none
  | a :: as =>
    match SMap.look s.cache a with
    | none => none
    | some b =>
      if ((List.range (as.length + 1)).zip (a :: as)).all (fun x => match SMap.look s.cache x.2 with
          | some c => c.nsid == b.nsid && c.lba == b.lba + x.1 && c.err.isNone
          | none => false) then some (b.nsid, b.lba, a :: as) else none

/-- One chord write opens its record and begins. -/
def State.openOp (s : State) (slot owner chord strip first : Nat) (blocks addrs : List Nat) : State :=
  let jid := s.chd.jid
  let o : ChordOp := { slot := slot, owner := owner, chord := chord, strip := strip, first := first, blocks := blocks
                       addrs := addrs, phase := 0, got := [], await := [], done := 0 }
  let s := (s.modChd (fun x => { x with jid := (jid + 1) % 2 ^ 64 })).putOp jid o
  (s.putJnl (ownCell jid) (s.opRecord jid 1 o)).runChord jid 8

/-- The next record's cell is not open. -/
def State.cellFree (s : State) (jid : Nat) : Bool :=
  match SMap.look s.spt.journal (ownCell jid) with | some r => !jnlOpen r | none => true

/-- CHORD_WRITE (R490): the blocks at buffer addresses, consecutive LBAs of one data strip, are written. -/
def execChordWrite (addrs : List Nat) (s : State) : Res :=
  .next (match s.runOf addrs with
    | none => s
    | some (nsid, lba, as) =>
      match s.volumeOf nsid, s.activeLayout with
      | some o, some _ =>
        let slots := s.writeSlots lba
        let n := as.length
        let fits := slots.all (fun t => match s.chordLayout t with
          | some l => lba % 64 + n ≤ 64 && decide (lba + n ≤ l.capacity) && !s.chordBusy t (l.owned o (l.place lba).1)
          | none => false)
        let free := (List.range slots.length).all (fun i => s.cellFree (s.chd.jid + i))
        if slots.isEmpty || !fits || !free || !s.quorum || !s.spt.taking || s.spt.frozenJW || s.chd.recovering ||
            s.chd.ops.any (fun e => e.2.addrs.any as.contains) then s
        else
          let r := as.foldl (fun (a : List (Option Nat) × State) x =>
            let b := a.2.bufRead 2 x 4112
            (a.1 ++ [b.1], b.2)) ([], s)
          let bad := (r.1.zip as).filter (fun x => x.1.isNone)
          if !bad.isEmpty then r.2.each bad (fun s x => s.blockFailed x.2 0x16)
          else r.2.each slots (fun s t => match s.chordLayout t with
            | some l =>
              let p := l.place lba
              s.openOp t o (l.owned o p.1) p.2.1 p.2.2 (r.1.map (·.getD 0)) as
            | none => s) |>.settleStrips
      | _, _ => s)

/-! ## At the target (R482, R488, Tables CHD-2 and CHD-3) -/

/-- The strip-namespace LBA of an offset of a chord's strip. -/
def State.stripLba (s : State) (l : Layout) (chord b : Nat) : Nat := 64 * l.position s.positions chord + b

/-- A status that refuses a request of this member for its strip; 0 for none. -/
def State.stripCheck (s : State) (slot chord strip lchk : Nat) (write : Bool) : Nat :=
  match s.chordLayout slot with
  | none => 3
  | some l =>
    if lchk ≠ l.check s.positions then 3
    else if l.holder l.fails chord strip ≠ s.ownNo then 4
    else
      let x := s.range (s.rangeOf (s.get Reg.CHD_STRIP_NSID) (s.stripLba l chord 0))
      if (if write then x.wlock else x.rlock) then 2 else 0

/-- A block of the strip namespace written. -/
def State.putStrip (s : State) (lba v : Nat) : State := s.modChd (fun x => { x with strips := SMap.put x.strips 0 lba (v % 256 ^ 4112) })

/-- Operation `op` of Table CHD-2 on a run of a local strip, with the media failing at the offsets of `fail`: the mask of
failed offsets, the blocks read, and the state. -/
def State.stripDo (s : State) (op slot chord first count jid c fail : Nat) (data : List (Option Nat)) : Nat × List Nat × State :=
  match s.chordLayout slot with
  | none => (offMask first count, [], s)
  | some l =>
    (List.range count).foldl (fun (a : Nat × List Nat × State) i =>
      let b := first + i
      let lba := s.stripLba l chord b
      let old := SMap.get a.2.2.chd.strips 0 lba
      let d := data.getD i none
      if hasBit fail b || (op != 3 && d.isNone) then (setBit a.1 b, a.2.1 ++ [0], a.2.2)
      else
        let v := d.getD 0
        if op = 3 then (a.1, a.2.1 ++ [old], a.2.2)
        else if op = 1 then (a.1, a.2.1, a.2.2.putStrip lba v)
        else if op = 2 then (a.1, a.2.1, a.2.2.putStrip lba (withStamp (old % 256 ^ coded ^^^ blkScale c v) jid))
        else (a.1, a.2.1, a.2.2.putStrip lba (withStamp v jid))) (0, [], s)

def rqOp (e : Nat) : Nat := bytesAt e 0 1
def rqSlot (e : Nat) : Nat := bytesAt e 1 1 % 2
def rqStrip (e : Nat) : Nat := bytesAt e 2 1
def rqStatus (e : Nat) : Nat := bytesAt e 3 1
def rqFirst (e : Nat) : Nat := bytesAt e 4 2
def rqCount (e : Nat) : Nat := bytesAt e 6 2
def rqChord (e : Nat) : Nat := bytesAt e 8 8
def rqJid (e : Nat) : Nat := bytesAt e 0x10 8
def rqAt (e : Nat) : Nat := bytesAt e 0x18 2
def rqCoef (e : Nat) : Nat := bytesAt e 0x1A 1
def rqTag (e : Nat) : Nat := bytesAt e 0x1C 4
def rqMask (e : Nat) : Nat := bytesAt e 0x20 8
def rqLchk (e : Nat) : Nat := bytesAt e 0x28 8
def rqRecord (e : Nat) : Nat := bytesAt e 0x40 64

/-- The request in a cell that the ring engine has handed over, and the state without it in the inbox. -/
def State.takeRequest (s : State) (src cell op : Nat) : Option Nat × State :=
  if s.chd.inbox.contains (64 * src + cell) && s.flag Reg.CHD_CTL_EN then
    let r := s.bufRead 2 (s.stageAt + cellOff src cell) 128
    match r.1 with
    | some e => if rqOp e = op then (some e, r.2.modChd (fun x => { x with inbox := x.inbox.erase (64 * src + cell) })) else (none, s)
    | none => (none, s)
  else (none, s)

/-- The blocks of a request in the staging partition of a source; none where one cannot be read. -/
def State.stagedBlocks (s : State) (m first n : Nat) : List (Option Nat) × State :=
  (List.range n).foldl (fun (a : List (Option Nat) × State) i =>
    let r := a.2.bufRead 2 (s.stageAt + s.slotOff m (first + i)) 4112
    (a.1 ++ [r.1], r.2)) ([], s)

/-- DONE to a requester. -/
def State.sendDone (s : State) (src e status mask : Nat) (blocks : List Nat) : State :=
  (s.newReq { mkReq src 5 (rqSlot e) (rqChord e) (rqStrip e) (rqFirst e) (rqCount e) (rqJid e) blocks 1 .none with
    tag := rqTag e, status := status, mask := mask, fixed := some (rqAt e) }).2

/-- A request of OP `op` on a strip of this member; `fail` are the offsets at which the media fails. A COUNT of 0, or beyond the
strip, is rejected (00 R12, R13): the request has no effect and no answer (DESIGN CHOICE, log entry 107). -/
def State.stripTarget (s : State) (src cell op fail : Nat) : State :=
  let t := s.takeRequest src cell op
  match t.1 with
  | none => s
  | some e =>
    let s := t.2
    if rqCount e = 0 ∨ 64 - rqFirst e < rqCount e then s.settleStrips else
    let c := s.stripCheck (rqSlot e) (rqChord e) (rqStrip e) (rqLchk e) (op != 3)
    let n := rqCount e
    if c ≠ 0 then (s.sendDone src e c (offMask (rqFirst e) n) []).settleStrips
    else
      let d := if op = 3 then ([], s) else s.stagedBlocks src (rqAt e) n
      let r := d.2.stripDo op (rqSlot e) (rqChord e) (rqFirst e) n (rqJid e) (rqCoef e) (fail % 2 ^ 64) d.1
      (r.2.2.sendDone src e (if r.1 = 0 then 0 else 1) r.1 r.2.1).settleStrips

/-- STRIP_DATA_WRITE (R488, Table CHD-2). -/
def execStripDataWrite (src : Fin 32) (cell : Fin 64) (fail : Nat) (s : State) : Res := .next (s.stripTarget src.val cell.val 1 fail)

/-- STRIP_PARITY_DELTA (R494): parity := parity + COEF · Δ, with the JID as stamp. -/
def execStripParityDelta (src : Fin 32) (cell : Fin 64) (fail : Nat) (s : State) : Res := .next (s.stripTarget src.val cell.val 2 fail)

/-- STRIP_READ (R488). -/
def execStripRead (src : Fin 32) (cell : Fin 64) (fail : Nat) (s : State) : Res := .next (s.stripTarget src.val cell.val 3 fail)

/-- STRIP_PARITY_WRITE (R494). -/
def execStripParityWrite (src : Fin 32) (cell : Fin 64) (fail : Nat) (s : State) : Res := .next (s.stripTarget src.val cell.val 4 fail)

/-- STRIP_LOST (R503): the owner enters the offsets, where it holds the same layout (R489). -/
def execStripLost (src : Fin 32) (cell : Fin 64) (s : State) : Res :=
  let t := s.takeRequest src.val cell.val 6
  .next (match t.1 with
    | none => s
    | some e =>
      if rqLchk e ≠ t.2.lchk (rqSlot e) then (t.2.sendDone src.val e 3 (rqMask e) []).settleStrips
      else
        (t.2.each (maskBits 64 (rqMask e)) (fun s b => s.enterLost (rqSlot e) (rqChord e) b (rqStrip e))).sendDone src.val e 0 0 [] |>.settleStrips)

/-- STRIP_JOURNAL (R492): the record is stored in the mirror region. -/
def execStripJournal (src : Fin 32) (cell : Fin 64) (s : State) : Res :=
  let t := s.takeRequest src.val cell.val 7
  .next (match t.1 with
    | none => s
    | some e =>
      if s.spt.taking && !s.spt.frozenJW then (t.2.putJnl (mirrorCell (rqJid e)) (rqRecord e)).sendDone src.val e 0 0 [] |>.settleStrips else s)

/-- STRIP_RETIRE (R490): the mirrored record is freed. -/
def execStripRetire (src : Fin 32) (cell : Fin 64) (s : State) : Res :=
  let t := s.takeRequest src.val cell.val 8
  .next (match t.1 with
    | none => s
    | some e =>
      let c := mirrorCell (rqJid e)
      (match SMap.look t.2.spt.journal c with
      | some r => if jnlJid r = rqJid e then t.2.putJnl c (closed r) else t.2
      | none => t.2).sendDone src.val e 0 0 [] |>.settleStrips)

/-- The end of a request to this member's own strip, or the answer of another member in a cell. -/
def State.stripEnd (s : State) (m cell fail : Nat) : State :=
  if s.own = some m then
    match SMap.look s.chd.reqs cell with
    | some r =>
      if r.target ≠ m ∨ r.locked then s
      else if r.op = 1 ∨ r.op = 2 ∨ r.op = 3 ∨ r.op = 4 then
        let c := s.stripCheck r.slot r.chord r.strip (s.lchk r.slot) (r.op != 3)
        if c ≠ 0 then s.stripAnswer cell r c (offMask r.first r.count) []
        else
          let x := s.stripDo r.op r.slot r.chord r.first r.count r.jid r.coef (fail % 2 ^ 64) (r.blocks.map some)
          x.2.2.stripAnswer cell r (if x.1 = 0 then 0 else 1) x.1 x.2.1
      else s.stripAnswer cell r 0 0 []
    | none => s
  else
    let t := s.takeRequest m (cell % 64) 5
    match t.1 with
    | none => s
    | some e =>
      match t.2.chd.reqs.find? (fun x => x.2.target == m && x.2.tag == rqTag e && x.2.op != 5) with
      | none => t.2
      | some (id, r) =>
        let d := if r.op = 3 then t.2.stagedBlocks m (match r.place with | some p => p.2 | none => 0) r.count
          else ([], t.2)
        let bad := ((List.range r.count).zip d.1).foldl (fun m x => if x.2.isNone then setBit m (r.first + x.1) else m) (rqMask e)
        d.2.stripAnswer id r (rqStatus e) bad (d.1.map (·.getD 0))

/-- STRIP_DONE (R488): an answer in a cell, or the end of a request `cell` to this member's own strip, whose media fails
at the offsets of `fail`. -/
def execStripDone (member : Fin 32) (cell fail : Nat) (s : State) : Res :=
  .next (s.stripEnd member.val cell fail).settleStrips

/-- LOCKED_RETRY (R488): writes that met LOCKED are repeated. -/
def execLockedRetry (s : State) : Res :=
  .next ((s.modChd (fun x => { x with
    reqs := x.reqs.map (fun (e : Nat × StripReq) => (e.1, { e.2 with locked := false })) })).startWaiting.settleStrips)

end Sys2Proof.Machine
end

