-- ==== Sys2Proof/Machine/Rebuild.lean ====
section
/-! DEFINITION. Chord reads, recovery of open records, the rebuild scan, reshape, layouts and the effect of a map change on
the chord engine (19 R487, R493, R495 to R509). -/

namespace Sys2Proof.Machine

/-! ## Reading and writing strips whole -/

/-- The media's or the ring's answer as data. -/
def mediaData : MediaRes → Option Nat
  | .good v => some (v % 256 ^ 4112)
  | .bad _ => none

/-- A block of strip t at an offset, given what reading it yields; the own strips hold what was written to them, and a strip that
its scan has still to rebuild is not available (R499). -/
def State.readStrip (s : State) (l : Layout) (slot chord t b : Nat) (r : MediaRes) : Option Nat :=
  let h := l.holder l.fails chord t
  if h = 0xFF ∨ !s.stripThere l slot chord t then none
  else if s.own = some h then (mediaData r).map (fun _ => SMap.get s.chd.strips 0 (s.stripLba l chord b))
  else mediaData r

/-- The strips readable at an offset; `use` says which count as available. -/
def State.readOffset (s : State) (l : Layout) (slot chord b : Nat) (rs : List MediaRes) (use : Nat → Bool) : SMap Nat :=
  ((List.range l.w).filterMap (fun t =>
    if use t then (s.readStrip l slot chord t b (rs.getD t (.bad 0x14))).map (fun v => (t, v)) else none))

/-- Blocks written to a strip at its holder: into the own strip, or as a request; `jid` stamps parity. -/
def State.writeStrip (s : State) (l : Layout) (slot chord t holder first jid cls : Nat) (blocks : List Nat) : State :=
  if holder = 0xFF ∨ blocks.isEmpty then s
  else if s.own = some holder then
    (s.stripDo (if t < l.k then 1 else 4) slot chord first blocks.length jid 0 0 (blocks.map some)).2.2
  else (s.reqRun (mkReq holder (if t < l.k then 1 else 4) slot chord t first blocks.length jid blocks cls .none)).2

/-- Data strips that cannot be read at an offset become lost there (R503). -/
def State.loseOffset (s : State) (l : Layout) (slot chord b : Nat) (got : SMap Nat) : State :=
  s.each ((List.range l.k).filter (fun j => (SMap.look got j).isNone)) (fun s j => s.enterLost slot chord b j)

/-- Strip t of a chord from its data blocks. -/
def stripOf (l : Layout) (t jid : Nat) (ds : List Nat) : Nat :=
  if t < l.k then withGuard (ds.getD t 0) else withStamp (parityOf l.m (t - l.k) ds) jid

/-! ## CHORD_READ (R500, R502) -/

/-- CHORD_READ (R500; with quorum, 18 R474): a volume block is read from its strip or reconstructed; `strips` is what reading each strip of its
chord yields. The answer is the block, or the status it fails with. -/
def execChordRead (nsid lba : Nat) (strips : List MediaRes) (s : State) : Res :=
  .next (match s.volumeOf nsid, s.activeLayout with
    | some o, some _ =>
      let slot := s.readSlot lba
      match s.chordLayout slot with
      | none => s
      | some l =>
        let p := l.place lba
        let c := l.owned o p.1
        let t := p.2.1
        let b := p.2.2
        if !s.quorum then s
        else if s.lostAt nsid lba then s.answer (.data 0x15)
        else match s.readStrip l slot c t b (strips.getD t (.bad 0x14)) with
          | some v => s.answer (.block 4112 v)
          | none =>
            let got := s.readOffset l slot c b strips (fun _ => true)
            match decodeData l.k l.m got with
            | none => (s.loseOffset l slot c b got).answer (.data 0x15)
            | some ds =>
              let v := withGuard (ds.getD t 0)
              let h := l.holder l.fails c t
              let spare := h != l.holder [] c t
              let media := strips.getD t (.bad 0x14) == .bad 0x14
              let s := (s.inc Reg.CHD_DEGRADED_COUNT).inc Reg.CHD_RECON_COUNT
              let s := s.when (spare || media) (·.writeStrip l slot c t h b 0 1 [v])
              let s := s.settleStrips
              s.answer (.block 4112 v)
    | _, _ => s)

/-! ## Recovery of open records (R495, R496) -/

/-- Step 3: the data blocks with the parity whose stamp differs from JID where there is such, else with the other. -/
def recoverData (l : Layout) (strip jid : Nat) (got : SMap Nat) : Option (List Nat) :=
  match SMap.look got strip with
  | some _ => decodeData l.k l.m got
  | none =>
    let old := got.filter (fun e => decide (l.k ≤ e.1) && stampOf e.2 != jid)
    let data := got.filter (fun e => decide (e.1 < l.k))
    if old.isEmpty then decodeData l.k l.m got else decodeData l.k l.m (data ++ old)

/-- One offset of an open record. -/
def State.recoverOffset (s : State) (l : Layout) (r b : Nat) (rs : List MediaRes) : State :=
  let c := jnlChord r
  let t := jnlStrip r
  let slot := jnlSlot r
  let got := s.readOffset l slot c b rs (fun _ => true)
  match recoverData l t (jnlJid r) got with
  | none => s.loseOffset l slot c b got
  | some ds =>
    let s := s.each ((List.range l.m).filter (fun i => (SMap.look got (l.k + i)).isSome)) (fun s i =>
      s.writeStrip l slot c (l.k + i) (l.holder l.fails c (l.k + i)) b (jnlJid r) 1 [parityOf l.m i ds])
    let h := l.holder l.fails c t
    if (SMap.look got t).isNone then
      (s.inc Reg.CHD_RECON_COUNT).when (h != l.holder [] c t) (·.writeStrip l slot c t h b 0 1 [withGuard (ds.getD t 0)])
    else s

/-- One open record, by its journal cell, with what reading each offset yields. -/
def State.recoverRecord (s : State) (cell r : Nat) (reads : List (List MediaRes)) : State :=
  match s.chordLayout (jnlSlot r) with
  | none => s
  | some l =>
    let s := s.each (List.range (jnlCount r)) (fun s i => s.recoverOffset l r (jnlFirst r + i) (reads.getD i []))
    let s := s.putJnl cell (closed r)
    let s := s.inc Reg.CHD_WRITES_COUNT
    match s.partner with
    | some p =>
      if cell < 65536 then
        (s.newReq (mkReq p 8 (jnlSlot r) (jnlChord r) (jnlStrip r) (jnlFirst r) (jnlCount r) (jnlJid r) [] 1 .none)).2
      else s
    | none => s

/-- The open records that await recovery: the restored own ones, and the adopted member's mirrored ones. -/
def State.dueRecords (s : State) : List (Nat × Nat) :=
  (if s.flag Reg.CHD_STATUS_JNL_RESTORED || s.chd.recovering then
    (s.openRecords false).filter (fun e => (SMap.look s.chd.ops (jnlJid e.2)).isNone) else []) ++
  (if s.get Reg.CHD_STATUS_ADOPTED = 0xFF then []
    else (s.openRecords true).filter (fun e => jnlOwner e.2 == s.get Reg.CHD_STATUS_ADOPTED))

/-- REBUILD: a scan or a recovery runs. -/
def State.putRebuild (s : State) : State := s.putB Reg.CHD_STATUS_REBUILD (!s.chd.scans.isEmpty || s.chd.recovering)

/-- A write of CHD_CTL.RECOVER is refused (R509). -/
def State.recoverBad (s : State) : Bool := !s.flag Reg.CHD_STATUS_JNL_RESTORED

/-- JOURNAL_RECOVER (R495): open records are recovered, with what reading each offset of each record yields; a write of
CHD_CTL.RECOVER without a restored journal, and without an adopted volume's records, is rejected. -/
def execJournalRecover (reads : List (List (List MediaRes))) (s : State) : Res :=
  .next (
    if s.dueRecords.isEmpty && s.recoverBad && !s.chd.recovering then
      s.reject Reg.CHD_CFG_STATUS_ERR Reg.CHD_CFG_STATUS_CODE 8
    else if !s.quorum then s
    else
      let s := s.each ((List.range s.dueRecords.length).zip s.dueRecords) (fun s x =>
        s.recoverRecord x.2.1 x.2.2 (reads.getD x.1 []))
      ((s.settleStrips.put Reg.CHD_STATUS_JNL_RESTORED 0).modChd (fun x => { x with recovering := false })).putRebuild)

/-- The chord passes its check: every data strip is readable at each offset, and the parity that is readable matches. -/
def State.stampOk (s : State) (l : Layout) (slot c : Nat) (rs : List (List MediaRes)) : Bool :=
  (List.range 64).all (fun b =>
    let got := s.readOffset l slot c b (rs.map (fun t => t.getD b (.bad 0x14))) (fun _ => true)
    (List.range l.k).all (fun j => (SMap.look got j).isSome) &&
      (match decodeData l.k l.m got with
      | some ds => (List.range l.m).all (fun i => match SMap.look got (l.k + i) with
          | some p => p % 256 ^ coded == parityOf l.m i ds
          | none => true)
      | none => false))

/-- STAMP_RECOVERY (R496): candidates of the adopted volume, with what reading each strip yields. -/
def execStampRecovery (cands : List (Nat × List (List MediaRes))) (s : State) : Res :=
  .next (match s.activeLayout with
    | none => s
    | some l =>
      if s.get Reg.CHD_STATUS_ADOPTED = 0xFF then s
      else s.each (cands.filter (fun x => !s.stampOk l s.activeSlot x.1 x.2)) (fun s x =>
        let bad := (List.range l.k).filter (fun j => (List.range 64).any (fun b =>
          (s.readStrip l s.activeSlot x.1 j b ((x.2.getD j []).getD b (.bad 0x14))).isNone))
        s.each bad (fun s j => s.each (List.range 64) (fun s b => s.enterLost s.activeSlot x.1 b j))))

/-! ## The rebuild scan (R498, R499) -/

/-- The chords a scan covers: all owned ones, and of a target layout those below B (R508). -/
def State.scanEnd (s : State) (x : Scan) (l : Layout) : Nat :=
  if s.chd.target = some x.slot then min s.reshapeB l.ownedCount else l.ownedCount

/-- The rebuilt blocks of one offset: every strip that moved, or lost data. -/
def State.rebuildOffset (s : State) (l : Layout) (slot c b : Nat) (rs : List MediaRes) (moved : List Nat) : State :=
  let got := s.readOffset l slot c b rs (fun t => !moved.contains t)
  match decodeData l.k l.m got with
  | none => s.loseOffset l slot c b got
  | some ds => (s.incBy Reg.CHD_RECON_COUNT moved.length).each moved (fun s t =>
      s.writeStrip l slot c t (l.holder l.fails c t) b 0 2 [stripOf l t 0 ds])

/-- REBUILD_SCAN (R498, R499): the scan's next owned chord, with what reading each offset of each strip yields. Open records are
recovered before any rebuild starts. -/
def execRebuildScan (strips : List (List MediaRes)) (s : State) : Res :=
  .next (match s.chd.scans with
    | [] => s
    | x :: xs =>
      match s.chordLayout x.slot with
      | none => (s.modChd (fun y => { y with scans := xs })).putRebuild
      | some l =>
        let last := s.scanEnd x l
        if x.u < last then
          let c := l.owned x.owner x.u
          if s.chordBusy x.slot c || !s.quorum || s.flag Reg.CHD_STATUS_LOST_FULL || s.chd.recovering || !s.dueRecords.isEmpty then s
          else
            let base := s.scanBase x x.u
            let moved := (List.range l.w).filter (fun t =>
              l.holder l.fails c t != l.holder base c t && l.holder l.fails c t != 0xFF)
            let s := if moved.isEmpty then s
              else s.each (List.range 64) (fun s b => s.rebuildOffset l x.slot c b (strips.map (fun t => t.getD b (.bad 0x14))) moved)
            let s := s.settleStrips.incBy Reg.CHD_REBUILT_COUNT moved.length
            (s.put64 Reg.CHD_SCAN_LO_U Reg.CHD_SCAN_HI_U (x.u + 1)).modChd (fun y => { y with scans := { x with u := x.u + 1 } :: xs })
        else
          let s := s.modChd (fun y => { y with
            scans := xs, scanned := SMap.set y.scanned (scanKey x.owner x.slot) x.list
            suspended := y.suspended && !xs.isEmpty })
          (s.put64 Reg.CHD_SCAN_LO_U Reg.CHD_SCAN_HI_U 0).putRebuild)

/-- Volumes this member serves: its own and the adopted one. -/
def State.volumes (s : State) : List Nat :=
  (match s.own with | some m => [m] | none => []) ++
    (if s.get Reg.CHD_STATUS_ADOPTED = 0xFF then [] else [s.get Reg.CHD_STATUS_ADOPTED])

/-- The layout slots a scan covers. -/
def State.scanSlots (s : State) : List Nat :=
  s.activeSlot :: (match s.chd.target with | some t => [t] | none => [])

/-- Scans start, or start again, after the failure lists grew from `before` (R498, R499, R508). -/
def State.startScans (s : State) (before : SMap (List Nat)) : State :=
  if !s.flag Reg.CHD_STATUS_READY then s
  else
    let old := s.chd.scans
    let mk := s.volumes.flatMap (fun o => s.scanSlots.filterMap (fun t => (s.chordLayout t).map (fun l =>
      let prev := (old.find? (fun x => x.owner == o && x.slot == t)).map (fun x => (x.u, x.list))
      (⟨o, t, 0, l.fails, prev⟩ : Scan))))
    let scanned := mk.foldl (fun m x => if (SMap.look m (scanKey x.owner x.slot)).isSome then m
      else SMap.set m (scanKey x.owner x.slot) (SMap.get before [] x.slot)) s.chd.scanned
    ((s.modChd (fun y => { y with scans := mk, scanned := scanned, suspended := y.target.isSome })).put64
      Reg.CHD_SCAN_LO_U Reg.CHD_SCAN_HI_U 0).putRebuild

/-! ## A new map (R487, R493, R497) -/

/-- A failed member at the end of each layout's failure list that has it in its roster. -/
def State.appendFail (s : State) (m : Nat) : State :=
  s.modChd (fun x => { x with layouts := x.layouts.map (fun (e : Nat × Layout) =>
    (e.1, if e.2.members.contains m && !e.2.fails.contains m then { e.2 with fails := e.2.fails ++ [m] } else e.2)) })

/-- The volume of a failed member is adopted, or waits while another one is. -/
def State.adopt (s : State) (m : Nat) : State :=
  if s.get Reg.CHD_STATUS_ADOPTED = 0xFF then s.put Reg.CHD_STATUS_ADOPTED m
  else s.modChd (fun x => { x with adoptNext := x.adoptNext ++ [m] })

/-- The end of an adoption: the next one that waits. -/
def State.adoptEnd (s : State) : State :=
  match s.chd.adoptNext with
  | m :: ms => (s.modChd (fun x => { x with adoptNext := ms })).put Reg.CHD_STATUS_ADOPTED m
  | [] => s.put Reg.CHD_STATUS_ADOPTED 0xFF

/-- Every open own record goes to the partner (R493). -/
def State.resendRecords (s : State) (p : Nat) : State :=
  s.each (s.openRecords false) (fun s e =>
    (s.newReq { mkReq p 7 (jnlSlot e.2) (jnlChord e.2) (jnlStrip e.2) (jnlFirst e.2) (jnlCount e.2) (jnlJid e.2) [] 1 .none with
      recd := e.2 }).2)

/-- The adopter of a failed member (R497): its partner by the map that stood, the next ACTIVE member eastward that the new map has
not failed (DESIGN CHOICE where its partner failed with it, log entry 109). -/
def heir (old new m : Nat) : Option Nat :=
  let p := mapPos old
  match p.findIdx? (fun x => x.1 == m) with
  | some i => (((p.drop (i + 1)) ++ p.take i).find? (fun x => x.2 == 0 && x.1 != m && mapState new x.1 != some 2)).map Prod.fst
  | none => none

/-- A new map takes effect at the chord engine: failure lists, adoption, partner, scans. -/
def State.chordMap (s : State) (old new : Option Nat) : State :=
  let was := fun (m : Nat) => match old with | some r => mapState r m == some 2 | none => false
  let failed := match new with
    | some r => (List.range 32).filter (fun m => mapState r m == some 2 && !was m)
    | none => []
  let before := s.chd.layouts.map (fun (e : Nat × Layout) => (e.1, e.2.fails))
  let s := s.each failed State.appendFail
  let grew := s.chd.layouts.any (fun e => e.2.fails != SMap.get before [] e.1)
  let s := s.each (failed.filter (fun m => match old, new with
    | some r, some r' => heir r r' m == s.own && s.own.isSome
    | _, _ => false)) State.adopt
  let p := s.partner.getD 0xFF
  let s := if p ≠ s.get Reg.CHD_STATUS_PARTNER then
      let s := s.put Reg.CHD_STATUS_PARTNER p
      if p = 0xFF then s else s.resendRecords p
    else s
  s.when grew (·.startScans before)

/-! ## Layouts (R483, R505, R509) -/

/-- The staged layout registers of the slot CHD_CTL.SLOT names. -/
def State.stagedLayout (s : State) : Layout :=
  { seed := s.get64 Reg.CHD_L_SEED_LO_SEED Reg.CHD_L_SEED_HI_SEED, roster := s.get Reg.CHD_L_ROSTER_MASK
    k := s.get Reg.CHD_L_GEOM_K, m := s.get Reg.CHD_L_GEOM_M, spare := s.get Reg.CHD_L_GEOM_SPARE
    base := s.get Reg.CHD_L_BASE_BASE, rows := s.get Reg.CHD_L_ROWS_ROWS, fails := [] }

/-- The code that refuses a commit of a layout to a slot; 0 for none. -/
def State.layoutCheck (s : State) (slot : Nat) (l : Layout) : Nat :=
  let p := s.positions
  let act := s.activeLayout
  if l.rows = 0 then 1
  else if l.k < 2 ∨ 24 < l.k ∨ l.m < 1 ∨ 4 < l.m ∨ 4 < l.spare ∨ l.n < 2 then 2
  else if p ≤ l.base ∨ p < l.rows then 3
  else if s.flag Reg.CHD_STATUS_READY && slot == s.activeSlot then 4
  else if 28 < l.w ∨ l.c < 1 ∨ l.n < l.spare ∨ l.rows % l.n ≠ 0 then 5
  else if l.members.any (fun m => !s.isActive m) || !l.members.contains s.ownNo || s.own.isNone then 6
  else match act with
    | some a => if l.base ≠ (a.base + a.rows) % p ∨ p < a.rows + l.rows then 7 else 0
    | none => 0

/-- The code that refuses a reshape (R505); 0 for none. -/
def State.reshapeCheck (s : State) : Nat :=
  match s.chordLayout (1 - s.activeSlot), s.activeLayout with
  | some l, some _ =>
    if !s.chd.scans.isEmpty || decide (l.capacity < s.nsCap (s.get Reg.CHD_VOL_VOL_NS)) ||
        (s.flag Reg.CHD_VOL_ADOPT_EN && s.get Reg.CHD_STATUS_ADOPTED != 0xFF &&
          !l.members.contains (s.get Reg.CHD_STATUS_ADOPTED)) then 7
    else 0
  | _, _ => 7

/-- The layout registers, each by its key with its reset value. -/
def layoutFields : List Field :=
  [Reg.CHD_L_SEED_LO_SEED, Reg.CHD_L_SEED_HI_SEED, Reg.CHD_L_ROSTER_MASK, Reg.CHD_L_GEOM_K, Reg.CHD_L_GEOM_M,
    Reg.CHD_L_GEOM_SPARE, Reg.CHD_L_BASE_BASE, Reg.CHD_L_ROWS_ROWS]

/-- SLOT changes: the layout registers reach the other slot. -/
def State.swapSlot (s : State) (slot : Nat) : State :=
  if slot = s.get Reg.CHD_CTL_SLOT then s
  else
    let mine := layoutFields.foldl (fun m F => SMap.put m F.rst F.key (s.get F)) []
    let s := s.each layoutFields (fun s F => s.put F (SMap.get s.chd.other F.rst F.key))
    (s.modChd (fun x => { x with other := mine })).put Reg.CHD_CTL_SLOT slot

/-- The staged layout takes effect: the first one becomes active, a later one is a target. -/
def State.layoutCommit (s : State) (slot : Nat) : State :=
  let l := s.stagedLayout
  let s := s.modChd (fun x => { x with layouts := SMap.set x.layouts slot l })
  if s.flag Reg.CHD_STATUS_READY then s
  else (s.put Reg.CHD_STATUS_READY 1).put Reg.CHD_STATUS_ACTIVE slot

/-- A reshape starts at K, or resumes (R505 to R508). -/
def State.reshapeGo (s : State) : State :=
  if s.chd.target.isSome then s.modChd (fun x => { x with suspended := false })
  else ((s.modChd (fun x => { x with target := some (1 - s.activeSlot), suspended := false })).put Reg.CHD_STATUS_RESHAPE 1).put64
    Reg.CHD_B_LO_B Reg.CHD_B_HI_B s.reshapeK

/-- The target slot becomes active, and the old layout's rows are free (R508). -/
def State.reshapeSwitch (s : State) : State :=
  match s.chd.target with
  | none => s
  | some t =>
    let old := s.activeSlot
    let s := s.modChd (fun x => { x with
      target := none, suspended := false, layouts := SMap.del x.layouts old
      lost := x.lost.filter (fun e => e.1 / 2 ^ 63 != old) })
    let s := ((s.put Reg.CHD_STATUS_ACTIVE t).put Reg.CHD_STATUS_RESHAPE 0).put Reg.CHD_STATUS_RESHAPE_DONE 0
    (s.put64 Reg.CHD_B_LO_B Reg.CHD_B_HI_B 0).put64 Reg.CHD_K_LO_K Reg.CHD_K_HI_K 0

/-- A write of CHD_CTL (R509, Table CHD-6): all of it is checked before any of it takes effect. -/
def State.chdCtl (s : State) (v : Nat) : State :=
  let t := (s.swapSlot (bit v 0)).put Reg.CHD_CTL_EN (bit v 31)
  let c := if hasBit v 1 then t.layoutCheck (bit v 0) t.stagedLayout else 0
  let c := if c = 0 ∧ hasBit v 2 ∧ t.recoverBad then 8 else c
  let c := if c = 0 ∧ hasBit v 3 then t.reshapeCheck else c
  let c := if c = 0 ∧ hasBit v 4 ∧ !t.flag Reg.CHD_STATUS_RESHAPE_DONE then 7 else c
  if c ≠ 0 then s.reject Reg.CHD_CFG_STATUS_ERR Reg.CHD_CFG_STATUS_CODE c
  else
    let t := t.when (hasBit v 1) (·.layoutCommit (bit v 0))
    let t := t.when (hasBit v 2) (fun t => (t.modChd (fun x => { x with recovering := true })).putRebuild)
    let t := t.when (hasBit v 3) State.reshapeGo
    t.when (hasBit v 4) State.reshapeSwitch

/-- LAYOUT_COMMIT (R509): a write of CHD_CTL. -/
def execLayoutCommit (value : Word) (s : State) : Res := .next (s.chdCtl value.toNat)

/-- CHD_CTL as it stands, with one command bit. -/
def State.chdCtlWith (s : State) (b : Nat) : Nat := s.get Reg.CHD_CTL_EN * 2 ^ 31 + s.get Reg.CHD_CTL_SLOT + b

/-- RESHAPE_START (R505): a write of CHD_CTL.RESHAPE. -/
def execReshapeStart (s : State) : Res := .next (s.chdCtl (s.chdCtlWith 8))

/-- RESHAPE_SWITCH (R508): a write of CHD_CTL.SWITCH. -/
def execReshapeSwitch (s : State) : Res := .next (s.chdCtl (s.chdCtlWith 16))

/-- The checkpoint is written and mirrored to the partner as a record with STATE 0 (R506). -/
def State.saveCheckpoint (s : State) (k slot : Nat) : State :=
  let s := s.put64 Reg.CHD_K_LO_K Reg.CHD_K_HI_K k
  match s.partner with
  | some p => (s.newReq { mkReq p 7 slot k 0 0 0 0 [] 2 .none with
      recd := jnlRecord 0 0 s.ownNo 0 slot 0 0 k 0 (if s.ring.map.isSome then mapEpoch s.mapRaw else 0) (s.lchk slot) }).2
  | none => s

/-- RESHAPE_CHORD_COPY (R506): the next target chord is filled from the k × 64 volume blocks, as reading each through the
active layout yields it; a block that cannot be read is lost in the target layout too. -/
def execReshapeChordCopy (data : List MediaRes) (s : State) : Res :=
  .next (match s.chd.target, s.own with
    | some t, some me =>
      match s.chordLayout t with
      | none => s
      | some l =>
        let u := s.reshapeB
        let c := l.owned me u
        if s.chd.suspended || !s.chd.scans.isEmpty || l.ownedCount ≤ u || s.chordBusy t c || !s.quorum then s
        else
          let s := s.each (List.range 64) (fun s b =>
            let ds := (List.range l.k).map (fun j => mediaData (data.getD (64 * j + b) (.bad 0x14)))
            let s := s.each ((List.range l.k).filter (fun j => (ds.getD j none).isNone)) (fun s j => s.enterLost t c b j)
            s.each (List.range l.w) (fun s x =>
              s.writeStrip l t c x (l.holder l.fails c x) b 0 2
                [if x < l.k then (ds.getD x none).getD 0 else stripOf l x 0 (ds.map (fun d => d.getD 0 % 256 ^ coded))]))
          let s := s.put64 Reg.CHD_B_LO_B Reg.CHD_B_HI_B (u + 1)
          let s := s.when ((u + 1) % 1024 = 0) (·.saveCheckpoint (u + 1) t)
          s.when (decide (s.nsCap (s.get Reg.CHD_VOL_VOL_NS) ≤ (u + 1) * l.k * 64)) (·.put Reg.CHD_STATUS_RESHAPE_DONE 1) |>.settleStrips
    | _, _ => s)

end Sys2Proof.Machine
end

