-- ==== Sys2Proof/Machine/Members.lean ====
section
/-! DEFINITION. Ring membership and roles (18 R466 to R477): heartbeats, failures, joins, maps, claims, levels and the ring
rate. -/

namespace Sys2Proof.Machine

/-! ## Own heartbeat data (R469, R475, R477) -/

/-- The ring-level range of MAIN (16 Table ADM-11). -/
def State.ownRange (s : State) : Nat × Nat :=
  match s.bootedPkg.bind (fun p => p.desc 1) with
  | some d => imgRing d
  | none => (0, 0)

/-- The member is a candidate (R472). -/
def State.candidate (s : State) : Bool := s.flag Reg.SYS_STRAP_MGR_SEL && !s.transitOnly

/-- The member requests mute, and not while it has ring work; in RECOVERY it always does (R477). -/
def State.muteReq (s : State) : Bool :=
  (s.flag Reg.RING_CTL_MUTE_REQ && s.ring.frames.all (fun e => !needsActive e.2.type)) || s.adm.mode == 3

/-- The own heartbeat. -/
def State.ownBeat (s : State) : Heartbeat :=
  { epoch := if s.ring.map.isSome then mapEpoch s.mapRaw else 0, role := s.get Reg.RING_STATUS_ROLE
    candidate := s.candidate, mute := s.muteReq, lo := s.ownRange.1, hi := s.ownRange.2, barred := s.barred, is2208 := false }

/-- What is known of a member: its last heartbeat, the own data for this member. -/
def State.beatOf (s : State) (m : Nat) : Option Heartbeat :=
  if s.own = some m then some s.ownBeat else SMap.look s.ring.alive m

/-- The payload of a heartbeat. -/
def beatWord (h : Heartbeat) : Nat :=
  layout [(0, 8, h.epoch), (8, 1, h.role), (9, 1, b2n h.candidate + 2 * b2n h.mute + 4 * b2n h.barred), (10, 2, h.lo), (12, 2, h.hi)]

/-- HEARTBEAT_SEND (R469): every 1 ms in through state. -/
def execHeartbeatSend (s : State) : Res := .next (s.tellAll 0x02 14 (beatWord s.ownBeat))

/-! ## The ring rate (R466, R476, R477) -/

/-- The longest run of positions that are not in through state, around the ring. -/
def longestGap (ps : List (Nat × Nat)) : Nat :=
  let l := (ps ++ ps).map (fun p => decide (2 ≤ p.2))
  min ps.length ((l.foldl (fun (a : Nat × Nat) b => if b then (a.1 + 1, max a.2 (a.1 + 1)) else (0, a.2)) (0, 0)).2)

/-- Segments that span more bypassed members than a rate allows. -/
def openAt (ps : List (Nat × Nat)) (rate : Nat) : Nat :=
  let t := ((List.range ps.length).zip ps).filter (fun x => decide (x.2.2 ≤ 1))
  (t.filter (fun x =>
    let after := (ps.drop (x.1 + 1)) ++ ps.take (x.1 + 1)
    decide (spanLimit rate < (after.takeWhile (fun p => decide (2 ≤ p.2))).length))).length

/-- The highest rate at or below MAX_RATE that closes every segment, else that leaves at most one open (R466). -/
def State.bestRate (s : State) (ps : List (Nat × Nat)) : Nat :=
  let rs := (List.range (s.get Reg.RING_CTL_MAX_RATE + 1)).reverse
  match rs.find? (fun r => openAt ps r == 0) with
  | some r => r
  | none => (rs.find? (fun r => decide (openAt ps r ≤ 1))).getD 0

/-- The rate a manager gives the ring: muted while an IXR-2208 is in through state or every through member asks for it. -/
def State.ringRate (s : State) (ps : List (Nat × Nat)) : Nat :=
  let thr := (ps.filter (fun p => decide (p.2 ≤ 1))).map Prod.fst
  if thr.any (fun m => match s.beatOf m with | some h => h.is2208 | none => false) ||
      thr.all (fun m => match s.beatOf m with | some h => h.mute | none => false) then 0
  else s.bestRate ps

/-- The ring runs at a rate (R457, R477). -/
def State.putRate (s : State) (r : Nat) : State :=
  let s := s.when (s.get Reg.RING_STATUS_RATE != r) (·.ringEvt Reg.RING_EVT_RATE)
  (s.put Reg.RING_STATUS_RATE r).putB Reg.RING_STATUS_MUTED (r == 0)

/-- RING_RATE (R477): CONTROL RATE of the manager. -/
def execRingRate (src : Fin 32) (code : Fin 4) (s : State) : Res :=
  .next (if s.through && s.get Reg.RING_STATUS_MANAGER == src.val && (SMap.look s.ring.sessions src.val).isSome then
      s.putRate code.val
    else s)

/-- A manager mutes the ring or restores its rate, with CONTROL RATE to every through member (R477). -/
def State.rateCheck (s : State) : State :=
  if s.get Reg.RING_STATUS_ROLE = 3 ∧ s.ring.map.isSome then
    let ps := mapPos s.mapRaw
    let r := s.ringRate ps
    if r = s.get Reg.RING_STATUS_RATE then s
    else
      let s := s.each (((ps.filter (fun p => decide (p.2 ≤ 1))).map Prod.fst).filter (fun m => s.own != some m)) (fun s m =>
        (s.useKey m 1).tell 0x08 m 0 0 0 2 (3 + 256 * r))
      s.putRate r
  else s

/-! ## A map takes effect (R468, R470, R471) -/

/-- The own role by a map. -/
def State.roleIn (s : State) (r : Nat) : Nat :=
  if s.own = some (mapManager r) then 3
  else if s.own = some (mapDeputy r) then 2
  else match s.own.bind (mapState r) with
    | some 0 => 1
    | some 1 => 1
    | _ => 0

/-- The registers that show a map. -/
def State.showMap (s : State) (r : Nat) : State :=
  let st := s.own.bind (mapState r)
  let j := st == some 0 || st == some 1
  let s := (s.put64 Reg.RING_EPOCH_LO_EPOCH Reg.RING_EPOCH_HI_EPOCH (mapEpoch r)).put Reg.RING_ACTIVE_MASK (maskOf (mapIn r (· == 0)))
  let s := (s.put Reg.RING_TRANSIT_MASK (maskOf (mapIn r (· == 1)))).put Reg.RING_FAILED_MASK (maskOf (mapIn r (· == 2)))
  let s := (s.putB Reg.RING_STATUS_JOINED j).put Reg.RING_STATUS_MEMBER (if j then s.ownNo else 0)
  let s := (s.put Reg.RING_STATUS_MANAGER (mapManager r)).put Reg.RING_STATUS_DEPUTY (mapDeputy r)
  (s.put Reg.RING_LEVEL_LEVEL (if j then mapLevel r else 0)).putB Reg.RING_STATUS_TRANSIT
    (st == some 1 || (j && (s.ring.rosterBad || s.barred)))

/-- A new map takes effect here. -/
def State.takeMap (s : State) (r : Nat) : State :=
  let old := s.ring.map
  let failed := (mapIn r (· == 2)).filter (fun m => match old with | some o => mapState o m != some 2 | none => true)
  let s := s.modRing (fun x => { x with
    map := some r
    joins := x.joins.filter (fun m => !(mapIn r (fun t => decide (t ≤ 1))).contains m)
    leaves := x.leaves.filter (fun m => mapState r m != some 3), failed := x.failed.filter (fun m => mapState r m != some 2)
    claiming := false })
  let s := s.rosterCheck
  let s := ((s.showMap r).putRole (s.roleIn r)).ringEvt Reg.RING_EVT_MAP
  let s := s.when (!failed.isEmpty) (·.ringEvt Reg.RING_EVT_MEMBER_FAILED)
  let s := s.each failed (fun s m => s.raise 0x0E01 m)
  let s := s.each (s.ring.frames.filter (fun e => (needsActive e.2.type && !s.isActive e.2.dst) ||
    (e.2.req == .map && !(s.throughMembers.contains e.2.dst)))) (fun s e => s.frameFail e.1 e.2.req)
  let s := (s.settleStrips.chordMap old (some r)).settleStrips.putRate (mapRate r)
  if s.ring.leaving ∧ s.own.bind (mapState r) = some 3 then s.ringBypass else s

/-- MAP_ACCEPT (R471): from the manager it names, under a session, with a higher EPOCH; it is answered with ACK. -/
def execMapAccept (src : Fin 32) (map : Nat) (s : State) : Res :=
  let r := map % 256 ^ 136
  .next (if s.through && mapOk r && mapManager r == src.val && (SMap.look s.ring.sessions src.val).isSome &&
        (match s.ring.map with | some o => decide (mapEpoch o < mapEpoch r) | none => true) then
      (s.reply1 0x13 src.val 0 0 0 0).takeMap r
    else s)

/-! ## The manager's maps (R466, R471, R473, R475) -/

/-- The level and the transit-only members (R475) of a list of members. -/
def State.levelOf (s : State) (mgr : Nat) (ms : List Nat) : Nat :=
  match s.beatOf mgr with
  | none => 0
  | some g => ms.foldl (fun l m => match s.beatOf m with
      | some h => if m ≠ mgr ∧ h.lo ≤ g.hi ∧ g.lo ≤ h.hi then min l h.hi else l
      | none => l) g.hi

/-- The member is transit-only at a level. -/
def State.transitAt (s : State) (l m : Nat) : Bool :=
  match s.beatOf m with
  | some h => decide (l < h.lo) || decide (h.hi < l) || h.barred
  | none => true

/-- The lowest-numbered candidate of the through members other than the manager; 0xFF without one (R473). -/
def State.deputyOf (s : State) (mgr : Nat) (ps : List (Nat × Nat)) : Nat :=
  ((List.range 32).find? (fun m => m != mgr && ps.any (fun p => p.1 == m && p.2 == 0) &&
    (match s.beatOf m with | some h => h.candidate | none => false))).getD 0xFF

/-- The member admitted by the next map: the first that waits, once a session with it stands (R471). -/
def State.admitted (s : State) : Option Nat :=
  match s.ring.joins with
  | m :: _ => if (SMap.look s.ring.sessions m).isSome ∧ m < 32 then some m else none
  | [] => none

/-- The state of a member in the next map. -/
def State.nextState (s : State) (l m : Nat) : Nat :=
  if s.ring.leaves.contains m then 3
  else if s.ring.failed.contains m then 2
  else match s.ring.map.bind (fun r => mapState r m), s.admitted == some m || s.own == some m with
    | some 2, false => 2
    | some 3, false => 3
    | _, _ => if s.transitAt l m then 1 else 0

/-- The record of a map. -/
def mapRecord (epoch hash level mgr dep rate : Nat) (ps : List (Nat × Nat)) : Nat :=
  let r := layout ([(0, 8, epoch), (8, 48, hash), (0x38, 2, level), (0x3A, 1, mgr), (0x3B, 1, dep), (0x3C, 1, rate),
    (0x3D, 1, ps.length)] ++ ((List.range ps.length).zip ps).map (fun x => (0x40 + 2 * x.1, 2, x.2.1 + 256 * x.2.2)))
  r + crc64 (leBytes r 128) * 256 ^ 128

/-- The next map with positions in the order given. -/
def State.nextMap (s : State) (order : List Nat) : Nat :=
  let me := s.ownNo
  let go := order.filter (fun m => !s.ring.leaves.contains m && !s.ring.failed.contains m &&
    (match s.ring.map.bind (fun r => mapState r m) with | some t => decide (t ≤ 1) || s.admitted == some m | none => true))
  let l := s.levelOf me go
  let ps := order.map (fun m => (m, s.nextState l m))
  mapRecord ((if s.ring.map.isSome then mapEpoch s.mapRaw else 0) + 1) s.rosterHash l me (s.deputyOf me ps) (s.ringRate ps) ps

/-- The order names this member first, each member once, every position of the present map and the admitted member, and
no other. -/
def State.orderOk (s : State) (order : List Nat) : Bool :=
  let must := (if s.ring.map.isSome then (mapPos s.mapRaw).map Prod.fst else []) ++ [s.ownNo] ++ s.admitted.toList
  order.head? == some s.ownNo && must.all order.contains && order.all must.contains &&
    (List.range 32).all (fun m => decide (order.count m ≤ 1)) && decide (order.length ≤ 32)

/-- The map is sent to every ACTIVE and TRANSIT member, and takes effect here (R471). -/
def State.commitMap (s : State) (order : List Nat) : State :=
  let r := s.nextMap order
  let s := s.modRing (fun x => { x with frames := x.frames.filter (fun e => e.2.req != .map) })
  let s := s.takeMap r
  s.each ((mapIn r (fun t => decide (t ≤ 1))).filter (fun m => s.own != some m)) (fun s m =>
    s.ringSend 0x08 m 0 0 137 (1 + 256 * r) .map)

/-- Something a map records has changed. -/
def State.mapChanged (s : State) (order : List Nat) : Bool :=
  match s.ring.map with
  | none => true
  | some o =>
    let r := s.nextMap order
    mapPos r != mapPos o || mapLevel r != mapLevel o || mapDeputy r != mapDeputy o || mapRate r != mapRate o

/-- MAP_COMMIT (R471): the manager commits a map; `order` is the order of the members eastward from it. -/
def execMapCommit (order : List Nat) (s : State) : Res :=
  .next (if s.get Reg.RING_STATUS_ROLE = 3 && s.through && s.quorum && s.orderOk order && s.mapChanged order then
      s.commitMap order
    else s)

/-- The positions of the present map, from this member on. -/
def State.ownOrder (s : State) : List Nat :=
  match s.ring.map with
  | none => [s.ownNo]
  | some r =>
    let ms := (mapPos r).map Prod.fst
    match ms.findIdx? (· == s.ownNo) with
    | some i => ms.drop i ++ ms.take i
    | none => s.ownNo :: ms

/-- This member becomes manager and commits a map; through members it does not hear have failed. -/
def State.becomeManager (s : State) : State :=
  let lost := s.throughMembers.filter (fun m => (s.beatOf m).isNone)
  let s := s.modRing (fun x => { x with
    claiming := false, joins := [], leaves := []
    failed := x.failed ++ lost.filter (fun m => !x.failed.contains m) })
  s.commitMap s.ownOrder

/-- HEARTBEAT_RECEIVE (R469, R474). -/
def execHeartbeatReceive (src : Fin 32) (hb : Heartbeat) (s : State) : Res :=
  .next (if s.through && s.own != some src.val then
      let s := s.modRing (fun x => { x with
        alive := SMap.set x.alive src.val hb, claiming := x.claiming && hb.role != 3 })
      s.sendJoin.rateCheck
    else s)

/-- MEMBER_FAIL_TIMEOUT (R469, R473): no heartbeat of a member for 20 ms; the manager declares it failed, and a deputy
with quorum takes the place of a failed manager. -/
def execMemberFailTimeout (member : Fin 32) (s : State) : Res :=
  let m := member.val
  .next (if !s.through || s.own == some m then s
    else
      let s := s.modRing (fun x => { x with alive := SMap.del x.alive m })
      if s.get Reg.RING_STATUS_ROLE = 3 then
        if s.throughMembers.contains m && !s.ring.failed.contains m then
          s.modRing (fun x => { x with failed := x.failed ++ [m], joins := x.joins.filter (· != m) })
        else s
      else if s.get Reg.RING_STATUS_ROLE = 2 ∧ s.get Reg.RING_STATUS_MANAGER = m ∧ s.quorum then
        (s.modRing (fun x => { x with failed := x.failed ++ [m] })).becomeManager
      else s)

/-- RING_JOIN (R469, R471): JOIN with OP join or leave reaches the manager. -/
def execRingJoin (member : Fin 32) (leave : Bool) (s : State) : Res :=
  let m := member.val
  .next (if s.get Reg.RING_STATUS_ROLE = 3 ∧ s.through then
      if leave then
        (if s.throughMembers.contains m && !s.ring.leaves.contains m then s.modRing (fun x => { x with leaves := x.leaves ++ [m] }) else s)
      else if s.ring.joins.contains m then s
      else (s.modRing (fun x => { x with joins := x.joins ++ [m] })).when (SMap.look s.ring.sessions m).isNone (·.agree m)
    else s)

/-! ## Claims and quorum (R472, R474) -/

/-- The EPOCH held. -/
def State.epochHeld (s : State) : Nat := if s.ring.map.isSome then mapEpoch s.mapRaw else 0

/-- CLAIM_SEND (R472): a candidate that hears no manager and is not the deputy. -/
def execClaimSend (s : State) : Res :=
  .next (if s.through && s.candidate && s.heardManager.isNone && s.get Reg.RING_STATUS_ROLE != 2 &&
        s.get Reg.RING_STATUS_ROLE != 3 && s.own.isSome then
      (s.modRing (fun x => { x with claiming := true })).tellAll 0x03 9 (s.epochHeld + 256 ^ 8 * s.ownNo)
    else s)

/-- CLAIM_RECEIVE (R472): a higher-ranked claim ends the own one. -/
def execClaimReceive (member : Fin 32) (epoch : Nat) (s : State) : Res :=
  .next (if s.ring.claiming ∧ (s.epochHeld < epoch ∨ (epoch = s.epochHeld ∧ member.val < s.ownNo)) then
      s.modRing (fun x => { x with claiming := false })
    else s)

/-- CLAIM_WIN (R472): 20 ms of claiming without a higher-ranked claim, with quorum. -/
def execClaimWin (s : State) : Res :=
  .next (if s.ring.claiming && s.quorum && s.through then s.becomeManager else s)

/-- QUORUM_LOSS (R474): quorum lost for 20 ms; the manager drops its role. -/
def execQuorumLoss (s : State) : Res :=
  .next (if s.through && !s.quorum then
      (s.ringEvt Reg.RING_EVT_QUORUM_LOST).when (s.get Reg.RING_STATUS_ROLE == 3) (·.putRole 1)
    else s)

end Sys2Proof.Machine
end

