-- ==== Sys2Proof/Machine/Reset.lean ====
section
/-! DEFINITION. Device resets (02 R62 to R64, R68; 11 R294; 16 R418; 17 R439): their sources, what they keep, the fault
save of a fatal machine check (21 R528, R531), the watchdog, and the reset that a firmware commit asks for. -/

namespace Sys2Proof.Machine

def State.modCore (s : State) (g : Cores → Cores) : State := { s with core := g s.core }

/-! ## What a device reset leaves -/

/-- Registers that a device reset keeps: the straps, the reset causes, the charge of C_HOLD as measured, the power die's
warn and fail, which the supply alone releases (11 R286), and the reshape checkpoint, which lies in the keep-store. -/
def keptRegs : List Field :=
  [Reg.SYS_STRAP_SRIS_B, Reg.SYS_STRAP_SRIS_A, Reg.SYS_STRAP_SMB_ADDR, Reg.SYS_STRAP_BOOT_RCV, Reg.SYS_STRAP_MGR_SEL,
   Reg.SYS_STRAP_ACT, Reg.SYS_RST_CAUSE_SAVE_DEFER, Reg.SYS_RST_CAUSE_DBG, Reg.SYS_RST_CAUSE_SOFT,
   Reg.SYS_RST_CAUSE_WDOG, Reg.SYS_RST_CAUSE_LOCKSTEP, Reg.SYS_RST_CAUSE_VMON, Reg.SYS_RST_CAUSE_CMON,
   Reg.SYS_RST_CAUSE_POR, Reg.SPT_VSTORE_VSTORE, Reg.SPT_STATUS_WARN, Reg.SPT_STATUS_FAIL, Reg.CHD_K_LO_K, Reg.CHD_K_HI_K]

/-- The result of the last self-test, which only SYS_POR_N clears (11 R294). -/
def testRegs : List Field := [Reg.SPT_CAP_VALID, Reg.SPT_CAP_AGE_H, Reg.SPT_CAP_CAP, Reg.SPT_STATUS_TEST_FAIL]

/-- Fields carried over from an older state. -/
def State.carry (s old : State) (fs : List Field) : State := s.each fs (fun s F => s.put F (old.get F))

/-- A range after a reset of an owned device: locked unless AUTO_UNLOCK, its media key not loaded (17 R439). -/
def KRange.relock (x : KRange) : KRange :=
  { x with rlock := !x.auto, wlock := !x.auto, loaded := false, discard := none }

/-- The security block after a device reset: what lies in fuses and the keep-store stays (17 Table SEC-2, R429, R439). -/
def State.secReset (s : State) : Sec :=
  let old := s.sec
  { State.reset.sec with
    owned := old.owned, ownerLock := old.ownerLock, cred := old.cred, svn := old.svn, roster := old.roster
    saveKeys := old.saveKeys
    ranges := if old.owned then (List.range 64).foldl (fun m r => SMap.put m rangeInit r (s.range r).relock) []
      else old.ranges.map (fun e => (e.1, { e.2 with loaded := false, discard := none })) }

/-- The Soundpost after a device reset: the keep-store stays, and so does what the power die does with VHOLD: an off
interval runs on (11 R292), and a VIN fail that is latched keeps the window and the gates closed (11 R286). The save store
and the self-test's result stay where `keep` holds (11 R294, R297; 02 R62). -/
def State.sptReset (s : State) (keep : Bool) : Spt :=
  let old := s.spt
  let fail := s.flag Reg.SPT_STATUS_FAIL
  let p := { State.reset.spt with
    areas := old.areas, restored := old.restored, full := old.full, vhold := old.vhold, taking := !fail, failSrc := fail }
  if keep then { p with
    winNext := old.winNext, window := old.window, journal := old.journal, metaBytes := old.metaBytes, del := old.del
    delLost := old.delLost, failed := old.failed, zones := old.zones, passed := old.passed, capTicks := old.capTicks }
  else p

/-- Administration after a device reset: the firmware slots, the boot record and the counts since manufacture lie in the
keep-store (16 R416, R419). -/
def Admin.afterReset (a : Admin) : Admin :=
  { State.reset.adm with
    boot := a.boot, recovery := a.recovery, active := a.active, fallback := a.fallback, staging := a.staging
    received := a.received, fallbacks := a.fallbacks, mediaErrs := a.mediaErrs, deferred := a.deferred }

/-- Every write gate goes low before anything else (R64). -/
def State.gatesLow (s : State) : State := s.each allSlots State.dropGate

/-- The state after a device reset; `keep` is false for SYS_POR_N. -/
def State.cleared (s : State) (keep : Bool) : State :=
  let n : State := { State.reset with
    pending := s.pending, out := s.out, resp := s.resp, free := s.free
    pwr := { State.reset.pwr with por := s.pwr.por, vio := s.pwr.vio, step := b2n s.pwr.por
                                  dev := if s.pwr.por then .active else .off }
    evr := { State.reset.evr with poc := s.evr.poc, archive := s.evr.archive, archNext := s.evr.archNext
                                  tail := if keep then s.evr.tail else [] }
    buf := { State.reset.buf with pprHard := s.buf.pprHard
                                  flips := if keep then SMap.keep s.buf.flips (fun k => k / 2 ^ 22 == 24) else [] }
    spt := s.sptReset keep
    media := { State.reset.media with reloc := s.media.reloc, usedSpares := s.media.usedSpares
                                      pendingLbas := s.media.pendingLbas, noSpare := s.media.noSpare
                                      written := s.media.written.map (fun e => (e.1, 0)), newest := [] }
    feat := s.featSaved, featSaved := s.featSaved
    ports := SMap.put (SMap.put [] portInit 0 { portInit with perst := (s.port 0).perst }) portInit 1
      { portInit with perst := (s.port 1).perst }
    adm := s.adm.afterReset, sec := s.secReset
    ring := { State.reset.ring with map := s.ring.map }
    chd := { State.reset.chd with jid := s.chd.jid, lost := s.chd.lost, strips := s.chd.strips } }
  let n := n.carry s keptRegs
  if keep then n.carry s testRegs else n

/-- A device reset with a cause bit of SYS_RST_CAUSE takes effect (R62, R64, Table PWR-11). -/
def State.resetNow (s : State) (causes : List Field) : State :=
  (s.gatesLow.cleared true).each causes (fun s F => s.put F 1)

/-- A device reset, held pending while a save runs (R63). -/
def State.deviceReset (s : State) (cause : Field) : State :=
  if s.spt.saving then s.modPwr (fun p => { p with heldRst := setBit p.heldRst cause.lo })
  else s.resetNow [cause]

/-! ## Fatal machine checks (21 R528, R531) -/

/-- What a fault save does before it writes: SPT_FAIL, retracts, no posting, the ring left, the pairs held (R531). -/
def State.faultStop (s : State) (processor : Bool) : State :=
  let s := (s.modSpt (fun p => { p with failSrc := true })).riseSource 4 allSlots
  let s := s.retractUnparked 3
  let s := s.ringBypass.put Reg.CCH_STATUS_RUNNING 0
  s.modCore (fun c => { c with rtHeld := c.rtHeld || processor })

/-- A fatal machine check with its cause: a fault save with the reset held, where `saves` says that the source has one
and step 9 has completed; otherwise the reset at once (R531, 02 R68). While a save runs the reset is held (R63). -/
def State.fatal (s : State) (cause : Field) (saves processor : Bool) : State :=
  if s.pwr.step = 0 then s
  else if s.spt.saving then (s.faultStop processor).deviceReset cause
  else if saves then
    let t := s.faultStop processor
    if 9 ≤ s.pwr.step then
      (t.modSpt (fun p => { p with saving := true, faultSave := true })).deviceReset cause
    else t.deviceReset cause
  else s.deviceReset cause

/-! ## Sources (Table PWR-6) -/

/-- SYS_POR_N_LOW (R62; 01 R28, R32): a running save is abandoned, the straps are sampled anew at the next rise, and the
cause becomes POR alone. -/
def execSysPorNLow (s : State) : Res :=
  let s := s.gatesLow
  let s := if s.spt.saving && s.spt.frozenJW then
      let k := s.spt.into
      (s.modSpt (fun p => { p with areas := (match SMap.look p.areas k with
        | some a => SMap.set p.areas k { a with chunks := Config.freeValue s.free % (65 + winChunks a.winBytes) }
        | none => p.areas) })).draw 1
    else s
  let s := (s.modPwr (fun p => { p with por := false })).cleared false
  let s := ([Reg.SYS_RST_CAUSE_SAVE_DEFER, Reg.SYS_RST_CAUSE_DBG, Reg.SYS_RST_CAUSE_SOFT, Reg.SYS_RST_CAUSE_WDOG,
    Reg.SYS_RST_CAUSE_LOCKSTEP, Reg.SYS_RST_CAUSE_VMON, Reg.SYS_RST_CAUSE_CMON] : List Field).foldl (fun s F => s.put F 0) s
  .next (s.put Reg.SYS_RST_CAUSE_POR 1)

/-- VMON_FAULT (R62; 21 R531): no fault save runs. -/
def execVmonFault (s : State) : Res := .next (s.fatal Reg.SYS_RST_CAUSE_VMON false false)

/-- WATCHDOG_EXPIRY (R62): the watchdog has counted `ms` milliseconds more; it expires at TIMEOUT_MS. -/
def execWatchdogExpiry (ms : Nat) (s : State) : Res :=
  .next (if s.flag Reg.SYS_WDOG_CTL_EN then
      let n := s.pwr.wdogMs + ms
      let s := s.modPwr (fun p => { p with wdogMs := n })
      if s.get Reg.SYS_WDOG_CTL_TIMEOUT_MS ≤ n then s.fatal Reg.SYS_RST_CAUSE_WDOG true false else s
    else s)

/-- WATCHDOG_KICK (R69): any write of SYS_WDOG_KICK restarts the count. -/
def execWatchdogKick (_value : Word) (s : State) : Res := .next (s.modPwr (fun p => { p with wdogMs := 0 }))

/-- A write of SYS_RST_CTL (Table PWR-12): without the key it is ignored. -/
def State.rstCtl (s : State) (v : Nat) : State :=
  if bits v 31 16 = 0x5A5A ∧ hasBit v 0 ∧ s.pwr.step ≠ 0 then s.deviceReset Reg.SYS_RST_CAUSE_SOFT else s

/-- SOFT_RESET (R62). -/
def execSoftReset (value : Word) (s : State) : Res := .next (s.rstCtl value.toNat)

/-- DEBUG_RESET (R62): a reset command on the debug port, which is unlocked while it is open. -/
def execDebugReset (s : State) : Res :=
  .next (if s.sec.dbgOpened ∧ s.pwr.step ≠ 0 then s.deviceReset Reg.SYS_RST_CAUSE_DBG else s)

/-- The causes of a mask of SYS_RST_CAUSE bits. -/
def causeFields (m : Nat) : List Field :=
  ([Reg.SYS_RST_CAUSE_CMON, Reg.SYS_RST_CAUSE_VMON, Reg.SYS_RST_CAUSE_LOCKSTEP, Reg.SYS_RST_CAUSE_WDOG,
    Reg.SYS_RST_CAUSE_SOFT, Reg.SYS_RST_CAUSE_DBG] : List Field).filter (fun F => hasBit m F.lo)

/-- DEFERRED_RESET (R63): once the save has ended, a held reset takes effect with its causes and SAVE_DEFER. -/
def execDeferredReset (s : State) : Res :=
  .next (if s.pwr.heldRst ≠ 0 ∧ s.spt.saving = false then
      s.resetNow (Reg.SYS_RST_CAUSE_SAVE_DEFER :: causeFields s.pwr.heldRst)
    else s)

/-- FW_RESET_DRAIN_DONE (16 R418): fetching has stopped, no command is outstanding and every cache-mode block is on
media; the device resets with cause SOFT. -/
def execFwResetDrainDone (s : State) : Res :=
  .next (if s.fetchStop && s.cmds.isEmpty && s.cache.all (fun e => e.2.mode != 1) then
      s.deviceReset Reg.SYS_RST_CAUSE_SOFT
    else s)

/-- LOCKSTEP_MISMATCH (13 R326; 21 R531): the copies of an application pair, or of the real-time pair (4),
disagree while it runs. -/
def execLockstepMismatch (pair : Fin 5) (s : State) : Res :=
  .next (if pair.val = 4 ∨ hasBit (s.get Reg.CCH_STATUS_RUNNING) pair.val then
      s.fatal Reg.SYS_RST_CAUSE_LOCKSTEP true true
    else s)

end Sys2Proof.Machine
end

