-- ==== Sys2Proof/Machine/Bus.lean ====
section
/-! DEFINITION. The physical address space of 13 Table CPU-1 as the DMA engine and the key block reach it: the ranges and
their permissions, reads and writes of the buffer, the save store and the real-time TCM, with their error outcomes. -/

namespace Sys2Proof.Machine

/-- The memories behind an address (R328). -/
inductive Place where
  | tcm (off : Nat)
  | store (off : Nat)
  | buffer (a : Nat)
  deriving DecidableEq, Repr

/-- The place of an address, if a memory lies there. -/
def placeOf (a : Nat) : Option Place :=
  if 0x10000000 ≤ a ∧ a < 0x10100000 then some (.tcm (a - 0x10000000))
  else if 0x20000000 ≤ a ∧ a < 0x22000000 then some (.store (a - 0x20000000))
  else if 0x400000000 ≤ a ∧ a < 0x800000000 then some (.buffer (a - 0x400000000))
  else if 0x800000000 ≤ a ∧ a < 0xC00000000 then some (.buffer (a - 0x800000000))
  else none

/-- The ranges of Table CPU-1 that the DMA may reach: first address, end, and whether it may write. The two buffer ranges
count as one (R346). -/
def dmaRanges : List (Nat × Nat × Bool) :=
  [(0x10000000, 0x10100000, true), (0x20000000, 0x20800000, false), (0x20800000, 0x21800000, false),
   (0x21800000, 0x21EF0000, true), (0x21EF0000, 0x21F00000, false), (0x21F00000, 0x22000000, false),
   (0x400000000, 0xC00000000, true)]

/-- `n` bytes at `a` lie within range `r`, which permits the access. -/
def inRange (r : Nat × Nat × Bool) (write : Bool) (a : Int) (n : Nat) : Bool :=
  (!write || r.2.2) && decide ((r.1 : Int) ≤ a) && decide (a + n ≤ (r.2.1 : Int))

/-- `n` bytes at `a` lie wholly within one range that permits the access. -/
def busOk (write : Bool) (a n : Nat) : Bool := dmaRanges.any (fun r => inRange r write a n)

/-- Two address ranges name a byte in common; both buffer ranges name the same bytes (R330). -/
def sameBytes (a n b m : Nat) : Bool :=
  let c := fun (x : Nat) => if 0x800000000 ≤ x then x - 0x400000000 else x
  rangesMeet (c a) n (c b) m

/-! ## The save store as bytes (11 Table SPT-1, Table SPT-2; 16 Table ADM-7; 20 R515) -/

/-- A window entry's 4,128 bytes. -/
def WinEntry.encode (e : WinEntry) : Nat :=
  layout [(0, 8, e.lba), (8, 1, e.nsid), (9, 1, 1), (12, 4, e.seq), (16, 4112, e.block)]

/-- Byte `o` of the save store; a byte that nothing has written reads 0. -/
def State.storeByte (s : State) (o : Nat) : Nat :=
  if o < 0x800000 then bytesAt (SMap.get s.spt.journal 0 (o / 64)) (o % 64) 1
  else if o < 0x1800000 then
    (match SMap.look s.spt.window ((o - 0x800000) / 4128) with
    | some e => bytesAt e.encode ((o - 0x800000) % 4128) 1
    | none => 0)
  else if o < 0x1EF0000 then SMap.get s.spt.metaBytes 0 (o - 0x1800000) % 256
  else if o < 0x1F00000 then bytesAt s.delPage (o - 0x1EF0000) 1
  else (match SMap.look s.evr.tail ((o - 0x1F00000) / 64) with
    | some r => bytesAt r.encode (o % 64) 1
    | none => 0)

/-- A byte of the TCM. -/
def State.tcmByte (s : State) (o : Nat) : Nat := (SMap.get s.core.tcm 0 o).toNat

/-- `n` bytes from `o`, little-endian, of a memory given byte by byte. -/
def byteRun (g : Nat → Nat) (o : Nat) : Nat → Nat
  | 0 => 0
  | n + 1 => g o + 256 * byteRun g (o + 1) n

/-! ## Errors -/

/-- Of `n` bytes from `a` in units of `w` bytes, how many lie ahead of the first unit that is bad. -/
def goodBytes (bad : Nat → Bool) (a n w : Nat) : Nat :=
  match ((List.range ((a + n - 1) / w + 1 - a / w)).map (a / w + ·)).find? bad with
  | some b => if n = 0 then 0 else w * b - a
  | none => n

/-- A burst is uncorrectable. -/
def State.burstBad (s : State) (b : Nat) : Bool := rsDecode (s.burstErr b) == .bad

/-- The words of a SECDED instance that `n` bytes from `o` touch, read in order; an uncorrectable one in the save store or
the TCM is a fatal machine check (12 R318, 21 Table FLT-3). -/
def State.wordsRead (s : State) (inst o n : Nat) : State :=
  s.each (if n = 0 then [] else (List.range ((o + n - 1) / 8 + 1 - o / 8)).map (o / 8 + ·)) (fun s k =>
    let r := s.sramRead inst k
    if r.1 then r.2 else r.2.fatal Reg.SYS_RST_CAUSE_LOCKSTEP true false)

/-- A read of `n` bytes: how many bytes were read ahead of an error, their value, and the state. The charge is
class OTHER's (R344). -/
def State.busRead (s : State) (a n : Nat) : Nat × Nat × State :=
  match placeOf a with
  | some (.buffer b) =>
    if s.hbmUp then
      let g := goodBytes s.burstBad b n 32
      let r := (s.charge 4 (burstsOf b n).length).readBursts (burstsOf b (if g < n then g + 1 else n))
      (g, r.2.loadMem b g, r.2)
    else (0, 0, s)
  | some (.tcm o) =>
    let g := goodBytes (fun k => decide (1 < s.sramFlips 35 k)) o n 8
    (g, byteRun s.tcmByte o g, s.wordsRead 35 o (if g < n then g + 1 else n))
  | some (.store o) =>
    let g := goodBytes (fun k => decide (1 < s.sramFlips 24 k)) o n 8
    (g, byteRun s.storeByte o g, s.wordsRead 24 o (if g < n then g + 1 else n))
  | none => (0, 0, s)

/-- `n` bytes of a little-endian number put into a byte table. -/
def putRun (m : SMap Nat) (o v : Nat) : Nat → SMap Nat
  | 0 => m
  | n + 1 => putRun (SMap.put m 0 o (v % 256)) (o + 1) (v / 256) n

/-- A write of `n` bytes, as part of a contiguous stretch of buffer bytes from `lo` up to `hi`: a burst that lies in the
stretch is replaced whole (R345), any other merges into the corrected burst (12 R313). How many bytes were written ahead
of an error, and the state. -/
def State.busWrite (s : State) (a v n lo hi : Nat) : Nat × State :=
  match placeOf a with
  | some (.buffer b) =>
    if s.hbmUp then
      let whole := fun (k : Nat) => decide (lo ≤ 32 * k) && decide (32 * k + 32 ≤ hi)
      let g := goodBytes (fun k => !whole k && s.burstBad k) b n 32
      let s := s.each (burstsOf b (if g < n then g + 1 else n)) (fun s k =>
        if whole k then (s.setChk (SMap.put s.chk 0 k 0)) else (s.readBurst k).2)
      (g, s.storeMem b v g)
    else (0, s)
  | some (.tcm o) =>
    let part := fun (k : Nat) => !(decide (o ≤ 8 * k) && decide (8 * k + 8 ≤ o + n))
    let g := goodBytes (fun k => part k && decide (1 < s.sramFlips 35 k)) o n 8
    let ks := if n = 0 then [] else (List.range ((o + n - 1) / 8 + 1 - o / 8)).map (o / 8 + ·)
    let s := s.each ks (fun s k => if part k then s.wordsRead 35 (8 * k) 1 else s.sramRewrite 35 k)
    (g, s.modCore (fun c => { c with tcm := Mem.store c.tcm o v g }))
  | some (.store o) =>
    (n, if s.spt.frozenMeta then s
      else s.modSpt (fun p => { p with metaBytes := putRun p.metaBytes (o - 0x1800000) v n }))
  | none => (0, s)

end Sys2Proof.Machine
end

