-- ==== Sys2Proof/Machine/Cores.lean ====
section
/-! DEFINITION. Cores, caches and DMA (13): release of the application cores, whole-L1 invalidations, the L2 with its
eviction buffer, parity and maintenance, and the DMA channels. -/

namespace Sys2Proof.Machine

/-- A rejection of the CCH block (Table CPU-5) and of the DMA block (Table CPU-8). -/
def State.cchReject (s : State) (c : Nat) : State := s.reject Reg.CCH_CFG_STATUS_ERR Reg.CCH_CFG_STATUS_CODE c
def State.dmaReject (s : State) (c : Nat) : State := s.reject Reg.DMA_CFG_STATUS_ERR Reg.DMA_CFG_STATUS_CODE c

/-! ## Cores and L1 (R327, R331, R332) -/

/-- A write of CCH_CORE_CTL: the cores whose bit rises are checked, then released; a core whose bit is clear is held. -/
def State.coreCtl (s : State) (v : Nat) : State :=
  let run := v % 16
  let old := s.get Reg.CCH_CORE_CTL_RUN
  let up := (List.range 4).filter (fun n => hasBit run n && !hasBit old n)
  if !up.isEmpty && (s.flag Reg.CCH_STATUS_INIT_BUSY || up.any (fun n => !s.domOn (84 + n))) then s.cchReject 5
  else (s.put Reg.CCH_CORE_CTL_RUN run).put Reg.CCH_STATUS_RUNNING
    (up.foldl setBit (s.get Reg.CCH_STATUS_RUNNING &&& run))

/-- CORE_RELEASE (R327). -/
def execCoreRelease (value : Word) (s : State) : Res := .next (s.coreCtl value.toNat)

/-- The bit of an L1 in the masks: 2 × core, plus 1 for the L1-I. -/
def l1Bit (core : Nat) (inst : Bool) : Nat := 2 * core + b2n inst
/-- The key of an L1 line. -/
def l1Key (core : Nat) (inst : Bool) (line : Nat) : Nat := l1Bit core inst * 2 ^ 30 + line

/-- The L1 is enabled now. -/
def State.l1En (s : State) (core : Nat) (inst : Bool) : Bool := hasBit s.core.l1On (l1Bit core inst)

/-- A write of CCH_L1_CTL_n: a disable takes effect at once, an enable once no whole invalidation runs (R332). -/
def State.l1Ctl (s : State) (n v : Nat) : State :=
  let s := (s.put (Reg.CCH_L1_CTL_DEN n) (bit v 1)).put (Reg.CCH_L1_CTL_IEN n) (bit v 0)
  let inv := putBit (putBit s.core.l1Inv (l1Bit n false) (hasBit v 9 || hasBit s.core.l1Inv (l1Bit n false)))
    (l1Bit n true) (hasBit v 8 || hasBit s.core.l1Inv (l1Bit n true))
  let busy := hasBit inv (l1Bit n false) || hasBit inv (l1Bit n true)
  let on := putBit (putBit s.core.l1On (l1Bit n false) (hasBit v 1 && (!busy || s.l1En n false)))
    (l1Bit n true) (hasBit v 0 && (!busy || s.l1En n true))
  (s.putB (Reg.CCH_L1_CTL_INV_BUSY n) busy).modCore (fun c => { c with l1Inv := inv, l1On := on })

/-- L1_INVALIDATE (R332): a write of CCH_L1_CTL_n. -/
def execL1Invalidate (core : Fin 4) (value : Word) (s : State) : Res := .next (s.l1Ctl core.val value.toNat)

/-- The mask of undefined L1s once the running whole invalidations of core `n` have ended. -/
def Cores.junkAfter (c : Cores) (n : Nat) : Nat :=
  [l1Bit n false, l1Bit n true].foldl (fun m b => if hasBit c.l1Inv b then clrBit m b else m) c.l1Junk

/-- L1_INVALIDATE_DONE (R332): the lines are gone, and enables that waited take effect. -/
def execL1InvalidateDone (core : Fin 4) (s : State) : Res :=
  let n := core.val
  .next (if s.flag (Reg.CCH_L1_CTL_INV_BUSY n) then
      (s.put (Reg.CCH_L1_CTL_INV_BUSY n) 0).modCore (fun c => { c with
        l1 := SMap.keep c.l1 (fun k => !(k / 2 ^ 31 == n && hasBit c.l1Inv (k / 2 ^ 30)))
        l1Junk := c.junkAfter n
        l1Inv := clrBit (clrBit c.l1Inv (l1Bit n false)) (l1Bit n true)
        l1On := putBit (putBit c.l1On (l1Bit n false) (s.flag (Reg.CCH_L1_CTL_DEN n))) (l1Bit n true)
          (s.flag (Reg.CCH_L1_CTL_IEN n)) })
    else s)

/-- A line leaves every enabled L1-D but that of `keep` (R331, R332). -/
def State.l1Drop (s : State) (line : Nat) (keep : Option Nat) : State :=
  s.modCore (fun c => { c with l1 := SMap.keep c.l1 (fun k =>
    !((List.range 4).any (fun n => some n != keep && k == l1Key n false line && hasBit c.l1On (l1Bit n false)))) })

/-- The SRAM instance of an L1 (12 Table BUF-4). -/
def l1Inst (core : Nat) (inst : Bool) : Nat := 27 + 2 * core + b2n (!inst)

/-- A line written to a place of an L1, in its SRAM and in the table of its lines. -/
def State.l1Put (s : State) (core : Nat) (inst : Bool) (line data pos : Nat) (word : Nat → Bool) : State :=
  (s.sramWritten (l1Inst core inst) (fun w => w / 8 == pos && word (w % 8))).modCore (fun c => { c with
    l1 := SMap.set c.l1 (l1Key core inst line) ⟨data, pos⟩ })

/-- A line enters an enabled L1, in a place that the spec does not name: an empty one, or, of a full L1, that of a line
which leaves it. -/
def State.l1Fill (s : State) (core : Nat) (inst : Bool) (line data : Nat) : State :=
  if s.l1En core inst then
    match SMap.look s.core.l1 (l1Key core inst line) with
    | some x => s.l1Put core inst line data x.pos (fun _ => true)
    | none =>
      let used := (s.core.l1.filter (fun e => e.1 / 2 ^ 30 == l1Bit core inst)).map (fun e => e.2.pos)
      let empty := (List.range 1024).filter (fun p => !used.contains p)
      let places := if empty.isEmpty then used else empty
      let pos := places.getD (Config.freeValue s.free % places.length) 0
      let s := (s.draw 1).modCore (fun c => { c with
        l1 := c.l1.filter (fun e => !(e.1 / 2 ^ 30 == l1Bit core inst && e.2.pos == pos)) })
      s.l1Put core inst line data pos (fun _ => true)
  else s

/-- What a load or fetch finds in an enabled L1: the 64 bytes of its line. An uncorrectable word invalidates the line, which
is then fetched from the L2 (R333); an L1 whose contents are undefined (02 R54) may hit with any bytes. -/
def State.l1Read (s : State) (core : Nat) (inst : Bool) (line off : Nat) : Option Nat × State :=
  if !s.l1En core inst then (none, s)
  else match SMap.look s.core.l1 (l1Key core inst line) with
    | some x =>
      let r := s.sramRead (l1Inst core inst) (8 * x.pos + off / 8 % 8)
      if r.1 then (some x.data, r.2)
      else (none, r.2.modCore (fun c => { c with l1 := SMap.del c.l1 (l1Key core inst line) }))
    | none =>
      if hasBit s.core.l1Junk (l1Bit core inst) then
        (if Config.freeUp s.free then some (Config.freeValue (s.free + 1) % 2 ^ 512) else none, s.draw 2)
      else (none, s)

/-- A store of `n` bytes at `off` updates the line of an enabled L1-D that holds it, which then stands as the L2's bytes `d`
(R331): a word written in part is read first, and where it is uncorrectable the line is refetched whole (R333). -/
def State.l1Store (s : State) (core line off n d : Nat) : State :=
  match s.l1En core false, SMap.look s.core.l1 (l1Key core false line) with
  | true, some x =>
    let touched := fun (w : Nat) => decide (8 * w < off + n) && decide (off < 8 * w + 8)
    let whole := fun (w : Nat) => decide (off ≤ 8 * w) && decide (8 * w + 8 ≤ off + n)
    let r := s.sramReadAll (l1Inst core false)
      (((List.range 8).filter (fun w => touched w && !whole w)).map (8 * x.pos + ·))
    r.2.l1Put core false line d x.pos (fun w => !r.1 || touched w)
  | _, _ => s

/-! ## L2 lines and parity (R334, R336) -/

/-- The set of a line. -/
def l2Set (line : Nat) : Nat := line % 8192

/-- The line of a key. -/
def State.l2At (s : State) (k : Nat) : Option L2Line := SMap.look s.core.l2 k

/-- Where a line is held, among the 16 ways of its set. -/
def State.l2Find (s : State) (line : Nat) : Option Nat :=
  ((List.range 16).map (16 * l2Set line + ·)).find? (fun k => match s.l2At k with
    | some l => l.line == line
    | none => false)

/-- A stored word of a parity instance fails its check: an odd number of its bits is inverted. -/
def State.parityBad (s : State) (inst word : Nat) : Bool := s.sramFlips inst word % 2 == 1

/-- The tag of a position fails. -/
def State.tagBad (s : State) (k : Nat) : Bool := s.parityBad 26 k

/-- A data word of a position fails. -/
def State.dataBad (s : State) (k : Nat) : Bool := (List.range 8).any (fun w => s.parityBad 25 (8 * k + w))

/-- The stored words of a position are rewritten. -/
def State.l2Rewrite (s : State) (k : Nat) : State :=
  (s.setBuf { s.buf with flips := SMap.keep s.buf.flips (fun x =>
      x != sramKey 26 k && !(x / 2 ^ 22 == 25 && x % 2 ^ 22 / 8 == k)) })

/-- The 64 bytes that a position yields: an even number of inverted bits in a word passes its parity. -/
def State.l2Data (s : State) (k : Nat) (l : L2Line) : Nat :=
  l.data ^^^ (List.range 8).foldl (fun v w =>
    v + SMap.get s.buf.flips 0 (sramKey 25 (8 * k + w)) % 2 ^ 64 * 2 ^ (64 * w)) 0

/-- A position written. -/
def State.l2Put (s : State) (k : Nat) (l : L2Line) : State :=
  (s.l2Rewrite k).modCore (fun c => { c with l2 := SMap.set c.l2 k l })

/-- A position becomes invalid, with the L1-D copies of its line (R331). -/
def State.l2Drop (s : State) (k : Nat) : State :=
  match s.l2At k with
  | some l => ((s.l2Rewrite k).modCore (fun c => { c with l2 := SMap.del c.l2 k })).l1Drop l.line none
  | none => s

/-- The buffer address of a line of the cacheable range. -/
def lineAddr (line : Nat) : Nat := 64 * line - 0x400000000

/-- A fatal error of the L2: it reports as LOCKSTEP (R336, 21 R533). -/
def State.l2Fatal (s : State) : State := s.fatal Reg.SYS_RST_CAUSE_LOCKSTEP true false

/-- A clean line with a bad data word is invalidated and refetched (R336); a refetch that meets an uncorrectable burst
leaves no line (R337). -/
def State.l2Refetch (s : State) (k : Nat) (l : L2Line) : State :=
  let s := (s.l2Drop k).inc Reg.CCH_L2_REFETCH_COUNT
  let s := if s.flag Reg.CCH_L2_ERR_VALID then s
    else (s.put Reg.CCH_L2_ERR_VALID 1).put Reg.CCH_L2_ERR_LINE l.line
  let r := s.bufRead 4 (lineAddr l.line) 64
  match r.1 with
  | some v => r.2.l2Put k ⟨l.line, false, v⟩
  | none => r.2.raise 0x0801 0

/-- The parity of a valid position is checked: fatal for its tag or a dirty line's data, a refetch for a clean one's. -/
def State.l2Check (s : State) (k : Nat) : State :=
  if s.tagBad k then s.l2Fatal
  else match s.l2At k with
    | some l => if s.dataBad k then (if l.dirty then s.l2Fatal else s.l2Refetch k l) else s
    | none => s

/-! ## Accesses through the L2 (R331, R334, R337, R338) -/

/-- A line is in the eviction buffer. -/
def State.evicting (s : State) (line : Nat) : Option Nat := (s.core.evict.find? (fun e => e.1 == line)).map Prod.snd

/-- What an access does once the line stands at position `k`: a store makes it dirty, goes to an L1-D that holds it and
leaves the others; a load or fetch enters the core's L1. -/
def State.l2Serve (s : State) (core k line : Nat) (fetch : Bool) (store : Option (Nat × Nat)) (off : Nat) : State :=
  match s.l2At k with
  | none => s
  | some l =>
    let d := s.l2Data k l
    match store with
    | some (n, v) =>
      let d := putBytes d off n v
      let s := (s.l2Put k ⟨line, true, d⟩).l1Drop line (some core)
      (s.l1Store core line off n d).answer .none
    | none => (s.l1Fill core fetch line d).answer (.block 64 d)

/-- An access that misses: the victim of way `way` is evicted, dirty data into the eviction buffer, and the line filled;
an uncorrectable burst allocates nothing and ends the access with an abort. It waits while the eviction buffer is full. -/
def State.l2Miss (s : State) (core line way : Nat) (fetch : Bool) (store : Option (Nat × Nat)) (off : Nat) : State :=
  let k := 16 * l2Set line + way
  let victim := s.l2At k
  let dirty := match victim with | some l => l.dirty | none => false
  if dirty && s.dataBad k then s.l2Fatal
  else if dirty && decide (16 ≤ s.core.evict.length) then s
  else
    let r := s.bufRead 4 (lineAddr line) 64
    match r.1 with
    | none => (r.2.raise 0x0801 core).answer .busError
    | some v =>
      let t := match victim with
        | some l => (if l.dirty then r.2.modCore (fun c => { c with evict := c.evict ++ [(l.line, s.l2Data k l)] })
            else r.2).l2Drop k
        | none => r.2
      (t.l2Put k ⟨line, false, v⟩).l2Serve core k line fetch store off

/-- An access of a running core reaches the L2. -/
def State.l2Access (s : State) (core : Fin 4) (addr : Nat) (fetch : Bool) (way : Fin 16) (store : Option (Nat × Nat)) : State :=
  let line := addr / 64
  if (List.range 16).any (fun w => s.tagBad (16 * l2Set line + w)) then s.l2Fatal
  else match s.evicting line with
    | some d => if store.isSome then s else (s.l1Fill core.val fetch line d).answer (.block 64 d)
    | none =>
      match s.l2Find line with
      | some k =>
        if s.dataBad k then
          (match s.l2At k with
          | some l =>
            if l.dirty then s.l2Fatal
            else
              let t := s.l2Refetch k l
              if (t.l2At k).isSome then t.l2Serve core.val k line fetch store (addr % 64) else t.answer .busError
          | none => s)
        else s.l2Serve core.val k line fetch store (addr % 64)
      | none => s.l2Miss core.val line way.val fetch store (addr % 64)

/-- L2_FILL (R331 to R338): a cacheable access of a running core at address `addr`: a load, an instruction fetch, or a store
of the bytes `store` (length and value) within its line. What an enabled L1 holds is served from it; all else, and every
store, goes to the L2, where `way` is the pseudo-LRU victim. -/
def execL2Fill (core : Fin 4) (addr : Nat) (fetch : Bool) (way : Fin 16) (store : Option (Nat × Nat)) (s : State) : Res :=
  let fits := match store with | some (n, _) => decide (addr % 64 + n ≤ 64) | none => true
  .next (if !hasBit (s.get Reg.CCH_STATUS_RUNNING) core.val || !s.clkOk 27 || !s.domOn 93 || s.flag Reg.CCH_STATUS_INIT_BUSY || !fits ||
      addr < 0x400000000 || 0x800000000 ≤ addr then s
    else if store.isSome then s.l2Access core addr fetch way store
    else
      let r := s.l1Read core.val fetch (addr / 64) (addr % 64)
      match r.1 with
      | some d => r.2.answer (.block 64 d)
      | none => r.2.l2Access core addr fetch way store)

/-- L2_EVICTION_WRITEBACK (R338): the buffer manager accepts the oldest evicted line. -/
def execL2EvictionWriteback (s : State) : Res :=
  .next (match s.core.evict with
    | (line, d) :: r =>
      if s.clkOk 27 && s.hbmUp then ((s.bufWrite 4 (lineAddr line) d 64).2).modCore (fun c => { c with evict := r }) else s
    | [] => s)

/-! ## Maintenance (R340 to R343) -/

/-- The address of CCH_MNT_ADDR as a line number, and the first position of CCH_MNT_SETWAY. -/
def State.mntLine (s : State) (r : Nat) : Nat := s.get (Reg.CCH_MNT_ADDR_LO_ADDR r) + 2 ^ 26 * s.get (Reg.CCH_MNT_ADDR_HI_ADDR r)
def State.mntPos (s : State) (r : Nat) : Nat := 16 * s.get (Reg.CCH_MNT_SETWAY_SET r) + s.get (Reg.CCH_MNT_SETWAY_WAY r)

/-- The code that refuses GO (R343), 0 where none does. -/
def State.mntCheck (s : State) (r op target : Nat) (byWay : Bool) : Nat :=
  let len := s.get (Reg.CCH_MNT_LEN_COUNT r)
  if len = 0 then 1
  else if op = 0 ∨ 2 ≤ target ∨ (target = 1 ∧ (byWay ∨ r = 4 ∨ op ≠ 2)) ∨ (if byWay then 131072 else 268435456) < len then 2
  else if (if byWay then 131072 < s.mntPos r + len
      else s.mntLine r < 0x10000000 ∨ 0x20000000 < s.mntLine r + len) then 3
  else if s.flag (Reg.CCH_MNT_CTL_BUSY r) then 4
  else if s.flag Reg.CCH_STATUS_INIT_BUSY ∨ s.domOn 93 = false then 5
  else 0

/-- Element `i` of an operation reached at an L2 position: cleaned, invalidated, or both (Table CPU-2). -/
def State.mntAt (s : State) (op k : Nat) : State :=
  if s.tagBad k then s.l2Fatal
  else match s.l2At k with
    | none => s
    | some l =>
      if l.dirty && op != 2 then
        (if s.dataBad k then s.l2Fatal
         else
          let t := (s.bufWrite 4 (lineAddr l.line) (s.l2Data k l) 64).2
          if op = 1 then t.l2Put k { l with dirty := false, data := s.l2Data k l } else t.l2Drop k)
      else if op = 1 then s
      else s.l2Drop k

/-- The L2 positions that elements `lo` to `hi − 1` of an operation reach. -/
def State.mntPositions (s : State) (m : MntOp) (lo hi : Nat) : List Nat :=
  if m.byWay then (List.range (hi - lo)).map (fun i => m.first + lo + i)
  else (s.core.l2.filter (fun e => decide (m.first + lo ≤ e.2.line) && decide (e.2.line < m.first + hi))).map Prod.fst

/-- Elements `lo` to `hi − 1` of the operation of requester `r` are processed. -/
def State.mntRun (s : State) (r : Nat) (m : MntOp) (lo hi : Nat) : State :=
  if m.target = 1 then
    s.modCore (fun c => { c with l1 := SMap.keep c.l1 (fun k =>
      !(decide (l1Key r true (m.first + lo) ≤ k) && decide (k < l1Key r true (m.first + hi)))) })
  else s.each (s.mntPositions m lo hi) (fun s k => s.mntAt m.op k)

/-- An element of the operation lies in the eviction buffer: the operation waits there (R338). -/
def State.mntBlocked (s : State) (m : MntOp) : Bool :=
  m.target == 0 && !m.byWay && s.core.evict.any (fun e => decide (m.first + m.done ≤ e.1) && decide (e.1 < m.first + m.len))

/-- A write of CCH_MNT_CTL_r. An accepted GO begins the operation; how many of its elements have been processed by the
time the write completes is a free value, the rest at its end (R341, R342). -/
def State.mntCtl (s : State) (r v : Nat) : State :=
  let op := bits v 2 1; let target := bits v 5 4; let byWay := hasBit v 3
  let set := fun (s : State) => ((s.when (hasBit v 30) (·.put (Reg.CCH_MNT_CTL_DONE r) 0)).put (Reg.CCH_MNT_CTL_TARGET r)
    target).put (Reg.CCH_MNT_CTL_BY r) (b2n byWay) |>.put (Reg.CCH_MNT_CTL_OP r) op
  if !hasBit v 0 then set s
  else
    let c := s.mntCheck r op target byWay
    if c ≠ 0 then s.cchReject c
    else
      let s := ((set s).put (Reg.CCH_MNT_CTL_DONE r) 0).put (Reg.CCH_MNT_CTL_BUSY r) 1
      let len := s.get (Reg.CCH_MNT_LEN_COUNT r)
      let m : MntOp := ⟨op, target, byWay, if byWay then s.mntPos r else s.mntLine r, len, 0⟩
      let n := if s.mntBlocked m then 0 else Config.freeValue s.free % (len + 1)
      let s := (s.draw 1).modCore (fun c => { c with mnt := SMap.set c.mnt r { m with done := n } })
      s.mntRun r m 0 n

/-- CCH_MNT_CTL as a GO of an operation writes it. -/
def mntGo (op target : Nat) (byWay : Bool) : Nat := 16 * target + 8 * b2n byWay + 2 * op + 1

/-- CACHE_CLEAN (R341): OP 1. -/
def execCacheClean (req : Fin 5) (target : Fin 4) (byWay : Bool) (s : State) : Res :=
  .next (s.mntCtl req.val (mntGo 1 target.val byWay))

/-- CACHE_INVALIDATE (R341): OP 2. -/
def execCacheInvalidate (req : Fin 5) (target : Fin 4) (byWay : Bool) (s : State) : Res :=
  .next (s.mntCtl req.val (mntGo 2 target.val byWay))

/-- CACHE_CLEAN_INVALIDATE (R341): OP 3. -/
def execCacheCleanInvalidate (req : Fin 5) (target : Fin 4) (byWay : Bool) (s : State) : Res :=
  .next (s.mntCtl req.val (mntGo 3 target.val byWay))

/-- MAINTENANCE_DONE (R341): the last line has been processed and every write-back accepted. Where a fatal error has reset
the device on the way, no operation is left to end. -/
def execMaintenanceDone (req : Fin 5) (s : State) : Res :=
  let r := req.val
  .next (match SMap.look s.core.mnt r with
    | some m =>
      if s.mntBlocked m then s
      else
        let t := s.mntRun r m m.done m.len
        if (SMap.look t.core.mnt r).isNone then t
        else ((t.modCore (fun c => { c with mnt := SMap.del c.mnt r })).put (Reg.CCH_MNT_CTL_BUSY r) 0).put
          (Reg.CCH_MNT_CTL_DONE r) 1
    | none => s)

/-- A write of CCH_SWEEP (R339). -/
def State.l2SweepCtl (s : State) (v : Nat) : State :=
  if hasBit v 0 && s.flag Reg.CCH_SWEEP_BUSY then s.cchReject 4
  else
    let s := s.when (hasBit v 30) (·.put Reg.CCH_SWEEP_DONE 0)
    s.when (hasBit v 0) (·.put Reg.CCH_SWEEP_BUSY 1)

/-- L2_SWEEP (R339): a write of CCH_SWEEP.GO. -/
def execL2Sweep (s : State) : Res := .next (s.l2SweepCtl 1)

/-- The positions with an inverted bit in a tag or data word. -/
def State.l2Flipped (s : State) : List Nat :=
  (SMap.keys s.buf.flips).filterMap (fun x =>
    if x / 2 ^ 22 = 26 then some (x % 2 ^ 22) else if x / 2 ^ 22 = 25 then some (x % 2 ^ 22 / 8) else none)

/-- L2_SWEEP_DONE (R336, R339): every tag and data word has been read. -/
def execL2SweepDone (s : State) : Res :=
  .next (if s.flag Reg.CCH_SWEEP_BUSY then
      ((s.put Reg.CCH_SWEEP_BUSY 0).put Reg.CCH_SWEEP_DONE 1).each s.l2Flipped State.l2Check
    else s)

/-! ## DMA descriptors (Table CPU-3) -/

def dSrc (d : Nat) : Nat := bytesAt d 0 8
def dDst (d : Nat) : Nat := bytesAt d 8 8
def dLen (d : Nat) : Nat := bits (bytesAt d 0x10 4) 23 0
def dCount (d : Nat) : Nat := bytesAt d 0x14 2
def dLast (d : Nat) : Bool := hasBit (bytesAt d 0x16 2) 0
def dIrq (d : Nat) : Bool := hasBit (bytesAt d 0x16 2) 1
def dFill (d : Nat) : Bool := hasBit (bytesAt d 0x16 2) 2
def dSStride (d : Nat) : Int := toSigned 32 (bytesAt d 0x18 4)
def dDStride (d : Nat) : Int := toSigned 32 (bytesAt d 0x1C 4)
def dNext (d : Nat) : Nat := bytesAt d 0x20 8
def dPattern (d : Nat) : Nat := bytesAt d 0x28 8
def dTag (d : Nat) : Nat := bytesAt d 0x30 4

/-- Line `i` of a side. -/
def dLine (base : Nat) (stride : Int) (i : Nat) : Int := (base : Int) + i * stride

/-- A reserved bit of a descriptor is set. -/
def dReserved (d : Nat) : Bool :=
  decide (2 ^ 36 ≤ dSrc d) || decide (2 ^ 36 ≤ dDst d) || bytesAt d 0x13 1 != 0 || decide (8 ≤ bytesAt d 0x16 2) ||
    dNext d % 64 != 0 || decide (2 ^ 36 ≤ dNext d) || bytesAt d 0x38 8 != 0

/-- The first and the last line of a side lie in one range that permits the access. -/
def dSideOk (d : Nat) (write : Bool) (base : Nat) (stride : Int) : Bool :=
  dmaRanges.any (fun r => inRange r write (dLine base stride 0) (dLen d) &&
    inRange r write (dLine base stride (dCount d - 1)) (dLen d))

/-- The code that rejects a descriptor (R346), 0 where none does. -/
def dCheck (d : Nat) : Nat :=
  if dLen d = 0 ∨ dCount d = 0 then 1
  else if dReserved d then 2
  else if !(dFill d || dSideOk d false (dSrc d) (dSStride d)) || !dSideOk d true (dDst d) (dDStride d) then 3
  else if !dLast d && !busOk false (dNext d) 64 then 4
  else 0

/-! ## DMA channels (R344 to R350) -/

/-- A channel that runs leaves RUN for DONE (3) or ERROR (4); after a device reset none runs. -/
def State.dmaEnd (s : State) (c st code : Nat) : State :=
  if !s.flag (Reg.DMA_CH_CTL_EN c) then s else
  let s := ((s.put (Reg.DMA_CH_STATUS_STATE c) st).put (Reg.DMA_CH_STATUS_CODE c) code).put (Reg.DMA_CH_CTL_EN c) 0
  (s.clrBitOf Reg.DMA_STATUS_ACTIVE c).modCore (fun k => { k with dma := SMap.del k.dma c })

/-- STATUS of the descriptor at `a` written; false where the memory there may not be written. -/
def State.dmaStatus (s : State) (a v : Nat) : Bool × State :=
  if busOk true (a + 0x34) 4 then
    let r := s.busWrite (a + 0x34) v 4 0 0
    (r.1 == 4, r.2)
  else (false, s)

/-- The descriptor at `a` is fetched, checked in full, and becomes the one in progress (R346, R349). -/
def State.dmaFetch (s : State) (c a : Nat) : State :=
  let s := (s.put (Reg.DMA_CH_CUR_LO_ADDR c) (a / 64)).put (Reg.DMA_CH_CUR_HI_ADDR c) (a / 2 ^ 32)
  if !busOk false a 64 then s.dmaEnd c 4 4
  else
    let r := s.busRead a 64
    if r.1 < 64 then r.2.2.dmaEnd c 4 6
    else
      let d := r.2.1
      let k := dCheck d
      if k ≠ 0 then ((r.2.2.dmaStatus a k).2).dmaEnd c 4 k
      else (r.2.2.put (Reg.DMA_CH_REMAIN_LINES c) (dCount d)).modCore (fun x => { x with dma := SMap.set x.dma c (a, d) })

/-- DMA_START (R344, R346): a write of DMA_CH_CTL_c.EN = 1. -/
def State.dmaStart (s : State) (c : Nat) : State :=
  if s.get (Reg.DMA_CH_STATUS_STATE c) = 1 then s
  else if s.get (Reg.DMA_CH_STATUS_STATE c) = 2 then s.dmaReject 4
  else if !s.domOn 91 then s.dmaReject 5
  else
    let t := ((s.put (Reg.DMA_CH_CTL_EN c) 1).put (Reg.DMA_CH_STATUS_STATE c) 1).setBitOf Reg.DMA_STATUS_ACTIVE c
    let t := (t.put (Reg.DMA_CH_STATUS_DESCS c) 0).put (Reg.DMA_CH_STATUS_CODE c) 0
    t.dmaFetch c (64 * s.get (Reg.DMA_CH_DESC_LO_ADDR c) + 2 ^ 32 * s.get (Reg.DMA_CH_DESC_HI_ADDR c))

def execDmaStart (ch : Fin 32) (s : State) : Res := .next (s.dmaStart ch.val)

/-- Byte `b` of the line at `dst` is also a source byte of line `i` or a later one (R345). -/
def dOverlaps (d i a n : Nat) : Bool :=
  !dFill d && (List.range (dCount d - i)).any (fun j =>
    sameBytes a n (dLine (dSrc d) (dSStride d) (i + j)).toNat (dLen d))

/-- The bytes a line is to write: where a destination byte is a source byte of the same or a later line its content is
undefined, a free value (R345). -/
def dBytes (d i dst v free : Nat) : Nat :=
  if dOverlaps d i dst (dLen d) then
    (List.range (dLen d)).foldl (fun x b =>
      x + (if dOverlaps d i (dst + b) 1 then Config.freeValue (free + b) % 256 else bytesAt v b 1) * 256 ^ b) 0
  else v

/-- The contiguous stretch of buffer bytes that the line at `dst` belongs to (R345). -/
def dStretch (d dst : Nat) : Nat × Nat :=
  let c := fun (x : Nat) => if 0x800000000 ≤ x then x - 0x800000000 else x - 0x400000000
  if dDStride d = dLen d then (c (dDst d), c (dDst d) + dLen d * dCount d) else (c dst, c dst + dLen d)

/-- `n` bytes of the pattern, from its first byte. -/
def dPatternRun (d n : Nat) : Nat := byteRun (fun b => bytesAt (dPattern d) (b % 8) 1) 0 n

/-- Line `i` moves: false where it met an error, at that byte (R345, R349). -/
def State.dmaLine (s : State) (d i : Nat) : Bool × State :=
  let n := dLen d
  let dst := (dLine (dDst d) (dDStride d) i).toNat
  let r := if dFill d then (n, dPatternRun d n, s) else s.busRead (dLine (dSrc d) (dSStride d) i).toNat n
  let v := dBytes d i dst r.2.1 s.free
  let st := dStretch d dst
  let w := (r.2.2.draw n).busWrite dst v r.1 st.1 st.2
  (r.1 == n && w.1 == n, w.2)

/-- Lines `i` on, `k` of them: how many moved whole. -/
def State.dmaLines (s : State) (d i : Nat) : Nat → Nat × State
  | 0 => (0, s)
  | k + 1 =>
    let r := s.dmaLine d i
    if r.1 then
      let q := State.dmaLines r.2 d (i + 1) k
      (q.1 + 1, q.2)
    else (0, r.2)

/-- The charge of the writes of a descriptor: gathered bursts whole, partial ones double (R345, 12 R307). -/
def dCharge (d : Nat) : Nat :=
  if dDStride d = dLen d then writeCharge (dStretch d (dDst d)).1 (dLen d * dCount d)
  else (List.range (dCount d)).foldl (fun c i =>
    c + writeCharge (dStretch d (dLine (dDst d) (dDStride d) i).toNat).1 (dLen d)) 0

/-- The transfer of a descriptor: the lines that moved whole, and the state. -/
def State.dmaTransfer (s : State) (d : Nat) : Nat × State :=
  s.when (decide (0x400000000 ≤ dDst d)) (·.charge 4 (dCharge d)) |>.dmaLines d 0 (dCount d)

/-- The descriptor a channel works on, while the engine's clock runs (02 R43). -/
def State.dmaRun (s : State) (c : Nat) : Option (Nat × Nat) := if s.clkOk 31 then SMap.look s.core.dma c else none

/-- DMA_DESCRIPTOR_DONE (R347): the whole of the descriptor has been accepted; STATUS, TAG and the DMA_IRQ bit follow,
then DONE or the next descriptor. -/
def execDmaDescriptorDone (ch : Fin 32) (s : State) : Res :=
  let c := ch.val
  .next (match s.dmaRun c with
    | none => s
    | some (a, d) =>
      let r := s.dmaTransfer d
      if r.1 < dCount d then s
      else
        let q := r.2.dmaStatus a (2 ^ 31)
        if !q.1 then q.2.dmaEnd c 4 3
        else
          let t := (q.2.put (Reg.DMA_CH_TAG_TAG c) (dTag d)).inc (Reg.DMA_CH_STATUS_DESCS c)
          let t := t.put (Reg.DMA_CH_REMAIN_LINES c) 0
          let t := if dIrq d then
              let u := t.setBitOf Reg.DMA_IRQ_IRQ c
              if hasBit (t.get Reg.DMA_IRQ_EN_EN) c then u.emit (.rtInterrupt (0x100 + c)) else u
            else t
          if dLast d then t.dmaEnd c 3 0 else t.dmaFetch c (dNext d))

/-- DMA_TRANSFER_ERROR (R349): the transfer meets an uncorrectable burst or an SRAM error and stops at that byte. -/
def execDmaTransferError (ch : Fin 32) (s : State) : Res :=
  let c := ch.val
  .next (match s.dmaRun c with
    | none => s
    | some (a, d) =>
      let r := s.dmaTransfer d
      if dCount d ≤ r.1 then s
      else if !r.2.flag (Reg.DMA_CH_CTL_EN c) then r.2
      else
        let t := r.2.put (Reg.DMA_CH_REMAIN_LINES c) (dCount d - (r.1 + 1))
        ((t.dmaStatus a 5).2).dmaEnd c 4 5)

/-- A line of a dropped descriptor: each byte is old or new (R350). -/
def State.dmaMix (s : State) (c d i : Nat) : State :=
  if !s.flag (Reg.DMA_CH_CTL_EN c) then s else
  let n := dLen d
  let dst := (dLine (dDst d) (dDStride d) i).toNat
  let r := if dFill d then (n, dPatternRun d n, s) else s.busRead (dLine (dSrc d) (dSStride d) i).toNat n
  (List.range r.1).foldl (fun s b =>
    let t := s.draw 1
    if Config.freeUp s.free then (t.busWrite (dst + b) (bytesAt r.2.1 b 1) 1 0 0).2 else t) r.2.2

/-- DMA_DROP (R350): a write of EN = 0. In RUN the channel drains: what it had moved is a free choice of its bytes, and
DMA_CH_REMAIN and DMA_CH_CUR are undefined. -/
def State.dmaDrop (s : State) (c : Nat) : State :=
  match SMap.look s.core.dma c with
  | none => s.put (Reg.DMA_CH_CTL_EN c) 0
  | some (_, d) =>
    let s := s.each (List.range (dCount d)) (fun s i => s.dmaMix c d i)
    if !s.flag (Reg.DMA_CH_CTL_EN c) then s else
    let s := ((s.put (Reg.DMA_CH_CTL_EN c) 0).put (Reg.DMA_CH_STATUS_STATE c) 2).modCore (fun k =>
      { k with dma := SMap.del k.dma c })
    let s := (s.put (Reg.DMA_CH_CUR_LO_ADDR c) (Config.freeValue s.free)).put (Reg.DMA_CH_CUR_HI_ADDR c)
      (Config.freeValue (s.free + 1))
    (s.put (Reg.DMA_CH_REMAIN_LINES c) (Config.freeValue (s.free + 2))).draw 3

def execDmaDrop (ch : Fin 32) (s : State) : Res := .next (s.dmaDrop ch.val)

/-- DMA_DRAIN_DONE (R350): none of the channel's accesses remains; it reads IDLE. -/
def execDmaDrainDone (ch : Fin 32) (s : State) : Res :=
  let c := ch.val
  .next (if s.get (Reg.DMA_CH_STATUS_STATE c) = 2 then
      (s.put (Reg.DMA_CH_STATUS_STATE c) 0).clrBitOf Reg.DMA_STATUS_ACTIVE c
    else s)

/-! ## The request path of the key block (17 R453) -/

/-- SEC_REQUEST_DONE (17 R451, R453): the security command that the request carried has ended; its output replaces the
input at the request address, and SEC_REQ_RESULT takes its outcome. -/
def execSecRequestDone (s : State) : Res :=
  .next (match s.flag Reg.SEC_REQ_CTL_BUSY, s.sec.result with
    | true, some x =>
      let a := 64 * s.get Reg.SEC_REQ_LO_ADDR + 2 ^ 32 * s.get Reg.SEC_REQ_HI_ADDR + 64
      let s := (s.put Reg.SEC_REQ_RESULT_SC x.sc).put Reg.SEC_REQ_RESULT_REASON x.reason
      let s := ((s.put Reg.SEC_REQ_CTL_BUSY 0).put Reg.SEC_REQ_CTL_DONE 1).modSec (fun k => { k with result := none })
      if busOk true a x.len then (s.busWrite a x.data x.len 0 0).2 else s
    | _, _ => s)

end Sys2Proof.Machine
end

