-- ==== Sys2Proof/Machine/Domains.lean ====
section
/-! DEFINITION. Power domains (02 R49 to R56, R70), the clock monitor (02 R42 to R44) and the supplies (11 R286, R287;
01 R32): requests and their checks, ramps, power-downs, and what a domain loses when it goes off. -/

namespace Sys2Proof.Machine

/-- A rejection of the SYS block (Table PWR-17). -/
def State.sysReject (s : State) (c d : Nat) : State :=
  if s.flag Reg.SYS_CFG_STATUS_ERR then s
  else ((s.put Reg.SYS_CFG_STATUS_ERR 1).put Reg.SYS_CFG_STATUS_CODE c).put Reg.SYS_CFG_STATUS_DOMAIN d

/-! ## Requirements and idleness (Tables PWR-2, PWR-3) -/

/-- A lane of a ring port is in use: its segment is up or trains; at the muted rate only lane 0 (18 R466). -/
def State.ringLane (s : State) (p n : Nat) : Bool :=
  ((s.rport p).up || (s.rport p).retraining) && (n == 0 || !s.flag Reg.RING_STATUS_MUTED)

/-- The block of a domain is idle (R52). -/
def State.domIdle (s : State) (d : Nat) : Bool :=
  if d < 48 then (s.slot (d / 3)).mem.isNone
  else if d < 64 then (s.slot (d - 48)).mem.isNone && (s.slot (d - 48)).sects.isEmpty
  else if d < 72 then !s.hostLane ((d - 64) / 4) (d % 4)
  else if d < 80 then !s.ringLane ((d - 72) / 4) (d % 4)
  else if d < 84 then s.flag (Reg.FMT_STATUS_HALTED (d - 80)) && (s.fmt (d - 80)).cur.isEmpty
  else if d < 88 then !hasBit (s.get Reg.CCH_STATUS_RUNNING) (d - 84)
  else if d < 90 then true
  else if d = 90 then s.chd.ops.isEmpty && s.chd.reqs.isEmpty && s.chd.scans.isEmpty && s.chd.target.isNone
  else if d = 91 then s.get Reg.DMA_STATUS_ACTIVE == 0
  else if d = 92 then s.cmds.isEmpty && s.buf.raw == .idle && s.buf.ppr.isNone && !s.flag Reg.BUF_SCRUB_CTL_BUSY
  else if d = 93 then s.core.evict.isEmpty && s.core.mnt.isEmpty && !s.flag Reg.CCH_SWEEP_BUSY
  else !s.flag (Reg.HST_LINK_UP (d - 94))

/-! ## What a domain loses (R54) -/

/-- The register fields of addresses `lo` to `hi − 1` back at their reset values. -/
def State.clearRegs (s : State) (lo hi : Nat) : State :=
  s.setF (SMap.keep s.f (fun k => !(decide (lo ≤ k / 32) && decide (k / 32 < hi))))

/-- A slot without its formatter: its member is gone and its servo-only source ends. -/
def State.slotDown (s : State) (i : Nat) : State :=
  ((s.stopSlot i).when (s.slot i).mem.isSome (·.dropMember i)).endSrc i

/-- A domain that is off: its logic and registers are at their reset values, and what its SRAM holds when it is on again is
undefined: sample buffers, L1 lines and patch words are then free values (R54). Domain 92 off leaves the stack in self-refresh. -/
def State.domReset (s : State) (d : Nat) : State :=
  let s := (s.setBuf { s.buf with flips := SMap.keep s.buf.flips (fun k => match sramInstance (k / 2 ^ 22) with
    | some (_, _, some x) => x != d
    | _ => true) })
  if d < 48 then
    let a := 0x40A00000 + 0x10000 * (d / 3) + 4 * (d % 3)
    (s.clearRegs (a + 0x20) (a + 0x24)).clearRegs (a + 0x30) (a + 0x34)
  else if d < 64 then
    let i := d - 48
    let a := 0x40A00000 + 0x10000 * i
    (((s.discardSects i).modSlot i (fun x => { x with taps := [], samp := [], gen := x.gen + 1, fifo := [], fifoLatched := false })).clearRegs
      (a + 0x80) (a + 0xA0)).clearRegs (a + 0x100) (a + 0x200)
  else if d < 72 then s.when (s.flag (Reg.HST_LINK_UP ((d - 64) / 4))) (·.linkDown ((d - 64) / 4))
  else if d < 80 then s
  else if d < 84 then
    let a := d - 80
    let g := (s.fmt a).gen
    ((s.each (slotsOf a) State.slotDown).putFmt a { fmtInit with gen := g + 1 }).clearRegs (0x40C00000 + 0x40000 * a)
      (0x40C40000 + 0x40000 * a)
  else if d < 88 then
    let n := d - 84
    ((s.clrBitOf Reg.CCH_STATUS_RUNNING n).clearRegs (0x40500010 + 4 * n) (0x40500014 + 4 * n)).modCore (fun c => { c with
      l1 := SMap.keep c.l1 (fun k => k / 2 ^ 31 != n)
      l1Junk := setBit (setBit c.l1Junk (2 * n)) (2 * n + 1)
      l1On := clrBit (clrBit c.l1On (2 * n)) (2 * n + 1), l1Inv := clrBit (clrBit c.l1Inv (2 * n)) (2 * n + 1) })
  else if d < 90 then s
  else if d = 90 then
    let k := s.get Reg.CHD_K_LO_K; let h := s.get Reg.CHD_K_HI_K
    { ((s.clearRegs 0x40900000 0x40A00000).put Reg.CHD_K_LO_K k).put Reg.CHD_K_HI_K h with
      chd := { State.reset.chd with jid := s.chd.jid, lost := s.chd.lost, strips := s.chd.strips } }
  else if d = 91 then (s.clearRegs 0x40600000 0x40700000).modCore (fun c => { c with dma := [] })
  else if d = 92 then s.setBuf { s.buf with selfRef := true }
  else if d = 93 then
    let s := (s.each [0, 1, 2, 3, 4] (fun s r => s.put (Reg.CCH_MNT_CTL_BUSY r) 0)).modCore (fun c =>
      { c with l2 := [], evict := [], mnt := [] })
    (s.put Reg.CCH_SWEEP_BUSY 0).put Reg.CCH_STATUS_INIT_BUSY 0
  else
    let p := d - 94
    ((s.linkDown p).portReset p).clearRegs (0x40200000 + 0x40000 * p) (0x40200100 + 0x40000 * p)

/-! ## Requests (R52) -/

/-- The code that refuses domain `d` in a write that leaves the requests `after`, 0 where none does. -/
def State.domCheck (s : State) (after : Nat → Bool) (d : Nat) : Nat :=
  if after d == s.domWanted d then 0
  else if after d then
    if (match domRequires d with | some r => !s.domOn r && !after r | none => false) then 1
    else
      let act := if d < 48 then d / 12 else if d < 64 then (d - 48) / 4 else d - 80
      let fit := if d < 32 then hasBit (s.get Reg.SYS_AFE_FIT0_FIT) d else hasBit (s.get Reg.SYS_AFE_FIT1_FIT) (d - 32)
      if ((d < 64 ∨ (80 ≤ d ∧ d < 84)) ∧ !s.fitted act) ∨ (d < 48 ∧ !fit) then 5 else 0
  else if (domDependants d).any after then 2
  else if !s.domIdle d then 3
  else if d = 93 ∧ s.core.l2.any (fun e => e.2.dirty) then 4
  else 0

/-- A write of SYS_PD_REQn, checked in full; a rejection records the lowest failing domain (R52). -/
def State.pdReq (s : State) (n v : Nat) : State :=
  let after := fun d => if d / 32 = n then hasBit v (d % 32) else s.domWanted d
  match ((List.range 32).map (fun i => (32 * n + i, s.domCheck after (32 * n + i)))).find? (fun x => x.2 != 0) with
  | some (d, c) => s.sysReject c d
  | none => (s.put (Reg.SYS_PD_REQ_ON n) v).settleDoms

/-- PD_REQ_WRITE (R52). -/
def execPdReqWrite (n : Fin 3) (value : Word) (s : State) : Res := .next (s.pdReq n.val value.toNat)

/-- Requests of the start-up sequence or of the wake logic, without the checks of R52. -/
def State.wantDom (s : State) (d : Nat) (on : Bool) : State :=
  let F := Reg.SYS_PD_REQ_ON (d / 32)
  s.put F (putBit (s.get F) (d % 32) on)

/-! ## Ramps (R53, R54) -/

/-- Domains in a state. -/
def State.domsIn (s : State) (x : DomSt) : List Nat := (SMap.keys s.pwr.dom).filter (fun d => s.domSt d == x)

/-- SYS_CFG_STATUS.BUSY (R55). -/
def State.sysBusy (s : State) : Bool :=
  s.pwr.dom.any (fun e => e.2 != .on) || (s.domsIn .on).any (fun d => !s.domWanted d)

/-- A power-up is pending and may start: off, requested, its requirement on. -/
def State.mayRamp (s : State) (d : Nat) : Bool :=
  s.domSt d == .off && s.domWanted d && (match domRequires d with | some r => s.domOn r | none => true)

/-- DOMAIN_RAMP_START (R53): the lowest-numbered pending power-up starts, while fewer than 8 ramp. -/
def execDomainRampStart (s : State) : Res :=
  .next (match (List.range 96).find? s.mayRamp with
    | some d => if (s.domsIn .ramping).length < 8 ∧ !s.flag Reg.SPT_STATUS_FAIL then s.putDom d .ramping else s
    | none => s)

/-- Cores whose RUN bit is set run once their domain is on, the L2 is invalidated and step 8 has come (13 R327, R335). -/
def State.coresGo (s : State) : State :=
  if s.pwr.step < 8 || s.flag Reg.CCH_STATUS_INIT_BUSY || s.spt.failSrc then s
  else s.each ((List.range 4).filter (fun n => hasBit (s.get Reg.CCH_CORE_CTL_RUN) n && s.domOn (84 + n)))
    (fun s n => s.setBitOf Reg.CCH_STATUS_RUNNING n)

/-- What a domain's settling on begins: HBM training at step 6 or the end of self-refresh (12 R304), the invalidation of
the L2 (13 R335), a released core. -/
def State.domUp (s : State) (d : Nat) : State :=
  if d = 92 then
    if s.flag Reg.BUF_STATUS_TRAINED then s.setBuf { s.buf with selfRef := false }
    else if s.pwr.step = 5 then
      (s.modPwr (fun p => { p with step := 6 })).setBuf { s.buf with training := true, selfRef := false }
    else s
  else if d = 93 then s.put Reg.CCH_STATUS_INIT_BUSY 1
  else if 84 ≤ d ∧ d < 88 then s.coresGo
  else s

/-- DOMAIN_RAMP_DONE (R53, R54). -/
def execDomainRampDone (d : Fin 96) (s : State) : Res :=
  .next (if s.domSt d.val = .ramping then ((s.putDom d.val .on).domUp d.val).settleDoms else s)

/-- DOMAIN_POWER_DOWN_DONE (R53, R54). -/
def execDomainPowerDownDone (d : Fin 96) (s : State) : Res :=
  .next (if s.domSt d.val = .poweringDown then ((s.putDom d.val .off).domReset d.val).settleDoms else s)

/-! ## Connected inputs (R70) -/

/-- A write of SYS_AFE_FIT0 or SYS_AFE_FIT1. A domain that is on, or requested and waiting, when its input's bit is written 0
goes on: R22 and R70 give no step that turns it off (DESIGN CHOICE, log entry 106). -/
def State.afeFit (s : State) (n v : Nat) : State :=
  if s.flag Reg.SYS_AFE_FIT1_LOCK then s
  else
    let w := if n = 0 then 32 else 16
    match (maskBits w v).find? (fun i => !s.fitted ((32 * n + i) / 12)) with
    | some i => s.sysReject 5 (32 * n + i)
    | none =>
      if n = 0 then s.put Reg.SYS_AFE_FIT0_FIT v
      else (s.put Reg.SYS_AFE_FIT1_FIT v).when (hasBit v 31) (·.put Reg.SYS_AFE_FIT1_LOCK 1)

/-- AFE_FIT_WRITE (R70). -/
def execAfeFitWrite (n : Fin 2) (value : Word) (s : State) : Res := .next (s.afeFit n.val value.toNat)

/-! ## The clock monitor (R42 to R44) -/

/-- An island is live (Table PWR-22). -/
def State.islandLive (s : State) (i : Nat) : Bool :=
  !hasBit s.pwr.clkStopped i && (
    if i < 16 then (s.slot i).mem.isSome && s.flag (Reg.CHN_MC_STATUS_LOCKED i)
    else if i ≤ 20 ∨ i = 26 ∨ i = 28 ∨ i = 35 ∨ i = 37 ∨ i = 38 ∨ i = 41 ∨ i = 43 then decide (2 ≤ s.pwr.step)
    else if i ≤ 22 then
      let p := i - 21
      (List.range 4).any (fun n => s.domOn (64 + 4 * p + n)) && decide (s.get (Reg.HST_LINK_LSTATE p) ≤ 1)
    else if i ≤ 24 then
      let p := i - 23
      (List.range 4).any (fun n => s.domOn (72 + 4 * p + n)) && (s.rport p).up && !(s.rport p).retraining
    else if i = 25 then s.domOn 92 && !s.buf.selfRef
    else if i = 27 then [84, 85, 86, 87, 93].any s.domOn
    else if i = 29 then s.domOn 88 || s.domOn 89
    else if i = 30 then s.domOn 90
    else if i = 31 then s.domOn 91
    else if i = 36 then false
    else decide (i < 44) && decide (1 ≤ s.pwr.step))

/-- The fixed ranges of Table PWR-1, in Hz. -/
def islandRange (i : Nat) : Nat × Nat :=
  if i < 20 then (760000000, 820000000)
  else if i = 20 then (1520000000, 1640000000)
  else if i = 25 then (1710000000, 1820000000)
  else if i = 26 ∨ i = 28 ∨ i = 43 then (1140000000, 1230000000)
  else if i = 27 then (1900000000, 2040000000)
  else if i ≤ 31 then (950000000, 1030000000)
  else if i = 32 then (190000000, 210000000)
  else if i = 33 ∨ i = 39 then (150000000, 250000000)
  else if i = 34 ∨ i = 40 then (24999250, 25000750)
  else if i = 42 then (1330000000, 1440000000)
  else if i = 38 ∨ i = 41 then (95000000, 103000000)
  else (380000000, 410000000)

/-- A measured clock lies in its range; a slot's also within 2.5 % of 25 MHz × N0 / 8. -/
def State.clockOk (s : State) (i hz : Nat) : Bool :=
  if i < 16 then
    let x := s.slot i
    let e := (hz * 8 * x.n0den : Int) - (25000000 * x.n0num : Int)
    decide (61000000 ≤ hz) && decide (hz ≤ 820000000) && decide (40 * e.natAbs ≤ 25000000 * x.n0num)
  else
    let r := if i = 21 ∨ i = 22 then Config.serdesRange (s.get (Reg.HST_LINK_RATE (i - 21)))
      else if i = 23 ∨ i = 24 then Config.serdesRange (16 + s.get Reg.RING_STATUS_RATE)
      else islandRange i
    decide (r.1 ≤ hz) && decide (hz ≤ r.2)

/-- A clock fault of an island (R43): its flag, a machine check and its event, and the gates for islands 0 to 20. -/
def State.clockFault (s : State) (i : Nat) : State :=
  let s := if i < 32 then s.setBitOf Reg.SYS_CLK_FAULT0_FAULT i else s.setBitOf Reg.SYS_CLK_FAULT1_FAULT (i - 32)
  let s := (s.raise 0x0003 i).emit (.rtInterrupt 0)
  s.when (decide (i ≤ 20)) (·.riseSource 6 allSlots)

/-- The islands that are live now, as a mask. -/
def State.liveIslands (s : State) : Nat := ((List.range 44).filter s.islandLive).foldl setBit 0

/-- CLOCK_MONITOR_WINDOW (R43, R44): a window ends; `measured` gives islands and their clocks in Hz, and an island not
named was in its range. Judged are the islands that were live when the window started and still are. A clock that has stopped,
and the second bad window in a row, is a fault; islands 26, 28, 33 and 34 reset the device, 33 without a fault save (Table
PWR-6; 21 R531). The next window then starts. -/
def execClockMonitorWindow (measured : List (Nat × Nat)) (s : State) : Res :=
  let bad := (List.range 44).filter (fun i =>
    hasBit s.pwr.liveIsl i && s.islandLive i && measured.any (fun m => m.1 == i && !s.clockOk i m.2))
  let due := bad.filter (fun i => !hasBit s.clkFaults i && (SMap.get s.pwr.oor 0 i != 0 || measured.contains (i, 0)))
  let s := s.modPwr (fun p => { p with oor := bad.map (fun i => (i, 1)) })
  let s := s.each due State.clockFault
  let s := s.modPwr (fun p => { p with liveIsl := s.liveIslands })
  .next (if due.contains 33 then s.fatal Reg.SYS_RST_CAUSE_CMON false false
    else if due.any (fun i => i == 26 || i == 28 || i == 34) then s.fatal Reg.SYS_RST_CAUSE_CMON true false
    else s)

/-! ## Supplies (01 R32; 11 R286, R287) -/

/-- VIO_LOSS (01 R32): the bridge switches return to bypass. -/
def execVioLoss (s : State) : Res := .next ((s.modPwr (fun p => { p with vio := false })).ringBypass)

/-- The order of Table SPT-5. -/
def shedOrder : List Nat :=
  List.range 64 ++ [80, 81, 82, 83] ++ (List.range 16).map (64 + ·) ++ [94, 95, 88, 89, 90, 91, 84, 85, 86, 87, 93, 92]

/-- Domains are shed without the checks of R52 (R56), and the clocks of islands 0 to 27, 29 to 31 and 43 stop. The rails
of the stack fall, so that its contents are lost. -/
def State.shed (s : State) : State :=
  let s := s.each shedOrder (fun s d => if s.domSt d = .off then s else (s.putDom d .off).domReset d)
  ((s.modPwr (fun p => { p with clkStopped := ((List.range 28) ++ [29, 30, 31, 43]).foldl setBit p.clkStopped })).setMem []).setChk []

/-- VIN_FAIL (R286, R287): VIN, in mV, below 10.4 V. Warn, SPT_FAIL, held VHOLD, retracts, brake, bypass, shedding; the
save begins where step 9 has completed (R68). -/
def execVinFail (vin : Nat) (s : State) : Res :=
  let s := s.vin vin
  .next (if vin < 10400 ∧ 1 ≤ s.pwr.step ∧ !s.flag Reg.SPT_STATUS_FAIL then
      let s := ((s.warn.put Reg.SPT_STATUS_FAIL 1).put Reg.SPT_STATUS_TESTING 0).modSpt (fun p =>
        { p with taking := false, failSrc := true, test := .idle, vhold := .held })
      let s := (s.riseSource 4 allSlots).modSpn (fun p => { p with switchOpen := true, vinFailed := true })
      let s := ((s.retractAll 0).brakeIn 0).ringBypass
      let s := s.shed.modPwr (fun p => { p with dev := .off })
      s.modSpt (fun p => { p with saving := p.saving || decide (9 ≤ s.pwr.step) })
    else s)

end Sys2Proof.Machine
end

