-- ==== Sys2Proof/Machine/Startup.lean ====
section
/-! DEFINITION. Start-up (02 Table PWR-7): power-on, the fuse map, the slot choice and its copies (16 R419), HBM and L2,
MAIN and its loader (16 R413, 03 R549), the restore at step 9 (11 R299, R300; 20 R512, R516), Ready; the device power
states (02 R57 to R61) and relocations (03 R93, R94). -/

namespace Sys2Proof.Machine

/-! ## Steps 1 to 4 (R65, R67) -/

/-- A step of Table PWR-7 completes, where it is the next one and start-up has not stopped. -/
def State.startStep (s : State) (n : Nat) (g : State → State) : State :=
  if s.pwr.step + 1 = n ∧ s.pwr.stopped = false then g (s.modPwr (fun p => { p with step := n })) else s

/-- SYS_POR_N_RISE (R65 step 1; 01 R34): the straps are latched, and the power die begins to charge VSTORE. -/
def execSysPorNRise (straps : Straps) (s : State) : Res :=
  .next (if s.pwr.por then s
    else
      let s := s.modPwr (fun p => { p with por := true, vio := true, step := 1, stopped := false, dev := .active })
      let s := (((s.put Reg.SYS_STRAP_ACT straps.act).putB Reg.SYS_STRAP_MGR_SEL straps.mgrSel).putB
        Reg.SYS_STRAP_BOOT_RCV straps.bootRcv).put Reg.SYS_STRAP_SMB_ADDR straps.smbAddr
      let s := (s.putB Reg.SYS_STRAP_SRIS_A straps.srisA).putB Reg.SYS_STRAP_SRIS_B straps.srisB
      (s.put Reg.SPT_STATUS_FAIL 0).modSpt (fun p => { p with full := false, vhold := .follows, taking := true, failSrc := false }))

/-- PLL_LOCK (R65 step 2): the core and Soundpost domains leave reset; the power-cycle count rises (20 Table EVR-1). -/
def execPllLock (s : State) : Res :=
  .next (s.startStep 2 (fun s => (s.setEvr { s.evr with poc := (s.evr.poc + 1) % 2 ^ 32 })))

/-- Start-up stops as a failed fuse map stops it (R67; 17 R425). -/
def State.fuseStop (s : State) : State :=
  ((s.put Reg.SYS_FUSE_STAT_ERR 1).modPwr (fun p => { p with stopped := true })).raise 0x0002 0

/-- FUSE_MAP_LOAD (R65 step 3, R67). -/
def execFuseMapLoad (good : Bool) (repaired : Nat) (s : State) : Res :=
  .next (if s.pwr.step = 2 ∧ s.pwr.stopped = false then
      if good then s.startStep 3 (fun s => (s.put Reg.SYS_FUSE_STAT_LOADED 1).put Reg.SYS_FUSE_STAT_REPAIRED repaired)
      else s.fuseStop
    else s)

/-- NUT_START (R65 step 4): M0 takes the ROM digest and then the fuse configuration (17 R429). -/
def execNutStart (s : State) : Res :=
  .next (s.startStep 4 (fun s => (s.extend 0 48 Config.nutDigest).extend 0 48 Config.fuseConfig))

/-! ## Step 5: the slot (16 R415, R419; 17 R427 to R429, R439, R446) -/

/-- The staging slot is erased. -/
def State.eraseStaging (s : State) : State := s.modAdm (fun a => { a with staging := [], received := none })

/-- The install from phase 2 on: the composite of staging and fallback goes into the active slot. -/
def State.installActive (s : State) : State :=
  (s.modAdm (fun a => { a with active := (match s.stagedPkg with
      | some p => some (composite p a.fallback)
      | none => a.fallback) })).modBoot (fun _ => ⟨true, false, 0, 0, false, false⟩)

/-- The install: active is copied to fallback first. -/
def State.install (s : State) : State := (s.modAdm (fun a => { a with fallback := a.active })).installActive

/-- What a pending commit or an interrupted copy makes of the slots. -/
def State.applyCommit (s : State) (staging : PkgCheck) : State :=
  if s.adm.boot.phase = 1 then s.install.eraseStaging
  else if s.adm.boot.phase = 2 then s.installActive.eraseStaging
  else if s.adm.boot.pending then
    let ok := match s.stagedPkg with
      | some p => p.verifies s.svnFuse staging && mainSupports Config.stepping (mergedDescs p s.adm.active)
      | none => false
    (if ok then s.install else (s.modBoot (fun b => { b with pending := false })).raise 0x0C01 0).eraseStaging
  else s

/-- A slot can boot: it verifies, and its MAIN supports the stepping. -/
def State.bootable (s : State) (p : Option FwPkg) (c : PkgCheck) : Bool :=
  match p with
  | some q => q.verifies s.svnFuse c && mainSupports Config.stepping q.descs
  | none => false

/-- A start falls back (HEALTH code 3 at Ready). -/
def State.fallBack (s : State) : State :=
  (s.modAdm (fun a => { a with fellBack := true, fallbacks := a.fallbacks + 1 })).raise 0x0C02 0

/-- The fallback slot is copied to the active slot. -/
def State.restoreFallback (s : State) : State :=
  (s.modAdm (fun a => { a with active := a.fallback })).modBoot (fun b =>
    { b with trial := false, pending := b.pending, phase := 0, fails := 0, readySeen := false, fallbackUsed := true })

/-- The slot to boot: 1 active, 0 recovery; the strap has been looked at. -/
def State.chooseSlot (s : State) (active fallback staging : PkgCheck) : Nat × State :=
  let restore := fun (s : State) =>
    let s := s.restoreFallback
    (if s.bootable s.adm.active fallback then 1 else 0, s)
  if s.adm.boot.phase = 3 then restore s.fallBack
  else
    let s := s.applyCommit staging
    let b := s.adm.boot
    if !(b.trial && b.readySeen) && decide (b.fails < 3) && s.bootable s.adm.active active then
      (1, s.modBoot (fun b => { b with fails := b.fails + 1, readySeen := false }))
    else
      let s := s.fallBack
      if b.fallbackUsed then (0, s) else restore s

/-- The signed messages of a package's sources, joined: their length in bytes and value (17 R428, R429). -/
def FwPkg.messages (p : FwPkg) : Nat × Nat :=
  p.sources.foldl (fun m x => (m.1 + 3744, m.2 + signedMessage x * 256 ^ m.1)) (0, 0)

/-- A slot boots: M1 takes its signed message. -/
def State.bootSlot (s : State) (k : Nat) (p : FwPkg) : State :=
  (s.modAdm (fun a => { a with booted := some k })).extend 1 48 (Config.sha384 p.messages.1 p.messages.2)

/-- The DRBG is instantiated, and the nonces are drawn (17 R433, R444, R446). -/
def State.startDrbg (s : State) (entropy : Bool) : State :=
  if entropy then (s.modSec (fun x => { x with drbg := 0 })).newNonce.newDbgNonce
  else (s.put Reg.SEC_STATUS_RNG_FAIL 1).raise 0x0D01 0

/-- The media keys that a start loads: of AUTO_UNLOCK ranges, and of every range of an unowned device (17 R439). -/
def State.startKeys (s : State) : State :=
  s.each (List.range 64) (fun s r =>
    let x := s.range r
    if (s.sec.owned && x.auto) || (!s.sec.owned && (r == 0 || x.zones != 0)) then s.putRange r { x with loaded := true }
    else s)

/-- SLOT_CHOICE (R65 step 5; 16 R419): `puf` says that the PUF response was reconstructed (17 R425), the others what
verifying the package that each slot then holds finds, and whether the entropy source passed its tests. -/
def execSlotChoice (puf : Bool) (recovery active fallback staging : PkgCheck) (entropy : Bool) (s : State) : Res :=
  .next (if s.pwr.step ≠ 4 ∨ s.pwr.stopped ∨ s.adm.noSlot then s
    else if !puf then s.fuseStop
    else
      let s := if s.fitted 0 then s else (s.modAdm (fun a => { a with strapErr := true })).raise 0x0001 0
      let r := if s.flag Reg.SYS_STRAP_BOOT_RCV then (0, s) else s.chooseSlot active fallback staging
      let s := r.2.startDrbg entropy
      match r.1, s.adm.active with
      | 1, some p => ((s.bootSlot 1 p).startKeys.startStep 5 (·.wantDom 92 true))
      | _, _ =>
        if s.bootable (some s.recoverySlot) recovery then
          ((s.bootSlot 0 s.recoverySlot).startKeys.startStep 5 (·.wantDom 92 true))
        else ((s.modAdm (fun a => { a with noSlot := true })).put (Reg.HSTS_FATAL 0) 1).put (Reg.HSTS_FATAL 1) 1)

/-! ## Steps 6 to 8 -/

/-- HBM_TRAINING_DONE (R65 step 7; 12 R304): every burst holds zero data with valid check bytes; a failure stops start-up
before step 7. -/
def execHbmTrainingDone (good : Bool) (s : State) : Res :=
  .next (if s.buf.training then
      let s := s.setBuf { s.buf with training := false }
      if good then
        (((s.setMem []).setChk []).put Reg.BUF_STATUS_TRAINED 1).startStep 7 (·.wantDom 93 true)
      else (s.put Reg.BUF_STATUS_TRAIN_ERR 1).raise 0x0701 0
    else s)

/-- L2_INVALIDATION_DONE (R65 step 7, R66; 13 R335). -/
def execL2InvalidationDone (s : State) : Res :=
  .next (if s.flag Reg.CCH_STATUS_INIT_BUSY then
      let s := s.put Reg.CCH_STATUS_INIT_BUSY 0
      (s.when (s.pwr.step = 7) (·.wantDom 84 true)).coresGo
    else s)

/-- An image of a combination works with every other image of it (16 R413). -/
def imageFits (step : Nat) (ds : List Nat) (t : Nat) : Bool :=
  match ds.find? (fun d => imgType d == t) with
  | some x => stepOk step x && ds.all (fun y => imgType y == t || pairOk x y)
  | none => false

/-- RT is present and compatible with MAIN. -/
def rtFits (step : Nat) (ds : List Nat) : Bool :=
  match ds.find? (fun d => imgType d == 1), ds.find? (fun d => imgType d == 2) with
  | some m, some r => stepOk step r && pairOk m r
  | _, _ => false

/-- The device mode of Table ADM-12; `act0` is bit 0 of STRAP_ACT. -/
def deviceMode (act0 : Bool) (step : Nat) (ds : List Nat) : Nat :=
  let flags := ((ds.find? (fun d => imgType d == 1)).map imgFlags).getD 0
  if !act0 || hasBit flags 1 || !rtFits step ds then 3
  else if !imageFits step ds 4 || (!imageFits step ds 3 && !hasBit flags 0) then 2
  else if !imageFits step ds 3 then 1
  else 0

/-- The TYPEs of the images that run in a mode; in LOCKED a compatible PEG is loaded too. -/
def runTypes (mode : Nat) (peg : Bool) : List Nat :=
  if mode = 0 then [1, 2, 3, 4] else if mode = 1 then [1, 2, 4] else if mode = 2 then (if peg then [1, 2, 4] else [1, 2])
  else [1]

/-- The PEG image is validated (03 R549). The record of a surface's event names the surface and its lowest invalid band; UNIT holds
the surface (DESIGN CHOICE, log entry 99). -/
def State.loadPeg (s : State) (peg : List (Nat × Nat)) (maps : List AlignData) : State :=
  let image : SMap Nat := peg.foldl (fun m e => SMap.set m e.1 (e.2 % 256 ^ 128)) []
  let bad := (List.range 48).filterMap (fun f => (pegBadBand image f).map (fun b => (f, b)))
  let als := (maps.take 4).zipIdx.map (fun x => (x.2, (⟨x.1.header, x.1.points⟩ : AlignMap)))
  let s := s.setMedia { s.media with peg := image, pegBad := bad, maps := als.filter (fun e => alignOk e.2 e.1) }
  let s := s.each bad (fun s e => s.raiseNamed 0x0201 e.1 [e.1, e.2])
  s.each (als.filter (fun e => !alignOk e.2 e.1)) (fun s e => s.raise 0x0202 e.1)

/-- SYS_STRAP as it reads. -/
def State.strapWord (s : State) : Nat :=
  s.get Reg.SYS_STRAP_ACT + 16 * s.get Reg.SYS_STRAP_MGR_SEL + 32 * s.get Reg.SYS_STRAP_BOOT_RCV +
    64 * s.get Reg.SYS_STRAP_SMB_ADDR + 256 * s.get Reg.SYS_STRAP_SRIS_A + 512 * s.get Reg.SYS_STRAP_SRIS_B

/-- MAIN_RELEASE (R65 step 8; 13 R327; 16 R413): application pair 0 runs MAIN, whose loader sets the device mode and
validates the PEG image: `peg` gives its entries by 64 × surface + band, `maps` its alignment maps by actuator. -/
def execMainRelease (peg : List (Nat × Nat)) (maps : List AlignData) (s : State) : Res :=
  .next (if s.pwr.step ≠ 7 ∨ s.pwr.stopped ∨ !s.domOn 84 ∨ s.flag Reg.CCH_STATUS_INIT_BUSY then s
    else
      let ds := ((s.bootedPkg).map FwPkg.descs).getD []
      let m := deviceMode (s.fitted 0) Config.stepping ds
      let pegOk := imageFits Config.stepping ds 4
      let run := ds.foldl (fun r d => if (runTypes m pegOk).contains (imgType d) then
        SMap.set r (imgType d) (imgLevel d, imgVersion d) else r) []
      let s := (s.modAdm (fun a => { a with mode := m, run := run })).putB Reg.IQI_CTL_MEDIA_LOCK (decide (2 ≤ m))
      let s := s.when (decide (m ≤ 2) && pegOk) (·.loadPeg peg maps)
      let s := (s.when (m = 1 || m = 2) (·.health 5)).when (!s.media.pegBad.isEmpty) (·.health 6)
      let s := s.when (decide (2 ≤ m)) (·.health 7)
      let s := s.extend 2 16 (m + 2 ^ 32 * s.strapWord + 2 ^ 64 * b2n s.adm.boot.trial + 2 ^ 96 * (s.adm.booted.getD 0))
      (s.startStep 8 (fun s => s)).coresGo)

/-! ## Step 9: the restore (11 R299, R300; 17 R443; 20 R512, R516) -/

/-- The save store's content copied into the restore region. -/
def State.copyStore (s : State) : State :=
  let out := fun (a : Nat) => !(decide (restoreBase ≤ a) && decide (a < restoreBase + 0x2000000))
  let s := (s.setMem (SMap.keep s.mem out)).setChk (SMap.keep s.chk (fun b => out (32 * b)))
  let s := s.charge 4 0x100000
  let s := s.each s.spt.journal (fun s e => s.storeMem (restoreBase + 64 * e.1) e.2 64)
  let s := s.each s.spt.window (fun s e => s.storeMem (restoreBase + 0x800000 + 4128 * e.1) e.2.encode 4128)
  let s := s.each s.spt.metaBytes (fun s e => s.storeMem (restoreBase + 0x1800000 + e.1) e.2 1)
  let s := s.storeMem (restoreBase + 0x1EF0000) s.delPage 65536
  s.each s.evr.tail (fun s e => s.storeMem (restoreBase + 0x1F00000 + 64 * e.1) e.2.encode 64)

/-- Restored entries become committed safe-mode blocks in the buffer, to be written in ascending SEQ. -/
def State.queueRestored (s : State) : State :=
  let ord := winOrder s.spt.window
  let s := s.modSpt (fun p => { p with
    rewrite := ord
    winNext := (match ord.getLast?.bind (SMap.look p.window) with | some e => (e.seq + 1) % 2 ^ 32 | none => p.winNext) })
  s.each s.spt.window (fun s e => (s.setCache (SMap.set s.cache (restoreBase + 0x800000 + 4128 * e.1 + 16)
      { nsid := e.2.nsid, lba := e.2.lba, seq := 0, mode := 2, win := some e.1, committed := true, err := none })))

/-- A window chunk of the save covers entry `i` and verifies. -/
def SaveArea.covers (a : SaveArea) (found : SaveRead) (i : Nat) : Bool :=
  [4128 * i / 262144, (4128 * i + 4127) / 262144].any (fun c => decide (c < winChunks a.winBytes) && a.ok found (32 + c))

/-- The window as restored: from one area its entries that are present, over what the save store holds outside the chunks
that were restored; from two areas the merge alone. -/
def restoredWindow (now : SMap WinEntry) (n : SaveArea) (fn : SaveRead) (old : Option (SaveArea × SaveRead)) : SMap WinEntry :=
  let fresh := fun (m : SMap WinEntry) => m.map (fun e => (e.1, { e.2 with held := false }))
  match old with
  | some (o, fo) => fresh (mergeWindow (o.entries fo) (n.entries fn))
  | none => (fresh (n.entries fn)).foldl (fun m e => SMap.set m e.1 e.2) (now.filter (fun e => !n.covers fn e.1))

/-- The save store as restored from the newest area and, where it is incomplete, the older one (R299). -/
def State.restoreFrom (s : State) (n : SaveArea) (fn : SaveRead) (old : Option (SaveArea × SaveRead)) : State :=
  let o : SaveArea := (old.map Prod.fst).getD { n with chunks := 0 }
  let fo := (old.map Prod.snd).getD fn
  let okN := fun c => n.ok fn c
  let okO := fun c => old.isSome && o.ok fo c
  let mN := fun c => okN (n.metaChunk c)
  let mO := fun c => okO (o.metaChunk c)
  let s := s.setEvr { s.evr with tail := overChunks s.evr.tail n.tail o.tail mN mO (fun i => 28 + i / 4096) }
  s.modSpt (fun p => { p with
    journal := overChunks p.journal n.journal o.journal okN okO (· / 4096)
    window := restoredWindow p.window n fn old
    metaBytes := overChunks p.metaBytes n.metaBytes o.metaBytes mN mO (· / 262144)
    del := if mN 27 then n.del else if mO 27 then o.del else p.del
    delLost := if mN 27 then n.delLost else if mO 27 then o.delLost else p.delLost
    failed := overChunks p.failed n.failed o.failed mN mO (fun k => Config.failChunk k % 28)
    zones := overChunks p.zones n.zones o.zones mN mO (fun k => Config.zoneChunk k % 28) })

/-- The areas whose header verifies, newest first. -/
def State.foundAreas (s : State) (headerA headerB : Nat) : List (Nat × SaveArea) :=
  let l := s.spt.areas.filter (fun e => e.2.headerOk (if e.1 = 0 then headerA else headerB))
  match l with
  | [a, b] => if a.2.seq < b.2.seq then [b, a] else [a, b]
  | _ => l

/-- The restore of R299: what is found, registers, areas that await RELEASE, and the keys of R443. -/
def State.restore (s : State) (headerA headerB : Nat) (a b : SaveRead) : State :=
  let found := fun (k : Nat) => if k = 0 then a else b
  match s.foundAreas headerA headerB with
  | [] => s
  | (k, n) :: r =>
    let done := n.commitOk (found k)
    let old := if done then none else r.find? (fun e => e.2.commitOk (found e.1))
    let o := old.map (fun e => (e.2, found e.1))
    let s := s.restoreFrom n (found k) o
    let s := (((s.put Reg.SPT_LAST_FOUND 1).putB Reg.SPT_LAST_COMPLETE done).putB Reg.SPT_LAST_MERGED old.isSome).put
      Reg.SPT_LAST_BAD_CHUNKS (min 255 (badCount n (found k) o))
    let s := (s.put Reg.SPT_LAST_TIME_MS (if done then (n.ms ^^^ (found k).ms) % 65536 else 0)).put64 Reg.SPT_LAST_SEQ_LO_SEQ_LO
      Reg.SPT_LAST_SEQ_HI_SEQ_HI n.seq
    let keysOf := fun q => (SMap.look s.sec.saveKeys q).getD []
    let keys := (keysOf n.seq).foldl (fun m e => SMap.set m e.1 e.2) ((old.map (fun e => keysOf e.2.seq)).getD [])
    let s := (s.put Reg.SPT_STATUS_PENDING_REL 1).put Reg.CHD_STATUS_JNL_RESTORED 1
    (s.modSpt (fun p => { p with restored := k :: (old.map (fun e => e.1)).toList })).modSec (fun x =>
      { x with restKeys := keys })

/-- The recorder at step 9: the tail's records that are not archived go to the archive, the next SEQ follows the newest
record, and the waiting records take theirs (20 R512, R516). -/
def State.startRecorder (s : State) : State :=
  let top := fun (m : SMap EvRec) => m.foldl (fun q e => max q (e.2.seq + 1)) 0
  let fresh := s.evr.tail.filter (fun e => decide (s.evr.archNext ≤ e.2.seq))
  let next := max (top s.evr.tail) (top s.evr.archive)
  let arch := fresh.foldl (fun m e => SMap.set m e.2.seq e.2) s.evr.archive
  let wait := s.evr.fifo
  let s := s.setEvr { s.evr with archive := arch, archNext := next, nextSeq := next, fifo := [] }
  let s := s.put Reg.EVR_STATUS_SEQ_VALID 1
  let s := s.when (s.flag Reg.EVR_CTL_EN) (fun s =>
    (s.put64 Reg.EVR_HEAD_LO_SEQ Reg.EVR_HEAD_HI_SEQ next).put64 Reg.EVR_DONE_LO_SEQ Reg.EVR_DONE_HI_SEQ next)
  s.each wait State.place

/-- RESTORE_SAVE (R65 step 9; 11 R299): how the two areas read, the bits inverted in their headers, and `a` and `b` for what
stands behind them. -/
def execRestoreSave (headerA headerB : Nat) (a b : SaveRead) (s : State) : Res :=
  .next (s.startStep 9 (fun s => (s.restore headerA headerB a b).copyStore.queueRestored.startRecorder))

/-- READY (R65 steps 10 and 11; 16 R419, R411): the boot record of the active slot, HEALTH code 3, and the ring engine
begins to join (18 R467). -/
def execReady (s : State) : Res :=
  .next (if s.pwr.step = 9 ∧ s.pwr.stopped = false then
      let s := s.modPwr (fun p => { p with step := 11 })
      let s := s.when (s.adm.booted = some 1) (·.modBoot (fun b => { b with readySeen := true, fails := 0 }))
      (s.when s.adm.fellBack (·.health 3)).splice
    else s)

/-! ## Device power states (R57 to R61) -/

/-- A write of SYS_PWR_STATE (Table PWR-20). -/
def State.pwrState (s : State) (v : Nat) : State :=
  let x := bits v 2 0
  if 4 ≤ x then s.sysReject 6 0
  else (s.put Reg.SYS_PWR_STATE_STATE x).when (x = 3) (·.modPwr (fun p => { p with wakeArmed := true }))

/-- PWR_STATE_WRITE (R57). -/
def execPwrStateWrite (value : Word) (s : State) : Res := .next (s.pwrState value.toNat)

/-- IDLE_ENTRY (R59): no media work for the idle time, where IDLE_TIME is enabled; the heads go to the ramp, and no AFE or
detector domain stays on (Table PWR-4). -/
def execIdleEntry (s : State) : Res :=
  .next (if s.dev = .active ∧ s.ready ∧ hasBit (s.feature 1) 31 ∧ s.cmds.all (fun e => !e.2.io) ∧
      (List.range 64).all s.domIdle then
      (s.modPwr (fun p => { p with dev := .idle, headsLoaded := false })).withdraw (fun d => decide (64 ≤ d))
    else s)

/-- IDLE_EXIT (R59, R61): media work in Idle; during the spin-down the device goes to Active once the spindle has
stopped. -/
def execIdleExit (s : State) : Res :=
  .next (if s.dev = .idle then
      if s.pwr.spinDown then s.modPwr (fun p => { p with spinCmd := true })
      else
        (s.when s.pwr.dozing (·.put Reg.RING_CTL_MUTE_REQ 0)).restoreReqs.modPwr (fun p =>
          { p with dev := .active, dozing := false, headsLoaded := true })
    else s)

/-- DOZE_ENTRY (R59, R61; 18 R477): the standby time or a standby command; the cache is being emptied, and mute is
requested. -/
def execDozeEntry (s : State) : Res :=
  .next (if s.dev = .idle ∧ !s.pwr.dozing then (s.modPwr (fun p => { p with dozing := true })).put Reg.RING_CTL_MUTE_REQ 1
    else s)

/-- SPIN_DOWN_START (R61; 18 R477; 14 R367): the cache is empty and the ring muted; the spindle brakes, and the host links
narrow. -/
def execSpinDownStart (s : State) : Res :=
  .next (if s.dev = .idle ∧ s.pwr.dozing ∧ !s.pwr.spinDown ∧ s.cache.isEmpty ∧ (s.flag Reg.RING_STATUS_MUTED ∨ !s.through) then
      let s := ((s.modPwr (fun p => { p with spinDown := true })).linkNarrow 0).linkNarrow 1
      if s.spin = 0 then s.spunDown else s.brakeIn (s.get Reg.MTR_SPN_CTL_BRAKE_MODE)
    else s)

/-- DOZE_EXIT (R59): media work in Doze. -/
def execDozeExit (s : State) : Res := .next (if s.dev = .doze then s.fromDoze else s)

/-- A host port in use: its PERST_N is high. -/
def State.portUsed (s : State) (p : Nat) : Bool := !(s.port p).perst

/-- The domains that Sleep keeps (Table PWR-4, R58): lanes of the trained links and the protocol domains of used ports, and
the first lane of each ring port. -/
def State.sleepDoms (s : State) : List Nat :=
  [72, 76] ++ ([0, 1].filter s.portUsed).flatMap (fun p =>
    (94 + p) :: (List.range (2 ^ s.get (Reg.HST_LINK_WIDTH p))).map (64 + 4 * p + ·))

/-- A used port stands as Sleep requires: in D3hot, its link in L1 or an L1 substate (Table PWR-4, R58). -/
def State.portSleeps (s : State) (p : Nat) : Bool :=
  !s.portUsed p || (s.get (Reg.HST_LINK_DSTATE p) == 3 && decide (2 ≤ s.get (Reg.HST_LINK_LSTATE p)) &&
    decide (s.get (Reg.HST_LINK_LSTATE p) ≤ 4))

/-- SLEEP_ENTRY (R59): every used port is in D3hot with its link in L1, there is no ring work, the wake logic is armed, and the
L2 holds no dirty line; the domains that Sleep does not keep go off. -/
def execSleepEntry (s : State) : Res :=
  .next (if s.dev = .doze ∧ s.pwr.wakeArmed ∧ [0, 1].all s.portSleeps ∧
      s.ring.frames.isEmpty ∧ s.chd.reqs.isEmpty ∧ s.core.evict.isEmpty ∧ s.core.l2.all (fun e => !e.2.dirty) then
      let w := s.reqWords
      let keep := (s.sleepDoms.filter (fun d => hasBit w d)).foldl setBit 0
      ((s.modPwr (fun p => { p with dev := .sleep, sleepReq := w })).putReqWords keep).settleDoms
    else s)

/-- SLEEP_EXIT (R59): a used port is back in D0, or a ring frame needs this member; the domains are requested again. -/
def execSleepExit (s : State) : Res :=
  .next (if s.dev = .sleep then
      (s.putReqWords s.pwr.sleepReq).modPwr (fun p => { p with dev := .doze, wakeArmed := false, sleepReq := 0 })
    else s)

/-! ## Relocation (03 R93 to R95) -/

/-- A command that covers the LBA is in progress: a WRITE whose blocks are in the buffer; one whose transfer has not begun
waits for the relocation (R94). -/
def State.inProgress (s : State) (nsid lba : Nat) : Bool :=
  s.cmds.any (fun e => e.2.open && e.2.begun && (match e.2.span with | some x => inSpan x nsid lba | none => false))

/-- RELOCATION (R93, R94): while no command that covers the LBA is in progress, it takes the first free spare in the order of
R93; `member` is its member of the row. With no spare left it is not relocated, and its writes end with a media error. A pending
LBA stays so until its next write has been verified (R95). -/
def execRelocation (nsid lba member : Nat) (row spareRows : List RowTrack) (s : State) : Res :=
  let k := lbaKey nsid lba
  .next (if s.inProgress nsid lba then s
    else match (spareOrder member row spareRows).find? (fun x => !s.media.usedSpares.contains x) with
      | some x => (s.setMedia { s.media with
          reloc := SMap.set s.media.reloc k x
          usedSpares := s.media.usedSpares ++ [x] })
      | none => s.setMedia { s.media with noSpare := s.media.noSpare.filter (· != k) ++ [k] })

end Sys2Proof.Machine
end

