-- ==== Sys2Proof/Machine/Operands.lean ====
section
/-! DEFINITION. The operand forms of the register commands (00 R7 to R17, 02 R47): which addresses are registers, which
views stand for one register, which registers form pairs, and the range checks of a written value. -/

namespace Sys2Proof.Machine

/-! ## Addresses -/

/-- An offset is that of an instance of a register with these strides and counts. -/
def atDims : List (Nat × Nat) → Nat → Bool
  | [], o => o == 0
  | d :: ds, o => decide (o / d.1 < d.2) && atDims ds (o % d.1)

/-- An address is that of an instance of the register. -/
def RegDef.isAt (r : RegDef) (a : Nat) : Bool := decide (r.base ≤ a) && atDims r.dims (a - r.base)

/-- The registers of the block whose 1 MiB range holds an address (R16). -/
def blockRegs (a : Nat) : List RegDef :=
  match a / 0x100000 with
  | 0x400 => regsSYS
  | 0x401 => regsSEC
  | 0x402 => regsHST
  | 0x403 => regsIQI
  | 0x404 => regsBUF
  | 0x405 => regsCCH
  | 0x406 => regsDMA
  | 0x407 => regsEVR
  | 0x408 => regsRING
  | 0x409 => regsCHD
  | 0x40A => regsCHN
  | 0x40C => regsFMT
  | 0x40D => regsSRV ++ regsCTL
  | 0x40E => regsMTR
  | 0x40F => regsSPT
  | 0x410 => regsDBG
  | _ => []

/-- The address that a view of a shared register stands for: the pool and shock registers in every slot's range and the
preamp-link registers in the four ranges of an actuator (05 R153, 06 R174), HWIN_COMMIT, HWIN_STATUS and the window
table in both ports' ranges (14 R371). -/
def canon (a : Nat) : Nat :=
  let o := a % 0x10000
  if a / 0x100000 = 0x40A then
    if (0x200 ≤ o ∧ o < 0x300) ∨ (0x500 ≤ o ∧ o < 0x600) then 0x40A00000 + o
    else if 0x400 ≤ o ∧ o < 0x500 then 0x40A00000 + a % 0x100000 / 0x40000 * 0x40000 + o
    else a
  else if 0x40240000 ≤ a ∧ a < 0x40280000 then
    let h := a - 0x40240000
    if h = 0x120 ∨ h = 0x124 ∨ (0x2000 ≤ h ∧ h < 0x2800) then 0x40200000 + h else a
  else a

/-- The register at a canonical address. -/
def regAt (a : Nat) : Option RegDef := (blockRegs a).find? (fun r => r.isAt a)

/-- A word of the window table as HSTA and HSTB show it: entry and offset (14 R356). -/
def winAt (a : Nat) : Option (Nat × Nat) :=
  if 0x40202000 ≤ a ∧ a < 0x40202800 then some ((a - 0x40202000) / 32, (a - 0x40202000) % 32) else none

/-- A coefficient word: lane and offset (09 R255). -/
def coefAt (a : Nat) : Option (Nat × Nat) :=
  if 0x40D80000 ≤ a ∧ a < 0x40DC0000 ∧ 0x2000 ≤ a % 0x10000 ∧ a % 0x10000 < 0x4000 then
    some ((a - 0x40D80000) / 0x10000, a % 0x10000)
  else none

/-- The chapter of the block defines a register at a canonical address (R17). -/
def defined (a : Nat) : Bool := (regAt a).isSome || (winAt a).isSome || (coefAt a).isSome

/-- The switched domain that holds the register at a canonical address, if one does (02 Table PWR-2): the AFE of an element, the
detector of a slot with its sample buffer, a formatter, the chord engine, a port's host protocol; HCTL, HSTS and what the two
ports share lie in the queue engine (R58; 14 R371), and code 0x05 of CCH_CFG_STATUS and DMA_CFG_STATUS answers for a domain that
is off (13 Tables CPU-8, CPU-9) [log 26]. -/
def regDomain (a : Nat) : Option Nat :=
  let o := a % 0x10000
  match a / 0x100000 with
  | 0x402 =>
    let h := a % 0x40000
    if h < 0x100 then some (94 + a % 0x100000 / 0x40000) else none
  | 0x409 => some 90
  | 0x40A =>
    let i := a % 0x100000 / 0x10000
    if 0x20 ≤ o ∧ o < 0x2C then some (3 * i + (o - 0x20) / 4)
    else if 0x30 ≤ o ∧ o < 0x3C then some (3 * i + (o - 0x30) / 4)
    else if (0x80 ≤ o ∧ o < 0xA0) ∨ (0x100 ≤ o ∧ o < 0x200) then some (48 + i)
    else none
  | 0x40C => some (80 + a % 0x100000 / 0x40000)
  | _ => none

/-- The register lies in a switched domain that is off (02 R47). -/
def State.isolated (s : State) (a : Nat) : Bool :=
  match regDomain a with
  | some d => !s.domOn d
  | none => false

/-- An access to an address ends with a bus error (R9, R17, 02 R47). -/
def State.busFails (s : State) (a : Nat) : Bool := a % 4 != 0 || !defined (canon a) || s.isolated (canon a)

/-- The address is the lower register of a two-register value. -/
def isLow (a : Nat) : Bool := pairLows.any (fun p => (⟨p.1, p.2, []⟩ : RegDef).isAt a)
/-- The address is the upper register of a two-register value. -/
def isHigh (a : Nat) : Bool := isLow (a - 4) && decide (4 ≤ a)

/-! ## The checks of a write (R12 to R15) -/

/-- A value fails the range of a field: the code, 0 where it passes. -/
def Range.fails (r : Range) (w v : Nat) : Nat :=
  match r with
  | .any => 0
  | .count lo hi => if v < lo ∨ hi < v then 2 else 0
  | .rng lo hi c => if v < lo ∨ hi < v then c else 0
  | .signed lo hi => if toSigned w v < lo ∨ hi < toSigned w v then 2 else 0

/-- A count of zero (R12). -/
def Range.zeroCount (r : Range) (v : Nat) : Bool := match r with | .count _ _ => v == 0 | _ => false

/-- A field that a write reaches. -/
def FieldDef.writable (d : FieldDef) : Bool := d.acc == .rw || d.acc == .rwc || d.acc == .rwl || d.acc == .wo

/-- The bits of a written word that belong to a field. -/
def FieldDef.of (d : FieldDef) (v : Nat) : Nat := bits v (d.lo + d.width - 1) d.lo

/-- The first failing check of a written word, fields in ascending offset: zero counts, then ranges (R14). -/
def RegDef.check (r : RegDef) (v : Nat) : Nat :=
  let fs := r.fields.filter FieldDef.writable
  if fs.any (fun d => d.range.zeroCount (d.of v)) then 1
  else ((fs.map (fun d => d.range.fails d.width (d.of v))).find? (· != 0)).getD 0

end Sys2Proof.Machine
end

