-- ==== Sys2Proof/Machine/Flags.lean ====
section
/-! DEFINITION. The status fields that follow other state, what each register reads as, and the configuration-error flags
of every block (00 R8, R15). -/

namespace Sys2Proof.Machine

/-! ## What a register reads as -/

/-- Slot registers that follow other state: offset in the slot's range, and the fields by lowest bit. -/
def State.chnView (s : State) (i o : Nat) : List (Nat × Nat) :=
  if o = 0x118 then [(0, (s.slot i).fifo.length)]
  else if o = 0x204 then
    [(0, (SMap.keys s.pool.engines).foldl setBit 0), (16, s.pool.queue.length)]
  else if o = 0x304 then [(0, s.unsafeMask i)]
  else if o = 0x318 then
    let x := s.slot i
    let n := ((x.n0num : Int) * (2 ^ 24 + s.sget (Reg.CHN_MC_TRIM_TRIM i))).toNat
    [(0, n / (2 * x.n0den) % 2 ^ 23), (23, n / (2 * x.n0den) / 2 ^ 23)]
  else []

/-- Formatter registers that follow other state. -/
def State.fmtView (s : State) (a o : Nat) : List (Nat × Nat) :=
  if o = 0x04 then [(16, (SMap.keys (s.fmt a).cur).foldl setBit 0)]
  else if o = 0x60 then [(0, Config.romCrc)]
  else if o = 0x84 then
    [(0, s.patchWord a (s.get (Reg.FMT_CAPO_ADDR_WORD a)) / 2 ^ (32 * s.get (Reg.FMT_CAPO_ADDR_PART a)))]
  else []

/-- Servo and control registers that follow other state. -/
def State.ctlView (s : State) (a : Nat) : List (Nat × Nat) :=
  let l := a % 0x80000 / 0x10000
  if a = 0x40D40000 then
    match s.reference with | some r => [(31, 1), (16, r.2)] | none => [(31, 0), (16, 0)]
  else if a < 0x40D40000 then (if a % 0x10000 = 4 then [(16, b2n (s.stagger l))] else [])
  else if a % 0x10000 = 4 then [(25, b2n (s.pesUp l))]
  else []

/-- VHOLD in mV (01 R25, 11 R292, R293): VIN less a drop of at most 60 mV, 10.0 V ± 3 % while it is held from VSTORE, a
free voltage once it is off; with SYS_POR_N low the register stands at its reset value [log 41]. -/
def State.vhold (s : State) : Nat :=
  if !s.pwr.por then 0
  else match s.spt.vhold with
    | .follows => s.get Reg.MTR_VMOT_VIN - Config.freeValue s.free % 61
    | .held => 9700 + Config.freeValue s.free % 601
    | .off | .collapsed => Config.freeValue s.free % 16001

/-- Soundpost registers that follow other state. -/
def State.sptView (s : State) (a : Nat) : List (Nat × Nat) :=
  if a = 0x40F00004 then
    [(31, b2n s.armed), (16, s.winSize), (4, s.heldCount), (0, s.saveArea)]
  else if a = 0x40F0000C then [(16, s.vhold)]
  else if a = 0x40F00014 then [(16, s.winLimit), (0, s.spt.window.length)]
  else if a = 0x40F00010 then [(16, if s.flag Reg.SPT_CAP_VALID then Config.freeValue s.free else 0)]
  else []

/-- A mask of ranges by a flag of theirs. -/
def State.lockMask (s : State) (g : KRange → Bool) : Nat :=
  (List.range 64).foldl (fun m r => if g (s.range r) then setBit m r else m) 0

/-- Security registers that follow other state; REMAIN of a running trial is a free number of seconds. -/
def State.secView (s : State) (a : Nat) : List (Nat × Nat) :=
  let o := a % 0x100000
  if a / 0x100000 = 0x410 then
    if 0x10 ≤ o ∧ o < 0x30 then [(0, bytesAt (s.sec.dbgNonce.getD 0) (o - 0x10) 4)] else []
  else if o = 0 then [(31, b2n s.sec.owned), (30, b2n s.sec.ownerLock), (8, s.svnFuse)]
  else if o = 8 then
    [(11, b2n s.adm.boot.trial), (10, b2n s.adm.boot.fallbackUsed),
      (0, if s.adm.boot.trial && !s.adm.trialOver then 1 + Config.freeValue s.free % 600 else 0)]
  else if o = 0x20 then [(0, s.lockMask (·.rlock))]
  else if o = 0x24 then [(0, s.lockMask (·.rlock) / 2 ^ 32)]
  else if o = 0x28 then [(0, s.lockMask (·.wlock))]
  else if o = 0x2C then [(0, s.lockMask (·.wlock) / 2 ^ 32)]
  else []

/-- An owned chord of the active layout has a strip without a holder. -/
def State.degraded (s : State) : Bool :=
  match s.activeLayout with
  | some l => !l.fails.isEmpty && (List.range l.ownedCount).any (fun u =>
      (List.range l.w).any (fun t => l.holder l.fails (l.owned s.ownNo u) t == 0xFF))
  | none => false

/-- Chord registers that follow other state. -/
def State.chdView (s : State) (a : Nat) : List (Nat × Nat) :=
  let o := a % 0x100000
  let slot := s.get Reg.CHD_CTL_SLOT
  let entry := fun (_ : Unit) => s.chd.lost[s.get Reg.CHD_LOST_IDX_IDX]?.getD (0, 0)
  if o = 4 then
    [(24, b2n s.degraded), (0, match s.activeLayout with | some l => l.fails.length | none => 0)]
  else if o = 0x58 then [(0, s.lchk slot)]
  else if o = 0x5C then [(0, s.lchk slot / 2 ^ 32)]
  else if 0x60 ≤ o ∧ o < 0x80 then
    let fails := match s.chordLayout slot with | some l => l.fails | none => []
    [(0, leValue ((List.range 4).map (fun j => fails.getD (o - 0x60 + j) 0xFF)))]
  else if o = 0xA0 then [(0, (s.openRecords false).length)]
  else if o = 0xA4 then [(0, (s.openRecords true).length)]
  else if o = 0xB4 then [(0, s.chd.lost.length)]
  else if o = 0xB8 then [(0, (entry ()).1)]
  else if o = 0xBC then [(0, (entry ()).1 / 2 ^ 32)]
  else if o = 0xC0 then [(0, (entry ()).2)]
  else if o = 0xC4 then [(0, (entry ()).2 / 2 ^ 32)]
  else []

/-- Event-recorder registers that follow other state. -/
def State.evrView (s : State) (a : Nat) : List (Nat × Nat) :=
  let e := s.rlEntry
  if a = 0x40700004 then [(8, s.evr.fifo.length), (0, s.evr.buckets.length)]
  else if a = 0x40700084 then [(31, b2n e.en), (30, b2n e.unlimited), (0, e.code)]
  else if a = 0x40700088 then [(24, e.burst), (0, e.refill)]
  else []

/-- Registers of the other blocks that follow other state. -/
def State.miscView (s : State) (a : Nat) : List (Nat × Nat) :=
  if a = 0x40000000 then [(8, Config.stepping)]
  else if a = 0x40000120 then [(31, b2n s.sysBusy)]
  else if a = 0x40000300 then [(8, s.get (Reg.HST_LINK_DSTATE 0)), (16, s.get (Reg.HST_LINK_DSTATE 1))]
  else if a = 0x40200104 then [(31, b2n (s.rdy 0))]
  else if a = 0x40240104 then [(31, b2n (s.rdy 1))]
  else if a = 0x40300004 then [(0, s.cmds.length)]
  else if a = 0x4030000C then [(1, s.deferNs.foldl (fun m n => setBit m (n - 1)) 0)]
  else if a = 0x40400068 then
    let b := s.get Reg.BUF_PPR_ROW_BURST
    [(1, b2n (s.pprLeft true b != 0)), (0, b2n (s.pprLeft false b != 0))]
  else if a = 0x40800004 then [(21, b2n s.quorum)]
  else []

/-- The fields of a register that follow other state, by lowest bit; they have no home of their own in the field store. -/
def State.viewOf (s : State) (a : Nat) : List (Nat × Nat) :=
  match a / 0x100000 with
  | 0x401 => s.secView a
  | 0x410 => s.secView a
  | 0x407 => s.evrView a
  | 0x409 => s.chdView a
  | 0x40A => s.chnView (a % 0x100000 / 0x10000) (a % 0x10000)
  | 0x40C => s.fmtView (a % 0x100000 / 0x40000) (a % 0x40000)
  | 0x40D => s.ctlView a
  | 0x40F => s.sptView a
  | _ => s.miscView a

/-- The field of a register instance. -/
def FieldDef.at (d : FieldDef) (a : Nat) : Field := ⟨a, d.lo, d.width, d.rst⟩

/-- What a field reads as: write-only fields read 0 (Table SCP-3). -/
def State.fieldWord (s : State) (a : Nat) (live : List (Nat × Nat)) (d : FieldDef) : Nat :=
  if d.acc = .wo then 0
  else match live.find? (fun e => e.1 == d.lo) with
    | some e => e.2 % 2 ^ d.width
    | none => s.get (d.at a)

/-- What the register at a canonical address reads as; reserved bits read 0 (R7). -/
def State.regWord (s : State) (a : Nat) : Nat :=
  match regAt a with
  | some r =>
    let live := s.viewOf a
    r.fields.foldl (fun v d => v + s.fieldWord a live d * 2 ^ d.lo) 0
  | none =>
    match winAt a, coefAt a with
    | some (i, o), _ => bytesAt (s.winRead i) o 4
    | none, some (l, o) => SMap.get (s.lane l).coef 0 o
    | none, none => 0

/-- A register whose view draws a free value. -/
def freeView (a : Nat) : Bool := a == 0x40100008 || a == 0x40F00010

/-! ## Configuration errors (R15) -/

/-- The ERR and CODE fields of the block a register belongs to, by the address written. -/
def cfgOf (a : Nat) : Field × Field :=
  match a / 0x100000 with
  | 0x401 | 0x410 => (Reg.SEC_CFG_STATUS_ERR, Reg.SEC_CFG_STATUS_CODE)
  | 0x402 => let p := a % 0x100000 / 0x40000; (Reg.HST_CFG_STATUS_ERR p, Reg.HST_CFG_STATUS_CODE p)
  | 0x403 => (Reg.IQI_CFG_STATUS_ERR, Reg.IQI_CFG_STATUS_CODE)
  | 0x404 => (Reg.BUF_CFG_STATUS_ERR, Reg.BUF_CFG_STATUS_CODE)
  | 0x405 => (Reg.CCH_CFG_STATUS_ERR, Reg.CCH_CFG_STATUS_CODE)
  | 0x406 => (Reg.DMA_CFG_STATUS_ERR, Reg.DMA_CFG_STATUS_CODE)
  | 0x407 => (Reg.EVR_CFG_STATUS_ERR, Reg.EVR_CFG_STATUS_CODE)
  | 0x408 => (Reg.RING_CFG_STATUS_ERR, Reg.RING_CFG_STATUS_CODE)
  | 0x409 => (Reg.CHD_CFG_STATUS_ERR, Reg.CHD_CFG_STATUS_CODE)
  | 0x40A =>
    let i := a % 0x100000 / 0x10000
    if a % 0x10000 < 0x100 then (Reg.CHN_FE_CFG_STATUS_ERR i, Reg.CHN_FE_CFG_STATUS_CODE i)
    else if a % 0x10000 < 0x300 then (Reg.CHN_DET_CFG_STATUS_ERR i, Reg.CHN_DET_CFG_STATUS_CODE i)
    else (Reg.CHN_WR_CFG_STATUS_ERR i, Reg.CHN_WR_CFG_STATUS_CODE i)
  | 0x40C => let l := a % 0x100000 / 0x40000; (Reg.FMT_CFG_STATUS_ERR l, Reg.FMT_CFG_STATUS_CODE l)
  | 0x40D =>
    let l := a % 0x80000 / 0x10000
    if a < 0x40D80000 then (Reg.SRV_CFG_STATUS_ERR l, Reg.SRV_CFG_STATUS_CODE l)
    else (Reg.CTL_CFG_STATUS_ERR l, Reg.CTL_CFG_STATUS_CODE l)
  | 0x40E => (Reg.MTR_CFG_STATUS_ERR, Reg.MTR_CFG_STATUS_CODE)
  | 0x40F => (Reg.SPT_CFG_STATUS_ERR, Reg.SPT_CFG_STATUS_CODE)
  | _ => (Reg.SYS_CFG_STATUS_ERR, Reg.SYS_CFG_STATUS_CODE)

/-- A write at `a` is rejected with code `c`. -/
def State.rejectAt (s : State) (a c : Nat) : State :=
  if a / 0x100000 = 0x400 then s.sysReject c 0 else s.reject (cfgOf a).1 (cfgOf a).2 c

/-- The configuration status registers, whose cleared ERR clears CODE with what stands beside it. -/
def isCfgStatus (a : Nat) : Bool :=
  (a == (cfgOf a).1.addr && decide (a / 0x100000 ≠ 0x410)) || a == Reg.HWIN_STATUS_ERR.addr

end Sys2Proof.Machine
end

