-- ==== Sys2Proof/Machine/RegAccess.lean ====
section
/-! DEFINITION. Accesses to the register space by a core, the DMA engine or SMBus (00 R8 to R17, 16 R421): reads, the
checks of a write, and where a write of a register with a row of its own goes. -/

namespace Sys2Proof.Machine

/-! ## Reads -/

/-- A meaning's next state. -/
def resState (r : Res) (s : State) : State := match r with | .next t => t | _ => s

/-- A read of a register with a row of its own. -/
def State.readRow (s : State) (a : Nat) : Option State :=
  let o := a % 0x10000
  if a / 0x100000 = 0x40A then
    let i := Fin.ofNat 16 (a % 0x100000 / 0x10000)
    if o = 0x9C then some (resState (execSbDataRead i s) s)
    else if o = 0x110 then some (resState (execSectLoRead i s) s)
    else if o = 0x114 then some (resState (execSectHiRead i s) s)
    else none
  else if a / 0x100000 = 0x40C ∧ a % 0x40000 = 0x50 then
    some (resState (execFmtDoneRead (Fin.ofNat 4 (a % 0x100000 / 0x40000)) s) s)
  else if 0x40D80000 ≤ a ∧ a < 0x40DC0000 ∧ o = 0xAC then some (s.learnerData ((a - 0x40D80000) / 0x10000) none)
  else none

/-- The RC fields of a register cleared (Table SCP-3). -/
def State.clearRc (s : State) (a : Nat) : State :=
  match regAt a with
  | some r => s.each (r.fields.filter (fun d => d.acc == .rc)) (fun s d => s.put (d.at a) 0)
  | none => s

/-- The upper half latched by a read of the lower register (R10). -/
def State.latch64 (s : State) (a : Nat) : State :=
  if isLow a then (s.setShadow (SMap.set s.shadow a (s.regWord (a + 4)))) else s

/-- A read of the register at `addr` (R8 to R10, R17). -/
def State.regRead (s : State) (addr : Nat) : State :=
  if s.busFails addr then s.answer .busError
  else
    let a := canon addr
    match s.readRow a with
    | some t => t
    | none =>
      let half := if isHigh a then SMap.look s.shadow (a - 4) else none
      match half with
      | some v => (s.setShadow (SMap.del s.shadow (a - 4))).answer (.data v)
      | none => (((s.latch64 a).clearRc a).answer (.data (s.regWord a))).draw (b2n (freeView a))

/-! ## Checks of single registers -/

/-- The sum of the reservations with one of them replaced (12 R310). -/
def State.resSum (s : State) (a v : Nat) : Nat :=
  (List.range 5).foldl (fun n c => n + (if a = 0x40400010 + 4 * c then bits v 8 0 else
    s.get ⟨0x40400010 + 4 * c, 0, 9, (([32, 96, 64, 160, 16] : List Nat).getD c 0)⟩)) 0

/-- The namespace of an IQI_NS register, 1 to 16. -/
def nsOf (a : Nat) : Nat := (a - 0x403000F0) / 0x10

/-- Checks of a register beyond its fields' ranges, which come first (for CHN_FE_SB_ADDR with HOLD 0 and ELEM 3 the spec gives no
order between codes 0x02 and 0x04: DESIGN CHOICE, log entry 110); `w` is the whole value, 64 bits for a pair (`a` then its upper
register). The code, 0 where the write passes. -/
def State.writeCode (s : State) (a w : Nat) : Nat :=
  let o := a % 0x10000
  if a / 0x100000 = 0x40A then
    let i := a % 0x100000 / 0x10000
    if o = 0x98 then
      (if !s.flag (Reg.CHN_FE_SB_CTL_HOLD i) then 4 else if bits w 15 0 % 4 ≠ 0 then 2
       else if 37376 ≤ bits w 15 0 then 3 else 0)
    else if o = 0x310 then (if bits w 13 8 ≤ bits w 5 0 then 3 else 0)
    else 0
  else if a / 0x100000 = 0x40C ∧ 0x100 ≤ a % 0x40000 then (if s.capoOpen (a % 0x100000 / 0x40000) then 0 else 6)
  else if 0x40D80000 ≤ a ∧ a < 0x40DC0000 ∧ o = 0xA8 then (if 12 ≤ bits w 12 9 then 3 else 0)
  else if 0x40400010 ≤ a ∧ a < 0x40400024 then (if 368 < s.resSum a w then 5 else 0)
  else if 0x40500024 ≤ a ∧ a < 0x40500040 ∧ a % 8 = 4 then
    (match placeOf (w - w % 4) with | some (.buffer _) => 0 | _ => 3)
  else if 0x40300100 ≤ a ∧ a < 0x40300200 then
    let n := nsOf a
    let en := s.flag (Reg.IQI_NS_CTL_EN n)
    if a % 0x10 = 8 then
      if en && bits w 1 0 != s.get (Reg.IQI_NS_CTL_DEF_ACK n) then 3
      else if hasBit w 31 && !en && (s.nsCap n == 0 || s.nsCap n % 65536 != 0 ||
          decide (s.nsCap n / 65536 < s.get (Reg.IQI_NS_CONV_CONV n))) then 4
      else 0
    else if a % 0x10 = 4 ∧ 2 ^ 48 - 65536 < w then 2
    else if en then 3 else 0
  else if a = Reg.CHD_STRIP_P.addr then
    (if s.flag Reg.CHD_STATUS_READY then 4 else 0)
  else if a = Reg.EVR_RING_BASE_ADDR.addr then (if s.flag Reg.EVR_CTL_EN then 3 else 0)
  else 0

/-! ## What a write does -/

/-- One field written as its access code says (Table SCP-3). -/
def State.writeField (s : State) (a v : Nat) (d : FieldDef) : State :=
  let F := d.at a
  match d.acc with
  | .rw | .rwc | .rwl => s.put F (d.of v)
  | .w1c => s.put F (s.get F - (s.get F &&& d.of v))
  | .w1s => s.put F (s.get F ||| d.of v)
  | .ro | .wo | .rc => s

/-- The settings that act at the next group boundary (09 R253). -/
def atBoundary (a : Nat) : Bool :=
  let o := a % 0x10000
  decide (0x40D80000 ≤ a) && decide (a < 0x40DC0000) &&
    ((decide (0x10 ≤ o) && decide (o < 0x20)) || o == 0x34 || (decide (0x40 ≤ o) && decide (o < 0x90)) || o == 0xA0)

/-- What a cleared ERR clears with it. -/
def State.clearStatus (s : State) (a : Nat) (fs : List FieldDef) : State :=
  if isCfgStatus a && !s.flag ⟨a, (if a = 0x40000120 then 30 else 31), 1, 0⟩ then
    s.each (fs.filter (fun d => d.acc == .ro)) (fun s d => s.put (d.at a) 0)
  else s

/-- The fields of a register written, with what follows from it beside the fields (`s` is the state before). -/
def State.writeFields (s : State) (r : RegDef) (a v : Nat) : State :=
  let lane := (a - 0x40D80000) / 0x10000
  let s1 := s.when (atBoundary a) (fun s => s.each r.fields (fun s d => s.holdOld lane (d.at a)))
  let t := (s1.each r.fields (fun s d => s.writeField a v d)).clearStatus a r.fields
  if a = 0x40000018 then
    t.when (hasBit v 31 && !s.flag Reg.SYS_WDOG_CTL_EN) (fun t => t.modPwr (fun p => { p with wdogMs := 0 }))
  else if a / 0x100000 = 0x40A ∧ a % 0x10000 = 0x300 then
    let i := a % 0x100000 / 0x10000
    t.when (hasBit v 8 && !s.flag (Reg.CHN_WR_CTL_INHIBIT i)) (·.riseSource 9 [i])
  else if a / 0x100000 = 0x40A ∧ a % 0x10000 = 0x40C then
    let k := a % 0x100000 / 0x40000
    if hasBit v 0 && s.flag (Reg.CHN_PA_STATUS_FAULT k) then
      (t.putB (Reg.CHN_PA_STATUS_FAULT k) (Config.freeSdioLow s.free)).draw 1
    else t
  else if a / 0x100000 = 0x40C ∧ 0x100 ≤ a % 0x40000 then t.put (Reg.FMT_CAPO_STATUS_OK (a % 0x100000 / 0x40000)) 0
  else if a / 0x100000 = 0x40C ∧ a % 0x40000 = 0x80 then t.put (Reg.FMT_CAPO_ADDR_PART (a % 0x100000 / 0x40000)) 0
  else if (a = 0x40200000 ∨ a = 0x40240000) ∧ hasBit v 24 then
    let p := (a - 0x40200000) / 0x40000
    (t.put (Reg.HST_CTL_WAKE p) 0).wake p
  else if a = 0x40000200 then t.serveHeld
  else if a = 0x40000204 then t.placeHeld
  else if a = Reg.MTR_SPN_LIMIT_DEPTH_MAX.addr then t.clampDepth
  else if a = Reg.CHD_VOL_ADOPT_EN.addr then t.when (s.flag Reg.CHD_VOL_ADOPT_EN && !hasBit v 31) (·.adoptEnd)
  else t

/-- A write of a register without a row of its own: checked in full, then written (R12 to R15). FMT_RUN_D0 is stored
without checks (07 R205). -/
def State.plainWrite (s : State) (addr a v : Nat) : State :=
  match regAt a with
  | some r =>
    let c := if a / 0x100000 = 0x40C ∧ a % 0x40000 = 0x40 then 0 else r.check v
    let c := if c = 0 then s.writeCode a v else c
    if c ≠ 0 then s.rejectAt addr c else s.writeFields r a v
  | none => s

/-- A write of BUF_RAW_CTL (12 R320): READ and WRITE together are rejected. -/
def State.rawCtl (s : State) (v : Nat) : State :=
  if hasBit v 0 && hasBit v 1 then s.reject Reg.BUF_CFG_STATUS_ERR Reg.BUF_CFG_STATUS_CODE 2
  else if hasBit v 0 then s.rawStart .reading
  else if hasBit v 1 then s.rawStart .writing
  else s

/-- A write of BUF_SCRUB_CTL (12 R322 to R324): GO, then STOP, which ends a scrub at a free point; a refused GO leaves
all as it is. -/
def State.scrubCtl (s : State) (v : Nat) : State :=
  let go := hasBit v 0
  let t := if go then resState (if hasBit v 2 then execSramSweepStart s else execScrubStart s) s
    else s.put Reg.BUF_SCRUB_CTL_TARGET (bit v 2)
  let refused := go && (s.flag Reg.BUF_SCRUB_CTL_BUSY || !t.flag Reg.BUF_SCRUB_CTL_BUSY)
  if hasBit v 1 && !refused then (resState (execScrubStop (Config.freeValue t.free) t) t).draw 1 else t

/-- A write of SEC_REQ_CTL (17 R453); a refused GO leaves DONE as it is. -/
def State.secReqCtl (s : State) (v : Nat) : State :=
  let t := if hasBit v 0 then resState (execSecRequest s) s else s
  t.when (hasBit v 30 && !(hasBit v 0 && s.flag Reg.SEC_REQ_CTL_BUSY)) (·.put Reg.SEC_REQ_CTL_DONE 0)

/-- A write of DBG_TOKEN_CTL: what the signatures of the held token give is free (17 R455; the row DBG_TOKEN_GO takes it
as an operand). -/
def State.tokenCtl (s : State) (v : Nat) : State :=
  if hasBit v 0 then
    let b := fun i => hasBit (Config.freeValue s.free) i
    resState (execDbgTokenGo ⟨b 0, b 1, b 2⟩ (s.draw 1)) s
  else s

/-- A write in the ranges of the actuators' blocks that has a row of its own. -/
def State.actRow (s : State) (a v : Nat) : Option State :=
  let w : Word := BitVec.ofNat 32 v
  let o := a % 0x10000
  if a / 0x100000 = 0x40A then
    let i := Fin.ofNat 16 (a % 0x100000 / 0x10000)
    if o = 0x80 then some (resState (execSbHoldWrite i w s) s) else none
  else if a / 0x100000 = 0x40C then
    let k := Fin.ofNat 4 (a % 0x100000 / 0x40000)
    let o := a % 0x40000
    if o = 0 then some (s.fmtCtl k.val v)
    else if o = 0x10 then some (resState (execCourseCommit k w s) s)
    else if o = 0x48 then some (resState (execRunPush k w s) s)
    else if o = 0x84 then some (resState (execCapoDataWrite k w s) s)
    else if o = 0x88 then some (resState (execCapoVerify k w s) s)
    else none
  else if 0x40D00000 ≤ a ∧ a < 0x40D40000 then
    if 0x10 ≤ o ∧ o < 0x20 then some (s.srvSrc ((a - 0x40D00000) / 0x10000) ((o - 0x10) / 4) v) else none
  else if 0x40D80000 ≤ a ∧ a < 0x40DC0000 then
    let l := (a - 0x40D80000) / 0x10000
    if o = 0 then some (s.laneCtl l v)
    else if o = 4 then some (s.laneStatusWrite l v)
    else if o = 0x0C then some (s.bankSel l v)
    else if o = 0x30 then some (s.seekGo l v)
    else if o = 0xAC then some (s.learnerData l (some v))
    else if 0x2000 ≤ o ∧ o < 0x4000 then some (s.coefWrite l o v)
    else none
  else none

/-- A write in the ranges of the cores, caches, DMA and ports that has a row of its own; maintenance registers of another
requester end with a bus error (13 R340). -/
def State.coreRow (s : State) (req a v : Nat) : Option State :=
  if a = 0x40500008 then some (s.coreCtl v)
  else if 0x40500010 ≤ a ∧ a < 0x40500020 then some (s.l1Ctl ((a - 0x40500010) / 4) v)
  else if a = 0x40500040 then some (s.l2SweepCtl v)
  else if 0x40500100 ≤ a ∧ a < 0x405001A0 then
    let r := (a - 0x40500100) / 0x20
    if r ≠ req then some (s.answer .busError)
    else if a % 0x20 = 0x10 then some (s.mntCtl r v)
    else none
  else if 0x40601000 ≤ a ∧ a < 0x40601400 ∧ a % 0x20 = 0 then
    let c := (a - 0x40601000) / 0x20
    some (if hasBit v 0 then s.dmaStart c else s.dmaDrop c)
  else if a = 0x40200100 ∨ a = 0x40240100 then some (s.hctl ((a - 0x40200100) / 0x40000) v)
  else if a = 0x40200120 then some (s.winCommit 2 (bits v 5 0))
  else match winAt a with
    | some (i, o) => some (s.stageWrite i o 4 v)
    | none => none

/-- A write in the other ranges that has a row of its own. -/
def State.unitRow (s : State) (req a v : Nat) : Option State :=
  let w : Word := BitVec.ofNat 32 v
  match a with
  | 0x40000014 => some (s.rstCtl v)
  | 0x4000001C => some (resState (execWatchdogKick w s) s)
  | 0x40000100 => some (s.pdReq 0 v)
  | 0x40000104 => some (s.pdReq 1 v)
  | 0x40000108 => some (s.pdReq 2 v)
  | 0x40000300 => some (s.pwrState v)
  | 0x40000510 => some (s.afeFit 0 v)
  | 0x40000514 => some (s.afeFit 1 v)
  | 0x40000500 => some (resState (execFlipArm w s) s)
  | 0x40E00000 => some (s.spnCtl v)
  | 0x40E0000C => some (s.spnSet v)
  | 0x40E00044 => some (s.ladderWrite v)
  | 0x40E00084 => some (s.retCmd v)
  | 0x40E00088 => some (s.parkedClear v)
  | 0x40F00000 => some (s.sptCtl v)
  | 0x40400064 => some (resState (execPprRequest w s) s)
  | 0x40400084 => some (s.rawCtl v)
  | 0x404000C0 => some (s.scrubCtl v)
  | 0x40100008 => some (s.secBoot v)
  | 0x40100018 => some (s.secReqCtl v)
  | 0x41000034 => some (resState (execDbgTokenDataWrite w s) s)
  | 0x41000038 => some (s.tokenCtl v)
  | 0x40800000 => some (s.ringCtl v)
  | 0x40900000 => some (s.chdCtl v)
  | 0x40700000 => some (s.evrCtl v)
  | 0x40700030 => some (resState (execEvrRaiseWrite (Fin.ofNat 5 req) w s) s)
  | 0x40700084 => some (resState (execRateLimitWrite 0x84 w s) s)
  | 0x40700088 => some (resState (execRateLimitWrite 0x88 w s) s)
  | _ => none

/-- A write of a register with a row of its own. CHN_PA_CMD records a rejection in the view written (06 R174). -/
def State.writeRow (s : State) (req addr a v : Nat) : Option State :=
  if a / 0x100000 = 0x40A ∧ a % 0x10000 = 0x404 then
    some (resState (execPaCmdWrite (Fin.ofNat 16 (addr % 0x100000 / 0x10000)) (BitVec.ofNat 32 v) s) s)
  else match s.actRow a v with
    | some t => some t
    | none => match s.coreRow req a v with
      | some t => some t
      | none => s.unitRow req a v

/-- A write of the upper register of a pair: checked with the held lower half, and both take effect or neither does; the
held half is discarded either way (R10). Without a held half the lower register keeps its value. -/
def State.highWrite (s : State) (addr a v : Nat) : State :=
  match regAt a, regAt (a - 4) with
  | some r, some r' =>
    let lo := (SMap.look s.held (a - 4)).getD (s.regWord (a - 4))
    let t := s.setHeld (SMap.del s.held (a - 4))
    let c := if r'.check lo ≠ 0 then r'.check lo else r.check v
    let c := if c = 0 then s.writeCode a (lo + 2 ^ 32 * v) else c
    if c ≠ 0 then t.rejectAt addr c else (t.writeFields r' (a - 4) lo).writeFields r a v
  | _, _ => s

/-- A 32-bit write of the register at `addr` by requester `req` (R8 to R17). -/
def State.regWrite (s : State) (req addr v : Nat) : State :=
  if s.busFails addr then s.answer .busError
  else
    let a := canon addr
    let s := s.answer .none
    match s.writeRow req addr a v with
    | some t => t
    | none =>
      if isLow a then s.setHeld (SMap.set s.held a v)
      else if isHigh a then s.highWrite addr a v
      else s.plainWrite addr a v

/-! ## The rows -/

/-- REGISTER_WRITE (R8, R9): any other width ends with a bus error. -/
def execRegisterWrite (req : Fin 5) (addr size : Nat) (value : Word) (s : State) : Res :=
  .next (if size ≠ 4 then s.answer .busError else s.regWrite req.val addr value.toNat)

/-- COUNTER_READ (R8, R9): the value, and then the RC fields are clear; any other width ends with a bus error. -/
def execCounterRead (acc : BusAccess) (s : State) : Res :=
  .next (if acc.size ≠ 4 then s.answer .busError else s.regRead acc.addr)

/-- LOW_HALF_READ (R9, R10): the lower register, with the upper half latched; any other width ends with a bus error. -/
def execLowHalfRead (acc : BusAccess) (s : State) : Res :=
  .next (if acc.size ≠ 4 then s.answer .busError else s.regRead acc.addr)

/-- HIGH_HALF_WRITE (R9, R10): a write at the upper register of a pair; any other width ends with a bus error. -/
def execHighHalfWrite (acc : BusAccess) (value : Word) (s : State) : Res :=
  .next (if acc.size ≠ 4 ∨ s.busFails acc.addr then s.answer .busError
    else if isHigh (canon acc.addr) then (s.answer .none).highWrite acc.addr (canon acc.addr) value.toNat
    else s)

/-- A register that SMBus may read: SYS, SPT and MTR; SYS_ID and SYS_STRAP alone once start-up has stopped at a failed
fuse map (16 R421, 02 R67). -/
def State.smbReadable (s : State) (a : Nat) : Bool :=
  a % 4 == 0 && (regAt a).isSome &&
    (if s.pwr.stopped then decide (a = 0x40000000) || decide (a = 0x40000004)
     else a / 0x100000 == 0x400 || a / 0x100000 == 0x40E || a / 0x100000 == 0x40F)

/-- A read that clears no RC field: a lower register latches its upper half, and an upper one returns what is latched (00 R10,
16 R421). -/
def State.peek (s : State) (a : Nat) : State :=
  match (if isHigh a then SMap.look s.shadow (a - 4) else none) with
  | some v => (s.setShadow (SMap.del s.shadow (a - 4))).answer (.data v)
  | none => ((s.latch64 a).answer (.data (s.regWord a))).draw (b2n (freeView a))

/-- SMBUS_REGISTER_READ (16 R421): the register at the set address, which then advances by 4; RC registers are not
cleared. The pins answer only while they are live (01 Table MOD-8). -/
def execSmbusRegisterRead (s : State) : Res :=
  let a := s.adm.smbAddr
  .next (if s.smbLive && s.smbReadable a then (s.peek a).modAdm (fun x => { x with smbAddr := (a + 4) % 2 ^ 32 })
    else s.answer .nack)

end Sys2Proof.Machine
end

