-- ==== Sys2Proof/Machine/Dispatch.lean ====
section
/-! DEFINITION. One arm per command: the call of its meaning. -/

namespace Sys2Proof.Machine

def exec (i : Instr) (s : State) : Host.Outcome State Fault Refusal :=
  match i with
  | .registerWrite req addr size value => Sys2Proof.Machine.execRegisterWrite req addr size value s
  | .counterRead acc => Sys2Proof.Machine.execCounterRead acc s
  | .lowHalfRead acc => Sys2Proof.Machine.execLowHalfRead acc s
  | .highHalfWrite acc value => Sys2Proof.Machine.execHighHalfWrite acc value s
  | .sysPorNLow => Sys2Proof.Machine.execSysPorNLow s
  | .sysPorNRise straps => Sys2Proof.Machine.execSysPorNRise straps s
  | .pllLock => Sys2Proof.Machine.execPllLock s
  | .fuseMapLoad good repaired => Sys2Proof.Machine.execFuseMapLoad good repaired s
  | .nutStart => Sys2Proof.Machine.execNutStart s
  | .slotChoice puf recovery active fallback staging entropy => Sys2Proof.Machine.execSlotChoice puf recovery active fallback staging entropy s
  | .hbmTrainingDone good => Sys2Proof.Machine.execHbmTrainingDone good s
  | .l2InvalidationDone => Sys2Proof.Machine.execL2InvalidationDone s
  | .mainRelease peg maps => Sys2Proof.Machine.execMainRelease peg maps s
  | .restoreSave headerA headerB a b => Sys2Proof.Machine.execRestoreSave headerA headerB a b s
  | .ready => Sys2Proof.Machine.execReady s
  | .clockMonitorWindow measured => Sys2Proof.Machine.execClockMonitorWindow measured s
  | .vmonFault => Sys2Proof.Machine.execVmonFault s
  | .watchdogExpiry ms => Sys2Proof.Machine.execWatchdogExpiry ms s
  | .watchdogKick value => Sys2Proof.Machine.execWatchdogKick value s
  | .softReset value => Sys2Proof.Machine.execSoftReset value s
  | .debugReset => Sys2Proof.Machine.execDebugReset s
  | .deferredReset => Sys2Proof.Machine.execDeferredReset s
  | .pdReqWrite n value => Sys2Proof.Machine.execPdReqWrite n value s
  | .domainRampStart => Sys2Proof.Machine.execDomainRampStart s
  | .domainRampDone d => Sys2Proof.Machine.execDomainRampDone d s
  | .domainPowerDownDone d => Sys2Proof.Machine.execDomainPowerDownDone d s
  | .pwrStateWrite value => Sys2Proof.Machine.execPwrStateWrite value s
  | .afeFitWrite n value => Sys2Proof.Machine.execAfeFitWrite n value s
  | .idleEntry => Sys2Proof.Machine.execIdleEntry s
  | .idleExit => Sys2Proof.Machine.execIdleExit s
  | .dozeEntry => Sys2Proof.Machine.execDozeEntry s
  | .spinDownStart => Sys2Proof.Machine.execSpinDownStart s
  | .dozeExit => Sys2Proof.Machine.execDozeExit s
  | .sleepEntry => Sys2Proof.Machine.execSleepEntry s
  | .sleepExit => Sys2Proof.Machine.execSleepExit s
  | .vioLoss => Sys2Proof.Machine.execVioLoss s
  | .perstAssert p => Sys2Proof.Machine.execPerstAssert p s
  | .perstDeassert p => Sys2Proof.Machine.execPerstDeassert p s
  | .vinWarn vin => Sys2Proof.Machine.execVinWarn vin s
  | .vinWarnRelease vin => Sys2Proof.Machine.execVinWarnRelease vin s
  | .vinFail vin => Sys2Proof.Machine.execVinFail vin s
  | .saveBegin => Sys2Proof.Machine.execSaveBegin s
  | .saveCommit ms vstore => Sys2Proof.Machine.execSaveCommit ms vstore s
  | .vholdRestore => Sys2Proof.Machine.execVholdRestore s
  | .saveIncomplete chunks => Sys2Proof.Machine.execSaveIncomplete chunks s
  | .vstoreArmed vstore => Sys2Proof.Machine.execVstoreArmed vstore s
  | .selfTestStart => Sys2Proof.Machine.execSelfTestStart s
  | .selfTestDone ticks => Sys2Proof.Machine.execSelfTestDone ticks s
  | .selfTestDrawTimeout => Sys2Proof.Machine.execSelfTestDrawTimeout s
  | .selfTestRetry => Sys2Proof.Machine.execSelfTestRetry s
  | .chargeTimeout => Sys2Proof.Machine.execChargeTimeout s
  | .sptTest => Sys2Proof.Machine.execSptTest s
  | .sptRelease => Sys2Proof.Machine.execSptRelease s
  | .retryHeld => Sys2Proof.Machine.execRetryHeld s
  | .relocation nsid lba member row spareRows => Sys2Proof.Machine.execRelocation nsid lba member row spareRows s
  | .memberStart slot => Sys2Proof.Machine.execMemberStart slot s
  | .loopUpdate slot loop elem cell lead streams => Sys2Proof.Machine.execLoopUpdate slot loop elem cell lead streams s
  | .defectDeclare slot cell streams => Sys2Proof.Machine.execDefectDeclare slot cell streams s
  | .defectWindowClose slot => Sys2Proof.Machine.execDefectWindowClose slot s
  | .captureDone slot e0 e1 e2 => Sys2Proof.Machine.execCaptureDone slot e0 e1 e2 s
  | .sbHoldWrite slot value => Sys2Proof.Machine.execSbHoldWrite slot value s
  | .sbDataRead slot => Sys2Proof.Machine.execSbDataRead slot s
  | .eqTapAdapt slot run => Sys2Proof.Machine.execEqTapAdapt slot run s
  | .syncSearchEnd slot streams => Sys2Proof.Machine.execSyncSearchEnd slot streams s
  | .resyncSearchEnd slot frag streams => Sys2Proof.Machine.execResyncSearchEnd slot frag streams s
  | .fastPathDone slot entry upset => Sys2Proof.Machine.execFastPathDone slot entry upset s
  | .deepAttemptStart engine => Sys2Proof.Machine.execDeepAttemptStart engine s
  | .deepAttemptDone engine upset => Sys2Proof.Machine.execDeepAttemptDone engine upset s
  | .sectLoRead slot => Sys2Proof.Machine.execSectLoRead slot s
  | .sectHiRead slot => Sys2Proof.Machine.execSectHiRead slot s
  | .preampFrameDone act data => Sys2Proof.Machine.execPreampFrameDone act data s
  | .paCmdWrite slot value => Sys2Proof.Machine.execPaCmdWrite slot value s
  | .clockField slot measured samples => Sys2Proof.Machine.execClockField slot measured samples s
  | .mediaClockLock slot => Sys2Proof.Machine.execMediaClockLock slot s
  | .lossOfLock slot => Sys2Proof.Machine.execLossOfLock slot s
  | .codewordEncodeDone slot info parity => Sys2Proof.Machine.execCodewordEncodeDone slot info parity s
  | .codewordUnderrun slot => Sys2Proof.Machine.execCodewordUnderrun slot s
  | .sensorSample input code => Sys2Proof.Machine.execSensorSample input code s
  | .shockClear => Sys2Proof.Machine.execShockClear s
  | .preampFault act => Sys2Proof.Machine.execPreampFault act s
  | .nop act thread => Sys2Proof.Machine.execNop act thread s
  | .ldcmp act thread => Sys2Proof.Machine.execLdcmp act thread s
  | .addcmp act thread => Sys2Proof.Machine.execAddcmp act thread s
  | .ldlc act thread => Sys2Proof.Machine.execLdlc act thread s
  | .declc act thread => Sys2Proof.Machine.execDeclc act thread s
  | .takerun act thread w c => Sys2Proof.Machine.execTakerun act thread w c s
  | .nextsec act thread w c => Sys2Proof.Machine.execNextsec act thread w c s
  | .nextfrag act thread => Sys2Proof.Machine.execNextfrag act thread s
  | .skip act thread => Sys2Proof.Machine.execSkip act thread s
  | .endmember act thread => Sys2Proof.Machine.execEndmember act thread s
  | .endfrag act thread => Sys2Proof.Machine.execEndfrag act thread s
  | .tabBeatEnd act thread w c => Sys2Proof.Machine.execTabBeatEnd act thread w c s
  | .edgeQueuePush act thread w c => Sys2Proof.Machine.execEdgeQueuePush act thread w c s
  | .edgeEntryApply slot => Sys2Proof.Machine.execEdgeEntryApply slot s
  | .runPush act value => Sys2Proof.Machine.execRunPush act value s
  | .runDone act loc => Sys2Proof.Machine.execRunDone act loc s
  | .fmtDoneRead act => Sys2Proof.Machine.execFmtDoneRead act s
  | .revisitExhausted act loc => Sys2Proof.Machine.execRevisitExhausted act loc s
  | .courseCommit act value => Sys2Proof.Machine.execCourseCommit act value s
  | .courseBarrier act => Sys2Proof.Machine.execCourseBarrier act s
  | .capoDataWrite act value => Sys2Proof.Machine.execCapoDataWrite act value s
  | .capoVerify act value => Sys2Proof.Machine.execCapoVerify act value s
  | .capoVerifyDone act => Sys2Proof.Machine.execCapoVerifyDone act s
  | .fmtRunWrite act value => Sys2Proof.Machine.execFmtRunWrite act value s
  | .formatterReset act value => Sys2Proof.Machine.execFormatterReset act value s
  | .tabMachineCheck act thread flips => Sys2Proof.Machine.execTabMachineCheck act thread flips s
  | .sweepStep act flips => Sys2Proof.Machine.execSweepStep act flips s
  | .sweepPassEnd act pass => Sys2Proof.Machine.execSweepPassEnd act pass s
  | .servoField slot field => Sys2Proof.Machine.execServoField slot field s
  | .servoTrackEntry slot => Sys2Proof.Machine.execServoTrackEntry slot s
  | .servoLost slot => Sys2Proof.Machine.execServoLost slot s
  | .wedgeTick stamp => Sys2Proof.Machine.execWedgeTick stamp s
  | .revTicksAged => Sys2Proof.Machine.execRevTicksAged s
  | .servoSourceEnable act loc value => Sys2Proof.Machine.execServoSourceEnable act loc value s
  | .microJob act => Sys2Proof.Machine.execMicroJob act s
  | .headHeld act head => Sys2Proof.Machine.execHeadHeld act head s
  | .laneLost act => Sys2Proof.Machine.execLaneLost act s
  | .settleDone act => Sys2Proof.Machine.execSettleDone act s
  | .followingError act => Sys2Proof.Machine.execFollowingError act s
  | .pesClear act => Sys2Proof.Machine.execPesClear act s
  | .laneOn act value => Sys2Proof.Machine.execLaneOn act value s
  | .laneOff act value => Sys2Proof.Machine.execLaneOff act value s
  | .seekGo act value => Sys2Proof.Machine.execSeekGo act value s
  | .laneCompareFault act upset => Sys2Proof.Machine.execLaneCompareFault act upset s
  | .idleComparePass act upset => Sys2Proof.Machine.execIdleComparePass act upset s
  | .laneReset act value => Sys2Proof.Machine.execLaneReset act value s
  | .bankSelWrite act value => Sys2Proof.Machine.execBankSelWrite act value s
  | .coefficientWrite act offset value => Sys2Proof.Machine.execCoefficientWrite act offset value s
  | .learnerDataAccess act write => Sys2Proof.Machine.execLearnerDataAccess act write s
  | .spindleStart value => Sys2Proof.Machine.execSpindleStart value s
  | .spindleStop value => Sys2Proof.Machine.execSpindleStop value s
  | .senseEnd lowAmplitude dir speed step => Sys2Proof.Machine.execSenseEnd lowAmplitude dir speed step s
  | .preBrakeSample speed => Sys2Proof.Machine.execPreBrakeSample speed s
  | .alignEnd => Sys2Proof.Machine.execAlignEnd s
  | .rampLimit => Sys2Proof.Machine.execRampLimit s
  | .zeroCrossing times values => Sys2Proof.Machine.execZeroCrossing times values s
  | .handover => Sys2Proof.Machine.execHandover s
  | .commutation step => Sys2Proof.Machine.execCommutation step s
  | .zcMiss => Sys2Proof.Machine.execZcMiss s
  | .zcLost => Sys2Proof.Machine.execZcLost s
  | .atSpeed => Sys2Proof.Machine.execAtSpeed s
  | .atSpeedLost => Sys2Proof.Machine.execAtSpeedLost s
  | .spinupTimeout => Sys2Proof.Machine.execSpinupTimeout s
  | .brakeStop speed => Sys2Proof.Machine.execBrakeStop speed s
  | .wedgeTickTimeout => Sys2Proof.Machine.execWedgeTickTimeout s
  | .chopperOn vmot => Sys2Proof.Machine.execChopperOn vmot s
  | .chopperOff vmot => Sys2Proof.Machine.execChopperOff vmot s
  | .ladderShortBrake vmot => Sys2Proof.Machine.execLadderShortBrake vmot s
  | .ovp vmot => Sys2Proof.Machine.execOvp vmot s
  | .chopperFault late measured => Sys2Proof.Machine.execChopperFault late measured s
  | .vmotSwitchOpen vin vmot => Sys2Proof.Machine.execVmotSwitchOpen vin vmot s
  | .vmotSwitchClose vin vmot => Sys2Proof.Machine.execVmotSwitchClose vin vmot s
  | .vinHigh vin => Sys2Proof.Machine.execVinHigh vin s
  | .driverCommand => Sys2Proof.Machine.execDriverCommand s
  | .stopMessage => Sys2Proof.Machine.execStopMessage s
  | .retractCmd value => Sys2Proof.Machine.execRetractCmd value s
  | .retractDone act => Sys2Proof.Machine.execRetractDone act s
  | .parkedClear value => Sys2Proof.Machine.execParkedClear value s
  | .arbitrationRound => Sys2Proof.Machine.execArbitrationRound s
  | .hbmRead cls burst => Sys2Proof.Machine.execHbmRead cls burst s
  | .hbmPartialWrite cls addr len data => Sys2Proof.Machine.execHbmPartialWrite cls addr len data s
  | .hbmRefresh => Sys2Proof.Machine.execHbmRefresh s
  | .pprRequest value => Sys2Proof.Machine.execPprRequest value s
  | .pprDone failed => Sys2Proof.Machine.execPprDone failed s
  | .rawRead => Sys2Proof.Machine.execRawRead s
  | .rawWrite => Sys2Proof.Machine.execRawWrite s
  | .rawOpDone => Sys2Proof.Machine.execRawOpDone s
  | .scrubStart => Sys2Proof.Machine.execScrubStart s
  | .sramSweepStart => Sys2Proof.Machine.execSramSweepStart s
  | .scrubStop reached => Sys2Proof.Machine.execScrubStop reached s
  | .scrubDone => Sys2Proof.Machine.execScrubDone s
  | .flipArm value => Sys2Proof.Machine.execFlipArm value s
  | .flipApply word => Sys2Proof.Machine.execFlipApply word s
  | .coreRelease value => Sys2Proof.Machine.execCoreRelease value s
  | .l1Invalidate core value => Sys2Proof.Machine.execL1Invalidate core value s
  | .l1InvalidateDone core => Sys2Proof.Machine.execL1InvalidateDone core s
  | .l2Fill core addr fetch way store => Sys2Proof.Machine.execL2Fill core addr fetch way store s
  | .l2EvictionWriteback => Sys2Proof.Machine.execL2EvictionWriteback s
  | .cacheClean req target byWay => Sys2Proof.Machine.execCacheClean req target byWay s
  | .cacheInvalidate req target byWay => Sys2Proof.Machine.execCacheInvalidate req target byWay s
  | .cacheCleanInvalidate req target byWay => Sys2Proof.Machine.execCacheCleanInvalidate req target byWay s
  | .maintenanceDone req => Sys2Proof.Machine.execMaintenanceDone req s
  | .l2Sweep => Sys2Proof.Machine.execL2Sweep s
  | .l2SweepDone => Sys2Proof.Machine.execL2SweepDone s
  | .dmaStart ch => Sys2Proof.Machine.execDmaStart ch s
  | .dmaDescriptorDone ch => Sys2Proof.Machine.execDmaDescriptorDone ch s
  | .dmaTransferError ch => Sys2Proof.Machine.execDmaTransferError ch s
  | .dmaDrop ch => Sys2Proof.Machine.execDmaDrop ch s
  | .dmaDrainDone ch => Sys2Proof.Machine.execDmaDrainDone ch s
  | .lockstepMismatch pair => Sys2Proof.Machine.execLockstepMismatch pair s
  | .bar0Request port write off len data => Sys2Proof.Machine.execBar0Request port write off len data s
  | .bar2Request port write addr len data => Sys2Proof.Machine.execBar2Request port write addr len data s
  | .hwinCommit source entry => Sys2Proof.Machine.execHwinCommit source entry s
  | .windowDrainDone entry => Sys2Proof.Machine.execWindowDrainDone entry s
  | .atsTranslationCompletion port addr len xlat rd wr => Sys2Proof.Machine.execAtsTranslationCompletion port addr len xlat rd wr s
  | .atsInvalidate port addr len tag => Sys2Proof.Machine.execAtsInvalidate port addr len tag s
  | .atsInvalidateComplete port => Sys2Proof.Machine.execAtsInvalidateComplete port s
  | .dstateWrite port cfg => Sys2Proof.Machine.execDstateWrite port cfg s
  | .wakeEvent port => Sys2Proof.Machine.execWakeEvent port s
  | .busMasterDisable port reads => Sys2Proof.Machine.execBusMasterDisable port reads s
  | .bmeReadsDrained port => Sys2Proof.Machine.execBmeReadsDrained port s
  | .hctlResume port => Sys2Proof.Machine.execHctlResume port s
  | .functionLevelReset port => Sys2Proof.Machine.execFunctionLevelReset port s
  | .flrDone port => Sys2Proof.Machine.execFlrDone port s
  | .linkDown port => Sys2Proof.Machine.execLinkDown port s
  | .adminSetupWrite port off len data => Sys2Proof.Machine.execAdminSetupWrite port off len data s
  | .controllerEnable port => Sys2Proof.Machine.execControllerEnable port s
  | .controllerDisable port => Sys2Proof.Machine.execControllerDisable port s
  | .doorbellWrite port off len data => Sys2Proof.Machine.execDoorbellWrite port off len data s
  | .commandFetch port entry list => Sys2Proof.Machine.execCommandFetch port entry list s
  | .completionPost seq => Sys2Proof.Machine.execCompletionPost seq s
  | .read seq media => Sys2Proof.Machine.execRead seq media s
  | .write seq blocks hostErr => Sys2Proof.Machine.execWrite seq blocks hostErr s
  | .writeAck seq => Sys2Proof.Machine.execWriteAck seq s
  | .verify seq media => Sys2Proof.Machine.execVerify seq media s
  | .flush seq => Sys2Proof.Machine.execFlush seq s
  | .flushComplete seq => Sys2Proof.Machine.execFlushComplete seq s
  | .zoneReset seq => Sys2Proof.Machine.execZoneReset seq s
  | .zoneFinish seq => Sys2Proof.Machine.execZoneFinish seq s
  | .zoneReport seq => Sys2Proof.Machine.execZoneReport seq s
  | .createQp seq => Sys2Proof.Machine.execCreateQp seq s
  | .deleteQp seq => Sys2Proof.Machine.execDeleteQp seq s
  | .abort seq => Sys2Proof.Machine.execAbort seq s
  | .eventWait seq => Sys2Proof.Machine.execEventWait seq s
  | .identifyController seq => Sys2Proof.Machine.execIdentifyController seq s
  | .identifyNamespace seq => Sys2Proof.Machine.execIdentifyNamespace seq s
  | .getLogHealth seq => Sys2Proof.Machine.execGetLogHealth seq s
  | .getLogFwSlots seq => Sys2Proof.Machine.execGetLogFwSlots seq s
  | .getLogDeferredErrors seq => Sys2Proof.Machine.execGetLogDeferredErrors seq s
  | .getLogEventRecords seq => Sys2Proof.Machine.execGetLogEventRecords seq s
  | .setFeature seq => Sys2Proof.Machine.execSetFeature seq s
  | .getFeature seq => Sys2Proof.Machine.execGetFeature seq s
  | .fwDownload seq units => Sys2Proof.Machine.execFwDownload seq units s
  | .fwCommitCancel seq => Sys2Proof.Machine.execFwCommitCancel seq s
  | .fwCommitPending seq sigs => Sys2Proof.Machine.execFwCommitPending seq sigs s
  | .fwCommitReset seq sigs => Sys2Proof.Machine.execFwCommitReset seq sigs s
  | .fwResetDrainDone => Sys2Proof.Machine.execFwResetDrainDone s
  | .trialTimeout => Sys2Proof.Machine.execTrialTimeout s
  | .bootConfirm value => Sys2Proof.Machine.execBootConfirm value s
  | .tempWarn tj => Sys2Proof.Machine.execTempWarn tj s
  | .smbusStatusRead => Sys2Proof.Machine.execSmbusStatusRead s
  | .smbusAddressWrite addr pecOk => Sys2Proof.Machine.execSmbusAddressWrite addr pecOk s
  | .smbusRegisterRead => Sys2Proof.Machine.execSmbusRegisterRead s
  | .secInfoDeviceNonce seq => Sys2Proof.Machine.execSecInfoDeviceNonce seq s
  | .secInfoEnvelopeKeys seq => Sys2Proof.Machine.execSecInfoEnvelopeKeys seq s
  | .secInfoCertChains seq => Sys2Proof.Machine.execSecInfoCertChains seq s
  | .secInfoRangeTable seq => Sys2Proof.Machine.execSecInfoRangeTable seq s
  | .secInfoDebugNonce seq => Sys2Proof.Machine.execSecInfoDebugNonce seq s
  | .attest seq => Sys2Proof.Machine.execAttest seq s
  | .secOwnerTake seq env => Sys2Proof.Machine.execSecOwnerTake seq env s
  | .secOwnerChange seq env => Sys2Proof.Machine.execSecOwnerChange seq env s
  | .secOwnerSetLock seq env => Sys2Proof.Machine.execSecOwnerSetLock seq env s
  | .secOwnerClearLock seq env => Sys2Proof.Machine.execSecOwnerClearLock seq env s
  | .secOwnerRevert seq env => Sys2Proof.Machine.execSecOwnerRevert seq env s
  | .secOwnerRaiseSvn seq env => Sys2Proof.Machine.execSecOwnerRaiseSvn seq env s
  | .secOwnerSetRoster seq env roster => Sys2Proof.Machine.execSecOwnerSetRoster seq env roster s
  | .secRangeDefine seq env => Sys2Proof.Machine.execSecRangeDefine seq env s
  | .secRangeDelete seq env => Sys2Proof.Machine.execSecRangeDelete seq env s
  | .secRangeLock seq env => Sys2Proof.Machine.execSecRangeLock seq env s
  | .secRangeUnlock seq env => Sys2Proof.Machine.execSecRangeUnlock seq env s
  | .secRangeErase seq env => Sys2Proof.Machine.execSecRangeErase seq env s
  | .mkDiscard range => Sys2Proof.Machine.execMkDiscard range s
  | .secDebug seq token sigs => Sys2Proof.Machine.execSecDebug seq token sigs s
  | .getRandom seq => Sys2Proof.Machine.execGetRandom seq s
  | .secRequest => Sys2Proof.Machine.execSecRequest s
  | .secRequestDone => Sys2Proof.Machine.execSecRequestDone s
  | .dbgTokenDataWrite value => Sys2Proof.Machine.execDbgTokenDataWrite value s
  | .dbgTokenGo sigs => Sys2Proof.Machine.execDbgTokenGo sigs s
  | .debugPortOpen => Sys2Proof.Machine.execDebugPortOpen s
  | .rngTestFail => Sys2Proof.Machine.execRngTestFail s
  | .drbgReseed => Sys2Proof.Machine.execDrbgReseed s
  | .sessionRekey peer hours => Sys2Proof.Machine.execSessionRekey peer hours s
  | .oldKeyExpiry peer => Sys2Proof.Machine.execOldKeyExpiry peer s
  | .keyLimitStop peer hours => Sys2Proof.Machine.execKeyLimitStop peer hours s
  | .flitReceive east fec tag flit => Sys2Proof.Machine.execFlitReceive east fec tag flit s
  | .linkFlit east credits member is2208 => Sys2Proof.Machine.execLinkFlit east credits member is2208 s
  | .creditReturn east => Sys2Proof.Machine.execCreditReturn east s
  | .heartbeatSend => Sys2Proof.Machine.execHeartbeatSend s
  | .heartbeatReceive src hb => Sys2Proof.Machine.execHeartbeatReceive src hb s
  | .memberFailTimeout member => Sys2Proof.Machine.execMemberFailTimeout member s
  | .selfFence => Sys2Proof.Machine.execSelfFence s
  | .segmentSignalLoss east => Sys2Proof.Machine.execSegmentSignalLoss east s
  | .segmentRetrainTimeout east => Sys2Proof.Machine.execSegmentRetrainTimeout east s
  | .spliceTimeout => Sys2Proof.Machine.execSpliceTimeout s
  | .spliceRetry => Sys2Proof.Machine.execSpliceRetry s
  | .ringJoin member leave => Sys2Proof.Machine.execRingJoin member leave s
  | .ringLeave => Sys2Proof.Machine.execRingLeave s
  | .leaveTimeout => Sys2Proof.Machine.execLeaveTimeout s
  | .mapCommit order => Sys2Proof.Machine.execMapCommit order s
  | .mapAccept src map => Sys2Proof.Machine.execMapAccept src map s
  | .ringFence src => Sys2Proof.Machine.execRingFence src s
  | .ringRate src code => Sys2Proof.Machine.execRingRate src code s
  | .claimSend => Sys2Proof.Machine.execClaimSend s
  | .claimReceive member epoch => Sys2Proof.Machine.execClaimReceive member epoch s
  | .claimWin => Sys2Proof.Machine.execClaimWin s
  | .quorumLoss => Sys2Proof.Machine.execQuorumLoss s
  | .ringSession peer chainsOk idk => Sys2Proof.Machine.execRingSession peer chainsOk idk s
  | .ringWrite east src number waddr flen parts => Sys2Proof.Machine.execRingWrite east src number waddr flen parts s
  | .ringReadReq east src number waddr flen => Sys2Proof.Machine.execRingReadReq east src number waddr flen s
  | .ringReadResp src number data => Sys2Proof.Machine.execRingReadResp src number data s
  | .ringAck src number => Sys2Proof.Machine.execRingAck src number s
  | .ringNack src number code => Sys2Proof.Machine.execRingNack src number code s
  | .frameTimeout number => Sys2Proof.Machine.execFrameTimeout number s
  | .frameRetry number => Sys2Proof.Machine.execFrameRetry number s
  | .layoutCommit value => Sys2Proof.Machine.execLayoutCommit value s
  | .chordWrite addrs => Sys2Proof.Machine.execChordWrite addrs s
  | .chordRead nsid lba strips => Sys2Proof.Machine.execChordRead nsid lba strips s
  | .stripDataWrite src cell fail => Sys2Proof.Machine.execStripDataWrite src cell fail s
  | .stripParityDelta src cell fail => Sys2Proof.Machine.execStripParityDelta src cell fail s
  | .stripRead src cell fail => Sys2Proof.Machine.execStripRead src cell fail s
  | .stripParityWrite src cell fail => Sys2Proof.Machine.execStripParityWrite src cell fail s
  | .stripDone member cell fail => Sys2Proof.Machine.execStripDone member cell fail s
  | .stripLost src cell => Sys2Proof.Machine.execStripLost src cell s
  | .stripJournal src cell => Sys2Proof.Machine.execStripJournal src cell s
  | .stripRetire src cell => Sys2Proof.Machine.execStripRetire src cell s
  | .lockedRetry => Sys2Proof.Machine.execLockedRetry s
  | .journalRecover reads => Sys2Proof.Machine.execJournalRecover reads s
  | .stampRecovery cands => Sys2Proof.Machine.execStampRecovery cands s
  | .rebuildScan strips => Sys2Proof.Machine.execRebuildScan strips s
  | .reshapeStart => Sys2Proof.Machine.execReshapeStart s
  | .reshapeChordCopy data => Sys2Proof.Machine.execReshapeChordCopy data s
  | .reshapeSwitch => Sys2Proof.Machine.execReshapeSwitch s
  | .eventRaise code severity unit => Sys2Proof.Machine.execEventRaise code severity unit s
  | .evrRaiseWrite req value => Sys2Proof.Machine.execEvrRaiseWrite req value s
  | .bucketRefill code => Sys2Proof.Machine.execBucketRefill code s
  | .eventArchive => Sys2Proof.Machine.execEventArchive s
  | .evrEnable value => Sys2Proof.Machine.execEvrEnable value s
  | .rateLimitWrite offset value => Sys2Proof.Machine.execRateLimitWrite offset value s
  | .linkTrainingDone port rate width flit => Sys2Proof.Machine.execLinkTrainingDone port rate width flit s
  | .aspmLinkStateChange port lstate => Sys2Proof.Machine.execAspmLinkStateChange port lstate s
  | .segmentTrained east bypassed => Sys2Proof.Machine.execSegmentTrained east bypassed s
  | .hbmHot temp => Sys2Proof.Machine.execHbmHot temp s
  | .tempWarnRearm tj => Sys2Proof.Machine.execTempWarnRearm tj s
  | .vinHighRelease vin => Sys2Proof.Machine.execVinHighRelease vin s
  | .smbusBusTimeout => Sys2Proof.Machine.execSmbusBusTimeout s

end Sys2Proof.Machine
end

