-- ==== Sys2Proof/Safety.lean ====
section
/-! DEFINITION. What the statements speak of: the canonical form of the stored tables, the fields and bytes a command
leaves as they were, and the register values that hold in every state. -/

namespace Sys2Proof.Machine

/-- The canonical form of a byte memory: addresses strictly rising, no entry equal to what an unlisted byte reads as. -/
def Memory.wf (m : List Host.Cell) : Bool := SMap.wf m 0

/-- The buffer and the real-time TCM hold their canonical form. -/
def State.memoryOk (s : State) : Bool := Memory.wf s.mem && Memory.wf s.core.tcm

/-- Every register field but those listed holds the value it held. -/
def FieldsKept (s t : State) (K : List Field) : Prop := ∀ F : Field, F.key ∉ K.map Field.key → t.get F = s.get F

/-- Every byte of the buffer reads as it read. -/
def BytesKept (s t : State) : Prop := ∀ a : Nat, t.byte a = s.byte a

/-- Every byte of the buffer outside `n` bytes from `a` reads as it read. -/
def BytesKeptBut (s t : State) (a n : Nat) : Prop := ∀ b : Nat, b < a ∨ a + n ≤ b → t.byte b = s.byte b

/-- The command completes: `exec` answers a next state, and that state has the property. -/
def Runs (c : Instr) (s : State) (P : State → Prop) : Prop := ∃ t, exec c s = .next t ∧ P t

/-- The register fields that the recording of one event may change (20 R512 to R520). -/
def eventFields : List Field :=
  [Reg.EVR_SUPPRESSED_COUNT, Reg.EVR_RL_OVF_COUNT, Reg.EVR_FIFO_DROP_COUNT, Reg.EVR_RECORDED_COUNT, Reg.EVR_HEAD_LO_SEQ,
    Reg.EVR_HEAD_HI_SEQ, Reg.EVR_DONE_LO_SEQ, Reg.EVR_DONE_HI_SEQ]

/-- Every register field is as it was but those listed and those of an event; every byte of the buffer as it was but the
64 of the ring's next record. -/
def EventFrame (s t : State) (K : List Field) : Prop :=
  FieldsKept s t (K ++ eventFields) ∧
    BytesKeptBut s t (s.get Reg.EVR_RING_BASE_ADDR * 2 ^ 22 + s.evr.nextSeq % 65536 * 64) 64

/-- As EventFrame, where any number of events may be recorded: the bytes that may change are those of the ring of records,
4 MiB (20 R515). -/
def EventsFrame (s t : State) (K : List Field) : Prop :=
  FieldsKept s t (K ++ eventFields) ∧ BytesKeptBut s t (s.get Reg.EVR_RING_BASE_ADDR * 2 ^ 22) (2 ^ 22)

/-- Every byte of the buffer outside the restore region and the ring of records is as it was (11 R300, 20 R515). -/
def RestoreFrame (s t : State) : Prop :=
  ∀ a : Nat, a < restoreBase ∨ restoreBase + 0x2000000 ≤ a →
    a < s.get Reg.EVR_RING_BASE_ADDR * 2 ^ 22 ∨ (s.get Reg.EVR_RING_BASE_ADDR + 1) * 2 ^ 22 ≤ a → t.byte a = s.byte a

/-- What every device reset leaves (02 R62 to R64): step 1 with no reset held, no command, window or save, every register
field at its reset value but the causes of this reset, set, and the fields that a reset keeps. -/
def ResetLeft (s t : State) (causes : List Field) : Prop :=
  t.pwr.step = 1 ∧ t.pwr.heldRst = 0 ∧ t.cmds = [] ∧ t.winLive = [] ∧ t.spt.saving = false ∧
    (∀ F ∈ causes, t.get F = 1) ∧
    (∀ F ∈ keptRegs ++ testRegs, F.key ∉ causes.map Field.key → t.get F = s.get F) ∧
    FieldsKept State.reset t (causes ++ keptRegs ++ testRegs) ∧ BytesKept State.reset t

/-- Thread `j` of formatter `a` can fetch, and the word it fetches is `w`, legal, with operation `op`. -/
def State.fetches (s : State) (a j w op : Nat) : Bool :=
  s.canFetch a j && (s.fetchTab a (s.thread a j)).2.2 == w && (tabFault w).isNone && tabOp w == op

/-- A legal table of live window entries: each passes the checks of a commit (14 R360), so that it has a legal SIZE, and
a valid one lies within 4 GiB of window addresses and within the 16 GiB of the buffer, aligned. -/
def windowsLegal (m : SMap WinLive) : Bool := m.all (fun e => (winCheck e.2.raw).isNone)

/-- The live window entries are legal. -/
def State.winsOk (s : State) : Bool := windowsLegal s.winLive

/-- The block is on the media, with no copy in the buffer and no failure known: a command of number `seq` reads it there. -/
def State.fromMedia (s : State) (seq nsid lba : Nat) : Bool :=
  (s.buffered seq nsid lba).isNone && (SMap.look s.spt.failed (lbaKey nsid lba)).isNone &&
    !s.neverWritten seq nsid lba && !s.lostAt nsid lba

/-- The block has never been written and no copy or failure of it is known: it reads as zeros. -/
def State.blank (s : State) (seq nsid lba : Nat) : Bool :=
  (s.buffered seq nsid lba).isNone && (SMap.look s.spt.failed (lbaKey nsid lba)).isNone &&
    s.neverWritten seq nsid lba

/-- No command of lower number has an undecided effect on the blocks of a READ or VERIFY (15 R395). -/
def State.readClear (s : State) (seq : Nat) (k : Cmd) : Bool :=
  match sqeSpan k.sqe with
  | none => false
  | some x => !s.behind seq { x with mods := true } (fun c => c.unplaced && (match c.span with
      | some y => y.mods
      | none => false))

/-- The blocks of a WRITE lie where the buffer answers, without an error in their bursts. -/
def State.placesGood (s : State) (as : List Nat) : Bool :=
  s.hbmUp && s.placesOk as && as.all (fun a => (burstsOf a 4112).all (fun n => s.burstErr n == 0))

/-- The buffer answers for `n` bytes from `a` without an error in their bursts. -/
def State.clean (s : State) (a n : Nat) : Bool := s.hbmUp && (burstsOf a n).all (fun b => s.burstErr b == 0)

/-- The staging partition of `src` holds request `e` of OP `op` in a cell that the ring engine has handed over (19 R488). -/
def State.requestAt (s : State) (src cell op e : Nat) : Bool :=
  s.flag Reg.CHD_CTL_EN && s.chd.inbox.contains (64 * src + cell) && s.clean (s.stageAt + cellOff src cell) 128 &&
    s.loadMem (s.stageAt + cellOff src cell) 128 == e && rqOp e == op && decide (rqFirst e + rqCount e ≤ 64)

/-- The `n` staging slots of `src` from slot `i` read without an error. -/
def State.stagedClean (s : State) (src i n : Nat) : Bool :=
  (List.range n).all (fun j => s.clean (s.stageAt + s.slotOff src (i + j)) 4112)

/-- Block `j` of the staging slots of `src` from slot `i`. -/
def State.stagedAt (s : State) (src i j : Nat) : Nat := s.loadMem (s.stageAt + s.slotOff src (i + j)) 4112

/-- A block of the strip namespace. -/
def State.stripBlock (s : State) (l : Layout) (chord b : Nat) : Nat := SMap.get s.chd.strips 0 (s.stripLba l chord b)

/-- Data strip `j` of a chord is lost at offset `b` (19 R502). -/
def State.isLost (s : State) (slot chord j b : Nat) : Bool := hasBit (SMap.get s.chd.lost 0 (lostKey slot chord j)) b

/-- No request waits for a place, and none has failed. -/
def State.stripsIdle (s : State) : Bool :=
  s.chd.reqs.all (fun e => e.2.place.isSome || e.2.locked) && s.ring.lostReqs.isEmpty

/-- The completion of command `seq` is fixed: status, INFO and RESULT. -/
def State.ended (s : State) (seq sc info result : Nat) : Prop :=
  (SMap.look s.cmds seq).bind Cmd.commit = some ⟨sc, info, result⟩

/-- The bytes of an answer. -/
def Resp.bytes : Resp → Nat
  | .block _ v => v
  | .data v => v
  | _ => 0

/-- The register fields that a reset of host port `p` changes (14 R370). -/
def portFields (p : Nat) : List Field :=
  [Reg.HCTL_EN p, Reg.HSTS_BML p, Reg.HSTS_RESUME_WAIT p, Reg.HST_LINK_BME p, Reg.HST_LINK_MSE p, Reg.HST_LINK_ATS_EN p,
    Reg.HST_LINK_DSTATE p, Reg.HST_ATS_USED 0, Reg.HST_ATS_USED 1]

/-- The register fields that the loss of the link of host port `p` changes. -/
def linkFields (p : Nat) : List Field :=
  [Reg.HST_LINK_UP p, Reg.HST_LINK_LSTATE p, Reg.HST_LINK_RATE p, Reg.HST_LINK_WIDTH p, Reg.HST_LINK_FLIT p,
    Reg.HST_EVT_LINK_DOWN p]

/-- Every register field outside the listed blocks of 1 MiB of register addresses (00, the register map) is as it was. -/
def BlocksKept (s t : State) (bs : List Nat) : Prop := ∀ F : Field, F.key / 2 ^ 25 ∉ bs → t.get F = s.get F

/-- What a counter field reads after `n` more: it stays at its greatest value (00 R8). -/
def State.counted (s : State) (F : Field) (n : Nat) : Nat := satAdd (2 ^ F.width - 1) (s.get F) n % 2 ^ F.width

/-- The register fields that a servo sample of local slot `j` of actuator `a` changes (08 R217, R218; 09 R228). -/
def sampleFields (a j : Nat) : List Field :=
  [Reg.SRV_POS_LO_FLAGS a j, Reg.SRV_POS_LO_TRACK a j, Reg.SRV_POS_HI_VALID a j, Reg.SRV_POS_HI_PAIR a j,
    Reg.SRV_POS_HI_WEDGE a j, Reg.SRV_POS_HI_HEAD a j, Reg.SRV_POS_HI_OFFSET a j, Reg.SRV_VALID_COUNT a,
    Reg.SRV_SAM_MISS_COUNT a, Reg.SRV_TID_ERR_COUNT a, Reg.SRV_CHEV_ERR_COUNT a, Reg.CTL_LANE_STATUS_ACTIVE a]

/-- The register fields that E1's gain loop changes in a servo field of slot `i` (08 R213). -/
def servoGainFields (i : Nat) : List Field := [Reg.CHN_FE_STATE_GAIN i 1, Reg.CHN_FE_RAIL_COUNT i]

/-- A cacheable access of core `c` at an address reaches its L1 and the L2: the core runs, the L2's domain and clock are up and its
initialisation is over (13 R327, R334). -/
def State.l2Ready (s : State) (c addr : Nat) : Bool :=
  hasBit (s.get Reg.CCH_STATUS_RUNNING) c && s.clkOk 27 && s.domOn 93 && !s.flag Reg.CCH_STATUS_INIT_BUSY &&
    decide (0x400000000 ≤ addr) && decide (addr < 0x800000000)

/-- The register fields of a maintenance request of requester `r` (13 Table CPU-6). -/
def mntFields (r : Nat) : List Field :=
  [Reg.CCH_MNT_CTL_BUSY r, Reg.CCH_MNT_CTL_DONE r, Reg.CCH_MNT_CTL_TARGET r, Reg.CCH_MNT_CTL_BY r, Reg.CCH_MNT_CTL_OP r]

/-- The register fields of DMA channel `c` that its work changes (13 Table CPU-8), with its bit of DMA_STATUS. -/
def dmaFields (c : Nat) : List Field :=
  [Reg.DMA_CH_STATUS_STATE c, Reg.DMA_CH_STATUS_DESCS c, Reg.DMA_CH_STATUS_CODE c, Reg.DMA_CH_CTL_EN c,
    Reg.DMA_CH_CUR_LO_ADDR c, Reg.DMA_CH_CUR_HI_ADDR c, Reg.DMA_CH_REMAIN_LINES c, Reg.DMA_CH_TAG_TAG c,
    Reg.DMA_STATUS_ACTIVE]

/-- An answer whose data are poisoned. -/
def Resp.poisonedData : Resp → Bool
  | .poisoned _ => true
  | _ => false

end Sys2Proof.Machine
end

