-- ==== Sys2Proof/Certificates/Slice0/Obligations.lean ====
section
/-! DEFINITION. The statements for the provers: what each command does, by family, and what holds of every step. -/

section

open Sys2Proof Sys2Proof.Machine

/-- For every command c and every state s, step of s with c at the front of its queue is exec of c on s with the rest of
the queue; on an empty queue step answers s itself (log entry 1, the model's choice). -/
def Obligations.StepRunsFront : Prop :=
  (∀ (c : Instr) (cs : List Instr) (s : State), step { s with pending := c :: cs } = exec c { s with pending := cs }) ∧
  (∀ s : State, s.pending = [] → step s = .next s)

/-- REGISTER_WRITE and HIGH_HALF_WRITE. A write of another width than 32 bits, or at an address that ends with a bus error,
answers a bus error and does nothing else. A write of a register without a row of its own that fails a check is rejected
with its code, one that passes writes the fields; a write of the lower register of a pair is held and writes no field. A
write of the upper register writes both registers where both pass, and discards the held half. A register with a row of its own does that
row's work. BUF_SCRUB_START is one
register written whole: its field takes the value, every other field and every byte of the buffer keeps its own. -/
def Obligations.RegisterWrites : Prop :=
  (∀ (req : Fin 5) (addr size : Nat) (v : Word) (s : State), size ≠ 4 →
    Runs (.registerWrite req addr size v) s fun t => t = s.answer .busError) ∧
  (∀ (req : Fin 5) (addr : Nat) (v : Word) (s : State), s.busFails addr = true →
    Runs (.registerWrite req addr 4 v) s fun t => t = s.answer .busError) ∧
  (∀ (req : Fin 5) (addr : Nat) (v : Word) (s u : State), s.busFails addr = false →
    (s.answer .none).writeRow req.val addr (canon addr) v.toNat = some u →
    Runs (.registerWrite req addr 4 v) s fun t => t = u) ∧
  (∀ (req : Fin 5) (v : Word) (s : State), v.toNat < 2 ^ 29 →
    Runs (.registerWrite req 0x404000C4 4 v) s fun t => t.get Reg.BUF_SCRUB_START_BURST = v.toNat ∧
      FieldsKept s t [Reg.BUF_SCRUB_START_BURST] ∧ BytesKept s t) ∧
  (∀ (req : Fin 5) (addr : Nat) (r : RegDef) (v : Word) (s : State), s.busFails addr = false →
    (s.answer .none).writeRow req.val addr (canon addr) v.toNat = none → isLow (canon addr) = false →
    isHigh (canon addr) = false → (canon addr / 0x100000 = 0x40C → canon addr % 0x40000 ≠ 0x40) →
    regAt (canon addr) = some r → r.check v.toNat ≠ 0 →
    Runs (.registerWrite req addr 4 v) s fun t => t = (s.answer .none).rejectAt addr (r.check v.toNat) ∧
      BytesKept s t) ∧
  (∀ (req : Fin 5) (addr : Nat) (r : RegDef) (v : Word) (s : State), s.busFails addr = false →
    (s.answer .none).writeRow req.val addr (canon addr) v.toNat = none → isLow (canon addr) = false →
    isHigh (canon addr) = false → regAt (canon addr) = some r → r.check v.toNat = 0 →
    (s.answer .none).writeCode (canon addr) v.toNat = 0 →
    Runs (.registerWrite req addr 4 v) s fun t => t = (s.answer .none).writeFields r (canon addr) v.toNat) ∧
  (∀ (req : Fin 5) (addr : Nat) (v : Word) (s : State), s.busFails addr = false →
    (s.answer .none).writeRow req.val addr (canon addr) v.toNat = none → isLow (canon addr) = true →
    Runs (.registerWrite req addr 4 v) s fun t => SMap.look t.held (canon addr) = some v.toNat ∧
      FieldsKept s t [] ∧ BytesKept s t) ∧
  (∀ (addr lo : Nat) (r r' : RegDef) (v : Word) (s : State), s.busFails addr = false → isHigh (canon addr) = true →
    regAt (canon addr) = some r → regAt (canon addr - 4) = some r' → SMap.look s.held (canon addr - 4) = some lo →
    r'.check lo = 0 → r.check v.toNat = 0 → (s.answer .none).writeCode (canon addr) (lo + 2 ^ 32 * v.toNat) = 0 →
    Runs (.highHalfWrite ⟨addr, 4⟩ v) s fun t =>
      t = (({ s.answer .none with held := SMap.del s.held (canon addr - 4) }).writeFields r' (canon addr - 4) lo).writeFields
        r (canon addr) v.toNat) ∧
  (∀ (addr size : Nat) (v : Word) (s : State), size ≠ 4 ∨ s.busFails addr = true →
    Runs (.highHalfWrite ⟨addr, size⟩ v) s fun t => t = s.answer .busError)

/-- COUNTER_READ and LOW_HALF_READ of 4 bytes answer the register's value and change no byte of the buffer, and any other
width ends with a bus error; a read of the lower register of a pair latches the upper one, which the next read of the upper
register answers; a read of HST_UR_COUNT leaves the count 0 and every other field as it was. SMBUS_REGISTER_READ answers the
register at the set address, which advances by 4, and clears nothing; it latches and answers the halves of a pair alike, and
it answers nothing while the pins are down or the register is not one that SMBus reads. -/
def Obligations.RegisterReads : Prop :=
  (∀ (addr : Nat) (s : State), s.busFails addr = true →
    Runs (.counterRead ⟨addr, 4⟩) s fun t => t = s.answer .busError) ∧
  (∀ (addr : Nat) (s : State), s.busFails addr = false → s.readRow (canon addr) = none → isHigh (canon addr) = false →
    Runs (.counterRead ⟨addr, 4⟩) s fun t => t.resp = .data (s.regWord (canon addr)) ∧ BytesKept s t) ∧
  (∀ (addr size : Nat) (s : State), size ≠ 4 → Runs (.counterRead ⟨addr, size⟩) s fun t => t = s.answer .busError) ∧
  (∀ (addr size : Nat) (s : State), size ≠ 4 → Runs (.lowHalfRead ⟨addr, size⟩) s fun t => t = s.answer .busError) ∧
  (∀ (addr : Nat) (s : State), s.busFails addr = true → Runs (.lowHalfRead ⟨addr, 4⟩) s fun t => t = s.answer .busError) ∧
  (∀ (p : Fin 2) (s : State), s.domOn (94 + p.val) = true → Runs (.counterRead ⟨(Reg.HST_UR_COUNT p.val).addr, 4⟩) s fun t =>
    t.resp = .data (s.get (Reg.HST_UR_COUNT p.val)) ∧ t.get (Reg.HST_UR_COUNT p.val) = 0 ∧
      FieldsKept s t [Reg.HST_UR_COUNT p.val] ∧ BytesKept s t) ∧
  (∀ (addr : Nat) (s : State), s.busFails addr = false → s.readRow (canon addr) = none → isHigh (canon addr) = false →
    isLow (canon addr) = true →
    Runs (.lowHalfRead ⟨addr, 4⟩) s fun t => t.resp = .data (s.regWord (canon addr)) ∧
      SMap.look t.shadow (canon addr) = some (s.regWord (canon addr + 4)) ∧ BytesKept s t) ∧
  (∀ (addr v : Nat) (s : State), s.busFails addr = false → s.readRow (canon addr) = none → isHigh (canon addr) = true →
    SMap.look s.shadow (canon addr - 4) = some v →
    Runs (.counterRead ⟨addr, 4⟩) s fun t => t.resp = .data v ∧ SMap.look t.shadow (canon addr - 4) = none ∧
      FieldsKept s t [] ∧ BytesKept s t) ∧
  (∀ s : State, s.smbLive = true → s.smbReadable s.adm.smbAddr = true → isHigh s.adm.smbAddr = false →
    Runs .smbusRegisterRead s fun t => t.resp = .data (s.regWord s.adm.smbAddr) ∧
      t.adm.smbAddr = (s.adm.smbAddr + 4) % 2 ^ 32 ∧ (isLow s.adm.smbAddr = true →
        SMap.look t.shadow s.adm.smbAddr = some (s.regWord (s.adm.smbAddr + 4))) ∧ FieldsKept s t [] ∧ BytesKept s t) ∧
  (∀ (v : Nat) (s : State), s.smbLive = true → s.smbReadable s.adm.smbAddr = true → isHigh s.adm.smbAddr = true →
    SMap.look s.shadow (s.adm.smbAddr - 4) = some v → Runs .smbusRegisterRead s fun t => t.resp = .data v ∧
      t.adm.smbAddr = (s.adm.smbAddr + 4) % 2 ^ 32 ∧ SMap.look t.shadow (s.adm.smbAddr - 4) = none ∧ FieldsKept s t [] ∧
      BytesKept s t) ∧
  (∀ s : State, (s.smbLive && s.smbReadable s.adm.smbAddr) = false →
    Runs .smbusRegisterRead s fun t => t = s.answer .nack)

/-- SYS_POR_N_RISE latches the straps and completes step 1; PLL_LOCK completes step 2 and raises the power-cycle count;
FUSE_MAP_LOAD completes step 3, or stops start-up with SYS_FUSE_STAT.ERR; NUT_START completes step 4; SLOT_CHOICE with
the recovery strap and a bootable recovery slot completes step 5 and requests domain 92, and a failed PUF response
stops start-up with SYS_FUSE_STAT.ERR. SYS_POR_N_RISE clears SPT_STATUS.FAIL; SLOT_CHOICE may set SEC_STATUS.RNG_FAIL. Every
other register, and every byte of the buffer, is as it was, but for those of the event that a failure raises. -/
def Obligations.StartUpFirst : Prop :=
  (∀ (x : Straps) (s : State), s.pwr.por = false → Runs (.sysPorNRise x) s fun t =>
    t.pwr.por = true ∧ t.pwr.step = 1 ∧ t.pwr.dev = .active ∧ t.pwr.stopped = false ∧
    t.get Reg.SYS_STRAP_ACT = x.act % 16 ∧ t.get Reg.SYS_STRAP_MGR_SEL = b2n x.mgrSel ∧
    t.get Reg.SYS_STRAP_BOOT_RCV = b2n x.bootRcv ∧ t.get Reg.SYS_STRAP_SMB_ADDR = x.smbAddr % 4 ∧
    t.get Reg.SYS_STRAP_SRIS_A = b2n x.srisA ∧ t.get Reg.SYS_STRAP_SRIS_B = b2n x.srisB ∧ BytesKept s t ∧
    FieldsKept s t [Reg.SYS_STRAP_ACT, Reg.SYS_STRAP_MGR_SEL, Reg.SYS_STRAP_BOOT_RCV, Reg.SYS_STRAP_SMB_ADDR,
      Reg.SYS_STRAP_SRIS_A, Reg.SYS_STRAP_SRIS_B, Reg.SPT_STATUS_FAIL] ∧ t.get Reg.SPT_STATUS_FAIL = 0) ∧
  (∀ s : State, s.pwr.step = 1 → s.pwr.stopped = false → Runs .pllLock s fun t =>
    t.pwr.step = 2 ∧ t.evr.poc = (s.evr.poc + 1) % 2 ^ 32 ∧ FieldsKept s t [] ∧ BytesKept s t) ∧
  (∀ (n : Nat) (s : State), s.pwr.step = 2 → s.pwr.stopped = false → Runs (.fuseMapLoad true n) s fun t =>
    t.pwr.step = 3 ∧ t.get Reg.SYS_FUSE_STAT_LOADED = 1 ∧
    t.get Reg.SYS_FUSE_STAT_REPAIRED = n % 2 ^ Reg.SYS_FUSE_STAT_REPAIRED.width ∧
    FieldsKept s t [Reg.SYS_FUSE_STAT_LOADED, Reg.SYS_FUSE_STAT_REPAIRED] ∧ BytesKept s t) ∧
  (∀ (n : Nat) (s : State), s.pwr.step = 2 → s.pwr.stopped = false → Runs (.fuseMapLoad false n) s fun t =>
    t.pwr.step = 2 ∧ t.pwr.stopped = true ∧ t.get Reg.SYS_FUSE_STAT_ERR = 1 ∧ EventFrame s t [Reg.SYS_FUSE_STAT_ERR]) ∧
  (∀ s : State, s.pwr.step = 3 → s.pwr.stopped = false → Runs .nutStart s fun t =>
    t.pwr.step = 4 ∧ FieldsKept s t [] ∧ BytesKept s t) ∧
  (∀ (r a f g : PkgCheck) (e : Bool) (s : State), s.pwr.step = 4 → s.pwr.stopped = false → s.adm.noSlot = false →
    s.fitted 0 = true → s.flag Reg.SYS_STRAP_BOOT_RCV = true → s.bootable (some s.recoverySlot) r = true →
    Runs (.slotChoice true r a f g e) s fun t => t.pwr.step = 5 ∧ t.adm.booted = some 0 ∧ t.domWanted 92 = true ∧
      EventFrame s t [Reg.SYS_PD_REQ_ON 2, Reg.SEC_STATUS_RNG_FAIL]) ∧
  (∀ (r a f g : PkgCheck) (e : Bool) (s : State), s.pwr.step = 4 → s.pwr.stopped = false → s.adm.noSlot = false →
    Runs (.slotChoice false r a f g e) s fun t => t.pwr.step = 4 ∧ t.pwr.stopped = true ∧
      t.get Reg.SYS_FUSE_STAT_ERR = 1 ∧ EventFrame s t [Reg.SYS_FUSE_STAT_ERR])

/-- HBM_TRAINING_DONE leaves every byte of the buffer 0 with valid check bytes, TRAINED set and domain 93 requested, and
completes step 7, or sets BUF_STATUS.TRAIN_ERR with an event and completes no step; L2_INVALIDATION_DONE clears INIT_BUSY, requests
domain 84 at step 7, and lets the released cores run after step 8; MAIN_RELEASE completes step 8 with the mode that the booted images
give and MEDIA_LOCK from mode 2 on; RESTORE_SAVE completes step 9 with SEQ valid: with no save area found the window and the registers
of SPT_LAST keep what they held, else they name the newest area; READY completes steps 10 and 11 and, where the active slot booted,
records it with no failed starts. Registers not named keep their values, as do the bytes of the buffer outside the restore region and
the records of events. -/
def Obligations.StartUpLast : Prop :=
  (∀ s : State, s.buf.training = true → s.pwr.step = 6 → s.pwr.stopped = false → Runs (.hbmTrainingDone true) s fun t =>
    (∀ a, t.byte a = 0) ∧ t.chk = [] ∧ t.buf.training = false ∧ t.get Reg.BUF_STATUS_TRAINED = 1 ∧ t.pwr.step = 7 ∧
    t.domWanted 93 = true ∧ FieldsKept s t [Reg.BUF_STATUS_TRAINED, Reg.SYS_PD_REQ_ON 2]) ∧
  (∀ s : State, s.buf.training = true → Runs (.hbmTrainingDone false) s fun t =>
    t.buf.training = false ∧ t.get Reg.BUF_STATUS_TRAIN_ERR = 1 ∧ t.pwr.step = s.pwr.step ∧
    EventFrame s t [Reg.BUF_STATUS_TRAIN_ERR]) ∧
  (∀ s : State, s.get Reg.CCH_STATUS_INIT_BUSY = 1 → Runs .l2InvalidationDone s fun t =>
    t.get Reg.CCH_STATUS_INIT_BUSY = 0 ∧ (s.pwr.step = 7 → t.domWanted 84 = true) ∧
    (∀ n : Fin 4, 8 ≤ s.pwr.step → s.spt.failSrc = false → hasBit (s.get Reg.CCH_CORE_CTL_RUN) n.val = true →
      s.domOn (84 + n.val) = true → hasBit (t.get Reg.CCH_STATUS_RUNNING) n.val = true) ∧
    FieldsKept s t [Reg.CCH_STATUS_INIT_BUSY, Reg.CCH_STATUS_RUNNING, Reg.SYS_PD_REQ_ON 2] ∧ BytesKept s t) ∧
  (∀ (peg : List (Nat × Nat)) (maps : List AlignData) (s : State), s.pwr.step = 7 → s.pwr.stopped = false →
    s.domOn 84 = true → s.get Reg.CCH_STATUS_INIT_BUSY = 0 → Runs (.mainRelease peg maps) s fun t =>
      t.pwr.step = 8 ∧
      t.adm.mode = deviceMode (s.fitted 0) Config.stepping (((s.bootedPkg).map FwPkg.descs).getD []) ∧
      t.get Reg.IQI_CTL_MEDIA_LOCK = b2n (decide (2 ≤ t.adm.mode)) ∧
      EventsFrame s t [Reg.IQI_CTL_MEDIA_LOCK, Reg.CCH_STATUS_RUNNING]) ∧
  (∀ (ha hb : Nat) (a b : SaveRead) (s : State), s.pwr.step = 8 → s.pwr.stopped = false → s.foundAreas ha hb = [] →
    Runs (.restoreSave ha hb a b) s fun t => t.pwr.step = 9 ∧ t.get Reg.EVR_STATUS_SEQ_VALID = 1 ∧
      t.spt.window = s.spt.window ∧ t.spt.restored = s.spt.restored ∧
      FieldsKept s t (Reg.EVR_STATUS_SEQ_VALID :: eventFields) ∧ RestoreFrame s t) ∧
  (∀ (ha hb : Nat) (a b : SaveRead) (k : Nat) (n : SaveArea) (r : List (Nat × SaveArea)) (s : State), s.pwr.step = 8 →
    s.pwr.stopped = false → s.foundAreas ha hb = (k, n) :: r →
    Runs (.restoreSave ha hb a b) s fun t => t.pwr.step = 9 ∧ t.get Reg.EVR_STATUS_SEQ_VALID = 1 ∧ t.spt.restored.head? = some k ∧
      t.get Reg.SPT_LAST_FOUND = 1 ∧ t.get Reg.SPT_LAST_COMPLETE = b2n (n.commitOk (if k = 0 then a else b)) ∧
      t.get Reg.SPT_LAST_SEQ_LO_SEQ_LO = n.seq % 2 ^ 32 ∧ t.get Reg.SPT_LAST_SEQ_HI_SEQ_HI = n.seq / 2 ^ 32 % 2 ^ 32 ∧
      t.get Reg.SPT_STATUS_PENDING_REL = 1 ∧ t.get Reg.CHD_STATUS_JNL_RESTORED = 1 ∧
      FieldsKept s t ([Reg.EVR_STATUS_SEQ_VALID, Reg.SPT_LAST_FOUND, Reg.SPT_LAST_COMPLETE, Reg.SPT_LAST_MERGED,
        Reg.SPT_LAST_BAD_CHUNKS, Reg.SPT_LAST_TIME_MS, Reg.SPT_LAST_SEQ_LO_SEQ_LO, Reg.SPT_LAST_SEQ_HI_SEQ_HI,
        Reg.SPT_STATUS_PENDING_REL, Reg.CHD_STATUS_JNL_RESTORED] ++ eventFields) ∧ RestoreFrame s t) ∧
  (∀ s : State, s.pwr.step = 9 → s.pwr.stopped = false → s.adm.fellBack = false → Runs .ready s fun t =>
    t.pwr.step = 11 ∧ t.ready = true ∧ (s.adm.booted = some 1 → t.adm.boot.readySeen = true ∧ t.adm.boot.fails = 0) ∧
    FieldsKept s t [Reg.RING_STATUS_SWITCH] ∧ BytesKept s t)

/-- Where no save runs, each source of a device reset answers step 1 with its cause bit set, the other causes and the straps kept and
every other register at its reset value: VMON_FAULT, WATCHDOG_EXPIRY at its timeout, SOFT_RESET with the key, DEBUG_RESET while debug
is open, FW_RESET_DRAIN_DONE with no command and no cache-mode block outstanding, LOCKSTEP_MISMATCH before step 9; no reset touches the
queue. SYS_POR_N_LOW leaves POR as the one cause, at step 0, whether or not a save runs. While a save runs a soft reset is only held,
and DEFERRED_RESET then takes every held reset with its cause and SAVE_DEFER. A write of SYS_RST_CTL without the key does nothing;
WATCHDOG_EXPIRY before the timeout and WATCHDOG_KICK change the count alone. -/
def Obligations.DeviceResets : Prop :=
  (∀ s : State, Runs .sysPorNLow s fun t => t.pwr.por = false ∧ t.pwr.step = 0 ∧ t.pwr.dev = .off ∧ t.spt.saving = false ∧
    t.get Reg.SYS_RST_CAUSE_POR = 1 ∧ (∀ F ∈ [Reg.SYS_RST_CAUSE_SAVE_DEFER, Reg.SYS_RST_CAUSE_DBG, Reg.SYS_RST_CAUSE_SOFT,
      Reg.SYS_RST_CAUSE_WDOG, Reg.SYS_RST_CAUSE_LOCKSTEP, Reg.SYS_RST_CAUSE_VMON, Reg.SYS_RST_CAUSE_CMON], t.get F = 0) ∧
    FieldsKept State.reset t keptRegs ∧ BytesKept State.reset t ∧ t.pending = s.pending) ∧
  (∀ s : State, s.pwr.por = true → s.pwr.step ≠ 0 → s.spt.saving = false → Runs .vmonFault s fun t =>
    ResetLeft s t [Reg.SYS_RST_CAUSE_VMON] ∧ t.pending = s.pending) ∧
  (∀ (ms : Nat) (s : State), s.pwr.por = true → 1 ≤ s.pwr.step → s.pwr.step < 9 → s.spt.saving = false →
    s.get Reg.SYS_WDOG_CTL_EN = 1 → s.get Reg.SYS_WDOG_CTL_TIMEOUT_MS ≤ s.pwr.wdogMs + ms →
    Runs (.watchdogExpiry ms) s fun t => t.get Reg.SYS_RST_CAUSE_WDOG = 1 ∧ t.pwr.step = 1 ∧ t.pwr.heldRst = 0 ∧
      t.cmds = [] ∧ FieldsKept State.reset t (Reg.SYS_RST_CAUSE_WDOG :: keptRegs ++ testRegs) ∧ BytesKept State.reset t ∧
      t.pending = s.pending) ∧
  (∀ (ms : Nat) (s : State), s.get Reg.SYS_WDOG_CTL_EN = 1 → s.pwr.wdogMs + ms < s.get Reg.SYS_WDOG_CTL_TIMEOUT_MS →
    Runs (.watchdogExpiry ms) s fun t => t = s.setPwr { s.pwr with wdogMs := s.pwr.wdogMs + ms }) ∧
  (∀ (v : Word) (s : State), Runs (.watchdogKick v) s fun t => t = s.setPwr { s.pwr with wdogMs := 0 }) ∧
  (∀ (v : Word) (s : State), bits v.toNat 31 16 = 0x5A5A → hasBit v.toNat 0 = true → s.pwr.por = true → s.pwr.step ≠ 0 →
    s.spt.saving = false → Runs (.softReset v) s fun t => ResetLeft s t [Reg.SYS_RST_CAUSE_SOFT] ∧
      t.pending = s.pending) ∧
  (∀ (v : Word) (s : State), bits v.toNat 31 16 = 0x5A5A → hasBit v.toNat 0 = true → s.pwr.step ≠ 0 →
    s.spt.saving = true → Runs (.softReset v) s fun t =>
      t = s.setPwr { s.pwr with heldRst := setBit s.pwr.heldRst Reg.SYS_RST_CAUSE_SOFT.lo }) ∧
  (∀ (v : Word) (s : State), bits v.toNat 31 16 ≠ 0x5A5A → Runs (.softReset v) s fun t => t = s) ∧
  (∀ s : State, s.sec.dbgOpened = true → s.pwr.por = true → s.pwr.step ≠ 0 → s.spt.saving = false →
    Runs .debugReset s fun t => ResetLeft s t [Reg.SYS_RST_CAUSE_DBG] ∧ t.pending = s.pending) ∧
  (∀ s : State, s.pwr.heldRst ≠ 0 → s.spt.saving = false → s.pwr.por = true → Runs .deferredReset s fun t =>
    ResetLeft s t (Reg.SYS_RST_CAUSE_SAVE_DEFER :: causeFields s.pwr.heldRst) ∧ t.pending = s.pending) ∧
  (∀ s : State, s.fetchStop = true → s.cmds = [] → s.cache.all (fun e => e.2.mode != 1) = true → s.pwr.por = true →
    s.spt.saving = false → Runs .fwResetDrainDone s fun t => ResetLeft s t [Reg.SYS_RST_CAUSE_SOFT] ∧
      t.fetchStop = false ∧ t.pending = s.pending) ∧
  (∀ (p : Fin 5) (s : State), p.val = 4 ∨ hasBit (s.get Reg.CCH_STATUS_RUNNING) p.val = true → s.pwr.por = true →
    1 ≤ s.pwr.step → s.pwr.step < 9 → s.spt.saving = false → Runs (.lockstepMismatch p) s fun t =>
      t.get Reg.SYS_RST_CAUSE_LOCKSTEP = 1 ∧ t.pwr.step = 1 ∧ t.pwr.heldRst = 0 ∧ t.cmds = [] ∧
      FieldsKept State.reset t (Reg.SYS_RST_CAUSE_LOCKSTEP :: keptRegs ++ testRegs) ∧ BytesKept State.reset t ∧
      t.pending = s.pending)

/-- A request word that every check passes is stored, and every settled domain that is then neither requested nor required powers down;
one that a check refuses leaves the requests and records the first failing domain with its code. The lowest-numbered domain that may
ramp goes to ramping while fewer than 8 do and VIN has not failed; a ramping one that is requested comes on with its SYS_PD_STAT bit; a
domain powering down goes off with the bit clear and its registers at reset (but for the keep-store's checkpoint in domain 90). SYS_AFE_FIT0
and 1 take masks of fitted actuators until locked, and reject another with code 5. A first bad window of a live island counts, a
second one flags its clock fault (islands whose fault resets the device aside), and a window without bad islands clears the counts. -/
def Obligations.PowerDomains : Prop :=
  (∀ (n : Fin 3) (v : Word) (s : State), (List.range 32).all (fun i => s.domCheck (fun d => if d / 32 = n.val
      then hasBit v.toNat (d % 32) else s.domWanted d) (32 * n.val + i) == 0) = true →
    Runs (.pdReqWrite n v) s fun t => t.get (Reg.SYS_PD_REQ_ON n.val) = v.toNat ∧
      (List.range 96).all (fun d => t.domSt d == (if s.domOn d && !t.domWanted d &&
        (domDependants d).all (fun x => s.domSt x == .off) then .poweringDown else s.domSt d)) = true ∧
      FieldsKept s t [Reg.SYS_PD_REQ_ON n.val, Reg.SYS_PD_STAT_ON 0, Reg.SYS_PD_STAT_ON 1, Reg.SYS_PD_STAT_ON 2] ∧ BytesKept s t) ∧
  (∀ (n : Fin 3) (v : Word) (i : Nat) (s : State), s.get Reg.SYS_CFG_STATUS_ERR = 0 → i < 32 →
    s.domCheck (fun d => if d / 32 = n.val then hasBit v.toNat (d % 32) else s.domWanted d) (32 * n.val + i) ≠ 0 →
    (List.range i).all (fun j => s.domCheck (fun d => if d / 32 = n.val then hasBit v.toNat (d % 32) else s.domWanted d)
      (32 * n.val + j) == 0) = true →
    Runs (.pdReqWrite n v) s fun t => t.get Reg.SYS_CFG_STATUS_ERR = 1 ∧ t.get Reg.SYS_CFG_STATUS_DOMAIN = 32 * n.val + i ∧
      t.get Reg.SYS_CFG_STATUS_CODE = s.domCheck (fun d => if d / 32 = n.val then hasBit v.toNat (d % 32) else s.domWanted d)
        (32 * n.val + i) ∧ t.pwr = s.pwr ∧ BytesKept s t ∧
      FieldsKept s t [Reg.SYS_CFG_STATUS_ERR, Reg.SYS_CFG_STATUS_CODE, Reg.SYS_CFG_STATUS_DOMAIN]) ∧
  (∀ (d : Nat) (s : State), d < 96 → s.mayRamp d = true → (List.range d).all (fun e => !s.mayRamp e) = true →
    (s.domsIn .ramping).length < 8 → s.get Reg.SPT_STATUS_FAIL = 0 → Runs .domainRampStart s fun t =>
      (List.range 96).all (fun e => t.domSt e == (if e = d then .ramping else s.domSt e)) = true ∧
      FieldsKept s t [Reg.SYS_PD_STAT_ON (d / 32)] ∧ BytesKept s t) ∧
  (∀ (d : Fin 96) (s : State), s.domSt d.val = .ramping → s.domWanted d.val = true → Runs (.domainRampDone d) s fun t =>
    t.domSt d.val = .on ∧ hasBit (t.get (Reg.SYS_PD_STAT_ON (d.val / 32))) (d.val % 32) = true ∧
    FieldsKept s t [Reg.SYS_PD_STAT_ON 0, Reg.SYS_PD_STAT_ON 1, Reg.SYS_PD_STAT_ON 2, Reg.CCH_STATUS_INIT_BUSY,
      Reg.CCH_STATUS_RUNNING] ∧ BytesKept s t) ∧
  (∀ (d : Fin 96) (s : State), s.domSt d.val = .poweringDown → Runs (.domainPowerDownDone d) s fun t =>
    t.domSt d.val = .off ∧ hasBit (t.get (Reg.SYS_PD_STAT_ON (d.val / 32))) (d.val % 32) = false) ∧
  (∀ (d : Fin 96) (F : Field) (s : State), s.domSt d.val = .poweringDown → F.lo < 32 → regDomain F.addr = some d.val →
    F.key ≠ Reg.CHD_K_LO_K.key → F.key ≠ Reg.CHD_K_HI_K.key → Runs (.domainPowerDownDone d) s fun t => t.get F = F.rst) ∧
  (∀ (d : Fin 96) (s : State), s.domSt d.val = .poweringDown → (72 ≤ d.val ∧ d.val < 80) ∨ d.val = 88 ∨ d.val = 89 ∨ d.val = 92 →
    Runs (.domainPowerDownDone d) s fun t => FieldsKept s t [Reg.SYS_PD_STAT_ON 0, Reg.SYS_PD_STAT_ON 1, Reg.SYS_PD_STAT_ON 2] ∧
      BytesKept s t) ∧
  (∀ (v : Word) (s : State), s.get Reg.SYS_AFE_FIT1_LOCK = 0 →
    (maskBits 32 v.toNat).find? (fun i => !s.fitted ((32 * 0 + i) / 12)) = none →
    Runs (.afeFitWrite 0 v) s fun t => t.get Reg.SYS_AFE_FIT0_FIT = v.toNat ∧ FieldsKept s t [Reg.SYS_AFE_FIT0_FIT] ∧
      BytesKept s t) ∧
  (∀ (v : Word) (s : State), s.get Reg.SYS_AFE_FIT1_LOCK = 0 →
    (maskBits 16 v.toNat).find? (fun i => !s.fitted ((32 * 1 + i) / 12)) = none →
    Runs (.afeFitWrite 1 v) s fun t => t.get Reg.SYS_AFE_FIT1_FIT = v.toNat % 2 ^ 16 ∧
      t.get Reg.SYS_AFE_FIT1_LOCK = b2n (hasBit v.toNat 31) ∧
      FieldsKept s t [Reg.SYS_AFE_FIT1_FIT, Reg.SYS_AFE_FIT1_LOCK] ∧ BytesKept s t) ∧
  (∀ (n : Fin 2) (v : Word) (i : Nat) (s : State), s.get Reg.SYS_AFE_FIT1_LOCK = 0 → s.get Reg.SYS_CFG_STATUS_ERR = 0 →
    (maskBits (if n.val = 0 then 32 else 16) v.toNat).find? (fun i => !s.fitted ((32 * n.val + i) / 12)) = some i →
    Runs (.afeFitWrite n v) s fun t => t.get Reg.SYS_CFG_STATUS_ERR = 1 ∧ t.get Reg.SYS_CFG_STATUS_CODE = 5 ∧
      t.get Reg.SYS_CFG_STATUS_DOMAIN = 32 * n.val + i ∧ BytesKept s t ∧
      FieldsKept s t [Reg.SYS_CFG_STATUS_ERR, Reg.SYS_CFG_STATUS_CODE, Reg.SYS_CFG_STATUS_DOMAIN]) ∧
  (∀ (n : Fin 2) (v : Word) (s : State), s.get Reg.SYS_AFE_FIT1_LOCK = 1 → Runs (.afeFitWrite n v) s fun t => t = s) ∧
  (∀ s : State, Runs (.clockMonitorWindow []) s fun t =>
    t = s.setPwr { s.pwr with oor := [], liveIsl := s.liveIslands }) ∧
  (∀ (i hz : Nat) (s : State), i < 44 → hz ≠ 0 → hasBit s.pwr.liveIsl i = true → s.islandLive i = true →
    s.clockOk i hz = false → SMap.get s.pwr.oor 0 i = 0 →
    Runs (.clockMonitorWindow [(i, hz)]) s fun t =>
      t = s.setPwr { s.pwr with oor := [(i, 1)], liveIsl := s.liveIslands }) ∧
  (∀ (i hz : Nat) (s : State), i < 44 → i ≠ 26 → i ≠ 28 → i ≠ 33 → i ≠ 34 → hasBit s.pwr.liveIsl i = true →
    s.islandLive i = true → s.clockOk i hz = false → SMap.get s.pwr.oor 0 i ≠ 0 → hasBit s.clkFaults i = false →
    Runs (.clockMonitorWindow [(i, hz)]) s fun t => hasBit t.clkFaults i = true ∧ t.pwr.oor = [(i, 1)])

/-- Each change of device power state where its conditions hold: Idle, with the requests of the AFE and detector domains withdrawn;
back to Active on media work, with the withdrawn requests made again; towards Doze with mute requested, and the spin-down, which a
media command during it ends in Active; Doze where the spindle stands already; Doze to Active, spinning up; Sleep with the requests
kept aside, and back to Doze with them. SYS_PWR_STATE takes 0 to 3 and rejects the rest with code 6. PERST_N low, where VIO and
SYS_POR_N are high, puts its port in reset with the link down and sets its event, and is only noted otherwise; high releases the port.
A loss of VIO clears VIO and puts the ring's bridge switches in bypass. -/
def Obligations.PowerStates : Prop :=
  (∀ (v : Word) (s : State), bits v.toNat 2 0 < 3 → Runs (.pwrStateWrite v) s fun t =>
    t = s.put Reg.SYS_PWR_STATE_STATE (bits v.toNat 2 0) ∧ t.get Reg.SYS_PWR_STATE_STATE = bits v.toNat 2 0) ∧
  (∀ (v : Word) (s : State), bits v.toNat 2 0 = 3 → Runs (.pwrStateWrite v) s fun t =>
    t.get Reg.SYS_PWR_STATE_STATE = 3 ∧ t.pwr = { s.pwr with wakeArmed := true } ∧
    FieldsKept s t [Reg.SYS_PWR_STATE_STATE] ∧ BytesKept s t) ∧
  (∀ (v : Word) (s : State), 4 ≤ bits v.toNat 2 0 → s.get Reg.SYS_CFG_STATUS_ERR = 0 → Runs (.pwrStateWrite v) s fun t =>
    t.get Reg.SYS_CFG_STATUS_ERR = 1 ∧ t.get Reg.SYS_CFG_STATUS_CODE = 6 ∧ t.pwr = s.pwr ∧ BytesKept s t ∧
    FieldsKept s t [Reg.SYS_CFG_STATUS_ERR, Reg.SYS_CFG_STATUS_CODE, Reg.SYS_CFG_STATUS_DOMAIN]) ∧
  (∀ s : State, s.pwr.dev = .active → s.ready = true → hasBit (s.feature 1) 31 = true →
    s.cmds.all (fun e => !e.2.io) = true → (List.range 64).all s.domIdle = true →
    Runs .idleEntry s fun t => t.pwr.dev = .idle ∧ t.pwr.headsLoaded = false ∧
      (List.range 96).all (fun d => t.domWanted d == (s.domWanted d && decide (64 ≤ d))) = true ∧
      (List.range 64).all (fun d => t.domSt d != .on) = true ∧
      FieldsKept s t [Reg.SYS_PD_REQ_ON 0, Reg.SYS_PD_REQ_ON 1, Reg.SYS_PD_REQ_ON 2, Reg.SYS_PD_STAT_ON 0,
        Reg.SYS_PD_STAT_ON 1, Reg.SYS_PD_STAT_ON 2] ∧ BytesKept s t) ∧
  (∀ s : State, s.pwr.dev = .idle → s.pwr.spinDown = false → Runs .idleExit s fun t =>
    t.pwr = { s.pwr with dev := .active, dozing := false, headsLoaded := true, idleReq := 0 } ∧
    (List.range 96).all (fun d => t.domWanted d == hasBit (s.reqWords ||| s.pwr.idleReq) d) = true ∧
    (s.pwr.dozing = true → t.get Reg.RING_CTL_MUTE_REQ = 0) ∧
    (s.pwr.dozing = false → t.get Reg.RING_CTL_MUTE_REQ = s.get Reg.RING_CTL_MUTE_REQ) ∧
    FieldsKept s t [Reg.SYS_PD_REQ_ON 0, Reg.SYS_PD_REQ_ON 1, Reg.SYS_PD_REQ_ON 2, Reg.RING_CTL_MUTE_REQ] ∧ BytesKept s t) ∧
  (∀ s : State, s.pwr.dev = .idle → s.pwr.spinDown = true → Runs .idleExit s fun t =>
    t = s.setPwr { s.pwr with spinCmd := true }) ∧
  (∀ s : State, s.pwr.dev = .idle → s.pwr.dozing = false → Runs .dozeEntry s fun t =>
    t.pwr = { s.pwr with dozing := true } ∧ t.get Reg.RING_CTL_MUTE_REQ = 1 ∧ FieldsKept s t [Reg.RING_CTL_MUTE_REQ] ∧
    BytesKept s t) ∧
  (∀ s : State, s.pwr.dev = .idle → s.pwr.dozing = true → s.pwr.spinDown = false → s.cache = [] →
    (s.get Reg.RING_STATUS_MUTED ≠ 0 ∨ s.through = false) → s.spin ≠ 0 → Runs .spinDownStart s fun t =>
      t.pwr = { s.pwr with spinDown := true } ∧ t.spin = 6 ∧ BytesKept s t ∧
      FieldsKept s t [Reg.MTR_SPN_STATUS_STATE, Reg.HST_LINK_RATE 0, Reg.HST_LINK_WIDTH 0, Reg.HST_LINK_RATE 1,
        Reg.HST_LINK_WIDTH 1]) ∧
  (∀ s : State, s.pwr.dev = .idle → s.pwr.dozing = true → s.pwr.spinDown = false → s.pwr.spinCmd = false → s.cache = [] →
    (s.get Reg.RING_STATUS_MUTED ≠ 0 ∨ s.through = false) → s.spin = 0 → Runs .spinDownStart s fun t =>
      t.pwr.dev = .doze ∧ t.pwr.dozing = false ∧ t.spin = 0 ∧
      (List.range 96).all (fun d => t.domWanted d → s.domWanted d) = true ∧ BytesKept s t) ∧
  (∀ s : State, s.pwr.dev = .doze → s.get Reg.SPT_STATUS_FAIL = 0 → Runs .dozeExit s fun t => t.pwr.dev = .active ∧
    t.pwr.headsLoaded = (t.get Reg.MTR_SPN_STATUS_AT_SPEED != 0) ∧ (s.spin = 0 → t.spin = 1) ∧ (s.spin ≠ 0 → t.spin = s.spin) ∧
    (List.range 96).all (fun d => t.domWanted d == hasBit (s.reqWords ||| s.pwr.idleReq) d) = true ∧
    t.get Reg.RING_CTL_MUTE_REQ = 0 ∧ BytesKept s t) ∧
  (∀ s : State, s.pwr.dev = .doze → s.pwr.wakeArmed = true → s.portSleeps 0 = true → s.portSleeps 1 = true →
    s.ring.frames = [] → s.chd.reqs = [] → s.core.evict = [] → s.core.l2.all (fun e => !e.2.dirty) = true →
    Runs .sleepEntry s fun t =>
      t.pwr.dev = .sleep ∧ t.pwr.sleepReq = s.reqWords ∧
      (List.range 96).all (fun d => t.domWanted d == (hasBit s.reqWords d && s.sleepDoms.contains d)) = true ∧
      FieldsKept s t [Reg.SYS_PD_REQ_ON 0, Reg.SYS_PD_REQ_ON 1, Reg.SYS_PD_REQ_ON 2, Reg.SYS_PD_STAT_ON 0,
        Reg.SYS_PD_STAT_ON 1, Reg.SYS_PD_STAT_ON 2] ∧ BytesKept s t) ∧
  (∀ s : State, s.pwr.dev = .sleep → Runs .sleepExit s fun t =>
    t.pwr = { s.pwr with dev := .doze, wakeArmed := false, sleepReq := 0 } ∧
    t.get (Reg.SYS_PD_REQ_ON 0) = s.pwr.sleepReq % 2 ^ 32 ∧
    t.get (Reg.SYS_PD_REQ_ON 1) = s.pwr.sleepReq / 2 ^ 32 % 2 ^ 32 ∧
    t.get (Reg.SYS_PD_REQ_ON 2) = s.pwr.sleepReq / 2 ^ 64 % 2 ^ 32 ∧ BytesKept s t ∧
    FieldsKept s t [Reg.SYS_PD_REQ_ON 0, Reg.SYS_PD_REQ_ON 1, Reg.SYS_PD_REQ_ON 2]) ∧
  (∀ s : State, Runs .vioLoss s fun t => t.pwr = { s.pwr with vio := false } ∧ t.get Reg.RING_STATUS_SWITCH = 0 ∧
    t.ring.ports = [] ∧
    EventFrame s t [Reg.RING_STATUS_SWITCH, Reg.RING_STATUS_ROLE, Reg.RING_STATUS_OPEN_E, Reg.RING_STATUS_OPEN_W,
      Reg.RING_STATUS_MUTED, Reg.RING_EVT_ROLE]) ∧
  (∀ (p : Fin 2) (s : State), s.pwr.vio = true → s.pwr.por = true → Runs (.perstAssert p) s fun t =>
    (t.port p.val).perst = true ∧ t.get (Reg.HST_EVT_PERST p.val) = 1 ∧ t.get (Reg.HST_LINK_UP p.val) = 0 ∧
    FieldsKept s t (Reg.HST_EVT_PERST p.val :: linkFields p.val ++ portFields p.val) ∧ BytesKept s t) ∧
  (∀ (p : Fin 2) (s : State), (s.pwr.vio = false ∨ s.pwr.por = false) → Runs (.perstAssert p) s fun t =>
    (t.port p.val).perst = true ∧ FieldsKept s t [] ∧ BytesKept s t) ∧
  (∀ (p : Fin 2) (s : State), Runs (.perstDeassert p) s fun t =>
    t.port p.val = { s.port p.val with perst := false, wakeN := false } ∧ FieldsKept s t [] ∧ BytesKept s t)

/-- RELOCATION gives a sector, while no command in progress covers it, the first unused spare of the order of the rules and takes that
spare out of use; without an unused spare it notes that the LBA has none; while a command is in progress nothing changes. MEMBER_START
puts the member that the committed course gives a slot whose start is due onto it, not ready before its read-back, with
CHN_FE_STATUS showing it and its loops at the seeds of its peg entry (E1's gain aside, which SEARCH sets), provided its elements are
powered and connected, no hold is set and the spindle speed is valid; otherwise the member is refused with code 5 and not begun. No
byte of the buffer changes, and no register outside the channel, formatter, servo and motor blocks. -/
def Obligations.MemberStarts : Prop :=
  (∀ (nsid lba member k : Nat) (row spares : List RowTrack) (s : State), s.inProgress nsid lba = false →
    (spareOrder member row spares).find? (fun k => !s.media.usedSpares.contains k) = some k →
    Runs (.relocation nsid lba member row spares) s fun t => SMap.look t.media.reloc (lbaKey nsid lba) = some k ∧
      t.media.usedSpares = s.media.usedSpares ++ [k] ∧ t.media.pendingLbas = s.media.pendingLbas ∧ FieldsKept s t [] ∧
      BytesKept s t) ∧
  (∀ (nsid lba member : Nat) (row spares : List RowTrack) (s : State), s.inProgress nsid lba = false →
    (spareOrder member row spares).find? (fun k => !s.media.usedSpares.contains k) = none →
    Runs (.relocation nsid lba member row spares) s fun t => t.media.noSpare.contains (lbaKey nsid lba) = true ∧
      t.media.reloc = s.media.reloc ∧ t.media.usedSpares = s.media.usedSpares ∧ FieldsKept s t [] ∧ BytesKept s t) ∧
  (∀ (nsid lba member : Nat) (row spares : List RowTrack) (s : State), s.inProgress nsid lba = true →
    Runs (.relocation nsid lba member row spares) s fun t => t = s) ∧
  (∀ (i : Fin 16) (cm : CMember) (s : State), (s.fmt (i.val / 4)).due.contains (i.val % 4) = true →
    SMap.look (s.fmt (i.val / 4)).course (i.val % 4) = some cm →
    (elems (pegMask ((s.pegFor (12 * (i.val / 4) + cm.head) cm.track).getD 0))).all (fun e =>
      s.domOn (3 * i.val + e) && s.connected i.val e) = true →
    s.get (Reg.CHN_FE_SB_CTL_HOLD i.val) = 0 → s.get Reg.MTR_SPN_SPEED_VALID = 1 →
    Runs (.memberStart i) s fun t => (∃ m, (t.slot i.val).mem = some m ∧ m.head = cm.head ∧ m.track = cm.track ∧
        m.write = cm.write ∧ m.servoOnly = false ∧ m.ready = false ∧ m.offH = cm.offH ∧ m.set = s.latch i.val cm.head) ∧
      (t.slot i.val).window = none ∧ (t.slot i.val).eq = [] ∧ t.get (Reg.CHN_FE_STATUS_ACTIVE i.val) = 1 ∧
      t.get (Reg.CHN_FE_STATUS_HEAD i.val) = cm.head % 2 ^ (Reg.CHN_FE_STATUS_HEAD i.val).width ∧
      t.get (Reg.CHN_FE_STATUS_ELEM i.val) = pegMask ((s.pegFor (12 * (i.val / 4) + cm.head) cm.track).getD 0) % 8 ∧
      t.get (Reg.CHN_MC_STATUS_LOCKED i.val) = 0 ∧ t.get (Reg.CHN_MC_TRIM_TRIM i.val) = 0 ∧
      BlocksKept s t [0x40A00000 / 2 ^ 20, 0x40C00000 / 2 ^ 20, 0x40D00000 / 2 ^ 20, 0x40E00000 / 2 ^ 20] ∧ BytesKept s t) ∧
  (∀ (i : Fin 16) (cm : CMember) (e : Fin 3) (peg : Nat) (s : State), (s.fmt (i.val / 4)).due.contains (i.val % 4) = true →
    SMap.look (s.fmt (i.val / 4)).course (i.val % 4) = some cm → s.pegFor (12 * (i.val / 4) + cm.head) cm.track = some peg →
    (elems (pegMask peg)).all (fun e => s.domOn (3 * i.val + e) && s.connected i.val e) = true →
    s.get (Reg.CHN_FE_SB_CTL_HOLD i.val) = 0 → s.get Reg.MTR_SPN_SPEED_VALID = 1 → hasBit (pegMask peg) e.val = true →
    Runs (.memberStart i) s fun t =>
      (e.val ≠ 1 → t.get (Reg.CHN_FE_STATE_GAIN i.val e.val) = pegGain peg e.val % 256) ∧
      t.get (Reg.CHN_FE_STATE_OFFSET i.val e.val) = pegOffset peg e.val % 256 ∧
      t.get (Reg.CHN_FE_STATE_ASYM i.val e.val) = 0 ∧ t.get (Reg.CHN_FE_STATE_PHASE i.val e.val) = 0 ∧
      t.get (Reg.CHN_FE_WEIGHT_WEIGHT i.val e.val) = pegWeight peg e.val % 65536) ∧
  (∀ (i : Fin 16) (cm : CMember) (s : State), (s.fmt (i.val / 4)).due.contains (i.val % 4) = true →
    SMap.look (s.fmt (i.val / 4)).course (i.val % 4) = some cm →
    (elems (pegMask ((s.pegFor (12 * (i.val / 4) + cm.head) cm.track).getD 0))).any (fun e =>
      !s.domOn (3 * i.val + e) || !s.connected i.val e) = true ∨ s.get (Reg.CHN_FE_SB_CTL_HOLD i.val) ≠ 0 ∨
      s.get Reg.MTR_SPN_SPEED_VALID = 0 →
    s.get (Reg.FMT_CFG_STATUS_ERR (i.val / 4)) = 0 → Runs (.memberStart i) s fun t =>
      (∀ m, (t.slot i.val).mem = some m → m.servoOnly = true) ∧ t.get (Reg.FMT_CFG_STATUS_ERR (i.val / 4)) = 1 ∧
      t.get (Reg.FMT_CFG_STATUS_CODE (i.val / 4)) = 5 ∧ t.get (Reg.CHN_FE_STATUS_ACTIVE i.val) = 0 ∧
      BlocksKept s t [0x40A00000 / 2 ^ 20, 0x40C00000 / 2 ^ 20, 0x40D00000 / 2 ^ 20, 0x40E00000 / 2 ^ 20] ∧ BytesKept s t) ∧
  (∀ (i : Fin 16) (s : State), (s.fmt (i.val / 4)).due.contains (i.val % 4) = false →
    Runs (.memberStart i) s fun t => t = s)

/-- LOOP_UPDATE takes a loop's error from the samples of its interval and of the 4 cells before it. An error within the dead band moves nothing; one beyond it moves
an unheld gain, offset, asymmetry or phase loop of an element in use one step in its direction, or leaves it at the end of its range
and counts a rail, and keeps the old value with the cell; in tracking, weights step by 16 together. A loop that is held does not move, and a
cell of no sector that is being captured moves none. Where the last 8 samples of an element in use reach TA_LEVEL on average, or DO_LEN
cells have their last 4 samples below the drop-out level, a window over those cells opens, sets CHN_FE_STATUS.WINDOW, returns a loop
that has stepped since to its value before, and counts once; an open window, or one whose hang-over the cells reach (DEDUCED, log entry
93), is extended and not counted again. Where neither holds, or no cell is being captured, nothing changes. The close moves the window
with its 32-cell hang-over to the erased ranges. -/
def Obligations.LoopsAndDefects : Prop :=
  (∀ (i : Fin 16) (l : Fin 5) (e : Fin 3) (cell : Nat) (acq : Bool) (lead streams : List (List Int)) (m : Member) (s : State),
    l.val ≠ 4 → (s.slot i.val).mem = some m → s.readPhase i.val cell = some acq →
    (s.loopError i.val m l.val e.val acq cell (joinStreams lead streams)).natAbs ≤ deadBand l.val acq →
    Runs (.loopUpdate i l e cell lead streams) s fun t => t = s) ∧
  (∀ (i : Fin 16) (e : Fin 3) (cell : Nat) (acq : Bool) (lead streams : List (List Int)) (m : Member) (s : State),
    (s.slot i.val).mem = some m → m.servoOnly = false → s.readPhase i.val cell = some acq → s.loopsHeld i.val = false →
    hasBit (pegMask m.peg) e.val = true → (deadBand 0 acq : Int) < s.loopError i.val m 0 e.val acq cell (joinStreams lead streams) →
    s.get (Reg.CHN_FE_STATE_GAIN i.val e.val) < 255 →
    Runs (.loopUpdate i 0 e cell lead streams) s fun t =>
      t.get (Reg.CHN_FE_STATE_GAIN i.val e.val) = s.get (Reg.CHN_FE_STATE_GAIN i.val e.val) + 1 ∧
      (t.slot i.val).hist.head? =
        some (cell, (Reg.CHN_FE_STATE_GAIN i.val e.val).key, s.get (Reg.CHN_FE_STATE_GAIN i.val e.val)) ∧
      FieldsKept s t [Reg.CHN_FE_STATE_GAIN i.val e.val] ∧ BytesKept s t) ∧
  (∀ (i : Fin 16) (l : Fin 5) (e : Fin 3) (cell : Nat) (acq : Bool) (lead streams : List (List Int)) (m : Member) (s : State),
    1 ≤ l.val → l.val ≤ 3 → (s.slot i.val).mem = some m → m.servoOnly = false → s.readPhase i.val cell = some acq →
    s.loopsHeld i.val = false → hasBit (pegMask m.peg) e.val = true →
    s.loopError i.val m l.val e.val acq cell (joinStreams lead streams) < -(deadBand l.val acq : Int) →
    (loopField i.val l.val e.val).2.2.1 < toSigned 8 (s.get (loopField i.val l.val e.val).1) →
    Runs (.loopUpdate i l e cell lead streams) s fun t =>
      t.get (loopField i.val l.val e.val).1 = ofSigned 8 (toSigned 8 (s.get (loopField i.val l.val e.val).1) - 1) ∧
      (t.slot i.val).hist.head? = some (cell, (loopField i.val l.val e.val).1.key, s.get (loopField i.val l.val e.val).1) ∧
      FieldsKept s t [(loopField i.val l.val e.val).1, Reg.CHN_FE_RAIL_COUNT i.val] ∧ BytesKept s t) ∧
  (∀ (i : Fin 16) (e : Fin 3) (cell : Nat) (acq : Bool) (lead streams : List (List Int)) (m : Member) (s : State),
    (s.slot i.val).mem = some m → m.servoOnly = false → s.readPhase i.val cell = some acq → s.loopsHeld i.val = false →
    hasBit (pegMask m.peg) e.val = true → (deadBand 0 acq : Int) < s.loopError i.val m 0 e.val acq cell (joinStreams lead streams) →
    s.get (Reg.CHN_FE_STATE_GAIN i.val e.val) = 255 → s.get (Reg.CHN_FE_RAIL_COUNT i.val) = 7 →
    Runs (.loopUpdate i 0 e cell lead streams) s fun t =>
      t.get (Reg.CHN_FE_STATE_GAIN i.val e.val) = 255 ∧ t.get (Reg.CHN_FE_RAIL_COUNT i.val) = 8 ∧
      FieldsKept s t [Reg.CHN_FE_RAIL_COUNT i.val] ∧ BytesKept s t) ∧
  (∀ (i : Fin 16) (e f : Fin 3) (cell : Nat) (lead streams : List (List Int)) (m : Member) (s : State),
    (s.slot i.val).mem = some m → m.servoOnly = false → m.set.wAdapt = true → s.readPhase i.val cell = some false →
    s.loopsHeld i.val = false → hasBit (pegMask m.peg) f.val = true →
    s.get (Reg.CHN_FE_WEIGHT_WEIGHT i.val f.val) < 2 ^ 16 → Runs (.loopUpdate i 4 e cell lead streams) s fun t =>
      t.get (Reg.CHN_FE_WEIGHT_WEIGHT i.val f.val) =
        (fun err v : Int => ofSigned 16 (if err.natAbs ≤ 32 then v else if 0 < err then min 32767 (v + 16)
          else max (-32768) (v - 16))) (s.loopError i.val m 4 f.val false cell (joinStreams lead streams))
          (toSigned 16 (s.get (Reg.CHN_FE_WEIGHT_WEIGHT i.val f.val))) ∧
      FieldsKept s t [Reg.CHN_FE_WEIGHT_WEIGHT i.val 0, Reg.CHN_FE_WEIGHT_WEIGHT i.val 1, Reg.CHN_FE_WEIGHT_WEIGHT i.val 2,
        Reg.CHN_FE_RAIL_COUNT i.val] ∧ BytesKept s t) ∧
  (∀ (i : Fin 16) (l : Fin 5) (e : Fin 3) (cell : Nat) (lead streams : List (List Int)) (s : State),
    s.loopsHeld i.val = true ∨ s.readPhase i.val cell = none →
    Runs (.loopUpdate i l e cell lead streams) s fun t => t = s) ∧
  (∀ (i : Fin 16) (cell : Nat) (streams : List (List Int)) (m : Member) (s : State), (s.slot i.val).mem = some m →
    m.servoOnly = false → m.set.taEn = true → m.set.doEn = false → (s.readPhase i.val cell).isSome = true →
    (elems (pegMask m.peg)).any (fun e => thermalAt m.set.taLevel (streams.getD e [])) = true →
    (s.slot i.val).window = none → (s.slot i.val).windows = [] → (s.slot i.val).hist = [] →
    Runs (.defectDeclare i cell streams) s fun t =>
      (t.slot i.val).window = some (cell - 7, cell) ∧ (t.slot i.val).winTa = true ∧ (t.slot i.val).winDo = false ∧
      t.get (Reg.CHN_FE_STATUS_WINDOW i.val) = 1 ∧ t.get (Reg.CHN_FE_TA_CNT_COUNT i.val) =
        s.counted (Reg.CHN_FE_TA_CNT_COUNT i.val) 1 ∧
      FieldsKept s t [Reg.CHN_FE_STATUS_WINDOW i.val, Reg.CHN_FE_TA_CNT_COUNT i.val, Reg.CHN_FE_SB_CNT_ERASED i.val 0,
        Reg.CHN_FE_SB_CNT_ERASED i.val 1, Reg.CHN_FE_ERASED_COUNT i.val] ∧ BytesKept s t) ∧
  (∀ (i : Fin 16) (e : Fin 3) (cell c v : Nat) (streams : List (List Int)) (m : Member) (s : State),
    (s.slot i.val).mem = some m → m.servoOnly = false → m.set.taEn = true → m.set.doEn = false →
    (s.readPhase i.val cell).isSome = true →
    (elems (pegMask m.peg)).any (fun e => thermalAt m.set.taLevel (streams.getD e [])) = true →
    (s.slot i.val).window = none → (s.slot i.val).windows = [] → cell - 7 ≤ c → v < 256 →
    (s.slot i.val).hist = [(c, (Reg.CHN_FE_STATE_GAIN i.val e.val).key, v)] →
    Runs (.defectDeclare i cell streams) s fun t => t.get (Reg.CHN_FE_STATE_GAIN i.val e.val) = v) ∧
  (∀ (i : Fin 16) (cell f l : Nat) (streams : List (List Int)) (m : Member) (s : State), (s.slot i.val).mem = some m →
    m.servoOnly = false → m.set.doEn = true → m.set.taEn = false → 0 < m.set.doLen →
    (s.readPhase i.val cell).isSome = true →
    (elems (pegMask m.peg)).any (fun e =>
      dropOutAt (m.set.target * m.set.doPct / 100) m.set.doLen (streams.getD e [])) = true →
    (s.slot i.val).window = some (f, l) → (s.slot i.val).windows = [] → (s.slot i.val).winDo = true →
    (s.slot i.val).hist = [] →
    Runs (.defectDeclare i cell streams) s fun t =>
      (t.slot i.val).window = some (min f (cell + 1 - m.set.doLen), max l cell) ∧
      FieldsKept s t [Reg.CHN_FE_STATUS_WINDOW i.val, Reg.CHN_FE_SB_CNT_ERASED i.val 0,
        Reg.CHN_FE_SB_CNT_ERASED i.val 1, Reg.CHN_FE_ERASED_COUNT i.val] ∧ BytesKept s t) ∧
  (∀ (i : Fin 16) (cell f l : Nat) (streams : List (List Int)) (m : Member) (s : State), (s.slot i.val).mem = some m →
    m.servoOnly = false → m.set.taEn = true → m.set.doEn = false → (s.readPhase i.val cell).isSome = true →
    (elems (pegMask m.peg)).any (fun e => thermalAt m.set.taLevel (streams.getD e [])) = true →
    (s.slot i.val).window = none → (s.slot i.val).windows = [(f, l)] → cell - 7 ≤ l →
    (s.slot i.val).winTa = true → (s.slot i.val).hist = [] → Runs (.defectDeclare i cell streams) s fun t =>
      (t.slot i.val).window = some (min f (cell - 7), max (l - 32) cell) ∧ (t.slot i.val).windows = [] ∧
      FieldsKept s t [Reg.CHN_FE_STATUS_WINDOW i.val, Reg.CHN_FE_SB_CNT_ERASED i.val 0,
        Reg.CHN_FE_SB_CNT_ERASED i.val 1, Reg.CHN_FE_ERASED_COUNT i.val] ∧ BytesKept s t) ∧
  (∀ (i : Fin 16) (cell : Nat) (streams : List (List Int)) (m : Member) (s : State), (s.slot i.val).mem = some m →
    (elems (pegMask m.peg)).any (fun e => thermalAt m.set.taLevel (streams.getD e []) ||
      dropOutAt (m.set.target * m.set.doPct / 100) m.set.doLen (streams.getD e [])) = false ∨ s.readPhase i.val cell = none →
    Runs (.defectDeclare i cell streams) s fun t => t = s) ∧
  (∀ (i : Fin 16) (f l : Nat) (s : State), (s.slot i.val).window = some (f, l) → Runs (.defectWindowClose i) s fun t =>
    (t.slot i.val).window = none ∧ (t.slot i.val).windows = (s.slot i.val).windows ++ [(f, l + 32)] ∧
    t.get (Reg.CHN_FE_STATUS_WINDOW i.val) = 0 ∧ FieldsKept s t [Reg.CHN_FE_STATUS_WINDOW i.val] ∧ BytesKept s t)

/-- CAPTURE_DONE marks the oldest uncaptured entry captured and valid, with its cells and the erased read cells of its sector, stores
the samples of every element in use with bit 7 set on the read cells of a defect window, and counts the sector, the erased cells and
the clipped samples. HOLD may be set only on an idle slot, else code 5. SB_DATA_READ answers code 4 with data 0 without a hold and code
3 beyond the last cells, and otherwise advances CELL by 4: where the word's SRAM has no flipped bit it answers the four cells, first
cell lowest, and where it is uncorrectable it counts in BUF_SRAM_UE. -/
def Obligations.SampleBuffer : Prop :=
  (∀ (i : Fin 16) (e0 e1 e2 : ElemCapture) (e : Nat) (q : Sect) (s : State),
    s.capturing i.val = some e → SMap.look (s.slot i.val).sects e = some q → s.newest i.val ≤ 1 →
    [e0, e1, e2].all (fun x => decide (x.samples.length ≤ 37376)) = true →
    Runs (.captureDone i e0 e1 e2) s fun t =>
      SMap.look (t.slot i.val).sects e = some { q with captured := true, erased := (s.slot i.val).erasedIn q.rc0 q.rcN } ∧
      (∀ el ∈ List.range 3, hasBit q.mask el = true →
        ∀ k ∈ List.range (([e0, e1, e2].getD el ⟨[], 0⟩).samples.take q.cellsOf).length,
          SMap.get (t.slot i.val).samp 0 ((3 * e + el) * 65536 + k) =
          (flagSamples (s.slot i.val).isErased (captureParts (sectorFrags q.cells q.psi)) q.rc0
            (([e0, e1, e2].getD el ⟨[], 0⟩).samples.take q.cellsOf)).getD k 0) ∧
      t.get (Reg.CHN_FE_SB_PSI_VALID i.val e) = 1 ∧ t.get (Reg.CHN_FE_SB_PSI_PSI i.val e) = q.psi % 2 ^ 16 ∧
      t.get (Reg.CHN_FE_SB_CNT_CELLS i.val e) = q.cellsOf % 2 ^ 16 ∧
      t.get (Reg.CHN_FE_SB_CNT_ERASED i.val e) = min ((s.slot i.val).erasedIn q.rc0 q.rcN) 65535 ∧
      t.get (Reg.CHN_FE_SECTORS_COUNT i.val) = s.counted (Reg.CHN_FE_SECTORS_COUNT i.val) 1 ∧
      t.get (Reg.CHN_FE_ERASED_COUNT i.val) = s.counted (Reg.CHN_FE_ERASED_COUNT i.val) ((s.slot i.val).erasedIn q.rc0 q.rcN) ∧
      (∀ el ∈ List.range 3, hasBit q.mask el = true →
        t.get (Reg.CHN_FE_CLIP_COUNT i.val el) = s.counted (Reg.CHN_FE_CLIP_COUNT i.val el) ([e0, e1, e2].getD el ⟨[], 0⟩).clips) ∧
      FieldsKept s t [Reg.CHN_FE_SB_PSI_VALID i.val e, Reg.CHN_FE_SB_PSI_PSI i.val e, Reg.CHN_FE_SB_CNT_CELLS i.val e,
        Reg.CHN_FE_SB_CNT_ERASED i.val e, Reg.CHN_FE_SECTORS_COUNT i.val, Reg.CHN_FE_ERASED_COUNT i.val,
        Reg.CHN_FE_CLIP_COUNT i.val 0, Reg.CHN_FE_CLIP_COUNT i.val 1, Reg.CHN_FE_CLIP_COUNT i.val 2] ∧ BytesKept s t) ∧
  (∀ (i : Fin 16) (v : Word) (s : State), hasBit v.toNat 31 = false ∨ s.get (Reg.CHN_FE_STATUS_ACTIVE i.val) = 0 →
    Runs (.sbHoldWrite i v) s fun t => t.get (Reg.CHN_FE_SB_CTL_HOLD i.val) = bit v.toNat 31 ∧
      FieldsKept s t [Reg.CHN_FE_SB_CTL_HOLD i.val] ∧ BytesKept s t) ∧
  (∀ (i : Fin 16) (v : Word) (s : State), hasBit v.toNat 31 = true → s.get (Reg.CHN_FE_STATUS_ACTIVE i.val) = 1 →
    s.get (Reg.CHN_FE_CFG_STATUS_ERR i.val) = 0 → Runs (.sbHoldWrite i v) s fun t =>
      t.get (Reg.CHN_FE_CFG_STATUS_ERR i.val) = 1 ∧ t.get (Reg.CHN_FE_CFG_STATUS_CODE i.val) = 5 ∧
      FieldsKept s t [Reg.CHN_FE_CFG_STATUS_ERR i.val, Reg.CHN_FE_CFG_STATUS_CODE i.val] ∧ BytesKept s t) ∧
  (∀ (i : Fin 16) (s : State), s.get (Reg.CHN_FE_SB_CTL_HOLD i.val) = 0 → s.get (Reg.CHN_FE_CFG_STATUS_ERR i.val) = 0 →
    Runs (.sbDataRead i) s fun t => t.resp = .data 0 ∧ t.get (Reg.CHN_FE_CFG_STATUS_CODE i.val) = 4 ∧
      FieldsKept s t [Reg.CHN_FE_CFG_STATUS_ERR i.val, Reg.CHN_FE_CFG_STATUS_CODE i.val] ∧ BytesKept s t) ∧
  (∀ (i : Fin 16) (s : State), s.get (Reg.CHN_FE_SB_CTL_HOLD i.val) = 1 → 37372 < s.get (Reg.CHN_FE_SB_ADDR_CELL i.val) →
    s.get (Reg.CHN_FE_CFG_STATUS_ERR i.val) = 0 → Runs (.sbDataRead i) s fun t => t.resp = .data 0 ∧
      t.get (Reg.CHN_FE_CFG_STATUS_CODE i.val) = 3 ∧
      FieldsKept s t [Reg.CHN_FE_CFG_STATUS_ERR i.val, Reg.CHN_FE_CFG_STATUS_CODE i.val] ∧ BytesKept s t) ∧
  (∀ (i : Fin 16) (s : State), s.get (Reg.CHN_FE_SB_CTL_HOLD i.val) = 1 →
    s.get (Reg.CHN_FE_SB_ADDR_CELL i.val) ≤ 37372 → s.sramFlips i.val (sampWord (s.get (Reg.CHN_FE_SB_ADDR_ENTRY i.val))
      (s.get (Reg.CHN_FE_SB_ADDR_ELEM i.val)) (s.get (Reg.CHN_FE_SB_ADDR_CELL i.val))) = 0 →
    Runs (.sbDataRead i) s fun t =>
      t.get (Reg.CHN_FE_SB_ADDR_CELL i.val) = s.get (Reg.CHN_FE_SB_ADDR_CELL i.val) + 4 ∧
      t.resp = .data ((List.range 4).foldl (fun v k => v + 2 ^ (8 * k) * s.sbCell i.val
        (s.get (Reg.CHN_FE_SB_ADDR_ENTRY i.val)) (s.get (Reg.CHN_FE_SB_ADDR_ELEM i.val))
        (s.get (Reg.CHN_FE_SB_ADDR_CELL i.val) + k)) 0) ∧ FieldsKept s t [Reg.CHN_FE_SB_ADDR_CELL i.val] ∧ BytesKept s t) ∧
  (∀ (i : Fin 16) (s : State), s.get (Reg.CHN_FE_SB_CTL_HOLD i.val) = 1 →
    s.get (Reg.CHN_FE_SB_ADDR_CELL i.val) ≤ 37372 → 2 ≤ s.sramFlips i.val (sampWord (s.get (Reg.CHN_FE_SB_ADDR_ENTRY i.val))
      (s.get (Reg.CHN_FE_SB_ADDR_ELEM i.val)) (s.get (Reg.CHN_FE_SB_ADDR_CELL i.val))) →
    Runs (.sbDataRead i) s fun t =>
      t.get (Reg.CHN_FE_SB_ADDR_CELL i.val) = s.get (Reg.CHN_FE_SB_ADDR_CELL i.val) + 4 ∧
      t.get Reg.BUF_SRAM_UE_COUNT = s.counted Reg.BUF_SRAM_UE_COUNT 1 ∧
      FieldsKept s t [Reg.CHN_FE_SB_ADDR_CELL i.val, Reg.BUF_SRAM_UE_COUNT] ∧ BytesKept s t)

/-- In tracking EQ_TAP_ADAPT moves every tap of an element in use one STEP in the direction of its sign product over the last 256 read
cells, the centre tap of E1 never, and notes the taps with the sectors being captured; it moves no tap while adaptation is held or off
or no tracked cell is being captured. SYNC_SEARCH_END gives the newest sector its attempt list once: the candidates that slicing the
combined stream finds within the thresholds, in rank order, then the timed positions where there are no candidates or all are asked
for. RESYNC_SEARCH_END fixes the position of the next later fragment: the best within 8 cells and threshold, else the predicted one. -/
def Obligations.SyncSearches : Prop :=
  (∀ (i : Fin 16) (cell : Nat) (streams : List (List Int)) (m : Member) (s : State), (s.slot i.val).mem = some m →
    m.servoOnly = false → m.set.eqAdapt = true → s.loopsHeld i.val = false → s.readPhase i.val cell = some false →
    Runs (.eqTapAdapt i ⟨cell, streams⟩) s fun t =>
      SMap.get (t.slot i.val).taps 0 14 = SMap.get (s.slot i.val).taps 0 14 ∧
      (∀ k ∈ List.range 30, hasBit (pegMask m.peg) (k / 10) = true → k ≠ 14 → SMap.get (t.slot i.val).taps 0 k = ofSigned 16
        (satSigned 16 (toSigned 16 (SMap.get (s.slot i.val).taps 0 k) +
          ((s.tapSigns i.val m cell streams).getD k 0).sign * m.set.eqStep))) ∧
      FieldsKept s t [] ∧ BytesKept s t) ∧
  (∀ (i : Fin 16) (cell e : Nat) (streams : List (List Int)) (m : Member) (q : Sect) (s : State),
    (s.slot i.val).mem = some m → m.servoOnly = false → m.set.eqAdapt = true → s.loopsHeld i.val = false →
    s.readPhase i.val cell = some false → SMap.look (s.slot i.val).sects e = some q → q.captured = false →
    Runs (.eqTapAdapt i ⟨cell, streams⟩) s fun t =>
      SMap.look (t.slot i.val).sects e = some { q with tapLog := (cell + 1, (t.slot i.val).taps) :: q.tapLog }) ∧
  (∀ (i : Fin 16) (cell : Nat) (streams : List (List Int)) (m : Member) (s : State), (s.slot i.val).mem = some m →
    m.set.eqAdapt = false ∨ s.loopsHeld i.val = true ∨ s.readPhase i.val cell ≠ some false →
    Runs (.eqTapAdapt i ⟨cell, streams⟩) s fun t => t = s) ∧
  (∀ (i : Fin 16) (streams : List (List Int)) (q : Sect) (s : State),
    SMap.look (s.slot i.val).sects (s.newest i.val) = some q → q.attempts = none →
    Runs (.syncSearchEnd i streams) s fun t => SMap.look (t.slot i.val).sects (s.newest i.val) = some { q with
        attempts := some (attemptList (candidates q.syncThr q.maxCand
          (syncSearch (s.markCells i.val (q.rc0 + 16) streams))) q.timedAll) } ∧ FieldsKept s t [] ∧ BytesKept s t) ∧
  (∀ (i : Fin 16) (streams : List (List Int)) (q : Sect) (s : State),
    SMap.look (s.slot i.val).sects (s.newest i.val) = some q → q.attempts.isSome = true →
    Runs (.syncSearchEnd i streams) s fun t => SMap.look (t.slot i.val).sects (s.newest i.val) = some q ∧
      FieldsKept s t [] ∧ BytesKept s t) ∧
  (∀ (i : Fin 16) (frag : Nat) (streams : List (List Int)) (q : Sect) (s : State),
    SMap.look (s.slot i.val).sects (s.newest i.val) = some q → q.resync.length + 1 = frag →
    Runs (.resyncSearchEnd i frag streams) s fun t =>
      SMap.look (t.slot i.val).sects (s.newest i.val) = some { q with resync := q.resync ++ [resyncChoice q.resyncThr
        (resyncSearch (s.markCells i.val (q.rc0 + fragReadCell (sectorFrags q.cells q.psi) frag + 24) streams))] } ∧
      FieldsKept s t [] ∧ BytesKept s t) ∧
  (∀ (i : Fin 16) (frag : Nat) (streams : List (List Int)) (q : Sect) (s : State),
    SMap.look (s.slot i.val).sects (s.newest i.val) = some q → q.resync.length + 1 = frag →
    (resyncSearch (s.markCells i.val (q.rc0 + fragReadCell (sectorFrags q.cells q.psi) frag + 24) streams)).all
      (fun p => decide (q.resyncThr < p.dist)) = true →
    Runs (.resyncSearchEnd i frag streams) s fun t =>
      SMap.look (t.slot i.val).sects (s.newest i.val) = some { q with resync := q.resync ++ [0] } ∧
      FieldsKept s t [] ∧ BytesKept s t)

/-- Where no SRAM bit is flipped, FAST_PATH_DONE ends attempt 0 with the outcome that the entry's samples decode to. A success decides the
sector: its entry is free, its record joins the FIFO, FAST_OK counts. A failure with the second look on puts the sector in the deep
pool, or among those that wait while the pool holds 32; without it the failure decides the sector and FAILED counts. A free deep engine
in use takes the lowest waiting attempt of the oldest queued sector. DEEP_ATTEMPT_DONE frees its engine, counts, and records the
attempt's outcome; one that is not deciding does no more; the success of the lowest attempt decides the sector with a DEEP record, and
so does the failure of a sector's only attempt. An uncorrectable
word that an attempt finds in its SRAMs or meets in its decoder's memory fails it. SECT_LO_READ answers the lower half of the
oldest record, or 0 where none waits, and latches the upper half, or 0xF0000000. SECT_HI_READ answers what was latched, once, and a
latched record leaves the FIFO; without a latched half it answers the oldest record's upper half or 0xF0000000 and removes nothing
(DEDUCED, log entry 100). -/
def Obligations.Decoding : Prop :=
  (∀ (i : Fin 16) (e : Fin 2) (q : Sect) (s : State), SMap.look (s.slot i.val).sects e.val = some q →
    q.captured = true → q.attempts.isSome = true → q.fast = none → s.buf.flips = [] → (s.slot i.val).fifo.length < 32 →
    Runs (.fastPathDone i e false) s fun t =>
      ((attemptOutcome (wantHeader q.req q.band) (schedMax q.sched) (s.fastResult i.val e.val q)).1 = 0 →
        SMap.look (t.slot i.val).sects e.val = none ∧
        t.get (Reg.CHN_DET_FAST_OK_COUNT i.val) = s.counted (Reg.CHN_DET_FAST_OK_COUNT i.val) 1 ∧
        (t.slot i.val).fifo = (s.slot i.val).fifo ++ [(recordLo q.erased q.psi, recordHi 0 false 0
          (((q.attempts.getD [])[0]?).getD (⟨0, 0x3F, .waiting⟩ : Attempt)).hdist (((q.attempts.getD [])[0]?).getD (⟨0, 0x3F, .waiting⟩ : Attempt)).ofs
          q.retryTag (attemptOutcome (wantHeader q.req q.band) (schedMax q.sched) (s.fastResult i.val e.val q)).2)])) ∧
  (∀ (i : Fin 16) (e : Fin 2) (q : Sect) (s : State), SMap.look (s.slot i.val).sects e.val = some q →
    q.captured = true → q.attempts.isSome = true → q.fast = none → s.buf.flips = [] → q.secondLook = true →
    Runs (.fastPathDone i e false) s fun t =>
      ((attemptOutcome (wantHeader q.req q.band) (schedMax q.sched) (s.fastResult i.val e.val q)).1 ≠ 0 →
        SMap.look (t.slot i.val).sects e.val = some { q with deep := true, fast := some (attemptOutcome
          (wantHeader q.req q.band) (schedMax q.sched) (s.fastResult i.val e.val q)) } ∧
        (s.pool.queue.length < 32 → t.pool = { s.pool with queue := s.pool.queue ++ [2 * i.val + e.val] }) ∧
        (32 ≤ s.pool.queue.length → t.pool = { s.pool with waiting := s.pool.waiting ++ [2 * i.val + e.val] }) ∧
        FieldsKept s t [] ∧ BytesKept s t)) ∧
  (∀ (i : Fin 16) (e : Fin 2) (q : Sect) (s : State), SMap.look (s.slot i.val).sects e.val = some q →
    q.captured = true → q.attempts.isSome = true → q.fast = none → s.buf.flips = [] → q.secondLook = false →
    (s.slot i.val).fifo.length < 32 → Runs (.fastPathDone i e false) s fun t =>
      ((attemptOutcome (wantHeader q.req q.band) (schedMax q.sched) (s.fastResult i.val e.val q)).1 ≠ 0 →
        SMap.look (t.slot i.val).sects e.val = none ∧ (t.slot i.val).fifo.length = (s.slot i.val).fifo.length + 1 ∧
        t.get (Reg.CHN_DET_FAILED_COUNT i.val) = s.counted (Reg.CHN_DET_FAILED_COUNT i.val) 1)) ∧
  (∀ (i : Fin 16) (e : Fin 2) (upset : Bool) (q : Sect) (s : State), SMap.look (s.slot i.val).sects e.val = some q →
    q.captured = true → q.attempts.isSome = true → q.fast = none →
    (s.attemptReads i.val e.val (58 + i.val) q upset).1 = false →
    q.secondLook = true → s.pool.queue.length < 32 → Runs (.fastPathDone i e upset) s fun t =>
      t.pool = { s.pool with queue := s.pool.queue ++ [2 * i.val + e.val] } ∧
      (((SMap.look (t.slot i.val).sects e.val).bind Sect.fast).map Prod.fst) = some 1 ∧
      FieldsKept s t [Reg.BUF_SRAM_CE_COUNT, Reg.BUF_SRAM_UE_COUNT] ∧ BytesKept s t) ∧
  (∀ (g : Fin 8) (r k : Nat) (s : State), g.val < s.get Reg.CHN_DP_CTL_ENGINES → SMap.look s.pool.engines g.val = none →
    s.nextAttempt s.pool.queue = some (r, k) → Runs (.deepAttemptStart g) s fun t =>
      SMap.look t.pool.engines g.val = some (r, k) ∧ t.pool.queue = s.pool.queue ∧ FieldsKept s t [] ∧
      BytesKept s t) ∧
  (∀ (g : Fin 8) (s : State), s.get Reg.CHN_DP_CTL_ENGINES ≤ g.val → Runs (.deepAttemptStart g) s fun t => t = s) ∧
  (∀ (g : Fin 8) (ref k : Nat) (q : Sect) (s : State), s.buf.flips = [] → SMap.look s.pool.engines g.val = some (ref, k) →
    SMap.look (s.slot (ref / 2)).sects (ref % 2) = some q → (q.attempts.getD [])[0]? = some ⟨0, 2, .waiting⟩ → 0 < k →
    Runs (.deepAttemptDone g false) s fun t => SMap.look t.pool.engines g.val = none ∧ t.pool.queue = s.pool.queue ∧
      (t.slot (ref / 2)).fifo = (s.slot (ref / 2)).fifo ∧
      t.get Reg.CHN_DP_ATTEMPTS_COUNT = s.counted Reg.CHN_DP_ATTEMPTS_COUNT 1 ∧
      FieldsKept s t [Reg.CHN_DP_ATTEMPTS_COUNT] ∧ BytesKept s t ∧
      SMap.look (t.slot (ref / 2)).sects (ref % 2) = some { q with attempts := q.attempts.map (fun l =>
        modAt l k (fun a => { a with st := (.ended
          (attemptOutcome (wantHeader q.req q.band) 80 (s.deepResult (ref / 2) (ref % 2) k q)).1
          (attemptOutcome (wantHeader q.req q.band) 80 (s.deepResult (ref / 2) (ref % 2) k q)).2) })) }) ∧
  (∀ (g : Fin 8) (ref : Nat) (a : Attempt) (q : Sect) (s : State), s.buf.flips = [] → ref < 32 →
    SMap.look s.pool.engines g.val = some (ref, 0) → SMap.look (s.slot (ref / 2)).sects (ref % 2) = some q →
    q.attempts = some [a] → (s.slot (ref / 2)).fifo.length < 32 →
    Runs (.deepAttemptDone g false) s fun t => SMap.look t.pool.engines g.val = none ∧
      SMap.look (t.slot (ref / 2)).sects (ref % 2) = none ∧
      t.get Reg.CHN_DP_ATTEMPTS_COUNT = s.counted Reg.CHN_DP_ATTEMPTS_COUNT 1 ∧
      (t.slot (ref / 2)).fifo = (s.slot (ref / 2)).fifo ++ [(recordLo q.erased q.psi, recordHi
        (attemptOutcome (wantHeader q.req q.band) 80 (s.deepResult (ref / 2) (ref % 2) 0 q)).1 true 0 a.hdist a.ofs q.retryTag
        (attemptOutcome (wantHeader q.req q.band) 80 (s.deepResult (ref / 2) (ref % 2) 0 q)).2)]) ∧
  (∀ (g : Fin 8) (ref : Nat) (a : Attempt) (q : Sect) (s : State), s.buf.flips = [] → ref < 32 →
    SMap.look s.pool.engines g.val = some (ref, 0) → SMap.look (s.slot (ref / 2)).sects (ref % 2) = some q →
    q.attempts = some [a] → (s.slot (ref / 2)).fifo.length < 32 →
    Runs (.deepAttemptDone g true) s fun t => SMap.look t.pool.engines g.val = none ∧
      SMap.look (t.slot (ref / 2)).sects (ref % 2) = none ∧
      t.get Reg.BUF_SRAM_UE_COUNT = s.counted Reg.BUF_SRAM_UE_COUNT 1 ∧
      t.get (Reg.CHN_DET_FAILED_COUNT (ref / 2)) = s.counted (Reg.CHN_DET_FAILED_COUNT (ref / 2)) 1 ∧
      (t.slot (ref / 2)).fifo.length = (s.slot (ref / 2)).fifo.length + 1) ∧
  (∀ (i : Fin 16) (lo hi : Nat) (rest : List (Nat × Nat)) (s : State), (s.slot i.val).fifo = (lo, hi) :: rest →
    Runs (.sectLoRead i) s fun t => t.resp = .data lo ∧ (t.slot i.val).fifoLatched = true ∧
      (t.slot i.val).fifo = (s.slot i.val).fifo ∧
      SMap.look t.shadow (Reg.CHN_DET_SECT_LO_PSI i.val).addr = some hi ∧ FieldsKept s t [] ∧ BytesKept s t) ∧
  (∀ (i : Fin 16) (s : State), (s.slot i.val).fifo = [] → Runs (.sectLoRead i) s fun t => t.resp = .data 0 ∧
    (t.slot i.val).fifoLatched = false ∧
    SMap.look t.shadow (Reg.CHN_DET_SECT_LO_PSI i.val).addr = some 0xF0000000 ∧ FieldsKept s t [] ∧ BytesKept s t) ∧
  (∀ (i : Fin 16) (hi : Nat) (s : State), SMap.look s.shadow (Reg.CHN_DET_SECT_LO_PSI i.val).addr = some hi →
    Runs (.sectHiRead i) s fun t => t.resp = .data hi ∧
      SMap.look t.shadow (Reg.CHN_DET_SECT_LO_PSI i.val).addr = none ∧ (t.slot i.val).fifoLatched = false ∧
      (t.slot i.val).fifo = (if (s.slot i.val).fifoLatched then (s.slot i.val).fifo.tail else (s.slot i.val).fifo) ∧
      FieldsKept s t [] ∧ BytesKept s t) ∧
  (∀ (i : Fin 16) (s : State), SMap.look s.shadow (Reg.CHN_DET_SECT_LO_PSI i.val).addr = none → Runs (.sectHiRead i) s fun t =>
    t.resp = .data (((s.slot i.val).fifo.head?.map Prod.snd).getD 0xF0000000) ∧ t.slots = s.slots ∧ FieldsKept s t [] ∧
    BytesKept s t)

/-- A firmware frame is queued with BUSY set, and the link takes it at once when it is idle; while BUSY the write is
refused with code 4. The completion of a firmware read puts the data in CHN_PA_RDATA and clears BUSY when it was the last;
a matching read-back makes the member ready; a mismatch sets VERIFY_ERR with its cause on the actuator's four slots, closes their
gates and ends the member. A fault without a frame in progress sets FAULT with the same cause and closes the gates, and one with a
frame in progress does nothing. Where no gate was open, no byte of the buffer changes. -/
def Obligations.PreampLink : Prop :=
  (∀ (i : Fin 16) (v : Word) (s : State), s.get (Reg.CHN_PA_STATUS_BUSY (i.val / 4)) = 0 → s.pa (i.val / 4) = paInit →
    Runs (.paCmdWrite i v) s fun t => t.get (Reg.CHN_PA_STATUS_BUSY (i.val / 4)) = 1 ∧
      (t.pa (i.val / 4)).prog = some ⟨hasBit v.toNat 23, bits v.toNat 22 16, bits v.toNat 15 0, 3, i.val % 4⟩ ∧
      t.out = s.out ++ [.preamp (i.val / 4) (hasBit v.toNat 23) (bits v.toNat 22 16) (bits v.toNat 15 0)] ∧
      FieldsKept s t [Reg.CHN_PA_STATUS_BUSY (i.val / 4)] ∧ BytesKept s t) ∧
  (∀ (i : Fin 16) (v : Word) (s : State), s.get (Reg.CHN_PA_STATUS_BUSY (i.val / 4)) = 0 →
    (s.pa (i.val / 4)).prog.isSome = true → Runs (.paCmdWrite i v) s fun t =>
      t.pa (i.val / 4) = { s.pa (i.val / 4) with fw := (s.pa (i.val / 4)).fw ++
        [⟨hasBit v.toNat 23, bits v.toNat 22 16, bits v.toNat 15 0, 3, i.val % 4⟩] } ∧
      t.get (Reg.CHN_PA_STATUS_BUSY (i.val / 4)) = 1 ∧ t.out = s.out ∧
      FieldsKept s t [Reg.CHN_PA_STATUS_BUSY (i.val / 4)] ∧ BytesKept s t) ∧
  (∀ (i : Fin 16) (v : Word) (s : State), s.get (Reg.CHN_PA_STATUS_BUSY (i.val / 4)) = 1 →
    s.get (Reg.CHN_WR_CFG_STATUS_ERR i.val) = 0 → Runs (.paCmdWrite i v) s fun t =>
      t.get (Reg.CHN_WR_CFG_STATUS_ERR i.val) = 1 ∧ t.get (Reg.CHN_WR_CFG_STATUS_CODE i.val) = 4 ∧ t.pas = s.pas ∧
      FieldsKept s t [Reg.CHN_WR_CFG_STATUS_ERR i.val, Reg.CHN_WR_CFG_STATUS_CODE i.val] ∧ BytesKept s t) ∧
  (∀ (a : Fin 4) (d : Nat) (f : PaFrame) (s : State), s.pa a.val = ⟨some f, [], [], []⟩ → f.kind = 3 → f.read = true →
    Runs (.preampFrameDone a d) s fun t => t.get (Reg.CHN_PA_RDATA_DATA a.val) =
        d % 2 ^ (Reg.CHN_PA_RDATA_DATA a.val).width ∧ t.get (Reg.CHN_PA_STATUS_BUSY a.val) = 0 ∧
      (t.pa a.val).prog = none ∧
      FieldsKept s t [Reg.CHN_PA_RDATA_DATA a.val, Reg.CHN_PA_STATUS_BUSY a.val] ∧ BytesKept s t) ∧
  (∀ (a : Fin 4) (d : Nat) (f : PaFrame) (m : Member) (s : State), s.pa a.val = ⟨some f, [], [], []⟩ → f.kind = 1 →
    (s.slot (4 * a.val + f.slot)).mem = some m → m.servoOnly = false → m.ready = false → d % 65536 = f.data →
    Runs (.preampFrameDone a d) s fun t => (t.slot (4 * a.val + f.slot)).mem = some { m with ready := true } ∧
      (t.pa a.val).prog = none ∧ FieldsKept s t [] ∧ BytesKept s t) ∧
  (∀ (a : Fin 4) (d : Nat) (f : PaFrame) (m : Member) (s : State), s.pa a.val = ⟨some f, [], [], []⟩ → f.kind = 1 →
    f.slot < 4 → (s.slot (4 * a.val + f.slot)).mem = some m → m.servoOnly = false → m.ready = false →
    d % 65536 ≠ f.data → (slotsOf a.val).all (fun i => !(s.slot i).gate) = true →
    Runs (.preampFrameDone a d) s fun t => t.get (Reg.CHN_PA_STATUS_VERIFY_ERR a.val) = 1 ∧
      (slotsOf a.val).all (fun i => hasBit (t.get (Reg.CHN_WR_CAUSE_CAUSE i)) 2 && !(t.slot i).gate) = true ∧
      ((t.slot (4 * a.val + f.slot)).mem.map Member.servoOnly).getD true = true ∧
      t.get (Reg.CHN_FE_STATUS_ACTIVE (4 * a.val + f.slot)) = 0 ∧
      BlocksKept s t [0x40A00000 / 2 ^ 20, 0x40C00000 / 2 ^ 20, 0x40D00000 / 2 ^ 20, 0x40E00000 / 2 ^ 20] ∧ BytesKept s t) ∧
  (∀ (a : Fin 4) (s : State), (s.pa a.val).prog = none → Runs (.preampFault a) s fun t =>
    t.get (Reg.CHN_PA_STATUS_FAULT a.val) = 1 ∧
    (slotsOf a.val).all (fun i => hasBit (t.get (Reg.CHN_WR_CAUSE_CAUSE i)) 2 && !(t.slot i).gate) = true) ∧
  (∀ (a : Fin 4) (s : State), (s.pa a.val).prog = none → (slotsOf a.val).all (fun i => !(s.slot i).gate) = true →
    Runs (.preampFault a) s fun t => FieldsKept s t (Reg.CHN_PA_STATUS_FAULT a.val ::
      (slotsOf a.val).map Reg.CHN_WR_CAUSE_CAUSE) ∧ BytesKept s t) ∧
  (∀ (a : Fin 4) (s : State), (s.pa a.val).prog.isSome = true → Runs (.preampFault a) s fun t => t = s)

/-- A flagged clock field counts as coasted and as a servo clock error and moves neither TRIM nor phase; a valid one of
a tracking source moves TRIM by KI times the error within its limits and the phase by KP times the error, shows the error, counts as
valid and as within or beyond the tolerances, and restarts the count of invalid ones. Four consecutive fields within LOCK_TOL give
lock; lock is lost, counted and reacquired, with the gate closed, on two bad or three invalid fields or a TRIM at its limit. -/
def Obligations.MediaClock : Prop :=
  (∀ (i : Fin 16) (x : Int) (samples : List Int) (m : Member) (s : State), (s.slot i.val).mem = some m →
    s.srcState i.val ≠ 0 → s.clockInvalid i.val m samples = true →
    Runs (.clockField i x samples) s fun t => t.slot i.val = { s.slot i.val with
        okRun := 0, invRun := (s.slot i.val).invRun + 1 } ∧
      t.get (Reg.SRV_CLK_ERR_COUNT (i.val / 4)) = s.counted (Reg.SRV_CLK_ERR_COUNT (i.val / 4)) 1 ∧
      t.get (Reg.CHN_MC_COAST_COUNT i.val) = s.counted (Reg.CHN_MC_COAST_COUNT i.val) 1 ∧
      FieldsKept s t [Reg.SRV_CLK_ERR_COUNT (i.val / 4), Reg.CHN_MC_COAST_COUNT i.val] ∧ BytesKept s t) ∧
  (∀ (i : Fin 16) (x : Int) (samples : List Int) (m : Member) (s : State), (s.slot i.val).mem = some m →
    s.srcState i.val = 3 → s.clockInvalid i.val m samples = false →
    Runs (.clockField i x samples) s fun t => (t.slot i.val).invRun = 0 ∧
      (t.slot i.val).validCnt = (s.slot i.val).validCnt + 1 ∧
      (t.slot i.val).phase = (s.slot i.val).phase -
        rdiv ((if (s.slot i.val).validCnt < 8 then m.set.kpAcq else m.set.kp) * clockError m.cells x) 8 ∧
      (t.slot i.val).okRun = (if (clockError m.cells x).natAbs ≤ m.set.lockTol then (s.slot i.val).okRun + 1 else 0) ∧
      (t.slot i.val).badRun = (if m.set.unlockTol < (clockError m.cells x).natAbs then (s.slot i.val).badRun + 1 else 0) ∧
      t.sget (Reg.CHN_MC_TRIM_TRIM i.val) = clampInt (-335544) 335544 (s.sget (Reg.CHN_MC_TRIM_TRIM i.val) -
        (if (s.slot i.val).validCnt < 8 then m.set.kiAcq else m.set.ki) * clockError m.cells x) ∧
      t.sget (Reg.CHN_MC_STATUS_ERR i.val) = satSigned 8 (clockError m.cells x) ∧
      t.get (Reg.CHN_MC_STATUS_ACQ i.val) = b2n (decide ((s.slot i.val).validCnt + 1 < 8)) ∧
      FieldsKept s t [Reg.CHN_MC_TRIM_TRIM i.val, Reg.CHN_MC_STATUS_ERR i.val, Reg.CHN_MC_STATUS_ACQ i.val] ∧
      BytesKept s t) ∧
  (∀ (i : Fin 16) (x : Int) (samples : List Int) (s : State), (s.slot i.val).mem = none →
    Runs (.clockField i x samples) s fun t => t = s) ∧
  (∀ (i : Fin 16) (m : Member) (s : State), (s.slot i.val).mem = some m → s.get (Reg.CHN_MC_STATUS_LOCKED i.val) = 0 →
    4 ≤ (s.slot i.val).okRun → Runs (.mediaClockLock i) s fun t => t.get (Reg.CHN_MC_STATUS_LOCKED i.val) = 1 ∧
      t.slot i.val = { s.slot i.val with unlocked := false, badRun := 0 } ∧
      FieldsKept s t [Reg.CHN_MC_STATUS_LOCKED i.val] ∧ BytesKept s t) ∧
  (∀ (i : Fin 16) (s : State), (s.slot i.val).okRun < 4 → Runs (.mediaClockLock i) s fun t => t = s) ∧
  (∀ (i : Fin 16) (s : State), s.locked i.val = true → s.mustUnlock i.val = true → (s.slot i.val).gate = false →
    Runs (.lossOfLock i) s fun t => t.get (Reg.CHN_MC_STATUS_LOCKED i.val) = 0 ∧
      t.get (Reg.CHN_MC_STATUS_ACQ i.val) = 1 ∧
      t.slot i.val = { s.slot i.val with unlocked := true, validCnt := 0, okRun := 0 } ∧
      t.get (Reg.CHN_MC_UNLOCKS_COUNT i.val) = s.counted (Reg.CHN_MC_UNLOCKS_COUNT i.val) 1 ∧
      hasBit (t.get (Reg.CHN_WR_CAUSE_CAUSE i.val)) 5 = true ∧ BytesKept s t ∧
      FieldsKept s t [Reg.CHN_MC_STATUS_LOCKED i.val, Reg.CHN_MC_STATUS_ACQ i.val, Reg.CHN_MC_UNLOCKS_COUNT i.val,
        Reg.CHN_WR_CAUSE_CAUSE i.val]) ∧
  (∀ (i : Fin 16) (s : State), s.locked i.val = true → s.mustUnlock i.val = true → (s.slot i.val).gate = true →
    Runs (.lossOfLock i) s fun t => t.get (Reg.CHN_MC_STATUS_LOCKED i.val) = 0 ∧ (t.slot i.val).unlocked = true ∧
      (t.slot i.val).gate = false ∧ hasBit (t.get (Reg.CHN_WR_CAUSE_CAUSE i.val)) 5 = true) ∧
  (∀ (i : Fin 16) (s : State), (s.slot i.val).badRun < 2 → (s.slot i.val).invRun < 3 →
    (s.sget (Reg.CHN_MC_TRIM_TRIM i.val)).natAbs < 335544 → Runs (.lossOfLock i) s fun t => t = s)

/-- A codeword that passes its checks is released in the first staging buffer; one that fails leaves the slot with cause DATAPATH and is
counted as aborted, its sector to be revisited, and one that underruns with cause UNDERRUN, counted. A sample of an enabled input beyond
its threshold trips the input and makes the shock source active: when it was not, every slot takes cause SHOCK and no gate stays open; one
within it is counted up to 64. 64 samples within threshold on every enabled input clear the source; an input that is not enabled does
nothing. -/
def Obligations.CodewordsAndShock : Prop :=
  (∀ (i : Fin 16) (info parity : Nat) (w : WrSect) (s : State), (s.slot i.val).wr = [w] → w.released = false → w.bad = false →
    s.buf.flips = [] → codewordOk w.header w.block (info % 2 ^ 32992 + 2 ^ 32992 * parity) = true →
    Runs (.codewordEncodeDone i info parity) s fun t => (t.slot i.val).wr = [{ w with released := true, staging := 0 }] ∧
      FieldsKept s t [] ∧ BytesKept s t) ∧
  (∀ (i : Fin 16) (info parity : Nat) (w : WrSect) (s : State), (s.slot i.val).wr = [w] → w.released = false →
    s.buf.flips = [] → w.bad = true ∨ codewordOk w.header w.block (info % 2 ^ 32992 + 2 ^ 32992 * parity) = false →
    Runs (.codewordEncodeDone i info parity) s fun t => (t.slot i.val).wr = [] ∧ (t.slot i.val).dpSrc = true ∧
      hasBit (t.get (Reg.CHN_WR_CAUSE_CAUSE i.val)) 10 = true ∧
      t.get (Reg.CHN_WR_ABORTED_COUNT i.val) = s.counted (Reg.CHN_WR_ABORTED_COUNT i.val) 1 ∧ BytesKept s t ∧
      FieldsKept s t [Reg.CHN_WR_CAUSE_CAUSE i.val, Reg.CHN_WR_ABORTED_COUNT i.val, Reg.FMT_MISSED_COUNT (i.val / 4)]) ∧
  (∀ (i : Fin 16) (w : WrSect) (s : State), (s.slot i.val).wr = [w] → w.released = false →
    Runs (.codewordUnderrun i) s fun t => (t.slot i.val).wr = [] ∧ (t.slot i.val).urSrc = true ∧
      hasBit (t.get (Reg.CHN_WR_CAUSE_CAUSE i.val)) 11 = true ∧
      t.get (Reg.CHN_WR_UNDERRUN_COUNT i.val) = s.counted (Reg.CHN_WR_UNDERRUN_COUNT i.val) 1 ∧ BytesKept s t ∧
      FieldsKept s t [Reg.CHN_WR_CAUSE_CAUSE i.val, Reg.CHN_WR_UNDERRUN_COUNT i.val, Reg.FMT_MISSED_COUNT (i.val / 4)]) ∧
  (∀ (k : Fin 5) (code : Nat) (s : State), s.clkOk 41 = true → hasBit (s.get Reg.CHN_SHK_CTL_EN) k.val = true →
    ((code : Int) - 2048).natAbs ≤ s.get (if k.val < 3 then Reg.CHN_SHK_CTL_SHK_THR else Reg.CHN_SHK_CTL_RV_THR) →
    Runs (.sensorSample k code) s fun t =>
      t.shock.active = s.shock.active ∧ SMap.get t.shock.okRun 0 k.val = satAdd 64 (SMap.get s.shock.okRun 0 k.val) 1 ∧
      FieldsKept s t [] ∧ BytesKept s t) ∧
  (∀ (k : Fin 5) (code : Nat) (s : State), s.clkOk 41 = true → hasBit (s.get Reg.CHN_SHK_CTL_EN) k.val = true →
    s.get (if k.val < 3 then Reg.CHN_SHK_CTL_SHK_THR else Reg.CHN_SHK_CTL_RV_THR) < ((code : Int) - 2048).natAbs →
    s.shock.active = true → s.get Reg.CHN_SHK_STATUS_TRIP < 32 →
    Runs (.sensorSample k code) s fun t => t.shock.active = true ∧ SMap.get t.shock.okRun 0 k.val = 0 ∧
      t.get Reg.CHN_SHK_STATUS_TRIP = setBit (s.get Reg.CHN_SHK_STATUS_TRIP) k.val ∧
      FieldsKept s t [Reg.CHN_SHK_STATUS_TRIP] ∧ BytesKept s t) ∧
  (∀ (k : Fin 5) (code : Nat) (s : State), s.clkOk 41 = true → hasBit (s.get Reg.CHN_SHK_CTL_EN) k.val = true →
    s.get (if k.val < 3 then Reg.CHN_SHK_CTL_SHK_THR else Reg.CHN_SHK_CTL_RV_THR) < ((code : Int) - 2048).natAbs →
    s.shock.active = false → s.get Reg.CHN_SHK_STATUS_TRIP < 32 →
    Runs (.sensorSample k code) s fun t => t.shock.active = true ∧
      t.get Reg.CHN_SHK_STATUS_TRIP = setBit (s.get Reg.CHN_SHK_STATUS_TRIP) k.val ∧
      allSlots.all (fun i => hasBit (t.get (Reg.CHN_WR_CAUSE_CAUSE i)) 1 && !(t.slot i).gate) = true) ∧
  (∀ (k : Fin 5) (code : Nat) (s : State), hasBit (s.get Reg.CHN_SHK_CTL_EN) k.val = false →
    Runs (.sensorSample k code) s fun t => t = s) ∧
  (∀ s : State, s.shock.active = true →
    (maskBits 5 (s.get Reg.CHN_SHK_CTL_EN)).all (fun k => decide (64 ≤ SMap.get s.shock.okRun 0 k)) = true →
    Runs .shockClear s fun t => t.shock = { s.shock with active := false } ∧ FieldsKept s t [] ∧ BytesKept s t) ∧
  (∀ s : State, (maskBits 5 (s.get Reg.CHN_SHK_CTL_EN)).any (fun k => decide (SMap.get s.shock.okRun 0 k < 64)) = true →
    Runs .shockClear s fun t => t = s)

/-- A legal word that a thread fetches executes: NOP changes nothing, LDCMP loads CMP (a cell at or above CELLS is a machine
check with cause 3), ADDCMP adds a signed cell count that carries through wedge intervals and the revolution, LDLC loads
and DECLC counts down LC0 or LC1, stopping at 0. The thread then is in its beat with that word, its push due where GQ is
1; without an event of the word no register and no byte of the buffer changes. -/
def Obligations.TabArithmetic : Prop :=
  (∀ (a j : Fin 4) (w : Nat) (s : State), s.fetches a.val j.val w 0 = true → Runs (.nop a j) s fun t =>
    t.thread a.val j.val = { s.thread a.val j.val with word := some w, pushDue := tabGq w } ∧
    (hasBit w 44 = false → FieldsKept s t [] ∧ BytesKept s t)) ∧
  (∀ (a j : Fin 4) (w : Nat) (s : State), s.fetches a.val j.val w 1 = true →
    tabImm w % 2 ^ 17 < s.cellsOf (4 * a.val + j.val) → Runs (.ldcmp a j) s fun t =>
      (t.thread a.val j.val).cmpW = tabImm w / 2 ^ 17 ∧ (t.thread a.val j.val).cmpC = tabImm w % 2 ^ 17 ∧
      (t.thread a.val j.val).word = some w ∧ (t.thread a.val j.val).pushDue = tabGq w ∧
      (hasBit w 44 = false → FieldsKept s t [] ∧ BytesKept s t)) ∧
  (∀ (a j : Fin 4) (w : Nat) (s : State), s.fetches a.val j.val w 1 = true → 0 < s.cellsOf (4 * a.val + j.val) →
    s.cellsOf (4 * a.val + j.val) ≤ tabImm w % 2 ^ 17 → Runs (.ldcmp a j) s fun t =>
      t.get (Reg.FMT_MCHK_VALID a.val) = 1 ∧ t.get (Reg.FMT_MCHK_CAUSE a.val) = 3 ∧
      t.get (Reg.FMT_MCHK_THREAD a.val) = j.val) ∧
  (∀ (a j : Fin 4) (w c : Nat) (s : State), s.fetches a.val j.val w 2 = true → s.cellsOf (4 * a.val + j.val) = c →
    0 < c → Runs (.addcmp a j) s fun t =>
      (((t.thread a.val j.val).cmpW * c + (t.thread a.val j.val).cmpC : Nat) : Int) =
        (((s.thread a.val j.val).cmpW * c + (s.thread a.val j.val).cmpC : Nat) + toSigned 18 (tabImm w)) %
          ((512 * c : Nat) : Int) ∧ (t.thread a.val j.val).cmpC < c ∧ (t.thread a.val j.val).word = some w ∧
      (hasBit w 44 = false → FieldsKept s t [] ∧ BytesKept s t)) ∧
  (∀ (a j : Fin 4) (w : Nat) (s : State), s.fetches a.val j.val w 4 = true → Runs (.ldlc a j) s fun t =>
    (t.thread a.val j.val).lc1 = tabImm w % 65536 ∧ (t.thread a.val j.val).lc0 = (s.thread a.val j.val).lc0 ∧
    (t.thread a.val j.val).word = some w ∧ (hasBit w 44 = false → FieldsKept s t [] ∧ BytesKept s t)) ∧
  (∀ (a j : Fin 4) (w : Nat) (s : State), s.fetches a.val j.val w 3 = true → Runs (.ldlc a j) s fun t =>
    (t.thread a.val j.val).lc0 = tabImm w % 65536 ∧ (t.thread a.val j.val).lc1 = (s.thread a.val j.val).lc1 ∧
    (t.thread a.val j.val).word = some w ∧ (hasBit w 44 = false → FieldsKept s t [] ∧ BytesKept s t)) ∧
  (∀ (a j : Fin 4) (w : Nat) (s : State), s.fetches a.val j.val w 5 = true → Runs (.declc a j) s fun t =>
    (t.thread a.val j.val).lc0 = (s.thread a.val j.val).lc0 - 1 ∧
    (t.thread a.val j.val).lc1 = (s.thread a.val j.val).lc1 ∧ (t.thread a.val j.val).word = some w ∧
    (hasBit w 44 = false → FieldsKept s t [] ∧ BytesKept s t)) ∧
  (∀ (a j : Fin 4) (w : Nat) (s : State), s.fetches a.val j.val w 6 = true → Runs (.declc a j) s fun t =>
    (t.thread a.val j.val).lc1 = (s.thread a.val j.val).lc1 - 1 ∧
    (t.thread a.val j.val).lc0 = (s.thread a.val j.val).lc0 ∧ (t.thread a.val j.val).word = some w ∧
    (hasBit w 44 = false → FieldsKept s t [] ∧ BytesKept s t))

/-- TAKERUN makes the oldest queued run current and takes the sector of it that arrives first at LEAD × 128 cells ahead of the slot: CMP
goes to that sector's first preamble cell, and its block is requested for encoding (a write), its capture queued (a read), or, where its
list entry does not read, it is final with STATUS 3; with a run still current, none queued, or FMT_DONE full it takes none and leaves
CMP (DESIGN CHOICE, log entry 101). NEXTSEC takes the sectors in ascending order from the start with a wrap, then those to revisit in the
order in which they arrive, and with none left takes none. NEXTFRAG and ENDFRAG set CMP to the first cell of the next fragment and to the
first cell after the pad of this one. SKIP drops the current sector and counts it missed: a read without a free sample-buffer entry, with
a MISSED record, and a slot that is locked revisit it without limit; on an unlocked slot each revisit counts, and past FMT_CTL.REVISIT the
sector has no revisit left. ENDMEMBER waits at the barrier; it ends the slot's member, its edge queue and its gates, or, where a sector
that has started has not ended, only drops the entries of the others. -/
def Obligations.TabSectors : Prop :=
  (∀ (a j : Fin 4) (u c w k : Nat) (r : Run) (rs : List Run) (m : Member) (s : State), s.fetches a.val j.val w 7 = true →
    SMap.look (s.fmt a.val).cur j.val = none → SMap.get (s.fmt a.val).queues [] j.val = r :: rs →
    (s.slot (4 * a.val + j.val)).mem = some m → (s.fmt a.val).done.length < 16 →
    firstToArrive m.cells (s.lead a.val) ((s.atCell (4 * a.val + j.val) u c).position (4 * a.val + j.val)) r.first
      (List.range r.count) = some k → Runs (.takerun a j u c) s fun t =>
      SMap.get (t.fmt a.val).queues [] j.val = rs ∧
      (∃ r', SMap.look (t.fmt a.val).cur j.val = some r' ∧ r'.rid = r.rid ∧ r'.taken = 1 ∧ r'.start = k ∧ r'.list = r.list) ∧
      (∃ q, (t.thread a.val j.val).cur = some q ∧ q.rid = r.rid ∧ q.idx = k ∧ q.psi = r.first + k ∧ q.frag = 0) ∧
      (t.thread a.val j.val).cmpW * m.cells + (t.thread a.val j.val).cmpC =
        (((sectorFrags m.cells (r.first + k)).headD ⟨0, 0, 0⟩).cell m.cells / m.cells % 512) * m.cells +
          ((sectorFrags m.cells (r.first + k)).headD ⟨0, 0, 0⟩).cell m.cells % m.cells ∧
      (t.thread a.val j.val).word = some w ∧ (t.thread a.val j.val).pushDue = tabGq w) ∧
  (∀ (a j : Fin 4) (u c w k req : Nat) (r : Run) (rs : List Run) (m : Member) (s : State), s.fetches a.val j.val w 7 = true →
    SMap.look (s.fmt a.val).cur j.val = none → SMap.get (s.fmt a.val).queues [] j.val = r :: rs →
    (s.slot (4 * a.val + j.val)).mem = some m → (s.fmt a.val).done.length < 16 →
    firstToArrive m.cells (s.lead a.val) ((s.atCell (4 * a.val + j.val) u c).position (4 * a.val + j.val)) r.first
      (List.range r.count) = some k → (s.bufRead 0 (r.list + 8 * k) 8).1 = some req → Runs (.takerun a j u c) s fun t =>
      (r.write = true → (t.slot (4 * a.val + j.val)).rd = (s.slot (4 * a.val + j.val)).rd ∧
        (t.slot (4 * a.val + j.val)).wr.map (fun x => (x.rid, x.idx, x.psi, x.addr, x.released)) =
          (s.slot (4 * a.val + j.val)).wr.map (fun x => (x.rid, x.idx, x.psi, x.addr, x.released)) ++
            [(r.rid, k, r.first + k, req % 2 ^ 34, false)]) ∧
      (r.write = false → (t.slot (4 * a.val + j.val)).wr = (s.slot (4 * a.val + j.val)).wr ∧
        (t.slot (4 * a.val + j.val)).rd.map (fun x => (x.rid, x.idx, x.psi, x.listAddr, x.req)) =
          (s.slot (4 * a.val + j.val)).rd.map (fun x => (x.rid, x.idx, x.psi, x.listAddr, x.req)) ++
            [(r.rid, k, r.first + k, r.list + 8 * k, req)])) ∧
  (∀ (a j : Fin 4) (u c w k : Nat) (r : Run) (rs : List Run) (m : Member) (s : State), s.fetches a.val j.val w 7 = true →
    SMap.look (s.fmt a.val).cur j.val = none → SMap.get (s.fmt a.val).queues [] j.val = r :: rs → r.stat = [] →
    (s.fmt a.val).cur.all (fun e => e.2.rid != r.rid) = true →
    (s.slot (4 * a.val + j.val)).mem = some m → (s.fmt a.val).done.length < 16 →
    firstToArrive m.cells (s.lead a.val) ((s.atCell (4 * a.val + j.val) u c).position (4 * a.val + j.val)) r.first
      (List.range r.count) = some k → (s.bufRead 0 (r.list + 8 * k) 8).1 = none → Runs (.takerun a j u c) s fun t =>
      (∃ r', SMap.look (t.fmt a.val).cur j.val = some r' ∧ SMap.get r'.stat 0 k = 3) ∧
      (t.slot (4 * a.val + j.val)).wr = (s.slot (4 * a.val + j.val)).wr ∧
      (t.slot (4 * a.val + j.val)).rd = (s.slot (4 * a.val + j.val)).rd) ∧
  (∀ (a j : Fin 4) (u c w : Nat) (s : State), s.fetches a.val j.val w 7 = true →
    (SMap.get (s.fmt a.val).queues [] j.val = [] ∨ (SMap.look (s.fmt a.val).cur j.val).isSome = true ∨
      16 ≤ (s.fmt a.val).done.length) → Runs (.takerun a j u c) s fun t =>
      (t.fmt a.val).cur = (s.fmt a.val).cur ∧ (t.fmt a.val).queues = (s.fmt a.val).queues ∧
      t.thread a.val j.val = { s.thread a.val j.val with word := some w, pushDue := tabGq w } ∧
      (hasBit w 44 = false → FieldsKept s t [] ∧ BytesKept s t)) ∧
  (∀ (a j : Fin 4) (u c w : Nat) (r : Run) (m : Member) (s : State), s.fetches a.val j.val w 8 = true →
    SMap.look (s.fmt a.val).cur j.val = some r → (s.slot (4 * a.val + j.val)).mem = some m → r.taken < r.count →
    Runs (.nextsec a j u c) s fun t => (∃ q, (t.thread a.val j.val).cur = some q ∧ q.rid = r.rid ∧
      q.idx = (r.start + r.taken) % r.count ∧ q.psi = r.first + q.idx ∧ q.frag = 0) ∧
      (∃ r', SMap.look (t.fmt a.val).cur j.val = some r' ∧ r'.rid = r.rid ∧ r'.taken = r.taken + 1 ∧
        r'.revisit = r.revisit) ∧ (t.thread a.val j.val).word = some w) ∧
  (∀ (a j : Fin 4) (u c w k : Nat) (r : Run) (m : Member) (s : State), s.fetches a.val j.val w 8 = true →
    SMap.look (s.fmt a.val).cur j.val = some r → (s.slot (4 * a.val + j.val)).mem = some m → r.count ≤ r.taken →
    firstToArrive m.cells (s.lead a.val) ((s.atCell (4 * a.val + j.val) u c).position (4 * a.val + j.val)) r.first r.revisit =
      some k → Runs (.nextsec a j u c) s fun t => (∃ q, (t.thread a.val j.val).cur = some q ∧ q.rid = r.rid ∧
      q.idx = k ∧ q.psi = r.first + k ∧ q.frag = 0) ∧
      (∃ r', SMap.look (t.fmt a.val).cur j.val = some r' ∧ r'.rid = r.rid ∧ r'.taken = r.taken ∧
        r'.revisit = r.revisit.erase k) ∧ (t.thread a.val j.val).word = some w) ∧
  (∀ (a j : Fin 4) (u c w : Nat) (r : Run) (m : Member) (s : State), s.fetches a.val j.val w 8 = true →
    SMap.look (s.fmt a.val).cur j.val = some r → (s.slot (4 * a.val + j.val)).mem = some m → r.count ≤ r.taken →
    r.revisit = [] → Runs (.nextsec a j u c) s fun t =>
      t.thread a.val j.val = { s.thread a.val j.val with word := some w, pushDue := tabGq w } ∧
      (t.fmt a.val).cur = (s.fmt a.val).cur ∧ (hasBit w 44 = false → FieldsKept s t [] ∧ BytesKept s t)) ∧
  (∀ (a j : Fin 4) (w : Nat) (q : Cur) (m : Member) (f : Frag) (s : State), s.fetches a.val j.val w 9 = true →
    (s.thread a.val j.val).cur = some q → (s.slot (4 * a.val + j.val)).mem = some m →
    (sectorFrags m.cells q.psi)[q.frag + 1]? = some f → Runs (.nextfrag a j) s fun t =>
      (t.thread a.val j.val).cur = some { q with frag := q.frag + 1 } ∧
      (t.thread a.val j.val).cmpW = f.cell m.cells / m.cells % 512 ∧
      (t.thread a.val j.val).cmpC = f.cell m.cells % m.cells ∧ (t.thread a.val j.val).word = some w ∧
      (hasBit w 44 = false → FieldsKept s t [] ∧ BytesKept s t)) ∧
  (∀ (a j : Fin 4) (w : Nat) (q : Cur) (m : Member) (f : Frag) (s : State), s.fetches a.val j.val w 12 = true →
    (s.thread a.val j.val).cur = some q → (s.slot (4 * a.val + j.val)).mem = some m →
    (sectorFrags m.cells q.psi)[q.frag]? = some f → Runs (.endfrag a j) s fun t =>
      (t.thread a.val j.val).cur = some q ∧
      (t.thread a.val j.val).cmpW = (f.cell m.cells + f.len (q.frag == 0)) / m.cells % 512 ∧
      (t.thread a.val j.val).cmpC = (f.cell m.cells + f.len (q.frag == 0)) % m.cells ∧
      (t.thread a.val j.val).word = some w ∧ (hasBit w 44 = false → FieldsKept s t [] ∧ BytesKept s t)) ∧
  (∀ (a j : Fin 4) (w : Nat) (q : Cur) (r : Run) (s : State), s.fetches a.val j.val w 10 = true →
    (s.thread a.val j.val).cur = some q → SMap.look (s.fmt a.val).cur j.val = some r → r.rid = q.rid →
    (r.write || s.sbFree (4 * a.val + j.val)) = true → s.locked (4 * a.val + j.val) = true →
    Runs (.skip a j) s fun t =>
      (t.thread a.val j.val).cur = none ∧ SMap.look (t.fmt a.val).cur j.val =
        some { r with revisit := r.revisit ++ [q.idx] } ∧
      (t.slot (4 * a.val + j.val)).wr.all (fun x => x.sec != q.sec) = true ∧
      (t.slot (4 * a.val + j.val)).rd.all (fun x => x.sec != q.sec) = true ∧
      t.get (Reg.FMT_MISSED_COUNT a.val) = s.counted (Reg.FMT_MISSED_COUNT a.val) 1 ∧
      (hasBit w 44 = false → FieldsKept s t [Reg.FMT_MISSED_COUNT a.val] ∧ BytesKept s t)) ∧
  (∀ (a j : Fin 4) (w : Nat) (q : Cur) (r : Run) (s : State), s.fetches a.val j.val w 10 = true →
    (s.thread a.val j.val).cur = some q → SMap.look (s.fmt a.val).cur j.val = some r → r.rid = q.rid → r.write = false →
    s.sbFree (4 * a.val + j.val) = false → (s.slot (4 * a.val + j.val)).fifo.length < 32 → Runs (.skip a j) s fun t =>
      (t.thread a.val j.val).cur = none ∧ SMap.look (t.fmt a.val).cur j.val =
        some { r with revisit := r.revisit ++ [q.idx] } ∧
      (t.slot (4 * a.val + j.val)).fifo = (s.slot (4 * a.val + j.val)).fifo ++ [(recordLo 0 q.psi,
        recordHi 5 false 0 0 0 (s.get (Reg.CHN_DET_CTL_RETRY_TAG (4 * a.val + j.val))) 0)] ∧
      t.get (Reg.CHN_DET_MISSED_COUNT (4 * a.val + j.val)) = s.counted (Reg.CHN_DET_MISSED_COUNT (4 * a.val + j.val)) 1 ∧
      t.get (Reg.FMT_MISSED_COUNT a.val) = s.counted (Reg.FMT_MISSED_COUNT a.val) 1 ∧
      (hasBit w 44 = false → FieldsKept s t [Reg.FMT_MISSED_COUNT a.val, Reg.CHN_DET_MISSED_COUNT (4 * a.val + j.val)] ∧
        BytesKept s t)) ∧
  (∀ (a j : Fin 4) (w : Nat) (q : Cur) (r : Run) (s : State), s.fetches a.val j.val w 10 = true →
    (s.thread a.val j.val).cur = some q → (s.fmt a.val).cur = [(j.val, r)] → r.rid = q.rid →
    (r.write || s.sbFree (4 * a.val + j.val)) = true → s.locked (4 * a.val + j.val) = false →
    SMap.get r.used 0 q.idx < s.get (Reg.FMT_CTL_REVISIT a.val) → Runs (.skip a j) s fun t =>
      (t.thread a.val j.val).cur = none ∧ (t.fmt a.val).cur =
        [(j.val, { r with revisit := r.revisit ++ [q.idx], used := SMap.upd r.used 0 q.idx (· + 1) })] ∧
      (hasBit w 44 = false → FieldsKept s t [Reg.FMT_MISSED_COUNT a.val] ∧ BytesKept s t)) ∧
  (∀ (a j : Fin 4) (w : Nat) (q : Cur) (r : Run) (s : State), s.fetches a.val j.val w 10 = true →
    (s.thread a.val j.val).cur = some q → (s.fmt a.val).cur = [(j.val, r)] → r.rid = q.rid →
    (r.write || s.sbFree (4 * a.val + j.val)) = true → s.locked (4 * a.val + j.val) = false →
    s.get (Reg.FMT_CTL_REVISIT a.val) ≤ SMap.get r.used 0 q.idx → Runs (.skip a j) s fun t =>
      (t.thread a.val j.val).cur = none ∧ (t.fmt a.val).cur = [(j.val, { r with exhausted := r.exhausted ++ [q.idx] })] ∧
      (hasBit w 44 = false → FieldsKept s t [] ∧ BytesKept s t)) ∧
  (∀ (a j : Fin 4) (w : Nat) (s : State), s.fetches a.val j.val w 11 = true →
    (s.slot (4 * a.val + j.val)).unfinished = none → Runs (.endmember a j) s fun t =>
    (t.thread a.val j.val).barrier = true ∧ (t.thread a.val j.val).cur = none ∧ (t.thread a.val j.val).word = some w ∧
    (t.slot (4 * a.val + j.val)).mem.all Member.servoOnly = true ∧ (t.slot (4 * a.val + j.val)).eq = [] ∧
    (t.slot (4 * a.val + j.val)).wr = [] ∧ (t.slot (4 * a.val + j.val)).rd = [] ∧
    (t.slot (4 * a.val + j.val)).gate = false ∧ t.get (Reg.CHN_WR_STATUS_GATE (4 * a.val + j.val)) = 0 ∧
    t.get (Reg.CHN_FE_STATUS_ACTIVE (4 * a.val + j.val)) = 0 ∧
    hasBit (t.get (Reg.FMT_STATUS_MEMBER a.val)) j.val = false ∧ (hasBit w 44 = false → BytesKept s t)) ∧
  (∀ (a j : Fin 4) (w n : Nat) (s : State), s.fetches a.val j.val w 11 = true →
    (s.slot (4 * a.val + j.val)).unfinished = some n → Runs (.endmember a j) s fun t =>
    (t.thread a.val j.val).barrier = true ∧ (t.thread a.val j.val).cur = none ∧
    (t.slot (4 * a.val + j.val)).mem = (s.slot (4 * a.val + j.val)).mem ∧
    (t.slot (4 * a.val + j.val)).gate = (s.slot (4 * a.val + j.val)).gate ∧
    (t.slot (4 * a.val + j.val)).eq = (s.slot (4 * a.val + j.val)).eq.filter (fun e => e.sec == n) ∧
    (t.slot (4 * a.val + j.val)).wr = (s.slot (4 * a.val + j.val)).wr.filter (fun e => e.sec == n) ∧
    (t.slot (4 * a.val + j.val)).rd = (s.slot (4 * a.val + j.val)).rd.filter (fun e => e.sec == n) ∧
    (hasBit w 44 = false → FieldsKept s t [] ∧ BytesKept s t))

/-- The end of a beat takes ALT where the condition XOR NEG holds and NEXT otherwise; a thread whose push is due, or that does not step,
stays. A push that is due puts (CMP, the gates of the word) behind the queue where the entry is not late; a full queue keeps it due. A
late entry's sector is missed: it leaves the slot, WG closes, the further entries of that sector are discarded, and it is revisited
without limit; a read that would find no sample-buffer entry is missed with a MISSED record. The oldest entry applied leaves the queue
with its gate levels on the slot. A rising RG starts the capture of the entry's sector into the entry that does not hold the newest one,
on a locked slot with a free entry; a rising WG opens the gate over the fragment, and the slot writes its cells, where the codeword is
released, no source is unsafe, the slot is locked and the fragment's first cell has not passed; a falling WG past the last codeword cell
of the last fragment ends the sector with STATUS 1, and ahead of it aborts the sector. SG loads E1's servo gain for the servo field. -/
def Obligations.EdgeQueue : Prop :=
  (∀ (a j : Fin 4) (u c w : Nat) (s : State), (s.thread a.val j.val).word = some w →
    (s.thread a.val j.val).pushDue = false → s.stepping a.val = true →
    s.condition a.val j.val ((s.atCell (4 * a.val + j.val) u c).position (4 * a.val + j.val)) (tabCond w) ≠ hasBit w 34 →
    Runs (.tabBeatEnd a j u c) s fun t => t.thread a.val j.val =
      { s.thread a.val j.val with word := none, patch := hasBit w 27, pc := bits w 26 14 } ∧ FieldsKept s t [] ∧
      BytesKept s t) ∧
  (∀ (a j : Fin 4) (u c w : Nat) (s : State), (s.thread a.val j.val).word = some w →
    (s.thread a.val j.val).pushDue = false → s.stepping a.val = true →
    s.condition a.val j.val ((s.atCell (4 * a.val + j.val) u c).position (4 * a.val + j.val)) (tabCond w) = hasBit w 34 →
    Runs (.tabBeatEnd a j u c) s fun t => t.thread a.val j.val =
      { s.thread a.val j.val with word := none, patch := hasBit w 13, pc := bits w 12 0 } ∧ FieldsKept s t [] ∧
      BytesKept s t) ∧
  (∀ (a j : Fin 4) (u c : Nat) (s : State), ((s.thread a.val j.val).pushDue || !s.stepping a.val) = true →
    Runs (.tabBeatEnd a j u c) s fun t => t = s.atCell (4 * a.val + j.val) u c) ∧
  (∀ (a j : Fin 4) (u c w : Nat) (s : State), (s.thread a.val j.val).word = some w →
    (s.thread a.val j.val).pushDue = true → s.stepping a.val = true → (s.slot (4 * a.val + j.val)).eq.length < 8 →
    (s.slot (4 * a.val + j.val)).discard = none →
    ((s.slot (4 * a.val + j.val)).rd = [] ∨ s.sbFree (4 * a.val + j.val) = true) →
    s.entryLate a.val j.val ((s.atCell (4 * a.val + j.val) u c).position (4 * a.val + j.val)) ⟨(s.thread a.val j.val).cmpW,
      (s.thread a.val j.val).cmpC, hasBit w 39, hasBit w 40, hasBit w 41, hasBit w 42,
      ((s.thread a.val j.val).cur.map Cur.sec).getD 0⟩ = false →
    Runs (.edgeQueuePush a j u c) s fun t => (t.thread a.val j.val).pushDue = false ∧
      (t.thread a.val j.val).word = some w ∧ (t.slot (4 * a.val + j.val)).eq = (s.slot (4 * a.val + j.val)).eq ++
        [⟨(s.thread a.val j.val).cmpW, (s.thread a.val j.val).cmpC, hasBit w 39, hasBit w 40, hasBit w 41, hasBit w 42,
          ((s.thread a.val j.val).cur.map Cur.sec).getD 0⟩] ∧
      (hasBit w 44 = false → FieldsKept s t [] ∧ BytesKept s t)) ∧
  (∀ (a j : Fin 4) (u c : Nat) (s : State),
    (8 ≤ (s.slot (4 * a.val + j.val)).eq.length ∨ (s.thread a.val j.val).pushDue = false ∨ s.stepping a.val = false) →
    Runs (.edgeQueuePush a j u c) s fun t => t = s.atCell (4 * a.val + j.val) u c) ∧
  (∀ (a j : Fin 4) (u c w : Nat) (q : Cur) (x : WrSect) (r : Run) (s : State), (s.thread a.val j.val).word = some w →
    (s.thread a.val j.val).pushDue = true → s.stepping a.val = true → (s.slot (4 * a.val + j.val)).eq.length < 8 →
    (s.slot (4 * a.val + j.val)).discard = none → (s.thread a.val j.val).cur = some q →
    (s.slot (4 * a.val + j.val)).gate = false → (s.slot (4 * a.val + j.val)).wr = [x] → x.sec = q.sec →
    (s.slot (4 * a.val + j.val)).rd = [] → (s.fmt a.val).cur = [(j.val, r)] → r.rid = x.rid →
    s.entryLate a.val j.val ((s.atCell (4 * a.val + j.val) u c).position (4 * a.val + j.val)) ⟨(s.thread a.val j.val).cmpW,
      (s.thread a.val j.val).cmpC, hasBit w 39, hasBit w 40, hasBit w 41, hasBit w 42, q.sec⟩ = true →
    Runs (.edgeQueuePush a j u c) s fun t => (t.thread a.val j.val).pushDue = false ∧
      (t.slot (4 * a.val + j.val)).eq = (s.slot (4 * a.val + j.val)).eq ∧
      (t.slot (4 * a.val + j.val)).discard = some q.sec ∧ (t.slot (4 * a.val + j.val)).wg = false ∧
      (t.slot (4 * a.val + j.val)).wr = [] ∧
      (t.fmt a.val).cur = [(j.val, { r with revisit := r.revisit ++ [x.idx] })] ∧
      t.get (Reg.FMT_MISSED_COUNT a.val) = s.counted (Reg.FMT_MISSED_COUNT a.val) 1 ∧
      (hasBit w 44 = false → FieldsKept s t [Reg.FMT_MISSED_COUNT a.val] ∧ BytesKept s t)) ∧
  (∀ (a j : Fin 4) (u c w : Nat) (q : Cur) (d : RdSect) (r : Run) (s : State), (s.thread a.val j.val).word = some w →
    hasBit w 39 = true → (s.thread a.val j.val).pushDue = true → s.stepping a.val = true →
    (s.slot (4 * a.val + j.val)).eq.length < 8 → (s.slot (4 * a.val + j.val)).discard = none →
    (s.thread a.val j.val).cur = some q → (s.slot (4 * a.val + j.val)).gate = false → (s.slot (4 * a.val + j.val)).wr = [] →
    (s.slot (4 * a.val + j.val)).rd = [d] → d.sec = q.sec → s.sbFree (4 * a.val + j.val) = false →
    (s.slot (4 * a.val + j.val)).fifo.length < 32 → (s.fmt a.val).cur = [(j.val, r)] → r.rid = d.rid →
    Runs (.edgeQueuePush a j u c) s fun t => (t.thread a.val j.val).pushDue = false ∧
      (t.slot (4 * a.val + j.val)).eq = (s.slot (4 * a.val + j.val)).eq ∧ (t.slot (4 * a.val + j.val)).rd = [] ∧
      (t.slot (4 * a.val + j.val)).fifo = (s.slot (4 * a.val + j.val)).fifo ++ [(recordLo 0 d.psi,
        recordHi 5 false 0 0 0 (s.get (Reg.CHN_DET_CTL_RETRY_TAG (4 * a.val + j.val))) 0)] ∧
      (t.fmt a.val).cur = [(j.val, { r with revisit := r.revisit ++ [d.idx] })] ∧
      (hasBit w 44 = false → FieldsKept s t [Reg.FMT_MISSED_COUNT a.val, Reg.CHN_DET_MISSED_COUNT (4 * a.val + j.val)] ∧
        BytesKept s t)) ∧
  (∀ (a j : Fin 4) (u c w : Nat) (q : Cur) (s : State), (s.thread a.val j.val).word = some w →
    (s.thread a.val j.val).pushDue = true → s.stepping a.val = true → (s.slot (4 * a.val + j.val)).eq.length < 8 →
    (s.thread a.val j.val).cur = some q → q.sec ≠ 0 → (s.slot (4 * a.val + j.val)).discard = some q.sec →
    Runs (.edgeQueuePush a j u c) s fun t => (t.thread a.val j.val).pushDue = false ∧
      (t.slot (4 * a.val + j.val)).eq = (s.slot (4 * a.val + j.val)).eq ∧
      (hasBit w 44 = false → FieldsKept s t [] ∧ BytesKept s t)) ∧
  (∀ (i : Fin 16) (e : Edge) (es : List Edge) (s : State), (s.slot i.val).eq = e :: es → e.rg = (s.slot i.val).rg →
    e.sg = (s.slot i.val).sg → e.fw = (s.slot i.val).fw → e.wg = false → (s.slot i.val).gate = false →
    (s.slot i.val).rd = [] → Runs (.edgeEntryApply i) s fun t => (t.slot i.val).eq = es ∧ (t.slot i.val).wg = false ∧
      (t.slot i.val).rg = e.rg ∧ (t.slot i.val).sg = e.sg ∧ (t.slot i.val).fw = e.fw ∧ (t.slot i.val).cc = e.c ∧
      (∀ w, (s.slot i.val).wc = some w → w < 512 → e.w < 512 → t.position i.val = e.w * s.cellsOf i.val + e.c) ∧
      (t.slot i.val).started = (if e.sec = 0 then (s.slot i.val).started else some e.sec) ∧ FieldsKept s t [] ∧
      BytesKept s t) ∧
  (∀ (i : Fin 16) (e : Edge) (es : List Edge) (d : RdSect) (m : Member) (s : State), (s.slot i.val).eq = e :: es →
    e.rg = true → e.wg = false → (s.slot i.val).gate = false → e.sg = (s.slot i.val).sg → e.fw = (s.slot i.val).fw →
    (s.slot i.val).rd = [d] → d.sec = e.sec → (s.slot i.val).mem = some m → m.ready = true →
    s.locked i.val = true → s.sbFree i.val = true → s.srcState i.val ≠ 1 → Runs (.edgeEntryApply i) s fun t =>
      t.get (Reg.CHN_FE_SB_CTL_NEWEST i.val) = 1 - s.newest i.val ∧
      t.get (Reg.CHN_FE_SB_PSI_VALID i.val (1 - s.newest i.val)) = 0 ∧
      (∃ q, SMap.look (t.slot i.val).sects (1 - s.newest i.val) = some q ∧ q.psi = d.psi ∧ q.rid = d.rid ∧
        q.idx = d.idx ∧ q.captured = false ∧ q.since = some (e.w * m.cells + e.c) ∧ q.taps = (s.slot i.val).taps) ∧
      (t.slot i.val).rd = [] ∧ (t.slot i.val).rg = true ∧ (t.slot i.val).eq = es ∧
      FieldsKept s t [Reg.CHN_FE_SB_CTL_NEWEST i.val, Reg.CHN_FE_SB_PSI_VALID i.val (1 - s.newest i.val)] ∧
      BytesKept s t) ∧
  (∀ (i : Fin 16) (e : Edge) (es : List Edge) (w : WrSect) (m : Member) (s : State), (s.slot i.val).eq = e :: es →
    e.rg = (s.slot i.val).rg → e.sg = (s.slot i.val).sg → e.fw = (s.slot i.val).fw → e.wg = true →
    (s.slot i.val).rd = [] → (s.slot i.val).wg = false → (s.slot i.val).wr = [w] → w.sec = e.sec → w.released = true →
    (s.slot i.val).mem = some m → m.ready = true → s.unsafeMask i.val % 1024 = 0 → s.srcState i.val ≠ 1 →
    atOrAfter (512 * m.cells) ((w.frag m.cells).2.cell m.cells) (e.w * m.cells + e.c) = true →
    s.locked i.val = true → Runs (.edgeEntryApply i) s fun t => (t.slot i.val).gate = true ∧
      t.get (Reg.CHN_WR_STATUS_GATE i.val) = 1 ∧ (t.slot i.val).eq = es ∧ t.out = s.out ++ [s.fragOut i.val m w] ∧
      FieldsKept s t [Reg.CHN_WR_STATUS_GATE i.val] ∧ BytesKept s t) ∧
  (∀ (i : Fin 16) (e : Edge) (es : List Edge) (w : WrSect) (m : Member) (r : Run) (s : State),
    (s.slot i.val).eq = e :: es → e.rg = (s.slot i.val).rg → e.sg = (s.slot i.val).sg → e.fw = (s.slot i.val).fw →
    e.wg = false → (s.slot i.val).gate = true → (s.slot i.val).rd = [] → (s.slot i.val).wr = [w] →
    (s.slot i.val).started = some w.sec → (s.slot i.val).mem = some m → w.fragsLeft ≤ 1 →
    (s.fmt (i.val / 4)).cur = [(i.val % 4, r)] → r.rid = w.rid → r.stat = [] →
    atOrAfter (512 * m.cells) (e.w * m.cells + e.c)
      ((w.frag m.cells).2.cell m.cells + (w.frag m.cells).2.len ((w.frag m.cells).1 == 0) - 16) = true →
    Runs (.edgeEntryApply i) s fun t => (t.slot i.val).gate = false ∧ (t.slot i.val).wr = [] ∧
      t.get (Reg.CHN_WR_STATUS_GATE i.val) = 0 ∧
      t.get (Reg.CHN_WR_SECTORS_COUNT i.val) = s.counted (Reg.CHN_WR_SECTORS_COUNT i.val) 1 ∧
      (∃ r', SMap.look (t.fmt (i.val / 4)).cur (i.val % 4) = some r' ∧ SMap.get r'.stat 0 w.idx = 1)) ∧
  (∀ (i : Fin 16) (e : Edge) (es : List Edge) (w : WrSect) (m : Member) (r : Run) (s : State),
    (s.slot i.val).eq = e :: es → e.rg = (s.slot i.val).rg → e.sg = (s.slot i.val).sg → e.fw = (s.slot i.val).fw →
    e.wg = false → (s.slot i.val).gate = true → (s.slot i.val).rd = [] → (s.slot i.val).wr = [w] →
    (s.slot i.val).started = some w.sec → (s.slot i.val).mem = some m → s.spt.failSrc = false →
    (s.fmt (i.val / 4)).cur = [(i.val % 4, r)] → r.rid = w.rid →
    SMap.get r.used 0 w.idx < s.get (Reg.FMT_CTL_REVISIT (i.val / 4)) →
    atOrAfter (512 * m.cells) (e.w * m.cells + e.c)
      ((w.frag m.cells).2.cell m.cells + (w.frag m.cells).2.len ((w.frag m.cells).1 == 0) - 16) = false →
    Runs (.edgeEntryApply i) s fun t => (t.slot i.val).gate = false ∧ (t.slot i.val).wr = [] ∧
      t.get (Reg.CHN_WR_ABORTED_COUNT i.val) = s.counted (Reg.CHN_WR_ABORTED_COUNT i.val) 1 ∧
      (t.fmt (i.val / 4)).cur = [(i.val % 4, { r with
        revisit := r.revisit ++ [w.idx],
        used := SMap.upd r.used 0 w.idx (· + 1) })] ∧
      FieldsKept s t [Reg.CHN_WR_STATUS_GATE i.val, Reg.CHN_WR_ABORTED_COUNT i.val, Reg.FMT_MISSED_COUNT (i.val / 4)] ∧
      BytesKept s t) ∧
  (∀ (i : Fin 16) (e : Edge) (es : List Edge) (m : Member) (s : State), (s.slot i.val).eq = e :: es →
    e.rg = (s.slot i.val).rg → (s.slot i.val).rd = [] → e.sg = true → (s.slot i.val).sg = false →
    (s.slot i.val).dataGain = none → (s.slot i.val).mem = some m → e.fw = (s.slot i.val).fw → e.wg = false →
    (s.slot i.val).gate = false → s.srcState i.val ≠ 1 → Runs (.edgeEntryApply i) s fun t => (t.slot i.val).sg = true ∧
      t.get (Reg.CHN_FE_STATE_GAIN i.val 1) = s.get (Reg.SRV_SGAIN_GAIN (i.val / 4) m.head) ∧
      (t.slot i.val).dataGain = some (s.get (Reg.CHN_FE_STATE_GAIN i.val 1)) ∧
      FieldsKept s t [Reg.CHN_FE_STATE_GAIN i.val 1] ∧ BytesKept s t)

/-- A staged run that passes its checks is queued behind the slot's runs; a COUNT of 0 is rejected with code 1, one above 2,048 with code 2,
a list beyond the buffer or a last sector beyond the track with 3, a full queue with 4, a slot without a member with 5; a formatter that
is off answers a bus error. A final current run enters FMT_DONE, as does an ended one, whose oldest entry a read removes, 0 where there is
none. A sector whose revisits are used up takes STATUS 3; the block of a write then carries its failure. A valid course committed is
pending, an invalid one is rejected with code 5, as is one of an actuator that is not fitted, which answers a bus error too; at the
barrier, with every started sector ended, it becomes the course, its members due, and the runs end with STATUS 4 in FMT_DONE; before, the
barrier does nothing. CAPO_DATA replaces the 32 bits of the addressed part while RUN is 0 and HALTED is 1 and advances, to the next word
after part 3, else code 6; a verification ends with OK, or with the first failing check. RUN is written with REVISIT and LEAD, rejected
with code 1 where either is 0, 2 where LEAD is 1 or above 128, 7 where RUN is 1 without a verified patch and a match register is enabled;
a keyed reset leaves the threads at their reset state and RUN 0, and one without its key does nothing. A failing word, a failing sweep
word, and a pass whose CRC differs or that finds a match register with odd parity are machine checks with their causes: HALTED, gates
closed, edge queues empty, no run current; a clean sweep step goes on. -/
def Obligations.FormatterRuns : Prop :=
  (∀ (a : Fin 4) (v : Word) (n j : Nat) (m : Member) (s : State), s.domOn (80 + a.val) = true →
    s.get (Reg.FMT_RUN_D0_COUNT a.val) = n → s.get (Reg.FMT_RUN_D0_SLOT a.val) = j → 1 ≤ n → n ≤ 2048 →
    s.get (Reg.FMT_RUN_D1_LIST a.val) * 8 + 8 * n ≤ 2 ^ 34 → hasBit (s.get (Reg.FMT_STATUS_MEMBER a.val)) j = true →
    (s.slot (4 * a.val + j)).mem = some m → s.get (Reg.FMT_RUN_D0_FIRST_PSI a.val) + n ≤ sectorCount m.cells →
    (SMap.get (s.fmt a.val).queues [] j).length < 4 → Runs (.runPush a v) s fun t =>
      (∃ r, (SMap.get (t.fmt a.val).queues [] j).getLast? = some r ∧ r.count = n ∧ r.tag = v.toNat % 65536 ∧
        r.list = s.get (Reg.FMT_RUN_D1_LIST a.val) * 8 ∧ r.first = s.get (Reg.FMT_RUN_D0_FIRST_PSI a.val) ∧
        r.write = s.flag (Reg.FMT_RUN_D0_DIR a.val)) ∧
      (SMap.get (t.fmt a.val).queues [] j).dropLast = SMap.get (s.fmt a.val).queues [] j ∧ FieldsKept s t [] ∧
      BytesKept s t) ∧
  (∀ (a : Fin 4) (v : Word) (s : State), s.domOn (80 + a.val) = true → s.get (Reg.FMT_RUN_D0_COUNT a.val) = 0 →
    s.get (Reg.FMT_CFG_STATUS_ERR a.val) = 0 → Runs (.runPush a v) s fun t =>
      t.get (Reg.FMT_CFG_STATUS_ERR a.val) = 1 ∧ t.get (Reg.FMT_CFG_STATUS_CODE a.val) = 1 ∧ t.fmts = s.fmts ∧
      FieldsKept s t [Reg.FMT_CFG_STATUS_ERR a.val, Reg.FMT_CFG_STATUS_CODE a.val] ∧ BytesKept s t) ∧
  (∀ (a : Fin 4) (v : Word) (s : State), s.domOn (80 + a.val) = true → 2048 < s.get (Reg.FMT_RUN_D0_COUNT a.val) →
    s.get (Reg.FMT_CFG_STATUS_ERR a.val) = 0 → Runs (.runPush a v) s fun t =>
      t.get (Reg.FMT_CFG_STATUS_CODE a.val) = 2 ∧ t.fmts = s.fmts ∧
      FieldsKept s t [Reg.FMT_CFG_STATUS_ERR a.val, Reg.FMT_CFG_STATUS_CODE a.val] ∧ BytesKept s t) ∧
  (∀ (a : Fin 4) (v : Word) (n : Nat) (s : State), s.domOn (80 + a.val) = true → s.get (Reg.FMT_CFG_STATUS_ERR a.val) = 0 →
    s.get (Reg.FMT_RUN_D0_COUNT a.val) = n → 1 ≤ n → n ≤ 2048 →
    2 ^ 34 < s.get (Reg.FMT_RUN_D1_LIST a.val) * 8 + 8 * n → Runs (.runPush a v) s fun t =>
      t.get (Reg.FMT_CFG_STATUS_ERR a.val) = 1 ∧ t.get (Reg.FMT_CFG_STATUS_CODE a.val) = 3 ∧ t.fmts = s.fmts ∧
      FieldsKept s t [Reg.FMT_CFG_STATUS_ERR a.val, Reg.FMT_CFG_STATUS_CODE a.val] ∧ BytesKept s t) ∧
  (∀ (a : Fin 4) (v : Word) (n j : Nat) (m : Member) (s : State), s.domOn (80 + a.val) = true → s.get (Reg.FMT_CFG_STATUS_ERR a.val) = 0 →
    s.get (Reg.FMT_RUN_D0_COUNT a.val) = n → s.get (Reg.FMT_RUN_D0_SLOT a.val) = j → 1 ≤ n → n ≤ 2048 →
    s.get (Reg.FMT_RUN_D1_LIST a.val) * 8 + 8 * n ≤ 2 ^ 34 → hasBit (s.get (Reg.FMT_STATUS_MEMBER a.val)) j = true →
    (s.slot (4 * a.val + j)).mem = some m → sectorCount m.cells < s.get (Reg.FMT_RUN_D0_FIRST_PSI a.val) + n →
    Runs (.runPush a v) s fun t =>
      t.get (Reg.FMT_CFG_STATUS_ERR a.val) = 1 ∧ t.get (Reg.FMT_CFG_STATUS_CODE a.val) = 3 ∧ t.fmts = s.fmts ∧
      FieldsKept s t [Reg.FMT_CFG_STATUS_ERR a.val, Reg.FMT_CFG_STATUS_CODE a.val] ∧ BytesKept s t) ∧
  (∀ (a : Fin 4) (v : Word) (n j : Nat) (m : Member) (s : State), s.domOn (80 + a.val) = true → s.get (Reg.FMT_CFG_STATUS_ERR a.val) = 0 →
    s.get (Reg.FMT_RUN_D0_COUNT a.val) = n → s.get (Reg.FMT_RUN_D0_SLOT a.val) = j → 1 ≤ n → n ≤ 2048 →
    s.get (Reg.FMT_RUN_D1_LIST a.val) * 8 + 8 * n ≤ 2 ^ 34 → hasBit (s.get (Reg.FMT_STATUS_MEMBER a.val)) j = true →
    (s.slot (4 * a.val + j)).mem = some m → s.get (Reg.FMT_RUN_D0_FIRST_PSI a.val) + n ≤ sectorCount m.cells →
    4 ≤ (SMap.get (s.fmt a.val).queues [] j).length → Runs (.runPush a v) s fun t =>
      t.get (Reg.FMT_CFG_STATUS_ERR a.val) = 1 ∧ t.get (Reg.FMT_CFG_STATUS_CODE a.val) = 4 ∧ t.fmts = s.fmts ∧
      FieldsKept s t [Reg.FMT_CFG_STATUS_ERR a.val, Reg.FMT_CFG_STATUS_CODE a.val] ∧ BytesKept s t) ∧
  (∀ (a : Fin 4) (v : Word) (n j : Nat) (s : State), s.domOn (80 + a.val) = true → s.get (Reg.FMT_CFG_STATUS_ERR a.val) = 0 →
    s.get (Reg.FMT_RUN_D0_COUNT a.val) = n → s.get (Reg.FMT_RUN_D0_SLOT a.val) = j → 1 ≤ n → n ≤ 2048 →
    s.get (Reg.FMT_RUN_D1_LIST a.val) * 8 + 8 * n ≤ 2 ^ 34 → hasBit (s.get (Reg.FMT_STATUS_MEMBER a.val)) j = false →
    Runs (.runPush a v) s fun t =>
      t.get (Reg.FMT_CFG_STATUS_ERR a.val) = 1 ∧ t.get (Reg.FMT_CFG_STATUS_CODE a.val) = 5 ∧ t.fmts = s.fmts ∧
      FieldsKept s t [Reg.FMT_CFG_STATUS_ERR a.val, Reg.FMT_CFG_STATUS_CODE a.val] ∧ BytesKept s t) ∧
  (∀ (a : Fin 4) (v : Word) (s : State), s.domOn (80 + a.val) = false → Runs (.runPush a v) s fun t =>
    t.resp = .busError ∧ t.fmts = s.fmts ∧ FieldsKept s t [] ∧ BytesKept s t) ∧
  (∀ (a j : Fin 4) (r : Run) (s : State), (s.fmt a.val).done.length < 16 → SMap.look (s.fmt a.val).cur j.val = some r →
    r.stat.length = r.count → Runs (.runDone a j) s fun t => SMap.look (t.fmt a.val).cur j.val = none ∧
      (t.fmt a.val).done = (s.fmt a.val).done ++ [r.entry j.val] ∧ FieldsKept s t [] ∧ BytesKept s t) ∧
  (∀ (a j : Fin 4) (k : Nat) (r : Run) (s : State), (s.fmt a.val).done.length < 16 →
    SMap.look (s.fmt a.val).cur j.val = none → (s.fmt a.val).ended = [(k, r)] → r.stat.length = r.count →
    Runs (.runDone a j) s fun t => (t.fmt a.val).ended = [] ∧ (t.fmt a.val).cur = (s.fmt a.val).cur ∧
      (t.fmt a.val).done = (s.fmt a.val).done ++ [r.entry k] ∧ FieldsKept s t [] ∧ BytesKept s t) ∧
  (∀ (a : Fin 4) (d : Nat) (ds : List Nat) (s : State), s.domOn (80 + a.val) = true → (s.fmt a.val).done = d :: ds →
    Runs (.fmtDoneRead a) s fun t => t.resp = .data d ∧ (t.fmt a.val).done = ds ∧ FieldsKept s t [] ∧
      BytesKept s t) ∧
  (∀ (a : Fin 4) (s : State), s.domOn (80 + a.val) = true → (s.fmt a.val).done = [] →
    Runs (.fmtDoneRead a) s fun t => t.resp = .data 0 ∧ t.fmts = s.fmts ∧ FieldsKept s t [] ∧ BytesKept s t) ∧
  (∀ (a j : Fin 4) (k : Nat) (ks : List Nat) (r : Run) (s : State), SMap.look (s.fmt a.val).cur j.val = some r →
    (∀ e ∈ (s.fmt a.val).cur ++ (s.fmt a.val).ended, e.2.rid = r.rid → e.2 = r) → r.exhausted = k :: ks →
    SMap.get r.stat 0 k = 0 → Runs (.revisitExhausted a j) s fun t =>
      (∃ r', SMap.look (t.fmt a.val).cur j.val = some r' ∧ r'.exhausted = ks ∧ SMap.get r'.stat 0 k = 3)) ∧
  (∀ (a j : Fin 4) (k req : Nat) (ks : List Nat) (r : Run) (b : CacheBlk) (s : State),
    SMap.look (s.fmt a.val).cur j.val = some r → r.exhausted = k :: ks → r.write = true →
    (((s.modRun a.val r.rid (fun x => { x with exhausted := ks })).finalStatus a.val r.rid k 3).bufRead 0
      (r.list + 8 * k) 8).1 = some req → SMap.look s.cache (req % 2 ^ 34) = some b → b.win = none → b.committed = false →
    Runs (.revisitExhausted a j) s fun t => SMap.look t.cache (req % 2 ^ 34) =
      some { b with err := some (if r.dataPath.contains k then 0x16 else 0x14) }) ∧
  (∀ (a : Fin 4) (v : Word) (s : State), s.fitted a.val = true → s.domOn (80 + a.val) = true →
    hasBit v.toNat 0 = true → s.courseOk a.val (s.stagedCourse a.val) = true → Runs (.courseCommit a v) s fun t =>
      (t.fmt a.val).pend = some (s.stagedCourse a.val) ∧ t.get (Reg.FMT_COURSE_CTL_PENDING a.val) = 1 ∧
      FieldsKept s t [Reg.FMT_COURSE_CTL_PENDING a.val] ∧ BytesKept s t) ∧
  (∀ (a : Fin 4) (v : Word) (s : State), s.fitted a.val = true → s.domOn (80 + a.val) = true →
    hasBit v.toNat 0 = true → s.courseOk a.val (s.stagedCourse a.val) = false → s.get (Reg.FMT_CFG_STATUS_ERR a.val) = 0 →
    Runs (.courseCommit a v) s fun t => t.get (Reg.FMT_CFG_STATUS_CODE a.val) = 5 ∧ t.fmts = s.fmts ∧
      FieldsKept s t [Reg.FMT_CFG_STATUS_ERR a.val, Reg.FMT_CFG_STATUS_CODE a.val] ∧ BytesKept s t) ∧
  (∀ (a : Fin 4) (v : Word) (s : State), s.fitted a.val = false → hasBit v.toNat 0 = true →
    s.get (Reg.FMT_CFG_STATUS_ERR a.val) = 0 → Runs (.courseCommit a v) s fun t => t.resp = .busError ∧
      t.get (Reg.FMT_CFG_STATUS_CODE a.val) = 5 ∧ t.fmts = s.fmts ∧
      FieldsKept s t [Reg.FMT_CFG_STATUS_ERR a.val, Reg.FMT_CFG_STATUS_CODE a.val] ∧ BytesKept s t) ∧
  (∀ (a : Fin 4) (cs : List (Nat × CMember)) (s : State), (s.fmt a.val).pend = some cs →
    (∀ j : Fin 4, (s.thread a.val j.val).barrier = true ∧ (s.slot (4 * a.val + j.val)).unfinished = none) →
    Runs (.courseBarrier a) s fun t => (t.fmt a.val).pend = none ∧ (t.fmt a.val).queues = [] ∧
      (∀ j : Fin 4, hasBit (t.get (Reg.FMT_STATUS_MEMBER a.val)) j.val = false) ∧
      (t.fmt a.val).course = cs ∧ (t.fmt a.val).due = cs.map Prod.fst ∧ (t.fmt a.val).cur = [] ∧
      (∀ j : Fin 4, (t.thread a.val j.val).barrier = false) ∧ t.get (Reg.FMT_COURSE_CTL_PENDING a.val) = 0) ∧
  (∀ (a j : Fin 4) (cs : List (Nat × CMember)) (r : Run) (s : State), (s.fmt a.val).pend = some cs →
    (∀ k : Fin 4, (s.thread a.val k.val).barrier = true ∧ (s.slot (4 * a.val + k.val)).unfinished = none) →
    (s.fmt a.val).cur = [(j.val, r)] → (s.fmt a.val).queues = [] → (s.fmt a.val).ended = [] → r.stat = [] → 0 < r.count →
    (List.range r.count).all (fun k => !s.undecided a.val r.rid k) = true → (s.fmt a.val).done.length < 16 →
    Runs (.courseBarrier a) s fun t => (t.fmt a.val).ended = [] ∧
      (t.fmt a.val).done = (s.fmt a.val).done ++ [2 ^ 31 + 2 ^ 24 + j.val * 2 ^ 16 + r.tag % 65536]) ∧
  (∀ (a j : Fin 4) (s : State), ((s.fmt a.val).pend = none ∨ (s.thread a.val j.val).barrier = false ∨
    (s.slot (4 * a.val + j.val)).unfinished ≠ none) → Runs (.courseBarrier a) s fun t => t = s) ∧
  (∀ (a : Fin 4) (v : Word) (s : State), s.domOn (80 + a.val) = true → s.get (Reg.FMT_CTL_RUN a.val) = 0 →
    s.get (Reg.FMT_STATUS_HALTED a.val) = 1 → s.get (Reg.FMT_CAPO_ADDR_PART a.val) < 3 →
    Runs (.capoDataWrite a v) s fun t => bits (t.patchWord a.val (s.get (Reg.FMT_CAPO_ADDR_WORD a.val)))
        (32 * s.get (Reg.FMT_CAPO_ADDR_PART a.val) + 31) (32 * s.get (Reg.FMT_CAPO_ADDR_PART a.val)) = v.toNat ∧
      t.get (Reg.FMT_CAPO_ADDR_PART a.val) = s.get (Reg.FMT_CAPO_ADDR_PART a.val) + 1 ∧
      t.get (Reg.FMT_CAPO_STATUS_OK a.val) = 0 ∧
      FieldsKept s t [Reg.FMT_CAPO_STATUS_OK a.val, Reg.FMT_CAPO_ADDR_PART a.val] ∧ BytesKept s t) ∧
  (∀ (a : Fin 4) (v : Word) (s : State), s.domOn (80 + a.val) = true → s.get (Reg.FMT_CTL_RUN a.val) = 0 →
    s.get (Reg.FMT_STATUS_HALTED a.val) = 1 → s.get (Reg.FMT_CAPO_ADDR_PART a.val) = 3 →
    Runs (.capoDataWrite a v) s fun t =>
      bits (t.patchWord a.val (s.get (Reg.FMT_CAPO_ADDR_WORD a.val))) 127 96 = v.toNat ∧
      t.get (Reg.FMT_CAPO_ADDR_PART a.val) = 0 ∧
      t.get (Reg.FMT_CAPO_ADDR_WORD a.val) = (s.get (Reg.FMT_CAPO_ADDR_WORD a.val) + 1) % 256 ∧
      t.get (Reg.FMT_CAPO_STATUS_OK a.val) = 0 ∧ FieldsKept s t [Reg.FMT_CAPO_STATUS_OK a.val, Reg.FMT_CAPO_ADDR_PART a.val,
        Reg.FMT_CAPO_ADDR_WORD a.val] ∧ BytesKept s t) ∧
  (∀ (a : Fin 4) (v : Word) (s : State), s.domOn (80 + a.val) = true →
    (s.get (Reg.FMT_CTL_RUN a.val) = 1 ∨ s.get (Reg.FMT_STATUS_HALTED a.val) = 0) →
    s.get (Reg.FMT_CFG_STATUS_ERR a.val) = 0 → Runs (.capoDataWrite a v) s fun t =>
      t.get (Reg.FMT_CFG_STATUS_CODE a.val) = 6 ∧ t.fmts = s.fmts ∧
      FieldsKept s t [Reg.FMT_CFG_STATUS_ERR a.val, Reg.FMT_CFG_STATUS_CODE a.val] ∧ BytesKept s t) ∧
  (∀ (a : Fin 4) (v : Word) (s : State), s.domOn (80 + a.val) = true → Runs (.capoVerify a v) s fun t =>
    (t.fmt a.val).expect = v.toNat ∧ t.get (Reg.FMT_CAPO_STATUS_BUSY a.val) = 1 ∧
    FieldsKept s t [Reg.FMT_CAPO_STATUS_BUSY a.val] ∧ BytesKept s t) ∧
  (∀ (a : Fin 4) (f w : Nat) (s : State), s.get (Reg.FMT_CAPO_STATUS_BUSY a.val) = 1 → s.capoCheck a.val = some (f, w) →
    Runs (.capoVerifyDone a) s fun t => t.get (Reg.FMT_CAPO_STATUS_BUSY a.val) = 0 ∧
      t.get (Reg.FMT_CAPO_STATUS_OK a.val) = 0 ∧ t.get (Reg.FMT_CAPO_STATUS_FAIL a.val) = f ∧
      t.get (Reg.FMT_CAPO_STATUS_WHERE a.val) = w ∧ t.fmts = s.fmts ∧ FieldsKept s t [Reg.FMT_CAPO_STATUS_BUSY a.val,
        Reg.FMT_CAPO_STATUS_OK a.val, Reg.FMT_CAPO_STATUS_FAIL a.val, Reg.FMT_CAPO_STATUS_WHERE a.val] ∧ BytesKept s t) ∧
  (∀ (a : Fin 4) (s : State), s.get (Reg.FMT_CAPO_STATUS_BUSY a.val) = 1 → s.capoCheck a.val = none →
    Runs (.capoVerifyDone a) s fun t => t.get (Reg.FMT_CAPO_STATUS_BUSY a.val) = 0 ∧
      t.get (Reg.FMT_CAPO_STATUS_OK a.val) = 1 ∧ t.get (Reg.FMT_CAPO_STATUS_FAIL a.val) = 0 ∧
      t.get (Reg.FMT_CAPO_STATUS_WHERE a.val) = 0 ∧ (t.fmt a.val).lastCrc = (s.fmt a.val).expect ∧
      FieldsKept s t [Reg.FMT_CAPO_STATUS_BUSY a.val, Reg.FMT_CAPO_STATUS_OK a.val, Reg.FMT_CAPO_STATUS_FAIL a.val,
        Reg.FMT_CAPO_STATUS_WHERE a.val] ∧ BytesKept s t) ∧
  (∀ (a : Fin 4) (v : Word) (s : State), s.domOn (80 + a.val) = true → hasBit v.toNat 15 = false →
    1 ≤ bits v.toNat 11 8 → 2 ≤ bits v.toNat 7 0 → bits v.toNat 7 0 ≤ 128 → s.get (Reg.FMT_CAPO_STATUS_OK a.val) = 1 →
    Runs (.fmtRunWrite a v) s fun t => t.get (Reg.FMT_CTL_RUN a.val) = bit v.toNat 14 ∧
      t.get (Reg.FMT_CTL_REVISIT a.val) = bits v.toNat 11 8 ∧ t.get (Reg.FMT_CTL_LEAD a.val) = bits v.toNat 7 0 ∧
      t.get (Reg.FMT_STATUS_HALTED a.val) =
        b2n (decide (bit v.toNat 14 = 0) || s.flag (Reg.FMT_MCHK_VALID a.val)) ∧ BytesKept s t ∧
      FieldsKept s t [Reg.FMT_CTL_RUN a.val, Reg.FMT_CTL_REVISIT a.val, Reg.FMT_CTL_LEAD a.val,
        Reg.FMT_STATUS_HALTED a.val]) ∧
  (∀ (a : Fin 4) (v : Word) (s : State), s.domOn (80 + a.val) = true → s.get (Reg.FMT_CFG_STATUS_ERR a.val) = 0 →
    hasBit v.toNat 15 = false → (bits v.toNat 11 8 = 0 ∨ bits v.toNat 7 0 = 0) →
    Runs (.fmtRunWrite a v) s fun t =>
      t.get (Reg.FMT_CFG_STATUS_ERR a.val) = 1 ∧ t.get (Reg.FMT_CFG_STATUS_CODE a.val) = 1 ∧ t.fmts = s.fmts ∧
      FieldsKept s t [Reg.FMT_CFG_STATUS_ERR a.val, Reg.FMT_CFG_STATUS_CODE a.val] ∧ BytesKept s t) ∧
  (∀ (a : Fin 4) (v : Word) (s : State), s.domOn (80 + a.val) = true → s.get (Reg.FMT_CFG_STATUS_ERR a.val) = 0 →
    hasBit v.toNat 15 = false → bits v.toNat 11 8 ≠ 0 → (bits v.toNat 7 0 = 1 ∨ 128 < bits v.toNat 7 0) →
    Runs (.fmtRunWrite a v) s fun t =>
      t.get (Reg.FMT_CFG_STATUS_ERR a.val) = 1 ∧ t.get (Reg.FMT_CFG_STATUS_CODE a.val) = 2 ∧ t.fmts = s.fmts ∧
      FieldsKept s t [Reg.FMT_CFG_STATUS_ERR a.val, Reg.FMT_CFG_STATUS_CODE a.val] ∧ BytesKept s t) ∧
  (∀ (a : Fin 4) (v : Word) (n : Fin 32) (s : State), s.domOn (80 + a.val) = true → s.get (Reg.FMT_CFG_STATUS_ERR a.val) = 0 →
    hasBit v.toNat 15 = false → bits v.toNat 11 8 ≠ 0 → 2 ≤ bits v.toNat 7 0 → bits v.toNat 7 0 ≤ 128 →
    hasBit v.toNat 14 = true → s.get (Reg.FMT_CAPO_STATUS_OK a.val) = 0 → s.get (Reg.FMT_CAPO_MATCH_EN a.val n.val) = 1 →
    Runs (.fmtRunWrite a v) s fun t =>
      t.get (Reg.FMT_CFG_STATUS_ERR a.val) = 1 ∧ t.get (Reg.FMT_CFG_STATUS_CODE a.val) = 7 ∧ t.fmts = s.fmts ∧
      FieldsKept s t [Reg.FMT_CFG_STATUS_ERR a.val, Reg.FMT_CFG_STATUS_CODE a.val] ∧ BytesKept s t) ∧
  (∀ (a : Fin 4) (v : Word) (s : State), s.domOn (80 + a.val) = true → hasBit v.toNat 15 = true →
    bits v.toNat 31 16 = 0x5A5A → Runs (.formatterReset a v) s fun t => t.get (Reg.FMT_CTL_RUN a.val) = 0 ∧
      t.get (Reg.FMT_STATUS_HALTED a.val) = 1 ∧ t.get (Reg.FMT_MCHK_VALID a.val) = 0 ∧
      t.get (Reg.FMT_STATUS_MCHK a.val) = 0 ∧ t.get (Reg.FMT_CAPO_STATUS_OK a.val) = 0 ∧ (t.fmt a.val).cur = [] ∧
      (t.fmt a.val).queues = [] ∧ (∀ j : Fin 4, t.thread a.val j.val = threadInit ∧
        (t.slot (4 * a.val + j.val)).gate = false ∧ (t.slot (4 * a.val + j.val)).eq = [])) ∧
  (∀ (a : Fin 4) (v : Word) (s : State), s.domOn (80 + a.val) = true → hasBit v.toNat 15 = true →
    bits v.toNat 31 16 ≠ 0x5A5A → Runs (.formatterReset a v) s fun t => t = s) ∧
  (∀ (a j : Fin 4) (f c : Nat) (s : State), s.canFetch a.val j.val = true →
    tabFault ((s.fetchTab a.val (s.thread a.val j.val)).2.2 ^^^ f) = some c → Runs (.tabMachineCheck a j f) s fun t =>
      t.get (Reg.FMT_MCHK_VALID a.val) = 1 ∧ t.get (Reg.FMT_MCHK_CAUSE a.val) = c ∧
      t.get (Reg.FMT_MCHK_THREAD a.val) = j.val ∧
      t.get (Reg.FMT_MCHK_SPACE a.val) = b2n (s.fetchTab a.val (s.thread a.val j.val)).1 ∧
      t.get (Reg.FMT_MCHK_ADDR a.val) = (s.fetchTab a.val (s.thread a.val j.val)).2.1 % 8192 ∧
      t.get (Reg.FMT_STATUS_MCHK a.val) = 1 ∧ t.get (Reg.FMT_STATUS_HALTED a.val) = 1 ∧ (t.fmt a.val).cur = [] ∧
      (t.fmt a.val).queues = [] ∧ (∀ k : Fin 4, (t.slot (4 * a.val + k.val)).gate = false ∧
        (t.slot (4 * a.val + k.val)).eq = [] ∧ (t.slot (4 * a.val + k.val)).rg = false ∧
        hasBit (t.get (Reg.CHN_WR_CAUSE_CAUSE (4 * a.val + k.val))) 7 = true)) ∧
  (∀ (a j : Fin 4) (f : Nat) (s : State), (s.canFetch a.val j.val = false ∨
    tabFault ((s.fetchTab a.val (s.thread a.val j.val)).2.2 ^^^ f) = none) →
    Runs (.tabMachineCheck a j f) s fun t => t = s) ∧
  (∀ (a : Fin 4) (f : Nat) (s : State), s.domOn (80 + a.val) = true → (s.fmt a.val).sweep < 8192 →
    s.get (Reg.FMT_MCHK_VALID a.val) = 0 → (oddParity 64 (f % 2 ^ 64) || oddParity 64 (f / 2 ^ 64)) = true →
    Runs (.sweepStep a f) s fun t =>
      t.get (Reg.FMT_MCHK_VALID a.val) = 1 ∧ t.get (Reg.FMT_MCHK_CAUSE a.val) = 4 ∧
      t.get (Reg.FMT_MCHK_SPACE a.val) = 0 ∧ t.get (Reg.FMT_MCHK_ADDR a.val) = (s.fmt a.val).sweep ∧
      t.get (Reg.FMT_STATUS_HALTED a.val) = 1 ∧ (t.fmt a.val).cur = [] ∧
      (t.fmt a.val).sweep = (s.fmt a.val).sweep + 1) ∧
  (∀ (a : Fin 4) (f w : Nat) (s : State), s.domOn (80 + a.val) = true → 8192 ≤ (s.fmt a.val).sweep →
    (s.fmt a.val).sweep < 8448 → s.get (Reg.FMT_MCHK_VALID a.val) = 0 → s.get (Reg.FMT_CAPO_STATUS_OK a.val) = 1 →
    s.patchWord a.val ((s.fmt a.val).sweep - 8192) = w →
    (oddParity 64 ((w ^^^ f) % 2 ^ 64) || oddParity 64 ((w ^^^ f) / 2 ^ 64)) = true → Runs (.sweepStep a f) s fun t =>
      t.get (Reg.FMT_MCHK_VALID a.val) = 1 ∧ t.get (Reg.FMT_MCHK_CAUSE a.val) = 5 ∧
      t.get (Reg.FMT_MCHK_SPACE a.val) = 1 ∧ t.get (Reg.FMT_MCHK_ADDR a.val) = (s.fmt a.val).sweep - 8192 ∧
      (t.fmt a.val).sweep = (s.fmt a.val).sweep + 1) ∧
  (∀ (a : Fin 4) (s : State), s.domOn (80 + a.val) = true → (s.fmt a.val).sweep < 8448 →
    (8192 ≤ (s.fmt a.val).sweep → s.get (Reg.FMT_CAPO_STATUS_OK a.val) = 0) →
    Runs (.sweepStep a 0) s fun t => (t.fmt a.val).sweep = (s.fmt a.val).sweep + 1 ∧ FieldsKept s t [] ∧
      BytesKept s t) ∧
  (∀ (a : Fin 4) (fs : List Nat) (s : State), s.domOn (80 + a.val) = true → 8448 ≤ (s.fmt a.val).sweep →
    s.get (Reg.FMT_CAPO_STATUS_OK a.val) = 0 → Runs (.sweepPassEnd a ⟨Config.romCrc % 2 ^ 32, fs⟩) s fun t =>
      (t.fmt a.val).sweep = 0 ∧
      t.get (Reg.FMT_SWEEP_PASSES_COUNT a.val) = s.counted (Reg.FMT_SWEEP_PASSES_COUNT a.val) 1 ∧
      FieldsKept s t [Reg.FMT_SWEEP_PASSES_COUNT a.val] ∧ BytesKept s t) ∧
  (∀ (a : Fin 4) (fs : List Nat) (s : State), s.domOn (80 + a.val) = true → 8448 ≤ (s.fmt a.val).sweep →
    s.get (Reg.FMT_CAPO_STATUS_OK a.val) = 1 → fs.all (fun n => !oddParity 32 n) = true →
    s.patchCrcRead a.val fs = (s.fmt a.val).lastCrc → Runs (.sweepPassEnd a ⟨Config.romCrc % 2 ^ 32, fs⟩) s fun t =>
      (t.fmt a.val).sweep = 0 ∧ FieldsKept s t [Reg.FMT_SWEEP_PASSES_COUNT a.val] ∧ BytesKept s t) ∧
  (∀ (a : Fin 4) (d : Nat) (fs : List Nat) (s : State), s.domOn (80 + a.val) = true → 8448 ≤ (s.fmt a.val).sweep → 0 < d →
    s.get (Reg.FMT_MCHK_VALID a.val) = 0 → Runs (.sweepPassEnd a ⟨Config.romCrc % 2 ^ 32 + d, fs⟩) s fun t =>
      (t.fmt a.val).sweep = 0 ∧ t.get (Reg.FMT_MCHK_VALID a.val) = 1 ∧ t.get (Reg.FMT_MCHK_CAUSE a.val) = 4) ∧
  (∀ (a : Fin 4) (fs : List Nat) (s : State), s.domOn (80 + a.val) = true → 8448 ≤ (s.fmt a.val).sweep →
    s.get (Reg.FMT_MCHK_VALID a.val) = 0 → s.get (Reg.FMT_CAPO_STATUS_OK a.val) = 1 →
    (fs.any (fun n => oddParity 32 n) || s.patchCrcRead a.val fs != (s.fmt a.val).lastCrc) = true →
    Runs (.sweepPassEnd a ⟨Config.romCrc % 2 ^ 32, fs⟩) s fun t => (t.fmt a.val).sweep = 0 ∧
      t.get (Reg.FMT_MCHK_VALID a.val) = 1 ∧ t.get (Reg.FMT_MCHK_CAUSE a.val) = 5 ∧ t.get (Reg.FMT_MCHK_SPACE a.val) = 1)

/-- A servo field is read from its samples while SG is 1. A SAM with a valid wedge number takes a searching source to VERIFY with the
next wedge predicted, and nothing else does; in VERIFY a SAM with the predicted number counts and any other field returns to SEARCH; a
second match enters TRACK. A tracked field within limits delivers a valid sample for its wedge and head, with the pair it used, and keeps
the adapted servo gain of the head; one without SAM, or while SG is 0, delivers an invalid sample and counts; one with another wedge number
counts as wrong. An OFF source does nothing. LOST_CNT missed SAMs, or two wrong wedge numbers, return the source to SEARCH with its LOST
bit and an event, an open group that expects the source getting an invalid sample first. SRV_SRC takes a head up to 11, else code 2, one
that no other source of the actuator has, else 4, and with its AFE/ADC domain on, else 5; enabled, a slot without member becomes a
servo-only source, or waits while no spindle speed is valid; disabled, the source of a slot without member is OFF. A SAM of the
reference head one wedge after the last one gives WEDGE_TICKS, and one at W0 one revolution after another REV_TICKS; without a reference
head a wedge tick changes nothing. The 16th revolution without a new time clears REV_OK. -/
def Obligations.ServoSources : Prop :=
  (∀ (i : Fin 16) (f : ServoField) (m : Member) (h w : Nat) (r : FieldRead) (s : State), (s.slot i.val).mem = some m →
    m.servoOnly = false → (s.src i.val).head = some h → s.clkOk (16 + i.val / 4) = true → s.srcState i.val = 1 →
    readField f m.cells (s.get (Reg.SRV_SCTL_SAM_THR (i.val / 4))) (s.get (Reg.SRV_SCTL_S_TARGET (i.val / 4))) none = r →
    r.sam.isSome = true → r.num = some w → (s.slot i.val).rg = false →
    Runs (.servoField i f) s fun t => t.srcState i.val = 2 ∧ (t.src i.val).wedge = (w + 1) % 512 ∧
      (t.src i.val).head = some h ∧ (t.src i.val).okRun = 0 ∧ t.laneIn = s.laneIn ∧
      FieldsKept s t (Reg.SRV_STATUS_STATE (i.val / 4) :: servoGainFields i.val) ∧ BytesKept s t) ∧
  (∀ (i : Fin 16) (f : ServoField) (m : Member) (h : Nat) (r : FieldRead) (s : State), (s.slot i.val).mem = some m →
    m.servoOnly = false → (s.src i.val).head = some h → s.srcState i.val = 1 →
    readField f m.cells (s.get (Reg.SRV_SCTL_SAM_THR (i.val / 4))) (s.get (Reg.SRV_SCTL_S_TARGET (i.val / 4))) none = r →
    (r.sam = none ∨ r.num = none) → Runs (.servoField i f) s fun t => t.srcState i.val = 1 ∧ t.srcs = s.srcs ∧
      t.laneIn = s.laneIn ∧ FieldsKept s t (servoGainFields i.val) ∧ BytesKept s t) ∧
  (∀ (i : Fin 16) (f : ServoField) (m : Member) (h : Nat) (r : FieldRead) (s : State), (s.slot i.val).mem = some m →
    m.servoOnly = false → (s.src i.val).head = some h → s.clkOk (16 + i.val / 4) = true → s.srcState i.val = 2 →
    (s.slot i.val).sg = true → readField f m.cells (s.get (Reg.SRV_SCTL_SAM_THR (i.val / 4)))
      (s.get (Reg.SRV_SCTL_S_TARGET (i.val / 4))) (some (s.get (Reg.SRV_CTL_SAM_WIN_ACQ (i.val / 4)))) = r →
    r.sam.isSome = true → r.num = some (s.src i.val).wedge → Runs (.servoField i f) s fun t =>
      t.srcState i.val = 2 ∧ (t.src i.val).okRun = (s.src i.val).okRun + 1 ∧
      (t.src i.val).wedge = ((s.src i.val).wedge + 1) % 512 ∧ t.laneIn = s.laneIn ∧
      FieldsKept s t (servoGainFields i.val) ∧ BytesKept s t) ∧
  (∀ (i : Fin 16) (f : ServoField) (m : Member) (h : Nat) (r : FieldRead) (s : State), (s.slot i.val).mem = some m →
    m.servoOnly = false → (s.src i.val).head = some h → s.clkOk (16 + i.val / 4) = true → s.srcState i.val = 2 →
    (s.slot i.val).sg = true → (s.slot i.val).rg = false → (s.slot i.val).gate = false →
    readField f m.cells (s.get (Reg.SRV_SCTL_SAM_THR (i.val / 4)))
      (s.get (Reg.SRV_SCTL_S_TARGET (i.val / 4))) (some (s.get (Reg.SRV_CTL_SAM_WIN_ACQ (i.val / 4)))) = r →
    (r.sam = none ∨ r.num ≠ some (s.src i.val).wedge) →
    Runs (.servoField i f) s fun t => t.srcState i.val = 1 ∧ (t.src i.val).okRun = 0 ∧ t.laneIn = s.laneIn ∧
      FieldsKept s t (Reg.SRV_STATUS_STATE (i.val / 4) :: servoGainFields i.val) ∧ BytesKept s t) ∧
  (∀ (i : Fin 16) (f : ServoField) (m : Member) (h p : Nat) (y : Int) (r : FieldRead) (s : State),
    (s.slot i.val).mem = some m → m.servoOnly = false → (s.src i.val).head = some h → h < 12 →
    s.clkOk (16 + i.val / 4) = true → s.srcState i.val = 3 → (s.slot i.val).sg = true →
    readField f m.cells (s.get (Reg.SRV_SCTL_SAM_THR (i.val / 4))) (s.get (Reg.SRV_SCTL_S_TARGET (i.val / 4)))
      (some (s.get (Reg.SRV_CTL_SAM_WIN (i.val / 4)))) = r → r.num = some (s.src i.val).wedge → r.pos = some (p, y) →
    s.sampleFlags (i.val / 4) h (s.src i.val) r = 0 →
    Runs (.servoField i f) s fun t => t.get (Reg.SRV_POS_LO_FLAGS (i.val / 4) (i.val % 4)) = 0 ∧
      t.get (Reg.SRV_POS_HI_VALID (i.val / 4) (i.val % 4)) = 1 ∧
      t.get (Reg.SRV_POS_HI_PAIR (i.val / 4) (i.val % 4)) = p % 2 ∧
      t.get (Reg.SRV_POS_HI_HEAD (i.val / 4) (i.val % 4)) = h % 16 ∧
      t.get (Reg.SRV_POS_HI_WEDGE (i.val / 4) (i.val % 4)) = (s.src i.val).wedge % 512 ∧
      t.get (Reg.SRV_VALID_COUNT (i.val / 4)) = s.counted (Reg.SRV_VALID_COUNT (i.val / 4)) 1 ∧
      (t.src i.val).y1 = some y ∧ (t.src i.val).y2 = (s.src i.val).y1 ∧ (t.src i.val).missRun = 0 ∧
      (t.src i.val).wrongRun = 0 ∧ (t.src i.val).wedge = ((s.src i.val).wedge + 1) % 512 ∧
      (SMap.get t.laneIn [] (i.val / 4)).map (fun x => (x.slot, x.head, x.wedge, x.flags, x.pair, x.y)) =
        (SMap.get s.laneIn [] (i.val / 4)).map (fun x => (x.slot, x.head, x.wedge, x.flags, x.pair, x.y)) ++
          [(i.val, h, (s.src i.val).wedge, 0, p, y)] ∧
      FieldsKept s t (Reg.SRV_SGAIN_GAIN (i.val / 4) h :: sampleFields (i.val / 4) (i.val % 4) ++ servoGainFields i.val) ∧
      BytesKept s t) ∧
  (∀ (i : Fin 16) (f : ServoField) (m : Member) (h : Nat) (s : State),
    (s.slot i.val).mem = some m → m.servoOnly = false → (s.src i.val).head = some h →
    s.clkOk (16 + i.val / 4) = true → s.srcState i.val = 3 → ((s.slot i.val).sg = false ∨
      (readField f m.cells (s.get (Reg.SRV_SCTL_SAM_THR (i.val / 4))) (s.get (Reg.SRV_SCTL_S_TARGET (i.val / 4)))
        (some (s.get (Reg.SRV_CTL_SAM_WIN (i.val / 4))))).sam = none) →
    Runs (.servoField i f) s fun t => t.get (Reg.SRV_POS_HI_VALID (i.val / 4) (i.val % 4)) = 0 ∧
      hasBit (t.get (Reg.SRV_POS_LO_FLAGS (i.val / 4) (i.val % 4))) 0 = true ∧
      (t.src i.val).missRun = (s.src i.val).missRun + 1 ∧ (t.src i.val).wrongRun = 0 ∧ (t.src i.val).y1 = none ∧
      (t.src i.val).wedge = ((s.src i.val).wedge + 1) % 512 ∧
      t.get (Reg.SRV_SAM_MISS_COUNT (i.val / 4)) = s.counted (Reg.SRV_SAM_MISS_COUNT (i.val / 4)) 1 ∧
      (SMap.get t.laneIn [] (i.val / 4)).length = (SMap.get s.laneIn [] (i.val / 4)).length + 1 ∧
      FieldsKept s t (sampleFields (i.val / 4) (i.val % 4) ++ servoGainFields i.val) ∧ BytesKept s t) ∧
  (∀ (i : Fin 16) (f : ServoField) (m : Member) (h : Nat) (r : FieldRead) (s : State),
    (s.slot i.val).mem = some m → m.servoOnly = false → (s.src i.val).head = some h →
    s.clkOk (16 + i.val / 4) = true → s.srcState i.val = 3 → (s.slot i.val).sg = true →
    readField f m.cells (s.get (Reg.SRV_SCTL_SAM_THR (i.val / 4))) (s.get (Reg.SRV_SCTL_S_TARGET (i.val / 4)))
      (some (s.get (Reg.SRV_CTL_SAM_WIN (i.val / 4)))) = r → r.sam.isSome = true → r.num ≠ some (s.src i.val).wedge →
    Runs (.servoField i f) s fun t => t.get (Reg.SRV_POS_HI_VALID (i.val / 4) (i.val % 4)) = 0 ∧
      hasBit (t.get (Reg.SRV_POS_LO_FLAGS (i.val / 4) (i.val % 4))) 1 = true ∧
      (t.src i.val).wrongRun = (s.src i.val).wrongRun + 1 ∧ (t.src i.val).missRun = 0 ∧
      (t.src i.val).wedge = ((s.src i.val).wedge + 1) % 512 ∧
      FieldsKept s t (sampleFields (i.val / 4) (i.val % 4) ++ servoGainFields i.val) ∧ BytesKept s t) ∧
  (∀ (i : Fin 16) (f : ServoField) (s : State), s.srcState i.val = 0 → Runs (.servoField i f) s fun t => t = s) ∧
  (∀ (i : Fin 16) (s : State), s.srcState i.val = 2 → 2 ≤ (s.src i.val).okRun → Runs (.servoTrackEntry i) s fun t =>
    t.srcState i.val = 3 ∧ (t.src i.val).missRun = 0 ∧ (t.src i.val).wrongRun = 0 ∧ (t.src i.val).y1 = none ∧
    (t.src i.val).head = (s.src i.val).head ∧ (t.src i.val).wedge = (s.src i.val).wedge ∧
    FieldsKept s t [Reg.SRV_STATUS_STATE (i.val / 4), Reg.MTR_SPN_STATUS_SRC] ∧ BytesKept s t) ∧
  (∀ (i : Fin 16) (s : State), ((s.src i.val).okRun < 2 ∨ s.srcState i.val ≠ 2) →
    Runs (.servoTrackEntry i) s fun t => t = s) ∧
  (∀ (i : Fin 16) (h : Nat) (s : State), s.srcState i.val = 3 → (s.src i.val).head = some h →
    (s.get (Reg.SRV_CTL_LOST_CNT (i.val / 4)) ≤ (s.src i.val).missRun ∨ 2 ≤ (s.src i.val).wrongRun) →
    (s.groups (i.val / 4) (h % 2)).opened = [] → (s.slot i.val).gate = false →
    Runs (.servoLost i) s fun t => t.srcState i.val = 1 ∧ (t.src i.val).head = some h ∧
      hasBit (t.get (Reg.SRV_STATUS_LOST (i.val / 4))) (i.val % 4) = true ∧ t.laneIn = s.laneIn ∧
      EventFrame s t [Reg.SRV_STATUS_STATE (i.val / 4), Reg.SRV_STATUS_LOST (i.val / 4), Reg.CHN_FE_STATE_GAIN i.val 1,
        Reg.MTR_SPN_STATUS_SRC]) ∧
  (∀ (i : Fin 16) (h : Nat) (g : Grp) (s : State), s.srcState i.val = 3 → (s.src i.val).head = some h →
    (s.get (Reg.SRV_CTL_LOST_CNT (i.val / 4)) ≤ (s.src i.val).missRun ∨ 2 ≤ (s.src i.val).wrongRun) →
    (s.groups (i.val / 4) (h % 2)).opened = [g] → hasBit g.exp (i.val % 4) = true → hasBit g.got (i.val % 4) = false →
    Runs (.servoLost i) s fun t => t.srcState i.val = 1 ∧
      (SMap.get t.laneIn [] (i.val / 4)).map (fun x => (x.slot, x.head, x.wedge, x.flags)) =
        (SMap.get s.laneIn [] (i.val / 4)).map (fun x => (x.slot, x.head, x.wedge, x.flags)) ++ [(i.val, h, g.wedge, 1)]) ∧
  (∀ (i : Fin 16) (s : State), (s.srcState i.val ≠ 3 ∨ ((s.src i.val).missRun < s.get (Reg.SRV_CTL_LOST_CNT (i.val / 4)) ∧
    (s.src i.val).wrongRun < 2)) → Runs (.servoLost i) s fun t => t = s) ∧
  (∀ (a j : Fin 4) (v : Word) (s : State), bits v.toNat 19 16 ≤ 11 → hasBit v.toNat 31 = false →
    (s.slot (4 * a.val + j.val)).mem = none → s.srcState (4 * a.val + j.val) ≠ 3 → Runs (.servoSourceEnable a j v) s fun t =>
      t.get (Reg.SRV_SRC_EN a.val j.val) = 0 ∧ t.get (Reg.SRV_SRC_HEAD a.val j.val) = bits v.toNat 19 16 ∧
      t.get (Reg.SRV_SRC_HEATER a.val j.val) = bits v.toNat 7 0 ∧ t.srcState (4 * a.val + j.val) = 0 ∧ BytesKept s t ∧
      FieldsKept s t [Reg.SRV_SRC_EN a.val j.val, Reg.SRV_SRC_HEAD a.val j.val, Reg.SRV_SRC_HEATER a.val j.val,
        Reg.SRV_STATUS_STATE a.val, Reg.CHN_FE_STATE_GAIN (4 * a.val + j.val) 1]) ∧
  (∀ (a j : Fin 4) (v : Word) (s : State), bits v.toNat 19 16 ≤ 11 → hasBit v.toNat 31 = true →
    (∀ k : Fin 4, k ≠ j → s.get (Reg.SRV_SRC_EN a.val k.val) = 0) → s.domOn (3 * (4 * a.val + j.val) + 1) = true →
    (s.slot (4 * a.val + j.val)).mem = none → s.headStarted a.val (bits v.toNat 19 16) = false →
    s.get Reg.MTR_SPN_SPEED_VALID = 1 → Runs (.servoSourceEnable a j v) s fun t =>
      t.get (Reg.SRV_SRC_EN a.val j.val) = 1 ∧ t.get (Reg.SRV_SRC_HEAD a.val j.val) = bits v.toNat 19 16 ∧
      t.get (Reg.SRV_SRC_HEATER a.val j.val) = bits v.toNat 7 0 ∧
      (∃ m, (t.slot (4 * a.val + j.val)).mem = some m ∧ m.servoOnly = true ∧ m.head = bits v.toNat 19 16 ∧
        m.cells = 16384) ∧ (t.src (4 * a.val + j.val)).head = some (bits v.toNat 19 16)) ∧
  (∀ (a j : Fin 4) (v : Word) (s : State), bits v.toNat 19 16 ≤ 11 → hasBit v.toNat 31 = true →
    (∀ k : Fin 4, k ≠ j → s.get (Reg.SRV_SRC_EN a.val k.val) = 0) → s.domOn (3 * (4 * a.val + j.val) + 1) = true →
    (s.slot (4 * a.val + j.val)).mem = none → s.get Reg.MTR_SPN_SPEED_VALID = 0 → s.srcState (4 * a.val + j.val) = 0 →
    Runs (.servoSourceEnable a j v) s fun t => t.get (Reg.SRV_SRC_EN a.val j.val) = 1 ∧ t.slots = s.slots ∧
      t.srcs = s.srcs ∧ BytesKept s t ∧
      FieldsKept s t [Reg.SRV_SRC_EN a.val j.val, Reg.SRV_SRC_HEAD a.val j.val, Reg.SRV_SRC_HEATER a.val j.val]) ∧
  (∀ (a j : Fin 4) (v : Word) (s : State), 11 < bits v.toNat 19 16 → s.get (Reg.SRV_CFG_STATUS_ERR a.val) = 0 →
    Runs (.servoSourceEnable a j v) s fun t => t.get (Reg.SRV_CFG_STATUS_ERR a.val) = 1 ∧
      t.get (Reg.SRV_CFG_STATUS_CODE a.val) = 2 ∧ t.slots = s.slots ∧ t.srcs = s.srcs ∧
      FieldsKept s t [Reg.SRV_CFG_STATUS_ERR a.val, Reg.SRV_CFG_STATUS_CODE a.val] ∧ BytesKept s t) ∧
  (∀ (a j k : Fin 4) (v : Word) (s : State), bits v.toNat 19 16 ≤ 11 → hasBit v.toNat 31 = true → k ≠ j →
    s.get (Reg.SRV_SRC_EN a.val k.val) = 1 → s.get (Reg.SRV_SRC_HEAD a.val k.val) = bits v.toNat 19 16 →
    s.get (Reg.SRV_CFG_STATUS_ERR a.val) = 0 → Runs (.servoSourceEnable a j v) s fun t =>
      t.get (Reg.SRV_CFG_STATUS_CODE a.val) = 4 ∧ t.slots = s.slots ∧ t.srcs = s.srcs ∧
      FieldsKept s t [Reg.SRV_CFG_STATUS_ERR a.val, Reg.SRV_CFG_STATUS_CODE a.val] ∧ BytesKept s t) ∧
  (∀ (a j : Fin 4) (v : Word) (s : State), bits v.toNat 19 16 ≤ 11 → hasBit v.toNat 31 = true →
    (∀ k : Fin 4, k ≠ j → s.get (Reg.SRV_SRC_EN a.val k.val) = 0) → s.domOn (3 * (4 * a.val + j.val) + 1) = false →
    s.get (Reg.SRV_CFG_STATUS_ERR a.val) = 0 → Runs (.servoSourceEnable a j v) s fun t =>
      t.get (Reg.SRV_CFG_STATUS_CODE a.val) = 5 ∧ t.slots = s.slots ∧ t.srcs = s.srcs ∧
      FieldsKept s t [Reg.SRV_CFG_STATUS_ERR a.val, Reg.SRV_CFG_STATUS_CODE a.val] ∧ BytesKept s t) ∧
  (∀ (stamp i h u k : Nat) (s : State), s.reference = some (i, h) →
    s.refHead.lastSam = some (u, k) → k + 1 < 512 → (s.src i).wedge = k + 2 → s.spn.wedges.length < 31 →
    Runs (.wedgeTick stamp) s fun t => t.get Reg.SRV_WEDGE_TICKS_TICKS =
        (stamp - u) % 2 ^ Reg.SRV_WEDGE_TICKS_TICKS.width ∧ t.refHead.lastSam = some (stamp, k + 1) ∧
      t.refHead.head = some h ∧ t.spn.wedges = (stamp - u) :: s.spn.wedges ∧
      FieldsKept s t [Reg.SRV_WEDGE_TICKS_TICKS] ∧ BytesKept s t) ∧
  (∀ (stamp i h u : Nat) (s : State), s.reference = some (i, h) → s.refHead.lastW0 = some u → (s.src i).wedge = 1 →
    s.refHead.lastSam = none → Runs (.wedgeTick stamp) s fun t => t.get Reg.SRV_REV_TICKS_TICKS =
        (stamp - u) % 2 ^ Reg.SRV_REV_TICKS_TICKS.width ∧ t.get Reg.SRV_REF_STATUS_REV_AGE = 0 ∧
      t.get Reg.SRV_REF_STATUS_REV_OK = 1 ∧ t.refHead = ⟨some h, some (stamp, 0), some stamp⟩ ∧
      FieldsKept s t [Reg.SRV_REV_TICKS_TICKS, Reg.SRV_REF_STATUS_REV_AGE, Reg.SRV_REF_STATUS_REV_OK] ∧ BytesKept s t) ∧
  (∀ (stamp : Nat) (s : State), s.reference = none → Runs (.wedgeTick stamp) s fun t => t = s) ∧
  (∀ s : State, Runs .revTicksAged s fun t => t.get Reg.SRV_REF_STATUS_REV_OK = 0 ∧
    t.get Reg.SRV_REF_STATUS_REV_AGE = max 16 (s.get Reg.SRV_REF_STATUS_REV_AGE) %
      2 ^ Reg.SRV_REF_STATUS_REV_AGE.width ∧
    FieldsKept s t [Reg.SRV_REF_STATUS_REV_OK, Reg.SRV_REF_STATUS_REV_AGE] ∧ BytesKept s t)

/-- A running lane takes its oldest sample. A valid one that does not close its group gives e as reference less position less L1, saturated
to EH; the command of the main copy's filter is sent where both copies agree, limited to MA_LIM, 0 in SEEK; e beyond the write-unsafe
threshold raises the PES source. An invalid one counts, raises the PES source, and lengthens its head's run of invalid samples; the sample
that closes a group is followed by the VCM job, whose command is within VCM_LIM. A lane that does not run drops its sample. HEAD_HELD
holds the head's command with an event; LANE_LOST leaves LOST with zero micro commands, the bias to the VCM and a retract; SETTLE_DONE
enters TRACK; FOLLOWING_ERROR sets FE, counts and raises the PES source, and in SEEK the target becomes the reference and SETTLE is
entered; PES_CLEAR, at a group boundary, clears the source after CLR clean groups. Before their conditions hold these leave the state as
it is. -/
def Obligations.ControlLanes : Prop :=
  (∀ (a : Fin 4) (m : Sample) (r : List Sample) (s : State), SMap.get s.laneIn [] a.val = m :: r → m.flags = 0 →
    m.closes = false → m.head < 12 → m.slot / 4 = a.val → s.phase a.val = 3 → s.clkOk 20 = true →
    s.eff a.val (Reg.CTL_LRN_CTL_APPLY0 a.val) = 0 → s.eff a.val (Reg.CTL_LRN_CTL_APPLY1 a.val) = 0 →
    s.eff a.val (Reg.CTL_LRN_CTL_LEARN a.val) = 0 →
    s.sramFlips (16 + a.val) (512 * m.head + m.wedge % 512) = 0 →
    ((s.sampleRef a.val m).1 - m.y).natAbs ≤ s.eff a.val (Reg.CTL_WU_THR a.val) →
    (s.lane a.val).statesAgree = true → (s.lane a.val).coefsAgree = true → hasBit (s.lane a.val).heldHeads m.head = false →
    Runs (.microJob a) s fun t => SMap.get t.laneIn [] a.val = r ∧
      t.get (Reg.CTL_EH_VALID a.val (m.slot % 4)) = 1 ∧ t.sget (Reg.CTL_EH_EH a.val (m.slot % 4)) =
        satSigned 24 ((s.sampleRef a.val m).1 - m.y) ∧
      t.spn.d2d = s.spn.d2d ++ [(a.val, m.head, clampInt (-(s.eff a.val (Reg.CTL_LIMITS_MA_LIM a.val) : Int))
        (s.eff a.val (Reg.CTL_LIMITS_MA_LIM a.val))
        (microFilter (s.lane a.val) m.head ((s.sampleRef a.val m).1 - m.y) 0).1)] ∧
      SMap.get (t.lane a.val).inv 0 m.head = 0 ∧ (t.lane a.val).bound = false ∧ t.phase a.val = 3 ∧
      FieldsKept s t [Reg.CTL_EH_VALID a.val (m.slot % 4), Reg.CTL_EH_EH a.val (m.slot % 4), Reg.CTL_SAT_COUNT a.val] ∧
      BytesKept s t) ∧
  (∀ (a : Fin 4) (m : Sample) (r : List Sample) (s : State), SMap.get s.laneIn [] a.val = m :: r → m.flags = 0 →
    m.closes = false → m.slot / 4 = a.val → s.phase a.val = 3 → s.clkOk 20 = true →
    s.eff a.val (Reg.CTL_LRN_CTL_APPLY1 a.val) = 0 → s.eff a.val (Reg.CTL_LRN_CTL_LEARN a.val) = 0 →
    s.eff a.val (Reg.CTL_WU_THR a.val) < ((s.sampleRef a.val m).1 - m.y).natAbs → Runs (.microJob a) s fun t =>
      SMap.get t.laneIn [] a.val = r ∧ hasBit t.pesSrc a.val = true ∧ (t.lane a.val).clean = 0 ∧ (t.lane a.val).dirty = true) ∧
  (∀ (a : Fin 4) (m : Sample) (r : List Sample) (s : State), SMap.get s.laneIn [] a.val = m :: r → m.flags = 0 →
    m.closes = false → m.head < 12 → m.slot / 4 = a.val → s.phase a.val = 1 → s.clkOk 20 = true →
    (s.lane a.val).statesAgree = true → Runs (.microJob a) s fun t => SMap.get t.laneIn [] a.val = r ∧
      t.spn.d2d = s.spn.d2d ++ [(a.val, m.head, 0)] ∧ SMap.get (t.lane a.val).u 0 m.head = 0) ∧
  (∀ (a : Fin 4) (m : Sample) (r : List Sample) (s : State), SMap.get s.laneIn [] a.val = m :: r → m.flags ≠ 0 →
    m.closes = false → m.slot / 4 = a.val → s.laneRuns a.val = true → Runs (.microJob a) s fun t =>
      SMap.get t.laneIn [] a.val = r ∧ t.get (Reg.CTL_EH_VALID a.val (m.slot % 4)) = 0 ∧
      t.get (Reg.CTL_INVALID_COUNT a.val) = s.counted (Reg.CTL_INVALID_COUNT a.val) 1 ∧
      SMap.get (t.lane a.val).inv 0 m.head = SMap.get (s.lane a.val).inv 0 m.head + 1 ∧ hasBit t.pesSrc a.val = true) ∧
  (∀ (a : Fin 4) (m : Sample) (r : List Sample) (s : State), SMap.get s.laneIn [] a.val = m :: r → m.closes = true →
    m.head < 12 → m.slot / 4 = a.val → s.phase a.val = 3 → s.clkOk 20 = true →
    s.eff a.val (Reg.CTL_LRN_CTL_LEARN a.val) = 0 → (s.lane a.val).statesAgree = true → (s.lane a.val).coefsAgree = true →
    (s.lane a.val).fresh = false → (s.lane a.val).go = none → Runs (.microJob a) s fun t =>
      SMap.get t.laneIn [] a.val = r ∧
      t.get (Reg.CTL_GROUPS_COUNT a.val) = s.counted (Reg.CTL_GROUPS_COUNT a.val) 1 ∧
      t.spn.d2d.getLast?.any (fun x => x.1 == a.val && x.2.1 == 12 &&
        decide (x.2.2.natAbs ≤ s.eff a.val (Reg.CTL_LIMITS_VCM_LIM a.val))) = true ∧
      t.sget (Reg.CTL_EV_EV a.val) = satSigned 32 (t.lane a.val).ev ∧ (t.lane a.val).old = [] ∧
      (t.lane a.val).bound = true ∧ t.phase a.val = 3) ∧
  (∀ (a : Fin 4) (m : Sample) (r : List Sample) (s : State), SMap.get s.laneIn [] a.val = m :: r → m.flags = 0 →
    m.closes = false → s.laneRuns a.val = false → s.clkOk 20 = true → Runs (.microJob a) s fun t =>
      SMap.get t.laneIn [] a.val = r ∧ t.lanes = s.lanes ∧ t.spn = s.spn ∧ FieldsKept s t [] ∧ BytesKept s t) ∧
  (∀ (a : Fin 4) (s : State), (SMap.get s.laneIn [] a.val = [] ∨ s.clkOk 20 = false) →
    Runs (.microJob a) s fun t => t = s) ∧
  (∀ (a : Fin 4) (h : Fin 12) (s : State), s.laneRuns a.val = true →
    s.eff a.val (Reg.CTL_WU_INV_MAX a.val) ≤ SMap.get (s.lane a.val).inv 0 h.val →
    hasBit (s.lane a.val).heldHeads h.val = false → Runs (.headHeld a h) s fun t =>
      hasBit (t.lane a.val).heldHeads h.val = true ∧ (t.lane a.val).u = (s.lane a.val).u ∧ EventFrame s t []) ∧
  (∀ (a : Fin 4) (h : Fin 12) (s : State), (s.laneRuns a.val = false ∨
    SMap.get (s.lane a.val).inv 0 h.val < s.eff a.val (Reg.CTL_WU_INV_MAX a.val)) →
    Runs (.headHeld a h) s fun t => t = s) ∧
  (∀ (a : Fin 4) (s : State), s.laneRuns a.val = true → s.eff a.val (Reg.CTL_WU_INV_MAX a.val) ≤ (s.lane a.val).empty →
    Runs (.laneLost a) s fun t => t.phase a.val = 4 ∧ (t.lane a.val).u = [] ∧ hasBit t.pesSrc a.val = true ∧
      t.spn.d2d.getLast? = some (a.val, 12, toSigned 16 (SMap.get (s.lane a.val).live 0 0xD90)) ∧
      (s.fitted a.val = true → hasBit (t.get Reg.MTR_RET_STATUS_CAUSE) (4 * a.val + 2) = true)) ∧
  (∀ (a : Fin 4) (s : State), (s.laneRuns a.val = false ∨ (s.lane a.val).empty < s.eff a.val (Reg.CTL_WU_INV_MAX a.val)) →
    Runs (.laneLost a) s fun t => t = s) ∧
  (∀ (a : Fin 4) (s : State), s.phase a.val = 2 → s.eff a.val (Reg.CTL_SETTLE_CNT a.val) ≤ (s.lane a.val).settle →
    Runs (.settleDone a) s fun t => t.phase a.val = 3 ∧ t.lanes = s.lanes ∧
      FieldsKept s t [Reg.CTL_LANE_STATUS_PHASE a.val] ∧ BytesKept s t) ∧
  (∀ (a : Fin 4) (s : State), (s.phase a.val ≠ 2 ∨ (s.lane a.val).settle < s.eff a.val (Reg.CTL_SETTLE_CNT a.val)) →
    Runs (.settleDone a) s fun t => t = s) ∧
  (∀ (a : Fin 4) (s : State), (s.phase a.val = 2 ∨ s.phase a.val = 3) → s.clkOk 20 = true → (s.lane a.val).feDue = true →
    Runs (.followingError a) s fun t => t.get (Reg.CTL_LANE_STATUS_FE a.val) = 1 ∧ (t.lane a.val).feDue = false ∧
      t.get (Reg.CTL_FE_CNT_COUNT a.val) = s.counted (Reg.CTL_FE_CNT_COUNT a.val) 1 ∧
      t.phase a.val = s.phase a.val ∧ hasBit t.pesSrc a.val = true) ∧
  (∀ (a : Fin 4) (s : State), s.phase a.val = 1 → s.clkOk 20 = true → (s.lane a.val).feDue = true →
    Runs (.followingError a) s fun t => t.get (Reg.CTL_LANE_STATUS_FE a.val) = 1 ∧ t.phase a.val = 2 ∧
      t.get (Reg.CTL_FE_CNT_COUNT a.val) = s.counted (Reg.CTL_FE_CNT_COUNT a.val) 1 ∧
      (t.lane a.val).xtarget = (s.lane a.val).xref ∧ hasBit t.pesSrc a.val = true) ∧
  (∀ (a : Fin 4) (s : State), (s.laneRuns a.val = false ∨ (s.lane a.val).feDue = false) →
    Runs (.followingError a) s fun t => t = s) ∧
  (∀ (a : Fin 4) (s : State), s.phase a.val = 3 → (s.lane a.val).bound = true → s.get (Reg.CTL_LANE_STATUS_FE a.val) = 0 →
    s.eff a.val (Reg.CTL_WU_CLR a.val) ≤ (s.lane a.val).clean → Runs (.pesClear a) s fun t =>
      hasBit t.pesSrc a.val = false ∧ t.lanes = s.lanes ∧ FieldsKept s t [] ∧ BytesKept s t) ∧
  (∀ (a : Fin 4) (s : State), (s.phase a.val ≠ 3 ∨ (s.lane a.val).bound = false ∨
    s.get (Reg.CTL_LANE_STATUS_FE a.val) = 1 ∨ (s.lane a.val).clean < s.eff a.val (Reg.CTL_WU_CLR a.val)) →
    Runs (.pesClear a) s fun t => t = s)

/-- ON with a tracking source takes an OFF lane to SETTLE from zero states in both copies; without one, or in LOST or FAULT, it is rejected
with code 5. OFF leaves a running lane OFF with a command of 0 to the VCM and to every head; a keyed reset leaves PHASE OFF without
sending a command and clears CMP and its source, and one without its key does nothing. A seek is taken with its target in a running lane,
code 5 otherwise. A job of a running lane with an upset that shows in its message leaves FAULT with CMP, its source and a STOP to the
power die; with no bit inverted it is a job as any other; a lane that does not run ignores it. An idle pass that finds the copies' states
or coefficient stores apart leaves FAULT with CMP_SRC 1 or 2, and one without an upset on copies that agree does nothing. -/
def Obligations.LaneControl : Prop :=
  (∀ (a : Fin 4) (v : Word) (s : State), hasBit v.toNat 15 = false → hasBit v.toNat 0 = true → s.phase a.val = 0 →
    (s.srcState (4 * a.val) = 3 ∨ s.srcState (4 * a.val + 1) = 3 ∨ s.srcState (4 * a.val + 2) = 3 ∨
      s.srcState (4 * a.val + 3) = 3) → Runs (.laneOn a v) s fun t => t.phase a.val = 2 ∧
      t.get (Reg.CTL_LANE_CTL_ON a.val) = 1 ∧ (t.lane a.val).fresh = true ∧ (t.lane a.val).integ = 0 ∧
      (t.lane a.val).vcm = [] ∧ (t.lane a.val).micro = [] ∧ (t.lane a.val).chk.integ = 0 ∧
      (t.lane a.val).chk.vcm = [] ∧ (t.lane a.val).chk.micro = [] ∧ BytesKept s t ∧
      FieldsKept s t [Reg.CTL_LANE_CTL_ON a.val, Reg.CTL_LANE_STATUS_PHASE a.val]) ∧
  (∀ (a : Fin 4) (v : Word) (s : State), hasBit v.toNat 15 = false → hasBit v.toNat 0 = true →
    (s.phase a.val = 4 ∨ s.phase a.val = 5 ∨ (s.srcState (4 * a.val) ≠ 3 ∧ s.srcState (4 * a.val + 1) ≠ 3 ∧
      s.srcState (4 * a.val + 2) ≠ 3 ∧ s.srcState (4 * a.val + 3) ≠ 3)) → s.get (Reg.CTL_CFG_STATUS_ERR a.val) = 0 →
    Runs (.laneOn a v) s fun t => t.get (Reg.CTL_CFG_STATUS_ERR a.val) = 1 ∧
      t.get (Reg.CTL_CFG_STATUS_CODE a.val) = 5 ∧ t.lanes = s.lanes ∧ BytesKept s t ∧
      FieldsKept s t [Reg.CTL_CFG_STATUS_ERR a.val, Reg.CTL_CFG_STATUS_CODE a.val]) ∧
  (∀ (a : Fin 4) (v : Word) (s : State), hasBit v.toNat 15 = false → hasBit v.toNat 0 = false →
    s.laneRuns a.val = true → Runs (.laneOff a v) s fun t => t.phase a.val = 0 ∧
      t.get (Reg.CTL_LANE_CTL_ON a.val) = 0 ∧ (t.lane a.val).u = [] ∧ (t.lane a.val).go = none ∧
      (t.lane a.val).micro = [] ∧ (t.lane a.val).vcm = [] ∧ (t.lane a.val).integ = 0 ∧
      t.spn.d2d = s.spn.d2d ++ (s.lane a.val).u.map (fun e => (a.val, e.1, 0)) ++ [(a.val, 12, 0)]) ∧
  (∀ (a : Fin 4) (v : Word) (s : State), hasBit v.toNat 15 = false → hasBit v.toNat 0 = false →
    s.phase a.val = 0 → Runs (.laneOff a v) s fun t => t.get (Reg.CTL_LANE_CTL_ON a.val) = 0 ∧ t.lanes = s.lanes ∧
      t.spn = s.spn ∧ FieldsKept s t [Reg.CTL_LANE_CTL_ON a.val] ∧ BytesKept s t) ∧
  (∀ (a : Fin 4) (v : Word) (s : State), hasBit v.toNat 15 = true → bits v.toNat 31 16 = 0x5A5A →
    Runs (.laneReset a v) s fun t => t.phase a.val = 0 ∧ t.get (Reg.CTL_LANE_CTL_ON a.val) = 0 ∧
      t.get (Reg.CTL_LANE_STATUS_CMP a.val) = 0 ∧ hasBit t.cmpSrc a.val = false ∧ (t.lane a.val).u = [] ∧
      (t.lane a.val).micro = [] ∧ (t.lane a.val).vcm = [] ∧ (t.lane a.val).integ = 0 ∧ t.spn.d2d = s.spn.d2d) ∧
  (∀ (a : Fin 4) (v : Word) (s : State), hasBit v.toNat 15 = true → bits v.toNat 31 16 ≠ 0x5A5A →
    Runs (.laneReset a v) s fun t => t = s) ∧
  (∀ (a : Fin 4) (v : Word) (s : State), hasBit v.toNat 0 = true → s.laneRuns a.val = true →
    Runs (.seekGo a v) s fun t => (t.lane a.val).go = some (s.get (Reg.CTL_SEEK_TGT_LO_X_LO a.val) +
      2 ^ 32 * s.get (Reg.CTL_SEEK_TGT_HI_X_HI a.val)) ∧ FieldsKept s t [] ∧ BytesKept s t) ∧
  (∀ (a : Fin 4) (v : Word) (s : State), hasBit v.toNat 0 = true → s.laneRuns a.val = false →
    s.get (Reg.CTL_CFG_STATUS_ERR a.val) = 0 → Runs (.seekGo a v) s fun t =>
      t.get (Reg.CTL_CFG_STATUS_CODE a.val) = 5 ∧ t.lanes = s.lanes ∧ BytesKept s t ∧
      FieldsKept s t [Reg.CTL_CFG_STATUS_ERR a.val, Reg.CTL_CFG_STATUS_CODE a.val]) ∧
  (∀ (a : Fin 4) (k : Nat) (m : Sample) (r : List Sample) (s : State), s.laneRuns a.val = true → k % 2 ^ 16 ≠ 0 →
    SMap.get s.laneIn [] a.val = m :: r → m.slot / 4 = a.val → m.head < 12 → (s.lane a.val).statesAgree = true →
    (s.lane a.val).coefsAgree = true → Runs (.laneCompareFault a (.message k)) s fun t =>
    t.phase a.val = 5 ∧ t.get (Reg.CTL_LANE_STATUS_CMP a.val) = 1 ∧
    t.get (Reg.CTL_LANE_STATUS_CMP_SRC a.val) = 0 ∧ hasBit t.cmpSrc a.val = true ∧ hasBit t.pesSrc a.val = true ∧
    SMap.get t.laneIn [] a.val = r ∧ t.spn.d2d = s.spn.d2d ++ [(a.val, 13, 0)]) ∧
  (∀ (a : Fin 4) (m : Sample) (r : List Sample) (s : State), SMap.get s.laneIn [] a.val = m :: r → m.flags ≠ 0 →
    m.closes = false → m.slot / 4 = a.val → s.laneRuns a.val = true → Runs (.laneCompareFault a (.message 0)) s fun t =>
      SMap.get t.laneIn [] a.val = r ∧ t.get (Reg.CTL_EH_VALID a.val (m.slot % 4)) = 0 ∧
      t.get (Reg.CTL_INVALID_COUNT a.val) = s.counted (Reg.CTL_INVALID_COUNT a.val) 1 ∧
      SMap.get (t.lane a.val).inv 0 m.head = SMap.get (s.lane a.val).inv 0 m.head + 1 ∧ hasBit t.pesSrc a.val = true) ∧
  (∀ (a : Fin 4) (c : LaneUpset) (s : State), s.laneRuns a.val = false →
    Runs (.laneCompareFault a c) s fun t => t = s) ∧
  (∀ (a : Fin 4) (k n : Nat) (s : State), s.phase a.val ≠ 5 → k < 217 → n % 2 ^ 48 ≠ 0 →
    (s.lane a.val).statesAgree = true → Runs (.idleComparePass a (some (.state k n))) s fun t =>
    t.phase a.val = 5 ∧ t.get (Reg.CTL_LANE_STATUS_CMP a.val) = 1 ∧ t.get (Reg.CTL_LANE_STATUS_CMP_SRC a.val) = 1 ∧
    hasBit t.cmpSrc a.val = true ∧ t.spn.d2d = s.spn.d2d ++ [(a.val, 13, 0)]) ∧
  (∀ (a : Fin 4) (o n : Nat) (s : State), s.phase a.val ≠ 5 → n % 2 ^ 32 ≠ 0 →
    (s.lane a.val).statesAgree = true → (s.lane a.val).coefsAgree = true →
    Runs (.idleComparePass a (some (.coef o n))) s fun t =>
    t.phase a.val = 5 ∧ t.get (Reg.CTL_LANE_STATUS_CMP_SRC a.val) = 2 ∧ hasBit t.cmpSrc a.val = true) ∧
  (∀ (a : Fin 4) (s : State), (s.phase a.val = 5 ∨ ((s.lane a.val).statesAgree = true ∧
    (s.lane a.val).coefsAgree = true)) → Runs (.idleComparePass a none) s fun t => t = s)

/-- A bank selection waits in a running lane and takes effect at once, in both copies, in one that is OFF. A coefficient write stores the
defined bits of its word in either bank of both copies, in use at once where the lane is OFF and its bank is selected; an anti-windup gain
above its range is rejected with code 2. An access to the learner's data writes the addressed word, clearing its error, or answers a good
one, a single flip corrected and flagged, a free value with the error flagged and an event for an uncorrectable one, and advances the
address through wedges and heads. -/
def Obligations.LaneData : Prop :=
  (∀ (a : Fin 4) (v : Word) (s : State), s.phase a.val ≠ 0 → Runs (.bankSelWrite a v) s fun t =>
    t.get (Reg.CTL_BANK_SEL_BANK a.val) = bit v.toNat 0 ∧ t.get (Reg.CTL_BANK_SEL_PENDING a.val) = 1 ∧
    (t.lane a.val).sw = some (bit v.toNat 0, hasBit v.toNat 1) ∧ (t.lane a.val).live = (s.lane a.val).live ∧
    FieldsKept s t [Reg.CTL_BANK_SEL_BANK a.val, Reg.CTL_BANK_SEL_PENDING a.val] ∧ BytesKept s t) ∧
  (∀ (a : Fin 4) (v : Word) (s : State), s.phase a.val = 0 → Runs (.bankSelWrite a v) s fun t =>
    t.get (Reg.CTL_LANE_STATUS_BANK a.val) = bit v.toNat 0 ∧ t.get (Reg.CTL_BANK_SEL_PENDING a.val) = 0 ∧
    (t.lane a.val).sw = none ∧ (t.lane a.val).live = (s.lane a.val).main.bank (bit v.toNat 0) ∧
    (t.lane a.val).chk.live = (s.lane a.val).chk.bank (bit v.toNat 0) ∧ BytesKept s t ∧
    FieldsKept s t [Reg.CTL_BANK_SEL_BANK a.val, Reg.CTL_BANK_SEL_PENDING a.val, Reg.CTL_LANE_STATUS_BANK a.val]) ∧
  (∀ (a : Fin 4) (o : Nat) (v : Word) (s : State), 0x2000 ≤ o → o < 0x4000 → o % 0x1000 ≠ 0xD88 → s.phase a.val ≠ 0 →
    Runs (.coefficientWrite a o v) s fun t => SMap.get (t.lane a.val).coef 0 o = v.toNat &&& coefMask (o % 0x1000) ∧
      SMap.get (t.lane a.val).chk.coef 0 o = v.toNat &&& coefMask (o % 0x1000) ∧
      (t.lane a.val).live = (s.lane a.val).live ∧ FieldsKept s t [] ∧ BytesKept s t) ∧
  (∀ (a : Fin 4) (o : Nat) (v : Word) (s : State), o / 0x1000 = 2 + s.get (Reg.CTL_LANE_STATUS_BANK a.val) →
    o % 0x1000 ≠ 0xD88 → s.phase a.val = 0 → (s.lane a.val).sw = none → Runs (.coefficientWrite a o v) s fun t =>
      SMap.get (t.lane a.val).live 0 (o % 0x1000) = v.toNat &&& coefMask (o % 0x1000) ∧
      SMap.get (t.lane a.val).chk.live 0 (o % 0x1000) = v.toNat &&& coefMask (o % 0x1000) ∧
      FieldsKept s t [] ∧ BytesKept s t) ∧
  (∀ (a : Fin 4) (o : Nat) (v : Word) (s : State), o = 0x2D88 ∨ o = 0x3D88 → 2 ^ 28 < v.toNat →
    s.get (Reg.CTL_CFG_STATUS_ERR a.val) = 0 → Runs (.coefficientWrite a o v) s fun t =>
      t.get (Reg.CTL_CFG_STATUS_CODE a.val) = 2 ∧ t.lanes = s.lanes ∧ BytesKept s t ∧
      FieldsKept s t [Reg.CTL_CFG_STATUS_ERR a.val, Reg.CTL_CFG_STATUS_CODE a.val]) ∧
  (∀ (a : Fin 4) (v : Word) (h k : Nat) (s : State), s.get (Reg.CTL_LRN_ADDR_HEAD a.val) = h →
    s.get (Reg.CTL_LRN_ADDR_WEDGE a.val) = k → h < 12 → k < 512 → Runs (.learnerDataAccess a (some v)) s fun t =>
      SMap.get (t.lane a.val).learner 0 (512 * h + k) = v.toNat ∧ t.sramFlips (16 + a.val) (512 * h + k) = 0 ∧
      512 * t.get (Reg.CTL_LRN_ADDR_HEAD a.val) + t.get (Reg.CTL_LRN_ADDR_WEDGE a.val) = (512 * h + k + 1) % 6144 ∧
      FieldsKept s t [Reg.CTL_LRN_ADDR_HEAD a.val, Reg.CTL_LRN_ADDR_WEDGE a.val] ∧ BytesKept s t) ∧
  (∀ (a : Fin 4) (h k : Nat) (s : State), s.get (Reg.CTL_LRN_ADDR_HEAD a.val) = h →
    s.get (Reg.CTL_LRN_ADDR_WEDGE a.val) = k → h < 12 → k < 512 → s.sramFlips (16 + a.val) (512 * h + k) = 0 →
    Runs (.learnerDataAccess a none) s fun t => t.resp = .data (SMap.get (s.lane a.val).learner 0 (512 * h + k)) ∧
      512 * t.get (Reg.CTL_LRN_ADDR_HEAD a.val) + t.get (Reg.CTL_LRN_ADDR_WEDGE a.val) = (512 * h + k + 1) % 6144 ∧
      FieldsKept s t [Reg.CTL_LRN_ADDR_HEAD a.val, Reg.CTL_LRN_ADDR_WEDGE a.val] ∧ BytesKept s t) ∧
  (∀ (a : Fin 4) (h k : Nat) (s : State), s.get (Reg.CTL_LRN_ADDR_HEAD a.val) = h →
    s.get (Reg.CTL_LRN_ADDR_WEDGE a.val) = k → h < 12 → k < 512 → s.sramFlips (16 + a.val) (512 * h + k) = 1 →
    Runs (.learnerDataAccess a none) s fun t => t.resp = .data (SMap.get (s.lane a.val).learner 0 (512 * h + k)) ∧
      t.get (Reg.CTL_LRN_ERR_CE a.val) = 1 ∧ t.sramFlips (16 + a.val) (512 * h + k) = 0 ∧
      512 * t.get (Reg.CTL_LRN_ADDR_HEAD a.val) + t.get (Reg.CTL_LRN_ADDR_WEDGE a.val) = (512 * h + k + 1) % 6144 ∧
      FieldsKept s t [Reg.CTL_LRN_ADDR_HEAD a.val, Reg.CTL_LRN_ADDR_WEDGE a.val, Reg.CTL_LRN_ERR_CE a.val,
        Reg.BUF_SRAM_CE_COUNT] ∧ BytesKept s t) ∧
  (∀ (a : Fin 4) (h k : Nat) (s : State), s.get (Reg.CTL_LRN_ADDR_HEAD a.val) = h →
    s.get (Reg.CTL_LRN_ADDR_WEDGE a.val) = k → h < 12 → k < 512 → 1 < s.sramFlips (16 + a.val) (512 * h + k) →
    s.get (Reg.CTL_LRN_ERR_UE a.val) = 0 → Runs (.learnerDataAccess a none) s fun t =>
      t.resp = .data (Config.freeValue s.free % 2 ^ 32) ∧ t.get (Reg.CTL_LRN_ERR_UE a.val) = 1 ∧
      t.get (Reg.CTL_LRN_ERR_ADDR a.val) = 512 * h + k ∧
      512 * t.get (Reg.CTL_LRN_ADDR_HEAD a.val) + t.get (Reg.CTL_LRN_ADDR_WEDGE a.val) = (512 * h + k + 1) % 6144 ∧
      EventFrame s t [Reg.CTL_LRN_ADDR_HEAD a.val, Reg.CTL_LRN_ADDR_WEDGE a.val, Reg.CTL_LRN_ERR_UE a.val,
        Reg.CTL_LRN_ERR_ADDR a.val, Reg.BUF_SRAM_UE_COUNT])

/-- START from STOPPED or FAULT senses, with cause and fails cleared; code 3 on a VIN fail or in another state, 4 where it turns the
direction of a spindle measured above 60 rpm; CMD 3 is code 2. SENSE_END records the decision and catches a fast forward spindle, brakes
one that turns forward more slowly, or backward above 60 rpm, and aligns otherwise; the brake before alignment ends below 10 rpm or at 60.
ALIGN ends in RAMP, which steps open-loop as RAMP_RATE gives the times; 240 rpm without a handover senses again, and the second time is a
FAULT with cause 4 that retracts the actuators; six agreeing zero crossings hand over to ACCEL with SET.RPM as target; 384 steps in band
are RUN with AT_SPEED, and in Active load the heads; 96 outside the wider band end it. The comparator's decisions give a step's zero
crossing once, no earlier than a fifth of the step; in RAMP from 180 rpm it is checked against the middle of the step; from 24 steps it
gives the speed. COMMUTATION drives the next step of its direction. Outside their states, or before their conditions hold, none of these
changes anything. -/
def Obligations.SpindleStartUp : Prop :=
  (∀ (v : Word) (s : State), bits v.toNat 1 0 = 1 → s.get Reg.SPT_STATUS_FAIL = 0 → (s.spin = 0 ∨ s.spin = 7) →
    (bit v.toNat 8 = s.get Reg.MTR_SPN_CTL_DIR ∨ s.spn.measured ≤ 15360) → Runs (.spindleStart v) s fun t => t.spin = 1 ∧
      t.spn.dir = hasBit v.toNat 8 ∧ t.spn.spinUp = true ∧ t.spn.fails = 0 ∧ t.spn.step = 0 ∧
      t.get Reg.MTR_SPN_STATUS_CAUSE = 0 ∧ t.get Reg.MTR_LADDER_SHORT = 0 ∧
      BytesKept s t ∧ FieldsKept s t [Reg.MTR_SPN_CTL_DIR, Reg.MTR_SPN_CTL_BRAKE_MODE, Reg.MTR_SPN_STATUS_STATE,
        Reg.MTR_SPN_STATUS_CAUSE, Reg.MTR_LADDER_SHORT]) ∧
  (∀ (v : Word) (s : State), bits v.toNat 1 0 = 1 → (s.get Reg.SPT_STATUS_FAIL = 1 ∨ (s.spin ≠ 0 ∧ s.spin ≠ 7)) →
    s.get Reg.MTR_CFG_STATUS_ERR = 0 →
    Runs (.spindleStart v) s fun t => t.get Reg.MTR_CFG_STATUS_CODE = 3 ∧ t.spn = s.spn ∧ BytesKept s t ∧
      FieldsKept s t [Reg.MTR_CFG_STATUS_ERR, Reg.MTR_CFG_STATUS_CODE]) ∧
  (∀ (v : Word) (s : State), bits v.toNat 1 0 = 1 → s.get Reg.SPT_STATUS_FAIL = 0 → (s.spin = 0 ∨ s.spin = 7) →
    bit v.toNat 8 ≠ s.get Reg.MTR_SPN_CTL_DIR → 15360 < s.spn.measured → s.get Reg.MTR_CFG_STATUS_ERR = 0 →
    Runs (.spindleStart v) s fun t => t.get Reg.MTR_CFG_STATUS_CODE = 4 ∧ t.spn = s.spn ∧ BytesKept s t ∧
      FieldsKept s t [Reg.MTR_CFG_STATUS_ERR, Reg.MTR_CFG_STATUS_CODE]) ∧
  (∀ (v : Word) (s : State), bits v.toNat 1 0 = 3 → s.get Reg.MTR_CFG_STATUS_ERR = 0 →
    Runs (.spindleStart v) s fun t => t.get Reg.MTR_CFG_STATUS_CODE = 2 ∧ t.spn = s.spn ∧ BytesKept s t ∧
      FieldsKept s t [Reg.MTR_CFG_STATUS_ERR, Reg.MTR_CFG_STATUS_CODE]) ∧
  (∀ (low d : Bool) (v : Nat) (k : Fin 6) (s : State), s.spin = 1 → (low = true ∨ v < 2560) →
    Runs (.senseEnd low d v k) s fun t => t.spin = 2 ∧ t.get Reg.MTR_SENSE_DONE = 1 ∧ t.get Reg.MTR_SENSE_DIR = b2n d ∧
      t.get Reg.MTR_SENSE_DECISION = 0 ∧ t.get Reg.MTR_SENSE_SPEED = 0 ∧ t.spn.step = 1 ∧ BytesKept s t ∧
      FieldsKept s t [Reg.MTR_SPN_STATUS_STATE, Reg.MTR_SENSE_DONE, Reg.MTR_SENSE_DIR, Reg.MTR_SENSE_DECISION,
        Reg.MTR_SENSE_SPEED, Reg.MTR_SPN_SPEED_SPEED]) ∧
  (∀ (v : Nat) (k : Fin 6) (s : State), s.spin = 1 → 180 * 256 ≤ v → v < 2 ^ 21 →
    Runs (.senseEnd false s.spn.dir v k) s fun t => t.spin = 4 ∧ t.get Reg.MTR_SENSE_DONE = 1 ∧
      t.get Reg.MTR_SENSE_DECISION = 1 ∧ t.get Reg.MTR_SENSE_SPEED = v ∧ t.spn.step = k.val + 1 ∧ t.spn.target =
        s.get Reg.MTR_SPN_SET_RPM * 19200000000 ∧ BytesKept s t ∧
      FieldsKept s t [Reg.MTR_SPN_STATUS_STATE, Reg.MTR_SENSE_DONE, Reg.MTR_SENSE_DIR, Reg.MTR_SENSE_DECISION,
        Reg.MTR_SENSE_SPEED, Reg.MTR_SPN_SPEED_SPEED]) ∧
  (∀ (v : Nat) (k : Fin 6) (s : State), s.spin = 1 → 2560 ≤ v → v < 180 * 256 →
    Runs (.senseEnd false s.spn.dir v k) s fun t => t.spin = 8 ∧ t.get Reg.MTR_SENSE_DECISION = 2 ∧
      t.get Reg.MTR_SENSE_SPEED = v ∧ t.spn.brake = 2 ∧ BytesKept s t) ∧
  (∀ (v : Nat) (k : Fin 6) (s : State), s.spin = 1 → 60 * 256 < v → Runs (.senseEnd false (!s.spn.dir) v k) s fun t =>
    t.spin = 8 ∧ t.get Reg.MTR_SENSE_DECISION = 3 ∧ t.spn.brake = 2 ∧ BytesKept s t) ∧
  (∀ (v : Nat) (k : Fin 6) (s : State), s.spin = 1 → 2560 ≤ v → v ≤ 60 * 256 →
    Runs (.senseEnd false (!s.spn.dir) v k) s fun t =>
    t.spin = 2 ∧ t.get Reg.MTR_SENSE_DECISION = 4 ∧ t.spn.step = 1 ∧ BytesKept s t) ∧
  (∀ (low d : Bool) (v : Nat) (k : Fin 6) (s : State), s.spin ≠ 1 → Runs (.senseEnd low d v k) s fun t => t = s) ∧
  (∀ (v : Nat) (s : State), s.spin = 8 → ((s.get Reg.MTR_SENSE_DECISION = 2 ∧ v < 2560) ∨
    (s.get Reg.MTR_SENSE_DECISION = 3 ∧ v ≤ 15360)) →
    Runs (.preBrakeSample v) s fun t => t.spin = 2 ∧ t.spn.step = 1 ∧ t.spn.brake = 3 ∧ BytesKept s t ∧
      FieldsKept s t [Reg.MTR_SPN_SPEED_SPEED, Reg.MTR_SPN_STATUS_STATE]) ∧
  (∀ (v : Nat) (s : State), s.spin = 8 → 15360 < v → Runs (.preBrakeSample v) s fun t => t.spin = 8 ∧
    t.spn = { s.spn with measured := v } ∧ BytesKept s t ∧ FieldsKept s t [Reg.MTR_SPN_SPEED_SPEED]) ∧
  (∀ (v : Nat) (s : State), s.spin ≠ 8 → Runs (.preBrakeSample v) s fun t => t = s) ∧
  (∀ s : State, s.spin = 2 → Runs .alignEnd s fun t => t.spin = 3 ∧
    t.spn = { s.spn with rampN := 0, zcOk := 0, zcAt := none } ∧ BytesKept s t ∧
    FieldsKept s t [Reg.MTR_SPN_STATUS_STATE]) ∧
  (∀ s : State, s.spin ≠ 2 → Runs .alignEnd s fun t => t = s) ∧
  (∀ s : State, s.spin = 3 → s.rampReached 240 (s.rampTime (s.spn.rampN + 1)) = true → s.spn.fails = 0 →
    Runs .rampLimit s fun t => t.spin = 1 ∧ t.spn.fails = 1 ∧
    t.spn.step = 0 ∧ BytesKept s t ∧ FieldsKept s t [Reg.MTR_SPN_STATUS_STATE]) ∧
  (∀ s : State, s.spin = 3 → s.rampReached 240 (s.rampTime (s.spn.rampN + 1)) = true → s.spn.fails = 1 →
    Runs .rampLimit s fun t => t.spin = 7 ∧
    t.get Reg.MTR_SPN_STATUS_CAUSE = 4 ∧ t.spn.spinUp = false ∧ t.spn.step = 0 ∧
    (∀ a : Fin 4, s.fitted a.val = true → s.retState a.val ≠ 2 →
      hasBit (t.get Reg.MTR_RET_STATUS_CAUSE) (4 * a.val + 3) = true)) ∧
  (∀ s : State, (s.spin ≠ 3 ∨ s.rampReached 240 (s.rampTime (s.spn.rampN + 1)) = false) →
    Runs .rampLimit s fun t => t = s) ∧
  (∀ (ts : List Nat) (vs : List Int) (tm : Nat) (s : State), s.clkOk 32 = true → s.spin = 3 → s.spn.zcAt = none →
    floatWindowOk s.spn.depth = true → s.spn.steps.length < 24 →
    crossingAt (risingEdge s.spn.dir s.spn.step) (ceilDiv s.rampStep 480) none (ts.zip vs) = some tm →
    Runs (.zeroCrossing ts vs) s fun t =>
      t.spn = { (s.slew (s.spn.since + 96 * tm)).spn with
        zcAt := some (96 * tm), missRun := 0,
        zcOk := if s.rampReached 180 (s.rampTime s.spn.rampN) then
            (if (2 * (96 * tm : Int) - s.rampStep).natAbs * 4 ≤ s.rampStep then s.spn.zcOk + 1 else 0)
          else s.spn.zcOk } ∧
      FieldsKept s t [] ∧ BytesKept s t) ∧
  (∀ (ts : List Nat) (vs : List Int) (tm : Nat) (s : State), s.clkOk 32 = true → (s.spin = 4 ∨ s.spin = 5) → s.spn.zcAt = none →
    floatWindowOk s.spn.depth = true → s.spn.steps.length = 24 → s.get Reg.MTR_SPN_STATUS_SRC = 0 →
    s.get Reg.MTR_SPN_SPEED_VALID = 1 → 140625000 < sumNat s.spn.steps →
    crossingAt (risingEdge s.spn.dir s.spn.step) (ceilDiv (2 * s.halfMean) 480) none (ts.zip vs) = some tm →
    Runs (.zeroCrossing ts vs) s fun t => t.spn.zcAt = some (96 * tm) ∧ t.spn.missRun = 0 ∧
      (t.get Reg.MTR_SPN_SPEED_SPEED = 294912000000000 / sumNat s.spn.steps ∨
        t.get Reg.MTR_SPN_SPEED_SPEED = 294912000000000 / sumNat s.spn.steps + 1) ∧
      FieldsKept s t [Reg.MTR_SPN_SPEED_SPEED, Reg.MTR_SPN_SPEED_VALID, Reg.MTR_SPN_SPEED_DIR] ∧ BytesKept s t) ∧
  (∀ (ts : List Nat) (vs : List Int) (s : State), (s.clkOk 32 = false ∨ (s.spin ≠ 3 ∧ s.spin ≠ 4 ∧ s.spin ≠ 5) ∨
    s.spn.zcAt ≠ none ∨ floatWindowOk s.spn.depth = false ∨
    crossingAt (risingEdge s.spn.dir s.spn.step) (ceilDiv s.stepMean 480) none (ts.zip vs) = none) →
    Runs (.zeroCrossing ts vs) s fun t => t = s) ∧
  (∀ s : State, s.spin = 3 → 6 ≤ s.spn.zcOk → Runs .handover s fun t => t.spin = 4 ∧
    t.spn = { s.spn with target := s.get Reg.MTR_SPN_SET_RPM * 19200000000, missRun := 0 } ∧ BytesKept s t ∧
    FieldsKept s t [Reg.MTR_SPN_STATUS_STATE]) ∧
  (∀ s : State, (s.spin ≠ 3 ∨ s.spn.zcOk < 6) → Runs .handover s fun t => t = s) ∧
  (∀ (k : Fin 6) (s : State), s.clkOk 32 = true → s.spin = 3 → s.spn.dir = false → k.val = s.spn.step % 6 →
    Runs (.commutation k) s fun t => t.spn.step = k.val + 1 ∧ t.spn.steps = (s.rampStep :: s.spn.steps).take 24 ∧
      t.spn.rampN = s.spn.rampN + 1 ∧ t.spn.zcAt = none ∧ FieldsKept s t [] ∧ BytesKept s t) ∧
  (∀ (z : Nat) (s : State), s.clkOk 32 = true → (s.spin = 4 ∨ s.spin = 5) → s.spn.zcAt = some z → s.spn.dir = true →
    s.spn.step = 1 → Runs (.commutation 5) s fun t => t.spn.step = 6 ∧
      t.spn.steps = ((z + s.halfMean) :: s.spn.steps).take 24 ∧ t.spn.zcAt = none ∧
      t.spn.since = s.halfMean ∧ FieldsKept s t [] ∧ BytesKept s t) ∧
  (∀ (k : Fin 6) (s : State), (s.clkOk 32 = false ∨ ((s.spin = 4 ∨ s.spin = 5) ∧ s.spn.zcAt = none) ∨ s.spin = 0 ∨
    k.val + 1 ≠ stepAfter s.spn.dir s.spn.step) → Runs (.commutation k) s fun t => t = s) ∧
  (∀ s : State, (s.spin = 4 ∨ s.spin = 5) → 384 ≤ s.spn.inRun → Runs .atSpeed s fun t => t.spin = 5 ∧
    t.get Reg.MTR_SPN_STATUS_AT_SPEED = 1 ∧ t.spn = { s.spn with spinUp := false } ∧
    (s.pwr.dev = .active → t.pwr.headsLoaded = true) ∧ BytesKept s t ∧
    FieldsKept s t [Reg.MTR_SPN_STATUS_STATE, Reg.MTR_SPN_STATUS_AT_SPEED]) ∧
  (∀ s : State, s.spn.inRun < 384 → Runs .atSpeed s fun t => t = s) ∧
  (∀ s : State, (s.spin = 4 ∨ s.spin = 5) → 96 ≤ s.spn.outRun → Runs .atSpeedLost s fun t => t.spin = 4 ∧
    t.get Reg.MTR_SPN_STATUS_AT_SPEED = 0 ∧ t.spn = s.spn ∧ BytesKept s t ∧
    FieldsKept s t [Reg.MTR_SPN_STATUS_STATE, Reg.MTR_SPN_STATUS_AT_SPEED])

/-- A step without a zero crossing is commutated at twice the mean step and counted; three in a row, and a spin-up that takes too long, are
FAULT with causes 1 and 2: switches off, the spin-up ended, every fitted actuator that is not parked retracted with cause 3, an event.
STOP enters BRAKE with the mode named, coast on a VIN fail, the ladder's short brake where that is on; below 10 rpm a brake ends STOPPED,
and on the way to Doze the device is then in Doze. A wedge timeout drops the wedge intervals and returns the speed's source to zero
crossings. Before their conditions hold none of these changes anything. -/
def Obligations.SpindleFaults : Prop :=
  (∀ s : State, (s.spin = 4 ∨ s.spin = 5) → s.spn.zcAt = none → Runs .zcMiss s fun t =>
    t.spn.missRun = s.spn.missRun + 1 ∧ t.spn.steps = (4 * s.halfMean :: s.spn.steps).take 24 ∧
    t.spn.step = (if s.spn.dir then (if s.spn.step ≤ 1 then 6 else s.spn.step - 1) else s.spn.step % 6 + 1) ∧
    t.get Reg.MTR_ZC_MISS_COUNT = s.counted Reg.MTR_ZC_MISS_COUNT 1 ∧
    FieldsKept s t [Reg.MTR_ZC_MISS_COUNT] ∧ BytesKept s t) ∧
  (∀ s : State, ((s.spin ≠ 4 ∧ s.spin ≠ 5) ∨ s.spn.zcAt ≠ none) → Runs .zcMiss s fun t => t = s) ∧
  (∀ s : State, (s.spin = 4 ∨ s.spin = 5) → 3 ≤ s.spn.missRun → Runs .zcLost s fun t => t.spin = 7 ∧
    t.get Reg.MTR_SPN_STATUS_CAUSE = 1 ∧ t.spn.step = 0 ∧ t.spn.brake = 3 ∧ t.spn.spinUp = false ∧
    t.get Reg.MTR_LADDER_SHORT = 0 ∧ t.pwr.headsLoaded = false ∧
    (∀ a : Fin 4, s.fitted a.val = true → s.retState a.val ≠ 2 →
      hasBit (t.get Reg.MTR_RET_STATUS_CAUSE) (4 * a.val + 3) = true) ∧
    EventFrame s t [Reg.MTR_SPN_STATUS_STATE, Reg.MTR_SPN_STATUS_CAUSE, Reg.MTR_LADDER_SHORT, Reg.MTR_RET_STATUS_STATE,
      Reg.MTR_RET_STATUS_CAUSE, Reg.MTR_RET_CNT_COUNT]) ∧
  (∀ s : State, (s.spn.missRun < 3 ∨ (s.spin ≠ 4 ∧ s.spin ≠ 5)) → Runs .zcLost s fun t => t = s) ∧
  (∀ s : State, s.spn.spinUp = true → Runs .spinupTimeout s fun t => t.spin = 7 ∧
    t.get Reg.MTR_SPN_STATUS_CAUSE = 2 ∧ t.spn.step = 0 ∧ t.spn.spinUp = false ∧ t.pwr.headsLoaded = false ∧
    (∀ a : Fin 4, s.fitted a.val = true → s.retState a.val ≠ 2 →
      hasBit (t.get Reg.MTR_RET_STATUS_CAUSE) (4 * a.val + 3) = true) ∧
    EventFrame s t [Reg.MTR_SPN_STATUS_STATE, Reg.MTR_SPN_STATUS_CAUSE, Reg.MTR_LADDER_SHORT, Reg.MTR_RET_STATUS_STATE,
      Reg.MTR_RET_STATUS_CAUSE, Reg.MTR_RET_CNT_COUNT]) ∧
  (∀ s : State, s.spn.spinUp = false → Runs .spinupTimeout s fun t => t = s) ∧
  (∀ (v : Word) (s : State), bits v.toNat 1 0 = 2 → s.get Reg.SPT_STATUS_FAIL = 0 → s.get Reg.MTR_LADDER_SHORT = 0 →
    (bit v.toNat 8 = s.get Reg.MTR_SPN_CTL_DIR ∨ s.spn.measured ≤ 15360) → Runs (.spindleStop v) s fun t => t.spin = 6 ∧
      t.spn.brake = bits v.toNat 5 4 ∧ t.spn.step = 0 ∧ t.spn.spinUp = false ∧ BytesKept s t ∧
      FieldsKept s t [Reg.MTR_SPN_CTL_DIR, Reg.MTR_SPN_CTL_BRAKE_MODE, Reg.MTR_SPN_STATUS_STATE]) ∧
  (∀ (v : Word) (s : State), bits v.toNat 1 0 = 2 → s.get Reg.SPT_STATUS_FAIL = 1 → s.get Reg.MTR_LADDER_SHORT = 0 →
    bit v.toNat 8 = s.get Reg.MTR_SPN_CTL_DIR → Runs (.spindleStop v) s fun t => t.spin = 6 ∧ t.spn.brake = 0 ∧
      BytesKept s t ∧ FieldsKept s t [Reg.MTR_SPN_CTL_DIR, Reg.MTR_SPN_CTL_BRAKE_MODE, Reg.MTR_SPN_STATUS_STATE]) ∧
  (∀ (v : Word) (s : State), bits v.toNat 1 0 = 2 → s.get Reg.MTR_LADDER_SHORT = 1 →
    bit v.toNat 8 = s.get Reg.MTR_SPN_CTL_DIR → Runs (.spindleStop v) s fun t => t.spin = 6 ∧ t.spn.brake = 2 ∧
      BytesKept s t ∧ FieldsKept s t [Reg.MTR_SPN_CTL_DIR, Reg.MTR_SPN_CTL_BRAKE_MODE, Reg.MTR_SPN_STATUS_STATE]) ∧
  (∀ (v : Word) (s : State), bits v.toNat 1 0 = 2 → bit v.toNat 8 ≠ s.get Reg.MTR_SPN_CTL_DIR → 15360 < s.spn.measured →
    s.get Reg.MTR_CFG_STATUS_ERR = 0 → Runs (.spindleStop v) s fun t => t.get Reg.MTR_CFG_STATUS_CODE = 4 ∧
      t.spn = s.spn ∧ BytesKept s t ∧ FieldsKept s t [Reg.MTR_CFG_STATUS_ERR, Reg.MTR_CFG_STATUS_CODE]) ∧
  (∀ (v : Nat) (s : State), s.spin = 6 → v < 2560 → s.pwr.spinDown = false → Runs (.brakeStop v) s fun t =>
    t.spin = 0 ∧ t.spn.brake = 3 ∧ t.spn.measured = v ∧ t.get Reg.MTR_LADDER_SHORT = 0 ∧
    t.get Reg.MTR_SPN_STATUS_AT_SPEED = 0 ∧
    BytesKept s t ∧ FieldsKept s t [Reg.MTR_SPN_STATUS_STATE, Reg.MTR_LADDER_SHORT, Reg.MTR_SPN_STATUS_AT_SPEED,
      Reg.MTR_SPN_SPEED_SPEED]) ∧
  (∀ (v : Nat) (s : State), s.spin = 6 → v < 2560 → s.pwr.spinDown = true → s.pwr.spinCmd = false →
    Runs (.brakeStop v) s fun t => t.spin = 0 ∧ t.pwr.dev = .doze ∧ t.pwr.spinDown = false) ∧
  (∀ (v : Nat) (s : State), (2560 ≤ v ∨ s.spin ≠ 6) → Runs (.brakeStop v) s fun t => t = s) ∧
  (∀ s : State, Runs .wedgeTickTimeout s fun t => t.spn = { s.spn with wedges := [] } ∧
    t.get Reg.MTR_SPN_STATUS_SRC = 0 ∧ FieldsKept s t [Reg.MTR_SPN_STATUS_SRC] ∧ BytesKept s t)

/-- The chopper turns on from 13.2 V and is counted, unless it is on, faulty or held off; off below 12.8 V; a current below 1 A, or a VMOT
above that of its start, is a chopper fault with cause 1 or 2, and with the chopper off neither is judged; 13.8 V brakes a turning spindle
short with cause 3; 14.4 V is over-voltage, latched and counted each time, FAULT with cause 3 and a retract of every fitted actuator that is
not parked. The switch opens on reverse voltage or a VIN of 10.4 V or less, and closes when VIN exceeds VMOT by 0.1 V unless a VIN fail
holds it open. VIN above 13.2 V holds the chopper off until it is at most 13.2 V. Every voltage is recorded; below its threshold nothing
else happens. -/
def Obligations.MotorBus : Prop :=
  (∀ (v : Nat) (s : State), 13200 ≤ v → v < 65536 → s.get Reg.MTR_LADDER_CHOP = 0 →
    s.get Reg.MTR_LADDER_CHOP_FAULT = 0 → s.get Reg.MTR_LADDER_VIN_HIGH = 0 → Runs (.chopperOn v) s fun t =>
      t.get Reg.MTR_LADDER_CHOP = 1 ∧ t.get Reg.MTR_VMOT_VMOT = v ∧ t.spn = { s.spn with vmotOn := v } ∧
      t.get Reg.MTR_CHOP_CNT_COUNT = s.counted Reg.MTR_CHOP_CNT_COUNT 1 ∧
      BytesKept s t ∧ FieldsKept s t [Reg.MTR_LADDER_CHOP, Reg.MTR_VMOT_VMOT, Reg.MTR_CHOP_CNT_COUNT]) ∧
  (∀ (v : Nat) (s : State), (v < 13200 ∨ s.get Reg.MTR_LADDER_CHOP = 1 ∨ s.get Reg.MTR_LADDER_CHOP_FAULT = 1 ∨
    s.get Reg.MTR_LADDER_VIN_HIGH = 1) → Runs (.chopperOn v) s fun t => t.spn = s.spn ∧
    t.get Reg.MTR_VMOT_VMOT = min v 0xFFFF ∧ FieldsKept s t [Reg.MTR_VMOT_VMOT] ∧ BytesKept s t) ∧
  (∀ (v : Nat) (s : State), v < 12800 → Runs (.chopperOff v) s fun t => t.get Reg.MTR_LADDER_CHOP = 0 ∧
    t.get Reg.MTR_VMOT_VMOT = v ∧ FieldsKept s t [Reg.MTR_LADDER_CHOP, Reg.MTR_VMOT_VMOT] ∧ BytesKept s t) ∧
  (∀ (v : Nat) (s : State), 12800 ≤ v → Runs (.chopperOff v) s fun t =>
    t.get Reg.MTR_VMOT_VMOT = min v 0xFFFF ∧ FieldsKept s t [Reg.MTR_VMOT_VMOT] ∧ BytesKept s t) ∧
  (∀ (v : Nat) (s : State), v < 1000 → s.get Reg.MTR_LADDER_CHOP = 1 → s.get Reg.MTR_LADDER_CHOP_FAULT = 0 →
    Runs (.chopperFault false v) s fun t => t.get Reg.MTR_LADDER_CHOP_FAULT = 1 ∧
      t.get Reg.MTR_LADDER_CF_CAUSE = 1 ∧ t.get Reg.MTR_LADDER_CHOP = 0 ∧
      EventFrame s t [Reg.MTR_LADDER_CHOP_FAULT, Reg.MTR_LADDER_CF_CAUSE, Reg.MTR_LADDER_CHOP]) ∧
  (∀ (v : Nat) (s : State), s.spn.vmotOn < v → s.get Reg.MTR_LADDER_CHOP = 1 → s.get Reg.MTR_LADDER_CHOP_FAULT = 0 →
    Runs (.chopperFault true v) s fun t => t.get Reg.MTR_LADDER_CHOP_FAULT = 1 ∧
      t.get Reg.MTR_LADDER_CF_CAUSE = 2 ∧ t.get Reg.MTR_LADDER_CHOP = 0 ∧ t.get Reg.MTR_VMOT_VMOT = min v 0xFFFF ∧
      EventFrame s t [Reg.MTR_LADDER_CHOP_FAULT, Reg.MTR_LADDER_CF_CAUSE, Reg.MTR_LADDER_CHOP, Reg.MTR_VMOT_VMOT]) ∧
  (∀ (v : Nat) (s : State), (1000 ≤ v ∨ s.get Reg.MTR_LADDER_CHOP = 0) → Runs (.chopperFault false v) s fun t => t = s) ∧
  (∀ (v : Nat) (s : State), v ≤ s.spn.vmotOn → s.get Reg.MTR_LADDER_CHOP = 1 → Runs (.chopperFault true v) s fun t =>
    t.get Reg.MTR_VMOT_VMOT = min v 0xFFFF ∧ FieldsKept s t [Reg.MTR_VMOT_VMOT] ∧ BytesKept s t) ∧
  (∀ (v : Nat) (s : State), s.get Reg.MTR_LADDER_CHOP = 0 → Runs (.chopperFault true v) s fun t => t = s) ∧
  (∀ (v : Nat) (s : State), 13800 ≤ v → s.get Reg.MTR_LADDER_CHOP_FAULT = 0 → s.spin ≠ 0 → s.spin ≠ 7 →
    Runs (.ladderShortBrake v) s fun t => t.spin = 6 ∧ t.spn.brake = 2 ∧ t.spn.step = 0 ∧ t.spn.spinUp = false ∧
      t.get Reg.MTR_LADDER_SHORT = 1 ∧ t.get Reg.MTR_LADDER_CF_CAUSE = 3 ∧ t.get Reg.MTR_LADDER_CHOP_FAULT = 1 ∧
      EventFrame s t [Reg.MTR_LADDER_CHOP_FAULT, Reg.MTR_LADDER_CF_CAUSE,
        Reg.MTR_LADDER_CHOP, Reg.MTR_VMOT_VMOT, Reg.MTR_LADDER_SHORT, Reg.MTR_SPN_STATUS_STATE]) ∧
  (∀ (v : Nat) (s : State), 13800 ≤ v → s.get Reg.MTR_LADDER_CHOP_FAULT = 1 → s.spin ≠ 0 → s.spin ≠ 7 →
    Runs (.ladderShortBrake v) s fun t => t.spin = 6 ∧ t.spn.brake = 2 ∧ t.get Reg.MTR_LADDER_SHORT = 1 ∧ BytesKept s t ∧
      FieldsKept s t [Reg.MTR_VMOT_VMOT, Reg.MTR_LADDER_SHORT, Reg.MTR_SPN_STATUS_STATE]) ∧
  (∀ (v : Nat) (s : State), 13800 ≤ v → s.get Reg.MTR_LADDER_CHOP_FAULT = 0 → (s.spin = 0 ∨ s.spin = 7) →
    Runs (.ladderShortBrake v) s fun t => t.spn = s.spn ∧ t.get Reg.MTR_LADDER_CF_CAUSE = 3 ∧
      t.get Reg.MTR_LADDER_CHOP_FAULT = 1 ∧ t.get Reg.MTR_LADDER_CHOP = 0 ∧
      EventFrame s t [Reg.MTR_LADDER_CHOP_FAULT, Reg.MTR_LADDER_CF_CAUSE, Reg.MTR_LADDER_CHOP, Reg.MTR_VMOT_VMOT]) ∧
  (∀ (v : Nat) (s : State), v < 13800 → Runs (.ladderShortBrake v) s fun t => t.get Reg.MTR_VMOT_VMOT = v ∧
    t.spn = s.spn ∧ FieldsKept s t [Reg.MTR_VMOT_VMOT] ∧ BytesKept s t) ∧
  (∀ (v : Nat) (s : State), 14400 ≤ v → Runs (.ovp v) s fun t => t.spin = 7 ∧
    t.get Reg.MTR_LADDER_OVP = 1 ∧ t.get Reg.MTR_LADDER_CHOP = 0 ∧ t.get Reg.MTR_SPN_STATUS_CAUSE = 3 ∧
    t.get Reg.MTR_OVP_CNT_COUNT = s.counted Reg.MTR_OVP_CNT_COUNT 1 ∧ t.spn.step = 0 ∧ t.spn.brake = 3 ∧
    t.spn.spinUp = false ∧ t.pwr.headsLoaded = false ∧
    (∀ a : Fin 4, s.fitted a.val = true → s.retState a.val ≠ 2 →
      hasBit (t.get Reg.MTR_RET_STATUS_CAUSE) (4 * a.val + 3) = true) ∧
    EventFrame s t [Reg.MTR_LADDER_OVP, Reg.MTR_LADDER_CHOP, Reg.MTR_OVP_CNT_COUNT, Reg.MTR_VMOT_VMOT,
      Reg.MTR_SPN_STATUS_STATE, Reg.MTR_SPN_STATUS_CAUSE, Reg.MTR_LADDER_SHORT, Reg.MTR_RET_STATUS_STATE,
      Reg.MTR_RET_STATUS_CAUSE, Reg.MTR_RET_CNT_COUNT]) ∧
  (∀ (v : Nat) (s : State), v < 14400 → Runs (.ovp v) s fun t => t.get Reg.MTR_VMOT_VMOT = v ∧
    t.spn = s.spn ∧ FieldsKept s t [Reg.MTR_VMOT_VMOT] ∧ BytesKept s t) ∧
  (∀ (vin vm : Nat) (s : State), vin ≤ 10400 → Runs (.vmotSwitchOpen vin vm) s fun t =>
    t.spn = { s.spn with switchOpen := true, vinFailed := true } ∧
    FieldsKept s t [Reg.MTR_VMOT_VIN, Reg.MTR_VMOT_VMOT] ∧ BytesKept s t) ∧
  (∀ (vin vm : Nat) (s : State), 10400 < vin → vin + 200 < vm → Runs (.vmotSwitchOpen vin vm) s fun t =>
    t.spn = { s.spn with switchOpen := true } ∧
    FieldsKept s t [Reg.MTR_VMOT_VIN, Reg.MTR_VMOT_VMOT] ∧ BytesKept s t) ∧
  (∀ (vin vm : Nat) (s : State), 10400 < vin → vm ≤ vin + 200 → Runs (.vmotSwitchOpen vin vm) s fun t =>
    t.spn = s.spn ∧ t.get Reg.MTR_VMOT_VIN = min vin 0xFFFF ∧ t.get Reg.MTR_VMOT_VMOT = min vm 0xFFFF ∧
    FieldsKept s t [Reg.MTR_VMOT_VIN, Reg.MTR_VMOT_VMOT] ∧ BytesKept s t) ∧
  (∀ (vin vm : Nat) (s : State), s.spn.vinFailed = false → vm + 100 < vin → Runs (.vmotSwitchClose vin vm) s fun t =>
    t.spn = { s.spn with switchOpen := false } ∧ FieldsKept s t [Reg.MTR_VMOT_VIN, Reg.MTR_VMOT_VMOT] ∧
    BytesKept s t) ∧
  (∀ (vin vm : Nat) (s : State), (s.spn.vinFailed = true ∨ vin ≤ vm + 100) → Runs (.vmotSwitchClose vin vm) s fun t =>
    t.spn = s.spn ∧ t.get Reg.MTR_VMOT_VIN = min vin 0xFFFF ∧ t.get Reg.MTR_VMOT_VMOT = min vm 0xFFFF ∧
    FieldsKept s t [Reg.MTR_VMOT_VIN, Reg.MTR_VMOT_VMOT] ∧ BytesKept s t) ∧
  (∀ (v : Nat) (s : State), 13200 < v → Runs (.vinHigh v) s fun t => t.get Reg.MTR_LADDER_VIN_HIGH = 1 ∧
    t.get Reg.MTR_LADDER_CHOP = 0 ∧ t.get Reg.MTR_VMOT_VIN = min v 0xFFFF ∧ BytesKept s t ∧
    FieldsKept s t [Reg.MTR_LADDER_VIN_HIGH, Reg.MTR_LADDER_CHOP, Reg.MTR_VMOT_VIN]) ∧
  (∀ (v : Nat) (s : State), v ≤ 13200 → Runs (.vinHigh v) s fun t => t.get Reg.MTR_VMOT_VIN = v ∧ BytesKept s t ∧
    FieldsKept s t [Reg.MTR_VMOT_VIN]) ∧
  (∀ (v : Nat) (s : State), v ≤ 13200 → Runs (.vinHighRelease v) s fun t => t.get Reg.MTR_LADDER_VIN_HIGH = 0 ∧
    t.get Reg.MTR_VMOT_VIN = v ∧ BytesKept s t ∧ FieldsKept s t [Reg.MTR_LADDER_VIN_HIGH, Reg.MTR_VMOT_VIN]) ∧
  (∀ (v : Nat) (s : State), 13200 < v → Runs (.vinHighRelease v) s fun t => t.get Reg.MTR_VMOT_VIN = min v 0xFFFF ∧
    BytesKept s t ∧ FieldsKept s t [Reg.MTR_VMOT_VIN])

/-- The oldest command loads its driver register while the power die's clock runs, its actuator is fitted and under command and, for the
VCM, enabled; otherwise it is dropped; the bridge of an enabled VCM carries that current. A STOP message and a write of MTR_RET_CMD retract
every fitted actuator they name, with their cause bits, its micro registers cleared and its bridge at RET_V towards the ramp; a retract in
progress only takes the cause. RETRACT_DONE parks and turns the bridge off; a parked actuator is released by a write of PARKED with its
causes cleared, and refused with code 6 on a VIN fail or while it still retracts. A message of the other kind at the front waits. -/
def Obligations.DriversAndRetract : Prop :=
  (∀ (a : Fin 4) (o : Nat) (c : Int) (r : List (Nat × Nat × Int)) (s : State), s.spn.d2d = (a.val, o, c) :: r → o < 12 →
    s.clkOk 32 = true → s.fitted a.val = true → s.retState a.val = 0 → Runs .driverCommand s fun t => t.spn.d2d = r ∧
      SMap.get t.spn.drv 0 (16 * a.val + o) = c ∧
      (hasBit (s.get (Reg.MTR_MA_EN_EN a.val)) o = true → t.microOut a.val o = c) ∧ FieldsKept s t [] ∧ BytesKept s t) ∧
  (∀ (a : Fin 4) (c : Int) (r : List (Nat × Nat × Int)) (s : State), s.spn.d2d = (a.val, 12, c) :: r →
    s.clkOk 32 = true → s.fitted a.val = true → s.retState a.val = 0 →
    hasBit (s.get Reg.MTR_DRV_CTL_VCM_EN) a.val = true → Runs .driverCommand s fun t => t.spn.d2d = r ∧
      SMap.get t.spn.drv 0 (16 * a.val + 12) = c ∧
      t.coil a.val = .current (c * fullScale (s.get Reg.MTR_DRV_CTL_FS) a.val) ∧ FieldsKept s t [] ∧ BytesKept s t) ∧
  (∀ (a o : Nat) (c : Int) (r : List (Nat × Nat × Int)) (s : State), s.spn.d2d = (a, o, c) :: r → o ≠ 13 →
    s.clkOk 32 = true → (s.fitted a = false ∨ s.retState a ≠ 0 ∨
      (o = 12 ∧ hasBit (s.get Reg.MTR_DRV_CTL_VCM_EN) a = false)) → Runs .driverCommand s fun t =>
      t.spn = { s.spn with d2d := r } ∧ FieldsKept s t [] ∧ BytesKept s t) ∧
  (∀ s : State, (s.clkOk 32 = false ∨ s.spn.d2d = [] ∨ s.spn.d2d.head?.any (fun x => x.2.1 == 13) = true) →
    Runs .driverCommand s fun t => t = s) ∧
  (∀ (a : Fin 4) (c : Int) (r : List (Nat × Nat × Int)) (s : State), s.spn.d2d = (a.val, 13, c) :: r →
    s.clkOk 32 = true → s.fitted a.val = true → s.retState a.val = 0 → Runs .stopMessage s fun t => t.spn.d2d = r ∧
      t.retState a.val = 1 ∧ hasBit (t.get Reg.MTR_RET_STATUS_CAUSE) (4 * a.val + 1) = true ∧
      (∀ h : Fin 12, SMap.get t.spn.drv 0 (16 * a.val + h.val) = 0) ∧ (∀ h : Fin 12, t.microOut a.val h.val = 0) ∧
      SMap.get t.spn.drv 0 (16 * a.val + 12) = SMap.get s.spn.drv 0 (16 * a.val + 12) ∧
      t.coil a.val = .volts (s.get Reg.MTR_RET_CTL_RET_V) (s.flag Reg.MTR_RET_CTL_DIR_OD) ∧
      t.get Reg.MTR_RET_CNT_COUNT = s.counted Reg.MTR_RET_CNT_COUNT 1 ∧ BytesKept s t ∧
      FieldsKept s t [Reg.MTR_RET_STATUS_STATE, Reg.MTR_RET_STATUS_CAUSE, Reg.MTR_RET_CNT_COUNT]) ∧
  (∀ (a : Nat) (c : Int) (r : List (Nat × Nat × Int)) (s : State), s.spn.d2d = (a, 13, c) :: r →
    s.clkOk 32 = true → s.fitted a = false → Runs .stopMessage s fun t => t.spn = { s.spn with d2d := r } ∧
      FieldsKept s t [] ∧ BytesKept s t) ∧
  (∀ s : State, (s.clkOk 32 = false ∨ s.spn.d2d = [] ∨ s.spn.d2d.head?.any (fun x => x.2.1 != 13) = true) →
    Runs .stopMessage s fun t => t = s) ∧
  (∀ (v : Word) (s : State), Runs (.retractCmd v) s fun t =>
    (∀ a : Fin 4, hasBit v.toNat a.val = true → s.fitted a.val = true →
      hasBit (t.get Reg.MTR_RET_STATUS_CAUSE) (4 * a.val + 3) = true ∧
      t.retState a.val = (if s.retState a.val = 0 then 1 else s.retState a.val)) ∧
    (∀ a : Fin 4, (hasBit v.toNat a.val && s.fitted a.val) = false → t.retState a.val = s.retState a.val ∧
      ∀ h : Fin 16, SMap.get t.spn.drv 0 (16 * a.val + h.val) = SMap.get s.spn.drv 0 (16 * a.val + h.val)) ∧
    BytesKept s t ∧ FieldsKept s t [Reg.MTR_RET_STATUS_STATE, Reg.MTR_RET_STATUS_CAUSE, Reg.MTR_RET_CNT_COUNT]) ∧
  (∀ (a : Fin 4) (s : State), s.retState a.val = 1 → Runs (.retractDone a) s fun t => t.retState a.val = 2 ∧
    t.coil a.val = .off ∧ hasBit (t.get Reg.MTR_RET_STATUS_PARKED) a.val = true ∧ t.spn = s.spn ∧ BytesKept s t ∧
    FieldsKept s t [Reg.MTR_RET_STATUS_STATE, Reg.MTR_RET_STATUS_PARKED]) ∧
  (∀ (a : Fin 4) (s : State), s.retState a.val ≠ 1 → Runs (.retractDone a) s fun t => t = s) ∧
  (∀ (v : Word) (s : State), s.get Reg.SPT_STATUS_FAIL = 0 → Runs (.parkedClear v) s fun t =>
    (∀ a : Fin 4, hasBit v.toNat (8 + a.val) = true → s.retState a.val = 2 → t.retState a.val = 0 ∧
      hasBit (t.get Reg.MTR_RET_STATUS_PARKED) a.val = false ∧
      t.get Reg.MTR_RET_STATUS_CAUSE / 16 ^ a.val % 16 = 0) ∧
    (∀ a : Fin 4, (hasBit v.toNat (8 + a.val) = false ∨ s.retState a.val ≠ 2) → t.retState a.val = s.retState a.val ∧
      hasBit (t.get Reg.MTR_RET_STATUS_PARKED) a.val = hasBit (s.get Reg.MTR_RET_STATUS_PARKED) a.val ∧
      t.get Reg.MTR_RET_STATUS_CAUSE / 16 ^ a.val % 16 = s.get Reg.MTR_RET_STATUS_CAUSE / 16 ^ a.val % 16) ∧
    (∀ a : Fin 4, hasBit v.toNat (8 + a.val) = true → s.retState a.val = 1 → s.get Reg.MTR_CFG_STATUS_ERR = 0 →
      t.get Reg.MTR_CFG_STATUS_CODE = 6) ∧
    t.spn = s.spn ∧ BytesKept s t ∧ FieldsKept s t [Reg.MTR_RET_STATUS_STATE, Reg.MTR_RET_STATUS_PARKED,
      Reg.MTR_RET_STATUS_CAUSE, Reg.MTR_CFG_STATUS_ERR, Reg.MTR_CFG_STATUS_CODE]) ∧
  (∀ (v : Word) (s : State), bits v.toNat 11 8 ≠ 0 → s.get Reg.SPT_STATUS_FAIL = 1 → s.get Reg.MTR_CFG_STATUS_ERR = 0 →
    Runs (.parkedClear v) s fun t => t.get Reg.MTR_CFG_STATUS_ERR = 1 ∧ t.get Reg.MTR_CFG_STATUS_CODE = 6 ∧
      t.spn = s.spn ∧ BytesKept s t ∧ FieldsKept s t [Reg.MTR_CFG_STATUS_ERR, Reg.MTR_CFG_STATUS_CODE])

/-- VIN_WARN below 11.0 V raises WARN, interrupts the real-time core with line 6, makes the warn source a cause of every slot and records an
event; a self-test in its draw is abandoned for a retry, with its recharge. Its release above 11.4 V clears it where no fail holds. VIN_FAIL
below 10.4 V after step 1 sets FAIL and WARN, stops taking window entries, holds VHOLD, opens the switch, retracts every fitted actuator with
cause 0, brakes the spindle in coast (short where the ladder has it), bypasses the ring, switches the device and every domain off with the
buffer's contents lost, and begins the save from step 9 on. VHOLD_RESTORE, after the off interval or a collapse, clears both flags. Outside
their thresholds the first three only record VIN. -/
def Obligations.Supplies : Prop :=
  (∀ (v : Nat) (s : State), v < 11000 → s.get Reg.SPT_STATUS_WARN = 0 → s.spt.test ≠ .drawing → Runs (.vinWarn v) s fun t =>
    t.get Reg.SPT_STATUS_WARN = 1 ∧ t.get Reg.MTR_VMOT_VIN = v ∧ t.spt = s.spt ∧ t.slots = s.slots ∧
    (∀ i : Fin 16, hasBit (t.get (Reg.CHN_WR_CAUSE_CAUSE i.val)) 3 = true) ∧ t.out.contains (.rtInterrupt 6) = true ∧
    EventFrame s t ([Reg.SPT_STATUS_WARN, Reg.MTR_VMOT_VIN] ++ (List.range 16).map Reg.CHN_WR_CAUSE_CAUSE)) ∧
  (∀ (v : Nat) (s : State), v < 11000 → s.get Reg.SPT_STATUS_WARN = 0 → s.spt.test = .drawing → Runs (.vinWarn v) s fun t =>
    t.get Reg.SPT_STATUS_WARN = 1 ∧ t.spt.test = .recharging ∧ t.spt.retry = true ∧
    31000 ≤ t.get Reg.SPT_VSTORE_VSTORE ∧ t.get Reg.SPT_VSTORE_VSTORE ≤ 33000 ∧
    (∀ i : Fin 16, hasBit (t.get (Reg.CHN_WR_CAUSE_CAUSE i.val)) 3 = true) ∧ t.out.contains (.rtInterrupt 6) = true) ∧
  (∀ (v : Nat) (s : State), (11000 ≤ v ∨ s.get Reg.SPT_STATUS_WARN = 1) → Runs (.vinWarn v) s fun t =>
    t.get Reg.MTR_VMOT_VIN = min v 0xFFFF ∧ t.spt = s.spt ∧ FieldsKept s t [Reg.MTR_VMOT_VIN] ∧ BytesKept s t) ∧
  (∀ (v : Nat) (s : State), 11400 < v → s.get Reg.SPT_STATUS_FAIL = 0 → Runs (.vinWarnRelease v) s fun t =>
    t.get Reg.SPT_STATUS_WARN = 0 ∧ t.get Reg.MTR_VMOT_VIN = min v 0xFFFF ∧ BytesKept s t ∧
    FieldsKept s t [Reg.SPT_STATUS_WARN, Reg.MTR_VMOT_VIN]) ∧
  (∀ (v : Nat) (s : State), (v ≤ 11400 ∨ s.get Reg.SPT_STATUS_FAIL = 1) → Runs (.vinWarnRelease v) s fun t =>
    t.get Reg.MTR_VMOT_VIN = min v 0xFFFF ∧ BytesKept s t ∧ FieldsKept s t [Reg.MTR_VMOT_VIN]) ∧
  (∀ (v : Nat) (s : State), v < 10400 → 1 ≤ s.pwr.step → s.get Reg.SPT_STATUS_FAIL = 0 → Runs (.vinFail v) s fun t =>
    t.get Reg.SPT_STATUS_FAIL = 1 ∧ t.get Reg.SPT_STATUS_WARN = 1 ∧ t.get Reg.SPT_STATUS_TESTING = 0 ∧
    t.pwr.dev = .off ∧ t.spt.taking = false ∧ t.spt.vhold = .held ∧ t.spt.test = .idle ∧ t.spn.switchOpen = true ∧
    (∀ a : Fin 4, s.fitted a.val = true → hasBit (t.get Reg.MTR_RET_STATUS_CAUSE) (4 * a.val) = true ∧
      t.retState a.val ≠ 0) ∧ t.pwr.headsLoaded = false ∧
    t.spin = 6 ∧ t.spn.brake = (if s.get Reg.MTR_LADDER_SHORT = 0 then 0 else 2) ∧ t.get Reg.RING_STATUS_SWITCH = 0 ∧
    (∀ d : Fin 96, t.domSt d.val = .off) ∧ (∀ a, t.byte a = 0) ∧
    t.spt.saving = (s.spt.saving || decide (9 ≤ s.pwr.step))) ∧
  (∀ (v : Nat) (s : State), (10400 ≤ v ∨ s.pwr.step = 0 ∨ s.get Reg.SPT_STATUS_FAIL = 1) → Runs (.vinFail v) s fun t =>
    t.get Reg.MTR_VMOT_VIN = min v 0xFFFF ∧ t.spt = s.spt ∧ FieldsKept s t [Reg.MTR_VMOT_VIN] ∧ BytesKept s t) ∧
  (∀ s : State, (s.spt.vhold = .off ∨ s.spt.vhold = .collapsed) → Runs .vholdRestore s fun t =>
    t.spt = { s.spt with vhold := .follows } ∧
    t.get Reg.SPT_STATUS_FAIL = 0 ∧ t.get Reg.SPT_STATUS_WARN = 0 ∧ BytesKept s t ∧
    FieldsKept s t [Reg.SPT_STATUS_FAIL, Reg.SPT_STATUS_WARN]) ∧
  (∀ s : State, s.spt.vhold ≠ .off → s.spt.vhold ≠ .collapsed → Runs .vholdRestore s fun t => t = s)

/-- SAVE_BEGIN freezes the journal and window and writes a header with the window and journal as they stand into the area that the rules
name, with the save-key record of every range that holds a window entry, and once more freezes the metadata with its contents; a third one
does nothing. SAVE_COMMIT completes the area with its duration and VSTORE, ends the save and, after a VIN fail, turns VHOLD off; the metadata
part is written first where it has not been. SAVE_INCOMPLETE leaves the chunks written, VHOLD collapsed and VSTORE at 11 V. Without a save
only a commit after a VIN fail has an effect: VHOLD off. No byte of the buffer changes. -/
def Obligations.Saves : Prop :=
  (∀ s : State, s.spt.saving = true → s.spt.frozenJW = false → Runs .saveBegin s fun t =>
    t.spt.frozenJW = true ∧ t.spt.into = s.saveArea ∧ SMap.look t.spt.areas s.saveArea = some s.saveHeader ∧
    s.saveHeader.complete = false ∧ s.saveHeader.chunks = 0 ∧ s.saveHeader.journal = s.spt.journal ∧
    s.saveHeader.window = s.spt.window ∧
    s.saveHeader.winBytes = 4128 * s.spt.window.foldl (fun m e => max m (e.1 + 1)) 0 ∧
    SMap.look t.spt.areas (1 - s.saveArea) = SMap.look s.spt.areas (1 - s.saveArea) ∧
    s.spt.window.all (fun e => ((SMap.look t.sec.saveKeys s.saveHeader.seq).bind (fun m =>
      SMap.look m (s.rangeOf e.2.nsid e.2.lba))) == some (s.range (s.rangeOf e.2.nsid e.2.lba)).key) = true ∧
    FieldsKept s t [] ∧ BytesKept s t) ∧
  (∀ (a : SaveArea) (s : State), s.spt.saving = true → s.spt.frozenJW = true → s.spt.frozenMeta = false →
    SMap.look s.spt.areas s.spt.into = some a → Runs .saveBegin s fun t => t.spt.frozenMeta = true ∧
      SMap.look t.spt.areas s.spt.into = some { a with metaBytes := s.spt.metaBytes, tail := s.evr.tail, del := s.spt.del, delLost := s.spt.delLost, failed := s.spt.failed, zones := s.spt.zones, bad := s.badChunks a.winBytes } ∧
      FieldsKept s t [] ∧ BytesKept s t) ∧
  (∀ s : State, (s.spt.saving = false ∨ (s.spt.frozenJW = true ∧ s.spt.frozenMeta = true)) →
    Runs .saveBegin s fun t => t = s) ∧
  (∀ (ms v : Nat) (a : SaveArea) (s : State), s.spt.saving = true → s.spt.frozenJW = true → s.spt.frozenMeta = true →
    SMap.look s.spt.areas s.spt.into = some a → Runs (.saveCommit ms v) s fun t =>
      t.spt.saving = false ∧ t.spt.vhold = (if s.get Reg.SPT_STATUS_FAIL = 0 then s.spt.vhold else .off) ∧
      SMap.look t.spt.areas s.spt.into = some { a with complete := true, ms := ms, vstore := v, chunks := 64 + winChunks a.winBytes } ∧
      FieldsKept s t [] ∧ BytesKept s t) ∧
  (∀ (ms v : Nat) (a : SaveArea) (s : State), s.spt.saving = true → s.spt.frozenJW = true → s.spt.frozenMeta = false →
    SMap.look s.spt.areas s.spt.into = some a → Runs (.saveCommit ms v) s fun t =>
      t.spt.saving = false ∧ t.spt.frozenMeta = true ∧
      t.spt.vhold = (if s.get Reg.SPT_STATUS_FAIL = 0 then s.spt.vhold else .off) ∧
      SMap.look t.spt.areas s.spt.into = some { a with complete := true, ms := ms, vstore := v, chunks := 64 + winChunks a.winBytes, metaBytes := s.spt.metaBytes, tail := s.evr.tail, del := s.spt.del, delLost := s.spt.delLost, failed := s.spt.failed, zones := s.spt.zones, bad := s.badChunks a.winBytes } ∧
      FieldsKept s t [] ∧ BytesKept s t) ∧
  (∀ (ms v : Nat) (s : State), s.spt.saving = false → s.get Reg.SPT_STATUS_FAIL = 1 → Runs (.saveCommit ms v) s fun t =>
    t.spt = { s.spt with vhold := .off } ∧ FieldsKept s t [] ∧ BytesKept s t) ∧
  (∀ (ms v : Nat) (s : State), (s.spt.saving = false ∧ s.get Reg.SPT_STATUS_FAIL = 0 ∨
    s.spt.saving = true ∧ s.spt.frozenJW = false) → Runs (.saveCommit ms v) s fun t => t = s) ∧
  (∀ (c : Nat) (a : SaveArea) (s : State), s.spt.saving = true → s.spt.frozenJW = true →
    SMap.look s.spt.areas s.spt.into = some a → Runs (.saveIncomplete c) s fun t =>
      t.spt.saving = false ∧ t.spt.vhold = .collapsed ∧ t.get Reg.SPT_VSTORE_VSTORE = 11000 ∧
      SMap.look t.spt.areas s.spt.into = some { a with chunks := min c (64 + winChunks a.winBytes) } ∧
      FieldsKept s t [Reg.SPT_VSTORE_VSTORE] ∧ BytesKept s t) ∧
  (∀ (c : Nat) (s : State), s.spt.saving = true → s.spt.frozenJW = false → Runs (.saveIncomplete c) s fun t =>
    t.spt.saving = false ∧ t.spt.vhold = .collapsed ∧ t.spt.areas = s.spt.areas ∧
    t.get Reg.SPT_VSTORE_VSTORE = 11000 ∧ FieldsKept s t [Reg.SPT_VSTORE_VSTORE] ∧ BytesKept s t) ∧
  (∀ (c : Nat) (s : State), s.spt.saving = false → Runs (.saveIncomplete c) s fun t => t = s)

/-- VSTORE is recorded from 29.7 V on, at 33 V a recharge ends; a self-test starts when VSTORE first reaches 33 V and later where VSTORE stands
there, without a warn or fail; its end records the measurement, the count of tests, its result and the recharge, a failed one with the count of failures; a draw timeout likewise, with the spec's 10 mF and a VSTORE of 31 to 33 V; a charge timeout fails the test; a retry starts it again.
TEST, RELEASE and RETRY_HELD written to SPT_CTL with legal settings do their work: the test starts, the restored areas and their keys are
erased, every held entry waits to be written again after those that wait, in ascending SEQ; a rejected write has code 1 to 4 and no effect. -/
def Obligations.SelfTest : Prop :=
  (∀ (v : Nat) (s : State), 29700 ≤ v → v < 33000 → Runs (.vstoreArmed v) s fun t => t.get Reg.SPT_VSTORE_VSTORE = v ∧
    t.spt = s.spt ∧ FieldsKept s t [Reg.SPT_VSTORE_VSTORE] ∧ BytesKept s t) ∧
  (∀ (v : Nat) (s : State), 33000 ≤ v → v ≤ 0xFFFF → s.spt.test = .recharging → Runs (.vstoreArmed v) s fun t =>
    t.get Reg.SPT_VSTORE_VSTORE = v ∧ t.get Reg.SPT_STATUS_TESTING = 0 ∧
    t.spt = { s.spt with full := true, test := .idle } ∧
    FieldsKept s t [Reg.SPT_VSTORE_VSTORE, Reg.SPT_STATUS_TESTING] ∧ BytesKept s t) ∧
  (∀ (v : Nat) (s : State), 33000 ≤ v → s.spt.test ≠ .recharging → Runs (.vstoreArmed v) s fun t =>
    t.get Reg.SPT_VSTORE_VSTORE = min v 0xFFFF ∧ t.spt = { s.spt with full := true } ∧
    FieldsKept s t [Reg.SPT_VSTORE_VSTORE] ∧ BytesKept s t) ∧
  (∀ (v : Nat) (s : State), v < 29700 → Runs (.vstoreArmed v) s fun t => t = s) ∧
  (∀ s : State, s.spt.full = false → s.get Reg.SPT_STATUS_WARN = 0 → s.get Reg.SPT_STATUS_FAIL = 0 → s.spt.test = .idle →
    Runs .selfTestStart s fun t => t.spt.test = .drawing ∧ t.spt.full = true ∧ t.get Reg.SPT_STATUS_TESTING = 1 ∧
      t.get Reg.SPT_VSTORE_VSTORE = 33000 ∧ FieldsKept s t [Reg.SPT_STATUS_TESTING, Reg.SPT_VSTORE_VSTORE] ∧
      BytesKept s t) ∧
  (∀ s : State, s.spt.full = true → 33000 ≤ s.get Reg.SPT_VSTORE_VSTORE → s.get Reg.SPT_STATUS_WARN = 0 →
    s.get Reg.SPT_STATUS_FAIL = 0 → s.spt.test = .idle → Runs .selfTestStart s fun t => t.spt.test = .drawing ∧
      t.spt.retry = false ∧ t.get Reg.SPT_STATUS_TESTING = 1 ∧ FieldsKept s t [Reg.SPT_STATUS_TESTING] ∧
      BytesKept s t) ∧
  (∀ s : State, s.spt.full = true → (s.get Reg.SPT_VSTORE_VSTORE < 33000 ∨ s.get Reg.SPT_STATUS_WARN = 1 ∨
    s.get Reg.SPT_STATUS_FAIL = 1 ∨ s.spt.test ≠ .idle) → Runs .selfTestStart s fun t => t = s) ∧
  (∀ (n : Nat) (s : State), s.spt.test = .drawing → n ≤ 5000000 → 1 ≤ capWindow n → Runs (.selfTestDone n) s fun t =>
    t.spt.test = .recharging ∧ t.spt.passed = true ∧ t.spt.capTicks = n ∧ t.get Reg.SPT_CAP_VALID = 1 ∧
    t.get Reg.SPT_TESTS_COUNT = s.counted Reg.SPT_TESTS_COUNT 1 ∧
    min (n / 500) 0xFFFF ≤ t.get Reg.SPT_CAP_CAP ∧ t.get Reg.SPT_CAP_CAP ≤ min (n / 500 + 1) 0xFFFF ∧
    t.get Reg.SPT_STATUS_TEST_FAIL = 0 ∧ t.get Reg.SPT_VSTORE_VSTORE = 31000 ∧
    (capWindow s.spt.capTicks ≤ capWindow n → BytesKept s t ∧ FieldsKept s t [Reg.SPT_CAP_VALID, Reg.SPT_CAP_CAP,
      Reg.SPT_TESTS_COUNT, Reg.SPT_STATUS_TEST_FAIL, Reg.SPT_VSTORE_VSTORE])) ∧
  (∀ (n : Nat) (s : State), s.spt.test = .drawing → n ≤ 5000000 → capWindow n = 0 → Runs (.selfTestDone n) s fun t =>
    t.spt.test = .recharging ∧ t.spt.passed = false ∧ t.spt.capTicks = n ∧ t.get Reg.SPT_CAP_VALID = 1 ∧
    t.get Reg.SPT_STATUS_TEST_FAIL = 1 ∧ t.get Reg.SPT_TESTS_COUNT = s.counted Reg.SPT_TESTS_COUNT 1 ∧
    t.get Reg.SPT_TEST_FAILS_COUNT = s.counted Reg.SPT_TEST_FAILS_COUNT 1 ∧ t.get Reg.SPT_VSTORE_VSTORE = 31000) ∧
  (∀ (n : Nat) (s : State), (s.spt.test ≠ .drawing ∨ 5000000 < n) → Runs (.selfTestDone n) s fun t => t = s) ∧
  (∀ s : State, s.spt.test = .drawing → Runs .selfTestDrawTimeout s fun t => t.spt.test = .recharging ∧
    t.spt.capTicks = 5000000 ∧ t.spt.passed = true ∧ t.get Reg.SPT_CAP_VALID = 1 ∧
    t.get Reg.SPT_TESTS_COUNT = s.counted Reg.SPT_TESTS_COUNT 1 ∧ t.get Reg.SPT_CAP_CAP = 10000 ∧
    31000 ≤ t.get Reg.SPT_VSTORE_VSTORE ∧ t.get Reg.SPT_VSTORE_VSTORE ≤ 33000) ∧
  (∀ s : State, s.spt.test ≠ .drawing → Runs .selfTestDrawTimeout s fun t => t = s) ∧
  (∀ s : State, s.spt.retry = true → s.get Reg.SPT_STATUS_WARN = 0 → s.get Reg.SPT_STATUS_FAIL = 0 →
    s.spt.test = .idle → 33000 ≤ s.get Reg.SPT_VSTORE_VSTORE → Runs .selfTestRetry s fun t =>
      t.spt.test = .drawing ∧ t.spt.retry = false ∧ t.get Reg.SPT_STATUS_TESTING = 1 ∧
      FieldsKept s t [Reg.SPT_STATUS_TESTING] ∧ BytesKept s t) ∧
  (∀ s : State, (s.spt.retry = false ∨ s.get Reg.SPT_STATUS_WARN = 1 ∨ s.get Reg.SPT_STATUS_FAIL = 1 ∨
    s.spt.test ≠ .idle ∨ s.get Reg.SPT_VSTORE_VSTORE < 33000) → Runs .selfTestRetry s fun t => t = s) ∧
  (∀ s : State, s.spt.full = false → Runs .chargeTimeout s fun t => t.spt.passed = false ∧
    t.get Reg.SPT_STATUS_TEST_FAIL = 1 ∧
    t.get Reg.SPT_TEST_FAILS_COUNT = s.counted Reg.SPT_TEST_FAILS_COUNT 1) ∧
  (∀ s : State, s.spt.full = true → Runs .chargeTimeout s fun t => t = s) ∧
  (∀ s : State, 1 ≤ s.get Reg.SPT_CTL_PERIOD_H → s.get Reg.SPT_CTL_PERIOD_H ≤ 24 → 1 ≤ s.get Reg.SPT_CTL_WIN_LIMIT →
    s.get Reg.SPT_CTL_WIN_LIMIT ≤ 16 → s.get Reg.SPT_CTL_WIN_EN ≤ 1 → s.get Reg.SPT_STATUS_TESTING = 0 →
    s.get Reg.SPT_STATUS_WARN = 0 → s.get Reg.SPT_STATUS_FAIL = 0 → 33000 ≤ s.get Reg.SPT_VSTORE_VSTORE →
    s.spt.test = .idle → Runs .sptTest s fun t => t.spt.test = .drawing ∧ t.get Reg.SPT_STATUS_TESTING = 1 ∧
      FieldsKept s t [Reg.SPT_STATUS_TESTING] ∧ BytesKept s t) ∧
  (∀ s : State, 1 ≤ s.get Reg.SPT_CTL_PERIOD_H → s.get Reg.SPT_CTL_PERIOD_H ≤ 24 → 1 ≤ s.get Reg.SPT_CTL_WIN_LIMIT →
    s.get Reg.SPT_CTL_WIN_LIMIT ≤ 16 → s.get Reg.SPT_CTL_WIN_EN ≤ 1 → (s.get Reg.SPT_STATUS_TESTING = 1 ∨
    s.get Reg.SPT_STATUS_WARN = 1 ∨ s.get Reg.SPT_VSTORE_VSTORE < 33000) → s.get Reg.SPT_CFG_STATUS_ERR = 0 →
    Runs .sptTest s fun t => t.get Reg.SPT_CFG_STATUS_CODE = 3 ∧ t.spt = s.spt ∧ BytesKept s t ∧
      FieldsKept s t [Reg.SPT_CFG_STATUS_ERR, Reg.SPT_CFG_STATUS_CODE]) ∧
  (∀ s : State, 1 ≤ s.get Reg.SPT_CTL_PERIOD_H → s.get Reg.SPT_CTL_PERIOD_H ≤ 24 → 1 ≤ s.get Reg.SPT_CTL_WIN_LIMIT →
    s.get Reg.SPT_CTL_WIN_LIMIT ≤ 16 → s.get Reg.SPT_CTL_WIN_EN ≤ 1 → s.get Reg.SPT_STATUS_PENDING_REL = 1 →
    Runs .sptRelease s fun t => t.spt.restored = [] ∧ t.get Reg.SPT_STATUS_PENDING_REL = 0 ∧ t.sec.restKeys = [] ∧
      s.spt.restored.all (fun k => (SMap.look t.spt.areas k).isNone) = true ∧
      FieldsKept s t [Reg.SPT_STATUS_PENDING_REL] ∧ BytesKept s t) ∧
  (∀ s : State, 1 ≤ s.get Reg.SPT_CTL_PERIOD_H → s.get Reg.SPT_CTL_PERIOD_H ≤ 24 → 1 ≤ s.get Reg.SPT_CTL_WIN_LIMIT →
    s.get Reg.SPT_CTL_WIN_LIMIT ≤ 16 → s.get Reg.SPT_CTL_WIN_EN ≤ 1 → s.get Reg.SPT_STATUS_PENDING_REL = 0 →
    s.get Reg.SPT_CFG_STATUS_ERR = 0 → Runs .sptRelease s fun t => t.get Reg.SPT_CFG_STATUS_CODE = 4 ∧
      t.spt = s.spt ∧ BytesKept s t ∧ FieldsKept s t [Reg.SPT_CFG_STATUS_ERR, Reg.SPT_CFG_STATUS_CODE]) ∧
  (∀ s : State, 1 ≤ s.get Reg.SPT_CTL_PERIOD_H → s.get Reg.SPT_CTL_PERIOD_H ≤ 24 → 1 ≤ s.get Reg.SPT_CTL_WIN_LIMIT →
    s.get Reg.SPT_CTL_WIN_LIMIT ≤ 16 → s.get Reg.SPT_CTL_WIN_EN ≤ 1 → Runs .retryHeld s fun t =>
      t.spt.rewrite = s.spt.rewrite ++ winOrder (s.spt.window.filter (fun e => e.2.held && !s.spt.rewrite.contains e.1)) ∧
      FieldsKept s t [] ∧ BytesKept s t) ∧
  (∀ s : State, s.get Reg.SPT_CTL_PERIOD_H = 0 → s.get Reg.SPT_CFG_STATUS_ERR = 0 → Runs .retryHeld s fun t =>
    t.get Reg.SPT_CFG_STATUS_CODE = 1 ∧ t.spt = s.spt ∧ BytesKept s t ∧
    FieldsKept s t [Reg.SPT_CFG_STATUS_ERR, Reg.SPT_CFG_STATUS_CODE])

/-- A write of BUF_RES_c whose value is in range and whose sum with the other four stays within 368 stores it and leaves the
credit of the running round; the next round gives each class its credit from the stored values (floor of BUF_RES x 62.5
bursts). A write that would make the sum exceed 368 is rejected with code 5 and every reservation keeps its value. -/
def Obligations.ReservationWrites : Prop :=
  (∀ (r c : Fin 5) (v : Word) (s : State), s.busFails (0x40400010 + 4 * c.val) = false → 1 ≤ bits v.toNat 8 0 →
    ((List.range 5).map (fun j => if j = c.val then bits v.toNat 8 0 else s.get (Reg.BUF_RES_GBPS j))).sum ≤ 368 →
    Runs (.registerWrite r (0x40400010 + 4 * c.val) 4 v) s fun t =>
      t.get (Reg.BUF_RES_GBPS c.val) = bits v.toNat 8 0 ∧ t.buf.credit = s.buf.credit ∧
      FieldsKept s t [Reg.BUF_RES_GBPS c.val] ∧ BytesKept s t) ∧
  (∀ (r c : Fin 5) (v : Word) (s : State), s.busFails (0x40400010 + 4 * c.val) = false → 1 ≤ bits v.toNat 8 0 →
    bits v.toNat 8 0 ≤ 368 → s.get Reg.BUF_CFG_STATUS_ERR = 0 →
    368 < ((List.range 5).map (fun j => if j = c.val then bits v.toNat 8 0 else s.get (Reg.BUF_RES_GBPS j))).sum →
    Runs (.registerWrite r (0x40400010 + 4 * c.val) 4 v) s fun t => t.get Reg.BUF_CFG_STATUS_ERR = 1 ∧
      t.get Reg.BUF_CFG_STATUS_CODE = 5 ∧ FieldsKept s t [Reg.BUF_CFG_STATUS_ERR, Reg.BUF_CFG_STATUS_CODE] ∧
      BytesKept s t) ∧
  (∀ (r c : Fin 5) (v : Word) (s : State), s.busFails (0x40400010 + 4 * c.val) = false → 1 ≤ bits v.toNat 8 0 →
    bits v.toNat 8 0 ≤ 368 → s.get Reg.BUF_CFG_STATUS_ERR = 1 →
    368 < ((List.range 5).map (fun j => if j = c.val then bits v.toNat 8 0 else s.get (Reg.BUF_RES_GBPS j))).sum →
    Runs (.registerWrite r (0x40400010 + 4 * c.val) 4 v) s fun t => FieldsKept s t [] ∧ BytesKept s t) ∧
  (∀ (c : Fin 5) (s : State), Runs .arbitrationRound s fun t =>
    SMap.get t.buf.credit 0 c.val = s.get (Reg.BUF_RES_GBPS c.val) * 125 / 2 ∧ FieldsKept s t [] ∧ BytesKept s t)

/-- A read of a burst that nothing holds answers its 32 bytes where the check bytes are valid, and
changes no register; a single symbol error is corrected in place and counted; an uncorrectable burst answers an error, is
counted, and the first one is latched. Without the HBM a read answers an error. A read of a pseudo-channel under repair, or while the
stack's clock stands, waits without an answer, and the end of the repair answers it. A refresh changes no contents. The
temperature is recorded, HOT above 85. -/
def Obligations.BufferReads : Prop :=
  (∀ (c : BufClass) (n : Nat) (s : State), s.reqHeld ⟨classNum c, classPort c, false, 32 * n, 32, 0⟩ = false → s.hbmUp = true →
    rsDecode (s.burstErr n) = .clean → Runs (.hbmRead c n) s fun t =>
    t.resp = .block 32 (s.loadMem (32 * n) 32) ∧ t.chk = s.chk ∧ FieldsKept s t [] ∧ BytesKept s t) ∧
  (∀ (c : BufClass) (n i v : Nat) (s : State), s.reqHeld ⟨classNum c, classPort c, false, 32 * n, 32, 0⟩ = false →
    s.hbmUp = true → rsDecode (s.burstErr n) = .single i v → 4 ≤ i →
    Runs (.hbmRead c n) s fun t => t.resp = .block 32 (t.loadMem (32 * n) 32) ∧ t.burstErr n = 0 ∧
      (t.byte (32 * n + (35 - i))).toNat = ((s.byte (32 * n + (35 - i))).toNat ^^^ v) % 256 ∧
      t.get Reg.BUF_CE_CNT_COUNT = s.counted Reg.BUF_CE_CNT_COUNT 1 ∧ FieldsKept s t [Reg.BUF_CE_CNT_COUNT] ∧
      BytesKeptBut s t (32 * n + (35 - i)) 1) ∧
  (∀ (c : BufClass) (n i v : Nat) (s : State), s.reqHeld ⟨classNum c, classPort c, false, 32 * n, 32, 0⟩ = false →
    s.hbmUp = true → rsDecode (s.burstErr n) = .single i v → i < 4 →
    Runs (.hbmRead c n) s fun t => t.resp = .block 32 (s.loadMem (32 * n) 32) ∧ t.burstErr n = 0 ∧
      t.get Reg.BUF_CE_CNT_COUNT = s.counted Reg.BUF_CE_CNT_COUNT 1 ∧ FieldsKept s t [Reg.BUF_CE_CNT_COUNT] ∧
      BytesKept s t) ∧
  (∀ (c : BufClass) (n : Nat) (s : State), s.reqHeld ⟨classNum c, classPort c, false, 32 * n, 32, 0⟩ = false →
    s.hbmUp = true → rsDecode (s.burstErr n) = .bad → Runs (.hbmRead c n) s fun t => t.resp = .busError ∧
      t.get Reg.BUF_UE_CNT_COUNT = s.counted Reg.BUF_UE_CNT_COUNT 1 ∧
      (s.get Reg.BUF_UE_FIRST_VALID = 0 → t.get Reg.BUF_UE_FIRST_VALID = 1 ∧
        t.get Reg.BUF_UE_FIRST_BURST = n % 2 ^ Reg.BUF_UE_FIRST_BURST.width) ∧
      (s.get Reg.BUF_UE_FIRST_VALID = 1 → t.get Reg.BUF_UE_FIRST_BURST = s.get Reg.BUF_UE_FIRST_BURST) ∧
      FieldsKept s t [Reg.BUF_UE_FIRST_VALID, Reg.BUF_UE_FIRST_BURST, Reg.BUF_UE_CNT_COUNT] ∧ BytesKept s t) ∧
  (∀ (c : BufClass) (n : Nat) (s : State), s.reqHeld ⟨classNum c, classPort c, false, 32 * n, 32, 0⟩ = false →
    s.hbmUp = false → Runs (.hbmRead c n) s fun t => t.resp = .busError ∧
    FieldsKept s t [] ∧ BytesKept s t) ∧
  (∀ (c : BufClass) (n : Nat) (s : State), (s.clkOk 25 = false ∨ s.buf.ppr.any (fun x => pcOf x.2 == pcOf n) = true) →
    Runs (.hbmRead c n) s fun t => t.resp = s.resp ∧
      t.buf = { s.buf with waiting := s.buf.waiting ++ [⟨classNum c, classPort c, false, 32 * n, 32, 0⟩] } ∧
      FieldsKept s t [] ∧ BytesKept s t) ∧
  (∀ (f h : Bool) (c : BufClass) (n b : Nat) (s : State), s.buf.ppr = some (h, b) →
    s.buf.waiting = [⟨classNum c, classPort c, false, 32 * n, 32, 0⟩] → s.hbmUp = true → rsDecode (s.burstErr n) = .clean →
    Runs (.pprDone f) s fun t => t.resp = .block 32 (s.loadMem (32 * n) 32) ∧ t.buf.waiting = [] ∧ t.buf.ppr = none ∧
      FieldsKept s t [Reg.BUF_PPR_STATUS_BUSY, Reg.BUF_PPR_STATUS_DONE, Reg.BUF_PPR_STATUS_RESULT] ∧ BytesKept s t) ∧
  (∀ s : State, s.hbmUp = true → Runs .hbmRefresh s fun t => t.buf = { s.buf with refreshes := s.buf.refreshes + 1 } ∧
    FieldsKept s t [] ∧ BytesKept s t) ∧
  (∀ s : State, s.hbmUp = false → Runs .hbmRefresh s fun t => t = s) ∧
  (∀ (n : Nat) (s : State), Runs (.hbmHot n) s fun t => t.get Reg.BUF_STATUS_TEMP = min n 255 ∧
    t.get Reg.BUF_STATUS_HOT = b2n (decide (85 < n)) ∧ FieldsKept s t [Reg.BUF_STATUS_TEMP, Reg.BUF_STATUS_HOT] ∧
    BytesKept s t)

/-- Where the HBM answers, nothing holds the request and every burst that the write touches holds valid check bytes, a write of `len` bytes
at any address stores them, least significant byte at the lowest address, and changes no other byte and no register field. Where
a partly written burst is uncorrectable, the write within that burst answers an error, is counted, and stores nothing; without the HBM it
answers an error; on a pseudo-channel under repair, or while the stack's clock stands, it waits. -/
def Obligations.BufferWrites : Prop :=
  (∀ (c : BufClass) (addr len data : Nat) (s : State), s.reqHeld ⟨classNum c, classPort c, true, addr, len, data⟩ = false →
    s.hbmUp = true → (burstsOf addr len).all (fun n => s.burstErr n == 0) = true →
    Runs (.hbmPartialWrite c addr len data) s fun t => t.resp = .none ∧ t.loadMem addr len = data % 256 ^ len ∧
      BytesKeptBut s t addr len ∧ FieldsKept s t []) ∧
  (∀ (c : BufClass) (n o len data : Nat) (s : State),
    s.reqHeld ⟨classNum c, classPort c, true, 32 * n + o, len, data⟩ = false → s.hbmUp = true → 0 < len → o + len < 32 →
    rsDecode (s.burstErr n) = .bad → Runs (.hbmPartialWrite c (32 * n + o) len data) s fun t => t.resp = .busError ∧
      t.get Reg.BUF_UE_CNT_COUNT = s.counted Reg.BUF_UE_CNT_COUNT 1 ∧
      FieldsKept s t [Reg.BUF_UE_FIRST_VALID, Reg.BUF_UE_FIRST_BURST, Reg.BUF_UE_CNT_COUNT] ∧ BytesKept s t) ∧
  (∀ (c : BufClass) (n data : Nat) (s : State), s.reqHeld ⟨classNum c, classPort c, true, 32 * n, 32, data⟩ = false →
    s.hbmUp = true → Runs (.hbmPartialWrite c (32 * n) 32 data) s fun t => t.resp = .none ∧ t.burstErr n = 0 ∧
      t.loadMem (32 * n) 32 = data % 256 ^ 32 ∧ BytesKeptBut s t (32 * n) 32 ∧ FieldsKept s t []) ∧
  (∀ (c : BufClass) (addr len data : Nat) (s : State), s.reqHeld ⟨classNum c, classPort c, true, addr, len, data⟩ = false →
    s.hbmUp = false → Runs (.hbmPartialWrite c addr len data) s fun t => t.resp = .busError ∧
    FieldsKept s t [] ∧ BytesKept s t) ∧
  (∀ (c : BufClass) (addr len data : Nat) (s : State), s.reqHeld ⟨classNum c, classPort c, true, addr, len, data⟩ = true →
    Runs (.hbmPartialWrite c addr len data) s fun t => t.resp = s.resp ∧
      t.buf = { s.buf with waiting := s.buf.waiting ++ [⟨classNum c, classPort c, true, addr, len, data⟩] } ∧
      FieldsKept s t [] ∧ BytesKept s t)

/-- A keyed repair request in power state 1 or 2 starts when a resource is left (code 7 otherwise, 6 in another state, 4 while one runs) and
zeroes exactly the row's bursts; its end spends the resource unless it failed, with DONE and RESULT; without the key it is ignored. A raw
read takes the stored burst and its check bytes, which its end puts into the window; a raw write stores the window's 32 bytes and check
word at once; while BUSY a start is rejected with code 4, without the HBM with code 8. -/
def Obligations.RepairAndRaw : Prop :=
  (∀ (v : Word) (s : State), bits v.toNat 31 16 = 0x5A5A → hasBit v.toNat 0 = true → s.get Reg.BUF_CFG_STATUS_ERR = 0 →
    (s.get Reg.SYS_PWR_STATE_STATE = 1 ∨ s.get Reg.SYS_PWR_STATE_STATE = 2) → s.get Reg.BUF_PPR_STATUS_BUSY = 0 →
    Runs (.pprRequest v) s fun t => (if s.pprLeft (hasBit v.toNat 1) (s.get Reg.BUF_PPR_ROW_BURST) = 0 then
        t.get Reg.BUF_CFG_STATUS_CODE = 7 ∧ t.buf = s.buf ∧ BytesKept s t ∧
        FieldsKept s t [Reg.BUF_CFG_STATUS_ERR, Reg.BUF_CFG_STATUS_CODE]
      else t.get Reg.BUF_PPR_STATUS_BUSY = 1 ∧
        t.buf = { s.buf with ppr := some (hasBit v.toNat 1, s.get Reg.BUF_PPR_ROW_BURST) } ∧
        (∀ k ∈ rowBursts (s.get Reg.BUF_PPR_ROW_BURST), ∀ i : Fin 32, t.byte (32 * k + i.val) = 0) ∧
        (∀ a, a / 32 ∉ rowBursts (s.get Reg.BUF_PPR_ROW_BURST) → t.byte a = s.byte a) ∧
        FieldsKept s t [Reg.BUF_PPR_STATUS_BUSY])) ∧
  (∀ (v : Word) (s : State), bits v.toNat 31 16 = 0x5A5A → hasBit v.toNat 0 = true → s.get Reg.BUF_CFG_STATUS_ERR = 0 →
    s.get Reg.SYS_PWR_STATE_STATE ≠ 1 → s.get Reg.SYS_PWR_STATE_STATE ≠ 2 → Runs (.pprRequest v) s fun t =>
      t.get Reg.BUF_CFG_STATUS_CODE = 6 ∧ t.buf = s.buf ∧ BytesKept s t ∧
      FieldsKept s t [Reg.BUF_CFG_STATUS_ERR, Reg.BUF_CFG_STATUS_CODE]) ∧
  (∀ (v : Word) (s : State), bits v.toNat 31 16 = 0x5A5A → hasBit v.toNat 0 = true → s.get Reg.BUF_CFG_STATUS_ERR = 0 →
    (s.get Reg.SYS_PWR_STATE_STATE = 1 ∨ s.get Reg.SYS_PWR_STATE_STATE = 2) → s.get Reg.BUF_PPR_STATUS_BUSY = 1 →
    Runs (.pprRequest v) s fun t => t.get Reg.BUF_CFG_STATUS_CODE =
        (if s.pprLeft (hasBit v.toNat 1) (s.get Reg.BUF_PPR_ROW_BURST) = 0 then 7 else 4) ∧
      t.buf = s.buf ∧ BytesKept s t ∧ FieldsKept s t [Reg.BUF_CFG_STATUS_ERR, Reg.BUF_CFG_STATUS_CODE]) ∧
  (∀ (v : Word) (s : State), (bits v.toNat 31 16 ≠ 0x5A5A ∨ hasBit v.toNat 0 = false) →
    Runs (.pprRequest v) s fun t => t = s) ∧
  (∀ (f h : Bool) (n : Nat) (s : State), s.buf.ppr = some (h, n) → s.buf.waiting = [] → Runs (.pprDone f) s fun t =>
    t.buf.ppr = none ∧ t.get Reg.BUF_PPR_STATUS_BUSY = 0 ∧
    t.get Reg.BUF_PPR_STATUS_DONE = 1 ∧ t.get Reg.BUF_PPR_STATUS_RESULT = b2n f ∧
    SMap.get t.buf.pprHard 0 (bankOf n) = SMap.get s.buf.pprHard 0 (bankOf n) + b2n (h && !f) ∧
    SMap.get t.buf.pprSoft 0 (bankOf n) = SMap.get s.buf.pprSoft 0 (bankOf n) + b2n (!h && !f) ∧ BytesKept s t ∧
    FieldsKept s t [Reg.BUF_PPR_STATUS_BUSY, Reg.BUF_PPR_STATUS_DONE, Reg.BUF_PPR_STATUS_RESULT]) ∧
  (∀ (f : Bool) (s : State), s.buf.ppr = none → Runs (.pprDone f) s fun t => t = s) ∧
  (∀ (n : Nat) (s : State), s.hbmUp = true → s.get Reg.BUF_RAW_CTL_BUSY = 0 → s.get Reg.BUF_RAW_ADDR_BURST = n →
    Runs .rawRead s fun t => t.get Reg.BUF_RAW_CTL_BUSY = 1 ∧ t.buf.raw = .reading ∧
      t.buf.rawGot = (s.loadMem (32 * n) 32, rsCheckWord (s.burstBytes n) ^^^ s.burstErr n) ∧ BytesKept s t ∧
      FieldsKept s t [Reg.BUF_RAW_CTL_BUSY]) ∧
  (∀ (n : Nat) (s : State), s.hbmUp = true → s.get Reg.BUF_RAW_CTL_BUSY = 0 → s.get Reg.BUF_RAW_ADDR_BURST = n →
    Runs .rawWrite s fun t => t.get Reg.BUF_RAW_CTL_BUSY = 1 ∧ t.buf.raw = .writing ∧
      t.loadMem (32 * n) 32 = s.rawData % 256 ^ 32 ∧ BytesKeptBut s t (32 * n) 32 ∧
      t.burstErr n = (rsCheckWord (t.burstBytes n) ^^^ s.get Reg.BUF_RAW_CHECK_CHECK) ∧
      FieldsKept s t [Reg.BUF_RAW_CTL_BUSY]) ∧
  (∀ s : State, s.get Reg.BUF_RAW_CTL_BUSY = 1 → s.get Reg.BUF_CFG_STATUS_ERR = 0 → Runs .rawWrite s fun t =>
    t.get Reg.BUF_CFG_STATUS_CODE = 4 ∧ t.buf = s.buf ∧ BytesKept s t ∧
    FieldsKept s t [Reg.BUF_CFG_STATUS_ERR, Reg.BUF_CFG_STATUS_CODE]) ∧
  (∀ s : State, s.get Reg.BUF_RAW_CTL_BUSY = 0 → s.hbmUp = false → s.get Reg.BUF_CFG_STATUS_ERR = 0 → Runs .rawRead s fun t =>
    t.get Reg.BUF_CFG_STATUS_CODE = 8 ∧ t.buf = s.buf ∧ BytesKept s t ∧
    FieldsKept s t [Reg.BUF_CFG_STATUS_ERR, Reg.BUF_CFG_STATUS_CODE]) ∧
  (∀ s : State, s.buf.raw = .reading → Runs .rawOpDone s fun t =>
    (∀ i : Fin 8, t.get (Reg.BUF_RAW_DATA_DATA i.val) = s.buf.rawGot.1 / 2 ^ (32 * i.val) % 2 ^ 32) ∧
    t.get Reg.BUF_RAW_CHECK_CHECK = s.buf.rawGot.2 % 2 ^ 32 ∧
    t.get Reg.BUF_RAW_CTL_BUSY = 0 ∧ t.buf = { s.buf with raw := .idle } ∧ BytesKept s t ∧
    FieldsKept s t ((List.range 8).map Reg.BUF_RAW_DATA_DATA ++ [Reg.BUF_RAW_CHECK_CHECK, Reg.BUF_RAW_CTL_BUSY])) ∧
  (∀ s : State, s.buf.raw = .writing → Runs .rawOpDone s fun t =>
    t.get Reg.BUF_RAW_CTL_BUSY = 0 ∧ t.buf = { s.buf with raw := .idle } ∧ BytesKept s t ∧
    FieldsKept s t [Reg.BUF_RAW_CTL_BUSY]) ∧
  (∀ s : State, s.buf.raw = .idle → Runs .rawOpDone s fun t => t = s)

/-- A scrub of legal extent starts BUSY with its summary cleared; a length of 0, one beyond the device, an end beyond it, a running scrub
and an absent HBM are rejected with codes 1, 2, 3, 4 and 8. STOP ends it with DONE and STOPPED; its normal end corrects and counts a
correctable burst in its range, and counts and latches an uncorrectable one. A sweep starts likewise and corrects a stored word of one
inverted bit where its domain is on. An arm that is not refused takes its instance, a refused one sets REJ; the next write then inverts the
masked bits of its word. -/
def Obligations.ScrubAndFlip : Prop :=
  (∀ s : State, 1 ≤ s.get Reg.BUF_SCRUB_LEN_COUNT → s.get Reg.BUF_SCRUB_START_BURST + s.get Reg.BUF_SCRUB_LEN_COUNT ≤
    536870912 → s.get Reg.BUF_SCRUB_CTL_BUSY = 0 → s.hbmUp = true → Runs .scrubStart s fun t =>
      t.get Reg.BUF_SCRUB_CTL_BUSY = 1 ∧ t.get Reg.BUF_SCRUB_CTL_DONE = 0 ∧ t.get Reg.BUF_SCRUB_CTL_STOPPED = 0 ∧
      t.get Reg.BUF_SCRUB_CTL_TARGET = 0 ∧
      t.get Reg.BUF_SCRUB_CE_COUNT = 0 ∧ t.get Reg.BUF_SCRUB_UE_COUNT = 0 ∧ t.get Reg.BUF_SCRUB_FIRST_VALID = 0 ∧
      t.buf = { s.buf with scrubPos := s.get Reg.BUF_SCRUB_START_BURST, scrubSram := false, scrubLen := s.get Reg.BUF_SCRUB_LEN_COUNT } ∧
      BytesKept s t ∧ FieldsKept s t [Reg.BUF_SCRUB_CTL_TARGET, Reg.BUF_SCRUB_CTL_BUSY, Reg.BUF_SCRUB_CTL_DONE,
        Reg.BUF_SCRUB_CTL_STOPPED, Reg.BUF_SCRUB_CE_COUNT, Reg.BUF_SCRUB_UE_COUNT, Reg.BUF_SCRUB_FIRST_VALID,
        Reg.BUF_SCRUB_FIRST_WHERE]) ∧
  (∀ s : State, s.get Reg.BUF_CFG_STATUS_ERR = 0 → (s.get Reg.BUF_SCRUB_LEN_COUNT = 0 ∨
    536870912 < s.get Reg.BUF_SCRUB_START_BURST + s.get Reg.BUF_SCRUB_LEN_COUNT ∨ s.get Reg.BUF_SCRUB_CTL_BUSY = 1 ∨
    s.hbmUp = false) → Runs .scrubStart s fun t => t.get Reg.BUF_CFG_STATUS_CODE =
      (if s.get Reg.BUF_SCRUB_LEN_COUNT = 0 then 1 else if 536870912 < s.get Reg.BUF_SCRUB_LEN_COUNT then 2 else
        if 536870912 < s.get Reg.BUF_SCRUB_START_BURST + s.get Reg.BUF_SCRUB_LEN_COUNT then 3 else
        if s.get Reg.BUF_SCRUB_CTL_BUSY = 1 then 4 else 8) ∧
    t.buf = s.buf ∧ BytesKept s t ∧ FieldsKept s t [Reg.BUF_CFG_STATUS_ERR, Reg.BUF_CFG_STATUS_CODE]) ∧
  (∀ s : State, s.get Reg.BUF_SCRUB_CTL_BUSY = 0 → Runs .sramSweepStart s fun t => t.get Reg.BUF_SCRUB_CTL_BUSY = 1 ∧
    t.get Reg.BUF_SCRUB_CTL_TARGET = 1 ∧ t.buf.scrubSram = true ∧ t.buf.scrubPos = 0 ∧ t.get Reg.BUF_SCRUB_CTL_DONE = 0 ∧
    t.get Reg.BUF_SCRUB_CTL_STOPPED = 0 ∧ t.get Reg.BUF_SCRUB_CE_COUNT = 0 ∧ t.get Reg.BUF_SCRUB_UE_COUNT = 0 ∧
    t.get Reg.BUF_SCRUB_FIRST_VALID = 0 ∧ BytesKept s t ∧ FieldsKept s t [Reg.BUF_SCRUB_CTL_TARGET,
      Reg.BUF_SCRUB_CTL_BUSY, Reg.BUF_SCRUB_CTL_DONE, Reg.BUF_SCRUB_CTL_STOPPED, Reg.BUF_SCRUB_CE_COUNT,
      Reg.BUF_SCRUB_UE_COUNT, Reg.BUF_SCRUB_FIRST_VALID, Reg.BUF_SCRUB_FIRST_WHERE]) ∧
  (∀ s : State, s.get Reg.BUF_SCRUB_CTL_BUSY = 1 → s.get Reg.BUF_CFG_STATUS_ERR = 0 → Runs .sramSweepStart s fun t =>
    t.get Reg.BUF_CFG_STATUS_CODE = 4 ∧ t.buf = s.buf ∧ BytesKept s t ∧
    FieldsKept s t [Reg.BUF_CFG_STATUS_ERR, Reg.BUF_CFG_STATUS_CODE]) ∧
  (∀ (n : Nat) (s : State), s.get Reg.BUF_SCRUB_CTL_BUSY = 1 → s.buf.scrubSram = false → s.chk = [] →
    Runs (.scrubStop n) s fun t => t.get Reg.BUF_SCRUB_CTL_BUSY = 0 ∧ t.get Reg.BUF_SCRUB_CTL_DONE = 1 ∧
      t.get Reg.BUF_SCRUB_CTL_STOPPED = 1 ∧ BytesKept s t ∧
      FieldsKept s t [Reg.BUF_SCRUB_CTL_BUSY, Reg.BUF_SCRUB_CTL_DONE, Reg.BUF_SCRUB_CTL_STOPPED]) ∧
  (∀ (n : Nat) (s : State), s.get Reg.BUF_SCRUB_CTL_BUSY = 0 → Runs (.scrubStop n) s fun t => t = s) ∧
  (∀ (n e p v : Nat) (s : State), s.get Reg.BUF_SCRUB_CTL_BUSY = 1 → s.buf.scrubSram = false → s.chk = [(n, e)] →
    rsDecode e = .single p v → 4 ≤ p → s.buf.scrubPos ≤ n → n < s.buf.scrubPos + s.buf.scrubLen → Runs .scrubDone s fun t =>
      t.burstErr n = 0 ∧ (t.byte (32 * n + (35 - p))).toNat = ((s.byte (32 * n + (35 - p))).toNat ^^^ v) % 256 ∧
      BytesKeptBut s t (32 * n + (35 - p)) 1 ∧ t.get Reg.BUF_SCRUB_CTL_BUSY = 0 ∧ t.get Reg.BUF_SCRUB_CTL_DONE = 1 ∧
      t.get Reg.BUF_SCRUB_CTL_STOPPED = 0 ∧ t.get Reg.BUF_SCRUB_CE_COUNT = s.counted Reg.BUF_SCRUB_CE_COUNT 1 ∧
      FieldsKept s t [Reg.BUF_SCRUB_CTL_BUSY, Reg.BUF_SCRUB_CTL_DONE, Reg.BUF_SCRUB_CTL_STOPPED, Reg.BUF_SCRUB_CE_COUNT]) ∧
  (∀ (n e : Nat) (s : State), s.get Reg.BUF_SCRUB_CTL_BUSY = 1 → s.buf.scrubSram = false → s.chk = [(n, e)] →
    rsDecode e = .bad → s.buf.scrubPos ≤ n → n < s.buf.scrubPos + s.buf.scrubLen → s.get Reg.BUF_SCRUB_FIRST_VALID = 0 →
    Runs .scrubDone s fun t => t.chk = s.chk ∧ BytesKept s t ∧ t.get Reg.BUF_SCRUB_CTL_BUSY = 0 ∧
      t.get Reg.BUF_SCRUB_CTL_DONE = 1 ∧ t.get Reg.BUF_SCRUB_UE_COUNT = s.counted Reg.BUF_SCRUB_UE_COUNT 1 ∧
      t.get Reg.BUF_SCRUB_FIRST_VALID = 1 ∧ t.get Reg.BUF_SCRUB_FIRST_WHERE = n % 2 ^ Reg.BUF_SCRUB_FIRST_WHERE.width ∧
      FieldsKept s t [Reg.BUF_SCRUB_CTL_BUSY, Reg.BUF_SCRUB_CTL_DONE, Reg.BUF_SCRUB_CTL_STOPPED, Reg.BUF_SCRUB_UE_COUNT,
        Reg.BUF_SCRUB_FIRST_VALID, Reg.BUF_SCRUB_FIRST_WHERE]) ∧
  (∀ (i w m : Nat) (s : State), s.get Reg.BUF_SCRUB_CTL_BUSY = 1 → s.buf.scrubSram = true → s.buf.flips = [(sramKey i w, m)] →
    popCount 128 m = 1 → w < 2 ^ 22 → (sramInstance i).any (fun x => x.1 == .secded) = true → s.sramOn i = true →
    Runs .scrubDone s fun t => t.sramFlips i w = 0 ∧ t.get Reg.BUF_SCRUB_CTL_BUSY = 0 ∧ t.get Reg.BUF_SCRUB_CTL_DONE = 1 ∧
      t.get Reg.BUF_SCRUB_CE_COUNT = s.counted Reg.BUF_SCRUB_CE_COUNT 1 ∧ BytesKept s t ∧
      FieldsKept s t [Reg.BUF_SCRUB_CTL_BUSY, Reg.BUF_SCRUB_CTL_DONE, Reg.BUF_SCRUB_CTL_STOPPED, Reg.BUF_SCRUB_CE_COUNT]) ∧
  (∀ s : State, s.get Reg.BUF_SCRUB_CTL_BUSY = 0 → Runs .scrubDone s fun t => t = s) ∧
  (∀ (v : Word) (s : State), hasBit v.toNat 31 = true → hasBit v.toNat 30 = false → hasBit v.toNat 29 = false →
    s.flipRefused (bits v.toNat 7 0) = false → Runs (.flipArm v) s fun t => t.get Reg.SYS_FLIP_SEL_ARM = 1 ∧
      t.get Reg.SYS_FLIP_SEL_INSTANCE = bits v.toNat 7 0 % 2 ^ Reg.SYS_FLIP_SEL_INSTANCE.width ∧ BytesKept s t ∧
      FieldsKept s t [Reg.SYS_FLIP_SEL_ARM, Reg.SYS_FLIP_SEL_INSTANCE]) ∧
  (∀ (v : Word) (s : State), hasBit v.toNat 31 = true → hasBit v.toNat 30 = false → hasBit v.toNat 29 = false →
    s.flipRefused (bits v.toNat 7 0) = true → Runs (.flipArm v) s fun t => t.get Reg.SYS_FLIP_SEL_REJ = 1 ∧
      FieldsKept s t [Reg.SYS_FLIP_SEL_REJ] ∧ BytesKept s t) ∧
  (∀ (v : Word) (s : State), hasBit v.toNat 31 = false → Runs (.flipArm v) s fun t => t.get Reg.SYS_FLIP_SEL_ARM = 0 ∧
    (hasBit v.toNat 30 = true → t.get Reg.SYS_FLIP_SEL_DONE = 0) ∧
    (hasBit v.toNat 29 = true → t.get Reg.SYS_FLIP_SEL_REJ = 0) ∧ BytesKept s t ∧
    FieldsKept s t [Reg.SYS_FLIP_SEL_ARM, Reg.SYS_FLIP_SEL_INSTANCE, Reg.SYS_FLIP_SEL_DONE, Reg.SYS_FLIP_SEL_REJ]) ∧
  (∀ (w : Nat) (s : State), s.get Reg.SYS_FLIP_SEL_ARM = 1 → Runs (.flipApply w) s fun t =>
      SMap.get t.buf.flips 0 (sramKey (s.get Reg.SYS_FLIP_SEL_INSTANCE) w) =
        (s.get Reg.SYS_FLIP_MASK_EN0 * 2 ^ s.get Reg.SYS_FLIP_MASK_POS0 ^^^
          s.get Reg.SYS_FLIP_MASK_EN1 * 2 ^ s.get Reg.SYS_FLIP_MASK_POS1) ∧
      t.get Reg.SYS_FLIP_SEL_ARM = 0 ∧ t.get Reg.SYS_FLIP_SEL_DONE = 1 ∧ BytesKept s t ∧
      FieldsKept s t [Reg.SYS_FLIP_SEL_ARM, Reg.SYS_FLIP_SEL_DONE]) ∧
  (∀ (w : Nat) (s : State), s.get Reg.SYS_FLIP_SEL_ARM = 0 → Runs (.flipApply w) s fun t => t = s)

/-- A write of CCH_CORE_CTL starts exactly the cores whose bit rises and holds those whose bit is clear; a rise whose domain
is off, or during the L2's initialisation, is rejected with code 5. A write of CCH_L1_CTL_n stores the enables, a disable acting at once and
an enable when no whole invalidation runs; the invalidations it names are BUSY until their end; at the end the L1's
lines are gone, nothing of it is undefined, BUSY is clear and the enables are as written. -/
def Obligations.CoresAndL1 : Prop :=
  (∀ (v : Word) (s : State), s.get Reg.CCH_STATUS_INIT_BUSY = 0 →
    (∀ n : Fin 4, hasBit v.toNat n.val = true → s.domOn (84 + n.val) = true) → Runs (.coreRelease v) s fun t =>
      t.get Reg.CCH_CORE_CTL_RUN = v.toNat % 16 ∧
      (∀ n : Fin 4, hasBit v.toNat n.val = true → hasBit (s.get Reg.CCH_CORE_CTL_RUN) n.val = false →
        hasBit (t.get Reg.CCH_STATUS_RUNNING) n.val = true) ∧
      (∀ n : Fin 4, hasBit v.toNat n.val = true → hasBit (s.get Reg.CCH_CORE_CTL_RUN) n.val = true →
        hasBit (t.get Reg.CCH_STATUS_RUNNING) n.val = hasBit (s.get Reg.CCH_STATUS_RUNNING) n.val) ∧
      (∀ n : Fin 4, hasBit v.toNat n.val = false → hasBit (t.get Reg.CCH_STATUS_RUNNING) n.val = false) ∧
      FieldsKept s t [Reg.CCH_CORE_CTL_RUN, Reg.CCH_STATUS_RUNNING] ∧ BytesKept s t) ∧
  (∀ (v : Word) (n : Fin 4) (s : State), hasBit v.toNat n.val = true →
    hasBit (s.get Reg.CCH_CORE_CTL_RUN) n.val = false → (s.domOn (84 + n.val) = false ∨ s.get Reg.CCH_STATUS_INIT_BUSY = 1) →
    s.get Reg.CCH_CFG_STATUS_ERR = 0 → Runs (.coreRelease v) s fun t => t.get Reg.CCH_CFG_STATUS_CODE = 5 ∧ BytesKept s t ∧
      FieldsKept s t [Reg.CCH_CFG_STATUS_ERR, Reg.CCH_CFG_STATUS_CODE]) ∧
  (∀ (n : Fin 4) (v : Word) (s : State), Runs (.l1Invalidate n v) s fun t =>
      t.get (Reg.CCH_L1_CTL_DEN n.val) = bit v.toNat 1 ∧ t.get (Reg.CCH_L1_CTL_IEN n.val) = bit v.toNat 0 ∧
      hasBit t.core.l1Inv (l1Bit n.val false) = (hasBit v.toNat 9 || hasBit s.core.l1Inv (l1Bit n.val false)) ∧
      hasBit t.core.l1Inv (l1Bit n.val true) = (hasBit v.toNat 8 || hasBit s.core.l1Inv (l1Bit n.val true)) ∧
      t.get (Reg.CCH_L1_CTL_INV_BUSY n.val) =
        b2n (hasBit t.core.l1Inv (l1Bit n.val false) || hasBit t.core.l1Inv (l1Bit n.val true)) ∧
      (hasBit v.toNat 1 = false → t.l1En n.val false = false) ∧ (hasBit v.toNat 0 = false → t.l1En n.val true = false) ∧
      (t.get (Reg.CCH_L1_CTL_INV_BUSY n.val) = 0 → t.l1En n.val false = hasBit v.toNat 1 ∧
        t.l1En n.val true = hasBit v.toNat 0) ∧ t.core.l1 = s.core.l1 ∧ BytesKept s t ∧
      FieldsKept s t [Reg.CCH_L1_CTL_INV_BUSY n.val, Reg.CCH_L1_CTL_DEN n.val, Reg.CCH_L1_CTL_IEN n.val]) ∧
  (∀ (n : Fin 4) (s : State), s.get (Reg.CCH_L1_CTL_INV_BUSY n.val) = 1 →
    hasBit s.core.l1Inv (l1Bit n.val false) = true → Runs (.l1InvalidateDone n) s fun t =>
      t.get (Reg.CCH_L1_CTL_INV_BUSY n.val) = 0 ∧
      t.core.l1.all (fun e => e.1 / 2 ^ 30 != l1Bit n.val false) = true ∧
      hasBit t.core.l1Junk (l1Bit n.val false) = false ∧
      t.l1En n.val false = s.flag (Reg.CCH_L1_CTL_DEN n.val) ∧ hasBit t.core.l1Inv (l1Bit n.val false) = false ∧
      FieldsKept s t [Reg.CCH_L1_CTL_INV_BUSY n.val] ∧ BytesKept s t) ∧
  (∀ (n : Fin 4) (s : State), s.get (Reg.CCH_L1_CTL_INV_BUSY n.val) = 1 →
    hasBit s.core.l1Inv (l1Bit n.val true) = true → Runs (.l1InvalidateDone n) s fun t =>
      t.get (Reg.CCH_L1_CTL_INV_BUSY n.val) = 0 ∧
      t.core.l1.all (fun e => e.1 / 2 ^ 30 != l1Bit n.val true) = true ∧
      hasBit t.core.l1Junk (l1Bit n.val true) = false ∧
      t.l1En n.val true = s.flag (Reg.CCH_L1_CTL_IEN n.val) ∧ hasBit t.core.l1Inv (l1Bit n.val true) = false ∧
      FieldsKept s t [Reg.CCH_L1_CTL_INV_BUSY n.val] ∧ BytesKept s t) ∧
  (∀ (n : Fin 4) (s : State), s.get (Reg.CCH_L1_CTL_INV_BUSY n.val) = 0 → Runs (.l1InvalidateDone n) s fun t => t = s)

/-- A load that an enabled L1 holds with a good word is answered from it and changes nothing else; one with an uncorrectable word drops its
line, is counted, and is answered by the L2. A load that the L1 has not and the L2 holds answers the L2's line, which enters an enabled L1;
a store that hits makes the line dirty with the bytes merged, and no other core's enabled L1-D holds it any more; a load or store that
misses fills the victim's way from the buffer, a dirty victim going into the eviction buffer; an uncorrectable burst answers an error. A
line in the eviction buffer answers loads and holds stores. A core that does not run reaches nothing. No byte of the buffer changes until
the eviction buffer's oldest line is written back whole. -/
def Obligations.L2Accesses : Prop :=
  (∀ (c : Fin 4) (addr : Nat) (f : Bool) (w : Fin 16) (x : L1Line) (s : State), s.l2Ready c.val addr = true →
    s.l1En c.val f = true → SMap.look s.core.l1 (l1Key c.val f (addr / 64)) = some x →
    s.sramFlips (l1Inst c.val f) (8 * x.pos + addr / 8 % 8) = 0 → Runs (.l2Fill c addr f w none) s fun t =>
      t = s.answer (.block 64 x.data)) ∧
  (∀ (c : Fin 4) (addr : Nat) (f : Bool) (w : Fin 16) (k : Nat) (x : L1Line) (l : L2Line) (s : State),
    s.l2Ready c.val addr = true → s.l1En c.val f = true → SMap.look s.core.l1 (l1Key c.val f (addr / 64)) = some x →
    2 ≤ s.sramFlips (l1Inst c.val f) (8 * x.pos + addr / 8 % 8) →
    (List.range 16).all (fun w => !s.tagBad (16 * l2Set (addr / 64) + w)) = true → s.evicting (addr / 64) = none →
    s.l2Find (addr / 64) = some k → s.l2At k = some l → s.dataBad k = false →
    Runs (.l2Fill c addr f w none) s fun t => t.resp = .block 64 (s.l2Data k l) ∧
      (SMap.look t.core.l1 (l1Key c.val f (addr / 64))).map L1Line.data = some (s.l2Data k l) ∧
      t.get Reg.BUF_SRAM_UE_COUNT = s.counted Reg.BUF_SRAM_UE_COUNT 1 ∧
      FieldsKept s t [Reg.BUF_SRAM_UE_COUNT] ∧ BytesKept s t) ∧
  (∀ (c : Fin 4) (addr : Nat) (f : Bool) (w : Fin 16) (k : Nat) (l : L2Line) (s : State),
    s.l2Ready c.val addr = true → (s.l1En c.val f = true →
      SMap.look s.core.l1 (l1Key c.val f (addr / 64)) = none ∧ hasBit s.core.l1Junk (l1Bit c.val f) = false) →
    (List.range 16).all (fun w => !s.tagBad (16 * l2Set (addr / 64) + w)) = true → s.evicting (addr / 64) = none →
    s.l2Find (addr / 64) = some k → s.l2At k = some l → s.dataBad k = false →
    Runs (.l2Fill c addr f w none) s fun t => t.resp = .block 64 (s.l2Data k l) ∧ t.core.l2 = s.core.l2 ∧
      (s.l1En c.val f = true →
        (SMap.look t.core.l1 (l1Key c.val f (addr / 64))).map L1Line.data = some (s.l2Data k l)) ∧
      FieldsKept s t [] ∧ BytesKept s t) ∧
  (∀ (c : Fin 4) (addr : Nat) (f : Bool) (w : Fin 16) (n v k : Nat) (l : L2Line) (s : State),
    s.l2Ready c.val addr = true → addr % 64 + n ≤ 64 →
    (List.range 16).all (fun w => !s.tagBad (16 * l2Set (addr / 64) + w)) = true → s.evicting (addr / 64) = none →
    s.l2Find (addr / 64) = some k → s.l2At k = some l → s.dataBad k = false →
    Runs (.l2Fill c addr f w (some (n, v))) s fun t => t.resp = .none ∧
      t.l2At k = some ⟨addr / 64, true, putBytes (s.l2Data k l) (addr % 64) n v⟩ ∧
      (∀ o : Fin 4, o ≠ c → s.l1En o.val false = true →
        SMap.look t.core.l1 (l1Key o.val false (addr / 64)) = none) ∧
      (s.l1En c.val false = true → (SMap.look s.core.l1 (l1Key c.val false (addr / 64))).isSome = true →
        (SMap.look t.core.l1 (l1Key c.val false (addr / 64))).map L1Line.data =
          some (putBytes (s.l2Data k l) (addr % 64) n v)) ∧
      FieldsKept s t [Reg.BUF_SRAM_CE_COUNT, Reg.BUF_SRAM_UE_COUNT] ∧ BytesKept s t) ∧
  (∀ (c : Fin 4) (addr : Nat) (f : Bool) (w : Fin 16) (s : State), s.l2Ready c.val addr = true →
    (s.l1En c.val f = true →
      SMap.look s.core.l1 (l1Key c.val f (addr / 64)) = none ∧ hasBit s.core.l1Junk (l1Bit c.val f) = false) →
    (List.range 16).all (fun w => !s.tagBad (16 * l2Set (addr / 64) + w)) = true → s.evicting (addr / 64) = none →
    s.l2Find (addr / 64) = none → s.l2At (16 * l2Set (addr / 64) + w.val) = none → s.clean (lineAddr (addr / 64)) 64 = true →
    Runs (.l2Fill c addr f w none) s fun t =>
      t.resp = .block 64 (s.loadMem (lineAddr (addr / 64)) 64) ∧ t.l2At (16 * l2Set (addr / 64) + w.val) =
        some ⟨addr / 64, false, s.loadMem (lineAddr (addr / 64)) 64⟩ ∧ FieldsKept s t [] ∧ BytesKept s t) ∧
  (∀ (c : Fin 4) (addr : Nat) (f : Bool) (w : Fin 16) (n v : Nat) (l : L2Line) (s : State), s.l2Ready c.val addr = true →
    addr % 64 + n ≤ 64 → (List.range 16).all (fun w => !s.tagBad (16 * l2Set (addr / 64) + w)) = true →
    s.evicting (addr / 64) = none → s.l2Find (addr / 64) = none →
    s.l2At (16 * l2Set (addr / 64) + w.val) = some l → l.dirty = true →
    s.dataBad (16 * l2Set (addr / 64) + w.val) = false → s.core.evict.length < 16 →
    s.clean (lineAddr (addr / 64)) 64 = true → Runs (.l2Fill c addr f w (some (n, v))) s fun t => t.resp = .none ∧
      t.core.evict = s.core.evict ++ [(l.line, s.l2Data (16 * l2Set (addr / 64) + w.val) l)] ∧
      t.l2At (16 * l2Set (addr / 64) + w.val) =
        some ⟨addr / 64, true, putBytes (s.loadMem (lineAddr (addr / 64)) 64) (addr % 64) n v⟩ ∧
      FieldsKept s t [Reg.BUF_SRAM_CE_COUNT, Reg.BUF_SRAM_UE_COUNT] ∧ BytesKept s t) ∧
  (∀ (c : Fin 4) (addr : Nat) (f : Bool) (w : Fin 16) (d : Nat) (s : State), s.l2Ready c.val addr = true →
    s.l1En c.val f = false → (List.range 16).all (fun w => !s.tagBad (16 * l2Set (addr / 64) + w)) = true →
    s.evicting (addr / 64) = some d → Runs (.l2Fill c addr f w none) s fun t => t = s.answer (.block 64 d)) ∧
  (∀ (c : Fin 4) (addr : Nat) (f : Bool) (w : Fin 16) (n v d : Nat) (s : State), s.l2Ready c.val addr = true →
    addr % 64 + n ≤ 64 → (List.range 16).all (fun w => !s.tagBad (16 * l2Set (addr / 64) + w)) = true →
    s.evicting (addr / 64) = some d → Runs (.l2Fill c addr f w (some (n, v))) s fun t => t = s) ∧
  (∀ (c : Fin 4) (addr : Nat) (f : Bool) (w : Fin 16) (x : Option (Nat × Nat)) (s : State), s.l2Ready c.val addr = false →
    Runs (.l2Fill c addr f w x) s fun t => t = s) ∧
  (∀ (n d : Nat) (r : List (Nat × Nat)) (s : State), s.core.evict = (n, d) :: r → s.hbmUp = true → s.clkOk 27 = true →
    Runs .l2EvictionWriteback s fun t => t.core.evict = r ∧ t.loadMem (lineAddr n) 64 = d % 256 ^ 64 ∧
      BytesKeptBut s t (lineAddr n) 64 ∧ FieldsKept s t []) ∧
  (∀ s : State, (s.core.evict = [] ∨ s.hbmUp = false ∨ s.clkOk 27 = false) → Runs .l2EvictionWriteback s fun t => t = s)

/-- An accepted GO of a clean, an invalidation or both is BUSY with its operation recorded, whatever part of it has been
done; a refused one has the code of its check, 1 for a length of 0, and no effect. The end of an invalidation by address leaves no line of
its range in the L2, or in the requester's L1-I where that is its target, with DONE; the end of a clean has written a dirty line of its
range to the buffer and keeps it clean, of a clean and invalidation has written it and dropped it. An operation with a line in the eviction
buffer waits. A sweep is BUSY until its end, a second one rejected with code 4; a clean line whose parity fails is refetched and counted. -/
def Obligations.Maintenance : Prop :=
  (∀ (r : Fin 5) (tg : Fin 4) (bw : Bool) (s : State), s.buf.flips = [] → s.mntCheck r.val 1 tg.val bw = 0 →
    Runs (.cacheClean r tg bw) s fun t => t.get (Reg.CCH_MNT_CTL_BUSY r.val) = 1 ∧
      t.get (Reg.CCH_MNT_CTL_DONE r.val) = 0 ∧ t.get (Reg.CCH_MNT_CTL_OP r.val) = 1 ∧
      (∃ m, SMap.look t.core.mnt r.val = some m ∧ m.op = 1 ∧ m.target = tg.val ∧ m.byWay = bw ∧
        m.first = (if bw then s.mntPos r.val else s.mntLine r.val) ∧
        m.len = s.get (Reg.CCH_MNT_LEN_COUNT r.val) ∧ m.done ≤ m.len) ∧ FieldsKept s t (mntFields r.val)) ∧
  (∀ (r : Fin 5) (tg : Fin 4) (bw : Bool) (s : State), s.buf.flips = [] → s.mntCheck r.val 2 tg.val bw = 0 →
    Runs (.cacheInvalidate r tg bw) s fun t => t.get (Reg.CCH_MNT_CTL_BUSY r.val) = 1 ∧
      t.get (Reg.CCH_MNT_CTL_DONE r.val) = 0 ∧ t.get (Reg.CCH_MNT_CTL_OP r.val) = 2 ∧
      (∃ m, SMap.look t.core.mnt r.val = some m ∧ m.op = 2 ∧ m.target = tg.val ∧ m.byWay = bw ∧
        m.first = (if bw then s.mntPos r.val else s.mntLine r.val) ∧
        m.len = s.get (Reg.CCH_MNT_LEN_COUNT r.val) ∧ m.done ≤ m.len) ∧ BytesKept s t ∧
      FieldsKept s t (mntFields r.val)) ∧
  (∀ (r : Fin 5) (tg : Fin 4) (bw : Bool) (s : State), s.buf.flips = [] → s.mntCheck r.val 3 tg.val bw = 0 →
    Runs (.cacheCleanInvalidate r tg bw) s fun t => t.get (Reg.CCH_MNT_CTL_BUSY r.val) = 1 ∧
      t.get (Reg.CCH_MNT_CTL_DONE r.val) = 0 ∧ t.get (Reg.CCH_MNT_CTL_OP r.val) = 3 ∧
      (∃ m, SMap.look t.core.mnt r.val = some m ∧ m.op = 3 ∧ m.target = tg.val ∧ m.byWay = bw ∧
        m.first = (if bw then s.mntPos r.val else s.mntLine r.val) ∧
        m.len = s.get (Reg.CCH_MNT_LEN_COUNT r.val) ∧ m.done ≤ m.len) ∧ FieldsKept s t (mntFields r.val)) ∧
  (∀ (r : Fin 5) (tg : Fin 4) (bw : Bool) (s : State), s.get (Reg.CCH_MNT_LEN_COUNT r.val) = 0 →
    s.get Reg.CCH_CFG_STATUS_ERR = 0 → Runs (.cacheClean r tg bw) s fun t => t.get Reg.CCH_CFG_STATUS_CODE = 1 ∧
      t.core = s.core ∧ FieldsKept s t [Reg.CCH_CFG_STATUS_ERR, Reg.CCH_CFG_STATUS_CODE] ∧ BytesKept s t) ∧
  (∀ (r : Fin 5) (tg : Fin 4) (bw : Bool) (s : State), s.mntCheck r.val 2 tg.val bw ≠ 0 →
    s.get Reg.CCH_CFG_STATUS_ERR = 0 → Runs (.cacheInvalidate r tg bw) s fun t =>
      t.get Reg.CCH_CFG_STATUS_CODE = s.mntCheck r.val 2 tg.val bw ∧
      t.core = s.core ∧ FieldsKept s t [Reg.CCH_CFG_STATUS_ERR, Reg.CCH_CFG_STATUS_CODE] ∧ BytesKept s t) ∧
  (∀ (r : Fin 5) (tg : Fin 4) (bw : Bool) (s : State), s.mntCheck r.val 3 tg.val bw ≠ 0 →
    s.get Reg.CCH_CFG_STATUS_ERR = 0 → Runs (.cacheCleanInvalidate r tg bw) s fun t =>
      t.get Reg.CCH_CFG_STATUS_CODE = s.mntCheck r.val 3 tg.val bw ∧
      t.core = s.core ∧ FieldsKept s t [Reg.CCH_CFG_STATUS_ERR, Reg.CCH_CFG_STATUS_CODE] ∧ BytesKept s t) ∧
  (∀ (r : Fin 5) (m : MntOp) (s : State), SMap.look s.core.mnt r.val = some m → m.op = 2 → m.target = 0 →
    m.byWay = false → s.core.evict = [] → s.buf.flips = [] → Runs (.maintenanceDone r) s fun t =>
      t.core.l2.all (fun e => !(decide (m.first + m.done ≤ e.2.line) && decide (e.2.line < m.first + m.len))) = true ∧
      SMap.look t.core.mnt r.val = none ∧ t.get (Reg.CCH_MNT_CTL_BUSY r.val) = 0 ∧
      t.get (Reg.CCH_MNT_CTL_DONE r.val) = 1 ∧ BytesKept s t ∧
      FieldsKept s t [Reg.CCH_MNT_CTL_BUSY r.val, Reg.CCH_MNT_CTL_DONE r.val]) ∧
  (∀ (r : Fin 5) (m : MntOp) (s : State), SMap.look s.core.mnt r.val = some m → m.target = 1 →
    Runs (.maintenanceDone r) s fun t =>
      t.core.l1.all (fun e => !(decide (l1Key r.val true (m.first + m.done) ≤ e.1) && decide (e.1 < l1Key r.val true (m.first + m.len)))) = true ∧
      SMap.look t.core.mnt r.val = none ∧ t.get (Reg.CCH_MNT_CTL_BUSY r.val) = 0 ∧
      t.get (Reg.CCH_MNT_CTL_DONE r.val) = 1 ∧ BytesKept s t ∧
      FieldsKept s t [Reg.CCH_MNT_CTL_BUSY r.val, Reg.CCH_MNT_CTL_DONE r.val]) ∧
  (∀ (r : Fin 5) (m : MntOp) (k : Nat) (l : L2Line) (s : State), SMap.look s.core.mnt r.val = some m →
    (m.op = 1 ∨ m.op = 3) → m.target = 0 → m.byWay = false → s.core.evict = [] → s.buf.flips = [] →
    s.core.l2 = [(k, l)] → l.dirty = true → m.first + m.done ≤ l.line → l.line < m.first + m.len → s.hbmUp = true →
    Runs (.maintenanceDone r) s fun t => t.loadMem (lineAddr l.line) 64 = l.data % 256 ^ 64 ∧
      BytesKeptBut s t (lineAddr l.line) 64 ∧
      t.l2At k = (if m.op = 1 then some ⟨l.line, false, l.data⟩ else none) ∧
      SMap.look t.core.mnt r.val = none ∧ t.get (Reg.CCH_MNT_CTL_BUSY r.val) = 0 ∧
      t.get (Reg.CCH_MNT_CTL_DONE r.val) = 1 ∧
      FieldsKept s t [Reg.CCH_MNT_CTL_BUSY r.val, Reg.CCH_MNT_CTL_DONE r.val]) ∧
  (∀ (r : Fin 5) (s : State), (SMap.look s.core.mnt r.val).all s.mntBlocked = true →
    Runs (.maintenanceDone r) s fun t => t = s) ∧
  (∀ s : State, s.get Reg.CCH_SWEEP_BUSY = 0 → Runs .l2Sweep s fun t => t.get Reg.CCH_SWEEP_BUSY = 1 ∧
    FieldsKept s t [Reg.CCH_SWEEP_BUSY] ∧ BytesKept s t) ∧
  (∀ s : State, s.get Reg.CCH_SWEEP_BUSY = 1 → s.get Reg.CCH_CFG_STATUS_ERR = 0 → Runs .l2Sweep s fun t =>
    t.get Reg.CCH_CFG_STATUS_CODE = 4 ∧ BytesKept s t ∧
    FieldsKept s t [Reg.CCH_CFG_STATUS_ERR, Reg.CCH_CFG_STATUS_CODE]) ∧
  (∀ s : State, s.get Reg.CCH_SWEEP_BUSY = 1 → s.buf.flips = [] → Runs .l2SweepDone s fun t =>
    t.get Reg.CCH_SWEEP_BUSY = 0 ∧ t.get Reg.CCH_SWEEP_DONE = 1 ∧ t.core = s.core ∧ BytesKept s t ∧
    FieldsKept s t [Reg.CCH_SWEEP_BUSY, Reg.CCH_SWEEP_DONE]) ∧
  (∀ (k : Nat) (w : Fin 8) (l : L2Line) (s : State), s.get Reg.CCH_SWEEP_BUSY = 1 → k < 131072 →
    s.buf.flips = [(sramKey 25 (8 * k + w.val), 1)] → s.l2At k = some l → l.dirty = false →
    s.clean (lineAddr l.line) 64 = true → Runs .l2SweepDone s fun t => t.get Reg.CCH_SWEEP_BUSY = 0 ∧
      t.get Reg.CCH_SWEEP_DONE = 1 ∧ t.l2At k = some ⟨l.line, false, s.loadMem (lineAddr l.line) 64⟩ ∧
      t.get Reg.CCH_L2_REFETCH_COUNT = s.counted Reg.CCH_L2_REFETCH_COUNT 1 ∧ t.get Reg.CCH_L2_ERR_VALID ≠ 0 ∧
      t.buf.flips = [] ∧ BytesKept s t ∧ FieldsKept s t [Reg.CCH_SWEEP_BUSY, Reg.CCH_SWEEP_DONE,
        Reg.CCH_L2_REFETCH_COUNT, Reg.CCH_L2_ERR_VALID, Reg.CCH_L2_ERR_LINE]) ∧
  (∀ s : State, s.get Reg.CCH_SWEEP_BUSY = 0 → Runs .l2SweepDone s fun t => t = s)

/-- A start fetches the descriptor, checks it and runs; a running channel ignores it, a draining one is rejected with code 4 and one whose
domain is off with code 5; a descriptor that fails its check leaves ERROR with the check's code, in its STATUS too. A fill, and a copy of one line
apart from its source, completed, has stored its bytes and STATUS, counts the descriptor and ends DONE with its TAG, raising its DMA_IRQ bit
where the descriptor asks. A transfer that stops is ERROR with code 5 and the lines that remain. EN cleared in RUN leaves the channel
draining, only bytes of the destination touched; drained, it is IDLE. While the engine's clock stands nothing moves. -/
def Obligations.DmaChannels : Prop :=
  (∀ (c : Fin 32) (a x : Nat) (s : State), s.get (Reg.DMA_CH_STATUS_STATE c.val) ≠ 1 →
    s.get (Reg.DMA_CH_STATUS_STATE c.val) ≠ 2 → s.domOn 91 = true →
    a = 64 * s.get (Reg.DMA_CH_DESC_LO_ADDR c.val) + 2 ^ 32 * s.get (Reg.DMA_CH_DESC_HI_ADDR c.val) →
    placeOf a = some (.buffer x) → busOk false a 64 = true → s.clean x 64 = true →
    dCheck (s.loadMem x 64) = 0 → Runs (.dmaStart c) s fun t =>
      t.get (Reg.DMA_CH_STATUS_STATE c.val) = 1 ∧ t.get (Reg.DMA_CH_CTL_EN c.val) = 1 ∧
      t.get (Reg.DMA_CH_STATUS_DESCS c.val) = 0 ∧ t.get (Reg.DMA_CH_STATUS_CODE c.val) = 0 ∧
      hasBit (t.get Reg.DMA_STATUS_ACTIVE) c.val = true ∧ t.get (Reg.DMA_CH_REMAIN_LINES c.val) = dCount (s.loadMem x 64) ∧
      SMap.look t.core.dma c.val = some (a, s.loadMem x 64) ∧ BytesKept s t ∧ FieldsKept s t (dmaFields c.val)) ∧
  (∀ (c : Fin 32) (a x y : Nat) (s : State), s.get (Reg.DMA_CH_STATUS_STATE c.val) ≠ 1 →
    s.get (Reg.DMA_CH_STATUS_STATE c.val) ≠ 2 → s.domOn 91 = true →
    a = 64 * s.get (Reg.DMA_CH_DESC_LO_ADDR c.val) + 2 ^ 32 * s.get (Reg.DMA_CH_DESC_HI_ADDR c.val) →
    placeOf a = some (.buffer x) → placeOf (a + 0x34) = some (.buffer y) → busOk false a 64 = true →
    busOk true (a + 0x34) 4 = true → s.clean x 64 = true → s.clean y 4 = true →
    dCheck (s.loadMem x 64) ≠ 0 → Runs (.dmaStart c) s fun t =>
      t.get (Reg.DMA_CH_STATUS_STATE c.val) = 4 ∧ t.get (Reg.DMA_CH_CTL_EN c.val) = 0 ∧
      t.get (Reg.DMA_CH_STATUS_CODE c.val) = dCheck (s.loadMem x 64) ∧ t.loadMem y 4 = dCheck (s.loadMem x 64) ∧
      hasBit (t.get Reg.DMA_STATUS_ACTIVE) c.val = false ∧ SMap.look t.core.dma c.val = none ∧
      BytesKeptBut s t y 4 ∧ FieldsKept s t (dmaFields c.val)) ∧
  (∀ (c : Fin 32) (s : State), s.get (Reg.DMA_CH_STATUS_STATE c.val) = 1 → Runs (.dmaStart c) s fun t => t = s) ∧
  (∀ (c : Fin 32) (s : State), s.get (Reg.DMA_CH_STATUS_STATE c.val) = 2 → s.get Reg.DMA_CFG_STATUS_ERR = 0 →
    Runs (.dmaStart c) s fun t => t.get Reg.DMA_CFG_STATUS_CODE = 4 ∧
      t.core = s.core ∧ BytesKept s t ∧ FieldsKept s t [Reg.DMA_CFG_STATUS_ERR, Reg.DMA_CFG_STATUS_CODE]) ∧
  (∀ (c : Fin 32) (s : State), s.get (Reg.DMA_CH_STATUS_STATE c.val) ≠ 1 → s.get (Reg.DMA_CH_STATUS_STATE c.val) ≠ 2 →
    s.domOn 91 = false → s.get Reg.DMA_CFG_STATUS_ERR = 0 → Runs (.dmaStart c) s fun t => t.get Reg.DMA_CFG_STATUS_CODE = 5 ∧
      t.core = s.core ∧ BytesKept s t ∧ FieldsKept s t [Reg.DMA_CFG_STATUS_ERR, Reg.DMA_CFG_STATUS_CODE]) ∧
  (∀ (c : Fin 32) (a d x y : Nat) (s : State), SMap.look s.core.dma c.val = some (a, d) → s.clkOk 31 = true →
    dFill d = true → dCount d = 1 → dLast d = true → placeOf (dDst d) = some (.buffer x) →
    placeOf (a + 0x34) = some (.buffer y) → busOk true (a + 0x34) 4 = true → s.hbmUp = true → s.chk = [] →
    s.get (Reg.DMA_CH_CTL_EN c.val) = 1 → (x + dLen d ≤ y ∨ y + 4 ≤ x) → Runs (.dmaDescriptorDone c) s fun t =>
      t.loadMem x (dLen d) = dPatternRun d (dLen d) ∧ t.loadMem y 4 = 2 ^ 31 ∧
      (∀ b : Nat, (b < x ∨ x + dLen d ≤ b) → (b < y ∨ y + 4 ≤ b) → t.byte b = s.byte b) ∧
      t.get (Reg.DMA_CH_STATUS_STATE c.val) = 3 ∧ t.get (Reg.DMA_CH_TAG_TAG c.val) = dTag d ∧
      t.get (Reg.DMA_CH_STATUS_DESCS c.val) = s.counted (Reg.DMA_CH_STATUS_DESCS c.val) 1 ∧
      t.get (Reg.DMA_CH_CTL_EN c.val) = 0 ∧ t.get (Reg.DMA_CH_REMAIN_LINES c.val) = 0 ∧
      (dIrq d = true → hasBit (t.get Reg.DMA_IRQ_IRQ) c.val = true) ∧
      SMap.look t.core.dma c.val = none ∧ FieldsKept s t (Reg.DMA_IRQ_IRQ :: dmaFields c.val)) ∧
  (∀ (c : Fin 32) (a d w x y : Nat) (s : State), SMap.look s.core.dma c.val = some (a, d) → s.clkOk 31 = true →
    dFill d = false → dCount d = 1 → dLast d = true → placeOf (dSrc d) = some (.buffer w) →
    placeOf (dDst d) = some (.buffer x) → (w + dLen d ≤ x ∨ x + dLen d ≤ w) → w + dLen d ≤ 2 ^ 34 → x + dLen d ≤ 2 ^ 34 →
    placeOf (a + 0x34) = some (.buffer y) → busOk true (a + 0x34) 4 = true → s.hbmUp = true → s.chk = [] →
    s.get (Reg.DMA_CH_CTL_EN c.val) = 1 → (x + dLen d ≤ y ∨ y + 4 ≤ x) → Runs (.dmaDescriptorDone c) s fun t =>
      t.loadMem x (dLen d) = s.loadMem w (dLen d) ∧ t.loadMem y 4 = 2 ^ 31 ∧
      t.get (Reg.DMA_CH_STATUS_STATE c.val) = 3 ∧ t.get (Reg.DMA_CH_TAG_TAG c.val) = dTag d) ∧
  (∀ (c : Fin 32) (s : State), (SMap.look s.core.dma c.val = none ∨ s.clkOk 31 = false) →
    Runs (.dmaDescriptorDone c) s fun t => t = s) ∧
  (∀ (c : Fin 32) (a d k y : Nat) (s : State), SMap.look s.core.dma c.val = some (a, d) → s.clkOk 31 = true →
    (s.dmaTransfer d).1 = k →
    k < dCount d → (s.dmaTransfer d).2.get (Reg.DMA_CH_CTL_EN c.val) = 1 → placeOf (a + 0x34) = some (.buffer y) →
    Runs (.dmaTransferError c) s fun t => t.get (Reg.DMA_CH_STATUS_STATE c.val) = 4 ∧
      t.get (Reg.DMA_CH_STATUS_CODE c.val) = 5 ∧ t.get (Reg.DMA_CH_CTL_EN c.val) = 0 ∧
      hasBit (t.get Reg.DMA_STATUS_ACTIVE) c.val = false ∧ SMap.look t.core.dma c.val = none ∧
      t.get (Reg.DMA_CH_REMAIN_LINES c.val) = dCount d - (k + 1)) ∧
  (∀ (c : Fin 32) (s : State), (SMap.look s.core.dma c.val = none ∨ s.clkOk 31 = false ∨
    (SMap.look s.core.dma c.val).all (fun x => decide (dCount x.2 ≤ (s.dmaTransfer x.2).1)) = true) →
    Runs (.dmaTransferError c) s fun t => t = s) ∧
  (∀ (c : Fin 32) (a d x : Nat) (s : State), SMap.look s.core.dma c.val = some (a, d) → dFill d = true →
    dCount d = 1 → placeOf (dDst d) = some (.buffer x) → x + dLen d ≤ 2 ^ 34 → s.chk = [] →
    s.get (Reg.DMA_CH_CTL_EN c.val) = 1 → Runs (.dmaDrop c) s fun t => t.get (Reg.DMA_CH_STATUS_STATE c.val) = 2 ∧
      t.get (Reg.DMA_CH_CTL_EN c.val) = 0 ∧ SMap.look t.core.dma c.val = none ∧ BytesKeptBut s t x (dLen d) ∧
      FieldsKept s t [Reg.DMA_CH_STATUS_STATE c.val, Reg.DMA_CH_CTL_EN c.val, Reg.DMA_CH_CUR_LO_ADDR c.val,
        Reg.DMA_CH_CUR_HI_ADDR c.val, Reg.DMA_CH_REMAIN_LINES c.val]) ∧
  (∀ (c : Fin 32) (s : State), SMap.look s.core.dma c.val = none → Runs (.dmaDrop c) s fun t =>
    t.get (Reg.DMA_CH_CTL_EN c.val) = 0 ∧ FieldsKept s t [Reg.DMA_CH_CTL_EN c.val] ∧ BytesKept s t) ∧
  (∀ (c : Fin 32) (s : State), s.get (Reg.DMA_CH_STATUS_STATE c.val) = 2 → Runs (.dmaDrainDone c) s fun t =>
    t.get (Reg.DMA_CH_STATUS_STATE c.val) = 0 ∧ hasBit (t.get Reg.DMA_STATUS_ACTIVE) c.val = false ∧ BytesKept s t ∧
    FieldsKept s t [Reg.DMA_CH_STATUS_STATE c.val, Reg.DMA_STATUS_ACTIVE]) ∧
  (∀ (c : Fin 32) (s : State), s.get (Reg.DMA_CH_STATUS_STATE c.val) ≠ 2 → Runs (.dmaDrainDone c) s fun t => t = s)

/-- A request that BAR0 accepts is answered from its registers; a write of the window table reaches the staged copy alone.
A port without Memory Space Enable or outside D0 answers Unsupported Request and counts it, and an unaligned request is
aborted. BAR2 reads and writes the buffer through the live table, and is unsupported where no entry serves it; an uncorrectable burst
poisons a read and is counted on a write, which stores nothing in it. A commit makes
the staged copy live with the next version and draining, or is refused with its code; a drain ends that. A granted
translation enters the cache unless an invalidation spoiled it, which requests it again; one that grants nothing is not kept, and one that
answers no request is ignored. An invalidation drops the entries it
meets at once and is answered when the requests that used them have ended. -/
def Obligations.PortRequests : Prop :=
  (∀ (p : Fin 2) (off len d : Nat) (s : State), s.portMem p.val = true → bar0Accepts off len = true →
    Runs (.bar0Request p false off len d) s fun t => t.resp = .data (s.bar0Read p.val off len) ∧
      (off = 0x100 ∧ len = 4 → t.resp = .data (s.get (Reg.HCTL_EN p.val))) ∧ FieldsKept s t [] ∧ BytesKept s t) ∧
  (∀ (p : Fin 2) (i : Fin 64) (o len d : Nat) (s : State), s.portMem p.val = true → 1 ≤ len → o + len ≤ 32 →
    s.get (Reg.HST_CTL_WIN_HOST_WR p.val) = 1 → Runs (.bar0Request p true (0x2000 + 32 * i.val + o) len d) s fun t =>
      t.resp = .none ∧ t.staged i.val = (putBytes (s.staged i.val) o len d &&& winMask) ∧ t.winLive = s.winLive ∧
      (∀ j : Fin 64, j ≠ i → t.staged j.val = s.staged j.val) ∧ FieldsKept s t [] ∧ BytesKept s t) ∧
  (∀ (p : Fin 2) (w : Bool) (off len d : Nat) (s : State), s.portMem p.val = false →
    Runs (.bar0Request p w off len d) s fun t => t.resp = .unsupported ∧
      t.get (Reg.HST_UR_COUNT p.val) = s.counted (Reg.HST_UR_COUNT p.val) 1 ∧
      FieldsKept s t [Reg.HST_UR_COUNT p.val] ∧ BytesKept s t) ∧
  (∀ (p : Fin 2) (w : Bool) (off len d : Nat) (s : State), s.portMem p.val = true → bar0Accepts off len = false →
    Runs (.bar0Request p w off len d) s fun t => t.resp = .completerAbort ∧ FieldsKept s t [] ∧ BytesKept s t) ∧
  (∀ (p : Fin 2) (addr len d x : Nat) (s : State), s.portMem p.val = true → s.winTo p.val 0 addr len false = some x →
    s.clean x len = true →
    Runs (.bar2Request p false addr len d) s fun t => t.resp = .data (s.loadMem x len) ∧ FieldsKept s t [] ∧
      BytesKept s t) ∧
  (∀ (p : Fin 2) (addr len d x : Nat) (s : State), s.portMem p.val = true → s.winTo p.val 0 addr len true = some x →
    s.clean x len = true →
    Runs (.bar2Request p true addr len d) s fun t => t.resp = .none ∧ t.loadMem x len = d % 256 ^ len ∧
      FieldsKept s t [] ∧ BytesKeptBut s t x len) ∧
  (∀ (p : Fin 2) (addr len d x n : Nat) (s : State), s.portMem p.val = true → s.winTo p.val 0 addr len false = some x →
    s.hbmUp = true → burstsOf x len = [n] → rsDecode (s.burstErr n) = .bad → Runs (.bar2Request p false addr len d) s fun t =>
      t.resp.poisonedData = true ∧ t.get Reg.BUF_UE_CNT_COUNT = s.counted Reg.BUF_UE_CNT_COUNT 1 ∧ BytesKept s t ∧
      FieldsKept s t [Reg.BUF_UE_CNT_COUNT, Reg.BUF_UE_FIRST_VALID, Reg.BUF_UE_FIRST_BURST]) ∧
  (∀ (p : Fin 2) (addr len d x n : Nat) (s : State), s.portMem p.val = true → s.winTo p.val 0 addr len true = some x →
    s.hbmUp = true → burstsOf x len = [n] → len < 32 → rsDecode (s.burstErr n) = .bad →
    Runs (.bar2Request p true addr len d) s fun t => t.resp = .none ∧
      t.get (Reg.HST_BAR2_ERR_COUNT p.val) = s.counted (Reg.HST_BAR2_ERR_COUNT p.val) 1 ∧ BytesKept s t ∧
      FieldsKept s t [Reg.BUF_UE_CNT_COUNT, Reg.BUF_UE_FIRST_VALID, Reg.BUF_UE_FIRST_BURST, Reg.HST_BAR2_ERR_COUNT p.val]) ∧
  (∀ (p : Fin 2) (w : Bool) (addr len d : Nat) (s : State), (s.portMem p.val = false ∨ s.winTo p.val 0 addr len w = none) →
    Runs (.bar2Request p w addr len d) s fun t => t.resp = .unsupported ∧
      t.get (Reg.HST_UR_COUNT p.val) = s.counted (Reg.HST_UR_COUNT p.val) 1 ∧
      FieldsKept s t [Reg.HST_UR_COUNT p.val] ∧ BytesKept s t) ∧
  (∀ (q : Fin 3) (i : Fin 64) (s : State), q.val < 2 → s.get (Reg.HST_CTL_WIN_HOST_WR q.val) = 1 →
    winCheck (s.staged i.val) = none → Runs (.hwinCommit q i) s fun t =>
      SMap.look t.winLive i.val = some ⟨s.staged i.val, ((match SMap.look s.winLive i.val with
        | some l => l.version
        | none => 0) + 1) % 65536, true⟩ ∧
      (∀ j : Fin 64, j ≠ i → SMap.look t.winLive j.val = SMap.look s.winLive j.val) ∧ FieldsKept s t [] ∧
      BytesKept s t) ∧
  (∀ (i : Fin 64) (s : State), winCheck (s.staged i.val) = none → Runs (.hwinCommit 2 i) s fun t =>
    (∃ l, SMap.look t.winLive i.val = some l ∧ l.raw = s.staged i.val ∧ l.draining = true) ∧ FieldsKept s t [] ∧
    BytesKept s t) ∧
  (∀ (q : Fin 3) (i : Fin 64) (s : State), q.val < 2 → s.get (Reg.HST_CTL_WIN_HOST_WR q.val) = 0 →
    s.get Reg.HWIN_STATUS_ERR = 0 → Runs (.hwinCommit q i) s fun t => t.get Reg.HWIN_STATUS_ERR = 1 ∧
      t.get Reg.HWIN_STATUS_ENTRY = i.val ∧ t.get Reg.HWIN_STATUS_CODE = 7 ∧ t.winLive = s.winLive ∧ BytesKept s t ∧
      FieldsKept s t [Reg.HWIN_STATUS_ERR, Reg.HWIN_STATUS_ENTRY, Reg.HWIN_STATUS_CODE]) ∧
  (∀ (i : Fin 64) (c : Nat) (s : State), winCheck (s.staged i.val) = some c → s.get Reg.HWIN_STATUS_ERR = 0 →
    Runs (.hwinCommit 2 i) s fun t => t.get Reg.HWIN_STATUS_ENTRY = i.val ∧ t.get Reg.HWIN_STATUS_CODE = c ∧
      t.winLive = s.winLive ∧ BytesKept s t ∧
      FieldsKept s t [Reg.HWIN_STATUS_ERR, Reg.HWIN_STATUS_ENTRY, Reg.HWIN_STATUS_CODE]) ∧
  (∀ (i : Fin 64) (l : WinLive) (s : State), SMap.look s.winLive i.val = some l → Runs (.windowDrainDone i) s fun t =>
    SMap.look t.winLive i.val = some ⟨l.raw, l.version, false⟩ ∧ FieldsKept s t [] ∧ BytesKept s t) ∧
  (∀ (i : Fin 64) (s : State), SMap.look s.winLive i.val = none → Runs (.windowDrainDone i) s fun t => t = s) ∧
  (∀ (p : Fin 2) (a n x : Nat) (r : AtsReq) (s : State), s.atsReq = [r] → r.port = p.val → a ≤ r.page → r.page < a + n →
    r.spoiled = false → s.get (Reg.HST_LINK_ATS_EN p.val) = 1 → 4096 ≤ n → n ≤ 2 ^ 30 →
    Runs (.atsTranslationCompletion p a n x true false) s fun t =>
      t.ats = ((⟨p.val, a, n, x, true, false⟩ : AtsEntry) :: s.ats).take 1024 ∧ t.atsReq = [] ∧
      FieldsKept s t [Reg.HST_ATS_USED 0, Reg.HST_ATS_USED 1] ∧ BytesKept s t) ∧
  (∀ (p : Fin 2) (a n x : Nat) (r : AtsReq) (s : State), s.atsReq = [r] → r.port = p.val → a ≤ r.page → r.page < a + n →
    r.spoiled = true → Runs (.atsTranslationCompletion p a n x true false) s fun t => t.ats = s.ats ∧
      t.atsReq = [⟨p.val, r.page, false⟩] ∧ t.out = s.out ++ [.atsRequest p.val r.page] ∧ FieldsKept s t [] ∧
      BytesKept s t) ∧
  (∀ (p : Fin 2) (a n x : Nat) (r : AtsReq) (s : State), s.atsReq = [r] → r.port = p.val → a ≤ r.page → r.page < a + n →
    r.spoiled = false → Runs (.atsTranslationCompletion p a n x false false) s fun t => t.ats = s.ats ∧ t.atsReq = [] ∧
      FieldsKept s t [] ∧ BytesKept s t) ∧
  (∀ (p : Fin 2) (a n x : Nat) (rd wr : Bool) (s : State), s.atsReq = [] →
    Runs (.atsTranslationCompletion p a n x rd wr) s fun t => t = s) ∧
  (∀ (p : Fin 2) (a n tag : Nat) (s : State), Runs (.atsInvalidate p a n tag) s fun t =>
    t.ats = s.ats.filter (fun (e : AtsEntry) => !(e.port == p.val && rangesMeet e.base e.len a n)) ∧
    t.atsReq.all (fun r => !(r.port == p.val && rangesMeet r.page 4096 a n) || r.spoiled) = true ∧
    t.atsInv = s.atsInv ++ [(p.val, tag)] ∧ t.get (Reg.HST_EVT_ATS_INV p.val) ≠ 0 ∧ BytesKept s t ∧
    FieldsKept s t [Reg.HST_ATS_USED 0, Reg.HST_ATS_USED 1, Reg.HST_EVT_ATS_INV p.val]) ∧
  (∀ (p : Fin 2) (tag : Nat) (l : List (Nat × Nat)) (s : State), s.atsInv = (p.val, tag) :: l →
    Runs (.atsInvalidateComplete p) s fun t => t.atsInv = l ∧ t.out = s.out ++ [.atsInvalidateDone p.val tag] ∧
      t.get (Reg.HST_ATS_INV_COUNT p.val) = s.counted (Reg.HST_ATS_INV_COUNT p.val) 1 ∧
      FieldsKept s t [Reg.HST_ATS_INV_COUNT p.val] ∧ BytesKept s t) ∧
  (∀ (p : Fin 2) (s : State), s.atsInv = [] → Runs (.atsInvalidateComplete p) s fun t => t = s)

/-- The host's configuration bits take effect, D3hot among them, while the port's configuration space answers; an ATS Enable cleared empties
its translation cache. A wake event sends PM_PME in D3hot with PME_En, asserts
WAKE_N while PERST_N is low, and signals nothing in Off or where neither holds. Clearing Bus Master Enable freezes the port and marks its
unfinished transfers; RESUME, once the outstanding reads have drained, ends each of them with status 0x11. A function-level
reset and a link-down discard the port's commands, queues, translations and configuration and leave the live windows; FLR_DONE
ends the first. The link settles only at a rate and width that the registers permit; its state changes while it is up, L0s only out of flit
mode; and in Doze a link that returns to
L0 drops to 2.5 GT/s x1. -/
def Obligations.PortStates : Prop :=
  (∀ (p : Fin 2) (cfg : PortCfg) (s : State), s.cfgAnswers p.val = true → Runs (.dstateWrite p cfg) s fun t =>
    t.get (Reg.HST_LINK_DSTATE p.val) = (if cfg.d3hot then 3 else 0) ∧ t.get (Reg.HST_LINK_MSE p.val) = b2n cfg.mse ∧
    t.get (Reg.HST_LINK_ATS_EN p.val) = b2n cfg.atsEn ∧
    t.get (Reg.HST_LINK_BME p.val) = (if cfg.bme then 1 else s.get (Reg.HST_LINK_BME p.val)) ∧
    (t.port p.val).pmeEn = cfg.pmeEn ∧ (t.port p.val).msixEn = cfg.msixEn ∧ (t.port p.val).msixMask = cfg.msixMask ∧
    (t.port p.val).speedDis = cfg.speedDis ∧ (t.port p.val).widthDis = cfg.widthDis ∧
    (s.get (Reg.HST_LINK_ATS_EN p.val) = 1 → cfg.atsEn = false → t.ats.all (fun e => e.port != p.val) = true) ∧
    BytesKept s t ∧ FieldsKept s t [Reg.HST_LINK_DSTATE p.val, Reg.HST_LINK_MSE p.val, Reg.HST_LINK_ATS_EN p.val,
      Reg.HST_LINK_BME p.val, Reg.HST_EVT_DSTATE p.val, Reg.HST_ATS_USED 0, Reg.HST_ATS_USED 1]) ∧
  (∀ (p : Fin 2) (cfg : PortCfg) (s : State), s.cfgAnswers p.val = false → Runs (.dstateWrite p cfg) s fun t => t = s) ∧
  (∀ (p : Fin 2) (s : State), s.dev ≠ .off → (s.port p.val).perst = false → s.get (Reg.HST_LINK_DSTATE p.val) = 3 →
    (s.port p.val).pmeEn = true → Runs (.wakeEvent p) s fun t => t.out = s.out ++ [.pme p.val] ∧
      t.ports = s.ports ∧ FieldsKept s t [] ∧ BytesKept s t) ∧
  (∀ (p : Fin 2) (s : State), s.dev ≠ .off → (s.port p.val).perst = true → s.pwr.por = true →
    (s.port p.val).wakeN = false → Runs (.wakeEvent p) s fun t => t.out = s.out ++ [.wakePin p.val] ∧
      (t.port p.val).wakeN = true ∧ FieldsKept s t [] ∧ BytesKept s t) ∧
  (∀ (p : Fin 2) (s : State), (s.dev = .off ∨ (s.port p.val).perst = false ∧ (s.get (Reg.HST_LINK_DSTATE p.val) ≠ 3 ∨
    (s.port p.val).pmeEn = false)) → Runs (.wakeEvent p) s fun t => t = s) ∧
  (∀ (p : Fin 2) (r : Bool) (s : State), s.get (Reg.HST_LINK_BME p.val) = 1 → Runs (.busMasterDisable p r) s fun t =>
    t.get (Reg.HST_LINK_BME p.val) = 0 ∧ t.get (Reg.HSTS_BML p.val) = 1 ∧ t.get (Reg.HSTS_RESUME_WAIT p.val) = b2n r ∧
    t.cmds = s.cmds.map (fun (e : Nat × Cmd) =>
      (e.1, if e.2.port == p.val && e.2.transferring then { e.2 with interrupted := true } else e.2)) ∧
    t.get (Reg.HST_EVT_BML p.val) ≠ 0 ∧ EventFrame s t [Reg.HST_LINK_BME p.val, Reg.HSTS_BML p.val,
      Reg.HSTS_RESUME_WAIT p.val, Reg.HST_EVT_BML p.val]) ∧
  (∀ (p : Fin 2) (r : Bool) (s : State), s.get (Reg.HST_LINK_BME p.val) = 0 → Runs (.busMasterDisable p r) s fun t => t = s) ∧
  (∀ (p : Fin 2) (s : State), Runs (.bmeReadsDrained p) s fun t => t.get (Reg.HSTS_RESUME_WAIT p.val) = 0 ∧
    (t.port p.val).reads = false ∧ FieldsKept s t [Reg.HSTS_RESUME_WAIT p.val] ∧ BytesKept s t) ∧
  (∀ (p : Fin 2) (q : Nat) (k : Cmd) (s : State), s.get (Reg.HST_LINK_BME p.val) = 1 → s.get (Reg.HSTS_BML p.val) = 1 →
    s.get (Reg.HSTS_RESUME_WAIT p.val) = 0 → SMap.look s.cmds q = some k → k.port = p.val → k.interrupted = true →
    k.open = true → Runs (.hctlResume p) s fun t => t.get (Reg.HSTS_BML p.val) = 0 ∧
      (∃ k', SMap.look t.cmds q = some k' ∧ k'.commit = some ⟨0x11, noInfo, 0⟩) ∧
      FieldsKept s t [Reg.HSTS_BML p.val] ∧ BytesKept s t) ∧
  (∀ (p : Fin 2) (s : State), (s.get (Reg.HST_LINK_BME p.val) = 0 ∨ s.get (Reg.HSTS_BML p.val) = 0 ∨
    s.get (Reg.HSTS_RESUME_WAIT p.val) = 1) → Runs (.hctlResume p) s fun t => t = s) ∧
  (∀ (p : Fin 2) (s : State), Runs (.functionLevelReset p) s fun t => t.get (Reg.HCTL_EN p.val) = 0 ∧
    t.get (Reg.HST_LINK_BME p.val) = 0 ∧ t.get (Reg.HST_LINK_MSE p.val) = 0 ∧ t.get (Reg.HST_LINK_DSTATE p.val) = 0 ∧
    t.get (Reg.HST_EVT_FLR p.val) ≠ 0 ∧ (t.port p.val).flr = true ∧ t.cmds.all (fun e => e.2.port != p.val) = true ∧
    t.pairs.all (fun e => e.1 / 65536 != p.val) = true ∧ t.ats.all (fun e => e.port != p.val) = true ∧
    t.winLive = s.winLive ∧ EventFrame s t [Reg.HCTL_EN p.val, Reg.HSTS_BML p.val, Reg.HSTS_RESUME_WAIT p.val,
      Reg.HST_LINK_BME p.val, Reg.HST_LINK_MSE p.val, Reg.HST_LINK_ATS_EN p.val, Reg.HST_LINK_DSTATE p.val,
      Reg.HST_EVT_FLR p.val, Reg.HST_ATS_USED 0, Reg.HST_ATS_USED 1]) ∧
  (∀ (p : Fin 2) (s : State), Runs (.flrDone p) s fun t => (t.port p.val).flr = false ∧ t.cmds = s.cmds ∧
    FieldsKept s t [] ∧ BytesKept s t) ∧
  (∀ (p : Fin 2) (s : State), Runs (.linkDown p) s fun t => t.get (Reg.HST_LINK_UP p.val) = 0 ∧
    t.get (Reg.HST_LINK_LSTATE p.val) = 6 ∧ t.get (Reg.HCTL_EN p.val) = 0 ∧ t.get (Reg.HST_LINK_BME p.val) = 0 ∧
    (s.get (Reg.HST_LINK_UP p.val) = 1 → t.get (Reg.HST_EVT_LINK_DOWN p.val) ≠ 0) ∧
    t.cmds.all (fun e => e.2.port != p.val) = true ∧ t.pairs.all (fun e => e.1 / 65536 != p.val) = true ∧
    t.winLive = s.winLive ∧ BytesKept s t ∧ FieldsKept s t [Reg.HST_LINK_UP p.val, Reg.HST_LINK_LSTATE p.val,
      Reg.HST_LINK_RATE p.val, Reg.HST_LINK_WIDTH p.val, Reg.HST_LINK_FLIT p.val, Reg.HST_EVT_LINK_DOWN p.val,
      Reg.HCTL_EN p.val, Reg.HSTS_BML p.val, Reg.HSTS_RESUME_WAIT p.val, Reg.HST_LINK_BME p.val, Reg.HST_LINK_MSE p.val,
      Reg.HST_LINK_ATS_EN p.val, Reg.HST_LINK_DSTATE p.val, Reg.HST_ATS_USED 0, Reg.HST_ATS_USED 1]) ∧
  (∀ (p : Fin 2) (r w : Nat) (f : Bool) (s : State), s.linkOk p.val r w f = true →
    Runs (.linkTrainingDone p r w f) s fun t => t.get (Reg.HST_LINK_RATE p.val) = r ∧
      t.get (Reg.HST_LINK_WIDTH p.val) = w ∧ t.get (Reg.HST_LINK_FLIT p.val) = b2n f ∧
      t.get (Reg.HST_LINK_UP p.val) = 1 ∧ t.get (Reg.HST_LINK_LSTATE p.val) = 0 ∧ BytesKept s t ∧
      FieldsKept s t [Reg.HST_LINK_RATE p.val, Reg.HST_LINK_WIDTH p.val, Reg.HST_LINK_FLIT p.val, Reg.HST_LINK_UP p.val,
        Reg.HST_LINK_LSTATE p.val]) ∧
  (∀ (p : Fin 2) (r w : Nat) (f : Bool) (s : State), s.linkOk p.val r w f = false →
    Runs (.linkTrainingDone p r w f) s fun t => t = s) ∧
  (∀ (p : Fin 2) (l : Nat) (s : State), (s.get (Reg.HST_LINK_UP p.val) = 0 ∨ 4 < l ∨
    l = 1 ∧ s.get (Reg.HST_LINK_FLIT p.val) = 1) → Runs (.aspmLinkStateChange p l) s fun t => t = s) ∧
  (∀ (p : Fin 2) (l : Nat) (s : State), s.get (Reg.HST_LINK_UP p.val) = 1 → l ≤ 4 → (l = 1 → s.get (Reg.HST_LINK_FLIT p.val) = 0) → s.dev ≠ .doze →
    Runs (.aspmLinkStateChange p l) s fun t => t.get (Reg.HST_LINK_LSTATE p.val) = l ∧
      FieldsKept s t [Reg.HST_LINK_LSTATE p.val] ∧ BytesKept s t) ∧
  (∀ (p : Fin 2) (s : State), s.get (Reg.HST_LINK_UP p.val) = 1 → s.dev = .doze → (s.port p.val).linkSaved = none →
    (s.port p.val).speedDis = false → (s.port p.val).widthDis = false → Runs (.aspmLinkStateChange p 0) s fun t =>
      t.get (Reg.HST_LINK_RATE p.val) = 0 ∧ t.get (Reg.HST_LINK_WIDTH p.val) = 0 ∧
      (t.port p.val).linkSaved = some (s.get (Reg.HST_LINK_RATE p.val), s.get (Reg.HST_LINK_WIDTH p.val)) ∧
      FieldsKept s t [Reg.HST_LINK_LSTATE p.val, Reg.HST_LINK_RATE p.val, Reg.HST_LINK_WIDTH p.val] ∧ BytesKept s t)

/-- Setup words take legal values only while EN is 0; enabling creates the admin pair from them with P = 1, where both depths are there, and
disabling deletes the port's pairs and commands. A valid doorbell of the enabled port moves the tail or head, or both, and one for no pair or
beyond its depth is counted and reported.
A fetch that is due takes the entry next in order with the next sequence number, and the first check that fails fixes its
status. A fixed completion is posted where its queue has room and the port may move data; the tail advances and P turns
at the end. CREATE_QP and DELETE_QP make and remove pairs, or end with their status; ABORT ends an undecided command with
0x10, answers 1 or 2 where it is decided or absent, and ends with 0x02 where its queue is none. EVENT_WAIT takes the oldest pending event or waits, and the ninth is
refused. -/
def Obligations.QueuePairs : Prop :=
  (∀ (p : Fin 2) (v : Nat) (s : State), s.get (Reg.HCTL_EN p.val) = 0 → v % 4096 = 0 → v < 2 ^ 64 →
    Runs (.adminSetupWrite p 0x1000 8 v) s fun t => (t.port p.val).asq = v ∧ (t.port p.val).acq = (s.port p.val).acq ∧
      FieldsKept s t [] ∧ BytesKept s t) ∧
  (∀ (p : Fin 2) (v : Nat) (s : State), s.get (Reg.HCTL_EN p.val) = 0 → 2 ≤ bits v 16 0 → bits v 16 0 ≤ 4096 →
    2 ≤ bits v 48 32 → bits v 48 32 ≤ 4096 → Runs (.adminSetupWrite p 0x1010 8 v) s fun t =>
      (t.port p.val).adepth = adepthOf v ∧ (t.port p.val).asq = (s.port p.val).asq ∧ FieldsKept s t [] ∧ BytesKept s t) ∧
  (∀ (p : Fin 2) (off len v : Nat) (s : State), s.get (Reg.HCTL_EN p.val) = 1 ∨ len ≠ 8 ∨ off < 0x1000 ∨
    (off < 0x1010 ∧ v % 4096 ≠ 0) → Runs (.adminSetupWrite p off len v) s fun t => t = s) ∧
  (∀ (p : Fin 2) (s : State), s.get (Reg.HCTL_EN p.val) = 0 → bits (s.port p.val).adepth 16 0 ≠ 0 →
    bits (s.port p.val).adepth 48 32 ≠ 0 → Runs (.controllerEnable p) s fun t => t.get (Reg.HCTL_EN p.val) = 1 ∧
      t.pair p.val 0 = some (newPair (s.port p.val).asq (s.port p.val).acq (bits (s.port p.val).adepth 16 0)
        (bits (s.port p.val).adepth 48 32) 0 true) ∧ FieldsKept s t [Reg.HCTL_EN p.val] ∧ BytesKept s t) ∧
  (∀ (p : Fin 2) (s : State), s.get (Reg.HCTL_EN p.val) = 0 → (bits (s.port p.val).adepth 16 0 = 0 ∨
    bits (s.port p.val).adepth 48 32 = 0) → Runs (.controllerEnable p) s fun t => t.get (Reg.HCTL_EN p.val) = 1 ∧
      t.pairs = s.pairs ∧ FieldsKept s t [Reg.HCTL_EN p.val] ∧ BytesKept s t) ∧
  (∀ (p : Fin 2) (s : State), s.get (Reg.HCTL_EN p.val) = 1 → Runs (.controllerEnable p) s fun t => t = s) ∧
  (∀ (p : Fin 2) (s : State), s.get (Reg.HCTL_EN p.val) = 0 → Runs (.controllerDisable p) s fun t => t = s) ∧
  (∀ (p : Fin 2) (s : State), s.get (Reg.HCTL_EN p.val) = 1 → Runs (.controllerDisable p) s fun t =>
    t.get (Reg.HCTL_EN p.val) = 0 ∧ t.pairs.all (fun e => e.1 / 65536 != p.val) = true ∧
    t.cmds.all (fun e => e.2.port != p.val) = true ∧ (t.port p.val).asq = 0 ∧ (t.port p.val).adepth = 0 ∧
    FieldsKept s t [Reg.HCTL_EN p.val] ∧ BytesKept s t) ∧
  (∀ (p : Fin 2) (q : Fin 256) (v : Nat) (x : Pair) (s : State), s.get (Reg.HCTL_EN p.val) = 1 → s.pair p.val q.val = some x → v < 65536 → v < x.sqDepth →
    Runs (.doorbellWrite p (0x1000 + 8 * q.val) 4 v) s fun t => t.pair p.val q.val = some { x with sqTail := v } ∧
      FieldsKept s t [] ∧ BytesKept s t) ∧
  (∀ (p : Fin 2) (q : Fin 256) (v : Nat) (x : Pair) (s : State), s.get (Reg.HCTL_EN p.val) = 1 → s.pair p.val q.val = some x → v < 65536 → v < x.cqDepth →
    (v + x.cqDepth - x.cqHead) % x.cqDepth ≤ (x.cqTail + x.cqDepth - x.cqHead) % x.cqDepth →
    Runs (.doorbellWrite p (0x1004 + 8 * q.val) 4 v) s fun t => t.pair p.val q.val = some { x with cqHead := v } ∧
      FieldsKept s t [] ∧ BytesKept s t) ∧
  (∀ (p : Fin 2) (q : Fin 256) (v : Nat) (x : Pair) (s : State), s.get (Reg.HCTL_EN p.val) = 1 → s.pair p.val q.val = some x →
    bits v 15 0 < x.sqDepth → bits v 47 32 < x.cqDepth →
    (bits v 47 32 + x.cqDepth - x.cqHead) % x.cqDepth ≤ (x.cqTail + x.cqDepth - x.cqHead) % x.cqDepth →
    Runs (.doorbellWrite p (0x1000 + 8 * q.val) 8 v) s fun t =>
      t.pair p.val q.val = some { x with sqTail := bits v 15 0, cqHead := bits v 47 32 } ∧ FieldsKept s t [] ∧ BytesKept s t) ∧
  (∀ (p : Fin 2) (q : Fin 256) (v : Nat) (x : Pair) (s : State), s.get (Reg.HCTL_EN p.val) = 1 → s.pair p.val q.val = some x →
    v < 65536 → x.sqDepth ≤ v → Runs (.doorbellWrite p (0x1000 + 8 * q.val) 4 v) s fun t => t.pairs = s.pairs ∧
      t.get Reg.IQI_BAD_DB_COUNT = s.counted Reg.IQI_BAD_DB_COUNT 1 ∧ EventFrame s t [Reg.IQI_BAD_DB_COUNT]) ∧
  (∀ (p : Fin 2) (off len v : Nat) (s : State), (bar0Accepts off len = false ∨ off < 0x1000 ∨ 0x1800 ≤ off) →
    Runs (.doorbellWrite p off len v) s fun t => t = s) ∧
  (∀ (p : Fin 2) (q : Fin 256) (v : Nat) (s : State), s.get (Reg.HCTL_EN p.val) = 1 → s.pair p.val q.val = none →
    Runs (.doorbellWrite p (0x1000 + 8 * q.val) 4 v) s fun t => t.pairs = s.pairs ∧
      t.get Reg.IQI_BAD_DB_COUNT = s.counted Reg.IQI_BAD_DB_COUNT 1 ∧
      EventFrame s t [Reg.IQI_BAD_DB_COUNT]) ∧
  (∀ (p : Fin 2) (q : Nat) (x : Pair) (e : Nat) (l : Option (List (Nat × Nat))) (s : State), s.fetchReady p.val = true →
    s.lastPort ≠ p.val ∨ s.fetchReady (1 - p.val) = false → s.nextQueue p.val = some q → s.pair p.val q = some x →
    Runs (.commandFetch p e l) s fun t =>
      t.pair p.val q = some { x with sqHead := (x.sqHead + 1) % x.sqDepth } ∧ t.nextSeq = s.nextSeq + 1 ∧
      (∃ k, SMap.look t.cmds s.nextSeq = some k ∧ k.port = p.val ∧ k.qid = q ∧ k.sqe = e % 2 ^ 512 ∧
        k.sqhd = (x.sqHead + 1) % x.sqDepth ∧ ((s.fetchCheck p.val q (e % 2 ^ 512) l).1 ≠ 0 →
          k.commit = some ⟨(s.fetchCheck p.val q (e % 2 ^ 512) l).1, noInfo, 0⟩)) ∧
      FieldsKept s t [Reg.IQI_FETCHED_COUNT] ∧ BytesKept s t) ∧
  (∀ (p : Fin 2) (e : Nat) (l : Option (List (Nat × Nat))) (s : State), s.fetchReady p.val = false →
    Runs (.commandFetch p e l) s fun t => t = s) ∧
  (∀ (q : Nat) (k : Cmd) (c : Cpl) (x : Pair) (s : State), SMap.look s.cmds q = some k → k.commit = some c →
    s.pair k.port k.qid = some x → x.room = true → s.portRuns k.port = true → s.spt.failSrc = false → s.abortWaits q k = false →
    Runs (.completionPost q) s fun t =>
      t.out.contains (.completion k.port (x.cqBase + 16 * x.cqTail) (cplEntry k c (s.carries k) x.phase)) = true ∧
      SMap.look t.cmds q = none ∧
      t.pair k.port k.qid = some { x with cqTail := (x.cqTail + 1) % x.cqDepth, phase := (if (x.cqTail + 1) % x.cqDepth = 0 then !x.phase else x.phase) } ∧
      FieldsKept s t [Reg.IQI_POSTED_COUNT] ∧ BytesKept s t) ∧
  (∀ (q : Nat) (s : State), ((SMap.look s.cmds q).bind Cmd.commit = none ∨
    (SMap.look s.cmds q).all (fun k => !s.portRuns k.port) = true) → Runs (.completionPost q) s fun t => t = s) ∧
  (∀ (q : Nat) (k : Cmd) (s : State), s.runnable q 0x01 false = some k → 1 ≤ sqeAt k.sqe 8 2 → sqeAt k.sqe 8 2 ≤ 255 →
    sqeAt k.sqe 0x0A 2 ≤ 255 → sqeAt k.sqe 0x38 4 ≠ 1 → sqeAt k.sqe 0x3C 4 ≠ 1 → sqeAt k.sqe 0x28 8 % 4096 = 0 →
    sqeAt k.sqe 0x30 8 % 4096 = 0 → Runs (.createQp q) s fun t => FieldsKept s t [] ∧ BytesKept s t ∧
      (if (s.pair k.port (sqeAt k.sqe 8 2)).isSome then t.ended q 0x20 noInfo 0 ∧ t.pairs = s.pairs else
        t.ended q 0 noInfo 0 ∧ t.pair k.port (sqeAt k.sqe 8 2) = some (newPair (sqeAt k.sqe 0x28 8) (sqeAt k.sqe 0x30 8)
          (sqeAt k.sqe 0x38 4) (sqeAt k.sqe 0x3C 4) (sqeAt k.sqe 0x0A 2) (hasBit (sqeAt k.sqe 0x0C 1) 0)))) ∧
  (∀ (q : Nat) (k : Cmd) (s : State), s.runnable q 0x01 false = some k →
    sqeAt k.sqe 8 2 = 0 ∨ 255 < sqeAt k.sqe 8 2 ∨ 255 < sqeAt k.sqe 0x0A 2 ∨ sqeAt k.sqe 0x28 8 % 4096 ≠ 0 →
    Runs (.createQp q) s fun t => t.ended q 0x02 noInfo 0 ∧ t.pairs = s.pairs ∧ FieldsKept s t [] ∧ BytesKept s t) ∧
  (∀ (q : Nat) (k : Cmd) (s : State), s.runnable q 0x02 false = some k → sqeAt k.sqe 8 2 ≠ 0 →
    Runs (.deleteQp q) s fun t => FieldsKept s t [] ∧ BytesKept s t ∧
      (if (s.pair k.port (sqeAt k.sqe 8 2)).isNone then t.ended q 0x21 noInfo 0 ∧ t.pairs = s.pairs else
        t.ended q 0 noInfo 0 ∧ t.pair k.port (sqeAt k.sqe 8 2) = none ∧
        t.cmds.all (fun e => e.2.port != k.port || e.2.qid != sqeAt k.sqe 8 2) = true)) ∧
  (∀ (q : Nat) (k : Cmd) (q' : Nat) (k' : Cmd) (s : State), s.runnable q 0x03 false = some k → sqeAt k.sqe 8 2 ≠ 0 →
    (s.pair k.port (sqeAt k.sqe 8 2)).isSome = true → SMap.look s.cmds q' = some k' →
    s.cmds.find? (fun c => c.2.port == k.port && c.2.qid == sqeAt k.sqe 8 2 && c.2.cid == sqeAt k.sqe 0x0A 2) = some (q', k') →
    Runs (.abort q) s fun t => BytesKept s t ∧ FieldsKept s t [Reg.IQI_ABORT_CAUGHT_COUNT] ∧
      (if k'.open then t.ended q' 0x10 noInfo 0 ∧ t.ended q 0 noInfo 0 ∧
          t.get Reg.IQI_ABORT_CAUGHT_COUNT = s.counted Reg.IQI_ABORT_CAUGHT_COUNT 1
        else t.ended q 0 noInfo 1 ∧ SMap.look t.cmds q' = some k')) ∧
  (∀ (q : Nat) (k : Cmd) (s : State), s.runnable q 0x02 false = some k → sqeAt k.sqe 8 2 = 0 →
    Runs (.deleteQp q) s fun t => t.ended q 0x02 noInfo 0 ∧ t.pairs = s.pairs ∧ FieldsKept s t [] ∧ BytesKept s t) ∧
  (∀ (q : Nat) (k : Cmd) (s : State), s.runnable q 0x03 false = some k → (sqeAt k.sqe 8 2 = 0 ∨
    (s.pair k.port (sqeAt k.sqe 8 2)).isNone = true) → Runs (.abort q) s fun t => t.ended q 0x02 noInfo 0 ∧
      FieldsKept s t [] ∧ BytesKept s t) ∧
  (∀ (q : Nat) (k : Cmd) (s : State), s.runnable q 0x03 false = some k → sqeAt k.sqe 8 2 ≠ 0 →
    (s.pair k.port (sqeAt k.sqe 8 2)).isSome = true →
    s.cmds.find? (fun c => c.2.port == k.port && c.2.qid == sqeAt k.sqe 8 2 && c.2.cid == sqeAt k.sqe 0x0A 2) = none →
    Runs (.abort q) s fun t => t.ended q 0 noInfo 2 ∧ FieldsKept s t [] ∧ BytesKept s t) ∧
  (∀ (q : Nat) (k : Cmd) (e : Nat × Nat) (es : List (Nat × Nat)) (s : State), s.runnable q 0x04 false = some k →
    k.begun = false → s.waits k.port = 0 → s.evOf k.port = e :: es → Runs (.eventWait q) s fun t =>
      t.ended q 0 noInfo (evResult e) ∧ t.evOf k.port = es ∧ FieldsKept s t [] ∧ BytesKept s t) ∧
  (∀ (q : Nat) (k : Cmd) (s : State), s.runnable q 0x04 false = some k → k.begun = false → s.waits k.port < 8 →
    s.evOf k.port = [] → Runs (.eventWait q) s fun t => SMap.look t.cmds q = some { k with begun := true } ∧
      FieldsKept s t [] ∧ BytesKept s t) ∧
  (∀ (q : Nat) (k : Cmd) (s : State), s.runnable q 0x04 false = some k → k.begun = false → 8 ≤ s.waits k.port →
    Runs (.eventWait q) s fun t => t.ended q 0x06 noInfo 0 ∧ FieldsKept s t [] ∧ BytesKept s t)

/-- With the heads loaded, a READ whose blocks the media yield sends each to its place in host memory and ends with status 0;
the first block that fails ends it with that status and index; while the heads are not loaded a READ or VERIFY of a block on
the media waits. Blocks never written read as zeros; a block in the buffer reads from there; and a READ waits for undecided
effects of lower number. VERIFY ends as READ does and sends nothing. A WRITE to blocks with a sector left stores them at
their places, undecided until acknowledged; a host error at block i ends it there, and so does with status 0x14 a block that
no sector is left for. WRITE_ACK ends it once no block awaits the media, with the first failure where there is one. FLUSH ends
once the blocks it covered are gone. ZONE_RESET empties its zones and their LBAs and ZONE_FINISH fills them in place, but for
the zone states while a save has the metadata frozen; ZONE_REPORT sends the descriptors and answers the zones left. -/
def Obligations.IoCommands : Prop :=
  (∀ (q : Nat) (k : Cmd) (vs : List Nat) (a l : Nat) (s : State), s.runnable q 0x10 true = some k → s.readClear q k = true →
    s.pwr.headsLoaded = true → vs.length = sqeLen k.sqe → k.segs = [(a, l)] → 4112 * vs.length ≤ l → sqeGuard k.sqe = false →
    (List.range vs.length).all (fun i => s.fromMedia q (sqeNsid k.sqe) (sqeSlba k.sqe + i)) = true →
    Runs (.read q (vs.map .good)) s fun t => t.ended q 0 noInfo 0 ∧ FieldsKept s t [] ∧ BytesKept s t ∧
      ((List.range vs.length).zip vs).all (fun x =>
        t.out.contains (.hostWrite k.port (a + 4112 * x.1) 4112 (x.2 % 256 ^ 4112))) = true) ∧
  (∀ (q : Nat) (k : Cmd) (vs : List Nat) (c : Nat) (ms : List MediaRes) (s : State), s.runnable q 0x10 true = some k →
    s.readClear q k = true → s.pwr.headsLoaded = true → vs.length + 1 + ms.length = sqeLen k.sqe → sqeGuard k.sqe = false →
    (List.range (vs.length + 1)).all (fun i => s.fromMedia q (sqeNsid k.sqe) (sqeSlba k.sqe + i)) = true →
    Runs (.read q (vs.map .good ++ .bad c :: ms)) s fun t => t.ended q c vs.length 0 ∧ FieldsKept s t [] ∧ BytesKept s t) ∧
  (∀ (q : Nat) (k : Cmd) (ms : List MediaRes) (a l : Nat) (s : State), s.runnable q 0x10 true = some k →
    s.readClear q k = true → ms.length = sqeLen k.sqe → k.segs = [(a, l)] → 4112 * ms.length ≤ l →
    sqeGuard k.sqe = false →
    (List.range ms.length).all (fun i => s.blank q (sqeNsid k.sqe) (sqeSlba k.sqe + i)) = true →
    Runs (.read q ms) s fun t => t.ended q 0 noInfo 0 ∧ FieldsKept s t [] ∧ BytesKept s t ∧
      (List.range ms.length).all (fun i => t.out.contains (.hostWrite k.port (a + 4112 * i) 4112 0)) = true) ∧
  (∀ (q : Nat) (k : Cmd) (m : MediaRes) (x a l : Nat) (s : State), s.runnable q 0x10 true = some k →
    s.readClear q k = true → sqeLen k.sqe = 1 → k.segs = [(a, l)] → 4112 ≤ l → sqeGuard k.sqe = false →
    s.buffered q (sqeNsid k.sqe) (sqeSlba k.sqe) = some x →
    s.clean x 4112 = true → Runs (.read q [m]) s fun t =>
      t.ended q 0 noInfo 0 ∧ FieldsKept s t [] ∧ BytesKept s t ∧
      t.out.contains (.hostWrite k.port a 4112 (s.loadMem x 4112 % 256 ^ 4112)) = true) ∧
  (∀ (q : Nat) (k : Cmd) (ms : List MediaRes) (s : State), s.runnable q 0x10 true = some k → s.readClear q k = false →
    Runs (.read q ms) s fun t => t = s) ∧
  (∀ (q : Nat) (k : Cmd) (ms : List MediaRes) (s : State), s.runnable q 0x10 true = some k → 1 ≤ sqeLen k.sqe →
    s.pwr.headsLoaded = false → s.fromMedia q (sqeNsid k.sqe) (sqeSlba k.sqe) = true →
    Runs (.read q ms) s fun t => t = s) ∧
  (∀ (q : Nat) (k : Cmd) (ms : List MediaRes) (s : State), s.runnable q 0x12 true = some k → 1 ≤ sqeLen k.sqe →
    s.pwr.headsLoaded = false → s.fromMedia q (sqeNsid k.sqe) (sqeSlba k.sqe) = true →
    Runs (.verify q ms) s fun t => t = s) ∧
  (∀ (q : Nat) (k : Cmd) (vs : List Nat) (s : State), s.runnable q 0x12 true = some k → s.readClear q k = true →
    s.pwr.headsLoaded = true → vs.length = sqeLen k.sqe →
    (List.range vs.length).all (fun i => s.fromMedia q (sqeNsid k.sqe) (sqeSlba k.sqe + i)) = true →
    Runs (.verify q (vs.map .good)) s fun t => t.ended q 0 noInfo 0 ∧ t.out = s.out ∧ FieldsKept s t [] ∧
      BytesKept s t) ∧
  (∀ (q : Nat) (k : Cmd) (vs : List Nat) (c : Nat) (ms : List MediaRes) (s : State), s.runnable q 0x12 true = some k →
    s.readClear q k = true → s.pwr.headsLoaded = true → vs.length + 1 + ms.length = sqeLen k.sqe →
    (List.range (vs.length + 1)).all (fun i => s.fromMedia q (sqeNsid k.sqe) (sqeSlba k.sqe + i)) = true →
    Runs (.verify q (vs.map .good ++ .bad c :: ms)) s fun t => t.ended q c vs.length 0 ∧ t.out = s.out ∧
      FieldsKept s t [] ∧ BytesKept s t) ∧
  (∀ (q : Nat) (k : Cmd) (bs : List (Nat × Nat)) (s : State), s.runnable q 0x11 true = some k → k.begun = false →
    bs.length = sqeLen k.sqe → s.placesGood (bs.map Prod.fst) = true →
    (!sqeGuard k.sqe || bs.all (fun x => guardOk x.2)) = true →
    (List.range bs.length).all (fun i => !s.unwritable (sqeNsid k.sqe) (sqeSlba k.sqe + i)) = true → Runs (.write q bs none) s fun t =>
      SMap.look t.cmds q = some { k with begun := true } ∧ FieldsKept s t [] ∧
      bs.all (fun x => t.loadMem x.1 4112 == x.2 % 256 ^ 4112) = true ∧
      (∀ a : Nat, bs.all (fun x => decide (a < x.1) || decide (x.1 + 4112 ≤ a)) = true → t.byte a = s.byte a) ∧
      ((List.range bs.length).zip bs).all (fun x => match SMap.look t.cache x.2.1 with
        | some e => e.nsid == sqeNsid k.sqe && e.lba == sqeSlba k.sqe + x.1 && e.seq == q && !e.committed && e.err == none &&
            (s.ackMode k.sqe == 2 || e.mode == s.ackMode k.sqe)
        | none => false) = true) ∧
  (∀ (q : Nat) (k : Cmd) (bs : List (Nat × Nat)) (i : Nat) (s : State), s.runnable q 0x11 true = some k →
    k.begun = false → i < sqeLen k.sqe → bs.length = i → s.placesGood (bs.map Prod.fst) = true →
    (!sqeGuard k.sqe || bs.all (fun x => guardOk x.2)) = true →
    (List.range bs.length).all (fun i => !s.unwritable (sqeNsid k.sqe) (sqeSlba k.sqe + i)) = true → Runs (.write q bs (some i)) s fun t =>
      t.ended q 0x12 i 0 ∧ FieldsKept s t [] ∧
      (∀ a : Nat, bs.all (fun x => decide (a < x.1) || decide (x.1 + 4112 ≤ a)) = true → t.byte a = s.byte a)) ∧
  (∀ (q : Nat) (k : Cmd) (bs cs : List (Nat × Nat)) (s : State), s.runnable q 0x11 true = some k → k.begun = false →
    cs ≠ [] → (bs ++ cs).length = sqeLen k.sqe → s.placesGood ((bs ++ cs).map Prod.fst) = true →
    (!sqeGuard k.sqe || (bs ++ cs).all (fun x => guardOk x.2)) = true →
    (List.range bs.length).all (fun i => !s.unwritable (sqeNsid k.sqe) (sqeSlba k.sqe + i)) = true →
    s.unwritable (sqeNsid k.sqe) (sqeSlba k.sqe + bs.length) = true → Runs (.write q (bs ++ cs) none) s fun t =>
      t.ended q 0x14 bs.length 0 ∧ FieldsKept s t [] ∧
      (∀ a : Nat, bs.all (fun x => decide (a < x.1) || decide (x.1 + 4112 ≤ a)) = true → t.byte a = s.byte a)) ∧
  (∀ (q : Nat) (k : Cmd) (s : State), s.runnable q 0x11 true = some k → k.begun = true →
    s.cache.all (fun e => e.2.seq != q || (e.2.mode != 3 && e.2.err == none)) = true → Runs (.writeAck q) s fun t =>
      t.ended q 0 noInfo 0 ∧ t.cache = s.cache.map (fun (e : Nat × CacheBlk) =>
        (e.1, if e.2.seq = q then { e.2 with committed := true } else e.2)) ∧ FieldsKept s t [] ∧ BytesKept s t) ∧
  (∀ (q : Nat) (k : Cmd) (l c : Nat) (s : State), s.runnable q 0x11 true = some k → k.begun = true →
    (s.cache.filter (fun e => e.2.seq == q)).any (fun e => e.2.awaits) = false →
    firstErr (s.cache.filter (fun e => e.2.seq == q)) = some (l, c) → Runs (.writeAck q) s fun t =>
      t.ended q c (l - sqeSlba k.sqe) 0 ∧ FieldsKept s t [] ∧ BytesKept s t) ∧
  (∀ (q : Nat) (k : Cmd) (s : State), s.runnable q 0x11 true = some k →
    s.cache.any (fun e => e.2.seq == q && e.2.awaits) = true → Runs (.writeAck q) s fun t => t = s) ∧
  (∀ (q : Nat) (k : Cmd) (s : State), s.runnable q 0x18 true = some k → Runs (.flush q) s fun t =>
    SMap.look t.cmds q = some { k with begun := true } ∧ t.cache = s.cache ∧ FieldsKept s t [] ∧ BytesKept s t) ∧
  (∀ (q : Nat) (k : Cmd) (s : State), s.runnable q 0x18 true = some k → k.begun = true →
    k.flushSet.all (fun a => (SMap.look s.cache a).isNone) = true → Runs (.flushComplete q) s fun t =>
      t.ended q 0 noInfo 0 ∧ FieldsKept s t [] ∧ BytesKept s t) ∧
  (∀ (q : Nat) (k : Cmd) (a : Nat) (e : CacheBlk) (s : State), s.runnable q 0x18 true = some k → a ∈ k.flushSet →
    SMap.look s.cache a = some e → e.seq < q → Runs (.flushComplete q) s fun t => t = s) ∧
  (∀ (q : Nat) (k : Cmd) (x : Span) (s : State), s.runnable q 0x20 true = some k → sqeSpan k.sqe = some x →
    s.zoneReady q x = true → s.cmds.all (fun e => !e.2.waiting) = true → Runs (.zoneReset q) s fun t =>
      t.ended q 0 noInfo 0 ∧ (if s.spt.frozenMeta then t.spt.zones = s.spt.zones
        else (sqeZones k.sqe).all (fun z => t.zone x.nsid z == ⟨0, 0⟩) = true) ∧
      t.media.written.all (fun e => !keyInSpan x e.1) = true ∧ FieldsKept s t [] ∧ BytesKept s t) ∧
  (∀ (q : Nat) (k : Cmd) (x : Span) (s : State), s.runnable q 0x21 true = some k → sqeSpan k.sqe = some x →
    s.zoneReady q x = true → s.cmds.all (fun e => !e.2.waiting) = true → Runs (.zoneFinish q) s fun t =>
      t.ended q 0 noInfo 0 ∧ (if s.spt.frozenMeta then t.spt.zones = s.spt.zones
        else (sqeZones k.sqe).all (fun z => t.zone x.nsid z == { s.zone x.nsid z with st := 2 }) = true) ∧
      FieldsKept s t [] ∧ BytesKept s t) ∧
  (∀ (q : Nat) (k : Cmd) (a l m : Nat) (s : State), s.runnable q 0x22 true = some k → k.segs = [(a, l)] →
    m = min (sqeLen k.sqe) (s.nsCap (sqeNsid k.sqe) / zoneBlocks - sqeSlba k.sqe / zoneBlocks) → 1 ≤ m → 32 * m ≤ l →
    Runs (.zoneReport q) s fun t =>
      t.ended q 0 noInfo (s.nsCap (sqeNsid k.sqe) / zoneBlocks - sqeSlba k.sqe / zoneBlocks) ∧ FieldsKept s t [] ∧
      BytesKept s t ∧ t.out.contains (.hostWrite k.port a (32 * m) (layout ((List.range m).map (fun i =>
        (32 * i, 32, s.zoneDesc (sqeNsid k.sqe) (sqeSlba k.sqe / zoneBlocks + i)))) % 256 ^ (32 * m))) = true)

/-- SEC_BOOT, the boot-record interface: a write with KEY 0x5A5A and CONFIRM 1 during a running trial sets the state to
CONFIRMED (trial ends) and clears FALLBACK_USED; while TRIAL is 0, or REMAIN is 0 because the trial time is over, it is
refused with code 3 and changes nothing of the boot record. -/
def Obligations.BootConfirm : Prop :=
  (∀ (v : Word) (s : State), bits v.toNat 31 16 = 0x5A5A → hasBit v.toNat 15 = true → s.adm.boot.trial = true →
    s.adm.trialOver = false → Runs (.bootConfirm v) s fun t =>
      t.adm.boot = { s.adm.boot with trial := false, fallbackUsed := false } ∧ FieldsKept s t [] ∧ BytesKept s t) ∧
  (∀ (v : Word) (s : State), bits v.toNat 31 16 = 0x5A5A → hasBit v.toNat 15 = true →
    s.adm.boot.trial = false ∨ s.adm.trialOver = true → s.get Reg.SEC_CFG_STATUS_ERR = 0 →
    Runs (.bootConfirm v) s fun t => t.adm = s.adm ∧ t.get Reg.SEC_CFG_STATUS_ERR = 1 ∧
      t.get Reg.SEC_CFG_STATUS_CODE = 3 ∧ FieldsKept s t [Reg.SEC_CFG_STATUS_ERR, Reg.SEC_CFG_STATUS_CODE] ∧
      BytesKept s t) ∧
  (∀ (v : Word) (s : State), bits v.toNat 31 16 = 0x5A5A → hasBit v.toNat 15 = true →
    s.adm.boot.trial = false ∨ s.adm.trialOver = true → s.get Reg.SEC_CFG_STATUS_ERR = 1 →
    Runs (.bootConfirm v) s fun t => t = s) ∧
  (∀ (v : Word) (s : State), bits v.toNat 31 16 ≠ 0x5A5A ∨ hasBit v.toNat 15 = false →
    Runs (.bootConfirm v) s fun t => t = s)

/-- IDENTIFY sends the controller or the namespace structure. GET_LOG sends the page's bytes from OFFSET on, as they stood
at the fetch, and CLEAR removes the records it returned whole (no deferred error while a save has the metadata frozen); an offset outside the page ends with 0x02. A feature takes a
legal value, kept when SAVE is set, and any other ends with 0x49. A download at OFFSET 0 starts a new package and ends a
pending commit, the next unit follows on, and one out of sequence ends with 0x47. A commit that no check refuses becomes
pending, or is cancelled, and a refused one changes nothing. The end of the trial time and the temperature threshold report
once. SMBus answers the status block and takes an address, ignores a transaction with a wrong PEC, and answers nothing while
its pins are down. -/
def Obligations.Administration : Prop :=
  (∀ (q : Nat) (k : Cmd) (a l : Nat) (s : State), s.runnable q 0x06 false = some k → sqeAt k.sqe 0x28 1 = 0 →
    k.segs = [(a, l)] → 4096 ≤ l → Runs (.identifyController q) s fun t => t.ended q 0 noInfo 0 ∧
      t.out.contains (.hostWrite k.port a 4096 (s.controller k.port % 256 ^ 4096)) = true ∧ FieldsKept s t [] ∧
      BytesKept s t) ∧
  (∀ (q : Nat) (k : Cmd) (a l : Nat) (s : State), s.runnable q 0x06 false = some k → sqeAt k.sqe 0x28 1 = 1 →
    k.segs = [(a, l)] → 4096 ≤ l → Runs (.identifyNamespace q) s fun t => t.ended q 0 noInfo 0 ∧
      t.out.contains (.hostWrite k.port a 4096 (s.namespaceStruct (sqeNsid k.sqe) % 256 ^ 4096)) = true ∧
      FieldsKept s t [] ∧ BytesKept s t) ∧
  (∀ (q : Nat) (k : Cmd) (a l : Nat) (s : State), s.runnable q 0x08 false = some k → sqeAt k.sqe 0x28 1 = 0x02 →
    logCheck k.sqe (some k.snap.1) = 0 → k.segs = [(a, l)] → 1 ≤ logLen k.sqe → logLen k.sqe ≤ l →
    Runs (.getLogHealth q) s fun t => t.ended q 0 noInfo 0 ∧ FieldsKept s t [] ∧ BytesKept s t ∧
      t.out.contains (.hostWrite k.port a (logLen k.sqe)
        (bytesAt (k.snap.2 % 256 ^ k.snap.1) (logOffset k.sqe) (logLen k.sqe))) = true) ∧
  (∀ (q : Nat) (k : Cmd) (a l : Nat) (s : State), s.runnable q 0x08 false = some k → sqeAt k.sqe 0x28 1 = 0x03 →
    logCheck k.sqe (some k.snap.1) = 0 → k.segs = [(a, l)] → 1 ≤ logLen k.sqe → logLen k.sqe ≤ l →
    Runs (.getLogFwSlots q) s fun t => t.ended q 0 noInfo 0 ∧ FieldsKept s t [] ∧ BytesKept s t ∧
      t.out.contains (.hostWrite k.port a (logLen k.sqe)
        (bytesAt (k.snap.2 % 256 ^ k.snap.1) (logOffset k.sqe) (logLen k.sqe))) = true) ∧
  (∀ (q : Nat) (k : Cmd) (s : State), s.runnable q 0x08 false = some k → sqeAt k.sqe 0x28 1 = 0x02 →
    logCheck k.sqe (some k.snap.1) = 2 → Runs (.getLogHealth q) s fun t => t.ended q 2 noInfo 0 ∧ t.out = s.out ∧
      FieldsKept s t [] ∧ BytesKept s t) ∧
  (∀ (q : Nat) (k : Cmd) (a l : Nat) (s : State), s.runnable q 0x08 false = some k → sqeAt k.sqe 0x28 1 = 0x0C →
    logCheck k.sqe (some k.snap.1) = 0 → k.segs = [(a, l)] → 1 ≤ logLen k.sqe → logLen k.sqe ≤ l →
    Runs (.getLogDeferredErrors q) s fun t => t.ended q 0 noInfo 0 ∧ FieldsKept s t [] ∧ BytesKept s t ∧
      t.out.contains (.hostWrite k.port a (logLen k.sqe)
        (bytesAt (k.snap.2 % 256 ^ k.snap.1) (logOffset k.sqe) (logLen k.sqe))) = true ∧
      t.spt.delLost = (if logClear k.sqe && !s.spt.frozenMeta then 0 else s.spt.delLost) ∧
      ((logClear k.sqe && !s.spt.frozenMeta) = false → t.spt.del = s.spt.del) ∧
      ((logClear k.sqe && !s.spt.frozenMeta) = true → t.spt.del = s.spt.del.filter (fun r =>
        !((wholeRecords k.sqe 16 32 ((k.snap.1 - 16) / 32)).map (fun i => bytesAt k.snap.2 (16 + 32 * i) 32)).contains
          r.encode))) ∧
  (∀ (q : Nat) (k : Cmd) (a l : Nat) (s : State), s.runnable q 0x08 false = some k → sqeAt k.sqe 0x28 1 = 0x0E →
    logCheck k.sqe (some k.snap.1) = 0 → k.segs = [(a, l)] → 1 ≤ logLen k.sqe → logLen k.sqe ≤ l →
    Runs (.getLogEventRecords q) s fun t => t.ended q 0 noInfo 0 ∧ FieldsKept s t [] ∧ BytesKept s t ∧
      t.out.contains (.hostWrite k.port a (logLen k.sqe)
        (bytesAt (k.snap.2 % 256 ^ k.snap.1) (logOffset k.sqe) (logLen k.sqe))) = true ∧
      SMap.get t.evr.readStart 0 k.port = (match logClear k.sqe,
          (wholeRecords k.sqe 64 64 ((k.snap.1 - 64) / 64)).getLast? with
        | true, some i => bytesAt k.snap.2 0 8 + i + 1
        | _, _ => SMap.get s.evr.readStart 0 k.port)) ∧
  (∀ (q : Nat) (k : Cmd) (s : State), s.runnable q 0x09 false = some k →
    featOk (sqeAt k.sqe 0x28 1) (sqeAt k.sqe 0x2C 4) = true → Runs (.setFeature q) s fun t => t.ended q 0 noInfo 0 ∧
      t.feature (sqeAt k.sqe 0x28 1) = sqeAt k.sqe 0x2C 4 ∧
      t.savedFeature (sqeAt k.sqe 0x28 1) = (if hasBit (sqeAt k.sqe 0x29 1) 0 then sqeAt k.sqe 0x2C 4
        else s.savedFeature (sqeAt k.sqe 0x28 1)) ∧ FieldsKept s t [] ∧ BytesKept s t) ∧
  (∀ (q : Nat) (k : Cmd) (s : State), s.runnable q 0x09 false = some k →
    featOk (sqeAt k.sqe 0x28 1) (sqeAt k.sqe 0x2C 4) = false → Runs (.setFeature q) s fun t =>
      t.ended q 0x49 noInfo 0 ∧ t.feat = s.feat ∧ t.featSaved = s.featSaved ∧ FieldsKept s t [] ∧ BytesKept s t) ∧
  (∀ (q : Nat) (k : Cmd) (s : State), s.runnable q 0x0A false = some k → Runs (.getFeature q) s fun t =>
    (if (featDefault (sqeAt k.sqe 0x28 1)).isNone then t.ended q 0x49 noInfo 0
      else t.ended q 0 noInfo (if hasBit (sqeAt k.sqe 0x29 1) 0 then s.savedFeature (sqeAt k.sqe 0x28 1)
        else s.feature (sqeAt k.sqe 0x28 1))) ∧ t.feat = s.feat ∧ FieldsKept s t [] ∧ BytesKept s t) ∧
  (∀ (q : Nat) (k : Cmd) (us : List Nat) (s : State), s.runnable q 0x0C false = some k → sqeAt k.sqe 0x28 4 = 0 →
    us.length = sqeLen k.sqe → Runs (.fwDownload q (some us)) s fun t => t.ended q 0 noInfo 0 ∧
      t.adm.received = some us.length ∧ t.adm.boot = { s.adm.boot with pending := false } ∧
      t.adm.staging = SMap.putList [] 0 0 (us.map (· % 256 ^ 4096)) ∧ FieldsKept s t [] ∧ BytesKept s t) ∧
  (∀ (q : Nat) (k : Cmd) (us : List Nat) (s : State), s.runnable q 0x0C false = some k → sqeAt k.sqe 0x28 4 ≠ 0 →
    s.adm.received = some (sqeAt k.sqe 0x28 4) → us.length = sqeLen k.sqe → Runs (.fwDownload q (some us)) s fun t =>
      t.ended q 0 noInfo 0 ∧ t.adm.received = some (sqeAt k.sqe 0x28 4 + us.length) ∧ t.adm.boot = s.adm.boot ∧
      t.adm.staging = SMap.putList s.adm.staging 0 (sqeAt k.sqe 0x28 4) (us.map (· % 256 ^ 4096)) ∧ FieldsKept s t [] ∧
      BytesKept s t) ∧
  (∀ (q : Nat) (k : Cmd) (us : Option (List Nat)) (s : State), s.runnable q 0x0C false = some k →
    sqeAt k.sqe 0x28 4 ≠ 0 → s.adm.received ≠ some (sqeAt k.sqe 0x28 4) → Runs (.fwDownload q us) s fun t =>
      t.ended q 0x47 noInfo 0 ∧ t.adm = s.adm ∧ FieldsKept s t [] ∧ BytesKept s t) ∧
  (∀ (q : Nat) (k : Cmd) (s : State), s.runnable q 0x0D false = some k → sqeAt k.sqe 0x28 1 = 0 →
    Runs (.fwCommitCancel q) s fun t => t.ended q s.commitGuard noInfo 0 ∧
      t.adm.boot = (if s.commitGuard = 0 then { s.adm.boot with pending := false } else s.adm.boot) ∧ FieldsKept s t [] ∧
      BytesKept s t) ∧
  (∀ (q : Nat) (k : Cmd) (g : PkgCheck) (s : State), s.runnable q 0x0D false = some k → sqeAt k.sqe 0x28 1 = 1 →
    Runs (.fwCommitPending q g) s fun t => t.ended q (s.commitCheck g) noInfo 0 ∧
      t.adm.boot = (if s.commitCheck g = 0 then { s.adm.boot with pending := true } else s.adm.boot) ∧ FieldsKept s t [] ∧
      BytesKept s t) ∧
  (∀ (q : Nat) (k : Cmd) (g : PkgCheck) (s : State), s.runnable q 0x0D false = some k → sqeAt k.sqe 0x28 1 = 2 →
    Runs (.fwCommitReset q g) s fun t => t.ended q (s.commitCheck g) noInfo 0 ∧
      t.adm.boot = (if s.commitCheck g = 0 then { s.adm.boot with pending := true } else s.adm.boot) ∧ FieldsKept s t [] ∧
      BytesKept s t) ∧
  (∀ (g : PkgCheck) (s : State), s.sec.ownerLock = true → s.commitCheck g = 0x40) ∧
  (∀ (g : PkgCheck) (s : State), s.commitGuard = 0 → s.stagedComplete = false → s.commitCheck g = 0x44) ∧
  (∀ (g : PkgCheck) (p : FwPkg) (s : State), s.commitGuard = 0 → s.stagedPkg = some p → g.ecdsa = true → g.mldsa = true →
    compatible Config.stepping (mergedDescs p s.adm.active) = true → (composite p s.adm.active).fits = true →
    s.commitCheck g = 0) ∧
  (∀ s : State, s.adm.boot.trial = true → s.ready = true → s.adm.trialOver = false → Runs .trialTimeout s fun t =>
    t.adm = { s.adm with trialOver := true } ∧ FieldsKept s t [] ∧ BytesKept s t) ∧
  (∀ (n : Nat) (s : State), s.feature 4 ≤ n → s.adm.hot = false → Runs (.tempWarn n) s fun t =>
    t.adm = { s.adm with hot := true } ∧ FieldsKept s t [] ∧ BytesKept s t) ∧
  (∀ (n : Nat) (s : State), n < s.feature 4 ∨ s.adm.hot = true → Runs (.tempWarn n) s fun t => t = s) ∧
  (∀ (n : Nat) (s : State), n + 5 ≤ s.feature 4 → Runs (.tempWarnRearm n) s fun t =>
    t.adm = { s.adm with hot := false } ∧ FieldsKept s t [] ∧ BytesKept s t) ∧
  (∀ s : State, s.smbLive = true → Runs .smbusStatusRead s fun t => bytesAt t.resp.bytes 0 2 = 0x4816 ∧
    bytesAt t.resp.bytes 3 1 = s.smbMode % 256 ∧ bytesAt t.resp.bytes 4 1 % 2 = b2n s.ready ∧
    bytesAt t.resp.bytes 6 1 = s.get Reg.BUF_STATUS_TEMP % 256 ∧ FieldsKept s t [] ∧ BytesKept s t) ∧
  (∀ s : State, s.smbLive = false → Runs .smbusStatusRead s fun t => t = s.answer .nack) ∧
  (∀ (v : Word) (s : State), s.smbLive = true → Runs (.smbusAddressWrite v true) s fun t => t.adm = { s.adm with smbAddr := v.toNat } ∧
    FieldsKept s t [] ∧ BytesKept s t) ∧
  (∀ (v : Word) (s : State), s.smbLive = true → Runs (.smbusAddressWrite v false) s fun t => t = s) ∧
  (∀ (v : Word) (b : Bool) (s : State), s.smbLive = false → Runs (.smbusAddressWrite v b) s fun t => t = s.answer .nack) ∧
  (∀ s : State, Runs .smbusBusTimeout s fun t => t = s.answer .nack)

/-- SEC_INFO sends its item in LENGTH bytes, and a length not a multiple of 4 ends with 0x02. ATTEST and GET_RANDOM send the
report or random bytes, and end with 0x16 and reason 7 while the RNG has failed. A token that is refused is counted, with its
reason; one that is accepted locks every range and waits, and the port opens once no media key is loaded and the window is
empty: the sessions end then. A range's key is discarded once its writes are done. An agreement starts at the rekey limit,
the old key ends, and at the key limit a session stops. GO starts a request, refused with code 4 while one runs, and its end
gives status, reason and output. -/
def Obligations.SecurityServices : Prop :=
  (∀ (q : Nat) (k : Cmd) (a l : Nat) (s : State), s.runnable q 0x80 false = some k → sqeAt k.sqe 0x28 1 = 0 →
    sqeLen k.sqe % 4 = 0 → k.segs = [(a, l)] → 1 ≤ sqeLen k.sqe → sqeLen k.sqe ≤ l →
    Runs (.secInfoDeviceNonce q) s fun t => t.ended q 0 noInfo 0 ∧ FieldsKept s t [] ∧ BytesKept s t ∧
      t.out.contains (.hostWrite k.port a (sqeLen k.sqe) (s.sec.nonce.getD 0 % 256 ^ 32 % 256 ^ sqeLen k.sqe)) = true) ∧
  (∀ (q : Nat) (k : Cmd) (a l : Nat) (s : State), s.runnable q 0x80 false = some k → sqeAt k.sqe 0x28 1 = 1 →
    sqeLen k.sqe % 4 = 0 → k.segs = [(a, l)] → 1 ≤ sqeLen k.sqe → sqeLen k.sqe ≤ l →
    Runs (.secInfoEnvelopeKeys q) s fun t => t.ended q 0 noInfo 0 ∧ FieldsKept s t [] ∧ BytesKept s t ∧
      t.out.contains (.hostWrite k.port a (sqeLen k.sqe) (Config.envelopeKeys % 256 ^ 1665 % 256 ^ sqeLen k.sqe)) = true) ∧
  (∀ (q : Nat) (k : Cmd) (a l : Nat) (s : State), s.runnable q 0x80 false = some k → sqeAt k.sqe 0x28 1 = 2 →
    sqeLen k.sqe % 4 = 0 → k.segs = [(a, l)] → 1 ≤ sqeLen k.sqe → sqeLen k.sqe ≤ l →
    Runs (.secInfoCertChains q) s fun t => t.ended q 0 noInfo 0 ∧ FieldsKept s t [] ∧ BytesKept s t ∧
      t.out.contains (.hostWrite k.port a (sqeLen k.sqe) ((Config.certChains (SMap.get s.sec.m 0 1)).2 %
        256 ^ (Config.certChains (SMap.get s.sec.m 0 1)).1 % 256 ^ sqeLen k.sqe)) = true) ∧
  (∀ (q : Nat) (k : Cmd) (a l : Nat) (s : State), s.runnable q 0x80 false = some k → sqeAt k.sqe 0x28 1 = 3 →
    sqeLen k.sqe % 4 = 0 → k.segs = [(a, l)] → 1 ≤ sqeLen k.sqe → sqeLen k.sqe ≤ l →
    Runs (.secInfoRangeTable q) s fun t => t.ended q 0 noInfo 0 ∧ FieldsKept s t [] ∧ BytesKept s t ∧
      t.out.contains (.hostWrite k.port a (sqeLen k.sqe) (s.rangeTable % 256 ^ 2048 % 256 ^ sqeLen k.sqe)) = true) ∧
  (∀ (q : Nat) (k : Cmd) (a l : Nat) (s : State), s.runnable q 0x80 false = some k → sqeAt k.sqe 0x28 1 = 4 →
    sqeLen k.sqe % 4 = 0 → k.segs = [(a, l)] → 1 ≤ sqeLen k.sqe → sqeLen k.sqe ≤ l →
    Runs (.secInfoDebugNonce q) s fun t => t.ended q 0 noInfo 0 ∧ FieldsKept s t [] ∧ BytesKept s t ∧
      t.out.contains (.hostWrite k.port a (sqeLen k.sqe) (s.sec.dbgNonce.getD 0 % 256 ^ 32 % 256 ^ sqeLen k.sqe)) = true) ∧
  (∀ (q : Nat) (k : Cmd) (s : State), s.runnable q 0x80 false = some k → sqeAt k.sqe 0x28 1 = 0 →
    sqeLen k.sqe % 4 ≠ 0 → Runs (.secInfoDeviceNonce q) s fun t => t.ended q 0x02 noInfo 0 ∧ FieldsKept s t [] ∧
      BytesKept s t) ∧
  (∀ (q : Nat) (k : Cmd) (a l : Nat) (s : State), s.runnable q 0x81 false = some k → s.get Reg.SEC_STATUS_RNG_FAIL = 0 →
    k.segs = [(a, l)] → 8192 ≤ l → Runs (.attest q) s fun t => t.ended q 0 noInfo 0 ∧ FieldsKept s t [] ∧
      BytesKept s t ∧ t.sec.drbg = s.sec.drbg + 2 ∧
      t.out.contains (.hostWrite k.port a 8192 (s.report (sqeAt k.sqe 0x28 24) % 256 ^ 8192)) = true) ∧
  (∀ (q : Nat) (k : Cmd) (s : State), s.runnable q 0x81 false = some k → s.get Reg.SEC_STATUS_RNG_FAIL = 1 →
    Runs (.attest q) s fun t => t.ended q 0x16 noInfo 7 ∧ t.out = s.out ∧ FieldsKept s t [] ∧ BytesKept s t) ∧
  (∀ (q : Nat) (k : Cmd) (a l : Nat) (s : State), s.runnable q 0x85 false = some k → s.get Reg.SEC_STATUS_RNG_FAIL = 0 →
    k.segs = [(a, l)] → 1 ≤ sqeLen k.sqe → sqeLen k.sqe ≤ l → Runs (.getRandom q) s fun t => t.ended q 0 noInfo 0 ∧
      t.out.contains (.hostWrite k.port a (sqeLen k.sqe) (s.random (sqeLen k.sqe))) = true ∧ t.free ≠ s.free ∧
      FieldsKept s t [] ∧ BytesKept s t) ∧
  (∀ (q : Nat) (k : Cmd) (x : Nat) (g : TokCheck) (s : State), s.runnable q 0x84 false = some k →
    s.get Reg.DBG_STATUS_BUSY = 0 → s.tokReason (x % 256 ^ 8192) g = 0 → Runs (.secDebug q (some x) g) s fun t =>
      t.get Reg.DBG_STATUS_BUSY = 1 ∧ t.sec.dbgWait = some ⟨bytesAt x 7 1 % 8, some q⟩ ∧
      (List.range 64).all (fun r => (t.range r).rlock && (t.range r).wlock) = true ∧ t.sec.dbgOpened = s.sec.dbgOpened ∧
      SMap.look t.cmds q = some k ∧ FieldsKept s t [Reg.DBG_STATUS_BUSY] ∧ BytesKept s t) ∧
  (∀ (q : Nat) (k : Cmd) (x : Nat) (g : TokCheck) (s : State), s.runnable q 0x84 false = some k →
    s.get Reg.DBG_STATUS_BUSY = 0 → s.tokReason (x % 256 ^ 8192) g ≠ 0 → Runs (.secDebug q (some x) g) s fun t =>
      (if s.tokReason (x % 256 ^ 8192) g = 0x0B then t.ended q 0x40 noInfo 0
        else t.ended q (if s.tokReason (x % 256 ^ 8192) g = 7 then 0x16 else 0x02) noInfo (s.tokReason (x % 256 ^ 8192) g)) ∧
      t.sec.dbgWait = s.sec.dbgWait ∧ t.sec.ranges = s.sec.ranges ∧
      t.get Reg.DBG_STATUS_REASON = s.tokReason (x % 256 ^ 8192) g ∧
      FieldsKept s t [Reg.DBG_STATUS_REASON, Reg.DBG_TOKEN_FAILS_COUNT] ∧ BytesKept s t) ∧
  (∀ (v : Word) (s : State), s.get Reg.DBG_TOKEN_ADDR_WORD < 2048 → Runs (.dbgTokenDataWrite v) s fun t =>
    SMap.get t.sec.token 0 (s.get Reg.DBG_TOKEN_ADDR_WORD) = v.toNat ∧
    t.get Reg.DBG_TOKEN_ADDR_WORD = min 2047 (s.get Reg.DBG_TOKEN_ADDR_WORD + 1) ∧
    FieldsKept s t [Reg.DBG_TOKEN_ADDR_WORD] ∧ BytesKept s t) ∧
  (∀ (g : TokCheck) (s : State), s.get Reg.DBG_STATUS_BUSY = 0 → s.tokReason s.heldToken g = 0 →
    Runs (.dbgTokenGo g) s fun t => t.get Reg.DBG_STATUS_BUSY = 1 ∧ t.sec.token = [] ∧
      t.sec.dbgWait = some ⟨bytesAt s.heldToken 7 1 % 8, none⟩ ∧
      (List.range 64).all (fun r => (t.range r).rlock && (t.range r).wlock) = true ∧
      FieldsKept s t [Reg.DBG_STATUS_BUSY] ∧ BytesKept s t) ∧
  (∀ (g : TokCheck) (s : State), s.get Reg.DBG_STATUS_BUSY = 0 → s.tokReason s.heldToken g ≠ 0 →
    Runs (.dbgTokenGo g) s fun t => t.get Reg.DBG_STATUS_REASON = s.tokReason s.heldToken g ∧ t.sec.token = [] ∧
      t.sec.dbgWait = s.sec.dbgWait ∧ t.sec.ranges = s.sec.ranges ∧
      FieldsKept s t [Reg.DBG_STATUS_REASON, Reg.DBG_TOKEN_FAILS_COUNT] ∧ BytesKept s t) ∧
  (∀ (w : DbgWait) (s : State), s.sec.dbgWait = some w → s.sec.ranges.all (fun e => !e.2.loaded) = true →
    s.spt.window = [] → w.scope < 8 → Runs .debugPortOpen s fun t => t.sec.dbgOpened = true ∧ t.sec.dbgWait = none ∧
      t.ring.sessions = [] ∧ t.get Reg.SEC_STATUS_DEBUG_OPEN = 1 ∧ t.get Reg.DBG_STATUS_OPEN = 1 ∧
      t.get Reg.DBG_STATUS_BUSY = 0 ∧ t.get Reg.DBG_STATUS_SCOPE = w.scope ∧ EventFrame s t [Reg.SEC_STATUS_DEBUG_OPEN,
        Reg.DBG_STATUS_OPEN, Reg.DBG_STATUS_BUSY, Reg.DBG_STATUS_SCOPE, Reg.RING_STATUS_ROLE, Reg.RING_STATUS_TRANSIT,
        Reg.RING_EVT_ROLE]) ∧
  (∀ (w : DbgWait) (s : State), s.sec.dbgWait = some w →
    s.sec.ranges.any (fun e => e.2.loaded) = true ∨ s.spt.window ≠ [] → Runs .debugPortOpen s fun t => t = s) ∧
  (∀ s : State, Runs .rngTestFail s fun t => t.get Reg.SEC_STATUS_RNG_FAIL = 1 ∧ t.sec = s.sec ∧
    EventFrame s t [Reg.SEC_STATUS_RNG_FAIL]) ∧
  (∀ s : State, 1048576 ≤ s.sec.drbg → s.get Reg.SEC_STATUS_RNG_FAIL = 0 → Runs .drbgReseed s fun t =>
    t.sec = { s.sec with drbg := 0 } ∧
    t.get Reg.SEC_RESEEDS_COUNT = satAdd (2 ^ 32 - 1) (s.get Reg.SEC_RESEEDS_COUNT) 1 ∧
    FieldsKept s t [Reg.SEC_RESEEDS_COUNT] ∧ BytesKept s t) ∧
  (∀ (r : Fin 64) (x : Nat) (s : State), (s.range r.val).discard = some x → Runs (.mkDiscard r) s fun t =>
    FieldsKept s t [] ∧ BytesKept s t ∧ (if s.writesDone r.val x
      then t.range r.val = { s.range r.val with loaded := false, discard := none } else t = s)) ∧
  (∀ (p : Fin 32) (h : Nat) (x : RSession) (s : State), SMap.look s.ring.sessions p.val = some x →
    2 ^ 31 ≤ x.tx ∨ 2 ^ 31 ≤ x.rx ∨ 23 ≤ h → p.val ∉ s.ring.agreeing → Runs (.sessionRekey p h) s fun t =>
      t.ring.agreeing = s.ring.agreeing ++ [p.val] ∧ t.ring.sessions = s.ring.sessions ∧
      FieldsKept s t [Reg.RING_TX_FLITS_COUNT] ∧ BytesKept s t) ∧
  (∀ (p : Fin 32) (x : RSession) (s : State), SMap.look s.ring.sessions p.val = some x → x.newSeen = true →
    Runs (.oldKeyExpiry p) s fun t => SMap.look t.ring.sessions p.val = some { x with oldRx := none } ∧ FieldsKept s t [] ∧
      BytesKept s t) ∧
  (∀ (p : Fin 32) (h : Nat) (x : RSession) (s : State), SMap.look s.ring.sessions p.val = some x →
    Runs (.keyLimitStop p h) s fun t => FieldsKept s t [] ∧ BytesKept s t ∧ (if 2 ^ 32 ≤ x.tx ∨ 24 ≤ h
      then SMap.look t.ring.sessions p.val = some { x with stopped := true } else t = s)) ∧
  (∀ s : State, s.get Reg.SEC_REQ_CTL_BUSY = 0 → Runs .secRequest s fun t => t.get Reg.SEC_REQ_CTL_BUSY = 1 ∧
    t.sec.result = none ∧ FieldsKept s t [Reg.SEC_REQ_CTL_BUSY] ∧ BytesKept s t) ∧
  (∀ s : State, s.get Reg.SEC_REQ_CTL_BUSY = 1 → s.get Reg.SEC_CFG_STATUS_ERR = 0 → Runs .secRequest s fun t =>
    t.get Reg.SEC_CFG_STATUS_CODE = 4 ∧ t.sec = s.sec ∧ BytesKept s t ∧
    FieldsKept s t [Reg.SEC_CFG_STATUS_ERR, Reg.SEC_CFG_STATUS_CODE]) ∧
  (∀ (x : SecResult) (a y : Nat) (s : State), s.get Reg.SEC_REQ_CTL_BUSY = 1 → s.sec.result = some x → x.sc < 256 →
    x.reason < 256 → a = 64 * s.get Reg.SEC_REQ_LO_ADDR + 2 ^ 32 * s.get Reg.SEC_REQ_HI_ADDR + 64 →
    placeOf a = some (.buffer y) → busOk true a x.len = true → s.hbmUp = true →
    (burstsOf y x.len).all (fun n => s.burstErr n == 0) = true → Runs .secRequestDone s fun t =>
      t.get Reg.SEC_REQ_RESULT_SC = x.sc ∧ t.get Reg.SEC_REQ_RESULT_REASON = x.reason ∧
      t.get Reg.SEC_REQ_CTL_BUSY = 0 ∧ t.get Reg.SEC_REQ_CTL_DONE = 1 ∧ t.loadMem y x.len = x.data % 256 ^ x.len ∧
      BytesKeptBut s t y x.len ∧ FieldsKept s t [Reg.SEC_REQ_RESULT_SC, Reg.SEC_REQ_RESULT_REASON, Reg.SEC_REQ_CTL_BUSY,
        Reg.SEC_REQ_CTL_DONE])

/-- A command whose envelope is accepted clears the count of refusals, replaces the device nonce and has its effect: TAKE and
CHANGE set the credential, SET_LOCK and CLEAR_LOCK the owner lock, REVERT returns to the unowned state and leaves no block in
the buffer, RAISE_SVN raises the security version where every bootable slot allows it (reason 0x0A otherwise), SET_ROSTER
stores the roster. DEFINE opens a new range on free zones, DELETE ends it, LOCK and UNLOCK set and clear its locks, ERASE gives
a new key generation and empties the buffer of its blocks. A refused envelope changes nothing of the owner or the ranges, is
counted, and the eighth with reason 1 or 3 in a row locks further tries. -/
def Obligations.OwnerCommands : Prop :=
  (∀ (q : Nat) (k : Cmd) (e : EnvRes) (s : State), s.runnable q 0x82 false = some k → sqeAt k.sqe 0x28 1 = 1 →
    s.envReason e = 0 → s.sec.owned = false → Runs (.secOwnerTake q (some e)) s fun t => t.ended q 0 noInfo 0 ∧
      t.sec.owned = true ∧ t.sec.cred = e.newCred % 256 ^ 48 ∧ t.sec.nonce = some (s.random 32) ∧
      t.get Reg.SEC_STATUS_TRIES = 0 ∧ FieldsKept s t [Reg.SEC_STATUS_TRIES] ∧ BytesKept s t) ∧
  (∀ (q : Nat) (k : Cmd) (e : EnvRes) (s : State), s.runnable q 0x82 false = some k → sqeAt k.sqe 0x28 1 = 1 →
    s.envReason e = 0 → s.sec.owned = true → Runs (.secOwnerTake q (some e)) s fun t => t.ended q 0x02 noInfo 5 ∧
      t.sec.cred = s.sec.cred ∧ FieldsKept s t [Reg.SEC_STATUS_TRIES] ∧ BytesKept s t) ∧
  (∀ (q : Nat) (k : Cmd) (e : EnvRes) (s : State), s.runnable q 0x82 false = some k → sqeAt k.sqe 0x28 1 = 1 →
    s.envReason e ≠ 0 → s.get Reg.SEC_STATUS_TRIES ≤ 8 → Runs (.secOwnerTake q (some e)) s fun t =>
      t.ended q (if s.envReason e = 7 then 0x16 else 0x02) noInfo (s.envReason e) ∧ t.sec.owned = s.sec.owned ∧
      t.sec.cred = s.sec.cred ∧ t.sec.ranges = s.sec.ranges ∧
      t.get Reg.SEC_STATUS_TRIES = (if s.envReason e = 1 ∨ s.envReason e = 3 then min 8 (s.get Reg.SEC_STATUS_TRIES + 1)
        else s.get Reg.SEC_STATUS_TRIES) ∧
      (s.get Reg.SEC_STATUS_TRIES = 7 ∧ (s.envReason e = 1 ∨ s.envReason e = 3) → t.get Reg.SEC_STATUS_TRY_LOCK = 1) ∧
      (s.envReason e ≠ 7 →
        t.get Reg.SEC_AUTH_FAIL_COUNT = satAdd (2 ^ 32 - 1) (s.get Reg.SEC_AUTH_FAIL_COUNT) 1) ∧ BytesKept s t ∧
      FieldsKept s t [Reg.SEC_STATUS_TRIES, Reg.SEC_STATUS_TRY_LOCK, Reg.SEC_AUTH_FAIL_COUNT]) ∧
  (∀ (q : Nat) (k : Cmd) (s : State), s.runnable q 0x82 false = some k → sqeAt k.sqe 0x28 1 = 1 →
    Runs (.secOwnerTake q none) s fun t => t.ended q 0x12 noInfo 0 ∧ t.sec.cred = s.sec.cred ∧ FieldsKept s t [] ∧
      BytesKept s t) ∧
  (∀ (q : Nat) (k : Cmd) (e : EnvRes) (s : State), s.runnable q 0x82 false = some k → sqeAt k.sqe 0x28 1 = 2 →
    s.envReason e = 0 → s.sec.owned = true → Runs (.secOwnerChange q (some e)) s fun t => t.ended q 0 noInfo 0 ∧
      t.sec.owned = true ∧ t.sec.cred = e.newCred % 256 ^ 48 ∧ t.get Reg.SEC_STATUS_TRIES = 0 ∧
      FieldsKept s t [Reg.SEC_STATUS_TRIES] ∧ BytesKept s t) ∧
  (∀ (q : Nat) (k : Cmd) (e : EnvRes) (s : State), s.runnable q 0x82 false = some k → sqeAt k.sqe 0x28 1 = 3 →
    s.envReason e = 0 → s.sec.owned = true → Runs (.secOwnerSetLock q (some e)) s fun t => t.ended q 0 noInfo 0 ∧
      t.sec.ownerLock = true ∧ t.sec.cred = s.sec.cred ∧ FieldsKept s t [Reg.SEC_STATUS_TRIES] ∧ BytesKept s t) ∧
  (∀ (q : Nat) (k : Cmd) (e : EnvRes) (s : State), s.runnable q 0x82 false = some k → sqeAt k.sqe 0x28 1 = 4 →
    s.envReason e = 0 → s.sec.owned = true → Runs (.secOwnerClearLock q (some e)) s fun t => t.ended q 0 noInfo 0 ∧
      t.sec.ownerLock = false ∧ t.sec.cred = s.sec.cred ∧ FieldsKept s t [Reg.SEC_STATUS_TRIES] ∧ BytesKept s t) ∧
  (∀ (q : Nat) (k : Cmd) (e : EnvRes) (s : State), s.runnable q 0x82 false = some k → sqeAt k.sqe 0x28 1 = 5 →
    s.envReason e = 0 → s.sec.owned = true → s.quiet q (fun _ => true) = true → Runs (.secOwnerRevert q (some e)) s fun t =>
      t.ended q 0 noInfo 0 ∧ t.sec.owned = false ∧ t.sec.ownerLock = false ∧ t.sec.cred = 0 ∧ t.sec.roster = [] ∧
      t.sec.ranges.all (fun x => x.1 == 0) = true ∧ (t.range 0).rlock = false ∧ (t.range 0).wlock = false ∧
      (t.range 0).loaded = true ∧ t.cache = [] ∧ FieldsKept s t [Reg.SEC_STATUS_TRIES] ∧ BytesKept s t) ∧
  (∀ (q : Nat) (k : Cmd) (e : EnvRes) (s : State), s.runnable q 0x82 false = some k → sqeAt k.sqe 0x28 1 = 6 →
    s.envReason e = 0 → s.sec.owned = true → s.svnFuse < sqeAt k.sqe 0x2C 4 → sqeAt k.sqe 0x2C 4 ≤ 63 →
    s.svnTooHigh (sqeAt k.sqe 0x2C 4) = false → Runs (.secOwnerRaiseSvn q (some e)) s fun t =>
      t.ended q 0 noInfo 0 ∧ t.svnFuse = sqeAt k.sqe 0x2C 4 ∧ t.sec.cred = s.sec.cred ∧
      FieldsKept s t [Reg.SEC_STATUS_TRIES] ∧ BytesKept s t) ∧
  (∀ (q : Nat) (k : Cmd) (e : EnvRes) (s : State), s.runnable q 0x82 false = some k → sqeAt k.sqe 0x28 1 = 6 →
    s.envReason e = 0 → s.sec.owned = true → 63 < sqeAt k.sqe 0x2C 4 ∨ s.svnTooHigh (sqeAt k.sqe 0x2C 4) = true →
    Runs (.secOwnerRaiseSvn q (some e)) s fun t => t.ended q 0x02 noInfo 0x0A ∧ t.sec.svn = s.sec.svn ∧
      FieldsKept s t [Reg.SEC_STATUS_TRIES] ∧ BytesKept s t) ∧
  (∀ (q : Nat) (k : Cmd) (e : EnvRes) (r : List Nat) (s : State), s.runnable q 0x82 false = some k →
    sqeAt k.sqe 0x28 1 = 7 → s.envReason e = 0 → s.sec.owned = true → 1 ≤ r.length → r.length ≤ 32 → sqeSegs k.sqe = 1 →
    Runs (.secOwnerSetRoster q (some e) r) s fun t => t.ended q 0 noInfo 0 ∧ t.sec.roster = r.map (· % 256 ^ 48) ∧
      FieldsKept s t [Reg.SEC_STATUS_TRIES] ∧ BytesKept s t) ∧
  (∀ (q : Nat) (k : Cmd) (e : EnvRes) (s : State), s.runnable q 0x83 false = some k → sqeAt k.sqe 0x28 1 = 1 →
    s.envReason e = 0 → s.sec.owned = true → s.quiet q (defineHits k.sqe) = true → rngNo k.sqe ≠ 0 →
    (s.range (rngNo k.sqe)).zones = 0 → s.defineBad k.sqe = false → Runs (.secRangeDefine q (some e)) s fun t =>
      t.ended q 0 noInfo 0 ∧ (t.range (rngNo k.sqe)).nsid = sqeNsid k.sqe ∧
      (t.range (rngNo k.sqe)).first = sqeSlba k.sqe ∧ (t.range (rngNo k.sqe)).zones = sqeLen k.sqe ∧
      (t.range (rngNo k.sqe)).rlock = false ∧ (t.range (rngNo k.sqe)).wlock = false ∧
      (t.range (rngNo k.sqe)).loaded = true ∧ (t.range (rngNo k.sqe)).auto = rngFlag k.sqe 2 ∧
      t.cache.all (fun x => !(x.2.nsid == sqeNsid k.sqe && decide (sqeSlba k.sqe ≤ x.2.lba) &&
        decide (x.2.lba < sqeSlba k.sqe + sqeLen k.sqe * zoneBlocks))) = true ∧
      FieldsKept s t [Reg.SEC_STATUS_TRIES] ∧ BytesKept s t) ∧
  (∀ (q : Nat) (k : Cmd) (e : EnvRes) (s : State), s.runnable q 0x83 false = some k → sqeAt k.sqe 0x28 1 = 2 →
    s.envReason e = 0 → s.sec.owned = true → s.quiet q (s.rangeHits k.sqe) = true → rngNo k.sqe ≠ 0 →
    (s.range (rngNo k.sqe)).zones ≠ 0 → Runs (.secRangeDelete q (some e)) s fun t => t.ended q 0 noInfo 0 ∧
      (t.range (rngNo k.sqe)).zones = 0 ∧ (t.range (rngNo k.sqe)).key = 0 ∧
      t.cache.all (fun x => s.rangeOf x.2.nsid x.2.lba != rngNo k.sqe) = true ∧
      FieldsKept s t [Reg.SEC_STATUS_TRIES] ∧ BytesKept s t) ∧
  (∀ (q : Nat) (k : Cmd) (e : EnvRes) (s : State), s.runnable q 0x83 false = some k → sqeAt k.sqe 0x28 1 = 3 →
    s.envReason e = 0 → s.sec.owned = true → s.rangeExists (rngNo k.sqe) = true → Runs (.secRangeLock q (some e)) s fun t =>
      t.ended q 0 noInfo 0 ∧
      (t.range (rngNo k.sqe)).rlock = ((s.range (rngNo k.sqe)).rlock || rngFlag k.sqe 0) ∧
      (t.range (rngNo k.sqe)).wlock = ((s.range (rngNo k.sqe)).wlock || rngFlag k.sqe 1) ∧
      ((t.range (rngNo k.sqe)).rlock = true ∧ (t.range (rngNo k.sqe)).wlock = true ∧
        (s.range (rngNo k.sqe)).loaded = true ∧ (s.range (rngNo k.sqe)).discard = none →
        (t.range (rngNo k.sqe)).discard = some q) ∧ FieldsKept s t [Reg.SEC_STATUS_TRIES] ∧ BytesKept s t) ∧
  (∀ (q : Nat) (k : Cmd) (e : EnvRes) (s : State), s.runnable q 0x83 false = some k → sqeAt k.sqe 0x28 1 = 4 →
    s.envReason e = 0 → s.sec.owned = true → s.rangeExists (rngNo k.sqe) = true →
    (rngFlag k.sqe 0 || rngFlag k.sqe 1) = true → Runs (.secRangeUnlock q (some e)) s fun t => t.ended q 0 noInfo 0 ∧
      (t.range (rngNo k.sqe)).rlock = ((s.range (rngNo k.sqe)).rlock && !rngFlag k.sqe 0) ∧
      (t.range (rngNo k.sqe)).wlock = ((s.range (rngNo k.sqe)).wlock && !rngFlag k.sqe 1) ∧
      (t.range (rngNo k.sqe)).loaded = true ∧ FieldsKept s t [Reg.SEC_STATUS_TRIES] ∧ BytesKept s t) ∧
  (∀ (q : Nat) (k : Cmd) (e : EnvRes) (s : State), s.runnable q 0x83 false = some k → sqeAt k.sqe 0x28 1 = 5 →
    s.envReason e = 0 → s.sec.owned = true → s.quiet q (s.rangeHits k.sqe) = true → rngNo k.sqe ≠ 0xFF →
    s.rangeExists (rngNo k.sqe) = true → Runs (.secRangeErase q (some e)) s fun t => t.ended q 0 noInfo 0 ∧
      (t.range (rngNo k.sqe)).gen = ((s.range (rngNo k.sqe)).gen + 1) % 65536 ∧
      (t.range (rngNo k.sqe)).zones = (s.range (rngNo k.sqe)).zones ∧
      t.cache.all (fun x => s.rangeOf x.2.nsid x.2.lba != rngNo k.sqe) = true ∧
      FieldsKept s t [Reg.SEC_STATUS_TRIES] ∧ BytesKept s t) ∧
  (∀ (q : Nat) (k : Cmd) (e : EnvRes) (s : State), s.runnable q 0x83 false = some k → sqeAt k.sqe 0x28 1 = 5 →
    s.envReason e = 0 → s.sec.owned = true → s.quiet q (fun _ => true) = true → rngNo k.sqe = 0xFF →
    Runs (.secRangeErase q (some e)) s fun t => t.ended q 0 noInfo 0 ∧ t.cache = [] ∧
      FieldsKept s t [Reg.SEC_STATUS_TRIES] ∧ BytesKept s t) ∧
  (∀ (q : Nat) (k : Cmd) (e : EnvRes) (s : State), s.runnable q 0x83 false = some k → sqeAt k.sqe 0x28 1 = 3 →
    s.envReason e = 0 → s.sec.owned = true → s.rangeExists (rngNo k.sqe) = false → Runs (.secRangeLock q (some e)) s fun t =>
      t.ended q 0x02 noInfo 5 ∧ t.sec.ranges = s.sec.ranges ∧ FieldsKept s t [Reg.SEC_STATUS_TRIES] ∧ BytesKept s t)

/-- A flit for another member goes on by the other port when that holds a credit, waits there without one, and is gone, its slot
free, where that segment is open; one of this member's own is taken off, one for this member is accepted or counted as an
authentication error, and an uncorrectable codeword is counted alone; a port whose clocks stop takes none. Credits returned
add up to 64; freed slots are returned once. A heartbeat goes out with a free port. A lost signal opens the segment;
training on powered lanes closes it within its span, and ends a splice once both segments are up. Bypass (self-fence, a
fence of the manager, a splice or leave time-out) clears the switch and the role. A leave clears EN and waits for the map.
The manager's rate takes effect. -/
def Obligations.RingLink : Prop :=
  (∀ (e : Bool) (tag : Fin 3) (x : Nat) (s : State), s.ringRuns (if e then 0 else 1) = true →
    (s.rport (if e then 0 else 1)).up = true → 2 ≤ flType x → s.own ≠ some (flSrc x) → s.own ≠ some (flDst x) →
    flDst x ≠ 0xFF → x < 256 ^ 256 → (s.rport (if e then 1 else 0)).up = true → (s.rport (if e then 1 else 0)).credits = 0 → Runs (.flitReceive e 0 tag x) s fun t =>
      (t.rport (if e then 1 else 0)).fwd = (s.rport (if e then 1 else 0)).fwd ++ [x] ∧ t.out = s.out ∧ FieldsKept s t [] ∧
      BytesKept s t) ∧
  (∀ (e : Bool) (tag : Fin 3) (x : Nat) (s : State), s.ringRuns (if e then 0 else 1) = true →
    (s.rport (if e then 0 else 1)).up = true → 2 ≤ flType x → s.own ≠ some (flSrc x) → s.own ≠ some (flDst x) →
    flDst x ≠ 0xFF → x < 256 ^ 256 → (s.rport (if e then 1 else 0)).up = true → s.ringRuns (if e then 1 else 0) = true →
    1 ≤ (s.rport (if e then 1 else 0)).credits → (s.rport (if e then 1 else 0)).fwd = [] →
    Runs (.flitReceive e 0 tag x) s fun t => t.out.contains (.ringForward (!e) x) = true ∧
      FieldsKept s t [Reg.RING_TX_FLITS_COUNT] ∧ BytesKept s t) ∧
  (∀ (e : Bool) (tag : Fin 3) (x : Nat) (s : State), s.ringRuns (if e then 0 else 1) = true →
    (s.rport (if e then 0 else 1)).up = true → Runs (.flitReceive e 2 tag x) s fun t => t.ring = s.ring ∧
      t.get Reg.RING_FEC_UNCORR_COUNT = satAdd (2 ^ 32 - 1) (s.get Reg.RING_FEC_UNCORR_COUNT) 1 ∧
      FieldsKept s t [Reg.RING_FEC_UNCORR_COUNT] ∧ BytesKept s t) ∧
  (∀ (e : Bool) (tag : Fin 3) (x : Nat) (s : State), s.ringRuns (if e then 0 else 1) = true →
    (s.rport (if e then 0 else 1)).up = true → 2 ≤ flType x → s.own = some (flSrc x) → x < 256 ^ 256 →
    Runs (.flitReceive e 0 tag x) s fun t => t.out = s.out ∧ t.get Reg.RING_ORPHAN_COUNT =
        (if flDst x = 0xFF then s.get Reg.RING_ORPHAN_COUNT else satAdd (2 ^ 32 - 1) (s.get Reg.RING_ORPHAN_COUNT) 1) ∧
      (t.rport (if e then 0 else 1)).freed = (s.rport (if e then 0 else 1)).freed + 1 ∧
      FieldsKept s t [Reg.RING_ORPHAN_COUNT] ∧ BytesKept s t) ∧
  (∀ (e : Bool) (tag : Fin 3) (x : Nat) (k y : RSession) (s : State), s.ringRuns (if e then 0 else 1) = true →
    (s.rport (if e then 0 else 1)).up = true → 2 ≤ flType x → s.own = some (flDst x) → flSrc x ≠ flDst x →
    x < 256 ^ 256 → flitForm x = true → flEnc x = true → SMap.look s.ring.sessions (flSrc x) = some k →
    k.accept tag.val (flCtr x) = some y → Runs (.flitReceive e 0 tag x) s fun t =>
      SMap.look t.ring.sessions (flSrc x) = some y ∧
      t.get Reg.RING_RX_FLITS_COUNT = satAdd (2 ^ 32 - 1) (s.get Reg.RING_RX_FLITS_COUNT) 1 ∧
      FieldsKept s t [Reg.RING_RX_FLITS_COUNT] ∧ BytesKept s t) ∧
  (∀ (e : Bool) (tag : Fin 3) (x : Nat) (s : State), s.ringRuns (if e then 0 else 1) = true →
    (s.rport (if e then 0 else 1)).up = true → 2 ≤ flType x → s.own = some (flDst x) → flSrc x ≠ flDst x →
    x < 256 ^ 256 → flitForm x = false → Runs (.flitReceive e 0 tag x) s fun t => t.ring.sessions = s.ring.sessions ∧
      t.get Reg.RING_AUTH_ERR_COUNT = satAdd (2 ^ 32 - 1) (s.get Reg.RING_AUTH_ERR_COUNT) 1 ∧
      FieldsKept s t [Reg.RING_AUTH_ERR_COUNT] ∧ BytesKept s t) ∧
  (∀ (e : Bool) (tag : Fin 3) (x : Nat) (s : State), s.ringRuns (if e then 0 else 1) = true →
    (s.rport (if e then 0 else 1)).up = true → 2 ≤ flType x → s.own ≠ some (flSrc x) → s.own ≠ some (flDst x) →
    flDst x ≠ 0xFF → x < 256 ^ 256 → (s.rport (if e then 1 else 0)).up = false → Runs (.flitReceive e 0 tag x) s fun t =>
      t = s.modRport (if e then 0 else 1) (fun y => { y with freed := y.freed + 1 })) ∧
  (∀ (e : Bool) (fec tag : Fin 3) (x : Nat) (s : State), s.ringRuns (if e then 0 else 1) = false →
    Runs (.flitReceive e fec tag x) s fun t => t = s) ∧
  (∀ (n : Nat) (m : Fin 32) (i : Bool) (s : State), s.ringRuns 0 = true → (s.rport 0).up = true →
    (s.rport 0).fwd = [] → (s.rport 0).loc = [] → Runs (.linkFlit true n m i) s fun t =>
      (t.rport 0).credits = min 64 ((s.rport 0).credits + n) ∧ t.get Reg.RING_NEIGH_EAST = m.val ∧
      t.get Reg.RING_NEIGH_E_VALID = 1 ∧ t.get Reg.RING_NEIGH_E_2208 = b2n i ∧
      FieldsKept s t [Reg.RING_NEIGH_EAST, Reg.RING_NEIGH_E_VALID, Reg.RING_NEIGH_E_2208] ∧ BytesKept s t) ∧
  (∀ (n : Nat) (m : Fin 32) (i : Bool) (s : State), s.ringRuns 1 = true → (s.rport 1).up = true →
    (s.rport 1).fwd = [] → (s.rport 1).loc = [] → Runs (.linkFlit false n m i) s fun t =>
      (t.rport 1).credits = min 64 ((s.rport 1).credits + n) ∧ t.get Reg.RING_NEIGH_WEST = m.val ∧
      t.get Reg.RING_NEIGH_W_VALID = 1 ∧ t.get Reg.RING_NEIGH_W_2208 = b2n i ∧
      FieldsKept s t [Reg.RING_NEIGH_WEST, Reg.RING_NEIGH_W_VALID, Reg.RING_NEIGH_W_2208] ∧ BytesKept s t) ∧
  (∀ (e : Bool) (s : State), s.ringRuns (if e then 0 else 1) = true → (s.rport (if e then 0 else 1)).up = true →
    (s.rport (if e then 0 else 1)).freed ≠ 0 → Runs (.creditReturn e) s fun t =>
      t.out = s.out ++ [.ringCredit e (s.rport (if e then 0 else 1)).freed] ∧ (t.rport (if e then 0 else 1)).freed = 0 ∧
      FieldsKept s t [] ∧ BytesKept s t) ∧
  (∀ s : State, s.ringRuns 0 = true → (s.rport 0).up = true → 1 ≤ (s.rport 0).credits →
    (s.rport 0).fwd = [] → (s.rport 0).loc = [] → Runs .heartbeatSend s fun t =>
      t.out.contains (.ringFrame 0x02 0xFF 0 0 14 (beatWord s.ownBeat)) = true ∧
      FieldsKept s t [Reg.RING_TX_FLITS_COUNT] ∧ BytesKept s t) ∧
  (∀ s : State, s.get Reg.RING_STATUS_SWITCH = 1 → Runs .selfFence s fun t => t.get Reg.RING_STATUS_SWITCH = 0 ∧
    t.get Reg.RING_STATUS_ROLE = 0 ∧ t.ring.ports = [] ∧ t.ring.alive = [] ∧ t.ring.map = s.ring.map ∧
    EventFrame s t [Reg.RING_STATUS_SWITCH, Reg.RING_STATUS_ROLE, Reg.RING_STATUS_OPEN_E, Reg.RING_STATUS_OPEN_W,
      Reg.RING_STATUS_MUTED, Reg.RING_EVT_ROLE]) ∧
  (∀ (e : Bool) (s : State), s.get Reg.RING_STATUS_SWITCH = 1 → (s.rport (if e then 0 else 1)).up = true →
    Runs (.segmentSignalLoss e) s fun t => (t.rport (if e then 0 else 1)).up = false ∧
      (t.rport (if e then 0 else 1)).retraining = true ∧ (t.rport (if e then 0 else 1)).fwd = [] ∧
      t.get (openOf (if e then 0 else 1)) = 1 ∧ t.get Reg.RING_EVT_SEGMENT ≠ 0 ∧ BytesKept s t ∧
      FieldsKept s t [openOf (if e then 0 else 1), Reg.RING_EVT_SEGMENT, Reg.RING_TX_FLITS_COUNT]) ∧
  (∀ (e : Bool) (s : State), s.ring.splicing = false → Runs (.segmentRetrainTimeout e) s fun t =>
    (t.rport (if e then 0 else 1)).retraining = false ∧ FieldsKept s t [] ∧ BytesKept s t) ∧
  (∀ (e : Bool) (s : State), s.ring.splicing = true → Runs (.segmentRetrainTimeout e) s fun t => t = s) ∧
  (∀ (e : Bool) (n : Nat) (s : State), s.get Reg.RING_STATUS_SWITCH = 1 → (s.rport (if e then 0 else 1)).up = false →
    s.segLanes (if e then 0 else 1) = true → n ≤ spanLimit (s.get Reg.RING_STATUS_RATE) → s.ring.splicing = false → Runs (.segmentTrained e n) s fun t =>
      (t.rport (if e then 0 else 1)).up = true ∧ (t.rport (if e then 0 else 1)).credits = 64 ∧
      t.get (openOf (if e then 0 else 1)) = 0 ∧ FieldsKept s t [openOf (if e then 0 else 1), Reg.RING_EVT_SEGMENT] ∧
      BytesKept s t) ∧
  (∀ (e : Bool) (n : Nat) (s : State), s.get Reg.RING_STATUS_SWITCH = 1 → (s.rport (if e then 0 else 1)).up = false →
    (s.rport (if e then 1 else 0)).up = true → s.segLanes (if e then 0 else 1) = true →
    n ≤ spanLimit (s.get Reg.RING_STATUS_RATE) → s.ring.splicing = true → s.heardManager = none →
    Runs (.segmentTrained e n) s fun t => (t.rport (if e then 0 else 1)).up = true ∧ t.ring.splicing = false ∧
      t.ring.wantJoin = true ∧ FieldsKept s t [openOf (if e then 0 else 1), Reg.RING_EVT_SEGMENT] ∧ BytesKept s t) ∧
  (∀ (e : Bool) (n : Nat) (s : State), s.segLanes (if e then 0 else 1) = false → Runs (.segmentTrained e n) s fun t =>
    t = s) ∧
  (∀ (e : Bool) (n : Nat) (s : State), spanLimit (s.get Reg.RING_STATUS_RATE) < n → Runs (.segmentTrained e n) s fun t =>
    t = s) ∧
  (∀ s : State, s.ring.splicing = true → Runs .spliceTimeout s fun t => t.get Reg.RING_STATUS_SWITCH = 0 ∧
    t.ring.spliceWait = true ∧ t.ring.splicing = false ∧ EventFrame s t [Reg.RING_STATUS_SWITCH, Reg.RING_STATUS_ROLE,
      Reg.RING_STATUS_OPEN_E, Reg.RING_STATUS_OPEN_W, Reg.RING_STATUS_MUTED, Reg.RING_EVT_ROLE]) ∧
  (∀ (m : Nat) (s : State), s.ring.spliceWait = true → s.get Reg.RING_CTL_EN = 1 → s.ready = true → s.own = some m →
    s.get Reg.RING_STATUS_SWITCH = 0 → Runs .spliceRetry s fun t => t.get Reg.RING_STATUS_SWITCH = 1 ∧
      t.ring.splicing = true ∧ (t.rport 0).retraining = true ∧ (t.rport 1).retraining = true ∧
      FieldsKept s t [Reg.RING_STATUS_SWITCH] ∧ BytesKept s t) ∧
  (∀ s : State, s.get Reg.RING_CTL_EN = 1 → s.get Reg.RING_CTL_MUTE_REQ < 2 → s.get Reg.RING_CTL_MAX_RATE < 4 →
    1 ≤ s.get Reg.RING_CTL_RETRY_MAX → s.get Reg.RING_CTL_RETRY_MAX < 16 → 1 ≤ s.get Reg.RING_CTL_TMO →
    s.get Reg.RING_CTL_TMO < 256 → 1 ≤ s.get Reg.RING_CTL_BG_SHARE → s.get Reg.RING_CTL_BG_SHARE < 16 →
    s.get Reg.RING_STATUS_SWITCH = 1 → Runs .ringLeave s fun t => t.get Reg.RING_CTL_EN = 0 ∧ t.ring.leaving = true ∧
      t.get Reg.RING_STATUS_SWITCH = 1 ∧ FieldsKept s t [Reg.RING_CTL_EN, Reg.RING_TX_FLITS_COUNT] ∧ BytesKept s t) ∧
  (∀ s : State, s.ring.leaving = true → Runs .leaveTimeout s fun t => t.get Reg.RING_STATUS_SWITCH = 0 ∧
    t.ring.leaving = false ∧ EventFrame s t [Reg.RING_STATUS_SWITCH, Reg.RING_STATUS_ROLE, Reg.RING_STATUS_OPEN_E,
      Reg.RING_STATUS_OPEN_W, Reg.RING_STATUS_MUTED, Reg.RING_EVT_ROLE]) ∧
  (∀ (m : Fin 32) (s : State), s.get Reg.RING_STATUS_SWITCH = 1 → s.get Reg.RING_STATUS_MANAGER = m.val →
    (SMap.look s.ring.sessions m.val).isSome = true → Runs (.ringFence m) s fun t => t.get Reg.RING_STATUS_SWITCH = 0 ∧
      t.get Reg.RING_STATUS_ROLE = 0 ∧ EventFrame s t [Reg.RING_STATUS_SWITCH, Reg.RING_STATUS_ROLE,
        Reg.RING_STATUS_OPEN_E, Reg.RING_STATUS_OPEN_W, Reg.RING_STATUS_MUTED, Reg.RING_EVT_ROLE]) ∧
  (∀ (m : Fin 32) (s : State), s.get Reg.RING_STATUS_MANAGER ≠ m.val → Runs (.ringFence m) s fun t => t = s) ∧
  (∀ (m : Fin 32) (c : Fin 4) (s : State), s.get Reg.RING_STATUS_SWITCH = 1 → s.get Reg.RING_STATUS_MANAGER = m.val →
    (SMap.look s.ring.sessions m.val).isSome = true → Runs (.ringRate m c) s fun t =>
      t.get Reg.RING_STATUS_RATE = c.val ∧ t.get Reg.RING_STATUS_MUTED = b2n (c.val == 0) ∧
      FieldsKept s t [Reg.RING_STATUS_RATE, Reg.RING_STATUS_MUTED, Reg.RING_EVT_RATE] ∧ BytesKept s t)

/-- A heartbeat is remembered, and one of a manager ends a claim. The manager marks a silent member failed, admits a join and
notes a leave, and commits the next map in an order that fits when something changed; a member accepts a newer map that
checks from the manager it names. A candidate claims when it hears no manager, a higher claim ends its own, and a claim that
lasts makes it manager; without quorum the manager steps down. A session begins afresh when a listed peer's share verifies. A
ring write stores within its frame alone, and a refused one stores nothing; a read request answers the bytes; a port whose clocks stop takes neither. Answers take
frames off; a refused, timed-out or retried frame waits, is dropped after its last attempt, or goes out again. -/
def Obligations.RingMembers : Prop :=
  (∀ (m : Fin 32) (hb : Heartbeat) (s : State), s.get Reg.RING_STATUS_SWITCH = 1 → s.own ≠ some m.val →
    Runs (.heartbeatReceive m hb) s fun t => SMap.look t.ring.alive m.val = some hb ∧
      (hb.role = 3 → t.ring.claiming = false) ∧ t.ring.map = s.ring.map ∧ BytesKept s t ∧
      FieldsKept s t [Reg.RING_TX_FLITS_COUNT, Reg.RING_STATUS_RATE, Reg.RING_STATUS_MUTED, Reg.RING_EVT_RATE]) ∧
  (∀ (m : Fin 32) (s : State), s.get Reg.RING_STATUS_SWITCH = 1 → s.own ≠ some m.val → s.get Reg.RING_STATUS_ROLE = 3 →
    s.throughMembers.contains m.val = true → m.val ∉ s.ring.failed → Runs (.memberFailTimeout m) s fun t =>
      t.ring.failed = s.ring.failed ++ [m.val] ∧ SMap.look t.ring.alive m.val = none ∧ FieldsKept s t [] ∧
      BytesKept s t) ∧
  (∀ (m : Fin 32) (s : State), s.get Reg.RING_STATUS_SWITCH = 1 → s.own ≠ some m.val → s.get Reg.RING_STATUS_ROLE = 2 →
    s.get Reg.RING_STATUS_MANAGER = m.val →
    (s.modRing (fun x => { x with alive := SMap.del x.alive m.val })).quorum = true → Runs (.memberFailTimeout m) s fun t =>
      t.ring.map.isSome = true ∧ t.ring.claiming = false ∧ t.pairs = s.pairs ∧ t.winLive = s.winLive) ∧
  (∀ (m : Fin 32) (s : State), s.get Reg.RING_STATUS_ROLE = 3 → s.get Reg.RING_STATUS_SWITCH = 1 →
    s.throughMembers.contains m.val = true → m.val ∉ s.ring.leaves → Runs (.ringJoin m true) s fun t =>
      t.ring.leaves = s.ring.leaves ++ [m.val] ∧ FieldsKept s t [] ∧ BytesKept s t) ∧
  (∀ (m : Fin 32) (s : State), s.get Reg.RING_STATUS_ROLE = 3 → s.get Reg.RING_STATUS_SWITCH = 1 →
    m.val ∉ s.ring.joins → Runs (.ringJoin m false) s fun t => t.ring.joins = s.ring.joins ++ [m.val] ∧
      FieldsKept s t [Reg.RING_TX_FLITS_COUNT] ∧ BytesKept s t) ∧
  (∀ (o : List Nat) (s : State), s.get Reg.RING_STATUS_ROLE = 3 → s.get Reg.RING_STATUS_SWITCH = 1 → s.quorum = true →
    s.orderOk o = true → s.mapChanged o = true → Runs (.mapCommit o) s fun t => t.ring.map = some (s.nextMap o) ∧
      t.pairs = s.pairs ∧ t.winLive = s.winLive) ∧
  (∀ (o : List Nat) (s : State), s.get Reg.RING_STATUS_ROLE ≠ 3 ∨ s.orderOk o = false → Runs (.mapCommit o) s fun t =>
    t = s) ∧
  (∀ (m : Fin 32) (r : Nat) (s : State), s.get Reg.RING_STATUS_SWITCH = 1 → r < 256 ^ 136 → mapOk r = true →
    mapManager r = m.val → (SMap.look s.ring.sessions m.val).isSome = true → s.epochHeld < mapEpoch r →
    Runs (.mapAccept m r) s fun t => t.ring.map = some r ∧ t.pairs = s.pairs ∧ t.winLive = s.winLive) ∧
  (∀ (m : Fin 32) (r : Nat) (s : State), r < 256 ^ 136 → mapOk r = false ∨ mapManager r ≠ m.val ∨
    (s.ring.map.isSome = true ∧ mapEpoch r ≤ s.epochHeld) → Runs (.mapAccept m r) s fun t => t = s) ∧
  (∀ (m : Nat) (s : State), s.get Reg.RING_STATUS_SWITCH = 1 → s.own = some m → s.candidate = true →
    s.heardManager = none → s.get Reg.RING_STATUS_ROLE ≠ 2 → s.get Reg.RING_STATUS_ROLE ≠ 3 →
    Runs .claimSend s fun t => t.ring.claiming = true ∧ FieldsKept s t [Reg.RING_TX_FLITS_COUNT] ∧ BytesKept s t) ∧
  (∀ (m : Fin 32) (x : Nat) (s : State), s.ring.claiming = true → s.epochHeld < x → Runs (.claimReceive m x) s fun t =>
    t.ring = { s.ring with claiming := false } ∧ FieldsKept s t [] ∧ BytesKept s t) ∧
  (∀ (m : Fin 32) (x : Nat) (s : State), x < s.epochHeld → Runs (.claimReceive m x) s fun t => t = s) ∧
  (∀ s : State, s.ring.claiming = true → s.quorum = true → s.get Reg.RING_STATUS_SWITCH = 1 → Runs .claimWin s fun t =>
    t.ring.map.isSome = true ∧ t.ring.claiming = false ∧ t.pairs = s.pairs ∧ t.winLive = s.winLive) ∧
  (∀ s : State, s.ring.claiming = false → Runs .claimWin s fun t => t = s) ∧
  (∀ s : State, s.get Reg.RING_STATUS_SWITCH = 1 → s.quorum = false → Runs .quorumLoss s fun t =>
    t.get Reg.RING_EVT_QUORUM_LOST ≠ 0 ∧
    t.get Reg.RING_STATUS_ROLE = (if s.get Reg.RING_STATUS_ROLE = 3 then 1 else s.get Reg.RING_STATUS_ROLE) ∧
    EventFrame s t [Reg.RING_EVT_QUORUM_LOST, Reg.RING_STATUS_ROLE, Reg.RING_EVT_ROLE]) ∧
  (∀ (p : Fin 32) (x m : Nat) (s : State), s.get Reg.RING_STATUS_SWITCH = 1 → s.sec.roster[p.val]? = some x →
    s.sec.dbgOpened = false → s.own = some m → m ≠ p.val → s.get Reg.SEC_STATUS_RNG_FAIL = 0 →
    s.ring.frames.all (fun e => e.2.dst != p.val || e.2.st != 2) = true → Runs (.ringSession p true x) s fun t =>
      SMap.look t.ring.sessions p.val =
        some ⟨0, 0, (SMap.look s.ring.sessions p.val).map RSession.rx, false, false⟩ ∧
      t.ring.agreeing.contains p.val = false ∧ FieldsKept s t [Reg.RING_TX_FLITS_COUNT] ∧ BytesKept s t) ∧
  (∀ (p : Fin 32) (x : Nat) (s : State), Runs (.ringSession p false x) s fun t => t = s) ∧
  (∀ (e : Bool) (m : Fin 32) (n wa l d a : Nat) (s : State),
    s.ringRuns (if e then 0 else 1) = true →
    s.frameCheck (if e then 0 else 1) m.val wa l false true = 0 → s.winTo 2 m.val wa l true = some a → s.hbmUp = true →
    (burstsOf a l).all (fun n => s.burstErr n == 0) = true → Runs (.ringWrite e m n wa l [⟨0, l, d⟩]) s fun t =>
      t.loadMem a l = d % 256 ^ l ∧ BytesKeptBut s t a l ∧ FieldsKept s t [Reg.RING_TX_FLITS_COUNT]) ∧
  (∀ (e : Bool) (m : Fin 32) (n wa l a : Nat) (ps : List RingPart) (s : State),
    s.ringRuns (if e then 0 else 1) = true →
    s.frameCheck (if e then 0 else 1) m.val wa l (ps.any (fun x => decide (l < x.ofs + x.len))) true = 0 →
    s.winTo 2 m.val wa l true = some a → s.hbmUp = true → (burstsOf a l).all (fun n => s.burstErr n == 0) = true →
    Runs (.ringWrite e m n wa l ps) s fun t => BytesKeptBut s t a l ∧ FieldsKept s t [Reg.RING_TX_FLITS_COUNT]) ∧
  (∀ (e : Bool) (m : Fin 32) (n wa l : Nat) (ps : List RingPart) (s : State),
    s.ringRuns (if e then 0 else 1) = true →
    s.frameCheck (if e then 0 else 1) m.val wa l (ps.any (fun x => decide (l < x.ofs + x.len))) true ≠ 0 →
    Runs (.ringWrite e m n wa l ps) s fun t => t.chd = s.chd ∧ BytesKept s t ∧
      FieldsKept s t [Reg.RING_TX_FLITS_COUNT]) ∧
  (∀ (e : Bool) (m : Fin 32) (n wa l a : Nat) (s : State),
    s.ringRuns (if e then 0 else 1) = true →
    s.frameCheck (if e then 0 else 1) m.val wa l false false = 0 → s.winTo 2 m.val wa l false = some a → s.hbmUp = true →
    (burstsOf a l).all (fun n => s.burstErr n == 0) = true → s.isActive m.val = true →
    Runs (.ringReadReq e m n wa l) s fun t =>
      t = ((s.bufRead 1 a l).2).reply1 0x12 m.val n wa l (s.loadMem a l) ∧ BytesKept s t ∧
      FieldsKept s t [Reg.RING_TX_FLITS_COUNT]) ∧
  (∀ (e : Bool) (m : Fin 32) (n wa l : Nat) (ps : List RingPart) (s : State), s.ringRuns (if e then 0 else 1) = false →
    Runs (.ringWrite e m n wa l ps) s fun t => t = s) ∧
  (∀ (e : Bool) (m : Fin 32) (n wa l : Nat) (s : State), s.ringRuns (if e then 0 else 1) = false →
    Runs (.ringReadReq e m n wa l) s fun t => t = s) ∧
  (∀ (m : Fin 32) (n d : Nat) (f : RFrame) (s : State), s.frameOf m.val n = some f → f.type = 0x11 →
    Runs (.ringReadResp m n d) s fun t => t.resp = .block f.flen (d % 256 ^ f.flen) ∧ SMap.look t.ring.frames n = none ∧
      FieldsKept s t [] ∧ BytesKept s t) ∧
  (∀ (m : Fin 32) (n d : Nat) (s : State), s.frameOf m.val n = none → Runs (.ringReadResp m n d) s fun t => t = s) ∧
  (∀ (m : Fin 32) (n : Nat) (f : RFrame) (s : State), s.frameOf m.val n = some f → f.type ≠ 0x11 →
    f.req = .none ∨ f.req = .map → Runs (.ringAck m n) s fun t =>
      t.ring = { s.ring with frames := SMap.del s.ring.frames n } ∧ FieldsKept s t [] ∧ BytesKept s t) ∧
  (∀ (m : Fin 32) (n : Nat) (s : State), s.frameOf m.val n = none → Runs (.ringAck m n) s fun t => t = s) ∧
  (∀ (m : Fin 32) (n c : Nat) (f : RFrame) (s : State), s.frameOf m.val n = some f → c = 1 ∨ c = 2 →
    f.attempts < s.get Reg.RING_CTL_RETRY_MAX → s.ring.lostReqs = [] → Runs (.ringNack m n c) s fun t =>
      SMap.look t.ring.frames n = some { f with st := 1 } ∧ FieldsKept s t [] ∧ BytesKept s t) ∧
  (∀ (m : Fin 32) (n c : Nat) (f : RFrame) (s : State), s.frameOf m.val n = some f → c ≠ 1 → c ≠ 2 → c ≠ 4 →
    f.req = .none → s.ring.lostReqs = [] → Runs (.ringNack m n c) s fun t => SMap.look t.ring.frames n = none ∧
      FieldsKept s t [] ∧ BytesKept s t) ∧
  (∀ (n : Nat) (f : RFrame) (s : State), SMap.look s.ring.frames n = some f → f.st = 0 →
    f.attempts < s.get Reg.RING_CTL_RETRY_MAX → s.ring.lostReqs = [] → Runs (.frameTimeout n) s fun t =>
      SMap.look t.ring.frames n = some { f with st := 1 } ∧ FieldsKept s t [] ∧ BytesKept s t) ∧
  (∀ (n : Nat) (f : RFrame) (s : State), SMap.look s.ring.frames n = some f → f.st = 0 →
    s.get Reg.RING_CTL_RETRY_MAX ≤ f.attempts → f.req = .none → s.ring.lostReqs = [] → Runs (.frameTimeout n) s fun t =>
      SMap.look t.ring.frames n = none ∧
      t.get Reg.RING_TIMEOUTS_COUNT = satAdd (2 ^ 32 - 1) (s.get Reg.RING_TIMEOUTS_COUNT) 1 ∧
      FieldsKept s t [Reg.RING_TIMEOUTS_COUNT] ∧ BytesKept s t) ∧
  (∀ (n : Nat) (f : RFrame) (s : State), SMap.look s.ring.frames n = some f → f.st = 1 → needsActive f.type = false →
    s.canSend f.dst = true → s.ring.lostReqs = [] → Runs (.frameRetry n) s fun t =>
      SMap.look t.ring.frames n = some { f with st := 0, attempts := f.attempts + 1 } ∧
      t.get Reg.RING_RETRIES_COUNT = satAdd (2 ^ 32 - 1) (s.get Reg.RING_RETRIES_COUNT) 1 ∧
      FieldsKept s t [Reg.RING_RETRIES_COUNT, Reg.RING_TX_FLITS_COUNT] ∧ BytesKept s t) ∧
  (∀ (n : Nat) (f : RFrame) (s : State), SMap.look s.ring.frames n = some f → f.st = 1 → needsActive f.type = true →
    s.isActive f.dst = false → f.req = .none → s.ring.lostReqs = [] → Runs (.frameRetry n) s fun t =>
      SMap.look t.ring.frames n = none ∧ FieldsKept s t [] ∧ BytesKept s t)

/-- A commit whose layout checks puts it into its slot, and the first one becomes active; one that does not leaves its code.
A reshape takes the other slot as target from K, copies chords in order, and its switch makes the target active. A chord
write opens its record under the next JID and mirrors it first. With quorum a read answers the block, the reconstructed block,
or status 0x15 where it is lost or cannot be reconstructed, which loses it. A strip request that checks does its OP on the
strip, is answered, and leaves its cell; one refused changes no strip, and one of no blocks is dropped (the model's choice, log
entry 107). Offsets are entered as lost for a sender of the same layout, and refused with MISMATCH otherwise. Records are
mirrored and retired; answers end requests; LOCKED ones are retried. Recovery rewrites the parity of an open record and closes
it. Once no record waits for recovery, a scan goes chord by chord and rebuilds the strips that moved. -/
def Obligations.Chords : Prop :=
  (∀ (v : Word) (s : State), v.toNat / 2 % 16 = 1 → v.toNat % 2 = s.get Reg.CHD_CTL_SLOT →
    s.layoutCheck (v.toNat % 2) s.stagedLayout = 0 → Runs (.layoutCommit v) s fun t =>
      SMap.look t.chd.layouts (v.toNat % 2) = some s.stagedLayout ∧ t.flag Reg.CHD_STATUS_READY = true ∧
      t.get Reg.CHD_STATUS_ACTIVE = (if s.flag Reg.CHD_STATUS_READY then s.get Reg.CHD_STATUS_ACTIVE else v.toNat % 2) ∧
      t.get Reg.CHD_CTL_EN = v.toNat / 2 ^ 31 ∧ BytesKept s t ∧
      FieldsKept s t [Reg.CHD_CTL_EN, Reg.CHD_STATUS_READY, Reg.CHD_STATUS_ACTIVE]) ∧
  (∀ (v : Word) (s : State), v.toNat / 2 % 16 = 1 → v.toNat % 2 = s.get Reg.CHD_CTL_SLOT →
    s.layoutCheck (v.toNat % 2) s.stagedLayout ≠ 0 → s.flag Reg.CHD_CFG_STATUS_ERR = false →
    Runs (.layoutCommit v) s fun t => t.get Reg.CHD_CFG_STATUS_CODE = s.layoutCheck (v.toNat % 2) s.stagedLayout ∧
      t.get Reg.CHD_CFG_STATUS_ERR = 1 ∧ t.chd = s.chd ∧ BytesKept s t ∧
      FieldsKept s t [Reg.CHD_CFG_STATUS_ERR, Reg.CHD_CFG_STATUS_CODE]) ∧
  (∀ s : State, s.get Reg.CHD_CTL_EN < 2 → s.get Reg.CHD_CTL_SLOT < 2 → s.reshapeCheck = 0 → s.chd.target = none →
    s.reshapeK < 2 ^ 64 → Runs .reshapeStart s fun t => t.chd.target = some (1 - s.activeSlot) ∧
      t.get Reg.CHD_STATUS_RESHAPE = 1 ∧ t.reshapeB = s.reshapeK ∧ t.chd.layouts = s.chd.layouts ∧ BytesKept s t ∧
      FieldsKept s t [Reg.CHD_STATUS_RESHAPE, Reg.CHD_B_LO_B, Reg.CHD_B_HI_B]) ∧
  (∀ s : State, s.get Reg.CHD_CTL_EN < 2 → s.get Reg.CHD_CTL_SLOT < 2 → s.reshapeCheck ≠ 0 →
    s.flag Reg.CHD_CFG_STATUS_ERR = false → Runs .reshapeStart s fun t => t.get Reg.CHD_CFG_STATUS_CODE = 7 ∧
      t.chd = s.chd ∧ BytesKept s t ∧ FieldsKept s t [Reg.CHD_CFG_STATUS_ERR, Reg.CHD_CFG_STATUS_CODE]) ∧
  (∀ (x : Nat) (s : State), s.get Reg.CHD_CTL_EN < 2 → s.get Reg.CHD_CTL_SLOT < 2 → s.chd.target = some x → x < 2 →
    s.flag Reg.CHD_STATUS_RESHAPE_DONE = true → Runs .reshapeSwitch s fun t => t.get Reg.CHD_STATUS_ACTIVE = x ∧
      t.chd.target = none ∧ SMap.look t.chd.layouts s.activeSlot = none ∧ t.get Reg.CHD_STATUS_RESHAPE = 0 ∧
      t.get Reg.CHD_STATUS_RESHAPE_DONE = 0 ∧ t.reshapeK = 0 ∧ BytesKept s t ∧
      FieldsKept s t [Reg.CHD_STATUS_ACTIVE, Reg.CHD_STATUS_RESHAPE, Reg.CHD_STATUS_RESHAPE_DONE, Reg.CHD_B_LO_B,
        Reg.CHD_B_HI_B, Reg.CHD_K_LO_K, Reg.CHD_K_HI_K]) ∧
  (∀ s : State, s.get Reg.CHD_CTL_EN < 2 → s.get Reg.CHD_CTL_SLOT < 2 → s.flag Reg.CHD_STATUS_RESHAPE_DONE = false →
    s.flag Reg.CHD_CFG_STATUS_ERR = false → Runs .reshapeSwitch s fun t => t.get Reg.CHD_CFG_STATUS_CODE = 7 ∧
      t.chd = s.chd ∧ BytesKept s t ∧ FieldsKept s t [Reg.CHD_CFG_STATUS_ERR, Reg.CHD_CFG_STATUS_CODE]) ∧
  (∀ (x me i : Nat) (l : Layout) (d : List MediaRes) (s : State), s.chd.target = some x → s.own = some me →
    s.chordLayout x = some l → s.chd.suspended = false → s.chd.scans = [] → s.reshapeB < l.ownedCount →
    s.reshapeB + 1 < 2 ^ 64 → (s.reshapeB + 1) % 1024 ≠ 0 → s.chordBusy x (l.owned me s.reshapeB) = false → s.quorum = true →
    (List.range (64 * l.k)).all (fun j => (mediaData (d.getD j (.bad 0x14))).isSome) = true → i < l.k →
    (List.range l.w).all (fun y => (l.holder l.fails (l.owned me s.reshapeB) y == me) == (y == i)) = true →
    (List.range l.w).all (fun y => s.isActive (l.holder l.fails (l.owned me s.reshapeB) y)) = true →
    s.stripsIdle = true → Runs (.reshapeChordCopy d) s fun t => t.reshapeB = s.reshapeB + 1 ∧
      t.get Reg.CHD_STATUS_RESHAPE_DONE = (if s.nsCap (s.get Reg.CHD_VOL_VOL_NS) ≤ (s.reshapeB + 1) * l.k * 64 then 1
        else s.get Reg.CHD_STATUS_RESHAPE_DONE) ∧ t.chd.lost = s.chd.lost ∧ BytesKept s t ∧
      FieldsKept s t [Reg.CHD_STATUS_RESHAPE_DONE, Reg.CHD_B_LO_B, Reg.CHD_B_HI_B, Reg.RING_TX_FLITS_COUNT] ∧
      (∀ j : Nat, j < 64 → some (t.stripBlock l (l.owned me s.reshapeB) j) = mediaData (d.getD (64 * i + j) (.bad 0x14)))) ∧
  (∀ (d : List MediaRes) (s : State), s.chd.target = none ∨ s.chd.suspended = true → Runs (.reshapeChordCopy d) s fun t =>
    t = s) ∧
  (∀ (a : List Nat) (n lba o p : Nat) (l : Layout) (s : State), s.runOf a = some (n, lba, a) → s.volumeOf n = some o →
    s.activeLayout = some l → s.chd.target = none → lba % 64 + a.length ≤ 64 → lba + a.length ≤ l.capacity →
    s.chordBusy s.activeSlot (l.owned o (l.place lba).1) = false → s.cellFree s.chd.jid = true → s.quorum = true →
    s.spt.taking = true → s.spt.frozenJW = false → s.chd.recovering = false →
    s.chd.ops.any (fun e => e.2.addrs.any a.contains) = false → a.all (fun x => s.clean x 4112) = true →
    s.partner = some p → s.isActive p = true → s.ring.lostReqs = [] → Runs (.chordWrite a) s fun t =>
      SMap.look t.chd.ops s.chd.jid = some ⟨s.activeSlot, o, l.owned o (l.place lba).1, (l.place lba).2.1, (l.place lba).2.2,
        a.map (fun x => s.loadMem x 4112), a, 1, [], [s.chd.nextReq], 0⟩ ∧
      (SMap.look t.spt.journal (ownCell s.chd.jid)).map jnlOpen = some true ∧
      (SMap.look t.spt.journal (ownCell s.chd.jid)).map jnlChord = some (l.owned o (l.place lba).1 % 256 ^ 8) ∧
      t.chd.jid = (s.chd.jid + 1) % 2 ^ 64 ∧ t.chd.strips = s.chd.strips ∧ t.cache = s.cache ∧ BytesKept s t ∧
      FieldsKept s t [Reg.RING_TX_FLITS_COUNT]) ∧
  (∀ (a : List Nat) (s : State), s.runOf a = none → Runs (.chordWrite a) s fun t => t = s) ∧
  (∀ (a : List Nat) (n lba : Nat) (s : State), s.runOf a = some (n, lba, a) → s.writeSlots lba = [] →
    Runs (.chordWrite a) s fun t => t = s) ∧
  (∀ (n lba o v : Nat) (l : Layout) (x : List MediaRes) (s : State), s.volumeOf n = some o → s.activeLayout.isSome = true →
    s.chordLayout (s.readSlot lba) = some l → s.quorum = true → s.lostAt n lba = false →
    s.readStrip l (s.readSlot lba) (l.owned o (l.place lba).1) (l.place lba).2.1 (l.place lba).2.2 (x.getD (l.place lba).2.1 (.bad 0x14)) =
      some v → Runs (.chordRead n lba x) s fun t => t = s.answer (.block 4112 v)) ∧
  (∀ (n lba : Nat) (x : List MediaRes) (s : State), s.quorum = true → s.lostAt n lba = true →
    Runs (.chordRead n lba x) s fun t => t = s.answer (.data 0x15)) ∧
  (∀ (n lba : Nat) (x : List MediaRes) (s : State), s.quorum = false → Runs (.chordRead n lba x) s fun t => t = s) ∧
  (∀ (n lba o : Nat) (l : Layout) (x : List MediaRes) (ds : List Nat) (s : State), s.volumeOf n = some o →
    s.activeLayout.isSome = true → s.chordLayout (s.readSlot lba) = some l → s.quorum = true → s.lostAt n lba = false →
    s.readStrip l (s.readSlot lba) (l.owned o (l.place lba).1) (l.place lba).2.1 (l.place lba).2.2 (x.getD (l.place lba).2.1 (.bad 0x14)) =
      none → decodeData l.k l.m (s.readOffset l (s.readSlot lba) (l.owned o (l.place lba).1) (l.place lba).2.2 x (fun _ => true)) = some ds →
    l.holder l.fails (l.owned o (l.place lba).1) (l.place lba).2.1 = l.holder [] (l.owned o (l.place lba).1) (l.place lba).2.1 →
    x.getD (l.place lba).2.1 (.bad 0x14) ≠ .bad 0x14 → s.ring.lostReqs = [] → Runs (.chordRead n lba x) s fun t =>
      t.resp = .block 4112 (withGuard (ds.getD (l.place lba).2.1 0)) ∧
      t.get Reg.CHD_DEGRADED_COUNT = satAdd (2 ^ 32 - 1) (s.get Reg.CHD_DEGRADED_COUNT) 1 ∧
      t.get Reg.CHD_RECON_COUNT = satAdd (2 ^ 32 - 1) (s.get Reg.CHD_RECON_COUNT) 1 ∧ t.chd = s.chd ∧ BytesKept s t ∧
      FieldsKept s t [Reg.CHD_DEGRADED_COUNT, Reg.CHD_RECON_COUNT]) ∧
  (∀ (n lba o j : Nat) (l : Layout) (x : List MediaRes) (s : State), s.volumeOf n = some o →
    s.activeLayout.isSome = true → s.chordLayout (s.readSlot lba) = some l → s.quorum = true → s.lostAt n lba = false →
    s.readStrip l (s.readSlot lba) (l.owned o (l.place lba).1) (l.place lba).2.1 (l.place lba).2.2 (x.getD (l.place lba).2.1 (.bad 0x14)) =
      none → decodeData l.k l.m (s.readOffset l (s.readSlot lba) (l.owned o (l.place lba).1) (l.place lba).2.2 x (fun _ => true)) = none →
    j < l.k → s.readStrip l (s.readSlot lba) (l.owned o (l.place lba).1) j (l.place lba).2.2 (x.getD j (.bad 0x14)) = none →
    s.chd.lost.length + l.k ≤ 65536 → Runs (.chordRead n lba x) s fun t => t.resp = .data 0x15 ∧
      t.isLost (s.readSlot lba) (l.owned o (l.place lba).1) j (l.place lba).2.2 = true ∧ t.chd.strips = s.chd.strips) ∧
  (∀ (m : Fin 32) (c : Fin 64) (f e : Nat) (l : Layout) (s : State), s.requestAt m.val c.val 1 e = true →
    1 ≤ rqCount e → s.chordLayout (rqSlot e) = some l → s.stripCheck (rqSlot e) (rqChord e) (rqStrip e) (rqLchk e) true = 0 →
    s.stagedClean m.val (rqAt e) (rqCount e) = true → s.isActive m.val = true → s.ring.lostReqs = [] →
    Runs (.stripDataWrite m c f) s fun t => t.chd.inbox = s.chd.inbox.erase (64 * m.val + c.val) ∧ BytesKept s t ∧
      FieldsKept s t [Reg.RING_TX_FLITS_COUNT] ∧ (∀ i : Nat, i < rqCount e → t.stripBlock l (rqChord e) (rqFirst e + i) =
        if hasBit (f % 2 ^ 64) (rqFirst e + i) then s.stripBlock l (rqChord e) (rqFirst e + i)
        else s.stagedAt m.val (rqAt e) i)) ∧
  (∀ (m : Fin 32) (c : Fin 64) (f e : Nat) (l : Layout) (s : State), s.requestAt m.val c.val 2 e = true →
    1 ≤ rqCount e → s.chordLayout (rqSlot e) = some l → s.stripCheck (rqSlot e) (rqChord e) (rqStrip e) (rqLchk e) true = 0 →
    s.stagedClean m.val (rqAt e) (rqCount e) = true → s.isActive m.val = true → s.ring.lostReqs = [] →
    Runs (.stripParityDelta m c f) s fun t => t.chd.inbox = s.chd.inbox.erase (64 * m.val + c.val) ∧ BytesKept s t ∧
      FieldsKept s t [Reg.RING_TX_FLITS_COUNT] ∧ (∀ i : Nat, i < rqCount e → t.stripBlock l (rqChord e) (rqFirst e + i) =
        if hasBit (f % 2 ^ 64) (rqFirst e + i) then s.stripBlock l (rqChord e) (rqFirst e + i)
        else withStamp (s.stripBlock l (rqChord e) (rqFirst e + i) % 256 ^ coded ^^^
          blkScale (rqCoef e) (s.stagedAt m.val (rqAt e) i)) (rqJid e))) ∧
  (∀ (m : Fin 32) (c : Fin 64) (f e : Nat) (l : Layout) (s : State), s.requestAt m.val c.val 4 e = true →
    1 ≤ rqCount e → s.chordLayout (rqSlot e) = some l → s.stripCheck (rqSlot e) (rqChord e) (rqStrip e) (rqLchk e) true = 0 →
    s.stagedClean m.val (rqAt e) (rqCount e) = true → s.isActive m.val = true → s.ring.lostReqs = [] →
    Runs (.stripParityWrite m c f) s fun t => t.chd.inbox = s.chd.inbox.erase (64 * m.val + c.val) ∧ BytesKept s t ∧
      FieldsKept s t [Reg.RING_TX_FLITS_COUNT] ∧ (∀ i : Nat, i < rqCount e → t.stripBlock l (rqChord e) (rqFirst e + i) =
        if hasBit (f % 2 ^ 64) (rqFirst e + i) then s.stripBlock l (rqChord e) (rqFirst e + i)
        else withStamp (s.stagedAt m.val (rqAt e) i) (rqJid e))) ∧
  (∀ (m : Fin 32) (c : Fin 64) (f e : Nat) (l : Layout) (s : State), s.requestAt m.val c.val 3 e = true →
    1 ≤ rqCount e → s.chordLayout (rqSlot e) = some l → s.stripCheck (rqSlot e) (rqChord e) (rqStrip e) (rqLchk e) false = 0 →
    s.isActive m.val = true → s.ring.lostReqs = [] → Runs (.stripRead m c f) s fun t =>
      t.chd.inbox = s.chd.inbox.erase (64 * m.val + c.val) ∧ t.chd.strips = s.chd.strips ∧ BytesKept s t ∧
      FieldsKept s t [Reg.RING_TX_FLITS_COUNT] ∧ (SMap.look t.chd.reqs s.chd.nextReq).map StripReq.op = some 5 ∧
      (SMap.look t.chd.reqs s.chd.nextReq).map StripReq.target = some m.val ∧
      (SMap.look t.chd.reqs s.chd.nextReq).map StripReq.blocks = some ((List.range (rqCount e)).map (fun i =>
        if hasBit (f % 2 ^ 64) (rqFirst e + i) then 0 else s.stripBlock l (rqChord e) (rqFirst e + i)))) ∧
  (∀ (m : Fin 32) (c : Fin 64) (f e : Nat) (s : State), s.requestAt m.val c.val 1 e = true →
    1 ≤ rqCount e → s.stripCheck (rqSlot e) (rqChord e) (rqStrip e) (rqLchk e) true ≠ 0 → s.isActive m.val = true → s.ring.lostReqs = [] →
    Runs (.stripDataWrite m c f) s fun t => t.chd.strips = s.chd.strips ∧ BytesKept s t ∧
      (SMap.look t.chd.reqs s.chd.nextReq).map StripReq.status =
        some (s.stripCheck (rqSlot e) (rqChord e) (rqStrip e) (rqLchk e) true) ∧
      FieldsKept s t [Reg.RING_TX_FLITS_COUNT]) ∧
  (∀ (m : Fin 32) (c : Fin 64) (f e : Nat) (s : State), s.requestAt m.val c.val 1 e = true → rqCount e = 0 →
    s.ring.lostReqs = [] → Runs (.stripDataWrite m c f) s fun t =>
      t.chd = { s.chd with inbox := s.chd.inbox.erase (64 * m.val + c.val) } ∧ BytesKept s t ∧ FieldsKept s t []) ∧
  (∀ (m : Fin 32) (c : Fin 64) (f : Nat) (s : State), s.chd.inbox.contains (64 * m.val + c.val) = false →
    Runs (.stripDataWrite m c f) s fun t => t = s) ∧
  (∀ (m : Fin 32) (c : Fin 64) (e i : Nat) (s : State), s.requestAt m.val c.val 6 e = true →
    rqLchk e = s.lchk (rqSlot e) → s.chd.lost.length < 65536 →
    i < 64 → hasBit (rqMask e) i = true → s.isActive m.val = true → s.ring.lostReqs = [] → Runs (.stripLost m c) s fun t =>
      t.isLost (rqSlot e) (rqChord e) (rqStrip e) i = true ∧ t.chd.strips = s.chd.strips) ∧
  (∀ (m : Fin 32) (c : Fin 64) (e : Nat) (s : State), s.requestAt m.val c.val 6 e = true → rqLchk e ≠ s.lchk (rqSlot e) →
    s.isActive m.val = true → s.ring.lostReqs = [] → Runs (.stripLost m c) s fun t => t.chd.lost = s.chd.lost ∧
      t.chd.strips = s.chd.strips ∧ (SMap.look t.chd.reqs s.chd.nextReq).map StripReq.status = some 3 ∧
      FieldsKept s t [Reg.RING_TX_FLITS_COUNT] ∧ BytesKept s t) ∧
  (∀ (m : Fin 32) (c : Fin 64) (e : Nat) (s : State), s.requestAt m.val c.val 7 e = true → s.spt.taking = true →
    s.spt.frozenJW = false → s.isActive m.val = true → s.ring.lostReqs = [] → Runs (.stripJournal m c) s fun t =>
      SMap.look t.spt.journal (mirrorCell (rqJid e)) = some (rqRecord e) ∧ t.chd.strips = s.chd.strips ∧ BytesKept s t ∧
      FieldsKept s t [Reg.RING_TX_FLITS_COUNT]) ∧
  (∀ (m : Fin 32) (c : Fin 64) (e : Nat) (s : State), s.requestAt m.val c.val 7 e = true → s.spt.taking = false →
    Runs (.stripJournal m c) s fun t => t = s) ∧
  (∀ (m : Fin 32) (c : Fin 64) (e r : Nat) (s : State), s.requestAt m.val c.val 8 e = true → s.spt.frozenJW = false →
    SMap.look s.spt.journal (mirrorCell (rqJid e)) = some r → jnlJid r = rqJid e → s.isActive m.val = true →
    s.ring.lostReqs = [] → Runs (.stripRetire m c) s fun t =>
      (SMap.look t.spt.journal (mirrorCell (rqJid e))).map jnlOpen = some false ∧
      (SMap.look t.spt.journal (mirrorCell (rqJid e))).map jnlJid = some (rqJid e) ∧ BytesKept s t ∧
      FieldsKept s t [Reg.RING_TX_FLITS_COUNT]) ∧
  (∀ (m : Fin 32) (c : Nat) (r : StripReq) (l : Layout) (s : State), s.own = some m.val → SMap.look s.chd.reqs c = some r →
    r.target = m.val → r.locked = false → r.op = 1 → s.chordLayout r.slot = some l → r.purpose = .none →
    s.stripCheck r.slot r.chord r.strip (s.lchk r.slot) true = 0 → r.first + r.count ≤ 64 → r.blocks.length = r.count →
    s.stripsIdle = true → Runs (.stripDone m c 0) s fun t => SMap.look t.chd.reqs c = none ∧ BytesKept s t ∧
      FieldsKept s t [] ∧
      (∀ i : Nat, i < r.count → t.stripBlock l r.chord (r.first + i) = r.blocks.getD i 0 % 256 ^ 4112)) ∧
  (∀ (m : Fin 32) (c : Nat) (r : StripReq) (s : State), s.own = some m.val → SMap.look s.chd.reqs c = some r →
    r.target = m.val → r.locked = false → r.op = 1 → s.stripCheck r.slot r.chord r.strip (s.lchk r.slot) true = 2 →
    s.stripsIdle = true → Runs (.stripDone m c 0) s fun t => t.chd.strips = s.chd.strips ∧ BytesKept s t ∧
      SMap.look t.chd.reqs c = some { r with locked := true, place := none, sent := false } ∧ FieldsKept s t []) ∧
  (∀ (m : Fin 32) (c f id e : Nat) (r : StripReq) (s : State), s.own ≠ some m.val → s.requestAt m.val (c % 64) 5 e = true →
    s.chd.reqs.find? (fun x => x.2.target == m.val && x.2.tag == rqTag e && x.2.op != 5) = some (id, r) → r.op ≠ 3 →
    r.purpose = .none → rqStatus e ≠ 2 → s.stripsIdle = true → Runs (.stripDone m c f) s fun t =>
      SMap.look t.chd.reqs id = none ∧ t.chd.inbox = s.chd.inbox.erase (64 * m.val + c % 64) ∧
      t.chd.strips = s.chd.strips ∧ BytesKept s t ∧ FieldsKept s t []) ∧
  (∀ s : State, s.chd.reqs.all (fun e => s.isActive e.2.target) = true → s.ring.lostReqs = [] →
    Runs .lockedRetry s fun t => t.chd.reqs.all (fun e => !e.2.locked) = true ∧ t.chd.strips = s.chd.strips ∧
      BytesKept s t ∧ FieldsKept s t [Reg.RING_TX_FLITS_COUNT]) ∧
  (∀ (x : List (List (List MediaRes))) (s : State), s.dueRecords = [] → s.flag Reg.CHD_STATUS_JNL_RESTORED = false →
    s.chd.recovering = false → s.flag Reg.CHD_CFG_STATUS_ERR = false → Runs (.journalRecover x) s fun t =>
      t.get Reg.CHD_CFG_STATUS_CODE = 8 ∧ t.get Reg.CHD_CFG_STATUS_ERR = 1 ∧ t.chd = s.chd ∧ BytesKept s t ∧
      FieldsKept s t [Reg.CHD_CFG_STATUS_ERR, Reg.CHD_CFG_STATUS_CODE]) ∧
  (∀ (x : List (List MediaRes)) (c r h : Nat) (l : Layout) (s : State), s.dueRecords = [(c, r)] → 65536 ≤ c → s.quorum = true →
    s.spt.frozenJW = false → s.chordLayout (jnlSlot r) = some l → l.m = 1 →
    (List.range l.w).all (fun t => s.stripThere l (jnlSlot r) (jnlChord r) t) = true → jnlFirst r + jnlCount r ≤ 64 → jnlStrip r < l.k →
    s.own = some h → l.holder l.fails (jnlChord r) l.k = h →
    (List.range l.k).all (fun t => l.holder l.fails (jnlChord r) t != h && l.holder l.fails (jnlChord r) t != 0xFF) = true →
    (List.range (jnlCount r)).all (fun i => (List.range l.w).all (fun t =>
      (mediaData ((x.getD i []).getD t (.bad 0x14))).isSome)) = true → s.ring.lostReqs = [] →
    Runs (.journalRecover [x]) s fun t => SMap.look t.spt.journal c = some (closed r % 256 ^ 64) ∧
      t.get Reg.CHD_STATUS_JNL_RESTORED = 0 ∧ t.chd.recovering = false ∧
      t.get Reg.CHD_WRITES_COUNT = satAdd (2 ^ 32 - 1) (s.get Reg.CHD_WRITES_COUNT) 1 ∧ BytesKept s t ∧
      FieldsKept s t [Reg.CHD_STATUS_JNL_RESTORED, Reg.CHD_STATUS_REBUILD, Reg.CHD_WRITES_COUNT] ∧
      (∀ i : Nat, i < jnlCount r → t.stripBlock l (jnlChord r) (jnlFirst r + i) =
        withStamp (parityOf 1 0 ((List.range l.k).map (fun j =>
          ((mediaData ((x.getD i []).getD j (.bad 0x14))).getD 0) % 256 ^ coded))) (jnlJid r))) ∧
  (∀ (x : List (Nat × List (List MediaRes))) (s : State), s.get Reg.CHD_STATUS_ADOPTED = 0xFF →
    Runs (.stampRecovery x) s fun t => t = s) ∧
  (∀ (c j i : Nat) (x : List (List MediaRes)) (l : Layout) (s : State), s.get Reg.CHD_STATUS_ADOPTED ≠ 0xFF →
    s.activeLayout = some l → s.stampOk l s.activeSlot c x = false → j < l.k → i < 64 →
    s.readStrip l s.activeSlot c j i ((x.getD j []).getD i (.bad 0x14)) = none → s.chd.lost.length + l.k ≤ 65536 →
    Runs (.stampRecovery [(c, x)]) s fun t => (List.range 64).all (fun n => t.isLost s.activeSlot c j n) = true ∧
      t.chd.strips = s.chd.strips) ∧
  (∀ (x : Scan) (xs : List Scan) (r : List (List MediaRes)) (l : Layout) (s : State), s.chd.scans = x :: xs →
    s.chordLayout x.slot = some l → x.u < s.scanEnd x l → x.u + 1 < 2 ^ 64 →
    s.chordBusy x.slot (l.owned x.owner x.u) = false → s.quorum = true → s.flag Reg.CHD_STATUS_LOST_FULL = false →
    s.chd.recovering = false → s.dueRecords = [] → (List.range l.w).all (fun t =>
      l.holder l.fails (l.owned x.owner x.u) t == l.holder (s.scanBase x x.u) (l.owned x.owner x.u) t ||
        l.holder l.fails (l.owned x.owner x.u) t == 0xFF) = true → s.ring.lostReqs = [] →
    Runs (.rebuildScan r) s fun t => t.chd = { s.chd with scans := { x with u := x.u + 1 } :: xs } ∧
      t.get64 Reg.CHD_SCAN_LO_U Reg.CHD_SCAN_HI_U = x.u + 1 ∧ BytesKept s t ∧
      FieldsKept s t [Reg.CHD_SCAN_LO_U, Reg.CHD_SCAN_HI_U]) ∧
  (∀ (x : Scan) (xs : List Scan) (r : List (List MediaRes)) (l : Layout) (s : State), s.chd.scans = x :: xs →
    s.chordLayout x.slot = some l → s.scanEnd x l ≤ x.u → Runs (.rebuildScan r) s fun t => t.chd.scans = xs ∧
      SMap.look t.chd.scanned (scanKey x.owner x.slot) = some x.list ∧ (xs = [] → t.chd.suspended = false) ∧
      t.get64 Reg.CHD_SCAN_LO_U Reg.CHD_SCAN_HI_U = 0 ∧ BytesKept s t ∧
      FieldsKept s t [Reg.CHD_SCAN_LO_U, Reg.CHD_SCAN_HI_U, Reg.CHD_STATUS_REBUILD]) ∧
  (∀ (x : Scan) (xs : List Scan) (i : Nat) (r : List (List MediaRes)) (l : Layout) (s : State), s.chd.scans = x :: xs →
    s.chordLayout x.slot = some l → x.u < s.scanEnd x l → x.u + 1 < 2 ^ 64 →
    s.chordBusy x.slot (l.owned x.owner x.u) = false → s.quorum = true → s.flag Reg.CHD_STATUS_LOST_FULL = false →
    s.chd.recovering = false → s.dueRecords = [] → s.own = some (l.holder l.fails (l.owned x.owner x.u) i) → i < l.w →
    l.holder l.fails (l.owned x.owner x.u) i ≠ 0xFF →
    (List.range l.w).all (fun t =>
      (l.holder l.fails (l.owned x.owner x.u) t == l.holder (s.scanBase x x.u) (l.owned x.owner x.u) t ||
        l.holder l.fails (l.owned x.owner x.u) t == 0xFF) == (t != i) &&
      (l.holder l.fails (l.owned x.owner x.u) t == l.holder l.fails (l.owned x.owner x.u) i) == (t == i)) = true →
    (List.range 64).all (fun n => (decodeData l.k l.m (s.readOffset l x.slot (l.owned x.owner x.u) n
      (r.map (fun t => t.getD n (.bad 0x14))) (fun t => t != i))).isSome) = true → s.ring.lostReqs = [] →
    Runs (.rebuildScan r) s fun t => t.chd.scans = { x with u := x.u + 1 } :: xs ∧
      t.get Reg.CHD_REBUILT_COUNT = satAdd (2 ^ 32 - 1) (s.get Reg.CHD_REBUILT_COUNT) 1 ∧ BytesKept s t ∧
      FieldsKept s t [Reg.CHD_SCAN_LO_U, Reg.CHD_SCAN_HI_U, Reg.CHD_RECON_COUNT, Reg.CHD_REBUILT_COUNT] ∧
      (∀ n : Nat, n < 64 → t.stripBlock l (l.owned x.owner x.u) n = stripOf l i 0 ((decodeData l.k l.m (s.readOffset l x.slot
        (l.owned x.owner x.u) n (r.map (fun t => t.getD n (.bad 0x14))) (fun t => t != i))).getD [])))

/-- A FATAL event is never limited: with SEQ valid, the metadata not frozen and the recorder's clock running it takes the next
SEQ and stands in the tail with its code, severity and unit; otherwise it waits in the FIFO while that has room, and is
counted as dropped when it has not. EVR_RAISE refuses codes below 0x8000 with code 2. Only the recorder's registers and the ring's next 64 bytes may
change. -/
def Obligations.EventsRaised : Prop :=
  (∀ (c u : Nat) (s : State), s.get Reg.EVR_STATUS_SEQ_VALID = 1 → s.spt.frozenMeta = false →
    s.clkOk 37 = true → Runs (.eventRaise c 4 u) s fun t => t.evr.nextSeq = s.evr.nextSeq + 1 ∧
      (∃ r, SMap.look t.evr.tail (s.evr.nextSeq % 16384) = some r ∧ r.seq = s.evr.nextSeq ∧ r.code = c % 65536 ∧
        r.severity = 4 ∧ r.unit = u % 65536 ∧ r.poc = s.evr.poc) ∧ EventFrame s t []) ∧
  (∀ (c u : Nat) (s : State), (s.get Reg.EVR_STATUS_SEQ_VALID == 1 && !s.spt.frozenMeta && s.clkOk 37) = false →
    s.evr.fifo.length < 32 → Runs (.eventRaise c 4 u) s fun t => t.evr.nextSeq = s.evr.nextSeq ∧ t.evr.tail = s.evr.tail ∧
      (∃ r, t.evr.fifo.getLast? = some r ∧ r.code = c % 65536 ∧ r.severity = 4 ∧ r.unit = u % 65536) ∧
      t.evr.fifo.dropLast = s.evr.fifo ∧ FieldsKept s t [] ∧ BytesKept s t) ∧
  (∀ (c u : Nat) (s : State), (s.get Reg.EVR_STATUS_SEQ_VALID == 1 && !s.spt.frozenMeta && s.clkOk 37) = false →
    32 ≤ s.evr.fifo.length → s.get Reg.EVR_FIFO_DROP_COUNT < 2 ^ 32 - 1 → Runs (.eventRaise c 4 u) s fun t => t.evr.fifo = s.evr.fifo ∧
      t.get Reg.EVR_FIFO_DROP_COUNT = s.get Reg.EVR_FIFO_DROP_COUNT + 1 ∧
      FieldsKept s t [Reg.EVR_FIFO_DROP_COUNT] ∧ BytesKept s t) ∧
  (∀ (r : Fin 5) (v : Word) (s : State), 0x8000 ≤ bits v.toNat 15 0 → bits v.toNat 26 24 = 4 →
    s.get Reg.EVR_STATUS_SEQ_VALID = 1 → s.spt.frozenMeta = false → s.clkOk 37 = true → Runs (.evrRaiseWrite r v) s fun t =>
      (∃ e, SMap.look t.evr.tail (s.evr.nextSeq % 16384) = some e ∧ e.seq = s.evr.nextSeq ∧
        e.code = bits v.toNat 15 0 ∧ e.severity = 4 ∧ e.unit = 256 * r.val ∧
        e.payload % 2 ^ 32 = s.get (Reg.EVR_RAISE_P_DATA 0) % 2 ^ 32) ∧ EventFrame s t []) ∧
  (∀ (r : Fin 5) (v : Word) (s : State), bits v.toNat 15 0 < 0x8000 ∨ 4 < bits v.toNat 26 24 →
    s.get Reg.EVR_CFG_STATUS_ERR = 0 → Runs (.evrRaiseWrite r v) s fun t => t.get Reg.EVR_CFG_STATUS_CODE = 2 ∧
      t.evr = s.evr ∧ FieldsKept s t [Reg.EVR_CFG_STATUS_ERR, Reg.EVR_CFG_STATUS_CODE] ∧ BytesKept s t)

/-- A refill adds a token to a bucket below its burst; a full bucket with nothing suppressed holds no state. With 4,096
records not archived yet they are archived and the next ones count anew. EVR_CTL takes legal settings, and when it turns
the ring on HEAD and DONE take the next SEQ; a zero count is rejected with code 1. The selected override entry takes its
code, enable and rate. -/
def Obligations.RecorderControl : Prop :=
  (∀ (c : Nat) (k : Bucket) (s : State), SMap.look s.evr.buckets c = some k → k.tokens < s.burst c →
    Runs (.bucketRefill c) s fun t => SMap.look t.evr.buckets c =
        (if s.burst c ≤ k.tokens + 1 ∧ k.suppressed = 0 then none else some ⟨k.tokens + 1, k.suppressed⟩) ∧
      FieldsKept s t [] ∧ BytesKept s t) ∧
  (∀ (c : Nat) (s : State), SMap.look s.evr.buckets c = none → Runs (.bucketRefill c) s fun t => t = s) ∧
  (∀ (k : Nat) (r : EvRec) (s : State), s.evr.archNext + 4096 ≤ s.evr.nextSeq → s.evr.tail = [(k, r)] →
    s.evr.archNext ≤ r.seq → r.seq < s.evr.archNext + 4096 → Runs .eventArchive s fun t =>
      SMap.look t.evr.archive r.seq = some r ∧ t.evr.archNext = s.evr.archNext + 4096 ∧
      t.evr.nextSeq = s.evr.nextSeq ∧ FieldsKept s t [Reg.EVR_ARCH_LO_SEQ, Reg.EVR_ARCH_HI_SEQ] ∧ BytesKept s t) ∧
  (∀ s : State, s.evr.nextSeq < s.evr.archNext + 4096 → Runs .eventArchive s fun t => t = s) ∧
  (∀ (v : Word) (s : State), hasBit v.toNat 31 = true → 1 ≤ bits v.toNat 23 16 → 1 ≤ bits v.toNat 15 0 →
    s.get Reg.EVR_CTL_EN = 0 → Runs (.evrEnable v) s fun t => t.get Reg.EVR_CTL_EN = 1 ∧
      t.get Reg.EVR_CTL_DEF_BURST = bits v.toNat 23 16 ∧ t.get Reg.EVR_CTL_DEF_REFILL = bits v.toNat 15 0 ∧
      t.get Reg.EVR_HEAD_LO_SEQ = s.evr.nextSeq % 2 ^ 32 ∧ t.get Reg.EVR_DONE_LO_SEQ = s.evr.nextSeq % 2 ^ 32 ∧
      BytesKept s t ∧ FieldsKept s t [Reg.EVR_CTL_EN, Reg.EVR_CTL_DEF_BURST, Reg.EVR_CTL_DEF_REFILL, Reg.EVR_HEAD_LO_SEQ,
        Reg.EVR_HEAD_HI_SEQ, Reg.EVR_DONE_LO_SEQ, Reg.EVR_DONE_HI_SEQ]) ∧
  (∀ (v : Word) (s : State), bits v.toNat 23 16 = 0 ∨ bits v.toNat 15 0 = 0 → s.get Reg.EVR_CFG_STATUS_ERR = 0 →
    Runs (.evrEnable v) s fun t => t.get Reg.EVR_CFG_STATUS_CODE = 1 ∧ t.evr = s.evr ∧ BytesKept s t ∧
      FieldsKept s t [Reg.EVR_CFG_STATUS_ERR, Reg.EVR_CFG_STATUS_CODE]) ∧
  (∀ (v : Word) (s : State), Runs (.rateLimitWrite 0x0084 v) s fun t => t.rlEntry =
      { s.rlEntry with en := hasBit v.toNat 31, unlimited := hasBit v.toNat 30, code := bits v.toNat 15 0 } ∧
    FieldsKept s t [] ∧ BytesKept s t) ∧
  (∀ (v : Word) (s : State), 1 ≤ bits v.toNat 31 24 → 1 ≤ bits v.toNat 15 0 → Runs (.rateLimitWrite 0x0088 v) s fun t =>
    t.rlEntry = { s.rlEntry with burst := bits v.toNat 31 24, refill := bits v.toNat 15 0 } ∧ FieldsKept s t [] ∧
    BytesKept s t)

/-- For every command of the table and every state, exec answers a next state, never a fault and never a refusal, and
that state waits for the same commands. -/
def Obligations.EveryCommandCompletes : Prop :=
  ∀ (c : Instr) (s : State), Runs c s fun t => t.pending = s.pending

/-- From every state, a step with commands waiting takes exactly the oldest and leaves the rest in order; after as many
steps as commands wait the run has answered a next state at every step and nothing waits. For k at most that number, k
steps leave the queue without its first k commands. -/
def Obligations.QueueDrains : Prop :=
  (∀ s : State, ∃ t : State, Sys2Proof.core.run s.pending.length s = .next t ∧ t.pending = []) ∧
  (∀ (k : Nat) (s : State), k ≤ s.pending.length →
    ∃ t : State, Sys2Proof.core.run k s = .next t ∧ t.pending = s.pending.drop k)

/-- For every state whose live window entries all pass the checks of a commit (a legal SIZE; where valid, within 4 GiB of
window addresses and within 16 GiB of the buffer, aligned), every step that answers a next state answers one of which the
same holds, whatever the command: only a commit adds an entry, and a device reset empties the table. -/
def Obligations.WindowsStayLegal : Prop :=
  ∀ s t : State, s.winsOk = true → step s = .next t → t.winsOk = true

/-- No window entry is live at reset, so the table is legal, and no request has a window. -/
def Obligations.WindowsLegalAtReset : Prop :=
  State.reset.winsOk = true ∧ State.reset.winLive = [] ∧
  ∀ (src m a n : Nat) (w : Bool), State.reset.winTo src m a n w = none

/-- Where the live table is legal and an entry with the permission serves a request of n bytes at window address a, from
a host port or from a ring member, every byte of it lies below 4 GiB of window addresses and its translation lies within
the 16 GiB of the buffer. -/
def Obligations.WindowsReachBuffer : Prop :=
  ∀ (s : State) (src m a n x : Nat) (w : Bool), s.winsOk = true → s.winTo src m a n w = some x →
    a + n ≤ 2 ^ 32 ∧ x + n ≤ 2 ^ 34

/-- A store of n bytes at address a, for every a and n: a load of the same bytes gives the value modulo 256^n, least
significant byte at the lowest address; every byte outside the n bytes reads as before; the list of cells keeps its
canonical form; no register field changes. -/
def Obligations.BufferStoreLoad : Prop :=
  ∀ (s : State) (a v n : Nat), (s.storeMem a v n).loadMem a n = v % 256 ^ n ∧ BytesKeptBut s (s.storeMem a v n) a n ∧
    FieldsKept s (s.storeMem a v n) [] ∧
    (∀ i, i < n → ((s.storeMem a v n).byte (a + i)).toNat = v / 256 ^ i % 256) ∧
    (s.memoryOk = true → (s.storeMem a v n).memoryOk = true)

/-- At reset nothing waits, every register field reads its reset value, the device is off at step 0 with every domain
off, no window is live, no command is outstanding, and every byte of the buffer reads 0. -/
def Obligations.ResetState : Prop :=
  State.reset.pending = [] ∧ (∀ F : Field, State.reset.get F = F.rst) ∧ State.reset.pwr.step = 0 ∧
  State.reset.pwr.dev = .off ∧ (∀ d, State.reset.domSt d = .off) ∧ State.reset.winLive = [] ∧ State.reset.cmds = [] ∧
  (∀ a, State.reset.byte a = 0) ∧ State.reset.memoryOk = true

end
end

