-- ==== Sys2Proof/Laws/SMap.lean ====
section
/-! SUPPORT. The laws of the sparse tables: a read after a write, and the canonical form. -/

namespace Sys2Proof.Machine

theorem SMap.look_del_same {α : Type} (m : SMap α) (k : Nat) : SMap.look (SMap.del m k) k = none := by
  induction m with
  | nil => rfl
  | cons p m ih =>
    unfold SMap.del
    split
    · exact ih
    · rename_i h; simp [SMap.look, h, ih]

theorem SMap.look_del_ne {α : Type} (m : SMap α) {k j : Nat} (h : j ≠ k) :
    SMap.look (SMap.del m k) j = SMap.look m j := by
  induction m with
  | nil => rfl
  | cons p m ih =>
    unfold SMap.del
    split
    · rename_i hp; simp [SMap.look, hp, ih, Ne.symm h]
    · simp [SMap.look, ih]

theorem SMap.look_ins_ne {α : Type} (m : SMap α) {k j : Nat} (v : α) (h : j ≠ k) :
    SMap.look (SMap.ins m k v) j = SMap.look m j := by
  induction m with
  | nil => simp [SMap.ins, SMap.look, Ne.symm h]
  | cons p m ih =>
    unfold SMap.ins
    split
    · simp [SMap.look, Ne.symm h]
    · simp [SMap.look, ih]

theorem SMap.look_ins_same {α : Type} (m : SMap α) (k : Nat) (v : α) (h : SMap.look m k = none) :
    SMap.look (SMap.ins m k v) k = some v := by
  induction m with
  | nil => simp [SMap.ins, SMap.look]
  | cons p m ih =>
    have hp : p.1 ≠ k := fun e => by simp [SMap.look, e] at h
    simp only [SMap.look, hp, if_false] at h
    unfold SMap.ins
    split
    · simp [SMap.look]
    · simp [SMap.look, hp, ih h]

@[simp] theorem SMap.look_set_same {α : Type} (m : SMap α) (k : Nat) (v : α) :
    SMap.look (SMap.set m k v) k = some v :=
  SMap.look_ins_same _ _ _ (SMap.look_del_same m k)

theorem SMap.look_set_ne {α : Type} (m : SMap α) {k j : Nat} (v : α) (h : j ≠ k) :
    SMap.look (SMap.set m k v) j = SMap.look m j := by
  unfold SMap.set; rw [SMap.look_ins_ne _ _ h, SMap.look_del_ne _ h]

@[simp] theorem SMap.get_put_same {α : Type} [DecidableEq α] (m : SMap α) (d : α) (k : Nat) (v : α) :
    SMap.get (SMap.put m d k v) d k = v := by
  unfold SMap.get SMap.put
  split
  · rename_i h; simp [SMap.look_del_same, h]
  · simp

theorem SMap.get_put_ne {α : Type} [DecidableEq α] (m : SMap α) (d e v : α) {k j : Nat} (h : j ≠ k) :
    SMap.get (SMap.put m d k v) e j = SMap.get m e j := by
  unfold SMap.get SMap.put
  split
  · rw [SMap.look_del_ne _ h]
  · rw [SMap.look_set_ne _ _ h]

@[simp] theorem SMap.look_nil {α : Type} (k : Nat) : SMap.look ([] : SMap α) k = none := rfl
@[simp] theorem SMap.get_nil {α : Type} (d : α) (k : Nat) : SMap.get ([] : SMap α) d k = d := rfl

/-! ## The canonical form -/

/-- Every key of the table is at least `k`. -/
def SMap.from {α : Type} (m : SMap α) (k : Nat) : Prop := ∀ p ∈ m, k ≤ p.1

theorem SMap.rising_cons {α : Type} (p : Nat × α) (m : SMap α) :
    SMap.rising (p :: m) = true ↔ SMap.from m (p.1 + 1) ∧ SMap.rising m = true := by
  induction m generalizing p with
  | nil => simp [SMap.rising, SMap.from]
  | cons q m ih =>
    show (decide (p.1 < q.1) && SMap.rising (q :: m)) = true ↔ _
    rw [Bool.and_eq_true, decide_eq_true_eq, ih q]
    constructor
    · rintro ⟨h, hf, hr⟩
      refine ⟨?_, hf, hr⟩
      intro x hx
      rcases List.mem_cons.mp hx with rfl | hx
      · omega
      · have := hf x hx; omega
    · rintro ⟨h, hf, hr⟩
      exact ⟨by have := h q (by simp); omega, hf, hr⟩

theorem SMap.mem_del {α : Type} (m : SMap α) (k : Nat) (p : Nat × α) (h : p ∈ SMap.del m k) : p ∈ m ∧ p.1 ≠ k := by
  induction m with
  | nil => cases h
  | cons q m ih =>
    unfold SMap.del at h
    split at h
    · exact ⟨List.mem_cons_of_mem _ (ih h).1, (ih h).2⟩
    · rcases List.mem_cons.mp h with rfl | h
      · exact ⟨by simp, by assumption⟩
      · exact ⟨List.mem_cons_of_mem _ (ih h).1, (ih h).2⟩

theorem SMap.mem_ins {α : Type} (m : SMap α) (k : Nat) (v : α) (p : Nat × α) (h : p ∈ SMap.ins m k v) :
    p = (k, v) ∨ p ∈ m := by
  induction m with
  | nil => simpa [SMap.ins] using h
  | cons q m ih =>
    unfold SMap.ins at h
    split at h
    · rcases List.mem_cons.mp h with h | h
      · exact .inl h
      · exact .inr h
    · rcases List.mem_cons.mp h with h | h
      · exact .inr (by simp [h])
      · exact (ih h).imp_right (List.mem_cons_of_mem _)

theorem SMap.rising_del {α : Type} (m : SMap α) (k : Nat) (h : SMap.rising m = true) :
    SMap.rising (SMap.del m k) = true := by
  induction m with
  | nil => rfl
  | cons p m ih =>
    obtain ⟨hf, hr⟩ := (SMap.rising_cons p m).mp h
    unfold SMap.del
    split
    · exact ih hr
    · exact (SMap.rising_cons _ _).mpr ⟨fun x hx => hf x (SMap.mem_del m k x hx).1, ih hr⟩

theorem SMap.rising_ins {α : Type} (m : SMap α) (k : Nat) (v : α) (h : SMap.rising m = true)
    (hk : ∀ p ∈ m, p.1 ≠ k) : SMap.rising (SMap.ins m k v) = true := by
  induction m with
  | nil => rfl
  | cons p m ih =>
    obtain ⟨hf, hr⟩ := (SMap.rising_cons p m).mp h
    have hp := hk p (by simp)
    unfold SMap.ins
    split
    · rename_i hlt
      refine (SMap.rising_cons _ _).mpr ⟨?_, h⟩
      intro x hx
      rcases List.mem_cons.mp hx with rfl | hx
      · exact hlt
      · have := hf x hx; show k + 1 ≤ x.1; omega
    · rename_i hlt
      refine (SMap.rising_cons _ _).mpr ⟨?_, ih hr (fun q hq => hk q (List.mem_cons_of_mem _ hq))⟩
      intro x hx
      rcases SMap.mem_ins m k v x hx with rfl | hx
      · show p.1 + 1 ≤ k; omega
      · exact hf x hx

/-- A write keeps the canonical form. -/
theorem SMap.wf_put {α : Type} [DecidableEq α] (m : SMap α) (d : α) (k : Nat) (v : α) (h : SMap.wf m d = true) :
    SMap.wf (SMap.put m d k v) d = true := by
  unfold SMap.wf at h ⊢
  simp only [Bool.and_eq_true, List.all_eq_true, decide_eq_true_eq] at h ⊢
  obtain ⟨hr, ha⟩ := h
  have hd := SMap.rising_del m k hr
  unfold SMap.put
  split
  · exact ⟨hd, fun x hx => ha x (SMap.mem_del m k x hx).1⟩
  · rename_i hv
    refine ⟨SMap.rising_ins _ k v hd (fun x hx => (SMap.mem_del m k x hx).2), fun x hx => ?_⟩
    rcases SMap.mem_ins _ k v x hx with rfl | hx
    · exact hv
    · exact ha x (SMap.mem_del m k x hx).1

/-- An erasure keeps the canonical form. -/
theorem SMap.wf_del {α : Type} [DecidableEq α] (m : SMap α) (d : α) (k : Nat) (h : SMap.wf m d = true) :
    SMap.wf (SMap.del m k) d = true := by
  unfold SMap.wf at h ⊢
  simp only [Bool.and_eq_true, List.all_eq_true, decide_eq_true_eq] at h ⊢
  exact ⟨SMap.rising_del m k h.1, fun x hx => h.2 x (SMap.mem_del m k x hx).1⟩

theorem SMap.rising_keep {α : Type} (m : SMap α) (p : Nat → Bool) (h : SMap.rising m = true) :
    SMap.rising (SMap.keep m p) = true := by
  induction m with
  | nil => rfl
  | cons x m ih =>
    obtain ⟨hf, hr⟩ := (SMap.rising_cons x m).mp h
    unfold SMap.keep at ih ⊢
    rw [List.filter_cons]
    split
    · exact (SMap.rising_cons _ _).mpr ⟨fun y hy => hf y (List.mem_filter.mp hy).1, ih hr⟩
    · exact ih hr

/-- A selection of the entries keeps the canonical form. -/
theorem SMap.wf_keep {α : Type} [DecidableEq α] (m : SMap α) (d : α) (p : Nat → Bool) (h : SMap.wf m d = true) :
    SMap.wf (SMap.keep m p) d = true := by
  unfold SMap.wf at h ⊢
  simp only [Bool.and_eq_true, List.all_eq_true, decide_eq_true_eq] at h ⊢
  exact ⟨SMap.rising_keep m p h.1, fun x hx => h.2 x (List.mem_filter.mp hx).1⟩

end Sys2Proof.Machine
end

