-- ==== Sys2Proof/Laws/State.lean ====
section
/-! SUPPORT. What each named update of State does to each named read: one lemma per read and update. -/

namespace Sys2Proof.Machine

/-! ## Register fields -/

@[simp] theorem State.get_put_same (s : State) (F : Field) (v : Nat) : (s.put F v).get F = v % 2 ^ F.width := by
  simp [State.get, State.put]

theorem State.get_put_ne (s : State) (F : Field) (v : Nat) {G : Field} (h : G.key ≠ F.key) :
    (s.put F v).get G = s.get G := by
  simp [State.get, State.put, SMap.get_put_ne _ _ _ _ h]

theorem State.flag_eq (s : State) (F : Field) : s.flag F = (s.get F != 0) := rfl

theorem b2n_lt (b : Bool) : b2n b < 2 := by cases b <;> decide
@[simp] theorem b2n_mod_two (b : Bool) : b2n b % 2 = b2n b := by cases b <;> rfl
@[simp] theorem b2n_true : b2n true = 1 := rfl
@[simp] theorem b2n_false : b2n false = 0 := rfl

/-- A state whose register table is another's reads the same fields. -/
theorem State.get_of_f {s t : State} (h : t.f = s.f) (F : Field) : t.get F = s.get F := by
  unfold State.get; rw [h]

@[simp] theorem State.get_emit (s : State) (o : Out) (F : Field) : (s.emit o).get F = s.get F := rfl
@[simp] theorem State.get_answer (s : State) (r : Resp) (F : Field) : (s.answer r).get F = s.get F := rfl
@[simp] theorem State.get_draw (s : State) (n : Nat) (F : Field) : (s.draw n).get F = s.get F := rfl
@[simp] theorem State.get_setByte (s : State) (a : Nat) (b : Byte) (F : Field) : (s.setByte a b).get F = s.get F := rfl
@[simp] theorem State.get_storeMem (s : State) (a v n : Nat) (F : Field) : (s.storeMem a v n).get F = s.get F := rfl
@[simp] theorem State.get_modPwr (s : State) (g : Power → Power) (F : Field) : (s.modPwr g).get F = s.get F := rfl
@[simp] theorem State.get_modSpt (s : State) (g : Spt → Spt) (F : Field) : (s.modSpt g).get F = s.get F := rfl
@[simp] theorem State.get_modSpn (s : State) (g : Spn → Spn) (F : Field) : (s.modSpn g).get F = s.get F := rfl
@[simp] theorem State.get_modAdm (s : State) (g : Admin → Admin) (F : Field) : (s.modAdm g).get F = s.get F := rfl
@[simp] theorem State.get_modBoot (s : State) (g : BootRec → BootRec) (F : Field) : (s.modBoot g).get F = s.get F := rfl
@[simp] theorem State.get_modSec (s : State) (g : Sec → Sec) (F : Field) : (s.modSec g).get F = s.get F := rfl
@[simp] theorem State.get_modRing (s : State) (g : Ring → Ring) (F : Field) : (s.modRing g).get F = s.get F := rfl
@[simp] theorem State.get_modRport (s : State) (p : Nat) (g : RPort → RPort) (F : Field) :
    (s.modRport p g).get F = s.get F := rfl
@[simp] theorem State.get_modChd (s : State) (g : Chd → Chd) (F : Field) : (s.modChd g).get F = s.get F := rfl
@[simp] theorem State.get_modCore (s : State) (g : Cores → Cores) (F : Field) : (s.modCore g).get F = s.get F := rfl
@[simp] theorem State.get_modPort (s : State) (p : Nat) (g : Port → Port) (F : Field) :
    (s.modPort p g).get F = s.get F := rfl
@[simp] theorem State.get_modSlot (s : State) (i : Nat) (g : Slot → Slot) (F : Field) :
    (s.modSlot i g).get F = s.get F := rfl
@[simp] theorem State.get_modFmt (s : State) (a : Nat) (g : Fmt → Fmt) (F : Field) :
    (s.modFmt a g).get F = s.get F := rfl
@[simp] theorem State.get_modLane (s : State) (l : Nat) (g : Lane → Lane) (F : Field) :
    (s.modLane l g).get F = s.get F := rfl

/-! ## Register fields left as they were -/

theorem FieldsKept.refl (s : State) (K : List Field) : FieldsKept s s K := fun _ _ => rfl

theorem FieldsKept.trans {s t u : State} {K : List Field} (h : FieldsKept s t K) (k : FieldsKept t u K) :
    FieldsKept s u K := fun F hF => (k F hF).trans (h F hF)

theorem FieldsKept.of_f {s t : State} (h : t.f = s.f) (K : List Field) : FieldsKept s t K :=
  fun F _ => State.get_of_f h F

theorem FieldsKept.put {s t : State} {K : List Field} (F : Field) (v : Nat) (h : FieldsKept s t K)
    (hF : F.key ∈ K.map Field.key) : FieldsKept s (t.put F v) K := by
  intro G hG
  rw [State.get_put_ne t F v (fun e => hG (by rw [e]; exact hF))]
  exact h G hG

/-! ## The buffer's bytes -/

@[simp] theorem State.byte_setByte_same (s : State) (a : Nat) (b : Byte) : (s.setByte a b).byte a = b := by
  simp [State.byte, State.setByte]

theorem State.byte_setByte_ne (s : State) {a c : Nat} (b : Byte) (h : c ≠ a) : (s.setByte a b).byte c = s.byte c := by
  simp [State.byte, State.setByte, SMap.get_put_ne _ _ _ _ h]

/-- A state whose memory is another's reads the same bytes. -/
theorem BytesKept.of_mem {s t : State} (h : t.mem = s.mem) : BytesKept s t := by
  intro a; unfold State.byte; rw [h]

theorem Mem.get_store_out (m : List Host.Cell) (a v n b : Nat) (h : b < a ∨ a + n ≤ b) :
    SMap.get (Mem.store m a v n) (0 : Byte) b = SMap.get m 0 b := by
  induction n generalizing m a v with
  | zero => rfl
  | succ n ih => unfold Mem.store; rw [ih _ _ _ (by omega), SMap.get_put_ne _ _ _ _ (by omega)]

theorem Mem.get_store_in (m : List Host.Cell) (a v n i : Nat) (h : i < n) :
    SMap.get (Mem.store m a v n) (0 : Byte) (a + i) = BitVec.ofNat 8 (v / 256 ^ i) := by
  induction n generalizing m a v i with
  | zero => omega
  | succ n ih =>
    unfold Mem.store
    cases i with
    | zero => rw [Mem.get_store_out _ _ _ _ _ (by omega)]; simp
    | succ i =>
      have := ih (SMap.put m 0 a (BitVec.ofNat 8 v)) (a + 1) (v / 256) i (by omega)
      rw [show a + (i + 1) = a + 1 + i by omega, this, Nat.div_div_eq_div_mul, Nat.pow_succ, Nat.mul_comm]

/-- A store changes only the bytes it stores to. -/
theorem State.storeMem_but (s : State) (a v n : Nat) : BytesKeptBut s (s.storeMem a v n) a n :=
  fun b h => Mem.get_store_out s.mem a v n b h

/-! ## The canonical form of memory -/

theorem Mem.wf_store (m : List Host.Cell) (a v n : Nat) (h : Memory.wf m = true) : Memory.wf (Mem.store m a v n) = true := by
  induction n generalizing m a v with
  | zero => exact h
  | succ n ih => exact ih _ _ _ (SMap.wf_put _ _ _ _ h)

theorem State.setByte_wf (s : State) (a : Nat) (b : Byte) (h : Memory.wf s.mem = true) :
    Memory.wf (s.setByte a b).mem = true := SMap.wf_put _ _ _ _ h

theorem State.storeMem_wf (s : State) (a v n : Nat) (h : Memory.wf s.mem = true) :
    Memory.wf (s.storeMem a v n).mem = true := Mem.wf_store _ _ _ _ h

/-- Reset memory has the canonical form. -/
theorem reset_memoryOk : State.reset.memoryOk = true := by decide

end Sys2Proof.Machine
end

