-- ==== Sys2Proof/Laws/Buffer.lean ====
section
/-! SUPPORT. The operations that leave every byte of the buffer as it was: one lemma each. -/

set_option linter.all false
set_option maxRecDepth 4000

namespace Sys2Proof.Machine

/-- The `mem` of a meaning's next state. -/
def Res.mem (r : Res) : Option (List Host.Cell) := match r with | .next t => some t.mem | _ => none

@[simp] theorem Res.mem_next (t : State) : Res.mem (.next t) = some t.mem := rfl

@[simp] theorem State.ite_mem (c : Prop) [Decidable c] (a b : State) : (if c then a else b).mem = if c then a.mem else b.mem := apply_ite _ _ _ _

@[simp] theorem State.iteSnd_mem {α : Type} (c : Prop) [Decidable c] (a b : α × State) : (if c then a else b).2.mem = if c then a.2.mem else b.2.mem := by split <;> rfl

@[simp] theorem State.iteSnd2_mem {α β : Type} (c : Prop) [Decidable c] (a b : α × β × State) : (if c then a else b).2.2.mem = if c then a.2.2.mem else b.2.2.mem := by split <;> rfl

@[simp] theorem State.foldl_mem {α : Type} (g : State → α → State) (xs : List α) (s : State) (h : ∀ s x, (g s x).mem = s.mem) : (xs.foldl g s).mem = s.mem := by
  induction xs generalizing s with
  | nil => rfl
  | cons x xs ih => simp [ih, h]

@[simp] theorem State.foldlp_mem {α β : Type} (g : β × State → α → β × State) (xs : List α) (s : β × State) (h : ∀ s x, (g s x).2.mem = s.2.mem) : (xs.foldl g s).2.mem = s.2.mem := by
  induction xs generalizing s with
  | nil => rfl
  | cons x xs ih => simp [ih, h]

@[simp] theorem State.foldlp2_mem {α β γ : Type} (g : γ × β × State → α → γ × β × State) (xs : List α) (s : γ × β × State) (h : ∀ s x, (g s x).2.2.mem = s.2.2.mem) : (xs.foldl g s).2.2.mem = s.2.2.mem := by
  induction xs generalizing s with
  | nil => rfl
  | cons x xs ih => simp [ih, h]

@[simp] theorem State.put_mem (s : State) (F : Field) (v : Nat) :
  (State.put s F v).mem = s.mem := by
  simp [State.put]

@[simp] theorem State.putB_mem (s : State) (F : Field) (b : Bool) :
  (State.putB s F b).mem = s.mem := by
  simp [State.putB]

@[simp] theorem State.clear_mem (s : State) (F : Field) :
  (State.clear s F).mem = s.mem := by
  simp [State.clear]

@[simp] theorem State.incBy_mem (s : State) (F : Field) (n : Nat) :
  (State.incBy s F n).mem = s.mem := by
  simp [State.incBy]

@[simp] theorem State.inc_mem (s : State) (F : Field) :
  (State.inc s F).mem = s.mem := by
  simp [State.inc]

@[simp] theorem State.setBitOf_mem (s : State) (F : Field) (i : Nat) :
  (State.setBitOf s F i).mem = s.mem := by
  simp [State.setBitOf]

@[simp] theorem State.clrBitOf_mem (s : State) (F : Field) (i : Nat) :
  (State.clrBitOf s F i).mem = s.mem := by
  simp [State.clrBitOf]

@[simp] theorem State.reject_mem (s : State) (err : Field) (code : Field) (c : Nat) :
  (State.reject s err code c).mem = s.mem := by
  simp [State.reject]

@[simp] theorem State.put64_mem (s : State) (lo : Field) (hi : Field) (v : Nat) :
  (State.put64 s lo hi v).mem = s.mem := by
  simp [State.put64]

@[simp] theorem State.when_mem (s : State) (b : Bool) (g : State → State) (h0 : ∀ s0, (g s0).mem = s0.mem) :
  (State.when s b g).mem = s.mem := by
  unfold State.when; split <;> simp [*]

@[simp] theorem State.each_mem {α : Type} (s : State) (xs : List α) (g : State → α → State) (h0 : ∀ s0 x1, (g s0 x1).mem = s0.mem) :
  (State.each s xs g).mem = s.mem := by
  unfold State.each; simp [*]

@[simp] theorem State.emit_mem (s : State) (o : Out) :
  (State.emit s o).mem = s.mem := by
  simp [State.emit]

@[simp] theorem State.answer_mem (s : State) (r : Resp) :
  (State.answer s r).mem = s.mem := by
  simp [State.answer]

@[simp] theorem State.draw_mem (s : State) (n : Nat) :
  (State.draw s n).mem = s.mem := by
  simp [State.draw]

@[simp] theorem State.setF_mem (s : State) (x : SMap Nat) :
  (State.setF s x).mem = s.mem := by
  simp [State.setF]

@[simp] theorem State.setHeld_mem (s : State) (x : SMap Nat) :
  (State.setHeld s x).mem = s.mem := by
  simp [State.setHeld]

@[simp] theorem State.setShadow_mem (s : State) (x : SMap Nat) :
  (State.setShadow s x).mem = s.mem := by
  simp [State.setShadow]

@[simp] theorem State.setChk_mem (s : State) (x : SMap Nat) :
  (State.setChk s x).mem = s.mem := by
  simp [State.setChk]

@[simp] theorem State.setPwr_mem (s : State) (x : Power) :
  (State.setPwr s x).mem = s.mem := by
  simp [State.setPwr]

@[simp] theorem State.setEvr_mem (s : State) (x : Evr) :
  (State.setEvr s x).mem = s.mem := by
  simp [State.setEvr]

@[simp] theorem State.setBuf_mem (s : State) (x : Buf) :
  (State.setBuf s x).mem = s.mem := by
  simp [State.setBuf]

@[simp] theorem State.setSpt_mem (s : State) (x : Spt) :
  (State.setSpt s x).mem = s.mem := by
  simp [State.setSpt]

@[simp] theorem State.setMedia_mem (s : State) (x : Media) :
  (State.setMedia s x).mem = s.mem := by
  simp [State.setMedia]

@[simp] theorem State.setPool_mem (s : State) (x : Pool) :
  (State.setPool s x).mem = s.mem := by
  simp [State.setPool]

@[simp] theorem State.setShock_mem (s : State) (x : Shock) :
  (State.setShock s x).mem = s.mem := by
  simp [State.setShock]

@[simp] theorem State.setRefHead_mem (s : State) (x : RefHead) :
  (State.setRefHead s x).mem = s.mem := by
  simp [State.setRefHead]

@[simp] theorem State.setCmds_mem (s : State) (x : SMap Cmd) :
  (State.setCmds s x).mem = s.mem := by
  simp [State.setCmds]

@[simp] theorem State.setCache_mem (s : State) (x : SMap CacheBlk) :
  (State.setCache s x).mem = s.mem := by
  simp [State.setCache]

@[simp] theorem State.setIqiEv_mem (s : State) (x : SMap (List (Nat × Nat))) :
  (State.setIqiEv s x).mem = s.mem := by
  simp [State.setIqiEv]

@[simp] theorem State.setDeferNs_mem (s : State) (x : List Nat) :
  (State.setDeferNs s x).mem = s.mem := by
  simp [State.setDeferNs]

@[simp] theorem State.setFeat_mem (s : State) (x : SMap Nat) :
  (State.setFeat s x).mem = s.mem := by
  simp [State.setFeat]

@[simp] theorem State.setFeatSaved_mem (s : State) (x : SMap Nat) :
  (State.setFeatSaved s x).mem = s.mem := by
  simp [State.setFeatSaved]

@[simp] theorem State.setPesSrc_mem (s : State) (x : Nat) :
  (State.setPesSrc s x).mem = s.mem := by
  simp [State.setPesSrc]

@[simp] theorem State.setCmpSrc_mem (s : State) (x : Nat) :
  (State.setCmpSrc s x).mem = s.mem := by
  simp [State.setCmpSrc]

@[simp] theorem State.setLaneIn_mem (s : State) (x : SMap (List Sample)) :
  (State.setLaneIn s x).mem = s.mem := by
  simp [State.setLaneIn]

@[simp] theorem State.setGrps_mem (s : State) (x : SMap Grps) :
  (State.setGrps s x).mem = s.mem := by
  simp [State.setGrps]

@[simp] theorem State.setPorts_mem (s : State) (x : SMap Port) :
  (State.setPorts s x).mem = s.mem := by
  simp [State.setPorts]

@[simp] theorem State.setWinStaged_mem (s : State) (x : SMap Nat) :
  (State.setWinStaged s x).mem = s.mem := by
  simp [State.setWinStaged]

@[simp] theorem State.setWinLive_mem (s : State) (x : SMap WinLive) :
  (State.setWinLive s x).mem = s.mem := by
  simp [State.setWinLive]

@[simp] theorem State.setAts_mem (s : State) (x : List AtsEntry) :
  (State.setAts s x).mem = s.mem := by
  simp [State.setAts]

@[simp] theorem State.setAtsReq_mem (s : State) (x : List AtsReq) :
  (State.setAtsReq s x).mem = s.mem := by
  simp [State.setAtsReq]

@[simp] theorem State.setAtsInv_mem (s : State) (x : List (Nat × Nat)) :
  (State.setAtsInv s x).mem = s.mem := by
  simp [State.setAtsInv]

@[simp] theorem State.setPairs_mem (s : State) (x : SMap Pair) :
  (State.setPairs s x).mem = s.mem := by
  simp [State.setPairs]

@[simp] theorem State.setNextSeq_mem (s : State) (x : Nat) :
  (State.setNextSeq s x).mem = s.mem := by
  simp [State.setNextSeq]

@[simp] theorem State.setLastPort_mem (s : State) (x : Nat) :
  (State.setLastPort s x).mem = s.mem := by
  simp [State.setLastPort]

@[simp] theorem State.setFetchStop_mem (s : State) (x : Bool) :
  (State.setFetchStop s x).mem = s.mem := by
  simp [State.setFetchStop]

@[simp] theorem State.setAdm_mem (s : State) (x : Admin) :
  (State.setAdm s x).mem = s.mem := by
  simp [State.setAdm]

@[simp] theorem State.setSec_mem (s : State) (x : Sec) :
  (State.setSec s x).mem = s.mem := by
  simp [State.setSec]

@[simp] theorem State.setChd_mem (s : State) (x : Chd) :
  (State.setChd s x).mem = s.mem := by
  simp [State.setChd]

@[simp] theorem State.modSpn_mem (s : State) (g : Spn → Spn) :
  (State.modSpn s g).mem = s.mem := by
  simp [State.modSpn]

@[simp] theorem State.modPwr_mem (s : State) (g : Power → Power) :
  (State.modPwr s g).mem = s.mem := by
  simp [State.modPwr]

@[simp] theorem State.putDom_mem (s : State) (d : Nat) (x : DomSt) :
  (State.putDom s d x).mem = s.mem := by
  simp [State.putDom]

@[simp] theorem State.settleDoms_mem (s : State) :
  (State.settleDoms s).mem = s.mem := by
  simp [State.settleDoms]

@[simp] theorem State.putReqWords_mem (s : State) (w : Nat) :
  (State.putReqWords s w).mem = s.mem := by
  simp [State.putReqWords]

@[simp] theorem State.withdraw_mem (s : State) (keep : Nat → Bool) :
  (State.withdraw s keep).mem = s.mem := by
  simp [State.withdraw]

@[simp] theorem State.restoreReqs_mem (s : State) :
  (State.restoreReqs s).mem = s.mem := by
  simp [State.restoreReqs]

@[simp] theorem State.charge_mem (s : State) (cls : Nat) (n : Nat) :
  (State.charge s cls n).mem = s.mem := by
  simp [State.charge]

@[simp] theorem execArbitrationRound_mem (s : State) :
  Res.mem (execArbitrationRound s) = some s.mem := by
  simp [execArbitrationRound]

@[simp] theorem execHbmRefresh_mem (s : State) :
  Res.mem (execHbmRefresh s) = some s.mem := by
  simp [execHbmRefresh]

@[simp] theorem execHbmHot_mem (temp : Nat) (s : State) :
  Res.mem (execHbmHot temp s) = some s.mem := by
  simp [execHbmHot]

@[simp] theorem State.scrubGo_mem (s : State) (target : Nat) (pos : Nat) :
  (State.scrubGo s target pos).mem = s.mem := by
  simp [State.scrubGo]

@[simp] theorem execScrubStart_mem (s : State) :
  Res.mem (execScrubStart s) = some s.mem := by
  simp [execScrubStart]

@[simp] theorem execSramSweepStart_mem (s : State) :
  Res.mem (execSramSweepStart s) = some s.mem := by
  simp [execSramSweepStart]

@[simp] theorem State.scrubFirst_mem (s : State) (w : Nat) :
  (State.scrubFirst s w).mem = s.mem := by
  simp [State.scrubFirst]

@[simp] theorem State.sramRewrite_mem (s : State) (inst : Nat) (word : Nat) :
  (State.sramRewrite s inst word).mem = s.mem := by
  simp [State.sramRewrite]

@[simp] theorem State.sramRead_mem (s : State) (inst : Nat) (word : Nat) :
  (State.sramRead s inst word).2.mem = s.mem := by
  unfold State.sramRead
  repeat' split
  all_goals simp

@[simp] theorem State.sramReadAll_mem (s : State) (inst : Nat) (y2 : List Nat) :
  (State.sramReadAll s inst y2).2.mem = s.mem := by
  induction y2 generalizing s with
  | nil => rfl
  | cons x xs ih => simp [State.sramReadAll, ih]

@[simp] theorem State.sramWritten_mem (s : State) (inst : Nat) (p : Nat → Bool) :
  (State.sramWritten s inst p).mem = s.mem := by
  simp [State.sramWritten]

@[simp] theorem State.sramUse_mem (s : State) (inst : Nat) (p : Nat → Bool) :
  (State.sramUse s inst p).2.mem = s.mem := by
  simp [State.sramUse]

@[simp] theorem State.sweepWord_mem (s : State) (k : Nat) :
  (State.sweepWord s k).mem = s.mem := by
  unfold State.sweepWord
  dsimp only
  repeat' (first | (simp; done) | intro _ | split | (simp_all; done))

@[simp] theorem execFlipArm_mem (value : Word) (s : State) :
  Res.mem (execFlipArm value s) = some s.mem := by
  simp [execFlipArm]

@[simp] theorem execFlipApply_mem (word : Nat) (s : State) :
  Res.mem (execFlipApply word s) = some s.mem := by
  simp [execFlipApply]

@[simp] theorem State.putBuckets_mem (s : State) (b : SMap Bucket) :
  (State.putBuckets s b).mem = s.mem := by
  simp [State.putBuckets]

@[simp] theorem State.putBucket_mem (s : State) (code : Nat) (b : Bucket) :
  (State.putBucket s code b).mem = s.mem := by
  simp [State.putBucket]

@[simp] theorem State.rateLimit_mem (s : State) (code : Nat) (severity : Nat) :
  (State.rateLimit s code severity).2.mem = s.mem := by
  unfold State.rateLimit
  repeat' split
  all_goals simp

@[simp] theorem State.wait_mem (s : State) (r : EvRec) :
  (State.wait s r).mem = s.mem := by
  simp [State.wait]

@[simp] theorem execBucketRefill_mem (code : Nat) (s : State) :
  Res.mem (execBucketRefill code s) = some s.mem := by
  unfold execBucketRefill
  repeat' split
  all_goals simp

@[simp] theorem execEventArchive_mem (s : State) :
  Res.mem (execEventArchive s) = some s.mem := by
  simp [execEventArchive]

@[simp] theorem State.rebucket_mem (s : State) (old : Nat → Nat) :
  (State.rebucket s old).mem = s.mem := by
  simp [State.rebucket]

@[simp] theorem State.evrCtl_mem (s : State) (v : Nat) :
  (State.evrCtl s v).mem = s.mem := by
  simp [State.evrCtl]

@[simp] theorem execEvrEnable_mem (value : Word) (s : State) :
  Res.mem (execEvrEnable value s) = some s.mem := by
  simp [execEvrEnable]

@[simp] theorem State.putRl_mem (s : State) (e : RlEntry) :
  (State.putRl s e).mem = s.mem := by
  simp [State.putRl]

@[simp] theorem execRateLimitWrite_mem (offset : Nat) (value : Word) (s : State) :
  Res.mem (execRateLimitWrite offset value s) = some s.mem := by
  simp [execRateLimitWrite]

@[simp] theorem State.modPort_mem (s : State) (p : Nat) (g : Port → Port) :
  (State.modPort s p g).mem = s.mem := by
  simp [State.modPort]

@[simp] theorem State.wake_mem (s : State) (p : Nat) :
  (State.wake s p).mem = s.mem := by
  simp [State.wake]

@[simp] theorem State.linkNarrow_mem (s : State) (p : Nat) :
  (State.linkNarrow s p).mem = s.mem := by
  simp [State.linkNarrow]

@[simp] theorem State.linkWiden_mem (s : State) (p : Nat) :
  (State.linkWiden s p).mem = s.mem := by
  unfold State.linkWiden
  repeat' split
  all_goals simp

@[simp] theorem State.commit_mem (s : State) (seq : Nat) (c : Cpl) :
  (State.commit s seq c).mem = s.mem := by
  unfold State.commit
  repeat' split
  all_goals simp

@[simp] theorem State.putEv_mem (s : State) (port : Nat) (l : List (Nat × Nat)) :
  (State.putEv s port l).mem = s.mem := by
  simp [State.putEv]

@[simp] theorem State.reportEvent_mem (s : State) (port : Nat) :
  (State.reportEvent s port).mem = s.mem := by
  unfold State.reportEvent
  repeat' split
  all_goals simp

@[simp] theorem State.queueEvent_mem (s : State) (port : Nat) (ty : Nat) (info : Nat) :
  (State.queueEvent s port ty info).mem = s.mem := by
  simp [State.queueEvent]

@[simp] theorem State.queueEventAll_mem (s : State) (ty : Nat) (info : Nat) :
  (State.queueEventAll s ty info).mem = s.mem := by
  simp [State.queueEventAll]

@[simp] theorem State.health_mem (s : State) (c : Nat) :
  (State.health s c).mem = s.mem := by
  simp [State.health]

@[simp] theorem State.putRange_mem (s : State) (r : Nat) (x : KRange) :
  (State.putRange s r x).mem = s.mem := by
  simp [State.putRange]

@[simp] theorem State.putWindow_mem (s : State) (w : SMap WinEntry) :
  (State.putWindow s w).mem = s.mem := by
  simp [State.putWindow]

@[simp] theorem State.freeWin_mem (s : State) (i : Nat) :
  (State.freeWin s i).mem = s.mem := by
  simp [State.freeWin]

@[simp] theorem State.dropWin_mem (s : State) (i : Nat) :
  (State.dropWin s i).mem = s.mem := by
  simp [State.dropWin]

@[simp] theorem State.holdWin_mem (s : State) (i : Nat) :
  (State.holdWin s i).mem = s.mem := by
  unfold State.holdWin
  repeat' split
  all_goals simp

@[simp] theorem State.freeHeld_mem (s : State) (nsid : Nat) (lba : Nat) (older : Nat → WinEntry → Bool) :
  (State.freeHeld s nsid lba older).mem = s.mem := by
  simp [State.freeHeld]

@[simp] theorem State.putMeta_mem (s : State) (g : Spt → Spt) :
  (State.putMeta s g).mem = s.mem := by
  simp [State.putMeta]

@[simp] theorem State.unfail_mem (s : State) (nsid : Nat) (lba : Nat) :
  (State.unfail s nsid lba).mem = s.mem := by
  simp [State.unfail]

@[simp] theorem State.markFailed_mem (s : State) (nsid : Nat) (lba : Nat) (sc : Nat) :
  (State.markFailed s nsid lba sc).mem = s.mem := by
  simp [State.markFailed]

@[simp] theorem State.blockDone_mem (s : State) (addr : Nat) :
  (State.blockDone s addr).mem = s.mem := by
  unfold State.blockDone
  repeat' split
  all_goals simp

@[simp] theorem State.blockWritten_mem (s : State) (addr : Nat) :
  (State.blockWritten s addr).mem = s.mem := by
  unfold State.blockWritten
  repeat' split
  all_goals simp

@[simp] theorem State.readBack_mem (s : State) (lo : Nat) :
  (State.readBack s lo).mem = s.mem := by
  simp [State.readBack]

@[simp] theorem State.lostBlock_mem (s : State) (addr : Nat) (b : CacheBlk) (sc : Nat) :
  (State.lostBlock s addr b sc).mem = s.mem := by
  simp [State.lostBlock]

@[simp] theorem State.putSlot_mem (s : State) (i : Nat) (x : Slot) :
  (State.putSlot s i x).mem = s.mem := by
  simp [State.putSlot]

@[simp] theorem State.modSlot_mem (s : State) (i : Nat) (g : Slot → Slot) :
  (State.modSlot s i g).mem = s.mem := by
  simp [State.modSlot]

@[simp] theorem State.putFmt_mem (s : State) (a : Nat) (x : Fmt) :
  (State.putFmt s a x).mem = s.mem := by
  simp [State.putFmt]

@[simp] theorem State.modFmt_mem (s : State) (a : Nat) (g : Fmt → Fmt) :
  (State.modFmt s a g).mem = s.mem := by
  simp [State.modFmt]

@[simp] theorem State.putThread_mem (s : State) (a : Nat) (j : Nat) (t : Thread) :
  (State.putThread s a j t).mem = s.mem := by
  simp [State.putThread]

@[simp] theorem State.putPa_mem (s : State) (a : Nat) (x : PaLink) :
  (State.putPa s a x).mem = s.mem := by
  simp [State.putPa]

@[simp] theorem State.putLane_mem (s : State) (a : Nat) (x : Lane) :
  (State.putLane s a x).mem = s.mem := by
  simp [State.putLane]

@[simp] theorem State.modLane_mem (s : State) (a : Nat) (g : Lane → Lane) :
  (State.modLane s a g).mem = s.mem := by
  simp [State.modLane]

@[simp] theorem State.putSrc_mem (s : State) (i : Nat) (x : Src) :
  (State.putSrc s i x).mem = s.mem := by
  simp [State.putSrc]

@[simp] theorem State.setSrcState_mem (s : State) (i : Nat) (v : Nat) :
  (State.setSrcState s i v).mem = s.mem := by
  simp [State.setSrcState]

@[simp] theorem State.paNext_mem (s : State) (a : Nat) :
  (State.paNext s a).mem = s.mem := by
  unfold State.paNext
  dsimp only
  repeat' (first | (simp; done) | intro _ | split | (simp_all; done))

@[simp] theorem State.paMember_mem (s : State) (a : Nat) (fs : List PaFrame) :
  (State.paMember s a fs).mem = s.mem := by
  simp [State.paMember]

@[simp] theorem State.paFast_mem (s : State) (a : Nat) (fs : List PaFrame) :
  (State.paFast s a fs).mem = s.mem := by
  simp [State.paFast]

@[simp] theorem State.paDrop_mem (s : State) (a : Nat) (j : Nat) :
  (State.paDrop s a j).mem = s.mem := by
  simp [State.paDrop]

@[simp] theorem State.arrive_mem (s : State) (i : Nat) (h : Nat) (wedge : Nat) (flags : Nat) (pair : Nat) (y : Int) :
  (State.arrive s i h wedge flags pair y).mem = s.mem := by
  simp [State.arrive]

@[simp] theorem State.deliverSample_mem (s : State) (i : Nat) (h : Nat) (wedge : Nat) (flags : Nat) (pos : Option (Nat × Int)) :
  (State.deliverSample s i h wedge flags pos).mem = s.mem := by
  simp [State.deliverSample]

@[simp] theorem State.lastSample_mem (s : State) (i : Nat) :
  (State.lastSample s i).mem = s.mem := by
  unfold State.lastSample
  repeat' split
  all_goals simp

@[simp] theorem State.fixRefs_mem (s : State) (i : Nat) :
  (State.fixRefs s i).mem = s.mem := by
  simp [State.fixRefs]

@[simp] theorem State.modRun_mem (s : State) (a : Nat) (rid : Nat) (g : Run → Run) :
  (State.modRun s a rid g).mem = s.mem := by
  simp [State.modRun]

@[simp] theorem State.missSector_mem (s : State) (a : Nat) (rid : Nat) (idx : Nat) (limited : Bool) :
  (State.missSector s a rid idx limited).mem = s.mem := by
  unfold State.missSector
  dsimp only
  repeat' (first | (simp; done) | intro _ | split | (simp_all; done))

@[simp] theorem State.closeGate_mem (s : State) (i : Nat) :
  (State.closeGate s i).mem = s.mem := by
  simp [State.closeGate]

@[simp] theorem State.servoGate_mem (s : State) (i : Nat) (on : Bool) :
  (State.servoGate s i on).mem = s.mem := by
  unfold State.servoGate
  repeat' split
  all_goals simp

@[simp] theorem State.searchOff_mem (s : State) (i : Nat) :
  (State.searchOff s i).mem = s.mem := by
  simp [State.searchOff]

@[simp] theorem State.refChanged_mem (s : State) (old : Option (Nat × Nat)) :
  (State.refChanged s old).mem = s.mem := by
  simp [State.refChanged]

@[simp] theorem State.startClock_mem (s : State) (i : Nat) (cells : Nat) :
  (State.startClock s i cells).mem = s.mem := by
  simp [State.startClock]

@[simp] theorem State.loadSeeds_mem (s : State) (i : Nat) (peg : Nat) :
  (State.loadSeeds s i peg).mem = s.mem := by
  simp [State.loadSeeds]

@[simp] theorem State.closeWindow_mem (s : State) (i : Nat) :
  (State.closeWindow s i).mem = s.mem := by
  simp [State.closeWindow]

@[simp] theorem State.moveLoop_mem (s : State) (i : Nat) (loop : Nat) (e : Nat) (err : Int) :
  (State.moveLoop s i loop e err).mem = s.mem := by
  simp [State.moveLoop]

@[simp] theorem State.stepLoop_mem (s : State) (i : Nat) (loop : Nat) (e : Nat) (acq : Bool) (cell : Nat) (err : Int) :
  (State.stepLoop s i loop e acq cell err).mem = s.mem := by
  simp [State.stepLoop]

@[simp] theorem execLoopUpdate_mem (slot : Fin 16) (loop : Fin 5) (elem : Fin 3) (cell : Nat) (lead : List (List Int)) (streams : List (List Int)) (s : State) :
  Res.mem (execLoopUpdate slot loop elem cell lead streams s) = some s.mem := by
  unfold execLoopUpdate
  dsimp only
  repeat' (first | (simp; done) | intro _ | split | rw [State.each_mem] | (simp_all; done))

@[simp] theorem State.restoreLoops_mem (s : State) (i : Nat) (first : Nat) :
  (State.restoreLoops s i first).mem = s.mem := by
  simp [State.restoreLoops]

@[simp] theorem State.reflagSect_mem (s : State) (i : Nat) (e : Nat) (first : Nat) (last : Nat) :
  (State.reflagSect s i e first last).mem = s.mem := by
  unfold State.reflagSect
  repeat' split
  all_goals simp

@[simp] theorem State.defectWindow_mem (s : State) (i : Nat) (first : Nat) (last : Nat) :
  (State.defectWindow s i first last).mem = s.mem := by
  unfold State.defectWindow
  dsimp only
  repeat' (first | (simp; done) | intro _ | split | (simp_all; done))

@[simp] theorem State.countDefect_mem (s : State) (i : Nat) (thermal : Bool) (dropOut : Bool) :
  (State.countDefect s i thermal dropOut).mem = s.mem := by
  unfold State.countDefect
  dsimp only
  repeat' (first | (simp; done) | intro _ | split | rw [State.when_mem] | (simp_all; done))

@[simp] theorem execDefectDeclare_mem (slot : Fin 16) (cell : Nat) (streams : List (List Int)) (s : State) :
  Res.mem (execDefectDeclare slot cell streams s) = some s.mem := by
  unfold execDefectDeclare
  dsimp only
  repeat' (first | (simp; done) | intro _ | split | rw [State.when_mem] | (simp_all; done))

@[simp] theorem execDefectWindowClose_mem (slot : Fin 16) (s : State) :
  Res.mem (execDefectWindowClose slot s) = some s.mem := by
  unfold execDefectWindowClose
  dsimp only
  repeat' (first | (simp; done) | intro _ | split | (simp_all; done))

@[simp] theorem State.modSect_mem (s : State) (i : Nat) (e : Nat) (g : Sect → Sect) :
  (State.modSect s i e g).mem = s.mem := by
  unfold State.modSect
  repeat' split
  all_goals simp

@[simp] theorem execCaptureDone_mem (slot : Fin 16) (e0 : ElemCapture) (e1 : ElemCapture) (e2 : ElemCapture) (s : State) :
  Res.mem (execCaptureDone slot e0 e1 e2 s) = some s.mem := by
  unfold execCaptureDone
  dsimp only
  repeat' (first | (simp; done) | intro _ | split | rw [State.each_mem] | rw [State.foldl_mem] | rw [State.foldlp_mem] | (simp_all; done))

@[simp] theorem execSbHoldWrite_mem (slot : Fin 16) (value : Word) (s : State) :
  Res.mem (execSbHoldWrite slot value s) = some s.mem := by
  simp [execSbHoldWrite]

@[simp] theorem execSbDataRead_mem (slot : Fin 16) (s : State) :
  Res.mem (execSbDataRead slot s) = some s.mem := by
  simp [execSbDataRead]

@[simp] theorem execEqTapAdapt_mem (slot : Fin 16) (run : SampleRun) (s : State) :
  Res.mem (execEqTapAdapt slot run s) = some s.mem := by
  unfold execEqTapAdapt
  dsimp only
  repeat' (first | (simp; done) | intro _ | split | rw [State.foldl_mem] | rw [State.foldlp_mem] | (simp_all; done))

@[simp] theorem execSyncSearchEnd_mem (slot : Fin 16) (streams : List (List Int)) (s : State) :
  Res.mem (execSyncSearchEnd slot streams s) = some s.mem := by
  simp [execSyncSearchEnd]

@[simp] theorem execResyncSearchEnd_mem (slot : Fin 16) (frag : Nat) (streams : List (List Int)) (s : State) :
  Res.mem (execResyncSearchEnd slot frag streams s) = some s.mem := by
  simp [execResyncSearchEnd]

@[simp] theorem State.attemptReads_mem (s : State) (i : Nat) (e : Nat) (inst : Nat) (q : Sect) (upset : Bool) :
  (State.attemptReads s i e inst q upset).2.mem = s.mem := by
  simp [State.attemptReads]

@[simp] theorem State.appendRecord_mem (s : State) (i : Nat) (lo : Nat) (hi : Nat) :
  (State.appendRecord s i lo hi).mem = s.mem := by
  simp [State.appendRecord]

@[simp] theorem State.missedRecord_mem (s : State) (i : Nat) (psi : Nat) :
  (State.missedRecord s i psi).mem = s.mem := by
  simp [State.missedRecord]

@[simp] theorem State.poolDrop_mem (s : State) (ref : Nat) :
  (State.poolDrop s ref).mem = s.mem := by
  unfold State.poolDrop
  dsimp only
  repeat' (first | (simp; done) | intro _ | split | (simp_all; done))

@[simp] theorem State.setAttempt_mem (s : State) (ref : Nat) (k : Nat) (st : AttState) :
  (State.setAttempt s ref k st).mem = s.mem := by
  simp [State.setAttempt]

@[simp] theorem execDeepAttemptStart_mem (engine : Fin 8) (s : State) :
  Res.mem (execDeepAttemptStart engine s) = some s.mem := by
  unfold execDeepAttemptStart
  repeat' split
  all_goals simp

@[simp] theorem execSectLoRead_mem (slot : Fin 16) (s : State) :
  Res.mem (execSectLoRead slot s) = some s.mem := by
  unfold execSectLoRead
  dsimp only
  repeat' (first | (simp; done) | intro _ | split | (simp_all; done))

@[simp] theorem execSectHiRead_mem (slot : Fin 16) (s : State) :
  Res.mem (execSectHiRead slot s) = some s.mem := by
  unfold execSectHiRead
  dsimp only
  repeat' (first | (simp; done) | intro _ | split | (simp_all; done))

@[simp] theorem execPaCmdWrite_mem (slot : Fin 16) (value : Word) (s : State) :
  Res.mem (execPaCmdWrite slot value s) = some s.mem := by
  simp [execPaCmdWrite]

@[simp] theorem State.clockValid_mem (s : State) (i : Nat) (m : Member) (e : Int) :
  (State.clockValid s i m e).mem = s.mem := by
  simp [State.clockValid]

@[simp] theorem execClockField_mem (slot : Fin 16) (measured : Int) (samples : List Int) (s : State) :
  Res.mem (execClockField slot measured samples s) = some s.mem := by
  unfold execClockField
  dsimp only
  repeat' (first | (simp; done) | intro _ | split | (simp_all; done))

@[simp] theorem execMediaClockLock_mem (slot : Fin 16) (s : State) :
  Res.mem (execMediaClockLock slot s) = some s.mem := by
  simp [execMediaClockLock]

@[simp] theorem execCodewordEncodeDone_mem (slot : Fin 16) (info : Nat) (parity : Nat) (s : State) :
  Res.mem (execCodewordEncodeDone slot info parity s) = some s.mem := by
  unfold execCodewordEncodeDone
  dsimp only
  repeat' (first | (simp; done) | intro _ | split | (simp_all; done))

@[simp] theorem execCodewordUnderrun_mem (slot : Fin 16) (s : State) :
  Res.mem (execCodewordUnderrun slot s) = some s.mem := by
  unfold execCodewordUnderrun
  dsimp only
  repeat' (first | (simp; done) | intro _ | split | (simp_all; done))

@[simp] theorem execShockClear_mem (s : State) :
  Res.mem (execShockClear s) = some s.mem := by
  simp [execShockClear]

@[simp] theorem State.fmtIso_mem (s : State) (a : Nat) (g : State → State) (h0 : ∀ s0, (g s0).mem = s0.mem) :
  (State.fmtIso s a g).mem = s.mem := by
  unfold State.fmtIso
  simp
  repeat' (first | (simp; done) | intro _ | split | rw [State.fmtIso_mem] | (simp_all; done))

@[simp] theorem State.fmtReject_mem (s : State) (a : Nat) (c : Nat) :
  (State.fmtReject s a c).mem = s.mem := by
  simp [State.fmtReject]

@[simp] theorem State.drainEnded_mem (s : State) (a : Nat) :
  (State.drainEnded s a).mem = s.mem := by
  simp [State.drainEnded]

@[simp] theorem State.endRuns_mem (s : State) (a : Nat) :
  (State.endRuns s a).mem = s.mem := by
  simp [State.endRuns]

@[simp] theorem State.discardSects_mem (s : State) (i : Nat) :
  (State.discardSects s i).mem = s.mem := by
  simp [State.discardSects]

@[simp] theorem State.stopSlot_mem (s : State) (i : Nat) :
  (State.stopSlot s i).mem = s.mem := by
  simp [State.stopSlot]

@[simp] theorem State.atCell_mem (s : State) (i : Nat) (w : Nat) (c : Nat) :
  (State.atCell s i w c).mem = s.mem := by
  simp [State.atCell]

@[simp] theorem State.setCmp_mem (s : State) (a : Nat) (j : Nat) (cells : Nat) (cell : Nat) :
  (State.setCmp s a j cells cell).mem = s.mem := by
  simp [State.setCmp]

@[simp] theorem State.freeCmp_mem (s : State) (a : Nat) (j : Nat) :
  (State.freeCmp s a j).mem = s.mem := by
  simp [State.freeCmp]

@[simp] theorem execTabBeatEnd_mem (act : Fin 4) (thread : Fin 4) (w : Nat) (c : Nat) (s : State) :
  Res.mem (execTabBeatEnd act thread w c s) = some s.mem := by
  unfold execTabBeatEnd
  dsimp only
  repeat' (first | (simp; done) | intro _ | split | (simp_all; done))

@[simp] theorem State.captureStart_mem (s : State) (i : Nat) (d : RdSect) (m : Member) (pos : Nat) :
  (State.captureStart s i d m pos).mem = s.mem := by
  simp [State.captureStart]

@[simp] theorem State.fastWrite_mem (s : State) (i : Nat) (on : Bool) :
  (State.fastWrite s i on).mem = s.mem := by
  unfold State.fastWrite
  repeat' split
  all_goals simp

@[simp] theorem execRunPush_mem (act : Fin 4) (value : Word) (s : State) :
  Res.mem (execRunPush act value s) = some s.mem := by
  unfold execRunPush
  simp
  repeat' (first | (simp; done) | intro _ | split | rw [State.fmtIso_mem] | (simp_all; done))

@[simp] theorem execRunDone_mem (act : Fin 4) (loc : Fin 4) (s : State) :
  Res.mem (execRunDone act loc s) = some s.mem := by
  unfold execRunDone
  dsimp only
  repeat' (first | (simp; done) | intro _ | split | (simp_all; done))

@[simp] theorem execFmtDoneRead_mem (act : Fin 4) (s : State) :
  Res.mem (execFmtDoneRead act s) = some s.mem := by
  unfold execFmtDoneRead
  simp
  repeat' (first | (simp; done) | intro _ | split | rw [State.fmtIso_mem] | (simp_all; done))

@[simp] theorem execCourseCommit_mem (act : Fin 4) (value : Word) (s : State) :
  Res.mem (execCourseCommit act value s) = some s.mem := by
  simp [execCourseCommit]

@[simp] theorem execCapoDataWrite_mem (act : Fin 4) (value : Word) (s : State) :
  Res.mem (execCapoDataWrite act value s) = some s.mem := by
  simp [execCapoDataWrite]

@[simp] theorem execCapoVerify_mem (act : Fin 4) (value : Word) (s : State) :
  Res.mem (execCapoVerify act value s) = some s.mem := by
  simp [execCapoVerify]

@[simp] theorem execCapoVerifyDone_mem (act : Fin 4) (s : State) :
  Res.mem (execCapoVerifyDone act s) = some s.mem := by
  unfold execCapoVerifyDone
  dsimp only
  repeat' (first | (simp; done) | intro _ | split | (simp_all; done))

@[simp] theorem State.servoGain_mem (s : State) (i : Nat) (m : Member) (f : ServoField) :
  (State.servoGain s i m f).mem = s.mem := by
  simp [State.servoGain]

@[simp] theorem State.servoAcquire_mem (s : State) (i : Nat) (m : Member) (f : ServoField) :
  (State.servoAcquire s i m f).mem = s.mem := by
  simp [State.servoAcquire]

@[simp] theorem State.servoStart_mem (s : State) (i : Nat) (m : Member) (f : ServoField) :
  (State.servoStart s i m f).mem = s.mem := by
  simp [State.servoStart]

@[simp] theorem State.servoEnd_mem (s : State) (i : Nat) (m : Member) :
  (State.servoEnd s i m).mem = s.mem := by
  simp [State.servoEnd]

@[simp] theorem State.trackField_mem (s : State) (i : Nat) (h : Nat) (m : Member) (r : FieldRead) :
  (State.trackField s i h m r).mem = s.mem := by
  simp [State.trackField]

@[simp] theorem State.refTick_mem (s : State) (stamp : Nat) :
  (State.refTick s stamp).mem = s.mem := by
  unfold State.refTick
  dsimp only
  repeat' (first | (simp; done) | intro _ | split | rw [State.when_mem] | (simp_all; done))

@[simp] theorem execRevTicksAged_mem (s : State) :
  Res.mem (execRevTicksAged s) = some s.mem := by
  simp [execRevTicksAged]

@[simp] theorem State.mtrReject_mem (s : State) (c : Nat) :
  (State.mtrReject s c).mem = s.mem := by
  simp [State.mtrReject]

@[simp] theorem State.setRet_mem (s : State) (a : Nat) (v : Nat) :
  (State.setRet s a v).mem = s.mem := by
  simp [State.setRet]

@[simp] theorem State.retract_mem (s : State) (a : Nat) (cause : Nat) :
  (State.retract s a cause).mem = s.mem := by
  simp [State.retract]

@[simp] theorem State.retractAll_mem (s : State) (cause : Nat) :
  (State.retractAll s cause).mem = s.mem := by
  simp [State.retractAll]

@[simp] theorem State.retractUnparked_mem (s : State) (cause : Nat) :
  (State.retractUnparked s cause).mem = s.mem := by
  simp [State.retractUnparked]

@[simp] theorem State.retCmd_mem (s : State) (v : Nat) :
  (State.retCmd s v).mem = s.mem := by
  simp [State.retCmd]

@[simp] theorem execRetractCmd_mem (value : Word) (s : State) :
  Res.mem (execRetractCmd value s) = some s.mem := by
  simp [execRetractCmd]

@[simp] theorem execRetractDone_mem (act : Fin 4) (s : State) :
  Res.mem (execRetractDone act s) = some s.mem := by
  simp [execRetractDone]

@[simp] theorem State.parkedClear_mem (s : State) (v : Nat) :
  (State.parkedClear s v).mem = s.mem := by
  simp [State.parkedClear]

@[simp] theorem execParkedClear_mem (value : Word) (s : State) :
  Res.mem (execParkedClear value s) = some s.mem := by
  simp [execParkedClear]

@[simp] theorem State.d2dSend_mem (s : State) (lane : Nat) (output : Nat) (code : Int) :
  (State.d2dSend s lane output code).mem = s.mem := by
  simp [State.d2dSend]

@[simp] theorem execDriverCommand_mem (s : State) :
  Res.mem (execDriverCommand s) = some s.mem := by
  unfold execDriverCommand
  repeat' split
  all_goals simp

@[simp] theorem execStopMessage_mem (s : State) :
  Res.mem (execStopMessage s) = some s.mem := by
  unfold execStopMessage
  repeat' split
  all_goals simp

@[simp] theorem State.slew_mem (s : State) (dt : Nat) :
  (State.slew s dt).mem = s.mem := by
  simp [State.slew]

@[simp] theorem State.piLoop_mem (s : State) :
  (State.piLoop s).mem = s.mem := by
  simp [State.piLoop]

@[simp] theorem State.noteSpeed_mem (s : State) (v : Nat) :
  (State.noteSpeed s v).mem = s.mem := by
  simp [State.noteSpeed]

@[simp] theorem execWedgeTickTimeout_mem (s : State) :
  Res.mem (execWedgeTickTimeout s) = some s.mem := by
  simp [execWedgeTickTimeout]

@[simp] theorem State.enterSpin_mem (s : State) (v : Nat) :
  (State.enterSpin s v).mem = s.mem := by
  simp [State.enterSpin]

@[simp] theorem State.switchesOff_mem (s : State) :
  (State.switchesOff s).mem = s.mem := by
  simp [State.switchesOff]

@[simp] theorem State.brakeIn_mem (s : State) (mode : Nat) :
  (State.brakeIn s mode).mem = s.mem := by
  simp [State.brakeIn]

@[simp] theorem State.sense_mem (s : State) :
  (State.sense s).mem = s.mem := by
  simp [State.sense]

@[simp] theorem State.spinStart_mem (s : State) :
  (State.spinStart s).mem = s.mem := by
  simp [State.spinStart]

@[simp] theorem State.spnCtl_mem (s : State) (v : Nat) :
  (State.spnCtl s v).mem = s.mem := by
  simp [State.spnCtl]

@[simp] theorem execSpindleStart_mem (value : Word) (s : State) :
  Res.mem (execSpindleStart value s) = some s.mem := by
  simp [execSpindleStart]

@[simp] theorem execSpindleStop_mem (value : Word) (s : State) :
  Res.mem (execSpindleStop value s) = some s.mem := by
  simp [execSpindleStop]

@[simp] theorem State.align_mem (s : State) :
  (State.align s).mem = s.mem := by
  simp [State.align]

@[simp] theorem State.accel_mem (s : State) :
  (State.accel s).mem = s.mem := by
  simp [State.accel]

@[simp] theorem execSenseEnd_mem (lowAmplitude : Bool) (dir : Bool) (speed : Nat) (step : Fin 6) (s : State) :
  Res.mem (execSenseEnd lowAmplitude dir speed step s) = some s.mem := by
  simp [execSenseEnd]

@[simp] theorem execPreBrakeSample_mem (speed : Nat) (s : State) :
  Res.mem (execPreBrakeSample speed s) = some s.mem := by
  simp [execPreBrakeSample]

@[simp] theorem execAlignEnd_mem (s : State) :
  Res.mem (execAlignEnd s) = some s.mem := by
  simp [execAlignEnd]

@[simp] theorem execHandover_mem (s : State) :
  Res.mem (execHandover s) = some s.mem := by
  simp [execHandover]

@[simp] theorem State.nextStep_mem (s : State) (t : Nat) :
  (State.nextStep s t).mem = s.mem := by
  simp [State.nextStep]

@[simp] theorem execCommutation_mem (step : Fin 6) (s : State) :
  Res.mem (execCommutation step s) = some s.mem := by
  unfold execCommutation
  repeat' split
  all_goals simp

@[simp] theorem execZcMiss_mem (s : State) :
  Res.mem (execZcMiss s) = some s.mem := by
  simp [execZcMiss]

@[simp] theorem execAtSpeed_mem (s : State) :
  Res.mem (execAtSpeed s) = some s.mem := by
  simp [execAtSpeed]

@[simp] theorem execAtSpeedLost_mem (s : State) :
  Res.mem (execAtSpeedLost s) = some s.mem := by
  simp [execAtSpeedLost]

@[simp] theorem State.spnSet_mem (s : State) (v : Nat) :
  (State.spnSet s v).mem = s.mem := by
  simp [State.spnSet]

@[simp] theorem State.clampDepth_mem (s : State) :
  (State.clampDepth s).mem = s.mem := by
  simp [State.clampDepth]

@[simp] theorem State.fromDoze_mem (s : State) :
  (State.fromDoze s).mem = s.mem := by
  simp [State.fromDoze]

@[simp] theorem State.spunDown_mem (s : State) :
  (State.spunDown s).mem = s.mem := by
  simp [State.spunDown]

@[simp] theorem execBrakeStop_mem (speed : Nat) (s : State) :
  Res.mem (execBrakeStop speed s) = some s.mem := by
  simp [execBrakeStop]

@[simp] theorem State.vmot_mem (s : State) (v : Nat) :
  (State.vmot s v).mem = s.mem := by
  simp [State.vmot]

@[simp] theorem State.vin_mem (s : State) (v : Nat) :
  (State.vin s v).mem = s.mem := by
  simp [State.vin]

@[simp] theorem execChopperOn_mem (vmot : Nat) (s : State) :
  Res.mem (execChopperOn vmot s) = some s.mem := by
  simp [execChopperOn]

@[simp] theorem execChopperOff_mem (vmot : Nat) (s : State) :
  Res.mem (execChopperOff vmot s) = some s.mem := by
  simp [execChopperOff]

@[simp] theorem State.ladderWrite_mem (s : State) (v : Nat) :
  (State.ladderWrite s v).mem = s.mem := by
  simp [State.ladderWrite]

@[simp] theorem execVmotSwitchOpen_mem (vin : Nat) (vmot : Nat) (s : State) :
  Res.mem (execVmotSwitchOpen vin vmot s) = some s.mem := by
  simp [execVmotSwitchOpen]

@[simp] theorem execVmotSwitchClose_mem (vin : Nat) (vmot : Nat) (s : State) :
  Res.mem (execVmotSwitchClose vin vmot s) = some s.mem := by
  simp [execVmotSwitchClose]

@[simp] theorem execVinHigh_mem (vin : Nat) (s : State) :
  Res.mem (execVinHigh vin s) = some s.mem := by
  simp [execVinHigh]

@[simp] theorem execVinHighRelease_mem (vin : Nat) (s : State) :
  Res.mem (execVinHighRelease vin s) = some s.mem := by
  simp [execVinHighRelease]

@[simp] theorem State.ctlReject_mem (s : State) (a : Nat) (c : Nat) :
  (State.ctlReject s a c).mem = s.mem := by
  simp [State.ctlReject]

@[simp] theorem State.holdOld_mem (s : State) (a : Nat) (F : Field) :
  (State.holdOld s a F).mem = s.mem := by
  simp [State.holdOld]

@[simp] theorem State.learnerWrite_mem (s : State) (a : Nat) (k : Nat) (v : Nat) :
  (State.learnerWrite s a k v).mem = s.mem := by
  simp [State.learnerWrite]

@[simp] theorem State.groupCounts_mem (s : State) (a : Nat) (ph : Nat) (rs : List JobRec) (ev : Int) :
  (State.groupCounts s a ph rs ev).mem = s.mem := by
  simp [State.groupCounts]

@[simp] theorem State.zeroMicro_mem (s : State) (a : Nat) :
  (State.zeroMicro s a).mem = s.mem := by
  simp [State.zeroMicro]

@[simp] theorem execPesClear_mem (act : Fin 4) (s : State) :
  Res.mem (execPesClear act s) = some s.mem := by
  simp [execPesClear]

@[simp] theorem State.seekGo_mem (s : State) (a : Nat) (v : Nat) :
  (State.seekGo s a v).mem = s.mem := by
  simp [State.seekGo]

@[simp] theorem execSeekGo_mem (act : Fin 4) (value : Word) (s : State) :
  Res.mem (execSeekGo act value s) = some s.mem := by
  simp [execSeekGo]

@[simp] theorem State.laneStatusWrite_mem (s : State) (a : Nat) (v : Nat) :
  (State.laneStatusWrite s a v).mem = s.mem := by
  simp [State.laneStatusWrite]

@[simp] theorem State.modSpt_mem (s : State) (g : Spt → Spt) :
  (State.modSpt s g).mem = s.mem := by
  simp [State.modSpt]

@[simp] theorem State.sptReject_mem (s : State) (c : Nat) :
  (State.sptReject s c).mem = s.mem := by
  simp [State.sptReject]

@[simp] theorem State.sptFell_mem (s : State) (old : State) :
  (State.sptFell s old).mem = s.mem := by
  simp [State.sptFell]

@[simp] theorem State.takeWin_mem (s : State) (nsid : Nat) (lba : Nat) (block : Nat) :
  (State.takeWin s nsid lba block).2.mem = s.mem := by
  unfold State.takeWin
  repeat' split
  all_goals simp

@[simp] theorem execVinWarnRelease_mem (vin : Nat) (s : State) :
  Res.mem (execVinWarnRelease vin s) = some s.mem := by
  simp [execVinWarnRelease]

@[simp] theorem State.testStart_mem (s : State) :
  (State.testStart s).mem = s.mem := by
  simp [State.testStart]

@[simp] theorem execVstoreArmed_mem (vstore : Nat) (s : State) :
  Res.mem (execVstoreArmed vstore s) = some s.mem := by
  simp [execVstoreArmed]

@[simp] theorem execSelfTestStart_mem (s : State) :
  Res.mem (execSelfTestStart s) = some s.mem := by
  simp [execSelfTestStart]

@[simp] theorem execSelfTestRetry_mem (s : State) :
  Res.mem (execSelfTestRetry s) = some s.mem := by
  simp [execSelfTestRetry]

@[simp] theorem State.release_mem (s : State) :
  (State.release s).mem = s.mem := by
  simp [State.release]

@[simp] theorem State.retryHeld_mem (s : State) :
  (State.retryHeld s).mem = s.mem := by
  simp [State.retryHeld]

@[simp] theorem State.sptCtl_mem (s : State) (v : Nat) :
  (State.sptCtl s v).mem = s.mem := by
  simp [State.sptCtl]

@[simp] theorem execSptTest_mem (s : State) :
  Res.mem (execSptTest s) = some s.mem := by
  simp [execSptTest]

@[simp] theorem execSptRelease_mem (s : State) :
  Res.mem (execSptRelease s) = some s.mem := by
  simp [execSptRelease]

@[simp] theorem execRetryHeld_mem (s : State) :
  Res.mem (execRetryHeld s) = some s.mem := by
  simp [execRetryHeld]

@[simp] theorem State.saveMeta_mem (s : State) :
  (State.saveMeta s).mem = s.mem := by
  unfold State.saveMeta
  dsimp only
  repeat' (first | (simp; done) | intro _ | split | (simp_all; done))

@[simp] theorem State.saveKeyRecord_mem (s : State) (seq : Nat) :
  (State.saveKeyRecord s seq).mem = s.mem := by
  simp [State.saveKeyRecord]

@[simp] theorem execSaveBegin_mem (s : State) :
  Res.mem (execSaveBegin s) = some s.mem := by
  simp [execSaveBegin]

@[simp] theorem State.saveEnd_mem (s : State) :
  (State.saveEnd s).mem = s.mem := by
  simp [State.saveEnd]

@[simp] theorem execSaveCommit_mem (ms : Nat) (vstore : Nat) (s : State) :
  Res.mem (execSaveCommit ms vstore s) = some s.mem := by
  simp [execSaveCommit]

@[simp] theorem execSaveIncomplete_mem (chunks : Nat) (s : State) :
  Res.mem (execSaveIncomplete chunks s) = some s.mem := by
  simp [execSaveIncomplete]

@[simp] theorem execVholdRestore_mem (s : State) :
  Res.mem (execVholdRestore s) = some s.mem := by
  simp [execVholdRestore]

@[simp] theorem State.modChd_mem (s : State) (g : Chd → Chd) :
  (State.modChd s g).mem = s.mem := by
  simp [State.modChd]

@[simp] theorem State.rosterCheck_mem (s : State) :
  (State.rosterCheck s).mem = s.mem := by
  simp [State.rosterCheck]

@[simp] theorem State.hstEvt_mem (s : State) (p : Nat) (F : Field) :
  (State.hstEvt s p F).mem = s.mem := by
  simp [State.hstEvt]

@[simp] theorem execLinkTrainingDone_mem (port : Fin 2) (rate : Nat) (width : Nat) (flit : Bool) (s : State) :
  Res.mem (execLinkTrainingDone port rate width flit s) = some s.mem := by
  simp [execLinkTrainingDone]

@[simp] theorem execAspmLinkStateChange_mem (port : Fin 2) (lstate : Nat) (s : State) :
  Res.mem (execAspmLinkStateChange port lstate s) = some s.mem := by
  simp [execAspmLinkStateChange]

@[simp] theorem execWakeEvent_mem (port : Fin 2) (s : State) :
  Res.mem (execWakeEvent port s) = some s.mem := by
  simp [execWakeEvent]

@[simp] theorem State.stageWrite_mem (s : State) (i : Nat) (off : Nat) (len : Nat) (v : Nat) :
  (State.stageWrite s i off len v).mem = s.mem := by
  simp [State.stageWrite]

@[simp] theorem State.winRefuse_mem (s : State) (i : Nat) (c : Nat) :
  (State.winRefuse s i c).mem = s.mem := by
  simp [State.winRefuse]

@[simp] theorem State.winCommit_mem (s : State) (source : Nat) (i : Nat) :
  (State.winCommit s source i).mem = s.mem := by
  unfold State.winCommit
  repeat' split
  all_goals simp

@[simp] theorem execHwinCommit_mem (source : Fin 3) (entry : Fin 64) (s : State) :
  Res.mem (execHwinCommit source entry s) = some s.mem := by
  simp [execHwinCommit]

@[simp] theorem execWindowDrainDone_mem (entry : Fin 64) (s : State) :
  Res.mem (execWindowDrainDone entry s) = some s.mem := by
  unfold execWindowDrainDone
  repeat' split
  all_goals simp

@[simp] theorem State.unsupportedReq_mem (s : State) (p : Nat) :
  (State.unsupportedReq s p).mem = s.mem := by
  simp [State.unsupportedReq]

@[simp] theorem State.putAts_mem (s : State) (l : List AtsEntry) :
  (State.putAts s l).mem = s.mem := by
  simp [State.putAts]

@[simp] theorem State.atsPage_mem (s : State) (p : Nat) (page : Nat) (write : Bool) :
  (State.atsPage s p page write).mem = s.mem := by
  unfold State.atsPage
  repeat' split
  all_goals simp

@[simp] theorem State.atsTouch_mem (s : State) (p : Nat) (a : Nat) (n : Nat) (write : Bool) :
  (State.atsTouch s p a n write).mem = s.mem := by
  simp [State.atsTouch]

@[simp] theorem execAtsTranslationCompletion_mem (port : Fin 2) (addr : Nat) (len : Nat) (xlat : Nat) (rd : Bool) (wr : Bool) (s : State) :
  Res.mem (execAtsTranslationCompletion port addr len xlat rd wr s) = some s.mem := by
  unfold execAtsTranslationCompletion
  dsimp only
  repeat' (first | (simp; done) | intro _ | split | (simp_all; done))

@[simp] theorem execAtsInvalidate_mem (port : Fin 2) (addr : Nat) (len : Nat) (tag : Nat) (s : State) :
  Res.mem (execAtsInvalidate port addr len tag s) = some s.mem := by
  simp [execAtsInvalidate]

@[simp] theorem execAtsInvalidateComplete_mem (port : Fin 2) (s : State) :
  Res.mem (execAtsInvalidateComplete port s) = some s.mem := by
  unfold execAtsInvalidateComplete
  dsimp only
  repeat' (first | (simp; done) | intro _ | split | (simp_all; done))

@[simp] theorem State.atsDrop_mem (s : State) (p : Nat) :
  (State.atsDrop s p).mem = s.mem := by
  simp [State.atsDrop]

@[simp] theorem State.msix_mem (s : State) (p : Nat) (v : Nat) :
  (State.msix s p v).mem = s.mem := by
  simp [State.msix]

@[simp] theorem State.msixDrain_mem (s : State) (p : Nat) :
  (State.msixDrain s p).mem = s.mem := by
  simp [State.msixDrain]

@[simp] theorem State.msixWrite_mem (s : State) (p : Nat) (k : Nat) (v : Nat) :
  (State.msixWrite s p k v).mem = s.mem := by
  simp [State.msixWrite]

@[simp] theorem State.hostPieces_mem (s : State) (p : Nat) (data : Nat) (y3 : List (Nat × Nat)) :
  (State.hostPieces s p data y3).mem = s.mem := by
  fun_induction State.hostPieces <;> simp_all

@[simp] theorem State.hostWrite_mem (s : State) (p : Nat) (segs : List (Nat × Nat)) (off : Nat) (n : Nat) (data : Nat) :
  (State.hostWrite s p segs off n data).mem = s.mem := by
  simp [State.hostWrite]

@[simp] theorem State.hostRead_mem (s : State) (p : Nat) (segs : List (Nat × Nat)) (off : Nat) (n : Nat) :
  (State.hostRead s p segs off n).mem = s.mem := by
  simp [State.hostRead]

@[simp] theorem State.putZone_mem (s : State) (n : Nat) (z : Nat) (x : Zone) :
  (State.putZone s n z x).mem = s.mem := by
  simp [State.putZone]

@[simp] theorem State.step8_mem (s : State) (nsid : Nat) (lba : Nat) (n : Nat) :
  (State.step8 s nsid lba n).2.mem = s.mem := by
  unfold State.step8
  repeat' split
  all_goals simp

@[simp] theorem State.admitCmd_mem (s : State) (e : Nat) :
  (State.admitCmd s e).2.mem = s.mem := by
  simp [State.admitCmd]

@[simp] theorem State.complete_mem (s : State) (seq : Nat) (sc : Nat) (info : Nat) (result : Nat) :
  (State.complete s seq sc info result).mem = s.mem := by
  unfold State.complete
  repeat' split
  all_goals simp

@[simp] theorem State.recheck_mem (s : State) (seq : Nat) :
  (State.recheck s seq).mem = s.mem := by
  unfold State.recheck
  repeat' split
  all_goals simp

@[simp] theorem State.settle_mem (s : State) :
  (State.settle s).mem = s.mem := by
  simp [State.settle]

@[simp] theorem State.putPair_mem (s : State) (p : Nat) (q : Nat) (x : Pair) :
  (State.putPair s p q x).mem = s.mem := by
  simp [State.putPair]

@[simp] theorem State.dropBlocks_mem (s : State) (seq : Nat) :
  (State.dropBlocks s seq).mem = s.mem := by
  unfold State.dropBlocks
  simp
  repeat' (first | (simp; done) | intro _ | split | rw [State.each_mem] | (simp_all; done))

@[simp] theorem State.discard_mem (s : State) (which : Cmd → Bool) :
  (State.discard s which).mem = s.mem := by
  simp [State.discard]

@[simp] theorem State.deletePairs_mem (s : State) (p : Nat) (which : Nat → Bool) :
  (State.deletePairs s p which).mem = s.mem := by
  simp [State.deletePairs]

@[simp] theorem State.portReset_mem (s : State) (p : Nat) :
  (State.portReset s p).mem = s.mem := by
  simp [State.portReset]

@[simp] theorem execFlrDone_mem (port : Fin 2) (s : State) :
  Res.mem (execFlrDone port s) = some s.mem := by
  simp [execFlrDone]

@[simp] theorem State.linkDown_mem (s : State) (p : Nat) :
  (State.linkDown s p).mem = s.mem := by
  simp [State.linkDown]

@[simp] theorem execLinkDown_mem (port : Fin 2) (s : State) :
  Res.mem (execLinkDown port s) = some s.mem := by
  simp [execLinkDown]

@[simp] theorem execPerstAssert_mem (p : Fin 2) (s : State) :
  Res.mem (execPerstAssert p s) = some s.mem := by
  simp [execPerstAssert]

@[simp] theorem execPerstDeassert_mem (p : Fin 2) (s : State) :
  Res.mem (execPerstDeassert p s) = some s.mem := by
  simp [execPerstDeassert]

@[simp] theorem execBmeReadsDrained_mem (port : Fin 2) (s : State) :
  Res.mem (execBmeReadsDrained port s) = some s.mem := by
  simp [execBmeReadsDrained]

@[simp] theorem State.resume_mem (s : State) (p : Nat) :
  (State.resume s p).mem = s.mem := by
  simp [State.resume]

@[simp] theorem execHctlResume_mem (port : Fin 2) (s : State) :
  Res.mem (execHctlResume port s) = some s.mem := by
  simp [execHctlResume]

@[simp] theorem State.cfgWrite_mem (s : State) (p : Nat) (cfg : PortCfg) :
  (State.cfgWrite s p cfg).mem = s.mem := by
  simp [State.cfgWrite]

@[simp] theorem execDstateWrite_mem (port : Fin 2) (cfg : PortCfg) (s : State) :
  Res.mem (execDstateWrite port cfg s) = some s.mem := by
  simp [execDstateWrite]

@[simp] theorem State.setupWrite_mem (s : State) (p : Nat) (off : Nat) (len : Nat) (v : Nat) :
  (State.setupWrite s p off len v).mem = s.mem := by
  simp [State.setupWrite]

@[simp] theorem execAdminSetupWrite_mem (port : Fin 2) (off : Nat) (len : Nat) (data : Nat) (s : State) :
  Res.mem (execAdminSetupWrite port off len data s) = some s.mem := by
  simp [execAdminSetupWrite]

@[simp] theorem State.enable_mem (s : State) (p : Nat) :
  (State.enable s p).mem = s.mem := by
  simp [State.enable]

@[simp] theorem execControllerEnable_mem (port : Fin 2) (s : State) :
  Res.mem (execControllerEnable port s) = some s.mem := by
  simp [execControllerEnable]

@[simp] theorem State.disable_mem (s : State) (p : Nat) :
  (State.disable s p).mem = s.mem := by
  simp [State.disable]

@[simp] theorem execControllerDisable_mem (port : Fin 2) (s : State) :
  Res.mem (execControllerDisable port s) = some s.mem := by
  simp [execControllerDisable]

@[simp] theorem State.hctl_mem (s : State) (p : Nat) (v : Nat) :
  (State.hctl s p v).mem = s.mem := by
  simp [State.hctl]

@[simp] theorem State.bar0WriteWord_mem (s : State) (p : Nat) (off : Nat) (v : Nat) :
  (State.bar0WriteWord s p off v).mem = s.mem := by
  simp [State.bar0WriteWord]

@[simp] theorem State.putCmd_mem (s : State) (seq : Nat) (k : Cmd) :
  (State.putCmd s seq k).mem = s.mem := by
  simp [State.putCmd]

@[simp] theorem State.take_mem (s : State) (seq : Nat) (p : Nat) (q : Nat) (sqhd : Nat) (e : Nat) (list : Option (List (Nat × Nat))) :
  (State.take s seq p q sqhd e list).mem = s.mem := by
  simp [State.take]

@[simp] theorem execCommandFetch_mem (port : Fin 2) (entry : Nat) (list : Option (List (Nat × Nat))) (s : State) :
  Res.mem (execCommandFetch port entry list s) = some s.mem := by
  unfold execCommandFetch
  dsimp only
  repeat' (first | (simp; done) | intro _ | split | rw [State.when_mem] | (simp_all; done))

@[simp] theorem execCompletionPost_mem (seq : Nat) (s : State) :
  Res.mem (execCompletionPost seq s) = some s.mem := by
  unfold execCompletionPost
  repeat' split
  all_goals simp

@[simp] theorem State.markPending_mem (s : State) (nsid : Nat) (lba : Nat) :
  (State.markPending s nsid lba).mem = s.mem := by
  simp [State.markPending]

@[simp] theorem State.placeBlock_mem (s : State) (seq : Nat) (nsid : Nat) (lba : Nat) (mode : Nat) (addr : Nat) (block : Nat) :
  (State.placeBlock s seq nsid lba mode addr block).mem = s.mem := by
  simp [State.placeBlock]

@[simp] theorem State.commitBlocks_mem (s : State) (seq : Nat) :
  (State.commitBlocks s seq).mem = s.mem := by
  simp [State.commitBlocks]

@[simp] theorem State.zoneFail_mem (s : State) (nsid : Nat) (lba : Nat) (c : Nat) :
  (State.zoneFail s nsid lba c).mem = s.mem := by
  simp [State.zoneFail]

@[simp] theorem execWriteAck_mem (seq : Nat) (s : State) :
  Res.mem (execWriteAck seq s) = some s.mem := by
  unfold execWriteAck
  dsimp only
  repeat' (first | (simp; done) | intro _ | split | rw [State.each_mem] | (simp_all; done))

@[simp] theorem execFlush_mem (seq : Nat) (s : State) :
  Res.mem (execFlush seq s) = some s.mem := by
  unfold execFlush
  repeat' split
  all_goals simp

@[simp] theorem execFlushComplete_mem (seq : Nat) (s : State) :
  Res.mem (execFlushComplete seq s) = some s.mem := by
  unfold execFlushComplete
  repeat' split
  all_goals simp

@[simp] theorem State.unwrite_mem (s : State) (seq : Nat) (x : Span) :
  (State.unwrite s seq x).mem = s.mem := by
  unfold State.unwrite
  simp
  repeat' (first | (simp; done) | intro _ | split | rw [State.each_mem] | (simp_all; done))

@[simp] theorem execZoneReset_mem (seq : Nat) (s : State) :
  Res.mem (execZoneReset seq s) = some s.mem := by
  unfold execZoneReset
  repeat' split
  all_goals simp

@[simp] theorem execZoneFinish_mem (seq : Nat) (s : State) :
  Res.mem (execZoneFinish seq s) = some s.mem := by
  unfold execZoneFinish
  repeat' split
  all_goals simp

@[simp] theorem execZoneReport_mem (seq : Nat) (s : State) :
  Res.mem (execZoneReport seq s) = some s.mem := by
  unfold execZoneReport
  repeat' split
  all_goals simp

@[simp] theorem execCreateQp_mem (seq : Nat) (s : State) :
  Res.mem (execCreateQp seq s) = some s.mem := by
  unfold execCreateQp
  repeat' split
  all_goals simp

@[simp] theorem execDeleteQp_mem (seq : Nat) (s : State) :
  Res.mem (execDeleteQp seq s) = some s.mem := by
  unfold execDeleteQp
  repeat' split
  all_goals simp

@[simp] theorem execAbort_mem (seq : Nat) (s : State) :
  Res.mem (execAbort seq s) = some s.mem := by
  unfold execAbort
  dsimp only
  repeat' (first | (simp; done) | intro _ | split | (simp_all; done))

@[simp] theorem execEventWait_mem (seq : Nat) (s : State) :
  Res.mem (execEventWait seq s) = some s.mem := by
  unfold execEventWait
  repeat' split
  all_goals simp

@[simp] theorem State.reply_mem (s : State) (seq : Nat) (k : Cmd) (n : Nat) (data : Nat) :
  (State.reply s seq k n data).mem = s.mem := by
  simp [State.reply]

@[simp] theorem execIdentifyController_mem (seq : Nat) (s : State) :
  Res.mem (execIdentifyController seq s) = some s.mem := by
  unfold execIdentifyController
  repeat' split
  all_goals simp

@[simp] theorem execIdentifyNamespace_mem (seq : Nat) (s : State) :
  Res.mem (execIdentifyNamespace seq s) = some s.mem := by
  unfold execIdentifyNamespace
  repeat' split
  all_goals simp

@[simp] theorem State.getLog_mem (s : State) (seq : Nat) (lid : Nat) (clear : State → Cmd → State) (h0 : ∀ s0 x1, (clear s0 x1).mem = s0.mem) :
  (State.getLog s seq lid clear).mem = s.mem := by
  unfold State.getLog
  dsimp only
  repeat' (first | (simp; done) | intro _ | split | rw [State.when_mem] | rw [State.getLog_mem] | (simp_all; done))

@[simp] theorem execGetLogHealth_mem (seq : Nat) (s : State) :
  Res.mem (execGetLogHealth seq s) = some s.mem := by
  simp [execGetLogHealth]

@[simp] theorem execGetLogFwSlots_mem (seq : Nat) (s : State) :
  Res.mem (execGetLogFwSlots seq s) = some s.mem := by
  simp [execGetLogFwSlots]

@[simp] theorem State.clearDel_mem (s : State) (k : Cmd) :
  (State.clearDel s k).mem = s.mem := by
  simp [State.clearDel]

@[simp] theorem execGetLogDeferredErrors_mem (seq : Nat) (s : State) :
  Res.mem (execGetLogDeferredErrors seq s) = some s.mem := by
  simp [execGetLogDeferredErrors]

@[simp] theorem State.clearEvents_mem (s : State) (k : Cmd) :
  (State.clearEvents s k).mem = s.mem := by
  unfold State.clearEvents
  repeat' split
  all_goals simp

@[simp] theorem execGetLogEventRecords_mem (seq : Nat) (s : State) :
  Res.mem (execGetLogEventRecords seq s) = some s.mem := by
  simp [execGetLogEventRecords]

@[simp] theorem execSetFeature_mem (seq : Nat) (s : State) :
  Res.mem (execSetFeature seq s) = some s.mem := by
  unfold execSetFeature
  repeat' split
  all_goals simp

@[simp] theorem execGetFeature_mem (seq : Nat) (s : State) :
  Res.mem (execGetFeature seq s) = some s.mem := by
  unfold execGetFeature
  repeat' split
  all_goals simp

@[simp] theorem State.modAdm_mem (s : State) (g : Admin → Admin) :
  (State.modAdm s g).mem = s.mem := by
  simp [State.modAdm]

@[simp] theorem State.modBoot_mem (s : State) (g : BootRec → BootRec) :
  (State.modBoot s g).mem = s.mem := by
  simp [State.modBoot]

@[simp] theorem execFwDownload_mem (seq : Nat) (units : Option (List Nat)) (s : State) :
  Res.mem (execFwDownload seq units s) = some s.mem := by
  unfold execFwDownload
  repeat' split
  all_goals simp

@[simp] theorem State.fwCommit_mem (s : State) (seq : Nat) (a : Nat) (sigs : PkgCheck) :
  (State.fwCommit s seq a sigs).mem = s.mem := by
  unfold State.fwCommit
  repeat' split
  all_goals simp

@[simp] theorem execFwCommitCancel_mem (seq : Nat) (s : State) :
  Res.mem (execFwCommitCancel seq s) = some s.mem := by
  unfold execFwCommitCancel
  repeat' split
  all_goals simp

@[simp] theorem execFwCommitPending_mem (seq : Nat) (sigs : PkgCheck) (s : State) :
  Res.mem (execFwCommitPending seq sigs s) = some s.mem := by
  simp [execFwCommitPending]

@[simp] theorem execFwCommitReset_mem (seq : Nat) (sigs : PkgCheck) (s : State) :
  Res.mem (execFwCommitReset seq sigs s) = some s.mem := by
  simp [execFwCommitReset]

@[simp] theorem execTrialTimeout_mem (s : State) :
  Res.mem (execTrialTimeout s) = some s.mem := by
  simp [execTrialTimeout]

@[simp] theorem State.secBoot_mem (s : State) (v : Nat) :
  (State.secBoot s v).mem = s.mem := by
  simp [State.secBoot]

@[simp] theorem execBootConfirm_mem (value : Word) (s : State) :
  Res.mem (execBootConfirm value s) = some s.mem := by
  simp [execBootConfirm]

@[simp] theorem execTempWarn_mem (tj : Nat) (s : State) :
  Res.mem (execTempWarn tj s) = some s.mem := by
  simp [execTempWarn]

@[simp] theorem execTempWarnRearm_mem (tj : Nat) (s : State) :
  Res.mem (execTempWarnRearm tj s) = some s.mem := by
  simp [execTempWarnRearm]

@[simp] theorem execSmbusStatusRead_mem (s : State) :
  Res.mem (execSmbusStatusRead s) = some s.mem := by
  simp [execSmbusStatusRead]

@[simp] theorem execSmbusAddressWrite_mem (addr : Word) (pecOk : Bool) (s : State) :
  Res.mem (execSmbusAddressWrite addr pecOk s) = some s.mem := by
  simp [execSmbusAddressWrite]

@[simp] theorem execSmbusBusTimeout_mem (s : State) :
  Res.mem (execSmbusBusTimeout s) = some s.mem := by
  simp [execSmbusBusTimeout]

@[simp] theorem State.modSec_mem (s : State) (g : Sec → Sec) :
  (State.modSec s g).mem = s.mem := by
  simp [State.modSec]

@[simp] theorem State.generated_mem (s : State) :
  (State.generated s).mem = s.mem := by
  simp [State.generated]

@[simp] theorem execDrbgReseed_mem (s : State) :
  Res.mem (execDrbgReseed s) = some s.mem := by
  simp [execDrbgReseed]

@[simp] theorem State.extend_mem (s : State) (i : Nat) (len : Nat) (v : Nat) :
  (State.extend s i len v).mem = s.mem := by
  simp [State.extend]

@[simp] theorem State.extendM3_mem (s : State) :
  (State.extendM3 s).mem = s.mem := by
  simp [State.extendM3]

@[simp] theorem State.secEnd_mem (s : State) (seq : Nat) (sc : Nat) (reason : Nat) (len : Nat) (data : Nat) :
  (State.secEnd s seq sc reason len data).mem = s.mem := by
  simp [State.secEnd]

@[simp] theorem State.secRefuse_mem (s : State) (seq : Nat) (r : Nat) :
  (State.secRefuse s seq r).mem = s.mem := by
  simp [State.secRefuse]

@[simp] theorem State.secReply_mem (s : State) (seq : Nat) (k : Cmd) (n : Nat) (data : Nat) :
  (State.secReply s seq k n data).mem = s.mem := by
  simp [State.secReply]

@[simp] theorem State.secInfo_mem (s : State) (seq : Nat) (i : Nat) (size : Nat) (data : Nat) :
  (State.secInfo s seq i size data).mem = s.mem := by
  unfold State.secInfo
  repeat' split
  all_goals simp

@[simp] theorem execSecInfoDeviceNonce_mem (seq : Nat) (s : State) :
  Res.mem (execSecInfoDeviceNonce seq s) = some s.mem := by
  simp [execSecInfoDeviceNonce]

@[simp] theorem execSecInfoEnvelopeKeys_mem (seq : Nat) (s : State) :
  Res.mem (execSecInfoEnvelopeKeys seq s) = some s.mem := by
  simp [execSecInfoEnvelopeKeys]

@[simp] theorem execSecInfoCertChains_mem (seq : Nat) (s : State) :
  Res.mem (execSecInfoCertChains seq s) = some s.mem := by
  simp [execSecInfoCertChains]

@[simp] theorem execSecInfoRangeTable_mem (seq : Nat) (s : State) :
  Res.mem (execSecInfoRangeTable seq s) = some s.mem := by
  simp [execSecInfoRangeTable]

@[simp] theorem execSecInfoDebugNonce_mem (seq : Nat) (s : State) :
  Res.mem (execSecInfoDebugNonce seq s) = some s.mem := by
  simp [execSecInfoDebugNonce]

@[simp] theorem execAttest_mem (seq : Nat) (s : State) :
  Res.mem (execAttest seq s) = some s.mem := by
  unfold execAttest
  repeat' split
  all_goals simp

@[simp] theorem execGetRandom_mem (seq : Nat) (s : State) :
  Res.mem (execGetRandom seq s) = some s.mem := by
  unfold execGetRandom
  repeat' split
  all_goals simp

@[simp] theorem State.envCount_mem (s : State) (c : Nat) :
  (State.envCount s c).mem = s.mem := by
  simp [State.envCount]

@[simp] theorem State.newNonce_mem (s : State) :
  (State.newNonce s).mem = s.mem := by
  simp [State.newNonce]

@[simp] theorem State.withEnvelope_mem (s : State) (seq : Nat) (opc : Nat) (op : Nat) (env : Option EnvRes) (ready : State → Cmd → Bool) (act : State → Cmd → EnvRes → Nat × State) (h0 : ∀ s0 x1 x2, (act s0 x1 x2).2.mem = s0.mem) :
  (State.withEnvelope s seq opc op env ready act).mem = s.mem := by
  unfold State.withEnvelope
  dsimp only
  repeat' (first | (simp; done) | intro _ | split | rw [State.withEnvelope_mem] | (simp_all; done))

@[simp] theorem State.eraseData_mem (s : State) (p : Nat → Nat → Bool) :
  (State.eraseData s p).mem = s.mem := by
  simp [State.eraseData]

@[simp] theorem State.rekey_mem (s : State) (r : Nat) :
  (State.rekey s r).mem = s.mem := by
  simp [State.rekey]

@[simp] theorem State.eraseAll_mem (s : State) :
  (State.eraseAll s).mem = s.mem := by
  simp [State.eraseAll]

@[simp] theorem State.owner_mem (s : State) (seq : Nat) (op : Nat) (env : Option EnvRes) (act : State → Cmd → EnvRes → Nat × State) (h0 : ∀ s0 x1 x2, (act s0 x1 x2).2.mem = s0.mem) :
  (State.owner s seq op env act).mem = s.mem := by
  unfold State.owner
  rw [State.withEnvelope_mem]; exact h0

@[simp] theorem whenOwned_mem (g : State → Cmd → EnvRes → Nat × State) (s : State) (k : Cmd) (e : EnvRes) (h0 : ∀ s0 x1 x2, (g s0 x1 x2).2.mem = s0.mem) :
  (whenOwned g s k e).2.mem = s.mem := by
  unfold whenOwned
  simp
  repeat' (first | (simp; done) | intro _ | split | rw [State.when_mem] | rw [whenOwned_mem] | (simp_all; done))

@[simp] theorem State.setCred_mem (s : State) (c : Nat) :
  (State.setCred s c).mem = s.mem := by
  simp [State.setCred]

@[simp] theorem execSecOwnerTake_mem (seq : Nat) (env : Option EnvRes) (s : State) :
  Res.mem (execSecOwnerTake seq env s) = some s.mem := by
  simp [execSecOwnerTake]

@[simp] theorem execSecOwnerChange_mem (seq : Nat) (env : Option EnvRes) (s : State) :
  Res.mem (execSecOwnerChange seq env s) = some s.mem := by
  simp [execSecOwnerChange]

@[simp] theorem State.putLock_mem (s : State) (b : Bool) :
  (State.putLock s b).mem = s.mem := by
  simp [State.putLock]

@[simp] theorem execSecOwnerSetLock_mem (seq : Nat) (env : Option EnvRes) (s : State) :
  Res.mem (execSecOwnerSetLock seq env s) = some s.mem := by
  simp [execSecOwnerSetLock]

@[simp] theorem execSecOwnerClearLock_mem (seq : Nat) (env : Option EnvRes) (s : State) :
  Res.mem (execSecOwnerClearLock seq env s) = some s.mem := by
  simp [execSecOwnerClearLock]

@[simp] theorem State.disown_mem (s : State) :
  (State.disown s).mem = s.mem := by
  simp [State.disown]

@[simp] theorem execSecOwnerRevert_mem (seq : Nat) (env : Option EnvRes) (s : State) :
  Res.mem (execSecOwnerRevert seq env s) = some s.mem := by
  simp [execSecOwnerRevert]

@[simp] theorem execSecOwnerRaiseSvn_mem (seq : Nat) (env : Option EnvRes) (s : State) :
  Res.mem (execSecOwnerRaiseSvn seq env s) = some s.mem := by
  simp [execSecOwnerRaiseSvn]

@[simp] theorem execSecOwnerSetRoster_mem (seq : Nat) (env : Option EnvRes) (roster : List Nat) (s : State) :
  Res.mem (execSecOwnerSetRoster seq env roster s) = some s.mem := by
  simp [execSecOwnerSetRoster]

@[simp] theorem State.rangeCmd_mem (s : State) (seq : Nat) (op : Nat) (env : Option EnvRes) (hits : State → Nat → Span → Bool) (act : State → Nat → Nat × State) (h0 : ∀ s0 x1, (act s0 x1).2.mem = s0.mem) :
  (State.rangeCmd s seq op env hits act).mem = s.mem := by
  unfold State.rangeCmd
  rw [State.withEnvelope_mem]
  intros; rw [whenOwned_mem]; intros; exact h0 _ _

@[simp] theorem execSecRangeDefine_mem (seq : Nat) (env : Option EnvRes) (s : State) :
  Res.mem (execSecRangeDefine seq env s) = some s.mem := by
  simp [execSecRangeDefine]

@[simp] theorem execSecRangeDelete_mem (seq : Nat) (env : Option EnvRes) (s : State) :
  Res.mem (execSecRangeDelete seq env s) = some s.mem := by
  simp [execSecRangeDelete]

@[simp] theorem execSecRangeLock_mem (seq : Nat) (env : Option EnvRes) (s : State) :
  Res.mem (execSecRangeLock seq env s) = some s.mem := by
  simp [execSecRangeLock]

@[simp] theorem execSecRangeUnlock_mem (seq : Nat) (env : Option EnvRes) (s : State) :
  Res.mem (execSecRangeUnlock seq env s) = some s.mem := by
  simp [execSecRangeUnlock]

@[simp] theorem execSecRangeErase_mem (seq : Nat) (env : Option EnvRes) (s : State) :
  Res.mem (execSecRangeErase seq env s) = some s.mem := by
  simp [execSecRangeErase]

@[simp] theorem execMkDiscard_mem (range : Fin 64) (s : State) :
  Res.mem (execMkDiscard range s) = some s.mem := by
  unfold execMkDiscard
  dsimp only
  repeat' (first | (simp; done) | intro _ | split | (simp_all; done))

@[simp] theorem State.newDbgNonce_mem (s : State) :
  (State.newDbgNonce s).mem = s.mem := by
  simp [State.newDbgNonce]

@[simp] theorem State.lockAll_mem (s : State) :
  (State.lockAll s).mem = s.mem := by
  simp [State.lockAll]

@[simp] theorem State.token_mem (s : State) (t : Nat) (g : TokCheck) (seq : Option Nat) :
  (State.token s t g seq).2.mem = s.mem := by
  simp [State.token]

@[simp] theorem execSecDebug_mem (seq : Nat) (token : Option Nat) (sigs : TokCheck) (s : State) :
  Res.mem (execSecDebug seq token sigs s) = some s.mem := by
  unfold execSecDebug
  repeat' split
  all_goals simp

@[simp] theorem execDbgTokenDataWrite_mem (value : Word) (s : State) :
  Res.mem (execDbgTokenDataWrite value s) = some s.mem := by
  simp [execDbgTokenDataWrite]

@[simp] theorem execDbgTokenGo_mem (sigs : TokCheck) (s : State) :
  Res.mem (execDbgTokenGo sigs s) = some s.mem := by
  simp [execDbgTokenGo]

@[simp] theorem execSecRequest_mem (s : State) :
  Res.mem (execSecRequest s) = some s.mem := by
  simp [execSecRequest]

@[simp] theorem State.modRing_mem (s : State) (g : Ring → Ring) :
  (State.modRing s g).mem = s.mem := by
  simp [State.modRing]

@[simp] theorem State.ringEvt_mem (s : State) (F : Field) :
  (State.ringEvt s F).mem = s.mem := by
  simp [State.ringEvt]

@[simp] theorem State.modRport_mem (s : State) (p : Nat) (g : RPort → RPort) :
  (State.modRport s p g).mem = s.mem := by
  simp [State.modRport]

@[simp] theorem State.pump_mem (s : State) (p : Nat) (y2 : Nat) :
  (State.pump s p y2).mem = s.mem := by
  induction y2 generalizing s with
  | zero => rfl
  | succ n ih => unfold State.pump; simp only []; repeat' split
                 all_goals simp [ih]
                 all_goals (split <;> simp)

@[simp] theorem State.drain_mem (s : State) (p : Nat) :
  (State.drain s p).mem = s.mem := by
  simp [State.drain]

@[simp] theorem State.queueOn_mem (s : State) (p : Nat) (cls : Nat) (flits : Nat) (o : Out) :
  (State.queueOn s p cls flits o).mem = s.mem := by
  simp [State.queueOn]

@[simp] theorem State.tell_mem (s : State) (type : Nat) (dst : Nat) (cls : Nat) (number : Nat) (waddr : Nat) (len : Nat) (payload : Nat) :
  (State.tell s type dst cls number waddr len payload).mem = s.mem := by
  simp [State.tell]

@[simp] theorem State.tellAll_mem (s : State) (type : Nat) (len : Nat) (payload : Nat) :
  (State.tellAll s type len payload).mem = s.mem := by
  simp [State.tellAll]

@[simp] theorem State.frameFail_mem (s : State) (number : Nat) (r : RReq) :
  (State.frameFail s number r).mem = s.mem := by
  simp [State.frameFail]

@[simp] theorem State.agree_mem (s : State) (peer : Nat) :
  (State.agree s peer).mem = s.mem := by
  simp [State.agree]

@[simp] theorem State.useKey_mem (s : State) (dst : Nat) (n : Nat) :
  (State.useKey s dst n).mem = s.mem := by
  unfold State.useKey
  repeat' split
  all_goals simp

@[simp] theorem State.frameOut_mem (s : State) (number : Nat) (f : RFrame) :
  (State.frameOut s number f).mem = s.mem := by
  simp [State.frameOut]

@[simp] theorem State.ringSend_mem (s : State) (type : Nat) (dst : Nat) (cls : Nat) (waddr : Nat) (flen : Nat) (payload : Nat) (req : RReq) :
  (State.ringSend s type dst cls waddr flen payload req).mem = s.mem := by
  simp [State.ringSend]

@[simp] theorem State.reply1_mem (s : State) (type : Nat) (dst : Nat) (number : Nat) (waddr : Nat) (len : Nat) (payload : Nat) :
  (State.reply1 s type dst number waddr len payload).mem = s.mem := by
  simp [State.reply1]

@[simp] theorem State.splice_mem (s : State) :
  (State.splice s).mem = s.mem := by
  simp [State.splice]

@[simp] theorem State.ringCtl_mem (s : State) (v : Nat) :
  (State.ringCtl s v).mem = s.mem := by
  simp [State.ringCtl]

@[simp] theorem execRingLeave_mem (s : State) :
  Res.mem (execRingLeave s) = some s.mem := by
  simp [execRingLeave]

@[simp] theorem execSegmentSignalLoss_mem (east : Bool) (s : State) :
  Res.mem (execSegmentSignalLoss east s) = some s.mem := by
  simp [execSegmentSignalLoss]

@[simp] theorem execSegmentRetrainTimeout_mem (east : Bool) (s : State) :
  Res.mem (execSegmentRetrainTimeout east s) = some s.mem := by
  simp [execSegmentRetrainTimeout]

@[simp] theorem State.sendJoin_mem (s : State) :
  (State.sendJoin s).mem = s.mem := by
  unfold State.sendJoin
  repeat' split
  all_goals simp

@[simp] theorem execSegmentTrained_mem (east : Bool) (bypassed : Nat) (s : State) :
  Res.mem (execSegmentTrained east bypassed s) = some s.mem := by
  simp [execSegmentTrained]

@[simp] theorem execSpliceRetry_mem (s : State) :
  Res.mem (execSpliceRetry s) = some s.mem := by
  simp [execSpliceRetry]

@[simp] theorem State.takeFlit_mem (s : State) (tag : Nat) (f : Nat) :
  (State.takeFlit s tag f).mem = s.mem := by
  unfold State.takeFlit
  repeat' split
  all_goals simp

@[simp] theorem State.freeSlot_mem (s : State) (p : Nat) :
  (State.freeSlot s p).mem = s.mem := by
  simp [State.freeSlot]

@[simp] theorem State.forward_mem (s : State) (p : Nat) (f : Nat) :
  (State.forward s p f).mem = s.mem := by
  simp [State.forward]

@[simp] theorem execFlitReceive_mem (east : Bool) (fec : Fin 3) (tag : Fin 3) (flit : Nat) (s : State) :
  Res.mem (execFlitReceive east fec tag flit s) = some s.mem := by
  simp [execFlitReceive]

@[simp] theorem execLinkFlit_mem (east : Bool) (credits : Nat) (member : Fin 32) (is2208 : Bool) (s : State) :
  Res.mem (execLinkFlit east credits member is2208 s) = some s.mem := by
  simp [execLinkFlit]

@[simp] theorem execCreditReturn_mem (east : Bool) (s : State) :
  Res.mem (execCreditReturn east s) = some s.mem := by
  simp [execCreditReturn]

@[simp] theorem execRingSession_mem (peer : Fin 32) (chainsOk : Bool) (idk : Nat) (s : State) :
  Res.mem (execRingSession peer chainsOk idk s) = some s.mem := by
  simp [execRingSession]

@[simp] theorem execSessionRekey_mem (peer : Fin 32) (hours : Nat) (s : State) :
  Res.mem (execSessionRekey peer hours s) = some s.mem := by
  unfold execSessionRekey
  repeat' split
  all_goals simp

@[simp] theorem execOldKeyExpiry_mem (peer : Fin 32) (s : State) :
  Res.mem (execOldKeyExpiry peer s) = some s.mem := by
  unfold execOldKeyExpiry
  repeat' split
  all_goals simp

@[simp] theorem execKeyLimitStop_mem (peer : Fin 32) (hours : Nat) (s : State) :
  Res.mem (execKeyLimitStop peer hours s) = some s.mem := by
  unfold execKeyLimitStop
  repeat' split
  all_goals simp

@[simp] theorem State.nack_mem (s : State) (dst : Nat) (number : Nat) (code : Nat) :
  (State.nack s dst number code).mem = s.mem := by
  simp [State.nack]

@[simp] theorem State.handRequest_mem (s : State) (a : Nat) (n : Nat) :
  (State.handRequest s a n).mem = s.mem := by
  simp [State.handRequest]

@[simp] theorem execRingReadResp_mem (src : Fin 32) (number : Nat) (data : Nat) (s : State) :
  Res.mem (execRingReadResp src number data s) = some s.mem := by
  unfold execRingReadResp
  repeat' split
  all_goals simp

@[simp] theorem State.retryOrFail_mem (s : State) (number : Nat) (f : RFrame) (timeout : Bool) :
  (State.retryOrFail s number f timeout).mem = s.mem := by
  simp [State.retryOrFail]

@[simp] theorem State.putJnl_mem (s : State) (i : Nat) (v : Nat) :
  (State.putJnl s i v).mem = s.mem := by
  simp [State.putJnl]

@[simp] theorem State.putReq_mem (s : State) (id : Nat) (r : StripReq) :
  (State.putReq s id r).mem = s.mem := by
  simp [State.putReq]

@[simp] theorem State.sendCell_mem (s : State) (id : Nat) (r : StripReq) (p : Nat × Nat) :
  (State.sendCell s id r p).mem = s.mem := by
  simp [State.sendCell]

@[simp] theorem State.startReq_mem (s : State) (id : Nat) (r : StripReq) :
  (State.startReq s id r).mem = s.mem := by
  unfold State.startReq
  repeat' split
  all_goals simp

@[simp] theorem State.startWaiting_mem (s : State) :
  (State.startWaiting s).mem = s.mem := by
  simp [State.startWaiting]

@[simp] theorem State.newReq_mem (s : State) (r : StripReq) :
  (State.newReq s r).2.mem = s.mem := by
  simp [State.newReq]

@[simp] theorem State.reqRun_mem (s : State) (r : StripReq) :
  (State.reqRun s r).2.mem = s.mem := by
  simp [State.reqRun]

@[simp] theorem State.clearLost_mem (s : State) (slot : Nat) (chord : Nat) (b : Nat) (strip : Nat) :
  (State.clearLost s slot chord b strip).mem = s.mem := by
  simp [State.clearLost]

@[simp] theorem State.putOp_mem (s : State) (jid : Nat) (o : ChordOp) :
  (State.putOp s jid o).mem = s.mem := by
  simp [State.putOp]

@[simp] theorem State.await_mem (s : State) (jid : Nat) (ids : List Nat) :
  (State.await s jid ids).mem = s.mem := by
  unfold State.await
  repeat' split
  all_goals simp

@[simp] theorem State.askRun_mem (s : State) (jid : Nat) (o : ChordOp) (holder : Nat) (op : Nat) (strip : Nat) (coef' : Nat) (blocks : List Nat) :
  (State.askRun s jid o holder op strip coef' blocks).mem = s.mem := by
  simp [State.askRun]

@[simp] theorem State.mendParity_mem (s : State) (jid : Nat) (o : ChordOp) (l : Layout) :
  (State.mendParity s jid o l).mem = s.mem := by
  simp [State.mendParity]

@[simp] theorem State.closeOp_mem (s : State) (jid : Nat) (o : ChordOp) :
  (State.closeOp s jid o).mem = s.mem := by
  unfold State.closeOp
  dsimp only
  repeat' (first | (simp; done) | intro _ | split | rw [State.each_mem] | (simp_all; done))

@[simp] theorem State.framesDone_mem (s : State) (id : Nat) :
  (State.framesDone s id).mem = s.mem := by
  unfold State.framesDone
  repeat' split
  all_goals simp

@[simp] theorem State.putStrip_mem (s : State) (lba : Nat) (v : Nat) :
  (State.putStrip s lba v).mem = s.mem := by
  simp [State.putStrip]

@[simp] theorem State.stripDo_mem (s : State) (op : Nat) (slot : Nat) (chord : Nat) (first : Nat) (count : Nat) (jid : Nat) (c : Nat) (fail : Nat) (data : List (Option Nat)) :
  (State.stripDo s op slot chord first count jid c fail data).2.2.mem = s.mem := by
  unfold State.stripDo
  repeat' split
  all_goals simp

@[simp] theorem State.sendDone_mem (s : State) (src : Nat) (e : Nat) (status : Nat) (mask : Nat) (blocks : List Nat) :
  (State.sendDone s src e status mask blocks).mem = s.mem := by
  simp [State.sendDone]

@[simp] theorem State.writeStrip_mem (s : State) (l : Layout) (slot : Nat) (chord : Nat) (t : Nat) (holder : Nat) (first : Nat) (jid : Nat) (cls : Nat) (blocks : List Nat) :
  (State.writeStrip s l slot chord t holder first jid cls blocks).mem = s.mem := by
  simp [State.writeStrip]

@[simp] theorem State.putRebuild_mem (s : State) :
  (State.putRebuild s).mem = s.mem := by
  simp [State.putRebuild]

@[simp] theorem State.startScans_mem (s : State) (before : SMap (List Nat)) :
  (State.startScans s before).mem = s.mem := by
  simp [State.startScans]

@[simp] theorem State.appendFail_mem (s : State) (m : Nat) :
  (State.appendFail s m).mem = s.mem := by
  simp [State.appendFail]

@[simp] theorem State.adopt_mem (s : State) (m : Nat) :
  (State.adopt s m).mem = s.mem := by
  simp [State.adopt]

@[simp] theorem State.adoptEnd_mem (s : State) :
  (State.adoptEnd s).mem = s.mem := by
  unfold State.adoptEnd
  repeat' split
  all_goals simp

@[simp] theorem State.resendRecords_mem (s : State) (p : Nat) :
  (State.resendRecords s p).mem = s.mem := by
  simp [State.resendRecords]

@[simp] theorem State.chordMap_mem (s : State) (old : Option Nat) (new : Option Nat) :
  (State.chordMap s old new).mem = s.mem := by
  simp [State.chordMap]

@[simp] theorem State.swapSlot_mem (s : State) (slot : Nat) :
  (State.swapSlot s slot).mem = s.mem := by
  simp [State.swapSlot]

@[simp] theorem State.layoutCommit_mem (s : State) (slot : Nat) :
  (State.layoutCommit s slot).mem = s.mem := by
  simp [State.layoutCommit]

@[simp] theorem State.reshapeGo_mem (s : State) :
  (State.reshapeGo s).mem = s.mem := by
  simp [State.reshapeGo]

@[simp] theorem State.reshapeSwitch_mem (s : State) :
  (State.reshapeSwitch s).mem = s.mem := by
  unfold State.reshapeSwitch
  repeat' split
  all_goals simp

@[simp] theorem State.chdCtl_mem (s : State) (v : Nat) :
  (State.chdCtl s v).mem = s.mem := by
  simp [State.chdCtl]

@[simp] theorem execLayoutCommit_mem (value : Word) (s : State) :
  Res.mem (execLayoutCommit value s) = some s.mem := by
  simp [execLayoutCommit]

@[simp] theorem execReshapeStart_mem (s : State) :
  Res.mem (execReshapeStart s) = some s.mem := by
  simp [execReshapeStart]

@[simp] theorem execReshapeSwitch_mem (s : State) :
  Res.mem (execReshapeSwitch s) = some s.mem := by
  simp [execReshapeSwitch]

@[simp] theorem State.saveCheckpoint_mem (s : State) (k : Nat) (slot : Nat) :
  (State.saveCheckpoint s k slot).mem = s.mem := by
  unfold State.saveCheckpoint
  dsimp only
  repeat' (first | (simp; done) | intro _ | split | (simp_all; done))

@[simp] theorem execHeartbeatSend_mem (s : State) :
  Res.mem (execHeartbeatSend s) = some s.mem := by
  simp [execHeartbeatSend]

@[simp] theorem State.putRate_mem (s : State) (r : Nat) :
  (State.putRate s r).mem = s.mem := by
  simp [State.putRate]

@[simp] theorem execRingRate_mem (src : Fin 32) (code : Fin 4) (s : State) :
  Res.mem (execRingRate src code s) = some s.mem := by
  simp [execRingRate]

@[simp] theorem State.rateCheck_mem (s : State) :
  (State.rateCheck s).mem = s.mem := by
  simp [State.rateCheck]

@[simp] theorem State.showMap_mem (s : State) (r : Nat) :
  (State.showMap s r).mem = s.mem := by
  simp [State.showMap]

@[simp] theorem execHeartbeatReceive_mem (src : Fin 32) (hb : Heartbeat) (s : State) :
  Res.mem (execHeartbeatReceive src hb s) = some s.mem := by
  simp [execHeartbeatReceive]

@[simp] theorem execRingJoin_mem (member : Fin 32) (leave : Bool) (s : State) :
  Res.mem (execRingJoin member leave s) = some s.mem := by
  simp [execRingJoin]

@[simp] theorem execClaimSend_mem (s : State) :
  Res.mem (execClaimSend s) = some s.mem := by
  simp [execClaimSend]

@[simp] theorem execClaimReceive_mem (member : Fin 32) (epoch : Nat) (s : State) :
  Res.mem (execClaimReceive member epoch s) = some s.mem := by
  simp [execClaimReceive]

@[simp] theorem State.modCore_mem (s : State) (g : Cores → Cores) :
  (State.modCore s g).mem = s.mem := by
  simp [State.modCore]

@[simp] theorem State.carry_mem (s : State) (old : State) (fs : List Field) :
  (State.carry s old fs).mem = s.mem := by
  simp [State.carry]

@[simp] theorem execWatchdogKick_mem (_value : Word) (s : State) :
  Res.mem (execWatchdogKick _value s) = some s.mem := by
  simp [execWatchdogKick]

@[simp] theorem State.cchReject_mem (s : State) (c : Nat) :
  (State.cchReject s c).mem = s.mem := by
  simp [State.cchReject]

@[simp] theorem State.dmaReject_mem (s : State) (c : Nat) :
  (State.dmaReject s c).mem = s.mem := by
  simp [State.dmaReject]

@[simp] theorem State.coreCtl_mem (s : State) (v : Nat) :
  (State.coreCtl s v).mem = s.mem := by
  simp [State.coreCtl]

@[simp] theorem execCoreRelease_mem (value : Word) (s : State) :
  Res.mem (execCoreRelease value s) = some s.mem := by
  simp [execCoreRelease]

@[simp] theorem State.l1Ctl_mem (s : State) (n : Nat) (v : Nat) :
  (State.l1Ctl s n v).mem = s.mem := by
  simp [State.l1Ctl]

@[simp] theorem execL1Invalidate_mem (core : Fin 4) (value : Word) (s : State) :
  Res.mem (execL1Invalidate core value s) = some s.mem := by
  simp [execL1Invalidate]

@[simp] theorem execL1InvalidateDone_mem (core : Fin 4) (s : State) :
  Res.mem (execL1InvalidateDone core s) = some s.mem := by
  simp [execL1InvalidateDone]

@[simp] theorem State.l1Drop_mem (s : State) (line : Nat) (keep : Option Nat) :
  (State.l1Drop s line keep).mem = s.mem := by
  simp [State.l1Drop]

@[simp] theorem State.l1Put_mem (s : State) (core : Nat) (inst : Bool) (line : Nat) (data : Nat) (pos : Nat) (word : Nat → Bool) :
  (State.l1Put s core inst line data pos word).mem = s.mem := by
  simp [State.l1Put]

@[simp] theorem State.l1Fill_mem (s : State) (core : Nat) (inst : Bool) (line : Nat) (data : Nat) :
  (State.l1Fill s core inst line data).mem = s.mem := by
  unfold State.l1Fill
  repeat' split
  all_goals simp

@[simp] theorem State.l1Read_mem (s : State) (core : Nat) (inst : Bool) (line : Nat) (off : Nat) :
  (State.l1Read s core inst line off).2.mem = s.mem := by
  unfold State.l1Read
  repeat' split
  all_goals simp

@[simp] theorem State.l1Store_mem (s : State) (core : Nat) (line : Nat) (off : Nat) (n : Nat) (d : Nat) :
  (State.l1Store s core line off n d).mem = s.mem := by
  unfold State.l1Store
  repeat' split
  all_goals simp

@[simp] theorem State.l2Rewrite_mem (s : State) (k : Nat) :
  (State.l2Rewrite s k).mem = s.mem := by
  simp [State.l2Rewrite]

@[simp] theorem State.l2Put_mem (s : State) (k : Nat) (l : L2Line) :
  (State.l2Put s k l).mem = s.mem := by
  simp [State.l2Put]

@[simp] theorem State.l2Drop_mem (s : State) (k : Nat) :
  (State.l2Drop s k).mem = s.mem := by
  unfold State.l2Drop
  repeat' split
  all_goals simp

@[simp] theorem State.l2Serve_mem (s : State) (core : Nat) (k : Nat) (line : Nat) (fetch : Bool) (store : Option (Nat × Nat)) (off : Nat) :
  (State.l2Serve s core k line fetch store off).mem = s.mem := by
  unfold State.l2Serve
  repeat' split
  all_goals simp

@[simp] theorem State.l2SweepCtl_mem (s : State) (v : Nat) :
  (State.l2SweepCtl s v).mem = s.mem := by
  simp [State.l2SweepCtl]

@[simp] theorem execL2Sweep_mem (s : State) :
  Res.mem (execL2Sweep s) = some s.mem := by
  simp [execL2Sweep]

@[simp] theorem State.dmaEnd_mem (s : State) (c : Nat) (st : Nat) (code : Nat) :
  (State.dmaEnd s c st code).mem = s.mem := by
  simp [State.dmaEnd]

@[simp] theorem execDmaDrainDone_mem (ch : Fin 32) (s : State) :
  Res.mem (execDmaDrainDone ch s) = some s.mem := by
  simp [execDmaDrainDone]

@[simp] theorem State.sysReject_mem (s : State) (c : Nat) (d : Nat) :
  (State.sysReject s c d).mem = s.mem := by
  simp [State.sysReject]

@[simp] theorem State.clearRegs_mem (s : State) (lo : Nat) (hi : Nat) :
  (State.clearRegs s lo hi).mem = s.mem := by
  simp [State.clearRegs]

@[simp] theorem State.pdReq_mem (s : State) (n : Nat) (v : Nat) :
  (State.pdReq s n v).mem = s.mem := by
  unfold State.pdReq
  dsimp only
  repeat' (first | (simp; done) | intro _ | split | (simp_all; done))

@[simp] theorem execPdReqWrite_mem (n : Fin 3) (value : Word) (s : State) :
  Res.mem (execPdReqWrite n value s) = some s.mem := by
  simp [execPdReqWrite]

@[simp] theorem State.wantDom_mem (s : State) (d : Nat) (on : Bool) :
  (State.wantDom s d on).mem = s.mem := by
  simp [State.wantDom]

@[simp] theorem execDomainRampStart_mem (s : State) :
  Res.mem (execDomainRampStart s) = some s.mem := by
  unfold execDomainRampStart
  repeat' split
  all_goals simp

@[simp] theorem State.coresGo_mem (s : State) :
  (State.coresGo s).mem = s.mem := by
  simp [State.coresGo]

@[simp] theorem State.domUp_mem (s : State) (d : Nat) :
  (State.domUp s d).mem = s.mem := by
  simp [State.domUp]

@[simp] theorem execDomainRampDone_mem (d : Fin 96) (s : State) :
  Res.mem (execDomainRampDone d s) = some s.mem := by
  simp [execDomainRampDone]

@[simp] theorem State.afeFit_mem (s : State) (n : Nat) (v : Nat) :
  (State.afeFit s n v).mem = s.mem := by
  unfold State.afeFit
  dsimp only
  repeat' (first | (simp; done) | intro _ | split | rw [State.when_mem] | (simp_all; done))

@[simp] theorem execAfeFitWrite_mem (n : Fin 2) (value : Word) (s : State) :
  Res.mem (execAfeFitWrite n value s) = some s.mem := by
  simp [execAfeFitWrite]

@[simp] theorem State.startStep_mem (s : State) (n : Nat) (g : State → State) (h0 : ∀ s0, (g s0).mem = s0.mem) :
  (State.startStep s n g).mem = s.mem := by
  unfold State.startStep
  simp
  repeat' (first | (simp; done) | intro _ | split | rw [State.startStep_mem] | (simp_all; done))

@[simp] theorem execSysPorNRise_mem (straps : Straps) (s : State) :
  Res.mem (execSysPorNRise straps s) = some s.mem := by
  simp [execSysPorNRise]

@[simp] theorem execPllLock_mem (s : State) :
  Res.mem (execPllLock s) = some s.mem := by
  simp [execPllLock]

@[simp] theorem execNutStart_mem (s : State) :
  Res.mem (execNutStart s) = some s.mem := by
  simp [execNutStart]

@[simp] theorem State.eraseStaging_mem (s : State) :
  (State.eraseStaging s).mem = s.mem := by
  simp [State.eraseStaging]

@[simp] theorem State.installActive_mem (s : State) :
  (State.installActive s).mem = s.mem := by
  simp [State.installActive]

@[simp] theorem State.install_mem (s : State) :
  (State.install s).mem = s.mem := by
  simp [State.install]

@[simp] theorem State.restoreFallback_mem (s : State) :
  (State.restoreFallback s).mem = s.mem := by
  simp [State.restoreFallback]

@[simp] theorem State.bootSlot_mem (s : State) (k : Nat) (p : FwPkg) :
  (State.bootSlot s k p).mem = s.mem := by
  simp [State.bootSlot]

@[simp] theorem State.startKeys_mem (s : State) :
  (State.startKeys s).mem = s.mem := by
  simp [State.startKeys]

@[simp] theorem execL2InvalidationDone_mem (s : State) :
  Res.mem (execL2InvalidationDone s) = some s.mem := by
  simp [execL2InvalidationDone]

@[simp] theorem State.queueRestored_mem (s : State) :
  (State.queueRestored s).mem = s.mem := by
  simp [State.queueRestored]

@[simp] theorem State.restoreFrom_mem (s : State) (n : SaveArea) (fn : SaveRead) (old : Option (SaveArea × SaveRead)) :
  (State.restoreFrom s n fn old).mem = s.mem := by
  simp [State.restoreFrom]

@[simp] theorem State.restore_mem (s : State) (headerA : Nat) (headerB : Nat) (a : SaveRead) (b : SaveRead) :
  (State.restore s headerA headerB a b).mem = s.mem := by
  unfold State.restore
  repeat' split
  all_goals simp

@[simp] theorem execReady_mem (s : State) :
  Res.mem (execReady s) = some s.mem := by
  simp [execReady]

@[simp] theorem State.pwrState_mem (s : State) (v : Nat) :
  (State.pwrState s v).mem = s.mem := by
  simp [State.pwrState]

@[simp] theorem execPwrStateWrite_mem (value : Word) (s : State) :
  Res.mem (execPwrStateWrite value s) = some s.mem := by
  simp [execPwrStateWrite]

@[simp] theorem execIdleEntry_mem (s : State) :
  Res.mem (execIdleEntry s) = some s.mem := by
  simp [execIdleEntry]

@[simp] theorem execIdleExit_mem (s : State) :
  Res.mem (execIdleExit s) = some s.mem := by
  simp [execIdleExit]

@[simp] theorem execDozeEntry_mem (s : State) :
  Res.mem (execDozeEntry s) = some s.mem := by
  simp [execDozeEntry]

@[simp] theorem execSpinDownStart_mem (s : State) :
  Res.mem (execSpinDownStart s) = some s.mem := by
  simp [execSpinDownStart]

@[simp] theorem execDozeExit_mem (s : State) :
  Res.mem (execDozeExit s) = some s.mem := by
  simp [execDozeExit]

@[simp] theorem execSleepEntry_mem (s : State) :
  Res.mem (execSleepEntry s) = some s.mem := by
  unfold execSleepEntry
  repeat' split
  all_goals simp

@[simp] theorem execSleepExit_mem (s : State) :
  Res.mem (execSleepExit s) = some s.mem := by
  simp [execSleepExit]

@[simp] theorem execRelocation_mem (nsid : Nat) (lba : Nat) (member : Nat) (row : List RowTrack) (spareRows : List RowTrack) (s : State) :
  Res.mem (execRelocation nsid lba member row spareRows s) = some s.mem := by
  unfold execRelocation
  repeat' split
  all_goals simp

@[simp] theorem State.rejectAt_mem (s : State) (a : Nat) (c : Nat) :
  (State.rejectAt s a c).mem = s.mem := by
  simp [State.rejectAt]

@[simp] theorem resState_mem (r : Res) (s : State) (h : Res.mem r = some s.mem) : (resState r s).mem = s.mem := by
  unfold resState
  split
  · simpa using h
  · rfl

@[simp] theorem State.clearRc_mem (s : State) (a : Nat) :
  (State.clearRc s a).mem = s.mem := by
  unfold State.clearRc
  repeat' split
  all_goals simp

@[simp] theorem State.latch64_mem (s : State) (a : Nat) :
  (State.latch64 s a).mem = s.mem := by
  simp [State.latch64]

@[simp] theorem State.writeField_mem (s : State) (a : Nat) (v : Nat) (d : FieldDef) :
  (State.writeField s a v d).mem = s.mem := by
  unfold State.writeField
  repeat' split
  all_goals simp

@[simp] theorem State.clearStatus_mem (s : State) (a : Nat) (fs : List FieldDef) :
  (State.clearStatus s a fs).mem = s.mem := by
  simp [State.clearStatus]

@[simp] theorem State.secReqCtl_mem (s : State) (v : Nat) :
  (State.secReqCtl s v).mem = s.mem := by
  simp [State.secReqCtl]

@[simp] theorem State.tokenCtl_mem (s : State) (v : Nat) :
  (State.tokenCtl s v).mem = s.mem := by
  simp [State.tokenCtl]

@[simp] theorem State.peek_mem (s : State) (a : Nat) :
  (State.peek s a).mem = s.mem := by
  unfold State.peek
  repeat' split
  all_goals simp

@[simp] theorem execSmbusRegisterRead_mem (s : State) :
  Res.mem (execSmbusRegisterRead s) = some s.mem := by
  simp [execSmbusRegisterRead]

end Sys2Proof.Machine
end

