-- ==== Sys2Proof/Laws/Fields.lean ====
section
/-! SUPPORT. The operations that write no register field: one lemma each. -/

set_option linter.all false
set_option maxRecDepth 4000

namespace Sys2Proof.Machine

/-- The `f` of a meaning's next state. -/
def Res.f (r : Res) : Option (SMap Nat) := match r with | .next t => some t.f | _ => none

@[simp] theorem Res.f_next (t : State) : Res.f (.next t) = some t.f := rfl

@[simp] theorem State.ite_f (c : Prop) [Decidable c] (a b : State) : (if c then a else b).f = if c then a.f else b.f := apply_ite _ _ _ _

@[simp] theorem State.iteSnd_f {α : Type} (c : Prop) [Decidable c] (a b : α × State) : (if c then a else b).2.f = if c then a.2.f else b.2.f := by split <;> rfl

@[simp] theorem State.iteSnd2_f {α β : Type} (c : Prop) [Decidable c] (a b : α × β × State) : (if c then a else b).2.2.f = if c then a.2.2.f else b.2.2.f := by split <;> rfl

@[simp] theorem State.foldl_f {α : Type} (g : State → α → State) (xs : List α) (s : State) (h : ∀ s x, (g s x).f = s.f) : (xs.foldl g s).f = s.f := by
  induction xs generalizing s with
  | nil => rfl
  | cons x xs ih => simp [ih, h]

@[simp] theorem State.foldlp_f {α β : Type} (g : β × State → α → β × State) (xs : List α) (s : β × State) (h : ∀ s x, (g s x).2.f = s.2.f) : (xs.foldl g s).2.f = s.2.f := by
  induction xs generalizing s with
  | nil => rfl
  | cons x xs ih => simp [ih, h]

@[simp] theorem State.foldlp2_f {α β γ : Type} (g : γ × β × State → α → γ × β × State) (xs : List α) (s : γ × β × State) (h : ∀ s x, (g s x).2.2.f = s.2.2.f) : (xs.foldl g s).2.2.f = s.2.2.f := by
  induction xs generalizing s with
  | nil => rfl
  | cons x xs ih => simp [ih, h]

@[simp] theorem State.when_f (s : State) (b : Bool) (g : State → State) (h0 : ∀ s0, (g s0).f = s0.f) :
  (State.when s b g).f = s.f := by
  unfold State.when; split <;> simp [*]

@[simp] theorem State.each_f {α : Type} (s : State) (xs : List α) (g : State → α → State) (h0 : ∀ s0 x1, (g s0 x1).f = s0.f) :
  (State.each s xs g).f = s.f := by
  unfold State.each; simp [*]

@[simp] theorem State.emit_f (s : State) (o : Out) :
  (State.emit s o).f = s.f := by
  simp [State.emit]

@[simp] theorem State.answer_f (s : State) (r : Resp) :
  (State.answer s r).f = s.f := by
  simp [State.answer]

@[simp] theorem State.draw_f (s : State) (n : Nat) :
  (State.draw s n).f = s.f := by
  simp [State.draw]

@[simp] theorem State.setByte_f (s : State) (a : Nat) (b : Byte) :
  (State.setByte s a b).f = s.f := by
  simp [State.setByte]

@[simp] theorem State.storeMem_f (s : State) (a : Nat) (v : Nat) (n : Nat) :
  (State.storeMem s a v n).f = s.f := by
  simp [State.storeMem]

@[simp] theorem State.setHeld_f (s : State) (x : SMap Nat) :
  (State.setHeld s x).f = s.f := by
  simp [State.setHeld]

@[simp] theorem State.setShadow_f (s : State) (x : SMap Nat) :
  (State.setShadow s x).f = s.f := by
  simp [State.setShadow]

@[simp] theorem State.setMem_f (s : State) (x : List Host.Cell) :
  (State.setMem s x).f = s.f := by
  simp [State.setMem]

@[simp] theorem State.setChk_f (s : State) (x : SMap Nat) :
  (State.setChk s x).f = s.f := by
  simp [State.setChk]

@[simp] theorem State.setPwr_f (s : State) (x : Power) :
  (State.setPwr s x).f = s.f := by
  simp [State.setPwr]

@[simp] theorem State.setEvr_f (s : State) (x : Evr) :
  (State.setEvr s x).f = s.f := by
  simp [State.setEvr]

@[simp] theorem State.setBuf_f (s : State) (x : Buf) :
  (State.setBuf s x).f = s.f := by
  simp [State.setBuf]

@[simp] theorem State.setSpt_f (s : State) (x : Spt) :
  (State.setSpt s x).f = s.f := by
  simp [State.setSpt]

@[simp] theorem State.setMedia_f (s : State) (x : Media) :
  (State.setMedia s x).f = s.f := by
  simp [State.setMedia]

@[simp] theorem State.setPool_f (s : State) (x : Pool) :
  (State.setPool s x).f = s.f := by
  simp [State.setPool]

@[simp] theorem State.setShock_f (s : State) (x : Shock) :
  (State.setShock s x).f = s.f := by
  simp [State.setShock]

@[simp] theorem State.setRefHead_f (s : State) (x : RefHead) :
  (State.setRefHead s x).f = s.f := by
  simp [State.setRefHead]

@[simp] theorem State.setCmds_f (s : State) (x : SMap Cmd) :
  (State.setCmds s x).f = s.f := by
  simp [State.setCmds]

@[simp] theorem State.setCache_f (s : State) (x : SMap CacheBlk) :
  (State.setCache s x).f = s.f := by
  simp [State.setCache]

@[simp] theorem State.setIqiEv_f (s : State) (x : SMap (List (Nat × Nat))) :
  (State.setIqiEv s x).f = s.f := by
  simp [State.setIqiEv]

@[simp] theorem State.setDeferNs_f (s : State) (x : List Nat) :
  (State.setDeferNs s x).f = s.f := by
  simp [State.setDeferNs]

@[simp] theorem State.setFeat_f (s : State) (x : SMap Nat) :
  (State.setFeat s x).f = s.f := by
  simp [State.setFeat]

@[simp] theorem State.setFeatSaved_f (s : State) (x : SMap Nat) :
  (State.setFeatSaved s x).f = s.f := by
  simp [State.setFeatSaved]

@[simp] theorem State.setPesSrc_f (s : State) (x : Nat) :
  (State.setPesSrc s x).f = s.f := by
  simp [State.setPesSrc]

@[simp] theorem State.setCmpSrc_f (s : State) (x : Nat) :
  (State.setCmpSrc s x).f = s.f := by
  simp [State.setCmpSrc]

@[simp] theorem State.setLaneIn_f (s : State) (x : SMap (List Sample)) :
  (State.setLaneIn s x).f = s.f := by
  simp [State.setLaneIn]

@[simp] theorem State.setGrps_f (s : State) (x : SMap Grps) :
  (State.setGrps s x).f = s.f := by
  simp [State.setGrps]

@[simp] theorem State.setPorts_f (s : State) (x : SMap Port) :
  (State.setPorts s x).f = s.f := by
  simp [State.setPorts]

@[simp] theorem State.setWinStaged_f (s : State) (x : SMap Nat) :
  (State.setWinStaged s x).f = s.f := by
  simp [State.setWinStaged]

@[simp] theorem State.setWinLive_f (s : State) (x : SMap WinLive) :
  (State.setWinLive s x).f = s.f := by
  simp [State.setWinLive]

@[simp] theorem State.setAts_f (s : State) (x : List AtsEntry) :
  (State.setAts s x).f = s.f := by
  simp [State.setAts]

@[simp] theorem State.setAtsReq_f (s : State) (x : List AtsReq) :
  (State.setAtsReq s x).f = s.f := by
  simp [State.setAtsReq]

@[simp] theorem State.setAtsInv_f (s : State) (x : List (Nat × Nat)) :
  (State.setAtsInv s x).f = s.f := by
  simp [State.setAtsInv]

@[simp] theorem State.setPairs_f (s : State) (x : SMap Pair) :
  (State.setPairs s x).f = s.f := by
  simp [State.setPairs]

@[simp] theorem State.setNextSeq_f (s : State) (x : Nat) :
  (State.setNextSeq s x).f = s.f := by
  simp [State.setNextSeq]

@[simp] theorem State.setLastPort_f (s : State) (x : Nat) :
  (State.setLastPort s x).f = s.f := by
  simp [State.setLastPort]

@[simp] theorem State.setFetchStop_f (s : State) (x : Bool) :
  (State.setFetchStop s x).f = s.f := by
  simp [State.setFetchStop]

@[simp] theorem State.setAdm_f (s : State) (x : Admin) :
  (State.setAdm s x).f = s.f := by
  simp [State.setAdm]

@[simp] theorem State.setSec_f (s : State) (x : Sec) :
  (State.setSec s x).f = s.f := by
  simp [State.setSec]

@[simp] theorem State.setChd_f (s : State) (x : Chd) :
  (State.setChd s x).f = s.f := by
  simp [State.setChd]

@[simp] theorem State.modSpn_f (s : State) (g : Spn → Spn) :
  (State.modSpn s g).f = s.f := by
  simp [State.modSpn]

@[simp] theorem State.modPwr_f (s : State) (g : Power → Power) :
  (State.modPwr s g).f = s.f := by
  simp [State.modPwr]

@[simp] theorem State.charge_f (s : State) (cls : Nat) (n : Nat) :
  (State.charge s cls n).f = s.f := by
  simp [State.charge]

@[simp] theorem State.fixBurst_f (s : State) (b : Nat) (p : Nat) (v : Nat) :
  (State.fixBurst s b p v).f = s.f := by
  simp [State.fixBurst]

@[simp] theorem State.zeroBursts_f (s : State) (bs : List Nat) :
  (State.zeroBursts s bs).f = s.f := by
  simp [State.zeroBursts]

@[simp] theorem execArbitrationRound_f (s : State) :
  Res.f (execArbitrationRound s) = some s.f := by
  simp [execArbitrationRound]

@[simp] theorem execHbmRefresh_f (s : State) :
  Res.f (execHbmRefresh s) = some s.f := by
  simp [execHbmRefresh]

@[simp] theorem State.sramRewrite_f (s : State) (inst : Nat) (word : Nat) :
  (State.sramRewrite s inst word).f = s.f := by
  simp [State.sramRewrite]

@[simp] theorem State.sramWritten_f (s : State) (inst : Nat) (p : Nat → Bool) :
  (State.sramWritten s inst p).f = s.f := by
  simp [State.sramWritten]

@[simp] theorem State.putBuckets_f (s : State) (b : SMap Bucket) :
  (State.putBuckets s b).f = s.f := by
  simp [State.putBuckets]

@[simp] theorem State.putBucket_f (s : State) (code : Nat) (b : Bucket) :
  (State.putBucket s code b).f = s.f := by
  simp [State.putBucket]

@[simp] theorem execBucketRefill_f (code : Nat) (s : State) :
  Res.f (execBucketRefill code s) = some s.f := by
  unfold execBucketRefill
  repeat' split
  all_goals simp

@[simp] theorem State.rebucket_f (s : State) (old : Nat → Nat) :
  (State.rebucket s old).f = s.f := by
  simp [State.rebucket]

@[simp] theorem State.putRl_f (s : State) (e : RlEntry) :
  (State.putRl s e).f = s.f := by
  simp [State.putRl]

@[simp] theorem State.modPort_f (s : State) (p : Nat) (g : Port → Port) :
  (State.modPort s p g).f = s.f := by
  simp [State.modPort]

@[simp] theorem State.wake_f (s : State) (p : Nat) :
  (State.wake s p).f = s.f := by
  simp [State.wake]

@[simp] theorem State.commit_f (s : State) (seq : Nat) (c : Cpl) :
  (State.commit s seq c).f = s.f := by
  unfold State.commit
  repeat' split
  all_goals simp

@[simp] theorem State.putEv_f (s : State) (port : Nat) (l : List (Nat × Nat)) :
  (State.putEv s port l).f = s.f := by
  simp [State.putEv]

@[simp] theorem State.reportEvent_f (s : State) (port : Nat) :
  (State.reportEvent s port).f = s.f := by
  unfold State.reportEvent
  repeat' split
  all_goals simp

@[simp] theorem State.queueEvent_f (s : State) (port : Nat) (ty : Nat) (info : Nat) :
  (State.queueEvent s port ty info).f = s.f := by
  simp [State.queueEvent]

@[simp] theorem State.queueEventAll_f (s : State) (ty : Nat) (info : Nat) :
  (State.queueEventAll s ty info).f = s.f := by
  simp [State.queueEventAll]

@[simp] theorem State.health_f (s : State) (c : Nat) :
  (State.health s c).f = s.f := by
  simp [State.health]

@[simp] theorem State.putRange_f (s : State) (r : Nat) (x : KRange) :
  (State.putRange s r x).f = s.f := by
  simp [State.putRange]

@[simp] theorem State.putWindow_f (s : State) (w : SMap WinEntry) :
  (State.putWindow s w).f = s.f := by
  simp [State.putWindow]

@[simp] theorem State.freeWin_f (s : State) (i : Nat) :
  (State.freeWin s i).f = s.f := by
  simp [State.freeWin]

@[simp] theorem State.dropWin_f (s : State) (i : Nat) :
  (State.dropWin s i).f = s.f := by
  simp [State.dropWin]

@[simp] theorem State.holdWin_f (s : State) (i : Nat) :
  (State.holdWin s i).f = s.f := by
  unfold State.holdWin
  repeat' split
  all_goals simp

@[simp] theorem State.freeHeld_f (s : State) (nsid : Nat) (lba : Nat) (older : Nat → WinEntry → Bool) :
  (State.freeHeld s nsid lba older).f = s.f := by
  simp [State.freeHeld]

@[simp] theorem State.putMeta_f (s : State) (g : Spt → Spt) :
  (State.putMeta s g).f = s.f := by
  simp [State.putMeta]

@[simp] theorem State.unfail_f (s : State) (nsid : Nat) (lba : Nat) :
  (State.unfail s nsid lba).f = s.f := by
  simp [State.unfail]

@[simp] theorem State.markFailed_f (s : State) (nsid : Nat) (lba : Nat) (sc : Nat) :
  (State.markFailed s nsid lba sc).f = s.f := by
  simp [State.markFailed]

@[simp] theorem State.blockDone_f (s : State) (addr : Nat) :
  (State.blockDone s addr).f = s.f := by
  unfold State.blockDone
  repeat' split
  all_goals simp

@[simp] theorem State.blockWritten_f (s : State) (addr : Nat) :
  (State.blockWritten s addr).f = s.f := by
  unfold State.blockWritten
  repeat' split
  all_goals simp

@[simp] theorem State.readBack_f (s : State) (lo : Nat) :
  (State.readBack s lo).f = s.f := by
  simp [State.readBack]

@[simp] theorem State.lostBlock_f (s : State) (addr : Nat) (b : CacheBlk) (sc : Nat) :
  (State.lostBlock s addr b sc).f = s.f := by
  simp [State.lostBlock]

@[simp] theorem State.putSlot_f (s : State) (i : Nat) (x : Slot) :
  (State.putSlot s i x).f = s.f := by
  simp [State.putSlot]

@[simp] theorem State.modSlot_f (s : State) (i : Nat) (g : Slot → Slot) :
  (State.modSlot s i g).f = s.f := by
  simp [State.modSlot]

@[simp] theorem State.putFmt_f (s : State) (a : Nat) (x : Fmt) :
  (State.putFmt s a x).f = s.f := by
  simp [State.putFmt]

@[simp] theorem State.modFmt_f (s : State) (a : Nat) (g : Fmt → Fmt) :
  (State.modFmt s a g).f = s.f := by
  simp [State.modFmt]

@[simp] theorem State.putThread_f (s : State) (a : Nat) (j : Nat) (t : Thread) :
  (State.putThread s a j t).f = s.f := by
  simp [State.putThread]

@[simp] theorem State.putPa_f (s : State) (a : Nat) (x : PaLink) :
  (State.putPa s a x).f = s.f := by
  simp [State.putPa]

@[simp] theorem State.putLane_f (s : State) (a : Nat) (x : Lane) :
  (State.putLane s a x).f = s.f := by
  simp [State.putLane]

@[simp] theorem State.modLane_f (s : State) (a : Nat) (g : Lane → Lane) :
  (State.modLane s a g).f = s.f := by
  simp [State.modLane]

@[simp] theorem State.putSrc_f (s : State) (i : Nat) (x : Src) :
  (State.putSrc s i x).f = s.f := by
  simp [State.putSrc]

@[simp] theorem State.paNext_f (s : State) (a : Nat) :
  (State.paNext s a).f = s.f := by
  unfold State.paNext
  dsimp only
  repeat' (first | (simp; done) | intro _ | split | (simp_all; done))

@[simp] theorem State.paMember_f (s : State) (a : Nat) (fs : List PaFrame) :
  (State.paMember s a fs).f = s.f := by
  simp [State.paMember]

@[simp] theorem State.paFast_f (s : State) (a : Nat) (fs : List PaFrame) :
  (State.paFast s a fs).f = s.f := by
  simp [State.paFast]

@[simp] theorem State.paDrop_f (s : State) (a : Nat) (j : Nat) :
  (State.paDrop s a j).f = s.f := by
  simp [State.paDrop]

@[simp] theorem State.fixRefs_f (s : State) (i : Nat) :
  (State.fixRefs s i).f = s.f := by
  simp [State.fixRefs]

@[simp] theorem State.modRun_f (s : State) (a : Nat) (rid : Nat) (g : Run → Run) :
  (State.modRun s a rid g).f = s.f := by
  simp [State.modRun]

@[simp] theorem State.modSect_f (s : State) (i : Nat) (e : Nat) (g : Sect → Sect) :
  (State.modSect s i e g).f = s.f := by
  unfold State.modSect
  repeat' split
  all_goals simp

@[simp] theorem execEqTapAdapt_f (slot : Fin 16) (run : SampleRun) (s : State) :
  Res.f (execEqTapAdapt slot run s) = some s.f := by
  unfold execEqTapAdapt
  dsimp only
  repeat' (first | (simp; done) | intro _ | split | rw [State.foldl_f] | rw [State.foldlp_f] | (simp_all; done))

@[simp] theorem execSyncSearchEnd_f (slot : Fin 16) (streams : List (List Int)) (s : State) :
  Res.f (execSyncSearchEnd slot streams s) = some s.f := by
  simp [execSyncSearchEnd]

@[simp] theorem execResyncSearchEnd_f (slot : Fin 16) (frag : Nat) (streams : List (List Int)) (s : State) :
  Res.f (execResyncSearchEnd slot frag streams s) = some s.f := by
  simp [execResyncSearchEnd]

@[simp] theorem State.poolDrop_f (s : State) (ref : Nat) :
  (State.poolDrop s ref).f = s.f := by
  unfold State.poolDrop
  dsimp only
  repeat' (first | (simp; done) | intro _ | split | (simp_all; done))

@[simp] theorem State.setAttempt_f (s : State) (ref : Nat) (k : Nat) (st : AttState) :
  (State.setAttempt s ref k st).f = s.f := by
  simp [State.setAttempt]

@[simp] theorem execDeepAttemptStart_f (engine : Fin 8) (s : State) :
  Res.f (execDeepAttemptStart engine s) = some s.f := by
  unfold execDeepAttemptStart
  repeat' split
  all_goals simp

@[simp] theorem execSectLoRead_f (slot : Fin 16) (s : State) :
  Res.f (execSectLoRead slot s) = some s.f := by
  unfold execSectLoRead
  dsimp only
  repeat' (first | (simp; done) | intro _ | split | (simp_all; done))

@[simp] theorem execSectHiRead_f (slot : Fin 16) (s : State) :
  Res.f (execSectHiRead slot s) = some s.f := by
  unfold execSectHiRead
  dsimp only
  repeat' (first | (simp; done) | intro _ | split | (simp_all; done))

@[simp] theorem execShockClear_f (s : State) :
  Res.f (execShockClear s) = some s.f := by
  simp [execShockClear]

@[simp] theorem State.fmtIso_f (s : State) (a : Nat) (g : State → State) (h0 : ∀ s0, (g s0).f = s0.f) :
  (State.fmtIso s a g).f = s.f := by
  unfold State.fmtIso
  simp
  repeat' (first | (simp; done) | intro _ | split | rw [State.fmtIso_f] | (simp_all; done))

@[simp] theorem State.drainEnded_f (s : State) (a : Nat) :
  (State.drainEnded s a).f = s.f := by
  simp [State.drainEnded]

@[simp] theorem State.endRuns_f (s : State) (a : Nat) :
  (State.endRuns s a).f = s.f := by
  simp [State.endRuns]

@[simp] theorem State.discardSects_f (s : State) (i : Nat) :
  (State.discardSects s i).f = s.f := by
  simp [State.discardSects]

@[simp] theorem State.stopSlot_f (s : State) (i : Nat) :
  (State.stopSlot s i).f = s.f := by
  simp [State.stopSlot]

@[simp] theorem State.atCell_f (s : State) (i : Nat) (w : Nat) (c : Nat) :
  (State.atCell s i w c).f = s.f := by
  simp [State.atCell]

@[simp] theorem State.setCmp_f (s : State) (a : Nat) (j : Nat) (cells : Nat) (cell : Nat) :
  (State.setCmp s a j cells cell).f = s.f := by
  simp [State.setCmp]

@[simp] theorem State.freeCmp_f (s : State) (a : Nat) (j : Nat) :
  (State.freeCmp s a j).f = s.f := by
  simp [State.freeCmp]

@[simp] theorem execTabBeatEnd_f (act : Fin 4) (thread : Fin 4) (w : Nat) (c : Nat) (s : State) :
  Res.f (execTabBeatEnd act thread w c s) = some s.f := by
  unfold execTabBeatEnd
  dsimp only
  repeat' (first | (simp; done) | intro _ | split | (simp_all; done))

@[simp] theorem State.fastWrite_f (s : State) (i : Nat) (on : Bool) :
  (State.fastWrite s i on).f = s.f := by
  unfold State.fastWrite
  repeat' split
  all_goals simp

@[simp] theorem execRunDone_f (act : Fin 4) (loc : Fin 4) (s : State) :
  Res.f (execRunDone act loc s) = some s.f := by
  unfold execRunDone
  dsimp only
  repeat' (first | (simp; done) | intro _ | split | (simp_all; done))

@[simp] theorem execFmtDoneRead_f (act : Fin 4) (s : State) :
  Res.f (execFmtDoneRead act s) = some s.f := by
  unfold execFmtDoneRead
  simp
  repeat' (first | (simp; done) | intro _ | split | rw [State.fmtIso_f] | (simp_all; done))

@[simp] theorem State.d2dSend_f (s : State) (lane : Nat) (output : Nat) (code : Int) :
  (State.d2dSend s lane output code).f = s.f := by
  simp [State.d2dSend]

@[simp] theorem execDriverCommand_f (s : State) :
  Res.f (execDriverCommand s) = some s.f := by
  unfold execDriverCommand
  repeat' split
  all_goals simp

@[simp] theorem State.slew_f (s : State) (dt : Nat) :
  (State.slew s dt).f = s.f := by
  simp [State.slew]

@[simp] theorem State.piLoop_f (s : State) :
  (State.piLoop s).f = s.f := by
  simp [State.piLoop]

@[simp] theorem State.switchesOff_f (s : State) :
  (State.switchesOff s).f = s.f := by
  simp [State.switchesOff]

@[simp] theorem State.nextStep_f (s : State) (t : Nat) :
  (State.nextStep s t).f = s.f := by
  simp [State.nextStep]

@[simp] theorem execCommutation_f (step : Fin 6) (s : State) :
  Res.f (execCommutation step s) = some s.f := by
  unfold execCommutation
  repeat' split
  all_goals simp

@[simp] theorem State.clampDepth_f (s : State) :
  (State.clampDepth s).f = s.f := by
  simp [State.clampDepth]

@[simp] theorem State.holdOld_f (s : State) (a : Nat) (F : Field) :
  (State.holdOld s a F).f = s.f := by
  simp [State.holdOld]

@[simp] theorem State.learnerWrite_f (s : State) (a : Nat) (k : Nat) (v : Nat) :
  (State.learnerWrite s a k v).f = s.f := by
  simp [State.learnerWrite]

@[simp] theorem State.groupCounts_f (s : State) (a : Nat) (ph : Nat) (rs : List JobRec) (ev : Int) :
  (State.groupCounts s a ph rs ev).f = s.f := by
  simp [State.groupCounts]

@[simp] theorem State.zeroMicro_f (s : State) (a : Nat) :
  (State.zeroMicro s a).f = s.f := by
  simp [State.zeroMicro]

@[simp] theorem execPesClear_f (act : Fin 4) (s : State) :
  Res.f (execPesClear act s) = some s.f := by
  simp [execPesClear]

@[simp] theorem State.modSpt_f (s : State) (g : Spt → Spt) :
  (State.modSpt s g).f = s.f := by
  simp [State.modSpt]

@[simp] theorem State.sptFell_f (s : State) (old : State) :
  (State.sptFell s old).f = s.f := by
  simp [State.sptFell]

@[simp] theorem State.takeWin_f (s : State) (nsid : Nat) (lba : Nat) (block : Nat) :
  (State.takeWin s nsid lba block).2.f = s.f := by
  unfold State.takeWin
  repeat' split
  all_goals simp

@[simp] theorem State.retryHeld_f (s : State) :
  (State.retryHeld s).f = s.f := by
  simp [State.retryHeld]

@[simp] theorem State.saveMeta_f (s : State) :
  (State.saveMeta s).f = s.f := by
  unfold State.saveMeta
  dsimp only
  repeat' (first | (simp; done) | intro _ | split | (simp_all; done))

@[simp] theorem State.saveKeyRecord_f (s : State) (seq : Nat) :
  (State.saveKeyRecord s seq).f = s.f := by
  simp [State.saveKeyRecord]

@[simp] theorem execSaveBegin_f (s : State) :
  Res.f (execSaveBegin s) = some s.f := by
  simp [execSaveBegin]

@[simp] theorem State.saveEnd_f (s : State) :
  (State.saveEnd s).f = s.f := by
  simp [State.saveEnd]

@[simp] theorem execSaveCommit_f (ms : Nat) (vstore : Nat) (s : State) :
  Res.f (execSaveCommit ms vstore s) = some s.f := by
  simp [execSaveCommit]

@[simp] theorem State.modChd_f (s : State) (g : Chd → Chd) :
  (State.modChd s g).f = s.f := by
  simp [State.modChd]

@[simp] theorem State.rosterCheck_f (s : State) :
  (State.rosterCheck s).f = s.f := by
  simp [State.rosterCheck]

@[simp] theorem execWakeEvent_f (port : Fin 2) (s : State) :
  Res.f (execWakeEvent port s) = some s.f := by
  simp [execWakeEvent]

@[simp] theorem State.stageWrite_f (s : State) (i : Nat) (off : Nat) (len : Nat) (v : Nat) :
  (State.stageWrite s i off len v).f = s.f := by
  simp [State.stageWrite]

@[simp] theorem execWindowDrainDone_f (entry : Fin 64) (s : State) :
  Res.f (execWindowDrainDone entry s) = some s.f := by
  unfold execWindowDrainDone
  repeat' split
  all_goals simp

@[simp] theorem State.atsPage_f (s : State) (p : Nat) (page : Nat) (write : Bool) :
  (State.atsPage s p page write).f = s.f := by
  unfold State.atsPage
  repeat' split
  all_goals simp

@[simp] theorem State.atsTouch_f (s : State) (p : Nat) (a : Nat) (n : Nat) (write : Bool) :
  (State.atsTouch s p a n write).f = s.f := by
  simp [State.atsTouch]

@[simp] theorem State.msix_f (s : State) (p : Nat) (v : Nat) :
  (State.msix s p v).f = s.f := by
  simp [State.msix]

@[simp] theorem State.msixDrain_f (s : State) (p : Nat) :
  (State.msixDrain s p).f = s.f := by
  simp [State.msixDrain]

@[simp] theorem State.msixWrite_f (s : State) (p : Nat) (k : Nat) (v : Nat) :
  (State.msixWrite s p k v).f = s.f := by
  simp [State.msixWrite]

@[simp] theorem State.hostPieces_f (s : State) (p : Nat) (data : Nat) (y3 : List (Nat × Nat)) :
  (State.hostPieces s p data y3).f = s.f := by
  fun_induction State.hostPieces <;> simp_all

@[simp] theorem State.hostWrite_f (s : State) (p : Nat) (segs : List (Nat × Nat)) (off : Nat) (n : Nat) (data : Nat) :
  (State.hostWrite s p segs off n data).f = s.f := by
  simp [State.hostWrite]

@[simp] theorem State.hostRead_f (s : State) (p : Nat) (segs : List (Nat × Nat)) (off : Nat) (n : Nat) :
  (State.hostRead s p segs off n).f = s.f := by
  simp [State.hostRead]

@[simp] theorem State.putZone_f (s : State) (n : Nat) (z : Nat) (x : Zone) :
  (State.putZone s n z x).f = s.f := by
  simp [State.putZone]

@[simp] theorem State.step8_f (s : State) (nsid : Nat) (lba : Nat) (n : Nat) :
  (State.step8 s nsid lba n).2.f = s.f := by
  unfold State.step8
  repeat' split
  all_goals simp

@[simp] theorem State.admitCmd_f (s : State) (e : Nat) :
  (State.admitCmd s e).2.f = s.f := by
  simp [State.admitCmd]

@[simp] theorem State.complete_f (s : State) (seq : Nat) (sc : Nat) (info : Nat) (result : Nat) :
  (State.complete s seq sc info result).f = s.f := by
  unfold State.complete
  repeat' split
  all_goals simp

@[simp] theorem State.recheck_f (s : State) (seq : Nat) :
  (State.recheck s seq).f = s.f := by
  unfold State.recheck
  repeat' split
  all_goals simp

@[simp] theorem State.settle_f (s : State) :
  (State.settle s).f = s.f := by
  simp [State.settle]

@[simp] theorem State.putPair_f (s : State) (p : Nat) (q : Nat) (x : Pair) :
  (State.putPair s p q x).f = s.f := by
  simp [State.putPair]

@[simp] theorem State.dropBlocks_f (s : State) (seq : Nat) :
  (State.dropBlocks s seq).f = s.f := by
  unfold State.dropBlocks
  simp
  repeat' (first | (simp; done) | intro _ | split | rw [State.each_f] | (simp_all; done))

@[simp] theorem State.discard_f (s : State) (which : Cmd → Bool) :
  (State.discard s which).f = s.f := by
  simp [State.discard]

@[simp] theorem State.deletePairs_f (s : State) (p : Nat) (which : Nat → Bool) :
  (State.deletePairs s p which).f = s.f := by
  simp [State.deletePairs]

@[simp] theorem execFlrDone_f (port : Fin 2) (s : State) :
  Res.f (execFlrDone port s) = some s.f := by
  simp [execFlrDone]

@[simp] theorem execPerstDeassert_f (p : Fin 2) (s : State) :
  Res.f (execPerstDeassert p s) = some s.f := by
  simp [execPerstDeassert]

@[simp] theorem State.setupWrite_f (s : State) (p : Nat) (off : Nat) (len : Nat) (v : Nat) :
  (State.setupWrite s p off len v).f = s.f := by
  simp [State.setupWrite]

@[simp] theorem execAdminSetupWrite_f (port : Fin 2) (off : Nat) (len : Nat) (data : Nat) (s : State) :
  Res.f (execAdminSetupWrite port off len data s) = some s.f := by
  simp [execAdminSetupWrite]

@[simp] theorem State.putCmd_f (s : State) (seq : Nat) (k : Cmd) :
  (State.putCmd s seq k).f = s.f := by
  simp [State.putCmd]

@[simp] theorem State.take_f (s : State) (seq : Nat) (p : Nat) (q : Nat) (sqhd : Nat) (e : Nat) (list : Option (List (Nat × Nat))) :
  (State.take s seq p q sqhd e list).f = s.f := by
  simp [State.take]

@[simp] theorem State.markPending_f (s : State) (nsid : Nat) (lba : Nat) :
  (State.markPending s nsid lba).f = s.f := by
  simp [State.markPending]

@[simp] theorem State.placeBlock_f (s : State) (seq : Nat) (nsid : Nat) (lba : Nat) (mode : Nat) (addr : Nat) (block : Nat) :
  (State.placeBlock s seq nsid lba mode addr block).f = s.f := by
  simp [State.placeBlock]

@[simp] theorem State.commitBlocks_f (s : State) (seq : Nat) :
  (State.commitBlocks s seq).f = s.f := by
  simp [State.commitBlocks]

@[simp] theorem State.zoneFail_f (s : State) (nsid : Nat) (lba : Nat) (c : Nat) :
  (State.zoneFail s nsid lba c).f = s.f := by
  simp [State.zoneFail]

@[simp] theorem execWriteAck_f (seq : Nat) (s : State) :
  Res.f (execWriteAck seq s) = some s.f := by
  unfold execWriteAck
  dsimp only
  repeat' (first | (simp; done) | intro _ | split | rw [State.each_f] | (simp_all; done))

@[simp] theorem execFlush_f (seq : Nat) (s : State) :
  Res.f (execFlush seq s) = some s.f := by
  unfold execFlush
  repeat' split
  all_goals simp

@[simp] theorem execFlushComplete_f (seq : Nat) (s : State) :
  Res.f (execFlushComplete seq s) = some s.f := by
  unfold execFlushComplete
  repeat' split
  all_goals simp

@[simp] theorem State.unwrite_f (s : State) (seq : Nat) (x : Span) :
  (State.unwrite s seq x).f = s.f := by
  unfold State.unwrite
  simp
  repeat' (first | (simp; done) | intro _ | split | rw [State.each_f] | (simp_all; done))

@[simp] theorem execZoneReset_f (seq : Nat) (s : State) :
  Res.f (execZoneReset seq s) = some s.f := by
  unfold execZoneReset
  repeat' split
  all_goals simp

@[simp] theorem execZoneFinish_f (seq : Nat) (s : State) :
  Res.f (execZoneFinish seq s) = some s.f := by
  unfold execZoneFinish
  repeat' split
  all_goals simp

@[simp] theorem execZoneReport_f (seq : Nat) (s : State) :
  Res.f (execZoneReport seq s) = some s.f := by
  unfold execZoneReport
  repeat' split
  all_goals simp

@[simp] theorem execCreateQp_f (seq : Nat) (s : State) :
  Res.f (execCreateQp seq s) = some s.f := by
  unfold execCreateQp
  repeat' split
  all_goals simp

@[simp] theorem execDeleteQp_f (seq : Nat) (s : State) :
  Res.f (execDeleteQp seq s) = some s.f := by
  unfold execDeleteQp
  repeat' split
  all_goals simp

@[simp] theorem execEventWait_f (seq : Nat) (s : State) :
  Res.f (execEventWait seq s) = some s.f := by
  unfold execEventWait
  repeat' split
  all_goals simp

@[simp] theorem State.reply_f (s : State) (seq : Nat) (k : Cmd) (n : Nat) (data : Nat) :
  (State.reply s seq k n data).f = s.f := by
  simp [State.reply]

@[simp] theorem execIdentifyController_f (seq : Nat) (s : State) :
  Res.f (execIdentifyController seq s) = some s.f := by
  unfold execIdentifyController
  repeat' split
  all_goals simp

@[simp] theorem execIdentifyNamespace_f (seq : Nat) (s : State) :
  Res.f (execIdentifyNamespace seq s) = some s.f := by
  unfold execIdentifyNamespace
  repeat' split
  all_goals simp

@[simp] theorem State.getLog_f (s : State) (seq : Nat) (lid : Nat) (clear : State → Cmd → State) (h0 : ∀ s0 x1, (clear s0 x1).f = s0.f) :
  (State.getLog s seq lid clear).f = s.f := by
  unfold State.getLog
  dsimp only
  repeat' (first | (simp; done) | intro _ | split | rw [State.when_f] | rw [State.getLog_f] | (simp_all; done))

@[simp] theorem execGetLogHealth_f (seq : Nat) (s : State) :
  Res.f (execGetLogHealth seq s) = some s.f := by
  simp [execGetLogHealth]

@[simp] theorem execGetLogFwSlots_f (seq : Nat) (s : State) :
  Res.f (execGetLogFwSlots seq s) = some s.f := by
  simp [execGetLogFwSlots]

@[simp] theorem State.clearDel_f (s : State) (k : Cmd) :
  (State.clearDel s k).f = s.f := by
  simp [State.clearDel]

@[simp] theorem execGetLogDeferredErrors_f (seq : Nat) (s : State) :
  Res.f (execGetLogDeferredErrors seq s) = some s.f := by
  simp [execGetLogDeferredErrors]

@[simp] theorem State.clearEvents_f (s : State) (k : Cmd) :
  (State.clearEvents s k).f = s.f := by
  unfold State.clearEvents
  repeat' split
  all_goals simp

@[simp] theorem execGetLogEventRecords_f (seq : Nat) (s : State) :
  Res.f (execGetLogEventRecords seq s) = some s.f := by
  simp [execGetLogEventRecords]

@[simp] theorem execSetFeature_f (seq : Nat) (s : State) :
  Res.f (execSetFeature seq s) = some s.f := by
  unfold execSetFeature
  repeat' split
  all_goals simp

@[simp] theorem execGetFeature_f (seq : Nat) (s : State) :
  Res.f (execGetFeature seq s) = some s.f := by
  unfold execGetFeature
  repeat' split
  all_goals simp

@[simp] theorem State.modAdm_f (s : State) (g : Admin → Admin) :
  (State.modAdm s g).f = s.f := by
  simp [State.modAdm]

@[simp] theorem State.modBoot_f (s : State) (g : BootRec → BootRec) :
  (State.modBoot s g).f = s.f := by
  simp [State.modBoot]

@[simp] theorem execFwDownload_f (seq : Nat) (units : Option (List Nat)) (s : State) :
  Res.f (execFwDownload seq units s) = some s.f := by
  unfold execFwDownload
  repeat' split
  all_goals simp

@[simp] theorem State.fwCommit_f (s : State) (seq : Nat) (a : Nat) (sigs : PkgCheck) :
  (State.fwCommit s seq a sigs).f = s.f := by
  unfold State.fwCommit
  repeat' split
  all_goals simp

@[simp] theorem execFwCommitCancel_f (seq : Nat) (s : State) :
  Res.f (execFwCommitCancel seq s) = some s.f := by
  unfold execFwCommitCancel
  repeat' split
  all_goals simp

@[simp] theorem execFwCommitPending_f (seq : Nat) (sigs : PkgCheck) (s : State) :
  Res.f (execFwCommitPending seq sigs s) = some s.f := by
  simp [execFwCommitPending]

@[simp] theorem execFwCommitReset_f (seq : Nat) (sigs : PkgCheck) (s : State) :
  Res.f (execFwCommitReset seq sigs s) = some s.f := by
  simp [execFwCommitReset]

@[simp] theorem execTrialTimeout_f (s : State) :
  Res.f (execTrialTimeout s) = some s.f := by
  simp [execTrialTimeout]

@[simp] theorem execTempWarn_f (tj : Nat) (s : State) :
  Res.f (execTempWarn tj s) = some s.f := by
  simp [execTempWarn]

@[simp] theorem execTempWarnRearm_f (tj : Nat) (s : State) :
  Res.f (execTempWarnRearm tj s) = some s.f := by
  simp [execTempWarnRearm]

@[simp] theorem execSmbusStatusRead_f (s : State) :
  Res.f (execSmbusStatusRead s) = some s.f := by
  simp [execSmbusStatusRead]

@[simp] theorem execSmbusAddressWrite_f (addr : Word) (pecOk : Bool) (s : State) :
  Res.f (execSmbusAddressWrite addr pecOk s) = some s.f := by
  simp [execSmbusAddressWrite]

@[simp] theorem execSmbusBusTimeout_f (s : State) :
  Res.f (execSmbusBusTimeout s) = some s.f := by
  simp [execSmbusBusTimeout]

@[simp] theorem State.modSec_f (s : State) (g : Sec → Sec) :
  (State.modSec s g).f = s.f := by
  simp [State.modSec]

@[simp] theorem State.generated_f (s : State) :
  (State.generated s).f = s.f := by
  simp [State.generated]

@[simp] theorem State.extend_f (s : State) (i : Nat) (len : Nat) (v : Nat) :
  (State.extend s i len v).f = s.f := by
  simp [State.extend]

@[simp] theorem State.extendM3_f (s : State) :
  (State.extendM3 s).f = s.f := by
  simp [State.extendM3]

@[simp] theorem State.secEnd_f (s : State) (seq : Nat) (sc : Nat) (reason : Nat) (len : Nat) (data : Nat) :
  (State.secEnd s seq sc reason len data).f = s.f := by
  simp [State.secEnd]

@[simp] theorem State.secRefuse_f (s : State) (seq : Nat) (r : Nat) :
  (State.secRefuse s seq r).f = s.f := by
  simp [State.secRefuse]

@[simp] theorem State.secReply_f (s : State) (seq : Nat) (k : Cmd) (n : Nat) (data : Nat) :
  (State.secReply s seq k n data).f = s.f := by
  simp [State.secReply]

@[simp] theorem State.secInfo_f (s : State) (seq : Nat) (i : Nat) (size : Nat) (data : Nat) :
  (State.secInfo s seq i size data).f = s.f := by
  unfold State.secInfo
  repeat' split
  all_goals simp

@[simp] theorem execSecInfoDeviceNonce_f (seq : Nat) (s : State) :
  Res.f (execSecInfoDeviceNonce seq s) = some s.f := by
  simp [execSecInfoDeviceNonce]

@[simp] theorem execSecInfoEnvelopeKeys_f (seq : Nat) (s : State) :
  Res.f (execSecInfoEnvelopeKeys seq s) = some s.f := by
  simp [execSecInfoEnvelopeKeys]

@[simp] theorem execSecInfoCertChains_f (seq : Nat) (s : State) :
  Res.f (execSecInfoCertChains seq s) = some s.f := by
  simp [execSecInfoCertChains]

@[simp] theorem execSecInfoRangeTable_f (seq : Nat) (s : State) :
  Res.f (execSecInfoRangeTable seq s) = some s.f := by
  simp [execSecInfoRangeTable]

@[simp] theorem execSecInfoDebugNonce_f (seq : Nat) (s : State) :
  Res.f (execSecInfoDebugNonce seq s) = some s.f := by
  simp [execSecInfoDebugNonce]

@[simp] theorem execAttest_f (seq : Nat) (s : State) :
  Res.f (execAttest seq s) = some s.f := by
  unfold execAttest
  repeat' split
  all_goals simp

@[simp] theorem execGetRandom_f (seq : Nat) (s : State) :
  Res.f (execGetRandom seq s) = some s.f := by
  unfold execGetRandom
  repeat' split
  all_goals simp

@[simp] theorem State.newNonce_f (s : State) :
  (State.newNonce s).f = s.f := by
  simp [State.newNonce]

@[simp] theorem State.eraseData_f (s : State) (p : Nat → Nat → Bool) :
  (State.eraseData s p).f = s.f := by
  simp [State.eraseData]

@[simp] theorem State.rekey_f (s : State) (r : Nat) :
  (State.rekey s r).f = s.f := by
  simp [State.rekey]

@[simp] theorem State.eraseAll_f (s : State) :
  (State.eraseAll s).f = s.f := by
  simp [State.eraseAll]

@[simp] theorem whenOwned_f (g : State → Cmd → EnvRes → Nat × State) (s : State) (k : Cmd) (e : EnvRes) (h0 : ∀ s0 x1 x2, (g s0 x1 x2).2.f = s0.f) :
  (whenOwned g s k e).2.f = s.f := by
  unfold whenOwned
  simp
  repeat' (first | (simp; done) | intro _ | split | rw [State.when_f] | rw [whenOwned_f] | (simp_all; done))

@[simp] theorem State.setCred_f (s : State) (c : Nat) :
  (State.setCred s c).f = s.f := by
  simp [State.setCred]

@[simp] theorem State.putLock_f (s : State) (b : Bool) :
  (State.putLock s b).f = s.f := by
  simp [State.putLock]

@[simp] theorem State.disown_f (s : State) :
  (State.disown s).f = s.f := by
  simp [State.disown]

@[simp] theorem execMkDiscard_f (range : Fin 64) (s : State) :
  Res.f (execMkDiscard range s) = some s.f := by
  unfold execMkDiscard
  dsimp only
  repeat' (first | (simp; done) | intro _ | split | (simp_all; done))

@[simp] theorem State.newDbgNonce_f (s : State) :
  (State.newDbgNonce s).f = s.f := by
  simp [State.newDbgNonce]

@[simp] theorem State.lockAll_f (s : State) :
  (State.lockAll s).f = s.f := by
  simp [State.lockAll]

@[simp] theorem State.modRing_f (s : State) (g : Ring → Ring) :
  (State.modRing s g).f = s.f := by
  simp [State.modRing]

@[simp] theorem State.modRport_f (s : State) (p : Nat) (g : RPort → RPort) :
  (State.modRport s p g).f = s.f := by
  simp [State.modRport]

@[simp] theorem State.frameFail_f (s : State) (number : Nat) (r : RReq) :
  (State.frameFail s number r).f = s.f := by
  simp [State.frameFail]

@[simp] theorem State.useKey_f (s : State) (dst : Nat) (n : Nat) :
  (State.useKey s dst n).f = s.f := by
  unfold State.useKey
  repeat' split
  all_goals simp

@[simp] theorem execSegmentRetrainTimeout_f (east : Bool) (s : State) :
  Res.f (execSegmentRetrainTimeout east s) = some s.f := by
  simp [execSegmentRetrainTimeout]

@[simp] theorem State.freeSlot_f (s : State) (p : Nat) :
  (State.freeSlot s p).f = s.f := by
  simp [State.freeSlot]

@[simp] theorem execCreditReturn_f (east : Bool) (s : State) :
  Res.f (execCreditReturn east s) = some s.f := by
  simp [execCreditReturn]

@[simp] theorem execOldKeyExpiry_f (peer : Fin 32) (s : State) :
  Res.f (execOldKeyExpiry peer s) = some s.f := by
  unfold execOldKeyExpiry
  repeat' split
  all_goals simp

@[simp] theorem execKeyLimitStop_f (peer : Fin 32) (hours : Nat) (s : State) :
  Res.f (execKeyLimitStop peer hours s) = some s.f := by
  unfold execKeyLimitStop
  repeat' split
  all_goals simp

@[simp] theorem State.handRequest_f (s : State) (a : Nat) (n : Nat) :
  (State.handRequest s a n).f = s.f := by
  simp [State.handRequest]

@[simp] theorem execRingReadResp_f (src : Fin 32) (number : Nat) (data : Nat) (s : State) :
  Res.f (execRingReadResp src number data s) = some s.f := by
  unfold execRingReadResp
  repeat' split
  all_goals simp

@[simp] theorem State.putJnl_f (s : State) (i : Nat) (v : Nat) :
  (State.putJnl s i v).f = s.f := by
  simp [State.putJnl]

@[simp] theorem State.putReq_f (s : State) (id : Nat) (r : StripReq) :
  (State.putReq s id r).f = s.f := by
  simp [State.putReq]

@[simp] theorem State.clearLost_f (s : State) (slot : Nat) (chord : Nat) (b : Nat) (strip : Nat) :
  (State.clearLost s slot chord b strip).f = s.f := by
  simp [State.clearLost]

@[simp] theorem State.putOp_f (s : State) (jid : Nat) (o : ChordOp) :
  (State.putOp s jid o).f = s.f := by
  simp [State.putOp]

@[simp] theorem State.await_f (s : State) (jid : Nat) (ids : List Nat) :
  (State.await s jid ids).f = s.f := by
  unfold State.await
  repeat' split
  all_goals simp

@[simp] theorem State.putStrip_f (s : State) (lba : Nat) (v : Nat) :
  (State.putStrip s lba v).f = s.f := by
  simp [State.putStrip]

@[simp] theorem State.stripDo_f (s : State) (op : Nat) (slot : Nat) (chord : Nat) (first : Nat) (count : Nat) (jid : Nat) (c : Nat) (fail : Nat) (data : List (Option Nat)) :
  (State.stripDo s op slot chord first count jid c fail data).2.2.f = s.f := by
  unfold State.stripDo
  repeat' split
  all_goals simp

@[simp] theorem State.appendFail_f (s : State) (m : Nat) :
  (State.appendFail s m).f = s.f := by
  simp [State.appendFail]

@[simp] theorem execClaimReceive_f (member : Fin 32) (epoch : Nat) (s : State) :
  Res.f (execClaimReceive member epoch s) = some s.f := by
  simp [execClaimReceive]

@[simp] theorem State.modCore_f (s : State) (g : Cores → Cores) :
  (State.modCore s g).f = s.f := by
  simp [State.modCore]

@[simp] theorem execWatchdogKick_f (_value : Word) (s : State) :
  Res.f (execWatchdogKick _value s) = some s.f := by
  simp [execWatchdogKick]

@[simp] theorem State.l1Drop_f (s : State) (line : Nat) (keep : Option Nat) :
  (State.l1Drop s line keep).f = s.f := by
  simp [State.l1Drop]

@[simp] theorem State.l1Put_f (s : State) (core : Nat) (inst : Bool) (line : Nat) (data : Nat) (pos : Nat) (word : Nat → Bool) :
  (State.l1Put s core inst line data pos word).f = s.f := by
  simp [State.l1Put]

@[simp] theorem State.l1Fill_f (s : State) (core : Nat) (inst : Bool) (line : Nat) (data : Nat) :
  (State.l1Fill s core inst line data).f = s.f := by
  unfold State.l1Fill
  repeat' split
  all_goals simp

@[simp] theorem State.l2Rewrite_f (s : State) (k : Nat) :
  (State.l2Rewrite s k).f = s.f := by
  simp [State.l2Rewrite]

@[simp] theorem State.l2Put_f (s : State) (k : Nat) (l : L2Line) :
  (State.l2Put s k l).f = s.f := by
  simp [State.l2Put]

@[simp] theorem State.l2Drop_f (s : State) (k : Nat) :
  (State.l2Drop s k).f = s.f := by
  unfold State.l2Drop
  repeat' split
  all_goals simp

@[simp] theorem State.startStep_f (s : State) (n : Nat) (g : State → State) (h0 : ∀ s0, (g s0).f = s0.f) :
  (State.startStep s n g).f = s.f := by
  unfold State.startStep
  simp
  repeat' (first | (simp; done) | intro _ | split | rw [State.startStep_f] | (simp_all; done))

@[simp] theorem execPllLock_f (s : State) :
  Res.f (execPllLock s) = some s.f := by
  simp [execPllLock]

@[simp] theorem execNutStart_f (s : State) :
  Res.f (execNutStart s) = some s.f := by
  simp [execNutStart]

@[simp] theorem State.eraseStaging_f (s : State) :
  (State.eraseStaging s).f = s.f := by
  simp [State.eraseStaging]

@[simp] theorem State.installActive_f (s : State) :
  (State.installActive s).f = s.f := by
  simp [State.installActive]

@[simp] theorem State.install_f (s : State) :
  (State.install s).f = s.f := by
  simp [State.install]

@[simp] theorem State.restoreFallback_f (s : State) :
  (State.restoreFallback s).f = s.f := by
  simp [State.restoreFallback]

@[simp] theorem State.bootSlot_f (s : State) (k : Nat) (p : FwPkg) :
  (State.bootSlot s k p).f = s.f := by
  simp [State.bootSlot]

@[simp] theorem State.startKeys_f (s : State) :
  (State.startKeys s).f = s.f := by
  simp [State.startKeys]

@[simp] theorem State.copyStore_f (s : State) :
  (State.copyStore s).f = s.f := by
  simp [State.copyStore]

@[simp] theorem State.queueRestored_f (s : State) :
  (State.queueRestored s).f = s.f := by
  simp [State.queueRestored]

@[simp] theorem State.restoreFrom_f (s : State) (n : SaveArea) (fn : SaveRead) (old : Option (SaveArea × SaveRead)) :
  (State.restoreFrom s n fn old).f = s.f := by
  simp [State.restoreFrom]

@[simp] theorem execRelocation_f (nsid : Nat) (lba : Nat) (member : Nat) (row : List RowTrack) (spareRows : List RowTrack) (s : State) :
  Res.f (execRelocation nsid lba member row spareRows s) = some s.f := by
  unfold execRelocation
  repeat' split
  all_goals simp

@[simp] theorem resState_f (r : Res) (s : State) (h : Res.f r = some s.f) : (resState r s).f = s.f := by
  unfold resState
  split
  · simpa using h
  · rfl

@[simp] theorem State.latch64_f (s : State) (a : Nat) :
  (State.latch64 s a).f = s.f := by
  simp [State.latch64]

@[simp] theorem State.peek_f (s : State) (a : Nat) :
  (State.peek s a).f = s.f := by
  unfold State.peek
  repeat' split
  all_goals simp

@[simp] theorem execSmbusRegisterRead_f (s : State) :
  Res.f (execSmbusRegisterRead s) = some s.f := by
  simp [execSmbusRegisterRead]

end Sys2Proof.Machine
end

