-- ==== Sys2Proof/Laws/Queue.lean ====
section
/-! SUPPORT. No operation and no meaning touches the queue of waiting commands: one lemma each. -/

set_option linter.all false
set_option maxRecDepth 4000

namespace Sys2Proof.Machine

/-- The `pending` of a meaning's next state. -/
def Res.pending (r : Res) : Option (List Instr) := match r with | .next t => some t.pending | _ => none

@[simp] theorem Res.pending_next (t : State) : Res.pending (.next t) = some t.pending := rfl

@[simp] theorem State.ite_pending (c : Prop) [Decidable c] (a b : State) : (if c then a else b).pending = if c then a.pending else b.pending := apply_ite _ _ _ _

@[simp] theorem State.iteSnd_pending {α : Type} (c : Prop) [Decidable c] (a b : α × State) : (if c then a else b).2.pending = if c then a.2.pending else b.2.pending := by split <;> rfl

@[simp] theorem State.iteSnd2_pending {α β : Type} (c : Prop) [Decidable c] (a b : α × β × State) : (if c then a else b).2.2.pending = if c then a.2.2.pending else b.2.2.pending := by split <;> rfl

@[simp] theorem State.foldl_pending {α : Type} (g : State → α → State) (xs : List α) (s : State) (h : ∀ s x, (g s x).pending = s.pending) : (xs.foldl g s).pending = s.pending := by
  induction xs generalizing s with
  | nil => rfl
  | cons x xs ih => simp [ih, h]

@[simp] theorem State.foldlp_pending {α β : Type} (g : β × State → α → β × State) (xs : List α) (s : β × State) (h : ∀ s x, (g s x).2.pending = s.2.pending) : (xs.foldl g s).2.pending = s.2.pending := by
  induction xs generalizing s with
  | nil => rfl
  | cons x xs ih => simp [ih, h]

@[simp] theorem State.foldlp2_pending {α β γ : Type} (g : γ × β × State → α → γ × β × State) (xs : List α) (s : γ × β × State) (h : ∀ s x, (g s x).2.2.pending = s.2.2.pending) : (xs.foldl g s).2.2.pending = s.2.2.pending := by
  induction xs generalizing s with
  | nil => rfl
  | cons x xs ih => simp [ih, h]

@[simp] theorem State.put_pending (s : State) (F : Field) (v : Nat) :
  (State.put s F v).pending = s.pending := by
  simp [State.put]

@[simp] theorem State.putB_pending (s : State) (F : Field) (b : Bool) :
  (State.putB s F b).pending = s.pending := by
  simp [State.putB]

@[simp] theorem State.clear_pending (s : State) (F : Field) :
  (State.clear s F).pending = s.pending := by
  simp [State.clear]

@[simp] theorem State.incBy_pending (s : State) (F : Field) (n : Nat) :
  (State.incBy s F n).pending = s.pending := by
  simp [State.incBy]

@[simp] theorem State.inc_pending (s : State) (F : Field) :
  (State.inc s F).pending = s.pending := by
  simp [State.inc]

@[simp] theorem State.setBitOf_pending (s : State) (F : Field) (i : Nat) :
  (State.setBitOf s F i).pending = s.pending := by
  simp [State.setBitOf]

@[simp] theorem State.clrBitOf_pending (s : State) (F : Field) (i : Nat) :
  (State.clrBitOf s F i).pending = s.pending := by
  simp [State.clrBitOf]

@[simp] theorem State.reject_pending (s : State) (err : Field) (code : Field) (c : Nat) :
  (State.reject s err code c).pending = s.pending := by
  simp [State.reject]

@[simp] theorem State.put64_pending (s : State) (lo : Field) (hi : Field) (v : Nat) :
  (State.put64 s lo hi v).pending = s.pending := by
  simp [State.put64]

@[simp] theorem State.when_pending (s : State) (b : Bool) (g : State → State) (h0 : ∀ s0, (g s0).pending = s0.pending) :
  (State.when s b g).pending = s.pending := by
  unfold State.when; split <;> simp [*]

@[simp] theorem State.each_pending {α : Type} (s : State) (xs : List α) (g : State → α → State) (h0 : ∀ s0 x1, (g s0 x1).pending = s0.pending) :
  (State.each s xs g).pending = s.pending := by
  unfold State.each; simp [*]

@[simp] theorem State.emit_pending (s : State) (o : Out) :
  (State.emit s o).pending = s.pending := by
  simp [State.emit]

@[simp] theorem State.answer_pending (s : State) (r : Resp) :
  (State.answer s r).pending = s.pending := by
  simp [State.answer]

@[simp] theorem State.draw_pending (s : State) (n : Nat) :
  (State.draw s n).pending = s.pending := by
  simp [State.draw]

@[simp] theorem State.setByte_pending (s : State) (a : Nat) (b : Byte) :
  (State.setByte s a b).pending = s.pending := by
  simp [State.setByte]

@[simp] theorem State.storeMem_pending (s : State) (a : Nat) (v : Nat) (n : Nat) :
  (State.storeMem s a v n).pending = s.pending := by
  simp [State.storeMem]

@[simp] theorem State.setF_pending (s : State) (x : SMap Nat) :
  (State.setF s x).pending = s.pending := by
  simp [State.setF]

@[simp] theorem State.setHeld_pending (s : State) (x : SMap Nat) :
  (State.setHeld s x).pending = s.pending := by
  simp [State.setHeld]

@[simp] theorem State.setShadow_pending (s : State) (x : SMap Nat) :
  (State.setShadow s x).pending = s.pending := by
  simp [State.setShadow]

@[simp] theorem State.setMem_pending (s : State) (x : List Host.Cell) :
  (State.setMem s x).pending = s.pending := by
  simp [State.setMem]

@[simp] theorem State.setChk_pending (s : State) (x : SMap Nat) :
  (State.setChk s x).pending = s.pending := by
  simp [State.setChk]

@[simp] theorem State.setPwr_pending (s : State) (x : Power) :
  (State.setPwr s x).pending = s.pending := by
  simp [State.setPwr]

@[simp] theorem State.setEvr_pending (s : State) (x : Evr) :
  (State.setEvr s x).pending = s.pending := by
  simp [State.setEvr]

@[simp] theorem State.setBuf_pending (s : State) (x : Buf) :
  (State.setBuf s x).pending = s.pending := by
  simp [State.setBuf]

@[simp] theorem State.setSpt_pending (s : State) (x : Spt) :
  (State.setSpt s x).pending = s.pending := by
  simp [State.setSpt]

@[simp] theorem State.setMedia_pending (s : State) (x : Media) :
  (State.setMedia s x).pending = s.pending := by
  simp [State.setMedia]

@[simp] theorem State.setPool_pending (s : State) (x : Pool) :
  (State.setPool s x).pending = s.pending := by
  simp [State.setPool]

@[simp] theorem State.setShock_pending (s : State) (x : Shock) :
  (State.setShock s x).pending = s.pending := by
  simp [State.setShock]

@[simp] theorem State.setRefHead_pending (s : State) (x : RefHead) :
  (State.setRefHead s x).pending = s.pending := by
  simp [State.setRefHead]

@[simp] theorem State.setCmds_pending (s : State) (x : SMap Cmd) :
  (State.setCmds s x).pending = s.pending := by
  simp [State.setCmds]

@[simp] theorem State.setCache_pending (s : State) (x : SMap CacheBlk) :
  (State.setCache s x).pending = s.pending := by
  simp [State.setCache]

@[simp] theorem State.setIqiEv_pending (s : State) (x : SMap (List (Nat × Nat))) :
  (State.setIqiEv s x).pending = s.pending := by
  simp [State.setIqiEv]

@[simp] theorem State.setDeferNs_pending (s : State) (x : List Nat) :
  (State.setDeferNs s x).pending = s.pending := by
  simp [State.setDeferNs]

@[simp] theorem State.setFeat_pending (s : State) (x : SMap Nat) :
  (State.setFeat s x).pending = s.pending := by
  simp [State.setFeat]

@[simp] theorem State.setFeatSaved_pending (s : State) (x : SMap Nat) :
  (State.setFeatSaved s x).pending = s.pending := by
  simp [State.setFeatSaved]

@[simp] theorem State.setPesSrc_pending (s : State) (x : Nat) :
  (State.setPesSrc s x).pending = s.pending := by
  simp [State.setPesSrc]

@[simp] theorem State.setCmpSrc_pending (s : State) (x : Nat) :
  (State.setCmpSrc s x).pending = s.pending := by
  simp [State.setCmpSrc]

@[simp] theorem State.setLaneIn_pending (s : State) (x : SMap (List Sample)) :
  (State.setLaneIn s x).pending = s.pending := by
  simp [State.setLaneIn]

@[simp] theorem State.setGrps_pending (s : State) (x : SMap Grps) :
  (State.setGrps s x).pending = s.pending := by
  simp [State.setGrps]

@[simp] theorem State.setPorts_pending (s : State) (x : SMap Port) :
  (State.setPorts s x).pending = s.pending := by
  simp [State.setPorts]

@[simp] theorem State.setWinStaged_pending (s : State) (x : SMap Nat) :
  (State.setWinStaged s x).pending = s.pending := by
  simp [State.setWinStaged]

@[simp] theorem State.setWinLive_pending (s : State) (x : SMap WinLive) :
  (State.setWinLive s x).pending = s.pending := by
  simp [State.setWinLive]

@[simp] theorem State.setAts_pending (s : State) (x : List AtsEntry) :
  (State.setAts s x).pending = s.pending := by
  simp [State.setAts]

@[simp] theorem State.setAtsReq_pending (s : State) (x : List AtsReq) :
  (State.setAtsReq s x).pending = s.pending := by
  simp [State.setAtsReq]

@[simp] theorem State.setAtsInv_pending (s : State) (x : List (Nat × Nat)) :
  (State.setAtsInv s x).pending = s.pending := by
  simp [State.setAtsInv]

@[simp] theorem State.setPairs_pending (s : State) (x : SMap Pair) :
  (State.setPairs s x).pending = s.pending := by
  simp [State.setPairs]

@[simp] theorem State.setNextSeq_pending (s : State) (x : Nat) :
  (State.setNextSeq s x).pending = s.pending := by
  simp [State.setNextSeq]

@[simp] theorem State.setLastPort_pending (s : State) (x : Nat) :
  (State.setLastPort s x).pending = s.pending := by
  simp [State.setLastPort]

@[simp] theorem State.setFetchStop_pending (s : State) (x : Bool) :
  (State.setFetchStop s x).pending = s.pending := by
  simp [State.setFetchStop]

@[simp] theorem State.setAdm_pending (s : State) (x : Admin) :
  (State.setAdm s x).pending = s.pending := by
  simp [State.setAdm]

@[simp] theorem State.setSec_pending (s : State) (x : Sec) :
  (State.setSec s x).pending = s.pending := by
  simp [State.setSec]

@[simp] theorem State.setChd_pending (s : State) (x : Chd) :
  (State.setChd s x).pending = s.pending := by
  simp [State.setChd]

@[simp] theorem State.modSpn_pending (s : State) (g : Spn → Spn) :
  (State.modSpn s g).pending = s.pending := by
  simp [State.modSpn]

@[simp] theorem State.modPwr_pending (s : State) (g : Power → Power) :
  (State.modPwr s g).pending = s.pending := by
  simp [State.modPwr]

@[simp] theorem State.putDom_pending (s : State) (d : Nat) (x : DomSt) :
  (State.putDom s d x).pending = s.pending := by
  simp [State.putDom]

@[simp] theorem State.settleDoms_pending (s : State) :
  (State.settleDoms s).pending = s.pending := by
  simp [State.settleDoms]

@[simp] theorem State.putReqWords_pending (s : State) (w : Nat) :
  (State.putReqWords s w).pending = s.pending := by
  simp [State.putReqWords]

@[simp] theorem State.withdraw_pending (s : State) (keep : Nat → Bool) :
  (State.withdraw s keep).pending = s.pending := by
  simp [State.withdraw]

@[simp] theorem State.restoreReqs_pending (s : State) :
  (State.restoreReqs s).pending = s.pending := by
  simp [State.restoreReqs]

@[simp] theorem State.charge_pending (s : State) (cls : Nat) (n : Nat) :
  (State.charge s cls n).pending = s.pending := by
  simp [State.charge]

@[simp] theorem State.fixBurst_pending (s : State) (b : Nat) (p : Nat) (v : Nat) :
  (State.fixBurst s b p v).pending = s.pending := by
  simp [State.fixBurst]

@[simp] theorem State.readBurst_pending (s : State) (b : Nat) :
  (State.readBurst s b).2.pending = s.pending := by
  unfold State.readBurst
  repeat' split
  all_goals simp

@[simp] theorem State.readBursts_pending (s : State) (y1 : List Nat) :
  (State.readBursts s y1).2.pending = s.pending := by
  induction y1 generalizing s with
  | nil => rfl
  | cons x xs ih => simp [State.readBursts, ih]

@[simp] theorem State.bufRead_pending (s : State) (cls : Nat) (a : Nat) (n : Nat) :
  (State.bufRead s cls a n).2.pending = s.pending := by
  simp [State.bufRead]

@[simp] theorem State.writeBurst_pending (s : State) (b : Nat) (lo : Nat) (hi : Nat) (v : Nat) :
  (State.writeBurst s b lo hi v).2.pending = s.pending := by
  simp [State.writeBurst]

@[simp] theorem State.writeBursts_pending (s : State) (a : Nat) (n : Nat) (v : Nat) (y4 : List Nat) :
  (State.writeBursts s a n v y4).2.pending = s.pending := by
  induction y4 generalizing s with
  | nil => rfl
  | cons x xs ih => simp [State.writeBursts, ih]

@[simp] theorem State.bufWrite_pending (s : State) (cls : Nat) (a : Nat) (v : Nat) (n : Nat) :
  (State.bufWrite s cls a v n).2.pending = s.pending := by
  simp [State.bufWrite]

@[simp] theorem State.zeroBursts_pending (s : State) (bs : List Nat) :
  (State.zeroBursts s bs).pending = s.pending := by
  simp [State.zeroBursts]

@[simp] theorem State.serveReq_pending (s : State) (q : HbmReq) :
  (State.serveReq s q).pending = s.pending := by
  unfold State.serveReq
  dsimp only
  repeat' (first | (simp; done) | intro _ | split | (simp_all; done))

@[simp] theorem State.serve_pending (s : State) (y1 : Nat) :
  (State.serve s y1).pending = s.pending := by
  fun_induction State.serve <;> simp_all

@[simp] theorem State.serveHeld_pending (s : State) :
  (State.serveHeld s).pending = s.pending := by
  simp [State.serveHeld]

@[simp] theorem State.request_pending (s : State) (q : HbmReq) :
  (State.request s q).pending = s.pending := by
  simp [State.request]

@[simp] theorem execHbmRead_pending (cls : BufClass) (burst : Nat) (s : State) :
  Res.pending (execHbmRead cls burst s) = some s.pending := by
  simp [execHbmRead]

@[simp] theorem execHbmPartialWrite_pending (cls : BufClass) (addr : Nat) (len : Nat) (data : Nat) (s : State) :
  Res.pending (execHbmPartialWrite cls addr len data s) = some s.pending := by
  simp [execHbmPartialWrite]

@[simp] theorem execArbitrationRound_pending (s : State) :
  Res.pending (execArbitrationRound s) = some s.pending := by
  simp [execArbitrationRound]

@[simp] theorem execHbmRefresh_pending (s : State) :
  Res.pending (execHbmRefresh s) = some s.pending := by
  simp [execHbmRefresh]

@[simp] theorem execHbmHot_pending (temp : Nat) (s : State) :
  Res.pending (execHbmHot temp s) = some s.pending := by
  simp [execHbmHot]

@[simp] theorem execPprRequest_pending (value : Word) (s : State) :
  Res.pending (execPprRequest value s) = some s.pending := by
  simp [execPprRequest]

@[simp] theorem execPprDone_pending (failed : Bool) (s : State) :
  Res.pending (execPprDone failed s) = some s.pending := by
  unfold execPprDone
  repeat' split
  all_goals simp

@[simp] theorem State.rawStore_pending (s : State) (b : Nat) :
  (State.rawStore s b).pending = s.pending := by
  unfold State.rawStore
  rw [State.setChk_pending, State.storeMem_pending]

@[simp] theorem State.rawStart_pending (s : State) (op : RawOp) :
  (State.rawStart s op).pending = s.pending := by
  unfold State.rawStart
  dsimp only
  repeat' split
  all_goals first | (cases op <;> simp; done) | simp

@[simp] theorem execRawRead_pending (s : State) :
  Res.pending (execRawRead s) = some s.pending := by
  simp [execRawRead]

@[simp] theorem execRawWrite_pending (s : State) :
  Res.pending (execRawWrite s) = some s.pending := by
  simp [execRawWrite]

@[simp] theorem execRawOpDone_pending (s : State) :
  Res.pending (execRawOpDone s) = some s.pending := by
  unfold execRawOpDone
  repeat' split
  all_goals simp

@[simp] theorem State.scrubGo_pending (s : State) (target : Nat) (pos : Nat) :
  (State.scrubGo s target pos).pending = s.pending := by
  simp [State.scrubGo]

@[simp] theorem execScrubStart_pending (s : State) :
  Res.pending (execScrubStart s) = some s.pending := by
  simp [execScrubStart]

@[simp] theorem execSramSweepStart_pending (s : State) :
  Res.pending (execSramSweepStart s) = some s.pending := by
  simp [execSramSweepStart]

@[simp] theorem State.scrubFirst_pending (s : State) (w : Nat) :
  (State.scrubFirst s w).pending = s.pending := by
  simp [State.scrubFirst]

@[simp] theorem State.scrubBurst_pending (s : State) (b : Nat) :
  (State.scrubBurst s b).pending = s.pending := by
  unfold State.scrubBurst
  repeat' split
  all_goals simp

@[simp] theorem State.scrubRange_pending (s : State) (a : Nat) (e : Nat) :
  (State.scrubRange s a e).pending = s.pending := by
  simp [State.scrubRange]

@[simp] theorem State.sramRewrite_pending (s : State) (inst : Nat) (word : Nat) :
  (State.sramRewrite s inst word).pending = s.pending := by
  simp [State.sramRewrite]

@[simp] theorem State.sramRead_pending (s : State) (inst : Nat) (word : Nat) :
  (State.sramRead s inst word).2.pending = s.pending := by
  unfold State.sramRead
  repeat' split
  all_goals simp

@[simp] theorem State.sramReadAll_pending (s : State) (inst : Nat) (y2 : List Nat) :
  (State.sramReadAll s inst y2).2.pending = s.pending := by
  induction y2 generalizing s with
  | nil => rfl
  | cons x xs ih => simp [State.sramReadAll, ih]

@[simp] theorem State.sramWritten_pending (s : State) (inst : Nat) (p : Nat → Bool) :
  (State.sramWritten s inst p).pending = s.pending := by
  simp [State.sramWritten]

@[simp] theorem State.sramUse_pending (s : State) (inst : Nat) (p : Nat → Bool) :
  (State.sramUse s inst p).2.pending = s.pending := by
  unfold State.sramUse
  simp
  repeat' (first | (simp; done) | intro _ | split | rw [State.each_pending] | rw [State.when_pending] | rw [State.foldl_pending] | rw [State.foldlp_pending] | rw [State.foldlp2_pending] | (simp_all; done))

@[simp] theorem State.sweepWord_pending (s : State) (k : Nat) :
  (State.sweepWord s k).pending = s.pending := by
  unfold State.sweepWord
  dsimp only
  repeat' (first | (simp; done) | intro _ | split | (simp_all; done))

@[simp] theorem State.scrubTo_pending (s : State) (reached : Nat) :
  (State.scrubTo s reached).pending = s.pending := by
  simp [State.scrubTo]

@[simp] theorem execScrubStop_pending (reached : Nat) (s : State) :
  Res.pending (execScrubStop reached s) = some s.pending := by
  simp [execScrubStop]

@[simp] theorem execScrubDone_pending (s : State) :
  Res.pending (execScrubDone s) = some s.pending := by
  simp [execScrubDone]

@[simp] theorem execFlipArm_pending (value : Word) (s : State) :
  Res.pending (execFlipArm value s) = some s.pending := by
  simp [execFlipArm]

@[simp] theorem execFlipApply_pending (word : Nat) (s : State) :
  Res.pending (execFlipApply word s) = some s.pending := by
  simp [execFlipApply]

@[simp] theorem State.putBuckets_pending (s : State) (b : SMap Bucket) :
  (State.putBuckets s b).pending = s.pending := by
  simp [State.putBuckets]

@[simp] theorem State.putBucket_pending (s : State) (code : Nat) (b : Bucket) :
  (State.putBucket s code b).pending = s.pending := by
  simp [State.putBucket]

@[simp] theorem State.rateLimit_pending (s : State) (code : Nat) (severity : Nat) :
  (State.rateLimit s code severity).2.pending = s.pending := by
  unfold State.rateLimit
  repeat' split
  all_goals simp

@[simp] theorem State.ringRecord_pending (s : State) (r : EvRec) :
  (State.ringRecord s r).pending = s.pending := by
  simp [State.ringRecord]

@[simp] theorem State.place_pending (s : State) (r : EvRec) :
  (State.place s r).pending = s.pending := by
  simp [State.place]

@[simp] theorem State.wait_pending (s : State) (r : EvRec) :
  (State.wait s r).pending = s.pending := by
  simp [State.wait]

@[simp] theorem State.raiseWith_pending (s : State) (code : Nat) (severity : Option Nat) (unit : Nat) (payload : Option Nat) :
  (State.raiseWith s code severity unit payload).pending = s.pending := by
  unfold State.raiseWith
  dsimp only
  repeat' (first | (simp; done) | intro _ | split | (simp_all; done))

@[simp] theorem State.placeHeld_pending (s : State) :
  (State.placeHeld s).pending = s.pending := by
  simp [State.placeHeld]

@[simp] theorem State.raise_pending (s : State) (code : Nat) (unit : Nat) :
  (State.raise s code unit).pending = s.pending := by
  simp [State.raise]

@[simp] theorem State.raiseNamed_pending (s : State) (code : Nat) (unit : Nat) (names : List Nat) :
  (State.raiseNamed s code unit names).pending = s.pending := by
  simp [State.raiseNamed]

@[simp] theorem execEventRaise_pending (code : Nat) (severity : Nat) (unit : Nat) (s : State) :
  Res.pending (execEventRaise code severity unit s) = some s.pending := by
  simp [execEventRaise]

@[simp] theorem execEvrRaiseWrite_pending (req : Fin 5) (value : Word) (s : State) :
  Res.pending (execEvrRaiseWrite req value s) = some s.pending := by
  simp [execEvrRaiseWrite]

@[simp] theorem execBucketRefill_pending (code : Nat) (s : State) :
  Res.pending (execBucketRefill code s) = some s.pending := by
  unfold execBucketRefill
  repeat' split
  all_goals simp

@[simp] theorem execEventArchive_pending (s : State) :
  Res.pending (execEventArchive s) = some s.pending := by
  simp [execEventArchive]

@[simp] theorem State.rebucket_pending (s : State) (old : Nat → Nat) :
  (State.rebucket s old).pending = s.pending := by
  simp [State.rebucket]

@[simp] theorem State.evrCtl_pending (s : State) (v : Nat) :
  (State.evrCtl s v).pending = s.pending := by
  simp [State.evrCtl]

@[simp] theorem execEvrEnable_pending (value : Word) (s : State) :
  Res.pending (execEvrEnable value s) = some s.pending := by
  simp [execEvrEnable]

@[simp] theorem State.putRl_pending (s : State) (e : RlEntry) :
  (State.putRl s e).pending = s.pending := by
  simp [State.putRl]

@[simp] theorem execRateLimitWrite_pending (offset : Nat) (value : Word) (s : State) :
  Res.pending (execRateLimitWrite offset value s) = some s.pending := by
  simp [execRateLimitWrite]

@[simp] theorem State.modPort_pending (s : State) (p : Nat) (g : Port → Port) :
  (State.modPort s p g).pending = s.pending := by
  simp [State.modPort]

@[simp] theorem State.wake_pending (s : State) (p : Nat) :
  (State.wake s p).pending = s.pending := by
  simp [State.wake]

@[simp] theorem State.linkNarrow_pending (s : State) (p : Nat) :
  (State.linkNarrow s p).pending = s.pending := by
  simp [State.linkNarrow]

@[simp] theorem State.linkWiden_pending (s : State) (p : Nat) :
  (State.linkWiden s p).pending = s.pending := by
  unfold State.linkWiden
  repeat' split
  all_goals simp

@[simp] theorem State.commit_pending (s : State) (seq : Nat) (c : Cpl) :
  (State.commit s seq c).pending = s.pending := by
  unfold State.commit
  repeat' split
  all_goals simp

@[simp] theorem State.putEv_pending (s : State) (port : Nat) (l : List (Nat × Nat)) :
  (State.putEv s port l).pending = s.pending := by
  simp [State.putEv]

@[simp] theorem State.reportEvent_pending (s : State) (port : Nat) :
  (State.reportEvent s port).pending = s.pending := by
  unfold State.reportEvent
  repeat' split
  all_goals simp

@[simp] theorem State.queueEvent_pending (s : State) (port : Nat) (ty : Nat) (info : Nat) :
  (State.queueEvent s port ty info).pending = s.pending := by
  simp [State.queueEvent]

@[simp] theorem State.queueEventAll_pending (s : State) (ty : Nat) (info : Nat) :
  (State.queueEventAll s ty info).pending = s.pending := by
  simp [State.queueEventAll]

@[simp] theorem State.health_pending (s : State) (c : Nat) :
  (State.health s c).pending = s.pending := by
  simp [State.health]

@[simp] theorem State.putRange_pending (s : State) (r : Nat) (x : KRange) :
  (State.putRange s r x).pending = s.pending := by
  simp [State.putRange]

@[simp] theorem State.putWindow_pending (s : State) (w : SMap WinEntry) :
  (State.putWindow s w).pending = s.pending := by
  simp [State.putWindow]

@[simp] theorem State.freeWin_pending (s : State) (i : Nat) :
  (State.freeWin s i).pending = s.pending := by
  simp [State.freeWin]

@[simp] theorem State.dropWin_pending (s : State) (i : Nat) :
  (State.dropWin s i).pending = s.pending := by
  simp [State.dropWin]

@[simp] theorem State.holdWin_pending (s : State) (i : Nat) :
  (State.holdWin s i).pending = s.pending := by
  unfold State.holdWin
  repeat' split
  all_goals simp

@[simp] theorem State.freeHeld_pending (s : State) (nsid : Nat) (lba : Nat) (older : Nat → WinEntry → Bool) :
  (State.freeHeld s nsid lba older).pending = s.pending := by
  simp [State.freeHeld]

@[simp] theorem State.putMeta_pending (s : State) (g : Spt → Spt) :
  (State.putMeta s g).pending = s.pending := by
  simp [State.putMeta]

@[simp] theorem State.unfail_pending (s : State) (nsid : Nat) (lba : Nat) :
  (State.unfail s nsid lba).pending = s.pending := by
  simp [State.unfail]

@[simp] theorem State.markFailed_pending (s : State) (nsid : Nat) (lba : Nat) (sc : Nat) :
  (State.markFailed s nsid lba sc).pending = s.pending := by
  simp [State.markFailed]

@[simp] theorem State.blockDone_pending (s : State) (addr : Nat) :
  (State.blockDone s addr).pending = s.pending := by
  unfold State.blockDone
  repeat' split
  all_goals simp

@[simp] theorem State.blockWritten_pending (s : State) (addr : Nat) :
  (State.blockWritten s addr).pending = s.pending := by
  unfold State.blockWritten
  repeat' split
  all_goals simp

@[simp] theorem State.readBack_pending (s : State) (lo : Nat) :
  (State.readBack s lo).pending = s.pending := by
  simp [State.readBack]

@[simp] theorem State.deferError_pending (s : State) (addr : Nat) (b : CacheBlk) (sc : Nat) :
  (State.deferError s addr b sc).pending = s.pending := by
  simp [State.deferError]

@[simp] theorem State.lostBlock_pending (s : State) (addr : Nat) (b : CacheBlk) (sc : Nat) :
  (State.lostBlock s addr b sc).pending = s.pending := by
  simp [State.lostBlock]

@[simp] theorem State.blockFailed_pending (s : State) (addr : Nat) (sc : Nat) :
  (State.blockFailed s addr sc).pending = s.pending := by
  unfold State.blockFailed
  repeat' split
  all_goals simp

@[simp] theorem State.putSlot_pending (s : State) (i : Nat) (x : Slot) :
  (State.putSlot s i x).pending = s.pending := by
  simp [State.putSlot]

@[simp] theorem State.modSlot_pending (s : State) (i : Nat) (g : Slot → Slot) :
  (State.modSlot s i g).pending = s.pending := by
  simp [State.modSlot]

@[simp] theorem State.putFmt_pending (s : State) (a : Nat) (x : Fmt) :
  (State.putFmt s a x).pending = s.pending := by
  simp [State.putFmt]

@[simp] theorem State.modFmt_pending (s : State) (a : Nat) (g : Fmt → Fmt) :
  (State.modFmt s a g).pending = s.pending := by
  simp [State.modFmt]

@[simp] theorem State.putThread_pending (s : State) (a : Nat) (j : Nat) (t : Thread) :
  (State.putThread s a j t).pending = s.pending := by
  simp [State.putThread]

@[simp] theorem State.putPa_pending (s : State) (a : Nat) (x : PaLink) :
  (State.putPa s a x).pending = s.pending := by
  simp [State.putPa]

@[simp] theorem State.putLane_pending (s : State) (a : Nat) (x : Lane) :
  (State.putLane s a x).pending = s.pending := by
  simp [State.putLane]

@[simp] theorem State.modLane_pending (s : State) (a : Nat) (g : Lane → Lane) :
  (State.modLane s a g).pending = s.pending := by
  simp [State.modLane]

@[simp] theorem State.putSrc_pending (s : State) (i : Nat) (x : Src) :
  (State.putSrc s i x).pending = s.pending := by
  simp [State.putSrc]

@[simp] theorem State.setSrcState_pending (s : State) (i : Nat) (v : Nat) :
  (State.setSrcState s i v).pending = s.pending := by
  simp [State.setSrcState]

@[simp] theorem State.paNext_pending (s : State) (a : Nat) :
  (State.paNext s a).pending = s.pending := by
  unfold State.paNext
  dsimp only
  repeat' (first | (simp; done) | intro _ | split | (simp_all; done))

@[simp] theorem State.paMember_pending (s : State) (a : Nat) (fs : List PaFrame) :
  (State.paMember s a fs).pending = s.pending := by
  simp [State.paMember]

@[simp] theorem State.paFast_pending (s : State) (a : Nat) (fs : List PaFrame) :
  (State.paFast s a fs).pending = s.pending := by
  simp [State.paFast]

@[simp] theorem State.paDrop_pending (s : State) (a : Nat) (j : Nat) :
  (State.paDrop s a j).pending = s.pending := by
  simp [State.paDrop]

@[simp] theorem State.arrive_pending (s : State) (i : Nat) (h : Nat) (wedge : Nat) (flags : Nat) (pair : Nat) (y : Int) :
  (State.arrive s i h wedge flags pair y).pending = s.pending := by
  simp [State.arrive]

@[simp] theorem State.deliverSample_pending (s : State) (i : Nat) (h : Nat) (wedge : Nat) (flags : Nat) (pos : Option (Nat × Int)) :
  (State.deliverSample s i h wedge flags pos).pending = s.pending := by
  simp [State.deliverSample]

@[simp] theorem State.lastSample_pending (s : State) (i : Nat) :
  (State.lastSample s i).pending = s.pending := by
  unfold State.lastSample
  repeat' split
  all_goals simp

@[simp] theorem State.fixRefs_pending (s : State) (i : Nat) :
  (State.fixRefs s i).pending = s.pending := by
  simp [State.fixRefs]

@[simp] theorem State.modRun_pending (s : State) (a : Nat) (rid : Nat) (g : Run → Run) :
  (State.modRun s a rid g).pending = s.pending := by
  simp [State.modRun]

@[simp] theorem State.writeStatus_pending (s : State) (addr : Nat) (st : Nat) :
  (State.writeStatus s addr st).pending = s.pending := by
  unfold State.writeStatus
  dsimp only
  repeat' (first | (simp; done) | intro _ | split | (simp_all; done))

@[simp] theorem State.finalStatus_pending (s : State) (a : Nat) (rid : Nat) (idx : Nat) (st : Nat) :
  (State.finalStatus s a rid idx st).pending = s.pending := by
  unfold State.finalStatus
  dsimp only
  repeat' (first | (simp; done) | intro _ | split | (simp_all; done))

@[simp] theorem State.missSector_pending (s : State) (a : Nat) (rid : Nat) (idx : Nat) (limited : Bool) :
  (State.missSector s a rid idx limited).pending = s.pending := by
  unfold State.missSector
  dsimp only
  repeat' (first | (simp; done) | intro _ | split | (simp_all; done))

@[simp] theorem State.sectorWritten_pending (s : State) (i : Nat) (w : WrSect) :
  (State.sectorWritten s i w).pending = s.pending := by
  simp [State.sectorWritten]

@[simp] theorem State.closeGate_pending (s : State) (i : Nat) :
  (State.closeGate s i).pending = s.pending := by
  simp [State.closeGate]

@[simp] theorem State.fragDone_pending (s : State) (i : Nat) (w : WrSect) :
  (State.fragDone s i w).pending = s.pending := by
  simp [State.fragDone]

@[simp] theorem State.abortSector_pending (s : State) (i : Nat) (w : WrSect) :
  (State.abortSector s i w).pending = s.pending := by
  simp [State.abortSector]

@[simp] theorem State.dropGate_pending (s : State) (i : Nat) :
  (State.dropGate s i).pending = s.pending := by
  unfold State.dropGate
  dsimp only
  repeat' (first | (simp; done) | intro _ | split | (simp_all; done))

@[simp] theorem State.riseSource_pending (s : State) (b : Nat) (scope : List Nat) :
  (State.riseSource s b scope).pending = s.pending := by
  simp [State.riseSource]

@[simp] theorem State.shutGate_pending (s : State) (i : Nat) (cur : Option Nat) (pos : Nat) :
  (State.shutGate s i cur pos).pending = s.pending := by
  unfold State.shutGate
  dsimp only
  repeat' (first | (simp; done) | intro _ | split | (simp_all; done))

@[simp] theorem State.servoGate_pending (s : State) (i : Nat) (on : Bool) :
  (State.servoGate s i on).pending = s.pending := by
  unfold State.servoGate
  repeat' split
  all_goals simp

@[simp] theorem State.searchOn_pending (s : State) (i : Nat) :
  (State.searchOn s i).pending = s.pending := by
  simp [State.searchOn]

@[simp] theorem State.searchOff_pending (s : State) (i : Nat) :
  (State.searchOff s i).pending = s.pending := by
  simp [State.searchOff]

@[simp] theorem State.refChanged_pending (s : State) (old : Option (Nat × Nat)) :
  (State.refChanged s old).pending = s.pending := by
  simp [State.refChanged]

@[simp] theorem State.srcTo_pending (s : State) (i : Nat) (x : Src) (v : Nat) :
  (State.srcTo s i x v).pending = s.pending := by
  simp [State.srcTo]

@[simp] theorem State.startSrc_pending (s : State) (i : Nat) (h : Nat) :
  (State.startSrc s i h).pending = s.pending := by
  unfold State.startSrc
  dsimp only
  repeat' (first | (simp; done) | intro _ | split | (simp_all; done))

@[simp] theorem State.endSrc_pending (s : State) (i : Nat) :
  (State.endSrc s i).pending = s.pending := by
  simp [State.endSrc]

@[simp] theorem State.startClock_pending (s : State) (i : Nat) (cells : Nat) :
  (State.startClock s i cells).pending = s.pending := by
  simp [State.startClock]

@[simp] theorem State.loadSeeds_pending (s : State) (i : Nat) (peg : Nat) :
  (State.loadSeeds s i peg).pending = s.pending := by
  simp [State.loadSeeds]

@[simp] theorem State.closeWindow_pending (s : State) (i : Nat) :
  (State.closeWindow s i).pending = s.pending := by
  simp [State.closeWindow]

@[simp] theorem State.startServoOnly_pending (s : State) (i : Nat) :
  (State.startServoOnly s i).pending = s.pending := by
  simp [State.startServoOnly]

@[simp] theorem State.resumeSrc_pending (s : State) (i : Nat) :
  (State.resumeSrc s i).pending = s.pending := by
  unfold State.resumeSrc
  repeat' split
  all_goals simp

@[simp] theorem State.dropMember_pending (s : State) (i : Nat) :
  (State.dropMember s i).pending = s.pending := by
  simp [State.dropMember]

@[simp] theorem State.resumeAll_pending (s : State) (a : Nat) :
  (State.resumeAll s a).pending = s.pending := by
  simp [State.resumeAll]

@[simp] theorem State.endMember_pending (s : State) (i : Nat) :
  (State.endMember s i).pending = s.pending := by
  simp [State.endMember]

@[simp] theorem State.refuseMember_pending (s : State) (i : Nat) :
  (State.refuseMember s i).pending = s.pending := by
  simp [State.refuseMember]

@[simp] theorem State.suspendOthers_pending (s : State) (i : Nat) (h : Nat) :
  (State.suspendOthers s i h).pending = s.pending := by
  unfold State.suspendOthers
  rw [State.each_pending]
  intro s k
  split
  · split <;> simp
  · rfl

@[simp] theorem State.startMember_pending (s : State) (i : Nat) (cm : CMember) :
  (State.startMember s i cm).pending = s.pending := by
  simp [State.startMember]

@[simp] theorem execMemberStart_pending (slot : Fin 16) (s : State) :
  Res.pending (execMemberStart slot s) = some s.pending := by
  unfold execMemberStart
  dsimp only
  repeat' (first | (simp; done) | intro _ | split | (simp_all; done))

@[simp] theorem State.moveLoop_pending (s : State) (i : Nat) (loop : Nat) (e : Nat) (err : Int) :
  (State.moveLoop s i loop e err).pending = s.pending := by
  simp [State.moveLoop]

@[simp] theorem State.stepLoop_pending (s : State) (i : Nat) (loop : Nat) (e : Nat) (acq : Bool) (cell : Nat) (err : Int) :
  (State.stepLoop s i loop e acq cell err).pending = s.pending := by
  simp [State.stepLoop]

@[simp] theorem execLoopUpdate_pending (slot : Fin 16) (loop : Fin 5) (elem : Fin 3) (cell : Nat) (lead : List (List Int)) (streams : List (List Int)) (s : State) :
  Res.pending (execLoopUpdate slot loop elem cell lead streams s) = some s.pending := by
  unfold execLoopUpdate
  dsimp only
  repeat' (first | (simp; done) | intro _ | split | rw [State.each_pending] | (simp_all; done))

@[simp] theorem State.restoreLoops_pending (s : State) (i : Nat) (first : Nat) :
  (State.restoreLoops s i first).pending = s.pending := by
  simp [State.restoreLoops]

@[simp] theorem State.reflagSect_pending (s : State) (i : Nat) (e : Nat) (first : Nat) (last : Nat) :
  (State.reflagSect s i e first last).pending = s.pending := by
  unfold State.reflagSect
  repeat' split
  all_goals simp

@[simp] theorem State.defectWindow_pending (s : State) (i : Nat) (first : Nat) (last : Nat) :
  (State.defectWindow s i first last).pending = s.pending := by
  unfold State.defectWindow
  dsimp only
  repeat' (first | (simp; done) | intro _ | split | (simp_all; done))

@[simp] theorem State.countDefect_pending (s : State) (i : Nat) (thermal : Bool) (dropOut : Bool) :
  (State.countDefect s i thermal dropOut).pending = s.pending := by
  unfold State.countDefect
  dsimp only
  repeat' (first | (simp; done) | intro _ | split | rw [State.when_pending] | (simp_all; done))

@[simp] theorem execDefectDeclare_pending (slot : Fin 16) (cell : Nat) (streams : List (List Int)) (s : State) :
  Res.pending (execDefectDeclare slot cell streams s) = some s.pending := by
  unfold execDefectDeclare
  dsimp only
  repeat' (first | (simp; done) | intro _ | split | rw [State.when_pending] | (simp_all; done))

@[simp] theorem execDefectWindowClose_pending (slot : Fin 16) (s : State) :
  Res.pending (execDefectWindowClose slot s) = some s.pending := by
  unfold execDefectWindowClose
  dsimp only
  repeat' (first | (simp; done) | intro _ | split | (simp_all; done))

@[simp] theorem State.modSect_pending (s : State) (i : Nat) (e : Nat) (g : Sect → Sect) :
  (State.modSect s i e g).pending = s.pending := by
  unfold State.modSect
  repeat' split
  all_goals simp

@[simp] theorem execCaptureDone_pending (slot : Fin 16) (e0 : ElemCapture) (e1 : ElemCapture) (e2 : ElemCapture) (s : State) :
  Res.pending (execCaptureDone slot e0 e1 e2 s) = some s.pending := by
  unfold execCaptureDone
  dsimp only
  repeat' (first | (simp; done) | intro _ | split | rw [State.each_pending] | rw [State.foldl_pending] | rw [State.foldlp_pending] | (simp_all; done))

@[simp] theorem execSbHoldWrite_pending (slot : Fin 16) (value : Word) (s : State) :
  Res.pending (execSbHoldWrite slot value s) = some s.pending := by
  simp [execSbHoldWrite]

@[simp] theorem execSbDataRead_pending (slot : Fin 16) (s : State) :
  Res.pending (execSbDataRead slot s) = some s.pending := by
  simp [execSbDataRead]

@[simp] theorem execEqTapAdapt_pending (slot : Fin 16) (run : SampleRun) (s : State) :
  Res.pending (execEqTapAdapt slot run s) = some s.pending := by
  unfold execEqTapAdapt
  dsimp only
  repeat' (first | (simp; done) | intro _ | split | rw [State.foldl_pending] | rw [State.foldlp_pending] | (simp_all; done))

@[simp] theorem execSyncSearchEnd_pending (slot : Fin 16) (streams : List (List Int)) (s : State) :
  Res.pending (execSyncSearchEnd slot streams s) = some s.pending := by
  simp [execSyncSearchEnd]

@[simp] theorem execResyncSearchEnd_pending (slot : Fin 16) (frag : Nat) (streams : List (List Int)) (s : State) :
  Res.pending (execResyncSearchEnd slot frag streams s) = some s.pending := by
  simp [execResyncSearchEnd]

@[simp] theorem State.attemptReads_pending (s : State) (i : Nat) (e : Nat) (inst : Nat) (q : Sect) (upset : Bool) :
  (State.attemptReads s i e inst q upset).2.pending = s.pending := by
  unfold State.attemptReads
  simp
  repeat' (first | (simp; done) | intro _ | split | rw [State.each_pending] | rw [State.when_pending] | rw [State.foldl_pending] | rw [State.foldlp_pending] | rw [State.foldlp2_pending] | (simp_all; done))

@[simp] theorem State.appendRecord_pending (s : State) (i : Nat) (lo : Nat) (hi : Nat) :
  (State.appendRecord s i lo hi).pending = s.pending := by
  simp [State.appendRecord]

@[simp] theorem State.missedRecord_pending (s : State) (i : Nat) (psi : Nat) :
  (State.missedRecord s i psi).pending = s.pending := by
  simp [State.missedRecord]

@[simp] theorem State.poolDrop_pending (s : State) (ref : Nat) :
  (State.poolDrop s ref).pending = s.pending := by
  unfold State.poolDrop
  dsimp only
  repeat' (first | (simp; done) | intro _ | split | (simp_all; done))

@[simp] theorem State.decideSector_pending (s : State) (i : Nat) (e : Nat) (q : Sect) (outcome : Nat) (k : Nat) (iter : Nat) (deep : Bool) (block : Nat) :
  (State.decideSector s i e q outcome k iter deep block).pending = s.pending := by
  simp [State.decideSector]

@[simp] theorem execFastPathDone_pending (slot : Fin 16) (entry : Fin 2) (upset : Bool) (s : State) :
  Res.pending (execFastPathDone slot entry upset s) = some s.pending := by
  unfold execFastPathDone
  dsimp only
  repeat' (first | (simp; done) | intro _ | split | (simp_all; done))

@[simp] theorem State.setAttempt_pending (s : State) (ref : Nat) (k : Nat) (st : AttState) :
  (State.setAttempt s ref k st).pending = s.pending := by
  simp [State.setAttempt]

@[simp] theorem execDeepAttemptStart_pending (engine : Fin 8) (s : State) :
  Res.pending (execDeepAttemptStart engine s) = some s.pending := by
  unfold execDeepAttemptStart
  repeat' split
  all_goals simp

@[simp] theorem execDeepAttemptDone_pending (engine : Fin 8) (upset : Bool) (s : State) :
  Res.pending (execDeepAttemptDone engine upset s) = some s.pending := by
  unfold execDeepAttemptDone
  dsimp only
  repeat' (first | (simp; done) | intro _ | split | rw [State.when_pending] | (simp_all; done))

@[simp] theorem execSectLoRead_pending (slot : Fin 16) (s : State) :
  Res.pending (execSectLoRead slot s) = some s.pending := by
  unfold execSectLoRead
  dsimp only
  repeat' (first | (simp; done) | intro _ | split | (simp_all; done))

@[simp] theorem execSectHiRead_pending (slot : Fin 16) (s : State) :
  Res.pending (execSectHiRead slot s) = some s.pending := by
  unfold execSectHiRead
  dsimp only
  repeat' (first | (simp; done) | intro _ | split | (simp_all; done))

@[simp] theorem execPreampFrameDone_pending (act : Fin 4) (data : Nat) (s : State) :
  Res.pending (execPreampFrameDone act data s) = some s.pending := by
  unfold execPreampFrameDone
  dsimp only
  repeat' (first | (simp; done) | intro _ | split | rw [State.when_pending] | (simp_all; done))

@[simp] theorem execPaCmdWrite_pending (slot : Fin 16) (value : Word) (s : State) :
  Res.pending (execPaCmdWrite slot value s) = some s.pending := by
  simp [execPaCmdWrite]

@[simp] theorem execPreampFault_pending (act : Fin 4) (s : State) :
  Res.pending (execPreampFault act s) = some s.pending := by
  unfold execPreampFault
  repeat' split
  all_goals simp

@[simp] theorem State.clockValid_pending (s : State) (i : Nat) (m : Member) (e : Int) :
  (State.clockValid s i m e).pending = s.pending := by
  simp [State.clockValid]

@[simp] theorem execClockField_pending (slot : Fin 16) (measured : Int) (samples : List Int) (s : State) :
  Res.pending (execClockField slot measured samples s) = some s.pending := by
  unfold execClockField
  dsimp only
  repeat' (first | (simp; done) | intro _ | split | (simp_all; done))

@[simp] theorem execMediaClockLock_pending (slot : Fin 16) (s : State) :
  Res.pending (execMediaClockLock slot s) = some s.pending := by
  simp [execMediaClockLock]

@[simp] theorem execLossOfLock_pending (slot : Fin 16) (s : State) :
  Res.pending (execLossOfLock slot s) = some s.pending := by
  simp [execLossOfLock]

@[simp] theorem execCodewordEncodeDone_pending (slot : Fin 16) (info : Nat) (parity : Nat) (s : State) :
  Res.pending (execCodewordEncodeDone slot info parity s) = some s.pending := by
  unfold execCodewordEncodeDone
  dsimp only
  repeat' (first | (simp; done) | intro _ | split | (simp_all; done))

@[simp] theorem execCodewordUnderrun_pending (slot : Fin 16) (s : State) :
  Res.pending (execCodewordUnderrun slot s) = some s.pending := by
  unfold execCodewordUnderrun
  dsimp only
  repeat' (first | (simp; done) | intro _ | split | (simp_all; done))

@[simp] theorem execSensorSample_pending (input : Fin 5) (code : Nat) (s : State) :
  Res.pending (execSensorSample input code s) = some s.pending := by
  simp [execSensorSample]

@[simp] theorem execShockClear_pending (s : State) :
  Res.pending (execShockClear s) = some s.pending := by
  simp [execShockClear]

@[simp] theorem State.fmtIso_pending (s : State) (a : Nat) (g : State → State) (h0 : ∀ s0, (g s0).pending = s0.pending) :
  (State.fmtIso s a g).pending = s.pending := by
  unfold State.fmtIso
  simp
  repeat' (first | (simp; done) | intro _ | split | rw [State.fmtIso_pending] | (simp_all; done))

@[simp] theorem State.fmtReject_pending (s : State) (a : Nat) (c : Nat) :
  (State.fmtReject s a c).pending = s.pending := by
  simp [State.fmtReject]

@[simp] theorem State.drainEnded_pending (s : State) (a : Nat) :
  (State.drainEnded s a).pending = s.pending := by
  simp [State.drainEnded]

@[simp] theorem State.closeRun_pending (s : State) (a : Nat) (r : Run) (st : Nat) (keep : Nat → Bool) :
  (State.closeRun s a r st keep).pending = s.pending := by
  simp [State.closeRun]

@[simp] theorem State.endRuns_pending (s : State) (a : Nat) :
  (State.endRuns s a).pending = s.pending := by
  simp [State.endRuns]

@[simp] theorem State.discardSects_pending (s : State) (i : Nat) :
  (State.discardSects s i).pending = s.pending := by
  simp [State.discardSects]

@[simp] theorem State.stopSlot_pending (s : State) (i : Nat) :
  (State.stopSlot s i).pending = s.pending := by
  simp [State.stopSlot]

@[simp] theorem State.failRuns_pending (s : State) (a : Nat) :
  (State.failRuns s a).pending = s.pending := by
  simp [State.failRuns]

@[simp] theorem State.tabEvent_pending (s : State) (a : Nat) (j : Nat) (w : Nat) :
  (State.tabEvent s a j w).pending = s.pending := by
  simp [State.tabEvent]

@[simp] theorem State.endBeat_pending (s : State) (a : Nat) (j : Nat) :
  (State.endBeat s a j).pending = s.pending := by
  unfold State.endBeat
  repeat' split
  all_goals simp

@[simp] theorem State.fmtMachineCheck_pending (s : State) (a : Nat) (cause : Nat) (thread : Nat) (space : Bool) (addr : Nat) :
  (State.fmtMachineCheck s a cause thread space addr).pending = s.pending := by
  simp [State.fmtMachineCheck]

@[simp] theorem State.atCell_pending (s : State) (i : Nat) (w : Nat) (c : Nat) :
  (State.atCell s i w c).pending = s.pending := by
  simp [State.atCell]

@[simp] theorem State.runOp_pending (s : State) (a : Nat) (j : Nat) (ops : List Nat) (g : State → Nat → State) (h0 : ∀ s0 x1, (g s0 x1).pending = s0.pending) :
  (State.runOp s a j ops g).pending = s.pending := by
  unfold State.runOp
  dsimp only
  repeat' (first | (simp; done) | intro _ | split | rw [State.runOp_pending] | (simp_all; done))

@[simp] theorem State.setCmp_pending (s : State) (a : Nat) (j : Nat) (cells : Nat) (cell : Nat) :
  (State.setCmp s a j cells cell).pending = s.pending := by
  simp [State.setCmp]

@[simp] theorem State.freeCmp_pending (s : State) (a : Nat) (j : Nat) :
  (State.freeCmp s a j).pending = s.pending := by
  simp [State.freeCmp]

@[simp] theorem execNop_pending (act : Fin 4) (thread : Fin 4) (s : State) :
  Res.pending (execNop act thread s) = some s.pending := by
  simp [execNop]

@[simp] theorem execLdcmp_pending (act : Fin 4) (thread : Fin 4) (s : State) :
  Res.pending (execLdcmp act thread s) = some s.pending := by
  simp [execLdcmp]

@[simp] theorem execAddcmp_pending (act : Fin 4) (thread : Fin 4) (s : State) :
  Res.pending (execAddcmp act thread s) = some s.pending := by
  simp [execAddcmp]

@[simp] theorem execLdlc_pending (act : Fin 4) (thread : Fin 4) (s : State) :
  Res.pending (execLdlc act thread s) = some s.pending := by
  simp [execLdlc]

@[simp] theorem execDeclc_pending (act : Fin 4) (thread : Fin 4) (s : State) :
  Res.pending (execDeclc act thread s) = some s.pending := by
  simp [execDeclc]

@[simp] theorem State.takeSector_pending (s : State) (a : Nat) (j : Nat) (m : Member) (r : Run) (k : Nat) :
  (State.takeSector s a j m r k).pending = s.pending := by
  unfold State.takeSector
  dsimp only
  repeat' (first | (simp; done) | intro _ | split | (simp_all; done))

@[simp] theorem execTakerun_pending (act : Fin 4) (thread : Fin 4) (w : Nat) (c : Nat) (s : State) :
  Res.pending (execTakerun act thread w c s) = some s.pending := by
  unfold execTakerun
  simp
  repeat' (first | (simp; done) | intro _ | split | rw [State.runOp_pending] | (simp_all; done))

@[simp] theorem execNextsec_pending (act : Fin 4) (thread : Fin 4) (w : Nat) (c : Nat) (s : State) :
  Res.pending (execNextsec act thread w c s) = some s.pending := by
  unfold execNextsec
  simp
  repeat' (first | (simp; done) | intro _ | split | rw [State.runOp_pending] | (simp_all; done))

@[simp] theorem execNextfrag_pending (act : Fin 4) (thread : Fin 4) (s : State) :
  Res.pending (execNextfrag act thread s) = some s.pending := by
  unfold execNextfrag
  simp
  repeat' (first | (simp; done) | intro _ | split | rw [State.runOp_pending] | (simp_all; done))

@[simp] theorem execEndfrag_pending (act : Fin 4) (thread : Fin 4) (s : State) :
  Res.pending (execEndfrag act thread s) = some s.pending := by
  unfold execEndfrag
  simp
  repeat' (first | (simp; done) | intro _ | split | rw [State.runOp_pending] | (simp_all; done))

@[simp] theorem execSkip_pending (act : Fin 4) (thread : Fin 4) (s : State) :
  Res.pending (execSkip act thread s) = some s.pending := by
  unfold execSkip
  simp
  repeat' (first | (simp; done) | intro _ | split | rw [State.when_pending] | rw [State.runOp_pending] | (simp_all; done))

@[simp] theorem execEndmember_pending (act : Fin 4) (thread : Fin 4) (s : State) :
  Res.pending (execEndmember act thread s) = some s.pending := by
  unfold execEndmember
  rw [Res.pending_next, State.runOp_pending]
  intro s x
  simp only []
  split <;> simp

@[simp] theorem execTabBeatEnd_pending (act : Fin 4) (thread : Fin 4) (w : Nat) (c : Nat) (s : State) :
  Res.pending (execTabBeatEnd act thread w c s) = some s.pending := by
  unfold execTabBeatEnd
  dsimp only
  repeat' (first | (simp; done) | intro _ | split | (simp_all; done))

@[simp] theorem State.cutGate_pending (s : State) (i : Nat) (but : Option Nat) :
  (State.cutGate s i but).pending = s.pending := by
  unfold State.cutGate
  dsimp only
  repeat' (first | (simp; done) | intro _ | split | (simp_all; done))

@[simp] theorem State.lateSector_pending (s : State) (a : Nat) (j : Nat) (e : Edge) (noBuf : Bool) :
  (State.lateSector s a j e noBuf).pending = s.pending := by
  unfold State.lateSector
  dsimp only
  repeat' (first | (simp; done) | intro _ | split | rw [State.when_pending] | (simp_all; done))

@[simp] theorem execEdgeQueuePush_pending (act : Fin 4) (thread : Fin 4) (w : Nat) (c : Nat) (s : State) :
  Res.pending (execEdgeQueuePush act thread w c s) = some s.pending := by
  unfold execEdgeQueuePush
  dsimp only
  repeat' (first | (simp; done) | intro _ | split | (simp_all; done))

@[simp] theorem State.captureStart_pending (s : State) (i : Nat) (d : RdSect) (m : Member) (pos : Nat) :
  (State.captureStart s i d m pos).pending = s.pending := by
  simp [State.captureStart]

@[simp] theorem State.openGate_pending (s : State) (i : Nat) (sec : Nat) (pos : Nat) :
  (State.openGate s i sec pos).pending = s.pending := by
  unfold State.openGate
  dsimp only
  repeat' (first | (simp; done) | intro _ | split | (simp_all; done))

@[simp] theorem State.fastWrite_pending (s : State) (i : Nat) (on : Bool) :
  (State.fastWrite s i on).pending = s.pending := by
  unfold State.fastWrite
  repeat' split
  all_goals simp

@[simp] theorem execEdgeEntryApply_pending (slot : Fin 16) (s : State) :
  Res.pending (execEdgeEntryApply slot s) = some s.pending := by
  unfold execEdgeEntryApply
  dsimp only
  repeat' (first | (simp; done) | intro _ | split | rw [State.when_pending] | (simp_all; done))

@[simp] theorem execRunPush_pending (act : Fin 4) (value : Word) (s : State) :
  Res.pending (execRunPush act value s) = some s.pending := by
  unfold execRunPush
  simp
  repeat' (first | (simp; done) | intro _ | split | rw [State.fmtIso_pending] | (simp_all; done))

@[simp] theorem execRunDone_pending (act : Fin 4) (loc : Fin 4) (s : State) :
  Res.pending (execRunDone act loc s) = some s.pending := by
  unfold execRunDone
  dsimp only
  repeat' (first | (simp; done) | intro _ | split | (simp_all; done))

@[simp] theorem execFmtDoneRead_pending (act : Fin 4) (s : State) :
  Res.pending (execFmtDoneRead act s) = some s.pending := by
  unfold execFmtDoneRead
  simp
  repeat' (first | (simp; done) | intro _ | split | rw [State.fmtIso_pending] | (simp_all; done))

@[simp] theorem execRevisitExhausted_pending (act : Fin 4) (loc : Fin 4) (s : State) :
  Res.pending (execRevisitExhausted act loc s) = some s.pending := by
  unfold execRevisitExhausted
  dsimp only
  repeat' (first | (simp; done) | intro _ | split | (simp_all; done))

@[simp] theorem execCourseCommit_pending (act : Fin 4) (value : Word) (s : State) :
  Res.pending (execCourseCommit act value s) = some s.pending := by
  simp [execCourseCommit]

@[simp] theorem execCourseBarrier_pending (act : Fin 4) (s : State) :
  Res.pending (execCourseBarrier act s) = some s.pending := by
  unfold execCourseBarrier
  dsimp only
  repeat' (first | (simp; done) | intro _ | split | rw [State.each_pending] | (simp_all; done))

@[simp] theorem execCapoDataWrite_pending (act : Fin 4) (value : Word) (s : State) :
  Res.pending (execCapoDataWrite act value s) = some s.pending := by
  simp [execCapoDataWrite]

@[simp] theorem execCapoVerify_pending (act : Fin 4) (value : Word) (s : State) :
  Res.pending (execCapoVerify act value s) = some s.pending := by
  simp [execCapoVerify]

@[simp] theorem execCapoVerifyDone_pending (act : Fin 4) (s : State) :
  Res.pending (execCapoVerifyDone act s) = some s.pending := by
  unfold execCapoVerifyDone
  dsimp only
  repeat' (first | (simp; done) | intro _ | split | (simp_all; done))

@[simp] theorem State.fmtReset_pending (s : State) (a : Nat) :
  (State.fmtReset s a).pending = s.pending := by
  simp [State.fmtReset]

@[simp] theorem State.fmtCtl_pending (s : State) (a : Nat) (v : Nat) :
  (State.fmtCtl s a v).pending = s.pending := by
  simp [State.fmtCtl]

@[simp] theorem execFmtRunWrite_pending (act : Fin 4) (value : Word) (s : State) :
  Res.pending (execFmtRunWrite act value s) = some s.pending := by
  simp [execFmtRunWrite]

@[simp] theorem execFormatterReset_pending (act : Fin 4) (value : Word) (s : State) :
  Res.pending (execFormatterReset act value s) = some s.pending := by
  simp [execFormatterReset]

@[simp] theorem execTabMachineCheck_pending (act : Fin 4) (thread : Fin 4) (flips : Nat) (s : State) :
  Res.pending (execTabMachineCheck act thread flips s) = some s.pending := by
  unfold execTabMachineCheck
  dsimp only
  repeat' (first | (simp; done) | intro _ | split | (simp_all; done))

@[simp] theorem execSweepStep_pending (act : Fin 4) (flips : Nat) (s : State) :
  Res.pending (execSweepStep act flips s) = some s.pending := by
  simp [execSweepStep]

@[simp] theorem execSweepPassEnd_pending (act : Fin 4) (pass : SweepRead) (s : State) :
  Res.pending (execSweepPassEnd act pass s) = some s.pending := by
  simp [execSweepPassEnd]

@[simp] theorem State.servoGain_pending (s : State) (i : Nat) (m : Member) (f : ServoField) :
  (State.servoGain s i m f).pending = s.pending := by
  simp [State.servoGain]

@[simp] theorem State.servoAcquire_pending (s : State) (i : Nat) (m : Member) (f : ServoField) :
  (State.servoAcquire s i m f).pending = s.pending := by
  simp [State.servoAcquire]

@[simp] theorem State.servoStart_pending (s : State) (i : Nat) (m : Member) (f : ServoField) :
  (State.servoStart s i m f).pending = s.pending := by
  simp [State.servoStart]

@[simp] theorem State.servoEnd_pending (s : State) (i : Nat) (m : Member) :
  (State.servoEnd s i m).pending = s.pending := by
  simp [State.servoEnd]

@[simp] theorem State.trackField_pending (s : State) (i : Nat) (h : Nat) (m : Member) (r : FieldRead) :
  (State.trackField s i h m r).pending = s.pending := by
  simp [State.trackField]

@[simp] theorem State.fieldRead_pending (s : State) (i : Nat) (h : Nat) (m : Member) (r : FieldRead) :
  (State.fieldRead s i h m r).pending = s.pending := by
  unfold State.fieldRead
  repeat' split
  all_goals simp

@[simp] theorem execServoField_pending (slot : Fin 16) (field : ServoField) (s : State) :
  Res.pending (execServoField slot field s) = some s.pending := by
  unfold execServoField
  dsimp only
  repeat' (first | (simp; done) | intro _ | split | (simp_all; done))

@[simp] theorem execServoTrackEntry_pending (slot : Fin 16) (s : State) :
  Res.pending (execServoTrackEntry slot s) = some s.pending := by
  simp [execServoTrackEntry]

@[simp] theorem execServoLost_pending (slot : Fin 16) (s : State) :
  Res.pending (execServoLost slot s) = some s.pending := by
  simp [execServoLost]

@[simp] theorem State.refTick_pending (s : State) (stamp : Nat) :
  (State.refTick s stamp).pending = s.pending := by
  unfold State.refTick
  dsimp only
  repeat' (first | (simp; done) | intro _ | split | rw [State.when_pending] | (simp_all; done))

@[simp] theorem execRevTicksAged_pending (s : State) :
  Res.pending (execRevTicksAged s) = some s.pending := by
  simp [execRevTicksAged]

@[simp] theorem State.srvSrc_pending (s : State) (a : Nat) (j : Nat) (v : Nat) :
  (State.srvSrc s a j v).pending = s.pending := by
  unfold State.srvSrc
  dsimp only
  repeat' (first | (simp; done) | intro _ | split | (simp_all; done))

@[simp] theorem execServoSourceEnable_pending (act : Fin 4) (loc : Fin 4) (value : Word) (s : State) :
  Res.pending (execServoSourceEnable act loc value s) = some s.pending := by
  simp [execServoSourceEnable]

@[simp] theorem State.mtrReject_pending (s : State) (c : Nat) :
  (State.mtrReject s c).pending = s.pending := by
  simp [State.mtrReject]

@[simp] theorem State.setRet_pending (s : State) (a : Nat) (v : Nat) :
  (State.setRet s a v).pending = s.pending := by
  simp [State.setRet]

@[simp] theorem State.retract_pending (s : State) (a : Nat) (cause : Nat) :
  (State.retract s a cause).pending = s.pending := by
  simp [State.retract]

@[simp] theorem State.retractAll_pending (s : State) (cause : Nat) :
  (State.retractAll s cause).pending = s.pending := by
  simp [State.retractAll]

@[simp] theorem State.retractUnparked_pending (s : State) (cause : Nat) :
  (State.retractUnparked s cause).pending = s.pending := by
  simp [State.retractUnparked]

@[simp] theorem State.retCmd_pending (s : State) (v : Nat) :
  (State.retCmd s v).pending = s.pending := by
  simp [State.retCmd]

@[simp] theorem execRetractCmd_pending (value : Word) (s : State) :
  Res.pending (execRetractCmd value s) = some s.pending := by
  simp [execRetractCmd]

@[simp] theorem execRetractDone_pending (act : Fin 4) (s : State) :
  Res.pending (execRetractDone act s) = some s.pending := by
  simp [execRetractDone]

@[simp] theorem State.parkedClear_pending (s : State) (v : Nat) :
  (State.parkedClear s v).pending = s.pending := by
  simp [State.parkedClear]

@[simp] theorem execParkedClear_pending (value : Word) (s : State) :
  Res.pending (execParkedClear value s) = some s.pending := by
  simp [execParkedClear]

@[simp] theorem State.d2dSend_pending (s : State) (lane : Nat) (output : Nat) (code : Int) :
  (State.d2dSend s lane output code).pending = s.pending := by
  simp [State.d2dSend]

@[simp] theorem execDriverCommand_pending (s : State) :
  Res.pending (execDriverCommand s) = some s.pending := by
  unfold execDriverCommand
  repeat' split
  all_goals simp

@[simp] theorem execStopMessage_pending (s : State) :
  Res.pending (execStopMessage s) = some s.pending := by
  unfold execStopMessage
  repeat' split
  all_goals simp

@[simp] theorem State.slew_pending (s : State) (dt : Nat) :
  (State.slew s dt).pending = s.pending := by
  simp [State.slew]

@[simp] theorem State.piLoop_pending (s : State) :
  (State.piLoop s).pending = s.pending := by
  simp [State.piLoop]

@[simp] theorem State.speedUpdate_pending (s : State) (num : Nat) (den : Nat) :
  (State.speedUpdate s num den).pending = s.pending := by
  simp [State.speedUpdate]

@[simp] theorem State.zcSpeed_pending (s : State) :
  (State.zcSpeed s).pending = s.pending := by
  simp [State.zcSpeed]

@[simp] theorem State.noteSpeed_pending (s : State) (v : Nat) :
  (State.noteSpeed s v).pending = s.pending := by
  simp [State.noteSpeed]

@[simp] theorem State.wedgeSpeed_pending (s : State) (old : RefHead) :
  (State.wedgeSpeed s old).pending = s.pending := by
  unfold State.wedgeSpeed
  dsimp only
  repeat' (first | (simp; done) | intro _ | split | (simp_all; done))

@[simp] theorem execWedgeTick_pending (stamp : Nat) (s : State) :
  Res.pending (execWedgeTick stamp s) = some s.pending := by
  unfold execWedgeTick
  repeat' split
  all_goals simp

@[simp] theorem execWedgeTickTimeout_pending (s : State) :
  Res.pending (execWedgeTickTimeout s) = some s.pending := by
  simp [execWedgeTickTimeout]

@[simp] theorem State.enterSpin_pending (s : State) (v : Nat) :
  (State.enterSpin s v).pending = s.pending := by
  simp [State.enterSpin]

@[simp] theorem State.switchesOff_pending (s : State) :
  (State.switchesOff s).pending = s.pending := by
  simp [State.switchesOff]

@[simp] theorem State.spinFault_pending (s : State) (cause : Nat) (event : Nat) :
  (State.spinFault s cause event).pending = s.pending := by
  simp [State.spinFault]

@[simp] theorem State.brakeIn_pending (s : State) (mode : Nat) :
  (State.brakeIn s mode).pending = s.pending := by
  simp [State.brakeIn]

@[simp] theorem State.sense_pending (s : State) :
  (State.sense s).pending = s.pending := by
  simp [State.sense]

@[simp] theorem State.spinStart_pending (s : State) :
  (State.spinStart s).pending = s.pending := by
  simp [State.spinStart]

@[simp] theorem State.spnCtl_pending (s : State) (v : Nat) :
  (State.spnCtl s v).pending = s.pending := by
  simp [State.spnCtl]

@[simp] theorem execSpindleStart_pending (value : Word) (s : State) :
  Res.pending (execSpindleStart value s) = some s.pending := by
  simp [execSpindleStart]

@[simp] theorem execSpindleStop_pending (value : Word) (s : State) :
  Res.pending (execSpindleStop value s) = some s.pending := by
  simp [execSpindleStop]

@[simp] theorem State.align_pending (s : State) :
  (State.align s).pending = s.pending := by
  simp [State.align]

@[simp] theorem State.accel_pending (s : State) :
  (State.accel s).pending = s.pending := by
  simp [State.accel]

@[simp] theorem execSenseEnd_pending (lowAmplitude : Bool) (dir : Bool) (speed : Nat) (step : Fin 6) (s : State) :
  Res.pending (execSenseEnd lowAmplitude dir speed step s) = some s.pending := by
  simp [execSenseEnd]

@[simp] theorem execPreBrakeSample_pending (speed : Nat) (s : State) :
  Res.pending (execPreBrakeSample speed s) = some s.pending := by
  simp [execPreBrakeSample]

@[simp] theorem execAlignEnd_pending (s : State) :
  Res.pending (execAlignEnd s) = some s.pending := by
  simp [execAlignEnd]

@[simp] theorem execRampLimit_pending (s : State) :
  Res.pending (execRampLimit s) = some s.pending := by
  simp [execRampLimit]

@[simp] theorem execHandover_pending (s : State) :
  Res.pending (execHandover s) = some s.pending := by
  simp [execHandover]

@[simp] theorem execZeroCrossing_pending (times : List Nat) (values : List Int) (s : State) :
  Res.pending (execZeroCrossing times values s) = some s.pending := by
  unfold execZeroCrossing
  repeat' split
  all_goals simp

@[simp] theorem State.nextStep_pending (s : State) (t : Nat) :
  (State.nextStep s t).pending = s.pending := by
  simp [State.nextStep]

@[simp] theorem execCommutation_pending (step : Fin 6) (s : State) :
  Res.pending (execCommutation step s) = some s.pending := by
  unfold execCommutation
  repeat' split
  all_goals simp

@[simp] theorem execZcMiss_pending (s : State) :
  Res.pending (execZcMiss s) = some s.pending := by
  simp [execZcMiss]

@[simp] theorem execZcLost_pending (s : State) :
  Res.pending (execZcLost s) = some s.pending := by
  simp [execZcLost]

@[simp] theorem execAtSpeed_pending (s : State) :
  Res.pending (execAtSpeed s) = some s.pending := by
  simp [execAtSpeed]

@[simp] theorem execAtSpeedLost_pending (s : State) :
  Res.pending (execAtSpeedLost s) = some s.pending := by
  simp [execAtSpeedLost]

@[simp] theorem execSpinupTimeout_pending (s : State) :
  Res.pending (execSpinupTimeout s) = some s.pending := by
  simp [execSpinupTimeout]

@[simp] theorem State.spnSet_pending (s : State) (v : Nat) :
  (State.spnSet s v).pending = s.pending := by
  simp [State.spnSet]

@[simp] theorem State.clampDepth_pending (s : State) :
  (State.clampDepth s).pending = s.pending := by
  simp [State.clampDepth]

@[simp] theorem State.fromDoze_pending (s : State) :
  (State.fromDoze s).pending = s.pending := by
  simp [State.fromDoze]

@[simp] theorem State.spunDown_pending (s : State) :
  (State.spunDown s).pending = s.pending := by
  simp [State.spunDown]

@[simp] theorem execBrakeStop_pending (speed : Nat) (s : State) :
  Res.pending (execBrakeStop speed s) = some s.pending := by
  simp [execBrakeStop]

@[simp] theorem State.vmot_pending (s : State) (v : Nat) :
  (State.vmot s v).pending = s.pending := by
  simp [State.vmot]

@[simp] theorem State.vin_pending (s : State) (v : Nat) :
  (State.vin s v).pending = s.pending := by
  simp [State.vin]

@[simp] theorem execChopperOn_pending (vmot : Nat) (s : State) :
  Res.pending (execChopperOn vmot s) = some s.pending := by
  simp [execChopperOn]

@[simp] theorem execChopperOff_pending (vmot : Nat) (s : State) :
  Res.pending (execChopperOff vmot s) = some s.pending := by
  simp [execChopperOff]

@[simp] theorem State.chopFault_pending (s : State) (cause : Nat) :
  (State.chopFault s cause).pending = s.pending := by
  simp [State.chopFault]

@[simp] theorem execChopperFault_pending (late : Bool) (measured : Nat) (s : State) :
  Res.pending (execChopperFault late measured s) = some s.pending := by
  simp [execChopperFault]

@[simp] theorem execLadderShortBrake_pending (vmot : Nat) (s : State) :
  Res.pending (execLadderShortBrake vmot s) = some s.pending := by
  simp [execLadderShortBrake]

@[simp] theorem execOvp_pending (vmot : Nat) (s : State) :
  Res.pending (execOvp vmot s) = some s.pending := by
  simp [execOvp]

@[simp] theorem State.ladderWrite_pending (s : State) (v : Nat) :
  (State.ladderWrite s v).pending = s.pending := by
  simp [State.ladderWrite]

@[simp] theorem execVmotSwitchOpen_pending (vin : Nat) (vmot : Nat) (s : State) :
  Res.pending (execVmotSwitchOpen vin vmot s) = some s.pending := by
  simp [execVmotSwitchOpen]

@[simp] theorem execVmotSwitchClose_pending (vin : Nat) (vmot : Nat) (s : State) :
  Res.pending (execVmotSwitchClose vin vmot s) = some s.pending := by
  simp [execVmotSwitchClose]

@[simp] theorem execVinHigh_pending (vin : Nat) (s : State) :
  Res.pending (execVinHigh vin s) = some s.pending := by
  simp [execVinHigh]

@[simp] theorem execVinHighRelease_pending (vin : Nat) (s : State) :
  Res.pending (execVinHighRelease vin s) = some s.pending := by
  simp [execVinHighRelease]

@[simp] theorem State.ctlReject_pending (s : State) (a : Nat) (c : Nat) :
  (State.ctlReject s a c).pending = s.pending := by
  simp [State.ctlReject]

@[simp] theorem State.holdOld_pending (s : State) (a : Nat) (F : Field) :
  (State.holdOld s a F).pending = s.pending := by
  simp [State.holdOld]

@[simp] theorem State.pesRaise_pending (s : State) (a : Nat) :
  (State.pesRaise s a).pending = s.pending := by
  simp [State.pesRaise]

@[simp] theorem State.enterPhase_pending (s : State) (a : Nat) (v : Nat) :
  (State.enterPhase s a v).pending = s.pending := by
  simp [State.enterPhase]

@[simp] theorem State.boundary_pending (s : State) (a : Nat) :
  (State.boundary s a).pending = s.pending := by
  unfold State.boundary
  dsimp only
  repeat' (first | (simp; done) | intro _ | split | (simp_all; done))

@[simp] theorem State.landed_pending (s : State) (a : Nat) :
  (State.landed s a).pending = s.pending := by
  simp [State.landed]

@[simp] theorem State.bankSel_pending (s : State) (a : Nat) (v : Nat) :
  (State.bankSel s a v).pending = s.pending := by
  simp [State.bankSel]

@[simp] theorem execBankSelWrite_pending (act : Fin 4) (value : Word) (s : State) :
  Res.pending (execBankSelWrite act value s) = some s.pending := by
  simp [execBankSelWrite]

@[simp] theorem State.coefWrite_pending (s : State) (a : Nat) (o : Nat) (v : Nat) :
  (State.coefWrite s a o v).pending = s.pending := by
  simp [State.coefWrite]

@[simp] theorem execCoefficientWrite_pending (act : Fin 4) (offset : Nat) (value : Word) (s : State) :
  Res.pending (execCoefficientWrite act offset value s) = some s.pending := by
  simp [execCoefficientWrite]

@[simp] theorem State.learnerRead_pending (s : State) (a : Nat) (k : Nat) :
  (State.learnerRead s a k).2.pending = s.pending := by
  unfold State.learnerRead
  repeat' split
  all_goals simp

@[simp] theorem State.learnerWrite_pending (s : State) (a : Nat) (k : Nat) (v : Nat) :
  (State.learnerWrite s a k v).pending = s.pending := by
  simp [State.learnerWrite]

@[simp] theorem State.learn_pending (s : State) (a : Nat) (h : Nat) (k : Nat) (e : Int) (flip : Nat) :
  (State.learn s a h k e flip).pending = s.pending := by
  simp [State.learn]

@[simp] theorem State.learnerData_pending (s : State) (a : Nat) (w : Option Nat) :
  (State.learnerData s a w).pending = s.pending := by
  unfold State.learnerData
  repeat' split
  all_goals simp

@[simp] theorem execLearnerDataAccess_pending (act : Fin 4) (write : Option Word) (s : State) :
  Res.pending (execLearnerDataAccess act write s) = some s.pending := by
  simp [execLearnerDataAccess]

@[simp] theorem State.compareFault_pending (s : State) (a : Nat) (src : Nat) :
  (State.compareFault s a src).pending = s.pending := by
  simp [State.compareFault]

@[simp] theorem State.microJob_pending (s : State) (a : Nat) (m : Sample) (up : Option LaneUpset) :
  (State.microJob s a m up).pending = s.pending := by
  simp [State.microJob]

@[simp] theorem State.groupCounts_pending (s : State) (a : Nat) (ph : Nat) (rs : List JobRec) (ev : Int) :
  (State.groupCounts s a ph rs ev).pending = s.pending := by
  simp [State.groupCounts]

@[simp] theorem State.vcmJob_pending (s : State) (a : Nat) (key : Nat) :
  (State.vcmJob s a key).pending = s.pending := by
  simp [State.vcmJob]

@[simp] theorem State.laneJob_pending (s : State) (a : Nat) (up : Option LaneUpset) :
  (State.laneJob s a up).pending = s.pending := by
  unfold State.laneJob
  repeat' split
  all_goals simp

@[simp] theorem execMicroJob_pending (act : Fin 4) (s : State) :
  Res.pending (execMicroJob act s) = some s.pending := by
  simp [execMicroJob]

@[simp] theorem execHeadHeld_pending (act : Fin 4) (head : Fin 12) (s : State) :
  Res.pending (execHeadHeld act head s) = some s.pending := by
  simp [execHeadHeld]

@[simp] theorem State.zeroMicro_pending (s : State) (a : Nat) :
  (State.zeroMicro s a).pending = s.pending := by
  simp [State.zeroMicro]

@[simp] theorem execLaneLost_pending (act : Fin 4) (s : State) :
  Res.pending (execLaneLost act s) = some s.pending := by
  simp [execLaneLost]

@[simp] theorem execSettleDone_pending (act : Fin 4) (s : State) :
  Res.pending (execSettleDone act s) = some s.pending := by
  simp [execSettleDone]

@[simp] theorem execFollowingError_pending (act : Fin 4) (s : State) :
  Res.pending (execFollowingError act s) = some s.pending := by
  simp [execFollowingError]

@[simp] theorem execPesClear_pending (act : Fin 4) (s : State) :
  Res.pending (execPesClear act s) = some s.pending := by
  simp [execPesClear]

@[simp] theorem State.laneOff_pending (s : State) (a : Nat) (commands : Bool) :
  (State.laneOff s a commands).pending = s.pending := by
  simp [State.laneOff]

@[simp] theorem State.laneCtl_pending (s : State) (a : Nat) (v : Nat) :
  (State.laneCtl s a v).pending = s.pending := by
  simp [State.laneCtl]

@[simp] theorem execLaneOn_pending (act : Fin 4) (value : Word) (s : State) :
  Res.pending (execLaneOn act value s) = some s.pending := by
  simp [execLaneOn]

@[simp] theorem execLaneOff_pending (act : Fin 4) (value : Word) (s : State) :
  Res.pending (execLaneOff act value s) = some s.pending := by
  simp [execLaneOff]

@[simp] theorem execLaneReset_pending (act : Fin 4) (value : Word) (s : State) :
  Res.pending (execLaneReset act value s) = some s.pending := by
  simp [execLaneReset]

@[simp] theorem State.seekGo_pending (s : State) (a : Nat) (v : Nat) :
  (State.seekGo s a v).pending = s.pending := by
  simp [State.seekGo]

@[simp] theorem execSeekGo_pending (act : Fin 4) (value : Word) (s : State) :
  Res.pending (execSeekGo act value s) = some s.pending := by
  simp [execSeekGo]

@[simp] theorem State.laneStatusWrite_pending (s : State) (a : Nat) (v : Nat) :
  (State.laneStatusWrite s a v).pending = s.pending := by
  simp [State.laneStatusWrite]

@[simp] theorem execLaneCompareFault_pending (act : Fin 4) (upset : LaneUpset) (s : State) :
  Res.pending (execLaneCompareFault act upset s) = some s.pending := by
  simp [execLaneCompareFault]

@[simp] theorem execIdleComparePass_pending (act : Fin 4) (upset : Option LaneUpset) (s : State) :
  Res.pending (execIdleComparePass act upset s) = some s.pending := by
  unfold execIdleComparePass
  dsimp only
  repeat' (first | (simp; done) | intro _ | split | (simp_all; done))

@[simp] theorem State.modSpt_pending (s : State) (g : Spt → Spt) :
  (State.modSpt s g).pending = s.pending := by
  simp [State.modSpt]

@[simp] theorem State.sptReject_pending (s : State) (c : Nat) :
  (State.sptReject s c).pending = s.pending := by
  simp [State.sptReject]

@[simp] theorem State.sptFell_pending (s : State) (old : State) :
  (State.sptFell s old).pending = s.pending := by
  simp [State.sptFell]

@[simp] theorem State.takeWin_pending (s : State) (nsid : Nat) (lba : Nat) (block : Nat) :
  (State.takeWin s nsid lba block).2.pending = s.pending := by
  unfold State.takeWin
  repeat' split
  all_goals simp

@[simp] theorem State.warn_pending (s : State) :
  (State.warn s).pending = s.pending := by
  simp [State.warn]

@[simp] theorem execVinWarn_pending (vin : Nat) (s : State) :
  Res.pending (execVinWarn vin s) = some s.pending := by
  simp [execVinWarn]

@[simp] theorem execVinWarnRelease_pending (vin : Nat) (s : State) :
  Res.pending (execVinWarnRelease vin s) = some s.pending := by
  simp [execVinWarnRelease]

@[simp] theorem State.testStart_pending (s : State) :
  (State.testStart s).pending = s.pending := by
  simp [State.testStart]

@[simp] theorem execVstoreArmed_pending (vstore : Nat) (s : State) :
  Res.pending (execVstoreArmed vstore s) = some s.pending := by
  simp [execVstoreArmed]

@[simp] theorem execSelfTestStart_pending (s : State) :
  Res.pending (execSelfTestStart s) = some s.pending := by
  simp [execSelfTestStart]

@[simp] theorem State.testResult_pending (s : State) (ticks : Nat) :
  (State.testResult s ticks).pending = s.pending := by
  simp [State.testResult]

@[simp] theorem execSelfTestDone_pending (ticks : Nat) (s : State) :
  Res.pending (execSelfTestDone ticks s) = some s.pending := by
  simp [execSelfTestDone]

@[simp] theorem execSelfTestDrawTimeout_pending (s : State) :
  Res.pending (execSelfTestDrawTimeout s) = some s.pending := by
  simp [execSelfTestDrawTimeout]

@[simp] theorem execSelfTestRetry_pending (s : State) :
  Res.pending (execSelfTestRetry s) = some s.pending := by
  simp [execSelfTestRetry]

@[simp] theorem execChargeTimeout_pending (s : State) :
  Res.pending (execChargeTimeout s) = some s.pending := by
  simp [execChargeTimeout]

@[simp] theorem State.release_pending (s : State) :
  (State.release s).pending = s.pending := by
  simp [State.release]

@[simp] theorem State.retryHeld_pending (s : State) :
  (State.retryHeld s).pending = s.pending := by
  simp [State.retryHeld]

@[simp] theorem State.sptCtl_pending (s : State) (v : Nat) :
  (State.sptCtl s v).pending = s.pending := by
  simp [State.sptCtl]

@[simp] theorem execSptTest_pending (s : State) :
  Res.pending (execSptTest s) = some s.pending := by
  simp [execSptTest]

@[simp] theorem execSptRelease_pending (s : State) :
  Res.pending (execSptRelease s) = some s.pending := by
  simp [execSptRelease]

@[simp] theorem execRetryHeld_pending (s : State) :
  Res.pending (execRetryHeld s) = some s.pending := by
  simp [execRetryHeld]

@[simp] theorem State.saveMeta_pending (s : State) :
  (State.saveMeta s).pending = s.pending := by
  unfold State.saveMeta
  dsimp only
  repeat' (first | (simp; done) | intro _ | split | (simp_all; done))

@[simp] theorem State.saveKeyRecord_pending (s : State) (seq : Nat) :
  (State.saveKeyRecord s seq).pending = s.pending := by
  simp [State.saveKeyRecord]

@[simp] theorem execSaveBegin_pending (s : State) :
  Res.pending (execSaveBegin s) = some s.pending := by
  simp [execSaveBegin]

@[simp] theorem State.saveEnd_pending (s : State) :
  (State.saveEnd s).pending = s.pending := by
  simp [State.saveEnd]

@[simp] theorem execSaveCommit_pending (ms : Nat) (vstore : Nat) (s : State) :
  Res.pending (execSaveCommit ms vstore s) = some s.pending := by
  simp [execSaveCommit]

@[simp] theorem execSaveIncomplete_pending (chunks : Nat) (s : State) :
  Res.pending (execSaveIncomplete chunks s) = some s.pending := by
  simp [execSaveIncomplete]

@[simp] theorem execVholdRestore_pending (s : State) :
  Res.pending (execVholdRestore s) = some s.pending := by
  simp [execVholdRestore]

@[simp] theorem State.modChd_pending (s : State) (g : Chd → Chd) :
  (State.modChd s g).pending = s.pending := by
  simp [State.modChd]

@[simp] theorem State.rosterCheck_pending (s : State) :
  (State.rosterCheck s).pending = s.pending := by
  simp [State.rosterCheck]

@[simp] theorem State.hstEvt_pending (s : State) (p : Nat) (F : Field) :
  (State.hstEvt s p F).pending = s.pending := by
  simp [State.hstEvt]

@[simp] theorem execLinkTrainingDone_pending (port : Fin 2) (rate : Nat) (width : Nat) (flit : Bool) (s : State) :
  Res.pending (execLinkTrainingDone port rate width flit s) = some s.pending := by
  simp [execLinkTrainingDone]

@[simp] theorem execAspmLinkStateChange_pending (port : Fin 2) (lstate : Nat) (s : State) :
  Res.pending (execAspmLinkStateChange port lstate s) = some s.pending := by
  simp [execAspmLinkStateChange]

@[simp] theorem execWakeEvent_pending (port : Fin 2) (s : State) :
  Res.pending (execWakeEvent port s) = some s.pending := by
  simp [execWakeEvent]

@[simp] theorem State.stageWrite_pending (s : State) (i : Nat) (off : Nat) (len : Nat) (v : Nat) :
  (State.stageWrite s i off len v).pending = s.pending := by
  simp [State.stageWrite]

@[simp] theorem State.winRefuse_pending (s : State) (i : Nat) (c : Nat) :
  (State.winRefuse s i c).pending = s.pending := by
  simp [State.winRefuse]

@[simp] theorem State.winCommit_pending (s : State) (source : Nat) (i : Nat) :
  (State.winCommit s source i).pending = s.pending := by
  unfold State.winCommit
  repeat' split
  all_goals simp

@[simp] theorem execHwinCommit_pending (source : Fin 3) (entry : Fin 64) (s : State) :
  Res.pending (execHwinCommit source entry s) = some s.pending := by
  simp [execHwinCommit]

@[simp] theorem execWindowDrainDone_pending (entry : Fin 64) (s : State) :
  Res.pending (execWindowDrainDone entry s) = some s.pending := by
  unfold execWindowDrainDone
  repeat' split
  all_goals simp

@[simp] theorem State.unsupportedReq_pending (s : State) (p : Nat) :
  (State.unsupportedReq s p).pending = s.pending := by
  simp [State.unsupportedReq]

@[simp] theorem execBar2Request_pending (port : Fin 2) (write : Bool) (addr : Nat) (len : Nat) (data : Nat) (s : State) :
  Res.pending (execBar2Request port write addr len data s) = some s.pending := by
  unfold execBar2Request
  dsimp only
  repeat' (first | (simp; done) | intro _ | split | (simp_all; done))

@[simp] theorem State.putAts_pending (s : State) (l : List AtsEntry) :
  (State.putAts s l).pending = s.pending := by
  simp [State.putAts]

@[simp] theorem State.atsPage_pending (s : State) (p : Nat) (page : Nat) (write : Bool) :
  (State.atsPage s p page write).pending = s.pending := by
  unfold State.atsPage
  repeat' split
  all_goals simp

@[simp] theorem State.atsTouch_pending (s : State) (p : Nat) (a : Nat) (n : Nat) (write : Bool) :
  (State.atsTouch s p a n write).pending = s.pending := by
  simp [State.atsTouch]

@[simp] theorem execAtsTranslationCompletion_pending (port : Fin 2) (addr : Nat) (len : Nat) (xlat : Nat) (rd : Bool) (wr : Bool) (s : State) :
  Res.pending (execAtsTranslationCompletion port addr len xlat rd wr s) = some s.pending := by
  unfold execAtsTranslationCompletion
  dsimp only
  repeat' (first | (simp; done) | intro _ | split | (simp_all; done))

@[simp] theorem execAtsInvalidate_pending (port : Fin 2) (addr : Nat) (len : Nat) (tag : Nat) (s : State) :
  Res.pending (execAtsInvalidate port addr len tag s) = some s.pending := by
  simp [execAtsInvalidate]

@[simp] theorem execAtsInvalidateComplete_pending (port : Fin 2) (s : State) :
  Res.pending (execAtsInvalidateComplete port s) = some s.pending := by
  unfold execAtsInvalidateComplete
  dsimp only
  repeat' (first | (simp; done) | intro _ | split | (simp_all; done))

@[simp] theorem State.atsDrop_pending (s : State) (p : Nat) :
  (State.atsDrop s p).pending = s.pending := by
  simp [State.atsDrop]

@[simp] theorem State.msix_pending (s : State) (p : Nat) (v : Nat) :
  (State.msix s p v).pending = s.pending := by
  simp [State.msix]

@[simp] theorem State.msixDrain_pending (s : State) (p : Nat) :
  (State.msixDrain s p).pending = s.pending := by
  simp [State.msixDrain]

@[simp] theorem State.msixWrite_pending (s : State) (p : Nat) (k : Nat) (v : Nat) :
  (State.msixWrite s p k v).pending = s.pending := by
  simp [State.msixWrite]

@[simp] theorem State.hostPieces_pending (s : State) (p : Nat) (data : Nat) (y3 : List (Nat × Nat)) :
  (State.hostPieces s p data y3).pending = s.pending := by
  fun_induction State.hostPieces <;> simp_all

@[simp] theorem State.hostWrite_pending (s : State) (p : Nat) (segs : List (Nat × Nat)) (off : Nat) (n : Nat) (data : Nat) :
  (State.hostWrite s p segs off n data).pending = s.pending := by
  simp [State.hostWrite]

@[simp] theorem State.hostRead_pending (s : State) (p : Nat) (segs : List (Nat × Nat)) (off : Nat) (n : Nat) :
  (State.hostRead s p segs off n).pending = s.pending := by
  simp [State.hostRead]

@[simp] theorem State.putZone_pending (s : State) (n : Nat) (z : Nat) (x : Zone) :
  (State.putZone s n z x).pending = s.pending := by
  simp [State.putZone]

@[simp] theorem State.step8_pending (s : State) (nsid : Nat) (lba : Nat) (n : Nat) :
  (State.step8 s nsid lba n).2.pending = s.pending := by
  unfold State.step8
  repeat' split
  all_goals simp

@[simp] theorem State.admitCmd_pending (s : State) (e : Nat) :
  (State.admitCmd s e).2.pending = s.pending := by
  simp [State.admitCmd]

@[simp] theorem State.complete_pending (s : State) (seq : Nat) (sc : Nat) (info : Nat) (result : Nat) :
  (State.complete s seq sc info result).pending = s.pending := by
  unfold State.complete
  repeat' split
  all_goals simp

@[simp] theorem State.recheck_pending (s : State) (seq : Nat) :
  (State.recheck s seq).pending = s.pending := by
  unfold State.recheck
  repeat' split
  all_goals simp

@[simp] theorem State.settle_pending (s : State) :
  (State.settle s).pending = s.pending := by
  simp [State.settle]

@[simp] theorem State.putPair_pending (s : State) (p : Nat) (q : Nat) (x : Pair) :
  (State.putPair s p q x).pending = s.pending := by
  simp [State.putPair]

@[simp] theorem State.dropBlocks_pending (s : State) (seq : Nat) :
  (State.dropBlocks s seq).pending = s.pending := by
  unfold State.dropBlocks
  simp
  repeat' (first | (simp; done) | intro _ | split | rw [State.each_pending] | (simp_all; done))

@[simp] theorem State.discard_pending (s : State) (which : Cmd → Bool) :
  (State.discard s which).pending = s.pending := by
  simp [State.discard]

@[simp] theorem State.deletePairs_pending (s : State) (p : Nat) (which : Nat → Bool) :
  (State.deletePairs s p which).pending = s.pending := by
  simp [State.deletePairs]

@[simp] theorem State.portReset_pending (s : State) (p : Nat) :
  (State.portReset s p).pending = s.pending := by
  simp [State.portReset]

@[simp] theorem execFunctionLevelReset_pending (port : Fin 2) (s : State) :
  Res.pending (execFunctionLevelReset port s) = some s.pending := by
  simp [execFunctionLevelReset]

@[simp] theorem execFlrDone_pending (port : Fin 2) (s : State) :
  Res.pending (execFlrDone port s) = some s.pending := by
  simp [execFlrDone]

@[simp] theorem State.linkDown_pending (s : State) (p : Nat) :
  (State.linkDown s p).pending = s.pending := by
  simp [State.linkDown]

@[simp] theorem execLinkDown_pending (port : Fin 2) (s : State) :
  Res.pending (execLinkDown port s) = some s.pending := by
  simp [execLinkDown]

@[simp] theorem execPerstAssert_pending (p : Fin 2) (s : State) :
  Res.pending (execPerstAssert p s) = some s.pending := by
  simp [execPerstAssert]

@[simp] theorem execPerstDeassert_pending (p : Fin 2) (s : State) :
  Res.pending (execPerstDeassert p s) = some s.pending := by
  simp [execPerstDeassert]

@[simp] theorem execBusMasterDisable_pending (port : Fin 2) (reads : Bool) (s : State) :
  Res.pending (execBusMasterDisable port reads s) = some s.pending := by
  simp [execBusMasterDisable]

@[simp] theorem execBmeReadsDrained_pending (port : Fin 2) (s : State) :
  Res.pending (execBmeReadsDrained port s) = some s.pending := by
  simp [execBmeReadsDrained]

@[simp] theorem State.resume_pending (s : State) (p : Nat) :
  (State.resume s p).pending = s.pending := by
  simp [State.resume]

@[simp] theorem execHctlResume_pending (port : Fin 2) (s : State) :
  Res.pending (execHctlResume port s) = some s.pending := by
  simp [execHctlResume]

@[simp] theorem State.cfgWrite_pending (s : State) (p : Nat) (cfg : PortCfg) :
  (State.cfgWrite s p cfg).pending = s.pending := by
  simp [State.cfgWrite]

@[simp] theorem execDstateWrite_pending (port : Fin 2) (cfg : PortCfg) (s : State) :
  Res.pending (execDstateWrite port cfg s) = some s.pending := by
  simp [execDstateWrite]

@[simp] theorem State.setupWrite_pending (s : State) (p : Nat) (off : Nat) (len : Nat) (v : Nat) :
  (State.setupWrite s p off len v).pending = s.pending := by
  simp [State.setupWrite]

@[simp] theorem execAdminSetupWrite_pending (port : Fin 2) (off : Nat) (len : Nat) (data : Nat) (s : State) :
  Res.pending (execAdminSetupWrite port off len data s) = some s.pending := by
  simp [execAdminSetupWrite]

@[simp] theorem State.enable_pending (s : State) (p : Nat) :
  (State.enable s p).pending = s.pending := by
  simp [State.enable]

@[simp] theorem execControllerEnable_pending (port : Fin 2) (s : State) :
  Res.pending (execControllerEnable port s) = some s.pending := by
  simp [execControllerEnable]

@[simp] theorem State.disable_pending (s : State) (p : Nat) :
  (State.disable s p).pending = s.pending := by
  simp [State.disable]

@[simp] theorem execControllerDisable_pending (port : Fin 2) (s : State) :
  Res.pending (execControllerDisable port s) = some s.pending := by
  simp [execControllerDisable]

@[simp] theorem State.hctl_pending (s : State) (p : Nat) (v : Nat) :
  (State.hctl s p v).pending = s.pending := by
  simp [State.hctl]

@[simp] theorem State.badDoorbell_pending (s : State) (p : Nat) (q : Nat) :
  (State.badDoorbell s p q).pending = s.pending := by
  simp [State.badDoorbell]

@[simp] theorem State.doorbell_pending (s : State) (p : Nat) (q : Nat) (head : Bool) (v : Nat) :
  (State.doorbell s p q head v).pending = s.pending := by
  unfold State.doorbell
  repeat' split
  all_goals simp

@[simp] theorem State.doorbells_pending (s : State) (p : Nat) (off : Nat) (len : Nat) (v : Nat) :
  (State.doorbells s p off len v).pending = s.pending := by
  simp [State.doorbells]

@[simp] theorem State.bar0WriteWord_pending (s : State) (p : Nat) (off : Nat) (v : Nat) :
  (State.bar0WriteWord s p off v).pending = s.pending := by
  simp [State.bar0WriteWord]

@[simp] theorem State.bar0Write_pending (s : State) (p : Nat) (off : Nat) (len : Nat) (v : Nat) :
  (State.bar0Write s p off len v).pending = s.pending := by
  simp [State.bar0Write]

@[simp] theorem execDoorbellWrite_pending (port : Fin 2) (off : Nat) (len : Nat) (data : Nat) (s : State) :
  Res.pending (execDoorbellWrite port off len data s) = some s.pending := by
  simp [execDoorbellWrite]

@[simp] theorem execBar0Request_pending (port : Fin 2) (write : Bool) (off : Nat) (len : Nat) (data : Nat) (s : State) :
  Res.pending (execBar0Request port write off len data s) = some s.pending := by
  simp [execBar0Request]

@[simp] theorem State.putCmd_pending (s : State) (seq : Nat) (k : Cmd) :
  (State.putCmd s seq k).pending = s.pending := by
  simp [State.putCmd]

@[simp] theorem State.take_pending (s : State) (seq : Nat) (p : Nat) (q : Nat) (sqhd : Nat) (e : Nat) (list : Option (List (Nat × Nat))) :
  (State.take s seq p q sqhd e list).pending = s.pending := by
  simp [State.take]

@[simp] theorem execCommandFetch_pending (port : Fin 2) (entry : Nat) (list : Option (List (Nat × Nat))) (s : State) :
  Res.pending (execCommandFetch port entry list s) = some s.pending := by
  unfold execCommandFetch
  dsimp only
  repeat' (first | (simp; done) | intro _ | split | rw [State.when_pending] | (simp_all; done))

@[simp] theorem execCompletionPost_pending (seq : Nat) (s : State) :
  Res.pending (execCompletionPost seq s) = some s.pending := by
  unfold execCompletionPost
  repeat' split
  all_goals simp

@[simp] theorem State.markPending_pending (s : State) (nsid : Nat) (lba : Nat) :
  (State.markPending s nsid lba).pending = s.pending := by
  simp [State.markPending]

@[simp] theorem State.readBlock_pending (s : State) (seq : Nat) (nsid : Nat) (lba : Nat) (m : MediaRes) :
  (State.readBlock s seq nsid lba m).2.pending = s.pending := by
  unfold State.readBlock
  repeat' split
  all_goals simp

@[simp] theorem State.readBlocks_pending (s : State) (seq : Nat) (k : Cmd) (send : Bool) (y4 : Nat) (y5 : List MediaRes) :
  (State.readBlocks s seq k send y4 y5).2.pending = s.pending := by
  induction y5 generalizing s y4 with
  | nil => rfl
  | cons x xs ih => unfold State.readBlocks; simp only []; repeat' split
                    all_goals simp [ih]

@[simp] theorem State.readCmd_pending (s : State) (seq : Nat) (k : Cmd) (send : Bool) (media : List MediaRes) :
  (State.readCmd s seq k send media).pending = s.pending := by
  unfold State.readCmd
  dsimp only
  repeat' (first | (simp; done) | intro _ | split | (simp_all; done))

@[simp] theorem execRead_pending (seq : Nat) (media : List MediaRes) (s : State) :
  Res.pending (execRead seq media s) = some s.pending := by
  unfold execRead
  repeat' split
  all_goals simp

@[simp] theorem execVerify_pending (seq : Nat) (media : List MediaRes) (s : State) :
  Res.pending (execVerify seq media s) = some s.pending := by
  unfold execVerify
  repeat' split
  all_goals simp

@[simp] theorem State.placeBlock_pending (s : State) (seq : Nat) (nsid : Nat) (lba : Nat) (mode : Nat) (addr : Nat) (block : Nat) :
  (State.placeBlock s seq nsid lba mode addr block).pending = s.pending := by
  simp [State.placeBlock]

@[simp] theorem State.writeBlocks_pending (s : State) (seq : Nat) (k : Cmd) (hostErr : Option Nat) (y4 : Nat) (y5 : List (Nat × Nat)) :
  (State.writeBlocks s seq k hostErr y4 y5).2.pending = s.pending := by
  induction y5 generalizing s y4 with
  | nil => rfl
  | cons x xs ih => unfold State.writeBlocks; simp only []; repeat' split
                    all_goals simp [ih]

@[simp] theorem State.commitBlocks_pending (s : State) (seq : Nat) :
  (State.commitBlocks s seq).pending = s.pending := by
  simp [State.commitBlocks]

@[simp] theorem State.zoneFail_pending (s : State) (nsid : Nat) (lba : Nat) (c : Nat) :
  (State.zoneFail s nsid lba c).pending = s.pending := by
  simp [State.zoneFail]

@[simp] theorem execWrite_pending (seq : Nat) (blocks : List (Nat × Nat)) (hostErr : Option Nat) (s : State) :
  Res.pending (execWrite seq blocks hostErr s) = some s.pending := by
  unfold execWrite
  dsimp only
  repeat' (first | (simp; done) | intro _ | split | (simp_all; done))

@[simp] theorem execWriteAck_pending (seq : Nat) (s : State) :
  Res.pending (execWriteAck seq s) = some s.pending := by
  unfold execWriteAck
  dsimp only
  repeat' (first | (simp; done) | intro _ | split | rw [State.each_pending] | (simp_all; done))

@[simp] theorem execFlush_pending (seq : Nat) (s : State) :
  Res.pending (execFlush seq s) = some s.pending := by
  unfold execFlush
  repeat' split
  all_goals simp

@[simp] theorem execFlushComplete_pending (seq : Nat) (s : State) :
  Res.pending (execFlushComplete seq s) = some s.pending := by
  unfold execFlushComplete
  repeat' split
  all_goals simp

@[simp] theorem State.unwrite_pending (s : State) (seq : Nat) (x : Span) :
  (State.unwrite s seq x).pending = s.pending := by
  unfold State.unwrite
  simp
  repeat' (first | (simp; done) | intro _ | split | rw [State.each_pending] | (simp_all; done))

@[simp] theorem execZoneReset_pending (seq : Nat) (s : State) :
  Res.pending (execZoneReset seq s) = some s.pending := by
  unfold execZoneReset
  repeat' split
  all_goals simp

@[simp] theorem execZoneFinish_pending (seq : Nat) (s : State) :
  Res.pending (execZoneFinish seq s) = some s.pending := by
  unfold execZoneFinish
  repeat' split
  all_goals simp

@[simp] theorem execZoneReport_pending (seq : Nat) (s : State) :
  Res.pending (execZoneReport seq s) = some s.pending := by
  unfold execZoneReport
  repeat' split
  all_goals simp

@[simp] theorem execCreateQp_pending (seq : Nat) (s : State) :
  Res.pending (execCreateQp seq s) = some s.pending := by
  unfold execCreateQp
  repeat' split
  all_goals simp

@[simp] theorem execDeleteQp_pending (seq : Nat) (s : State) :
  Res.pending (execDeleteQp seq s) = some s.pending := by
  unfold execDeleteQp
  repeat' split
  all_goals simp

@[simp] theorem execAbort_pending (seq : Nat) (s : State) :
  Res.pending (execAbort seq s) = some s.pending := by
  unfold execAbort
  dsimp only
  repeat' (first | (simp; done) | intro _ | split | (simp_all; done))

@[simp] theorem execEventWait_pending (seq : Nat) (s : State) :
  Res.pending (execEventWait seq s) = some s.pending := by
  unfold execEventWait
  repeat' split
  all_goals simp

@[simp] theorem State.reply_pending (s : State) (seq : Nat) (k : Cmd) (n : Nat) (data : Nat) :
  (State.reply s seq k n data).pending = s.pending := by
  simp [State.reply]

@[simp] theorem execIdentifyController_pending (seq : Nat) (s : State) :
  Res.pending (execIdentifyController seq s) = some s.pending := by
  unfold execIdentifyController
  repeat' split
  all_goals simp

@[simp] theorem execIdentifyNamespace_pending (seq : Nat) (s : State) :
  Res.pending (execIdentifyNamespace seq s) = some s.pending := by
  unfold execIdentifyNamespace
  repeat' split
  all_goals simp

@[simp] theorem State.getLog_pending (s : State) (seq : Nat) (lid : Nat) (clear : State → Cmd → State) (h0 : ∀ s0 x1, (clear s0 x1).pending = s0.pending) :
  (State.getLog s seq lid clear).pending = s.pending := by
  unfold State.getLog
  dsimp only
  repeat' (first | (simp; done) | intro _ | split | rw [State.when_pending] | rw [State.getLog_pending] | (simp_all; done))

@[simp] theorem execGetLogHealth_pending (seq : Nat) (s : State) :
  Res.pending (execGetLogHealth seq s) = some s.pending := by
  simp [execGetLogHealth]

@[simp] theorem execGetLogFwSlots_pending (seq : Nat) (s : State) :
  Res.pending (execGetLogFwSlots seq s) = some s.pending := by
  simp [execGetLogFwSlots]

@[simp] theorem State.clearDel_pending (s : State) (k : Cmd) :
  (State.clearDel s k).pending = s.pending := by
  simp [State.clearDel]

@[simp] theorem execGetLogDeferredErrors_pending (seq : Nat) (s : State) :
  Res.pending (execGetLogDeferredErrors seq s) = some s.pending := by
  simp [execGetLogDeferredErrors]

@[simp] theorem State.clearEvents_pending (s : State) (k : Cmd) :
  (State.clearEvents s k).pending = s.pending := by
  unfold State.clearEvents
  repeat' split
  all_goals simp

@[simp] theorem execGetLogEventRecords_pending (seq : Nat) (s : State) :
  Res.pending (execGetLogEventRecords seq s) = some s.pending := by
  simp [execGetLogEventRecords]

@[simp] theorem execSetFeature_pending (seq : Nat) (s : State) :
  Res.pending (execSetFeature seq s) = some s.pending := by
  unfold execSetFeature
  repeat' split
  all_goals simp

@[simp] theorem execGetFeature_pending (seq : Nat) (s : State) :
  Res.pending (execGetFeature seq s) = some s.pending := by
  unfold execGetFeature
  repeat' split
  all_goals simp

@[simp] theorem State.modAdm_pending (s : State) (g : Admin → Admin) :
  (State.modAdm s g).pending = s.pending := by
  simp [State.modAdm]

@[simp] theorem State.modBoot_pending (s : State) (g : BootRec → BootRec) :
  (State.modBoot s g).pending = s.pending := by
  simp [State.modBoot]

@[simp] theorem execFwDownload_pending (seq : Nat) (units : Option (List Nat)) (s : State) :
  Res.pending (execFwDownload seq units s) = some s.pending := by
  unfold execFwDownload
  repeat' split
  all_goals simp

@[simp] theorem State.fwCommit_pending (s : State) (seq : Nat) (a : Nat) (sigs : PkgCheck) :
  (State.fwCommit s seq a sigs).pending = s.pending := by
  unfold State.fwCommit
  repeat' split
  all_goals simp

@[simp] theorem execFwCommitCancel_pending (seq : Nat) (s : State) :
  Res.pending (execFwCommitCancel seq s) = some s.pending := by
  unfold execFwCommitCancel
  repeat' split
  all_goals simp

@[simp] theorem execFwCommitPending_pending (seq : Nat) (sigs : PkgCheck) (s : State) :
  Res.pending (execFwCommitPending seq sigs s) = some s.pending := by
  simp [execFwCommitPending]

@[simp] theorem execFwCommitReset_pending (seq : Nat) (sigs : PkgCheck) (s : State) :
  Res.pending (execFwCommitReset seq sigs s) = some s.pending := by
  simp [execFwCommitReset]

@[simp] theorem execTrialTimeout_pending (s : State) :
  Res.pending (execTrialTimeout s) = some s.pending := by
  simp [execTrialTimeout]

@[simp] theorem State.secBoot_pending (s : State) (v : Nat) :
  (State.secBoot s v).pending = s.pending := by
  simp [State.secBoot]

@[simp] theorem execBootConfirm_pending (value : Word) (s : State) :
  Res.pending (execBootConfirm value s) = some s.pending := by
  simp [execBootConfirm]

@[simp] theorem execTempWarn_pending (tj : Nat) (s : State) :
  Res.pending (execTempWarn tj s) = some s.pending := by
  simp [execTempWarn]

@[simp] theorem execTempWarnRearm_pending (tj : Nat) (s : State) :
  Res.pending (execTempWarnRearm tj s) = some s.pending := by
  simp [execTempWarnRearm]

@[simp] theorem execSmbusStatusRead_pending (s : State) :
  Res.pending (execSmbusStatusRead s) = some s.pending := by
  simp [execSmbusStatusRead]

@[simp] theorem execSmbusAddressWrite_pending (addr : Word) (pecOk : Bool) (s : State) :
  Res.pending (execSmbusAddressWrite addr pecOk s) = some s.pending := by
  simp [execSmbusAddressWrite]

@[simp] theorem execSmbusBusTimeout_pending (s : State) :
  Res.pending (execSmbusBusTimeout s) = some s.pending := by
  simp [execSmbusBusTimeout]

@[simp] theorem State.modSec_pending (s : State) (g : Sec → Sec) :
  (State.modSec s g).pending = s.pending := by
  simp [State.modSec]

@[simp] theorem State.generated_pending (s : State) :
  (State.generated s).pending = s.pending := by
  simp [State.generated]

@[simp] theorem execRngTestFail_pending (s : State) :
  Res.pending (execRngTestFail s) = some s.pending := by
  simp [execRngTestFail]

@[simp] theorem execDrbgReseed_pending (s : State) :
  Res.pending (execDrbgReseed s) = some s.pending := by
  simp [execDrbgReseed]

@[simp] theorem State.extend_pending (s : State) (i : Nat) (len : Nat) (v : Nat) :
  (State.extend s i len v).pending = s.pending := by
  simp [State.extend]

@[simp] theorem State.extendM3_pending (s : State) :
  (State.extendM3 s).pending = s.pending := by
  simp [State.extendM3]

@[simp] theorem State.secEnd_pending (s : State) (seq : Nat) (sc : Nat) (reason : Nat) (len : Nat) (data : Nat) :
  (State.secEnd s seq sc reason len data).pending = s.pending := by
  simp [State.secEnd]

@[simp] theorem State.secRefuse_pending (s : State) (seq : Nat) (r : Nat) :
  (State.secRefuse s seq r).pending = s.pending := by
  simp [State.secRefuse]

@[simp] theorem State.secReply_pending (s : State) (seq : Nat) (k : Cmd) (n : Nat) (data : Nat) :
  (State.secReply s seq k n data).pending = s.pending := by
  simp [State.secReply]

@[simp] theorem State.secInfo_pending (s : State) (seq : Nat) (i : Nat) (size : Nat) (data : Nat) :
  (State.secInfo s seq i size data).pending = s.pending := by
  unfold State.secInfo
  repeat' split
  all_goals simp

@[simp] theorem execSecInfoDeviceNonce_pending (seq : Nat) (s : State) :
  Res.pending (execSecInfoDeviceNonce seq s) = some s.pending := by
  simp [execSecInfoDeviceNonce]

@[simp] theorem execSecInfoEnvelopeKeys_pending (seq : Nat) (s : State) :
  Res.pending (execSecInfoEnvelopeKeys seq s) = some s.pending := by
  simp [execSecInfoEnvelopeKeys]

@[simp] theorem execSecInfoCertChains_pending (seq : Nat) (s : State) :
  Res.pending (execSecInfoCertChains seq s) = some s.pending := by
  simp [execSecInfoCertChains]

@[simp] theorem execSecInfoRangeTable_pending (seq : Nat) (s : State) :
  Res.pending (execSecInfoRangeTable seq s) = some s.pending := by
  simp [execSecInfoRangeTable]

@[simp] theorem execSecInfoDebugNonce_pending (seq : Nat) (s : State) :
  Res.pending (execSecInfoDebugNonce seq s) = some s.pending := by
  simp [execSecInfoDebugNonce]

@[simp] theorem execAttest_pending (seq : Nat) (s : State) :
  Res.pending (execAttest seq s) = some s.pending := by
  unfold execAttest
  repeat' split
  all_goals simp

@[simp] theorem execGetRandom_pending (seq : Nat) (s : State) :
  Res.pending (execGetRandom seq s) = some s.pending := by
  unfold execGetRandom
  repeat' split
  all_goals simp

@[simp] theorem State.envCount_pending (s : State) (c : Nat) :
  (State.envCount s c).pending = s.pending := by
  simp [State.envCount]

@[simp] theorem State.newNonce_pending (s : State) :
  (State.newNonce s).pending = s.pending := by
  simp [State.newNonce]

@[simp] theorem State.withEnvelope_pending (s : State) (seq : Nat) (opc : Nat) (op : Nat) (env : Option EnvRes) (ready : State → Cmd → Bool) (act : State → Cmd → EnvRes → Nat × State) (h0 : ∀ s0 x1 x2, (act s0 x1 x2).2.pending = s0.pending) :
  (State.withEnvelope s seq opc op env ready act).pending = s.pending := by
  unfold State.withEnvelope
  dsimp only
  repeat' (first | (simp; done) | intro _ | split | rw [State.withEnvelope_pending] | (simp_all; done))

@[simp] theorem State.eraseData_pending (s : State) (p : Nat → Nat → Bool) :
  (State.eraseData s p).pending = s.pending := by
  simp [State.eraseData]

@[simp] theorem State.rekey_pending (s : State) (r : Nat) :
  (State.rekey s r).pending = s.pending := by
  simp [State.rekey]

@[simp] theorem State.eraseAll_pending (s : State) :
  (State.eraseAll s).pending = s.pending := by
  simp [State.eraseAll]

@[simp] theorem State.owner_pending (s : State) (seq : Nat) (op : Nat) (env : Option EnvRes) (act : State → Cmd → EnvRes → Nat × State) (h0 : ∀ s0 x1 x2, (act s0 x1 x2).2.pending = s0.pending) :
  (State.owner s seq op env act).pending = s.pending := by
  unfold State.owner
  rw [State.withEnvelope_pending]; exact h0

@[simp] theorem whenOwned_pending (g : State → Cmd → EnvRes → Nat × State) (s : State) (k : Cmd) (e : EnvRes) (h0 : ∀ s0 x1 x2, (g s0 x1 x2).2.pending = s0.pending) :
  (whenOwned g s k e).2.pending = s.pending := by
  unfold whenOwned
  simp
  repeat' (first | (simp; done) | intro _ | split | rw [State.when_pending] | rw [whenOwned_pending] | (simp_all; done))

@[simp] theorem State.setCred_pending (s : State) (c : Nat) :
  (State.setCred s c).pending = s.pending := by
  simp [State.setCred]

@[simp] theorem execSecOwnerTake_pending (seq : Nat) (env : Option EnvRes) (s : State) :
  Res.pending (execSecOwnerTake seq env s) = some s.pending := by
  simp [execSecOwnerTake]

@[simp] theorem execSecOwnerChange_pending (seq : Nat) (env : Option EnvRes) (s : State) :
  Res.pending (execSecOwnerChange seq env s) = some s.pending := by
  simp [execSecOwnerChange]

@[simp] theorem State.putLock_pending (s : State) (b : Bool) :
  (State.putLock s b).pending = s.pending := by
  simp [State.putLock]

@[simp] theorem execSecOwnerSetLock_pending (seq : Nat) (env : Option EnvRes) (s : State) :
  Res.pending (execSecOwnerSetLock seq env s) = some s.pending := by
  simp [execSecOwnerSetLock]

@[simp] theorem execSecOwnerClearLock_pending (seq : Nat) (env : Option EnvRes) (s : State) :
  Res.pending (execSecOwnerClearLock seq env s) = some s.pending := by
  simp [execSecOwnerClearLock]

@[simp] theorem State.disown_pending (s : State) :
  (State.disown s).pending = s.pending := by
  simp [State.disown]

@[simp] theorem execSecOwnerRevert_pending (seq : Nat) (env : Option EnvRes) (s : State) :
  Res.pending (execSecOwnerRevert seq env s) = some s.pending := by
  simp [execSecOwnerRevert]

@[simp] theorem execSecOwnerRaiseSvn_pending (seq : Nat) (env : Option EnvRes) (s : State) :
  Res.pending (execSecOwnerRaiseSvn seq env s) = some s.pending := by
  simp [execSecOwnerRaiseSvn]

@[simp] theorem execSecOwnerSetRoster_pending (seq : Nat) (env : Option EnvRes) (roster : List Nat) (s : State) :
  Res.pending (execSecOwnerSetRoster seq env roster s) = some s.pending := by
  simp [execSecOwnerSetRoster]

@[simp] theorem State.rangeCmd_pending (s : State) (seq : Nat) (op : Nat) (env : Option EnvRes) (hits : State → Nat → Span → Bool) (act : State → Nat → Nat × State) (h0 : ∀ s0 x1, (act s0 x1).2.pending = s0.pending) :
  (State.rangeCmd s seq op env hits act).pending = s.pending := by
  unfold State.rangeCmd
  rw [State.withEnvelope_pending]
  intros; rw [whenOwned_pending]; intros; exact h0 _ _

@[simp] theorem execSecRangeDefine_pending (seq : Nat) (env : Option EnvRes) (s : State) :
  Res.pending (execSecRangeDefine seq env s) = some s.pending := by
  simp [execSecRangeDefine]

@[simp] theorem execSecRangeDelete_pending (seq : Nat) (env : Option EnvRes) (s : State) :
  Res.pending (execSecRangeDelete seq env s) = some s.pending := by
  simp [execSecRangeDelete]

@[simp] theorem execSecRangeLock_pending (seq : Nat) (env : Option EnvRes) (s : State) :
  Res.pending (execSecRangeLock seq env s) = some s.pending := by
  simp [execSecRangeLock]

@[simp] theorem execSecRangeUnlock_pending (seq : Nat) (env : Option EnvRes) (s : State) :
  Res.pending (execSecRangeUnlock seq env s) = some s.pending := by
  simp [execSecRangeUnlock]

@[simp] theorem execSecRangeErase_pending (seq : Nat) (env : Option EnvRes) (s : State) :
  Res.pending (execSecRangeErase seq env s) = some s.pending := by
  simp [execSecRangeErase]

@[simp] theorem execMkDiscard_pending (range : Fin 64) (s : State) :
  Res.pending (execMkDiscard range s) = some s.pending := by
  unfold execMkDiscard
  dsimp only
  repeat' (first | (simp; done) | intro _ | split | (simp_all; done))

@[simp] theorem State.newDbgNonce_pending (s : State) :
  (State.newDbgNonce s).pending = s.pending := by
  simp [State.newDbgNonce]

@[simp] theorem State.lockAll_pending (s : State) :
  (State.lockAll s).pending = s.pending := by
  simp [State.lockAll]

@[simp] theorem State.token_pending (s : State) (t : Nat) (g : TokCheck) (seq : Option Nat) :
  (State.token s t g seq).2.pending = s.pending := by
  simp [State.token]

@[simp] theorem execSecDebug_pending (seq : Nat) (token : Option Nat) (sigs : TokCheck) (s : State) :
  Res.pending (execSecDebug seq token sigs s) = some s.pending := by
  unfold execSecDebug
  repeat' split
  all_goals simp

@[simp] theorem execDbgTokenDataWrite_pending (value : Word) (s : State) :
  Res.pending (execDbgTokenDataWrite value s) = some s.pending := by
  simp [execDbgTokenDataWrite]

@[simp] theorem execDbgTokenGo_pending (sigs : TokCheck) (s : State) :
  Res.pending (execDbgTokenGo sigs s) = some s.pending := by
  simp [execDbgTokenGo]

@[simp] theorem execSecRequest_pending (s : State) :
  Res.pending (execSecRequest s) = some s.pending := by
  simp [execSecRequest]

@[simp] theorem State.modRing_pending (s : State) (g : Ring → Ring) :
  (State.modRing s g).pending = s.pending := by
  simp [State.modRing]

@[simp] theorem State.ringEvt_pending (s : State) (F : Field) :
  (State.ringEvt s F).pending = s.pending := by
  simp [State.ringEvt]

@[simp] theorem State.putRole_pending (s : State) (r : Nat) :
  (State.putRole s r).pending = s.pending := by
  simp [State.putRole]

@[simp] theorem State.modRport_pending (s : State) (p : Nat) (g : RPort → RPort) :
  (State.modRport s p g).pending = s.pending := by
  simp [State.modRport]

@[simp] theorem State.pump_pending (s : State) (p : Nat) (y2 : Nat) :
  (State.pump s p y2).pending = s.pending := by
  induction y2 generalizing s with
  | zero => rfl
  | succ n ih => unfold State.pump; simp only []; repeat' split
                 all_goals simp [ih]
                 all_goals (split <;> simp)

@[simp] theorem State.drain_pending (s : State) (p : Nat) :
  (State.drain s p).pending = s.pending := by
  simp [State.drain]

@[simp] theorem State.queueOn_pending (s : State) (p : Nat) (cls : Nat) (flits : Nat) (o : Out) :
  (State.queueOn s p cls flits o).pending = s.pending := by
  simp [State.queueOn]

@[simp] theorem State.tell_pending (s : State) (type : Nat) (dst : Nat) (cls : Nat) (number : Nat) (waddr : Nat) (len : Nat) (payload : Nat) :
  (State.tell s type dst cls number waddr len payload).pending = s.pending := by
  simp [State.tell]

@[simp] theorem State.tellAll_pending (s : State) (type : Nat) (len : Nat) (payload : Nat) :
  (State.tellAll s type len payload).pending = s.pending := by
  simp [State.tellAll]

@[simp] theorem State.frameFail_pending (s : State) (number : Nat) (r : RReq) :
  (State.frameFail s number r).pending = s.pending := by
  simp [State.frameFail]

@[simp] theorem State.agree_pending (s : State) (peer : Nat) :
  (State.agree s peer).pending = s.pending := by
  simp [State.agree]

@[simp] theorem State.useKey_pending (s : State) (dst : Nat) (n : Nat) :
  (State.useKey s dst n).pending = s.pending := by
  unfold State.useKey
  repeat' split
  all_goals simp

@[simp] theorem State.frameOut_pending (s : State) (number : Nat) (f : RFrame) :
  (State.frameOut s number f).pending = s.pending := by
  simp [State.frameOut]

@[simp] theorem State.ringSend_pending (s : State) (type : Nat) (dst : Nat) (cls : Nat) (waddr : Nat) (flen : Nat) (payload : Nat) (req : RReq) :
  (State.ringSend s type dst cls waddr flen payload req).pending = s.pending := by
  simp [State.ringSend]

@[simp] theorem State.reply1_pending (s : State) (type : Nat) (dst : Nat) (number : Nat) (waddr : Nat) (len : Nat) (payload : Nat) :
  (State.reply1 s type dst number waddr len payload).pending = s.pending := by
  simp [State.reply1]

@[simp] theorem State.ringBypass_pending (s : State) :
  (State.ringBypass s).pending = s.pending := by
  simp [State.ringBypass]

@[simp] theorem State.splice_pending (s : State) :
  (State.splice s).pending = s.pending := by
  simp [State.splice]

@[simp] theorem State.ringCtl_pending (s : State) (v : Nat) :
  (State.ringCtl s v).pending = s.pending := by
  simp [State.ringCtl]

@[simp] theorem execRingLeave_pending (s : State) :
  Res.pending (execRingLeave s) = some s.pending := by
  simp [execRingLeave]

@[simp] theorem execLeaveTimeout_pending (s : State) :
  Res.pending (execLeaveTimeout s) = some s.pending := by
  simp [execLeaveTimeout]

@[simp] theorem execSelfFence_pending (s : State) :
  Res.pending (execSelfFence s) = some s.pending := by
  simp [execSelfFence]

@[simp] theorem execRingFence_pending (src : Fin 32) (s : State) :
  Res.pending (execRingFence src s) = some s.pending := by
  simp [execRingFence]

@[simp] theorem execSegmentSignalLoss_pending (east : Bool) (s : State) :
  Res.pending (execSegmentSignalLoss east s) = some s.pending := by
  simp [execSegmentSignalLoss]

@[simp] theorem execSegmentRetrainTimeout_pending (east : Bool) (s : State) :
  Res.pending (execSegmentRetrainTimeout east s) = some s.pending := by
  simp [execSegmentRetrainTimeout]

@[simp] theorem State.sendJoin_pending (s : State) :
  (State.sendJoin s).pending = s.pending := by
  unfold State.sendJoin
  repeat' split
  all_goals simp

@[simp] theorem execSegmentTrained_pending (east : Bool) (bypassed : Nat) (s : State) :
  Res.pending (execSegmentTrained east bypassed s) = some s.pending := by
  simp [execSegmentTrained]

@[simp] theorem execSpliceTimeout_pending (s : State) :
  Res.pending (execSpliceTimeout s) = some s.pending := by
  simp [execSpliceTimeout]

@[simp] theorem execSpliceRetry_pending (s : State) :
  Res.pending (execSpliceRetry s) = some s.pending := by
  simp [execSpliceRetry]

@[simp] theorem State.takeFlit_pending (s : State) (tag : Nat) (f : Nat) :
  (State.takeFlit s tag f).pending = s.pending := by
  unfold State.takeFlit
  repeat' split
  all_goals simp

@[simp] theorem State.freeSlot_pending (s : State) (p : Nat) :
  (State.freeSlot s p).pending = s.pending := by
  simp [State.freeSlot]

@[simp] theorem State.forward_pending (s : State) (p : Nat) (f : Nat) :
  (State.forward s p f).pending = s.pending := by
  simp [State.forward]

@[simp] theorem execFlitReceive_pending (east : Bool) (fec : Fin 3) (tag : Fin 3) (flit : Nat) (s : State) :
  Res.pending (execFlitReceive east fec tag flit s) = some s.pending := by
  simp [execFlitReceive]

@[simp] theorem execLinkFlit_pending (east : Bool) (credits : Nat) (member : Fin 32) (is2208 : Bool) (s : State) :
  Res.pending (execLinkFlit east credits member is2208 s) = some s.pending := by
  simp [execLinkFlit]

@[simp] theorem execCreditReturn_pending (east : Bool) (s : State) :
  Res.pending (execCreditReturn east s) = some s.pending := by
  simp [execCreditReturn]

@[simp] theorem execRingSession_pending (peer : Fin 32) (chainsOk : Bool) (idk : Nat) (s : State) :
  Res.pending (execRingSession peer chainsOk idk s) = some s.pending := by
  simp [execRingSession]

@[simp] theorem execSessionRekey_pending (peer : Fin 32) (hours : Nat) (s : State) :
  Res.pending (execSessionRekey peer hours s) = some s.pending := by
  unfold execSessionRekey
  repeat' split
  all_goals simp

@[simp] theorem execOldKeyExpiry_pending (peer : Fin 32) (s : State) :
  Res.pending (execOldKeyExpiry peer s) = some s.pending := by
  unfold execOldKeyExpiry
  repeat' split
  all_goals simp

@[simp] theorem execKeyLimitStop_pending (peer : Fin 32) (hours : Nat) (s : State) :
  Res.pending (execKeyLimitStop peer hours s) = some s.pending := by
  unfold execKeyLimitStop
  repeat' split
  all_goals simp

@[simp] theorem execDebugPortOpen_pending (s : State) :
  Res.pending (execDebugPortOpen s) = some s.pending := by
  unfold execDebugPortOpen
  repeat' split
  all_goals simp

@[simp] theorem State.writeUntil_pending (s : State) (a : Nat) (n : Nat) (v : Nat) (y4 : List Nat) :
  (State.writeUntil s a n v y4).2.pending = s.pending := by
  induction y4 generalizing s with
  | nil => rfl
  | cons x xs ih => unfold State.writeUntil; simp only []; split <;> simp [ih]

@[simp] theorem State.ringWrite_pending (s : State) (a : Nat) (n : Nat) (v : Nat) :
  (State.ringWrite s a n v).2.pending = s.pending := by
  simp [State.ringWrite]

@[simp] theorem State.writeParts_pending (s : State) (a : Nat) (y2 : List RingPart) :
  (State.writeParts s a y2).2.pending = s.pending := by
  induction y2 generalizing s with
  | nil => rfl
  | cons x xs ih => unfold State.writeParts; simp only []; split <;> simp [ih]

@[simp] theorem State.nack_pending (s : State) (dst : Nat) (number : Nat) (code : Nat) :
  (State.nack s dst number code).pending = s.pending := by
  simp [State.nack]

@[simp] theorem State.handRequest_pending (s : State) (a : Nat) (n : Nat) :
  (State.handRequest s a n).pending = s.pending := by
  simp [State.handRequest]

@[simp] theorem execRingWrite_pending (east : Bool) (src : Fin 32) (number : Nat) (waddr : Nat) (flen : Nat) (parts : List RingPart) (s : State) :
  Res.pending (execRingWrite east src number waddr flen parts s) = some s.pending := by
  unfold execRingWrite
  repeat' split
  all_goals simp

@[simp] theorem execRingReadReq_pending (east : Bool) (src : Fin 32) (number : Nat) (waddr : Nat) (flen : Nat) (s : State) :
  Res.pending (execRingReadReq east src number waddr flen s) = some s.pending := by
  unfold execRingReadReq
  dsimp only
  repeat' (first | (simp; done) | intro _ | split | (simp_all; done))

@[simp] theorem execRingReadResp_pending (src : Fin 32) (number : Nat) (data : Nat) (s : State) :
  Res.pending (execRingReadResp src number data s) = some s.pending := by
  unfold execRingReadResp
  repeat' split
  all_goals simp

@[simp] theorem State.retryOrFail_pending (s : State) (number : Nat) (f : RFrame) (timeout : Bool) :
  (State.retryOrFail s number f timeout).pending = s.pending := by
  simp [State.retryOrFail]

@[simp] theorem State.putJnl_pending (s : State) (i : Nat) (v : Nat) :
  (State.putJnl s i v).pending = s.pending := by
  simp [State.putJnl]

@[simp] theorem State.putReq_pending (s : State) (id : Nat) (r : StripReq) :
  (State.putReq s id r).pending = s.pending := by
  simp [State.putReq]

@[simp] theorem State.sendCell_pending (s : State) (id : Nat) (r : StripReq) (p : Nat × Nat) :
  (State.sendCell s id r p).pending = s.pending := by
  simp [State.sendCell]

@[simp] theorem State.startReq_pending (s : State) (id : Nat) (r : StripReq) :
  (State.startReq s id r).pending = s.pending := by
  unfold State.startReq
  repeat' split
  all_goals simp

@[simp] theorem State.startWaiting_pending (s : State) :
  (State.startWaiting s).pending = s.pending := by
  simp [State.startWaiting]

@[simp] theorem State.newReq_pending (s : State) (r : StripReq) :
  (State.newReq s r).2.pending = s.pending := by
  simp [State.newReq]

@[simp] theorem State.reqRun_pending (s : State) (r : StripReq) :
  (State.reqRun s r).2.pending = s.pending := by
  simp [State.reqRun]

@[simp] theorem State.enterLost_pending (s : State) (slot : Nat) (chord : Nat) (b : Nat) (strip : Nat) :
  (State.enterLost s slot chord b strip).pending = s.pending := by
  simp [State.enterLost]

@[simp] theorem State.clearLost_pending (s : State) (slot : Nat) (chord : Nat) (b : Nat) (strip : Nat) :
  (State.clearLost s slot chord b strip).pending = s.pending := by
  simp [State.clearLost]

@[simp] theorem State.putOp_pending (s : State) (jid : Nat) (o : ChordOp) :
  (State.putOp s jid o).pending = s.pending := by
  simp [State.putOp]

@[simp] theorem State.await_pending (s : State) (jid : Nat) (ids : List Nat) :
  (State.await s jid ids).pending = s.pending := by
  unfold State.await
  repeat' split
  all_goals simp

@[simp] theorem State.askRun_pending (s : State) (jid : Nat) (o : ChordOp) (holder : Nat) (op : Nat) (strip : Nat) (coef' : Nat) (blocks : List Nat) :
  (State.askRun s jid o holder op strip coef' blocks).pending = s.pending := by
  simp [State.askRun]

@[simp] theorem State.sendDeltas_pending (s : State) (jid : Nat) (o : ChordOp) (l : Layout) :
  (State.sendDeltas s jid o l).pending = s.pending := by
  simp [State.sendDeltas]

@[simp] theorem State.mendParity_pending (s : State) (jid : Nat) (o : ChordOp) (l : Layout) :
  (State.mendParity s jid o l).pending = s.pending := by
  simp [State.mendParity]

@[simp] theorem State.closeOp_pending (s : State) (jid : Nat) (o : ChordOp) :
  (State.closeOp s jid o).pending = s.pending := by
  unfold State.closeOp
  dsimp only
  repeat' (first | (simp; done) | intro _ | split | rw [State.each_pending] | (simp_all; done))

@[simp] theorem State.chordPhase_pending (s : State) (jid : Nat) (o : ChordOp) (l : Layout) (p : Nat) :
  (State.chordPhase s jid o l p).pending = s.pending := by
  unfold State.chordPhase
  dsimp only
  repeat' (first | (simp; done) | intro _ | split | rw [State.each_pending] | (simp_all; done))

@[simp] theorem State.runChord_pending (s : State) (jid : Nat) (y2 : Nat) :
  (State.runChord s jid y2).pending = s.pending := by
  fun_induction State.runChord <;> simp_all

@[simp] theorem State.stripAnswer_pending (s : State) (id : Nat) (r : StripReq) (status : Nat) (mask : Nat) (blocks : List Nat) :
  (State.stripAnswer s id r status mask blocks).pending = s.pending := by
  unfold State.stripAnswer
  dsimp only
  repeat' (first | (simp; done) | intro _ | split | (simp_all; done))

@[simp] theorem State.stripFail_pending (s : State) (id : Nat) :
  (State.stripFail s id).pending = s.pending := by
  unfold State.stripFail
  repeat' split
  all_goals simp

@[simp] theorem State.settleLoop_pending (s : State) (y1 : Nat) :
  (State.settleLoop s y1).pending = s.pending := by
  fun_induction State.settleLoop <;> simp_all

@[simp] theorem State.settleStrips_pending (s : State) :
  (State.settleStrips s).pending = s.pending := by
  simp [State.settleStrips]

@[simp] theorem State.framesDone_pending (s : State) (id : Nat) :
  (State.framesDone s id).pending = s.pending := by
  unfold State.framesDone
  repeat' split
  all_goals simp

@[simp] theorem execRingAck_pending (src : Fin 32) (number : Nat) (s : State) :
  Res.pending (execRingAck src number s) = some s.pending := by
  unfold execRingAck
  repeat' split
  all_goals simp

@[simp] theorem execRingNack_pending (src : Fin 32) (number : Nat) (code : Nat) (s : State) :
  Res.pending (execRingNack src number code s) = some s.pending := by
  unfold execRingNack
  repeat' split
  all_goals simp

@[simp] theorem execFrameTimeout_pending (number : Nat) (s : State) :
  Res.pending (execFrameTimeout number s) = some s.pending := by
  unfold execFrameTimeout
  repeat' split
  all_goals simp

@[simp] theorem execFrameRetry_pending (number : Nat) (s : State) :
  Res.pending (execFrameRetry number s) = some s.pending := by
  unfold execFrameRetry
  repeat' split
  all_goals simp

@[simp] theorem State.openOp_pending (s : State) (slot : Nat) (owner : Nat) (chord : Nat) (strip : Nat) (first : Nat) (blocks : List Nat) (addrs : List Nat) :
  (State.openOp s slot owner chord strip first blocks addrs).pending = s.pending := by
  simp [State.openOp]

@[simp] theorem execChordWrite_pending (addrs : List Nat) (s : State) :
  Res.pending (execChordWrite addrs s) = some s.pending := by
  unfold execChordWrite
  simp
  repeat' (first | (simp; done) | intro _ | split | rw [State.settleStrips_pending] | rw [State.each_pending] | rw [State.foldl_pending] | rw [State.foldlp_pending] | (simp_all; done))

@[simp] theorem State.putStrip_pending (s : State) (lba : Nat) (v : Nat) :
  (State.putStrip s lba v).pending = s.pending := by
  simp [State.putStrip]

@[simp] theorem State.stripDo_pending (s : State) (op : Nat) (slot : Nat) (chord : Nat) (first : Nat) (count : Nat) (jid : Nat) (c : Nat) (fail : Nat) (data : List (Option Nat)) :
  (State.stripDo s op slot chord first count jid c fail data).2.2.pending = s.pending := by
  unfold State.stripDo
  repeat' split
  all_goals simp

@[simp] theorem State.takeRequest_pending (s : State) (src : Nat) (cell : Nat) (op : Nat) :
  (State.takeRequest s src cell op).2.pending = s.pending := by
  unfold State.takeRequest
  dsimp only
  repeat' (first | (simp; done) | intro _ | split | (simp_all; done))

@[simp] theorem State.stagedBlocks_pending (s : State) (m : Nat) (first : Nat) (n : Nat) :
  (State.stagedBlocks s m first n).2.pending = s.pending := by
  simp [State.stagedBlocks]

@[simp] theorem State.sendDone_pending (s : State) (src : Nat) (e : Nat) (status : Nat) (mask : Nat) (blocks : List Nat) :
  (State.sendDone s src e status mask blocks).pending = s.pending := by
  simp [State.sendDone]

@[simp] theorem State.stripTarget_pending (s : State) (src : Nat) (cell : Nat) (op : Nat) (fail : Nat) :
  (State.stripTarget s src cell op fail).pending = s.pending := by
  unfold State.stripTarget
  dsimp only
  repeat' (first | (simp; done) | intro _ | split | (simp_all; done))

@[simp] theorem execStripDataWrite_pending (src : Fin 32) (cell : Fin 64) (fail : Nat) (s : State) :
  Res.pending (execStripDataWrite src cell fail s) = some s.pending := by
  simp [execStripDataWrite]

@[simp] theorem execStripParityDelta_pending (src : Fin 32) (cell : Fin 64) (fail : Nat) (s : State) :
  Res.pending (execStripParityDelta src cell fail s) = some s.pending := by
  simp [execStripParityDelta]

@[simp] theorem execStripRead_pending (src : Fin 32) (cell : Fin 64) (fail : Nat) (s : State) :
  Res.pending (execStripRead src cell fail s) = some s.pending := by
  simp [execStripRead]

@[simp] theorem execStripParityWrite_pending (src : Fin 32) (cell : Fin 64) (fail : Nat) (s : State) :
  Res.pending (execStripParityWrite src cell fail s) = some s.pending := by
  simp [execStripParityWrite]

@[simp] theorem execStripLost_pending (src : Fin 32) (cell : Fin 64) (s : State) :
  Res.pending (execStripLost src cell s) = some s.pending := by
  unfold execStripLost
  dsimp only
  repeat' (first | (simp; done) | intro _ | split | rw [State.settleStrips_pending] | rw [State.each_pending] | (simp_all; done))

@[simp] theorem execStripJournal_pending (src : Fin 32) (cell : Fin 64) (s : State) :
  Res.pending (execStripJournal src cell s) = some s.pending := by
  unfold execStripJournal
  dsimp only
  repeat' (first | (simp; done) | intro _ | split | (simp_all; done))

@[simp] theorem execStripRetire_pending (src : Fin 32) (cell : Fin 64) (s : State) :
  Res.pending (execStripRetire src cell s) = some s.pending := by
  unfold execStripRetire
  dsimp only
  repeat' (first | (simp; done) | intro _ | split | (simp_all; done))

@[simp] theorem State.stripEnd_pending (s : State) (m : Nat) (cell : Nat) (fail : Nat) :
  (State.stripEnd s m cell fail).pending = s.pending := by
  unfold State.stripEnd
  dsimp only
  repeat' (first | (simp; done) | intro _ | split | rw [State.foldl_pending] | rw [State.foldlp_pending] | (simp_all; done))

@[simp] theorem execStripDone_pending (member : Fin 32) (cell : Nat) (fail : Nat) (s : State) :
  Res.pending (execStripDone member cell fail s) = some s.pending := by
  simp [execStripDone]

@[simp] theorem execLockedRetry_pending (s : State) :
  Res.pending (execLockedRetry s) = some s.pending := by
  simp [execLockedRetry]

@[simp] theorem State.writeStrip_pending (s : State) (l : Layout) (slot : Nat) (chord : Nat) (t : Nat) (holder : Nat) (first : Nat) (jid : Nat) (cls : Nat) (blocks : List Nat) :
  (State.writeStrip s l slot chord t holder first jid cls blocks).pending = s.pending := by
  simp [State.writeStrip]

@[simp] theorem State.loseOffset_pending (s : State) (l : Layout) (slot : Nat) (chord : Nat) (b : Nat) (got : SMap Nat) :
  (State.loseOffset s l slot chord b got).pending = s.pending := by
  simp [State.loseOffset]

@[simp] theorem execChordRead_pending (nsid : Nat) (lba : Nat) (strips : List MediaRes) (s : State) :
  Res.pending (execChordRead nsid lba strips s) = some s.pending := by
  unfold execChordRead
  dsimp only
  repeat' (first | (simp; done) | intro _ | split | rw [State.when_pending] | (simp_all; done))

@[simp] theorem State.recoverOffset_pending (s : State) (l : Layout) (r : Nat) (b : Nat) (rs : List MediaRes) :
  (State.recoverOffset s l r b rs).pending = s.pending := by
  unfold State.recoverOffset
  dsimp only
  repeat' (first | (simp; done) | intro _ | split | rw [State.when_pending] | rw [State.settleStrips_pending] | rw [State.each_pending] | (simp_all; done))

@[simp] theorem State.recoverRecord_pending (s : State) (cell : Nat) (r : Nat) (reads : List (List MediaRes)) :
  (State.recoverRecord s cell r reads).pending = s.pending := by
  unfold State.recoverRecord
  dsimp only
  repeat' (first | (simp; done) | intro _ | split | rw [State.settleStrips_pending] | rw [State.each_pending] | (simp_all; done))

@[simp] theorem State.putRebuild_pending (s : State) :
  (State.putRebuild s).pending = s.pending := by
  simp [State.putRebuild]

@[simp] theorem execJournalRecover_pending (reads : List (List (List MediaRes))) (s : State) :
  Res.pending (execJournalRecover reads s) = some s.pending := by
  simp [execJournalRecover]

@[simp] theorem execStampRecovery_pending (cands : List (Nat × List (List MediaRes))) (s : State) :
  Res.pending (execStampRecovery cands s) = some s.pending := by
  unfold execStampRecovery
  simp
  repeat' (first | (simp; done) | intro _ | split | rw [State.settleStrips_pending] | rw [State.each_pending] | (simp_all; done))

@[simp] theorem State.rebuildOffset_pending (s : State) (l : Layout) (slot : Nat) (c : Nat) (b : Nat) (rs : List MediaRes) (moved : List Nat) :
  (State.rebuildOffset s l slot c b rs moved).pending = s.pending := by
  unfold State.rebuildOffset
  dsimp only
  repeat' (first | (simp; done) | intro _ | split | rw [State.settleStrips_pending] | rw [State.each_pending] | (simp_all; done))

@[simp] theorem execRebuildScan_pending (strips : List (List MediaRes)) (s : State) :
  Res.pending (execRebuildScan strips s) = some s.pending := by
  unfold execRebuildScan
  repeat' split
  all_goals simp

@[simp] theorem State.startScans_pending (s : State) (before : SMap (List Nat)) :
  (State.startScans s before).pending = s.pending := by
  simp [State.startScans]

@[simp] theorem State.appendFail_pending (s : State) (m : Nat) :
  (State.appendFail s m).pending = s.pending := by
  simp [State.appendFail]

@[simp] theorem State.adopt_pending (s : State) (m : Nat) :
  (State.adopt s m).pending = s.pending := by
  simp [State.adopt]

@[simp] theorem State.adoptEnd_pending (s : State) :
  (State.adoptEnd s).pending = s.pending := by
  unfold State.adoptEnd
  repeat' split
  all_goals simp

@[simp] theorem State.resendRecords_pending (s : State) (p : Nat) :
  (State.resendRecords s p).pending = s.pending := by
  simp [State.resendRecords]

@[simp] theorem State.chordMap_pending (s : State) (old : Option Nat) (new : Option Nat) :
  (State.chordMap s old new).pending = s.pending := by
  simp [State.chordMap]

@[simp] theorem State.swapSlot_pending (s : State) (slot : Nat) :
  (State.swapSlot s slot).pending = s.pending := by
  simp [State.swapSlot]

@[simp] theorem State.layoutCommit_pending (s : State) (slot : Nat) :
  (State.layoutCommit s slot).pending = s.pending := by
  simp [State.layoutCommit]

@[simp] theorem State.reshapeGo_pending (s : State) :
  (State.reshapeGo s).pending = s.pending := by
  simp [State.reshapeGo]

@[simp] theorem State.reshapeSwitch_pending (s : State) :
  (State.reshapeSwitch s).pending = s.pending := by
  unfold State.reshapeSwitch
  repeat' split
  all_goals simp

@[simp] theorem State.chdCtl_pending (s : State) (v : Nat) :
  (State.chdCtl s v).pending = s.pending := by
  simp [State.chdCtl]

@[simp] theorem execLayoutCommit_pending (value : Word) (s : State) :
  Res.pending (execLayoutCommit value s) = some s.pending := by
  simp [execLayoutCommit]

@[simp] theorem execReshapeStart_pending (s : State) :
  Res.pending (execReshapeStart s) = some s.pending := by
  simp [execReshapeStart]

@[simp] theorem execReshapeSwitch_pending (s : State) :
  Res.pending (execReshapeSwitch s) = some s.pending := by
  simp [execReshapeSwitch]

@[simp] theorem State.saveCheckpoint_pending (s : State) (k : Nat) (slot : Nat) :
  (State.saveCheckpoint s k slot).pending = s.pending := by
  unfold State.saveCheckpoint
  dsimp only
  repeat' (first | (simp; done) | intro _ | split | (simp_all; done))

@[simp] theorem execReshapeChordCopy_pending (data : List MediaRes) (s : State) :
  Res.pending (execReshapeChordCopy data s) = some s.pending := by
  unfold execReshapeChordCopy
  repeat' split
  all_goals simp

@[simp] theorem execHeartbeatSend_pending (s : State) :
  Res.pending (execHeartbeatSend s) = some s.pending := by
  simp [execHeartbeatSend]

@[simp] theorem State.putRate_pending (s : State) (r : Nat) :
  (State.putRate s r).pending = s.pending := by
  simp [State.putRate]

@[simp] theorem execRingRate_pending (src : Fin 32) (code : Fin 4) (s : State) :
  Res.pending (execRingRate src code s) = some s.pending := by
  simp [execRingRate]

@[simp] theorem State.rateCheck_pending (s : State) :
  (State.rateCheck s).pending = s.pending := by
  simp [State.rateCheck]

@[simp] theorem State.showMap_pending (s : State) (r : Nat) :
  (State.showMap s r).pending = s.pending := by
  simp [State.showMap]

@[simp] theorem State.takeMap_pending (s : State) (r : Nat) :
  (State.takeMap s r).pending = s.pending := by
  simp [State.takeMap]

@[simp] theorem execMapAccept_pending (src : Fin 32) (map : Nat) (s : State) :
  Res.pending (execMapAccept src map s) = some s.pending := by
  simp [execMapAccept]

@[simp] theorem State.commitMap_pending (s : State) (order : List Nat) :
  (State.commitMap s order).pending = s.pending := by
  simp [State.commitMap]

@[simp] theorem execMapCommit_pending (order : List Nat) (s : State) :
  Res.pending (execMapCommit order s) = some s.pending := by
  simp [execMapCommit]

@[simp] theorem State.becomeManager_pending (s : State) :
  (State.becomeManager s).pending = s.pending := by
  simp [State.becomeManager]

@[simp] theorem execHeartbeatReceive_pending (src : Fin 32) (hb : Heartbeat) (s : State) :
  Res.pending (execHeartbeatReceive src hb s) = some s.pending := by
  simp [execHeartbeatReceive]

@[simp] theorem execMemberFailTimeout_pending (member : Fin 32) (s : State) :
  Res.pending (execMemberFailTimeout member s) = some s.pending := by
  unfold execMemberFailTimeout
  dsimp only
  repeat' (first | (simp; done) | intro _ | split | (simp_all; done))

@[simp] theorem execRingJoin_pending (member : Fin 32) (leave : Bool) (s : State) :
  Res.pending (execRingJoin member leave s) = some s.pending := by
  simp [execRingJoin]

@[simp] theorem execClaimSend_pending (s : State) :
  Res.pending (execClaimSend s) = some s.pending := by
  simp [execClaimSend]

@[simp] theorem execClaimReceive_pending (member : Fin 32) (epoch : Nat) (s : State) :
  Res.pending (execClaimReceive member epoch s) = some s.pending := by
  simp [execClaimReceive]

@[simp] theorem execClaimWin_pending (s : State) :
  Res.pending (execClaimWin s) = some s.pending := by
  simp [execClaimWin]

@[simp] theorem execQuorumLoss_pending (s : State) :
  Res.pending (execQuorumLoss s) = some s.pending := by
  simp [execQuorumLoss]

@[simp] theorem State.modCore_pending (s : State) (g : Cores → Cores) :
  (State.modCore s g).pending = s.pending := by
  simp [State.modCore]

@[simp] theorem State.carry_pending (s : State) (old : State) (fs : List Field) :
  (State.carry s old fs).pending = s.pending := by
  simp [State.carry]

@[simp] theorem State.gatesLow_pending (s : State) :
  (State.gatesLow s).pending = s.pending := by
  simp [State.gatesLow]

@[simp] theorem State.cleared_pending (s : State) (keep : Bool) :
  (State.cleared s keep).pending = s.pending := by
  simp [State.cleared]

@[simp] theorem State.resetNow_pending (s : State) (causes : List Field) :
  (State.resetNow s causes).pending = s.pending := by
  simp [State.resetNow]

@[simp] theorem State.deviceReset_pending (s : State) (cause : Field) :
  (State.deviceReset s cause).pending = s.pending := by
  simp [State.deviceReset]

@[simp] theorem State.faultStop_pending (s : State) (processor : Bool) :
  (State.faultStop s processor).pending = s.pending := by
  simp [State.faultStop]

@[simp] theorem State.fatal_pending (s : State) (cause : Field) (saves : Bool) (processor : Bool) :
  (State.fatal s cause saves processor).pending = s.pending := by
  simp [State.fatal]

@[simp] theorem execSysPorNLow_pending (s : State) :
  Res.pending (execSysPorNLow s) = some s.pending := by
  simp [execSysPorNLow]

@[simp] theorem execVmonFault_pending (s : State) :
  Res.pending (execVmonFault s) = some s.pending := by
  simp [execVmonFault]

@[simp] theorem execWatchdogExpiry_pending (ms : Nat) (s : State) :
  Res.pending (execWatchdogExpiry ms s) = some s.pending := by
  unfold execWatchdogExpiry
  dsimp only
  repeat' (first | (simp; done) | intro _ | split | (simp_all; done))

@[simp] theorem execWatchdogKick_pending (_value : Word) (s : State) :
  Res.pending (execWatchdogKick _value s) = some s.pending := by
  simp [execWatchdogKick]

@[simp] theorem State.rstCtl_pending (s : State) (v : Nat) :
  (State.rstCtl s v).pending = s.pending := by
  simp [State.rstCtl]

@[simp] theorem execSoftReset_pending (value : Word) (s : State) :
  Res.pending (execSoftReset value s) = some s.pending := by
  simp [execSoftReset]

@[simp] theorem execDebugReset_pending (s : State) :
  Res.pending (execDebugReset s) = some s.pending := by
  simp [execDebugReset]

@[simp] theorem execDeferredReset_pending (s : State) :
  Res.pending (execDeferredReset s) = some s.pending := by
  simp [execDeferredReset]

@[simp] theorem execFwResetDrainDone_pending (s : State) :
  Res.pending (execFwResetDrainDone s) = some s.pending := by
  simp [execFwResetDrainDone]

@[simp] theorem execLockstepMismatch_pending (pair : Fin 5) (s : State) :
  Res.pending (execLockstepMismatch pair s) = some s.pending := by
  simp [execLockstepMismatch]

@[simp] theorem State.wordsRead_pending (s : State) (inst : Nat) (o : Nat) (n : Nat) :
  (State.wordsRead s inst o n).pending = s.pending := by
  simp [State.wordsRead]

@[simp] theorem State.busRead_pending (s : State) (a : Nat) (n : Nat) :
  (State.busRead s a n).2.2.pending = s.pending := by
  unfold State.busRead
  repeat' split
  all_goals simp

@[simp] theorem State.busWrite_pending (s : State) (a : Nat) (v : Nat) (n : Nat) (lo : Nat) (hi : Nat) :
  (State.busWrite s a v n lo hi).2.pending = s.pending := by
  unfold State.busWrite
  repeat' split
  all_goals simp

@[simp] theorem State.cchReject_pending (s : State) (c : Nat) :
  (State.cchReject s c).pending = s.pending := by
  simp [State.cchReject]

@[simp] theorem State.dmaReject_pending (s : State) (c : Nat) :
  (State.dmaReject s c).pending = s.pending := by
  simp [State.dmaReject]

@[simp] theorem State.coreCtl_pending (s : State) (v : Nat) :
  (State.coreCtl s v).pending = s.pending := by
  simp [State.coreCtl]

@[simp] theorem execCoreRelease_pending (value : Word) (s : State) :
  Res.pending (execCoreRelease value s) = some s.pending := by
  simp [execCoreRelease]

@[simp] theorem State.l1Ctl_pending (s : State) (n : Nat) (v : Nat) :
  (State.l1Ctl s n v).pending = s.pending := by
  simp [State.l1Ctl]

@[simp] theorem execL1Invalidate_pending (core : Fin 4) (value : Word) (s : State) :
  Res.pending (execL1Invalidate core value s) = some s.pending := by
  simp [execL1Invalidate]

@[simp] theorem execL1InvalidateDone_pending (core : Fin 4) (s : State) :
  Res.pending (execL1InvalidateDone core s) = some s.pending := by
  simp [execL1InvalidateDone]

@[simp] theorem State.l1Drop_pending (s : State) (line : Nat) (keep : Option Nat) :
  (State.l1Drop s line keep).pending = s.pending := by
  simp [State.l1Drop]

@[simp] theorem State.l1Put_pending (s : State) (core : Nat) (inst : Bool) (line : Nat) (data : Nat) (pos : Nat) (word : Nat → Bool) :
  (State.l1Put s core inst line data pos word).pending = s.pending := by
  simp [State.l1Put]

@[simp] theorem State.l1Fill_pending (s : State) (core : Nat) (inst : Bool) (line : Nat) (data : Nat) :
  (State.l1Fill s core inst line data).pending = s.pending := by
  unfold State.l1Fill
  repeat' split
  all_goals simp

@[simp] theorem State.l1Read_pending (s : State) (core : Nat) (inst : Bool) (line : Nat) (off : Nat) :
  (State.l1Read s core inst line off).2.pending = s.pending := by
  unfold State.l1Read
  repeat' split
  all_goals simp

@[simp] theorem State.l1Store_pending (s : State) (core : Nat) (line : Nat) (off : Nat) (n : Nat) (d : Nat) :
  (State.l1Store s core line off n d).pending = s.pending := by
  unfold State.l1Store
  dsimp only
  repeat' split
  all_goals simp
  all_goals (split <;> simp)

@[simp] theorem State.l2Rewrite_pending (s : State) (k : Nat) :
  (State.l2Rewrite s k).pending = s.pending := by
  simp [State.l2Rewrite]

@[simp] theorem State.l2Put_pending (s : State) (k : Nat) (l : L2Line) :
  (State.l2Put s k l).pending = s.pending := by
  simp [State.l2Put]

@[simp] theorem State.l2Drop_pending (s : State) (k : Nat) :
  (State.l2Drop s k).pending = s.pending := by
  unfold State.l2Drop
  repeat' split
  all_goals simp

@[simp] theorem State.l2Fatal_pending (s : State) :
  (State.l2Fatal s).pending = s.pending := by
  simp [State.l2Fatal]

@[simp] theorem State.l2Refetch_pending (s : State) (k : Nat) (l : L2Line) :
  (State.l2Refetch s k l).pending = s.pending := by
  unfold State.l2Refetch
  dsimp only
  repeat' (first | (simp; done) | intro _ | split | (simp_all; done))

@[simp] theorem State.l2Check_pending (s : State) (k : Nat) :
  (State.l2Check s k).pending = s.pending := by
  unfold State.l2Check
  repeat' split
  all_goals simp

@[simp] theorem State.l2Serve_pending (s : State) (core : Nat) (k : Nat) (line : Nat) (fetch : Bool) (store : Option (Nat × Nat)) (off : Nat) :
  (State.l2Serve s core k line fetch store off).pending = s.pending := by
  unfold State.l2Serve
  simp
  repeat' (first | (simp; done) | intro _ | split | rw [State.each_pending] | rw [State.when_pending] | rw [State.foldl_pending] | rw [State.foldlp_pending] | rw [State.foldlp2_pending] | (simp_all; done))

@[simp] theorem State.l2Miss_pending (s : State) (core : Nat) (line : Nat) (way : Nat) (fetch : Bool) (store : Option (Nat × Nat)) (off : Nat) :
  (State.l2Miss s core line way fetch store off).pending = s.pending := by
  unfold State.l2Miss
  dsimp only
  repeat' (first | (simp; done) | intro _ | split | (simp_all; done))

@[simp] theorem State.l2Access_pending (s : State) (core : Fin 4) (addr : Nat) (fetch : Bool) (way : Fin 16) (store : Option (Nat × Nat)) :
  (State.l2Access s core addr fetch way store).pending = s.pending := by
  unfold State.l2Access
  dsimp only
  repeat' (first | (simp; done) | intro _ | split | (simp_all; done))

@[simp] theorem execL2Fill_pending (core : Fin 4) (addr : Nat) (fetch : Bool) (way : Fin 16) (store : Option (Nat × Nat)) (s : State) :
  Res.pending (execL2Fill core addr fetch way store s) = some s.pending := by
  unfold execL2Fill
  dsimp only
  repeat' (first | (simp; done) | intro _ | split | (simp_all; done))

@[simp] theorem execL2EvictionWriteback_pending (s : State) :
  Res.pending (execL2EvictionWriteback s) = some s.pending := by
  unfold execL2EvictionWriteback
  repeat' split
  all_goals simp

@[simp] theorem State.mntAt_pending (s : State) (op : Nat) (k : Nat) :
  (State.mntAt s op k).pending = s.pending := by
  unfold State.mntAt
  repeat' split
  all_goals simp

@[simp] theorem State.mntRun_pending (s : State) (r : Nat) (m : MntOp) (lo : Nat) (hi : Nat) :
  (State.mntRun s r m lo hi).pending = s.pending := by
  simp [State.mntRun]

@[simp] theorem State.mntCtl_pending (s : State) (r : Nat) (v : Nat) :
  (State.mntCtl s r v).pending = s.pending := by
  simp [State.mntCtl]

@[simp] theorem execCacheClean_pending (req : Fin 5) (target : Fin 4) (byWay : Bool) (s : State) :
  Res.pending (execCacheClean req target byWay s) = some s.pending := by
  simp [execCacheClean]

@[simp] theorem execCacheInvalidate_pending (req : Fin 5) (target : Fin 4) (byWay : Bool) (s : State) :
  Res.pending (execCacheInvalidate req target byWay s) = some s.pending := by
  simp [execCacheInvalidate]

@[simp] theorem execCacheCleanInvalidate_pending (req : Fin 5) (target : Fin 4) (byWay : Bool) (s : State) :
  Res.pending (execCacheCleanInvalidate req target byWay s) = some s.pending := by
  simp [execCacheCleanInvalidate]

@[simp] theorem execMaintenanceDone_pending (req : Fin 5) (s : State) :
  Res.pending (execMaintenanceDone req s) = some s.pending := by
  unfold execMaintenanceDone
  dsimp only
  repeat' (first | (simp; done) | intro _ | split | (simp_all; done))

@[simp] theorem State.l2SweepCtl_pending (s : State) (v : Nat) :
  (State.l2SweepCtl s v).pending = s.pending := by
  simp [State.l2SweepCtl]

@[simp] theorem execL2Sweep_pending (s : State) :
  Res.pending (execL2Sweep s) = some s.pending := by
  simp [execL2Sweep]

@[simp] theorem execL2SweepDone_pending (s : State) :
  Res.pending (execL2SweepDone s) = some s.pending := by
  simp [execL2SweepDone]

@[simp] theorem State.dmaEnd_pending (s : State) (c : Nat) (st : Nat) (code : Nat) :
  (State.dmaEnd s c st code).pending = s.pending := by
  simp [State.dmaEnd]

@[simp] theorem State.dmaStatus_pending (s : State) (a : Nat) (v : Nat) :
  (State.dmaStatus s a v).2.pending = s.pending := by
  simp [State.dmaStatus]

@[simp] theorem State.dmaFetch_pending (s : State) (c : Nat) (a : Nat) :
  (State.dmaFetch s c a).pending = s.pending := by
  simp [State.dmaFetch]

@[simp] theorem State.dmaStart_pending (s : State) (c : Nat) :
  (State.dmaStart s c).pending = s.pending := by
  simp [State.dmaStart]

@[simp] theorem execDmaStart_pending (ch : Fin 32) (s : State) :
  Res.pending (execDmaStart ch s) = some s.pending := by
  simp [execDmaStart]

@[simp] theorem State.dmaLine_pending (s : State) (d : Nat) (i : Nat) :
  (State.dmaLine s d i).2.pending = s.pending := by
  simp [State.dmaLine]

@[simp] theorem State.dmaLines_pending (s : State) (d : Nat) (i : Nat) (y3 : Nat) :
  (State.dmaLines s d i y3).2.pending = s.pending := by
  induction y3 generalizing s i with
  | zero => rfl
  | succ n ih => unfold State.dmaLines; simp only []; repeat' split
                 all_goals simp [ih]

@[simp] theorem State.dmaTransfer_pending (s : State) (d : Nat) :
  (State.dmaTransfer s d).2.pending = s.pending := by
  simp [State.dmaTransfer]

@[simp] theorem execDmaDescriptorDone_pending (ch : Fin 32) (s : State) :
  Res.pending (execDmaDescriptorDone ch s) = some s.pending := by
  unfold execDmaDescriptorDone
  dsimp only
  repeat' (first | (simp; done) | intro _ | split | (simp_all; done))

@[simp] theorem execDmaTransferError_pending (ch : Fin 32) (s : State) :
  Res.pending (execDmaTransferError ch s) = some s.pending := by
  unfold execDmaTransferError
  dsimp only
  repeat' (first | (simp; done) | intro _ | split | (simp_all; done))

@[simp] theorem State.dmaMix_pending (s : State) (c : Nat) (d : Nat) (i : Nat) :
  (State.dmaMix s c d i).pending = s.pending := by
  simp [State.dmaMix]

@[simp] theorem State.dmaDrop_pending (s : State) (c : Nat) :
  (State.dmaDrop s c).pending = s.pending := by
  unfold State.dmaDrop
  repeat' split
  all_goals simp

@[simp] theorem execDmaDrop_pending (ch : Fin 32) (s : State) :
  Res.pending (execDmaDrop ch s) = some s.pending := by
  simp [execDmaDrop]

@[simp] theorem execDmaDrainDone_pending (ch : Fin 32) (s : State) :
  Res.pending (execDmaDrainDone ch s) = some s.pending := by
  simp [execDmaDrainDone]

@[simp] theorem execSecRequestDone_pending (s : State) :
  Res.pending (execSecRequestDone s) = some s.pending := by
  unfold execSecRequestDone
  repeat' split
  all_goals simp

@[simp] theorem State.sysReject_pending (s : State) (c : Nat) (d : Nat) :
  (State.sysReject s c d).pending = s.pending := by
  simp [State.sysReject]

@[simp] theorem State.clearRegs_pending (s : State) (lo : Nat) (hi : Nat) :
  (State.clearRegs s lo hi).pending = s.pending := by
  simp [State.clearRegs]

@[simp] theorem State.slotDown_pending (s : State) (i : Nat) :
  (State.slotDown s i).pending = s.pending := by
  simp [State.slotDown]

@[simp] theorem State.domReset_pending (s : State) (d : Nat) :
  (State.domReset s d).pending = s.pending := by
  simp [State.domReset]

@[simp] theorem State.pdReq_pending (s : State) (n : Nat) (v : Nat) :
  (State.pdReq s n v).pending = s.pending := by
  unfold State.pdReq
  dsimp only
  repeat' (first | (simp; done) | intro _ | split | (simp_all; done))

@[simp] theorem execPdReqWrite_pending (n : Fin 3) (value : Word) (s : State) :
  Res.pending (execPdReqWrite n value s) = some s.pending := by
  simp [execPdReqWrite]

@[simp] theorem State.wantDom_pending (s : State) (d : Nat) (on : Bool) :
  (State.wantDom s d on).pending = s.pending := by
  simp [State.wantDom]

@[simp] theorem execDomainRampStart_pending (s : State) :
  Res.pending (execDomainRampStart s) = some s.pending := by
  unfold execDomainRampStart
  repeat' split
  all_goals simp

@[simp] theorem State.coresGo_pending (s : State) :
  (State.coresGo s).pending = s.pending := by
  simp [State.coresGo]

@[simp] theorem State.domUp_pending (s : State) (d : Nat) :
  (State.domUp s d).pending = s.pending := by
  simp [State.domUp]

@[simp] theorem execDomainRampDone_pending (d : Fin 96) (s : State) :
  Res.pending (execDomainRampDone d s) = some s.pending := by
  simp [execDomainRampDone]

@[simp] theorem execDomainPowerDownDone_pending (d : Fin 96) (s : State) :
  Res.pending (execDomainPowerDownDone d s) = some s.pending := by
  simp [execDomainPowerDownDone]

@[simp] theorem State.afeFit_pending (s : State) (n : Nat) (v : Nat) :
  (State.afeFit s n v).pending = s.pending := by
  unfold State.afeFit
  dsimp only
  repeat' (first | (simp; done) | intro _ | split | rw [State.when_pending] | (simp_all; done))

@[simp] theorem execAfeFitWrite_pending (n : Fin 2) (value : Word) (s : State) :
  Res.pending (execAfeFitWrite n value s) = some s.pending := by
  simp [execAfeFitWrite]

@[simp] theorem State.clockFault_pending (s : State) (i : Nat) :
  (State.clockFault s i).pending = s.pending := by
  simp [State.clockFault]

@[simp] theorem execClockMonitorWindow_pending (measured : List (Nat × Nat)) (s : State) :
  Res.pending (execClockMonitorWindow measured s) = some s.pending := by
  simp [execClockMonitorWindow]

@[simp] theorem execVioLoss_pending (s : State) :
  Res.pending (execVioLoss s) = some s.pending := by
  simp [execVioLoss]

@[simp] theorem State.shed_pending (s : State) :
  (State.shed s).pending = s.pending := by
  simp [State.shed]

@[simp] theorem execVinFail_pending (vin : Nat) (s : State) :
  Res.pending (execVinFail vin s) = some s.pending := by
  simp [execVinFail]

@[simp] theorem State.startStep_pending (s : State) (n : Nat) (g : State → State) (h0 : ∀ s0, (g s0).pending = s0.pending) :
  (State.startStep s n g).pending = s.pending := by
  unfold State.startStep
  simp
  repeat' (first | (simp; done) | intro _ | split | rw [State.startStep_pending] | (simp_all; done))

@[simp] theorem execSysPorNRise_pending (straps : Straps) (s : State) :
  Res.pending (execSysPorNRise straps s) = some s.pending := by
  simp [execSysPorNRise]

@[simp] theorem execPllLock_pending (s : State) :
  Res.pending (execPllLock s) = some s.pending := by
  simp [execPllLock]

@[simp] theorem State.fuseStop_pending (s : State) :
  (State.fuseStop s).pending = s.pending := by
  simp [State.fuseStop]

@[simp] theorem execFuseMapLoad_pending (good : Bool) (repaired : Nat) (s : State) :
  Res.pending (execFuseMapLoad good repaired s) = some s.pending := by
  simp [execFuseMapLoad]

@[simp] theorem execNutStart_pending (s : State) :
  Res.pending (execNutStart s) = some s.pending := by
  simp [execNutStart]

@[simp] theorem State.eraseStaging_pending (s : State) :
  (State.eraseStaging s).pending = s.pending := by
  simp [State.eraseStaging]

@[simp] theorem State.installActive_pending (s : State) :
  (State.installActive s).pending = s.pending := by
  simp [State.installActive]

@[simp] theorem State.install_pending (s : State) :
  (State.install s).pending = s.pending := by
  simp [State.install]

@[simp] theorem State.applyCommit_pending (s : State) (staging : PkgCheck) :
  (State.applyCommit s staging).pending = s.pending := by
  simp [State.applyCommit]

@[simp] theorem State.fallBack_pending (s : State) :
  (State.fallBack s).pending = s.pending := by
  simp [State.fallBack]

@[simp] theorem State.restoreFallback_pending (s : State) :
  (State.restoreFallback s).pending = s.pending := by
  simp [State.restoreFallback]

@[simp] theorem State.chooseSlot_pending (s : State) (active : PkgCheck) (fallback : PkgCheck) (staging : PkgCheck) :
  (State.chooseSlot s active fallback staging).2.pending = s.pending := by
  simp [State.chooseSlot]

@[simp] theorem State.bootSlot_pending (s : State) (k : Nat) (p : FwPkg) :
  (State.bootSlot s k p).pending = s.pending := by
  simp [State.bootSlot]

@[simp] theorem State.startDrbg_pending (s : State) (entropy : Bool) :
  (State.startDrbg s entropy).pending = s.pending := by
  simp [State.startDrbg]

@[simp] theorem State.startKeys_pending (s : State) :
  (State.startKeys s).pending = s.pending := by
  simp [State.startKeys]

@[simp] theorem execSlotChoice_pending (puf : Bool) (recovery : PkgCheck) (active : PkgCheck) (fallback : PkgCheck) (staging : PkgCheck) (entropy : Bool) (s : State) :
  Res.pending (execSlotChoice puf recovery active fallback staging entropy s) = some s.pending := by
  unfold execSlotChoice
  dsimp only
  repeat' (first | (simp; done) | intro _ | split | rw [State.startStep_pending] | (simp_all; done))

@[simp] theorem execHbmTrainingDone_pending (good : Bool) (s : State) :
  Res.pending (execHbmTrainingDone good s) = some s.pending := by
  simp [execHbmTrainingDone]

@[simp] theorem execL2InvalidationDone_pending (s : State) :
  Res.pending (execL2InvalidationDone s) = some s.pending := by
  simp [execL2InvalidationDone]

@[simp] theorem State.loadPeg_pending (s : State) (peg : List (Nat × Nat)) (maps : List AlignData) :
  (State.loadPeg s peg maps).pending = s.pending := by
  simp [State.loadPeg]

@[simp] theorem execMainRelease_pending (peg : List (Nat × Nat)) (maps : List AlignData) (s : State) :
  Res.pending (execMainRelease peg maps s) = some s.pending := by
  simp [execMainRelease]

@[simp] theorem State.copyStore_pending (s : State) :
  (State.copyStore s).pending = s.pending := by
  simp [State.copyStore]

@[simp] theorem State.queueRestored_pending (s : State) :
  (State.queueRestored s).pending = s.pending := by
  simp [State.queueRestored]

@[simp] theorem State.restoreFrom_pending (s : State) (n : SaveArea) (fn : SaveRead) (old : Option (SaveArea × SaveRead)) :
  (State.restoreFrom s n fn old).pending = s.pending := by
  simp [State.restoreFrom]

@[simp] theorem State.restore_pending (s : State) (headerA : Nat) (headerB : Nat) (a : SaveRead) (b : SaveRead) :
  (State.restore s headerA headerB a b).pending = s.pending := by
  unfold State.restore
  repeat' split
  all_goals simp

@[simp] theorem State.startRecorder_pending (s : State) :
  (State.startRecorder s).pending = s.pending := by
  simp [State.startRecorder]

@[simp] theorem execRestoreSave_pending (headerA : Nat) (headerB : Nat) (a : SaveRead) (b : SaveRead) (s : State) :
  Res.pending (execRestoreSave headerA headerB a b s) = some s.pending := by
  simp [execRestoreSave]

@[simp] theorem execReady_pending (s : State) :
  Res.pending (execReady s) = some s.pending := by
  simp [execReady]

@[simp] theorem State.pwrState_pending (s : State) (v : Nat) :
  (State.pwrState s v).pending = s.pending := by
  simp [State.pwrState]

@[simp] theorem execPwrStateWrite_pending (value : Word) (s : State) :
  Res.pending (execPwrStateWrite value s) = some s.pending := by
  simp [execPwrStateWrite]

@[simp] theorem execIdleEntry_pending (s : State) :
  Res.pending (execIdleEntry s) = some s.pending := by
  simp [execIdleEntry]

@[simp] theorem execIdleExit_pending (s : State) :
  Res.pending (execIdleExit s) = some s.pending := by
  simp [execIdleExit]

@[simp] theorem execDozeEntry_pending (s : State) :
  Res.pending (execDozeEntry s) = some s.pending := by
  simp [execDozeEntry]

@[simp] theorem execSpinDownStart_pending (s : State) :
  Res.pending (execSpinDownStart s) = some s.pending := by
  simp [execSpinDownStart]

@[simp] theorem execDozeExit_pending (s : State) :
  Res.pending (execDozeExit s) = some s.pending := by
  simp [execDozeExit]

@[simp] theorem execSleepEntry_pending (s : State) :
  Res.pending (execSleepEntry s) = some s.pending := by
  unfold execSleepEntry
  repeat' split
  all_goals simp

@[simp] theorem execSleepExit_pending (s : State) :
  Res.pending (execSleepExit s) = some s.pending := by
  simp [execSleepExit]

@[simp] theorem execRelocation_pending (nsid : Nat) (lba : Nat) (member : Nat) (row : List RowTrack) (spareRows : List RowTrack) (s : State) :
  Res.pending (execRelocation nsid lba member row spareRows s) = some s.pending := by
  unfold execRelocation
  repeat' split
  all_goals simp

@[simp] theorem State.rejectAt_pending (s : State) (a : Nat) (c : Nat) :
  (State.rejectAt s a c).pending = s.pending := by
  simp [State.rejectAt]

@[simp] theorem resState_pending (r : Res) (s : State) (h : Res.pending r = some s.pending) : (resState r s).pending = s.pending := by
  unfold resState
  split
  · simpa using h
  · rfl

@[simp] theorem State.readRow_pending (s : State) (a : Nat) :
  ∀ t ∈ State.readRow s a, t.pending = s.pending := by
  unfold State.readRow
  dsimp only
  repeat' split
  all_goals simp

@[simp] theorem State.clearRc_pending (s : State) (a : Nat) :
  (State.clearRc s a).pending = s.pending := by
  unfold State.clearRc
  repeat' split
  all_goals simp

@[simp] theorem State.latch64_pending (s : State) (a : Nat) :
  (State.latch64 s a).pending = s.pending := by
  simp [State.latch64]

@[simp] theorem State.regRead_pending (s : State) (addr : Nat) :
  (State.regRead s addr).pending = s.pending := by
  unfold State.regRead
  split
  · simp
  · dsimp only; split
    · exact State.readRow_pending _ _ _ (by assumption)
    · split <;> simp

@[simp] theorem State.writeField_pending (s : State) (a : Nat) (v : Nat) (d : FieldDef) :
  (State.writeField s a v d).pending = s.pending := by
  unfold State.writeField
  repeat' split
  all_goals simp

@[simp] theorem State.clearStatus_pending (s : State) (a : Nat) (fs : List FieldDef) :
  (State.clearStatus s a fs).pending = s.pending := by
  simp [State.clearStatus]

@[simp] theorem State.writeFields_pending (s : State) (r : RegDef) (a : Nat) (v : Nat) :
  (State.writeFields s r a v).pending = s.pending := by
  simp [State.writeFields]

@[simp] theorem State.plainWrite_pending (s : State) (addr : Nat) (a : Nat) (v : Nat) :
  (State.plainWrite s addr a v).pending = s.pending := by
  unfold State.plainWrite
  repeat' split
  all_goals simp

@[simp] theorem State.rawCtl_pending (s : State) (v : Nat) :
  (State.rawCtl s v).pending = s.pending := by
  simp [State.rawCtl]

@[simp] theorem State.scrubCtl_pending (s : State) (v : Nat) :
  (State.scrubCtl s v).pending = s.pending := by
  unfold State.scrubCtl
  repeat' split
  all_goals simp

@[simp] theorem State.secReqCtl_pending (s : State) (v : Nat) :
  (State.secReqCtl s v).pending = s.pending := by
  simp [State.secReqCtl]

@[simp] theorem State.tokenCtl_pending (s : State) (v : Nat) :
  (State.tokenCtl s v).pending = s.pending := by
  simp [State.tokenCtl]

@[simp] theorem State.actRow_pending (s : State) (a : Nat) (v : Nat) :
  ∀ t ∈ State.actRow s a v, t.pending = s.pending := by
  unfold State.actRow
  dsimp only
  repeat' split
  all_goals simp

@[simp] theorem State.coreRow_pending (s : State) (req : Nat) (a : Nat) (v : Nat) :
  ∀ t ∈ State.coreRow s req a v, t.pending = s.pending := by
  unfold State.coreRow
  dsimp only
  repeat' split
  all_goals simp

@[simp] theorem State.unitRow_pending (s : State) (req : Nat) (a : Nat) (v : Nat) :
  ∀ t ∈ State.unitRow s req a v, t.pending = s.pending := by
  unfold State.unitRow
  dsimp only
  repeat' split
  all_goals simp

@[simp] theorem State.writeRow_pending (s : State) (req : Nat) (addr : Nat) (a : Nat) (v : Nat) :
  ∀ t ∈ State.writeRow s req addr a v, t.pending = s.pending := by
  intro t ht
  unfold State.writeRow at ht
  split at ht
  · simp at ht; subst ht; simp
  · split at ht
    · simp at ht; subst ht; exact State.actRow_pending _ _ _ _ (by assumption)
    · split at ht
      · simp at ht; subst ht; exact State.coreRow_pending _ _ _ _ _ (by assumption)
      · exact State.unitRow_pending _ _ _ _ _ ht

@[simp] theorem State.highWrite_pending (s : State) (addr : Nat) (a : Nat) (v : Nat) :
  (State.highWrite s addr a v).pending = s.pending := by
  unfold State.highWrite
  repeat' split
  all_goals simp

@[simp] theorem State.regWrite_pending (s : State) (req : Nat) (addr : Nat) (v : Nat) :
  (State.regWrite s req addr v).pending = s.pending := by
  unfold State.regWrite
  split
  · simp
  · dsimp only; split
    · rw [State.writeRow_pending _ _ _ _ _ _ (by assumption)]; simp
    · split
      · simp
      · split <;> simp

@[simp] theorem execRegisterWrite_pending (req : Fin 5) (addr : Nat) (size : Nat) (value : Word) (s : State) :
  Res.pending (execRegisterWrite req addr size value s) = some s.pending := by
  simp [execRegisterWrite]

@[simp] theorem execCounterRead_pending (acc : BusAccess) (s : State) :
  Res.pending (execCounterRead acc s) = some s.pending := by
  simp [execCounterRead]

@[simp] theorem execLowHalfRead_pending (acc : BusAccess) (s : State) :
  Res.pending (execLowHalfRead acc s) = some s.pending := by
  simp [execLowHalfRead]

@[simp] theorem execHighHalfWrite_pending (acc : BusAccess) (value : Word) (s : State) :
  Res.pending (execHighHalfWrite acc value s) = some s.pending := by
  simp [execHighHalfWrite]

@[simp] theorem State.peek_pending (s : State) (a : Nat) :
  (State.peek s a).pending = s.pending := by
  unfold State.peek
  repeat' split
  all_goals simp

@[simp] theorem execSmbusRegisterRead_pending (s : State) :
  Res.pending (execSmbusRegisterRead s) = some s.pending := by
  simp [execSmbusRegisterRead]

end Sys2Proof.Machine
end

