-- ==== Sys2Proof/Laws/Signal.lean ====
section
/-! SUPPORT. The checks of a written codeword (06 R161): one held without an inverted bit passes them. -/

set_option linter.all false
set_option exponentiation.threshold 40000

namespace Sys2Proof.Machine

/-- No bit of 0 is set. -/
theorem hasBit_zero_left (i : Nat) : hasBit 0 i = false := by simp [hasBit, bit]
/-- The word of zeros is a codeword (05 R131). -/
theorem syndromeZero_zero : syndromeZero (hasBit 0) = true := by
  have h : ∀ l : List Nat, (l.filter (hasBit 0)).length = 0 := by
    intro l; simp [hasBit_zero_left]
  simp [syndromeZero, h]
/-- The low bytes of a number are those of its remainder. -/
theorem leBytes_mod (k n : Nat) : leBytes (n % 256 ^ k) k = leBytes n k := by
  induction k generalizing n with
  | zero => rfl
  | succ k ih =>
    have h1 : n % 256 ^ (k + 1) % 256 = n % 256 := by
      rw [Nat.pow_succ]; exact Nat.mod_mul_left_mod _ _ _
    have h2 : n % 256 ^ (k + 1) / 256 = n / 256 % 256 ^ k := by
      rw [Nat.pow_succ, Nat.mul_comm]; exact Nat.mod_mul_right_div_self _ _ _
    simp only [leBytes, h1, h2, ih]
/-- The three parts of a number written in mixed radix. -/
theorem threeParts (a c M x y : Nat) (_hM : 0 < M) (hc : a < c) (hx : x < M) :
    (a + c * x + c * M * y) % c = a ∧ (a + c * x + c * M * y) / c % M = x ∧ (a + c * x + c * M * y) / (c * M) = y := by
  have e : a + c * x + c * M * y = a + c * (x + M * y) := by rw [Nat.mul_add, Nat.mul_assoc, Nat.add_assoc]
  have hd : (a + c * x + c * M * y) / c = x + M * y := by
    rw [e, Nat.add_mul_div_left _ _ (by omega), Nat.div_eq_of_lt hc, Nat.zero_add]
  refine ⟨?_, ?_, ?_⟩
  · rw [e, Nat.add_mul_mod_self_left, Nat.mod_eq_of_lt hc]
  · rw [hd, Nat.add_mul_mod_self_left, Nat.mod_eq_of_lt hx]
  · rw [← Nat.div_div_eq_div_mul, hd, Nat.add_mul_div_left _ _ (by omega), Nat.div_eq_of_lt hx, Nat.zero_add]
/-- A codeword held without an inverted bit passes both checks (06 R161). -/
theorem codewordOk_zero (h b : Nat) : codewordOk h b 0 = true := by
  unfold codewordOk
  rw [syndromeZero_zero, Bool.true_and, Nat.zero_mod, Nat.xor_zero]
  unfold infoPart
  have e : (2 : Nat) ^ 32928 = 2 ^ 32 * 256 ^ 4112 := by
    rw [show (256 : Nat) = 2 ^ 8 from rfl, ← Nat.pow_mul, ← Nat.pow_add]
  have p : (0 : Nat) < 256 ^ 4112 := Nat.pow_pos (by decide)
  have m1 : leBytes (h % 2 ^ 32) 4 = leBytes h 4 := leBytes_mod 4 h
  have m2 := leBytes_mod 4112 b
  have hb := Nat.mod_lt b p
  have hh : h % 2 ^ 32 < 2 ^ 32 := Nat.mod_lt _ (by decide)
  rw [e]
  revert e p m2 hb
  generalize (256 : Nat) ^ 4112 = M
  intro e p m2 hb
  obtain ⟨q1, q2, q3⟩ := threeParts (h % 2 ^ 32) (2 ^ 32) M (b % M)
    (crc64 (leBytes h 4 ++ leBytes b 4112)) p hh hb
  rw [q1, q2, q3, m1, m2, beq_self_eq_true]

end Sys2Proof.Machine
end

