-- ==== Sys2Proof/Laws/Window.lean ====
section
/-! SUPPORT. The operations and meanings that leave the live window table as it was: one lemma each. -/

set_option linter.all false
set_option maxRecDepth 4000

namespace Sys2Proof.Machine

/-- The `winLive` of a meaning's next state. -/
def Res.winLive (r : Res) : Option (SMap WinLive) := match r with | .next t => some t.winLive | _ => none

@[simp] theorem Res.winLive_next (t : State) : Res.winLive (.next t) = some t.winLive := rfl

@[simp] theorem State.ite_winLive (c : Prop) [Decidable c] (a b : State) : (if c then a else b).winLive = if c then a.winLive else b.winLive := apply_ite _ _ _ _

@[simp] theorem State.iteSnd_winLive {α : Type} (c : Prop) [Decidable c] (a b : α × State) : (if c then a else b).2.winLive = if c then a.2.winLive else b.2.winLive := by split <;> rfl

@[simp] theorem State.iteSnd2_winLive {α β : Type} (c : Prop) [Decidable c] (a b : α × β × State) : (if c then a else b).2.2.winLive = if c then a.2.2.winLive else b.2.2.winLive := by split <;> rfl

@[simp] theorem State.foldl_winLive {α : Type} (g : State → α → State) (xs : List α) (s : State) (h : ∀ s x, (g s x).winLive = s.winLive) : (xs.foldl g s).winLive = s.winLive := by
  induction xs generalizing s with
  | nil => rfl
  | cons x xs ih => simp [ih, h]

@[simp] theorem State.foldlp_winLive {α β : Type} (g : β × State → α → β × State) (xs : List α) (s : β × State) (h : ∀ s x, (g s x).2.winLive = s.2.winLive) : (xs.foldl g s).2.winLive = s.2.winLive := by
  induction xs generalizing s with
  | nil => rfl
  | cons x xs ih => simp [ih, h]

@[simp] theorem State.foldlp2_winLive {α β γ : Type} (g : γ × β × State → α → γ × β × State) (xs : List α) (s : γ × β × State) (h : ∀ s x, (g s x).2.2.winLive = s.2.2.winLive) : (xs.foldl g s).2.2.winLive = s.2.2.winLive := by
  induction xs generalizing s with
  | nil => rfl
  | cons x xs ih => simp [ih, h]

@[simp] theorem State.put_winLive (s : State) (F : Field) (v : Nat) :
  (State.put s F v).winLive = s.winLive := by
  simp [State.put]

@[simp] theorem State.putB_winLive (s : State) (F : Field) (b : Bool) :
  (State.putB s F b).winLive = s.winLive := by
  simp [State.putB]

@[simp] theorem State.clear_winLive (s : State) (F : Field) :
  (State.clear s F).winLive = s.winLive := by
  simp [State.clear]

@[simp] theorem State.incBy_winLive (s : State) (F : Field) (n : Nat) :
  (State.incBy s F n).winLive = s.winLive := by
  simp [State.incBy]

@[simp] theorem State.inc_winLive (s : State) (F : Field) :
  (State.inc s F).winLive = s.winLive := by
  simp [State.inc]

@[simp] theorem State.setBitOf_winLive (s : State) (F : Field) (i : Nat) :
  (State.setBitOf s F i).winLive = s.winLive := by
  simp [State.setBitOf]

@[simp] theorem State.clrBitOf_winLive (s : State) (F : Field) (i : Nat) :
  (State.clrBitOf s F i).winLive = s.winLive := by
  simp [State.clrBitOf]

@[simp] theorem State.reject_winLive (s : State) (err : Field) (code : Field) (c : Nat) :
  (State.reject s err code c).winLive = s.winLive := by
  simp [State.reject]

@[simp] theorem State.put64_winLive (s : State) (lo : Field) (hi : Field) (v : Nat) :
  (State.put64 s lo hi v).winLive = s.winLive := by
  simp [State.put64]

@[simp] theorem State.when_winLive (s : State) (b : Bool) (g : State → State) (h0 : ∀ s0, (g s0).winLive = s0.winLive) :
  (State.when s b g).winLive = s.winLive := by
  unfold State.when; split <;> simp [*]

@[simp] theorem State.each_winLive {α : Type} (s : State) (xs : List α) (g : State → α → State) (h0 : ∀ s0 x1, (g s0 x1).winLive = s0.winLive) :
  (State.each s xs g).winLive = s.winLive := by
  unfold State.each; simp [*]

@[simp] theorem State.emit_winLive (s : State) (o : Out) :
  (State.emit s o).winLive = s.winLive := by
  simp [State.emit]

@[simp] theorem State.answer_winLive (s : State) (r : Resp) :
  (State.answer s r).winLive = s.winLive := by
  simp [State.answer]

@[simp] theorem State.draw_winLive (s : State) (n : Nat) :
  (State.draw s n).winLive = s.winLive := by
  simp [State.draw]

@[simp] theorem State.setByte_winLive (s : State) (a : Nat) (b : Byte) :
  (State.setByte s a b).winLive = s.winLive := by
  simp [State.setByte]

@[simp] theorem State.storeMem_winLive (s : State) (a : Nat) (v : Nat) (n : Nat) :
  (State.storeMem s a v n).winLive = s.winLive := by
  simp [State.storeMem]

@[simp] theorem State.setF_winLive (s : State) (x : SMap Nat) :
  (State.setF s x).winLive = s.winLive := by
  simp [State.setF]

@[simp] theorem State.setHeld_winLive (s : State) (x : SMap Nat) :
  (State.setHeld s x).winLive = s.winLive := by
  simp [State.setHeld]

@[simp] theorem State.setShadow_winLive (s : State) (x : SMap Nat) :
  (State.setShadow s x).winLive = s.winLive := by
  simp [State.setShadow]

@[simp] theorem State.setMem_winLive (s : State) (x : List Host.Cell) :
  (State.setMem s x).winLive = s.winLive := by
  simp [State.setMem]

@[simp] theorem State.setChk_winLive (s : State) (x : SMap Nat) :
  (State.setChk s x).winLive = s.winLive := by
  simp [State.setChk]

@[simp] theorem State.setPwr_winLive (s : State) (x : Power) :
  (State.setPwr s x).winLive = s.winLive := by
  simp [State.setPwr]

@[simp] theorem State.setEvr_winLive (s : State) (x : Evr) :
  (State.setEvr s x).winLive = s.winLive := by
  simp [State.setEvr]

@[simp] theorem State.setBuf_winLive (s : State) (x : Buf) :
  (State.setBuf s x).winLive = s.winLive := by
  simp [State.setBuf]

@[simp] theorem State.setSpt_winLive (s : State) (x : Spt) :
  (State.setSpt s x).winLive = s.winLive := by
  simp [State.setSpt]

@[simp] theorem State.setMedia_winLive (s : State) (x : Media) :
  (State.setMedia s x).winLive = s.winLive := by
  simp [State.setMedia]

@[simp] theorem State.setPool_winLive (s : State) (x : Pool) :
  (State.setPool s x).winLive = s.winLive := by
  simp [State.setPool]

@[simp] theorem State.setShock_winLive (s : State) (x : Shock) :
  (State.setShock s x).winLive = s.winLive := by
  simp [State.setShock]

@[simp] theorem State.setRefHead_winLive (s : State) (x : RefHead) :
  (State.setRefHead s x).winLive = s.winLive := by
  simp [State.setRefHead]

@[simp] theorem State.setCmds_winLive (s : State) (x : SMap Cmd) :
  (State.setCmds s x).winLive = s.winLive := by
  simp [State.setCmds]

@[simp] theorem State.setCache_winLive (s : State) (x : SMap CacheBlk) :
  (State.setCache s x).winLive = s.winLive := by
  simp [State.setCache]

@[simp] theorem State.setIqiEv_winLive (s : State) (x : SMap (List (Nat × Nat))) :
  (State.setIqiEv s x).winLive = s.winLive := by
  simp [State.setIqiEv]

@[simp] theorem State.setDeferNs_winLive (s : State) (x : List Nat) :
  (State.setDeferNs s x).winLive = s.winLive := by
  simp [State.setDeferNs]

@[simp] theorem State.setFeat_winLive (s : State) (x : SMap Nat) :
  (State.setFeat s x).winLive = s.winLive := by
  simp [State.setFeat]

@[simp] theorem State.setFeatSaved_winLive (s : State) (x : SMap Nat) :
  (State.setFeatSaved s x).winLive = s.winLive := by
  simp [State.setFeatSaved]

@[simp] theorem State.setPesSrc_winLive (s : State) (x : Nat) :
  (State.setPesSrc s x).winLive = s.winLive := by
  simp [State.setPesSrc]

@[simp] theorem State.setCmpSrc_winLive (s : State) (x : Nat) :
  (State.setCmpSrc s x).winLive = s.winLive := by
  simp [State.setCmpSrc]

@[simp] theorem State.setLaneIn_winLive (s : State) (x : SMap (List Sample)) :
  (State.setLaneIn s x).winLive = s.winLive := by
  simp [State.setLaneIn]

@[simp] theorem State.setGrps_winLive (s : State) (x : SMap Grps) :
  (State.setGrps s x).winLive = s.winLive := by
  simp [State.setGrps]

@[simp] theorem State.setPorts_winLive (s : State) (x : SMap Port) :
  (State.setPorts s x).winLive = s.winLive := by
  simp [State.setPorts]

@[simp] theorem State.setWinStaged_winLive (s : State) (x : SMap Nat) :
  (State.setWinStaged s x).winLive = s.winLive := by
  simp [State.setWinStaged]

@[simp] theorem State.setAts_winLive (s : State) (x : List AtsEntry) :
  (State.setAts s x).winLive = s.winLive := by
  simp [State.setAts]

@[simp] theorem State.setAtsReq_winLive (s : State) (x : List AtsReq) :
  (State.setAtsReq s x).winLive = s.winLive := by
  simp [State.setAtsReq]

@[simp] theorem State.setAtsInv_winLive (s : State) (x : List (Nat × Nat)) :
  (State.setAtsInv s x).winLive = s.winLive := by
  simp [State.setAtsInv]

@[simp] theorem State.setPairs_winLive (s : State) (x : SMap Pair) :
  (State.setPairs s x).winLive = s.winLive := by
  simp [State.setPairs]

@[simp] theorem State.setNextSeq_winLive (s : State) (x : Nat) :
  (State.setNextSeq s x).winLive = s.winLive := by
  simp [State.setNextSeq]

@[simp] theorem State.setLastPort_winLive (s : State) (x : Nat) :
  (State.setLastPort s x).winLive = s.winLive := by
  simp [State.setLastPort]

@[simp] theorem State.setFetchStop_winLive (s : State) (x : Bool) :
  (State.setFetchStop s x).winLive = s.winLive := by
  simp [State.setFetchStop]

@[simp] theorem State.setAdm_winLive (s : State) (x : Admin) :
  (State.setAdm s x).winLive = s.winLive := by
  simp [State.setAdm]

@[simp] theorem State.setSec_winLive (s : State) (x : Sec) :
  (State.setSec s x).winLive = s.winLive := by
  simp [State.setSec]

@[simp] theorem State.setChd_winLive (s : State) (x : Chd) :
  (State.setChd s x).winLive = s.winLive := by
  simp [State.setChd]

@[simp] theorem State.modSpn_winLive (s : State) (g : Spn → Spn) :
  (State.modSpn s g).winLive = s.winLive := by
  simp [State.modSpn]

@[simp] theorem State.modPwr_winLive (s : State) (g : Power → Power) :
  (State.modPwr s g).winLive = s.winLive := by
  simp [State.modPwr]

@[simp] theorem State.putDom_winLive (s : State) (d : Nat) (x : DomSt) :
  (State.putDom s d x).winLive = s.winLive := by
  simp [State.putDom]

@[simp] theorem State.settleDoms_winLive (s : State) :
  (State.settleDoms s).winLive = s.winLive := by
  simp [State.settleDoms]

@[simp] theorem State.putReqWords_winLive (s : State) (w : Nat) :
  (State.putReqWords s w).winLive = s.winLive := by
  simp [State.putReqWords]

@[simp] theorem State.withdraw_winLive (s : State) (keep : Nat → Bool) :
  (State.withdraw s keep).winLive = s.winLive := by
  simp [State.withdraw]

@[simp] theorem State.restoreReqs_winLive (s : State) :
  (State.restoreReqs s).winLive = s.winLive := by
  simp [State.restoreReqs]

@[simp] theorem State.charge_winLive (s : State) (cls : Nat) (n : Nat) :
  (State.charge s cls n).winLive = s.winLive := by
  simp [State.charge]

@[simp] theorem State.fixBurst_winLive (s : State) (b : Nat) (p : Nat) (v : Nat) :
  (State.fixBurst s b p v).winLive = s.winLive := by
  simp [State.fixBurst]

@[simp] theorem State.readBurst_winLive (s : State) (b : Nat) :
  (State.readBurst s b).2.winLive = s.winLive := by
  unfold State.readBurst
  repeat' split
  all_goals simp

@[simp] theorem State.readBursts_winLive (s : State) (y1 : List Nat) :
  (State.readBursts s y1).2.winLive = s.winLive := by
  induction y1 generalizing s with
  | nil => rfl
  | cons x xs ih => simp [State.readBursts, ih]

@[simp] theorem State.bufRead_winLive (s : State) (cls : Nat) (a : Nat) (n : Nat) :
  (State.bufRead s cls a n).2.winLive = s.winLive := by
  simp [State.bufRead]

@[simp] theorem State.writeBurst_winLive (s : State) (b : Nat) (lo : Nat) (hi : Nat) (v : Nat) :
  (State.writeBurst s b lo hi v).2.winLive = s.winLive := by
  simp [State.writeBurst]

@[simp] theorem State.writeBursts_winLive (s : State) (a : Nat) (n : Nat) (v : Nat) (y4 : List Nat) :
  (State.writeBursts s a n v y4).2.winLive = s.winLive := by
  induction y4 generalizing s with
  | nil => rfl
  | cons x xs ih => simp [State.writeBursts, ih]

@[simp] theorem State.bufWrite_winLive (s : State) (cls : Nat) (a : Nat) (v : Nat) (n : Nat) :
  (State.bufWrite s cls a v n).2.winLive = s.winLive := by
  simp [State.bufWrite]

@[simp] theorem State.zeroBursts_winLive (s : State) (bs : List Nat) :
  (State.zeroBursts s bs).winLive = s.winLive := by
  simp [State.zeroBursts]

@[simp] theorem State.serveReq_winLive (s : State) (q : HbmReq) :
  (State.serveReq s q).winLive = s.winLive := by
  unfold State.serveReq
  dsimp only
  repeat' (first | (simp; done) | intro _ | split | (simp_all; done))

@[simp] theorem State.serve_winLive (s : State) (y1 : Nat) :
  (State.serve s y1).winLive = s.winLive := by
  fun_induction State.serve <;> simp_all

@[simp] theorem State.serveHeld_winLive (s : State) :
  (State.serveHeld s).winLive = s.winLive := by
  simp [State.serveHeld]

@[simp] theorem State.request_winLive (s : State) (q : HbmReq) :
  (State.request s q).winLive = s.winLive := by
  simp [State.request]

@[simp] theorem execHbmRead_winLive (cls : BufClass) (burst : Nat) (s : State) :
  Res.winLive (execHbmRead cls burst s) = some s.winLive := by
  simp [execHbmRead]

@[simp] theorem execHbmPartialWrite_winLive (cls : BufClass) (addr : Nat) (len : Nat) (data : Nat) (s : State) :
  Res.winLive (execHbmPartialWrite cls addr len data s) = some s.winLive := by
  simp [execHbmPartialWrite]

@[simp] theorem execArbitrationRound_winLive (s : State) :
  Res.winLive (execArbitrationRound s) = some s.winLive := by
  simp [execArbitrationRound]

@[simp] theorem execHbmRefresh_winLive (s : State) :
  Res.winLive (execHbmRefresh s) = some s.winLive := by
  simp [execHbmRefresh]

@[simp] theorem execHbmHot_winLive (temp : Nat) (s : State) :
  Res.winLive (execHbmHot temp s) = some s.winLive := by
  simp [execHbmHot]

@[simp] theorem execPprRequest_winLive (value : Word) (s : State) :
  Res.winLive (execPprRequest value s) = some s.winLive := by
  simp [execPprRequest]

@[simp] theorem execPprDone_winLive (failed : Bool) (s : State) :
  Res.winLive (execPprDone failed s) = some s.winLive := by
  unfold execPprDone
  repeat' split
  all_goals simp

@[simp] theorem State.rawStore_winLive (s : State) (b : Nat) :
  (State.rawStore s b).winLive = s.winLive := by
  unfold State.rawStore
  rw [State.setChk_winLive, State.storeMem_winLive]

@[simp] theorem State.rawStart_winLive (s : State) (op : RawOp) :
  (State.rawStart s op).winLive = s.winLive := by
  unfold State.rawStart
  dsimp only
  repeat' split
  all_goals first | (cases op <;> simp; done) | simp

@[simp] theorem execRawRead_winLive (s : State) :
  Res.winLive (execRawRead s) = some s.winLive := by
  simp [execRawRead]

@[simp] theorem execRawWrite_winLive (s : State) :
  Res.winLive (execRawWrite s) = some s.winLive := by
  simp [execRawWrite]

@[simp] theorem execRawOpDone_winLive (s : State) :
  Res.winLive (execRawOpDone s) = some s.winLive := by
  unfold execRawOpDone
  repeat' split
  all_goals simp

@[simp] theorem State.scrubGo_winLive (s : State) (target : Nat) (pos : Nat) :
  (State.scrubGo s target pos).winLive = s.winLive := by
  simp [State.scrubGo]

@[simp] theorem execScrubStart_winLive (s : State) :
  Res.winLive (execScrubStart s) = some s.winLive := by
  simp [execScrubStart]

@[simp] theorem execSramSweepStart_winLive (s : State) :
  Res.winLive (execSramSweepStart s) = some s.winLive := by
  simp [execSramSweepStart]

@[simp] theorem State.scrubFirst_winLive (s : State) (w : Nat) :
  (State.scrubFirst s w).winLive = s.winLive := by
  simp [State.scrubFirst]

@[simp] theorem State.scrubBurst_winLive (s : State) (b : Nat) :
  (State.scrubBurst s b).winLive = s.winLive := by
  unfold State.scrubBurst
  repeat' split
  all_goals simp

@[simp] theorem State.scrubRange_winLive (s : State) (a : Nat) (e : Nat) :
  (State.scrubRange s a e).winLive = s.winLive := by
  simp [State.scrubRange]

@[simp] theorem State.sramRewrite_winLive (s : State) (inst : Nat) (word : Nat) :
  (State.sramRewrite s inst word).winLive = s.winLive := by
  simp [State.sramRewrite]

@[simp] theorem State.sramRead_winLive (s : State) (inst : Nat) (word : Nat) :
  (State.sramRead s inst word).2.winLive = s.winLive := by
  unfold State.sramRead
  repeat' split
  all_goals simp

@[simp] theorem State.sramReadAll_winLive (s : State) (inst : Nat) (y2 : List Nat) :
  (State.sramReadAll s inst y2).2.winLive = s.winLive := by
  induction y2 generalizing s with
  | nil => rfl
  | cons x xs ih => simp [State.sramReadAll, ih]

@[simp] theorem State.sramWritten_winLive (s : State) (inst : Nat) (p : Nat → Bool) :
  (State.sramWritten s inst p).winLive = s.winLive := by
  simp [State.sramWritten]

@[simp] theorem State.sramUse_winLive (s : State) (inst : Nat) (p : Nat → Bool) :
  (State.sramUse s inst p).2.winLive = s.winLive := by
  unfold State.sramUse
  simp
  repeat' (first | (simp; done) | intro _ | split | rw [State.each_winLive] | rw [State.when_winLive] | rw [State.foldl_winLive] | rw [State.foldlp_winLive] | rw [State.foldlp2_winLive] | (simp_all; done))

@[simp] theorem State.sweepWord_winLive (s : State) (k : Nat) :
  (State.sweepWord s k).winLive = s.winLive := by
  unfold State.sweepWord
  dsimp only
  repeat' (first | (simp; done) | intro _ | split | (simp_all; done))

@[simp] theorem State.scrubTo_winLive (s : State) (reached : Nat) :
  (State.scrubTo s reached).winLive = s.winLive := by
  simp [State.scrubTo]

@[simp] theorem execScrubStop_winLive (reached : Nat) (s : State) :
  Res.winLive (execScrubStop reached s) = some s.winLive := by
  simp [execScrubStop]

@[simp] theorem execScrubDone_winLive (s : State) :
  Res.winLive (execScrubDone s) = some s.winLive := by
  simp [execScrubDone]

@[simp] theorem execFlipArm_winLive (value : Word) (s : State) :
  Res.winLive (execFlipArm value s) = some s.winLive := by
  simp [execFlipArm]

@[simp] theorem execFlipApply_winLive (word : Nat) (s : State) :
  Res.winLive (execFlipApply word s) = some s.winLive := by
  simp [execFlipApply]

@[simp] theorem State.putBuckets_winLive (s : State) (b : SMap Bucket) :
  (State.putBuckets s b).winLive = s.winLive := by
  simp [State.putBuckets]

@[simp] theorem State.putBucket_winLive (s : State) (code : Nat) (b : Bucket) :
  (State.putBucket s code b).winLive = s.winLive := by
  simp [State.putBucket]

@[simp] theorem State.rateLimit_winLive (s : State) (code : Nat) (severity : Nat) :
  (State.rateLimit s code severity).2.winLive = s.winLive := by
  unfold State.rateLimit
  repeat' split
  all_goals simp

@[simp] theorem State.ringRecord_winLive (s : State) (r : EvRec) :
  (State.ringRecord s r).winLive = s.winLive := by
  simp [State.ringRecord]

@[simp] theorem State.place_winLive (s : State) (r : EvRec) :
  (State.place s r).winLive = s.winLive := by
  simp [State.place]

@[simp] theorem State.wait_winLive (s : State) (r : EvRec) :
  (State.wait s r).winLive = s.winLive := by
  simp [State.wait]

@[simp] theorem State.raiseWith_winLive (s : State) (code : Nat) (severity : Option Nat) (unit : Nat) (payload : Option Nat) :
  (State.raiseWith s code severity unit payload).winLive = s.winLive := by
  unfold State.raiseWith
  dsimp only
  repeat' (first | (simp; done) | intro _ | split | (simp_all; done))

@[simp] theorem State.placeHeld_winLive (s : State) :
  (State.placeHeld s).winLive = s.winLive := by
  simp [State.placeHeld]

@[simp] theorem State.raise_winLive (s : State) (code : Nat) (unit : Nat) :
  (State.raise s code unit).winLive = s.winLive := by
  simp [State.raise]

@[simp] theorem State.raiseNamed_winLive (s : State) (code : Nat) (unit : Nat) (names : List Nat) :
  (State.raiseNamed s code unit names).winLive = s.winLive := by
  simp [State.raiseNamed]

@[simp] theorem execEventRaise_winLive (code : Nat) (severity : Nat) (unit : Nat) (s : State) :
  Res.winLive (execEventRaise code severity unit s) = some s.winLive := by
  simp [execEventRaise]

@[simp] theorem execEvrRaiseWrite_winLive (req : Fin 5) (value : Word) (s : State) :
  Res.winLive (execEvrRaiseWrite req value s) = some s.winLive := by
  simp [execEvrRaiseWrite]

@[simp] theorem execBucketRefill_winLive (code : Nat) (s : State) :
  Res.winLive (execBucketRefill code s) = some s.winLive := by
  unfold execBucketRefill
  repeat' split
  all_goals simp

@[simp] theorem execEventArchive_winLive (s : State) :
  Res.winLive (execEventArchive s) = some s.winLive := by
  simp [execEventArchive]

@[simp] theorem State.rebucket_winLive (s : State) (old : Nat → Nat) :
  (State.rebucket s old).winLive = s.winLive := by
  simp [State.rebucket]

@[simp] theorem State.evrCtl_winLive (s : State) (v : Nat) :
  (State.evrCtl s v).winLive = s.winLive := by
  simp [State.evrCtl]

@[simp] theorem execEvrEnable_winLive (value : Word) (s : State) :
  Res.winLive (execEvrEnable value s) = some s.winLive := by
  simp [execEvrEnable]

@[simp] theorem State.putRl_winLive (s : State) (e : RlEntry) :
  (State.putRl s e).winLive = s.winLive := by
  simp [State.putRl]

@[simp] theorem execRateLimitWrite_winLive (offset : Nat) (value : Word) (s : State) :
  Res.winLive (execRateLimitWrite offset value s) = some s.winLive := by
  simp [execRateLimitWrite]

@[simp] theorem State.modPort_winLive (s : State) (p : Nat) (g : Port → Port) :
  (State.modPort s p g).winLive = s.winLive := by
  simp [State.modPort]

@[simp] theorem State.wake_winLive (s : State) (p : Nat) :
  (State.wake s p).winLive = s.winLive := by
  simp [State.wake]

@[simp] theorem State.linkNarrow_winLive (s : State) (p : Nat) :
  (State.linkNarrow s p).winLive = s.winLive := by
  simp [State.linkNarrow]

@[simp] theorem State.linkWiden_winLive (s : State) (p : Nat) :
  (State.linkWiden s p).winLive = s.winLive := by
  unfold State.linkWiden
  repeat' split
  all_goals simp

@[simp] theorem State.commit_winLive (s : State) (seq : Nat) (c : Cpl) :
  (State.commit s seq c).winLive = s.winLive := by
  unfold State.commit
  repeat' split
  all_goals simp

@[simp] theorem State.putEv_winLive (s : State) (port : Nat) (l : List (Nat × Nat)) :
  (State.putEv s port l).winLive = s.winLive := by
  simp [State.putEv]

@[simp] theorem State.reportEvent_winLive (s : State) (port : Nat) :
  (State.reportEvent s port).winLive = s.winLive := by
  unfold State.reportEvent
  repeat' split
  all_goals simp

@[simp] theorem State.queueEvent_winLive (s : State) (port : Nat) (ty : Nat) (info : Nat) :
  (State.queueEvent s port ty info).winLive = s.winLive := by
  simp [State.queueEvent]

@[simp] theorem State.queueEventAll_winLive (s : State) (ty : Nat) (info : Nat) :
  (State.queueEventAll s ty info).winLive = s.winLive := by
  simp [State.queueEventAll]

@[simp] theorem State.health_winLive (s : State) (c : Nat) :
  (State.health s c).winLive = s.winLive := by
  simp [State.health]

@[simp] theorem State.putRange_winLive (s : State) (r : Nat) (x : KRange) :
  (State.putRange s r x).winLive = s.winLive := by
  simp [State.putRange]

@[simp] theorem State.putWindow_winLive (s : State) (w : SMap WinEntry) :
  (State.putWindow s w).winLive = s.winLive := by
  simp [State.putWindow]

@[simp] theorem State.freeWin_winLive (s : State) (i : Nat) :
  (State.freeWin s i).winLive = s.winLive := by
  simp [State.freeWin]

@[simp] theorem State.dropWin_winLive (s : State) (i : Nat) :
  (State.dropWin s i).winLive = s.winLive := by
  simp [State.dropWin]

@[simp] theorem State.holdWin_winLive (s : State) (i : Nat) :
  (State.holdWin s i).winLive = s.winLive := by
  unfold State.holdWin
  repeat' split
  all_goals simp

@[simp] theorem State.freeHeld_winLive (s : State) (nsid : Nat) (lba : Nat) (older : Nat → WinEntry → Bool) :
  (State.freeHeld s nsid lba older).winLive = s.winLive := by
  simp [State.freeHeld]

@[simp] theorem State.putMeta_winLive (s : State) (g : Spt → Spt) :
  (State.putMeta s g).winLive = s.winLive := by
  simp [State.putMeta]

@[simp] theorem State.unfail_winLive (s : State) (nsid : Nat) (lba : Nat) :
  (State.unfail s nsid lba).winLive = s.winLive := by
  simp [State.unfail]

@[simp] theorem State.markFailed_winLive (s : State) (nsid : Nat) (lba : Nat) (sc : Nat) :
  (State.markFailed s nsid lba sc).winLive = s.winLive := by
  simp [State.markFailed]

@[simp] theorem State.blockDone_winLive (s : State) (addr : Nat) :
  (State.blockDone s addr).winLive = s.winLive := by
  unfold State.blockDone
  repeat' split
  all_goals simp

@[simp] theorem State.blockWritten_winLive (s : State) (addr : Nat) :
  (State.blockWritten s addr).winLive = s.winLive := by
  unfold State.blockWritten
  repeat' split
  all_goals simp

@[simp] theorem State.readBack_winLive (s : State) (lo : Nat) :
  (State.readBack s lo).winLive = s.winLive := by
  simp [State.readBack]

@[simp] theorem State.deferError_winLive (s : State) (addr : Nat) (b : CacheBlk) (sc : Nat) :
  (State.deferError s addr b sc).winLive = s.winLive := by
  simp [State.deferError]

@[simp] theorem State.lostBlock_winLive (s : State) (addr : Nat) (b : CacheBlk) (sc : Nat) :
  (State.lostBlock s addr b sc).winLive = s.winLive := by
  simp [State.lostBlock]

@[simp] theorem State.blockFailed_winLive (s : State) (addr : Nat) (sc : Nat) :
  (State.blockFailed s addr sc).winLive = s.winLive := by
  unfold State.blockFailed
  repeat' split
  all_goals simp

@[simp] theorem State.putSlot_winLive (s : State) (i : Nat) (x : Slot) :
  (State.putSlot s i x).winLive = s.winLive := by
  simp [State.putSlot]

@[simp] theorem State.modSlot_winLive (s : State) (i : Nat) (g : Slot → Slot) :
  (State.modSlot s i g).winLive = s.winLive := by
  simp [State.modSlot]

@[simp] theorem State.putFmt_winLive (s : State) (a : Nat) (x : Fmt) :
  (State.putFmt s a x).winLive = s.winLive := by
  simp [State.putFmt]

@[simp] theorem State.modFmt_winLive (s : State) (a : Nat) (g : Fmt → Fmt) :
  (State.modFmt s a g).winLive = s.winLive := by
  simp [State.modFmt]

@[simp] theorem State.putThread_winLive (s : State) (a : Nat) (j : Nat) (t : Thread) :
  (State.putThread s a j t).winLive = s.winLive := by
  simp [State.putThread]

@[simp] theorem State.putPa_winLive (s : State) (a : Nat) (x : PaLink) :
  (State.putPa s a x).winLive = s.winLive := by
  simp [State.putPa]

@[simp] theorem State.putLane_winLive (s : State) (a : Nat) (x : Lane) :
  (State.putLane s a x).winLive = s.winLive := by
  simp [State.putLane]

@[simp] theorem State.modLane_winLive (s : State) (a : Nat) (g : Lane → Lane) :
  (State.modLane s a g).winLive = s.winLive := by
  simp [State.modLane]

@[simp] theorem State.putSrc_winLive (s : State) (i : Nat) (x : Src) :
  (State.putSrc s i x).winLive = s.winLive := by
  simp [State.putSrc]

@[simp] theorem State.setSrcState_winLive (s : State) (i : Nat) (v : Nat) :
  (State.setSrcState s i v).winLive = s.winLive := by
  simp [State.setSrcState]

@[simp] theorem State.paNext_winLive (s : State) (a : Nat) :
  (State.paNext s a).winLive = s.winLive := by
  unfold State.paNext
  dsimp only
  repeat' (first | (simp; done) | intro _ | split | (simp_all; done))

@[simp] theorem State.paMember_winLive (s : State) (a : Nat) (fs : List PaFrame) :
  (State.paMember s a fs).winLive = s.winLive := by
  simp [State.paMember]

@[simp] theorem State.paFast_winLive (s : State) (a : Nat) (fs : List PaFrame) :
  (State.paFast s a fs).winLive = s.winLive := by
  simp [State.paFast]

@[simp] theorem State.paDrop_winLive (s : State) (a : Nat) (j : Nat) :
  (State.paDrop s a j).winLive = s.winLive := by
  simp [State.paDrop]

@[simp] theorem State.arrive_winLive (s : State) (i : Nat) (h : Nat) (wedge : Nat) (flags : Nat) (pair : Nat) (y : Int) :
  (State.arrive s i h wedge flags pair y).winLive = s.winLive := by
  simp [State.arrive]

@[simp] theorem State.deliverSample_winLive (s : State) (i : Nat) (h : Nat) (wedge : Nat) (flags : Nat) (pos : Option (Nat × Int)) :
  (State.deliverSample s i h wedge flags pos).winLive = s.winLive := by
  simp [State.deliverSample]

@[simp] theorem State.lastSample_winLive (s : State) (i : Nat) :
  (State.lastSample s i).winLive = s.winLive := by
  unfold State.lastSample
  repeat' split
  all_goals simp

@[simp] theorem State.fixRefs_winLive (s : State) (i : Nat) :
  (State.fixRefs s i).winLive = s.winLive := by
  simp [State.fixRefs]

@[simp] theorem State.modRun_winLive (s : State) (a : Nat) (rid : Nat) (g : Run → Run) :
  (State.modRun s a rid g).winLive = s.winLive := by
  simp [State.modRun]

@[simp] theorem State.writeStatus_winLive (s : State) (addr : Nat) (st : Nat) :
  (State.writeStatus s addr st).winLive = s.winLive := by
  unfold State.writeStatus
  dsimp only
  repeat' (first | (simp; done) | intro _ | split | (simp_all; done))

@[simp] theorem State.finalStatus_winLive (s : State) (a : Nat) (rid : Nat) (idx : Nat) (st : Nat) :
  (State.finalStatus s a rid idx st).winLive = s.winLive := by
  unfold State.finalStatus
  dsimp only
  repeat' (first | (simp; done) | intro _ | split | (simp_all; done))

@[simp] theorem State.missSector_winLive (s : State) (a : Nat) (rid : Nat) (idx : Nat) (limited : Bool) :
  (State.missSector s a rid idx limited).winLive = s.winLive := by
  unfold State.missSector
  dsimp only
  repeat' (first | (simp; done) | intro _ | split | (simp_all; done))

@[simp] theorem State.sectorWritten_winLive (s : State) (i : Nat) (w : WrSect) :
  (State.sectorWritten s i w).winLive = s.winLive := by
  simp [State.sectorWritten]

@[simp] theorem State.closeGate_winLive (s : State) (i : Nat) :
  (State.closeGate s i).winLive = s.winLive := by
  simp [State.closeGate]

@[simp] theorem State.fragDone_winLive (s : State) (i : Nat) (w : WrSect) :
  (State.fragDone s i w).winLive = s.winLive := by
  simp [State.fragDone]

@[simp] theorem State.abortSector_winLive (s : State) (i : Nat) (w : WrSect) :
  (State.abortSector s i w).winLive = s.winLive := by
  simp [State.abortSector]

@[simp] theorem State.dropGate_winLive (s : State) (i : Nat) :
  (State.dropGate s i).winLive = s.winLive := by
  unfold State.dropGate
  dsimp only
  repeat' (first | (simp; done) | intro _ | split | (simp_all; done))

@[simp] theorem State.riseSource_winLive (s : State) (b : Nat) (scope : List Nat) :
  (State.riseSource s b scope).winLive = s.winLive := by
  simp [State.riseSource]

@[simp] theorem State.shutGate_winLive (s : State) (i : Nat) (cur : Option Nat) (pos : Nat) :
  (State.shutGate s i cur pos).winLive = s.winLive := by
  unfold State.shutGate
  dsimp only
  repeat' (first | (simp; done) | intro _ | split | (simp_all; done))

@[simp] theorem State.servoGate_winLive (s : State) (i : Nat) (on : Bool) :
  (State.servoGate s i on).winLive = s.winLive := by
  unfold State.servoGate
  repeat' split
  all_goals simp

@[simp] theorem State.searchOn_winLive (s : State) (i : Nat) :
  (State.searchOn s i).winLive = s.winLive := by
  simp [State.searchOn]

@[simp] theorem State.searchOff_winLive (s : State) (i : Nat) :
  (State.searchOff s i).winLive = s.winLive := by
  simp [State.searchOff]

@[simp] theorem State.refChanged_winLive (s : State) (old : Option (Nat × Nat)) :
  (State.refChanged s old).winLive = s.winLive := by
  simp [State.refChanged]

@[simp] theorem State.srcTo_winLive (s : State) (i : Nat) (x : Src) (v : Nat) :
  (State.srcTo s i x v).winLive = s.winLive := by
  simp [State.srcTo]

@[simp] theorem State.startSrc_winLive (s : State) (i : Nat) (h : Nat) :
  (State.startSrc s i h).winLive = s.winLive := by
  unfold State.startSrc
  dsimp only
  repeat' (first | (simp; done) | intro _ | split | (simp_all; done))

@[simp] theorem State.endSrc_winLive (s : State) (i : Nat) :
  (State.endSrc s i).winLive = s.winLive := by
  simp [State.endSrc]

@[simp] theorem State.startClock_winLive (s : State) (i : Nat) (cells : Nat) :
  (State.startClock s i cells).winLive = s.winLive := by
  simp [State.startClock]

@[simp] theorem State.loadSeeds_winLive (s : State) (i : Nat) (peg : Nat) :
  (State.loadSeeds s i peg).winLive = s.winLive := by
  simp [State.loadSeeds]

@[simp] theorem State.closeWindow_winLive (s : State) (i : Nat) :
  (State.closeWindow s i).winLive = s.winLive := by
  simp [State.closeWindow]

@[simp] theorem State.startServoOnly_winLive (s : State) (i : Nat) :
  (State.startServoOnly s i).winLive = s.winLive := by
  simp [State.startServoOnly]

@[simp] theorem State.resumeSrc_winLive (s : State) (i : Nat) :
  (State.resumeSrc s i).winLive = s.winLive := by
  unfold State.resumeSrc
  repeat' split
  all_goals simp

@[simp] theorem State.dropMember_winLive (s : State) (i : Nat) :
  (State.dropMember s i).winLive = s.winLive := by
  simp [State.dropMember]

@[simp] theorem State.resumeAll_winLive (s : State) (a : Nat) :
  (State.resumeAll s a).winLive = s.winLive := by
  simp [State.resumeAll]

@[simp] theorem State.endMember_winLive (s : State) (i : Nat) :
  (State.endMember s i).winLive = s.winLive := by
  simp [State.endMember]

@[simp] theorem State.refuseMember_winLive (s : State) (i : Nat) :
  (State.refuseMember s i).winLive = s.winLive := by
  simp [State.refuseMember]

@[simp] theorem State.suspendOthers_winLive (s : State) (i : Nat) (h : Nat) :
  (State.suspendOthers s i h).winLive = s.winLive := by
  unfold State.suspendOthers
  rw [State.each_winLive]
  intro s k
  split
  · split <;> simp
  · rfl

@[simp] theorem State.startMember_winLive (s : State) (i : Nat) (cm : CMember) :
  (State.startMember s i cm).winLive = s.winLive := by
  simp [State.startMember]

@[simp] theorem execMemberStart_winLive (slot : Fin 16) (s : State) :
  Res.winLive (execMemberStart slot s) = some s.winLive := by
  unfold execMemberStart
  dsimp only
  repeat' (first | (simp; done) | intro _ | split | (simp_all; done))

@[simp] theorem State.moveLoop_winLive (s : State) (i : Nat) (loop : Nat) (e : Nat) (err : Int) :
  (State.moveLoop s i loop e err).winLive = s.winLive := by
  simp [State.moveLoop]

@[simp] theorem State.stepLoop_winLive (s : State) (i : Nat) (loop : Nat) (e : Nat) (acq : Bool) (cell : Nat) (err : Int) :
  (State.stepLoop s i loop e acq cell err).winLive = s.winLive := by
  simp [State.stepLoop]

@[simp] theorem execLoopUpdate_winLive (slot : Fin 16) (loop : Fin 5) (elem : Fin 3) (cell : Nat) (lead : List (List Int)) (streams : List (List Int)) (s : State) :
  Res.winLive (execLoopUpdate slot loop elem cell lead streams s) = some s.winLive := by
  unfold execLoopUpdate
  dsimp only
  repeat' (first | (simp; done) | intro _ | split | rw [State.each_winLive] | (simp_all; done))

@[simp] theorem State.restoreLoops_winLive (s : State) (i : Nat) (first : Nat) :
  (State.restoreLoops s i first).winLive = s.winLive := by
  simp [State.restoreLoops]

@[simp] theorem State.reflagSect_winLive (s : State) (i : Nat) (e : Nat) (first : Nat) (last : Nat) :
  (State.reflagSect s i e first last).winLive = s.winLive := by
  unfold State.reflagSect
  repeat' split
  all_goals simp

@[simp] theorem State.defectWindow_winLive (s : State) (i : Nat) (first : Nat) (last : Nat) :
  (State.defectWindow s i first last).winLive = s.winLive := by
  unfold State.defectWindow
  dsimp only
  repeat' (first | (simp; done) | intro _ | split | (simp_all; done))

@[simp] theorem State.countDefect_winLive (s : State) (i : Nat) (thermal : Bool) (dropOut : Bool) :
  (State.countDefect s i thermal dropOut).winLive = s.winLive := by
  unfold State.countDefect
  dsimp only
  repeat' (first | (simp; done) | intro _ | split | rw [State.when_winLive] | (simp_all; done))

@[simp] theorem execDefectDeclare_winLive (slot : Fin 16) (cell : Nat) (streams : List (List Int)) (s : State) :
  Res.winLive (execDefectDeclare slot cell streams s) = some s.winLive := by
  unfold execDefectDeclare
  dsimp only
  repeat' (first | (simp; done) | intro _ | split | rw [State.when_winLive] | (simp_all; done))

@[simp] theorem execDefectWindowClose_winLive (slot : Fin 16) (s : State) :
  Res.winLive (execDefectWindowClose slot s) = some s.winLive := by
  unfold execDefectWindowClose
  dsimp only
  repeat' (first | (simp; done) | intro _ | split | (simp_all; done))

@[simp] theorem State.modSect_winLive (s : State) (i : Nat) (e : Nat) (g : Sect → Sect) :
  (State.modSect s i e g).winLive = s.winLive := by
  unfold State.modSect
  repeat' split
  all_goals simp

@[simp] theorem execCaptureDone_winLive (slot : Fin 16) (e0 : ElemCapture) (e1 : ElemCapture) (e2 : ElemCapture) (s : State) :
  Res.winLive (execCaptureDone slot e0 e1 e2 s) = some s.winLive := by
  unfold execCaptureDone
  dsimp only
  repeat' (first | (simp; done) | intro _ | split | rw [State.each_winLive] | rw [State.foldl_winLive] | rw [State.foldlp_winLive] | (simp_all; done))

@[simp] theorem execSbHoldWrite_winLive (slot : Fin 16) (value : Word) (s : State) :
  Res.winLive (execSbHoldWrite slot value s) = some s.winLive := by
  simp [execSbHoldWrite]

@[simp] theorem execSbDataRead_winLive (slot : Fin 16) (s : State) :
  Res.winLive (execSbDataRead slot s) = some s.winLive := by
  simp [execSbDataRead]

@[simp] theorem execEqTapAdapt_winLive (slot : Fin 16) (run : SampleRun) (s : State) :
  Res.winLive (execEqTapAdapt slot run s) = some s.winLive := by
  unfold execEqTapAdapt
  dsimp only
  repeat' (first | (simp; done) | intro _ | split | rw [State.foldl_winLive] | rw [State.foldlp_winLive] | (simp_all; done))

@[simp] theorem execSyncSearchEnd_winLive (slot : Fin 16) (streams : List (List Int)) (s : State) :
  Res.winLive (execSyncSearchEnd slot streams s) = some s.winLive := by
  simp [execSyncSearchEnd]

@[simp] theorem execResyncSearchEnd_winLive (slot : Fin 16) (frag : Nat) (streams : List (List Int)) (s : State) :
  Res.winLive (execResyncSearchEnd slot frag streams s) = some s.winLive := by
  simp [execResyncSearchEnd]

@[simp] theorem State.attemptReads_winLive (s : State) (i : Nat) (e : Nat) (inst : Nat) (q : Sect) (upset : Bool) :
  (State.attemptReads s i e inst q upset).2.winLive = s.winLive := by
  unfold State.attemptReads
  simp
  repeat' (first | (simp; done) | intro _ | split | rw [State.each_winLive] | rw [State.when_winLive] | rw [State.foldl_winLive] | rw [State.foldlp_winLive] | rw [State.foldlp2_winLive] | (simp_all; done))

@[simp] theorem State.appendRecord_winLive (s : State) (i : Nat) (lo : Nat) (hi : Nat) :
  (State.appendRecord s i lo hi).winLive = s.winLive := by
  simp [State.appendRecord]

@[simp] theorem State.missedRecord_winLive (s : State) (i : Nat) (psi : Nat) :
  (State.missedRecord s i psi).winLive = s.winLive := by
  simp [State.missedRecord]

@[simp] theorem State.poolDrop_winLive (s : State) (ref : Nat) :
  (State.poolDrop s ref).winLive = s.winLive := by
  unfold State.poolDrop
  dsimp only
  repeat' (first | (simp; done) | intro _ | split | (simp_all; done))

@[simp] theorem State.decideSector_winLive (s : State) (i : Nat) (e : Nat) (q : Sect) (outcome : Nat) (k : Nat) (iter : Nat) (deep : Bool) (block : Nat) :
  (State.decideSector s i e q outcome k iter deep block).winLive = s.winLive := by
  simp [State.decideSector]

@[simp] theorem execFastPathDone_winLive (slot : Fin 16) (entry : Fin 2) (upset : Bool) (s : State) :
  Res.winLive (execFastPathDone slot entry upset s) = some s.winLive := by
  unfold execFastPathDone
  dsimp only
  repeat' (first | (simp; done) | intro _ | split | (simp_all; done))

@[simp] theorem State.setAttempt_winLive (s : State) (ref : Nat) (k : Nat) (st : AttState) :
  (State.setAttempt s ref k st).winLive = s.winLive := by
  simp [State.setAttempt]

@[simp] theorem execDeepAttemptStart_winLive (engine : Fin 8) (s : State) :
  Res.winLive (execDeepAttemptStart engine s) = some s.winLive := by
  unfold execDeepAttemptStart
  repeat' split
  all_goals simp

@[simp] theorem execDeepAttemptDone_winLive (engine : Fin 8) (upset : Bool) (s : State) :
  Res.winLive (execDeepAttemptDone engine upset s) = some s.winLive := by
  unfold execDeepAttemptDone
  dsimp only
  repeat' (first | (simp; done) | intro _ | split | rw [State.when_winLive] | (simp_all; done))

@[simp] theorem execSectLoRead_winLive (slot : Fin 16) (s : State) :
  Res.winLive (execSectLoRead slot s) = some s.winLive := by
  unfold execSectLoRead
  dsimp only
  repeat' (first | (simp; done) | intro _ | split | (simp_all; done))

@[simp] theorem execSectHiRead_winLive (slot : Fin 16) (s : State) :
  Res.winLive (execSectHiRead slot s) = some s.winLive := by
  unfold execSectHiRead
  dsimp only
  repeat' (first | (simp; done) | intro _ | split | (simp_all; done))

@[simp] theorem execPreampFrameDone_winLive (act : Fin 4) (data : Nat) (s : State) :
  Res.winLive (execPreampFrameDone act data s) = some s.winLive := by
  unfold execPreampFrameDone
  dsimp only
  repeat' (first | (simp; done) | intro _ | split | rw [State.when_winLive] | (simp_all; done))

@[simp] theorem execPaCmdWrite_winLive (slot : Fin 16) (value : Word) (s : State) :
  Res.winLive (execPaCmdWrite slot value s) = some s.winLive := by
  simp [execPaCmdWrite]

@[simp] theorem execPreampFault_winLive (act : Fin 4) (s : State) :
  Res.winLive (execPreampFault act s) = some s.winLive := by
  unfold execPreampFault
  repeat' split
  all_goals simp

@[simp] theorem State.clockValid_winLive (s : State) (i : Nat) (m : Member) (e : Int) :
  (State.clockValid s i m e).winLive = s.winLive := by
  simp [State.clockValid]

@[simp] theorem execClockField_winLive (slot : Fin 16) (measured : Int) (samples : List Int) (s : State) :
  Res.winLive (execClockField slot measured samples s) = some s.winLive := by
  unfold execClockField
  dsimp only
  repeat' (first | (simp; done) | intro _ | split | (simp_all; done))

@[simp] theorem execMediaClockLock_winLive (slot : Fin 16) (s : State) :
  Res.winLive (execMediaClockLock slot s) = some s.winLive := by
  simp [execMediaClockLock]

@[simp] theorem execLossOfLock_winLive (slot : Fin 16) (s : State) :
  Res.winLive (execLossOfLock slot s) = some s.winLive := by
  simp [execLossOfLock]

@[simp] theorem execCodewordEncodeDone_winLive (slot : Fin 16) (info : Nat) (parity : Nat) (s : State) :
  Res.winLive (execCodewordEncodeDone slot info parity s) = some s.winLive := by
  unfold execCodewordEncodeDone
  dsimp only
  repeat' (first | (simp; done) | intro _ | split | (simp_all; done))

@[simp] theorem execCodewordUnderrun_winLive (slot : Fin 16) (s : State) :
  Res.winLive (execCodewordUnderrun slot s) = some s.winLive := by
  unfold execCodewordUnderrun
  dsimp only
  repeat' (first | (simp; done) | intro _ | split | (simp_all; done))

@[simp] theorem execSensorSample_winLive (input : Fin 5) (code : Nat) (s : State) :
  Res.winLive (execSensorSample input code s) = some s.winLive := by
  simp [execSensorSample]

@[simp] theorem execShockClear_winLive (s : State) :
  Res.winLive (execShockClear s) = some s.winLive := by
  simp [execShockClear]

@[simp] theorem State.fmtIso_winLive (s : State) (a : Nat) (g : State → State) (h0 : ∀ s0, (g s0).winLive = s0.winLive) :
  (State.fmtIso s a g).winLive = s.winLive := by
  unfold State.fmtIso
  simp
  repeat' (first | (simp; done) | intro _ | split | rw [State.fmtIso_winLive] | (simp_all; done))

@[simp] theorem State.fmtReject_winLive (s : State) (a : Nat) (c : Nat) :
  (State.fmtReject s a c).winLive = s.winLive := by
  simp [State.fmtReject]

@[simp] theorem State.drainEnded_winLive (s : State) (a : Nat) :
  (State.drainEnded s a).winLive = s.winLive := by
  simp [State.drainEnded]

@[simp] theorem State.closeRun_winLive (s : State) (a : Nat) (r : Run) (st : Nat) (keep : Nat → Bool) :
  (State.closeRun s a r st keep).winLive = s.winLive := by
  simp [State.closeRun]

@[simp] theorem State.endRuns_winLive (s : State) (a : Nat) :
  (State.endRuns s a).winLive = s.winLive := by
  simp [State.endRuns]

@[simp] theorem State.discardSects_winLive (s : State) (i : Nat) :
  (State.discardSects s i).winLive = s.winLive := by
  simp [State.discardSects]

@[simp] theorem State.stopSlot_winLive (s : State) (i : Nat) :
  (State.stopSlot s i).winLive = s.winLive := by
  simp [State.stopSlot]

@[simp] theorem State.failRuns_winLive (s : State) (a : Nat) :
  (State.failRuns s a).winLive = s.winLive := by
  simp [State.failRuns]

@[simp] theorem State.tabEvent_winLive (s : State) (a : Nat) (j : Nat) (w : Nat) :
  (State.tabEvent s a j w).winLive = s.winLive := by
  simp [State.tabEvent]

@[simp] theorem State.endBeat_winLive (s : State) (a : Nat) (j : Nat) :
  (State.endBeat s a j).winLive = s.winLive := by
  unfold State.endBeat
  repeat' split
  all_goals simp

@[simp] theorem State.fmtMachineCheck_winLive (s : State) (a : Nat) (cause : Nat) (thread : Nat) (space : Bool) (addr : Nat) :
  (State.fmtMachineCheck s a cause thread space addr).winLive = s.winLive := by
  simp [State.fmtMachineCheck]

@[simp] theorem State.atCell_winLive (s : State) (i : Nat) (w : Nat) (c : Nat) :
  (State.atCell s i w c).winLive = s.winLive := by
  simp [State.atCell]

@[simp] theorem State.runOp_winLive (s : State) (a : Nat) (j : Nat) (ops : List Nat) (g : State → Nat → State) (h0 : ∀ s0 x1, (g s0 x1).winLive = s0.winLive) :
  (State.runOp s a j ops g).winLive = s.winLive := by
  unfold State.runOp
  dsimp only
  repeat' (first | (simp; done) | intro _ | split | rw [State.runOp_winLive] | (simp_all; done))

@[simp] theorem State.setCmp_winLive (s : State) (a : Nat) (j : Nat) (cells : Nat) (cell : Nat) :
  (State.setCmp s a j cells cell).winLive = s.winLive := by
  simp [State.setCmp]

@[simp] theorem State.freeCmp_winLive (s : State) (a : Nat) (j : Nat) :
  (State.freeCmp s a j).winLive = s.winLive := by
  simp [State.freeCmp]

@[simp] theorem execNop_winLive (act : Fin 4) (thread : Fin 4) (s : State) :
  Res.winLive (execNop act thread s) = some s.winLive := by
  simp [execNop]

@[simp] theorem execLdcmp_winLive (act : Fin 4) (thread : Fin 4) (s : State) :
  Res.winLive (execLdcmp act thread s) = some s.winLive := by
  simp [execLdcmp]

@[simp] theorem execAddcmp_winLive (act : Fin 4) (thread : Fin 4) (s : State) :
  Res.winLive (execAddcmp act thread s) = some s.winLive := by
  simp [execAddcmp]

@[simp] theorem execLdlc_winLive (act : Fin 4) (thread : Fin 4) (s : State) :
  Res.winLive (execLdlc act thread s) = some s.winLive := by
  simp [execLdlc]

@[simp] theorem execDeclc_winLive (act : Fin 4) (thread : Fin 4) (s : State) :
  Res.winLive (execDeclc act thread s) = some s.winLive := by
  simp [execDeclc]

@[simp] theorem State.takeSector_winLive (s : State) (a : Nat) (j : Nat) (m : Member) (r : Run) (k : Nat) :
  (State.takeSector s a j m r k).winLive = s.winLive := by
  unfold State.takeSector
  dsimp only
  repeat' (first | (simp; done) | intro _ | split | (simp_all; done))

@[simp] theorem execTakerun_winLive (act : Fin 4) (thread : Fin 4) (w : Nat) (c : Nat) (s : State) :
  Res.winLive (execTakerun act thread w c s) = some s.winLive := by
  unfold execTakerun
  simp
  repeat' (first | (simp; done) | intro _ | split | rw [State.runOp_winLive] | (simp_all; done))

@[simp] theorem execNextsec_winLive (act : Fin 4) (thread : Fin 4) (w : Nat) (c : Nat) (s : State) :
  Res.winLive (execNextsec act thread w c s) = some s.winLive := by
  unfold execNextsec
  simp
  repeat' (first | (simp; done) | intro _ | split | rw [State.runOp_winLive] | (simp_all; done))

@[simp] theorem execNextfrag_winLive (act : Fin 4) (thread : Fin 4) (s : State) :
  Res.winLive (execNextfrag act thread s) = some s.winLive := by
  unfold execNextfrag
  simp
  repeat' (first | (simp; done) | intro _ | split | rw [State.runOp_winLive] | (simp_all; done))

@[simp] theorem execEndfrag_winLive (act : Fin 4) (thread : Fin 4) (s : State) :
  Res.winLive (execEndfrag act thread s) = some s.winLive := by
  unfold execEndfrag
  simp
  repeat' (first | (simp; done) | intro _ | split | rw [State.runOp_winLive] | (simp_all; done))

@[simp] theorem execSkip_winLive (act : Fin 4) (thread : Fin 4) (s : State) :
  Res.winLive (execSkip act thread s) = some s.winLive := by
  unfold execSkip
  simp
  repeat' (first | (simp; done) | intro _ | split | rw [State.when_winLive] | rw [State.runOp_winLive] | (simp_all; done))

@[simp] theorem execEndmember_winLive (act : Fin 4) (thread : Fin 4) (s : State) :
  Res.winLive (execEndmember act thread s) = some s.winLive := by
  unfold execEndmember
  rw [Res.winLive_next, State.runOp_winLive]
  intro s x
  simp only []
  split <;> simp

@[simp] theorem execTabBeatEnd_winLive (act : Fin 4) (thread : Fin 4) (w : Nat) (c : Nat) (s : State) :
  Res.winLive (execTabBeatEnd act thread w c s) = some s.winLive := by
  unfold execTabBeatEnd
  dsimp only
  repeat' (first | (simp; done) | intro _ | split | (simp_all; done))

@[simp] theorem State.cutGate_winLive (s : State) (i : Nat) (but : Option Nat) :
  (State.cutGate s i but).winLive = s.winLive := by
  unfold State.cutGate
  dsimp only
  repeat' (first | (simp; done) | intro _ | split | (simp_all; done))

@[simp] theorem State.lateSector_winLive (s : State) (a : Nat) (j : Nat) (e : Edge) (noBuf : Bool) :
  (State.lateSector s a j e noBuf).winLive = s.winLive := by
  unfold State.lateSector
  dsimp only
  repeat' (first | (simp; done) | intro _ | split | rw [State.when_winLive] | (simp_all; done))

@[simp] theorem execEdgeQueuePush_winLive (act : Fin 4) (thread : Fin 4) (w : Nat) (c : Nat) (s : State) :
  Res.winLive (execEdgeQueuePush act thread w c s) = some s.winLive := by
  unfold execEdgeQueuePush
  dsimp only
  repeat' (first | (simp; done) | intro _ | split | (simp_all; done))

@[simp] theorem State.captureStart_winLive (s : State) (i : Nat) (d : RdSect) (m : Member) (pos : Nat) :
  (State.captureStart s i d m pos).winLive = s.winLive := by
  simp [State.captureStart]

@[simp] theorem State.openGate_winLive (s : State) (i : Nat) (sec : Nat) (pos : Nat) :
  (State.openGate s i sec pos).winLive = s.winLive := by
  unfold State.openGate
  dsimp only
  repeat' (first | (simp; done) | intro _ | split | (simp_all; done))

@[simp] theorem State.fastWrite_winLive (s : State) (i : Nat) (on : Bool) :
  (State.fastWrite s i on).winLive = s.winLive := by
  unfold State.fastWrite
  repeat' split
  all_goals simp

@[simp] theorem execEdgeEntryApply_winLive (slot : Fin 16) (s : State) :
  Res.winLive (execEdgeEntryApply slot s) = some s.winLive := by
  unfold execEdgeEntryApply
  dsimp only
  repeat' (first | (simp; done) | intro _ | split | rw [State.when_winLive] | (simp_all; done))

@[simp] theorem execRunPush_winLive (act : Fin 4) (value : Word) (s : State) :
  Res.winLive (execRunPush act value s) = some s.winLive := by
  unfold execRunPush
  simp
  repeat' (first | (simp; done) | intro _ | split | rw [State.fmtIso_winLive] | (simp_all; done))

@[simp] theorem execRunDone_winLive (act : Fin 4) (loc : Fin 4) (s : State) :
  Res.winLive (execRunDone act loc s) = some s.winLive := by
  unfold execRunDone
  dsimp only
  repeat' (first | (simp; done) | intro _ | split | (simp_all; done))

@[simp] theorem execFmtDoneRead_winLive (act : Fin 4) (s : State) :
  Res.winLive (execFmtDoneRead act s) = some s.winLive := by
  unfold execFmtDoneRead
  simp
  repeat' (first | (simp; done) | intro _ | split | rw [State.fmtIso_winLive] | (simp_all; done))

@[simp] theorem execRevisitExhausted_winLive (act : Fin 4) (loc : Fin 4) (s : State) :
  Res.winLive (execRevisitExhausted act loc s) = some s.winLive := by
  unfold execRevisitExhausted
  dsimp only
  repeat' (first | (simp; done) | intro _ | split | (simp_all; done))

@[simp] theorem execCourseCommit_winLive (act : Fin 4) (value : Word) (s : State) :
  Res.winLive (execCourseCommit act value s) = some s.winLive := by
  simp [execCourseCommit]

@[simp] theorem execCourseBarrier_winLive (act : Fin 4) (s : State) :
  Res.winLive (execCourseBarrier act s) = some s.winLive := by
  unfold execCourseBarrier
  dsimp only
  repeat' (first | (simp; done) | intro _ | split | rw [State.each_winLive] | (simp_all; done))

@[simp] theorem execCapoDataWrite_winLive (act : Fin 4) (value : Word) (s : State) :
  Res.winLive (execCapoDataWrite act value s) = some s.winLive := by
  simp [execCapoDataWrite]

@[simp] theorem execCapoVerify_winLive (act : Fin 4) (value : Word) (s : State) :
  Res.winLive (execCapoVerify act value s) = some s.winLive := by
  simp [execCapoVerify]

@[simp] theorem execCapoVerifyDone_winLive (act : Fin 4) (s : State) :
  Res.winLive (execCapoVerifyDone act s) = some s.winLive := by
  unfold execCapoVerifyDone
  dsimp only
  repeat' (first | (simp; done) | intro _ | split | (simp_all; done))

@[simp] theorem State.fmtReset_winLive (s : State) (a : Nat) :
  (State.fmtReset s a).winLive = s.winLive := by
  simp [State.fmtReset]

@[simp] theorem State.fmtCtl_winLive (s : State) (a : Nat) (v : Nat) :
  (State.fmtCtl s a v).winLive = s.winLive := by
  simp [State.fmtCtl]

@[simp] theorem execFmtRunWrite_winLive (act : Fin 4) (value : Word) (s : State) :
  Res.winLive (execFmtRunWrite act value s) = some s.winLive := by
  simp [execFmtRunWrite]

@[simp] theorem execFormatterReset_winLive (act : Fin 4) (value : Word) (s : State) :
  Res.winLive (execFormatterReset act value s) = some s.winLive := by
  simp [execFormatterReset]

@[simp] theorem execTabMachineCheck_winLive (act : Fin 4) (thread : Fin 4) (flips : Nat) (s : State) :
  Res.winLive (execTabMachineCheck act thread flips s) = some s.winLive := by
  unfold execTabMachineCheck
  dsimp only
  repeat' (first | (simp; done) | intro _ | split | (simp_all; done))

@[simp] theorem execSweepStep_winLive (act : Fin 4) (flips : Nat) (s : State) :
  Res.winLive (execSweepStep act flips s) = some s.winLive := by
  simp [execSweepStep]

@[simp] theorem execSweepPassEnd_winLive (act : Fin 4) (pass : SweepRead) (s : State) :
  Res.winLive (execSweepPassEnd act pass s) = some s.winLive := by
  simp [execSweepPassEnd]

@[simp] theorem State.servoGain_winLive (s : State) (i : Nat) (m : Member) (f : ServoField) :
  (State.servoGain s i m f).winLive = s.winLive := by
  simp [State.servoGain]

@[simp] theorem State.servoAcquire_winLive (s : State) (i : Nat) (m : Member) (f : ServoField) :
  (State.servoAcquire s i m f).winLive = s.winLive := by
  simp [State.servoAcquire]

@[simp] theorem State.servoStart_winLive (s : State) (i : Nat) (m : Member) (f : ServoField) :
  (State.servoStart s i m f).winLive = s.winLive := by
  simp [State.servoStart]

@[simp] theorem State.servoEnd_winLive (s : State) (i : Nat) (m : Member) :
  (State.servoEnd s i m).winLive = s.winLive := by
  simp [State.servoEnd]

@[simp] theorem State.trackField_winLive (s : State) (i : Nat) (h : Nat) (m : Member) (r : FieldRead) :
  (State.trackField s i h m r).winLive = s.winLive := by
  simp [State.trackField]

@[simp] theorem State.fieldRead_winLive (s : State) (i : Nat) (h : Nat) (m : Member) (r : FieldRead) :
  (State.fieldRead s i h m r).winLive = s.winLive := by
  unfold State.fieldRead
  repeat' split
  all_goals simp

@[simp] theorem execServoField_winLive (slot : Fin 16) (field : ServoField) (s : State) :
  Res.winLive (execServoField slot field s) = some s.winLive := by
  unfold execServoField
  dsimp only
  repeat' (first | (simp; done) | intro _ | split | (simp_all; done))

@[simp] theorem execServoTrackEntry_winLive (slot : Fin 16) (s : State) :
  Res.winLive (execServoTrackEntry slot s) = some s.winLive := by
  simp [execServoTrackEntry]

@[simp] theorem execServoLost_winLive (slot : Fin 16) (s : State) :
  Res.winLive (execServoLost slot s) = some s.winLive := by
  simp [execServoLost]

@[simp] theorem State.refTick_winLive (s : State) (stamp : Nat) :
  (State.refTick s stamp).winLive = s.winLive := by
  unfold State.refTick
  dsimp only
  repeat' (first | (simp; done) | intro _ | split | rw [State.when_winLive] | (simp_all; done))

@[simp] theorem execRevTicksAged_winLive (s : State) :
  Res.winLive (execRevTicksAged s) = some s.winLive := by
  simp [execRevTicksAged]

@[simp] theorem State.srvSrc_winLive (s : State) (a : Nat) (j : Nat) (v : Nat) :
  (State.srvSrc s a j v).winLive = s.winLive := by
  unfold State.srvSrc
  dsimp only
  repeat' (first | (simp; done) | intro _ | split | (simp_all; done))

@[simp] theorem execServoSourceEnable_winLive (act : Fin 4) (loc : Fin 4) (value : Word) (s : State) :
  Res.winLive (execServoSourceEnable act loc value s) = some s.winLive := by
  simp [execServoSourceEnable]

@[simp] theorem State.mtrReject_winLive (s : State) (c : Nat) :
  (State.mtrReject s c).winLive = s.winLive := by
  simp [State.mtrReject]

@[simp] theorem State.setRet_winLive (s : State) (a : Nat) (v : Nat) :
  (State.setRet s a v).winLive = s.winLive := by
  simp [State.setRet]

@[simp] theorem State.retract_winLive (s : State) (a : Nat) (cause : Nat) :
  (State.retract s a cause).winLive = s.winLive := by
  simp [State.retract]

@[simp] theorem State.retractAll_winLive (s : State) (cause : Nat) :
  (State.retractAll s cause).winLive = s.winLive := by
  simp [State.retractAll]

@[simp] theorem State.retractUnparked_winLive (s : State) (cause : Nat) :
  (State.retractUnparked s cause).winLive = s.winLive := by
  simp [State.retractUnparked]

@[simp] theorem State.retCmd_winLive (s : State) (v : Nat) :
  (State.retCmd s v).winLive = s.winLive := by
  simp [State.retCmd]

@[simp] theorem execRetractCmd_winLive (value : Word) (s : State) :
  Res.winLive (execRetractCmd value s) = some s.winLive := by
  simp [execRetractCmd]

@[simp] theorem execRetractDone_winLive (act : Fin 4) (s : State) :
  Res.winLive (execRetractDone act s) = some s.winLive := by
  simp [execRetractDone]

@[simp] theorem State.parkedClear_winLive (s : State) (v : Nat) :
  (State.parkedClear s v).winLive = s.winLive := by
  simp [State.parkedClear]

@[simp] theorem execParkedClear_winLive (value : Word) (s : State) :
  Res.winLive (execParkedClear value s) = some s.winLive := by
  simp [execParkedClear]

@[simp] theorem State.d2dSend_winLive (s : State) (lane : Nat) (output : Nat) (code : Int) :
  (State.d2dSend s lane output code).winLive = s.winLive := by
  simp [State.d2dSend]

@[simp] theorem execDriverCommand_winLive (s : State) :
  Res.winLive (execDriverCommand s) = some s.winLive := by
  unfold execDriverCommand
  repeat' split
  all_goals simp

@[simp] theorem execStopMessage_winLive (s : State) :
  Res.winLive (execStopMessage s) = some s.winLive := by
  unfold execStopMessage
  repeat' split
  all_goals simp

@[simp] theorem State.slew_winLive (s : State) (dt : Nat) :
  (State.slew s dt).winLive = s.winLive := by
  simp [State.slew]

@[simp] theorem State.piLoop_winLive (s : State) :
  (State.piLoop s).winLive = s.winLive := by
  simp [State.piLoop]

@[simp] theorem State.speedUpdate_winLive (s : State) (num : Nat) (den : Nat) :
  (State.speedUpdate s num den).winLive = s.winLive := by
  simp [State.speedUpdate]

@[simp] theorem State.zcSpeed_winLive (s : State) :
  (State.zcSpeed s).winLive = s.winLive := by
  simp [State.zcSpeed]

@[simp] theorem State.noteSpeed_winLive (s : State) (v : Nat) :
  (State.noteSpeed s v).winLive = s.winLive := by
  simp [State.noteSpeed]

@[simp] theorem State.wedgeSpeed_winLive (s : State) (old : RefHead) :
  (State.wedgeSpeed s old).winLive = s.winLive := by
  unfold State.wedgeSpeed
  dsimp only
  repeat' (first | (simp; done) | intro _ | split | (simp_all; done))

@[simp] theorem execWedgeTick_winLive (stamp : Nat) (s : State) :
  Res.winLive (execWedgeTick stamp s) = some s.winLive := by
  unfold execWedgeTick
  repeat' split
  all_goals simp

@[simp] theorem execWedgeTickTimeout_winLive (s : State) :
  Res.winLive (execWedgeTickTimeout s) = some s.winLive := by
  simp [execWedgeTickTimeout]

@[simp] theorem State.enterSpin_winLive (s : State) (v : Nat) :
  (State.enterSpin s v).winLive = s.winLive := by
  simp [State.enterSpin]

@[simp] theorem State.switchesOff_winLive (s : State) :
  (State.switchesOff s).winLive = s.winLive := by
  simp [State.switchesOff]

@[simp] theorem State.spinFault_winLive (s : State) (cause : Nat) (event : Nat) :
  (State.spinFault s cause event).winLive = s.winLive := by
  simp [State.spinFault]

@[simp] theorem State.brakeIn_winLive (s : State) (mode : Nat) :
  (State.brakeIn s mode).winLive = s.winLive := by
  simp [State.brakeIn]

@[simp] theorem State.sense_winLive (s : State) :
  (State.sense s).winLive = s.winLive := by
  simp [State.sense]

@[simp] theorem State.spinStart_winLive (s : State) :
  (State.spinStart s).winLive = s.winLive := by
  simp [State.spinStart]

@[simp] theorem State.spnCtl_winLive (s : State) (v : Nat) :
  (State.spnCtl s v).winLive = s.winLive := by
  simp [State.spnCtl]

@[simp] theorem execSpindleStart_winLive (value : Word) (s : State) :
  Res.winLive (execSpindleStart value s) = some s.winLive := by
  simp [execSpindleStart]

@[simp] theorem execSpindleStop_winLive (value : Word) (s : State) :
  Res.winLive (execSpindleStop value s) = some s.winLive := by
  simp [execSpindleStop]

@[simp] theorem State.align_winLive (s : State) :
  (State.align s).winLive = s.winLive := by
  simp [State.align]

@[simp] theorem State.accel_winLive (s : State) :
  (State.accel s).winLive = s.winLive := by
  simp [State.accel]

@[simp] theorem execSenseEnd_winLive (lowAmplitude : Bool) (dir : Bool) (speed : Nat) (step : Fin 6) (s : State) :
  Res.winLive (execSenseEnd lowAmplitude dir speed step s) = some s.winLive := by
  simp [execSenseEnd]

@[simp] theorem execPreBrakeSample_winLive (speed : Nat) (s : State) :
  Res.winLive (execPreBrakeSample speed s) = some s.winLive := by
  simp [execPreBrakeSample]

@[simp] theorem execAlignEnd_winLive (s : State) :
  Res.winLive (execAlignEnd s) = some s.winLive := by
  simp [execAlignEnd]

@[simp] theorem execRampLimit_winLive (s : State) :
  Res.winLive (execRampLimit s) = some s.winLive := by
  simp [execRampLimit]

@[simp] theorem execHandover_winLive (s : State) :
  Res.winLive (execHandover s) = some s.winLive := by
  simp [execHandover]

@[simp] theorem execZeroCrossing_winLive (times : List Nat) (values : List Int) (s : State) :
  Res.winLive (execZeroCrossing times values s) = some s.winLive := by
  unfold execZeroCrossing
  repeat' split
  all_goals simp

@[simp] theorem State.nextStep_winLive (s : State) (t : Nat) :
  (State.nextStep s t).winLive = s.winLive := by
  simp [State.nextStep]

@[simp] theorem execCommutation_winLive (step : Fin 6) (s : State) :
  Res.winLive (execCommutation step s) = some s.winLive := by
  unfold execCommutation
  repeat' split
  all_goals simp

@[simp] theorem execZcMiss_winLive (s : State) :
  Res.winLive (execZcMiss s) = some s.winLive := by
  simp [execZcMiss]

@[simp] theorem execZcLost_winLive (s : State) :
  Res.winLive (execZcLost s) = some s.winLive := by
  simp [execZcLost]

@[simp] theorem execAtSpeed_winLive (s : State) :
  Res.winLive (execAtSpeed s) = some s.winLive := by
  simp [execAtSpeed]

@[simp] theorem execAtSpeedLost_winLive (s : State) :
  Res.winLive (execAtSpeedLost s) = some s.winLive := by
  simp [execAtSpeedLost]

@[simp] theorem execSpinupTimeout_winLive (s : State) :
  Res.winLive (execSpinupTimeout s) = some s.winLive := by
  simp [execSpinupTimeout]

@[simp] theorem State.spnSet_winLive (s : State) (v : Nat) :
  (State.spnSet s v).winLive = s.winLive := by
  simp [State.spnSet]

@[simp] theorem State.clampDepth_winLive (s : State) :
  (State.clampDepth s).winLive = s.winLive := by
  simp [State.clampDepth]

@[simp] theorem State.fromDoze_winLive (s : State) :
  (State.fromDoze s).winLive = s.winLive := by
  simp [State.fromDoze]

@[simp] theorem State.spunDown_winLive (s : State) :
  (State.spunDown s).winLive = s.winLive := by
  simp [State.spunDown]

@[simp] theorem execBrakeStop_winLive (speed : Nat) (s : State) :
  Res.winLive (execBrakeStop speed s) = some s.winLive := by
  simp [execBrakeStop]

@[simp] theorem State.vmot_winLive (s : State) (v : Nat) :
  (State.vmot s v).winLive = s.winLive := by
  simp [State.vmot]

@[simp] theorem State.vin_winLive (s : State) (v : Nat) :
  (State.vin s v).winLive = s.winLive := by
  simp [State.vin]

@[simp] theorem execChopperOn_winLive (vmot : Nat) (s : State) :
  Res.winLive (execChopperOn vmot s) = some s.winLive := by
  simp [execChopperOn]

@[simp] theorem execChopperOff_winLive (vmot : Nat) (s : State) :
  Res.winLive (execChopperOff vmot s) = some s.winLive := by
  simp [execChopperOff]

@[simp] theorem State.chopFault_winLive (s : State) (cause : Nat) :
  (State.chopFault s cause).winLive = s.winLive := by
  simp [State.chopFault]

@[simp] theorem execChopperFault_winLive (late : Bool) (measured : Nat) (s : State) :
  Res.winLive (execChopperFault late measured s) = some s.winLive := by
  simp [execChopperFault]

@[simp] theorem execLadderShortBrake_winLive (vmot : Nat) (s : State) :
  Res.winLive (execLadderShortBrake vmot s) = some s.winLive := by
  simp [execLadderShortBrake]

@[simp] theorem execOvp_winLive (vmot : Nat) (s : State) :
  Res.winLive (execOvp vmot s) = some s.winLive := by
  simp [execOvp]

@[simp] theorem State.ladderWrite_winLive (s : State) (v : Nat) :
  (State.ladderWrite s v).winLive = s.winLive := by
  simp [State.ladderWrite]

@[simp] theorem execVmotSwitchOpen_winLive (vin : Nat) (vmot : Nat) (s : State) :
  Res.winLive (execVmotSwitchOpen vin vmot s) = some s.winLive := by
  simp [execVmotSwitchOpen]

@[simp] theorem execVmotSwitchClose_winLive (vin : Nat) (vmot : Nat) (s : State) :
  Res.winLive (execVmotSwitchClose vin vmot s) = some s.winLive := by
  simp [execVmotSwitchClose]

@[simp] theorem execVinHigh_winLive (vin : Nat) (s : State) :
  Res.winLive (execVinHigh vin s) = some s.winLive := by
  simp [execVinHigh]

@[simp] theorem execVinHighRelease_winLive (vin : Nat) (s : State) :
  Res.winLive (execVinHighRelease vin s) = some s.winLive := by
  simp [execVinHighRelease]

@[simp] theorem State.ctlReject_winLive (s : State) (a : Nat) (c : Nat) :
  (State.ctlReject s a c).winLive = s.winLive := by
  simp [State.ctlReject]

@[simp] theorem State.holdOld_winLive (s : State) (a : Nat) (F : Field) :
  (State.holdOld s a F).winLive = s.winLive := by
  simp [State.holdOld]

@[simp] theorem State.pesRaise_winLive (s : State) (a : Nat) :
  (State.pesRaise s a).winLive = s.winLive := by
  simp [State.pesRaise]

@[simp] theorem State.enterPhase_winLive (s : State) (a : Nat) (v : Nat) :
  (State.enterPhase s a v).winLive = s.winLive := by
  simp [State.enterPhase]

@[simp] theorem State.boundary_winLive (s : State) (a : Nat) :
  (State.boundary s a).winLive = s.winLive := by
  unfold State.boundary
  dsimp only
  repeat' (first | (simp; done) | intro _ | split | (simp_all; done))

@[simp] theorem State.landed_winLive (s : State) (a : Nat) :
  (State.landed s a).winLive = s.winLive := by
  simp [State.landed]

@[simp] theorem State.bankSel_winLive (s : State) (a : Nat) (v : Nat) :
  (State.bankSel s a v).winLive = s.winLive := by
  simp [State.bankSel]

@[simp] theorem execBankSelWrite_winLive (act : Fin 4) (value : Word) (s : State) :
  Res.winLive (execBankSelWrite act value s) = some s.winLive := by
  simp [execBankSelWrite]

@[simp] theorem State.coefWrite_winLive (s : State) (a : Nat) (o : Nat) (v : Nat) :
  (State.coefWrite s a o v).winLive = s.winLive := by
  simp [State.coefWrite]

@[simp] theorem execCoefficientWrite_winLive (act : Fin 4) (offset : Nat) (value : Word) (s : State) :
  Res.winLive (execCoefficientWrite act offset value s) = some s.winLive := by
  simp [execCoefficientWrite]

@[simp] theorem State.learnerRead_winLive (s : State) (a : Nat) (k : Nat) :
  (State.learnerRead s a k).2.winLive = s.winLive := by
  unfold State.learnerRead
  repeat' split
  all_goals simp

@[simp] theorem State.learnerWrite_winLive (s : State) (a : Nat) (k : Nat) (v : Nat) :
  (State.learnerWrite s a k v).winLive = s.winLive := by
  simp [State.learnerWrite]

@[simp] theorem State.learn_winLive (s : State) (a : Nat) (h : Nat) (k : Nat) (e : Int) (flip : Nat) :
  (State.learn s a h k e flip).winLive = s.winLive := by
  simp [State.learn]

@[simp] theorem State.learnerData_winLive (s : State) (a : Nat) (w : Option Nat) :
  (State.learnerData s a w).winLive = s.winLive := by
  unfold State.learnerData
  repeat' split
  all_goals simp

@[simp] theorem execLearnerDataAccess_winLive (act : Fin 4) (write : Option Word) (s : State) :
  Res.winLive (execLearnerDataAccess act write s) = some s.winLive := by
  simp [execLearnerDataAccess]

@[simp] theorem State.compareFault_winLive (s : State) (a : Nat) (src : Nat) :
  (State.compareFault s a src).winLive = s.winLive := by
  simp [State.compareFault]

@[simp] theorem State.microJob_winLive (s : State) (a : Nat) (m : Sample) (up : Option LaneUpset) :
  (State.microJob s a m up).winLive = s.winLive := by
  simp [State.microJob]

@[simp] theorem State.groupCounts_winLive (s : State) (a : Nat) (ph : Nat) (rs : List JobRec) (ev : Int) :
  (State.groupCounts s a ph rs ev).winLive = s.winLive := by
  simp [State.groupCounts]

@[simp] theorem State.vcmJob_winLive (s : State) (a : Nat) (key : Nat) :
  (State.vcmJob s a key).winLive = s.winLive := by
  simp [State.vcmJob]

@[simp] theorem State.laneJob_winLive (s : State) (a : Nat) (up : Option LaneUpset) :
  (State.laneJob s a up).winLive = s.winLive := by
  unfold State.laneJob
  repeat' split
  all_goals simp

@[simp] theorem execMicroJob_winLive (act : Fin 4) (s : State) :
  Res.winLive (execMicroJob act s) = some s.winLive := by
  simp [execMicroJob]

@[simp] theorem execHeadHeld_winLive (act : Fin 4) (head : Fin 12) (s : State) :
  Res.winLive (execHeadHeld act head s) = some s.winLive := by
  simp [execHeadHeld]

@[simp] theorem State.zeroMicro_winLive (s : State) (a : Nat) :
  (State.zeroMicro s a).winLive = s.winLive := by
  simp [State.zeroMicro]

@[simp] theorem execLaneLost_winLive (act : Fin 4) (s : State) :
  Res.winLive (execLaneLost act s) = some s.winLive := by
  simp [execLaneLost]

@[simp] theorem execSettleDone_winLive (act : Fin 4) (s : State) :
  Res.winLive (execSettleDone act s) = some s.winLive := by
  simp [execSettleDone]

@[simp] theorem execFollowingError_winLive (act : Fin 4) (s : State) :
  Res.winLive (execFollowingError act s) = some s.winLive := by
  simp [execFollowingError]

@[simp] theorem execPesClear_winLive (act : Fin 4) (s : State) :
  Res.winLive (execPesClear act s) = some s.winLive := by
  simp [execPesClear]

@[simp] theorem State.laneOff_winLive (s : State) (a : Nat) (commands : Bool) :
  (State.laneOff s a commands).winLive = s.winLive := by
  simp [State.laneOff]

@[simp] theorem State.laneCtl_winLive (s : State) (a : Nat) (v : Nat) :
  (State.laneCtl s a v).winLive = s.winLive := by
  simp [State.laneCtl]

@[simp] theorem execLaneOn_winLive (act : Fin 4) (value : Word) (s : State) :
  Res.winLive (execLaneOn act value s) = some s.winLive := by
  simp [execLaneOn]

@[simp] theorem execLaneOff_winLive (act : Fin 4) (value : Word) (s : State) :
  Res.winLive (execLaneOff act value s) = some s.winLive := by
  simp [execLaneOff]

@[simp] theorem execLaneReset_winLive (act : Fin 4) (value : Word) (s : State) :
  Res.winLive (execLaneReset act value s) = some s.winLive := by
  simp [execLaneReset]

@[simp] theorem State.seekGo_winLive (s : State) (a : Nat) (v : Nat) :
  (State.seekGo s a v).winLive = s.winLive := by
  simp [State.seekGo]

@[simp] theorem execSeekGo_winLive (act : Fin 4) (value : Word) (s : State) :
  Res.winLive (execSeekGo act value s) = some s.winLive := by
  simp [execSeekGo]

@[simp] theorem State.laneStatusWrite_winLive (s : State) (a : Nat) (v : Nat) :
  (State.laneStatusWrite s a v).winLive = s.winLive := by
  simp [State.laneStatusWrite]

@[simp] theorem execLaneCompareFault_winLive (act : Fin 4) (upset : LaneUpset) (s : State) :
  Res.winLive (execLaneCompareFault act upset s) = some s.winLive := by
  simp [execLaneCompareFault]

@[simp] theorem execIdleComparePass_winLive (act : Fin 4) (upset : Option LaneUpset) (s : State) :
  Res.winLive (execIdleComparePass act upset s) = some s.winLive := by
  unfold execIdleComparePass
  dsimp only
  repeat' (first | (simp; done) | intro _ | split | (simp_all; done))

@[simp] theorem State.modSpt_winLive (s : State) (g : Spt → Spt) :
  (State.modSpt s g).winLive = s.winLive := by
  simp [State.modSpt]

@[simp] theorem State.sptReject_winLive (s : State) (c : Nat) :
  (State.sptReject s c).winLive = s.winLive := by
  simp [State.sptReject]

@[simp] theorem State.sptFell_winLive (s : State) (old : State) :
  (State.sptFell s old).winLive = s.winLive := by
  simp [State.sptFell]

@[simp] theorem State.takeWin_winLive (s : State) (nsid : Nat) (lba : Nat) (block : Nat) :
  (State.takeWin s nsid lba block).2.winLive = s.winLive := by
  unfold State.takeWin
  repeat' split
  all_goals simp

@[simp] theorem State.warn_winLive (s : State) :
  (State.warn s).winLive = s.winLive := by
  simp [State.warn]

@[simp] theorem execVinWarn_winLive (vin : Nat) (s : State) :
  Res.winLive (execVinWarn vin s) = some s.winLive := by
  simp [execVinWarn]

@[simp] theorem execVinWarnRelease_winLive (vin : Nat) (s : State) :
  Res.winLive (execVinWarnRelease vin s) = some s.winLive := by
  simp [execVinWarnRelease]

@[simp] theorem State.testStart_winLive (s : State) :
  (State.testStart s).winLive = s.winLive := by
  simp [State.testStart]

@[simp] theorem execVstoreArmed_winLive (vstore : Nat) (s : State) :
  Res.winLive (execVstoreArmed vstore s) = some s.winLive := by
  simp [execVstoreArmed]

@[simp] theorem execSelfTestStart_winLive (s : State) :
  Res.winLive (execSelfTestStart s) = some s.winLive := by
  simp [execSelfTestStart]

@[simp] theorem State.testResult_winLive (s : State) (ticks : Nat) :
  (State.testResult s ticks).winLive = s.winLive := by
  simp [State.testResult]

@[simp] theorem execSelfTestDone_winLive (ticks : Nat) (s : State) :
  Res.winLive (execSelfTestDone ticks s) = some s.winLive := by
  simp [execSelfTestDone]

@[simp] theorem execSelfTestDrawTimeout_winLive (s : State) :
  Res.winLive (execSelfTestDrawTimeout s) = some s.winLive := by
  simp [execSelfTestDrawTimeout]

@[simp] theorem execSelfTestRetry_winLive (s : State) :
  Res.winLive (execSelfTestRetry s) = some s.winLive := by
  simp [execSelfTestRetry]

@[simp] theorem execChargeTimeout_winLive (s : State) :
  Res.winLive (execChargeTimeout s) = some s.winLive := by
  simp [execChargeTimeout]

@[simp] theorem State.release_winLive (s : State) :
  (State.release s).winLive = s.winLive := by
  simp [State.release]

@[simp] theorem State.retryHeld_winLive (s : State) :
  (State.retryHeld s).winLive = s.winLive := by
  simp [State.retryHeld]

@[simp] theorem State.sptCtl_winLive (s : State) (v : Nat) :
  (State.sptCtl s v).winLive = s.winLive := by
  simp [State.sptCtl]

@[simp] theorem execSptTest_winLive (s : State) :
  Res.winLive (execSptTest s) = some s.winLive := by
  simp [execSptTest]

@[simp] theorem execSptRelease_winLive (s : State) :
  Res.winLive (execSptRelease s) = some s.winLive := by
  simp [execSptRelease]

@[simp] theorem execRetryHeld_winLive (s : State) :
  Res.winLive (execRetryHeld s) = some s.winLive := by
  simp [execRetryHeld]

@[simp] theorem State.saveMeta_winLive (s : State) :
  (State.saveMeta s).winLive = s.winLive := by
  unfold State.saveMeta
  dsimp only
  repeat' (first | (simp; done) | intro _ | split | (simp_all; done))

@[simp] theorem State.saveKeyRecord_winLive (s : State) (seq : Nat) :
  (State.saveKeyRecord s seq).winLive = s.winLive := by
  simp [State.saveKeyRecord]

@[simp] theorem execSaveBegin_winLive (s : State) :
  Res.winLive (execSaveBegin s) = some s.winLive := by
  simp [execSaveBegin]

@[simp] theorem State.saveEnd_winLive (s : State) :
  (State.saveEnd s).winLive = s.winLive := by
  simp [State.saveEnd]

@[simp] theorem execSaveCommit_winLive (ms : Nat) (vstore : Nat) (s : State) :
  Res.winLive (execSaveCommit ms vstore s) = some s.winLive := by
  simp [execSaveCommit]

@[simp] theorem execSaveIncomplete_winLive (chunks : Nat) (s : State) :
  Res.winLive (execSaveIncomplete chunks s) = some s.winLive := by
  simp [execSaveIncomplete]

@[simp] theorem execVholdRestore_winLive (s : State) :
  Res.winLive (execVholdRestore s) = some s.winLive := by
  simp [execVholdRestore]

@[simp] theorem State.modChd_winLive (s : State) (g : Chd → Chd) :
  (State.modChd s g).winLive = s.winLive := by
  simp [State.modChd]

@[simp] theorem State.rosterCheck_winLive (s : State) :
  (State.rosterCheck s).winLive = s.winLive := by
  simp [State.rosterCheck]

@[simp] theorem State.hstEvt_winLive (s : State) (p : Nat) (F : Field) :
  (State.hstEvt s p F).winLive = s.winLive := by
  simp [State.hstEvt]

@[simp] theorem execLinkTrainingDone_winLive (port : Fin 2) (rate : Nat) (width : Nat) (flit : Bool) (s : State) :
  Res.winLive (execLinkTrainingDone port rate width flit s) = some s.winLive := by
  simp [execLinkTrainingDone]

@[simp] theorem execAspmLinkStateChange_winLive (port : Fin 2) (lstate : Nat) (s : State) :
  Res.winLive (execAspmLinkStateChange port lstate s) = some s.winLive := by
  simp [execAspmLinkStateChange]

@[simp] theorem execWakeEvent_winLive (port : Fin 2) (s : State) :
  Res.winLive (execWakeEvent port s) = some s.winLive := by
  simp [execWakeEvent]

@[simp] theorem State.stageWrite_winLive (s : State) (i : Nat) (off : Nat) (len : Nat) (v : Nat) :
  (State.stageWrite s i off len v).winLive = s.winLive := by
  simp [State.stageWrite]

@[simp] theorem State.winRefuse_winLive (s : State) (i : Nat) (c : Nat) :
  (State.winRefuse s i c).winLive = s.winLive := by
  simp [State.winRefuse]

@[simp] theorem State.unsupportedReq_winLive (s : State) (p : Nat) :
  (State.unsupportedReq s p).winLive = s.winLive := by
  simp [State.unsupportedReq]

@[simp] theorem execBar2Request_winLive (port : Fin 2) (write : Bool) (addr : Nat) (len : Nat) (data : Nat) (s : State) :
  Res.winLive (execBar2Request port write addr len data s) = some s.winLive := by
  unfold execBar2Request
  dsimp only
  repeat' (first | (simp; done) | intro _ | split | (simp_all; done))

@[simp] theorem State.putAts_winLive (s : State) (l : List AtsEntry) :
  (State.putAts s l).winLive = s.winLive := by
  simp [State.putAts]

@[simp] theorem State.atsPage_winLive (s : State) (p : Nat) (page : Nat) (write : Bool) :
  (State.atsPage s p page write).winLive = s.winLive := by
  unfold State.atsPage
  repeat' split
  all_goals simp

@[simp] theorem State.atsTouch_winLive (s : State) (p : Nat) (a : Nat) (n : Nat) (write : Bool) :
  (State.atsTouch s p a n write).winLive = s.winLive := by
  simp [State.atsTouch]

@[simp] theorem execAtsTranslationCompletion_winLive (port : Fin 2) (addr : Nat) (len : Nat) (xlat : Nat) (rd : Bool) (wr : Bool) (s : State) :
  Res.winLive (execAtsTranslationCompletion port addr len xlat rd wr s) = some s.winLive := by
  unfold execAtsTranslationCompletion
  dsimp only
  repeat' (first | (simp; done) | intro _ | split | (simp_all; done))

@[simp] theorem execAtsInvalidate_winLive (port : Fin 2) (addr : Nat) (len : Nat) (tag : Nat) (s : State) :
  Res.winLive (execAtsInvalidate port addr len tag s) = some s.winLive := by
  simp [execAtsInvalidate]

@[simp] theorem execAtsInvalidateComplete_winLive (port : Fin 2) (s : State) :
  Res.winLive (execAtsInvalidateComplete port s) = some s.winLive := by
  unfold execAtsInvalidateComplete
  dsimp only
  repeat' (first | (simp; done) | intro _ | split | (simp_all; done))

@[simp] theorem State.atsDrop_winLive (s : State) (p : Nat) :
  (State.atsDrop s p).winLive = s.winLive := by
  simp [State.atsDrop]

@[simp] theorem State.msix_winLive (s : State) (p : Nat) (v : Nat) :
  (State.msix s p v).winLive = s.winLive := by
  simp [State.msix]

@[simp] theorem State.msixDrain_winLive (s : State) (p : Nat) :
  (State.msixDrain s p).winLive = s.winLive := by
  simp [State.msixDrain]

@[simp] theorem State.msixWrite_winLive (s : State) (p : Nat) (k : Nat) (v : Nat) :
  (State.msixWrite s p k v).winLive = s.winLive := by
  simp [State.msixWrite]

@[simp] theorem State.hostPieces_winLive (s : State) (p : Nat) (data : Nat) (y3 : List (Nat × Nat)) :
  (State.hostPieces s p data y3).winLive = s.winLive := by
  fun_induction State.hostPieces <;> simp_all

@[simp] theorem State.hostWrite_winLive (s : State) (p : Nat) (segs : List (Nat × Nat)) (off : Nat) (n : Nat) (data : Nat) :
  (State.hostWrite s p segs off n data).winLive = s.winLive := by
  simp [State.hostWrite]

@[simp] theorem State.hostRead_winLive (s : State) (p : Nat) (segs : List (Nat × Nat)) (off : Nat) (n : Nat) :
  (State.hostRead s p segs off n).winLive = s.winLive := by
  simp [State.hostRead]

@[simp] theorem State.putZone_winLive (s : State) (n : Nat) (z : Nat) (x : Zone) :
  (State.putZone s n z x).winLive = s.winLive := by
  simp [State.putZone]

@[simp] theorem State.step8_winLive (s : State) (nsid : Nat) (lba : Nat) (n : Nat) :
  (State.step8 s nsid lba n).2.winLive = s.winLive := by
  unfold State.step8
  repeat' split
  all_goals simp

@[simp] theorem State.admitCmd_winLive (s : State) (e : Nat) :
  (State.admitCmd s e).2.winLive = s.winLive := by
  simp [State.admitCmd]

@[simp] theorem State.complete_winLive (s : State) (seq : Nat) (sc : Nat) (info : Nat) (result : Nat) :
  (State.complete s seq sc info result).winLive = s.winLive := by
  unfold State.complete
  repeat' split
  all_goals simp

@[simp] theorem State.recheck_winLive (s : State) (seq : Nat) :
  (State.recheck s seq).winLive = s.winLive := by
  unfold State.recheck
  repeat' split
  all_goals simp

@[simp] theorem State.settle_winLive (s : State) :
  (State.settle s).winLive = s.winLive := by
  simp [State.settle]

@[simp] theorem State.putPair_winLive (s : State) (p : Nat) (q : Nat) (x : Pair) :
  (State.putPair s p q x).winLive = s.winLive := by
  simp [State.putPair]

@[simp] theorem State.dropBlocks_winLive (s : State) (seq : Nat) :
  (State.dropBlocks s seq).winLive = s.winLive := by
  unfold State.dropBlocks
  simp
  repeat' (first | (simp; done) | intro _ | split | rw [State.each_winLive] | (simp_all; done))

@[simp] theorem State.discard_winLive (s : State) (which : Cmd → Bool) :
  (State.discard s which).winLive = s.winLive := by
  simp [State.discard]

@[simp] theorem State.deletePairs_winLive (s : State) (p : Nat) (which : Nat → Bool) :
  (State.deletePairs s p which).winLive = s.winLive := by
  simp [State.deletePairs]

@[simp] theorem State.portReset_winLive (s : State) (p : Nat) :
  (State.portReset s p).winLive = s.winLive := by
  simp [State.portReset]

@[simp] theorem execFunctionLevelReset_winLive (port : Fin 2) (s : State) :
  Res.winLive (execFunctionLevelReset port s) = some s.winLive := by
  simp [execFunctionLevelReset]

@[simp] theorem execFlrDone_winLive (port : Fin 2) (s : State) :
  Res.winLive (execFlrDone port s) = some s.winLive := by
  simp [execFlrDone]

@[simp] theorem State.linkDown_winLive (s : State) (p : Nat) :
  (State.linkDown s p).winLive = s.winLive := by
  simp [State.linkDown]

@[simp] theorem execLinkDown_winLive (port : Fin 2) (s : State) :
  Res.winLive (execLinkDown port s) = some s.winLive := by
  simp [execLinkDown]

@[simp] theorem execPerstAssert_winLive (p : Fin 2) (s : State) :
  Res.winLive (execPerstAssert p s) = some s.winLive := by
  simp [execPerstAssert]

@[simp] theorem execPerstDeassert_winLive (p : Fin 2) (s : State) :
  Res.winLive (execPerstDeassert p s) = some s.winLive := by
  simp [execPerstDeassert]

@[simp] theorem execBusMasterDisable_winLive (port : Fin 2) (reads : Bool) (s : State) :
  Res.winLive (execBusMasterDisable port reads s) = some s.winLive := by
  simp [execBusMasterDisable]

@[simp] theorem execBmeReadsDrained_winLive (port : Fin 2) (s : State) :
  Res.winLive (execBmeReadsDrained port s) = some s.winLive := by
  simp [execBmeReadsDrained]

@[simp] theorem State.resume_winLive (s : State) (p : Nat) :
  (State.resume s p).winLive = s.winLive := by
  simp [State.resume]

@[simp] theorem execHctlResume_winLive (port : Fin 2) (s : State) :
  Res.winLive (execHctlResume port s) = some s.winLive := by
  simp [execHctlResume]

@[simp] theorem State.cfgWrite_winLive (s : State) (p : Nat) (cfg : PortCfg) :
  (State.cfgWrite s p cfg).winLive = s.winLive := by
  simp [State.cfgWrite]

@[simp] theorem execDstateWrite_winLive (port : Fin 2) (cfg : PortCfg) (s : State) :
  Res.winLive (execDstateWrite port cfg s) = some s.winLive := by
  simp [execDstateWrite]

@[simp] theorem State.setupWrite_winLive (s : State) (p : Nat) (off : Nat) (len : Nat) (v : Nat) :
  (State.setupWrite s p off len v).winLive = s.winLive := by
  simp [State.setupWrite]

@[simp] theorem execAdminSetupWrite_winLive (port : Fin 2) (off : Nat) (len : Nat) (data : Nat) (s : State) :
  Res.winLive (execAdminSetupWrite port off len data s) = some s.winLive := by
  simp [execAdminSetupWrite]

@[simp] theorem State.enable_winLive (s : State) (p : Nat) :
  (State.enable s p).winLive = s.winLive := by
  simp [State.enable]

@[simp] theorem execControllerEnable_winLive (port : Fin 2) (s : State) :
  Res.winLive (execControllerEnable port s) = some s.winLive := by
  simp [execControllerEnable]

@[simp] theorem State.disable_winLive (s : State) (p : Nat) :
  (State.disable s p).winLive = s.winLive := by
  simp [State.disable]

@[simp] theorem execControllerDisable_winLive (port : Fin 2) (s : State) :
  Res.winLive (execControllerDisable port s) = some s.winLive := by
  simp [execControllerDisable]

@[simp] theorem State.hctl_winLive (s : State) (p : Nat) (v : Nat) :
  (State.hctl s p v).winLive = s.winLive := by
  simp [State.hctl]

@[simp] theorem State.badDoorbell_winLive (s : State) (p : Nat) (q : Nat) :
  (State.badDoorbell s p q).winLive = s.winLive := by
  simp [State.badDoorbell]

@[simp] theorem State.doorbell_winLive (s : State) (p : Nat) (q : Nat) (head : Bool) (v : Nat) :
  (State.doorbell s p q head v).winLive = s.winLive := by
  unfold State.doorbell
  repeat' split
  all_goals simp

@[simp] theorem State.doorbells_winLive (s : State) (p : Nat) (off : Nat) (len : Nat) (v : Nat) :
  (State.doorbells s p off len v).winLive = s.winLive := by
  simp [State.doorbells]

@[simp] theorem State.putCmd_winLive (s : State) (seq : Nat) (k : Cmd) :
  (State.putCmd s seq k).winLive = s.winLive := by
  simp [State.putCmd]

@[simp] theorem State.take_winLive (s : State) (seq : Nat) (p : Nat) (q : Nat) (sqhd : Nat) (e : Nat) (list : Option (List (Nat × Nat))) :
  (State.take s seq p q sqhd e list).winLive = s.winLive := by
  simp [State.take]

@[simp] theorem execCommandFetch_winLive (port : Fin 2) (entry : Nat) (list : Option (List (Nat × Nat))) (s : State) :
  Res.winLive (execCommandFetch port entry list s) = some s.winLive := by
  unfold execCommandFetch
  dsimp only
  repeat' (first | (simp; done) | intro _ | split | rw [State.when_winLive] | (simp_all; done))

@[simp] theorem execCompletionPost_winLive (seq : Nat) (s : State) :
  Res.winLive (execCompletionPost seq s) = some s.winLive := by
  unfold execCompletionPost
  repeat' split
  all_goals simp

@[simp] theorem State.markPending_winLive (s : State) (nsid : Nat) (lba : Nat) :
  (State.markPending s nsid lba).winLive = s.winLive := by
  simp [State.markPending]

@[simp] theorem State.readBlock_winLive (s : State) (seq : Nat) (nsid : Nat) (lba : Nat) (m : MediaRes) :
  (State.readBlock s seq nsid lba m).2.winLive = s.winLive := by
  unfold State.readBlock
  repeat' split
  all_goals simp

@[simp] theorem State.readBlocks_winLive (s : State) (seq : Nat) (k : Cmd) (send : Bool) (y4 : Nat) (y5 : List MediaRes) :
  (State.readBlocks s seq k send y4 y5).2.winLive = s.winLive := by
  induction y5 generalizing s y4 with
  | nil => rfl
  | cons x xs ih => unfold State.readBlocks; simp only []; repeat' split
                    all_goals simp [ih]

@[simp] theorem State.readCmd_winLive (s : State) (seq : Nat) (k : Cmd) (send : Bool) (media : List MediaRes) :
  (State.readCmd s seq k send media).winLive = s.winLive := by
  unfold State.readCmd
  dsimp only
  repeat' (first | (simp; done) | intro _ | split | (simp_all; done))

@[simp] theorem execRead_winLive (seq : Nat) (media : List MediaRes) (s : State) :
  Res.winLive (execRead seq media s) = some s.winLive := by
  unfold execRead
  repeat' split
  all_goals simp

@[simp] theorem execVerify_winLive (seq : Nat) (media : List MediaRes) (s : State) :
  Res.winLive (execVerify seq media s) = some s.winLive := by
  unfold execVerify
  repeat' split
  all_goals simp

@[simp] theorem State.placeBlock_winLive (s : State) (seq : Nat) (nsid : Nat) (lba : Nat) (mode : Nat) (addr : Nat) (block : Nat) :
  (State.placeBlock s seq nsid lba mode addr block).winLive = s.winLive := by
  simp [State.placeBlock]

@[simp] theorem State.writeBlocks_winLive (s : State) (seq : Nat) (k : Cmd) (hostErr : Option Nat) (y4 : Nat) (y5 : List (Nat × Nat)) :
  (State.writeBlocks s seq k hostErr y4 y5).2.winLive = s.winLive := by
  induction y5 generalizing s y4 with
  | nil => rfl
  | cons x xs ih => unfold State.writeBlocks; simp only []; repeat' split
                    all_goals simp [ih]

@[simp] theorem State.commitBlocks_winLive (s : State) (seq : Nat) :
  (State.commitBlocks s seq).winLive = s.winLive := by
  simp [State.commitBlocks]

@[simp] theorem State.zoneFail_winLive (s : State) (nsid : Nat) (lba : Nat) (c : Nat) :
  (State.zoneFail s nsid lba c).winLive = s.winLive := by
  simp [State.zoneFail]

@[simp] theorem execWrite_winLive (seq : Nat) (blocks : List (Nat × Nat)) (hostErr : Option Nat) (s : State) :
  Res.winLive (execWrite seq blocks hostErr s) = some s.winLive := by
  unfold execWrite
  dsimp only
  repeat' (first | (simp; done) | intro _ | split | (simp_all; done))

@[simp] theorem execWriteAck_winLive (seq : Nat) (s : State) :
  Res.winLive (execWriteAck seq s) = some s.winLive := by
  unfold execWriteAck
  dsimp only
  repeat' (first | (simp; done) | intro _ | split | rw [State.each_winLive] | (simp_all; done))

@[simp] theorem execFlush_winLive (seq : Nat) (s : State) :
  Res.winLive (execFlush seq s) = some s.winLive := by
  unfold execFlush
  repeat' split
  all_goals simp

@[simp] theorem execFlushComplete_winLive (seq : Nat) (s : State) :
  Res.winLive (execFlushComplete seq s) = some s.winLive := by
  unfold execFlushComplete
  repeat' split
  all_goals simp

@[simp] theorem State.unwrite_winLive (s : State) (seq : Nat) (x : Span) :
  (State.unwrite s seq x).winLive = s.winLive := by
  unfold State.unwrite
  simp
  repeat' (first | (simp; done) | intro _ | split | rw [State.each_winLive] | (simp_all; done))

@[simp] theorem execZoneReset_winLive (seq : Nat) (s : State) :
  Res.winLive (execZoneReset seq s) = some s.winLive := by
  unfold execZoneReset
  repeat' split
  all_goals simp

@[simp] theorem execZoneFinish_winLive (seq : Nat) (s : State) :
  Res.winLive (execZoneFinish seq s) = some s.winLive := by
  unfold execZoneFinish
  repeat' split
  all_goals simp

@[simp] theorem execZoneReport_winLive (seq : Nat) (s : State) :
  Res.winLive (execZoneReport seq s) = some s.winLive := by
  unfold execZoneReport
  repeat' split
  all_goals simp

@[simp] theorem execCreateQp_winLive (seq : Nat) (s : State) :
  Res.winLive (execCreateQp seq s) = some s.winLive := by
  unfold execCreateQp
  repeat' split
  all_goals simp

@[simp] theorem execDeleteQp_winLive (seq : Nat) (s : State) :
  Res.winLive (execDeleteQp seq s) = some s.winLive := by
  unfold execDeleteQp
  repeat' split
  all_goals simp

@[simp] theorem execAbort_winLive (seq : Nat) (s : State) :
  Res.winLive (execAbort seq s) = some s.winLive := by
  unfold execAbort
  dsimp only
  repeat' (first | (simp; done) | intro _ | split | (simp_all; done))

@[simp] theorem execEventWait_winLive (seq : Nat) (s : State) :
  Res.winLive (execEventWait seq s) = some s.winLive := by
  unfold execEventWait
  repeat' split
  all_goals simp

@[simp] theorem State.reply_winLive (s : State) (seq : Nat) (k : Cmd) (n : Nat) (data : Nat) :
  (State.reply s seq k n data).winLive = s.winLive := by
  simp [State.reply]

@[simp] theorem execIdentifyController_winLive (seq : Nat) (s : State) :
  Res.winLive (execIdentifyController seq s) = some s.winLive := by
  unfold execIdentifyController
  repeat' split
  all_goals simp

@[simp] theorem execIdentifyNamespace_winLive (seq : Nat) (s : State) :
  Res.winLive (execIdentifyNamespace seq s) = some s.winLive := by
  unfold execIdentifyNamespace
  repeat' split
  all_goals simp

@[simp] theorem State.getLog_winLive (s : State) (seq : Nat) (lid : Nat) (clear : State → Cmd → State) (h0 : ∀ s0 x1, (clear s0 x1).winLive = s0.winLive) :
  (State.getLog s seq lid clear).winLive = s.winLive := by
  unfold State.getLog
  dsimp only
  repeat' (first | (simp; done) | intro _ | split | rw [State.when_winLive] | rw [State.getLog_winLive] | (simp_all; done))

@[simp] theorem execGetLogHealth_winLive (seq : Nat) (s : State) :
  Res.winLive (execGetLogHealth seq s) = some s.winLive := by
  simp [execGetLogHealth]

@[simp] theorem execGetLogFwSlots_winLive (seq : Nat) (s : State) :
  Res.winLive (execGetLogFwSlots seq s) = some s.winLive := by
  simp [execGetLogFwSlots]

@[simp] theorem State.clearDel_winLive (s : State) (k : Cmd) :
  (State.clearDel s k).winLive = s.winLive := by
  simp [State.clearDel]

@[simp] theorem execGetLogDeferredErrors_winLive (seq : Nat) (s : State) :
  Res.winLive (execGetLogDeferredErrors seq s) = some s.winLive := by
  simp [execGetLogDeferredErrors]

@[simp] theorem State.clearEvents_winLive (s : State) (k : Cmd) :
  (State.clearEvents s k).winLive = s.winLive := by
  unfold State.clearEvents
  repeat' split
  all_goals simp

@[simp] theorem execGetLogEventRecords_winLive (seq : Nat) (s : State) :
  Res.winLive (execGetLogEventRecords seq s) = some s.winLive := by
  simp [execGetLogEventRecords]

@[simp] theorem execSetFeature_winLive (seq : Nat) (s : State) :
  Res.winLive (execSetFeature seq s) = some s.winLive := by
  unfold execSetFeature
  repeat' split
  all_goals simp

@[simp] theorem execGetFeature_winLive (seq : Nat) (s : State) :
  Res.winLive (execGetFeature seq s) = some s.winLive := by
  unfold execGetFeature
  repeat' split
  all_goals simp

@[simp] theorem State.modAdm_winLive (s : State) (g : Admin → Admin) :
  (State.modAdm s g).winLive = s.winLive := by
  simp [State.modAdm]

@[simp] theorem State.modBoot_winLive (s : State) (g : BootRec → BootRec) :
  (State.modBoot s g).winLive = s.winLive := by
  simp [State.modBoot]

@[simp] theorem execFwDownload_winLive (seq : Nat) (units : Option (List Nat)) (s : State) :
  Res.winLive (execFwDownload seq units s) = some s.winLive := by
  unfold execFwDownload
  repeat' split
  all_goals simp

@[simp] theorem State.fwCommit_winLive (s : State) (seq : Nat) (a : Nat) (sigs : PkgCheck) :
  (State.fwCommit s seq a sigs).winLive = s.winLive := by
  unfold State.fwCommit
  repeat' split
  all_goals simp

@[simp] theorem execFwCommitCancel_winLive (seq : Nat) (s : State) :
  Res.winLive (execFwCommitCancel seq s) = some s.winLive := by
  unfold execFwCommitCancel
  repeat' split
  all_goals simp

@[simp] theorem execFwCommitPending_winLive (seq : Nat) (sigs : PkgCheck) (s : State) :
  Res.winLive (execFwCommitPending seq sigs s) = some s.winLive := by
  simp [execFwCommitPending]

@[simp] theorem execFwCommitReset_winLive (seq : Nat) (sigs : PkgCheck) (s : State) :
  Res.winLive (execFwCommitReset seq sigs s) = some s.winLive := by
  simp [execFwCommitReset]

@[simp] theorem execTrialTimeout_winLive (s : State) :
  Res.winLive (execTrialTimeout s) = some s.winLive := by
  simp [execTrialTimeout]

@[simp] theorem State.secBoot_winLive (s : State) (v : Nat) :
  (State.secBoot s v).winLive = s.winLive := by
  simp [State.secBoot]

@[simp] theorem execBootConfirm_winLive (value : Word) (s : State) :
  Res.winLive (execBootConfirm value s) = some s.winLive := by
  simp [execBootConfirm]

@[simp] theorem execTempWarn_winLive (tj : Nat) (s : State) :
  Res.winLive (execTempWarn tj s) = some s.winLive := by
  simp [execTempWarn]

@[simp] theorem execTempWarnRearm_winLive (tj : Nat) (s : State) :
  Res.winLive (execTempWarnRearm tj s) = some s.winLive := by
  simp [execTempWarnRearm]

@[simp] theorem execSmbusStatusRead_winLive (s : State) :
  Res.winLive (execSmbusStatusRead s) = some s.winLive := by
  simp [execSmbusStatusRead]

@[simp] theorem execSmbusAddressWrite_winLive (addr : Word) (pecOk : Bool) (s : State) :
  Res.winLive (execSmbusAddressWrite addr pecOk s) = some s.winLive := by
  simp [execSmbusAddressWrite]

@[simp] theorem execSmbusBusTimeout_winLive (s : State) :
  Res.winLive (execSmbusBusTimeout s) = some s.winLive := by
  simp [execSmbusBusTimeout]

@[simp] theorem State.modSec_winLive (s : State) (g : Sec → Sec) :
  (State.modSec s g).winLive = s.winLive := by
  simp [State.modSec]

@[simp] theorem State.generated_winLive (s : State) :
  (State.generated s).winLive = s.winLive := by
  simp [State.generated]

@[simp] theorem execRngTestFail_winLive (s : State) :
  Res.winLive (execRngTestFail s) = some s.winLive := by
  simp [execRngTestFail]

@[simp] theorem execDrbgReseed_winLive (s : State) :
  Res.winLive (execDrbgReseed s) = some s.winLive := by
  simp [execDrbgReseed]

@[simp] theorem State.extend_winLive (s : State) (i : Nat) (len : Nat) (v : Nat) :
  (State.extend s i len v).winLive = s.winLive := by
  simp [State.extend]

@[simp] theorem State.extendM3_winLive (s : State) :
  (State.extendM3 s).winLive = s.winLive := by
  simp [State.extendM3]

@[simp] theorem State.secEnd_winLive (s : State) (seq : Nat) (sc : Nat) (reason : Nat) (len : Nat) (data : Nat) :
  (State.secEnd s seq sc reason len data).winLive = s.winLive := by
  simp [State.secEnd]

@[simp] theorem State.secRefuse_winLive (s : State) (seq : Nat) (r : Nat) :
  (State.secRefuse s seq r).winLive = s.winLive := by
  simp [State.secRefuse]

@[simp] theorem State.secReply_winLive (s : State) (seq : Nat) (k : Cmd) (n : Nat) (data : Nat) :
  (State.secReply s seq k n data).winLive = s.winLive := by
  simp [State.secReply]

@[simp] theorem State.secInfo_winLive (s : State) (seq : Nat) (i : Nat) (size : Nat) (data : Nat) :
  (State.secInfo s seq i size data).winLive = s.winLive := by
  unfold State.secInfo
  repeat' split
  all_goals simp

@[simp] theorem execSecInfoDeviceNonce_winLive (seq : Nat) (s : State) :
  Res.winLive (execSecInfoDeviceNonce seq s) = some s.winLive := by
  simp [execSecInfoDeviceNonce]

@[simp] theorem execSecInfoEnvelopeKeys_winLive (seq : Nat) (s : State) :
  Res.winLive (execSecInfoEnvelopeKeys seq s) = some s.winLive := by
  simp [execSecInfoEnvelopeKeys]

@[simp] theorem execSecInfoCertChains_winLive (seq : Nat) (s : State) :
  Res.winLive (execSecInfoCertChains seq s) = some s.winLive := by
  simp [execSecInfoCertChains]

@[simp] theorem execSecInfoRangeTable_winLive (seq : Nat) (s : State) :
  Res.winLive (execSecInfoRangeTable seq s) = some s.winLive := by
  simp [execSecInfoRangeTable]

@[simp] theorem execSecInfoDebugNonce_winLive (seq : Nat) (s : State) :
  Res.winLive (execSecInfoDebugNonce seq s) = some s.winLive := by
  simp [execSecInfoDebugNonce]

@[simp] theorem execAttest_winLive (seq : Nat) (s : State) :
  Res.winLive (execAttest seq s) = some s.winLive := by
  unfold execAttest
  repeat' split
  all_goals simp

@[simp] theorem execGetRandom_winLive (seq : Nat) (s : State) :
  Res.winLive (execGetRandom seq s) = some s.winLive := by
  unfold execGetRandom
  repeat' split
  all_goals simp

@[simp] theorem State.envCount_winLive (s : State) (c : Nat) :
  (State.envCount s c).winLive = s.winLive := by
  simp [State.envCount]

@[simp] theorem State.newNonce_winLive (s : State) :
  (State.newNonce s).winLive = s.winLive := by
  simp [State.newNonce]

@[simp] theorem State.withEnvelope_winLive (s : State) (seq : Nat) (opc : Nat) (op : Nat) (env : Option EnvRes) (ready : State → Cmd → Bool) (act : State → Cmd → EnvRes → Nat × State) (h0 : ∀ s0 x1 x2, (act s0 x1 x2).2.winLive = s0.winLive) :
  (State.withEnvelope s seq opc op env ready act).winLive = s.winLive := by
  unfold State.withEnvelope
  dsimp only
  repeat' (first | (simp; done) | intro _ | split | rw [State.withEnvelope_winLive] | (simp_all; done))

@[simp] theorem State.eraseData_winLive (s : State) (p : Nat → Nat → Bool) :
  (State.eraseData s p).winLive = s.winLive := by
  simp [State.eraseData]

@[simp] theorem State.rekey_winLive (s : State) (r : Nat) :
  (State.rekey s r).winLive = s.winLive := by
  simp [State.rekey]

@[simp] theorem State.eraseAll_winLive (s : State) :
  (State.eraseAll s).winLive = s.winLive := by
  simp [State.eraseAll]

@[simp] theorem State.owner_winLive (s : State) (seq : Nat) (op : Nat) (env : Option EnvRes) (act : State → Cmd → EnvRes → Nat × State) (h0 : ∀ s0 x1 x2, (act s0 x1 x2).2.winLive = s0.winLive) :
  (State.owner s seq op env act).winLive = s.winLive := by
  unfold State.owner
  rw [State.withEnvelope_winLive]; exact h0

@[simp] theorem whenOwned_winLive (g : State → Cmd → EnvRes → Nat × State) (s : State) (k : Cmd) (e : EnvRes) (h0 : ∀ s0 x1 x2, (g s0 x1 x2).2.winLive = s0.winLive) :
  (whenOwned g s k e).2.winLive = s.winLive := by
  unfold whenOwned
  simp
  repeat' (first | (simp; done) | intro _ | split | rw [State.when_winLive] | rw [whenOwned_winLive] | (simp_all; done))

@[simp] theorem State.setCred_winLive (s : State) (c : Nat) :
  (State.setCred s c).winLive = s.winLive := by
  simp [State.setCred]

@[simp] theorem execSecOwnerTake_winLive (seq : Nat) (env : Option EnvRes) (s : State) :
  Res.winLive (execSecOwnerTake seq env s) = some s.winLive := by
  simp [execSecOwnerTake]

@[simp] theorem execSecOwnerChange_winLive (seq : Nat) (env : Option EnvRes) (s : State) :
  Res.winLive (execSecOwnerChange seq env s) = some s.winLive := by
  simp [execSecOwnerChange]

@[simp] theorem State.putLock_winLive (s : State) (b : Bool) :
  (State.putLock s b).winLive = s.winLive := by
  simp [State.putLock]

@[simp] theorem execSecOwnerSetLock_winLive (seq : Nat) (env : Option EnvRes) (s : State) :
  Res.winLive (execSecOwnerSetLock seq env s) = some s.winLive := by
  simp [execSecOwnerSetLock]

@[simp] theorem execSecOwnerClearLock_winLive (seq : Nat) (env : Option EnvRes) (s : State) :
  Res.winLive (execSecOwnerClearLock seq env s) = some s.winLive := by
  simp [execSecOwnerClearLock]

@[simp] theorem State.disown_winLive (s : State) :
  (State.disown s).winLive = s.winLive := by
  simp [State.disown]

@[simp] theorem execSecOwnerRevert_winLive (seq : Nat) (env : Option EnvRes) (s : State) :
  Res.winLive (execSecOwnerRevert seq env s) = some s.winLive := by
  simp [execSecOwnerRevert]

@[simp] theorem execSecOwnerRaiseSvn_winLive (seq : Nat) (env : Option EnvRes) (s : State) :
  Res.winLive (execSecOwnerRaiseSvn seq env s) = some s.winLive := by
  simp [execSecOwnerRaiseSvn]

@[simp] theorem execSecOwnerSetRoster_winLive (seq : Nat) (env : Option EnvRes) (roster : List Nat) (s : State) :
  Res.winLive (execSecOwnerSetRoster seq env roster s) = some s.winLive := by
  simp [execSecOwnerSetRoster]

@[simp] theorem State.rangeCmd_winLive (s : State) (seq : Nat) (op : Nat) (env : Option EnvRes) (hits : State → Nat → Span → Bool) (act : State → Nat → Nat × State) (h0 : ∀ s0 x1, (act s0 x1).2.winLive = s0.winLive) :
  (State.rangeCmd s seq op env hits act).winLive = s.winLive := by
  unfold State.rangeCmd
  rw [State.withEnvelope_winLive]
  intros; rw [whenOwned_winLive]; intros; exact h0 _ _

@[simp] theorem execSecRangeDefine_winLive (seq : Nat) (env : Option EnvRes) (s : State) :
  Res.winLive (execSecRangeDefine seq env s) = some s.winLive := by
  simp [execSecRangeDefine]

@[simp] theorem execSecRangeDelete_winLive (seq : Nat) (env : Option EnvRes) (s : State) :
  Res.winLive (execSecRangeDelete seq env s) = some s.winLive := by
  simp [execSecRangeDelete]

@[simp] theorem execSecRangeLock_winLive (seq : Nat) (env : Option EnvRes) (s : State) :
  Res.winLive (execSecRangeLock seq env s) = some s.winLive := by
  simp [execSecRangeLock]

@[simp] theorem execSecRangeUnlock_winLive (seq : Nat) (env : Option EnvRes) (s : State) :
  Res.winLive (execSecRangeUnlock seq env s) = some s.winLive := by
  simp [execSecRangeUnlock]

@[simp] theorem execSecRangeErase_winLive (seq : Nat) (env : Option EnvRes) (s : State) :
  Res.winLive (execSecRangeErase seq env s) = some s.winLive := by
  simp [execSecRangeErase]

@[simp] theorem execMkDiscard_winLive (range : Fin 64) (s : State) :
  Res.winLive (execMkDiscard range s) = some s.winLive := by
  unfold execMkDiscard
  dsimp only
  repeat' (first | (simp; done) | intro _ | split | (simp_all; done))

@[simp] theorem State.newDbgNonce_winLive (s : State) :
  (State.newDbgNonce s).winLive = s.winLive := by
  simp [State.newDbgNonce]

@[simp] theorem State.lockAll_winLive (s : State) :
  (State.lockAll s).winLive = s.winLive := by
  simp [State.lockAll]

@[simp] theorem State.token_winLive (s : State) (t : Nat) (g : TokCheck) (seq : Option Nat) :
  (State.token s t g seq).2.winLive = s.winLive := by
  simp [State.token]

@[simp] theorem execSecDebug_winLive (seq : Nat) (token : Option Nat) (sigs : TokCheck) (s : State) :
  Res.winLive (execSecDebug seq token sigs s) = some s.winLive := by
  unfold execSecDebug
  repeat' split
  all_goals simp

@[simp] theorem execDbgTokenDataWrite_winLive (value : Word) (s : State) :
  Res.winLive (execDbgTokenDataWrite value s) = some s.winLive := by
  simp [execDbgTokenDataWrite]

@[simp] theorem execDbgTokenGo_winLive (sigs : TokCheck) (s : State) :
  Res.winLive (execDbgTokenGo sigs s) = some s.winLive := by
  simp [execDbgTokenGo]

@[simp] theorem execSecRequest_winLive (s : State) :
  Res.winLive (execSecRequest s) = some s.winLive := by
  simp [execSecRequest]

@[simp] theorem State.modRing_winLive (s : State) (g : Ring → Ring) :
  (State.modRing s g).winLive = s.winLive := by
  simp [State.modRing]

@[simp] theorem State.ringEvt_winLive (s : State) (F : Field) :
  (State.ringEvt s F).winLive = s.winLive := by
  simp [State.ringEvt]

@[simp] theorem State.putRole_winLive (s : State) (r : Nat) :
  (State.putRole s r).winLive = s.winLive := by
  simp [State.putRole]

@[simp] theorem State.modRport_winLive (s : State) (p : Nat) (g : RPort → RPort) :
  (State.modRport s p g).winLive = s.winLive := by
  simp [State.modRport]

@[simp] theorem State.pump_winLive (s : State) (p : Nat) (y2 : Nat) :
  (State.pump s p y2).winLive = s.winLive := by
  induction y2 generalizing s with
  | zero => rfl
  | succ n ih => unfold State.pump; simp only []; repeat' split
                 all_goals simp [ih]
                 all_goals (split <;> simp)

@[simp] theorem State.drain_winLive (s : State) (p : Nat) :
  (State.drain s p).winLive = s.winLive := by
  simp [State.drain]

@[simp] theorem State.queueOn_winLive (s : State) (p : Nat) (cls : Nat) (flits : Nat) (o : Out) :
  (State.queueOn s p cls flits o).winLive = s.winLive := by
  simp [State.queueOn]

@[simp] theorem State.tell_winLive (s : State) (type : Nat) (dst : Nat) (cls : Nat) (number : Nat) (waddr : Nat) (len : Nat) (payload : Nat) :
  (State.tell s type dst cls number waddr len payload).winLive = s.winLive := by
  simp [State.tell]

@[simp] theorem State.tellAll_winLive (s : State) (type : Nat) (len : Nat) (payload : Nat) :
  (State.tellAll s type len payload).winLive = s.winLive := by
  simp [State.tellAll]

@[simp] theorem State.frameFail_winLive (s : State) (number : Nat) (r : RReq) :
  (State.frameFail s number r).winLive = s.winLive := by
  simp [State.frameFail]

@[simp] theorem State.agree_winLive (s : State) (peer : Nat) :
  (State.agree s peer).winLive = s.winLive := by
  simp [State.agree]

@[simp] theorem State.useKey_winLive (s : State) (dst : Nat) (n : Nat) :
  (State.useKey s dst n).winLive = s.winLive := by
  unfold State.useKey
  repeat' split
  all_goals simp

@[simp] theorem State.frameOut_winLive (s : State) (number : Nat) (f : RFrame) :
  (State.frameOut s number f).winLive = s.winLive := by
  simp [State.frameOut]

@[simp] theorem State.ringSend_winLive (s : State) (type : Nat) (dst : Nat) (cls : Nat) (waddr : Nat) (flen : Nat) (payload : Nat) (req : RReq) :
  (State.ringSend s type dst cls waddr flen payload req).winLive = s.winLive := by
  simp [State.ringSend]

@[simp] theorem State.reply1_winLive (s : State) (type : Nat) (dst : Nat) (number : Nat) (waddr : Nat) (len : Nat) (payload : Nat) :
  (State.reply1 s type dst number waddr len payload).winLive = s.winLive := by
  simp [State.reply1]

@[simp] theorem State.ringBypass_winLive (s : State) :
  (State.ringBypass s).winLive = s.winLive := by
  simp [State.ringBypass]

@[simp] theorem State.splice_winLive (s : State) :
  (State.splice s).winLive = s.winLive := by
  simp [State.splice]

@[simp] theorem State.ringCtl_winLive (s : State) (v : Nat) :
  (State.ringCtl s v).winLive = s.winLive := by
  simp [State.ringCtl]

@[simp] theorem execRingLeave_winLive (s : State) :
  Res.winLive (execRingLeave s) = some s.winLive := by
  simp [execRingLeave]

@[simp] theorem execLeaveTimeout_winLive (s : State) :
  Res.winLive (execLeaveTimeout s) = some s.winLive := by
  simp [execLeaveTimeout]

@[simp] theorem execSelfFence_winLive (s : State) :
  Res.winLive (execSelfFence s) = some s.winLive := by
  simp [execSelfFence]

@[simp] theorem execRingFence_winLive (src : Fin 32) (s : State) :
  Res.winLive (execRingFence src s) = some s.winLive := by
  simp [execRingFence]

@[simp] theorem execSegmentSignalLoss_winLive (east : Bool) (s : State) :
  Res.winLive (execSegmentSignalLoss east s) = some s.winLive := by
  simp [execSegmentSignalLoss]

@[simp] theorem execSegmentRetrainTimeout_winLive (east : Bool) (s : State) :
  Res.winLive (execSegmentRetrainTimeout east s) = some s.winLive := by
  simp [execSegmentRetrainTimeout]

@[simp] theorem State.sendJoin_winLive (s : State) :
  (State.sendJoin s).winLive = s.winLive := by
  unfold State.sendJoin
  repeat' split
  all_goals simp

@[simp] theorem execSegmentTrained_winLive (east : Bool) (bypassed : Nat) (s : State) :
  Res.winLive (execSegmentTrained east bypassed s) = some s.winLive := by
  simp [execSegmentTrained]

@[simp] theorem execSpliceTimeout_winLive (s : State) :
  Res.winLive (execSpliceTimeout s) = some s.winLive := by
  simp [execSpliceTimeout]

@[simp] theorem execSpliceRetry_winLive (s : State) :
  Res.winLive (execSpliceRetry s) = some s.winLive := by
  simp [execSpliceRetry]

@[simp] theorem State.takeFlit_winLive (s : State) (tag : Nat) (f : Nat) :
  (State.takeFlit s tag f).winLive = s.winLive := by
  unfold State.takeFlit
  repeat' split
  all_goals simp

@[simp] theorem State.freeSlot_winLive (s : State) (p : Nat) :
  (State.freeSlot s p).winLive = s.winLive := by
  simp [State.freeSlot]

@[simp] theorem State.forward_winLive (s : State) (p : Nat) (f : Nat) :
  (State.forward s p f).winLive = s.winLive := by
  simp [State.forward]

@[simp] theorem execFlitReceive_winLive (east : Bool) (fec : Fin 3) (tag : Fin 3) (flit : Nat) (s : State) :
  Res.winLive (execFlitReceive east fec tag flit s) = some s.winLive := by
  simp [execFlitReceive]

@[simp] theorem execLinkFlit_winLive (east : Bool) (credits : Nat) (member : Fin 32) (is2208 : Bool) (s : State) :
  Res.winLive (execLinkFlit east credits member is2208 s) = some s.winLive := by
  simp [execLinkFlit]

@[simp] theorem execCreditReturn_winLive (east : Bool) (s : State) :
  Res.winLive (execCreditReturn east s) = some s.winLive := by
  simp [execCreditReturn]

@[simp] theorem execRingSession_winLive (peer : Fin 32) (chainsOk : Bool) (idk : Nat) (s : State) :
  Res.winLive (execRingSession peer chainsOk idk s) = some s.winLive := by
  simp [execRingSession]

@[simp] theorem execSessionRekey_winLive (peer : Fin 32) (hours : Nat) (s : State) :
  Res.winLive (execSessionRekey peer hours s) = some s.winLive := by
  unfold execSessionRekey
  repeat' split
  all_goals simp

@[simp] theorem execOldKeyExpiry_winLive (peer : Fin 32) (s : State) :
  Res.winLive (execOldKeyExpiry peer s) = some s.winLive := by
  unfold execOldKeyExpiry
  repeat' split
  all_goals simp

@[simp] theorem execKeyLimitStop_winLive (peer : Fin 32) (hours : Nat) (s : State) :
  Res.winLive (execKeyLimitStop peer hours s) = some s.winLive := by
  unfold execKeyLimitStop
  repeat' split
  all_goals simp

@[simp] theorem execDebugPortOpen_winLive (s : State) :
  Res.winLive (execDebugPortOpen s) = some s.winLive := by
  unfold execDebugPortOpen
  repeat' split
  all_goals simp

@[simp] theorem State.writeUntil_winLive (s : State) (a : Nat) (n : Nat) (v : Nat) (y4 : List Nat) :
  (State.writeUntil s a n v y4).2.winLive = s.winLive := by
  induction y4 generalizing s with
  | nil => rfl
  | cons x xs ih => unfold State.writeUntil; simp only []; split <;> simp [ih]

@[simp] theorem State.ringWrite_winLive (s : State) (a : Nat) (n : Nat) (v : Nat) :
  (State.ringWrite s a n v).2.winLive = s.winLive := by
  simp [State.ringWrite]

@[simp] theorem State.writeParts_winLive (s : State) (a : Nat) (y2 : List RingPart) :
  (State.writeParts s a y2).2.winLive = s.winLive := by
  induction y2 generalizing s with
  | nil => rfl
  | cons x xs ih => unfold State.writeParts; simp only []; split <;> simp [ih]

@[simp] theorem State.nack_winLive (s : State) (dst : Nat) (number : Nat) (code : Nat) :
  (State.nack s dst number code).winLive = s.winLive := by
  simp [State.nack]

@[simp] theorem State.handRequest_winLive (s : State) (a : Nat) (n : Nat) :
  (State.handRequest s a n).winLive = s.winLive := by
  simp [State.handRequest]

@[simp] theorem execRingWrite_winLive (east : Bool) (src : Fin 32) (number : Nat) (waddr : Nat) (flen : Nat) (parts : List RingPart) (s : State) :
  Res.winLive (execRingWrite east src number waddr flen parts s) = some s.winLive := by
  unfold execRingWrite
  repeat' split
  all_goals simp

@[simp] theorem execRingReadReq_winLive (east : Bool) (src : Fin 32) (number : Nat) (waddr : Nat) (flen : Nat) (s : State) :
  Res.winLive (execRingReadReq east src number waddr flen s) = some s.winLive := by
  unfold execRingReadReq
  dsimp only
  repeat' (first | (simp; done) | intro _ | split | (simp_all; done))

@[simp] theorem execRingReadResp_winLive (src : Fin 32) (number : Nat) (data : Nat) (s : State) :
  Res.winLive (execRingReadResp src number data s) = some s.winLive := by
  unfold execRingReadResp
  repeat' split
  all_goals simp

@[simp] theorem State.retryOrFail_winLive (s : State) (number : Nat) (f : RFrame) (timeout : Bool) :
  (State.retryOrFail s number f timeout).winLive = s.winLive := by
  simp [State.retryOrFail]

@[simp] theorem State.putJnl_winLive (s : State) (i : Nat) (v : Nat) :
  (State.putJnl s i v).winLive = s.winLive := by
  simp [State.putJnl]

@[simp] theorem State.putReq_winLive (s : State) (id : Nat) (r : StripReq) :
  (State.putReq s id r).winLive = s.winLive := by
  simp [State.putReq]

@[simp] theorem State.sendCell_winLive (s : State) (id : Nat) (r : StripReq) (p : Nat × Nat) :
  (State.sendCell s id r p).winLive = s.winLive := by
  simp [State.sendCell]

@[simp] theorem State.startReq_winLive (s : State) (id : Nat) (r : StripReq) :
  (State.startReq s id r).winLive = s.winLive := by
  unfold State.startReq
  repeat' split
  all_goals simp

@[simp] theorem State.startWaiting_winLive (s : State) :
  (State.startWaiting s).winLive = s.winLive := by
  simp [State.startWaiting]

@[simp] theorem State.newReq_winLive (s : State) (r : StripReq) :
  (State.newReq s r).2.winLive = s.winLive := by
  simp [State.newReq]

@[simp] theorem State.reqRun_winLive (s : State) (r : StripReq) :
  (State.reqRun s r).2.winLive = s.winLive := by
  simp [State.reqRun]

@[simp] theorem State.enterLost_winLive (s : State) (slot : Nat) (chord : Nat) (b : Nat) (strip : Nat) :
  (State.enterLost s slot chord b strip).winLive = s.winLive := by
  simp [State.enterLost]

@[simp] theorem State.clearLost_winLive (s : State) (slot : Nat) (chord : Nat) (b : Nat) (strip : Nat) :
  (State.clearLost s slot chord b strip).winLive = s.winLive := by
  simp [State.clearLost]

@[simp] theorem State.putOp_winLive (s : State) (jid : Nat) (o : ChordOp) :
  (State.putOp s jid o).winLive = s.winLive := by
  simp [State.putOp]

@[simp] theorem State.await_winLive (s : State) (jid : Nat) (ids : List Nat) :
  (State.await s jid ids).winLive = s.winLive := by
  unfold State.await
  repeat' split
  all_goals simp

@[simp] theorem State.askRun_winLive (s : State) (jid : Nat) (o : ChordOp) (holder : Nat) (op : Nat) (strip : Nat) (coef' : Nat) (blocks : List Nat) :
  (State.askRun s jid o holder op strip coef' blocks).winLive = s.winLive := by
  simp [State.askRun]

@[simp] theorem State.sendDeltas_winLive (s : State) (jid : Nat) (o : ChordOp) (l : Layout) :
  (State.sendDeltas s jid o l).winLive = s.winLive := by
  simp [State.sendDeltas]

@[simp] theorem State.mendParity_winLive (s : State) (jid : Nat) (o : ChordOp) (l : Layout) :
  (State.mendParity s jid o l).winLive = s.winLive := by
  simp [State.mendParity]

@[simp] theorem State.closeOp_winLive (s : State) (jid : Nat) (o : ChordOp) :
  (State.closeOp s jid o).winLive = s.winLive := by
  unfold State.closeOp
  dsimp only
  repeat' (first | (simp; done) | intro _ | split | rw [State.each_winLive] | (simp_all; done))

@[simp] theorem State.chordPhase_winLive (s : State) (jid : Nat) (o : ChordOp) (l : Layout) (p : Nat) :
  (State.chordPhase s jid o l p).winLive = s.winLive := by
  unfold State.chordPhase
  dsimp only
  repeat' (first | (simp; done) | intro _ | split | rw [State.each_winLive] | (simp_all; done))

@[simp] theorem State.runChord_winLive (s : State) (jid : Nat) (y2 : Nat) :
  (State.runChord s jid y2).winLive = s.winLive := by
  fun_induction State.runChord <;> simp_all

@[simp] theorem State.stripAnswer_winLive (s : State) (id : Nat) (r : StripReq) (status : Nat) (mask : Nat) (blocks : List Nat) :
  (State.stripAnswer s id r status mask blocks).winLive = s.winLive := by
  unfold State.stripAnswer
  dsimp only
  repeat' (first | (simp; done) | intro _ | split | (simp_all; done))

@[simp] theorem State.stripFail_winLive (s : State) (id : Nat) :
  (State.stripFail s id).winLive = s.winLive := by
  unfold State.stripFail
  repeat' split
  all_goals simp

@[simp] theorem State.settleLoop_winLive (s : State) (y1 : Nat) :
  (State.settleLoop s y1).winLive = s.winLive := by
  fun_induction State.settleLoop <;> simp_all

@[simp] theorem State.settleStrips_winLive (s : State) :
  (State.settleStrips s).winLive = s.winLive := by
  simp [State.settleStrips]

@[simp] theorem State.framesDone_winLive (s : State) (id : Nat) :
  (State.framesDone s id).winLive = s.winLive := by
  unfold State.framesDone
  repeat' split
  all_goals simp

@[simp] theorem execRingAck_winLive (src : Fin 32) (number : Nat) (s : State) :
  Res.winLive (execRingAck src number s) = some s.winLive := by
  unfold execRingAck
  repeat' split
  all_goals simp

@[simp] theorem execRingNack_winLive (src : Fin 32) (number : Nat) (code : Nat) (s : State) :
  Res.winLive (execRingNack src number code s) = some s.winLive := by
  unfold execRingNack
  repeat' split
  all_goals simp

@[simp] theorem execFrameTimeout_winLive (number : Nat) (s : State) :
  Res.winLive (execFrameTimeout number s) = some s.winLive := by
  unfold execFrameTimeout
  repeat' split
  all_goals simp

@[simp] theorem execFrameRetry_winLive (number : Nat) (s : State) :
  Res.winLive (execFrameRetry number s) = some s.winLive := by
  unfold execFrameRetry
  repeat' split
  all_goals simp

@[simp] theorem State.openOp_winLive (s : State) (slot : Nat) (owner : Nat) (chord : Nat) (strip : Nat) (first : Nat) (blocks : List Nat) (addrs : List Nat) :
  (State.openOp s slot owner chord strip first blocks addrs).winLive = s.winLive := by
  simp [State.openOp]

@[simp] theorem execChordWrite_winLive (addrs : List Nat) (s : State) :
  Res.winLive (execChordWrite addrs s) = some s.winLive := by
  unfold execChordWrite
  simp
  repeat' (first | (simp; done) | intro _ | split | rw [State.settleStrips_winLive] | rw [State.each_winLive] | rw [State.foldl_winLive] | rw [State.foldlp_winLive] | (simp_all; done))

@[simp] theorem State.putStrip_winLive (s : State) (lba : Nat) (v : Nat) :
  (State.putStrip s lba v).winLive = s.winLive := by
  simp [State.putStrip]

@[simp] theorem State.stripDo_winLive (s : State) (op : Nat) (slot : Nat) (chord : Nat) (first : Nat) (count : Nat) (jid : Nat) (c : Nat) (fail : Nat) (data : List (Option Nat)) :
  (State.stripDo s op slot chord first count jid c fail data).2.2.winLive = s.winLive := by
  unfold State.stripDo
  repeat' split
  all_goals simp

@[simp] theorem State.takeRequest_winLive (s : State) (src : Nat) (cell : Nat) (op : Nat) :
  (State.takeRequest s src cell op).2.winLive = s.winLive := by
  unfold State.takeRequest
  dsimp only
  repeat' (first | (simp; done) | intro _ | split | (simp_all; done))

@[simp] theorem State.stagedBlocks_winLive (s : State) (m : Nat) (first : Nat) (n : Nat) :
  (State.stagedBlocks s m first n).2.winLive = s.winLive := by
  simp [State.stagedBlocks]

@[simp] theorem State.sendDone_winLive (s : State) (src : Nat) (e : Nat) (status : Nat) (mask : Nat) (blocks : List Nat) :
  (State.sendDone s src e status mask blocks).winLive = s.winLive := by
  simp [State.sendDone]

@[simp] theorem State.stripTarget_winLive (s : State) (src : Nat) (cell : Nat) (op : Nat) (fail : Nat) :
  (State.stripTarget s src cell op fail).winLive = s.winLive := by
  unfold State.stripTarget
  dsimp only
  repeat' (first | (simp; done) | intro _ | split | (simp_all; done))

@[simp] theorem execStripDataWrite_winLive (src : Fin 32) (cell : Fin 64) (fail : Nat) (s : State) :
  Res.winLive (execStripDataWrite src cell fail s) = some s.winLive := by
  simp [execStripDataWrite]

@[simp] theorem execStripParityDelta_winLive (src : Fin 32) (cell : Fin 64) (fail : Nat) (s : State) :
  Res.winLive (execStripParityDelta src cell fail s) = some s.winLive := by
  simp [execStripParityDelta]

@[simp] theorem execStripRead_winLive (src : Fin 32) (cell : Fin 64) (fail : Nat) (s : State) :
  Res.winLive (execStripRead src cell fail s) = some s.winLive := by
  simp [execStripRead]

@[simp] theorem execStripParityWrite_winLive (src : Fin 32) (cell : Fin 64) (fail : Nat) (s : State) :
  Res.winLive (execStripParityWrite src cell fail s) = some s.winLive := by
  simp [execStripParityWrite]

@[simp] theorem execStripLost_winLive (src : Fin 32) (cell : Fin 64) (s : State) :
  Res.winLive (execStripLost src cell s) = some s.winLive := by
  unfold execStripLost
  dsimp only
  repeat' (first | (simp; done) | intro _ | split | rw [State.settleStrips_winLive] | rw [State.each_winLive] | (simp_all; done))

@[simp] theorem execStripJournal_winLive (src : Fin 32) (cell : Fin 64) (s : State) :
  Res.winLive (execStripJournal src cell s) = some s.winLive := by
  unfold execStripJournal
  dsimp only
  repeat' (first | (simp; done) | intro _ | split | (simp_all; done))

@[simp] theorem execStripRetire_winLive (src : Fin 32) (cell : Fin 64) (s : State) :
  Res.winLive (execStripRetire src cell s) = some s.winLive := by
  unfold execStripRetire
  dsimp only
  repeat' (first | (simp; done) | intro _ | split | (simp_all; done))

@[simp] theorem State.stripEnd_winLive (s : State) (m : Nat) (cell : Nat) (fail : Nat) :
  (State.stripEnd s m cell fail).winLive = s.winLive := by
  unfold State.stripEnd
  dsimp only
  repeat' (first | (simp; done) | intro _ | split | rw [State.foldl_winLive] | rw [State.foldlp_winLive] | (simp_all; done))

@[simp] theorem execStripDone_winLive (member : Fin 32) (cell : Nat) (fail : Nat) (s : State) :
  Res.winLive (execStripDone member cell fail s) = some s.winLive := by
  simp [execStripDone]

@[simp] theorem execLockedRetry_winLive (s : State) :
  Res.winLive (execLockedRetry s) = some s.winLive := by
  simp [execLockedRetry]

@[simp] theorem State.writeStrip_winLive (s : State) (l : Layout) (slot : Nat) (chord : Nat) (t : Nat) (holder : Nat) (first : Nat) (jid : Nat) (cls : Nat) (blocks : List Nat) :
  (State.writeStrip s l slot chord t holder first jid cls blocks).winLive = s.winLive := by
  simp [State.writeStrip]

@[simp] theorem State.loseOffset_winLive (s : State) (l : Layout) (slot : Nat) (chord : Nat) (b : Nat) (got : SMap Nat) :
  (State.loseOffset s l slot chord b got).winLive = s.winLive := by
  simp [State.loseOffset]

@[simp] theorem execChordRead_winLive (nsid : Nat) (lba : Nat) (strips : List MediaRes) (s : State) :
  Res.winLive (execChordRead nsid lba strips s) = some s.winLive := by
  unfold execChordRead
  dsimp only
  repeat' (first | (simp; done) | intro _ | split | rw [State.when_winLive] | (simp_all; done))

@[simp] theorem State.recoverOffset_winLive (s : State) (l : Layout) (r : Nat) (b : Nat) (rs : List MediaRes) :
  (State.recoverOffset s l r b rs).winLive = s.winLive := by
  unfold State.recoverOffset
  dsimp only
  repeat' (first | (simp; done) | intro _ | split | rw [State.when_winLive] | rw [State.settleStrips_winLive] | rw [State.each_winLive] | (simp_all; done))

@[simp] theorem State.recoverRecord_winLive (s : State) (cell : Nat) (r : Nat) (reads : List (List MediaRes)) :
  (State.recoverRecord s cell r reads).winLive = s.winLive := by
  unfold State.recoverRecord
  dsimp only
  repeat' (first | (simp; done) | intro _ | split | rw [State.settleStrips_winLive] | rw [State.each_winLive] | (simp_all; done))

@[simp] theorem State.putRebuild_winLive (s : State) :
  (State.putRebuild s).winLive = s.winLive := by
  simp [State.putRebuild]

@[simp] theorem execJournalRecover_winLive (reads : List (List (List MediaRes))) (s : State) :
  Res.winLive (execJournalRecover reads s) = some s.winLive := by
  simp [execJournalRecover]

@[simp] theorem execStampRecovery_winLive (cands : List (Nat × List (List MediaRes))) (s : State) :
  Res.winLive (execStampRecovery cands s) = some s.winLive := by
  unfold execStampRecovery
  simp
  repeat' (first | (simp; done) | intro _ | split | rw [State.settleStrips_winLive] | rw [State.each_winLive] | (simp_all; done))

@[simp] theorem State.rebuildOffset_winLive (s : State) (l : Layout) (slot : Nat) (c : Nat) (b : Nat) (rs : List MediaRes) (moved : List Nat) :
  (State.rebuildOffset s l slot c b rs moved).winLive = s.winLive := by
  unfold State.rebuildOffset
  dsimp only
  repeat' (first | (simp; done) | intro _ | split | rw [State.settleStrips_winLive] | rw [State.each_winLive] | (simp_all; done))

@[simp] theorem execRebuildScan_winLive (strips : List (List MediaRes)) (s : State) :
  Res.winLive (execRebuildScan strips s) = some s.winLive := by
  unfold execRebuildScan
  repeat' split
  all_goals simp

@[simp] theorem State.startScans_winLive (s : State) (before : SMap (List Nat)) :
  (State.startScans s before).winLive = s.winLive := by
  simp [State.startScans]

@[simp] theorem State.appendFail_winLive (s : State) (m : Nat) :
  (State.appendFail s m).winLive = s.winLive := by
  simp [State.appendFail]

@[simp] theorem State.adopt_winLive (s : State) (m : Nat) :
  (State.adopt s m).winLive = s.winLive := by
  simp [State.adopt]

@[simp] theorem State.adoptEnd_winLive (s : State) :
  (State.adoptEnd s).winLive = s.winLive := by
  unfold State.adoptEnd
  repeat' split
  all_goals simp

@[simp] theorem State.resendRecords_winLive (s : State) (p : Nat) :
  (State.resendRecords s p).winLive = s.winLive := by
  simp [State.resendRecords]

@[simp] theorem State.chordMap_winLive (s : State) (old : Option Nat) (new : Option Nat) :
  (State.chordMap s old new).winLive = s.winLive := by
  simp [State.chordMap]

@[simp] theorem State.swapSlot_winLive (s : State) (slot : Nat) :
  (State.swapSlot s slot).winLive = s.winLive := by
  simp [State.swapSlot]

@[simp] theorem State.layoutCommit_winLive (s : State) (slot : Nat) :
  (State.layoutCommit s slot).winLive = s.winLive := by
  simp [State.layoutCommit]

@[simp] theorem State.reshapeGo_winLive (s : State) :
  (State.reshapeGo s).winLive = s.winLive := by
  simp [State.reshapeGo]

@[simp] theorem State.reshapeSwitch_winLive (s : State) :
  (State.reshapeSwitch s).winLive = s.winLive := by
  unfold State.reshapeSwitch
  repeat' split
  all_goals simp

@[simp] theorem State.chdCtl_winLive (s : State) (v : Nat) :
  (State.chdCtl s v).winLive = s.winLive := by
  simp [State.chdCtl]

@[simp] theorem execLayoutCommit_winLive (value : Word) (s : State) :
  Res.winLive (execLayoutCommit value s) = some s.winLive := by
  simp [execLayoutCommit]

@[simp] theorem execReshapeStart_winLive (s : State) :
  Res.winLive (execReshapeStart s) = some s.winLive := by
  simp [execReshapeStart]

@[simp] theorem execReshapeSwitch_winLive (s : State) :
  Res.winLive (execReshapeSwitch s) = some s.winLive := by
  simp [execReshapeSwitch]

@[simp] theorem State.saveCheckpoint_winLive (s : State) (k : Nat) (slot : Nat) :
  (State.saveCheckpoint s k slot).winLive = s.winLive := by
  unfold State.saveCheckpoint
  dsimp only
  repeat' (first | (simp; done) | intro _ | split | (simp_all; done))

@[simp] theorem execReshapeChordCopy_winLive (data : List MediaRes) (s : State) :
  Res.winLive (execReshapeChordCopy data s) = some s.winLive := by
  unfold execReshapeChordCopy
  repeat' split
  all_goals simp

@[simp] theorem execHeartbeatSend_winLive (s : State) :
  Res.winLive (execHeartbeatSend s) = some s.winLive := by
  simp [execHeartbeatSend]

@[simp] theorem State.putRate_winLive (s : State) (r : Nat) :
  (State.putRate s r).winLive = s.winLive := by
  simp [State.putRate]

@[simp] theorem execRingRate_winLive (src : Fin 32) (code : Fin 4) (s : State) :
  Res.winLive (execRingRate src code s) = some s.winLive := by
  simp [execRingRate]

@[simp] theorem State.rateCheck_winLive (s : State) :
  (State.rateCheck s).winLive = s.winLive := by
  simp [State.rateCheck]

@[simp] theorem State.showMap_winLive (s : State) (r : Nat) :
  (State.showMap s r).winLive = s.winLive := by
  simp [State.showMap]

@[simp] theorem State.takeMap_winLive (s : State) (r : Nat) :
  (State.takeMap s r).winLive = s.winLive := by
  simp [State.takeMap]

@[simp] theorem execMapAccept_winLive (src : Fin 32) (map : Nat) (s : State) :
  Res.winLive (execMapAccept src map s) = some s.winLive := by
  simp [execMapAccept]

@[simp] theorem State.commitMap_winLive (s : State) (order : List Nat) :
  (State.commitMap s order).winLive = s.winLive := by
  simp [State.commitMap]

@[simp] theorem execMapCommit_winLive (order : List Nat) (s : State) :
  Res.winLive (execMapCommit order s) = some s.winLive := by
  simp [execMapCommit]

@[simp] theorem State.becomeManager_winLive (s : State) :
  (State.becomeManager s).winLive = s.winLive := by
  simp [State.becomeManager]

@[simp] theorem execHeartbeatReceive_winLive (src : Fin 32) (hb : Heartbeat) (s : State) :
  Res.winLive (execHeartbeatReceive src hb s) = some s.winLive := by
  simp [execHeartbeatReceive]

@[simp] theorem execMemberFailTimeout_winLive (member : Fin 32) (s : State) :
  Res.winLive (execMemberFailTimeout member s) = some s.winLive := by
  unfold execMemberFailTimeout
  dsimp only
  repeat' (first | (simp; done) | intro _ | split | (simp_all; done))

@[simp] theorem execRingJoin_winLive (member : Fin 32) (leave : Bool) (s : State) :
  Res.winLive (execRingJoin member leave s) = some s.winLive := by
  simp [execRingJoin]

@[simp] theorem execClaimSend_winLive (s : State) :
  Res.winLive (execClaimSend s) = some s.winLive := by
  simp [execClaimSend]

@[simp] theorem execClaimReceive_winLive (member : Fin 32) (epoch : Nat) (s : State) :
  Res.winLive (execClaimReceive member epoch s) = some s.winLive := by
  simp [execClaimReceive]

@[simp] theorem execClaimWin_winLive (s : State) :
  Res.winLive (execClaimWin s) = some s.winLive := by
  simp [execClaimWin]

@[simp] theorem execQuorumLoss_winLive (s : State) :
  Res.winLive (execQuorumLoss s) = some s.winLive := by
  simp [execQuorumLoss]

@[simp] theorem State.modCore_winLive (s : State) (g : Cores → Cores) :
  (State.modCore s g).winLive = s.winLive := by
  simp [State.modCore]

@[simp] theorem State.carry_winLive (s : State) (old : State) (fs : List Field) :
  (State.carry s old fs).winLive = s.winLive := by
  simp [State.carry]

@[simp] theorem State.gatesLow_winLive (s : State) :
  (State.gatesLow s).winLive = s.winLive := by
  simp [State.gatesLow]

@[simp] theorem State.faultStop_winLive (s : State) (processor : Bool) :
  (State.faultStop s processor).winLive = s.winLive := by
  simp [State.faultStop]

@[simp] theorem execWatchdogKick_winLive (_value : Word) (s : State) :
  Res.winLive (execWatchdogKick _value s) = some s.winLive := by
  simp [execWatchdogKick]

@[simp] theorem State.cchReject_winLive (s : State) (c : Nat) :
  (State.cchReject s c).winLive = s.winLive := by
  simp [State.cchReject]

@[simp] theorem State.dmaReject_winLive (s : State) (c : Nat) :
  (State.dmaReject s c).winLive = s.winLive := by
  simp [State.dmaReject]

@[simp] theorem State.coreCtl_winLive (s : State) (v : Nat) :
  (State.coreCtl s v).winLive = s.winLive := by
  simp [State.coreCtl]

@[simp] theorem execCoreRelease_winLive (value : Word) (s : State) :
  Res.winLive (execCoreRelease value s) = some s.winLive := by
  simp [execCoreRelease]

@[simp] theorem State.l1Ctl_winLive (s : State) (n : Nat) (v : Nat) :
  (State.l1Ctl s n v).winLive = s.winLive := by
  simp [State.l1Ctl]

@[simp] theorem execL1Invalidate_winLive (core : Fin 4) (value : Word) (s : State) :
  Res.winLive (execL1Invalidate core value s) = some s.winLive := by
  simp [execL1Invalidate]

@[simp] theorem execL1InvalidateDone_winLive (core : Fin 4) (s : State) :
  Res.winLive (execL1InvalidateDone core s) = some s.winLive := by
  simp [execL1InvalidateDone]

@[simp] theorem State.l1Drop_winLive (s : State) (line : Nat) (keep : Option Nat) :
  (State.l1Drop s line keep).winLive = s.winLive := by
  simp [State.l1Drop]

@[simp] theorem State.l1Put_winLive (s : State) (core : Nat) (inst : Bool) (line : Nat) (data : Nat) (pos : Nat) (word : Nat → Bool) :
  (State.l1Put s core inst line data pos word).winLive = s.winLive := by
  simp [State.l1Put]

@[simp] theorem State.l1Fill_winLive (s : State) (core : Nat) (inst : Bool) (line : Nat) (data : Nat) :
  (State.l1Fill s core inst line data).winLive = s.winLive := by
  unfold State.l1Fill
  repeat' split
  all_goals simp

@[simp] theorem State.l1Read_winLive (s : State) (core : Nat) (inst : Bool) (line : Nat) (off : Nat) :
  (State.l1Read s core inst line off).2.winLive = s.winLive := by
  unfold State.l1Read
  repeat' split
  all_goals simp

@[simp] theorem State.l1Store_winLive (s : State) (core : Nat) (line : Nat) (off : Nat) (n : Nat) (d : Nat) :
  (State.l1Store s core line off n d).winLive = s.winLive := by
  unfold State.l1Store
  dsimp only
  repeat' split
  all_goals simp
  all_goals (split <;> simp)

@[simp] theorem State.l2Rewrite_winLive (s : State) (k : Nat) :
  (State.l2Rewrite s k).winLive = s.winLive := by
  simp [State.l2Rewrite]

@[simp] theorem State.l2Put_winLive (s : State) (k : Nat) (l : L2Line) :
  (State.l2Put s k l).winLive = s.winLive := by
  simp [State.l2Put]

@[simp] theorem State.l2Drop_winLive (s : State) (k : Nat) :
  (State.l2Drop s k).winLive = s.winLive := by
  unfold State.l2Drop
  repeat' split
  all_goals simp

@[simp] theorem State.l2Refetch_winLive (s : State) (k : Nat) (l : L2Line) :
  (State.l2Refetch s k l).winLive = s.winLive := by
  unfold State.l2Refetch
  dsimp only
  repeat' (first | (simp; done) | intro _ | split | (simp_all; done))

@[simp] theorem State.l2Serve_winLive (s : State) (core : Nat) (k : Nat) (line : Nat) (fetch : Bool) (store : Option (Nat × Nat)) (off : Nat) :
  (State.l2Serve s core k line fetch store off).winLive = s.winLive := by
  unfold State.l2Serve
  simp
  repeat' (first | (simp; done) | intro _ | split | rw [State.each_winLive] | rw [State.when_winLive] | rw [State.foldl_winLive] | rw [State.foldlp_winLive] | rw [State.foldlp2_winLive] | (simp_all; done))

@[simp] theorem execL2EvictionWriteback_winLive (s : State) :
  Res.winLive (execL2EvictionWriteback s) = some s.winLive := by
  unfold execL2EvictionWriteback
  repeat' split
  all_goals simp

@[simp] theorem State.l2SweepCtl_winLive (s : State) (v : Nat) :
  (State.l2SweepCtl s v).winLive = s.winLive := by
  simp [State.l2SweepCtl]

@[simp] theorem execL2Sweep_winLive (s : State) :
  Res.winLive (execL2Sweep s) = some s.winLive := by
  simp [execL2Sweep]

@[simp] theorem State.dmaEnd_winLive (s : State) (c : Nat) (st : Nat) (code : Nat) :
  (State.dmaEnd s c st code).winLive = s.winLive := by
  simp [State.dmaEnd]

@[simp] theorem execDmaDrainDone_winLive (ch : Fin 32) (s : State) :
  Res.winLive (execDmaDrainDone ch s) = some s.winLive := by
  simp [execDmaDrainDone]

@[simp] theorem State.sysReject_winLive (s : State) (c : Nat) (d : Nat) :
  (State.sysReject s c d).winLive = s.winLive := by
  simp [State.sysReject]

@[simp] theorem State.clearRegs_winLive (s : State) (lo : Nat) (hi : Nat) :
  (State.clearRegs s lo hi).winLive = s.winLive := by
  simp [State.clearRegs]

@[simp] theorem State.slotDown_winLive (s : State) (i : Nat) :
  (State.slotDown s i).winLive = s.winLive := by
  simp [State.slotDown]

@[simp] theorem State.domReset_winLive (s : State) (d : Nat) :
  (State.domReset s d).winLive = s.winLive := by
  simp [State.domReset]

@[simp] theorem State.pdReq_winLive (s : State) (n : Nat) (v : Nat) :
  (State.pdReq s n v).winLive = s.winLive := by
  unfold State.pdReq
  dsimp only
  repeat' (first | (simp; done) | intro _ | split | (simp_all; done))

@[simp] theorem execPdReqWrite_winLive (n : Fin 3) (value : Word) (s : State) :
  Res.winLive (execPdReqWrite n value s) = some s.winLive := by
  simp [execPdReqWrite]

@[simp] theorem State.wantDom_winLive (s : State) (d : Nat) (on : Bool) :
  (State.wantDom s d on).winLive = s.winLive := by
  simp [State.wantDom]

@[simp] theorem execDomainRampStart_winLive (s : State) :
  Res.winLive (execDomainRampStart s) = some s.winLive := by
  unfold execDomainRampStart
  repeat' split
  all_goals simp

@[simp] theorem State.coresGo_winLive (s : State) :
  (State.coresGo s).winLive = s.winLive := by
  simp [State.coresGo]

@[simp] theorem State.domUp_winLive (s : State) (d : Nat) :
  (State.domUp s d).winLive = s.winLive := by
  simp [State.domUp]

@[simp] theorem execDomainRampDone_winLive (d : Fin 96) (s : State) :
  Res.winLive (execDomainRampDone d s) = some s.winLive := by
  simp [execDomainRampDone]

@[simp] theorem execDomainPowerDownDone_winLive (d : Fin 96) (s : State) :
  Res.winLive (execDomainPowerDownDone d s) = some s.winLive := by
  simp [execDomainPowerDownDone]

@[simp] theorem State.afeFit_winLive (s : State) (n : Nat) (v : Nat) :
  (State.afeFit s n v).winLive = s.winLive := by
  unfold State.afeFit
  dsimp only
  repeat' (first | (simp; done) | intro _ | split | rw [State.when_winLive] | (simp_all; done))

@[simp] theorem execAfeFitWrite_winLive (n : Fin 2) (value : Word) (s : State) :
  Res.winLive (execAfeFitWrite n value s) = some s.winLive := by
  simp [execAfeFitWrite]

@[simp] theorem State.clockFault_winLive (s : State) (i : Nat) :
  (State.clockFault s i).winLive = s.winLive := by
  simp [State.clockFault]

@[simp] theorem execVioLoss_winLive (s : State) :
  Res.winLive (execVioLoss s) = some s.winLive := by
  simp [execVioLoss]

@[simp] theorem State.shed_winLive (s : State) :
  (State.shed s).winLive = s.winLive := by
  simp [State.shed]

@[simp] theorem execVinFail_winLive (vin : Nat) (s : State) :
  Res.winLive (execVinFail vin s) = some s.winLive := by
  simp [execVinFail]

@[simp] theorem State.startStep_winLive (s : State) (n : Nat) (g : State → State) (h0 : ∀ s0, (g s0).winLive = s0.winLive) :
  (State.startStep s n g).winLive = s.winLive := by
  unfold State.startStep
  simp
  repeat' (first | (simp; done) | intro _ | split | rw [State.startStep_winLive] | (simp_all; done))

@[simp] theorem execSysPorNRise_winLive (straps : Straps) (s : State) :
  Res.winLive (execSysPorNRise straps s) = some s.winLive := by
  simp [execSysPorNRise]

@[simp] theorem execPllLock_winLive (s : State) :
  Res.winLive (execPllLock s) = some s.winLive := by
  simp [execPllLock]

@[simp] theorem State.fuseStop_winLive (s : State) :
  (State.fuseStop s).winLive = s.winLive := by
  simp [State.fuseStop]

@[simp] theorem execFuseMapLoad_winLive (good : Bool) (repaired : Nat) (s : State) :
  Res.winLive (execFuseMapLoad good repaired s) = some s.winLive := by
  simp [execFuseMapLoad]

@[simp] theorem execNutStart_winLive (s : State) :
  Res.winLive (execNutStart s) = some s.winLive := by
  simp [execNutStart]

@[simp] theorem State.eraseStaging_winLive (s : State) :
  (State.eraseStaging s).winLive = s.winLive := by
  simp [State.eraseStaging]

@[simp] theorem State.installActive_winLive (s : State) :
  (State.installActive s).winLive = s.winLive := by
  simp [State.installActive]

@[simp] theorem State.install_winLive (s : State) :
  (State.install s).winLive = s.winLive := by
  simp [State.install]

@[simp] theorem State.applyCommit_winLive (s : State) (staging : PkgCheck) :
  (State.applyCommit s staging).winLive = s.winLive := by
  simp [State.applyCommit]

@[simp] theorem State.fallBack_winLive (s : State) :
  (State.fallBack s).winLive = s.winLive := by
  simp [State.fallBack]

@[simp] theorem State.restoreFallback_winLive (s : State) :
  (State.restoreFallback s).winLive = s.winLive := by
  simp [State.restoreFallback]

@[simp] theorem State.chooseSlot_winLive (s : State) (active : PkgCheck) (fallback : PkgCheck) (staging : PkgCheck) :
  (State.chooseSlot s active fallback staging).2.winLive = s.winLive := by
  simp [State.chooseSlot]

@[simp] theorem State.bootSlot_winLive (s : State) (k : Nat) (p : FwPkg) :
  (State.bootSlot s k p).winLive = s.winLive := by
  simp [State.bootSlot]

@[simp] theorem State.startDrbg_winLive (s : State) (entropy : Bool) :
  (State.startDrbg s entropy).winLive = s.winLive := by
  simp [State.startDrbg]

@[simp] theorem State.startKeys_winLive (s : State) :
  (State.startKeys s).winLive = s.winLive := by
  simp [State.startKeys]

@[simp] theorem execSlotChoice_winLive (puf : Bool) (recovery : PkgCheck) (active : PkgCheck) (fallback : PkgCheck) (staging : PkgCheck) (entropy : Bool) (s : State) :
  Res.winLive (execSlotChoice puf recovery active fallback staging entropy s) = some s.winLive := by
  unfold execSlotChoice
  dsimp only
  repeat' (first | (simp; done) | intro _ | split | rw [State.startStep_winLive] | (simp_all; done))

@[simp] theorem execHbmTrainingDone_winLive (good : Bool) (s : State) :
  Res.winLive (execHbmTrainingDone good s) = some s.winLive := by
  simp [execHbmTrainingDone]

@[simp] theorem execL2InvalidationDone_winLive (s : State) :
  Res.winLive (execL2InvalidationDone s) = some s.winLive := by
  simp [execL2InvalidationDone]

@[simp] theorem State.loadPeg_winLive (s : State) (peg : List (Nat × Nat)) (maps : List AlignData) :
  (State.loadPeg s peg maps).winLive = s.winLive := by
  simp [State.loadPeg]

@[simp] theorem execMainRelease_winLive (peg : List (Nat × Nat)) (maps : List AlignData) (s : State) :
  Res.winLive (execMainRelease peg maps s) = some s.winLive := by
  simp [execMainRelease]

@[simp] theorem State.copyStore_winLive (s : State) :
  (State.copyStore s).winLive = s.winLive := by
  simp [State.copyStore]

@[simp] theorem State.queueRestored_winLive (s : State) :
  (State.queueRestored s).winLive = s.winLive := by
  simp [State.queueRestored]

@[simp] theorem State.restoreFrom_winLive (s : State) (n : SaveArea) (fn : SaveRead) (old : Option (SaveArea × SaveRead)) :
  (State.restoreFrom s n fn old).winLive = s.winLive := by
  simp [State.restoreFrom]

@[simp] theorem State.restore_winLive (s : State) (headerA : Nat) (headerB : Nat) (a : SaveRead) (b : SaveRead) :
  (State.restore s headerA headerB a b).winLive = s.winLive := by
  unfold State.restore
  repeat' split
  all_goals simp

@[simp] theorem State.startRecorder_winLive (s : State) :
  (State.startRecorder s).winLive = s.winLive := by
  simp [State.startRecorder]

@[simp] theorem execRestoreSave_winLive (headerA : Nat) (headerB : Nat) (a : SaveRead) (b : SaveRead) (s : State) :
  Res.winLive (execRestoreSave headerA headerB a b s) = some s.winLive := by
  simp [execRestoreSave]

@[simp] theorem execReady_winLive (s : State) :
  Res.winLive (execReady s) = some s.winLive := by
  simp [execReady]

@[simp] theorem State.pwrState_winLive (s : State) (v : Nat) :
  (State.pwrState s v).winLive = s.winLive := by
  simp [State.pwrState]

@[simp] theorem execPwrStateWrite_winLive (value : Word) (s : State) :
  Res.winLive (execPwrStateWrite value s) = some s.winLive := by
  simp [execPwrStateWrite]

@[simp] theorem execIdleEntry_winLive (s : State) :
  Res.winLive (execIdleEntry s) = some s.winLive := by
  simp [execIdleEntry]

@[simp] theorem execIdleExit_winLive (s : State) :
  Res.winLive (execIdleExit s) = some s.winLive := by
  simp [execIdleExit]

@[simp] theorem execDozeEntry_winLive (s : State) :
  Res.winLive (execDozeEntry s) = some s.winLive := by
  simp [execDozeEntry]

@[simp] theorem execSpinDownStart_winLive (s : State) :
  Res.winLive (execSpinDownStart s) = some s.winLive := by
  simp [execSpinDownStart]

@[simp] theorem execDozeExit_winLive (s : State) :
  Res.winLive (execDozeExit s) = some s.winLive := by
  simp [execDozeExit]

@[simp] theorem execSleepEntry_winLive (s : State) :
  Res.winLive (execSleepEntry s) = some s.winLive := by
  unfold execSleepEntry
  repeat' split
  all_goals simp

@[simp] theorem execSleepExit_winLive (s : State) :
  Res.winLive (execSleepExit s) = some s.winLive := by
  simp [execSleepExit]

@[simp] theorem execRelocation_winLive (nsid : Nat) (lba : Nat) (member : Nat) (row : List RowTrack) (spareRows : List RowTrack) (s : State) :
  Res.winLive (execRelocation nsid lba member row spareRows s) = some s.winLive := by
  unfold execRelocation
  repeat' split
  all_goals simp

@[simp] theorem State.rejectAt_winLive (s : State) (a : Nat) (c : Nat) :
  (State.rejectAt s a c).winLive = s.winLive := by
  simp [State.rejectAt]

@[simp] theorem resState_winLive (r : Res) (s : State) (h : Res.winLive r = some s.winLive) : (resState r s).winLive = s.winLive := by
  unfold resState
  split
  · simpa using h
  · rfl

@[simp] theorem State.readRow_winLive (s : State) (a : Nat) :
  ∀ t ∈ State.readRow s a, t.winLive = s.winLive := by
  unfold State.readRow
  dsimp only
  repeat' split
  all_goals simp

@[simp] theorem State.clearRc_winLive (s : State) (a : Nat) :
  (State.clearRc s a).winLive = s.winLive := by
  unfold State.clearRc
  repeat' split
  all_goals simp

@[simp] theorem State.latch64_winLive (s : State) (a : Nat) :
  (State.latch64 s a).winLive = s.winLive := by
  simp [State.latch64]

@[simp] theorem State.regRead_winLive (s : State) (addr : Nat) :
  (State.regRead s addr).winLive = s.winLive := by
  unfold State.regRead
  split
  · simp
  · dsimp only; split
    · exact State.readRow_winLive _ _ _ (by assumption)
    · split <;> simp

@[simp] theorem State.writeField_winLive (s : State) (a : Nat) (v : Nat) (d : FieldDef) :
  (State.writeField s a v d).winLive = s.winLive := by
  unfold State.writeField
  repeat' split
  all_goals simp

@[simp] theorem State.clearStatus_winLive (s : State) (a : Nat) (fs : List FieldDef) :
  (State.clearStatus s a fs).winLive = s.winLive := by
  simp [State.clearStatus]

@[simp] theorem State.writeFields_winLive (s : State) (r : RegDef) (a : Nat) (v : Nat) :
  (State.writeFields s r a v).winLive = s.winLive := by
  simp [State.writeFields]

@[simp] theorem State.plainWrite_winLive (s : State) (addr : Nat) (a : Nat) (v : Nat) :
  (State.plainWrite s addr a v).winLive = s.winLive := by
  unfold State.plainWrite
  repeat' split
  all_goals simp

@[simp] theorem State.rawCtl_winLive (s : State) (v : Nat) :
  (State.rawCtl s v).winLive = s.winLive := by
  simp [State.rawCtl]

@[simp] theorem State.scrubCtl_winLive (s : State) (v : Nat) :
  (State.scrubCtl s v).winLive = s.winLive := by
  unfold State.scrubCtl
  repeat' split
  all_goals simp

@[simp] theorem State.secReqCtl_winLive (s : State) (v : Nat) :
  (State.secReqCtl s v).winLive = s.winLive := by
  simp [State.secReqCtl]

@[simp] theorem State.tokenCtl_winLive (s : State) (v : Nat) :
  (State.tokenCtl s v).winLive = s.winLive := by
  simp [State.tokenCtl]

@[simp] theorem State.actRow_winLive (s : State) (a : Nat) (v : Nat) :
  ∀ t ∈ State.actRow s a v, t.winLive = s.winLive := by
  unfold State.actRow
  dsimp only
  repeat' split
  all_goals simp

@[simp] theorem State.highWrite_winLive (s : State) (addr : Nat) (a : Nat) (v : Nat) :
  (State.highWrite s addr a v).winLive = s.winLive := by
  unfold State.highWrite
  repeat' split
  all_goals simp

@[simp] theorem execCounterRead_winLive (acc : BusAccess) (s : State) :
  Res.winLive (execCounterRead acc s) = some s.winLive := by
  simp [execCounterRead]

@[simp] theorem execLowHalfRead_winLive (acc : BusAccess) (s : State) :
  Res.winLive (execLowHalfRead acc s) = some s.winLive := by
  simp [execLowHalfRead]

@[simp] theorem execHighHalfWrite_winLive (acc : BusAccess) (value : Word) (s : State) :
  Res.winLive (execHighHalfWrite acc value s) = some s.winLive := by
  simp [execHighHalfWrite]

@[simp] theorem State.peek_winLive (s : State) (a : Nat) :
  (State.peek s a).winLive = s.winLive := by
  unfold State.peek
  repeat' split
  all_goals simp

@[simp] theorem execSmbusRegisterRead_winLive (s : State) :
  Res.winLive (execSmbusRegisterRead s) = some s.winLive := by
  simp [execSmbusRegisterRead]

end Sys2Proof.Machine
end

