-- ==== Sys2Proof/Laws/WindowLegal.lean ====
section
/-! SUPPORT. The operations that can change the live window table keep it legal: one lemma each. -/

set_option linter.all false
set_option maxRecDepth 4000

namespace Sys2Proof.Machine

@[simp] theorem windowsLegal_nil : windowsLegal [] = true := rfl

@[simp] theorem windowsLegal_ite (c : Prop) [Decidable c] (a b : SMap WinLive) :
    windowsLegal (if c then a else b) = if c then windowsLegal a else windowsLegal b := apply_ite _ _ _ _

theorem windowsLegal_iff (m : SMap WinLive) : windowsLegal m = true ↔ ∀ e ∈ m, winCheck e.2.raw = none := by
  simp [windowsLegal, List.all_eq_true, Option.isNone_iff_eq_none]

theorem windowsLegal_set (m : SMap WinLive) (k : Nat) (v : WinLive) (h : windowsLegal m = true)
    (hv : winCheck v.raw = none) : windowsLegal (SMap.set m k v) = true := by
  rw [windowsLegal_iff] at h ⊢
  intro e he
  rcases SMap.mem_ins _ k v e he with rfl | he
  · exact hv
  · exact h e (SMap.mem_del m k e he).1

theorem SMap.look_mem {α : Type} (m : SMap α) (k : Nat) (v : α) (h : SMap.look m k = some v) : (k, v) ∈ m := by
  induction m with
  | nil => cases h
  | cons p m ih =>
    unfold SMap.look at h
    split at h
    · rename_i hp
      cases h
      exact hp ▸ List.mem_cons_self
    · exact List.mem_cons_of_mem _ (ih h)

theorem State.foldl_legal {α : Type} (g : State → α → State) (xs : List α) (s : State)
    (hs : windowsLegal s.winLive = true) (h : ∀ s x, windowsLegal s.winLive = true → windowsLegal (g s x).winLive = true) :
    windowsLegal (xs.foldl g s).winLive = true := by
  induction xs generalizing s with
  | nil => exact hs
  | cons x xs ih => exact ih _ (h s x hs)

theorem State.each_legal {α : Type} (s : State) (xs : List α) (g : State → α → State)
    (hs : windowsLegal s.winLive = true) (h : ∀ s x, windowsLegal s.winLive = true → windowsLegal (g s x).winLive = true) :
    windowsLegal (s.each xs g).winLive = true := State.foldl_legal g xs s hs h

theorem State.when_legal (s : State) (b : Bool) (g : State → State) (hs : windowsLegal s.winLive = true)
    (h : ∀ s, windowsLegal s.winLive = true → windowsLegal (g s).winLive = true) :
    windowsLegal (s.when b g).winLive = true := by
  unfold State.when; split
  · exact h s hs
  · exact hs

/-! ## The commit and the drain (14 R360) -/

theorem State.winCommit_legal (s : State) (source i : Nat) (h : windowsLegal s.winLive = true) :
    windowsLegal (s.winCommit source i).winLive = true := by
  unfold State.winCommit
  split
  · simpa using h
  · split
    · simpa using h
    · exact windowsLegal_set _ _ _ h (by assumption)

/-! ## Device resets (02 R62 to R64) -/

theorem State.cleared_winLive (s : State) (keep : Bool) : (s.cleared keep).winLive = [] := by
  unfold State.cleared; simp; rfl

theorem State.resetNow_winLive (s : State) (causes : List Field) : (s.resetNow causes).winLive = [] := by
  unfold State.resetNow; simp [State.cleared_winLive]

theorem State.deviceReset_legal (s : State) (cause : Field) (h : windowsLegal s.winLive = true) :
    windowsLegal (s.deviceReset cause).winLive = true := by
  unfold State.deviceReset
  split
  · simpa using h
  · simp [State.resetNow_winLive]

theorem State.fatal_legal (s : State) (cause : Field) (a b : Bool) (h : windowsLegal s.winLive = true) :
    windowsLegal (s.fatal cause a b).winLive = true := by
  unfold State.fatal
  dsimp only
  repeat' split
  all_goals first | exact h | (apply State.deviceReset_legal; simpa using h)

theorem State.rstCtl_legal (s : State) (v : Nat) (h : windowsLegal s.winLive = true) :
    windowsLegal (s.rstCtl v).winLive = true := by
  unfold State.rstCtl
  split
  · exact State.deviceReset_legal _ _ h
  · exact h

/-! ## The L2, the bus and the DMA engine -/

theorem State.l2Fatal_legal (s : State) (h : windowsLegal s.winLive = true) : windowsLegal s.l2Fatal.winLive = true :=
  State.fatal_legal _ _ _ _ h

theorem State.l2Check_legal (s : State) (k : Nat) (h : windowsLegal s.winLive = true) :
    windowsLegal (s.l2Check k).winLive = true := by
  unfold State.l2Check
  repeat' split
  all_goals first | exact h | exact State.l2Fatal_legal _ h | simpa using h

theorem State.l2Miss_legal (s : State) (core line way : Nat) (fetch : Bool) (store : Option (Nat × Nat)) (off : Nat)
    (h : windowsLegal s.winLive = true) : windowsLegal (s.l2Miss core line way fetch store off).winLive = true := by
  unfold State.l2Miss
  dsimp only
  repeat' split
  all_goals first | exact h | exact State.l2Fatal_legal _ h | simpa using h

theorem State.l2Access_legal (s : State) (core : Fin 4) (addr : Nat) (fetch : Bool) (way : Fin 16)
    (store : Option (Nat × Nat)) (h : windowsLegal s.winLive = true) :
    windowsLegal (s.l2Access core addr fetch way store).winLive = true := by
  unfold State.l2Access
  dsimp only
  repeat' split
  all_goals first
    | with_reducible exact h
    | with_reducible exact State.l2Fatal_legal _ h
    | with_reducible exact State.l2Miss_legal _ _ _ _ _ _ _ h
    | (simp only [State.l2Serve_winLive, State.l2Refetch_winLive, State.answer_winLive, State.l1Fill_winLive]; with_reducible exact h)
    | simpa using h

theorem State.mntAt_legal (s : State) (op k : Nat) (h : windowsLegal s.winLive = true) :
    windowsLegal (s.mntAt op k).winLive = true := by
  unfold State.mntAt
  dsimp only
  repeat' split
  all_goals first | exact h | exact State.l2Fatal_legal _ h | simpa using h

theorem State.mntRun_legal (s : State) (r : Nat) (m : MntOp) (lo hi : Nat) (h : windowsLegal s.winLive = true) :
    windowsLegal (s.mntRun r m lo hi).winLive = true := by
  unfold State.mntRun
  split
  · simpa using h
  · exact State.each_legal _ _ _ h (fun s k hs => State.mntAt_legal s _ k hs)

theorem State.mntCtl_legal (s : State) (r v : Nat) (h : windowsLegal s.winLive = true) :
    windowsLegal (s.mntCtl r v).winLive = true := by
  unfold State.mntCtl
  dsimp only
  repeat' split
  all_goals first | (apply State.mntRun_legal; simpa using h) | simpa using h

theorem State.wordsRead_legal (s : State) (inst o n : Nat) (h : windowsLegal s.winLive = true) :
    windowsLegal (s.wordsRead inst o n).winLive = true := by
  unfold State.wordsRead
  apply State.each_legal _ _ _ h
  intro s k hs
  dsimp only
  split
  · simpa using hs
  · apply State.fatal_legal; simpa using hs

theorem State.busRead_legal (s : State) (a n : Nat) (h : windowsLegal s.winLive = true) :
    windowsLegal (s.busRead a n).2.2.winLive = true := by
  unfold State.busRead
  dsimp only
  repeat' split
  all_goals first | exact h | exact State.wordsRead_legal _ _ _ _ h | simpa using h

theorem State.busWrite_legal (s : State) (a v n lo hi : Nat) (h : windowsLegal s.winLive = true) :
    windowsLegal (s.busWrite a v n lo hi).2.winLive = true := by
  unfold State.busWrite
  dsimp only
  repeat' split
  all_goals first
    | exact h
    | (simp only [State.storeMem_winLive, State.modCore_winLive]
       apply State.each_legal _ _ _ h
       intro s k hs
       split
       · first | exact State.wordsRead_legal _ _ _ _ hs | simpa using hs
       · simpa using hs)
    | simpa using h

theorem State.dmaStatus_legal (s : State) (a v : Nat) (h : windowsLegal s.winLive = true) :
    windowsLegal (s.dmaStatus a v).2.winLive = true := by
  unfold State.dmaStatus
  split
  · exact State.busWrite_legal _ _ _ _ _ _ h
  · exact h

theorem State.dmaLine_legal (s : State) (d i : Nat) (h : windowsLegal s.winLive = true) :
    windowsLegal (s.dmaLine d i).2.winLive = true := by
  unfold State.dmaLine
  dsimp only
  apply State.busWrite_legal
  rw [State.draw_winLive]
  split
  · exact h
  · exact State.busRead_legal _ _ _ h

theorem State.dmaLines_legal (s : State) (d i n : Nat) (h : windowsLegal s.winLive = true) :
    windowsLegal (s.dmaLines d i n).2.winLive = true := by
  induction n generalizing s i with
  | zero => exact h
  | succ n ih =>
    unfold State.dmaLines
    dsimp only
    split
    · exact ih _ _ (State.dmaLine_legal _ _ _ h)
    · exact State.dmaLine_legal _ _ _ h

theorem State.dmaTransfer_legal (s : State) (d : Nat) (h : windowsLegal s.winLive = true) :
    windowsLegal (s.dmaTransfer d).2.winLive = true := by
  unfold State.dmaTransfer
  apply State.dmaLines_legal
  exact State.when_legal _ _ _ h (fun s hs => by simpa using hs)

theorem State.dmaMix_legal (s : State) (c d i : Nat) (h : windowsLegal s.winLive = true) :
    windowsLegal (s.dmaMix c d i).winLive = true := by
  unfold State.dmaMix
  split
  · exact h
  · dsimp only
    apply State.foldl_legal
    · split
      · exact h
      · exact State.busRead_legal _ _ _ h
    · intro s x hs
      split
      · apply State.busWrite_legal; simpa using hs
      · simpa using hs

theorem State.dmaDrop_legal (s : State) (c : Nat) (h : windowsLegal s.winLive = true) :
    windowsLegal (s.dmaDrop c).winLive = true := by
  have hm : ∀ (xs : List Nat) (d : Nat), windowsLegal (s.each xs (fun s i => s.dmaMix c d i)).winLive = true :=
    fun xs d => State.each_legal _ _ _ h (fun s x hs => State.dmaMix_legal s c d x hs)
  unfold State.dmaDrop
  split
  · simpa using h
  · dsimp only
    split
    · exact hm _ _
    · simpa using hm _ _

theorem State.dmaFetch_legal (s : State) (c a : Nat) (h : windowsLegal s.winLive = true) :
    windowsLegal (s.dmaFetch c a).winLive = true := by
  have hr : ∀ t : State, windowsLegal t.winLive = true → windowsLegal (t.busRead a 64).2.2.winLive = true :=
    fun t ht => State.busRead_legal t _ _ ht
  unfold State.dmaFetch
  dsimp only
  repeat' split
  · simpa using h
  · rw [State.dmaEnd_winLive]; exact hr _ (by simpa using h)
  · rw [State.dmaEnd_winLive]; exact State.dmaStatus_legal _ _ _ (hr _ (by simpa using h))
  · rw [State.modCore_winLive, State.put_winLive]; exact hr _ (by simpa using h)

theorem State.dmaStart_legal (s : State) (c : Nat) (h : windowsLegal s.winLive = true) :
    windowsLegal (s.dmaStart c).winLive = true := by
  unfold State.dmaStart
  dsimp only
  repeat' split
  all_goals first | exact h | (apply State.dmaFetch_legal; simpa using h) | simpa using h

/-! ## Register writes -/

theorem State.bar0WriteWord_legal (s : State) (p off v : Nat) (h : windowsLegal s.winLive = true) :
    windowsLegal (s.bar0WriteWord p off v).winLive = true := by
  unfold State.bar0WriteWord
  repeat' split
  all_goals first | exact h | exact State.winCommit_legal _ _ _ h | simpa using h

theorem State.bar0Write_legal (s : State) (p off len v : Nat) (h : windowsLegal s.winLive = true) :
    windowsLegal (s.bar0Write p off len v).winLive = true := by
  unfold State.bar0Write
  repeat' split
  · simpa using h
  · simpa using h
  · simpa using h
  · dsimp only
    apply State.when_legal
    · exact State.bar0WriteWord_legal _ _ _ _ h
    · intro s hs; exact State.bar0WriteWord_legal _ _ _ _ hs

theorem State.coreRow_legal (s t : State) (req a v : Nat) (ht : s.coreRow req a v = some t)
    (h : windowsLegal s.winLive = true) : windowsLegal t.winLive = true := by
  unfold State.coreRow at ht
  dsimp only at ht
  revert ht
  repeat' split
  all_goals (intro ht; cases ht)
  all_goals first
    | exact State.mntCtl_legal _ _ _ h
    | exact State.dmaStart_legal _ _ h
    | exact State.dmaDrop_legal _ _ h
    | exact State.winCommit_legal _ _ _ h
    | simpa using h

theorem State.unitRow_legal (s t : State) (req a v : Nat) (ht : s.unitRow req a v = some t)
    (h : windowsLegal s.winLive = true) : windowsLegal t.winLive = true := by
  unfold State.unitRow at ht
  dsimp only at ht
  revert ht
  split
  all_goals (intro ht; cases ht)
  all_goals first | exact State.rstCtl_legal _ _ h | simpa using h

theorem State.writeRow_legal (s t : State) (req addr a v : Nat) (ht : s.writeRow req addr a v = some t)
    (h : windowsLegal s.winLive = true) : windowsLegal t.winLive = true := by
  unfold State.writeRow at ht
  split at ht
  · simp only [Option.some.injEq] at ht; subst ht; simpa using h
  · split at ht
    · simp only [Option.some.injEq] at ht; subst ht
      rw [State.actRow_winLive _ _ _ _ (by assumption)]; exact h
    · split at ht
      · simp only [Option.some.injEq] at ht; subst ht
        exact State.coreRow_legal _ _ _ _ _ (by assumption) h
      · exact State.unitRow_legal _ _ _ _ _ ht h

theorem State.regWrite_legal (s : State) (req addr v : Nat) (h : windowsLegal s.winLive = true) :
    windowsLegal (s.regWrite req addr v).winLive = true := by
  unfold State.regWrite
  split
  · simpa using h
  · dsimp only
    split
    · exact State.writeRow_legal _ _ _ _ _ _ (by assumption) (by simpa using h)
    · repeat' split
      all_goals simpa using h

end Sys2Proof.Machine
end

