-- ==== Sys2Proof/WellFormed.lean ====
section
/-! DEFINITION. Well-formed commands: every operand lies in the range that the spec gives the thing it stands for. The
meanings are total and do not ask for it. -/

namespace Sys2Proof

/-- A 32-bit address or number. -/
def bit32 (n : Nat) : Bool := decide (n < 2 ^ 32)
/-- A value of `n` bytes. -/
def bytesFit (n v : Nat) : Bool := decide (v < 256 ^ n)
/-- A voltage in mV of 16 bits. -/
def mV (v : Nat) : Bool := decide (v < 65536)
/-- A speed in 1/256 rpm of 21 bits (10 Table SPN-12). -/
def speedOk (v : Nat) : Bool := decide (v < 2 ^ 21)
/-- A namespace number and an LBA (00 Table SCP-2). -/
def nsidOk (n : Nat) : Bool := decide (1 ≤ n) && decide (n ≤ 16)
def lbaOk (l : Nat) : Bool := decide (l < 2 ^ 48)
/-- A cell of a wedge in a media time (07 R179). -/
def cellOk (c : Nat) : Bool := decide (c < 2 ^ 24)
/-- The samples of at most three elements, `n` cells each at most; a sample is a 7-bit number (04 R100). -/
def streamsOk (n : Nat) (streams : List (List Int)) : Bool :=
  decide (streams.length ≤ 3) &&
    streams.all (fun xs => decide (xs.length ≤ n) && xs.all (fun x => decide (-64 ≤ x) && decide (x ≤ 63)))
/-- A bus access (00 R9). -/
def accessOk (acc : BusAccess) : Bool :=
  bit32 acc.addr && (acc.size == 1 || acc.size == 2 || acc.size == 4 || acc.size == 8)
/-- What a capture brings of one element: 37,376 cells at most (04 R120). -/
def captureOk (e : ElemCapture) : Bool :=
  decide (e.samples.length ≤ 37376) && e.samples.all (fun x => decide (x < 128)) && bit32 e.clips
/-- How a save area reads behind its header of 64 bytes (11 R298): flips of single bytes in 256 chunks of 262,144 bytes and 8 of CRC, and
the commit record's fields. -/
def saveReadOk (r : SaveRead) : Bool :=
  r.chunks.all (fun c => decide (c.1 < 256) && decide (c.2.1 < 262152) && bytesFit 1 c.2.2) &&
    bytesFit 8 r.seq && bytesFit 4 r.count && bytesFit 8 r.crc && bytesFit 4 r.ms && bytesFit 4 r.vstore
/-- A block of 4,112 bytes or a status. -/
def mediaOk (m : MediaRes) : Bool := match m with | .good b => bytesFit 4112 b | .bad st => decide (st < 256)
/-- The values of an opened envelope: 32 bytes each (17 R434). -/
def envOk (e : Option EnvRes) : Bool :=
  match e with
  | some x => bytesFit 32 x.cred && bytesFit 32 x.newCred && bytesFit 32 x.nonce
  | none => true
/-- The number, window address and length of a ring frame (18 R478). -/
def frameOk (number waddr flen : Nat) : Bool := bit32 number && bit32 waddr && decide (flen ≤ 4112)

/-- An upset of a lane (09 R225): a 16-bit message, a 32-bit learner or coefficient word, a 48-bit state. -/
def upsetOk : LaneUpset → Bool
  | .message m => decide (m < 2 ^ 16)
  | .writeBack m => decide (m < 2 ^ 32)
  | .state k m => decide (k ≤ 216) && decide (m < 2 ^ 48)
  | .coef o m => decide (0x2000 ≤ o) && decide (o < 0x4000) && decide (m < 2 ^ 32)

/-- A well-formed command. -/
def Instr.wf (c : Instr) : Bool :=
  match c with
  | .registerWrite _ addr size _ => bit32 addr && (size == 1 || size == 2 || size == 4 || size == 8)
  | .counterRead acc => accessOk acc
  | .lowHalfRead acc => accessOk acc
  | .highHalfWrite acc _ => accessOk acc
  | .sysPorNLow => true
  | .sysPorNRise straps => decide (straps.act < 16) && decide (straps.smbAddr < 4)
  | .pllLock => true
  | .fuseMapLoad _ repaired => decide (repaired < 256)
  | .nutStart => true
  | .slotChoice .. => true
  | .hbmTrainingDone .. => true
  | .l2InvalidationDone => true
  | .mainRelease peg maps => peg.all (fun e => decide (e.1 < 3072) && bytesFit 128 e.2) && maps.all (fun m => bytesFit 16 m.header && m.points.all (bytesFit 128))
  | .restoreSave headerA headerB a b => bytesFit 64 headerA && bytesFit 64 headerB && saveReadOk a && saveReadOk b
  | .ready => true
  | .clockMonitorWindow measured => measured.all (fun e => decide (e.1 < 44))
  | .vmonFault => true
  | .watchdogExpiry ms => decide (ms < 2 ^ 20)
  | .watchdogKick .. => true
  | .softReset .. => true
  | .debugReset => true
  | .deferredReset => true
  | .pdReqWrite .. => true
  | .domainRampStart => true
  | .domainRampDone .. => true
  | .domainPowerDownDone .. => true
  | .pwrStateWrite .. => true
  | .afeFitWrite .. => true
  | .idleEntry => true
  | .idleExit => true
  | .dozeEntry => true
  | .spinDownStart => true
  | .dozeExit => true
  | .sleepEntry => true
  | .sleepExit => true
  | .vioLoss => true
  | .perstAssert .. => true
  | .perstDeassert .. => true
  | .vinWarn vin => mV vin
  | .vinWarnRelease vin => mV vin
  | .vinFail vin => mV vin
  | .saveBegin => true
  | .saveCommit ms vstore => decide (ms < 65536) && mV vstore
  | .vholdRestore => true
  | .saveIncomplete chunks => decide (chunks < 256)
  | .vstoreArmed vstore => mV vstore
  | .selfTestStart => true
  | .selfTestDone ticks => bit32 ticks
  | .selfTestDrawTimeout => true
  | .selfTestRetry => true
  | .chargeTimeout => true
  | .sptTest => true
  | .sptRelease => true
  | .retryHeld => true
  | .relocation nsid lba member row spareRows => nsidOk nsid && lbaOk lba && decide (member < 4) && (row ++ spareRows).all (fun r => decide (r.surface < 48) && decide (r.track < 2 ^ 24))
  | .memberStart .. => true
  | .loopUpdate _ _ _ cell lead streams => bit32 cell && streamsOk 4 lead && streamsOk 4096 streams
  | .defectDeclare _ cell streams => bit32 cell && streamsOk 68 streams
  | .defectWindowClose .. => true
  | .captureDone _ e0 e1 e2 => captureOk e0 && captureOk e1 && captureOk e2
  | .sbHoldWrite .. => true
  | .sbDataRead .. => true
  | .eqTapAdapt _ run => bit32 run.cell && streamsOk 4096 run.streams
  | .syncSearchEnd _ streams => streamsOk 4096 streams
  | .resyncSearchEnd _ frag streams => decide (frag < 8) && streamsOk 4096 streams
  | .fastPathDone .. => true
  | .deepAttemptStart .. => true
  | .deepAttemptDone .. => true
  | .sectLoRead .. => true
  | .sectHiRead .. => true
  | .preampFrameDone _ data => decide (data < 65536)
  | .paCmdWrite .. => true
  | .clockField _ measured samples => decide (measured.natAbs < 2 ^ 31) && samples.all (fun x => decide (-64 ≤ x) && decide (x ≤ 63))
  | .mediaClockLock .. => true
  | .lossOfLock .. => true
  | .codewordEncodeDone _ info parity => bytesFit 4124 info && bytesFit 484 parity
  | .codewordUnderrun .. => true
  | .sensorSample _ code => decide (code < 4096)
  | .shockClear => true
  | .preampFault .. => true
  | .nop .. => true
  | .ldcmp .. => true
  | .addcmp .. => true
  | .ldlc .. => true
  | .declc .. => true
  | .takerun _ _ w c => decide (w < 512) && cellOk c
  | .nextsec _ _ w c => decide (w < 512) && cellOk c
  | .nextfrag .. => true
  | .skip .. => true
  | .endmember .. => true
  | .endfrag .. => true
  | .tabBeatEnd _ _ w c => decide (w < 512) && cellOk c
  | .edgeQueuePush _ _ w c => decide (w < 512) && cellOk c
  | .edgeEntryApply .. => true
  | .runPush .. => true
  | .runDone .. => true
  | .fmtDoneRead .. => true
  | .revisitExhausted .. => true
  | .courseCommit .. => true
  | .courseBarrier .. => true
  | .capoDataWrite .. => true
  | .capoVerify .. => true
  | .capoVerifyDone .. => true
  | .fmtRunWrite .. => true
  | .formatterReset .. => true
  | .tabMachineCheck _ _ flips => bytesFit 16 flips
  | .sweepStep _ flips => bytesFit 16 flips
  | .sweepPassEnd _ pass => bit32 pass.romCrc && decide (pass.matchFlips.length ≤ 32) && pass.matchFlips.all bit32
  | .servoField _ field => field.x.all (fun x => decide (-64 ≤ x) && decide (x ≤ 63)) && field.pulses.all (fun p => decide (p.2 < 64))
  | .servoTrackEntry .. => true
  | .servoLost .. => true
  | .wedgeTick stamp => bytesFit 8 stamp
  | .revTicksAged => true
  | .servoSourceEnable .. => true
  | .microJob .. => true
  | .headHeld .. => true
  | .laneLost .. => true
  | .settleDone .. => true
  | .followingError .. => true
  | .pesClear .. => true
  | .laneOn .. => true
  | .laneOff .. => true
  | .seekGo .. => true
  | .laneCompareFault _ upset => upsetOk upset
  | .idleComparePass _ upset => upset.all upsetOk
  | .laneReset .. => true
  | .bankSelWrite .. => true
  | .coefficientWrite _ offset _ => decide (0x2000 ≤ offset) && decide (offset < 0x4000) && offset % 4 == 0
  | .learnerDataAccess .. => true
  | .spindleStart .. => true
  | .spindleStop .. => true
  | .senseEnd _ _ speed _ => speedOk speed
  | .preBrakeSample speed => speedOk speed
  | .alignEnd => true
  | .rampLimit => true
  | .zeroCrossing times values => (times.length == values.length) && times.all (bytesFit 8) && values.all (fun v => decide (v.natAbs < 2 ^ 32))
  | .handover => true
  | .commutation _ => true
  | .zcMiss => true
  | .zcLost => true
  | .atSpeed => true
  | .atSpeedLost => true
  | .spinupTimeout => true
  | .brakeStop speed => speedOk speed
  | .wedgeTickTimeout => true
  | .chopperOn vmot => mV vmot
  | .chopperOff vmot => mV vmot
  | .ladderShortBrake vmot => mV vmot
  | .ovp vmot => mV vmot
  | .chopperFault _ measured => mV measured
  | .vmotSwitchOpen vin vmot => mV vin && mV vmot
  | .vmotSwitchClose vin vmot => mV vin && mV vmot
  | .vinHigh vin => mV vin
  | .driverCommand => true
  | .stopMessage => true
  | .retractCmd .. => true
  | .retractDone .. => true
  | .parkedClear .. => true
  | .arbitrationRound => true
  | .hbmRead _ burst => decide (burst < 2 ^ 29)
  | .hbmPartialWrite _ addr len data => decide (0 < len) && decide (addr + len ≤ 2 ^ 34) && bytesFit len data
  | .hbmRefresh => true
  | .pprRequest .. => true
  | .pprDone .. => true
  | .rawRead => true
  | .rawWrite => true
  | .rawOpDone => true
  | .scrubStart => true
  | .sramSweepStart => true
  | .scrubStop reached => decide (reached ≤ 2 ^ 29)
  | .scrubDone => true
  | .flipArm .. => true
  | .flipApply word => decide (word < 2 ^ 22)
  | .coreRelease .. => true
  | .l1Invalidate .. => true
  | .l1InvalidateDone .. => true
  | .l2Fill _ addr _ _ store => decide (addr < 2 ^ 36) && (match store with | some (n, v) => decide (0 < n) && decide (addr % 64 + n ≤ 64) && bytesFit n v | none => true)
  | .l2EvictionWriteback => true
  | .cacheClean .. => true
  | .cacheInvalidate .. => true
  | .cacheCleanInvalidate .. => true
  | .maintenanceDone .. => true
  | .l2Sweep => true
  | .l2SweepDone => true
  | .dmaStart .. => true
  | .dmaDescriptorDone .. => true
  | .dmaTransferError .. => true
  | .dmaDrop .. => true
  | .dmaDrainDone .. => true
  | .lockstepMismatch .. => true
  | .bar0Request _ _ off len data => decide (0 < len) && decide (off + len ≤ 65536) && bytesFit len data
  | .bar2Request _ _ addr len data => decide (0 < len) && decide (addr + len ≤ 2 ^ 32) && bytesFit len data
  | .hwinCommit .. => true
  | .windowDrainDone .. => true
  | .atsTranslationCompletion _ addr len xlat _ _ => bytesFit 8 addr && decide (4096 ≤ len) && decide (len ≤ 2 ^ 30) && bytesFit 8 xlat
  | .atsInvalidate _ addr len tag => bytesFit 8 addr && decide (4096 ≤ len) && decide (tag < 32)
  | .atsInvalidateComplete .. => true
  | .dstateWrite .. => true
  | .wakeEvent .. => true
  | .busMasterDisable .. => true
  | .bmeReadsDrained .. => true
  | .hctlResume .. => true
  | .functionLevelReset .. => true
  | .flrDone .. => true
  | .linkDown .. => true
  | .adminSetupWrite _ off len data => decide (0x1000 ≤ off) && decide (off < 0x1018) && bytesFit len data
  | .controllerEnable .. => true
  | .controllerDisable .. => true
  | .doorbellWrite _ off len data => decide (0x1000 ≤ off) && decide (off + len ≤ 0x1800) && (len == 4 || len == 8) && bytesFit len data
  | .commandFetch _ entry _ => bytesFit 64 entry
  | .completionPost .. => true
  | .read _ media => media.all mediaOk
  | .write _ blocks _ => blocks.all (fun b => decide (b.1 < 2 ^ 34) && bytesFit 4112 b.2)
  | .writeAck .. => true
  | .verify _ media => media.all mediaOk
  | .flush .. => true
  | .flushComplete .. => true
  | .zoneReset .. => true
  | .zoneFinish .. => true
  | .zoneReport .. => true
  | .createQp .. => true
  | .deleteQp .. => true
  | .abort .. => true
  | .eventWait .. => true
  | .identifyController .. => true
  | .identifyNamespace .. => true
  | .getLogHealth .. => true
  | .getLogFwSlots .. => true
  | .getLogDeferredErrors .. => true
  | .getLogEventRecords .. => true
  | .setFeature .. => true
  | .getFeature .. => true
  | .fwDownload _ units => (units.getD []).all (bytesFit 4096)
  | .fwCommitCancel .. => true
  | .fwCommitPending .. => true
  | .fwCommitReset .. => true
  | .fwResetDrainDone => true
  | .trialTimeout => true
  | .bootConfirm .. => true
  | .tempWarn tj => decide (tj < 256)
  | .smbusStatusRead => true
  | .smbusAddressWrite .. => true
  | .smbusRegisterRead => true
  | .secInfoDeviceNonce .. => true
  | .secInfoEnvelopeKeys .. => true
  | .secInfoCertChains .. => true
  | .secInfoRangeTable .. => true
  | .secInfoDebugNonce .. => true
  | .attest .. => true
  | .secOwnerTake _ env => envOk env
  | .secOwnerChange _ env => envOk env
  | .secOwnerSetLock _ env => envOk env
  | .secOwnerClearLock _ env => envOk env
  | .secOwnerRevert _ env => envOk env
  | .secOwnerRaiseSvn _ env => envOk env
  | .secOwnerSetRoster _ env roster => envOk env && decide (roster.length ≤ 32) && roster.all (bytesFit 48)
  | .secRangeDefine _ env => envOk env
  | .secRangeDelete _ env => envOk env
  | .secRangeLock _ env => envOk env
  | .secRangeUnlock _ env => envOk env
  | .secRangeErase _ env => envOk env
  | .mkDiscard .. => true
  | .secDebug _ token _ => bytesFit 8192 (token.getD 0)
  | .getRandom .. => true
  | .secRequest => true
  | .secRequestDone => true
  | .dbgTokenDataWrite .. => true
  | .dbgTokenGo .. => true
  | .debugPortOpen => true
  | .rngTestFail => true
  | .drbgReseed => true
  | .sessionRekey .. => true
  | .oldKeyExpiry .. => true
  | .keyLimitStop .. => true
  | .flitReceive _ _ _ flit => bytesFit 256 flit
  | .linkFlit _ credits _ _ => decide (credits ≤ 64)
  | .creditReturn .. => true
  | .heartbeatSend => true
  | .heartbeatReceive _ hb => decide (hb.role < 4) && bytesFit 8 hb.epoch
  | .memberFailTimeout .. => true
  | .selfFence => true
  | .segmentSignalLoss .. => true
  | .segmentRetrainTimeout .. => true
  | .spliceTimeout => true
  | .spliceRetry => true
  | .ringJoin .. => true
  | .ringLeave => true
  | .leaveTimeout => true
  | .mapCommit order => decide (order.length ≤ 32) && order.all (fun m => decide (m < 32))
  | .mapAccept _ map => bytesFit 136 map
  | .ringFence .. => true
  | .ringRate .. => true
  | .claimSend => true
  | .claimReceive _ epoch => bytesFit 8 epoch
  | .claimWin => true
  | .quorumLoss => true
  | .ringSession _ _ idk => bytesFit 48 idk
  | .ringWrite _ _ number waddr flen parts => frameOk number waddr flen && parts.all (fun p => bytesFit p.len p.data)
  | .ringReadReq _ _ number waddr flen => frameOk number waddr flen
  | .ringReadResp _ number _ => bit32 number
  | .ringAck _ number => bit32 number
  | .ringNack _ number code => bit32 number && decide (code < 256)
  | .frameTimeout number => bit32 number
  | .frameRetry number => bit32 number
  | .layoutCommit .. => true
  | .chordWrite addrs => addrs.all (fun a => decide (a < 2 ^ 34))
  | .chordRead nsid lba strips => nsidOk nsid && lbaOk lba && strips.all mediaOk
  | .stripDataWrite _ _ fail => bytesFit 8 fail
  | .stripParityDelta _ _ fail => bytesFit 8 fail
  | .stripRead _ _ fail => bytesFit 8 fail
  | .stripParityWrite _ _ fail => bytesFit 8 fail
  | .stripDone _ cell fail => decide (cell < 64) && bytesFit 8 fail
  | .stripLost .. => true
  | .stripJournal .. => true
  | .stripRetire .. => true
  | .lockedRetry => true
  | .journalRecover reads => reads.all (fun l => l.all (fun m => m.all mediaOk))
  | .stampRecovery cands => cands.all (fun c => c.2.all (fun m => m.all mediaOk))
  | .rebuildScan strips => strips.all (fun m => m.all mediaOk)
  | .reshapeStart => true
  | .reshapeChordCopy data => data.all mediaOk
  | .reshapeSwitch => true
  | .eventRaise code severity unit => decide (code < 65536) && decide (severity ≤ 4) && decide (unit < 65536)
  | .evrRaiseWrite .. => true
  | .bucketRefill code => decide (code < 65536)
  | .eventArchive => true
  | .evrEnable .. => true
  | .rateLimitWrite offset _ => offset == 0x0000 || offset == 0x0084 || offset == 0x0088
  | .linkTrainingDone _ rate width _ => decide (rate ≤ 6) && decide (width ≤ 2)
  | .aspmLinkStateChange _ lstate => decide (lstate ≤ 4)
  | .segmentTrained _ bypassed => decide (bypassed ≤ 4)
  | .hbmHot temp => decide (temp < 256)
  | .tempWarnRearm tj => decide (tj < 256)
  | .vinHighRelease vin => mV vin
  | .smbusBusTimeout => true

end Sys2Proof
end

