-- ==== Sys2Proof/Tests/Slice0.lean ====
section
/-! SUPPORT. Tests: what the checks of WellFormed refuse, examples that the spec works out, single steps, and for every
obligation with hypotheses a state and operands that meet those of each of its clauses. -/

section

set_option Elab.async false
set_option maxRecDepth 20000
set_option linter.unusedVariables false
set_option linter.all false

open Sys2Proof Sys2Proof.Machine

/-! ## Well-formed commands -/

theorem test_ill_formed_1 : ([.registerWrite 0 (2^32) 4 0,
    .registerWrite 0 0 3 0,
    .counterRead ⟨2^32, 4⟩,
    .counterRead ⟨0, 3⟩,
    .lowHalfRead ⟨2^32, 4⟩,
    .lowHalfRead ⟨0, 16⟩,
    .highHalfWrite ⟨2^32, 4⟩ 0,
    .highHalfWrite ⟨0, 16⟩ 0,
    .sysPorNRise ⟨false, 16, false, 0, false, false⟩,
    .sysPorNRise ⟨false, 0, false, 4, false, false⟩,
    .fuseMapLoad true 256,
    .mainRelease [(3072, 0)] [],
    .mainRelease [(0, 256^128)] [],
    .mainRelease [] [⟨256^16, []⟩],
    .mainRelease [] [⟨0, [256^128]⟩],
    .restoreSave (256^64) 0 ⟨[], 0, 0, 0, 0, 0⟩ ⟨[], 0, 0, 0, 0, 0⟩,
    .restoreSave 0 (256^64) ⟨[], 0, 0, 0, 0, 0⟩ ⟨[], 0, 0, 0, 0, 0⟩,
    .restoreSave 0 0 ⟨[], 0, 0, 0, 0, 0⟩ ⟨[(256, 0, 1)], 0, 0, 0, 0, 0⟩,
    .restoreSave 0 0 ⟨[(0, 262152, 1)], 0, 0, 0, 0, 0⟩ ⟨[], 0, 0, 0, 0, 0⟩,
    .restoreSave 0 0 ⟨[(0, 0, 256)], 0, 0, 0, 0, 0⟩ ⟨[], 0, 0, 0, 0, 0⟩,
    .restoreSave 0 0 ⟨[], 256^8, 0, 0, 0, 0⟩ ⟨[], 0, 0, 0, 0, 0⟩,
    .restoreSave 0 0 ⟨[], 0, 0, 0, 0, 0⟩ ⟨[], 0, 256^4, 0, 0, 0⟩,
    .restoreSave 0 0 ⟨[], 0, 0, 256^8, 0, 0⟩ ⟨[], 0, 0, 0, 0, 0⟩,
    .restoreSave 0 0 ⟨[], 0, 0, 0, 256^4, 0⟩ ⟨[], 0, 0, 0, 0, 0⟩,
    .restoreSave 0 0 ⟨[], 0, 0, 0, 0, 0⟩ ⟨[], 0, 0, 0, 0, 256^4⟩,
    .clockMonitorWindow [(44, 0)],
    .watchdogExpiry (2^20),
    .vinWarn 65536,
    .vinWarnRelease 65536,
    .vinFail 65536,
    .saveCommit 65536 0,
    .saveCommit 0 65536,
    .saveIncomplete 256,
    .vstoreArmed 65536,
    .selfTestDone (2^32),
    .relocation 0 0 0 [] [],
    .relocation 17 0 0 [] [],
    .relocation 1 (2^48) 0 [] [],
    .relocation 1 0 4 [] [],
    .relocation 1 0 0 [⟨48, 0, 0, 0, []⟩] [],
    .relocation 1 0 0 [] [⟨0, 2^24, 0, 0, []⟩]] : List Instr).all (fun c => !c.wf) = true := by decide +kernel

theorem test_ill_formed_2 : ([.loopUpdate 0 0 0 (2^32) [] [],
    .loopUpdate 0 0 0 0 [] [[64]],
    .loopUpdate 0 0 0 0 [] [[], [], [], []],
    .loopUpdate 0 0 0 0 [[0, 0, 0, 0, 0]] [],
    .defectDeclare 0 (2^32) [],
    .defectDeclare 0 5 [[64]],
    .defectDeclare 0 5 [List.replicate 69 0],
    .captureDone 0 ⟨[128], 0⟩ ⟨[], 0⟩ ⟨[], 0⟩,
    .captureDone 0 ⟨[], 0⟩ ⟨[128], 0⟩ ⟨[], 0⟩,
    .captureDone 0 ⟨[], 0⟩ ⟨[], 0⟩ ⟨[], 2^32⟩,
    .eqTapAdapt 0 ⟨2^32, []⟩,
    .eqTapAdapt 0 ⟨0, [[-65]]⟩,
    .syncSearchEnd 0 [[64]],
    .syncSearchEnd 0 [[], [], [], []],
    .resyncSearchEnd 0 8 [],
    .resyncSearchEnd 0 0 [[-65]],
    .codewordEncodeDone 0 (256^4124) 0,
    .codewordEncodeDone 0 0 (256^484),
    .preampFrameDone 0 65536,
    .clockField 0 (2^31) [],
    .clockField 0 0 [64],
    .sensorSample 0 4096,
    .takerun 0 0 0 (2^24),
    .takerun 0 0 512 0,
    .nextsec 0 0 0 (2^24),
    .nextsec 0 0 512 0,
    .tabBeatEnd 0 0 0 (2^24),
    .tabBeatEnd 0 0 512 0,
    .edgeQueuePush 0 0 0 (2^24),
    .edgeQueuePush 0 0 512 0,
    .tabMachineCheck 0 0 (256^16),
    .sweepStep 0 (256^16),
    .sweepPassEnd 0 ⟨2^32, []⟩,
    .sweepPassEnd 0 ⟨0, List.replicate 33 0⟩,
    .sweepPassEnd 0 ⟨0, [2^32]⟩,
    .servoField 0 ⟨0, [64], []⟩,
    .servoField 0 ⟨0, [], [(0, 64)]⟩,
    .laneCompareFault 0 (.message 65536),
    .laneCompareFault 0 (.writeBack (2^32)),
    .laneCompareFault 0 (.state 217 0),
    .laneCompareFault 0 (.state 0 (2^48)),
    .idleComparePass 0 (some (.coef 0x1FFC 0)),
    .idleComparePass 0 (some (.coef 0x2000 (2^32))),
    .wedgeTick (256^8),
    .coefficientWrite 0 0x1FFC 0] : List Instr).all (fun c => !c.wf) = true := by decide +kernel

theorem test_ill_formed_3 : ([.coefficientWrite 0 0x4000 0,
    .coefficientWrite 0 0x2002 0,
    .senseEnd false false (2^21) 0,
    .preBrakeSample (2^21),
    .zeroCrossing [256^8] [0],
    .zeroCrossing [0] [2^32],
    .zeroCrossing [0] [],
    .brakeStop (2^21),
    .chopperOn 65536,
    .chopperOff 65536,
    .ladderShortBrake 65536,
    .ovp 65536,
    .chopperFault false 65536,
    .vmotSwitchOpen 65536 0,
    .vmotSwitchOpen 0 65536,
    .vmotSwitchClose 65536 0,
    .vmotSwitchClose 0 65536,
    .vinHigh 65536,
    .vinHighRelease 65536,
    .hbmRead .media (2^29),
    .hbmPartialWrite .media 0 0 0,
    .hbmPartialWrite .media (2^34) 1 0,
    .hbmPartialWrite .media 0 1 256,
    .scrubStop (2^29 + 1),
    .flipApply (2^22),
    .l2Fill 0 (2^36) false 0 none,
    .l2Fill 0 0 false 0 (some (0, 0)),
    .l2Fill 0 60 false 0 (some (5, 0)),
    .l2Fill 0 0 false 0 (some (1, 256)),
    .bar0Request 0 true 0 0 0] : List Instr).all (fun c => !c.wf) = true := by decide +kernel

theorem test_ill_formed_4 : ([.bar0Request 0 true 65536 1 0,
    .bar0Request 0 true 0 1 256,
    .bar2Request 0 true 0 0 0,
    .bar2Request 0 true (2^32) 1 0,
    .bar2Request 0 true 0 1 256,
    .atsTranslationCompletion 0 (256^8) 4096 0 true true,
    .atsTranslationCompletion 0 0 4095 0 true true,
    .atsTranslationCompletion 0 0 (2^30 + 1) 0 true true,
    .atsTranslationCompletion 0 0 4096 (256^8) true true,
    .atsInvalidate 0 (256^8) 4096 0,
    .atsInvalidate 0 0 4095 0,
    .atsInvalidate 0 0 4096 32,
    .adminSetupWrite 0 0xFFF 1 0,
    .adminSetupWrite 0 0x1018 1 0,
    .adminSetupWrite 0 0x1000 1 256,
    .doorbellWrite 0 0xFFC 4 0,
    .doorbellWrite 0 0x1800 4 0,
    .doorbellWrite 0 0x1000 2 0,
    .doorbellWrite 0 0x1000 4 (2^32),
    .commandFetch 0 (256^64) none,
    .read 0 [.good (256^4112)],
    .write 0 [(2^34, 0)] none,
    .write 0 [(0, 256^4112)] none,
    .verify 0 [.bad 256],
    .fwDownload 0 (some [256^4096]),
    .tempWarn 256,
    .tempWarnRearm 256,
    .hbmHot 256,
    .secOwnerTake 0 (some ⟨true, 256^32, 0, 0⟩),
    .secOwnerChange 0 (some ⟨true, 0, 256^32, 0⟩)] : List Instr).all (fun c => !c.wf) = true := by decide +kernel

theorem test_ill_formed_5 : ([.secOwnerSetLock 0 (some ⟨true, 0, 0, 256^32⟩),
    .secOwnerClearLock 0 (some ⟨true, 0, 0, 256^32⟩),
    .secOwnerRevert 0 (some ⟨true, 0, 0, 256^32⟩),
    .secOwnerRaiseSvn 0 (some ⟨true, 0, 0, 256^32⟩),
    .secOwnerSetRoster 0 (some ⟨true, 0, 0, 256^32⟩) [],
    .secOwnerSetRoster 0 none (List.replicate 33 0),
    .secOwnerSetRoster 0 none [256^48],
    .secRangeDefine 0 (some ⟨true, 0, 0, 256^32⟩),
    .secRangeDelete 0 (some ⟨true, 0, 0, 256^32⟩),
    .secRangeLock 0 (some ⟨true, 0, 0, 256^32⟩),
    .secRangeUnlock 0 (some ⟨true, 0, 0, 256^32⟩),
    .secRangeErase 0 (some ⟨true, 0, 0, 256^32⟩),
    .secDebug 0 (some (256^8192)) ⟨true, true, true⟩,
    .flitReceive true 0 0 (256^256),
    .linkFlit true 65 0 false,
    .heartbeatReceive 0 ⟨0, 4, false, false, 0, 0, false, false⟩,
    .heartbeatReceive 0 ⟨256^8, 0, false, false, 0, 0, false, false⟩,
    .mapCommit (List.replicate 33 0),
    .mapCommit [32],
    .mapAccept 0 (256^136),
    .claimReceive 0 (256^8),
    .ringSession 0 true (256^48),
    .ringWrite true 0 (2^32) 0 0 [],
    .ringWrite true 0 0 (2^32) 0 [],
    .ringWrite true 0 0 0 4113 [],
    .ringWrite true 0 0 0 1 [⟨0, 1, 256⟩],
    .ringReadReq true 0 (2^32) 0 0,
    .ringReadResp 0 (2^32) 0,
    .ringAck 0 (2^32),
    .ringNack 0 (2^32) 0] : List Instr).all (fun c => !c.wf) = true := by decide +kernel

theorem test_ill_formed_6 : ([.ringNack 0 0 256,
    .frameTimeout (2^32),
    .frameRetry (2^32),
    .chordWrite [2^34],
    .chordRead 0 0 [],
    .chordRead 1 (2^48) [],
    .chordRead 1 0 [.bad 256],
    .stripDataWrite 0 0 (256^8),
    .stripParityDelta 0 0 (256^8),
    .stripRead 0 0 (256^8),
    .stripParityWrite 0 0 (256^8),
    .stripDone 0 64 0,
    .stripDone 0 0 (256^8),
    .journalRecover [[[.bad 256]]],
    .stampRecovery [(0, [[.bad 256]])],
    .rebuildScan [[.bad 256]],
    .reshapeChordCopy [.bad 256],
    .eventRaise 65536 0 0,
    .eventRaise 0 5 0,
    .eventRaise 0 0 65536,
    .bucketRefill 65536,
    .rateLimitWrite 4 0,
    .linkTrainingDone 0 7 0 false,
    .linkTrainingDone 0 0 3 false,
    .aspmLinkStateChange 0 5,
    .segmentTrained true 5] : List Instr).all (fun c => !c.wf) = true := by decide +kernel

theorem test_well_formed : ([.registerWrite 0 0x40000014 4 0, .sysPorNLow, .read 3 [.good 5, .bad 0x14], .ringAck 2 7,
    .chordRead 1 100 [.good 1], .write 3 [(0x4000, 9)] none, .stripRead 2 5 0, .servoField 1 ⟨-5, [63, -64], [(640, 40)]⟩,
    .laneCompareFault 0 (.state 192 1)] : List Instr).all Instr.wf = true := by
  decide +kernel

/-- No row of the table gives bits, so no word spells a command. -/
theorem test_no_word : decodeTableWord 32 0x12345678 = none := rfl

/-! ## Examples the spec works out -/

/-- 03, the example under R82: V, D and mid of a band with CELLS = 104,166, and the fragments of sector 2. -/
theorem test_band_cells : vCells 104166 = 6511 ∧ dCells 104166 = 97271 ∧ midBits 104166 = 97184 := by decide

theorem test_sector_two : (sectorFrags 104166 2).map (fun f => (f.wedge, f.pos, f.bitsN)) = [(0, 73952, 23200), (1, 0, 13664)] := by
  decide +kernel

/-- 08, the example under R214: the Gray code of track 499,989. -/
theorem test_gray : grayDecode 0x04719F = 499989 := by decide +kernel

/-- 11, the example under R294: Δt = 1,600,000 ticks gives W = 11. -/
theorem test_cap_window : capWindow 1600000 = 11 := by decide +kernel

/-- 19, the example under R487: volume block 100 with k = 4 lies in owned chord 0, d1, offset 36. -/
theorem test_chord_place : (Layout.place ⟨0, 0x7F, 4, 2, 1, 0, 7, []⟩ 100) = (0, 1, 36) := by decide

/-- The same example: M4 fails in row 2, and d1 passes to M6; M6 fails as well, and d1 is unspared. -/
theorem test_chord_fails : failEntry [0, 4, 1, 5, 2, 3, 6] 6 7 4 [4] 6 [0, 4, 1, 5, 2, 3] [] = ([0, 6, 1, 5, 2, 3], [6]) ∧
    failEntry [0, 4, 1, 5, 2, 3, 6] 6 7 6 [4, 6] 6 [0, 6, 1, 5, 2, 3] [6] = ([0, 0xFF, 1, 5, 2, 3], [6]) := by decide

/-- 04, the example under R116: the drop-out declared at read cell 23,245 opens the window at 23,230, and at the end of the
first fragment 98 read cells are erased. -/
theorem test_drop_out : dropOutAt (40 * 30 / 100) 16 (List.replicate 19 11) = true ∧
    dropOutAt (40 * 30 / 100) 16 (List.replicate 18 11) = false ∧
    Slot.erasedIn { slotInit with window := some (23230, 23295) } 0 37008 = 98 := by decide

/-- 04 R112: a mean magnitude of TA_LEVEL is an asperity. -/
theorem test_asperity : thermalAt 24 [-30, -18, -24, -24, -24, -24, -24, -24, 60] = true ∧ thermalAt 24 (List.replicate 8 23) = false := by
  decide

/-- 05 R136, R138: the marks' own cells have distance 0, an erased cell adds 1. -/
theorem test_marks : markDist 0xB38E 16 ((List.range 16).map (fun k => ⟨if hasBit 0xB38E (15 - k) then 9 else -9, false⟩)) = (0, 0) ∧
    markDist 0x1ED45F71 32 ((List.range 32).map (fun k => ⟨if hasBit 0x1ED45F71 (31 - k) then 0 else -1, k == 3⟩)) = (1, 1) := by
  decide

/-- 04 R117: a single element with weight 1.0 passes, ties go away from zero, and both ends saturate. -/
theorem test_combined : combined [0, 0x4000, 0] [5, -37, 9] = -37 ∧ combined [0x2000, 0, 0] [-5, 0, 0] = -3 ∧
    combined [0x7FFF, 0x7FFF] [63, 63] = 63 := by decide

/-- 03, the example under R91: the places of n = 6,000 and n = 70,000 in a zoned extent of width 4 and U 1,328. -/
theorem test_extent : (Extent.place ⟨0, 26, 0, 1, 1, 0, 4, true, [0, 1, 2, 3], 1328⟩ 6000) = (1, 3, 160) ∧
    (Extent.place ⟨0, 26, 0, 1, 1, 0, 4, true, [0, 1, 2, 3], 1328⟩ 70000) = (13, 3, 1104) := by decide

/-- 08, the example under R216: the pair AB lies beyond half a track, the pair CD gives phi 1,280 and track 499,989. -/
theorem test_chevron : pairPhi [0, 4882, 9765, 14648] [30517, 35400, 40283, 45165] = -2817 ∧
    pairPhi [180053, 184935, 189818, 194701] [204060, 208942, 213825, 218708] = 1280 ∧
    chevron 104166 499989 [0, 4882, 9765, 14648] [30517, 35400, 40283, 45165] [180053, 184935, 189818, 194701]
      [204060, 208942, 213825, 218708] = some (1, 499989 * 4096 + 1280) := by decide +kernel

/-- 05 R127, R129: a single tap of 1.0 at x(k) passes the sample; a flagged sample counts as 0 and its flag goes on. -/
theorem test_equaliser : equaliserOut (fun _ => [(14, 0x4000)]) [[], [⟨-37, false⟩, ⟨60, true⟩], []] 2 =
    [⟨-37, false⟩, ⟨0, true⟩] := by decide +kernel

/-- 06 R163: the first transition follows a run of 4, later ones the runs before them, and none comes closer than 16/64 cell. -/
theorem test_transitions : writeEdges (fun r => if r = 4 then 30 else -40) true 0 [false, true, false, true] = [94, 110, 152] ∧
    writeEdges (fun _ => 30) false 2 [true, true, false] = [2, 130] := by decide +kernel

/-- 01 R31: 0.9 V gives code 2,048, 0.1 V code 0, and 1.7 V saturates at 4,095. -/
theorem test_sensor_code : sensorCode 2304000 = 2048 ∧ sensorCode 256000 = 0 ∧ sensorCode 4352000 = 4095 := by decide

/-- 01 Table MOD-8: before the straps rise CLKREQ_N is driven low and the SMBus pins are released. -/
theorem test_pins : State.clkreqN State.reset 0 = .low ∧ State.smbPins State.reset = .highZ ∧
    State.bridgeThrough State.reset = false := by decide +kernel

/-! ## Single steps -/

/-- The machine after reset with buffer memory and the cores' domains on. -/
def upState : State :=
  (State.reset.put Reg.BUF_STATUS_TRAINED 1).setPwr { State.reset.pwr with dom := [(92, .on)], clkStopped := 0 }

/-- A property of the state that a step answers. -/
def steps (c : Instr) (s : State) (p : State → Bool) : Bool :=
  match step { s with pending := c :: s.pending } with
  | .next t => p t
  | _ => false

theorem test_idle : step State.reset = .next State.reset := rfl

theorem test_first_in_first_out : steps .pllLock { State.reset with pending := [.nutStart] } (fun t => t.pending == [.nutStart]) = true := by
  decide +kernel

theorem test_partial_write : steps (.hbmPartialWrite .media 100 2 0xABCD) upState (fun t => t.loadMem 100 2 == 0xABCD && t.loadMem 102 1 == 0) = true := by
  decide +kernel

theorem test_width_bus_error : steps (.registerWrite 0 0x404000C4 2 5) State.reset (fun t => t.resp == .busError) = true := by
  decide +kernel

theorem test_soft_reset_key : steps (.softReset 0x5A5B0001#32) State.reset (fun t => t.pwr == State.reset.pwr) = true := by
  decide +kernel

theorem test_straps : steps (.sysPorNRise ⟨true, 5, false, 2, false, true⟩) State.reset
    (fun t => t.get Reg.SYS_STRAP_ACT == 5 && t.get Reg.SYS_STRAP_SMB_ADDR == 2 && t.pwr.step == 1) = true := by decide +kernel

theorem test_no_chord_write : steps (.chordWrite [0x40]) State.reset (fun t => t.chd == State.reset.chd) = true := by decide +kernel

/-! ## Witnesses: states and operands that meet the hypotheses of the obligations -/

def tPeg : Nat := 2 ^ 16 + 3 * 2 ^ 24 + 20000 * 2 ^ 64
def tLatched : Latched := ⟨true, true, true, 1, 2, 3, 0, 0, 0, 0, 0, 0, 0, 0, 1, true, 2, 3, 4, 5, 6, 7, 0⟩
def tMember (i : Nat) : Member := ⟨2, 7, 12 * (i / 4) + 2, 1, tPeg, 20000, false, false, true, 0, tLatched⟩
def tSect : Sect := { psi := 4, rid := 1, idx := 0, listAddr := 4096, req := 0, band := 1, sec := 9, cells := 104166, mask := 2, t0 := 16, t1 := 28, t2 := 12, retryTag := 2, secondLook := true, timedAll := true, maxCand := 3, syncThr := 4, resyncThr := 5, sched := 1, taps := [], tapLog := [], got := 0, since := none, rc0 := 10, rcN := 100, captured := false, erased := 0, attempts := none, resync := [], fast := none, deep := false }
def tWr : WrSect := ⟨3, 1, 0, 4, 0, 7, 0, false, false, 1, false, 0⟩
def tSeal (n : Nat) : Nat := n + popCount 64 (n % 2 ^ 64) % 2 * 2 ^ 63 + popCount 64 (n / 2 ^ 64) % 2 * 2 ^ 127
def tOp (op imm low : Nat) : Nat := tSeal (op * 2 ^ 64 + imm * 2 ^ 68 + low)
def tThread : Thread := { threadInit with patch := true, cmpW := 3, cmpC := 40, lc0 := 5, lc1 := 0 }
def tFmt (b : State) (w : Nat) : State :=
  ((((b.setPwr { b.pwr with dom := [(81, .on)] }).put (Reg.FMT_CTL_RUN 1) 1).put (Reg.FMT_MCHK_VALID 1) 0).modFmt 1 (fun m =>
    { m with threads := [(2, tThread)], patch := [(0, w)] })).modSlot 6 (fun x => { x with mem := some (tMember 6) })
def tRun : Run := ⟨7, 5, 4096, 0, 3, true, [], [], 0, 1, [], [], []⟩
def tCur : Cur := ⟨9, 7, 1, 1, 0⟩
def tZeroCrc : Nat := crc32 (List.replicate 4224 0)
def tBit (wb : Nat) (sc : Nat) : Bool :=
  if 128 ≤ sc ∧ sc < 144 then !hasBit 0x0F3C (143 - sc) else if 144 ≤ sc ∧ sc < 184 then hasBit wb (9 - (sc - 144) / 4) else false
def tFieldOf (lo hi wb : Nat) : ServoField :=
  ⟨scCell 20000 (2 * lo), (List.range (scCell 20000 (2 * hi) - scCell 20000 (2 * lo)).toNat).map (fun k =>
    if tBit wb ((2 * ((scCell 20000 (2 * lo)).toNat + k) + 1) * 16384 / 40000) then -40 else 40),
    (List.range 4).map (fun k => (((23500 + 937 * k : Nat) : Int), 60)) ++ (List.range 4).map (fun k => (((28497 + 937 * k : Nat) : Int), 60))⟩
def tField : ServoField := tFieldOf 96 280 18
def tShort (wb : Nat) : ServoField := tFieldOf 127 184 wb
def tFRead (f : ServoField) (w : Option Nat) : FieldRead := readField f 20000 2 40 w
def tServo (b : State) (st : Nat) : State :=
  ((((((((b.put (Reg.SRV_STATUS_STATE 1) (16 * st)).putSrc 6 { srcInit with head := some 2, wedge := 9 }).modSlot 6 (fun x =>
    { x with mem := some (tMember 6), sg := true, rg := false, gate := false })).put (Reg.SRV_SCTL_SAM_THR 1) 2).put (Reg.SRV_CTL_SAM_WIN 1) 4).put
    (Reg.SRV_CTL_SAM_WIN_ACQ 1) 4).put (Reg.SRV_SCTL_S_TARGET 1) 40).put (Reg.SRV_BADW_BAD 1 2 0) 0)
def tSample : Sample := ⟨6, 2, 7, 0, 0, 100, none, none, true, false⟩
def tLane (b : State) (ph : Nat) : State :=
  ((((((((b.put (Reg.CTL_LANE_STATUS_PHASE 1) ph).put (Reg.CTL_LRN_CTL_APPLY0 1) 0).put (Reg.CTL_LRN_CTL_APPLY1 1) 0).put
    (Reg.CTL_LRN_CTL_LEARN 1) 0).put (Reg.CTL_WU_THR 1) 500).setLaneIn [(1, [tSample])]).setPwr { b.pwr with clkStopped := 0 }).put
    Reg.SYS_CLK_FAULT0_FAULT 0).modLane 1 (fun l => { l.both (fun c => { c with coef := [(0x2004, 8), (0x3008, 9)], live := [(0, 5)], micro := [], vcm := [], integ := 3 }) with old := [], bound := true, feDue := false, heldHeads := 0, inv := [], empty := 0, settle := 0, clean := 0, fresh := false, go := none })
def tClk (b : State) : State := ((b.setPwr { b.pwr with clkStopped := 0 }).put Reg.SYS_CLK_FAULT0_FAULT 0).put Reg.SYS_CLK_FAULT1_FAULT 0
def tHbm (b : State) : State := (b.put Reg.BUF_STATUS_TRAINED 1).setPwr { b.pwr with dom := [(92, .on)] }
def tHb (b : State) : State := tHbm (tClk (b.setBuf { b.buf with ppr := none, selfRef := false, waiting := [] }))
def tErr : Nat := 2057280375
def tL2 (b : State) : State :=
  (((((b.setBuf { b.buf with flips := [], selfRef := false }).put Reg.CCH_STATUS_RUNNING 4).put Reg.CCH_STATUS_INIT_BUSY 0).put Reg.BUF_STATUS_TRAINED 1).setPwr
    { b.pwr with clkStopped := 0, dom := [(91, .on), (92, .on), (93, .on)] }).put Reg.SYS_CLK_FAULT0_FAULT 0 |>.modCore (fun c => { c with l2 := [(16 + 5, ⟨0x10000001, false, 77⟩)], l1On := 0, l1 := [], l1Junk := 0, evict := [] })
def tL1 (b : State) : State := (tL2 b).modCore (fun c => { c with l1On := 16, l1 := [(l1Key 2 false 0x10000001, ⟨77, 3⟩)] })
def tMnt (b : State) : State :=
  ((((tL2 b).put (Reg.CCH_MNT_LEN_COUNT 1) 16).put (Reg.CCH_MNT_ADDR_LO_ADDR 1) 0).put (Reg.CCH_MNT_ADDR_HI_ADDR 1) 4).put
    (Reg.CCH_MNT_CTL_BUSY 1) 0
def tDesc : Nat := 0x400002010 * 2 ^ 64 + 24 * 2 ^ 128 + 1 * 2 ^ 160 + 5 * 2 ^ 176 + 24 * 2 ^ 192 + 24 * 2 ^ 224 + 0x1122334455667788 * 2 ^ 320 + 0xABCD * 2 ^ 384
def tDma (b : State) : State :=
  ((((b.put Reg.BUF_STATUS_TRAINED 1).setPwr { b.pwr with dom := [(91, .on), (92, .on)] }).put (Reg.DMA_CH_STATUS_STATE 3) 0).put
    (Reg.DMA_CH_DESC_LO_ADDR 3) 0x40).put (Reg.DMA_CH_DESC_HI_ADDR 3) 4 |>.storeMem 0x1000 tDesc 64
def tPort (b : State) : State := (b.put (Reg.HST_LINK_MSE 1) 1).put (Reg.HST_LINK_DSTATE 1) 0
def tWinRaw : Nat := 0x2000 + 13 * 2 ^ 32 + 7 * 2 ^ 40 + 7 * 2 ^ 48 + 0x10000 * 2 ^ 64 + 2 ^ 128
def tWin (b : State) : State :=
  ((tPort b).put Reg.BUF_STATUS_TRAINED 1).setPwr { b.pwr with dom := [(92, .on)] } |>.setWinLive [(2, ⟨tWinRaw, 4, true⟩)]
def tAts (b : State) (sp : Bool) : State :=
  (((b.put (Reg.HST_LINK_ATS_EN 1) 1).setAtsReq [⟨1, 0x11000, sp⟩]).setAts [⟨1, 0x11000, 4096, 0x70000, true, true⟩, ⟨0, 0x11000, 4096, 0x70000, true, true⟩]).setPairs
    [(65536, ⟨0x1000, 0x2000, 8, 8, 3, true, 0, 2, 0, 0, true⟩), (65537, ⟨0x3000, 0x4000, 8, 8, 3, true, 0, 2, 0, 0, true⟩)]
def tSqe (opc flags cid nsid len slba : Nat) : Nat :=
  opc + flags * 2 ^ 8 + cid * 2 ^ 16 + nsid * 2 ^ 32 + len * 2 ^ 64 + slba * 2 ^ 128 + 0x9000 * 2 ^ 192 + 2 ^ 256
def tCmd (p q opc nsid : Nat) : Cmd := ⟨p, q, 5, tSqe opc 0 5 nsid 1 0x20000, none, [(0x9000, 4112)], 1, false, false, [], (0, 0), false⟩
def tAdm (opc dw2 rest : Nat) : Cmd := ⟨1, 0, 6, opc + 6 * 2 ^ 16 + dw2 * 2 ^ 64 + 0x9000 * 2 ^ 192 + 2 ^ 256 + rest, none, [(0x9000, 8192)], 1, false, false, [], (0, 0), false⟩
def tRdy (b0 : State) : State :=
  let b := tClk b0
  (((((((tAts b false).setPwr { b.pwr with step := 11, dom := [(92, .on)], dev := .active }).put (Reg.HCTL_EN 1) 1).put (Reg.HST_LINK_BME 1) 1).put
    (Reg.HSTS_BML 1) 0).put (Reg.HST_LINK_DSTATE 1) 0).put (Reg.IQI_NS_CTL_EN 1) 1).put Reg.BUF_STATUS_TRAINED 1 |>.setPairs
    [(65536, ⟨0x1000, 0x2000, 8, 8, 3, true, 0, 0, 0, 0, true⟩), (65537, ⟨0x3000, 0x4000, 8, 8, 3, true, 0, 2, 0, 0, true⟩)]
def tIo (b : State) (opc : Nat) (buf : Bool) : State :=
  ((((tRdy b).setCmds [(30, tCmd 1 1 opc 1)]).put (Reg.IQI_NS_CONV_CONV 1) 0).put (Reg.IQI_NS_CTL_DEF_ACK 1) 1).setMedia { b.media with written := [(lbaKey 1 0x20000, 3)] }
    |>.modSpt (fun p => { p with zones := [(zoneKey 1 2, ⟨5, 1⟩)] }) |>.setCache (if buf then [(0x40, ⟨1, 0x20000, 9, 1, none, true, none⟩)] else []) |>.setPwr { (tRdy b).pwr with headsLoaded := true }
def tRes (b : State) : State := (List.range 5).foldl (fun s c => s.put (Reg.BUF_RES_GBPS c) (10 + 20 * c)) (tHbm b)
def tCommit (b : State) : State :=
  ((((b.modSec (fun x => { x with ownerLock := false })).put Reg.SPT_STATUS_WARN 0).put Reg.CHD_STATUS_REBUILD 0).put Reg.CHD_STATUS_RESHAPE 0).put Reg.MTR_SPN_STATUS_STATE 5
    |>.put Reg.SPT_VSTORE_VSTORE 33000 |>.modSpt (fun p => { p with passed := true })
def tDescr : Nat := 1 + 2 ^ 16 + 7 * 2 ^ 32 + 4096 * 2 ^ 64 + 16 * 2 ^ 96
def tHdr : Nat := 0x49585058 + 2 ^ 32 + 2 ^ 48 + 8192 * 2 ^ 64 + tDescr * 2 ^ 128
def tPkg : FwPkg := ⟨1, 8192, [tDescr], [0], [(tHdr, 0)]⟩
def tTokOf (y : Nat) : Nat := 0x49584454 + 2 ^ 32 + 5 * 2 ^ 56 + y * 2 ^ 64 + 77 * 2 ^ 192
def tTok : Nat := tTokOf (Config.serial % 256 ^ 16)
def tDbg (b : State) : State :=
  (((tRdy b).put Reg.DBG_STATUS_BUSY 0).put Reg.SEC_STATUS_RNG_FAIL 0).modSec (fun x => { x with ownerLock := false, dbgNonce := some 77, dbgOpened := false, dbgWait := none })
def tEnv : EnvRes := ⟨true, 5, 6, 9⟩
def tOwn (b : State) (o : Bool) : State :=
  ((((tRdy b).put Reg.SEC_STATUS_RNG_FAIL 0).put Reg.SEC_STATUS_TRY_LOCK 0).put Reg.SEC_STATUS_TRIES 7).modSec (fun x => { x with owned := o, ownerLock := false, cred := 5, nonce := some 9, dbgOpened := false, dbgWait := none, ranges := [] })
    |>.put (Reg.IQI_NS_CAP_LO_CAP 1) 0x80000
def tPkg9 : FwPkg := ⟨1, 8192, [tDescr], [0], [(tHdr, 9 * 2 ^ 64)]⟩
def tRng (op r : Nat) : Cmd := ⟨1, 0, 6, 0x83 + 6 * 2 ^ 16 + 2 ^ 32 + 2 * 2 ^ 64 + 0x20000 * 2 ^ 128 + 0x9000 * 2 ^ 192 + 2 ^ 256 + op * 2 ^ 320 + r * 2 ^ 328 + 3 * 2 ^ 336, none, [(0x9000, 8192)], 1, false, false, [], (0, 0), false⟩
def tRing (b : State) (x : Nat) : State :=
  (((tRdy b).put Reg.RING_STATUS_SWITCH 1).modSec (fun y => { y with roster := [Config.idkHash % 256 ^ 48, 11, 12, 13], dbgOpened := false })).modRing (fun r => { r with sessions := [(2, ⟨2147483648, 0, none, false, false⟩)], ports := [(0, ⟨true, false, 5 * x, 0, [], [], 0, 0⟩), (1, ⟨true, false, 5 * x, 0, [], [], 0, 0⟩)] })
def tFlit (ty fl dst src : Nat) : Nat := ty + fl * 2 ^ 8 + dst * 2 ^ 16 + src * 2 ^ 24
def tMapRec (e mgr : Nat) : Nat := mapRecord e 5 1 mgr 0 2 [(mgr, 0), (0, 0), (3, 0)]
def tMap (b : State) (m : Nat) : State := (tRing b 1).modRing (fun r => { r with map := some (tMapRec 8 m), alive := [(0, ⟨8, 1, true, false, 1, 2, false, false⟩), (3, ⟨8, 1, true, false, 1, 2, false, false⟩)] })
def tClaim (b : State) : State :=
  ((((tRing b 1).modSec (fun y => { y with roster := [Config.idkHash % 256 ^ 48], dbgOpened := false })).modRing (fun r => { r with map := none, alive := [], rosterBad := false })).modAdm (fun a => { a with mode := 0 })).put Reg.SYS_STRAP_MGR_SEL 1
    |>.put Reg.RING_STATUS_TRANSIT 0 |>.put Reg.RING_STATUS_ROLE 1
def tFrame (b : State) : State :=
  ((((tRing (tWin b) 1).setWinLive [(2, ⟨tWinRaw + 4 * 2 ^ 128, 4, true⟩)]).modSec (fun y => { y with roster := [] })).modRing (fun r => { r with rosterBad := false })).modAdm (fun a => { a with mode := 0 })
    |>.put Reg.RING_STATUS_TRANSIT 0 |>.put Reg.CHD_STAGE_LO_ADDR 0x4000 |>.put Reg.CHD_STAGE_HI_ADDR 0 |>.put Reg.CHD_STAGE_SLOTS_SLOTS 4
def tFr : RFrame := ⟨8, 2, 1, 0, 137, 9, 1, 0, .none⟩
def tLay : Layout := ⟨5, 0xD, 2, 1, 0, 0, 6, []⟩
def tChd (b : State) : State :=
  (((((((((((((tMap b 2).modSec (fun y => { y with roster := [] })).put Reg.CHD_CTL_EN 1).put Reg.CHD_STATUS_READY 1).put Reg.CHD_STATUS_ACTIVE 0).put Reg.CHD_STRIP_P 12).put
    Reg.CHD_STRIP_NSID 1).put Reg.CHD_STAGE_LO_ADDR 0x4000).put Reg.CHD_STAGE_HI_ADDR 0).put Reg.CHD_STAGE_SLOTS_SLOTS 4).put Reg.CHD_STATUS_LOST_FULL 0).put Reg.CHD_CFG_STATUS_ERR 0).put Reg.CHD_CTL_SLOT 1)
    |>.modChd (fun x => { x with layouts := [(0, tLay)], jid := 7, inbox := [133] }) |>.modSpt (fun p => { p with taking := true, frozenJW := false, journal := [] })
    |>.put Reg.CHD_VOL_VOL_NS 1 |>.put Reg.CHD_VOL_ADOPT_NS 2 |>.put Reg.CHD_VOL_ADOPT_EN 1 |>.put Reg.CHD_STATUS_ADOPTED 3
def tOwnChd (b : State) : State := (tChd b).modSec (fun y => { y with roster := [Config.idkHash % 256 ^ 48] })
def tHeld (t : Nat) : Nat := ((List.range 6).find? (fun c => tLay.holder [] c t == 0)).getD 0
def tCellV (op t count : Nat) : Nat :=
  (tChd .reset).cellBytes { mkReq 0 op 0 (tHeld t) t 10 count 7 [] 1 .none with coef := 3, tag := 9, mask := 2 ^ 10, recd := jnlRecord 7 1 2 1 0 10 2 4 0 8 5 } 1
def tCell (b : State) (op t count : Nat) : State :=
  ((tChd b).storeMem (0x4000000 + cellOff 2 5) (tCellV op t count) 128).storeMem (0x4000000 + 32 * 8192 + (2 * 4 + 1) * 4112) 0x1234 8
def tCache (b : State) : State := (tChd b).setCache [(0x40, ⟨2, 5, 9, 1, none, true, none⟩), (0x41, ⟨2, 6, 9, 1, none, true, none⟩)]
def tGood (n : Nat) : List MediaRes := (List.range n).map (fun i => .good (i + 3))
def tRq (op t : Nat) : StripReq := { mkReq 0 op 0 (tHeld t) t 10 2 7 [5, 6] 1 .none with place := some (64, 0), sent := true }
def tJnl (t : Nat) : Nat := jnlRecord 7 1 3 t 0 10 2 (tHeld 2) 0 8 5
def tLay1 : Layout := ⟨5, 0xF, 2, 1, 1, 0, 8, [1]⟩
def tScanC : Nat × Nat × Nat := (((List.range 4).flatMap (fun o => (List.range 2).flatMap (fun u => (List.range 3).map (fun i => (o, u, i))))).find? (fun x =>
  x.1 ≠ 1 && tLay1.holder [1] (tLay1.owned x.1 x.2.1) x.2.2 == 0 && tLay1.holder [] (tLay1.owned x.1 x.2.1) x.2.2 == 1)).getD (0, 0, 0)
def tScan : Scan := ⟨tScanC.1, 0, tScanC.2.1, [1], none⟩
def tScanI : Nat := tScanC.2.2
def tScanS (b : State) : State := (tOwnChd b).modChd (fun y => { y with scans := [tScan], layouts := [(0, tLay1)] })
def tPc : PkgCheck := ⟨true, true, true, true⟩
def tSlot (b : State) : State :=
  ((b.setPwr { b.pwr with step := 4, stopped := false }).modAdm (fun x => { x with noSlot := false, recovery := some tPkg9 })).put Reg.SYS_STRAP_ACT 1 |>.put Reg.SYS_STRAP_BOOT_RCV 1 |>.modSec (fun x => { x with svn := some 3 })
def tPd (b : State) : State :=
  ((((b.put (Reg.SYS_PD_REQ_ON 0) 0).put (Reg.SYS_PD_REQ_ON 1) 0).put (Reg.SYS_PD_REQ_ON 2) 0).put Reg.SYS_CFG_STATUS_ERR 0).setPwr { b.pwr with dom := [] }
def tRead : SaveRead := ⟨[], 0, 0, 0, 0, 0⟩
def tArea : SaveArea := ⟨5, 1, 2, 8256, false, 0, 0, 0, [], [], [], [], [], [], 0, [], []⟩
def tSpt (b : State) : State :=
  ((((((((b.put Reg.SPT_CTL_PERIOD_H 8).put Reg.SPT_CTL_WIN_LIMIT 4).put Reg.SPT_CTL_WIN_EN 1).put Reg.SPT_STATUS_TESTING 0).put
    Reg.SPT_STATUS_WARN 0).put Reg.SPT_STATUS_FAIL 0).put Reg.SPT_VSTORE_VSTORE 33000).put Reg.SPT_STATUS_TESTING 0)

theorem own_zero (s : State) (l : List Nat) (h : s.sec.roster = Config.idkHash % 256 ^ 48 :: l) : s.own = some 0 := by
  simp [State.own, h, List.findIdx?_cons]


theorem tok_lt (y : Nat) (h : y < 256 ^ 16) : tTokOf y < 256 ^ 64 := by
  simp only [tTokOf, Nat.reducePow, Nat.reduceMul, Nat.reduceAdd] at *
  omega

theorem tok_fields (y : Nat) (h : y < 256 ^ 16) : bytesAt (tTokOf y) 0 4 = 0x49584454 ∧ bytesAt (tTokOf y) 4 2 = 1 ∧
    bytesAt (tTokOf y) 8 16 = y ∧ bytesAt (tTokOf y) 0x18 32 = 77 := by
  simp only [tTokOf, bytesAt, Nat.reducePow, Nat.reduceMul, Nat.reduceAdd] at *
  omega

theorem tok_ok (s : State) (x : Nat) (h1 : s.flag Reg.SEC_STATUS_RNG_FAIL = false) (h2 : s.sec.ownerLock = false)
    (h3 : s.sec.dbgNonce = some 77) (hx : x = tTok) : s.tokReason x ⟨true, true, true⟩ = 0 := by
  obtain ⟨a, b, c, d⟩ := tok_fields (Config.serial % 256 ^ 16) (Nat.mod_lt _ (by decide))
  rw [← tTok, ← hx] at a b c d
  unfold State.tokReason
  rw [h1, h2, h3, if_neg Bool.false_ne_true, if_neg Bool.false_ne_true, if_pos ⟨a, b, c, by rw [d], rfl, rfl, rfl⟩]

theorem held_one (s : State) (x : Nat) (h : s.sec.token = [(0, x)]) : s.heldToken = x := by
  simp [State.heldToken, h]

theorem tTok_lt : tTok < 256 ^ 64 := tok_lt _ (Nat.mod_lt _ (by decide))

theorem data_getD (o : Option (List Nat)) (h : o.isSome = true) : o = some (o.getD []) := by
  cases o with
  | none => cases h
  | some x => rfl

def tCap (b : State) (m : Member) (g : Slot → Slot) : State :=
  (((b.put (Reg.CHN_FE_CTL_HOLD_ALL 5) 0).put (Reg.SRV_STATUS_STATE 1) 12).modSlot 5 (fun x =>
    g { x with mem := some m, rg := true, sg := false, gate := false, window := none, windows := [], hist := [],
               sects := [(1, tSect)] }))
def tTa : Member := { tMember 5 with set := { tLatched with doEn := false, taEn := true, taLevel := 24 } }
def tDo : Member := { tMember 5 with set := { tLatched with doEn := true, taEn := false, target := 40, doPct := 30, doLen := 16 } }

def tSkip (b : State) (r : Run) (lk : Bool) (sects : SMap Sect) : State :=
  (((((tFmt b (tOp 10 0 0)).putThread 1 2 { tThread with cur := some tCur }).modFmt 1 (fun m => { m with cur := [(2, r)] })).modSlot 6
    (fun x => { x with sects := sects, fifo := [] })).putB (Reg.CHN_MC_STATUS_LOCKED 6) lk).put Reg.SYS_CLK_FAULT0_FAULT 0

def tPush (b : State) (w : Nat) (g : Slot → Slot) : State :=
  (((tFmt b 0).putThread 1 2 { tThread with word := some w, pushDue := true, cur := some tCur }).modFmt 1 (fun m =>
    { m with cur := [(2, tRun)] })).modSlot 6 (fun x => g { x with fifo := [], discard := none, gate := false })
def tSafe (b : State) (g : Slot → Slot) : State :=
  ((((((((((b.modSlot 6 (fun x => g { x with mem := some (tMember 6), sects := [] })).put (Reg.CTL_LANE_STATUS_PHASE 1) 3).put
    (Reg.CHN_PA_STATUS_FAULT 1) 0).put (Reg.CHN_PA_STATUS_VERIFY_ERR 1) 0).put Reg.SPT_STATUS_WARN 0).put
    Reg.SYS_CLK_FAULT0_FAULT 0).put (Reg.FMT_MCHK_VALID 1) 0).put (Reg.CHN_WR_CTL_INHIBIT 6) 0).put
    (Reg.CHN_MC_STATUS_LOCKED 6) 1).put (Reg.SRV_STATUS_STATE 1) 0).put (Reg.FMT_CTL_REVISIT 1) 5

theorem witness_StepRunsFront :
    ∃ (s : State),
    s.pending = [] :=
  ⟨(fun b : State => b) .reset, by decide +kernel⟩

def W.RegisterWrites_3 (b : State) : State := b.setPwr { b.pwr with dom := [(90, .on), (92, .on), (93, .on)] }

theorem witness_RegisterWrites :
    (∃ (req : Fin 5) (addr : Nat) (size : Nat) (v : Word) (s : State),
    size ≠ 4) ∧
    (∃ (req : Fin 5) (addr : Nat) (v : Word) (s : State),
    s.busFails addr = true) ∧
    (∃ (req : Fin 5) (addr : Nat) (v : Word) (s : State) (u : State),
    s.busFails addr = false ∧ (s.answer .none).writeRow req.val addr (canon addr) v.toNat = some u) ∧
    (∃ (req : Fin 5) (v : Word) (s : State),
    v.toNat < 2 ^ 29) ∧
    (∃ (req : Fin 5) (addr : Nat) (r : RegDef) (v : Word) (s : State),
    s.busFails addr = false ∧ (s.answer .none).writeRow req.val addr (canon addr) v.toNat = none ∧ isLow (canon addr) = false ∧ isHigh (canon addr) = false ∧ ((canon addr / 0x100000 = 0x40C → canon addr % 0x40000 ≠ 0x40)) ∧ regAt (canon addr) = some r ∧ r.check v.toNat ≠ 0) ∧
    (∃ (req : Fin 5) (addr : Nat) (r : RegDef) (v : Word) (s : State),
    s.busFails addr = false ∧ (s.answer .none).writeRow req.val addr (canon addr) v.toNat = none ∧ isLow (canon addr) = false ∧ isHigh (canon addr) = false ∧ regAt (canon addr) = some r ∧ r.check v.toNat = 0 ∧ (s.answer .none).writeCode (canon addr) v.toNat = 0) ∧
    (∃ (req : Fin 5) (addr : Nat) (v : Word) (s : State),
    s.busFails addr = false ∧ (s.answer .none).writeRow req.val addr (canon addr) v.toNat = none ∧ isLow (canon addr) = true) ∧
    (∃ (addr : Nat) (lo : Nat) (r : RegDef) (r' : RegDef) (v : Word) (s : State),
    s.busFails addr = false ∧ isHigh (canon addr) = true ∧ regAt (canon addr) = some r ∧ regAt (canon addr - 4) = some r' ∧ SMap.look s.held (canon addr - 4) = some lo ∧ r'.check lo = 0 ∧ r.check v.toNat = 0 ∧ (s.answer .none).writeCode (canon addr) (lo + 2 ^ 32 * v.toNat) = 0) ∧
    (∃ (addr : Nat) (size : Nat) (v : Word) (s : State),
    (size ≠ 4 ∨ s.busFails addr = true)) :=
  ⟨⟨1, 0x404000C4, 2, 5#32, (fun b : State => b) .reset, by decide +kernel⟩,
    ⟨1, 0x50000000, 5#32, (fun b : State => b) .reset, by decide +kernel⟩,
    ⟨0, 0x4000001C, 5#32, W.RegisterWrites_3 .reset, (((W.RegisterWrites_3 .reset).answer .none).writeRow 0 0x4000001C (canon 0x4000001C) 5).getD .reset, by decide +kernel⟩,
    ⟨0, 77#32, (fun b : State => tHbm b) .reset, by decide +kernel⟩,
    ⟨0, 0x40900010, (regAt (canon 0x40900010)).getD ⟨0, [], []⟩, 0x01000000#32, (fun b : State => (b.put Reg.CHD_STATUS_READY 0).setPwr { b.pwr with dom := [(90, .on)] }) .reset, by decide +kernel⟩,
    ⟨0, 0x40900020, (regAt (canon 0x40900020)).getD ⟨0, [], []⟩, 4#32, (fun b : State => (b.put Reg.CHD_STATUS_READY 0).setPwr { b.pwr with dom := [(90, .on)] }) .reset, by decide +kernel⟩,
    ⟨0, 0x40900018, 4096#32, (fun b : State => b.setPwr { b.pwr with dom := [(90, .on)] }) .reset, by decide +kernel⟩,
    ⟨0x4090001C, 4096, (regAt (canon 0x4090001C)).getD ⟨0, [], []⟩, (regAt (canon 0x40900018)).getD ⟨0, [], []⟩, 1#32, (fun b : State => ((b.put Reg.CHD_STATUS_READY 0).setHeld [(canon 0x40900018, 4096)]).setPwr { b.pwr with dom := [(90, .on)] }) .reset, by decide +kernel⟩,
    ⟨0x4090001C, 8, 1#32, (fun b : State => b) .reset, by decide +kernel⟩⟩

theorem witness_RegisterReads :
    (∃ (addr : Nat) (s : State),
    s.busFails addr = true) ∧
    (∃ (addr : Nat) (s : State),
    s.busFails addr = false ∧ s.readRow (canon addr) = none ∧ isHigh (canon addr) = false) ∧
    (∃ (addr : Nat) (size : Nat) (s : State),
    size ≠ 4) ∧
    (∃ (addr : Nat) (size : Nat) (s : State),
    size ≠ 4) ∧
    (∃ (addr : Nat) (s : State),
    s.busFails addr = true) ∧
    (∃ (p : Fin 2) (s : State),
    s.domOn (94 + p.val) = true) ∧
    (∃ (addr : Nat) (s : State),
    s.busFails addr = false ∧ s.readRow (canon addr) = none ∧ isHigh (canon addr) = false ∧ isLow (canon addr) = true) ∧
    (∃ (addr : Nat) (v : Nat) (s : State),
    s.busFails addr = false ∧ s.readRow (canon addr) = none ∧ isHigh (canon addr) = true ∧ SMap.look s.shadow (canon addr - 4) = some v) ∧
    (∃ (s : State),
    s.smbLive = true ∧ s.smbReadable s.adm.smbAddr = true ∧ isHigh s.adm.smbAddr = false) ∧
    (∃ (v : Nat) (s : State),
    s.smbLive = true ∧ s.smbReadable s.adm.smbAddr = true ∧ isHigh s.adm.smbAddr = true ∧ SMap.look s.shadow (s.adm.smbAddr - 4) = some v) ∧
    (∃ (s : State),
    (s.smbLive && s.smbReadable s.adm.smbAddr) = false) :=
  ⟨⟨0x50000000, (fun b : State => b) .reset, by decide +kernel⟩,
    ⟨0x40900020, (fun b : State => b.setPwr { b.pwr with dom := [(90, .on)] }) .reset, by decide +kernel⟩,
    ⟨0x40000004, 2, (fun b : State => b) .reset, by decide +kernel⟩,
    ⟨0x40000004, 2, (fun b : State => b) .reset, by decide +kernel⟩,
    ⟨0x50000000, (fun b : State => b) .reset, by decide +kernel⟩,
    ⟨1, (fun b : State => b.setPwr { b.pwr with dom := [(95, .on)] }) .reset, by decide +kernel⟩,
    ⟨0x40900018, (fun b : State => b.setPwr { b.pwr with dom := [(90, .on)] }) .reset, by decide +kernel⟩,
    ⟨0x4090001C, 9, (fun b : State => (b.setShadow [(canon 0x40900018, 9)]).setPwr { b.pwr with dom := [(90, .on)] }) .reset, by decide +kernel⟩,
    ⟨(fun b : State => ((tClk (b.modAdm (fun a => { a with smbAddr := 0x40000004 }))).setPwr { (tClk b).pwr with vio := true, por := true, stopped := false })) .reset, by decide +kernel⟩,
    ⟨9, (fun b : State => (((tClk (b.modAdm (fun a => { a with smbAddr := 0x40F00028 }))).setPwr { (tClk b).pwr with vio := true, por := true, stopped := false })).setShadow [(0x40F00024, 9)]) .reset, by decide +kernel⟩,
    ⟨(fun b : State => b.modAdm (fun a => { a with smbAddr := 0x50000000 })) .reset, by decide +kernel⟩⟩

def W.StartUpFirst_6 (b : State) : State := tSlot b

theorem witness_StartUpFirst :
    (∃ (x : Straps) (s : State),
    s.pwr.por = false) ∧
    (∃ (s : State),
    s.pwr.step = 1 ∧ s.pwr.stopped = false) ∧
    (∃ (n : Nat) (s : State),
    s.pwr.step = 2 ∧ s.pwr.stopped = false) ∧
    (∃ (n : Nat) (s : State),
    s.pwr.step = 2 ∧ s.pwr.stopped = false) ∧
    (∃ (s : State),
    s.pwr.step = 3 ∧ s.pwr.stopped = false) ∧
    (∃ (r : PkgCheck) (a : PkgCheck) (f : PkgCheck) (g : PkgCheck) (e : Bool) (s : State),
    s.pwr.step = 4 ∧ s.pwr.stopped = false ∧ s.adm.noSlot = false ∧ s.fitted 0 = true ∧ s.flag Reg.SYS_STRAP_BOOT_RCV = true ∧ s.bootable (some s.recoverySlot) r = true) ∧
    (∃ (r : PkgCheck) (a : PkgCheck) (f : PkgCheck) (g : PkgCheck) (e : Bool) (s : State),
    s.pwr.step = 4 ∧ s.pwr.stopped = false ∧ s.adm.noSlot = false) :=
  ⟨⟨⟨true, 9, true, 5, true, false⟩, (fun b : State => b.setPwr { b.pwr with por := false }) .reset, by decide +kernel⟩,
    ⟨(fun b : State => b.setPwr { b.pwr with step := 1, stopped := false }) .reset, by decide +kernel⟩,
    ⟨5, (fun b : State => b.setPwr { b.pwr with step := 2, stopped := false }) .reset, by decide +kernel⟩,
    ⟨5, (fun b : State => b.setPwr { b.pwr with step := 2, stopped := false }) .reset, by decide +kernel⟩,
    ⟨(fun b : State => b.setPwr { b.pwr with step := 3, stopped := false }) .reset, by decide +kernel⟩,
    ⟨tPc, tPc, tPc, tPc, true, W.StartUpFirst_6 .reset, ⟨by decide +kernel, by decide +kernel, by decide +kernel, by decide +kernel, by decide +kernel, by
    simp only [State.bootable, Config.stepping]
    generalize Config.step = x
    cases x <;> decide +kernel⟩⟩,
    ⟨tPc, tPc, tPc, tPc, true, (fun b : State => (b.setPwr { b.pwr with step := 4, stopped := false }).modAdm (fun x => { x with noSlot := false })) .reset, by decide +kernel⟩⟩

theorem witness_StartUpLast :
    (∃ (s : State),
    s.buf.training = true ∧ s.pwr.step = 6 ∧ s.pwr.stopped = false) ∧
    (∃ (s : State),
    s.buf.training = true) ∧
    (∃ (s : State),
    s.get Reg.CCH_STATUS_INIT_BUSY = 1) ∧
    (∃ (peg : List (Nat × Nat)) (maps : List AlignData) (s : State),
    s.pwr.step = 7 ∧ s.pwr.stopped = false ∧ s.domOn 84 = true ∧ s.get Reg.CCH_STATUS_INIT_BUSY = 0) ∧
    (∃ (ha : Nat) (hb : Nat) (a : SaveRead) (b : SaveRead) (s : State),
    s.pwr.step = 8 ∧ s.pwr.stopped = false ∧ s.foundAreas ha hb = []) ∧
    (∃ (ha : Nat) (hb : Nat) (a : SaveRead) (b : SaveRead) (k : Nat) (n : SaveArea) (r : List (Nat × SaveArea)) (s : State),
    s.pwr.step = 8 ∧ s.pwr.stopped = false ∧ s.foundAreas ha hb = (k, n) :: r) ∧
    (∃ (s : State),
    s.pwr.step = 9 ∧ s.pwr.stopped = false ∧ s.adm.fellBack = false) :=
  ⟨⟨(fun b : State => (b.setBuf { b.buf with training := true }).setPwr { b.pwr with step := 6, stopped := false }) .reset, by decide +kernel⟩,
    ⟨(fun b : State => (b.setBuf { b.buf with training := true }).setPwr { b.pwr with step := 6, stopped := false }) .reset, by decide +kernel⟩,
    ⟨(fun b : State => b.put Reg.CCH_STATUS_INIT_BUSY 1) .reset, by decide +kernel⟩,
    ⟨[(5, tPeg)], [], (fun b : State => (b.put Reg.CCH_STATUS_INIT_BUSY 0).setPwr { b.pwr with step := 7, stopped := false, dom := [(84, .on), (92, .on), (93, .on)] }) .reset, by decide +kernel⟩,
    ⟨0, 0, tRead, tRead, (fun b : State => (b.setPwr { b.pwr with step := 8, stopped := false, dom := [(84, .on), (92, .on), (93, .on)] }).modSpt (fun p => { p with areas := [] })) .reset, by decide +kernel⟩,
    ⟨0, 0, tRead, tRead, 1, tArea, [], (fun b : State => (b.setPwr { b.pwr with step := 8, stopped := false, dom := [(84, .on), (92, .on), (93, .on)] }).modSpt (fun p => { p with areas := [(1, tArea)] })) .reset, by decide +kernel⟩,
    ⟨(fun b : State => (b.setPwr { b.pwr with step := 9, stopped := false }).modAdm (fun x => { x with fellBack := false, booted := some 1 })) .reset, by decide +kernel⟩⟩

theorem witness_DeviceResets :
    (∃ (s : State),
    s.pwr.por = true ∧ s.pwr.step ≠ 0 ∧ s.spt.saving = false) ∧
    (∃ (ms : Nat) (s : State),
    s.pwr.por = true ∧ 1 ≤ s.pwr.step ∧ s.pwr.step < 9 ∧ s.spt.saving = false ∧ s.get Reg.SYS_WDOG_CTL_EN = 1 ∧ s.get Reg.SYS_WDOG_CTL_TIMEOUT_MS ≤ s.pwr.wdogMs + ms) ∧
    (∃ (ms : Nat) (s : State),
    s.get Reg.SYS_WDOG_CTL_EN = 1 ∧ s.pwr.wdogMs + ms < s.get Reg.SYS_WDOG_CTL_TIMEOUT_MS) ∧
    (∃ (v : Word) (s : State),
    bits v.toNat 31 16 = 0x5A5A ∧ hasBit v.toNat 0 = true ∧ s.pwr.por = true ∧ s.pwr.step ≠ 0 ∧ s.spt.saving = false) ∧
    (∃ (v : Word) (s : State),
    bits v.toNat 31 16 = 0x5A5A ∧ hasBit v.toNat 0 = true ∧ s.pwr.step ≠ 0 ∧ s.spt.saving = true) ∧
    (∃ (v : Word) (s : State),
    bits v.toNat 31 16 ≠ 0x5A5A) ∧
    (∃ (s : State),
    s.sec.dbgOpened = true ∧ s.pwr.por = true ∧ s.pwr.step ≠ 0 ∧ s.spt.saving = false) ∧
    (∃ (s : State),
    s.pwr.heldRst ≠ 0 ∧ s.spt.saving = false ∧ s.pwr.por = true) ∧
    (∃ (s : State),
    s.fetchStop = true ∧ s.cmds = [] ∧ s.cache.all (fun e => e.2.mode != 1) = true ∧ s.pwr.por = true ∧ s.spt.saving = false) ∧
    (∃ (p : Fin 5) (s : State),
    (p.val = 4 ∨ hasBit (s.get Reg.CCH_STATUS_RUNNING) p.val = true) ∧ s.pwr.por = true ∧ 1 ≤ s.pwr.step ∧ s.pwr.step < 9 ∧ s.spt.saving = false) :=
  ⟨⟨(fun b : State => (b.setPwr { b.pwr with por := true, step := 11 }).modSpt (fun p => { p with saving := false })) .reset, by decide +kernel⟩,
    ⟨500, (fun b : State => (((b.setPwr { b.pwr with por := true, step := 5, wdogMs := 100 }).modSpt (fun p => { p with saving := false })).put Reg.SYS_WDOG_CTL_EN 1).put Reg.SYS_WDOG_CTL_TIMEOUT_MS 400) .reset, by decide +kernel⟩,
    ⟨200, (fun b : State => (((b.setPwr { b.pwr with por := true, step := 5, wdogMs := 100 }).modSpt (fun p => { p with saving := false })).put Reg.SYS_WDOG_CTL_EN 1).put Reg.SYS_WDOG_CTL_TIMEOUT_MS 400) .reset, by decide +kernel⟩,
    ⟨0x5A5A0001#32, (fun b : State => (b.setPwr { b.pwr with por := true, step := 11 }).modSpt (fun p => { p with saving := false })) .reset, by decide +kernel⟩,
    ⟨0x5A5A0001#32, (fun b : State => (b.setPwr { b.pwr with por := true, step := 11, heldRst := 1 }).modSpt (fun p => { p with saving := true })) .reset, by decide +kernel⟩,
    ⟨0x5A5B0001#32, (fun b : State => b) .reset, by decide +kernel⟩,
    ⟨(fun b : State => (b.setPwr { b.pwr with por := true, step := 11 }).modSpt (fun p => { p with saving := false }) |>.modSec (fun x => { x with dbgOpened := true })) .reset, by decide +kernel⟩,
    ⟨(fun b : State => (b.setPwr { b.pwr with por := true, step := 11, heldRst := 4 }).modSpt (fun p => { p with saving := false })) .reset, by decide +kernel⟩,
    ⟨(fun b : State => { (b.setPwr { b.pwr with por := true, step := 11 }).modSpt (fun p => { p with saving := false }) with fetchStop := true }) .reset, by decide +kernel⟩,
    ⟨4, (fun b : State => (b.setPwr { b.pwr with por := true, step := 5 }).modSpt (fun p => { p with saving := false })) .reset, by decide +kernel⟩⟩

theorem witness_PowerDomains :
    (∃ (n : Fin 3) (v : Word) (s : State),
    (List.range 32).all (fun i => s.domCheck (fun d => if d / 32 = n.val then hasBit v.toNat (d % 32) else s.domWanted d) (32 * n.val + i) == 0) = true) ∧
    (∃ (n : Fin 3) (v : Word) (i : Nat) (s : State),
    s.get Reg.SYS_CFG_STATUS_ERR = 0 ∧ i < 32 ∧ s.domCheck (fun d => if d / 32 = n.val then hasBit v.toNat (d % 32) else s.domWanted d) (32 * n.val + i) ≠ 0 ∧ (List.range i).all (fun j => s.domCheck (fun d => if d / 32 = n.val then hasBit v.toNat (d % 32) else s.domWanted d) (32 * n.val + j) == 0) = true) ∧
    (∃ (d : Nat) (s : State),
    d < 96 ∧ s.mayRamp d = true ∧ (List.range d).all (fun e => !s.mayRamp e) = true ∧ (s.domsIn .ramping).length < 8 ∧ s.get Reg.SPT_STATUS_FAIL = 0) ∧
    (∃ (d : Fin 96) (s : State),
    s.domSt d.val = .ramping ∧ s.domWanted d.val = true) ∧
    (∃ (d : Fin 96) (s : State),
    s.domSt d.val = .poweringDown) ∧
    (∃ (d : Fin 96) (F : Field) (s : State),
    s.domSt d.val = .poweringDown ∧ F.lo < 32 ∧ regDomain F.addr = some d.val ∧ F.key ≠ Reg.CHD_K_LO_K.key ∧ F.key ≠ Reg.CHD_K_HI_K.key) ∧
    (∃ (d : Fin 96) (s : State),
    s.domSt d.val = .poweringDown ∧ ((72 ≤ d.val ∧ d.val < 80) ∨ d.val = 88 ∨ d.val = 89 ∨ d.val = 92)) ∧
    (∃ (v : Word) (s : State),
    s.get Reg.SYS_AFE_FIT1_LOCK = 0 ∧ (maskBits 32 v.toNat).find? (fun i => !s.fitted ((32 * 0 + i) / 12)) = none) ∧
    (∃ (v : Word) (s : State),
    s.get Reg.SYS_AFE_FIT1_LOCK = 0 ∧ (maskBits 16 v.toNat).find? (fun i => !s.fitted ((32 * 1 + i) / 12)) = none) ∧
    (∃ (n : Fin 2) (v : Word) (i : Nat) (s : State),
    s.get Reg.SYS_AFE_FIT1_LOCK = 0 ∧ s.get Reg.SYS_CFG_STATUS_ERR = 0 ∧ (maskBits (if n.val = 0 then 32 else 16) v.toNat).find? (fun i => !s.fitted ((32 * n.val + i) / 12)) = some i) ∧
    (∃ (n : Fin 2) (v : Word) (s : State),
    s.get Reg.SYS_AFE_FIT1_LOCK = 1) ∧
    (∃ (i : Nat) (hz : Nat) (s : State),
    i < 44 ∧ hz ≠ 0 ∧ hasBit s.pwr.liveIsl i = true ∧ s.islandLive i = true ∧ s.clockOk i hz = false ∧ SMap.get s.pwr.oor 0 i = 0) ∧
    (∃ (i : Nat) (hz : Nat) (s : State),
    i < 44 ∧ i ≠ 26 ∧ i ≠ 28 ∧ i ≠ 33 ∧ i ≠ 34 ∧ hasBit s.pwr.liveIsl i = true ∧ s.islandLive i = true ∧ s.clockOk i hz = false ∧ SMap.get s.pwr.oor 0 i ≠ 0 ∧ hasBit s.clkFaults i = false) :=
  ⟨⟨2, 0x10000000#32, (fun b : State => tPd b) .reset, by decide +kernel⟩,
    ⟨2, 0x20000000#32, 29, (fun b : State => tPd b) .reset, by decide +kernel⟩,
    ⟨92, (fun b : State => ((tPd b).put (Reg.SYS_PD_REQ_ON 2) 0x10000000).put Reg.SPT_STATUS_FAIL 0) .reset, by decide +kernel⟩,
    ⟨64, (fun b : State => ((tPd b).put (Reg.SYS_PD_REQ_ON 2) 1).setPwr { b.pwr with dom := [(64, .ramping)] }) .reset, by decide +kernel⟩,
    ⟨91, (fun b : State => (tPd b).setPwr { b.pwr with dom := [(91, .poweringDown)] }) .reset, by decide +kernel⟩,
    ⟨90, Reg.CHD_CTL_EN, (fun b : State => (tPd b).setPwr { b.pwr with dom := [(90, .poweringDown)] }) .reset, by decide +kernel⟩,
    ⟨92, (fun b : State => (tPd b).setPwr { b.pwr with dom := [(92, .poweringDown)] }) .reset, by decide +kernel⟩,
    ⟨0x3#32, (fun b : State => (tPd b).put Reg.SYS_AFE_FIT1_LOCK 0 |>.put Reg.SYS_STRAP_ACT 15) .reset, by decide +kernel⟩,
    ⟨0x80000003#32, (fun b : State => (tPd b).put Reg.SYS_AFE_FIT1_LOCK 0 |>.put Reg.SYS_STRAP_ACT 15) .reset, by decide +kernel⟩,
    ⟨0, 4#32, 2, (fun b : State => (tPd b).put Reg.SYS_AFE_FIT1_LOCK 0 |>.put Reg.SYS_STRAP_ACT 14 |>.put Reg.SYS_CFG_STATUS_ERR 0) .reset, by decide +kernel⟩,
    ⟨1, 3#32, (fun b : State => (tPd b).put Reg.SYS_AFE_FIT1_LOCK 1) .reset, by decide +kernel⟩,
    ⟨16, 7, (fun b : State => (tPd b).setPwr { b.pwr with oor := [], liveIsl := 2 ^ 16, dom := [(64, .on), (81, .on)], step := 11, por := true }) .reset, by decide +kernel⟩,
    ⟨16, 7, (fun b : State => ((tPd b).put Reg.SYS_CLK_FAULT0_FAULT 0).setPwr { b.pwr with oor := [(16, 1)], liveIsl := 2 ^ 16, dom := [(64, .on), (81, .on)], step := 11, por := true }) .reset, by decide +kernel⟩⟩

theorem witness_PowerStates :
    (∃ (v : Word) (s : State),
    bits v.toNat 2 0 < 3) ∧
    (∃ (v : Word) (s : State),
    bits v.toNat 2 0 = 3) ∧
    (∃ (v : Word) (s : State),
    4 ≤ bits v.toNat 2 0 ∧ s.get Reg.SYS_CFG_STATUS_ERR = 0) ∧
    (∃ (s : State),
    s.pwr.dev = .active ∧ s.ready = true ∧ hasBit (s.feature 1) 31 = true ∧ s.cmds.all (fun e => !e.2.io) = true ∧ (List.range 64).all s.domIdle = true) ∧
    (∃ (s : State),
    s.pwr.dev = .idle ∧ s.pwr.spinDown = false) ∧
    (∃ (s : State),
    s.pwr.dev = .idle ∧ s.pwr.spinDown = true) ∧
    (∃ (s : State),
    s.pwr.dev = .idle ∧ s.pwr.dozing = false) ∧
    (∃ (s : State),
    s.pwr.dev = .idle ∧ s.pwr.dozing = true ∧ s.pwr.spinDown = false ∧ s.cache = [] ∧ ((s.get Reg.RING_STATUS_MUTED ≠ 0 ∨ s.through = false)) ∧ s.spin ≠ 0) ∧
    (∃ (s : State),
    s.pwr.dev = .idle ∧ s.pwr.dozing = true ∧ s.pwr.spinDown = false ∧ s.pwr.spinCmd = false ∧ s.cache = [] ∧ ((s.get Reg.RING_STATUS_MUTED ≠ 0 ∨ s.through = false)) ∧ s.spin = 0) ∧
    (∃ (s : State),
    s.pwr.dev = .doze ∧ s.get Reg.SPT_STATUS_FAIL = 0) ∧
    (∃ (s : State),
    s.pwr.dev = .doze ∧ s.pwr.wakeArmed = true ∧ s.portSleeps 0 = true ∧ s.portSleeps 1 = true ∧ s.ring.frames = [] ∧ s.chd.reqs = [] ∧ s.core.evict = [] ∧ s.core.l2.all (fun e => !e.2.dirty) = true) ∧
    (∃ (s : State),
    s.pwr.dev = .sleep) ∧
    (∃ (p : Fin 2) (s : State),
    s.pwr.vio = true ∧ s.pwr.por = true) ∧
    (∃ (p : Fin 2) (s : State),
    ((s.pwr.vio = false ∨ s.pwr.por = false))) :=
  ⟨⟨2#32, (fun b : State => b) .reset, by decide +kernel⟩,
    ⟨3#32, (fun b : State => b) .reset, by decide +kernel⟩,
    ⟨5#32, (fun b : State => b.put Reg.SYS_CFG_STATUS_ERR 0) .reset, by decide +kernel⟩,
    ⟨(fun b : State => { b.setPwr { b.pwr with dev := .active, step := 11, dom := [(3, .on), (80, .on)] } with feat := [(1, 2 ^ 31 + 5)], cmds := [] } |>.put (Reg.SYS_PD_REQ_ON 0) 8) .reset, by decide +kernel⟩,
    ⟨(fun b : State => b.setPwr { b.pwr with dev := .idle, spinDown := false, dozing := true, idleReq := 8 }) .reset, by decide +kernel⟩,
    ⟨(fun b : State => b.setPwr { b.pwr with dev := .idle, spinDown := true }) .reset, by decide +kernel⟩,
    ⟨(fun b : State => b.setPwr { b.pwr with dev := .idle, dozing := false }) .reset, by decide +kernel⟩,
    ⟨(fun b : State => (b.setPwr { b.pwr with dev := .idle, dozing := true, spinDown := false }).put Reg.RING_STATUS_SWITCH 0 |>.put Reg.MTR_SPN_STATUS_STATE 5) .reset, by decide +kernel⟩,
    ⟨(fun b : State => (b.setPwr { b.pwr with dev := .idle, dozing := true, spinDown := false, spinCmd := false }).put Reg.RING_STATUS_SWITCH 0 |>.put Reg.MTR_SPN_STATUS_STATE 0) .reset, by decide +kernel⟩,
    ⟨(fun b : State => (b.setPwr { b.pwr with dev := .doze }).put Reg.SPT_STATUS_FAIL 0) .reset, by decide +kernel⟩,
    ⟨(fun b : State => ((((b.setPwr { b.pwr with dev := .doze, wakeArmed := true }).put (Reg.HST_LINK_DSTATE 0) 3).put (Reg.HST_LINK_LSTATE 0) 2).put (Reg.HST_LINK_DSTATE 1) 3).put (Reg.HST_LINK_LSTATE 1) 3) .reset, by decide +kernel⟩,
    ⟨(fun b : State => b.setPwr { b.pwr with dev := .sleep, sleepReq := 2 ^ 64 * 9 + 2 ^ 33 + 7 }) .reset, by decide +kernel⟩,
    ⟨1, (fun b : State => b.setPwr { b.pwr with vio := true, por := true }) .reset, by decide +kernel⟩,
    ⟨1, (fun b : State => b.setPwr { b.pwr with vio := false }) .reset, by decide +kernel⟩⟩

theorem witness_MemberStarts :
    (∃ (nsid : Nat) (lba : Nat) (member : Nat) (k : Nat) (row : List RowTrack) (spares : List RowTrack) (s : State),
    s.inProgress nsid lba = false ∧ (spareOrder member row spares).find? (fun k => !s.media.usedSpares.contains k) = some k) ∧
    (∃ (nsid : Nat) (lba : Nat) (member : Nat) (row : List RowTrack) (spares : List RowTrack) (s : State),
    s.inProgress nsid lba = false ∧ (spareOrder member row spares).find? (fun k => !s.media.usedSpares.contains k) = none) ∧
    (∃ (nsid : Nat) (lba : Nat) (member : Nat) (row : List RowTrack) (spares : List RowTrack) (s : State),
    s.inProgress nsid lba = true) ∧
    (∃ (i : Fin 16) (cm : CMember) (s : State),
    (s.fmt (i.val / 4)).due.contains (i.val % 4) = true ∧ SMap.look (s.fmt (i.val / 4)).course (i.val % 4) = some cm ∧ (elems (pegMask ((s.pegFor (12 * (i.val / 4) + cm.head) cm.track).getD 0))).all (fun e => s.domOn (3 * i.val + e) && s.connected i.val e) = true ∧ s.get (Reg.CHN_FE_SB_CTL_HOLD i.val) = 0 ∧ s.get Reg.MTR_SPN_SPEED_VALID = 1) ∧
    (∃ (i : Fin 16) (cm : CMember) (e : Fin 3) (peg : Nat) (s : State),
    (s.fmt (i.val / 4)).due.contains (i.val % 4) = true ∧ SMap.look (s.fmt (i.val / 4)).course (i.val % 4) = some cm ∧ s.pegFor (12 * (i.val / 4) + cm.head) cm.track = some peg ∧ (elems (pegMask peg)).all (fun e => s.domOn (3 * i.val + e) && s.connected i.val e) = true ∧ s.get (Reg.CHN_FE_SB_CTL_HOLD i.val) = 0 ∧ s.get Reg.MTR_SPN_SPEED_VALID = 1 ∧ hasBit (pegMask peg) e.val = true) ∧
    (∃ (i : Fin 16) (cm : CMember) (s : State),
    (s.fmt (i.val / 4)).due.contains (i.val % 4) = true ∧ SMap.look (s.fmt (i.val / 4)).course (i.val % 4) = some cm ∧ ((elems (pegMask ((s.pegFor (12 * (i.val / 4) + cm.head) cm.track).getD 0))).any (fun e => !s.domOn (3 * i.val + e) || !s.connected i.val e) = true ∨ s.get (Reg.CHN_FE_SB_CTL_HOLD i.val) ≠ 0 ∨ s.get Reg.MTR_SPN_SPEED_VALID = 0) ∧ s.get (Reg.FMT_CFG_STATUS_ERR (i.val / 4)) = 0) ∧
    (∃ (i : Fin 16) (s : State),
    (s.fmt (i.val / 4)).due.contains (i.val % 4) = false) :=
  ⟨⟨1, 5, 0, (spareOrder 0 [⟨2, 7, 20000, 4, []⟩] []).headD 0, [⟨2, 7, 20000, 4, []⟩], [], (fun b : State => { b.setMedia { b.media with pendingLbas := [lbaKey 1 5] } with cmds := [] }) .reset, by decide +kernel⟩,
    ⟨1, 5, 0, [], [], (fun b : State => { b with cmds := [] }) .reset, by decide +kernel⟩,
    ⟨1, 0x20000, 0, [], [], (fun b : State => { b with cmds := [(30, { tCmd 1 1 0x11 1 with begun := true })] }) .reset, by decide +kernel⟩,
    ⟨5, ⟨2, 7, true, 5⟩, (fun b : State => (((((((b.setMedia { b.media with peg := [(64 * 14, tPeg)] }).modFmt 1 (fun m => { m with due := [1], course := [(1, ⟨2, 7, true, 5⟩)] }))).put (Reg.CHN_FE_SB_CTL_HOLD 5) 0).put Reg.MTR_SPN_SPEED_VALID 1).put Reg.SYS_AFE_FIT0_FIT 0x38000).setPwr { b.pwr with dom := [(15, .on), (16, .on)] }).modSlot 5 (fun x => { x with eq := [⟨1, 2, true, false, false, false, 3⟩], window := some (1, 2) })) .reset, by decide +kernel⟩,
    ⟨5, ⟨2, 7, true, 5⟩, 0, tPeg, (fun b : State => (((((((b.setMedia { b.media with peg := [(64 * 14, tPeg)] }).modFmt 1 (fun m => { m with due := [1], course := [(1, ⟨2, 7, true, 5⟩)] }))).put (Reg.CHN_FE_SB_CTL_HOLD 5) 0).put Reg.MTR_SPN_SPEED_VALID 1).put Reg.SYS_AFE_FIT0_FIT 0x38000).setPwr { b.pwr with dom := [(15, .on), (16, .on)] }).modSlot 5 (fun x => { x with eq := [⟨1, 2, true, false, false, false, 3⟩], window := some (1, 2) })) .reset, by decide +kernel⟩,
    ⟨5, ⟨2, 7, true, 5⟩, (fun b : State => (((b.setMedia { b.media with peg := [(64 * 14, tPeg)] }).modFmt 1 (fun m => { m with due := [1], course := [(1, ⟨2, 7, true, 5⟩)] })).put Reg.MTR_SPN_SPEED_VALID 0).put (Reg.FMT_CFG_STATUS_ERR 1) 0) .reset, by decide +kernel⟩,
    ⟨5, (fun b : State => b) .reset, by decide +kernel⟩⟩

theorem witness_LoopsAndDefects :
    (∃ (i : Fin 16) (l : Fin 5) (e : Fin 3) (cell : Nat) (acq : Bool) (lead : List (List Int)) (streams : List (List Int)) (m : Member) (s : State),
    l.val ≠ 4 ∧ (s.slot i.val).mem = some m ∧ s.readPhase i.val cell = some acq ∧ (s.loopError i.val m l.val e.val acq cell (joinStreams lead streams)).natAbs ≤ deadBand l.val acq) ∧
    (∃ (i : Fin 16) (e : Fin 3) (cell : Nat) (acq : Bool) (lead : List (List Int)) (streams : List (List Int)) (m : Member) (s : State),
    (s.slot i.val).mem = some m ∧ m.servoOnly = false ∧ s.readPhase i.val cell = some acq ∧ s.loopsHeld i.val = false ∧ hasBit (pegMask m.peg) e.val = true ∧ (deadBand 0 acq : Int) < s.loopError i.val m 0 e.val acq cell (joinStreams lead streams) ∧ s.get (Reg.CHN_FE_STATE_GAIN i.val e.val) < 255) ∧
    (∃ (i : Fin 16) (l : Fin 5) (e : Fin 3) (cell : Nat) (acq : Bool) (lead : List (List Int)) (streams : List (List Int)) (m : Member) (s : State),
    1 ≤ l.val ∧ l.val ≤ 3 ∧ (s.slot i.val).mem = some m ∧ m.servoOnly = false ∧ s.readPhase i.val cell = some acq ∧ s.loopsHeld i.val = false ∧ hasBit (pegMask m.peg) e.val = true ∧ s.loopError i.val m l.val e.val acq cell (joinStreams lead streams) < -(deadBand l.val acq : Int) ∧ (loopField i.val l.val e.val).2.2.1 < toSigned 8 (s.get (loopField i.val l.val e.val).1)) ∧
    (∃ (i : Fin 16) (e : Fin 3) (cell : Nat) (acq : Bool) (lead : List (List Int)) (streams : List (List Int)) (m : Member) (s : State),
    (s.slot i.val).mem = some m ∧ m.servoOnly = false ∧ s.readPhase i.val cell = some acq ∧ s.loopsHeld i.val = false ∧ hasBit (pegMask m.peg) e.val = true ∧ (deadBand 0 acq : Int) < s.loopError i.val m 0 e.val acq cell (joinStreams lead streams) ∧ s.get (Reg.CHN_FE_STATE_GAIN i.val e.val) = 255 ∧ s.get (Reg.CHN_FE_RAIL_COUNT i.val) = 7) ∧
    (∃ (i : Fin 16) (e : Fin 3) (f : Fin 3) (cell : Nat) (lead : List (List Int)) (streams : List (List Int)) (m : Member) (s : State),
    (s.slot i.val).mem = some m ∧ m.servoOnly = false ∧ m.set.wAdapt = true ∧ s.readPhase i.val cell = some false ∧ s.loopsHeld i.val = false ∧ hasBit (pegMask m.peg) f.val = true ∧ s.get (Reg.CHN_FE_WEIGHT_WEIGHT i.val f.val) < 2 ^ 16) ∧
    (∃ (i : Fin 16) (l : Fin 5) (e : Fin 3) (cell : Nat) (lead : List (List Int)) (streams : List (List Int)) (s : State),
    (s.loopsHeld i.val = true ∨ s.readPhase i.val cell = none)) ∧
    (∃ (i : Fin 16) (cell : Nat) (streams : List (List Int)) (m : Member) (s : State),
    (s.slot i.val).mem = some m ∧ m.servoOnly = false ∧ m.set.taEn = true ∧ m.set.doEn = false ∧ (s.readPhase i.val cell).isSome = true ∧ (elems (pegMask m.peg)).any (fun e => thermalAt m.set.taLevel (streams.getD e [])) = true ∧ (s.slot i.val).window = none ∧ (s.slot i.val).windows = [] ∧ (s.slot i.val).hist = []) ∧
    (∃ (i : Fin 16) (e : Fin 3) (cell : Nat) (c : Nat) (v : Nat) (streams : List (List Int)) (m : Member) (s : State),
    (s.slot i.val).mem = some m ∧ m.servoOnly = false ∧ m.set.taEn = true ∧ m.set.doEn = false ∧ (s.readPhase i.val cell).isSome = true ∧ (elems (pegMask m.peg)).any (fun e => thermalAt m.set.taLevel (streams.getD e [])) = true ∧ (s.slot i.val).window = none ∧ (s.slot i.val).windows = [] ∧ cell - 7 ≤ c ∧ v < 256 ∧ (s.slot i.val).hist = [(c, (Reg.CHN_FE_STATE_GAIN i.val e.val).key, v)]) ∧
    (∃ (i : Fin 16) (cell : Nat) (f : Nat) (l : Nat) (streams : List (List Int)) (m : Member) (s : State),
    (s.slot i.val).mem = some m ∧ m.servoOnly = false ∧ m.set.doEn = true ∧ m.set.taEn = false ∧ 0 < m.set.doLen ∧ (s.readPhase i.val cell).isSome = true ∧ (elems (pegMask m.peg)).any (fun e => dropOutAt (m.set.target * m.set.doPct / 100) m.set.doLen (streams.getD e [])) = true ∧ (s.slot i.val).window = some (f, l) ∧ (s.slot i.val).windows = [] ∧ (s.slot i.val).winDo = true ∧ (s.slot i.val).hist = []) ∧
    (∃ (i : Fin 16) (cell : Nat) (f : Nat) (l : Nat) (streams : List (List Int)) (m : Member) (s : State),
    (s.slot i.val).mem = some m ∧ m.servoOnly = false ∧ m.set.taEn = true ∧ m.set.doEn = false ∧ (s.readPhase i.val cell).isSome = true ∧ (elems (pegMask m.peg)).any (fun e => thermalAt m.set.taLevel (streams.getD e [])) = true ∧ (s.slot i.val).window = none ∧ (s.slot i.val).windows = [(f, l)] ∧ cell - 7 ≤ l ∧ (s.slot i.val).winTa = true ∧ (s.slot i.val).hist = []) ∧
    (∃ (i : Fin 16) (cell : Nat) (streams : List (List Int)) (m : Member) (s : State),
    (s.slot i.val).mem = some m ∧ ((elems (pegMask m.peg)).any (fun e => thermalAt m.set.taLevel (streams.getD e []) || dropOutAt (m.set.target * m.set.doPct / 100) m.set.doLen (streams.getD e [])) = false ∨ s.readPhase i.val cell = none)) ∧
    (∃ (i : Fin 16) (f : Nat) (l : Nat) (s : State),
    (s.slot i.val).window = some (f, l)) :=
  ⟨⟨5, 0, 1, 30, true, [], [], tMember 5, (fun b : State => tCap b (tMember 5) id) .reset, by decide +kernel⟩,
    ⟨5, 1, 30, true, [[], List.replicate 4 21], [[], List.replicate 36 21], tDo, (fun b : State => (tCap b (tDo) id).put (Reg.CHN_FE_STATE_GAIN 5 1) 40) .reset, by decide +kernel⟩,
    ⟨5, 1, 1, 30, true, [[], List.replicate 4 21], [[], List.replicate 36 21], tMember 5, (fun b : State => (tCap b (tMember 5) id).put (Reg.CHN_FE_STATE_OFFSET 5 1) 3) .reset, by decide +kernel⟩,
    ⟨5, 1, 30, true, [[], List.replicate 4 21], [[], List.replicate 36 21], tDo, (fun b : State => ((tCap b (tDo) id).put (Reg.CHN_FE_STATE_GAIN 5 1) 255).put (Reg.CHN_FE_RAIL_COUNT 5) 7) .reset, by decide +kernel⟩,
    ⟨5, 0, 1, 100, [[], [7]], [[], [3]], tMember 5, (fun b : State => (tCap b (tMember 5) id).put (Reg.CHN_FE_WEIGHT_WEIGHT 5 1) 0) .reset, by decide +kernel⟩,
    ⟨5, 2, 1, 4, [], [], (fun b : State => (b.modSlot 5 (fun x => { x with mem := some (tMember 5) })).put (Reg.CHN_FE_CTL_HOLD_ALL 5) 1) .reset, by decide +kernel⟩,
    ⟨5, 40, [[], List.replicate 8 50], tTa, (fun b : State => tCap b tTa id) .reset, by decide +kernel⟩,
    ⟨5, 1, 40, 35, 9, [[], List.replicate 8 50], tTa, (fun b : State => tCap b tTa (fun x => { x with hist := [(35, (Reg.CHN_FE_STATE_GAIN 5 1).key, 9)] })) .reset, by decide +kernel⟩,
    ⟨5, 60, 5, 11, [[], List.replicate 40 3], tDo, (fun b : State => tCap b tDo (fun x => { x with window := some (5, 11), winDo := true })) .reset, by decide +kernel⟩,
    ⟨5, 60, 5, 55, [[], List.replicate 8 50], tTa, (fun b : State => tCap b tTa (fun x => { x with windows := [(5, 55)], winTa := true })) .reset, by decide +kernel⟩,
    ⟨5, 60, [[], List.replicate 40 20], tTa, (fun b : State => tCap b tTa id) .reset, by decide +kernel⟩,
    ⟨5, 3, 4, (fun b : State => b.modSlot 5 (fun x => { x with window := some (3, 4) })) .reset, by decide +kernel⟩⟩

theorem witness_SampleBuffer :
    (∃ (i : Fin 16) (e0 : ElemCapture) (e1 : ElemCapture) (e2 : ElemCapture) (e : Nat) (q : Sect) (s : State),
    s.capturing i.val = some e ∧ SMap.look (s.slot i.val).sects e = some q ∧ s.newest i.val ≤ 1 ∧ [e0, e1, e2].all (fun x => decide (x.samples.length ≤ 37376)) = true) ∧
    (∃ (i : Fin 16) (v : Word) (s : State),
    (hasBit v.toNat 31 = false ∨ s.get (Reg.CHN_FE_STATUS_ACTIVE i.val) = 0)) ∧
    (∃ (i : Fin 16) (v : Word) (s : State),
    hasBit v.toNat 31 = true ∧ s.get (Reg.CHN_FE_STATUS_ACTIVE i.val) = 1 ∧ s.get (Reg.CHN_FE_CFG_STATUS_ERR i.val) = 0) ∧
    (∃ (i : Fin 16) (s : State),
    s.get (Reg.CHN_FE_SB_CTL_HOLD i.val) = 0 ∧ s.get (Reg.CHN_FE_CFG_STATUS_ERR i.val) = 0) ∧
    (∃ (i : Fin 16) (s : State),
    s.get (Reg.CHN_FE_SB_CTL_HOLD i.val) = 1 ∧ 37372 < s.get (Reg.CHN_FE_SB_ADDR_CELL i.val) ∧ s.get (Reg.CHN_FE_CFG_STATUS_ERR i.val) = 0) ∧
    (∃ (i : Fin 16) (s : State),
    s.get (Reg.CHN_FE_SB_CTL_HOLD i.val) = 1 ∧ s.get (Reg.CHN_FE_SB_ADDR_CELL i.val) ≤ 37372 ∧ s.sramFlips i.val (sampWord (s.get (Reg.CHN_FE_SB_ADDR_ENTRY i.val)) (s.get (Reg.CHN_FE_SB_ADDR_ELEM i.val)) (s.get (Reg.CHN_FE_SB_ADDR_CELL i.val))) = 0) ∧
    (∃ (i : Fin 16) (s : State),
    s.get (Reg.CHN_FE_SB_CTL_HOLD i.val) = 1 ∧ s.get (Reg.CHN_FE_SB_ADDR_CELL i.val) ≤ 37372 ∧ 2 ≤ s.sramFlips i.val (sampWord (s.get (Reg.CHN_FE_SB_ADDR_ENTRY i.val)) (s.get (Reg.CHN_FE_SB_ADDR_ELEM i.val)) (s.get (Reg.CHN_FE_SB_ADDR_CELL i.val)))) :=
  ⟨⟨5, ⟨[1, 2, 3, 4], 1⟩, ⟨[5, 6, 7, 8], 2⟩, ⟨[], 0⟩, 1, { tSect with since := some 3 }, (fun b : State => (b.put (Reg.CHN_FE_SB_CTL_NEWEST 5) 1).modSlot 5 (fun x => { x with mem := some (tMember 5), sects := [(1, { tSect with since := some 3 })], windows := [(20, 30)] })) .reset, by decide +kernel⟩,
    ⟨5, 0x80000000, (fun b : State => b.put (Reg.CHN_FE_STATUS_ACTIVE 5) 0) .reset, by decide +kernel⟩,
    ⟨5, 0x80000000, (fun b : State => (b.put (Reg.CHN_FE_STATUS_ACTIVE 5) 1).put (Reg.CHN_FE_CFG_STATUS_ERR 5) 0) .reset, by decide +kernel⟩,
    ⟨5, (fun b : State => (b.put (Reg.CHN_FE_SB_CTL_HOLD 5) 0).put (Reg.CHN_FE_CFG_STATUS_ERR 5) 0) .reset, by decide +kernel⟩,
    ⟨5, (fun b : State => ((b.put (Reg.CHN_FE_SB_CTL_HOLD 5) 1).put (Reg.CHN_FE_CFG_STATUS_ERR 5) 0).put (Reg.CHN_FE_SB_ADDR_CELL 5) 37373) .reset, by decide +kernel⟩,
    ⟨5, (fun b : State => (((b.put (Reg.CHN_FE_SB_CTL_HOLD 5) 1).put (Reg.CHN_FE_SB_ADDR_ENTRY 5) 0).put (Reg.CHN_FE_SB_ADDR_ELEM 5) 0).put (Reg.CHN_FE_SB_ADDR_CELL 5) 6) .reset, by decide +kernel⟩,
    ⟨5, (fun b : State => ((((b.put (Reg.CHN_FE_SB_CTL_HOLD 5) 1).put (Reg.CHN_FE_SB_ADDR_ENTRY 5) 0).put (Reg.CHN_FE_SB_ADDR_ELEM 5) 0).put (Reg.CHN_FE_SB_ADDR_CELL 5) 6).setBuf { b.buf with flips := [(sramKey 5 0, 3)] }) .reset, by decide +kernel⟩⟩

theorem witness_SyncSearches :
    (∃ (i : Fin 16) (cell : Nat) (streams : List (List Int)) (m : Member) (s : State),
    (s.slot i.val).mem = some m ∧ m.servoOnly = false ∧ m.set.eqAdapt = true ∧ s.loopsHeld i.val = false ∧ s.readPhase i.val cell = some false) ∧
    (∃ (i : Fin 16) (cell : Nat) (e : Nat) (streams : List (List Int)) (m : Member) (q : Sect) (s : State),
    (s.slot i.val).mem = some m ∧ m.servoOnly = false ∧ m.set.eqAdapt = true ∧ s.loopsHeld i.val = false ∧ s.readPhase i.val cell = some false ∧ SMap.look (s.slot i.val).sects e = some q ∧ q.captured = false) ∧
    (∃ (i : Fin 16) (cell : Nat) (streams : List (List Int)) (m : Member) (s : State),
    (s.slot i.val).mem = some m ∧ (m.set.eqAdapt = false ∨ s.loopsHeld i.val = true ∨ s.readPhase i.val cell ≠ some false)) ∧
    (∃ (i : Fin 16) (streams : List (List Int)) (q : Sect) (s : State),
    SMap.look (s.slot i.val).sects (s.newest i.val) = some q ∧ q.attempts = none) ∧
    (∃ (i : Fin 16) (streams : List (List Int)) (q : Sect) (s : State),
    SMap.look (s.slot i.val).sects (s.newest i.val) = some q ∧ q.attempts.isSome = true) ∧
    (∃ (i : Fin 16) (frag : Nat) (streams : List (List Int)) (q : Sect) (s : State),
    SMap.look (s.slot i.val).sects (s.newest i.val) = some q ∧ q.resync.length + 1 = frag) ∧
    (∃ (i : Fin 16) (frag : Nat) (streams : List (List Int)) (q : Sect) (s : State),
    SMap.look (s.slot i.val).sects (s.newest i.val) = some q ∧ q.resync.length + 1 = frag ∧ (resyncSearch (s.markCells i.val (q.rc0 + fragReadCell (sectorFrags q.cells q.psi) frag + 24) streams)).all (fun p => decide (q.resyncThr < p.dist)) = true) :=
  ⟨⟨5, 100, [], tMember 5, (fun b : State => tCap b (tMember 5) (fun x => { x with taps := [(3, 65535), (14, 7)] })) .reset, by decide +kernel⟩,
    ⟨5, 100, 1, [], tMember 5, tSect, (fun b : State => tCap b (tMember 5) (fun x => { x with taps := [(3, 65535), (14, 7)] })) .reset, by decide +kernel⟩,
    ⟨5, 100, [], { tMember 5 with set := { tLatched with eqAdapt := false } }, (fun b : State => b.modSlot 5 (fun x => { x with mem := some { tMember 5 with set := { tLatched with eqAdapt := false } } })) .reset, by decide +kernel⟩,
    ⟨5, [List.replicate 128 3], tSect, (fun b : State => (b.put (Reg.CHN_FE_SB_CTL_NEWEST 5) 1).modSlot 5 (fun x => { x with sects := [(1, tSect)] })) .reset, by decide +kernel⟩,
    ⟨5, [List.replicate 128 (-3)], { tSect with attempts := some [] }, (fun b : State => (b.put (Reg.CHN_FE_SB_CTL_NEWEST 5) 1).modSlot 5 (fun x => { x with sects := [(1, { tSect with attempts := some [] })] })) .reset, by decide +kernel⟩,
    ⟨5, 1, [List.replicate 32 7], tSect, (fun b : State => (b.put (Reg.CHN_FE_SB_CTL_NEWEST 5) 1).modSlot 5 (fun x => { x with sects := [(1, tSect)] })) .reset, by decide +kernel⟩,
    ⟨5, 1, [List.replicate 32 7], { tSect with resyncThr := 4 }, (fun b : State => ((b.put (Reg.CHN_FE_SB_CTL_NEWEST 5) 1).put (Reg.CHN_FE_WEIGHT_WEIGHT 5 0) 0x100).modSlot 5 (fun x => { x with windows := [(0, 60000)], sects := [(1, { tSect with resyncThr := 4 })] })) .reset, by decide +kernel⟩⟩

theorem witness_Decoding :
    (∃ (i : Fin 16) (e : Fin 2) (q : Sect) (s : State),
    SMap.look (s.slot i.val).sects e.val = some q ∧ q.captured = true ∧ q.attempts.isSome = true ∧ q.fast = none ∧ s.buf.flips = [] ∧ (s.slot i.val).fifo.length < 32) ∧
    (∃ (i : Fin 16) (e : Fin 2) (q : Sect) (s : State),
    SMap.look (s.slot i.val).sects e.val = some q ∧ q.captured = true ∧ q.attempts.isSome = true ∧ q.fast = none ∧ s.buf.flips = [] ∧ q.secondLook = true) ∧
    (∃ (i : Fin 16) (e : Fin 2) (q : Sect) (s : State),
    SMap.look (s.slot i.val).sects e.val = some q ∧ q.captured = true ∧ q.attempts.isSome = true ∧ q.fast = none ∧ s.buf.flips = [] ∧ q.secondLook = false ∧ (s.slot i.val).fifo.length < 32) ∧
    (∃ (i : Fin 16) (e : Fin 2) (upset : Bool) (q : Sect) (s : State),
    SMap.look (s.slot i.val).sects e.val = some q ∧ q.captured = true ∧ q.attempts.isSome = true ∧ q.fast = none ∧ (s.attemptReads i.val e.val (58 + i.val) q upset).1 = false ∧ q.secondLook = true ∧ s.pool.queue.length < 32) ∧
    (∃ (g : Fin 8) (r : Nat) (k : Nat) (s : State),
    g.val < s.get Reg.CHN_DP_CTL_ENGINES ∧ SMap.look s.pool.engines g.val = none ∧ s.nextAttempt s.pool.queue = some (r, k)) ∧
    (∃ (g : Fin 8) (s : State),
    s.get Reg.CHN_DP_CTL_ENGINES ≤ g.val) ∧
    (∃ (g : Fin 8) (ref : Nat) (k : Nat) (q : Sect) (s : State),
    s.buf.flips = [] ∧ SMap.look s.pool.engines g.val = some (ref, k) ∧ SMap.look (s.slot (ref / 2)).sects (ref % 2) = some q ∧ (q.attempts.getD [])[0]? = some ⟨0, 2, .waiting⟩ ∧ 0 < k) ∧
    (∃ (g : Fin 8) (ref : Nat) (a : Attempt) (q : Sect) (s : State),
    s.buf.flips = [] ∧ ref < 32 ∧ SMap.look s.pool.engines g.val = some (ref, 0) ∧ SMap.look (s.slot (ref / 2)).sects (ref % 2) = some q ∧ q.attempts = some [a] ∧ (s.slot (ref / 2)).fifo.length < 32) ∧
    (∃ (g : Fin 8) (ref : Nat) (a : Attempt) (q : Sect) (s : State),
    s.buf.flips = [] ∧ ref < 32 ∧ SMap.look s.pool.engines g.val = some (ref, 0) ∧ SMap.look (s.slot (ref / 2)).sects (ref % 2) = some q ∧ q.attempts = some [a] ∧ (s.slot (ref / 2)).fifo.length < 32) ∧
    (∃ (i : Fin 16) (lo : Nat) (hi : Nat) (rest : List (Nat × Nat)) (s : State),
    (s.slot i.val).fifo = (lo, hi) :: rest) ∧
    (∃ (i : Fin 16) (s : State),
    (s.slot i.val).fifo = []) ∧
    (∃ (i : Fin 16) (hi : Nat) (s : State),
    SMap.look s.shadow (Reg.CHN_DET_SECT_LO_PSI i.val).addr = some hi) ∧
    (∃ (i : Fin 16) (s : State),
    SMap.look s.shadow (Reg.CHN_DET_SECT_LO_PSI i.val).addr = none) :=
  ⟨⟨5, 1, { tSect with captured := true, attempts := some [⟨0, 2, .waiting⟩] }, (fun b : State => (b.setBuf { b.buf with flips := [] }).modSlot 5 (fun x => { x with fifo := [], sects := [(1, { tSect with captured := true, attempts := some [⟨0, 2, .waiting⟩] })] })) .reset, by decide +kernel⟩,
    ⟨5, 1, { tSect with captured := true, attempts := some [⟨0, 2, .waiting⟩] }, (fun b : State => (b.setBuf { b.buf with flips := [] }).modSlot 5 (fun x => { x with sects := [(1, { tSect with captured := true, attempts := some [⟨0, 2, .waiting⟩] })] })) .reset, by decide +kernel⟩,
    ⟨5, 1, { tSect with captured := true, secondLook := false, attempts := some [⟨0, 2, .waiting⟩] }, (fun b : State => (b.setBuf { b.buf with flips := [] }).modSlot 5 (fun x => { x with fifo := [], sects := [(1, { tSect with captured := true, secondLook := false, attempts := some [⟨0, 2, .waiting⟩] })] })) .reset, by decide +kernel⟩,
    ⟨5, 1, false, { tSect with captured := true, since := some 3, attempts := some [⟨0, 2, .waiting⟩] }, (fun b : State => ((b.setBuf { b.buf with flips := [(sramKey 63 0, 3)] }).setPool ⟨[], [], [], []⟩).modSlot 5 (fun x => { x with sects := [(1, { tSect with captured := true, since := some 3, attempts := some [⟨0, 2, .waiting⟩] })] })) .reset, by decide +kernel⟩,
    ⟨2, 11, 0, (fun b : State => ((b.put Reg.CHN_DP_CTL_ENGINES 4).modSlot 5 (fun x => { x with sects := [(1, { tSect with captured := true, attempts := some [⟨0, 2, .waiting⟩] })] })).setPool ⟨[11], [], [], []⟩) .reset, by decide +kernel⟩,
    ⟨2, (fun b : State => b.put Reg.CHN_DP_CTL_ENGINES 2) .reset, by decide +kernel⟩,
    ⟨2, 11, 1, { tSect with captured := true, attempts := some [⟨0, 2, .waiting⟩, ⟨1, 2, .running⟩] }, (fun b : State => ((b.setBuf { b.buf with flips := [] }).modSlot 5 (fun x => { x with sects := [(1, { tSect with captured := true, attempts := some [⟨0, 2, .waiting⟩, ⟨1, 2, .running⟩] })] })).setPool ⟨[11], [], [(2, (11, 1))], []⟩) .reset, by decide +kernel⟩,
    ⟨2, 11, ⟨1, 2, .running⟩, { tSect with captured := true, attempts := some [⟨1, 2, .running⟩] }, (fun b : State => ((b.setBuf { b.buf with flips := [] }).modSlot 5 (fun x => { x with fifo := [], sects := [(1, { tSect with captured := true, attempts := some [⟨1, 2, .running⟩] })] })).setPool ⟨[11], [], [(2, (11, 0))], []⟩) .reset, by decide +kernel⟩,
    ⟨2, 11, ⟨1, 2, .running⟩, { tSect with captured := true, attempts := some [⟨1, 2, .running⟩] }, (fun b : State => ((b.setBuf { b.buf with flips := [] }).modSlot 5 (fun x => { x with fifo := [], sects := [(1, { tSect with captured := true, attempts := some [⟨1, 2, .running⟩] })] })).setPool ⟨[11], [], [(2, (11, 0))], []⟩) .reset, by decide +kernel⟩,
    ⟨5, 7, 9, [(1, 2)], (fun b : State => b.modSlot 5 (fun x => { x with fifo := [(7, 9), (1, 2)] })) .reset, by decide +kernel⟩,
    ⟨5, (fun b : State => b.modSlot 5 (fun x => { x with fifo := [] })) .reset, by decide +kernel⟩,
    ⟨5, 9, (fun b : State => (b.modSlot 5 (fun x => { x with fifo := [(7, 9), (1, 2)], fifoLatched := true })).setShadow [((Reg.CHN_DET_SECT_LO_PSI 5).addr, 9)]) .reset, by decide +kernel⟩,
    ⟨5, (fun b : State => (b.modSlot 5 (fun x => { x with fifo := [(7, 9)] })).setShadow []) .reset, by decide +kernel⟩⟩

theorem witness_PreampLink :
    (∃ (i : Fin 16) (v : Word) (s : State),
    s.get (Reg.CHN_PA_STATUS_BUSY (i.val / 4)) = 0 ∧ s.pa (i.val / 4) = paInit) ∧
    (∃ (i : Fin 16) (v : Word) (s : State),
    s.get (Reg.CHN_PA_STATUS_BUSY (i.val / 4)) = 0 ∧ (s.pa (i.val / 4)).prog.isSome = true) ∧
    (∃ (i : Fin 16) (v : Word) (s : State),
    s.get (Reg.CHN_PA_STATUS_BUSY (i.val / 4)) = 1 ∧ s.get (Reg.CHN_WR_CFG_STATUS_ERR i.val) = 0) ∧
    (∃ (a : Fin 4) (d : Nat) (f : PaFrame) (s : State),
    s.pa a.val = ⟨some f, [], [], []⟩ ∧ f.kind = 3 ∧ f.read = true) ∧
    (∃ (a : Fin 4) (d : Nat) (f : PaFrame) (m : Member) (s : State),
    s.pa a.val = ⟨some f, [], [], []⟩ ∧ f.kind = 1 ∧ (s.slot (4 * a.val + f.slot)).mem = some m ∧ m.servoOnly = false ∧ m.ready = false ∧ d % 65536 = f.data) ∧
    (∃ (a : Fin 4) (d : Nat) (f : PaFrame) (m : Member) (s : State),
    s.pa a.val = ⟨some f, [], [], []⟩ ∧ f.kind = 1 ∧ f.slot < 4 ∧ (s.slot (4 * a.val + f.slot)).mem = some m ∧ m.servoOnly = false ∧ m.ready = false ∧ d % 65536 ≠ f.data ∧ (slotsOf a.val).all (fun i => !(s.slot i).gate) = true) ∧
    (∃ (a : Fin 4) (s : State),
    (s.pa a.val).prog = none) ∧
    (∃ (a : Fin 4) (s : State),
    (s.pa a.val).prog = none ∧ (slotsOf a.val).all (fun i => !(s.slot i).gate) = true) ∧
    (∃ (a : Fin 4) (s : State),
    (s.pa a.val).prog.isSome = true) :=
  ⟨⟨5, 0x00831234, (fun b : State => b.put (Reg.CHN_PA_STATUS_BUSY 1) 0) .reset, by decide +kernel⟩,
    ⟨5, 0x00831234, (fun b : State => (b.put (Reg.CHN_PA_STATUS_BUSY 1) 0).putPa 1 ⟨some ⟨false, 5, 0, 1, 1⟩, [], [], []⟩) .reset, by decide +kernel⟩,
    ⟨5, 0x00831234, (fun b : State => (b.put (Reg.CHN_PA_STATUS_BUSY 1) 1).put (Reg.CHN_WR_CFG_STATUS_ERR 5) 0) .reset, by decide +kernel⟩,
    ⟨1, 0xABCD, ⟨true, 5, 0, 3, 1⟩, (fun b : State => b.putPa 1 ⟨some ⟨true, 5, 0, 3, 1⟩, [], [], []⟩) .reset, by decide +kernel⟩,
    ⟨1, 0x12345, ⟨true, 5, 0x2345, 1, 1⟩, { tMember 5 with ready := false }, (fun b : State => (b.putPa 1 ⟨some ⟨true, 5, 0x2345, 1, 1⟩, [], [], []⟩).modSlot 5 (fun x => { x with mem := some { tMember 5 with ready := false } })) .reset, by decide +kernel⟩,
    ⟨1, 0x12346, ⟨true, 5, 0x2345, 1, 1⟩, { tMember 5 with ready := false }, (fun b : State => (b.putPa 1 ⟨some ⟨true, 5, 0x2345, 1, 1⟩, [], [], []⟩).modSlot 5 (fun x => { x with mem := some { tMember 5 with ready := false } })) .reset, by decide +kernel⟩,
    ⟨1, (fun b : State => b) .reset, by decide +kernel⟩,
    ⟨1, (fun b : State => b) .reset, by decide +kernel⟩,
    ⟨1, (fun b : State => b.putPa 1 ⟨some ⟨true, 5, 0, 3, 1⟩, [], [], []⟩) .reset, by decide +kernel⟩⟩

theorem witness_MediaClock :
    (∃ (i : Fin 16) (x : Int) (samples : List Int) (m : Member) (s : State),
    (s.slot i.val).mem = some m ∧ s.srcState i.val ≠ 0 ∧ s.clockInvalid i.val m samples = true) ∧
    (∃ (i : Fin 16) (x : Int) (samples : List Int) (m : Member) (s : State),
    (s.slot i.val).mem = some m ∧ s.srcState i.val = 3 ∧ s.clockInvalid i.val m samples = false) ∧
    (∃ (i : Fin 16) (x : Int) (samples : List Int) (s : State),
    (s.slot i.val).mem = none) ∧
    (∃ (i : Fin 16) (m : Member) (s : State),
    (s.slot i.val).mem = some m ∧ s.get (Reg.CHN_MC_STATUS_LOCKED i.val) = 0 ∧ 4 ≤ (s.slot i.val).okRun) ∧
    (∃ (i : Fin 16) (s : State),
    (s.slot i.val).okRun < 4) ∧
    (∃ (i : Fin 16) (s : State),
    s.locked i.val = true ∧ s.mustUnlock i.val = true ∧ (s.slot i.val).gate = false) ∧
    (∃ (i : Fin 16) (s : State),
    s.locked i.val = true ∧ s.mustUnlock i.val = true ∧ (s.slot i.val).gate = true) ∧
    (∃ (i : Fin 16) (s : State),
    (s.slot i.val).badRun < 2 ∧ (s.slot i.val).invRun < 3 ∧ (s.sget (Reg.CHN_MC_TRIM_TRIM i.val)).natAbs < 335544) :=
  ⟨⟨5, 100, [], tMember 5, (fun b : State => ((b.modSlot 5 (fun x => { x with mem := some (tMember 5) })).put (Reg.SRV_STATUS_STATE 1) 4)) .reset, by decide +kernel⟩,
    ⟨5, 700000, [], tMember 5, (fun b : State => ((b.modSlot 5 (fun x => { x with mem := some (tMember 5) })).put (Reg.SRV_STATUS_STATE 1) 12).put (Reg.SRV_SCTL_S_TARGET 1) 0 |>.putSrc 5 { srcInit with flags := 0 }) .reset, by decide +kernel⟩,
    ⟨5, 4, [], (fun b : State => b.modSlot 5 (fun x => { x with mem := none })) .reset, by decide +kernel⟩,
    ⟨5, tMember 5, (fun b : State => ((b.modSlot 5 (fun x => { x with mem := some (tMember 5), okRun := 4 })).put (Reg.CHN_MC_STATUS_LOCKED 5) 0)) .reset, by decide +kernel⟩,
    ⟨5, (fun b : State => ((b.modSlot 5 (fun x => { x with okRun := 3 })))) .reset, by decide +kernel⟩,
    ⟨5, (fun b : State => (((b.modSlot 5 (fun x => { x with invRun := 3, validCnt := 9 })).put (Reg.CHN_MC_STATUS_LOCKED 5) 1).put Reg.SYS_CLK_FAULT0_FAULT 0).put Reg.SYS_CLK_FAULT1_FAULT 0) .reset, by decide +kernel⟩,
    ⟨5, (fun b : State => (((b.modSlot 5 (fun x => { x with gate := true, badRun := 2, validCnt := 9 })).put (Reg.CHN_MC_STATUS_LOCKED 5) 1).put Reg.SYS_CLK_FAULT0_FAULT 0).put Reg.SYS_CLK_FAULT1_FAULT 0) .reset, by decide +kernel⟩,
    ⟨5, (fun b : State => b.put (Reg.CHN_MC_TRIM_TRIM 5) 335543) .reset, by decide +kernel⟩⟩

theorem witness_CodewordsAndShock :
    (∃ (i : Fin 16) (info : Nat) (parity : Nat) (w : WrSect) (s : State),
    (s.slot i.val).wr = [w] ∧ w.released = false ∧ w.bad = false ∧ s.buf.flips = [] ∧ codewordOk w.header w.block (info % 2 ^ 32992 + 2 ^ 32992 * parity) = true) ∧
    (∃ (i : Fin 16) (info : Nat) (parity : Nat) (w : WrSect) (s : State),
    (s.slot i.val).wr = [w] ∧ w.released = false ∧ s.buf.flips = [] ∧ (w.bad = true ∨ codewordOk w.header w.block (info % 2 ^ 32992 + 2 ^ 32992 * parity) = false)) ∧
    (∃ (i : Fin 16) (w : WrSect) (s : State),
    (s.slot i.val).wr = [w] ∧ w.released = false) ∧
    (∃ (k : Fin 5) (code : Nat) (s : State),
    s.clkOk 41 = true ∧ hasBit (s.get Reg.CHN_SHK_CTL_EN) k.val = true ∧ ((code : Int) - 2048).natAbs ≤ s.get (if k.val < 3 then Reg.CHN_SHK_CTL_SHK_THR else Reg.CHN_SHK_CTL_RV_THR)) ∧
    (∃ (k : Fin 5) (code : Nat) (s : State),
    s.clkOk 41 = true ∧ hasBit (s.get Reg.CHN_SHK_CTL_EN) k.val = true ∧ s.get (if k.val < 3 then Reg.CHN_SHK_CTL_SHK_THR else Reg.CHN_SHK_CTL_RV_THR) < ((code : Int) - 2048).natAbs ∧ s.shock.active = true ∧ s.get Reg.CHN_SHK_STATUS_TRIP < 32) ∧
    (∃ (k : Fin 5) (code : Nat) (s : State),
    s.clkOk 41 = true ∧ hasBit (s.get Reg.CHN_SHK_CTL_EN) k.val = true ∧ s.get (if k.val < 3 then Reg.CHN_SHK_CTL_SHK_THR else Reg.CHN_SHK_CTL_RV_THR) < ((code : Int) - 2048).natAbs ∧ s.shock.active = false ∧ s.get Reg.CHN_SHK_STATUS_TRIP < 32) ∧
    (∃ (k : Fin 5) (code : Nat) (s : State),
    hasBit (s.get Reg.CHN_SHK_CTL_EN) k.val = false) ∧
    (∃ (s : State),
    s.shock.active = true ∧ (maskBits 5 (s.get Reg.CHN_SHK_CTL_EN)).all (fun k => decide (64 ≤ SMap.get s.shock.okRun 0 k)) = true) ∧
    (∃ (s : State),
    (maskBits 5 (s.get Reg.CHN_SHK_CTL_EN)).any (fun k => decide (SMap.get s.shock.okRun 0 k < 64)) = true) :=
  ⟨⟨5, 0, 0, tWr, (fun b : State => (b.setBuf { b.buf with flips := [] }).modSlot 5 (fun x => { x with wr := [tWr] })) .reset, by decide +kernel, by decide +kernel, by decide +kernel, by decide +kernel, by rw [Nat.zero_mod, Nat.mul_zero]; exact codewordOk_zero _ _⟩,
    ⟨5, 0, 0, { tWr with bad := true }, (fun b : State => (b.setBuf { b.buf with flips := [] }).modSlot 5 (fun x => { x with wr := [{ tWr with bad := true }] })) .reset, by decide +kernel, by decide +kernel, by decide +kernel, Or.inl rfl⟩,
    ⟨5, tWr, (fun b : State => b.modSlot 5 (fun x => { x with wr := [tWr] })) .reset, by decide +kernel⟩,
    ⟨1, 2000, (fun b : State => (((b.put Reg.CHN_SHK_CTL_EN 7).put Reg.CHN_SHK_CTL_SHK_THR 48).put Reg.SYS_CLK_FAULT1_FAULT 0).setPwr { b.pwr with clkStopped := 0 }) .reset, by decide +kernel⟩,
    ⟨4, 2000, (fun b : State => ((((b.put Reg.CHN_SHK_CTL_EN 31).put Reg.CHN_SHK_CTL_RV_THR 47).put Reg.SYS_CLK_FAULT1_FAULT 0).setPwr { b.pwr with clkStopped := 0 }).setShock ⟨[], true⟩) .reset, by decide +kernel⟩,
    ⟨2, 2000, (fun b : State => (((((b.put Reg.CHN_SHK_CTL_EN 31).put Reg.CHN_SHK_CTL_SHK_THR 47).put Reg.SYS_CLK_FAULT1_FAULT 0).setPwr { b.pwr with clkStopped := 0 }).modSlot 5 (fun x => { x with gate := true })).setShock ⟨[], false⟩) .reset, by decide +kernel⟩,
    ⟨1, 0, (fun b : State => b.put Reg.CHN_SHK_CTL_EN 0) .reset, by decide +kernel⟩,
    ⟨(fun b : State => (b.put Reg.CHN_SHK_CTL_EN 3).setShock ⟨[(0, 64), (1, 64)], true⟩) .reset, by decide +kernel⟩,
    ⟨(fun b : State => (b.put Reg.CHN_SHK_CTL_EN 3).setShock ⟨[(0, 64), (1, 63)], true⟩) .reset, by decide +kernel⟩⟩

theorem witness_TabArithmetic :
    (∃ (a : Fin 4) (j : Fin 4) (w : Nat) (s : State),
    s.fetches a.val j.val w 0 = true) ∧
    (∃ (a : Fin 4) (j : Fin 4) (w : Nat) (s : State),
    s.fetches a.val j.val w 1 = true ∧ tabImm w % 2 ^ 17 < s.cellsOf (4 * a.val + j.val)) ∧
    (∃ (a : Fin 4) (j : Fin 4) (w : Nat) (s : State),
    s.fetches a.val j.val w 1 = true ∧ 0 < s.cellsOf (4 * a.val + j.val) ∧ s.cellsOf (4 * a.val + j.val) ≤ tabImm w % 2 ^ 17) ∧
    (∃ (a : Fin 4) (j : Fin 4) (w : Nat) (c : Nat) (s : State),
    s.fetches a.val j.val w 2 = true ∧ s.cellsOf (4 * a.val + j.val) = c ∧ 0 < c) ∧
    (∃ (a : Fin 4) (j : Fin 4) (w : Nat) (s : State),
    s.fetches a.val j.val w 4 = true) ∧
    (∃ (a : Fin 4) (j : Fin 4) (w : Nat) (s : State),
    s.fetches a.val j.val w 3 = true) ∧
    (∃ (a : Fin 4) (j : Fin 4) (w : Nat) (s : State),
    s.fetches a.val j.val w 5 = true) ∧
    (∃ (a : Fin 4) (j : Fin 4) (w : Nat) (s : State),
    s.fetches a.val j.val w 6 = true) :=
  ⟨⟨1, 2, tOp 0 0 0, (fun b : State => tFmt b (tOp 0 0 0)) .reset, by decide +kernel⟩,
    ⟨1, 2, tOp 1 (5 * 2 ^ 17 + 19999) (2 ^ 43), (fun b : State => tFmt b (tOp 1 (5 * 2 ^ 17 + 19999) (2 ^ 43))) .reset, by decide +kernel⟩,
    ⟨1, 2, tOp 1 (5 * 2 ^ 17 + 20000) 0, (fun b : State => tFmt b (tOp 1 (5 * 2 ^ 17 + 20000) 0)) .reset, by decide +kernel⟩,
    ⟨1, 2, tOp 2 (2 ^ 18 - 61000) 0, 20000, (fun b : State => tFmt b (tOp 2 (2 ^ 18 - 61000) 0)) .reset, by decide +kernel⟩,
    ⟨1, 2, tOp 4 70000 0, (fun b : State => tFmt b (tOp 4 70000 0)) .reset, by decide +kernel⟩,
    ⟨1, 2, tOp 3 70000 (2 ^ 43 + 2 ^ 44), (fun b : State => tFmt b (tOp 3 70000 (2 ^ 43 + 2 ^ 44))) .reset, by decide +kernel⟩,
    ⟨1, 2, tOp 5 0 0, (fun b : State => tFmt b (tOp 5 0 0)) .reset, by decide +kernel⟩,
    ⟨1, 2, tOp 6 0 (2 ^ 44), (fun b : State => tFmt b (tOp 6 0 (2 ^ 44))) .reset, by decide +kernel⟩⟩

theorem witness_TabSectors :
    (∃ (a : Fin 4) (j : Fin 4) (u : Nat) (c : Nat) (w : Nat) (k : Nat) (r : Run) (rs : List Run) (m : Member) (s : State),
    s.fetches a.val j.val w 7 = true ∧ SMap.look (s.fmt a.val).cur j.val = none ∧ SMap.get (s.fmt a.val).queues [] j.val = r :: rs ∧ (s.slot (4 * a.val + j.val)).mem = some m ∧ (s.fmt a.val).done.length < 16 ∧ firstToArrive m.cells (s.lead a.val) ((s.atCell (4 * a.val + j.val) u c).position (4 * a.val + j.val)) r.first (List.range r.count) = some k) ∧
    (∃ (a : Fin 4) (j : Fin 4) (u : Nat) (c : Nat) (w : Nat) (k : Nat) (req : Nat) (r : Run) (rs : List Run) (m : Member) (s : State),
    s.fetches a.val j.val w 7 = true ∧ SMap.look (s.fmt a.val).cur j.val = none ∧ SMap.get (s.fmt a.val).queues [] j.val = r :: rs ∧ (s.slot (4 * a.val + j.val)).mem = some m ∧ (s.fmt a.val).done.length < 16 ∧ firstToArrive m.cells (s.lead a.val) ((s.atCell (4 * a.val + j.val) u c).position (4 * a.val + j.val)) r.first (List.range r.count) = some k ∧ (s.bufRead 0 (r.list + 8 * k) 8).1 = some req) ∧
    (∃ (a : Fin 4) (j : Fin 4) (u : Nat) (c : Nat) (w : Nat) (k : Nat) (r : Run) (rs : List Run) (m : Member) (s : State),
    s.fetches a.val j.val w 7 = true ∧ SMap.look (s.fmt a.val).cur j.val = none ∧ SMap.get (s.fmt a.val).queues [] j.val = r :: rs ∧ r.stat = [] ∧ (s.fmt a.val).cur.all (fun e => e.2.rid != r.rid) = true ∧ (s.slot (4 * a.val + j.val)).mem = some m ∧ (s.fmt a.val).done.length < 16 ∧ firstToArrive m.cells (s.lead a.val) ((s.atCell (4 * a.val + j.val) u c).position (4 * a.val + j.val)) r.first (List.range r.count) = some k ∧ (s.bufRead 0 (r.list + 8 * k) 8).1 = none) ∧
    (∃ (a : Fin 4) (j : Fin 4) (u : Nat) (c : Nat) (w : Nat) (s : State),
    s.fetches a.val j.val w 7 = true ∧ ((SMap.get (s.fmt a.val).queues [] j.val = [] ∨ (SMap.look (s.fmt a.val).cur j.val).isSome = true ∨ 16 ≤ (s.fmt a.val).done.length))) ∧
    (∃ (a : Fin 4) (j : Fin 4) (u : Nat) (c : Nat) (w : Nat) (r : Run) (m : Member) (s : State),
    s.fetches a.val j.val w 8 = true ∧ SMap.look (s.fmt a.val).cur j.val = some r ∧ (s.slot (4 * a.val + j.val)).mem = some m ∧ r.taken < r.count) ∧
    (∃ (a : Fin 4) (j : Fin 4) (u : Nat) (c : Nat) (w : Nat) (k : Nat) (r : Run) (m : Member) (s : State),
    s.fetches a.val j.val w 8 = true ∧ SMap.look (s.fmt a.val).cur j.val = some r ∧ (s.slot (4 * a.val + j.val)).mem = some m ∧ r.count ≤ r.taken ∧ firstToArrive m.cells (s.lead a.val) ((s.atCell (4 * a.val + j.val) u c).position (4 * a.val + j.val)) r.first r.revisit = some k) ∧
    (∃ (a : Fin 4) (j : Fin 4) (u : Nat) (c : Nat) (w : Nat) (r : Run) (m : Member) (s : State),
    s.fetches a.val j.val w 8 = true ∧ SMap.look (s.fmt a.val).cur j.val = some r ∧ (s.slot (4 * a.val + j.val)).mem = some m ∧ r.count ≤ r.taken ∧ r.revisit = []) ∧
    (∃ (a : Fin 4) (j : Fin 4) (w : Nat) (q : Cur) (m : Member) (f : Frag) (s : State),
    s.fetches a.val j.val w 9 = true ∧ (s.thread a.val j.val).cur = some q ∧ (s.slot (4 * a.val + j.val)).mem = some m ∧ (sectorFrags m.cells q.psi)[q.frag + 1]? = some f) ∧
    (∃ (a : Fin 4) (j : Fin 4) (w : Nat) (q : Cur) (m : Member) (f : Frag) (s : State),
    s.fetches a.val j.val w 12 = true ∧ (s.thread a.val j.val).cur = some q ∧ (s.slot (4 * a.val + j.val)).mem = some m ∧ (sectorFrags m.cells q.psi)[q.frag]? = some f) ∧
    (∃ (a : Fin 4) (j : Fin 4) (w : Nat) (q : Cur) (r : Run) (s : State),
    s.fetches a.val j.val w 10 = true ∧ (s.thread a.val j.val).cur = some q ∧ SMap.look (s.fmt a.val).cur j.val = some r ∧ r.rid = q.rid ∧ (r.write || s.sbFree (4 * a.val + j.val)) = true ∧ s.locked (4 * a.val + j.val) = true) ∧
    (∃ (a : Fin 4) (j : Fin 4) (w : Nat) (q : Cur) (r : Run) (s : State),
    s.fetches a.val j.val w 10 = true ∧ (s.thread a.val j.val).cur = some q ∧ SMap.look (s.fmt a.val).cur j.val = some r ∧ r.rid = q.rid ∧ r.write = false ∧ s.sbFree (4 * a.val + j.val) = false ∧ (s.slot (4 * a.val + j.val)).fifo.length < 32) ∧
    (∃ (a : Fin 4) (j : Fin 4) (w : Nat) (q : Cur) (r : Run) (s : State),
    s.fetches a.val j.val w 10 = true ∧ (s.thread a.val j.val).cur = some q ∧ (s.fmt a.val).cur = [(j.val, r)] ∧ r.rid = q.rid ∧ (r.write || s.sbFree (4 * a.val + j.val)) = true ∧ s.locked (4 * a.val + j.val) = false ∧ SMap.get r.used 0 q.idx < s.get (Reg.FMT_CTL_REVISIT a.val)) ∧
    (∃ (a : Fin 4) (j : Fin 4) (w : Nat) (q : Cur) (r : Run) (s : State),
    s.fetches a.val j.val w 10 = true ∧ (s.thread a.val j.val).cur = some q ∧ (s.fmt a.val).cur = [(j.val, r)] ∧ r.rid = q.rid ∧ (r.write || s.sbFree (4 * a.val + j.val)) = true ∧ s.locked (4 * a.val + j.val) = false ∧ s.get (Reg.FMT_CTL_REVISIT a.val) ≤ SMap.get r.used 0 q.idx) ∧
    (∃ (a : Fin 4) (j : Fin 4) (w : Nat) (s : State),
    s.fetches a.val j.val w 11 = true ∧ (s.slot (4 * a.val + j.val)).unfinished = none) ∧
    (∃ (a : Fin 4) (j : Fin 4) (w : Nat) (n : Nat) (s : State),
    s.fetches a.val j.val w 11 = true ∧ (s.slot (4 * a.val + j.val)).unfinished = some n) :=
  ⟨⟨1, 2, 0, 0, tOp 7 0 0, 1, tRun, [], tMember 6, (fun b : State => (tFmt b (tOp 7 0 0)).modFmt 1 (fun m => { m with queues := [(2, [tRun])] })) .reset, by decide +kernel⟩,
    ⟨1, 2, 0, 0, tOp 7 0 0, 1, 0x4000000000000, tRun, [], tMember 6, (fun b : State => ((tFmt (tHbm b) (tOp 7 0 0)).setPwr { b.pwr with dom := [(81, .on), (92, .on)] }).modFmt 1 (fun m => { m with queues := [(2, [tRun])] }) |>.storeMem 4104 0x4000000000000 8) .reset, by decide +kernel⟩,
    ⟨1, 2, 0, 0, tOp 7 0 0, 1, tRun, [], tMember 6, (fun b : State => ((tFmt b (tOp 7 0 0)).put Reg.BUF_STATUS_TRAINED 0).modFmt 1 (fun m => { m with queues := [(2, [tRun])] })) .reset, by decide +kernel⟩,
    ⟨1, 2, 0, 0, tOp 7 0 0, (fun b : State => (tFmt b (tOp 7 0 0))) .reset, by decide +kernel⟩,
    ⟨1, 2, 0, 0, tOp 8 0 0, { tRun with start := 2, taken := 2 }, tMember 6, (fun b : State => (tFmt b (tOp 8 0 0)).modFmt 1 (fun m => { m with cur := [(2, { tRun with start := 2, taken := 2 })] })) .reset, by decide +kernel⟩,
    ⟨1, 2, 0, 0, tOp 8 0 0, 1, { tRun with start := 2, taken := 3, revisit := [1] }, tMember 6, (fun b : State => (tFmt b (tOp 8 0 0)).modFmt 1 (fun m => { m with cur := [(2, { tRun with start := 2, taken := 3, revisit := [1] })] })) .reset, by decide +kernel⟩,
    ⟨1, 2, 0, 0, tOp 8 0 0, { tRun with start := 2, taken := 3 }, tMember 6, (fun b : State => (tFmt b (tOp 8 0 0)).modFmt 1 (fun m => { m with cur := [(2, { tRun with start := 2, taken := 3 })] })) .reset, by decide +kernel⟩,
    ⟨1, 2, tOp 9 0 0, tCur, tMember 6, ((sectorFrags 20000 1)[1]?).getD ⟨0, 0, 0⟩, (fun b : State => (tFmt b (tOp 9 0 0)).putThread 1 2 { tThread with cur := some tCur }) .reset, by decide +kernel⟩,
    ⟨1, 2, tOp 12 0 0, tCur, tMember 6, ((sectorFrags 20000 1)[0]?).getD ⟨0, 0, 0⟩, (fun b : State => (tFmt b (tOp 12 0 0)).putThread 1 2 { tThread with cur := some tCur }) .reset, by decide +kernel⟩,
    ⟨1, 2, tOp 10 0 0, tCur, tRun, (fun b : State => tSkip b tRun true []) .reset, by decide +kernel⟩,
    ⟨1, 2, tOp 10 0 0, tCur, { tRun with write := false }, (fun b : State => tSkip b { tRun with write := false } true [(0, tSect), (1, tSect)]) .reset, by decide +kernel⟩,
    ⟨1, 2, tOp 10 0 0, tCur, tRun, (fun b : State => tSkip b tRun false []) .reset, by decide +kernel⟩,
    ⟨1, 2, tOp 10 0 0, tCur, { tRun with used := [(1, 16)] }, (fun b : State => tSkip b { tRun with used := [(1, 16)] } false []) .reset, by decide +kernel⟩,
    ⟨1, 2, tOp 11 0 0, (fun b : State => (tFmt b (tOp 11 0 0)).modSlot 6 (fun x => { x with started := none })) .reset, by decide +kernel⟩,
    ⟨1, 2, tOp 11 0 0, 3, (fun b : State => (tFmt b (tOp 11 0 0)).modSlot 6 (fun x => { x with started := some 3, wr := [tWr, { tWr with sec := 4 }] })) .reset, by decide +kernel⟩⟩

theorem witness_EdgeQueue :
    (∃ (a : Fin 4) (j : Fin 4) (u : Nat) (c : Nat) (w : Nat) (s : State),
    (s.thread a.val j.val).word = some w ∧ (s.thread a.val j.val).pushDue = false ∧ s.stepping a.val = true ∧ s.condition a.val j.val ((s.atCell (4 * a.val + j.val) u c).position (4 * a.val + j.val)) (tabCond w) ≠ hasBit w 34) ∧
    (∃ (a : Fin 4) (j : Fin 4) (u : Nat) (c : Nat) (w : Nat) (s : State),
    (s.thread a.val j.val).word = some w ∧ (s.thread a.val j.val).pushDue = false ∧ s.stepping a.val = true ∧ s.condition a.val j.val ((s.atCell (4 * a.val + j.val) u c).position (4 * a.val + j.val)) (tabCond w) = hasBit w 34) ∧
    (∃ (a : Fin 4) (j : Fin 4) (u : Nat) (c : Nat) (s : State),
    ((s.thread a.val j.val).pushDue || !s.stepping a.val) = true) ∧
    (∃ (a : Fin 4) (j : Fin 4) (u : Nat) (c : Nat) (w : Nat) (s : State),
    (s.thread a.val j.val).word = some w ∧ (s.thread a.val j.val).pushDue = true ∧ s.stepping a.val = true ∧ (s.slot (4 * a.val + j.val)).eq.length < 8 ∧ (s.slot (4 * a.val + j.val)).discard = none ∧ (((s.slot (4 * a.val + j.val)).rd = [] ∨ s.sbFree (4 * a.val + j.val) = true)) ∧ s.entryLate a.val j.val ((s.atCell (4 * a.val + j.val) u c).position (4 * a.val + j.val)) ⟨(s.thread a.val j.val).cmpW, (s.thread a.val j.val).cmpC, hasBit w 39, hasBit w 40, hasBit w 41, hasBit w 42, ((s.thread a.val j.val).cur.map Cur.sec).getD 0⟩ = false) ∧
    (∃ (a : Fin 4) (j : Fin 4) (u : Nat) (c : Nat) (s : State),
    ((8 ≤ (s.slot (4 * a.val + j.val)).eq.length ∨ (s.thread a.val j.val).pushDue = false ∨ s.stepping a.val = false))) ∧
    (∃ (a : Fin 4) (j : Fin 4) (u : Nat) (c : Nat) (w : Nat) (q : Cur) (x : WrSect) (r : Run) (s : State),
    (s.thread a.val j.val).word = some w ∧ (s.thread a.val j.val).pushDue = true ∧ s.stepping a.val = true ∧ (s.slot (4 * a.val + j.val)).eq.length < 8 ∧ (s.slot (4 * a.val + j.val)).discard = none ∧ (s.thread a.val j.val).cur = some q ∧ (s.slot (4 * a.val + j.val)).gate = false ∧ (s.slot (4 * a.val + j.val)).wr = [x] ∧ x.sec = q.sec ∧ (s.slot (4 * a.val + j.val)).rd = [] ∧ (s.fmt a.val).cur = [(j.val, r)] ∧ r.rid = x.rid ∧ s.entryLate a.val j.val ((s.atCell (4 * a.val + j.val) u c).position (4 * a.val + j.val)) ⟨(s.thread a.val j.val).cmpW, (s.thread a.val j.val).cmpC, hasBit w 39, hasBit w 40, hasBit w 41, hasBit w 42, q.sec⟩ = true) ∧
    (∃ (a : Fin 4) (j : Fin 4) (u : Nat) (c : Nat) (w : Nat) (q : Cur) (d : RdSect) (r : Run) (s : State),
    (s.thread a.val j.val).word = some w ∧ hasBit w 39 = true ∧ (s.thread a.val j.val).pushDue = true ∧ s.stepping a.val = true ∧ (s.slot (4 * a.val + j.val)).eq.length < 8 ∧ (s.slot (4 * a.val + j.val)).discard = none ∧ (s.thread a.val j.val).cur = some q ∧ (s.slot (4 * a.val + j.val)).gate = false ∧ (s.slot (4 * a.val + j.val)).wr = [] ∧ (s.slot (4 * a.val + j.val)).rd = [d] ∧ d.sec = q.sec ∧ s.sbFree (4 * a.val + j.val) = false ∧ (s.slot (4 * a.val + j.val)).fifo.length < 32 ∧ (s.fmt a.val).cur = [(j.val, r)] ∧ r.rid = d.rid) ∧
    (∃ (a : Fin 4) (j : Fin 4) (u : Nat) (c : Nat) (w : Nat) (q : Cur) (s : State),
    (s.thread a.val j.val).word = some w ∧ (s.thread a.val j.val).pushDue = true ∧ s.stepping a.val = true ∧ (s.slot (4 * a.val + j.val)).eq.length < 8 ∧ (s.thread a.val j.val).cur = some q ∧ q.sec ≠ 0 ∧ (s.slot (4 * a.val + j.val)).discard = some q.sec) ∧
    (∃ (i : Fin 16) (e : Edge) (es : List Edge) (s : State),
    (s.slot i.val).eq = e :: es ∧ e.rg = (s.slot i.val).rg ∧ e.sg = (s.slot i.val).sg ∧ e.fw = (s.slot i.val).fw ∧ e.wg = false ∧ (s.slot i.val).gate = false ∧ (s.slot i.val).rd = []) ∧
    (∃ (i : Fin 16) (e : Edge) (es : List Edge) (d : RdSect) (m : Member) (s : State),
    (s.slot i.val).eq = e :: es ∧ e.rg = true ∧ e.wg = false ∧ (s.slot i.val).gate = false ∧ e.sg = (s.slot i.val).sg ∧ e.fw = (s.slot i.val).fw ∧ (s.slot i.val).rd = [d] ∧ d.sec = e.sec ∧ (s.slot i.val).mem = some m ∧ m.ready = true ∧ s.locked i.val = true ∧ s.sbFree i.val = true ∧ s.srcState i.val ≠ 1) ∧
    (∃ (i : Fin 16) (e : Edge) (es : List Edge) (w : WrSect) (m : Member) (s : State),
    (s.slot i.val).eq = e :: es ∧ e.rg = (s.slot i.val).rg ∧ e.sg = (s.slot i.val).sg ∧ e.fw = (s.slot i.val).fw ∧ e.wg = true ∧ (s.slot i.val).rd = [] ∧ (s.slot i.val).wg = false ∧ (s.slot i.val).wr = [w] ∧ w.sec = e.sec ∧ w.released = true ∧ (s.slot i.val).mem = some m ∧ m.ready = true ∧ s.unsafeMask i.val % 1024 = 0 ∧ s.srcState i.val ≠ 1 ∧ atOrAfter (512 * m.cells) ((w.frag m.cells).2.cell m.cells) (e.w * m.cells + e.c) = true ∧ s.locked i.val = true) ∧
    (∃ (i : Fin 16) (e : Edge) (es : List Edge) (w : WrSect) (m : Member) (r : Run) (s : State),
    (s.slot i.val).eq = e :: es ∧ e.rg = (s.slot i.val).rg ∧ e.sg = (s.slot i.val).sg ∧ e.fw = (s.slot i.val).fw ∧ e.wg = false ∧ (s.slot i.val).gate = true ∧ (s.slot i.val).rd = [] ∧ (s.slot i.val).wr = [w] ∧ (s.slot i.val).started = some w.sec ∧ (s.slot i.val).mem = some m ∧ w.fragsLeft ≤ 1 ∧ (s.fmt (i.val / 4)).cur = [(i.val % 4, r)] ∧ r.rid = w.rid ∧ r.stat = [] ∧ atOrAfter (512 * m.cells) (e.w * m.cells + e.c) ((w.frag m.cells).2.cell m.cells + (w.frag m.cells).2.len ((w.frag m.cells).1 == 0) - 16) = true) ∧
    (∃ (i : Fin 16) (e : Edge) (es : List Edge) (w : WrSect) (m : Member) (r : Run) (s : State),
    (s.slot i.val).eq = e :: es ∧ e.rg = (s.slot i.val).rg ∧ e.sg = (s.slot i.val).sg ∧ e.fw = (s.slot i.val).fw ∧ e.wg = false ∧ (s.slot i.val).gate = true ∧ (s.slot i.val).rd = [] ∧ (s.slot i.val).wr = [w] ∧ (s.slot i.val).started = some w.sec ∧ (s.slot i.val).mem = some m ∧ s.spt.failSrc = false ∧ (s.fmt (i.val / 4)).cur = [(i.val % 4, r)] ∧ r.rid = w.rid ∧ SMap.get r.used 0 w.idx < s.get (Reg.FMT_CTL_REVISIT (i.val / 4)) ∧ atOrAfter (512 * m.cells) (e.w * m.cells + e.c) ((w.frag m.cells).2.cell m.cells + (w.frag m.cells).2.len ((w.frag m.cells).1 == 0) - 16) = false) ∧
    (∃ (i : Fin 16) (e : Edge) (es : List Edge) (m : Member) (s : State),
    (s.slot i.val).eq = e :: es ∧ e.rg = (s.slot i.val).rg ∧ (s.slot i.val).rd = [] ∧ e.sg = true ∧ (s.slot i.val).sg = false ∧ (s.slot i.val).dataGain = none ∧ (s.slot i.val).mem = some m ∧ e.fw = (s.slot i.val).fw ∧ e.wg = false ∧ (s.slot i.val).gate = false ∧ s.srcState i.val ≠ 1) :=
  ⟨⟨1, 2, 0, 0, tOp 0 0 (3 * 2 ^ 28 + 2 ^ 34 + 2 ^ 27 + 9 * 2 ^ 14 + 7), (fun b : State => (tFmt b 0).putThread 1 2 { tThread with word := some (tOp 0 0 (3 * 2 ^ 28 + 2 ^ 34 + 2 ^ 27 + 9 * 2 ^ 14 + 7)) }) .reset, by decide +kernel⟩,
    ⟨1, 2, 0, 0, tOp 0 0 (4 * 2 ^ 28 + 2 ^ 34 + 2 ^ 27 + 9 * 2 ^ 14 + 7), (fun b : State => (tFmt b 0).putThread 1 2 { tThread with word := some (tOp 0 0 (4 * 2 ^ 28 + 2 ^ 34 + 2 ^ 27 + 9 * 2 ^ 14 + 7)) }) .reset, by decide +kernel⟩,
    ⟨1, 2, 0, 11, (fun b : State => (tFmt b 0).putThread 1 2 { tThread with word := some 0, pushDue := true }) .reset, by decide +kernel⟩,
    ⟨1, 2, 0, 20, 2 ^ 43 + 2 ^ 39, (fun b : State => (tFmt b 0).putThread 1 2 { tThread with word := some (2 ^ 43 + 2 ^ 39), pushDue := true, cur := some tCur }) .reset, by decide +kernel⟩,
    ⟨1, 2, 0, 11, (fun b : State => (tFmt b 0).modSlot 6 (fun x => { x with eq := List.replicate 8 ⟨1, 2, true, false, false, false, 0⟩ })) .reset, by decide +kernel⟩,
    ⟨1, 2, 0, 20, 2 ^ 43 + 2 ^ 39 + 2 ^ 40, tCur, { tWr with sec := 9, rid := 7 }, tRun, (fun b : State => tPush b (2 ^ 43 + 2 ^ 39 + 2 ^ 40) (fun x => { x with wr := [{ tWr with sec := 9, rid := 7 }] })) .reset, by decide +kernel⟩,
    ⟨1, 2, 0, 20, 2 ^ 43 + 2 ^ 39, tCur, ⟨9, 7, 1, 4, 4096, 0, 1⟩, tRun, (fun b : State => tPush b (2 ^ 43 + 2 ^ 39) (fun x => { x with rd := [⟨9, 7, 1, 4, 4096, 0, 1⟩], sects := [(0, tSect), (1, tSect)] })) .reset, by decide +kernel⟩,
    ⟨1, 2, 0, 20, 2 ^ 43 + 2 ^ 39, tCur, (fun b : State => tPush b (2 ^ 43 + 2 ^ 39) (fun x => { x with discard := some 9 })) .reset, by decide +kernel⟩,
    ⟨6, ⟨1, 2, true, false, false, false, 4⟩, [⟨1, 3, true, false, false, false, 0⟩], (fun b : State => b.modSlot 6 (fun x => { x with rg := true, eq := [⟨1, 2, true, false, false, false, 4⟩, ⟨1, 3, true, false, false, false, 0⟩] })) .reset, by decide +kernel⟩,
    ⟨6, ⟨1, 2, true, false, false, false, 9⟩, [], ⟨9, 7, 1, 4, 4096, 0, 1⟩, tMember 6, (fun b : State => tSafe b (fun x => { x with rd := [⟨9, 7, 1, 4, 4096, 0, 1⟩], eq := [⟨1, 2, true, false, false, false, 9⟩] })) .reset, by decide +kernel⟩,
    ⟨6, ⟨4, 0, false, true, false, true, 3⟩, [], { tWr with released := true }, tMember 6, (fun b : State => tSafe b (fun x => { x with fw := true, wr := [{ tWr with released := true }], eq := [⟨4, 0, false, true, false, true, 3⟩] })) .reset, by decide +kernel⟩,
    ⟨6, ⟨200, 2, false, false, false, true, 3⟩, [], { tWr with rid := 7 }, tMember 6, tRun, (fun b : State => (tSafe b (fun x => { x with gate := true, wg := true, fw := true, started := some 3, wr := [{ tWr with rid := 7 }], eq := [⟨200, 2, false, false, false, true, 3⟩] })).modFmt 1 (fun m => { m with cur := [(2, tRun)] })) .reset, by decide +kernel⟩,
    ⟨6, ⟨4, 0, false, false, false, true, 3⟩, [], { tWr with rid := 7 }, tMember 6, tRun, (fun b : State => (tSafe b (fun x => { x with gate := true, wg := true, fw := true, started := some 3, wr := [{ tWr with rid := 7 }], eq := [⟨4, 0, false, false, false, true, 3⟩] })).modFmt 1 (fun m => { m with cur := [(2, tRun)] })) .reset, by decide +kernel⟩,
    ⟨6, ⟨1, 2, false, false, true, false, 0⟩, [], tMember 6, (fun b : State => tSafe b (fun x => { x with eq := [⟨1, 2, false, false, true, false, 0⟩] })) .reset, by decide +kernel⟩⟩

theorem witness_FormatterRuns :
    (∃ (a : Fin 4) (v : Word) (n : Nat) (j : Nat) (m : Member) (s : State),
    s.domOn (80 + a.val) = true ∧ s.get (Reg.FMT_RUN_D0_COUNT a.val) = n ∧ s.get (Reg.FMT_RUN_D0_SLOT a.val) = j ∧ 1 ≤ n ∧ n ≤ 2048 ∧ s.get (Reg.FMT_RUN_D1_LIST a.val) * 8 + 8 * n ≤ 2 ^ 34 ∧ hasBit (s.get (Reg.FMT_STATUS_MEMBER a.val)) j = true ∧ (s.slot (4 * a.val + j)).mem = some m ∧ s.get (Reg.FMT_RUN_D0_FIRST_PSI a.val) + n ≤ sectorCount m.cells ∧ (SMap.get (s.fmt a.val).queues [] j).length < 4) ∧
    (∃ (a : Fin 4) (v : Word) (s : State),
    s.domOn (80 + a.val) = true ∧ s.get (Reg.FMT_RUN_D0_COUNT a.val) = 0 ∧ s.get (Reg.FMT_CFG_STATUS_ERR a.val) = 0) ∧
    (∃ (a : Fin 4) (v : Word) (s : State),
    s.domOn (80 + a.val) = true ∧ 2048 < s.get (Reg.FMT_RUN_D0_COUNT a.val) ∧ s.get (Reg.FMT_CFG_STATUS_ERR a.val) = 0) ∧
    (∃ (a : Fin 4) (v : Word) (n : Nat) (s : State),
    s.domOn (80 + a.val) = true ∧ s.get (Reg.FMT_CFG_STATUS_ERR a.val) = 0 ∧ s.get (Reg.FMT_RUN_D0_COUNT a.val) = n ∧ 1 ≤ n ∧ n ≤ 2048 ∧ 2 ^ 34 < s.get (Reg.FMT_RUN_D1_LIST a.val) * 8 + 8 * n) ∧
    (∃ (a : Fin 4) (v : Word) (n : Nat) (j : Nat) (m : Member) (s : State),
    s.domOn (80 + a.val) = true ∧ s.get (Reg.FMT_CFG_STATUS_ERR a.val) = 0 ∧ s.get (Reg.FMT_RUN_D0_COUNT a.val) = n ∧ s.get (Reg.FMT_RUN_D0_SLOT a.val) = j ∧ 1 ≤ n ∧ n ≤ 2048 ∧ s.get (Reg.FMT_RUN_D1_LIST a.val) * 8 + 8 * n ≤ 2 ^ 34 ∧ hasBit (s.get (Reg.FMT_STATUS_MEMBER a.val)) j = true ∧ (s.slot (4 * a.val + j)).mem = some m ∧ sectorCount m.cells < s.get (Reg.FMT_RUN_D0_FIRST_PSI a.val) + n) ∧
    (∃ (a : Fin 4) (v : Word) (n : Nat) (j : Nat) (m : Member) (s : State),
    s.domOn (80 + a.val) = true ∧ s.get (Reg.FMT_CFG_STATUS_ERR a.val) = 0 ∧ s.get (Reg.FMT_RUN_D0_COUNT a.val) = n ∧ s.get (Reg.FMT_RUN_D0_SLOT a.val) = j ∧ 1 ≤ n ∧ n ≤ 2048 ∧ s.get (Reg.FMT_RUN_D1_LIST a.val) * 8 + 8 * n ≤ 2 ^ 34 ∧ hasBit (s.get (Reg.FMT_STATUS_MEMBER a.val)) j = true ∧ (s.slot (4 * a.val + j)).mem = some m ∧ s.get (Reg.FMT_RUN_D0_FIRST_PSI a.val) + n ≤ sectorCount m.cells ∧ 4 ≤ (SMap.get (s.fmt a.val).queues [] j).length) ∧
    (∃ (a : Fin 4) (v : Word) (n : Nat) (j : Nat) (s : State),
    s.domOn (80 + a.val) = true ∧ s.get (Reg.FMT_CFG_STATUS_ERR a.val) = 0 ∧ s.get (Reg.FMT_RUN_D0_COUNT a.val) = n ∧ s.get (Reg.FMT_RUN_D0_SLOT a.val) = j ∧ 1 ≤ n ∧ n ≤ 2048 ∧ s.get (Reg.FMT_RUN_D1_LIST a.val) * 8 + 8 * n ≤ 2 ^ 34 ∧ hasBit (s.get (Reg.FMT_STATUS_MEMBER a.val)) j = false) ∧
    (∃ (a : Fin 4) (v : Word) (s : State),
    s.domOn (80 + a.val) = false) ∧
    (∃ (a : Fin 4) (j : Fin 4) (r : Run) (s : State),
    (s.fmt a.val).done.length < 16 ∧ SMap.look (s.fmt a.val).cur j.val = some r ∧ r.stat.length = r.count) ∧
    (∃ (a : Fin 4) (j : Fin 4) (k : Nat) (r : Run) (s : State),
    (s.fmt a.val).done.length < 16 ∧ SMap.look (s.fmt a.val).cur j.val = none ∧ (s.fmt a.val).ended = [(k, r)] ∧ r.stat.length = r.count) ∧
    (∃ (a : Fin 4) (d : Nat) (ds : List Nat) (s : State),
    s.domOn (80 + a.val) = true ∧ (s.fmt a.val).done = d :: ds) ∧
    (∃ (a : Fin 4) (s : State),
    s.domOn (80 + a.val) = true ∧ (s.fmt a.val).done = []) ∧
    (∃ (a : Fin 4) (j : Fin 4) (k : Nat) (ks : List Nat) (r : Run) (s : State),
    SMap.look (s.fmt a.val).cur j.val = some r ∧ ((∀ e ∈ (s.fmt a.val).cur ++ (s.fmt a.val).ended, e.2.rid = r.rid → e.2 = r)) ∧ r.exhausted = k :: ks ∧ SMap.get r.stat 0 k = 0) ∧
    (∃ (a : Fin 4) (j : Fin 4) (k : Nat) (req : Nat) (ks : List Nat) (r : Run) (b : CacheBlk) (s : State),
    SMap.look (s.fmt a.val).cur j.val = some r ∧ r.exhausted = k :: ks ∧ r.write = true ∧ (((s.modRun a.val r.rid (fun x => { x with exhausted := ks })).finalStatus a.val r.rid k 3).bufRead 0 (r.list + 8 * k) 8).1 = some req ∧ SMap.look s.cache (req % 2 ^ 34) = some b ∧ b.win = none ∧ b.committed = false) ∧
    (∃ (a : Fin 4) (v : Word) (s : State),
    s.fitted a.val = true ∧ s.domOn (80 + a.val) = true ∧ hasBit v.toNat 0 = true ∧ s.courseOk a.val (s.stagedCourse a.val) = true) ∧
    (∃ (a : Fin 4) (v : Word) (s : State),
    s.fitted a.val = true ∧ s.domOn (80 + a.val) = true ∧ hasBit v.toNat 0 = true ∧ s.courseOk a.val (s.stagedCourse a.val) = false ∧ s.get (Reg.FMT_CFG_STATUS_ERR a.val) = 0) ∧
    (∃ (a : Fin 4) (v : Word) (s : State),
    s.fitted a.val = false ∧ hasBit v.toNat 0 = true ∧ s.get (Reg.FMT_CFG_STATUS_ERR a.val) = 0) ∧
    (∃ (a : Fin 4) (cs : List (Nat × CMember)) (s : State),
    (s.fmt a.val).pend = some cs ∧ ((∀ j : Fin 4, (s.thread a.val j.val).barrier = true ∧ (s.slot (4 * a.val + j.val)).unfinished = none))) ∧
    (∃ (a : Fin 4) (j : Fin 4) (cs : List (Nat × CMember)) (r : Run) (s : State),
    (s.fmt a.val).pend = some cs ∧ ((∀ k : Fin 4, (s.thread a.val k.val).barrier = true ∧ (s.slot (4 * a.val + k.val)).unfinished = none)) ∧ (s.fmt a.val).cur = [(j.val, r)] ∧ (s.fmt a.val).queues = [] ∧ (s.fmt a.val).ended = [] ∧ r.stat = [] ∧ 0 < r.count ∧ (List.range r.count).all (fun k => !s.undecided a.val r.rid k) = true ∧ (s.fmt a.val).done.length < 16) ∧
    (∃ (a : Fin 4) (j : Fin 4) (s : State),
    (((s.fmt a.val).pend = none ∨ (s.thread a.val j.val).barrier = false ∨ (s.slot (4 * a.val + j.val)).unfinished ≠ none))) ∧
    (∃ (a : Fin 4) (v : Word) (s : State),
    s.domOn (80 + a.val) = true ∧ s.get (Reg.FMT_CTL_RUN a.val) = 0 ∧ s.get (Reg.FMT_STATUS_HALTED a.val) = 1 ∧ s.get (Reg.FMT_CAPO_ADDR_PART a.val) < 3) ∧
    (∃ (a : Fin 4) (v : Word) (s : State),
    s.domOn (80 + a.val) = true ∧ s.get (Reg.FMT_CTL_RUN a.val) = 0 ∧ s.get (Reg.FMT_STATUS_HALTED a.val) = 1 ∧ s.get (Reg.FMT_CAPO_ADDR_PART a.val) = 3) ∧
    (∃ (a : Fin 4) (v : Word) (s : State),
    s.domOn (80 + a.val) = true ∧ ((s.get (Reg.FMT_CTL_RUN a.val) = 1 ∨ s.get (Reg.FMT_STATUS_HALTED a.val) = 0)) ∧ s.get (Reg.FMT_CFG_STATUS_ERR a.val) = 0) ∧
    (∃ (a : Fin 4) (v : Word) (s : State),
    s.domOn (80 + a.val) = true) ∧
    (∃ (a : Fin 4) (f : Nat) (w : Nat) (s : State),
    s.get (Reg.FMT_CAPO_STATUS_BUSY a.val) = 1 ∧ s.capoCheck a.val = some (f, w)) ∧
    (∃ (a : Fin 4) (s : State),
    s.get (Reg.FMT_CAPO_STATUS_BUSY a.val) = 1 ∧ s.capoCheck a.val = none) ∧
    (∃ (a : Fin 4) (v : Word) (s : State),
    s.domOn (80 + a.val) = true ∧ hasBit v.toNat 15 = false ∧ 1 ≤ bits v.toNat 11 8 ∧ 2 ≤ bits v.toNat 7 0 ∧ bits v.toNat 7 0 ≤ 128 ∧ s.get (Reg.FMT_CAPO_STATUS_OK a.val) = 1) ∧
    (∃ (a : Fin 4) (v : Word) (s : State),
    s.domOn (80 + a.val) = true ∧ s.get (Reg.FMT_CFG_STATUS_ERR a.val) = 0 ∧ hasBit v.toNat 15 = false ∧ ((bits v.toNat 11 8 = 0 ∨ bits v.toNat 7 0 = 0))) ∧
    (∃ (a : Fin 4) (v : Word) (s : State),
    s.domOn (80 + a.val) = true ∧ s.get (Reg.FMT_CFG_STATUS_ERR a.val) = 0 ∧ hasBit v.toNat 15 = false ∧ bits v.toNat 11 8 ≠ 0 ∧ ((bits v.toNat 7 0 = 1 ∨ 128 < bits v.toNat 7 0))) ∧
    (∃ (a : Fin 4) (v : Word) (n : Fin 32) (s : State),
    s.domOn (80 + a.val) = true ∧ s.get (Reg.FMT_CFG_STATUS_ERR a.val) = 0 ∧ hasBit v.toNat 15 = false ∧ bits v.toNat 11 8 ≠ 0 ∧ 2 ≤ bits v.toNat 7 0 ∧ bits v.toNat 7 0 ≤ 128 ∧ hasBit v.toNat 14 = true ∧ s.get (Reg.FMT_CAPO_STATUS_OK a.val) = 0 ∧ s.get (Reg.FMT_CAPO_MATCH_EN a.val n.val) = 1) ∧
    (∃ (a : Fin 4) (v : Word) (s : State),
    s.domOn (80 + a.val) = true ∧ hasBit v.toNat 15 = true ∧ bits v.toNat 31 16 = 0x5A5A) ∧
    (∃ (a : Fin 4) (v : Word) (s : State),
    s.domOn (80 + a.val) = true ∧ hasBit v.toNat 15 = true ∧ bits v.toNat 31 16 ≠ 0x5A5A) ∧
    (∃ (a : Fin 4) (j : Fin 4) (f : Nat) (c : Nat) (s : State),
    s.canFetch a.val j.val = true ∧ tabFault ((s.fetchTab a.val (s.thread a.val j.val)).2.2 ^^^ f) = some c) ∧
    (∃ (a : Fin 4) (j : Fin 4) (f : Nat) (s : State),
    ((s.canFetch a.val j.val = false ∨ tabFault ((s.fetchTab a.val (s.thread a.val j.val)).2.2 ^^^ f) = none))) ∧
    (∃ (a : Fin 4) (f : Nat) (s : State),
    s.domOn (80 + a.val) = true ∧ (s.fmt a.val).sweep < 8192 ∧ s.get (Reg.FMT_MCHK_VALID a.val) = 0 ∧ (oddParity 64 (f % 2 ^ 64) || oddParity 64 (f / 2 ^ 64)) = true) ∧
    (∃ (a : Fin 4) (f : Nat) (w : Nat) (s : State),
    s.domOn (80 + a.val) = true ∧ 8192 ≤ (s.fmt a.val).sweep ∧ (s.fmt a.val).sweep < 8448 ∧ s.get (Reg.FMT_MCHK_VALID a.val) = 0 ∧ s.get (Reg.FMT_CAPO_STATUS_OK a.val) = 1 ∧ s.patchWord a.val ((s.fmt a.val).sweep - 8192) = w ∧ (oddParity 64 ((w ^^^ f) % 2 ^ 64) || oddParity 64 ((w ^^^ f) / 2 ^ 64)) = true) ∧
    (∃ (a : Fin 4) (s : State),
    s.domOn (80 + a.val) = true ∧ (s.fmt a.val).sweep < 8448 ∧ ((8192 ≤ (s.fmt a.val).sweep → s.get (Reg.FMT_CAPO_STATUS_OK a.val) = 0))) ∧
    (∃ (a : Fin 4) (fs : List Nat) (s : State),
    s.domOn (80 + a.val) = true ∧ 8448 ≤ (s.fmt a.val).sweep ∧ s.get (Reg.FMT_CAPO_STATUS_OK a.val) = 0) ∧
    (∃ (a : Fin 4) (fs : List Nat) (s : State),
    s.domOn (80 + a.val) = true ∧ 8448 ≤ (s.fmt a.val).sweep ∧ s.get (Reg.FMT_CAPO_STATUS_OK a.val) = 1 ∧ fs.all (fun n => !oddParity 32 n) = true ∧ s.patchCrcRead a.val fs = (s.fmt a.val).lastCrc) ∧
    (∃ (a : Fin 4) (d : Nat) (fs : List Nat) (s : State),
    s.domOn (80 + a.val) = true ∧ 8448 ≤ (s.fmt a.val).sweep ∧ 0 < d ∧ s.get (Reg.FMT_MCHK_VALID a.val) = 0) ∧
    (∃ (a : Fin 4) (fs : List Nat) (s : State),
    s.domOn (80 + a.val) = true ∧ 8448 ≤ (s.fmt a.val).sweep ∧ s.get (Reg.FMT_MCHK_VALID a.val) = 0 ∧ s.get (Reg.FMT_CAPO_STATUS_OK a.val) = 1 ∧ (fs.any (fun n => oddParity 32 n) || s.patchCrcRead a.val fs != (s.fmt a.val).lastCrc) = true) :=
  ⟨⟨1, 77, 3, 2, tMember 6, (fun b : State => ((((((tFmt b 0).put (Reg.FMT_RUN_D0_COUNT 1) 3).put (Reg.FMT_RUN_D0_SLOT 1) 2).put (Reg.FMT_RUN_D0_FIRST_PSI 1) 4).put (Reg.FMT_RUN_D1_LIST 1) 512).put (Reg.FMT_RUN_D0_DIR 1) 1).put (Reg.FMT_STATUS_MEMBER 1) 4) .reset, by decide +kernel⟩,
    ⟨1, 77, (fun b : State => ((tFmt b 0).put (Reg.FMT_RUN_D0_COUNT 1) 0).put (Reg.FMT_CFG_STATUS_ERR 1) 0) .reset, by decide +kernel⟩,
    ⟨1, 77, (fun b : State => ((tFmt b 0).put (Reg.FMT_RUN_D0_COUNT 1) 2049).put (Reg.FMT_CFG_STATUS_ERR 1) 0) .reset, by decide +kernel⟩,
    ⟨1, 77, 2048, (fun b : State => (((tFmt b 0).put (Reg.FMT_RUN_D0_COUNT 1) 2048).put (Reg.FMT_CFG_STATUS_ERR 1) 0).put (Reg.FMT_RUN_D1_LIST 1) 0x7FFFFFFF) .reset, by decide +kernel⟩,
    ⟨1, 77, 3, 2, tMember 6, (fun b : State => ((((((tFmt b 0).put (Reg.FMT_RUN_D0_COUNT 1) 3).put (Reg.FMT_RUN_D0_SLOT 1) 2).put (Reg.FMT_RUN_D0_FIRST_PSI 1) 2046).put (Reg.FMT_RUN_D1_LIST 1) 512).put (Reg.FMT_CFG_STATUS_ERR 1) 0).put (Reg.FMT_STATUS_MEMBER 1) 4) .reset, by decide +kernel⟩,
    ⟨1, 77, 3, 2, tMember 6, (fun b : State => (((((((tFmt b 0).put (Reg.FMT_RUN_D0_COUNT 1) 3).put (Reg.FMT_RUN_D0_SLOT 1) 2).put (Reg.FMT_RUN_D0_FIRST_PSI 1) 4).put (Reg.FMT_RUN_D1_LIST 1) 512).put (Reg.FMT_CFG_STATUS_ERR 1) 0).put (Reg.FMT_STATUS_MEMBER 1) 4).modFmt 1 (fun m => { m with queues := [(2, [tRun, tRun, tRun, tRun])] })) .reset, by decide +kernel⟩,
    ⟨1, 77, 3, 2, (fun b : State => ((((((tFmt b 0).put (Reg.FMT_RUN_D0_COUNT 1) 3).put (Reg.FMT_RUN_D0_SLOT 1) 2).put (Reg.FMT_RUN_D0_FIRST_PSI 1) 4).put (Reg.FMT_RUN_D1_LIST 1) 512).put (Reg.FMT_CFG_STATUS_ERR 1) 0).put (Reg.FMT_STATUS_MEMBER 1) 3) .reset, by decide +kernel⟩,
    ⟨1, 77, (fun b : State => b) .reset, by decide +kernel⟩,
    ⟨1, 2, { tRun with stat := [(0, 1), (1, 1), (2, 2)] }, (fun b : State => b.modFmt 1 (fun m => { m with cur := [(2, { tRun with stat := [(0, 1), (1, 1), (2, 2)] })] })) .reset, by decide +kernel⟩,
    ⟨1, 2, 3, { tRun with stat := [(0, 1), (1, 1), (2, 2)] }, (fun b : State => b.modFmt 1 (fun m => { m with ended := [(3, { tRun with stat := [(0, 1), (1, 1), (2, 2)] })] })) .reset, by decide +kernel⟩,
    ⟨1, 5, [6], (fun b : State => (tFmt b 0).modFmt 1 (fun m => { m with done := [5, 6] })) .reset, by decide +kernel⟩,
    ⟨1, (fun b : State => tFmt b 0) .reset, by decide +kernel⟩,
    ⟨1, 2, 1, [], { tRun with exhausted := [1] }, (fun b : State => b.modFmt 1 (fun m => { m with cur := [(2, { tRun with exhausted := [1] })] })) .reset, by decide +kernel⟩,
    ⟨1, 2, 1, 0x50 + 3 * 2 ^ 60, [], { tRun with exhausted := [1] }, ⟨1, 5, 9, 1, none, false, none⟩, (fun b : State => (((tHbm b).modFmt 1 (fun m => { m with cur := [(2, { tRun with exhausted := [1] })] })).setCache [(0x50, ⟨1, 5, 9, 1, none, false, none⟩)]).storeMem 4104 0x50 8) .reset, by decide +kernel⟩,
    ⟨1, 1, (fun b : State => ((((((tFmt b 0).put Reg.SYS_STRAP_ACT 3).put (Reg.FMT_MEMBER_VALID 1 0) 0).put (Reg.FMT_MEMBER_VALID 1 1) 0).put (Reg.FMT_MEMBER_VALID 1 2) 0).put (Reg.FMT_MEMBER_VALID 1 3) 0)) .reset, by decide +kernel⟩,
    ⟨1, 1, (fun b : State => ((((tFmt b 0).put Reg.SYS_STRAP_ACT 3).put (Reg.FMT_MEMBER_VALID 1 0) 1).put (Reg.FMT_MEMBER_HEAD 1 0) 13).put (Reg.FMT_CFG_STATUS_ERR 1) 0) .reset, by decide +kernel⟩,
    ⟨1, 1, (fun b : State => (b.put Reg.SYS_STRAP_ACT 1).put (Reg.FMT_CFG_STATUS_ERR 1) 0) .reset, by decide +kernel⟩,
    ⟨1, [(1, ⟨2, 7, true, 5⟩)], (fun b : State => b.modFmt 1 (fun m => { m with pend := some [(1, ⟨2, 7, true, 5⟩)], cur := [(2, tRun)], threads := [(0, { threadInit with barrier := true }), (1, { threadInit with barrier := true }), (2, { threadInit with barrier := true }), (3, { threadInit with barrier := true })] })) .reset, by decide +kernel⟩,
    ⟨1, 2, [(1, ⟨2, 7, true, 5⟩)], tRun, (fun b : State => b.modFmt 1 (fun m => { m with pend := some [(1, ⟨2, 7, true, 5⟩)], cur := [(2, tRun)], threads := [(0, { threadInit with barrier := true }), (1, { threadInit with barrier := true }), (2, { threadInit with barrier := true }), (3, { threadInit with barrier := true })] })) .reset, by decide +kernel⟩,
    ⟨1, 2, (fun b : State => b) .reset, by decide +kernel⟩,
    ⟨1, 0xCAFE0001, (fun b : State => ((((tFmt b 5).put (Reg.FMT_CTL_RUN 1) 0).put (Reg.FMT_STATUS_HALTED 1) 1).put (Reg.FMT_CAPO_ADDR_WORD 1) 0).put (Reg.FMT_CAPO_ADDR_PART 1) 1) .reset, by decide +kernel⟩,
    ⟨1, 0xCAFE0001, (fun b : State => ((((tFmt b 5).put (Reg.FMT_CTL_RUN 1) 0).put (Reg.FMT_STATUS_HALTED 1) 1).put (Reg.FMT_CAPO_ADDR_WORD 1) 0).put (Reg.FMT_CAPO_ADDR_PART 1) 3) .reset, by decide +kernel⟩,
    ⟨1, 1, (fun b : State => ((tFmt b 5).put (Reg.FMT_CTL_RUN 1) 1).put (Reg.FMT_CFG_STATUS_ERR 1) 0) .reset, by decide +kernel⟩,
    ⟨1, 99, (fun b : State => tFmt b 0) .reset, by decide +kernel⟩,
    ⟨1, 1, 0, (fun b : State => (b.modFmt 1 (fun m => { m with patch := [(0, 1)] })).put (Reg.FMT_CAPO_STATUS_BUSY 1) 1) .reset, by decide +kernel⟩,
    ⟨1, (fun b : State => ((b.modFmt 1 (fun m => { m with expect := tZeroCrc, patch := (List.range 256).map (fun k => (k, 0)) })).setF (b.f.filter (fun e => e.1 / 32 < 0x40c40100 || 0x40c40180 < e.1 / 32))).put (Reg.FMT_CAPO_STATUS_BUSY 1) 1) .reset, by decide +kernel⟩,
    ⟨1, 0x0000450A, (fun b : State => (tFmt b 0).put (Reg.FMT_CAPO_STATUS_OK 1) 1) .reset, by decide +kernel⟩,
    ⟨1, 0x00004000, (fun b : State => (((tFmt b 0).put (Reg.FMT_CAPO_STATUS_OK 1) 0).put (Reg.FMT_CFG_STATUS_ERR 1) 0).put (Reg.FMT_CAPO_MATCH_EN 1 5) 1) .reset, by decide +kernel⟩,
    ⟨1, 0x00004181, (fun b : State => (((tFmt b 0).put (Reg.FMT_CAPO_STATUS_OK 1) 0).put (Reg.FMT_CFG_STATUS_ERR 1) 0).put (Reg.FMT_CAPO_MATCH_EN 1 5) 1) .reset, by decide +kernel⟩,
    ⟨1, 0x00004102, 5, (fun b : State => (((tFmt b 0).put (Reg.FMT_CAPO_STATUS_OK 1) 0).put (Reg.FMT_CFG_STATUS_ERR 1) 0).put (Reg.FMT_CAPO_MATCH_EN 1 5) 1) .reset, by decide +kernel⟩,
    ⟨1, 0x5A5A8000, (fun b : State => (tFmt b 0).modFmt 1 (fun m => { m with cur := [(2, tRun)] })) .reset, by decide +kernel⟩,
    ⟨1, 0x5A5B8000, (fun b : State => (tFmt b 0).modFmt 1 (fun m => { m with cur := [(2, tRun)] })) .reset, by decide +kernel⟩,
    ⟨1, 2, 4, 1, (fun b : State => tFmt b (tOp 0 0 0)) .reset, by decide +kernel⟩,
    ⟨1, 2, 0, (fun b : State => tFmt b (tOp 0 0 0)) .reset, by decide +kernel⟩,
    ⟨1, 4, (fun b : State => (tFmt b (tOp 0 0 0)).modFmt 1 (fun m => { m with sweep := 77 })) .reset, by decide +kernel⟩,
    ⟨1, 1, tOp 0 0 0, (fun b : State => ((tFmt b (tOp 0 0 0)).modFmt 1 (fun m => { m with sweep := 8192 })).put (Reg.FMT_CAPO_STATUS_OK 1) 1) .reset, by decide +kernel⟩,
    ⟨1, (fun b : State => (tFmt b (tOp 0 0 0)).modFmt 1 (fun m => { m with sweep := 77 })) .reset, by decide +kernel⟩,
    ⟨1, [1], (fun b : State => ((tFmt b (tOp 0 0 0)).modFmt 1 (fun m => { m with sweep := 8448 })).put (Reg.FMT_CAPO_STATUS_OK 1) 0) .reset, by decide +kernel⟩,
    ⟨1, [], (fun b : State => ((b.modFmt 1 (fun m => { m with sweep := 8448, lastCrc := tZeroCrc, patch := (List.range 256).map (fun k => (k, 0)) })).setF (b.f.filter (fun e => e.1 / 32 < 0x40c40100 || 0x40c40180 < e.1 / 32))).put (Reg.FMT_CAPO_STATUS_OK 1) 1 |>.put (Reg.FMT_MCHK_VALID 1) 0 |>.setPwr { b.pwr with dom := [(81, .on)] }) .reset, by decide +kernel⟩,
    ⟨1, 1, [], (fun b : State => (tFmt b (tOp 0 0 0)).modFmt 1 (fun m => { m with sweep := 8448 })) .reset, by decide +kernel⟩,
    ⟨1, [2], (fun b : State => ((b.modFmt 1 (fun m => { m with sweep := 8448, lastCrc := tZeroCrc, patch := (List.range 256).map (fun k => (k, 0)) })).setF (b.f.filter (fun e => e.1 / 32 < 0x40c40100 || 0x40c40180 < e.1 / 32))).put (Reg.FMT_CAPO_STATUS_OK 1) 1 |>.put (Reg.FMT_MCHK_VALID 1) 0 |>.setPwr { b.pwr with dom := [(81, .on)] }) .reset, by decide +kernel⟩⟩

theorem witness_ServoSources :
    (∃ (i : Fin 16) (f : ServoField) (m : Member) (h : Nat) (w : Nat) (r : FieldRead) (s : State),
    (s.slot i.val).mem = some m ∧ m.servoOnly = false ∧ (s.src i.val).head = some h ∧ s.clkOk (16 + i.val / 4) = true ∧ s.srcState i.val = 1 ∧ readField f m.cells (s.get (Reg.SRV_SCTL_SAM_THR (i.val / 4))) (s.get (Reg.SRV_SCTL_S_TARGET (i.val / 4))) none = r ∧ r.sam.isSome = true ∧ r.num = some w ∧ (s.slot i.val).rg = false) ∧
    (∃ (i : Fin 16) (f : ServoField) (m : Member) (h : Nat) (r : FieldRead) (s : State),
    (s.slot i.val).mem = some m ∧ m.servoOnly = false ∧ (s.src i.val).head = some h ∧ s.srcState i.val = 1 ∧ readField f m.cells (s.get (Reg.SRV_SCTL_SAM_THR (i.val / 4))) (s.get (Reg.SRV_SCTL_S_TARGET (i.val / 4))) none = r ∧ ((r.sam = none ∨ r.num = none))) ∧
    (∃ (i : Fin 16) (f : ServoField) (m : Member) (h : Nat) (r : FieldRead) (s : State),
    (s.slot i.val).mem = some m ∧ m.servoOnly = false ∧ (s.src i.val).head = some h ∧ s.clkOk (16 + i.val / 4) = true ∧ s.srcState i.val = 2 ∧ (s.slot i.val).sg = true ∧ readField f m.cells (s.get (Reg.SRV_SCTL_SAM_THR (i.val / 4))) (s.get (Reg.SRV_SCTL_S_TARGET (i.val / 4))) (some (s.get (Reg.SRV_CTL_SAM_WIN_ACQ (i.val / 4)))) = r ∧ r.sam.isSome = true ∧ r.num = some (s.src i.val).wedge) ∧
    (∃ (i : Fin 16) (f : ServoField) (m : Member) (h : Nat) (r : FieldRead) (s : State),
    (s.slot i.val).mem = some m ∧ m.servoOnly = false ∧ (s.src i.val).head = some h ∧ s.clkOk (16 + i.val / 4) = true ∧ s.srcState i.val = 2 ∧ (s.slot i.val).sg = true ∧ (s.slot i.val).rg = false ∧ (s.slot i.val).gate = false ∧ readField f m.cells (s.get (Reg.SRV_SCTL_SAM_THR (i.val / 4))) (s.get (Reg.SRV_SCTL_S_TARGET (i.val / 4))) (some (s.get (Reg.SRV_CTL_SAM_WIN_ACQ (i.val / 4)))) = r ∧ ((r.sam = none ∨ r.num ≠ some (s.src i.val).wedge))) ∧
    (∃ (i : Fin 16) (f : ServoField) (m : Member) (h : Nat) (p : Nat) (y : Int) (r : FieldRead) (s : State),
    (s.slot i.val).mem = some m ∧ m.servoOnly = false ∧ (s.src i.val).head = some h ∧ h < 12 ∧ s.clkOk (16 + i.val / 4) = true ∧ s.srcState i.val = 3 ∧ (s.slot i.val).sg = true ∧ readField f m.cells (s.get (Reg.SRV_SCTL_SAM_THR (i.val / 4))) (s.get (Reg.SRV_SCTL_S_TARGET (i.val / 4))) (some (s.get (Reg.SRV_CTL_SAM_WIN (i.val / 4)))) = r ∧ r.num = some (s.src i.val).wedge ∧ r.pos = some (p, y) ∧ s.sampleFlags (i.val / 4) h (s.src i.val) r = 0) ∧
    (∃ (i : Fin 16) (f : ServoField) (m : Member) (h : Nat) (s : State),
    (s.slot i.val).mem = some m ∧ m.servoOnly = false ∧ (s.src i.val).head = some h ∧ s.clkOk (16 + i.val / 4) = true ∧ s.srcState i.val = 3 ∧ (((s.slot i.val).sg = false ∨ (readField f m.cells (s.get (Reg.SRV_SCTL_SAM_THR (i.val / 4))) (s.get (Reg.SRV_SCTL_S_TARGET (i.val / 4))) (some (s.get (Reg.SRV_CTL_SAM_WIN (i.val / 4))))).sam = none))) ∧
    (∃ (i : Fin 16) (f : ServoField) (m : Member) (h : Nat) (r : FieldRead) (s : State),
    (s.slot i.val).mem = some m ∧ m.servoOnly = false ∧ (s.src i.val).head = some h ∧ s.clkOk (16 + i.val / 4) = true ∧ s.srcState i.val = 3 ∧ (s.slot i.val).sg = true ∧ readField f m.cells (s.get (Reg.SRV_SCTL_SAM_THR (i.val / 4))) (s.get (Reg.SRV_SCTL_S_TARGET (i.val / 4))) (some (s.get (Reg.SRV_CTL_SAM_WIN (i.val / 4)))) = r ∧ r.sam.isSome = true ∧ r.num ≠ some (s.src i.val).wedge) ∧
    (∃ (i : Fin 16) (f : ServoField) (s : State),
    s.srcState i.val = 0) ∧
    (∃ (i : Fin 16) (s : State),
    s.srcState i.val = 2 ∧ 2 ≤ (s.src i.val).okRun) ∧
    (∃ (i : Fin 16) (s : State),
    (((s.src i.val).okRun < 2 ∨ s.srcState i.val ≠ 2))) ∧
    (∃ (i : Fin 16) (h : Nat) (s : State),
    s.srcState i.val = 3 ∧ (s.src i.val).head = some h ∧ ((s.get (Reg.SRV_CTL_LOST_CNT (i.val / 4)) ≤ (s.src i.val).missRun ∨ 2 ≤ (s.src i.val).wrongRun)) ∧ (s.groups (i.val / 4) (h % 2)).opened = [] ∧ (s.slot i.val).gate = false) ∧
    (∃ (i : Fin 16) (h : Nat) (g : Grp) (s : State),
    s.srcState i.val = 3 ∧ (s.src i.val).head = some h ∧ ((s.get (Reg.SRV_CTL_LOST_CNT (i.val / 4)) ≤ (s.src i.val).missRun ∨ 2 ≤ (s.src i.val).wrongRun)) ∧ (s.groups (i.val / 4) (h % 2)).opened = [g] ∧ hasBit g.exp (i.val % 4) = true ∧ hasBit g.got (i.val % 4) = false) ∧
    (∃ (i : Fin 16) (s : State),
    ((s.srcState i.val ≠ 3 ∨ ((s.src i.val).missRun < s.get (Reg.SRV_CTL_LOST_CNT (i.val / 4)) ∧ (s.src i.val).wrongRun < 2)))) ∧
    (∃ (a : Fin 4) (j : Fin 4) (v : Word) (s : State),
    bits v.toNat 19 16 ≤ 11 ∧ hasBit v.toNat 31 = false ∧ (s.slot (4 * a.val + j.val)).mem = none ∧ s.srcState (4 * a.val + j.val) ≠ 3) ∧
    (∃ (a : Fin 4) (j : Fin 4) (v : Word) (s : State),
    bits v.toNat 19 16 ≤ 11 ∧ hasBit v.toNat 31 = true ∧ ((∀ k : Fin 4, k ≠ j → s.get (Reg.SRV_SRC_EN a.val k.val) = 0)) ∧ s.domOn (3 * (4 * a.val + j.val) + 1) = true ∧ (s.slot (4 * a.val + j.val)).mem = none ∧ s.headStarted a.val (bits v.toNat 19 16) = false ∧ s.get Reg.MTR_SPN_SPEED_VALID = 1) ∧
    (∃ (a : Fin 4) (j : Fin 4) (v : Word) (s : State),
    bits v.toNat 19 16 ≤ 11 ∧ hasBit v.toNat 31 = true ∧ ((∀ k : Fin 4, k ≠ j → s.get (Reg.SRV_SRC_EN a.val k.val) = 0)) ∧ s.domOn (3 * (4 * a.val + j.val) + 1) = true ∧ (s.slot (4 * a.val + j.val)).mem = none ∧ s.get Reg.MTR_SPN_SPEED_VALID = 0 ∧ s.srcState (4 * a.val + j.val) = 0) ∧
    (∃ (a : Fin 4) (j : Fin 4) (v : Word) (s : State),
    11 < bits v.toNat 19 16 ∧ s.get (Reg.SRV_CFG_STATUS_ERR a.val) = 0) ∧
    (∃ (a : Fin 4) (j : Fin 4) (k : Fin 4) (v : Word) (s : State),
    bits v.toNat 19 16 ≤ 11 ∧ hasBit v.toNat 31 = true ∧ k ≠ j ∧ s.get (Reg.SRV_SRC_EN a.val k.val) = 1 ∧ s.get (Reg.SRV_SRC_HEAD a.val k.val) = bits v.toNat 19 16 ∧ s.get (Reg.SRV_CFG_STATUS_ERR a.val) = 0) ∧
    (∃ (a : Fin 4) (j : Fin 4) (v : Word) (s : State),
    bits v.toNat 19 16 ≤ 11 ∧ hasBit v.toNat 31 = true ∧ ((∀ k : Fin 4, k ≠ j → s.get (Reg.SRV_SRC_EN a.val k.val) = 0)) ∧ s.domOn (3 * (4 * a.val + j.val) + 1) = false ∧ s.get (Reg.SRV_CFG_STATUS_ERR a.val) = 0) ∧
    (∃ (stamp : Nat) (i : Nat) (h : Nat) (u : Nat) (k : Nat) (s : State),
    s.reference = some (i, h) ∧ s.refHead.lastSam = some (u, k) ∧ k + 1 < 512 ∧ (s.src i).wedge = k + 2 ∧ s.spn.wedges.length < 31) ∧
    (∃ (stamp : Nat) (i : Nat) (h : Nat) (u : Nat) (s : State),
    s.reference = some (i, h) ∧ s.refHead.lastW0 = some u ∧ (s.src i).wedge = 1 ∧ s.refHead.lastSam = none) ∧
    (∃ (stamp : Nat) (s : State),
    s.reference = none) :=
  ⟨⟨6, tShort 18, tMember 6, 2, 9, tFRead (tShort 18) none, (fun b : State => tServo b 1) .reset, by decide +kernel⟩,
    ⟨6, tShort 19, tMember 6, 2, tFRead (tShort 19) none, (fun b : State => tServo b 1) .reset, by decide +kernel⟩,
    ⟨6, tShort 18, tMember 6, 2, tFRead (tShort 18) (some 4), (fun b : State => tServo b 2) .reset, by decide +kernel⟩,
    ⟨6, tShort 21, tMember 6, 2, tFRead (tShort 21) (some 4), (fun b : State => tServo b 2) .reset, by decide +kernel⟩,
    ⟨6, tField, tMember 6, 2, ((tFRead tField (some 4)).pos.getD (0, 0)).1, ((tFRead tField (some 4)).pos.getD (0, 0)).2, tFRead tField (some 4), (fun b : State => tServo b 3) .reset, by decide +kernel⟩,
    ⟨6, tField, tMember 6, 2, (fun b : State => (tServo b 3).modSlot 6 (fun x => { x with sg := false })) .reset, by decide +kernel⟩,
    ⟨6, tShort 20, tMember 6, 2, tFRead (tShort 20) (some 4), (fun b : State => tServo b 3) .reset, by decide +kernel⟩,
    ⟨6, tShort 20, (fun b : State => tServo b 0) .reset, by decide +kernel⟩,
    ⟨6, (fun b : State => (tServo b 2).putSrc 6 { srcInit with okRun := 2 }) .reset, by decide +kernel⟩,
    ⟨6, (fun b : State => (tServo b 2)) .reset, by decide +kernel⟩,
    ⟨6, 2, (fun b : State => ((tServo b 3).putSrc 6 { srcInit with head := some 2, missRun := 4 }).put (Reg.SRV_CTL_LOST_CNT 1) 4 |>.setGrps []) .reset, by decide +kernel⟩,
    ⟨6, 2, ⟨7, 4, 0⟩, (fun b : State => ((tServo b 3).putSrc 6 { srcInit with head := some 2, missRun := 4 }).put (Reg.SRV_CTL_LOST_CNT 1) 4 |>.setGrps [(2, ⟨4, [⟨7, 4, 0⟩]⟩)]) .reset, by decide +kernel⟩,
    ⟨6, (fun b : State => tServo b 2) .reset, by decide +kernel⟩,
    ⟨1, 2, 0x000B0033, (fun b : State => (tServo b 1).modSlot 6 (fun x => { x with mem := none })) .reset, by decide +kernel⟩,
    ⟨1, 2, 0x80050033, (fun b : State => ((((((tServo b 0).modSlot 6 (fun x => { x with mem := none })).put (Reg.SRV_SRC_EN 1 0) 0).put (Reg.SRV_SRC_EN 1 1) 0).put (Reg.SRV_SRC_EN 1 3) 0).setPwr { b.pwr with dom := [(19, .on)] }).put Reg.MTR_SPN_SPEED_VALID 1 |>.put (Reg.SRV_CFG_STATUS_ERR 1) 0) .reset, by decide +kernel⟩,
    ⟨1, 2, 0x80050033, (fun b : State => ((((((tServo b 0).modSlot 6 (fun x => { x with mem := none })).put (Reg.SRV_SRC_EN 1 0) 0).put (Reg.SRV_SRC_EN 1 1) 0).put (Reg.SRV_SRC_EN 1 3) 0).setPwr { b.pwr with dom := [(19, .on)] }).put Reg.MTR_SPN_SPEED_VALID 0 |>.put (Reg.SRV_CFG_STATUS_ERR 1) 0) .reset, by decide +kernel⟩,
    ⟨1, 2, 0x000C0033, (fun b : State => b.put (Reg.SRV_CFG_STATUS_ERR 1) 0) .reset, by decide +kernel⟩,
    ⟨1, 2, 3, 0x80050033, (fun b : State => ((b.put (Reg.SRV_CFG_STATUS_ERR 1) 0).put (Reg.SRV_SRC_EN 1 3) 1).put (Reg.SRV_SRC_HEAD 1 3) 5) .reset, by decide +kernel⟩,
    ⟨1, 2, 0x80050033, (fun b : State => ((((((tServo b 0).modSlot 6 (fun x => { x with mem := none })).put (Reg.SRV_SRC_EN 1 0) 0).put (Reg.SRV_SRC_EN 1 1) 0).put (Reg.SRV_SRC_EN 1 3) 0).setPwr { b.pwr with dom := [] }).put Reg.MTR_SPN_SPEED_VALID 0 |>.put (Reg.SRV_CFG_STATUS_ERR 1) 0) .reset, by decide +kernel⟩,
    ⟨70000, 2, 4, 20000, 7, (fun b : State => ((b.put (Reg.SRV_STATUS_STATE 0) 48).putSrc 2 { srcInit with head := some 4, wedge := 9 }).setRefHead ⟨some 4, some (20000, 7), none⟩) .reset, by decide +kernel⟩,
    ⟨70000, 2, 4, 20000, (fun b : State => ((b.put (Reg.SRV_STATUS_STATE 0) 48).putSrc 2 { srcInit with head := some 4, wedge := 1 }).setRefHead ⟨some 4, none, some 20000⟩) .reset, by decide +kernel⟩,
    ⟨4, (fun b : State => (b.put (Reg.SRV_STATUS_STATE 0) 48)) .reset, by decide +kernel⟩⟩

theorem witness_ControlLanes :
    (∃ (a : Fin 4) (m : Sample) (r : List Sample) (s : State),
    SMap.get s.laneIn [] a.val = m :: r ∧ m.flags = 0 ∧ m.closes = false ∧ m.head < 12 ∧ m.slot / 4 = a.val ∧ s.phase a.val = 3 ∧ s.clkOk 20 = true ∧ s.eff a.val (Reg.CTL_LRN_CTL_APPLY0 a.val) = 0 ∧ s.eff a.val (Reg.CTL_LRN_CTL_APPLY1 a.val) = 0 ∧ s.eff a.val (Reg.CTL_LRN_CTL_LEARN a.val) = 0 ∧ s.sramFlips (16 + a.val) (512 * m.head + m.wedge % 512) = 0 ∧ ((s.sampleRef a.val m).1 - m.y).natAbs ≤ s.eff a.val (Reg.CTL_WU_THR a.val) ∧ (s.lane a.val).statesAgree = true ∧ (s.lane a.val).coefsAgree = true ∧ hasBit (s.lane a.val).heldHeads m.head = false) ∧
    (∃ (a : Fin 4) (m : Sample) (r : List Sample) (s : State),
    SMap.get s.laneIn [] a.val = m :: r ∧ m.flags = 0 ∧ m.closes = false ∧ m.slot / 4 = a.val ∧ s.phase a.val = 3 ∧ s.clkOk 20 = true ∧ s.eff a.val (Reg.CTL_LRN_CTL_APPLY1 a.val) = 0 ∧ s.eff a.val (Reg.CTL_LRN_CTL_LEARN a.val) = 0 ∧ s.eff a.val (Reg.CTL_WU_THR a.val) < ((s.sampleRef a.val m).1 - m.y).natAbs) ∧
    (∃ (a : Fin 4) (m : Sample) (r : List Sample) (s : State),
    SMap.get s.laneIn [] a.val = m :: r ∧ m.flags = 0 ∧ m.closes = false ∧ m.head < 12 ∧ m.slot / 4 = a.val ∧ s.phase a.val = 1 ∧ s.clkOk 20 = true ∧ (s.lane a.val).statesAgree = true) ∧
    (∃ (a : Fin 4) (m : Sample) (r : List Sample) (s : State),
    SMap.get s.laneIn [] a.val = m :: r ∧ m.flags ≠ 0 ∧ m.closes = false ∧ m.slot / 4 = a.val ∧ s.laneRuns a.val = true) ∧
    (∃ (a : Fin 4) (m : Sample) (r : List Sample) (s : State),
    SMap.get s.laneIn [] a.val = m :: r ∧ m.closes = true ∧ m.head < 12 ∧ m.slot / 4 = a.val ∧ s.phase a.val = 3 ∧ s.clkOk 20 = true ∧ s.eff a.val (Reg.CTL_LRN_CTL_LEARN a.val) = 0 ∧ (s.lane a.val).statesAgree = true ∧ (s.lane a.val).coefsAgree = true ∧ (s.lane a.val).fresh = false ∧ (s.lane a.val).go = none) ∧
    (∃ (a : Fin 4) (m : Sample) (r : List Sample) (s : State),
    SMap.get s.laneIn [] a.val = m :: r ∧ m.flags = 0 ∧ m.closes = false ∧ s.laneRuns a.val = false ∧ s.clkOk 20 = true) ∧
    (∃ (a : Fin 4) (s : State),
    ((SMap.get s.laneIn [] a.val = [] ∨ s.clkOk 20 = false))) ∧
    (∃ (a : Fin 4) (h : Fin 12) (s : State),
    s.laneRuns a.val = true ∧ s.eff a.val (Reg.CTL_WU_INV_MAX a.val) ≤ SMap.get (s.lane a.val).inv 0 h.val ∧ hasBit (s.lane a.val).heldHeads h.val = false) ∧
    (∃ (a : Fin 4) (h : Fin 12) (s : State),
    ((s.laneRuns a.val = false ∨ SMap.get (s.lane a.val).inv 0 h.val < s.eff a.val (Reg.CTL_WU_INV_MAX a.val)))) ∧
    (∃ (a : Fin 4) (s : State),
    s.laneRuns a.val = true ∧ s.eff a.val (Reg.CTL_WU_INV_MAX a.val) ≤ (s.lane a.val).empty) ∧
    (∃ (a : Fin 4) (s : State),
    ((s.laneRuns a.val = false ∨ (s.lane a.val).empty < s.eff a.val (Reg.CTL_WU_INV_MAX a.val)))) ∧
    (∃ (a : Fin 4) (s : State),
    s.phase a.val = 2 ∧ s.eff a.val (Reg.CTL_SETTLE_CNT a.val) ≤ (s.lane a.val).settle) ∧
    (∃ (a : Fin 4) (s : State),
    ((s.phase a.val ≠ 2 ∨ (s.lane a.val).settle < s.eff a.val (Reg.CTL_SETTLE_CNT a.val)))) ∧
    (∃ (a : Fin 4) (s : State),
    ((s.phase a.val = 2 ∨ s.phase a.val = 3)) ∧ s.clkOk 20 = true ∧ (s.lane a.val).feDue = true) ∧
    (∃ (a : Fin 4) (s : State),
    s.phase a.val = 1 ∧ s.clkOk 20 = true ∧ (s.lane a.val).feDue = true) ∧
    (∃ (a : Fin 4) (s : State),
    ((s.laneRuns a.val = false ∨ (s.lane a.val).feDue = false))) ∧
    (∃ (a : Fin 4) (s : State),
    s.phase a.val = 3 ∧ (s.lane a.val).bound = true ∧ s.get (Reg.CTL_LANE_STATUS_FE a.val) = 0 ∧ s.eff a.val (Reg.CTL_WU_CLR a.val) ≤ (s.lane a.val).clean) ∧
    (∃ (a : Fin 4) (s : State),
    ((s.phase a.val ≠ 3 ∨ (s.lane a.val).bound = false ∨ s.get (Reg.CTL_LANE_STATUS_FE a.val) = 1 ∨ (s.lane a.val).clean < s.eff a.val (Reg.CTL_WU_CLR a.val)))) :=
  ⟨⟨1, tSample, [], (fun b : State => tLane b 3) .reset, by decide +kernel⟩,
    ⟨1, { tSample with y := 100000 }, [], (fun b : State => (tLane b 3).setLaneIn [(1, [{ tSample with y := 100000 }])]) .reset, by decide +kernel⟩,
    ⟨1, tSample, [], (fun b : State => tLane b 1) .reset, by decide +kernel⟩,
    ⟨1, { tSample with flags := 5 }, [], (fun b : State => (tLane b 2).setLaneIn [(1, [{ tSample with flags := 5 }])]) .reset, by decide +kernel⟩,
    ⟨1, { tSample with closes := true }, [], (fun b : State => (tLane b 3).setLaneIn [(1, [{ tSample with closes := true }])]) .reset, by decide +kernel⟩,
    ⟨1, tSample, [], (fun b : State => tLane b 0) .reset, by decide +kernel⟩,
    ⟨1, (fun b : State => b) .reset, by decide +kernel⟩,
    ⟨1, 4, (fun b : State => ((tLane b 3).modLane 1 (fun l => { l with inv := [(4, 9)] })).put (Reg.CTL_WU_INV_MAX 1) 9) .reset, by decide +kernel⟩,
    ⟨1, 4, (fun b : State => tLane b 0) .reset, by decide +kernel⟩,
    ⟨1, (fun b : State => ((tLane b 3).modLane 1 (fun l => { l with empty := 9, u := [(3, 77)], live := [(0xD90, 65535)] })).put (Reg.CTL_WU_INV_MAX 1) 9) .reset, by decide +kernel⟩,
    ⟨1, (fun b : State => tLane b 0) .reset, by decide +kernel⟩,
    ⟨1, (fun b : State => ((tLane b 2).modLane 1 (fun l => { l with settle := 9 })).put (Reg.CTL_SETTLE_CNT 1) 9) .reset, by decide +kernel⟩,
    ⟨1, (fun b : State => tLane b 0) .reset, by decide +kernel⟩,
    ⟨1, (fun b : State => (tLane b 3).modLane 1 (fun l => { l with feDue := true })) .reset, by decide +kernel⟩,
    ⟨1, (fun b : State => (tLane b 1).modLane 1 (fun l => { l with feDue := true, xref := 5, xtarget := 9 })) .reset, by decide +kernel⟩,
    ⟨1, (fun b : State => tLane b 0) .reset, by decide +kernel⟩,
    ⟨1, (fun b : State => (((tLane b 3).modLane 1 (fun l => { l with clean := 9 })).put (Reg.CTL_WU_CLR 1) 9).put (Reg.CTL_LANE_STATUS_FE 1) 0 |>.setPesSrc 15) .reset, by decide +kernel⟩,
    ⟨1, (fun b : State => tLane b 0) .reset, by decide +kernel⟩⟩

theorem witness_LaneControl :
    (∃ (a : Fin 4) (v : Word) (s : State),
    hasBit v.toNat 15 = false ∧ hasBit v.toNat 0 = true ∧ s.phase a.val = 0 ∧ ((s.srcState (4 * a.val) = 3 ∨ s.srcState (4 * a.val + 1) = 3 ∨ s.srcState (4 * a.val + 2) = 3 ∨ s.srcState (4 * a.val + 3) = 3))) ∧
    (∃ (a : Fin 4) (v : Word) (s : State),
    hasBit v.toNat 15 = false ∧ hasBit v.toNat 0 = true ∧ ((s.phase a.val = 4 ∨ s.phase a.val = 5 ∨ (s.srcState (4 * a.val) ≠ 3 ∧ s.srcState (4 * a.val + 1) ≠ 3 ∧ s.srcState (4 * a.val + 2) ≠ 3 ∧ s.srcState (4 * a.val + 3) ≠ 3))) ∧ s.get (Reg.CTL_CFG_STATUS_ERR a.val) = 0) ∧
    (∃ (a : Fin 4) (v : Word) (s : State),
    hasBit v.toNat 15 = false ∧ hasBit v.toNat 0 = false ∧ s.laneRuns a.val = true) ∧
    (∃ (a : Fin 4) (v : Word) (s : State),
    hasBit v.toNat 15 = false ∧ hasBit v.toNat 0 = false ∧ s.phase a.val = 0) ∧
    (∃ (a : Fin 4) (v : Word) (s : State),
    hasBit v.toNat 15 = true ∧ bits v.toNat 31 16 = 0x5A5A) ∧
    (∃ (a : Fin 4) (v : Word) (s : State),
    hasBit v.toNat 15 = true ∧ bits v.toNat 31 16 ≠ 0x5A5A) ∧
    (∃ (a : Fin 4) (v : Word) (s : State),
    hasBit v.toNat 0 = true ∧ s.laneRuns a.val = true) ∧
    (∃ (a : Fin 4) (v : Word) (s : State),
    hasBit v.toNat 0 = true ∧ s.laneRuns a.val = false ∧ s.get (Reg.CTL_CFG_STATUS_ERR a.val) = 0) ∧
    (∃ (a : Fin 4) (k : Nat) (m : Sample) (r : List Sample) (s : State),
    s.laneRuns a.val = true ∧ k % 2 ^ 16 ≠ 0 ∧ SMap.get s.laneIn [] a.val = m :: r ∧ m.slot / 4 = a.val ∧ m.head < 12 ∧ (s.lane a.val).statesAgree = true ∧ (s.lane a.val).coefsAgree = true) ∧
    (∃ (a : Fin 4) (m : Sample) (r : List Sample) (s : State),
    SMap.get s.laneIn [] a.val = m :: r ∧ m.flags ≠ 0 ∧ m.closes = false ∧ m.slot / 4 = a.val ∧ s.laneRuns a.val = true) ∧
    (∃ (a : Fin 4) (c : LaneUpset) (s : State),
    s.laneRuns a.val = false) ∧
    (∃ (a : Fin 4) (k : Nat) (n : Nat) (s : State),
    s.phase a.val ≠ 5 ∧ k < 217 ∧ n % 2 ^ 48 ≠ 0 ∧ (s.lane a.val).statesAgree = true) ∧
    (∃ (a : Fin 4) (o : Nat) (n : Nat) (s : State),
    s.phase a.val ≠ 5 ∧ n % 2 ^ 32 ≠ 0 ∧ (s.lane a.val).statesAgree = true ∧ (s.lane a.val).coefsAgree = true) ∧
    (∃ (a : Fin 4) (s : State),
    ((s.phase a.val = 5 ∨ ((s.lane a.val).statesAgree = true ∧ (s.lane a.val).coefsAgree = true)))) :=
  ⟨⟨1, 1, (fun b : State => ((tLane b 0).put (Reg.SRV_STATUS_STATE 1) 48).setPesSrc 2) .reset, by decide +kernel⟩,
    ⟨1, 1, (fun b : State => ((tLane b 0).put (Reg.SRV_STATUS_STATE 1) 0b01100110).put (Reg.CTL_CFG_STATUS_ERR 1) 0) .reset, by decide +kernel⟩,
    ⟨1, 0, (fun b : State => (tLane b 3).modLane 1 (fun l => { l with u := [(3, 4), (5, -7)] })) .reset, by decide +kernel⟩,
    ⟨1, 0, (fun b : State => (tLane b 0).modLane 1 (fun l => { l with u := [(3, 4)] })) .reset, by decide +kernel⟩,
    ⟨1, 0x5A5A8000, (fun b : State => ((tLane b 5).put (Reg.CTL_LANE_STATUS_CMP 1) 1).setCmpSrc 2) .reset, by decide +kernel⟩,
    ⟨1, 0x5A5B8000, (fun b : State => tLane b 5) .reset, by decide +kernel⟩,
    ⟨1, 1, (fun b : State => tLane b 3) .reset, by decide +kernel⟩,
    ⟨1, 1, (fun b : State => (tLane b 4).put (Reg.CTL_CFG_STATUS_ERR 1) 0) .reset, by decide +kernel⟩,
    ⟨1, 2, tSample, [], (fun b : State => tLane b 3) .reset, by decide +kernel⟩,
    ⟨1, { tSample with flags := 5 }, [], (fun b : State => (tLane b 2).setLaneIn [(1, [{ tSample with flags := 5 }])]) .reset, by decide +kernel⟩,
    ⟨1, .message 2, (fun b : State => tLane b 5) .reset, by decide +kernel⟩,
    ⟨1, 216, 1, (fun b : State => tLane b 0) .reset, by decide +kernel⟩,
    ⟨1, 0x2004, 1, (fun b : State => tLane b 0) .reset, by decide +kernel⟩,
    ⟨1, (fun b : State => tLane b 3) .reset, by decide +kernel⟩⟩

theorem witness_LaneData :
    (∃ (a : Fin 4) (v : Word) (s : State),
    s.phase a.val ≠ 0) ∧
    (∃ (a : Fin 4) (v : Word) (s : State),
    s.phase a.val = 0) ∧
    (∃ (a : Fin 4) (o : Nat) (v : Word) (s : State),
    0x2000 ≤ o ∧ o < 0x4000 ∧ o % 0x1000 ≠ 0xD88 ∧ s.phase a.val ≠ 0) ∧
    (∃ (a : Fin 4) (o : Nat) (v : Word) (s : State),
    o / 0x1000 = 2 + s.get (Reg.CTL_LANE_STATUS_BANK a.val) ∧ o % 0x1000 ≠ 0xD88 ∧ s.phase a.val = 0 ∧ (s.lane a.val).sw = none) ∧
    (∃ (a : Fin 4) (o : Nat) (v : Word) (s : State),
    (o = 0x2D88 ∨ o = 0x3D88) ∧ 2 ^ 28 < v.toNat ∧ s.get (Reg.CTL_CFG_STATUS_ERR a.val) = 0) ∧
    (∃ (a : Fin 4) (v : Word) (h : Nat) (k : Nat) (s : State),
    s.get (Reg.CTL_LRN_ADDR_HEAD a.val) = h ∧ s.get (Reg.CTL_LRN_ADDR_WEDGE a.val) = k ∧ h < 12 ∧ k < 512) ∧
    (∃ (a : Fin 4) (h : Nat) (k : Nat) (s : State),
    s.get (Reg.CTL_LRN_ADDR_HEAD a.val) = h ∧ s.get (Reg.CTL_LRN_ADDR_WEDGE a.val) = k ∧ h < 12 ∧ k < 512 ∧ s.sramFlips (16 + a.val) (512 * h + k) = 0) ∧
    (∃ (a : Fin 4) (h : Nat) (k : Nat) (s : State),
    s.get (Reg.CTL_LRN_ADDR_HEAD a.val) = h ∧ s.get (Reg.CTL_LRN_ADDR_WEDGE a.val) = k ∧ h < 12 ∧ k < 512 ∧ s.sramFlips (16 + a.val) (512 * h + k) = 1) ∧
    (∃ (a : Fin 4) (h : Nat) (k : Nat) (s : State),
    s.get (Reg.CTL_LRN_ADDR_HEAD a.val) = h ∧ s.get (Reg.CTL_LRN_ADDR_WEDGE a.val) = k ∧ h < 12 ∧ k < 512 ∧ 1 < s.sramFlips (16 + a.val) (512 * h + k) ∧ s.get (Reg.CTL_LRN_ERR_UE a.val) = 0) :=
  ⟨⟨1, 3, (fun b : State => tLane b 3) .reset, by decide +kernel⟩,
    ⟨1, 1, (fun b : State => (tLane b 0).modLane 1 (fun l => { l with coef := [(0x2004, 8), (0x3008, 9)] })) .reset, by decide +kernel⟩,
    ⟨1, 0x2E04, 0xFFFFFFFF, (fun b : State => tLane b 3) .reset, by decide +kernel⟩,
    ⟨1, 0x2E04, 0xFFFFFFFF, (fun b : State => ((tLane b 0).modLane 1 (fun l => { l with sw := none })).put (Reg.CTL_LANE_STATUS_BANK 1) 0) .reset, by decide +kernel⟩,
    ⟨1, 0x3D88, 0x10000001, (fun b : State => (tLane b 3).put (Reg.CTL_CFG_STATUS_ERR 1) 0) .reset, by decide +kernel⟩,
    ⟨1, 0xABCD1234, 2, 511, (fun b : State => ((tLane b 3).put (Reg.CTL_LRN_ADDR_HEAD 1) 2).put (Reg.CTL_LRN_ADDR_WEDGE 1) 511) .reset, by decide +kernel⟩,
    ⟨1, 11, 511, (fun b : State => (((tLane b 3).put (Reg.CTL_LRN_ADDR_HEAD 1) 11).put (Reg.CTL_LRN_ADDR_WEDGE 1) 511).modLane 1 (fun l => { l with learner := [(6143, 99)] }) |>.setBuf { b.buf with flips := [] }) .reset, by decide +kernel⟩,
    ⟨1, 11, 511, (fun b : State => (((tLane b 3).put (Reg.CTL_LRN_ADDR_HEAD 1) 11).put (Reg.CTL_LRN_ADDR_WEDGE 1) 511).modLane 1 (fun l => { l with learner := [(6143, 99)] }) |>.setBuf { b.buf with flips := [(sramKey 17 6143, 4)] } |>.put (Reg.CTL_LRN_ERR_UE 1) 0) .reset, by decide +kernel⟩,
    ⟨1, 11, 511, (fun b : State => (((tLane b 3).put (Reg.CTL_LRN_ADDR_HEAD 1) 11).put (Reg.CTL_LRN_ADDR_WEDGE 1) 511).modLane 1 (fun l => { l with learner := [(6143, 99)] }) |>.setBuf { b.buf with flips := [(sramKey 17 6143, 6)] } |>.put (Reg.CTL_LRN_ERR_UE 1) 0) .reset, by decide +kernel⟩⟩

theorem witness_SpindleStartUp :
    (∃ (v : Word) (s : State),
    bits v.toNat 1 0 = 1 ∧ s.get Reg.SPT_STATUS_FAIL = 0 ∧ ((s.spin = 0 ∨ s.spin = 7)) ∧ ((bit v.toNat 8 = s.get Reg.MTR_SPN_CTL_DIR ∨ s.spn.measured ≤ 15360))) ∧
    (∃ (v : Word) (s : State),
    bits v.toNat 1 0 = 1 ∧ ((s.get Reg.SPT_STATUS_FAIL = 1 ∨ (s.spin ≠ 0 ∧ s.spin ≠ 7))) ∧ s.get Reg.MTR_CFG_STATUS_ERR = 0) ∧
    (∃ (v : Word) (s : State),
    bits v.toNat 1 0 = 1 ∧ s.get Reg.SPT_STATUS_FAIL = 0 ∧ ((s.spin = 0 ∨ s.spin = 7)) ∧ bit v.toNat 8 ≠ s.get Reg.MTR_SPN_CTL_DIR ∧ 15360 < s.spn.measured ∧ s.get Reg.MTR_CFG_STATUS_ERR = 0) ∧
    (∃ (v : Word) (s : State),
    bits v.toNat 1 0 = 3 ∧ s.get Reg.MTR_CFG_STATUS_ERR = 0) ∧
    (∃ (low : Bool) (d : Bool) (v : Nat) (k : Fin 6) (s : State),
    s.spin = 1 ∧ ((low = true ∨ v < 2560))) ∧
    (∃ (v : Nat) (k : Fin 6) (s : State),
    s.spin = 1 ∧ 180 * 256 ≤ v ∧ v < 2 ^ 21) ∧
    (∃ (v : Nat) (k : Fin 6) (s : State),
    s.spin = 1 ∧ 2560 ≤ v ∧ v < 180 * 256) ∧
    (∃ (v : Nat) (k : Fin 6) (s : State),
    s.spin = 1 ∧ 60 * 256 < v) ∧
    (∃ (v : Nat) (k : Fin 6) (s : State),
    s.spin = 1 ∧ 2560 ≤ v ∧ v ≤ 60 * 256) ∧
    (∃ (low : Bool) (d : Bool) (v : Nat) (k : Fin 6) (s : State),
    s.spin ≠ 1) ∧
    (∃ (v : Nat) (s : State),
    s.spin = 8 ∧ (((s.get Reg.MTR_SENSE_DECISION = 2 ∧ v < 2560) ∨ (s.get Reg.MTR_SENSE_DECISION = 3 ∧ v ≤ 15360)))) ∧
    (∃ (v : Nat) (s : State),
    s.spin = 8 ∧ 15360 < v) ∧
    (∃ (v : Nat) (s : State),
    s.spin ≠ 8) ∧
    (∃ (s : State),
    s.spin = 2) ∧
    (∃ (s : State),
    s.spin ≠ 2) ∧
    (∃ (s : State),
    s.spin = 3 ∧ s.rampReached 240 (s.rampTime (s.spn.rampN + 1)) = true ∧ s.spn.fails = 0) ∧
    (∃ (s : State),
    s.spin = 3 ∧ s.rampReached 240 (s.rampTime (s.spn.rampN + 1)) = true ∧ s.spn.fails = 1) ∧
    (∃ (s : State),
    ((s.spin ≠ 3 ∨ s.rampReached 240 (s.rampTime (s.spn.rampN + 1)) = false))) ∧
    (∃ (ts : List Nat) (vs : List Int) (tm : Nat) (s : State),
    s.clkOk 32 = true ∧ s.spin = 3 ∧ s.spn.zcAt = none ∧ floatWindowOk s.spn.depth = true ∧ s.spn.steps.length < 24 ∧ crossingAt (risingEdge s.spn.dir s.spn.step) (ceilDiv s.rampStep 480) none (ts.zip vs) = some tm) ∧
    (∃ (ts : List Nat) (vs : List Int) (tm : Nat) (s : State),
    s.clkOk 32 = true ∧ ((s.spin = 4 ∨ s.spin = 5)) ∧ s.spn.zcAt = none ∧ floatWindowOk s.spn.depth = true ∧ s.spn.steps.length = 24 ∧ s.get Reg.MTR_SPN_STATUS_SRC = 0 ∧ s.get Reg.MTR_SPN_SPEED_VALID = 1 ∧ 140625000 < sumNat s.spn.steps ∧ crossingAt (risingEdge s.spn.dir s.spn.step) (ceilDiv (2 * s.halfMean) 480) none (ts.zip vs) = some tm) ∧
    (∃ (ts : List Nat) (vs : List Int) (s : State),
    ((s.clkOk 32 = false ∨ (s.spin ≠ 3 ∧ s.spin ≠ 4 ∧ s.spin ≠ 5) ∨ s.spn.zcAt ≠ none ∨ floatWindowOk s.spn.depth = false ∨ crossingAt (risingEdge s.spn.dir s.spn.step) (ceilDiv s.stepMean 480) none (ts.zip vs) = none))) ∧
    (∃ (s : State),
    s.spin = 3 ∧ 6 ≤ s.spn.zcOk) ∧
    (∃ (s : State),
    ((s.spin ≠ 3 ∨ s.spn.zcOk < 6))) ∧
    (∃ (k : Fin 6) (s : State),
    s.clkOk 32 = true ∧ s.spin = 3 ∧ s.spn.dir = false ∧ k.val = s.spn.step % 6) ∧
    (∃ (z : Nat) (s : State),
    s.clkOk 32 = true ∧ ((s.spin = 4 ∨ s.spin = 5)) ∧ s.spn.zcAt = some z ∧ s.spn.dir = true ∧ s.spn.step = 1) ∧
    (∃ (k : Fin 6) (s : State),
    ((s.clkOk 32 = false ∨ ((s.spin = 4 ∨ s.spin = 5) ∧ s.spn.zcAt = none) ∨ s.spin = 0 ∨ k.val + 1 ≠ stepAfter s.spn.dir s.spn.step))) ∧
    (∃ (s : State),
    ((s.spin = 4 ∨ s.spin = 5)) ∧ 384 ≤ s.spn.inRun) ∧
    (∃ (s : State),
    s.spn.inRun < 384) ∧
    (∃ (s : State),
    ((s.spin = 4 ∨ s.spin = 5)) ∧ 96 ≤ s.spn.outRun) :=
  ⟨⟨0x101, (fun b : State => (((b.put Reg.SPT_STATUS_FAIL 0).put Reg.MTR_SPN_STATUS_STATE 0).modSpn (fun p => { p with measured := 3 })).put Reg.MTR_CFG_STATUS_ERR 0 |>.put Reg.MTR_SPN_CTL_DIR 0) .reset, by decide +kernel⟩,
    ⟨1, (fun b : State => (((b.put Reg.SPT_STATUS_FAIL 1).put Reg.MTR_SPN_STATUS_STATE 0).modSpn (fun p => { p with measured := 3 })).put Reg.MTR_CFG_STATUS_ERR 0 |>.put Reg.MTR_SPN_CTL_DIR 0) .reset, by decide +kernel⟩,
    ⟨0x101, (fun b : State => (((b.put Reg.SPT_STATUS_FAIL 0).put Reg.MTR_SPN_STATUS_STATE 0).modSpn (fun p => { p with measured := 15361 })).put Reg.MTR_CFG_STATUS_ERR 0 |>.put Reg.MTR_SPN_CTL_DIR 0) .reset, by decide +kernel⟩,
    ⟨3, (fun b : State => (((b.put Reg.SPT_STATUS_FAIL 0).put Reg.MTR_SPN_STATUS_STATE 0).modSpn (fun p => { p with measured := 3 })).put Reg.MTR_CFG_STATUS_ERR 0 |>.put Reg.MTR_SPN_CTL_DIR 0) .reset, by decide +kernel⟩,
    ⟨true, true, 70000, 2, (fun b : State => b.put Reg.MTR_SPN_STATUS_STATE 1) .reset, by decide +kernel⟩,
    ⟨50000, 2, (fun b : State => b.put Reg.MTR_SPN_STATUS_STATE 1) .reset, by decide +kernel⟩,
    ⟨40000, 2, (fun b : State => b.put Reg.MTR_SPN_STATUS_STATE 1) .reset, by decide +kernel⟩,
    ⟨50000, 2, (fun b : State => b.put Reg.MTR_SPN_STATUS_STATE 1) .reset, by decide +kernel⟩,
    ⟨15360, 2, (fun b : State => b.put Reg.MTR_SPN_STATUS_STATE 1) .reset, by decide +kernel⟩,
    ⟨true, true, 70000, 2, (fun b : State => b.put Reg.MTR_SPN_STATUS_STATE 2) .reset, by decide +kernel⟩,
    ⟨15360, (fun b : State => ((b.put Reg.MTR_SPN_STATUS_STATE 8).put Reg.MTR_SENSE_DECISION 3).put Reg.MTR_SPN_SPEED_VALID 1) .reset, by decide +kernel⟩,
    ⟨15361, (fun b : State => ((b.put Reg.MTR_SPN_STATUS_STATE 8).put Reg.MTR_SENSE_DECISION 3).put Reg.MTR_SPN_SPEED_VALID 1) .reset, by decide +kernel⟩,
    ⟨1, (fun b : State => b.put Reg.MTR_SPN_STATUS_STATE 2) .reset, by decide +kernel⟩,
    ⟨(fun b : State => (b.put Reg.MTR_SPN_STATUS_STATE 2).modSpn (fun p => { p with zcOk := 3, rampN := 9, zcAt := some 4 })) .reset, by decide +kernel⟩,
    ⟨(fun b : State => b.put Reg.MTR_SPN_STATUS_STATE 3) .reset, by decide +kernel⟩,
    ⟨(fun b : State => ((((b.setPwr { b.pwr with clkStopped := 0 }).put Reg.SYS_CLK_FAULT1_FAULT 0).put Reg.MTR_SPN_STATUS_STATE 3).put Reg.MTR_SPN_START_RAMP_RATE 20).modSpn (fun p => { p with rampN := 5800, fails := 0 })) .reset, by decide +kernel⟩,
    ⟨(fun b : State => ((((b.setPwr { b.pwr with clkStopped := 0 }).put Reg.SYS_CLK_FAULT1_FAULT 0).put Reg.MTR_SPN_STATUS_STATE 3).put Reg.MTR_SPN_START_RAMP_RATE 20).modSpn (fun p => { p with rampN := 5800, fails := 1 }) |>.put Reg.SYS_STRAP_ACT 3) .reset, by decide +kernel⟩,
    ⟨(fun b : State => ((((b.setPwr { b.pwr with clkStopped := 0 }).put Reg.SYS_CLK_FAULT1_FAULT 0).put Reg.MTR_SPN_STATUS_STATE 3).put Reg.MTR_SPN_START_RAMP_RATE 20).modSpn (fun p => { p with rampN := 5, fails := 0 })) .reset, by decide +kernel⟩,
    ⟨[133000, 134242], [-5, 5], 133621, (fun b : State => ((((b.setPwr { b.pwr with clkStopped := 0 }).put Reg.SYS_CLK_FAULT1_FAULT 0).put Reg.MTR_SPN_STATUS_STATE 3).put Reg.MTR_SPN_START_RAMP_RATE 20).modSpn (fun p => { p with rampN := 3500, zcOk := 3, since := 7, step := 2, dir := false, zcAt := none, steps := [], depth := 9 })) .reset, by decide +kernel⟩,
    ⟨[1000, 50000, 60000], [-5, -5, 5], 55000, (fun b : State => (((((b.setPwr { b.pwr with clkStopped := 0 }).put Reg.SYS_CLK_FAULT1_FAULT 0).put Reg.MTR_SPN_STATUS_STATE 4).put Reg.MTR_SPN_START_RAMP_RATE 20).modSpn (fun p => { p with since := 7, step := 2, dir := false, zcAt := none, steps := List.replicate 24 10000000, depth := 9 })).put Reg.MTR_SPN_STATUS_SRC 0 |>.put Reg.MTR_SPN_SPEED_VALID 1) .reset, by decide +kernel⟩,
    ⟨[1], [1], (fun b : State => b.put Reg.MTR_SPN_STATUS_STATE 0) .reset, by decide +kernel⟩,
    ⟨(fun b : State => (b.put Reg.MTR_SPN_STATUS_STATE 3).modSpn (fun p => { p with zcOk := 6 })) .reset, by decide +kernel⟩,
    ⟨(fun b : State => (b.put Reg.MTR_SPN_STATUS_STATE 3).modSpn (fun p => { p with zcOk := 5 })) .reset, by decide +kernel⟩,
    ⟨0, (fun b : State => ((((b.setPwr { b.pwr with clkStopped := 0 }).put Reg.SYS_CLK_FAULT1_FAULT 0).put Reg.MTR_SPN_STATUS_STATE 3).put Reg.MTR_SPN_START_RAMP_RATE 20).modSpn (fun p => { p with step := 6, dir := false })) .reset, by decide +kernel⟩,
    ⟨40, (fun b : State => ((((b.setPwr { b.pwr with clkStopped := 0 }).put Reg.SYS_CLK_FAULT1_FAULT 0).put Reg.MTR_SPN_STATUS_STATE 5).put Reg.MTR_SPN_START_RAMP_RATE 20).modSpn (fun p => { p with step := 1, dir := true, zcAt := some 40, steps := [600, 600] })) .reset, by decide +kernel⟩,
    ⟨0, (fun b : State => b.put Reg.MTR_SPN_STATUS_STATE 0) .reset, by decide +kernel⟩,
    ⟨(fun b : State => (b.put Reg.MTR_SPN_STATUS_STATE 4).modSpn (fun p => { p with inRun := 384, spinUp := true })) .reset, by decide +kernel⟩,
    ⟨(fun b : State => (b.put Reg.MTR_SPN_STATUS_STATE 4).modSpn (fun p => { p with inRun := 383, spinUp := true })) .reset, by decide +kernel⟩,
    ⟨(fun b : State => (b.put Reg.MTR_SPN_STATUS_STATE 5).modSpn (fun p => { p with outRun := 96 })) .reset, by decide +kernel⟩⟩

theorem witness_SpindleFaults :
    (∃ (s : State),
    ((s.spin = 4 ∨ s.spin = 5)) ∧ s.spn.zcAt = none) ∧
    (∃ (s : State),
    (((s.spin ≠ 4 ∧ s.spin ≠ 5) ∨ s.spn.zcAt ≠ none))) ∧
    (∃ (s : State),
    ((s.spin = 4 ∨ s.spin = 5)) ∧ 3 ≤ s.spn.missRun) ∧
    (∃ (s : State),
    ((s.spn.missRun < 3 ∨ (s.spin ≠ 4 ∧ s.spin ≠ 5)))) ∧
    (∃ (s : State),
    s.spn.spinUp = true) ∧
    (∃ (s : State),
    s.spn.spinUp = false) ∧
    (∃ (v : Word) (s : State),
    bits v.toNat 1 0 = 2 ∧ s.get Reg.SPT_STATUS_FAIL = 0 ∧ s.get Reg.MTR_LADDER_SHORT = 0 ∧ ((bit v.toNat 8 = s.get Reg.MTR_SPN_CTL_DIR ∨ s.spn.measured ≤ 15360))) ∧
    (∃ (v : Word) (s : State),
    bits v.toNat 1 0 = 2 ∧ s.get Reg.SPT_STATUS_FAIL = 1 ∧ s.get Reg.MTR_LADDER_SHORT = 0 ∧ bit v.toNat 8 = s.get Reg.MTR_SPN_CTL_DIR) ∧
    (∃ (v : Word) (s : State),
    bits v.toNat 1 0 = 2 ∧ s.get Reg.MTR_LADDER_SHORT = 1 ∧ bit v.toNat 8 = s.get Reg.MTR_SPN_CTL_DIR) ∧
    (∃ (v : Word) (s : State),
    bits v.toNat 1 0 = 2 ∧ bit v.toNat 8 ≠ s.get Reg.MTR_SPN_CTL_DIR ∧ 15360 < s.spn.measured ∧ s.get Reg.MTR_CFG_STATUS_ERR = 0) ∧
    (∃ (v : Nat) (s : State),
    s.spin = 6 ∧ v < 2560 ∧ s.pwr.spinDown = false) ∧
    (∃ (v : Nat) (s : State),
    s.spin = 6 ∧ v < 2560 ∧ s.pwr.spinDown = true ∧ s.pwr.spinCmd = false) ∧
    (∃ (v : Nat) (s : State),
    ((2560 ≤ v ∨ s.spin ≠ 6))) :=
  ⟨⟨(fun b : State => (b.put Reg.MTR_SPN_STATUS_STATE 5).modSpn (fun p => { p with missRun := 1, step := 3, steps := [600] })) .reset, by decide +kernel⟩,
    ⟨(fun b : State => b.put Reg.MTR_SPN_STATUS_STATE 3) .reset, by decide +kernel⟩,
    ⟨(fun b : State => ((b.put Reg.SYS_STRAP_ACT 3).put Reg.MTR_SPN_STATUS_STATE 5).modSpn (fun p => { p with missRun := 3, step := 3 })) .reset, by decide +kernel⟩,
    ⟨(fun b : State => b.put Reg.MTR_SPN_STATUS_STATE 3) .reset, by decide +kernel⟩,
    ⟨(fun b : State => b.modSpn (fun p => { p with spinUp := true })) .reset, by decide +kernel⟩,
    ⟨(fun b : State => b) .reset, by decide +kernel⟩,
    ⟨0x12, (fun b : State => ((((b.put Reg.SPT_STATUS_FAIL 0).put Reg.MTR_LADDER_SHORT 0).modSpn (fun p => { p with measured := 3 })).put Reg.MTR_CFG_STATUS_ERR 0).put Reg.MTR_SPN_CTL_DIR 0) .reset, by decide +kernel⟩,
    ⟨0x12, (fun b : State => ((((b.put Reg.SPT_STATUS_FAIL 1).put Reg.MTR_LADDER_SHORT 0).modSpn (fun p => { p with measured := 3 })).put Reg.MTR_CFG_STATUS_ERR 0).put Reg.MTR_SPN_CTL_DIR 0) .reset, by decide +kernel⟩,
    ⟨0x12, (fun b : State => ((((b.put Reg.SPT_STATUS_FAIL 0).put Reg.MTR_LADDER_SHORT 1).modSpn (fun p => { p with measured := 3 })).put Reg.MTR_CFG_STATUS_ERR 0).put Reg.MTR_SPN_CTL_DIR 0) .reset, by decide +kernel⟩,
    ⟨0x112, (fun b : State => ((((b.put Reg.SPT_STATUS_FAIL 0).put Reg.MTR_LADDER_SHORT 0).modSpn (fun p => { p with measured := 15361 })).put Reg.MTR_CFG_STATUS_ERR 0).put Reg.MTR_SPN_CTL_DIR 0) .reset, by decide +kernel⟩,
    ⟨2559, (fun b : State => ((b.put Reg.MTR_SPN_STATUS_STATE 6).modSpn (fun p => { p with brake := 2 })).setPwr { b.pwr with spinDown := false }) .reset, by decide +kernel⟩,
    ⟨2559, (fun b : State => ((b.put Reg.MTR_SPN_STATUS_STATE 6).modSpn (fun p => { p with brake := 2 })).setPwr { b.pwr with spinDown := true, spinCmd := false }) .reset, by decide +kernel⟩,
    ⟨2560, (fun b : State => (b.put Reg.MTR_SPN_STATUS_STATE 6)) .reset, by decide +kernel⟩⟩

theorem witness_MotorBus :
    (∃ (v : Nat) (s : State),
    13200 ≤ v ∧ v < 65536 ∧ s.get Reg.MTR_LADDER_CHOP = 0 ∧ s.get Reg.MTR_LADDER_CHOP_FAULT = 0 ∧ s.get Reg.MTR_LADDER_VIN_HIGH = 0) ∧
    (∃ (v : Nat) (s : State),
    ((v < 13200 ∨ s.get Reg.MTR_LADDER_CHOP = 1 ∨ s.get Reg.MTR_LADDER_CHOP_FAULT = 1 ∨ s.get Reg.MTR_LADDER_VIN_HIGH = 1))) ∧
    (∃ (v : Nat) (s : State),
    v < 12800) ∧
    (∃ (v : Nat) (s : State),
    12800 ≤ v) ∧
    (∃ (v : Nat) (s : State),
    v < 1000 ∧ s.get Reg.MTR_LADDER_CHOP = 1 ∧ s.get Reg.MTR_LADDER_CHOP_FAULT = 0) ∧
    (∃ (v : Nat) (s : State),
    s.spn.vmotOn < v ∧ s.get Reg.MTR_LADDER_CHOP = 1 ∧ s.get Reg.MTR_LADDER_CHOP_FAULT = 0) ∧
    (∃ (v : Nat) (s : State),
    ((1000 ≤ v ∨ s.get Reg.MTR_LADDER_CHOP = 0))) ∧
    (∃ (v : Nat) (s : State),
    v ≤ s.spn.vmotOn ∧ s.get Reg.MTR_LADDER_CHOP = 1) ∧
    (∃ (v : Nat) (s : State),
    s.get Reg.MTR_LADDER_CHOP = 0) ∧
    (∃ (v : Nat) (s : State),
    13800 ≤ v ∧ s.get Reg.MTR_LADDER_CHOP_FAULT = 0 ∧ s.spin ≠ 0 ∧ s.spin ≠ 7) ∧
    (∃ (v : Nat) (s : State),
    13800 ≤ v ∧ s.get Reg.MTR_LADDER_CHOP_FAULT = 1 ∧ s.spin ≠ 0 ∧ s.spin ≠ 7) ∧
    (∃ (v : Nat) (s : State),
    13800 ≤ v ∧ s.get Reg.MTR_LADDER_CHOP_FAULT = 0 ∧ ((s.spin = 0 ∨ s.spin = 7))) ∧
    (∃ (v : Nat) (s : State),
    v < 13800) ∧
    (∃ (v : Nat) (s : State),
    14400 ≤ v) ∧
    (∃ (v : Nat) (s : State),
    v < 14400) ∧
    (∃ (vin : Nat) (vm : Nat) (s : State),
    vin ≤ 10400) ∧
    (∃ (vin : Nat) (vm : Nat) (s : State),
    10400 < vin ∧ vin + 200 < vm) ∧
    (∃ (vin : Nat) (vm : Nat) (s : State),
    10400 < vin ∧ vm ≤ vin + 200) ∧
    (∃ (vin : Nat) (vm : Nat) (s : State),
    s.spn.vinFailed = false ∧ vm + 100 < vin) ∧
    (∃ (vin : Nat) (vm : Nat) (s : State),
    ((s.spn.vinFailed = true ∨ vin ≤ vm + 100))) ∧
    (∃ (v : Nat) (s : State),
    13200 < v) ∧
    (∃ (v : Nat) (s : State),
    v ≤ 13200) ∧
    (∃ (v : Nat) (s : State),
    v ≤ 13200) ∧
    (∃ (v : Nat) (s : State),
    13200 < v) :=
  ⟨⟨13200, (fun b : State => ((b.put Reg.MTR_LADDER_CHOP 0).put Reg.MTR_LADDER_CHOP_FAULT 0).put Reg.MTR_LADDER_VIN_HIGH 0) .reset, by decide +kernel⟩,
    ⟨14000, (fun b : State => b.put Reg.MTR_LADDER_CHOP_FAULT 1) .reset, by decide +kernel⟩,
    ⟨12799, (fun b : State => b.put Reg.MTR_LADDER_CHOP 1) .reset, by decide +kernel⟩,
    ⟨12800, (fun b : State => b.put Reg.MTR_LADDER_CHOP 1) .reset, by decide +kernel⟩,
    ⟨999, (fun b : State => (b.put Reg.MTR_LADDER_CHOP 1).put Reg.MTR_LADDER_CHOP_FAULT 0) .reset, by decide +kernel⟩,
    ⟨13300, (fun b : State => ((b.put Reg.MTR_LADDER_CHOP 1).put Reg.MTR_LADDER_CHOP_FAULT 0).modSpn (fun p => { p with vmotOn := 13299 })) .reset, by decide +kernel⟩,
    ⟨1000, (fun b : State => (b.put Reg.MTR_LADDER_CHOP 1)) .reset, by decide +kernel⟩,
    ⟨13300, (fun b : State => ((b.put Reg.MTR_LADDER_CHOP 1).put Reg.MTR_LADDER_CHOP_FAULT 0).modSpn (fun p => { p with vmotOn := 13300 })) .reset, by decide +kernel⟩,
    ⟨13300, (fun b : State => (b.put Reg.MTR_LADDER_CHOP 0)) .reset, by decide +kernel⟩,
    ⟨13800, (fun b : State => (b.put Reg.MTR_SPN_STATUS_STATE 5).put Reg.MTR_LADDER_CHOP_FAULT 0) .reset, by decide +kernel⟩,
    ⟨13900, (fun b : State => (b.put Reg.MTR_SPN_STATUS_STATE 4).put Reg.MTR_LADDER_CHOP_FAULT 1) .reset, by decide +kernel⟩,
    ⟨13800, (fun b : State => (b.put Reg.MTR_SPN_STATUS_STATE 7).put Reg.MTR_LADDER_CHOP_FAULT 0) .reset, by decide +kernel⟩,
    ⟨13799, (fun b : State => (b.put Reg.MTR_SPN_STATUS_STATE 5)) .reset, by decide +kernel⟩,
    ⟨14400, (fun b : State => b.put Reg.MTR_LADDER_OVP 1) .reset, by decide +kernel⟩,
    ⟨14399, (fun b : State => b) .reset, by decide +kernel⟩,
    ⟨10400, 10400, (fun b : State => b) .reset, by decide +kernel⟩,
    ⟨11999, 12200, (fun b : State => b) .reset, by decide +kernel⟩,
    ⟨12000, 12200, (fun b : State => b) .reset, by decide +kernel⟩,
    ⟨12101, 12000, (fun b : State => (b.modSpn (fun p => { p with switchOpen := true, vinFailed := false }))) .reset, by decide +kernel⟩,
    ⟨12100, 12000, (fun b : State => (b.modSpn (fun p => { p with switchOpen := true }))) .reset, by decide +kernel⟩,
    ⟨13201, (fun b : State => (b.put Reg.MTR_LADDER_CHOP 1)) .reset, by decide +kernel⟩,
    ⟨13200, (fun b : State => (b.put Reg.MTR_LADDER_CHOP 1)) .reset, by decide +kernel⟩,
    ⟨13200, (fun b : State => (b.put Reg.MTR_LADDER_VIN_HIGH 1)) .reset, by decide +kernel⟩,
    ⟨13201, (fun b : State => (b.put Reg.MTR_LADDER_VIN_HIGH 1)) .reset, by decide +kernel⟩⟩

theorem witness_DriversAndRetract :
    (∃ (a : Fin 4) (o : Nat) (c : Int) (r : List (Nat × Nat × Int)) (s : State),
    s.spn.d2d = (a.val, o, c) :: r ∧ o < 12 ∧ s.clkOk 32 = true ∧ s.fitted a.val = true ∧ s.retState a.val = 0) ∧
    (∃ (a : Fin 4) (c : Int) (r : List (Nat × Nat × Int)) (s : State),
    s.spn.d2d = (a.val, 12, c) :: r ∧ s.clkOk 32 = true ∧ s.fitted a.val = true ∧ s.retState a.val = 0 ∧ hasBit (s.get Reg.MTR_DRV_CTL_VCM_EN) a.val = true) ∧
    (∃ (a : Nat) (o : Nat) (c : Int) (r : List (Nat × Nat × Int)) (s : State),
    s.spn.d2d = (a, o, c) :: r ∧ o ≠ 13 ∧ s.clkOk 32 = true ∧ ((s.fitted a = false ∨ s.retState a ≠ 0 ∨ (o = 12 ∧ hasBit (s.get Reg.MTR_DRV_CTL_VCM_EN) a = false)))) ∧
    (∃ (s : State),
    ((s.clkOk 32 = false ∨ s.spn.d2d = [] ∨ s.spn.d2d.head?.any (fun x => x.2.1 == 13) = true))) ∧
    (∃ (a : Fin 4) (c : Int) (r : List (Nat × Nat × Int)) (s : State),
    s.spn.d2d = (a.val, 13, c) :: r ∧ s.clkOk 32 = true ∧ s.fitted a.val = true ∧ s.retState a.val = 0) ∧
    (∃ (a : Nat) (c : Int) (r : List (Nat × Nat × Int)) (s : State),
    s.spn.d2d = (a, 13, c) :: r ∧ s.clkOk 32 = true ∧ s.fitted a = false) ∧
    (∃ (s : State),
    ((s.clkOk 32 = false ∨ s.spn.d2d = [] ∨ s.spn.d2d.head?.any (fun x => x.2.1 != 13) = true))) ∧
    (∃ (a : Fin 4) (s : State),
    s.retState a.val = 1) ∧
    (∃ (a : Fin 4) (s : State),
    s.retState a.val ≠ 1) ∧
    (∃ (v : Word) (s : State),
    s.get Reg.SPT_STATUS_FAIL = 0) ∧
    (∃ (v : Word) (s : State),
    bits v.toNat 11 8 ≠ 0 ∧ s.get Reg.SPT_STATUS_FAIL = 1 ∧ s.get Reg.MTR_CFG_STATUS_ERR = 0) :=
  ⟨⟨1, 3, -5, [(0, 1, 2)], (fun b : State => (((tClk b).put Reg.MTR_RET_STATUS_STATE 0).put Reg.SYS_STRAP_ACT 15).modSpn (fun p => { p with d2d := [(1, 3, -5), (0, 1, 2)] })) .reset, by decide +kernel⟩,
    ⟨1, -5, [(0, 1, 2)], (fun b : State => ((((tClk b).put Reg.MTR_RET_STATUS_STATE 0).put Reg.SYS_STRAP_ACT 15).put Reg.MTR_DRV_CTL_VCM_EN 2).modSpn (fun p => { p with d2d := [(1, 12, -5), (0, 1, 2)] })) .reset, by decide +kernel⟩,
    ⟨1, 12, -5, [], (fun b : State => ((tClk b).put Reg.MTR_RET_STATUS_STATE 4).modSpn (fun p => { p with d2d := [(1, 12, -5)] })) .reset, by decide +kernel⟩,
    ⟨(fun b : State => b.modSpn (fun p => { p with d2d := [(1, 13, 0)] })) .reset, by decide +kernel⟩,
    ⟨1, 0, [], (fun b : State => (((tClk b).put Reg.MTR_RET_STATUS_STATE 0).put Reg.SYS_STRAP_ACT 15).modSpn (fun p => { p with drv := [(17, 4), (28, 7)], d2d := [(1, 13, 0)] })) .reset, by decide +kernel⟩,
    ⟨1, 0, [], (fun b : State => ((tClk b).put Reg.SYS_STRAP_ACT 13).modSpn (fun p => { p with d2d := [(1, 13, 0)] })) .reset, by decide +kernel⟩,
    ⟨(fun b : State => b.modSpn (fun p => { p with d2d := [(1, 3, 0)] })) .reset, by decide +kernel⟩,
    ⟨3, (fun b : State => b.put Reg.MTR_RET_STATUS_STATE 64) .reset, by decide +kernel⟩,
    ⟨3, (fun b : State => b.put Reg.MTR_RET_STATUS_STATE 128) .reset, by decide +kernel⟩,
    ⟨0xB00, (fun b : State => (((b.put Reg.MTR_RET_STATUS_STATE 0x4A).put Reg.MTR_RET_STATUS_PARKED 3).put Reg.MTR_RET_STATUS_CAUSE 0x1234).put Reg.SPT_STATUS_FAIL 0) .reset, by decide +kernel⟩,
    ⟨0xF00, (fun b : State => ((b.put Reg.MTR_RET_STATUS_STATE 8).put Reg.SPT_STATUS_FAIL 1).put Reg.MTR_CFG_STATUS_ERR 0) .reset, by decide +kernel⟩⟩

theorem witness_Supplies :
    (∃ (v : Nat) (s : State),
    v < 11000 ∧ s.get Reg.SPT_STATUS_WARN = 0 ∧ s.spt.test ≠ .drawing) ∧
    (∃ (v : Nat) (s : State),
    v < 11000 ∧ s.get Reg.SPT_STATUS_WARN = 0 ∧ s.spt.test = .drawing) ∧
    (∃ (v : Nat) (s : State),
    ((11000 ≤ v ∨ s.get Reg.SPT_STATUS_WARN = 1))) ∧
    (∃ (v : Nat) (s : State),
    11400 < v ∧ s.get Reg.SPT_STATUS_FAIL = 0) ∧
    (∃ (v : Nat) (s : State),
    ((v ≤ 11400 ∨ s.get Reg.SPT_STATUS_FAIL = 1))) ∧
    (∃ (v : Nat) (s : State),
    v < 10400 ∧ 1 ≤ s.pwr.step ∧ s.get Reg.SPT_STATUS_FAIL = 0) ∧
    (∃ (v : Nat) (s : State),
    ((10400 ≤ v ∨ s.pwr.step = 0 ∨ s.get Reg.SPT_STATUS_FAIL = 1))) ∧
    (∃ (s : State),
    ((s.spt.vhold = .off ∨ s.spt.vhold = .collapsed))) ∧
    (∃ (s : State),
    s.spt.vhold ≠ .off ∧ s.spt.vhold ≠ .collapsed) :=
  ⟨⟨10900, (fun b : State => (b.put Reg.SPT_STATUS_WARN 0).modSpt (fun p => { p with test := .idle })) .reset, by decide +kernel⟩,
    ⟨10900, (fun b : State => (b.put Reg.SPT_STATUS_WARN 0).modSpt (fun p => { p with test := .drawing })) .reset, by decide +kernel⟩,
    ⟨11000, (fun b : State => b) .reset, by decide +kernel⟩,
    ⟨11500, (fun b : State => (b.put Reg.SPT_STATUS_FAIL 0).put Reg.SPT_STATUS_WARN 1) .reset, by decide +kernel⟩,
    ⟨11400, (fun b : State => b) .reset, by decide +kernel⟩,
    ⟨10300, (fun b : State => (b.setPwr { b.pwr with step := 11 }).put Reg.SPT_STATUS_FAIL 0) .reset, by decide +kernel⟩,
    ⟨10400, (fun b : State => b) .reset, by decide +kernel⟩,
    ⟨(fun b : State => b.modSpt (fun p => { p with vhold := .collapsed })) .reset, by decide +kernel⟩,
    ⟨(fun b : State => b.modSpt (fun p => { p with vhold := .held })) .reset, by decide +kernel⟩⟩

theorem witness_Saves :
    (∃ (s : State),
    s.spt.saving = true ∧ s.spt.frozenJW = false) ∧
    (∃ (a : SaveArea) (s : State),
    s.spt.saving = true ∧ s.spt.frozenJW = true ∧ s.spt.frozenMeta = false ∧ SMap.look s.spt.areas s.spt.into = some a) ∧
    (∃ (s : State),
    ((s.spt.saving = false ∨ (s.spt.frozenJW = true ∧ s.spt.frozenMeta = true)))) ∧
    (∃ (ms : Nat) (v : Nat) (a : SaveArea) (s : State),
    s.spt.saving = true ∧ s.spt.frozenJW = true ∧ s.spt.frozenMeta = true ∧ SMap.look s.spt.areas s.spt.into = some a) ∧
    (∃ (ms : Nat) (v : Nat) (a : SaveArea) (s : State),
    s.spt.saving = true ∧ s.spt.frozenJW = true ∧ s.spt.frozenMeta = false ∧ SMap.look s.spt.areas s.spt.into = some a) ∧
    (∃ (ms : Nat) (v : Nat) (s : State),
    s.spt.saving = false ∧ s.get Reg.SPT_STATUS_FAIL = 1) ∧
    (∃ (ms : Nat) (v : Nat) (s : State),
    ((s.spt.saving = false ∧ s.get Reg.SPT_STATUS_FAIL = 0 ∨ s.spt.saving = true ∧ s.spt.frozenJW = false))) ∧
    (∃ (c : Nat) (a : SaveArea) (s : State),
    s.spt.saving = true ∧ s.spt.frozenJW = true ∧ SMap.look s.spt.areas s.spt.into = some a) ∧
    (∃ (c : Nat) (s : State),
    s.spt.saving = true ∧ s.spt.frozenJW = false) ∧
    (∃ (c : Nat) (s : State),
    s.spt.saving = false) :=
  ⟨⟨(fun b : State => b.modSpt (fun p => { p with saving := true, frozenJW := false, window := [(2, ⟨5, 1, 3, 9, false⟩)] })) .reset, by decide +kernel⟩,
    ⟨tArea, (fun b : State => b.modSpt (fun p => { p with saving := true, frozenJW := true, frozenMeta := false, areas := [(p.into, tArea)] })) .reset, by decide +kernel⟩,
    ⟨(fun b : State => b.modSpt (fun p => { p with saving := true, frozenJW := true, frozenMeta := true, areas := [(p.into, tArea)] })) .reset, by decide +kernel⟩,
    ⟨900, 20000, tArea, (fun b : State => (b.modSpt (fun p => { p with saving := true, frozenJW := true, frozenMeta := true, areas := [(p.into, tArea)] })).put Reg.SPT_STATUS_FAIL 1) .reset, by decide +kernel⟩,
    ⟨900, 20000, tArea, (fun b : State => (b.modSpt (fun p => { p with saving := true, frozenJW := true, frozenMeta := false, areas := [(p.into, tArea)] })).put Reg.SPT_STATUS_FAIL 1) .reset, by decide +kernel⟩,
    ⟨900, 20000, (fun b : State => (b.modSpt (fun p => { p with saving := false })).put Reg.SPT_STATUS_FAIL 1) .reset, by decide +kernel⟩,
    ⟨900, 20000, (fun b : State => (b.modSpt (fun p => { p with saving := false })).put Reg.SPT_STATUS_FAIL 0) .reset, by decide +kernel⟩,
    ⟨3, tArea, (fun b : State => b.modSpt (fun p => { p with saving := true, frozenJW := true, areas := [(p.into, tArea)] })) .reset, by decide +kernel⟩,
    ⟨3, (fun b : State => b.modSpt (fun p => { p with saving := true, frozenJW := false })) .reset, by decide +kernel⟩,
    ⟨3, (fun b : State => b.modSpt (fun p => { p with saving := false })) .reset, by decide +kernel⟩⟩

theorem witness_SelfTest :
    (∃ (v : Nat) (s : State),
    29700 ≤ v ∧ v < 33000) ∧
    (∃ (v : Nat) (s : State),
    33000 ≤ v ∧ v ≤ 0xFFFF ∧ s.spt.test = .recharging) ∧
    (∃ (v : Nat) (s : State),
    33000 ≤ v ∧ s.spt.test ≠ .recharging) ∧
    (∃ (v : Nat) (s : State),
    v < 29700) ∧
    (∃ (s : State),
    s.spt.full = false ∧ s.get Reg.SPT_STATUS_WARN = 0 ∧ s.get Reg.SPT_STATUS_FAIL = 0 ∧ s.spt.test = .idle) ∧
    (∃ (s : State),
    s.spt.full = true ∧ 33000 ≤ s.get Reg.SPT_VSTORE_VSTORE ∧ s.get Reg.SPT_STATUS_WARN = 0 ∧ s.get Reg.SPT_STATUS_FAIL = 0 ∧ s.spt.test = .idle) ∧
    (∃ (s : State),
    s.spt.full = true ∧ ((s.get Reg.SPT_VSTORE_VSTORE < 33000 ∨ s.get Reg.SPT_STATUS_WARN = 1 ∨ s.get Reg.SPT_STATUS_FAIL = 1 ∨ s.spt.test ≠ .idle))) ∧
    (∃ (n : Nat) (s : State),
    s.spt.test = .drawing ∧ n ≤ 5000000 ∧ 1 ≤ capWindow n) ∧
    (∃ (n : Nat) (s : State),
    s.spt.test = .drawing ∧ n ≤ 5000000 ∧ capWindow n = 0) ∧
    (∃ (n : Nat) (s : State),
    ((s.spt.test ≠ .drawing ∨ 5000000 < n))) ∧
    (∃ (s : State),
    s.spt.test = .drawing) ∧
    (∃ (s : State),
    s.spt.test ≠ .drawing) ∧
    (∃ (s : State),
    s.spt.retry = true ∧ s.get Reg.SPT_STATUS_WARN = 0 ∧ s.get Reg.SPT_STATUS_FAIL = 0 ∧ s.spt.test = .idle ∧ 33000 ≤ s.get Reg.SPT_VSTORE_VSTORE) ∧
    (∃ (s : State),
    ((s.spt.retry = false ∨ s.get Reg.SPT_STATUS_WARN = 1 ∨ s.get Reg.SPT_STATUS_FAIL = 1 ∨ s.spt.test ≠ .idle ∨ s.get Reg.SPT_VSTORE_VSTORE < 33000))) ∧
    (∃ (s : State),
    s.spt.full = false) ∧
    (∃ (s : State),
    s.spt.full = true) ∧
    (∃ (s : State),
    1 ≤ s.get Reg.SPT_CTL_PERIOD_H ∧ s.get Reg.SPT_CTL_PERIOD_H ≤ 24 ∧ 1 ≤ s.get Reg.SPT_CTL_WIN_LIMIT ∧ s.get Reg.SPT_CTL_WIN_LIMIT ≤ 16 ∧ s.get Reg.SPT_CTL_WIN_EN ≤ 1 ∧ s.get Reg.SPT_STATUS_TESTING = 0 ∧ s.get Reg.SPT_STATUS_WARN = 0 ∧ s.get Reg.SPT_STATUS_FAIL = 0 ∧ 33000 ≤ s.get Reg.SPT_VSTORE_VSTORE ∧ s.spt.test = .idle) ∧
    (∃ (s : State),
    1 ≤ s.get Reg.SPT_CTL_PERIOD_H ∧ s.get Reg.SPT_CTL_PERIOD_H ≤ 24 ∧ 1 ≤ s.get Reg.SPT_CTL_WIN_LIMIT ∧ s.get Reg.SPT_CTL_WIN_LIMIT ≤ 16 ∧ s.get Reg.SPT_CTL_WIN_EN ≤ 1 ∧ ((s.get Reg.SPT_STATUS_TESTING = 1 ∨ s.get Reg.SPT_STATUS_WARN = 1 ∨ s.get Reg.SPT_VSTORE_VSTORE < 33000)) ∧ s.get Reg.SPT_CFG_STATUS_ERR = 0) ∧
    (∃ (s : State),
    1 ≤ s.get Reg.SPT_CTL_PERIOD_H ∧ s.get Reg.SPT_CTL_PERIOD_H ≤ 24 ∧ 1 ≤ s.get Reg.SPT_CTL_WIN_LIMIT ∧ s.get Reg.SPT_CTL_WIN_LIMIT ≤ 16 ∧ s.get Reg.SPT_CTL_WIN_EN ≤ 1 ∧ s.get Reg.SPT_STATUS_PENDING_REL = 1) ∧
    (∃ (s : State),
    1 ≤ s.get Reg.SPT_CTL_PERIOD_H ∧ s.get Reg.SPT_CTL_PERIOD_H ≤ 24 ∧ 1 ≤ s.get Reg.SPT_CTL_WIN_LIMIT ∧ s.get Reg.SPT_CTL_WIN_LIMIT ≤ 16 ∧ s.get Reg.SPT_CTL_WIN_EN ≤ 1 ∧ s.get Reg.SPT_STATUS_PENDING_REL = 0 ∧ s.get Reg.SPT_CFG_STATUS_ERR = 0) ∧
    (∃ (s : State),
    1 ≤ s.get Reg.SPT_CTL_PERIOD_H ∧ s.get Reg.SPT_CTL_PERIOD_H ≤ 24 ∧ 1 ≤ s.get Reg.SPT_CTL_WIN_LIMIT ∧ s.get Reg.SPT_CTL_WIN_LIMIT ≤ 16 ∧ s.get Reg.SPT_CTL_WIN_EN ≤ 1) ∧
    (∃ (s : State),
    s.get Reg.SPT_CTL_PERIOD_H = 0 ∧ s.get Reg.SPT_CFG_STATUS_ERR = 0) :=
  ⟨⟨30000, (fun b : State => b) .reset, by decide +kernel⟩,
    ⟨33100, (fun b : State => b.modSpt (fun p => { p with test := .recharging })) .reset, by decide +kernel⟩,
    ⟨33000, (fun b : State => b.modSpt (fun p => { p with test := .idle })) .reset, by decide +kernel⟩,
    ⟨29699, (fun b : State => b) .reset, by decide +kernel⟩,
    ⟨(fun b : State => ((b.put Reg.SPT_STATUS_WARN 0).put Reg.SPT_STATUS_FAIL 0).modSpt (fun p => { p with test := .idle, full := false })) .reset, by decide +kernel⟩,
    ⟨(fun b : State => (((b.put Reg.SPT_STATUS_WARN 0).put Reg.SPT_STATUS_FAIL 0).put Reg.SPT_VSTORE_VSTORE 33000).modSpt (fun p => { p with test := .idle, full := true })) .reset, by decide +kernel⟩,
    ⟨(fun b : State => (b.put Reg.SPT_VSTORE_VSTORE 32999).modSpt (fun p => { p with full := true })) .reset, by decide +kernel⟩,
    ⟨4000000, (fun b : State => b.modSpt (fun p => { p with test := .drawing })) .reset, by decide +kernel⟩,
    ⟨300000, (fun b : State => b.modSpt (fun p => { p with test := .drawing })) .reset, by decide +kernel⟩,
    ⟨5000001, (fun b : State => b.modSpt (fun p => { p with test := .drawing })) .reset, by decide +kernel⟩,
    ⟨(fun b : State => b.modSpt (fun p => { p with test := .drawing })) .reset, by decide +kernel⟩,
    ⟨(fun b : State => b.modSpt (fun p => { p with test := .idle })) .reset, by decide +kernel⟩,
    ⟨(fun b : State => (((b.put Reg.SPT_STATUS_WARN 0).put Reg.SPT_STATUS_FAIL 0).put Reg.SPT_VSTORE_VSTORE 33000).modSpt (fun p => { p with test := .idle, retry := true })) .reset, by decide +kernel⟩,
    ⟨(fun b : State => (b.put Reg.SPT_STATUS_WARN 1).modSpt (fun p => { p with retry := true })) .reset, by decide +kernel⟩,
    ⟨(fun b : State => b.modSpt (fun p => { p with full := false })) .reset, by decide +kernel⟩,
    ⟨(fun b : State => b.modSpt (fun p => { p with full := true })) .reset, by decide +kernel⟩,
    ⟨(fun b : State => (tSpt b).modSpt (fun p => { p with test := .idle })) .reset, by decide +kernel⟩,
    ⟨(fun b : State => ((tSpt b).put Reg.SPT_STATUS_TESTING 1).put Reg.SPT_CFG_STATUS_ERR 0) .reset, by decide +kernel⟩,
    ⟨(fun b : State => ((tSpt b).put Reg.SPT_STATUS_PENDING_REL 1).modSpt (fun p => { p with restored := [1], areas := [(1, tArea)] })) .reset, by decide +kernel⟩,
    ⟨(fun b : State => ((tSpt b).put Reg.SPT_STATUS_PENDING_REL 0).put Reg.SPT_CFG_STATUS_ERR 0) .reset, by decide +kernel⟩,
    ⟨(fun b : State => (tSpt b).modSpt (fun p => { p with rewrite := [5], window := [(2, ⟨5, 1, 3, 9, true⟩), (3, ⟨6, 1, 2, 9, true⟩), (5, ⟨7, 1, 1, 9, true⟩)] })) .reset, by decide +kernel⟩,
    ⟨(fun b : State => ((tSpt b).put Reg.SPT_CTL_PERIOD_H 0).put Reg.SPT_CFG_STATUS_ERR 0) .reset, by decide +kernel⟩⟩

theorem witness_ReservationWrites :
    (∃ (r : Fin 5) (c : Fin 5) (v : Word) (s : State),
    s.busFails (0x40400010 + 4 * c.val) = false ∧ 1 ≤ bits v.toNat 8 0 ∧ ((List.range 5).map (fun j => if j = c.val then bits v.toNat 8 0 else s.get (Reg.BUF_RES_GBPS j))).sum ≤ 368) ∧
    (∃ (r : Fin 5) (c : Fin 5) (v : Word) (s : State),
    s.busFails (0x40400010 + 4 * c.val) = false ∧ 1 ≤ bits v.toNat 8 0 ∧ bits v.toNat 8 0 ≤ 368 ∧ s.get Reg.BUF_CFG_STATUS_ERR = 0 ∧ 368 < ((List.range 5).map (fun j => if j = c.val then bits v.toNat 8 0 else s.get (Reg.BUF_RES_GBPS j))).sum) ∧
    (∃ (r : Fin 5) (c : Fin 5) (v : Word) (s : State),
    s.busFails (0x40400010 + 4 * c.val) = false ∧ 1 ≤ bits v.toNat 8 0 ∧ bits v.toNat 8 0 ≤ 368 ∧ s.get Reg.BUF_CFG_STATUS_ERR = 1 ∧ 368 < ((List.range 5).map (fun j => if j = c.val then bits v.toNat 8 0 else s.get (Reg.BUF_RES_GBPS j))).sum) :=
  ⟨⟨1, 3, 7, (fun b : State => tRes b) .reset, by decide +kernel⟩,
    ⟨1, 3, 300, (fun b : State => (tRes b).put Reg.BUF_CFG_STATUS_ERR 0) .reset, by decide +kernel⟩,
    ⟨1, 3, 300, (fun b : State => (tRes b).put Reg.BUF_CFG_STATUS_ERR 1) .reset, by decide +kernel⟩⟩

theorem witness_BufferReads :
    (∃ (c : BufClass) (n : Nat) (s : State),
    s.reqHeld ⟨classNum c, classPort c, false, 32 * n, 32, 0⟩ = false ∧ s.hbmUp = true ∧ rsDecode (s.burstErr n) = .clean) ∧
    (∃ (c : BufClass) (n : Nat) (i : Nat) (v : Nat) (s : State),
    s.reqHeld ⟨classNum c, classPort c, false, 32 * n, 32, 0⟩ = false ∧ s.hbmUp = true ∧ rsDecode (s.burstErr n) = .single i v ∧ 4 ≤ i) ∧
    (∃ (c : BufClass) (n : Nat) (i : Nat) (v : Nat) (s : State),
    s.reqHeld ⟨classNum c, classPort c, false, 32 * n, 32, 0⟩ = false ∧ s.hbmUp = true ∧ rsDecode (s.burstErr n) = .single i v ∧ i < 4) ∧
    (∃ (c : BufClass) (n : Nat) (s : State),
    s.reqHeld ⟨classNum c, classPort c, false, 32 * n, 32, 0⟩ = false ∧ s.hbmUp = true ∧ rsDecode (s.burstErr n) = .bad) ∧
    (∃ (c : BufClass) (n : Nat) (s : State),
    s.reqHeld ⟨classNum c, classPort c, false, 32 * n, 32, 0⟩ = false ∧ s.hbmUp = false) ∧
    (∃ (c : BufClass) (n : Nat) (s : State),
    ((s.clkOk 25 = false ∨ s.buf.ppr.any (fun x => pcOf x.2 == pcOf n) = true))) ∧
    (∃ (f : Bool) (h : Bool) (c : BufClass) (n : Nat) (b : Nat) (s : State),
    s.buf.ppr = some (h, b) ∧ s.buf.waiting = [⟨classNum c, classPort c, false, 32 * n, 32, 0⟩] ∧ s.hbmUp = true ∧ rsDecode (s.burstErr n) = .clean) ∧
    (∃ (s : State),
    s.hbmUp = true) ∧
    (∃ (s : State),
    s.hbmUp = false) :=
  ⟨⟨.ring, 128, (fun b : State => tHb b) .reset, by decide +kernel⟩,
    ⟨.host 1, 128, 4, 9, (fun b : State => (tHb b).setChk [(128, tErr)]) .reset, by decide +kernel⟩,
    ⟨.media, 128, 3, 1, (fun b : State => (tHb b).setChk [(128, 1)]) .reset, by decide +kernel⟩,
    ⟨.chord, 128, (fun b : State => ((tHb b).setChk [(128, 0x01020304)]).put Reg.BUF_UE_FIRST_VALID 0) .reset, by decide +kernel⟩,
    ⟨.other, 128, (fun b : State => (tHb b).put Reg.BUF_STATUS_TRAINED 0) .reset, by decide +kernel⟩,
    ⟨.ring, 128, (fun b : State => (tHb b).setBuf { b.buf with ppr := some (true, 128) }) .reset, by decide +kernel⟩,
    ⟨true, true, .ring, 128, 128, (fun b : State => (tHb b).setBuf { b.buf with selfRef := false, ppr := some (true, 128), waiting := [⟨1, 0, false, 4096, 32, 0⟩] }) .reset, by decide +kernel⟩,
    ⟨(fun b : State => tHb b) .reset, by decide +kernel⟩,
    ⟨(fun b : State => (tHb b).put Reg.BUF_STATUS_TRAINED 0) .reset, by decide +kernel⟩⟩

theorem witness_BufferWrites :
    (∃ (c : BufClass) (addr : Nat) (len : Nat) (data : Nat) (s : State),
    s.reqHeld ⟨classNum c, classPort c, true, addr, len, data⟩ = false ∧ s.hbmUp = true ∧ (burstsOf addr len).all (fun n => s.burstErr n == 0) = true) ∧
    (∃ (c : BufClass) (n : Nat) (o : Nat) (len : Nat) (data : Nat) (s : State),
    s.reqHeld ⟨classNum c, classPort c, true, 32 * n + o, len, data⟩ = false ∧ s.hbmUp = true ∧ 0 < len ∧ o + len < 32 ∧ rsDecode (s.burstErr n) = .bad) ∧
    (∃ (c : BufClass) (n : Nat) (data : Nat) (s : State),
    s.reqHeld ⟨classNum c, classPort c, true, 32 * n, 32, data⟩ = false ∧ s.hbmUp = true) ∧
    (∃ (c : BufClass) (addr : Nat) (len : Nat) (data : Nat) (s : State),
    s.reqHeld ⟨classNum c, classPort c, true, addr, len, data⟩ = false ∧ s.hbmUp = false) ∧
    (∃ (c : BufClass) (addr : Nat) (len : Nat) (data : Nat) (s : State),
    s.reqHeld ⟨classNum c, classPort c, true, addr, len, data⟩ = true) :=
  ⟨⟨.ring, 4090, 70, 0x123456789ABCDEF0, (fun b : State => tHb b) .reset, by decide +kernel⟩,
    ⟨.host 0, 128, 3, 5, 77, (fun b : State => (tHb b).setChk [(128, 0x01020304)]) .reset, by decide +kernel⟩,
    ⟨.host 1, 128, 77, (fun b : State => (tHb b).setChk [(128, 0x01020304)]) .reset, by decide +kernel⟩,
    ⟨.media, 4090, 70, 5, (fun b : State => (tHb b).put Reg.BUF_STATUS_TRAINED 0) .reset, by decide +kernel⟩,
    ⟨.other, 4090, 70, 5, (fun b : State => (tHb b).setBuf { b.buf with ppr := some (true, 128) }) .reset, by decide +kernel⟩⟩

theorem witness_RepairAndRaw :
    (∃ (v : Word) (s : State),
    bits v.toNat 31 16 = 0x5A5A ∧ hasBit v.toNat 0 = true ∧ s.get Reg.BUF_CFG_STATUS_ERR = 0 ∧ ((s.get Reg.SYS_PWR_STATE_STATE = 1 ∨ s.get Reg.SYS_PWR_STATE_STATE = 2)) ∧ s.get Reg.BUF_PPR_STATUS_BUSY = 0) ∧
    (∃ (v : Word) (s : State),
    bits v.toNat 31 16 = 0x5A5A ∧ hasBit v.toNat 0 = true ∧ s.get Reg.BUF_CFG_STATUS_ERR = 0 ∧ s.get Reg.SYS_PWR_STATE_STATE ≠ 1 ∧ s.get Reg.SYS_PWR_STATE_STATE ≠ 2) ∧
    (∃ (v : Word) (s : State),
    bits v.toNat 31 16 = 0x5A5A ∧ hasBit v.toNat 0 = true ∧ s.get Reg.BUF_CFG_STATUS_ERR = 0 ∧ ((s.get Reg.SYS_PWR_STATE_STATE = 1 ∨ s.get Reg.SYS_PWR_STATE_STATE = 2)) ∧ s.get Reg.BUF_PPR_STATUS_BUSY = 1) ∧
    (∃ (v : Word) (s : State),
    ((bits v.toNat 31 16 ≠ 0x5A5A ∨ hasBit v.toNat 0 = false))) ∧
    (∃ (f : Bool) (h : Bool) (n : Nat) (s : State),
    s.buf.ppr = some (h, n) ∧ s.buf.waiting = []) ∧
    (∃ (f : Bool) (s : State),
    s.buf.ppr = none) ∧
    (∃ (n : Nat) (s : State),
    s.hbmUp = true ∧ s.get Reg.BUF_RAW_CTL_BUSY = 0 ∧ s.get Reg.BUF_RAW_ADDR_BURST = n) ∧
    (∃ (n : Nat) (s : State),
    s.hbmUp = true ∧ s.get Reg.BUF_RAW_CTL_BUSY = 0 ∧ s.get Reg.BUF_RAW_ADDR_BURST = n) ∧
    (∃ (s : State),
    s.get Reg.BUF_RAW_CTL_BUSY = 1 ∧ s.get Reg.BUF_CFG_STATUS_ERR = 0) ∧
    (∃ (s : State),
    s.get Reg.BUF_RAW_CTL_BUSY = 0 ∧ s.hbmUp = false ∧ s.get Reg.BUF_CFG_STATUS_ERR = 0) ∧
    (∃ (s : State),
    s.buf.raw = .reading) ∧
    (∃ (s : State),
    s.buf.raw = .writing) ∧
    (∃ (s : State),
    s.buf.raw = .idle) :=
  ⟨⟨0x5A5A0003, (fun b : State => (((b.put Reg.BUF_PPR_STATUS_BUSY 0).put Reg.SYS_PWR_STATE_STATE 1).put Reg.BUF_CFG_STATUS_ERR 0).put Reg.BUF_PPR_ROW_BURST 3128) .reset, by decide +kernel⟩,
    ⟨0x5A5A0003, (fun b : State => (((b.put Reg.BUF_PPR_STATUS_BUSY 0).put Reg.SYS_PWR_STATE_STATE 0).put Reg.BUF_CFG_STATUS_ERR 0)) .reset, by decide +kernel⟩,
    ⟨0x5A5A0001, (fun b : State => (((b.put Reg.BUF_PPR_STATUS_BUSY 1).put Reg.SYS_PWR_STATE_STATE 2).put Reg.BUF_CFG_STATUS_ERR 0)) .reset, by decide +kernel⟩,
    ⟨0x5A5B0001, (fun b : State => b) .reset, by decide +kernel⟩,
    ⟨false, true, 3128, (fun b : State => (b.put Reg.BUF_PPR_STATUS_BUSY 1).setBuf { b.buf with ppr := some (true, 3128), waiting := [] }) .reset, by decide +kernel⟩,
    ⟨false, (fun b : State => b.setBuf { b.buf with ppr := none }) .reset, by decide +kernel⟩,
    ⟨128, (fun b : State => ((tHbm b).put Reg.BUF_RAW_CTL_BUSY 0).put Reg.BUF_RAW_ADDR_BURST 128) .reset, by decide +kernel⟩,
    ⟨128, (fun b : State => ((tHbm b).put Reg.BUF_RAW_CTL_BUSY 0).put Reg.BUF_RAW_ADDR_BURST 128) .reset, by decide +kernel⟩,
    ⟨(fun b : State => ((tHbm b).put Reg.BUF_RAW_CTL_BUSY 1).put Reg.BUF_CFG_STATUS_ERR 0) .reset, by decide +kernel⟩,
    ⟨(fun b : State => (((tHbm b).put Reg.BUF_RAW_CTL_BUSY 0).put Reg.BUF_STATUS_TRAINED 0).put Reg.BUF_CFG_STATUS_ERR 0) .reset, by decide +kernel⟩,
    ⟨(fun b : State => ((tHbm b).put Reg.BUF_RAW_CTL_BUSY 1).setBuf { b.buf with raw := .reading, rawGot := (0x1122334455667788, 0x99AABBCCDD) }) .reset, by decide +kernel⟩,
    ⟨(fun b : State => ((tHbm b).put Reg.BUF_RAW_CTL_BUSY 1).setBuf { b.buf with raw := .writing }) .reset, by decide +kernel⟩,
    ⟨(fun b : State => b.setBuf { b.buf with raw := .idle }) .reset, by decide +kernel⟩⟩

theorem witness_ScrubAndFlip :
    (∃ (s : State),
    1 ≤ s.get Reg.BUF_SCRUB_LEN_COUNT ∧ s.get Reg.BUF_SCRUB_START_BURST + s.get Reg.BUF_SCRUB_LEN_COUNT ≤ 536870912 ∧ s.get Reg.BUF_SCRUB_CTL_BUSY = 0 ∧ s.hbmUp = true) ∧
    (∃ (s : State),
    s.get Reg.BUF_CFG_STATUS_ERR = 0 ∧ ((s.get Reg.BUF_SCRUB_LEN_COUNT = 0 ∨ 536870912 < s.get Reg.BUF_SCRUB_START_BURST + s.get Reg.BUF_SCRUB_LEN_COUNT ∨ s.get Reg.BUF_SCRUB_CTL_BUSY = 1 ∨ s.hbmUp = false))) ∧
    (∃ (s : State),
    s.get Reg.BUF_SCRUB_CTL_BUSY = 0) ∧
    (∃ (s : State),
    s.get Reg.BUF_SCRUB_CTL_BUSY = 1 ∧ s.get Reg.BUF_CFG_STATUS_ERR = 0) ∧
    (∃ (n : Nat) (s : State),
    s.get Reg.BUF_SCRUB_CTL_BUSY = 1 ∧ s.buf.scrubSram = false ∧ s.chk = []) ∧
    (∃ (n : Nat) (s : State),
    s.get Reg.BUF_SCRUB_CTL_BUSY = 0) ∧
    (∃ (n : Nat) (e : Nat) (p : Nat) (v : Nat) (s : State),
    s.get Reg.BUF_SCRUB_CTL_BUSY = 1 ∧ s.buf.scrubSram = false ∧ s.chk = [(n, e)] ∧ rsDecode e = .single p v ∧ 4 ≤ p ∧ s.buf.scrubPos ≤ n ∧ n < s.buf.scrubPos + s.buf.scrubLen) ∧
    (∃ (n : Nat) (e : Nat) (s : State),
    s.get Reg.BUF_SCRUB_CTL_BUSY = 1 ∧ s.buf.scrubSram = false ∧ s.chk = [(n, e)] ∧ rsDecode e = .bad ∧ s.buf.scrubPos ≤ n ∧ n < s.buf.scrubPos + s.buf.scrubLen ∧ s.get Reg.BUF_SCRUB_FIRST_VALID = 0) ∧
    (∃ (i : Nat) (w : Nat) (m : Nat) (s : State),
    s.get Reg.BUF_SCRUB_CTL_BUSY = 1 ∧ s.buf.scrubSram = true ∧ s.buf.flips = [(sramKey i w, m)] ∧ popCount 128 m = 1 ∧ w < 2 ^ 22 ∧ (sramInstance i).any (fun x => x.1 == .secded) = true ∧ s.sramOn i = true) ∧
    (∃ (s : State),
    s.get Reg.BUF_SCRUB_CTL_BUSY = 0) ∧
    (∃ (v : Word) (s : State),
    hasBit v.toNat 31 = true ∧ hasBit v.toNat 30 = false ∧ hasBit v.toNat 29 = false ∧ s.flipRefused (bits v.toNat 7 0) = false) ∧
    (∃ (v : Word) (s : State),
    hasBit v.toNat 31 = true ∧ hasBit v.toNat 30 = false ∧ hasBit v.toNat 29 = false ∧ s.flipRefused (bits v.toNat 7 0) = true) ∧
    (∃ (v : Word) (s : State),
    hasBit v.toNat 31 = false) ∧
    (∃ (w : Nat) (s : State),
    s.get Reg.SYS_FLIP_SEL_ARM = 1) ∧
    (∃ (w : Nat) (s : State),
    s.get Reg.SYS_FLIP_SEL_ARM = 0) :=
  ⟨⟨(fun b : State => ((((tHb b).put Reg.BUF_SCRUB_LEN_COUNT 5).put Reg.BUF_SCRUB_START_BURST 126).put Reg.BUF_SCRUB_CTL_BUSY 0)) .reset, by decide +kernel⟩,
    ⟨(fun b : State => (b.put Reg.BUF_SCRUB_LEN_COUNT 0).put Reg.BUF_CFG_STATUS_ERR 0) .reset, by decide +kernel⟩,
    ⟨(fun b : State => (b.put Reg.BUF_SCRUB_CTL_BUSY 0)) .reset, by decide +kernel⟩,
    ⟨(fun b : State => (b.put Reg.BUF_SCRUB_CTL_BUSY 1).put Reg.BUF_CFG_STATUS_ERR 0) .reset, by decide +kernel⟩,
    ⟨3, (fun b : State => ((b.put Reg.BUF_SCRUB_CTL_BUSY 1).setChk []).setBuf { b.buf with scrubSram := false }) .reset, by decide +kernel⟩,
    ⟨3, (fun b : State => (b.put Reg.BUF_SCRUB_CTL_BUSY 0)) .reset, by decide +kernel⟩,
    ⟨128, tErr, 4, 9, (fun b : State => ((b.put Reg.BUF_SCRUB_CTL_BUSY 1).setChk [(128, tErr)]).setBuf { b.buf with scrubPos := 126, scrubLen := 5, scrubSram := false }) .reset, by decide +kernel⟩,
    ⟨128, 0x01020304, (fun b : State => (((b.put Reg.BUF_SCRUB_CTL_BUSY 1).put Reg.BUF_SCRUB_FIRST_VALID 0).setChk [(128, 0x01020304)]).setBuf { b.buf with scrubPos := 126, scrubLen := 3, scrubSram := false }) .reset, by decide +kernel⟩,
    ⟨16, 77, 8, (fun b : State => (b.put Reg.BUF_SCRUB_CTL_BUSY 1).setBuf { b.buf with scrubSram := true, flips := [(sramKey 16 77, 8)] }) .reset, by decide +kernel⟩,
    ⟨(fun b : State => (b.put Reg.BUF_SCRUB_CTL_BUSY 0)) .reset, by decide +kernel⟩,
    ⟨0x80000010, (fun b : State => (b.put Reg.SYS_FLIP_MASK_EN0 1).put Reg.SYS_FLIP_MASK_POS0 3 |>.put Reg.SYS_FLIP_MASK_EN1 0) .reset, by decide +kernel⟩,
    ⟨0x80000052, (fun b : State => b) .reset, by decide +kernel⟩,
    ⟨0x60000005, (fun b : State => b) .reset, by decide +kernel⟩,
    ⟨9, (fun b : State => (((b.put Reg.SYS_FLIP_SEL_ARM 1).put Reg.SYS_FLIP_MASK_EN0 1).put Reg.SYS_FLIP_MASK_POS0 3).put Reg.SYS_FLIP_MASK_EN1 0) .reset, by decide +kernel⟩,
    ⟨9, (fun b : State => (b.put Reg.SYS_FLIP_SEL_ARM 0)) .reset, by decide +kernel⟩⟩

theorem witness_CoresAndL1 :
    (∃ (v : Word) (s : State),
    s.get Reg.CCH_STATUS_INIT_BUSY = 0 ∧ ((∀ n : Fin 4, hasBit v.toNat n.val = true → s.domOn (84 + n.val) = true))) ∧
    (∃ (v : Word) (n : Fin 4) (s : State),
    hasBit v.toNat n.val = true ∧ hasBit (s.get Reg.CCH_CORE_CTL_RUN) n.val = false ∧ ((s.domOn (84 + n.val) = false ∨ s.get Reg.CCH_STATUS_INIT_BUSY = 1)) ∧ s.get Reg.CCH_CFG_STATUS_ERR = 0) ∧
    (∃ (n : Fin 4) (s : State),
    s.get (Reg.CCH_L1_CTL_INV_BUSY n.val) = 1 ∧ hasBit s.core.l1Inv (l1Bit n.val false) = true) ∧
    (∃ (n : Fin 4) (s : State),
    s.get (Reg.CCH_L1_CTL_INV_BUSY n.val) = 1 ∧ hasBit s.core.l1Inv (l1Bit n.val true) = true) ∧
    (∃ (n : Fin 4) (s : State),
    s.get (Reg.CCH_L1_CTL_INV_BUSY n.val) = 0) :=
  ⟨⟨5, (fun b : State => (((b.put Reg.CCH_STATUS_INIT_BUSY 0).put Reg.CCH_CORE_CTL_RUN 2).put Reg.CCH_STATUS_RUNNING 2).setPwr { b.pwr with dom := [(84, .on), (86, .on)] }) .reset, by decide +kernel⟩,
    ⟨4, 2, (fun b : State => ((b.put Reg.CCH_CORE_CTL_RUN 2).put Reg.CCH_CFG_STATUS_ERR 0).put Reg.CCH_STATUS_INIT_BUSY 1) .reset, by decide +kernel⟩,
    ⟨2, (fun b : State => ((b.put (Reg.CCH_L1_CTL_INV_BUSY 2) 1).put (Reg.CCH_L1_CTL_DEN 2) 1).modCore (fun c => { c with l1Inv := 16, l1 := [(l1Key 2 false 9, ⟨1, 0⟩), (l1Key 2 true 9, ⟨1, 0⟩)] })) .reset, by decide +kernel⟩,
    ⟨2, (fun b : State => ((b.put (Reg.CCH_L1_CTL_INV_BUSY 2) 1).put (Reg.CCH_L1_CTL_IEN 2) 1).modCore (fun c => { c with l1Inv := 32, l1 := [(l1Key 2 false 9, ⟨1, 0⟩), (l1Key 2 true 9, ⟨1, 0⟩)] })) .reset, by decide +kernel⟩,
    ⟨2, (fun b : State => (b.put (Reg.CCH_L1_CTL_INV_BUSY 2) 0)) .reset, by decide +kernel⟩⟩

theorem witness_L2Accesses :
    (∃ (c : Fin 4) (addr : Nat) (f : Bool) (w : Fin 16) (x : L1Line) (s : State),
    s.l2Ready c.val addr = true ∧ s.l1En c.val f = true ∧ SMap.look s.core.l1 (l1Key c.val f (addr / 64)) = some x ∧ s.sramFlips (l1Inst c.val f) (8 * x.pos + addr / 8 % 8) = 0) ∧
    (∃ (c : Fin 4) (addr : Nat) (f : Bool) (w : Fin 16) (k : Nat) (x : L1Line) (l : L2Line) (s : State),
    s.l2Ready c.val addr = true ∧ s.l1En c.val f = true ∧ SMap.look s.core.l1 (l1Key c.val f (addr / 64)) = some x ∧ 2 ≤ s.sramFlips (l1Inst c.val f) (8 * x.pos + addr / 8 % 8) ∧ (List.range 16).all (fun w => !s.tagBad (16 * l2Set (addr / 64) + w)) = true ∧ s.evicting (addr / 64) = none ∧ s.l2Find (addr / 64) = some k ∧ s.l2At k = some l ∧ s.dataBad k = false) ∧
    (∃ (c : Fin 4) (addr : Nat) (f : Bool) (w : Fin 16) (k : Nat) (l : L2Line) (s : State),
    s.l2Ready c.val addr = true ∧ ((s.l1En c.val f = true → SMap.look s.core.l1 (l1Key c.val f (addr / 64)) = none ∧ hasBit s.core.l1Junk (l1Bit c.val f) = false)) ∧ (List.range 16).all (fun w => !s.tagBad (16 * l2Set (addr / 64) + w)) = true ∧ s.evicting (addr / 64) = none ∧ s.l2Find (addr / 64) = some k ∧ s.l2At k = some l ∧ s.dataBad k = false) ∧
    (∃ (c : Fin 4) (addr : Nat) (f : Bool) (w : Fin 16) (n : Nat) (v : Nat) (k : Nat) (l : L2Line) (s : State),
    s.l2Ready c.val addr = true ∧ addr % 64 + n ≤ 64 ∧ (List.range 16).all (fun w => !s.tagBad (16 * l2Set (addr / 64) + w)) = true ∧ s.evicting (addr / 64) = none ∧ s.l2Find (addr / 64) = some k ∧ s.l2At k = some l ∧ s.dataBad k = false) ∧
    (∃ (c : Fin 4) (addr : Nat) (f : Bool) (w : Fin 16) (s : State),
    s.l2Ready c.val addr = true ∧ ((s.l1En c.val f = true → SMap.look s.core.l1 (l1Key c.val f (addr / 64)) = none ∧ hasBit s.core.l1Junk (l1Bit c.val f) = false)) ∧ (List.range 16).all (fun w => !s.tagBad (16 * l2Set (addr / 64) + w)) = true ∧ s.evicting (addr / 64) = none ∧ s.l2Find (addr / 64) = none ∧ s.l2At (16 * l2Set (addr / 64) + w.val) = none ∧ s.clean (lineAddr (addr / 64)) 64 = true) ∧
    (∃ (c : Fin 4) (addr : Nat) (f : Bool) (w : Fin 16) (n : Nat) (v : Nat) (l : L2Line) (s : State),
    s.l2Ready c.val addr = true ∧ addr % 64 + n ≤ 64 ∧ (List.range 16).all (fun w => !s.tagBad (16 * l2Set (addr / 64) + w)) = true ∧ s.evicting (addr / 64) = none ∧ s.l2Find (addr / 64) = none ∧ s.l2At (16 * l2Set (addr / 64) + w.val) = some l ∧ l.dirty = true ∧ s.dataBad (16 * l2Set (addr / 64) + w.val) = false ∧ s.core.evict.length < 16 ∧ s.clean (lineAddr (addr / 64)) 64 = true) ∧
    (∃ (c : Fin 4) (addr : Nat) (f : Bool) (w : Fin 16) (d : Nat) (s : State),
    s.l2Ready c.val addr = true ∧ s.l1En c.val f = false ∧ (List.range 16).all (fun w => !s.tagBad (16 * l2Set (addr / 64) + w)) = true ∧ s.evicting (addr / 64) = some d) ∧
    (∃ (c : Fin 4) (addr : Nat) (f : Bool) (w : Fin 16) (n : Nat) (v : Nat) (d : Nat) (s : State),
    s.l2Ready c.val addr = true ∧ addr % 64 + n ≤ 64 ∧ (List.range 16).all (fun w => !s.tagBad (16 * l2Set (addr / 64) + w)) = true ∧ s.evicting (addr / 64) = some d) ∧
    (∃ (c : Fin 4) (addr : Nat) (f : Bool) (w : Fin 16) (x : Option (Nat × Nat)) (s : State),
    s.l2Ready c.val addr = false) ∧
    (∃ (n : Nat) (d : Nat) (r : List (Nat × Nat)) (s : State),
    s.core.evict = (n, d) :: r ∧ s.hbmUp = true ∧ s.clkOk 27 = true) ∧
    (∃ (s : State),
    ((s.core.evict = [] ∨ s.hbmUp = false ∨ s.clkOk 27 = false))) :=
  ⟨⟨2, 0x400000048, false, 3, ⟨77, 3⟩, (fun b : State => tL1 b) .reset, by decide +kernel⟩,
    ⟨2, 0x400000048, false, 3, 16 + 5, ⟨77, 3⟩, ⟨0x10000001, false, 77⟩, (fun b : State => (tL1 b).setBuf { b.buf with selfRef := false, flips := [(sramKey 32 25, 3), (sramKey 28 25, 3)] }) .reset, by decide +kernel⟩,
    ⟨2, 0x400000048, false, 3, 16 + 5, ⟨0x10000001, false, 77⟩, (fun b : State => (tL2 b).modCore (fun c => { c with l1On := 16 })) .reset, by decide +kernel⟩,
    ⟨2, 0x400000048, false, 3, 8, 99, 16 + 5, ⟨0x10000001, false, 77⟩, (fun b : State => (tL1 b).modCore (fun c => { c with l1On := 20, l1 := [(l1Key 1 false 0x10000001, ⟨77, 5⟩), (l1Key 2 false 0x10000001, ⟨77, 3⟩)] })) .reset, by decide +kernel⟩,
    ⟨2, 0x400001040, false, 3, (fun b : State => (tL2 b).setMem [(0x1045, 9#8)]) .reset, by decide +kernel⟩,
    ⟨2, 0x400001040, false, 3, 4, 7, ⟨0x10002041, true, 5⟩, (fun b : State => ((tL2 b).setMem [(0x1045, 9#8)]).modCore (fun c => { c with l2 := [(16 * 65 + 3, ⟨0x10002041, true, 5⟩)] })) .reset, by decide +kernel⟩,
    ⟨2, 0x400000048, false, 3, 9, (fun b : State => (tL2 b).modCore (fun c => { c with evict := [(0x10000001, 9)] })) .reset, by decide +kernel⟩,
    ⟨2, 0x400000048, false, 3, 8, 5, 9, (fun b : State => (tL2 b).modCore (fun c => { c with evict := [(0x10000001, 9)] })) .reset, by decide +kernel⟩,
    ⟨1, 0x400000048, false, 3, none, (fun b : State => tL2 b) .reset, by decide +kernel⟩,
    ⟨0x10000041, 0x1234, [], (fun b : State => (tL2 b).modCore (fun c => { c with evict := [(0x10000041, 0x1234)] })) .reset, by decide +kernel⟩,
    ⟨(fun b : State => tL2 b) .reset, by decide +kernel⟩⟩

theorem witness_Maintenance :
    (∃ (r : Fin 5) (tg : Fin 4) (bw : Bool) (s : State),
    s.buf.flips = [] ∧ s.mntCheck r.val 1 tg.val bw = 0) ∧
    (∃ (r : Fin 5) (tg : Fin 4) (bw : Bool) (s : State),
    s.buf.flips = [] ∧ s.mntCheck r.val 2 tg.val bw = 0) ∧
    (∃ (r : Fin 5) (tg : Fin 4) (bw : Bool) (s : State),
    s.buf.flips = [] ∧ s.mntCheck r.val 3 tg.val bw = 0) ∧
    (∃ (r : Fin 5) (tg : Fin 4) (bw : Bool) (s : State),
    s.get (Reg.CCH_MNT_LEN_COUNT r.val) = 0 ∧ s.get Reg.CCH_CFG_STATUS_ERR = 0) ∧
    (∃ (r : Fin 5) (tg : Fin 4) (bw : Bool) (s : State),
    s.mntCheck r.val 2 tg.val bw ≠ 0 ∧ s.get Reg.CCH_CFG_STATUS_ERR = 0) ∧
    (∃ (r : Fin 5) (tg : Fin 4) (bw : Bool) (s : State),
    s.mntCheck r.val 3 tg.val bw ≠ 0 ∧ s.get Reg.CCH_CFG_STATUS_ERR = 0) ∧
    (∃ (r : Fin 5) (m : MntOp) (s : State),
    SMap.look s.core.mnt r.val = some m ∧ m.op = 2 ∧ m.target = 0 ∧ m.byWay = false ∧ s.core.evict = [] ∧ s.buf.flips = []) ∧
    (∃ (r : Fin 5) (m : MntOp) (s : State),
    SMap.look s.core.mnt r.val = some m ∧ m.target = 1) ∧
    (∃ (r : Fin 5) (m : MntOp) (k : Nat) (l : L2Line) (s : State),
    SMap.look s.core.mnt r.val = some m ∧ ((m.op = 1 ∨ m.op = 3)) ∧ m.target = 0 ∧ m.byWay = false ∧ s.core.evict = [] ∧ s.buf.flips = [] ∧ s.core.l2 = [(k, l)] ∧ l.dirty = true ∧ m.first + m.done ≤ l.line ∧ l.line < m.first + m.len ∧ s.hbmUp = true) ∧
    (∃ (r : Fin 5) (s : State),
    (SMap.look s.core.mnt r.val).all s.mntBlocked = true) ∧
    (∃ (s : State),
    s.get Reg.CCH_SWEEP_BUSY = 0) ∧
    (∃ (s : State),
    s.get Reg.CCH_SWEEP_BUSY = 1 ∧ s.get Reg.CCH_CFG_STATUS_ERR = 0) ∧
    (∃ (s : State),
    s.get Reg.CCH_SWEEP_BUSY = 1 ∧ s.buf.flips = []) ∧
    (∃ (k : Nat) (w : Fin 8) (l : L2Line) (s : State),
    s.get Reg.CCH_SWEEP_BUSY = 1 ∧ k < 131072 ∧ s.buf.flips = [(sramKey 25 (8 * k + w.val), 1)] ∧ s.l2At k = some l ∧ l.dirty = false ∧ s.clean (lineAddr l.line) 64 = true) ∧
    (∃ (s : State),
    s.get Reg.CCH_SWEEP_BUSY = 0) :=
  ⟨⟨1, 0, false, (fun b : State => tMnt b) .reset, by decide +kernel⟩,
    ⟨1, 0, false, (fun b : State => tMnt b) .reset, by decide +kernel⟩,
    ⟨1, 0, true, (fun b : State => (tMnt b).put (Reg.CCH_MNT_SETWAY_SET 1) 7) .reset, by decide +kernel⟩,
    ⟨1, 0, false, (fun b : State => ((tMnt b).put (Reg.CCH_MNT_LEN_COUNT 1) 0).put Reg.CCH_CFG_STATUS_ERR 0) .reset, by decide +kernel⟩,
    ⟨1, 2, false, (fun b : State => (tMnt b).put Reg.CCH_CFG_STATUS_ERR 0) .reset, by decide +kernel⟩,
    ⟨1, 0, false, (fun b : State => ((tMnt b).put (Reg.CCH_MNT_CTL_BUSY 1) 1).put Reg.CCH_CFG_STATUS_ERR 0) .reset, by decide +kernel⟩,
    ⟨1, ⟨2, 0, false, 0x10000000, 16, 0⟩, (fun b : State => (tMnt b).modCore (fun c => { c with mnt := [(1, ⟨2, 0, false, 0x10000000, 16, 0⟩)] })) .reset, by decide +kernel⟩,
    ⟨1, ⟨2, 1, false, 0x10000000, 16, 0⟩, (fun b : State => (tMnt b).modCore (fun c => { c with l1 := [(l1Key 1 true 0x10000003, ⟨5, 1⟩), (l1Key 2 true 0x10000003, ⟨5, 1⟩)], mnt := [(1, ⟨2, 1, false, 0x10000000, 16, 0⟩)] })) .reset, by decide +kernel⟩,
    ⟨1, ⟨3, 0, false, 0x10000000, 16, 0⟩, 16 + 5, ⟨0x10000001, true, 77⟩, (fun b : State => (tMnt b).modCore (fun c => { c with l2 := [(16 + 5, ⟨0x10000001, true, 77⟩)], mnt := [(1, ⟨3, 0, false, 0x10000000, 16, 0⟩)] })) .reset, by decide +kernel⟩,
    ⟨1, (fun b : State => (tMnt b).modCore (fun c => { c with evict := [(0x10000005, 1)], mnt := [(1, ⟨3, 0, false, 0x10000000, 16, 0⟩)] })) .reset, by decide +kernel⟩,
    ⟨(fun b : State => b.put Reg.CCH_SWEEP_BUSY 0) .reset, by decide +kernel⟩,
    ⟨(fun b : State => (b.put Reg.CCH_SWEEP_BUSY 1).put Reg.CCH_CFG_STATUS_ERR 0) .reset, by decide +kernel⟩,
    ⟨(fun b : State => (b.put Reg.CCH_SWEEP_BUSY 1).setBuf { b.buf with flips := [] }) .reset, by decide +kernel⟩,
    ⟨16 + 5, 3, ⟨0x10000001, false, 77⟩, (fun b : State => ((tMnt b).put Reg.CCH_SWEEP_BUSY 1).setBuf { b.buf with selfRef := false, flips := [(sramKey 25 (8 * 21 + 3), 1)] }) .reset, by decide +kernel⟩,
    ⟨(fun b : State => b.put Reg.CCH_SWEEP_BUSY 0) .reset, by decide +kernel⟩⟩

theorem witness_DmaChannels :
    (∃ (c : Fin 32) (a : Nat) (x : Nat) (s : State),
    s.get (Reg.DMA_CH_STATUS_STATE c.val) ≠ 1 ∧ s.get (Reg.DMA_CH_STATUS_STATE c.val) ≠ 2 ∧ s.domOn 91 = true ∧ a = 64 * s.get (Reg.DMA_CH_DESC_LO_ADDR c.val) + 2 ^ 32 * s.get (Reg.DMA_CH_DESC_HI_ADDR c.val) ∧ placeOf a = some (.buffer x) ∧ busOk false a 64 = true ∧ s.clean x 64 = true ∧ dCheck (s.loadMem x 64) = 0) ∧
    (∃ (c : Fin 32) (a : Nat) (x : Nat) (y : Nat) (s : State),
    s.get (Reg.DMA_CH_STATUS_STATE c.val) ≠ 1 ∧ s.get (Reg.DMA_CH_STATUS_STATE c.val) ≠ 2 ∧ s.domOn 91 = true ∧ a = 64 * s.get (Reg.DMA_CH_DESC_LO_ADDR c.val) + 2 ^ 32 * s.get (Reg.DMA_CH_DESC_HI_ADDR c.val) ∧ placeOf a = some (.buffer x) ∧ placeOf (a + 0x34) = some (.buffer y) ∧ busOk false a 64 = true ∧ busOk true (a + 0x34) 4 = true ∧ s.clean x 64 = true ∧ s.clean y 4 = true ∧ dCheck (s.loadMem x 64) ≠ 0) ∧
    (∃ (c : Fin 32) (s : State),
    s.get (Reg.DMA_CH_STATUS_STATE c.val) = 1) ∧
    (∃ (c : Fin 32) (s : State),
    s.get (Reg.DMA_CH_STATUS_STATE c.val) = 2 ∧ s.get Reg.DMA_CFG_STATUS_ERR = 0) ∧
    (∃ (c : Fin 32) (s : State),
    s.get (Reg.DMA_CH_STATUS_STATE c.val) ≠ 1 ∧ s.get (Reg.DMA_CH_STATUS_STATE c.val) ≠ 2 ∧ s.domOn 91 = false ∧ s.get Reg.DMA_CFG_STATUS_ERR = 0) ∧
    (∃ (c : Fin 32) (a : Nat) (d : Nat) (x : Nat) (y : Nat) (s : State),
    SMap.look s.core.dma c.val = some (a, d) ∧ s.clkOk 31 = true ∧ dFill d = true ∧ dCount d = 1 ∧ dLast d = true ∧ placeOf (dDst d) = some (.buffer x) ∧ placeOf (a + 0x34) = some (.buffer y) ∧ busOk true (a + 0x34) 4 = true ∧ s.hbmUp = true ∧ s.chk = [] ∧ s.get (Reg.DMA_CH_CTL_EN c.val) = 1 ∧ ((x + dLen d ≤ y ∨ y + 4 ≤ x))) ∧
    (∃ (c : Fin 32) (a : Nat) (d : Nat) (w : Nat) (x : Nat) (y : Nat) (s : State),
    SMap.look s.core.dma c.val = some (a, d) ∧ s.clkOk 31 = true ∧ dFill d = false ∧ dCount d = 1 ∧ dLast d = true ∧ placeOf (dSrc d) = some (.buffer w) ∧ placeOf (dDst d) = some (.buffer x) ∧ ((w + dLen d ≤ x ∨ x + dLen d ≤ w)) ∧ w + dLen d ≤ 2 ^ 34 ∧ x + dLen d ≤ 2 ^ 34 ∧ placeOf (a + 0x34) = some (.buffer y) ∧ busOk true (a + 0x34) 4 = true ∧ s.hbmUp = true ∧ s.chk = [] ∧ s.get (Reg.DMA_CH_CTL_EN c.val) = 1 ∧ ((x + dLen d ≤ y ∨ y + 4 ≤ x))) ∧
    (∃ (c : Fin 32) (s : State),
    ((SMap.look s.core.dma c.val = none ∨ s.clkOk 31 = false))) ∧
    (∃ (c : Fin 32) (a : Nat) (d : Nat) (k : Nat) (y : Nat) (s : State),
    SMap.look s.core.dma c.val = some (a, d) ∧ s.clkOk 31 = true ∧ (s.dmaTransfer d).1 = k ∧ k < dCount d ∧ (s.dmaTransfer d).2.get (Reg.DMA_CH_CTL_EN c.val) = 1 ∧ placeOf (a + 0x34) = some (.buffer y)) ∧
    (∃ (c : Fin 32) (s : State),
    ((SMap.look s.core.dma c.val = none ∨ s.clkOk 31 = false ∨ (SMap.look s.core.dma c.val).all (fun x => decide (dCount x.2 ≤ (s.dmaTransfer x.2).1)) = true))) ∧
    (∃ (c : Fin 32) (a : Nat) (d : Nat) (x : Nat) (s : State),
    SMap.look s.core.dma c.val = some (a, d) ∧ dFill d = true ∧ dCount d = 1 ∧ placeOf (dDst d) = some (.buffer x) ∧ x + dLen d ≤ 2 ^ 34 ∧ s.chk = [] ∧ s.get (Reg.DMA_CH_CTL_EN c.val) = 1) ∧
    (∃ (c : Fin 32) (s : State),
    SMap.look s.core.dma c.val = none) ∧
    (∃ (c : Fin 32) (s : State),
    s.get (Reg.DMA_CH_STATUS_STATE c.val) = 2) ∧
    (∃ (c : Fin 32) (s : State),
    s.get (Reg.DMA_CH_STATUS_STATE c.val) ≠ 2) :=
  ⟨⟨3, 0x400001000, 0x1000, (fun b : State => (tDma (tHb b))) .reset, by decide +kernel⟩,
    ⟨3, 0x400001000, 0x1000, 0x1034, (fun b : State => (tDma (tHb b)).storeMem 0x1000 (tDesc + 2 ^ 179) 64) .reset, by decide +kernel⟩,
    ⟨3, (fun b : State => b.put (Reg.DMA_CH_STATUS_STATE 3) 1) .reset, by decide +kernel⟩,
    ⟨3, (fun b : State => (b.put (Reg.DMA_CH_STATUS_STATE 3) 2).put Reg.DMA_CFG_STATUS_ERR 0) .reset, by decide +kernel⟩,
    ⟨3, (fun b : State => ((b.put (Reg.DMA_CH_STATUS_STATE 3) 4).put Reg.DMA_CFG_STATUS_ERR 0).setPwr { b.pwr with dom := [] }) .reset, by decide +kernel⟩,
    ⟨3, 0x400001000, tDesc + 2 ^ 177, 0x2010, 0x1034, (fun b : State => (((tDma (tHb b)).setChk []).put (Reg.DMA_CH_CTL_EN 3) 1).modCore (fun k => { k with dma := [(3, (0x400001000, tDesc + 2 ^ 177))] })) .reset, by decide +kernel⟩,
    ⟨3, 0x400001000, tDesc - 4 * 2 ^ 176 + 0x400003000, 0x3000, 0x2010, 0x1034, (fun b : State => ((((tDma (tHb b)).setChk []).storeMem 0x3000 0x112233445566778899 24).put (Reg.DMA_CH_CTL_EN 3) 1).modCore (fun k => { k with dma := [(3, (0x400001000, tDesc - 4 * 2 ^ 176 + 0x400003000))] })) .reset, by decide +kernel⟩,
    ⟨3, (fun b : State => b.modCore (fun k => { k with dma := [] })) .reset, by decide +kernel⟩,
    ⟨3, 0x400001000, tDesc - 4 * 2 ^ 176 + 0x400003000, 0, 0x1034, (fun b : State => (((tDma (tHb b)).setChk [(0x180, 0x01020304)]).put (Reg.DMA_CH_CTL_EN 3) 1).modCore (fun k => { k with dma := [(3, (0x400001000, tDesc - 4 * 2 ^ 176 + 0x400003000))] })) .reset, by decide +kernel⟩,
    ⟨3, (fun b : State => b.modCore (fun k => { k with dma := [] })) .reset, by decide +kernel⟩,
    ⟨3, 0x400001000, tDesc, 0x2010, (fun b : State => (((tDma (tHb b)).setChk []).put (Reg.DMA_CH_CTL_EN 3) 1).modCore (fun k => { k with dma := [(3, (0x400001000, tDesc))] })) .reset, by decide +kernel⟩,
    ⟨3, (fun b : State => b.modCore (fun k => { k with dma := [] })) .reset, by decide +kernel⟩,
    ⟨3, (fun b : State => b.put (Reg.DMA_CH_STATUS_STATE 3) 2) .reset, by decide +kernel⟩,
    ⟨3, (fun b : State => b.put (Reg.DMA_CH_STATUS_STATE 3) 1) .reset, by decide +kernel⟩⟩

theorem witness_PortRequests :
    (∃ (p : Fin 2) (off : Nat) (len : Nat) (d : Nat) (s : State),
    s.portMem p.val = true ∧ bar0Accepts off len = true) ∧
    (∃ (p : Fin 2) (i : Fin 64) (o : Nat) (len : Nat) (d : Nat) (s : State),
    s.portMem p.val = true ∧ 1 ≤ len ∧ o + len ≤ 32 ∧ s.get (Reg.HST_CTL_WIN_HOST_WR p.val) = 1) ∧
    (∃ (p : Fin 2) (w : Bool) (off : Nat) (len : Nat) (d : Nat) (s : State),
    s.portMem p.val = false) ∧
    (∃ (p : Fin 2) (w : Bool) (off : Nat) (len : Nat) (d : Nat) (s : State),
    s.portMem p.val = true ∧ bar0Accepts off len = false) ∧
    (∃ (p : Fin 2) (addr : Nat) (len : Nat) (d : Nat) (x : Nat) (s : State),
    s.portMem p.val = true ∧ s.winTo p.val 0 addr len false = some x ∧ s.clean x len = true) ∧
    (∃ (p : Fin 2) (addr : Nat) (len : Nat) (d : Nat) (x : Nat) (s : State),
    s.portMem p.val = true ∧ s.winTo p.val 0 addr len true = some x ∧ s.clean x len = true) ∧
    (∃ (p : Fin 2) (addr : Nat) (len : Nat) (d : Nat) (x : Nat) (n : Nat) (s : State),
    s.portMem p.val = true ∧ s.winTo p.val 0 addr len false = some x ∧ s.hbmUp = true ∧ burstsOf x len = [n] ∧ rsDecode (s.burstErr n) = .bad) ∧
    (∃ (p : Fin 2) (addr : Nat) (len : Nat) (d : Nat) (x : Nat) (n : Nat) (s : State),
    s.portMem p.val = true ∧ s.winTo p.val 0 addr len true = some x ∧ s.hbmUp = true ∧ burstsOf x len = [n] ∧ len < 32 ∧ rsDecode (s.burstErr n) = .bad) ∧
    (∃ (p : Fin 2) (w : Bool) (addr : Nat) (len : Nat) (d : Nat) (s : State),
    ((s.portMem p.val = false ∨ s.winTo p.val 0 addr len w = none))) ∧
    (∃ (q : Fin 3) (i : Fin 64) (s : State),
    q.val < 2 ∧ s.get (Reg.HST_CTL_WIN_HOST_WR q.val) = 1 ∧ winCheck (s.staged i.val) = none) ∧
    (∃ (i : Fin 64) (s : State),
    winCheck (s.staged i.val) = none) ∧
    (∃ (q : Fin 3) (i : Fin 64) (s : State),
    q.val < 2 ∧ s.get (Reg.HST_CTL_WIN_HOST_WR q.val) = 0 ∧ s.get Reg.HWIN_STATUS_ERR = 0) ∧
    (∃ (i : Fin 64) (c : Nat) (s : State),
    winCheck (s.staged i.val) = some c ∧ s.get Reg.HWIN_STATUS_ERR = 0) ∧
    (∃ (i : Fin 64) (l : WinLive) (s : State),
    SMap.look s.winLive i.val = some l) ∧
    (∃ (i : Fin 64) (s : State),
    SMap.look s.winLive i.val = none) ∧
    (∃ (p : Fin 2) (a : Nat) (n : Nat) (x : Nat) (r : AtsReq) (s : State),
    s.atsReq = [r] ∧ r.port = p.val ∧ a ≤ r.page ∧ r.page < a + n ∧ r.spoiled = false ∧ s.get (Reg.HST_LINK_ATS_EN p.val) = 1 ∧ 4096 ≤ n ∧ n ≤ 2 ^ 30) ∧
    (∃ (p : Fin 2) (a : Nat) (n : Nat) (x : Nat) (r : AtsReq) (s : State),
    s.atsReq = [r] ∧ r.port = p.val ∧ a ≤ r.page ∧ r.page < a + n ∧ r.spoiled = true) ∧
    (∃ (p : Fin 2) (a : Nat) (n : Nat) (x : Nat) (r : AtsReq) (s : State),
    s.atsReq = [r] ∧ r.port = p.val ∧ a ≤ r.page ∧ r.page < a + n ∧ r.spoiled = false) ∧
    (∃ (p : Fin 2) (a : Nat) (n : Nat) (x : Nat) (rd : Bool) (wr : Bool) (s : State),
    s.atsReq = []) ∧
    (∃ (p : Fin 2) (tag : Nat) (l : List (Nat × Nat)) (s : State),
    s.atsInv = (p.val, tag) :: l) ∧
    (∃ (p : Fin 2) (s : State),
    s.atsInv = []) :=
  ⟨⟨1, 0x100, 4, 9, (fun b : State => tPort b) .reset, by decide +kernel⟩,
    ⟨1, 5, 8, 8, 0x123456789, (fun b : State => (tPort b).put (Reg.HST_CTL_WIN_HOST_WR 1) 1) .reset, by decide +kernel⟩,
    ⟨1, true, 0x100, 4, 9, (fun b : State => (b.put (Reg.HST_LINK_MSE 1) 0).put (Reg.HST_UR_COUNT 1) 6) .reset, by decide +kernel⟩,
    ⟨1, true, 0x102, 4, 9, (fun b : State => tPort b) .reset, by decide +kernel⟩,
    ⟨1, 0x3004, 8, 0, 0x11004, (fun b : State => tWin b) .reset, by decide +kernel⟩,
    ⟨1, 0x3004, 8, 77, 0x11004, (fun b : State => tWin b) .reset, by decide +kernel⟩,
    ⟨1, 0x3004, 8, 0, 0x11004, 0x880, (fun b : State => (tWin b).setChk [(0x880, 0x01020304)]) .reset, by decide +kernel⟩,
    ⟨1, 0x3004, 8, 77, 0x11004, 0x880, (fun b : State => (tWin b).setChk [(0x880, 0x01020304)]) .reset, by decide +kernel⟩,
    ⟨1, true, 0x5004, 8, 77, (fun b : State => tWin b) .reset, by decide +kernel⟩,
    ⟨1, 3, (fun b : State => ((tWin b).put (Reg.HST_CTL_WIN_HOST_WR 1) 1).setWinStaged [(3, tWinRaw)]) .reset, by decide +kernel⟩,
    ⟨3, (fun b : State => (tWin b).setWinStaged [(3, tWinRaw)]) .reset, by decide +kernel⟩,
    ⟨1, 3, (fun b : State => ((tWin b).put (Reg.HST_CTL_WIN_HOST_WR 1) 0).put Reg.HWIN_STATUS_ERR 0) .reset, by decide +kernel⟩,
    ⟨3, 2, (fun b : State => ((tWin b).setWinStaged [(3, 5 * 2 ^ 32)]).put Reg.HWIN_STATUS_ERR 0) .reset, by decide +kernel⟩,
    ⟨2, ⟨tWinRaw, 4, true⟩, (fun b : State => tWin b) .reset, by decide +kernel⟩,
    ⟨2, (fun b : State => b.setWinLive []) .reset, by decide +kernel⟩,
    ⟨1, 0x10000, 0x2000, 0x900000, ⟨1, 0x11000, false⟩, (fun b : State => tAts b false) .reset, by decide +kernel⟩,
    ⟨1, 0x10000, 0x2000, 0x900000, ⟨1, 0x11000, true⟩, (fun b : State => tAts b true) .reset, by decide +kernel⟩,
    ⟨1, 0x10000, 0x2000, 0x900000, ⟨1, 0x11000, false⟩, (fun b : State => tAts b false) .reset, by decide +kernel⟩,
    ⟨1, 0x10000, 0x2000, 0x900000, true, true, (fun b : State => b.setAtsReq []) .reset, by decide +kernel⟩,
    ⟨1, 9, [(0, 3)], (fun b : State => { b with atsInv := [(1, 9), (0, 3)] }) .reset, by decide +kernel⟩,
    ⟨1, (fun b : State => { b with atsInv := [] }) .reset, by decide +kernel⟩⟩

theorem witness_PortStates :
    (∃ (p : Fin 2) (cfg : PortCfg) (s : State),
    s.cfgAnswers p.val = true) ∧
    (∃ (p : Fin 2) (cfg : PortCfg) (s : State),
    s.cfgAnswers p.val = false) ∧
    (∃ (p : Fin 2) (s : State),
    s.dev ≠ .off ∧ (s.port p.val).perst = false ∧ s.get (Reg.HST_LINK_DSTATE p.val) = 3 ∧ (s.port p.val).pmeEn = true) ∧
    (∃ (p : Fin 2) (s : State),
    s.dev ≠ .off ∧ (s.port p.val).perst = true ∧ s.pwr.por = true ∧ (s.port p.val).wakeN = false) ∧
    (∃ (p : Fin 2) (s : State),
    ((s.dev = .off ∨ (s.port p.val).perst = false ∧ (s.get (Reg.HST_LINK_DSTATE p.val) ≠ 3 ∨ (s.port p.val).pmeEn = false)))) ∧
    (∃ (p : Fin 2) (r : Bool) (s : State),
    s.get (Reg.HST_LINK_BME p.val) = 1) ∧
    (∃ (p : Fin 2) (r : Bool) (s : State),
    s.get (Reg.HST_LINK_BME p.val) = 0) ∧
    (∃ (p : Fin 2) (q : Nat) (k : Cmd) (s : State),
    s.get (Reg.HST_LINK_BME p.val) = 1 ∧ s.get (Reg.HSTS_BML p.val) = 1 ∧ s.get (Reg.HSTS_RESUME_WAIT p.val) = 0 ∧ SMap.look s.cmds q = some k ∧ k.port = p.val ∧ k.interrupted = true ∧ k.open = true) ∧
    (∃ (p : Fin 2) (s : State),
    ((s.get (Reg.HST_LINK_BME p.val) = 0 ∨ s.get (Reg.HSTS_BML p.val) = 0 ∨ s.get (Reg.HSTS_RESUME_WAIT p.val) = 1))) ∧
    (∃ (p : Fin 2) (r : Nat) (w : Nat) (f : Bool) (s : State),
    s.linkOk p.val r w f = true) ∧
    (∃ (p : Fin 2) (r : Nat) (w : Nat) (f : Bool) (s : State),
    s.linkOk p.val r w f = false) ∧
    (∃ (p : Fin 2) (l : Nat) (s : State),
    ((s.get (Reg.HST_LINK_UP p.val) = 0 ∨ 4 < l ∨ l = 1 ∧ s.get (Reg.HST_LINK_FLIT p.val) = 1))) ∧
    (∃ (p : Fin 2) (l : Nat) (s : State),
    s.get (Reg.HST_LINK_UP p.val) = 1 ∧ l ≤ 4 ∧ ((l = 1 → s.get (Reg.HST_LINK_FLIT p.val) = 0)) ∧ s.dev ≠ .doze) ∧
    (∃ (p : Fin 2) (s : State),
    s.get (Reg.HST_LINK_UP p.val) = 1 ∧ s.dev = .doze ∧ (s.port p.val).linkSaved = none ∧ (s.port p.val).speedDis = false ∧ (s.port p.val).widthDis = false) :=
  ⟨⟨1, ⟨true, true, true, false, true, true, false, true, false⟩, (fun b : State => ((((tAts b false).put (Reg.HST_LINK_DSTATE 1) 0).setPwr { b.pwr with step := 11 }).modPort 1 (fun x => { x with perst := false, flr := false }))) .reset, by decide +kernel⟩,
    ⟨1, ⟨true, true, true, false, true, true, false, true, false⟩, (fun b : State => b.modPort 1 (fun x => { x with flr := true })) .reset, by decide +kernel⟩,
    ⟨1, (fun b : State => (((b.setPwr { b.pwr with dev := .idle }).put (Reg.HST_LINK_DSTATE 1) 3).modPort 1 (fun x => { x with perst := false, pmeEn := true }))) .reset, by decide +kernel⟩,
    ⟨1, (fun b : State => b.setPwr { b.pwr with dev := .sleep, por := true }) .reset, by decide +kernel⟩,
    ⟨1, (fun b : State => b.setPwr { b.pwr with dev := .off }) .reset, by decide +kernel⟩,
    ⟨1, true, (fun b : State => (b.put (Reg.HST_LINK_BME 1) 1).setCmds [(3, tCmd 1 4 0x11 1), (4, tCmd 1 4 0x18 1)]) .reset, by decide +kernel⟩,
    ⟨1, true, (fun b : State => b.put (Reg.HST_LINK_BME 1) 0) .reset, by decide +kernel⟩,
    ⟨1, 3, { tCmd 1 4 0x11 1 with interrupted := true }, (fun b : State => (((b.put (Reg.HST_LINK_BME 1) 1).put (Reg.HSTS_BML 1) 1).put (Reg.HSTS_RESUME_WAIT 1) 0).setCmds [(3, { tCmd 1 4 0x11 1 with interrupted := true })]) .reset, by decide +kernel⟩,
    ⟨1, (fun b : State => b.put (Reg.HST_LINK_BME 1) 0) .reset, by decide +kernel⟩,
    ⟨1, 5, 2, true, (fun b : State => (((((b.put (Reg.HST_CTL_LINK_EN 1) 1).put (Reg.HST_CTL_MAX_RATE 1) 6).put (Reg.HST_CTL_MAX_WIDTH 1) 2).put (Reg.HST_CTL_FLIT_EN 1) 1).modPort 1 (fun x => { x with perst := false })).setPwr { b.pwr with dom := (List.range 96).map (fun d => (d, .on)) }) .reset, by decide +kernel⟩,
    ⟨1, 7, 2, true, (fun b : State => b) .reset, by decide +kernel⟩,
    ⟨1, 1, (fun b : State => (b.put (Reg.HST_LINK_UP 1) 1).put (Reg.HST_LINK_FLIT 1) 1) .reset, by decide +kernel⟩,
    ⟨1, 4, (fun b : State => b.put (Reg.HST_LINK_UP 1) 1) .reset, by decide +kernel⟩,
    ⟨1, (fun b : State => (((b.put (Reg.HST_LINK_UP 1) 1).put (Reg.HST_LINK_RATE 1) 4).put (Reg.HST_LINK_WIDTH 1) 2).setPwr { b.pwr with dev := .doze }) .reset, by decide +kernel⟩⟩

theorem witness_QueuePairs :
    (∃ (p : Fin 2) (v : Nat) (s : State),
    s.get (Reg.HCTL_EN p.val) = 0 ∧ v % 4096 = 0 ∧ v < 2 ^ 64) ∧
    (∃ (p : Fin 2) (v : Nat) (s : State),
    s.get (Reg.HCTL_EN p.val) = 0 ∧ 2 ≤ bits v 16 0 ∧ bits v 16 0 ≤ 4096 ∧ 2 ≤ bits v 48 32 ∧ bits v 48 32 ≤ 4096) ∧
    (∃ (p : Fin 2) (off : Nat) (len : Nat) (v : Nat) (s : State),
    (s.get (Reg.HCTL_EN p.val) = 1 ∨ len ≠ 8 ∨ off < 0x1000 ∨ (off < 0x1010 ∧ v % 4096 ≠ 0))) ∧
    (∃ (p : Fin 2) (s : State),
    s.get (Reg.HCTL_EN p.val) = 0 ∧ bits (s.port p.val).adepth 16 0 ≠ 0 ∧ bits (s.port p.val).adepth 48 32 ≠ 0) ∧
    (∃ (p : Fin 2) (s : State),
    s.get (Reg.HCTL_EN p.val) = 0 ∧ ((bits (s.port p.val).adepth 16 0 = 0 ∨ bits (s.port p.val).adepth 48 32 = 0))) ∧
    (∃ (p : Fin 2) (s : State),
    s.get (Reg.HCTL_EN p.val) = 1) ∧
    (∃ (p : Fin 2) (s : State),
    s.get (Reg.HCTL_EN p.val) = 0) ∧
    (∃ (p : Fin 2) (s : State),
    s.get (Reg.HCTL_EN p.val) = 1) ∧
    (∃ (p : Fin 2) (q : Fin 256) (v : Nat) (x : Pair) (s : State),
    s.get (Reg.HCTL_EN p.val) = 1 ∧ s.pair p.val q.val = some x ∧ v < 65536 ∧ v < x.sqDepth) ∧
    (∃ (p : Fin 2) (q : Fin 256) (v : Nat) (x : Pair) (s : State),
    s.get (Reg.HCTL_EN p.val) = 1 ∧ s.pair p.val q.val = some x ∧ v < 65536 ∧ v < x.cqDepth ∧ (v + x.cqDepth - x.cqHead) % x.cqDepth ≤ (x.cqTail + x.cqDepth - x.cqHead) % x.cqDepth) ∧
    (∃ (p : Fin 2) (q : Fin 256) (v : Nat) (x : Pair) (s : State),
    s.get (Reg.HCTL_EN p.val) = 1 ∧ s.pair p.val q.val = some x ∧ bits v 15 0 < x.sqDepth ∧ bits v 47 32 < x.cqDepth ∧ (bits v 47 32 + x.cqDepth - x.cqHead) % x.cqDepth ≤ (x.cqTail + x.cqDepth - x.cqHead) % x.cqDepth) ∧
    (∃ (p : Fin 2) (q : Fin 256) (v : Nat) (x : Pair) (s : State),
    s.get (Reg.HCTL_EN p.val) = 1 ∧ s.pair p.val q.val = some x ∧ v < 65536 ∧ x.sqDepth ≤ v) ∧
    (∃ (p : Fin 2) (off : Nat) (len : Nat) (v : Nat) (s : State),
    ((bar0Accepts off len = false ∨ off < 0x1000 ∨ 0x1800 ≤ off))) ∧
    (∃ (p : Fin 2) (q : Fin 256) (v : Nat) (s : State),
    s.get (Reg.HCTL_EN p.val) = 1 ∧ s.pair p.val q.val = none) ∧
    (∃ (p : Fin 2) (q : Nat) (x : Pair) (e : Nat) (l : Option (List (Nat × Nat))) (s : State),
    s.fetchReady p.val = true ∧ (s.lastPort ≠ p.val ∨ s.fetchReady (1 - p.val) = false) ∧ s.nextQueue p.val = some q ∧ s.pair p.val q = some x) ∧
    (∃ (p : Fin 2) (e : Nat) (l : Option (List (Nat × Nat))) (s : State),
    s.fetchReady p.val = false) ∧
    (∃ (q : Nat) (k : Cmd) (c : Cpl) (x : Pair) (s : State),
    SMap.look s.cmds q = some k ∧ k.commit = some c ∧ s.pair k.port k.qid = some x ∧ x.room = true ∧ s.portRuns k.port = true ∧ s.spt.failSrc = false ∧ s.abortWaits q k = false) ∧
    (∃ (q : Nat) (s : State),
    (((SMap.look s.cmds q).bind Cmd.commit = none ∨ (SMap.look s.cmds q).all (fun k => !s.portRuns k.port) = true))) ∧
    (∃ (q : Nat) (k : Cmd) (s : State),
    s.runnable q 0x01 false = some k ∧ 1 ≤ sqeAt k.sqe 8 2 ∧ sqeAt k.sqe 8 2 ≤ 255 ∧ sqeAt k.sqe 0x0A 2 ≤ 255 ∧ sqeAt k.sqe 0x38 4 ≠ 1 ∧ sqeAt k.sqe 0x3C 4 ≠ 1 ∧ sqeAt k.sqe 0x28 8 % 4096 = 0 ∧ sqeAt k.sqe 0x30 8 % 4096 = 0) ∧
    (∃ (q : Nat) (k : Cmd) (s : State),
    s.runnable q 0x01 false = some k ∧ (sqeAt k.sqe 8 2 = 0 ∨ 255 < sqeAt k.sqe 8 2 ∨ 255 < sqeAt k.sqe 0x0A 2 ∨ sqeAt k.sqe 0x28 8 % 4096 ≠ 0)) ∧
    (∃ (q : Nat) (k : Cmd) (s : State),
    s.runnable q 0x02 false = some k ∧ sqeAt k.sqe 8 2 ≠ 0) ∧
    (∃ (q : Nat) (k : Cmd) (q' : Nat) (k' : Cmd) (s : State),
    s.runnable q 0x03 false = some k ∧ sqeAt k.sqe 8 2 ≠ 0 ∧ (s.pair k.port (sqeAt k.sqe 8 2)).isSome = true ∧ SMap.look s.cmds q' = some k' ∧ s.cmds.find? (fun c => c.2.port == k.port && c.2.qid == sqeAt k.sqe 8 2 && c.2.cid == sqeAt k.sqe 0x0A 2) = some (q', k')) ∧
    (∃ (q : Nat) (k : Cmd) (s : State),
    s.runnable q 0x02 false = some k ∧ sqeAt k.sqe 8 2 = 0) ∧
    (∃ (q : Nat) (k : Cmd) (s : State),
    s.runnable q 0x03 false = some k ∧ ((sqeAt k.sqe 8 2 = 0 ∨ (s.pair k.port (sqeAt k.sqe 8 2)).isNone = true))) ∧
    (∃ (q : Nat) (k : Cmd) (s : State),
    s.runnable q 0x03 false = some k ∧ sqeAt k.sqe 8 2 ≠ 0 ∧ (s.pair k.port (sqeAt k.sqe 8 2)).isSome = true ∧ s.cmds.find? (fun c => c.2.port == k.port && c.2.qid == sqeAt k.sqe 8 2 && c.2.cid == sqeAt k.sqe 0x0A 2) = none) ∧
    (∃ (q : Nat) (k : Cmd) (e : Nat × Nat) (es : List (Nat × Nat)) (s : State),
    s.runnable q 0x04 false = some k ∧ k.begun = false ∧ s.waits k.port = 0 ∧ s.evOf k.port = e :: es) ∧
    (∃ (q : Nat) (k : Cmd) (s : State),
    s.runnable q 0x04 false = some k ∧ k.begun = false ∧ s.waits k.port < 8 ∧ s.evOf k.port = []) ∧
    (∃ (q : Nat) (k : Cmd) (s : State),
    s.runnable q 0x04 false = some k ∧ k.begun = false ∧ 8 ≤ s.waits k.port) :=
  ⟨⟨1, 0x123456000, (fun b : State => b.put (Reg.HCTL_EN 1) 0) .reset, by decide +kernel⟩,
    ⟨1, 0x1000000040, (fun b : State => b.put (Reg.HCTL_EN 1) 0) .reset, by decide +kernel⟩,
    ⟨1, 0x1000, 8, 0x123456000, (fun b : State => b.put (Reg.HCTL_EN 1) 1) .reset, by decide +kernel⟩,
    ⟨1, (fun b : State => (b.put (Reg.HCTL_EN 1) 0).modPort 1 (fun x => { x with asq := 0x3000, acq := 0x4000, adepth := 0x1000000040 })) .reset, by decide +kernel⟩,
    ⟨1, (fun b : State => (b.put (Reg.HCTL_EN 1) 0).modPort 1 (fun x => { x with adepth := 0 })) .reset, by decide +kernel⟩,
    ⟨1, (fun b : State => (b.put (Reg.HCTL_EN 1) 1)) .reset, by decide +kernel⟩,
    ⟨1, (fun b : State => (b.put (Reg.HCTL_EN 1) 0)) .reset, by decide +kernel⟩,
    ⟨1, (fun b : State => ((tAts b false).put (Reg.HCTL_EN 1) 1).setCmds [(3, tCmd 1 1 0x11 1), (4, tCmd 0 1 0x11 1)]) .reset, by decide +kernel⟩,
    ⟨1, 1, 7, ⟨0x3000, 0x4000, 8, 8, 3, true, 0, 2, 0, 0, true⟩, (fun b : State => (tAts b false).put (Reg.HCTL_EN 1) 1) .reset, by decide +kernel⟩,
    ⟨1, 1, 2, ⟨0x3000, 0x4000, 8, 8, 3, true, 0, 2, 0, 3, true⟩, (fun b : State => (b.put (Reg.HCTL_EN 1) 1).setPairs [(65537, ⟨0x3000, 0x4000, 8, 8, 3, true, 0, 2, 0, 3, true⟩)]) .reset, by decide +kernel⟩,
    ⟨1, 1, 5 + 2 * 2 ^ 32, ⟨0x3000, 0x4000, 8, 8, 3, true, 0, 2, 0, 3, true⟩, (fun b : State => (b.put (Reg.HCTL_EN 1) 1).setPairs [(65537, ⟨0x3000, 0x4000, 8, 8, 3, true, 0, 2, 0, 3, true⟩)]) .reset, by decide +kernel⟩,
    ⟨1, 1, 8, ⟨0x3000, 0x4000, 8, 8, 3, true, 0, 2, 0, 3, true⟩, (fun b : State => (b.put (Reg.HCTL_EN 1) 1).setPairs [(65537, ⟨0x3000, 0x4000, 8, 8, 3, true, 0, 2, 0, 3, true⟩)]) .reset, by decide +kernel⟩,
    ⟨1, 0x1002, 4, 8, (fun b : State => b) .reset, by decide +kernel⟩,
    ⟨1, 9, 2, (fun b : State => (b.put (Reg.HCTL_EN 1) 1).put Reg.IQI_BAD_DB_COUNT 6) .reset, by decide +kernel⟩,
    ⟨1, 1, ⟨0x3000, 0x4000, 8, 8, 3, true, 0, 2, 0, 0, true⟩, tSqe 0x18 0 9 1 0 0, none, (fun b : State => tRdy b) .reset, by decide +kernel⟩,
    ⟨1, 9, none, (fun b : State => b) .reset, by decide +kernel⟩,
    ⟨3, { tCmd 1 1 0x11 1 with commit := some ⟨0, noInfo, 0⟩ }, ⟨0, noInfo, 0⟩, ⟨0x3000, 0x4000, 8, 8, 3, true, 0, 2, 1, 7, true⟩, (fun b : State => (((tRdy b).setPairs [(65537, ⟨0x3000, 0x4000, 8, 8, 3, true, 0, 2, 1, 7, true⟩)]).setPairs [(65537, ⟨0x3000, 0x4000, 8, 8, 3, true, 0, 2, 1, 7, true⟩)]).setCmds [(3, { tCmd 1 1 0x11 1 with commit := some ⟨0, noInfo, 0⟩ })]) .reset, by decide +kernel⟩,
    ⟨3, (fun b : State => (tRdy b).setCmds [(3, tCmd 1 1 0x11 1)]) .reset, by decide +kernel⟩,
    ⟨3, tAdm 0x01 0x20005 (0x3000 * 2 ^ 320 + 0x4000 * 2 ^ 384 + 8 * 2 ^ 448 + 8 * 2 ^ 480 + 2 ^ 96), (fun b : State => (tRdy b).setCmds [(3, tAdm 0x01 0x20005 (0x3000 * 2 ^ 320 + 0x4000 * 2 ^ 384 + 8 * 2 ^ 448 + 8 * 2 ^ 480 + 2 ^ 96))]) .reset, by decide +kernel⟩,
    ⟨3, tAdm 0x01 0x20000 0, (fun b : State => (tRdy b).setCmds [(3, tAdm 0x01 0x20000 0)]) .reset, by decide +kernel⟩,
    ⟨3, tAdm 0x02 1 0, (fun b : State => (tRdy b).setCmds [(2, tCmd 1 1 0x11 1), (3, tAdm 0x02 1 0), (4, tCmd 0 1 0x11 1)]) .reset, by decide +kernel⟩,
    ⟨3, tAdm 0x03 (1 + 5 * 65536) 0, 2, tCmd 1 1 0x11 1, (fun b : State => (tRdy b).setCmds [(2, tCmd 1 1 0x11 1), (3, tAdm 0x03 (1 + 5 * 65536) 0), (4, tCmd 0 1 0x11 1)]) .reset, by decide +kernel⟩,
    ⟨3, tAdm 0x02 0 0, (fun b : State => (tRdy b).setCmds [(3, tAdm 0x02 0 0)]) .reset, by decide +kernel⟩,
    ⟨3, tAdm 0x03 0 0, (fun b : State => (tRdy b).setCmds [(3, tAdm 0x03 0 0)]) .reset, by decide +kernel⟩,
    ⟨3, tAdm 0x03 (1 + 6 * 65536) 0, (fun b : State => (tRdy b).setCmds [(2, tCmd 1 1 0x11 1), (3, tAdm 0x03 (1 + 6 * 65536) 0)]) .reset, by decide +kernel⟩,
    ⟨3, tAdm 0x04 0 0, (3, 8), [(1, 1)], (fun b : State => ((tRdy b).setCmds [(3, tAdm 0x04 0 0)]).setIqiEv [(1, [(3, 8), (1, 1)])]) .reset, by decide +kernel⟩,
    ⟨3, tAdm 0x04 0 0, (fun b : State => ((tRdy b).setCmds [(3, tAdm 0x04 0 0)]).setIqiEv []) .reset, by decide +kernel⟩,
    ⟨30, tAdm 0x04 0 0, (fun b : State => (tRdy b).setCmds ((List.range 8).map (fun i => (i, { tAdm 0x04 0 0 with begun := true })) ++ [(30, tAdm 0x04 0 0)])) .reset, by decide +kernel⟩⟩

theorem witness_IoCommands :
    (∃ (q : Nat) (k : Cmd) (vs : List Nat) (a : Nat) (l : Nat) (s : State),
    s.runnable q 0x10 true = some k ∧ s.readClear q k = true ∧ s.pwr.headsLoaded = true ∧ vs.length = sqeLen k.sqe ∧ k.segs = [(a, l)] ∧ 4112 * vs.length ≤ l ∧ sqeGuard k.sqe = false ∧ (List.range vs.length).all (fun i => s.fromMedia q (sqeNsid k.sqe) (sqeSlba k.sqe + i)) = true) ∧
    (∃ (q : Nat) (k : Cmd) (vs : List Nat) (c : Nat) (ms : List MediaRes) (s : State),
    s.runnable q 0x10 true = some k ∧ s.readClear q k = true ∧ s.pwr.headsLoaded = true ∧ vs.length + 1 + ms.length = sqeLen k.sqe ∧ sqeGuard k.sqe = false ∧ (List.range (vs.length + 1)).all (fun i => s.fromMedia q (sqeNsid k.sqe) (sqeSlba k.sqe + i)) = true) ∧
    (∃ (q : Nat) (k : Cmd) (ms : List MediaRes) (a : Nat) (l : Nat) (s : State),
    s.runnable q 0x10 true = some k ∧ s.readClear q k = true ∧ ms.length = sqeLen k.sqe ∧ k.segs = [(a, l)] ∧ 4112 * ms.length ≤ l ∧ sqeGuard k.sqe = false ∧ (List.range ms.length).all (fun i => s.blank q (sqeNsid k.sqe) (sqeSlba k.sqe + i)) = true) ∧
    (∃ (q : Nat) (k : Cmd) (m : MediaRes) (x : Nat) (a : Nat) (l : Nat) (s : State),
    s.runnable q 0x10 true = some k ∧ s.readClear q k = true ∧ sqeLen k.sqe = 1 ∧ k.segs = [(a, l)] ∧ 4112 ≤ l ∧ sqeGuard k.sqe = false ∧ s.buffered q (sqeNsid k.sqe) (sqeSlba k.sqe) = some x ∧ s.clean x 4112 = true) ∧
    (∃ (q : Nat) (k : Cmd) (ms : List MediaRes) (s : State),
    s.runnable q 0x10 true = some k ∧ s.readClear q k = false) ∧
    (∃ (q : Nat) (k : Cmd) (ms : List MediaRes) (s : State),
    s.runnable q 0x10 true = some k ∧ 1 ≤ sqeLen k.sqe ∧ s.pwr.headsLoaded = false ∧ s.fromMedia q (sqeNsid k.sqe) (sqeSlba k.sqe) = true) ∧
    (∃ (q : Nat) (k : Cmd) (ms : List MediaRes) (s : State),
    s.runnable q 0x12 true = some k ∧ 1 ≤ sqeLen k.sqe ∧ s.pwr.headsLoaded = false ∧ s.fromMedia q (sqeNsid k.sqe) (sqeSlba k.sqe) = true) ∧
    (∃ (q : Nat) (k : Cmd) (vs : List Nat) (s : State),
    s.runnable q 0x12 true = some k ∧ s.readClear q k = true ∧ s.pwr.headsLoaded = true ∧ vs.length = sqeLen k.sqe ∧ (List.range vs.length).all (fun i => s.fromMedia q (sqeNsid k.sqe) (sqeSlba k.sqe + i)) = true) ∧
    (∃ (q : Nat) (k : Cmd) (vs : List Nat) (c : Nat) (ms : List MediaRes) (s : State),
    s.runnable q 0x12 true = some k ∧ s.readClear q k = true ∧ s.pwr.headsLoaded = true ∧ vs.length + 1 + ms.length = sqeLen k.sqe ∧ (List.range (vs.length + 1)).all (fun i => s.fromMedia q (sqeNsid k.sqe) (sqeSlba k.sqe + i)) = true) ∧
    (∃ (q : Nat) (k : Cmd) (bs : List (Nat × Nat)) (s : State),
    s.runnable q 0x11 true = some k ∧ k.begun = false ∧ bs.length = sqeLen k.sqe ∧ s.placesGood (bs.map Prod.fst) = true ∧ (!sqeGuard k.sqe || bs.all (fun x => guardOk x.2)) = true ∧ (List.range bs.length).all (fun i => !s.unwritable (sqeNsid k.sqe) (sqeSlba k.sqe + i)) = true) ∧
    (∃ (q : Nat) (k : Cmd) (bs : List (Nat × Nat)) (i : Nat) (s : State),
    s.runnable q 0x11 true = some k ∧ k.begun = false ∧ i < sqeLen k.sqe ∧ bs.length = i ∧ s.placesGood (bs.map Prod.fst) = true ∧ (!sqeGuard k.sqe || bs.all (fun x => guardOk x.2)) = true ∧ (List.range bs.length).all (fun i => !s.unwritable (sqeNsid k.sqe) (sqeSlba k.sqe + i)) = true) ∧
    (∃ (q : Nat) (k : Cmd) (bs : List (Nat × Nat)) (cs : List (Nat × Nat)) (s : State),
    s.runnable q 0x11 true = some k ∧ k.begun = false ∧ cs ≠ [] ∧ (bs ++ cs).length = sqeLen k.sqe ∧ s.placesGood ((bs ++ cs).map Prod.fst) = true ∧ (!sqeGuard k.sqe || (bs ++ cs).all (fun x => guardOk x.2)) = true ∧ (List.range bs.length).all (fun i => !s.unwritable (sqeNsid k.sqe) (sqeSlba k.sqe + i)) = true ∧ s.unwritable (sqeNsid k.sqe) (sqeSlba k.sqe + bs.length) = true) ∧
    (∃ (q : Nat) (k : Cmd) (s : State),
    s.runnable q 0x11 true = some k ∧ k.begun = true ∧ s.cache.all (fun e => e.2.seq != q || (e.2.mode != 3 && e.2.err == none)) = true) ∧
    (∃ (q : Nat) (k : Cmd) (l : Nat) (c : Nat) (s : State),
    s.runnable q 0x11 true = some k ∧ k.begun = true ∧ (s.cache.filter (fun e => e.2.seq == q)).any (fun e => e.2.awaits) = false ∧ firstErr (s.cache.filter (fun e => e.2.seq == q)) = some (l, c)) ∧
    (∃ (q : Nat) (k : Cmd) (s : State),
    s.runnable q 0x11 true = some k ∧ s.cache.any (fun e => e.2.seq == q && e.2.awaits) = true) ∧
    (∃ (q : Nat) (k : Cmd) (s : State),
    s.runnable q 0x18 true = some k) ∧
    (∃ (q : Nat) (k : Cmd) (s : State),
    s.runnable q 0x18 true = some k ∧ k.begun = true ∧ k.flushSet.all (fun a => (SMap.look s.cache a).isNone) = true) ∧
    (∃ (q : Nat) (k : Cmd) (a : Nat) (e : CacheBlk) (s : State),
    s.runnable q 0x18 true = some k ∧ a ∈ k.flushSet ∧ SMap.look s.cache a = some e ∧ e.seq < q) ∧
    (∃ (q : Nat) (k : Cmd) (x : Span) (s : State),
    s.runnable q 0x20 true = some k ∧ sqeSpan k.sqe = some x ∧ s.zoneReady q x = true ∧ s.cmds.all (fun e => !e.2.waiting) = true) ∧
    (∃ (q : Nat) (k : Cmd) (x : Span) (s : State),
    s.runnable q 0x21 true = some k ∧ sqeSpan k.sqe = some x ∧ s.zoneReady q x = true ∧ s.cmds.all (fun e => !e.2.waiting) = true) ∧
    (∃ (q : Nat) (k : Cmd) (a : Nat) (l : Nat) (m : Nat) (s : State),
    s.runnable q 0x22 true = some k ∧ k.segs = [(a, l)] ∧ m = min (sqeLen k.sqe) (s.nsCap (sqeNsid k.sqe) / zoneBlocks - sqeSlba k.sqe / zoneBlocks) ∧ 1 ≤ m ∧ 32 * m ≤ l) :=
  ⟨⟨30, tCmd 1 1 0x10 1, [5], 0x9000, 4112, (fun b : State => tIo b 0x10 false) .reset, by decide +kernel⟩,
    ⟨30, tCmd 1 1 0x10 1, [], 0x14, [], (fun b : State => tIo b 0x10 false) .reset, by decide +kernel⟩,
    ⟨30, tCmd 1 1 0x10 1, [.bad 9], 0x9000, 4112, (fun b : State => (tIo b 0x10 false).setMedia { b.media with written := [] }) .reset, by decide +kernel⟩,
    ⟨30, tCmd 1 1 0x10 1, .bad 9, 0x40, 0x9000, 4112, (fun b : State => tIo b 0x10 true) .reset, by decide +kernel⟩,
    ⟨30, tCmd 1 1 0x10 1, [.good 9], (fun b : State => (tIo b 0x10 true).setCmds [(20, tCmd 1 1 0x11 1), (30, tCmd 1 1 0x10 1)]) .reset, by decide +kernel⟩,
    ⟨30, tCmd 1 1 0x10 1, [.good 5], (fun b : State => (tIo b 0x10 false).setPwr { (tIo b 0x10 false).pwr with headsLoaded := false }) .reset, by decide +kernel⟩,
    ⟨30, tCmd 1 1 0x12 1, [.good 5], (fun b : State => (tIo b 0x12 false).setPwr { (tIo b 0x12 false).pwr with headsLoaded := false }) .reset, by decide +kernel⟩,
    ⟨30, tCmd 1 1 0x12 1, [5], (fun b : State => tIo b 0x12 false) .reset, by decide +kernel⟩,
    ⟨30, tCmd 1 1 0x12 1, [], 0x14, [], (fun b : State => tIo b 0x12 false) .reset, by decide +kernel⟩,
    ⟨30, tCmd 1 1 0x11 1, [(0x2020, 77)], (fun b : State => tIo b 0x11 true) .reset, by decide +kernel⟩,
    ⟨30, tCmd 1 1 0x11 1, [], 0, (fun b : State => tIo b 0x11 true) .reset, by decide +kernel⟩,
    ⟨30, tCmd 1 1 0x11 1, [], [(0x2020, 77)], (fun b : State => (tIo b 0x11 true).setMedia { (tIo b 0x11 true).media with noSpare := [lbaKey 1 0x20000] }) .reset, by decide +kernel⟩,
    ⟨30, { tCmd 1 1 0x11 1 with begun := true }, (fun b : State => ((tIo b 0x11 true).setCmds [(30, { tCmd 1 1 0x11 1 with begun := true })]).setCache [(0x40, ⟨1, 0x20000, 30, 1, none, false, none⟩)]) .reset, by decide +kernel⟩,
    ⟨30, { tCmd 1 1 0x11 1 with begun := true }, 0x20000, 0x14, (fun b : State => ((tIo b 0x11 true).setCmds [(30, { tCmd 1 1 0x11 1 with begun := true })]).setCache [(0x40, ⟨1, 0x20000, 30, 3, none, false, some 0x14⟩)]) .reset, by decide +kernel⟩,
    ⟨30, { tCmd 1 1 0x11 1 with begun := true }, (fun b : State => ((tIo b 0x11 true).setCmds [(30, { tCmd 1 1 0x11 1 with begun := true })]).setCache [(0x40, ⟨1, 0x20000, 30, 3, none, false, none⟩)]) .reset, by decide +kernel⟩,
    ⟨30, { tCmd 1 1 0x18 1 with flushSet := [0x40] }, (fun b : State => (tIo b 0x18 true).setCmds [(30, { tCmd 1 1 0x18 1 with flushSet := [0x40] })]) .reset, by decide +kernel⟩,
    ⟨30, { tCmd 1 1 0x18 1 with flushSet := [0x40], begun := true }, (fun b : State => ((tIo b 0x18 true).setCmds [(30, { tCmd 1 1 0x18 1 with flushSet := [0x40], begun := true })]).setCache []) .reset, by decide +kernel⟩,
    ⟨30, { tCmd 1 1 0x18 1 with flushSet := [0x40], begun := true }, 0x40, ⟨1, 0x20000, 9, 1, none, true, none⟩, (fun b : State => ((tIo b 0x18 true).setCmds [(30, { tCmd 1 1 0x18 1 with flushSet := [0x40], begun := true })]).setCache [(0x40, ⟨1, 0x20000, 9, 1, none, true, none⟩)]) .reset, by decide +kernel⟩,
    ⟨30, tCmd 1 1 0x20 1, ⟨1, 0x20000, 65536, true⟩, (fun b : State => tIo b 0x20 true) .reset, by decide +kernel⟩,
    ⟨30, tCmd 1 1 0x21 1, ⟨1, 0x20000, 65536, true⟩, (fun b : State => tIo b 0x21 true) .reset, by decide +kernel⟩,
    ⟨30, tCmd 1 1 0x22 1, 0x9000, 4112, 1, (fun b : State => (tIo b 0x22 true).put (Reg.IQI_NS_CAP_LO_CAP 1) 0x50000) .reset, by decide +kernel⟩⟩

theorem witness_BootConfirm :
    (∃ (v : Word) (s : State),
    bits v.toNat 31 16 = 0x5A5A ∧ hasBit v.toNat 15 = true ∧ s.adm.boot.trial = true ∧ s.adm.trialOver = false) ∧
    (∃ (v : Word) (s : State),
    bits v.toNat 31 16 = 0x5A5A ∧ hasBit v.toNat 15 = true ∧ (s.adm.boot.trial = false ∨ s.adm.trialOver = true) ∧ s.get Reg.SEC_CFG_STATUS_ERR = 0) ∧
    (∃ (v : Word) (s : State),
    bits v.toNat 31 16 = 0x5A5A ∧ hasBit v.toNat 15 = true ∧ (s.adm.boot.trial = false ∨ s.adm.trialOver = true) ∧ s.get Reg.SEC_CFG_STATUS_ERR = 1) ∧
    (∃ (v : Word) (s : State),
    (bits v.toNat 31 16 ≠ 0x5A5A ∨ hasBit v.toNat 15 = false)) :=
  ⟨⟨0x5A5A8000, (fun b : State => b.modBoot (fun x => { x with trial := true, fallbackUsed := true })) .reset, by decide +kernel⟩,
    ⟨0x5A5A8000, (fun b : State => (b.modBoot (fun x => { x with trial := false, fallbackUsed := true })).put Reg.SEC_CFG_STATUS_ERR 0) .reset, by decide +kernel⟩,
    ⟨0x5A5A8000, (fun b : State => (b.modBoot (fun x => { x with trial := false, fallbackUsed := true })).put Reg.SEC_CFG_STATUS_ERR 1) .reset, by decide +kernel⟩,
    ⟨0x5A598000, (fun b : State => b.modBoot (fun x => { x with trial := true, fallbackUsed := true })) .reset, by decide +kernel⟩⟩

def W.Administration_19 (b : State) : State := (tCommit b).modAdm (fun x => { x with staging := [(0, tHdr)], received := some 4, active := none })

theorem witness_Administration :
    (∃ (q : Nat) (k : Cmd) (a : Nat) (l : Nat) (s : State),
    s.runnable q 0x06 false = some k ∧ sqeAt k.sqe 0x28 1 = 0 ∧ k.segs = [(a, l)] ∧ 4096 ≤ l) ∧
    (∃ (q : Nat) (k : Cmd) (a : Nat) (l : Nat) (s : State),
    s.runnable q 0x06 false = some k ∧ sqeAt k.sqe 0x28 1 = 1 ∧ k.segs = [(a, l)] ∧ 4096 ≤ l) ∧
    (∃ (q : Nat) (k : Cmd) (a : Nat) (l : Nat) (s : State),
    s.runnable q 0x08 false = some k ∧ sqeAt k.sqe 0x28 1 = 0x02 ∧ logCheck k.sqe (some k.snap.1) = 0 ∧ k.segs = [(a, l)] ∧ 1 ≤ logLen k.sqe ∧ logLen k.sqe ≤ l) ∧
    (∃ (q : Nat) (k : Cmd) (a : Nat) (l : Nat) (s : State),
    s.runnable q 0x08 false = some k ∧ sqeAt k.sqe 0x28 1 = 0x03 ∧ logCheck k.sqe (some k.snap.1) = 0 ∧ k.segs = [(a, l)] ∧ 1 ≤ logLen k.sqe ∧ logLen k.sqe ≤ l) ∧
    (∃ (q : Nat) (k : Cmd) (s : State),
    s.runnable q 0x08 false = some k ∧ sqeAt k.sqe 0x28 1 = 0x02 ∧ logCheck k.sqe (some k.snap.1) = 2) ∧
    (∃ (q : Nat) (k : Cmd) (a : Nat) (l : Nat) (s : State),
    s.runnable q 0x08 false = some k ∧ sqeAt k.sqe 0x28 1 = 0x0C ∧ logCheck k.sqe (some k.snap.1) = 0 ∧ k.segs = [(a, l)] ∧ 1 ≤ logLen k.sqe ∧ logLen k.sqe ≤ l) ∧
    (∃ (q : Nat) (k : Cmd) (a : Nat) (l : Nat) (s : State),
    s.runnable q 0x08 false = some k ∧ sqeAt k.sqe 0x28 1 = 0x0E ∧ logCheck k.sqe (some k.snap.1) = 0 ∧ k.segs = [(a, l)] ∧ 1 ≤ logLen k.sqe ∧ logLen k.sqe ≤ l) ∧
    (∃ (q : Nat) (k : Cmd) (s : State),
    s.runnable q 0x09 false = some k ∧ featOk (sqeAt k.sqe 0x28 1) (sqeAt k.sqe 0x2C 4) = true) ∧
    (∃ (q : Nat) (k : Cmd) (s : State),
    s.runnable q 0x09 false = some k ∧ featOk (sqeAt k.sqe 0x28 1) (sqeAt k.sqe 0x2C 4) = false) ∧
    (∃ (q : Nat) (k : Cmd) (s : State),
    s.runnable q 0x0A false = some k) ∧
    (∃ (q : Nat) (k : Cmd) (us : List Nat) (s : State),
    s.runnable q 0x0C false = some k ∧ sqeAt k.sqe 0x28 4 = 0 ∧ us.length = sqeLen k.sqe) ∧
    (∃ (q : Nat) (k : Cmd) (us : List Nat) (s : State),
    s.runnable q 0x0C false = some k ∧ sqeAt k.sqe 0x28 4 ≠ 0 ∧ s.adm.received = some (sqeAt k.sqe 0x28 4) ∧ us.length = sqeLen k.sqe) ∧
    (∃ (q : Nat) (k : Cmd) (us : Option (List Nat)) (s : State),
    s.runnable q 0x0C false = some k ∧ sqeAt k.sqe 0x28 4 ≠ 0 ∧ s.adm.received ≠ some (sqeAt k.sqe 0x28 4)) ∧
    (∃ (q : Nat) (k : Cmd) (s : State),
    s.runnable q 0x0D false = some k ∧ sqeAt k.sqe 0x28 1 = 0) ∧
    (∃ (q : Nat) (k : Cmd) (g : PkgCheck) (s : State),
    s.runnable q 0x0D false = some k ∧ sqeAt k.sqe 0x28 1 = 1) ∧
    (∃ (q : Nat) (k : Cmd) (g : PkgCheck) (s : State),
    s.runnable q 0x0D false = some k ∧ sqeAt k.sqe 0x28 1 = 2) ∧
    (∃ (g : PkgCheck) (s : State),
    s.sec.ownerLock = true) ∧
    (∃ (g : PkgCheck) (s : State),
    s.commitGuard = 0 ∧ s.stagedComplete = false) ∧
    (∃ (g : PkgCheck) (p : FwPkg) (s : State),
    s.commitGuard = 0 ∧ s.stagedPkg = some p ∧ g.ecdsa = true ∧ g.mldsa = true ∧ compatible Config.stepping (mergedDescs p s.adm.active) = true ∧ (composite p s.adm.active).fits = true) ∧
    (∃ (s : State),
    s.adm.boot.trial = true ∧ s.ready = true ∧ s.adm.trialOver = false) ∧
    (∃ (n : Nat) (s : State),
    s.feature 4 ≤ n ∧ s.adm.hot = false) ∧
    (∃ (n : Nat) (s : State),
    (n < s.feature 4 ∨ s.adm.hot = true)) ∧
    (∃ (n : Nat) (s : State),
    n + 5 ≤ s.feature 4) ∧
    (∃ (s : State),
    s.smbLive = true) ∧
    (∃ (s : State),
    s.smbLive = false) ∧
    (∃ (v : Word) (s : State),
    s.smbLive = true) ∧
    (∃ (v : Word) (s : State),
    s.smbLive = true) ∧
    (∃ (v : Word) (b : Bool) (s : State),
    s.smbLive = false) :=
  ⟨⟨3, tAdm 0x06 1 0, 0x9000, 8192, (fun b : State => (tRdy b).setCmds [(3, tAdm 0x06 1 0)]) .reset, by decide +kernel⟩,
    ⟨3, tAdm 0x06 1 (2 ^ 320 + 2 ^ 32), 0x9000, 8192, (fun b : State => (tRdy b).setCmds [(3, tAdm 0x06 1 (2 ^ 320 + 2 ^ 32))]) .reset, by decide +kernel⟩,
    ⟨3, { tAdm 0x08 64 (2 * 2 ^ 320) with snap := (64, 77) }, 0x9000, 8192, (fun b : State => (tRdy b).setCmds [(3, { tAdm 0x08 64 (2 * 2 ^ 320) with snap := (64, 77) })]) .reset, by decide +kernel⟩,
    ⟨3, { tAdm 0x08 256 (3 * 2 ^ 320) with snap := (256, 77) }, 0x9000, 8192, (fun b : State => (tRdy b).setCmds [(3, { tAdm 0x08 256 (3 * 2 ^ 320) with snap := (256, 77) })]) .reset, by decide +kernel⟩,
    ⟨3, { tAdm 0x08 64 (2 * 2 ^ 320 + 4096 * 2 ^ 384) with snap := (64, 77) }, (fun b : State => (tRdy b).setCmds [(3, { tAdm 0x08 64 (2 * 2 ^ 320 + 4096 * 2 ^ 384) with snap := (64, 77) })]) .reset, by decide +kernel⟩,
    ⟨3, { tAdm 0x08 48 ((12 + 256) * 2 ^ 320) with snap := (48, (⟨1, 0x20000, 0x14, 7⟩ : DefErr).encode * 256 ^ 16) }, 0x9000, 8192, (fun b : State => ((tRdy b).modSpt (fun p => { p with del := [⟨1, 0x20000, 0x14, 7⟩, ⟨1, 0x20009, 0x14, 7⟩], delLost := 3 })).setCmds [(3, { tAdm 0x08 48 ((12 + 256) * 2 ^ 320) with snap := (48, (⟨1, 0x20000, 0x14, 7⟩ : DefErr).encode * 256 ^ 16) })]) .reset, by decide +kernel⟩,
    ⟨3, { tAdm 0x08 128 ((14 + 256) * 2 ^ 320) with snap := (128, 7 + 9 * 2 ^ 64) }, 0x9000, 8192, (fun b : State => (tRdy b).setCmds [(3, { tAdm 0x08 128 ((14 + 256) * 2 ^ 320) with snap := (128, 7 + 9 * 2 ^ 64) })]) .reset, by decide +kernel⟩,
    ⟨3, tAdm 0x09 0 (4 * 2 ^ 320 + 2 ^ 328 + 90 * 2 ^ 352), (fun b : State => (tRdy b).setCmds [(3, tAdm 0x09 0 (4 * 2 ^ 320 + 2 ^ 328 + 90 * 2 ^ 352))]) .reset, by decide +kernel⟩,
    ⟨3, tAdm 0x09 0 (4 * 2 ^ 320 + 190 * 2 ^ 352), (fun b : State => (tRdy b).setCmds [(3, tAdm 0x09 0 (4 * 2 ^ 320 + 190 * 2 ^ 352))]) .reset, by decide +kernel⟩,
    ⟨3, tAdm 0x0A 0 (4 * 2 ^ 320), (fun b : State => (tRdy b).setCmds [(3, tAdm 0x0A 0 (4 * 2 ^ 320))]) .reset, by decide +kernel⟩,
    ⟨3, tAdm 0x0C 1 0, [5], (fun b : State => (tRdy b).setCmds [(3, tAdm 0x0C 1 0)]) .reset, by decide +kernel⟩,
    ⟨3, tAdm 0x0C 1 (2 * 2 ^ 320), [5], (fun b : State => ((tRdy b).modAdm (fun x => { x with received := some 2 })).setCmds [(3, tAdm 0x0C 1 (2 * 2 ^ 320))]) .reset, by decide +kernel⟩,
    ⟨3, tAdm 0x0C 1 (2 * 2 ^ 320), some [5], (fun b : State => ((tRdy b).modAdm (fun x => { x with received := some 3 })).setCmds [(3, tAdm 0x0C 1 (2 * 2 ^ 320))]) .reset, by decide +kernel⟩,
    ⟨3, tAdm 0x0D 0 0, (fun b : State => ((tRdy b).modBoot (fun x => { x with pending := true })).setCmds [(3, tAdm 0x0D 0 0)]) .reset, by decide +kernel⟩,
    ⟨3, tAdm 0x0D 0 (2 ^ 320), ⟨true, true, true, true⟩, (fun b : State => ((tRdy b).modBoot (fun x => { x with pending := false })).setCmds [(3, tAdm 0x0D 0 (2 ^ 320))]) .reset, by decide +kernel⟩,
    ⟨3, tAdm 0x0D 0 (2 * 2 ^ 320), ⟨true, true, true, true⟩, (fun b : State => ((tRdy b).modBoot (fun x => { x with pending := false })).setCmds [(3, tAdm 0x0D 0 (2 * 2 ^ 320))]) .reset, by decide +kernel⟩,
    ⟨⟨true, true, true, true⟩, (fun b : State => b.modSec (fun x => { x with ownerLock := true })) .reset, by decide +kernel⟩,
    ⟨⟨true, true, true, true⟩, (fun b : State => tCommit b) .reset, by decide +kernel⟩,
    ⟨⟨true, true, true, true⟩, tPkg, W.Administration_19 .reset, ⟨by decide +kernel, by decide +kernel, rfl, rfl, by
    simp only [Config.stepping]
    generalize Config.step = x
    cases x <;> decide +kernel, by decide +kernel⟩⟩,
    ⟨(fun b : State => ((tRdy b).modBoot (fun x => { x with trial := true })).modAdm (fun x => { x with trialOver := false })) .reset, by decide +kernel⟩,
    ⟨95, (fun b : State => b.modAdm (fun x => { x with hot := false })) .reset, by decide +kernel⟩,
    ⟨94, (fun b : State => b.modAdm (fun x => { x with hot := false })) .reset, by decide +kernel⟩,
    ⟨90, (fun b : State => b.modAdm (fun x => { x with hot := true })) .reset, by decide +kernel⟩,
    ⟨(fun b : State => ((tClk b).setPwr { (tClk b).pwr with vio := true, por := true })) .reset, by decide +kernel⟩,
    ⟨(fun b : State => ((tClk b).setPwr { (tClk b).pwr with vio := false, por := true })) .reset, by decide +kernel⟩,
    ⟨0x40F0000C#32, (fun b : State => ((tClk b).setPwr { (tClk b).pwr with vio := true, por := true })) .reset, by decide +kernel⟩,
    ⟨0x40F0000C#32, (fun b : State => ((tClk b).setPwr { (tClk b).pwr with vio := true, por := true })) .reset, by decide +kernel⟩,
    ⟨0x40F0000C#32, true, (fun b : State => ((tClk b).setPwr { (tClk b).pwr with vio := false, por := true })) .reset, by decide +kernel⟩⟩

def W.SecurityServices_10 (b : State) : State := (tDbg b).setCmds [(3, tAdm 0x84 0 0)]

def W.SecurityServices_13 (b : State) : State := (tDbg b).modSec (fun x => { x with token := [(0, tTok)] })

theorem witness_SecurityServices :
    (∃ (q : Nat) (k : Cmd) (a : Nat) (l : Nat) (s : State),
    s.runnable q 0x80 false = some k ∧ sqeAt k.sqe 0x28 1 = 0 ∧ sqeLen k.sqe % 4 = 0 ∧ k.segs = [(a, l)] ∧ 1 ≤ sqeLen k.sqe ∧ sqeLen k.sqe ≤ l) ∧
    (∃ (q : Nat) (k : Cmd) (a : Nat) (l : Nat) (s : State),
    s.runnable q 0x80 false = some k ∧ sqeAt k.sqe 0x28 1 = 1 ∧ sqeLen k.sqe % 4 = 0 ∧ k.segs = [(a, l)] ∧ 1 ≤ sqeLen k.sqe ∧ sqeLen k.sqe ≤ l) ∧
    (∃ (q : Nat) (k : Cmd) (a : Nat) (l : Nat) (s : State),
    s.runnable q 0x80 false = some k ∧ sqeAt k.sqe 0x28 1 = 2 ∧ sqeLen k.sqe % 4 = 0 ∧ k.segs = [(a, l)] ∧ 1 ≤ sqeLen k.sqe ∧ sqeLen k.sqe ≤ l) ∧
    (∃ (q : Nat) (k : Cmd) (a : Nat) (l : Nat) (s : State),
    s.runnable q 0x80 false = some k ∧ sqeAt k.sqe 0x28 1 = 3 ∧ sqeLen k.sqe % 4 = 0 ∧ k.segs = [(a, l)] ∧ 1 ≤ sqeLen k.sqe ∧ sqeLen k.sqe ≤ l) ∧
    (∃ (q : Nat) (k : Cmd) (a : Nat) (l : Nat) (s : State),
    s.runnable q 0x80 false = some k ∧ sqeAt k.sqe 0x28 1 = 4 ∧ sqeLen k.sqe % 4 = 0 ∧ k.segs = [(a, l)] ∧ 1 ≤ sqeLen k.sqe ∧ sqeLen k.sqe ≤ l) ∧
    (∃ (q : Nat) (k : Cmd) (s : State),
    s.runnable q 0x80 false = some k ∧ sqeAt k.sqe 0x28 1 = 0 ∧ sqeLen k.sqe % 4 ≠ 0) ∧
    (∃ (q : Nat) (k : Cmd) (a : Nat) (l : Nat) (s : State),
    s.runnable q 0x81 false = some k ∧ s.get Reg.SEC_STATUS_RNG_FAIL = 0 ∧ k.segs = [(a, l)] ∧ 8192 ≤ l) ∧
    (∃ (q : Nat) (k : Cmd) (s : State),
    s.runnable q 0x81 false = some k ∧ s.get Reg.SEC_STATUS_RNG_FAIL = 1) ∧
    (∃ (q : Nat) (k : Cmd) (a : Nat) (l : Nat) (s : State),
    s.runnable q 0x85 false = some k ∧ s.get Reg.SEC_STATUS_RNG_FAIL = 0 ∧ k.segs = [(a, l)] ∧ 1 ≤ sqeLen k.sqe ∧ sqeLen k.sqe ≤ l) ∧
    (∃ (q : Nat) (k : Cmd) (x : Nat) (g : TokCheck) (s : State),
    s.runnable q 0x84 false = some k ∧ s.get Reg.DBG_STATUS_BUSY = 0 ∧ s.tokReason (x % 256 ^ 8192) g = 0) ∧
    (∃ (q : Nat) (k : Cmd) (x : Nat) (g : TokCheck) (s : State),
    s.runnable q 0x84 false = some k ∧ s.get Reg.DBG_STATUS_BUSY = 0 ∧ s.tokReason (x % 256 ^ 8192) g ≠ 0) ∧
    (∃ (v : Word) (s : State),
    s.get Reg.DBG_TOKEN_ADDR_WORD < 2048) ∧
    (∃ (g : TokCheck) (s : State),
    s.get Reg.DBG_STATUS_BUSY = 0 ∧ s.tokReason s.heldToken g = 0) ∧
    (∃ (g : TokCheck) (s : State),
    s.get Reg.DBG_STATUS_BUSY = 0 ∧ s.tokReason s.heldToken g ≠ 0) ∧
    (∃ (w : DbgWait) (s : State),
    s.sec.dbgWait = some w ∧ s.sec.ranges.all (fun e => !e.2.loaded) = true ∧ s.spt.window = [] ∧ w.scope < 8) ∧
    (∃ (w : DbgWait) (s : State),
    s.sec.dbgWait = some w ∧ (s.sec.ranges.any (fun e => e.2.loaded) = true ∨ s.spt.window ≠ [])) ∧
    (∃ (s : State),
    1048576 ≤ s.sec.drbg ∧ s.get Reg.SEC_STATUS_RNG_FAIL = 0) ∧
    (∃ (r : Fin 64) (x : Nat) (s : State),
    (s.range r.val).discard = some x) ∧
    (∃ (p : Fin 32) (h : Nat) (x : RSession) (s : State),
    SMap.look s.ring.sessions p.val = some x ∧ (2 ^ 31 ≤ x.tx ∨ 2 ^ 31 ≤ x.rx ∨ 23 ≤ h) ∧ p.val ∉ s.ring.agreeing) ∧
    (∃ (p : Fin 32) (x : RSession) (s : State),
    SMap.look s.ring.sessions p.val = some x ∧ x.newSeen = true) ∧
    (∃ (p : Fin 32) (h : Nat) (x : RSession) (s : State),
    SMap.look s.ring.sessions p.val = some x) ∧
    (∃ (s : State),
    s.get Reg.SEC_REQ_CTL_BUSY = 0) ∧
    (∃ (s : State),
    s.get Reg.SEC_REQ_CTL_BUSY = 1 ∧ s.get Reg.SEC_CFG_STATUS_ERR = 0) ∧
    (∃ (x : SecResult) (a : Nat) (y : Nat) (s : State),
    s.get Reg.SEC_REQ_CTL_BUSY = 1 ∧ s.sec.result = some x ∧ x.sc < 256 ∧ x.reason < 256 ∧ a = 64 * s.get Reg.SEC_REQ_LO_ADDR + 2 ^ 32 * s.get Reg.SEC_REQ_HI_ADDR + 64 ∧ placeOf a = some (.buffer y) ∧ busOk true a x.len = true ∧ s.hbmUp = true ∧ (burstsOf y x.len).all (fun n => s.burstErr n == 0) = true) :=
  ⟨⟨3, tAdm 0x80 32 0, 0x9000, 8192, (fun b : State => (tRdy b).setCmds [(3, tAdm 0x80 32 0)]) .reset, by decide +kernel⟩,
    ⟨3, tAdm 0x80 32 (2 ^ 320), 0x9000, 8192, (fun b : State => (tRdy b).setCmds [(3, tAdm 0x80 32 (2 ^ 320))]) .reset, by decide +kernel⟩,
    ⟨3, tAdm 0x80 32 (2 * 2 ^ 320), 0x9000, 8192, (fun b : State => (tRdy b).setCmds [(3, tAdm 0x80 32 (2 * 2 ^ 320))]) .reset, by decide +kernel⟩,
    ⟨3, tAdm 0x80 32 (3 * 2 ^ 320), 0x9000, 8192, (fun b : State => (tRdy b).setCmds [(3, tAdm 0x80 32 (3 * 2 ^ 320))]) .reset, by decide +kernel⟩,
    ⟨3, tAdm 0x80 32 (4 * 2 ^ 320), 0x9000, 8192, (fun b : State => (tRdy b).setCmds [(3, tAdm 0x80 32 (4 * 2 ^ 320))]) .reset, by decide +kernel⟩,
    ⟨3, tAdm 0x80 33 0, (fun b : State => (tRdy b).setCmds [(3, tAdm 0x80 33 0)]) .reset, by decide +kernel⟩,
    ⟨3, tAdm 0x81 0 (77 * 2 ^ 320), 0x9000, 8192, (fun b : State => ((tRdy b).put Reg.SEC_STATUS_RNG_FAIL 0).setCmds [(3, tAdm 0x81 0 (77 * 2 ^ 320))]) .reset, by decide +kernel⟩,
    ⟨3, tAdm 0x81 0 (77 * 2 ^ 320), (fun b : State => ((tRdy b).put Reg.SEC_STATUS_RNG_FAIL 1).setCmds [(3, tAdm 0x81 0 (77 * 2 ^ 320))]) .reset, by decide +kernel⟩,
    ⟨3, tAdm 0x85 32 0, 0x9000, 8192, (fun b : State => ((tRdy b).put Reg.SEC_STATUS_RNG_FAIL 0).setCmds [(3, tAdm 0x85 32 0)]) .reset, by decide +kernel⟩,
    ⟨3, tAdm 0x84 0 0, tTok, ⟨true, true, true⟩, W.SecurityServices_10 .reset, ⟨by decide +kernel, by decide +kernel, tok_ok _ _ (by decide +kernel) (by decide +kernel) rfl (Nat.mod_eq_of_lt (Nat.lt_of_lt_of_le tTok_lt (Nat.pow_le_pow_right (by decide) (by decide))))⟩⟩,
    ⟨3, tAdm 0x84 0 0, 5, ⟨true, true, true⟩, (fun b : State => (tDbg b).setCmds [(3, tAdm 0x84 0 0)]) .reset, by decide +kernel⟩,
    ⟨0x12345678, (fun b : State => b.put Reg.DBG_TOKEN_ADDR_WORD 7) .reset, by decide +kernel⟩,
    ⟨⟨true, true, true⟩, W.SecurityServices_13 .reset, ⟨by decide +kernel, tok_ok _ _ (by decide +kernel) (by decide +kernel) rfl (held_one _ _ rfl)⟩⟩,
    ⟨⟨true, true, false⟩, (fun b : State => (tDbg b).modSec (fun x => { x with token := [(0, 5)] })) .reset, by decide +kernel⟩,
    ⟨⟨5, some 3⟩, (fun b : State => (((tDbg b).modSec (fun x => { x with dbgWait := some ⟨5, some 3⟩, ranges := [] })).modSpt (fun p => { p with window := [] })).setCmds [(3, tAdm 0x84 0 0)]) .reset, by decide +kernel⟩,
    ⟨⟨5, some 3⟩, (fun b : State => (tDbg b).modSec (fun x => { x with dbgWait := some ⟨5, some 3⟩, ranges := [(0, { rangeInit with loaded := true })] })) .reset, by decide +kernel⟩,
    ⟨(fun b : State => (b.put Reg.SEC_STATUS_RNG_FAIL 0).modSec (fun x => { x with drbg := 1048576 })) .reset, by decide +kernel⟩,
    ⟨3, 7, (fun b : State => b.putRange 3 { rangeInit with zones := 2, loaded := true, rlock := true, wlock := true, discard := some 7 }) .reset, by decide +kernel⟩,
    ⟨2, 1, ⟨2147483648, 0, none, false, false⟩, (fun b : State => tRing b 1) .reset, by decide +kernel⟩,
    ⟨2, ⟨2147483648, 0, some 5, true, false⟩, (fun b : State => (tRing b 1).modRing (fun r => { r with sessions := [(2, ⟨2147483648, 0, some 5, true, false⟩)] })) .reset, by decide +kernel⟩,
    ⟨2, 24, ⟨2147483648, 0, none, false, false⟩, (fun b : State => tRing b 1) .reset, by decide +kernel⟩,
    ⟨(fun b : State => b.put Reg.SEC_REQ_CTL_BUSY 0) .reset, by decide +kernel⟩,
    ⟨(fun b : State => (b.put Reg.SEC_REQ_CTL_BUSY 1).put Reg.SEC_CFG_STATUS_ERR 0) .reset, by decide +kernel⟩,
    ⟨⟨2, 6, 5, 0x1234567890⟩, 0x400001040, 0x1040, (fun b : State => ((((tHbm b).put Reg.SEC_REQ_CTL_BUSY 1).put Reg.SEC_REQ_LO_ADDR 64).put Reg.SEC_REQ_HI_ADDR 4).modSec (fun k => { k with result := some ⟨2, 6, 5, 0x1234567890⟩ })) .reset, by decide +kernel⟩⟩

theorem witness_OwnerCommands :
    (∃ (q : Nat) (k : Cmd) (e : EnvRes) (s : State),
    s.runnable q 0x82 false = some k ∧ sqeAt k.sqe 0x28 1 = 1 ∧ s.envReason e = 0 ∧ s.sec.owned = false) ∧
    (∃ (q : Nat) (k : Cmd) (e : EnvRes) (s : State),
    s.runnable q 0x82 false = some k ∧ sqeAt k.sqe 0x28 1 = 1 ∧ s.envReason e = 0 ∧ s.sec.owned = true) ∧
    (∃ (q : Nat) (k : Cmd) (e : EnvRes) (s : State),
    s.runnable q 0x82 false = some k ∧ sqeAt k.sqe 0x28 1 = 1 ∧ s.envReason e ≠ 0 ∧ s.get Reg.SEC_STATUS_TRIES ≤ 8) ∧
    (∃ (q : Nat) (k : Cmd) (s : State),
    s.runnable q 0x82 false = some k ∧ sqeAt k.sqe 0x28 1 = 1) ∧
    (∃ (q : Nat) (k : Cmd) (e : EnvRes) (s : State),
    s.runnable q 0x82 false = some k ∧ sqeAt k.sqe 0x28 1 = 2 ∧ s.envReason e = 0 ∧ s.sec.owned = true) ∧
    (∃ (q : Nat) (k : Cmd) (e : EnvRes) (s : State),
    s.runnable q 0x82 false = some k ∧ sqeAt k.sqe 0x28 1 = 3 ∧ s.envReason e = 0 ∧ s.sec.owned = true) ∧
    (∃ (q : Nat) (k : Cmd) (e : EnvRes) (s : State),
    s.runnable q 0x82 false = some k ∧ sqeAt k.sqe 0x28 1 = 4 ∧ s.envReason e = 0 ∧ s.sec.owned = true) ∧
    (∃ (q : Nat) (k : Cmd) (e : EnvRes) (s : State),
    s.runnable q 0x82 false = some k ∧ sqeAt k.sqe 0x28 1 = 5 ∧ s.envReason e = 0 ∧ s.sec.owned = true ∧ s.quiet q (fun _ => true) = true) ∧
    (∃ (q : Nat) (k : Cmd) (e : EnvRes) (s : State),
    s.runnable q 0x82 false = some k ∧ sqeAt k.sqe 0x28 1 = 6 ∧ s.envReason e = 0 ∧ s.sec.owned = true ∧ s.svnFuse < sqeAt k.sqe 0x2C 4 ∧ sqeAt k.sqe 0x2C 4 ≤ 63 ∧ s.svnTooHigh (sqeAt k.sqe 0x2C 4) = false) ∧
    (∃ (q : Nat) (k : Cmd) (e : EnvRes) (s : State),
    s.runnable q 0x82 false = some k ∧ sqeAt k.sqe 0x28 1 = 6 ∧ s.envReason e = 0 ∧ s.sec.owned = true ∧ (63 < sqeAt k.sqe 0x2C 4 ∨ s.svnTooHigh (sqeAt k.sqe 0x2C 4) = true)) ∧
    (∃ (q : Nat) (k : Cmd) (e : EnvRes) (r : List Nat) (s : State),
    s.runnable q 0x82 false = some k ∧ sqeAt k.sqe 0x28 1 = 7 ∧ s.envReason e = 0 ∧ s.sec.owned = true ∧ 1 ≤ r.length ∧ r.length ≤ 32 ∧ sqeSegs k.sqe = 1) ∧
    (∃ (q : Nat) (k : Cmd) (e : EnvRes) (s : State),
    s.runnable q 0x83 false = some k ∧ sqeAt k.sqe 0x28 1 = 1 ∧ s.envReason e = 0 ∧ s.sec.owned = true ∧ s.quiet q (defineHits k.sqe) = true ∧ rngNo k.sqe ≠ 0 ∧ (s.range (rngNo k.sqe)).zones = 0 ∧ s.defineBad k.sqe = false) ∧
    (∃ (q : Nat) (k : Cmd) (e : EnvRes) (s : State),
    s.runnable q 0x83 false = some k ∧ sqeAt k.sqe 0x28 1 = 2 ∧ s.envReason e = 0 ∧ s.sec.owned = true ∧ s.quiet q (s.rangeHits k.sqe) = true ∧ rngNo k.sqe ≠ 0 ∧ (s.range (rngNo k.sqe)).zones ≠ 0) ∧
    (∃ (q : Nat) (k : Cmd) (e : EnvRes) (s : State),
    s.runnable q 0x83 false = some k ∧ sqeAt k.sqe 0x28 1 = 3 ∧ s.envReason e = 0 ∧ s.sec.owned = true ∧ s.rangeExists (rngNo k.sqe) = true) ∧
    (∃ (q : Nat) (k : Cmd) (e : EnvRes) (s : State),
    s.runnable q 0x83 false = some k ∧ sqeAt k.sqe 0x28 1 = 4 ∧ s.envReason e = 0 ∧ s.sec.owned = true ∧ s.rangeExists (rngNo k.sqe) = true ∧ (rngFlag k.sqe 0 || rngFlag k.sqe 1) = true) ∧
    (∃ (q : Nat) (k : Cmd) (e : EnvRes) (s : State),
    s.runnable q 0x83 false = some k ∧ sqeAt k.sqe 0x28 1 = 5 ∧ s.envReason e = 0 ∧ s.sec.owned = true ∧ s.quiet q (s.rangeHits k.sqe) = true ∧ rngNo k.sqe ≠ 0xFF ∧ s.rangeExists (rngNo k.sqe) = true) ∧
    (∃ (q : Nat) (k : Cmd) (e : EnvRes) (s : State),
    s.runnable q 0x83 false = some k ∧ sqeAt k.sqe 0x28 1 = 5 ∧ s.envReason e = 0 ∧ s.sec.owned = true ∧ s.quiet q (fun _ => true) = true ∧ rngNo k.sqe = 0xFF) ∧
    (∃ (q : Nat) (k : Cmd) (e : EnvRes) (s : State),
    s.runnable q 0x83 false = some k ∧ sqeAt k.sqe 0x28 1 = 3 ∧ s.envReason e = 0 ∧ s.sec.owned = true ∧ s.rangeExists (rngNo k.sqe) = false) :=
  ⟨⟨3, tAdm 0x82 0 (2 ^ 320), tEnv, (fun b : State => (tOwn b false).setCmds [(3, tAdm 0x82 0 (2 ^ 320))]) .reset, by decide +kernel⟩,
    ⟨3, tAdm 0x82 0 (2 ^ 320), tEnv, (fun b : State => (tOwn b true).setCmds [(3, tAdm 0x82 0 (2 ^ 320))]) .reset, by decide +kernel⟩,
    ⟨3, tAdm 0x82 0 (2 ^ 320), { tEnv with tagOk := false }, (fun b : State => (tOwn b false).setCmds [(3, tAdm 0x82 0 (2 ^ 320))]) .reset, by decide +kernel⟩,
    ⟨3, tAdm 0x82 0 (2 ^ 320), (fun b : State => (tOwn b false).setCmds [(3, tAdm 0x82 0 (2 ^ 320))]) .reset, by decide +kernel⟩,
    ⟨3, tAdm 0x82 0 (2 * 2 ^ 320), tEnv, (fun b : State => (tOwn b true).setCmds [(3, tAdm 0x82 0 (2 * 2 ^ 320))]) .reset, by decide +kernel⟩,
    ⟨3, tAdm 0x82 0 (3 * 2 ^ 320), tEnv, (fun b : State => (tOwn b true).setCmds [(3, tAdm 0x82 0 (3 * 2 ^ 320))]) .reset, by decide +kernel⟩,
    ⟨3, tAdm 0x82 0 (4 * 2 ^ 320), tEnv, (fun b : State => ((tOwn b true).modSec (fun x => { x with ownerLock := true })).setCmds [(3, tAdm 0x82 0 (4 * 2 ^ 320))]) .reset, by decide +kernel⟩,
    ⟨3, tAdm 0x82 0 (5 * 2 ^ 320), tEnv, (fun b : State => ((tOwn b true).setCmds [(3, tAdm 0x82 0 (5 * 2 ^ 320))]).setCache [(0x40, ⟨1, 0x20000, 2, 1, none, true, none⟩)]) .reset, by decide +kernel⟩,
    ⟨3, tAdm 0x82 0 (6 * 2 ^ 320 + 9 * 2 ^ 352), tEnv, (fun b : State => (((tOwn b true).modSec (fun x => { x with svn := some 4 })).modAdm (fun x => { x with recovery := some tPkg9, active := none, fallback := none })).setCmds [(3, tAdm 0x82 0 (6 * 2 ^ 320 + 9 * 2 ^ 352))]) .reset, by decide +kernel⟩,
    ⟨3, tAdm 0x82 0 (6 * 2 ^ 320 + 64 * 2 ^ 352), tEnv, (fun b : State => (tOwn b true).setCmds [(3, tAdm 0x82 0 (6 * 2 ^ 320 + 64 * 2 ^ 352))]) .reset, by decide +kernel⟩,
    ⟨3, tAdm 0x82 0 (7 * 2 ^ 320), tEnv, [5, 6], (fun b : State => (tOwn b true).setCmds [(3, tAdm 0x82 0 (7 * 2 ^ 320))]) .reset, by decide +kernel⟩,
    ⟨3, tRng 1 3, tEnv, (fun b : State => (tOwn b true).setCmds [(3, tRng 1 3)]) .reset, by decide +kernel⟩,
    ⟨3, tRng 2 5, tEnv, (fun b : State => ((tOwn b true).putRange 5 { rangeInit with nsid := 1, zones := 2, first := 0x20000, loaded := true }).setCmds [(3, tRng 2 5)]) .reset, by decide +kernel⟩,
    ⟨3, tRng 3 5, tEnv, (fun b : State => ((tOwn b true).putRange 5 { rangeInit with nsid := 1, zones := 2, first := 0x20000, loaded := true }).setCmds [(3, tRng 3 5)]) .reset, by decide +kernel⟩,
    ⟨3, tRng 4 5, tEnv, (fun b : State => ((tOwn b true).putRange 5 { rangeInit with nsid := 1, zones := 2, first := 0x20000, rlock := true, wlock := true }).setCmds [(3, tRng 4 5)]) .reset, by decide +kernel⟩,
    ⟨3, tRng 5 5, tEnv, (fun b : State => ((tOwn b true).putRange 5 { rangeInit with nsid := 1, zones := 2, first := 0x20000, loaded := true, gen := 7 }).setCmds [(3, tRng 5 5)]) .reset, by decide +kernel⟩,
    ⟨3, tRng 5 255, tEnv, (fun b : State => ((tOwn b true).setCmds [(3, tRng 5 255)]).setCache [(0x40, ⟨1, 0x20000, 2, 1, none, true, none⟩)]) .reset, by decide +kernel⟩,
    ⟨3, tRng 3 5, tEnv, (fun b : State => (tOwn b true).setCmds [(3, tRng 3 5)]) .reset, by decide +kernel⟩⟩

def W.RingLink_4 (b : State) : State := tRing b 1

def W.RingLink_5 (b : State) : State := tRing b 1

def W.RingLink_6 (b : State) : State := tRing b 1

def W.RingLink_18 (b : State) : State := (((tRing b 1).put Reg.RING_CTL_EN 1).put Reg.RING_STATUS_SWITCH 0).modRing (fun x => { x with spliceWait := true })

theorem witness_RingLink :
    (∃ (e : Bool) (tag : Fin 3) (x : Nat) (s : State),
    s.ringRuns (if e then 0 else 1) = true ∧ (s.rport (if e then 0 else 1)).up = true ∧ 2 ≤ flType x ∧ s.own ≠ some (flSrc x) ∧ s.own ≠ some (flDst x) ∧ flDst x ≠ 0xFF ∧ x < 256 ^ 256 ∧ (s.rport (if e then 1 else 0)).up = true ∧ (s.rport (if e then 1 else 0)).credits = 0) ∧
    (∃ (e : Bool) (tag : Fin 3) (x : Nat) (s : State),
    s.ringRuns (if e then 0 else 1) = true ∧ (s.rport (if e then 0 else 1)).up = true ∧ 2 ≤ flType x ∧ s.own ≠ some (flSrc x) ∧ s.own ≠ some (flDst x) ∧ flDst x ≠ 0xFF ∧ x < 256 ^ 256 ∧ (s.rport (if e then 1 else 0)).up = true ∧ s.ringRuns (if e then 1 else 0) = true ∧ 1 ≤ (s.rport (if e then 1 else 0)).credits ∧ (s.rport (if e then 1 else 0)).fwd = []) ∧
    (∃ (e : Bool) (tag : Fin 3) (x : Nat) (s : State),
    s.ringRuns (if e then 0 else 1) = true ∧ (s.rport (if e then 0 else 1)).up = true) ∧
    (∃ (e : Bool) (tag : Fin 3) (x : Nat) (s : State),
    s.ringRuns (if e then 0 else 1) = true ∧ (s.rport (if e then 0 else 1)).up = true ∧ 2 ≤ flType x ∧ s.own = some (flSrc x) ∧ x < 256 ^ 256) ∧
    (∃ (e : Bool) (tag : Fin 3) (x : Nat) (k : RSession) (y : RSession) (s : State),
    s.ringRuns (if e then 0 else 1) = true ∧ (s.rport (if e then 0 else 1)).up = true ∧ 2 ≤ flType x ∧ s.own = some (flDst x) ∧ flSrc x ≠ flDst x ∧ x < 256 ^ 256 ∧ flitForm x = true ∧ flEnc x = true ∧ SMap.look s.ring.sessions (flSrc x) = some k ∧ k.accept tag.val (flCtr x) = some y) ∧
    (∃ (e : Bool) (tag : Fin 3) (x : Nat) (s : State),
    s.ringRuns (if e then 0 else 1) = true ∧ (s.rport (if e then 0 else 1)).up = true ∧ 2 ≤ flType x ∧ s.own = some (flDst x) ∧ flSrc x ≠ flDst x ∧ x < 256 ^ 256 ∧ flitForm x = false) ∧
    (∃ (e : Bool) (tag : Fin 3) (x : Nat) (s : State),
    s.ringRuns (if e then 0 else 1) = true ∧ (s.rport (if e then 0 else 1)).up = true ∧ 2 ≤ flType x ∧ s.own ≠ some (flSrc x) ∧ s.own ≠ some (flDst x) ∧ flDst x ≠ 0xFF ∧ x < 256 ^ 256 ∧ (s.rport (if e then 1 else 0)).up = false) ∧
    (∃ (e : Bool) (fec : Fin 3) (tag : Fin 3) (x : Nat) (s : State),
    s.ringRuns (if e then 0 else 1) = false) ∧
    (∃ (n : Nat) (m : Fin 32) (i : Bool) (s : State),
    s.ringRuns 0 = true ∧ (s.rport 0).up = true ∧ (s.rport 0).fwd = [] ∧ (s.rport 0).loc = []) ∧
    (∃ (n : Nat) (m : Fin 32) (i : Bool) (s : State),
    s.ringRuns 1 = true ∧ (s.rport 1).up = true ∧ (s.rport 1).fwd = [] ∧ (s.rport 1).loc = []) ∧
    (∃ (e : Bool) (s : State),
    s.ringRuns (if e then 0 else 1) = true ∧ (s.rport (if e then 0 else 1)).up = true ∧ (s.rport (if e then 0 else 1)).freed ≠ 0) ∧
    (∃ (s : State),
    s.ringRuns 0 = true ∧ (s.rport 0).up = true ∧ 1 ≤ (s.rport 0).credits ∧ (s.rport 0).fwd = [] ∧ (s.rport 0).loc = []) ∧
    (∃ (s : State),
    s.get Reg.RING_STATUS_SWITCH = 1) ∧
    (∃ (e : Bool) (s : State),
    s.get Reg.RING_STATUS_SWITCH = 1 ∧ (s.rport (if e then 0 else 1)).up = true) ∧
    (∃ (e : Bool) (s : State),
    s.ring.splicing = false) ∧
    (∃ (e : Bool) (s : State),
    s.ring.splicing = true) ∧
    (∃ (e : Bool) (n : Nat) (s : State),
    s.get Reg.RING_STATUS_SWITCH = 1 ∧ (s.rport (if e then 0 else 1)).up = false ∧ s.segLanes (if e then 0 else 1) = true ∧ n ≤ spanLimit (s.get Reg.RING_STATUS_RATE) ∧ s.ring.splicing = false) ∧
    (∃ (e : Bool) (n : Nat) (s : State),
    s.get Reg.RING_STATUS_SWITCH = 1 ∧ (s.rport (if e then 0 else 1)).up = false ∧ (s.rport (if e then 1 else 0)).up = true ∧ s.segLanes (if e then 0 else 1) = true ∧ n ≤ spanLimit (s.get Reg.RING_STATUS_RATE) ∧ s.ring.splicing = true ∧ s.heardManager = none) ∧
    (∃ (e : Bool) (n : Nat) (s : State),
    s.segLanes (if e then 0 else 1) = false) ∧
    (∃ (e : Bool) (n : Nat) (s : State),
    spanLimit (s.get Reg.RING_STATUS_RATE) < n) ∧
    (∃ (s : State),
    s.ring.splicing = true) ∧
    (∃ (m : Nat) (s : State),
    s.ring.spliceWait = true ∧ s.get Reg.RING_CTL_EN = 1 ∧ s.ready = true ∧ s.own = some m ∧ s.get Reg.RING_STATUS_SWITCH = 0) ∧
    (∃ (s : State),
    s.get Reg.RING_CTL_EN = 1 ∧ s.get Reg.RING_CTL_MUTE_REQ < 2 ∧ s.get Reg.RING_CTL_MAX_RATE < 4 ∧ 1 ≤ s.get Reg.RING_CTL_RETRY_MAX ∧ s.get Reg.RING_CTL_RETRY_MAX < 16 ∧ 1 ≤ s.get Reg.RING_CTL_TMO ∧ s.get Reg.RING_CTL_TMO < 256 ∧ 1 ≤ s.get Reg.RING_CTL_BG_SHARE ∧ s.get Reg.RING_CTL_BG_SHARE < 16 ∧ s.get Reg.RING_STATUS_SWITCH = 1) ∧
    (∃ (s : State),
    s.ring.leaving = true) ∧
    (∃ (m : Fin 32) (s : State),
    s.get Reg.RING_STATUS_SWITCH = 1 ∧ s.get Reg.RING_STATUS_MANAGER = m.val ∧ (SMap.look s.ring.sessions m.val).isSome = true) ∧
    (∃ (m : Fin 32) (s : State),
    s.get Reg.RING_STATUS_MANAGER ≠ m.val) ∧
    (∃ (m : Fin 32) (c : Fin 4) (s : State),
    s.get Reg.RING_STATUS_SWITCH = 1 ∧ s.get Reg.RING_STATUS_MANAGER = m.val ∧ (SMap.look s.ring.sessions m.val).isSome = true) :=
  ⟨⟨true, 0, tFlit 0x10 0 3 2, (fun b : State => (tRing b 0).modSec (fun y => { y with roster := [] })) .reset, by decide +kernel⟩,
    ⟨true, 0, tFlit 0x10 0 3 2, (fun b : State => (tRing b 1).modSec (fun y => { y with roster := [] })) .reset, by decide +kernel⟩,
    ⟨true, 0, 5, (fun b : State => tRing b 1) .reset, by decide +kernel⟩,
    ⟨true, 0, tFlit 0x10 0 3 0, W.RingLink_4 .reset, ⟨by decide +kernel, by decide +kernel, by decide +kernel, own_zero _ [11, 12, 13] rfl, by decide +kernel⟩⟩,
    ⟨true, 1, tFlit 0x10 4 0 2, ⟨2147483648, 0, none, false, false⟩, ⟨2147483648, 1, none, true, false⟩, W.RingLink_5 .reset, ⟨by decide +kernel, by decide +kernel, by decide +kernel, own_zero _ [11, 12, 13] rfl, by decide +kernel⟩⟩,
    ⟨true, 1, tFlit 0x10 0 0 2, W.RingLink_6 .reset, ⟨by decide +kernel, by decide +kernel, by decide +kernel, own_zero _ [11, 12, 13] rfl, by decide +kernel⟩⟩,
    ⟨true, 0, tFlit 0x10 0 3 2, (fun b : State => ((tRing b 0).modSec (fun y => { y with roster := [] })).modRport 1 (fun x => { x with up := false })) .reset, by decide +kernel⟩,
    ⟨true, 0, 1, 77, (fun b : State => b.put Reg.RING_STATUS_SWITCH 0) .reset, by decide +kernel⟩,
    ⟨3, 5, true, (fun b : State => tRing b 1) .reset, by decide +kernel⟩,
    ⟨3, 5, false, (fun b : State => tRing b 1) .reset, by decide +kernel⟩,
    ⟨false, (fun b : State => (tRing b 1).modRport 1 (fun x => { x with freed := 16 })) .reset, by decide +kernel⟩,
    ⟨(fun b : State => ((tRing b 1).put Reg.RING_STATUS_OPEN_E 0).put Reg.RING_STATUS_OPEN_W 0) .reset, by decide +kernel⟩,
    ⟨(fun b : State => (tRing b 1).put Reg.RING_STATUS_ROLE 3) .reset, by decide +kernel⟩,
    ⟨true, (fun b : State => (tRing b 1).put Reg.RING_STATUS_OPEN_E 0) .reset, by decide +kernel⟩,
    ⟨true, (fun b : State => (tRing b 1).modRport 0 (fun x => { x with up := false, retraining := true })) .reset, by decide +kernel⟩,
    ⟨true, (fun b : State => (tRing b 1).modRing (fun x => { x with splicing := true })) .reset, by decide +kernel⟩,
    ⟨true, 2, (fun b : State => (((tRing b 1).setPwr { (tRing b 1).pwr with dom := (List.range 96).map (fun d => (d, .on)) }).modRport 0 (fun x => { x with up := false, retraining := true })).put Reg.RING_STATUS_OPEN_E 1) .reset, by decide +kernel⟩,
    ⟨true, 2, (fun b : State => ((((((tRing b 1).setPwr { (tRing b 1).pwr with dom := (List.range 96).map (fun d => (d, .on)) })).modRport 0 (fun x => { x with up := false, retraining := true })).modRing (fun x => { x with splicing := true, alive := [] })).put Reg.RING_STATUS_OPEN_E 1)) .reset, by decide +kernel⟩,
    ⟨true, 2, (fun b : State => ((tRing b 1).setPwr { (tRing b 1).pwr with dom := (List.range 96).map (fun d => (d, .off)) })) .reset, by decide +kernel⟩,
    ⟨true, 5, (fun b : State => (tRing b 1).modRport 0 (fun x => { x with up := false, retraining := true })) .reset, by decide +kernel⟩,
    ⟨(fun b : State => (tRing b 1).modRing (fun x => { x with splicing := true })) .reset, by decide +kernel⟩,
    ⟨0, W.RingLink_18 .reset, ⟨by decide +kernel, by decide +kernel, by decide +kernel, own_zero _ [11, 12, 13] rfl, by decide +kernel⟩⟩,
    ⟨(fun b : State => ((((((tRing b 1).put Reg.RING_CTL_EN 1).put Reg.RING_CTL_MUTE_REQ 1).put Reg.RING_CTL_MAX_RATE 2).put Reg.RING_CTL_RETRY_MAX 8).put Reg.RING_CTL_TMO 20).put Reg.RING_CTL_BG_SHARE 3) .reset, by decide +kernel⟩,
    ⟨(fun b : State => (tRing b 1).modRing (fun x => { x with leaving := true })) .reset, by decide +kernel⟩,
    ⟨2, (fun b : State => (tRing b 1).put Reg.RING_STATUS_MANAGER 2) .reset, by decide +kernel⟩,
    ⟨3, (fun b : State => (tRing b 1).put Reg.RING_STATUS_MANAGER 2) .reset, by decide +kernel⟩,
    ⟨2, 3, (fun b : State => (tRing b 1).put Reg.RING_STATUS_MANAGER 2) .reset, by decide +kernel⟩⟩

def W.RingMembers_6 (b : State) : State := (((tRing b 1).modSec (fun y => { y with roster := [Config.idkHash % 256 ^ 48] })).modRing (fun x => { x with map := none })).put Reg.RING_STATUS_ROLE 3

def W.RingMembers_10 (b : State) : State := tClaim b

def W.RingMembers_13 (b : State) : State := (tClaim b).modRing (fun x => { x with claiming := true })

def W.RingMembers_16 (b : State) : State := tRing b 1

theorem witness_RingMembers :
    (∃ (m : Fin 32) (hb : Heartbeat) (s : State),
    s.get Reg.RING_STATUS_SWITCH = 1 ∧ s.own ≠ some m.val) ∧
    (∃ (m : Fin 32) (s : State),
    s.get Reg.RING_STATUS_SWITCH = 1 ∧ s.own ≠ some m.val ∧ s.get Reg.RING_STATUS_ROLE = 3 ∧ s.throughMembers.contains m.val = true ∧ m.val ∉ s.ring.failed) ∧
    (∃ (m : Fin 32) (s : State),
    s.get Reg.RING_STATUS_SWITCH = 1 ∧ s.own ≠ some m.val ∧ s.get Reg.RING_STATUS_ROLE = 2 ∧ s.get Reg.RING_STATUS_MANAGER = m.val ∧ (s.modRing (fun x => { x with alive := SMap.del x.alive m.val })).quorum = true) ∧
    (∃ (m : Fin 32) (s : State),
    s.get Reg.RING_STATUS_ROLE = 3 ∧ s.get Reg.RING_STATUS_SWITCH = 1 ∧ s.throughMembers.contains m.val = true ∧ m.val ∉ s.ring.leaves) ∧
    (∃ (m : Fin 32) (s : State),
    s.get Reg.RING_STATUS_ROLE = 3 ∧ s.get Reg.RING_STATUS_SWITCH = 1 ∧ m.val ∉ s.ring.joins) ∧
    (∃ (o : List Nat) (s : State),
    s.get Reg.RING_STATUS_ROLE = 3 ∧ s.get Reg.RING_STATUS_SWITCH = 1 ∧ s.quorum = true ∧ s.orderOk o = true ∧ s.mapChanged o = true) ∧
    (∃ (o : List Nat) (s : State),
    (s.get Reg.RING_STATUS_ROLE ≠ 3 ∨ s.orderOk o = false)) ∧
    (∃ (m : Fin 32) (r : Nat) (s : State),
    s.get Reg.RING_STATUS_SWITCH = 1 ∧ r < 256 ^ 136 ∧ mapOk r = true ∧ mapManager r = m.val ∧ (SMap.look s.ring.sessions m.val).isSome = true ∧ s.epochHeld < mapEpoch r) ∧
    (∃ (m : Fin 32) (r : Nat) (s : State),
    r < 256 ^ 136 ∧ (mapOk r = false ∨ mapManager r ≠ m.val ∨ (s.ring.map.isSome = true ∧ mapEpoch r ≤ s.epochHeld))) ∧
    (∃ (m : Nat) (s : State),
    s.get Reg.RING_STATUS_SWITCH = 1 ∧ s.own = some m ∧ s.candidate = true ∧ s.heardManager = none ∧ s.get Reg.RING_STATUS_ROLE ≠ 2 ∧ s.get Reg.RING_STATUS_ROLE ≠ 3) ∧
    (∃ (m : Fin 32) (x : Nat) (s : State),
    s.ring.claiming = true ∧ s.epochHeld < x) ∧
    (∃ (m : Fin 32) (x : Nat) (s : State),
    x < s.epochHeld) ∧
    (∃ (s : State),
    s.ring.claiming = true ∧ s.quorum = true ∧ s.get Reg.RING_STATUS_SWITCH = 1) ∧
    (∃ (s : State),
    s.ring.claiming = false) ∧
    (∃ (s : State),
    s.get Reg.RING_STATUS_SWITCH = 1 ∧ s.quorum = false) ∧
    (∃ (p : Fin 32) (x : Nat) (m : Nat) (s : State),
    s.get Reg.RING_STATUS_SWITCH = 1 ∧ s.sec.roster[p.val]? = some x ∧ s.sec.dbgOpened = false ∧ s.own = some m ∧ m ≠ p.val ∧ s.get Reg.SEC_STATUS_RNG_FAIL = 0 ∧ s.ring.frames.all (fun e => e.2.dst != p.val || e.2.st != 2) = true) ∧
    (∃ (e : Bool) (m : Fin 32) (n : Nat) (wa : Nat) (l : Nat) (d : Nat) (a : Nat) (s : State),
    s.ringRuns (if e then 0 else 1) = true ∧ s.frameCheck (if e then 0 else 1) m.val wa l false true = 0 ∧ s.winTo 2 m.val wa l true = some a ∧ s.hbmUp = true ∧ (burstsOf a l).all (fun n => s.burstErr n == 0) = true) ∧
    (∃ (e : Bool) (m : Fin 32) (n : Nat) (wa : Nat) (l : Nat) (a : Nat) (ps : List RingPart) (s : State),
    s.ringRuns (if e then 0 else 1) = true ∧ s.frameCheck (if e then 0 else 1) m.val wa l (ps.any (fun x => decide (l < x.ofs + x.len))) true = 0 ∧ s.winTo 2 m.val wa l true = some a ∧ s.hbmUp = true ∧ (burstsOf a l).all (fun n => s.burstErr n == 0) = true) ∧
    (∃ (e : Bool) (m : Fin 32) (n : Nat) (wa : Nat) (l : Nat) (ps : List RingPart) (s : State),
    s.ringRuns (if e then 0 else 1) = true ∧ s.frameCheck (if e then 0 else 1) m.val wa l (ps.any (fun x => decide (l < x.ofs + x.len))) true ≠ 0) ∧
    (∃ (e : Bool) (m : Fin 32) (n : Nat) (wa : Nat) (l : Nat) (a : Nat) (s : State),
    s.ringRuns (if e then 0 else 1) = true ∧ s.frameCheck (if e then 0 else 1) m.val wa l false false = 0 ∧ s.winTo 2 m.val wa l false = some a ∧ s.hbmUp = true ∧ (burstsOf a l).all (fun n => s.burstErr n == 0) = true ∧ s.isActive m.val = true) ∧
    (∃ (e : Bool) (m : Fin 32) (n : Nat) (wa : Nat) (l : Nat) (ps : List RingPart) (s : State),
    s.ringRuns (if e then 0 else 1) = false) ∧
    (∃ (e : Bool) (m : Fin 32) (n : Nat) (wa : Nat) (l : Nat) (s : State),
    s.ringRuns (if e then 0 else 1) = false) ∧
    (∃ (m : Fin 32) (n : Nat) (d : Nat) (f : RFrame) (s : State),
    s.frameOf m.val n = some f ∧ f.type = 0x11) ∧
    (∃ (m : Fin 32) (n : Nat) (d : Nat) (s : State),
    s.frameOf m.val n = none) ∧
    (∃ (m : Fin 32) (n : Nat) (f : RFrame) (s : State),
    s.frameOf m.val n = some f ∧ f.type ≠ 0x11 ∧ (f.req = .none ∨ f.req = .map)) ∧
    (∃ (m : Fin 32) (n : Nat) (s : State),
    s.frameOf m.val n = none) ∧
    (∃ (m : Fin 32) (n : Nat) (c : Nat) (f : RFrame) (s : State),
    s.frameOf m.val n = some f ∧ (c = 1 ∨ c = 2) ∧ f.attempts < s.get Reg.RING_CTL_RETRY_MAX ∧ s.ring.lostReqs = []) ∧
    (∃ (m : Fin 32) (n : Nat) (c : Nat) (f : RFrame) (s : State),
    s.frameOf m.val n = some f ∧ c ≠ 1 ∧ c ≠ 2 ∧ c ≠ 4 ∧ f.req = .none ∧ s.ring.lostReqs = []) ∧
    (∃ (n : Nat) (f : RFrame) (s : State),
    SMap.look s.ring.frames n = some f ∧ f.st = 0 ∧ f.attempts < s.get Reg.RING_CTL_RETRY_MAX ∧ s.ring.lostReqs = []) ∧
    (∃ (n : Nat) (f : RFrame) (s : State),
    SMap.look s.ring.frames n = some f ∧ f.st = 0 ∧ s.get Reg.RING_CTL_RETRY_MAX ≤ f.attempts ∧ f.req = .none ∧ s.ring.lostReqs = []) ∧
    (∃ (n : Nat) (f : RFrame) (s : State),
    SMap.look s.ring.frames n = some f ∧ f.st = 1 ∧ needsActive f.type = false ∧ s.canSend f.dst = true ∧ s.ring.lostReqs = []) ∧
    (∃ (n : Nat) (f : RFrame) (s : State),
    SMap.look s.ring.frames n = some f ∧ f.st = 1 ∧ needsActive f.type = true ∧ s.isActive f.dst = false ∧ f.req = .none ∧ s.ring.lostReqs = []) :=
  ⟨⟨3, ⟨5, 3, true, false, 1, 2, false, false⟩, (fun b : State => (tRing b 1).modSec (fun y => { y with roster := [] })) .reset, by decide +kernel⟩,
    ⟨3, (fun b : State => ((tMap b 3).modSec (fun y => { y with roster := [] })).put Reg.RING_STATUS_ROLE 3) .reset, by decide +kernel⟩,
    ⟨2, (fun b : State => (((tMap b 2).modSec (fun y => { y with roster := [] })).put Reg.RING_STATUS_ROLE 2).put Reg.RING_STATUS_MANAGER 2) .reset, by decide +kernel⟩,
    ⟨3, (fun b : State => (tMap b 3).put Reg.RING_STATUS_ROLE 3) .reset, by decide +kernel⟩,
    ⟨2, (fun b : State => (tMap b 3).put Reg.RING_STATUS_ROLE 3) .reset, by decide +kernel⟩,
    ⟨[0], W.RingMembers_6 .reset, ⟨by decide +kernel, by decide +kernel, by
    simp only [State.quorum, State.ownNo, own_zero (W.RingMembers_6 .reset) [] rfl]
    decide +kernel, by
    simp only [State.orderOk, State.ownNo, own_zero (W.RingMembers_6 .reset) [] rfl]
    decide +kernel, by decide +kernel⟩⟩,
    ⟨[0], (fun b : State => (tRing b 1).put Reg.RING_STATUS_ROLE 1) .reset, by decide +kernel⟩,
    ⟨2, tMapRec 9 2, (fun b : State => (tRing b 1).modRing (fun x => { x with map := some (tMapRec 8 2) })) .reset, by decide +kernel⟩,
    ⟨2, tMapRec 8 2, (fun b : State => (tRing b 1).modRing (fun x => { x with map := some (tMapRec 8 2) })) .reset, by decide +kernel⟩,
    ⟨0, W.RingMembers_10 .reset, ⟨by decide +kernel, own_zero _ [] rfl, by decide +kernel⟩⟩,
    ⟨3, 9, (fun b : State => (tRing b 1).modRing (fun x => { x with map := some (tMapRec 8 2), claiming := true })) .reset, by decide +kernel⟩,
    ⟨3, 7, (fun b : State => (tRing b 1).modRing (fun x => { x with map := some (tMapRec 8 2), claiming := true })) .reset, by decide +kernel⟩,
    ⟨W.RingMembers_13 .reset, ⟨by decide +kernel, by
    simp only [State.quorum, State.ownNo, own_zero (W.RingMembers_13 .reset) [] rfl]
    decide +kernel, by decide +kernel⟩⟩,
    ⟨(fun b : State => (tRing b 1).modRing (fun x => { x with claiming := false })) .reset, by decide +kernel⟩,
    ⟨(fun b : State => ((tMap b 3).modSec (fun y => { y with roster := [] })).put Reg.RING_STATUS_ROLE 3 |>.modRing (fun x => { x with alive := [] })) .reset, by decide +kernel⟩,
    ⟨2, 12, 0, W.RingMembers_16 .reset, ⟨by decide +kernel, by rfl, by decide +kernel, own_zero _ [11, 12, 13] rfl, by decide +kernel⟩⟩,
    ⟨true, 2, 7, 0x3004, 208, 0x123456789, 0x11004, (fun b : State => tFrame b) .reset, by decide +kernel⟩,
    ⟨true, 2, 7, 0x3004, 208, 0x11004, [⟨0, 100, 5⟩, ⟨104, 104, 6⟩], (fun b : State => tFrame b) .reset, by decide +kernel⟩,
    ⟨true, 2, 7, 0x5004, 208, [], (fun b : State => tFrame b) .reset, by decide +kernel⟩,
    ⟨true, 2, 7, 0x3004, 208, 0x11004, (fun b : State => (tFrame b).modRing (fun x => { x with map := some (tMapRec 8 2) })) .reset, by decide +kernel⟩,
    ⟨true, 2, 7, 0x3004, 208, [], (fun b : State => (tFrame b).put Reg.RING_STATUS_SWITCH 0) .reset, by decide +kernel⟩,
    ⟨true, 2, 7, 0x3004, 208, (fun b : State => (tFrame b).put Reg.RING_STATUS_SWITCH 0) .reset, by decide +kernel⟩,
    ⟨2, 7, 0x1234, { tFr with type := 0x11 }, (fun b : State => (tRing b 1).modRing (fun x => { x with frames := [(7, { tFr with type := 0x11 })] })) .reset, by decide +kernel⟩,
    ⟨2, 8, 0x1234, (fun b : State => (tRing b 1).modRing (fun x => { x with frames := [(7, tFr)] })) .reset, by decide +kernel⟩,
    ⟨2, 7, tFr, (fun b : State => (tRing b 1).modRing (fun x => { x with frames := [(7, tFr)] })) .reset, by decide +kernel⟩,
    ⟨2, 8, (fun b : State => (tRing b 1).modRing (fun x => { x with frames := [(7, tFr)] })) .reset, by decide +kernel⟩,
    ⟨2, 7, 2, tFr, (fun b : State => ((tRing b 1).modRing (fun x => { x with frames := [(7, tFr)] })).put Reg.RING_CTL_RETRY_MAX 8) .reset, by decide +kernel⟩,
    ⟨2, 7, 6, tFr, (fun b : State => (tRing b 1).modRing (fun x => { x with frames := [(7, tFr)] })) .reset, by decide +kernel⟩,
    ⟨7, tFr, (fun b : State => ((tRing b 1).modRing (fun x => { x with frames := [(7, tFr)] })).put Reg.RING_CTL_RETRY_MAX 8) .reset, by decide +kernel⟩,
    ⟨7, { tFr with attempts := 8 }, (fun b : State => ((tRing b 1).modRing (fun x => { x with frames := [(7, { tFr with attempts := 8 })] })).put Reg.RING_CTL_RETRY_MAX 8) .reset, by decide +kernel⟩,
    ⟨7, { tFr with st := 1 }, (fun b : State => (tRing b 1).modRing (fun x => { x with frames := [(7, { tFr with st := 1 })] })) .reset, by decide +kernel⟩,
    ⟨7, { tFr with st := 1, type := 0x10 }, (fun b : State => (tRing b 1).modRing (fun x => { x with map := none, frames := [(7, { tFr with st := 1, type := 0x10 })] })) .reset, by decide +kernel⟩⟩

def W.Chords_1 (b : State) : State := (tOwnChd b).modChd (fun x => { x with layouts := [] }) |>.put Reg.CHD_STATUS_READY 0 |>.put Reg.CHD_L_ROSTER_MASK 0xD |>.put Reg.CHD_L_GEOM_K 2 |>.put Reg.CHD_L_GEOM_M 1 |>.put Reg.CHD_L_GEOM_SPARE 0 |>.put Reg.CHD_L_BASE_BASE 0 |>.put Reg.CHD_L_ROWS_ROWS 6

def W.Chords_7 (b : State) : State := (tOwnChd b).modChd (fun x => { x with target := some 1, layouts := [(0, tLay), (1, { tLay with base := 6 })] }) |>.put Reg.CHD_B_LO_B 0 |>.put Reg.CHD_B_HI_B 0 |>.put (Reg.IQI_NS_CAP_LO_CAP 1) 2 |>.put (Reg.IQI_NS_CAP_HI_CAP 1) 0

def W.Chords_14 (b : State) : State := tChd b

def W.Chords_26 (b : State) : State := (tOwnChd b).modChd (fun x => { x with reqs := [(4, tRq 1 0)] })

def W.Chords_27 (b : State) : State := (tOwnChd b).modChd (fun x => { x with reqs := [(4, tRq 1 0)] }) |>.modSec (fun y => { y with ranges := [(0, { rangeInit with wlock := true })] })

def W.Chords_31 (b : State) : State := ((tOwnChd b).put Reg.CHD_STATUS_JNL_RESTORED 0).modSpt (fun p => { p with journal := [(65543, tJnl 0)] })

def W.Chords_36 (b : State) : State := tScanS b

theorem witness_Chords :
    (∃ (v : Word) (s : State),
    v.toNat / 2 % 16 = 1 ∧ v.toNat % 2 = s.get Reg.CHD_CTL_SLOT ∧ s.layoutCheck (v.toNat % 2) s.stagedLayout = 0) ∧
    (∃ (v : Word) (s : State),
    v.toNat / 2 % 16 = 1 ∧ v.toNat % 2 = s.get Reg.CHD_CTL_SLOT ∧ s.layoutCheck (v.toNat % 2) s.stagedLayout ≠ 0 ∧ s.flag Reg.CHD_CFG_STATUS_ERR = false) ∧
    (∃ (s : State),
    s.get Reg.CHD_CTL_EN < 2 ∧ s.get Reg.CHD_CTL_SLOT < 2 ∧ s.reshapeCheck = 0 ∧ s.chd.target = none ∧ s.reshapeK < 2 ^ 64) ∧
    (∃ (s : State),
    s.get Reg.CHD_CTL_EN < 2 ∧ s.get Reg.CHD_CTL_SLOT < 2 ∧ s.reshapeCheck ≠ 0 ∧ s.flag Reg.CHD_CFG_STATUS_ERR = false) ∧
    (∃ (x : Nat) (s : State),
    s.get Reg.CHD_CTL_EN < 2 ∧ s.get Reg.CHD_CTL_SLOT < 2 ∧ s.chd.target = some x ∧ x < 2 ∧ s.flag Reg.CHD_STATUS_RESHAPE_DONE = true) ∧
    (∃ (s : State),
    s.get Reg.CHD_CTL_EN < 2 ∧ s.get Reg.CHD_CTL_SLOT < 2 ∧ s.flag Reg.CHD_STATUS_RESHAPE_DONE = false ∧ s.flag Reg.CHD_CFG_STATUS_ERR = false) ∧
    (∃ (x : Nat) (me : Nat) (i : Nat) (l : Layout) (d : List MediaRes) (s : State),
    s.chd.target = some x ∧ s.own = some me ∧ s.chordLayout x = some l ∧ s.chd.suspended = false ∧ s.chd.scans = [] ∧ s.reshapeB < l.ownedCount ∧ s.reshapeB + 1 < 2 ^ 64 ∧ (s.reshapeB + 1) % 1024 ≠ 0 ∧ s.chordBusy x (l.owned me s.reshapeB) = false ∧ s.quorum = true ∧ (List.range (64 * l.k)).all (fun j => (mediaData (d.getD j (.bad 0x14))).isSome) = true ∧ i < l.k ∧ (List.range l.w).all (fun y => (l.holder l.fails (l.owned me s.reshapeB) y == me) == (y == i)) = true ∧ (List.range l.w).all (fun y => s.isActive (l.holder l.fails (l.owned me s.reshapeB) y)) = true ∧ s.stripsIdle = true) ∧
    (∃ (d : List MediaRes) (s : State),
    (s.chd.target = none ∨ s.chd.suspended = true)) ∧
    (∃ (a : List Nat) (n : Nat) (lba : Nat) (o : Nat) (p : Nat) (l : Layout) (s : State),
    s.runOf a = some (n, lba, a) ∧ s.volumeOf n = some o ∧ s.activeLayout = some l ∧ s.chd.target = none ∧ lba % 64 + a.length ≤ 64 ∧ lba + a.length ≤ l.capacity ∧ s.chordBusy s.activeSlot (l.owned o (l.place lba).1) = false ∧ s.cellFree s.chd.jid = true ∧ s.quorum = true ∧ s.spt.taking = true ∧ s.spt.frozenJW = false ∧ s.chd.recovering = false ∧ s.chd.ops.any (fun e => e.2.addrs.any a.contains) = false ∧ a.all (fun x => s.clean x 4112) = true ∧ s.partner = some p ∧ s.isActive p = true ∧ s.ring.lostReqs = []) ∧
    (∃ (a : List Nat) (s : State),
    s.runOf a = none) ∧
    (∃ (a : List Nat) (n : Nat) (lba : Nat) (s : State),
    s.runOf a = some (n, lba, a) ∧ s.writeSlots lba = []) ∧
    (∃ (n : Nat) (lba : Nat) (o : Nat) (v : Nat) (l : Layout) (x : List MediaRes) (s : State),
    s.volumeOf n = some o ∧ s.activeLayout.isSome = true ∧ s.chordLayout (s.readSlot lba) = some l ∧ s.quorum = true ∧ s.lostAt n lba = false ∧ s.readStrip l (s.readSlot lba) (l.owned o (l.place lba).1) (l.place lba).2.1 (l.place lba).2.2 (x.getD (l.place lba).2.1 (.bad 0x14)) = some v) ∧
    (∃ (n : Nat) (lba : Nat) (x : List MediaRes) (s : State),
    s.quorum = true ∧ s.lostAt n lba = true) ∧
    (∃ (n : Nat) (lba : Nat) (x : List MediaRes) (s : State),
    s.quorum = false) ∧
    (∃ (n : Nat) (lba : Nat) (o : Nat) (l : Layout) (x : List MediaRes) (ds : List Nat) (s : State),
    s.volumeOf n = some o ∧ s.activeLayout.isSome = true ∧ s.chordLayout (s.readSlot lba) = some l ∧ s.quorum = true ∧ s.lostAt n lba = false ∧ s.readStrip l (s.readSlot lba) (l.owned o (l.place lba).1) (l.place lba).2.1 (l.place lba).2.2 (x.getD (l.place lba).2.1 (.bad 0x14)) = none ∧ decodeData l.k l.m (s.readOffset l (s.readSlot lba) (l.owned o (l.place lba).1) (l.place lba).2.2 x (fun _ => true)) = some ds ∧ l.holder l.fails (l.owned o (l.place lba).1) (l.place lba).2.1 = l.holder [] (l.owned o (l.place lba).1) (l.place lba).2.1 ∧ x.getD (l.place lba).2.1 (.bad 0x14) ≠ .bad 0x14 ∧ s.ring.lostReqs = []) ∧
    (∃ (n : Nat) (lba : Nat) (o : Nat) (j : Nat) (l : Layout) (x : List MediaRes) (s : State),
    s.volumeOf n = some o ∧ s.activeLayout.isSome = true ∧ s.chordLayout (s.readSlot lba) = some l ∧ s.quorum = true ∧ s.lostAt n lba = false ∧ s.readStrip l (s.readSlot lba) (l.owned o (l.place lba).1) (l.place lba).2.1 (l.place lba).2.2 (x.getD (l.place lba).2.1 (.bad 0x14)) = none ∧ decodeData l.k l.m (s.readOffset l (s.readSlot lba) (l.owned o (l.place lba).1) (l.place lba).2.2 x (fun _ => true)) = none ∧ j < l.k ∧ s.readStrip l (s.readSlot lba) (l.owned o (l.place lba).1) j (l.place lba).2.2 (x.getD j (.bad 0x14)) = none ∧ s.chd.lost.length + l.k ≤ 65536) ∧
    (∃ (m : Fin 32) (c : Fin 64) (f : Nat) (e : Nat) (l : Layout) (s : State),
    s.requestAt m.val c.val 1 e = true ∧ 1 ≤ rqCount e ∧ s.chordLayout (rqSlot e) = some l ∧ s.stripCheck (rqSlot e) (rqChord e) (rqStrip e) (rqLchk e) true = 0 ∧ s.stagedClean m.val (rqAt e) (rqCount e) = true ∧ s.isActive m.val = true ∧ s.ring.lostReqs = []) ∧
    (∃ (m : Fin 32) (c : Fin 64) (f : Nat) (e : Nat) (l : Layout) (s : State),
    s.requestAt m.val c.val 2 e = true ∧ 1 ≤ rqCount e ∧ s.chordLayout (rqSlot e) = some l ∧ s.stripCheck (rqSlot e) (rqChord e) (rqStrip e) (rqLchk e) true = 0 ∧ s.stagedClean m.val (rqAt e) (rqCount e) = true ∧ s.isActive m.val = true ∧ s.ring.lostReqs = []) ∧
    (∃ (m : Fin 32) (c : Fin 64) (f : Nat) (e : Nat) (l : Layout) (s : State),
    s.requestAt m.val c.val 4 e = true ∧ 1 ≤ rqCount e ∧ s.chordLayout (rqSlot e) = some l ∧ s.stripCheck (rqSlot e) (rqChord e) (rqStrip e) (rqLchk e) true = 0 ∧ s.stagedClean m.val (rqAt e) (rqCount e) = true ∧ s.isActive m.val = true ∧ s.ring.lostReqs = []) ∧
    (∃ (m : Fin 32) (c : Fin 64) (f : Nat) (e : Nat) (l : Layout) (s : State),
    s.requestAt m.val c.val 3 e = true ∧ 1 ≤ rqCount e ∧ s.chordLayout (rqSlot e) = some l ∧ s.stripCheck (rqSlot e) (rqChord e) (rqStrip e) (rqLchk e) false = 0 ∧ s.isActive m.val = true ∧ s.ring.lostReqs = []) ∧
    (∃ (m : Fin 32) (c : Fin 64) (f : Nat) (e : Nat) (s : State),
    s.requestAt m.val c.val 1 e = true ∧ 1 ≤ rqCount e ∧ s.stripCheck (rqSlot e) (rqChord e) (rqStrip e) (rqLchk e) true ≠ 0 ∧ s.isActive m.val = true ∧ s.ring.lostReqs = []) ∧
    (∃ (m : Fin 32) (c : Fin 64) (f : Nat) (e : Nat) (s : State),
    s.requestAt m.val c.val 1 e = true ∧ rqCount e = 0 ∧ s.ring.lostReqs = []) ∧
    (∃ (m : Fin 32) (c : Fin 64) (f : Nat) (s : State),
    s.chd.inbox.contains (64 * m.val + c.val) = false) ∧
    (∃ (m : Fin 32) (c : Fin 64) (e : Nat) (i : Nat) (s : State),
    s.requestAt m.val c.val 6 e = true ∧ rqLchk e = s.lchk (rqSlot e) ∧ s.chd.lost.length < 65536 ∧ i < 64 ∧ hasBit (rqMask e) i = true ∧ s.isActive m.val = true ∧ s.ring.lostReqs = []) ∧
    (∃ (m : Fin 32) (c : Fin 64) (e : Nat) (s : State),
    s.requestAt m.val c.val 6 e = true ∧ rqLchk e ≠ s.lchk (rqSlot e) ∧ s.isActive m.val = true ∧ s.ring.lostReqs = []) ∧
    (∃ (m : Fin 32) (c : Fin 64) (e : Nat) (s : State),
    s.requestAt m.val c.val 7 e = true ∧ s.spt.taking = true ∧ s.spt.frozenJW = false ∧ s.isActive m.val = true ∧ s.ring.lostReqs = []) ∧
    (∃ (m : Fin 32) (c : Fin 64) (e : Nat) (s : State),
    s.requestAt m.val c.val 7 e = true ∧ s.spt.taking = false) ∧
    (∃ (m : Fin 32) (c : Fin 64) (e : Nat) (r : Nat) (s : State),
    s.requestAt m.val c.val 8 e = true ∧ s.spt.frozenJW = false ∧ SMap.look s.spt.journal (mirrorCell (rqJid e)) = some r ∧ jnlJid r = rqJid e ∧ s.isActive m.val = true ∧ s.ring.lostReqs = []) ∧
    (∃ (m : Fin 32) (c : Nat) (r : StripReq) (l : Layout) (s : State),
    s.own = some m.val ∧ SMap.look s.chd.reqs c = some r ∧ r.target = m.val ∧ r.locked = false ∧ r.op = 1 ∧ s.chordLayout r.slot = some l ∧ r.purpose = .none ∧ s.stripCheck r.slot r.chord r.strip (s.lchk r.slot) true = 0 ∧ r.first + r.count ≤ 64 ∧ r.blocks.length = r.count ∧ s.stripsIdle = true) ∧
    (∃ (m : Fin 32) (c : Nat) (r : StripReq) (s : State),
    s.own = some m.val ∧ SMap.look s.chd.reqs c = some r ∧ r.target = m.val ∧ r.locked = false ∧ r.op = 1 ∧ s.stripCheck r.slot r.chord r.strip (s.lchk r.slot) true = 2 ∧ s.stripsIdle = true) ∧
    (∃ (m : Fin 32) (c : Nat) (f : Nat) (id : Nat) (e : Nat) (r : StripReq) (s : State),
    s.own ≠ some m.val ∧ s.requestAt m.val (c % 64) 5 e = true ∧ s.chd.reqs.find? (fun x => x.2.target == m.val && x.2.tag == rqTag e && x.2.op != 5) = some (id, r) ∧ r.op ≠ 3 ∧ r.purpose = .none ∧ rqStatus e ≠ 2 ∧ s.stripsIdle = true) ∧
    (∃ (s : State),
    s.chd.reqs.all (fun e => s.isActive e.2.target) = true ∧ s.ring.lostReqs = []) ∧
    (∃ (x : List (List (List MediaRes))) (s : State),
    s.dueRecords = [] ∧ s.flag Reg.CHD_STATUS_JNL_RESTORED = false ∧ s.chd.recovering = false ∧ s.flag Reg.CHD_CFG_STATUS_ERR = false) ∧
    (∃ (x : List (List MediaRes)) (c : Nat) (r : Nat) (h : Nat) (l : Layout) (s : State),
    s.dueRecords = [(c, r)] ∧ 65536 ≤ c ∧ s.quorum = true ∧ s.spt.frozenJW = false ∧ s.chordLayout (jnlSlot r) = some l ∧ l.m = 1 ∧ (List.range l.w).all (fun t => s.stripThere l (jnlSlot r) (jnlChord r) t) = true ∧ jnlFirst r + jnlCount r ≤ 64 ∧ jnlStrip r < l.k ∧ s.own = some h ∧ l.holder l.fails (jnlChord r) l.k = h ∧ (List.range l.k).all (fun t => l.holder l.fails (jnlChord r) t != h && l.holder l.fails (jnlChord r) t != 0xFF) = true ∧ (List.range (jnlCount r)).all (fun i => (List.range l.w).all (fun t => (mediaData ((x.getD i []).getD t (.bad 0x14))).isSome)) = true ∧ s.ring.lostReqs = []) ∧
    (∃ (x : List (Nat × List (List MediaRes))) (s : State),
    s.get Reg.CHD_STATUS_ADOPTED = 0xFF) ∧
    (∃ (c : Nat) (j : Nat) (i : Nat) (x : List (List MediaRes)) (l : Layout) (s : State),
    s.get Reg.CHD_STATUS_ADOPTED ≠ 0xFF ∧ s.activeLayout = some l ∧ s.stampOk l s.activeSlot c x = false ∧ j < l.k ∧ i < 64 ∧ s.readStrip l s.activeSlot c j i ((x.getD j []).getD i (.bad 0x14)) = none ∧ s.chd.lost.length + l.k ≤ 65536) ∧
    (∃ (x : Scan) (xs : List Scan) (r : List (List MediaRes)) (l : Layout) (s : State),
    s.chd.scans = x :: xs ∧ s.chordLayout x.slot = some l ∧ x.u < s.scanEnd x l ∧ x.u + 1 < 2 ^ 64 ∧ s.chordBusy x.slot (l.owned x.owner x.u) = false ∧ s.quorum = true ∧ s.flag Reg.CHD_STATUS_LOST_FULL = false ∧ s.chd.recovering = false ∧ s.dueRecords = [] ∧ (List.range l.w).all (fun t => l.holder l.fails (l.owned x.owner x.u) t == l.holder (s.scanBase x x.u) (l.owned x.owner x.u) t || l.holder l.fails (l.owned x.owner x.u) t == 0xFF) = true ∧ s.ring.lostReqs = []) ∧
    (∃ (x : Scan) (xs : List Scan) (r : List (List MediaRes)) (l : Layout) (s : State),
    s.chd.scans = x :: xs ∧ s.chordLayout x.slot = some l ∧ s.scanEnd x l ≤ x.u) ∧
    (∃ (x : Scan) (xs : List Scan) (i : Nat) (r : List (List MediaRes)) (l : Layout) (s : State),
    s.chd.scans = x :: xs ∧ s.chordLayout x.slot = some l ∧ x.u < s.scanEnd x l ∧ x.u + 1 < 2 ^ 64 ∧ s.chordBusy x.slot (l.owned x.owner x.u) = false ∧ s.quorum = true ∧ s.flag Reg.CHD_STATUS_LOST_FULL = false ∧ s.chd.recovering = false ∧ s.dueRecords = [] ∧ s.own = some (l.holder l.fails (l.owned x.owner x.u) i) ∧ i < l.w ∧ l.holder l.fails (l.owned x.owner x.u) i ≠ 0xFF ∧ (List.range l.w).all (fun t => (l.holder l.fails (l.owned x.owner x.u) t == l.holder (s.scanBase x x.u) (l.owned x.owner x.u) t || l.holder l.fails (l.owned x.owner x.u) t == 0xFF) == (t != i) && (l.holder l.fails (l.owned x.owner x.u) t == l.holder l.fails (l.owned x.owner x.u) i) == (t == i)) = true ∧ (List.range 64).all (fun n => (decodeData l.k l.m (s.readOffset l x.slot (l.owned x.owner x.u) n (r.map (fun t => t.getD n (.bad 0x14))) (fun t => t != i))).isSome) = true ∧ s.ring.lostReqs = []) :=
  ⟨⟨0x80000003#32, W.Chords_1 .reset, ⟨by decide +kernel, by decide +kernel, by
    simp only [State.layoutCheck, State.ownNo, own_zero (W.Chords_1 .reset) [] rfl]
    decide +kernel⟩⟩,
    ⟨0x80000003#32, (fun b : State => (tChd b).put Reg.CHD_L_ROWS_ROWS 0) .reset, by decide +kernel⟩,
    ⟨(fun b : State => (tChd b).modChd (fun x => { x with layouts := [(0, tLay), (1, { tLay with base := 6 })] }) |>.put (Reg.IQI_NS_CAP_LO_CAP 1) 0 |>.put (Reg.IQI_NS_CAP_HI_CAP 1) 0) .reset, by decide +kernel⟩,
    ⟨(fun b : State => tChd b) .reset, by decide +kernel⟩,
    ⟨1, (fun b : State => (tChd b).modChd (fun x => { x with target := some 1, layouts := [(0, tLay), (1, { tLay with base := 6 })], lost := [(5, 3), (2 ^ 63 + 5, 3)] }) |>.put Reg.CHD_STATUS_RESHAPE_DONE 1) .reset, by decide +kernel⟩,
    ⟨(fun b : State => (tChd b).put Reg.CHD_STATUS_RESHAPE_DONE 0) .reset, by decide +kernel⟩,
    ⟨1, 0, 0, { tLay with base := 6 }, tGood 128, W.Chords_7 .reset, ⟨by decide +kernel, own_zero _ [] rfl, by decide +kernel, by decide +kernel, by decide +kernel, by decide +kernel, by decide +kernel, by decide +kernel, by decide +kernel, by
    simp only [State.quorum, State.ownNo, own_zero (W.Chords_7 .reset) [] rfl]
    decide +kernel, by decide +kernel⟩⟩,
    ⟨[], (fun b : State => tChd b) .reset, by decide +kernel⟩,
    ⟨[0x40, 0x41], 2, 5, 3, 3, tLay, (fun b : State => tCache b) .reset, by decide +kernel⟩,
    ⟨[0x99], (fun b : State => tCache b) .reset, by decide +kernel⟩,
    ⟨[0x40, 0x41], 2, 5, (fun b : State => (tCache b).modChd (fun x => { x with target := some 1, layouts := [(0, tLay), (1, { tLay with base := 6 })] }) |>.put Reg.CHD_B_LO_B 0 |>.put Reg.CHD_B_HI_B 0) .reset, by decide +kernel⟩,
    ⟨2, 5, 3, 3, tLay, tGood 3, (fun b : State => tChd b) .reset, by decide +kernel⟩,
    ⟨2, 5, tGood 3, (fun b : State => (tChd b).modChd (fun x => { x with lost := [(lostKey 0 (tLay.owned 3 0) 0, 32)] })) .reset, by decide +kernel⟩,
    ⟨2, 5, tGood 3, (fun b : State => (tChd b).modRing (fun x => { x with alive := [] })) .reset, by decide +kernel⟩,
    ⟨2, 5, 3, tLay, [.bad 0x99, .good 7, .good 9], (decodeData 2 1 ((W.Chords_14 .reset).readOffset tLay ((W.Chords_14 .reset).readSlot 5) (tLay.owned 3 (tLay.place 5).1) (tLay.place 5).2.2 [.bad 0x99, .good 7, .good 9] (fun _ => true))).getD [], W.Chords_14 .reset, ⟨by decide +kernel, by decide +kernel, by decide +kernel, by decide +kernel, by decide +kernel, by decide +kernel, data_getD _ (by decide +kernel), by decide +kernel⟩⟩,
    ⟨2, 5, 3, 1, tLay, [.bad 0x14, .bad 0x14, .good 9], (fun b : State => tChd b) .reset, by decide +kernel⟩,
    ⟨2, 5, 2 ^ 11, tCellV 1 0 4, tLay, (fun b : State => tCell b 1 0 4) .reset, by decide +kernel⟩,
    ⟨2, 5, 0, tCellV 2 2 4, tLay, (fun b : State => tCell b 2 2 4) .reset, by decide +kernel⟩,
    ⟨2, 5, 0, tCellV 4 2 4, tLay, (fun b : State => tCell b 4 2 4) .reset, by decide +kernel⟩,
    ⟨2, 5, 2 ^ 11, tCellV 3 0 2, tLay, (fun b : State => tCell b 3 0 2) .reset, by decide +kernel⟩,
    ⟨2, 5, 0, tCellV 1 1 4, (fun b : State => (tCell b 1 1 4).modChd (fun x => { x with layouts := [(0, { tLay with base := 1 })] })) .reset, by decide +kernel⟩,
    ⟨2, 5, 0, tCellV 1 0 0, (fun b : State => tCell b 1 0 0) .reset, by decide +kernel⟩,
    ⟨2, 6, 0, (fun b : State => tCell b 1 0 4) .reset, by decide +kernel⟩,
    ⟨2, 5, tCellV 6 0 4, 10, (fun b : State => tCell b 6 0 4) .reset, by decide +kernel⟩,
    ⟨2, 5, tCellV 6 0 4, (fun b : State => (tCell b 6 0 4).modChd (fun x => { x with layouts := [(0, { tLay with base := 1 })] })) .reset, by decide +kernel⟩,
    ⟨2, 5, tCellV 7 0 4, (fun b : State => tCell b 7 0 4) .reset, by decide +kernel⟩,
    ⟨2, 5, tCellV 7 0 4, (fun b : State => (tCell b 7 0 4).modSpt (fun p => { p with taking := false })) .reset, by decide +kernel⟩,
    ⟨2, 5, tCellV 8 0 4, jnlRecord 7 1 2 1 0 10 2 4 0 8 5, (fun b : State => (tCell b 8 0 4).modSpt (fun p => { p with journal := [(65543, jnlRecord 7 1 2 1 0 10 2 4 0 8 5)] })) .reset, by decide +kernel⟩,
    ⟨0, 4, tRq 1 0, tLay, W.Chords_26 .reset, ⟨own_zero _ [] rfl, by decide +kernel, by decide +kernel, by decide +kernel, by decide +kernel, by decide +kernel, by decide +kernel, by
    simp only [State.stripCheck, State.ownNo, own_zero (W.Chords_26 .reset) [] rfl]
    decide +kernel, by decide +kernel⟩⟩,
    ⟨0, 4, tRq 1 0, W.Chords_27 .reset, ⟨own_zero _ [] rfl, by decide +kernel, by decide +kernel, by decide +kernel, by decide +kernel, by
    simp only [State.stripCheck, State.ownNo, own_zero (W.Chords_27 .reset) [] rfl]
    decide +kernel, by decide +kernel⟩⟩,
    ⟨2, 5, 0, 4, tCellV 5 0 2, { tRq 1 0 with target := 2, tag := 9 }, (fun b : State => (tCell b 5 0 2).modChd (fun x => { x with reqs := [(4, { tRq 1 0 with target := 2, tag := 9 })] })) .reset, by decide +kernel⟩,
    ⟨(fun b : State => (tChd b).modChd (fun x => { x with reqs := [(4, { tRq 1 0 with target := 2, locked := true, place := none }), (5, { tRq 1 0 with target := 3 })] })) .reset, by decide +kernel⟩,
    ⟨[], (fun b : State => ((tChd b).put Reg.CHD_STATUS_JNL_RESTORED 0)) .reset, by decide +kernel⟩,
    ⟨[tGood 3, tGood 3], 65543, tJnl 0, 0, tLay, W.Chords_31 .reset, ⟨by decide +kernel, by decide +kernel, by
    simp only [State.quorum, State.ownNo, own_zero (W.Chords_31 .reset) [] rfl]
    decide +kernel, by decide +kernel, by decide +kernel, by decide +kernel, by decide +kernel, by decide +kernel, by decide +kernel, own_zero _ [] rfl, by decide +kernel⟩⟩,
    ⟨[(5, [])], (fun b : State => (tChd b).put Reg.CHD_STATUS_ADOPTED 0xFF) .reset, by decide +kernel⟩,
    ⟨4, 1, 9, [[.good 1]], tLay, (fun b : State => tChd b) .reset, by decide +kernel⟩,
    ⟨⟨3, 0, 0, [], none⟩, [], [], tLay, (fun b : State => (tChd b).modChd (fun y => { y with scans := [⟨3, 0, 0, [], none⟩] })) .reset, by decide +kernel⟩,
    ⟨⟨3, 0, 2, [1], none⟩, [], [], tLay, (fun b : State => (tChd b).modChd (fun y => { y with scans := [⟨3, 0, 2, [1], none⟩], suspended := true })) .reset, by decide +kernel⟩,
    ⟨tScan, [], tScanI, List.replicate 4 (tGood 64), tLay1, W.Chords_36 .reset, ⟨by decide +kernel, by decide +kernel, by decide +kernel, by decide +kernel, by decide +kernel, by
    simp only [State.quorum, State.ownNo, own_zero (W.Chords_36 .reset) [] rfl]
    decide +kernel, by decide +kernel, by decide +kernel, by decide +kernel, (own_zero _ [] rfl).trans (by decide +kernel), by decide +kernel, by decide +kernel, by decide +kernel, by
    simp only [State.readOffset, State.readStrip, own_zero (W.Chords_36 .reset) [] rfl]
    decide +kernel, by decide +kernel⟩⟩⟩

theorem witness_EventsRaised :
    (∃ (c : Nat) (u : Nat) (s : State),
    s.get Reg.EVR_STATUS_SEQ_VALID = 1 ∧ s.spt.frozenMeta = false ∧ s.clkOk 37 = true) ∧
    (∃ (c : Nat) (u : Nat) (s : State),
    (s.get Reg.EVR_STATUS_SEQ_VALID == 1 && !s.spt.frozenMeta && s.clkOk 37) = false ∧ s.evr.fifo.length < 32) ∧
    (∃ (c : Nat) (u : Nat) (s : State),
    (s.get Reg.EVR_STATUS_SEQ_VALID == 1 && !s.spt.frozenMeta && s.clkOk 37) = false ∧ 32 ≤ s.evr.fifo.length ∧ s.get Reg.EVR_FIFO_DROP_COUNT < 2 ^ 32 - 1) ∧
    (∃ (r : Fin 5) (v : Word) (s : State),
    0x8000 ≤ bits v.toNat 15 0 ∧ bits v.toNat 26 24 = 4 ∧ s.get Reg.EVR_STATUS_SEQ_VALID = 1 ∧ s.spt.frozenMeta = false ∧ s.clkOk 37 = true) ∧
    (∃ (r : Fin 5) (v : Word) (s : State),
    (bits v.toNat 15 0 < 0x8000 ∨ 4 < bits v.toNat 26 24) ∧ s.get Reg.EVR_CFG_STATUS_ERR = 0) :=
  ⟨⟨0x0701, 3, (fun b : State => (tClk b).put Reg.EVR_STATUS_SEQ_VALID 1) .reset, by decide +kernel⟩,
    ⟨0x0701, 3, (fun b : State => b.put Reg.EVR_STATUS_SEQ_VALID 0) .reset, by decide +kernel⟩,
    ⟨0x0701, 3, (fun b : State => ((b.put Reg.EVR_STATUS_SEQ_VALID 0).put Reg.EVR_FIFO_DROP_COUNT 6).setEvr { b.evr with fifo := List.replicate 32 ⟨0, 0, 0, 1, 0, 0, 0, 0, 0⟩ }) .reset, by decide +kernel⟩,
    ⟨2, 0x04009000, (fun b : State => (tClk b).put Reg.EVR_STATUS_SEQ_VALID 1) .reset, by decide +kernel⟩,
    ⟨2, 0x04007FFF, (fun b : State => b.put Reg.EVR_CFG_STATUS_ERR 0) .reset, by decide +kernel⟩⟩

theorem witness_RecorderControl :
    (∃ (c : Nat) (k : Bucket) (s : State),
    SMap.look s.evr.buckets c = some k ∧ k.tokens < s.burst c) ∧
    (∃ (c : Nat) (s : State),
    SMap.look s.evr.buckets c = none) ∧
    (∃ (k : Nat) (r : EvRec) (s : State),
    s.evr.archNext + 4096 ≤ s.evr.nextSeq ∧ s.evr.tail = [(k, r)] ∧ s.evr.archNext ≤ r.seq ∧ r.seq < s.evr.archNext + 4096) ∧
    (∃ (s : State),
    s.evr.nextSeq < s.evr.archNext + 4096) ∧
    (∃ (v : Word) (s : State),
    hasBit v.toNat 31 = true ∧ 1 ≤ bits v.toNat 23 16 ∧ 1 ≤ bits v.toNat 15 0 ∧ s.get Reg.EVR_CTL_EN = 0) ∧
    (∃ (v : Word) (s : State),
    (bits v.toNat 23 16 = 0 ∨ bits v.toNat 15 0 = 0) ∧ s.get Reg.EVR_CFG_STATUS_ERR = 0) ∧
    (∃ (v : Word) (s : State),
    1 ≤ bits v.toNat 31 24 ∧ 1 ≤ bits v.toNat 15 0) :=
  ⟨⟨0x0701, ⟨3, 1⟩, (fun b : State => (b.put Reg.EVR_CTL_DEF_BURST 8).setEvr { b.evr with buckets := [(0x0701, ⟨3, 1⟩)] }) .reset, by decide +kernel⟩,
    ⟨0x0701, (fun b : State => b) .reset, by decide +kernel⟩,
    ⟨5, ⟨5, 0, 0, 1, 0, 0, 0, 0, 0⟩, (fun b : State => b.setEvr { b.evr with nextSeq := 4096, tail := [(5, ⟨5, 0, 0, 1, 0, 0, 0, 0, 0⟩)] }) .reset, by decide +kernel⟩,
    ⟨(fun b : State => b.setEvr { b.evr with nextSeq := 4095 }) .reset, by decide +kernel⟩,
    ⟨0x80080020, (fun b : State => (b.put Reg.EVR_CTL_EN 0).setEvr { b.evr with nextSeq := 77 }) .reset, by decide +kernel⟩,
    ⟨0x80000020, (fun b : State => (b.put Reg.EVR_CFG_STATUS_ERR 0)) .reset, by decide +kernel⟩,
    ⟨0x20000100, (fun b : State => b) .reset, by decide +kernel⟩⟩

theorem witness_QueueDrains : ∃ (k : Nat) (s : State), k ≤ s.pending.length ∧ 1 < k :=
  ⟨2, { State.reset with pending := [.pllLock, .nutStart, .sysPorNLow] }, by decide⟩

theorem witness_WindowsStayLegal : ∃ s t : State, s.winsOk = true ∧ s.winLive ≠ [] ∧ s.pending ≠ [] ∧ step s = .next t :=
  ⟨{ tWin .reset with pending := [.pllLock] }, { ((tWin .reset).startStep 2 (fun s => s.setEvr { s.evr with poc := (s.evr.poc + 1) % 2 ^ 32 })) with pending := [] }, by decide +kernel, by decide +kernel, by decide,
    rfl⟩

theorem witness_WindowsReachBuffer :
    ∃ (s : State) (src : Nat) (m : Nat) (a : Nat) (n : Nat) (x : Nat) (w : Bool),
    s.winsOk = true ∧ s.winTo src m a n w = some x :=
  ⟨(fun b : State => tWin b) .reset, 1, 2, 0x2000, 64, 0x10000, true, by decide +kernel⟩

theorem witness_BufferStoreLoad : ∃ (s : State) (i n : Nat), i < n ∧ s.memoryOk = true ∧ s.mem ≠ [] :=
  ⟨State.reset.storeMem 100 0xABCD 2, 63, 64, by decide +kernel⟩

end
end

