-- ==== Sys2Proof/Proofs/MemberStarts.lean ====
section
/-! SUPPORT. A refused member start can write the buffer. Refusal (07 R550) resumes the servo-only sources of the actuator's
other slots (08 R210); a resumed source enters SEARCH, which shuts the slot's write gate (08 R211); and a gate shut after the
pad ends a sector, whose STATUS goes to its run's list in the buffer (06 R166, 07 R190). Ending a member clears the gate and
the sectors of its own slot alone, and starting a servo-only member clears neither, so another slot without a member whose
gate stands open keeps what the write takes. The statement is about every state: that a slot without a member has no open gate
would exclude this, and the statement does not assume it. -/

namespace Sys2Proof.Machine

/-! ## What MEMBER_START comes to -/

/-- A due start of a committed member is no longer due, and begins that member. -/
theorem execMemberStart_of_due {i : Fin 16} {cm : CMember} {s : State}
    (hdue : (s.fmt (actOf i)).due.contains (locOf i) = true)
    (hcm : SMap.look (s.fmt (actOf i)).course (locOf i) = some cm) :
    execMemberStart i s = .next ((s.modFmt (actOf i) fun m =>
      { m with due := m.due.filter (fun k => k != locOf i) }).startMember i cm) := by
  simp only [execMemberStart, hdue, hcm, if_true]

/-- A hold refuses the member, whatever it is (04 R123). -/
theorem State.startMember_of_hold {s : State} {i : Nat} (cm : CMember) (h : s.get (Reg.CHN_FE_SB_CTL_HOLD i) ≠ 0) :
    s.startMember i cm = s.refuseMember i := by
  have hflag : s.flag (Reg.CHN_FE_SB_CTL_HOLD i) = true := by simp [State.flag_eq, h]
  simp only [State.startMember, hflag, Bool.or_true, Bool.true_or, if_true]

/-! ## A state with an open gate on a slot without a member -/

/-- A write run of one sector, its list at byte 4096 of the buffer. -/
def strandedRun : Run :=
  { rid := 7, tag := 0, list := 4096, first := 0, count := 1, write := true, stat := [], used := [], start := 0, taken := 1,
    revisit := [], exhausted := [], dataPath := [] }

/-- That run's sector, the last of a track of 16384 CELLS, in its last fragment: the slot position from which the resumed source
shuts the gate, cell 0 of the revolution, lies after the fragment's pad (03 R82, 06 R166). -/
def strandedSector : WrSect :=
  { sec := 3, rid := 7, idx := 0, psi := 203, header := 0, block := 0, addr := 0, bad := false, released := true,
    fragsLeft := 1, lost := false, staging := 0 }

/-- The member whose start on slot 0 is refused. -/
def heldMember : CMember := ⟨2, 7, true, 0⟩

/-- Reset with the buffer up and the spindle speed valid, where slot 0 is due to start a member and held, and slot 1, whose
servo-only source is enabled, has no member but an open gate over `strandedSector`. -/
def strandedGate : State :=
  ((((((State.reset.put Reg.BUF_STATUS_TRAINED 1).setPwr { State.reset.pwr with dom := [(92, .on)] }).put
    (Reg.CHN_FE_SB_CTL_HOLD 0) 1).put Reg.MTR_SPN_SPEED_VALID 1).put (Reg.SRV_SRC_EN 0 1) 1).modFmt 0 fun m =>
      { m with due := [0], course := [(0, heldMember)], cur := [(1, strandedRun)] }).modSlot 1 fun x =>
        { x with gate := true, started := some 3, wr := [strandedSector] }

/-- `strandedGate` with slot 0's start taken off what is due. -/
def strandedStart : State :=
  strandedGate.modFmt 0 fun m => { m with due := m.due.filter (fun k => k != 0) }

theorem strandedGate_due : (strandedGate.fmt 0).due.contains 0 = true := by decide +kernel

theorem strandedGate_course : SMap.look (strandedGate.fmt 0).course 0 = some heldMember := by decide +kernel

theorem strandedGate_hold : strandedGate.get (Reg.CHN_FE_SB_CTL_HOLD 0) ≠ 0 := by decide +kernel

theorem strandedGate_noError : strandedGate.get (Reg.FMT_CFG_STATUS_ERR 0) = 0 := by decide +kernel

/-- MEMBER_START of slot 0 refuses its member. -/
theorem memberStart_strandedGate : exec (.memberStart 0) strandedGate = .next (strandedStart.refuseMember 0) := by
  have hrun : exec (.memberStart 0) strandedGate = .next (strandedStart.startMember 0 heldMember) :=
    execMemberStart_of_due (i := 0) strandedGate_due strandedGate_course
  have hhold : strandedStart.get (Reg.CHN_FE_SB_CTL_HOLD 0) ≠ 0 := by
    rw [strandedStart, State.get_modFmt]
    exact strandedGate_hold
  rw [hrun, State.startMember_of_hold heldMember hhold]

/-- The refusal ends slot 1's sector as written: STATUS 1 in the top four bits of its list entry (07 R190). -/
theorem refuseMember_strandedStart_byte : (strandedStart.refuseMember 0).byte 4103 = 0x10#8 := by decide +kernel

theorem strandedGate_byte : strandedGate.byte 4103 = 0#8 := by decide +kernel

/-- Refutes O9: its refusal clause lets no byte of the buffer change, and from `strandedGate` the refusal on slot 0 writes the
STATUS of slot 1's sector, at byte 4103. -/
theorem not_memberStarts : ¬ Obligations.MemberStarts := by
  unfold Obligations.MemberStarts
  rintro ⟨-, -, -, -, -, hrefuse, -⟩
  obtain ⟨t, ht, -, -, -, -, -, hbytes⟩ :=
    hrefuse 0 heldMember strandedGate strandedGate_due strandedGate_course (.inr (.inl strandedGate_hold))
      strandedGate_noError
  have hst : strandedStart.refuseMember 0 = t := by
    rw [memberStart_strandedGate] at ht
    exact Host.Outcome.next.inj ht
  have hsame := hbytes 4103
  rw [← hst, refuseMember_strandedStart_byte, strandedGate_byte] at hsame
  exact absurd hsame (by decide)

end Sys2Proof.Machine
end

