-- ==== Sys2Proof/Proofs/FieldRules.lean ====
section
/-! SUPPORT. What a counter's increment, a rejection and a slot's change do to the reads that statements speak of. -/

namespace Sys2Proof.Machine

/-! ## Counters (00 Table SCP-3) -/

@[simp] theorem State.get_incBy_same (s : State) (F : Field) (n : Nat) : (s.incBy F n).get F = s.counted F n :=
  State.get_put_same s F _

theorem State.get_incBy_ne (s : State) (F : Field) (n : Nat) {G : Field} (h : G.key ≠ F.key) :
    (s.incBy F n).get G = s.get G :=
  State.get_put_ne s F _ h

/-- What a counter counts to depends on its own value alone. -/
theorem State.counted_congr {s t : State} {F : Field} (h : t.get F = s.get F) (n : Nat) : t.counted F n = s.counted F n := by
  rw [State.counted, State.counted, h]

theorem FieldsKept.mono {s t : State} {K L : List Field} (h : FieldsKept s t K) (hKL : K ⊆ L) : FieldsKept s t L :=
  fun F hF => h F fun hK => hF (List.map_subset _ hKL hK)

theorem FieldsKept.incBy {s t : State} {K : List Field} (F : Field) (n : Nat) (h : FieldsKept s t K)
    (hF : F.key ∈ K.map Field.key) : FieldsKept s (t.incBy F n) K :=
  h.put F _ hF

section Counters
variable {α : Type} (F : α → Field) (n : α → Nat)

/-- Counters raised one after the other leave every other field. -/
theorem State.get_each_incBy_ne {xs : List α} {G : Field} (h : ∀ x ∈ xs, G.key ≠ (F x).key) (s : State) :
    (s.each xs fun s x => s.incBy (F x) (n x)).get G = s.get G := by
  induction xs generalizing s with
  | nil => rfl
  | cons y ys ih =>
    obtain ⟨hy, hys⟩ := List.forall_mem_cons.mp h
    exact (ih hys (s.incBy (F y) (n y))).trans (State.get_incBy_ne s (F y) (n y) hy)

/-- Counters of distinct fields raised one after the other count each once. -/
theorem State.get_each_incBy_of_mem {xs : List α} (hdist : xs.Pairwise fun x y => (F x).key ≠ (F y).key) {x : α} (hx : x ∈ xs)
    (s : State) : (s.each xs fun s x => s.incBy (F x) (n x)).get (F x) = s.counted (F x) (n x) := by
  induction xs generalizing s with
  | nil => cases hx
  | cons y ys ih =>
    obtain ⟨hy, hys⟩ := List.pairwise_cons.mp hdist
    rcases List.mem_cons.mp hx with rfl | hx
    · exact (State.get_each_incBy_ne F n hy (s.incBy (F x) (n x))).trans (State.get_incBy_same s (F x) (n x))
    · exact (ih hys hx (s.incBy (F y) (n y))).trans
        (State.counted_congr (State.get_incBy_ne s (F y) (n y) (hy x hx).symm) _)

theorem FieldsKept.each_incBy {s : State} {K : List Field} {xs : List α} (h : ∀ x ∈ xs, (F x).key ∈ K.map Field.key) :
    FieldsKept s (s.each xs fun s x => s.incBy (F x) (n x)) K :=
  fun _ hG => State.get_each_incBy_ne F n (fun x hx e => hG (e ▸ h x hx)) s

end Counters

/-! ## Rejections (00 R15) -/

/-- The first rejection since ERR was cleared sets ERR and CODE. -/
theorem State.reject_of_noError {s : State} {err : Field} (h : s.get err = 0) (code : Field) (c : Nat) :
    s.reject err code c = (s.put err 1).put code c := by
  simp [State.reject, State.flag_eq, h]

theorem FieldsKept.reject (s : State) (err code : Field) (c : Nat) : FieldsKept s (s.reject err code c) [err, code] := by
  unfold State.reject
  split
  · exact FieldsKept.refl s _
  · exact ((FieldsKept.refl s _).put err 1 (by simp)).put code c (by simp)

/-! ## The buffer's bytes after a command -/

/-- A meaning that leaves the memory leaves every byte of the buffer. -/
theorem BytesKept.of_next {r : Res} {s t : State} (hr : r = .next t) (h : Res.mem r = some s.mem) : BytesKept s t := by
  rw [hr, Res.mem_next] at h
  exact BytesKept.of_mem (Option.some.inj h)

/-! ## Slots -/

@[simp] theorem State.slot_modSlot_same (s : State) (i : Nat) (g : Slot → Slot) : (s.modSlot i g).slot i = g (s.slot i) :=
  SMap.get_put_same s.slots slotInit i _

@[simp] theorem State.slot_incBy (s : State) (F : Field) (n i : Nat) : (s.incBy F n).slot i = s.slot i := rfl

@[simp] theorem State.slot_sramWritten (s : State) (inst : Nat) (p : Nat → Bool) (i : Nat) :
    (s.sramWritten inst p).slot i = s.slot i := rfl

theorem State.slot_each {α : Type} {g : State → α → State} {i : Nat} (h : ∀ s x, (g s x).slot i = s.slot i) (xs : List α)
    (s : State) : (s.each xs g).slot i = s.slot i := by
  induction xs generalizing s with
  | nil => rfl
  | cons x xs ih => exact (ih (g s x)).trans (h s x)

end Sys2Proof.Machine
end

