-- ==== Sys2Proof/Proofs/SampleStore.lean ====
section
/-! SUPPORT. The bytes a capture stores (04 R114, R120): what a run of values, an element's bytes and the bytes of every element
in use leave at a cell's key. -/

namespace Sys2Proof.Machine

/-! ## A run of values -/

theorem look_setRun_outside (vs : List Nat) (m : SMap Nat) {k j : Nat} (h : j < k ∨ k + vs.length ≤ j) :
    SMap.look (setRun m k vs) j = SMap.look m j := by
  induction vs generalizing m k with
  | nil => rfl
  | cons v vs ih =>
    rw [List.length_cons] at h
    rw [setRun, ih _ (by omega), SMap.look_set_ne _ _ (by omega)]

theorem look_setRun_inside {vs : List Nat} {n : Nat} (h : n < vs.length) (m : SMap Nat) (k : Nat) :
    SMap.look (setRun m k vs) (k + n) = some vs[n] := by
  induction vs generalizing m k n with
  | nil => cases h
  | cons v vs ih =>
    cases n with
    | zero => rw [setRun, look_setRun_outside _ _ (by omega)]; exact SMap.look_set_same m k v
    | succ n => rw [setRun, show k + (n + 1) = k + 1 + n by omega]; exact ih (Nat.lt_of_succ_lt_succ h) _ _

/-! ## An element's bytes -/

theorem get_storeSamples_same (m : SMap Nat) (e el : Nat) {bytes : List Nat} {n : Nat} (h : n < bytes.length) :
    SMap.get (storeSamples m e el bytes) 0 ((3 * e + el) * 65536 + n) = bytes.getD n 0 % 256 := by
  rw [SMap.get, storeSamples, look_setRun_inside (by rwa [List.length_map])]
  simp [h]

/-- An element's bytes leave the cells of every other element of every entry. -/
theorem get_storeSamples_ne (m : SMap Nat) (e : Nat) {el el' n : Nat} {bytes : List Nat} (hel : el' ≠ el)
    (hlen : bytes.length ≤ 65536) (hn : n < 65536) :
    SMap.get (storeSamples m e el bytes) 0 ((3 * e + el') * 65536 + n) = SMap.get m 0 ((3 * e + el') * 65536 + n) := by
  rw [SMap.get, SMap.get, storeSamples]
  rw [look_setRun_outside _ _ (by rw [List.length_map]; omega)]

/-- Bytes stored for several elements: each element's cells hold its own. -/
theorem get_foldl_storeSamples {bytes : Nat → List Nat} (hlen : ∀ el, (bytes el).length ≤ 65536) (e : Nat) {els : List Nat}
    (hnd : els.Nodup) {el n : Nat} (hn : n < (bytes el).length) (m : SMap Nat) :
    SMap.get (els.foldl (fun m el => storeSamples m e el (bytes el)) m) 0 ((3 * e + el) * 65536 + n) =
      if el ∈ els then (bytes el).getD n 0 % 256 else SMap.get m 0 ((3 * e + el) * 65536 + n) := by
  induction els generalizing m with
  | nil => rfl
  | cons y ys ih =>
    obtain ⟨hy, hnd⟩ := List.nodup_cons.mp hnd
    rw [List.foldl_cons, ih hnd]
    by_cases hel : el = y
    · subst hel
      rw [if_neg hy, if_pos List.mem_cons_self, get_storeSamples_same m e el hn]
    · rw [get_storeSamples_ne m e hel (hlen y) (hn.trans_le (hlen el))]
      simp only [List.mem_cons, hel, false_or]

/-! ## The flagged bytes -/

theorem flagSamples_length (erased : Nat → Bool) (ps : List (Bool × Nat)) (rc : Nat) (bs : List Nat) :
    (flagSamples erased ps rc bs).length = bs.length := by
  induction bs generalizing ps rc with
  | nil => simp [flagSamples]
  | cons b bs ih =>
    cases ps with
    | nil => simp [flagSamples, ih]
    | cons p ps => simp [flagSamples, ih]

/-- A stored sample is a byte. -/
theorem flagSamples_lt {erased : Nat → Bool} {ps : List (Bool × Nat)} {rc : Nat} {bs : List Nat} :
    ∀ v ∈ flagSamples erased ps rc bs, v < 256 := by
  induction bs generalizing ps rc with
  | nil => simp [flagSamples]
  | cons b bs ih =>
    cases ps with
    | nil => simpa [flagSamples] using ⟨by omega, fun v hv => ih v hv⟩
    | cons p ps =>
      obtain ⟨rd, n⟩ := p
      have hflag := b2n_lt (rd && erased rc)
      simpa [flagSamples] using ⟨by omega, fun v hv => ih v hv⟩

theorem flagSamples_getD_mod (erased : Nat → Bool) (ps : List (Bool × Nat)) (rc : Nat) (bs : List Nat) (n : Nat) :
    (flagSamples erased ps rc bs).getD n 0 % 256 = (flagSamples erased ps rc bs).getD n 0 := by
  rw [List.getD_eq_getElem?_getD]
  cases h : (flagSamples erased ps rc bs)[n]? with
  | none => rfl
  | some v => exact Nat.mod_eq_of_lt (flagSamples_lt v (List.mem_of_getElem? h))

end Sys2Proof.Machine
end

