-- ==== Sys2Proof/Proofs/SampleBuffer.lean ====
section
/-! SUPPORT. The sample buffer (04 R120 to R123): CAPTURE_DONE as the stored capture, the clipped samples and the entry's registers
in turn, and the hold and the read-out by case. -/

namespace Sys2Proof.Machine

/-! ## CAPTURE_DONE in three parts -/

/-- What a capture brings of element `el`. -/
def captureOf (e0 e1 e2 : ElemCapture) (el : Nat) : ElemCapture := if el = 0 then e0 else if el = 1 then e1 else e2

/-- The bytes that the capture `c` of one element of sector `q` stores. -/
def Slot.captureBytes (x : Slot) (q : Sect) (c : ElemCapture) : List Nat :=
  flagSamples x.isErased (captureParts (sectorFrags q.cells q.psi)) q.rc0 (c.samples.take q.cellsOf)

/-- Entry `e` captured, with the samples of the elements in use. -/
def State.storeCapture (s : State) (i e : Nat) (q : Sect) (of : Nat → ElemCapture) : State :=
  ((s.modSect i e fun r => { r with captured := true, erased := (s.slot i).erasedIn q.rc0 q.rcN }).modSlot i fun x =>
      { x with samp := (elems q.mask).foldl (fun m el => storeSamples m e el ((s.slot i).captureBytes q (of el))) x.samp
        }).sramWritten i fun w => (elems q.mask).any fun el =>
    decide (sampWord e el 0 ≤ w) && decide (w < sampWord e el (q.cellsOf + 7))

/-- The clipped samples counted. -/
def State.countClips (s : State) (i mask : Nat) (of : Nat → ElemCapture) : State :=
  s.each (elems mask) fun s el => s.incBy (Reg.CHN_FE_CLIP_COUNT i el) (of el).clips

/-- The registers of entry `e`, which holds sector `q` with `n` erased read cells, and the counts of the sector and those cells. -/
def State.noteCapture (s : State) (i e : Nat) (q : Sect) (n : Nat) : State :=
  (((((s.put (Reg.CHN_FE_SB_PSI_VALID i e) 1).put (Reg.CHN_FE_SB_PSI_PSI i e) q.psi).put (Reg.CHN_FE_SB_CNT_ERASED i e)
    (min n 65535)).put (Reg.CHN_FE_SB_CNT_CELLS i e) q.cellsOf).inc (Reg.CHN_FE_SECTORS_COUNT i)).incBy
      (Reg.CHN_FE_ERASED_COUNT i) n

theorem execCaptureDone_of_capturing {i : Fin 16} {e0 e1 e2 : ElemCapture} {e : Nat} {q : Sect} {s : State}
    (hcap : s.capturing i.val = some e) (hq : SMap.look (s.slot i.val).sects e = some q) :
    execCaptureDone i e0 e1 e2 s =
      .next (((s.storeCapture i.val e q (captureOf e0 e1 e2)).countClips i.val q.mask (captureOf e0 e1 e2)).noteCapture
        i.val e q ((s.slot i.val).erasedIn q.rc0 q.rcN)) := by
  simp only [execCaptureDone, hcap, hq]
  rfl

/-- The sector that is being captured holds entry 0 or 1. -/
theorem State.capturing_le_one {s : State} {i e : Nat} (h : s.capturing i = some e) (hnew : s.newest i ≤ 1) : e ≤ 1 := by
  have hmem := List.mem_of_find?_eq_some h
  simp only [List.mem_cons, List.not_mem_nil, or_false] at hmem
  omega

/-! ## The elements of a capture -/

theorem mem_elems {mask el : Nat} : el ∈ elems mask ↔ el < 3 ∧ hasBit mask el = true := by
  rw [elems, List.mem_filter, List.mem_range]

theorem elems_nodup (mask : Nat) : (elems mask).Nodup := List.nodup_range.filter _

theorem getD_eq_captureOf (e0 e1 e2 : ElemCapture) {el : Nat} (h : el < 3) :
    [e0, e1, e2].getD el ⟨[], 0⟩ = captureOf e0 e1 e2 el := by
  match el, h with
  | 0, _ => rfl
  | 1, _ => rfl
  | 2, _ => rfl

theorem captureOf_length_le {e0 e1 e2 : ElemCapture}
    (h : [e0, e1, e2].all (fun x => decide (x.samples.length ≤ 37376)) = true) (el : Nat) :
    (captureOf e0 e1 e2 el).samples.length ≤ 37376 := by
  simp only [List.all_cons, List.all_nil, Bool.and_true, Bool.and_eq_true, decide_eq_true_eq] at h
  obtain ⟨h0, h1, h2⟩ := h
  unfold captureOf
  split
  · exact h0
  split
  · exact h1
  · exact h2

theorem Slot.captureBytes_length (x : Slot) (q : Sect) (c : ElemCapture) :
    (x.captureBytes q c).length = (c.samples.take q.cellsOf).length :=
  flagSamples_length _ _ _ _

/-! ## The stored capture -/

theorem State.storeCapture_f (s : State) (i e : Nat) (q : Sect) (of : Nat → ElemCapture) :
    (s.storeCapture i e q of).f = s.f := by
  unfold State.storeCapture State.modSect
  split <;> simp

/-- The slot after the stored capture: the sector captured and its samples listed. -/
theorem State.slot_storeCapture {s : State} {i e : Nat} {q : Sect} (hq : SMap.look (s.slot i).sects e = some q)
    (of : Nat → ElemCapture) :
    (s.storeCapture i e q of).slot i =
      { s.slot i with
        sects := SMap.set (s.slot i).sects e { q with captured := true, erased := (s.slot i).erasedIn q.rc0 q.rcN }
        samp := (elems q.mask).foldl (fun m el => storeSamples m e el ((s.slot i).captureBytes q (of el))) (s.slot i).samp } := by
  simp only [State.storeCapture, State.modSect, hq, State.slot_sramWritten, State.slot_modSlot_same]

theorem State.slot_countClips (s : State) (i mask : Nat) (of : Nat → ElemCapture) (j : Nat) :
    (s.countClips i mask of).slot j = s.slot j :=
  State.slot_each (fun s _ => State.slot_incBy s _ _ j) _ s

/-- Each cell of an element in use holds its flagged sample. -/
theorem State.samp_storeCapture {s : State} {i e : Nat} {q : Sect} (hq : SMap.look (s.slot i).sects e = some q)
    {of : Nat → ElemCapture} (hlen : ∀ el, (of el).samples.length ≤ 37376) {el k : Nat} (hel : el ∈ elems q.mask)
    (hk : k < ((of el).samples.take q.cellsOf).length) :
    SMap.get ((s.storeCapture i e q of).slot i).samp 0 ((3 * e + el) * 65536 + k) =
      ((s.slot i).captureBytes q (of el)).getD k 0 := by
  have hbytes : ∀ el, ((s.slot i).captureBytes q (of el)).length ≤ 65536 := fun el => by
    rw [Slot.captureBytes_length]
    exact (List.length_take_le' _ _).trans ((hlen el).trans (by decide))
  rw [← Slot.captureBytes_length (s.slot i) q (of el)] at hk
  rw [State.slot_storeCapture hq, get_foldl_storeSamples hbytes e (elems_nodup _) hk, if_pos hel]
  exact flagSamples_getD_mod _ _ _ _ _

/-! ## The fields of a capture -/

/-- The fields of entry `e` and of the counts that a capture of slot `i` writes, but for the clipped samples. -/
def noteFields (i e : Nat) : List Field :=
  [Reg.CHN_FE_SB_PSI_VALID i e, Reg.CHN_FE_SB_PSI_PSI i e, Reg.CHN_FE_SB_CNT_CELLS i e, Reg.CHN_FE_SB_CNT_ERASED i e,
    Reg.CHN_FE_SECTORS_COUNT i, Reg.CHN_FE_ERASED_COUNT i]

/-- The counts of clipped samples of slot `i`. -/
def clipFields (i : Nat) : List Field := [Reg.CHN_FE_CLIP_COUNT i 0, Reg.CHN_FE_CLIP_COUNT i 1, Reg.CHN_FE_CLIP_COUNT i 2]

/-- No two fields that a capture writes share a key. -/
theorem captureFields_keys_nodup (i : Nat) {e : Nat} (he : e ≤ 1) :
    ((noteFields i e).map Field.key ++ (clipFields i).map Field.key).Nodup := by
  simp only [noteFields, clipFields, List.map_cons, List.map_nil, List.cons_append, List.nil_append, Field.key,
    Reg.CHN_FE_SB_PSI_VALID, Reg.CHN_FE_SB_PSI_PSI, Reg.CHN_FE_SB_CNT_CELLS, Reg.CHN_FE_SB_CNT_ERASED,
    Reg.CHN_FE_SECTORS_COUNT, Reg.CHN_FE_ERASED_COUNT, Reg.CHN_FE_CLIP_COUNT, List.nodup_cons, List.mem_cons,
    List.not_mem_nil, or_false, not_or, not_false_eq_true, List.nodup_nil, and_true]
  omega

theorem noteFields_clipFields_disjoint (i : Nat) {e : Nat} (he : e ≤ 1) {F G : Field} (hF : F ∈ noteFields i e)
    (hG : G ∈ clipFields i) : F.key ≠ G.key :=
  (List.nodup_append.mp (captureFields_keys_nodup i he)).2.2 _ (List.mem_map_of_mem hF) _ (List.mem_map_of_mem hG)

theorem clip_mem_clipFields (i : Nat) {mask el : Nat} (hel : el ∈ elems mask) :
    Reg.CHN_FE_CLIP_COUNT i el ∈ clipFields i := by
  obtain ⟨hlt, -⟩ := mem_elems.mp hel
  match el, hlt with
  | 0, _ => simp [clipFields]
  | 1, _ => simp [clipFields]
  | 2, _ => simp [clipFields]

theorem clip_key_ne (i : Nat) {x y : Nat} (h : x ≠ y) :
    (Reg.CHN_FE_CLIP_COUNT i x).key ≠ (Reg.CHN_FE_CLIP_COUNT i y).key := by
  simp only [Field.key, Reg.CHN_FE_CLIP_COUNT]
  omega

theorem FieldsKept.countClips (s : State) (i mask : Nat) (of : Nat → ElemCapture) :
    FieldsKept s (s.countClips i mask of) (clipFields i) :=
  FieldsKept.each_incBy _ _ fun _ hel => List.mem_map_of_mem (clip_mem_clipFields i hel)

theorem State.get_countClips (s : State) (i : Nat) {mask el : Nat} (of : Nat → ElemCapture) (hel : el ∈ elems mask) :
    (s.countClips i mask of).get (Reg.CHN_FE_CLIP_COUNT i el) = s.counted (Reg.CHN_FE_CLIP_COUNT i el) (of el).clips :=
  State.get_each_incBy_of_mem (fun el => Reg.CHN_FE_CLIP_COUNT i el) (fun el => (of el).clips)
    ((elems_nodup mask).imp fun h => clip_key_ne i h) hel s

theorem FieldsKept.noteCapture (s : State) (i e : Nat) (q : Sect) (n : Nat) :
    FieldsKept s (s.noteCapture i e q n) (noteFields i e) := by
  unfold State.noteCapture State.inc
  refine ((((((FieldsKept.refl s _).put _ _ ?_).put _ _ ?_).put _ _ ?_).put _ _ ?_).incBy _ _ ?_).incBy _ _ ?_
  all_goals simp [noteFields]

/-- What the registers of a captured entry and its counts read. -/
theorem State.get_noteCapture (s : State) (i : Nat) {e : Nat} (he : e ≤ 1) (q : Sect) (n : Nat) :
    (s.noteCapture i e q n).get (Reg.CHN_FE_SB_PSI_VALID i e) = 1 ∧
      (s.noteCapture i e q n).get (Reg.CHN_FE_SB_PSI_PSI i e) = q.psi % 2 ^ 16 ∧
      (s.noteCapture i e q n).get (Reg.CHN_FE_SB_CNT_CELLS i e) = q.cellsOf % 2 ^ 16 ∧
      (s.noteCapture i e q n).get (Reg.CHN_FE_SB_CNT_ERASED i e) = min n 65535 ∧
      (s.noteCapture i e q n).get (Reg.CHN_FE_SECTORS_COUNT i) = s.counted (Reg.CHN_FE_SECTORS_COUNT i) 1 ∧
      (s.noteCapture i e q n).get (Reg.CHN_FE_ERASED_COUNT i) = s.counted (Reg.CHN_FE_ERASED_COUNT i) n := by
  have hkeys := (List.nodup_append.mp (captureFields_keys_nodup i he)).1
  have hrev := List.nodup_reverse.mpr hkeys
  have hmin : min n 65535 % 2 ^ 16 = min n 65535 := Nat.mod_eq_of_lt (by omega)
  simp only [noteFields, List.map_cons, List.map_nil, List.reverse_cons, List.reverse_nil, List.nil_append, List.cons_append,
    List.nodup_cons, List.mem_cons, List.not_mem_nil, or_false, not_or, List.nodup_nil, not_false_eq_true, and_true]
    at hkeys hrev
  simp only [State.noteCapture, State.inc, State.incBy, State.counted, State.get_put_same, State.get_put_ne, ne_eq, hkeys,
    hrev, not_false_eq_true, and_true]
  exact ⟨rfl, rfl, rfl, hmin⟩

/-! ## The whole capture -/

/-- The state CAPTURE_DONE leaves. -/
def State.captured (s : State) (i e : Nat) (q : Sect) (of : Nat → ElemCapture) : State :=
  ((s.storeCapture i e q of).countClips i q.mask of).noteCapture i e q ((s.slot i).erasedIn q.rc0 q.rcN)

theorem State.slot_captured (s : State) (i e : Nat) (q : Sect) (of : Nat → ElemCapture) :
    (s.captured i e q of).slot i = (s.storeCapture i e q of).slot i :=
  State.slot_countClips _ i q.mask of i

/-- The stored samples and the counts of clipped ones leave the entry's registers and the other counts. -/
theorem State.get_clipped {s : State} {i e : Nat} (he : e ≤ 1) (q : Sect) (of : Nat → ElemCapture) {F : Field}
    (hF : F ∈ noteFields i e) : ((s.storeCapture i e q of).countClips i q.mask of).get F = s.get F := by
  rw [FieldsKept.countClips (s.storeCapture i e q of) i q.mask of F, State.get_of_f (State.storeCapture_f s i e q of)]
  rw [List.mem_map]
  rintro ⟨G, hG, hkey⟩
  exact noteFields_clipFields_disjoint i he hF hG hkey.symm

theorem State.get_captured_clip {s : State} {i e : Nat} (he : e ≤ 1) (q : Sect) (of : Nat → ElemCapture) {el : Nat}
    (hel : el ∈ elems q.mask) :
    (s.captured i e q of).get (Reg.CHN_FE_CLIP_COUNT i el) = s.counted (Reg.CHN_FE_CLIP_COUNT i el) (of el).clips := by
  have hnote : (Reg.CHN_FE_CLIP_COUNT i el).key ∉ (noteFields i e).map Field.key := by
    rw [List.mem_map]
    rintro ⟨F, hF, hkey⟩
    exact noteFields_clipFields_disjoint i he hF (clip_mem_clipFields i hel) hkey
  rw [State.captured, FieldsKept.noteCapture _ i e q _ _ hnote, State.get_countClips _ i of hel]
  exact State.counted_congr (State.get_of_f (State.storeCapture_f s i e q of) _) _

theorem FieldsKept.captured (s : State) (i e : Nat) (q : Sect) (of : Nat → ElemCapture) :
    FieldsKept s (s.captured i e q of) (noteFields i e ++ clipFields i) :=
  ((FieldsKept.of_f (State.storeCapture_f s i e q of) _).trans
    ((FieldsKept.countClips _ i q.mask of).mono (List.subset_append_right _ _))).trans
      ((FieldsKept.noteCapture _ i e q _).mono (List.subset_append_left _ _))

/-! ## HOLD (04 R123, Table AFE-14) -/

theorem execSbHoldWrite_of_idle {i : Fin 16} {v : Word} {s : State}
    (h : hasBit v.toNat 31 = false ∨ s.get (Reg.CHN_FE_STATUS_ACTIVE i.val) = 0) :
    execSbHoldWrite i v s = .next (s.put (Reg.CHN_FE_SB_CTL_HOLD i.val) (bit v.toNat 31)) := by
  rcases h with h | h
  · simp [execSbHoldWrite, h]
  · simp [execSbHoldWrite, State.flag_eq, h]

theorem execSbHoldWrite_of_active {i : Fin 16} {v : Word} {s : State} (hset : hasBit v.toNat 31 = true)
    (hactive : s.get (Reg.CHN_FE_STATUS_ACTIVE i.val) = 1) :
    execSbHoldWrite i v s =
      .next (s.reject (Reg.CHN_FE_CFG_STATUS_ERR i.val) (Reg.CHN_FE_CFG_STATUS_CODE i.val) 5) := by
  simp [execSbHoldWrite, State.flag_eq, hset, hactive]

/-- The first rejection of the reader front end since ERR was cleared: ERR set and the code kept. -/
theorem State.get_reject_channel {s : State} {i : Nat} (herr : s.get (Reg.CHN_FE_CFG_STATUS_ERR i) = 0) {c : Nat}
    (hc : c < 256) :
    (s.reject (Reg.CHN_FE_CFG_STATUS_ERR i) (Reg.CHN_FE_CFG_STATUS_CODE i) c).get (Reg.CHN_FE_CFG_STATUS_ERR i) = 1 ∧
      (s.reject (Reg.CHN_FE_CFG_STATUS_ERR i) (Reg.CHN_FE_CFG_STATUS_CODE i) c).get (Reg.CHN_FE_CFG_STATUS_CODE i) = c := by
  have hkey : (Reg.CHN_FE_CFG_STATUS_ERR i).key ≠ (Reg.CHN_FE_CFG_STATUS_CODE i).key := by
    simp [Field.key, Reg.CHN_FE_CFG_STATUS_ERR, Reg.CHN_FE_CFG_STATUS_CODE]
  rw [State.reject_of_noError herr, State.get_put_ne _ _ _ hkey, State.get_put_same, State.get_put_same]
  exact ⟨rfl, Nat.mod_eq_of_lt hc⟩

/-! ## Read-out (04 R123, Table AFE-18) -/

/-- The SRAM word of the sample buffer that the next read of slot `i` takes. -/
def State.readWord (s : State) (i : Nat) : Nat :=
  sampWord (s.get (Reg.CHN_FE_SB_ADDR_ENTRY i)) (s.get (Reg.CHN_FE_SB_ADDR_ELEM i)) (s.get (Reg.CHN_FE_SB_ADDR_CELL i))

/-- The four cells of that read, first cell lowest. -/
def State.readCells (s : State) (i : Nat) : Nat :=
  (List.range 4).foldl (fun v k => v + 2 ^ (8 * k) * s.sbCell i (s.get (Reg.CHN_FE_SB_ADDR_ENTRY i))
    (s.get (Reg.CHN_FE_SB_ADDR_ELEM i)) (s.get (Reg.CHN_FE_SB_ADDR_CELL i) + k)) 0

theorem execSbDataRead_of_unheld {i : Fin 16} {s : State} (h : s.get (Reg.CHN_FE_SB_CTL_HOLD i.val) = 0) :
    execSbDataRead i s =
      .next ((s.reject (Reg.CHN_FE_CFG_STATUS_ERR i.val) (Reg.CHN_FE_CFG_STATUS_CODE i.val) 4).answer (.data 0)) := by
  simp [execSbDataRead, State.flag_eq, h]

theorem execSbDataRead_of_beyond {i : Fin 16} {s : State} (hhold : s.get (Reg.CHN_FE_SB_CTL_HOLD i.val) = 1)
    (h : 37372 < s.get (Reg.CHN_FE_SB_ADDR_CELL i.val)) :
    execSbDataRead i s =
      .next ((s.reject (Reg.CHN_FE_CFG_STATUS_ERR i.val) (Reg.CHN_FE_CFG_STATUS_CODE i.val) 3).answer (.data 0)) := by
  simp [execSbDataRead, State.flag_eq, hhold, h]

theorem State.sramRead_of_good {s : State} {inst word : Nat} (h : s.sramFlips inst word = 0) :
    s.sramRead inst word = (true, s) := by
  simp only [State.sramRead, h]

theorem State.sramRead_of_uncorrectable {s : State} {inst word : Nat} (h : 2 ≤ s.sramFlips inst word) :
    s.sramRead inst word = (false, s.inc Reg.BUF_SRAM_UE_COUNT) := by
  obtain ⟨n, hn⟩ := Nat.exists_eq_add_of_le' h
  simp only [State.sramRead, hn]

/-- A read of a word without a flipped bit answers its four cells. -/
theorem execSbDataRead_of_good {i : Fin 16} {s : State} (hhold : s.get (Reg.CHN_FE_SB_CTL_HOLD i.val) = 1)
    (hcell : s.get (Reg.CHN_FE_SB_ADDR_CELL i.val) ≤ 37372) (hword : s.sramFlips i.val (s.readWord i.val) = 0) :
    execSbDataRead i s =
      .next ((s.put (Reg.CHN_FE_SB_ADDR_CELL i.val) (s.get (Reg.CHN_FE_SB_ADDR_CELL i.val) + 4)).answer
        (.data (s.readCells i.val))) := by
  rw [State.readWord] at hword
  simp [execSbDataRead, State.flag_eq, hhold, not_lt.mpr hcell, State.sramRead_of_good hword, State.readCells, List.range,
    List.range.loop]

/-- A read of an uncorrectable word counts it and answers a free value. -/
theorem execSbDataRead_of_uncorrectable {i : Fin 16} {s : State} (hhold : s.get (Reg.CHN_FE_SB_CTL_HOLD i.val) = 1)
    (hcell : s.get (Reg.CHN_FE_SB_ADDR_CELL i.val) ≤ 37372) (hword : 2 ≤ s.sramFlips i.val (s.readWord i.val)) :
    execSbDataRead i s =
      .next ((((s.inc Reg.BUF_SRAM_UE_COUNT).draw 1).put (Reg.CHN_FE_SB_ADDR_CELL i.val)
        (s.get (Reg.CHN_FE_SB_ADDR_CELL i.val) + 4)).answer
          (.data (Config.freeValue (s.inc Reg.BUF_SRAM_UE_COUNT).free % 2 ^ 32))) := by
  rw [State.readWord] at hword
  simp [execSbDataRead, State.flag_eq, hhold, not_lt.mpr hcell, State.sramRead_of_uncorrectable hword]

theorem cell_width_mod {c : Nat} (h : c ≤ 37372) (i : Nat) : (c + 4) % 2 ^ (Reg.CHN_FE_SB_ADDR_CELL i).width = c + 4 :=
  Nat.mod_eq_of_lt (show c + 4 < 2 ^ 16 by omega)

/-! ## The statement -/

/-- CAPTURE_DONE leaves `State.captured`, and with it every byte of the buffer. -/
theorem captureDone_runs {i : Fin 16} {e0 e1 e2 : ElemCapture} {e : Nat} {q : Sect} {s : State} {P : State → Prop}
    (hcap : s.capturing i.val = some e) (hq : SMap.look (s.slot i.val).sects e = some q)
    (h : BytesKept s (s.captured i.val e q (captureOf e0 e1 e2)) → P (s.captured i.val e q (captureOf e0 e1 e2))) :
    Runs (.captureDone i e0 e1 e2) s P := by
  have hrun : execCaptureDone i e0 e1 e2 s = .next (s.captured i.val e q (captureOf e0 e1 e2)) :=
    execCaptureDone_of_capturing hcap hq
  exact ⟨_, hrun, h (BytesKept.of_next hrun (execCaptureDone_mem i e0 e1 e2 s))⟩

/-- Settles O11, by the parts of CAPTURE_DONE and by the cases of the hold and the read-out. -/
theorem sampleBuffer : Obligations.SampleBuffer := by
  unfold Obligations.SampleBuffer
  refine ⟨?capture, ?holdIdle, ?holdActive, ?unheld, ?beyond, ?good, ?uncorrectable⟩
  case capture =>
    intro i e0 e1 e2 e q s hcap hq hnew hlen
    have he := State.capturing_le_one hcap hnew
    refine captureDone_runs hcap hq fun hbytes => ?_
    obtain ⟨hvalid, hpsi, hcells, herased, hsectors, hcount⟩ := State.get_noteCapture
      ((s.storeCapture i.val e q (captureOf e0 e1 e2)).countClips i.val q.mask (captureOf e0 e1 e2)) i.val he q
      ((s.slot i.val).erasedIn q.rc0 q.rcN)
    refine ⟨?sector, ?samples, hvalid, hpsi, hcells, herased, hsectors.trans ?_, hcount.trans ?_, ?clips,
      FieldsKept.captured s i.val e q _, hbytes⟩
    case sector =>
      rw [State.slot_captured, State.slot_storeCapture hq]
      exact SMap.look_set_same _ _ _
    case samples =>
      intro el hel hmask k hk
      rw [List.mem_range] at hel hk
      rw [getD_eq_captureOf e0 e1 e2 hel] at hk ⊢
      rw [State.slot_captured]
      exact State.samp_storeCapture hq (captureOf_length_le hlen) (mem_elems.mpr ⟨hel, hmask⟩) hk
    · exact State.counted_congr (State.get_clipped he q _ (by simp [noteFields])) _
    · exact State.counted_congr (State.get_clipped he q _ (by simp [noteFields])) _
    case clips =>
      intro el hel hmask
      rw [List.mem_range] at hel
      rw [getD_eq_captureOf e0 e1 e2 hel]
      exact State.get_captured_clip he q _ (mem_elems.mpr ⟨hel, hmask⟩)
  case holdIdle =>
    intro i v s h
    refine ⟨_, execSbHoldWrite_of_idle h, ?_, (FieldsKept.refl s _).put _ _ (by simp), BytesKept.of_mem (by simp)⟩
    exact (State.get_put_same s _ _).trans (Nat.mod_mod _ _)
  case holdActive =>
    intro i v s hset hactive herr
    obtain ⟨hflag, hcode⟩ := State.get_reject_channel herr (c := 5) (by decide)
    exact ⟨_, execSbHoldWrite_of_active hset hactive, hflag, hcode, FieldsKept.reject s _ _ 5, BytesKept.of_mem (by simp)⟩
  case unheld =>
    intro i s hhold herr
    exact ⟨_, execSbDataRead_of_unheld hhold, rfl, (State.get_reject_channel herr (by decide)).2,
      FieldsKept.reject s _ _ 4, BytesKept.of_mem (by simp)⟩
  case beyond =>
    intro i s hhold hcell herr
    exact ⟨_, execSbDataRead_of_beyond hhold hcell, rfl, (State.get_reject_channel herr (by decide)).2,
      FieldsKept.reject s _ _ 3, BytesKept.of_mem (by simp)⟩
  case good =>
    intro i s hhold hcell hword
    refine ⟨_, execSbDataRead_of_good hhold hcell hword, ?_, rfl, ?_, BytesKept.of_mem (by simp)⟩
    · exact (State.get_put_same s _ _).trans (cell_width_mod hcell i.val)
    · exact (FieldsKept.refl s _).put _ _ (by simp)
  case uncorrectable =>
    intro i s hhold hcell hword
    have hkey : Reg.BUF_SRAM_UE_COUNT.key ≠ (Reg.CHN_FE_SB_ADDR_CELL i.val).key := by
      simp only [Field.key, Reg.BUF_SRAM_UE_COUNT, Reg.CHN_FE_SB_ADDR_CELL]
      omega
    refine ⟨_, execSbDataRead_of_uncorrectable hhold hcell hword, ?_, ?_, ?_, BytesKept.of_mem (by simp)⟩
    · exact (State.get_put_same _ _ _).trans (cell_width_mod hcell i.val)
    · exact (State.get_put_ne _ _ _ hkey).trans (State.get_incBy_same s _ 1)
    · exact ((FieldsKept.refl s _).incBy _ 1 (by simp)).put _ _ (by simp)

end Sys2Proof.Machine
end

