-- ==== Sys2Proof/Proofs/LoopsAndDefects.lean ====
section
/-! SUPPORT. A downward step of the asymmetry or phase loop from above its range. Both loops have a range narrower than their
8-bit fields (04 Table AFE-3: −32 to 31 and −32 to 32), and an update leaves a value within that range (04 R107). The statement's
clause on the downward step bounds the value from below only, so from a value above the range, which the clause does not exclude,
the update ends at the top of the range and not one step below the old value. -/

namespace Sys2Proof.Machine

/-! ## A downward step from above the range -/

/-- A step down from more than one step above a signed loop's range ends at the top of the range. -/
theorem State.get_moveLoop_down_of_above {s : State} {i loop e w : Nat} {F : Field} {lo hi step err : Int}
    (hd : loopField i loop e = (F, w, lo, hi, step)) (hw : w ≠ 0) (hdown : err ≤ 0) (hrange : lo ≤ hi)
    (habove : hi < toSigned w (s.get F) - step) (hrail : F.key ≠ (Reg.CHN_FE_RAIL_COUNT i).key) :
    (s.moveLoop i loop e err).get F = ofSigned F.width hi % 2 ^ F.width := by
  have hclamp : clampInt lo hi (toSigned w (s.get F) - step) = hi := by
    unfold clampInt
    rw [if_neg (by omega), if_pos habove]
  have hrailed : hi ≠ toSigned w (s.get F) - step := by omega
  simp only [State.moveLoop, hd, hw, if_false, not_lt.mpr hdown, hclamp, State.when, hrailed, ne_eq, not_false_eq_true,
    decide_true, if_true, State.inc]
  rw [State.get_incBy_ne _ _ _ hrail, State.get_put_same]

/-- An update that steps a loop leaves its field as the step does. -/
theorem State.get_stepLoop_of_beyond {s : State} {i loop e cell : Nat} {acq : Bool} {err : Int}
    (h : deadBand loop acq < err.natAbs) (F : Field) :
    (s.stepLoop i loop e acq cell err).get F = (s.moveLoop i loop e err).get F := by
  rw [State.stepLoop, if_neg (not_le.mpr h), State.get_modSlot]

/-- LOOP_UPDATE of a loop other than the weights, on an element in use with nothing held, is one update of that loop. -/
theorem execLoopUpdate_of_running {i : Fin 16} {l : Fin 5} {e : Fin 3} {cell : Nat} {acq : Bool}
    {lead streams : List (List Int)} {m : Member} {s : State} (hl : l.val ≠ 4) (hmem : (s.slot i.val).mem = some m)
    (hread : m.servoOnly = false) (hphase : s.readPhase i.val cell = some acq) (hheld : s.loopsHeld i.val = false)
    (he : hasBit (pegMask m.peg) e.val = true) :
    execLoopUpdate i l e cell lead streams s =
      .next (s.stepLoop i.val l.val e.val acq cell
        (s.loopError i.val m l.val e.val acq cell (joinStreams lead streams))) := by
  simp only [execLoopUpdate, hmem, hphase, hread, hheld, hl, he, Bool.or_false, Bool.false_eq_true, if_false, if_true]

/-! ## A state whose asymmetry value lies above the range -/

/-- A member that reads with element E0 alone; its settings play no part. -/
def asymMember : Member :=
  { head := 0, track := 7, surface := 0, band := 1, peg := 2 ^ 24, cells := 104166, write := false, servoOnly := false,
    ready := true, offH := 0,
    set := { wAdapt := false, taEn := false, doEn := false, taLevel := 24, doPct := 30, doLen := 16, boost := 0, cutoff := 0,
             target := 40, skew0 := 0, skew2 := 0, t0 := 0, t1 := 0, t2 := 0, eqStep := 0, eqAdapt := false, kiAcq := 0,
             ki := 0, kpAcq := 0, kp := 0, unlockTol := 0, lockTol := 0, shift := 0 } }

/-- The sector that member captures: the first of its track, from read cell 10 on. -/
def asymSector : Sect :=
  { psi := 0, rid := 1, idx := 0, listAddr := 4096, req := 0, band := 1, sec := 9, cells := 104166, mask := 1, t0 := 0,
    t1 := 0, t2 := 0, retryTag := 0, secondLook := false, timedAll := false, maxCand := 3, syncThr := 4, resyncThr := 4,
    sched := 1, taps := [], tapLog := [], got := 0, since := none, rc0 := 10, rcN := 36960, captured := false, erased := 0,
    attempts := none, resync := [], fast := none, deep := false }

/-- Reset with slot 0 capturing that sector and E0's ASYM at 100. -/
def asymAbove : State :=
  (State.reset.put (Reg.CHN_FE_STATE_ASYM 0 0) 100).modSlot 0 fun x =>
    { x with mem := some asymMember, rg := true, sects := [(0, asymSector)] }

/-- E0's samples of the 4 cells before the interval. -/
def asymLead : List (List Int) := [[0, 0, 0, 0]]

/-- E0's samples from the interval on: a single peak of −5, beyond the dead band of 4. -/
def asymStreams : List (List Int) := [[0, 0, 0, 0, 0, -5, 0, 0, 0, 0, 0, 0, 0, 0, 0, 0, 0]]

theorem asymAbove_mem : (asymAbove.slot 0).mem = some asymMember := by decide +kernel

theorem asymAbove_phase : asymAbove.readPhase 0 25 = some true := by decide +kernel

theorem asymAbove_running : asymAbove.loopsHeld 0 = false := by decide +kernel

theorem asymMember_uses_e0 : hasBit (pegMask asymMember.peg) 0 = true := by decide +kernel

theorem asymAbove_error :
    asymAbove.loopError 0 asymMember 2 0 true 25 (joinStreams asymLead asymStreams) = -5 := by decide +kernel

theorem asymAbove_value : asymAbove.get (Reg.CHN_FE_STATE_ASYM 0 0) = 100 := by decide +kernel

theorem loopField_asym : loopField 0 2 0 = (Reg.CHN_FE_STATE_ASYM 0 0, 8, -32, 31, 1) := rfl

/-- The update ends at 31, the top of the asymmetry loop's range. -/
theorem stepLoop_asymAbove : (asymAbove.stepLoop 0 2 0 true 25 (-5)).get (Reg.CHN_FE_STATE_ASYM 0 0) = 31 := by
  rw [State.get_stepLoop_of_beyond (by decide),
    State.get_moveLoop_down_of_above loopField_asym (by decide) (by decide) (by decide) (by rw [asymAbove_value]; decide) (by decide)]
  decide

/-- Refutes O10: its clause on a downward step asks for the old value less 1, bounding the old value from below alone, and the
update of `asymAbove` brings ASYM from 100 to 31, not 99. -/
theorem not_loopsAndDefects : ¬ Obligations.LoopsAndDefects := by
  unfold Obligations.LoopsAndDefects
  rintro ⟨-, -, hdown, -⟩
  obtain ⟨t, ht, hval, -⟩ :=
    hdown 0 2 0 25 true asymLead asymStreams asymMember asymAbove (by decide) (by decide) asymAbove_mem rfl asymAbove_phase
      asymAbove_running asymMember_uses_e0 (asymAbove_error.trans_lt (by decide))
      (show (-32 : Int) < toSigned 8 (asymAbove.get (Reg.CHN_FE_STATE_ASYM 0 0)) by rw [asymAbove_value]; decide)
  have hexec : exec (.loopUpdate 0 2 0 25 asymLead asymStreams) asymAbove = .next (asymAbove.stepLoop 0 2 0 true 25 (-5)) := by
    rw [← asymAbove_error]
    exact execLoopUpdate_of_running (i := 0) (l := 2) (e := 0) (by decide) asymAbove_mem rfl asymAbove_phase asymAbove_running
      asymMember_uses_e0
  have hst : asymAbove.stepLoop 0 2 0 true 25 (-5) = t := Host.Outcome.next.inj (hexec.symm.trans ht)
  have h99 : t.get (Reg.CHN_FE_STATE_ASYM 0 0) = 99 :=
    hval.trans (show ofSigned 8 (toSigned 8 (asymAbove.get (Reg.CHN_FE_STATE_ASYM 0 0)) - 1) = 99 by
      rw [asymAbove_value]; decide)
  rw [← hst, stepLoop_asymAbove] at h99
  exact absurd h99 (by decide)

end Sys2Proof.Machine
end

