-- ==== Sys2Proof/Proofs/SyncSearches.lean ====
section
/-! SUPPORT. Equaliser adaptation and the sync searches (05 R128, R136 to R140): the taps after an update read one by one, and the
sector that a search's end changes. -/

namespace Sys2Proof.Machine

/-! ## Changes of a table and of a sector -/

/-- A table whose values are changed, and its keys not. -/
theorem SMap.look_map {α β : Type} (m : SMap α) (g : α → β) (k : Nat) :
    SMap.look (m.map fun p => (p.1, g p.2)) k = (SMap.look m k).map g := by
  induction m with
  | nil => rfl
  | cons p m ih =>
    simp only [List.map_cons, SMap.look, ih]
    split <;> rfl

theorem State.look_modSect_same {s : State} {i e : Nat} {q : Sect} (hq : SMap.look (s.slot i).sects e = some q)
    (g : Sect → Sect) : SMap.look ((s.modSect i e g).slot i).sects e = some (g q) := by
  simp only [State.modSect, hq, State.slot_modSlot_same]
  exact SMap.look_set_same _ _ _

theorem FieldsKept.modSect (s : State) (i e : Nat) (g : Sect → Sect) (K : List Field) : FieldsKept s (s.modSect i e g) K :=
  FieldsKept.of_f (State.modSect_f s i e g) K

theorem BytesKept.modSect (s : State) (i e : Nat) (g : Sect → Sect) : BytesKept s (s.modSect i e g) :=
  BytesKept.of_mem (State.modSect_mem s i e g)

/-! ## The taps of an update (05 R128) -/

/-- Where tap `k`, at `v`, is after an update: one step in the direction of its sign product. -/
def tapStep (signs : List Int) (step k v : Nat) : Nat :=
  ofSigned 16 (satSigned 16 (toSigned 16 v + (signs.getD k 0).sign * step))

/-- The taps with tap `k` stepped; the centre tap of E1 stays. -/
def adaptTap (signs : List Int) (step : Nat) (taps : SMap Nat) (k : Nat) : SMap Nat :=
  if k = 14 then taps else SMap.put taps 0 k (tapStep signs step k (SMap.get taps 0 k))

/-- The taps of the elements of a mask. -/
def tapsOf (mask : Nat) : List Nat := (elems mask).flatMap fun e => (List.range 10).map fun t => 10 * e + t

theorem mem_tapsOf {mask k : Nat} : k ∈ tapsOf mask ↔ k / 10 ∈ elems mask := by
  simp only [tapsOf, List.mem_flatMap, List.mem_map, List.mem_range]
  constructor
  · rintro ⟨e, he, t, ht, rfl⟩
    rwa [show (10 * e + t) / 10 = e by omega]
  · exact fun h => ⟨k / 10, h, k % 10, by omega, by omega⟩

theorem tapsOf_nodup (mask : Nat) : (tapsOf mask).Nodup := by
  refine List.nodup_flatMap.mpr ⟨fun e _ => List.nodup_range.map fun a b h => by omega, ?_⟩
  refine (elems_nodup mask).imp fun hne k hk hk' => hne ?_
  simp only [List.mem_map, List.mem_range] at hk hk'
  omega

theorem get_adaptTap_ne (signs : List Int) (step : Nat) (taps : SMap Nat) {k j : Nat} (h : j ≠ k) :
    SMap.get (adaptTap signs step taps k) 0 j = SMap.get taps 0 j := by
  unfold adaptTap
  split
  · rfl
  · exact SMap.get_put_ne _ _ _ _ h

theorem get_adaptTap_same (signs : List Int) (step : Nat) (taps : SMap Nat) {k : Nat} (h : k ≠ 14) :
    SMap.get (adaptTap signs step taps k) 0 k = tapStep signs step k (SMap.get taps 0 k) := by
  rw [adaptTap, if_neg h, SMap.get_put_same]

theorem get_adaptTap_centre (signs : List Int) (step : Nat) (taps : SMap Nat) (k : Nat) :
    SMap.get (adaptTap signs step taps k) 0 14 = SMap.get taps 0 14 := by
  by_cases h : 14 = k
  · rw [← h, adaptTap, if_pos rfl]
  · exact get_adaptTap_ne signs step taps h

/-- Taps that are not among those stepped stay. -/
theorem get_foldl_adaptTap_of_not_mem (signs : List Int) (step : Nat) {ks : List Nat} {j : Nat} (h : j ∉ ks) (taps : SMap Nat) :
    SMap.get (ks.foldl (adaptTap signs step) taps) 0 j = SMap.get taps 0 j := by
  induction ks generalizing taps with
  | nil => rfl
  | cons k ks ih =>
    rw [List.mem_cons, not_or] at h
    exact (ih h.2 _).trans (get_adaptTap_ne signs step taps h.1)

theorem get_foldl_adaptTap_centre (signs : List Int) (step : Nat) (ks : List Nat) (taps : SMap Nat) :
    SMap.get (ks.foldl (adaptTap signs step) taps) 0 14 = SMap.get taps 0 14 := by
  induction ks generalizing taps with
  | nil => rfl
  | cons k ks ih => exact (ih _).trans (get_adaptTap_centre signs step taps k)

/-- A tap among those stepped, each once, is stepped from where it was. -/
theorem get_foldl_adaptTap_of_mem (signs : List Int) (step : Nat) {ks : List Nat} (hnd : ks.Nodup) {j : Nat} (hj : j ∈ ks)
    (hcentre : j ≠ 14) (taps : SMap Nat) :
    SMap.get (ks.foldl (adaptTap signs step) taps) 0 j = tapStep signs step j (SMap.get taps 0 j) := by
  induction ks generalizing taps with
  | nil => cases hj
  | cons k ks ih =>
    obtain ⟨hk, hnd⟩ := List.nodup_cons.mp hnd
    rcases List.mem_cons.mp hj with rfl | hj
    · exact (get_foldl_adaptTap_of_not_mem signs step hk _).trans (get_adaptTap_same signs step taps hcentre)
    · have hne : j ≠ k := fun e => hk (e ▸ hj)
      rw [List.foldl_cons, ih hnd hj, get_adaptTap_ne signs step taps hne]

/-! ## EQ_TAP_ADAPT by case -/

/-- The taps of slot `i` after the update at read cell `cell`. -/
def State.adaptedTaps (s : State) (i : Nat) (m : Member) (cell : Nat) (streams : List (List Int)) : SMap Nat :=
  (tapsOf (pegMask m.peg)).foldl (adaptTap (s.tapSigns i m cell streams) m.set.eqStep) (s.slot i).taps

/-- New taps from read cell `cell` on, noted with every sector that is being captured. -/
def State.noteTaps (s : State) (i cell : Nat) (taps : SMap Nat) : State :=
  s.modSlot i fun x => { x with
    taps := taps
    sects := x.sects.map fun q => (q.1, if q.2.captured then q.2 else { q.2 with tapLog := (cell, taps) :: q.2.tapLog }) }

theorem execEqTapAdapt_of_tracking {i : Fin 16} {cell : Nat} {streams : List (List Int)} {m : Member} {s : State}
    (hmem : (s.slot i.val).mem = some m) (hread : m.servoOnly = false) (hon : m.set.eqAdapt = true)
    (hheld : s.loopsHeld i.val = false) (hphase : s.readPhase i.val cell = some false) :
    execEqTapAdapt i ⟨cell, streams⟩ s =
      .next (s.noteTaps i.val (cell + 1) (s.adaptedTaps i.val m cell streams)) := by
  simp only [execEqTapAdapt, hmem, hread, hon, hheld, hphase, Bool.not_true, Bool.or_self, bne_self_eq_false,
    Bool.false_eq_true, if_false, State.adaptedTaps, tapsOf, List.foldl_flatMap, List.foldl_map]
  rfl

theorem execEqTapAdapt_of_held {i : Fin 16} {cell : Nat} {streams : List (List Int)} {m : Member} {s : State}
    (hmem : (s.slot i.val).mem = some m)
    (h : m.set.eqAdapt = false ∨ s.loopsHeld i.val = true ∨ s.readPhase i.val cell ≠ some false) :
    execEqTapAdapt i ⟨cell, streams⟩ s = .next s := by
  have hoff : (m.servoOnly || !m.set.eqAdapt || s.loopsHeld i.val || s.readPhase i.val cell != some false) = true := by
    rcases h with h | h | h <;> simp [h]
  simp only [execEqTapAdapt, hmem, hoff, if_true]

theorem State.taps_noteTaps (s : State) (i cell : Nat) (taps : SMap Nat) : ((s.noteTaps i cell taps).slot i).taps = taps := by
  rw [State.noteTaps, State.slot_modSlot_same]

/-- The new taps are noted with a sector that is being captured. -/
theorem State.look_noteTaps {s : State} {i e : Nat} {q : Sect} (hq : SMap.look (s.slot i).sects e = some q)
    (hcap : q.captured = false) (cell : Nat) (taps : SMap Nat) :
    SMap.look ((s.noteTaps i cell taps).slot i).sects e =
      some { q with tapLog := (cell, ((s.noteTaps i cell taps).slot i).taps) :: q.tapLog } := by
  rw [State.taps_noteTaps, State.noteTaps, State.slot_modSlot_same]
  refine (SMap.look_map (s.slot i).sects
    (fun r => if r.captured then r else { r with tapLog := (cell, taps) :: r.tapLog }) e).trans ?_
  simp [hq, hcap]

/-! ## The searches (05 R136 to R140) -/

/-- A resync search that finds no position within the threshold takes the predicted one. -/
theorem resyncChoice_of_none {thr : Nat} {found : List SyncPos} (h : found.all (fun p => decide (thr < p.dist)) = true) :
    resyncChoice thr found = 0 := by
  have hnone : found.filter (fun p => decide (-8 ≤ p.ofs) && decide (p.ofs ≤ 8) && decide (p.dist ≤ thr)) = [] := by
    rw [List.filter_eq_nil_iff]
    intro p hp
    have hfar := of_decide_eq_true (List.all_eq_true.mp h p hp)
    simp [hfar]
  rw [resyncChoice, hnone]
  rfl

/-- RESYNC_SEARCH_END of the next fragment adds the position chosen in its search. -/
theorem resyncSearchEnd_runs {i : Fin 16} {frag : Nat} {streams : List (List Int)} {q : Sect} {s : State}
    (hq : SMap.look (s.slot i.val).sects (s.newest i.val) = some q) (hnext : q.resync.length + 1 = frag) :
    Runs (.resyncSearchEnd i frag streams) s fun t =>
      SMap.look (t.slot i.val).sects (s.newest i.val) = some { q with resync := q.resync ++ [resyncChoice q.resyncThr
        (resyncSearch (s.markCells i.val (q.rc0 + fragReadCell (sectorFrags q.cells q.psi) frag + 24) streams))] } ∧
      FieldsKept s t [] ∧ BytesKept s t := by
  refine ⟨_, rfl, (State.look_modSect_same hq _).trans ?_, FieldsKept.modSect _ _ _ _ _, BytesKept.modSect _ _ _ _⟩
  rw [if_pos hnext]

/-! ## The statement -/

/-- Settles O12, by the taps of an update one by one and by the sector that each search's end changes. -/
theorem syncSearches : Obligations.SyncSearches := by
  unfold Obligations.SyncSearches
  refine ⟨?taps, ?log, ?held, ?sync, ?syncOnce, ?resync, ?predicted⟩
  case taps =>
    intro i cell streams m s hmem hread hon hheld hphase
    refine ⟨_, execEqTapAdapt_of_tracking hmem hread hon hheld hphase, ?_, ?_, FieldsKept.of_f (State.modSlot_f _ _ _) _,
      BytesKept.of_mem (State.modSlot_mem _ _ _)⟩
    · rw [State.taps_noteTaps]
      exact get_foldl_adaptTap_centre _ _ _ _
    · intro k hk hused hcentre
      have hlt : k < 30 := List.mem_range.mp hk
      have htap : k ∈ tapsOf (pegMask m.peg) := mem_tapsOf.mpr (mem_elems.mpr ⟨by omega, hused⟩)
      rw [State.taps_noteTaps]
      exact get_foldl_adaptTap_of_mem _ _ (tapsOf_nodup _) htap hcentre _
  case log =>
    intro i cell e streams m q s hmem hread hon hheld hphase hq hcap
    exact ⟨_, execEqTapAdapt_of_tracking hmem hread hon hheld hphase, State.look_noteTaps hq hcap _ _⟩
  case held =>
    intro i cell streams m s hmem h
    exact ⟨_, execEqTapAdapt_of_held hmem h, rfl⟩
  case sync =>
    intro i streams q s hq hfirst
    refine ⟨_, rfl, (State.look_modSect_same hq _).trans ?_, FieldsKept.modSect _ _ _ _ _, BytesKept.modSect _ _ _ _⟩
    simp only [hfirst]
  case syncOnce =>
    intro i streams q s hq hdone
    obtain ⟨l, hl⟩ := Option.isSome_iff_exists.mp hdone
    refine ⟨_, rfl, (State.look_modSect_same hq _).trans ?_, FieldsKept.modSect _ _ _ _ _, BytesKept.modSect _ _ _ _⟩
    simp only [hl]
  case resync => exact fun i frag streams q s hq hnext => resyncSearchEnd_runs hq hnext
  case predicted =>
    intro i frag streams q s hq hnext hfar
    obtain ⟨t, ht, hsect, hframe⟩ := resyncSearchEnd_runs (streams := streams) hq hnext
    exact ⟨t, ht, hsect.trans (by rw [resyncChoice_of_none hfar]), hframe⟩

end Sys2Proof.Machine
end

