-- ==== Sys2Proof/Proofs/SectorDecision.lean ====
section
/-! SUPPORT. The decision of a sector (05 R141, R143, R147, R151): its entry released and its record appended, then the counts, and
then the delivery of its block and of its STATUS, which leaves the slots, the pool and every count of the channel. -/

namespace Sys2Proof.Machine

/-! ## What leaves the slots and the pool -/

/-- The slots and the decoder pool are as they were, and of the register fields all but those listed. -/
structure SectorsKept (s t : State) (K : List Field) : Prop where
  slots : t.slots = s.slots
  pool : t.pool = s.pool
  fields : FieldsKept s t K

theorem SectorsKept.refl (s : State) (K : List Field) : SectorsKept s s K := ⟨rfl, rfl, FieldsKept.refl s K⟩

theorem SectorsKept.trans {s t u : State} {K : List Field} (h : SectorsKept s t K) (k : SectorsKept t u K) :
    SectorsKept s u K :=
  ⟨k.slots.trans h.slots, k.pool.trans h.pool, h.fields.trans k.fields⟩

theorem SectorsKept.put {s t : State} {K : List Field} (F : Field) (v : Nat) (h : SectorsKept s t K)
    (hF : F.key ∈ K.map Field.key) : SectorsKept s (t.put F v) K :=
  ⟨h.slots, h.pool, h.fields.put F v hF⟩

theorem SectorsKept.inc {s t : State} {K : List Field} (F : Field) (h : SectorsKept s t K)
    (hF : F.key ∈ K.map Field.key) : SectorsKept s (t.inc F) K :=
  h.put F _ hF

theorem SectorsKept.each {α : Type} {g : State → α → State} {K : List Field} (h : ∀ s x, SectorsKept s (g s x) K)
    (xs : List α) (s : State) : SectorsKept s (s.each xs g) K := by
  induction xs generalizing s with
  | nil => exact SectorsKept.refl s K
  | cons x xs ih => exact (h s x).trans (ih (g s x))

theorem SectorsKept.slot {s t : State} {K : List Field} (h : SectorsKept s t K) (i : Nat) : t.slot i = s.slot i := by
  rw [State.slot, State.slot, h.slots]

/-! ## The buffer (12 R312 to R314) -/

/-- The register fields in which the errors of buffer reads count. -/
def bufErrorFields : List Field :=
  [Reg.BUF_CE_CNT_COUNT, Reg.BUF_UE_CNT_COUNT, Reg.BUF_UE_FIRST_VALID, Reg.BUF_UE_FIRST_BURST]

theorem SectorsKept.charge (s : State) (cls n : Nat) (K : List Field) : SectorsKept s (s.charge cls n) K :=
  ⟨rfl, rfl, FieldsKept.of_f (State.charge_f s cls n) K⟩

theorem SectorsKept.storeMem (s : State) (a v n : Nat) (K : List Field) : SectorsKept s (s.storeMem a v n) K :=
  ⟨rfl, rfl, FieldsKept.of_f (State.storeMem_f s a v n) K⟩

theorem SectorsKept.setChk (s : State) (x : SMap Nat) (K : List Field) : SectorsKept s (s.setChk x) K :=
  ⟨rfl, rfl, FieldsKept.of_f (State.setChk_f s x) K⟩

theorem SectorsKept.readBurst (s : State) (b : Nat) : SectorsKept s (s.readBurst b).2 bufErrorFields := by
  have hce : Reg.BUF_CE_CNT_COUNT.key ∈ bufErrorFields.map Field.key := by simp [bufErrorFields]
  have hue : Reg.BUF_UE_CNT_COUNT.key ∈ bufErrorFields.map Field.key := by simp [bufErrorFields]
  unfold State.readBurst
  split
  · exact SectorsKept.refl s _
  · refine SectorsKept.inc _ ⟨?_, ?_, FieldsKept.of_f (State.fixBurst_f _ _ _ _) _⟩ hce
    all_goals unfold State.fixBurst; dsimp only; split <;> rfl
  · have hcount := (SectorsKept.refl s bufErrorFields).inc _ hue
    dsimp only
    split
    · exact hcount
    · exact (hcount.put _ _ (by simp [bufErrorFields])).put _ _ (by simp [bufErrorFields])

theorem SectorsKept.readBursts (s : State) (bs : List Nat) : SectorsKept s (s.readBursts bs).2 bufErrorFields := by
  induction bs generalizing s with
  | nil => exact SectorsKept.refl s _
  | cons b bs ih => exact (SectorsKept.readBurst s b).trans (ih _)

theorem SectorsKept.bufRead (s : State) (cls a n : Nat) : SectorsKept s (s.bufRead cls a n).2 bufErrorFields := by
  unfold State.bufRead
  split
  · exact (SectorsKept.charge s cls _ _).trans (SectorsKept.readBursts (s.charge cls (burstsOf a n).length) (burstsOf a n))
  · exact SectorsKept.refl s _

theorem SectorsKept.writeBurst (s : State) (b lo hi v : Nat) : SectorsKept s (s.writeBurst b lo hi v).2 bufErrorFields := by
  unfold State.writeBurst
  split
  · exact (SectorsKept.setChk s _ _).trans (SectorsKept.storeMem (s.setChk (SMap.put s.chk 0 b 0)) lo v 32 _)
  · dsimp only
    split
    · exact ((SectorsKept.readBurst s b).trans (SectorsKept.setChk _ (SMap.put (s.readBurst b).2.chk 0 b 0) _)).trans
        (SectorsKept.storeMem _ lo v (hi - lo) _)
    · exact SectorsKept.readBurst s b

theorem SectorsKept.writeBursts (s : State) (a n v : Nat) (bs : List Nat) :
    SectorsKept s (s.writeBursts a n v bs).2 bufErrorFields := by
  induction bs generalizing s with
  | nil => exact SectorsKept.refl s _
  | cons b bs ih => exact (SectorsKept.writeBurst s b _ _ _).trans (ih _)

theorem SectorsKept.bufWrite (s : State) (cls a v n : Nat) : SectorsKept s (s.bufWrite cls a v n).2 bufErrorFields := by
  unfold State.bufWrite
  split
  · exact (SectorsKept.charge s cls _ _).trans (SectorsKept.writeBursts _ _ _ _ _)
  · exact SectorsKept.refl s _

/-! ## A sector's STATUS (07 R190) and its read-back (03 R95) -/

theorem SectorsKept.writeStatus (s : State) (addr st : Nat) : SectorsKept s (s.writeStatus addr st) bufErrorFields := by
  have hread := SectorsKept.bufRead s 0 addr 8
  unfold State.writeStatus
  dsimp only
  split
  · exact hread.trans (SectorsKept.bufWrite _ _ _ _ _)
  · exact hread

theorem SectorsKept.modRun (s : State) (a rid : Nat) (g : Run → Run) (K : List Field) : SectorsKept s (s.modRun a rid g) K :=
  ⟨rfl, rfl, FieldsKept.of_f (State.modRun_f s a rid g) K⟩

theorem SectorsKept.finalStatus (s : State) (a rid idx st : Nat) :
    SectorsKept s (s.finalStatus a rid idx st) bufErrorFields := by
  unfold State.finalStatus
  dsimp only
  split
  · split
    · exact (SectorsKept.modRun s a rid _ _).trans (SectorsKept.writeStatus _ _ _)
    · exact SectorsKept.refl s _
  · exact SectorsKept.refl s _

theorem SectorsKept.freeWin (s : State) (i : Nat) (K : List Field) : SectorsKept s (s.freeWin i) K := by
  refine ⟨?_, ?_, FieldsKept.of_f (State.freeWin_f s i) K⟩
  all_goals unfold State.freeWin State.putWindow; dsimp only; split <;> rfl

theorem SectorsKept.setCache (s : State) (x : SMap CacheBlk) (K : List Field) : SectorsKept s (s.setCache x) K :=
  ⟨rfl, rfl, FieldsKept.of_f (State.setCache_f s x) K⟩

theorem SectorsKept.setMedia (s : State) (x : Media) (K : List Field) : SectorsKept s (s.setMedia x) K :=
  ⟨rfl, rfl, FieldsKept.of_f (State.setMedia_f s x) K⟩

theorem SectorsKept.freeHeld (s : State) (nsid lba : Nat) (older : Nat → WinEntry → Bool) (K : List Field) :
    SectorsKept s (s.freeHeld nsid lba older) K :=
  SectorsKept.each (fun s i => (SectorsKept.freeWin s i K).trans (SectorsKept.setCache _ _ K)) _ s

theorem SectorsKept.unfail (s : State) (nsid lba : Nat) (K : List Field) : SectorsKept s (s.unfail nsid lba) K := by
  refine ⟨?_, ?_, FieldsKept.of_f (State.unfail_f s nsid lba) K⟩
  all_goals unfold State.unfail State.putMeta; split <;> rfl

theorem SectorsKept.blockDone (s : State) (addr : Nat) (K : List Field) : SectorsKept s (s.blockDone addr) K := by
  unfold State.blockDone
  split
  · exact SectorsKept.refl s K
  · have hgone := fun x y => (SectorsKept.setCache s x K).trans (SectorsKept.setMedia _ y K)
    dsimp only
    split
    · exact (((hgone _ _).trans (SectorsKept.freeWin _ _ K)).trans (SectorsKept.freeHeld _ _ _ _ K)).trans
        (SectorsKept.unfail _ _ _ K)
    · exact ((hgone _ _).trans (SectorsKept.freeHeld _ _ _ _ K)).trans (SectorsKept.unfail _ _ _ K)

theorem SectorsKept.readBack (s : State) (lo : Nat) (K : List Field) : SectorsKept s (s.readBack lo) K :=
  SectorsKept.each (fun s addr => SectorsKept.blockDone s addr K) _ s

/-! ## The pool forgets a sector (05 R143 to R145) -/

/-- An engine's attempt once sector `ref` is decided: one of that sector is discarded. -/
def discardOf (ref : Nat) (rk : Nat × Nat) : Nat × Nat := if rk.1 = ref then (32, rk.2) else rk

theorem State.poolDrop_slots (s : State) (ref : Nat) : (s.poolDrop ref).slots = s.slots := by
  unfold State.poolDrop
  dsimp only
  repeat' split
  all_goals rfl

theorem State.poolDrop_engines (s : State) (ref : Nat) :
    (s.poolDrop ref).pool.engines = s.pool.engines.map fun e => (e.1, discardOf ref e.2) := by
  have hentry : (fun e : Nat × Nat × Nat => (e.1, discardOf ref e.2)) =
      fun e => if e.2.1 = ref then (e.1, (32, e.2.2)) else e := by
    funext e
    unfold discardOf
    split <;> rfl
  rw [hentry]
  unfold State.poolDrop
  dsimp only
  repeat' split
  all_goals rfl

/-! ## The release of a decided sector (05 R151) -/

/-- Attempt `k` of a sector; a timed one at the prediction where the list has none. -/
def Sect.attemptAt (q : Sect) (k : Nat) : Attempt := ((q.attempts.getD [])[k]?).getD ⟨0, 0x3F, .waiting⟩

/-- The record of a sector that attempt `k` decides. -/
def Sect.record (q : Sect) (outcome k iter : Nat) (deep : Bool) : Nat × Nat :=
  (recordLo q.erased q.psi,
    recordHi outcome deep k (q.attemptAt k).hdist (q.attemptAt k).ofs q.retryTag iter)

/-- Entry `e` free, its sector out of the pool, and the record `r` in the slot's FIFO. -/
def State.releaseEntry (s : State) (i e : Nat) (r : Nat × Nat) : State :=
  ((s.modSlot i fun x => { x with sects := SMap.del x.sects e }).poolDrop (2 * i + e)).appendRecord i r.1 r.2

/-- A recovered sector counted. -/
def State.countRecovered (s : State) (i : Nat) (deep recov : Bool) : State :=
  (s.inc (if deep then Reg.CHN_DET_DEEP_OK_COUNT i else Reg.CHN_DET_FAST_OK_COUNT i)).when recov
    (·.inc (Reg.CHN_DET_SYNC_RECOV_COUNT i))

/-- The slot of a dropped sector before its record is appended. -/
theorem State.slot_dropEntry (s : State) (i e : Nat) :
    ((s.modSlot i fun x => { x with sects := SMap.del x.sects e }).poolDrop (2 * i + e)).slot i =
      { s.slot i with sects := SMap.del (s.slot i).sects e } := by
  rw [State.slot, State.poolDrop_slots]
  exact State.slot_modSlot_same s i _

theorem State.appendRecord_of_room {s : State} {i : Nat} (hroom : (s.slot i).fifo.length < 32) (lo hi : Nat) :
    s.appendRecord i lo hi = s.modSlot i fun x => { x with fifo := x.fifo ++ [(lo, hi)] } :=
  if_pos hroom

theorem State.slot_releaseEntry {s : State} {i : Nat} (hroom : (s.slot i).fifo.length < 32) (e : Nat) (r : Nat × Nat) :
    (s.releaseEntry i e r).slot i =
      { s.slot i with sects := SMap.del (s.slot i).sects e, fifo := (s.slot i).fifo ++ [r] } := by
  rw [State.releaseEntry, State.appendRecord_of_room (by rwa [State.slot_dropEntry]), State.slot_modSlot_same,
    State.slot_dropEntry]

theorem State.releaseEntry_f {s : State} {i : Nat} (hroom : (s.slot i).fifo.length < 32) (e : Nat) (r : Nat × Nat) :
    (s.releaseEntry i e r).f = s.f := by
  rw [State.releaseEntry, State.appendRecord_of_room (by rwa [State.slot_dropEntry]), State.modSlot_f, State.poolDrop_f,
    State.modSlot_f]

/-- An engine that is free stays free. -/
theorem State.look_engines_releaseEntry {s : State} {g : Nat} (h : SMap.look s.pool.engines g = none) (i e : Nat)
    (r : Nat × Nat) : SMap.look (s.releaseEntry i e r).pool.engines g = none := by
  have hdrop : (s.releaseEntry i e r).pool.engines = s.pool.engines.map fun p => (p.1, discardOf (2 * i + e) p.2) := by
    refine Eq.trans ?_ (State.poolDrop_engines (s.modSlot i fun x => { x with sects := SMap.del x.sects e }) (2 * i + e))
    unfold State.releaseEntry State.appendRecord
    split <;> rfl
  rw [hdrop, SMap.look_map, h]
  rfl

/-! ## The decision -/

/-- A recovered sector: released, counted, and then its block and STATUS delivered. -/
theorem SectorsKept.decideSector_recovered (s : State) (i e : Nat) (q : Sect) (k iter : Nat) (deep : Bool) (block : Nat) :
    SectorsKept ((s.releaseEntry i e (q.record 0 k iter deep)).countRecovered i deep
        (decide (0 < k) || (q.attemptAt k).hdist == 0x3F))
      (s.decideSector i e q 0 k iter deep block) bufErrorFields :=
  ((SectorsKept.bufWrite _ 0 _ _ 4112).trans (SectorsKept.finalStatus _ _ _ _ _)).trans (SectorsKept.readBack _ _ _)

/-- A sector that is not recovered: released, counted, and then its STATUS delivered. -/
theorem SectorsKept.decideSector_failed (s : State) (i e : Nat) (q : Sect) {outcome : Nat} (hout : outcome ≠ 0) (k iter : Nat)
    (deep : Bool) (block : Nat) :
    SectorsKept ((s.releaseEntry i e (q.record outcome k iter deep)).inc (Reg.CHN_DET_FAILED_COUNT i))
      (s.decideSector i e q outcome k iter deep block) bufErrorFields := by
  unfold State.decideSector
  dsimp only
  rw [if_neg hout]
  exact SectorsKept.finalStatus _ _ _ _ _

theorem State.countRecovered_slots (s : State) (i : Nat) (deep recov : Bool) :
    (s.countRecovered i deep recov).slots = s.slots := by
  unfold State.countRecovered State.when
  split <;> rfl

theorem State.countRecovered_pool (s : State) (i : Nat) (deep recov : Bool) : (s.countRecovered i deep recov).pool = s.pool := by
  unfold State.countRecovered State.when
  split <;> rfl

/-- The slots and the pool of a decided sector are those of its release. -/
theorem State.decideSector_slots_pool (s : State) (i e : Nat) (q : Sect) (outcome k iter : Nat) (deep : Bool) (block : Nat) :
    (s.decideSector i e q outcome k iter deep block).slots = (s.releaseEntry i e (q.record outcome k iter deep)).slots ∧
      (s.decideSector i e q outcome k iter deep block).pool = (s.releaseEntry i e (q.record outcome k iter deep)).pool := by
  by_cases hout : outcome = 0
  · subst hout
    obtain ⟨hslots, hpool, -⟩ := SectorsKept.decideSector_recovered s i e q k iter deep block
    exact ⟨hslots.trans (State.countRecovered_slots _ _ _ _), hpool.trans (State.countRecovered_pool _ _ _ _)⟩
  · obtain ⟨hslots, hpool, -⟩ := SectorsKept.decideSector_failed s i e q hout k iter deep block
    exact ⟨hslots, hpool⟩

/-- A decided sector's entry is free and its record the last of the FIFO. -/
theorem State.slot_decideSector {s : State} {i : Nat} (hroom : (s.slot i).fifo.length < 32) (e : Nat) (q : Sect)
    (outcome k iter : Nat) (deep : Bool) (block : Nat) :
    (s.decideSector i e q outcome k iter deep block).slot i =
      { s.slot i with
        sects := SMap.del (s.slot i).sects e
        fifo := (s.slot i).fifo ++ [q.record outcome k iter deep] } := by
  rw [State.slot, (State.decideSector_slots_pool s i e q outcome k iter deep block).1]
  exact State.slot_releaseEntry hroom e _

theorem State.look_engines_decideSector {s : State} {g : Nat} (h : SMap.look s.pool.engines g = none) (i e : Nat) (q : Sect)
    (outcome k iter : Nat) (deep : Bool) (block : Nat) :
    SMap.look (s.decideSector i e q outcome k iter deep block).pool.engines g = none := by
  rw [(State.decideSector_slots_pool s i e q outcome k iter deep block).2]
  exact State.look_engines_releaseEntry h i e _

/-! ## The counts of a decision -/

/-- The register fields that the decision of a sector of slot `i` may change, where its FIFO has room. -/
def decisionFields (i : Nat) : List Field :=
  [Reg.CHN_DET_FAST_OK_COUNT i, Reg.CHN_DET_DEEP_OK_COUNT i, Reg.CHN_DET_SYNC_RECOV_COUNT i,
    Reg.CHN_DET_FAILED_COUNT i] ++ bufErrorFields

/-- No two of those fields share a key. -/
theorem decisionFields_keys_nodup (i : Nat) : ((decisionFields i).map Field.key).Nodup := by
  simp only [decisionFields, bufErrorFields, List.cons_append, List.nil_append, List.map_cons, List.map_nil, Field.key,
    Reg.CHN_DET_FAST_OK_COUNT, Reg.CHN_DET_DEEP_OK_COUNT, Reg.CHN_DET_SYNC_RECOV_COUNT, Reg.CHN_DET_FAILED_COUNT,
    Reg.BUF_CE_CNT_COUNT, Reg.BUF_UE_CNT_COUNT, Reg.BUF_UE_FIRST_VALID, Reg.BUF_UE_FIRST_BURST, List.nodup_cons,
    List.mem_cons, List.not_mem_nil, or_false, not_or, not_false_eq_true, List.nodup_nil, and_true]
  omega

theorem fastOk_key_not_mem (i : Nat) :
    (Reg.CHN_DET_FAST_OK_COUNT i).key ∉ (Reg.CHN_DET_SYNC_RECOV_COUNT i :: bufErrorFields).map Field.key := by
  have h := (List.nodup_cons.mp (decisionFields_keys_nodup i)).1
  refine fun hmem => h (List.map_subset _ (fun F hF => ?_) hmem)
  rcases List.mem_cons.mp hF with rfl | hF
  · simp
  · simp [hF]

theorem failed_key_not_mem (i : Nat) : (Reg.CHN_DET_FAILED_COUNT i).key ∉ bufErrorFields.map Field.key := by
  have h : ((Reg.CHN_DET_FAILED_COUNT i).key :: bufErrorFields.map Field.key).Nodup :=
    (decisionFields_keys_nodup i).sublist ((List.drop_sublist 3 (decisionFields i)).map Field.key)
  exact (List.nodup_cons.mp h).1

theorem FieldsKept.countRecovered (s : State) (i : Nat) (deep recov : Bool) :
    FieldsKept s (s.countRecovered i deep recov) (decisionFields i) := by
  have hok : FieldsKept s (s.inc (if deep then Reg.CHN_DET_DEEP_OK_COUNT i else Reg.CHN_DET_FAST_OK_COUNT i))
      (decisionFields i) :=
    (FieldsKept.refl s _).incBy _ 1 (by cases deep <;> simp [decisionFields])
  unfold State.countRecovered State.when
  split
  · exact hok.incBy _ 1 (by simp [decisionFields])
  · exact hok

/-- A decision leaves every register field but its counts and those of the buffer's errors. -/
theorem FieldsKept.decideSector {s : State} {i : Nat} (hroom : (s.slot i).fifo.length < 32) (e : Nat) (q : Sect)
    (outcome k iter : Nat) (deep : Bool) (block : Nat) :
    FieldsKept s (s.decideSector i e q outcome k iter deep block) (decisionFields i) := by
  have hrelease : FieldsKept s (s.releaseEntry i e (q.record outcome k iter deep)) (decisionFields i) :=
    FieldsKept.of_f (State.releaseEntry_f hroom e _) _
  have herr : bufErrorFields ⊆ decisionFields i := List.subset_append_right _ _
  by_cases hout : outcome = 0
  · subst hout
    exact (hrelease.trans (FieldsKept.countRecovered _ i deep _)).trans
      ((SectorsKept.decideSector_recovered s i e q k iter deep block).fields.mono herr)
  · exact (hrelease.incBy (Reg.CHN_DET_FAILED_COUNT i) 1 (by simp [decisionFields])).trans
      ((SectorsKept.decideSector_failed s i e q hout k iter deep block).fields.mono herr)

/-- A sector that the fast path recovers counts in FAST_OK. -/
theorem State.get_fastOk_decideSector {s : State} {i : Nat} (hroom : (s.slot i).fifo.length < 32) (e : Nat) (q : Sect)
    (k iter block : Nat) :
    (s.decideSector i e q 0 k iter false block).get (Reg.CHN_DET_FAST_OK_COUNT i) =
      s.counted (Reg.CHN_DET_FAST_OK_COUNT i) 1 := by
  have hkey := fastOk_key_not_mem i
  rw [List.map_cons, List.mem_cons, not_or] at hkey
  obtain ⟨hrecov, herr⟩ := hkey
  rw [(SectorsKept.decideSector_recovered s i e q k iter false block).fields _ herr]
  have hcount := (State.get_incBy_same (s.releaseEntry i e (q.record 0 k iter false)) (Reg.CHN_DET_FAST_OK_COUNT i) 1).trans
    (State.counted_congr (State.get_of_f (State.releaseEntry_f hroom e _) _) 1)
  unfold State.countRecovered State.when
  split
  · exact (State.get_incBy_ne _ _ 1 hrecov).trans hcount
  · exact hcount

/-- A sector that is not recovered counts in FAILED. -/
theorem State.get_failed_decideSector {s : State} {i : Nat} (hroom : (s.slot i).fifo.length < 32) (e : Nat) (q : Sect)
    {outcome : Nat} (hout : outcome ≠ 0) (k iter : Nat) (deep : Bool) (block : Nat) :
    (s.decideSector i e q outcome k iter deep block).get (Reg.CHN_DET_FAILED_COUNT i) =
      s.counted (Reg.CHN_DET_FAILED_COUNT i) 1 := by
  rw [(SectorsKept.decideSector_failed s i e q hout k iter deep block).fields _ (failed_key_not_mem i)]
  exact (State.get_incBy_same _ _ 1).trans (State.counted_congr (State.get_of_f (State.releaseEntry_f hroom e _) _) 1)

end Sys2Proof.Machine
end

