-- ==== Sys2Proof/Proofs/Decoding.lean ====
section
/-! SUPPORT. Decoding (05 R141 to R147, R151): the SRAM reads of an attempt, the end of attempt 0, the attempts of a second look,
and the reads of the record FIFO. -/

namespace Sys2Proof.Machine

/-! ## The SRAM reads of an attempt (21 R529) -/

/-- The counts of corrected and of uncorrectable SRAM words. -/
def sramCountFields : List Field := [Reg.BUF_SRAM_CE_COUNT, Reg.BUF_SRAM_UE_COUNT]

theorem SectorsKept.sramRead (s : State) (inst word : Nat) : SectorsKept s (s.sramRead inst word).2 sramCountFields := by
  have hrewrite : SectorsKept s (s.sramRewrite inst word) sramCountFields :=
    ⟨rfl, rfl, FieldsKept.of_f (State.sramRewrite_f s inst word) _⟩
  unfold State.sramRead
  split
  · exact SectorsKept.refl s _
  · exact hrewrite.inc _ (by simp [sramCountFields])
  · exact (SectorsKept.refl s _).inc _ (by simp [sramCountFields])

theorem SectorsKept.sramReadAll (s : State) (inst : Nat) (ws : List Nat) :
    SectorsKept s (s.sramReadAll inst ws).2 sramCountFields := by
  induction ws generalizing s with
  | nil => exact SectorsKept.refl s _
  | cons w ws ih => exact (SectorsKept.sramRead s inst w).trans (ih _)

theorem SectorsKept.sramUse (s : State) (inst : Nat) (p : Nat → Bool) :
    SectorsKept s (s.sramUse inst p).2 sramCountFields :=
  (SectorsKept.sramReadAll s inst _).trans ⟨rfl, rfl, FieldsKept.of_f (State.sramWritten_f _ inst p) _⟩

/-- What an attempt reads leaves the slots, the pool and every field but the counts of SRAM words. -/
theorem SectorsKept.attemptReads (s : State) (i e inst : Nat) (q : Sect) (upset : Bool) :
    SectorsKept s (s.attemptReads i e inst q upset).2 sramCountFields := by
  have huse : ∀ ws, SectorsKept s ((s.sramReadAll i ws).2.sramUse inst fun _ => true).2 sramCountFields := fun ws =>
    (SectorsKept.sramReadAll s i ws).trans (SectorsKept.sramUse _ inst _)
  unfold State.attemptReads State.when
  dsimp only
  split
  · exact (huse _).inc _ (by simp [sramCountFields])
  · exact huse _

theorem State.flippedWords_of_noFlips {s : State} (h : s.buf.flips = []) (inst : Nat) (p : Nat → Bool) :
    s.flippedWords inst p = [] := by
  rw [State.flippedWords, h]
  rfl

theorem State.sramUse_of_noFlips {s : State} (h : s.buf.flips = []) (inst : Nat) (p : Nat → Bool) :
    s.sramUse inst p = (true, s) := by
  have hwritten : s.sramWritten inst p = s := by
    have hbuf : { s.buf with flips := SMap.keep s.buf.flips fun k => !(k / 2 ^ 22 == inst && p (k % 2 ^ 22)) } = s.buf := by
      rw [h, SMap.keep, List.filter_nil, ← h]
    rw [State.sramWritten, hbuf]
    rfl
  rw [State.sramUse, State.flippedWords_of_noFlips h]
  exact congrArg (Prod.mk true) hwritten

/-- Where no SRAM bit is flipped an attempt meets no bad word but the upset of its own. -/
theorem State.attemptReads_of_noFlips {s : State} (h : s.buf.flips = []) (i e inst : Nat) (q : Sect) (upset : Bool) :
    s.attemptReads i e inst q upset = (!upset, s.when upset (·.inc Reg.BUF_SRAM_UE_COUNT)) := by
  simp only [State.attemptReads, State.flippedWords_of_noFlips h, State.sramReadAll, State.sramUse_of_noFlips h, Bool.true_and]

/-! ## The end of attempt 0 (05 R142) -/

/-- The outcome and ITER of attempt 0 from good SRAMs. -/
def State.fastOutcome (s : State) (i e : Nat) (q : Sect) : Nat × Nat :=
  attemptOutcome (wantHeader q.req q.band) (schedMax q.sched) (s.fastResult i e q)

/-- A sector that attempt 0 failed with `o` enters the second look. -/
def State.enterPool (s : State) (i e : Nat) (o : Nat × Nat) : State :=
  let t := s.modSect i e fun q => { q with fast := some o, deep := true }
  if 32 ≤ s.pool.queue.length then t.setPool { t.pool with waiting := t.pool.waiting ++ [2 * i + e] }
  else t.setPool { t.pool with queue := t.pool.queue ++ [2 * i + e] }

/-- Attempt 0 of sector `q` ends with `o`, having decoded `block`. -/
def State.endFast (s : State) (i e : Nat) (q : Sect) (o : Nat × Nat) (block : Nat) : State :=
  if o.1 = 0 then s.decideSector i e q 0 0 o.2 false block
  else if q.secondLook then s.enterPool i e o
  else s.decideSector i e q o.1 0 o.2 false 0

theorem State.endFast_of_recovered (s : State) (i e : Nat) (q : Sect) {o : Nat × Nat} (h : o.1 = 0) (block : Nat) :
    s.endFast i e q o block = s.decideSector i e q 0 0 o.2 false block :=
  if_pos h

theorem State.endFast_of_failed (s : State) (i e : Nat) {q : Sect} {o : Nat × Nat} (h : o.1 ≠ 0) (hlook : q.secondLook = false)
    (block : Nat) : s.endFast i e q o block = s.decideSector i e q o.1 0 o.2 false 0 := by
  rw [State.endFast, if_neg h, if_neg (by simp [hlook])]

theorem State.endFast_of_secondLook (s : State) (i e : Nat) {q : Sect} {o : Nat × Nat} (h : o.1 ≠ 0)
    (hlook : q.secondLook = true) (block : Nat) : s.endFast i e q o block = s.enterPool i e o := by
  rw [State.endFast, if_neg h, if_pos hlook]

theorem State.draw_zero (s : State) : s.draw 0 = s := rfl

section FastPath
variable {i : Fin 16} {e : Fin 2} {q : Sect} {s : State}

/-- FAST_PATH_DONE of a captured sector whose attempt 0 has not ended: what the attempt reads, then its end. -/
theorem execFastPathDone_of_ready (hq : SMap.look (s.slot i.val).sects e.val = some q) (hcap : q.captured = true)
    (hatt : q.attempts.isSome = true) (hfast : q.fast = none) (upset : Bool) {r : Bool × State}
    (hr : s.attemptReads i.val e.val (58 + i.val) q upset = r) :
    execFastPathDone i e upset s = .next ((r.2.draw (b2n (!r.1))).endFast i.val e.val q
      (if r.1 then s.fastOutcome i.val e.val q else (1, Config.freeValue r.2.free % (schedMax q.sched + 1)))
      (s.fastResult i.val e.val q).block) := by
  have hpending : (!q.captured || q.attempts.isNone || q.fast.isSome) = false := by
    simp [hcap, hfast, Option.isNone_eq_false_iff.mpr hatt]
  simp only [execFastPathDone, hq, hpending, hr, State.endFast, State.enterPool, State.fastOutcome, decide_eq_true_eq,
    Bool.false_eq_true, if_false]
  rfl

theorem execFastPathDone_of_noFlips (hq : SMap.look (s.slot i.val).sects e.val = some q) (hcap : q.captured = true)
    (hatt : q.attempts.isSome = true) (hfast : q.fast = none) (hflips : s.buf.flips = []) :
    execFastPathDone i e false s =
      .next (s.endFast i.val e.val q (s.fastOutcome i.val e.val q) (s.fastResult i.val e.val q).block) :=
  (execFastPathDone_of_ready hq hcap hatt hfast false (State.attemptReads_of_noFlips hflips _ _ _ _ _)).trans (by
    simp only [Bool.not_false, Bool.not_true, State.when, Bool.false_eq_true, if_false, if_true, b2n_false, State.draw_zero])

/-- An uncorrectable word that attempt 0 meets puts a sector with the second look on in the pool, as failed. -/
theorem execFastPathDone_of_uncorrectable (hq : SMap.look (s.slot i.val).sects e.val = some q) (hcap : q.captured = true)
    (hatt : q.attempts.isSome = true) (hfast : q.fast = none) {upset : Bool} {r : Bool × State}
    (hr : s.attemptReads i.val e.val (58 + i.val) q upset = r) (hbad : r.1 = false) (hlook : q.secondLook = true) :
    execFastPathDone i e upset s = .next ((r.2.draw 1).enterPool i.val e.val
      (1, Config.freeValue r.2.free % (schedMax q.sched + 1))) := by
  rw [execFastPathDone_of_ready hq hcap hatt hfast upset hr, hbad, if_neg Bool.false_ne_true,
    State.endFast_of_secondLook _ _ _ (o := (1, _)) Nat.one_ne_zero hlook]
  rfl

end FastPath

/-! ## The second look (05 R143, R144) -/

theorem State.modSect_pool (s : State) (i e : Nat) (g : Sect → Sect) : (s.modSect i e g).pool = s.pool := by
  unfold State.modSect
  split <;> rfl

theorem State.look_enterPool {s : State} {i e : Nat} {q : Sect} (hq : SMap.look (s.slot i).sects e = some q) (o : Nat × Nat) :
    SMap.look ((s.enterPool i e o).slot i).sects e = some { q with fast := some o, deep := true } := by
  unfold State.enterPool
  dsimp only
  split
  · exact State.look_modSect_same hq _
  · exact State.look_modSect_same hq _

theorem State.enterPool_f (s : State) (i e : Nat) (o : Nat × Nat) : (s.enterPool i e o).f = s.f := by
  simp [State.enterPool]

theorem State.enterPool_mem (s : State) (i e : Nat) (o : Nat × Nat) : (s.enterPool i e o).mem = s.mem := by
  simp [State.enterPool]

theorem State.pool_enterPool_of_room {s : State} (h : s.pool.queue.length < 32) (i e : Nat) (o : Nat × Nat) :
    (s.enterPool i e o).pool = { s.pool with queue := s.pool.queue ++ [2 * i + e] } := by
  simp only [State.enterPool, if_neg (not_le.mpr h), State.modSect_pool, State.setPool]

theorem State.pool_enterPool_of_full {s : State} (h : 32 ≤ s.pool.queue.length) (i e : Nat) (o : Nat × Nat) :
    (s.enterPool i e o).pool = { s.pool with waiting := s.pool.waiting ++ [2 * i + e] } := by
  simp only [State.enterPool, if_pos h, State.modSect_pool, State.setPool]

theorem execDeepAttemptStart_of_next {g : Fin 8} {rk : Nat × Nat} {s : State} (huse : g.val < s.get Reg.CHN_DP_CTL_ENGINES)
    (hfree : SMap.look s.pool.engines g.val = none) (hnext : s.nextAttempt s.pool.queue = some rk) :
    execDeepAttemptStart g s =
      .next ((s.setAttempt rk.1 rk.2 .running).setPool { s.pool with engines := SMap.set s.pool.engines g.val rk }) := by
  simp only [execDeepAttemptStart, huse, hfree, hnext, decide_true, Option.isNone_none, Bool.and_self, if_true]

theorem execDeepAttemptStart_of_unused {g : Fin 8} {s : State} (h : s.get Reg.CHN_DP_CTL_ENGINES ≤ g.val) :
    execDeepAttemptStart g s = .next s := by
  simp only [execDeepAttemptStart, not_lt.mpr h, decide_false, Bool.false_and, Bool.false_eq_true, if_false]

/-! ## The end of an attempt of a second look (05 R143, R147) -/

/-- The outcome and ITER of attempt `k` of a second look from good SRAMs. -/
def State.deepOutcome (s : State) (i e k : Nat) (q : Sect) : Nat × Nat :=
  attemptOutcome (wantHeader q.req q.band) 80 (s.deepResult i e k q)

/-- Engine `g` free and its attempt counted. -/
def State.freeEngine (s : State) (g : Nat) : State :=
  (s.setPool { s.pool with engines := SMap.del s.pool.engines g }).inc Reg.CHN_DP_ATTEMPTS_COUNT

/-- Engine `g` free, its attempt counted, and the uncorrectable word that it met. -/
def State.freeUpset (s : State) (g : Nat) : State := ((s.freeEngine g).inc Reg.BUF_SRAM_UE_COUNT).draw 1

theorem State.free_countUpset (s : State) (g : Nat) : ((s.freeEngine g).inc Reg.BUF_SRAM_UE_COUNT).free = s.free := rfl

/-- Attempt `k` of the sector at `ref` noted as ended with `o`, and the block of a success kept. -/
def State.noteAttempt (s : State) (ref k : Nat) (o : Nat × Nat) (block : Nat) : State :=
  (s.setAttempt ref k (.ended o.1 o.2)).when (o.1 == 0) fun s =>
    s.setPool { s.pool with blocks := SMap.set s.pool.blocks (8 * ref + k) block }

/-- Sector `q` with attempt `k` ended with `o`. -/
def Sect.endAttempt (q : Sect) (k : Nat) (o : Nat × Nat) : Sect :=
  { q with attempts := q.attempts.map (fun l => modAt l k (fun a => { a with st := .ended o.1 o.2 })) }

/-- The sector at `ref` decided, where its attempts decide it. -/
def State.settleSector (s : State) (ref : Nat) (q : Sect) : State :=
  match decidedBy (s.attemptsOf ref) 0 with
  | some ki => s.decideSector (ref / 2) (ref % 2) q 0 ki.1 ki.2 true (SMap.get s.pool.blocks 0 (8 * ref + ki.1))
  | none =>
    if allEnded (s.attemptsOf ref) then
      s.decideSector (ref / 2) (ref % 2) q (worstOf (s.attemptsOf ref) 0 (0, 0, 0)).1
        (worstOf (s.attemptsOf ref) 0 (0, 0, 0)).2.1 (worstOf (s.attemptsOf ref) 0 (0, 0, 0)).2.2 true 0
    else s

/-- An attempt's result depends on its slot and the buffer's flipped bits alone. -/
theorem State.deepResult_congr {s t : State} {i : Nat} (hslot : t.slot i = s.slot i) (hbuf : t.buf = s.buf) (e k : Nat)
    (q : Sect) : t.deepResult i e k q = s.deepResult i e k q := by
  have hsample : ∀ el c, t.entrySample i e el c = s.entrySample i e el c := fun el c => by
    rw [State.entrySample, State.entrySample, State.sramFlips, State.sramFlips, hslot, hbuf]
  simp only [State.deepResult, State.detect, State.equalised, State.stretchSamples, hsample]

section DeepAttempt
variable {g : Fin 8} {ref k : Nat} {q : Sect} {s : State}

/-- DEEP_ATTEMPT_DONE of a running attempt of an undecided sector: the engine freed, the attempt noted, the sector settled. -/
theorem execDeepAttemptDone_of_running (hrun : SMap.look s.pool.engines g.val = some (ref, k))
    (hq : SMap.look (s.slot (ref / 2)).sects (ref % 2) = some q) (upset : Bool) {r : Bool × State}
    (hr : (s.freeEngine g.val).attemptReads (ref / 2) (ref % 2) (74 + g.val) q upset = r) :
    execDeepAttemptDone g upset s =
      .next (((r.2.draw (b2n (!r.1))).noteAttempt ref k
        (if r.1 then s.deepOutcome (ref / 2) (ref % 2) k q else (1, Config.freeValue r.2.free % 81))
        (s.deepResult (ref / 2) (ref % 2) k q).block).settleSector ref q) := by
  have hq' : SMap.look ((s.freeEngine g.val).slot (ref / 2)).sects (ref % 2) = some q := hq
  have hres : (s.freeEngine g.val).deepResult (ref / 2) (ref % 2) k q = s.deepResult (ref / 2) (ref % 2) k q :=
    State.deepResult_congr rfl rfl _ _ _
  rw [State.freeEngine] at hq' hr hres
  simp only [execDeepAttemptDone, hrun, hq', hr, hres, State.deepOutcome, State.noteAttempt, State.settleSector]
  rfl

theorem execDeepAttemptDone_of_noFlips (hrun : SMap.look s.pool.engines g.val = some (ref, k))
    (hq : SMap.look (s.slot (ref / 2)).sects (ref % 2) = some q) (hflips : s.buf.flips = []) :
    execDeepAttemptDone g false s =
      .next (((s.freeEngine g.val).noteAttempt ref k (s.deepOutcome (ref / 2) (ref % 2) k q)
        (s.deepResult (ref / 2) (ref % 2) k q).block).settleSector ref q) :=
  (execDeepAttemptDone_of_running hrun hq false
    (State.attemptReads_of_noFlips (s := s.freeEngine g.val) hflips _ _ _ _ _)).trans (by
      simp only [Bool.not_false, Bool.not_true, State.when, Bool.false_eq_true, if_false, if_true, b2n_false,
        State.draw_zero])

/-- An upset of the decoder's memory is counted and ends the attempt as failed. -/
theorem execDeepAttemptDone_of_upset (hrun : SMap.look s.pool.engines g.val = some (ref, k))
    (hq : SMap.look (s.slot (ref / 2)).sects (ref % 2) = some q) (hflips : s.buf.flips = []) :
    execDeepAttemptDone g true s =
      .next (((s.freeUpset g.val).noteAttempt ref k (1, Config.freeValue s.free % 81)
        (s.deepResult (ref / 2) (ref % 2) k q).block).settleSector ref q) :=
  (execDeepAttemptDone_of_running hrun hq true
    (State.attemptReads_of_noFlips (s := s.freeEngine g.val) hflips _ _ _ _ _)).trans (by
      simp only [Bool.not_false, Bool.not_true, State.when, Bool.false_eq_true, if_false, if_true, b2n_true,
        State.free_countUpset, State.freeUpset])

end DeepAttempt

/-! ## The noted attempt -/

section NotedAttempt
variable (s : State) (ref k : Nat) (o : Nat × Nat) (block : Nat)

theorem State.noteAttempt_slots : (s.noteAttempt ref k o block).slots = (s.setAttempt ref k (.ended o.1 o.2)).slots := by
  unfold State.noteAttempt State.when
  split <;> rfl

theorem State.noteAttempt_f : (s.noteAttempt ref k o block).f = s.f := by
  simp [State.noteAttempt]

theorem State.noteAttempt_mem : (s.noteAttempt ref k o block).mem = s.mem := by
  simp [State.noteAttempt]

theorem State.noteAttempt_queue : (s.noteAttempt ref k o block).pool.queue = s.pool.queue := by
  have hqueue : (s.setAttempt ref k (.ended o.1 o.2)).pool.queue = s.pool.queue :=
    congrArg Pool.queue (State.modSect_pool s _ _ _)
  unfold State.noteAttempt State.when
  split
  · exact hqueue
  · exact hqueue

theorem State.noteAttempt_engines : (s.noteAttempt ref k o block).pool.engines = s.pool.engines := by
  have hengines : (s.setAttempt ref k (.ended o.1 o.2)).pool.engines = s.pool.engines :=
    congrArg Pool.engines (State.modSect_pool s _ _ _)
  unfold State.noteAttempt State.when
  split
  · exact hengines
  · exact hengines

end NotedAttempt

/-- The slot of a noted attempt: its state in the sector's list, and nothing else. -/
theorem State.slot_noteAttempt {s : State} {ref : Nat} {q : Sect}
    (hq : SMap.look (s.slot (ref / 2)).sects (ref % 2) = some q) (k : Nat) (o : Nat × Nat) (block : Nat) :
    (s.noteAttempt ref k o block).slot (ref / 2) =
      { s.slot (ref / 2) with sects := SMap.set (s.slot (ref / 2)).sects (ref % 2) (q.endAttempt k o) } := by
  rw [State.slot, State.noteAttempt_slots]
  simp only [State.setAttempt, State.modSect, hq]
  exact State.slot_modSlot_same s _ _

theorem State.attemptsOf_noteAttempt {s : State} {ref : Nat} {q : Sect}
    (hq : SMap.look (s.slot (ref / 2)).sects (ref % 2) = some q) {l : List Attempt} (hl : q.attempts = some l) (k : Nat)
    (o : Nat × Nat) (block : Nat) :
    (s.noteAttempt ref k o block).attemptsOf ref = modAt l k fun a => { a with st := .ended o.1 o.2 } := by
  simp [State.attemptsOf, State.slot_noteAttempt hq, Sect.endAttempt, hl]

/-- While the lowest attempt waits, the end of a later one decides nothing. -/
theorem State.settleSector_of_waiting {s : State} {ref : Nat} {a : Attempt} {l : List Attempt}
    (hl : s.attemptsOf ref = a :: l) (ha : a.st = .waiting) (q : Sect) : s.settleSector ref q = s := by
  simp [State.settleSector, hl, decidedBy, allEnded, ha]

theorem Sect.attempts_of_head {q : Sect} {a : Attempt} (h : (q.attempts.getD [])[0]? = some a) :
    ∃ l, q.attempts = some (a :: l) := by
  match hq : q.attempts with
  | none => simp [hq] at h
  | some [] => simp [hq] at h
  | some (b :: l) =>
    obtain rfl : b = a := by simpa [hq] using h
    exact ⟨l, rfl⟩

/-- The end of a later attempt while the lowest waits is noted, and does no more. -/
theorem State.settleSector_noteAttempt_of_waiting {s : State} {ref k : Nat} {q : Sect} {a : Attempt}
    (hq : SMap.look (s.slot (ref / 2)).sects (ref % 2) = some q) (hhead : (q.attempts.getD [])[0]? = some a)
    (ha : a.st = .waiting) (hk : 0 < k) (o : Nat × Nat) (block : Nat) :
    (s.noteAttempt ref k o block).settleSector ref q = s.noteAttempt ref k o block := by
  obtain ⟨l, hl⟩ := Sect.attempts_of_head hhead
  obtain ⟨j, rfl⟩ := Nat.exists_eq_succ_of_ne_zero hk.ne'
  exact State.settleSector_of_waiting (State.attemptsOf_noteAttempt hq hl (j + 1) o block) ha q

/-- The end of a sector's only attempt decides it with that attempt's outcome. -/
theorem State.settleSector_of_single {s : State} {ref : Nat} {a : Attempt} {o : Nat × Nat} (hl : s.attemptsOf ref = [a])
    (ha : a.st = .ended o.1 o.2) (q : Sect) :
    ∃ block, s.settleSector ref q = s.decideSector (ref / 2) (ref % 2) q o.1 0 o.2 true block := by
  obtain ⟨outcome, iter⟩ := o
  cases outcome with
  | zero => exact ⟨SMap.get s.pool.blocks 0 (8 * ref + 0), by simp only [State.settleSector, hl, decidedBy, ha]⟩
  | succ n => exact ⟨0, by simp [State.settleSector, hl, decidedBy, ha, allEnded, worstOf]⟩

theorem Sect.attemptAt_of_single {q : Sect} {a : Attempt} (h : q.attempts = some [a]) : q.attemptAt 0 = a := by
  simp [Sect.attemptAt, h]

section OnlyAttempt
variable {s : State} {ref : Nat} {q : Sect} {a : Attempt}

/-- A sector's only attempt ends: the slot as the decision leaves it, the engines and the register fields. -/
theorem State.settleSector_noteAttempt_single (hq : SMap.look (s.slot (ref / 2)).sects (ref % 2) = some q)
    (hone : q.attempts = some [a]) (hroom : (s.slot (ref / 2)).fifo.length < 32) (o : Nat × Nat) (block : Nat) {t : State}
    (ht : (s.noteAttempt ref 0 o block).settleSector ref q = t) :
    SMap.look (t.slot (ref / 2)).sects (ref % 2) = none ∧
      (t.slot (ref / 2)).fifo = (s.slot (ref / 2)).fifo ++ [q.record o.1 0 o.2 true] ∧
      (∀ g, SMap.look s.pool.engines g = none → SMap.look t.pool.engines g = none) ∧
      FieldsKept s t (decisionFields (ref / 2)) ∧
      (o.1 ≠ 0 → t.get (Reg.CHN_DET_FAILED_COUNT (ref / 2)) = s.counted (Reg.CHN_DET_FAILED_COUNT (ref / 2)) 1) := by
  obtain ⟨b, hb⟩ := State.settleSector_of_single (o := o) (State.attemptsOf_noteAttempt hq hone 0 o block) rfl q
  have hslot := State.slot_noteAttempt hq 0 o block
  have hf := State.noteAttempt_f s ref 0 o block
  have hroom' : ((s.noteAttempt ref 0 o block).slot (ref / 2)).fifo.length < 32 := by rwa [hslot]
  have hdecided := State.slot_decideSector hroom' (ref % 2) q o.1 0 o.2 true b
  rw [hb] at ht
  subst ht
  refine ⟨?_, ?_, fun g hg => ?_, ?_, fun hout => ?_⟩
  · rw [hdecided]
    exact SMap.look_del_same _ _
  · rw [hdecided, hslot]
  · refine State.look_engines_decideSector ?_ _ _ _ _ _ _ _ _
    rwa [State.noteAttempt_engines]
  · exact (FieldsKept.of_f hf _).trans (FieldsKept.decideSector hroom' _ _ _ _ _ _ _)
  · exact (State.get_failed_decideSector hroom' _ q hout _ _ _ _).trans
      (State.counted_congr (State.get_of_f hf _) 1)

end OnlyAttempt

/-! ## The counts of an ended attempt -/

theorem State.look_engines_freeEngine (s : State) (g : Nat) : SMap.look (s.freeEngine g).pool.engines g = none :=
  SMap.look_del_same _ _

theorem State.get_attempts_freeEngine (s : State) (g : Nat) :
    (s.freeEngine g).get Reg.CHN_DP_ATTEMPTS_COUNT = s.counted Reg.CHN_DP_ATTEMPTS_COUNT 1 :=
  State.get_incBy_same _ _ 1

theorem FieldsKept.freeEngine (s : State) (g : Nat) : FieldsKept s (s.freeEngine g) [Reg.CHN_DP_ATTEMPTS_COUNT] :=
  (FieldsKept.of_f (State.setPool_f s _) _).incBy _ 1 (by simp)

/-- A decision changes neither the count of attempts nor that of uncorrectable SRAM words. -/
theorem attempts_sramUe_not_mem (i : Nat) : Reg.CHN_DP_ATTEMPTS_COUNT.key ∉ (decisionFields i).map Field.key ∧
    Reg.BUF_SRAM_UE_COUNT.key ∉ (decisionFields i).map Field.key := by
  simp only [decisionFields, bufErrorFields, List.cons_append, List.nil_append, List.map_cons, List.map_nil, Field.key,
    Reg.CHN_DET_FAST_OK_COUNT, Reg.CHN_DET_DEEP_OK_COUNT, Reg.CHN_DET_SYNC_RECOV_COUNT, Reg.CHN_DET_FAILED_COUNT,
    Reg.BUF_CE_CNT_COUNT, Reg.BUF_UE_CNT_COUNT, Reg.BUF_UE_FIRST_VALID, Reg.BUF_UE_FIRST_BURST,
    Reg.CHN_DP_ATTEMPTS_COUNT, Reg.BUF_SRAM_UE_COUNT, List.mem_cons, List.not_mem_nil, or_false, not_or]
  omega

theorem FieldsKept.freeUpset (s : State) (g : Nat) :
    FieldsKept s (s.freeUpset g) [Reg.CHN_DP_ATTEMPTS_COUNT, Reg.BUF_SRAM_UE_COUNT] :=
  ((FieldsKept.freeEngine s g).mono (by simp)).incBy Reg.BUF_SRAM_UE_COUNT 1 (by simp)

theorem State.get_sramUe_freeUpset (s : State) (g : Nat) :
    (s.freeUpset g).get Reg.BUF_SRAM_UE_COUNT = s.counted Reg.BUF_SRAM_UE_COUNT 1 :=
  (State.get_incBy_same (s.freeEngine g) Reg.BUF_SRAM_UE_COUNT 1).trans
    (State.counted_congr (FieldsKept.freeEngine s g _ (by decide)) 1)

/-- The count of failed sectors is neither of those that an upset attempt raises. -/
theorem failed_not_mem_freeUpset (i : Nat) : (Reg.CHN_DET_FAILED_COUNT i).key ∉
    [Reg.CHN_DP_ATTEMPTS_COUNT, Reg.BUF_SRAM_UE_COUNT].map Field.key := by
  simp only [List.map_cons, List.map_nil, Field.key, Reg.CHN_DET_FAILED_COUNT, Reg.CHN_DP_ATTEMPTS_COUNT,
    Reg.BUF_SRAM_UE_COUNT, List.mem_cons, List.not_mem_nil, or_false, not_or]
  omega

/-! ## The record FIFO (05 R151, 00 R10) -/

section RecordFifo
variable {i : Fin 16} {s : State}

@[simp] theorem State.slot_answer (s : State) (r : Resp) (i : Nat) : (s.answer r).slot i = s.slot i := rfl

@[simp] theorem State.slot_setShadow (s : State) (x : SMap Nat) (i : Nat) : (s.setShadow x).slot i = s.slot i := rfl

theorem execSectLoRead_of_record {lo hi : Nat} {rest : List (Nat × Nat)} (h : (s.slot i.val).fifo = (lo, hi) :: rest) :
    execSectLoRead i s =
      .next (((s.setShadow (SMap.set s.shadow (Reg.CHN_DET_SECT_LO_PSI i.val).addr hi)).modSlot i.val fun x =>
        { x with fifoLatched := true }).answer (.data lo)) := by
  simp only [execSectLoRead, h]

theorem execSectLoRead_of_empty (h : (s.slot i.val).fifo = []) :
    execSectLoRead i s =
      .next (((s.setShadow (SMap.set s.shadow (Reg.CHN_DET_SECT_LO_PSI i.val).addr 0xF0000000)).modSlot i.val fun x =>
        { x with fifoLatched := false }).answer (.data 0)) := by
  simp only [execSectLoRead, h]

/-- The latched upper half gone, and the record that was latched with it. -/
def State.takeLatched (s : State) (i : Nat) : State :=
  let t := s.setShadow (SMap.del s.shadow (Reg.CHN_DET_SECT_LO_PSI i).addr)
  if (s.slot i).fifoLatched then t.modSlot i fun x => { x with fifo := x.fifo.tail, fifoLatched := false } else t

theorem State.slot_takeLatched (s : State) (i : Nat) : ((s.takeLatched i).slot i).fifoLatched = false ∧
    ((s.takeLatched i).slot i).fifo = if (s.slot i).fifoLatched then (s.slot i).fifo.tail else (s.slot i).fifo := by
  by_cases h : (s.slot i).fifoLatched
  · simp only [State.takeLatched, h, if_true, State.slot_modSlot_same]
    exact ⟨trivial, rfl⟩
  · rw [State.takeLatched, if_neg h, if_neg h]
    exact ⟨eq_false_of_ne_true h, rfl⟩

theorem State.shadow_takeLatched (s : State) (i : Nat) :
    (s.takeLatched i).shadow = SMap.del s.shadow (Reg.CHN_DET_SECT_LO_PSI i).addr := by
  unfold State.takeLatched
  dsimp only
  split <;> rfl

theorem execSectHiRead_of_latched {hi : Nat} (h : SMap.look s.shadow (Reg.CHN_DET_SECT_LO_PSI i.val).addr = some hi) :
    execSectHiRead i s = .next ((s.takeLatched i.val).answer (.data hi)) := by
  simp only [execSectHiRead, h]
  rfl

theorem execSectHiRead_of_unlatched (h : SMap.look s.shadow (Reg.CHN_DET_SECT_LO_PSI i.val).addr = none) :
    execSectHiRead i s =
      .next (s.answer (.data (((s.slot i.val).fifo.head?.map Prod.snd).getD 0xF0000000))) := by
  simp only [execSectHiRead, h]

end RecordFifo

/-! ## The statement -/

/-- Settles O13, by the end of attempt 0, the noted attempt of a second look and the sector it decides, and the reads of the
FIFO. -/
theorem decoding : Obligations.Decoding := by
  unfold Obligations.Decoding
  refine ⟨?recovered, ?secondLook, ?failed, ?uncorrectable, ?start, ?unused, ?undecided, ?only, ?onlyUpset, ?loRecord, ?loEmpty,
    ?hiLatched, ?hiUnlatched⟩
  case recovered =>
    intro i e q s hq hcap hatt hfast hflips hroom
    refine ⟨_, execFastPathDone_of_noFlips hq hcap hatt hfast hflips, fun hout => ?_⟩
    rw [State.endFast_of_recovered s _ _ q (o := s.fastOutcome i.val e.val q) hout]
    have hslot := State.slot_decideSector hroom e.val q 0 0 (s.fastOutcome i.val e.val q).2 false
      (s.fastResult i.val e.val q).block
    refine ⟨?_, State.get_fastOk_decideSector hroom _ q _ _ _, ?_⟩
    · rw [hslot]
      exact SMap.look_del_same _ _
    · rw [hslot]
      rfl
  case secondLook =>
    intro i e q s hq hcap hatt hfast hflips hlook
    refine ⟨_, execFastPathDone_of_noFlips hq hcap hatt hfast hflips, fun hout => ?_⟩
    rw [State.endFast_of_secondLook s _ _ (o := s.fastOutcome i.val e.val q) hout hlook]
    exact ⟨State.look_enterPool hq _, fun h => State.pool_enterPool_of_room h _ _ _,
      fun h => State.pool_enterPool_of_full h _ _ _, FieldsKept.of_f (State.enterPool_f _ _ _ _) _,
      BytesKept.of_mem (State.enterPool_mem _ _ _ _)⟩
  case failed =>
    intro i e q s hq hcap hatt hfast hflips hlook hroom
    refine ⟨_, execFastPathDone_of_noFlips hq hcap hatt hfast hflips, fun hout => ?_⟩
    rw [State.endFast_of_failed s _ _ (o := s.fastOutcome i.val e.val q) hout hlook]
    have hslot := State.slot_decideSector hroom e.val q (s.fastOutcome i.val e.val q).1 0
      (s.fastOutcome i.val e.val q).2 false 0
    refine ⟨?_, ?_, State.get_failed_decideSector hroom _ q hout _ _ _ _⟩
    · rw [hslot]
      exact SMap.look_del_same _ _
    · rw [hslot]
      exact List.length_append
  case uncorrectable =>
    intro i e upset q s hq hcap hatt hfast hbad hlook hroom
    have hreads := SectorsKept.attemptReads s i.val e.val (58 + i.val) q upset
    have hq' : SMap.look (((s.attemptReads i.val e.val (58 + i.val) q upset).2.draw 1).slot i.val).sects e.val = some q := by
      rw [← hq, ← hreads.slot i.val]
      rfl
    have hpool : ((s.attemptReads i.val e.val (58 + i.val) q upset).2.draw 1).pool = s.pool := hreads.pool
    refine ⟨_, execFastPathDone_of_uncorrectable hq hcap hatt hfast rfl hbad hlook, ?_, ?_, ?_, ?_⟩
    · rw [State.pool_enterPool_of_room (by rwa [hpool]), hpool]
    · rw [State.look_enterPool hq']
      rfl
    · exact hreads.fields.trans (FieldsKept.of_f (State.enterPool_f _ _ _ _) _)
    · exact BytesKept.of_mem (by simp [State.enterPool_mem])
  case start =>
    intro g r k s huse hfree hnext
    exact ⟨_, execDeepAttemptStart_of_next huse hfree hnext, SMap.look_set_same _ _ _, rfl, FieldsKept.of_f (by simp) _,
      BytesKept.of_mem (by simp)⟩
  case unused => exact fun g s h => ⟨_, execDeepAttemptStart_of_unused h, rfl⟩
  case undecided =>
    intro g ref k q s hflips hrun hq hwaits hk
    have hq' : SMap.look ((s.freeEngine g.val).slot (ref / 2)).sects (ref % 2) = some q := hq
    have hrun' := execDeepAttemptDone_of_noFlips hrun hq hflips
    rw [State.settleSector_noteAttempt_of_waiting hq' hwaits rfl hk] at hrun'
    refine ⟨_, hrun', ?_, State.noteAttempt_queue _ _ _ _ _, ?_, ?_, ?_, ?_, ?_⟩
    · rw [State.noteAttempt_engines]
      exact s.look_engines_freeEngine g.val
    · rw [State.slot_noteAttempt hq']
      rfl
    · exact (State.get_of_f (State.noteAttempt_f _ _ _ _ _) _).trans (s.get_attempts_freeEngine g.val)
    · exact (FieldsKept.freeEngine s g.val).trans (FieldsKept.of_f (State.noteAttempt_f _ _ _ _ _) _)
    · exact BytesKept.of_mem (by simp [State.noteAttempt_mem, State.freeEngine])
    · rw [State.slot_noteAttempt hq']
      exact SMap.look_set_same _ _ _
  case only =>
    intro g ref a q s hflips _ hrun hq hone hroom
    obtain ⟨hsect, hfifo, hengine, hkept, -⟩ := State.settleSector_noteAttempt_single (s := s.freeEngine g.val) hq hone hroom
      (s.deepOutcome (ref / 2) (ref % 2) 0 q) (s.deepResult (ref / 2) (ref % 2) 0 q).block rfl
    refine ⟨_, execDeepAttemptDone_of_noFlips hrun hq hflips, hengine _ (s.look_engines_freeEngine _), hsect, ?_, ?_⟩
    · exact (hkept _ (attempts_sramUe_not_mem _).1).trans (s.get_attempts_freeEngine _)
    · rw [hfifo, Sect.record, Sect.attemptAt_of_single hone]
      rfl
  case onlyUpset =>
    intro g ref a q s hflips _ hrun hq hone hroom
    obtain ⟨hsect, hfifo, hengine, hkept, hfailed⟩ := State.settleSector_noteAttempt_single (s := s.freeUpset g.val) hq hone
      hroom (1, Config.freeValue s.free % 81) (s.deepResult (ref / 2) (ref % 2) 0 q).block rfl
    refine ⟨_, execDeepAttemptDone_of_upset hrun hq hflips, hengine _ (s.look_engines_freeEngine _), hsect, ?_, ?_, ?_⟩
    · exact (hkept _ (attempts_sramUe_not_mem _).2).trans (s.get_sramUe_freeUpset _)
    · exact (hfailed Nat.one_ne_zero).trans
        (State.counted_congr (FieldsKept.freeUpset s g.val _ (failed_not_mem_freeUpset _)) 1)
    · rw [hfifo]
      exact List.length_append
  case loRecord =>
    intro i lo hi rest s h
    refine ⟨_, execSectLoRead_of_record h, rfl, ?_, ?_, SMap.look_set_same _ _ _, FieldsKept.of_f (by simp) _,
      BytesKept.of_mem (by simp)⟩
    · simp only [State.slot_answer, State.slot_modSlot_same]
    · simp only [State.slot_answer, State.slot_modSlot_same, State.slot_setShadow]
  case loEmpty =>
    intro i s h
    refine ⟨_, execSectLoRead_of_empty h, rfl, ?_, SMap.look_set_same _ _ _, FieldsKept.of_f (by simp) _,
      BytesKept.of_mem (by simp)⟩
    simp only [State.slot_answer, State.slot_modSlot_same]
  case hiLatched =>
    intro i hi s h
    obtain ⟨hlatch, hfifo⟩ := s.slot_takeLatched i.val
    refine ⟨_, execSectHiRead_of_latched h, rfl, ?_, hlatch, hfifo, FieldsKept.of_f (by simp [State.takeLatched]) _,
      BytesKept.of_mem (by simp [State.takeLatched])⟩
    rw [State.answer, State.shadow_takeLatched]
    exact SMap.look_del_same _ _
  case hiUnlatched =>
    intro i s h
    exact ⟨_, execSectHiRead_of_unlatched h, rfl, rfl, FieldsKept.of_f rfl _, BytesKept.of_mem rfl⟩

end Sys2Proof.Machine
end

