-- ==== Sys2Proof/Proofs/GateDrops.lean ====
section
/-! SUPPORT. The sources of Table WRP-1 and gate drops (06 R165, R166, R169): what a drop leaves of the slots, the shock island
and the register fields, and what a source that rises does to the slots of its scope. -/

namespace Sys2Proof.Machine

/-! ## Bits of a mask -/

theorem hasBit_eq_testBit (n i : Nat) : hasBit n i = n.testBit i := by
  rw [Nat.testBit_eq_decide_div_mod_eq]
  rfl

theorem hasBit_setBit_same (n i : Nat) : hasBit (setBit n i) i = true := by
  unfold setBit
  split
  · assumption
  · rename_i h
    rw [hasBit_eq_testBit] at h ⊢
    rw [Nat.add_comm, Nat.testBit_two_pow_add_eq, eq_false_of_ne_true h]
    rfl

theorem State.hasBit_setBitOf_same (s : State) {F : Field} {b : Nat} (h : b < F.width) :
    hasBit ((s.setBitOf F b).get F) b = true := by
  rw [State.setBitOf, State.get_put_same, hasBit_eq_testBit, Nat.testBit_mod_two_pow, ← hasBit_eq_testBit, hasBit_setBit_same,
    decide_eq_true h]
  rfl

/-! ## The shock island apart from the buffer and the blocks it holds -/

theorem State.readBurst_shock (s : State) (b : Nat) : (s.readBurst b).2.shock = s.shock := by
  unfold State.readBurst
  split
  · rfl
  · show (s.fixBurst b _ _).shock = s.shock
    unfold State.fixBurst
    dsimp only
    split <;> rfl
  · dsimp only
    split <;> rfl

theorem State.readBursts_shock (s : State) (bs : List Nat) : (s.readBursts bs).2.shock = s.shock := by
  induction bs generalizing s with
  | nil => rfl
  | cons b bs ih => exact (ih _).trans (s.readBurst_shock b)

theorem State.bufRead_shock (s : State) (cls a n : Nat) : (s.bufRead cls a n).2.shock = s.shock := by
  unfold State.bufRead
  split
  · exact State.readBursts_shock _ _
  · rfl

theorem State.writeBurst_shock (s : State) (b lo hi v : Nat) : (s.writeBurst b lo hi v).2.shock = s.shock := by
  unfold State.writeBurst
  split
  · rfl
  · dsimp only
    split <;> exact s.readBurst_shock b

theorem State.writeBursts_shock (s : State) (a n v : Nat) (bs : List Nat) : (s.writeBursts a n v bs).2.shock = s.shock := by
  induction bs generalizing s with
  | nil => rfl
  | cons b bs ih => exact (ih _).trans (State.writeBurst_shock s b _ _ _)

theorem State.bufWrite_shock (s : State) (cls a v n : Nat) : (s.bufWrite cls a v n).2.shock = s.shock := by
  unfold State.bufWrite
  split
  · exact State.writeBursts_shock _ a n v _
  · rfl

theorem State.writeStatus_shock (s : State) (addr st : Nat) : (s.writeStatus addr st).shock = s.shock := by
  have hread := s.bufRead_shock 0 addr 8
  unfold State.writeStatus
  dsimp only
  split
  · exact (State.bufWrite_shock _ _ _ _ _).trans hread
  · exact hread

theorem State.finalStatus_shock (s : State) (a rid idx st : Nat) : (s.finalStatus a rid idx st).shock = s.shock := by
  unfold State.finalStatus
  dsimp only
  split
  · split
    · exact State.writeStatus_shock _ _ _
    · rfl
  · rfl

theorem State.freeWin_shock (s : State) (i : Nat) : (s.freeWin i).shock = s.shock := by
  unfold State.freeWin State.putWindow
  dsimp only
  split <;> rfl

theorem State.freeHeld_shock (s : State) (nsid lba : Nat) (older : Nat → WinEntry → Bool) :
    (s.freeHeld nsid lba older).shock = s.shock :=
  List.foldlRecOn (motive := fun t => t.shock = s.shock) _ State.dropWin rfl fun t ht i _ => (State.freeWin_shock t i).trans ht

theorem State.unfail_shock (s : State) (nsid lba : Nat) : (s.unfail nsid lba).shock = s.shock := by
  unfold State.unfail State.putMeta
  split <;> rfl

theorem State.blockDone_shock (s : State) (addr : Nat) : (s.blockDone addr).shock = s.shock := by
  unfold State.blockDone
  split
  · rfl
  · dsimp only
    split
    · exact (State.unfail_shock _ _ _).trans ((State.freeHeld_shock _ _ _ _).trans (State.freeWin_shock _ _))
    · exact (State.unfail_shock _ _ _).trans (State.freeHeld_shock _ _ _ _)

theorem State.blockWritten_shock (s : State) (addr : Nat) : (s.blockWritten addr).shock = s.shock := by
  unfold State.blockWritten
  split
  · rfl
  · split
    · rfl
    · exact s.blockDone_shock addr

theorem SectorsKept.blockWritten (s : State) (addr : Nat) (K : List Field) : SectorsKept s (s.blockWritten addr) K := by
  unfold State.blockWritten
  split
  · exact SectorsKept.refl s K
  · split
    · exact SectorsKept.setMedia s _ K
    · exact SectorsKept.blockDone s addr K

/-! ## What leaves the gates -/

theorem State.slot_modSlot_ne (s : State) {i k : Nat} (g : Slot → Slot) (h : k ≠ i) : (s.modSlot i g).slot k = s.slot k :=
  SMap.get_put_ne s.slots slotInit slotInit _ h

/-- The slot has no member of a course: none, or a servo-only one. -/
def Slot.courseless (x : Slot) : Bool := (x.mem.map Member.servoOnly).getD true

/-- A change of a slot that opens no gate, starts no course member and leaves the lost lock as it was. -/
structure Slot.Kept (x y : Slot) : Prop where
  gate : x.gate = false → y.gate = false
  unlocked : y.unlocked = x.unlocked
  courseless : x.courseless = true → y.courseless = true

theorem Slot.Kept.refl (x : Slot) : x.Kept x := ⟨id, rfl, id⟩

theorem Slot.Kept.trans {x y z : Slot} (h : x.Kept y) (k : y.Kept z) : x.Kept z :=
  ⟨k.gate ∘ h.gate, k.unlocked.trans h.unlocked, k.courseless ∘ h.courseless⟩

/-- Every slot changes so, the shock island is as it was, and of the register fields all but those listed. -/
structure GatesKept (s t : State) (K : List Field) : Prop where
  fields : FieldsKept s t K
  shock : t.shock = s.shock
  slot : ∀ k, (s.slot k).Kept (t.slot k)

theorem GatesKept.of_slots {s t : State} {K : List Field} (hslots : t.slots = s.slots) (hshock : t.shock = s.shock)
    (hfields : FieldsKept s t K) : GatesKept s t K :=
  ⟨hfields, hshock, fun k => by rw [State.slot, State.slot, hslots]; exact Slot.Kept.refl _⟩

theorem GatesKept.refl (s : State) (K : List Field) : GatesKept s s K := .of_slots rfl rfl (FieldsKept.refl s K)

theorem GatesKept.trans {s t u : State} {K : List Field} (h : GatesKept s t K) (k : GatesKept t u K) : GatesKept s u K :=
  ⟨h.fields.trans k.fields, k.shock.trans h.shock, fun i => (h.slot i).trans (k.slot i)⟩

theorem GatesKept.mono {s t : State} {K L : List Field} (h : GatesKept s t K) (hKL : K ⊆ L) : GatesKept s t L :=
  ⟨h.fields.mono hKL, h.shock, h.slot⟩

theorem GatesKept.put {s t : State} {K : List Field} (F : Field) (v : Nat) (h : GatesKept s t K)
    (hF : F.key ∈ K.map Field.key) : GatesKept s (t.put F v) K :=
  ⟨h.fields.put F v hF, h.shock, h.slot⟩

theorem GatesKept.inc {s t : State} {K : List Field} (F : Field) (h : GatesKept s t K)
    (hF : F.key ∈ K.map Field.key) : GatesKept s (t.inc F) K :=
  h.put F _ hF

theorem GatesKept.modSlot {g : Slot → Slot} (s : State) (i : Nat) (hg : (s.slot i).Kept (g (s.slot i))) (K : List Field) :
    GatesKept s (s.modSlot i g) K := by
  refine ⟨FieldsKept.of_f (State.modSlot_f s i g) K, rfl, fun k => ?_⟩
  by_cases hk : k = i
  · rw [hk, State.slot_modSlot_same]
    exact hg
  · rw [State.slot_modSlot_ne s g hk]
    exact Slot.Kept.refl _

theorem GatesKept.each {α : Type} {g : State → α → State} {K : List Field} {xs : List α}
    (h : ∀ x ∈ xs, ∀ s, GatesKept s (g s x) K) (s : State) : GatesKept s (s.each xs g) K :=
  List.foldlRecOn (motive := fun t => GatesKept s t K) xs g (GatesKept.refl s K) fun t ht x hx => ht.trans (h x hx t)

/-- What one element's turn brings about and no element's turn undoes holds at the end. -/
theorem State.each_of_mem {α : Type} {g : State → α → State} {P : State → Prop} {xs : List α} {x : α} (hx : x ∈ xs)
    (hset : ∀ s, P (g s x)) (hkeep : ∀ s, ∀ y ∈ xs, P s → P (g s y)) (s : State) : P (s.each xs g) := by
  obtain ⟨before, after, rfl⟩ := List.append_of_mem hx
  rw [State.each, List.foldl_append, List.foldl_cons]
  exact List.foldlRecOn (motive := P) after g (hset _) fun t ht y hy => hkeep t y (by simp [hy]) ht

/-! ## Drops (06 R166) -/

theorem SectorsKept.missSector (s : State) (a rid idx : Nat) (limited : Bool) :
    SectorsKept s (s.missSector a rid idx limited) [Reg.FMT_MISSED_COUNT a] := by
  unfold State.missSector
  dsimp only
  split
  · split
    · exact SectorsKept.modRun s a rid _ _
    · exact (SectorsKept.modRun s a rid _ _).inc _ (by simp)
  · exact SectorsKept.refl s _

theorem State.missSector_shock (s : State) (a rid idx : Nat) (limited : Bool) :
    (s.missSector a rid idx limited).shock = s.shock := by
  unfold State.missSector
  dsimp only
  split
  · split <;> rfl
  · rfl

theorem GatesKept.missSector (s : State) (a rid idx : Nat) (limited : Bool) :
    GatesKept s (s.missSector a rid idx limited) [Reg.FMT_MISSED_COUNT a] :=
  have h := SectorsKept.missSector s a rid idx limited
  .of_slots h.slots (s.missSector_shock a rid idx limited) h.fields

/-- The register fields that a drop of slot `i` changes. -/
def dropFields (i : Nat) : List Field :=
  [Reg.CHN_WR_STATUS_GATE i, Reg.CHN_WR_SECTORS_COUNT i, Reg.CHN_WR_ABORTED_COUNT i, Reg.FMT_MISSED_COUNT (actOf i)] ++
    bufErrorFields

theorem GatesKept.finalStatus (s : State) (i rid idx st : Nat) :
    GatesKept s (s.finalStatus (actOf i) rid idx st) (dropFields i) :=
  have h := SectorsKept.finalStatus s (actOf i) rid idx st
  .of_slots h.slots (s.finalStatus_shock _ _ _ _) (h.fields.mono (List.subset_append_right _ _))

theorem GatesKept.blockWritten (s : State) (addr : Nat) (K : List Field) : GatesKept s (s.blockWritten addr) K :=
  have h := SectorsKept.blockWritten s addr K
  .of_slots h.slots (s.blockWritten_shock addr) h.fields

theorem GatesKept.sectorWritten (s : State) (i : Nat) (w : WrSect) : GatesKept s (s.sectorWritten i w) (dropFields i) :=
  (((GatesKept.modSlot s i ⟨id, rfl, id⟩ _).inc _ (by simp [dropFields])).trans (GatesKept.finalStatus _ i _ _ _)).trans
    (GatesKept.blockWritten _ _ _)

theorem GatesKept.fragDone (s : State) (i : Nat) (w : WrSect) : GatesKept s (s.fragDone i w) (dropFields i) := by
  unfold State.fragDone
  split
  · exact GatesKept.sectorWritten s i w
  · exact GatesKept.modSlot s i ⟨id, rfl, id⟩ _

theorem GatesKept.abortSector (s : State) (i : Nat) (w : WrSect) : GatesKept s (s.abortSector i w) (dropFields i) := by
  have hcount := (GatesKept.modSlot (g := fun x => x.delWr w.sec) s i ⟨id, rfl, id⟩ (dropFields i)).inc
    (Reg.CHN_WR_ABORTED_COUNT i) (by simp [dropFields])
  unfold State.abortSector
  dsimp only
  split
  · exact hcount.trans (GatesKept.finalStatus _ i _ _ _)
  · exact hcount.trans ((GatesKept.missSector _ (actOf i) _ _ _).mono (by simp [dropFields]))

theorem GatesKept.closeGate (s : State) (i : Nat) : GatesKept s (s.closeGate i) (dropFields i) :=
  (GatesKept.modSlot s i ⟨fun _ => rfl, rfl, id⟩ _).put _ _ (by simp [dropFields])

theorem State.slot_closeGate (s : State) (i : Nat) : (s.closeGate i).slot i = { s.slot i with gate := false } :=
  State.slot_modSlot_same s i fun x => { x with gate := false }

theorem State.dropGate_of_shut {s : State} {i : Nat} (h : (s.slot i).gate = false) : s.dropGate i = s := by
  rw [State.dropGate, h]
  rfl

/-- A drop is the closing of the gate, and then what becomes of the sector. -/
theorem GatesKept.dropGate_of_open {s : State} {i : Nat} (h : (s.slot i).gate = true) :
    GatesKept ((s.draw 1).closeGate i) (s.dropGate i) (dropFields i) := by
  rw [State.dropGate, if_pos h]
  dsimp only
  split
  · split
    · exact GatesKept.fragDone _ i _
    · exact GatesKept.abortSector _ i _
  · exact GatesKept.refl _ _

theorem GatesKept.dropGate (s : State) (i : Nat) : GatesKept s (s.dropGate i) (dropFields i) := by
  cases h : (s.slot i).gate with
  | false => rw [State.dropGate_of_shut h]; exact GatesKept.refl s _
  | true =>
    have hdraw : GatesKept s (s.draw 1) (dropFields i) := .of_slots rfl rfl (FieldsKept.of_f rfl _)
    exact (hdraw.trans (GatesKept.closeGate _ i)).trans (GatesKept.dropGate_of_open h)

theorem State.gate_dropGate (s : State) (i : Nat) : ((s.dropGate i).slot i).gate = false := by
  cases h : (s.slot i).gate with
  | false => rwa [State.dropGate_of_shut h]
  | true => exact ((GatesKept.dropGate_of_open h).slot i).gate (by rw [State.slot_closeGate])

/-! ## A source that rises (06 R165) -/

theorem not_mem_keys_flatMap {α : Type} {G : α → List Field} {xs : List α} {n : Nat}
    (h : ∀ x ∈ xs, n ∉ (G x).map Field.key) : n ∉ (xs.flatMap G).map Field.key := by
  rw [List.map_flatMap, List.mem_flatMap]
  rintro ⟨x, hx, hn⟩
  exact h x hx hn

/-- The register fields that a source's rise on slot `i` changes. -/
def riseFields (i : Nat) : List Field := Reg.CHN_WR_CAUSE_CAUSE i :: dropFields i

/-- A source other than VIN warn rises on slot `i`. -/
def State.riseOn (s : State) (b i : Nat) : State := (s.setBitOf (Reg.CHN_WR_CAUSE_CAUSE i) b).dropGate i

theorem State.riseSource_eq (s : State) {b : Nat} (hb : b ≠ 3) (scope : List Nat) :
    s.riseSource b scope = s.each scope fun s i => s.riseOn b i := by
  simp only [State.riseSource, hb, if_false, State.riseOn]

theorem GatesKept.riseOn (s : State) (b i : Nat) : GatesKept s (s.riseOn b i) (riseFields i) :=
  ((GatesKept.refl s _).put _ _ (by simp [riseFields])).trans
    ((GatesKept.dropGate _ i).mono (List.subset_cons_self _ _))

theorem dropFields_keys (i : Nat) : (dropFields i).map Field.key =
    [(0x40a00304 + 0x10000 * i) * 32 + 31, (0x40a00320 + 0x10000 * i) * 32, (0x40a00324 + 0x10000 * i) * 32,
      (0x40c00068 + 0x40000 * (i / 4)) * 32] ++ bufErrorFields.map Field.key := rfl

theorem bufErrorFields_keys : bufErrorFields.map Field.key =
    [0x40400040 * 32, 0x40400044 * 32, 0x40400048 * 32 + 31, 0x40400048 * 32] := rfl

theorem riseFields_keys (i : Nat) : (riseFields i).map Field.key =
    (0x40a00308 + 0x10000 * i) * 32 :: (dropFields i).map Field.key := rfl

/-- No drop touches a cause register. -/
theorem cause_not_mem_dropFields (i j : Nat) : (Reg.CHN_WR_CAUSE_CAUSE i).key ∉ (dropFields j).map Field.key := by
  simp only [dropFields_keys, bufErrorFields_keys, List.cons_append, List.nil_append, Field.key, Reg.CHN_WR_CAUSE_CAUSE,
    List.mem_cons, List.not_mem_nil, or_false, not_or]
  omega

theorem State.hasBit_cause_riseOn_same (s : State) {b : Nat} (hb : b < 12) (i : Nat) :
    hasBit ((s.riseOn b i).get (Reg.CHN_WR_CAUSE_CAUSE i)) b = true := by
  rw [State.riseOn, (GatesKept.dropGate _ i).fields _ (cause_not_mem_dropFields i i)]
  exact State.hasBit_setBitOf_same s hb

theorem State.hasBit_cause_riseOn {s : State} {b i : Nat} (hb : b < 12)
    (h : hasBit (s.get (Reg.CHN_WR_CAUSE_CAUSE i)) b = true) (j : Nat) :
    hasBit ((s.riseOn b j).get (Reg.CHN_WR_CAUSE_CAUSE i)) b = true := by
  by_cases hij : i = j
  · rw [hij]
    exact s.hasBit_cause_riseOn_same hb j
  · have hkey : (Reg.CHN_WR_CAUSE_CAUSE i).key ≠ (Reg.CHN_WR_CAUSE_CAUSE j).key := by
      simp only [Field.key, Reg.CHN_WR_CAUSE_CAUSE]
      omega
    rw [State.riseOn, (GatesKept.dropGate _ j).fields _ (cause_not_mem_dropFields i j), State.setBitOf,
      State.get_put_ne _ _ _ hkey]
    exact h

/-- Every slot of the scope takes the cause, and its gate is closed. -/
theorem State.cause_gate_riseSource (s : State) {b : Nat} (hb : b < 12) (hwarn : b ≠ 3) {scope : List Nat} {i : Nat}
    (hi : i ∈ scope) : hasBit ((s.riseSource b scope).get (Reg.CHN_WR_CAUSE_CAUSE i)) b = true ∧
      ((s.riseSource b scope).slot i).gate = false := by
  rw [State.riseSource_eq s hwarn]
  refine State.each_of_mem (P := fun t => hasBit (t.get (Reg.CHN_WR_CAUSE_CAUSE i)) b = true ∧ (t.slot i).gate = false) hi
    (fun t => ⟨t.hasBit_cause_riseOn_same hb i, State.gate_dropGate _ i⟩) (fun t j _ h => ?_) s
  exact ⟨State.hasBit_cause_riseOn hb h.1 j, ((GatesKept.riseOn t b j).slot i).gate h.2⟩

theorem State.all_cause_gate {s : State} {b : Nat} {scope : List Nat}
    (h : ∀ i ∈ scope, hasBit (s.get (Reg.CHN_WR_CAUSE_CAUSE i)) b = true ∧ (s.slot i).gate = false) :
    scope.all (fun i => hasBit (s.get (Reg.CHN_WR_CAUSE_CAUSE i)) b && !(s.slot i).gate) = true := by
  rw [List.all_eq_true]
  intro i hi
  obtain ⟨hcause, hgate⟩ := h i hi
  simp [hcause, hgate]

theorem GatesKept.riseSource (s : State) {b : Nat} (hwarn : b ≠ 3) (scope : List Nat) :
    GatesKept s (s.riseSource b scope) (scope.flatMap riseFields) := by
  rw [State.riseSource_eq s hwarn]
  exact GatesKept.each (fun i hi t => (GatesKept.riseOn t b i).mono fun F hF => List.mem_flatMap.mpr ⟨i, hi, hF⟩) s

/-- Where every gate of the scope is closed, a source that rises sets its cause bits and does no more. -/
theorem State.riseSource_of_shut {s : State} {b : Nat} (hwarn : b ≠ 3) {scope : List Nat}
    (h : ∀ i ∈ scope, (s.slot i).gate = false) :
    s.riseSource b scope = s.each scope fun s i => s.setBitOf (Reg.CHN_WR_CAUSE_CAUSE i) b := by
  rw [State.riseSource_eq s hwarn]
  induction scope generalizing s with
  | nil => rfl
  | cons i scope ih =>
    obtain ⟨hi, hscope⟩ := List.forall_mem_cons.mp h
    have hstep : s.riseOn b i = s.setBitOf (Reg.CHN_WR_CAUSE_CAUSE i) b := State.dropGate_of_shut hi
    show (s.riseOn b i).each scope _ = (s.setBitOf (Reg.CHN_WR_CAUSE_CAUSE i) b).each scope _
    rw [hstep]
    exact ih hscope

end Sys2Proof.Machine
end

