-- ==== Sys2Proof/Proofs/MemberRefusal.lean ====
section
/-! SUPPORT. What a refused member leaves (07 R550, 08 R210), where no gate of its actuator is open: its slot without a course
member, the servo-only sources resumed, and no other register field and no byte of the buffer changed. -/

namespace Sys2Proof.Machine

/-! ## The frame of members and sources -/

/-- `GatesKept`, and the buffer as it was. -/
structure SourcesKept (s t : State) (K : List Field) : Prop extends GatesKept s t K where
  mem : t.mem = s.mem

theorem SourcesKept.refl (s : State) (K : List Field) : SourcesKept s s K := ⟨GatesKept.refl s K, rfl⟩

theorem SourcesKept.trans {s t u : State} {K : List Field} (h : SourcesKept s t K) (k : SourcesKept t u K) :
    SourcesKept s u K :=
  ⟨h.toGatesKept.trans k.toGatesKept, k.mem.trans h.mem⟩

theorem SourcesKept.mono {s t : State} {K L : List Field} (h : SourcesKept s t K) (hKL : K ⊆ L) : SourcesKept s t L :=
  ⟨h.toGatesKept.mono hKL, h.mem⟩

theorem SourcesKept.put {s t : State} {K : List Field} (F : Field) (v : Nat) (h : SourcesKept s t K)
    (hF : F.key ∈ K.map Field.key) : SourcesKept s (t.put F v) K :=
  ⟨h.toGatesKept.put F v hF, h.mem⟩

theorem SourcesKept.modSlot {g : Slot → Slot} (s : State) (i : Nat) (hg : (s.slot i).Kept (g (s.slot i))) (K : List Field) :
    SourcesKept s (s.modSlot i g) K :=
  ⟨GatesKept.modSlot s i hg K, State.modSlot_mem s i g⟩

theorem GatesKept.when {s : State} {K : List Field} {g : State → State} (b : Bool) (h : GatesKept s (g s) K) :
    GatesKept s (s.when b g) K := by
  cases b
  · exact GatesKept.refl s K
  · exact h

theorem GatesKept.whenInc {s t : State} {K : List Field} (b : Bool) (F : Field) (h : GatesKept s t K)
    (hF : F.key ∈ K.map Field.key) : GatesKept s (t.when b (·.inc F)) K :=
  h.trans (GatesKept.when b ((GatesKept.refl t K).inc F hF))

theorem GatesKept.putSrc {s t : State} {K : List Field} (i : Nat) (x : Src) (h : GatesKept s t K) :
    GatesKept s (t.putSrc i x) K :=
  ⟨h.fields, h.shock, h.slot⟩

/-- The register fields that the servo source of slot `i`, its start and its end change. -/
def sourceFields (i : Nat) : List Field :=
  sampleFields (actOf i) (locOf i) ++
    [Reg.SRV_STATUS_STATE (actOf i), Reg.MTR_SPN_STATUS_SRC, Reg.CHN_FE_STATE_GAIN i 1, Reg.CHN_FE_STATUS_WINDOW i,
      Reg.CHN_MC_TRIM_TRIM i, Reg.CHN_MC_STATUS_LOCKED i, Reg.CHN_MC_STATUS_ACQ i]

/-! ## The sources (08 Table SRV-2) -/

theorem GatesKept.arrive (s : State) (i h wedge flags pair : Nat) (y : Int) :
    GatesKept s (s.arrive i h wedge flags pair y) (sourceFields i) :=
  .of_slots rfl rfl ((FieldsKept.of_f rfl _).put _ _ (by simp [sourceFields, sampleFields]))

theorem GatesKept.deliverSample (s : State) (i h wedge flags : Nat) (pos : Option (Nat × Int)) :
    GatesKept s (s.deliverSample i h wedge flags pos) (sourceFields i) := by
  have hdraw : GatesKept s (if decide (flags = 0) = true then s else s.draw 2) (sourceFields i) := by
    split
    · exact GatesKept.refl s _
    · exact .of_slots rfl rfl (FieldsKept.of_f (State.draw_f s 2) _)
  unfold State.deliverSample
  dsimp only
  refine GatesKept.trans (GatesKept.putSrc i _ ?_) (GatesKept.arrive _ i _ _ _ _ _)
  refine (((GatesKept.whenInc _ _ ?_ ?_).whenInc _ _ ?_).whenInc _ _ ?_).whenInc _ _ ?_
  · refine ((((((hdraw.put _ _ ?_).put _ _ ?_).put _ _ ?_).put _ _ ?_).put _ _ ?_).put _ _ ?_).put _ _ ?_
    all_goals simp [sourceFields, sampleFields]
  all_goals simp [sourceFields, sampleFields]

theorem GatesKept.lastSample (s : State) (i : Nat) : GatesKept s (s.lastSample i) (sourceFields i) := by
  unfold State.lastSample
  split
  · split
    · exact GatesKept.each (fun g _ t => GatesKept.deliverSample t i _ g.wedge 1 none) s
    · exact GatesKept.refl s _
  · exact GatesKept.refl s _

theorem GatesKept.servoGate (s : State) (i : Nat) (on : Bool) : GatesKept s (s.servoGate i on) (sourceFields i) := by
  unfold State.servoGate
  dsimp only
  split
  · exact (GatesKept.modSlot s i ⟨id, rfl, id⟩ _).put _ _ (by simp [sourceFields])
  · exact ((GatesKept.refl s _).put _ _ (by simp [sourceFields])).trans (GatesKept.modSlot _ i ⟨id, rfl, id⟩ _)
  · exact GatesKept.refl s _

/-- RG's fall or rise changes the sectors being captured alone. -/
theorem GatesKept.gateRead (s : State) (i : Nat) (b on : Bool) (pos rev : Nat) (K : List Field) :
    GatesKept s (s.when b (·.modSlot i (·.gateRead on pos rev))) K :=
  GatesKept.when b (GatesKept.modSlot s i ⟨id, rfl, id⟩ K)

theorem GatesKept.searchOff (s : State) (i : Nat) : GatesKept s (s.searchOff i) (sourceFields i) :=
  (GatesKept.when _ (GatesKept.servoGate s i false)).trans (GatesKept.gateRead _ i _ _ _ _ _)

/-- A source that enters SEARCH shuts the gate of its slot (08 R211): where that is closed, no sector ends. -/
theorem SourcesKept.searchOn {s : State} {i : Nat} (h : (s.slot i).gate = false) :
    SourcesKept s (s.searchOn i) (sourceFields i) := by
  have hopen : s.searchOn i = (s.servoGate i true).when (s.slot i).rg
      (·.modSlot i (·.gateRead false ((s.servoGate i true).position i) (512 * (s.servoGate i true).cellsOf i))) := by
    simp only [State.searchOn, h, Bool.false_eq_true, if_false]
  rw [hopen]
  exact ⟨(GatesKept.servoGate s i true).trans (GatesKept.gateRead _ i _ _ _ _ _), by simp⟩

theorem GatesKept.refChanged (s : State) (i : Nat) (old : Option (Nat × Nat)) :
    GatesKept s (s.refChanged old) (sourceFields i) := by
  unfold State.refChanged
  split
  · exact GatesKept.refl s _
  · exact .of_slots rfl rfl ((FieldsKept.of_f rfl _).put _ _ (by simp [sourceFields]))

theorem SourcesKept.srcTo {s : State} {i : Nat} (h : (s.slot i).gate = false) (x : Src) (v : Nat) :
    SourcesKept s (s.srcTo i x v) (sourceFields i) := by
  have hset : SourcesKept s (((s.lastSample i).putSrc i x).setSrcState i v) (sourceFields i) :=
    ⟨(GatesKept.lastSample s i).trans (.of_slots rfl rfl ((FieldsKept.of_f rfl _).put _ _ (by simp [sourceFields]))),
      by simp⟩
  refine SourcesKept.trans ?_ ⟨GatesKept.refChanged _ i _, State.refChanged_mem _ _⟩
  split
  · exact hset.trans (SourcesKept.searchOn ((hset.slot i).gate h))
  · split
    · exact hset.trans ⟨GatesKept.searchOff _ i, State.searchOff_mem _ i⟩
    · exact hset

theorem SourcesKept.fixRefs (s : State) (i : Nat) (K : List Field) : SourcesKept s (s.fixRefs i) K :=
  ⟨.of_slots rfl rfl (FieldsKept.of_f (State.fixRefs_f s i) K), State.fixRefs_mem s i⟩

theorem SourcesKept.startSrc {s : State} {i : Nat} (h : (s.slot i).gate = false) (head : Nat) :
    SourcesKept s (s.startSrc i head) (sourceFields i) := by
  have hfix := SourcesKept.fixRefs s i (sourceFields i)
  have hto := fun x v => hfix.trans (SourcesKept.srcTo ((hfix.slot i).gate h) x v)
  unfold State.startSrc
  dsimp only
  split
  · split
    · exact SourcesKept.searchOn h
    · exact SourcesKept.refl s _
  · split
    · exact hto _ 2
    · exact hto _ 1

theorem SourcesKept.endSrc {s : State} {i : Nat} (h : (s.slot i).gate = false) :
    SourcesKept s (s.endSrc i) (sourceFields i) := by
  have hlast : SourcesKept s ((s.lastSample i).fixRefs i) (sourceFields i) :=
    SourcesKept.trans ⟨GatesKept.lastSample s i, State.lastSample_mem s i⟩ (SourcesKept.fixRefs _ i _)
  unfold State.endSrc
  split
  · exact SourcesKept.refl s _
  · exact hlast.trans (SourcesKept.srcTo ((hlast.slot i).gate h) _ 0)

/-! ## Servo-only members (08 R210) -/

theorem State.paNext_slots (s : State) (a : Nat) : (s.paNext a).slots = s.slots := by
  unfold State.paNext
  dsimp only
  repeat' split
  all_goals rfl

theorem State.paNext_shock (s : State) (a : Nat) : (s.paNext a).shock = s.shock := by
  unfold State.paNext
  dsimp only
  repeat' split
  all_goals rfl

theorem SourcesKept.paNext (s : State) (a : Nat) (K : List Field) : SourcesKept s (s.paNext a) K :=
  ⟨.of_slots (s.paNext_slots a) (s.paNext_shock a) (FieldsKept.of_f (State.paNext_f s a) K), State.paNext_mem s a⟩

theorem SourcesKept.putPa (s : State) (a : Nat) (x : PaLink) (K : List Field) : SourcesKept s (s.putPa a x) K :=
  ⟨.of_slots rfl rfl (FieldsKept.of_f rfl K), rfl⟩

theorem SourcesKept.closeWindow (s : State) (i : Nat) : SourcesKept s (s.closeWindow i) (sourceFields i) :=
  (SourcesKept.modSlot s i ⟨id, rfl, id⟩ _).put _ _ (by simp [sourceFields])

theorem SourcesKept.startClock (s : State) (i cells : Nat) : SourcesKept s (s.startClock i cells) (sourceFields i) := by
  refine (((SourcesKept.modSlot s i ⟨id, rfl, id⟩ _).put _ _ ?_).put _ _ ?_).put _ _ ?_
  all_goals simp [sourceFields]

theorem SourcesKept.startServoOnly {s : State} {i : Nat} (h : (s.slot i).gate = false) :
    SourcesKept s (s.startServoOnly i) (sourceFields i) := by
  have hmember := fun m : Member => fun hm : m.servoOnly = true =>
    ((SourcesKept.closeWindow s i).trans (SourcesKept.modSlot _ i (g := fun x => { x with
      mem := some m, rg := false, wg := false, sg := false, fw := false, wc := none, cc := 0, ahead := 0, dataGain := none })
      ⟨id, rfl, fun _ => hm⟩ _)).trans (SourcesKept.startClock _ i 16384)
  have hlink := fun m hm a fs => (hmember m hm).trans
    ((SourcesKept.putPa _ a fs (sourceFields i)).trans (SourcesKept.paNext _ a _))
  exact (hlink _ rfl _ _).trans (SourcesKept.startSrc (((hlink _ rfl _ _).slot i).gate h) _)

theorem SourcesKept.resumeSrc {s : State} {i : Nat} (h : (s.slot i).gate = false) :
    SourcesKept s (s.resumeSrc i) (sourceFields i) := by
  unfold State.resumeSrc
  dsimp only
  split
  · exact SourcesKept.refl s _
  · split
    · exact SourcesKept.startServoOnly h
    · exact SourcesKept.endSrc h

/-- Servo-only sources resume on an actuator whose gates are closed. -/
theorem SourcesKept.resumeAll {s : State} {a : Nat} (h : ∀ k ∈ slotsOf a, (s.slot k).gate = false) :
    SourcesKept s (s.resumeAll a) ((slotsOf a).flatMap sourceFields) := by
  refine List.foldlRecOn (motive := fun t => SourcesKept s t ((slotsOf a).flatMap sourceFields)) _ State.resumeSrc
    (SourcesKept.refl s _) fun t ht k hk => ht.trans ?_
  have hslot := List.mem_of_mem_filter hk
  exact (SourcesKept.resumeSrc ((ht.slot k).gate (h k hslot))).mono fun F hF => List.mem_flatMap.mpr ⟨k, hslot, hF⟩

/-! ## The end of a member and its refusal (07 R550) -/

/-- The register fields that the end of slot `i`'s member changes beyond those of its source. -/
def memberFields (i : Nat) : List Field :=
  [Reg.CHN_FE_STATUS_ACTIVE i, Reg.CHN_WR_STATUS_GATE i, Reg.FMT_STATUS_MEMBER (actOf i)] ++ sourceFields i

/-- The slot without its member and without all that is the member's own. -/
def Slot.emptied (x : Slot) : Slot :=
  { x with mem := none, rg := false, wg := false, sg := false, eq := [], gate := false, dataGain := none, discard := none,
           started := none, wr := [], rd := [], dpSrc := false, urSrc := false, wc := none, cc := 0, ahead := 0 }

theorem State.dropMember_eq (s : State) (i : Nat) :
    s.dropMember i = (((((((s.servoGate i false).endSrc i).modSlot i Slot.emptied).put (Reg.CHN_FE_STATUS_ACTIVE i) 0).put
      (Reg.CHN_WR_STATUS_GATE i) 0).paDrop (actOf i) (locOf i)).clrBitOf (Reg.FMT_STATUS_MEMBER (actOf i)) (locOf i)) := rfl

theorem SourcesKept.dropMember {s : State} {i : Nat} (h : (s.slot i).gate = false) :
    SourcesKept s (s.dropMember i) (memberFields i) := by
  have hgate : SourcesKept s (s.servoGate i false) (sourceFields i) :=
    ⟨GatesKept.servoGate s i false, State.servoGate_mem s i false⟩
  have hend := (hgate.trans (SourcesKept.endSrc ((hgate.slot i).gate h))).mono (List.subset_append_right _ _ :
    sourceFields i ⊆ memberFields i)
  refine SourcesKept.put _ _ (SourcesKept.trans (((hend.trans (SourcesKept.modSlot _ i ?_ _)).put _ _ ?_).put _ _ ?_)
    (SourcesKept.putPa _ _ _ _)) ?_
  · exact ⟨fun _ => rfl, rfl, fun _ => rfl⟩
  all_goals simp [memberFields]

theorem State.mem_dropMember (s : State) (i : Nat) : ((s.dropMember i).slot i).mem = none :=
  congrArg Slot.mem (State.slot_modSlot_same ((s.servoGate i false).endSrc i) i Slot.emptied)

theorem State.get_active_dropMember (s : State) (i : Nat) : (s.dropMember i).get (Reg.CHN_FE_STATUS_ACTIVE i) = 0 := by
  have hmember : (Reg.CHN_FE_STATUS_ACTIVE i).key ≠ (Reg.FMT_STATUS_MEMBER (actOf i)).key := by
    simp only [Field.key, Reg.CHN_FE_STATUS_ACTIVE, Reg.FMT_STATUS_MEMBER]
    omega
  have hgate : (Reg.CHN_FE_STATUS_ACTIVE i).key ≠ (Reg.CHN_WR_STATUS_GATE i).key := by
    simp only [Field.key, Reg.CHN_FE_STATUS_ACTIVE, Reg.CHN_WR_STATUS_GATE]
    omega
  rw [State.dropMember_eq, State.clrBitOf, State.get_put_ne _ _ _ hmember, State.get_of_f (State.paDrop_f _ _ _),
    State.get_put_ne _ _ _ hgate, State.get_put_same]
  rfl

/-- A source's fields are none of ACTIVE, a cause register or VERIFY_ERR. -/
theorem active_cause_verify_not_mem_sourceFields (i k : Nat) :
    (Reg.CHN_FE_STATUS_ACTIVE i).key ∉ (sourceFields k).map Field.key ∧
      (Reg.CHN_WR_CAUSE_CAUSE i).key ∉ (sourceFields k).map Field.key ∧
      (Reg.CHN_PA_STATUS_VERIFY_ERR i).key ∉ (sourceFields k).map Field.key := by
  simp only [sourceFields, sampleFields, List.cons_append, List.nil_append, List.map_cons, List.map_nil, List.mem_cons,
    List.not_mem_nil, or_false, not_or, Field.key, actOf, locOf, Reg.CHN_FE_STATUS_ACTIVE, Reg.CHN_WR_CAUSE_CAUSE,
    Reg.CHN_PA_STATUS_VERIFY_ERR, Reg.SRV_POS_LO_FLAGS, Reg.SRV_POS_LO_TRACK, Reg.SRV_POS_HI_VALID, Reg.SRV_POS_HI_PAIR,
    Reg.SRV_POS_HI_WEDGE, Reg.SRV_POS_HI_HEAD, Reg.SRV_POS_HI_OFFSET, Reg.SRV_VALID_COUNT, Reg.SRV_SAM_MISS_COUNT,
    Reg.SRV_TID_ERR_COUNT, Reg.SRV_CHEV_ERR_COUNT, Reg.CTL_LANE_STATUS_ACTIVE, Reg.SRV_STATUS_STATE, Reg.MTR_SPN_STATUS_SRC,
    Reg.CHN_FE_STATE_GAIN, Reg.CHN_FE_STATUS_WINDOW, Reg.CHN_MC_TRIM_TRIM, Reg.CHN_MC_STATUS_LOCKED, Reg.CHN_MC_STATUS_ACQ]
  omega

/-- The register fields that a refusal of slot `i`'s member changes. -/
def refusalFields (i : Nat) : List Field :=
  [Reg.FMT_CFG_STATUS_ERR (actOf i), Reg.FMT_CFG_STATUS_CODE (actOf i)] ++ memberFields i ++
    (slotsOf (actOf i)).flatMap sourceFields

section Refusal
variable {s : State} {i : Nat}

theorem mem_slotsOf_actOf (i : Nat) : i ∈ slotsOf (actOf i) := by
  simp only [slotsOf, actOf, List.mem_cons, List.not_mem_nil, or_false]
  omega

theorem SourcesKept.reject (s : State) (err code : Field) (c : Nat) : SourcesKept s (s.reject err code c) [err, code] := by
  refine ⟨.of_slots ?_ ?_ (FieldsKept.reject s err code c), State.reject_mem s err code c⟩
  all_goals
    unfold State.reject
    split <;> rfl

/-- The start of a refusal: the rejection recorded and the member gone. -/
theorem SourcesKept.rejectMember (h : (s.slot i).gate = false) :
    SourcesKept s ((s.reject (Reg.FMT_CFG_STATUS_ERR (actOf i)) (Reg.FMT_CFG_STATUS_CODE (actOf i)) 5).dropMember i)
      (refusalFields i) := by
  have hreject := SourcesKept.reject s (Reg.FMT_CFG_STATUS_ERR (actOf i)) (Reg.FMT_CFG_STATUS_CODE (actOf i)) 5
  refine (hreject.mono ?_).trans ((SourcesKept.dropMember ((hreject.slot i).gate h)).mono ?_)
  · exact List.Subset.trans (List.subset_append_left _ _) (List.subset_append_left _ _)
  · exact List.Subset.trans (List.subset_append_right _ _) (List.subset_append_left _ _)

section
variable (h : ∀ k ∈ slotsOf (actOf i), (s.slot k).gate = false)
include h

theorem SourcesKept.resumeOthers :
    SourcesKept ((s.reject (Reg.FMT_CFG_STATUS_ERR (actOf i)) (Reg.FMT_CFG_STATUS_CODE (actOf i)) 5).dropMember i)
      (s.refuseMember i) ((slotsOf (actOf i)).flatMap sourceFields) :=
  SourcesKept.resumeAll fun k hk =>
    ((SourcesKept.rejectMember (h i (mem_slotsOf_actOf i))).slot k).gate (h k hk)

theorem SourcesKept.refuseMember : SourcesKept s (s.refuseMember i) (refusalFields i) :=
  (SourcesKept.rejectMember (h i (mem_slotsOf_actOf i))).trans
    ((SourcesKept.resumeOthers h).mono (List.subset_append_right _ _))

/-- The refused slot has no course member. -/
theorem State.courseless_refuseMember : ((s.refuseMember i).slot i).courseless = true :=
  ((SourcesKept.resumeOthers h).slot i).courseless (by rw [Slot.courseless, State.mem_dropMember]; rfl)

theorem State.get_active_refuseMember : (s.refuseMember i).get (Reg.CHN_FE_STATUS_ACTIVE i) = 0 := by
  rw [(SourcesKept.resumeOthers h).fields _ ?_, State.get_active_dropMember]
  exact not_mem_keys_flatMap fun k _ => (active_cause_verify_not_mem_sourceFields i k).1

end
end Refusal

end Sys2Proof.Machine
end

