-- ==== Sys2Proof/Proofs/PreampLink.lean ====
section
/-! SUPPORT. The preamp control link (06 R170 to R173, Table WRP-19; 07 R550): what the link takes next, and PA_CMD_WRITE,
PREAMP_FRAME_DONE and PREAMP_FAULT by case. -/

namespace Sys2Proof.Machine

/-! ## The link's queue -/

@[simp] theorem State.pa_putPa_same (s : State) (a : Nat) (x : PaLink) : (s.putPa a x).pa a = x :=
  SMap.get_put_same s.pas paInit a x

@[simp] theorem State.pa_put (s : State) (F : Field) (v a : Nat) : (s.put F v).pa a = s.pa a := rfl

@[simp] theorem State.pa_emit (s : State) (o : Out) (a : Nat) : (s.emit o).pa a = s.pa a := rfl

theorem State.paNext_of_busy {s : State} {a : Nat} (h : (s.pa a).prog.isSome = true) : s.paNext a = s := by
  obtain ⟨f, hf⟩ := Option.isSome_iff_exists.mp h
  simp only [State.paNext, hf]

theorem State.paNext_of_empty {s : State} {a : Nat} (h : s.pa a = paInit) : s.paNext a = s := by
  simp only [State.paNext, h, paInit]

/-- An idle link with firmware frames alone takes the first of them. -/
theorem State.paNext_of_firmware {s : State} {a : Nat} {f : PaFrame} {fs : List PaFrame}
    (h : s.pa a = ⟨none, [], [], f :: fs⟩) :
    s.paNext a = (s.putPa a ⟨some f, [], [], fs⟩).emit (.preamp a f.read f.addr f.data) := by
  simp only [State.paNext, h]

/-! ## PA_CMD_WRITE by case -/

/-- The frame that a write of `v` to CHN_PA_CMD of slot `i` queues (06 Table WRP-19). -/
def firmwareFrame (i v : Nat) : PaFrame := ⟨hasBit v 23, bits v 22 16, bits v 15 0, 3, i % 4⟩

theorem execPaCmdWrite_of_busy {i : Fin 16} {v : Word} {s : State} (h : s.get (Reg.CHN_PA_STATUS_BUSY (i.val / 4)) = 1) :
    execPaCmdWrite i v s =
      .next (s.reject (Reg.CHN_WR_CFG_STATUS_ERR i.val) (Reg.CHN_WR_CFG_STATUS_CODE i.val) 4) := by
  simp [execPaCmdWrite, State.flag_eq, actOf, h]

theorem execPaCmdWrite_of_free {i : Fin 16} {v : Word} {s : State} (h : s.get (Reg.CHN_PA_STATUS_BUSY (i.val / 4)) = 0) :
    execPaCmdWrite i v s = .next (((s.put (Reg.CHN_PA_STATUS_BUSY (i.val / 4)) 1).putPa (i.val / 4)
      { s.pa (i.val / 4) with fw := (s.pa (i.val / 4)).fw ++ [firmwareFrame i.val v.toNat] }).paNext (i.val / 4)) := by
  simp [execPaCmdWrite, State.flag_eq, actOf, locOf, h, firmwareFrame]

/-- An idle link takes the frame at once. -/
theorem execPaCmdWrite_of_idle {i : Fin 16} {v : Word} {s : State} (h : s.get (Reg.CHN_PA_STATUS_BUSY (i.val / 4)) = 0)
    (hpa : s.pa (i.val / 4) = paInit) : execPaCmdWrite i v s =
      .next ((((s.put (Reg.CHN_PA_STATUS_BUSY (i.val / 4)) 1).putPa (i.val / 4)
        ⟨none, [], [], [firmwareFrame i.val v.toNat]⟩).putPa (i.val / 4)
          ⟨some (firmwareFrame i.val v.toNat), [], [], []⟩).emit
            (.preamp (i.val / 4) (hasBit v.toNat 23) (bits v.toNat 22 16) (bits v.toNat 15 0))) := by
  have hnext := State.paNext_of_firmware (State.pa_putPa_same (s.put (Reg.CHN_PA_STATUS_BUSY (i.val / 4)) 1) (i.val / 4)
    ⟨none, [], [], [firmwareFrame i.val v.toNat]⟩)
  rw [execPaCmdWrite_of_free h, hpa]
  exact congrArg Host.Outcome.next hnext

/-- While a frame is in progress it waits. -/
theorem execPaCmdWrite_of_sending {i : Fin 16} {v : Word} {s : State} (h : s.get (Reg.CHN_PA_STATUS_BUSY (i.val / 4)) = 0)
    (hprog : (s.pa (i.val / 4)).prog.isSome = true) : execPaCmdWrite i v s =
      .next ((s.put (Reg.CHN_PA_STATUS_BUSY (i.val / 4)) 1).putPa (i.val / 4)
        { s.pa (i.val / 4) with fw := (s.pa (i.val / 4)).fw ++ [firmwareFrame i.val v.toNat] }) := by
  rw [execPaCmdWrite_of_free h, State.paNext_of_busy]
  rwa [State.pa_putPa_same]

/-! ## PREAMP_FRAME_DONE by case -/

section FrameDone
variable {a : Fin 4} {d : Nat} {f : PaFrame} {s : State}

/-- The completion of firmware's only frame, a read. -/
theorem execPreampFrameDone_of_firmwareRead (h : s.pa a.val = ⟨some f, [], [], []⟩) (hkind : f.kind = 3)
    (hread : f.read = true) : execPreampFrameDone a d s =
      .next (((s.putPa a.val paInit).put (Reg.CHN_PA_RDATA_DATA a.val) d).put (Reg.CHN_PA_STATUS_BUSY a.val) 0) := by
  have hempty : (((s.putPa a.val paInit).put (Reg.CHN_PA_RDATA_DATA a.val) d).put (Reg.CHN_PA_STATUS_BUSY a.val) 0).pa a.val =
      paInit := State.pa_putPa_same s a.val paInit
  rw [← State.paNext_of_empty hempty]
  simp [execPreampFrameDone, h, hkind, hread, State.when, paInit]

section ReadBack
variable {m : Member} (h : s.pa a.val = ⟨some f, [], [], []⟩) (hkind : f.kind = 1)
    (hmem : (s.slot (4 * a.val + f.slot)).mem = some m) (hcourse : m.servoOnly = false) (hnew : m.ready = false)
include h hkind hmem hcourse hnew

/-- A read-back of what was written makes the member ready. -/
theorem execPreampFrameDone_of_match (hdata : d % 65536 = f.data) : execPreampFrameDone a d s =
    .next ((s.putPa a.val paInit).modSlot (4 * a.val + f.slot) fun x => { x with mem := some { m with ready := true } }) := by
  have hmem' : ((s.putPa a.val paInit).slot (4 * a.val + f.slot)).mem = some m := hmem
  have hempty : ((s.putPa a.val paInit).modSlot (4 * a.val + f.slot)
      fun x => { x with mem := some { m with ready := true } }).pa a.val = paInit := State.pa_putPa_same s a.val paInit
  rw [← State.paNext_of_empty hempty]
  rw [paInit] at hmem'
  simp [execPreampFrameDone, h, hkind, hmem', hcourse, hnew, hdata, paInit]

/-- Any other read-back refuses the member. -/
theorem execPreampFrameDone_of_mismatch (hdata : d % 65536 ≠ f.data) : execPreampFrameDone a d s =
    .next (((((s.putPa a.val paInit).put (Reg.CHN_PA_STATUS_VERIFY_ERR a.val) 1).riseSource 2 (slotsOf a.val)).refuseMember
      (4 * a.val + f.slot)).paNext a.val) := by
  have hmem' : ((s.putPa a.val paInit).slot (4 * a.val + f.slot)).mem = some m := hmem
  rw [paInit] at hmem'
  simp [execPreampFrameDone, h, hkind, hmem', hcourse, hnew, hdata, paInit]

end ReadBack

theorem execPreampFault_of_idle (h : (s.pa a.val).prog = none) : execPreampFault a s =
    .next ((s.put (Reg.CHN_PA_STATUS_FAULT a.val) 1).riseSource 2 (slotsOf a.val)) := by
  simp only [execPreampFault, h]

theorem execPreampFault_of_busy (h : (s.pa a.val).prog.isSome = true) : execPreampFault a s = .next s := by
  obtain ⟨g, hg⟩ := Option.isSome_iff_exists.mp h
  simp only [execPreampFault, hg]

end FrameDone

/-! ## The preamp source (06 Table WRP-1) -/

theorem State.get_reject_writePath {s : State} {i : Nat} (herr : s.get (Reg.CHN_WR_CFG_STATUS_ERR i) = 0) {c : Nat}
    (hc : c < 256) :
    (s.reject (Reg.CHN_WR_CFG_STATUS_ERR i) (Reg.CHN_WR_CFG_STATUS_CODE i) c).get (Reg.CHN_WR_CFG_STATUS_ERR i) = 1 ∧
      (s.reject (Reg.CHN_WR_CFG_STATUS_ERR i) (Reg.CHN_WR_CFG_STATUS_CODE i) c).get (Reg.CHN_WR_CFG_STATUS_CODE i) = c := by
  have hkey : (Reg.CHN_WR_CFG_STATUS_ERR i).key ≠ (Reg.CHN_WR_CFG_STATUS_CODE i).key := by
    simp [Field.key, Reg.CHN_WR_CFG_STATUS_ERR, Reg.CHN_WR_CFG_STATUS_CODE]
  rw [State.reject_of_noError herr, State.get_put_ne _ _ _ hkey, State.get_put_same, State.get_put_same]
  exact ⟨rfl, Nat.mod_eq_of_lt hc⟩

/-- PA_STATUS is not among the fields that a source's rise changes. -/
theorem paStatus_not_mem_riseFields (a i : Nat) : (Reg.CHN_PA_STATUS_FAULT a).key ∉ (riseFields i).map Field.key ∧
    (Reg.CHN_PA_STATUS_VERIFY_ERR a).key ∉ (riseFields i).map Field.key := by
  simp only [riseFields_keys, dropFields_keys, bufErrorFields_keys, List.cons_append, List.nil_append, Field.key,
    Reg.CHN_PA_STATUS_FAULT, Reg.CHN_PA_STATUS_VERIFY_ERR, List.mem_cons, List.not_mem_nil, or_false, not_or]
  omega

/-- Where every gate of the scope is closed, a source's rise is in the cause registers alone. -/
theorem SourcesKept.riseSource_of_shut {s : State} {b : Nat} (hwarn : b ≠ 3) {scope : List Nat}
    (h : ∀ i ∈ scope, (s.slot i).gate = false) :
    SourcesKept s (s.riseSource b scope) (scope.map Reg.CHN_WR_CAUSE_CAUSE) := by
  rw [State.riseSource_of_shut hwarn h]
  refine List.foldlRecOn (motive := fun t => SourcesKept s t (scope.map Reg.CHN_WR_CAUSE_CAUSE)) scope _
    (SourcesKept.refl s _) fun t ht i hi => ht.put _ _ ?_
  exact List.mem_map_of_mem (List.mem_map_of_mem hi)

theorem gates_of_all {s : State} {scope : List Nat} (h : scope.all (fun i => !(s.slot i).gate) = true) :
    ∀ i ∈ scope, (s.slot i).gate = false := by
  simpa using h

/-! ## A mismatch -/

theorem BlocksKept.of_fields {s t : State} {K : List Field} {bs : List Nat} (h : FieldsKept s t K)
    (hK : ∀ F ∈ K, F.key / 2 ^ 25 ∈ bs) : BlocksKept s t bs := by
  intro F hF
  refine h F fun hmem => ?_
  obtain ⟨G, hG, hkey⟩ := List.mem_map.mp hmem
  exact hF (hkey ▸ hK G hG)

/-- A refusal touches no cause register and not VERIFY_ERR. -/
theorem cause_verify_not_mem_refusalFields (j i : Nat) :
    (Reg.CHN_WR_CAUSE_CAUSE j).key ∉ (refusalFields i).map Field.key ∧
      (Reg.CHN_PA_STATUS_VERIFY_ERR j).key ∉ (refusalFields i).map Field.key := by
  have hsource := active_cause_verify_not_mem_sourceFields j
  have hcauses := not_mem_keys_flatMap (xs := slotsOf (actOf i)) fun k _ => (hsource k).2.1
  have hverify := not_mem_keys_flatMap (xs := slotsOf (actOf i)) fun k _ => (hsource k).2.2
  rw [refusalFields, memberFields]
  simp only [List.map_append, List.mem_append, not_or, hcauses, hverify, (hsource i).2.1, (hsource i).2.2,
    not_false_eq_true, and_true]
  simp only [List.map_cons, List.map_nil, List.mem_cons, List.not_mem_nil, or_false, not_or, Field.key,
    Reg.CHN_WR_CAUSE_CAUSE, Reg.CHN_PA_STATUS_VERIFY_ERR, Reg.FMT_CFG_STATUS_ERR, Reg.FMT_CFG_STATUS_CODE,
    Reg.CHN_FE_STATUS_ACTIVE, Reg.CHN_WR_STATUS_GATE, Reg.FMT_STATUS_MEMBER]
  omega

/-- The link idle again, VERIFY_ERR set and the preamp source risen. -/
def State.verifyFailed (s : State) (a : Nat) : State :=
  ((s.putPa a paInit).put (Reg.CHN_PA_STATUS_VERIFY_ERR a) 1).riseSource 2 (slotsOf a)

/-- The register fields that a mismatch on slot `i` changes. -/
def mismatchFields (i : Nat) : List Field :=
  Reg.CHN_PA_STATUS_VERIFY_ERR (actOf i) :: (slotsOf (actOf i)).map Reg.CHN_WR_CAUSE_CAUSE ++ refusalFields i

/-- They lie in the blocks of the channels, the formatters, the servo and control engines, and the spindle. -/
theorem mismatchFields_blocks (i : Fin 16) : ∀ F ∈ mismatchFields i.val, F.key / 2 ^ 25 ∈
    [0x40A00000 / 2 ^ 20, 0x40C00000 / 2 ^ 20, 0x40D00000 / 2 ^ 20, 0x40E00000 / 2 ^ 20] := by
  revert i
  decide +kernel

theorem State.get_verify_verifyFailed (s : State) (a : Nat) :
    (s.verifyFailed a).get (Reg.CHN_PA_STATUS_VERIFY_ERR a) = 1 :=
  ((GatesKept.riseSource _ (by decide) (slotsOf a)).fields _
    (not_mem_keys_flatMap fun i _ => (paStatus_not_mem_riseFields a i).2)).trans (State.get_put_same _ _ 1)

section Mismatch
variable {s : State} {i : Nat} (h : ∀ k ∈ slotsOf (actOf i), (s.slot k).gate = false)
include h

theorem SourcesKept.verifyFailed : SourcesKept s (s.verifyFailed (actOf i)) (mismatchFields i) := by
  have hset := (SourcesKept.putPa s (actOf i) paInit (mismatchFields i)).put (Reg.CHN_PA_STATUS_VERIFY_ERR (actOf i)) 1
    (by simp [mismatchFields])
  have hrise : SourcesKept _ (s.verifyFailed (actOf i)) _ := SourcesKept.riseSource_of_shut (by decide) h
  exact hset.trans (hrise.mono (List.Subset.trans (List.subset_cons_self _ _) (List.subset_append_left _ _)))

theorem State.gates_verifyFailed : ∀ k ∈ slotsOf (actOf i), ((s.verifyFailed (actOf i)).slot k).gate = false :=
  fun k hk => ((SourcesKept.verifyFailed h).slot k).gate (h k hk)

theorem SourcesKept.mismatch : SourcesKept s ((s.verifyFailed (actOf i)).refuseMember i) (mismatchFields i) :=
  (SourcesKept.verifyFailed h).trans
    ((SourcesKept.refuseMember (State.gates_verifyFailed h)).mono (List.subset_append_right _ _))

/-- The refusal leaves what the preamp source set: VERIFY_ERR, the cause of the four slots and their closed gates. -/
theorem State.mismatch_source :
    ((s.verifyFailed (actOf i)).refuseMember i).get (Reg.CHN_PA_STATUS_VERIFY_ERR (actOf i)) = 1 ∧
      ∀ k ∈ slotsOf (actOf i),
        hasBit (((s.verifyFailed (actOf i)).refuseMember i).get (Reg.CHN_WR_CAUSE_CAUSE k)) 2 = true ∧
          (((s.verifyFailed (actOf i)).refuseMember i).slot k).gate = false := by
  have hrefuse := SourcesKept.refuseMember (State.gates_verifyFailed h)
  refine ⟨?_, fun k hk => ⟨?_, (hrefuse.slot k).gate (State.gates_verifyFailed h k hk)⟩⟩
  · rw [hrefuse.fields _ (cause_verify_not_mem_refusalFields _ i).2, State.get_verify_verifyFailed]
  · rw [hrefuse.fields _ (cause_verify_not_mem_refusalFields k i).1]
    exact (State.cause_gate_riseSource _ (by decide) (by decide) hk).1

end Mismatch

/-! ## The statement -/

/-- Settles O14, by the cases of the three commands; a mismatch by what the preamp source sets and the refusal keeps. -/
theorem preampLink : Obligations.PreampLink := by
  unfold Obligations.PreampLink
  refine ⟨?idle, ?queued, ?busy, ?firmwareRead, ?readBack, ?mismatch, ?fault, ?faultShut, ?faultBusy⟩
  case idle =>
    intro i v s hbusy hpa
    refine ⟨_, execPaCmdWrite_of_idle hbusy hpa, State.get_put_same s (Reg.CHN_PA_STATUS_BUSY (i.val / 4)) 1, ?_, rfl, ?_,
      BytesKept.of_mem rfl⟩
    · rw [State.pa_emit, State.pa_putPa_same]
      rfl
    · exact (FieldsKept.refl s _).put (Reg.CHN_PA_STATUS_BUSY (i.val / 4)) 1 (by simp)
  case queued =>
    intro i v s hbusy hprog
    exact ⟨_, execPaCmdWrite_of_sending hbusy hprog, State.pa_putPa_same _ _ _,
      State.get_put_same s (Reg.CHN_PA_STATUS_BUSY (i.val / 4)) 1, rfl,
      (FieldsKept.refl s _).put (Reg.CHN_PA_STATUS_BUSY (i.val / 4)) 1 (by simp), BytesKept.of_mem rfl⟩
  case busy =>
    intro i v s hbusy herr
    obtain ⟨hflag, hcode⟩ := State.get_reject_writePath herr (c := 4) (by decide)
    refine ⟨_, execPaCmdWrite_of_busy hbusy, hflag, hcode, ?_, FieldsKept.reject s _ _ 4, BytesKept.of_mem (by simp)⟩
    rw [State.reject_of_noError herr]
    rfl
  case firmwareRead =>
    intro a d f s hpa hkind hread
    have hkey : (Reg.CHN_PA_RDATA_DATA a.val).key ≠ (Reg.CHN_PA_STATUS_BUSY a.val).key := by
      simp only [Field.key, Reg.CHN_PA_RDATA_DATA, Reg.CHN_PA_STATUS_BUSY]
      omega
    refine ⟨_, execPreampFrameDone_of_firmwareRead hpa hkind hread, ?_, State.get_put_same _ _ 0, ?_, ?_,
      BytesKept.of_mem (by simp)⟩
    · rw [State.get_put_ne _ _ _ hkey, State.get_put_same]
    · exact congrArg PaLink.prog (State.pa_putPa_same s a.val paInit)
    · exact ((FieldsKept.of_f (State.putPa_f s _ _) _).put _ _ (by simp)).put _ _ (by simp)
  case readBack =>
    intro a d f m s hpa hkind hmem hcourse hnew hdata
    refine ⟨_, execPreampFrameDone_of_match hpa hkind hmem hcourse hnew hdata, ?_, ?_, FieldsKept.of_f (by simp) _,
      BytesKept.of_mem (by simp)⟩
    · rw [State.slot_modSlot_same]
    · exact congrArg PaLink.prog (State.pa_putPa_same s a.val paInit)
  case mismatch =>
    intro a d f m s hpa hkind hslot hmem hcourse hnew hdata hall
    have hact : actOf (4 * a.val + f.slot) = a.val := by unfold actOf; omega
    have hgates := gates_of_all hall
    rw [← hact] at hgates
    obtain ⟨hverify, hsource⟩ := State.mismatch_source hgates
    have hkept := SourcesKept.mismatch hgates
    have hidle := State.courseless_refuseMember (State.gates_verifyFailed hgates)
    have hactive := State.get_active_refuseMember (State.gates_verifyFailed hgates)
    have hblocks := mismatchFields_blocks ⟨4 * a.val + f.slot, by omega⟩
    rw [hact] at hverify hsource hkept hidle hactive
    have hnext := SourcesKept.paNext ((s.verifyFailed a.val).refuseMember (4 * a.val + f.slot)) a.val []
    refine ⟨_, execPreampFrameDone_of_mismatch hpa hkind hmem hcourse hnew hdata, ?_, ?_, ?_, ?_, ?_, ?_⟩
    · exact (hnext.fields _ (by simp)).trans hverify
    · refine State.all_cause_gate fun k hk => ?_
      exact ⟨(hnext.fields _ (by simp)).symm ▸ (hsource k hk).1, (hnext.slot k).gate (hsource k hk).2⟩
    · exact (hnext.slot _).courseless hidle
    · exact (hnext.fields _ (by simp)).trans hactive
    · exact BlocksKept.of_fields (hkept.trans (hnext.mono (List.nil_subset _))).fields hblocks
    · exact BytesKept.of_mem (hkept.trans (hnext.mono (List.nil_subset _))).mem
  case fault =>
    intro a s hidle
    refine ⟨_, execPreampFault_of_idle hidle, ?_, State.all_cause_gate fun k hk =>
      State.cause_gate_riseSource _ (by decide) (by decide) hk⟩
    exact ((GatesKept.riseSource _ (by decide) _).fields _
      (not_mem_keys_flatMap fun i _ => (paStatus_not_mem_riseFields a.val i).1)).trans (State.get_put_same s _ 1)
  case faultShut =>
    intro a s hidle hall
    have hrise := SourcesKept.riseSource_of_shut (s := s.put (Reg.CHN_PA_STATUS_FAULT a.val) 1) (b := 2) (by decide)
      (gates_of_all hall)
    refine ⟨_, execPreampFault_of_idle hidle, ?_, BytesKept.of_mem hrise.mem⟩
    exact ((FieldsKept.refl s _).put _ 1 (by simp)).trans (hrise.fields.mono (List.subset_cons_self _ _))
  case faultBusy => exact fun a s h => ⟨s, execPreampFault_of_busy h, rfl⟩

end Sys2Proof.Machine
end

