-- ==== Sys2Proof/Proofs/MediaClock.lean ====
section
/-! SUPPORT. The media clock (06 R155 to R158): a clock field of each kind, lock, and loss of lock. -/

namespace Sys2Proof.Machine

/-! ## Two's complement -/

theorem toSigned_ofSigned_of_range {w : Nat} {v : Int} (hw : 0 < w) (hlo : -(2 ^ (w - 1) : Nat) ≤ v)
    (hhi : v < (2 ^ (w - 1) : Nat)) : toSigned w (ofSigned w v % 2 ^ w) = v := by
  obtain ⟨n, rfl⟩ := Nat.exists_eq_add_of_le' hw
  have hpow : (2 ^ (n + 1) : Nat) = 2 * 2 ^ n := by rw [Nat.pow_succ, Nat.mul_comm]
  simp only [Nat.add_sub_cancel] at hlo hhi
  have hpos : 0 < 2 ^ n := Nat.two_pow_pos n
  unfold toSigned ofSigned
  rw [Nat.add_sub_cancel, Nat.mod_mod, hpow]
  generalize 2 ^ n = p at *
  rcases lt_or_ge v 0 with hneg | hnonneg
  · have hmod : v % ((2 * p : Nat) : Int) = v + (2 * p : Nat) := by
      rw [← Int.add_emod_right, Int.emod_eq_of_lt (by omega) (by omega)]
    rw [hmod, Nat.mod_eq_of_lt (by omega)]
    split <;> omega
  · rw [Int.emod_eq_of_lt hnonneg (by omega), Nat.mod_eq_of_lt (by omega)]
    split <;> omega

theorem clampInt_mem {lo hi : Int} (h : lo ≤ hi) (v : Int) : lo ≤ clampInt lo hi v ∧ clampInt lo hi v ≤ hi := by
  unfold clampInt
  split
  · omega
  · split <;> omega

/-! ## CLOCK_FIELD by case -/

section ClockField
variable {i : Fin 16} {x : Int} {samples : List Int} {m : Member} {s : State}

theorem execClockField_of_flagged (hmem : (s.slot i.val).mem = some m) (hon : s.srcState i.val ≠ 0)
    (hflag : s.clockInvalid i.val m samples = true) : execClockField i x samples s =
      .next (((s.inc (Reg.SRV_CLK_ERR_COUNT (i.val / 4))).inc (Reg.CHN_MC_COAST_COUNT i.val)).modSlot i.val fun x =>
        { x with okRun := 0, invRun := x.invRun + 1 }) := by
  simp only [execClockField, hmem, hon, hflag, if_false, if_true, actOf]

theorem execClockField_of_valid (hmem : (s.slot i.val).mem = some m) (htrack : s.srcState i.val = 3)
    (hvalid : s.clockInvalid i.val m samples = false) : execClockField i x samples s =
      .next (s.clockValid i.val m (clockError m.cells x)) := by
  simp [execClockField, hmem, htrack, hvalid]

theorem execClockField_of_noMember (h : (s.slot i.val).mem = none) : execClockField i x samples s = .next s := by
  simp only [execClockField, h]

end ClockField

/-! ## MEDIA_CLOCK_LOCK and LOSS_OF_LOCK by case -/

section Lock
variable {i : Fin 16} {s : State}

theorem State.locked_of_clear {i : Nat} (h : s.get (Reg.CHN_MC_STATUS_LOCKED i) = 0) : s.locked i = false := by
  simp [State.locked, State.flag_eq, h]

theorem execMediaClockLock_of_run {m : Member} (hmem : (s.slot i.val).mem = some m)
    (hfree : s.get (Reg.CHN_MC_STATUS_LOCKED i.val) = 0) (hrun : 4 ≤ (s.slot i.val).okRun) :
    execMediaClockLock i s = .next ((s.put (Reg.CHN_MC_STATUS_LOCKED i.val) 1).modSlot i.val fun x =>
      { x with unlocked := false, badRun := 0 }) := by
  simp [execMediaClockLock, hmem, State.locked_of_clear hfree, hrun]

theorem execMediaClockLock_of_short (h : (s.slot i.val).okRun < 4) : execMediaClockLock i s = .next s := by
  simp [execMediaClockLock, not_le.mpr h]

/-- The slot reacquires: not locked, the loss counted, the acquisition gains from here on (06 R158). -/
def State.reacquire (s : State) (i : Nat) : State :=
  ((((s.put (Reg.CHN_MC_STATUS_LOCKED i) 0).inc (Reg.CHN_MC_UNLOCKS_COUNT i)).modSlot i fun x =>
    { x with unlocked := true, validCnt := 0, okRun := 0 }).put (Reg.CHN_MC_STATUS_ACQ i) 1)

theorem execLossOfLock_of_lost (hlocked : s.locked i.val = true) (hmust : s.mustUnlock i.val = true) :
    execLossOfLock i s = .next ((s.reacquire i.val).riseSource 5 [i.val]) := by
  simp only [execLossOfLock, hlocked, hmust, Bool.and_self, if_true, State.reacquire]

/-- A run below its limit and a TRIM within its range keep the lock. -/
theorem execLossOfLock_of_within (hbad : (s.slot i.val).badRun < 2) (hinv : (s.slot i.val).invRun < 3)
    (htrim : (s.sget (Reg.CHN_MC_TRIM_TRIM i.val)).natAbs < 335544) : execLossOfLock i s = .next s := by
  simp [execLossOfLock, State.mustUnlock, not_le.mpr hbad, not_le.mpr hinv, htrim.ne]

end Lock

/-! ## The registers after a valid field -/

/-- The register fields that a valid clock field of slot `i` changes. -/
def clockFields (i : Nat) : List Field :=
  [Reg.CHN_MC_TRIM_TRIM i, Reg.CHN_MC_STATUS_ERR i, Reg.CHN_MC_STATUS_ACQ i]

theorem clockFields_keys_nodup (i : Nat) : ((clockFields i).map Field.key).Nodup := by
  simp only [clockFields, List.map_cons, List.map_nil, Field.key, Reg.CHN_MC_TRIM_TRIM, Reg.CHN_MC_STATUS_ERR,
    Reg.CHN_MC_STATUS_ACQ, List.nodup_cons, List.mem_cons, List.not_mem_nil, or_false, not_or, not_false_eq_true,
    List.nodup_nil, and_true]
  omega

/-- TRIM's change by a valid field with error `e`, within its limits (06 R155). -/
def State.trimmed (s : State) (i : Nat) (m : Member) (e : Int) : Int :=
  clampInt (-335544) 335544 (s.sget (Reg.CHN_MC_TRIM_TRIM i) -
    (if (s.slot i).validCnt < 8 then m.set.kiAcq else m.set.ki) * e)

/-- The slot after a valid field with error `e` (06 R155, R156). -/
def Slot.clocked (x : Slot) (m : Member) (e : Int) : Slot :=
  { x with
    phase := x.phase - rdiv ((if x.validCnt < 8 then m.set.kpAcq else m.set.kp) * e) 8
    validCnt := x.validCnt + 1
    okRun := if e.natAbs ≤ m.set.lockTol then x.okRun + 1 else 0
    badRun := if m.set.unlockTol < e.natAbs then x.badRun + 1 else 0
    invRun := 0 }

theorem State.clockValid_eq (s : State) (i : Nat) (m : Member) (e : Int) :
    s.clockValid i m e = (((s.modSlot i fun x => x.clocked m e).put (Reg.CHN_MC_TRIM_TRIM i)
      (ofSigned 32 (s.trimmed i m e))).put (Reg.CHN_MC_STATUS_ERR i) (ofSigned 8 (satSigned 8 e))).putB
        (Reg.CHN_MC_STATUS_ACQ i) (decide ((s.slot i).validCnt + 1 < 8)) := by
  simp only [State.clockValid, State.trimmed, State.modSlot, Slot.clocked, decide_eq_true_eq]

section ClockValid
variable (s : State) (i : Nat) (m : Member) (e : Int)

theorem State.slot_clockValid : (s.clockValid i m e).slot i = (s.slot i).clocked m e := by
  rw [State.clockValid_eq]
  exact State.slot_modSlot_same s i fun x => x.clocked m e

/-- What the registers read after a valid field. -/
theorem State.get_clockValid : (s.clockValid i m e).sget (Reg.CHN_MC_TRIM_TRIM i) = s.trimmed i m e ∧
    (s.clockValid i m e).sget (Reg.CHN_MC_STATUS_ERR i) = satSigned 8 e ∧
    (s.clockValid i m e).get (Reg.CHN_MC_STATUS_ACQ i) = b2n (decide ((s.slot i).validCnt + 1 < 8)) := by
  have hkeys := clockFields_keys_nodup i
  simp only [clockFields, List.map_cons, List.map_nil, List.nodup_cons, List.mem_cons, List.not_mem_nil, or_false, not_or,
    not_false_eq_true, List.nodup_nil, and_true] at hkeys
  obtain ⟨⟨htrimErr, htrimAcq⟩, herrAcq⟩ := hkeys
  obtain ⟨htrimLo, htrimHi⟩ := clampInt_mem (lo := -335544) (hi := 335544) (by decide)
    (s.sget (Reg.CHN_MC_TRIM_TRIM i) - (if (s.slot i).validCnt < 8 then m.set.kiAcq else m.set.ki) * e)
  obtain ⟨herrLo, herrHi⟩ := clampInt_mem (lo := -(2 ^ (8 - 1) : Nat)) (hi := (2 ^ (8 - 1) : Nat) - 1) (by decide) e
  rw [State.clockValid_eq, State.putB, State.sget, State.sget]
  refine ⟨?_, ?_, ?_⟩
  · rw [State.get_put_ne _ _ _ htrimAcq, State.get_put_ne _ _ _ htrimErr, State.get_put_same]
    exact toSigned_ofSigned_of_range (w := 32) (by decide) (le_trans (by decide) htrimLo) (lt_of_le_of_lt htrimHi (by decide))
  · rw [State.get_put_ne _ _ _ herrAcq, State.get_put_same]
    exact toSigned_ofSigned_of_range (w := 8) (by decide) herrLo (lt_of_le_of_lt herrHi (by decide))
  · rw [State.get_put_same]
    exact Nat.mod_eq_of_lt (b2n_lt _)

theorem FieldsKept.clockValid : FieldsKept s (s.clockValid i m e) (clockFields i) := by
  rw [State.clockValid_eq]
  refine (((FieldsKept.of_f (State.modSlot_f s i _) _).put _ _ ?_).put _ _ ?_).put _ _ ?_
  all_goals simp [clockFields]

end ClockValid

/-! ## A lost lock -/

/-- The register fields that a loss of lock changes before the write gate drops. -/
def reacquireFields (i : Nat) : List Field :=
  [Reg.CHN_MC_STATUS_LOCKED i, Reg.CHN_MC_STATUS_ACQ i, Reg.CHN_MC_UNLOCKS_COUNT i]

theorem FieldsKept.reacquire (s : State) (i : Nat) : FieldsKept s (s.reacquire i) (reacquireFields i) := by
  unfold State.reacquire State.inc
  refine FieldsKept.put _ _ (FieldsKept.trans (((FieldsKept.refl s _).put _ _ ?_).incBy _ _ ?_)
    (FieldsKept.of_f (State.modSlot_f _ i _) _)) ?_
  all_goals simp [reacquireFields]

theorem State.slot_reacquire (s : State) (i : Nat) :
    (s.reacquire i).slot i = { s.slot i with unlocked := true, validCnt := 0, okRun := 0 } :=
  State.slot_modSlot_same _ i fun x => { x with unlocked := true, validCnt := 0, okRun := 0 }

/-- What the registers read while the slot reacquires. -/
theorem State.get_reacquire (s : State) (i : Nat) : (s.reacquire i).get (Reg.CHN_MC_STATUS_LOCKED i) = 0 ∧
    (s.reacquire i).get (Reg.CHN_MC_STATUS_ACQ i) = 1 ∧
    (s.reacquire i).get (Reg.CHN_MC_UNLOCKS_COUNT i) = s.counted (Reg.CHN_MC_UNLOCKS_COUNT i) 1 := by
  have hkeys : ((reacquireFields i).map Field.key).Nodup := by
    simp only [reacquireFields, List.map_cons, List.map_nil, Field.key, Reg.CHN_MC_STATUS_LOCKED, Reg.CHN_MC_STATUS_ACQ,
      Reg.CHN_MC_UNLOCKS_COUNT, List.nodup_cons, List.mem_cons, List.not_mem_nil, or_false, not_or, not_false_eq_true,
      List.nodup_nil, and_true]
    omega
  simp only [reacquireFields, List.map_cons, List.map_nil, List.nodup_cons, List.mem_cons, List.not_mem_nil, or_false, not_or,
    not_false_eq_true, List.nodup_nil, and_true] at hkeys
  obtain ⟨⟨hlockedAcq, hlockedUnlocks⟩, hacqUnlocks⟩ := hkeys
  unfold State.reacquire State.inc
  refine ⟨?_, State.get_put_same _ _ 1, ?_⟩
  · rw [State.get_put_ne _ _ _ hlockedAcq, State.get_modSlot, State.get_incBy_ne _ _ _ hlockedUnlocks, State.get_put_same]
    rfl
  · rw [State.get_put_ne _ _ _ (Ne.symm hacqUnlocks), State.get_modSlot, State.get_incBy_same]
    exact State.counted_congr (State.get_put_ne _ _ _ (Ne.symm hlockedUnlocks)) 1

/-- The drop of the write gate changes none of the media clock's registers. -/
theorem reacquireFields_not_mem_riseFields {i : Nat} {F : Field} (hF : F ∈ reacquireFields i) :
    F.key ∉ ([i].flatMap riseFields).map Field.key := by
  refine not_mem_keys_flatMap fun k _ => ?_
  simp only [reacquireFields, List.mem_cons, List.not_mem_nil, or_false] at hF
  rcases hF with rfl | rfl | rfl
  all_goals
    simp only [riseFields_keys, dropFields_keys, bufErrorFields_keys, List.cons_append, List.nil_append, Field.key,
      Reg.CHN_MC_STATUS_LOCKED, Reg.CHN_MC_STATUS_ACQ, Reg.CHN_MC_UNLOCKS_COUNT, List.mem_cons, List.not_mem_nil, or_false,
      not_or]
    omega

theorem State.get_lossOfLock (s : State) {i : Nat} {F : Field} (hF : F ∈ reacquireFields i) :
    ((s.reacquire i).riseSource 5 [i]).get F = (s.reacquire i).get F :=
  (GatesKept.riseSource _ (by decide) [i]).fields F (reacquireFields_not_mem_riseFields hF)

theorem State.reacquire_mem (s : State) (i : Nat) : (s.reacquire i).mem = s.mem := by
  simp [State.reacquire]

/-- With the gate closed the rise of UNLOCK is in the slot's cause register alone. -/
theorem State.riseUnlock_of_shut {s : State} {i : Nat} (h : (s.slot i).gate = false) :
    (s.reacquire i).riseSource 5 [i] = (s.reacquire i).setBitOf (Reg.CHN_WR_CAUSE_CAUSE i) 5 := by
  rw [State.riseSource_of_shut (by decide)]
  · rfl
  · intro k hk
    rw [List.mem_singleton.mp hk, State.slot_reacquire]
    exact h

/-! ## The statement -/

/-- Settles O15, by the kinds of a clock field, and by the registers and the slot as a gained and a lost lock leave them. -/
theorem mediaClock : Obligations.MediaClock := by
  unfold Obligations.MediaClock
  refine ⟨?flagged, ?valid, ?noMember, ?lock, ?short, ?lostShut, ?lostOpen, ?within⟩
  case flagged =>
    intro i x samples m s hmem hon hflag
    have hkey : (Reg.SRV_CLK_ERR_COUNT (i.val / 4)).key ≠ (Reg.CHN_MC_COAST_COUNT i.val).key := by
      simp only [Field.key, Reg.SRV_CLK_ERR_COUNT, Reg.CHN_MC_COAST_COUNT]
      omega
    refine ⟨_, execClockField_of_flagged hmem hon hflag, ?_, ?_, ?_, ?_, BytesKept.of_mem (by simp)⟩
    · rw [State.slot_modSlot_same]
      rfl
    · rw [State.get_modSlot, State.inc, State.get_incBy_ne _ _ _ hkey, State.inc, State.get_incBy_same]
    · rw [State.get_modSlot, State.inc, State.get_incBy_same]
      exact State.counted_congr (State.get_incBy_ne _ _ _ hkey.symm) 1
    · exact (((FieldsKept.refl s _).incBy _ 1 (by simp)).incBy _ 1 (by simp)).trans
        (FieldsKept.of_f (State.modSlot_f _ _ _) _)
  case valid =>
    intro i x samples m s hmem htrack hvalid
    have hslot := s.slot_clockValid i.val m (clockError m.cells x)
    obtain ⟨htrim, herr, hacq⟩ := s.get_clockValid i.val m (clockError m.cells x)
    have hrun := execClockField_of_valid (x := x) hmem htrack hvalid
    refine ⟨_, hrun, ?_, ?_, ?_, ?_, ?_, htrim, herr, hacq, FieldsKept.clockValid s _ m _,
      BytesKept.of_next hrun (execClockField_mem i x samples s)⟩
    all_goals
      rw [hslot]
      rfl
  case noMember => exact fun i x samples s h => ⟨s, execClockField_of_noMember h, rfl⟩
  case lock =>
    intro i m s hmem hfree hrun
    refine ⟨_, execMediaClockLock_of_run hmem hfree hrun, State.get_put_same s (Reg.CHN_MC_STATUS_LOCKED i.val) 1,
      State.slot_modSlot_same _ _ _, ?_, BytesKept.of_mem (by simp)⟩
    exact ((FieldsKept.refl s _).put _ _ (by simp)).trans (FieldsKept.of_f (State.modSlot_f _ _ _) _)
  case short => exact fun i s h => ⟨s, execMediaClockLock_of_short h, rfl⟩
  case lostShut =>
    intro i s hlocked hmust hgate
    obtain ⟨hfree, hacq, hcount⟩ := s.get_reacquire i.val
    refine ⟨_, execLossOfLock_of_lost hlocked hmust, ?_, ?_, ?_, ?_, ?_, ?_, ?_⟩
    · exact (s.get_lossOfLock (by simp [reacquireFields])).trans hfree
    · exact (s.get_lossOfLock (by simp [reacquireFields])).trans hacq
    · rw [State.riseUnlock_of_shut hgate]
      exact s.slot_reacquire i.val
    · exact (s.get_lossOfLock (by simp [reacquireFields])).trans hcount
    · exact (State.cause_gate_riseSource _ (by decide) (by decide) (List.mem_singleton_self _)).1
    · rw [State.riseUnlock_of_shut hgate]
      exact BytesKept.of_mem ((State.setBitOf_mem _ _ _).trans (s.reacquire_mem i.val))
    · rw [State.riseUnlock_of_shut hgate]
      exact ((FieldsKept.reacquire s i.val).mono (List.subset_append_left _ [Reg.CHN_WR_CAUSE_CAUSE i.val])).put _ _
        (by simp [reacquireFields])
  case lostOpen =>
    intro i s hlocked hmust hgate
    obtain ⟨hcause, hshut⟩ := State.cause_gate_riseSource (s.reacquire i.val) (b := 5) (by decide) (by decide)
      (List.mem_singleton_self i.val)
    have hrise := GatesKept.riseSource (s.reacquire i.val) (b := 5) (by decide) [i.val]
    refine ⟨_, execLossOfLock_of_lost hlocked hmust, ?_, ?_, hshut, hcause⟩
    · exact (s.get_lossOfLock (by simp [reacquireFields])).trans (s.get_reacquire i.val).1
    · rw [(hrise.slot i.val).unlocked, State.slot_reacquire]
  case within => exact fun i s hbad hinv htrim => ⟨s, execLossOfLock_of_within hbad hinv htrim, rfl⟩

end Sys2Proof.Machine
end

