-- ==== Sys2Proof/Proofs/CodewordsAndShock.lean ====
section
/-! SUPPORT. The codewords of a slot with one write sector (06 R160 to R162, 21 R527, R530), and the shock island (06 R165,
R168). -/

namespace Sys2Proof.Machine

/-! ## A slot with one codeword -/

section OneCodeword
variable {x : Slot} {w : WrSect} (hwr : x.wr = [w]) (hnew : w.released = false)
include hwr

theorem Slot.delWr_of_single : (x.delWr w.sec).wr = [] := by
  simp [Slot.delWr, hwr]

theorem Slot.modWr_of_single (g : WrSect → WrSect) : (x.modWr w.sec g).wr = [g w] := by
  simp [Slot.modWr, hwr]

include hnew

theorem Slot.unreleased_of_single : x.unreleased = some w := by
  simp [Slot.unreleased, hwr, hnew]

theorem Slot.stagingFree_of_single : x.stagingFree = true := by
  simp [Slot.stagingFree, hwr, hnew]

theorem Slot.nextStaging_of_single : x.nextStaging = 0 := by
  simp [Slot.nextStaging, hwr, hnew]

end OneCodeword

/-! ## CODEWORD_ENCODE_DONE and CODEWORD_UNDERRUN by case -/

/-- The slot without a sector whose codeword failed its checks. -/
def Slot.failCodeword (x : Slot) (w : WrSect) : Slot := { x.delWr w.sec with dpSrc := true }

/-- The slot without a sector whose codeword underran. -/
def Slot.underrun (x : Slot) (w : WrSect) : Slot := { x.delWr w.sec with urSrc := true }

/-- Slot `i` becomes `x`, without the sector of its codeword; cause `b` is set and counter `F` counts. -/
def State.loseCodeword (s : State) (i : Nat) (x : Slot) (b : Nat) (F : Field) : State :=
  ((s.putSlot i x).setBitOf (Reg.CHN_WR_CAUSE_CAUSE i) b).inc F

section Codeword
variable {i : Fin 16} {info parity : Nat} {w : WrSect} {s : State} (hwr : (s.slot i.val).wr = [w]) (hnew : w.released = false)
include hwr hnew

theorem execCodewordEncodeDone_of_good (hbad : w.bad = false) (hflips : s.buf.flips = [])
    (hok : codewordOk w.header w.block (info % 2 ^ 32992 + 2 ^ 32992 * parity) = true) :
    execCodewordEncodeDone i info parity s =
      .next (s.modSlot i.val (·.modWr w.sec fun w => { w with released := true, staging := 0 })) := by
  simp only [execCodewordEncodeDone, Slot.unreleased_of_single hwr hnew, Slot.stagingFree_of_single hwr hnew,
    Slot.nextStaging_of_single hwr hnew, State.sramUse_of_noFlips hflips, hok, hbad, Bool.not_true, Bool.not_false,
    Bool.and_self, Bool.false_eq_true, if_false, if_true]

theorem execCodewordEncodeDone_of_failed (hflips : s.buf.flips = [])
    (hfail : w.bad = true ∨ codewordOk w.header w.block (info % 2 ^ 32992 + 2 ^ 32992 * parity) = false) :
    execCodewordEncodeDone i info parity s =
      .next (((s.loseCodeword i.val ((s.slot i.val).failCodeword w) 10
        (Reg.CHN_WR_ABORTED_COUNT i.val)).modRun (actOf i.val) w.rid fun r =>
          { r with dataPath := r.dataPath ++ [w.idx] }).missSector (actOf i.val) w.rid w.idx true) := by
  have hcheck : (codewordOk w.header w.block (info % 2 ^ 32992 + 2 ^ 32992 * parity) && !w.bad) = false := by
    rcases hfail with h | h
    · rw [h, Bool.not_true, Bool.and_false]
    · rw [h, Bool.false_and]
  simp only [execCodewordEncodeDone, Slot.unreleased_of_single hwr hnew, Slot.stagingFree_of_single hwr hnew,
    Slot.nextStaging_of_single hwr hnew, State.sramUse_of_noFlips hflips, hcheck, Bool.not_true, Bool.false_and,
    Bool.false_eq_true, if_false, State.loseCodeword, State.modSlot, Slot.failCodeword]

theorem execCodewordUnderrun_of_unreleased : execCodewordUnderrun i s =
    .next ((s.loseCodeword i.val ((s.slot i.val).underrun w) 11
      (Reg.CHN_WR_UNDERRUN_COUNT i.val)).missSector (actOf i.val) w.rid w.idx false) := by
  simp only [execCodewordUnderrun, Slot.unreleased_of_single hwr hnew, State.loseCodeword, State.modSlot, Slot.underrun]

end Codeword

theorem abortedCount_key_ne (i : Nat) : (Reg.CHN_WR_ABORTED_COUNT i).key ≠ (Reg.CHN_WR_CAUSE_CAUSE i).key ∧
    (Reg.CHN_WR_ABORTED_COUNT i).key ≠ (Reg.FMT_MISSED_COUNT (i / 4)).key := by
  simp only [Field.key, Reg.CHN_WR_ABORTED_COUNT, Reg.CHN_WR_CAUSE_CAUSE, Reg.FMT_MISSED_COUNT]
  omega

theorem underrunCount_key_ne (i : Nat) : (Reg.CHN_WR_UNDERRUN_COUNT i).key ≠ (Reg.CHN_WR_CAUSE_CAUSE i).key ∧
    (Reg.CHN_WR_UNDERRUN_COUNT i).key ≠ (Reg.FMT_MISSED_COUNT (i / 4)).key := by
  simp only [Field.key, Reg.CHN_WR_UNDERRUN_COUNT, Reg.CHN_WR_CAUSE_CAUSE, Reg.FMT_MISSED_COUNT]
  omega

/-- What a lost codeword leaves, whatever becomes of its sector in the run. -/
theorem State.lostCodeword {s t : State} {i b : Nat} {x : Slot} {F : Field} (hb : b < 12)
    (hcause : F.key ≠ (Reg.CHN_WR_CAUSE_CAUSE i).key) (hmissed : F.key ≠ (Reg.FMT_MISSED_COUNT (i / 4)).key)
    (h : SectorsKept (s.loseCodeword i x b F) t [Reg.FMT_MISSED_COUNT (i / 4)]) :
    t.slot i = x ∧ hasBit (t.get (Reg.CHN_WR_CAUSE_CAUSE i)) b = true ∧ t.get F = s.counted F 1 ∧
      FieldsKept s t [Reg.CHN_WR_CAUSE_CAUSE i, F, Reg.FMT_MISSED_COUNT (i / 4)] := by
  have hkey : (Reg.CHN_WR_CAUSE_CAUSE i).key ≠ (Reg.FMT_MISSED_COUNT (i / 4)).key := by
    simp only [Field.key, Reg.CHN_WR_CAUSE_CAUSE, Reg.FMT_MISSED_COUNT]
    omega
  refine ⟨?_, ?_, ?_, ?_⟩
  · rw [h.slot i]
    exact SMap.get_put_same s.slots slotInit i x
  · rw [h.fields _ (by simpa using hkey), State.loseCodeword, State.inc, State.get_incBy_ne _ _ _ hcause.symm]
    exact State.hasBit_setBitOf_same _ hb
  · rw [h.fields _ (by simpa using hmissed), State.loseCodeword, State.inc, State.get_incBy_same]
    exact State.counted_congr (State.get_put_ne _ _ _ hcause) 1
  · refine FieldsKept.trans (((FieldsKept.of_f (State.putSlot_f s i x) _).put _ _ (by simp)).incBy F 1 (by simp))
      (h.fields.mono (by simp))

/-! ## SENSOR_SAMPLE and SHOCK_CLEAR by case -/

section Shock
variable {k : Fin 5} {code : Nat} {s : State}

/-- The threshold of input `k` (06 R168). -/
def State.shockThreshold (s : State) (k : Nat) : Nat :=
  s.get (if k < 3 then Reg.CHN_SHK_CTL_SHK_THR else Reg.CHN_SHK_CTL_RV_THR)

/-- A sample beyond the threshold: the count of samples within it starts anew, the source is active and the input tripped. -/
def State.trip (s : State) (k : Nat) : State :=
  (s.setShock ⟨SMap.put s.shock.okRun 0 k 0, true⟩).setBitOf Reg.CHN_SHK_STATUS_TRIP k

section Enabled
variable (hclk : s.clkOk 41 = true) (hen : hasBit (s.get Reg.CHN_SHK_CTL_EN) k.val = true)
include hclk hen

theorem execSensorSample_of_enabled : execSensorSample k code s =
    .next (if s.shockThreshold k.val < ((code : Int) - 2048).natAbs then
        (if s.shock.active then s.trip k.val else (s.trip k.val).riseSource 1 allSlots)
      else s.setShock { s.shock with okRun := SMap.upd s.shock.okRun 0 k.val (satAdd 64 · 1) }) := by
  simp only [execSensorSample, hclk, hen, and_self, if_true, State.shockThreshold, apply_ite s.get, State.trip]

theorem execSensorSample_of_within (hthr : ((code : Int) - 2048).natAbs ≤ s.shockThreshold k.val) :
    execSensorSample k code s =
      .next (s.setShock { s.shock with okRun := SMap.upd s.shock.okRun 0 k.val (satAdd 64 · 1) }) := by
  rw [execSensorSample_of_enabled hclk hen, if_neg (not_lt.mpr hthr)]

/-- A trip while the source is active raises no cause again. -/
theorem execSensorSample_of_beyond_active (hthr : s.shockThreshold k.val < ((code : Int) - 2048).natAbs)
    (hactive : s.shock.active = true) : execSensorSample k code s = .next (s.trip k.val) := by
  rw [execSensorSample_of_enabled hclk hen, if_pos hthr, if_pos hactive]

theorem execSensorSample_of_beyond_inactive (hthr : s.shockThreshold k.val < ((code : Int) - 2048).natAbs)
    (hactive : s.shock.active = false) :
    execSensorSample k code s = .next ((s.trip k.val).riseSource 1 allSlots) := by
  rw [execSensorSample_of_enabled hclk hen, if_pos hthr, if_neg (by rw [hactive]; decide)]

end Enabled

theorem execSensorSample_of_disabled (h : hasBit (s.get Reg.CHN_SHK_CTL_EN) k.val = false) :
    execSensorSample k code s = .next s := by
  simp [execSensorSample, h]

theorem setBit_lt_32 : ∀ n < 32, ∀ k : Fin 5, setBit n k.val < 32 := by decide

theorem State.get_trip (hlt : s.get Reg.CHN_SHK_STATUS_TRIP < 32) :
    (s.trip k.val).get Reg.CHN_SHK_STATUS_TRIP = setBit (s.get Reg.CHN_SHK_STATUS_TRIP) k.val :=
  (State.get_put_same _ _ _).trans (Nat.mod_eq_of_lt (setBit_lt_32 _ hlt k))

end Shock

/-- SHK_STATUS is not among the fields that a source's rise changes. -/
theorem trip_not_mem_riseFields (i : Nat) : Reg.CHN_SHK_STATUS_TRIP.key ∉ (riseFields i).map Field.key := by
  simp only [riseFields_keys, dropFields_keys, bufErrorFields_keys, List.cons_append, List.nil_append, Field.key,
    Reg.CHN_SHK_STATUS_TRIP, List.mem_cons, List.not_mem_nil, or_false, not_or]
  omega

theorem execShockClear_of_quiet {s : State} (hactive : s.shock.active = true)
    (h : (maskBits 5 (s.get Reg.CHN_SHK_CTL_EN)).all (fun k => decide (64 ≤ SMap.get s.shock.okRun 0 k)) = true) :
    execShockClear s = .next (s.setShock { s.shock with active := false }) := by
  simp only [execShockClear, hactive, h, Bool.and_self, if_true]

/-- An enabled input with fewer than 64 samples within threshold holds the source. -/
theorem execShockClear_of_short {s : State}
    (h : (maskBits 5 (s.get Reg.CHN_SHK_CTL_EN)).any (fun k => decide (SMap.get s.shock.okRun 0 k < 64)) = true) :
    execShockClear s = .next s := by
  have hall : (maskBits 5 (s.get Reg.CHN_SHK_CTL_EN)).all (fun k => decide (64 ≤ SMap.get s.shock.okRun 0 k)) = false := by
    obtain ⟨k, hk, hshort⟩ := List.any_eq_true.mp h
    refine List.all_eq_false.mpr ⟨k, hk, ?_⟩
    simpa using hshort
  simp only [execShockClear, hall, Bool.and_false, Bool.false_eq_true, if_false]

/-! ## The statement -/

/-- Settles O16, by the cases of a codeword's checks, of a sample against its threshold, and of the samples that clear the
source. -/
theorem codewordsAndShock : Obligations.CodewordsAndShock := by
  unfold Obligations.CodewordsAndShock
  refine ⟨?good, ?failed, ?underrun, ?within, ?again, ?first, ?disabled, ?quiet, ?short⟩
  case good =>
    intro i info parity w s hwr hnew hbad hflips hok
    refine ⟨_, execCodewordEncodeDone_of_good hwr hnew hbad hflips hok, ?_, FieldsKept.of_f (State.modSlot_f _ _ _) _,
      BytesKept.of_mem (State.modSlot_mem _ _ _)⟩
    rw [State.slot_modSlot_same]
    exact Slot.modWr_of_single hwr _
  case failed =>
    intro i info parity w s hwr hnew hflips hfail
    have hrun := execCodewordEncodeDone_of_failed hwr hnew hflips hfail
    obtain ⟨hkeyCause, hkeyMissed⟩ := abortedCount_key_ne i.val
    obtain ⟨hslot, hcause, hcount, hfields⟩ := State.lostCodeword (x := (s.slot i.val).failCodeword w) (b := 10) (by decide)
      hkeyCause hkeyMissed
      ((SectorsKept.modRun _ (actOf i.val) w.rid _ _).trans (SectorsKept.missSector _ (actOf i.val) w.rid w.idx true))
    refine ⟨_, hrun, ?_, ?_, hcause, hcount, BytesKept.of_next hrun (execCodewordEncodeDone_mem i info parity s), hfields⟩
    · rw [hslot]
      exact Slot.delWr_of_single hwr
    · rw [hslot]
      rfl
  case underrun =>
    intro i w s hwr hnew
    have hrun := execCodewordUnderrun_of_unreleased hwr hnew
    obtain ⟨hkeyCause, hkeyMissed⟩ := underrunCount_key_ne i.val
    obtain ⟨hslot, hcause, hcount, hfields⟩ := State.lostCodeword (x := (s.slot i.val).underrun w) (b := 11) (by decide)
      hkeyCause hkeyMissed (SectorsKept.missSector _ (actOf i.val) w.rid w.idx false)
    refine ⟨_, hrun, ?_, ?_, hcause, hcount, BytesKept.of_next hrun (execCodewordUnderrun_mem i s), hfields⟩
    · rw [hslot]
      exact Slot.delWr_of_single hwr
    · rw [hslot]
      rfl
  case within =>
    intro k code s hclk hen hthr
    exact ⟨_, execSensorSample_of_within hclk hen hthr, rfl, SMap.get_put_same _ _ _ _,
      FieldsKept.of_f (State.setShock_f _ _) _, BytesKept.of_mem (State.setShock_mem _ _)⟩
  case again =>
    intro k code s hclk hen hthr hactive htrip
    exact ⟨_, execSensorSample_of_beyond_active hclk hen hthr hactive, rfl,
      SMap.get_put_same s.shock.okRun 0 k.val 0, State.get_trip htrip,
      (FieldsKept.of_f (State.setShock_f s _) _).put _ _ (by simp), BytesKept.of_mem (by simp [State.trip])⟩
  case first =>
    intro k code s hclk hen hthr hactive htrip
    have hrise := GatesKept.riseSource (s.trip k.val) (b := 1) (by decide) allSlots
    refine ⟨_, execSensorSample_of_beyond_inactive hclk hen hthr hactive, ?_, ?_,
      State.all_cause_gate fun i hi => State.cause_gate_riseSource _ (by decide) (by decide) hi⟩
    · rw [hrise.shock]
      rfl
    · exact (hrise.fields _ (not_mem_keys_flatMap fun i _ => trip_not_mem_riseFields i)).trans (State.get_trip htrip)
  case disabled => exact fun k code s h => ⟨s, execSensorSample_of_disabled h, rfl⟩
  case quiet =>
    exact fun s hactive h => ⟨_, execShockClear_of_quiet hactive h, rfl, FieldsKept.of_f (State.setShock_f _ _) _,
      BytesKept.of_mem (State.setShock_mem _ _)⟩
  case short => exact fun s h => ⟨s, execShockClear_of_short h, rfl⟩

end Sys2Proof.Machine
end

