-- ==== Sys2Proof/Proofs/TabSectors.lean ====
section
/-! SUPPORT. An ENDMEMBER can write the buffer. The end of a member (03 R88) resumes the servo-only sources of the actuator's
other slots (08 R210), and a source resumed on a slot whose write gate still stands open ends that slot's sector, whose STATUS goes
to its run's list in the buffer (07 R190), as in `strandedGate`. -/

namespace Sys2Proof.Machine

/-- The word of an ENDMEMBER alone: OP 11 and the parity bit of its half, without an event and without a push (07 R185, R187). -/
def endMemberWord : Nat := 11 * 2 ^ 64 + 2 ^ 127

/-- `strandedGate` with formatter 0 running and its thread 0 at word 0 of the patch RAM, an ENDMEMBER; slot 0 has nothing
unfinished, and slot 1 has no member but an open gate over `strandedSector`. -/
def strandedThread : State :=
  ((strandedGate.setPwr { State.reset.pwr with dom := [(80, .on), (92, .on)] }).put (Reg.FMT_CTL_RUN 0) 1).modFmt 0 fun m =>
    { m with threads := [(0, { threadInit with patch := true })], patch := [(0, endMemberWord)] }

theorem strandedThread_fetches : strandedThread.fetches 0 0 endMemberWord 11 = true := by decide +kernel

theorem strandedThread_finished : (strandedThread.slot 0).unfinished = none := by decide +kernel

theorem strandedThread_byte : strandedThread.byte 4103 = 0#8 := by decide +kernel

/-- The ENDMEMBER ends slot 1's sector as written: STATUS 1 in the top four bits of its list entry. -/
theorem endmember_strandedThread_byte :
    (Res.mem (exec (.endmember 0 0) strandedThread)).map (fun m => SMap.get m 0 4103) = some 0x10#8 := by decide +kernel

/-- Refutes O18: its clause on an ENDMEMBER that ends the slot's member lets no byte of the buffer change where the word has no event,
and from `strandedThread` it writes the STATUS of slot 1's sector, at byte 4103. -/
theorem not_tabSectors : ¬ Obligations.TabSectors := by
  unfold Obligations.TabSectors
  rintro ⟨-, -, -, -, -, -, -, -, -, -, -, -, -, hend, -⟩
  obtain ⟨t, ht, -, -, -, -, -, -, -, -, -, -, -, hbytes⟩ :=
    hend 0 0 endMemberWord strandedThread strandedThread_fetches strandedThread_finished
  have hwritten := endmember_strandedThread_byte
  rw [ht, Res.mem_next] at hwritten
  have hsame : t.byte 4103 = 0#8 := (hbytes (by decide) 4103).trans strandedThread_byte
  exact absurd ((Option.some.inj hwritten).symm.trans hsame) (by decide)

end Sys2Proof.Machine
end

