-- ==== Sys2Proof/Proofs/EdgeQueue.lean ====
section
/-! SUPPORT. SG loads into E1's gain, a field of 8 bits, what the servo gain of its head reads (04 R111). The statement asks that E1's
gain then read that value, in every state; a field of the table that holds more than its 8 bits, which the state does not exclude,
loses the excess. -/

namespace Sys2Proof.Machine

/-- An entry that raises SG alone, at cell 0 of wedge 0. -/
def servoEntry : Edge := ⟨0, 0, false, false, true, false, 0⟩

/-- Reset with the servo gain of head 0 at 256 in the table of fields, and slot 0 with a member on that head and an entry that raises
SG in its queue. -/
def wideServoGain : State :=
  (State.reset.setF [((Reg.SRV_SGAIN_GAIN 0 0).key, 256)]).modSlot 0 fun x =>
    { x with mem := some asymMember, eq := [servoEntry] }

theorem wideServoGain_gain : wideServoGain.get (Reg.SRV_SGAIN_GAIN 0 asymMember.head) = 256 := by decide +kernel

theorem wideServoGain_source : wideServoGain.srcState 0 ≠ 1 := by decide +kernel

/-- E1's gain takes the low 8 bits, 0. -/
theorem edgeEntryApply_wideServoGain : (Res.f (exec (.edgeEntryApply 0) wideServoGain)).map
    (fun f => SMap.get f (Reg.CHN_FE_STATE_GAIN 0 1).rst (Reg.CHN_FE_STATE_GAIN 0 1).key) = some 0 := by decide +kernel

/-- Refutes O19: its clause on SG asks that E1's gain read what the servo gain of the head reads, and from `wideServoGain` the entry
brings it to 0, not 256. -/
theorem not_edgeQueue : ¬ Obligations.EdgeQueue := by
  unfold Obligations.EdgeQueue
  rintro ⟨-, -, -, -, -, -, -, -, -, -, -, -, -, hservo⟩
  obtain ⟨t, ht, -, hgain, -⟩ := hservo 0 servoEntry [] asymMember wideServoGain (by decide +kernel) (by decide +kernel)
    (by decide +kernel) rfl (by decide +kernel) (by decide +kernel) (by decide +kernel) (by decide +kernel) rfl
    (by decide +kernel) wideServoGain_source
  have hread := edgeEntryApply_wideServoGain
  rw [ht, Res.f_next] at hread
  have hzero : t.get (Reg.CHN_FE_STATE_GAIN 0 1) = 0 := Option.some.inj hread
  have hwide : t.get (Reg.CHN_FE_STATE_GAIN 0 1) = 256 := hgain.trans wideServoGain_gain
  exact absurd (hzero.symm.trans hwide) (by decide)

end Sys2Proof.Machine
end

