-- ==== Sys2Proof/Proofs/FormatterRules.lean ====
section
/-! SUPPORT. Formatters and threads: what is read after a change of one, and the operations that leave every formatter as it was. -/

namespace Sys2Proof.Machine

/-! ## Reads after a change -/

@[simp] theorem State.fmt_modFmt_same (s : State) (a : Nat) (g : Fmt → Fmt) : (s.modFmt a g).fmt a = g (s.fmt a) :=
  SMap.get_put_same s.fmts fmtInit a _

theorem State.fmt_modFmt_ne (s : State) {a b : Nat} (g : Fmt → Fmt) (h : b ≠ a) : (s.modFmt a g).fmt b = s.fmt b :=
  SMap.get_put_ne s.fmts fmtInit fmtInit _ h

theorem State.fmt_congr {s t : State} (h : t.fmts = s.fmts) (a : Nat) : t.fmt a = s.fmt a := by
  rw [State.fmt, State.fmt, h]

theorem State.thread_congr {s t : State} (h : t.fmts = s.fmts) (a j : Nat) : t.thread a j = s.thread a j := by
  rw [State.thread, State.thread, State.fmt_congr h]

theorem State.slot_congr {s t : State} (h : t.slots = s.slots) (i : Nat) : t.slot i = s.slot i := by
  rw [State.slot, State.slot, h]

@[simp] theorem State.thread_putThread_same (s : State) (a j : Nat) (x : Thread) : (s.putThread a j x).thread a j = x := by
  rw [State.thread, State.putThread, State.fmt_modFmt_same]
  exact SMap.get_put_same _ threadInit j x

theorem State.thread_putThread_ne (s : State) {a j k : Nat} (x : Thread) (h : k ≠ j) :
    (s.putThread a j x).thread a k = s.thread a k := by
  rw [State.thread, State.putThread, State.fmt_modFmt_same]
  exact SMap.get_put_ne _ threadInit threadInit x h

theorem State.fmt_putThread (s : State) (a j : Nat) (x : Thread) :
    (s.putThread a j x).fmt a = { s.fmt a with threads := SMap.put (s.fmt a).threads threadInit j x } :=
  s.fmt_modFmt_same a _

/-! ## Operations that leave every formatter, every slot and the cache of blocks -/

/-- The formatters, the slots and the cache of blocks. -/
def State.tables (s : State) : SMap Fmt × SMap Slot × SMap CacheBlk := (s.fmts, s.slots, s.cache)

theorem State.fmts_of_tables {s t : State} (h : t.tables = s.tables) : t.fmts = s.fmts := congrArg (·.1) h

theorem State.slots_of_tables {s t : State} (h : t.tables = s.tables) : t.slots = s.slots := congrArg (·.2.1) h

theorem State.cache_of_tables {s t : State} (h : t.tables = s.tables) : t.cache = s.cache := congrArg (·.2.2) h

@[simp] theorem State.ite_tables (c : Prop) [Decidable c] (s t : State) :
    (if c then s else t).tables = if c then s.tables else t.tables :=
  apply_ite _ _ _ _

@[simp] theorem State.put_tables (s : State) (F : Field) (v : Nat) : (s.put F v).tables = s.tables := rfl
@[simp] theorem State.incBy_tables (s : State) (F : Field) (n : Nat) : (s.incBy F n).tables = s.tables := rfl
@[simp] theorem State.inc_tables (s : State) (F : Field) : (s.inc F).tables = s.tables := rfl
@[simp] theorem State.put64_tables (s : State) (lo hi : Field) (v : Nat) : (s.put64 lo hi v).tables = s.tables := rfl
@[simp] theorem State.draw_tables (s : State) (n : Nat) : (s.draw n).tables = s.tables := rfl
@[simp] theorem State.emit_tables (s : State) (o : Out) : (s.emit o).tables = s.tables := rfl
@[simp] theorem State.setEvr_tables (s : State) (x : Evr) : (s.setEvr x).tables = s.tables := rfl
@[simp] theorem State.putBucket_tables (s : State) (code : Nat) (b : Bucket) : (s.putBucket code b).tables = s.tables := rfl
@[simp] theorem State.charge_tables (s : State) (cls n : Nat) : (s.charge cls n).tables = s.tables := rfl
@[simp] theorem State.setChk_tables (s : State) (x : SMap Nat) : (s.setChk x).tables = s.tables := rfl
@[simp] theorem State.setByte_tables (s : State) (a : Nat) (b : Byte) : (s.setByte a b).tables = s.tables := rfl
@[simp] theorem State.storeMem_tables (s : State) (a v n : Nat) : (s.storeMem a v n).tables = s.tables := rfl

@[simp] theorem State.fixBurst_tables (s : State) (b p v : Nat) : (s.fixBurst b p v).tables = s.tables := by
  simp [State.fixBurst]

@[simp] theorem State.readBurst_tables (s : State) (b : Nat) : (s.readBurst b).2.tables = s.tables := by
  unfold State.readBurst
  split
  · rfl
  · simp
  · simp

@[simp] theorem State.readBursts_tables (s : State) (bs : List Nat) : (s.readBursts bs).2.tables = s.tables := by
  induction bs generalizing s with
  | nil => rfl
  | cons b bs ih => exact (ih _).trans (s.readBurst_tables b)

@[simp] theorem State.bufRead_tables (s : State) (cls a n : Nat) : (s.bufRead cls a n).2.tables = s.tables := by
  unfold State.bufRead
  split
  · exact State.readBursts_tables _ _
  · rfl

@[simp] theorem State.writeBurst_tables (s : State) (b lo hi v : Nat) : (s.writeBurst b lo hi v).2.tables = s.tables := by
  unfold State.writeBurst
  split
  · rfl
  · dsimp only
    split <;> exact s.readBurst_tables b

@[simp] theorem State.writeBursts_tables (s : State) (a n v : Nat) (bs : List Nat) :
    (s.writeBursts a n v bs).2.tables = s.tables := by
  induction bs generalizing s with
  | nil => rfl
  | cons b bs ih => exact (ih _).trans (State.writeBurst_tables s b _ _ _)

@[simp] theorem State.bufWrite_tables (s : State) (cls a v n : Nat) : (s.bufWrite cls a v n).2.tables = s.tables := by
  unfold State.bufWrite
  split
  · exact State.writeBursts_tables _ a n v _
  · rfl

@[simp] theorem State.writeStatus_tables (s : State) (addr st : Nat) : (s.writeStatus addr st).tables = s.tables := by
  unfold State.writeStatus
  dsimp only
  split <;> simp

/-! ## Events (20 R510 to R515) -/

/-- The register fields that an event may change, with those of the buffer's errors. -/
def recordFields : List Field := eventFields ++ bufErrorFields

@[simp] theorem State.rateLimit_tables (s : State) (code severity : Nat) :
    (s.rateLimit code severity).2.tables = s.tables := by
  unfold State.rateLimit
  repeat' split
  all_goals simp

@[simp] theorem State.ringRecord_tables (s : State) (r : EvRec) : (s.ringRecord r).tables = s.tables := by
  simp [State.ringRecord]

@[simp] theorem State.place_tables (s : State) (r : EvRec) : (s.place r).tables = s.tables := by
  simp [State.place]

@[simp] theorem State.wait_tables (s : State) (r : EvRec) : (s.wait r).tables = s.tables := by
  simp [State.wait]

@[simp] theorem State.raise_tables (s : State) (code unit : Nat) : (s.raise code unit).tables = s.tables := by
  unfold State.raise State.raiseWith
  dsimp only
  split <;> simp

theorem FieldsKept.rateLimit (s : State) (code severity : Nat) :
    FieldsKept s (s.rateLimit code severity).2 recordFields := by
  unfold State.rateLimit
  repeat' split
  · exact FieldsKept.of_f (State.putBucket_f _ _ _) _
  · exact (FieldsKept.of_f (State.putBucket_f s _ _) _).incBy _ 1 (by simp [recordFields, eventFields])
  · exact FieldsKept.of_f (State.putBucket_f _ _ _) _
  · exact FieldsKept.refl s _
  · exact (FieldsKept.refl s _).incBy _ 1 (by simp [recordFields, eventFields])
  · exact FieldsKept.of_f (State.putBucket_f _ _ _) _

theorem FieldsKept.put64 {s t : State} {K : List Field} {lo hi : Field} (v : Nat) (h : FieldsKept s t K)
    (hlo : lo.key ∈ K.map Field.key) (hhi : hi.key ∈ K.map Field.key) : FieldsKept s (t.put64 lo hi v) K :=
  (h.put lo _ hlo).put hi _ hhi

theorem FieldsKept.ringRecord (s : State) (r : EvRec) : FieldsKept s (s.ringRecord r) recordFields := by
  have hhead : FieldsKept s (s.put64 Reg.EVR_HEAD_LO_SEQ Reg.EVR_HEAD_HI_SEQ (r.seq + 1)) recordFields :=
    (FieldsKept.refl s _).put64 _ (by simp [recordFields, eventFields]) (by simp [recordFields, eventFields])
  have hwrite := fun addr v => hhead.trans ((SectorsKept.bufWrite _ 4 addr v 64).fields.mono (List.subset_append_right eventFields _))
  unfold State.ringRecord
  dsimp only
  split
  · split
    · exact (hwrite _ _).put64 _ (by simp [recordFields, eventFields]) (by simp [recordFields, eventFields])
    · exact hwrite _ _
  · exact FieldsKept.refl s _

theorem FieldsKept.place (s : State) (r : EvRec) : FieldsKept s (s.place r) recordFields :=
  ((FieldsKept.of_f (State.setEvr_f s _) _).trans (FieldsKept.ringRecord _ _)).incBy _ 1 (by simp [recordFields, eventFields])

theorem FieldsKept.wait (s : State) (r : EvRec) : FieldsKept s (s.wait r) recordFields := by
  unfold State.wait
  split
  · exact FieldsKept.of_f (State.setEvr_f s _) _
  · exact (FieldsKept.refl s _).incBy _ 1 (by simp [recordFields, eventFields])

theorem FieldsKept.raise (s : State) (code unit : Nat) : FieldsKept s (s.raise code unit) recordFields := by
  have hlimit := FieldsKept.rateLimit s code 0
  unfold State.raise State.raiseWith
  dsimp only
  split
  · exact hlimit
  · split
    · exact (hlimit.trans (FieldsKept.of_f (State.draw_f _ 2) _)).trans (FieldsKept.place _ _)
    · exact (hlimit.trans (FieldsKept.of_f (State.draw_f _ 2) _)).trans (FieldsKept.wait _ _)

/-! ## The window and the blocks' ends (11 R282, R285; 15 R399, R400) -/

theorem State.when_fmts {s : State} {g : State → State} (h : (g s).fmts = s.fmts) (b : Bool) : (s.when b g).fmts = s.fmts := by
  cases b
  · rfl
  · exact h

theorem State.each_fmts {α : Type} {g : State → α → State} (h : ∀ s x, (g s x).fmts = s.fmts) (xs : List α) (s : State) :
    (s.each xs g).fmts = s.fmts :=
  List.foldlRecOn (motive := fun t => t.fmts = s.fmts) xs g rfl fun t ht x _ => (h t x).trans ht

theorem State.putWindow_fmts (s : State) (w : SMap WinEntry) : (s.putWindow w).fmts = s.fmts := by
  unfold State.putWindow
  split <;> rfl

theorem State.freeWin_fmts (s : State) (i : Nat) : (s.freeWin i).fmts = s.fmts :=
  State.putWindow_fmts s _

theorem State.dropWin_fmts (s : State) (i : Nat) : (s.dropWin i).fmts = s.fmts :=
  State.freeWin_fmts s i

theorem State.freeHeld_fmts (s : State) (nsid lba : Nat) (older : Nat → WinEntry → Bool) :
    (s.freeHeld nsid lba older).fmts = s.fmts :=
  State.each_fmts State.dropWin_fmts _ s

theorem State.putMeta_fmts (s : State) (g : Spt → Spt) : (s.putMeta g).fmts = s.fmts := by
  unfold State.putMeta
  split <;> rfl

theorem State.blockDone_fmts (s : State) (addr : Nat) : (s.blockDone addr).fmts = s.fmts := by
  unfold State.blockDone
  split
  · rfl
  · dsimp only
    split
    · exact (State.putMeta_fmts _ _).trans ((State.freeHeld_fmts _ _ _ _).trans (State.freeWin_fmts _ _))
    · exact (State.putMeta_fmts _ _).trans (State.freeHeld_fmts _ _ _ _)

theorem State.blockWritten_fmts (s : State) (addr : Nat) : (s.blockWritten addr).fmts = s.fmts := by
  unfold State.blockWritten
  split
  · rfl
  · split
    · rfl
    · exact s.blockDone_fmts addr

theorem State.wake_fmts (s : State) (p : Nat) : (s.wake p).fmts = s.fmts := by
  unfold State.wake
  repeat' split
  all_goals rfl

theorem State.reportEvent_fmts (s : State) (port : Nat) : (s.reportEvent port).fmts = s.fmts := by
  unfold State.reportEvent State.commit
  split
  · split <;> rfl
  · rfl

theorem State.queueEvent_fmts (s : State) (port ty info : Nat) : (s.queueEvent port ty info).fmts = s.fmts := by
  unfold State.queueEvent
  refine (State.reportEvent_fmts _ port).trans ?_
  split
  · rfl
  · refine (State.wake_fmts _ port).trans ?_
    repeat' split
    all_goals rfl

theorem State.queueEventAll_fmts (s : State) (ty info : Nat) : (s.queueEventAll ty info).fmts = s.fmts :=
  State.each_fmts (fun s p => State.when_fmts (State.queueEvent_fmts s p ty info) _) _ s

theorem State.health_fmts (s : State) (c : Nat) : (s.health c).fmts = s.fmts :=
  State.when_fmts (State.queueEventAll_fmts s 0x03 c) _

theorem State.holdWin_fmts (s : State) (i : Nat) : (s.holdWin i).fmts = s.fmts := by
  unfold State.holdWin
  split
  · split
    · exact State.dropWin_fmts s i
    · exact (State.when_fmts (State.health_fmts _ 8) _).trans (State.putWindow_fmts _ _)
  · rfl

theorem State.deferError_fmts (s : State) (addr : Nat) (b : CacheBlk) (sc : Nat) : (s.deferError addr b sc).fmts = s.fmts := by
  unfold State.deferError
  refine (State.queueEventAll_fmts _ _ _).trans ((State.fmts_of_tables (State.raise_tables _ _ _)).trans ?_)
  exact State.putMeta_fmts _ _

theorem State.lostBlock_fmts (s : State) (addr : Nat) (b : CacheBlk) (sc : Nat) : (s.lostBlock addr b sc).fmts = s.fmts :=
  State.when_fmts (g := (·.markFailed b.nsid b.lba sc)) (State.putMeta_fmts _ _) _

theorem State.blockFailed_fmts (s : State) (addr sc : Nat) : (s.blockFailed addr sc).fmts = s.fmts := by
  unfold State.blockFailed
  split
  · rfl
  · split
    · exact State.holdWin_fmts s _
    · split
      · exact State.deferError_fmts s _ _ _
      · split
        · exact State.lostBlock_fmts s _ _ _
        · rfl

end Sys2Proof.Machine
end

