-- ==== Sys2Proof/Proofs/RunRules.lean ====
section
/-! SUPPORT. What STATUS writes, misses and gate drops leave of a formatter (07 R190 to R193): its runs in progress and ended stay on
their slots, and nothing else of it changes. -/

namespace Sys2Proof.Machine

/-! ## The relation -/

/-- Of formatter `x` only the contents of runs in progress and of ended runs change. -/
structure Fmt.RunsOnly (x y : Fmt) : Prop where
  rest : y = { x with cur := y.cur, ended := y.ended }
  cur : y.cur.map Prod.fst = x.cur.map Prod.fst
  ended : y.ended.map Prod.fst = x.ended.map Prod.fst

theorem Fmt.RunsOnly.refl (x : Fmt) : x.RunsOnly x := ⟨rfl, rfl, rfl⟩

theorem Fmt.RunsOnly.trans {x y z : Fmt} (h : x.RunsOnly y) (k : y.RunsOnly z) : x.RunsOnly z := by
  refine ⟨?_, k.cur.trans h.cur, k.ended.trans h.ended⟩
  rw [k.rest, h.rest]

theorem Fmt.RunsOnly.cur_nil {x y : Fmt} (h : x.RunsOnly y) (hx : x.cur = []) : y.cur = [] := by
  simpa [hx] using h.cur

theorem Fmt.RunsOnly.ended_nil {x y : Fmt} (h : x.RunsOnly y) (hx : x.ended = []) : y.ended = [] := by
  simpa [hx] using h.ended

/-- Every formatter changes so. -/
def RunsOnly (s t : State) : Prop := ∀ a, (s.fmt a).RunsOnly (t.fmt a)

theorem RunsOnly.refl (s : State) : RunsOnly s s := fun _ => Fmt.RunsOnly.refl _

theorem RunsOnly.trans {s t u : State} (h : RunsOnly s t) (k : RunsOnly t u) : RunsOnly s u := fun a => (h a).trans (k a)

theorem RunsOnly.of_fmts {s t : State} (h : t.fmts = s.fmts) : RunsOnly s t :=
  fun a => by rw [State.fmt_congr h]; exact Fmt.RunsOnly.refl _

theorem RunsOnly.put {s t : State} (h : RunsOnly s t) (F : Field) (v : Nat) : RunsOnly s (t.put F v) := h

theorem RunsOnly.each {α : Type} {g : State → α → State} (h : ∀ s x, RunsOnly s (g s x)) (xs : List α) (s : State) :
    RunsOnly s (s.each xs g) :=
  List.foldlRecOn (motive := fun t => RunsOnly s t) xs g (RunsOnly.refl s) fun t ht x _ => ht.trans (h t x)

/-- The slots keep what `RunsOnly` keeps: the queues, the course, FMT_DONE and the threads. -/
theorem RunsOnly.thread {s t : State} (h : RunsOnly s t) (a j : Nat) : t.thread a j = s.thread a j := by
  rw [State.thread, State.thread, (h a).rest]

/-! ## Runs changed (07 R190, R192) -/

/-- The runs of a table changed, where their number is `rid`. -/
def mapRuns (rid : Nat) (g : Run → Run) (l : List (Nat × Run)) : List (Nat × Run) :=
  l.map fun e => if e.2.rid = rid then (e.1, g e.2) else e

theorem mapRuns_fst (rid : Nat) (g : Run → Run) (l : List (Nat × Run)) : (mapRuns rid g l).map Prod.fst = l.map Prod.fst := by
  rw [mapRuns, List.map_map]
  refine List.map_congr_left fun e _ => ?_
  show (if e.2.rid = rid then (e.1, g e.2) else e).1 = e.1
  split <;> rfl

theorem State.fmt_modRun_same (s : State) (a rid : Nat) (g : Run → Run) :
    (s.modRun a rid g).fmt a =
      { s.fmt a with cur := mapRuns rid g (s.fmt a).cur, ended := mapRuns rid g (s.fmt a).ended } :=
  s.fmt_modFmt_same a _

theorem State.fmt_modRun_ne (s : State) {a b : Nat} (rid : Nat) (g : Run → Run) (h : b ≠ a) :
    (s.modRun a rid g).fmt b = s.fmt b :=
  s.fmt_modFmt_ne _ h

theorem RunsOnly.modRun (s : State) (a rid : Nat) (g : Run → Run) : RunsOnly s (s.modRun a rid g) := by
  intro b
  by_cases hb : b = a
  · rw [hb, State.fmt_modRun_same]
    exact ⟨rfl, mapRuns_fst rid g _, mapRuns_fst rid g _⟩
  · rw [State.fmt_modRun_ne s rid g hb]
    exact Fmt.RunsOnly.refl _

theorem RunsOnly.finalStatus (s : State) (a rid idx st : Nat) : RunsOnly s (s.finalStatus a rid idx st) := by
  unfold State.finalStatus
  dsimp only
  split
  · split
    · exact (RunsOnly.modRun s a rid _).trans (.of_fmts (State.fmts_of_tables (State.writeStatus_tables _ _ _)))
    · exact RunsOnly.refl s
  · exact RunsOnly.refl s

theorem RunsOnly.missSector (s : State) (a rid idx : Nat) (limited : Bool) :
    RunsOnly s (s.missSector a rid idx limited) := by
  unfold State.missSector
  dsimp only
  split
  · split
    · exact RunsOnly.modRun s a rid _
    · exact (RunsOnly.modRun s a rid _).put _ _
  · exact RunsOnly.refl s

/-! ## Runs that end (07 R195, R201) -/

theorem RunsOnly.closeRun (s : State) (a : Nat) (r : Run) (st : Nat) (keep : Nat → Bool) : RunsOnly s (s.closeRun a r st keep) :=
  RunsOnly.each (fun s k => RunsOnly.finalStatus s a r.rid k st) _ s

theorem SectorsKept.closeRun (s : State) (a : Nat) (r : Run) (st : Nat) (keep : Nat → Bool) :
    SectorsKept s (s.closeRun a r st keep) bufErrorFields :=
  SectorsKept.each (fun s k => SectorsKept.finalStatus s a r.rid k st) _ s

/-- Every ended run is closed with STATUS `st`, but for the sectors that `keep` spares. -/
def State.closeRuns (s : State) (a st : Nat) (keep : State → Nat → Nat → Bool) : State :=
  s.each (s.fmt a).ended fun s e => s.closeRun a e.2 st (keep s e.2.rid)

theorem RunsOnly.closeRuns (s : State) (a st : Nat) (keep : State → Nat → Nat → Bool) : RunsOnly s (s.closeRuns a st keep) := by
  unfold State.closeRuns
  exact RunsOnly.each (fun s (e : Nat × Run) => RunsOnly.closeRun s a e.2 st _) _ s

theorem SectorsKept.closeRuns (s : State) (a st : Nat) (keep : State → Nat → Nat → Bool) :
    SectorsKept s (s.closeRuns a st keep) bufErrorFields := by
  unfold State.closeRuns
  exact SectorsKept.each (fun s (e : Nat × Run) => SectorsKept.closeRun s a e.2 st _) _ s

/-- A formatter without a run in progress or queued; its sweep stands at word `n`. -/
def Fmt.Quiet (x : Fmt) (n : Nat) : Prop := x.cur = [] ∧ x.queues = [] ∧ x.sweep = n

theorem Fmt.Quiet.runsOnly {x y : Fmt} {n : Nat} (h : x.RunsOnly y) (hx : x.Quiet n) : y.Quiet n := by
  refine ⟨h.cur_nil hx.1, ?_, ?_⟩
  · rw [h.rest]
    exact hx.2.1
  · rw [h.rest]
    exact hx.2.2

theorem State.fmt_endRuns (s : State) (a : Nat) : (s.endRuns a).fmt a = { s.fmt a with
    ended := (s.fmt a).ended ++ (s.fmt a).cur ++ (s.fmt a).queues.flatMap fun q => q.2.map fun r => (q.1, r)
    cur := []
    queues := [] } :=
  s.fmt_modFmt_same a _

theorem State.quiet_endRuns (s : State) (a : Nat) : ((s.endRuns a).fmt a).Quiet (s.fmt a).sweep := by
  rw [State.fmt_endRuns]
  exact ⟨rfl, rfl, rfl⟩

/-- Ended runs enter FMT_DONE: of the formatter only the ended runs and FMT_DONE change. -/
theorem State.fmt_drainEnded (s : State) (a : Nat) :
    (s.drainEnded a).fmt a =
      { s.fmt a with ended := ((s.drainEnded a).fmt a).ended, done := ((s.drainEnded a).fmt a).done } := by
  refine List.foldlRecOn
    (motive := fun t : State => t.fmt a = { s.fmt a with ended := (t.fmt a).ended, done := (t.fmt a).done }) _ _ rfl fun t ht e _ => ?_
  dsimp only
  split
  · rw [State.fmt_modFmt_same, ht]
  · exact ht

theorem SectorsKept.drainEnded (s : State) (a : Nat) (K : List Field) : SectorsKept s (s.drainEnded a) K := by
  refine SectorsKept.each (fun t e => ?_) _ s
  split
  · exact ⟨rfl, rfl, FieldsKept.of_f (State.modFmt_f _ _ _) K⟩
  · exact SectorsKept.refl t K

theorem Fmt.Quiet.drainEnded {s : State} {a n : Nat} (h : (s.fmt a).Quiet n) : ((s.drainEnded a).fmt a).Quiet n := by
  rw [State.fmt_drainEnded]
  exact h

theorem SectorsKept.endRuns (s : State) (a : Nat) (K : List Field) : SectorsKept s (s.endRuns a) K :=
  ⟨rfl, rfl, FieldsKept.of_f (State.endRuns_f s a) K⟩

/-- Every run ends, is closed, and enters FMT_DONE. -/
def State.finishRuns (s : State) (a st : Nat) (keep : State → Nat → Nat → Bool) : State :=
  ((s.endRuns a).closeRuns a st keep).drainEnded a

theorem State.failRuns_eq (s : State) (a : Nat) : s.failRuns a = s.finishRuns a 5 fun _ _ _ => false := rfl

/-- No run is in progress or queued then. -/
theorem State.quiet_finishRuns (s : State) (a st : Nat) (keep : State → Nat → Nat → Bool) :
    ((s.finishRuns a st keep).fmt a).Quiet (s.fmt a).sweep :=
  Fmt.Quiet.drainEnded (Fmt.Quiet.runsOnly (RunsOnly.closeRuns (s.endRuns a) a st keep a) (s.quiet_endRuns a))

theorem SectorsKept.finishRuns (s : State) (a st : Nat) (keep : State → Nat → Nat → Bool) :
    SectorsKept s (s.finishRuns a st keep) bufErrorFields :=
  ((SectorsKept.endRuns s a _).trans (SectorsKept.closeRuns (s.endRuns a) a st keep)).trans (SectorsKept.drainEnded _ a _)

/-! ## Gate drops (06 R166) -/

theorem RunsOnly.sectorWritten (s : State) (i : Nat) (w : WrSect) : RunsOnly s (s.sectorWritten i w) :=
  RunsOnly.trans (RunsOnly.finalStatus ((s.modSlot i (·.delWr w.sec)).inc (Reg.CHN_WR_SECTORS_COUNT i)) _ _ _ _)
    (.of_fmts (State.blockWritten_fmts _ _))

theorem RunsOnly.fragDone (s : State) (i : Nat) (w : WrSect) : RunsOnly s (s.fragDone i w) := by
  unfold State.fragDone
  split
  · exact RunsOnly.sectorWritten s i w
  · exact .of_fmts rfl

theorem RunsOnly.abortSector (s : State) (i : Nat) (w : WrSect) : RunsOnly s (s.abortSector i w) := by
  unfold State.abortSector
  dsimp only
  split
  · exact RunsOnly.finalStatus ((s.modSlot i (·.delWr w.sec)).inc (Reg.CHN_WR_ABORTED_COUNT i)) _ _ _ _
  · exact RunsOnly.missSector ((s.modSlot i (·.delWr w.sec)).inc (Reg.CHN_WR_ABORTED_COUNT i)) _ _ _ _

theorem RunsOnly.dropGate (s : State) (i : Nat) : RunsOnly s (s.dropGate i) := by
  have hclose : RunsOnly s ((s.draw 1).closeGate i) := .of_fmts rfl
  unfold State.dropGate
  dsimp only
  split
  · split
    · split
      · exact hclose.trans (RunsOnly.fragDone _ i _)
      · exact hclose.trans (RunsOnly.abortSector _ i _)
    · exact hclose
  · exact RunsOnly.refl s

theorem RunsOnly.riseSource (s : State) {b : Nat} (hwarn : b ≠ 3) (scope : List Nat) : RunsOnly s (s.riseSource b scope) := by
  rw [State.riseSource_eq s hwarn]
  exact RunsOnly.each (fun s i => RunsOnly.dropGate (s.setBitOf (Reg.CHN_WR_CAUSE_CAUSE i) b) i) scope s

end Sys2Proof.Machine
end

