-- ==== Sys2Proof/Proofs/MachineChecks.lean ====
section
/-! SUPPORT. A formatter machine check (07 R201): source 7 of Table WRP-1, the threads' last beats, the slots stopped and the runs
failed, and then the check logged in FMT_MCHK. -/

namespace Sys2Proof.Machine

/-! ## Several fields written -/

/-- Fields written one after the other. -/
def State.puts (s : State) (l : List (Field × Nat)) : State := s.each l fun s p => s.put p.1 p.2

theorem State.get_puts_ne {l : List (Field × Nat)} {G : Field} (h : ∀ p ∈ l, G.key ≠ p.1.key) (s : State) :
    (s.puts l).get G = s.get G := by
  induction l generalizing s with
  | nil => rfl
  | cons p l ih =>
    obtain ⟨hp, hl⟩ := List.forall_mem_cons.mp h
    exact (ih hl (s.put p.1 p.2)).trans (State.get_put_ne s p.1 p.2 hp)

/-- Each of several distinct fields reads what it was written with. -/
theorem State.get_puts_of_mem {l : List (Field × Nat)} (hdist : (l.map fun p => p.1.key).Nodup) {F : Field} {v : Nat}
    (h : (F, v) ∈ l) (s : State) : (s.puts l).get F = v % 2 ^ F.width := by
  induction l generalizing s with
  | nil => cases h
  | cons p l ih =>
    rw [List.map_cons, List.nodup_cons] at hdist
    rcases List.mem_cons.mp h with rfl | h
    · refine (State.get_puts_ne (l := l) (fun q hq e => hdist.1 ?_) (s.put F v)).trans (State.get_put_same s F v)
      exact List.mem_map.mpr ⟨q, hq, e.symm⟩
    · exact ih hdist.2 h _

theorem FieldsKept.puts (s : State) (l : List (Field × Nat)) : FieldsKept s (s.puts l) (l.map Prod.fst) := by
  intro G hG
  refine State.get_puts_ne (fun p hp e => hG ?_) s
  rw [e]
  exact List.mem_map_of_mem (List.mem_map_of_mem hp)

@[simp] theorem State.puts_tables (s : State) (l : List (Field × Nat)) : (s.puts l).tables = s.tables :=
  List.foldlRecOn (motive := fun t : State => t.tables = s.tables) l _ rfl fun _ ht _ _ => ht

theorem State.puts_mem (s : State) (l : List (Field × Nat)) : (s.puts l).mem = s.mem :=
  List.foldlRecOn (motive := fun t : State => t.mem = s.mem) l _ rfl fun _ ht _ _ => ht

/-! ## The slots stopped -/

theorem mem_slotsOf (a : Nat) (j : Fin 4) : 4 * a + j.val ∈ slotsOf a := by
  simp only [slotsOf, List.mem_cons, List.not_mem_nil, or_false]
  omega

theorem State.poolDrop_fmts (s : State) (ref : Nat) : (s.poolDrop ref).fmts = s.fmts := by
  unfold State.poolDrop
  dsimp only
  repeat' split
  all_goals rfl

theorem State.discardSects_fmts (s : State) (i : Nat) : (s.discardSects i).fmts = s.fmts :=
  State.each_fmts (fun s (e : Nat × Sect) => State.poolDrop_fmts s (2 * i + e.1)) (s.slot i).sects s

theorem State.slot_discardSects_same (s : State) (i : Nat) : (s.discardSects i).slot i = { s.slot i with sects := [] } := by
  rw [State.discardSects, State.slot_modSlot_same,
    State.slot_each (g := fun s (e : Nat × Sect) => s.poolDrop (2 * i + e.1)) fun s e => State.slot_congr (s.poolDrop_slots _) i]

theorem State.slot_discardSects_ne (s : State) {i k : Nat} (h : k ≠ i) : (s.discardSects i).slot k = s.slot k := by
  rw [State.discardSects, State.slot_modSlot_ne _ _ h,
    State.slot_each (g := fun s (e : Nat × Sect) => s.poolDrop (2 * i + e.1)) fun s e => State.slot_congr (s.poolDrop_slots _) k]

/-- The slot without its undecided and unfinished sectors, its edge queue, and the levels of RG and WG. -/
def Slot.stopped (x : Slot) : Slot :=
  { x with sects := [], eq := [], rg := false, wg := false, wr := [], rd := [], discard := none }

theorem State.slot_stopSlot_same (s : State) (i : Nat) : (s.stopSlot i).slot i = (s.slot i).stopped := by
  rw [State.stopSlot, State.slot_modSlot_same, State.slot_discardSects_same]
  rfl

theorem State.slot_stopSlot_ne (s : State) {i k : Nat} (h : k ≠ i) : (s.stopSlot i).slot k = s.slot k := by
  rw [State.stopSlot, State.slot_modSlot_ne _ _ h, State.slot_discardSects_ne s h]

/-- A slot that the formatter has stopped: nothing queued, and no level up. -/
structure Slot.Shut (x : Slot) : Prop where
  eq : x.eq = []
  rg : x.rg = false

theorem Slot.shut_stopped (x : Slot) : x.stopped.Shut := ⟨rfl, rfl⟩

theorem State.shut_stopSlots {i : Nat} {xs : List Nat} (hi : i ∈ xs) (s : State) :
    ((s.each xs State.stopSlot).slot i).Shut := by
  refine State.each_of_mem (P := fun t => (t.slot i).Shut) hi (fun t => ?_) (fun t k _ ht => ?_) s
  · rw [State.slot_stopSlot_same]
    exact Slot.shut_stopped _
  · by_cases hik : i = k
    · rw [hik, State.slot_stopSlot_same]
      exact Slot.shut_stopped _
    · rwa [State.slot_stopSlot_ne t hik]

theorem State.gate_stopSlots (xs : List Nat) (s : State) (i : Nat) :
    ((s.each xs State.stopSlot).slot i).gate = (s.slot i).gate := by
  refine List.foldlRecOn (motive := fun t : State => (t.slot i).gate = (s.slot i).gate) xs State.stopSlot rfl fun t ht k _ => ?_
  by_cases hik : i = k
  · rw [hik, State.slot_stopSlot_same, ← hik]
    exact ht
  · rwa [State.slot_stopSlot_ne t hik]

theorem State.stopSlots_fmts (xs : List Nat) (s : State) : (s.each xs State.stopSlot).fmts = s.fmts :=
  State.each_fmts (g := State.stopSlot) (fun s i => State.discardSects_fmts s i) xs s

/-! ## The last beats -/

theorem State.tabEvent_tables (s : State) (a j w : Nat) : (s.tabEvent a j w).tables = s.tables := by
  unfold State.tabEvent State.when
  split
  · exact State.raise_tables _ _ _
  · rfl

theorem FieldsKept.tabEvent (s : State) (a j w : Nat) : FieldsKept s (s.tabEvent a j w) recordFields := by
  unfold State.tabEvent State.when
  split
  · exact FieldsKept.raise _ _ _
  · exact FieldsKept.refl s _

theorem State.endBeat_tables (s : State) (a j : Nat) : (s.endBeat a j).tables = s.tables := by
  unfold State.endBeat State.when
  split
  · split
    · exact State.tabEvent_tables _ _ _ _
    · rfl
  · rfl

theorem FieldsKept.endBeat (s : State) (a j : Nat) : FieldsKept s (s.endBeat a j) recordFields := by
  unfold State.endBeat State.when
  split
  · split
    · exact FieldsKept.tabEvent _ _ _ _
    · exact FieldsKept.refl s _
  · exact FieldsKept.refl s _

/-- Every thread of a formatter ends its beat. -/
def State.endBeats (s : State) (a : Nat) : State := s.each [0, 1, 2, 3] fun s j => s.endBeat a j

theorem State.endBeats_tables (s : State) (a : Nat) : (s.endBeats a).tables = s.tables :=
  List.foldlRecOn (motive := fun t : State => t.tables = s.tables) _ _ rfl fun t ht j _ => (State.endBeat_tables t a j).trans ht

theorem FieldsKept.endBeats (s : State) (a : Nat) : FieldsKept s (s.endBeats a) recordFields :=
  List.foldlRecOn (motive := fun t => FieldsKept s t recordFields) _ _ (FieldsKept.refl s _)
    fun t ht j _ => ht.trans (FieldsKept.endBeat t a j)

/-! ## The formatter halted -/

/-- The threads of a halted formatter lose their words, pushes and sectors. -/
def State.clearThreads (s : State) (a : Nat) : State :=
  s.each [0, 1, 2, 3] fun s j => s.putThread a j { s.thread a j with word := none, pushDue := false, cur := none }

/-- Source 7 of Table WRP-1 rises, the threads end their beats, and the slots stop. -/
def State.haltSlots (s : State) (a : Nat) : State :=
  ((s.riseSource 7 (slotsOf a)).endBeats a).each (slotsOf a) State.stopSlot

/-- What a machine check does before it is logged. -/
def State.haltFormatter (s : State) (a : Nat) : State :=
  ((s.haltSlots a).finishRuns a 5 fun _ _ _ => false).clearThreads a

/-- FMT_MCHK and FMT_STATUS as a machine check writes them. -/
def checkWrites (a cause thread : Nat) (space : Bool) (addr : Nat) : List (Field × Nat) :=
  [(Reg.FMT_MCHK_VALID a, 1), (Reg.FMT_MCHK_CAUSE a, cause), (Reg.FMT_MCHK_THREAD a, thread),
    (Reg.FMT_MCHK_SPACE a, b2n space), (Reg.FMT_MCHK_ADDR a, addr), (Reg.FMT_STATUS_MCHK a, 1),
    (Reg.FMT_STATUS_HALTED a, 1)]

theorem checkWrites_keys_nodup (a cause thread : Nat) (space : Bool) (addr : Nat) :
    ((checkWrites a cause thread space addr).map fun p => p.1.key).Nodup := by
  simp only [checkWrites, List.map_cons, List.map_nil, Field.key, Reg.FMT_MCHK_VALID, Reg.FMT_MCHK_CAUSE,
    Reg.FMT_MCHK_THREAD, Reg.FMT_MCHK_SPACE, Reg.FMT_MCHK_ADDR, Reg.FMT_STATUS_MCHK, Reg.FMT_STATUS_HALTED,
    List.nodup_cons, List.mem_cons, List.not_mem_nil, or_false, not_or, not_false_eq_true, List.nodup_nil, and_true]
  omega

/-- FMT_MCHK and FMT_STATUS lie above the registers of events, and are no cause register. -/
theorem checkWrites_keys {a cause thread addr : Nat} {space : Bool} {p : Field × Nat}
    (hp : p ∈ checkWrites a cause thread space addr) (i : Nat) :
    0x40800000 * 32 ≤ p.1.key ∧ (Reg.CHN_WR_CAUSE_CAUSE i).key ≠ p.1.key := by
  simp only [checkWrites, List.mem_cons, List.not_mem_nil, or_false] at hp
  rcases hp with rfl | rfl | rfl | rfl | rfl | rfl | rfl
  all_goals
    simp only [Field.key, Reg.CHN_WR_CAUSE_CAUSE, Reg.FMT_MCHK_VALID, Reg.FMT_MCHK_CAUSE, Reg.FMT_MCHK_THREAD,
      Reg.FMT_MCHK_SPACE, Reg.FMT_MCHK_ADDR, Reg.FMT_STATUS_MCHK, Reg.FMT_STATUS_HALTED]
    omega

theorem State.fmtMachineCheck_eq {s : State} {a : Nat} (h : s.get (Reg.FMT_MCHK_VALID a) = 0) (cause thread : Nat)
    (space : Bool) (addr : Nat) : s.fmtMachineCheck a cause thread space addr =
      (((s.haltFormatter a).puts (checkWrites a cause thread space addr)).emit (.rtInterrupt 1)).raise 0x0101 a := by
  simp only [State.fmtMachineCheck, State.flag_eq, h, bne_self_eq_false, Bool.false_eq_true, if_false]
  rfl

section Halt
variable (s : State) (a : Nat)

theorem State.clearThreads_slots : (s.clearThreads a).slots = s.slots :=
  List.foldlRecOn (motive := fun t : State => t.slots = s.slots) _ _ rfl fun _ ht _ _ => ht

theorem State.clearThreads_f : (s.clearThreads a).f = s.f :=
  List.foldlRecOn (motive := fun t : State => t.f = s.f) _ _ rfl fun _ ht _ _ => ht

theorem State.quiet_clearThreads {n : Nat} (h : (s.fmt a).Quiet n) : ((s.clearThreads a).fmt a).Quiet n := by
  refine List.foldlRecOn (motive := fun t : State => (t.fmt a).Quiet n) _ _ h fun t ht j _ => ?_
  rw [State.fmt_putThread]
  exact ht

theorem State.sweep_haltSlots : ((s.haltSlots a).fmt a).sweep = (s.fmt a).sweep := by
  rw [State.haltSlots, State.fmt_congr (State.stopSlots_fmts _ _),
    State.fmt_congr (State.fmts_of_tables (State.endBeats_tables _ a)), (RunsOnly.riseSource s (by decide) (slotsOf a) a).rest]

/-- No run is in progress or queued on a halted formatter, and its sweep stands where it stood. -/
theorem State.quiet_haltFormatter : ((s.haltFormatter a).fmt a).Quiet (s.fmt a).sweep := by
  rw [← State.sweep_haltSlots]
  exact State.quiet_clearThreads _ a (State.quiet_finishRuns (s.haltSlots a) a 5 _)

theorem State.haltFormatter_slots : (s.haltFormatter a).slots = (s.haltSlots a).slots :=
  (State.clearThreads_slots _ a).trans (SectorsKept.finishRuns (s.haltSlots a) a 5 _).slots

/-- The slots of a halted formatter are stopped, with their gates closed. -/
theorem State.slot_haltFormatter {i : Nat} (hi : i ∈ slotsOf a) :
    ((s.haltFormatter a).slot i).Shut ∧ ((s.haltFormatter a).slot i).gate = false := by
  rw [State.slot_congr (State.haltFormatter_slots s a), State.haltSlots]
  refine ⟨State.shut_stopSlots hi _, ?_⟩
  rw [State.gate_stopSlots, State.slot_congr (State.slots_of_tables (State.endBeats_tables _ a))]
  exact (State.cause_gate_riseSource s (by decide) (by decide) hi).2

theorem FieldsKept.haltSlots : FieldsKept (s.riseSource 7 (slotsOf a)) (s.haltSlots a) recordFields :=
  (FieldsKept.endBeats _ a).trans (FieldsKept.of_f (State.each_f _ _ _ State.stopSlot_f) _)

/-- After the source has risen, halting changes the fields of events and of the buffer's errors alone. -/
theorem FieldsKept.haltFormatter : FieldsKept (s.riseSource 7 (slotsOf a)) (s.haltFormatter a) recordFields :=
  ((FieldsKept.haltSlots s a).trans
    ((SectorsKept.finishRuns (s.haltSlots a) a 5 _).fields.mono (List.subset_append_right _ _))).trans
      (FieldsKept.of_f (State.clearThreads_f _ a) _)

end Halt

theorem recordFields_keys : recordFields.map Field.key = eventFields.map Field.key ++ bufErrorFields.map Field.key :=
  List.map_append

theorem eventFields_keys : eventFields.map Field.key =
    [0x407000c4 * 32, 0x407000cc * 32, 0x407000c8 * 32, 0x407000c0 * 32, 0x40700010 * 32, 0x40700014 * 32, 0x40700018 * 32,
      0x4070001c * 32] := by
  decide

/-- An event and the buffer's errors are counted below the registers of the channels and formatters. -/
theorem not_mem_recordFields {k : Nat} (h : 0x40800000 * 32 ≤ k) : k ∉ recordFields.map Field.key := by
  simp only [recordFields_keys, eventFields_keys, bufErrorFields_keys, List.cons_append, List.nil_append, List.mem_cons,
    List.not_mem_nil, or_false, not_or]
  omega

theorem cause_not_mem_recordFields (i : Nat) : (Reg.CHN_WR_CAUSE_CAUSE i).key ∉ recordFields.map Field.key :=
  not_mem_recordFields (by simp only [Field.key, Reg.CHN_WR_CAUSE_CAUSE]; omega)

/-- Halting sets the cause of the four slots. -/
theorem State.cause_haltFormatter (s : State) {a i : Nat} (hi : i ∈ slotsOf a) :
    hasBit ((s.haltFormatter a).get (Reg.CHN_WR_CAUSE_CAUSE i)) 7 = true := by
  rw [FieldsKept.haltFormatter s a _ (cause_not_mem_recordFields i)]
  exact (State.cause_gate_riseSource s (by decide) (by decide) hi).1

/-! ## The check logged -/

section Check
variable {s : State} {a : Nat} (h : s.get (Reg.FMT_MCHK_VALID a) = 0) (cause thread : Nat) (space : Bool) (addr : Nat)
include h

theorem State.fmtMachineCheck_tables :
    (s.fmtMachineCheck a cause thread space addr).tables = (s.haltFormatter a).tables := by
  rw [State.fmtMachineCheck_eq h, State.raise_tables, State.emit_tables, State.puts_tables]

/-- The event of a check leaves every register of the channels and formatters. -/
theorem State.get_fmtMachineCheck {F : Field} (hF : 0x40800000 * 32 ≤ F.key) :
    (s.fmtMachineCheck a cause thread space addr).get F =
      ((s.haltFormatter a).puts (checkWrites a cause thread space addr)).get F := by
  rw [State.fmtMachineCheck_eq h, FieldsKept.raise _ _ _ F (not_mem_recordFields hF), State.get_emit]

theorem State.get_fmtMachineCheck_of_mem {F : Field} {v : Nat} (hF : (F, v) ∈ checkWrites a cause thread space addr) :
    (s.fmtMachineCheck a cause thread space addr).get F = v % 2 ^ F.width := by
  rw [State.get_fmtMachineCheck h cause thread space addr (checkWrites_keys hF 0).1]
  exact State.get_puts_of_mem (checkWrites_keys_nodup a cause thread space addr) hF _

/-- What FMT_MCHK and FMT_STATUS read after a machine check. -/
theorem State.logged_fmtMachineCheck :
    (s.fmtMachineCheck a cause thread space addr).get (Reg.FMT_MCHK_VALID a) = 1 ∧
      (s.fmtMachineCheck a cause thread space addr).get (Reg.FMT_MCHK_CAUSE a) = cause % 8 ∧
      (s.fmtMachineCheck a cause thread space addr).get (Reg.FMT_MCHK_THREAD a) = thread % 4 ∧
      (s.fmtMachineCheck a cause thread space addr).get (Reg.FMT_MCHK_SPACE a) = b2n space ∧
      (s.fmtMachineCheck a cause thread space addr).get (Reg.FMT_MCHK_ADDR a) = addr % 8192 ∧
      (s.fmtMachineCheck a cause thread space addr).get (Reg.FMT_STATUS_MCHK a) = 1 ∧
      (s.fmtMachineCheck a cause thread space addr).get (Reg.FMT_STATUS_HALTED a) = 1 := by
  have hget := @State.get_fmtMachineCheck_of_mem s a h cause thread space addr
  refine ⟨hget (v := 1) ?_, hget (v := cause) ?_, hget (v := thread) ?_, (hget (v := b2n space) ?_).trans (b2n_mod_two space),
    hget (v := addr) ?_, hget (v := 1) ?_, hget (v := 1) ?_⟩
  all_goals simp only [checkWrites, List.mem_cons, true_or, or_true]

/-- The formatter after a machine check. -/
theorem State.quiet_fmtMachineCheck : ((s.fmtMachineCheck a cause thread space addr).fmt a).Quiet (s.fmt a).sweep := by
  rw [State.fmt_congr (State.fmts_of_tables (State.fmtMachineCheck_tables h cause thread space addr))]
  exact s.quiet_haltFormatter a

/-- The slots after a machine check: stopped, with their gates closed and the cause set. -/
theorem State.slot_fmtMachineCheck {i : Nat} (hi : i ∈ slotsOf a) :
    (((s.fmtMachineCheck a cause thread space addr).slot i).Shut ∧
      ((s.fmtMachineCheck a cause thread space addr).slot i).gate = false) ∧
        hasBit ((s.fmtMachineCheck a cause thread space addr).get (Reg.CHN_WR_CAUSE_CAUSE i)) 7 = true := by
  have hkey : 0x40800000 * 32 ≤ (Reg.CHN_WR_CAUSE_CAUSE i).key := by
    simp only [Field.key, Reg.CHN_WR_CAUSE_CAUSE]
    omega
  refine ⟨?_, ?_⟩
  · rw [State.slot_congr (State.slots_of_tables (State.fmtMachineCheck_tables h cause thread space addr))]
    exact s.slot_haltFormatter a hi
  · rw [State.get_fmtMachineCheck h cause thread space addr hkey,
      State.get_puts_ne fun p hp => (checkWrites_keys hp i).2]
    exact s.cause_haltFormatter hi

end Check

end Sys2Proof.Machine
end

