-- ==== Sys2Proof/Proofs/TabArithmetic.lean ====
section
/-! SUPPORT. The words that change a thread's own registers (07 R185 to R188): a word that a thread fetches as its operation, and then
the beat that it begins. -/

namespace Sys2Proof.Machine

/-! ## A word begins its beat (R178, R186, R187) -/

/-- The thread is in the beat of word `w`, its push due where GQ is 1; a word without a push raises its event now. -/
def State.beginBeat (s : State) (a j w : Nat) : State :=
  let s := s.putThread a j { s.thread a j with word := some w, pushDue := tabGq w }
  if tabGq w then s else s.tabEvent a j w

theorem State.thread_beginBeat (s : State) (a j w : Nat) :
    (s.beginBeat a j w).thread a j = { s.thread a j with word := some w, pushDue := tabGq w } := by
  unfold State.beginBeat
  dsimp only
  split
  · exact State.thread_putThread_same s a j _
  · rw [State.thread_congr (State.fmts_of_tables (State.tabEvent_tables _ a j w))]
    exact State.thread_putThread_same s a j _

/-- A word without an event changes nothing but its thread. -/
theorem State.beginBeat_of_noEvent (s : State) (a j : Nat) {w : Nat} (h : hasBit w 44 = false) :
    s.beginBeat a j w = s.putThread a j { s.thread a j with word := some w, pushDue := tabGq w } := by
  unfold State.beginBeat State.tabEvent State.when
  simp only [h, Bool.false_eq_true, if_false, ite_self]

/-! ## A word fetched -/

/-- A thread of a formatter whose machine check is logged fetches nothing. -/
theorem State.mchk_of_canFetch {s : State} {a j : Nat} (h : s.canFetch a j = true) : s.get (Reg.FMT_MCHK_VALID a) = 0 := by
  simp only [State.canFetch, State.stepping, Bool.and_eq_true, Bool.not_eq_true', State.flag_eq, bne_eq_false_iff_eq] at h
  exact h.1.1.2

section Fetched
variable {s : State} {a j w op : Nat} (h : s.fetches a j w op = true)
include h

theorem State.canFetch_of_fetches : s.canFetch a j = true := by
  simp only [State.fetches, Bool.and_eq_true] at h
  exact h.1.1.1

theorem State.mchk_of_fetches : s.get (Reg.FMT_MCHK_VALID a) = 0 :=
  State.mchk_of_canFetch (State.canFetch_of_fetches h)

variable {ops : List Nat} (hop : ops.contains op = true) (g : State → Nat → State)
include hop

/-- The operation of a legal word, and then its beat; a machine check of the operation begins none. -/
theorem State.runOp_of_fetches : s.runOp a j ops g =
    if (g s w).flag (Reg.FMT_MCHK_VALID a) then g s w else (g s w).beginBeat a j w := by
  simp only [State.fetches, Bool.and_eq_true, beq_iff_eq, Option.isNone_iff_eq_none] at h
  obtain ⟨⟨⟨hcan, hword⟩, hlegal⟩, hcode⟩ := h
  simp only [State.runOp, hcan, hword, hlegal, hcode, hop, if_true]
  rfl

/-- An operation on a thread's own registers leaves them as it does, and the thread in the word's beat. -/
theorem State.runOp_of_threadOp {x : Thread} (hx : (g s w).thread a j = x) (hf : (g s w).f = s.f)
    (hmem : (g s w).mem = s.mem) :
    (s.runOp a j ops g).thread a j = { x with word := some w, pushDue := tabGq w } ∧
      (hasBit w 44 = false → FieldsKept s (s.runOp a j ops g) [] ∧ BytesKept s (s.runOp a j ops g)) := by
  have hclear : (g s w).flag (Reg.FMT_MCHK_VALID a) = false := by
    rw [State.flag_eq, State.get_of_f hf, State.mchk_of_fetches h]
    rfl
  rw [State.runOp_of_fetches h hop g, hclear, if_neg Bool.false_ne_true, State.thread_beginBeat, hx]
  refine ⟨rfl, fun hevent => ?_⟩
  rw [State.beginBeat_of_noEvent _ a j hevent]
  exact ⟨FieldsKept.of_f ((State.putThread_f _ _ _ _).trans hf) _,
    BytesKept.of_mem ((State.putThread_mem _ _ _ _).trans hmem)⟩

end Fetched

/-- So a command whose operation writes the thread anew. -/
theorem runs_of_putThread {s : State} {a j w op : Nat} (h : s.fetches a j w op = true) {ops : List Nat} (g : State → Nat → State)
    (c : Instr) (hrun : exec c s = .next (s.runOp a j ops g)) (hop : ops.contains op = true) {x : Thread}
    (hx : g s w = s.putThread a j x) : Runs c s fun t => t.thread a j = { x with word := some w, pushDue := tabGq w } ∧
      (hasBit w 44 = false → FieldsKept s t [] ∧ BytesKept s t) := by
  refine ⟨_, hrun, State.runOp_of_threadOp h hop g ?_ ?_ ?_⟩
  · rw [hx]
    exact State.thread_putThread_same s a j x
  · rw [hx]
    exact State.putThread_f s a j x
  · rw [hx]
    exact State.putThread_mem s a j x

theorem tabOp_of_fetches {s : State} {a j w op : Nat} (h : s.fetches a j w op = true) : tabOp w = op := by
  simp only [State.fetches, Bool.and_eq_true, beq_iff_eq] at h
  exact h.2

/-! ## Cells of the revolution (R179) -/

/-- A cell of the revolution, from its wedge interval and the cell within it. -/
theorem cell_of_revolution {c n : Nat} (hn : n < 512 * c) : n / c % 512 * c + n % c = n := by
  rw [Nat.mod_eq_of_lt (Nat.div_lt_of_lt_mul (by rwa [Nat.mul_comm])), Nat.div_add_mod']

/-- A cell count carries through the wedge intervals and the revolution. -/
theorem cell_of_carried {c : Nat} (hc : 0 < c) (v : Int) :
    (((v % ((512 * c : Nat) : Int)).toNat / c % 512 * c + (v % ((512 * c : Nat) : Int)).toNat % c : Nat) : Int) =
      v % ((512 * c : Nat) : Int) := by
  have hpos : 0 < ((512 * c : Nat) : Int) := by omega
  have hnonneg := Int.emod_nonneg v (ne_of_gt hpos)
  have hlt := Int.emod_lt_of_pos v hpos
  rw [cell_of_revolution (by omega), Int.toNat_of_nonneg hnonneg]

/-! ## The statement -/

/-- Settles O17, by the operation of each word on its thread; an LDCMP of a cell beyond CELLS by what a machine check logs. -/
theorem tabArithmetic : Obligations.TabArithmetic := by
  unfold Obligations.TabArithmetic
  refine ⟨?nop, ?ldcmp, ?illegal, ?addcmp, ?ldlc1, ?ldlc0, ?declc0, ?declc1⟩
  case nop =>
    exact fun a j w s h => ⟨_, rfl, State.runOp_of_threadOp h rfl (fun s _ => s) rfl rfl rfl⟩
  case ldcmp =>
    intro a j w s h hcell
    obtain ⟨t, ht, hthread, hkept⟩ := runs_of_putThread h _ (.ldcmp a j) rfl rfl
      (x := { s.thread a.val j.val with cmpW := tabImm w / 2 ^ 17, cmpC := tabImm w % 2 ^ 17 })
      (by simp only [not_le.mpr hcell, decide_false, Bool.and_false, Bool.false_eq_true, if_false])
    refine ⟨t, ht, ?_, ?_, ?_, ?_, hkept⟩
    all_goals rw [hthread]
  case illegal =>
    intro a j w s h hpos hcell
    obtain ⟨hvalid, hcause, hthread, -⟩ := State.logged_fmtMachineCheck (State.mchk_of_fetches h) 3 j.val
      (s.fetchTab a.val (s.thread a.val j.val)).1 (s.fetchTab a.val (s.thread a.val j.val)).2.1
    have hrun : exec (.ldcmp a j) s = .next (s.fmtMachineCheck a.val 3 j.val
        (s.fetchTab a.val (s.thread a.val j.val)).1 (s.fetchTab a.val (s.thread a.val j.val)).2.1) := by
      refine congrArg Host.Outcome.next ((State.runOp_of_fetches h rfl _).trans ?_)
      simp only [hpos, hcell, decide_true, Bool.and_self, if_true, State.flag_eq, hvalid]
      rfl
    exact ⟨_, hrun, hvalid, hcause, hthread.trans (Nat.mod_eq_of_lt j.isLt)⟩
  case addcmp =>
    intro a j w c s h hcells hc
    obtain ⟨t, ht, hthread, hkept⟩ := runs_of_putThread h _ (.addcmp a j) rfl rfl
      (by simp only [hcells, hc.ne', if_false]; rfl)
    refine ⟨t, ht, ?_, ?_, ?_, hkept⟩
    · rw [hthread]
      exact cell_of_carried hc _
    · rw [hthread]
      exact Nat.mod_lt _ hc
    · rw [hthread]
  case ldlc1 =>
    intro a j w s h
    obtain ⟨t, ht, hthread, hkept⟩ := runs_of_putThread h _ (.ldlc a j) rfl rfl
      (x := { s.thread a.val j.val with lc1 := tabImm w % 65536 }) (by simp [tabOp_of_fetches h])
    refine ⟨t, ht, ?_, ?_, ?_, hkept⟩
    all_goals rw [hthread]
  case ldlc0 =>
    intro a j w s h
    obtain ⟨t, ht, hthread, hkept⟩ := runs_of_putThread h _ (.ldlc a j) rfl rfl
      (x := { s.thread a.val j.val with lc0 := tabImm w % 65536 }) (by simp [tabOp_of_fetches h])
    refine ⟨t, ht, ?_, ?_, ?_, hkept⟩
    all_goals rw [hthread]
  case declc0 =>
    intro a j w s h
    obtain ⟨t, ht, hthread, hkept⟩ := runs_of_putThread h _ (.declc a j) rfl rfl
      (x := { s.thread a.val j.val with lc0 := (s.thread a.val j.val).lc0 - 1 }) (by simp [tabOp_of_fetches h])
    refine ⟨t, ht, ?_, ?_, ?_, hkept⟩
    all_goals rw [hthread]
  case declc1 =>
    intro a j w s h
    obtain ⟨t, ht, hthread, hkept⟩ := runs_of_putThread h _ (.declc a j) rfl rfl
      (x := { s.thread a.val j.val with lc1 := (s.thread a.val j.val).lc1 - 1 }) (by simp [tabOp_of_fetches h])
    refine ⟨t, ht, ?_, ?_, ?_, hkept⟩
    all_goals rw [hthread]

end Sys2Proof.Machine
end

