-- ==== Sys2Proof/Proofs/RunQueues.lean ====
section
/-! SUPPORT. Runs from their push to FMT_DONE (07 R189 to R193): the staged run queued or rejected, final runs, and sectors without a
revisit left. -/

namespace Sys2Proof.Machine

/-! ## Requests and rejections (R189, Table TAB-11; 02 R47) -/

theorem State.fmtIso_of_on {s : State} {a : Nat} (h : s.domOn (80 + a) = true) (g : State → State) : s.fmtIso a g = g s := by
  simp only [State.fmtIso, h, if_true]

theorem State.fmtIso_of_off {s : State} {a : Nat} (h : s.domOn (80 + a) = false) (g : State → State) :
    s.fmtIso a g = s.answer .busError := by
  simp only [State.fmtIso, h, Bool.false_eq_true, if_false]

theorem State.fmtReject_tables (s : State) (a c : Nat) : (s.fmtReject a c).tables = s.tables := by
  unfold State.fmtReject State.reject
  split <;> rfl

/-- A first rejection sets ERR and its code, and changes no formatter and no byte. -/
theorem State.rejected {s : State} {a : Nat} (h : s.get (Reg.FMT_CFG_STATUS_ERR a) = 0) {code : Nat} (hcode : code < 256) :
    (s.fmtReject a code).get (Reg.FMT_CFG_STATUS_ERR a) = 1 ∧ (s.fmtReject a code).get (Reg.FMT_CFG_STATUS_CODE a) = code ∧
      (s.fmtReject a code).fmts = s.fmts ∧
      FieldsKept s (s.fmtReject a code) [Reg.FMT_CFG_STATUS_ERR a, Reg.FMT_CFG_STATUS_CODE a] ∧
      BytesKept s (s.fmtReject a code) := by
  have hkey : (Reg.FMT_CFG_STATUS_ERR a).key ≠ (Reg.FMT_CFG_STATUS_CODE a).key := by
    simp only [Field.key, Reg.FMT_CFG_STATUS_ERR, Reg.FMT_CFG_STATUS_CODE]
    omega
  refine ⟨?_, ?_, State.fmts_of_tables (State.fmtReject_tables s a code), FieldsKept.reject s _ _ code,
    BytesKept.of_mem (State.reject_mem s _ _ code)⟩
  · rw [State.fmtReject, State.reject_of_noError h, State.get_put_ne _ _ _ hkey, State.get_put_same]
    rfl
  · rw [State.fmtReject, State.reject_of_noError h, State.get_put_same]
    exact Nat.mod_eq_of_lt hcode

/-- A command that rejects. -/
theorem runs_of_rejected {s : State} {a : Nat} (c : Instr) {code : Nat} (hrun : exec c s = .next (s.fmtReject a code))
    (h : s.get (Reg.FMT_CFG_STATUS_ERR a) = 0) (hcode : code < 256) : Runs c s fun t =>
      t.get (Reg.FMT_CFG_STATUS_ERR a) = 1 ∧ t.get (Reg.FMT_CFG_STATUS_CODE a) = code ∧ t.fmts = s.fmts ∧
      FieldsKept s t [Reg.FMT_CFG_STATUS_ERR a, Reg.FMT_CFG_STATUS_CODE a] ∧ BytesKept s t :=
  ⟨_, hrun, State.rejected h hcode⟩

/-! ## RUN_PUSH by case (R189) -/

/-- The staged run of formatter `a`, of `n` sectors, with its tag. -/
def State.stagedRun (s : State) (a n tag : Nat) : Run :=
  { rid := (s.fmt a).nextRid + 1, tag := tag, list := s.get (Reg.FMT_RUN_D1_LIST a) * 8,
    first := s.get (Reg.FMT_RUN_D0_FIRST_PSI a), count := n, write := s.flag (Reg.FMT_RUN_D0_DIR a), stat := [], used := [],
    start := 0, taken := 0, revisit := [], exhausted := [], dataPath := [] }

/-- A run behind the runs of slot `j`; the next one takes the number after its own. -/
def State.queueRun (s : State) (a j : Nat) (r : Run) : State :=
  s.modFmt a fun x => { x with nextRid := r.rid, queues := SMap.upd x.queues [] j (· ++ [r]) }

theorem State.queue_queueRun (s : State) (a j : Nat) (r : Run) :
    SMap.get ((s.queueRun a j r).fmt a).queues [] j = SMap.get (s.fmt a).queues [] j ++ [r] := by
  rw [State.queueRun, State.fmt_modFmt_same]
  exact SMap.get_put_same _ _ _ _

section RunPush
variable {a : Fin 4} {v : Word} {s : State} (hon : s.domOn (80 + a.val) = true)
include hon

theorem execRunPush_of_zero (h : s.get (Reg.FMT_RUN_D0_COUNT a.val) = 0) :
    execRunPush a v s = .next (s.fmtReject a.val 1) := by
  simp only [execRunPush, State.fmtIso_of_on hon, h, if_true]

theorem execRunPush_of_long (h : 2048 < s.get (Reg.FMT_RUN_D0_COUNT a.val)) :
    execRunPush a v s = .next (s.fmtReject a.val 2) := by
  simp only [execRunPush, State.fmtIso_of_on hon, h, Nat.ne_of_gt (Nat.zero_lt_of_lt h), if_true, if_false]

variable {n : Nat} (hcount : s.get (Reg.FMT_RUN_D0_COUNT a.val) = n) (hpos : 1 ≤ n) (hmax : n ≤ 2048)
include hcount hpos hmax

theorem execRunPush_of_beyondBuffer (h : 2 ^ 34 < s.get (Reg.FMT_RUN_D1_LIST a.val) * 8 + 8 * n) :
    execRunPush a v s = .next (s.fmtReject a.val 3) := by
  simp only [execRunPush, State.fmtIso_of_on hon, hcount, Nat.ne_of_gt hpos, not_lt.mpr hmax, h, if_true, if_false]

variable (hlist : s.get (Reg.FMT_RUN_D1_LIST a.val) * 8 + 8 * n ≤ 2 ^ 34) {j : Nat}
  (hslot : s.get (Reg.FMT_RUN_D0_SLOT a.val) = j)
include hlist hslot

theorem execRunPush_of_noMember (h : hasBit (s.get (Reg.FMT_STATUS_MEMBER a.val)) j = false) :
    execRunPush a v s = .next (s.fmtReject a.val 5) := by
  simp only [execRunPush, State.fmtIso_of_on hon, hcount, hslot, Nat.ne_of_gt hpos, not_lt.mpr hmax, not_lt.mpr hlist, h,
    if_false]

variable (hbit : hasBit (s.get (Reg.FMT_STATUS_MEMBER a.val)) j = true) {m : Member}
  (hmem : (s.slot (4 * a.val + j)).mem = some m)
include hbit hmem

theorem execRunPush_of_beyondTrack (h : sectorCount m.cells < s.get (Reg.FMT_RUN_D0_FIRST_PSI a.val) + n) :
    execRunPush a v s = .next (s.fmtReject a.val 3) := by
  simp only [execRunPush, State.fmtIso_of_on hon, hcount, hslot, Nat.ne_of_gt hpos, not_lt.mpr hmax, not_lt.mpr hlist, hbit,
    hmem, h, if_true, if_false]

variable (htrack : s.get (Reg.FMT_RUN_D0_FIRST_PSI a.val) + n ≤ sectorCount m.cells)
include htrack

theorem execRunPush_of_full (h : 4 ≤ (SMap.get (s.fmt a.val).queues [] j).length) :
    execRunPush a v s = .next (s.fmtReject a.val 4) := by
  simp only [execRunPush, State.fmtIso_of_on hon, hcount, hslot, Nat.ne_of_gt hpos, not_lt.mpr hmax, not_lt.mpr hlist, hbit,
    hmem, not_lt.mpr htrack, h, if_true, if_false]

/-- A staged run that passes its checks goes behind the slot's runs. -/
theorem execRunPush_of_room (h : (SMap.get (s.fmt a.val).queues [] j).length < 4) :
    execRunPush a v s = .next (s.queueRun a.val j (s.stagedRun a.val n (v.toNat % 65536))) := by
  simp only [execRunPush, State.fmtIso_of_on hon, hcount, hslot, Nat.ne_of_gt hpos, not_lt.mpr hmax, not_lt.mpr hlist, hbit,
    hmem, not_lt.mpr htrack, not_le.mpr h, if_false]
  rfl

end RunPush

/-! ## FMT_DONE (R193) -/

/-- The one ended run, with every sector final, enters FMT_DONE while that has room. -/
theorem State.drainEnded_of_final {s : State} {a k : Nat} {r : Run} (hended : (s.fmt a).ended = [(k, r)])
    (hfinal : r.stat.length = r.count) (hroom : (s.fmt a).done.length < 16) :
    s.drainEnded a = s.modFmt a fun m => { m with
      done := m.done ++ [r.entry k]
      ended := m.ended.filter fun x => x.2.rid != r.rid } := by
  simp only [State.drainEnded, hended, State.each, List.foldl_cons, List.foldl_nil, Run.allFinal, hfinal, beq_self_eq_true,
    hroom, decide_true, Bool.and_self, if_true]

theorem State.fmt_drainEnded_of_final {s : State} {a k : Nat} {r : Run} (hended : (s.fmt a).ended = [(k, r)])
    (hfinal : r.stat.length = r.count) (hroom : (s.fmt a).done.length < 16) :
    (s.drainEnded a).fmt a = { s.fmt a with done := (s.fmt a).done ++ [r.entry k], ended := [] } := by
  rw [State.drainEnded_of_final hended hfinal hroom, State.fmt_modFmt_same, hended]
  simp

section RunDone
variable {a j : Fin 4} {s : State} (hroom : (s.fmt a.val).done.length < 16)
include hroom

theorem execRunDone_of_current {r : Run} (hcur : SMap.look (s.fmt a.val).cur j.val = some r)
    (hfinal : r.stat.length = r.count) : execRunDone a j s = .next (s.modFmt a.val fun x => { x with
      cur := SMap.del x.cur j.val, done := x.done ++ [r.entry j.val] }) := by
  simp only [execRunDone, not_le.mpr hroom, hcur, Run.allFinal, hfinal, beq_self_eq_true, if_true, if_false]

theorem execRunDone_of_none (hcur : SMap.look (s.fmt a.val).cur j.val = none) :
    execRunDone a j s = .next (s.drainEnded a.val) := by
  simp only [execRunDone, not_le.mpr hroom, hcur, if_false]

end RunDone

section FmtDoneRead
variable {a : Fin 4} {s : State} (hon : s.domOn (80 + a.val) = true)
include hon

theorem execFmtDoneRead_of_some {d : Nat} {ds : List Nat} (h : (s.fmt a.val).done = d :: ds) :
    execFmtDoneRead a s = .next ((s.modFmt a.val fun x => { x with done := ds }).answer (.data d)) := by
  simp only [execFmtDoneRead, State.fmtIso_of_on hon, h]

theorem execFmtDoneRead_of_none (h : (s.fmt a.val).done = []) : execFmtDoneRead a s = .next (s.answer (.data 0)) := by
  simp only [execFmtDoneRead, State.fmtIso_of_on hon, h]

end FmtDoneRead

/-! ## A final STATUS in a run (R190) -/

theorem look_mapRuns (rid : Nat) (g : Run → Run) (l : List (Nat × Run)) (j : Nat) :
    SMap.look (mapRuns rid g l) j = (SMap.look l j).map fun r => if r.rid = rid then g r else r := by
  rw [← SMap.look_map, mapRuns]
  refine congrArg (fun h => SMap.look (l.map h) j) (funext fun e => ?_)
  split <;> rfl

theorem look_mapRuns_same {r : Run} (g : Run → Run) {l : List (Nat × Run)} {j : Nat} (h : SMap.look l j = some r) :
    SMap.look (mapRuns r.rid g l) j = some (g r) := by
  rw [look_mapRuns, h, Option.map_some, if_pos rfl]

/-- The runs in progress and the ended ones. -/
def Fmt.runs (x : Fmt) : List Run := x.cur.map Prod.snd ++ x.ended.map Prod.snd

/-- Every run of the formatter, in progress or ended, with the number of `r` is `r`. -/
def Fmt.Only (x : Fmt) (r : Run) : Prop := ∀ q ∈ x.runs, q.rid = r.rid → q = r

theorem Fmt.find_only {x : Fmt} {r : Run} (hmem : r ∈ x.runs) (h : x.Only r) :
    x.runs.find? (fun q => q.rid == r.rid) = some r := by
  obtain ⟨q, hq⟩ := Option.isSome_iff_exists.mp
    (List.find?_isSome (p := fun q : Run => q.rid == r.rid).mpr ⟨r, hmem, by simp⟩)
  have hsame := h q (List.mem_of_find?_eq_some hq) (by simpa using List.find?_some hq)
  rw [hq, hsame]

/-- A sector of that run that is not final takes its STATUS there, and the list entry's is written. -/
theorem State.finalStatus_of_only {s : State} {a : Nat} {r : Run} (hmem : r ∈ (s.fmt a).runs) (h : (s.fmt a).Only r) {k : Nat}
    (hk : SMap.get r.stat 0 k = 0) (st : Nat) : s.finalStatus a r.rid k st =
      (s.modRun a r.rid fun r => { r with stat := SMap.put r.stat 0 k st }).writeStatus (r.list + 8 * k) st := by
  have hfind : ((s.fmt a).cur.map Prod.snd ++ (s.fmt a).ended.map Prod.snd).find? (fun q => q.rid == r.rid) = some r :=
    Fmt.find_only hmem h
  simp only [State.finalStatus, hfind, hk, if_true]

theorem State.fmt_finalStatus_of_only {s : State} {a : Nat} {r : Run} (hmem : r ∈ (s.fmt a).runs) (h : (s.fmt a).Only r)
    {k : Nat} (hk : SMap.get r.stat 0 k = 0) (st : Nat) : (s.finalStatus a r.rid k st).fmt a =
      (s.modRun a r.rid fun r => { r with stat := SMap.put r.stat 0 k st }).fmt a := by
  rw [State.finalStatus_of_only hmem h hk, State.fmt_congr (State.fmts_of_tables (State.writeStatus_tables _ _ _))]

theorem State.finalStatus_cache (s : State) (a rid idx st : Nat) : (s.finalStatus a rid idx st).cache = s.cache := by
  unfold State.finalStatus
  dsimp only
  split
  · split
    · exact (State.cache_of_tables (State.writeStatus_tables _ _ _)).trans (rfl : (s.modRun a rid _).cache = s.cache)
    · rfl
  · rfl

/-! ## REVISIT_EXHAUSTED (R192) -/

/-- The sector `k` whose revisits are used up leaves the list of such sectors, with STATUS 3. -/
def State.giveUp (s : State) (a : Nat) (r : Run) (k : Nat) (ks : List Nat) : State :=
  (s.modRun a r.rid fun x => { x with exhausted := ks }).finalStatus a r.rid k 3

section Exhausted
variable {a j : Fin 4} {k : Nat} {ks : List Nat} {r : Run} {s : State}
  (hcur : SMap.look (s.fmt a.val).cur j.val = some r) (hex : r.exhausted = k :: ks)
include hcur hex

theorem execRevisitExhausted_of_read (hread : r.write = false) :
    execRevisitExhausted a j s = .next (s.giveUp a.val r k ks) := by
  simp only [execRevisitExhausted, hcur, hex, hread, Bool.false_eq_true, if_false]
  rfl

/-- The block of a write carries its failure. -/
theorem execRevisitExhausted_of_write (hwrite : r.write = true) : execRevisitExhausted a j s =
    .next (((s.giveUp a.val r k ks).bufRead 0 (r.list + 8 * k) 8).2.blockFailed
      (((s.giveUp a.val r k ks).bufRead 0 (r.list + 8 * k) 8).1.getD 0 % 2 ^ 34)
      (if r.dataPath.contains k then 0x16 else 0x14)) := by
  simp only [execRevisitExhausted, hcur, hex, hwrite, if_true]
  rfl

/-- Either way the formatters are those of the STATUS given. -/
theorem execRevisitExhausted_fmts :
    ∃ t, execRevisitExhausted a j s = .next t ∧ t.fmts = (s.giveUp a.val r k ks).fmts := by
  cases hw : r.write with
  | false => exact ⟨_, execRevisitExhausted_of_read hcur hex hw, rfl⟩
  | true =>
    exact ⟨_, execRevisitExhausted_of_write hcur hex hw,
      (State.blockFailed_fmts _ _ _).trans (State.fmts_of_tables (State.bufRead_tables _ _ _ _))⟩

end Exhausted

theorem Fmt.mem_runs_of_look {x : Fmt} {j : Nat} {r : Run} (h : SMap.look x.cur j = some r) : r ∈ x.runs :=
  List.mem_append_left _ (List.mem_map.mpr ⟨_, SMap.look_mem _ _ _ h, rfl⟩)

/-- A change of the runs with `r`'s number that keeps the number leaves one run of it. -/
theorem Fmt.Only.mapRuns {x y : Fmt} {r : Run} (h : x.Only r) (g : Run → Run) (hg : (g r).rid = r.rid)
    (hcur : y.cur = mapRuns r.rid g x.cur) (hended : y.ended = mapRuns r.rid g x.ended) : y.Only (g r) := by
  have hruns : y.runs = x.runs.map fun q => if q.rid = r.rid then g q else q := by
    have hsnd : ∀ l : List (Nat × Run), (Machine.mapRuns r.rid g l).map Prod.snd =
        (l.map Prod.snd).map fun q => if q.rid = r.rid then g q else q := by
      intro l
      rw [Machine.mapRuns, List.map_map, List.map_map]
      refine List.map_congr_left fun e _ => ?_
      show (if e.2.rid = r.rid then (e.1, g e.2) else e).2 = if e.2.rid = r.rid then g e.2 else e.2
      split <;> rfl
    rw [Fmt.runs, hcur, hended, hsnd, hsnd, Fmt.runs, List.map_append]
  intro q hq hrid
  rw [hruns, List.mem_map] at hq
  obtain ⟨q0, hq0, rfl⟩ := hq
  rw [hg] at hrid
  by_cases hsame : q0.rid = r.rid
  · rw [if_pos hsame, h q0 hq0 hsame]
  · rw [if_neg hsame] at hrid
    exact absurd hrid hsame

/-- The run in progress on slot `j` after one of its sectors is given up. -/
theorem State.look_giveUp {s : State} {a j k : Nat} {ks : List Nat} {r : Run} (hcur : SMap.look (s.fmt a).cur j = some r)
    (honly : (s.fmt a).Only r) (hk : SMap.get r.stat 0 k = 0) : SMap.look ((s.giveUp a r k ks).fmt a).cur j =
      some { r with exhausted := ks, stat := SMap.put r.stat 0 k 3 } := by
  have hlook : SMap.look ((s.modRun a r.rid fun x => { x with exhausted := ks }).fmt a).cur j =
      some { r with exhausted := ks } := by
    rw [State.fmt_modRun_same]
    exact look_mapRuns_same (fun x => { x with exhausted := ks }) hcur
  have honly' : ((s.modRun a r.rid fun x => { x with exhausted := ks }).fmt a).Only { r with exhausted := ks } :=
    honly.mapRuns (fun x => { x with exhausted := ks }) rfl (by rw [State.fmt_modRun_same]) (by rw [State.fmt_modRun_same])
  have hmem : { r with exhausted := ks } ∈ ((s.modRun a r.rid fun x => { x with exhausted := ks }).fmt a).runs :=
    Fmt.mem_runs_of_look hlook
  rw [State.giveUp, State.fmt_finalStatus_of_only hmem honly' hk, State.fmt_modRun_same]
  exact look_mapRuns_same (fun x => { x with stat := SMap.put x.stat 0 k 3 }) hlook

/-- The failure of an uncommitted block without a window entry is kept with it. -/
theorem State.blockFailed_of_uncommitted {s : State} {addr : Nat} {b : CacheBlk} (hb : SMap.look s.cache addr = some b)
    (hwin : b.win = none) (hnew : b.committed = false) (sc : Nat) :
    s.blockFailed addr sc = s.setCache (SMap.set s.cache addr { b with err := some sc }) := by
  simp only [State.blockFailed, hb, hwin, hnew, Bool.false_eq_true, and_false, if_false]

end Sys2Proof.Machine
end

