-- ==== Sys2Proof/Proofs/SourceFrames.lean ====
section
/-! SUPPORT. What the ends and starts of servo sources leave of formatters and slots (08 R210, R211, Table SRV-2), with gates open or
closed: of the runs only their contents change, and a slot keeps the sectors that it captures. -/

namespace Sys2Proof.Machine

/-! ## Sectors under capture -/

/-- The run, the sector and the look of every sector that the slot captures. -/
def Slot.looks (x : Slot) : List (Nat × Nat × Bool) := x.sects.map fun e => (e.2.rid, e.2.idx, e.2.deep)

/-- The formatters are as they were, and every slot captures the sectors that it captured. -/
structure LooksKept (s t : State) : Prop where
  fmts : t.fmts = s.fmts
  looks : ∀ i, (t.slot i).looks = (s.slot i).looks

theorem LooksKept.of_tables {s t : State} (h : t.tables = s.tables) : LooksKept s t :=
  ⟨State.fmts_of_tables h, fun i => by rw [State.slot_congr (State.slots_of_tables h)]⟩

theorem LooksKept.refl (s : State) : LooksKept s s := .of_tables rfl

theorem LooksKept.trans {s t u : State} (h : LooksKept s t) (k : LooksKept t u) : LooksKept s u :=
  ⟨k.fmts.trans h.fmts, fun i => (k.looks i).trans (h.looks i)⟩

theorem LooksKept.put {s t : State} (h : LooksKept s t) (F : Field) (v : Nat) : LooksKept s (t.put F v) := ⟨h.fmts, h.looks⟩

theorem LooksKept.modSlot {g : Slot → Slot} (s : State) (i : Nat) (hg : (g (s.slot i)).looks = (s.slot i).looks) :
    LooksKept s (s.modSlot i g) := by
  refine ⟨rfl, fun k => ?_⟩
  by_cases hk : k = i
  · rw [hk, State.slot_modSlot_same, hg]
  · rw [State.slot_modSlot_ne s g hk]

theorem LooksKept.when {s : State} {g : State → State} (b : Bool) (h : LooksKept s (g s)) : LooksKept s (s.when b g) := by
  cases b
  · exact LooksKept.refl s
  · exact h

theorem LooksKept.each {α : Type} {g : State → α → State} (h : ∀ s x, LooksKept s (g s x)) (xs : List α) (s : State) :
    LooksKept s (s.each xs g) :=
  List.foldlRecOn (motive := fun t => LooksKept s t) xs g (LooksKept.refl s) fun t ht x _ => ht.trans (h t x)

theorem Slot.looks_gateRead (x : Slot) (on : Bool) (pos rev : Nat) : (x.gateRead on pos rev).looks = x.looks := by
  rw [Slot.looks, Slot.looks, Slot.gateRead, List.map_map]
  refine List.map_congr_left fun e _ => ?_
  dsimp only [Function.comp_apply]
  repeat' split
  all_goals rfl

/-- Whether a sector waits for its second look is read from the sectors under capture. -/
theorem State.undecided_eq (s : State) (a rid k : Nat) : s.undecided a rid k =
    (slotsOf a).any fun i => (s.slot i).looks.any fun q => q.1 == rid && q.2.1 == k && q.2.2 := by
  simp only [State.undecided, Slot.looks, List.any_map]
  rfl

theorem LooksKept.undecided {s t : State} (h : LooksKept s t) (a rid k : Nat) : t.undecided a rid k = s.undecided a rid k := by
  simp only [State.undecided_eq, h.looks]

/-! ## The steps of a source -/

theorem State.whenInc_tables (s : State) (b : Bool) (F : Field) : (s.when b (·.inc F)).tables = s.tables := by
  cases b <;> rfl

theorem State.arrive_tables (s : State) (i h wedge flags pair : Nat) (y : Int) :
    (s.arrive i h wedge flags pair y).tables = s.tables := rfl

theorem State.putSrc_tables (s : State) (i : Nat) (x : Src) : (s.putSrc i x).tables = s.tables := rfl

theorem State.deliverSample_tables (s : State) (i h wedge flags : Nat) (pos : Option (Nat × Int)) :
    (s.deliverSample i h wedge flags pos).tables = s.tables := by
  simp only [State.deliverSample, State.arrive_tables, State.putSrc_tables, State.whenInc_tables, State.putB, State.put_tables,
    State.ite_tables, State.draw_tables, ite_self]

theorem State.lastSample_tables (s : State) (i : Nat) : (s.lastSample i).tables = s.tables := by
  unfold State.lastSample
  split
  · split
    · exact List.foldlRecOn (motive := fun t : State => t.tables = s.tables) _ _ rfl
        fun t ht g _ => (State.deliverSample_tables t i _ g.wedge 1 none).trans ht
    · rfl
  · rfl

theorem LooksKept.servoGate (s : State) (i : Nat) (on : Bool) : LooksKept s (s.servoGate i on) := by
  unfold State.servoGate
  dsimp only
  split
  · exact (LooksKept.modSlot s i rfl).put _ _
  · exact ((LooksKept.refl s).put _ _).trans (LooksKept.modSlot _ i rfl)
  · exact LooksKept.refl s

theorem LooksKept.gateRead (s : State) (i : Nat) (b on : Bool) (pos rev : Nat) :
    LooksKept s (s.when b (·.modSlot i (·.gateRead on pos rev))) :=
  LooksKept.when b (LooksKept.modSlot s i (Slot.looks_gateRead _ _ _ _))

theorem LooksKept.searchOff (s : State) (i : Nat) : LooksKept s (s.searchOff i) :=
  (LooksKept.when _ (LooksKept.servoGate s i false)).trans (LooksKept.gateRead _ i _ _ _ _)

theorem State.refChanged_tables (s : State) (old : Option (Nat × Nat)) : (s.refChanged old).tables = s.tables := by
  unfold State.refChanged
  split <;> rfl

/-- The state of a source written, and with it the samples that it owes. -/
theorem State.setSrc_tables (s : State) (i : Nat) (x : Src) (v : Nat) :
    (((s.lastSample i).putSrc i x).setSrcState i v).tables = s.tables :=
  (rfl : _ = (s.lastSample i).tables).trans (s.lastSample_tables i)

theorem GatesKept.setSrc (s : State) (i : Nat) (x : Src) (v : Nat) :
    GatesKept s (((s.lastSample i).putSrc i x).setSrcState i v) (sourceFields i) :=
  (GatesKept.lastSample s i).trans (.of_slots rfl rfl ((FieldsKept.of_f rfl _).put _ _ (by simp [sourceFields])))

/-! ## A source that ends (08 Table SRV-2) -/

/-- FMT_STATUS.MEMBER and the pending course are no fields of a source. -/
theorem course_not_mem_sourceFields (a i : Nat) : (Reg.FMT_STATUS_MEMBER a).key ∉ (sourceFields i).map Field.key ∧
    (Reg.FMT_COURSE_CTL_PENDING a).key ∉ (sourceFields i).map Field.key := by
  simp only [sourceFields, sampleFields, List.cons_append, List.nil_append, List.map_cons, List.map_nil, List.mem_cons,
    List.not_mem_nil, or_false, not_or, Field.key, actOf, locOf, Reg.FMT_STATUS_MEMBER, Reg.FMT_COURSE_CTL_PENDING,
    Reg.SRV_POS_LO_FLAGS, Reg.SRV_POS_LO_TRACK, Reg.SRV_POS_HI_VALID, Reg.SRV_POS_HI_PAIR,
    Reg.SRV_POS_HI_WEDGE, Reg.SRV_POS_HI_HEAD, Reg.SRV_POS_HI_OFFSET, Reg.SRV_VALID_COUNT, Reg.SRV_SAM_MISS_COUNT,
    Reg.SRV_TID_ERR_COUNT, Reg.SRV_CHEV_ERR_COUNT, Reg.CTL_LANE_STATUS_ACTIVE, Reg.SRV_STATUS_STATE, Reg.MTR_SPN_STATUS_SRC,
    Reg.CHN_FE_STATE_GAIN, Reg.CHN_FE_STATUS_WINDOW, Reg.CHN_MC_TRIM_TRIM, Reg.CHN_MC_STATUS_LOCKED, Reg.CHN_MC_STATUS_ACQ]
  omega

section End
variable (s : State) (i : Nat)

/-- A source that goes to another state than SEARCH shuts no gate. -/
theorem LooksKept.srcTo (x : Src) {v : Nat} (hv : v ≠ 1) : LooksKept s (s.srcTo i x v) := by
  have hset : LooksKept s (((s.lastSample i).putSrc i x).setSrcState i v) := .of_tables (State.setSrc_tables s i x v)
  refine LooksKept.trans ?_ (.of_tables (State.refChanged_tables _ _))
  rw [if_neg hv]
  split
  · exact hset.trans (LooksKept.searchOff _ i)
  · exact hset

theorem GatesKept.srcTo (x : Src) {v : Nat} (hv : v ≠ 1) : GatesKept s (s.srcTo i x v) (sourceFields i) := by
  refine GatesKept.trans ?_ (GatesKept.refChanged _ i _)
  rw [if_neg hv]
  split
  · exact (GatesKept.setSrc s i x v).trans (GatesKept.searchOff _ i)
  · exact GatesKept.setSrc s i x v

theorem State.fixRefs_tables : (s.fixRefs i).tables = s.tables := rfl

theorem LooksKept.endSrc : LooksKept s (s.endSrc i) := by
  have hlast : ((s.lastSample i).fixRefs i).tables = s.tables := (State.fixRefs_tables _ i).trans (s.lastSample_tables i)
  unfold State.endSrc
  split
  · exact LooksKept.refl s
  · exact (LooksKept.of_tables hlast).trans (LooksKept.srcTo _ i _ (by decide))

theorem GatesKept.endSrc : GatesKept s (s.endSrc i) (sourceFields i) := by
  unfold State.endSrc
  split
  · exact GatesKept.refl s _
  · exact ((GatesKept.lastSample s i).trans (SourcesKept.fixRefs _ i _).toGatesKept).trans (GatesKept.srcTo _ i _ (by decide))

theorem LooksKept.dropMember : LooksKept s (s.dropMember i) := by
  have hend : LooksKept s (((s.servoGate i false).endSrc i).modSlot i Slot.emptied) :=
    ((LooksKept.servoGate s i false).trans (LooksKept.endSrc _ i)).trans (LooksKept.modSlot _ i rfl)
  exact hend.trans (.of_tables rfl)

/-- The end of a member takes its bit out of FMT_STATUS.MEMBER. -/
theorem State.get_member_dropMember : (s.dropMember i).get (Reg.FMT_STATUS_MEMBER (actOf i)) =
    clrBit (s.get (Reg.FMT_STATUS_MEMBER (actOf i))) (locOf i) % 2 ^ 4 := by
  have hactive : (Reg.FMT_STATUS_MEMBER (actOf i)).key ≠ (Reg.CHN_FE_STATUS_ACTIVE i).key := by
    simp only [Field.key, Reg.CHN_FE_STATUS_ACTIVE, Reg.FMT_STATUS_MEMBER]
    omega
  have hgate : (Reg.FMT_STATUS_MEMBER (actOf i)).key ≠ (Reg.CHN_WR_STATUS_GATE i).key := by
    simp only [Field.key, Reg.CHN_WR_STATUS_GATE, Reg.FMT_STATUS_MEMBER]
    omega
  have hsource : ((s.servoGate i false).endSrc i).get (Reg.FMT_STATUS_MEMBER (actOf i)) =
      s.get (Reg.FMT_STATUS_MEMBER (actOf i)) :=
    ((GatesKept.servoGate s i false).trans (GatesKept.endSrc _ i)).fields _ (course_not_mem_sourceFields (actOf i) i).1
  rw [State.dropMember_eq, State.clrBitOf, State.get_put_same, State.get_of_f (State.paDrop_f _ _ _),
    State.get_put_ne _ _ _ hgate, State.get_put_ne _ _ _ hactive, State.get_of_f (State.modSlot_f _ _ _), hsource]
  rfl

end End

/-! ## A source that searches (08 R211) -/

/-- Of the formatters only the contents of runs change, and no register field but those listed. -/
structure SearchKept (s t : State) (K : List Field) : Prop where
  fields : FieldsKept s t K
  runs : RunsOnly s t

theorem SearchKept.refl (s : State) (K : List Field) : SearchKept s s K := ⟨FieldsKept.refl s K, RunsOnly.refl s⟩

theorem SearchKept.trans {s t u : State} {K : List Field} (h : SearchKept s t K) (k : SearchKept t u K) : SearchKept s u K :=
  ⟨h.fields.trans k.fields, h.runs.trans k.runs⟩

theorem SearchKept.mono {s t : State} {K L : List Field} (h : SearchKept s t K) (hKL : K ⊆ L) : SearchKept s t L :=
  ⟨h.fields.mono hKL, h.runs⟩

/-- The register fields that a source of slot `i` changes, with those of a gate that it shuts. -/
def searchFields (i : Nat) : List Field := sourceFields i ++ dropFields i

theorem SearchKept.of_source {s t : State} {i : Nat} (h : FieldsKept s t (sourceFields i)) (hfmts : t.fmts = s.fmts) :
    SearchKept s t (searchFields i) :=
  ⟨h.mono (List.subset_append_left _ _), .of_fmts hfmts⟩

theorem SearchKept.of_drop {s t : State} {i : Nat} (h : GatesKept s t (dropFields i)) (hruns : RunsOnly s t) :
    SearchKept s t (searchFields i) :=
  ⟨h.fields.mono (List.subset_append_right _ _), hruns⟩

section Search
variable (s : State) (i : Nat)

theorem SearchKept.shutGate (cur : Option Nat) (pos : Nat) : SearchKept s (s.shutGate i cur pos) (searchFields i) := by
  have hclose : SearchKept s (s.closeGate i) (searchFields i) := .of_drop (GatesKept.closeGate s i) (.of_fmts rfl)
  unfold State.shutGate
  dsimp only
  split
  · split
    · exact hclose.trans (.of_drop (GatesKept.fragDone _ i _) (RunsOnly.fragDone _ i _))
    · exact hclose.trans (.of_drop (GatesKept.abortSector _ i _) (RunsOnly.abortSector _ i _))
  · exact hclose

theorem SearchKept.servoGate (on : Bool) : SearchKept s (s.servoGate i on) (searchFields i) :=
  .of_source (GatesKept.servoGate s i on).fields (LooksKept.servoGate s i on).fmts

theorem SearchKept.searchOn : SearchKept s (s.searchOn i) (searchFields i) := by
  have hread := fun t : State => fun b pos rev => SearchKept.of_source (i := i) (GatesKept.gateRead t i b false pos rev _).fields
    (LooksKept.gateRead t i b false pos rev).fmts
  unfold State.searchOn
  dsimp only
  split
  · exact ((SearchKept.servoGate s i true).trans (hread _ _ _ _)).trans (SearchKept.shutGate _ i _ _)
  · exact (SearchKept.servoGate s i true).trans (hread _ _ _ _)

theorem SearchKept.srcTo (x : Src) (v : Nat) : SearchKept s (s.srcTo i x v) (searchFields i) := by
  by_cases hv : v = 1
  · have hset : SearchKept s (((s.lastSample i).putSrc i x).setSrcState i v) (searchFields i) :=
      .of_source (GatesKept.setSrc s i x v).fields (State.fmts_of_tables (State.setSrc_tables s i x v))
    refine SearchKept.trans ?_ (.of_source (GatesKept.refChanged _ i _).fields (State.fmts_of_tables (State.refChanged_tables _ _)))
    rw [if_pos hv]
    exact hset.trans (SearchKept.searchOn _ i)
  · exact .of_source (GatesKept.srcTo s i x hv).fields (LooksKept.srcTo s i x hv).fmts

theorem SearchKept.startSrc (head : Nat) : SearchKept s (s.startSrc i head) (searchFields i) := by
  have hfix : SearchKept s (s.fixRefs i) (searchFields i) := .of_source (SourcesKept.fixRefs s i _).fields rfl
  unfold State.startSrc
  dsimp only
  split
  · split
    · exact SearchKept.searchOn s i
    · exact SearchKept.refl s _
  · split <;> exact hfix.trans (SearchKept.srcTo _ i _ _)

theorem State.paNext_fmts (a : Nat) : (s.paNext a).fmts = s.fmts := by
  unfold State.paNext
  dsimp only
  repeat' split
  all_goals rfl

theorem SearchKept.startServoOnly : SearchKept s (s.startServoOnly i) (searchFields i) := by
  have hmember := fun g : Slot → Slot => (SourcesKept.closeWindow s i).fields.trans (FieldsKept.of_f (State.modSlot_f _ i g) _)
  have hlink := fun g a fs => ((hmember g).trans (SourcesKept.startClock _ i 16384).fields).trans
    (FieldsKept.of_f (State.paMember_f _ a fs) (sourceFields i))
  exact (SearchKept.of_source (hlink _ _ _) (State.paNext_fmts _ _)).trans (SearchKept.startSrc _ i _)

theorem SearchKept.resumeSrc : SearchKept s (s.resumeSrc i) (searchFields i) := by
  unfold State.resumeSrc
  dsimp only
  split
  · exact SearchKept.refl s _
  · split
    · exact SearchKept.startServoOnly s i
    · exact .of_source (GatesKept.endSrc s i).fields (LooksKept.endSrc s i).fmts

end Search

theorem SearchKept.resumeAll (s : State) (a : Nat) : SearchKept s (s.resumeAll a) ((slotsOf a).flatMap searchFields) :=
  List.foldlRecOn (motive := fun t => SearchKept s t ((slotsOf a).flatMap searchFields)) _ State.resumeSrc
    (SearchKept.refl s _) fun t ht k hk => ht.trans ((SearchKept.resumeSrc t k).mono fun _ hF =>
      List.mem_flatMap.mpr ⟨k, List.mem_of_mem_filter hk, hF⟩)

end Sys2Proof.Machine
end

