-- ==== Sys2Proof/Proofs/Courses.lean ====
section
/-! SUPPORT. Courses (07 R194, R195; 03 R88): COURSE_COMMIT by case, and the barrier at which the pending course becomes the
course. -/

namespace Sys2Proof.Machine

/-! ## COURSE_COMMIT by case (R194; 01 R37) -/

section Commit
variable {a : Fin 4} {v : Word} {s : State} (hbit : hasBit v.toNat 0 = true)
include hbit

theorem execCourseCommit_of_unfitted (hfit : s.fitted a.val = false) :
    execCourseCommit a v s = .next ((s.fmtReject a.val 5).answer .busError) := by
  simp only [execCourseCommit, hfit, hbit, State.when, Bool.not_false, if_true]

variable (hfit : s.fitted a.val = true) (hon : s.domOn (80 + a.val) = true)
include hfit hon

theorem execCourseCommit_of_valid (h : s.courseOk a.val (s.stagedCourse a.val) = true) :
    execCourseCommit a v s = .next ((s.modFmt a.val fun x => { x with pend := some (s.stagedCourse a.val) }).put
      (Reg.FMT_COURSE_CTL_PENDING a.val) 1) := by
  simp only [execCourseCommit, hfit, State.fmtIso_of_on hon, hbit, h, Bool.not_true, Bool.false_eq_true, if_true, if_false]

theorem execCourseCommit_of_invalid (h : s.courseOk a.val (s.stagedCourse a.val) = false) :
    execCourseCommit a v s = .next (s.fmtReject a.val 5) := by
  simp only [execCourseCommit, hfit, State.fmtIso_of_on hon, hbit, h, Bool.not_true, Bool.false_eq_true, if_true, if_false]

end Commit

/-! ## Members that end -/

/-- The course members of an actuator end. -/
def State.dropMembers (s : State) (a : Nat) : State :=
  s.each ((slotsOf a).filter fun i => hasBit (s.get (Reg.FMT_STATUS_MEMBER a)) (locOf i)) State.dropMember

theorem LooksKept.dropMembers (s : State) (a : Nat) : LooksKept s (s.dropMembers a) :=
  LooksKept.each LooksKept.dropMember _ s

theorem mem_slotsOf_iff {a i : Nat} : i ∈ slotsOf a ↔ actOf i = a := by
  simp only [slotsOf, actOf, List.mem_cons, List.not_mem_nil, or_false]
  omega

theorem hasBit_mul_add (q : Nat) {m : Nat} (hm : m < 2 ^ 4) (k : Fin 4) : hasBit (2 ^ 4 * q + m) k.val = hasBit m k.val := by
  rw [hasBit_eq_testBit, hasBit_eq_testBit, Nat.testBit_two_pow_mul_add q hm, if_pos k.isLt]

/-- A bit below the fourth cleared: the others stay. -/
theorem hasBit_clrBit (n : Nat) (i j : Fin 4) :
    hasBit (clrBit n i.val) j.val = (hasBit n j.val && decide (i.val ≠ j.val)) := by
  have hsmall : ∀ r : Fin 16, ∀ i j : Fin 4,
      hasBit (clrBit r.val i.val) j.val = (hasBit r.val j.val && decide (i.val ≠ j.val)) := by decide
  have hclr : clrBit n i.val = 2 ^ 4 * (n / 2 ^ 4) + clrBit (n % 2 ^ 4) i.val := by
    have hbit := hasBit_mul_add (n / 2 ^ 4) (Nat.mod_lt n (by decide)) i
    rw [Nat.div_add_mod] at hbit
    rw [clrBit, clrBit, hbit]
    split
    · next h =>
      have hle : 2 ^ i.val ≤ n % 2 ^ 4 := Nat.ge_two_pow_of_testBit (by rwa [← hasBit_eq_testBit])
      omega
    · omega
  have hlt : clrBit (n % 2 ^ 4) i.val < 2 ^ 4 := by
    refine lt_of_le_of_lt ?_ (Nat.mod_lt n (by decide))
    unfold clrBit
    split
    · exact Nat.sub_le _ _
    · exact le_rfl
  rw [hclr, hasBit_mul_add _ hlt, hsmall ⟨n % 2 ^ 4, Nat.mod_lt n (by decide)⟩ i j,
    ← hasBit_mul_add (n / 2 ^ 4) (Nat.mod_lt n (by decide)) j, Nat.div_add_mod]

/-- The end of a slot's member clears its bit of FMT_STATUS.MEMBER, and no other. -/
theorem State.hasBit_member_dropMember (s : State) {a i : Nat} (hi : i ∈ slotsOf a) (j : Fin 4) :
    hasBit ((s.dropMember i).get (Reg.FMT_STATUS_MEMBER a)) j.val =
      (hasBit (s.get (Reg.FMT_STATUS_MEMBER a)) j.val && decide (locOf i ≠ j.val)) := by
  rw [← mem_slotsOf_iff.mp hi, State.get_member_dropMember, hasBit_eq_testBit, Nat.testBit_mod_two_pow, ← hasBit_eq_testBit,
    hasBit_clrBit _ ⟨locOf i, Nat.mod_lt i (by decide)⟩, decide_eq_true j.isLt, Bool.true_and]

/-- No slot has its bit of FMT_STATUS.MEMBER then. -/
theorem State.hasBit_member_dropMembers (s : State) (a : Nat) (j : Fin 4) :
    hasBit ((s.dropMembers a).get (Reg.FMT_STATUS_MEMBER a)) j.val = false := by
  have hkeep : ∀ t : State, ∀ i ∈ (slotsOf a).filter (fun i => hasBit (s.get (Reg.FMT_STATUS_MEMBER a)) (locOf i)),
      hasBit (t.get (Reg.FMT_STATUS_MEMBER a)) j.val = false →
        hasBit ((t.dropMember i).get (Reg.FMT_STATUS_MEMBER a)) j.val = false := by
    intro t i hi ht
    rw [State.hasBit_member_dropMember t (List.mem_of_mem_filter hi), ht, Bool.false_and]
  have hloc : locOf (4 * a + j.val) = j.val := by
    simp only [locOf]
    omega
  cases hbit : hasBit (s.get (Reg.FMT_STATUS_MEMBER a)) j.val with
  | false =>
    exact List.foldlRecOn (motive := fun t : State => hasBit (t.get (Reg.FMT_STATUS_MEMBER a)) j.val = false) _
      State.dropMember hbit fun t ht i hi => hkeep t i hi ht
  | true =>
    refine State.each_of_mem (P := fun t => hasBit (t.get (Reg.FMT_STATUS_MEMBER a)) j.val = false)
      (List.mem_filter.mpr ⟨mem_slotsOf a j, by rwa [hloc]⟩) (fun t => ?_) hkeep s
    rw [State.hasBit_member_dropMember t (mem_slotsOf a j), hloc, decide_eq_false (fun h => h rfl), Bool.and_false]

/-! ## The runs that end with STATUS 4 -/

theorem SMap.ins_above {α : Type} {m : SMap α} {k : Nat} (h : ∀ p ∈ m, p.1 < k) (v : α) : SMap.ins m k v = m ++ [(k, v)] := by
  induction m with
  | nil => rfl
  | cons p m ih =>
    obtain ⟨hp, hm⟩ := List.forall_mem_cons.mp h
    rw [SMap.ins, if_neg (by omega), ih hm, List.cons_append]

theorem SMap.del_absent {α : Type} {m : SMap α} {k : Nat} (h : ∀ p ∈ m, p.1 ≠ k) : SMap.del m k = m := by
  induction m with
  | nil => rfl
  | cons p m ih =>
    obtain ⟨hp, hm⟩ := List.forall_mem_cons.mp h
    rw [SMap.del, if_neg hp, ih hm]

theorem SMap.look_absent {α : Type} {m : SMap α} {k : Nat} (h : ∀ p ∈ m, p.1 ≠ k) : SMap.look m k = none := by
  induction m with
  | nil => rfl
  | cons p m ih =>
    obtain ⟨hp, hm⟩ := List.forall_mem_cons.mp h
    rw [SMap.look, if_neg hp, ih hm]

/-- The run with STATUS 4 in its first `n` sectors. -/
def Run.closed (r : Run) (n : Nat) : Run := { r with stat := (List.range n).map fun k => (k, 4) }

theorem Run.mem_closed {r : Run} {n : Nat} {p : Nat × Nat} (h : p ∈ (r.closed n).stat) : p.1 < n ∧ p.2 = 4 := by
  obtain ⟨k, hk, rfl⟩ := List.mem_map.mp h
  exact ⟨List.mem_range.mp hk, rfl⟩

theorem Run.closed_succ (r : Run) (n : Nat) :
    { r.closed n with stat := SMap.put (r.closed n).stat 0 n 4 } = r.closed (n + 1) := by
  have hput : SMap.put (r.closed n).stat 0 n 4 = (r.closed n).stat ++ [(n, 4)] := by
    rw [SMap.put, if_neg (by decide), SMap.set, SMap.del_absent fun p hp => Nat.ne_of_lt (Run.mem_closed hp).1,
      SMap.ins_above fun p hp => (Run.mem_closed hp).1]
  rw [hput, Run.closed, Run.closed, List.range_succ, List.map_append]
  rfl

/-- The one run of a formatter, ended, takes STATUS 4 in one sector after the other. -/
theorem State.fmt_closeSectors {s : State} {a j : Nat} {r : Run} (hcur : (s.fmt a).cur = [])
    (hended : (s.fmt a).ended = [(j, r)]) (hstat : r.stat = []) (n : Nat) :
    (s.each (List.range n) fun s k => s.finalStatus a r.rid k 4).fmt a = { s.fmt a with ended := [(j, r.closed n)] } := by
  induction n with
  | zero =>
    have hzero : r.closed 0 = r := by rw [Run.closed, List.range_zero, List.map_nil, ← hstat]
    rw [hzero, ← hended]
    rfl
  | succ n ih =>
    have hstep : s.each (List.range (n + 1)) (fun s k => s.finalStatus a r.rid k 4) =
        (s.each (List.range n) fun s k => s.finalStatus a r.rid k 4).finalStatus a r.rid n 4 := by
      rw [State.each, List.range_succ, List.foldl_append]
      rfl
    generalize s.each (List.range n) (fun s k => s.finalStatus a r.rid k 4) = t at ih hstep
    have hruns : (t.fmt a).runs = [r.closed n] := by
      rw [ih, Fmt.runs, hcur]
      rfl
    have hmem : r.closed n ∈ (t.fmt a).runs := by rw [hruns]; exact List.mem_singleton_self _
    have honly : (t.fmt a).Only (r.closed n) := fun q hq _ => by rwa [hruns, List.mem_singleton] at hq
    have hfree : SMap.get (r.closed n).stat 0 n = 0 := by
      rw [SMap.get, SMap.look_absent fun p hp => Nat.ne_of_lt (Run.mem_closed hp).1]
      rfl
    rw [hstep, show r.rid = (r.closed n).rid from rfl, State.fmt_finalStatus_of_only hmem honly hfree, State.fmt_modRun_same, ih,
      ← Run.closed_succ]
    simp [mapRuns, hcur]

/-- So it is final. -/
theorem Run.length_closed (r : Run) (n : Nat) : (r.closed n).stat.length = n := by
  rw [Run.closed, List.length_map, List.length_range]

theorem Run.entry_closed (r : Run) {n : Nat} (hn : 0 < n) (j : Fin 4) :
    (r.closed n).entry j.val = 2 ^ 31 + 2 ^ 24 + j.val * 2 ^ 16 + r.tag % 65536 := by
  have hfailed : (r.closed n).stat.all (fun e => e.2 == 1) = false := by
    rw [List.all_eq_false]
    exact ⟨(0, 4), List.mem_map.mpr ⟨0, List.mem_range.mpr hn, rfl⟩, by decide⟩
  rw [Run.entry, hfailed, Nat.mod_eq_of_lt j.isLt]
  rfl

/-! ## The barrier (R195, 03 R88) -/

/-- The members end, and with them the runs: what still waits for its second look keeps its sector open. -/
def State.barrierRuns (s : State) (a : Nat) : State :=
  (s.dropMembers a).finishRuns a 4 fun s rid => s.undecided a rid

theorem State.quiet_barrierRuns (s : State) (a : Nat) :
    ((s.barrierRuns a).fmt a).cur = [] ∧ ((s.barrierRuns a).fmt a).queues = [] := by
  obtain ⟨hcur, hqueues, -⟩ := State.quiet_finishRuns (s.dropMembers a) a 4 fun s rid => s.undecided a rid
  exact ⟨hcur, hqueues⟩

/-- The threads leave the barrier. -/
def State.openBarrier (s : State) (a : Nat) : State :=
  s.each [0, 1, 2, 3] fun s j => s.putThread a j { s.thread a j with barrier := false }

/-- The course `cs` in place of the pending one, its members due to start. -/
def Fmt.install (x : Fmt) (cs : List (Nat × CMember)) : Fmt := { x with course := cs, pend := none, due := cs.map Prod.fst }

theorem Fmt.installed {x y : Fmt} {cs : List (Nat × CMember)} (h : y = { x.install cs with threads := y.threads }) :
    y.pend = none ∧ y.course = cs ∧ y.due = cs.map Prod.fst ∧ y.queues = x.queues ∧ y.done = x.done ∧ y.cur = x.cur ∧
      y.ended = x.ended := by
  rw [h]
  exact ⟨rfl, rfl, rfl, rfl, rfl, rfl, rfl⟩

theorem Fmt.RunsOnly.kept {x y : Fmt} (h : x.RunsOnly y) :
    y.pend = x.pend ∧ y.course = x.course ∧ y.due = x.due ∧ y.queues = x.queues ∧ y.done = x.done := by
  rw [h.rest]
  exact ⟨rfl, rfl, rfl, rfl, rfl⟩

/-- The pending course becomes the course. -/
def State.installCourse (s : State) (a : Nat) (cs : List (Nat × CMember)) : State :=
  ((s.modFmt a (·.install cs)).put (Reg.FMT_COURSE_CTL_PENDING a) 0).openBarrier a

section Barrier
variable {a : Fin 4} {s : State}

theorem execCourseBarrier_of_reached {cs : List (Nat × CMember)} (hpend : (s.fmt a.val).pend = some cs)
    (h : ∀ j : Fin 4, (s.thread a.val j.val).barrier = true ∧ (s.slot (4 * a.val + j.val)).unfinished = none) :
    execCourseBarrier a s = .next (((s.barrierRuns a.val).installCourse a.val cs).resumeAll a.val) := by
  have hall : (List.range 4).all (fun j => (s.thread a.val j).barrier && (s.slot (4 * a.val + j)).unfinished.isNone) = true := by
    rw [List.all_eq_true]
    intro j hj
    obtain ⟨hbarrier, hunfinished⟩ := h ⟨j, List.mem_range.mp hj⟩
    rw [hbarrier, hunfinished]
    rfl
  simp only [execCourseBarrier, hpend, hall, if_true]
  rfl

theorem execCourseBarrier_of_waiting {j : Fin 4} (h : (s.fmt a.val).pend = none ∨ (s.thread a.val j.val).barrier = false ∨
    (s.slot (4 * a.val + j.val)).unfinished ≠ none) : execCourseBarrier a s = .next s := by
  have hall : (s.thread a.val j.val).barrier = false ∨ (s.slot (4 * a.val + j.val)).unfinished ≠ none →
      (List.range 4).all (fun j => (s.thread a.val j).barrier && (s.slot (4 * a.val + j)).unfinished.isNone) = false := by
    intro hj
    rw [List.all_eq_false]
    refine ⟨j.val, List.mem_range.mpr j.isLt, ?_⟩
    rcases hj with hj | hj
    · simp [hj]
    · simp [hj]
  cases hpend : (s.fmt a.val).pend with
  | none => simp only [execCourseBarrier, hpend]
  | some cs => simp only [execCourseBarrier, hpend, hall (h.resolve_left (by simp [hpend])), Bool.false_eq_true, if_false]

end Barrier

section Install
variable (s : State) (a : Nat) (cs : List (Nat × CMember))

theorem State.fmt_openBarrier : (s.openBarrier a).fmt a =
    { s.fmt a with threads := ((s.openBarrier a).fmt a).threads } := by
  refine List.foldlRecOn (motive := fun t : State => t.fmt a = { s.fmt a with threads := (t.fmt a).threads }) _ _ rfl
    fun t ht j _ => ?_
  rw [State.fmt_putThread, ht]

theorem State.openBarrier_f : (s.openBarrier a).f = s.f :=
  List.foldlRecOn (motive := fun t : State => t.f = s.f) _ _ rfl fun _ ht _ _ => ht

theorem State.barrier_openBarrier (j : Fin 4) : ((s.openBarrier a).thread a j.val).barrier = false := by
  refine State.each_of_mem (P := fun t => (t.thread a j.val).barrier = false) (x := j.val) ?_ (fun t => ?_) (fun t k _ ht => ?_) s
  · fin_cases j <;> decide
  · rw [State.thread_putThread_same]
  · by_cases hk : j.val = k
    · rw [hk, State.thread_putThread_same]
    · rwa [State.thread_putThread_ne t _ hk]

theorem State.fmt_installCourse : (s.installCourse a cs).fmt a =
    { (s.fmt a).install cs with threads := ((s.installCourse a cs).fmt a).threads } := by
  have hset : ((s.modFmt a (·.install cs)).put (Reg.FMT_COURSE_CTL_PENDING a) 0).fmt a = (s.fmt a).install cs :=
    State.fmt_modFmt_same s a (·.install cs)
  have hopen := State.fmt_openBarrier ((s.modFmt a (·.install cs)).put (Reg.FMT_COURSE_CTL_PENDING a) 0) a
  rw [hset] at hopen
  exact hopen

end Install

/-- FMT_STATUS.MEMBER and the pending course are no fields of a source that resumes. -/
theorem course_not_mem_searchFields (a i : Nat) : (Reg.FMT_STATUS_MEMBER a).key ∉ (searchFields i).map Field.key ∧
    (Reg.FMT_COURSE_CTL_PENDING a).key ∉ (searchFields i).map Field.key := by
  have hdrop : (Reg.FMT_STATUS_MEMBER a).key ∉ (dropFields i).map Field.key ∧
      (Reg.FMT_COURSE_CTL_PENDING a).key ∉ (dropFields i).map Field.key := by
    simp only [dropFields_keys, bufErrorFields_keys, List.cons_append, List.nil_append, Field.key, Reg.FMT_STATUS_MEMBER,
      Reg.FMT_COURSE_CTL_PENDING, List.mem_cons, List.not_mem_nil, or_false, not_or]
    omega
  obtain ⟨hmember, hpending⟩ := course_not_mem_sourceFields a i
  rw [searchFields, List.map_append, List.mem_append, List.mem_append, not_or, not_or]
  exact ⟨⟨hmember, hdrop.1⟩, hpending, hdrop.2⟩

/-! ## After the barrier -/

section After
variable (s : State) (a : Nat) (cs : List (Nat × CMember))

/-- The state that the barrier leaves. -/
def State.atBarrier : State := ((s.barrierRuns a).installCourse a cs).resumeAll a

/-- Of the formatter, the barrier leaves the course in force, and of the runs what their ends have left. -/
theorem State.fmt_atBarrier : ((s.atBarrier a cs).fmt a).pend = none ∧ ((s.atBarrier a cs).fmt a).course = cs ∧
    ((s.atBarrier a cs).fmt a).due = cs.map Prod.fst ∧ ((s.atBarrier a cs).fmt a).queues = ((s.barrierRuns a).fmt a).queues ∧
      ((s.atBarrier a cs).fmt a).done = ((s.barrierRuns a).fmt a).done ∧
        (((s.barrierRuns a).fmt a).cur = [] → ((s.atBarrier a cs).fmt a).cur = []) ∧
          (((s.barrierRuns a).fmt a).ended = [] → ((s.atBarrier a cs).fmt a).ended = []) := by
  have hruns : (((s.barrierRuns a).installCourse a cs).fmt a).RunsOnly ((s.atBarrier a cs).fmt a) :=
    (SearchKept.resumeAll ((s.barrierRuns a).installCourse a cs) a).runs a
  obtain ⟨hpend, hcourse, hdue, hqueues, hdone⟩ := hruns.kept
  obtain ⟨ipend, icourse, idue, iqueues, idone, icur, iended⟩ := Fmt.installed (State.fmt_installCourse (s.barrierRuns a) a cs)
  exact ⟨hpend.trans ipend, hcourse.trans icourse, hdue.trans idue, hqueues.trans iqueues, hdone.trans idone,
    fun h => hruns.cur_nil (icur.trans h), fun h => hruns.ended_nil (iended.trans h)⟩

theorem State.barrier_atBarrier (j : Fin 4) : ((s.atBarrier a cs).thread a j.val).barrier = false := by
  rw [State.atBarrier, (SearchKept.resumeAll ((s.barrierRuns a).installCourse a cs) a).runs.thread]
  exact State.barrier_openBarrier _ a j

theorem State.pending_atBarrier : (s.atBarrier a cs).get (Reg.FMT_COURSE_CTL_PENDING a) = 0 := by
  rw [State.atBarrier, (SearchKept.resumeAll _ a).fields _ (not_mem_keys_flatMap fun i _ => (course_not_mem_searchFields a i).2),
    State.installCourse, State.get_of_f (State.openBarrier_f _ a), State.get_put_same]
  rfl

theorem State.member_atBarrier (j : Fin 4) :
    hasBit ((s.atBarrier a cs).get (Reg.FMT_STATUS_MEMBER a)) j.val = false := by
  have hpending : (Reg.FMT_STATUS_MEMBER a).key ≠ (Reg.FMT_COURSE_CTL_PENDING a).key := by
    simp only [Field.key, Reg.FMT_STATUS_MEMBER, Reg.FMT_COURSE_CTL_PENDING]
    omega
  have herror : (Reg.FMT_STATUS_MEMBER a).key ∉ bufErrorFields.map Field.key := by
    simp only [bufErrorFields_keys, Field.key, Reg.FMT_STATUS_MEMBER, List.mem_cons, List.not_mem_nil, or_false, not_or]
    omega
  rw [State.atBarrier, (SearchKept.resumeAll _ a).fields _ (not_mem_keys_flatMap fun i _ => (course_not_mem_searchFields a i).1),
    State.installCourse, State.get_of_f (State.openBarrier_f _ a), State.get_put_ne _ _ _ hpending,
    State.get_of_f (State.modFmt_f _ _ _), State.barrierRuns, (SectorsKept.finishRuns _ a 4 _).fields _ herror]
  exact s.hasBit_member_dropMembers a j

end After

/-- The one run of a formatter, in progress without a final sector and without a second look to come, goes to FMT_DONE at the
barrier. -/
theorem State.done_atBarrier {s : State} {a : Nat} {j : Fin 4} {r : Run} (cs : List (Nat × CMember))
    (hcur : (s.fmt a).cur = [(j.val, r)]) (hqueues : (s.fmt a).queues = []) (hended : (s.fmt a).ended = [])
    (hstat : r.stat = []) (hpos : 0 < r.count)
    (hlook : (List.range r.count).all (fun k => !s.undecided a r.rid k) = true) (hroom : (s.fmt a).done.length < 16) :
    ((s.atBarrier a cs).fmt a).ended = [] ∧ ((s.atBarrier a cs).fmt a).done =
      (s.fmt a).done ++ [2 ^ 31 + 2 ^ 24 + j.val * 2 ^ 16 + r.tag % 65536] := by
  have hmembers := LooksKept.dropMembers s a
  have hends : (((s.dropMembers a).endRuns a).fmt a) = { s.fmt a with ended := [(j.val, r)], cur := [], queues := [] } := by
    rw [State.fmt_endRuns, State.fmt_congr hmembers.fmts, hcur, hqueues, hended]
    rfl
  have hnone : ∀ k ∈ List.range r.count,
      (SMap.get r.stat 0 k == 0 && !((s.dropMembers a).endRuns a).undecided a r.rid k) = true := by
    intro k hk
    rw [hstat, show ((s.dropMembers a).endRuns a).undecided a r.rid k = (s.dropMembers a).undecided a r.rid k from rfl,
      hmembers.undecided, List.all_eq_true.mp hlook k hk]
    rfl
  have hclose : ((((s.dropMembers a).endRuns a).closeRuns a 4 fun s rid => s.undecided a rid).fmt a) =
      { s.fmt a with ended := [(j.val, r.closed r.count)], cur := [], queues := [] } := by
    have hone : (((s.dropMembers a).endRuns a).closeRuns a 4 fun s rid => s.undecided a rid) =
        ((s.dropMembers a).endRuns a).each (List.range r.count) fun s k => s.finalStatus a r.rid k 4 := by
      rw [State.closeRuns, hends]
      show State.closeRun _ a r 4 _ = _
      rw [State.closeRun, List.filter_eq_self.mpr hnone]
    rw [hone, State.fmt_closeSectors (by rw [hends]) (by rw [hends]) hstat, hends]
  have hdrain : (s.barrierRuns a).fmt a = { s.fmt a with
      done := (s.fmt a).done ++ [(r.closed r.count).entry j.val], ended := [], cur := [], queues := [] } := by
    rw [State.barrierRuns, State.finishRuns, State.fmt_drainEnded_of_final (by rw [hclose]) (r.length_closed r.count)
      (by rw [hclose]; exact hroom), hclose]
  obtain ⟨-, -, -, -, hdone, -, hended'⟩ := s.fmt_atBarrier a cs
  refine ⟨hended' (by rw [hdrain]), ?_⟩
  rw [hdone, hdrain, ← Run.entry_closed r hpos]

end Sys2Proof.Machine
end

