-- ==== Sys2Proof/Proofs/Capo.lean ====
section
/-! SUPPORT. Capo (07 R196 to R198, Tables TAB-20, TAB-22): a part of a patch word written, and a verification from its request to its
end. -/

namespace Sys2Proof.Machine

/-! ## A part of a word -/

theorem mul_bits_le (n b m : Nat) : b * (n / b % m) ≤ n :=
  (Nat.mul_le_mul_left b (Nat.mod_le _ _)).trans (Nat.mul_div_le n b)

/-- The 32 bits of part `p` of a word, replaced by `v`, read `v`. -/
theorem bits_part_replaced (old p : Nat) {v : Nat} (hv : v < 2 ^ 32) :
    bits (old - bits old (32 * p + 31) (32 * p) * 2 ^ (32 * p) + v * 2 ^ (32 * p)) (32 * p + 31) (32 * p) = v := by
  have hwidth : 32 * p + 31 + 1 - 32 * p = 32 := by omega
  rw [bits, bits, hwidth]
  generalize hb : 2 ^ (32 * p) = b
  have hpos : 0 < b := hb ▸ Nat.two_pow_pos _
  rw [Nat.add_mul_div_right _ _ hpos, Nat.mul_comm _ b, Nat.sub_mul_div_of_le _ _ _ (mul_bits_le old b (2 ^ 32))]
  omega

/-! ## CAPO_DATA_WRITE by case (R197, Table TAB-20) -/

/-- A patch word with its part `p` replaced by `v`. -/
def replacePart (old p v : Nat) : Nat := old - bits old (32 * p + 31) (32 * p) * 2 ^ (32 * p) + v * 2 ^ (32 * p)

/-- Patch word `k` with its part `p` replaced by `v`; what is stored has no inverted bit. -/
def State.putPart (s : State) (a k p v : Nat) : State :=
  let t := s.modFmt a fun x => { x with patch := SMap.set x.patch k (replacePart (s.patchWord a k) p v) }
  t.setBuf { t.buf with flips := SMap.put t.buf.flips 0 (sramKey (20 + a) k) 0 }

theorem State.patchWord_putPart (s : State) (a k p v : Nat) :
    (s.putPart a k p v).patchWord a k = replacePart (s.patchWord a k) p v := by
  have hpatch : ((s.putPart a k p v).fmt a).patch = SMap.set (s.fmt a).patch k (replacePart (s.patchWord a k) p v) :=
    congrArg Fmt.patch (State.fmt_modFmt_same s a fun x =>
      { x with patch := SMap.set x.patch k (replacePart (s.patchWord a k) p v) })
  have hflips : SMap.get (s.putPart a k p v).buf.flips 0 (sramKey (20 + a) k) = 0 :=
    SMap.get_put_same s.buf.flips 0 (sramKey (20 + a) k) 0
  rw [State.patchWord, hpatch, hflips, SMap.look_set_same, Nat.xor_zero, Option.getD_some]

theorem State.patchWord_put (s : State) (F : Field) (v a k : Nat) : (s.put F v).patchWord a k = s.patchWord a k := rfl

theorem State.patchWord_puts (s : State) (l : List (Field × Nat)) (a k : Nat) : (s.puts l).patchWord a k = s.patchWord a k :=
  List.foldlRecOn (motive := fun t : State => t.patchWord a k = s.patchWord a k) l _ rfl fun _ ht _ _ => ht

/-- FMT_CAPO_STATUS.OK and FMT_CAPO_ADDR after a part is written: the next part, and after the last one the next word. -/
def partWrites (a k p : Nat) : List (Field × Nat) :=
  if p = 3 then [(Reg.FMT_CAPO_STATUS_OK a, 0), (Reg.FMT_CAPO_ADDR_PART a, 0), (Reg.FMT_CAPO_ADDR_WORD a, (k + 1) % 256)]
  else [(Reg.FMT_CAPO_STATUS_OK a, 0), (Reg.FMT_CAPO_ADDR_PART a, p + 1)]

theorem partWrites_of_last {a k : Nat} : partWrites a k 3 =
    [(Reg.FMT_CAPO_STATUS_OK a, 0), (Reg.FMT_CAPO_ADDR_PART a, 0), (Reg.FMT_CAPO_ADDR_WORD a, (k + 1) % 256)] := rfl

theorem partWrites_of_lt {a k p : Nat} (hp : p < 3) : partWrites a k p =
    [(Reg.FMT_CAPO_STATUS_OK a, 0), (Reg.FMT_CAPO_ADDR_PART a, p + 1)] := if_neg (Nat.ne_of_lt hp)

theorem partWrites_keys_nodup (a k p : Nat) : ((partWrites a k p).map fun q => q.1.key).Nodup := by
  unfold partWrites
  split
  all_goals
    simp only [List.map_cons, List.map_nil, Field.key, Reg.FMT_CAPO_STATUS_OK, Reg.FMT_CAPO_ADDR_PART, Reg.FMT_CAPO_ADDR_WORD,
      List.nodup_cons, List.mem_cons, List.not_mem_nil, or_false, not_or, not_false_eq_true, List.nodup_nil, and_true]
    omega

section Data
variable {a : Fin 4} {v : Word} {s : State} (hon : s.domOn (80 + a.val) = true)
include hon

theorem execCapoDataWrite_of_open (hrun : s.get (Reg.FMT_CTL_RUN a.val) = 0) (hhalted : s.get (Reg.FMT_STATUS_HALTED a.val) = 1)
    {k p : Nat} (hk : s.get (Reg.FMT_CAPO_ADDR_WORD a.val) = k) (hp : s.get (Reg.FMT_CAPO_ADDR_PART a.val) = p) :
    execCapoDataWrite a v s = .next ((s.putPart a.val k p v.toNat).puts (partWrites a.val k p)) := by
  have hopen : s.capoOpen a.val = true := by
    simp [State.capoOpen, State.flag_eq, hrun, hhalted]
  have hwrites : (s.putPart a.val k p v.toNat).puts (partWrites a.val k p) =
      if p = 3 then (((s.putPart a.val k p v.toNat).put (Reg.FMT_CAPO_STATUS_OK a.val) 0).put
        (Reg.FMT_CAPO_ADDR_PART a.val) 0).put (Reg.FMT_CAPO_ADDR_WORD a.val) ((k + 1) % 256)
      else ((s.putPart a.val k p v.toNat).put (Reg.FMT_CAPO_STATUS_OK a.val) 0).put (Reg.FMT_CAPO_ADDR_PART a.val) (p + 1) :=
    apply_ite (State.puts _) _ _ _
  rw [hwrites]
  simp only [execCapoDataWrite, State.fmtIso_of_on hon, hopen, not_true, if_false, hk, hp]
  rfl

theorem execCapoDataWrite_of_closed (h : s.get (Reg.FMT_CTL_RUN a.val) = 1 ∨ s.get (Reg.FMT_STATUS_HALTED a.val) = 0) :
    execCapoDataWrite a v s = .next (s.fmtReject a.val 6) := by
  have hshut : s.capoOpen a.val = false := by
    rcases h with h | h
    · simp [State.capoOpen, State.flag_eq, h]
    · simp [State.capoOpen, State.flag_eq, h]
  simp only [execCapoDataWrite, State.fmtIso_of_on hon, hshut, Bool.false_eq_true, not_false_eq_true, if_true]

end Data

/-- A part written while Capo is open: what is read of it, of OK and of the address. -/
theorem State.wrote_putPart (s : State) (a k : Nat) {p v : Nat} (hv : v < 2 ^ 32) :
    bits (((s.putPart a k p v).puts (partWrites a k p)).patchWord a k) (32 * p + 31) (32 * p) = v ∧
      (∀ F n, (F, n) ∈ partWrites a k p → ((s.putPart a k p v).puts (partWrites a k p)).get F = n % 2 ^ F.width) ∧
        FieldsKept s ((s.putPart a k p v).puts (partWrites a k p)) ((partWrites a k p).map Prod.fst) ∧
          BytesKept s ((s.putPart a k p v).puts (partWrites a k p)) := by
  refine ⟨?_, fun F n h => State.get_puts_of_mem (partWrites_keys_nodup a k p) h _, ?_, ?_⟩
  · rw [State.patchWord_puts, State.patchWord_putPart]
    exact bits_part_replaced _ p hv
  · exact (FieldsKept.of_f rfl _).trans (FieldsKept.puts _ _)
  · exact BytesKept.of_mem (State.puts_mem _ _)

/-! ## CAPO_VERIFY and its end (R198) -/

theorem execCapoVerify_of_on {a : Fin 4} {v : Word} {s : State} (hon : s.domOn (80 + a.val) = true) :
    execCapoVerify a v s = .next ((s.modFmt a.val fun x => { x with expect := v.toNat }).put
      (Reg.FMT_CAPO_STATUS_BUSY a.val) 1) := by
  simp only [execCapoVerify, State.fmtIso_of_on hon]

/-- A field below the match registers of a formatter is none of them. -/
theorem State.get_match_put {s : State} {a : Nat} {F : Field} (hF : F.key < (0x40c00100 + 0x40000 * a) * 32) (v n : Nat) :
    (s.put F v).get (Reg.FMT_CAPO_MATCH_EN a n) = s.get (Reg.FMT_CAPO_MATCH_EN a n) ∧
      (s.put F v).get (Reg.FMT_CAPO_MATCH_ROM_ADDR a n) = s.get (Reg.FMT_CAPO_MATCH_ROM_ADDR a n) ∧
        (s.put F v).get (Reg.FMT_CAPO_MATCH_PATCH_ADDR a n) = s.get (Reg.FMT_CAPO_MATCH_PATCH_ADDR a n) := by
  refine ⟨State.get_put_ne _ _ _ ?_, State.get_put_ne _ _ _ ?_, State.get_put_ne _ _ _ ?_⟩
  all_goals
    refine Nat.ne_of_gt (lt_of_lt_of_le hF ?_)
    simp only [Field.key, Reg.FMT_CAPO_MATCH_EN, Reg.FMT_CAPO_MATCH_ROM_ADDR, Reg.FMT_CAPO_MATCH_PATCH_ADDR]
    omega

theorem State.patchCrcRead_congr {s t : State} {a : Nat} (hpatch : ∀ k, t.patchWord a k = s.patchWord a k)
    (hmatch : ∀ n, t.matchWord a n = s.matchWord a n) (fs : List Nat) : t.patchCrcRead a fs = s.patchCrcRead a fs := by
  simp only [State.patchCrcRead, hpatch, hmatch]

theorem State.matchWord_put {s : State} {a : Nat} {F : Field} (hF : F.key < (0x40c00100 + 0x40000 * a) * 32) (v n : Nat) :
    (s.put F v).matchWord a n = s.matchWord a n := by
  obtain ⟨hen, hrom, hpatch⟩ := State.get_match_put (s := s) (a := a) hF v n
  rw [State.matchWord, State.matchWord, hen, hrom, hpatch]

/-- The checks of a verification read nothing below the match registers. -/
theorem State.capoCheck_put {s : State} {a : Nat} {F : Field} (hF : F.key < (0x40c00100 + 0x40000 * a) * 32) (v : Nat) :
    (s.put F v).capoCheck a = s.capoCheck a := by
  have hen := fun n => (State.get_match_put (s := s) (a := a) hF v n).1
  have hrom := fun n => (State.get_match_put (s := s) (a := a) hF v n).2.1
  have hdup : (s.put F v).dupMatch a = s.dupMatch a := by simp only [State.dupMatch, State.flag_eq, hen, hrom]
  have hcrc : (s.put F v).patchCrc a = s.patchCrc a := State.patchCrcRead_congr (s.patchWord_put F v a) (State.matchWord_put hF v) []
  rw [State.capoCheck, State.capoCheck, hdup, hcrc]
  rfl

/-- FMT_CAPO_STATUS at the end of a verification. -/
def verifyWrites (a ok f w : Nat) : List (Field × Nat) :=
  [(Reg.FMT_CAPO_STATUS_BUSY a, 0), (Reg.FMT_CAPO_STATUS_OK a, ok), (Reg.FMT_CAPO_STATUS_FAIL a, f),
    (Reg.FMT_CAPO_STATUS_WHERE a, w)]

theorem verifyWrites_keys_nodup (a ok f w : Nat) : ((verifyWrites a ok f w).map fun q => q.1.key).Nodup := by
  simp only [verifyWrites, List.map_cons, List.map_nil, Field.key, Reg.FMT_CAPO_STATUS_BUSY, Reg.FMT_CAPO_STATUS_OK,
    Reg.FMT_CAPO_STATUS_FAIL, Reg.FMT_CAPO_STATUS_WHERE, List.nodup_cons, List.mem_cons, List.not_mem_nil, or_false, not_or,
    not_false_eq_true, List.nodup_nil, and_true]
  omega

/-- What is read of FMT_CAPO_STATUS then. -/
theorem State.get_verifyWrites (s : State) (a : Nat) {ok f w : Nat} (hok : ok < 2) (hf : f < 8) (hw : w < 512) :
    (s.puts (verifyWrites a ok f w)).get (Reg.FMT_CAPO_STATUS_BUSY a) = 0 ∧
      (s.puts (verifyWrites a ok f w)).get (Reg.FMT_CAPO_STATUS_OK a) = ok ∧
        (s.puts (verifyWrites a ok f w)).get (Reg.FMT_CAPO_STATUS_FAIL a) = f ∧
          (s.puts (verifyWrites a ok f w)).get (Reg.FMT_CAPO_STATUS_WHERE a) = w := by
  have hget := fun F v hF => State.get_puts_of_mem (F := F) (v := v) (verifyWrites_keys_nodup a ok f w) hF s
  refine ⟨hget _ 0 ?_, (hget _ ok ?_).trans (Nat.mod_eq_of_lt hok), (hget _ f ?_).trans (Nat.mod_eq_of_lt hf),
    (hget _ w ?_).trans (Nat.mod_eq_of_lt hw)⟩
  all_goals simp only [verifyWrites, List.mem_cons, true_or, or_true]

theorem lt_of_find_range {n k : Nat} {p : Nat → Bool} (h : (List.range n).find? p = some k) : k < n :=
  List.mem_range.mp (List.mem_of_find?_eq_some h)

/-- FAIL and WHERE of a failing check fit their fields. -/
theorem State.capoCheck_lt {s : State} {a f w : Nat} (h : s.capoCheck a = some (f, w)) : f < 8 ∧ w < 512 := by
  unfold State.capoCheck at h
  dsimp only at h
  split at h
  · next k hk =>
    cases h
    exact ⟨by decide, (lt_of_find_range hk).trans (by decide)⟩
  · split at h
    · next k hk =>
      cases h
      exact ⟨by decide, (lt_of_find_range hk).trans (by decide)⟩
    · split at h
      · next n hn =>
        cases h
        have := lt_of_find_range hn
        omega
      · split at h
        · cases h
        · cases h
          decide

section Done
variable {a : Fin 4} {s : State} (hbusy : s.get (Reg.FMT_CAPO_STATUS_BUSY a.val) = 1)
include hbusy

theorem execCapoVerifyDone_of_busy : execCapoVerifyDone a s = .next (match s.capoCheck a.val with
    | some fw => s.puts (verifyWrites a.val 0 fw.1 fw.2)
    | none => ((s.put (Reg.FMT_CAPO_STATUS_BUSY a.val) 0).modFmt a.val fun x => { x with lastCrc := x.expect }).puts
        (verifyWrites a.val 1 0 0).tail) := by
  have hcheck := State.capoCheck_put (s := s) (a := a.val) (F := Reg.FMT_CAPO_STATUS_BUSY a.val)
    (by simp only [Field.key, Reg.FMT_CAPO_STATUS_BUSY]; omega) 0
  simp only [execCapoVerifyDone, State.flag_eq, hbusy, hcheck]
  cases s.capoCheck a.val <;> rfl

theorem execCapoVerifyDone_of_some {f w : Nat} (h : s.capoCheck a.val = some (f, w)) :
    execCapoVerifyDone a s = .next (s.puts (verifyWrites a.val 0 f w)) := by
  rw [execCapoVerifyDone_of_busy hbusy, h]

theorem execCapoVerifyDone_of_none (h : s.capoCheck a.val = none) : execCapoVerifyDone a s =
    .next ((s.modFmt a.val fun x => { x with lastCrc := x.expect }).puts (verifyWrites a.val 1 0 0)) := by
  rw [execCapoVerifyDone_of_busy hbusy, h]
  rfl

end Done

end Sys2Proof.Machine
end

