-- ==== Sys2Proof/Proofs/FormatterControl.lean ====
section
/-! SUPPORT. Writes of FMT_CTL (07 R199, R203, Table TAB-8), and what an accepted one and a keyed reset leave. -/

namespace Sys2Proof.Machine

/-! ## RUN (R199) -/

/-- FMT_CTL and HALTED as an accepted write leaves them. -/
def runWrites (s : State) (a v : Nat) : List (Field × Nat) :=
  [(Reg.FMT_CTL_REVISIT a, bits v 11 8), (Reg.FMT_CTL_LEAD a, bits v 7 0), (Reg.FMT_CTL_RUN a, bit v 14),
    (Reg.FMT_STATUS_HALTED a, b2n (!hasBit v 14 || s.flag (Reg.FMT_MCHK_VALID a)))]

theorem runWrites_keys_nodup (s : State) (a v : Nat) : ((runWrites s a v).map fun q => q.1.key).Nodup := by
  simp only [runWrites, List.map_cons, List.map_nil, Field.key, Reg.FMT_CTL_REVISIT, Reg.FMT_CTL_LEAD,
    Reg.FMT_CTL_RUN, Reg.FMT_STATUS_HALTED, List.nodup_cons, List.mem_cons, List.not_mem_nil, or_false, not_or,
    not_false_eq_true, List.nodup_nil, and_true]
  omega

section Control
variable {s : State} {a v : Nat} (hkind : hasBit v 15 = false)
include hkind

theorem State.fmtCtl_of_zero (h : bits v 11 8 = 0 ∨ bits v 7 0 = 0) : s.fmtCtl a v = s.fmtReject a 1 := by
  simp only [State.fmtCtl, hkind, Bool.false_eq_true, if_false, if_pos h]

variable (hrevisit : bits v 11 8 ≠ 0)
include hrevisit

theorem State.fmtCtl_of_range (h : bits v 7 0 = 1 ∨ 128 < bits v 7 0) : s.fmtCtl a v = s.fmtReject a 2 := by
  have hzero : ¬(bits v 11 8 = 0 ∨ bits v 7 0 = 0) := by omega
  simp only [State.fmtCtl, hkind, Bool.false_eq_true, if_false, if_neg hzero, if_pos h]

variable (hlow : 2 ≤ bits v 7 0) (hhigh : bits v 7 0 ≤ 128)
include hlow hhigh

/-- What the checks of REVISIT and LEAD let through. -/
theorem State.fmtCtl_of_fields : s.fmtCtl a v =
    if hasBit v 14 && !s.flag (Reg.FMT_CAPO_STATUS_OK a) &&
        (List.range 32).any (fun n => s.flag (Reg.FMT_CAPO_MATCH_EN a n)) then s.fmtReject a 7
    else s.puts (runWrites s a v) := by
  have hzero : ¬(bits v 11 8 = 0 ∨ bits v 7 0 = 0) := by omega
  have hrange : ¬(bits v 7 0 = 1 ∨ 128 < bits v 7 0) := by omega
  have hvalid : (((s.put (Reg.FMT_CTL_REVISIT a) (bits v 11 8)).put (Reg.FMT_CTL_LEAD a) (bits v 7 0)).put
      (Reg.FMT_CTL_RUN a) (bit v 14)).flag (Reg.FMT_MCHK_VALID a) = s.flag (Reg.FMT_MCHK_VALID a) := by
    rw [State.flag_eq, State.flag_eq, State.get_put_ne, State.get_put_ne, State.get_put_ne]
    all_goals
      simp only [Field.key, Reg.FMT_CTL_REVISIT, Reg.FMT_CTL_LEAD, Reg.FMT_CTL_RUN, Reg.FMT_MCHK_VALID]
      omega
  simp only [State.fmtCtl, hkind, Bool.false_eq_true, if_false, if_neg hzero, if_neg hrange, hvalid]
  rfl

theorem State.fmtCtl_of_unverified (hrun : hasBit v 14 = true) (hok : s.get (Reg.FMT_CAPO_STATUS_OK a) = 0) (n : Fin 32)
    (hen : s.get (Reg.FMT_CAPO_MATCH_EN a n.val) = 1) : s.fmtCtl a v = s.fmtReject a 7 := by
  have hany : (List.range 32).any (fun n => s.flag (Reg.FMT_CAPO_MATCH_EN a n)) = true :=
    List.any_eq_true.mpr ⟨n.val, List.mem_range.mpr n.isLt, by rw [State.flag_eq, hen]; rfl⟩
  rw [State.fmtCtl_of_fields hkind hrevisit hlow hhigh, hrun, hany, State.flag_eq, hok]
  rfl

theorem State.fmtCtl_of_verified (hok : s.get (Reg.FMT_CAPO_STATUS_OK a) = 1) :
    s.fmtCtl a v = s.puts (runWrites s a v) := by
  rw [State.fmtCtl_of_fields hkind hrevisit hlow hhigh, State.flag_eq, hok]
  simp

end Control

theorem execFmtRunWrite_of_on {a : Fin 4} {v : Word} {s : State} (hon : s.domOn (80 + a.val) = true) :
    execFmtRunWrite a v s = .next (s.fmtCtl a.val v.toNat) := by
  rw [execFmtRunWrite, State.fmtIso_of_on hon]

theorem execFormatterReset_of_on {a : Fin 4} {v : Word} {s : State} (hon : s.domOn (80 + a.val) = true) :
    execFormatterReset a v s = .next (s.fmtCtl a.val v.toNat) := by
  rw [execFormatterReset, State.fmtIso_of_on hon]

theorem State.get_runWrites (s : State) (a v : Nat) :
    (s.puts (runWrites s a v)).get (Reg.FMT_CTL_RUN a) = bit v 14 ∧
      (s.puts (runWrites s a v)).get (Reg.FMT_CTL_REVISIT a) = bits v 11 8 ∧
        (s.puts (runWrites s a v)).get (Reg.FMT_CTL_LEAD a) = bits v 7 0 ∧
          (s.puts (runWrites s a v)).get (Reg.FMT_STATUS_HALTED a) =
            b2n (decide (bit v 14 = 0) || s.flag (Reg.FMT_MCHK_VALID a)) := by
  have hget := fun F n hF => State.get_puts_of_mem (F := F) (v := n) (runWrites_keys_nodup s a v) hF s
  have hbit : (!hasBit v 14) = decide (bit v 14 = 0) := by
    have hlt : bit v 14 < 2 := Nat.mod_lt _ (by decide)
    rw [hasBit]
    interval_cases bit v 14 <;> rfl
  have hhalted := hget (Reg.FMT_STATUS_HALTED a) (b2n (!hasBit v 14 || s.flag (Reg.FMT_MCHK_VALID a))) (by simp [runWrites])
  rw [hbit] at hhalted
  exact ⟨(hget _ (bit v 14) (by simp [runWrites])).trans (Nat.mod_mod _ _),
    (hget _ (bits v 11 8) (by simp [runWrites])).trans (Nat.mod_mod _ _),
    (hget _ (bits v 7 0) (by simp [runWrites])).trans (Nat.mod_mod _ _), hhalted.trans (b2n_mod_two _)⟩

/-! ## The reset (R203) -/

/-- FMT_MCHK, FMT_STATUS, OK and RUN after a reset. -/
def resetWrites (a : Nat) : List (Field × Nat) :=
  [(Reg.FMT_MCHK_VALID a, 0), (Reg.FMT_MCHK_CAUSE a, 0), (Reg.FMT_MCHK_THREAD a, 0), (Reg.FMT_MCHK_SPACE a, 0),
    (Reg.FMT_MCHK_ADDR a, 0), (Reg.FMT_STATUS_MCHK a, 0), (Reg.FMT_CAPO_STATUS_OK a, 0), (Reg.FMT_CTL_RUN a, 0),
    (Reg.FMT_STATUS_HALTED a, 1)]

theorem resetWrites_keys_nodup (a : Nat) : ((resetWrites a).map fun q => q.1.key).Nodup := by
  simp only [resetWrites, List.map_cons, List.map_nil, Field.key, Reg.FMT_MCHK_VALID, Reg.FMT_MCHK_CAUSE,
    Reg.FMT_MCHK_THREAD, Reg.FMT_MCHK_SPACE, Reg.FMT_MCHK_ADDR, Reg.FMT_STATUS_MCHK, Reg.FMT_CAPO_STATUS_OK, Reg.FMT_CTL_RUN,
    Reg.FMT_STATUS_HALTED, List.nodup_cons, List.mem_cons, List.not_mem_nil, or_false, not_or, not_false_eq_true,
    List.nodup_nil, and_true]
  omega

/-- The slots stopped, the runs failed, and the gates closed. -/
def State.resetSlots (s : State) (a : Nat) : State :=
  ((s.each (slotsOf a) State.stopSlot).finishRuns a 5 fun _ _ _ => false).each (slotsOf a) State.closeGate

/-- The threads at their reset state. -/
def State.resetThreads (s : State) (a : Nat) : State := s.modFmt a fun x => { x with threads := [] }

theorem State.fmtReset_eq (s : State) (a : Nat) : s.fmtReset a = ((s.resetSlots a).resetThreads a).puts (resetWrites a) := rfl

theorem State.fmtCtl_of_key {s : State} {a v : Nat} (hkind : hasBit v 15 = true) (hkey : bits v 31 16 = 0x5A5A) :
    s.fmtCtl a v = s.fmtReset a := by
  simp only [State.fmtCtl, hkind, hkey, if_true]

theorem State.fmtCtl_of_noKey {s : State} {a v : Nat} (hkind : hasBit v 15 = true) (hkey : bits v 31 16 ≠ 0x5A5A) :
    s.fmtCtl a v = s := by
  simp only [State.fmtCtl, hkind, hkey, if_true, if_false]

theorem State.closeGates_fmts (xs : List Nat) (s : State) : (s.each xs State.closeGate).fmts = s.fmts :=
  State.each_fmts (g := State.closeGate) (fun _ _ => rfl) xs s

theorem State.eq_closeGates (xs : List Nat) (s : State) (i : Nat) : ((s.each xs State.closeGate).slot i).eq = (s.slot i).eq := by
  refine List.foldlRecOn (motive := fun t : State => (t.slot i).eq = (s.slot i).eq) xs State.closeGate rfl fun t ht k _ => ?_
  by_cases hik : i = k
  · rw [hik, State.slot_closeGate, ← hik]
    exact ht
  · rwa [show (t.closeGate k).slot i = t.slot i from State.slot_modSlot_ne t (fun x => { x with gate := false }) hik]

theorem State.gate_closeGates {i : Nat} {xs : List Nat} (hi : i ∈ xs) (s : State) :
    ((s.each xs State.closeGate).slot i).gate = false := by
  refine State.each_of_mem (P := fun t => (t.slot i).gate = false) hi (fun t => ?_) (fun t k _ ht => ?_) s
  · rw [State.slot_closeGate]
  · exact ((GatesKept.closeGate t k).slot i).gate ht

section Reset
variable (s : State) (a : Nat)

theorem State.quiet_resetSlots : ((s.resetSlots a).fmt a).cur = [] ∧ ((s.resetSlots a).fmt a).queues = [] := by
  obtain ⟨hcur, hqueues, -⟩ := State.quiet_finishRuns (s.each (slotsOf a) State.stopSlot) a 5 fun _ _ _ => false
  rw [State.resetSlots, State.fmt_congr (State.closeGates_fmts _ _)]
  exact ⟨hcur, hqueues⟩

theorem State.slot_resetSlots {i : Nat} (hi : i ∈ slotsOf a) :
    ((s.resetSlots a).slot i).gate = false ∧ ((s.resetSlots a).slot i).eq = [] := by
  refine ⟨State.gate_closeGates hi _, ?_⟩
  rw [State.resetSlots, State.eq_closeGates, State.slot_congr (SectorsKept.finishRuns _ a 5 _).slots]
  exact (State.shut_stopSlots hi s).eq

theorem State.resetThreads_slots : (s.resetThreads a).slots = s.slots := rfl

theorem State.fmt_resetThreads : (s.resetThreads a).fmt a = { s.fmt a with threads := [] } :=
  State.fmt_modFmt_same s a fun x => { x with threads := [] }

theorem State.fmtReset_tables : (s.fmtReset a).tables = ((s.resetSlots a).resetThreads a).tables :=
  State.puts_tables _ (resetWrites a)

theorem State.fmt_fmtReset : (s.fmtReset a).fmt a = { (s.resetSlots a).fmt a with threads := [] } :=
  (State.fmt_congr (State.fmts_of_tables (s.fmtReset_tables a)) a).trans ((s.resetSlots a).fmt_resetThreads a)

theorem State.thread_fmtReset (j : Nat) : (s.fmtReset a).thread a j = threadInit := by
  rw [State.thread, State.fmt_fmtReset]
  rfl

/-- No run is in progress or queued after a reset. -/
theorem State.quiet_fmtReset : ((s.fmtReset a).fmt a).cur = [] ∧ ((s.fmtReset a).fmt a).queues = [] := by
  rw [State.fmt_fmtReset]
  dsimp only
  exact s.quiet_resetSlots a

/-- The slots after a reset: their gates closed, their edge queues empty. -/
theorem State.slot_fmtReset {i : Nat} (hi : i ∈ slotsOf a) :
    ((s.fmtReset a).slot i).gate = false ∧ ((s.fmtReset a).slot i).eq = [] := by
  have hslots : (s.fmtReset a).slots = (s.resetSlots a).slots :=
    (State.slots_of_tables (s.fmtReset_tables a)).trans ((s.resetSlots a).resetThreads_slots a)
  rw [State.slot_congr hslots]
  exact s.slot_resetSlots a hi

theorem State.get_fmtReset {F : Field} {n : Nat} (h : (F, n) ∈ resetWrites a) : (s.fmtReset a).get F = n % 2 ^ F.width := by
  rw [State.fmtReset_eq]
  exact State.get_puts_of_mem (resetWrites_keys_nodup a) h _

end Reset

end Sys2Proof.Machine
end

