-- ==== Sys2Proof/Proofs/Sweep.lean ====
section
/-! SUPPORT. Machine checks of fetched words and of the sweep by case (07 R201, R202), and a pass of the sweep without an error. -/

namespace Sys2Proof.Machine

/-! ## A fetched word (R201) -/

/-- The causes of a failing word. -/
theorem tabFault_lt {w c : Nat} (h : tabFault w = some c) : c < 8 := by
  unfold tabFault at h
  split_ifs at h
  all_goals
    cases h
    decide

section Fetch
variable {a j : Fin 4} {f : Nat} {s : State}

theorem execTabMachineCheck_of_fault (hcan : s.canFetch a.val j.val = true) {c : Nat}
    (h : tabFault ((s.fetchTab a.val (s.thread a.val j.val)).2.2 ^^^ f) = some c) : execTabMachineCheck a j f s =
      .next (s.fmtMachineCheck a.val c j.val (s.fetchTab a.val (s.thread a.val j.val)).1
        (s.fetchTab a.val (s.thread a.val j.val)).2.1) := by
  simp only [execTabMachineCheck, hcan, h, if_true]

theorem execTabMachineCheck_of_none (h : s.canFetch a.val j.val = false ∨
    tabFault ((s.fetchTab a.val (s.thread a.val j.val)).2.2 ^^^ f) = none) : execTabMachineCheck a j f s = .next s := by
  rcases h with h | h
  · simp only [execTabMachineCheck, h, Bool.false_eq_true, if_false]
  · simp only [execTabMachineCheck, h, ite_self]

end Fetch

/-! ## The sweep's place (R202) -/

/-- The sweep goes to word `n`. -/
def State.sweepTo (s : State) (a n : Nat) : State := s.modFmt a fun x => { x with sweep := n }

section Place
variable (s : State) (a n : Nat)

theorem State.fmt_sweepTo : (s.sweepTo a n).fmt a = { s.fmt a with sweep := n } :=
  State.fmt_modFmt_same s a fun x => { x with sweep := n }

theorem State.sweep_sweepTo : ((s.sweepTo a n).fmt a).sweep = n := by
  rw [State.fmt_sweepTo]

theorem State.sweepTo_f : (s.sweepTo a n).f = s.f := State.modFmt_f s a _

theorem State.sweepTo_mem : (s.sweepTo a n).mem = s.mem := State.modFmt_mem s a _

theorem State.get_sweepTo (F : Field) : (s.sweepTo a n).get F = s.get F := State.get_of_f (s.sweepTo_f a n) F

theorem State.patchWord_sweepTo (k : Nat) : (s.sweepTo a n).patchWord a k = s.patchWord a k := by
  rw [State.patchWord, State.fmt_sweepTo]
  rfl

end Place

/-- A word of 128 bits fails the sweep's check: one half has odd parity. -/
def oddWord (n : Nat) : Bool := oddParity 64 (n % 2 ^ 64) || oddParity 64 (n / 2 ^ 64)

/-! ## A step of the sweep -/

section Step
variable {a : Fin 4} {f : Nat} {s : State} (hon : s.domOn (80 + a.val) = true) (hpass : (s.fmt a.val).sweep < 8448)
include hon hpass

theorem execSweepStep_of_on : execSweepStep a f s = .next
    (if (s.fmt a.val).sweep < 8192 then
      (if oddWord f then (s.sweepTo a.val ((s.fmt a.val).sweep + 1)).fmtMachineCheck a.val 4 0 false (s.fmt a.val).sweep
        else s.sweepTo a.val ((s.fmt a.val).sweep + 1))
    else if s.flag (Reg.FMT_CAPO_STATUS_OK a.val) && oddWord (s.patchWord a.val ((s.fmt a.val).sweep - 8192) ^^^ f) then
      (s.sweepTo a.val ((s.fmt a.val).sweep + 1)).fmtMachineCheck a.val 5 0 true ((s.fmt a.val).sweep - 8192)
    else s.sweepTo a.val ((s.fmt a.val).sweep + 1)) := by
  rw [← State.patchWord_sweepTo s a.val ((s.fmt a.val).sweep + 1), State.flag_eq,
    ← State.get_sweepTo s a.val ((s.fmt a.val).sweep + 1), ← State.flag_eq]
  simp only [execSweepStep, hon, not_le.mpr hpass, decide_false, Bool.not_true, Bool.or_false, Bool.false_eq_true, if_false]
  rfl

/-- A word of the ROM that fails. -/
theorem execSweepStep_of_rom (hrom : (s.fmt a.val).sweep < 8192) (hodd : oddWord f = true) : execSweepStep a f s =
    .next ((s.sweepTo a.val ((s.fmt a.val).sweep + 1)).fmtMachineCheck a.val 4 0 false (s.fmt a.val).sweep) := by
  rw [execSweepStep_of_on hon hpass, if_pos hrom, if_pos hodd]

/-- A patch word that fails. -/
theorem execSweepStep_of_patch (hrom : 8192 ≤ (s.fmt a.val).sweep) (hok : s.get (Reg.FMT_CAPO_STATUS_OK a.val) = 1)
    (hodd : oddWord (s.patchWord a.val ((s.fmt a.val).sweep - 8192) ^^^ f) = true) : execSweepStep a f s =
      .next ((s.sweepTo a.val ((s.fmt a.val).sweep + 1)).fmtMachineCheck a.val 5 0 true ((s.fmt a.val).sweep - 8192)) := by
  rw [execSweepStep_of_on hon hpass, if_neg (not_lt.mpr hrom), State.flag_eq, hok, hodd]
  rfl

end Step

/-- A word that the sweep reads as it is stored, where no patch is verified. -/
theorem execSweepStep_of_clean {a : Fin 4} {s : State} (hon : s.domOn (80 + a.val) = true) (hpass : (s.fmt a.val).sweep < 8448)
    (hok : 8192 ≤ (s.fmt a.val).sweep → s.get (Reg.FMT_CAPO_STATUS_OK a.val) = 0) :
    execSweepStep a 0 s = .next (s.sweepTo a.val ((s.fmt a.val).sweep + 1)) := by
  rw [execSweepStep_of_on hon hpass]
  by_cases hrom : (s.fmt a.val).sweep < 8192
  · rw [if_pos hrom, if_neg (by decide)]
  · rw [if_neg hrom, State.flag_eq, hok (not_lt.mp hrom)]
    rfl

/-! ## The end of a pass -/

/-- The next pass starts at the first word, and the passes are counted. -/
def State.nextPass (s : State) (a : Nat) : State := (s.sweepTo a 0).inc (Reg.FMT_SWEEP_PASSES_COUNT a)

section Pass
variable (s : State) (a : Nat)

theorem State.fmt_nextPass : (s.nextPass a).fmt a = { s.fmt a with sweep := 0 } := s.fmt_sweepTo a 0

theorem State.sweep_nextPass : ((s.nextPass a).fmt a).sweep = 0 := s.sweep_sweepTo a 0

theorem FieldsKept.nextPass : FieldsKept s (s.nextPass a) [Reg.FMT_SWEEP_PASSES_COUNT a] :=
  (FieldsKept.of_f (s.sweepTo_f a 0) _).incBy _ 1 (by simp)

theorem State.nextPass_mem : (s.nextPass a).mem = s.mem := s.sweepTo_mem a 0

theorem State.get_count_nextPass : (s.nextPass a).get (Reg.FMT_SWEEP_PASSES_COUNT a) =
    s.counted (Reg.FMT_SWEEP_PASSES_COUNT a) 1 := by
  rw [State.nextPass, State.inc, State.incBy, State.get_put_same, State.get_sweepTo]
  rfl

theorem State.get_nextPass {F : Field} (h : F.key ≠ (Reg.FMT_SWEEP_PASSES_COUNT a).key) : (s.nextPass a).get F = s.get F :=
  FieldsKept.nextPass s a F (by simpa using h)

theorem State.mchk_nextPass {a : Nat} (h : s.get (Reg.FMT_MCHK_VALID a) = 0) :
    (s.nextPass a).get (Reg.FMT_MCHK_VALID a) = 0 := by
  rw [State.get_nextPass, h]
  simp only [Field.key, Reg.FMT_MCHK_VALID, Reg.FMT_SWEEP_PASSES_COUNT]
  omega

theorem State.patchCrcRead_nextPass (fs : List Nat) : (s.nextPass a).patchCrcRead a fs = s.patchCrcRead a fs := by
  have hpatch : ∀ k, (s.nextPass a).patchWord a k = s.patchWord a k := s.patchWord_sweepTo a 0
  have hcount : (Reg.FMT_SWEEP_PASSES_COUNT a).key < (0x40c00100 + 0x40000 * a) * 32 := by
    simp only [Field.key, Reg.FMT_SWEEP_PASSES_COUNT]
    omega
  refine State.patchCrcRead_congr hpatch (fun n => (State.matchWord_put hcount _ n).trans ?_) fs
  simp only [State.matchWord, State.get_sweepTo]

end Pass

section PassEnd
variable {a : Fin 4} {s : State} (hon : s.domOn (80 + a.val) = true) (hpass : 8448 ≤ (s.fmt a.val).sweep)
include hon hpass

theorem execSweepPassEnd_of_on (pass : SweepRead) : execSweepPassEnd a pass s = .next
    (if pass.romCrc ≠ Config.romCrc % 2 ^ 32 then (s.nextPass a.val).fmtMachineCheck a.val 4 0 false 0
    else if s.flag (Reg.FMT_CAPO_STATUS_OK a.val) && pass.matchFlips.any (fun n => oddParity 32 n) then
      ((s.nextPass a.val).fmtMachineCheck a.val 5 0 true (Config.freeValue (s.nextPass a.val).free % 8192)).draw 1
    else if s.flag (Reg.FMT_CAPO_STATUS_OK a.val) && s.patchCrcRead a.val pass.matchFlips != (s.fmt a.val).lastCrc then
      (s.nextPass a.val).fmtMachineCheck a.val 5 0 true 0
    else s.nextPass a.val) := by
  have hok : s.flag (Reg.FMT_CAPO_STATUS_OK a.val) = (s.nextPass a.val).flag (Reg.FMT_CAPO_STATUS_OK a.val) := by
    rw [State.flag_eq, State.flag_eq, State.get_nextPass]
    simp only [Field.key, Reg.FMT_CAPO_STATUS_OK, Reg.FMT_SWEEP_PASSES_COUNT]
    omega
  have hlast : (s.fmt a.val).lastCrc = ((s.nextPass a.val).fmt a.val).lastCrc := by rw [State.fmt_nextPass]
  rw [← State.patchCrcRead_nextPass, hok, hlast]
  simp only [execSweepPassEnd, hon, hpass, decide_true, Bool.and_self, if_true]
  rfl

/-- The CRC of the ROM differs. -/
theorem execSweepPassEnd_of_rom {pass : SweepRead} (h : pass.romCrc ≠ Config.romCrc % 2 ^ 32) :
    execSweepPassEnd a pass s = .next ((s.nextPass a.val).fmtMachineCheck a.val 4 0 false 0) := by
  rw [execSweepPassEnd_of_on hon hpass, if_pos h]

/-- The CRC of the ROM holds, and no patch is verified. -/
theorem execSweepPassEnd_of_unverified (hok : s.get (Reg.FMT_CAPO_STATUS_OK a.val) = 0) (fs : List Nat) :
    execSweepPassEnd a ⟨Config.romCrc % 2 ^ 32, fs⟩ s = .next (s.nextPass a.val) := by
  rw [execSweepPassEnd_of_on hon hpass, if_neg (fun h => h rfl), State.flag_eq, hok]
  rfl

variable (hok : s.get (Reg.FMT_CAPO_STATUS_OK a.val) = 1) (fs : List Nat)
include hok

/-- What is checked then of a verified patch. -/
theorem execSweepPassEnd_of_verified : execSweepPassEnd a ⟨Config.romCrc % 2 ^ 32, fs⟩ s = .next
    (if fs.any (fun n => oddParity 32 n) then
      ((s.nextPass a.val).fmtMachineCheck a.val 5 0 true (Config.freeValue (s.nextPass a.val).free % 8192)).draw 1
    else if s.patchCrcRead a.val fs != (s.fmt a.val).lastCrc then (s.nextPass a.val).fmtMachineCheck a.val 5 0 true 0
    else s.nextPass a.val) := by
  have hflag : s.flag (Reg.FMT_CAPO_STATUS_OK a.val) = true := by
    rw [State.flag_eq, hok]
    rfl
  rw [execSweepPassEnd_of_on hon hpass, if_neg (fun h => h rfl), hflag, Bool.true_and, Bool.true_and]

theorem execSweepPassEnd_of_clean (hodd : fs.all (fun n => !oddParity 32 n) = true)
    (hcrc : s.patchCrcRead a.val fs = (s.fmt a.val).lastCrc) :
    execSweepPassEnd a ⟨Config.romCrc % 2 ^ 32, fs⟩ s = .next (s.nextPass a.val) := by
  have hnone : fs.any (fun n => oddParity 32 n) = false := by
    rw [List.any_eq_false]
    intro n hn
    simpa using List.all_eq_true.mp hodd n hn
  simp only [execSweepPassEnd_of_verified hon hpass hok, hnone, hcrc, bne_self_eq_false, Bool.false_eq_true, if_false]

/-- Otherwise a machine check with cause 5 in the patch memory: nothing but a draw of a free value follows it. -/
theorem execSweepPassEnd_of_patch
    (h : (fs.any (fun n => oddParity 32 n) || s.patchCrcRead a.val fs != (s.fmt a.val).lastCrc) = true) :
    ∃ addr n, execSweepPassEnd a ⟨Config.romCrc % 2 ^ 32, fs⟩ s =
      .next (((s.nextPass a.val).fmtMachineCheck a.val 5 0 true addr).draw n) := by
  rw [execSweepPassEnd_of_verified hon hpass hok]
  cases hodd : fs.any (fun n => oddParity 32 n) with
  | true => exact ⟨_, 1, rfl⟩
  | false =>
    rw [hodd, Bool.false_or] at h
    rw [h]
    exact ⟨0, 0, rfl⟩

end PassEnd

end Sys2Proof.Machine
end

