-- ==== Sys2Proof/Proofs/FormatterRuns.lean ====
section
/-! SUPPORT. Runs, courses, Capo, RUN, the reset, machine checks and the sweep of a formatter (07 R189 to R203), command by
command. -/

namespace Sys2Proof.Machine

/-- Settles O20, command by command: each is one case of its definition, whose effect the lemmas of the runs, courses, Capo,
FMT_CTL and the sweep state; a machine check by what it logs and by the quiet formatter that it leaves. -/
theorem formatterRuns : Obligations.FormatterRuns := by
  unfold Obligations.FormatterRuns
  refine ⟨?queued, ?zeroCount, ?longCount, ?beyondBuffer, ?beyondTrack, ?queueFull, ?noMember, ?off, ?doneCurrent, ?doneEnded,
    ?doneRead, ?doneEmpty, ?exhausted, ?exhaustedWrite, ?courseValid, ?courseInvalid, ?courseUnfitted, ?barrier, ?barrierDone,
    ?barrierWaits, ?capoPart, ?capoLast, ?capoClosed, ?verify, ?verifyFail, ?verifyOk, ?runWrite, ?runZero, ?runRange,
    ?runUnverified, ?reset, ?resetNoKey, ?tabCheck, ?tabNone, ?sweepRom, ?sweepPatch, ?sweepClean, ?passUnverified, ?passClean,
    ?passRom, ?passPatch⟩
  case queued =>
    intro a v n j m s hon hcount hslot hpos hmax hlist hbit hmem htrack hroom
    refine ⟨_, execRunPush_of_room hon hcount hpos hmax hlist hslot hbit hmem htrack hroom,
      ⟨s.stagedRun a.val n (v.toNat % 65536), ?_, rfl, rfl, rfl, rfl, rfl⟩, ?_, FieldsKept.of_f (State.modFmt_f _ _ _) _,
      BytesKept.of_mem (State.modFmt_mem _ _ _)⟩
    · rw [State.queue_queueRun, List.getLast?_concat]
    · rw [State.queue_queueRun, List.dropLast_concat]
  case zeroCount => exact fun a v s hon h herr => runs_of_rejected (.runPush a v) (execRunPush_of_zero hon h) herr (by decide)
  case longCount =>
    intro a v s hon h herr
    obtain ⟨t, hrun, -, hkept⟩ := runs_of_rejected (.runPush a v) (execRunPush_of_long hon h) herr (by decide)
    exact ⟨t, hrun, hkept⟩
  case beyondBuffer =>
    exact fun a v n s hon herr hcount hpos hmax h =>
      runs_of_rejected (.runPush a v) (execRunPush_of_beyondBuffer hon hcount hpos hmax h) herr (by decide)
  case beyondTrack =>
    exact fun a v n j m s hon herr hcount hslot hpos hmax hlist hbit hmem h => runs_of_rejected (.runPush a v)
      (execRunPush_of_beyondTrack hon hcount hpos hmax hlist hslot hbit hmem h) herr (by decide)
  case queueFull =>
    exact fun a v n j m s hon herr hcount hslot hpos hmax hlist hbit hmem htrack h => runs_of_rejected (.runPush a v)
      (execRunPush_of_full hon hcount hpos hmax hlist hslot hbit hmem htrack h) herr (by decide)
  case noMember =>
    exact fun a v n j s hon herr hcount hslot hpos hmax hlist h => runs_of_rejected (.runPush a v)
      (execRunPush_of_noMember hon hcount hpos hmax hlist hslot h) herr (by decide)
  case off =>
    exact fun a v s hoff => ⟨_, congrArg Host.Outcome.next (State.fmtIso_of_off hoff _), rfl, rfl, FieldsKept.refl s _,
      BytesKept.of_mem rfl⟩
  case doneCurrent =>
    intro a j r s hroom hcur hfinal
    refine ⟨_, execRunDone_of_current hroom hcur hfinal, ?_, ?_, FieldsKept.of_f (State.modFmt_f _ _ _) _,
      BytesKept.of_mem (State.modFmt_mem _ _ _)⟩
    · rw [State.fmt_modFmt_same]
      exact SMap.look_del_same _ _
    · rw [State.fmt_modFmt_same]
  case doneEnded =>
    intro a j k r s hroom hcur hended hfinal
    have hdrain := State.fmt_drainEnded_of_final hended hfinal hroom
    refine ⟨_, execRunDone_of_none hroom hcur, ?_, ?_, ?_, (SectorsKept.drainEnded s a.val []).fields,
      BytesKept.of_mem (State.drainEnded_mem s a.val)⟩
    all_goals rw [hdrain]
  case doneRead =>
    intro a d ds s hon h
    refine ⟨_, execFmtDoneRead_of_some hon h, rfl, ?_, FieldsKept.of_f ((State.answer_f _ _).trans (State.modFmt_f s _ _)) _,
      BytesKept.of_mem ((State.answer_mem _ _).trans (State.modFmt_mem s _ _))⟩
    exact congrArg Fmt.done (State.fmt_modFmt_same s a.val fun x => { x with done := ds })
  case doneEmpty =>
    exact fun a s hon h => ⟨_, execFmtDoneRead_of_none hon h, rfl, rfl, FieldsKept.refl s _, BytesKept.of_mem rfl⟩
  case exhausted =>
    intro a j k ks r s hcur honly hex hk
    have hruns : (s.fmt a.val).Only r := by
      intro q hq hrid
      rw [Fmt.runs, ← List.map_append, List.mem_map] at hq
      obtain ⟨e, he, rfl⟩ := hq
      exact honly e he hrid
    obtain ⟨t, hrun, hfmts⟩ := execRevisitExhausted_fmts hcur hex
    exact ⟨t, hrun, _, (congrArg (fun x : Fmt => SMap.look x.cur j.val) (State.fmt_congr hfmts a.val)).trans
      (State.look_giveUp hcur hruns hk), rfl, SMap.get_put_same r.stat 0 k 3⟩
  case exhaustedWrite =>
    intro a j k req ks r b s hcur hex hwrite hreq hb hwin hnew
    have hcache : (((s.giveUp a.val r k ks).bufRead 0 (r.list + 8 * k) 8).2).cache = s.cache :=
      (State.cache_of_tables (State.bufRead_tables _ _ _ _)).trans (State.finalStatus_cache _ _ _ _ _)
    have haddr : ((s.giveUp a.val r k ks).bufRead 0 (r.list + 8 * k) 8).1.getD 0 = req := congrArg (Option.getD · 0) hreq
    refine ⟨_, execRevisitExhausted_of_write hcur hex hwrite, ?_⟩
    rw [haddr, State.blockFailed_of_uncommitted (by rw [hcache]; exact hb) hwin hnew]
    exact SMap.look_set_same _ _ _
  case courseValid =>
    intro a v s hfit hon hbit h
    refine ⟨_, execCourseCommit_of_valid hbit hfit hon h, ?_, ?_, (FieldsKept.of_f (State.modFmt_f s _ _) _).put _ _ (by simp),
      BytesKept.of_mem ((State.put_mem _ _ _).trans (State.modFmt_mem s _ _))⟩
    · exact congrArg Fmt.pend (State.fmt_modFmt_same s a.val fun x => { x with pend := some (s.stagedCourse a.val) })
    · exact State.get_put_same _ _ _
  case courseInvalid =>
    intro a v s hfit hon hbit h herr
    obtain ⟨t, hrun, -, hkept⟩ := runs_of_rejected (.courseCommit a v) (execCourseCommit_of_invalid hbit hfit hon h) herr
      (by decide)
    exact ⟨t, hrun, hkept⟩
  case courseUnfitted =>
    intro a v s hfit hbit herr
    obtain ⟨-, hkept⟩ := State.rejected herr (code := 5) (by decide)
    exact ⟨_, execCourseCommit_of_unfitted hbit hfit, rfl, hkept⟩
  case barrier =>
    intro a cs s hpend h
    obtain ⟨hnone, hcourse, hdue, hqueues, -, hcur, -⟩ := s.fmt_atBarrier a.val cs
    obtain ⟨qcur, qqueues⟩ := s.quiet_barrierRuns a.val
    exact ⟨_, execCourseBarrier_of_reached hpend h, hnone, hqueues.trans qqueues, s.member_atBarrier a.val cs, hcourse, hdue,
      hcur qcur, s.barrier_atBarrier a.val cs, s.pending_atBarrier a.val cs⟩
  case barrierDone =>
    exact fun a j cs r s hpend h hcur hqueues hended hstat hpos hlook hroom =>
      ⟨_, execCourseBarrier_of_reached hpend h, State.done_atBarrier cs hcur hqueues hended hstat hpos hlook hroom⟩
  case barrierWaits => exact fun a j s h => ⟨s, execCourseBarrier_of_waiting h, rfl⟩
  case capoPart =>
    intro a v s hon hrun hhalted hpart
    obtain ⟨hbits, hget, hfields, hbytes⟩ := s.wrote_putPart a.val (s.get (Reg.FMT_CAPO_ADDR_WORD a.val))
      (p := s.get (Reg.FMT_CAPO_ADDR_PART a.val)) v.isLt
    have hwrites := partWrites_of_lt (a := a.val) (k := s.get (Reg.FMT_CAPO_ADDR_WORD a.val)) hpart
    have hnext := hget (Reg.FMT_CAPO_ADDR_PART a.val) (s.get (Reg.FMT_CAPO_ADDR_PART a.val) + 1) (by simp [hwrites])
    refine ⟨_, execCapoDataWrite_of_open hon hrun hhalted rfl rfl, hbits, hnext.trans (Nat.mod_eq_of_lt ?_),
      hget _ 0 (by simp [hwrites]), hfields.mono (by rw [hwrites]; exact List.Subset.refl _), hbytes⟩
    exact Nat.succ_lt_succ hpart
  case capoLast =>
    intro a v s hon hrun hhalted hpart
    obtain ⟨hbits, hget, hfields, hbytes⟩ := s.wrote_putPart a.val (s.get (Reg.FMT_CAPO_ADDR_WORD a.val)) (p := 3) v.isLt
    have hwrites := partWrites_of_last (a := a.val) (k := s.get (Reg.FMT_CAPO_ADDR_WORD a.val))
    exact ⟨_, execCapoDataWrite_of_open hon hrun hhalted rfl hpart, hbits, hget _ 0 (by simp [hwrites]),
      (hget _ ((s.get (Reg.FMT_CAPO_ADDR_WORD a.val) + 1) % 256) (by simp [hwrites])).trans (Nat.mod_mod _ _),
      hget _ 0 (by simp [hwrites]), hfields, hbytes⟩
  case capoClosed =>
    intro a v s hon h herr
    obtain ⟨t, hrun, -, hkept⟩ := runs_of_rejected (.capoDataWrite a v) (execCapoDataWrite_of_closed hon h) herr (by decide)
    exact ⟨t, hrun, hkept⟩
  case verify =>
    intro a v s hon
    refine ⟨_, execCapoVerify_of_on hon, ?_, State.get_put_same _ _ _,
      (FieldsKept.of_f (State.modFmt_f s _ _) _).put _ _ (by simp),
      BytesKept.of_mem ((State.put_mem _ _ _).trans (State.modFmt_mem s _ _))⟩
    exact congrArg Fmt.expect (State.fmt_modFmt_same s a.val fun x => { x with expect := v.toNat })
  case verifyFail =>
    intro a f w s hbusy h
    obtain ⟨hf, hw⟩ := State.capoCheck_lt h
    obtain ⟨gbusy, gok, gfail, gwhere⟩ := State.get_verifyWrites s a.val (ok := 0) (by decide) hf hw
    exact ⟨_, execCapoVerifyDone_of_some hbusy h, gbusy, gok, gfail, gwhere, rfl, FieldsKept.puts s _,
      BytesKept.of_mem (State.puts_mem s _)⟩
  case verifyOk =>
    intro a s hbusy h
    obtain ⟨gbusy, gok, gfail, gwhere⟩ := State.get_verifyWrites (s.modFmt a.val fun x => { x with lastCrc := x.expect }) a.val
      (ok := 1) (f := 0) (w := 0) (by decide) (by decide) (by decide)
    refine ⟨_, execCapoVerifyDone_of_none hbusy h, gbusy, gok, gfail, gwhere, ?_,
      (FieldsKept.of_f (State.modFmt_f s _ _) _).trans (FieldsKept.puts _ _),
      BytesKept.of_mem ((State.puts_mem _ _).trans (State.modFmt_mem s _ _))⟩
    rw [State.fmt_congr (State.fmts_of_tables (State.puts_tables _ _)), State.fmt_modFmt_same]
  case runWrite =>
    intro a v s hon hkind hrevisit hlow hhigh hok
    obtain ⟨grun, grevisit, glead, ghalted⟩ := s.get_runWrites a.val v.toNat
    refine ⟨_, (execFmtRunWrite_of_on hon).trans (congrArg Host.Outcome.next
      (State.fmtCtl_of_verified hkind (Nat.ne_of_gt hrevisit) hlow hhigh hok)), grun, grevisit, glead, ghalted,
      BytesKept.of_mem (State.puts_mem s _), (FieldsKept.puts s _).mono ?_⟩
    simp [runWrites]
  case runZero =>
    exact fun a v s hon herr hkind h => runs_of_rejected (.fmtRunWrite a v)
      ((execFmtRunWrite_of_on hon).trans (congrArg Host.Outcome.next (State.fmtCtl_of_zero hkind h))) herr (by decide)
  case runRange =>
    exact fun a v s hon herr hkind hrevisit h => runs_of_rejected (.fmtRunWrite a v)
      ((execFmtRunWrite_of_on hon).trans (congrArg Host.Outcome.next (State.fmtCtl_of_range hkind hrevisit h))) herr (by decide)
  case runUnverified =>
    exact fun a v n s hon herr hkind hrevisit hlow hhigh hrun hok hen => runs_of_rejected (.fmtRunWrite a v)
      ((execFmtRunWrite_of_on hon).trans
        (congrArg Host.Outcome.next (State.fmtCtl_of_unverified hkind hrevisit hlow hhigh hrun hok n hen))) herr (by decide)
  case reset =>
    intro a v s hon hkind hkey
    have hget := fun F n h => s.get_fmtReset a.val (F := F) (n := n) h
    obtain ⟨hcur, hqueues⟩ := s.quiet_fmtReset a.val
    exact ⟨_, (execFormatterReset_of_on hon).trans (congrArg Host.Outcome.next (State.fmtCtl_of_key hkind hkey)),
      hget _ 0 (by simp [resetWrites]), hget _ 1 (by simp [resetWrites]), hget _ 0 (by simp [resetWrites]),
      hget _ 0 (by simp [resetWrites]), hget _ 0 (by simp [resetWrites]), hcur, hqueues, fun j =>
        ⟨s.thread_fmtReset a.val j.val, s.slot_fmtReset a.val (mem_slotsOf a.val j)⟩⟩
  case resetNoKey =>
    exact fun a v s hon hkind hkey =>
      ⟨s, (execFormatterReset_of_on hon).trans (congrArg Host.Outcome.next (State.fmtCtl_of_noKey hkind hkey)), rfl⟩
  case tabCheck =>
    intro a j f c s hcan h
    have hvalid := State.mchk_of_canFetch hcan
    obtain ⟨gvalid, gcause, gthread, gspace, gaddr, gmchk, ghalted⟩ := State.logged_fmtMachineCheck hvalid c j.val
      (s.fetchTab a.val (s.thread a.val j.val)).1 (s.fetchTab a.val (s.thread a.val j.val)).2.1
    obtain ⟨hcur, hqueues, -⟩ := State.quiet_fmtMachineCheck hvalid c j.val
      (s.fetchTab a.val (s.thread a.val j.val)).1 (s.fetchTab a.val (s.thread a.val j.val)).2.1
    refine ⟨_, execTabMachineCheck_of_fault hcan h, gvalid, gcause.trans (Nat.mod_eq_of_lt (tabFault_lt h)),
      gthread.trans (Nat.mod_eq_of_lt j.isLt), gspace, gaddr, gmchk, ghalted, hcur, hqueues, fun k => ?_⟩
    obtain ⟨⟨hshut, hgate⟩, hcause⟩ := State.slot_fmtMachineCheck hvalid c j.val
      (s.fetchTab a.val (s.thread a.val j.val)).1 (s.fetchTab a.val (s.thread a.val j.val)).2.1 (mem_slotsOf a.val k)
    exact ⟨hgate, hshut.eq, hshut.rg, hcause⟩
  case tabNone => exact fun a j f s h => ⟨s, execTabMachineCheck_of_none h, rfl⟩
  case sweepRom =>
    intro a f s hon hrom hvalid hodd
    have hpass : (s.fmt a.val).sweep < 8448 := hrom.trans (by decide)
    have hclear := (s.get_sweepTo a.val ((s.fmt a.val).sweep + 1) (Reg.FMT_MCHK_VALID a.val)).trans hvalid
    obtain ⟨gvalid, gcause, -, gspace, gaddr, -, ghalted⟩ := State.logged_fmtMachineCheck hclear 4 0 false (s.fmt a.val).sweep
    obtain ⟨hcur, -, hsweep⟩ := State.quiet_fmtMachineCheck hclear 4 0 false (s.fmt a.val).sweep
    exact ⟨_, execSweepStep_of_rom hon hpass hrom hodd, gvalid, gcause, gspace, gaddr.trans (Nat.mod_eq_of_lt hrom), ghalted,
      hcur, hsweep.trans (s.sweep_sweepTo a.val _)⟩
  case sweepPatch =>
    intro a f w s hon hrom hpass hvalid hok hw hodd
    have haddr : (s.fmt a.val).sweep - 8192 < 8192 := by omega
    have hclear := (s.get_sweepTo a.val ((s.fmt a.val).sweep + 1) (Reg.FMT_MCHK_VALID a.val)).trans hvalid
    obtain ⟨gvalid, gcause, -, gspace, gaddr, -⟩ := State.logged_fmtMachineCheck hclear 5 0 true ((s.fmt a.val).sweep - 8192)
    obtain ⟨-, -, hsweep⟩ := State.quiet_fmtMachineCheck hclear 5 0 true ((s.fmt a.val).sweep - 8192)
    exact ⟨_, execSweepStep_of_patch hon hpass hrom hok (by rw [hw]; exact hodd), gvalid, gcause, gspace,
      gaddr.trans (Nat.mod_eq_of_lt haddr), hsweep.trans (s.sweep_sweepTo a.val _)⟩
  case sweepClean =>
    exact fun a s hon hpass hok => ⟨_, execSweepStep_of_clean hon hpass hok, s.sweep_sweepTo a.val _,
      FieldsKept.of_f (s.sweepTo_f a.val _) _, BytesKept.of_mem (s.sweepTo_mem a.val _)⟩
  case passUnverified =>
    exact fun a fs s hon hpass hok => ⟨_, execSweepPassEnd_of_unverified hon hpass hok fs, s.sweep_nextPass a.val,
      s.get_count_nextPass a.val, FieldsKept.nextPass s a.val, BytesKept.of_mem (s.nextPass_mem a.val)⟩
  case passClean =>
    exact fun a fs s hon hpass hok hodd hcrc => ⟨_, execSweepPassEnd_of_clean hon hpass hok fs hodd hcrc, s.sweep_nextPass a.val,
      FieldsKept.nextPass s a.val, BytesKept.of_mem (s.nextPass_mem a.val)⟩
  case passRom =>
    intro a d fs s hon hpass hd hvalid
    have hclear := s.mchk_nextPass hvalid
    obtain ⟨gvalid, gcause, -⟩ := State.logged_fmtMachineCheck hclear 4 0 false 0
    obtain ⟨-, -, hsweep⟩ := State.quiet_fmtMachineCheck hclear 4 0 false 0
    refine ⟨_, execSweepPassEnd_of_rom hon hpass ?_, hsweep.trans (s.sweep_nextPass a.val), gvalid, gcause⟩
    exact Nat.ne_of_gt (Nat.lt_add_of_pos_right hd)
  case passPatch =>
    intro a fs s hon hpass hvalid hok h
    obtain ⟨addr, n, hrun⟩ := execSweepPassEnd_of_patch hon hpass hok fs h
    have hclear := s.mchk_nextPass hvalid
    obtain ⟨gvalid, gcause, -, gspace, -⟩ := State.logged_fmtMachineCheck hclear 5 0 true addr
    obtain ⟨-, -, hsweep⟩ := State.quiet_fmtMachineCheck hclear 5 0 true addr
    exact ⟨_, hrun, hsweep.trans (s.sweep_nextPass a.val), gvalid, gcause, gspace⟩

end Sys2Proof.Machine
end

