-- ==== Sys2Proof/Proofs/EventRecords.lean ====
section
/-! SUPPORT. The frame of one event (20 R510 to R515): its record replaces 64 bytes of the ring in two whole bursts, so that no
burst is read, and beside the recorder's own fields no register field changes. -/

namespace Sys2Proof.Machine

/-! ## Bytes left as they were -/

theorem BytesKept.refl (s : State) : BytesKept s s := fun _ => rfl

theorem BytesKept.trans {s t u : State} (h : BytesKept s t) (k : BytesKept t u) : BytesKept s u :=
  fun a => (k a).trans (h a)

theorem BytesKept.but {s t : State} (h : BytesKept s t) (a n : Nat) : BytesKeptBut s t a n := fun b _ => h b

theorem BytesKeptBut.trans {s t u : State} {a n : Nat} (h : BytesKeptBut s t a n) (k : BytesKeptBut t u a n) :
    BytesKeptBut s u a n :=
  fun b hb => (k b hb).trans (h b hb)

/-- What changes fewer bytes keeps the others. -/
theorem BytesKeptBut.widen {s t : State} {a n b m : Nat} (h : BytesKeptBut s t a n) (hlo : b ≤ a) (hhi : a + n ≤ b + m) :
    BytesKeptBut s t b m :=
  fun c hc => h c (by omega)

/-! ## Two whole bursts written (12 R313) -/

theorem burstsOf_two (m : Nat) : burstsOf (32 * m) 64 = [m, m + 1] := by
  have hcount : (32 * m + 64 - 1) / 32 - 32 * m / 32 + 1 = 2 := by omega
  have hfirst : 32 * m / 32 = m := by omega
  rw [burstsOf, hcount, hfirst]
  rfl

/-- A whole burst written: its bytes stored and its check bytes valid. -/
def State.storeBurst (s : State) (b v : Nat) : State := (s.setChk (SMap.put s.chk 0 b 0)).storeMem (32 * b) v 32

theorem BytesKeptBut.storeBurst (s : State) (b v : Nat) : BytesKeptBut s (s.storeBurst b v) (32 * b) 32 :=
  State.storeMem_but (s.setChk (SMap.put s.chk 0 b 0)) (32 * b) v 32

theorem State.storeBurst_f (s : State) (b v : Nat) : (s.storeBurst b v).f = s.f := rfl

theorem State.writeBursts_two (s : State) (m v : Nat) :
    (s.writeBursts (32 * m) 64 v [m, m + 1]).2 =
      (s.storeBurst m (v / 256 ^ (32 * m - 32 * m))).storeBurst (m + 1) (v / 256 ^ (32 * (m + 1) - 32 * m)) := by
  have hlo : max (32 * m) (32 * (m + 1)) = 32 * (m + 1) := by omega
  have hhi : min (32 * m + 64) (32 * m + 32) = 32 * m + 32 := by omega
  have htop : min (32 * m + 64) (32 * (m + 1) + 32) = 32 * (m + 1) + 32 := by omega
  simp only [State.writeBursts, State.writeBurst, Nat.max_self, hlo, hhi, htop, and_self, if_true, State.storeBurst]

theorem State.bufWrite_two_f (s : State) (cls m v : Nat) : (s.bufWrite cls (32 * m) v 64).2.f = s.f := by
  unfold State.bufWrite
  split
  · rw [burstsOf_two, State.writeBursts_two, State.storeBurst_f, State.storeBurst_f, State.charge_f]
  · rfl

theorem BytesKeptBut.bufWrite_two (s : State) (cls m v : Nat) :
    BytesKeptBut s (s.bufWrite cls (32 * m) v 64).2 (32 * m) 64 := by
  unfold State.bufWrite
  split
  · rw [burstsOf_two, State.writeBursts_two]
    exact ((BytesKeptBut.storeBurst (s.charge cls _) m _).widen (by omega) (by omega)).trans
      ((BytesKeptBut.storeBurst _ (m + 1) _).widen (by omega) (by omega))
  · exact (BytesKept.refl s).but _ _

/-! ## The record of an event (20 R515) -/

/-- The address of record `q` in the ring. -/
def State.recordAt (s : State) (q : Nat) : Nat := s.get Reg.EVR_RING_BASE_ADDR * 2 ^ 22 + q % 65536 * 64

theorem State.recordAt_eq (s : State) (q : Nat) :
    s.recordAt q = 32 * (s.get Reg.EVR_RING_BASE_ADDR * 2 ^ 17 + q % 65536 * 2) := by
  rw [State.recordAt]
  omega

/-- The base of the ring is no field of an event. -/
theorem ringBase_not_mem_eventFields : Reg.EVR_RING_BASE_ADDR.key ∉ eventFields.map Field.key := by decide

theorem FieldsKept.recordAt {s t : State} (h : FieldsKept s t eventFields) (q : Nat) : t.recordAt q = s.recordAt q := by
  rw [State.recordAt, State.recordAt, h _ ringBase_not_mem_eventFields]

theorem FieldsKept.eventPut64 {s t : State} {lo hi : Field} (v : Nat) (h : FieldsKept s t eventFields)
    (hlo : lo ∈ eventFields) (hhi : hi ∈ eventFields) : FieldsKept s (t.put64 lo hi v) eventFields :=
  h.put64 v (List.mem_map_of_mem hlo) (List.mem_map_of_mem hhi)

theorem EventFrame.of_mem {s t : State} (h : FieldsKept s t eventFields) (hmem : t.mem = s.mem) : EventFrame s t [] :=
  ⟨h, (BytesKept.of_mem hmem).but _ _⟩

/-- What is done before an event leaves the ring's next record where it is. -/
theorem EventFrame.after {s t u : State} {K : List Field} (h : FieldsKept s t (K ++ eventFields)) (hmem : t.mem = s.mem)
    (hseq : t.evr.nextSeq = s.evr.nextSeq) (hbase : Reg.EVR_RING_BASE_ADDR.key ∉ K.map Field.key) (k : EventFrame t u []) :
    EventFrame s u K := by
  obtain ⟨hfields, hbytes⟩ := k
  have hring : t.get Reg.EVR_RING_BASE_ADDR = s.get Reg.EVR_RING_BASE_ADDR := by
    refine h _ ?_
    rw [List.map_append, List.mem_append]
    exact fun hmem => hmem.elim hbase ringBase_not_mem_eventFields
  rw [hring, hseq] at hbytes
  exact ⟨h.trans (hfields.mono (List.subset_append_right K eventFields)), ((BytesKept.of_mem hmem).but _ _).trans hbytes⟩

/-- A record in the ring. -/
theorem State.ringRecord_frame (s : State) (r : EvRec) : FieldsKept s (s.ringRecord r) eventFields ∧
    BytesKeptBut s (s.ringRecord r) (s.recordAt r.seq) 64 := by
  have hhead : FieldsKept s (s.put64 Reg.EVR_HEAD_LO_SEQ Reg.EVR_HEAD_HI_SEQ (r.seq + 1)) eventFields :=
    (FieldsKept.refl s _).eventPut64 _ (by simp [eventFields]) (by simp [eventFields])
  have hat := hhead.recordAt r.seq
  have hwrite := hhead.trans (FieldsKept.of_f (State.bufWrite_two_f _ 4 (s.get Reg.EVR_RING_BASE_ADDR * 2 ^ 17 + r.seq % 65536 * 2)
    r.encode) eventFields)
  have hbytes := BytesKeptBut.bufWrite_two (s.put64 Reg.EVR_HEAD_LO_SEQ Reg.EVR_HEAD_HI_SEQ (r.seq + 1)) 4
    (s.get Reg.EVR_RING_BASE_ADDR * 2 ^ 17 + r.seq % 65536 * 2) r.encode
  rw [← State.recordAt_eq, ← hat] at hwrite hbytes
  rw [← hat]
  unfold State.ringRecord
  dsimp only
  split
  · split
    · exact ⟨hwrite.eventPut64 _ (by simp [eventFields]) (by simp [eventFields]), hbytes⟩
    · exact ⟨hwrite, hbytes⟩
  · exact ⟨FieldsKept.refl s _, (BytesKept.refl s).but _ _⟩

/-! ## An event (20 R510 to R514) -/

theorem EventFrame.place (s : State) (r : EvRec) : EventFrame s (s.place r) [] := by
  obtain ⟨hfields, hbytes⟩ := (s.setEvr { s.evr with
    nextSeq := s.evr.nextSeq + 1, tail := SMap.set s.evr.tail (s.evr.nextSeq % 16384) { r with seq := s.evr.nextSeq } }).ringRecord_frame
      { r with seq := s.evr.nextSeq }
  exact ⟨((FieldsKept.of_f (State.setEvr_f s _) _).trans hfields).incBy _ 1 (by simp [eventFields]), hbytes⟩

theorem EventFrame.wait (s : State) (r : EvRec) : EventFrame s (s.wait r) [] := by
  unfold State.wait
  split
  · exact .of_mem (FieldsKept.of_f (State.setEvr_f s _) _) rfl
  · exact .of_mem ((FieldsKept.refl s _).incBy _ 1 (by simp [eventFields])) rfl

/-- The rate limit changes its buckets and its own counters. -/
theorem State.rateLimit_frame (s : State) (code severity : Nat) : FieldsKept s (s.rateLimit code severity).2 eventFields ∧
    (s.rateLimit code severity).2.mem = s.mem ∧ (s.rateLimit code severity).2.evr.nextSeq = s.evr.nextSeq := by
  have hbucket := fun b => FieldsKept.of_f (State.putBucket_f s code b) eventFields
  unfold State.rateLimit
  repeat' split
  · exact ⟨hbucket _, rfl, rfl⟩
  · exact ⟨(hbucket _).incBy _ 1 (by simp [eventFields]), rfl, rfl⟩
  · exact ⟨hbucket _, rfl, rfl⟩
  · exact ⟨FieldsKept.refl s _, rfl, rfl⟩
  · exact ⟨(FieldsKept.refl s _).incBy _ 1 (by simp [eventFields]), rfl, rfl⟩
  · exact ⟨hbucket _, rfl, rfl⟩

theorem EventFrame.raiseWith (s : State) (code : Nat) (severity : Option Nat) (unit : Nat) (payload : Option Nat) :
    EventFrame s (s.raiseWith code severity unit payload) [] := by
  obtain ⟨hfields, hmem, hseq⟩ := s.rateLimit_frame code (severity.getD 0)
  have hdraw : FieldsKept s ((s.rateLimit code (severity.getD 0)).2.draw 2) ([] ++ eventFields) :=
    hfields.trans (FieldsKept.of_f (State.draw_f _ 2) _)
  unfold State.raiseWith
  dsimp only
  split
  · exact .of_mem hfields hmem
  · split
    · exact .after hdraw hmem hseq (by simp) (EventFrame.place _ _)
    · exact .after hdraw hmem hseq (by simp) (EventFrame.wait _ _)

theorem EventFrame.raise (s : State) (code unit : Nat) : EventFrame s (s.raise code unit) [] :=
  EventFrame.raiseWith s code none unit none

end Sys2Proof.Machine
end

