-- ==== Sys2Proof/Proofs/SourceStates.lean ====
section
/-! SUPPORT. Changes of servo sources (08 R210 to R213, Table SRV-2): the state of a source as a field of SRV_STATUS, the operations
that follow it and leave everything but registers, slots and the time stamps as it was, and what a change of a source comes to. -/

namespace Sys2Proof.Machine

/-! ## The state of a source (08 Table SRV-7) -/

theorem locOf_lt (i : Nat) : locOf i < 4 := Nat.mod_lt i (by decide)

theorem actOf_slot (a : Nat) (j : Fin 4) : actOf (4 * a + j.val) = a := by
  simp only [actOf]
  omega

theorem locOf_slot (a : Nat) (j : Fin 4) : locOf (4 * a + j.val) = j.val := by
  simp only [locOf]
  omega

theorem eq_of_actOf_locOf {i k : Nat} (ha : actOf k = actOf i) (hl : locOf k = locOf i) : k = i := by
  simp only [actOf, locOf] at ha hl
  omega

theorem State.srcState_congr {s t : State} {i : Nat}
    (h : t.get (Reg.SRV_STATUS_STATE (actOf i)) = s.get (Reg.SRV_STATUS_STATE (actOf i))) : t.srcState i = s.srcState i := by
  rw [State.srcState, State.srcState, h]

theorem State.src_congr {s t : State} (h : t.srcs = s.srcs) (i : Nat) : t.src i = s.src i := by
  rw [State.src, State.src, h]

@[simp] theorem State.src_putSrc_same (s : State) (i : Nat) (x : Src) : (s.putSrc i x).src i = x :=
  SMap.get_put_same s.srcs srcInit i x

theorem State.src_putSrc_ne (s : State) {i k : Nat} (x : Src) (h : k ≠ i) : (s.putSrc i x).src k = s.src k :=
  SMap.get_put_ne s.srcs srcInit srcInit x h

/-- Two bits of a register of eight, written at one of four places. -/
theorem crumb_same {g v a : Nat} (ha : a < 4) :
    (g + v % 4 * 4 ^ a - g / 4 ^ a % 4 * 4 ^ a) % 2 ^ 8 / 4 ^ a % 4 = v % 4 := by
  interval_cases a <;> omega

/-- The other places keep theirs. -/
theorem crumb_ne {g v a b : Nat} (ha : a < 4) (hb : b < 4) (h : b ≠ a) :
    (g + v % 4 * 4 ^ a - g / 4 ^ a % 4 * 4 ^ a) % 2 ^ 8 / 4 ^ b % 4 = g / 4 ^ b % 4 := by
  interval_cases a <;> interval_cases b <;> omega

theorem State.srcState_setSrcState_same (s : State) (i v : Nat) : (s.setSrcState i v).srcState i = v % 4 := by
  rw [State.srcState, State.setSrcState, State.get_put_same]
  exact crumb_same (locOf_lt i)

theorem State.srcState_setSrcState_ne (s : State) {i k : Nat} (v : Nat) (h : k ≠ i) :
    (s.setSrcState i v).srcState k = s.srcState k := by
  by_cases ha : actOf k = actOf i
  · rw [State.srcState, State.setSrcState, ha, State.get_put_same, State.srcState, State.srcState, ha]
    exact crumb_ne (locOf_lt i) (locOf_lt k) fun hl => h (eq_of_actOf_locOf ha hl)
  · refine State.srcState_congr (State.get_put_ne s _ _ ?_)
    simp only [Field.key, Reg.SRV_STATUS_STATE]
    omega

/-! ## What changes registers, slots and time stamps alone -/

/-- The state apart from its register fields, its slots and the time stamps of wedges. -/
def State.still (s : State) : State :=
  { s with f := [], slots := [], refHead := ⟨none, none, none⟩, spn := { s.spn with wedges := [] } }

/-- Of the register fields all but those listed, and all else but slots and time stamps, are as they were; no gate opens. -/
structure Still (s t : State) (K : List Field) : Prop where
  fields : FieldsKept s t K
  rest : t.still = s.still
  gate : ∀ k, (s.slot k).gate = false → (t.slot k).gate = false

namespace Still

theorem refl (s : State) (K : List Field) : Still s s K := ⟨FieldsKept.refl s K, rfl, fun _ => id⟩

theorem trans {s t u : State} {K : List Field} (h : Still s t K) (k : Still t u K) : Still s u K :=
  ⟨h.fields.trans k.fields, k.rest.trans h.rest, fun i => k.gate i ∘ h.gate i⟩

theorem mono {s t : State} {K L : List Field} (h : Still s t K) (hKL : K ⊆ L) : Still s t L :=
  ⟨h.fields.mono hKL, h.rest, h.gate⟩

theorem put {s t : State} {K : List Field} (h : Still s t K) {F : Field} (hF : F ∈ K) (v : Nat) : Still s (t.put F v) K :=
  ⟨h.fields.put F v (List.mem_map_of_mem hF), h.rest, h.gate⟩

theorem modSlot {g : Slot → Slot} (s : State) (i : Nat) (hg : (s.slot i).gate = false → (g (s.slot i)).gate = false)
    (K : List Field) : Still s (s.modSlot i g) K := by
  refine ⟨FieldsKept.of_f (State.modSlot_f s i g) K, rfl, fun k hk => ?_⟩
  by_cases hi : k = i
  · subst hi
    rw [State.slot_modSlot_same]
    exact hg hk
  · rwa [State.slot_modSlot_ne s g hi]

theorem when {s t : State} {K : List Field} {g : State → State} (h : Still s t K) (hg : ∀ u, Still u (g u) K) (b : Bool) :
    Still s (t.when b g) K := by
  cases b
  · exact h
  · exact h.trans (hg t)

theorem each {α : Type} {g : State → α → State} {K : List Field} (h : ∀ u x, Still u (g u x) K) (xs : List α) (s : State) :
    Still s (s.each xs g) K :=
  List.foldlRecOn (motive := fun t => Still s t K) xs g (refl s K) fun t ht x _ => ht.trans (h t x)

section
variable {s t : State} {K : List Field} (h : Still s t K)
include h

theorem srcs : t.srcs = s.srcs := (congrArg State.srcs h.rest :)
theorem laneIn : t.laneIn = s.laneIn := (congrArg State.laneIn h.rest :)
theorem mem : t.mem = s.mem := (congrArg State.mem h.rest :)
theorem evr : t.evr = s.evr := (congrArg State.evr h.rest :)

theorem src (i : Nat) : t.src i = s.src i := State.src_congr h.srcs i

end

end Still

/-- SG's rise and fall load a gain of E1. -/
theorem Still.servoGate (s : State) (i : Nat) (on : Bool) : Still s (s.servoGate i on) [Reg.CHN_FE_STATE_GAIN i 1] := by
  unfold State.servoGate
  dsimp only
  split
  · exact (Still.modSlot s i id _).put (by simp) _
  · exact ((Still.refl s _).put (by simp) _).trans (Still.modSlot _ i id _)
  · exact Still.refl s _

theorem Still.searchOff (s : State) (i : Nat) : Still s (s.searchOff i) [Reg.CHN_FE_STATE_GAIN i 1] :=
  Still.when ((Still.refl s _).when (fun u => Still.servoGate u i false) _) (fun u => Still.modSlot u i id _) _

/-- A source that enters SEARCH with its slot's gate closed. -/
theorem Still.searchOn {s : State} {i : Nat} (h : (s.slot i).gate = false) :
    Still s (s.searchOn i) [Reg.CHN_FE_STATE_GAIN i 1] := by
  have hopen : s.searchOn i = (s.servoGate i true).when (s.slot i).rg
      (·.modSlot i (·.gateRead false ((s.servoGate i true).position i) (512 * (s.servoGate i true).cellsOf i))) := by
    simp only [State.searchOn, h, Bool.false_eq_true, if_false]
  rw [hopen]
  exact (Still.servoGate s i true).when (fun u => Still.modSlot u i id _) _

theorem Still.setSrcState (s : State) (i v : Nat) : Still s (s.setSrcState i v) [Reg.SRV_STATUS_STATE (actOf i)] :=
  (Still.refl s _).put (by simp) _

theorem Still.refChanged (s : State) (old : Option (Nat × Nat)) : Still s (s.refChanged old) [Reg.MTR_SPN_STATUS_SRC] := by
  unfold State.refChanged
  split
  · exact Still.refl s _
  · have hnew : ∀ r, Still s ((s.setRefHead r).modSpn fun x => { x with wedges := [] }) [Reg.MTR_SPN_STATUS_SRC] := fun r =>
      ⟨FieldsKept.of_f ((State.modSpn_f _ _).trans (State.setRefHead_f s r)) _, rfl, fun _ => id⟩
    exact (hnew _).put (by simp) 0

/-! ## The reference head (08 R221) -/

/-- Slot `k` and its head, while its source tracks. -/
def State.tracking (s : State) (k : Nat) : Option (Nat × Nat) :=
  match (s.src k).head with
  | some h => if s.srcState k = 3 then some (k, h) else none
  | none => none

theorem State.reference_eq (s : State) : s.reference = argMin ((slotsOf 0).filterMap s.tracking) := rfl

theorem State.tracking_of_idle {s : State} {k : Nat} (h : s.srcState k ≠ 3) : s.tracking k = none := by
  unfold State.tracking
  split
  · exact if_neg h
  · rfl

/-- The reference head is the same while the sources in TRACK are. -/
theorem State.reference_congr {s t : State} (h : ∀ k, t.tracking k = s.tracking k) : t.reference = s.reference := by
  rw [State.reference_eq, State.reference_eq, funext h]

theorem State.refChanged_of_same {s : State} {old : Option (Nat × Nat)} (h : s.reference = old) : s.refChanged old = s := by
  rw [State.refChanged, h, if_pos rfl]

/-! ## A source that changes its state (08 Table SRV-2) -/

/-- The source's record and state written, once the samples it owes are out. -/
def State.setSrc (s : State) (i : Nat) (x : Src) (v : Nat) : State := ((s.lastSample i).putSrc i x).setSrcState i v

/-- The gates follow SEARCH. -/
def State.followSearch (s : State) (i : Nat) (was v : Nat) : State :=
  if v = 1 then s.searchOn i else if was = 1 then s.searchOff i else s

theorem State.srcTo_eq (s : State) (i : Nat) (x : Src) (v : Nat) :
    s.srcTo i x v = ((s.setSrc i x v).followSearch i (s.srcState i) v).refChanged s.reference := rfl

theorem State.lastSample_of_idle {s : State} {i : Nat} (h : s.srcState i ≠ 3) : s.lastSample i = s := by
  unfold State.lastSample
  split
  · exact if_neg h
  · rfl

theorem State.lastSample_of_noGroup {s : State} {i h : Nat} (hhead : (s.src i).head = some h)
    (hgroup : (s.groups (actOf i) (h % 2)).opened = []) : s.lastSample i = s := by
  simp only [State.lastSample, hhead, hgroup]
  exact ite_self _

/-- Where one group is open and expects the source, it gets an invalid sample. -/
theorem State.lastSample_of_group {s : State} {i h : Nat} {g : Grp} (hstate : s.srcState i = 3)
    (hhead : (s.src i).head = some h) (hgroup : (s.groups (actOf i) (h % 2)).opened = [g])
    (hexp : hasBit g.exp (locOf i) = true) (hgot : hasBit g.got (locOf i) = false) :
    s.lastSample i = s.deliverSample i h g.wedge 1 none := by
  have hfilter : [g].filter (fun g => hasBit g.exp (locOf i) && !hasBit g.got (locOf i)) = [g] := by
    simp [hexp, hgot]
  simp only [State.lastSample, hhead, hgroup, hfilter, if_pos hstate]
  rfl

/-- The register fields that a change of a source's state writes, beside those of a gate it shuts. -/
def moveFields (i : Nat) : List Field := [Reg.SRV_STATUS_STATE (actOf i), Reg.CHN_FE_STATE_GAIN i 1]

section Moved
variable {s : State} {i v : Nat} (x : Src) (howe : s.lastSample i = s)
include howe

theorem Still.setSrc : Still (s.putSrc i x) (s.setSrc i x v) [Reg.SRV_STATUS_STATE (actOf i)] := by
  rw [State.setSrc, howe]
  exact Still.setSrcState _ i v

/-- The source's state and record as written, apart from the time stamps, where no gate is shut. -/
theorem Still.followSearch (hgate : v = 1 → (s.slot i).gate = false) :
    Still (s.putSrc i x) ((s.setSrc i x v).followSearch i (s.srcState i) v) (moveFields i) := by
  have hset := (Still.setSrc (v := v) x howe).mono (L := moveFields i) (by simp [moveFields])
  unfold State.followSearch
  split
  · rename_i hv
    exact hset.trans ((Still.searchOn (hset.gate i (hgate hv))).mono (by simp [moveFields]))
  · split
    · exact hset.trans ((Still.searchOff _ i).mono (by simp [moveFields]))
    · exact hset

theorem Still.srcTo (hgate : v = 1 → (s.slot i).gate = false) :
    Still (s.putSrc i x) (s.srcTo i x v) (Reg.MTR_SPN_STATUS_SRC :: moveFields i) :=
  ((Still.followSearch x howe hgate).mono (List.subset_cons_self _ _)).trans
    ((Still.refChanged _ _).mono (by simp))

end Moved


end Sys2Proof.Machine
end

