-- ==== Sys2Proof/Proofs/SearchGates.lean ====
section
/-! SUPPORT. A source that searches while its slot writes (08 R211, 06 R166): the gate shuts and the sector ends, which reaches the
buffer, the runs and the blocks, but no source, no sample, no other slot's member and no state of a source. -/

namespace Sys2Proof.Machine

/-! ## The sources and the samples on their way -/

/-- The servo sources and the samples that no job has taken. -/
def State.sensed (s : State) : SMap Src × SMap (List Sample) := (s.srcs, s.laneIn)

@[simp] theorem State.ite_sensed (c : Prop) [Decidable c] (s t : State) :
    (if c then s else t).sensed = if c then s.sensed else t.sensed :=
  apply_ite _ _ _ _

@[simp] theorem State.put_sensed (s : State) (F : Field) (v : Nat) : (s.put F v).sensed = s.sensed := rfl
@[simp] theorem State.inc_sensed (s : State) (F : Field) : (s.inc F).sensed = s.sensed := rfl
@[simp] theorem State.put64_sensed (s : State) (lo hi : Field) (v : Nat) : (s.put64 lo hi v).sensed = s.sensed := rfl
@[simp] theorem State.draw_sensed (s : State) (n : Nat) : (s.draw n).sensed = s.sensed := rfl
@[simp] theorem State.setEvr_sensed (s : State) (x : Evr) : (s.setEvr x).sensed = s.sensed := rfl
@[simp] theorem State.putBucket_sensed (s : State) (code : Nat) (b : Bucket) : (s.putBucket code b).sensed = s.sensed := rfl
@[simp] theorem State.setChk_sensed (s : State) (x : SMap Nat) : (s.setChk x).sensed = s.sensed := rfl
@[simp] theorem State.setByte_sensed (s : State) (a : Nat) (b : Byte) : (s.setByte a b).sensed = s.sensed := rfl
@[simp] theorem State.modRun_sensed (s : State) (a rid : Nat) (g : Run → Run) : (s.modRun a rid g).sensed = s.sensed := rfl

theorem State.srcs_of_sensed {s t : State} (h : t.sensed = s.sensed) : t.srcs = s.srcs := congrArg Prod.fst h

theorem State.laneIn_of_sensed {s t : State} (h : t.sensed = s.sensed) : t.laneIn = s.laneIn := congrArg Prod.snd h

theorem Still.sensed {s t : State} {K : List Field} (h : Still s t K) : t.sensed = s.sensed :=
  Prod.ext h.srcs h.laneIn

/-! ## The buffer (12 R312, R313) -/

@[simp] theorem State.readBurst_sensed (s : State) (b : Nat) : (s.readBurst b).2.sensed = s.sensed := by
  unfold State.readBurst
  split
  · rfl
  · simp [State.fixBurst]
  · simp

@[simp] theorem State.readBursts_sensed (s : State) (bs : List Nat) : (s.readBursts bs).2.sensed = s.sensed := by
  induction bs generalizing s with
  | nil => rfl
  | cons b bs ih => exact (ih _).trans (s.readBurst_sensed b)

@[simp] theorem State.bufRead_sensed (s : State) (cls a n : Nat) : (s.bufRead cls a n).2.sensed = s.sensed := by
  unfold State.bufRead
  split
  · exact State.readBursts_sensed _ _
  · rfl

@[simp] theorem State.writeBurst_sensed (s : State) (b lo hi v : Nat) : (s.writeBurst b lo hi v).2.sensed = s.sensed := by
  unfold State.writeBurst
  split
  · rfl
  · dsimp only
    split <;> exact s.readBurst_sensed b

@[simp] theorem State.writeBursts_sensed (s : State) (a n v : Nat) (bs : List Nat) :
    (s.writeBursts a n v bs).2.sensed = s.sensed := by
  induction bs generalizing s with
  | nil => rfl
  | cons b bs ih => exact (ih _).trans (State.writeBurst_sensed s b _ _ _)

@[simp] theorem State.bufWrite_sensed (s : State) (cls a v n : Nat) : (s.bufWrite cls a v n).2.sensed = s.sensed := by
  unfold State.bufWrite
  split
  · exact State.writeBursts_sensed _ a n v _
  · rfl

/-! ## Events (20 R510 to R515) -/

@[simp] theorem State.rateLimit_sensed (s : State) (code severity : Nat) :
    (s.rateLimit code severity).2.sensed = s.sensed := by
  unfold State.rateLimit
  repeat' split
  all_goals simp

@[simp] theorem State.place_sensed (s : State) (r : EvRec) : (s.place r).sensed = s.sensed := by
  simp [State.place, State.ringRecord]

@[simp] theorem State.wait_sensed (s : State) (r : EvRec) : (s.wait r).sensed = s.sensed := by
  simp [State.wait]

@[simp] theorem State.raise_sensed (s : State) (code unit : Nat) : (s.raise code unit).sensed = s.sensed := by
  unfold State.raise State.raiseWith
  dsimp only
  split <;> simp

/-! ## The end of a sector (06 R166; 11 R282) -/

@[simp] theorem State.finalStatus_sensed (s : State) (a rid idx st : Nat) : (s.finalStatus a rid idx st).sensed = s.sensed := by
  unfold State.finalStatus State.writeStatus
  dsimp only
  split
  · split
    · split <;> simp
    · rfl
  · rfl

@[simp] theorem State.missSector_sensed (s : State) (a rid idx : Nat) (limited : Bool) :
    (s.missSector a rid idx limited).sensed = s.sensed := by
  unfold State.missSector
  dsimp only
  split
  · split <;> rfl
  · rfl

theorem State.freeWin_sensed (s : State) (i : Nat) : (s.freeWin i).sensed = s.sensed := by
  unfold State.freeWin State.putWindow
  dsimp only
  split <;> rfl

theorem State.freeHeld_sensed (s : State) (nsid lba : Nat) (older : Nat → WinEntry → Bool) :
    (s.freeHeld nsid lba older).sensed = s.sensed :=
  List.foldlRecOn (motive := fun t : State => t.sensed = s.sensed) _ State.dropWin rfl fun t ht i _ =>
    (State.freeWin_sensed t i).trans ht

theorem State.unfail_sensed (s : State) (nsid lba : Nat) : (s.unfail nsid lba).sensed = s.sensed := by
  unfold State.unfail State.putMeta
  split <;> rfl

theorem State.blockDone_sensed (s : State) (addr : Nat) : (s.blockDone addr).sensed = s.sensed := by
  unfold State.blockDone
  split
  · rfl
  · dsimp only
    split
    · exact (State.unfail_sensed _ _ _).trans ((State.freeHeld_sensed _ _ _ _).trans (State.freeWin_sensed _ _))
    · exact (State.unfail_sensed _ _ _).trans (State.freeHeld_sensed _ _ _ _)

@[simp] theorem State.blockWritten_sensed (s : State) (addr : Nat) : (s.blockWritten addr).sensed = s.sensed := by
  unfold State.blockWritten
  split
  · rfl
  · split
    · rfl
    · exact s.blockDone_sensed addr

/-! ## Members and sources left as they were -/

/-- Every slot's member, the sources and the samples on their way are as they were. -/
structure MembersKept (s t : State) : Prop where
  sensed : t.sensed = s.sensed
  mem : ∀ k, (t.slot k).mem = (s.slot k).mem

namespace MembersKept

theorem of_slots {s t : State} (hslots : t.slots = s.slots) (hsensed : t.sensed = s.sensed) : MembersKept s t :=
  ⟨hsensed, fun k => by rw [State.slot_congr hslots]⟩

theorem refl (s : State) : MembersKept s s := of_slots rfl rfl

theorem trans {s t u : State} (h : MembersKept s t) (k : MembersKept t u) : MembersKept s u :=
  ⟨k.sensed.trans h.sensed, fun i => (k.mem i).trans (h.mem i)⟩

theorem put {s t : State} (h : MembersKept s t) (F : Field) (v : Nat) : MembersKept s (t.put F v) := ⟨h.sensed, h.mem⟩

theorem modSlot {g : Slot → Slot} (s : State) (i : Nat) (hg : (g (s.slot i)).mem = (s.slot i).mem) :
    MembersKept s (s.modSlot i g) := by
  refine ⟨rfl, fun k => ?_⟩
  by_cases hi : k = i
  · rw [hi, State.slot_modSlot_same, hg]
  · rw [State.slot_modSlot_ne s g hi]

theorem when {s t : State} {g : State → State} (h : MembersKept s t) (hg : ∀ u, MembersKept u (g u)) (b : Bool) :
    MembersKept s (t.when b g) := by
  cases b
  · exact h
  · exact h.trans (hg t)

end MembersKept

theorem MembersKept.finalStatus (s : State) (a rid idx st : Nat) : MembersKept s (s.finalStatus a rid idx st) :=
  .of_slots (SectorsKept.finalStatus s a rid idx st).slots (State.finalStatus_sensed s a rid idx st)

theorem MembersKept.delWr (s : State) (i sec : Nat) (F : Field) : MembersKept s ((s.modSlot i (·.delWr sec)).inc F) :=
  (MembersKept.modSlot s i rfl).put F _

theorem MembersKept.fragDone (s : State) (i : Nat) (w : WrSect) : MembersKept s (s.fragDone i w) := by
  unfold State.fragDone
  split
  · exact ((MembersKept.delWr s i _ _).trans (MembersKept.finalStatus _ _ _ _ _)).trans
      (.of_slots (SectorsKept.blockWritten _ _ []).slots (State.blockWritten_sensed _ _))
  · exact MembersKept.modSlot s i rfl

theorem MembersKept.abortSector (s : State) (i : Nat) (w : WrSect) : MembersKept s (s.abortSector i w) := by
  have hcount := MembersKept.delWr s i w.sec (Reg.CHN_WR_ABORTED_COUNT i)
  unfold State.abortSector
  dsimp only
  split
  · exact hcount.trans (MembersKept.finalStatus _ _ _ _ _)
  · exact hcount.trans (.of_slots (SectorsKept.missSector _ _ _ _ _).slots (State.missSector_sensed _ _ _ _ _))

theorem MembersKept.shutGate (s : State) (i : Nat) (cur : Option Nat) (pos : Nat) : MembersKept s (s.shutGate i cur pos) := by
  have hclose : MembersKept s (s.closeGate i) := (MembersKept.modSlot s i rfl).put _ _
  unfold State.shutGate
  dsimp only
  split
  · split
    · exact hclose.trans (MembersKept.fragDone _ i _)
    · exact hclose.trans (MembersKept.abortSector _ i _)
  · exact hclose

theorem MembersKept.servoGate (s : State) (i : Nat) (on : Bool) : MembersKept s (s.servoGate i on) := by
  unfold State.servoGate
  dsimp only
  split
  · exact (MembersKept.modSlot s i rfl).put _ _
  · exact ((MembersKept.refl s).put _ _).trans (MembersKept.modSlot _ i rfl)
  · exact MembersKept.refl s

theorem MembersKept.searchOff (s : State) (i : Nat) : MembersKept s (s.searchOff i) :=
  ((MembersKept.refl s).when (fun u => MembersKept.servoGate u i false) _).when (fun u => MembersKept.modSlot u i rfl) _

theorem MembersKept.searchOn (s : State) (i : Nat) : MembersKept s (s.searchOn i) := by
  have hread := fun b on pos rev => (MembersKept.servoGate s i true).when (g := (·.modSlot i (·.gateRead on pos rev)))
    (fun u => MembersKept.modSlot u i rfl) b
  unfold State.searchOn
  dsimp only
  split
  · exact (hread _ _ _ _).trans (MembersKept.shutGate _ i _ _)
  · exact hread _ _ _ _

theorem MembersKept.followSearch (s : State) (i was v : Nat) : MembersKept s (s.followSearch i was v) := by
  unfold State.followSearch
  split
  · exact MembersKept.searchOn s i
  · split
    · exact MembersKept.searchOff s i
    · exact MembersKept.refl s

theorem MembersKept.refChanged (s : State) (old : Option (Nat × Nat)) : MembersKept s (s.refChanged old) :=
  .of_slots (State.slots_of_tables (State.refChanged_tables s old)) (Still.refChanged s old).sensed

/-! ## The fields of a gate that shuts -/

theorem FieldsKept.shutGate (s : State) (i : Nat) (cur : Option Nat) (pos : Nat) :
    FieldsKept s (s.shutGate i cur pos) (dropFields i) := by
  have hclose := (GatesKept.closeGate s i).fields
  unfold State.shutGate
  dsimp only
  split
  · split
    · exact hclose.trans (GatesKept.fragDone _ i _).fields
    · exact hclose.trans (GatesKept.abortSector _ i _).fields
  · exact hclose

theorem FieldsKept.searchOn (s : State) (i : Nat) :
    FieldsKept s (s.searchOn i) (Reg.CHN_FE_STATE_GAIN i 1 :: dropFields i) := by
  have hread := fun b on pos rev => (((Still.servoGate s i true).when (g := (·.modSlot i (·.gateRead on pos rev)))
    (fun u => Still.modSlot u i id _) b).mono (L := Reg.CHN_FE_STATE_GAIN i 1 :: dropFields i) (by simp)).fields
  unfold State.searchOn
  dsimp only
  split
  · exact (hread _ _ _ _).trans ((FieldsKept.shutGate _ i _ _).mono (List.subset_cons_self _ _))
  · exact hread _ _ _ _

theorem FieldsKept.followSearch (s : State) (i was v : Nat) :
    FieldsKept s (s.followSearch i was v) (Reg.CHN_FE_STATE_GAIN i 1 :: dropFields i) := by
  unfold State.followSearch
  split
  · exact FieldsKept.searchOn s i
  · split
    · exact (Still.searchOff s i).fields.mono (by simp)
    · exact FieldsKept.refl s _

/-! ## What a change of a source comes to -/

/-- The states of the sources are no field of a gate, a gain or a time stamp. -/
theorem srcState_not_mem (a i : Nat) : (Reg.SRV_STATUS_STATE a).key ∉
    (Reg.MTR_SPN_STATUS_SRC :: Reg.CHN_FE_STATE_GAIN i 1 :: dropFields i).map Field.key := by
  simp only [List.map_cons, dropFields_keys, bufErrorFields_keys, List.cons_append, List.nil_append, Field.key,
    Reg.SRV_STATUS_STATE, Reg.MTR_SPN_STATUS_SRC, Reg.CHN_FE_STATE_GAIN, List.mem_cons, List.not_mem_nil, or_false, not_or]
  omega

section Change
variable (s : State) (i : Nat) (x : Src) (v : Nat)

theorem MembersKept.srcTo : MembersKept (s.setSrc i x v) (s.srcTo i x v) := by
  rw [State.srcTo_eq]
  exact (MembersKept.followSearch _ _ _ _).trans (MembersKept.refChanged _ _)

theorem FieldsKept.srcTo : FieldsKept (s.setSrc i x v) (s.srcTo i x v)
    (Reg.MTR_SPN_STATUS_SRC :: Reg.CHN_FE_STATE_GAIN i 1 :: dropFields i) := by
  rw [State.srcTo_eq]
  exact ((FieldsKept.followSearch _ _ _ _).mono (List.subset_cons_self _ _)).trans
    ((Still.refChanged _ _).fields.mono (by simp))

theorem State.srcState_srcTo_same : (s.srcTo i x v).srcState i = v % 4 :=
  (State.srcState_congr (FieldsKept.srcTo s i x v _ (srcState_not_mem _ i))).trans (State.srcState_setSrcState_same _ i v)

theorem State.src_srcTo_same : (s.srcTo i x v).src i = x :=
  (State.src_congr (State.srcs_of_sensed (MembersKept.srcTo s i x v).sensed) i).trans (State.src_putSrc_same _ i x)

theorem State.laneIn_srcTo : (s.srcTo i x v).laneIn = (s.lastSample i).laneIn :=
  (State.laneIn_of_sensed (MembersKept.srcTo s i x v).sensed).trans rfl

end Change

section Idle
variable {s : State} {i v : Nat} (hs : s.srcState i ≠ 3) (x : Src)
include hs

/-- A source that neither leaves nor enters TRACK leaves the reference head. -/
theorem State.srcTo_of_idle (hv : v % 4 ≠ 3) :
    s.srcTo i x v = (s.setSrc i x v).followSearch i (s.srcState i) v := by
  have hkept := MembersKept.followSearch (s.setSrc i x v) i (s.srcState i) v
  have hstate := fun k => State.srcState_congr (i := k) (FieldsKept.followSearch (s.setSrc i x v) i (s.srcState i) v _
    fun h => srcState_not_mem _ i (List.mem_cons_of_mem _ h))
  rw [State.srcTo_eq]
  refine State.refChanged_of_same (State.reference_congr fun k => ?_)
  by_cases hk : k = i
  · subst hk
    rw [State.tracking_of_idle hs, State.tracking_of_idle]
    rw [hstate, State.setSrc, State.srcState_setSrcState_same]
    exact hv
  · have hsrc : ((s.setSrc i x v).followSearch i (s.srcState i) v).src k = s.src k := by
      rw [State.src_congr (State.srcs_of_sensed hkept.sensed), State.setSrc, State.lastSample_of_idle hs]
      exact State.src_putSrc_ne s x hk
    have hst : ((s.setSrc i x v).followSearch i (s.srcState i) v).srcState k = s.srcState k := by
      rw [hstate, State.setSrc, State.lastSample_of_idle hs]
      exact State.srcState_setSrcState_ne _ v hk
    rw [State.tracking, State.tracking, hsrc, hst]

theorem Still.srcTo_of_idle (hv : v % 4 ≠ 3) (hgate : v = 1 → (s.slot i).gate = false) :
    Still (s.putSrc i x) (s.srcTo i x v) (moveFields i) := by
  rw [State.srcTo_of_idle hs x hv]
  exact Still.followSearch x (State.lastSample_of_idle hs) hgate

end Idle

end Sys2Proof.Machine
end

