-- ==== Sys2Proof/Proofs/ServoSamples.lean ====
section
/-! SUPPORT. The sample of a tracked servo field (08 R216 to R218): its flags, what it writes to SRV_POS and counts, the record of
its source, and the lane that it reaches. -/

namespace Sys2Proof.Machine

/-! ## The flags (R217, Table SRV-3) -/

/-- Six flags as a number: each is its bit, and no more bits are set. -/
theorem flags_bits (a b c d e f : Bool) :
    hasBit (b2n a + 2 * b2n b + 4 * b2n c + 8 * b2n d + 16 * b2n e + 32 * b2n f) 0 = a ∧
      hasBit (b2n a + 2 * b2n b + 4 * b2n c + 8 * b2n d + 16 * b2n e + 32 * b2n f) 1 = b ∧
      b2n a + 2 * b2n b + 4 * b2n c + 8 * b2n d + 16 * b2n e + 32 * b2n f < 64 := by
  decide +revert

/-- Flag 0 is a missed SAM, flag 1 another wedge number. -/
theorem State.sampleFlags_bits (s : State) (a h : Nat) (x : Src) (r : FieldRead) :
    hasBit (s.sampleFlags a h x r) 0 = r.sam.isNone ∧
      hasBit (s.sampleFlags a h x r) 1 = (r.sam.isSome && r.num != some x.wedge) ∧ s.sampleFlags a h x r < 64 :=
  flags_bits _ _ _ _ _ _

/-- The flags are read from the source, the field and registers that no gain loop writes. -/
theorem State.sampleFlags_congr {s t : State} {i : Nat} (hi : i < 16) (hkept : FieldsKept s t (servoGainFields i)) (a h : Nat)
    (x : Src) (r : FieldRead) : t.sampleFlags a h x r = s.sampleFlags a h x r := by
  have hget : ∀ F : Field, 0x40d00000 ≤ F.addr → t.get F = s.get F := by
    refine fun F hF => hkept F ?_
    simp only [servoGainFields, List.map_cons, List.map_nil, List.mem_cons, List.not_mem_nil, or_false, not_or, Field.key,
      Reg.CHN_FE_STATE_GAIN, Reg.CHN_FE_RAIL_COUNT]
    omega
  have htarget := hget (Reg.SRV_SCTL_S_TARGET a) (Nat.le_trans (by decide) (Nat.le_add_right _ _))
  have htol := hget (Reg.SRV_CTL_TID_TOL a) (Nat.le_add_right _ _)
  have hbad := hget (Reg.SRV_BADW_BAD a h (x.wedge / 32)) (by simp only [Reg.SRV_BADW_BAD]; omega)
  simp only [State.sampleFlags, State.badWedge, htarget, htol, hbad]

/-! ## SRV_POS and the counts (R217, R218) -/

/-- What a sample writes to SRV_POS. -/
def sampleWrites (a j h wedge flags pair : Nat) (y : Int) : List (Field × Nat) :=
  [(Reg.SRV_POS_LO_FLAGS a j, flags), (Reg.SRV_POS_LO_TRACK a j, ofSigned 24 (Int.fdiv (y + 2048) 4096)),
    (Reg.SRV_POS_HI_VALID a j, b2n (decide (flags = 0))), (Reg.SRV_POS_HI_PAIR a j, pair), (Reg.SRV_POS_HI_WEDGE a j, wedge),
    (Reg.SRV_POS_HI_HEAD a j, h), (Reg.SRV_POS_HI_OFFSET a j, ofSigned 12 (y - Int.fdiv (y + 2048) 4096 * 4096))]

/-- The counters of samples, and the lane's register of active sources. -/
def countFields (a : Nat) : List Field :=
  [Reg.SRV_VALID_COUNT a, Reg.SRV_SAM_MISS_COUNT a, Reg.SRV_TID_ERR_COUNT a, Reg.SRV_CHEV_ERR_COUNT a,
    Reg.CTL_LANE_STATUS_ACTIVE a]

theorem sampleFields_eq (a j h wedge flags pair : Nat) (y : Int) :
    sampleFields a j = (sampleWrites a j h wedge flags pair y).map Prod.fst ++ countFields a := rfl

theorem sampleFields_keys (a j : Nat) : (sampleFields a j).map Field.key =
    [(0x40d00080 + 0x10000 * a + 0x8 * j) * 32 + 26, (0x40d00080 + 0x10000 * a + 0x8 * j) * 32,
      (0x40d00084 + 0x10000 * a + 0x8 * j) * 32 + 31, (0x40d00084 + 0x10000 * a + 0x8 * j) * 32 + 30,
      (0x40d00084 + 0x10000 * a + 0x8 * j) * 32 + 21, (0x40d00084 + 0x10000 * a + 0x8 * j) * 32 + 17,
      (0x40d00084 + 0x10000 * a + 0x8 * j) * 32, (0x40d000c0 + 0x10000 * a) * 32, (0x40d000c4 + 0x10000 * a) * 32,
      (0x40d000c8 + 0x10000 * a) * 32, (0x40d000cc + 0x10000 * a) * 32, (0x40d80004 + 0x10000 * a) * 32 + 16] := rfl

/-- No two fields of a sample share a key. -/
theorem sampleFields_keys_nodup (a : Nat) {j : Nat} (hj : j < 4) : ((sampleFields a j).map Field.key).Nodup := by
  simp only [sampleFields_keys, List.nodup_cons, List.mem_cons, List.not_mem_nil, or_false, not_or, not_false_eq_true,
    List.nodup_nil, and_true]
  omega

/-- The counters of a sample's flags. -/
def State.countSample (s : State) (a flags : Nat) : State :=
  (((s.when (decide (flags = 0)) (·.inc (Reg.SRV_VALID_COUNT a))).when (hasBit flags 0) (·.inc (Reg.SRV_SAM_MISS_COUNT a))).when
    (hasBit flags 3) (·.inc (Reg.SRV_TID_ERR_COUNT a))).when (hasBit flags 4) (·.inc (Reg.SRV_CHEV_ERR_COUNT a))

theorem State.whenInc_sensed (s : State) (b : Bool) (F : Field) : (s.when b (·.inc F)).sensed = s.sensed := by
  cases b <;> rfl

theorem State.get_whenInc_same (s : State) (F : Field) : (s.when true (·.inc F)).get F = s.counted F 1 :=
  State.get_incBy_same s F 1

theorem State.get_whenInc_ne (s : State) (b : Bool) {F G : Field} (h : G.key ≠ F.key) :
    (s.when b (·.inc F)).get G = s.get G := by
  cases b
  · rfl
  · exact State.get_incBy_ne s F 1 h

theorem FieldsKept.whenInc {s t : State} {K : List Field} (b : Bool) {F : Field} (h : FieldsKept s t K) (hF : F ∈ K) :
    FieldsKept s (t.when b (·.inc F)) K :=
  fun G hG => (State.get_whenInc_ne t b fun e : G.key = F.key => hG (e ▸ List.mem_map_of_mem hF)).trans (h G hG)

theorem State.countSample_sensed (s : State) (a flags : Nat) : (s.countSample a flags).sensed = s.sensed := by
  simp only [State.countSample, State.whenInc_sensed]

theorem FieldsKept.countSample (s : State) (a flags : Nat) : FieldsKept s (s.countSample a flags) (countFields a) := by
  refine ((((FieldsKept.refl s _).whenInc _ ?_).whenInc _ ?_).whenInc _ ?_).whenInc _ ?_
  all_goals simp [countFields]

/-- A valid sample counts in one counter alone. -/
theorem State.get_valid_countSample (s : State) (a : Nat) :
    (s.countSample a 0).get (Reg.SRV_VALID_COUNT a) = s.counted (Reg.SRV_VALID_COUNT a) 1 := by
  have hnone : hasBit 0 0 = false ∧ hasBit 0 3 = false ∧ hasBit 0 4 = false := by decide
  have hone : s.countSample a 0 = s.when true (·.inc (Reg.SRV_VALID_COUNT a)) := by
    simp only [State.countSample, decide_true, hnone, State.when, Bool.false_eq_true, if_false]
  rw [hone, State.get_whenInc_same]

/-- A missed SAM counts. -/
theorem State.get_miss_countSample (s : State) (a : Nat) {flags : Nat} (h : hasBit flags 0 = true) :
    (s.countSample a flags).get (Reg.SRV_SAM_MISS_COUNT a) = s.counted (Reg.SRV_SAM_MISS_COUNT a) 1 := by
  have hkey : (Reg.SRV_SAM_MISS_COUNT a).key ≠ (Reg.SRV_VALID_COUNT a).key ∧
      (Reg.SRV_SAM_MISS_COUNT a).key ≠ (Reg.SRV_TID_ERR_COUNT a).key ∧
      (Reg.SRV_SAM_MISS_COUNT a).key ≠ (Reg.SRV_CHEV_ERR_COUNT a).key := by
    simp only [Field.key, Reg.SRV_SAM_MISS_COUNT, Reg.SRV_VALID_COUNT, Reg.SRV_TID_ERR_COUNT, Reg.SRV_CHEV_ERR_COUNT]
    omega
  obtain ⟨hvalid, htid, hchev⟩ := hkey
  rw [State.countSample, State.get_whenInc_ne _ _ hchev, State.get_whenInc_ne _ _ htid, h]
  exact (State.get_whenInc_same _ _).trans (State.counted_congr (State.get_whenInc_ne _ _ hvalid) 1)

/-! ## The sample delivered -/

/-- What a sample on its way changes: its group, the lane's samples, and last the lane's register of active sources. -/
theorem State.arrive_put (s : State) (i h wedge flags pair : Nat) (y : Int) :
    ∃ (u : State) (v : Nat), u.f = s.f ∧ u.srcs = s.srcs ∧ s.arrive i h wedge flags pair y = u.put (Reg.CTL_LANE_STATUS_ACTIVE (actOf i)) v := by
  refine ⟨_, _, ?_, ?_, rfl⟩
  · exact (State.setLaneIn_f _ _).trans (State.setGrps_f s _)
  · rfl

theorem FieldsKept.arrive (s : State) (i h wedge flags pair : Nat) (y : Int) :
    FieldsKept s (s.arrive i h wedge flags pair y) [Reg.CTL_LANE_STATUS_ACTIVE (actOf i)] := by
  obtain ⟨u, v, hf, -, hput⟩ := s.arrive_put i h wedge flags pair y
  rw [hput]
  exact (FieldsKept.of_f hf _).put _ v (by simp)

theorem State.arrive_srcs (s : State) (i h wedge flags pair : Nat) (y : Int) : (s.arrive i h wedge flags pair y).srcs = s.srcs := by
  obtain ⟨u, v, -, hsrcs, hput⟩ := s.arrive_put i h wedge flags pair y
  rw [hput]
  exact hsrcs

theorem State.laneIn_arrive (s : State) (i h wedge flags pair : Nat) (y : Int) : ∃ m : Sample, m.slot = i ∧ m.head = h ∧
    m.wedge = wedge ∧ m.flags = flags ∧ m.pair = pair ∧ m.y = y ∧
    SMap.get (s.arrive i h wedge flags pair y).laneIn [] (actOf i) = SMap.get s.laneIn [] (actOf i) ++ [m] :=
  ⟨_, rfl, rfl, rfl, rfl, rfl, rfl, SMap.get_put_same s.laneIn [] (actOf i) _⟩

/-- A sample with the pair and the position that SRV_POS takes: written, counted, noted in its source and on its way. -/
def State.sampled (s : State) (i h wedge flags pair : Nat) (y : Int) : State :=
  (((s.puts (sampleWrites (actOf i) (locOf i) h wedge flags pair y)).countSample (actOf i) flags).putSrc i { s.src i with
    y2 := (s.src i).y1, y1 := if decide (flags = 0) then some y else none }).arrive i h wedge flags pair y

section Stored
variable (s : State) (i h wedge flags pair : Nat) (y : Int)

theorem State.puts_sensed (l : List (Field × Nat)) : (s.puts l).sensed = s.sensed :=
  List.foldlRecOn (motive := fun t : State => t.sensed = s.sensed) l _ rfl fun _ ht _ _ => ht

theorem State.src_stored : ((s.puts (sampleWrites (actOf i) (locOf i) h wedge flags pair y)).countSample (actOf i) flags).src i =
    s.src i :=
  State.src_congr (State.srcs_of_sensed ((State.countSample_sensed _ _ _).trans (State.puts_sensed s _))) i

end Stored

theorem State.deliverSample_of_valid (s : State) (i h wedge pair : Nat) (y : Int) :
    s.deliverSample i h wedge 0 (some (pair, y)) = s.sampled i h wedge 0 pair y := by
  rw [State.sampled, ← State.src_stored s i h wedge 0 pair y]
  rfl

/-- The position fields of an invalid sample are free values. -/
theorem State.deliverSample_of_invalid (s : State) (i h wedge : Nat) {flags : Nat} (hflags : flags ≠ 0)
    (pos : Option (Nat × Int)) :
    ∃ pair y, s.deliverSample i h wedge flags pos = (s.draw 2).sampled i h wedge flags pair y := by
  refine ⟨Config.freeValue (s.free + 1) % 2, toSigned 36 (Config.freeValue s.free), ?_⟩
  rw [State.sampled, ← State.src_stored]
  simp only [State.deliverSample, decide_eq_false hflags, Bool.false_eq_true, if_false]
  rw [State.countSample, decide_eq_false hflags]
  simp only [sampleWrites, decide_eq_false hflags]
  rfl

section Sampled
variable (s : State) (i h wedge flags pair : Nat) (y : Int)

theorem FieldsKept.sampled_puts : FieldsKept (s.puts (sampleWrites (actOf i) (locOf i) h wedge flags pair y))
    (s.sampled i h wedge flags pair y) (countFields (actOf i)) := by
  have hcount := FieldsKept.countSample (s.puts (sampleWrites (actOf i) (locOf i) h wedge flags pair y)) (actOf i) flags
  exact (hcount.trans (FieldsKept.of_f (State.putSrc_f _ i _) _)).trans
    ((FieldsKept.arrive _ i h wedge flags pair y).mono (by simp [countFields]))

theorem FieldsKept.sampled : FieldsKept s (s.sampled i h wedge flags pair y) (sampleFields (actOf i) (locOf i)) := by
  rw [sampleFields_eq _ _ h wedge flags pair y]
  exact ((FieldsKept.puts s _).mono (List.subset_append_left _ _)).trans
    ((FieldsKept.sampled_puts s i h wedge flags pair y).mono (List.subset_append_right _ _))

/-- The keys that a sample writes and those that it counts in are distinct. -/
theorem sampleWrites_keys : ((sampleWrites (actOf i) (locOf i) h wedge flags pair y).map fun p => p.1.key).Nodup ∧
    ∀ p ∈ sampleWrites (actOf i) (locOf i) h wedge flags pair y, p.1.key ∉ (countFields (actOf i)).map Field.key := by
  have hkeys := sampleFields_keys_nodup (actOf i) (locOf_lt i)
  rw [sampleFields_eq _ _ h wedge flags pair y, List.map_append, List.map_map] at hkeys
  obtain ⟨hwrites, -, hapart⟩ := List.nodup_append.mp hkeys
  exact ⟨hwrites, fun p hp hcount => hapart _ (List.mem_map_of_mem hp) _ hcount rfl⟩

/-- Each field of SRV_POS reads what the sample writes. -/
theorem State.get_sampled {F : Field} {v : Nat} (hF : (F, v) ∈ sampleWrites (actOf i) (locOf i) h wedge flags pair y) :
    (s.sampled i h wedge flags pair y).get F = v % 2 ^ F.width := by
  obtain ⟨hwrites, hapart⟩ := sampleWrites_keys i h wedge flags pair y
  rw [FieldsKept.sampled_puts s i h wedge flags pair y F (hapart (F, v) hF)]
  exact State.get_puts_of_mem hwrites hF s

/-- A counter of samples counts as the flags say. -/
theorem State.get_count_sampled {F : Field} (hF : F ∈ countFields (actOf i))
    (hactive : F.key ≠ (Reg.CTL_LANE_STATUS_ACTIVE (actOf i)).key)
    (hcount : ∀ t : State, (t.countSample (actOf i) flags).get F = t.counted F 1) :
    (s.sampled i h wedge flags pair y).get F = s.counted F 1 := by
  have hputs : (s.puts (sampleWrites (actOf i) (locOf i) h wedge flags pair y)).get F = s.get F :=
    State.get_puts_ne (fun p hp e => (sampleWrites_keys i h wedge flags pair y).2 p hp (e ▸ List.mem_map_of_mem hF)) s
  refine (FieldsKept.arrive _ i h wedge flags pair y F ?_).trans ((State.get_of_f (State.putSrc_f _ i _) F).trans
    ((hcount _).trans (State.counted_congr hputs 1)))
  simpa using hactive

/-- The source remembers the position of a valid sample. -/
theorem State.src_sampled : (s.sampled i h wedge flags pair y).src i =
    { s.src i with y2 := (s.src i).y1, y1 := if decide (flags = 0) then some y else none } :=
  (State.src_congr (State.arrive_srcs _ _ _ _ _ _ _) i).trans (State.src_putSrc_same _ i _)

/-- The sample is the last on its way to the lane. -/
theorem State.laneIn_sampled : ∃ m : Sample, m.slot = i ∧ m.head = h ∧ m.wedge = wedge ∧ m.flags = flags ∧ m.pair = pair ∧
    m.y = y ∧ SMap.get (s.sampled i h wedge flags pair y).laneIn [] (actOf i) = SMap.get s.laneIn [] (actOf i) ++ [m] := by
  have hlane : ((s.puts (sampleWrites (actOf i) (locOf i) h wedge flags pair y)).countSample (actOf i) flags).laneIn =
      s.laneIn := State.laneIn_of_sensed ((State.countSample_sensed _ _ _).trans (State.puts_sensed s _))
  have harrive := State.laneIn_arrive (((s.puts (sampleWrites (actOf i) (locOf i) h wedge flags pair y)).countSample (actOf i)
    flags).putSrc i { s.src i with y2 := (s.src i).y1, y1 := if decide (flags = 0) then some y else none }) i h wedge flags pair y
  obtain ⟨m, hslot, hhead, hwedge, hflags, hpair, hy, hget⟩ := harrive
  refine ⟨m, hslot, hhead, hwedge, hflags, hpair, hy, hget.trans ?_⟩
  rw [← hlane]
  rfl

end Sampled

end Sys2Proof.Machine
end

