-- ==== Sys2Proof/Proofs/ServoFields.lean ====
section
/-! SUPPORT. SERVO_FIELD (08 R206 to R217): its start, which moves the gain of E1 alone, and what the field does to its source in each
state of Table SRV-2. -/

namespace Sys2Proof.Machine

/-! ## The start of a field (R213) -/

theorem Still.moveGain (s : State) (i : Nat) (err : Int) : Still s (s.moveLoop i 0 1 err) (servoGainFields i) :=
  ((Still.refl s _).put (by simp [loopField, servoGainFields]) _).when
    (fun u => (Still.refl u _).put (by simp [servoGainFields]) _) _

theorem Still.servoGain (s : State) (i : Nat) (m : Member) (f : ServoField) :
    Still s (s.servoGain i m f) (servoGainFields i) := by
  refine Still.each (fun u n => ?_) _ s
  dsimp only
  split
  · exact Still.refl u _
  · exact Still.moveGain u i _

/-- The field of a course member moves the gain of E1 and no other loop. -/
theorem Still.servoStart (s : State) (i : Nat) {m : Member} (honly : m.servoOnly = false) (f : ServoField) :
    Still s (s.servoStart i m f) (servoGainFields i) := by
  have hload := ((Still.servoGate s i true).mono (L := servoGainFields i) (by simp [servoGainFields])).put
    (F := Reg.CHN_FE_STATE_GAIN i 1) (by simp [servoGainFields])
  simp only [State.servoStart, honly, Bool.false_eq_true, if_false]
  exact (hload _).trans (Still.servoGain _ i m f)

/-- The states of the sources are no field of the gain loop. -/
theorem srcState_not_mem_servoGainFields (a i : Nat) :
    (Reg.SRV_STATUS_STATE a).key ∉ (servoGainFields i).map Field.key := by
  simp only [servoGainFields, List.map_cons, List.map_nil, List.mem_cons, List.not_mem_nil, or_false, not_or, Field.key,
    Reg.SRV_STATUS_STATE, Reg.CHN_FE_STATE_GAIN, Reg.CHN_FE_RAIL_COUNT]
  omega

theorem Still.srcState {s t : State} {i : Nat} (h : Still s t (servoGainFields i)) (k : Nat) : t.srcState k = s.srcState k :=
  State.srcState_congr (h.fields _ (srcState_not_mem_servoGainFields _ i))

/-! ## The samples (R206, R211, R212) -/

theorem State.samWindow_of_search {s : State} {i : Nat} (h : s.srcState i = 1) : s.samWindow i = none := by
  simp [State.samWindow, h]

theorem State.samWindow_of_verify {s : State} {i : Nat} (h : s.srcState i = 2) :
    s.samWindow i = some (s.get (Reg.SRV_CTL_SAM_WIN_ACQ (actOf i))) := by
  simp [State.samWindow, h]

theorem State.samWindow_of_track {s : State} {i : Nat} (h : s.srcState i = 3) :
    s.samWindow i = some (s.get (Reg.SRV_CTL_SAM_WIN (actOf i))) := by
  simp [State.samWindow, h]

/-- A field without samples has no SAM. -/
theorem sam_readField_empty (cells thr target w : Nat) : (readField ⟨0, [], []⟩ cells thr target (some w)).sam = none := by
  have hat : ∀ c, fieldAt ⟨0, [], []⟩ c = none := fun c => by simp [fieldAt]
  have hdist : ∀ d, fieldSamDist ⟨0, [], []⟩ cells d 16 = none := fun d => by
    rw [fieldSamDist, hat]
    split
    · rename_i h
      cases h
    · rfl
  have hsams : fieldSams ⟨0, [], []⟩ cells (some w) = [] := by
    simp [fieldSams, fieldSamsFrom, hdist]
  simp [readField, hsams, findSam, syncSort]

section Field
variable {i : Fin 16} {f : ServoField} {m : Member} {h : Nat} {s : State}

theorem execServoField_of_off (hoff : s.srcState i.val = 0) : execServoField i f s = .next s := by
  unfold execServoField
  dsimp only
  split
  · rw [if_pos (Or.inl hoff)]
  · rfl

variable (hmem : (s.slot i.val).mem = some m) (hhead : (s.src i.val).head = some h)
include hmem hhead

theorem execServoField_of_stopped (hclk : s.clkOk (16 + i.val / 4) = false) : execServoField i f s = .next s := by
  have hstop : s.srcState i.val = 0 ∨ (!s.clkOk (16 + actOf i.val)) = true := Or.inr (by simpa [actOf] using hclk)
  simp only [execServoField, hmem, hhead, if_pos hstop]

variable (honly : m.servoOnly = false) (hclk : s.clkOk (16 + i.val / 4) = true) (hon : s.srcState i.val ≠ 0)
include honly hclk hon

/-- While SG is 1 the field is read from its samples, in the window of the source's state. -/
theorem execServoField_of_samples {win : Option Nat} {r : FieldRead} (hwin : s.samWindow i.val = win)
    (hread : readField f m.cells (s.get (Reg.SRV_SCTL_SAM_THR (i.val / 4))) (s.get (Reg.SRV_SCTL_S_TARGET (i.val / 4))) win = r)
    (hsg : (s.slot i.val).sg = true ∨ s.srcState i.val = 1) :
    execServoField i f s = .next ((s.servoStart i.val m f).fieldRead i.val h m r) := by
  have hrun : ¬(s.srcState i.val = 0 ∨ (!s.clkOk (16 + actOf i.val)) = true) := by simp [actOf, hclk, hon]
  have hsamples : s.servoSamples i.val m = true := by
    rcases hsg with hsg | hsg <;> simp [State.servoSamples, hsg]
  simp only [execServoField, hmem, hhead, if_neg hrun, if_pos hsamples, State.servoEnd, honly, Bool.false_and,
    Bool.false_eq_true, if_false, hwin]
  exact congrArg (fun r => Host.Outcome.next ((s.servoStart i.val m f).fieldRead i.val h m r)) hread

/-- While SG is 0 there are no samples. -/
theorem execServoField_of_noSamples {w : Nat} (hwin : s.samWindow i.val = some w) (hsg : (s.slot i.val).sg = false)
    (hsearch : s.srcState i.val ≠ 1) :
    ∃ r : FieldRead, r.sam = none ∧ execServoField i f s = .next (s.fieldRead i.val h m r) := by
  have hrun : ¬(s.srcState i.val = 0 ∨ (!s.clkOk (16 + actOf i.val)) = true) := by simp [actOf, hclk, hon]
  have hsamples : ¬ s.servoSamples i.val m = true := by simp [State.servoSamples, honly, hsg, hsearch]
  refine ⟨readField ⟨0, [], []⟩ m.cells (s.get (Reg.SRV_SCTL_SAM_THR (actOf i.val)))
    (s.get (Reg.SRV_SCTL_S_TARGET (actOf i.val))) (some w), sam_readField_empty _ _ _ w, ?_⟩
  simp only [execServoField, hmem, hhead, if_neg hrun, if_neg hsamples, hwin]

end Field

/-! ## A field of a source in SEARCH or VERIFY (R212) -/

section Acquire
variable {s : State} {i h : Nat} {m : Member} {r : FieldRead}

theorem State.fieldRead_of_found {w : Nat} (hs : s.srcState i = 1) (hsam : r.sam.isSome = true) (hnum : r.num = some w) :
    s.fieldRead i h m r = s.srcTo i { srcInit with head := some h, wedge := (w + 1) % 512 } 2 := by
  obtain ⟨d, hd⟩ := Option.isSome_iff_exists.mp hsam
  simp only [State.fieldRead, hs, hd, hnum]

theorem State.fieldRead_of_unnumbered (hs : s.srcState i = 1) (hr : r.sam = none ∨ r.num = none) :
    s.fieldRead i h m r = s := by
  obtain ⟨sam, num, mag, cellsN, pos⟩ := r
  rcases hr with rfl | rfl
  · simp only [State.fieldRead, hs]
  · cases sam <;> simp only [State.fieldRead, hs]

/-- The source after a field in VERIFY, its count apart. -/
def State.verified (s : State) (i h : Nat) (r : FieldRead) : Src :=
  { s.src i with wedge := ((s.src i).wedge + 1) % 512, flags := s.sampleFlags (actOf i) h (s.src i) r }

theorem State.fieldRead_of_match (hs : s.srcState i = 2) (hsam : r.sam.isSome = true) (hnum : r.num = some (s.src i).wedge) :
    s.fieldRead i h m r = s.putSrc i { s.verified i h r with okRun := (s.src i).okRun + 1 } := by
  simp only [State.fieldRead, hs, hsam, hnum, beq_self_eq_true, Bool.and_self, if_true]
  rfl

theorem State.fieldRead_of_mismatch (hs : s.srcState i = 2) (hr : r.sam = none ∨ r.num ≠ some (s.src i).wedge) :
    s.fieldRead i h m r = s.srcTo i { s.verified i h r with okRun := 0 } 1 := by
  have hno : ¬(r.sam.isSome && r.num == some (s.src i).wedge) = true := by
    rcases hr with hr | hr <;> simp [hr]
  simp only [State.fieldRead, hs, if_neg hno]
  rfl

end Acquire

/-! ## A field of a source in TRACK (R216 to R218) -/

/-- The source after a tracked field, its positions apart. -/
def Src.tracked (x : Src) (r : FieldRead) (flags : Nat) : Src :=
  { x with missRun := if r.sam.isSome then 0 else x.missRun + 1
           wrongRun := if r.sam.isSome && r.num != some x.wedge then x.wrongRun + 1 else 0
           wedge := (x.wedge + 1) % 512, flags := flags }

/-- The wedge counter and the source's record written, before the sample is delivered. -/
def State.trackBegin (s : State) (i h : Nat) (m : Member) (r : FieldRead) : State :=
  (s.modSlot i fun y => { y with wc := nextWc y.wc r, cc := (scCell m.cells 1104).toNat, ahead := 0 }).putSrc i
    ((s.src i).tracked r (s.sampleFlags (actOf i) h (s.src i) r))

section Track
variable {s : State} {i h : Nat} (m : Member) {r : FieldRead}

theorem State.fieldRead_of_track (hs : s.srcState i = 3) : s.fieldRead i h m r = s.trackField i h m r := by
  simp only [State.fieldRead, hs]

theorem FieldsKept.trackBegin (K : List Field) : FieldsKept s (s.trackBegin i h m r) K :=
  (FieldsKept.of_f (State.modSlot_f s i _) K).trans (FieldsKept.of_f (State.putSrc_f _ i _) K)

theorem State.src_trackBegin :
    (s.trackBegin i h m r).src i = (s.src i).tracked r (s.sampleFlags (actOf i) h (s.src i) r) :=
  State.src_putSrc_same _ i _

/-- An invalid sample with the source's record as the field leaves it. -/
theorem State.trackField_of_invalid (hflags : s.sampleFlags (actOf i) h (s.src i) r ≠ 0) :
    ∃ pair y, s.trackField i h m r =
      ((s.trackBegin i h m r).draw 2).sampled i h (s.src i).wedge (s.sampleFlags (actOf i) h (s.src i) r) pair y := by
  obtain ⟨pair, y, hdeliver⟩ := State.deliverSample_of_invalid (s.trackBegin i h m r) i h (s.src i).wedge hflags r.pos
  refine ⟨pair, y, Eq.trans ?_ hdeliver⟩
  simp only [State.trackField, decide_eq_false hflags, Bool.false_and, Bool.false_eq_true, if_false]
  rfl

/-- A valid sample; the servo gain of the head is kept where E1 holds a data gain. -/
theorem State.trackField_of_valid {pair : Nat} {y : Int} (hflags : s.sampleFlags (actOf i) h (s.src i) r = 0)
    (hpos : r.pos = some (pair, y)) :
    ∃ b, s.trackField i h m r = ((s.trackBegin i h m r).sampled i h (s.src i).wedge 0 pair y).when b
      fun t => t.put (Reg.SRV_SGAIN_GAIN (actOf i) h) (t.get (Reg.CHN_FE_STATE_GAIN i 1)) := by
  refine ⟨(((s.trackBegin i h m r).deliverSample i h (s.src i).wedge 0 (some (pair, y))).slot i).dataGain.isSome, ?_⟩
  rw [← State.deliverSample_of_valid]
  simp only [State.trackField, State.trackBegin, Src.tracked, State.when, hflags, hpos, decide_true, Bool.true_and]

end Track

end Sys2Proof.Machine
end

