-- ==== Sys2Proof/Proofs/TrackedFields.lean ====
section
/-! SUPPORT. What a servo field leaves (08 R212, R217): the source and the registers after one in SEARCH or VERIFY, and the sample of
one in TRACK with the registers, the source and the lane that take it. -/

namespace Sys2Proof.Machine

/-! ## SEARCH and VERIFY -/

theorem Still.fields_of_putSrc {s t : State} {i : Nat} {x : Src} {K : List Field} (h : Still (s.putSrc i x) t K) :
    FieldsKept s t K := h.fields

/-- A source that the field moves between SEARCH and VERIFY. -/
theorem State.srcTo_afterStart {s u : State} {i v : Nat} (hstart : Still s u (servoGainFields i)) (hs : u.srcState i ≠ 3)
    (hv : v % 4 ≠ 3) (hgate : v = 1 → (u.slot i).gate = false) (x : Src) :
    (u.srcTo i x v).laneIn = s.laneIn ∧
      FieldsKept s (u.srcTo i x v) (Reg.SRV_STATUS_STATE (actOf i) :: servoGainFields i) ∧ BytesKept s (u.srcTo i x v) := by
  have hto := Still.srcTo_of_idle hs x hv hgate
  refine ⟨hto.laneIn.trans hstart.laneIn, ?_, BytesKept.of_mem (hto.mem.trans hstart.mem)⟩
  exact (hstart.fields.mono (List.subset_cons_self _ _)).trans
    (hto.fields_of_putSrc.mono (by simp [moveFields, servoGainFields]))

/-! ## TRACK -/

/-- A sample's fields are none that the gain loop writes. -/
theorem sampleFields_apart {i : Nat} (hi : i < 16) {F : Field} (hF : F ∈ sampleFields (actOf i) (locOf i)) :
    F.key ∉ (servoGainFields i).map Field.key := by
  have haddr : 0x40d00000 * 32 ≤ F.key := by
    have hkey := List.mem_map_of_mem (f := Field.key) hF
    simp only [sampleFields_keys, List.mem_cons, List.not_mem_nil, or_false] at hkey
    omega
  simp only [servoGainFields, List.map_cons, List.map_nil, List.mem_cons, List.not_mem_nil, or_false, not_or, Field.key,
    Reg.CHN_FE_STATE_GAIN, Reg.CHN_FE_RAIL_COUNT] at haddr ⊢
  omega

/-- The servo gain of a head is neither a field of a sample nor one of E1's gain loop. -/
theorem servoGain_apart {i h : Nat} (hh : h < 12) {F : Field} (hF : F ∈ sampleFields (actOf i) (locOf i)) :
    F.key ≠ (Reg.SRV_SGAIN_GAIN (actOf i) h).key := by
  have hkey := List.mem_map_of_mem (f := Field.key) hF
  simp only [sampleFields_keys, List.mem_cons, List.not_mem_nil, or_false] at hkey
  simp only [Field.key, Reg.SRV_SGAIN_GAIN] at hkey ⊢
  omega

section Tracked
variable {s u : State} {i h : Nat} (m : Member) {r : FieldRead} (hi : i < 16) (hstart : Still s u (servoGainFields i))
include hi hstart

/-- A tracked field that is flagged: its sample is invalid. -/
theorem State.trackField_flagged {flags : Nat} (hflags : u.sampleFlags (actOf i) h (u.src i) r = flags) (hne : flags ≠ 0) :
    (u.trackField i h m r).get (Reg.SRV_POS_HI_VALID (actOf i) (locOf i)) = 0 ∧
      (u.trackField i h m r).get (Reg.SRV_POS_LO_FLAGS (actOf i) (locOf i)) = flags ∧
      (u.trackField i h m r).src i = { (s.src i).tracked r flags with y2 := (s.src i).y1, y1 := none } ∧
      (hasBit flags 0 = true → (u.trackField i h m r).get (Reg.SRV_SAM_MISS_COUNT (actOf i)) =
        s.counted (Reg.SRV_SAM_MISS_COUNT (actOf i)) 1) ∧
      (SMap.get (u.trackField i h m r).laneIn [] (actOf i)).length = (SMap.get s.laneIn [] (actOf i)).length + 1 ∧
      FieldsKept s (u.trackField i h m r) (sampleFields (actOf i) (locOf i) ++ servoGainFields i) ∧
      BytesKept s (u.trackField i h m r) := by
  have hmem : (u.trackField i h m r).mem = s.mem := (State.trackField_mem u i h m r).trans hstart.mem
  have hlt := (u.sampleFlags_bits (actOf i) h (u.src i) r).2.2
  have hsrc := State.src_trackBegin (s := u) (i := i) (h := h) m (r := r)
  obtain ⟨pair, y, ht⟩ := State.trackField_of_invalid (s := u) m (hflags ▸ hne)
  rw [hflags] at ht hlt hsrc
  rw [hstart.src] at ht hsrc
  have hbegin : FieldsKept s ((u.trackBegin i h m r).draw 2) (servoGainFields i) :=
    hstart.fields.trans ((FieldsKept.trackBegin m _).trans (FieldsKept.of_f (State.draw_f _ 2) _))
  have hget := fun F v => State.get_sampled (F := F) (v := v) ((u.trackBegin i h m r).draw 2) i h (s.src i).wedge flags pair y
  have hlane := State.laneIn_sampled ((u.trackBegin i h m r).draw 2) i h (s.src i).wedge flags pair y
  have hfinal := State.src_sampled ((u.trackBegin i h m r).draw 2) i h (s.src i).wedge flags pair y
  rw [ht] at hmem ⊢
  refine ⟨(hget _ 0 ?_).trans (Nat.zero_mod _), (hget _ flags ?_).trans (Nat.mod_eq_of_lt hlt), ?_, fun hmiss => ?_, ?_, ?_,
    BytesKept.of_mem hmem⟩
  · simp [sampleWrites, hne]
  · simp [sampleWrites]
  · have hdraw : ((u.trackBegin i h m r).draw 2).src i = (s.src i).tracked r flags := hsrc
    rw [hfinal, hdraw, decide_eq_false hne]
    rfl
  · refine (State.get_count_sampled _ i h _ flags pair y (by simp [countFields]) ?_ fun t =>
      State.get_miss_countSample t _ hmiss).trans (State.counted_congr (hbegin _ (sampleFields_apart hi (by simp [sampleFields]))) 1)
    simp only [ne_eq, Field.key, Reg.SRV_SAM_MISS_COUNT, Reg.CTL_LANE_STATUS_ACTIVE]
    omega
  · obtain ⟨n, -, -, -, -, -, -, hlane⟩ := hlane
    have hbefore : ((u.trackBegin i h m r).draw 2).laneIn = s.laneIn := hstart.laneIn
    rw [hlane, List.length_append, hbefore, List.length_singleton]
  · exact (hbegin.mono (List.subset_append_right _ _)).trans
      ((FieldsKept.sampled _ i h _ flags pair y).mono (List.subset_append_left _ _))

/-- A tracked field without a flag: its sample is valid. -/
theorem State.trackField_unflagged {p : Nat} {y : Int} (hh : h < 12) (hflags : u.sampleFlags (actOf i) h (u.src i) r = 0)
    (hpos : r.pos = some (p, y)) :
    (∀ F v, (F, v) ∈ sampleWrites (actOf i) (locOf i) h (s.src i).wedge 0 p y →
      (u.trackField i h m r).get F = v % 2 ^ F.width) ∧
      (u.trackField i h m r).get (Reg.SRV_VALID_COUNT (actOf i)) = s.counted (Reg.SRV_VALID_COUNT (actOf i)) 1 ∧
      (u.trackField i h m r).src i = { (s.src i).tracked r 0 with y2 := (s.src i).y1, y1 := some y } ∧
      (SMap.get (u.trackField i h m r).laneIn [] (actOf i)).map (fun x => (x.slot, x.head, x.wedge, x.flags, x.pair, x.y)) =
        (SMap.get s.laneIn [] (actOf i)).map (fun x => (x.slot, x.head, x.wedge, x.flags, x.pair, x.y)) ++
          [(i, h, (s.src i).wedge, 0, p, y)] ∧
      FieldsKept s (u.trackField i h m r)
        (Reg.SRV_SGAIN_GAIN (actOf i) h :: sampleFields (actOf i) (locOf i) ++ servoGainFields i) ∧
      BytesKept s (u.trackField i h m r) := by
  have hmem : (u.trackField i h m r).mem = s.mem := (State.trackField_mem u i h m r).trans hstart.mem
  have hsrc := State.src_trackBegin (s := u) (i := i) (h := h) m (r := r)
  obtain ⟨b, ht⟩ := State.trackField_of_valid (s := u) m hflags hpos
  rw [hflags] at hsrc
  rw [hstart.src] at ht hsrc
  have hbegin : FieldsKept s (u.trackBegin i h m r) (servoGainFields i) := hstart.fields.trans (FieldsKept.trackBegin m _)
  have hsampled := FieldsKept.sampled (u.trackBegin i h m r) i h (s.src i).wedge 0 p y
  have hfinal := State.src_sampled (u.trackBegin i h m r) i h (s.src i).wedge 0 p y
  obtain ⟨n, hslot, hhead, hwedge, hnf, hpair, hy, hlane⟩ :=
    State.laneIn_sampled (u.trackBegin i h m r) i h (s.src i).wedge 0 p y
  have hkeep : FieldsKept ((u.trackBegin i h m r).sampled i h (s.src i).wedge 0 p y) (u.trackField i h m r)
      [Reg.SRV_SGAIN_GAIN (actOf i) h] := by
    rw [ht]
    cases b
    · exact FieldsKept.refl _ _
    · exact (FieldsKept.refl _ _).put _ _ (by simp)
  have hsensed : (u.trackField i h m r).sensed = ((u.trackBegin i h m r).sampled i h (s.src i).wedge 0 p y).sensed := by
    rw [ht]
    cases b <;> rfl
  have hread : ∀ F ∈ sampleFields (actOf i) (locOf i), (u.trackField i h m r).get F =
      ((u.trackBegin i h m r).sampled i h (s.src i).wedge 0 p y).get F :=
    fun F hF => hkeep F (by simpa using servoGain_apart hh hF)
  refine ⟨fun F v hF => ?_, ?_, ?_, ?_, ?_, BytesKept.of_mem hmem⟩
  · refine (hread F ?_).trans (State.get_sampled _ i h _ 0 p y hF)
    rw [sampleFields_eq _ _ h (s.src i).wedge 0 p y]
    exact List.mem_append_left _ (List.mem_map_of_mem (f := Prod.fst) hF)
  · refine (hread _ (by simp [sampleFields])).trans ((State.get_count_sampled _ i h _ 0 p y (by simp [countFields]) ?_ fun t =>
      State.get_valid_countSample t _).trans (State.counted_congr (hbegin _ (sampleFields_apart hi (by simp [sampleFields]))) 1))
    simp only [ne_eq, Field.key, Reg.SRV_VALID_COUNT, Reg.CTL_LANE_STATUS_ACTIVE]
    omega
  · rw [State.src_congr (State.srcs_of_sensed hsensed), hfinal, hsrc]
    rfl
  · rw [State.laneIn_of_sensed hsensed, hlane, List.map_append, List.map_singleton, hslot, hhead, hwedge, hnf, hpair, hy]
    exact congrArg (fun l => (SMap.get l [] (actOf i)).map _ ++ _) hstart.laneIn
  · exact ((hbegin.mono (List.subset_append_right _ _)).trans
      (hsampled.mono (List.subset_append_of_subset_left _ (List.subset_cons_self _ _)))).trans (hkeep.mono (by simp))

end Tracked

/-- A tracked field without SAM, or while SG is 0: in either case one without SAM is read. -/
theorem execServoField_of_missed {i : Fin 16} {f : ServoField} {m : Member} {h : Nat} {s : State}
    (hmem : (s.slot i.val).mem = some m) (honly : m.servoOnly = false) (hhead : (s.src i.val).head = some h)
    (hclk : s.clkOk (16 + i.val / 4) = true) (hs : s.srcState i.val = 3)
    (hmiss : (s.slot i.val).sg = false ∨ (readField f m.cells (s.get (Reg.SRV_SCTL_SAM_THR (i.val / 4)))
      (s.get (Reg.SRV_SCTL_S_TARGET (i.val / 4))) (some (s.get (Reg.SRV_CTL_SAM_WIN (i.val / 4))))).sam = none) :
    ∃ u r, Still s u (servoGainFields i.val) ∧ r.sam = none ∧ execServoField i f s = .next (u.trackField i.val h m r) := by
  have hon : s.srcState i.val ≠ 0 := by
    rw [hs]
    decide
  cases hsg : (s.slot i.val).sg with
  | false =>
    obtain ⟨r, hsam, hrun⟩ := execServoField_of_noSamples (f := f) hmem hhead honly hclk hon (State.samWindow_of_track hs) hsg
      (by rw [hs]; decide)
    exact ⟨s, r, Still.refl s _, hsam, by rw [hrun, State.fieldRead_of_track m hs]⟩
  | true =>
    have hsam := hmiss.resolve_left (by rw [hsg]; decide)
    have hstart := Still.servoStart s i.val honly f
    refine ⟨_, _, hstart, hsam, ?_⟩
    rw [execServoField_of_samples hmem hhead honly hclk hon (State.samWindow_of_track hs) rfl (.inl hsg),
      State.fieldRead_of_track m ((hstart.srcState i.val).trans hs)]
    rfl

end Sys2Proof.Machine
end

