-- ==== Sys2Proof/Proofs/ServoOnlySources.lean ====
section
/-! SUPPORT. A source that enters or loses TRACK (08 R212), and servo-only sources (08 R210, R224): SRV_SRC_j checked and stored, and
the source of a slot without member that follows it. -/

namespace Sys2Proof.Machine

/-! ## SERVO_TRACK_ENTRY (R212) -/

/-- The source as it enters TRACK. -/
def Src.entered (x : Src) : Src := { x with missRun := 0, wrongRun := 0, y1 := none, y2 := none }

theorem execServoTrackEntry_of_second {i : Fin 16} {s : State} (hs : s.srcState i.val = 2) (hok : 2 ≤ (s.src i.val).okRun) :
    execServoTrackEntry i s = .next (s.srcTo i.val (s.src i.val).entered 3) := by
  simp only [execServoTrackEntry, hs, hok, and_self, if_true, Src.entered]

theorem execServoTrackEntry_of_early {i : Fin 16} {s : State} (h : (s.src i.val).okRun < 2 ∨ s.srcState i.val ≠ 2) :
    execServoTrackEntry i s = .next s := by
  have hno : ¬(s.srcState i.val = 2 ∧ 2 ≤ (s.src i.val).okRun) := by omega
  simp only [execServoTrackEntry, if_neg hno]

/-- A source that enters TRACK from VERIFY can change the reference head, and moves no gate. -/
theorem Still.srcTo_track {s : State} {i : Nat} (hs : s.srcState i = 2) (x : Src) :
    Still (s.putSrc i x) (s.srcTo i x 3) [Reg.SRV_STATUS_STATE (actOf i), Reg.MTR_SPN_STATUS_SRC] := by
  have hidle : s.srcState i ≠ 3 := by
    rw [hs]
    decide
  have hmove : s.srcTo i x 3 = (s.setSrc i x 3).refChanged s.reference := by
    rw [State.srcTo_eq, hs]
    rfl
  rw [hmove]
  exact ((Still.setSrc x (State.lastSample_of_idle hidle)).mono (by simp)).trans ((Still.refChanged _ _).mono (by simp))

/-! ## SERVO_LOST (R212) -/

/-- The source has lost TRACK: SEARCH, its LOST bit and the event. -/
def State.lost (s : State) (i : Nat) : State :=
  ((s.srcTo i { s.src i with okRun := 0 } 1).setBitOf (Reg.SRV_STATUS_LOST (actOf i)) (locOf i)).raise 0x0301 i

theorem execServoLost_of_lost {i : Fin 16} {s : State} (hs : s.srcState i.val = 3)
    (hlost : s.get (Reg.SRV_CTL_LOST_CNT (i.val / 4)) ≤ (s.src i.val).missRun ∨ 2 ≤ (s.src i.val).wrongRun) :
    execServoLost i s = .next (s.lost i.val) := by
  have hrun : s.srcState i.val = 3 ∧
      (s.get (Reg.SRV_CTL_LOST_CNT (actOf i.val)) ≤ (s.src i.val).missRun ∨ 2 ≤ (s.src i.val).wrongRun) := ⟨hs, hlost⟩
  simp only [execServoLost, if_pos hrun, State.lost]

theorem execServoLost_of_within {i : Fin 16} {s : State} (h : s.srcState i.val ≠ 3 ∨
    ((s.src i.val).missRun < s.get (Reg.SRV_CTL_LOST_CNT (i.val / 4)) ∧ (s.src i.val).wrongRun < 2)) :
    execServoLost i s = .next s := by
  have hno : ¬(s.srcState i.val = 3 ∧
      (s.get (Reg.SRV_CTL_LOST_CNT (actOf i.val)) ≤ (s.src i.val).missRun ∨ 2 ≤ (s.src i.val).wrongRun)) := by
    simp only [actOf]
    omega
  simp only [execServoLost, if_neg hno]

/-- SRV_STATUS is no field of an event. -/
theorem srvStatus_not_mem_eventFields (a : Nat) : (Reg.SRV_STATUS_STATE a).key ∉ eventFields.map Field.key ∧
    (Reg.SRV_STATUS_LOST a).key ∉ eventFields.map Field.key := by
  simp only [eventFields, List.map_cons, List.map_nil, List.mem_cons, List.not_mem_nil, or_false, not_or, Field.key,
    Reg.SRV_STATUS_STATE, Reg.SRV_STATUS_LOST, Reg.EVR_SUPPRESSED_COUNT, Reg.EVR_RL_OVF_COUNT, Reg.EVR_FIFO_DROP_COUNT,
    Reg.EVR_RECORDED_COUNT, Reg.EVR_HEAD_LO_SEQ, Reg.EVR_HEAD_HI_SEQ, Reg.EVR_DONE_LO_SEQ, Reg.EVR_DONE_HI_SEQ]
  omega

section Lost
variable (s : State) (i : Nat)

theorem State.get_lost {F : Field} (hF : F.key ∉ eventFields.map Field.key) :
    (s.lost i).get F = ((s.srcTo i { s.src i with okRun := 0 } 1).setBitOf (Reg.SRV_STATUS_LOST (actOf i)) (locOf i)).get F :=
  (EventFrame.raise _ 0x0301 i).1 F hF

theorem State.srcState_lost : (s.lost i).srcState i = 1 := by
  have hkey : (Reg.SRV_STATUS_STATE (actOf i)).key ≠ (Reg.SRV_STATUS_LOST (actOf i)).key := by
    simp only [Field.key, Reg.SRV_STATUS_STATE, Reg.SRV_STATUS_LOST]
    omega
  refine (State.srcState_congr ?_).trans (State.srcState_srcTo_same s i { s.src i with okRun := 0 } 1)
  exact (State.get_lost s i (srvStatus_not_mem_eventFields _).1).trans (State.get_put_ne _ _ _ hkey)

theorem State.hasBit_lost : hasBit ((s.lost i).get (Reg.SRV_STATUS_LOST (actOf i))) (locOf i) = true := by
  rw [State.get_lost s i (srvStatus_not_mem_eventFields _).2]
  exact State.hasBit_setBitOf_same _ (locOf_lt i)

theorem State.lost_sensed : (s.lost i).sensed = (s.srcTo i { s.src i with okRun := 0 } 1).sensed :=
  State.raise_sensed _ _ _

theorem State.src_lost : (s.lost i).src i = { s.src i with okRun := 0 } :=
  (State.src_congr (State.srcs_of_sensed (s.lost_sensed i)) i).trans (State.src_srcTo_same s i _ 1)

theorem State.laneIn_lost : (s.lost i).laneIn = (s.lastSample i).laneIn :=
  (State.laneIn_of_sensed (s.lost_sensed i)).trans (State.laneIn_srcTo s i _ 1)

/-- Where the source owes no sample and its gate is closed, the loss is in its registers and the event. -/
theorem EventFrame.lost (howe : s.lastSample i = s) (hgate : (s.slot i).gate = false) : EventFrame s (s.lost i)
    [Reg.SRV_STATUS_STATE (actOf i), Reg.SRV_STATUS_LOST (actOf i), Reg.CHN_FE_STATE_GAIN i 1, Reg.MTR_SPN_STATUS_SRC] := by
  have hto := Still.srcTo (v := 1) { s.src i with okRun := 0 } howe fun _ => hgate
  refine EventFrame.after (((hto.fields_of_putSrc.mono ?_).put _ _ ?_).mono (List.subset_append_left _ eventFields))
    hto.mem (congrArg Evr.nextSeq hto.evr) ?_ (EventFrame.raise _ _ _)
  · simp [moveFields]
  · simp
  · simp only [List.map_cons, List.map_nil, List.mem_cons, List.not_mem_nil, or_false, not_or, Field.key,
      Reg.EVR_RING_BASE_ADDR, Reg.SRV_STATUS_STATE, Reg.SRV_STATUS_LOST, Reg.CHN_FE_STATE_GAIN, Reg.MTR_SPN_STATUS_SRC]
    omega

end Lost

/-! ## SRV_SRC_j checked (R224) -/

/-- Another enabled source of the actuator has the head. -/
def State.headTaken (s : State) (a j h : Nat) : Bool :=
  (List.range 4).any fun k => k != j && s.flag (Reg.SRV_SRC_EN a k) && s.get (Reg.SRV_SRC_HEAD a k) == h

theorem State.headTaken_of_disabled {s : State} {a j : Fin 4} (h : ∀ k : Fin 4, k ≠ j → s.get (Reg.SRV_SRC_EN a.val k.val) = 0)
    (head : Nat) : s.headTaken a.val j.val head = false := by
  rw [State.headTaken, List.any_eq_false]
  intro k hk
  by_cases hkj : k = j.val
  · simp [hkj]
  · have hen := h ⟨k, List.mem_range.mp hk⟩ fun e => hkj (congrArg Fin.val e)
    simp [State.flag_eq, hen]

theorem State.headTaken_of_enabled {s : State} {a j k : Fin 4} {head : Nat} (hkj : k ≠ j)
    (hen : s.get (Reg.SRV_SRC_EN a.val k.val) = 1) (hhead : s.get (Reg.SRV_SRC_HEAD a.val k.val) = head) :
    s.headTaken a.val j.val head = true := by
  rw [State.headTaken, List.any_eq_true]
  exact ⟨k.val, List.mem_range.mpr k.isLt, by simp [State.flag_eq, hen, hhead, Fin.val_ne_iff.mpr hkj]⟩

/-- What an accepted write stores. -/
def sourceWrites (a j v : Nat) : List (Field × Nat) :=
  [(Reg.SRV_SRC_EN a j, bit v 31), (Reg.SRV_SRC_HEAD a j, bits v 19 16), (Reg.SRV_SRC_HEATER a j, bits v 7 0)]

theorem sourceWrites_keys_nodup (a j v : Nat) : ((sourceWrites a j v).map fun p => p.1.key).Nodup := by
  simp only [sourceWrites, List.map_cons, List.map_nil, Field.key, Reg.SRV_SRC_EN, Reg.SRV_SRC_HEAD, Reg.SRV_SRC_HEATER,
    List.nodup_cons, List.mem_cons, List.not_mem_nil, or_false, not_or, not_false_eq_true, List.nodup_nil, and_true]
  omega

section Checks
variable {a j : Fin 4} {v : Word} {s : State}

/-- A rejected write. -/
def State.srvReject (s : State) (a code : Nat) : State := s.reject (Reg.SRV_CFG_STATUS_ERR a) (Reg.SRV_CFG_STATUS_CODE a) code

theorem execServoSourceEnable_of_noHead (h : 11 < bits v.toNat 19 16) :
    execServoSourceEnable a j v s = .next (s.srvReject a.val 2) := by
  simp only [execServoSourceEnable, State.srvSrc, if_pos h, State.srvReject]

variable (hhead : bits v.toNat 19 16 ≤ 11)
include hhead

theorem execServoSourceEnable_of_taken (hen : hasBit v.toNat 31 = true)
    (htaken : s.headTaken a.val j.val (bits v.toNat 19 16) = true) :
    execServoSourceEnable a j v s = .next (s.srvReject a.val 4) := by
  rw [State.headTaken] at htaken
  simp only [execServoSourceEnable, State.srvSrc, if_neg (Nat.not_lt.mpr hhead), hen, htaken, Bool.and_self, if_true,
    State.srvReject]

theorem execServoSourceEnable_of_unpowered (hen : hasBit v.toNat 31 = true)
    (hfree : s.headTaken a.val j.val (bits v.toNat 19 16) = false) (hdom : s.domOn (3 * (4 * a.val + j.val) + 1) = false) :
    execServoSourceEnable a j v s = .next (s.srvReject a.val 5) := by
  rw [State.headTaken] at hfree
  simp only [execServoSourceEnable, State.srvSrc, if_neg (Nat.not_lt.mpr hhead), hen, hfree, hdom, Bool.and_false, Bool.not_false,
    Bool.and_self, Bool.false_eq_true, if_false, if_true, State.srvReject]

/-- An accepted write on a slot without member. -/
theorem execServoSourceEnable_of_accepted (hok : hasBit v.toNat 31 = true →
      s.headTaken a.val j.val (bits v.toNat 19 16) = false ∧ s.domOn (3 * (4 * a.val + j.val) + 1) = true)
    (hmem : (s.slot (4 * a.val + j.val)).mem = none) :
    execServoSourceEnable a j v s =
      .next ((s.puts (sourceWrites a.val j.val v.toNat)).resumeSrc (4 * a.val + j.val)) := by
  have htaken : ¬(hasBit v.toNat 31 && s.headTaken a.val j.val (bits v.toNat 19 16)) = true := by
    simp only [Bool.and_eq_true, not_and]
    exact fun hen => by simp [(hok hen).1]
  have hdom : ¬(hasBit v.toNat 31 && !s.domOn (3 * (4 * a.val + j.val) + 1)) = true := by
    simp only [Bool.and_eq_true, not_and]
    exact fun hen => by simp [(hok hen).2]
  rw [State.headTaken] at htaken
  simp only [execServoSourceEnable, State.srvSrc, if_neg (Nat.not_lt.mpr hhead), if_neg htaken, if_neg hdom]
  have hslot : (((((s.put (Reg.SRV_SRC_EN a.val j.val) (bit v.toNat 31)).put (Reg.SRV_SRC_HEAD a.val j.val)
      (bits v.toNat 19 16)).put (Reg.SRV_SRC_HEATER a.val j.val) (bits v.toNat 7 0))).slot (4 * a.val + j.val)).mem = none := hmem
  rw [hslot]
  rfl

end Checks

/-! ## The source of a slot without member (R210) -/

section Resume
variable {s : State} {i : Nat} (hmem : (s.slot i).mem = none)
include hmem

theorem State.resumeSrc_of_waiting
    (hwait : s.get (Reg.SRV_SRC_EN (actOf i) (locOf i)) = 0 ∨ s.get Reg.MTR_SPN_SPEED_VALID = 0) :
    s.resumeSrc i = s.endSrc i := by
  have hno : ¬(s.flag (Reg.SRV_SRC_EN (actOf i) (locOf i)) &&
      !s.headStarted (actOf i) (s.get (Reg.SRV_SRC_HEAD (actOf i) (locOf i))) && s.flag Reg.MTR_SPN_SPEED_VALID) = true := by
    rcases hwait with h | h <;> simp [State.flag_eq, h]
  simp only [State.resumeSrc, hmem, if_neg hno]

theorem State.resumeSrc_of_ready (hen : s.get (Reg.SRV_SRC_EN (actOf i) (locOf i)) = 1)
    (hfree : s.headStarted (actOf i) (s.get (Reg.SRV_SRC_HEAD (actOf i) (locOf i))) = false)
    (hspeed : s.get Reg.MTR_SPN_SPEED_VALID = 1) : s.resumeSrc i = s.startServoOnly i := by
  have hyes : (s.flag (Reg.SRV_SRC_EN (actOf i) (locOf i)) &&
      !s.headStarted (actOf i) (s.get (Reg.SRV_SRC_HEAD (actOf i) (locOf i))) && s.flag Reg.MTR_SPN_SPEED_VALID) = true := by
    simp [State.flag_eq, hen, hfree, hspeed]
  simp only [State.resumeSrc, hmem, if_pos hyes]

end Resume

theorem State.endSrc_of_off {s : State} {i : Nat} (hs : s.srcState i = 0) : s.endSrc i = s := if_pos hs

/-- A source that ends outside TRACK. -/
theorem State.endSrc_of_idle {s : State} {i : Nat} (hs : s.srcState i ≠ 3) :
    (s.endSrc i).srcState i = 0 ∧ (s.endSrc i).mem = s.mem ∧ FieldsKept s (s.endSrc i) (moveFields i) := by
  unfold State.endSrc
  split
  · exact ⟨‹_›, rfl, FieldsKept.refl s _⟩
  · rw [State.lastSample_of_idle hs]
    have hto := Still.srcTo_of_idle (s := s.fixRefs i) (v := 0) hs { srcInit with head := (s.src i).head } (by decide) nofun
    exact ⟨State.srcState_srcTo_same _ i _ 0, hto.mem.trans (s.fixRefs_mem i),
      (FieldsKept.of_f (s.fixRefs_f i) _).trans hto.fields_of_putSrc⟩

/-- The slot becomes a source for the head, and its member stays. -/
theorem State.startSrc_head_mem (s : State) (i h : Nat) :
    ((s.startSrc i h).src i).head = some h ∧ ((s.startSrc i h).slot i).mem = (s.slot i).mem := by
  have hto : ∀ x v, x.head = some h → (((s.fixRefs i).srcTo i x v).src i).head = some h ∧
      (((s.fixRefs i).srcTo i x v).slot i).mem = (s.slot i).mem := by
    refine fun x v hx => ⟨by rw [State.src_srcTo_same, hx], ((MembersKept.srcTo (s.fixRefs i) i x v).mem i).trans ?_⟩
    exact congrArg Slot.mem (State.slot_congr (State.slots_of_tables (State.setSrc_tables (s.fixRefs i) i x v)) i)
  unfold State.startSrc
  dsimp only
  split
  · rename_i hsame
    split
    · have hkept := MembersKept.searchOn s i
      exact ⟨by rw [State.src_congr (State.srcs_of_sensed hkept.sensed), hsame.1], hkept.mem i⟩
    · exact ⟨hsame.1, rfl⟩
  · split
    · exact hto _ 2 rfl
    · exact hto _ 1 rfl

theorem MembersKept.startClock (s : State) (i cells : Nat) : MembersKept s (s.startClock i cells) :=
  (((MembersKept.modSlot s i rfl).put _ _).put _ _).put _ _

/-- The member of a servo-only source. -/
def State.servoMember (s : State) (i : Nat) : Member :=
  let h := s.get (Reg.SRV_SRC_HEAD (actOf i) (locOf i))
  { head := h, track := 0, surface := 12 * actOf i + h, band := 0, peg := 0, cells := 16384, write := false, servoOnly := true,
    ready := true, offH := 0, set := s.latch i h }

/-- A servo-only member starts: its slot has it, and the source its head. -/
theorem State.startServoOnly_head_mem (s : State) (i : Nat) :
    ((s.startServoOnly i).src i).head = some (s.get (Reg.SRV_SRC_HEAD (actOf i) (locOf i))) ∧
      ((s.startServoOnly i).slot i).mem = some (s.servoMember i) := by
  have hstart := fun t => State.startSrc_head_mem t i (s.get (Reg.SRV_SRC_HEAD (actOf i) (locOf i)))
  have hlink := fun (t : State) a fs =>
    congrArg Slot.mem (State.slot_congr (s := t) (t := t.paMember a fs) (State.paNext_slots _ a) i)
  exact ⟨(hstart _).1, (hstart _).2.trans ((hlink _ _ _).trans (((MembersKept.startClock _ i 16384).mem i).trans
    (congrArg Slot.mem (State.slot_modSlot_same (s.closeWindow i) i _))))⟩

/-- What SRV_SRC stores and the status it is checked into are none of the fields of a source, of its start or of a gate. -/
theorem sourceWrites_not_mem {a j v : Nat} (hj : j < 4) {p : Field × Nat} (hp : p ∈ sourceWrites a j v) (i : Nat) :
    p.1.key ∉ (searchFields i).map Field.key := by
  have hkeys : (searchFields i).map Field.key = (sampleFields (actOf i) (locOf i)).map Field.key ++
      [(Reg.SRV_STATUS_STATE (actOf i)).key, Reg.MTR_SPN_STATUS_SRC.key, (Reg.CHN_FE_STATE_GAIN i 1).key,
        (Reg.CHN_FE_STATUS_WINDOW i).key, (Reg.CHN_MC_TRIM_TRIM i).key, (Reg.CHN_MC_STATUS_LOCKED i).key,
        (Reg.CHN_MC_STATUS_ACQ i).key] ++ (dropFields i).map Field.key := rfl
  have hkey : p.1.key = (0x40d00010 + 0x10000 * a + 0x4 * j) * 32 + 31 ∨
      p.1.key = (0x40d00010 + 0x10000 * a + 0x4 * j) * 32 + 16 ∨ p.1.key = (0x40d00010 + 0x10000 * a + 0x4 * j) * 32 := by
    simp only [sourceWrites, List.mem_cons, List.not_mem_nil, or_false] at hp
    rcases hp with rfl | rfl | rfl
    · exact .inl rfl
    · exact .inr (.inl rfl)
    · exact .inr (.inr rfl)
  have hloc := locOf_lt i
  simp only [hkeys, sampleFields_keys, dropFields_keys, bufErrorFields_keys, List.cons_append, List.nil_append, List.mem_cons,
    List.not_mem_nil, or_false, not_or, Field.key, Reg.SRV_STATUS_STATE, Reg.MTR_SPN_STATUS_SRC, Reg.CHN_FE_STATE_GAIN,
    Reg.CHN_FE_STATUS_WINDOW, Reg.CHN_MC_TRIM_TRIM, Reg.CHN_MC_STATUS_LOCKED, Reg.CHN_MC_STATUS_ACQ] at hkey ⊢
  omega

/-- What SRV_SRC reads once an accepted write is stored, however the source then changes. -/
theorem State.get_stored {s t : State} {a j : Fin 4} {v : Nat} {K : List Field} (hK : K ⊆ searchFields (4 * a.val + j.val))
    (h : FieldsKept (s.puts (sourceWrites a.val j.val v)) t K) : t.get (Reg.SRV_SRC_EN a.val j.val) = bit v 31 ∧
      t.get (Reg.SRV_SRC_HEAD a.val j.val) = bits v 19 16 ∧ t.get (Reg.SRV_SRC_HEATER a.val j.val) = bits v 7 0 := by
  have hget : ∀ F n, (F, n) ∈ sourceWrites a.val j.val v → t.get F = n % 2 ^ F.width := fun F n hF =>
    (h.mono hK F (sourceWrites_not_mem j.isLt hF _)).trans (State.get_puts_of_mem (sourceWrites_keys_nodup _ _ _) hF s)
  refine ⟨(hget _ (bit v 31) ?_).trans (Nat.mod_mod _ _), (hget _ (bits v 19 16) ?_).trans (Nat.mod_mod _ _),
    (hget _ (bits v 7 0) ?_).trans (Nat.mod_mod _ _)⟩
  all_goals simp [sourceWrites]

section Stored
variable (s : State) {a j : Fin 4} (v : Nat)

theorem State.srcState_stored (i : Nat) : (s.puts (sourceWrites a.val j.val v)).srcState i = s.srcState i := by
  refine State.srcState_congr (State.get_puts_ne (fun p hp e => sourceWrites_not_mem j.isLt hp i ?_) s)
  rw [← e]
  exact List.mem_map_of_mem (by simp [searchFields, sourceFields])

theorem State.get_speedValid_stored :
    (s.puts (sourceWrites a.val j.val v)).get Reg.MTR_SPN_SPEED_VALID = s.get Reg.MTR_SPN_SPEED_VALID := by
  refine State.get_puts_ne (fun p hp => ?_) s
  simp only [sourceWrites, List.mem_cons, List.not_mem_nil, or_false] at hp
  rcases hp with rfl | rfl | rfl
  all_goals
    simp only [ne_eq, Field.key, Reg.MTR_SPN_SPEED_VALID, Reg.SRV_SRC_EN, Reg.SRV_SRC_HEAD, Reg.SRV_SRC_HEATER]
    omega

variable {s v}

/-- A disabled source, or one that no spindle speed lets start: what stood on the slot before ends. -/
theorem State.resumeSrc_stored_of_waiting (hmem : (s.slot (4 * a.val + j.val)).mem = none)
    (hwait : bit v 31 = 0 ∨ s.get Reg.MTR_SPN_SPEED_VALID = 0) :
    (s.puts (sourceWrites a.val j.val v)).resumeSrc (4 * a.val + j.val) =
      (s.puts (sourceWrites a.val j.val v)).endSrc (4 * a.val + j.val) := by
  obtain ⟨hen, -, -⟩ := State.get_stored (s := s) (a := a) (j := j) (v := v) (List.nil_subset _) (FieldsKept.refl _ _)
  refine State.resumeSrc_of_waiting (s := s.puts (sourceWrites a.val j.val v)) hmem (hwait.imp (fun hbit => ?_) fun hspeed => ?_)
  · rw [actOf_slot, locOf_slot, hen, hbit]
  · rw [State.get_speedValid_stored, hspeed]

theorem State.resumeSrc_stored_of_ready (hmem : (s.slot (4 * a.val + j.val)).mem = none) (hbit : bit v 31 = 1)
    (hfree : s.headStarted a.val (bits v 19 16) = false) (hspeed : s.get Reg.MTR_SPN_SPEED_VALID = 1) :
    (s.puts (sourceWrites a.val j.val v)).resumeSrc (4 * a.val + j.val) =
      (s.puts (sourceWrites a.val j.val v)).startServoOnly (4 * a.val + j.val) := by
  obtain ⟨hen, hhead, -⟩ := State.get_stored (s := s) (a := a) (j := j) (v := v) (List.nil_subset _) (FieldsKept.refl _ _)
  refine State.resumeSrc_of_ready (s := s.puts (sourceWrites a.val j.val v)) hmem ?_ ?_ ?_
  · rw [actOf_slot, locOf_slot, hen, hbit]
  · rw [actOf_slot, locOf_slot, hhead]
    exact hfree
  · rw [State.get_speedValid_stored, hspeed]

end Stored

/-- The first rejection since ERR was cleared. -/
theorem State.srvReject_of_noError {s : State} {a code : Nat} (h : s.get (Reg.SRV_CFG_STATUS_ERR a) = 0) (hcode : code < 256) :
    (s.srvReject a code).get (Reg.SRV_CFG_STATUS_ERR a) = 1 ∧ (s.srvReject a code).get (Reg.SRV_CFG_STATUS_CODE a) = code ∧
      (s.srvReject a code).slots = s.slots ∧ (s.srvReject a code).srcs = s.srcs ∧
      FieldsKept s (s.srvReject a code) [Reg.SRV_CFG_STATUS_ERR a, Reg.SRV_CFG_STATUS_CODE a] ∧
      BytesKept s (s.srvReject a code) := by
  have hkey : (Reg.SRV_CFG_STATUS_ERR a).key ≠ (Reg.SRV_CFG_STATUS_CODE a).key := by
    simp only [ne_eq, Field.key, Reg.SRV_CFG_STATUS_ERR, Reg.SRV_CFG_STATUS_CODE]
    omega
  refine ⟨?_, ?_, ?_, ?_, FieldsKept.reject s _ _ _, BytesKept.of_mem (State.reject_mem s _ _ _)⟩
  all_goals rw [State.srvReject, State.reject_of_noError h]
  · rw [State.get_put_ne _ _ _ hkey, State.get_put_same]
    rfl
  · rw [State.get_put_same]
    exact Nat.mod_eq_of_lt hcode
  · rfl
  · rfl

end Sys2Proof.Machine
end

