-- ==== Sys2Proof/Proofs/ServoSensing.lean ====
section
/-! SUPPORT. Servo sensing (08 R210 to R217, R221, R222, R224; 10 R267): the ticks of the reference head, and the statement, case by
case along the commands and the states of a source. -/

namespace Sys2Proof.Machine

/-! ## The reference head's ticks (R221, R222; 10 R267) -/

/-- The time stamps and the wedge intervals as a tick leaves them. -/
def State.ticked (s : State) (r : RefHead) (wedges : List Nat) : State :=
  (s.setRefHead r).modSpn fun p => { p with wedges := wedges }

theorem execWedgeTick_of_none {stamp : Nat} {s : State} (h : s.reference = none) : execWedgeTick stamp s = .next s := by
  simp only [execWedgeTick, h]

/-- Below 32 intervals the tick gives no speed. -/
theorem State.wedgeSpeed_of_few {s : State} {old : RefHead} {t₀ k₀ t₁ : Nat} (hold : old.lastSam = some (t₀, k₀))
    (hnew : s.refHead.lastSam = some (t₁, (k₀ + 1) % 512)) (hfew : s.spn.wedges.length < 31) :
    s.wedgeSpeed old = s.modSpn fun p => { p with wedges := (t₁ - t₀) :: s.spn.wedges } := by
  have htake : ((t₁ - t₀) :: s.spn.wedges).take 32 = (t₁ - t₀) :: s.spn.wedges :=
    List.take_of_length_le (by simp only [List.length_cons]; omega)
  have hshort : ¬(((t₁ - t₀) :: s.spn.wedges).length = 32 ∧ 0 < sumNat ((t₁ - t₀) :: s.spn.wedges)) := by
    simp only [List.length_cons]
    omega
  simp only [State.wedgeSpeed, hold, hnew, if_true, State.modSpn, htake, if_neg hshort]

/-- What a revolution with its time writes. -/
def revolutionWrites (ticks : Nat) : List (Field × Nat) :=
  [(Reg.SRV_REV_TICKS_TICKS, ticks), (Reg.SRV_REF_STATUS_REV_AGE, 0), (Reg.SRV_REF_STATUS_REV_OK, 1)]

/-- What a revolution writes and leaves, however the time stamps then stand. -/
theorem State.revolved (s : State) (ticks : Nat) (r : RefHead) :
    (∀ F v, (F, v) ∈ revolutionWrites ticks → ((s.puts (revolutionWrites ticks)).setRefHead r).get F = v % 2 ^ F.width) ∧
      FieldsKept s ((s.puts (revolutionWrites ticks)).setRefHead r) ((revolutionWrites ticks).map Prod.fst) ∧
      BytesKept s ((s.puts (revolutionWrites ticks)).setRefHead r) := by
  have hf := State.setRefHead_f (s.puts (revolutionWrites ticks)) r
  have hkeys : ((revolutionWrites ticks).map fun p => p.1.key).Nodup := by
    simp only [revolutionWrites, List.map_cons, List.map_nil, Field.key, Reg.SRV_REV_TICKS_TICKS, Reg.SRV_REF_STATUS_REV_AGE,
      Reg.SRV_REF_STATUS_REV_OK, List.nodup_cons, List.mem_cons, List.not_mem_nil, or_false, not_or, not_false_eq_true,
      List.nodup_nil, and_true]
    omega
  exact ⟨fun F v h => (State.get_of_f hf F).trans (State.get_puts_of_mem hkeys h s),
    (FieldsKept.puts s _).trans (FieldsKept.of_f hf _),
    BytesKept.of_mem ((State.setRefHead_mem _ r).trans (State.puts_mem s _))⟩

section Tick
variable {stamp i h u : Nat} {s : State} (href : s.reference = some (i, h))
include href

theorem State.refTick_of_next {k : Nat} (hsam : s.refHead.lastSam = some (u, k)) (hk : k + 1 < 512)
    (hwedge : (s.src i).wedge = k + 2) : s.refTick stamp =
      (s.put Reg.SRV_WEDGE_TICKS_TICKS (stamp - u)).setRefHead ⟨some h, some (stamp, k + 1), s.refHead.lastW0⟩ := by
  have hnow : (k + 2 + 511) % 512 = k + 1 := by omega
  have hnext : (k + 1) % 512 = k + 1 := Nat.mod_eq_of_lt hk
  have hmissed : decide (k + 1 < k) = false := decide_eq_false (by omega)
  simp only [State.refTick, href, hwedge, hsam, hnow, hnext, hmissed, beq_self_eq_true, State.when, Bool.false_and,
    Bool.false_eq_true, if_true, if_false, Nat.succ_ne_zero]

/-- A SAM one wedge after the last one, before the 32 intervals that give the speed are there. -/
theorem execWedgeTick_of_next {k : Nat} (hsam : s.refHead.lastSam = some (u, k)) (hk : k + 1 < 512)
    (hwedge : (s.src i).wedge = k + 2) (hfew : s.spn.wedges.length < 31) :
    execWedgeTick stamp s = .next ((s.put Reg.SRV_WEDGE_TICKS_TICKS (stamp - u)).ticked
      ⟨some h, some (stamp, k + 1), s.refHead.lastW0⟩ ((stamp - u) :: s.spn.wedges)) := by
  have hnew : (s.refTick stamp).refHead.lastSam = some (stamp, (k + 1) % 512) := by
    rw [State.refTick_of_next href hsam hk hwedge, Nat.mod_eq_of_lt hk]
    rfl
  have hspn : (s.refTick stamp).spn = s.spn := by
    rw [State.refTick_of_next href hsam hk hwedge]
    rfl
  simp only [execWedgeTick, href]
  rw [State.wedgeSpeed_of_few hsam hnew (hspn ▸ hfew), hspn, State.refTick_of_next href hsam hk hwedge]
  rfl

/-- A SAM of wedge 0 one revolution after another. -/
theorem execWedgeTick_of_revolution (hw0 : s.refHead.lastW0 = some u) (hwedge : (s.src i).wedge = 1)
    (hsam : s.refHead.lastSam = none) :
    execWedgeTick stamp s = .next ((s.puts (revolutionWrites (stamp - u))).setRefHead ⟨some h, some (stamp, 0), some stamp⟩) := by
  simp only [execWedgeTick, State.refTick, href, hwedge, hsam, hw0, State.wedgeSpeed]
  rfl

end Tick

/-! ## The statement -/

/-- Settles O21, along the commands of servo sensing and the states of a source: a field moves a source by `srcTo` or delivers its
sample, and SRV_SRC and the wedge ticks write what their equations say. -/
theorem servoSources : Obligations.ServoSources := by
  unfold Obligations.ServoSources
  refine ⟨?found, ?unnumbered, ?matched, ?mismatched, ?valid, ?missed, ?wrong, ?off, ?enter, ?early, ?lost, ?lostOwing, ?within,
    ?disabled, ?enabled, ?waiting, ?noHead, ?taken, ?unpowered, ?wedgeTick, ?revTick, ?noTick, ?aged⟩
  case found =>
    intro i f m h w r s hmem honly hhead hclk hs hread hsam hnum _
    have hstart := Still.servoStart s i.val honly f
    have hs' := (hstart.srcState i.val).trans hs
    have hrun := execServoField_of_samples hmem hhead honly hclk (by simp [hs]) (State.samWindow_of_search hs) hread (.inr hs)
    rw [State.fieldRead_of_found hs' hsam hnum] at hrun
    obtain ⟨hlane, hfields, hbytes⟩ := State.srcTo_afterStart (v := 2) hstart (by simp [hs']) (by decide) nofun _
    have hsrc := State.src_srcTo_same (s.servoStart i.val m f) i.val { srcInit with head := some h, wedge := (w + 1) % 512 } 2
    exact ⟨_, hrun, State.srcState_srcTo_same _ _ _ _, congrArg Src.wedge hsrc, congrArg Src.head hsrc,
      congrArg Src.okRun hsrc, hlane, hfields, hbytes⟩
  case unnumbered =>
    intro i f m h r s hmem honly hhead hs hread hr
    by_cases hclk : s.clkOk (16 + i.val / 4) = true
    · have hstart := Still.servoStart s i.val honly f
      have hs' := (hstart.srcState i.val).trans hs
      have hrun := execServoField_of_samples hmem hhead honly hclk (by simp [hs]) (State.samWindow_of_search hs) hread (.inr hs)
      rw [State.fieldRead_of_unnumbered hs' hr] at hrun
      exact ⟨_, hrun, hs', hstart.srcs, hstart.laneIn, hstart.fields, BytesKept.of_mem hstart.mem⟩
    · exact ⟨s, execServoField_of_stopped hmem hhead (eq_false_of_ne_true hclk), hs, rfl, rfl, FieldsKept.refl s _,
        BytesKept.refl s⟩
  case matched =>
    intro i f m h r s hmem honly hhead hclk hs hsg hread hsam hnum
    have hstart := Still.servoStart s i.val honly f
    have hs' := (hstart.srcState i.val).trans hs
    have hrun := execServoField_of_samples hmem hhead honly hclk (by simp [hs]) (State.samWindow_of_verify hs) hread (.inl hsg)
    rw [State.fieldRead_of_match hs' hsam (by rw [hstart.src]; exact hnum), State.verified, hstart.src] at hrun
    have hsrc := fun x => (s.servoStart i.val m f).src_putSrc_same i.val x
    exact ⟨_, hrun, hs', congrArg Src.okRun (hsrc _), congrArg Src.wedge (hsrc _), hstart.laneIn, hstart.fields,
      BytesKept.of_mem hstart.mem⟩
  case mismatched =>
    intro i f m h r s hmem honly hhead hclk hs hsg _ hgate hread hr
    have hstart := Still.servoStart s i.val honly f
    have hs' := (hstart.srcState i.val).trans hs
    have hrun := execServoField_of_samples hmem hhead honly hclk (by simp [hs]) (State.samWindow_of_verify hs) hread (.inl hsg)
    rw [State.fieldRead_of_mismatch hs' (by rw [hstart.src]; exact hr)] at hrun
    obtain ⟨hlane, hfields, hbytes⟩ := State.srcTo_afterStart (v := 1) hstart (by simp [hs']) (by decide)
      (fun _ => hstart.gate _ hgate) _
    exact ⟨_, hrun, State.srcState_srcTo_same _ _ _ _, congrArg Src.okRun (State.src_srcTo_same _ _ _ _), hlane, hfields, hbytes⟩
  case valid =>
    intro i f m h p y r s hmem honly hhead hh hclk hs hsg hread hnum hpos hflags
    have hstart := Still.servoStart s i.val honly f
    have hs' := (hstart.srcState i.val).trans hs
    have hrun := execServoField_of_samples hmem hhead honly hclk (by simp [hs]) (State.samWindow_of_track hs) hread (.inl hsg)
    rw [State.fieldRead_of_track m hs'] at hrun
    have hflags' : (s.servoStart i.val m f).sampleFlags (actOf i.val) h ((s.servoStart i.val m f).src i.val) r = 0 := by
      rw [hstart.src, State.sampleFlags_congr i.isLt hstart.fields]
      exact hflags
    have hsam : r.sam.isSome = true := by
      have hbit := (s.sampleFlags_bits (i.val / 4) h (s.src i.val) r).1
      rw [hflags] at hbit
      rw [← Option.not_isNone, ← hbit]
      rfl
    obtain ⟨hwrites, hcount, hsrc, hlane, hfields, hbytes⟩ := State.trackField_unflagged m i.isLt hstart hh hflags' hpos
    refine ⟨_, hrun, (hwrites _ 0 ?_).trans (Nat.zero_mod _), (hwrites _ 1 ?_).trans rfl, hwrites _ p ?_, hwrites _ h ?_, hwrites _ _ ?_,
      hcount, congrArg Src.y1 hsrc, congrArg Src.y2 hsrc, (congrArg Src.missRun hsrc).trans (if_pos hsam),
      (congrArg Src.wrongRun hsrc).trans (if_neg ?_), congrArg Src.wedge hsrc, hlane, hfields, hbytes⟩
    · simp [sampleWrites, actOf, locOf]
    · simp [sampleWrites, actOf, locOf]
    · simp [sampleWrites, actOf, locOf]
    · simp [sampleWrites, actOf, locOf]
    · simp [sampleWrites, actOf, locOf]
    · simp [hnum]
  case missed =>
    intro i f m h s hmem honly hhead hclk hs hmiss
    obtain ⟨u, r, hstart, hsam, hrun⟩ := execServoField_of_missed hmem honly hhead hclk hs hmiss
    have hbit : hasBit (u.sampleFlags (actOf i.val) h (u.src i.val) r) 0 = true := by
      rw [(u.sampleFlags_bits _ h _ r).1, hsam]
      rfl
    obtain ⟨hvalid, hflags, hsrc, hmissed, hlane, hfields, hbytes⟩ := State.trackField_flagged m i.isLt hstart rfl
      (fun e => by rw [e] at hbit; exact absurd hbit (by decide))
    refine ⟨_, hrun, hvalid, (congrArg (hasBit · 0) hflags).trans hbit, (congrArg Src.missRun hsrc).trans (if_neg ?_),
      (congrArg Src.wrongRun hsrc).trans (if_neg ?_), congrArg Src.y1 hsrc, congrArg Src.wedge hsrc, hmissed hbit, hlane, hfields,
      hbytes⟩
    · simp [hsam]
    · simp [hsam]
  case wrong =>
    intro i f m h r s hmem honly hhead hclk hs hsg hread hsam hnum
    have hstart := Still.servoStart s i.val honly f
    have hs' := (hstart.srcState i.val).trans hs
    have hrun := execServoField_of_samples hmem hhead honly hclk (by simp [hs]) (State.samWindow_of_track hs) hread (.inl hsg)
    rw [State.fieldRead_of_track m hs'] at hrun
    have hwrong : (r.sam.isSome && r.num != some (s.src i.val).wedge) = true := by simp [hsam, hnum]
    have hbit : hasBit ((s.servoStart i.val m f).sampleFlags (actOf i.val) h ((s.servoStart i.val m f).src i.val) r) 1 = true := by
      rw [(State.sampleFlags_bits _ _ h _ r).2.1, hstart.src, hwrong]
    obtain ⟨hvalid, hflags, hsrc, -, -, hfields, hbytes⟩ := State.trackField_flagged m i.isLt hstart rfl
      (fun e => by rw [e] at hbit; exact absurd hbit (by decide))
    exact ⟨_, hrun, hvalid, (congrArg (hasBit · 1) hflags).trans hbit, (congrArg Src.wrongRun hsrc).trans (if_pos hwrong),
      (congrArg Src.missRun hsrc).trans (if_pos hsam), congrArg Src.wedge hsrc, hfields, hbytes⟩
  case off => exact fun i f s h => ⟨s, execServoField_of_off h, rfl⟩
  case enter =>
    intro i s hs hok
    have hto := Still.srcTo_track hs (s.src i.val).entered
    have hsrc := s.src_srcTo_same i.val (s.src i.val).entered 3
    exact ⟨_, execServoTrackEntry_of_second hs hok, State.srcState_srcTo_same _ _ _ _, congrArg Src.missRun hsrc,
      congrArg Src.wrongRun hsrc, congrArg Src.y1 hsrc, (congrArg Src.head hsrc).trans rfl, (congrArg Src.wedge hsrc).trans rfl,
      hto.fields_of_putSrc, BytesKept.of_mem hto.mem⟩
  case early => exact fun i s h => ⟨s, execServoTrackEntry_of_early h, rfl⟩
  case lost =>
    intro i h s hs hhead hlost hgroup hgate
    have howe := State.lastSample_of_noGroup hhead hgroup
    exact ⟨_, execServoLost_of_lost hs hlost, s.srcState_lost i.val, (congrArg Src.head (s.src_lost i.val)).trans hhead,
      s.hasBit_lost i.val, (s.laneIn_lost i.val).trans (congrArg State.laneIn howe), EventFrame.lost s i.val howe hgate⟩
  case lostOwing =>
    intro i h g s hs hhead hlost hgroup hexp hgot
    obtain ⟨pair, y, hdeliver⟩ := State.deliverSample_of_invalid s i.val h g.wedge (flags := 1) (by decide) none
    obtain ⟨n, hslot, hnhead, hwedge, hflags, -, -, hlane⟩ := State.laneIn_sampled (s.draw 2) i.val h g.wedge 1 pair y
    refine ⟨_, execServoLost_of_lost hs hlost, s.srcState_lost i.val, ?_⟩
    rw [State.laneIn_lost, State.lastSample_of_group hs hhead hgroup hexp hgot, hdeliver]
    rw [actOf] at hlane
    rw [hlane, List.map_append, List.map_singleton, hslot, hnhead, hwedge, hflags]
    rfl
  case within => exact fun i s h => ⟨s, execServoLost_of_within h, rfl⟩
  case disabled =>
    intro a j v s hhead hen hmem hs
    have hbit : bit v.toNat 31 = 0 := by
      simp only [hasBit, beq_eq_false_iff_ne, bit] at hen ⊢
      omega
    have hstored := FieldsKept.puts s (sourceWrites a.val j.val v.toNat)
    have hrun := execServoSourceEnable_of_accepted hhead (fun h => absurd h (by simp [hen])) hmem
    rw [State.resumeSrc_stored_of_waiting hmem (.inl hbit)] at hrun
    obtain ⟨hstate, hbytes, hfields⟩ := State.endSrc_of_idle (s := s.puts (sourceWrites a.val j.val v.toNat))
      (i := 4 * a.val + j.val) (by rwa [State.srcState_stored])
    obtain ⟨gen, ghead, gheater⟩ := State.get_stored (by simp [moveFields, searchFields, sourceFields]) hfields
    refine ⟨_, hrun, gen.trans hbit, ghead, gheater, hstate, BytesKept.of_mem (hbytes.trans (State.puts_mem s _)),
      (hstored.mono ?_).trans (hfields.mono ?_)⟩
    · simp [sourceWrites]
    · simp [moveFields, actOf_slot]
  case enabled =>
    intro a j v s hhead hen hothers hdom hmem hfree hspeed
    have hrun := execServoSourceEnable_of_accepted hhead (fun _ => ⟨State.headTaken_of_disabled hothers _, hdom⟩) hmem
    rw [State.resumeSrc_stored_of_ready hmem (eq_of_beq hen) hfree hspeed] at hrun
    obtain ⟨-, hstored, -⟩ := State.get_stored (s := s) (a := a) (j := j) (v := v.toNat) (List.nil_subset _) (FieldsKept.refl _ _)
    obtain ⟨gen, ghead, gheater⟩ := State.get_stored (List.Subset.refl _) (SearchKept.startServoOnly _ _).fields
    obtain ⟨hsrc, hslot⟩ := State.startServoOnly_head_mem (s.puts (sourceWrites a.val j.val v.toNat)) (4 * a.val + j.val)
    rw [actOf_slot, locOf_slot, hstored] at hsrc
    refine ⟨_, hrun, gen.trans (eq_of_beq hen), ghead, gheater, ⟨_, hslot, rfl, ?_, rfl⟩, hsrc⟩
    rw [State.servoMember, actOf_slot, locOf_slot, hstored]
  case waiting =>
    intro a j v s hhead hen hothers hdom hmem hspeed hs
    have hrun := execServoSourceEnable_of_accepted hhead (fun _ => ⟨State.headTaken_of_disabled hothers _, hdom⟩) hmem
    rw [State.resumeSrc_stored_of_waiting hmem (.inr hspeed), State.endSrc_of_off ((s.srcState_stored _ _).trans hs)] at hrun
    obtain ⟨hstored, -, -⟩ := State.get_stored (s := s) (a := a) (j := j) (v := v.toNat) (List.nil_subset _) (FieldsKept.refl _ _)
    exact ⟨_, hrun, hstored.trans (eq_of_beq hen), State.slots_of_tables (State.puts_tables s _),
      State.srcs_of_sensed (State.puts_sensed s _), BytesKept.of_mem (State.puts_mem s _), FieldsKept.puts s _⟩
  case noHead =>
    exact fun a j v s hhead herr => ⟨_, execServoSourceEnable_of_noHead hhead, State.srvReject_of_noError herr (by decide)⟩
  case taken =>
    exact fun a j k v s hhead hen hkj hken hkhead herr =>
      ⟨_, execServoSourceEnable_of_taken hhead hen (State.headTaken_of_enabled hkj hken hkhead),
        (State.srvReject_of_noError herr (by decide)).2⟩
  case unpowered =>
    exact fun a j v s hhead hen hothers hdom herr =>
      ⟨_, execServoSourceEnable_of_unpowered hhead hen (State.headTaken_of_disabled hothers _) hdom,
        (State.srvReject_of_noError herr (by decide)).2⟩
  case wedgeTick =>
    intro stamp i h u k s href hsam hk hwedge hfew
    exact ⟨_, execWedgeTick_of_next href hsam hk hwedge hfew, State.get_put_same s _ _, rfl, rfl, rfl,
      (FieldsKept.refl s _).put _ _ (by simp), BytesKept.of_mem rfl⟩
  case revTick =>
    intro stamp i h u s href hw0 hwedge hsam
    obtain ⟨hget, hfields, hbytes⟩ := s.revolved (stamp - u) ⟨some h, some (stamp, 0), some stamp⟩
    exact ⟨_, execWedgeTick_of_revolution href hw0 hwedge hsam, hget _ _ (.head _), hget _ 0 (.tail _ (.head _)),
      hget _ 1 (.tail _ (.tail _ (.head _))), rfl, hfields, hbytes⟩
  case noTick => exact fun stamp s h => ⟨s, execWedgeTick_of_none h, rfl⟩
  case aged =>
    exact fun s => ⟨_, rfl, (State.get_put_ne _ _ _ (by decide)).trans (State.get_put_same s _ _), State.get_put_same _ _ _,
      ((FieldsKept.refl s _).put _ _ (by simp)).put _ _ (by simp), BytesKept.of_mem rfl⟩

end Sys2Proof.Machine
end

