-- ==== Sys2Proof/Proofs/LaneValues.lean ====
section
/-! SUPPORT. Register values outside their ranges, which the statements on lanes do not exclude: each names a state, and no clause asks
that a field holds a value that its register takes. A command limit above 32,767 (09 R232, Table CTL-11) lets a micro command through
that a message of 16 bits does not hold, and the comparator finds the message apart from the checker's command (R226). An active bank
beyond B (Table CTL-8) puts the coefficients in use behind the two banks that a write reaches (R239). -/

namespace Sys2Proof.Machine

/-! ## A command limit beyond 16 bits -/

/-- A valid sample of head 0 on its reference, of a group that it does not close. -/
def onReference : Sample :=
  { slot := 0, head := 0, wedge := 0, flags := 0, pair := 0, y := 0, ref := none, ended := none, inGroup := false, closes := false }

/-- A copy of a lane whose head 0 has a gain of 1 and a last biquad with the state 2^24. -/
def steepCopy : LaneCopy := { coef := [], live := [(0xE00, 2 ^ 28)], micro := [(14, 2 ^ 40)], vcm := [], integ := 0 }

/-- Lane 0 of a block after reset in TRACK with `onReference` waiting, both copies `steepCopy`, and MA_LIM at 65,535. -/
def wideLimit : State :=
  (((State.reset.put (Reg.CTL_LANE_STATUS_PHASE 0) 3).put (Reg.CTL_LIMITS_MA_LIM 0) 65535).modLane 0
    (·.both fun _ => steepCopy)).setLaneIn [(0, [onReference])]

theorem wideLimit_sample : SMap.get wideLimit.laneIn [] 0 = [onReference] ∧
    ((wideLimit.sampleRef 0 onReference).1 - onReference.y).natAbs ≤ wideLimit.eff 0 (Reg.CTL_WU_THR 0) := by decide +kernel

theorem wideLimit_running : wideLimit.phase 0 = 3 ∧ wideLimit.clkOk 20 = true := by decide +kernel

theorem wideLimit_learner : wideLimit.eff 0 (Reg.CTL_LRN_CTL_APPLY0 0) = 0 ∧ wideLimit.eff 0 (Reg.CTL_LRN_CTL_APPLY1 0) = 0 ∧
    wideLimit.eff 0 (Reg.CTL_LRN_CTL_LEARN 0) = 0 ∧ wideLimit.sramFlips 16 0 = 0 := by decide +kernel

theorem wideLimit_copies : (wideLimit.lane 0).statesAgree = true ∧ (wideLimit.lane 0).coefsAgree = true ∧
    hasBit (wideLimit.lane 0).heldHeads 0 = false := by decide +kernel

/-- Both copies command 65,535, which the message carries as -1: a compare fault. -/
theorem phase_laneJob_wideLimit : (wideLimit.laneJob 0 none).phase 0 = 5 := by decide +kernel

theorem execMicroJob_of_clock {a : Fin 4} {s : State} (h : s.clkOk 20 = true) : execMicroJob a s = .next (s.laneJob a.val none) := by
  simp only [execMicroJob, State.when, h, if_true]

/-- Refutes O22: its first clause has the lane stay in TRACK with the command limited to MA_LIM sent, and from `wideLimit` the job ends
in FAULT. -/
theorem not_controlLanes : ¬ Obligations.ControlLanes := by
  unfold Obligations.ControlLanes
  rintro ⟨hvalid, -⟩
  obtain ⟨hin, hwithin⟩ := wideLimit_sample
  obtain ⟨hphase, hclk⟩ := wideLimit_running
  obtain ⟨happly0, happly1, hlearn, hflips⟩ := wideLimit_learner
  obtain ⟨hstates, hcoefs, hheld⟩ := wideLimit_copies
  obtain ⟨t, hrun, -, -, -, -, -, -, htrack, -⟩ := hvalid 0 onReference [] wideLimit hin rfl rfl (by decide) rfl hphase hclk happly0
    happly1 hlearn hflips hwithin hstates hcoefs hheld
  have hjob : t = wideLimit.laneJob 0 none := Host.Outcome.next.inj (hrun.symm.trans (execMicroJob_of_clock (a := 0) hclk))
  rw [hjob] at htrack
  exact absurd (phase_laneJob_wideLimit.symm.trans htrack) (by decide)

/-! ## A bank beyond B -/

/-- A block after reset whose lane 0, which is OFF, names bank 2 as its active one. -/
def thirdBank : State := State.reset.setF [((Reg.CTL_LANE_STATUS_BANK 0).key, 2)]

theorem thirdBank_off : thirdBank.get (Reg.CTL_LANE_STATUS_BANK 0) = 2 ∧ thirdBank.phase 0 = 0 ∧ (thirdBank.lane 0).sw = none := by
  decide +kernel

theorem thirdBank_live : SMap.get (thirdBank.lane 0).live 0 0 = 0 := by decide +kernel

/-- A write behind the banks reaches none (R239). -/
theorem State.coefWrite_of_outside (s : State) (a v : Nat) {o : Nat} (h : 0x4000 ≤ o) : s.coefWrite a o v = s :=
  if_pos (.inr h)

/-- Refutes O24: its fourth clause has a write at the active bank's offset in use at once, and in `thirdBank` that offset, 0x4000, lies
behind both banks, so that the write does nothing. -/
theorem not_laneData : ¬ Obligations.LaneData := by
  unfold Obligations.LaneData
  rintro ⟨-, -, -, hlanded, -⟩
  obtain ⟨hbank, hoff, hsw⟩ := thirdBank_off
  obtain ⟨t, hrun, hlive, -⟩ := hlanded 0 0x4000 1 thirdBank (congrArg (2 + ·) hbank.symm) (by decide) hoff hsw
  have hsame : t = thirdBank :=
    Host.Outcome.next.inj (hrun.symm.trans (congrArg _ (State.coefWrite_of_outside thirdBank 0 1 (Nat.le_refl 0x4000))))
  rw [hsame] at hlive
  exact absurd (thirdBank_live.symm.trans hlive) (by decide)

end Sys2Proof.Machine
end

