-- ==== Sys2Proof/Proofs/GateReach.lean ====
section
/-! SUPPORT. How far events and dropped gates reach (20 R510 to R515; 06 R166): the registers, the buffer, the recorder, the Soundpost, the
media, the slots, the formatters and the blocks on their way. All else of the state is as it was: the sources, the lanes with their
samples, the power die, the PES and compare sources of the lanes. -/

namespace Sys2Proof.Machine

/-- The state apart from what an event or a dropped gate can change. -/
def State.apart (s : State) : State :=
  { s with f := [], free := 0, out := [], mem := [], chk := [], evr := State.reset.evr, buf := State.reset.buf, spt := State.reset.spt
           media := State.reset.media, slots := [], fmts := [], cache := [] }

@[simp] theorem State.ite_apart (c : Prop) [Decidable c] (s t : State) :
    (if c then s else t).apart = if c then s.apart else t.apart :=
  apply_ite _ _ _ _

@[simp] theorem State.put_apart (s : State) (F : Field) (v : Nat) : (s.put F v).apart = s.apart := rfl
@[simp] theorem State.inc_apart (s : State) (F : Field) : (s.inc F).apart = s.apart := rfl
@[simp] theorem State.setBitOf_apart (s : State) (F : Field) (i : Nat) : (s.setBitOf F i).apart = s.apart := rfl
@[simp] theorem State.put64_apart (s : State) (lo hi : Field) (v : Nat) : (s.put64 lo hi v).apart = s.apart := rfl
@[simp] theorem State.draw_apart (s : State) (n : Nat) : (s.draw n).apart = s.apart := rfl
@[simp] theorem State.emit_apart (s : State) (o : Out) : (s.emit o).apart = s.apart := rfl
@[simp] theorem State.setEvr_apart (s : State) (x : Evr) : (s.setEvr x).apart = s.apart := rfl
@[simp] theorem State.putBucket_apart (s : State) (code : Nat) (b : Bucket) : (s.putBucket code b).apart = s.apart := rfl
@[simp] theorem State.setChk_apart (s : State) (x : SMap Nat) : (s.setChk x).apart = s.apart := rfl
@[simp] theorem State.setByte_apart (s : State) (a : Nat) (b : Byte) : (s.setByte a b).apart = s.apart := rfl
@[simp] theorem State.modSlot_apart (s : State) (i : Nat) (g : Slot → Slot) : (s.modSlot i g).apart = s.apart := rfl
@[simp] theorem State.modRun_apart (s : State) (a rid : Nat) (g : Run → Run) : (s.modRun a rid g).apart = s.apart := rfl

theorem State.each_apart {α : Type} {g : State → α → State} (h : ∀ s x, (g s x).apart = s.apart) (xs : List α) (s : State) :
    (s.each xs g).apart = s.apart :=
  List.foldlRecOn (motive := fun t : State => t.apart = s.apart) xs g rfl fun t ht x _ => (h t x).trans ht

/-! ## The buffer (12 R312, R313, R318) -/

@[simp] theorem State.readBurst_apart (s : State) (b : Nat) : (s.readBurst b).2.apart = s.apart := by
  unfold State.readBurst
  split
  · rfl
  · simp [State.fixBurst]
  · simp

@[simp] theorem State.readBursts_apart (s : State) (bs : List Nat) : (s.readBursts bs).2.apart = s.apart := by
  induction bs generalizing s with
  | nil => rfl
  | cons b bs ih => exact (ih _).trans (s.readBurst_apart b)

@[simp] theorem State.bufRead_apart (s : State) (cls a n : Nat) : (s.bufRead cls a n).2.apart = s.apart := by
  unfold State.bufRead
  split
  · exact State.readBursts_apart _ _
  · rfl

@[simp] theorem State.writeBurst_apart (s : State) (b lo hi v : Nat) : (s.writeBurst b lo hi v).2.apart = s.apart := by
  unfold State.writeBurst
  split
  · rfl
  · dsimp only
    split <;> exact s.readBurst_apart b

@[simp] theorem State.writeBursts_apart (s : State) (a n v : Nat) (bs : List Nat) :
    (s.writeBursts a n v bs).2.apart = s.apart := by
  induction bs generalizing s with
  | nil => rfl
  | cons b bs ih => exact (ih _).trans (State.writeBurst_apart s b _ _ _)

@[simp] theorem State.bufWrite_apart (s : State) (cls a v n : Nat) : (s.bufWrite cls a v n).2.apart = s.apart := by
  unfold State.bufWrite
  split
  · exact State.writeBursts_apart _ a n v _
  · rfl

@[simp] theorem State.sramRewrite_apart (s : State) (inst word : Nat) : (s.sramRewrite inst word).apart = s.apart := rfl

@[simp] theorem State.sramRead_apart (s : State) (inst word : Nat) : (s.sramRead inst word).2.apart = s.apart := by
  unfold State.sramRead
  split <;> rfl

/-! ## Events (20 R510 to R515) -/

@[simp] theorem State.rateLimit_apart (s : State) (code severity : Nat) : (s.rateLimit code severity).2.apart = s.apart := by
  unfold State.rateLimit
  repeat' split
  all_goals simp

@[simp] theorem State.place_apart (s : State) (r : EvRec) : (s.place r).apart = s.apart := by
  simp [State.place, State.ringRecord]

@[simp] theorem State.wait_apart (s : State) (r : EvRec) : (s.wait r).apart = s.apart := by
  simp [State.wait]

@[simp] theorem State.raise_apart (s : State) (code unit : Nat) : (s.raise code unit).apart = s.apart := by
  unfold State.raise State.raiseWith
  dsimp only
  split <;> simp

/-! ## The end of a sector (06 R166; 11 R282) -/

@[simp] theorem State.finalStatus_apart (s : State) (a rid idx st : Nat) : (s.finalStatus a rid idx st).apart = s.apart := by
  unfold State.finalStatus State.writeStatus
  dsimp only
  split
  · split
    · split <;> simp
    · rfl
  · rfl

@[simp] theorem State.missSector_apart (s : State) (a rid idx : Nat) (limited : Bool) :
    (s.missSector a rid idx limited).apart = s.apart := by
  unfold State.missSector
  dsimp only
  split
  · split <;> rfl
  · rfl

theorem State.freeWin_apart (s : State) (i : Nat) : (s.freeWin i).apart = s.apart := by
  unfold State.freeWin State.putWindow
  dsimp only
  split <;> rfl

theorem State.freeHeld_apart (s : State) (nsid lba : Nat) (older : Nat → WinEntry → Bool) :
    (s.freeHeld nsid lba older).apart = s.apart :=
  State.each_apart (g := State.dropWin) (fun t i => t.freeWin_apart i) _ s

theorem State.unfail_apart (s : State) (nsid lba : Nat) : (s.unfail nsid lba).apart = s.apart := by
  unfold State.unfail State.putMeta
  split <;> rfl

theorem State.blockDone_apart (s : State) (addr : Nat) : (s.blockDone addr).apart = s.apart := by
  unfold State.blockDone
  split
  · rfl
  · dsimp only
    split
    · exact (State.unfail_apart _ _ _).trans ((State.freeHeld_apart _ _ _ _).trans (State.freeWin_apart _ _))
    · exact (State.unfail_apart _ _ _).trans (State.freeHeld_apart _ _ _ _)

@[simp] theorem State.blockWritten_apart (s : State) (addr : Nat) : (s.blockWritten addr).apart = s.apart := by
  unfold State.blockWritten
  split
  · rfl
  · split
    · rfl
    · exact s.blockDone_apart addr

/-! ## Drops and the sources that rise (06 R165, R166) -/

@[simp] theorem State.fragDone_apart (s : State) (i : Nat) (w : WrSect) : (s.fragDone i w).apart = s.apart := by
  simp [State.fragDone, State.sectorWritten]

@[simp] theorem State.abortSector_apart (s : State) (i : Nat) (w : WrSect) : (s.abortSector i w).apart = s.apart := by
  simp [State.abortSector]

@[simp] theorem State.dropGate_apart (s : State) (i : Nat) : (s.dropGate i).apart = s.apart := by
  unfold State.dropGate
  dsimp only
  split
  · split
    · simp [State.closeGate]
    · simp [State.closeGate]
  · rfl

@[simp] theorem State.riseSource_apart (s : State) (b : Nat) (scope : List Nat) : (s.riseSource b scope).apart = s.apart :=
  State.each_apart (fun t i => by simp) scope s

end Sys2Proof.Machine
end

