-- ==== Sys2Proof/Proofs/LaneRules.lean ====
section
/-! SUPPORT. What the shared operations on lanes do (09 R226, R231, R246, R249, R251): the PES source that rises, a phase that is
entered, and a compare fault. -/

namespace Sys2Proof.Machine

/-! ## Reads after a change -/

theorem State.lanes_of_apart {s t : State} (h : t.apart = s.apart) : t.lanes = s.lanes := (congrArg State.lanes h :)
theorem State.laneIn_of_apart {s t : State} (h : t.apart = s.apart) : t.laneIn = s.laneIn := (congrArg State.laneIn h :)
theorem State.spn_of_apart {s t : State} (h : t.apart = s.apart) : t.spn = s.spn := (congrArg State.spn h :)
theorem State.pesSrc_of_apart {s t : State} (h : t.apart = s.apart) : t.pesSrc = s.pesSrc := (congrArg State.pesSrc h :)
theorem State.cmpSrc_of_apart {s t : State} (h : t.apart = s.apart) : t.cmpSrc = s.cmpSrc := (congrArg State.cmpSrc h :)

@[simp] theorem State.lane_modLane_same (s : State) (a : Nat) (g : Lane → Lane) : (s.modLane a g).lane a = g (s.lane a) :=
  SMap.get_put_same s.lanes laneInit a _

theorem State.lane_congr {s t : State} (h : t.lanes = s.lanes) (a : Nat) : t.lane a = s.lane a := by
  rw [State.lane, State.lane, h]

@[simp] theorem State.lane_put (s : State) (F : Field) (v a : Nat) : (s.put F v).lane a = s.lane a := rfl

/-- A lane that runs is in SEEK, SETTLE or TRACK. -/
theorem State.phase_of_laneRuns {s : State} {a : Nat} (h : s.laneRuns a = true) : s.phase a = 1 ∨ s.phase a = 2 ∨ s.phase a = 3 := by
  simp only [State.laneRuns, Bool.and_eq_true, Bool.or_eq_true, beq_iff_eq, or_assoc] at h
  exact h.2

theorem State.laneRuns_of_phase {s : State} {a : Nat} (h1 : s.phase a ≠ 1) (h2 : s.phase a ≠ 2) (h3 : s.phase a ≠ 3) :
    s.laneRuns a = false := by
  simp [State.laneRuns, h1, h2, h3]

/-! ## The registers of the control engine -/

/-- Every field of the control engine's registers but those listed is as it was (00, the register map). -/
def ControlKept (s t : State) (K : List Field) : Prop :=
  ∀ F : Field, 0x40d80000 ≤ F.addr → F.key ∉ K.map Field.key → t.get F = s.get F

theorem ControlKept.refl (s : State) (K : List Field) : ControlKept s s K := fun _ _ _ => rfl

theorem ControlKept.trans {s t u : State} {K : List Field} (h : ControlKept s t K) (k : ControlKept t u K) : ControlKept s u K :=
  fun F ha hF => (k F ha hF).trans (h F ha hF)

theorem ControlKept.mono {s t : State} {K L : List Field} (h : ControlKept s t K) (hKL : K ⊆ L) : ControlKept s t L :=
  fun F ha hF => h F ha fun hK => hF (List.map_subset _ hKL hK)

theorem ControlKept.of_f {s t : State} (h : t.f = s.f) (K : List Field) : ControlKept s t K := fun F _ _ => State.get_of_f h F

theorem ControlKept.put {s t : State} {K : List Field} (h : ControlKept s t K) {F : Field} (hF : F ∈ K) (v : Nat) :
    ControlKept s (t.put F v) K :=
  fun G ha hG => (State.get_put_ne t F v fun e => hG (e ▸ List.mem_map_of_mem hF)).trans (h G ha hG)

/-- A change of fields below the control engine's registers. -/
theorem ControlKept.of_below {s t : State} {L : List Field} (h : FieldsKept s t L)
    (hL : ∀ n ∈ L.map Field.key, n < 0x40d80000 * 32) (K : List Field) : ControlKept s t K := by
  intro F ha _
  refine h F fun hF => ?_
  have hlow := hL _ hF
  simp only [Field.key] at hlow
  omega

theorem ControlKept.raise (s : State) (code unit : Nat) (K : List Field) : ControlKept s (s.raise code unit) K :=
  .of_below (EventFrame.raise s code unit).1 (by decide) K

theorem riseFields_below {a i : Nat} (ha : a < 4) (hi : i ∈ slotsOf a) : ∀ n ∈ (riseFields i).map Field.key, n < 0x40d80000 * 32 := by
  simp only [slotsOf, List.mem_cons, List.not_mem_nil, or_false] at hi
  intro n hn
  simp only [riseFields_keys, dropFields_keys, bufErrorFields_keys, List.cons_append, List.nil_append, List.mem_cons,
    List.not_mem_nil, or_false] at hn
  omega

theorem ControlKept.riseSource {a b : Nat} (ha : a < 4) (hb : b ≠ 3) (s : State) (K : List Field) :
    ControlKept s (s.riseSource b (slotsOf a)) K := by
  refine .of_below (GatesKept.riseSource s hb (slotsOf a)).fields (fun n hn => ?_) K
  obtain ⟨F, hF, rfl⟩ := List.mem_map.mp hn
  obtain ⟨i, hi, hFi⟩ := List.mem_flatMap.mp hF
  exact riseFields_below ha hi _ (List.mem_map_of_mem hFi)

/-! ## The PES source (R249) -/

theorem State.pesRaise_apart (s : State) (a : Nat) : (s.pesRaise a).apart = (s.setPesSrc (setBit s.pesSrc a)).apart := by
  unfold State.pesRaise
  dsimp only
  split <;> simp

/-- A source that is up already only has its bit set. -/
theorem State.pesRaise_of_up {s : State} {a : Nat} (h : s.phase a ≠ 3) : s.pesRaise a = s.setPesSrc (setBit s.pesSrc a) := by
  have hup : s.pesUp a = true := by simp [State.pesUp, h]
  simp only [State.pesRaise, hup, if_true]

theorem State.pesRaise_lanes (s : State) (a : Nat) : (s.pesRaise a).lanes = s.lanes :=
  (State.lanes_of_apart (s.pesRaise_apart a) :)
theorem State.pesRaise_laneIn (s : State) (a : Nat) : (s.pesRaise a).laneIn = s.laneIn :=
  (State.laneIn_of_apart (s.pesRaise_apart a) :)
theorem State.pesRaise_spn (s : State) (a : Nat) : (s.pesRaise a).spn = s.spn :=
  (State.spn_of_apart (s.pesRaise_apart a) :)

theorem State.hasBit_pesRaise (s : State) (a : Nat) : hasBit (s.pesRaise a).pesSrc a = true := by
  rw [State.pesSrc_of_apart (s.pesRaise_apart a)]
  exact hasBit_setBit_same _ a

theorem ControlKept.pesRaise {a : Nat} (ha : a < 4) (s : State) : ControlKept s (s.pesRaise a) [Reg.CTL_WU_CNT_COUNT a] := by
  have hsrc : ControlKept s (s.setPesSrc (setBit s.pesSrc a)) [Reg.CTL_WU_CNT_COUNT a] := .of_f (State.setPesSrc_f s _) _
  unfold State.pesRaise
  dsimp only
  split
  · exact hsrc
  · exact (hsrc.put (List.mem_singleton_self _) _).trans (ControlKept.riseSource ha (by decide) _ _)

/-! ## Phases (R246, Table CTL-8) -/

/-- The fields that a phase's entry can change. -/
def phaseFields (a : Nat) : List Field := [Reg.CTL_WU_CNT_COUNT a, Reg.CTL_LANE_STATUS_PHASE a]

section Enter
variable {a v : Nat} (s : State)

/-- A phase other than SETTLE and TRACK raises the PES source and is written. -/
theorem State.enterPhase_of_off (h2 : v ≠ 2) (h3 : v ≠ 3) :
    s.enterPhase a v = (s.pesRaise a).put (Reg.CTL_LANE_STATUS_PHASE a) v := by
  simp only [State.enterPhase, if_neg h2, if_neg h3]

theorem State.phase_put (a v : Nat) : (s.put (Reg.CTL_LANE_STATUS_PHASE a) v).phase a = v % 8 := State.get_put_same s _ v

theorem ControlKept.enterPhase (ha : a < 4) (h2 : v ≠ 2) (h3 : v ≠ 3) : ControlKept s (s.enterPhase a v) (phaseFields a) := by
  rw [State.enterPhase_of_off s h2 h3]
  exact ((ControlKept.pesRaise ha s).mono (by simp [phaseFields])).put (by simp [phaseFields]) v

end Enter

/-! ## Compare faults (R226, R251) -/

/-- The fields that a compare fault can change. -/
def faultFields (a : Nat) : List Field := [Reg.CTL_LANE_STATUS_CMP a, Reg.CTL_LANE_STATUS_CMP_SRC a] ++ phaseFields a

/-- The registers of a mismatch, before its messages. -/
def State.markFault (s : State) (a src : Nat) : State :=
  ((s.put (Reg.CTL_LANE_STATUS_CMP a) 1).put (Reg.CTL_LANE_STATUS_CMP_SRC a) src).enterPhase a 5

theorem State.markFault_eq (s : State) (a src : Nat) : s.markFault a src =
    (((s.put (Reg.CTL_LANE_STATUS_CMP a) 1).put (Reg.CTL_LANE_STATUS_CMP_SRC a) src).pesRaise a).put
      (Reg.CTL_LANE_STATUS_PHASE a) 5 :=
  State.enterPhase_of_off _ (by decide) (by decide)

/-- The messages of a mismatch: the bit of its source, a STOP to the power die, the gates of the actuator's slots, the event. -/
theorem State.compareFault_eq (s : State) (a src : Nat) : s.compareFault a src =
    ((((((s.markFault a src).setCmpSrc (setBit (s.markFault a src).cmpSrc a)).d2dSend a 13 0).emit (.laneStop a)).riseSource 8
      (slotsOf a)).emit (.rtInterrupt 4)).raise 0x0404 a := rfl

section Fault
variable (s : State) {a : Nat} (src : Nat)

theorem State.compareFault_apart (a : Nat) : (s.compareFault a src).apart =
    (((s.markFault a src).setCmpSrc (setBit (s.markFault a src).cmpSrc a)).d2dSend a 13 0).apart := by
  rw [State.compareFault_eq]
  simp

theorem State.compareFault_lanes (a : Nat) : (s.compareFault a src).lanes = s.lanes := by
  rw [State.lanes_of_apart (s.compareFault_apart src a), State.markFault_eq]
  exact State.pesRaise_lanes _ a

theorem State.compareFault_laneIn (a : Nat) : (s.compareFault a src).laneIn = s.laneIn := by
  rw [State.laneIn_of_apart (s.compareFault_apart src a), State.markFault_eq]
  exact State.pesRaise_laneIn _ a

theorem State.compareFault_d2d (a : Nat) : (s.compareFault a src).spn.d2d = s.spn.d2d ++ [(a, 13, 0)] := by
  rw [State.spn_of_apart (s.compareFault_apart src a), State.markFault_eq]
  exact congrArg (fun p : Spn => p.d2d ++ [(a, 13, 0)]) (State.pesRaise_spn _ a)

theorem State.hasBit_cmpSrc_compareFault (a : Nat) : hasBit (s.compareFault a src).cmpSrc a = true := by
  rw [State.cmpSrc_of_apart (s.compareFault_apart src a)]
  exact hasBit_setBit_same _ a

theorem State.hasBit_pesSrc_compareFault (a : Nat) : hasBit (s.compareFault a src).pesSrc a = true := by
  rw [State.pesSrc_of_apart (s.compareFault_apart src a), State.markFault_eq]
  exact State.hasBit_pesRaise _ a

variable (ha : a < 4)
include ha

/-- The messages change no field of the control engine. -/
theorem ControlKept.compareFault_markFault : ControlKept (s.markFault a src) (s.compareFault a src) [] := by
  have hsent : ControlKept (s.markFault a src)
      ((((s.markFault a src).setCmpSrc (setBit (s.markFault a src).cmpSrc a)).d2dSend a 13 0).emit (.laneStop a)) [] := .of_f rfl _
  rw [State.compareFault_eq]
  exact (hsent.trans (ControlKept.riseSource ha (by decide) _ _)).trans
    ((ControlKept.of_f (State.emit_f _ _) _).trans (ControlKept.raise _ _ _ _))

theorem ControlKept.compareFault : ControlKept s (s.compareFault a src) (faultFields a) := by
  have hmark : ControlKept s (s.markFault a src) (faultFields a) :=
    (((ControlKept.refl s _).put (by simp [faultFields]) 1).put (by simp [faultFields]) src).trans
      ((ControlKept.enterPhase _ ha (by decide) (by decide)).mono (List.subset_append_right _ _))
  exact hmark.trans ((ControlKept.compareFault_markFault s src ha).mono (List.nil_subset _))

/-- What CTL_LANE_STATUS shows of a mismatch. -/
theorem State.status_markFault : (s.markFault a src).phase a = 5 ∧ (s.markFault a src).get (Reg.CTL_LANE_STATUS_CMP a) = 1 ∧
    (s.markFault a src).get (Reg.CTL_LANE_STATUS_CMP_SRC a) = src % 4 := by
  have hraised := ControlKept.pesRaise ha ((s.put (Reg.CTL_LANE_STATUS_CMP a) 1).put (Reg.CTL_LANE_STATUS_CMP_SRC a) src)
  rw [State.markFault_eq]
  refine ⟨State.phase_put _ a 5, ?_, ?_⟩
  · rw [State.get_put_ne, hraised, State.get_put_ne, State.get_put_same]
    all_goals
      simp only [Field.key, Reg.CTL_LANE_STATUS_PHASE, Reg.CTL_LANE_STATUS_CMP, Reg.CTL_LANE_STATUS_CMP_SRC, Reg.CTL_WU_CNT_COUNT,
        List.map_cons, List.map_nil, List.mem_singleton]
      omega
  · rw [State.get_put_ne, hraised, State.get_put_same]
    all_goals
      simp only [Field.key, Reg.CTL_LANE_STATUS_PHASE, Reg.CTL_LANE_STATUS_CMP_SRC, Reg.CTL_WU_CNT_COUNT, List.map_cons, List.map_nil,
        List.mem_singleton]
      omega

theorem State.status_compareFault : (s.compareFault a src).phase a = 5 ∧ (s.compareFault a src).get (Reg.CTL_LANE_STATUS_CMP a) = 1 ∧
    (s.compareFault a src).get (Reg.CTL_LANE_STATUS_CMP_SRC a) = src % 4 := by
  obtain ⟨hphase, hcmp, hsource⟩ := s.status_markFault src ha
  have hsent := fun F hF => ControlKept.compareFault_markFault s src ha F hF List.not_mem_nil
  refine ⟨(hsent _ ?_).trans hphase, (hsent _ ?_).trans hcmp, (hsent _ ?_).trans hsource⟩
  all_goals
    simp only [Reg.CTL_LANE_STATUS_PHASE, Reg.CTL_LANE_STATUS_CMP, Reg.CTL_LANE_STATUS_CMP_SRC]
    omega

/-- What a mismatch leaves: FAULT with its source shown, its PES and compare sources raised and a STOP sent. -/
structure Faulted (s t : State) (a src : Nat) : Prop where
  phase : t.phase a = 5
  cmp : t.get (Reg.CTL_LANE_STATUS_CMP a) = 1
  source : t.get (Reg.CTL_LANE_STATUS_CMP_SRC a) = src % 4
  cmpSrc : hasBit t.cmpSrc a = true
  pesSrc : hasBit t.pesSrc a = true
  laneIn : t.laneIn = s.laneIn
  d2d : t.spn.d2d = s.spn.d2d ++ [(a, 13, 0)]

theorem Faulted.compareFault : Faulted s (s.compareFault a src) a src :=
  have ⟨hphase, hcmp, hsource⟩ := s.status_compareFault src ha
  ⟨hphase, hcmp, hsource, s.hasBit_cmpSrc_compareFault src a, s.hasBit_pesSrc_compareFault src a, s.compareFault_laneIn src a,
    s.compareFault_d2d src a⟩

end Fault

/-- A closed group is counted after a mismatch as before it. -/
theorem Faulted.whenInc {s t : State} {a src : Nat} (h : Faulted s t a src) (b : Bool) :
    Faulted s (t.when b (·.inc (Reg.CTL_GROUPS_COUNT a))) a src := by
  cases b
  · exact h
  · have hkept : ∀ F : Field, F.key ≠ (Reg.CTL_GROUPS_COUNT a).key → (t.inc (Reg.CTL_GROUPS_COUNT a)).get F = t.get F :=
      fun F hF => State.get_incBy_ne t _ 1 hF
    refine ⟨(hkept _ ?_).trans h.phase, (hkept _ ?_).trans h.cmp, (hkept _ ?_).trans h.source, h.cmpSrc, h.pesSrc, h.laneIn, h.d2d⟩
    all_goals
      simp only [Field.key, Reg.CTL_GROUPS_COUNT, Reg.CTL_LANE_STATUS_PHASE, Reg.CTL_LANE_STATUS_CMP, Reg.CTL_LANE_STATUS_CMP_SRC]
      omega

end Sys2Proof.Machine
end

