-- ==== Sys2Proof/Proofs/MicroJobs.lean ====
section
/-! SUPPORT. The micro job (09 R226, R229, R232 to R234, R243, R244, R249) in four steps: the sample is noted, the learner
written, the error judged and the filters run, and the comparator ends it. -/

namespace Sys2Proof.Machine

/-! ## Inverted bits (R226) -/

theorem ofSigned_toSigned (w n : Nat) : ofSigned w (toSigned w n) = n % 2 ^ w := by
  have hmod : ((n % 2 ^ w : Nat) : Int) % (2 ^ w : Nat) = (n % 2 ^ w : Nat) := by
    rw [← Int.natCast_mod, Nat.mod_mod]
  unfold toSigned ofSigned
  split
  · rw [hmod, Int.toNat_natCast]
  · rw [Int.sub_emod_right, hmod, Int.toNat_natCast]

theorem xor_ne_self {n k : Nat} (h : k ≠ 0) : n ^^^ k ≠ n := fun e =>
  h (Nat.xor_right_injective (x := n) (e.trans (Nat.xor_zero n).symm))

/-- A value with bits inverted is another one. -/
theorem flipSigned_ne {w mask : Nat} (v : Int) (h : mask % 2 ^ w ≠ 0) : flipSigned w v mask ≠ v := by
  intro e
  have hbits : ofSigned w v ^^^ mask % 2 ^ w < 2 ^ w :=
    Nat.xor_lt_two_pow ((Int.toNat_lt_of_ne_zero (by positivity)).mpr (Int.emod_lt_of_pos _ (by positivity)))
      (Nat.mod_lt _ (by positivity))
  have hsame := congrArg (ofSigned w) e
  rw [flipSigned, ofSigned_toSigned, Nat.mod_eq_of_lt hbits] at hsame
  exact xor_ne_self h hsame

/-! ## The copies of a lane (R225) -/

/-- Both copies of a lane. -/
def Lane.copies (l : Lane) : LaneCopy × LaneCopy := (l.main, l.chk)

theorem Lane.statesAgree_congr {l k : Lane} (h : k.copies = l.copies) : k.statesAgree = l.statesAgree :=
  congrArg (fun c : LaneCopy × LaneCopy => c.1.micro == c.2.micro && c.1.vcm == c.2.vcm && c.1.integ == c.2.integ) h

theorem Lane.coefsAgree_congr {l k : Lane} (h : k.copies = l.copies) : k.coefsAgree = l.coefsAgree :=
  congrArg (fun c : LaneCopy × LaneCopy => c.1.coef == c.2.coef && c.1.live == c.2.live) h

/-- Where the copies agree the checker copy is the main one. -/
theorem Lane.checker_of_agree {l : Lane} (hs : l.statesAgree = true) (hc : l.coefsAgree = true) : l.checker = l := by
  simp only [Lane.statesAgree, Lane.coefsAgree, Bool.and_eq_true, beq_iff_eq] at hs hc
  obtain ⟨⟨hmicro, hvcm⟩, hinteg⟩ := hs
  obtain ⟨hcoef, hlive⟩ := hc
  rw [Lane.checker, Lane.withMain, ← hcoef, ← hlive, ← hmicro, ← hvcm, ← hinteg]

/-! ## The steps of a micro job -/

section Steps
variable (s : State) (a : Nat) (m : Sample) (up : Option LaneUpset)

/-- The learner word of the sample's wedge. -/
def State.jobWord : Nat × State := s.learnerRead a (512 * m.head + m.wedge % 512)

/-- L0 or L1 as the job applies it, in bits [hi:lo] of the word. -/
def State.jobCorrection (F : Nat → Field) (hi lo : Nat) : Int :=
  if (s.phase a != 1) && (s.jobWord a m).2.eff a (F a) == 1 then toSigned 16 (bits (s.jobWord a m).1 hi lo) else 0

/-- e of the sample; of an invalid one the head's last. -/
def State.jobError : Int :=
  if decide (m.flags = 0) then (s.sampleRef a m).1 - m.y - s.jobCorrection a m Reg.CTL_LRN_CTL_APPLY1 31 16
  else SMap.get ((s.jobWord a m).2.lane a).eLast 0 m.head

/-- The head's e and its run of invalid samples. -/
def Lane.noted (l : Lane) (m : Sample) (e : Int) : Lane :=
  if decide (m.flags = 0) then
    { l with eLast := SMap.put l.eLast 0 m.head e, inv := SMap.put l.inv 0 m.head 0, heldHeads := clrBit l.heldHeads m.head }
  else { l with inv := SMap.upd l.inv 0 m.head (· + 1) }

/-- A sample with its e noted in its lane and in its CTL_EH. -/
def State.noteSample (e : Int) : State :=
  ((s.modLane a (·.noted m e)).putB (Reg.CTL_EH_VALID a (locOf m.slot)) (decide (m.flags = 0))).put
    (Reg.CTL_EH_EH a (locOf m.slot)) (ofSigned 24 (satSigned 24 e))

def State.jobNoted : State := (s.jobWord a m).2.noteSample a m (s.jobError a m)

/-- The learner takes the sample. -/
def State.jobLearns : Bool :=
  let t := s.jobNoted a m
  let learns := t.eff a (Reg.CTL_LRN_CTL_LEARN a)
  s.phase a == 3 && decide (m.flags = 0) && hasBit (t.get (Reg.CTL_LRN_HEADS_MASK a)) m.head && (learns == 1 || learns == 2)

def State.jobLearnt : State :=
  if s.jobLearns a m then (s.jobNoted a m).learn a m.head m.wedge (s.jobError a m) (writeBackFlip up) else s.jobNoted a m

/-- A bad sample raises the PES source. -/
def State.jobJudged : State :=
  let t := s.jobLearnt a m up
  if !decide (m.flags = 0) || decide (t.eff a (Reg.CTL_WU_THR a) < (s.jobError a m).natAbs) then
    (t.pesRaise a).modLane a (fun l => { l with clean := 0, dirty := true })
  else t

/-- What a copy of the lane, as `l` runs it, makes of the job. -/
def State.jobCopy (l : Lane) : Int × Int × SMap Int × Nat :=
  microCopy l (s.phase a == 1) m.head (s.jobError a m) (s.jobCorrection a m Reg.CTL_LRN_CTL_APPLY0 15 0)
    ((s.jobJudged a m up).eff a (Reg.CTL_LIMITS_MA_LIM a))

/-- The lane after its filters, with `f` from the main copy and `g` from the checker. -/
def Lane.filtered (l : Lane) (m : Sample) (e off : Int) (f g : Int × Int × SMap Int × Nat) : Lane :=
  { l with
    micro := f.2.2.1, chk := { l.chk with micro := g.2.2.1 }, u := SMap.put l.u 0 m.head f.2.1, bound := false
    recs := if m.inGroup then SMap.upd l.recs [] (512 * (m.head % 2) + m.wedge % 512)
      (· ++ [⟨m.head, decide (m.flags = 0) && !hasBit l.heldHeads m.head, e, m.y, f.2.1, off⟩]) else l.recs }

/-- Both copies have run the filters. -/
def State.jobFiltered : State :=
  let t := s.jobJudged a m up
  let f := s.jobCopy a m up (t.lane a)
  let g := s.jobCopy a m up (t.lane a).checker
  (t.incBy (Reg.CTL_SAT_COUNT a) (f.2.2.2 + b2n (f.2.1 != f.1))).modLane a (·.filtered m (s.jobError a m) (s.sampleRef a m).2 f g)

/-- The comparator's decision ends the job. -/
theorem State.microJob_eq : s.microJob a m up =
    let t := s.jobJudged a m up
    let f := s.jobCopy a m up (t.lane a)
    let g := s.jobCopy a m up (t.lane a).checker
    let u := s.jobFiltered a m up
    if s.jobLearns a m && writeBackFlip up != 0 then u.compareFault a 1
    else if flipSigned 16 f.2.1 (messageFlip up) ≠ g.2.1 then u.compareFault a 0
    else if !(u.lane a).statesAgree then u.compareFault a 1
    else u.d2dSend a m.head f.2.1 := rfl

end Steps

/-! ## What the steps leave -/

/-- The fields of the control engine that a job can change beside those of its sample. -/
def jobFields (a : Nat) : List Field :=
  [Reg.CTL_SAT_COUNT a, Reg.CTL_LRN_ERR_CE a, Reg.CTL_LRN_ERR_UE a, Reg.CTL_LRN_ERR_ADDR a] ++ faultFields a

/-- A step of a job: no sample is taken, no message sent, and a PES source that is up stays up. -/
structure JobStep (s t : State) (a : Nat) : Prop where
  fields : ControlKept s t (jobFields a)
  laneIn : t.laneIn = s.laneIn
  spn : t.spn = s.spn
  pes : hasBit s.pesSrc a = true → hasBit t.pesSrc a = true

/-- What a job keeps of its lane once the sample is noted and before the filters run. -/
def Lane.kept (l : Lane) : (LaneCopy × LaneCopy) × SMap Nat := (l.copies, l.inv)

namespace JobStep

theorem refl (s : State) (a : Nat) : JobStep s s a := ⟨ControlKept.refl s _, rfl, rfl, id⟩

theorem trans {s t u : State} {a : Nat} (h : JobStep s t a) (k : JobStep t u a) : JobStep s u a :=
  ⟨h.fields.trans k.fields, k.laneIn.trans h.laneIn, k.spn.trans h.spn, k.pes ∘ h.pes⟩

theorem of_apart {s t : State} {a : Nat} (hf : ControlKept s t (jobFields a)) (h : t.apart = s.apart) : JobStep s t a :=
  ⟨hf, State.laneIn_of_apart h, State.spn_of_apart h, fun hb => by rwa [State.pesSrc_of_apart h]⟩

theorem put {s t : State} {a : Nat} (h : JobStep s t a) {F : Field} (hF : F ∈ jobFields a) (v : Nat) : JobStep s (t.put F v) a :=
  ⟨h.fields.put hF v, h.laneIn, h.spn, h.pes⟩

theorem incBy {s t : State} {a : Nat} (h : JobStep s t a) {F : Field} (hF : F ∈ jobFields a) (n : Nat) :
    JobStep s (t.incBy F n) a :=
  h.put hF _

theorem modLane {s t : State} {a : Nat} (h : JobStep s t a) (g : Lane → Lane) : JobStep s (t.modLane a g) a :=
  ⟨h.fields.trans (.of_f (State.modLane_f t a g) _), h.laneIn, h.spn, h.pes⟩

theorem pesRaise {s t : State} {a : Nat} (h : JobStep s t a) (ha : a < 4) : JobStep s (t.pesRaise a) a :=
  ⟨h.fields.trans ((ControlKept.pesRaise ha t).mono (by simp [jobFields, faultFields, phaseFields])),
    (t.pesRaise_laneIn a).trans h.laneIn, (t.pesRaise_spn a).trans h.spn, fun _ => t.hasBit_pesRaise a⟩

end JobStep

section Learner
variable (s : State) (a k : Nat)

theorem State.learnerRead_apart : (s.learnerRead a k).2.apart = s.apart := by
  unfold State.learnerRead
  dsimp only
  split <;> simp

theorem JobStep.learnerRead : JobStep s (s.learnerRead a k).2 a := by
  refine .of_apart ?_ (s.learnerRead_apart a k)
  have hread := ControlKept.of_below (SectorsKept.sramRead s (16 + a) k).fields (by decide) (jobFields a)
  unfold State.learnerRead
  dsimp only
  split
  · exact ControlKept.refl s _
  · exact hread.put (by simp [jobFields]) 1
  · refine ControlKept.trans ?_ (ControlKept.raise _ _ _ _)
    split
    · exact hread
    · exact (hread.put (by simp [jobFields]) 1).put (by simp [jobFields]) k

theorem State.lane_learnerRead : (s.learnerRead a k).2.lane a = s.lane a :=
  State.lane_congr (State.lanes_of_apart (s.learnerRead_apart a k)) a

theorem JobStep.learnerWrite {s t : State} {a : Nat} (h : JobStep s t a) (k v : Nat) : JobStep s (t.learnerWrite a k v) a :=
  (h.trans (.of_apart (.of_f (State.sramRewrite_f t _ _) _) (State.sramRewrite_apart t _ _))).modLane _

theorem State.kept_learnerWrite (v : Nat) : ((s.learnerWrite a k v).lane a).kept = (s.lane a).kept := by
  rw [State.learnerWrite, State.lane_modLane_same]
  rfl

theorem JobStep.learn (h j : Nat) (e : Int) (flip : Nat) : JobStep s (s.learn a h j e flip) a := by
  unfold State.learn
  dsimp only
  split
  · exact JobStep.learnerRead s a _
  · exact (JobStep.learnerRead s a _).learnerWrite _ _

theorem State.kept_learn (h j : Nat) (e : Int) (flip : Nat) : ((s.learn a h j e flip).lane a).kept = (s.lane a).kept := by
  unfold State.learn
  dsimp only
  split
  · rw [State.lane_learnerRead]
  · rw [State.kept_learnerWrite, State.lane_learnerRead]

end Learner

section Left
variable (s : State) (a : Nat) (m : Sample) (up : Option LaneUpset)

theorem Lane.copies_noted (l : Lane) (m : Sample) (e : Int) : (l.noted m e).copies = l.copies := by
  unfold Lane.noted
  split <;> rfl

/-- The steps after the sample is noted, until the filters. -/
theorem State.kept_jobJudged : ((s.jobJudged a m up).lane a).kept = ((s.jobNoted a m).lane a).kept := by
  have hlearnt : ((s.jobLearnt a m up).lane a).kept = ((s.jobNoted a m).lane a).kept := by
    unfold State.jobLearnt
    split
    · exact State.kept_learn _ a _ _ _ _
    · rfl
  rw [← hlearnt]
  unfold State.jobJudged
  dsimp only
  split
  · rw [State.lane_modLane_same, State.lane_congr (State.pesRaise_lanes _ a)]
    rfl
  · rfl

theorem State.lane_noteSample (e : Int) : (s.noteSample a m e).lane a = (s.lane a).noted m e :=
  s.lane_modLane_same a (·.noted m e)

theorem State.lane_jobNoted : (s.jobNoted a m).lane a = (s.lane a).noted m (s.jobError a m) := by
  rw [State.jobNoted, State.lane_noteSample, State.jobWord, State.lane_learnerRead]

theorem State.noteSample_laneIn (e : Int) : (s.noteSample a m e).laneIn = s.laneIn := rfl

theorem State.noteSample_spn (e : Int) : (s.noteSample a m e).spn = s.spn := rfl

/-- The copies stand as they stood until the filters run. -/
theorem State.copies_jobJudged : ((s.jobJudged a m up).lane a).copies = (s.lane a).copies := by
  have hkept := congrArg Prod.fst (s.kept_jobJudged a m up)
  rw [State.lane_jobNoted] at hkept
  exact hkept.trans (Lane.copies_noted _ m _)

/-- The runs of invalid samples as the sample leaves them. -/
theorem State.inv_jobFiltered : ((s.jobFiltered a m up).lane a).inv = ((s.lane a).noted m (s.jobError a m)).inv := by
  have hkept := congrArg Prod.snd (s.kept_jobJudged a m up)
  rw [State.lane_jobNoted] at hkept
  exact (congrArg Lane.inv (State.lane_modLane_same _ a _)).trans hkept

variable {a} (ha : a < 4)
include ha

theorem JobStep.jobFiltered : JobStep (s.jobNoted a m) (s.jobFiltered a m up) a := by
  have hlearnt : JobStep (s.jobNoted a m) (s.jobLearnt a m up) a := by
    unfold State.jobLearnt
    split
    · exact JobStep.learn _ a _ _ _ _
    · exact JobStep.refl _ a
  have hjudged : JobStep (s.jobNoted a m) (s.jobJudged a m up) a := by
    unfold State.jobJudged
    dsimp only
    split
    · exact (hlearnt.pesRaise ha).modLane _
    · exact hlearnt
  unfold State.jobFiltered
  dsimp only
  exact (hjudged.incBy (by simp [jobFields]) _).modLane _

end Left

end Sys2Proof.Machine
end

