-- ==== Sys2Proof/Proofs/LaneJobs.lean ====
section
/-! SUPPORT. How the job of a lane's oldest sample ends (09 R226, R229, R233, R249, R251): with an invalid sample, and with bits of the
main copy's message inverted. -/

namespace Sys2Proof.Machine

/-! ## The end of a micro job -/

theorem jobFields_keys (a : Nat) : (jobFields a).map Field.key =
    [(0x40d80108 + 0x10000 * a) * 32, (0x40d800b0 + 0x10000 * a) * 32 + 30, (0x40d800b0 + 0x10000 * a) * 32 + 31,
      (0x40d800b0 + 0x10000 * a) * 32, (0x40d80004 + 0x10000 * a) * 32 + 31, (0x40d80004 + 0x10000 * a) * 32 + 29,
      (0x40d8010c + 0x10000 * a) * 32, (0x40d80004 + 0x10000 * a) * 32] := rfl

/-- What the comparator leaves, whatever it decides. -/
structure JobEnd (s t : State) (a : Nat) : Prop where
  fields : ControlKept s t (jobFields a)
  lanes : t.lanes = s.lanes
  laneIn : t.laneIn = s.laneIn
  pes : hasBit s.pesSrc a = true → hasBit t.pesSrc a = true

theorem JobEnd.compareFault {a : Nat} (ha : a < 4) (s : State) (src : Nat) : JobEnd s (s.compareFault a src) a :=
  ⟨(ControlKept.compareFault s src ha).mono (List.subset_append_right _ _), s.compareFault_lanes src a, s.compareFault_laneIn src a,
    fun _ => s.hasBit_pesSrc_compareFault src a⟩

section End
variable (s : State) {a : Nat} (m : Sample) (up : Option LaneUpset)

theorem JobEnd.microJob (ha : a < 4) : JobEnd (s.jobFiltered a m up) (s.microJob a m up) a := by
  rw [State.microJob_eq]
  dsimp only
  split
  · exact .compareFault ha _ 1
  · split
    · exact .compareFault ha _ 0
    · split
      · exact .compareFault ha _ 1
      · exact ⟨.of_f rfl _, rfl, rfl, id⟩

theorem State.jobNoted_laneIn (a : Nat) : (s.jobNoted a m).laneIn = s.laneIn :=
  (State.noteSample_laneIn _ a m _).trans (JobStep.learnerRead s a _).laneIn

theorem State.jobNoted_spn (a : Nat) : (s.jobNoted a m).spn = s.spn :=
  (State.noteSample_spn _ a m _).trans (JobStep.learnerRead s a _).spn

theorem State.jobFiltered_laneIn (ha : a < 4) : (s.jobFiltered a m up).laneIn = s.laneIn :=
  (JobStep.jobFiltered s m up ha).laneIn.trans (s.jobNoted_laneIn m a)

theorem State.jobFiltered_spn (ha : a < 4) : (s.jobFiltered a m up).spn = s.spn :=
  (JobStep.jobFiltered s m up ha).spn.trans (s.jobNoted_spn m a)

theorem State.microJob_laneIn (ha : a < 4) : (s.microJob a m up).laneIn = s.laneIn :=
  (JobEnd.microJob s m up ha).laneIn.trans (s.jobFiltered_laneIn m up ha)

theorem ControlKept.microJob_jobNoted (ha : a < 4) : ControlKept (s.jobNoted a m) (s.microJob a m up) (jobFields a) :=
  (JobStep.jobFiltered s m up ha).fields.trans (JobEnd.microJob s m up ha).fields

/-! ## An invalid sample (R233, R249) -/

section Invalid
variable (hflags : m.flags ≠ 0)
include hflags

theorem State.valid_jobNoted (a : Nat) : (s.jobNoted a m).get (Reg.CTL_EH_VALID a (locOf m.slot)) = 0 := by
  rw [State.jobNoted, State.noteSample, State.get_put_ne, State.putB, State.get_put_same, decide_eq_false hflags]
  · rfl
  · simp only [Field.key, Reg.CTL_EH_VALID, Reg.CTL_EH_EH]
    omega

theorem State.valid_microJob (ha : a < 4) : (s.microJob a m up).get (Reg.CTL_EH_VALID a (locOf m.slot)) = 0 := by
  refine (ControlKept.microJob_jobNoted s m up ha _ ?_ ?_).trans (s.valid_jobNoted m hflags a)
  · simp only [Reg.CTL_EH_VALID]
    omega
  · have hj := locOf_lt m.slot
    simp only [jobFields_keys, Field.key, Reg.CTL_EH_VALID, List.mem_cons, List.not_mem_nil, or_false, not_or]
    omega

theorem State.inv_microJob (ha : a < 4) : SMap.get ((s.microJob a m up).lane a).inv 0 m.head =
    SMap.get (s.lane a).inv 0 m.head + 1 := by
  rw [State.lane_congr (JobEnd.microJob s m up ha).lanes, State.inv_jobFiltered]
  simp only [Lane.noted, decide_eq_false hflags, Bool.false_eq_true, if_false]
  exact SMap.get_put_same _ 0 m.head _

theorem State.hasBit_pesSrc_microJob (ha : a < 4) : hasBit (s.microJob a m up).pesSrc a = true := by
  refine (JobEnd.microJob s m up ha).pes ?_
  have hraised : hasBit (s.jobJudged a m up).pesSrc a = true := by
    simp only [State.jobJudged, decide_eq_false hflags, Bool.not_false, Bool.true_or, if_true]
    exact State.hasBit_pesRaise _ a
  exact hraised

end Invalid

theorem State.invalidCount_microJob (ha : a < 4) :
    (s.microJob a m up).get (Reg.CTL_INVALID_COUNT a) = s.get (Reg.CTL_INVALID_COUNT a) := by
  have hj := locOf_lt m.slot
  have hbase : 0x40d80000 ≤ (Reg.CTL_INVALID_COUNT a).addr := by
    simp only [Reg.CTL_INVALID_COUNT]
    omega
  have hkey : (Reg.CTL_INVALID_COUNT a).key ∉ (jobFields a).map Field.key := by
    simp only [jobFields_keys, Field.key, Reg.CTL_INVALID_COUNT, List.mem_cons, List.not_mem_nil, or_false, not_or]
    omega
  have hnoted : (s.jobNoted a m).get (Reg.CTL_INVALID_COUNT a) = s.get (Reg.CTL_INVALID_COUNT a) := by
    rw [State.jobNoted, State.noteSample, State.get_put_ne, State.putB, State.get_put_ne, State.get_modLane]
    · exact (JobStep.learnerRead s a _).fields _ hbase hkey
    all_goals
      simp only [Field.key, Reg.CTL_INVALID_COUNT, Reg.CTL_EH_VALID, Reg.CTL_EH_EH]
      omega
  exact (ControlKept.microJob_jobNoted s m up ha _ hbase hkey).trans hnoted

end End

/-! ## An upset in the message (R226) -/

/-- Where the copies agree, a message with bits inverted is what the comparator finds. -/
theorem State.microJob_of_message {s : State} {a k : Nat} (m : Sample) (hk : k % 2 ^ 16 ≠ 0) (hs : (s.lane a).statesAgree = true)
    (hc : (s.lane a).coefsAgree = true) :
    s.microJob a m (some (.message k)) = (s.jobFiltered a m (some (.message k))).compareFault a 0 := by
  have hcopies := s.copies_jobJudged a m (some (.message k))
  have hchecker := Lane.checker_of_agree ((Lane.statesAgree_congr hcopies).trans hs) ((Lane.coefsAgree_congr hcopies).trans hc)
  have hnoFlip : (s.jobLearns a m && writeBackFlip (some (.message k)) != 0) = false := Bool.and_false _
  have hflip : messageFlip (some (.message k)) % 2 ^ 16 ≠ 0 := (Nat.mod_mod k (2 ^ 16)).trans_ne hk
  rw [State.microJob_eq]
  dsimp only
  rw [hchecker, hnoFlip]
  exact (if_neg Bool.false_ne_true).trans (if_pos (flipSigned_ne _ hflip))

/-! ## The lane's oldest sample -/

/-- The sample is taken from those that wait, and counted where it is invalid. -/
def State.taken (s : State) (a : Nat) (m : Sample) (r : List Sample) : State :=
  let t := s.setLaneIn (SMap.put s.laneIn [] a r)
  if m.flags = 0 then t else t.inc (Reg.CTL_INVALID_COUNT a)

section Taken
variable {s : State} {a : Nat} {m : Sample} {r : List Sample}

theorem State.taken_laneIn (s : State) (a : Nat) (m : Sample) (r : List Sample) : SMap.get (s.taken a m r).laneIn [] a = r := by
  unfold State.taken
  dsimp only
  split <;> exact SMap.get_put_same s.laneIn [] a r

theorem State.taken_lanes (s : State) (a : Nat) (m : Sample) (r : List Sample) : (s.taken a m r).lanes = s.lanes := by
  unfold State.taken
  dsimp only
  split <;> rfl

theorem State.taken_spn (s : State) (a : Nat) (m : Sample) (r : List Sample) : (s.taken a m r).spn = s.spn := by
  unfold State.taken
  dsimp only
  split <;> rfl

theorem State.invalidCount_taken (hflags : m.flags ≠ 0) :
    (s.taken a m r).get (Reg.CTL_INVALID_COUNT a) = s.counted (Reg.CTL_INVALID_COUNT a) 1 := by
  simp only [State.taken, if_neg hflags]
  exact State.get_incBy_same _ _ 1

theorem State.laneRuns_taken (s : State) (a : Nat) (m : Sample) (r : List Sample) : (s.taken a m r).laneRuns a = s.laneRuns a := by
  unfold State.taken
  dsimp only
  split
  · rfl
  · have hkept : ∀ F : Field, F.key ≠ (Reg.CTL_INVALID_COUNT a).key → ((s.setLaneIn (SMap.put s.laneIn [] a r)).inc
        (Reg.CTL_INVALID_COUNT a)).get F = s.get F := fun F hF => State.get_incBy_ne _ _ 1 hF
    simp only [State.laneRuns, State.clkOk, State.clkFaults, State.phase]
    rw [hkept, hkept, hkept]
    · rfl
    all_goals
      simp only [Field.key, Reg.CTL_INVALID_COUNT, Reg.CTL_LANE_STATUS_PHASE, Reg.SYS_CLK_FAULT0_FAULT, Reg.SYS_CLK_FAULT1_FAULT]
      omega

variable (hin : SMap.get s.laneIn [] a = m :: r) (hruns : s.laneRuns a = true) (up : Option LaneUpset)
include hin hruns

/-- A sample that does not close its group. -/
theorem State.laneJob_of_open (hcloses : m.closes = false) : s.laneJob a up = (s.taken a m r).microJob a m up := by
  have hrun := (s.laneRuns_taken a m r).trans hruns
  rw [State.taken] at hrun ⊢
  simp only [State.laneJob, hin, hcloses, hrun, if_true, Bool.false_eq_true, if_false]

/-- A job that leaves FAULT is followed by no VCM job. -/
theorem State.laneJob_of_fault (hfault : ((s.taken a m r).microJob a m up).phase a = 5) :
    s.laneJob a up = ((s.taken a m r).microJob a m up).when m.closes (·.inc (Reg.CTL_GROUPS_COUNT a)) := by
  have hrun := (s.laneRuns_taken a m r).trans hruns
  have hstopped : (((s.taken a m r).microJob a m up).inc (Reg.CTL_GROUPS_COUNT a)).laneRuns a = false := by
    have hphase : (((s.taken a m r).microJob a m up).inc (Reg.CTL_GROUPS_COUNT a)).phase a = 5 := by
      refine (State.get_incBy_ne _ _ 1 ?_).trans hfault
      simp only [Field.key, Reg.CTL_GROUPS_COUNT, Reg.CTL_LANE_STATUS_PHASE]
      omega
    exact State.laneRuns_of_phase (by rw [hphase]; decide) (by rw [hphase]; decide) (by rw [hphase]; decide)
  rw [State.taken] at hrun hstopped ⊢
  simp only [State.laneJob, hin, hrun, hstopped, if_true, Bool.false_eq_true, if_false, State.when]

/-- The compare fault of a message with bits inverted, where the copies agree; the sample that closes a group is still counted. -/
theorem State.laneJob_of_message {k : Nat} (ha : a < 4) (hk : k % 2 ^ 16 ≠ 0) (hs : (s.lane a).statesAgree = true)
    (hc : (s.lane a).coefsAgree = true) : s.laneJob a (some (.message k)) =
      (((s.taken a m r).jobFiltered a m (some (.message k))).compareFault a 0).when m.closes (·.inc (Reg.CTL_GROUPS_COUNT a)) := by
  have hlane := State.lane_congr (s.taken_lanes a m r) a
  have hjob := State.microJob_of_message (s := s.taken a m r) m hk (by rwa [hlane]) (by rwa [hlane])
  have hfault := (Faulted.compareFault ((s.taken a m r).jobFiltered a m (some (.message k))) 0 ha).phase
  rw [← hjob] at hfault
  rw [State.laneJob_of_fault hin hruns _ hfault, hjob]

end Taken

end Sys2Proof.Machine
end

