-- ==== Sys2Proof/Proofs/LaneOnOff.lean ====
section
/-! SUPPORT. A lane goes on, off and through a reset (09 R231, R246, R252, Tables CTL-3 and CTL-7). -/

namespace Sys2Proof.Machine

/-! ## A group boundary without a seek (R231, R241) -/

/-- A bank switch is done, with STATE_CLR where `clr`. -/
def Lane.switched (l : Lane) (clr : Bool) : Lane :=
  if clr then { l.both (fun c => { c with micro := [], vcm := [], integ := 0 }) with sw := none } else { l with sw := none }

/-- A pending bank switch takes effect. -/
def State.switched (s : State) (a : Nat) : State :=
  match (s.lane a).sw with
  | some (b, clr) => ((s.put (Reg.CTL_LANE_STATUS_BANK a) b).put (Reg.CTL_BANK_SEL_PENDING a) 0).modLane a (·.switched clr)
  | none => s

/-- The coefficients of a bank come into use, and no register value is held back. -/
def Lane.takeUp (l : Lane) (b : Nat) : Lane :=
  { l.both (fun c => { c with live := c.bank b }) with old := [], go := none, bound := true }

theorem State.boundary_of_noSeek {s : State} {a : Nat} (h : (s.lane a).go = none) :
    s.boundary a = (s.switched a).modLane a (·.takeUp ((s.switched a).get (Reg.CTL_LANE_STATUS_BANK a))) := by
  simp only [State.boundary, h]
  rfl

/-- The lane commands 0, holds no filter state and waits for no seek. -/
structure Lane.Stopped (l : Lane) : Prop where
  u : l.u = []
  go : l.go = none
  micro : l.micro = []
  vcm : l.vcm = []
  integ : l.integ = 0

theorem Lane.Stopped.switched {l : Lane} (h : l.Stopped) (clr : Bool) : (l.switched clr).Stopped := by
  cases clr
  · exact ⟨h.u, h.go, h.micro, h.vcm, h.integ⟩
  · exact ⟨h.u, h.go, rfl, rfl, rfl⟩

theorem Lane.Stopped.takeUp {l : Lane} (h : l.Stopped) (b : Nat) : (l.takeUp b).Stopped := ⟨h.u, rfl, h.micro, h.vcm, h.integ⟩

section Boundary
variable {s : State} {a : Nat}

theorem State.stopped_switched (h : (s.lane a).Stopped) : ((s.switched a).lane a).Stopped := by
  unfold State.switched
  split
  · rw [State.lane_modLane_same, State.lane_put, State.lane_put]
    exact h.switched _
  · exact h

theorem State.stopped_boundary (h : (s.lane a).Stopped) : ((s.boundary a).lane a).Stopped := by
  rw [State.boundary_of_noSeek h.go, State.lane_modLane_same]
  exact (State.stopped_switched h).takeUp _

theorem State.boundary_spn (h : (s.lane a).go = none) : (s.boundary a).spn = s.spn := by
  rw [State.boundary_of_noSeek h]
  show (s.switched a).spn = s.spn
  unfold State.switched
  split <;> rfl

theorem FieldsKept.boundary (h : (s.lane a).go = none) :
    FieldsKept s (s.boundary a) [Reg.CTL_LANE_STATUS_BANK a, Reg.CTL_BANK_SEL_PENDING a] := by
  rw [State.boundary_of_noSeek h]
  refine FieldsKept.trans ?_ (.of_f (State.modLane_f _ a _) _)
  unfold State.switched
  split
  · exact (((FieldsKept.refl s _).put _ _ (by simp)).put _ _ (by simp)).trans (.of_f (State.modLane_f _ a _) _)
  · exact FieldsKept.refl s _

end Boundary

/-! ## Off -/

/-- Commands of 0 to the heads are messages in their order. -/
theorem State.each_d2dSend (a : Nat) (hs : List Nat) (s : State) : s.each hs (fun s h => s.d2dSend a h 0) =
    s.modSpn fun p => { p with d2d := p.d2d ++ hs.map fun h => (a, h, 0) } := by
  induction hs generalizing s with
  | nil => simp [State.each, State.modSpn]
  | cons h hs ih =>
    refine (ih (s.d2dSend a h 0)).trans ?_
    simp [State.d2dSend, State.modSpn]

/-- What a lane that goes OFF sends: a command of 0 to every head and to the VCM, where commands are sent. -/
def State.quieted (s : State) (a : Nat) (commands : Bool) : State :=
  if commands && s.phase a != 5 then (s.zeroMicro a).d2dSend a 12 0 else s.modLane a (fun l => { l with u := [] })

/-- No filter state, no seek and no open group. -/
def Lane.stop (l : Lane) : Lane :=
  { l.both (fun c => { c with micro := [], vcm := [], integ := 0 }) with go := none, recs := [] }

theorem Lane.stopped_stop {l : Lane} (h : l.u = []) : l.stop.Stopped := ⟨h, rfl, rfl, rfl, rfl⟩

/-- The lane in OFF, before its boundary. -/
def State.stilled (s : State) (a : Nat) (commands : Bool) : State :=
  ((((s.quieted a commands).pesRaise a).put (Reg.CTL_LANE_STATUS_PHASE a) 0).put (Reg.CTL_LANE_CTL_ON a) 0).modLane a (·.stop)

theorem State.laneOff_eq (s : State) (a : Nat) (commands : Bool) : s.laneOff a commands = (s.stilled a commands).boundary a := by
  rw [State.stilled, ← State.enterPhase_of_off _ (by decide) (by decide)]
  rfl

section Off
variable (s : State) (a : Nat) (commands : Bool)

theorem State.u_quieted : ((s.quieted a commands).lane a).u = [] := by
  unfold State.quieted
  split
  · exact congrArg Lane.u (State.lane_modLane_same _ a fun l => { l with u := [] })
  · rw [State.lane_modLane_same]

theorem State.stopped_stilled : ((s.stilled a commands).lane a).Stopped := by
  rw [State.stilled, State.lane_modLane_same, State.lane_put, State.lane_put, State.lane_congr (State.pesRaise_lanes _ a)]
  exact Lane.stopped_stop (s.u_quieted a commands)

theorem State.stopped_laneOff : ((s.laneOff a commands).lane a).Stopped := by
  rw [State.laneOff_eq]
  exact State.stopped_boundary (s.stopped_stilled a commands)

theorem State.laneOff_spn : (s.laneOff a commands).spn = (s.quieted a commands).spn := by
  rw [State.laneOff_eq, State.boundary_spn (s.stopped_stilled a commands).go]
  exact State.pesRaise_spn _ a

/-- PHASE is OFF and ON is 0. -/
theorem State.off_laneOff : (s.laneOff a commands).phase a = 0 ∧ (s.laneOff a commands).get (Reg.CTL_LANE_CTL_ON a) = 0 := by
  have hkept := FieldsKept.boundary (s.stopped_stilled a commands).go
  rw [State.laneOff_eq]
  constructor
  · refine (hkept _ ?_).trans ((State.get_put_ne _ (Reg.CTL_LANE_CTL_ON a) 0 ?_).trans
      (State.phase_put ((s.quieted a commands).pesRaise a) a 0))
    · simp [Field.key, Reg.CTL_LANE_STATUS_PHASE, Reg.CTL_LANE_STATUS_BANK, Reg.CTL_BANK_SEL_PENDING]
      omega
    · simp only [Field.key, Reg.CTL_LANE_STATUS_PHASE, Reg.CTL_LANE_CTL_ON]
      omega
  · refine (hkept _ ?_).trans (State.get_put_same _ (Reg.CTL_LANE_CTL_ON a) 0)
    simp [Field.key, Reg.CTL_LANE_CTL_ON, Reg.CTL_LANE_STATUS_BANK, Reg.CTL_BANK_SEL_PENDING]
    omega

theorem State.quieted_spn_of_silent : (s.quieted a false).spn = s.spn := rfl

theorem State.d2d_quieted_of_commands (h : s.phase a ≠ 5) : (s.quieted a true).spn.d2d =
    s.spn.d2d ++ (s.lane a).u.map (fun e => (a, e.1, 0)) ++ [(a, 12, 0)] := by
  have hsend : (true && s.phase a != 5) = true := by simp [h]
  rw [State.quieted, if_pos hsend, State.zeroMicro, State.each_d2dSend, List.map_map]
  rfl

end Off

/-! ## On -/

/-- The lane as it enters SETTLE: its micro loops start from zero (R234). -/
def Lane.settled (l : Lane) : Lane := { l.both (fun c => { c with micro := [] }) with settle := 0 }

/-- The lane as ON starts it. -/
def Lane.start (l : Lane) : Lane :=
  { l.both (fun c => { c with vcm := [], integ := 0 }) with
    v := 0, aref := 0, fresh := true, fe := 0, feDue := false, empty := 0, clean := 0
    inv := [], heldHeads := 0, recs := [], dirty := false }

/-- Outside TRACK the PES source is up, so that SETTLE's entry closes no gate. -/
theorem State.enterPhase_settle {s : State} {a : Nat} (h : s.phase a ≠ 3) : s.enterPhase a 2 =
    ((s.setPesSrc (setBit s.pesSrc a)).put (Reg.CTL_LANE_STATUS_PHASE a) 2).modLane a (·.settled) := by
  rw [← State.pesRaise_of_up h]
  rfl

/-- An OFF lane that starts in SETTLE. -/
def State.started (s : State) (a : Nat) : State :=
  ((((s.put (Reg.CTL_LANE_CTL_ON a) 1).setPesSrc (setBit s.pesSrc a)).put (Reg.CTL_LANE_STATUS_PHASE a) 2).modLane a
    (·.settled)).modLane a (·.start)

/-- Both copies start from zero, and the next group sets the reference. -/
theorem Lane.zero_start (l : Lane) : l.settled.start.fresh = true ∧ l.settled.start.integ = 0 ∧ l.settled.start.vcm = [] ∧
    l.settled.start.micro = [] ∧ l.settled.start.chk.integ = 0 ∧ l.settled.start.chk.vcm = [] ∧ l.settled.start.chk.micro = [] :=
  ⟨rfl, rfl, rfl, rfl, rfl, rfl, rfl⟩

theorem State.lane_started (s : State) (a : Nat) : (s.started a).lane a = (s.lane a).settled.start := by
  rw [State.started, State.lane_modLane_same, State.lane_modLane_same, State.lane_put]
  rfl

theorem State.started_f (s : State) (a : Nat) : (s.started a).f =
    (s.puts [(Reg.CTL_LANE_CTL_ON a, 1), (Reg.CTL_LANE_STATUS_PHASE a, 2)]).f := rfl

/-- PHASE is SETTLE and ON is 1. -/
theorem State.status_started (s : State) (a : Nat) : (s.started a).phase a = 2 ∧ (s.started a).get (Reg.CTL_LANE_CTL_ON a) = 1 := by
  have hkeys : ([(Reg.CTL_LANE_CTL_ON a, 1), (Reg.CTL_LANE_STATUS_PHASE a, 2)].map fun p => p.1.key).Nodup := by
    simp only [List.map_cons, List.map_nil, Field.key, Reg.CTL_LANE_CTL_ON, Reg.CTL_LANE_STATUS_PHASE, List.nodup_cons,
      List.mem_cons, List.not_mem_nil, or_false, not_false_eq_true, List.nodup_nil, and_true]
    omega
  have hget := fun F v hF => (State.get_of_f (s.started_f a) F).trans (State.get_puts_of_mem hkeys (F := F) (v := v) hF s)
  exact ⟨hget _ 2 (by simp), hget _ 1 (by simp)⟩

/-! ## Writes of CTL_LANE_CTL by case -/

/-- A mismatch is no longer shown, and its source falls. -/
def State.clearCmp (s : State) (a : Nat) : State := (s.put (Reg.CTL_LANE_STATUS_CMP a) 0).setCmpSrc (clrBit s.cmpSrc a)

theorem State.clearCmp_lanes (s : State) (a : Nat) : (s.clearCmp a).lanes = s.lanes := rfl

theorem State.clearCmp_spn (s : State) (a : Nat) : (s.clearCmp a).spn = s.spn := rfl

theorem State.hasBit_cmpSrc_clearCmp (s : State) (a : Fin 4) : hasBit (s.clearCmp a.val).cmpSrc a.val = false :=
  (hasBit_clrBit s.cmpSrc a a).trans (by simp)

theorem State.get_clearCmp (s : State) (a : Nat) (F : Field) :
    (s.clearCmp a).get F = (s.put (Reg.CTL_LANE_STATUS_CMP a) 0).get F :=
  State.get_of_f (State.setCmpSrc_f _ _) F

/-- After a keyed reset PHASE is OFF, ON is 0 and no mismatch is shown. -/
theorem State.status_reset (s : State) (a : Nat) : ((s.laneOff a false).clearCmp a).phase a = 0 ∧
    ((s.laneOff a false).clearCmp a).get (Reg.CTL_LANE_CTL_ON a) = 0 ∧
    ((s.laneOff a false).clearCmp a).get (Reg.CTL_LANE_STATUS_CMP a) = 0 := by
  obtain ⟨hoff, hctl⟩ := s.off_laneOff a false
  refine ⟨(State.get_clearCmp _ a _).trans ((State.get_put_ne _ _ 0 ?_).trans hoff),
    (State.get_clearCmp _ a _).trans ((State.get_put_ne _ _ 0 ?_).trans hctl),
    (State.get_clearCmp _ a _).trans (State.get_put_same _ _ 0)⟩
  all_goals
    simp only [Field.key, Reg.CTL_LANE_STATUS_PHASE, Reg.CTL_LANE_CTL_ON, Reg.CTL_LANE_STATUS_CMP]
    omega

section Control
variable {s : State} {a v : Nat}

theorem State.tracks_iff (s : State) (a : Nat) : ((slotsOf a).any fun k => s.srcState k == 3) = true ↔
    s.srcState (4 * a) = 3 ∨ s.srcState (4 * a + 1) = 3 ∨ s.srcState (4 * a + 2) = 3 ∨ s.srcState (4 * a + 3) = 3 := by
  simp [slotsOf]

theorem State.laneCtl_of_on (hreset : hasBit v 15 = false) (hon : hasBit v 0 = true) (hoff : s.phase a = 0)
    (htrack : ((slotsOf a).any fun k => s.srcState k == 3) = true) : s.laneCtl a v = s.started a := by
  have hphase : (s.put (Reg.CTL_LANE_CTL_ON a) 1).phase a = 0 := by
    refine (State.get_put_ne s _ 1 ?_).trans hoff
    simp only [Field.key, Reg.CTL_LANE_STATUS_PHASE, Reg.CTL_LANE_CTL_ON]
    omega
  have hno : ¬(s.phase a = 4 ∨ s.phase a = 5 ∨ (!(slotsOf a).any fun k => s.srcState k == 3) = true) := by
    simp [hoff, htrack]
  have hsettle := State.enterPhase_settle (s := s.put (Reg.CTL_LANE_CTL_ON a) 1) (a := a) (by rw [hphase]; decide)
  simp only [State.laneCtl, hreset, hon, Bool.false_eq_true, if_false, if_true, if_neg hno, if_pos hphase, hsettle]
  rfl

theorem State.laneCtl_of_refused (hreset : hasBit v 15 = false) (hon : hasBit v 0 = true)
    (h : s.phase a = 4 ∨ s.phase a = 5 ∨ ((slotsOf a).any fun k => s.srcState k == 3) = false) : s.laneCtl a v = s.ctlReject a 5 := by
  have hno : s.phase a = 4 ∨ s.phase a = 5 ∨ (!(slotsOf a).any fun k => s.srcState k == 3) = true := by
    rwa [Bool.not_eq_true']
  simp only [State.laneCtl, hreset, hon, Bool.false_eq_true, if_false, if_true, if_pos hno]

theorem State.laneCtl_of_off (hreset : hasBit v 15 = false) (hon : hasBit v 0 = false) (h : s.phase a ≠ 0) :
    s.laneCtl a v = s.laneOff a true := by
  simp only [State.laneCtl, hreset, hon, Bool.false_eq_true, if_false, if_neg h]

theorem State.laneCtl_of_stillOff (hreset : hasBit v 15 = false) (hon : hasBit v 0 = false) (h : s.phase a = 0) :
    s.laneCtl a v = s.put (Reg.CTL_LANE_CTL_ON a) 0 := by
  simp only [State.laneCtl, hreset, hon, Bool.false_eq_true, if_false, if_pos h]

/-- A keyed reset turns the lane OFF without a command, and no mismatch is shown. -/
theorem State.laneCtl_of_reset (hreset : hasBit v 15 = true) (hkey : bits v 31 16 = 0x5A5A) :
    s.laneCtl a v = (s.laneOff a false).clearCmp a := by
  simp only [State.laneCtl, hreset, if_true, if_pos hkey]
  rfl

theorem State.laneCtl_of_unkeyed (hreset : hasBit v 15 = true) (hkey : bits v 31 16 ≠ 0x5A5A) : s.laneCtl a v = s := by
  simp only [State.laneCtl, hreset, if_true, if_neg hkey]

end Control

end Sys2Proof.Machine
end

