-- ==== Sys2Proof/Proofs/LaneControl.lean ====
section
/-! SUPPORT. Lane control (09 R226, R246, R247, R251, R252): upsets in what the main copy stores, the idle comparison, and the
statement, case by case along the commands and the phases of a lane. -/

namespace Sys2Proof.Machine

/-! ## Upsets in what the main copy stores (R225, R226) -/

theorem SMap.put_ne_self {α : Type} [DecidableEq α] {m : SMap α} {d v : α} {k : Nat} (h : v ≠ SMap.get m d k) :
    SMap.put m d k v ≠ m :=
  fun e => h ((SMap.get_put_same m d k v).symm.trans (congrArg (SMap.get · d k) e))

section Upset
variable {l : Lane} (hs : l.statesAgree = true)
include hs

/-- An upset state differs from the checker's. -/
theorem Lane.statesAgree_upset_state (k : Nat) {n : Nat} (hn : n % 2 ^ 48 ≠ 0) :
    (l.upset (.state k n)).statesAgree = false := by
  simp only [Lane.statesAgree, Bool.and_eq_true, beq_iff_eq] at hs
  obtain ⟨⟨hmicro, hvcm⟩, hinteg⟩ := hs
  unfold Lane.upset
  dsimp only
  split
  · simp only [Lane.statesAgree, ← hmicro, beq_false_of_ne (SMap.put_ne_self (flipSigned_ne (SMap.get l.micro 0 k) hn)),
      Bool.false_and]
  · split
    · simp only [Lane.statesAgree, ← hvcm, beq_false_of_ne (SMap.put_ne_self (flipSigned_ne (SMap.get l.vcm 0 (k - 192)) hn)),
        Bool.false_and, Bool.and_false]
    · simp only [Lane.statesAgree, ← hinteg, beq_false_of_ne (flipSigned_ne l.integ hn), Bool.and_false]

theorem Lane.statesAgree_upset_coef (o n : Nat) : (l.upset (.coef o n)).statesAgree = true := hs

end Upset

/-- An upset coefficient word differs from the checker's. -/
theorem Lane.coefsAgree_upset_coef {l : Lane} (hc : l.coefsAgree = true) (o : Nat) {n : Nat} (hn : n % 2 ^ 32 ≠ 0) :
    (l.upset (.coef o n)).coefsAgree = false := by
  simp only [Lane.coefsAgree, Bool.and_eq_true, beq_iff_eq] at hc
  simp only [Lane.coefsAgree, Lane.upset, ← hc.1, beq_false_of_ne (SMap.put_ne_self (xor_ne_self hn)), Bool.false_and]

/-! ## The idle comparison (R226) -/

section Idle
variable {a : Fin 4} {s : State} (hphase : s.phase a.val ≠ 5) {u : LaneUpset}
include hphase

theorem execIdleComparePass_of_states (h : ((s.lane a.val).upset u).statesAgree = false) :
    execIdleComparePass a (some u) s = .next ((s.modLane a.val (·.upset u)).compareFault a.val 1) := by
  have hno : ¬(s.modLane a.val (·.upset u)).phase a.val = 5 := hphase
  simp only [execIdleComparePass, if_neg hno, State.lane_modLane_same, h, Bool.not_false, if_true]

theorem execIdleComparePass_of_coefs (hs : ((s.lane a.val).upset u).statesAgree = true)
    (h : ((s.lane a.val).upset u).coefsAgree = false) :
    execIdleComparePass a (some u) s = .next ((s.modLane a.val (·.upset u)).compareFault a.val 2) := by
  have hno : ¬(s.modLane a.val (·.upset u)).phase a.val = 5 := hphase
  simp only [execIdleComparePass, if_neg hno, State.lane_modLane_same, hs, h, Bool.not_true, Bool.not_false, Bool.false_eq_true,
    if_false, if_true]

end Idle

theorem execIdleComparePass_of_agree {a : Fin 4} {s : State}
    (h : s.phase a.val = 5 ∨ ((s.lane a.val).statesAgree = true ∧ (s.lane a.val).coefsAgree = true)) :
    execIdleComparePass a none s = .next s := by
  rcases h with h | ⟨hs, hc⟩
  · simp only [execIdleComparePass, if_pos h]
  · simp only [execIdleComparePass, hs, hc, Bool.not_true, Bool.false_eq_true, if_false, ite_self]

/-! ## Jobs with an upset (R226, R251) -/

/-- An upset in a message changes nothing that the lane stores. -/
theorem State.lane_upset_message (s : State) (a k : Nat) : (s.modLane a (·.upset (.message k))).lane a = s.lane a :=
  s.lane_modLane_same a (·.upset (.message k))

theorem execLaneCompareFault_of_runs {a : Fin 4} {u : LaneUpset} {s : State} (h : s.laneRuns a.val = true) :
    execLaneCompareFault a u s = .next ((s.modLane a.val (·.upset u)).laneJob a.val (some u)) := by
  simp only [execLaneCompareFault, h, if_true]

theorem execLaneCompareFault_of_stopped {a : Fin 4} {u : LaneUpset} {s : State} (h : s.laneRuns a.val = false) :
    execLaneCompareFault a u s = .next s := by
  simp only [execLaneCompareFault, h, Bool.false_eq_true, if_false]

/-! ## Seeks and rejections (R247, Table CTL-9) -/

theorem State.seekGo_of_runs {s : State} {a v : Nat} (hgo : hasBit v 0 = true) (h : s.laneRuns a = true) : s.seekGo a v =
    s.modLane a (fun l => { l with
      go := some (s.get (Reg.CTL_SEEK_TGT_LO_X_LO a) + 2 ^ 32 * s.get (Reg.CTL_SEEK_TGT_HI_X_HI a)) }) := by
  simp only [State.seekGo, hgo, h, if_true]

theorem State.seekGo_of_stopped {s : State} {a v : Nat} (hgo : hasBit v 0 = true) (h : s.laneRuns a = false) :
    s.seekGo a v = s.ctlReject a 5 := by
  simp only [State.seekGo, hgo, h, if_true, Bool.false_eq_true, if_false]

/-- A first rejection sets ERR and its code, and changes nothing else. -/
theorem State.ctlReject_of_noError {s : State} {a c : Nat} (hc : c < 256) (h : s.get (Reg.CTL_CFG_STATUS_ERR a) = 0) :
    (s.ctlReject a c).get (Reg.CTL_CFG_STATUS_ERR a) = 1 ∧ (s.ctlReject a c).get (Reg.CTL_CFG_STATUS_CODE a) = c ∧
      (s.ctlReject a c).lanes = s.lanes ∧ BytesKept s (s.ctlReject a c) ∧
      FieldsKept s (s.ctlReject a c) [Reg.CTL_CFG_STATUS_ERR a, Reg.CTL_CFG_STATUS_CODE a] := by
  have hkept := FieldsKept.reject s (Reg.CTL_CFG_STATUS_ERR a) (Reg.CTL_CFG_STATUS_CODE a) c
  rw [← State.ctlReject] at hkept
  rw [State.ctlReject, State.reject_of_noError h] at hkept ⊢
  refine ⟨?_, (State.get_put_same _ _ c).trans (Nat.mod_eq_of_lt hc), rfl, BytesKept.of_mem rfl, hkept⟩
  refine (State.get_put_ne _ _ c ?_).trans (State.get_put_same s _ 1)
  simp only [Field.key, Reg.CTL_CFG_STATUS_ERR, Reg.CTL_CFG_STATUS_CODE]
  omega

/-! ## The statement -/

/-- Settles O23, along the commands and the phases of a lane: a write of CTL_LANE_CTL or CTL_SEEK_GO comes to the case that its bits and
the phase pick, and an upset that shows ends in `compareFault`. -/
theorem laneControl : Obligations.LaneControl := by
  unfold Obligations.LaneControl
  refine ⟨?on, ?refused, ?off, ?stillOff, ?reset, ?unkeyed, ?seek, ?noSeek, ?message, ?noFlip, ?stopped, ?states, ?coefs, ?agree⟩
  case on =>
    intro a v s hreset hon hoff htrack
    obtain ⟨hphase, hctl⟩ := s.status_started a.val
    refine ⟨_, congrArg Host.Outcome.next (State.laneCtl_of_on hreset hon hoff ((s.tracks_iff a.val).mpr htrack)), hphase, hctl, ?_⟩
    obtain ⟨hfresh, hinteg, hvcm, hmicro, hchkInteg, hchkVcm, hchkMicro⟩ := (s.lane a.val).zero_start
    rw [s.lane_started a.val]
    exact ⟨hfresh, hinteg, hvcm, hmicro, hchkInteg, hchkVcm, hchkMicro, BytesKept.of_mem rfl,
      (FieldsKept.puts s _).trans (FieldsKept.of_f (s.started_f a.val) _)⟩
  case refused =>
    intro a v s hreset hon hno herr
    have hno' : s.phase a.val = 4 ∨ s.phase a.val = 5 ∨ ((slotsOf a.val).any fun k => s.srcState k == 3) = false := by
      rw [← Bool.not_eq_true, s.tracks_iff]
      tauto
    exact ⟨_, congrArg Host.Outcome.next (State.laneCtl_of_refused hreset hon hno'), State.ctlReject_of_noError (by decide) herr⟩
  case off =>
    intro a v s hreset hon hruns
    have hphase := State.phase_of_laneRuns hruns
    obtain ⟨hu, hgo, hmicro, hvcm, hinteg⟩ := s.stopped_laneOff a.val true
    obtain ⟨hoff, hctl⟩ := s.off_laneOff a.val true
    refine ⟨_, congrArg Host.Outcome.next (State.laneCtl_of_off hreset hon (by omega)), hoff, hctl, hu, hgo, hmicro, hvcm, hinteg, ?_⟩
    rw [State.laneOff_spn]
    exact s.d2d_quieted_of_commands a.val (by omega)
  case stillOff =>
    intro a v s hreset hon hoff
    exact ⟨_, congrArg Host.Outcome.next (State.laneCtl_of_stillOff hreset hon hoff), State.get_put_same s _ 0, rfl, rfl,
      (FieldsKept.refl s _).put _ _ (by simp), BytesKept.of_mem rfl⟩
  case reset =>
    intro a v s hreset hkey
    obtain ⟨hu, -, hmicro, hvcm, hinteg⟩ := s.stopped_laneOff a.val false
    obtain ⟨hoff, hctl, hcmp⟩ := s.status_reset a.val
    refine ⟨_, congrArg Host.Outcome.next (State.laneCtl_of_reset hreset hkey), hoff, hctl, hcmp, State.hasBit_cmpSrc_clearCmp _ a, ?_⟩
    rw [State.lane_congr (State.clearCmp_lanes _ _), State.clearCmp_spn, State.laneOff_spn, State.quieted_spn_of_silent]
    exact ⟨hu, hmicro, hvcm, hinteg, rfl⟩
  case unkeyed => exact fun a v s hreset hkey => ⟨_, congrArg Host.Outcome.next (State.laneCtl_of_unkeyed hreset hkey), rfl⟩
  case seek =>
    intro a v s hgo hruns
    exact ⟨_, congrArg Host.Outcome.next (State.seekGo_of_runs hgo hruns), congrArg Lane.go (s.lane_modLane_same a.val _),
      FieldsKept.of_f (State.modLane_f s _ _) _, BytesKept.of_mem rfl⟩
  case noSeek =>
    intro a v s hgo hstopped herr
    exact ⟨_, congrArg Host.Outcome.next (State.seekGo_of_stopped hgo hstopped), (State.ctlReject_of_noError (by decide) herr).2⟩
  case message =>
    intro a k m r s hruns hk hin _ _ hs hc
    have hlane := s.lane_upset_message a.val k
    have hjob := State.laneJob_of_message (s := s.modLane a.val (·.upset (.message k))) hin hruns a.isLt hk (by rwa [hlane])
      (by rwa [hlane])
    obtain ⟨hphase, hcmp, hsource, hcmpSrc, hpesSrc, hlaneIn, hd2d⟩ := (Faulted.compareFault
      (((s.modLane a.val (·.upset (.message k))).taken a.val m r).jobFiltered a.val m (some (.message k))) 0 a.isLt).whenInc m.closes
    refine ⟨_, (execLaneCompareFault_of_runs hruns).trans (congrArg Host.Outcome.next hjob), hphase, hcmp, hsource, hcmpSrc, hpesSrc,
      ?_, ?_⟩
    · rw [hlaneIn, State.jobFiltered_laneIn _ m _ a.isLt]
      exact State.taken_laneIn _ a.val m r
    · rw [hd2d, State.jobFiltered_spn _ m _ a.isLt, State.taken_spn]
      rfl
  case noFlip =>
    intro a m r s hin hflags hcloses _ hruns
    have hlane := (State.lane_congr ((s.modLane a.val (·.upset (.message 0))).taken_lanes a.val m r) a.val).trans
      (s.lane_upset_message a.val 0)
    have hjob := State.laneJob_of_open (s := s.modLane a.val (·.upset (.message 0))) hin hruns (some (.message 0)) hcloses
    refine ⟨_, (execLaneCompareFault_of_runs hruns).trans (congrArg Host.Outcome.next hjob),
      ?_, State.valid_microJob _ m _ hflags a.isLt, ?_, ?_, State.hasBit_pesSrc_microJob _ m _ hflags a.isLt⟩
    · rw [State.microJob_laneIn _ m _ a.isLt]
      exact State.taken_laneIn _ a.val m r
    · rw [State.invalidCount_microJob _ m _ a.isLt]
      exact State.invalidCount_taken hflags
    · rw [State.inv_microJob _ m _ hflags a.isLt, hlane]
  case stopped => exact fun a c s h => ⟨s, execLaneCompareFault_of_stopped h, rfl⟩
  case states =>
    intro a k n s hphase _ hn hs
    obtain ⟨hfault, hcmp, hsource, hcmpSrc, -, -, hd2d⟩ := Faulted.compareFault (s.modLane a.val (·.upset (.state k n))) 1 a.isLt
    exact ⟨_, execIdleComparePass_of_states hphase (Lane.statesAgree_upset_state hs k hn), hfault, hcmp, hsource, hcmpSrc, hd2d⟩
  case coefs =>
    intro a o n s hphase hn hs hc
    obtain ⟨hfault, -, hsource, hcmpSrc, -⟩ := Faulted.compareFault (s.modLane a.val (·.upset (.coef o n))) 2 a.isLt
    exact ⟨_, execIdleComparePass_of_coefs hphase (Lane.statesAgree_upset_coef hs o n) (Lane.coefsAgree_upset_coef hc o hn), hfault,
      hsource, hcmpSrc⟩
  case agree => exact fun a s h => ⟨s, execIdleComparePass_of_agree h, rfl⟩

end Sys2Proof.Machine
end

