-- ==== Sys2Proof/Proofs/PowerDie.lean ====
section
/-! SUPPORT. What a command makes of the power die (10), in one form: fields of its registers written one after the other, and what stands
beside them replaced. Everything else is as it was, so each read after a command is one of a few rules. -/

namespace Sys2Proof.Machine

/-- Fields written one after the other, and what the power die holds beside its registers replaced. -/
def State.powerDie (s : State) (l : List (Field × Nat)) (p : Spn) : State := { s.puts l with spn := p }

section Rules
variable (s : State) (l : List (Field × Nat)) (p : Spn)

theorem State.put_eq_powerDie (F : Field) (v : Nat) : s.put F v = s.powerDie [(F, v)] s.spn := (rfl :)

theorem State.modSpn_eq_powerDie (g : Spn → Spn) : s.modSpn g = s.powerDie [] (g s.spn) := (rfl :)

@[simp] theorem State.powerDie_spn : (s.powerDie l p).spn = p := rfl

theorem State.powerDie_cons (F : Field) (v : Nat) : s.powerDie ((F, v) :: l) p = (s.put F v).powerDie l p := (rfl :)

theorem State.puts_modSpn (g : Spn → Spn) : (s.modSpn g).puts l = (s.puts l).modSpn fun _ => g s.spn := by
  induction l generalizing s with
  | nil => rfl
  | cons w l ih => exact ih (s.put w.1 w.2)

theorem State.powerDie_powerDie (m : List (Field × Nat)) (q : Spn) : (s.powerDie l p).powerDie m q = s.powerDie (l ++ m) q := by
  have hfold : (s.puts l).puts m = s.puts (l ++ m) := by simp only [State.puts, State.each, List.foldl_append]
  have hspn : (s.powerDie l p).puts m = ((s.puts l).puts m).modSpn fun _ => p := State.puts_modSpn _ m fun _ => p
  rw [State.powerDie, hspn, hfold]
  rfl

theorem State.powerDie_mem : (s.powerDie l p).mem = s.mem := State.puts_mem s l

theorem State.powerDie_evr : (s.powerDie l p).evr = s.evr :=
  List.foldlRecOn (motive := fun t : State => t.evr = s.evr) l _ rfl fun _ ht _ _ => ht

theorem State.powerDie_pwr : (s.powerDie l p).pwr = s.pwr :=
  List.foldlRecOn (motive := fun t : State => t.pwr = s.pwr) l _ rfl fun _ ht _ _ => ht

theorem BytesKept.powerDie : BytesKept s (s.powerDie l p) := .of_mem (s.powerDie_mem l p)

theorem FieldsKept.powerDie : FieldsKept s (s.powerDie l p) (l.map Prod.fst) := FieldsKept.puts s l

end Rules

/-! A read after it: the field written last, or the field as it was. -/

theorem State.powerDie_nil_get (s : State) (p : Spn) (F : Field) : (s.powerDie [] p).get F = s.get F := (rfl :)

theorem State.get_put_of_lt (s : State) {F : Field} {v : Nat} (h : v < 2 ^ F.width) : (s.put F v).get F = v :=
  (State.get_put_same s F v).trans (Nat.mod_eq_of_lt h)

/-- The field written last reads what was written. -/
theorem State.powerDie_get_last (s : State) (l : List (Field × Nat)) (p : Spn) {F : Field} {v : Nat} (h : v < 2 ^ F.width) :
    (s.powerDie (l ++ [(F, v)]) p).get F = v := by
  rw [← State.powerDie_powerDie s l p, State.powerDie_cons, State.powerDie_nil_get, State.get_put_of_lt _ h]

/-! ## Rejections (Table SPN-10) -/

/-- A first rejection sets ERR and its code. -/
theorem State.mtrReject_of_noError {s : State} (h : s.get Reg.MTR_CFG_STATUS_ERR = 0) (c : Nat) :
    s.mtrReject c = s.powerDie [(Reg.MTR_CFG_STATUS_ERR, 1), (Reg.MTR_CFG_STATUS_CODE, c)] s.spn := by
  rw [State.mtrReject, State.reject_of_noError h]
  simp only [State.put_eq_powerDie, State.powerDie_powerDie, State.powerDie_spn, List.cons_append, List.nil_append]

/-- A first rejection changes nothing but ERR and CODE. -/
theorem State.mtrRejected {s : State} (h : s.get Reg.MTR_CFG_STATUS_ERR = 0) {c : Nat} (hc : c < 256) :
    (s.mtrReject c).get Reg.MTR_CFG_STATUS_CODE = c ∧ (s.mtrReject c).spn = s.spn ∧ BytesKept s (s.mtrReject c) ∧
      FieldsKept s (s.mtrReject c) [Reg.MTR_CFG_STATUS_ERR, Reg.MTR_CFG_STATUS_CODE] := by
  rw [State.mtrReject_of_noError h]
  refine ⟨?_, State.powerDie_spn s _ _, BytesKept.powerDie s _ _, FieldsKept.powerDie s _ _⟩
  rw [State.powerDie_cons, State.powerDie_cons, State.powerDie_nil_get]
  exact State.get_put_of_lt _ hc

/-! ## Flags -/

theorem State.flag_of_zero {s : State} {F : Field} (h : s.get F = 0) : s.flag F = false := by rw [State.flag_eq, h]; rfl

theorem State.flag_of_one {s : State} {F : Field} (h : s.get F = 1) : s.flag F = true := by rw [State.flag_eq, h]; rfl

/-- A bit of a word, as a number and as a flag. -/
theorem bit_ne_zero (n i : Nat) : (bit n i != 0) = hasBit n i := by
  have hlt : bit n i < 2 := Nat.mod_lt _ (by decide)
  rw [hasBit, Bool.eq_iff_iff, bne_iff_ne, beq_iff_eq]
  omega

/-! ## A speed that no loop follows (R263, R264) -/

theorem State.noteSpeed_spn (s : State) (v : Nat) : (s.noteSpeed v).spn = { s.spn with measured := v } := by
  unfold State.noteSpeed
  dsimp only
  split <;> rfl

theorem State.noteSpeed_pwr (s : State) (v : Nat) : (s.noteSpeed v).pwr = s.pwr := by
  unfold State.noteSpeed
  dsimp only
  split <;> rfl

theorem FieldsKept.noteSpeed (s : State) (v : Nat) : FieldsKept s (s.noteSpeed v) [Reg.MTR_SPN_SPEED_SPEED] := by
  unfold State.noteSpeed
  dsimp only
  split
  · exact (FieldsKept.of_f (State.modSpn_f s _) _).put _ _ (List.mem_singleton_self _)
  · exact FieldsKept.of_f (State.modSpn_f s _) _

theorem State.noteSpeed_get_ne (s : State) (v : Nat) {F : Field} (h : F.key ≠ Reg.MTR_SPN_SPEED_SPEED.key) :
    (s.noteSpeed v).get F = s.get F :=
  FieldsKept.noteSpeed s v F (by simpa using h)

end Sys2Proof.Machine
end

