-- ==== Sys2Proof/Proofs/RetractRules.lean ====
section
/-! SUPPORT. Retract (10 R277, R279) as each actuator sees it. MTR_RET_STATUS holds a digit for every actuator, of 4 for its state and of
16 for its causes, and the driver registers a row of 16; a trigger changes those of its own actuator alone. -/

namespace Sys2Proof.Machine

/-! ## A digit of a number replaced -/

/-- Replacing one digit leaves what lies above and below it. -/
theorem replaceDigit (k n w a : Nat) : n + w * k ^ a - n / k ^ a % k * k ^ a = k ^ a * (k * (n / k ^ (a + 1)) + w) + n % k ^ a := by
  have hn := Nat.div_add_mod n (k ^ a)
  have hq := Nat.div_add_mod (n / k ^ a) k
  rw [Nat.div_div_eq_div_mul, ← Nat.pow_succ] at hq
  generalize n / k ^ (a + 1) = q at hq ⊢
  generalize n / k ^ a % k = r at hq ⊢
  generalize n % k ^ a = m at hn ⊢
  rw [← hq] at hn
  rw [← hn]
  refine Nat.sub_eq_of_eq_add ?_
  ring

/-- A digit of a number whose digit `a` is replaced by `w`. -/
theorem replaceDigit_digit {k w : Nat} (hw : w < k) (n a b : Nat) :
    (n + w * k ^ a - n / k ^ a % k * k ^ a) / k ^ b % k = if b = a then w else n / k ^ b % k := by
  have hk : 0 < k := Nat.zero_lt_of_lt hw
  have hlow : n % k ^ a < k ^ a := Nat.mod_lt _ (Nat.pow_pos hk)
  rw [replaceDigit]
  rcases Nat.lt_trichotomy b a with hba | rfl | hab
  · obtain ⟨d, rfl⟩ := Nat.exists_eq_add_of_lt hba
    rw [if_neg (Nat.ne_of_lt hba), ← Nat.mod_mul_right_div_self, ← Nat.mod_mul_right_div_self n, ← Nat.pow_succ]
    have hdvd : k ^ (b + 1) ∣ k ^ (b + d + 1) := Nat.pow_dvd_pow k (by omega)
    rw [← Nat.mod_mod_of_dvd _ hdvd, Nat.mul_add_mod, Nat.mod_mod, Nat.mod_mod_of_dvd _ hdvd]
  · rw [if_pos rfl, Nat.mul_add_div (Nat.pow_pos hk), Nat.div_eq_of_lt hlow, Nat.add_zero, Nat.mul_add_mod, Nat.mod_eq_of_lt hw]
  · obtain ⟨d, rfl⟩ := Nat.exists_eq_add_of_lt hab
    have habove : ∀ m, m / k ^ (a + d + 1) = m / k ^ a / k / k ^ d := fun m => by
      rw [Nat.div_div_eq_div_mul, Nat.div_div_eq_div_mul]
      congr 1
      ring
    rw [if_neg (Nat.ne_of_gt hab), habove, habove, Nat.mul_add_div (Nat.pow_pos hk), Nat.div_eq_of_lt hlow, Nat.add_zero,
      Nat.mul_add_div hk, Nat.div_eq_of_lt hw, Nat.add_zero, Nat.pow_succ, ← Nat.div_div_eq_div_mul n]

/-- A register of `c` digits keeps each of them. -/
theorem digit_mod (k n : Nat) {b c : Nat} (hb : b < c) : n % k ^ c / k ^ b % k = n / k ^ b % k := by
  rw [← Nat.mod_mul_right_div_self, ← Nat.mod_mul_right_div_self n, ← Nat.pow_succ,
    Nat.mod_mod_of_dvd n (Nat.pow_dvd_pow k (by omega))]

/-- A bit of a digit of 16. -/
theorem hasBit_digit (n a : Nat) (c : Fin 4) : hasBit (n / 16 ^ a % 16) c.val = hasBit n (4 * a + c.val) := by
  rw [show (16 : Nat) ^ a = 2 ^ (4 * a) from (Nat.pow_mul 2 4 a).symm, show (16 : Nat) = 2 ^ 4 from rfl, hasBit_eq_testBit,
    Nat.testBit_mod_two_pow, decide_eq_true c.isLt, Bool.true_and, Nat.testBit_div_two_pow, hasBit_eq_testBit, Nat.add_comm]

/-- A bit set in a number is a bit set in its digit of 16. -/
theorem setBit_digit (n a : Nat) (c : Fin 4) :
    setBit n (4 * a + c.val) = n + setBit (n / 16 ^ a % 16) c.val * 16 ^ a - n / 16 ^ a % 16 * 16 ^ a := by
  have hpow : 2 ^ (4 * a + c.val) = 2 ^ c.val * 16 ^ a := by rw [Nat.pow_add, Nat.pow_mul, Nat.mul_comm]
  rw [setBit, setBit, hasBit_digit]
  split
  · exact (Nat.add_sub_cancel n _).symm
  · rw [hpow, Nat.add_mul]
    omega

theorem setBit_lt_16 : ∀ n < 16, ∀ c : Fin 4, setBit n c.val < 16 := by decide

/-! ## The driver registers -/

theorem SMap.look_keep {α : Type} (m : SMap α) (p : Nat → Bool) (k : Nat) :
    SMap.look (SMap.keep m p) k = if p k then SMap.look m k else none := by
  induction m with
  | nil => simp [SMap.keep]
  | cons e m ih =>
    rw [SMap.keep, List.filter_cons]
    by_cases he : e.1 = k
    · subst he
      split
      · simp [SMap.look]
      · next hp => rw [← SMap.keep, ih, if_neg hp]
    · have hcons : SMap.look (e :: m) k = SMap.look m k := by simp [SMap.look, he]
      rw [hcons, ← ih]
      split
      · simp [SMap.look, he, SMap.keep]
      · rfl

theorem SMap.get_keep {α : Type} (m : SMap α) (d : α) (p : Nat → Bool) (k : Nat) :
    SMap.get (SMap.keep m p) d k = if p k then SMap.get m d k else d := by
  rw [SMap.get, SMap.look_keep]
  split <;> rfl

/-! ## What an actuator sees -/

/-- What retract is to an actuator: whether it is fitted, its state, its causes, its bit of PARKED and its driver registers. -/
@[ext] structure Retr where
  fitted : Bool
  state : Nat
  cause : Nat
  parked : Bool
  drv : Fin 16 → Int

/-- Its digits and its row. -/
def State.retr (s : State) (a : Fin 4) : Retr :=
  ⟨s.fitted a.val, s.retState a.val, s.get Reg.MTR_RET_STATUS_CAUSE / 16 ^ a.val % 16, hasBit (s.get Reg.MTR_RET_STATUS_PARKED) a.val,
    fun h => SMap.get s.spn.drv 0 (16 * a.val + h.val)⟩

/-- A trigger (R277, R279): the cause bit; a retract begins where none has. -/
def Retr.pulled (r : Retr) (c : Nat) : Retr :=
  if r.fitted then
    { r with cause := setBit r.cause c
             state := if r.state = 0 then 1 else r.state
             drv := fun h => if r.state = 0 ∧ h.val < 12 then 0 else r.drv h }
  else r

/-- The fields that an actuator sees. -/
def seenFields : List Field :=
  [Reg.SYS_STRAP_ACT, Reg.MTR_RET_STATUS_STATE, Reg.MTR_RET_STATUS_CAUSE, Reg.MTR_RET_STATUS_PARKED]

theorem State.retr_congr {s t : State} (h : ∀ F ∈ seenFields, t.get F = s.get F) (hdrv : t.spn.drv = s.spn.drv) :
    t.retr = s.retr := by
  funext a
  rw [State.retr, State.retr, State.fitted, State.fitted, State.retState, State.retState, h _ (by simp [seenFields]),
    h _ (by simp [seenFields]), h _ (by simp [seenFields]), h _ (by simp [seenFields]), hdrv]

/-- What leaves those fields and the driver registers leaves what every actuator sees. -/
theorem FieldsKept.retr {s t : State} {K : List Field} (h : FieldsKept s t K) (hK : ∀ F ∈ seenFields, F.key ∉ K.map Field.key)
    (hdrv : t.spn.drv = s.spn.drv) : t.retr = s.retr :=
  State.retr_congr (fun F hF => h F (hK F hF)) hdrv

/-! ## A trigger (R277, R279) -/

/-- The retract states with that of one actuator changed. -/
theorem State.retState_setRet (s : State) (a b : Fin 4) {v : Nat} (hv : v < 4) :
    (s.setRet a.val v).retState b.val = if b = a then v else s.retState b.val := by
  rw [State.retState, State.setRet, State.get_put_same, show Reg.MTR_RET_STATUS_STATE.width = 2 * 4 from rfl, Nat.pow_mul,
    show 2 ^ 2 = 4 from rfl, digit_mod 4 _ b.isLt, Nat.mod_eq_of_lt hv, State.retState, replaceDigit_digit hv]
  simp only [Fin.ext_iff, State.retState]

/-- The digits of cause with a cause bit of one actuator set. -/
theorem State.cause_setBitOf (s : State) (a b c : Fin 4) :
    (s.setBitOf Reg.MTR_RET_STATUS_CAUSE (4 * a.val + c.val)).get Reg.MTR_RET_STATUS_CAUSE / 16 ^ b.val % 16 =
      if b = a then setBit (s.get Reg.MTR_RET_STATUS_CAUSE / 16 ^ a.val % 16) c.val
      else s.get Reg.MTR_RET_STATUS_CAUSE / 16 ^ b.val % 16 := by
  rw [State.setBitOf, State.get_put_same, show Reg.MTR_RET_STATUS_CAUSE.width = 4 * 4 from rfl, Nat.pow_mul,
    show 2 ^ 4 = 16 from rfl, digit_mod 16 _ b.isLt, setBit_digit,
    replaceDigit_digit (setBit_lt_16 _ (Nat.mod_lt _ (by decide)) c)]
  simp only [Fin.ext_iff]

/-- What a trigger does to a row of driver registers. -/
theorem drv_keep (m : SMap Int) (a b : Fin 4) (h : Fin 16) :
    SMap.get (SMap.keep m fun k => !(decide (16 * a.val ≤ k) && decide (k < 16 * a.val + 12))) 0 (16 * b.val + h.val) =
      if b = a ∧ h.val < 12 then 0 else SMap.get m 0 (16 * b.val + h.val) := by
  have hrow : (16 * a.val ≤ 16 * b.val + h.val ∧ 16 * b.val + h.val < 16 * a.val + 12) ↔ b = a ∧ h.val < 12 := by
    rw [Fin.ext_iff]
    omega
  rw [SMap.get_keep, ← Bool.decide_and, ← decide_not]
  simp only [decide_eq_true_eq, hrow, ite_not]

/-- A cause of an actuator, before its retract begins. -/
def State.causeSet (s : State) (a c : Fin 4) : State := s.setBitOf Reg.MTR_RET_STATUS_CAUSE (4 * a.val + c.val)

/-- A retract begins. -/
def State.begun (s : State) (a : Fin 4) : State :=
  ((s.setRet a.val 1).inc Reg.MTR_RET_CNT_COUNT).modSpn fun p =>
    { p with drv := SMap.keep p.drv fun k => !(decide (16 * a.val ≤ k) && decide (k < 16 * a.val + 12)) }

section Trigger
variable (s : State) (a b c : Fin 4)

theorem State.retr_causeSet : (s.causeSet a c).retr b =
    if b = a then { s.retr a with cause := setBit (s.retr a).cause c.val } else s.retr b := by
  have hstate : (s.causeSet a c).get Reg.MTR_RET_STATUS_STATE = s.get Reg.MTR_RET_STATUS_STATE := State.get_put_ne s _ _ (by decide)
  have hparked : (s.causeSet a c).get Reg.MTR_RET_STATUS_PARKED = s.get Reg.MTR_RET_STATUS_PARKED := State.get_put_ne s _ _ (by decide)
  have hfitted : (s.causeSet a c).get Reg.SYS_STRAP_ACT = s.get Reg.SYS_STRAP_ACT := State.get_put_ne s _ _ (by decide)
  have hcause := s.cause_setBitOf a b c
  rw [← State.causeSet] at hcause
  rw [State.retr, State.fitted, State.retState, hstate, hparked, hfitted, hcause]
  split
  · next h => subst h; rfl
  · rfl

theorem State.retr_begun : (s.begun a).retr b =
    if b = a then { s.retr a with state := 1, drv := fun h => if h.val < 12 then 0 else (s.retr a).drv h } else s.retr b := by
  have hcount : ∀ F : Field, F.key ≠ Reg.MTR_RET_CNT_COUNT.key → (s.begun a).get F = (s.setRet a.val 1).get F :=
    fun F hF => State.get_incBy_ne _ _ 1 hF
  have hstate : (s.begun a).retState b.val = if b = a then 1 else s.retState b.val := by
    rw [State.retState, hcount _ (by decide)]
    exact s.retState_setRet a b (by decide)
  have hkept : ∀ F : Field, F.key ≠ Reg.MTR_RET_CNT_COUNT.key → F.key ≠ Reg.MTR_RET_STATUS_STATE.key → (s.begun a).get F = s.get F :=
    fun F hF hS => (hcount F hF).trans (State.get_put_ne s _ _ hS)
  have hdrv : (fun h : Fin 16 => SMap.get (s.begun a).spn.drv 0 (16 * b.val + h.val)) =
      fun h => if b = a ∧ h.val < 12 then 0 else SMap.get s.spn.drv 0 (16 * b.val + h.val) := funext fun h => drv_keep s.spn.drv a b h
  rw [State.retr, State.fitted, hstate, hdrv, hkept _ (by decide) (by decide), hkept _ (by decide) (by decide),
    hkept _ (by decide) (by decide)]
  split
  · next h => subst h; simp [State.retr, State.fitted]
  · next h => simp [State.retr, State.fitted, h]

theorem State.retract_eq : s.retract a.val c.val =
    if s.fitted a.val then if s.retState a.val = 0 then (s.causeSet a c).begun a else s.causeSet a c else s := by
  have hstate : (s.causeSet a c).retState a.val = s.retState a.val :=
    congrArg (· / 4 ^ a.val % 4) (State.get_put_ne s Reg.MTR_RET_STATUS_CAUSE _ (by decide))
  rw [← hstate]
  rfl

/-- A trigger pulls its own actuator. -/
theorem State.retr_retract : (s.retract a.val c.val).retr b = if b = a then (s.retr a).pulled c.val else s.retr b := by
  have hstate : (s.retr a).state = s.retState a.val := rfl
  have hfitted : (s.retr a).fitted = s.fitted a.val := rfl
  rw [State.retract_eq, Retr.pulled, hstate, hfitted]
  by_cases hfit : s.fitted a.val = true
  · rw [if_pos hfit, if_pos hfit]
    by_cases h0 : s.retState a.val = 0
    · rw [if_pos h0, State.retr_begun, State.retr_causeSet, State.retr_causeSet]
      by_cases hb : b = a <;> simp [hb, hstate, hfitted, h0]
    · rw [if_neg h0, State.retr_causeSet]
      by_cases hb : b = a <;> simp [hb, hstate, hfitted, h0]
  · rw [if_neg hfit, if_neg hfit]
    by_cases hb : b = a <;> simp [hb]

/-- The register fields that a trigger changes. -/
def retractFields : List Field := [Reg.MTR_RET_STATUS_STATE, Reg.MTR_RET_STATUS_CAUSE, Reg.MTR_RET_CNT_COUNT]

/-- What a trigger leaves as it was: all register fields but its own, memory and recorder, supplies, and all of the power die but the
driver registers. -/
structure Pulled (s t : State) : Prop where
  fields : FieldsKept s t retractFields
  mem : t.mem = s.mem
  evr : t.evr = s.evr
  pwr : t.pwr = s.pwr
  spn : { t.spn with drv := [] } = { s.spn with drv := [] }

theorem Pulled.refl (s : State) : Pulled s s := ⟨FieldsKept.refl s _, rfl, rfl, rfl, rfl⟩

theorem Pulled.trans {s t u : State} (h : Pulled s t) (k : Pulled t u) : Pulled s u :=
  ⟨h.fields.trans k.fields, k.mem.trans h.mem, k.evr.trans h.evr, k.pwr.trans h.pwr, k.spn.trans h.spn⟩

theorem Pulled.retract : Pulled s (s.retract a.val c.val) := by
  have hcause : Pulled s (s.causeSet a c) := ⟨(FieldsKept.refl s _).put _ _ (by simp [retractFields]), rfl, rfl, rfl, rfl⟩
  have hbegun : ∀ t : State, Pulled t (t.begun a) := fun t =>
    ⟨(((FieldsKept.refl t _).put _ _ (by simp [retractFields])).incBy _ 1 (by simp [retractFields])).trans (FieldsKept.of_f (State.modSpn_f _ _) _),
      rfl, rfl, rfl, rfl⟩
  rw [State.retract_eq]
  split
  · split
    · exact hcause.trans (hbegun _)
    · exact hcause
  · exact Pulled.refl s

end Trigger

/-! ## Triggers of several actuators -/

theorem mem_maskBits {w n i : Nat} : i ∈ maskBits w n ↔ i < w ∧ hasBit n i = true := by
  rw [maskBits, List.mem_filter, List.mem_range]

theorem maskBits_nodup (w n : Nat) : (maskBits w n).Nodup := List.nodup_range.filter _

section Several
variable {g : State → Nat → State} {I : State → Prop} {f : Retr → Retr} {xs : List Nat}

/-- Where each turn changes what its own actuator sees, and no turn comes twice, every actuator named has had its turn. -/
theorem State.retr_each (hI : ∀ t, I t → ∀ a, I (g t a))
    (hg : ∀ t, I t → ∀ a b : Fin 4, (g t a.val).retr b = if b = a then f (t.retr a) else t.retr b)
    (hlt : ∀ x ∈ xs, x < 4) (hdist : xs.Nodup) {s : State} (hs : I s) (b : Fin 4) :
    (s.each xs g).retr b = if b.val ∈ xs then f (s.retr b) else s.retr b := by
  induction xs generalizing s with
  | nil => simp [State.each]
  | cons x xs ih =>
    obtain ⟨hx, hlt⟩ := List.forall_mem_cons.mp hlt
    obtain ⟨hnot, hdist⟩ := List.nodup_cons.mp hdist
    have hturn := hg s hs ⟨x, hx⟩ b
    rw [show s.each (x :: xs) g = (g s x).each xs g from rfl, ih hlt hdist (hI s hs x), hturn]
    by_cases hb : b = ⟨x, hx⟩
    · subst hb
      simp [hnot]
    · have hne : b.val ≠ x := fun e => hb (Fin.ext e)
      simp [hb, hne]

theorem Pulled.each (h : ∀ t (a : Fin 4), Pulled t (g t a.val)) (hlt : ∀ x ∈ xs, x < 4) (s : State) : Pulled s (s.each xs g) :=
  List.foldlRecOn (motive := fun t : State => Pulled s t) xs g (Pulled.refl s) fun t ht x hx => ht.trans (h t ⟨x, hlt x hx⟩)

end Several

/-! ## A write of MTR_RET_CMD, and a fault (R277) -/

theorem State.retr_retCmd (s : State) (v : Nat) (a : Fin 4) :
    (s.retCmd v).retr a = if hasBit v a.val then (s.retr a).pulled 3 else s.retr a := by
  refine (State.retr_each (I := fun _ => True) (f := fun r => r.pulled 3) (fun _ _ _ => trivial) (fun t _ a b => t.retr_retract a b 3)
    (fun x hx => (mem_maskBits.mp hx).1) (maskBits_nodup 4 v) trivial a).trans ?_
  simp only [mem_maskBits, a.isLt, true_and]

theorem Pulled.retCmd (s : State) (v : Nat) : Pulled s (s.retCmd v) :=
  Pulled.each (fun t a => Pulled.retract t a 3) (fun _ hx => (mem_maskBits.mp hx).1) s

/-- The triggers of a fault, before the heads count as unloaded. -/
def State.pullUnparked (s : State) : State := s.each [0, 1, 2, 3] fun s a => if s.retState a = 2 then s else s.retract a 3

theorem State.retractUnparked_eq (s : State) :
    s.retractUnparked 3 = s.pullUnparked.modPwr fun p => { p with headsLoaded := false } := rfl

theorem State.retr_pullUnparked (s : State) (a : Fin 4) :
    s.pullUnparked.retr a = if (s.retr a).state = 2 then s.retr a else (s.retr a).pulled 3 := by
  have hturn : ∀ (t : State) (a b : Fin 4), (if t.retState a.val = 2 then t else t.retract a.val 3).retr b =
      if b = a then (if (t.retr a).state = 2 then t.retr a else (t.retr a).pulled 3) else t.retr b := by
    intro t a b
    rw [show t.retState a.val = (t.retr a).state from rfl]
    by_cases h2 : (t.retr a).state = 2
    · rw [if_pos h2, if_pos h2]
      by_cases hb : b = a <;> simp [hb]
    · rw [if_neg h2, if_neg h2]
      exact t.retr_retract a b 3
  refine (State.retr_each (I := fun _ => True) (f := fun r => if r.state = 2 then r else r.pulled 3) (fun _ _ _ => trivial)
    (fun t _ => hturn t) (by decide) (by decide) trivial a).trans (if_pos ?_)
  have hlt := a.isLt
  simp only [List.mem_cons, List.not_mem_nil, or_false]
  omega

theorem Pulled.pullUnparked (s : State) : Pulled s s.pullUnparked := by
  refine Pulled.each (fun t a => ?_) (by decide) s
  split
  · exact Pulled.refl t
  · exact Pulled.retract t a 3

/-- The cause bits of an actuator that has been pulled. -/
theorem Retr.hasBit_pulled {r : Retr} (h : r.fitted = true) (c : Nat) : hasBit (r.pulled c).cause c = true := by
  rw [Retr.pulled, if_pos h]
  exact hasBit_setBit_same _ c

theorem State.hasBit_cause (s : State) (a c : Fin 4) :
    hasBit (s.get Reg.MTR_RET_STATUS_CAUSE) (4 * a.val + c.val) = hasBit (s.retr a).cause c.val :=
  (hasBit_digit _ a.val c).symm

end Sys2Proof.Machine
end

