-- ==== Sys2Proof/Proofs/DriversAndRetract.lean ====
section
/-! SUPPORT. The drivers' commands (10 R274 to R276), and the triggers and the release of retract (R277 to R279). -/

namespace Sys2Proof.Machine

/-! ## The oldest message (R274, R251) -/

section Messages
variable {s : State} {a o : Nat} {c : Int} {r : List (Nat × Nat × Int)}

/-- The state once the oldest message has been taken. -/
def State.tookMessage (s : State) (r : List (Nat × Nat × Int)) : State := s.modSpn fun p => { p with d2d := r }

theorem State.d2dRun_of_clk (hclk : s.clkOk 32 = true) : s.d2dRun = s.spn.d2d := if_pos hclk

theorem execDriverCommand_of_loaded (hd2d : s.spn.d2d = (a, o, c) :: r) (hclk : s.clkOk 32 = true) (ho : o ≠ 13)
    (hfit : s.fitted a = true) (hret : s.retState a = 0) (hvcm : o = 12 → hasBit (s.get Reg.MTR_DRV_CTL_VCM_EN) a = true) :
    execDriverCommand s = .next (s.modSpn fun p => { p with d2d := r, drv := SMap.put p.drv 0 (16 * a + o) c }) := by
  have htakes : (!(s.tookMessage r).fitted a || (s.tookMessage r).retState a != 0 ||
      (o == 12 && !hasBit ((s.tookMessage r).get Reg.MTR_DRV_CTL_VCM_EN) a)) = false := by
    show (!s.fitted a || s.retState a != 0 || (o == 12 && !hasBit (s.get Reg.MTR_DRV_CTL_VCM_EN) a)) = false
    by_cases h12 : o = 12
    · simp [hfit, hret, hvcm h12]
    · simp [hfit, hret, h12]
  rw [State.tookMessage] at htakes
  simp only [execDriverCommand, State.d2dRun_of_clk hclk, hd2d, if_neg ho, htakes, Bool.false_eq_true, if_false]
  rfl

theorem execDriverCommand_of_dropped (hd2d : s.spn.d2d = (a, o, c) :: r) (hclk : s.clkOk 32 = true) (ho : o ≠ 13)
    (h : s.fitted a = false ∨ s.retState a ≠ 0 ∨ (o = 12 ∧ hasBit (s.get Reg.MTR_DRV_CTL_VCM_EN) a = false)) :
    execDriverCommand s = .next (s.tookMessage r) := by
  have hdrops : (!(s.tookMessage r).fitted a || (s.tookMessage r).retState a != 0 ||
      (o == 12 && !hasBit ((s.tookMessage r).get Reg.MTR_DRV_CTL_VCM_EN) a)) = true := by
    show (!s.fitted a || s.retState a != 0 || (o == 12 && !hasBit (s.get Reg.MTR_DRV_CTL_VCM_EN) a)) = true
    rcases h with h | h | ⟨h12, h⟩ <;> simp [*]
  rw [State.tookMessage] at hdrops
  simp only [execDriverCommand, State.d2dRun_of_clk hclk, hd2d, if_neg ho, hdrops, if_true]
  rfl

/-- A micro output that is enabled follows its register (R275). -/
theorem State.microOut_of_enabled {t : State} {h : Nat} (hfit : t.fitted a = true) (hret : t.retState a = 0)
    (hen : hasBit (t.get (Reg.MTR_MA_EN_EN a)) h = true) : t.microOut a h = SMap.get t.spn.drv 0 (16 * a + h) := by
  simp [State.microOut, hfit, hret, hen]

/-- The bridge of an enabled VCM under command carries its register's current (R274). -/
theorem State.coil_of_enabled {t : State} (hfit : t.fitted a = true) (hret : t.retState a = 0)
    (hen : hasBit (t.get Reg.MTR_DRV_CTL_VCM_EN) a = true) :
    t.coil a = .current (SMap.get t.spn.drv 0 (16 * a + 12) * fullScale (t.get Reg.MTR_DRV_CTL_FS) a) := by
  simp [State.coil, hfit, hret, hen]

theorem execStopMessage_of_stop (hd2d : s.spn.d2d = (a, 13, c) :: r) (hclk : s.clkOk 32 = true) :
    execStopMessage s = .next ((s.tookMessage r).retract a 1) := by
  simp only [execStopMessage, State.d2dRun_of_clk hclk, hd2d, if_true]
  rfl

/-- Nothing is taken without a message, or with one of the other kind at the front. -/
theorem State.d2dRun_of_waiting {q : Nat → Bool}
    (h : s.clkOk 32 = false ∨ s.spn.d2d = [] ∨ s.spn.d2d.head?.any (fun x => q x.2.1) = true) :
    s.d2dRun = [] ∨ ∃ a o c r, s.d2dRun = (a, o, c) :: r ∧ q o = true := by
  by_cases hclk : s.clkOk 32 = true
  · rw [State.d2dRun_of_clk hclk]
    rcases h with h | h | h
    · exact absurd hclk (by simp [h])
    · exact .inl h
    · match hd2d : s.spn.d2d with
      | [] => exact .inl rfl
      | (a, o, c) :: r =>
        rw [hd2d] at h
        exact .inr ⟨a, o, c, r, rfl, h⟩
  · exact .inl (if_neg hclk)

theorem execDriverCommand_of_waiting
    (h : s.clkOk 32 = false ∨ s.spn.d2d = [] ∨ s.spn.d2d.head?.any (fun x => x.2.1 == 13) = true) :
    execDriverCommand s = .next s := by
  rcases State.d2dRun_of_waiting (q := fun o => o == 13) h with hrun | ⟨a, o, c, r, hrun, ho⟩
  · simp only [execDriverCommand, hrun]
  · simp only [execDriverCommand, hrun, if_pos (beq_iff_eq.mp ho)]

theorem execStopMessage_of_waiting
    (h : s.clkOk 32 = false ∨ s.spn.d2d = [] ∨ s.spn.d2d.head?.any (fun x => x.2.1 != 13) = true) :
    execStopMessage s = .next s := by
  rcases State.d2dRun_of_waiting (q := fun o => o != 13) h with hrun | ⟨a, o, c, r, hrun, ho⟩
  · simp only [execStopMessage, hrun]
  · simp only [execStopMessage, hrun, if_neg (bne_iff_ne.mp ho)]

end Messages

/-! ## A STOP message (R251, R277) -/

/-- A retract that a trigger begins on an actuator under command. -/
structure RetractBegun (s t : State) (a : Fin 4) (c : Nat) : Prop where
  state : t.retState a.val = 1
  cause : hasBit (t.get Reg.MTR_RET_STATUS_CAUSE) (4 * a.val + c) = true
  micro : ∀ h : Fin 12, SMap.get t.spn.drv 0 (16 * a.val + h.val) = 0
  vcm : SMap.get t.spn.drv 0 (16 * a.val + 12) = SMap.get s.spn.drv 0 (16 * a.val + 12)
  count : t.get Reg.MTR_RET_CNT_COUNT = s.counted Reg.MTR_RET_CNT_COUNT 1

theorem RetractBegun.retract {s : State} {a : Fin 4} (hfit : s.fitted a.val = true) (hret : s.retState a.val = 0) (c : Fin 4) :
    RetractBegun s (s.retract a.val c.val) a c.val := by
  have hpulled : (s.retract a.val c.val).retr a = (s.retr a).pulled c.val := (s.retr_retract a a c).trans (if_pos rfl)
  have hstate : (s.retr a).state = 0 := hret
  have hdrv := congrArg Retr.drv hpulled
  have hcause := (s.retract a.val c.val).hasBit_cause a c
  rw [hpulled, Retr.hasBit_pulled hfit] at hcause
  have hcount : (s.retract a.val c.val).get Reg.MTR_RET_CNT_COUNT = s.counted Reg.MTR_RET_CNT_COUNT 1 := by
    rw [State.retract_eq, if_pos hfit, if_pos hret]
    have hbefore : ((s.causeSet a c).setRet a.val 1).get Reg.MTR_RET_CNT_COUNT = s.get Reg.MTR_RET_CNT_COUNT :=
      (State.get_put_ne _ _ _ (by decide)).trans (State.get_put_ne s _ _ (by decide))
    exact (State.get_incBy_same _ _ 1).trans (State.counted_congr hbefore 1)
  rw [Retr.pulled, if_pos (show (s.retr a).fitted = true from hfit)] at hpulled hdrv
  refine ⟨?_, hcause, fun h => ?_, ?_, hcount⟩
  · exact (congrArg Retr.state hpulled).trans (by simp [hstate])
  · exact (congrFun hdrv ⟨h.val, by omega⟩).trans (by simp [hstate, h.isLt])
  · exact (congrFun hdrv 12).trans (by simp [State.retr])

/-- While an actuator retracts no micro output of it carries a code, and its bridge is at RET_V. -/
theorem Pulled.outputs {s t : State} {a : Fin 4} (h : Pulled s t) (hfit : s.fitted a.val = true) (hret : t.retState a.val = 1) :
    (∀ k, t.microOut a.val k = 0) ∧
      t.coil a.val = .volts (s.get Reg.MTR_RET_CTL_RET_V) (s.flag Reg.MTR_RET_CTL_DIR_OD) := by
  have hfitted : t.fitted a.val = true := by rw [State.fitted, h.fields _ (by decide)]; exact hfit
  have hvolts : t.get Reg.MTR_RET_CTL_RET_V = s.get Reg.MTR_RET_CTL_RET_V := h.fields _ (by decide)
  have houter : t.flag Reg.MTR_RET_CTL_DIR_OD = s.flag Reg.MTR_RET_CTL_DIR_OD := by
    rw [State.flag_eq, h.fields _ (by decide), State.flag_eq]
  simp [State.microOut, State.coil, hfitted, hret, hvolts, houter]

/-! ## The release of parked actuators (R279) -/

/-- A PARKED bit of a write of MTR_RET_STATUS. -/
def State.parkedTurn (s : State) (a : Nat) : State :=
  if s.retState a = 1 || s.flag Reg.SPT_STATUS_FAIL then s.mtrReject 6
  else if s.retState a = 2 then
    ((s.setRet a 0).clrBitOf Reg.MTR_RET_STATUS_PARKED a).put Reg.MTR_RET_STATUS_CAUSE
      (s.get Reg.MTR_RET_STATUS_CAUSE - s.get Reg.MTR_RET_STATUS_CAUSE / 16 ^ a % 16 * 16 ^ a)
  else s

theorem State.parkedClear_eq (s : State) (v : Nat) : s.parkedClear v = s.each (maskBits 4 (bits v 11 8)) State.parkedTurn := rfl

/-- A released actuator: under command, its PARKED bit clear and its causes too. -/
def Retr.released (r : Retr) : Retr := if r.state = 2 then { r with state := 0, cause := 0, parked := false } else r

theorem State.parkedTurn_of_fail {s : State} (hfail : s.flag Reg.SPT_STATUS_FAIL = true) (a : Nat) : s.parkedTurn a = s.mtrReject 6 := by
  rw [State.parkedTurn, hfail, Bool.or_true, if_pos rfl]

theorem State.parkedTurn_of_retracting {s : State} {a : Nat} (h : s.retState a = 1) : s.parkedTurn a = s.mtrReject 6 := by
  rw [State.parkedTurn, decide_eq_true h, Bool.true_or, if_pos rfl]

theorem FieldsKept.mtrReject (s : State) (c : Nat) :
    FieldsKept s (s.mtrReject c) [Reg.MTR_CFG_STATUS_ERR, Reg.MTR_CFG_STATUS_CODE] :=
  FieldsKept.reject s _ _ c

theorem State.mtrReject_spn (s : State) (c : Nat) : (s.mtrReject c).spn = s.spn := by
  unfold State.mtrReject State.reject
  split <;> rfl

/-- A parked actuator released. -/
def State.released (s : State) (a : Fin 4) : State :=
  ((s.setRet a.val 0).clrBitOf Reg.MTR_RET_STATUS_PARKED a.val).put Reg.MTR_RET_STATUS_CAUSE
    (s.get Reg.MTR_RET_STATUS_CAUSE - s.get Reg.MTR_RET_STATUS_CAUSE / 16 ^ a.val % 16 * 16 ^ a.val)

theorem State.parkedTurn_of_parked {s : State} {a : Fin 4} (hfail : s.flag Reg.SPT_STATUS_FAIL = false) (h : s.retState a.val = 2) :
    s.parkedTurn a.val = s.released a := by
  simp only [State.parkedTurn, h, hfail, State.released, Bool.or_false, decide_eq_true_eq, if_true, (by decide : ¬(2 = 1)), if_false]

theorem State.parkedTurn_of_command {s : State} {a : Fin 4} (hfail : s.flag Reg.SPT_STATUS_FAIL = false) (h1 : s.retState a.val ≠ 1)
    (h2 : s.retState a.val ≠ 2) : s.parkedTurn a.val = s := by
  simp only [State.parkedTurn, hfail, h1, h2, Bool.or_false, decide_eq_true_eq, if_false]

section Release
variable (s : State) (a b : Fin 4)

theorem State.retr_released : (s.released a).retr b =
    if b = a then { s.retr a with state := 0, cause := 0, parked := false } else s.retr b := by
  have hstate : (s.released a).retState b.val = if b = a then 0 else s.retState b.val := by
    rw [← s.retState_setRet a b (v := 0) (by decide), State.retState, State.retState]
    exact congrArg (· / 4 ^ b.val % 4) ((State.get_put_ne _ _ _ (by decide)).trans (State.get_put_ne _ _ _ (by decide)))
  have hcause : (s.released a).get Reg.MTR_RET_STATUS_CAUSE / 16 ^ b.val % 16 =
      if b = a then 0 else s.get Reg.MTR_RET_STATUS_CAUSE / 16 ^ b.val % 16 := by
    have hdigit := replaceDigit_digit (k := 16) (w := 0) (by decide) (s.get Reg.MTR_RET_STATUS_CAUSE) a.val b.val
    rw [Nat.zero_mul, Nat.add_zero] at hdigit
    rw [State.released, State.get_put_same, show Reg.MTR_RET_STATUS_CAUSE.width = 4 * 4 from rfl, Nat.pow_mul,
      show 2 ^ 4 = 16 from rfl, digit_mod 16 _ b.isLt, hdigit]
    simp only [Fin.ext_iff]
  have hparked : hasBit ((s.released a).get Reg.MTR_RET_STATUS_PARKED) b.val =
      (hasBit (s.get Reg.MTR_RET_STATUS_PARKED) b.val && decide (a.val ≠ b.val)) := by
    rw [State.released, State.get_put_ne _ _ _ (by decide), State.clrBitOf, State.get_put_same, hasBit_eq_testBit,
      Nat.testBit_mod_two_pow, ← hasBit_eq_testBit, hasBit_clrBit, State.setRet, State.get_put_ne _ _ _ (by decide),
      decide_eq_true (show b.val < Reg.MTR_RET_STATUS_PARKED.width from b.isLt), Bool.true_and]
  have hfitted : (s.released a).get Reg.SYS_STRAP_ACT = s.get Reg.SYS_STRAP_ACT :=
    (State.get_put_ne _ _ _ (by decide)).trans ((State.get_put_ne _ _ _ (by decide)).trans (State.get_put_ne _ _ _ (by decide)))
  rw [State.retr, hstate, hcause, hparked, State.fitted, hfitted]
  by_cases hb : b = a
  · subst hb
    simp [State.retr, State.fitted]; rfl
  · have hne : a.val ≠ b.val := fun e => hb (Fin.ext e.symm)
    simp [State.retr, State.fitted, hb, hne]; rfl

/-- What a rejection sets is nothing that an actuator sees. -/
theorem State.retr_mtrReject (c : Nat) : (s.mtrReject c).retr = s.retr :=
  (FieldsKept.mtrReject s c).retr (by decide) (congrArg Spn.drv (s.mtrReject_spn c))

theorem State.retr_parkedTurn (hfail : s.flag Reg.SPT_STATUS_FAIL = false) :
    (s.parkedTurn a.val).retr b = if b = a then (s.retr a).released else s.retr b := by
  have hstate : (s.retr a).state = s.retState a.val := rfl
  rw [Retr.released, hstate]
  by_cases h1 : s.retState a.val = 1
  · rw [State.parkedTurn_of_retracting h1, State.retr_mtrReject, h1]
    by_cases hb : b = a <;> simp [hb]
  · by_cases h2 : s.retState a.val = 2
    · rw [State.parkedTurn_of_parked hfail h2, State.retr_released, if_pos h2]
    · rw [State.parkedTurn_of_command hfail h1 h2, if_neg h2]
      by_cases hb : b = a <;> simp [hb]

/-- The register fields that a write of MTR_RET_STATUS changes. -/
def parkedFields : List Field :=
  [Reg.MTR_RET_STATUS_STATE, Reg.MTR_RET_STATUS_PARKED, Reg.MTR_RET_STATUS_CAUSE, Reg.MTR_CFG_STATUS_ERR, Reg.MTR_CFG_STATUS_CODE]

theorem FieldsKept.parkedTurn (a : Nat) : FieldsKept s (s.parkedTurn a) parkedFields := by
  unfold State.parkedTurn
  split
  · exact (FieldsKept.mtrReject s 6).mono (by simp [parkedFields])
  · split
    · exact (((FieldsKept.refl s _).put _ _ (by simp [parkedFields])).put _ _ (by simp [parkedFields])).put _ _ (by simp [parkedFields])
    · exact FieldsKept.refl s _

theorem State.parkedTurn_spn (a : Nat) : (s.parkedTurn a).spn = s.spn := by
  unfold State.parkedTurn
  split
  · exact s.mtrReject_spn 6
  · split <;> rfl

end Release

theorem State.parkedClear_kept (s : State) (v : Nat) : (s.parkedClear v).spn = s.spn ∧ FieldsKept s (s.parkedClear v) parkedFields :=
  List.foldlRecOn (motive := fun t : State => t.spn = s.spn ∧ FieldsKept s t parkedFields) _ State.parkedTurn
    ⟨rfl, FieldsKept.refl s _⟩ fun t ht a _ => ⟨(t.parkedTurn_spn a).trans ht.1, ht.2.trans (FieldsKept.parkedTurn t a)⟩

/-- Bit 8 + a of a write of MTR_RET_STATUS is bit a of PARKED. -/
theorem hasBit_parkedBits (v : Nat) (a : Fin 4) : hasBit (bits v 11 8) a.val = hasBit v (8 + a.val) := by
  rw [bits, hasBit_eq_testBit, hasBit_eq_testBit, Nat.testBit_mod_two_pow, decide_eq_true a.isLt, Bool.true_and,
    Nat.testBit_div_two_pow, Nat.add_comm]

/-- Every actuator named is released where it is parked. -/
theorem State.retr_parkedClear {s : State} (hfail : s.flag Reg.SPT_STATUS_FAIL = false) (v : Nat) (a : Fin 4) :
    (s.parkedClear v).retr a = if hasBit v (8 + a.val) then (s.retr a).released else s.retr a := by
  refine (State.retr_each (I := fun t => t.flag Reg.SPT_STATUS_FAIL = false) (f := Retr.released) (fun t ht a => ?_)
    (fun t ht a b => t.retr_parkedTurn a b ht) (fun x hx => (mem_maskBits.mp hx).1) (maskBits_nodup 4 _) hfail a).trans ?_
  · rw [State.flag_eq, FieldsKept.parkedTurn t a _ (by decide), ← State.flag_eq, ht]
  · simp only [mem_maskBits, a.isLt, true_and, hasBit_parkedBits]

/-! ### Its rejections -/

/-- The first rejection since ERR was cleared was one with code 6. -/
def State.coded6 (s : State) : Prop := s.get Reg.MTR_CFG_STATUS_ERR = 1 ∧ s.get Reg.MTR_CFG_STATUS_CODE = 6

theorem State.coded6_mtrReject {s : State} (h : s.get Reg.MTR_CFG_STATUS_ERR = 0 ∨ s.coded6) : (s.mtrReject 6).coded6 := by
  rcases h with h | h
  · rw [State.mtrReject_of_noError h, State.coded6]
    simp (disch := decide) only [State.powerDie_cons, State.powerDie_nil_get, State.get_put_of_lt, State.get_put_ne, and_self]
  · rw [State.mtrReject, State.reject, if_pos (State.flag_of_one h.1)]
    exact h

/-- A PARKED bit either rejects, or keeps ERR and CODE. -/
theorem State.parkedTurn_cases (s : State) (a : Nat) : s.parkedTurn a = s.mtrReject 6 ∨
    FieldsKept s (s.parkedTurn a) [Reg.MTR_RET_STATUS_STATE, Reg.MTR_RET_STATUS_PARKED, Reg.MTR_RET_STATUS_CAUSE] := by
  unfold State.parkedTurn
  split
  · exact .inl rfl
  · split
    · exact .inr ((((FieldsKept.refl s _).put _ _ (by simp)).put _ _ (by simp)).put _ _ (by simp))
    · exact .inr (FieldsKept.refl s _)

theorem State.coded6_parkedTurn {s : State} (a : Nat) (h : s.coded6) : (s.parkedTurn a).coded6 := by
  rcases s.parkedTurn_cases a with hrej | hkept
  · rw [hrej]
    exact State.coded6_mtrReject (.inr h)
  · exact ⟨(hkept _ (by decide)).trans h.1, (hkept _ (by decide)).trans h.2⟩

/-- What a PARKED bit finds where actuator `a` retracts and no VIN fail stands. -/
structure State.Retracting (s : State) (a : Fin 4) : Prop where
  fail : s.flag Reg.SPT_STATUS_FAIL = false
  state : (s.retr a).state = 1
  code : s.get Reg.MTR_CFG_STATUS_ERR = 0 ∨ s.coded6

theorem State.Retracting.parkedTurn {s : State} {a : Fin 4} (h : s.Retracting a) (b : Fin 4) : (s.parkedTurn b.val).Retracting a where
  fail := by rw [State.flag_eq, FieldsKept.parkedTurn s b.val _ (by decide), ← State.flag_eq, h.fail]
  state := by
    rw [s.retr_parkedTurn b a h.fail]
    split
    · next hab => rw [← hab, Retr.released, h.state]; exact h.state
    · exact h.state
  code := by
    rcases s.parkedTurn_cases b.val with hrej | hkept
    · rw [hrej]
      exact .inr (State.coded6_mtrReject h.code)
    · exact h.code.imp (fun herr => (hkept _ (by decide)).trans herr) (s.coded6_parkedTurn b.val)

/-- A PARKED bit of an actuator that still retracts records code 6. -/
theorem State.coded6_parkedClear {s : State} {v : Nat} {a : Fin 4} (hbit : hasBit v (8 + a.val) = true) (h : s.Retracting a) :
    (s.parkedClear v).coded6 := by
  have hmem : a.val ∈ maskBits 4 (bits v 11 8) := mem_maskBits.mpr ⟨a.isLt, (hasBit_parkedBits v a).trans hbit⟩
  have hlt : ∀ x ∈ maskBits 4 (bits v 11 8), x < 4 := fun x hx => (mem_maskBits.mp hx).1
  obtain ⟨before, after, hsplit⟩ := List.append_of_mem hmem
  rw [hsplit] at hlt
  rw [State.parkedClear_eq, hsplit, State.each, List.foldl_append, List.foldl_cons]
  have hturn := List.foldlRecOn (motive := fun t : State => t.Retracting a) before State.parkedTurn h fun t ht x hx =>
    ht.parkedTurn ⟨x, hlt x (by simp [hx])⟩
  rw [State.parkedTurn_of_retracting hturn.state]
  exact List.foldlRecOn (motive := State.coded6) after State.parkedTurn (State.coded6_mtrReject hturn.code) fun t ht x _ =>
    t.coded6_parkedTurn x ht

theorem maskBits_ne_nil : ∀ n : Fin 16, n.val ≠ 0 → maskBits 4 n.val ≠ [] := by decide

/-- On a VIN fail every PARKED bit is rejected (R279). -/
theorem State.parkedClear_of_fail {s : State} {v : Nat} (hbits : bits v 11 8 ≠ 0) (hfail : s.get Reg.SPT_STATUS_FAIL = 1)
    (herr : s.get Reg.MTR_CFG_STATUS_ERR = 0) : s.parkedClear v = s.mtrReject 6 := by
  have hcode := State.coded6_mtrReject (.inl herr)
  have hstill : (s.mtrReject 6).flag Reg.SPT_STATUS_FAIL = true :=
    State.flag_of_one ((FieldsKept.mtrReject s 6 _ (by decide)).trans hfail)
  have hagain : ∀ a, (s.mtrReject 6).parkedTurn a = s.mtrReject 6 := fun a => by
    rw [State.parkedTurn_of_fail hstill]
    exact if_pos (State.flag_of_one hcode.1)
  obtain ⟨x, xs, hmask⟩ := List.exists_cons_of_ne_nil (maskBits_ne_nil ⟨bits v 11 8, Nat.mod_lt _ (by decide)⟩ hbits)
  rw [State.parkedClear_eq, hmask, State.each, List.foldl_cons, State.parkedTurn_of_fail (State.flag_of_one hfail)]
  exact List.foldlRecOn (motive := fun t => t = s.mtrReject 6) xs State.parkedTurn rfl fun t ht a _ => by rw [ht, hagain]

/-! ## RETRACT_DONE (R277) -/

/-- RET_TIME has passed: the actuator is parked and its bridge off. -/
theorem State.parked_retractDone {s : State} {a : Fin 4} (hret : s.retState a.val = 1) :
    ∃ t, execRetractDone a s = .next t ∧ t.retState a.val = 2 ∧ hasBit (t.get Reg.MTR_RET_STATUS_PARKED) a.val = true ∧ t.spn = s.spn ∧
      BytesKept s t ∧ FieldsKept s t [Reg.MTR_RET_STATUS_STATE, Reg.MTR_RET_STATUS_PARKED] := by
  refine ⟨(s.setRet a.val 2).setBitOf Reg.MTR_RET_STATUS_PARKED a.val, by simp only [execRetractDone, hret, if_true], ?_,
    State.hasBit_setBitOf_same _ a.isLt, rfl, BytesKept.of_mem rfl,
    ((FieldsKept.refl s _).put _ _ (by simp)).put _ _ (by simp)⟩
  have hstate : (s.setRet a.val 2).retState a.val = 2 := (s.retState_setRet a a (by decide)).trans (if_pos rfl)
  exact (congrArg (· / 4 ^ a.val % 4) (State.get_put_ne _ _ _ (by decide))).trans hstate

/-! ## The statement -/

/-- Settles O28, by the messages that are taken and those that wait, and by what retract and its release are to each actuator. -/
theorem driversAndRetract : Obligations.DriversAndRetract := by
  unfold Obligations.DriversAndRetract
  refine ⟨?micro, ?vcm, ?dropped, ?waits, ?stop, ?unfitted, ?stopWaits, ?command, ?done, ?notDone, ?release, ?failed⟩
  case micro =>
    intro a o c r s hd2d ho hclk hfit hret
    have hdrv := SMap.get_put_same s.spn.drv 0 (16 * a.val + o) c
    refine ⟨_, execDriverCommand_of_loaded hd2d hclk (by omega) hfit hret (by omega), rfl, hdrv, fun hen => ?_,
      FieldsKept.of_f (State.modSpn_f s _) _, BytesKept.of_mem (State.modSpn_mem s _)⟩
    exact (State.microOut_of_enabled (t := s.modSpn _) hfit hret hen).trans hdrv
  case vcm =>
    intro a c r s hd2d hclk hfit hret hen
    have hdrv := SMap.get_put_same s.spn.drv 0 (16 * a.val + 12) c
    refine ⟨_, execDriverCommand_of_loaded hd2d hclk (by decide) hfit hret fun _ => hen, rfl, hdrv, ?_,
      FieldsKept.of_f (State.modSpn_f s _) _, BytesKept.of_mem (State.modSpn_mem s _)⟩
    exact (State.coil_of_enabled (t := s.modSpn _) hfit hret hen).trans
      (congrArg (fun x => Coil.current (x * fullScale (s.get Reg.MTR_DRV_CTL_FS) a.val)) hdrv)
  case dropped =>
    intro a o c r s hd2d ho hclk h
    exact ⟨_, execDriverCommand_of_dropped hd2d hclk ho h, rfl, FieldsKept.of_f (State.modSpn_f s _) _,
      BytesKept.of_mem (State.modSpn_mem s _)⟩
  case waits => exact fun s h => ⟨s, execDriverCommand_of_waiting h, rfl⟩
  case stop =>
    intro a c r s hd2d hclk hfit hret
    obtain ⟨hstate, hcause, hmicro, hvcm, hcount⟩ := RetractBegun.retract (s := s.tookMessage r) hfit hret 1
    have hkept := Pulled.retract (s.tookMessage r) a 1
    obtain ⟨hoff, hcoil⟩ := hkept.outputs hfit hstate
    exact ⟨_, execStopMessage_of_stop hd2d hclk, congrArg Spn.d2d hkept.spn, hstate, hcause, hmicro, fun h => hoff h.val, hvcm, hcoil,
      hcount, BytesKept.of_mem hkept.mem, hkept.fields⟩
  case unfitted =>
    intro a c r s hd2d hclk hfit
    have hstill : (s.tookMessage r).retract a 1 = s.tookMessage r := if_neg (show ¬s.fitted a = true by simp [hfit])
    exact ⟨_, (execStopMessage_of_stop hd2d hclk).trans (congrArg Host.Outcome.next hstill), rfl,
      FieldsKept.of_f (State.modSpn_f s _) _, BytesKept.of_mem (State.modSpn_mem s _)⟩
  case stopWaits => exact fun s h => ⟨s, execStopMessage_of_waiting h, rfl⟩
  case command =>
    intro v s
    have hretr := s.retr_retCmd v.toNat
    have hkept := Pulled.retCmd s v.toNat
    refine ⟨_, rfl, fun a hbit hfit => ?_, fun a hno => ?_, BytesKept.of_mem hkept.mem, hkept.fields⟩
    · have hpulled := (hretr a).trans (if_pos hbit)
      refine ⟨((s.retCmd v.toNat).hasBit_cause a 3).trans ?_, (congrArg Retr.state hpulled).trans ?_⟩
      · rw [hpulled]
        exact Retr.hasBit_pulled hfit 3
      · rw [Retr.pulled, if_pos (show (s.retr a).fitted = true from hfit)]
        rfl
    · have hsame : (s.retCmd v.toNat).retr a = s.retr a := by
        rw [hretr, Retr.pulled]
        rcases Bool.and_eq_false_iff.mp hno with hbit | hfit
        · rw [if_neg (by simp [hbit])]
        · rw [if_neg (show ¬(s.retr a).fitted = true by simp [State.retr, hfit]), ite_self]
      exact ⟨congrArg Retr.state hsame, congrFun (congrArg Retr.drv hsame)⟩
  case done =>
    intro a s hret
    obtain ⟨t, hexec, hstate, hparked, hspn, hbytes, hfields⟩ := State.parked_retractDone hret
    exact ⟨t, hexec, hstate, by simp [State.coil, hstate], hparked, hspn, hbytes, hfields⟩
  case notDone => exact fun a s h => ⟨s, congrArg Host.Outcome.next (if_neg h), rfl⟩
  case release =>
    intro v s hfail
    have hretr := State.retr_parkedClear (State.flag_of_zero hfail) v.toNat
    obtain ⟨hspn, hfields⟩ := s.parkedClear_kept v.toNat
    refine ⟨_, rfl, fun a hbit h2 => ?_, fun a hno => ?_, fun a hbit h1 herr => ?_, hspn,
      BytesKept.of_mem (State.parkedClear_mem s v.toNat), hfields⟩
    · have hfree := (hretr a).trans (if_pos hbit)
      rw [Retr.released, if_pos (show (s.retr a).state = 2 from h2)] at hfree
      exact ⟨congrArg Retr.state hfree, congrArg Retr.parked hfree, congrArg Retr.cause hfree⟩
    · have hsame : (s.parkedClear v.toNat).retr a = s.retr a := by
        rw [hretr, Retr.released]
        rcases hno with hbit | h2
        · rw [if_neg (by simp [hbit])]
        · rw [if_neg (show ¬(s.retr a).state = 2 from h2), ite_self]
      exact ⟨congrArg Retr.state hsame, congrArg Retr.parked hsame, congrArg Retr.cause hsame⟩
    · exact (State.coded6_parkedClear hbit ⟨State.flag_of_zero hfail, h1, .inl herr⟩).2
  case failed =>
    intro v s hbits hfail herr
    exact ⟨_, congrArg Host.Outcome.next (State.parkedClear_of_fail hbits hfail herr),
      (State.coded6_mtrReject (.inl herr)).1, State.mtrRejected herr (by decide)⟩

end Sys2Proof.Machine
end

