-- ==== Sys2Proof/Proofs/SpindleRules.lean ====
section
/-! SUPPORT. The shared operations on the spindle (10 R258 to R266, R269, R270) as registers written and a power die replaced: its states
entered, the writes of MTR_SPN_CTL, a step's end, and a fault with its event and its retracts. -/

namespace Sys2Proof.Machine

/-! ## States entered (R262 to R265, R270) -/

/-- The power die with every spindle switch off. -/
def Spn.off (p : Spn) : Spn :=
  { p with step := 0, steps := [], zcAt := none, zcOk := 0, missRun := 0, since := 0, depth := 0, inRun := 0, outRun := 0, brake := 3 }

section Entered
variable (s : State)

theorem State.enterSpin_eq (v : Nat) : s.enterSpin v = s.powerDie [(Reg.MTR_SPN_STATUS_STATE, v)] s.spn :=
  State.put_eq_powerDie s _ v

theorem State.switchesOff_eq : s.switchesOff = s.powerDie [] s.spn.off := State.modSpn_eq_powerDie s Spn.off

theorem State.sense_eq : s.sense = s.powerDie [(Reg.MTR_SPN_STATUS_STATE, 1)] s.spn.off := by
  simp only [State.sense, State.enterSpin_eq, State.switchesOff_eq, State.powerDie_powerDie, State.powerDie_spn, List.nil_append]

theorem State.spinStart_eq : s.spinStart =
    s.powerDie [(Reg.MTR_SPN_STATUS_STATE, 1), (Reg.MTR_SPN_STATUS_CAUSE, 0), (Reg.MTR_LADDER_SHORT, 0)]
      { s.spn.off with spinUp := true, fails := 0, dir := s.flag Reg.MTR_SPN_CTL_DIR } := by
  simp only [State.spinStart, State.sense_eq, State.put_eq_powerDie, State.modSpn_eq_powerDie, State.powerDie_powerDie,
    State.powerDie_spn, List.cons_append, List.nil_append]

theorem State.brakeIn_eq (mode : Nat) : s.brakeIn mode = s.powerDie [(Reg.MTR_SPN_STATUS_STATE, 6)]
    { s.spn.off with spinUp := false, brake := if s.flag Reg.MTR_LADDER_SHORT then 2 else mode } := by
  simp only [State.brakeIn, State.enterSpin_eq, State.switchesOff_eq, State.modSpn_eq_powerDie, State.powerDie_powerDie,
    State.powerDie_spn, List.nil_append, List.append_nil]

theorem State.align_eq : s.align = s.powerDie [(Reg.MTR_SPN_STATUS_STATE, 2)]
    { s.spn with step := 1, brake := 3, steps := [], zcAt := none, zcOk := 0 } := by
  simp only [State.align, State.enterSpin_eq, State.modSpn_eq_powerDie, State.powerDie_powerDie, State.powerDie_spn, List.append_nil]

theorem State.accel_eq : s.accel = s.powerDie [(Reg.MTR_SPN_STATUS_STATE, 4)]
    { s.spn with target := s.get Reg.MTR_SPN_SET_RPM * 19200000000, missRun := 0 } := by
  simp only [State.accel, State.enterSpin_eq, State.modSpn_eq_powerDie, State.powerDie_powerDie, State.powerDie_spn, List.append_nil]

end Entered

/-! ## Writes of MTR_SPN_CTL (R262, R266, R270) -/

section Control
variable {s : State} {v : Nat}

/-- A direction may be turned up to 60 rpm (R266). -/
theorem State.mayTurn (h : bit v 8 = s.get Reg.MTR_SPN_CTL_DIR ∨ s.spn.measured ≤ 15360) :
    ¬(bit v 8 ≠ s.get Reg.MTR_SPN_CTL_DIR ∧ 60 * 256 < s.spn.measured) := by
  omega

/-- DIR and BRAKE_MODE as an accepted write leaves them. -/
def ctlWrites (v : Nat) : List (Field × Nat) := [(Reg.MTR_SPN_CTL_DIR, bit v 8), (Reg.MTR_SPN_CTL_BRAKE_MODE, bits v 5 4)]

theorem State.ctlTaken_eq (s : State) (v : Nat) :
    (s.put Reg.MTR_SPN_CTL_DIR (bit v 8)).put Reg.MTR_SPN_CTL_BRAKE_MODE (bits v 5 4) = s.powerDie (ctlWrites v) s.spn := by
  simp only [State.put_eq_powerDie, State.powerDie_powerDie, State.powerDie_spn, ctlWrites, List.cons_append, List.nil_append]

theorem State.flag_ctlTaken_ne (s : State) (v : Nat) (p : Spn) {F : Field} (hdir : F.key ≠ Reg.MTR_SPN_CTL_DIR.key)
    (hmode : F.key ≠ Reg.MTR_SPN_CTL_BRAKE_MODE.key) : (s.powerDie (ctlWrites v) p).flag F = s.flag F := by
  rw [State.flag_eq, State.flag_eq, ctlWrites, State.powerDie_cons, State.powerDie_cons, State.powerDie_nil_get,
    State.get_put_ne _ _ _ hmode, State.get_put_ne _ _ _ hdir]

theorem State.flag_ctlTaken_dir (s : State) (v : Nat) (p : Spn) : (s.powerDie (ctlWrites v) p).flag Reg.MTR_SPN_CTL_DIR = hasBit v 8 := by
  have hlt : bit v 8 < 2 ^ Reg.MTR_SPN_CTL_DIR.width := Nat.mod_lt _ (by decide)
  rw [State.flag_eq, ctlWrites, State.powerDie_cons, State.powerDie_cons, State.powerDie_nil_get,
    State.get_put_ne _ _ _ (by decide), State.get_put_of_lt _ hlt, bit_ne_zero]

theorem State.spnCtl_of_start (hcmd : bits v 1 0 = 1) (hfail : s.get Reg.SPT_STATUS_FAIL = 0) (hrest : s.spin = 0 ∨ s.spin = 7)
    (hdir : bit v 8 = s.get Reg.MTR_SPN_CTL_DIR ∨ s.spn.measured ≤ 15360) : s.spnCtl v =
      s.powerDie (ctlWrites v ++ [(Reg.MTR_SPN_STATUS_STATE, 1), (Reg.MTR_SPN_STATUS_CAUSE, 0), (Reg.MTR_LADDER_SHORT, 0)])
        { s.spn.off with spinUp := true, fails := 0, dir := hasBit v 8 } := by
  have hmay : ¬(s.get Reg.SPT_STATUS_FAIL ≠ 0 ∨ s.spin ≠ 0 ∧ s.spin ≠ 7) := by omega
  simp only [State.spnCtl, hcmd, State.flag_eq, bne_iff_ne, true_and, if_neg hmay, if_neg (State.mayTurn hdir),
    (by decide : ¬(1 = 3)), if_false, if_true, State.ctlTaken_eq, State.spinStart_eq, State.powerDie_powerDie, State.powerDie_spn]
  rw [← State.flag_eq, State.flag_ctlTaken_dir]

theorem State.spnCtl_of_stop (hcmd : bits v 1 0 = 2) (hdir : bit v 8 = s.get Reg.MTR_SPN_CTL_DIR ∨ s.spn.measured ≤ 15360) :
    s.spnCtl v = s.powerDie (ctlWrites v ++ [(Reg.MTR_SPN_STATUS_STATE, 6)]) { s.spn.off with
      spinUp := false
      brake := if s.flag Reg.MTR_LADDER_SHORT then 2 else if s.flag Reg.SPT_STATUS_FAIL then 0 else bits v 5 4 } := by
  simp only [State.spnCtl, hcmd, if_neg (State.mayTurn hdir), (by decide : ¬(2 = 3)), (by decide : ¬(2 = 1)), false_and, if_false,
    if_true, State.ctlTaken_eq, State.brakeIn_eq, State.powerDie_powerDie, State.powerDie_spn]
  rw [State.flag_ctlTaken_ne _ _ _ (by decide) (by decide), State.flag_ctlTaken_ne _ _ _ (by decide) (by decide)]

theorem State.spnCtl_of_denied (hcmd : bits v 1 0 = 1)
    (h : s.get Reg.SPT_STATUS_FAIL = 1 ∨ (s.spin ≠ 0 ∧ s.spin ≠ 7)) : s.spnCtl v = s.mtrReject 3 := by
  have hno : s.flag Reg.SPT_STATUS_FAIL = true ∨ s.spin ≠ 0 ∧ s.spin ≠ 7 := h.imp State.flag_of_one id
  simp only [State.spnCtl, hcmd, (by decide : ¬(1 = 3)), if_false, true_and, if_pos hno]

theorem State.spnCtl_of_turned (hcmd : bits v 1 0 ≠ 3)
    (hmay : ¬(bits v 1 0 = 1 ∧ (s.flag Reg.SPT_STATUS_FAIL = true ∨ s.spin ≠ 0 ∧ s.spin ≠ 7)))
    (hdir : bit v 8 ≠ s.get Reg.MTR_SPN_CTL_DIR) (hfast : 15360 < s.spn.measured) : s.spnCtl v = s.mtrReject 4 := by
  simp only [State.spnCtl, if_neg hcmd, if_neg hmay, if_pos (And.intro hdir (show 60 * 256 < s.spn.measured from hfast))]

theorem State.spnCtl_of_undefined (hcmd : bits v 1 0 = 3) : s.spnCtl v = s.mtrReject 2 := by
  simp only [State.spnCtl, hcmd, if_true]

end Control

/-! ## A fault (R261, R265, R269, R277) -/

/-- FAULT entered, before its event and its retracts. -/
def State.spinOff (s : State) (cause : Nat) : State :=
  s.powerDie [(Reg.MTR_SPN_STATUS_STATE, 7), (Reg.MTR_SPN_STATUS_CAUSE, cause), (Reg.MTR_LADDER_SHORT, 0)]
    { s.spn.off with spinUp := false }

theorem State.spinFault_eq (s : State) (cause event : Nat) : s.spinFault cause event =
    ((s.spinOff cause).raise event cause).pullUnparked.modPwr fun p => { p with headsLoaded := false } := by
  rw [← State.retractUnparked_eq]
  simp only [State.spinFault, State.spinOff, State.enterSpin_eq, State.switchesOff_eq, State.put_eq_powerDie, State.modSpn_eq_powerDie,
    State.powerDie_powerDie, State.powerDie_spn, List.cons_append, List.nil_append, List.append_nil]

theorem State.get_spinOff (s : State) {cause : Nat} (h : cause < 8) : (s.spinOff cause).get Reg.MTR_SPN_STATUS_STATE = 7 ∧
    (s.spinOff cause).get Reg.MTR_SPN_STATUS_CAUSE = cause ∧ (s.spinOff cause).get Reg.MTR_LADDER_SHORT = 0 := by
  have hwidth : cause < 2 ^ Reg.MTR_SPN_STATUS_CAUSE.width := h
  simp (disch := decide) only [State.spinOff, State.powerDie_cons, State.powerDie_nil_get, State.get_put_of_lt, State.get_put_ne,
    true_and, and_true]
  exact State.get_put_of_lt _ hwidth

/-- The register fields that a fault changes beside those of its event. -/
def spinFaultFields : List Field :=
  [Reg.MTR_SPN_STATUS_STATE, Reg.MTR_SPN_STATUS_CAUSE, Reg.MTR_LADDER_SHORT, Reg.MTR_RET_STATUS_STATE, Reg.MTR_RET_STATUS_CAUSE,
    Reg.MTR_RET_CNT_COUNT]

/-- The spindle in FAULT, with its cause, and the actuators on their way to the ramp. -/
structure SpinFaulted (s t : State) (cause : Nat) : Prop where
  spin : t.spin = 7
  cause : t.get Reg.MTR_SPN_STATUS_CAUSE = cause
  step : t.spn.step = 0
  brake : t.spn.brake = 3
  spinUp : t.spn.spinUp = false
  short : t.get Reg.MTR_LADDER_SHORT = 0
  heads : t.pwr.headsLoaded = false
  retracts : ∀ a : Fin 4, s.fitted a.val = true → s.retState a.val ≠ 2 →
    hasBit (t.get Reg.MTR_RET_STATUS_CAUSE) (4 * a.val + 3) = true
  event : EventFrame s t spinFaultFields

/-- An event, and what follows it and keeps the fields beside those of the frame. -/
theorem EventFrame.trans_kept {s t u : State} {K : List Field} (h : EventFrame s t K) (k : FieldsKept t u (K ++ eventFields))
    (hmem : u.mem = t.mem) : EventFrame s u K :=
  ⟨h.1.trans k, h.2.trans ((BytesKept.of_mem hmem).but _ _)⟩

theorem SpinFaulted.spinFault (s : State) {cause : Nat} (hcause : cause < 8) (event : Nat) :
    SpinFaulted s (s.spinFault cause event) cause := by
  have hoff : FieldsKept s (s.spinOff cause) [Reg.MTR_SPN_STATUS_STATE, Reg.MTR_SPN_STATUS_CAUSE, Reg.MTR_LADDER_SHORT] :=
    FieldsKept.powerDie s _ _
  obtain ⟨hstate, hcauseOff, hshort⟩ := s.get_spinOff hcause
  have hraise := EventFrame.raise (s.spinOff cause) event cause
  have hspn : ((s.spinOff cause).raise event cause).spn = { s.spn.off with spinUp := false } :=
    State.spn_of_apart (State.raise_apart _ event cause)
  have hretr : ((s.spinOff cause).raise event cause).retr = s.retr :=
    (hraise.1.retr (by decide) (congrArg Spn.drv hspn)).trans (hoff.retr (by decide) rfl)
  have hpull := Pulled.pullUnparked ((s.spinOff cause).raise event cause)
  have hpulledSpn := hpull.spn
  rw [hspn] at hpulledSpn
  have hget : ∀ F : Field, F.key ∉ (retractFields ++ eventFields).map Field.key →
      ((s.spinOff cause).raise event cause).pullUnparked.get F = (s.spinOff cause).get F := fun F hF => by
    rw [List.map_append, List.mem_append, not_or] at hF
    exact (hpull.fields F hF.1).trans (hraise.1 F hF.2)
  have hframe : EventFrame s ((s.spinOff cause).raise event cause) spinFaultFields :=
    .after (hoff.mono (by simp [spinFaultFields])) (State.powerDie_mem s _ _) (congrArg Evr.nextSeq (State.powerDie_evr s _ _))
      (by decide) hraise
  rw [State.spinFault_eq]
  refine ⟨(hget _ (by decide)).trans hstate, (hget _ (by decide)).trans hcauseOff, congrArg Spn.step hpulledSpn,
    congrArg Spn.brake hpulledSpn, congrArg Spn.spinUp hpulledSpn, (hget _ (by decide)).trans hshort, rfl, fun a hfit hret => ?_,
    hframe.trans_kept (hpull.fields.mono (by simp [retractFields, spinFaultFields])) hpull.mem⟩
  have hpulled := ((s.spinOff cause).raise event cause).retr_pullUnparked a
  rw [hretr, if_neg (show ¬(s.retr a).state = 2 from hret)] at hpulled
  refine (((s.spinOff cause).raise event cause).pullUnparked.hasBit_cause a 3).trans ?_
  rw [hpulled]
  exact Retr.hasBit_pulled hfit 3

end Sys2Proof.Machine
end

