-- ==== Sys2Proof/Proofs/SpindleFaults.lean ====
section
/-! SUPPORT. What ends a spindle's run (10 R261, R266, R267, R269, R270): steps without a zero crossing, faults, STOP and the end of a
brake, with the way to Doze (02 R61). -/

namespace Sys2Proof.Machine

/-! ## The end of a brake (R270) -/

/-- The spindle STOPPED after a brake, its last speed noted. -/
def State.stoppedAt (s : State) (v : Nat) : State :=
  (s.powerDie [(Reg.MTR_SPN_STATUS_STATE, 0), (Reg.MTR_LADDER_SHORT, 0), (Reg.MTR_SPN_STATUS_AT_SPEED, 0)] s.spn.off).noteSpeed v

theorem execBrakeStop_of_stopped {s : State} {v : Nat} (hspin : s.spin = 6) (hv : v < 2560) :
    execBrakeStop v s = .next (s.stoppedAt v).spunDown := by
  have hstop : s.spin = 6 ∧ v < 10 * 256 := ⟨hspin, hv⟩
  simp only [execBrakeStop, if_pos hstop, State.stoppedAt, State.enterSpin_eq, State.switchesOff_eq, State.put_eq_powerDie,
    State.powerDie_powerDie, State.powerDie_spn, List.cons_append, List.nil_append]

theorem State.stoppedAt_get (s : State) (v : Nat) : (s.stoppedAt v).spin = 0 ∧ (s.stoppedAt v).get Reg.MTR_LADDER_SHORT = 0 ∧
    (s.stoppedAt v).get Reg.MTR_SPN_STATUS_AT_SPEED = 0 := by
  simp (disch := decide) only [State.spin, State.stoppedAt, State.noteSpeed_get_ne, State.powerDie_cons, State.powerDie_nil_get,
    State.get_put_of_lt, State.get_put_ne, and_self]

theorem State.stoppedAt_spn (s : State) (v : Nat) : (s.stoppedAt v).spn = { s.spn.off with measured := v } := State.noteSpeed_spn _ v

theorem State.stoppedAt_pwr (s : State) (v : Nat) : (s.stoppedAt v).pwr = s.pwr := State.noteSpeed_pwr _ v

theorem FieldsKept.stoppedAt (s : State) (v : Nat) : FieldsKept s (s.stoppedAt v)
    [Reg.MTR_SPN_STATUS_STATE, Reg.MTR_LADDER_SHORT, Reg.MTR_SPN_STATUS_AT_SPEED, Reg.MTR_SPN_SPEED_SPEED] :=
  ((FieldsKept.powerDie s _ _).mono (by simp)).trans ((FieldsKept.noteSpeed _ v).mono (by simp))

theorem State.stoppedAt_mem (s : State) (v : Nat) : (s.stoppedAt v).mem = s.mem :=
  (State.noteSpeed_mem _ v).trans (State.powerDie_mem s _ _)

/-! ## The way to Doze (02 R61) -/

/-- What the withdrawal of requests leaves: the spindle's state and the device's power state. -/
structure PowerKept (s t : State) : Prop where
  spin : t.spin = s.spin
  dev : t.pwr.dev = s.pwr.dev
  spinDown : t.pwr.spinDown = s.pwr.spinDown

theorem PowerKept.trans {s t u : State} (h : PowerKept s t) (k : PowerKept t u) : PowerKept s u :=
  ⟨k.spin.trans h.spin, k.dev.trans h.dev, k.spinDown.trans h.spinDown⟩

theorem PowerKept.putDom (s : State) (d : Nat) (x : DomSt) : PowerKept s (s.putDom d x) := by
  refine ⟨State.get_put_ne _ _ _ ?_, rfl, rfl⟩
  simp only [Field.key, Reg.MTR_SPN_STATUS_STATE, Reg.SYS_PD_STAT_ON]
  omega

theorem PowerKept.settleDoms (s : State) : PowerKept s s.settleDoms := by
  refine List.foldlRecOn (motive := fun t : State => PowerKept s t) _ _ ⟨rfl, rfl, rfl⟩ fun t ht d _ => ht.trans ?_
  split
  · exact PowerKept.putDom t d _
  · exact ⟨rfl, rfl, rfl⟩

theorem PowerKept.putReqWords (s : State) (w : Nat) : PowerKept s (s.putReqWords w) where
  spin := (State.get_put_ne _ _ _ (by decide)).trans ((State.get_put_ne _ _ _ (by decide)).trans (State.get_put_ne _ _ _ (by decide)))
  dev := rfl
  spinDown := rfl

theorem PowerKept.withdraw (s : State) (keep : Nat → Bool) : PowerKept s (s.withdraw keep) := by
  unfold State.withdraw
  dsimp only
  generalize List.foldl setBit 0 _ = k
  have hheld : PowerKept s (s.modPwr fun p => { p with idleReq := p.idleReq ||| (s.reqWords - k) }) := ⟨rfl, rfl, rfl⟩
  exact (hheld.trans (PowerKept.putReqWords _ k)).trans (PowerKept.settleDoms _)

/-- The device in Doze, its requests not yet withdrawn. -/
def State.dozed (s : State) : State :=
  s.setPwr { s.pwr with spinDown := false, spinCmd := false, dozing := false, dev := .doze }

theorem State.spunDown_of_doze {s : State} (hdown : s.pwr.spinDown = true) (hcmd : s.pwr.spinCmd = false) :
    s.spunDown = s.dozed.withdraw s.dozeKeeps := by
  simp only [State.spunDown, hdown, hcmd, if_true, Bool.false_eq_true, if_false, State.dozed]

theorem State.spunDown_of_stay {s : State} (h : s.pwr.spinDown = false) : s.spunDown = s := if_neg (by simp [h])

/-! ## The statement -/

/-- Settles O26, by the two ways of a step's end, by what a fault leaves, and by what a write of MTR_SPN_CTL with CMD 2 comes to. -/
theorem spindleFaults : Obligations.SpindleFaults := by
  unfold Obligations.SpindleFaults
  refine ⟨?miss, ?noMiss, ?lost, ?notLost, ?timeout, ?noTimeout, ?stop, ?stopFail, ?stopShort, ?turned, ?brakeEnd, ?doze, ?noEnd, ?wedges⟩
  case miss =>
    intro s hspin hz
    refine ⟨_, congrArg Host.Outcome.next (if_pos ⟨hspin, hz⟩), rfl, rfl, rfl, ?_, ?_, BytesKept.of_mem ?_⟩
    · exact (State.get_incBy_same _ _ 1).trans (State.counted_congr rfl 1)
    · exact (FieldsKept.of_f (State.nextStep_f s (4 * s.halfMean)) _).incBy _ 1 (by simp)
    · exact State.nextStep_mem s (4 * s.halfMean)
  case noMiss => exact fun s h => ⟨s, congrArg Host.Outcome.next (if_neg (by tauto)), rfl⟩
  case lost =>
    intro s hspin hmiss
    obtain ⟨h7, hcause, hstep, hbrake, hup, hshort, hheads, hretracts, hevent⟩ := SpinFaulted.spinFault s (cause := 1) (by decide) 0x0503
    exact ⟨_, congrArg Host.Outcome.next (if_pos ⟨hspin, hmiss⟩), h7, hcause, hstep, hbrake, hup, hshort, hheads, hretracts, hevent⟩
  case notLost => exact fun s h => ⟨s, congrArg Host.Outcome.next (if_neg (by omega)), rfl⟩
  case timeout =>
    intro s hup
    obtain ⟨h7, hcause, hstep, -, hover, -, hheads, hretracts, hevent⟩ := SpinFaulted.spinFault s (cause := 2) (by decide) 0x0503
    exact ⟨_, congrArg Host.Outcome.next (if_pos hup), h7, hcause, hstep, hover, hheads, hretracts, hevent⟩
  case noTimeout => exact fun s h => ⟨s, congrArg Host.Outcome.next (if_neg (by simp [h])), rfl⟩
  case stop =>
    intro v s hcmd hfail hshort hdir
    refine ⟨_, congrArg Host.Outcome.next (State.spnCtl_of_stop hcmd hdir),
      State.powerDie_get_last s _ _ (by decide), ?_, rfl, rfl, BytesKept.powerDie s _ _, FieldsKept.powerDie s _ _⟩
    simp [State.flag_of_zero hfail, State.flag_of_zero hshort]
  case stopFail =>
    intro v s hcmd hfail hshort hdir
    refine ⟨_, congrArg Host.Outcome.next (State.spnCtl_of_stop hcmd (.inl hdir)),
      State.powerDie_get_last s _ _ (by decide), ?_, BytesKept.powerDie s _ _, FieldsKept.powerDie s _ _⟩
    simp [State.flag_of_one hfail, State.flag_of_zero hshort]
  case stopShort =>
    intro v s hcmd hshort hdir
    refine ⟨_, congrArg Host.Outcome.next (State.spnCtl_of_stop hcmd (.inl hdir)),
      State.powerDie_get_last s _ _ (by decide), ?_, BytesKept.powerDie s _ _, FieldsKept.powerDie s _ _⟩
    simp [State.flag_of_one hshort]
  case turned =>
    intro v s hcmd hdir hfast herr
    exact ⟨_, congrArg Host.Outcome.next (State.spnCtl_of_turned (by omega) (by omega) hdir hfast), State.mtrRejected herr (by decide)⟩
  case brakeEnd =>
    intro v s hspin hv hstay
    have hend := State.spunDown_of_stay ((congrArg Power.spinDown (s.stoppedAt_pwr v)).trans hstay)
    obtain ⟨h0, hshort, hat⟩ := s.stoppedAt_get v
    refine ⟨_, (execBrakeStop_of_stopped hspin hv).trans (congrArg Host.Outcome.next hend), h0, ?_, ?_, hshort, hat,
      BytesKept.of_mem (s.stoppedAt_mem v), FieldsKept.stoppedAt s v⟩
    · rw [State.stoppedAt_spn]; rfl
    · rw [State.stoppedAt_spn]
  case doze =>
    intro v s hspin hv hdown hcmd
    have hpwr := s.stoppedAt_pwr v
    have hend := State.spunDown_of_doze ((congrArg Power.spinDown hpwr).trans hdown) ((congrArg Power.spinCmd hpwr).trans hcmd)
    obtain ⟨hstate, hdev, hspun⟩ := PowerKept.withdraw (s.stoppedAt v).dozed (s.stoppedAt v).dozeKeeps
    exact ⟨_, (execBrakeStop_of_stopped hspin hv).trans (congrArg Host.Outcome.next hend), hstate.trans (s.stoppedAt_get v).1, hdev, hspun⟩
  case noEnd => exact fun v s h => ⟨s, congrArg Host.Outcome.next (if_neg (by omega)), rfl⟩
  case wedges =>
    exact fun s => ⟨_, rfl, rfl, State.get_put_of_lt _ (by decide), (FieldsKept.of_f (State.modSpn_f s _) _).put _ _ (by simp),
      BytesKept.of_mem rfl⟩

end Sys2Proof.Machine
end

