-- ==== Sys2Proof/Proofs/MotorBus.lean ====
section
/-! SUPPORT. The motor bus (10 R256, R257, R271 to R273): voltages recorded, the chopper and its faults, the ladder's short brake and
over-voltage, and the input switch. -/

namespace Sys2Proof.Machine

/-! ## Voltages recorded -/

/-- VMOT and VIN hold 16 bits of mV. -/
theorem millivolts_lt (v : Nat) : min v 0xFFFF < 2 ^ 16 := by omega

section Recorded
variable (s : State) (v : Nat)

theorem State.get_vmot : (s.vmot v).get Reg.MTR_VMOT_VMOT = min v 0xFFFF := State.get_put_of_lt s (millivolts_lt v)

theorem State.get_vin : (s.vin v).get Reg.MTR_VMOT_VIN = min v 0xFFFF := State.get_put_of_lt s (millivolts_lt v)

theorem State.vmot_get_ne {F : Field} (h : F.key ≠ Reg.MTR_VMOT_VMOT.key) : (s.vmot v).get F = s.get F := State.get_put_ne s _ _ h

theorem State.vin_get_ne {F : Field} (h : F.key ≠ Reg.MTR_VMOT_VIN.key) : (s.vin v).get F = s.get F := State.get_put_ne s _ _ h

theorem FieldsKept.vmot : FieldsKept s (s.vmot v) [Reg.MTR_VMOT_VMOT] := (FieldsKept.refl s _).put _ _ (by simp)

theorem FieldsKept.vin : FieldsKept s (s.vin v) [Reg.MTR_VMOT_VIN] := (FieldsKept.refl s _).put _ _ (by simp)

theorem State.flag_vmot {F : Field} (h : F.key ≠ Reg.MTR_VMOT_VMOT.key) : (s.vmot v).flag F = s.flag F := by
  rw [State.flag_eq, State.vmot_get_ne s v h, State.flag_eq]

end Recorded

theorem EventFrame.mono {s t : State} {K L : List Field} (h : EventFrame s t K) (hKL : K ⊆ L) : EventFrame s t L :=
  ⟨h.1.mono (List.append_subset.mpr ⟨List.Subset.trans hKL (List.subset_append_left L _), List.subset_append_right L _⟩), h.2⟩

/-- What happened after a change that left the ring's next record where it is. -/
theorem EventFrame.after_kept {s t u : State} {K L : List Field} (h : FieldsKept s t K) (hmem : t.mem = s.mem)
    (hseq : t.evr.nextSeq = s.evr.nextSeq) (hbase : Reg.EVR_RING_BASE_ADDR.key ∉ K.map Field.key) (k : EventFrame t u L)
    (hL : L ⊆ K) : EventFrame s u K := by
  obtain ⟨hfields, hbytes⟩ := k.mono hL
  rw [h _ hbase, hseq] at hbytes
  exact ⟨(h.mono (List.subset_append_left K _)).trans hfields, ((BytesKept.of_mem hmem).but _ _).trans hbytes⟩

/-! ## The chopper (R271 to R273) -/

section Chopper
variable {s : State} {v : Nat}

/-- The chopper turned on and counted. -/
def State.chopped (s : State) (v : Nat) : State :=
  (((s.vmot v).put Reg.MTR_LADDER_CHOP 1).inc Reg.MTR_CHOP_CNT_COUNT).modSpn fun p => { p with vmotOn := v }

theorem State.get_chopped (s : State) (v : Nat) : (s.chopped v).get Reg.MTR_LADDER_CHOP = 1 ∧
    (s.chopped v).get Reg.MTR_VMOT_VMOT = min v 0xFFFF ∧
    (s.chopped v).get Reg.MTR_CHOP_CNT_COUNT = s.counted Reg.MTR_CHOP_CNT_COUNT 1 ∧
    FieldsKept s (s.chopped v) [Reg.MTR_LADDER_CHOP, Reg.MTR_VMOT_VMOT, Reg.MTR_CHOP_CNT_COUNT] := by
  have hcount : ∀ F : Field, F.key ≠ Reg.MTR_CHOP_CNT_COUNT.key →
      (s.chopped v).get F = ((s.vmot v).put Reg.MTR_LADDER_CHOP 1).get F := fun F hF => State.get_incBy_ne _ _ 1 hF
  refine ⟨(hcount _ (by decide)).trans (State.get_put_of_lt _ (by decide)), (hcount _ (by decide)).trans ?_,
    (State.get_incBy_same _ _ 1).trans (State.counted_congr ?_ 1), ?_⟩
  · rw [State.get_put_ne _ _ _ (by decide), State.get_vmot]
  · rw [State.get_put_ne _ _ _ (by decide), State.vmot_get_ne s v (by decide)]
  · exact ((((FieldsKept.vmot s v).mono (by simp)).put _ _ (by simp)).incBy _ 1 (by simp)).trans
      (FieldsKept.of_f (State.modSpn_f _ _) _)

theorem execChopperOn_of_on (hv : 13200 ≤ v) (hchop : s.get Reg.MTR_LADDER_CHOP = 0) (hfault : s.get Reg.MTR_LADDER_CHOP_FAULT = 0)
    (hhigh : s.get Reg.MTR_LADDER_VIN_HIGH = 0) : execChopperOn v s = .next (s.chopped v) := by
  have hon : (decide (13200 ≤ v) && !(s.vmot v).flag Reg.MTR_LADDER_CHOP && !(s.vmot v).flag Reg.MTR_LADDER_CHOP_FAULT &&
      !(s.vmot v).flag Reg.MTR_LADDER_VIN_HIGH) = true := by
    rw [State.flag_vmot _ _ (by decide), State.flag_vmot _ _ (by decide), State.flag_vmot _ _ (by decide), State.flag_of_zero hchop,
      State.flag_of_zero hfault, State.flag_of_zero hhigh, decide_eq_true hv]
    rfl
  simp only [execChopperOn, hon, if_true, State.chopped]

theorem execChopperOn_of_held (h : v < 13200 ∨ s.get Reg.MTR_LADDER_CHOP = 1 ∨ s.get Reg.MTR_LADDER_CHOP_FAULT = 1 ∨
    s.get Reg.MTR_LADDER_VIN_HIGH = 1) : execChopperOn v s = .next (s.vmot v) := by
  have hoff : (decide (13200 ≤ v) && !(s.vmot v).flag Reg.MTR_LADDER_CHOP && !(s.vmot v).flag Reg.MTR_LADDER_CHOP_FAULT &&
      !(s.vmot v).flag Reg.MTR_LADDER_VIN_HIGH) = false := by
    rw [State.flag_vmot _ _ (by decide), State.flag_vmot _ _ (by decide), State.flag_vmot _ _ (by decide)]
    rcases h with h | h | h | h
    · rw [decide_eq_false (by omega)]; rfl
    · simp [State.flag_of_one h]
    · simp [State.flag_of_one h]
    · simp [State.flag_of_one h]
  simp only [execChopperOn, hoff, Bool.false_eq_true, if_false]

theorem execChopperFault_of_early (h : s.flag Reg.MTR_LADDER_CHOP = true) :
    execChopperFault false v s = .next (if v < 1000 then s.chopFault 1 else s) := by
  simp only [execChopperFault, h, if_true, Bool.false_eq_true, if_false]

theorem execChopperFault_of_late (h : s.flag Reg.MTR_LADDER_CHOP = true) :
    execChopperFault true v s = .next (if s.spn.vmotOn < v then (s.vmot v).chopFault 2 else s.vmot v) := by
  simp only [execChopperFault, h, if_true]

/-- A chopper fault declared: latched with its cause, the chopper off, an event. -/
structure ChopFaulted (s t : State) (c : Nat) : Prop where
  fault : t.get Reg.MTR_LADDER_CHOP_FAULT = 1
  cause : t.get Reg.MTR_LADDER_CF_CAUSE = c
  chop : t.get Reg.MTR_LADDER_CHOP = 0
  spn : t.spn = s.spn
  event : EventFrame s t [Reg.MTR_LADDER_CHOP_FAULT, Reg.MTR_LADDER_CF_CAUSE, Reg.MTR_LADDER_CHOP]

theorem ChopFaulted.chopFault (h : s.get Reg.MTR_LADDER_CHOP_FAULT = 0) {c : Nat} (hc : c < 4) : ChopFaulted s (s.chopFault c) c := by
  have hcause : c < 2 ^ Reg.MTR_LADDER_CF_CAUSE.width := hc
  rw [State.chopFault, State.flag_of_zero h, if_neg Bool.false_ne_true]
  have hkept : FieldsKept s (((s.put Reg.MTR_LADDER_CHOP_FAULT 1).put Reg.MTR_LADDER_CF_CAUSE c).put Reg.MTR_LADDER_CHOP 0)
      [Reg.MTR_LADDER_CHOP_FAULT, Reg.MTR_LADDER_CF_CAUSE, Reg.MTR_LADDER_CHOP] :=
    (((FieldsKept.refl s _).put _ _ (by simp)).put _ _ (by simp)).put _ _ (by simp)
  have hraise := EventFrame.raise (((s.put Reg.MTR_LADDER_CHOP_FAULT 1).put Reg.MTR_LADDER_CF_CAUSE c).put Reg.MTR_LADDER_CHOP 0) 0x0501 c
  refine ⟨(hraise.1 _ (by decide)).trans ?_, (hraise.1 _ (by decide)).trans ?_, (hraise.1 _ (by decide)).trans ?_,
    State.spn_of_apart (State.raise_apart _ _ _), hraise.after_kept hkept rfl rfl (by decide) (List.nil_subset _)⟩
  · simp (disch := decide) only [State.get_put_ne, State.get_put_of_lt]
  · rw [State.get_put_ne _ _ _ (by decide), State.get_put_of_lt _ hcause]
  · exact State.get_put_of_lt _ (by decide)

end Chopper

/-! ## The ladder (R271, R272) -/

section Ladder
variable {s : State} {v : Nat}

/-- The ladder brakes the spindle short. -/
def State.shorted (s : State) : State := (s.put Reg.MTR_LADDER_SHORT 1).brakeIn 2

theorem State.shorted_eq (s : State) : s.shorted =
    s.powerDie [(Reg.MTR_LADDER_SHORT, 1), (Reg.MTR_SPN_STATUS_STATE, 6)] { s.spn.off with spinUp := false, brake := 2 } := by
  simp only [State.shorted, State.brakeIn_eq, State.put_eq_powerDie, State.powerDie_powerDie, State.powerDie_spn, List.cons_append,
    List.nil_append, ite_self]

theorem State.get_shorted (s : State) : s.shorted.spin = 6 ∧ s.shorted.get Reg.MTR_LADDER_SHORT = 1 := by
  simp (disch := decide) only [State.shorted_eq, State.spin, State.powerDie_cons, State.powerDie_nil_get, State.get_put_of_lt,
    State.get_put_ne, and_self]

theorem State.shorted_spn (s : State) : s.shorted.spn = { s.spn.off with spinUp := false, brake := 2 } := by
  rw [State.shorted_eq, State.powerDie_spn]

theorem State.shorted_mem (s : State) : s.shorted.mem = s.mem := by rw [State.shorted_eq, State.powerDie_mem]

theorem FieldsKept.shorted (s : State) : FieldsKept s s.shorted [Reg.MTR_LADDER_SHORT, Reg.MTR_SPN_STATUS_STATE] := by
  rw [State.shorted_eq]
  exact FieldsKept.powerDie s _ _

theorem execLadderShortBrake_of_turning (hv : 13800 ≤ v) (h0 : ((s.vmot v).chopFault 3).spin ≠ 0)
    (h7 : ((s.vmot v).chopFault 3).spin ≠ 7) : execLadderShortBrake v s = .next ((s.vmot v).chopFault 3).shorted := by
  simp only [execLadderShortBrake, if_pos hv, if_neg (not_or.mpr ⟨h0, h7⟩), State.shorted]

theorem execLadderShortBrake_of_still (hv : 13800 ≤ v) (h : ((s.vmot v).chopFault 3).spin = 0 ∨ ((s.vmot v).chopFault 3).spin = 7) :
    execLadderShortBrake v s = .next ((s.vmot v).chopFault 3) := by
  simp only [execLadderShortBrake, if_pos hv, if_pos h]

/-- With a chopper fault latched no other is declared. -/
theorem State.chopFault_of_latched (h : s.get Reg.MTR_LADDER_CHOP_FAULT = 1) (c : Nat) : s.chopFault c = s :=
  if_pos (State.flag_of_one h)

/-- A chopper fault after VMOT has been recorded. -/
theorem ChopFaulted.vmot (h : s.get Reg.MTR_LADDER_CHOP_FAULT = 0) {c : Nat} (hc : c < 4) :
    ChopFaulted (s.vmot v) ((s.vmot v).chopFault c) c :=
  ChopFaulted.chopFault ((s.vmot_get_ne v (by decide)).trans h) hc

/-- The register fields that a chopper fault changes, with VMOT. -/
def chopFaultFields : List Field :=
  [Reg.MTR_LADDER_CHOP_FAULT, Reg.MTR_LADDER_CF_CAUSE, Reg.MTR_LADDER_CHOP, Reg.MTR_VMOT_VMOT]

theorem ChopFaulted.event_vmot {t : State} {c : Nat} (h : ChopFaulted (s.vmot v) t c) : EventFrame s t chopFaultFields :=
  h.event.after_kept ((FieldsKept.vmot s v).mono (by simp [chopFaultFields])) rfl rfl (by decide) (by simp [chopFaultFields])

theorem ChopFaulted.get_vmot {t : State} {c : Nat} (h : ChopFaulted (s.vmot v) t c) : t.get Reg.MTR_VMOT_VMOT = min v 0xFFFF :=
  (h.event.1 _ (by decide)).trans (s.get_vmot v)

/-- The spindle's state stays until the ladder brakes it. -/
theorem ChopFaulted.spin {t : State} {c : Nat} (h : ChopFaulted (s.vmot v) t c) : t.spin = s.spin :=
  h.event_vmot.1 _ (by decide)

/-- The state with over-voltage latched and counted, before the fault. -/
def State.overVolted (s : State) (v : Nat) : State :=
  (((s.vmot v).put Reg.MTR_LADDER_OVP 1).put Reg.MTR_LADDER_CHOP 0).inc Reg.MTR_OVP_CNT_COUNT

theorem State.get_overVolted (s : State) (v : Nat) : (s.overVolted v).get Reg.MTR_LADDER_OVP = 1 ∧
    (s.overVolted v).get Reg.MTR_LADDER_CHOP = 0 ∧
    (s.overVolted v).get Reg.MTR_OVP_CNT_COUNT = s.counted Reg.MTR_OVP_CNT_COUNT 1 := by
  have hcount : ∀ F : Field, F.key ≠ Reg.MTR_OVP_CNT_COUNT.key →
      (s.overVolted v).get F = (((s.vmot v).put Reg.MTR_LADDER_OVP 1).put Reg.MTR_LADDER_CHOP 0).get F :=
    fun F hF => State.get_incBy_ne _ _ 1 hF
  refine ⟨(hcount _ (by decide)).trans ?_, (hcount _ (by decide)).trans (State.get_put_of_lt _ (by decide)),
    (State.get_incBy_same _ _ 1).trans (State.counted_congr ?_ 1)⟩
  · rw [State.get_put_ne _ _ _ (by decide), State.get_put_of_lt _ (by decide)]
  · rw [State.get_put_ne _ _ _ (by decide), State.get_put_ne _ _ _ (by decide), State.vmot_get_ne s v (by decide)]

theorem FieldsKept.overVolted (s : State) (v : Nat) : FieldsKept s (s.overVolted v)
    [Reg.MTR_LADDER_OVP, Reg.MTR_LADDER_CHOP, Reg.MTR_OVP_CNT_COUNT, Reg.MTR_VMOT_VMOT] :=
  ((((FieldsKept.vmot s v).mono (by simp)).put _ _ (by simp)).put _ _ (by simp)).incBy _ 1 (by simp)

end Ladder

/-! ## The input switch (R256) -/

/-- The switch after a look at whether it opens. -/
def Spn.opened (p : Spn) (vin vm : Nat) : Spn :=
  { p with switchOpen := p.switchOpen || decide (vin + 200 < vm) || decide (vin ≤ 10400)
           vinFailed := p.vinFailed || decide (vin ≤ 10400) }

/-- The switch after a look at whether it closes. -/
def Spn.closed (p : Spn) (vin vm : Nat) : Spn := { p with switchOpen := p.switchOpen && (p.vinFailed || decide (vin ≤ vm + 100)) }

section Switch
variable (p : Spn) {vin vm : Nat}

theorem Spn.opened_of_fail (h : vin ≤ 10400) : p.opened vin vm = { p with switchOpen := true, vinFailed := true } := by
  simp [Spn.opened, h]

theorem Spn.opened_of_above (h : 10400 < vin) :
    p.opened vin vm = { p with switchOpen := p.switchOpen || decide (vin + 200 < vm) } := by
  simp [Spn.opened, h]

theorem Spn.opened_of_reverse (h : 10400 < vin) (hvm : vin + 200 < vm) : p.opened vin vm = { p with switchOpen := true } := by
  rw [Spn.opened_of_above p h, decide_eq_true hvm, Bool.or_true]

theorem Spn.opened_of_forward (h : 10400 < vin) (hvm : vm ≤ vin + 200) : p.opened vin vm = p := by
  rw [Spn.opened_of_above p h, decide_eq_false (by omega), Bool.or_false]

theorem Spn.closed_of_forward (h : p.vinFailed = false) (hvm : vm + 100 < vin) : p.closed vin vm = { p with switchOpen := false } := by
  have hcloses : (p.switchOpen && (p.vinFailed || decide (vin ≤ vm + 100))) = false := by
    rw [h, decide_eq_false (by omega), Bool.or_false, Bool.and_false]
  exact congrArg (fun b => { p with switchOpen := b }) hcloses

theorem Spn.closed_of_held (h : p.vinFailed = true ∨ vin ≤ vm + 100) : p.closed vin vm = p := by
  have hstays : (p.switchOpen && (p.vinFailed || decide (vin ≤ vm + 100))) = p.switchOpen := by
    rcases h with h | h <;> simp [h]
  exact congrArg (fun b => { p with switchOpen := b }) hstays

end Switch

/-- What a measurement at the input switch leaves: the power die replaced, both voltages and their frame. -/
theorem State.inputMeasured (s : State) (vin vm : Nat) {g : Spn → Spn} {p : Spn} (h : g s.spn = p) :
    (((s.vin vin).vmot vm).modSpn g).spn = p ∧ (((s.vin vin).vmot vm).modSpn g).get Reg.MTR_VMOT_VIN = min vin 0xFFFF ∧
      (((s.vin vin).vmot vm).modSpn g).get Reg.MTR_VMOT_VMOT = min vm 0xFFFF ∧
      FieldsKept s (((s.vin vin).vmot vm).modSpn g) [Reg.MTR_VMOT_VIN, Reg.MTR_VMOT_VMOT] ∧
      BytesKept s (((s.vin vin).vmot vm).modSpn g) := by
  refine ⟨h, ?_, (s.vin vin).get_vmot vm, ?_, BytesKept.of_mem rfl⟩
  · exact ((s.vin vin).vmot_get_ne vm (by decide)).trans (s.get_vin vin)
  · exact (((FieldsKept.vin s vin).mono (by simp)).trans ((FieldsKept.vmot _ vm).mono (by simp))).trans
      (FieldsKept.of_f (State.modSpn_f _ _) _)

theorem execVmotSwitchOpen_eq (vin vm : Nat) (s : State) :
    execVmotSwitchOpen vin vm s = .next (((s.vin vin).vmot vm).modSpn (·.opened vin vm)) := rfl

theorem execVmotSwitchClose_eq (vin vm : Nat) (s : State) :
    execVmotSwitchClose vin vm s = .next (((s.vin vin).vmot vm).modSpn (·.closed vin vm)) := rfl

/-! ## The statement -/

/-- Settles O27, threshold by threshold: what each voltage does from its threshold on, and that below it only the voltage is recorded. -/
theorem motorBus : Obligations.MotorBus := by
  unfold Obligations.MotorBus
  refine ⟨?chopOn, ?chopHeld, ?chopOff, ?chopStays, ?weak, ?rising, ?noWeak, ?noRising, ?unchopped, ?short, ?shortLatched, ?still,
    ?belowShort, ?ovp, ?belowOvp, ?fails, ?reverse, ?closed, ?closes, ?staysOpen, ?high, ?notHigh, ?release, ?stillHigh⟩
  case chopOn =>
    intro v s hv hlt hchop hfault hhigh
    obtain ⟨hon, hvmot, hcount, hkept⟩ := s.get_chopped v
    exact ⟨_, execChopperOn_of_on hv hchop hfault hhigh, hon, hvmot.trans (by omega), rfl, hcount, BytesKept.of_mem rfl, hkept⟩
  case chopHeld =>
    intro v s h
    exact ⟨_, execChopperOn_of_held h, rfl, s.get_vmot v, FieldsKept.vmot s v, BytesKept.of_mem rfl⟩
  case chopOff =>
    intro v s hv
    refine ⟨_, congrArg Host.Outcome.next (if_pos hv), State.get_put_of_lt _ (by decide), ?_,
      ((FieldsKept.vmot s v).mono (by simp)).put _ _ (by simp), BytesKept.of_mem rfl⟩
    rw [State.get_put_ne _ _ _ (by decide), State.get_vmot]
    omega
  case chopStays =>
    exact fun v s hv => ⟨_, congrArg Host.Outcome.next (if_neg (by omega)), s.get_vmot v, FieldsKept.vmot s v, BytesKept.of_mem rfl⟩
  case weak =>
    intro v s hv hchop hfault
    obtain ⟨hlatched, hcause, hoff, -, hevent⟩ := ChopFaulted.chopFault hfault (c := 1) (by decide)
    exact ⟨_, (execChopperFault_of_early (State.flag_of_one hchop)).trans (congrArg Host.Outcome.next (if_pos hv)),
      hlatched, hcause, hoff, hevent⟩
  case rising =>
    intro v s hv hchop hfault
    have hfaulted := ChopFaulted.vmot (v := v) hfault (c := 2) (by decide)
    exact ⟨_, (execChopperFault_of_late (State.flag_of_one hchop)).trans (congrArg Host.Outcome.next (if_pos hv)),
      hfaulted.fault, hfaulted.cause, hfaulted.chop, hfaulted.get_vmot, hfaulted.event_vmot⟩
  case noWeak =>
    intro v s h
    refine ⟨s, ?_, rfl⟩
    by_cases hchop : s.flag Reg.MTR_LADDER_CHOP = true
    · have hv : ¬v < 1000 := Nat.not_lt.mpr (h.resolve_right fun h0 => absurd hchop (by simp [State.flag_of_zero h0]))
      exact (execChopperFault_of_early hchop).trans (congrArg Host.Outcome.next (if_neg hv))
    · exact congrArg Host.Outcome.next (if_neg hchop)
  case noRising =>
    intro v s hv hchop
    exact ⟨_, (execChopperFault_of_late (State.flag_of_one hchop)).trans (congrArg Host.Outcome.next (if_neg (by omega))),
      s.get_vmot v, FieldsKept.vmot s v, BytesKept.of_mem rfl⟩
  case unchopped => exact fun v s hchop => ⟨s, congrArg Host.Outcome.next (if_neg (by simp [State.flag_of_zero hchop])), rfl⟩
  case short =>
    intro v s hv hfault h0 h7
    have hfaulted := ChopFaulted.vmot (v := v) hfault (c := 3) (by decide)
    obtain ⟨h6, hshort⟩ := ((s.vmot v).chopFault 3).get_shorted
    have hkept := FieldsKept.shorted ((s.vmot v).chopFault 3)
    have hspn := ((s.vmot v).chopFault 3).shorted_spn
    exact ⟨_, execLadderShortBrake_of_turning hv (hfaulted.spin ▸ h0) (hfaulted.spin ▸ h7), h6, congrArg Spn.brake hspn,
      congrArg Spn.step hspn, congrArg Spn.spinUp hspn, hshort, (hkept _ (by decide)).trans hfaulted.cause,
      (hkept _ (by decide)).trans hfaulted.fault, (hfaulted.event_vmot.mono (by simp [chopFaultFields])).trans_kept
        (hkept.mono (by simp)) (State.shorted_mem _)⟩
  case shortLatched =>
    intro v s hv hfault h0 h7
    have hno := State.chopFault_of_latched ((s.vmot_get_ne v (by decide)).trans hfault) 3
    have hspin : ((s.vmot v).chopFault 3).spin = s.spin := by rw [hno]; exact s.vmot_get_ne v (by decide)
    have hexec := execLadderShortBrake_of_turning hv (hspin ▸ h0) (hspin ▸ h7)
    rw [hno] at hexec
    obtain ⟨h6, hshort⟩ := (s.vmot v).get_shorted
    exact ⟨_, hexec, h6, congrArg Spn.brake (s.vmot v).shorted_spn, hshort, BytesKept.of_mem (State.shorted_mem _),
      ((FieldsKept.vmot s v).mono (by simp)).trans ((FieldsKept.shorted _).mono (by simp))⟩
  case still =>
    intro v s hv hfault hstill
    have hfaulted := ChopFaulted.vmot (v := v) hfault (c := 3) (by decide)
    exact ⟨_, execLadderShortBrake_of_still hv (hfaulted.spin ▸ hstill), hfaulted.spn, hfaulted.cause, hfaulted.fault, hfaulted.chop,
      hfaulted.event_vmot⟩
  case belowShort =>
    intro v s hv
    exact ⟨_, congrArg Host.Outcome.next (if_neg (by omega)), (s.get_vmot v).trans (by omega), rfl, FieldsKept.vmot s v,
      BytesKept.of_mem rfl⟩
  case ovp =>
    intro v s hv
    obtain ⟨hovp, hchop, hcount⟩ := s.get_overVolted v
    have hbefore := FieldsKept.overVolted s v
    have hfaulted := SpinFaulted.spinFault (s.overVolted v) (cause := 3) (by decide) 0x0502
    have hkept := hfaulted.event.1
    have hretr : (s.overVolted v).retr = s.retr := hbefore.retr (by decide) rfl
    refine ⟨_, congrArg Host.Outcome.next (if_pos hv), hfaulted.spin, (hkept _ (by decide)).trans hovp, (hkept _ (by decide)).trans hchop,
      hfaulted.cause, (hkept _ (by decide)).trans hcount, hfaulted.step, hfaulted.brake, hfaulted.spinUp, hfaulted.heads,
      fun a hfit hret => hfaulted.retracts a ?_ ?_, hfaulted.event.after_kept (hbefore.mono (by simp)) rfl rfl (by decide)
        (by simp [spinFaultFields])⟩
    · exact (congrArg (fun r => (r a).fitted) hretr).trans hfit
    · exact (congrArg (fun r => (r a).state) hretr).trans_ne hret
  case belowOvp =>
    intro v s hv
    exact ⟨_, congrArg Host.Outcome.next (if_neg (by omega)), (s.get_vmot v).trans (by omega), rfl, FieldsKept.vmot s v,
      BytesKept.of_mem rfl⟩
  case fails =>
    intro vin vm s hv
    obtain ⟨hspn, -, -, hkept⟩ := s.inputMeasured vin vm (g := (·.opened vin vm)) (s.spn.opened_of_fail hv)
    exact ⟨_, execVmotSwitchOpen_eq vin vm s, hspn, hkept⟩
  case reverse =>
    intro vin vm s hv hvm
    obtain ⟨hspn, -, -, hkept⟩ := s.inputMeasured vin vm (g := (·.opened vin vm)) (s.spn.opened_of_reverse hv hvm)
    exact ⟨_, execVmotSwitchOpen_eq vin vm s, hspn, hkept⟩
  case closed =>
    exact fun vin vm s hv hvm => ⟨_, execVmotSwitchOpen_eq vin vm s,
      s.inputMeasured vin vm (g := (·.opened vin vm)) (s.spn.opened_of_forward hv hvm)⟩
  case closes =>
    intro vin vm s hok hvm
    obtain ⟨hspn, -, -, hkept⟩ := s.inputMeasured vin vm (g := (·.closed vin vm)) (s.spn.closed_of_forward hok hvm)
    exact ⟨_, execVmotSwitchClose_eq vin vm s, hspn, hkept⟩
  case staysOpen =>
    exact fun vin vm s h => ⟨_, execVmotSwitchClose_eq vin vm s,
      s.inputMeasured vin vm (g := (·.closed vin vm)) (s.spn.closed_of_held h)⟩
  case high =>
    intro v s hv
    refine ⟨_, congrArg Host.Outcome.next (if_pos hv), ?_, State.get_put_of_lt _ (by decide), ?_, BytesKept.of_mem rfl,
      (((FieldsKept.vin s v).mono (by simp)).put _ _ (by simp)).put _ _ (by simp)⟩
    · rw [State.get_put_ne _ _ _ (by decide), State.get_put_of_lt _ (by decide)]
    · rw [State.get_put_ne _ _ _ (by decide), State.get_put_ne _ _ _ (by decide), State.get_vin]
  case notHigh =>
    intro v s hv
    exact ⟨_, congrArg Host.Outcome.next (if_neg (by omega)), (s.get_vin v).trans (by omega), BytesKept.of_mem rfl, FieldsKept.vin s v⟩
  case release =>
    intro v s hv
    refine ⟨_, congrArg Host.Outcome.next (if_pos hv), State.get_put_of_lt _ (by decide), ?_, BytesKept.of_mem rfl,
      ((FieldsKept.vin s v).mono (by simp)).put _ _ (by simp)⟩
    rw [State.get_put_ne _ _ _ (by decide), State.get_vin]
    omega
  case stillHigh =>
    intro v s hv
    exact ⟨_, congrArg Host.Outcome.next (if_neg (by omega)), s.get_vin v, BytesKept.of_mem rfl, FieldsKept.vin s v⟩

end Sys2Proof.Machine
end

