-- ==== Sys2Proof/Proofs/SpindleStartUp.lean ====
section
/-! SUPPORT. The spindle from START to RUN (10 R258 to R269): the start decision, the open-loop ramp, zero crossings with the speed they
give, and the steps they drive. -/

namespace Sys2Proof.Machine

/-! ## A state entered from another (Table SPN-2) -/

section Entered
variable (s : State) (p : Spn)

theorem State.entered_spin {v : Nat} (h : v < 16) : (s.powerDie [(Reg.MTR_SPN_STATUS_STATE, v)] p).spin = v :=
  s.powerDie_get_last [] p h

theorem State.entered_get_ne (v : Nat) {F : Field} (h : F.key ≠ Reg.MTR_SPN_STATUS_STATE.key) :
    (s.powerDie [(Reg.MTR_SPN_STATUS_STATE, v)] p).get F = s.get F := by
  rw [State.powerDie_cons, State.powerDie_nil_get, State.get_put_ne _ _ _ h]

theorem State.powerDie_modSpn (l : List (Field × Nat)) (g : Spn → Spn) : (s.powerDie l p).modSpn g = s.powerDie l (g p) := (rfl :)

theorem State.enterSpin_modSpn (v : Nat) (g : Spn → Spn) :
    (s.enterSpin v).modSpn g = s.powerDie [(Reg.MTR_SPN_STATUS_STATE, v)] (g s.spn) := by
  rw [State.enterSpin_eq, State.powerDie_modSpn]

end Entered

/-! ## The start decision (R263, R264) -/

/-- The registers of a sense, and the speed noted. -/
def State.senseNoted (s : State) (dir : Bool) (d v : Nat) : State :=
  ((((s.put Reg.MTR_SENSE_DONE 1).putB Reg.MTR_SENSE_DIR dir).put Reg.MTR_SENSE_DECISION d).put Reg.MTR_SENSE_SPEED v).noteSpeed v

section Sense
variable {s : State} {low dir : Bool} {speed : Nat} {step : Fin 6} {rest : Bool} {d v : Nat}

section Decision
variable (hspin : s.spin = 1) (hrest : (low || decide (speed < 2560)) = rest)
  (hd : startDecision rest (dir == s.spn.dir) speed = d) (hv : (if rest then 0 else min speed 0x1FFFFF) = v)
include hspin hrest hd hv

theorem execSenseEnd_eq : execSenseEnd low dir speed step s = .next (
    if d = 1 then (s.senseNoted dir d v).accel.modSpn fun p =>
      { p with step := step.val + 1, steps := List.replicate 6 (60 * 19200000000 * 256 / (24 * speed)) }
    else if d = 2 ∨ d = 3 then ((s.senseNoted dir d v).enterSpin 8).modSpn fun p => { p with brake := 2 }
    else (s.senseNoted dir d v).align) := by
  subst hrest hd hv
  simp only [execSenseEnd, if_pos hspin]
  rfl

/-- A fast forward spindle is caught. -/
theorem execSenseEnd_of_caught (h : d = 1) : execSenseEnd low dir speed step s =
    .next ((s.senseNoted dir d v).powerDie [(Reg.MTR_SPN_STATUS_STATE, 4)] { (s.senseNoted dir d v).spn with
      target := (s.senseNoted dir d v).get Reg.MTR_SPN_SET_RPM * 19200000000
      missRun := 0
      step := step.val + 1
      steps := List.replicate 6 (60 * 19200000000 * 256 / (24 * speed)) }) := by
  rw [execSenseEnd_eq hspin hrest hd hv, if_pos h, State.accel_eq, State.powerDie_modSpn]

/-- A spindle that turns otherwise, and not slowly, is braked first. -/
theorem execSenseEnd_of_braked (h : d = 2 ∨ d = 3) : execSenseEnd low dir speed step s =
    .next ((s.senseNoted dir d v).powerDie [(Reg.MTR_SPN_STATUS_STATE, 8)] { (s.senseNoted dir d v).spn with brake := 2 }) := by
  rw [execSenseEnd_eq hspin hrest hd hv, if_neg (by omega), if_pos h, State.enterSpin_modSpn]

theorem execSenseEnd_of_aligned (h : d = 0 ∨ d = 4) : execSenseEnd low dir speed step s = .next (s.senseNoted dir d v).align := by
  rw [execSenseEnd_eq hspin hrest hd hv, if_neg (by omega), if_neg (by omega)]

end Decision

theorem State.senseNoted_spn (s : State) (dir : Bool) (d v : Nat) : (s.senseNoted dir d v).spn = { s.spn with measured := v } :=
  State.noteSpeed_spn _ v

/-- What a sense leaves in the registers and the buffer. -/
structure Sensed (s t : State) (dir : Bool) (d v : Nat) : Prop where
  done : t.get Reg.MTR_SENSE_DONE = 1
  dir : t.get Reg.MTR_SENSE_DIR = b2n dir
  decision : t.get Reg.MTR_SENSE_DECISION = d
  speed : t.get Reg.MTR_SENSE_SPEED = v
  bytes : BytesKept s t
  fields : FieldsKept s t [Reg.MTR_SPN_STATUS_STATE, Reg.MTR_SENSE_DONE, Reg.MTR_SENSE_DIR, Reg.MTR_SENSE_DECISION,
    Reg.MTR_SENSE_SPEED, Reg.MTR_SPN_SPEED_SPEED]

/-- The state entered on the decision. -/
theorem Sensed.entered (s : State) (dir : Bool) {d v : Nat} (hd : d < 8) (hv : v < 2 ^ 21) (n : Nat) (p : Spn) :
    Sensed s ((s.senseNoted dir d v).powerDie [(Reg.MTR_SPN_STATUS_STATE, n)] p) dir d v := by
  have hdir : b2n dir < 2 ^ Reg.MTR_SENSE_DIR.width := b2n_lt dir
  have hdec : d < 2 ^ Reg.MTR_SENSE_DECISION.width := hd
  have hspeed : v < 2 ^ Reg.MTR_SENSE_SPEED.width := hv
  have hget : ∀ F : Field, F.key ≠ Reg.MTR_SPN_STATUS_STATE.key → F.key ≠ Reg.MTR_SPN_SPEED_SPEED.key →
      ((s.senseNoted dir d v).powerDie [(Reg.MTR_SPN_STATUS_STATE, n)] p).get F = ((((s.put Reg.MTR_SENSE_DONE 1).putB
        Reg.MTR_SENSE_DIR dir).put Reg.MTR_SENSE_DECISION d).put Reg.MTR_SENSE_SPEED v).get F :=
    fun F hF hS => (State.entered_get_ne _ p n hF).trans (State.noteSpeed_get_ne _ v hS)
  refine ⟨?_, ?_, ?_, ?_, ?_, ?_⟩
  · rw [hget _ (by decide) (by decide), State.get_put_ne _ _ _ (by decide), State.get_put_ne _ _ _ (by decide), State.putB,
      State.get_put_ne _ _ _ (by decide), State.get_put_of_lt _ (by decide)]
  · rw [hget _ (by decide) (by decide), State.get_put_ne _ _ _ (by decide), State.get_put_ne _ _ _ (by decide), State.putB,
      State.get_put_of_lt _ hdir]
  · rw [hget _ (by decide) (by decide), State.get_put_ne _ _ _ (by decide), State.get_put_of_lt _ hdec]
  · rw [hget _ (by decide) (by decide), State.get_put_of_lt _ hspeed]
  · exact BytesKept.of_mem ((State.powerDie_mem _ _ _).trans (State.noteSpeed_mem _ v))
  · exact (((((((FieldsKept.refl s _).put _ _ (by simp)).put _ _ (by simp)).put _ _ (by simp)).put _ _ (by simp)).trans
      ((FieldsKept.noteSpeed _ v).mono (by simp))).trans ((FieldsKept.powerDie _ _ p).mono (by simp)))

end Sense

/-! ## The brake before alignment (R264) -/

theorem execPreBrakeSample_of_slow {s : State} {v : Nat} (hspin : s.spin = 8)
    (h : (s.get Reg.MTR_SENSE_DECISION = 2 ∧ v < 2560) ∨ (s.get Reg.MTR_SENSE_DECISION = 3 ∧ v ≤ 15360)) :
    execPreBrakeSample v s = .next (s.noteSpeed v).align := by
  have hdec : (s.noteSpeed v).get Reg.MTR_SENSE_DECISION = s.get Reg.MTR_SENSE_DECISION := State.noteSpeed_get_ne s v (by decide)
  rw [← hdec] at h
  simp only [execPreBrakeSample, if_pos hspin]
  exact congrArg Host.Outcome.next (if_pos h)

theorem execPreBrakeSample_of_fast {s : State} {v : Nat} (hspin : s.spin = 8) (h : 15360 < v) :
    execPreBrakeSample v s = .next (s.noteSpeed v) := by
  simp only [execPreBrakeSample, if_pos hspin]
  exact congrArg Host.Outcome.next (if_neg (by omega))

/-! ## The end of the ramp (R265) -/

/-- A ramp that reached 240 rpm without a handover, counted. -/
def State.rampFailed (s : State) : State := s.modSpn fun p => { p with fails := p.fails + 1 }

section Ramp
variable {s : State} (hspin : s.spin = 3) (hreached : s.rampReached 240 (s.rampTime (s.spn.rampN + 1)) = true)
include hspin hreached

theorem execRampLimit_of_first (h : s.spn.fails < 1) : execRampLimit s = .next s.rampFailed.sense := by
  simp only [execRampLimit, if_pos (And.intro hspin hreached)]
  exact congrArg Host.Outcome.next (if_neg (show ¬2 ≤ s.spn.fails + 1 by omega))

theorem execRampLimit_of_second (h : 1 ≤ s.spn.fails) : execRampLimit s = .next (s.rampFailed.spinFault 4 0x0503) := by
  simp only [execRampLimit, if_pos (And.intro hspin hreached)]
  exact congrArg Host.Outcome.next (if_pos (show 2 ≤ s.spn.fails + 1 by omega))

end Ramp

/-! ## Zero crossings (R260, R261, R265, R267) -/

/-- A slew moves the target alone. -/
theorem State.slew_spn (s : State) (dt : Nat) : ∃ n, (s.slew dt).spn = { s.spn with target := n } := ⟨_, rfl⟩

theorem State.slew_steps (s : State) (dt : Nat) : (s.slew dt).spn.steps = s.spn.steps := by
  obtain ⟨n, hn⟩ := s.slew_spn dt
  rw [hn]

theorem State.slew_zcOk (s : State) (dt : Nat) : (s.slew dt).spn.zcOk = s.spn.zcOk := by
  obtain ⟨n, hn⟩ := s.slew_spn dt
  rw [hn]

/-- A crossing `t` after the step's begin, with the number of those that agreed. -/
def Spn.crossed (p : Spn) (t ok : Nat) : Spn := { p with zcAt := some t, missRun := 0, zcOk := ok }

theorem Spn.crossed_steps (p : Spn) (t ok : Nat) : (p.crossed t ok).steps = p.steps := rfl

/-- The crossings that have agreed, of `n` before this one: in RAMP from 180 rpm its time is checked against the middle of the step. -/
def State.agreed (s : State) (time n : Nat) : Nat :=
  if s.spin == 3 && s.rampReached 180 (s.rampTime s.spn.rampN) then
    (if decide ((2 * ((96 * time : Nat) : Int) - s.rampStep).natAbs * 4 ≤ s.rampStep) then n + 1 else 0)
  else n

theorem State.agreed_of_ramp {s : State} (hspin : s.spin = 3) (time n : Nat) : s.agreed time n =
    if s.rampReached 180 (s.rampTime s.spn.rampN) then
      (if (2 * (96 * time : Int) - s.rampStep).natAbs * 4 ≤ s.rampStep then n + 1 else 0)
    else n := by
  have htime : ((96 * time : Nat) : Int) = 96 * (time : Int) := Nat.cast_mul 96 time
  simp only [State.agreed, hspin, htime, beq_self_eq_true, Bool.true_and, decide_eq_true_eq]

/-- The power die at a zero crossing: its target moved, the crossing given and counted. -/
def State.crossed (s : State) (time : Nat) : State :=
  (s.slew (s.spn.since + 96 * time)).modSpn fun p => p.crossed (96 * time) (s.agreed time p.zcOk)

theorem State.crossed_spn (s : State) (time : Nat) : (s.crossed time).spn =
    (s.slew (s.spn.since + 96 * time)).spn.crossed (96 * time) (s.agreed time s.spn.zcOk) :=
  congrArg (fun n => (s.slew (s.spn.since + 96 * time)).spn.crossed (96 * time) (s.agreed time n)) (s.slew_zcOk _)

theorem State.crossed_steps (s : State) (time : Nat) : (s.crossed time).spn.steps = s.spn.steps :=
  calc (s.crossed time).spn.steps
    _ = ((s.slew (s.spn.since + 96 * time)).spn.crossed (96 * time) (s.agreed time s.spn.zcOk)).steps := by rw [s.crossed_spn]
    _ = (s.slew (s.spn.since + 96 * time)).spn.steps := Spn.crossed_steps _ _ _
    _ = s.spn.steps := s.slew_steps _

theorem State.crossed_f (s : State) (time : Nat) : (s.crossed time).f = s.f := (State.modSpn_f _ _).trans (State.slew_f s _)

theorem State.crossed_mem (s : State) (time : Nat) : (s.crossed time).mem = s.mem := (State.modSpn_mem _ _).trans (State.slew_mem s _)

section Crossing
variable {s : State} {ts : List Nat} {vs : List Int}

theorem execZeroCrossing_of_some {time : Nat} (hclk : s.clkOk 32 = true) (hspin : s.spin = 3 ∨ s.spin = 4 ∨ s.spin = 5)
    (hz : s.spn.zcAt = none) (hfloat : floatWindowOk s.spn.depth = true)
    (hcross : crossingAt (risingEdge s.spn.dir s.spn.step) (ceilDiv s.stepMean 480) none (ts.zip vs) = some time) :
    execZeroCrossing ts vs s = .next (s.crossed time).zcSpeed := by
  simp only [execZeroCrossing, hclk, hspin, hz, hfloat, hcross, and_self, if_true]
  rfl

theorem execZeroCrossing_of_none (h : s.clkOk 32 = false ∨ (s.spin ≠ 3 ∧ s.spin ≠ 4 ∧ s.spin ≠ 5) ∨ s.spn.zcAt ≠ none ∨
    floatWindowOk s.spn.depth = false ∨
    crossingAt (risingEdge s.spn.dir s.spn.step) (ceilDiv s.stepMean 480) none (ts.zip vs) = none) :
    execZeroCrossing ts vs s = .next s := by
  by_cases hlooks : s.clkOk 32 = true ∧ (s.spin = 3 ∨ s.spin = 4 ∨ s.spin = 5) ∧ s.spn.zcAt = none ∧ floatWindowOk s.spn.depth = true
  · obtain ⟨hclk, hspin, hz, hfloat⟩ := hlooks
    have hcross : crossingAt (risingEdge s.spn.dir s.spn.step) (ceilDiv s.stepMean 480) none (ts.zip vs) = none := by
      rcases h with h | h | h | h | h
      · exact absurd hclk (by simp [h])
      · omega
      · exact absurd hz h
      · exact absurd hfloat (by simp [h])
      · exact h
    simp only [execZeroCrossing, hcross, ite_self]
  · simp only [execZeroCrossing, if_neg hlooks]

end Crossing

/-- Fewer than 24 steps give no speed. -/
theorem State.zcSpeed_of_few {s : State} (h : s.spn.steps.length < 24) : s.zcSpeed = s := by
  rw [State.zcSpeed, decide_eq_true h]
  rfl

theorem State.zcSpeed_of_full {s : State} (h : s.spn.steps.length = 24) (hsrc : s.get Reg.MTR_SPN_STATUS_SRC = 0)
    (hsum : sumNat s.spn.steps ≠ 0) : s.zcSpeed = s.speedUpdate 294912000000000 (sumNat s.spn.steps) := by
  simp only [State.zcSpeed, h, State.flag_of_zero hsrc, beq_false_of_ne hsum, Bool.or_false, decide_eq_true_eq, Nat.lt_irrefl,
    if_false, Nat.reduceMul]

/-- A quotient of free rounding that the register holds is the quotient or the next number. -/
theorem State.roundFree_cases (s : State) {a b : Nat} (h : a / b ≤ 0x1FFFFF) :
    min (s.roundFree a b) 0x1FFFFF = a / b ∨ min (s.roundFree a b) 0x1FFFFF = a / b + 1 := by
  have hround := b2n_lt (a % b != 0 && Config.freeUp s.free)
  rw [State.roundFree]
  omega

/-- A speed as it enters the registers. -/
def State.speedNoted (s : State) (v : Nat) : State :=
  (((s.draw 1).put Reg.MTR_SPN_SPEED_SPEED v).put Reg.MTR_SPN_SPEED_VALID 1).putB Reg.MTR_SPN_SPEED_DIR s.spn.dir

/-- The same, with the bands of AT_SPEED. -/
def State.speedBanded (s : State) (v : Nat) : State :=
  (s.speedNoted v).modSpn fun p => { p with
    inRun := if (s.speedNoted v).withinBand 5 then p.inRun else 0
    outRun := if (s.speedNoted v).withinBand 20 then 0 else p.outRun
    measured := v }

/-- Once a speed has been valid, a further one starts no servo-only source. -/
theorem State.speedUpdate_of_valid {s : State} (h : s.get Reg.MTR_SPN_SPEED_VALID = 1) (num den : Nat) : s.speedUpdate num den =
    if (s.speedBanded (min (s.roundFree num den) 0x1FFFFF)).spin = 4 ∨ (s.speedBanded (min (s.roundFree num den) 0x1FFFFF)).spin = 5 then
      (s.speedBanded (min (s.roundFree num den) 0x1FFFFF)).piLoop
    else s.speedBanded (min (s.roundFree num den) 0x1FFFFF) := by
  simp only [State.speedUpdate, State.flag_of_one h, if_true]
  rfl

/-- What a speed leaves: its register, and the step's crossing with its run of misses. -/
structure SpeedGiven (s t : State) (v : Nat) : Prop where
  speed : t.get Reg.MTR_SPN_SPEED_SPEED = v
  crossing : t.spn.zcAt = s.spn.zcAt
  misses : t.spn.missRun = s.spn.missRun
  fields : FieldsKept s t [Reg.MTR_SPN_SPEED_SPEED, Reg.MTR_SPN_SPEED_VALID, Reg.MTR_SPN_SPEED_DIR]
  mem : t.mem = s.mem

theorem SpeedGiven.speedBanded (s : State) {v : Nat} (h : v < 2 ^ 21) : SpeedGiven s (s.speedBanded v) v := by
  have hwidth : v < 2 ^ Reg.MTR_SPN_SPEED_SPEED.width := h
  refine ⟨?_, rfl, rfl, ?_, rfl⟩
  · rw [State.speedBanded, State.get_modSpn, State.speedNoted, State.putB, State.get_put_ne _ _ _ (by decide),
      State.get_put_ne _ _ _ (by decide), State.get_put_of_lt _ hwidth]
  · exact ((((FieldsKept.of_f (State.draw_f s 1) _).put _ _ (by simp)).put _ _ (by simp)).put _ _ (by simp)).trans
      (FieldsKept.of_f (State.modSpn_f _ _) _)

theorem SpeedGiven.piLoop {s t : State} {v : Nat} (h : SpeedGiven s t v) : SpeedGiven s t.piLoop v :=
  ⟨(State.get_of_f (State.piLoop_f t) _).trans h.speed, h.crossing, h.misses, h.fields.trans (FieldsKept.of_f (State.piLoop_f t) _),
    (State.piLoop_mem t).trans h.mem⟩

theorem SpeedGiven.speedUpdate {s : State} (h : s.get Reg.MTR_SPN_SPEED_VALID = 1) (num den : Nat) :
    SpeedGiven s (s.speedUpdate num den) (min (s.roundFree num den) 0x1FFFFF) := by
  have hbanded := SpeedGiven.speedBanded s (v := min (s.roundFree num den) 0x1FFFFF) (by omega)
  rw [State.speedUpdate_of_valid h]
  split
  · exact hbanded.piLoop
  · exact hbanded

/-! ## Commutation (R258, R261, R265) -/

/-- After a crossing the time since the target moved runs from it. -/
theorem State.nextStep_since {s : State} {z : Nat} (hz : s.spn.zcAt = some z) (t : Nat) : (s.nextStep t).spn.since = t - z := by
  simp only [State.nextStep, State.modSpn, hz]

section Commutation
variable {s : State} {k : Fin 6}

theorem execCommutation_of_next (hclk : s.clkOk 32 = true) (hk : k.val + 1 = stepAfter s.spn.dir s.spn.step) :
    execCommutation k s = .next (
      if s.spin = 3 then (s.nextStep s.rampStep).modSpn (fun p => { p with rampN := p.rampN + 1 })
      else if s.spin = 4 ∨ s.spin = 5 then s.spn.zcAt.elim s fun z => s.nextStep (z + s.halfMean)
      else s) := by
  have hgo : (!s.clkOk 32 || k.val + 1 != stepAfter s.spn.dir s.spn.step) = false := by simp [hclk, hk]
  simp only [execCommutation, hgo, Bool.false_eq_true, if_false]
  cases s.spn.zcAt <;> rfl

theorem execCommutation_of_waiting (h : s.clkOk 32 = false ∨ ((s.spin = 4 ∨ s.spin = 5) ∧ s.spn.zcAt = none) ∨ s.spin = 0 ∨
    k.val + 1 ≠ stepAfter s.spn.dir s.spn.step) : execCommutation k s = .next s := by
  by_cases hgo : s.clkOk 32 = true ∧ k.val + 1 = stepAfter s.spn.dir s.spn.step
  · obtain ⟨hclk, hk⟩ := hgo
    rw [execCommutation_of_next hclk hk]
    rcases h with h | ⟨hspin, hz⟩ | h | h
    · exact absurd hclk (by simp [h])
    · rw [if_neg (by omega), if_pos hspin, hz]
      rfl
    · rw [if_neg (by omega), if_neg (by omega)]
    · exact absurd hk h
  · have hstay : (!s.clkOk 32 || k.val + 1 != stepAfter s.spn.dir s.spn.step) = true := by
      rw [Bool.or_eq_true, Bool.not_eq_true', bne_iff_ne, ← Bool.not_eq_true]
      exact not_and_or.mp hgo
    simp only [execCommutation, hstay, if_true]

end Commutation

/-! ## AT_SPEED (R268, R269) -/

/-- RUN entered, before the heads are loaded. -/
def State.ran (s : State) : State :=
  s.powerDie [(Reg.MTR_SPN_STATUS_AT_SPEED, 1), (Reg.MTR_SPN_STATUS_STATE, 5)] { s.spn with spinUp := false }

theorem execAtSpeed_of_band {s : State} (hspin : s.spin = 4 ∨ s.spin = 5) (h : 384 ≤ s.spn.inRun) : execAtSpeed s =
    .next (s.ran.modPwr fun p => { p with headsLoaded := p.headsLoaded || p.dev == .active }) := by
  simp only [execAtSpeed, if_pos (And.intro hspin h), State.enterSpin_eq, State.put_eq_powerDie, State.modSpn_eq_powerDie,
    State.powerDie_powerDie, State.powerDie_spn, List.cons_append, List.nil_append, State.ran]

theorem State.ran_get (s : State) : s.ran.spin = 5 ∧ s.ran.get Reg.MTR_SPN_STATUS_AT_SPEED = 1 := by
  simp (disch := decide) only [State.ran, State.spin, State.powerDie_cons, State.powerDie_nil_get, State.get_put_of_lt,
    State.get_put_ne, and_self]

theorem State.ran_mem (s : State) : s.ran.mem = s.mem := State.powerDie_mem s _ _

theorem FieldsKept.ran (s : State) : FieldsKept s s.ran [Reg.MTR_SPN_STATUS_STATE, Reg.MTR_SPN_STATUS_AT_SPEED] :=
  (FieldsKept.powerDie s _ _).mono (by simp)

theorem State.ran_pwr (s : State) : s.ran.pwr = s.pwr := State.powerDie_pwr s _ _

/-! ## The statement -/

/-- Settles O25, state by state of the spindle: what START, a sense, a brake, ALIGN, RAMP, ACCEL and RUN each lead to, and that outside its
state a command changes nothing. -/
theorem spindleStartUp : Obligations.SpindleStartUp := by
  unfold Obligations.SpindleStartUp
  refine ⟨?start, ?denied, ?turned, ?undefined, ?rest, ?caught, ?slow, ?backward, ?creeping, ?noSense, ?braked, ?braking, ?noBrake,
    ?align, ?noAlign, ?again, ?failed, ?noLimit, ?rampCross, ?runCross, ?noCross, ?handover, ?noHandover, ?rampStep, ?runStep, ?noStep,
    ?atSpeed, ?noSpeed, ?lost⟩
  case start =>
    intro v s hcmd hfail hrest hdir
    refine ⟨_, congrArg Host.Outcome.next (State.spnCtl_of_start hcmd hfail hrest hdir), ?_, rfl, rfl, rfl, rfl, ?_, ?_,
      BytesKept.powerDie s _ _, FieldsKept.powerDie s _ _⟩
    all_goals
      simp (disch := decide) only [ctlWrites, List.cons_append, List.nil_append, State.spin, State.powerDie_cons,
        State.powerDie_nil_get, State.get_put_of_lt, State.get_put_ne]
  case denied =>
    exact fun v s hcmd h herr => ⟨_, congrArg Host.Outcome.next (State.spnCtl_of_denied hcmd h), State.mtrRejected herr (by decide)⟩
  case turned =>
    intro v s hcmd hfail hrest hdir hfast herr
    have hmay : ¬(bits v.toNat 1 0 = 1 ∧ (s.flag Reg.SPT_STATUS_FAIL = true ∨ s.spin ≠ 0 ∧ s.spin ≠ 7)) := by
      rintro ⟨-, h | h⟩
      · exact absurd h (by simp [State.flag_of_zero hfail])
      · omega
    exact ⟨_, congrArg Host.Outcome.next (State.spnCtl_of_turned (by omega) hmay hdir hfast), State.mtrRejected herr (by decide)⟩
  case undefined =>
    exact fun v s hcmd herr => ⟨_, congrArg Host.Outcome.next (State.spnCtl_of_undefined hcmd), State.mtrRejected herr (by decide)⟩
  case rest =>
    intro low d v k s hspin hrest
    have hno : (low || decide (v < 2560)) = true := by simpa using hrest
    have hsensed := Sensed.entered s d (d := 0) (v := 0) (by decide) (by decide) 2
    refine ⟨_, execSenseEnd_of_aligned hspin hno rfl rfl (.inl rfl), ?_⟩
    rw [State.align_eq]
    exact ⟨State.entered_spin _ _ (by decide), (hsensed _).done, (hsensed _).dir, (hsensed _).decision, (hsensed _).speed, rfl,
      (hsensed _).bytes, (hsensed _).fields⟩
  case caught =>
    intro v k s hspin hv hlt
    have hturns : (false || decide (v < 2560)) = false := by simp; omega
    have hd : startDecision false (s.spn.dir == s.spn.dir) v = 1 := by simp [startDecision, hv]
    have hv' : (if false then 0 else min v 0x1FFFFF) = v := by simp; omega
    have hsensed := Sensed.entered s s.spn.dir (d := 1) (by decide) hlt 4
    refine ⟨_, execSenseEnd_of_caught hspin hturns hd hv' rfl, State.entered_spin _ _ (by decide), (hsensed _).done,
      (hsensed _).decision, (hsensed _).speed, rfl, ?_, (hsensed _).bytes, (hsensed _).fields⟩
    exact congrArg (· * 19200000000)
      ((State.entered_get_ne _ s.spn 4 (by decide)).symm.trans ((hsensed s.spn).fields Reg.MTR_SPN_SET_RPM (by decide)))
  case slow =>
    intro v k s hspin hv hlt
    have hturns : (false || decide (v < 2560)) = false := by simp; omega
    have hd : startDecision false (s.spn.dir == s.spn.dir) v = 2 := by simp [startDecision]; omega
    have hv' : (if false then 0 else min v 0x1FFFFF) = v := by simp; omega
    have hsensed := Sensed.entered s s.spn.dir (d := 2) (v := v) (by decide) (by omega) 8
    exact ⟨_, execSenseEnd_of_braked hspin hturns hd hv' (.inl rfl), State.entered_spin _ _ (by decide), (hsensed _).decision,
      (hsensed _).speed, rfl, (hsensed _).bytes⟩
  case backward =>
    intro v k s hspin hv
    have hturns : (false || decide (v < 2560)) = false := by simp; omega
    have hd : startDecision false ((!s.spn.dir) == s.spn.dir) v = 3 := by simp [startDecision]; omega
    have hsensed := Sensed.entered s (!s.spn.dir) (d := 3) (v := min v 0x1FFFFF) (by decide) (by omega) 8
    exact ⟨_, execSenseEnd_of_braked hspin hturns hd rfl (.inr rfl), State.entered_spin _ _ (by decide), (hsensed _).decision,
      rfl, (hsensed _).bytes⟩
  case creeping =>
    intro v k s hspin hv hlt
    have hturns : (false || decide (v < 2560)) = false := by simp; omega
    have hd : startDecision false ((!s.spn.dir) == s.spn.dir) v = 4 := by simp [startDecision]; omega
    have hsensed := Sensed.entered s (!s.spn.dir) (d := 4) (v := min v 0x1FFFFF) (by decide) (by omega) 2
    refine ⟨_, execSenseEnd_of_aligned hspin hturns hd rfl (.inr rfl), ?_⟩
    rw [State.align_eq]
    exact ⟨State.entered_spin _ _ (by decide), (hsensed _).decision, rfl, (hsensed _).bytes⟩
  case noSense => exact fun low d v k s h => ⟨s, congrArg Host.Outcome.next (if_neg h), rfl⟩
  case braked =>
    intro v s hspin h
    refine ⟨_, execPreBrakeSample_of_slow hspin h, ?_⟩
    rw [State.align_eq]
    exact ⟨State.entered_spin _ _ (by decide), rfl, rfl, BytesKept.of_mem ((State.powerDie_mem _ _ _).trans (s.noteSpeed_mem v)),
      ((FieldsKept.noteSpeed s v).mono (by simp)).trans ((FieldsKept.powerDie _ _ _).mono (by simp))⟩
  case braking =>
    intro v s hspin hv
    exact ⟨_, execPreBrakeSample_of_fast hspin hv, (State.noteSpeed_get_ne s v (by decide)).trans hspin, s.noteSpeed_spn v,
      BytesKept.of_mem (s.noteSpeed_mem v), FieldsKept.noteSpeed s v⟩
  case noBrake => exact fun v s h => ⟨s, congrArg Host.Outcome.next (if_neg h), rfl⟩
  case align =>
    intro s hspin
    refine ⟨_, congrArg Host.Outcome.next (if_pos hspin), ?_⟩
    rw [State.enterSpin_modSpn]
    exact ⟨State.entered_spin _ _ (by decide), rfl, BytesKept.powerDie s _ _, FieldsKept.powerDie s _ _⟩
  case noAlign => exact fun s h => ⟨s, congrArg Host.Outcome.next (if_neg h), rfl⟩
  case again =>
    intro s hspin hreached hfails
    refine ⟨_, execRampLimit_of_first hspin hreached (by omega), ?_⟩
    rw [State.sense_eq]
    exact ⟨State.entered_spin _ _ (by decide), congrArg (· + 1) hfails, rfl, BytesKept.powerDie s.rampFailed _ _,
      (FieldsKept.of_f (State.modSpn_f s _) _).trans (FieldsKept.powerDie s.rampFailed _ _)⟩
  case failed =>
    intro s hspin hreached hfails
    have hfaulted := SpinFaulted.spinFault s.rampFailed (cause := 4) (by decide) 0x0503
    exact ⟨_, execRampLimit_of_second hspin hreached (by omega), hfaulted.spin, hfaulted.cause, hfaulted.spinUp, hfaulted.step,
      hfaulted.retracts⟩
  case noLimit => exact fun s h => ⟨s, congrArg Host.Outcome.next (if_neg (by simp; tauto)), rfl⟩
  case rampCross =>
    intro ts vs tm s hclk hspin hz hfloat hfew hcross
    have hmean : s.stepMean = s.rampStep := if_pos hspin
    rw [← hmean] at hcross
    have hno : (s.crossed tm).zcSpeed = s.crossed tm := State.zcSpeed_of_few ((congrArg List.length (s.crossed_steps tm)).trans_lt hfew)
    exact ⟨_, (execZeroCrossing_of_some hclk (.inl hspin) hz hfloat hcross).trans (congrArg Host.Outcome.next hno),
      (s.crossed_spn tm).trans (congrArg _ (State.agreed_of_ramp hspin tm _)), FieldsKept.of_f (s.crossed_f tm) _,
      BytesKept.of_mem (s.crossed_mem tm)⟩
  case runCross =>
    intro ts vs tm s hclk hspin hz hfloat hfull hsrc hvalid hsum hcross
    have hmean : s.stepMean = 2 * s.halfMean := if_neg (by omega)
    have hsteps := s.crossed_steps tm
    have hkept := FieldsKept.of_f (s.crossed_f tm) []
    rw [← hmean] at hcross
    rw [← hsteps] at hfull hsum ⊢
    have hfits : 294912000000000 / sumNat (s.crossed tm).spn.steps ≤ 0x1FFFFF :=
      Nat.le_of_lt_succ (Nat.div_lt_of_lt_mul (by omega))
    have hspeed := State.zcSpeed_of_full hfull ((hkept _ (by simp)).trans hsrc) (by omega)
    have hgiven := SpeedGiven.speedUpdate ((hkept _ (by simp)).trans hvalid) 294912000000000 (sumNat (s.crossed tm).spn.steps)
    rw [← hspeed] at hgiven
    refine ⟨_, execZeroCrossing_of_some hclk (.inr hspin) hz hfloat hcross, hgiven.crossing, hgiven.misses, ?_,
      (FieldsKept.of_f (s.crossed_f tm) _).trans hgiven.fields, BytesKept.of_mem (hgiven.mem.trans (s.crossed_mem tm))⟩
    rw [hgiven.speed]
    exact State.roundFree_cases _ hfits
  case noCross => exact fun ts vs s h => ⟨s, execZeroCrossing_of_none h, rfl⟩
  case handover =>
    intro s hspin hok
    refine ⟨_, congrArg Host.Outcome.next (if_pos ⟨hspin, hok⟩), ?_⟩
    rw [State.accel_eq]
    exact ⟨State.entered_spin _ _ (by decide), rfl, BytesKept.powerDie s _ _, FieldsKept.powerDie s _ _⟩
  case noHandover => exact fun s h => ⟨s, congrArg Host.Outcome.next (if_neg (by omega)), rfl⟩
  case rampStep =>
    intro k s hclk hspin hdir hk
    have hnext : k.val + 1 = stepAfter s.spn.dir s.spn.step := by simp [stepAfter, hdir, hk]
    refine ⟨_, (execCommutation_of_next hclk hnext).trans (congrArg Host.Outcome.next (if_pos hspin)), hnext.symm, rfl, rfl, rfl,
      FieldsKept.of_f (State.nextStep_f s s.rampStep) _, BytesKept.of_mem (State.nextStep_mem s s.rampStep)⟩
  case runStep =>
    intro z s hclk hspin hz hdir hstep
    have hnext : (5 : Fin 6).val + 1 = stepAfter s.spn.dir s.spn.step := by simp [stepAfter, hdir, hstep]
    have hstep : execCommutation 5 s = .next (s.nextStep (z + s.halfMean)) := by
      rw [execCommutation_of_next hclk hnext, if_neg (by omega), if_pos hspin, hz]
      rfl
    refine ⟨_, hstep, hnext.symm, rfl, rfl, ?_, FieldsKept.of_f (State.nextStep_f s _) _, BytesKept.of_mem (State.nextStep_mem s _)⟩
    rw [State.nextStep_since hz, Nat.add_sub_cancel_left]
  case noStep => exact fun k s h => ⟨s, execCommutation_of_waiting h, rfl⟩
  case atSpeed =>
    intro s hspin hin
    obtain ⟨h5, hat⟩ := s.ran_get
    refine ⟨_, execAtSpeed_of_band hspin hin, h5, hat, rfl, fun hactive => ?_, BytesKept.of_mem s.ran_mem, FieldsKept.ran s⟩
    show (s.ran.pwr.headsLoaded || s.ran.pwr.dev == .active) = true
    rw [s.ran_pwr, hactive]
    exact Bool.or_true _
  case noSpeed => exact fun s h => ⟨s, congrArg Host.Outcome.next (if_neg (by omega)), rfl⟩
  case lost =>
    intro s hspin hout
    refine ⟨_, congrArg Host.Outcome.next ((if_pos hspin).trans (if_pos hout)), State.get_put_of_lt _ (by decide), ?_, rfl,
      BytesKept.of_mem rfl, ((FieldsKept.refl s _).put _ _ (by simp)).put _ _ (by simp)⟩
    exact (State.get_put_ne _ _ _ (by decide)).trans (State.get_put_of_lt _ (by decide))

end Sys2Proof.Machine
end

