-- ==== Sys2Proof/Proofs/BufferRules.lean ====
section
/-! SUPPORT. The buffer as bytes and as bursts (12 R311 to R314): numbers stored and loaded, the bursts that an access touches, a burst
read in each of its three outcomes, and a request as it is served. -/

namespace Sys2Proof.Machine

/-! ## Bytes as a number (00 R6) -/

theorem BytesKept.loadMem {s t : State} (h : BytesKept s t) (a n : Nat) : t.loadMem a n = s.loadMem a n := by
  induction n generalizing a with
  | zero => rfl
  | succ n ih => rw [State.loadMem, State.loadMem, h a, ih]

/-- Bytes that are those of `v`, the least significant first, load as `v`. -/
theorem State.loadMem_of_bytes {s : State} {a v n : Nat} (h : ∀ i < n, s.byte (a + i) = BitVec.ofNat 8 (v / 256 ^ i)) :
    s.loadMem a n = v % 256 ^ n := by
  induction n generalizing a v with
  | zero => exact (Nat.mod_one v).symm
  | succ n ih =>
    have hfirst : (s.byte a).toNat = v % 256 := by simpa using congrArg BitVec.toNat (h 0 n.succ_pos)
    have hrest : s.loadMem (a + 1) n = v / 256 % 256 ^ n := ih fun i hi => by
      rw [Nat.add_assoc, Nat.add_comm 1 i, h _ (Nat.succ_lt_succ hi), Nat.div_div_eq_div_mul, Nat.pow_succ']
    rw [State.loadMem, hfirst, hrest, Nat.pow_succ', Nat.mod_mul]

theorem State.byte_storeMem (s : State) (a v n x : Nat) :
    (s.storeMem a v n).byte x = if a ≤ x ∧ x < a + n then BitVec.ofNat 8 (v / 256 ^ (x - a)) else s.byte x := by
  split
  next h =>
    obtain ⟨i, rfl⟩ := Nat.exists_eq_add_of_le h.1
    rw [Nat.add_sub_cancel_left]
    exact Mem.get_store_in s.mem a v n i (by omega)
  next h => exact Mem.get_store_out s.mem a v n x (by omega)

theorem State.loadMem_storeMem (s : State) (a v n : Nat) : (s.storeMem a v n).loadMem a n = v % 256 ^ n :=
  State.loadMem_of_bytes fun i hi => Mem.get_store_in s.mem a v n i hi

theorem State.loadMem_answer (s : State) (r : Resp) (a n : Nat) : (s.answer r).loadMem a n = s.loadMem a n :=
  BytesKept.loadMem (s := s) (t := s.answer r) (BytesKept.of_mem rfl) a n

theorem State.loadMem_setBuf (s : State) (x : Buf) (a n : Nat) : (s.setBuf x).loadMem a n = s.loadMem a n :=
  BytesKept.loadMem (s := s) (t := s.setBuf x) (BytesKept.of_mem rfl) a n

/-! ## The bursts of an access -/

/-- An access within one burst touches that burst alone. -/
theorem burstsOf_within (n : Nat) {o len : Nat} (hlen : 0 < len) (h : o + len ≤ 32) : burstsOf (32 * n + o) len = [n] := by
  have hfirst : (32 * n + o) / 32 = n := by omega
  have hlast : (32 * n + o + len - 1) / 32 = n := by omega
  rw [burstsOf, hfirst, hlast, if_neg (by omega), Nat.sub_self]
  rfl

theorem burstsOf_burst (n : Nat) : burstsOf (32 * n) 32 = [n] := burstsOf_within n (o := 0) (by omega) (by omega)

/-- The burst of every byte of an access is one of its bursts. -/
theorem mem_burstsOf {a n x : Nat} (hlo : a ≤ x) (hhi : x < a + n) : x / 32 ∈ burstsOf a n := by
  rw [burstsOf, if_neg (by omega), List.mem_map]
  exact ⟨x / 32 - a / 32, List.mem_range.mpr (by omega), by omega⟩

/-! ## Check bytes -/

theorem State.burstErr_setChk (s : State) (b c : Nat) :
    (s.setChk (SMap.put s.chk 0 b 0)).burstErr c = if c = b then 0 else s.burstErr c := by
  split
  next h => rw [h]; exact SMap.get_put_same s.chk 0 b 0
  next h => exact SMap.get_put_ne s.chk 0 0 0 h

theorem rsDecode_zero : rsDecode 0 = .clean := by decide

theorem State.fixBurst_check (s : State) (b v : Nat) {p : Nat} (h : p < 4) :
    s.fixBurst b p v = s.setChk (SMap.put s.chk 0 b 0) := if_pos h

theorem State.fixBurst_data (s : State) (b v : Nat) {p : Nat} (h : 4 ≤ p) :
    s.fixBurst b p v = (s.setChk (SMap.put s.chk 0 b 0)).setByte (32 * b + (35 - p))
      (BitVec.ofNat 8 ((s.byte (32 * b + (35 - p))).toNat ^^^ v)) := if_neg (Nat.not_lt.mpr h)

theorem State.burstErr_fixBurst (s : State) (b p v : Nat) : (s.fixBurst b p v).burstErr b = 0 := by
  unfold State.fixBurst
  dsimp only
  split <;> exact SMap.get_put_same s.chk 0 b 0

/-! ## A burst read (12 R312, R314) -/

theorem State.readBurst_of_clean {s : State} {b : Nat} (h : rsDecode (s.burstErr b) = .clean) : s.readBurst b = (true, s) := by
  rw [State.readBurst, h]

theorem State.readBurst_of_single {s : State} {b p v : Nat} (h : rsDecode (s.burstErr b) = .single p v) :
    s.readBurst b = (true, (s.fixBurst b p v).inc Reg.BUF_CE_CNT_COUNT) := by
  rw [State.readBurst, h]

/-- What an uncorrectable burst `b` leaves: the error counted, the first one latched, the contents as they were. -/
structure Uncorrectable (s t : State) (b : Nat) : Prop where
  count : t.get Reg.BUF_UE_CNT_COUNT = s.counted Reg.BUF_UE_CNT_COUNT 1
  first : s.get Reg.BUF_UE_FIRST_VALID = 0 → t.get Reg.BUF_UE_FIRST_VALID = 1 ∧
    t.get Reg.BUF_UE_FIRST_BURST = b % 2 ^ Reg.BUF_UE_FIRST_BURST.width
  later : s.get Reg.BUF_UE_FIRST_VALID = 1 → t.get Reg.BUF_UE_FIRST_BURST = s.get Reg.BUF_UE_FIRST_BURST
  fields : FieldsKept s t [Reg.BUF_UE_FIRST_VALID, Reg.BUF_UE_FIRST_BURST, Reg.BUF_UE_CNT_COUNT]
  bytes : BytesKept s t

/-- A burst counted as uncorrectable, with the first one latched. -/
def State.countBad (s : State) (b : Nat) : State :=
  if (s.inc Reg.BUF_UE_CNT_COUNT).flag Reg.BUF_UE_FIRST_VALID then s.inc Reg.BUF_UE_CNT_COUNT
  else ((s.inc Reg.BUF_UE_CNT_COUNT).put Reg.BUF_UE_FIRST_VALID 1).put Reg.BUF_UE_FIRST_BURST b

theorem State.readBurst_of_bad {s : State} {b : Nat} (h : rsDecode (s.burstErr b) = .bad) : s.readBurst b = (false, s.countBad b) := by
  rw [State.readBurst, h]
  rfl

theorem State.countBad_uncorrectable (s : State) (b : Nat) : Uncorrectable s (s.countBad b) b := by
  have hvalid : (s.inc Reg.BUF_UE_CNT_COUNT).get Reg.BUF_UE_FIRST_VALID = s.get Reg.BUF_UE_FIRST_VALID :=
    State.get_incBy_ne s _ 1 (by decide)
  have hcount := State.get_incBy_same s Reg.BUF_UE_CNT_COUNT 1
  have hfields := (FieldsKept.refl s [Reg.BUF_UE_FIRST_VALID, Reg.BUF_UE_FIRST_BURST, Reg.BUF_UE_CNT_COUNT]).incBy
    Reg.BUF_UE_CNT_COUNT 1 (by simp)
  unfold State.countBad
  split
  next hflag =>
    rw [State.flag_eq, hvalid, bne_iff_ne] at hflag
    exact ⟨hcount, fun h => absurd h hflag, fun _ => State.get_incBy_ne s _ 1 (by decide), hfields, BytesKept.of_mem rfl⟩
  next hflag =>
    rw [State.flag_eq, hvalid, bne_iff_ne, not_not] at hflag
    refine ⟨?_, fun _ => ⟨?_, State.get_put_same _ _ _⟩, fun h => ?_, (hfields.put _ _ (by simp)).put _ _ (by simp),
      BytesKept.of_mem rfl⟩
    · rw [State.get_put_ne _ _ _ (by decide), State.get_put_ne _ _ _ (by decide)]
      exact hcount
    · rw [State.get_put_ne _ _ _ (by decide)]
      exact State.get_put_of_lt _ (by decide)
    · omega

/-- The arbiter is no part of it. -/
theorem Uncorrectable.of_setBuf {s t : State} {x : Buf} {b : Nat} (h : Uncorrectable (s.setBuf x) t b) : Uncorrectable s t b :=
  ⟨h.count, h.first, h.later, h.fields, h.bytes⟩

/-! ## Rejections (00 R15) -/

/-- A first rejection of the buffer manager changes nothing but ERR and CODE. -/
theorem State.bufRejected {s : State} (h : s.get Reg.BUF_CFG_STATUS_ERR = 0) {c : Nat} (hc : c < 256) :
    (s.reject Reg.BUF_CFG_STATUS_ERR Reg.BUF_CFG_STATUS_CODE c).get Reg.BUF_CFG_STATUS_CODE = c ∧
      (s.reject Reg.BUF_CFG_STATUS_ERR Reg.BUF_CFG_STATUS_CODE c).buf = s.buf ∧
      BytesKept s (s.reject Reg.BUF_CFG_STATUS_ERR Reg.BUF_CFG_STATUS_CODE c) ∧
      FieldsKept s (s.reject Reg.BUF_CFG_STATUS_ERR Reg.BUF_CFG_STATUS_CODE c)
        [Reg.BUF_CFG_STATUS_ERR, Reg.BUF_CFG_STATUS_CODE] := by
  refine ⟨?_, ?_, BytesKept.of_mem (State.reject_mem s _ _ c), FieldsKept.reject s _ _ c⟩
  · rw [State.reject_of_noError h]
    exact State.get_put_of_lt _ hc
  · rw [State.reject_of_noError h]
    rfl

/-! ## Requests (12 R307, R308, R317) -/

theorem State.request_of_free {s : State} {q : HbmReq} (h : s.reqHeld q = false) : s.request q = s.serveReq q :=
  if_neg (by simp [h])

theorem State.request_of_held {s : State} {q : HbmReq} (h : s.reqHeld q = true) :
    s.request q = s.setBuf { s.buf with waiting := s.buf.waiting ++ [q] } := if_pos h

/-- The arbiter as request `q` begins: its port noted, and `n` bursts charged to its class. -/
def State.arbiterFor (s : State) (q : HbmReq) (n : Nat) : Buf :=
  ((s.when (q.cls = 3) fun s => s.setBuf { s.buf with lastHost := q.port }).charge q.cls n).buf

theorem State.arbiterFor_eq (s : State) (q : HbmReq) (n : Nat) :
    (s.when (q.cls = 3) fun s => s.setBuf { s.buf with lastHost := q.port }).charge q.cls n = s.setBuf (s.arbiterFor q n) := by
  unfold State.arbiterFor State.when
  split <;> rfl

theorem State.arbiterFor_rest (s : State) (q : HbmReq) (n : Nat) :
    (s.arbiterFor q n).waiting = s.buf.waiting ∧ (s.arbiterFor q n).ppr = s.buf.ppr := by
  unfold State.arbiterFor State.when
  split <;> exact ⟨rfl, rfl⟩

theorem State.hbmUp_noted (s : State) (q : HbmReq) :
    (s.when (q.cls = 3) fun s => s.setBuf { s.buf with lastHost := q.port }).hbmUp = s.hbmUp := by
  unfold State.when
  split <;> rfl

/-- A read served: its bursts read in order, and their bytes or an error answered. -/
theorem State.serveReq_read {s : State} {q : HbmReq} (hq : q.write = false) (hup : s.hbmUp = true) {r : Bool × State}
    (hr : (s.setBuf (s.arbiterFor q (burstsOf q.addr q.len).length)).readBursts (burstsOf q.addr q.len) = r) :
    s.serveReq q = r.2.answer (if r.1 then .block q.len (r.2.loadMem q.addr q.len) else .busError) := by
  simp only [State.serveReq, State.bufRead, State.hbmUp_noted, State.arbiterFor_eq, hq, hup, hr, if_true, Bool.false_eq_true, if_false]
  cases r.1 <;> rfl

/-- A write served: its bursts written in order, and nothing or an error answered. -/
theorem State.serveReq_write {s : State} {q : HbmReq} (hq : q.write = true) (hup : s.hbmUp = true) {r : Bool × State}
    (hr : (s.setBuf (s.arbiterFor q (writeCharge q.addr q.len))).writeBursts q.addr q.len q.data (burstsOf q.addr q.len) = r) :
    s.serveReq q = r.2.answer (if r.1 then .none else .busError) := by
  simp only [State.serveReq, State.bufWrite, State.hbmUp_noted, State.arbiterFor_eq, hq, hup, hr, if_true]
  cases r.1 <;> rfl

/-- Without the HBM a request answers an error, and beside its port noted nothing changes. -/
theorem State.serveReq_down {s : State} (q : HbmReq) (hdown : s.hbmUp = false) :
    ∃ x : Buf, s.serveReq q = (s.setBuf x).answer .busError := by
  simp only [State.serveReq, State.bufRead, State.bufWrite, State.hbmUp_noted, hdown, Bool.false_eq_true, if_false, ite_self]
  unfold State.when
  split <;> exact ⟨_, rfl⟩

end Sys2Proof.Machine
end

