-- ==== Sys2Proof/Proofs/BufferWrites.lean ====
section
/-! SUPPORT. Writes of the buffer (12 R313): the part of a write that falls into one burst, and a write of any length and alignment as
its parts in order. -/

namespace Sys2Proof.Machine

/-! ## One burst's part -/

/-- A burst with valid check bytes takes its part of a write as it stands. -/
theorem State.writeBurst_of_valid {s : State} {b : Nat} (lo hi v : Nat) (h : s.burstErr b = 0) :
    s.writeBurst b lo hi v = (true, (s.setChk (SMap.put s.chk 0 b 0)).storeMem lo v (hi - lo)) := by
  unfold State.writeBurst
  split
  next hwhole => rw [hwhole.2, hwhole.1, Nat.add_sub_cancel_left]
  next =>
    rw [State.readBurst_of_clean (by rw [h]; exact rsDecode_zero)]
    rfl

/-- A whole burst is replaced, whatever its check bytes. -/
theorem State.writeBurst_whole (s : State) (b v : Nat) :
    s.writeBurst b (32 * b) (32 * b + 32) v = (true, s.storeBurst b v) := if_pos ⟨rfl, rfl⟩

/-- A part of an uncorrectable burst is not written. -/
theorem State.writeBurst_of_bad {s : State} {b lo hi : Nat} (v : Nat) (hpart : ¬(lo = 32 * b ∧ hi = 32 * b + 32))
    (h : rsDecode (s.burstErr b) = .bad) : s.writeBurst b lo hi v = (false, s.countBad b) := by
  rw [State.writeBurst, if_neg hpart, State.readBurst_of_bad h]
  rfl

theorem State.writeBursts_one (s : State) (a n v b : Nat) : s.writeBursts a n v [b] =
    s.writeBurst b (max a (32 * b)) (min (a + n) (32 * b + 32)) (v / 256 ^ (max a (32 * b) - a)) :=
  Prod.ext (Bool.and_true _) rfl

/-! ## The bursts in order -/

/-- The bytes of a write of `n` bytes of `v` at `a` that fall into the bursts `bs`, over those of `s`. -/
def State.byteAfter (s : State) (a n v : Nat) (bs : List Nat) (x : Nat) : Byte :=
  if x / 32 ∈ bs ∧ a ≤ x ∧ x < a + n then BitVec.ofNat 8 (v / 256 ^ (x - a)) else s.byte x

/-- A byte of a burst's part: it lies in the burst and in the write. -/
theorem mem_part_iff (a n b x : Nat) :
    (max a (32 * b) ≤ x ∧ x < max a (32 * b) + (min (a + n) (32 * b + 32) - max a (32 * b))) ↔
      x / 32 = b ∧ a ≤ x ∧ x < a + n := by
  omega

/-- Bursts with valid check bytes take every byte of a write that falls into them, and no register field changes. -/
theorem State.writeBursts_of_valid {a n v : Nat} {bs : List Nat} {s : State} (h : ∀ b ∈ bs, s.burstErr b = 0) :
    (s.writeBursts a n v bs).1 = true ∧ (s.writeBursts a n v bs).2.f = s.f ∧
      ∀ x, (s.writeBursts a n v bs).2.byte x = s.byteAfter a n v bs x := by
  induction bs generalizing s with
  | nil => exact ⟨rfl, rfl, fun x => (if_neg fun hx => absurd hx.1 List.not_mem_nil).symm⟩
  | cons b bs ih =>
    obtain ⟨hb, hbs⟩ := List.forall_mem_cons.mp h
    have hpart := State.writeBurst_of_valid (max a (32 * b)) (min (a + n) (32 * b + 32)) (v / 256 ^ (max a (32 * b) - a)) hb
    obtain ⟨hgood, hf, hbyte⟩ := ih (s := (s.writeBurst b (max a (32 * b)) (min (a + n) (32 * b + 32))
      (v / 256 ^ (max a (32 * b) - a))).2) fun c hc => by
        rw [hpart]
        refine (State.burstErr_setChk s b c).trans ?_
        rw [hbs c hc, ite_self]
    refine ⟨?_, hf.trans (by rw [hpart]; rfl), fun x => (hbyte x).trans ?_⟩
    · rw [State.writeBursts]
      exact Bool.and_eq_true_iff.mpr ⟨by rw [hpart], hgood⟩
    · unfold State.byteAfter
      rw [hpart, State.byte_storeMem]
      simp only [mem_part_iff, List.mem_cons]
      by_cases hin : a ≤ x ∧ x < a + n
      · by_cases hxb : x / 32 = b
        · rw [Nat.div_div_eq_div_mul, ← Nat.pow_add]
          have : max a (32 * b) - a + (x - max a (32 * b)) = x - a := by omega
          simp [hin, hxb, this]
        · simp only [hin, hxb, false_or, and_true, if_false]
          rfl
      · simp only [hin, and_false, if_false]
        rfl

/-! ## A write as it is served -/

/-- The state as an accepted write of `n` bytes of `v` at `a` begins. -/
def State.atWrite (s : State) (c : BufClass) (a n v : Nat) : State :=
  s.setBuf (s.arbiterFor ⟨classNum c, classPort c, true, a, n, v⟩ (writeCharge a n))

theorem execHbmPartialWrite_of_good {c : BufClass} {a n v : Nat} {s t : State}
    (hfree : s.reqHeld ⟨classNum c, classPort c, true, a, n, v⟩ = false) (hup : s.hbmUp = true)
    (hr : (s.atWrite c a n v).writeBursts a n v (burstsOf a n) = (true, t)) :
    execHbmPartialWrite c a n v s = .next (t.answer .none) :=
  congrArg Host.Outcome.next ((State.request_of_free hfree).trans (State.serveReq_write rfl hup hr))

theorem execHbmPartialWrite_of_bad {c : BufClass} {a n v : Nat} {s t : State}
    (hfree : s.reqHeld ⟨classNum c, classPort c, true, a, n, v⟩ = false) (hup : s.hbmUp = true)
    (hr : (s.atWrite c a n v).writeBursts a n v (burstsOf a n) = (false, t)) :
    execHbmPartialWrite c a n v s = .next (t.answer .busError) :=
  congrArg Host.Outcome.next ((State.request_of_free hfree).trans (State.serveReq_write rfl hup hr))

/-! ## The statement -/

/-- Settles O34, by the bursts that the write touches, of which each takes its part. -/
theorem bufferWrites : Obligations.BufferWrites := by
  unfold Obligations.BufferWrites
  refine ⟨?valid, ?bad, ?whole, ?down, ?waits⟩
  case valid =>
    intro c addr len data s hfree hup hvalid
    obtain ⟨hgood, hf, hbyte⟩ := State.writeBursts_of_valid (a := addr) (n := len) (v := data) (s := s.atWrite c addr len data)
      fun b hb => eq_of_beq (List.all_eq_true.mp hvalid b hb)
    refine ⟨_, execHbmPartialWrite_of_good hfree hup (Prod.ext hgood rfl), rfl, ?_, ?_, FieldsKept.of_f hf _⟩
    · exact State.loadMem_of_bytes fun i hi => (hbyte _).trans <| by
        rw [State.byteAfter, if_pos ⟨mem_burstsOf (by omega) (by omega), by omega, by omega⟩, Nat.add_sub_cancel_left]
    · exact fun x hx => (hbyte x).trans (if_neg (by omega))
  case bad =>
    intro c n o len data s hfree hup hlen hend hbad
    have hwritten := (State.writeBursts_one (s.atWrite c (32 * n + o) len data) (32 * n + o) len data n).trans
      (State.writeBurst_of_bad _ (by omega) hbad)
    rw [← burstsOf_within n hlen hend.le] at hwritten
    have hleft := Uncorrectable.of_setBuf ((s.atWrite c (32 * n + o) len data).countBad_uncorrectable n)
    exact ⟨_, execHbmPartialWrite_of_bad hfree hup hwritten, rfl, hleft.count, hleft.fields, hleft.bytes⟩
  case whole =>
    intro c n data s hfree hup
    have hwritten := State.writeBursts_one (s.atWrite c (32 * n) 32 data) (32 * n) 32 data n
    rw [Nat.max_self, Nat.min_self, Nat.sub_self, Nat.pow_zero, Nat.div_one, State.writeBurst_whole, ← burstsOf_burst n] at hwritten
    have hf := (s.atWrite c (32 * n) 32 data).storeBurst_f n data
    have hbytes := BytesKeptBut.storeBurst (s.atWrite c (32 * n) 32 data) n data
    exact ⟨_, execHbmPartialWrite_of_good hfree hup hwritten, rfl, SMap.get_put_same s.chk 0 n 0,
      (State.loadMem_answer _ _ _ _).trans (State.loadMem_storeMem _ _ _ _), hbytes, FieldsKept.of_f (s := s) hf _⟩
  case down =>
    intro c addr len data s hfree hdown
    obtain ⟨x, hx⟩ := State.serveReq_down ⟨classNum c, classPort c, true, addr, len, data⟩ hdown
    exact ⟨_, congrArg Host.Outcome.next ((State.request_of_free hfree).trans hx), rfl, FieldsKept.of_f rfl _, BytesKept.of_mem rfl⟩
  case waits =>
    intro c addr len data s hheld
    exact ⟨_, congrArg Host.Outcome.next (State.request_of_held hheld), rfl, rfl, FieldsKept.of_f rfl _, BytesKept.of_mem rfl⟩

end Sys2Proof.Machine
end

