-- ==== Sys2Proof/Proofs/BufferReads.lean ====
section
/-! SUPPORT. Reads of the buffer (12 R305, R312 to R314): a burst corrected, a read of one burst as it is served, and the end of a repair,
which serves what waited for it (R317). -/

namespace Sys2Proof.Machine

/-! ## A burst corrected -/

theorem State.counted_fixBurst (s : State) (b p v : Nat) (F : Field) : (s.fixBurst b p v).counted F 1 = s.counted F 1 :=
  State.counted_congr (State.get_of_f (s.fixBurst_f b p v) F) 1

theorem FieldsKept.fixBurst_inc (s : State) (b p v : Nat) (F : Field) : FieldsKept s ((s.fixBurst b p v).inc F) [F] :=
  (FieldsKept.of_f (s.fixBurst_f b p v) [F]).incBy F 1 (List.mem_singleton_self _)

/-- A symbol of the data corrected is one byte changed. -/
theorem State.fixBurst_bytes (s : State) (b v : Nat) {p : Nat} (h : 4 ≤ p) :
    ((s.fixBurst b p v).byte (32 * b + (35 - p))).toNat = ((s.byte (32 * b + (35 - p))).toNat ^^^ v) % 256 ∧
      BytesKeptBut s (s.fixBurst b p v) (32 * b + (35 - p)) 1 := by
  rw [s.fixBurst_data b v h]
  refine ⟨?_, fun x hx => State.byte_setByte_ne _ _ (by omega)⟩
  rw [State.byte_setByte_same]
  exact BitVec.toNat_ofNat _ _

/-! ## A read as it is served -/

/-- The state as an accepted read of burst `n` begins. -/
def State.atRead (s : State) (c : BufClass) (n : Nat) : State :=
  s.setBuf (s.arbiterFor ⟨classNum c, classPort c, false, 32 * n, 32, 0⟩ 1)

theorem State.serveReq_burst {c : BufClass} {n : Nat} {s t : State} {good : Bool} (hup : s.hbmUp = true)
    (hr : (s.atRead c n).readBurst n = (good, t)) : s.serveReq ⟨classNum c, classPort c, false, 32 * n, 32, 0⟩ =
      t.answer (if good then .block 32 (t.loadMem (32 * n) 32) else .busError) := by
  refine State.serveReq_read (q := ⟨classNum c, classPort c, false, 32 * n, 32, 0⟩) (r := (good, t)) rfl hup ?_
  rw [burstsOf_burst]
  exact (Prod.ext (Bool.and_true _) rfl : State.readBursts _ [n] = State.readBurst _ n).trans hr

/-- A burst that reads well answers its 32 bytes as they then stand. -/
theorem execHbmRead_of_good {c : BufClass} {n : Nat} {s t : State}
    (hfree : s.reqHeld ⟨classNum c, classPort c, false, 32 * n, 32, 0⟩ = false) (hup : s.hbmUp = true)
    (hr : (s.atRead c n).readBurst n = (true, t)) : execHbmRead c n s = .next (t.answer (.block 32 (t.loadMem (32 * n) 32))) :=
  congrArg Host.Outcome.next ((State.request_of_free hfree).trans (State.serveReq_burst hup hr))

theorem execHbmRead_of_bad {c : BufClass} {n : Nat} {s t : State}
    (hfree : s.reqHeld ⟨classNum c, classPort c, false, 32 * n, 32, 0⟩ = false) (hup : s.hbmUp = true)
    (hr : (s.atRead c n).readBurst n = (false, t)) : execHbmRead c n s = .next (t.answer .busError) :=
  congrArg Host.Outcome.next ((State.request_of_free hfree).trans (State.serveReq_burst hup hr))

/-- The answer of a block is that of the bytes as they stood where none of them has changed. -/
theorem State.answer_block_resp {s t : State} (h : BytesKept s t) (a n : Nat) :
    (t.answer (.block n (t.loadMem a n))).resp = .block n (s.loadMem a n) :=
  congrArg (Resp.block n) (h.loadMem a n)

/-- A burst waits while the stack's clock stands, and while its pseudo-channel is under repair. -/
theorem State.reqHeld_burst {s : State} {n : Nat} (cls port : Nat)
    (h : s.clkOk 25 = false ∨ s.buf.ppr.any (fun x => pcOf x.2 == pcOf n) = true) :
    s.reqHeld ⟨cls, port, false, 32 * n, 32, 0⟩ = true := by
  rcases h with hclk | hrepair
  · simp [State.reqHeld, hclk]
  · cases hppr : s.buf.ppr with
    | none => simp [hppr] at hrepair
    | some x =>
      rw [hppr] at hrepair
      simp [State.reqHeld, hppr, burstsOf_burst, (eq_of_beq hrepair).symm]

/-! ## The end of a repair (R316, R317) -/

/-- The arbiter after a repair of bank `k`: none runs, and its resource is spent unless it failed. -/
def Buf.spent (b : Buf) (failed hard : Bool) (k : Nat) : Buf :=
  if failed then { b with ppr := none }
  else if hard then { b with ppr := none, pprHard := SMap.upd b.pprHard 0 k (· + 1) }
  else { b with ppr := none, pprSoft := SMap.upd b.pprSoft 0 k (· + 1) }

/-- The state as a repair ends, before the requests that waited are served. -/
def State.repaired (s : State) (failed hard : Bool) (n : Nat) : State :=
  (((s.setBuf (s.buf.spent failed hard (bankOf n))).put Reg.BUF_PPR_STATUS_BUSY 0).put Reg.BUF_PPR_STATUS_DONE 1).put
    Reg.BUF_PPR_STATUS_RESULT (b2n failed)

theorem execPprDone_of_running {hard : Bool} {n : Nat} {s : State} (h : s.buf.ppr = some (hard, n)) (failed : Bool) :
    execPprDone failed s = .next ((s.repaired failed hard n).serve s.buf.waiting.length) := by
  simp only [execPprDone, h]
  cases failed <;> cases hard <;> rfl

theorem Buf.spent_rest (b : Buf) (failed hard : Bool) (k : Nat) :
    (b.spent failed hard k).ppr = none ∧ (b.spent failed hard k).waiting = b.waiting ∧ (b.spent failed hard k).selfRef = b.selfRef := by
  cases failed <;> cases hard <;> exact ⟨rfl, rfl, rfl⟩

/-- The state after a repair with no request left waiting. -/
def State.freed (s : State) (failed hard : Bool) (n : Nat) : State :=
  (s.repaired failed hard n).setBuf { (s.repaired failed hard n).buf with waiting := [] }

section Repaired
variable (s : State) (failed hard : Bool) (n : Nat)

theorem State.hbmUp_repaired : (s.repaired failed hard n).hbmUp = s.hbmUp := by
  obtain ⟨-, -, hself⟩ := s.buf.spent_rest failed hard (bankOf n)
  have htrained : (s.repaired failed hard n).get Reg.BUF_STATUS_TRAINED = s.get Reg.BUF_STATUS_TRAINED := by
    simp (disch := decide) only [State.repaired, State.get_put_ne]
    rfl
  have hbuf : (s.repaired failed hard n).buf.selfRef = s.buf.selfRef := hself
  rw [State.hbmUp, State.hbmUp, State.flag_eq, State.flag_eq, htrained, hbuf]
  rfl

theorem State.repaired_fields : FieldsKept s (s.repaired failed hard n)
    [Reg.BUF_PPR_STATUS_BUSY, Reg.BUF_PPR_STATUS_DONE, Reg.BUF_PPR_STATUS_RESULT] :=
  ((((FieldsKept.of_f rfl _).put _ _ (by simp)).put _ _ (by simp)).put _ _ (by simp) :
    FieldsKept s (s.repaired failed hard n) _)

end Repaired

/-! ## One request that waits (R308) -/

/-- A single class that waits is the next one, by its credit or by the excess turn. -/
theorem Buf.nextClass_of_one (b : Buf) {k : Nat} (hk : k < 5) : b.nextClass (fun c => k == c) = some k := by
  unfold Buf.nextClass
  split
  next c h =>
    have hfound := List.find?_some h
    rw [Bool.and_eq_true, beq_iff_eq] at hfound
    rw [hfound.1]
  next =>
    cases hturn : ((List.range 5).map fun i => (b.lastExcess + 1 + i) % 5).find? fun c => k == c with
    | some c =>
      have hfound := List.find?_some hturn
      rw [beq_iff_eq] at hfound
      rw [hfound]
    | none =>
      refine absurd (beq_self_eq_true k) (List.find?_eq_none.mp hturn k (List.mem_map.mpr ⟨(k + 4 - b.lastExcess % 5) % 5, ?_, ?_⟩))
      · exact List.mem_range.mpr (Nat.mod_lt _ (by decide))
      · omega

theorem Buf.nextReq_of_one {b : Buf} {q : HbmReq} (hq : b.waiting = [q]) (hk : q.cls < 5) : b.nextReq = some q := by
  have hclass : b.nextClass (fun c => b.waiting.any fun q => q.cls == c) = some q.cls := by
    simpa [hq] using b.nextClass_of_one hk
  rw [Buf.nextReq, hclass]
  simp only [hq, List.filter_cons, beq_self_eq_true, if_true, List.filter_nil, List.find?_cons]
  cases q.cls == 3 && q.port != b.lastHost <;> rfl

theorem classNum_lt (c : BufClass) : classNum c < 5 := by cases c <;> simp [classNum]

/-- A single waiting request is served, and none waits after it. -/
theorem State.serve_one {s : State} {q : HbmReq} (hq : s.buf.waiting = [q]) (hk : q.cls < 5) :
    s.serve 1 = (s.setBuf { s.buf with waiting := [] }).serveReq q := by
  rw [State.serve, Buf.nextReq_of_one hq hk, hq]
  simp [State.serve]

/-! ## The statement -/

/-- Settles O33, by the three outcomes of a burst read, what holds a request and the repair's end that serves it. -/
theorem bufferReads : Obligations.BufferReads := by
  unfold Obligations.BufferReads
  refine ⟨?clean, ?data, ?check, ?bad, ?down, ?waits, ?repaired, ?refresh, ?noRefresh, ?hot⟩
  case clean =>
    intro c n s hfree hup hclean
    have hkept : BytesKept s (s.atRead c n) := BytesKept.of_mem rfl
    exact ⟨_, execHbmRead_of_good hfree hup (State.readBurst_of_clean hclean), State.answer_block_resp hkept _ _, rfl,
      FieldsKept.of_f rfl _, hkept⟩
  case data =>
    intro c n i v s hfree hup hsingle hi
    obtain ⟨hbyte, hkept⟩ := (s.atRead c n).fixBurst_bytes n v hi
    exact ⟨_, execHbmRead_of_good hfree hup (State.readBurst_of_single hsingle),
      congrArg (Resp.block 32) (State.loadMem_answer _ _ _ _).symm, State.burstErr_fixBurst _ n i v, hbyte,
      (State.get_incBy_same _ _ 1).trans (State.counted_fixBurst _ n i v _), FieldsKept.fixBurst_inc (s.atRead c n) n i v _, hkept⟩
  case check =>
    intro c n i v s hfree hup hsingle hi
    have hkept : BytesKept s (((s.atRead c n).fixBurst n i v).inc Reg.BUF_CE_CNT_COUNT) := by
      rw [State.fixBurst_check _ n v hi]
      exact BytesKept.of_mem rfl
    exact ⟨_, execHbmRead_of_good hfree hup (State.readBurst_of_single hsingle), State.answer_block_resp hkept _ _,
      State.burstErr_fixBurst _ n i v, (State.get_incBy_same _ _ 1).trans (State.counted_fixBurst _ n i v _),
      FieldsKept.fixBurst_inc (s.atRead c n) n i v _, hkept⟩
  case bad =>
    intro c n s hfree hup hbad
    have hleft := Uncorrectable.of_setBuf ((s.atRead c n).countBad_uncorrectable n)
    exact ⟨_, execHbmRead_of_bad hfree hup (State.readBurst_of_bad hbad), rfl, hleft.count, hleft.first, hleft.later, hleft.fields,
      hleft.bytes⟩
  case down =>
    intro c n s hfree hdown
    obtain ⟨x, hx⟩ := State.serveReq_down ⟨classNum c, classPort c, false, 32 * n, 32, 0⟩ hdown
    exact ⟨_, congrArg Host.Outcome.next ((State.request_of_free hfree).trans hx), rfl, FieldsKept.of_f rfl _, BytesKept.of_mem rfl⟩
  case waits =>
    intro c n s hheld
    exact ⟨_, congrArg Host.Outcome.next (State.request_of_held (State.reqHeld_burst _ _ hheld)), rfl, rfl, FieldsKept.of_f rfl _,
      BytesKept.of_mem rfl⟩
  case repaired =>
    intro f h c n b s hppr hwait hup hclean
    obtain ⟨hnone, hstill, -⟩ := s.buf.spent_rest f h (bankOf b)
    have hread := State.serveReq_burst (c := c) (s := s.freed f h b) ((s.hbmUp_repaired f h b).trans hup)
      (State.readBurst_of_clean hclean)
    have hkept : BytesKept s ((s.freed f h b).atRead c n) := BytesKept.of_mem rfl
    obtain ⟨hleft, hended⟩ := (s.freed f h b).arbiterFor_rest ⟨classNum c, classPort c, false, 32 * n, 32, 0⟩ 1
    have hrun := execPprDone_of_running hppr f
    rw [hwait, List.length_singleton, State.serve_one (hstill.trans hwait) (classNum_lt c), ← State.freed, hread, if_pos rfl] at hrun
    exact ⟨_, hrun, State.answer_block_resp hkept _ _, hleft, hended.trans hnone, s.repaired_fields f h b, hkept⟩
  case refresh => exact fun s hup => ⟨_, congrArg Host.Outcome.next (if_pos hup), rfl, FieldsKept.of_f rfl _, BytesKept.of_mem rfl⟩
  case noRefresh => exact fun s hdown => ⟨s, congrArg Host.Outcome.next (if_neg (by simp [hdown])), rfl⟩
  case hot =>
    intro n s
    refine ⟨_, rfl, ?_, State.get_put_of_lt _ (b2n_lt _), ((FieldsKept.refl s _).put _ _ (by simp)).put _ _ (by simp),
      BytesKept.of_mem rfl⟩
    exact (State.get_put_ne _ _ _ (by decide)).trans (State.get_put_of_lt _ (by show min n 255 < 256; omega))

end Sys2Proof.Machine
end

