-- ==== Sys2Proof/Proofs/Reservations.lean ====
section
/-! SUPPORT. Writes of the buffer's reservations (12 R307, R310): a register without a row of its own, whose write is checked for its
range and for the sum of the five. -/

namespace Sys2Proof.Machine

/-! ## The register of a reservation (12 Table BUF-6) -/

/-- The address of BUF_RES_c. -/
def resAddr (c : Fin 5) : Nat := 0x40400010 + 4 * c.val

/-- BUF_RES_c as the register table has it: 1 to 368 GB/s. -/
def resDef (c : Fin 5) : RegDef := ⟨resAddr c, [], [⟨0, 9, .rw, Reg.bufResReset c, .rng 1 368 2⟩]⟩

theorem canon_resAddr (c : Fin 5) : canon (resAddr c) = resAddr c := by decide +revert

theorem regAt_resAddr (c : Fin 5) : regAt (resAddr c) = some (resDef c) := by decide +revert

/-- A reservation is no half of a pair (R10). -/
theorem resAddr_plain (c : Fin 5) : isLow (resAddr c) = false ∧ isHigh (resAddr c) = false := by decide +revert

theorem State.writeRow_resAddr (s : State) (req v : Nat) (c : Fin 5) : s.writeRow req (resAddr c) (resAddr c) v = none := by
  fin_cases c <;> rfl

/-- The sum of the reservations with that of class `c` replaced by the value written. -/
def State.resTotal (s : State) (c : Fin 5) (v : Nat) : Nat :=
  ((List.range 5).map fun j => if j = c.val then bits v 8 0 else s.get (Reg.BUF_RES_GBPS j)).sum

theorem State.resSum_resAddr (s : State) (c : Fin 5) (v : Nat) : s.resSum (resAddr c) v = s.resTotal c v := by
  have hclass (j : Nat) : resAddr c = 0x40400010 + 4 * j ↔ j = c.val := by unfold resAddr; omega
  have hfield : ∀ j ∈ List.range 5,
      (⟨0x40400010 + 4 * j, 0, 9, ([32, 96, 64, 160, 16] : List Nat).getD j 0⟩ : Field) = Reg.BUF_RES_GBPS j := by decide
  rw [State.resTotal, List.sum_eq_foldl, List.foldl_map]
  exact List.foldl_ext _ _ _ fun n j hj => by rw [hfield j hj]; simp only [hclass]

theorem State.writeCode_resAddr (s : State) (c : Fin 5) (v : Nat) :
    s.writeCode (resAddr c) v = if 368 < s.resTotal c v then 5 else 0 := by
  rw [← State.resSum_resAddr]
  fin_cases c <;> rfl

theorem State.writeFields_resAddr (s : State) (c : Fin 5) (v : Nat) :
    s.writeFields (resDef c) (resAddr c) v = s.put (Reg.BUF_RES_GBPS c) (bits v 8 0) := by
  fin_cases c <;> rfl

theorem State.rejectAt_resAddr (s : State) (c : Fin 5) (code : Nat) :
    s.rejectAt (resAddr c) code = s.reject Reg.BUF_CFG_STATUS_ERR Reg.BUF_CFG_STATUS_CODE code := by
  fin_cases c <;> rfl

/-- A value in range passes the check of its field (R12 to R14). -/
theorem resDef_check {c : Fin 5} {v : Nat} (hlo : 1 ≤ bits v 8 0) (hhi : bits v 8 0 ≤ 368) : (resDef c).check v = 0 := by
  have hfails : (Range.rng 1 368 2).fails 9 (bits v 8 0) = 0 := if_neg (by omega)
  have hof : FieldDef.of ⟨0, 9, .rw, Reg.bufResReset c, .rng 1 368 2⟩ v = bits v 8 0 := rfl
  simp [RegDef.check, resDef, FieldDef.writable, Range.zeroCount, hof, hfails]

/-! ## A write of it (R310) -/

/-- A value in range is stored, unless the sum would exceed 368. -/
theorem State.plainWrite_resAddr (s : State) {c : Fin 5} {v : Nat} (hlo : 1 ≤ bits v 8 0) (hhi : bits v 8 0 ≤ 368) :
    s.plainWrite (resAddr c) (resAddr c) v =
      if 368 < s.resTotal c v then s.reject Reg.BUF_CFG_STATUS_ERR Reg.BUF_CFG_STATUS_CODE 5
      else s.put (Reg.BUF_RES_GBPS c) (bits v 8 0) := by
  simp only [State.plainWrite, regAt_resAddr, resDef_check hlo hhi, ite_self, if_true, State.writeCode_resAddr,
    State.rejectAt_resAddr, State.writeFields_resAddr]
  by_cases hsum : 368 < s.resTotal c v <;> simp [hsum]

theorem execRegisterWrite_resAddr {c : Fin 5} {v : Word} {s : State} (hbus : s.busFails (resAddr c) = false)
    (hlo : 1 ≤ bits v.toNat 8 0) (hhi : bits v.toNat 8 0 ≤ 368) (r : Fin 5) : execRegisterWrite r (resAddr c) 4 v s =
      .next (if 368 < s.resTotal c v.toNat then (s.answer .none).reject Reg.BUF_CFG_STATUS_ERR Reg.BUF_CFG_STATUS_CODE 5
        else (s.answer .none).put (Reg.BUF_RES_GBPS c) (bits v.toNat 8 0)) := by
  obtain ⟨hlow, hhigh⟩ := resAddr_plain c
  rw [execRegisterWrite, if_neg (by decide), State.regWrite, hbus, canon_resAddr]
  simp only [State.writeRow_resAddr, hlow, hhigh, Bool.false_eq_true, if_false, State.plainWrite_resAddr _ hlo hhi]
  rfl

/-- The greatest term of a sum is no more than the sum: a reservation is at most the total. -/
theorem State.bits_le_resTotal (s : State) (c : Fin 5) (v : Nat) : bits v 8 0 ≤ s.resTotal c v :=
  List.single_le_sum (by simp) _ (List.mem_map.mpr ⟨c.val, List.mem_range.mpr c.isLt, if_pos rfl⟩)

/-! ## A round (R307) -/

/-- Values written at each key of a list, each a function of its key. -/
theorem SMap.get_foldl_put (g : Nat → Nat) (l : List Nat) (m : SMap Nat) (k : Nat) :
    SMap.get (l.foldl (fun m j => SMap.put m 0 j (g j)) m) 0 k = if k ∈ l then g k else SMap.get m 0 k := by
  induction l generalizing m with
  | nil => rfl
  | cons j l ih =>
    rw [List.foldl_cons, ih]
    by_cases hk : k = j
    · simp [hk]
    · simp [hk, SMap.get_put_ne]

/-! ## The statement -/

/-- Settles O32, by what a write of the register does within the sum and beyond it, and by the credit of a round. -/
theorem reservationWrites : Obligations.ReservationWrites := by
  unfold Obligations.ReservationWrites
  refine ⟨?stored, ?rejected, ?again, ?round⟩
  case stored =>
    intro r c v s hbus hlo hsum
    refine ⟨_, (execRegisterWrite_resAddr hbus hlo ((s.bits_le_resTotal c v.toNat).trans hsum) r).trans
      (congrArg Host.Outcome.next (if_neg (Nat.not_lt.mpr hsum))), ?_, rfl, ?_, BytesKept.of_mem rfl⟩
    · exact State.get_put_of_lt _ (Nat.mod_lt _ (by decide))
    · exact (FieldsKept.of_f rfl _).put _ _ (by simp)
  case rejected =>
    intro r c v s hbus hlo hhi herr hsum
    have hreject := State.reject_of_noError (s := s.answer .none) herr Reg.BUF_CFG_STATUS_CODE 5
    refine ⟨_, (execRegisterWrite_resAddr hbus hlo hhi r).trans (congrArg Host.Outcome.next ((if_pos hsum).trans hreject)), ?_,
      State.get_put_of_lt _ (by decide), ?_, BytesKept.of_mem rfl⟩
    · exact (State.get_put_ne _ _ _ (by decide)).trans (State.get_put_of_lt _ (by decide))
    · exact ((FieldsKept.of_f rfl _).put _ _ (by simp)).put _ _ (by simp)
  case again =>
    intro r c v s hbus hlo hhi herr hsum
    have hreject : (s.answer .none).reject Reg.BUF_CFG_STATUS_ERR Reg.BUF_CFG_STATUS_CODE 5 = s.answer .none :=
      if_pos (State.flag_of_one herr)
    exact ⟨_, (execRegisterWrite_resAddr hbus hlo hhi r).trans (congrArg Host.Outcome.next ((if_pos hsum).trans hreject)),
      FieldsKept.of_f rfl _, BytesKept.of_mem rfl⟩
  case round =>
    intro c s
    refine ⟨_, rfl, ?_, FieldsKept.of_f rfl _, BytesKept.of_mem rfl⟩
    exact (SMap.get_foldl_put _ _ _ _).trans (if_pos (List.mem_range.mpr c.isLt))

end Sys2Proof.Machine
end

