-- ==== Sys2Proof/Proofs/RepairAndRaw.lean ====
section
/-! SUPPORT. Post-package repair from its request to its end (12 R316, R317), and the raw window's reads and writes (R320). -/

namespace Sys2Proof.Machine

/-! ## Memory and check bytes replaced -/

section Replaced
variable (s : State)

theorem State.setChk_buf (x : SMap Nat) : (s.setChk x).buf = s.buf := rfl

theorem State.storeMem_buf (a v n : Nat) : (s.storeMem a v n).buf = s.buf := rfl

theorem State.byte_setChk (x : SMap Nat) (a : Nat) : (s.setChk x).byte a = s.byte a := rfl

theorem State.burstErr_setChk_put (m : SMap Nat) (b e : Nat) : (s.setChk (SMap.put m 0 b e)).burstErr b = e :=
  SMap.get_put_same m 0 b e

end Replaced

/-! ## A row of zeros (R317) -/

theorem State.zeroBursts_cons (s : State) (b : Nat) (bs : List Nat) :
    s.zeroBursts (b :: bs) = (s.storeBurst b 0).zeroBursts bs := by
  rw [State.zeroBursts, State.each, List.foldl_cons, State.storeBurst, State.zeroBursts, State.each]

theorem State.zeroBursts_byte (s : State) (bs : List Nat) (x : Nat) :
    (s.zeroBursts bs).byte x = if x / 32 ∈ bs then 0 else s.byte x := by
  induction bs generalizing s with
  | nil => rfl
  | cons b bs ih =>
    have hpart : (s.storeBurst b 0).byte x = if x / 32 = b then 0 else s.byte x := by
      rw [State.storeBurst, State.byte_storeMem, Nat.zero_div]
      exact if_congr (by omega) rfl rfl
    rw [State.zeroBursts_cons, ih, hpart]
    by_cases hbs : x / 32 ∈ bs <;> simp [hbs]

theorem State.storeBurst_buf (s : State) (b v : Nat) : (s.storeBurst b v).buf = s.buf := by
  rw [State.storeBurst, State.storeMem_buf, State.setChk_buf]

theorem State.zeroBursts_buf (s : State) (bs : List Nat) : (s.zeroBursts bs).buf = s.buf := by
  induction bs generalizing s with
  | nil => rfl
  | cons b bs ih => rw [State.zeroBursts_cons, ih, State.storeBurst_buf]

/-! ## The request (R316) -/

/-- The state as a repair of burst `n`'s row begins, before its zeros are written. -/
def State.repairBegun (s : State) (hard : Bool) (n : Nat) : State :=
  (s.put Reg.BUF_PPR_STATUS_BUSY 1).setBuf { s.buf with ppr := some (hard, n) }

theorem State.repairBegun_busy (s : State) (hard : Bool) (n : Nat) : (s.repairBegun hard n).get Reg.BUF_PPR_STATUS_BUSY = 1 :=
  State.get_put_of_lt s (F := Reg.BUF_PPR_STATUS_BUSY) (v := 1) (by decide)

theorem State.repairBegun_fields (s : State) (hard : Bool) (n : Nat) :
    FieldsKept s (s.repairBegun hard n) [Reg.BUF_PPR_STATUS_BUSY] :=
  (FieldsKept.refl s _).put Reg.BUF_PPR_STATUS_BUSY 1 (List.mem_singleton_self _)

/-- A write of BUF_PPR_CTL with the key and GO, check by check. -/
theorem execPprRequest_of_key {v : Word} (hkey : bits v.toNat 31 16 = 0x5A5A) (hgo : hasBit v.toNat 0 = true) (s : State) :
    execPprRequest v s = .next
      (if ¬(s.get Reg.SYS_PWR_STATE_STATE = 1 ∨ s.get Reg.SYS_PWR_STATE_STATE = 2) then
        s.reject Reg.BUF_CFG_STATUS_ERR Reg.BUF_CFG_STATUS_CODE 6
      else if s.pprLeft (hasBit v.toNat 1) (s.get Reg.BUF_PPR_ROW_BURST) = 0 then
        s.reject Reg.BUF_CFG_STATUS_ERR Reg.BUF_CFG_STATUS_CODE 7
      else if s.flag Reg.BUF_PPR_STATUS_BUSY then s.reject Reg.BUF_CFG_STATUS_ERR Reg.BUF_CFG_STATUS_CODE 4
      else (s.repairBegun (hasBit v.toNat 1) (s.get Reg.BUF_PPR_ROW_BURST)).zeroBursts
        (rowBursts (s.get Reg.BUF_PPR_ROW_BURST))) :=
  congrArg Host.Outcome.next (if_neg (by simp [hkey, hgo]))

/-! ## The resources spent (R317) -/

/-- A repair that does not fail spends one resource of its kind for its bank. -/
theorem Buf.spent_resources (b : Buf) (failed hard : Bool) (k : Nat) :
    SMap.get (b.spent failed hard k).pprHard 0 k = SMap.get b.pprHard 0 k + b2n (hard && !failed) ∧
      SMap.get (b.spent failed hard k).pprSoft 0 k = SMap.get b.pprSoft 0 k + b2n (!hard && !failed) := by
  cases failed <;> cases hard <;> simp [Buf.spent, SMap.upd]

/-! ## The raw window (R320) -/

theorem BytesKept.burstBytes {s t : State} (h : BytesKept s t) (b : Nat) : t.burstBytes b = s.burstBytes b :=
  List.map_congr_left fun i _ => by rw [h]

theorem State.rawData_congr {s t : State} (h : ∀ i ∈ List.range 8, t.get (Reg.BUF_RAW_DATA_DATA i) = s.get (Reg.BUF_RAW_DATA_DATA i)) :
    t.rawData = s.rawData :=
  List.foldl_ext _ _ _ fun v i hi => by rw [h i hi]

section Store
variable (s : State) (b : Nat)

theorem State.rawStore_buf : (s.rawStore b).buf = s.buf := by rw [State.rawStore, State.setChk_buf, State.storeMem_buf]

theorem State.rawStore_f : (s.rawStore b).f = s.f := by rw [State.rawStore, State.setChk_f, State.storeMem_f]

theorem State.rawStore_bytes (x : Nat) : (s.rawStore b).byte x = (s.storeMem (32 * b) s.rawData 32).byte x := by
  rw [State.rawStore, State.byte_setChk]

/-- A burst stored raw keeps the check bytes given with it. -/
theorem State.rawStore_err : (s.rawStore b).burstErr b =
    (rsCheckWord ((s.rawStore b).burstBytes b) ^^^ s.get Reg.BUF_RAW_CHECK_CHECK) := by
  rw [BytesKept.burstBytes (s.rawStore_bytes b) b, State.rawStore, State.burstErr_setChk_put, State.get_storeMem]

end Store

/-- The state as an accepted raw operation begins: BUSY set, and its burst charged to class OTHER (R306). -/
def State.rawBegun (s : State) : State := (s.put Reg.BUF_RAW_CTL_BUSY 1).charge 4 1

theorem State.rawBegun_busy (s : State) : s.rawBegun.get Reg.BUF_RAW_CTL_BUSY = 1 :=
  State.get_put_of_lt s (F := Reg.BUF_RAW_CTL_BUSY) (v := 1) (by decide)

theorem State.rawBegun_fields (s : State) : FieldsKept s s.rawBegun [Reg.BUF_RAW_CTL_BUSY] :=
  (FieldsKept.refl s _).put Reg.BUF_RAW_CTL_BUSY 1 (List.mem_singleton_self _)

/-- An accepted read takes its burst's data and check bytes. -/
theorem State.rawStart_reading {s : State} (hbusy : s.get Reg.BUF_RAW_CTL_BUSY = 0) (hup : s.hbmUp = true) :
    s.rawStart .reading = s.rawBegun.setBuf { s.rawBegun.buf with
      raw := .reading
      rawGot := (s.rawBegun.loadMem (32 * s.get Reg.BUF_RAW_ADDR_BURST) 32,
        rsCheckWord (s.rawBegun.burstBytes (s.get Reg.BUF_RAW_ADDR_BURST)) ^^^ s.rawBegun.burstErr (s.get Reg.BUF_RAW_ADDR_BURST)) } := by
  rw [State.rawStart, State.flag_of_zero hbusy, hup]
  rfl

/-- The window is apart from BUSY. -/
theorem rawData_ne_busy : ∀ i ∈ List.range 8, (Reg.BUF_RAW_DATA_DATA i).key ∉ [Reg.BUF_RAW_CTL_BUSY].map Field.key := by decide

/-- An accepted write stores the window. -/
theorem State.rawStart_writing {s : State} (hbusy : s.get Reg.BUF_RAW_CTL_BUSY = 0) (hup : s.hbmUp = true) :
    s.rawStart .writing =
      (s.rawBegun.setBuf { s.rawBegun.buf with raw := .writing }).rawStore (s.get Reg.BUF_RAW_ADDR_BURST) := by
  rw [State.rawStart, State.flag_of_zero hbusy, hup]
  rfl

theorem State.rawStart_of_busy {s : State} (hbusy : s.get Reg.BUF_RAW_CTL_BUSY = 1) (op : RawOp) :
    s.rawStart op = s.reject Reg.BUF_CFG_STATUS_ERR Reg.BUF_CFG_STATUS_CODE 4 := if_pos (State.flag_of_one hbusy)

theorem State.rawStart_of_down {s : State} (hbusy : s.get Reg.BUF_RAW_CTL_BUSY = 0) (hdown : s.hbmUp = false) (op : RawOp) :
    s.rawStart op = s.reject Reg.BUF_CFG_STATUS_ERR Reg.BUF_CFG_STATUS_CODE 8 := by
  simp [State.rawStart, State.flag_of_zero hbusy, hdown]

/-- The registers that the end of a raw read writes: the window from the data `d` and check bytes `k`, and BUSY. -/
def rawWindow (d k : Nat) : List (Field × Nat) :=
  (List.range 8).map (fun i => (Reg.BUF_RAW_DATA_DATA i, d / 2 ^ (32 * i))) ++
    [(Reg.BUF_RAW_CHECK_CHECK, k), (Reg.BUF_RAW_CTL_BUSY, 0)]

theorem rawWindow_fields (d k : Nat) : (rawWindow d k).map Prod.fst =
    (List.range 8).map Reg.BUF_RAW_DATA_DATA ++ [Reg.BUF_RAW_CHECK_CHECK, Reg.BUF_RAW_CTL_BUSY] := rfl

theorem rawWindow_data (d k : Nat) {i : Nat} (hi : i < 8) : (Reg.BUF_RAW_DATA_DATA i, d / 2 ^ (32 * i)) ∈ rawWindow d k :=
  List.mem_append_left _ (List.mem_map.mpr ⟨i, List.mem_range.mpr hi, rfl⟩)

theorem rawWindow_nodup (d k : Nat) : ((rawWindow d k).map fun p => p.1.key).Nodup :=
  (by decide : (((List.range 8).map Reg.BUF_RAW_DATA_DATA ++ [Reg.BUF_RAW_CHECK_CHECK, Reg.BUF_RAW_CTL_BUSY]).map Field.key).Nodup)

theorem execRawOpDone_of_reading {s : State} (h : s.buf.raw = .reading) : execRawOpDone s =
    .next ((s.setBuf { s.buf with raw := .idle }).puts (rawWindow s.buf.rawGot.1 s.buf.rawGot.2)) := by
  rw [execRawOpDone, h]
  rfl

theorem execRawOpDone_of_writing {s : State} (h : s.buf.raw = .writing) : execRawOpDone s =
    .next ((s.setBuf { s.buf with raw := .idle }).put Reg.BUF_RAW_CTL_BUSY 0) := by
  rw [execRawOpDone, h]

theorem State.puts_buf (s : State) (l : List (Field × Nat)) : (s.puts l).buf = s.buf :=
  List.foldlRecOn (motive := fun t : State => t.buf = s.buf) l _ rfl fun _ ht _ _ => ht

/-! ## The statement -/

/-- Settles O35, check by check of a repair request, and by what a raw operation takes at its start and leaves at its end. -/
theorem repairAndRaw : Obligations.RepairAndRaw := by
  unfold Obligations.RepairAndRaw
  refine ⟨?begun, ?wrongState, ?running, ?noKey, ?ended, ?noRepair, ?rawRead, ?rawWrite, ?busy, ?down, ?readDone, ?writeDone, ?idle⟩
  case begun =>
    intro v s hkey hgo herr hstate hbusy
    refine ⟨_, (execPprRequest_of_key hkey hgo s).trans (congrArg Host.Outcome.next (if_neg (not_not.mpr hstate))), ?_⟩
    split
    next => exact State.bufRejected herr (by decide)
    next =>
      rw [State.flag_of_zero hbusy, if_neg (by decide)]
      have hf := State.zeroBursts_f (s.repairBegun (hasBit v.toNat 1) (s.get Reg.BUF_PPR_ROW_BURST))
        (rowBursts (s.get Reg.BUF_PPR_ROW_BURST))
      refine ⟨(State.get_of_f hf _).trans (s.repairBegun_busy _ _), State.zeroBursts_buf _ _, fun k hk i => ?_, fun a ha => ?_,
        (s.repairBegun_fields _ _).trans (FieldsKept.of_f hf _)⟩
      · rw [State.zeroBursts_byte, if_pos (by rwa [show (32 * k + i.val) / 32 = k by omega])]
      · rw [State.zeroBursts_byte, if_neg ha]
        rfl
  case wrongState =>
    intro v s hkey hgo herr h1 h2
    refine ⟨_, (execPprRequest_of_key hkey hgo s).trans (congrArg Host.Outcome.next (if_pos (not_or.mpr ⟨h1, h2⟩))), ?_⟩
    exact State.bufRejected herr (by decide)
  case running =>
    intro v s hkey hgo herr hstate hbusy
    refine ⟨_, (execPprRequest_of_key hkey hgo s).trans (congrArg Host.Outcome.next (if_neg (not_not.mpr hstate))), ?_⟩
    split
    next => exact State.bufRejected herr (by decide)
    next =>
      rw [State.flag_of_one hbusy, if_pos rfl]
      exact State.bufRejected herr (by decide)
  case noKey => exact fun v s hno => ⟨s, congrArg Host.Outcome.next (if_pos (by simpa using hno)), rfl⟩
  case ended =>
    intro f h n s hppr hwait
    have hrun := execPprDone_of_running hppr f
    rw [hwait] at hrun
    obtain ⟨hnone, -, -⟩ := s.buf.spent_rest f h (bankOf n)
    obtain ⟨hhard, hsoft⟩ := s.buf.spent_resources f h (bankOf n)
    refine ⟨_, hrun, hnone, ?_, ?_, State.get_put_of_lt _ ((b2n_lt f).trans (by decide)), hhard, hsoft, BytesKept.of_mem rfl,
      s.repaired_fields f h n⟩
    · exact (State.get_put_ne _ _ _ (by decide)).trans ((State.get_put_ne _ _ _ (by decide)).trans (State.get_put_of_lt _ (by decide)))
    · exact (State.get_put_ne _ _ _ (by decide)).trans (State.get_put_of_lt _ (by decide))
  case noRepair =>
    intro f s hnone
    exact ⟨s, congrArg Host.Outcome.next (by rw [hnone]), rfl⟩
  case rawRead =>
    rintro n s hup hbusy rfl
    have hkept : BytesKept s s.rawBegun := BytesKept.of_mem rfl
    refine ⟨_, congrArg Host.Outcome.next (State.rawStart_reading hbusy hup), s.rawBegun_busy, rfl, ?_,
      BytesKept.of_mem rfl, s.rawBegun_fields⟩
    exact congrArg₂ Prod.mk (hkept.loadMem _ _) (congrArg (rsCheckWord · ^^^ _) (hkept.burstBytes _))
  case rawWrite =>
    rintro n s hup hbusy rfl
    have hwindow : (s.rawBegun.setBuf { s.rawBegun.buf with raw := .writing }).rawData = s.rawData :=
      State.rawData_congr fun i hi => s.rawBegun_fields _ (rawData_ne_busy i hi)
    have hcheck := s.rawBegun_fields Reg.BUF_RAW_CHECK_CHECK (by decide)
    have hbytes := (s.rawBegun.setBuf { s.rawBegun.buf with raw := .writing }).rawStore_bytes (s.get Reg.BUF_RAW_ADDR_BURST)
    refine ⟨_, congrArg Host.Outcome.next (State.rawStart_writing hbusy hup), (State.get_of_f (State.rawStore_f _ _) _).trans
      s.rawBegun_busy, congrArg Buf.raw (State.rawStore_buf _ _), ?_, ?_, ?_,
      s.rawBegun_fields.trans (FieldsKept.of_f (State.rawStore_f _ _) _)⟩
    · rw [BytesKept.loadMem hbytes, State.loadMem_storeMem, hwindow]
    · exact fun x hx => (hbytes x).trans (State.storeMem_but _ _ _ 32 x hx)
    · rw [State.rawStore_err]
      exact congrArg (_ ^^^ ·) hcheck
  case busy =>
    intro s hbusy herr
    exact ⟨_, congrArg Host.Outcome.next (State.rawStart_of_busy hbusy _), State.bufRejected herr (by decide)⟩
  case down =>
    intro s hbusy hdown herr
    exact ⟨_, congrArg Host.Outcome.next (State.rawStart_of_down hbusy hdown _), State.bufRejected herr (by decide)⟩
  case readDone =>
    intro s hreading
    have hreads {F : Field} {v : Nat} (h : (F, v) ∈ rawWindow s.buf.rawGot.1 s.buf.rawGot.2) :=
      State.get_puts_of_mem (rawWindow_nodup _ _) h (s.setBuf { s.buf with raw := .idle })
    refine ⟨_, execRawOpDone_of_reading hreading, fun i => hreads (rawWindow_data _ _ i.isLt), hreads (v := s.buf.rawGot.2) ?_,
      hreads (v := 0) ?_, State.puts_buf _ _, BytesKept.of_mem (State.puts_mem _ _), ?_⟩
    · exact List.mem_append_right _ (by simp)
    · exact List.mem_append_right _ (by simp)
    · rw [← rawWindow_fields s.buf.rawGot.1 s.buf.rawGot.2]
      exact FieldsKept.puts (s.setBuf { s.buf with raw := .idle }) _
  case writeDone =>
    intro s hwriting
    exact ⟨_, execRawOpDone_of_writing hwriting, State.get_put_of_lt _ (by decide), rfl, BytesKept.of_mem rfl,
      (FieldsKept.of_f rfl _).put _ _ (by simp)⟩
  case idle =>
    intro s hidle
    exact ⟨s, congrArg Host.Outcome.next (by rw [hidle]), rfl⟩

end Sys2Proof.Machine
end

