-- ==== Sys2Proof/Proofs/ScrubValues.lean ====
section
/-! SUPPORT. A register value outside its range, which the statement on the scrubber does not exclude: BUSY of BUF_SCRUB_CTL at 2, a value
that its one bit does not hold (12 Table BUF-10). A start takes any value but 0 for a running scrub (R322), so that it is rejected with
code 4 and not, for the absent HBM, with code 8. -/

namespace Sys2Proof.Machine

/-- A block after reset, so without the HBM, whose scrubber has a length of one burst and a BUSY of 2. -/
def wideBusy : State := State.reset.setF [(Reg.BUF_SCRUB_CTL_BUSY.key, 2), (Reg.BUF_SCRUB_LEN_COUNT.key, 1)]

theorem wideBusy_scrub : wideBusy.get Reg.BUF_SCRUB_CTL_BUSY = 2 ∧ wideBusy.get Reg.BUF_SCRUB_LEN_COUNT = 1 ∧
    wideBusy.get Reg.BUF_SCRUB_START_BURST = 0 := by decide

theorem wideBusy_down : wideBusy.get Reg.BUF_CFG_STATUS_ERR = 0 ∧ wideBusy.hbmUp = false := by decide

/-- A start of legal extent is rejected with code 4 wherever BUSY is not 0 (R322). -/
theorem execScrubStart_of_busy {s : State} (hlen : 1 ≤ s.get Reg.BUF_SCRUB_LEN_COUNT)
    (hend : s.get Reg.BUF_SCRUB_START_BURST + s.get Reg.BUF_SCRUB_LEN_COUNT ≤ 536870912) (hbusy : s.get Reg.BUF_SCRUB_CTL_BUSY ≠ 0) :
    execScrubStart s = .next (s.reject Reg.BUF_CFG_STATUS_ERR Reg.BUF_CFG_STATUS_CODE 4) := by
  have hflag : s.flag Reg.BUF_SCRUB_CTL_BUSY = true := bne_iff_ne.mpr hbusy
  rw [execScrubStart, if_neg (by omega), if_neg (by omega), if_neg (by omega), if_pos hflag]

/-- Refutes O36: its second clause has code 8 for a start without the HBM whose BUSY is not 1, and `wideBusy`, with a BUSY of 2, is
rejected with code 4. -/
theorem not_scrubAndFlip : ¬ Obligations.ScrubAndFlip := by
  unfold Obligations.ScrubAndFlip
  rintro ⟨-, hrejected, -⟩
  obtain ⟨hbusy, hlen, hstart⟩ := wideBusy_scrub
  obtain ⟨herr, hdown⟩ := wideBusy_down
  obtain ⟨t, hrun, hcode, -⟩ := hrejected wideBusy herr (.inr (.inr (.inr hdown)))
  have hbusy4 : t = wideBusy.reject Reg.BUF_CFG_STATUS_ERR Reg.BUF_CFG_STATUS_CODE 4 :=
    Host.Outcome.next.inj (hrun.symm.trans (execScrubStart_of_busy (by omega) (by omega) (by omega)))
  rw [hbusy4, (State.bufRejected herr (by decide)).1, hlen, hstart, hbusy] at hcode
  exact absurd hcode (by decide)

end Sys2Proof.Machine
end
